-- ==== Sys2Proof/Word.lean ====
section
/-! DEFINITION. The word types of the WNX-480 (R8: bit 0 is the least significant bit of any word). -/

namespace Sys2Proof

/-- A byte of any memory. -/
abbrev Byte := BitVec 8

/-- A register, a scalar register of a tile or an instruction word (R9, R57). -/
abbrev Word := BitVec 64

/-- A block descriptor (R66). -/
abbrev Desc := BitVec 128

/-- An FP32 or INT32 element (R141). -/
abbrev W32 := BitVec 32

end Sys2Proof
end

