-- ==== Sys2Proof/Syntax.lean ====
section
/-! DEFINITION. The commands of the WNX-480: one constructor of `Instr` per row of the table of operations and
events, and the plain data their operands are made of. Operands of a command that stands for an event of the
outside or of an engine are what that event brings with it. -/

namespace Sys2Proof

/-- The function through which a register access arrives (R462, R464 `GEN_ERR.FUNC`). -/
inductive Func where
  | pf
  /-- VF `k`, numbered from 1 (R351). -/
  | vf (k : Nat)
  /-- The PF, in a TLP protected under key set `set` of IDE stream `stream` (R353). -/
  | pfIde (stream set : Nat)
  /-- VF `k`, in a TLP protected under key set `set` of IDE stream `stream` (R353). -/
  | vfIde (k stream set : Nat)
  | jtag
deriving DecidableEq, Repr

/-- The function itself, whatever protects the TLP. -/
def Func.base : Func → Func
  | .pfIde _ _ => .pf
  | .vfIde k _ _ => .vf k
  | f => f

/-- A beat source, as R20 encodes it. -/
inductive BeatSrc where
  | fabric | beatRef | crystal
deriving DecidableEq, Repr

/-- One hold entry of R255: what a HOLD or BEAT flit carries about one landing BN of one partition. -/
structure HoldEntry where
  land   : Nat
  demand : Nat
  overrun : Bool
  cause  : Nat
  part   : Nat
  origin : Nat
  task   : Nat
deriving DecidableEq, Repr

/-- The body of a BEAT flit (R255). -/
structure BeatBody where
  bn      : Nat
  master  : Nat
  holdover : Bool
  edgeOfs : Nat
  dir     : Nat
  holds   : List HoldEntry
deriving DecidableEq, Repr

/-- A fabric traffic class (R232, R252). -/
inductive TClass where
  | carmine | slate | pewter
deriving DecidableEq, Repr

/-- The 48-byte message header of R245. -/
structure MsgHdr where
  dest    : Nat
  src     : Nat
  kind    : Nat
  part    : Nat
  attempt : Nat
  next    : Bool
  step    : Nat
  addr    : Nat
  token   : Nat
  task    : Nat
deriving DecidableEq, Repr

/-- The 16-byte sub-header of a ROW message (R247). -/
structure RowHdr where
  table : Nat
  mb    : Nat
  rank  : Nat
deriving DecidableEq, Repr

/-- A bag entry of `SUB` 0x2 (R247). -/
structure BagEntry where
  bag    : Nat
  pos    : Nat
  seg    : Nat
  weight : W32
deriving DecidableEq, Repr

/-- A vector record of `SUB` 0x3 (R247): the node of the aligned block of `2^j` shards from shard `first`. -/
structure PartialRec where
  bag   : Nat
  first : Nat
  j     : Nat
  vals  : List W32
  tags  : List Nat
deriving DecidableEq, Repr

/-- A vector record of `SUB` 0x4 (FP32 values) (R247). -/
structure GradRec where
  bag  : Nat
  vals : List W32
deriving DecidableEq, Repr

/-- A winner vector of `SUB` 0x5 (R247, R186). -/
structure WinRec where
  bag : Nat
  pos : List Nat
deriving DecidableEq, Repr

/-- The sub-header of a COLLECTIVE message (R271). -/
structure CollHdr where
  coll   : Nat
  dim    : Nat
  dirn   : Nat
  pass   : Nat
  shard  : Nat
  offset : Nat
deriving DecidableEq, Repr

/-- A commit report (R311). -/
structure CommitReport where
  step    : Nat
  attempt : Nat
  status  : Nat
  cause   : Nat
  stage   : Nat
  count   : Nat
  faultBn : Nat
  origin  : Nat
  task    : Nat
  /-- `NEXT` of the message that carries it (R316). -/
  next    : Bool
  /-- Coordinate of the sending member in the stage's ring: the mailbox slot (R311). -/
  member  : Nat
deriving DecidableEq, Repr

/-- An Ochre command frame (R214). -/
structure Frame where
  opc   : Nat
  part  : Nat
  table : Nat
  tag   : Nat
  opa   : Nat
  opb   : Nat
  count : Nat
  token : Nat
  step  : Nat
  /-- Every reserved byte of the frame is 0. -/
  rsvdZero : Bool
deriving DecidableEq, Repr

/-- A sector a read met in error (R202, R206): its device address, which of its 36 stored bytes are off and by what, and
the corrections the device's own ECC reported with it. -/
structure SectorErr where
  addr  : Nat
  flips : List (Nat × Byte)
  onDie : Nat
deriving DecidableEq, Repr

/-- Identifies a memory unit: an HBM stack ST`k` or an Umber controller UC`c` (R227). -/
inductive MemUnit where
  | stack (k : Nat)
  | umber (c : Nat)
deriving DecidableEq, Repr

/-- A unit whose wheel's `REG_CTRL.DISCARD` is written (R228, R414). -/
inductive WheelUnit where
  | mem (u : MemUnit)
  | flit (port : Nat)
deriving DecidableEq, Repr

/-- What the published checks of an image's certificate and signature give (R395). -/
structure SigCheck where
  certOk : Bool
  sigOk  : Bool
deriving DecidableEq, Repr

/-- What a cold boot finds in the flash: the image in it before any has been programmed, the checks of the image that is in
it now, and whether the owner kept there is lost (R395, R396, R411). -/
structure BootFlash where
  image     : List Byte
  check     : SigCheck
  ownerLost : Bool
deriving DecidableEq, Repr

/-- A DIK certificate that the factory brings, and whether it verifies against the root (R412). -/
structure DikCert where
  cert : List Byte
  ok   : Bool
deriving DecidableEq, Repr

/-- How a flit came: its arrival in hub cycles after the module's own beat edge, and the symbols corrected in the port's
codewords since the last BEAT flit (R231, R255). -/
structure FlitArrival where
  arrive : Int
  fec    : Nat
deriving DecidableEq, Repr

/-- A HOLD flit: its sequence number and its entries (R233, R256). -/
structure HoldFlit where
  seq     : Nat
  entries : List HoldEntry
deriving DecidableEq, Repr

/-- The octets of a frame from its addresses to its FCS, as they come in by a stream port (R373). -/
structure RxFrame where
  port : Nat
  b    : List Byte
deriving DecidableEq, Repr

/-- The stream header of a frame with its port and the address of its peer (R375). -/
structure StreamHdr where
  port : Nat
  mac  : Nat
  type : Nat
  part : Nat
  last : Bool
  rank : Nat
  step : Nat
  seq  : Nat
deriving DecidableEq, Repr

/-- What a key exchange of R241 brings: the peer's certificate chain as the module's checks see it (R391 to R393). -/
structure PeerChain where
  /-- Every signature verifies and every `ISSUER` matches. -/
  sigsOk  : Bool
  /-- The root equals the root in the module's boot ROM. -/
  rootOk  : Bool
  /-- For a MANUFACTURE peer: the DIK certificate verifies under its own key and the alias under that DIK (R393). -/
  selfOk  : Bool
  lc      : Nat
  owner   : BitVec 512
  svn     : Nat
  /-- The Falcon signature over the digest of the exchange verifies. -/
  exchOk  : Bool
  /-- What the exchange brought: the encapsulation key of a peer of lower position rank, the ciphertext of any other. -/
  kem     : List Byte
deriving DecidableEq, Repr

/-- One entry of a RESUME: a logical rank and its new host's position rank (R281). -/
structure HostEntry where
  rank : Nat
  host : Nat
deriving DecidableEq, Repr

/-- The RESUME message (R281). -/
structure ResumeMsg where
  hepoch   : Nat
  resumeBn : Nat
  step     : Nat
  entries  : List HostEntry
  /-- The hosted-schedule digests exchanged by R282 agree on every module. -/
  digestsAgree : Bool
deriving DecidableEq, Repr

/-- What a module reports to its coordinator of a step in doubt (R322). -/
inductive DoubtReport where
  | committed | rolledBack | inDoubt
deriving DecidableEq, Repr

/-- A page load sum a rank sends at a period end (R194). -/
structure ShardLoad where
  rank  : Nat
  shard : Nat
  load  : Nat
deriving DecidableEq, Repr

/-- An OWNER_CMD payload (R401), with its signature as its verification comes out. -/
structure OwnerCmd where
  nonce  : BitVec 256
  /-- The public key it carries. -/
  key    : List Byte
  /-- The signature verifies under the active owner key. -/
  sigOk  : Bool
deriving DecidableEq, Repr

/-- The commands: one constructor per row of the opcode table, in its order. -/
inductive Instr where
  -- register access (R9 to R13, R460)
  | registerWrite (f : Func) (off size : Nat) (v : Word)
  | rcFieldRead (f : Func) (off size : Nat)
  -- beats and the beat tree (R20 to R26, R255)
  | beat
  | beatSourceLost
  | masterMarkerLoss
  | holdoverExit (src : BeatSrc) (markerBn : Option Nat) (edge : Int)
  | alternateUpstream (port : Nat)
  | upstreamReturn
  | masterDeclare
  | beatLost
  | plnBnLoad (f : Func) (v : Word)
  | bnLoadApply
  | beatFlit (port : Nat) (b : BeatBody) (came : FlitArrival)
  -- plans (R36 to R41, R54)
  | planLoadGo (f : Func) (p : Nat)
  | planLoadDone (p : Nat) (digests : List (BitVec 512))
  | runSet (f : Func) (p : Nat) (v : Word)
  | runClear (f : Func) (p : Nat) (v : Word)
  | planStart (p : Nat)
  | stepOrigin (p : Nat)
  -- tasks (R32, R482)
  | tileDispatch (p task g share base : Nat)
  | clusterMove (p task chain : Nat)
  | hostMove (p task chain : Nat)
  | indexSort (p table mb : Nat)
  | segmentReduction (p table : Nat)
  | gatherAndPool (p table mb rank : Nat) (errs : List SectorErr)
  | sparseUpdate (p table : Nat)
  | carmineTransfer (p task : Nat) (dests : List HostEntry) (bytes src dst token : Nat)
  | collective (p task rank : Nat)
  | ingestDelivery (p task mb : Nat)
  | prefetch (p table : Nat)
  | workingCopyCompare (p tensor block master copy fmt : Nat)
  | calibrationTask (p layer : Nat) (u w : List W32)
  -- holds (R43 to R48, R256)
  | windowOpen (p task : Nat) (bytes : List Nat)
  | holdFlit (port : Nat) (x : HoldFlit)
  | holdLanding (p land : Nat)
  | holdLimitReached (p : Nat)
  | plnHoldPop (f : Func) (p : Nat) (v : Word)
  | balanceDecision (p : Nat) (finish : List Nat)
  -- M slot (R69)
  | mxMul (g : Nat) (w : Word)
  | mxMultA (g : Nat) (w : Word)
  | mxMultB (g : Nat) (w : Word)
  | mxLd (g : Nat) (w : Word)
  | mxSt (g : Nat) (w : Word)
  | mxStq (g : Nat) (w : Word)
  | mxZero (g : Nat) (w : Word)
  -- V slot (R71)
  | vcRun (g : Nat) (w : Word)
  | vcCfg (g : Nat) (w : Word)
  -- scalar arithmetic (R72)
  | add (g : Nat) (w : Word)
  | sub (g : Nat) (w : Word)
  | mul (g : Nat) (w : Word)
  | and (g : Nat) (w : Word)
  | or (g : Nat) (w : Word)
  | xor (g : Nat) (w : Word)
  | shl (g : Nat) (w : Word)
  | shr (g : Nat) (w : Word)
  | sra (g : Nat) (w : Word)
  | min (g : Nat) (w : Word)
  | max (g : Nat) (w : Word)
  | cmpEq (g : Nat) (w : Word)
  | cmpNe (g : Nat) (w : Word)
  | cmpLt (g : Nat) (w : Word)
  | cmpLtu (g : Nat) (w : Word)
  | pand (g : Nat) (w : Word)
  | por (g : Nat) (w : Word)
  | pxor (g : Nat) (w : Word)
  -- X slot memory and moves (R73)
  | xsLd (g : Nat) (w : Word)
  | xsSt (g : Nat) (w : Word)
  | xdSet (g : Nat) (w : Word)
  | xdLd (g : Nat) (w : Word)
  | xdSt (g : Nat) (w : Word)
  | xmCopy (g : Nat) (w : Word)
  | xmDma (g : Nat) (w : Word)
  -- C slot control (R74)
  | csBr (g : Nat) (w : Word)
  | csLoop (g : Nat) (w : Word)
  | csWaitBeat (g : Nat) (w : Word)
  | csWaitTok (g : Nat) (w : Word)
  | csWaitCyc (g : Nat) (w : Word)
  | csArrive (g : Nat) (w : Word)
  | csHalt (g : Nat) (w : Word)
  -- events of a tile (R62, R77 to R81)
  | instructionResultVisible (g : Nat)
  | waitBeatSatisfied (g : Nat)
  | waitTokSatisfied (g : Nat)
  | waitCycExpiry (g : Nat)
  | waitTimeout (g : Nat)
  | arriveIncrement (g : Nat)
  | dmaArrival (c ch : Nat)
  -- Ochre engines: e = 0..7 for OCH0..OCH7, 8 for OCH-U (R213 to R217)
  | cfg (e : Nat) (f : Frame)
  | gather (e : Nat) (f : Frame) (errs : List SectorErr)
  | pool (e : Nat) (f : Frame) (errs : List SectorErr)
  | update (e : Nat) (f : Frame) (errs : List SectorErr)
  | copy (e : Nat) (f : Frame) (errs : List SectorErr)
  | restore (e : Nat) (f : Frame)
  | release (e : Nat) (f : Frame)
  | fence (e : Nat) (f : Frame)
  | ochreCommandComplete (e q tag : Nat)
  | completionRecordRead (e q : Nat)
  -- placement and replacement (R192 to R199)
  | placementPeriod (p : Nat)
  | pageCopy (p : Nat)
  | shardMoveDecision (p table : Nat) (loads : List ShardLoad)
  | rowReplGo (f : Func) (p : Nat) (v : Word)
  | replacementCopyDone (p : Nat)
  | replacementStateExchange (p : Nat) (states : List Nat)
  -- memory tiers (R202 to R228)
  | refresh (u : MemUnit)
  | patrolScrub (u : MemUnit) (errs : List SectorErr)
  | refreshManagement (u : MemUnit)
  | temperatureReadout (u : MemUnit) (temp : Nat)
  | wheelApply
  | regCtrlDiscard (u : WheelUnit)
  | marginOffline (u : MemUnit) (v : Word)
  | offlineEnter (u : MemUnit)
  | offlineLeave (u : MemUnit) (trained : Bool)
  | marginApply (u : MemUnit) (v : Word)
  | tgGo (u : MemUnit) (n : Nat) (v : Word)
  | tgDone (u : MemUnit) (n : Nat) (errs : List SectorErr)
  -- fabric ports (R234 to R261)
  | fabCfgWrite (f : Func) (v : Word)
  | portEnable (port : Nat) (v : Word)
  | opticalSignalDetect (port : Nat)
  | equaliseDone (port lanes : Nat)
  | alignDone (port farPos : Nat) (rings : Nat × Nat × Nat) (rtt : Nat)
  | keyingDone (port : Nat) (peer : PeerChain)
  | trainingLimitExpiry (port : Nat)
  | portRetrain (port : Nat)
  | laneLoss (port lanes : Nat)
  | remapDone (port : Nat)
  | portSignalLost (port : Nat)
  | nakReceive (port seq : Nat)
  | retryTimeout (port : Nat)
  | sealFlit (port : Nat) (seq group count : Nat) (tagOk : Bool) (credit : List Nat)
  -- messages (R246 to R249, R271)
  | writeMessage (c : TClass) (h : MsgHdr) (payload : List Byte)
  | collectiveMessage (c : TClass) (h : MsgHdr) (k : CollHdr) (data : List Byte)
  | rowUniqueKeys (c : TClass) (h : MsgHdr) (r : RowHdr) (keys : List Nat)
  | rowBagEntries (c : TClass) (h : MsgHdr) (r : RowHdr) (entries : List BagEntry)
  | rowShardPartials (c : TClass) (h : MsgHdr) (r : RowHdr) (recs : List PartialRec)
  | rowGradients (c : TClass) (h : MsgHdr) (r : RowHdr) (recs : List GradRec)
  | rowWinnerVectors (c : TClass) (h : MsgHdr) (r : RowHdr) (recs : List WinRec)
  | testMessage (c : TClass) (h : MsgHdr) (payload : List Byte)
  | bypassOpen (f : Func) (v : Word)
  -- mirroring and hosting (R275 to R287)
  | deltaSend (p rank : Nat) (sectors : List Nat)
  | deltaEnd (p rank step bytes : Nat)
  | deltaAck (p rank step : Nat)
  | deltaLogApply (p rank : Nat)
  | failureNotice (p : Nat) (positions : List Nat) (bn : Nat)
  | hostingDecision (p : Nat)
  | resume (p : Nat) (r : ResumeMsg)
  | lateResumeReport (p hepoch : Nat)
  | hostingStop (p step : Nat) (digestsDiffer : Bool)
  | portStatusReport (p pos port : Nat) (up : Bool)
  | restart (p step originBn : Nat)
  | commitStateReport (p pos : Nat) (r : DoubtReport)
  | hostClaim (f : Func) (p : Nat) (v : Word)
  -- commit and rollback (R311 to R322)
  | commitReportSend (p : Nat)
  | commitReportReceive (p : Nat) (r : CommitReport)
  | rerunOrigin (p : Nat)
  | commitBeat (p : Nat)
  -- host port (R351 to R371)
  | vfFlr (k : Nat)
  | pfFlr
  | getChain (stream : Nat)
  | kemKey (stream : Nat) (ekey : List Byte) (nonce : BitVec 256)
  | keyGo (stream k : Nat)
  | ideStop (stream : Nat)
  | getReport (nonce : BitVec 512)
  | getNonce
  | setOwner (c : OwnerCmd)
  | releaseOwner (c : OwnerCmd)
  | deploy (c : OwnerCmd)
  | returnLc (c : OwnerCmd)
  | scrap (c : OwnerCmd)
  | bar2WindowAccess (f : Func) (off : Nat) (wr : Option (List Byte)) (len : Nat)
  | dmaQring (f : Func) (q : Nat) (v : Word)
  | dmaQarm (f : Func) (q : Nat) (v : Word)
  | dmaQabort (f : Func) (q : Nat)
  | abortComplete (h : Nat)
  | moverChainStart (h : Nat)
  | descriptorStart (h : Nat)
  | descriptorComplete (h : Nat)
  | hostCompletionError (h : Nat)
  | dmaMcfgWrite (f : Func) (h : Nat) (v : Word)
  -- stream port (R372 to R381): the octets of a frame; where a row has them in pieces, the pieces joined in order
  | sampleFrame (port : Nat) (b : List Byte)
  | endFrame (port : Nat) (head body check : List Byte)
  | registerFrame (x : RxFrame)
  | creditFrame (port : Nat) (head body : List Byte)
  | kexFrame (port : Nat) (head body check : List Byte)
  | creditSend (p : Nat)
  | streamLinkChange (port : Nat) (up : Bool) (phy : Nat)
  | stmCkptGo (f : Func) (p : Nat) (v : Word)
  | ckptFrameSend (p bytes : Nat)
  -- boot, firmware and security (R388 to R401)
  | coldBoot (flash : BootFlash) (trained : List Bool) (bistFail : Option (Nat × Nat)) (links : List Nat)
  | fwUpdateGo (f : Func) (v : Word)
  | fwUpdateDone (check : SigCheck) (flashOk : Bool)
  | recoveryGo (f : Func) (v : Word) (check : SigCheck) (flashOk : Bool)
  | svnCommit (f : Func) (v : Word)
  | entropyFailure
  | entropyFailureTimeout
  -- partitions (R405 to R411)
  | prtGranWrite (f : Func) (i : Nat) (v : Word)
  | prtClustersWrite (f : Func) (p : Nat) (v : Word)
  | prtQuotaWrite (f : Func) (p : Nat) (v : Word)
  | prtReset (f : Func) (p : Nat) (v : Word)
  | prtFrzPop (f : Func) (p : Nat) (v : Word)
  | wipeComplete (p : Nat)
  -- power (R416 to R429, R473 to R478)
  | pwrTargetRun (f : Func) (v : Word)
  | pwrTargetIdle (f : Func) (v : Word)
  | pwrTargetSleep (f : Func) (v : Word)
  | pwrTargetDeepSleep (f : Func) (v : Word)
  | pwrTargetOff (f : Func) (v : Word)
  | idleTimerExpiry
  | domainWake
  | transitionComplete (trained : List Bool)
  | deepSleepBnAdvance
  | wakeNAssert
  | wakeTimerExpiry
  | perstNAssert
  | perstNDeassert
  | inputPowerLoss
  | inputPowerRestored
  | auxPowerApplied
  | inputStageOn
  | auxPowerLoss
  | thermalTrip
  | pwrRampWrite (f : Func) (v : Word)
  -- test and service (R434 to R442)
  | tstMbistGo (f : Func) (v : Word)
  | mbistDone (fail : Option (Nat × Nat))
  | ashSegmentStart (c seg : Nat)
  | ashSegmentEnd (c : Nat) (signatures : List Word)
  | tstFtgGo (f : Func) (v : Word)
  | tstElogPop (f : Func) (v : Word)
  | extest
  | clamp
  | highz
  | idcode
  | jtagBar0Access (off size : Nat) (wr : Option Word)
  -- link receive (R234, R235), frames and factory (R376, R412, R478)
  | flitDiscard (port : Nat) (crcBad : Bool) (symErrs : List Nat)
  | ackReceive (port seq : Nat)
  | otherFrame (x : RxFrame)
  | indexUnitComplete (p unit : Nat)
  | provision (dik : DikCert)
  | tripCooldown (temps : List Nat)
deriving DecidableEq, Repr

end Sys2Proof
end

