-- ==== Sys2Proof/Machine/Sparse.lean ====
section
/-! DEFINITION. Sparse maps: lists of (key, value) pairs with rising keys, in which an entry equal to what an
unlisted key reads as is left out, so that equal maps are equal lists; and the bit fields of a register word. -/

namespace Sys2Proof.Machine

variable {α : Type}

/-- The value at key `k`; `d` is what an unlisted key reads as. -/
def mget (d : α) : List (Nat × α) → Nat → α
  | [], _ => d
  | (a, v) :: m, k => if a = k then v else mget d m k

/-- The map without key `k`. -/
def mdel : List (Nat × α) → Nat → List (Nat × α)
  | [], _ => []
  | (a, v) :: m, k => if a = k then mdel m k else (a, v) :: mdel m k

/-- The map with `v` at key `k`, keys rising. -/
def mins : List (Nat × α) → Nat → α → List (Nat × α)
  | [], k, v => [(k, v)]
  | (a, w) :: m, k, v => if k < a then (k, v) :: (a, w) :: m
      else if a = k then (k, v) :: m else (a, w) :: mins m k v

/-- Writes `v` at key `k`; a value equal to the unlisted one leaves no entry. -/
def mput [DecidableEq α] (d : α) (m : List (Nat × α)) (k : Nat) (v : α) : List (Nat × α) :=
  if v = d then mdel m k else mins m k v

/-- Every key of the map lies above `k`. -/
def mabove (k : Nat) : List (Nat × α) → Bool
  | [] => true
  | (a, _) :: m => decide (k < a) && mabove k m

/-- The canonical form: keys rising, no entry equal to the unlisted value. -/
def mwf [DecidableEq α] (d : α) : List (Nat × α) → Bool
  | [] => true
  | (a, v) :: m => decide (v ≠ d) && mabove a m && mwf d m

/-- Ones in bits [hi:lo]. -/
def fieldMask (hi lo : Nat) : Word := BitVec.ofNat 64 (2 ^ (hi + 1 - lo) - 1) <<< lo

/-- Bits [hi:lo] of a word as a number. -/
def getBits (w : Word) (hi lo : Nat) : Nat := (w.toNat >>> lo) % 2 ^ (hi + 1 - lo)

/-- A word with bits [hi:lo] set to `v`. -/
def putBits (w : Word) (hi lo v : Nat) : Word :=
  (w &&& ~~~ fieldMask hi lo) ||| ((BitVec.ofNat 64 v <<< lo) &&& fieldMask hi lo)

/-- Bits [hi:lo] of a number. -/
def natBits (n hi lo : Nat) : Nat := (n >>> lo) % 2 ^ (hi + 1 - lo)

/-- A number as a two's-complement value of `w` bits. -/
def signed (w n : Nat) : Int :=
  let m := n % 2 ^ w
  if m < 2 ^ (w - 1) then m else (m : Int) - 2 ^ w

/-- The `n` little-endian bytes of a number (R8). -/
def leBytes : Nat → Nat → List Byte
  | 0, _ => []
  | n + 1, v => BitVec.ofNat 8 v :: leBytes n (v / 256)

/-- The number that little-endian bytes hold (R8). -/
def leNat : List Byte → Nat
  | [] => 0
  | b :: bs => b.toNat + 256 * leNat bs

/-- The little-endian number of `n` bytes at offset `o`. -/
def le (b : List Byte) (o n : Nat) : Nat := leNat ((b.drop o).take n)

end Sys2Proof.Machine
end

