-- ==== Sys2Proof/Machine/Fp.lean ====
section
/-! DEFINITION. Element formats, rounding and FP32 arithmetic (R124, R141 to R149, R163 to R166): a value is decoded
to an exact number, the operation is exact, and one rounding follows. -/

namespace Sys2Proof.Machine

/-- The exact value an element code stands for: NaN, an infinity, or (−1)^neg · m · 2^e. -/
inductive Fv where
  | nan
  | inf (neg : Bool)
  | fin (neg : Bool) (m : Nat) (e : Int)
deriving DecidableEq, Repr

/-- A binary format: exponent and mantissa bits, bias, largest finite magnitude code, canonical NaN code, and
whether the code after the largest finite one is an infinity (R141, R144). -/
structure Fmt where
  eb   : Nat
  mb   : Nat
  bias : Int
  top  : Nat
  nan  : Nat
  hasInf : Bool
deriving DecidableEq, Repr

def fp32 : Fmt := ⟨8, 23, 127, 0x7F7FFFFF, 0x7FC00000, true⟩
def bf16 : Fmt := ⟨8, 7, 127, 0x7F7F, 0x7FC0, true⟩
def fp16 : Fmt := ⟨5, 10, 15, 0x7BFF, 0x7E00, true⟩
def e4m3 : Fmt := ⟨4, 3, 7, 0x7E, 0x7F, false⟩
def e5m2 : Fmt := ⟨5, 2, 15, 0x7B, 0x7E, true⟩
def e2m1 : Fmt := ⟨2, 1, 1, 0x7, 0x7, false⟩

/-- The format a `FMT` code below 6 names (R141). -/
def fmtOf (f : Nat) : Fmt :=
  match f with
  | 0 => fp32
  | 1 => bf16
  | 2 => fp16
  | 3 => e4m3
  | 4 => e5m2
  | _ => e2m1

/-- Bits of a code besides its sign. -/
def Fmt.mag (f : Fmt) : Nat := f.eb + f.mb

/-- The exponent of the smallest subnormal. -/
def Fmt.emin (f : Fmt) : Int := 1 - f.bias - f.mb

/-- The exact value of a code (R141, R142, R144). -/
def Fmt.decode (f : Fmt) (code : Nat) : Fv :=
  let neg := (code >>> f.mag) % 2 = 1
  let c := code % 2 ^ f.mag
  if f.top < c then
    if f.hasInf ∧ c = f.top + 1 then .inf neg
    else .nan
  else
    let ex := c >>> f.mb
    let m := c % 2 ^ f.mb
    if ex = 0 then .fin neg m f.emin else .fin neg (m + 2 ^ f.mb) (f.emin + (ex - 1))

/-- Nearest integer to `m / 2^d`, ties to even. -/
def shrRne (m d : Nat) : Nat :=
  let q := m >>> d
  let r := m % 2 ^ d
  if 2 * r < 2 ^ d then q else if 2 ^ d < 2 * r then q + 1 else if q % 2 = 0 then q else q + 1

/-- The grid exponent of a magnitude m·2^e in a format: subnormals included (R145). -/
def Fmt.grid (f : Fmt) (m : Nat) (e : Int) : Int := max (e + Nat.log2 m - f.mb) f.emin

/-- The code that a count `q` of grid steps 2^`sh` makes, the exponent unbounded above. -/
def Fmt.pack (f : Fmt) (q : Nat) (sh : Int) : Nat :=
  if q < 2 ^ f.mb then q else (sh - f.emin).toNat * 2 ^ f.mb + q

/-- The magnitude code nearest to m·2^e, ties to even, the exponent unbounded above (R145). -/
def Fmt.rneCode (f : Fmt) (m : Nat) (e : Int) : Nat :=
  if m = 0 then 0 else
    let sh := f.grid m e
    if sh ≤ e then f.pack (m <<< (e - sh).toNat) sh else f.pack (shrRne m (sh - e).toNat) sh

/-- The magnitude code of R163 for the random number `u` of 32 bits. -/
def Fmt.srCode (f : Fmt) (m : Nat) (e : Int) (u : Nat) : Nat :=
  if m = 0 then 0 else
    let sh := f.grid m e
    if sh ≤ e then f.pack (m <<< (e - sh).toNat) sh
    else
      let d := (sh - e).toNat
      let q := m >>> d
      -- U < φ·2^32 with φ = (m mod 2^d)/2^d
      f.pack (if u * 2 ^ d < (m % 2 ^ d) * 2 ^ 32 then q + 1 else q) sh

/-- A code with its sign bit. -/
def Fmt.sign (f : Fmt) (neg : Bool) (c : Nat) : Nat := if neg then c + 2 ^ f.mag else c

/-- How a conversion rounds (R129): nearest even saturating, nearest even not saturating, or stochastic with its
random number. -/
inductive RMode where
  | sat | inf | stoch (u : Nat)
deriving DecidableEq, Repr

/-- A value to a narrower format, and whether it saturated (R145, R146). E2M1 has neither NaN nor infinity: its code
for a NaN is 0000b, and every magnitude above 6 and ±∞ saturate (R128, R147). -/
def Fmt.convert (f : Fmt) (mode : RMode) (v : Fv) : Nat × Bool :=
  let isE2 := f.eb = 2
  match v with
  | .nan => (if isE2 then 0 else f.nan, false)
  | .inf neg =>
    if mode = .inf ∧ ¬ isE2 then (if f.hasInf then f.sign neg (f.top + 1) else f.nan, false)
    else (f.sign neg f.top, true)
  | .fin neg m e =>
    let c := match mode with
      | .stoch u => if isE2 then f.rneCode m e else f.srCode m e u
      | _ => f.rneCode m e
    let big : Bool := isE2 && 6 * 2 ^ (- e).toNat < m * 2 ^ e.toNat
    if c ≤ f.top ∧ !big then (f.sign neg c, false)
    else if mode = .inf ∧ ¬ isE2 then (if f.hasInf then f.sign neg (f.top + 1) else f.nan, false)
    else (f.sign neg f.top, true)

/-- A value times 2^x. -/
def Fv.scale (v : Fv) (x : Int) : Fv :=
  match v with
  | .fin n m e => .fin n m (e + x)
  | v => v

/-! ## FP32 -/

/-- The exact value of an FP32 code. -/
def f32v (w : W32) : Fv := fp32.decode w.toNat

/-- The canonical quiet NaN of FP32 (R144). -/
def qnan : W32 := 0x7FC00000

def pinf : W32 := 0x7F800000
def ninf : W32 := 0xFF800000
def one32 : W32 := 0x3F800000

/-- An exact value rounded to FP32, nearest even; overflow gives ±∞ (R93, R124). -/
def rne32 (v : Fv) : W32 :=
  match v with
  | .nan => qnan
  | .inf neg => if neg then ninf else pinf
  | .fin neg m e =>
    let c := fp32.rneCode m e
    BitVec.ofNat 32 (fp32.sign neg (if fp32.top < c then fp32.top + 1 else c))

def isNan (w : W32) : Bool := f32v w = .nan
def isInf (w : W32) : Bool := match f32v w with | .inf _ => true | _ => false
def isFin (w : W32) : Bool := match f32v w with | .fin .. => true | _ => false
def isZero (w : W32) : Bool := w.toNat % 2 ^ 31 = 0
def isNeg (w : W32) : Bool := w.toNat / 2 ^ 31 = 1

/-- An exact dyadic number m·2^e. -/
structure Dy where
  m : Int
  e : Int
deriving DecidableEq, Repr

def Dy.zero : Dy := ⟨0, 0⟩

/-- Exact sum. -/
def Dy.add (a b : Dy) : Dy :=
  if a.m = 0 then b else if b.m = 0 then a
  else
    let e := min a.e b.e
    ⟨a.m * 2 ^ (a.e - e).toNat + b.m * 2 ^ (b.e - e).toNat, e⟩

/-- Exact product. -/
def Dy.mul (a b : Dy) : Dy := ⟨a.m * b.m, a.e + b.e⟩

def Dy.neg (a : Dy) : Dy := ⟨- a.m, a.e⟩

/-- Exact comparison. -/
def Dy.lt (a b : Dy) : Bool := (Dy.add a b.neg).m < 0

def Dy.le (a b : Dy) : Bool := (Dy.add a b.neg).m ≤ 0

/-- As a value; zero is +0 (R93). -/
def Dy.fv (a : Dy) : Fv := .fin (a.m < 0) a.m.natAbs a.e

/-- The number a finite value stands for; 0 for the others. -/
def Fv.dy (v : Fv) : Dy :=
  match v with
  | .fin neg m e => ⟨if neg then - (m : Int) else m, e⟩
  | _ => .zero

def Fv.neg (v : Fv) : Fv :=
  match v with
  | .nan => .nan
  | .inf n => .inf (!n)
  | .fin n m e => .fin (!n) m e

def Fv.isNeg (v : Fv) : Bool :=
  match v with
  | .nan => false
  | .inf n => n
  | .fin n _ _ => n

def Fv.isZero (v : Fv) : Bool := match v with | .fin _ 0 _ => true | _ => false

/-- Exact product of two values (IEEE 754 for the special ones). -/
def Fv.mul (a b : Fv) : Fv :=
  match a, b with
  | .nan, _ => .nan
  | _, .nan => .nan
  | .inf n, .inf k => .inf (n != k)
  | .inf n, .fin k m _ => if m = 0 then .nan else .inf (n != k)
  | .fin k m _, .inf n => if m = 0 then .nan else .inf (n != k)
  | .fin n m e, .fin k l f => .fin (n != k) (m * l) (e + f)

/-- Exact sum of two values; an exact zero of a cancellation is +0 (IEEE 754, nearest even). -/
def Fv.add (a b : Fv) : Fv :=
  match a, b with
  | .nan, _ => .nan
  | _, .nan => .nan
  | .inf n, .inf k => if n = k then .inf n else .nan
  | .inf n, _ => .inf n
  | _, .inf n => .inf n
  | .fin n 0 e, .fin k 0 _ => .fin (n && k) 0 e
  | a, b => (Dy.add a.dy b.dy).fv

def fadd (a b : W32) : W32 := rne32 ((f32v a).add (f32v b))
def fsub (a b : W32) : W32 := rne32 ((f32v a).add (f32v b).neg)
def fmul (a b : W32) : W32 := rne32 ((f32v a).mul (f32v b))
/-- a·b + c, rounded once. -/
def ffma (a b c : W32) : W32 := rne32 (((f32v a).mul (f32v b)).add (f32v c))

/-- The quotient n/d·2^e of positive numbers as a value that every rounding treats as the exact one: at least 64
bits of it and a sticky bit. -/
def ratFv (neg : Bool) (n d : Nat) (e : Int) : Fv :=
  if d = 0 then .nan else
    let k := 64 + Nat.log2 d - min 63 (Nat.log2 n)
    let q := (n <<< k) / d
    .fin neg (2 * q + (if (n <<< k) % d = 0 then 0 else 1)) (e - k - 1)

/-- IEEE 754 division, before its rounding. -/
def Fv.div (a b : Fv) : Fv :=
  match a, b with
  | .nan, _ => .nan
  | _, .nan => .nan
  | .inf _, .inf _ => .nan
  | .inf n, .fin k _ _ => .inf (n != k)
  | .fin n _ _, .inf k => .fin (n != k) 0 0
  | .fin n m e, .fin k l f =>
    if l = 0 then (if m = 0 then .nan else .inf (n != k))
    else if m = 0 then .fin (n != k) 0 0
    else ratFv (n != k) m l (e - f)

def fdiv (a b : W32) : W32 := rne32 ((f32v a).div (f32v b))

/-- Largest `r` below 2^`k` with r² ≤ n. -/
def isqrtGo (n : Nat) : Nat → Nat → Nat
  | 0, r => r
  | k + 1, r => let t := r + 2 ^ k; isqrtGo n k (if t * t ≤ n then t else r)

def isqrt (n : Nat) : Nat := isqrtGo n (Nat.log2 n / 2 + 1) 0

/-- The root of m·2^e, with enough bits and a sticky bit. -/
def sqrtFv (m : Nat) (e : Int) : Fv :=
  if m = 0 then .fin false 0 0 else
    let k := 130 + (if (e - 130) % 2 = 0 then 0 else 1)
    let n := m <<< k
    let r := isqrt n
    .fin false (2 * r + (if r * r = n then 0 else 1)) ((e - k) / 2 - 1)

def fsqrt (a : W32) : W32 :=
  match f32v a with
  | .fin false m e => rne32 (sqrtFv m e)
  | .fin true 0 _ => a
  | .inf false => pinf
  | _ => qnan

/-- Order key of a non-NaN FP32 code: −0 below +0 (R124). -/
def ordKey (w : W32) : Int := if isNeg w then - ((w.toNat % 2 ^ 31 : Nat) : Int) - 1 else w.toNat

def fmin (a b : W32) : W32 := if isNan a ∨ isNan b then qnan else if ordKey b < ordKey a then b else a
def fmax (a b : W32) : W32 := if isNan a ∨ isNan b then qnan else if ordKey a < ordKey b then b else a
def fabs (a : W32) : W32 := if isNan a then qnan else BitVec.ofNat 32 (a.toNat % 2 ^ 31)
def fneg (a : W32) : W32 := if isNan a then qnan else a ^^^ 0x80000000

/-- a < b as numbers; false with a NaN. -/
def flt (a b : W32) : Bool :=
  match f32v a, f32v b with
  | .nan, _ => false
  | _, .nan => false
  | .inf n, .inf k => n && !k
  | .inf n, _ => n
  | _, .inf k => !k
  | x, y => Dy.lt x.dy y.dy

/-- An integer rounded to FP32. -/
def intToF32 (n : Int) : W32 := rne32 (.fin (n < 0) n.natAbs 0)

/-- 2^k as an FP32 code, if representable; used for scales. -/
def pow2 (k : Int) : Fv := .fin false 1 k

/-- The largest magnitude among the finite values of a list, +0 if there is none (R150). -/
def amax (l : List W32) : W32 :=
  l.foldl (fun a w => if isFin w ∧ a.toNat < w.toNat % 2 ^ 31 then BitVec.ofNat 32 (w.toNat % 2 ^ 31) else a) 0

/-- Exact group sum of R92 and R93: a NaN term, or infinities of both signs, make it NaN; infinities of one sign that
infinity; otherwise the exact sum, zero being +0. -/
def groupSum (terms : List Fv) : Fv :=
  if terms.any (· = .nan) then .nan
  else
    let p := terms.any (· = .inf false)
    let n := terms.any (· = .inf true)
    if p && n then .nan else if p then .inf false else if n then .inf true
    else (terms.foldl (fun a t => Dy.add a t.dy) .zero).fv

/-- The smallest integer s with A ≤ F·2^s, for a positive magnitude A and a positive F, exact (R147, R154). -/
def scaleExp (a f : Dy) : Int :=
  -- log2 estimates bound the answer within one of s0
  let s0 : Int := (Nat.log2 a.m.natAbs + a.e) - (Nat.log2 f.m.natAbs + f.e) - 1
  if Dy.le a ⟨f.m, f.e + s0⟩ then s0
  else if Dy.le a ⟨f.m, f.e + s0 + 1⟩ then s0 + 1
  else s0 + 2

/-- The largest finite value of an FP8 format (R154). -/
def fp8Max (f : Nat) : Dy := if f = 3 then ⟨448, 0⟩ else ⟨57344, 0⟩

/-! ## Compensated BF16 (R164, R165) and stochastic rounding (R162) -/

/-- Exponent e of R164 for a BF16 code. -/
def compExp (h : Nat) : Int :=
  match bf16.decode h with
  | .fin _ m e => if m = 0 then -126 else max (e + Nat.log2 m) (-126)
  | _ => -126

/-- The FP32 value of a compensated element (R164). -/
def compValue (h : Nat) (r : Byte) : W32 :=
  match bf16.decode h with
  | .fin n m e => if r = 0 then rne32 (.fin n m e)
      else rne32 (Dy.add (Fv.fin n m e).dy ⟨r.toInt, compExp h - 15⟩).fv
  | v => rne32 v

/-- Nearest integer to a dyadic number, ties to even. -/
def Dy.rneInt (a : Dy) : Int :=
  if 0 ≤ a.e then a.m * 2 ^ a.e.toNat
  else
    let q := shrRne a.m.natAbs (- a.e).toNat
    if a.m < 0 then - (q : Int) else q

/-- What an update with remainder carry stores for the result `y`, with whether it saturated (R165). -/
def compStore (y : W32) : Nat × Byte × Bool :=
  let (h, sat) := bf16.convert .sat (f32v y)
  match f32v y, bf16.decode h with
  | .fin n m e, .fin k l f =>
    let rho := Dy.add (Fv.fin n m e).dy (Fv.fin k l f).dy.neg
    let r := (Dy.mul rho ⟨1, 15 - compExp h⟩).rneInt
    (h, BitVec.ofInt 8 (min (max r (-128)) 127), sat)
  | _, _ => (h, 0, sat)

/-- Ten rounds of Philox-4×32 (R162): word 0 of its output. -/
def philoxGo : Nat → W32 → W32 → W32 → W32 → W32 → W32 → W32
  | 0, _, _, c0, _, _, _ => c0
  | n + 1, k0, k1, c0, c1, c2, c3 =>
    let p0 := 0xD2511F53 * c0.toNat
    let p1 := 0xCD9E8D57 * c2.toNat
    philoxGo n (k0 + 0x9E3779B9) (k1 + 0xBB67AE85)
      (BitVec.ofNat 32 (p1 / 2 ^ 32) ^^^ c1 ^^^ k0) (BitVec.ofNat 32 p1)
      (BitVec.ofNat 32 (p0 / 2 ^ 32) ^^^ c3 ^^^ k1) (BitVec.ofNat 32 p0)

/-- The random number of R162 for an element of a tensor in a step. -/
def philox (seed step : Nat) (elem tensor : Nat) : Nat :=
  (philoxGo 10 (BitVec.ofNat 32 seed) (BitVec.ofNat 32 (seed / 2 ^ 32) ^^^ BitVec.ofNat 32 (step / 2 ^ 32))
    (BitVec.ofNat 32 elem) (BitVec.ofNat 32 (elem / 2 ^ 32)) (BitVec.ofNat 32 tensor) (BitVec.ofNat 32 step)).toNat

end Sys2Proof.Machine
end

