-- ==== Sys2Proof/Config.lean ====
section
/-! DEFINITION. What the spec leaves to the part or leaves open: opaque constants, of which nothing can be proved but
that they are functions of their arguments. Each is named in the assumption log. -/

namespace Sys2Proof

/-- A free value: the n-th value the spec leaves open (assumption 2). -/
opaque Config.freeValue : Nat → Nat

/-- The Vendor ID in the configuration header, which the spec says is assigned and does not give (R1, R464). -/
opaque Config.vendorId : Nat

/-- The VFs that the host has enabled in configuration space, which no command of the table writes (R362). -/
opaque Config.vfsEnabled : List Nat

/-- The first device address of a region that a plan load gives a partition and the spec places nowhere: partition and
what the region is for (assumption 3). -/
opaque Config.planAddr : Nat → Nat → Nat

/-- Cluster Store address of a share's data in a cluster (R60), which no field of a plan image names: plan measurement,
task, share and cluster. -/
opaque Config.shareBase : BitVec 512 → Nat → Nat → Nat → Nat

/-- The byte string of a schedule over which R41 takes a digest: the spec does not give its layout. The arguments are
the tasks with their start, duration and units, the step length and the number *H* of logical movers. -/
opaque Config.scheduleBytes : List (Nat × Nat × Nat × List Nat) → Nat → Nat → List Byte

/-- The layer and the role of a tile task, which no field of a plan image names (R102): plan measurement and task id
to layer and 0 forward, 1 backward, 2 update; none for a task of no stashed layer. -/
opaque Config.taskRole : BitVec 512 → Nat → Option (Nat × Nat)

/-- Element format of a tensor's working copy, which no field of a plan image names (R160): plan measurement, tensor. -/
opaque Config.copyFmt : BitVec 512 → Nat → Nat

/-- The tensor a block written by a task belongs to, which no field of a plan image names (R94, R329): plan
measurement, task id and device address to a PARAMS index. -/
opaque Config.outTensor : BitVec 512 → Nat → Nat → Option Nat

/-- A published signature check (Falcon-1024): key digest, message digest, signature bytes (R36). -/
opaque Config.falconOk : BitVec 512 → BitVec 512 → List Byte → Bool

/-- The public key of the Falcon-1024 key pair made from a seed (R390), and a published signature by it over a byte string. -/
opaque Config.falconPublic : BitVec 512 → List Byte
opaque Config.falconSign : BitVec 512 → List Byte → List Byte

/-- ML-KEM-1024 encapsulation to a key: the ciphertext and the shared secret, by the number of the random draw. -/
opaque Config.kemEncaps : List Byte → Nat → List Byte × List Byte

/-- The encapsulation key of the ML-KEM-1024 key pair made from a random draw, and its decapsulation of a ciphertext
(R241). -/
opaque Config.kemPublic : Nat → List Byte
opaque Config.kemDecaps : Nat → List Byte → List Byte

/-- The root certificate in the boot ROM and the certificate of the manufacturing CA (R391). -/
opaque Config.rootCert : List Byte
opaque Config.caCert : List Byte

/-- A draw of the module's random generator (R388). -/
opaque Config.random : Nat → BitVec 512

/-- The golden signature of an Ash segment, carried in the firmware image (R440). -/
opaque Config.ashGolden : Nat → Nat → Word

/-- The vendor identity of Maellon's logic base die, which the spec does not give (R213). -/
opaque Config.dieVendor : Nat

/-- Sample bytes of the largest class (R42), which the spec names and gives no formula for: the `MAXLEN` of it. -/
opaque Config.sampleBytes : Nat → Nat

/-- A pattern byte of a traffic generator (R225): pattern, seed, address. -/
opaque Config.tgByte : Nat → Nat → Nat → Byte

/-- The upper 8 bytes of the device serial of certificates and reports (R391); the lower 8 are `GEN_SERIAL`. -/
opaque Config.serialHigh : Nat

/-- Maellon's JEP106 manufacturer code (R434). -/
opaque Config.jep106 : Nat

/-- The host has configured IDE stream `i` (R350, R352). -/
opaque Config.ideHeld : Nat → Bool

/-- A byte of PRBS31 data: seed and index (R225, and the TEST payloads of chapter 16). -/
opaque Config.prbs : Nat → Nat → Byte

/-- A history-mode tensor is E5M2, else E4M3, which no field of a plan image says (R153): plan measurement, tensor. -/
opaque Config.scaleE5 : BitVec 512 → Nat → Bool

/-- What a Carmine transfer task with a table carries, which no field of a plan image names (R273): plan measurement and
task to 1 the index exchange, 3 the pooled return, 4 the gradients; none for plain bytes. -/
opaque Config.rowTransfer : BitVec 512 → Nat → Option Nat

/-- Where a clip group's summed squares come to lie, which no field of a plan image names (R300): plan measurement and
group to the collective descriptor of its norm and the element of its result. -/
opaque Config.clipSum : BitVec 512 → Nat → Option (Nat × Nat)

end Sys2Proof
end

