-- ==== Sys2Proof/Machine/Regs.lean ====
section
/-! DEFINITION. The register map of BAR0 (R9, R10, R458 and the register tables of the chapters): every register
by its PF offset, and every field by its register, bits, access type and reset value. A field named "none given" in
the inventory resets to 0 (assumption 4). `own` marks a field whose write is a command of its own. Registers that no PF BAR0 offset reaches have offsets
above it: the queue pages of BAR4 at 0x400_0000, `TIL_VSEL` and the `GEN_ERR` copy of VF k at 0x500_0000 and
0x600_0000 plus 8(k − 1). -/

namespace Sys2Proof.Machine

/-- Access types (R10). -/
inductive Access where
  | ro | rw | w1c | w1s | wo | rc
deriving DecidableEq, Repr

/-- A field of a register or of a register array. Instance `i` of the register lies at
`base + (i / n2)·s1 + (i mod n2)·s2` in the PF's BAR0. -/
structure Fld where
  base : Nat
  n1   : Nat
  s1   : Nat
  n2   : Nat
  s2   : Nat
  hi   : Nat
  lo   : Nat
  acc  : Access
  rst  : Nat
  own  : Bool
deriving DecidableEq, Repr

/-- The PF BAR0 offset of instance `i`. -/
def Fld.off (f : Fld) (i : Nat) : Nat := f.base + i / f.n2 * f.s1 + i % f.n2 * f.s2

/-- Bits a field has. -/
def Fld.width (f : Fld) : Nat := f.hi + 1 - f.lo

namespace F

def GEN_ID_STEPPING : Fld := ⟨0x0, 1, 0x0, 1, 0x0, 55, 48, .ro, 0xa1, false⟩
def GEN_ID_DEVICE : Fld := ⟨0x0, 1, 0x0, 1, 0x0, 47, 32, .ro, 0x480, false⟩
def GEN_ID_VENDOR : Fld := ⟨0x0, 1, 0x0, 1, 0x0, 31, 16, .ro, 0x0, false⟩
def GEN_ID_MAPVER : Fld := ⟨0x0, 1, 0x0, 1, 0x0, 15, 0, .ro, 0x1, false⟩
def GEN_SERIAL_SERIAL : Fld := ⟨0x8, 1, 0x0, 1, 0x0, 63, 0, .ro, 0x0, false⟩
def GEN_STATUS_RUNNING : Fld := ⟨0x10, 1, 0x0, 1, 0x0, 23, 16, .ro, 0x0, false⟩
def GEN_STATUS_FCAUSE : Fld := ⟨0x10, 1, 0x0, 1, 0x0, 11, 8, .ro, 0x0, false⟩
def GEN_STATUS_RECOVERY : Fld := ⟨0x10, 1, 0x0, 1, 0x0, 2, 2, .ro, 0x0, false⟩
def GEN_STATUS_FAILED : Fld := ⟨0x10, 1, 0x0, 1, 0x0, 1, 1, .ro, 0x0, false⟩
def GEN_STATUS_READY : Fld := ⟨0x10, 1, 0x0, 1, 0x0, 0, 0, .ro, 0x0, false⟩
def GEN_ERR_ACCESS : Fld := ⟨0x18, 1, 0x0, 1, 0x0, 63, 48, .rc, 0x0, false⟩
def GEN_ERR_DISCARD : Fld := ⟨0x18, 1, 0x0, 1, 0x0, 47, 32, .rc, 0x0, false⟩
def GEN_ERR_VALID : Fld := ⟨0x18, 1, 0x0, 1, 0x0, 31, 31, .w1c, 0x0, false⟩
def GEN_ERR_FUNC : Fld := ⟨0x18, 1, 0x0, 1, 0x0, 30, 27, .ro, 0x0, false⟩
def GEN_ERR_KIND : Fld := ⟨0x18, 1, 0x0, 1, 0x0, 25, 25, .ro, 0x0, false⟩
def GEN_ERR_OFFSET : Fld := ⟨0x18, 1, 0x0, 1, 0x0, 24, 0, .ro, 0x0, false⟩
def PWR_CTRL_AUTO_ON : Fld := ⟨0x100000, 1, 0x0, 1, 0x0, 8, 8, .rw, 0x0, false⟩
def PWR_CTRL_GO : Fld := ⟨0x100000, 1, 0x0, 1, 0x0, 3, 3, .w1s, 0x0, true⟩
def PWR_CTRL_TARGET : Fld := ⟨0x100000, 1, 0x0, 1, 0x0, 2, 0, .rw, 0x0, false⟩
def PWR_STAT_RAMP_DELAYS : Fld := ⟨0x100008, 1, 0x0, 1, 0x0, 63, 48, .rc, 0x0, false⟩
def PWR_STAT_REFUSE : Fld := ⟨0x100008, 1, 0x0, 1, 0x0, 39, 32, .ro, 0x0, false⟩
def PWR_STAT_PREV : Fld := ⟨0x100008, 1, 0x0, 1, 0x0, 10, 8, .ro, 0x0, false⟩
def PWR_STAT_BUSY : Fld := ⟨0x100008, 1, 0x0, 1, 0x0, 4, 4, .ro, 0x0, false⟩
def PWR_STAT_STATE : Fld := ⟨0x100008, 1, 0x0, 1, 0x0, 2, 0, .ro, 0x0, false⟩
def PWR_IDLE_TIMER : Fld := ⟨0x100010, 1, 0x0, 1, 0x0, 31, 0, .rw, 0x10000, false⟩
def PWR_WAKE_TIME : Fld := ⟨0x100018, 1, 0x0, 1, 0x0, 63, 32, .ro, 0x0, false⟩
def PWR_WAKE_FROM : Fld := ⟨0x100018, 1, 0x0, 1, 0x0, 10, 8, .ro, 0x4, false⟩
def PWR_WAKE_SOURCE : Fld := ⟨0x100018, 1, 0x0, 1, 0x0, 3, 0, .ro, 0x0, false⟩
def PWR_WAKE_TIMER_EN : Fld := ⟨0x100020, 1, 0x0, 1, 0x0, 63, 63, .rw, 0x0, false⟩
def PWR_WAKE_TIMER_MS : Fld := ⟨0x100020, 1, 0x0, 1, 0x0, 31, 0, .rw, 0x0, false⟩
def PWR_RAMP_SHARE : Fld := ⟨0x100028, 1, 0x0, 1, 0x0, 39, 0, .rw, 0x10, true⟩
def PWR_DOM_RET : Fld := ⟨0x100030, 1, 0x0, 1, 0x0, 47, 24, .ro, 0x0, false⟩
def PWR_DOM_ON : Fld := ⟨0x100030, 1, 0x0, 1, 0x0, 23, 0, .ro, 0xffffff, false⟩
def PWR_ASSIST_HUB_V : Fld := ⟨0x100038, 1, 0x0, 1, 0x0, 47, 40, .ro, 0x50, false⟩
def PWR_ASSIST_HUB_WA : Fld := ⟨0x100038, 1, 0x0, 1, 0x0, 39, 36, .ro, 0x1, false⟩
def PWR_ASSIST_HUB_RA : Fld := ⟨0x100038, 1, 0x0, 1, 0x0, 35, 32, .ro, 0x1, false⟩
def PWR_ASSIST_BASE_V : Fld := ⟨0x100038, 1, 0x0, 1, 0x0, 31, 24, .ro, 0x50, false⟩
def PWR_ASSIST_BASE_WA : Fld := ⟨0x100038, 1, 0x0, 1, 0x0, 23, 20, .ro, 0x1, false⟩
def PWR_ASSIST_BASE_RA : Fld := ⟨0x100038, 1, 0x0, 1, 0x0, 19, 16, .ro, 0x1, false⟩
def PWR_ASSIST_CD_V : Fld := ⟨0x100038, 1, 0x0, 1, 0x0, 15, 8, .ro, 0x4b, false⟩
def PWR_ASSIST_CD_WA : Fld := ⟨0x100038, 1, 0x0, 1, 0x0, 7, 4, .ro, 0x2, false⟩
def PWR_ASSIST_CD_RA : Fld := ⟨0x100038, 1, 0x0, 1, 0x0, 3, 0, .ro, 0x2, false⟩
def SEC_STATE_COUNTER : Fld := ⟨0x200000, 1, 0x0, 1, 0x0, 47, 40, .ro, 0x0, false⟩
def SEC_STATE_SVN : Fld := ⟨0x200000, 1, 0x0, 1, 0x0, 39, 32, .ro, 0x0, false⟩
def SEC_STATE_OWNER : Fld := ⟨0x200000, 1, 0x0, 1, 0x0, 15, 15, .ro, 0x0, false⟩
def SEC_STATE_SLOTS : Fld := ⟨0x200000, 1, 0x0, 1, 0x0, 14, 12, .ro, 0x0, false⟩
def SEC_STATE_RNGFAIL : Fld := ⟨0x200000, 1, 0x0, 1, 0x0, 11, 11, .ro, 0x0, false⟩
def SEC_STATE_RECOVERED : Fld := ⟨0x200000, 1, 0x0, 1, 0x0, 9, 9, .ro, 0x0, false⟩
def SEC_STATE_DEBUG : Fld := ⟨0x200000, 1, 0x0, 1, 0x0, 8, 8, .ro, 0x0, false⟩
def SEC_STATE_LC : Fld := ⟨0x200000, 1, 0x0, 1, 0x0, 2, 0, .ro, 0x0, false⟩
def SEC_FW_ADDR_ADDR : Fld := ⟨0x200008, 1, 0x0, 1, 0x0, 47, 0, .rw, 0x0, false⟩
def SEC_FW_LEN_LEN : Fld := ⟨0x200010, 1, 0x0, 1, 0x0, 63, 0, .rw, 0x0, false⟩
def SEC_FW_CTRL_SVN_COMMIT : Fld := ⟨0x200018, 1, 0x0, 1, 0x0, 1, 1, .w1s, 0x0, true⟩
def SEC_FW_CTRL_GO : Fld := ⟨0x200018, 1, 0x0, 1, 0x0, 0, 0, .w1s, 0x0, true⟩
def SEC_FW_STATUS_CODE : Fld := ⟨0x200020, 1, 0x0, 1, 0x0, 7, 0, .ro, 0x0, false⟩
def SEC_REC_CTRL_REQ : Fld := ⟨0x200028, 1, 0x0, 1, 0x0, 0, 0, .w1s, 0x0, false⟩
def SEC_MEAS_MEAS : Fld := ⟨0x200040, 8, 0x8, 1, 0x0, 63, 0, .ro, 0x0, false⟩
def PLN_BEAT_CFG_MASTER_POS : Fld := ⟨0x300000, 1, 0x0, 1, 0x0, 48, 32, .rw, 0x0, false⟩
def PLN_BEAT_CFG_LOSS_DETECT : Fld := ⟨0x300000, 1, 0x0, 1, 0x0, 23, 16, .rw, 0x8, false⟩
def PLN_BEAT_CFG_SRC : Fld := ⟨0x300000, 1, 0x0, 1, 0x0, 1, 0, .rw, 0x0, false⟩
def PLN_BEAT_STATUS_CUR_MASTER : Fld := ⟨0x300008, 1, 0x0, 1, 0x0, 40, 24, .ro, 0x0, false⟩
def PLN_BEAT_STATUS_OFFSET : Fld := ⟨0x300008, 1, 0x0, 1, 0x0, 23, 16, .ro, 0x0, false⟩
def PLN_BEAT_STATUS_UPSTREAM : Fld := ⟨0x300008, 1, 0x0, 1, 0x0, 12, 10, .ro, 0x7, false⟩
def PLN_BEAT_STATUS_IS_MASTER : Fld := ⟨0x300008, 1, 0x0, 1, 0x0, 9, 9, .ro, 0x0, false⟩
def PLN_BEAT_STATUS_HOLDOVER : Fld := ⟨0x300008, 1, 0x0, 1, 0x0, 8, 8, .ro, 0x0, false⟩
def PLN_BEAT_STATUS_SRC_ACTIVE : Fld := ⟨0x300008, 1, 0x0, 1, 0x0, 1, 0, .ro, 0x3, false⟩
def PLN_BN_BN : Fld := ⟨0x300010, 1, 0x0, 1, 0x0, 63, 0, .ro, 0x0, false⟩
def PLN_BN_LOAD_BN : Fld := ⟨0x300018, 1, 0x0, 1, 0x0, 63, 0, .rw, 0x0, true⟩
def PLN_CTRL_HOLD_LIMIT : Fld := ⟨0x310000, 8, 0x10000, 1, 0x0, 63, 48, .rw, 0x0, false⟩
def PLN_CTRL_BAL_THRESH : Fld := ⟨0x310000, 8, 0x10000, 1, 0x0, 47, 40, .rw, 0x8, false⟩
def PLN_CTRL_BAL_EN : Fld := ⟨0x310000, 8, 0x10000, 1, 0x0, 7, 7, .rw, 0x0, false⟩
def PLN_CTRL_CHK_FAULT : Fld := ⟨0x310000, 8, 0x10000, 1, 0x0, 6, 6, .rw, 0x0, false⟩
def PLN_CTRL_CHK_EN : Fld := ⟨0x310000, 8, 0x10000, 1, 0x0, 5, 5, .rw, 0x0, false⟩
def PLN_CTRL_RUN : Fld := ⟨0x310000, 8, 0x10000, 1, 0x0, 0, 0, .rw, 0x0, true⟩
def PLN_IMG_BASE_BASE : Fld := ⟨0x310008, 8, 0x10000, 1, 0x0, 63, 0, .rw, 0x0, false⟩
def PLN_IMG_LEN_LEN : Fld := ⟨0x310010, 8, 0x10000, 1, 0x0, 63, 0, .rw, 0x0, false⟩
def PLN_LOAD_GO : Fld := ⟨0x310018, 8, 0x10000, 1, 0x0, 0, 0, .wo, 0x0, true⟩
def PLN_LOAD_STATUS_DETAIL : Fld := ⟨0x310020, 8, 0x10000, 1, 0x0, 39, 16, .ro, 0x0, false⟩
def PLN_LOAD_STATUS_BUSY : Fld := ⟨0x310020, 8, 0x10000, 1, 0x0, 8, 8, .ro, 0x0, false⟩
def PLN_LOAD_STATUS_CODE : Fld := ⟨0x310020, 8, 0x10000, 1, 0x0, 7, 0, .ro, 0xff, false⟩
def PLN_START_BN_BN : Fld := ⟨0x310028, 8, 0x10000, 1, 0x0, 63, 0, .rw, 0x0, false⟩
def PLN_STEP_STEP : Fld := ⟨0x310030, 8, 0x10000, 1, 0x0, 63, 0, .ro, 0x0, false⟩
def PLN_SPOS_HOLD_TOTAL : Fld := ⟨0x310038, 8, 0x10000, 1, 0x0, 63, 32, .ro, 0x0, false⟩
def PLN_SPOS_POS : Fld := ⟨0x310038, 8, 0x10000, 1, 0x0, 31, 0, .ro, 0x0, false⟩
def PLN_HOLD_BN_BN : Fld := ⟨0x310080, 8, 0x10000, 1, 0x0, 63, 0, .ro, 0x0, false⟩
def PLN_HOLD_INFO_ORIGIN : Fld := ⟨0x310088, 8, 0x10000, 1, 0x0, 63, 47, .ro, 0x0, false⟩
def PLN_HOLD_INFO_TASK : Fld := ⟨0x310088, 8, 0x10000, 1, 0x0, 43, 20, .ro, 0x0, false⟩
def PLN_HOLD_INFO_LENGTH : Fld := ⟨0x310088, 8, 0x10000, 1, 0x0, 19, 4, .ro, 0x0, false⟩
def PLN_HOLD_INFO_CAUSE : Fld := ⟨0x310088, 8, 0x10000, 1, 0x0, 3, 0, .ro, 0xf, false⟩
def PLN_HOLD_POP_POP : Fld := ⟨0x310090, 8, 0x10000, 1, 0x0, 0, 0, .wo, 0x0, true⟩
def PLN_CHK_COUNT_COUNT : Fld := ⟨0x310098, 8, 0x10000, 1, 0x0, 63, 0, .rc, 0x0, false⟩
def PLN_CHK_FIRST_TASK : Fld := ⟨0x3100a0, 8, 0x10000, 1, 0x0, 55, 32, .ro, 0x0, false⟩
def PLN_CHK_FIRST_POS : Fld := ⟨0x3100a0, 8, 0x10000, 1, 0x0, 31, 0, .ro, 0x0, false⟩
def PLN_SCALE_STATUS_FALLBACK : Fld := ⟨0x3100a8, 8, 0x10000, 1, 0x0, 63, 48, .rc, 0x0, false⟩
def PLN_SCALE_STATUS_EXTRA : Fld := ⟨0x3100a8, 8, 0x10000, 1, 0x0, 47, 32, .rc, 0x0, false⟩
def PLN_SCALE_STATUS_NOBITS : Fld := ⟨0x3100a8, 8, 0x10000, 1, 0x0, 2, 2, .ro, 0x0, false⟩
def PLN_SCALE_STATUS_WARMUP : Fld := ⟨0x3100a8, 8, 0x10000, 1, 0x0, 1, 1, .ro, 0x0, false⟩
def PLN_SCALE_STATUS_COLD : Fld := ⟨0x3100a8, 8, 0x10000, 1, 0x0, 0, 0, .ro, 0x0, false⟩
def PLN_COMMIT_CFG_ROLL_LEAD : Fld := ⟨0x3100b0, 8, 0x10000, 1, 0x0, 15, 0, .rw, 0x100, false⟩
def PLN_COMMIT_STATUS_ATTEMPT : Fld := ⟨0x3100b8, 8, 0x10000, 1, 0x0, 63, 56, .ro, 0x0, false⟩
def PLN_COMMIT_STATUS_DSTATE : Fld := ⟨0x3100b8, 8, 0x10000, 1, 0x0, 34, 32, .ro, 0x0, false⟩
def PLN_COMMIT_STATUS_ROLLBACKS : Fld := ⟨0x3100b8, 8, 0x10000, 1, 0x0, 31, 0, .rc, 0x0, false⟩
def PLN_ROLL_BN_BN : Fld := ⟨0x3100c0, 8, 0x10000, 1, 0x0, 63, 0, .ro, 0x0, false⟩
def PLN_ROLL_INFO_ORIGIN : Fld := ⟨0x3100c8, 8, 0x10000, 1, 0x0, 63, 47, .ro, 0x0, false⟩
def PLN_ROLL_INFO_TASK : Fld := ⟨0x3100c8, 8, 0x10000, 1, 0x0, 43, 20, .ro, 0x0, false⟩
def PLN_ROLL_INFO_CAUSE : Fld := ⟨0x3100c8, 8, 0x10000, 1, 0x0, 7, 0, .ro, 0x0, false⟩
def PLN_CLIP_STATUS_SKIPPED : Fld := ⟨0x3100d0, 8, 0x10000, 1, 0x0, 63, 48, .rc, 0x0, false⟩
def PLN_CLIP_STATUS_CLIPPED : Fld := ⟨0x3100d0, 8, 0x10000, 1, 0x0, 47, 32, .rc, 0x0, false⟩
def PLN_CLIP_STATUS_NORM0 : Fld := ⟨0x3100d0, 8, 0x10000, 1, 0x0, 31, 0, .ro, 0x0, false⟩
def PLN_COMMIT_MBOX_ADDR : Fld := ⟨0x3100d8, 8, 0x10000, 1, 0x0, 47, 0, .ro, 0x0, false⟩
def PLN_DIGEST_DIGEST : Fld := ⟨0x310040, 8, 0x10000, 8, 0x8, 63, 0, .ro, 0x0, false⟩
def DMA_HCFG_UNPROT : Fld := ⟨0x400000, 1, 0x0, 1, 0x0, 63, 32, .rc, 0x0, false⟩
def DMA_HCFG_IDE_REQ : Fld := ⟨0x400000, 1, 0x0, 1, 0x0, 0, 0, .rw, 0x0, false⟩
def DMA_MEVT_VEC : Fld := ⟨0x400008, 1, 0x0, 1, 0x0, 39, 32, .rw, 0x0, false⟩
def DMA_MEVT_CAUSE : Fld := ⟨0x400008, 1, 0x0, 1, 0x0, 2, 0, .w1c, 0x0, false⟩
def DMA_WIN_EN : Fld := ⟨0x400100, 16, 0x8, 1, 0x0, 63, 63, .rw, 0x0, false⟩
def DMA_WIN_BASE : Fld := ⟨0x400100, 16, 0x8, 1, 0x0, 47, 16, .rw, 0x0, false⟩
def DMA_WIN_FROZEN : Fld := ⟨0x400100, 16, 0x8, 1, 0x0, 0, 0, .ro, 0x0, false⟩
def DMA_MCFG_MODE : Fld := ⟨0x401000, 32, 0x10, 1, 0x0, 11, 11, .rw, 0x0, true⟩
def DMA_MCFG_OWNER : Fld := ⟨0x401000, 32, 0x10, 1, 0x0, 10, 8, .rw, 0x0, true⟩
def DMA_MCFG_EN : Fld := ⟨0x401000, 32, 0x10, 1, 0x0, 0, 0, .rw, 0x0, true⟩
def DMA_MSTAT_STATE : Fld := ⟨0x401008, 32, 0x10, 1, 0x0, 63, 62, .ro, 0x0, false⟩
def DMA_MSTAT_DONE : Fld := ⟨0x401008, 32, 0x10, 1, 0x0, 39, 0, .ro, 0x0, false⟩
def DMA_QCFG_EN : Fld := ⟨0x402000, 256, 0x8, 1, 0x0, 8, 8, .rw, 0x0, false⟩
def DMA_QCFG_MOVER : Fld := ⟨0x402000, 256, 0x8, 1, 0x0, 4, 0, .rw, 0x0, false⟩
def DMA_PEVT_VEC : Fld := ⟨0x403000, 8, 0x8, 1, 0x0, 36, 32, .rw, 0x0, false⟩
def DMA_PEVT_CAUSE : Fld := ⟨0x403000, 8, 0x8, 1, 0x0, 3, 0, .w1c, 0x0, false⟩
def STM_PSTAT_PHY : Fld := ⟨0x500000, 2, 0x100, 1, 0x0, 2, 1, .ro, 0x0, false⟩
def STM_PSTAT_UP : Fld := ⟨0x500000, 2, 0x100, 1, 0x0, 0, 0, .ro, 0x0, false⟩
def STM_PMAC_MAC : Fld := ⟨0x500008, 2, 0x100, 1, 0x0, 47, 0, .ro, 0x0, false⟩
def STM_PCNT_ICV : Fld := ⟨0x500010, 2, 0x100, 1, 0x0, 63, 48, .rc, 0x0, false⟩
def STM_PCNT_REPLAY : Fld := ⟨0x500010, 2, 0x100, 1, 0x0, 47, 32, .rc, 0x0, false⟩
def STM_PCNT_NOSA : Fld := ⟨0x500010, 2, 0x100, 1, 0x0, 31, 16, .rc, 0x0, false⟩
def STM_PCNT_OTHER : Fld := ⟨0x500010, 2, 0x100, 1, 0x0, 15, 0, .rc, 0x0, false⟩
def STM_IBUF_SIZE : Fld := ⟨0x510000, 8, 0x1000, 1, 0x0, 39, 0, .rw, 0x0, false⟩
def STM_REF_BASE_BASE : Fld := ⟨0x510008, 8, 0x1000, 1, 0x0, 63, 0, .rw, 0x0, false⟩
def STM_REF_CTRL_LOST : Fld := ⟨0x510010, 8, 0x1000, 1, 0x0, 63, 48, .rc, 0x0, false⟩
def STM_REF_CTRL_ENTRIES : Fld := ⟨0x510010, 8, 0x1000, 1, 0x0, 47, 32, .rw, 0x0, false⟩
def STM_REF_CTRL_CONS : Fld := ⟨0x510010, 8, 0x1000, 1, 0x0, 31, 16, .rw, 0x0, false⟩
def STM_REF_CTRL_PROD : Fld := ⟨0x510010, 8, 0x1000, 1, 0x0, 15, 0, .ro, 0x0, false⟩
def STM_CKPT_CTRL_GO : Fld := ⟨0x510018, 8, 0x1000, 1, 0x0, 63, 63, .w1s, 0x0, true⟩
def STM_CKPT_CTRL_ERR : Fld := ⟨0x510018, 8, 0x1000, 1, 0x0, 62, 62, .ro, 0x0, false⟩
def STM_CKPT_CTRL_RANK : Fld := ⟨0x510018, 8, 0x1000, 1, 0x0, 16, 0, .rw, 0x0, false⟩
def STM_CKPT_DST_MAC : Fld := ⟨0x510020, 8, 0x1000, 1, 0x0, 47, 0, .rw, 0x0, false⟩
def STM_ICNT_DUP : Fld := ⟨0x510028, 8, 0x1000, 1, 0x0, 63, 48, .rc, 0x0, false⟩
def STM_ICNT_CREDIT : Fld := ⟨0x510028, 8, 0x1000, 1, 0x0, 47, 32, .rc, 0x0, false⟩
def STM_ICNT_MISROUTE : Fld := ⟨0x510028, 8, 0x1000, 1, 0x0, 31, 16, .rc, 0x0, false⟩
def STM_ICNT_RESEND : Fld := ⟨0x510028, 8, 0x1000, 1, 0x0, 15, 0, .rc, 0x0, false⟩
def FAB_CFG_Z_M1 : Fld := ⟨0x600000, 1, 0x0, 1, 0x0, 33, 29, .rw, 0x0, true⟩
def FAB_CFG_Y_M1 : Fld := ⟨0x600000, 1, 0x0, 1, 0x0, 28, 23, .rw, 0x0, true⟩
def FAB_CFG_X_M1 : Fld := ⟨0x600000, 1, 0x0, 1, 0x0, 22, 17, .rw, 0x0, true⟩
def FAB_CFG_Z : Fld := ⟨0x600000, 1, 0x0, 1, 0x0, 16, 12, .rw, 0x0, true⟩
def FAB_CFG_Y : Fld := ⟨0x600000, 1, 0x0, 1, 0x0, 11, 6, .rw, 0x0, true⟩
def FAB_CFG_X : Fld := ⟨0x600000, 1, 0x0, 1, 0x0, 5, 0, .rw, 0x0, true⟩
def FAB_BYP_CLOSED : Fld := ⟨0x600008, 1, 0x0, 1, 0x0, 10, 8, .ro, 0x7, false⟩
def FAB_BYP_OPEN : Fld := ⟨0x600008, 1, 0x0, 1, 0x0, 2, 0, .rw, 0x0, true⟩
def FAB_STAT_UNREACH : Fld := ⟨0x600010, 1, 0x0, 1, 0x0, 63, 48, .rc, 0x0, false⟩
def FAB_STAT_STALE : Fld := ⟨0x600010, 1, 0x0, 1, 0x0, 47, 32, .rc, 0x0, false⟩
def FAB_STAT_REFUSED : Fld := ⟨0x600010, 1, 0x0, 1, 0x0, 31, 16, .rc, 0x0, false⟩
def FAB_STAT_LATEHOLD : Fld := ⟨0x600010, 1, 0x0, 1, 0x0, 15, 0, .rc, 0x0, false⟩
def FAB_HCTRL_RESUME_LEAD : Fld := ⟨0x600100, 1, 0x0, 1, 0x0, 31, 16, .rw, 0x400, false⟩
def FAB_HCTRL_GATHER : Fld := ⟨0x600100, 1, 0x0, 1, 0x0, 15, 8, .rw, 0x40, false⟩
def FAB_HCTRL_CLAIM : Fld := ⟨0x600100, 1, 0x0, 1, 0x0, 0, 0, .w1s, 0x0, true⟩
def FAB_HSTAT_HEPOCH : Fld := ⟨0x600108, 1, 0x0, 1, 0x0, 63, 32, .ro, 0x0, false⟩
def FAB_HSTAT_OUTCOME : Fld := ⟨0x600108, 1, 0x0, 1, 0x0, 31, 30, .ro, 0x0, false⟩
def FAB_HSTAT_MIRROR : Fld := ⟨0x600108, 1, 0x0, 1, 0x0, 25, 24, .ro, 0x0, false⟩
def FAB_RANK_HVALID : Fld := ⟨0x600110, 1, 0x0, 1, 0x0, 41, 41, .ro, 0x0, false⟩
def FAB_RANK_HOSTED : Fld := ⟨0x600110, 1, 0x0, 1, 0x0, 40, 24, .ro, 0x0, false⟩
def FAB_RANK_PVALID : Fld := ⟨0x600110, 1, 0x0, 1, 0x0, 17, 17, .ro, 0x0, false⟩
def FAB_RANK_HOME : Fld := ⟨0x600110, 1, 0x0, 1, 0x0, 16, 0, .ro, 0x0, false⟩
def FAB_HLOG_BN : Fld := ⟨0x600118, 1, 0x0, 1, 0x0, 63, 32, .ro, 0x0, false⟩
def FAB_HLOG_POS : Fld := ⟨0x600118, 1, 0x0, 1, 0x0, 16, 0, .ro, 0x0, false⟩
def FAB_PCTRL_RETRY_LIMIT : Fld := ⟨0x601000, 6, 0x100, 1, 0x0, 15, 8, .rw, 0x10, false⟩
def FAB_PCTRL_RETRAIN : Fld := ⟨0x601000, 6, 0x100, 1, 0x0, 1, 1, .w1s, 0x0, true⟩
def FAB_PCTRL_EN : Fld := ⟨0x601000, 6, 0x100, 1, 0x0, 0, 0, .rw, 0x0, true⟩
def FAB_PSTAT_RTT : Fld := ⟨0x601008, 6, 0x100, 1, 0x0, 63, 48, .ro, 0x0, false⟩
def FAB_PSTAT_FAR_POS : Fld := ⟨0x601008, 6, 0x100, 1, 0x0, 47, 31, .ro, 0x0, false⟩
def FAB_PSTAT_LANES : Fld := ⟨0x601008, 6, 0x100, 1, 0x0, 30, 15, .ro, 0x0, false⟩
def FAB_PSTAT_CAUSE : Fld := ⟨0x601008, 6, 0x100, 1, 0x0, 14, 12, .ro, 0x0, false⟩
def FAB_PSTAT_W8 : Fld := ⟨0x601008, 6, 0x100, 1, 0x0, 3, 3, .ro, 0x0, false⟩
def FAB_PSTAT_STATE : Fld := ⟨0x601008, 6, 0x100, 1, 0x0, 2, 0, .ro, 0x0, false⟩
def FAB_PERR_RETX : Fld := ⟨0x601010, 6, 0x100, 1, 0x0, 63, 48, .rc, 0x0, false⟩
def FAB_PERR_CRC : Fld := ⟨0x601010, 6, 0x100, 1, 0x0, 47, 32, .rc, 0x0, false⟩
def FAB_PERR_FECU : Fld := ⟨0x601010, 6, 0x100, 1, 0x0, 31, 16, .rc, 0x0, false⟩
def FAB_PERR_SEALF : Fld := ⟨0x601010, 6, 0x100, 1, 0x0, 15, 0, .rc, 0x0, false⟩
def FAB_PFEC_FEC : Fld := ⟨0x601018, 6, 0x100, 1, 0x0, 63, 0, .rc, 0x0, false⟩
def MEM_STAT_TEMP : Fld := ⟨0x700000, 8, 0x1000, 1, 0x0, 63, 56, .ro, 0x0, false⟩
def MEM_STAT_REFX2 : Fld := ⟨0x700000, 8, 0x1000, 1, 0x0, 10, 10, .ro, 0x0, false⟩
def MEM_STAT_LOST : Fld := ⟨0x700000, 8, 0x1000, 1, 0x0, 8, 8, .w1c, 0x0, false⟩
def MEM_STAT_STATE : Fld := ⟨0x700000, 8, 0x1000, 1, 0x0, 2, 0, .ro, 0x0, false⟩
def MEM_ECC_CE : Fld := ⟨0x700008, 8, 0x1000, 1, 0x0, 63, 32, .rc, 0x0, false⟩
def MEM_ECC_UE : Fld := ⟨0x700008, 8, 0x1000, 1, 0x0, 31, 16, .rc, 0x0, false⟩
def MEM_ECC_ODE : Fld := ⟨0x700008, 8, 0x1000, 1, 0x0, 15, 0, .rc, 0x0, false⟩
def MEM_ECC_ADDR_VALID : Fld := ⟨0x700010, 8, 0x1000, 1, 0x0, 63, 63, .w1c, 0x0, false⟩
def MEM_ECC_ADDR_ADDR : Fld := ⟨0x700010, 8, 0x1000, 1, 0x0, 47, 0, .ro, 0x0, false⟩
def MEM_SCRUB_PERIOD : Fld := ⟨0x700018, 8, 0x1000, 1, 0x0, 15, 0, .rw, 0x18, false⟩
def MEM_REG_CTRL_DISCARD : Fld := ⟨0x700020, 8, 0x1000, 1, 0x0, 1, 1, .wo, 0x0, true⟩
def MEM_REG_CTRL_PENDING : Fld := ⟨0x700020, 8, 0x1000, 1, 0x0, 0, 0, .ro, 0x0, false⟩
def MEM_MARGIN_VREF : Fld := ⟨0x700028, 8, 0x1000, 1, 0x0, 23, 16, .rw, 0x0, false⟩
def MEM_MARGIN_PHASE : Fld := ⟨0x700028, 8, 0x1000, 1, 0x0, 15, 8, .rw, 0x0, false⟩
def MEM_MARGIN_OFFLINE : Fld := ⟨0x700028, 8, 0x1000, 1, 0x0, 1, 1, .rw, 0x0, true⟩
def MEM_MARGIN_APPLY : Fld := ⟨0x700028, 8, 0x1000, 1, 0x0, 0, 0, .w1s, 0x0, true⟩
def MEM_WHEEL_OWNERS : Fld := ⟨0x700100, 8, 0x1000, 16, 0x8, 63, 0, .rw, 0x0, false⟩
def MEM_TG_CTRL_SEED : Fld := ⟨0x700200, 8, 0x1000, 32, 0x8, 63, 32, .rw, 0x0, false⟩
def MEM_TG_CTRL_PATTERN : Fld := ⟨0x700200, 8, 0x1000, 32, 0x8, 10, 8, .rw, 0x0, false⟩
def MEM_TG_CTRL_MODE : Fld := ⟨0x700200, 8, 0x1000, 32, 0x8, 5, 4, .rw, 0x1, false⟩
def MEM_TG_CTRL_GO : Fld := ⟨0x700200, 8, 0x1000, 32, 0x8, 0, 0, .w1s, 0x0, true⟩
def MEM_TG_STAT_BUSY : Fld := ⟨0x700300, 8, 0x1000, 32, 0x8, 63, 63, .ro, 0x0, false⟩
def MEM_TG_STAT_FAIL : Fld := ⟨0x700300, 8, 0x1000, 32, 0x8, 62, 62, .ro, 0x0, false⟩
def MEM_TG_STAT_ERRS : Fld := ⟨0x700300, 8, 0x1000, 32, 0x8, 61, 48, .ro, 0x0, false⟩
def MEM_TG_STAT_ADDR : Fld := ⟨0x700300, 8, 0x1000, 32, 0x8, 47, 0, .ro, 0x0, false⟩
def UMB_STAT_TEMP : Fld := ⟨0x800000, 12, 0x1000, 1, 0x0, 63, 56, .ro, 0x0, false⟩
def UMB_STAT_REFX2 : Fld := ⟨0x800000, 12, 0x1000, 1, 0x0, 10, 10, .ro, 0x0, false⟩
def UMB_STAT_LOST : Fld := ⟨0x800000, 12, 0x1000, 1, 0x0, 8, 8, .w1c, 0x0, false⟩
def UMB_STAT_STATE : Fld := ⟨0x800000, 12, 0x1000, 1, 0x0, 2, 0, .ro, 0x0, false⟩
def UMB_ECC_CE : Fld := ⟨0x800008, 12, 0x1000, 1, 0x0, 63, 32, .rc, 0x0, false⟩
def UMB_ECC_UE : Fld := ⟨0x800008, 12, 0x1000, 1, 0x0, 31, 16, .rc, 0x0, false⟩
def UMB_ECC_ODE : Fld := ⟨0x800008, 12, 0x1000, 1, 0x0, 15, 0, .rc, 0x0, false⟩
def UMB_ECC_ADDR_VALID : Fld := ⟨0x800010, 12, 0x1000, 1, 0x0, 63, 63, .w1c, 0x0, false⟩
def UMB_ECC_ADDR_ADDR : Fld := ⟨0x800010, 12, 0x1000, 1, 0x0, 47, 0, .ro, 0x0, false⟩
def UMB_SCRUB_PERIOD : Fld := ⟨0x800018, 12, 0x1000, 1, 0x0, 15, 0, .rw, 0x18, false⟩
def UMB_REG_CTRL_DISCARD : Fld := ⟨0x800020, 12, 0x1000, 1, 0x0, 1, 1, .wo, 0x0, true⟩
def UMB_REG_CTRL_PENDING : Fld := ⟨0x800020, 12, 0x1000, 1, 0x0, 0, 0, .ro, 0x0, false⟩
def UMB_MARGIN_VREF : Fld := ⟨0x800028, 12, 0x1000, 1, 0x0, 23, 16, .rw, 0x0, false⟩
def UMB_MARGIN_PHASE : Fld := ⟨0x800028, 12, 0x1000, 1, 0x0, 15, 8, .rw, 0x0, false⟩
def UMB_MARGIN_OFFLINE : Fld := ⟨0x800028, 12, 0x1000, 1, 0x0, 1, 1, .rw, 0x0, true⟩
def UMB_MARGIN_APPLY : Fld := ⟨0x800028, 12, 0x1000, 1, 0x0, 0, 0, .w1s, 0x0, true⟩
def UMB_WHEEL_OWNERS : Fld := ⟨0x800100, 12, 0x1000, 16, 0x8, 63, 0, .rw, 0x0, false⟩
def UMB_TG_CTRL_SEED : Fld := ⟨0x800200, 12, 0x1000, 4, 0x8, 63, 32, .rw, 0x0, false⟩
def UMB_TG_CTRL_PATTERN : Fld := ⟨0x800200, 12, 0x1000, 4, 0x8, 10, 8, .rw, 0x0, false⟩
def UMB_TG_CTRL_MODE : Fld := ⟨0x800200, 12, 0x1000, 4, 0x8, 5, 4, .rw, 0x1, false⟩
def UMB_TG_CTRL_GO : Fld := ⟨0x800200, 12, 0x1000, 4, 0x8, 0, 0, .w1s, 0x0, true⟩
def UMB_TG_STAT_BUSY : Fld := ⟨0x800300, 12, 0x1000, 4, 0x8, 63, 63, .ro, 0x0, false⟩
def UMB_TG_STAT_FAIL : Fld := ⟨0x800300, 12, 0x1000, 4, 0x8, 62, 62, .ro, 0x0, false⟩
def UMB_TG_STAT_ERRS : Fld := ⟨0x800300, 12, 0x1000, 4, 0x8, 61, 48, .ro, 0x0, false⟩
def UMB_TG_STAT_ADDR : Fld := ⟨0x800300, 12, 0x1000, 4, 0x8, 47, 0, .ro, 0x0, false⟩
def ROW_TDESC_BASE_BASE : Fld := ⟨0x910000, 8, 0x1000, 1, 0x0, 63, 0, .ro, 0x0, false⟩
def ROW_DEFCNT_BASE_BASE : Fld := ⟨0x910008, 8, 0x1000, 1, 0x0, 63, 0, .ro, 0x0, false⟩
def ROW_DEF_TOTAL_TOTAL : Fld := ⟨0x910010, 8, 0x1000, 1, 0x0, 63, 0, .rc, 0x0, false⟩
def ROW_PLACE_CFG_MIG_PAGES : Fld := ⟨0x910018, 8, 0x1000, 1, 0x0, 63, 48, .rw, 0x40, false⟩
def ROW_PLACE_CFG_BAL_MARGIN : Fld := ⟨0x910018, 8, 0x1000, 1, 0x0, 47, 40, .rw, 0x20, false⟩
def ROW_PLACE_CFG_SHARD_MARGIN : Fld := ⟨0x910018, 8, 0x1000, 1, 0x0, 39, 32, .rw, 0x40, false⟩
def ROW_PLACE_CFG_PERIOD : Fld := ⟨0x910018, 8, 0x1000, 1, 0x0, 31, 16, .rw, 0x40, false⟩
def ROW_PLACE_CFG_SHARD_EN : Fld := ⟨0x910018, 8, 0x1000, 1, 0x0, 2, 2, .rw, 0x0, false⟩
def ROW_PLACE_CFG_TIER_EN : Fld := ⟨0x910018, 8, 0x1000, 1, 0x0, 1, 1, .rw, 0x1, false⟩
def ROW_PLACE_CFG_STACK_EN : Fld := ⟨0x910018, 8, 0x1000, 1, 0x0, 0, 0, .rw, 0x1, false⟩
def ROW_PLACE_STATUS_QUEUED : Fld := ⟨0x910020, 8, 0x1000, 1, 0x0, 63, 32, .ro, 0x0, false⟩
def ROW_PLACE_STATUS_MOVED : Fld := ⟨0x910020, 8, 0x1000, 1, 0x0, 31, 0, .rc, 0x0, false⟩
def ROW_HOT_ROW_THRESH_LOG2 : Fld := ⟨0x910028, 8, 0x1000, 1, 0x0, 56, 53, .rw, 0xc, false⟩
def ROW_HOT_ROW_TABLE : Fld := ⟨0x910028, 8, 0x1000, 1, 0x0, 52, 41, .ro, 0x0, false⟩
def ROW_HOT_ROW_ROW : Fld := ⟨0x910028, 8, 0x1000, 1, 0x0, 40, 0, .ro, 0x0, false⟩
def ROW_HOT_COUNT_LONGEST : Fld := ⟨0x910030, 8, 0x1000, 1, 0x0, 63, 32, .ro, 0x0, false⟩
def ROW_HOT_COUNT_ABOVE : Fld := ⟨0x910030, 8, 0x1000, 1, 0x0, 31, 0, .rc, 0x0, false⟩
def ROW_REPL_ADDR_ADDR : Fld := ⟨0x910038, 8, 0x1000, 1, 0x0, 47, 0, .rw, 0x0, false⟩
def ROW_REPL_STEP_STEP : Fld := ⟨0x910040, 8, 0x1000, 1, 0x0, 63, 0, .rw, 0x0, false⟩
def ROW_REPL_CTRL_GO : Fld := ⟨0x910048, 8, 0x1000, 1, 0x0, 63, 63, .wo, 0x0, true⟩
def ROW_REPL_CTRL_TABLE : Fld := ⟨0x910048, 8, 0x1000, 1, 0x0, 43, 32, .rw, 0x0, false⟩
def ROW_REPL_CTRL_EPOCH : Fld := ⟨0x910048, 8, 0x1000, 1, 0x0, 31, 0, .rw, 0x0, false⟩
def ROW_REPL_STATUS_STATE : Fld := ⟨0x910050, 8, 0x1000, 1, 0x0, 7, 0, .ro, 0x0, false⟩
def ROW_JNL_STATUS_HIGH : Fld := ⟨0x910058, 8, 0x1000, 1, 0x0, 63, 32, .ro, 0x0, false⟩
def ROW_JNL_STATUS_SPILLS : Fld := ⟨0x910058, 8, 0x1000, 1, 0x0, 31, 16, .rc, 0x0, false⟩
def WCH_CTRL_PALE_DEF : Fld := ⟨0xb10000, 8, 0x1000, 1, 0x0, 31, 16, .rw, 0x100, false⟩
def WCH_CTRL_NWATCH : Fld := ⟨0xb10000, 8, 0x1000, 1, 0x0, 12, 0, .rw, 0x0, false⟩
def WCH_LIST_BASE_ADDR : Fld := ⟨0xb10008, 8, 0x1000, 1, 0x0, 47, 0, .rw, 0x0, false⟩
def WCH_STATE_BASE_ADDR : Fld := ⟨0xb10010, 8, 0x1000, 1, 0x0, 47, 0, .ro, 0x0, false⟩
def WCH_DIG_BASE_ADDR : Fld := ⟨0xb10018, 8, 0x1000, 1, 0x0, 47, 0, .ro, 0x0, false⟩
def WCH_CAL_BASE_ADDR : Fld := ⟨0xb10020, 8, 0x1000, 1, 0x0, 47, 0, .ro, 0x0, false⟩
def WCH_ROOT_ROOT : Fld := ⟨0xb10028, 8, 0x1000, 1, 0x0, 63, 0, .ro, 0x0, false⟩
def WCH_HROOT_ROOT : Fld := ⟨0xb10030, 8, 0x1000, 1, 0x0, 63, 0, .ro, 0x0, false⟩
def WCH_STATUS_PALE : Fld := ⟨0xb10038, 8, 0x1000, 1, 0x0, 63, 48, .rc, 0x0, false⟩
def WCH_STATUS_NONFIN : Fld := ⟨0xb10038, 8, 0x1000, 1, 0x0, 47, 32, .rc, 0x0, false⟩
def WCH_STATUS_ROOTRST : Fld := ⟨0xb10038, 8, 0x1000, 1, 0x0, 14, 14, .ro, 0x0, false⟩
def WCH_STATUS_FIRST : Fld := ⟨0xb10038, 8, 0x1000, 1, 0x0, 11, 0, .ro, 0x0, false⟩
def WCH_CKPT_BASE_ADDR : Fld := ⟨0xb10040, 8, 0x1000, 1, 0x0, 47, 0, .ro, 0x0, false⟩
def WCH_CKPT_HBASE_ADDR : Fld := ⟨0xb10048, 8, 0x1000, 1, 0x0, 47, 0, .ro, 0x0, false⟩
def WCH_RESUME_CTRL_ARM : Fld := ⟨0xb10050, 8, 0x1000, 1, 0x0, 63, 63, .rw, 0x0, false⟩
def WCH_RESUME_CTRL_HAVE : Fld := ⟨0xb10050, 8, 0x1000, 1, 0x0, 5, 0, .rw, 0x0, false⟩
def TST_ASH_CTRL_IDLE_EN : Fld := ⟨0xc00000, 1, 0x0, 1, 0x0, 1, 1, .rw, 0x0, false⟩
def TST_ASH_CTRL_EN : Fld := ⟨0xc00000, 1, 0x0, 1, 0x0, 0, 0, .rw, 0x1, false⟩
def TST_ASH_STAT_PASSES : Fld := ⟨0xc00008, 1, 0x0, 1, 0x0, 63, 32, .rc, 0x0, false⟩
def TST_ASH_STAT_FAILS : Fld := ⟨0xc00008, 1, 0x0, 1, 0x0, 31, 16, .rc, 0x0, false⟩
def TST_ASH_STAT_LAST : Fld := ⟨0xc00008, 1, 0x0, 1, 0x0, 4, 0, .ro, 0x0, false⟩
def TST_ASH_FAIL_VALID : Fld := ⟨0xc00010, 1, 0x0, 1, 0x0, 63, 63, .w1c, 0x0, false⟩
def TST_ASH_FAIL_FAILED : Fld := ⟨0xc00010, 1, 0x0, 1, 0x0, 62, 62, .ro, 0x0, false⟩
def TST_ASH_FAIL_SEG : Fld := ⟨0xc00010, 1, 0x0, 1, 0x0, 51, 48, .ro, 0x0, false⟩
def TST_ASH_FAIL_TILE : Fld := ⟨0xc00010, 1, 0x0, 1, 0x0, 47, 40, .ro, 0x0, false⟩
def TST_ASH_FAIL_BN : Fld := ⟨0xc00010, 1, 0x0, 1, 0x0, 31, 0, .ro, 0x0, false⟩
def TST_MBIST_GO : Fld := ⟨0xc00018, 1, 0x0, 1, 0x0, 63, 63, .w1s, 0x0, true⟩
def TST_MBIST_FAIL : Fld := ⟨0xc00018, 1, 0x0, 1, 0x0, 62, 62, .ro, 0x0, false⟩
def TST_MBIST_MEM : Fld := ⟨0xc00018, 1, 0x0, 1, 0x0, 55, 48, .ro, 0x0, false⟩
def TST_MBIST_INST : Fld := ⟨0xc00018, 1, 0x0, 1, 0x0, 47, 32, .ro, 0x0, false⟩
def TST_MBIST_CLUSTERS : Fld := ⟨0xc00018, 1, 0x0, 1, 0x0, 31, 0, .rw, 0x0, false⟩
def TST_ELOG_INFO_VALID : Fld := ⟨0xc00020, 1, 0x0, 1, 0x0, 63, 63, .ro, 0x0, false⟩
def TST_ELOG_INFO_LOST : Fld := ⟨0xc00020, 1, 0x0, 1, 0x0, 62, 56, .rc, 0x0, false⟩
def TST_ELOG_INFO_SRC : Fld := ⟨0xc00020, 1, 0x0, 1, 0x0, 55, 52, .ro, 0x0, false⟩
def TST_ELOG_INFO_INDEX : Fld := ⟨0xc00020, 1, 0x0, 1, 0x0, 51, 40, .ro, 0x0, false⟩
def TST_ELOG_INFO_CAUSE : Fld := ⟨0xc00020, 1, 0x0, 1, 0x0, 39, 32, .ro, 0x0, false⟩
def TST_ELOG_INFO_DETAIL : Fld := ⟨0xc00020, 1, 0x0, 1, 0x0, 28, 0, .ro, 0x0, false⟩
def TST_ELOG_BN_BN : Fld := ⟨0xc00028, 1, 0x0, 1, 0x0, 63, 0, .ro, 0x0, false⟩
def TST_ELOG_POP_POP : Fld := ⟨0xc00030, 1, 0x0, 1, 0x0, 0, 0, .wo, 0x0, true⟩
def TST_FTG_GO : Fld := ⟨0xc00038, 1, 0x0, 1, 0x0, 63, 63, .w1s, 0x0, true⟩
def TST_FTG_CLASS : Fld := ⟨0xc00038, 1, 0x0, 1, 0x0, 62, 62, .rw, 0x0, false⟩
def TST_FTG_DEST : Fld := ⟨0xc00038, 1, 0x0, 1, 0x0, 48, 32, .rw, 0x0, false⟩
def TST_FTG_COUNT : Fld := ⟨0xc00038, 1, 0x0, 1, 0x0, 31, 0, .rw, 0x0, false⟩
def TST_FCHK_GOOD : Fld := ⟨0xc00040, 1, 0x0, 1, 0x0, 63, 32, .rc, 0x0, false⟩
def TST_FCHK_BAD : Fld := ⟨0xc00040, 1, 0x0, 1, 0x0, 31, 0, .rc, 0x0, false⟩
def PRT_CLUSTERS_MASK : Fld := ⟨0xd00000, 8, 0x100, 1, 0x0, 31, 0, .rw, 0x0, true⟩
def PRT_QUOTA_UMB_Q : Fld := ⟨0xd00008, 8, 0x100, 1, 0x0, 42, 32, .rw, 0x0, true⟩
def PRT_QUOTA_HBM_Q : Fld := ⟨0xd00008, 8, 0x100, 1, 0x0, 9, 0, .rw, 0x0, true⟩
def PRT_STATE_FROZEN : Fld := ⟨0xd00010, 8, 0x100, 1, 0x0, 63, 48, .ro, 0x0, false⟩
def PRT_STATE_UMB_USED : Fld := ⟨0xd00010, 8, 0x100, 1, 0x0, 42, 32, .ro, 0x0, false⟩
def PRT_STATE_HBM_USED : Fld := ⟨0xd00010, 8, 0x100, 1, 0x0, 25, 16, .ro, 0x0, false⟩
def PRT_STATE_WIPING : Fld := ⟨0xd00010, 8, 0x100, 1, 0x0, 2, 2, .ro, 0x0, false⟩
def PRT_STATE_OVER_QUOTA : Fld := ⟨0xd00010, 8, 0x100, 1, 0x0, 1, 1, .ro, 0x0, false⟩
def PRT_STATE_READY : Fld := ⟨0xd00010, 8, 0x100, 1, 0x0, 0, 0, .ro, 0x0, false⟩
def PRT_RESET_RESET : Fld := ⟨0xd00018, 8, 0x100, 1, 0x0, 0, 0, .wo, 0x0, true⟩
def PRT_FRZ_INFO_VALID : Fld := ⟨0xd00020, 8, 0x100, 1, 0x0, 63, 63, .ro, 0x0, false⟩
def PRT_FRZ_INFO_LOST : Fld := ⟨0xd00020, 8, 0x100, 1, 0x0, 62, 56, .rc, 0x0, false⟩
def PRT_FRZ_INFO_TYPE : Fld := ⟨0xd00020, 8, 0x100, 1, 0x0, 55, 52, .ro, 0x0, false⟩
def PRT_FRZ_INFO_INDEX : Fld := ⟨0xd00020, 8, 0x100, 1, 0x0, 51, 40, .ro, 0x0, false⟩
def PRT_FRZ_INFO_WRITE : Fld := ⟨0xd00020, 8, 0x100, 1, 0x0, 39, 39, .ro, 0x0, false⟩
def PRT_FRZ_ADDR_ADDR : Fld := ⟨0xd00028, 8, 0x100, 1, 0x0, 47, 0, .ro, 0x0, false⟩
def PRT_FRZ_BN_BN : Fld := ⟨0xd00030, 8, 0x100, 1, 0x0, 63, 0, .ro, 0x0, false⟩
def PRT_FRZ_POP_POP : Fld := ⟨0xd00038, 8, 0x100, 1, 0x0, 0, 0, .wo, 0x0, true⟩
def PRT_GRAN_OWNERS : Fld := ⟨0xd10000, 132, 0x8, 1, 0x0, 63, 0, .rw, 0x0, true⟩
def PRT_FWHEEL_OWNERS : Fld := ⟨0xd20000, 6, 0x80, 16, 0x8, 63, 0, .rw, 0x0, false⟩
def PRT_FREG_CTRL_DISCARD : Fld := ⟨0xd20300, 6, 0x8, 1, 0x0, 1, 1, .wo, 0x0, true⟩
def PRT_FREG_CTRL_PENDING : Fld := ⟨0xd20300, 6, 0x8, 1, 0x0, 0, 0, .ro, 0x0, false⟩
def TIL_CTRL_WAIT_LIMIT : Fld := ⟨0x1000000, 256, 0x8000, 1, 0x0, 15, 0, .rw, 0x10, false⟩
def TIL_STATUS_LATE_WAITS : Fld := ⟨0x1000008, 256, 0x8000, 1, 0x0, 63, 48, .rc, 0x0, false⟩
def TIL_STATUS_STATE : Fld := ⟨0x1000008, 256, 0x8000, 1, 0x0, 33, 32, .ro, 0x0, false⟩
def TIL_STATUS_TASK : Fld := ⟨0x1000008, 256, 0x8000, 1, 0x0, 23, 0, .ro, 0x0, false⟩
def TIL_FAULT_VALID : Fld := ⟨0x1000010, 256, 0x8000, 1, 0x0, 63, 63, .w1c, 0x0, false⟩
def TIL_FAULT_MORE : Fld := ⟨0x1000010, 256, 0x8000, 1, 0x0, 62, 62, .ro, 0x0, false⟩
def TIL_FAULT_REPEAT : Fld := ⟨0x1000010, 256, 0x8000, 1, 0x0, 61, 61, .ro, 0x0, false⟩
def TIL_FAULT_SLOT : Fld := ⟨0x1000010, 256, 0x8000, 1, 0x0, 57, 56, .ro, 0x0, false⟩
def TIL_FAULT_TASK : Fld := ⟨0x1000010, 256, 0x8000, 1, 0x0, 55, 32, .ro, 0x0, false⟩
def TIL_FAULT_CODE : Fld := ⟨0x1000010, 256, 0x8000, 1, 0x0, 31, 24, .ro, 0x0, false⟩
def TIL_FAULT_PC : Fld := ⟨0x1000010, 256, 0x8000, 1, 0x0, 13, 0, .ro, 0x0, false⟩
def TIL_FAULT_BN_BN : Fld := ⟨0x1000018, 256, 0x8000, 1, 0x0, 63, 0, .ro, 0x0, false⟩
def TIL_VC_EVENTS_INVALID : Fld := ⟨0x1000020, 256, 0x8000, 1, 0x0, 63, 48, .rc, 0x0, false⟩
def TIL_VC_EVENTS_DIVZERO : Fld := ⟨0x1000020, 256, 0x8000, 1, 0x0, 47, 32, .rc, 0x0, false⟩
def TIL_VC_EVENTS_OVERFLOW : Fld := ⟨0x1000020, 256, 0x8000, 1, 0x0, 31, 16, .rc, 0x0, false⟩
def TIL_VC_EVENTS_SAT : Fld := ⟨0x1000020, 256, 0x8000, 1, 0x0, 15, 0, .rc, 0x0, false⟩
def DMA_QSTATUS_OVF : Fld := ⟨0x4000018, 256, 0x1000, 1, 0x0, 63, 63, .rc, 0x0, false⟩
def DMA_QSTATUS_REFUSED : Fld := ⟨0x4000018, 256, 0x1000, 1, 0x0, 62, 62, .rc, 0x0, false⟩
def DMA_QSTATUS_LAST : Fld := ⟨0x4000018, 256, 0x1000, 1, 0x0, 55, 48, .ro, 0x0, false⟩
def DMA_QSTATUS_PENDING : Fld := ⟨0x4000018, 256, 0x1000, 1, 0x0, 6, 0, .ro, 0x0, false⟩
def TIL_VSEL_GROUP : Fld := ⟨0x5000000, 8, 0x8, 1, 0x0, 2, 0, .rw, 0x0, false⟩
def GEN_VERR_ACCESS : Fld := ⟨0x6000000, 8, 0x8, 1, 0x0, 63, 48, .rc, 0x0, false⟩
def GEN_VERR_DISCARD : Fld := ⟨0x6000000, 8, 0x8, 1, 0x0, 47, 32, .rc, 0x0, false⟩
def GEN_VERR_VALID : Fld := ⟨0x6000000, 8, 0x8, 1, 0x0, 31, 31, .w1c, 0x0, false⟩
def GEN_VERR_FUNC : Fld := ⟨0x6000000, 8, 0x8, 1, 0x0, 30, 27, .ro, 0x0, false⟩
def GEN_VERR_KIND : Fld := ⟨0x6000000, 8, 0x8, 1, 0x0, 25, 25, .ro, 0x0, false⟩
def GEN_VERR_OFFSET : Fld := ⟨0x6000000, 8, 0x8, 1, 0x0, 24, 0, .ro, 0x0, false⟩

end F

/-- A register row: its instances and its fields. -/
structure RegRow where
  base : Nat
  n1   : Nat
  s1   : Nat
  n2   : Nat
  s2   : Nat
  fields : List Fld
deriving DecidableEq, Repr

/-- The GEN rows of the register index. -/
def regRowsGen : List RegRow :=
  [ ⟨0x0, 1, 0x0, 1, 0x0, [F.GEN_ID_STEPPING, F.GEN_ID_DEVICE, F.GEN_ID_VENDOR, F.GEN_ID_MAPVER]⟩,
    ⟨0x8, 1, 0x0, 1, 0x0, [F.GEN_SERIAL_SERIAL]⟩,
    ⟨0x10, 1, 0x0, 1, 0x0, [F.GEN_STATUS_RUNNING, F.GEN_STATUS_FCAUSE, F.GEN_STATUS_RECOVERY, F.GEN_STATUS_FAILED, F.GEN_STATUS_READY]⟩,
    ⟨0x18, 1, 0x0, 1, 0x0, [F.GEN_ERR_ACCESS, F.GEN_ERR_DISCARD, F.GEN_ERR_VALID, F.GEN_ERR_FUNC, F.GEN_ERR_KIND, F.GEN_ERR_OFFSET]⟩ ]

/-- The PWR rows of the register index. -/
def regRowsPwr : List RegRow :=
  [ ⟨0x100000, 1, 0x0, 1, 0x0, [F.PWR_CTRL_AUTO_ON, F.PWR_CTRL_GO, F.PWR_CTRL_TARGET]⟩,
    ⟨0x100008, 1, 0x0, 1, 0x0, [F.PWR_STAT_RAMP_DELAYS, F.PWR_STAT_REFUSE, F.PWR_STAT_PREV, F.PWR_STAT_BUSY, F.PWR_STAT_STATE]⟩,
    ⟨0x100010, 1, 0x0, 1, 0x0, [F.PWR_IDLE_TIMER]⟩,
    ⟨0x100018, 1, 0x0, 1, 0x0, [F.PWR_WAKE_TIME, F.PWR_WAKE_FROM, F.PWR_WAKE_SOURCE]⟩,
    ⟨0x100020, 1, 0x0, 1, 0x0, [F.PWR_WAKE_TIMER_EN, F.PWR_WAKE_TIMER_MS]⟩,
    ⟨0x100028, 1, 0x0, 1, 0x0, [F.PWR_RAMP_SHARE]⟩,
    ⟨0x100030, 1, 0x0, 1, 0x0, [F.PWR_DOM_RET, F.PWR_DOM_ON]⟩,
    ⟨0x100038, 1, 0x0, 1, 0x0, [F.PWR_ASSIST_HUB_V, F.PWR_ASSIST_HUB_WA, F.PWR_ASSIST_HUB_RA, F.PWR_ASSIST_BASE_V, F.PWR_ASSIST_BASE_WA, F.PWR_ASSIST_BASE_RA, F.PWR_ASSIST_CD_V, F.PWR_ASSIST_CD_WA, F.PWR_ASSIST_CD_RA]⟩ ]

/-- The SEC rows of the register index. -/
def regRowsSec : List RegRow :=
  [ ⟨0x200000, 1, 0x0, 1, 0x0, [F.SEC_STATE_COUNTER, F.SEC_STATE_SVN, F.SEC_STATE_OWNER, F.SEC_STATE_SLOTS, F.SEC_STATE_RNGFAIL, F.SEC_STATE_RECOVERED, F.SEC_STATE_DEBUG, F.SEC_STATE_LC]⟩,
    ⟨0x200008, 1, 0x0, 1, 0x0, [F.SEC_FW_ADDR_ADDR]⟩,
    ⟨0x200010, 1, 0x0, 1, 0x0, [F.SEC_FW_LEN_LEN]⟩,
    ⟨0x200018, 1, 0x0, 1, 0x0, [F.SEC_FW_CTRL_SVN_COMMIT, F.SEC_FW_CTRL_GO]⟩,
    ⟨0x200020, 1, 0x0, 1, 0x0, [F.SEC_FW_STATUS_CODE]⟩,
    ⟨0x200028, 1, 0x0, 1, 0x0, [F.SEC_REC_CTRL_REQ]⟩,
    ⟨0x200040, 8, 0x8, 1, 0x0, [F.SEC_MEAS_MEAS]⟩ ]

/-- The PLN rows of the register index. -/
def regRowsPln : List RegRow :=
  [ ⟨0x300000, 1, 0x0, 1, 0x0, [F.PLN_BEAT_CFG_MASTER_POS, F.PLN_BEAT_CFG_LOSS_DETECT, F.PLN_BEAT_CFG_SRC]⟩,
    ⟨0x300008, 1, 0x0, 1, 0x0, [F.PLN_BEAT_STATUS_CUR_MASTER, F.PLN_BEAT_STATUS_OFFSET, F.PLN_BEAT_STATUS_UPSTREAM, F.PLN_BEAT_STATUS_IS_MASTER, F.PLN_BEAT_STATUS_HOLDOVER, F.PLN_BEAT_STATUS_SRC_ACTIVE]⟩,
    ⟨0x300010, 1, 0x0, 1, 0x0, [F.PLN_BN_BN]⟩,
    ⟨0x300018, 1, 0x0, 1, 0x0, [F.PLN_BN_LOAD_BN]⟩,
    ⟨0x310000, 8, 0x10000, 1, 0x0, [F.PLN_CTRL_HOLD_LIMIT, F.PLN_CTRL_BAL_THRESH, F.PLN_CTRL_BAL_EN, F.PLN_CTRL_CHK_FAULT, F.PLN_CTRL_CHK_EN, F.PLN_CTRL_RUN]⟩,
    ⟨0x310008, 8, 0x10000, 1, 0x0, [F.PLN_IMG_BASE_BASE]⟩,
    ⟨0x310010, 8, 0x10000, 1, 0x0, [F.PLN_IMG_LEN_LEN]⟩,
    ⟨0x310018, 8, 0x10000, 1, 0x0, [F.PLN_LOAD_GO]⟩,
    ⟨0x310020, 8, 0x10000, 1, 0x0, [F.PLN_LOAD_STATUS_DETAIL, F.PLN_LOAD_STATUS_BUSY, F.PLN_LOAD_STATUS_CODE]⟩,
    ⟨0x310028, 8, 0x10000, 1, 0x0, [F.PLN_START_BN_BN]⟩,
    ⟨0x310030, 8, 0x10000, 1, 0x0, [F.PLN_STEP_STEP]⟩,
    ⟨0x310038, 8, 0x10000, 1, 0x0, [F.PLN_SPOS_HOLD_TOTAL, F.PLN_SPOS_POS]⟩,
    ⟨0x310080, 8, 0x10000, 1, 0x0, [F.PLN_HOLD_BN_BN]⟩,
    ⟨0x310088, 8, 0x10000, 1, 0x0, [F.PLN_HOLD_INFO_ORIGIN, F.PLN_HOLD_INFO_TASK, F.PLN_HOLD_INFO_LENGTH, F.PLN_HOLD_INFO_CAUSE]⟩,
    ⟨0x310090, 8, 0x10000, 1, 0x0, [F.PLN_HOLD_POP_POP]⟩,
    ⟨0x310098, 8, 0x10000, 1, 0x0, [F.PLN_CHK_COUNT_COUNT]⟩,
    ⟨0x3100a0, 8, 0x10000, 1, 0x0, [F.PLN_CHK_FIRST_TASK, F.PLN_CHK_FIRST_POS]⟩,
    ⟨0x3100a8, 8, 0x10000, 1, 0x0, [F.PLN_SCALE_STATUS_FALLBACK, F.PLN_SCALE_STATUS_EXTRA, F.PLN_SCALE_STATUS_NOBITS, F.PLN_SCALE_STATUS_WARMUP, F.PLN_SCALE_STATUS_COLD]⟩,
    ⟨0x3100b0, 8, 0x10000, 1, 0x0, [F.PLN_COMMIT_CFG_ROLL_LEAD]⟩,
    ⟨0x3100b8, 8, 0x10000, 1, 0x0, [F.PLN_COMMIT_STATUS_ATTEMPT, F.PLN_COMMIT_STATUS_DSTATE, F.PLN_COMMIT_STATUS_ROLLBACKS]⟩,
    ⟨0x3100c0, 8, 0x10000, 1, 0x0, [F.PLN_ROLL_BN_BN]⟩,
    ⟨0x3100c8, 8, 0x10000, 1, 0x0, [F.PLN_ROLL_INFO_ORIGIN, F.PLN_ROLL_INFO_TASK, F.PLN_ROLL_INFO_CAUSE]⟩,
    ⟨0x3100d0, 8, 0x10000, 1, 0x0, [F.PLN_CLIP_STATUS_SKIPPED, F.PLN_CLIP_STATUS_CLIPPED, F.PLN_CLIP_STATUS_NORM0]⟩,
    ⟨0x3100d8, 8, 0x10000, 1, 0x0, [F.PLN_COMMIT_MBOX_ADDR]⟩,
    ⟨0x310040, 8, 0x10000, 8, 0x8, [F.PLN_DIGEST_DIGEST]⟩ ]

/-- The DMA rows of the register index. -/
def regRowsDma : List RegRow :=
  [ ⟨0x400000, 1, 0x0, 1, 0x0, [F.DMA_HCFG_UNPROT, F.DMA_HCFG_IDE_REQ]⟩,
    ⟨0x400008, 1, 0x0, 1, 0x0, [F.DMA_MEVT_VEC, F.DMA_MEVT_CAUSE]⟩,
    ⟨0x400100, 16, 0x8, 1, 0x0, [F.DMA_WIN_EN, F.DMA_WIN_BASE, F.DMA_WIN_FROZEN]⟩,
    ⟨0x401000, 32, 0x10, 1, 0x0, [F.DMA_MCFG_MODE, F.DMA_MCFG_OWNER, F.DMA_MCFG_EN]⟩,
    ⟨0x401008, 32, 0x10, 1, 0x0, [F.DMA_MSTAT_STATE, F.DMA_MSTAT_DONE]⟩,
    ⟨0x402000, 256, 0x8, 1, 0x0, [F.DMA_QCFG_EN, F.DMA_QCFG_MOVER]⟩,
    ⟨0x403000, 8, 0x8, 1, 0x0, [F.DMA_PEVT_VEC, F.DMA_PEVT_CAUSE]⟩ ]

/-- The STM rows of the register index. -/
def regRowsStm : List RegRow :=
  [ ⟨0x500000, 2, 0x100, 1, 0x0, [F.STM_PSTAT_PHY, F.STM_PSTAT_UP]⟩,
    ⟨0x500008, 2, 0x100, 1, 0x0, [F.STM_PMAC_MAC]⟩,
    ⟨0x500010, 2, 0x100, 1, 0x0, [F.STM_PCNT_ICV, F.STM_PCNT_REPLAY, F.STM_PCNT_NOSA, F.STM_PCNT_OTHER]⟩,
    ⟨0x510000, 8, 0x1000, 1, 0x0, [F.STM_IBUF_SIZE]⟩,
    ⟨0x510008, 8, 0x1000, 1, 0x0, [F.STM_REF_BASE_BASE]⟩,
    ⟨0x510010, 8, 0x1000, 1, 0x0, [F.STM_REF_CTRL_LOST, F.STM_REF_CTRL_ENTRIES, F.STM_REF_CTRL_CONS, F.STM_REF_CTRL_PROD]⟩,
    ⟨0x510018, 8, 0x1000, 1, 0x0, [F.STM_CKPT_CTRL_GO, F.STM_CKPT_CTRL_ERR, F.STM_CKPT_CTRL_RANK]⟩,
    ⟨0x510020, 8, 0x1000, 1, 0x0, [F.STM_CKPT_DST_MAC]⟩,
    ⟨0x510028, 8, 0x1000, 1, 0x0, [F.STM_ICNT_DUP, F.STM_ICNT_CREDIT, F.STM_ICNT_MISROUTE, F.STM_ICNT_RESEND]⟩ ]

/-- The FAB rows of the register index. -/
def regRowsFab : List RegRow :=
  [ ⟨0x600000, 1, 0x0, 1, 0x0, [F.FAB_CFG_Z_M1, F.FAB_CFG_Y_M1, F.FAB_CFG_X_M1, F.FAB_CFG_Z, F.FAB_CFG_Y, F.FAB_CFG_X]⟩,
    ⟨0x600008, 1, 0x0, 1, 0x0, [F.FAB_BYP_CLOSED, F.FAB_BYP_OPEN]⟩,
    ⟨0x600010, 1, 0x0, 1, 0x0, [F.FAB_STAT_UNREACH, F.FAB_STAT_STALE, F.FAB_STAT_REFUSED, F.FAB_STAT_LATEHOLD]⟩,
    ⟨0x600100, 1, 0x0, 1, 0x0, [F.FAB_HCTRL_RESUME_LEAD, F.FAB_HCTRL_GATHER, F.FAB_HCTRL_CLAIM]⟩,
    ⟨0x600108, 1, 0x0, 1, 0x0, [F.FAB_HSTAT_HEPOCH, F.FAB_HSTAT_OUTCOME, F.FAB_HSTAT_MIRROR]⟩,
    ⟨0x600110, 1, 0x0, 1, 0x0, [F.FAB_RANK_HVALID, F.FAB_RANK_HOSTED, F.FAB_RANK_PVALID, F.FAB_RANK_HOME]⟩,
    ⟨0x600118, 1, 0x0, 1, 0x0, [F.FAB_HLOG_BN, F.FAB_HLOG_POS]⟩,
    ⟨0x601000, 6, 0x100, 1, 0x0, [F.FAB_PCTRL_RETRY_LIMIT, F.FAB_PCTRL_RETRAIN, F.FAB_PCTRL_EN]⟩,
    ⟨0x601008, 6, 0x100, 1, 0x0, [F.FAB_PSTAT_RTT, F.FAB_PSTAT_FAR_POS, F.FAB_PSTAT_LANES, F.FAB_PSTAT_CAUSE, F.FAB_PSTAT_W8, F.FAB_PSTAT_STATE]⟩,
    ⟨0x601010, 6, 0x100, 1, 0x0, [F.FAB_PERR_RETX, F.FAB_PERR_CRC, F.FAB_PERR_FECU, F.FAB_PERR_SEALF]⟩,
    ⟨0x601018, 6, 0x100, 1, 0x0, [F.FAB_PFEC_FEC]⟩ ]

/-- The MEM rows of the register index. -/
def regRowsMem : List RegRow :=
  [ ⟨0x700000, 8, 0x1000, 1, 0x0, [F.MEM_STAT_TEMP, F.MEM_STAT_REFX2, F.MEM_STAT_LOST, F.MEM_STAT_STATE]⟩,
    ⟨0x700008, 8, 0x1000, 1, 0x0, [F.MEM_ECC_CE, F.MEM_ECC_UE, F.MEM_ECC_ODE]⟩,
    ⟨0x700010, 8, 0x1000, 1, 0x0, [F.MEM_ECC_ADDR_VALID, F.MEM_ECC_ADDR_ADDR]⟩,
    ⟨0x700018, 8, 0x1000, 1, 0x0, [F.MEM_SCRUB_PERIOD]⟩,
    ⟨0x700020, 8, 0x1000, 1, 0x0, [F.MEM_REG_CTRL_DISCARD, F.MEM_REG_CTRL_PENDING]⟩,
    ⟨0x700028, 8, 0x1000, 1, 0x0, [F.MEM_MARGIN_VREF, F.MEM_MARGIN_PHASE, F.MEM_MARGIN_OFFLINE, F.MEM_MARGIN_APPLY]⟩,
    ⟨0x700100, 8, 0x1000, 16, 0x8, [F.MEM_WHEEL_OWNERS]⟩,
    ⟨0x700200, 8, 0x1000, 32, 0x8, [F.MEM_TG_CTRL_SEED, F.MEM_TG_CTRL_PATTERN, F.MEM_TG_CTRL_MODE, F.MEM_TG_CTRL_GO]⟩,
    ⟨0x700300, 8, 0x1000, 32, 0x8, [F.MEM_TG_STAT_BUSY, F.MEM_TG_STAT_FAIL, F.MEM_TG_STAT_ERRS, F.MEM_TG_STAT_ADDR]⟩ ]

/-- The UMB rows of the register index. -/
def regRowsUmb : List RegRow :=
  [ ⟨0x800000, 12, 0x1000, 1, 0x0, [F.UMB_STAT_TEMP, F.UMB_STAT_REFX2, F.UMB_STAT_LOST, F.UMB_STAT_STATE]⟩,
    ⟨0x800008, 12, 0x1000, 1, 0x0, [F.UMB_ECC_CE, F.UMB_ECC_UE, F.UMB_ECC_ODE]⟩,
    ⟨0x800010, 12, 0x1000, 1, 0x0, [F.UMB_ECC_ADDR_VALID, F.UMB_ECC_ADDR_ADDR]⟩,
    ⟨0x800018, 12, 0x1000, 1, 0x0, [F.UMB_SCRUB_PERIOD]⟩,
    ⟨0x800020, 12, 0x1000, 1, 0x0, [F.UMB_REG_CTRL_DISCARD, F.UMB_REG_CTRL_PENDING]⟩,
    ⟨0x800028, 12, 0x1000, 1, 0x0, [F.UMB_MARGIN_VREF, F.UMB_MARGIN_PHASE, F.UMB_MARGIN_OFFLINE, F.UMB_MARGIN_APPLY]⟩,
    ⟨0x800100, 12, 0x1000, 16, 0x8, [F.UMB_WHEEL_OWNERS]⟩,
    ⟨0x800200, 12, 0x1000, 4, 0x8, [F.UMB_TG_CTRL_SEED, F.UMB_TG_CTRL_PATTERN, F.UMB_TG_CTRL_MODE, F.UMB_TG_CTRL_GO]⟩,
    ⟨0x800300, 12, 0x1000, 4, 0x8, [F.UMB_TG_STAT_BUSY, F.UMB_TG_STAT_FAIL, F.UMB_TG_STAT_ERRS, F.UMB_TG_STAT_ADDR]⟩ ]

/-- The ROW rows of the register index. -/
def regRowsRow : List RegRow :=
  [ ⟨0x910000, 8, 0x1000, 1, 0x0, [F.ROW_TDESC_BASE_BASE]⟩,
    ⟨0x910008, 8, 0x1000, 1, 0x0, [F.ROW_DEFCNT_BASE_BASE]⟩,
    ⟨0x910010, 8, 0x1000, 1, 0x0, [F.ROW_DEF_TOTAL_TOTAL]⟩,
    ⟨0x910018, 8, 0x1000, 1, 0x0, [F.ROW_PLACE_CFG_MIG_PAGES, F.ROW_PLACE_CFG_BAL_MARGIN, F.ROW_PLACE_CFG_SHARD_MARGIN, F.ROW_PLACE_CFG_PERIOD, F.ROW_PLACE_CFG_SHARD_EN, F.ROW_PLACE_CFG_TIER_EN, F.ROW_PLACE_CFG_STACK_EN]⟩,
    ⟨0x910020, 8, 0x1000, 1, 0x0, [F.ROW_PLACE_STATUS_QUEUED, F.ROW_PLACE_STATUS_MOVED]⟩,
    ⟨0x910028, 8, 0x1000, 1, 0x0, [F.ROW_HOT_ROW_THRESH_LOG2, F.ROW_HOT_ROW_TABLE, F.ROW_HOT_ROW_ROW]⟩,
    ⟨0x910030, 8, 0x1000, 1, 0x0, [F.ROW_HOT_COUNT_LONGEST, F.ROW_HOT_COUNT_ABOVE]⟩,
    ⟨0x910038, 8, 0x1000, 1, 0x0, [F.ROW_REPL_ADDR_ADDR]⟩,
    ⟨0x910040, 8, 0x1000, 1, 0x0, [F.ROW_REPL_STEP_STEP]⟩,
    ⟨0x910048, 8, 0x1000, 1, 0x0, [F.ROW_REPL_CTRL_GO, F.ROW_REPL_CTRL_TABLE, F.ROW_REPL_CTRL_EPOCH]⟩,
    ⟨0x910050, 8, 0x1000, 1, 0x0, [F.ROW_REPL_STATUS_STATE]⟩,
    ⟨0x910058, 8, 0x1000, 1, 0x0, [F.ROW_JNL_STATUS_HIGH, F.ROW_JNL_STATUS_SPILLS]⟩ ]

/-- The WCH rows of the register index. -/
def regRowsWch : List RegRow :=
  [ ⟨0xb10000, 8, 0x1000, 1, 0x0, [F.WCH_CTRL_PALE_DEF, F.WCH_CTRL_NWATCH]⟩,
    ⟨0xb10008, 8, 0x1000, 1, 0x0, [F.WCH_LIST_BASE_ADDR]⟩,
    ⟨0xb10010, 8, 0x1000, 1, 0x0, [F.WCH_STATE_BASE_ADDR]⟩,
    ⟨0xb10018, 8, 0x1000, 1, 0x0, [F.WCH_DIG_BASE_ADDR]⟩,
    ⟨0xb10020, 8, 0x1000, 1, 0x0, [F.WCH_CAL_BASE_ADDR]⟩,
    ⟨0xb10028, 8, 0x1000, 1, 0x0, [F.WCH_ROOT_ROOT]⟩,
    ⟨0xb10030, 8, 0x1000, 1, 0x0, [F.WCH_HROOT_ROOT]⟩,
    ⟨0xb10038, 8, 0x1000, 1, 0x0, [F.WCH_STATUS_PALE, F.WCH_STATUS_NONFIN, F.WCH_STATUS_ROOTRST, F.WCH_STATUS_FIRST]⟩,
    ⟨0xb10040, 8, 0x1000, 1, 0x0, [F.WCH_CKPT_BASE_ADDR]⟩,
    ⟨0xb10048, 8, 0x1000, 1, 0x0, [F.WCH_CKPT_HBASE_ADDR]⟩,
    ⟨0xb10050, 8, 0x1000, 1, 0x0, [F.WCH_RESUME_CTRL_ARM, F.WCH_RESUME_CTRL_HAVE]⟩ ]

/-- The TST rows of the register index. -/
def regRowsTst : List RegRow :=
  [ ⟨0xc00000, 1, 0x0, 1, 0x0, [F.TST_ASH_CTRL_IDLE_EN, F.TST_ASH_CTRL_EN]⟩,
    ⟨0xc00008, 1, 0x0, 1, 0x0, [F.TST_ASH_STAT_PASSES, F.TST_ASH_STAT_FAILS, F.TST_ASH_STAT_LAST]⟩,
    ⟨0xc00010, 1, 0x0, 1, 0x0, [F.TST_ASH_FAIL_VALID, F.TST_ASH_FAIL_FAILED, F.TST_ASH_FAIL_SEG, F.TST_ASH_FAIL_TILE, F.TST_ASH_FAIL_BN]⟩,
    ⟨0xc00018, 1, 0x0, 1, 0x0, [F.TST_MBIST_GO, F.TST_MBIST_FAIL, F.TST_MBIST_MEM, F.TST_MBIST_INST, F.TST_MBIST_CLUSTERS]⟩,
    ⟨0xc00020, 1, 0x0, 1, 0x0, [F.TST_ELOG_INFO_VALID, F.TST_ELOG_INFO_LOST, F.TST_ELOG_INFO_SRC, F.TST_ELOG_INFO_INDEX, F.TST_ELOG_INFO_CAUSE, F.TST_ELOG_INFO_DETAIL]⟩,
    ⟨0xc00028, 1, 0x0, 1, 0x0, [F.TST_ELOG_BN_BN]⟩,
    ⟨0xc00030, 1, 0x0, 1, 0x0, [F.TST_ELOG_POP_POP]⟩,
    ⟨0xc00038, 1, 0x0, 1, 0x0, [F.TST_FTG_GO, F.TST_FTG_CLASS, F.TST_FTG_DEST, F.TST_FTG_COUNT]⟩,
    ⟨0xc00040, 1, 0x0, 1, 0x0, [F.TST_FCHK_GOOD, F.TST_FCHK_BAD]⟩ ]

/-- The PRT rows of the register index. -/
def regRowsPrt : List RegRow :=
  [ ⟨0xd00000, 8, 0x100, 1, 0x0, [F.PRT_CLUSTERS_MASK]⟩,
    ⟨0xd00008, 8, 0x100, 1, 0x0, [F.PRT_QUOTA_UMB_Q, F.PRT_QUOTA_HBM_Q]⟩,
    ⟨0xd00010, 8, 0x100, 1, 0x0, [F.PRT_STATE_FROZEN, F.PRT_STATE_UMB_USED, F.PRT_STATE_HBM_USED, F.PRT_STATE_WIPING, F.PRT_STATE_OVER_QUOTA, F.PRT_STATE_READY]⟩,
    ⟨0xd00018, 8, 0x100, 1, 0x0, [F.PRT_RESET_RESET]⟩,
    ⟨0xd00020, 8, 0x100, 1, 0x0, [F.PRT_FRZ_INFO_VALID, F.PRT_FRZ_INFO_LOST, F.PRT_FRZ_INFO_TYPE, F.PRT_FRZ_INFO_INDEX, F.PRT_FRZ_INFO_WRITE]⟩,
    ⟨0xd00028, 8, 0x100, 1, 0x0, [F.PRT_FRZ_ADDR_ADDR]⟩,
    ⟨0xd00030, 8, 0x100, 1, 0x0, [F.PRT_FRZ_BN_BN]⟩,
    ⟨0xd00038, 8, 0x100, 1, 0x0, [F.PRT_FRZ_POP_POP]⟩,
    ⟨0xd10000, 132, 0x8, 1, 0x0, [F.PRT_GRAN_OWNERS]⟩,
    ⟨0xd20000, 6, 0x80, 16, 0x8, [F.PRT_FWHEEL_OWNERS]⟩,
    ⟨0xd20300, 6, 0x8, 1, 0x0, [F.PRT_FREG_CTRL_DISCARD, F.PRT_FREG_CTRL_PENDING]⟩ ]

/-- The TIL rows of the register index. -/
def regRowsTil : List RegRow :=
  [ ⟨0x1000000, 256, 0x8000, 1, 0x0, [F.TIL_CTRL_WAIT_LIMIT]⟩,
    ⟨0x1000008, 256, 0x8000, 1, 0x0, [F.TIL_STATUS_LATE_WAITS, F.TIL_STATUS_STATE, F.TIL_STATUS_TASK]⟩,
    ⟨0x1000010, 256, 0x8000, 1, 0x0, [F.TIL_FAULT_VALID, F.TIL_FAULT_MORE, F.TIL_FAULT_REPEAT, F.TIL_FAULT_SLOT, F.TIL_FAULT_TASK, F.TIL_FAULT_CODE, F.TIL_FAULT_PC]⟩,
    ⟨0x1000018, 256, 0x8000, 1, 0x0, [F.TIL_FAULT_BN_BN]⟩,
    ⟨0x1000020, 256, 0x8000, 1, 0x0, [F.TIL_VC_EVENTS_INVALID, F.TIL_VC_EVENTS_DIVZERO, F.TIL_VC_EVENTS_OVERFLOW, F.TIL_VC_EVENTS_SAT]⟩ ]

/-- The Other rows of the register index. -/
def regRowsOther : List RegRow :=
  [ ⟨0x4000018, 256, 0x1000, 1, 0x0, [F.DMA_QSTATUS_OVF, F.DMA_QSTATUS_REFUSED, F.DMA_QSTATUS_LAST, F.DMA_QSTATUS_PENDING]⟩,
    ⟨0x5000000, 8, 0x8, 1, 0x0, [F.TIL_VSEL_GROUP]⟩,
    ⟨0x6000000, 8, 0x8, 1, 0x0, [F.GEN_VERR_ACCESS, F.GEN_VERR_DISCARD, F.GEN_VERR_VALID, F.GEN_VERR_FUNC, F.GEN_VERR_KIND, F.GEN_VERR_OFFSET]⟩ ]

/-- The whole register index (R458). -/
def regRows : List RegRow :=
  regRowsGen ++ regRowsPwr ++ regRowsSec ++ regRowsPln ++ regRowsDma ++ regRowsStm ++ regRowsFab ++ regRowsMem ++ regRowsUmb ++ regRowsRow ++ regRowsWch ++ regRowsTst ++ regRowsPrt ++ regRowsTil ++ regRowsOther

/-- The instance of a row that lies at an offset. -/
def RegRow.inst (r : RegRow) (off : Nat) : Option Nat :=
  if off < r.base then none
  else
    let d := off - r.base
    let i1 := if r.s1 = 0 then 0 else d / r.s1
    let rem := if r.s1 = 0 then d else d % r.s1
    let i2 := if r.s2 = 0 then 0 else rem / r.s2
    let left := if r.s2 = 0 then rem else rem % r.s2
    if left = 0 ∧ i1 < r.n1 ∧ i2 < r.n2 then some (i1 * r.n2 + i2) else none

/-- The first row of a list that has a register at an offset, with its instance. -/
def regFind (off : Nat) : List RegRow → Option (RegRow × Nat)
  | [] => none
  | r :: rs => match r.inst off with
    | some i => some (r, i)
    | none => regFind off rs

/-- The register at a PF BAR0 offset. -/
def regAt (off : Nat) : Option (RegRow × Nat) := regFind off regRows

/-- Reset values summed over a register's fields (R13). -/
def fieldsReset : List Fld → Word
  | [] => 0
  | f :: fs => BitVec.ofNat 64 (f.rst <<< f.lo) ||| fieldsReset fs

/-- Reset value of the register at an offset: partition 0 starts with every cluster and both quotas (R447, R414). -/
def regReset (off : Nat) : Word :=
  if off = F.PRT_CLUSTERS_MASK.base then 0xFFFFFFFF
  else if off = F.PRT_QUOTA_HBM_Q.base then BitVec.ofNat 64 (1536 * 2 ^ 32 + 576)
  else match regAt off with
    | some (r, _) => fieldsReset r.fields
    | none => 0

end Sys2Proof.Machine
end

