-- ==== Sys2Proof/Machine/State.lean ====
section
/-! DEFINITION. The state of one WNX-480 module: plain data, holding every register and every piece of state the
spec names, with its value at reset. A sparse map is a list of (key, value) pairs with rising keys in which an
entry equal to what an unlisted key reads as is left out; what that is stands at each field. -/

namespace Sys2Proof.Machine

/-- The model ends no run with a fault of its own: what the spec calls a fault is a next state. The one constructor
names the condition no meaning raises, so that the type is inhabited; safe. -/
inductive Fault where
  | none
deriving DecidableEq, Repr

/-- Why a command has no effect the spec gives. -/
inductive Refusal where
  /-- Raised by an arm of `exec` whose command has no meaning yet; safe (the model stops). -/
  | notModelled (mnemonic : String)
deriving DecidableEq, Repr

/-! ## Tiles (R56 to R89, R112 to R140) -/

/-- The type of an accumulator bank; a bank after `mx.zero` or the reset of R61 has none (R70). -/
inductive BankTy where
  | fp32 | int32
deriving DecidableEq, Repr

/-- An accumulator bank: element (i, j) at key 128·i + j, unlisted +0 (R61). -/
structure Bank where
  /-- Its type, none for a zero of no type. -/
  ty    : Option BankTy
  /-- Its elements. -/
  cells : List (Nat × W32)
  /-- Additions that saturated in its chain and are not yet charged to an output tensor (R94). -/
  sat   : Nat
deriving DecidableEq, Repr

/-- One row's softmax state: maximum, sum, count of +∞ and the NaN mark (R139). -/
structure Carry where
  m    : W32
  s    : W32
  k    : Nat
  mark : Bool
deriving DecidableEq, Repr

/-- Which multiply a result in flight is (R69). -/
inductive MulMode where
  | mul | multA | multB
deriving DecidableEq, Repr

/-- What becomes visible when an instruction's latency has elapsed (R62). -/
inductive Eff where
  /-- A register with its actual and its shadow result (R83). -/
  | sreg (r : Nat) (v sh : Word)
  | dreg (r : Nat) (v sh : Desc)
  | preg (r : Nat) (b : Bool)
  /-- Bytes written at a device address. -/
  | mem (addr : Nat) (bytes : List Byte)
  /-- A block stored at a device address in a format: its bytes for the digests, its saturations, and the `AMAX` of a
  block with a scale trailer (R155, R329). -/
  | block (addr f sat : Nat) (bytes : List Byte) (am : Option W32)
  | bank (b : Nat) (v : Bank)
  /-- A multiply, whose operands are read over its occupancy from its issue cycle (R484). -/
  | mult (m : MulMode) (b : Nat) (da db : Desc) (z : Bool)
  /-- A chain run, whose lines are read over its occupancy from its issue cycle (R116); the trailers of its
  destination blocks as they stand at issue (R151). -/
  | chain (entry : List Byte) (dd da db dm : Desc) (mk : Bool) (trailers : List (Nat × List Byte))
  /-- A chain table entry loaded by `vc.cfg` (R117). -/
  | cfg (c : Nat) (entry : List Byte)
  /-- A descriptor chain submitted by `xm.dma` (R73): channel, token counter, device address, PC and task. -/
  | dma (ch tk addr pc task : Nat)
deriving DecidableEq, Repr

/-- A result in flight: its visible cycle, its issue cycle, its place among the words issued, its effect, and the task
and share whose kernel issued it. -/
structure Pend where
  vis   : Nat
  issue : Nat
  seq   : Nat
  eff   : Eff
  task  : Nat
  share : Nat
deriving DecidableEq, Repr

/-- What the sequencer waits for (R77, R78, R74), with the beat in which the wait began (R81). -/
inductive Wait where
  | beat (target : Nat) (since : Nat)
  | tok (tk : Nat) (imm : Nat) (since : Nat)
  | cyc (stop : Nat)
deriving DecidableEq, Repr

/-- A loop being run: its first bundle, the word its body ends with and the passes left (R74). -/
structure Loop where
  start : Nat
  stop  : Nat
  left  : Nat
deriving DecidableEq, Repr

/-- An arrival armed by `cs.arrive` or `cs.halt` (R79, R82): the cycle from which its writes are visible and the
token address it increments. -/
structure Arrive where
  at_   : Nat
  token : Nat
deriving DecidableEq, Repr

/-- Occupancy of the units (R68): the cycle from which the multiply pipeline, accumulator port, vector chain and
copy engine accept again, and the banks in use with the cycle before which they are. -/
structure Units where
  mulFree  : Nat
  portFree : Nat
  vcFree   : Nat
  copyFree : Nat
  mulBanks  : List (Nat × Nat)
  portBanks : List (Nat × Nat)
deriving DecidableEq, Repr

def Units.reset : Units :=
  { mulFree := 0, portFree := 0, vcFree := 0, copyFree := 0, mulBanks := [], portBanks := [] }

/-- What a word of the open bundle adds to counts once the bundle is known not to fault (R85). -/
inductive Owed where
  /-- A checker hazard (R53). -/
  | hazard
  /-- A conversion into a block with a scale trailer: its device address, format, the cost of an extra conversion and the
  trailer as it stood at issue (R156 to R158). -/
  | conv (addr f cost : Nat) (trailer : List Byte)
  /-- A block of a format stored by `mx.st` or `mx.stq`, or written by a chain run, which may be a fallback image (R157). -/
  | image (addr f cost : Nat)
  /-- The saturations of a bank are charged to the tensor of the block it is stored to (R94). -/
  | bankSat (b addr : Nat)
deriving DecidableEq, Repr

/-- A block of the running layer and micro-batch that a tile has converted: its address, how often, and its fallback
image's device address (R157). -/
structure Conv where
  addr  : Nat
  times : Nat
  image : Nat
deriving DecidableEq, Repr

/-- One tile (R57 to R86). Its run state and task are in `TIL_STATUS`. -/
structure Tile where
  /-- s0 to s31, unlisted 0. -/
  sregs : List (Nat × Word)
  /-- d0 to d15, unlisted 0. -/
  dregs : List (Nat × Desc)
  /-- p1 to p7, unlisted false. -/
  preds : List (Nat × Bool)
  /-- tk0 to tk31, unlisted 0. -/
  toks  : List (Nat × BitVec 16)
  /-- acc0 to acc3, unlisted +0 of no type. -/
  banks : List (Nat × Bank)
  /-- Word index of the next word. -/
  pc    : Nat
  /-- Slot of the last word of the open bundle; none at a bundle's start. -/
  lastSlot : Option Nat
  /-- Word index of the open bundle's first word. -/
  bundlePc : Nat
  /-- Its issue cycle. -/
  bundleAt : Nat
  /-- Number of the open bundle's first word (R63). -/
  bundleSeq : Nat
  /-- The units as they stood before it. -/
  units0 : Units
  /-- Its lowest fault so far: code, slot and PC of the word (R84, R85). -/
  fault : Option (Nat × Nat × Nat)
  /-- What its words add to counts at its close. -/
  owed : List Owed
  /-- From this cycle on the next bundle faults with `PARTITION`, for a chain of this channel (R85). -/
  partAt : Option (Nat × Nat)
  /-- Earliest issue cycle of the next bundle. -/
  nextIssue : Nat
  /-- Where the flow goes after the open bundle, if not on (R74). -/
  jump  : Option Nat
  /-- Loops being run, innermost first (R74). -/
  loops : List Loop
  /-- What the sequencer waits for (R77, R78). -/
  wait  : Option Wait
  /-- Words issued so far: the order of R63. -/
  seq   : Nat
  /-- Results in flight (R62). -/
  pend  : List Pend
  /-- Armed arrivals (R79, R82). -/
  arrives : List Arrive
  /-- Occupancy of the units (R68). -/
  units : Units
  /-- Chain table: loaded entries (R117). -/
  chains  : List (Nat × List Byte)
  /-- Its contents at the step's first beat (R117). -/
  chains0 : List (Nat × List Byte)
  /-- Row carry, unlisted its starting value (R139). -/
  carry : List (Nat × Carry)
  /-- Shadow copies are kept: balancing is on (R83). -/
  shadowOn : Bool
  /-- Shadow s registers (R83). -/
  shadowS : List (Nat × Word)
  /-- Shadow d registers (R83). -/
  shadowD : List (Nat × Desc)
  /-- The running share (R60). -/
  share : Nat
  /-- The cluster the plan gave the share (R83). -/
  staticCluster : Nat
  /-- The partition whose kernel runs or ran last. -/
  part  : Nat
  /-- Beat in which the tile was last not idle (R428). -/
  lastBusy : Option Nat
  /-- PC and task of the last `xm.dma` per channel (R485). -/
  dmaPc : List (Nat × (Nat × Nat))
  /-- Cost C of the extra conversions beyond the reserve (R158). -/
  retryCost : Nat
  /-- Extra conversions of the layer and micro-batch so far (R158). -/
  extra : Nat
  /-- The layer and micro-batch they are counted for (R158). -/
  retryFor : Nat × Nat
  /-- The blocks converted in it (R157). -/
  convs : List Conv
  /-- Ranges written by variable-latency work whose token the tile has not waited for: address, length, counter (R53). -/
  unwaited : List (Nat × Nat × Nat)
  /-- Frozen as an offending master (R408). -/
  frozen : Bool
  /-- Token increments held during an Ash segment (R440). -/
  heldToks : List Nat
  /-- The cycle after the last restore by a rollback (R319). -/
  restored : Nat
deriving DecidableEq, Repr

def Tile.reset : Tile :=
  { sregs := [], dregs := [], preds := [], toks := [], banks := [], pc := 0, lastSlot := none, bundlePc := 0,
    bundleAt := 0, bundleSeq := 0, units0 := Units.reset, fault := none, owed := [], partAt := none, nextIssue := 0, jump := none, loops := [], wait := none, seq := 0, pend := [], arrives := [],
    units := Units.reset, chains := [], chains0 := [], carry := [], shadowOn := false, shadowS := [], shadowD := [], share := 0, staticCluster := 0, part := 0,
    lastBusy := none, dmaPc := [], retryCost := 0, extra := 0, retryFor := (0, 0), convs := [], unwaited := [], frozen := false,
    heldToks := [], restored := 0 }

/-! ## Plans (R29 to R55) -/

/-- A task entry of the GRAPH section (R32). -/
structure Task where
  id    : Nat
  kind  : Nat
  flags : Nat
  mb    : Nat
  resources : Nat
  cycles : Nat
  table : Nat
  kernel : Nat
  bytes : Nat
  depFirst : Nat
  depCount : Nat
deriving DecidableEq, Repr

/-- A dependence entry (R32). -/
structure Dep where
  pred : Nat
  succ : Nat
  lag  : Nat
deriving DecidableEq, Repr

/-- A kernel of the KERNELS section (R33). -/
structure Kernel where
  offset : Nat
  words  : Nat
  pc     : Nat
  cycles : Nat
  image  : List Word
deriving DecidableEq, Repr

/-- A table descriptor (R171). -/
structure TableDesc where
  rows  : Nat
  elems : Nat
  fmt   : Nat
  pool  : Nat
  rule  : Nat
  shb   : Nat
  flags : Nat
  budget : Nat
  epoch : Nat
  hyp   : Nat
  hbmPages : Nat
deriving DecidableEq, Repr

/-- A BUDGETS entry (R34). -/
structure Budget where
  table  : Nat
  unique : Nat
  slow   : Nat
deriving DecidableEq, Repr

/-- The CLASSES section (R35). -/
structure Classes where
  mbSize  : Nat
  mbCount : Nat
  nclass  : Nat
  maxlen  : List Nat
deriving DecidableEq, Repr

/-- A layer entry of PARAMS (R291). -/
structure LayerEnt where
  flags : Nat
  uint  : Nat
deriving DecidableEq, Repr

/-- A tensor entry of PARAMS (R292). -/
structure TensorEnt where
  kind  : Nat
  smode : Nat
  hlen  : Nat
  head  : Nat
  layer : Nat
  elems : Nat
  hyp   : Nat
  clip  : Nat
  rule  : Nat
  sfmt  : Nat
  srbase : Nat
deriving DecidableEq, Repr

/-- A clip entry of PARAMS (R293). -/
structure ClipEnt where
  maxnorm : W32
  flags   : Nat
deriving DecidableEq, Repr

/-- A hyperparameter entry of PARAMS (R293). -/
structure HypEnt where
  lr : W32
  gscale : W32
  decay : W32
  b1 : W32
  b2 : W32
  eps : W32
  l1 : W32
  beta : W32
  init : W32
  warm : Nat
deriving DecidableEq, Repr

/-- The PARAMS section (R290). -/
structure Params where
  cmpPeriod : Nat
  jnlSectors : Nat
  layers : List LayerEnt
  tensors : List TensorEnt
  clips : List ClipEnt
  hyps : List HypEnt
deriving DecidableEq, Repr

/-- A collective descriptor (R266). -/
structure CollDesc where
  op   : Nat
  fmt  : Nat
  dims : Nat
  root : Nat
  src  : Nat
  dst  : Nat
  len  : Nat
deriving DecidableEq, Repr

/-- The RANKS section (R262). -/
structure Ranks where
  ofsX : Nat
  ofsY : Nat
  ofsZ : Nat
  pdim : Nat
  pdir : Nat
  hostBytes : Nat
  deltaBytes : Nat
  colls : List CollDesc
deriving DecidableEq, Repr

/-- A plan image as read (R29 to R35). -/
structure Plan where
  rankCount : Nat
  clusters : Nat
  options : Nat
  seed : Word
  meas : BitVec 512
  tasks : List Task
  deps : List Dep
  kernels : List Kernel
  tables : List TableDesc
  budgets : List Budget
  classes : Option Classes
  params : Params
  ranks : Ranks
deriving DecidableEq, Repr

/-- A placed task: its first beat, its duration and the units R482 gave it. -/
structure Placed where
  task : Nat
  start : Nat
  dur : Nat
  units : List Nat
deriving DecidableEq, Repr

/-! ## Rows (R170 to R201) -/

/-- One entry of a table's list for a micro-batch (R180): bag, index and weight. In this and the records below `mb` is
the tag 65536·step + micro-batch, since lists of two steps are kept at a time. -/
structure ListEntry where
  bag    : Nat
  index  : Nat
  weight : W32
deriving DecidableEq, Repr

/-- An Index Unit's outputs for one (table, micro-batch) (R180). -/
structure SortOut where
  mb     : Nat
  uniq   : List Nat
  segmap : List Nat
  defs   : Nat
deriving DecidableEq, Repr

/-- What one requester sent an owner for one micro-batch (R181, R247). -/
structure FromRank where
  rank : Nat
  mb   : Nat
  keys : List Nat
  entries : List BagEntry
  grads : List GradRec
  winners : List WinRec
  /-- The owner has formed what it returns (R183). -/
  gathered : Bool
deriving DecidableEq, Repr

/-- An entry gradient under its key of R188. -/
structure EntryGrad where
  key  : Nat
  rank : Nat
  mb   : Nat
  pos  : Nat
  vals : List W32
deriving DecidableEq, Repr

/-- A node of a bag's combination tree held by the requester (R184). -/
structure TreeNode where
  mb    : Nat
  bag   : Nat
  first : Nat
  j     : Nat
  vals  : List W32
  tags  : List Nat
deriving DecidableEq, Repr

/-- A pooled vector with its flag byte and winner vector (R185, R186). -/
structure Pooled where
  mb   : Nat
  bag  : Nat
  vals : List W32
  flag : Nat
  winner : List Nat
  /-- Step in which it was received. -/
  got  : Nat
deriving DecidableEq, Repr

/-- A page-map record (R191) under its shard and page. -/
structure PageRec where
  shard : Nat
  page  : Nat
  home  : Nat
  count : Nat
  base  : Nat
deriving DecidableEq, Repr

/-- A queued page swap of a rank's table (R192), the step it was queued after, how many of its two copies are complete
and how many of them were made in the step in flight (R193). -/
structure Swap where
  rank : Nat
  table : Nat
  a : Nat × Nat
  b : Nat × Nat
  since : Nat
  done : Nat
  now : Nat
deriving DecidableEq, Repr

/-- A replacement of a table (R198, R199). -/
structure Repl where
  table : Nat
  epoch : Nat
  step  : Nat
  addr  : Nat
  /-- Its copy is complete. -/
  loaded : Bool
  /-- Scheduled by the state exchange: the epoch changes at the commit of `step` − 1. -/
  due   : Bool
deriving DecidableEq, Repr

/-- A shard move in progress (R194). -/
structure ShardMove where
  shard : Nat
  src_  : Nat
  dst_  : Nat
  /-- Every re-send of the step is complete before its commit-exchange window. -/
  ready : Bool
deriving DecidableEq, Repr

/-- The state kept for one table of a partition. -/
structure TableSt where
  epoch : Nat
  /-- Owners that differ from the initial ownership of R178: shard, rank. -/
  owners : List (Nat × Nat)
  /-- Page records that differ from the initial placement of R191. -/
  pages : List PageRec
  /-- Update count and bias powers (R295). -/
  count : Nat
  p1 : W32
  p2 : W32
  lists : List (Nat × List ListEntry)
  sorted : List SortOut
  recv : List FromRank
  entries : List EntryGrad
  rowGrads : List (Nat × List W32)
  /-- Every entry gradient formed so far is in them (R18, R188). -/
  reduced : Bool
  nodes : List TreeNode
  /-- Nodes made as owner for a requester and not yet sent (R183). -/
  made : List (Nat × TreeNode)
  pooled : List Pooled
  /-- Staged Umber rows: row key and staging address (R195). -/
  staged : List (Nat × Nat)
  /-- Row keys whose re-stage has not come (R16). -/
  restaging : List Nat
  move : Option ShardMove
  /-- Page records the moving shard takes on its new owner (R194). -/
  moving : List PageRec
deriving DecidableEq, Repr

/-- A table nothing has been kept for: bias powers 1.0 (R293). -/
def TableSt.reset : TableSt :=
  { epoch := 0, owners := [], pages := [], count := 0, p1 := 0x3F800000, p2 := 0x3F800000, lists := [], sorted := [],
    recv := [], entries := [], rowGrads := [], reduced := false, nodes := [], made := [], pooled := [], staged := [], restaging := [], move := none, moving := [] }

/-- A scale state (R153). -/
structure ScaleSt where
  hist : List W32
  len  : Nat
  fill : Nat
  head : Nat
  exp  : Int
  fmt  : Nat
  cold : Bool
  /-- Largest `AMAX` of the step attempt (R155). -/
  amax : W32
  coldStep : Bool
deriving DecidableEq, Repr

/-- A watch state record (R331). -/
structure WatchRec where
  entry : Word
  elems : Nat
  zero : Nat
  quiet : Nat
  nonfin : Nat
  sat : Nat
  run : Nat
  alarm : Bool
  noneCounted : Bool
  alarmStep : Nat
deriving DecidableEq, Repr

/-- The last write of a tensor's block in the step attempt (R329, R337): its digest bytes and counts. -/
structure BlockRec where
  tensor : Nat
  rank   : Nat
  mb     : Nat
  share  : Nat
  addr   : Nat
  bytes  : List Byte
  elems  : Nat
  zero   : Nat
  quiet  : Nat
  nonfin : Nat
deriving DecidableEq, Repr

/-! ## Partitions -/

/-- Beats of a landing still to be held, and what they are charged to (R483). -/
structure Charge where
  beats : Nat
  cause : Nat
  task : Nat
  origin : Nat
deriving DecidableEq, Repr

/-- A hold-log entry (R483, R55). -/
structure HoldRec where
  bn : Nat
  len : Nat
  cause : Nat
  task : Nat
  origin : Nat
deriving DecidableEq, Repr

/-- A freeze-log entry (R409). -/
structure FrzRec where
  type : Nat
  index : Nat
  write : Bool
  addr : Nat
  bn : Nat
deriving DecidableEq, Repr

/-- An activation the ramp limiter has not granted (R428): the beat of its dispatch, task, tile, share and base. -/
structure Act where
  beat : Nat
  task : Nat
  tile : Nat
  share : Nat
  base : Nat
deriving DecidableEq, Repr

/-- A window that is open in the schedule (R43, R46). -/
structure Window where
  task : Nat
  last : Nat
deriving DecidableEq, Repr

/-- A registered feeder of a rank, oldest first (R380). -/
structure Feeder where
  rank : Nat
  mac : Nat
deriving DecidableEq, Repr

/-- One (feeder, rank, step) sample stream (R377): the frames received, by `SEQ`. -/
structure Stream where
  mac : Nat
  rank : Nat
  step : Nat
  frames : List (Nat × List Byte)
  /-- Records taken from its in-order bytes so far, in bytes. -/
  taken : Nat
deriving DecidableEq, Repr

/-- A sample record taken from a stream (R377). -/
structure Sample where
  rank : Nat
  step : Nat
  mb : Nat
  sample : Nat
  length : Nat
  dense : List Byte
  bags : List (Nat × List ListEntry)
  bad : Bool
deriving DecidableEq, Repr

/-- A micro-batch's END and admission (R378, R486). `status` 0x00 admitted, 0x01 OVERLENGTH, 0x02 MALFORMED. -/
structure MbEnd where
  rank : Nat
  step : Nat
  mb : Nat
  nsample : Nat
  mac : Nat
  bad : Bool
  status : Option Nat
  cls : Nat
deriving DecidableEq, Repr

/-- A checkpoint stream in progress (R381). -/
structure Ckpt where
  rank : Nat
  entry : Nat
  offset : Nat
  grant : Nat
  sent : Nat
deriving DecidableEq, Repr

/-- A delta log of a mirrored rank on this host (R275, R277). -/
structure DeltaLog where
  rank : Nat
  step : Nat
  bytes : Nat
  written : List (Nat × List Byte)
  ended : Option Nat
  committed : Bool
  applied : Bool
deriving DecidableEq, Repr

/-- What a coordinator holds of one partition (R279 to R281, R318, R322). -/
structure Coord where
  failed : List Nat
  firstAt : Option Nat
  hepoch : Nat
  resumeBn : Option Nat
  downPorts : List (Nat × Nat)
  doubts : List (Nat × DoubtReport)
deriving DecidableEq, Repr

/-- A piece of a collective that a participant holds: stage, shard or contributor, half, element offset, bytes (R271). -/
structure Chunk where
  dim : Nat
  shard : Nat
  dirn : Nat
  offset : Nat
  len : Nat
deriving DecidableEq, Repr

/-- A collective in progress for one rank hosted here: GRAPH task, whether its task has started, the messages that wait
for a value of this rank's own, and what it holds (R266 to R271). -/
structure CollRun where
  task : Nat
  rank : Nat
  started : Bool
  inbox : List (CollHdr × List Byte)
  held : List Chunk
  fin : Bool
deriving DecidableEq, Repr

/-- The weight stash of a layer on a rank (R102 to R104, R303). -/
structure Stash where
  /-- Version of each micro-batch that has begun and has not released it. -/
  binds : List (Nat × Nat)
  /-- Physical region and the version in being there. -/
  held  : List (Nat × Nat)
deriving DecidableEq, Repr

def Stash.reset : Stash := { binds := [], held := [] }

/-- Everything a partition keeps that is no register (R29 to R55, R291 to R349). -/
structure Part where
  /-- The plan loaded (R36). -/
  plan : Option Plan
  /-- The plan a load in progress will install, with its schedule. -/
  loading : Option (Plan × List Placed)
  /-- Its schedule (R40). -/
  sched : List Placed
  /-- Tasks of the GRAPH section: a hosted rank's copy of task t is t plus this (R283). -/
  graph : Nat
  /-- Step length of the schedule in beats (R40). -/
  stepLen : Nat
  /-- Logical movers when the plan was loaded (R482). -/
  movers : Nat
  /-- A step of the plan is in progress. -/
  active : Bool
  /-- The step whose last position still stands has committed. -/
  committed : Bool
  /-- Position 0 stands, and the step's first beat has not been dealt with. -/
  fresh : Bool
  /-- Started at `PLN_START_BN` yet. -/
  armed : Bool
  /-- `RUN` was cleared: the plan stops when the step in flight has committed (R54). -/
  stopAfter : Bool
  /-- A fault that stops the plan was raised: it stops at the rollback. -/
  stopAtRollback : Bool
  /-- Pending hold beats, earliest landing first (R44, R483). -/
  charges : List Charge
  /-- Merged hold requests by landing BN (R256). -/
  merged : List HoldEntry
  /-- The hold log, oldest first, 256 at most (R483). -/
  holdLog : List HoldRec
  /-- The last beat was held (R44). -/
  heldNow : Bool
  /-- Tasks of the attempt that have delivered their token (R312). -/
  done : List Nat
  /-- Tasks of the attempt that have started (R41). -/
  started : List Nat
  /-- Transfer tasks whose messages have not all gone out (R248, assumption 99). -/
  sent : List Nat
  /-- Open windows (R43, R46). -/
  windows : List Window
  /-- Activations the ramp limiter has not granted (R428). -/
  acts : List Act
  /-- Activations granted in a beat: the beat and how many (R428). -/
  grants : Nat × Nat
  /-- Every landing up to this BN has been added to the pending hold beats (R256). -/
  landedBn : Nat
  /-- `BAL_EN` in force for the step (R446). -/
  balEn : Bool
  /-- `BAL_THRESH` in force (R446). -/
  balThresh : Nat
  /-- `CHK_EN` in force (R446). -/
  chkEn : Bool
  /-- `CHK_FAULT` in force (R446). -/
  chkFault : Bool
  /-- Cluster Store lines written in the beat with the master that wrote them last (R53). -/
  lineWrites : List (Nat × Nat)
  /-- Balancing is off for this attempt after a repeated fault. -/
  forceBalOff : Bool
  /-- The share moved for the next slot and its cluster (R51). -/
  moves : List (Nat × Nat)
  /-- Finishing positions of the clusters in the last 8 slots (R51). -/
  slotFinish : List (List Nat)
  /-- The rollback count (R320). -/
  rollbacks : Nat
  /-- The OK report of the step is sent (R312). -/
  okSent : Bool
  /-- Reports held of the step and attempt (R312). -/
  reports : List CommitReport
  /-- Stage of the last report sent (R312). -/
  sentStage : Nat
  /-- The lowest `FAULT_BN` known of the rollback (R317). -/
  k0 : Option Nat
  /-- BN of the re-run's origin (R317). -/
  rerunBn : Option Nat
  /-- No re-run origin until a RESUME or RESTART (R318). -/
  waiting : Bool
  /-- The Ochre queues have not finished restoring (R317). -/
  restoring : Bool
  /-- A fault of the next step met after the OK report (R316). -/
  nextFault : Option CommitReport
  /-- Instruction faults of the attempt: code, task, PC. -/
  tileFaults : List (Nat × Nat × Nat)
  /-- Those of the attempt before. -/
  prevFaults : List (Nat × Nat × Nat)
  /-- The step in flight is the one a resume began (R344). -/
  resumeStep : Bool
  /-- Tables of each hosted rank (R171). -/
  tables : List (Nat × TableSt)
  /-- Queued page swaps, oldest first (R192). -/
  swaps : List Swap
  /-- Page copies made in the step (R193). -/
  copies : Nat
  /-- Table replacements (R198, R199). -/
  repls : List Repl
  /-- The longest gradient list of the step: length, table, row key (R201). -/
  hotBest : Option (Nat × Nat × Nat)
  /-- Rows of the step above the threshold (R201). -/
  hotAbove : Nat
  /-- Scale states by tensor and rank (R153). -/
  scales : List (Nat × ScaleSt)
  /-- Update count and bias powers by tensor and rank (R295). -/
  tensorCount : List (Nat × (Nat × W32 × W32))
  /-- Watch records of the list (R331). -/
  watches : List WatchRec
  /-- Those of a second rank hosted here. -/
  hwatches : List WatchRec
  /-- Blocks written in the attempt (R329, R337). -/
  blocks : List BlockRec
  /-- Saturations charged to PARAMS tensors in the attempt (R330). -/
  sats : List (Nat × Nat)
  /-- Saturations of tables' row stores (R330). -/
  rowSats : List (Nat × Nat)
  /-- Saturations of tables' pooled outputs (R330). -/
  poolSats : List (Nat × Nat)
  /-- Calibration of each layer in the attempt. -/
  calAttempt : List (Nat × (W32 × W32 × W32))
  /-- Tiles of a running tile task that have not halted (R82). -/
  tileLeft : List (Nat × Nat)
  /-- Weight stash by layer and rank (R102 to R104). -/
  stash : List (Nat × Stash)
  /-- Working copies still to be re-derived and all-gathered: tensor and rank (R319, R344). -/
  rederive : List (Nat × Nat)
  /-- Reduce-scatters of an update interval whose buffer has been set to +0 for the next (R305). -/
  cleared : List Nat
  /-- Ranks hosted away from their homes and their hosts (R264). -/
  hosts : List (Nat × Nat)
  /-- The partner's host has acknowledged the step (R276). -/
  mirrorAcked : Bool
  /-- Bytes of the step's delta sent so far (R275). -/
  deltaSent : Nat
  /-- Micro-batches whose carried lookups went into it: table and micro-batch of the next step (R453). -/
  carried : List (Nat × Nat)
  /-- Delta logs of the ranks mirrored here (R277). -/
  logs : List DeltaLog
  /-- What this module holds as coordinator (R279). -/
  coord : Coord
  /-- `CLAIM` was written and no decision has come (R287). -/
  claim : Bool
  /-- A RESUME that returns a rank to its home, due at a commit beat (R287). -/
  pendResume : Option ResumeMsg
  /-- Collectives in progress (R268, R269). -/
  colls : List CollRun
  /-- The freeze log, oldest first, 64 at most (R409). -/
  frzLog : List FrzRec
  /-- Granules whose wipe is not complete (R410). -/
  wipeGrans : List Nat
  /-- A wipe of the partition is in progress (R410). -/
  wipeAll : Bool
  /-- Registered feeders, oldest first (R380). -/
  feeders : List Feeder
  /-- Sample streams (R377). -/
  streams : List Stream
  /-- Sample records held (R377). -/
  samples : List Sample
  /-- Micro-batches with an END (R378). -/
  ends : List MbEnd
  /-- The slot templates the Planner built: the ordered pairs of classes, forward then backward (R50). -/
  templates : List (Nat × Nat)
  /-- The template selected for each slot of a rank's step: rank, step, slot, and the classes of the two micro-batches it
  runs, none where it runs none (R50). -/
  slots : List (Nat × Nat × Nat × Option Nat × Option Nat)
  /-- Stream bytes freed for each rank (R379). -/
  freed : List (Nat × Nat)
  /-- The checkpoint stream in progress (R381). -/
  ckpt : Option Ckpt
  /-- The cluster Ash is at (R439). -/
  ashCluster : Option Nat
  /-- Ash windows of the step: the schedule position a segment starts at, and the segment (R439). -/
  ashWins : List (Nat × Nat)
deriving DecidableEq, Repr

def Part.reset : Part :=
  { plan := none, loading := none, sched := [], graph := 0, stepLen := 0, movers := 0, active := false, committed := false, fresh := false, armed := false,
    stopAfter := false, stopAtRollback := false, charges := [], merged := [], holdLog := [],
    heldNow := false, done := [], started := [], sent := [], windows := [], acts := [], grants := (0, 0), landedBn := 0, balEn := false,
    balThresh := 8, chkEn := false, chkFault := false, lineWrites := [], forceBalOff := false, moves := [], slotFinish := [],
    rollbacks := 0, okSent := false, reports := [], sentStage := 0, k0 := none, rerunBn := none, waiting := false,
    restoring := false, nextFault := none, tileFaults := [], prevFaults := [], resumeStep := false, tables := [],
    swaps := [], copies := 0, repls := [], hotBest := none, hotAbove := 0, scales := [],
    tensorCount := [], watches := [], hwatches := [], blocks := [], sats := [], rowSats := [], poolSats := [], calAttempt := [],
    tileLeft := [], stash := [], rederive := [], cleared := [], hosts := [], mirrorAcked := false, deltaSent := 0, carried := [], logs := [],
    coord := { failed := [], firstAt := none, hepoch := 0, resumeBn := none, downPorts := [], doubts := [] },
    claim := false, pendResume := none, colls := [], frzLog := [], wipeGrans := [], wipeAll := false, feeders := [], streams := [], samples := [],
    ends := [], templates := [], slots := [], freed := [], ckpt := none, ashCluster := none, ashWins := [] }

/-! ## Ochre queues (R213 to R217, R307 to R310) -/

/-- An undo record of a journal (R307): row slot, its sectors, the state sectors, table and default-row flag. -/
structure JnlRec where
  slot : Nat
  slotBytes : List Byte
  state : Nat
  stateBytes : List Byte
  table : Nat
  dflt : Bool
  step : Nat
  seq : Nat
  spilled : Bool
deriving DecidableEq, Repr

/-- A started command on its way to completion: tag, token, status, done; a `FENCE` completes after those before it. -/
structure Run where
  tag : Nat
  token : Nat
  status : Nat
  done : Nat
  fence : Bool
deriving DecidableEq, Repr

/-- One queue of an engine. -/
structure OchreQ where
  /-- Waiting frames, oldest first (R213). -/
  frames : List Frame
  /-- Started commands (R216). -/
  started : List Run
  /-- Completion records not read yet: tag, status, done (R216). -/
  records : List (Nat × Nat × Nat)
  /-- Table contexts loaded by `CFG` (R215). -/
  ctx : List (Nat × (TableDesc × HypEnt))
  /-- The undo journal, oldest record first (R307). -/
  journal : List JnlRec
  /-- Frozen as an offending master (R408). -/
  frozen : Bool
deriving DecidableEq, Repr

def OchreQ.reset : OchreQ :=
  { frames := [], started := [], records := [], ctx := [], journal := [], frozen := false }

/-! ## Memory units, ports, movers, queues -/

/-- An uncorrectable sector a read of partition `part` met (R207): the step it was met in, what the sector holds without
the error, what it reads as with it, and whether it has been written back. -/
structure Poison where
  addr : Nat
  part : Nat
  step : Nat
  held : List Byte
  bad  : List Byte
  mended : Bool
deriving DecidableEq, Repr

/-- A stack or Umber controller beside its registers (R207, R208, R213, R218, R225, R228). `active` is the active wheel: word
`i`, unlisted 0. -/
structure Unit_ where
  /-- The active wheel (R218, R220). -/
  active : List (Nat × Word)
  /-- Margins in force: VREF, PHASE (R225). -/
  margin : Nat × Nat
  /-- Traffic generators in a run (R225). -/
  runs : List Nat
  /-- Uncorrectable sectors met (R207). -/
  poisoned : List Poison
  /-- Refresh commands given. -/
  refreshes : Nat
  /-- The bank the next one is for (R208). -/
  bank : Nat
  /-- The cycle from which it is due (R208). -/
  refreshAt : Nat
  /-- The vendor identity read from a stack's base die at training (R213). -/
  vendor : Option Nat
  /-- The extension enable (R202, R213). -/
  ext : Bool
deriving DecidableEq, Repr

def Unit_.reset : Unit_ := 
  { active := [], margin := (0, 0), runs := [], poisoned := [], refreshes := 0, bank := 0, refreshAt := 0, vendor := none, ext := false }

/-- A flit of 256 bytes as its fields (R232): the header, and the body as it travels. -/
structure Flit where
  type : Nat
  vc   : Nat
  seq  : Nat
  ack  : Nat
  ak   : Nat
  body : List Byte
deriving DecidableEq, Repr

/-- A flit in a retry buffer (R235) and how often it has been resent. -/
structure TxFlit where
  flit : Flit
  resent : Nat
deriving DecidableEq, Repr

/-- A message that waits to go out by a port (R239, R245): its channel, its sender, the flits left, whether one has gone,
and the bytes left of its header and payload. -/
structure TxMsg where
  vc : Nat
  part : Nat
  task : Nat
  next : Bool
  started : Bool
  left : Nat
  data : List Byte
deriving DecidableEq, Repr

/-- A fabric port beside its registers (R231 to R257). Keys are those of R241. -/
structure Port where
  /-- Training attempts since the port was enabled. -/
  attempts : Nat
  /-- Next sequence number to send (R233). -/
  txNext : Nat
  /-- The retry buffer, oldest first (R235). -/
  retry : List TxFlit
  /-- Sequence number expected next (R234). -/
  rxNext : Nat
  /-- A NAK is sent and its flit has not arrived (R234). -/
  nakSent : Bool
  /-- Credits held per VC code 0 to 5 (R239). -/
  credits : List Nat
  /-- Freed counts last received (R239). -/
  freedSeen : List Nat
  /-- Flits of each VC freed by this receiver since keying (R237). -/
  freed : List Nat
  /-- Number of the open group sent (R237). -/
  groupTx : Nat
  /-- Number of the group being received (R237). -/
  groupRx : Nat
  /-- A sequenced flit has come since keying (R234). -/
  heard : Bool
  /-- The 64 bytes of the last key agreement (R241). -/
  keys : Option (List Byte)
  /-- Number of the random draw behind this module's key pair in Keying (R241). -/
  kexDraw : Option Nat
  /-- Positions marked absent (R242). -/
  absent : List Nat
  /-- One-way delay in hub cycles (R25). -/
  delay : Nat
  /-- A BEAT marker of the current master with the holdover flag clear came in this beat. -/
  goodMarker : Bool
  /-- Beats in a row without such a marker (R26). -/
  missed : Nat
  /-- Beats in a row with such a marker (R24). -/
  good : Nat
  /-- Of the last such marker, how far its BN and its edge were from the module's own (R21). -/
  mark : Option (Int × Int)
  /-- Flits were freed since the last SEAL sent (R239). -/
  owedSeal : Bool
  /-- A SEAL went out in this beat (R239). -/
  sealed : Bool
  /-- The open group is to be closed before any other flit (R237). -/
  sealDue : Bool
  /-- The open group, oldest flit first: headers without `ACK` and `AK`, and bodies as sent (R237). -/
  group : List (Nat × List Byte)
  /-- Messages that wait for credit or room, in the order they came (R239). -/
  txq : List TxMsg
  /-- Bodies of HOLD flits that wait (R252). -/
  holdq : List (List Byte)
  /-- The dateline bit each class sent last (R252). -/
  lastSet : List Nat
  /-- Flits sent since the last one of Pewter, 256 at most (R252). -/
  pewIdle : Nat
  /-- The port went down, was reported so and is not yet reported Up again (R318). -/
  reported : Bool
  /-- Active flit wheel (R407), unlisted 0. -/
  active : List (Nat × Word)
deriving DecidableEq, Repr

def Port.reset : Port :=
  { attempts := 0, txNext := 0, retry := [], rxNext := 0, nakSent := false, credits := [0, 0, 0, 0, 0, 0],
    freedSeen := [0, 0, 0, 0, 0, 0], freed := [0, 0, 0, 0, 0, 0], groupTx := 0, groupRx := 0, heard := false, keys := none,
    kexDraw := none, absent := [], delay := 0, goodMarker := false, missed := 0, good := 0, mark := none, owedSeal := false,
    sealed := false, sealDue := false, group := [], txq := [], holdq := [], lastSet := [1, 1, 1], pewIdle := 0,
    reported := false, active := [] }

/-- A mover descriptor (R364). -/
structure MDesc where
  src : Word
  dst : Word
  sstride : Word
  dstride : Word
  slen : Nat
  scount : Nat
  dlen : Nat
  dcount : Nat
  next : Word
  ctrl : Nat
  /-- Every reserved bit is 0. -/
  rsvd : Bool
deriving DecidableEq, Repr

/-- A chain a host mover runs: its queue or its plan task, the descriptor's mover address, the descriptor once
read, and whether it is being aborted (R358 to R371). -/
structure Chain where
  queue : Option Nat
  part : Nat
  task : Nat
  addr : Word
  desc : Option MDesc
  written : Nat
  abort : Bool
deriving DecidableEq, Repr

/-- A host mover (R358). -/
structure Mover where
  /-- Queue served last (R358). -/
  lastQ : Option Nat
  /-- The running chain. -/
  chain : Option Chain
  /-- Frozen as an offending master (R408). -/
  frozen : Bool
deriving DecidableEq, Repr

def Mover.reset : Mover := { lastQ := none, chain := none, frozen := false }

/-- A chain on a cluster-mover channel (R73, R485): submitting tile, token counter, address of the descriptor to be read
or executed, 0 once the whole chain is, and that descriptor once read. -/
structure CChain where
  tile : Option Nat
  token : Nat
  part : Nat
  task : Nat
  addr : Nat
  desc : Option MDesc
  /-- Cycle of its `xm.dma` while no descriptor has been read (R85). -/
  since : Option Nat
deriving DecidableEq, Repr

/-- A cluster-mover channel. -/
structure CMover where
  /-- Submitted chains, oldest first (R485). -/
  chains : List CChain
  /-- Frozen as an offending master (R408). -/
  frozen : Bool
deriving DecidableEq, Repr

def CMover.reset : CMover := { chains := [], frozen := false }

/-- A queue with its result window (R357 to R361). `state` 0 IDLE, 1 PENDING, 2 READY, 3 FAILED. -/
structure Queue where
  /-- Pending chains: mover addresses, oldest first, 64 at most (R358). -/
  chains : List Word
  /-- `STEP` of the header (R359). -/
  wStep : Nat
  /-- Window state (R360). -/
  wState : Nat
  /-- Cause of a FAILED window (R361). -/
  wCause : Nat
  /-- Results missed (R361). -/
  missed : Nat
  /-- Result length (R359). -/
  wLen : Nat
  /-- Result digest (R359). -/
  wDigest : Word
  /-- Task that wrote the result (R359). -/
  wTask : Nat
  /-- Result bytes by offset (R357). -/
  payload : List (Nat × Byte)
  /-- Bytes written in the step in flight (R361). -/
  shadow : List (Nat × Byte)
  /-- The task that wrote them (R361). -/
  shadowTask : Nat
deriving DecidableEq, Repr

def Queue.reset : Queue :=
  { chains := [], wStep := 0, wState := 0, wCause := 0, missed := 0, wLen := 0, wDigest := 0, wTask := 0,
    payload := [], shadow := [], shadowTask := 0 }

/-- A stream-port peer (R373, R374): its secure associations, and how far a key exchange is. -/
structure Peer where
  /-- Its MAC. -/
  mac : Nat
  /-- An association is installed (R374). -/
  live : Bool
  /-- Its association number. -/
  an : Nat
  /-- The one before, while accepted. -/
  old : Option Nat
  /-- How far a key exchange is (R374). -/
  stage : Nat
  /-- The stream number its first object named (R352). -/
  stream : Nat
  /-- `SEQ` of the frame that continues the object that is arriving. -/
  next : Nat
  /-- Bytes of the object that is arriving (R374). -/
  buf : List Byte
  /-- The 88 bytes of the association's keys, and of the one before. -/
  keys : List Byte
  oldKeys : List Byte
  /-- Packet numbers accepted last under the association and under the one before, and the one sent last (R373). -/
  rxPn : Nat
  oldPn : Nat
  txPn : Nat
deriving DecidableEq, Repr

/-- An IDE stream (R353): installed key sets and the one transmitted with. -/
structure IdeStream where
  /-- Stream number. -/
  id : Nat
  /-- Installed key sets by number. -/
  sets : List (Nat × BitVec 1536)
  /-- The set transmitted with. -/
  tx : Option Nat
  /-- How far the exchange of R352 is. -/
  stage : Nat
  /-- Keys agreed and not yet installed. -/
  pendingKeys : BitVec 1536
deriving DecidableEq, Repr

/-- One owner slot (R400). -/
structure OwnerSlot where
  key : BitVec 512
  revoked : Bool
deriving DecidableEq, Repr

/-- Fuses and what the lid holds of identity (R389 to R412). -/
structure Ident where
  /-- Life-cycle state. -/
  lc : Nat
  /-- The device secret's fuses, 0 before they are programmed (R389). -/
  secret : BitVec 256
  /-- The DIK seed and the alias root, which the security unit keeps while power lasts (R389, R390). -/
  dikSeed : BitVec 512
  aliasRoot : BitVec 512
  /-- The seed of the alias key in force (R390). -/
  aliasSeed : BitVec 512
  /-- The alias certificate issued last (R391). -/
  aliasCert : List Byte
  /-- Anti-rollback counter. -/
  counter : Nat
  /-- Owner slots programmed (R400). -/
  slots : List OwnerSlot
  /-- The owner key in the flash's owner area, if any (R400). -/
  flashOwner : Option (List Byte)
  /-- The DIK certificate in the flash's certificate area, once installed (R391). -/
  dikCert : Option (List Byte)
  /-- The image in flash, where the state knows it. -/
  flash : Option (List Byte)
  /-- The image that runs. -/
  running : Option (List Byte)
  /-- The image copied into the security unit for a check (R398). -/
  fwImage : List Byte
  /-- The nonce given out last. -/
  nonce : Option (BitVec 256)
  /-- A firmware update is in progress. -/
  fwBusy : Bool
  /-- Each partition's two Umber keys, the data key in the low half (R223, R224). -/
  umberKeys : List (Nat × BitVec 512)
  /-- Draws taken from the random source (R388). -/
  drbg : Nat
deriving DecidableEq, Repr

/-- Power beside its registers (R415 to R427, R470 to R478). -/
structure Power where
  /-- State of the transition in progress. -/
  target : Option Nat
  /-- A wake that waits for its exit: source (R423). -/
  wake : Option Nat
  /-- Beats without work. -/
  idleBeats : Nat
  /-- Always-on cycles of the exit so far. -/
  awake : Nat
  /-- `+3.3VAUX` is in range. -/
  aux : Bool
  /-- It has been for the time a boot needs. -/
  auxQualified : Bool
  /-- The 48 V input is in range. -/
  main48 : Bool
  /-- `PERST_N` is asserted (low). -/
  perst : Bool
  /-- `WAKE_N` is driven. -/
  wakeDriven : Bool
  /-- `THERMTRIP_N` is driven. -/
  thermtrip : Bool
  /-- The module is off after a thermal trip. -/
  tripped : Bool
  /-- Every sensor is below the restart limit. -/
  cool : Bool
  /-- The PCI Express link is in L1. -/
  l1 : Bool
  /-- Always-on cycles counted in Deep Sleep. -/
  dsCycles : Nat
  /-- A cold boot has begun and not reached the ready state. -/
  booting : Bool
  /-- What the boot in progress met: training per unit, memory BIST, stream links (R396, R437, R487). -/
  boot : List Bool × Option (Nat × Nat) × List Nat
  /-- State the module was in before the reset or Off it is in (R422). -/
  from_ : Nat
  /-- Sensor readings given last. -/
  temps : List Nat
deriving DecidableEq, Repr

/-- Test state (R438 to R442). -/
structure Test where
  /-- Ash segments in progress: cluster and segment (R439). -/
  ashRun : List (Nat × Nat)
  /-- Segments pending in a cluster's test, in order; unlisted all sixteen (R439). -/
  ashLeft : List (Nat × List Nat)
  /-- Segments that failed since a segment of their cluster passed: cluster, segment (R441). -/
  ashFailed : List (Nat × Nat)
  /-- Tiles saved by an Ash segment (R440). -/
  saved : List (Nat × Tile)
  /-- The error log, oldest first, 256 at most: source, index, cause, detail, BN (R442). -/
  elog : List (Nat × Nat × Nat × Nat × Nat)
  /-- Pin pattern a boundary-scan instruction drives. -/
  pins : Option Nat
  /-- Messages of the traffic run handed to the ports. -/
  ftgSent : Nat
  /-- Clusters under memory BIST (R438). -/
  bist : Nat
deriving DecidableEq, Repr

/-! ## What the module sends -/

/-- What a step hands to the outside. -/
inductive Out where
  | readData (f : Func) (off : Nat) (v : Word)
  | winData (off : Nat) (bytes : List Byte)
  | record (e q : Nat) (bytes : List Byte)
  | msix (fn : Func) (entry : Nat)
  /-- A flit leaves by a port (R232). -/
  | flit (port : Nat) (f : Flit)
  /-- What the training exchanges send in the bodies of IDLE flits: a position and the ring sizes in Align (R242), and in
  Keying an encapsulation key or a ciphertext, then the chain and the signature (R241). -/
  | align (port pos : Nat) (rings : Nat × Nat × Nat)
  | linkKem (port : Nat) (bytes : List Byte)
  | linkChain (port : Nat) (chain sig : List Byte)
  /-- A message handed to the router, which goes out in flits. -/
  | message (c : TClass) (h : MsgHdr) (payload : List Byte)
  | coll (h : MsgHdr) (k : CollHdr) (vals : List Byte)
  | report (r : CommitReport) (dest : Nat)
  | notice (dest : Nat) (positions : List Nat) (bn : Nat)
  | portReport (dest port : Nat) (up : Bool)
  | doubt (dest : Nat) (r : DoubtReport)
  | resumeMsg (p : Nat) (r : ResumeMsg)
  | stopMsg (p step : Nat)
  | restartMsg (p step bn : Nat)
  | deltaEnd (p rank step bytes : Nat)
  | deltaAck (p rank step : Nat)
  | lateResume (p hepoch : Nat)
  | loads (p table : Nat) (ls : List ShardLoad)
  | replState (p table state : Nat)
  /-- A frame of a stream port, FCS included (R373). -/
  | frame (port : Nat) (bytes : List Byte)
  | doe (msg stream : Nat) (body : List Byte)
  | wakeN
  | thermtripN
  | tdo (v : Nat) (len : Nat)
  /-- A per-bank refresh of a bank on every channel, and the all-bank refresh before self-refresh. -/
  | refreshCmd (u : MemUnit) (bank : Nat)
  | refreshAll (u : MemUnit)
  /-- A read, over the Slate class, of a sector of a rank's mirror at the host of its partner rank. -/
  | mirrorRead (dest part rank addr : Nat)
  | rfmCmd (u : MemUnit)
  | digest (p : Nat) (d : BitVec 512)
deriving DecidableEq, Repr

/-! ## The module -/

/-- The configuration header and the VF enables, as configuration space holds them (R1, R362). -/
structure Pci where
  vendor : Nat
  device : Nat
  /-- VFs 1 to 8 the host has enabled. -/
  vfs    : List Nat
deriving DecidableEq, Repr

/-- One WNX-480 module. -/
structure State where
  /-- The commands that wait, first in first out (the model's own). -/
  pending : List Instr
  /-- ACLK cycles since reset (R20). -/
  now : Nat
  /-- The cycle of the current beat's edge (R44). -/
  beatStart : Nat
  /-- A BN accepted for the next beat edge (R22). -/
  bnLoad : Option Word
  /-- A BN step due at the next beat edge (R21). -/
  bnStep : Option Nat
  /-- Distance in ACLK cycles by which the beat edge is still to be slewed (R21). -/
  slew : Int
  /-- BN steps logged: the BN left and the BN taken (R21). -/
  bnSteps : List (Nat × Nat)
  /-- The next fabric source taken gives its BN: none has been since Sleep, Deep Sleep or a holdover (R21). -/
  retake : Bool
  /-- Beats of the holdover in force (R26). -/
  holdoverBeats : Nat
  /-- Election beats counted in it (R26). -/
  electionBeats : Nat
  /-- The master whose markers were lost, until the host names another (R26). -/
  lostMaster : Option Nat
  /-- The port taken as alternate upstream (R24). -/
  altUpstream : Option Nat
  /-- `BEAT_REF_P/N` carries a valid beat (R20, R472). -/
  refPresent : Bool
  /-- Positions of the failure notice sent and not yet answered, with its BN (R279). -/
  notice : Option (List Nat × Nat)
  /-- Registers: PF BAR0 offset of `Regs`, unlisted the reset value. -/
  regs : List (Nat × Word)
  /-- Device memory: byte by 48-bit device address, unlisted 0. -/
  mem : List Host.Cell
  /-- Host memory, reached by the host movers, unlisted 0. -/
  host : List Host.Cell
  /-- The hub's 16 MiB boot SRAM by offset, unlisted 0 (R396, R399). -/
  sram : List Host.Cell
  /-- Old bytes of Tile Stores while reads over several cycles are in flight: visible cycle, address, byte before. -/
  history : List (Nat × Nat × Byte)
  /-- Tiles 0 to 255 (R57). Here and in the lists below an unlisted key stands for the reset value. -/
  tiles : List (Nat × Tile)
  /-- Partitions 0 to 7 beside their registers. -/
  parts : List (Nat × Part)
  /-- Ochre queues: key 8·engine + queue (R213). -/
  ochre : List (Nat × OchreQ)
  /-- Stacks 0 to 7, then Umber controllers 0 to 11 (R202, R218). -/
  units : List (Nat × Unit_)
  /-- Fabric ports 0 to 5 (R231). -/
  ports : List (Nat × Port)
  /-- Host movers 0 to 31 (R358). -/
  movers : List (Nat × Mover)
  /-- Cluster-mover channels: key 8·cluster + channel (R73, R485). -/
  cmovers : List (Nat × CMover)
  /-- Queues 0 to 255 (R357). -/
  queues : List (Nat × Queue)
  /-- Stream-port peers (R373, R374). -/
  peers : List Peer
  /-- Frames sent of each stream that the module sends, by rank, step and type (R375). -/
  frameSeq : List (Nat × Nat)
  /-- IDE streams (R353). -/
  ide : List IdeStream
  /-- Configuration space (R1, R362). -/
  pci : Pci
  /-- Fuses, identity and firmware (R389 to R412). -/
  ident : Ident
  /-- Power and pins (R415 to R427, R470 to R478). -/
  power : Power
  /-- Test and service (R438 to R442). -/
  test : Test
  /-- What has been handed to the outside, newest first. -/
  out : List Out
  /-- The counter of free values (the model's own). -/
  free : Nat
deriving DecidableEq, Repr

/-- The keys a cold boot draws (R224): one draw of 512 bits for each partition. -/
def firstKeys : List (Nat × BitVec 512) := (List.range 8).map fun p => (p, Config.random p)

/-- Right after reset: the moment a cold boot begins (R13), with both supplies in range and `PERST_N` high. Every
register reads its reset value, `SEC_STATE` that of a part in MANUFACTURE, whose debug access is open (R412, R413); every memory is as the wipe of R410 leaves it. -/
def State.reset : State :=
  { pending := [], now := 0, beatStart := 0, bnLoad := none, bnStep := none, slew := 0, bnSteps := [], retake := false, holdoverBeats := 0,
    electionBeats := 0, lostMaster := none, altUpstream := none, refPresent := false, notice := none, regs := [(0x20_0000, 0x100)], mem := [], host := [], sram := [],
    history := [], tiles := [], parts := [], ochre := [], units := [], ports := [], movers := [], cmovers := [],
    queues := [], peers := [], frameSeq := [], ide := [],
    pci := { vendor := Config.vendorId, device := 0x0480, vfs := Config.vfsEnabled },
    ident := { lc := 0, secret := 0, dikSeed := 0, aliasRoot := 0, aliasSeed := 0, aliasCert := [], counter := 0, slots := [],
               flashOwner := none, dikCert := none, flash := none, running := none, fwImage := [], nonce := none, fwBusy := false, umberKeys := firstKeys,
               drbg := 8 },
    power := { target := none, wake := none, idleBeats := 0, awake := 0, aux := true,
               auxQualified := true, main48 := true, perst := false, wakeDriven := false, thermtrip := false,
               tripped := false, cool := true, l1 := false, dsCycles := 0, booting := true, boot := ([], none, []), from_ := 4, temps := [] },
    test := { ashRun := [], ashLeft := [], ashFailed := [], saved := [], elog := [], pins := none, ftgSent := 0, bist := 0 },
    out := [], free := 0 }

end Sys2Proof.Machine
end

