-- ==== Sys2Proof/Machine/Ops.lean ====
section
/-! DEFINITION. The named operations every meaning is written with: registers and their fields, memory, the parts of
the state by their numbers, what is handed to the outside, the logs, and the allocation of a partition. -/

namespace Sys2Proof.Machine

/-- What a step answers. -/
abbrev Res := Host.Outcome State Fault Refusal

/-- ⌈a / b⌉. -/
def ceilDiv (a b : Nat) : Nat := (a + b - 1) / b

namespace State

/-! ## Registers -/

/-- The register at a PF BAR0 offset. -/
def word (s : State) (off : Nat) : Word := mget (regReset off) s.regs off

def setWord (s : State) (off : Nat) (w : Word) : State := { s with regs := mput (regReset off) s.regs off w }

/-- Field `f` of instance `i`. -/
def getF (s : State) (f : Fld) (i : Nat) : Nat := getBits (s.word (f.off i)) f.hi f.lo

def putF (s : State) (f : Fld) (i v : Nat) : State := s.setWord (f.off i) (putBits (s.word (f.off i)) f.hi f.lo v)

def flag (s : State) (f : Fld) (i : Nat) : Bool := s.getF f i = 1

/-- A counter that saturates at all ones, raised by `n`. -/
def bumpBy (s : State) (f : Fld) (i n : Nat) : State := s.putF f i (min (s.getF f i + n) (2 ^ f.width - 1))

def bump (s : State) (f : Fld) (i : Nat) : State := s.bumpBy f i 1

/-- Every field of a list of fields at its reset value. -/
def resetFs (s : State) (fs : List (Fld × Nat)) : State := fs.foldl (fun s x => s.putF x.1 x.2 x.1.rst) s

/-- Every register of a list of offsets at its reset value. -/
def resetRegs (s : State) (offs : List Nat) : State := offs.foldl (fun s o => s.setWord o (regReset o)) s

/-! ## Parts by number -/

def tile (s : State) (g : Nat) : Tile := mget Tile.reset s.tiles g
def setTile (s : State) (g : Nat) (t : Tile) : State := { s with tiles := mput Tile.reset s.tiles g t }
def modTile (s : State) (g : Nat) (f : Tile → Tile) : State := s.setTile g (f (s.tile g))

def part (s : State) (p : Nat) : Part := mget Part.reset s.parts p
def setPart (s : State) (p : Nat) (x : Part) : State := { s with parts := mput Part.reset s.parts p x }
def modPart (s : State) (p : Nat) (f : Part → Part) : State := s.setPart p (f (s.part p))

/-- Queue `q` of engine `e`, 8 for OCH-U. -/
def och (s : State) (e q : Nat) : OchreQ := mget OchreQ.reset s.ochre (e * 8 + q)
def setOch (s : State) (e q : Nat) (x : OchreQ) : State :=
  { s with ochre := mput OchreQ.reset s.ochre (e * 8 + q) x }
def modOch (s : State) (e q : Nat) (f : OchreQ → OchreQ) : State := s.setOch e q (f (s.och e q))

/-- Units: stacks 0 to 7, then controllers 8 to 19. -/
def unit (s : State) (u : Nat) : Unit_ := mget Unit_.reset s.units u
def setUnit (s : State) (u : Nat) (x : Unit_) : State := { s with units := mput Unit_.reset s.units u x }
def modUnit (s : State) (u : Nat) (f : Unit_ → Unit_) : State := s.setUnit u (f (s.unit u))

def port (s : State) (k : Nat) : Port := mget Port.reset s.ports k
def setPort (s : State) (k : Nat) (x : Port) : State := { s with ports := mput Port.reset s.ports k x }
def modPort (s : State) (k : Nat) (f : Port → Port) : State := s.setPort k (f (s.port k))

def mover (s : State) (h : Nat) : Mover := mget Mover.reset s.movers h
def setMover (s : State) (h : Nat) (x : Mover) : State := { s with movers := mput Mover.reset s.movers h x }
def modMover (s : State) (h : Nat) (f : Mover → Mover) : State := s.setMover h (f (s.mover h))

/-- Cluster-mover channel 8·cluster + channel. -/
def cmover (s : State) (c : Nat) : CMover := mget CMover.reset s.cmovers c
def setCmover (s : State) (c : Nat) (x : CMover) : State := { s with cmovers := mput CMover.reset s.cmovers c x }
def modCmover (s : State) (c : Nat) (f : CMover → CMover) : State := s.setCmover c (f (s.cmover c))

def queue (s : State) (q : Nat) : Queue := mget Queue.reset s.queues q
def setQueue (s : State) (q : Nat) (x : Queue) : State := { s with queues := mput Queue.reset s.queues q x }
def modQueue (s : State) (q : Nat) (f : Queue → Queue) : State := s.setQueue q (f (s.queue q))

/-- Hands a record to the outside. -/
def emit (s : State) (o : Out) : State := { s with out := o :: s.out }

/-- The next free value (assumption 2). -/
def fresh (s : State) : Nat × State := (Config.freeValue s.free, { s with free := s.free + 1 })

/-! ## Memory (R455) -/

/-- A byte of device memory. -/
def rd8 (s : State) (a : Nat) : Byte := mget 0 s.mem a

/-- A tile has a multiply or a chain run in flight, whose reads take many cycles (R116, R484). -/
def readsLong (s : State) (g : Nat) : Bool :=
  (s.tile g).pend.any fun x => match x.eff with
    | .mult .. => true
    | .chain .. => true
    | _ => false

/-- An address lies in the Tile Store of a tile that reads over many cycles. -/
def tracked (s : State) (a : Nat) : Bool :=
  0x0F10_0000_0000 ≤ a && a < 0x0F10_1000_0000 && s.readsLong ((a - 0x0F10_0000_0000) / 0x10_0000)

/-- A write whose byte reads of cycle `from_` and later see; what it overwrites is kept while reads of earlier cycles are in
flight. -/
def wrFrom (s : State) (from_ a : Nat) (b : Byte) : State :=
  { s with mem := mput 0 s.mem a b,
           history := if s.tracked a then s.history ++ [(from_, a, s.rd8 a)] else s.history }

/-- A write from outside the tile: a read over many cycles meets it from the next cycle on (R64). -/
def wr8 (s : State) (a : Nat) (b : Byte) : State := s.wrFrom (s.now + 1) a b

/-- A tile's own write, visible from the current cycle (R62). -/
def wrOwn8 (s : State) (a : Nat) (b : Byte) : State := s.wrFrom s.now a b

/-- The byte an address held in a cycle not after the current one. -/
def memAt (s : State) (cyc a : Nat) : Byte :=
  match s.history.find? fun h => h.2.1 = a && cyc < h.1 with
  | some h => h.2.2
  | none => s.rd8 a

/-- `n` bytes from an address up. -/
def rd (s : State) (a : Nat) : Nat → List Byte
  | 0 => []
  | n + 1 => s.rd8 a :: rd s (a + 1) n

/-- Bytes written from an address up. -/
def wr (s : State) (a : Nat) : List Byte → State
  | [] => s
  | b :: bs => wr (s.wr8 a b) (a + 1) bs

/-- A tile's own bytes written from an address up. -/
def wrOwn (s : State) (a : Nat) : List Byte → State
  | [] => s
  | b :: bs => wrOwn (s.wrOwn8 a b) (a + 1) bs

/-- A little-endian number of `n` bytes (R8). -/
def rdN (s : State) (a n : Nat) : Nat := leNat (s.rd a n)

def wrN (s : State) (a n v : Nat) : State := s.wr a (leBytes n v)

/-- Every byte of a range 0. -/
def wipe (s : State) (a n : Nat) : State := { s with mem := s.mem.filter fun c => c.1 < a || a + n ≤ c.1 }

def hrd8 (s : State) (a : Nat) : Byte := mget 0 s.host a
def hwr8 (s : State) (a : Nat) (b : Byte) : State := { s with host := mput 0 s.host a b }
def hrd (s : State) (a : Nat) : Nat → List Byte
  | 0 => []
  | n + 1 => s.hrd8 a :: hrd s (a + 1) n
def hwr (s : State) (a : Nat) : List Byte → State
  | [] => s
  | b :: bs => hwr (s.hwr8 a b) (a + 1) bs

end State

/-! ## The device address map (R455, R457) -/

def hbmEnd : Nat := 0x0090_0000_0000
def umberBase : Nat := 0x0100_0000_0000
def umberEnd : Nat := 0x0280_0000_0000
def clusterBase : Nat := 0x0F00_0000_0000
def tileBase : Nat := 0x0F10_0000_0000
def istoreBase : Nat := 0x0F20_0000_0000
def imageBase : Nat := 0x0F30_0000_0000
def resultBase : Nat := 0x0FFF_0000_0000

/-- Device address of byte 0 of a Cluster Store, a Tile Store, an instruction store and a result buffer. -/
def clusterAddr (c : Nat) : Nat := clusterBase + c * 0x200_0000
def tileAddr (g : Nat) : Nat := tileBase + g * 0x10_0000
def istoreAddr (g : Nat) : Nat := istoreBase + g * 0x2_0000
def resultAddr (q : Nat) : Nat := resultBase + q * 0x1000

/-- Stack of an HBM address (R204). -/
def stackOf (a : Nat) : Nat := a / 0x12_0000_0000

/-- Controller of an Umber address (R205). -/
def umberOf (a : Nat) : Nat := (a - umberBase) / 256 % 12

/-- What a device address is: an HBM or Umber granule, a cluster's store (Cluster, Tile or instruction store), a
result buffer, or nothing a master reaches (R404, R456, R457). -/
inductive Where where
  | gran (i : Nat) | cluster (c : Nat) (istore : Bool) | result (q : Nat) | none
deriving DecidableEq, Repr

def whereIs (a : Nat) : Where :=
  if a < hbmEnd then .gran (a / 2 ^ 30)
  else if umberBase ≤ a ∧ a < umberEnd then .gran (576 + (a - umberBase) / 2 ^ 30)
  else if clusterBase ≤ a ∧ a < clusterBase + 32 * 0x200_0000 then .cluster ((a - clusterBase) / 0x200_0000) false
  else if tileBase ≤ a ∧ a < tileBase + 256 * 0x10_0000 then .cluster ((a - tileBase) / 0x10_0000 / 8) false
  else if istoreBase ≤ a ∧ a < istoreBase + 256 * 0x2_0000 then .cluster ((a - istoreBase) / 0x2_0000 / 8) true
  else if resultBase ≤ a ∧ a < resultBase + 256 * 0x1000 ∧ (a - resultBase) % 0x1000 < 3840 then
    .result ((a - resultBase) / 0x1000)
  else .none

namespace State

/-- Owner of a granule: 0 to 7, or 15 for free (R404, R414). -/
def granOwner (s : State) (i : Nat) : Nat := natBits (s.getF F.PRT_GRAN_OWNERS (i / 16)) (4 * (i % 16) + 3) (4 * (i % 16))

/-- A byte a mover or a message writes at a device address; in a result buffer it lands in the queue's shadow (R361). -/
def wrDev8 (s : State) (task a : Nat) (b : Byte) : State :=
  match whereIs a with
  | .result q => s.modQueue q fun x => { x with
      shadow := mins x.shadow (a % 0x1000) b, shadowTask := task }
  | _ => s.wr8 a b

/-- Bytes written from a device address up by a task. -/
def wrDev (s : State) (task a : Nat) : List Byte → State
  | [] => s
  | b :: bs => wrDev (s.wrDev8 task a b) task (a + 1) bs

/-- The partition whose `PRT_CLUSTERS` holds a cluster. -/
def hasCluster (s : State) (p c : Nat) : Bool := natBits (s.getF F.PRT_CLUSTERS_MASK p) c c = 1

def clusterPart (s : State) (c : Nat) : Option Nat := (List.range 8).find? fun p => s.hasCluster p c

/-- The clusters of a partition, ascending. -/
def clusters (s : State) (p : Nat) : List Nat := (List.range 32).filter fun c => s.hasCluster p c

/-- The tiles of a partition, ascending. -/
def tilesOf (s : State) (p : Nat) : List Nat :=
  (List.range 256).filter fun g => s.hasCluster p (g / 8)

/-- A byte lies in a partition's allocation (R404); an instruction store is not written by a master (R457). -/
def owns (s : State) (p a : Nat) (write : Bool) : Bool :=
  match whereIs a with
  | .gran i => s.granOwner i = p
  | .cluster c is => s.hasCluster p c && !(is && write)
  | .result q => q / 32 = p
  | .none => false

/-- The first byte of a range outside the allocation, looking at the ends of its pieces: every piece of at most 256
bytes lies in one granule, store or buffer. -/
def firstBad (s : State) (p : Nat) (write : Bool) : Nat → Nat → Nat → Option Nat
  | 0, _, _ => none
  | n + 1, a, len =>
    if len = 0 then none
    else if !s.owns p a write then some a
    else
      let k := min len (256 - a % 256)
      if !s.owns p (a + k - 1) write then some (a + k - 1) else s.firstBad p write n (a + k) (len - k)

/-- The whole range lies in the allocation (R456). -/
def ownsRange (s : State) (p a len : Nat) (write : Bool) : Bool :=
  (s.firstBad p write (len / 256 + 2) a len).isNone

/-! ## Position and time -/

def bn (s : State) : Nat := s.getF F.PLN_BN_BN 0

/-- Ring size in dimension 0, 1 or 2 (R261). -/
def ringSize (s : State) (d : Nat) : Nat :=
  1 + (match d with
    | 0 => s.getF F.FAB_CFG_X_M1 0
    | 1 => s.getF F.FAB_CFG_Y_M1 0
    | _ => s.getF F.FAB_CFG_Z_M1 0)

/-- The module's coordinate in a dimension. -/
def coord (s : State) (d : Nat) : Nat :=
  match d with
  | 0 => s.getF F.FAB_CFG_X 0
  | 1 => s.getF F.FAB_CFG_Y 0
  | _ => s.getF F.FAB_CFG_Z 0

/-- Position rank of a place (R23). -/
def posOf (s : State) (x y z : Nat) : Nat := x + s.ringSize 0 * (y + s.ringSize 1 * z)

/-- Position rank of this module. -/
def pos (s : State) : Nat := s.posOf (s.coord 0) (s.coord 1) (s.coord 2)

/-- The place a position rank stands for, in one dimension. -/
def placeOf (s : State) (r d : Nat) : Nat :=
  match d with
  | 0 => r % s.ringSize 0
  | 1 => r / s.ringSize 0 % s.ringSize 1
  | _ => r / s.ringSize 0 / s.ringSize 1

/-- Port by which the dimension-order route from position `m` enters this module (R24): the last dimension in which
they differ, and the side the shorter way comes from; 7 for none. -/
def routeIn (s : State) (m : Nat) : Nat :=
  let side (d : Nat) : Option Nat :=
    let n := s.ringSize d
    let fwd := (s.coord d + n - s.placeOf m d % n) % n
    if fwd = 0 then none else if fwd ≤ n - fwd then some (2 * d) else some (2 * d + 1)
  match side 2, side 1, side 0 with
  | some k, _, _ => k
  | none, some k, _ => k
  | none, none, some k => k
  | none, none, none => 7

/-- Modules of the configured torus. -/
def torus (s : State) : Nat := s.ringSize 0 * s.ringSize 1 * s.ringSize 2

/-- Diameter in hops: half of each ring, rounded down (R40, R45). -/
def diameter (s : State) : Nat := s.ringSize 0 / 2 + s.ringSize 1 / 2 + s.ringSize 2 / 2

/-- Beats of the Carmine bound over `h` hops (R40). -/
def fabricLag (h : Nat) : Nat := (280 * h + 420 + 1023) / 1024

/-- `HOLD_LEAD` (R45). -/
def holdLead (s : State) : Nat := fabricLag s.diameter + 2

/-- The stage leads D of R314, over the dimensions used. -/
def stageLead (s : State) : Nat :=
  ((List.range 3).map fun d => if s.ringSize d = 1 then 0 else fabricLag (s.ringSize d / 2)).foldl (· + ·) 0

/-! ## Interrupts and logs (R362, R442, R465, R409) -/

/-- Signals queue `q`'s vector (R362). -/
def signalQ (s : State) (q : Nat) : State :=
  if s.pci.vfs.contains (q / 32 + 1) then s.emit (.msix (.vf (q / 32 + 1)) (q % 32)) else s.emit (.msix .pf q)

/-- A partition event: its cause bit, then its message (R362). -/
def pevt (s : State) (p bit : Nat) : State :=
  let s := s.putF F.DMA_PEVT_CAUSE p (s.getF F.DMA_PEVT_CAUSE p ||| 2 ^ bit)
  s.signalQ (32 * p + s.getF F.DMA_PEVT_VEC p)

/-- A module event (R362). -/
def mevt (s : State) (bit : Nat) : State :=
  let s := s.putF F.DMA_MEVT_CAUSE 0 (s.getF F.DMA_MEVT_CAUSE 0 ||| 2 ^ bit)
  s.emit (.msix .pf (s.getF F.DMA_MEVT_VEC 0))

/-- An error-log entry: source, index, cause, detail and the BN; a full log loses its oldest (R442). -/
def elog (s : State) (src idx cause detail : Nat) : State :=
  let l := s.test.elog ++ [(src, idx, cause, detail, s.bn)]
  if l.length ≤ 256 then { s with test := { s.test with elog := l } }
  else ({ s with test := { s.test with elog := l.drop 1 } }).bump F.TST_ELOG_INFO_LOST 0

/-- The code of a function in `GEN_ERR.FUNC` (R464). -/
def funcCode : Func → Nat
  | .pf => 0
  | .vf k => k
  | .vfIde k _ _ => k
  | .pfIde _ _ => 0
  | .jtag => 15

/-- Counts one event in a `GEN_ERR` copy and records it while `VALID` is 0 (R465): count field, copy's fields, copy. -/
def genErrIn (s : State) (cnt valid fn kd ofs : Fld) (i : Nat) (f : Func) (kind off : Nat) : State :=
  let s := s.bump cnt i
  if s.flag valid i then s
  else (((s.putF valid i 1).putF fn i (funcCode f)).putF kd i kind).putF ofs i off

/-- An access error (kind 0) or a discarded write (kind 1) at a PF offset (R465). A discarded write adds an error-log
entry of source 0x7 whose `DETAIL` is the offset with the function above it (R442). -/
def genErr (s : State) (f : Func) (kind off : Nat) : State :=
  let s := s.genErrIn (if kind = 0 then F.GEN_ERR_ACCESS else F.GEN_ERR_DISCARD) F.GEN_ERR_VALID F.GEN_ERR_FUNC
    F.GEN_ERR_KIND F.GEN_ERR_OFFSET 0 f kind off
  let s := match f.base with
    | .vf k => s.genErrIn (if kind = 0 then F.GEN_VERR_ACCESS else F.GEN_VERR_DISCARD) F.GEN_VERR_VALID
        F.GEN_VERR_FUNC F.GEN_VERR_KIND F.GEN_VERR_OFFSET (k - 1) f kind off
    | _ => s
  let s := s.mevt 1
  s.elog 7 (natBits off 24 13) 0 (off + 2 ^ 25 * funcCode f)

/-- Every bypass switch closes (R258). -/
def closeBypass (s : State) : State := s.putF F.FAB_BYP_CLOSED 0 7

/-- The module reports itself failed, its bypasses closing; `FCAUSE` keeps the first cause (R258, R464). -/
def fail (s : State) (cause : Nat) : State :=
  if s.flag F.GEN_STATUS_FAILED 0 then s
  else (s.closeBypass.putF F.GEN_STATUS_FAILED 0 1).putF F.GEN_STATUS_FCAUSE 0 cause

/-- A freeze-log entry (R409). -/
def freezeLog (s : State) (p type idx : Nat) (write : Bool) (addr : Nat) : State :=
  let l := (s.part p).frzLog
  let s := if l.length < 64 then s.modPart p fun x =>
      { x with frzLog := l ++ [{ type := type, index := idx, write := write, addr := addr, bn := s.bn }] }
    else s.bump F.PRT_FRZ_INFO_LOST p
  (s.putF F.PRT_STATE_FROZEN p (s.getF F.PRT_STATE_FROZEN p + 1)).pevt p 2

/-- A plan of the partition is set to run (R464). -/
def running (s : State) (p : Nat) : Bool := s.flag F.PLN_CTRL_RUN p

/-- Sets `PLN_CTRL.RUN`, which `GEN_STATUS.RUNNING` shows. -/
def setRun (s : State) (p : Nat) (b : Bool) : State :=
  let s := s.putF F.PLN_CTRL_RUN p (if b then 1 else 0)
  let m := s.getF F.GEN_STATUS_RUNNING 0
  s.putF F.GEN_STATUS_RUNNING 0 (if b then m ||| 2 ^ p else m &&& (255 - 2 ^ p))

def anyRun (s : State) : Bool := (List.range 8).any s.running

/-- Something of code 0x04 of R417 is in progress: a mover transfer, a wipe, a traffic generator, a checkpoint stream, or
a firmware check or programming. -/
def anyWork (s : State) : Bool :=
  s.movers.any (·.2.chain.isSome) || s.cmovers.any (fun c => c.2.chains ≠ []) ||
  (List.range 8).any (fun p => s.flag F.PRT_STATE_WIPING p || (s.part p).wipeGrans ≠ [] || (s.part p).ckpt.isSome) ||
  (List.range 256).any (fun i => s.flag F.MEM_TG_STAT_BUSY i) || (List.range 48).any (fun i => s.flag F.UMB_TG_STAT_BUSY i) ||
  s.ident.fwBusy

/-- The record of a wake: source, state woken from, and the always-on time, which no command of the table fixes
(R422, assumption 2). -/
def recordWake (s : State) (source from_ : Nat) : State :=
  let (v, s) := s.fresh
  ((s.putF F.PWR_WAKE_SOURCE 0 source).putF F.PWR_WAKE_FROM 0 from_).putF F.PWR_WAKE_TIME 0 v

/-- A wake event in Idle, Sleep or Deep Sleep (R422, R423): the exit begins, or follows the entry in progress. -/
def wakeFrom (s : State) (source : Nat) : State :=
  let st := s.getF F.PWR_STAT_STATE 0
  let entering := s.power.target.any (· ≠ 0)
  if s.power.wake.isSome ∨ (st = 0 ∧ ¬ entering) ∨ 3 < st then s
  else
    let s := s.recordWake source (if entering then s.power.target.getD st else st)
    if entering then { s with power := { s.power with wake := some source } }
    else { s.putF F.PWR_STAT_BUSY 0 1 with power := { s.power with target := some 0, wake := some source, awake := 0 } }

/-- Work that arrives in Idle, or on the way into it, takes the module to Run (R418, R423). -/
def arriveWork (s : State) : State :=
  if s.getF F.PWR_STAT_STATE 0 = 1 ∨ s.power.target = some 1 then s.wakeFrom 5 else s

/-- Owned HBM and Umber granules of a partition, as `PRT_STATE` shows them. -/
def countUsed (s : State) (p : Nat) : Nat × Nat :=
  (((List.range 576).filter fun i => s.granOwner i = p).length,
   ((List.range 1536).filter fun i => s.granOwner (576 + i) = p).length)

/-- Brings `HBM_USED`, `UMB_USED` and `OVER_QUOTA` of a partition up to date (R406). -/
def refreshUsed (s : State) (p : Nat) : State :=
  let (h, u) := s.countUsed p
  let s := (s.putF F.PRT_STATE_HBM_USED p h).putF F.PRT_STATE_UMB_USED p u
  let excess := s.getF F.PRT_QUOTA_HBM_Q p < h || s.getF F.PRT_QUOTA_UMB_Q p < u
  s.putF F.PRT_STATE_OVER_QUOTA p (if excess then 1 else 0)

/-! ## Tokens (R75, R78) -/

/-- Tile and counter of a token address, if it has the form of R75. -/
def tokenOf (a : Nat) : Option (Nat × Nat) :=
  if a % 32 = natBits a 6 0 ∧ a < 2 ^ 15 then
    some (64 * natBits a 14 13 + 8 * natBits a 12 10 + natBits a 9 7, natBits a 4 0)
  else none

/-- Increments token counter `k` of tile `g` by one, modulo 2^16; a tile in an Ash segment keeps it for later
(R440). -/
def incToken (s : State) (g k : Nat) : State :=
  s.modTile g fun t =>
    if (s.test.saved.map (·.1)).contains g then { t with heldToks := t.heldToks ++ [k] }
    else { t with toks := mput 0 t.toks k (mget 0 t.toks k + 1) }

/-- Delivers a `TOKEN` operand: 0 is none, bit 63 a Planner task token, else a tile token (R214, R245). -/
def deliver (s : State) (p token : Nat) : State :=
  if token = 0 then s
  else if 2 ^ 63 ≤ token then
    s.modPart p fun x =>
      let t := token % 2 ^ 24
      { x with done := if x.done.contains t then x.done else x.done ++ [t],
               windows := x.windows.filter fun w => w.task ≠ t }
  else match tokenOf token with
    | some (g, k) => s.incToken g k
    | none => s

/-- A task has produced its arrival token. -/
def taskDone (s : State) (p task : Nat) : State := s.deliver p (2 ^ 63 + task % 2 ^ 24)

end State

end Sys2Proof.Machine
end

