-- ==== Sys2Proof/Machine/Operands.lean ====
section
/-! DEFINITION. The operand forms of a tile word (R57, R65 to R76): header and format fields, registers, effective
addresses, block descriptors and the placing of elements in blocks. -/

namespace Sys2Proof.Machine

/-! ## Word fields (R57 and the five formats) -/

def wMV (w : Word) : Bool := getBits w 63 63 = 1
def wE (w : Word) : Bool := getBits w 62 62 = 1
def wSlot (w : Word) : Nat := getBits w 61 60
def wGN (w : Word) : Bool := getBits w 59 59 = 1
def wGP (w : Word) : Nat := getBits w 58 56
def wOp (w : Word) : Nat := getBits w 55 48

-- format M
def mAcc (w : Word) : Nat := getBits w 47 46
def mDA (w : Word) : Nat := getBits w 45 42
def mDB (w : Word) : Nat := getBits w 41 38
def mZ (w : Word) : Bool := getBits w 37 37 = 1
def mPO (w : Word) : Nat := getBits w 36 34
def mRsv (w : Word) : Bool := getBits w 33 0 ≠ 0

-- format V
def vChain (w : Word) : Nat := getBits w 47 42
def vDD (w : Word) : Nat := getBits w 41 38
def vDA (w : Word) : Nat := getBits w 37 34
def vDB (w : Word) : Nat := getBits w 33 30
def vDM (w : Word) : Nat := getBits w 29 26
def vMK (w : Word) : Bool := getBits w 25 25 = 1
def vRsv (w : Word) : Bool := getBits w 24 0 ≠ 0

-- format S
def sSD (w : Word) : Nat := getBits w 47 43
def sPD (w : Word) : Nat := getBits w 45 43
def sSA (w : Word) : Nat := getBits w 42 38
def sSB (w : Word) : Nat := getBits w 37 33
def sI (w : Word) : Bool := getBits w 32 32 = 1
def sImm (w : Word) : Word := (w.extractLsb' 0 32).signExtend 64

-- format XM
def xSD (w : Word) : Nat := getBits w 47 43
def xSA (w : Word) : Nat := getBits w 42 38
def xDD (w : Word) : Nat := getBits w 37 34
def xDS (w : Word) : Nat := getBits w 33 30
def xTK (w : Word) : Nat := getBits w 29 25
def xCH (w : Word) : Nat := getBits w 24 22
def xOFF (w : Word) : Word := (w.extractLsb' 0 22).signExtend 64

-- format C
def cSA (w : Word) : Nat := getBits w 47 43
def cTK (w : Word) : Nat := getBits w 42 38
def cI (w : Word) : Bool := getBits w 32 32 = 1
def cImm (w : Word) : Nat := getBits w 31 0

/-! ## Registers (R59, the register files) -/

/-- s`r`: s0 reads 0. -/
def Tile.s (t : Tile) (r : Nat) : Word := if r = 0 then 0 else mget 0 t.sregs r

/-- d`r`. -/
def Tile.d (t : Tile) (r : Nat) : Desc := mget 0 t.dregs r

/-- p`r`: p0 reads 1. -/
def Tile.p (t : Tile) (r : Nat) : Bool := if r = 0 then true else mget false t.preds r

/-- Shadow copies while balancing is on, else the actual ones (R83). -/
def Tile.sh (t : Tile) (r : Nat) : Word := if r = 0 then 0 else if t.shadowOn then mget 0 t.shadowS r else t.s r
def Tile.dh (t : Tile) (r : Nat) : Desc := if t.shadowOn then mget 0 t.shadowD r else t.d r

/-- Writes s`r` and its shadow; s0 ignores writes. -/
def Tile.setS (t : Tile) (r : Nat) (v sh : Word) : Tile :=
  if r = 0 then t else { t with sregs := mput 0 t.sregs r v, shadowS := mput 0 t.shadowS r sh }

def Tile.setD (t : Tile) (r : Nat) (v sh : Desc) : Tile :=
  { t with dregs := mput 0 t.dregs r v, shadowD := mput 0 t.shadowD r sh }

/-- Writes p`r`; p0 ignores writes. -/
def Tile.setP (t : Tile) (r : Nat) (b : Bool) : Tile :=
  if r = 0 then t else { t with preds := mput false t.preds r b }

def Tile.tok (t : Tile) (k : Nat) : BitVec 16 := mget 0 t.toks k

/-- A bank of untyped +0 (R61, R70). -/
def Bank.zero : Bank := { ty := none, cells := [], sat := 0 }

def Tile.bank (t : Tile) (b : Nat) : Bank := mget Bank.zero t.banks b

/-- The second operand b of scalar arithmetic: sB, or `IMM` (R72). -/
def Tile.opB (t : Tile) (w : Word) : Word := if sI w then sImm w else t.s (sSB w)
def Tile.opBsh (t : Tile) (w : Word) : Word := if sI w then sImm w else t.sh (sSB w)

/-- The effective address sA + `OFF` (R73), actual and shadow. -/
def Tile.ea (t : Tile) (w : Word) : Nat := (t.s (xSA w) + xOFF w).toNat
def Tile.eaSh (t : Tile) (w : Word) : Nat := (t.sh (xSA w) + xOFF w).toNat

/-! ## The tile-local space (R65) -/

/-- A range of `n` bytes lies in the Tile Store. -/
def inTile (a n : Nat) : Bool := a < 0x10_0000 && a + n ≤ 0x10_0000

/-- A range lies in the window that holds its base. -/
def inLocal (a n : Nat) : Bool :=
  inTile a n || (0x1000_0000 ≤ a && a < 0x1200_0000 && a + n ≤ 0x1200_0000)

/-- Device address of a tile-local address (R65, R457). -/
def devAddr (g a : Nat) : Nat :=
  if a < 0x10_0000 then tileAddr g + a else clusterAddr (g / 8) + (a - 0x1000_0000)

/-! ## Block descriptors (R66, R67) -/

def dBits (d : Desc) (hi lo : Nat) : Nat := (d.toNat >>> lo) % 2 ^ (hi + 1 - lo)

def dFmt (d : Desc) : Nat := dBits d 127 124
def dBS (d : Desc) : Bool := dBits d 123 123 = 1
def dStride (d : Desc) : Nat := dBits d 111 96
def dCols (d : Desc) : Nat := dBits d 95 80
def dRows (d : Desc) : Nat := dBits d 79 64
def dLen (d : Desc) : Nat := dBits d 63 47
def dSexp (d : Desc) : Int := signed 8 (dBits d 39 32)
def dBase (d : Desc) : Nat := dBits d 31 0

/-- FP8 format codes. -/
def isFp8 (f : Nat) : Bool := f = 3 || f = 4

/-- Bytes of a block of a format, FP8 with its scale trailer (R67). -/
def blockPitch (fmt : Nat) : Nat :=
  match fmt with
  | 0 => 65536
  | 1 => 32768
  | 2 => 32768
  | 3 => 16448
  | 4 => 16448
  | 5 => 8704
  | 6 => 16384
  | _ => 65536

/-- Bytes per block (R67). -/
def pitch (d : Desc) : Nat := if isFp8 (dFmt d) && !dBS d then 16384 else blockPitch (dFmt d)

/-- Bytes per element, 0 for E2M1. -/
def elemBytes (f : Nat) : Nat :=
  match f with
  | 0 => 4
  | 1 => 2
  | 2 => 2
  | 5 => 0
  | 7 => 4
  | _ => 1

/-- A descriptor breaks R67, apart from its `LEN`. -/
def descBad (d : Desc) : Bool :=
  8 ≤ dFmt d || dBits d 122 112 ≠ 0 || dBits d 46 40 ≠ 0 || dCols d = 0 || dRows d = 0 ||
  dBits d 39 32 = 0x80 || dBase d % 64 ≠ 0 || (dBS d && !isFp8 (dFmt d))

/-- Its `LEN` is no length of a vector view (R67). -/
def lenBad (d : Desc) : Bool := dLen d = 0 || 65536 < dLen d || dRows d * dCols d * 16384 < dLen d

/-- Bytes from `BASE` to the end of the region. -/
def regionBytes (d : Desc) : Nat :=
  max ((dRows d - 1) * 64 * dStride d + dCols d * pitch d) (dCols d * pitch d)

/-- Offset of block `b` of the vector view from `BASE` (R98, R113). -/
def blockOff (d : Desc) (b : Nat) : Nat := 64 * (b / dCols d) * dStride d + b % dCols d * pitch d

/-- Storage position of element (i, j) of a block (R97). -/
def storePos (i j : Nat) : Nat := 128 * i + (i + j) % 128

/-- Reads the code of storage position `q` of a block at `a`: `rd` reads a byte. -/
def codeAt (rd : Nat → Byte) (f a q : Nat) : Nat :=
  if f = 5 then
    let b := (rd (a + q / 2)).toNat
    if q % 2 = 0 then b % 16 else b / 16
  else leNat ((List.range (elemBytes f)).map fun i => rd (a + elemBytes f * q + i))

/-- The scale byte's index of element (i, j) when K runs along element columns, or along element rows (R99). -/
def scaleIdx (alongCols : Bool) (i j : Nat) : Nat := if alongCols then 4 * i + j / 32 else 4 * j + i / 32

/-- Exponent of a block's `BEXP` byte (R150). -/
def bexp (b : Byte) : Int := signed 8 b.toNat

/-- The value of a code of a format: integers are exact numbers, floats by R141. -/
def codeVal (f code : Nat) : Fv :=
  match f with
  | 6 => let n := signed 8 code; .fin (n < 0) n.natAbs 0
  | 7 => let n := signed 32 code; .fin (n < 0) n.natAbs 0
  | f => (fmtOf f).decode code

end Sys2Proof.Machine
end

