-- ==== Sys2Proof/Machine/Access.lean ====
section
/-! DEFINITION. Register accesses (R9 to R12, R351, R354 to R357, R396, R416, R436, R458 to R462, R465, R480): which
register an offset of a function reaches, what a read returns and clears, what a write sets. -/

namespace Sys2Proof.Machine
namespace State

/-! ## Which register -/

/-- A block answers now: nothing in Off or in reset; GEN (and a VF's copy of `GEN_ERR`) and SEC in every other state, PWR from the
ready state on, the rest in Run and Idle, and BAR4 in recovery too (R396, R416, R419). -/
def blockOpen (s : State) (o : Nat) : Bool :=
  let b := o / 0x10_0000
  s.getF F.PWR_STAT_STATE 0 ≠ 4 && !s.power.perst && (b = 0 || b = 2 || 0x600_0000 ≤ o ||
  (s.flag F.GEN_STATUS_READY 0 && (b = 1 || s.getF F.PWR_STAT_STATE 0 ≤ 1)) ||
  (s.flag F.GEN_STATUS_RECOVERY 0 && 0x400_0000 ≤ o && o < 0x410_0000))

/-- PF offset that an offset of VF `k`'s BAR0, or of its BAR4 (from 0x400_0000 up), reaches (R354, R460, R461). -/
def vfMap (s : State) (k o : Nat) : Option Nat :=
  let p := k - 1
  if o = 0x18 then some (0x600_0000 + 8 * p)
  else if o < 0x18 then some o
  else if o = 0x800 then some 0x30_0010
  else if o = 0x808 then some 0x30_0008
  else if o = 0x1000 then some (0x40_3000 + 8 * p)
  else if 0x1100 ≤ o ∧ o < 0x1200 then some (0x40_2000 + 8 * (32 * p) + (o - 0x1100))
  else if 0x1200 ≤ o ∧ o < 0x1300 then some (0x40_1008 + 0x10 * ((o - 0x1200) / 8))
  else if 0x1_0000 ≤ o ∧ o < 0x2_0000 then some (0x31_0000 + p * 0x1_0000 + (o - 0x1_0000))
  else if 0x2_0000 ≤ o ∧ o < 0x2_1000 then some (0x91_0000 + p * 0x1000 + (o - 0x2_0000))
  else if 0x2_1000 ≤ o ∧ o < 0x2_2000 then some (0xB1_0000 + p * 0x1000 + (o - 0x2_1000))
  else if 0x2_2000 ≤ o ∧ o < 0x2_3000 then some (0x51_0000 + p * 0x1000 + (o - 0x2_2000))
  else if 0x2_3000 ≤ o ∧ o < 0x2_3100 then some (0xD0_0000 + p * 0x100 + (o - 0x2_3000))
  else if o = 0xF_0000 then some (0x500_0000 + 8 * p)
  else if 0x10_0000 ≤ o ∧ o < 0x20_0000 then
    some (0x100_0000 + (32 * s.getF F.TIL_VSEL_GROUP p + (o - 0x10_0000) / 0x8000) * 0x8000 + o % 0x8000)
  else if 0x400_0000 ≤ o ∧ o < 0x402_0000 then some (0x400_0000 + 32 * p * 0x1000 + (o - 0x400_0000))
  else none

/-- PF offset an offset of a function reaches; the PF's BAR4 lies from 0x400_0000 up. -/
def mapOff (s : State) (f : Func) (o : Nat) : Option Nat :=
  match f.base with
  | .vf k => s.vfMap k o
  | .jtag => if o < 0x200_0000 then some o else none
  | _ => if o < 0x200_0000 ∨ (0x400_0000 ≤ o ∧ o < 0x410_0000) then some o else none

/-- What a function may do at a PF offset (R460, R461): nothing is shown there, reads only, reads with writes that are
logged, or everything; `shut` where a tile's cluster is not its partition's. -/
inductive Right where
  | hidden | reads | readsLogged | shut | full
deriving DecidableEq, Repr

def right (s : State) (f : Func) (o : Nat) : Right :=
  match f.base with
  | .vf k =>
    let p := k - 1
    if o < 0x18 ∨ o = 0x30_0010 ∨ o = 0x30_0008 then .reads
    else if o = 0x600_0000 + 8 * p ∨ o = 0x500_0000 + 8 * p ∨ o = 0x40_3000 + 8 * p then .full
    else if 0x40_2000 + 256 * p ≤ o ∧ o < 0x40_2000 + 256 * (p + 1) then .full
    else if 0x40_1000 ≤ o ∧ o < 0x40_1200 ∧ o % 0x10 = 8 then
      if s.getF F.DMA_MCFG_OWNER ((o - 0x40_1000) / 0x10) = p then .reads else .hidden
    else if 0x31_0000 ≤ o ∧ o < 0x39_0000 ∧ (o - 0x31_0000) / 0x1_0000 = p then .full
    else if 0x91_0000 ≤ o ∧ o < 0x91_8000 ∧ (o - 0x91_0000) / 0x1000 = p then .full
    else if 0xB1_0000 ≤ o ∧ o < 0xB1_8000 ∧ (o - 0xB1_0000) / 0x1000 = p then .full
    else if 0x51_0000 ≤ o ∧ o < 0x51_8000 ∧ (o - 0x51_0000) / 0x1000 = p then .full
    else if 0xD0_0000 ≤ o ∧ o < 0xD0_0800 ∧ (o - 0xD0_0000) / 0x100 = p then .readsLogged
    else if 0x100_0000 ≤ o ∧ o < 0x180_0000 then
      if s.hasCluster p ((o - 0x100_0000) / 0x4_0000) then .full else .shut
    else if 0x400_0000 ≤ o ∧ o < 0x410_0000 ∧ (o - 0x400_0000) / 0x2_0000 = p then .full
    else .hidden
  | .jtag => if s.flag F.SEC_STATE_DEBUG 0 then .full else .hidden
  | _ => .full

/-! ## IDE (R353) -/

def ideStream (s : State) (i : Nat) : IdeStream :=
  (s.ide.find? (·.id = i)).getD { id := i, sets := [], tx := none, stage := 0, pendingKeys := 0 }

def setIde (s : State) (x : IdeStream) : State := { s with ide := (s.ide.filter (·.id ≠ x.id)) ++ [x] }

/-- A TLP protected under a key set of a stream: the first under the set that KEY_GO installed last discards the other. -/
def settleKeys (s : State) (i k : Nat) : State :=
  let x := s.ideStream i
  if x.tx = some k && x.sets.any (·.1 ≠ k) then s.setIde { x with sets := x.sets.filter (·.1 = k) } else s

/-- A TLP that no active stream protects is discarded and counted while `IDE_REQ` is 1. -/
def unprotected (s : State) : State := if s.flag F.DMA_HCFG_IDE_REQ 0 then s.bump F.DMA_HCFG_UNPROT 0 else s

/-- What a received TLP finds: the state, and whether it is accepted. One under keys that are not installed is not. JTAG
carries no TLP. -/
def tlpIn (s : State) (f : Func) : State × Bool :=
  let under (i k : Nat) : State × Bool :=
    if (s.ideStream i).sets.any (·.1 = k) then (s.settleKeys i k, true) else (s.unprotected, false)
  match f with
  | .jtag => (s, true)
  | .pfIde i k => under i k
  | .vfIde _ i k => under i k
  | _ => (s.unprotected, !s.flag F.DMA_HCFG_IDE_REQ 0)

/-- A register command of a function: it acts where its TLP is accepted (R353), the block answers and the function may
write; a write that is refused there is logged (R465). -/
def gated (s : State) (f : Func) (o : Nat) (act : State → State) : State :=
  let (s, taken) := s.tlpIn f
  if !taken || !s.blockOpen o then s
  else match s.right f o with
    | .full => act s
    | .readsLogged => s.genErr f 1 o
    | .shut => s.genErr f 1 o
    | _ => s

/-! ## Fields -/

/-- A field lies in the bits [hi:lo] that an access reaches. -/
def inBits (f : Fld) (hi lo : Nat) : Bool := lo ≤ f.lo && f.hi ≤ hi

/-- What a write of `v` to the bits [hi:lo] makes of field `f` of word `w`, by its access type (R10). -/
def fieldWrite (f : Fld) (hi lo : Nat) (v w : Word) : Word :=
  let m := fieldMask (min f.hi hi) (max f.lo lo)
  if f.hi < lo ∨ hi < f.lo then w
  else match f.acc with
    | .rw => (w &&& ~~~ m) ||| (v &&& m)
    | .w1c => w &&& ~~~ (v &&& m)
    | .w1s => w ||| (v &&& m)
    | _ => w

/-- Writes `v` to bits [hi:lo] of the register at `o`: every field without a command of its own (R10). -/
def writeFields (s : State) (o hi lo : Nat) (v : Word) : State :=
  match regAt o with
  | none => s
  | some (r, _) =>
    s.setWord o (r.fields.foldl (fun w f => if f.own then w else fieldWrite f hi lo v w) (s.word o))

/-- The fields of a register beside the one a command is about. -/
def writeOthers (s : State) (o : Nat) (v : Word) : State := s.writeFields o 63 0 v

/-- The word as read with every RC field within the bits [hi:lo] cleared, and every field that was cleared (R10,
R480). -/
def clearRead (s : State) (o hi lo : Nat) : State :=
  match regAt o with
  | none => s
  | some (r, _) =>
    s.setWord o (r.fields.foldl (fun w f => if f.acc = .rc ∧ inBits f hi lo then putBits w f.hi f.lo 0 else w) (s.word o))

/-! ## Registers that show a list (R55, R87, R359, R409, R442) -/

/-- The header of a result window (R359). -/
def headerBytes (q : Queue) : List Byte :=
  leBytes 8 q.wStep ++ leBytes 1 q.wState ++ leBytes 1 q.wCause ++ leBytes 2 q.missed ++ leBytes 4 q.wLen ++
  leBytes 8 q.wDigest.toNat ++ leBytes 4 q.wTask ++ leBytes 36 0

/-- Eight bytes of a queue page (R357, R360). -/
def pageWord (s : State) (q o : Nat) : Word :=
  let x := s.queue q
  if o = 0x18 then s.word (0x400_0018 + 0x1000 * q)
  else if 0x40 ≤ o ∧ o < 0x80 then BitVec.ofNat 64 (leNat (((headerBytes x).drop (o - 0x40)).take 8))
  else if 0x100 ≤ o ∧ x.wState = 2 then
    BitVec.ofNat 64 (leNat ((List.range 8).map fun i =>
      if o - 0x100 + i < x.wLen then mget 0 x.payload (o - 0x100 + i) else 0))
  else 0

/-- The tile window while its sequencer is stopped by a fault (R87). -/
def tileView (s : State) (g o : Nat) : Word :=
  let t := s.tile g
  if s.getF F.TIL_STATUS_STATE g ≠ 3 then 0
  else if 0x1000 ≤ o ∧ o < 0x1100 then t.s ((o - 0x1000) / 8)
  else if 0x1100 ≤ o ∧ o < 0x1200 then
    let d := mget 0 t.dregs ((o - 0x1100) / 16)
    if o % 16 = 0 then d.setWidth 64 else (d >>> 64).setWidth 64
  else if o = 0x1200 then
    BitVec.ofNat 64 ((List.range 8).foldl (fun n i => if t.p i then n + 2 ^ i else n) 0)
  else if 0x1300 ≤ o ∧ o < 0x1400 then (mget 0 t.toks ((o - 0x1300) / 8)).setWidth 64
  else 0

/-- A field's bits of a view. -/
def bitsAt (f : Fld) (v : Nat) : Word := putBits 0 f.hi f.lo v

/-- The word at a PF offset as a read finds it. -/
def readWord (s : State) (o : Nat) : Word :=
  let ctx := (o - 0x31_0000) / 0x1_0000
  let prt := (o - 0xD0_0000) / 0x100
  if 0x400_0000 ≤ o ∧ o < 0x410_0000 then s.pageWord ((o - 0x400_0000) / 0x1000) (o % 0x1000)
  else if 0x100_0000 ≤ o ∧ o < 0x180_0000 ∧ 0x1000 ≤ o % 0x8000 then s.tileView ((o - 0x100_0000) / 0x8000) (o % 0x8000)
  else if 0x31_0000 ≤ o ∧ o < 0x39_0000 ∧ o % 0x1_0000 = 0x80 then
    match (s.part ctx).holdLog with
    | h :: _ => BitVec.ofNat 64 h.bn
    | [] => 0
  else if 0x31_0000 ≤ o ∧ o < 0x39_0000 ∧ o % 0x1_0000 = 0x88 then
    match (s.part ctx).holdLog with
    | h :: _ => bitsAt F.PLN_HOLD_INFO_ORIGIN h.origin ||| bitsAt F.PLN_HOLD_INFO_TASK h.task |||
        bitsAt F.PLN_HOLD_INFO_LENGTH (min h.len 65535) ||| bitsAt F.PLN_HOLD_INFO_CAUSE h.cause
    | [] => s.word o
  else if 0xD0_0000 ≤ o ∧ o < 0xD0_0800 ∧ o % 0x100 = 0x20 then
    match (s.part prt).frzLog with
    | z :: _ => s.word o ||| bitsAt F.PRT_FRZ_INFO_VALID 1 ||| bitsAt F.PRT_FRZ_INFO_TYPE z.type |||
        bitsAt F.PRT_FRZ_INFO_INDEX z.index ||| bitsAt F.PRT_FRZ_INFO_WRITE (if z.write then 1 else 0)
    | [] => s.word o
  else if 0xD0_0000 ≤ o ∧ o < 0xD0_0800 ∧ o % 0x100 = 0x28 then
    match (s.part prt).frzLog with
    | z :: _ => bitsAt F.PRT_FRZ_ADDR_ADDR z.addr
    | [] => 0
  else if 0xD0_0000 ≤ o ∧ o < 0xD0_0800 ∧ o % 0x100 = 0x30 then
    match (s.part prt).frzLog with
    | z :: _ => BitVec.ofNat 64 z.bn
    | [] => 0
  else if o = 0xC0_0020 then
    match s.test.elog with
    | (src, idx, cause, detail, _) :: _ => s.word o ||| bitsAt F.TST_ELOG_INFO_VALID 1 |||
        bitsAt F.TST_ELOG_INFO_SRC src ||| bitsAt F.TST_ELOG_INFO_INDEX idx ||| bitsAt F.TST_ELOG_INFO_CAUSE cause |||
        bitsAt F.TST_ELOG_INFO_DETAIL detail
    | [] => s.word o
  else if o = 0xC0_0028 then
    match s.test.elog with
    | (_, _, _, _, bn) :: _ => BitVec.ofNat 64 bn
    | [] => 0
  else match regAt o with
    | some (r, _) => if r.fields.any (·.acc = .wo) then
        r.fields.foldl (fun w f => if f.acc = .wo then putBits w f.hi f.lo 0 else w) (s.word o) else s.word o
    | none => 0

/-! ## Accesses -/

/-- An access R9 admits: 32 or 64 bits, naturally aligned. -/
def sizeOk (off size : Nat) : Bool := (size = 4 || size = 8) && off % size = 0

/-- Bits of the register that an access reaches (R9). -/
def accessBits (off size : Nat) : Nat × Nat := if size = 8 then (63, 0) else if off % 8 = 4 then (63, 32) else (31, 0)

/-- All ones of a size. -/
def allOnes (size : Nat) : Word := BitVec.ofNat 64 (2 ^ (8 * size) - 1)

/-- The PF offset an access error is recorded at. -/
def errOff (s : State) (f : Func) (off : Nat) : Nat :=
  match s.mapOff f (off - off % 8) with
  | some o => o + off % 8
  | none => off

/-- A read: what it returns goes to the outside, and RC fields wholly within it are cleared. -/
def regRead (s : State) (f : Func) (off size : Nat) : State :=
  let (s, taken) := s.tlpIn f
  if !taken then s
  else if !sizeOk off size then (s.genErr f 0 (s.errOff f off)).emit (.readData f off (allOnes size))
  else match s.mapOff f (off - off % 8) with
    | none => s.emit (.readData f off 0)
    | some o =>
      if !s.blockOpen o then s.emit (.readData f off (allOnes size))
      else match s.right f o with
        | .hidden => s.emit (.readData f off 0)
        | .shut => s.emit (.readData f off 0)
        | _ =>
          let (hi, lo) := accessBits off size
          let v := BitVec.ofNat 64 (getBits (s.readWord o) hi lo)
          (s.clearRead o hi lo).emit (.readData f off v)

/-- The beat tree around a master: the upstream port is its route's (R24). -/
def upstreamOf (s : State) (m : Nat) : State :=
  { s.putF F.PLN_BEAT_STATUS_UPSTREAM 0 (s.routeIn m) with altUpstream := none }

/-- The master by configuration: this module is it, or follows it (R23). -/
def masterByCfg (s : State) : State :=
  let m := s.getF F.PLN_BEAT_CFG_MASTER_POS 0
  let s := { s.putF F.PLN_BEAT_STATUS_CUR_MASTER 0 m with lostMaster := none }
  (s.putF F.PLN_BEAT_STATUS_IS_MASTER 0 (if m = s.pos then 1 else 0)).upstreamOf m

/-! ## Beat sources (R20, R21) -/

/-- The source automatic selection takes: fabric if a trained port receives markers, then the reference, then the crystal
(R20). -/
def pickSource (s : State) : Nat :=
  if (List.range 6).any (fun k => s.getF F.FAB_PSTAT_STATE k = 5 && 0 < (s.port k).good) then 1 else if s.refPresent then 2 else 3

/-- The selected source is there (R20). -/
def sourcePresent (s : State) (c : Nat) : Bool := match c with
  | 1 => (List.range 6).any fun k => s.getF F.FAB_PSTAT_STATE k = 5 && 0 < (s.port k).good
  | 2 => s.refPresent
  | _ => true

/-- Enters holdover (R21). -/
def enterHoldover (s : State) : State :=
  if s.flag F.PLN_BEAT_STATUS_HOLDOVER 0 then s
  else { (s.putF F.PLN_BEAT_STATUS_HOLDOVER 0 1) with holdoverBeats := 0, electionBeats := 0, retake := true }

/-- The edge slews toward an edge `d` cycles away (R21). -/
def slewTo (s : State) (d : Int) : State := { s with slew := d }

/-- `SRC` selects another source: it is taken if it is there, its edge being somewhere within the beat where the state does
not know it (assumption 2); a source that is not there is a lost one. The master keeps its own (R20, R21). -/
def selectSource (s : State) : State :=
  let c := s.getF F.PLN_BEAT_CFG_SRC 0
  let c := if c = 0 then s.pickSource else c
  if c = s.getF F.PLN_BEAT_STATUS_SRC_ACTIVE 0 ∨ (c = 1 ∧ s.flag F.PLN_BEAT_STATUS_IS_MASTER 0) then s
  else
    let s := s.putF F.PLN_BEAT_STATUS_SRC_ACTIVE 0 c
    if !s.sourcePresent c then s.enterHoldover
    else if c = 2 then let (v, s) := s.fresh; s.slewTo ((v % 1024 : Nat) - 512)
    else s

/-- `PENDING`: some word of a shadow wheel differs from the active one (R228). -/
def wheelDiffers (active : List (Nat × Word)) (word : Nat → Word) : Nat :=
  if (List.range 16).any fun i => word i ≠ mget 0 active i then 1 else 0

/-- What follows from a write to a register of no own command: another `MASTER_POS` names another master (R23, R26), another
`SRC` selects another source (R20), clearing `VALID` clears the marks beside it (R89), and a wheel word is pending (R218, R407). `old` is the state before
the write. -/
def afterWrite (old s : State) (o : Nat) : State :=
  if o = 0x30_0000 then
    let s := if s.getF F.PLN_BEAT_CFG_MASTER_POS 0 = old.getF F.PLN_BEAT_CFG_MASTER_POS 0 then s else s.masterByCfg
    if s.getF F.PLN_BEAT_CFG_SRC 0 = old.getF F.PLN_BEAT_CFG_SRC 0 then s else s.selectSource
  else if 0x100_0000 ≤ o ∧ o < 0x180_0000 ∧ o % 0x8000 = 0x10 then
    let g := (o - 0x100_0000) / 0x8000
    if s.flag F.TIL_FAULT_VALID g then s else (s.putF F.TIL_FAULT_MORE g 0).putF F.TIL_FAULT_REPEAT g 0
  else if 0x70_0000 ≤ o ∧ o < 0x70_8000 ∧ 0x100 ≤ o % 0x1000 ∧ o % 0x1000 < 0x180 then
    let k := (o - 0x70_0000) / 0x1000
    s.putF F.MEM_REG_CTRL_PENDING k (wheelDiffers (s.unit k).active fun i => s.word (F.MEM_WHEEL_OWNERS.off (16 * k + i)))
  else if 0x80_0000 ≤ o ∧ o < 0x80_C000 ∧ 0x100 ≤ o % 0x1000 ∧ o % 0x1000 < 0x180 then
    let k := (o - 0x80_0000) / 0x1000
    s.putF F.UMB_REG_CTRL_PENDING k (wheelDiffers (s.unit (8 + k)).active fun i => s.word (F.UMB_WHEEL_OWNERS.off (16 * k + i)))
  else if 0xD2_0000 ≤ o ∧ o < 0xD2_0300 then
    let k := (o - 0xD2_0000) / 0x80
    s.putF F.PRT_FREG_CTRL_PENDING k (wheelDiffers (s.port k).active fun i => s.word (F.PRT_FWHEEL_OWNERS.off (16 * k + i)))
  else s

end State

/-- A read returns the register, and clears each RC field that lies wholly within the bits returned (R10, R480). -/
def execRcFieldRead (f : Func) (off size : Nat) (s : State) : Res := .next (s.regRead f off size)

end Sys2Proof.Machine
end

