-- ==== Sys2Proof/Machine/Array.lean ====
section
/-! DEFINITION. What a matrix array computes (R90 to R99, R146, R151): the product accumulated group by group, and the
moves of a bank to and from a block. Bytes are read through a function of the cycle and the address. -/

namespace Sys2Proof.Machine

/-- How an operand of a multiply is read: K along its element columns (a skewed column at a time), or along its
element rows (a line at a time) (R98). -/
def operandVal (mem : Nat → Nat → Byte) (t r2 : Nat) (d : Desc) (base : Nat) (alongCols : Bool) (x k : Nat) : Fv :=
  let f := dFmt d
  let b := k / 128
  let kk := k % 128
  let (i, j) := if alongCols then (x, kk) else (kk, x)
  -- a 1 × k strip is numbered by block column, a k × 1 strip by block row: both are the vector view's order
  let a := base + blockOff d b
  let cyc := t + k * r2 / 2
  let cyc0 := t + 128 * b * r2 / 2
  let v := codeVal f (codeAt (mem cyc) f a (storePos i j))
  let e := dSexp d + (if dBS d then bexp (mem cyc0 (a + 16384)) else 0)
  if f = 5 then
    let sb := (mem cyc0 (a + 8192 + scaleIdx alongCols i j)).toNat
    if sb = 255 then .nan else v.scale (e + sb - 127)
  else v.scale e

/-- Twice the cycles per K position: 2 for 8-bit formats, 4 for 16-bit ones and 1 for FP4 (R76). -/
def rate2 (f : Nat) : Nat := if f = 5 then 1 else if f = 1 ∨ f = 2 then 4 else 2

/-- The accumulation of R91 over the groups of one cell. -/
def accumulate (acc : W32) (groups : List (List Fv)) : W32 :=
  groups.foldl (fun a g => fadd a (rne32 (groupSum g))) acc

/-- INT32 addition with saturation, and whether it saturated (R94). -/
def satAdd32 (a b : Int) : Int × Nat :=
  let s := a + b
  if s < -2 ^ 31 then (-2 ^ 31, 1) else if 2 ^ 31 - 1 < s then (2 ^ 31 - 1, 1) else (s, 0)

/-- The INT8 accumulation of R94 over the groups of one cell. -/
def accumulateInt (acc : W32) (groups : List (List Fv)) : W32 × Nat :=
  let r := groups.foldl (fun (a : Int × Nat) g =>
    let (v, n) := satAdd32 a.1 ((g.foldl (fun s x => Dy.add s x.dy) Dy.zero).rneInt)
    (v, a.2 + n)) (acc.toInt, 0)
  (BitVec.ofInt 32 r.1, r.2)

/-- Element (i, j) of a bank. -/
def Bank.cell (b : Bank) (i j : Nat) : W32 := mget 0 b.cells (128 * i + j)

/-- A bank from its elements, with the saturations of its chain so far. -/
def mkBank (ty : Option BankTy) (sat : Nat) (f : Nat → Nat → W32) : Bank :=
  { ty := ty, sat := sat, cells := (List.range 16384).filterMap fun q =>
      let v := f (q / 128) (q % 128)
      if v = 0 then none else some (q, v) }

/-- Operand axes of the three products: K along element columns of A, and of B (R98). -/
def mulAxes (m : MulMode) : Bool × Bool :=
  match m with
  | .mul => (true, false)
  | .multA => (false, false)
  | .multB => (true, true)

/-- Blocks along K of an operand strip. -/
def stripLen (d : Desc) : Nat := dRows d * dCols d

/-- The bank after a multiply issued in cycle `t`, with the INT32 additions of its chain that saturated (R91 to R95,
R484). -/
def multiply (mem : Nat → Nat → Byte) (t g : Nat) (m : MulMode) (z : Bool) (da db : Desc) (b : Bank) : Bank :=
  let isInt := dFmt da = 6
  let ty := if isInt then BankTy.int32 else .fp32
  let r2 := rate2 (dFmt da)
  let ax := mulAxes m
  let n := 128 * stripLen da
  let av := (List.range 128).toArray.map fun i =>
    (List.range n).toArray.map fun k => operandVal mem t r2 da (devAddr g (dBase da)) ax.1 i k
  let bv := (List.range 128).toArray.map fun j =>
    (List.range n).toArray.map fun k => operandVal mem t r2 db (devAddr g (dBase db)) ax.2 j k
  let groups (i j : Nat) : List (List Fv) :=
    (List.range (n / 32)).map fun q => (List.range 32).map fun x =>
      (((av.getD i #[]).getD (32 * q + x) .nan)).mul (((bv.getD j #[]).getD (32 * q + x) .nan))
  let start (i j : Nat) : W32 := if z then 0 else b.cell i j
  let sat := if z then 0 else b.sat
  if isInt then
    let all := (List.range 16384).map fun q => accumulateInt (start (q / 128) (q % 128)) (groups (q / 128) (q % 128))
    let arr := all.toArray
    mkBank (some ty) (all.foldl (fun n x => n + x.2) sat) fun i j => (arr.getD (128 * i + j) (0, 0)).1
  else mkBank (some ty) sat fun i j => accumulate (start i j) (groups i j)

/-- The bank `mx.ld` makes of a block at issue (R69). -/
def loadBank (rd : Nat → Byte) (g : Nat) (d : Desc) : Bank :=
  let a := devAddr g (dBase d)
  mkBank (some (if dFmt d = 7 then .int32 else .fp32)) 0 fun i j =>
    BitVec.ofNat 32 (codeAt rd (dFmt d) a (storePos i j))

/-- The bytes of a block's codes in storage order. -/
def packCodes (f : Nat) : List Nat → List Byte
  | [] => []
  | c :: cs => leBytes (elemBytes f) c ++ packCodes f cs

/-- A conversion exponent and its trailer's validity (R151): `SEXP` plus the trailer's `BEXP`, or `SEXP` alone when the
trailer holds a reserved value or an exponent out of range. -/
def trailerExp (tr : List Byte) : Int × Bool :=
  let e := bexp (tr.getD 0 0)
  let o := (tr.getD 1 0).toNat
  let bad := (4 ≤ o && o < 0x80) || tr.getD 2 0 ≠ 0 || tr.getD 3 0 ≠ 0 || (tr.drop 16).any (· ≠ 0) || e < -112 || 112 < e
  if bad then (0, false) else (e, true)

/-- What a store of a bank to a block writes: the bytes, and how many elements saturated (R69, R146, R151). `tr` is the
destination trailer as it stands at issue. -/
def storeBank (g : Nat) (d : Desc) (b : Bank) (tr : List Byte) : List (Nat × List Byte) × Nat :=
  let a := devAddr g (dBase d)
  let f := dFmt d
  let vals := (List.range 16384).map fun q => let i := q / 128; b.cell i ((q % 128 + 128 - i % 128) % 128)
  if b.ty = some .int32 then
    if f = 7 then ([(a, packCodes 7 (vals.map (·.toNat)))], 0)
    else
      let cs := vals.map fun v =>
        let n := v.toInt
        if n < -128 then (0x80, 1) else if 127 < n then (0x7F, 1) else ((n % 256).toNat, 0)
      ([(a, packCodes 6 (cs.map (·.1)))], cs.foldl (fun n c => n + c.2) 0)
  else if f = 0 then ([(a, packCodes 0 (vals.map (·.toNat)))], 0)
  else
    let (be, ok) := if dBS d then trailerExp tr else (0, true)
    let cs := vals.map fun v => (fmtOf f).convert .sat ((f32v v).scale (- (dSexp d + be)))
    let sat := cs.foldl (fun n c => if c.2 then n + 1 else n) 0
    let body := (a, packCodes f (cs.map (·.1)))
    if dBS d then
      let t := [(a + 16384 + 4, leBytes 4 (amax vals).toNat ++ leBytes 4 sat)]
      let o := if ok then [] else [(a + 16384 + 1, [(1 : Byte)])]
      (body :: t ++ o, sat)
    else ([body], sat)

end Sys2Proof.Machine
end

