-- ==== Sys2Proof/Machine/Flags.lean ====
section
/-! DEFINITION. Predicates: guards, comparisons and the flag bytes (R58, R72, R136). -/

namespace Sys2Proof.Machine

/-- The guard of a word at issue (R58). -/
def guardOk (t : Tile) (w : Word) : Bool := if wGN w then !t.p (wGP w) else t.p (wGP w)

def cmpEqF (a b : Word) : Bool := a = b
def cmpNeF (a b : Word) : Bool := a ≠ b
/-- Signed below. -/
def cmpLtF (a b : Word) : Bool := a.slt b
/-- Unsigned below. -/
def cmpLtuF (a b : Word) : Bool := a.ult b

/-- A flag byte: bit 0 EMPTY, bit 1 NAN (R136). -/
def flagByte (empty nan : Bool) : Byte := (if empty then 1 else 0) + (if nan then 2 else 0)

/-- A token wait is satisfied: the counter has reached `imm` modulo 2^16 (R78). -/
def tokReached (counter : BitVec 16) (imm : Nat) : Bool := (counter - BitVec.ofNat 16 imm).toNat < 32768

end Sys2Proof.Machine
end

