-- ==== Sys2Proof/Machine/Func.lean ====
section
/-! DEFINITION. The correctly rounded functions of R125 and R127: the exact real value is enclosed in an interval of
fixed-point numbers, and the precision doubles until both ends round to one FP32 value. Exact results and results
beyond the range are decided first. -/

namespace Sys2Proof.Machine

/-- An interval of fixed-point numbers: `lo` and `hi` count steps of 2^−P. -/
abbrev Iv := Int × Int

/-- n/2^k rounded down, and up. -/
def sdn (n : Int) (k : Nat) : Int := n / 2 ^ k
def sup (n : Int) (k : Nat) : Int := - ((- n) / 2 ^ k)

def cdiv (n d : Int) : Int := - ((- n) / d)

namespace Iv

def add (a b : Iv) : Iv := (a.1 + b.1, a.2 + b.2)
def neg (a : Iv) : Iv := (- a.2, - a.1)
def sub (a b : Iv) : Iv := (a.1 - b.2, a.2 - b.1)

/-- Product at precision P. -/
def mul (P : Nat) (a b : Iv) : Iv :=
  let x := a.1 * b.1
  let y := a.1 * b.2
  let z := a.2 * b.1
  let w := a.2 * b.2
  (sdn (min (min x y) (min z w)) P, sup (max (max x y) (max z w)) P)

/-- Quotient by a positive interval. -/
def div (P : Nat) (a b : Iv) : Iv :=
  let n1 := a.1 * 2 ^ P
  let n2 := a.2 * 2 ^ P
  (min (n1 / b.1) (n1 / b.2), max (cdiv n2 b.1) (cdiv n2 b.2))

/-- A dyadic number at precision P. -/
def ofDy (P : Nat) (d : Dy) : Iv :=
  let k := d.e + P
  if 0 ≤ k then (d.m * 2 ^ k.toNat, d.m * 2 ^ k.toNat) else (sdn d.m (- k).toNat, sup d.m (- k).toNat)

/-- A rational number at precision P. -/
def ofRat (P : Nat) (n d : Int) : Iv := ((n * 2 ^ P) / d, cdiv (n * 2 ^ P) d)

/-- One. -/
def one (P : Nat) : Iv := (2 ^ P, 2 ^ P)

/-- Root of a non-negative interval. -/
def sqrt (P : Nat) (a : Iv) : Iv :=
  (isqrt (a.1.toNat * 2 ^ P), isqrt (a.2.toNat * 2 ^ P) + 1)

/-- Half. -/
def half (a : Iv) : Iv := (sdn a.1 1, sup a.2 1)

/-- Σ of z^(2i+1)/(2i+1), signs alternating when `alt`, from the term `t` = z^(2i+1); `n` terms at most. -/
def atanGo (P : Nat) (z2 : Iv) (alt : Bool) : Nat → Nat → Iv → Iv → Iv
  | 0, _, _, acc => acc
  | n + 1, i, t, acc =>
    let k : Int := 2 * i + 1
    let q : Iv := (t.1 / k, cdiv t.2 k)
    let acc' := if alt ∧ i % 2 = 1 then sub acc q else add acc q
    -- the tail is below twice the next term
    if t.2 ≤ 1 ∧ - 1 ≤ t.1 then (acc'.1 - 2, acc'.2 + 2) else atanGo P z2 alt n (i + 1) (mul P t z2) acc'

/-- atanh z for |z| ≤ 1/3. -/
def atanh (P : Nat) (z : Iv) : Iv := atanGo P (mul P z z) false (2 * P) 0 z (0, 0)

/-- atan (1/k). -/
def atanInv (P : Nat) (k : Int) : Iv :=
  let z := ofRat P 1 k
  atanGo P (mul P z z) true (2 * P) 0 z (0, 0)

/-- ln 2. -/
def ln2 (P : Nat) : Iv := let a := atanh P (ofRat P 1 3); (2 * a.1, 2 * a.2)

/-- π, by Machin's formula. -/
def pi (P : Nat) : Iv :=
  let a := atanInv P 5
  let b := atanInv P 239
  (16 * a.1 - 4 * b.2, 16 * a.2 - 4 * b.1)

/-- Σ r^n/n! from the term t = r^i/i!. -/
def expGo (P : Nat) (r : Iv) : Nat → Nat → Iv → Iv → Iv
  | 0, _, _, acc => acc
  | n + 1, i, t, acc =>
    let acc' := add acc t
    if t.2 ≤ 1 then (acc'.1 - 2, acc'.2 + 2)
    else
      let p := mul P t r
      expGo P r n (i + 1) (p.1 / (i + 1 : Nat), cdiv p.2 (i + 1 : Nat)) acc'

/-- e^x for a fixed-point x: x = k·ln 2 + r with r in [−1, 1]. -/
def expPt (P : Nat) (x : Int) : Iv :=
  let l := ln2 P
  let k := x / l.2
  let r : Iv := if 0 ≤ k then (x - k * l.2, x - k * l.1) else (x - k * l.1, x - k * l.2)
  let r : Iv := (max r.1 0, max r.2 0)
  let s := expGo P r (2 * P) 0 (one P) (0, 0)
  if 0 ≤ k then (s.1 * 2 ^ k.toNat, s.2 * 2 ^ k.toNat) else (sdn s.1 (- k).toNat, sup s.2 (- k).toNat)

/-- e^x. -/
def exp (P : Nat) (x : Iv) : Iv := ((expPt P x.1).1, (expPt P x.2).2)

/-- ln of a positive dyadic number. -/
def lnDy (P : Nat) (d : Dy) : Iv :=
  let L : Int := Nat.log2 d.m.natAbs
  -- d = 2^k·u with u in [1, 2)
  let k := L + d.e
  -- (u − 1)/(u + 1), exact as a rational number
  let n : Int := d.m - 2 ^ L.toNat
  let m : Int := d.m + 2 ^ L.toNat
  let a := atanh P (ofRat P n m)
  let l := ln2 P
  let kl : Iv := if 0 ≤ k then (k * l.1, k * l.2) else (k * l.2, k * l.1)
  add kl (2 * a.1, 2 * a.2)

/-- ln of a positive interval. -/
def ln (P : Nat) (a : Iv) : Iv :=
  if a.1 ≤ 0 then (- (2 ^ P * (P + 1)), (lnDy P ⟨a.2, - P⟩).2) else ((lnDy P ⟨a.1, - P⟩).1, (lnDy P ⟨a.2, - P⟩).2)

/-- Σ of t_n with t_0 = x and t_{n+1} = t_n·2x²/(2n + 3). -/
def erfGo (P : Nat) (y : Iv) : Nat → Nat → Iv → Iv → Iv
  | 0, _, _, acc => acc
  | n + 1, i, t, acc =>
    let acc' := add acc t
    let p := mul P t y
    let t' : Iv := (p.1 / (2 * i + 3 : Nat), cdiv p.2 (2 * i + 3 : Nat))
    -- past 2x² < i the terms at least halve
    if t.2 ≤ 1 ∧ y.2 < (i : Int) * 2 ^ P then (acc'.1, acc'.2 + 4) else erfGo P y n (i + 1) t' acc'

/-- 2/√π. -/
def twoRpi (P : Nat) : Iv := div P (2 * 2 ^ P, 2 * 2 ^ P) (sqrt P (pi P))

/-- erf x for a fixed-point x ≥ 0. -/
def erfPt (P : Nat) (x : Int) : Iv :=
  let xx : Iv := (x, x)
  let sq := mul P xx xx
  let s := erfGo P (2 * sq.1, 2 * sq.2) (8 * P) 0 xx (0, 0)
  mul P (twoRpi P) (mul P (exp P (neg sq)) s)

/-- erf x. -/
def erf (P : Nat) (x : Iv) : Iv :=
  let f (v : Int) : Iv := if 0 ≤ v then erfPt P v else neg (erfPt P (- v))
  ((f x.1).1, (f x.2).2)

/-- tanh x = 1 − 2/(e^{2x} + 1) for x ≥ 0, odd. -/
def tanhPt (P : Nat) (x : Int) : Iv :=
  let f (v : Int) : Iv :=
    let d := add (expPt P (2 * v)) (one P)
    sub (one P) (div P (2 * 2 ^ P, 2 * 2 ^ P) d)
  if 0 ≤ x then f x else neg (f (- x))

def tanh (P : Nat) (x : Iv) : Iv := ((tanhPt P x.1).1, (tanhPt P x.2).2)

/-- 1/(1 + e^{−x}). -/
def sigmoid (P : Nat) (x : Iv) : Iv := div P (one P) (add (one P) (exp P (neg x)))

/-- An interval end as a value. -/
def fv (P : Nat) (n : Int) (negZero : Bool) : Fv := if n = 0 then .fin negZero 0 0 else .fin (n < 0) n.natAbs (- P)

end Iv

/-- The FP32 value nearest a real number enclosed by `f P`, at precisions P, 2P, … until both ends agree. -/
def ziv (f : Nat → Iv) : Nat → Nat → W32
  | 0, P => rne32 (Iv.fv P (f P).1 false)
  | n + 1, P =>
    let v := f P
    let a := rne32 (Iv.fv P v.1 (v.2 ≤ 0))
    let b := rne32 (Iv.fv P v.2 (v.2 ≤ 0))
    if a = b then a else ziv f n (2 * P)

/-- The correctly rounded value of a real function whose value is no rounding boundary. -/
def rounded (f : Nat → Iv) : W32 := ziv f 6 192

/-- The lane faults of R131. -/
structure LaneEv where
  invalid  : Nat
  divzero  : Nat
  overflow : Nat
  sat      : Nat
deriving DecidableEq, Repr

def LaneEv.none : LaneEv := ⟨0, 0, 0, 0⟩

def LaneEv.add (a b : LaneEv) : LaneEv :=
  ⟨a.invalid + b.invalid, a.divzero + b.divzero, a.overflow + b.overflow, a.sat + b.sat⟩

def evInvalid : LaneEv := ⟨1, 0, 0, 0⟩
def evDivzero : LaneEv := ⟨0, 1, 0, 0⟩
def evOverflow : LaneEv := ⟨0, 0, 1, 0⟩
def evSat : LaneEv := ⟨0, 0, 0, 1⟩

/-- x·Φ(x) and the inner pieces of the functions of R125. -/
def ivPhi (P : Nat) (x : Iv) : Iv :=
  let r2 := Iv.sqrt P (2 * 2 ^ P, 2 * 2 ^ P)
  -- 0.5·(1 + erf (x/√2)); x/√2 = x·√2/2
  Iv.half (Iv.add (Iv.one P) (Iv.erf P (Iv.half (Iv.mul P x r2))))

/-- √(2/π). -/
def ivR2Pi (P : Nat) : Iv := Iv.sqrt P (Iv.div P (2 * 2 ^ P, 2 * 2 ^ P) (Iv.pi P))

/-- √(2/π)·(x + 0.044715·x³). -/
def ivTanhArg (P : Nat) (x : Iv) : Iv :=
  let x3 := Iv.mul P x (Iv.mul P x x)
  Iv.mul P (ivR2Pi P) (Iv.add x (Iv.mul P (Iv.ofRat P 44715 1000000) x3))

/-- ln(1 + e^x). -/
def ivSoftplus (P : Nat) (x : Iv) : Iv := Iv.ln P (Iv.add (Iv.one P) (Iv.exp P x))

/-- The sign of an exponent comparison: |d| ≥ k. -/
def absGe (d : Dy) (k : Int) : Bool := Dy.le ⟨k, 0⟩ ⟨d.m.natAbs, d.e⟩

/-- A FUNC result and its lane faults; a finite result of the range's end is ±∞ with OVERFLOW (R125). -/
def ovf (w : W32) : W32 × LaneEv := (w, if isInf w then evOverflow else .none)

/-- e^x of a finite number. -/
def expFin (d : Dy) : W32 :=
  if d.m = 0 then one32
  else if absGe d 106 then (if d.m < 0 then 0 else pinf)
  else rounded fun P => Iv.exp P (Iv.ofDy P d)

/-- ln of a positive finite number. -/
def lnFin (d : Dy) : W32 :=
  if d = ⟨1, 0⟩ ∨ Dy.add d ⟨-1, 0⟩ = .zero ∨ (Dy.add d ⟨-1, 0⟩).m = 0 then 0
  else rounded fun P => Iv.lnDy P d

/-- The integer a dyadic number is, if it is one. -/
def Dy.int? (d : Dy) : Option Int :=
  if 0 ≤ d.e then some (d.m * 2 ^ d.e.toNat)
  else if d.m % 2 ^ (- d.e).toNat = 0 then some (d.m / 2 ^ (- d.e).toNat) else none

/-- The functions at a finite operand other than a zero (R125). -/
def funcFin (op : Nat) (d : Dy) (x : W32) : W32 × LaneEv :=
  let sgn (w : W32) : W32 := if d.m < 0 then fneg w else w
  match op with
  | 1 => ovf (fdiv one32 x)
  | 2 => if d.m < 0 then (qnan, evInvalid) else (fsqrt x, .none)
  | 3 => if d.m < 0 then (qnan, evInvalid)
      else match sqrtFv d.m.natAbs d.e with
        | .fin _ m e => (rne32 (ratFv false 1 m (- e)), .none)
        | _ => (qnan, .none)
  | 4 => ovf (expFin d)
  | 5 => match d.int? with
      | some k => ovf (if k < -150 then 0 else if 128 ≤ k then pinf else rne32 (pow2 k))
      | none =>
        if absGe d 151 then (if d.m < 0 then (0, .none) else (pinf, evOverflow))
        else ovf (rounded fun P => Iv.exp P (Iv.mul P (Iv.ofDy P d) (Iv.ln2 P)))
  | 6 => if d.m < 0 then (qnan, evInvalid) else (lnFin d, .none)
  | 7 => if d.m < 0 then (qnan, evInvalid)
      else
        let L := Nat.log2 d.m.natAbs
        if d.m = 2 ^ L then (intToF32 (L + d.e), .none)
        else (rounded fun P => Iv.div P (Iv.lnDy P d) (Iv.ln2 P), .none)
  | 8 =>
      let y := Dy.add ⟨1, 0⟩ d
      if y.m = 0 then (ninf, evDivzero) else if y.m < 0 then (qnan, evInvalid)
      else (rounded fun P => Iv.lnDy P y, .none)
  | 9 => (if absGe d 16 then sgn one32 else rounded fun P => Iv.tanh P (Iv.ofDy P d), .none)
  | 10 => (if absGe d 106 then (if d.m < 0 then 0 else one32) else rounded fun P => Iv.sigmoid P (Iv.ofDy P d), .none)
  | 11 => (if absGe d 8 then sgn one32 else rounded fun P => Iv.erf P (Iv.ofDy P d), .none)
  | 12 => (if absGe d 16 then (if d.m < 0 then 0x80000000 else x)
      else rounded fun P => Iv.mul P (Iv.ofDy P d) (ivPhi P (Iv.ofDy P d)), .none)
  | 13 => (if absGe d 16 then (if d.m < 0 then 0x80000000 else x)
      else rounded fun P =>
        let v := Iv.ofDy P d
        Iv.half (Iv.mul P v (Iv.add (Iv.one P) (Iv.tanh P (ivTanhArg P v)))), .none)
  | 14 => (if absGe d 128 then (if d.m < 0 then 0x80000000 else x)
      else rounded fun P => Iv.mul P (Iv.ofDy P d) (Iv.sigmoid P (Iv.ofDy P d)), .none)
  | _ => (if absGe d 128 then (if d.m < 0 then 0 else x) else rounded fun P => ivSoftplus P (Iv.ofDy P d), .none)

/-- A FUNC operation with its lane faults (R125, R131). -/
def func (op : Nat) (x : W32) : W32 × LaneEv :=
  match f32v x with
  | .nan => (qnan, .none)
  | .inf false => (match op with
      | 1 => 0 | 3 => 0 | 9 => one32 | 10 => one32 | 11 => one32 | _ => pinf, .none)
  | .inf true => match op with
      | 1 => (0x80000000, .none)
      | 2 => (qnan, evInvalid)
      | 3 => (qnan, evInvalid)
      | 4 => (0, .none)
      | 5 => (0, .none)
      | 6 => (qnan, evInvalid)
      | 7 => (qnan, evInvalid)
      | 8 => (qnan, evInvalid)
      | 9 => (fneg one32, .none)
      | 10 => (0, .none)
      | 11 => (fneg one32, .none)
      | 15 => (0, .none)
      | _ => (0x80000000, .none)
  | .fin neg m e =>
    if m = 0 then match op with
      | 1 => (if neg then ninf else pinf, evDivzero)
      | 3 => (if neg then ninf else pinf, evDivzero)
      | 4 => (one32, .none)
      | 5 => (one32, .none)
      | 6 => (ninf, evDivzero)
      | 7 => (ninf, evDivzero)
      | 10 => (0x3F000000, .none)
      | 15 => (rounded Iv.ln2, .none)
      | _ => (x, .none)
    else funcFin op (Fv.fin neg m e).dy x

/-- The f′ terms of the DERIV operations on the saved value x: gelu′, gelu_tanh′, silu′ and (2/√π)·e^(−x²) (R127). -/
def dfun (op : Nat) (x : W32) : W32 :=
  match f32v x with
  | .nan => qnan
  | .inf neg => if op = 7 then 0 else if neg then 0x80000000 else one32
  | .fin neg m e =>
    let d := (Fv.fin neg m e).dy
    let far (k : Int) (f : Nat → Iv) : W32 :=
      if d.m = 0 then 0x3F000000
      else if absGe d k then (if d.m < 0 then 0x80000000 else one32) else rounded f
    let half2 (P : Nat) (x : Iv) : Iv := Iv.half (Iv.mul P x x)
    match op with
    | 4 => far 20 fun P =>
        let v := Iv.ofDy P d
        -- Φ(x) + x·e^(−x²/2)/√(2π), with 1/√(2π) = √(2/π)/2
        Iv.add (ivPhi P v)
          (Iv.mul P v (Iv.mul P (Iv.half (ivR2Pi P)) (Iv.exp P (Iv.neg (half2 P v)))))
    | 5 => far 16 fun P =>
        let v := Iv.ofDy P d
        let t := Iv.tanh P (ivTanhArg P v)
        let du := Iv.mul P (ivR2Pi P)
          (Iv.add (Iv.one P) (Iv.mul P (Iv.ofRat P (3 * 44715) 1000000) (Iv.mul P v v)))
        Iv.half (Iv.add (Iv.add (Iv.one P) t)
          (Iv.mul P v (Iv.mul P (Iv.sub (Iv.one P) (Iv.mul P t t)) du)))
    | 6 => far 128 fun P =>
        let v := Iv.ofDy P d
        let s := Iv.sigmoid P v
        Iv.mul P s (Iv.add (Iv.one P) (Iv.mul P v (Iv.sub (Iv.one P) s)))
    | _ =>
        if absGe d 11 then 0
        else rounded fun P =>
          let v := Iv.ofDy P d
          Iv.mul P (Iv.twoRpi P) (Iv.exp P (Iv.neg (Iv.mul P v v)))

end Sys2Proof.Machine
end

