-- ==== Sys2Proof/Machine/Chain.lean ====
section
/-! DEFINITION. What a vector chain computes (R112 to R139): the stream, the stages, the reductions, the softmax rows
and the conversion into the destination. -/

namespace Sys2Proof.Machine

/-! ## Chain table entries (R118 to R122) -/

def eB (e : List Byte) (o : Nat) : Nat := (e.getD o 0).toNat
def eN (e : List Byte) (o n : Nat) : Nat := leNat ((e.drop o).take n)

def eStages (e : List Byte) : Nat := eB e 0
def eBmode (e : List Byte) : Nat := natBits (eB e 1) 1 0
def eMmode (e : List Byte) : Nat := natBits (eB e 1) 3 2
def eMfill (e : List Byte) : Bool := natBits (eB e 1) 4 4 = 1
def eQax (e : List Byte) : Bool := natBits (eB e 1) 5 5 = 1
def eCvt (e : List Byte) : Nat := natBits (eB e 2) 1 0
def eFlag (e : List Byte) : Nat := eN e 4 4
def eTensor (e : List Byte) : Nat := eN e 8 4

/-- A stage of an entry (R119). -/
structure Stage where
  typ  : Nat
  op   : Nat
  in1  : Nat
  in2  : Nat
  in3  : Nat
  axis : Nat
  cont : Bool
  k0   : W32
  k1   : W32
deriving DecidableEq, Repr

def eStage (e : List Byte) (k : Nat) : Stage :=
  let o := 0x20 + 28 * k
  let i := eN e (o + 2) 2
  { typ := eB e o, op := eB e (o + 1), in1 := natBits i 2 0, in2 := natBits i 5 3, in3 := natBits i 8 6,
    axis := natBits (eB e (o + 4)) 1 0, cont := natBits (eB e (o + 4)) 2 2 = 1,
    k0 := BitVec.ofNat 32 (eN e (o + 8) 4), k1 := BitVec.ofNat 32 (eN e (o + 12) 4) }

def eAll (e : List Byte) : List Stage := (List.range (eStages e)).map (eStage e)

/-- Operands an operation uses; none where the type has no such operation (R122 to R139). -/
def opArity (typ op : Nat) : Option Nat :=
  match typ with
  | 1 => if op = 4 ∨ op = 10 ∨ op = 11 then some 3
      else if op = 8 ∨ op = 9 ∨ op = 13 then some 1
      else if 1 ≤ op ∧ op ≤ 12 then some 2 else none
  | 2 => if 1 ≤ op ∧ op ≤ 15 then some 1 else none
  | 3 => if 1 ≤ op ∧ op ≤ 9 then some 2 else none
  | 4 => if 0x11 ≤ op ∧ op ≤ 0x15 then some 1 else none
  | 5 => if op = 10 then some 2 else if 1 ≤ op ∧ op ≤ 9 then some 1 else none
  | 6 => if 1 ≤ op ∧ op ≤ 5 then some 1 else none
  | _ => none

/-- Row stages (R121). -/
def isRow (s : Stage) : Bool := s.typ = 6 || (s.typ = 3 && (s.op = 8 || s.op = 9))

def zeros (e : List Byte) (o n : Nat) : Bool := ((e.drop o).take n).all (· = 0)

/-- A stage breaks R119 to R122. -/
def stageBad (e : List Byte) (k : Nat) : Bool :=
  let s := eStage e k
  let o := 0x20 + 28 * k
  (match opArity s.typ s.op with
    | none => true
    | some n => 4 < s.in1 || 4 < s.in2 || 4 < s.in3 || (n < 2 && s.in2 ≠ 0) || (n < 3 && s.in3 ≠ 0)) ||
  natBits (eN e (o + 2) 2) 15 9 ≠ 0 || natBits (eB e (o + 4)) 7 3 ≠ 0 || !zeros e (o + 5) 3 ||
  !zeros e (o + 16) 12 || (s.typ = 5 && s.axis = 3)

/-- An entry fails the checks of R118 to R121 that depend on no descriptor (R117). -/
def entryBad (e : List Byte) : Bool :=
  let n := eStages e
  n = 0 || 8 < n || natBits (eB e 1) 7 6 ≠ 0 || natBits (eB e 2) 7 2 ≠ 0 || eCvt e = 3 || eB e 3 ≠ 0 ||
  !zeros e 0x0C 20 || (List.range n).any (stageBad e) || !zeros e (0x20 + 28 * n) 256 ||
  ((eAll e).dropLast).any (·.typ = 5) || 1 < ((eAll e).filter isRow).length

/-- The last stage. -/
def eLast (e : List Byte) : Stage := eStage e (eStages e - 1)

/-- The last stage is a reduction. -/
def eReduces (e : List Byte) : Bool := (eLast e).typ = 5

/-- The results a reduction has (R132). -/
def reduceCount (axis n cols : Nat) : Nat :=
  match axis with
  | 0 => 1
  | 1 => 128 * (n / (16384 * cols))
  | _ => 128 * cols

/-! ## Lanes -/

/-- One active or inactive lane of a line: its stream position, its coordinates, its operands and the value passed on
from the stage before (R112, R113). -/
structure Lane where
  t : Nat
  r : Nat
  c : Nat
  act : Bool
  a : W32
  b : W32
  v : W32
deriving DecidableEq, Repr

/-- Logical coordinates of stream element `t` (R113). -/
def coords (cols t : Nat) : Nat × Nat :=
  let b := t / 16384
  let q := t % 16384
  let i := q / 128
  (128 * (b / cols) + i, 128 * (b % cols) + (q % 128 + 128 - i) % 128)

/-- An operand selector's value (R120). -/
def pick (s : Stage) (l : Lane) (sel : Nat) : W32 :=
  match sel with
  | 0 => l.v
  | 1 => l.a
  | 2 => l.b
  | 3 => s.k0
  | _ => s.k1

/-- The lane faults of one operation: INVALID for a NaN from operands that are none, OVERFLOW for an infinity from
finite operands (R131). -/
def evOf (ops : List W32) (r : W32) : LaneEv :=
  if isNan r then (if ops.any isNan then .none else evInvalid)
  else if isInf r ∧ ops.all isFin then evOverflow else .none

/-- Each fault at most once. -/
def LaneEv.cap (e : LaneEv) : LaneEv := ⟨min 1 e.invalid, min 1 e.divzero, min 1 e.overflow, min 1 e.sat⟩

def canon (w : W32) : W32 := if isNan w then qnan else w

/-- ARITH (R123, R124). -/
def arith (op : Nat) (x y z : W32) : W32 × LaneEv :=
  let pos (w : W32) : Bool := flt 0 w
  match op with
  | 1 => let r := fadd x y; (r, evOf [x, y] r)
  | 2 => let r := fsub x y; (r, evOf [x, y] r)
  | 3 => let r := fmul x y; (r, evOf [x, y] r)
  | 4 => let r := ffma x y z; (r, evOf [x, y, z] r)
  | 5 => let r := fdiv x y
      (r, if isInf r ∧ isFin x ∧ isZero y then evDivzero else evOf [x, y] r)
  | 6 => (fmin x y, .none)
  | 7 => (fmax x y, .none)
  | 8 => (fabs x, .none)
  | 9 => (fneg x, .none)
  | 10 => (if isNan x ∨ isNan y ∨ isNan z then qnan else fmin (fmax x y) z, .none)
  | 11 => (canon (if pos x then y else z), .none)
  | 12 => (if flt y x then one32 else 0, .none)
  | _ => (if isNan x then qnan else if pos x then x else 0, .none)

/-- DERIV operations on single lanes (R127). -/
def deriv (op : Nat) (g y : W32) : W32 × LaneEv :=
  match op with
  | 1 => (if isNan y then qnan else if flt 0 y then canon g else 0, .none)
  | 2 =>
    let u := fsub one32 y
    let v := fmul y u
    let r := fmul g v
    (r, (((evOf [one32, y] u).add (evOf [y, u] v)).add (evOf [g, v] r)).cap)
  | 3 =>
    let u := ffma (fneg y) y one32
    let r := fmul g u
    (r, ((evOf [y] u).add (evOf [g, u] r)).cap)
  | op =>
    let u := dfun op y
    let r := fmul g u
    (r, evOf [g, u] r)

/-- Seed and step of stochastic rounding with the header's `TENSOR` (R162). -/
structure SrKey where
  seed : Nat
  step : Nat
  tensor : Nat
deriving DecidableEq, Repr

/-- The conversion mode of `CVT` for stream position `t` (R129). -/
def rmode (cvt : Nat) (k : SrKey) (t : Nat) : RMode :=
  match cvt with
  | 0 => .sat
  | 1 => .inf
  | _ => .stoch (philox k.seed k.step t k.tensor)

/-- A CONV stage (R128). -/
def conv (op cvt : Nat) (k : SrKey) (t : Nat) (x : W32) : W32 × LaneEv :=
  let f := op - 0x10
  if isNan x then (qnan, .none)
  else
    let (c, sat) := (fmtOf f).convert (rmode cvt k t) (f32v x)
    let r := rne32 ((fmtOf f).decode c)
    (r, if sat then evSat else evOf [x] r)

/-! ## Softmax rows (R137 to R139) -/

/-- The starting state of a row. -/
def Carry.start : Carry := { m := ninf, s := 0, k := 0, mark := false }

def expW (x : W32) : W32 := (func 4 x).1

/-- A finite difference or product of a row update rounds to ±∞ (R131). -/
def overflows (ops : List W32) (r : W32) : Bool := ops.all isFin && isInf r

/-- The state update of a segment, and whether one of its finite roundings is ±∞ (R131, R137). -/
def rowUpdate (c : Carry) (seg : List W32) : Carry × Bool :=
  let mark := c.mark || seg.any isNan
  let k := c.k + (seg.filter (· = pinf)).length
  let fin := seg.filter isFin
  let mseg := fin.foldl (fun m x => if ordKey m < ordKey x then x else m) ninf
  let up : Bool := ordKey c.m < ordKey mseg && c.s ≠ 0
  let d := fsub c.m mseg
  let s := if up then fmul c.s (expW d) else c.s
  let m := if ordKey c.m < ordKey mseg then mseg else c.m
  let g := rne32 (groupSum (fin.map fun x => f32v (expW (fsub x m))))
  let r := if isFin m then fadd s g else s
  let big := (up && (overflows [c.m, mseg] d || overflows [c.s, expW d] s)) ||
    (isFin m && (fin.any (fun x => overflows [x, m] (fsub x m)) ||
      (isInf g && fin.all fun x => isFin (expW (fsub x m))) || overflows [s, g] r))
  ({ m := m, s := r, k := k, mark := mark }, big)

/-- The output of a row for one active value; `log` for the log form. -/
def rowOut (c : Carry) (log : Bool) (x : W32) : W32 × LaneEv :=
  if c.mark then (qnan, .none)
  else if 0 < c.k then
    if x = pinf then
      (if log then fneg (func 6 (intToF32 c.k)).1 else (func 1 (intToF32 c.k)).1, .none)
    else (if log then ninf else 0, .none)
  else if c.m = ninf then (if log then ninf else 0, .none)
  else
    let d := fsub x c.m
    let ev := evOf [x, c.m] d
    if log then
      let l := (func 6 c.s).1
      let r := fsub d l
      (r, (ev.add (evOf [d, l] r)).cap)
    else
      let e := func 4 d
      let r := fdiv e.1 c.s
      (r, ((ev.add e.2).add (evOf [e.1, c.s] r)).cap)

/-- The flag byte of a row. -/
def rowFlag (c : Carry) : Byte := flagByte (!c.mark && c.k = 0 && c.m = ninf) c.mark

/-! ## One line through one stage -/

/-- What a stage leaves: the lanes, the row carry, the lane faults, the flag bytes by row, and the rows whose update
overflowed. -/
structure LineOut where
  lanes : List Lane
  carry : List (Nat × Carry)
  ev    : LaneEv
  flags : List (Nat × Byte)
  ovf  : List Nat := []
deriving DecidableEq, Repr

/-- A value for every active lane; an inactive one passes on `fill` (R130). -/
def mapLanes (ls : List Lane) (fill : W32) (f : Lane → W32 × LaneEv) : List Lane × LaneEv :=
  ls.foldr (fun l acc =>
    if l.act then
      let (v, e) := f l
      ({ l with v := v } :: acc.1, e.add acc.2)
    else ({ l with v := fill } :: acc.1, acc.2)) ([], .none)

/-- The faults of a row sum, once per row (R127, R131). -/
def sumEv (terms : List Fv) (r : W32) : LaneEv :=
  if terms.any (· = .nan) then .none
  else if isNan r then evInvalid
  else if isInf r ∧ terms.all (fun t => match t with | .fin .. => true | _ => false) then evOverflow else .none

/-- One line of a stage other than a reduction. -/
def stageLine (e : List Byte) (key : SrKey) (s : Stage) (carry : List (Nat × Carry)) (ls : List Lane) : LineOut :=
  let plain (f : Lane → W32 × LaneEv) : LineOut :=
    let (l, ev) := mapLanes ls 0 f
    { lanes := l, carry := carry, ev := ev, flags := [] }
  let acts := ls.filter (·.act)
  let row := match ls with
    | [] => 0
    | l :: _ => l.r
  match s.typ with
  | 1 => plain fun l => arith s.op (pick s l s.in1) (pick s l s.in2) (pick s l s.in3)
  | 2 => plain fun l => func s.op (pick s l s.in1)
  | 3 =>
    if s.op = 8 then
      let terms := acts.map fun l => (f32v (pick s l s.in1)).mul (f32v (pick s l s.in2))
      let ops := acts.map fun l => [pick s l s.in1, pick s l s.in2]
      let d := rne32 (groupSum terms)
      let ev0 := if ops.flatten.any isNan then .none
        else if isNan d then evInvalid else sumEv terms d
      let (l, ev) := mapLanes ls 0 fun l =>
        let u := fsub (pick s l s.in1) d
        let r := fmul (pick s l s.in2) u
        (r, ((evOf [pick s l s.in1, d] u).add (evOf [pick s l s.in2, u] r)).cap)
      { lanes := l, carry := carry, ev := ev.add ev0, flags := [] }
    else if s.op = 9 then
      let terms := acts.map fun l => f32v (pick s l s.in1)
      let d := rne32 (groupSum terms)
      let (l, ev) := mapLanes ls 0 fun l =>
        let x := expW (pick s l s.in2)
        let r := ffma (fneg x) d (pick s l s.in1)
        (r, (((func 4 (pick s l s.in2)).2).add (evOf [x, d, pick s l s.in1] r)).cap)
      { lanes := l, carry := carry, ev := ev.add (sumEv terms d), flags := [] }
    else plain fun l => deriv s.op (pick s l s.in1) (pick s l s.in2)
  | 4 => plain fun l => conv s.op (eCvt e) key l.t (pick s l s.in1)
  | _ =>
    let seg := acts.map fun l => pick s l s.in1
    match s.op with
    | 3 =>
      let (c, o) := rowUpdate (mget Carry.start carry row) seg
      { lanes := (mapLanes ls 0 fun l => (pick s l s.in1, .none)).1,
        carry := mput Carry.start carry row c, ev := .none, flags := [], ovf := if o then [row] else [] }
    | op =>
      let log := op = 2 || op = 5
      let (c, o) := if op ≤ 2 then rowUpdate Carry.start seg else (mget Carry.start carry row, false)
      let (l, ev) := mapLanes ls (if log then ninf else 0) fun l => rowOut c log (pick s l s.in1)
      { lanes := l, carry := carry, ev := ev, flags := [(row, rowFlag c)], ovf := if o then [row] else [] }

/-- A line through every stage before a final reduction. -/
def lineThrough (e : List Byte) (key : SrKey) : List Stage → List (Nat × Carry) → List Lane → LineOut
  | [], c, ls => { lanes := ls, carry := c, ev := .none, flags := [] }
  | s :: ss, c, ls =>
    if s.typ = 5 then { lanes := ls, carry := c, ev := .none, flags := [] }
    else
      let o := stageLine e key s c ls
      let r := lineThrough e key ss o.carry o.lanes
      { r with ev := o.ev.add r.ev, flags := o.flags ++ r.flags, ovf := o.ovf ++ r.ovf }

/-! ## Reductions (R132 to R135) -/

/-- The elements of one reduction that lie in one line: (element index, first value, second value). -/
abbrev Group := List (Nat × W32 × W32)

/-- A reduction result: its code or value, EMPTY, NAN and its faults. -/
structure RedOut where
  val : W32
  int : Bool
  empty : Bool
  nan : Bool
  ev : LaneEv
deriving DecidableEq, Repr

/-- The faults of a group sum: a product that is NaN though no operand is, is an INVALID of the result (R131). -/
def groupEv (nanOp : Bool) (terms : List Fv) (r : W32) : LaneEv :=
  if !nanOp && terms.any (· = .nan) then evInvalid else sumEv terms r

/-- The groups of one result, each with whether it has a NaN operand, added in order and each rounded once (R133). -/
def sumGroups (gs : List (Bool × List Fv)) : W32 × LaneEv :=
  let r := gs.foldl (fun (a : W32 × LaneEv) g =>
    let x := rne32 (groupSum g.2)
    let y := fadd a.1 x
    (y, (a.2.add (groupEv g.1 g.2 x)).add (evOf [a.1, x] y))) (0, .none)
  (r.1, r.2.cap)

/-- The element that is extreme: lowest index of a NaN, else lowest index of the extreme value (R135). -/
def extreme (big : Bool) (l : List (Nat × W32 × W32)) : Option (Nat × W32) :=
  let better (x y : Nat × W32) : Nat × W32 :=
    if isNan x.2 ∧ isNan y.2 then (if y.1 < x.1 then y else x)
    else if isNan x.2 then x
    else if isNan y.2 then y
    else
      let kx := ordKey x.2
      let ky := ordKey y.2
      if kx = ky then (if y.1 < x.1 then y else x)
      else if (if big then kx < ky else ky < kx) then y else x
  match l with
  | [] => none
  | x :: xs => some (xs.foldl (fun b y => better b (y.1, y.2.1)) (x.1, x.2.1))

/-- Insertion by element index. -/
def insIdx (x : Nat × W32 × W32) : List (Nat × W32 × W32) → List (Nat × W32 × W32)
  | [] => [x]
  | y :: ys => if x.1 ≤ y.1 then x :: y :: ys else y :: insIdx x ys

/-- One reduction result from its groups in order. -/
def reduce (op : Nat) (gs : List Group) : RedOut :=
  let all : List (Nat × W32 × W32) := gs.flatten
  let empty := all.isEmpty
  let mk (v : W32) (ev : LaneEv) : RedOut := { val := v, int := false, empty := empty, nan := isNan v, ev := ev }
  let f (g : Group) : List Fv := g.map fun x =>
    match op with
    | 9 => (f32v x.2.1).mul (f32v x.2.1)
    | 10 => (f32v x.2.1).mul (f32v x.2.2)
    | _ => f32v x.2.1
  let sum := sumGroups (gs.map fun g => (g.any fun x => isNan x.2.1 || (op = 10 && isNan x.2.2), f g))
  let ev := sum.2
  match op with
  | 2 =>
    if empty then mk 0 .none
    else
      let n := intToF32 all.length
      let r := fdiv sum.1 n
      mk r (ev.add (evOf [sum.1, n] r)).cap
  | 3 => match extreme true all with
    | some (_, v) => mk (canon v) .none
    | none => mk ninf .none
  | 4 => match extreme false all with
    | some (_, v) => mk (canon v) .none
    | none => mk pinf .none
  | 5 =>
    let r := (all.foldr insIdx []).foldl (fun (a : W32 × LaneEv) x =>
      let y := fmul a.1 x.2.1
      (y, a.2.add (evOf [a.1, x.2.1] y))) (one32, .none)
    mk r.1 r.2.cap
  | 6 => { val := BitVec.ofNat 32 all.length, int := true, empty := empty, nan := false, ev := .none }
  | 7 => match extreme true all with
    | some (i, v) => { val := BitVec.ofNat 32 i, int := true, empty := false, nan := isNan v, ev := .none }
    | none => { val := 0xFFFFFFFF, int := true, empty := true, nan := false, ev := .none }
  | 8 => match extreme false all with
    | some (i, v) => { val := BitVec.ofNat 32 i, int := true, empty := false, nan := isNan v, ev := .none }
    | none => { val := 0xFFFFFFFF, int := true, empty := true, nan := false, ev := .none }
  | _ => mk sum.1 ev

/-- Result index and element index of a lane (R132). -/
def axisIdx (axis : Nat) (l : Lane) : Nat × Nat :=
  match axis with
  | 0 => (0, l.t)
  | 1 => (l.r, l.c)
  | _ => (l.c, l.r)

/-- Adds a line's active lanes to the groups by result, newest group first. -/
def addGroups (s : Stage) (acc : Array (List Group)) (ls : List Lane) : Array (List Group) :=
  let acts := ls.filter (·.act)
  match s.axis with
  | 2 => acts.foldl (fun a l =>
      let (r, i) := axisIdx 2 l
      a.modify r fun gs => [(i, pick s l s.in1, pick s l s.in2)] :: gs) acc
  | ax => match acts with
    | [] => acc
    | l :: _ => acc.modify (axisIdx ax l).1 fun gs =>
        (acts.map fun l => ((axisIdx ax l).2, pick s l s.in1, pick s l s.in2)) :: gs

/-! ## Reading the stream (R112 to R116, R143, R148, R149, R152) -/

/-- A block's metadata as read in the cycle of the chain's first read of it: exponent, fallback image and scale bytes
(R116). -/
structure BlkMeta where
  exp : Int
  img : Option Nat
  scales : List Byte
deriving DecidableEq, Repr

def readMeta (rd : Nat → Byte) (d : Desc) (a : Nat) : BlkMeta :=
  if dBS d then
    let o := (rd (a + 16384 + 1)).toNat
    { exp := bexp (rd (a + 16384)),
      img := if 0x80 ≤ o then some (leNat ((List.range 4).map fun i => rd (a + 16384 + 12 + i))) else none,
      scales := [] }
  else if dFmt d = 5 then { exp := 0, img := none, scales := (List.range 512).map fun i => rd (a + 8192 + i) }
  else { exp := 0, img := none, scales := [] }

/-- The value of vector-view position `t` of a source, converted to FP32 (R112, R114). -/
def sourceVal (rd : Nat → Byte) (g : Nat) (d : Desc) (qax : Bool) (m : BlkMeta) (t : Nat) : W32 :=
  let b := t / 16384
  let q := t % 16384
  match m.img with
  | some fb => rne32 (codeVal 1 (codeAt rd 1 (devAddr g fb) q))
  | none =>
    let a := devAddr g (dBase d) + blockOff d b
    let v := codeVal (dFmt d) (codeAt rd (dFmt d) a q)
    if dFmt d = 5 then
      let i := q / 128
      let j := (q % 128 + 128 - i) % 128
      let sb := (m.scales.getD (scaleIdx (!qax) i j) 0).toNat
      if sb = 255 then qnan else rne32 (v.scale (dSexp d + sb - 127))
    else rne32 (v.scale (dSexp d + m.exp))

/-- The position a broadcast mode reads (R114). -/
def bcast (mode t r c : Nat) : Nat :=
  match mode with
  | 0 => t
  | 1 => c
  | 2 => r
  | _ => 0

/-- Metadata of a block: read now unless the chain has read it before. -/
def metaOf (rd : Nat → Byte) (g : Nat) (d : Desc) (ms : List (Nat × BlkMeta)) (b : Nat) :
    BlkMeta × List (Nat × BlkMeta) :=
  match ms.find? (·.1 = b) with
  | some (_, m) => (m, ms)
  | none =>
    let m := readMeta rd d (devAddr g (dBase d) + blockOff d b)
    (m, (b, m) :: ms)

/-- What `vc.run` has when it issues. -/
structure RunArgs where
  g  : Nat
  t0 : Nat
  e  : List Byte
  dd : Desc
  da : Desc
  db : Desc
  dm : Desc
  msk : Bool
  key : SrKey
  trailers : List (Nat × List Byte)
deriving DecidableEq, Repr

/-- The chain reads B: some selector in use names it. -/
def usesB (e : List Byte) : Bool :=
  (eAll e).any fun s => match opArity s.typ s.op with
    | some n => s.in1 = 2 || (2 ≤ n && s.in2 = 2) || (3 ≤ n && s.in3 = 2)
    | none => false

/-- The lanes of line `n` as read in its cycle, with the metadata caches of A and B. -/
def readLine (x : RunArgs) (rd : Nat → Byte) (n : Nat) (ma mb : List (Nat × BlkMeta)) :
    List Lane × List (Nat × BlkMeta) × List (Nat × BlkMeta) :=
  let len := dLen x.dd
  let ts := (List.range 128).filterMap fun i => if 128 * n + i < len then some (128 * n + i) else none
  ts.foldr (fun t acc =>
    let (ls, ma, mb) := acc
    let (r, c) := coords (dCols x.da) t
    let (m, ma) := metaOf rd x.g x.da ma (t / 16384)
    let a := sourceVal rd x.g x.da (eQax x.e) m t
    let tb := bcast (eBmode x.e) t r c
    let (b, mb) := if usesB x.e then
        let (m, mb) := metaOf rd x.g x.db mb (tb / 16384)
        (sourceVal rd x.g x.db (eQax x.e) m tb, mb)
      else (0, mb)
    let act := !x.msk ||
      (let tm := bcast (eMmode x.e) t r c
       codeAt rd 6 (devAddr x.g (dBase x.dm) + blockOff x.dm (tm / 16384)) (tm % 16384) ≠ 0)
    ({ t := t, r := r, c := c, act := act, a := a, b := b, v := a } :: ls, ma, mb)) ([], ma, mb)

/-- What runs through the lines: row carry, metadata, faults, flags, and the outputs or groups so far. -/
structure RunAcc where
  carry : List (Nat × Carry)
  ma : List (Nat × BlkMeta)
  mb : List (Nat × BlkMeta)
  ev : LaneEv
  flags : List (Nat × Byte)
  ovf : List Nat
  outs : List Lane
  groups : Array (List Group)

/-- Lines `n`, `n` + 1, … through the stages; `mem` reads a byte in a cycle. -/
def runLines (x : RunArgs) (mem : Nat → Nat → Byte) : Nat → Nat → RunAcc → RunAcc
  | 0, _, acc => acc
  | k + 1, n, acc =>
    let (ls, ma, mb) := readLine x (mem (x.t0 + n)) n acc.ma acc.mb
    let o := lineThrough x.e x.key (eAll x.e) acc.carry ls
    runLines x mem k (n + 1)
      { carry := o.carry, ma := ma, mb := mb, ev := acc.ev.add o.ev, flags := acc.flags ++ o.flags,
        ovf := acc.ovf ++ o.ovf, outs := if eReduces x.e then [] else acc.outs ++ o.lanes,
        groups := if eReduces x.e then addGroups (eLast x.e) acc.groups o.lanes else acc.groups }

/-! ## The destination (R129, R130, R147, R151) -/

/-- A value for vector-view position `pos`; `act` where it takes part in counts, scales and trailers. -/
structure OutVal where
  pos : Nat
  val : W32
  int : Bool
  act : Bool
deriving DecidableEq, Repr

/-- A value as FP32: an integer result is rounded (R129, R133). -/
def OutVal.fp (v : OutVal) : W32 := if v.int then intToF32 v.val.toNat else v.val

/-- A block a run wrote: its number, its saturations, and the storage positions that are counted (R129, R330). -/
structure BlkOut where
  b : Nat
  sat : Nat
  counted : List Nat
deriving DecidableEq, Repr

/-- What a run writes and counts: bytes, the blocks written, the saturations of its CONV stages, and the faults. -/
structure ChainOut where
  writes : List (Nat × List Byte)
  blocks : List BlkOut
  convSat : Nat
  ev : LaneEv
  carry : List (Nat × Carry)

/-- The fill value of an inactive lane (R130). -/
def fillVal (e : List Byte) : W32 :=
  let s := eLast e
  if s.typ = 6 ∧ (s.op = 2 ∨ s.op = 5) then ninf else 0

/-- Writes of one element's code at position `q` of a block at `a`; an E2M1 code shares its byte with its neighbour,
taken from `nib`, the codes written, else from memory. -/
def codeBytes (f a q code : Nat) : Nat × List Byte := (a + elemBytes f * q, leBytes (elemBytes f) code)

/-- One destination block of a format other than E2M1. An output conversion counts saturations only, and the result numbered `q` of
a reduction takes position `q` as the key of its stochastic rounding (assumption 106). -/
def storeVals (x : RunArgs) (b : Nat) (vals : List OutVal) : List (Nat × List Byte) × Nat :=
  let d := x.dd
  let f := dFmt d
  let a := devAddr x.g (dBase d) + blockOff d b
  let tr := match x.trailers.find? (·.1 = b) with
    | some (_, t) => t
    | none => []
  let (be, ok) := if dBS d then trailerExp tr else (0, true)
  let cs := vals.map fun v =>
    if f = 7 then (v, v.val.toNat, false)
    else
      let w := v.fp
      if f = 0 then (v, w.toNat, false)
      else
        let m := if v.act then rmode (eCvt x.e) x.key v.pos else .sat
        let (c, s) := (fmtOf f).convert m ((f32v w).scale (- (dSexp d + be)))
        (v, c, s)
  let sat := (cs.filter fun c => c.1.act && c.2.2).length
  let body := cs.map fun c => codeBytes f a (c.1.pos % 16384) c.2.1
  if dBS d then
    let am := amax ((vals.filter (·.act)).map OutVal.fp)
    (body ++ [(a + 16384 + 4, leBytes 4 am.toNat ++ leBytes 4 sat)] ++
      (if ok then [] else [(a + 16384 + 1, [(1 : Byte)])]), sat)
  else (body, sat)

/-- Positions of group `gi` of an E2M1 block (R99). -/
def groupPos (alongCols : Bool) (gi : Nat) : List Nat :=
  (List.range 32).map fun m =>
    if alongCols then storePos (gi / 4) (32 * (gi % 4) + m) else storePos (32 * (gi % 4) + m) (gi / 4)

/-- The scale exponent of a group (R147). -/
def e2Scale (sexp : Int) (ws : List W32) : Int :=
  let a := amax ws
  let s := if a = 0 then 0 else scaleExp (f32v a).dy ⟨6, 0⟩
  min (max s (max (-127) (-148 - sexp))) (min 127 (125 - sexp))

/-- One destination block of E2M1: whole groups with an active element, or with a result of a reduction, their scale
bytes and their saturations; positions above the last result keep their codes (R130, R132, R147). `rd` reads the bytes
before. -/
def storeE2 (x : RunArgs) (rd : Nat → Byte) (b : Nat) (vals : Array (Option OutVal)) : List (Nat × List Byte) × Nat :=
  let d := x.dd
  let a := devAddr x.g (dBase d) + blockOff d b
  let sexp := dSexp d
  let old := (List.range 16384).toArray.map fun q => codeAt rd 5 a q
  let r := (List.range 512).foldl (fun (acc : Array Nat × List (Nat × List Byte) × Nat) gi =>
    let ps := groupPos (!eQax x.e) gi
    let els := ps.map fun q => (q, (vals.getD q none))
    let acts := els.filterMap fun p => p.2.bind fun v => if v.act then some v.fp else none
    if (if eReduces x.e then els.all (·.2.isNone) else acts.isEmpty) then acc
    else
      let pre (w : W32) : W32 := rne32 ((f32v w).scale (- sexp))
      let ws := acts.map pre
      let nan := ws.any isNan
      let s := e2Scale sexp ws
      let conv (w : W32) : Nat × Bool := if nan then (0, false) else e2m1.convert .sat ((f32v (pre w)).scale (- s))
      let codes := els.foldl (fun (c : Array Nat × Nat) p =>
        match p.2 with
        | some v => if v.act then
              let (k, st) := conv v.fp
              (c.1.setIfInBounds p.1 k, c.2 + (if st then 1 else 0))
            else (c.1.setIfInBounds p.1 (conv v.fp).1, c.2)
        | none => c) (acc.1, acc.2.2)
      (codes.1, acc.2.1 ++ [(a + 8192 + gi, [if nan then (0xFF : Byte) else BitVec.ofInt 8 (s + 127)])], codes.2))
    (old, [], 0)
  ((a, (List.range 8192).map fun i => BitVec.ofNat 8 (r.1.getD (2 * i) 0 + 16 * r.1.getD (2 * i + 1) 0)) :: r.2.1, r.2.2)

/-- A whole run (R112 to R139). `mem` reads a byte in a cycle, `now` a byte when the results become visible. -/
def chainRun (x : RunArgs) (mem : Nat → Nat → Byte) (now : Nat → Byte) (carry : List (Nat × Carry)) : ChainOut :=
  let n := dLen x.dd
  let stat := (eAll x.e).any fun s => s.typ = 6 && s.op = 3 && !s.cont
  let last := eLast x.e
  let count := reduceCount last.axis n (dCols x.da)
  let acc := runLines x mem ((n + 127) / 128) 0
    { carry := if stat then [] else carry, ma := [], mb := [], ev := .none, flags := [], ovf := [], outs := [],
      groups := if eReduces x.e then (List.replicate count ([] : List Group)).toArray else #[] }
  let reds := if eReduces x.e then acc.groups.toList.map fun gs => reduce last.op gs.reverse else []
  let outs : List OutVal := if eReduces x.e then
      reds.zipIdx.map fun (r, i) => { pos := i, val := r.val, int := r.int, act := !r.empty }
    else acc.outs.filterMap fun l =>
      if l.act then some { pos := l.t, val := l.v, int := false, act := true }
      else if eMfill x.e || dFmt x.dd = 5 then some { pos := l.t, val := fillVal x.e, int := false, act := false }
      else none
  let flags := if eFlag x.e = 0 then []
    else if eReduces x.e then reds.zipIdx.map fun (r, i) => (devAddr x.g (eFlag x.e + i), [flagByte r.empty r.nan])
    else acc.flags.map fun (r, b) => (devAddr x.g (eFlag x.e + r), [b])
  let stored := (List.range ((n + 16383) / 16384)).filterMap fun b =>
    let vs := outs.filter fun v => v.pos / 16384 = b
    if vs.isEmpty then none
    else
      let r := if dFmt x.dd = 5 then
          storeE2 x now b (vs.foldl (fun (a : Array (Option OutVal)) v => a.setIfInBounds (v.pos % 16384) (some v))
            (List.replicate 16384 (none : Option OutVal)).toArray)
        else storeVals x b vs
      some (r.1, ({ b := b, sat := r.2, counted := (vs.filter (·.act)).map fun v => v.pos % 16384 } : BlkOut))
  let sat := stored.foldl (fun k r => k + r.2.sat) 0
  let ev := (reds.foldl (fun e r => e.add r.ev) acc.ev).add ⟨0, 0, acc.ovf.eraseDups.length, sat⟩
  { writes := (stored.map (·.1)).flatten ++ flags, blocks := stored.map (·.2), convSat := acc.ev.sat, ev := ev,
    carry := acc.carry }

end Sys2Proof.Machine
end

