-- ==== Sys2Proof/Machine/Crypt.lean ====
section
/-! DEFINITION. The codes memory and links are kept under, over bytes: the sector code of R206 and its decoder, AES with a
256-bit key, XTS over a sector (R223) and Galois/Counter Mode (R237). AES, XTS and GCM are the published standards the
spec names (FIPS 197, IEEE 1619, SP 800-38D). -/

namespace Sys2Proof.Machine

/-! ## The field of 256 elements -/

/-- Times x in GF(2^8) with field polynomial x^8 + `red`. -/
def timesX (red a : Byte) : Byte := if a.getLsbD 7 then (a <<< 1) ^^^ red else a <<< 1

/-- Product in that field, from the highest bit of `b` down: `n` bits of `b` are still to come. -/
def gfMulBits (red a b : Byte) : Nat → Byte → Byte
  | 0, acc => acc
  | n + 1, acc =>
    let acc := timesX red acc
    gfMulBits red a b n (if b.getLsbD n then acc ^^^ a else acc)

def gfMul (red a b : Byte) : Byte := gfMulBits red a b 8 0

/-- `a` to the power `n`. -/
def gfPow (red a : Byte) : Nat → Byte
  | 0 => 1
  | n + 1 => gfMul red a (gfPow red a n)

/-! ## The sector code (R206) -/

/-- The field polynomial of R206 without x^8: x^4 + x^3 + x^2 + 1. -/
def codeRed : Byte := 0x1D

/-- α to a power: α is x. -/
def alphaPow : Nat → Byte
  | 0 => 1
  | n + 1 => timesX codeRed (alphaPow n)

/-- The generator polynomial of R206 without x^4, highest coefficient first: (x + 1)(x + α)(x + α^2)(x + α^3). -/
def codeGen : List Byte :=
  ([alphaPow 1, alphaPow 2, alphaPow 3].foldl (fun g r =>
    List.zipWith (· ^^^ ·) (g ++ [0]) (0 :: g.map (gfMul codeRed r))) [1, 1]).drop 1

/-- The check field of 32 data bytes: the remainder of the data, times x^4, by the generator; the first byte has the
highest power of x (assumption 95). -/
def checkField (data : List Byte) : List Byte :=
  data.foldl (fun r d =>
    let q := d ^^^ r.headD 0
    List.zipWith (· ^^^ ·) (r.drop 1 ++ [0]) (codeGen.map (gfMul codeRed q))) [0, 0, 0, 0]

/-- A sector as it is stored: its 32 bytes and its check field. -/
def codeword (data : List Byte) : List Byte := data ++ checkField data

/-- The value of a stored sector's polynomial at α^`j`. -/
def syndrome (word : List Byte) (j : Nat) : Byte :=
  word.foldl (fun acc b => gfMul codeRed acc (alphaPow j) ^^^ b) 0

/-- What the decoder makes of a sector (R206). -/
inductive Decoded where
  | clean
  /-- The error is confined to one byte: its place among the 36 and its value. -/
  | corrected (place : Nat) (value : Byte)
  | uncorrectable
deriving DecidableEq, Repr

/-- The decoder of R206 on the error of a sector: byte `i` holds the power 35 − i of x, and an error of value `v` there
shows as v·X^j in the syndrome j, where X = α^(35 − i). -/
def decode (err : List Byte) : Decoded :=
  let s := (List.range 4).map (syndrome err)
  let at_ (j : Nat) : Byte := s.getD j 0
  if s.all (· = 0) then .clean
  else
    match (List.range 36).find? fun i =>
        at_ 0 ≠ 0 && (List.range 3).all fun j => at_ (j + 1) = gfMul codeRed (at_ j) (alphaPow (35 - i)) with
    | some i => .corrected i (at_ 0)
    | none => .uncorrectable

/-! ## AES with a 256-bit key -/

/-- The field polynomial of AES without x^8. -/
def aesRed : Byte := 0x1B

/-- Multiplicative inverse, of 0 zero: the power 254. -/
def aesInv (a : Byte) : Byte :=
  let sq (x : Byte) : Byte := gfMul aesRed x x
  let a2 := sq a
  let a3 := gfMul aesRed a2 a
  let a12 := sq (sq a3)
  let a15 := gfMul aesRed a12 a3
  let a240 := sq (sq (sq (sq a15)))
  gfMul aesRed (gfMul aesRed a240 a12) a2

/-- The affine step of the byte substitution, and its inverse. -/
def aesAffine (b : Byte) : Byte :=
  b ^^^ b.rotateLeft 1 ^^^ b.rotateLeft 2 ^^^ b.rotateLeft 3 ^^^ b.rotateLeft 4 ^^^ 0x63
def aesUnaffine (b : Byte) : Byte := b.rotateLeft 1 ^^^ b.rotateLeft 3 ^^^ b.rotateLeft 6 ^^^ 0x05

def subByte (b : Byte) : Byte := aesAffine (aesInv b)
def unsubByte (b : Byte) : Byte := aesInv (aesUnaffine b)

/-- The round constant that key word 8·`n` takes. -/
def roundConst (n : Nat) : Byte := (List.range (n - 1)).foldl (fun c _ => timesX aesRed c) 1

/-- Word `i` of the key schedule from the words before it, latest first. -/
def nextKeyWord (ws : List (List Byte)) (i : Nat) : List Byte :=
  let prev := ws.headD []
  let t := if i % 8 = 0 then
      match (prev.drop 1 ++ prev.take 1).map subByte with
      | a :: r => (a ^^^ roundConst (i / 8)) :: r
      | [] => []
    else if i % 8 = 4 then prev.map subByte else prev
  List.zipWith (· ^^^ ·) (ws.getD 7 []) t

/-- The bytes of a list, `n` at a time. -/
def groupsOf (n : Nat) : Nat → List Byte → List (List Byte)
  | 0, _ => []
  | k + 1, l => l.take n :: groupsOf n k (l.drop n)

/-- The fifteen round keys of a 32-byte key, 16 bytes each. -/
def roundKeys (key : List Byte) : List (List Byte) :=
  let ws := (List.range 52).foldl (fun ws i => nextKeyWord ws (8 + i) :: ws) (groupsOf 4 8 key).reverse
  groupsOf 16 15 ws.reverse.flatten

/-- Rows shifted: byte 4c + r of the result is the byte of row r in column c + r, or c − r on the way back. -/
def shiftRows (b : List Byte) : List Byte :=
  (List.range 16).map fun i => b.getD ((i / 4 + i % 4) % 4 * 4 + i % 4) 0
def unshiftRows (b : List Byte) : List Byte :=
  (List.range 16).map fun i => b.getD ((i / 4 + 4 - i % 4) % 4 * 4 + i % 4) 0

/-- Each column times the circulant of the coefficients. -/
def mixWith (cs b : List Byte) : List Byte :=
  (List.range 16).map fun i =>
    (List.range 4).foldl (fun acc k => acc ^^^ gfMul aesRed (cs.getD k 0) (b.getD (i / 4 * 4 + (i % 4 + k) % 4) 0)) 0

def addKey (k b : List Byte) : List Byte := List.zipWith (· ^^^ ·) k b

/-- One block enciphered under the round keys. -/
def aesEnc (ks : List (List Byte)) (b : List Byte) : List Byte :=
  let b := ((ks.drop 1).take 13).foldl (fun b k => addKey k (mixWith [2, 3, 1, 1] (shiftRows (b.map subByte))))
    (addKey (ks.headD []) b)
  addKey (ks.getD 14 []) (shiftRows (b.map subByte))

/-- One block deciphered. -/
def aesDec (ks : List (List Byte)) (b : List Byte) : List Byte :=
  let b := ((ks.drop 1).take 13).reverse.foldl (fun b k =>
      mixWith [14, 11, 13, 9] (addKey k ((unshiftRows b).map unsubByte)))
    (addKey (ks.getD 14 []) b)
  addKey (ks.headD []) ((unshiftRows b).map unsubByte)

/-! ## XTS over one sector (R223) -/

/-- `n` as bytes, low byte first. -/
def lowFirst (bytes n : Nat) : List Byte := (List.range bytes).map fun i => BitVec.ofNat 8 (n / 256 ^ i)

/-- The number of bytes, low byte first. -/
def ofLowFirst (b : List Byte) : Nat := b.foldr (fun x n => x.toNat + 256 * n) 0

/-- The tweak of the next block: times x in GF(2^128), low byte first. -/
def nextTweak (t : List Byte) : List Byte :=
  let n := 2 * ofLowFirst t
  lowFirst 16 (if 2 ^ 128 ≤ n then (n - 2 ^ 128) ^^^ 0x87 else n)

/-- The two blocks of a data unit through a block function, each between its tweak. -/
def xtsWith (f : List Byte → List Byte) (tweak sector : List Byte) : List Byte :=
  let t1 := nextTweak tweak
  addKey tweak (f (addKey tweak (sector.take 16))) ++ addKey t1 (f (addKey t1 ((sector.drop 16).take 16)))

/-- A 32-byte sector of data unit `unit` enciphered and deciphered under a pair of 256-bit keys, the second of which
makes the tweak. -/
def xtsEnc (keys : List Byte × List Byte) (unit : Nat) (sector : List Byte) : List Byte :=
  xtsWith (aesEnc (roundKeys keys.1)) (aesEnc (roundKeys keys.2) (lowFirst 16 unit)) sector
def xtsDec (keys : List Byte × List Byte) (unit : Nat) (sector : List Byte) : List Byte :=
  xtsWith (aesDec (roundKeys keys.1)) (aesEnc (roundKeys keys.2) (lowFirst 16 unit)) sector

/-! ## Galois/Counter Mode (R237) -/

/-- A block as the number whose bit 127 is its first bit, and back. -/
def ofHighFirst (b : List Byte) : Nat := b.foldl (fun n x => 256 * n + x.toNat) 0
def highFirst (bytes n : Nat) : List Byte := (lowFirst bytes n).reverse

/-- Product in the field of GHASH, the first bit of a block being the coefficient of 1; `n` bits are still to come. -/
def ghMul (y : Nat) : Nat → Nat → Nat → Nat
  | 0, _, z => z
  | n + 1, v, z =>
    ghMul y n (if v % 2 = 1 then v / 2 ^^^ 0xE1 * 2 ^ 120 else v / 2) (if y / 2 ^ n % 2 = 1 then z ^^^ v else z)

/-- The blocks of a byte string, the last filled with 0. -/
def blocks16 (b : List Byte) : List (List Byte) :=
  (groupsOf 16 ((b.length + 15) / 16) b).map fun x => x ++ List.replicate (16 - x.length) 0

/-- The hash of GCM under the hash key. -/
def ghash (h : Nat) (aad ct : List Byte) : Nat :=
  let len : List Byte := highFirst 8 (8 * aad.length) ++ highFirst 8 (8 * ct.length)
  (blocks16 aad ++ blocks16 ct ++ [len]).foldl (fun y b => ghMul (y ^^^ ofHighFirst b) 128 h 0) 0

/-- Bytes `ofs` to `ofs` + `n` of the key stream under a 12-byte initialization vector. -/
def gcmStream (key iv : List Byte) (ofs n : Nat) : List Byte :=
  let ks := roundKeys key
  let blocks := (List.range (n / 16 + 2)).flatMap fun i => aesEnc ks (iv ++ highFirst 4 (2 + ofs / 16 + i))
  (blocks.drop (ofs % 16)).take n

/-- The 16-byte tag over the additional data and the ciphertext. -/
def gcmTag (key iv aad ct : List Byte) : List Byte :=
  let ks := roundKeys key
  addKey (aesEnc ks (iv ++ highFirst 4 1)) (highFirst 16 (ghash (ofHighFirst (aesEnc ks (List.replicate 16 0))) aad ct))

end Sys2Proof.Machine
end

