-- ==== Sys2Proof/Machine/Link.lean ====
section
/-! DEFINITION. The link layer of the fabric (R231 to R239, R245, R250 to R252, R255): flits and their bytes, what waits at
a port and the order it goes out in, sealing, credits, and routes. -/

namespace Sys2Proof.Machine

/-! ## Flits as bytes (R232, R233) -/

/-- A byte into the reflected CRC-32C register: eight shifts. -/
def crc32cBits : Nat → W32 → W32
  | 0, c => c
  | n + 1, c => crc32cBits n (if c.getLsbD 0 then (c >>> 1) ^^^ 0x82F63B78 else c >>> 1)

/-- CRC-32C, the Castagnoli polynomial reflected, from all ones, complemented. -/
def crc32c (b : List Byte) : W32 := ~~~ (b.foldl (fun c x => crc32cBits 8 (c ^^^ x.setWidth 32)) 0xFFFFFFFF)

/-- Header word of a flit. -/
def flitHead (f : Flit) : Nat :=
  (f.type % 8) * 2 ^ 29 + (f.vc % 8) * 2 ^ 26 + (f.seq % 4096) * 2 ^ 14 + (f.ack % 4096) * 4 + f.ak % 4

/-- The bytes of a body, filled with 0 to 248. -/
def fillBody (b : List Byte) : List Byte := b.take 248 ++ List.replicate (248 - b.length) 0

/-- A flit's 256 bytes. -/
def flitBytes (f : Flit) : List Byte :=
  let b := leBytes 4 (flitHead f) ++ fillBody f.body
  b ++ leBytes 4 (crc32c b).toNat

/-- The flit that 256 bytes hold, if their CRC is right (R234). -/
def readFlit (b : List Byte) : Option Flit :=
  let w := leNat (b.take 4)
  if b.length ≠ 256 ∨ leBytes 4 (crc32c (b.take 252)).toNat ≠ b.drop 252 then none
  else some { type := natBits w 31 29, vc := natBits w 28 26, seq := natBits w 25 14, ack := natBits w 13 2, ak := natBits w 1 0,
              body := (b.drop 4).take 248 }

/-- A flit without a sequence number of its own: IDLE and BEAT. -/
def plainFlit (type : Nat) (body : List Byte) : Flit := { type := type, vc := 0, seq := 0, ack := 0, ak := 0, body := body }

/-! ## Messages as bytes (R245, R271) -/

/-- The 48-byte message header for a payload of `len` bytes. -/
def hdrBytes (h : MsgHdr) (len : Nat) : List Byte :=
  leBytes 4 (h.dest % 2 ^ 17) ++ leBytes 4 (h.src % 2 ^ 17) ++ leBytes 1 h.kind ++ leBytes 1 h.part ++ leBytes 1 h.attempt ++
  leBytes 1 (if h.next then 1 else 0) ++ leBytes 4 len ++ leBytes 8 h.step ++ leBytes 8 (h.addr % 2 ^ 48) ++ leBytes 8 h.token ++
  leBytes 4 (h.task % 2 ^ 24) ++ leBytes 4 0

/-- The header that 48 bytes hold, and `LENGTH`. -/
def readHdr (b : List Byte) : MsgHdr × Nat :=
  let at_ (ofs n : Nat) : Nat := leNat ((b.drop ofs).take n)
  ({ dest := at_ 0 4 % 2 ^ 17, src := at_ 4 4 % 2 ^ 17, kind := at_ 8 1, part := at_ 9 1, attempt := at_ 10 1,
     next := at_ 11 1 % 2 = 1, step := at_ 16 8, addr := at_ 24 8 % 2 ^ 48, token := at_ 32 8, task := at_ 40 4 % 2 ^ 24 }, at_ 12 4)

/-- The 16-byte sub-header of a COLLECTIVE message. -/
def collBytes (k : CollHdr) : List Byte :=
  leBytes 2 k.coll ++ leBytes 1 k.dim ++ leBytes 1 k.dirn ++ leBytes 2 k.pass ++ leBytes 2 0 ++ leBytes 4 k.shard ++ leBytes 4 k.offset

/-- Header and payload of a message handed to the router. -/
def messageBytes : Out → List Byte
  | .message _ h b => hdrBytes h b.length ++ b
  | .coll h k b => hdrBytes h (16 + b.length) ++ collBytes k ++ b
  | _ => []

/-- Virtual channel code of a class (R232). -/
def classVc : TClass → Nat
  | .carmine => 0
  | .slate => 2
  | .pewter => 4

/-- Flits of a message with a payload of `len` bytes (R232, R245). -/
def flitsOf (len : Nat) : Nat := (48 + len + 247) / 248

/-! ## Beat and hold bodies (R255) -/

/-- A hold entry's 16 bytes. -/
def holdBytes (e : HoldEntry) : List Byte :=
  leBytes 4 e.land ++ leBytes 2 e.demand ++ leBytes 1 ((if e.overrun then 1 else 0) + 16 * e.cause) ++ leBytes 1 e.part ++
  leBytes 4 (e.origin % 2 ^ 17) ++ leBytes 4 (e.task % 2 ^ 24)

/-- Body of a HOLD flit. -/
def holdBody (es : List HoldEntry) : List Byte := fillBody (leBytes 1 es.length ++ leBytes 7 0 ++ es.flatMap holdBytes)

/-- Body of a BEAT flit. -/
def beatBytes (b : BeatBody) : List Byte :=
  fillBody (leBytes 8 b.bn ++ leBytes 4 (b.master % 2 ^ 17 + if b.holdover then 2 ^ 31 else 0) ++ leBytes 2 b.edgeOfs ++
    leBytes 1 b.dir ++ leBytes 1 b.holds.length ++ b.holds.flatMap holdBytes)

/-! ## Sealing (R237) -/

/-- Initialization vector of a group. -/
def groupIv (n : Nat) : List Byte := leBytes 4 0 ++ leBytes 8 n

/-- A body as the flit numbered `i` of group `n` carries it under a key: each flit takes the next 248 bytes of the key
stream. -/
def sealBody (key : List Byte) (n i : Nat) (body : List Byte) : List Byte :=
  addKey (fillBody body) (gcmStream key (groupIv n) (248 * i) 248)

/-- Bytes 0x10 to 0x37 of a SEAL body. -/
def sealClear (group count : Nat) (freed : List Nat) : List Byte :=
  leBytes 8 group ++ leBytes 2 count ++ leBytes 6 0 ++ (List.range 6).flatMap fun v => leBytes 4 (freed.getD v 0)

/-- Body of the SEAL flit that closes a group. -/
def groupSeal (key : List Byte) (n : Nat) (g : List (Nat × List Byte)) (freed : List Nat) : List Byte :=
  let clear := sealClear n g.length freed
  fillBody (gcmTag key (groupIv n) (g.flatMap (fun f => leBytes 4 f.1) ++ clear) (g.flatMap (·.2)) ++ clear)

/-- Credits a sender starts with (R239). -/
def startCredits : List Nat := [4096, 4096, 512, 512, 64, 64]

/-! ## Order (R239, R252) -/

/-- The channel a class sends on next, if one has a flit and a credit: the one that did not send last, where both have. -/
def Port.nextOf (x : Port) (c : Nat) : Option Nat :=
  let last := x.lastSet.getD c 0
  [2 * c + (1 - last), 2 * c + last].find? fun v => 0 < x.credits.getD v 0 && x.txq.any (·.vc = v)

/-- The channel that takes the next slot for a message flit: Pewter after 256 slots without one, then Carmine, Slate and
Pewter. -/
def Port.nextVc (x : Port) : Option Nat :=
  let c := [0, 1, 2].findSome? x.nextOf
  if 256 ≤ x.pewIdle then (x.nextOf 2).or c else c

/-- Type of the next flit of a message (R233). -/
def TxMsg.type (m : TxMsg) : Nat :=
  if m.left ≤ 1 then (if m.started then 3 else 4) else if m.started then 2 else 1

/-- A hop of a route: the port, the position at which the message leaves the ring, and whether it is on the
dateline-set channel (R250, R251). -/
structure Hop where
  port : Nat
  leave : Nat
  set_ : Bool
deriving DecidableEq, Repr

namespace State

/-! ## Routes (R250, R251) -/

/-- The hop of a message in dimension `d`, if it has one there: the shorter way, + when both are equal. It is on the
dateline-set channel from the hop that crosses the wrap link on; a hop passes the absent positions of its port. -/
def hopIn (s : State) (src dest d : Nat) : Option Hop :=
  let n := s.ringSize d
  let c := s.coord d
  let t := s.placeOf dest d
  let fwd := (t + n - c) % n
  if fwd = 0 then none
  else
    let plus : Bool := fwd ≤ n - fwd
    let at_ (e : Nat) : Nat := if e < d then s.placeOf dest e else if e = d then t else s.placeOf src e
    let from_ := s.placeOf src d
    let k := if plus then 2 * d + 1 else 2 * d
    let pass := (s.port k).absent.length
    some { port := k, leave := s.posOf (at_ 0) (at_ 1) (at_ 2),
           set_ := if plus then c < from_ || n ≤ c + 1 + pass else from_ < c || c ≤ pass }

/-- The next hop of a message, by dimension order; none at its destination. -/
def nextHop (s : State) (src dest : Nat) : Option Hop :=
  match s.hopIn src dest 0 with
  | some h => some h
  | none => match s.hopIn src dest 1 with
    | some h => some h
    | none => s.hopIn src dest 2

/-! ## Flits sent (R234, R235, R237, R239, R252) -/

/-- A port is trained: it carries flits (Up). -/
def portUp (s : State) (k : Nat) : Bool := s.getF F.FAB_PSTAT_STATE k = 5

/-- The key of the direction this module sends in: the first half for the lower position rank (R241). -/
def txKey (s : State) (k : Nat) : Option (List Byte) :=
  (s.port k).keys.map fun b => if s.pos < s.getF F.FAB_PSTAT_FAR_POS k then b.take 32 else b.drop 32

/-- A flit leaves by a port, with the highest in-order number received (R234). -/
def emitFlit (s : State) (k : Nat) (f : Flit) : State :=
  let x := s.port k
  let s := s.modPort k fun x => { x with pewIdle := if 4 ≤ f.vc ∧ f.vc < 6 then 0 else min 256 (x.pewIdle + 1) }
  s.emit (.flit k { f with ack := if x.heard then (x.rxNext + 4095) % 4096 else 0, ak := if x.heard then 1 else 0 })

/-- A flit with the next sequence number goes out and is kept until acknowledged (R235). -/
def sendSequenced (s : State) (k type vc : Nat) (body : List Byte) : State :=
  let x := s.port k
  let f : Flit := { type := type, vc := vc, seq := x.txNext, ack := 0, ak := 0, body := body }
  (s.setPort k { x with retry := x.retry ++ [{ flit := f, resent := 0 }], txNext := (x.txNext + 1) % 4096 }).emitFlit k f

/-- Closes the open group of a port with a SEAL flit, its body in clear (R237). -/
def sealGroup (s : State) (k : Nat) : State :=
  let x := s.port k
  let body := match s.txKey k with
    | some key => groupSeal key x.groupTx x.group x.freed
    | none => fillBody (List.replicate 16 0 ++ sealClear x.groupTx x.group.length x.freed)
  let s := s.sendSequenced k 5 0 body
  s.modPort k fun x => { x with groupTx := x.groupTx + 1, group := [], owedSeal := false, sealed := true, sealDue := false }

/-- Sends one flit of a group; after the 256th its SEAL is due. A port without keys, which is never Up, would send in
clear. -/
def sendFlit (s : State) (k type vc : Nat) (body : List Byte) : State :=
  let x := s.port k
  let b := match s.txKey k with
    | some key => sealBody key x.groupTx x.group.length body
    | none => fillBody body
  let head := flitHead { type := type, vc := vc, seq := x.txNext, ack := 0, ak := 0, body := [] }
  (s.sendSequenced k type vc b).modPort k fun x => { x with
    group := x.group ++ [(head, b)], sealDue := x.sealDue || 256 ≤ x.group.length + 1 }

/-- The next flit of the first message on a channel goes out for one credit. -/
def sendNext (s : State) (k vc : Nat) : State :=
  let x := s.port k
  match x.txq.find? (·.vc = vc) with
  | none => s
  | some m =>
    let rest := if m.left ≤ 1 then x.txq.erase m
      else x.txq.replace m { m with started := true, left := m.left - 1, data := m.data.drop 248 }
    let s := s.setPort k { x with
      txq := rest, credits := x.credits.set vc (x.credits.getD vc 0 - 1), lastSet := x.lastSet.set (vc / 2) (vc % 2) }
    s.sendFlit k m.type vc (m.data.take 248)

/-- Fills slots of a port in the order of R252 while what waits may go, `n` at most: nothing sequenced goes while 3,072
flits are unacknowledged (R235). -/
def pump (s : State) (k : Nat) : Nat → State
  | 0 => s
  | n + 1 =>
    let x := s.port k
    if 3072 ≤ x.retry.length then s
    else if x.sealDue then pump (s.sealGroup k) k n
    else match x.holdq with
      | b :: rest => pump ((s.setPort k { x with holdq := rest }).sendFlit k 7 0 b) k n
      | [] => match x.nextVc with
        | some vc => pump (s.sendNext k vc) k n
        | none => s

/-- Fills slots of a port that is Up. -/
def pumpUp (s : State) (k : Nat) : State := if s.portUp k then s.pump k 4096 else s

/-- A message joins what waits at the port of its hop, and goes out as far as it may (R245). -/
def queueMsg (s : State) (c : TClass) (h : MsgHdr) (v : Hop) (o : Out) : State :=
  let b := messageBytes o
  let m : TxMsg := { vc := classVc c + (if v.set_ then 1 else 0), part := h.part, task := h.task, next := h.next, started := false,
                     left := (b.length + 247) / 248, data := b }
  ((s.modPort v.port fun x => { x with txq := x.txq ++ [m] }).emit o).pumpUp v.port

/-- The position at which a message must leave its ring is absent beyond the port it would go by (R251). -/
def unreachable (s : State) (v : Hop) : Bool := (s.port v.port).absent.contains v.leave

end State
end Sys2Proof.Machine
end

