-- ==== Sys2Proof/Machine/Rollback.lean ====
section
/-! DEFINITION. Module faults and what they set off (R85, R311 to R321, R361): the fault report, the decision to roll
back, the stop of the step's work, and the stop of a plan. -/

namespace Sys2Proof.Machine
namespace State

/-- No task (R32). -/
def noTask : Nat := 0xFFFFFF

/-- A task the Planner adds (R32). -/
def plannerTask : Nat := 0xFFFFFE

/-- Key of what is kept per index and rank. -/
def rankKey (k r : Nat) : Nat := k + 65536 * r

/-- Home position of a logical rank under the plan's offsets (R263). -/
def homePos (s : State) (p r : Nat) : Nat :=
  let k := match (s.part p).plan with
    | some pl => (pl.ranks.ofsX, pl.ranks.ofsY, pl.ranks.ofsZ)
    | none => (0, 0, 0)
  s.posOf ((s.placeOf r 0 + k.1) % s.ringSize 0) ((s.placeOf r 1 + k.2.1) % s.ringSize 1)
    ((s.placeOf r 2 + k.2.2) % s.ringSize 2)

/-- Logical rank whose home is a position (R263). -/
def rankAt (s : State) (p q : Nat) : Nat :=
  let k := match (s.part p).plan with
    | some pl => (pl.ranks.ofsX, pl.ranks.ofsY, pl.ranks.ofsZ)
    | none => (0, 0, 0)
  let sub (a b n : Nat) := (a + n - b % n) % n
  s.posOf (sub (s.placeOf q 0) k.1 (s.ringSize 0)) (sub (s.placeOf q 1) k.2.1 (s.ringSize 1))
    (sub (s.placeOf q 2) k.2.2 (s.ringSize 2))

/-- The module's own rank. -/
def homeRank (s : State) (p : Nat) : Nat := s.rankAt p s.pos

/-- Position of the module that hosts a rank (R264). -/
def hostOf (s : State) (p r : Nat) : Nat :=
  match (s.part p).hosts.find? (·.1 = r) with
  | some (_, h) => h
  | none => s.homePos p r

/-- The ranks this module hosts: its own if at home, and those the hosting map brings (R264). -/
def ranksHere (s : State) (p : Nat) : List Nat :=
  (if s.hostOf p (s.homeRank p) = s.pos then [s.homeRank p] else []) ++
  (((s.part p).hosts.filter fun x => x.2 = s.pos ∧ x.1 ≠ s.homeRank p).map (·.1))

/-- Rank a task works for: the home rank, or the second rank for a hosted copy (R283). -/
def rankOfTask (s : State) (p t : Nat) : Nat :=
  if t < (s.part p).graph then s.homeRank p
  else ((s.ranksHere p).find? fun r => r ≠ s.homeRank p).getD (s.homeRank p)

/-- The task entry of a plan. -/
def taskOf (s : State) (p task : Nat) : Option Task :=
  match (s.part p).plan with
  | some pl => pl.tasks.find? (·.id = task)
  | none => none

/-- GRAPH tasks that a resume step also places for a newly hosted rank: its next-step ingest, index sort, index exchange and
prefetch (R283). -/
def leadIns (pl : Plan) (graph : Nat) : List Nat :=
  ((pl.tasks.take graph).filter fun t => natBits t.flags 1 1 = 1 && [4, 8, 0x0B, 0x0C].contains t.kind).map (·.id)

/-- The GRAPH task of which a task of a hosted schedule is a copy (R283). -/
def baseTask (s : State) (p t : Nat) : Nat :=
  let n := (s.part p).graph
  if t < n then t
  else if t < 2 * n then t - n
  else match (s.part p).plan with
    | some pl => (leadIns pl n).getD (t - 2 * n) t
    | none => t

/-- Partner rank (R263). -/
def partnerOf (s : State) (p r : Nat) : Nat :=
  match (s.part p).plan with
  | none => r
  | some pl =>
    let step (d : Nat) : Nat :=
      let n := s.ringSize d
      let a := s.placeOf r d
      if pl.ranks.pdim = d then (if pl.ranks.pdir = 1 then (a + 1) % n else (a + n - 1) % n) else a
    s.posOf (step 0) (step 1) (step 2)

/-- A live module: the hosting map names it as a host (R312). -/
def live (s : State) (p q : Nat) : Bool :=
  s.hostOf p (s.rankAt p q) = q || (s.part p).hosts.any (·.2 = q)

/-- The other live members of this module's ring in a dimension, by position rank (R312). -/
def ringPeers (s : State) (p d : Nat) : List Nat :=
  ((List.range (s.ringSize d)).map fun a =>
    s.posOf (if d = 0 then a else s.coord 0) (if d = 1 then a else s.coord 1) (if d = 2 then a else s.coord 2)).filter
  fun q => q ≠ s.pos && s.live p q

/-- Live modules of the job (R313). -/
def liveCount (s : State) (p : Nat) : Nat := ((List.range s.torus).filter fun q => s.live p q).length

/-- The 64 bytes of a report (R311). -/
def reportBytes (r : CommitReport) : List Byte :=
  leBytes 8 r.step ++ leBytes 1 r.attempt ++ leBytes 1 r.status ++ leBytes 1 r.cause ++ leBytes 1 r.stage ++ leBytes 4 r.count ++
  leBytes 8 r.faultBn ++ leBytes 4 r.origin ++ leBytes 4 r.task ++ leBytes 32 0

/-- The place of a member's report in the commit mailbox (R311). -/
def mailboxAt (s : State) (p : Nat) (r : CommitReport) : Nat :=
  s.getF F.PLN_COMMIT_MBOX_ADDR p + 64 * (64 * r.stage + r.member)

/-- The WRITE that carries a report to position `q` (R311, R316); no task sends it. -/
def reportMsg (s : State) (p : Nat) (r : CommitReport) (q : Nat) : MsgHdr :=
  { dest := q, src := s.pos, kind := 1, part := p, attempt := r.attempt, next := r.next, step := r.step, addr := s.mailboxAt p r,
    token := 0, task := noTask }

/-- Sends a report to one module; one that the fabric cannot take there is counted (R251). -/
def sendReportTo (s : State) (p : Nat) (r : CommitReport) (q : Nat) : State :=
  match s.nextHop s.pos q with
  | none => s
  | some v => if s.unreachable v then s.bump F.FAB_STAT_UNREACH 0
    else (s.emit (.report r q)).queueMsg .carmine (s.reportMsg p r q) v (.message .carmine (s.reportMsg p r q) (reportBytes r))

/-- Sends a report to every other live member of the ring of its stage (R312, R313). -/
def sendReport (s : State) (p : Nat) (r : CommitReport) : State :=
  (s.ringPeers p r.stage).foldl (fun s q => s.sendReportTo p { r with member := s.coord r.stage } q) s

/-- The plan stops: `RUN` clears, windows that are PENDING fail with the cause, and the partition event is signalled
(R361, R362). -/
def planStop (s : State) (p cause : Nat) : State :=
  let s := s.setRun p false
  let s := s.modPart p fun x => { x with
    active := false, committed := false, fresh := false, armed := false, stopAfter := false, stopAtRollback := false, waiting := false,
    restoring := false, rerunBn := none, k0 := none, charges := [], merged := [], windows := [], heldNow := false,
    nextFault := none, okSent := false, reports := [], sentStage := 0, claim := false }
  let s := s.putF F.PLN_COMMIT_STATUS_DSTATE p 0
  let s := s.putF F.PLN_SPOS_POS p 0
  let s := (List.range 32).foldl (fun s i =>
    let q := 32 * p + i
    let w := s.queue q
    if w.wState = 1 then (s.setQueue q { w with wState := 3, wCause := cause }).signalQ q else s) s
  s.pevt p 1

/-- The tile stops issuing and is no longer dispatched; what it issued completes (R317). -/
def stopTile (s : State) (g : Nat) : State :=
  let st := s.getF F.TIL_STATUS_STATE g
  if st = 1 ∨ st = 2 then
    (s.putF F.TIL_STATUS_STATE g 0).modTile g fun t =>
      { t with pend := t.pend.filter fun x => t.lastSlot.isNone ∨ x.seq < t.bundleSeq,
               lastSlot := none, fault := none, owed := [], jump := none, loops := [], wait := none, shadowOn := false }
  else s

/-- Token counters, banks, chain table and row carry of a tile as at the step's first beat (R61, R117, R139); what is in
flight for them is dropped, and a tile stopped by a fault is idle again (R85, R88). -/
def restoreTile (s : State) (g : Nat) : State :=
  let s := if s.getF F.TIL_STATUS_STATE g = 3 then s.putF F.TIL_STATUS_STATE g 0 else s
  s.modTile g fun t => { t with
    toks := [], banks := [], chains := t.chains0, carry := [], heldToks := [], arrives := [], partAt := none, unwaited := [],
    restored := s.now + 1,
    pend := t.pend.filter fun x => match x.eff with
      | .bank .. => false
      | .mult .. => false
      | .cfg .. => false
      | .dma .. => false
      | _ => true }

/-- A cluster-mover channel at a rollback: what has not moved whole stops, and a chain whose every write is visible still
delivers its token (R80, R317, R371). -/
def stopChannel (s : State) (p c : Nat) : State :=
  s.modCmover c fun m => { m with chains := m.chains.filter fun k => k.part ≠ p || k.addr = 0 }

/-- A plan that stops at a rollback: its tiles are restored, those held for inspection too (R61, R85, R86). -/
def stopRolled (s : State) (p cause : Nat) : State := ((s.tilesOf p).foldl restoreTile s).planStop p cause

/-- A port whose light goes past the module by its bypass: one that carried traffic goes down with its signal lost, one that
trained is Down (R244, R259). -/
def portDark (s : State) (k : Nat) : State :=
  let st := s.getF F.FAB_PSTAT_STATE k
  let x := s.port k
  if st = 5 ∨ st = 6 then
    (((s.setPort k { Port.reset with absent := x.absent, active := x.active, delay := x.delay }).putF F.FAB_PSTAT_CAUSE k 7).putF
      F.FAB_PSTAT_STATE k 0).elog 2 k 7 0
  else if st = 7 then s
  else s.putF F.FAB_PSTAT_STATE k 0

/-- The module reports itself failed and takes part in no plan: its switches close, so its ports lose their signal, and the
plans that run end, their PENDING windows with the cause `cause` (R203, R258, R259, R278, assumption 96). -/
def failModule (s : State) (fcause cause : Nat) : State :=
  if s.flag F.GEN_STATUS_FAILED 0 then s
  else
    let s := (List.range 6).foldl portDark (s.fail fcause)
    (List.range 8).foldl (fun s p => if s.running p then s.stopRolled p cause else s) s

/-- What an Ochre queue does at a rollback: unstarted commands are discarded with status 0x04, then RESTORE and FENCE
for the step are issued, before any command of the re-run (R217). -/
def ochRollback (s : State) (p step e : Nat) : State :=
  let o := s.och e p
  let drop := o.frames.map fun f => (f.tag, 0x04, 0)
  let mk (opc : Nat) : Frame :=
    { opc := opc, part := p, table := 0xFFFF, tag := plannerTask, opa := 0, opb := 0, count := 0,
      token := 2 ^ 63 + plannerTask, step := step, rsvdZero := true }
  if o.journal = [] ∧ o.frames = [] ∧ o.started = [] then s
  else s.setOch e p { o with frames := [mk 6, mk 8], records := o.records ++ drop }

/-- An engine still has journal records, frames or commands of the partition: its restore is not complete (R321). -/
def restoreBusy (s : State) (p : Nat) : Bool :=
  (List.range 9).any fun e =>
    let o := s.och e p
    o.journal ≠ [] || o.frames ≠ [] || o.started ≠ []

/-- A task of the running plan belongs to the next step (R32). -/
def isNextStep (pl : Plan) (t : Nat) : Bool :=
  match pl.tasks.find? (·.id = t) with
  | some k => natBits k.flags 1 1 = 1
  | none => false

/-- Updates a layer's tensors receive in a step (R305). -/
def updatesOf (pl : Plan) (layer : Nat) : Nat :=
  let u := ((pl.params.layers[layer]?).map (·.uint)).getD 0
  if u = 0 then 1 else ceilDiv ((pl.classes.map (·.mbCount)).getD 1) u

/-- Working copies that a step may have written over: those of tensors with two updates or more in it, by tensor and rank
hosted here. A step's first update leaves the region of version 0 alone (R303, R319). -/
def rewritten (s : State) (p : Nat) : List (Nat × Nat) :=
  match (s.part p).plan with
  | none => []
  | some pl =>
    let ts := (List.range pl.params.tensors.length).filter fun t => (pl.params.tensors[t]?).any fun e =>
      e.kind = 1 && 2 ≤ updatesOf pl e.layer && !(pl.params.layers[e.layer]?).any fun l => natBits l.flags 0 0 = 1
    ts.flatMap fun t => (s.ranksHere p).map fun r => (t, r)

/-- A rollback of the step is under way, its re-run not begun. -/
def rolling (s : State) (p : Nat) : Bool :=
  let x := s.part p
  x.rollbacks ≠ 0 && (x.rerunBn.isSome || (x.waiting && s.getF F.PLN_COMMIT_STATUS_DSTATE p ≠ 3))

/-- The attempt that reports are of: the one just rolled back until its re-run begins (R317, R320). -/
def attemptNow (s : State) (p : Nat) : Nat := if s.rolling p then (s.part p).rollbacks - 1 else (s.part p).rollbacks

/-- Messages of a partition's attempt that no port has begun are not sent, but those of the tasks kept, and reports
(R317). -/
def dropUnsent (s : State) (p : Nat) (keep : Nat → Bool) : State :=
  (List.range 6).foldl (fun s k => s.modPort k fun x => { x with txq := x.txq.filter fun m =>
    m.started || m.part ≠ p || 2 ≤ m.vc || m.task = noTask || (m.next && keep m.task) }) s

/-- The rollback of R317 and R319: the step's work stops, committed state is restored, and the re-run origin is set
unless the rollback waits for RESUME or RESTART (R318). -/
def rollback (s : State) (p : Nat) (r : CommitReport) : State :=
  let x := s.part p
  if s.rolling p then
    -- a rollback of this attempt is under way: a smaller FAULT_BN moves the origin, a wait withdraws it
    let k := min r.faultBn (x.k0.getD r.faultBn)
    let wait := x.waiting || r.status = 2
    let s := s.modPart p fun x => { x with
      k0 := some k, waiting := wait, reports := x.reports ++ [r],
      rerunBn := if wait then none else some (k + max 64 (s.getF F.PLN_COMMIT_CFG_ROLL_LEAD p)) }
    let s := if r.faultBn < x.k0.getD (r.faultBn + 1) then
        (((s.putF F.PLN_ROLL_BN_BN p r.faultBn).putF F.PLN_ROLL_INFO_ORIGIN p r.origin).putF
          F.PLN_ROLL_INFO_TASK p r.task).putF F.PLN_ROLL_INFO_CAUSE p r.cause
      else s
    s.putF F.PLN_COMMIT_STATUS_DSTATE p (if wait then 5 else s.getF F.PLN_COMMIT_STATUS_DSTATE p)
  else
    let step := s.getF F.PLN_STEP_STEP p
    let s := (s.tilesOf p).foldl stopTile s
    -- a tile stopped by a fault is held for inspection until the re-run's origin (assumption 94)
    let s := (s.tilesOf p).foldl (fun s g =>
      if s.getF F.TIL_STATUS_STATE g = 3 then s else s.restoreTile g) s
    let s := (s.clusters p).foldl (fun s c => (List.range 8).foldl (fun s ch => s.stopChannel p (8 * c + ch)) s) s
    let s := (List.range 32).foldl (fun s h =>
      match (s.mover h).chain with
      | some k => if k.queue.isNone ∧ k.part = p then s.modMover h fun m => { m with chain := none } else s
      | none => s) s
    let s := (List.range 9).foldl (fun s e => s.ochRollback p step e) s
    let s := (List.range 32).foldl (fun s i => s.modQueue (32 * p + i) fun q =>
      { q with shadow := [], shadowTask := 0 }) s
    let wait := r.status = 2
    -- next-step work is kept, but staleness-1 lookups and their returns are made again (R19, R197)
    let keep (t : Nat) : Bool := match x.plan with
      | some pl => isNextStep pl t && (pl.tasks.find? (·.id = t)).any fun k =>
          k.kind ≠ 6 && !(k.kind = 8 && Config.rowTransfer pl.meas (s.baseTask p t) = some 3)
      | none => false
    let stale (t : Nat) : Bool := match x.plan with
      | some pl => (pl.tables[t]?).any fun d => natBits d.flags 1 1 = 1
      | none => false
    let s := s.dropUnsent p keep
    let s := s.modPart p fun x => { x with
      rederive := (x.rederive ++ s.rewritten p).eraseDups, cleared := [],
      rollbacks := x.rollbacks + 1, k0 := some r.faultBn, waiting := wait,
      rerunBn := if wait then none else some (r.faultBn + max 64 (s.getF F.PLN_COMMIT_CFG_ROLL_LEAD p)),
      restoring := true, okSent := false, reports := [r], sentStage := 0,
      done := x.done.filter keep, started := x.started.filter keep, sent := x.sent.filter keep,
      windows := x.windows.filter fun w => keep w.task,
      copies := 0, colls := [], swaps := x.swaps.map fun w => { w with done := w.done - w.now, now := 0 },
      blocks := [], sats := [], rowSats := [], poolSats := [], calAttempt := [], mirrorAcked := false, deltaSent := 0, carried := [],
      logs := x.logs.filter fun l => l.step ≠ step,
      scales := x.scales.map fun q => (q.1, { q.2 with amax := 0 }),
      tables := x.tables.map fun q => (q.1, { q.2 with
        entries := [], rowGrads := [], reduced := false, nodes := [], made := [], move := q.2.move.map fun m => { m with ready := false },
        -- what staleness-1 lookups made in the step before stays (R197)
        pooled := q.2.pooled.filter fun v => v.mb / 65536 = step && stale (q.1 % 4096),
        recv := q.2.recv.map fun v => { v with
          grads := [], winners := [], gathered := v.gathered && v.mb / 65536 = step && stale (q.1 % 4096) } }),
      hotBest := none, hotAbove := 0, tileLeft := [], acts := [],
      prevFaults := x.tileFaults, tileFaults := [] }
    let s := s.bump F.PLN_COMMIT_STATUS_ROLLBACKS p
    let s := s.putF F.PLN_COMMIT_STATUS_ATTEMPT p (s.part p).rollbacks
    let s := s.putF F.PLN_COMMIT_STATUS_DSTATE p (if wait then 5 else 4)
    let s := (((s.putF F.PLN_ROLL_BN_BN p r.faultBn).putF F.PLN_ROLL_INFO_ORIGIN p r.origin).putF
      F.PLN_ROLL_INFO_TASK p r.task).putF F.PLN_ROLL_INFO_CAUSE p r.cause
    let s := if s.restoreBusy p then s else
      (s.modPart p fun x => { x with restoring := false }).putF F.PLN_COMMIT_STATUS_DSTATE p (if wait then 5 else 2)
    if (s.part p).stopAtRollback then s.stopRolled p r.cause else s

/-- A module fault of a partition (R317): the error-log entry of R442 with what its cause details; with a step in progress, the report of R311,
sent at once; before the OK report it rolls the step back, after it it counts against the next step (R316).
`stop` clears `RUN` at the rollback. -/
def moduleFaultAt (s : State) (p cause task : Nat) (stop : Bool) (detail : Nat) : State :=
  let s := s.elog 1 p cause detail
  let x := s.part p
  if !x.active then s
  else
    let s := if stop then s.modPart p fun x => { x with stopAtRollback := true } else s
    let r : CommitReport :=
      { step := s.getF F.PLN_STEP_STEP p + (if x.okSent then 1 else 0), attempt := s.attemptNow p % 256,
        status := if cause = 5 then 2 else 1, cause := cause, stage := 0, count := 0, faultBn := s.bn,
        origin := s.pos, task := task, next := x.okSent, member := s.coord 0 }
    let s := (List.range 3).foldl (fun s d => s.sendReport p { r with stage := d }) s
    if x.okSent then
      s.modPart p fun x => { x with reports := x.reports ++ [r], nextFault := match x.nextFault with
        | some f => if r.faultBn < f.faultBn then some r else some f
        | none => some r }
    else s.rollback p r

/-- A module fault without details. -/
def moduleFault (s : State) (p cause task : Nat) (stop : Bool) : State := s.moduleFaultAt p cause task stop 0

/-- The module fault in every partition whose plan runs. -/
def faultAll (s : State) (cause : Nat) : State :=
  (List.range 8).foldl (fun s p => if (s.part p).active then s.moduleFault p cause noTask false else s) s

/-- The partition that holds a tile, 0 if none. -/
def tilePart (s : State) (g : Nat) : Nat := (s.clusterPart (g / 8)).getD 0

/-- Records a plan fault of a tile in its registers (R85, R89). A PC past the store's last word is recorded at that
word (assumption 92). -/
def recordFault (s : State) (g code slot pc : Nat) : State :=
  if s.flag F.TIL_FAULT_VALID g then s.putF F.TIL_FAULT_MORE g 1
  else
    let s := (((s.putF F.TIL_FAULT_VALID g 1).putF F.TIL_FAULT_MORE g 0).putF F.TIL_FAULT_REPEAT g 0)
    let s := ((s.putF F.TIL_FAULT_SLOT g slot).putF F.TIL_FAULT_CODE g code).putF F.TIL_FAULT_PC g (min pc 16383)
    (s.putF F.TIL_FAULT_TASK g (s.getF F.TIL_STATUS_TASK g)).putF F.TIL_FAULT_BN_BN g s.bn

/-- A plan fault (R85, R86): the sequencer stops, nothing of the faulting bundle takes effect, the fault is recorded
and a module fault raised. The same code at the same task and PC as in the attempt before stops the plan, except
`MAYVARY_MISSING`. `PARTITION` freezes the tile and stops the plan. -/
def planFault (s : State) (g code slot pc : Nat) : State :=
  let p := s.tilePart g
  let task := s.getF F.TIL_STATUS_TASK g
  let s := s.modTile g fun t => { t with
    pend := t.pend.filter fun x => t.lastSlot.isNone ∨ x.seq < t.bundleSeq,
    units := if t.lastSlot.isNone then t.units else t.units0,
    lastSlot := none, fault := none, owed := [], partAt := none, jump := none, wait := none, frozen := t.frozen || code = 7 }
  let s := s.putF F.TIL_STATUS_STATE g 3
  let s := s.recordFault g code slot pc
  let rep := code ≠ 0x0A ∧ (s.part p).prevFaults.contains (code, task, pc)
  let s := if rep then s.putF F.TIL_FAULT_REPEAT g 1 else s
  let s := if code = 7 then s.freezeLog p 1 g false 0 else s
  let s := s.modPart p fun x => { x with
    tileFaults := x.tileFaults ++ [(code, task, pc)],
    forceBalOff := x.forceBalOff || code = 0x0A }
  s.moduleFault p 1 task (rep || code = 7)

/-- The plan fault `PARTITION` of a tile whose `xm.dma` on channel `ch` reached outside the allocation: at its next bundle
while it runs a kernel, recorded with slot 2 and that bundle's PC, else without one, at the `xm.dma` (R85, R485,
assumption 28). -/
def partitionFault (s : State) (g ch : Nat) : State :=
  let st := s.getF F.TIL_STATUS_STATE g
  if st = 1 ∨ st = 2 then s.planFault g 7 2 (s.tile g).pc
  else
    let p := s.tilePart g
    let (pc, task) := mget (0, 0) (s.tile g).dmaPc ch
    let s := s.modTile g fun t => { t with frozen := true, partAt := none }
    let s := (s.putF F.TIL_STATUS_STATE g 3).recordFault g 7 2 pc
    let s := (s.putF F.TIL_FAULT_TASK g task).freezeLog p 1 g false 0
    s.moduleFault p 1 task true

end State
end Sys2Proof.Machine
end

