-- ==== Sys2Proof/Machine/Hold.lean ====
section
/-! DEFINITION. Elastic holds (R43 to R48, R256, R257, R483): raising a request, merging entries, flooding changes and
the hold log. -/

namespace Sys2Proof.Machine
namespace State

/-- A full BN from its bits [31:0], the nearest to the current one (R255). -/
def fullBn (s : State) (l : Nat) : Nat :=
  let b := s.bn - s.bn % 2 ^ 32 + l % 2 ^ 32
  if s.bn + 2 ^ 31 < b ∧ 2 ^ 32 ≤ b then b - 2 ^ 32 else if b + 2 ^ 31 < s.bn then b + 2 ^ 32 else b

/-- The order of R256: demand descending, then origin, task and cause ascending. -/
def holdBefore (a b : HoldEntry) : Bool :=
  a.demand > b.demand || (a.demand = b.demand &&
    (a.origin < b.origin || (a.origin = b.origin &&
      (a.task < b.task || (a.task = b.task && a.cause ≤ b.cause)))))

/-- Two requests of one landing merged (R256). -/
def mergeEntry (a b : HoldEntry) : HoldEntry :=
  let w := if holdBefore a b then a else b
  { w with demand := max a.demand b.demand, overrun := a.overrun || b.overrun }

/-- The merged entry of a landing BN. -/
def entryAt (s : State) (p land : Nat) : Option HoldEntry := (s.part p).merged.find? (·.land = land)

/-- Sends a HOLD flit with an entry on every trained port (R252, R256). -/
def floodHold (s : State) (e : HoldEntry) : State :=
  (List.range 6).foldl (fun s k =>
    if s.portUp k then (s.modPort k fun x => { x with holdq := x.holdq ++ [holdBody [e]] }).pumpUp k else s) s

/-- Takes an entry whose `land` is a full BN into the partition's merged entries (R256); one learnt, or raised, once
its landing BN has been reached is late (R257). -/
def takeHold (s : State) (e : HoldEntry) : State :=
  let p := e.part
  let old := s.entryAt p e.land
  let m := match old with
    | some o => mergeEntry o e
    | none => e
  if old = some m then s
  else if e.land ≤ max s.bn (s.part p).landedBn then
    let raised := match old with
      | some o => o.demand < m.demand || (m.overrun && !o.overrun)
      | none => true
    if raised then (s.bump F.FAB_STAT_LATEHOLD 0).moduleFault p 0x07 e.task false else s
  else
    let s := s.modPart p fun x =>
      { x with merged := (x.merged.filter fun o => o.land ≠ e.land) ++ [m] }
    s.floodHold { m with land := m.land % 2 ^ 32 }

/-- Raises a request at the current BN: it lands `HOLD_LEAD` beats later (R45). An overrun has length 0. -/
def raiseHold (s : State) (p cause task len : Nat) (overrun : Bool) : State :=
  s.takeHold { land := s.bn + s.holdLead, demand := if overrun then 0 else min len 65535, overrun := overrun,
               cause := cause, part := p, origin := s.pos, task := task }

/-- Length an entry adds at its landing (R46). -/
def entryLen (e : HoldEntry) : Nat := e.demand + (if e.overrun then 1 else 0)

/-- Pending hold beats of a partition (R44). -/
def pendingHold (s : State) (p : Nat) : Nat := ((s.part p).charges.map (·.beats)).foldl (· + ·) 0

/-- Logs one held beat, charged to the earliest landing (R483). -/
def logHold (s : State) (p : Nat) (c : Charge) : State :=
  let x := s.part p
  let log := match x.holdLog.getLast? with
    | some l =>
      if x.heldNow ∧ l.cause = c.cause ∧ l.task = c.task ∧ l.origin = c.origin then
        x.holdLog.dropLast ++ [{ l with len := l.len + 1 }]
      else x.holdLog ++ [{ bn := s.bn, len := 1, cause := c.cause, task := c.task, origin := c.origin }]
    | none => [{ bn := s.bn, len := 1, cause := c.cause, task := c.task, origin := c.origin }]
  s.modPart p fun x => { x with holdLog := if 256 < log.length then log.drop 1 else log }

end State
end Sys2Proof.Machine
end

