-- ==== Sys2Proof/Machine/Digest.lean ====
section
/-! DEFINITION. The digests: CRC-64 of R336 and SHAKE256 with 64 bytes of output, as published. -/

namespace Sys2Proof.Machine

/-- One byte into a reflected CRC-64 register: eight shifts. -/
def crcBits : Nat → Word → Word
  | 0, c => c
  | n + 1, c => crcBits n (if c.getLsbD 0 then (c >>> 1) ^^^ 0xC96C5795D7870F42 else c >>> 1)

/-- CRC-64 with the reflected ECMA-182 polynomial, all-ones start and final inversion (R336). -/
def crc64 (bs : List Byte) : Word :=
  (bs.foldl (fun c b => crcBits 8 (c ^^^ b.setWidth 64)) 0xFFFFFFFFFFFFFFFF) ^^^ 0xFFFFFFFFFFFFFFFF

/-! ## SHAKE256: the sponge of Keccak-f[1600] at a rate of 136 bytes. The 25 lanes are held plane by plane, five each;
the constants are made as the round goes. -/

/-- The next state of the feedback shift register that spells the round constants, x⁸ + x⁶ + x⁵ + x⁴ + 1. -/
def iotaNext (r : BitVec 8) : BitVec 8 := if r.getLsbD 7 then r <<< 1 ^^^ 0x71 else r <<< 1

/-- Seven bits of the register make a round's constant, the j-th at place 2^j − 1; with them the register after. -/
def iotaWord (r : BitVec 8) : Word × BitVec 8 :=
  [0, 1, 3, 7, 15, 31, 63].foldl (fun q k =>
    (if q.2.getLsbD 0 then q.1 ^^^ (1 : Word) <<< k else q.1, iotaNext q.2)) (0, r)

/-- The planes of a state. -/
def planes (a : List Word) : List (List Word) := [0, 5, 10, 15, 20].map fun k => (a.drop k).take 5

/-- Each lane takes up the parities of the column to its left and of the one to its right, turned by one. -/
def mixColumns (a : List Word) : List Word :=
  let par := (planes a).foldl (List.zipWith (· ^^^ ·)) [0, 0, 0, 0, 0]
  let d := List.zipWith (fun u v => u ^^^ v.rotateLeft 1) (par.rotateRight 1) (par.rotateLeft 1)
  (planes a).flatMap (List.zipWith (· ^^^ ·) d)

/-- The walk over the 24 lanes other than the first: the lane at place `i`, turned by the next triangular number `turn`, goes
to the place where the walk goes on. `n` lanes are left. -/
def walkLanes : Nat → Nat → Nat → Nat → Word → List Word → List Word
  | 0, _, _, _, _, a => a
  | n + 1, i, turn, k, v, a =>
    let j := i / 5 + 5 * ((2 * (i % 5) + 3 * (i / 5)) % 5)
    walkLanes n j (turn + k + 1) (k + 1) (a.getD j 0) (a.set j (v.rotateLeft (turn % 64)))

/-- In a plane each lane takes up the second next where the next is 0. -/
def mixPlane (r : List Word) : List Word :=
  List.zipWith (· ^^^ ·) r (List.zipWith (fun u v => ~~~u &&& v) (r.rotateLeft 1) (r.rotateLeft 2))

/-- The permutation: `n` rounds from a state of the register. -/
def permute : Nat → BitVec 8 → List Word → List Word
  | 0, _, a => a
  | n + 1, r, a =>
    let a := mixColumns a
    let a := (planes (walkLanes 24 1 1 1 (a.getD 1 0) a)).flatMap mixPlane
    let (w, r) := iotaWord r
    permute n r (a.modifyHead (· ^^^ w))

/-- Up to `n` words of a byte string, low byte first. -/
def wordsOf : Nat → List Byte → List Word
  | 0, _ => []
  | n + 1, b => BitVec.ofNat 64 (leNat (b.take 8)) :: wordsOf n (b.drop 8)

/-- What fills a message of `n` bytes up to whole blocks: 0x1F first and 0x80 in the last byte. -/
def shakePad (n : Nat) : List Byte := match 135 - n % 136 with
  | 0 => [0x9F]
  | k + 1 => 0x1F :: List.replicate k 0 ++ [0x80]

/-- `n` blocks taken in. -/
def takeIn : Nat → List Word → List Byte → List Word
  | 0, a, _ => a
  | n + 1, a, m =>
    takeIn n (permute 24 1 (List.zipWith (· ^^^ ·) a (wordsOf 17 m ++ List.replicate 8 0))) (m.drop 136)

/-- `n` blocks given out. -/
def giveOut : Nat → List Word → List Byte
  | 0, _ => []
  | n + 1, a => (a.take 17).flatMap (fun w => leBytes 8 w.toNat) ++ giveOut n (permute 24 1 a)

/-- The first `n` bytes of SHAKE256 (R241, R352, R374). -/
def shakeBytes (n : Nat) (m : List Byte) : List Byte :=
  (giveOut ((n + 135) / 136) (takeIn (m.length / 136 + 1) (List.replicate 25 0) (m ++ shakePad m.length))).take n

/-- The first 64 bytes of SHAKE256 (R29, R36, R41). -/
def shake256 (m : List Byte) : List Byte := shakeBytes 64 m

/-- The digest as a number of 512 bits, its first byte lowest. -/
def shake512 (m : List Byte) : BitVec 512 := BitVec.ofNat 512 (leNat (shake256 m))

end Sys2Proof.Machine
end

