-- ==== Sys2Proof/Machine/Watch.lean ====
section
/-! DEFINITION. What the watches count and the digests take of a step (R94, R329, R330, R337): saturations charged to a
tensor, and the last write of each block. -/

namespace Sys2Proof.Machine
namespace State

/-- Adds `n` to the count at a key of a sparse list of counts. -/
def addCount (l : List (Nat × Nat)) (k n : Nat) : List (Nat × Nat) := mput 0 l k (mget 0 l k + n)

/-- The tensor a block written by a task belongs to, by the plan (assumption 6). -/
def tensorOf (s : State) (p task addr : Nat) : Option Nat :=
  match (s.part p).plan with
  | some pl => Config.outTensor pl.meas (s.baseTask p task) addr
  | none => none

/-- A code is stored as ±0, and as ±0 or a subnormal of its format, and as NaN or ±∞ (R330). -/
def codeClass (f code : Nat) : Bool × Bool × Bool :=
  match codeVal f code with
  | .nan => (false, false, true)
  | .inf _ => (false, false, true)
  | .fin _ m _ =>
    if f = 6 ∨ f = 7 then (m = 0, m = 0, false)
    else (m = 0, m < 2 ^ (fmtOf f).mb, false)

/-- Adds saturations of a task to a tensor's count (R94, R330). -/
def chargeSat (s : State) (p task addr n : Nat) : State :=
  if n = 0 then s else
  match s.tensorOf p task addr with
  | none => s
  | some k => s.modPart p fun x => { x with sats := addCount x.sats (rankKey k (s.rankOfTask p task)) n }

/-- A block's last write by a task and share: `codes` are the elements counted (R329, R330). -/
def chargeBlock (s : State) (p task share addr f : Nat) (codes : List Nat) (bytes : List Byte) : State :=
  match s.tensorOf p task addr with
  | none => s
  | some k =>
    let mb := ((s.taskOf p task).map (·.mb)).getD 0
    let r := s.rankOfTask p task
    let cls := codes.map (codeClass f)
    let v : BlockRec :=
      { tensor := k, rank := r, mb := mb, share := share, addr := addr, bytes := bytes, elems := cls.length,
        zero := (cls.filter (·.1)).length, quiet := (cls.filter (·.2.1)).length,
        nonfin := (cls.filter (·.2.2)).length }
    s.modPart p fun x => { x with
      blocks := (x.blocks.filter fun b => !(b.tensor = k && b.rank = r && b.mb = mb && b.addr = addr)) ++ [v] }

/-- Takes a history-mode block's `AMAX` into its tensor's scale state (R155). -/
def chargeAmax (s : State) (p task addr : Nat) (am : W32) : State :=
  match s.tensorOf p task addr with
  | none => s
  | some k =>
    let key := rankKey k (s.rankOfTask p task)
    s.modPart p fun x => { x with scales := x.scales.map fun q =>
      if q.1 = key ∧ q.2.amax.toNat < am.toNat then (q.1, { q.2 with amax := am }) else q }

end State
end Sys2Proof.Machine
end

