-- ==== Sys2Proof/Machine/Issue.lean ====
section
/-! DEFINITION. The tile sequencer (R56 to R64, R68, R74, R81 to R86): results in flight and their visibility, the
issue of a word within its bundle, and the close of a bundle. Every tile word is written with `issueWord`. -/

namespace Sys2Proof.Machine
namespace State

/-! ## Results becoming visible (R62 to R64) -/

/-- Seed and step of the running plan with a tensor identity (R162). -/
def srKey (s : State) (p tensor : Nat) : SrKey :=
  { seed := match (s.part p).plan with
      | some pl => pl.seed.toNat
      | none => 0,
    step := s.getF F.PLN_STEP_STEP p, tensor := tensor }

/-- Adds lane faults to `TIL_VC_EVENTS` (R131, R140). -/
def addEvents (s : State) (g : Nat) (e : LaneEv) : State :=
  (((s.bumpBy F.TIL_VC_EVENTS_INVALID g e.invalid).bumpBy F.TIL_VC_EVENTS_DIVZERO g e.divzero).bumpBy
    F.TIL_VC_EVENTS_OVERFLOW g e.overflow).bumpBy F.TIL_VC_EVENTS_SAT g e.sat

/-- Writes several byte strings of a tile's own. -/
def wrAll (s : State) (ws : List (Nat × List Byte)) : State := ws.foldl (fun s w => s.wrOwn w.1 w.2) s

/-! ## The plan checker's counts (R53) -/

/-- The checker is on. -/
def checkerOn (s : State) (p : Nat) : Bool :=
  (s.part p).chkEn || (match (s.part p).plan with
    | some pl => natBits pl.options 4 4 = 1
    | none => false)

/-- Counts a hazard and records the first (R53). -/
def hazard (s : State) (p task : Nat) : State :=
  let s := if s.getF F.PLN_CHK_COUNT_COUNT p = 0 then
      (s.putF F.PLN_CHK_FIRST_TASK p task).putF F.PLN_CHK_FIRST_POS p (s.getF F.PLN_SPOS_POS p)
    else s
  s.bump F.PLN_CHK_COUNT_COUNT p

/-- A hazard that no word of a bundle shows: it is counted, and with `CHK_FAULT` it is the plan fault `HAZARD` of the
first tile that runs the task's kernel, at the bundle it would issue next, or a module fault if no tile does
(assumption 93). -/
def unitHazard (s : State) (p task : Nat) : State :=
  let s := s.hazard p task
  if !(s.part p).chkFault then s
  else match (s.tilesOf p).find? fun g =>
      let st := s.getF F.TIL_STATUS_STATE g
      (st = 1 || st = 2) && s.getF F.TIL_STATUS_TASK g = task with
    | some g => s.planFault g 0x0B 3 (s.tile g).pc
    | none => s.moduleFault p 1 task false

/-- Bytes of a Cluster Store line, as the checker counts them (assumption 93). -/
def lineBytes : Nat := 128

/-- Master numbers of the checker: tiles from 0, cluster-mover channels from 256, host movers from 512, then the fabric,
the Collective Engine and ingest delivery. -/
def fabricMaster : Nat := 544
def collectiveMaster : Nat := 545
def ingestMaster : Nat := 546

/-- A master writes Cluster Store bytes: a line another master wrote in the same beat is a hazard (R53). -/
def noteLines (s : State) (p task master a n : Nat) : State :=
  if n = 0 ∨ ¬ s.checkerOn p ∨ a < clusterBase ∨ clusterBase + 32 * 0x200_0000 ≤ a then s
  else (List.range ((a + n - 1) / lineBytes + 1 - a / lineBytes)).foldl (fun s i =>
    let l := a / lineBytes + i
    let other := (s.part p).lineWrites.any fun w => w.1 = l && w.2 ≠ master
    let s := s.modPart p fun x => { x with lineWrites := (x.lineWrites.filter fun w => w.1 ≠ l) ++ [(l, master)] }
    if other then s.unitHazard p task else s) s

/-- A master that is no tile writes bytes of device memory. -/
def wrBy (s : State) (p task master a : Nat) (b : List Byte) : State := (s.wr a b).noteLines p task master a b.length

/-- Counts and digests of the blocks a run wrote; what its CONV stages saturated is charged with the first block of its
destination (R146, R329, R337). -/
def chargeRun (s : State) (g : Nat) (x : Pend) (dd : Desc) (o : ChainOut) : State :=
  let p := s.tilePart g
  let f := dFmt dd
  let s := s.chargeSat p x.task (devAddr g (dBase dd)) o.convSat
  o.blocks.foldl (fun s v =>
    let a := devAddr g (dBase dd) + blockOff dd v.b
    let codes := v.counted.map fun q => codeAt s.rd8 f a q
    let bytes := s.rd a (if f = 5 then 8704 else if dBS dd then 16386 else elemBytes f * 16384)
    let s := (s.chargeSat p x.task a v.sat).chargeBlock p x.task x.share a f codes bytes
    if dBS dd then s.chargeAmax p x.task a (BitVec.ofNat 32 (s.rdN (a + 16388) 4)) else s) s

/-- One result of tile `g` becomes visible in the current cycle. -/
def applyEff (s : State) (g : Nat) (x : Pend) : State :=
  let t := s.tile g
  match x.eff with
  | .sreg r v sh => s.setTile g (t.setS r v sh)
  | .dreg r v sh => s.setTile g (t.setD r v sh)
  | .preg r b => s.setTile g (t.setP r b)
  | .mem a bs => (s.wrOwn a bs).noteLines (s.tilePart g) x.task g a bs.length
  | .block a f sat bytes am =>
    let p := s.tilePart g
    let codes := if f = 5 then [] else
      (List.range 16384).map fun i => leNat ((bytes.drop (elemBytes f * i)).take (elemBytes f))
    let s := (s.chargeSat p x.task a sat).chargeBlock p x.task x.share a f codes bytes
    match am with
    | some v => s.chargeAmax p x.task a v
    | none => s
  | .bank b v => s.setTile g { t with banks := mput Bank.zero t.banks b v }
  | .mult m b da db z =>
    s.setTile g { t with banks := mput Bank.zero t.banks b (multiply s.memAt x.issue g m z da db (t.bank b)) }
  | .cfg c entry => s.setTile g { t with chains := mput [] t.chains c entry }
  | .chain entry dd da db dm msk trailers =>
    let r : RunArgs := { g := g, t0 := x.issue, e := entry, dd := dd, da := da, db := db, dm := dm, msk := msk,
                         key := s.srKey (s.tilePart g) (eTensor entry), trailers := trailers }
    let o := chainRun r s.memAt s.rd8 t.carry
    -- a run issued before a rollback leaves the row carry as the rollback made it (R139)
    let s := if x.issue < t.restored then s else s.setTile g { t with carry := o.carry }
    ((s.wrAll o.writes).addEvents g o.ev).chargeRun g x dd o
  | .dma ch tk addr pc task =>
    let p := s.tilePart g
    let c := 8 * (g / 8) + ch
    let s := s.setTile g { t with dmaPc := mput (0, 0) t.dmaPc ch (pc, task) }
    if (s.cmover c).frozen then s.moduleFault p 0x0C task false
    else s.modCmover c fun m => { m with chains := m.chains ++
      [{ tile := some g, token := tk, part := p, task := task, addr := addr, desc := none, since := some x.issue }] }

/-- Order in which results become visible: cycle, then issue order (R63). -/
def pendBefore (a b : Pend) : Bool := a.vis < b.vis || (a.vis = b.vis && a.seq < b.seq)

/-- The first result in flight of a tile. -/
def firstPend (l : List Pend) : Option Pend :=
  l.foldl (fun m x => match m with
    | none => some x
    | some y => if pendBefore x y then some x else some y) none

/-- The tile and result that become visible first, not after cycle `c`; of several tiles the highest, so that of two that
write one Cluster Store byte in one cycle the lower keeps its write (R64). -/
def nextDue (s : State) (c : Nat) : Option (Nat × Pend) :=
  s.tiles.foldl (fun m t => match firstPend t.2.pend with
    | none => m
    | some x => if c < x.vis then m else match m with
      | none => some (t.1, x)
      | some (h, y) => if x.vis ≤ y.vis then some (t.1, x) else some (h, y)) none

/-- Forgets overwritten bytes that no read in flight can reach. -/
def pruneHistory (s : State) : State :=
  { s with history := s.history.filter fun h => s.tracked h.2.1 }

/-- Makes one result visible: the effect, then the result leaves the tile. -/
def land (s : State) (g : Nat) (x : Pend) : State :=
  let s := { s with now := max s.now x.vis }
  let s := s.applyEff g x
  (s.modTile g fun t => { t with pend := t.pend.filter fun y => y.seq ≠ x.seq ∨ y.eff ≠ x.eff }).pruneHistory

/-- Makes every result due by cycle `c` visible, at most `n` of them. -/
def settle : Nat → Nat → State → State
  | 0, _, s => s
  | n + 1, c, s => match s.nextDue c with
    | none => s
    | some (g, x) => settle n c (s.land g x)

/-- Results in flight. -/
def pendCount (s : State) : Nat := (s.tiles.map fun t => t.2.pend.length).foldl (· + ·) 0

/-- Time advances to cycle `c`, and what is due by then becomes visible. -/
def advance (s : State) (c : Nat) : State :=
  let s := settle s.pendCount c s
  { s with now := max s.now c }

/-! ## Issue -/

/-- A word of tile `g`'s instruction store. -/
def istoreWord (s : State) (g i : Nat) : Word := BitVec.ofNat 64 (s.rdN (istoreAddr g + 8 * i) 8)

/-- Index after the bundle that holds word `i`, looking at most `n` words on. -/
def bundleEnd (s : State) (g : Nat) : Nat → Nat → Nat
  | 0, i => i
  | n + 1, i => if wE (s.istoreWord g i) then i + 1 else s.bundleEnd g n (i + 1)

/-- Opens a bundle if none is open: time comes to its issue cycle. A bundle that issues once the first descriptor of a chain
has been refused faults with `PARTITION` (R85). -/
def openBundle (s : State) (g : Nat) : State :=
  if (s.tile g).lastSlot.isSome then s
  else
    let s := s.advance (s.tile g).nextIssue
    if (s.tile g).partAt.any (·.1 ≤ s.now) then s.planFault g 7 2 (s.tile g).pc
    else s.modTile g fun t => { t with
      bundlePc := t.pc, bundleAt := s.now, bundleSeq := t.seq, units0 := t.units, fault := none, owed := [], jump := none,
      wait := none, nextIssue := s.now + 1 }

/-- The lower of two fault codes (R84). -/
def lowest (a b : Option Nat) : Option Nat :=
  match a, b with
  | some x, some y => some (min x y)
  | some x, none => some x
  | none, y => y

/-- Notes a fault of the word at `pc`; of several in a bundle the lowest code is kept, of equal codes the first word. -/
def noteFault (t : Tile) (code slot pc : Nat) : Tile :=
  match t.fault with
  | some (c, _, _) => if code < c then { t with fault := some (code, slot, pc) } else t
  | none => { t with fault := some (code, slot, pc) }

/-! ## Scale retries (R156 to R160, R167) -/

/-- Counts an extra conversion of the layer and micro-batch: the first costs nothing, the cost of a later one joins C, and
growth of ⌈C/1,024⌉ is a scale-retry request (R158). -/
def extraConversion (s : State) (g cost : Nat) : State :=
  let p := s.tilePart g
  let t := s.tile g
  if t.extra = 0 then s.setTile g { t with extra := 1, retryCost := 0 }
  else
    let c := t.retryCost + cost
    let s := s.setTile g { t with extra := t.extra + 1, retryCost := c }
    let s := s.bump F.PLN_SCALE_STATUS_EXTRA p
    let grow := (c + 1023) / 1024 - (t.retryCost + 1023) / 1024
    if 0 < grow then s.raiseHold p 3 (s.getF F.TIL_STATUS_TASK g) grow false else s

/-- How far a block's procedure is after one more conversion, and whether that conversion is an extra one. The attempts of
R157 are 1 to 4 and its fallback 5; in a cold step the measuring conversion of R156 is 6 and the write 7. A block converted
once at a recorded exponent is a recomputation, 0 (R159). -/
def convStep (cold : Bool) (times : Nat) (e : Int) (fallback : Bool) : Nat × Bool :=
  if cold then (if !fallback then (6, true) else if times = 6 then (7, true) else (0, false))
  else if fallback then (if times = 4 then (5, true) else (0, false))
  else if e = 0 then (1, false)
  else if 1 ≤ times ∧ times ≤ 3 ∧ e = times then (times + 1, true)
  else (0, false)

/-- The tensor of a block the tile's task writes, if its scale is managed by history, with its entry. -/
def historyTensor (s : State) (g a : Nat) : Option (Nat × TensorEnt) :=
  let p := s.tilePart g
  match s.tensorOf p (s.getF F.TIL_STATUS_TASK g) a, (s.part p).plan with
  | some k, some pl => match pl.params.tensors[k]? with
    | some e => if e.smode = 1 then some (k, e) else none
    | none => none
  | _, _ => none

/-- The tile's counts for the layer and micro-batch of a tensor: those that stand, or new ones (R158). -/
def retryTile (s : State) (g layer : Nat) : Tile :=
  let t := s.tile g
  let mb := ((s.taskOf (s.tilePart g) (s.getF F.TIL_STATUS_TASK g)).map (·.mb)).getD 0
  if t.retryFor = (layer, mb) then t
  else { t with retryFor := (layer, mb), extra := 0, retryCost := 0, convs := [] }

/-- A conversion into a block with a scale trailer (R156 to R159). A block of a tensor that history does not manage takes
no part (R160). -/
def noteConv (s : State) (g a cost : Nat) (tr : List Byte) : State :=
  match s.historyTensor g a with
  | none => s
  | some (k, e) =>
    let p := s.tilePart g
    let t := s.retryTile g e.layer
    let cold := (s.part p).scales.any fun q =>
      q.1 = rankKey k (s.rankOfTask p (s.getF F.TIL_STATUS_TASK g)) && q.2.coldStep
    let old := ((t.convs.find? (·.addr = a)).map (·.times)).getD 0
    let fb : Bool := 0x80 ≤ (tr.getD 1 0).toNat
    let (n, extra) := convStep cold old (bexp (tr.getD 0 0)) fb
    let v : Conv := { addr := a, times := n, image := devAddr g (leNat ((tr.drop 12).take 4)) }
    let s := s.setTile g { t with convs := (t.convs.filter (·.addr ≠ a)) ++ [v] }
    let s := if extra then s.extraConversion g cost else s
    if n = 5 then s.bump F.PLN_SCALE_STATUS_FALLBACK p else s

/-- A BF16 block stored where a block in fallback has its image: the write is an extra conversion of its procedure, once
(R156, R157). -/
def noteImage (s : State) (g a f cost : Nat) : State :=
  let t := s.tile g
  if f = 1 ∧ t.convs.any (fun v => v.image = a && (v.times = 5 || v.times = 7)) then
    (s.setTile g { t with convs := t.convs.map fun v => if v.image = a then { v with times := 0 } else v }).extraConversion
      g cost
  else s

/-- What a word adds once its bundle has not faulted. -/
def settleOwed (s : State) (g : Nat) (o : Owed) : State :=
  let task := s.getF F.TIL_STATUS_TASK g
  match o with
  | .hazard => s.hazard (s.tilePart g) task
  | .conv a _ cost tr => s.noteConv g a cost tr
  | .image a f cost => s.noteImage g a f cost
  | .bankSat b a =>
    let k := (s.tile g).bank b
    (s.modTile g fun t => { t with banks := mput Bank.zero t.banks b { k with sat := 0 } }).chargeSat (s.tilePart g) task a
      k.sat

/-- A word of the open bundle owes a count. -/
def owe (s : State) (g : Nat) (o : Owed) : State := s.modTile g fun t => { t with owed := t.owed ++ [o] }

/-- Where the flow goes after a bundle that ends before word `pc`: back to the body's start, or out of the loops that
end here (R74). -/
def backEdge (first pc : Nat) : List Loop → Nat × List Loop
  | [] => (pc, [])
  | l :: ls =>
    if first ≤ l.stop ∧ l.stop < pc then
      if 1 < l.left then (l.start, { l with left := l.left - 1 } :: ls) else backEdge first pc ls
    else (pc, l :: ls)

/-- Closes the bundle: its fault if it has one, a checker hazard counted first, else what its words owe is counted and the
flow of control goes on. A branch taken in the last bundle of a loop's body goes to its target and leaves the loop's count
(assumption 105). -/
def closeBundle (s : State) (g : Nat) : State :=
  match (s.tile g).fault with
  | some (c, slot, pc) =>
    (if c = 0x0B then s.hazard (s.tilePart g) (s.getF F.TIL_STATUS_TASK g) else s).planFault g c slot pc
  | none =>
    let s := (s.tile g).owed.foldl (fun s o => s.settleOwed g o) s
    let t := s.tile g
    let (pc, loops) := match t.jump with
      | some j => (j, t.loops)
      | none => backEdge t.bundlePc t.pc t.loops
    s.modTile g fun t => { t with pc := pc, loops := loops, lastSlot := none, jump := none, owed := [] }

/-- The PC has passed 16,383: `ISTORE`, recorded at the last word of the store (R74, assumption 92). -/
def pastStore (s : State) (g : Nat) : State :=
  let t := s.tile g
  (s.setTile g (noteFault t 3 (t.lastSlot.getD (wSlot (s.istoreWord g 16383))) 16383)).closeBundle g

/-- Issues word `w` of tile `g` (R56 to R59, R84, R85). `ok` says that it is a legal word of its opcode; `dyn` gives the
lowest fault its execution would raise; `act` is its effect. A word of a tile that is not issuing does nothing. The bundle
ends with its `E` bit, or at a word that breaks the slot order. -/
def issueWord (s : State) (g : Nat) (w : Word) (ok : Bool) (dyn : State → Option Nat) (act : State → State) : State :=
  if s.getF F.TIL_STATUS_STATE g ≠ 1 ∨ (s.tile g).frozen then s
  else
    let s := s.openBundle g
    if s.getF F.TIL_STATUS_STATE g ≠ 1 then s
    else if 16383 < (s.tile g).pc then s.pastStore g
    else
      let t := s.tile g
      let slot := wSlot w
      let order : Bool := match t.lastSlot with
        | some l => decide (slot ≤ l)
        | none => false
      let exec := guardOk t w
      let f := lowest (if ok then none else some 1) (lowest (if order then some 2 else none)
        (if ok && exec then dyn s else none))
      let s := match f with
        | some c => s.setTile g (noteFault t c slot t.pc)
        | none => if exec && t.fault.isNone then act s else s
      let s := s.modTile g fun t => { t with pc := t.pc + 1, lastSlot := some slot, seq := t.seq + 1 }
      if wE w || order then s.closeBundle g else s

/-- Puts an effect of the word being issued in flight, visible `lat` cycles from now. -/
def inFlight (s : State) (g lat : Nat) (e : Eff) : State :=
  s.modTile g fun t => { t with pend := t.pend ++
    [{ vis := s.now + lat, issue := s.now, seq := t.seq, eff := e, task := s.getF F.TIL_STATUS_TASK g, share := t.share }] }

/-- A fault code if a condition holds. -/
def faultIf (b : Bool) (code : Nat) : Option Nat := if b then some code else none

/-- The instruction's address differs from the static plan's and its may-vary bit is 0 (R83). -/
def mayVary (t : Tile) (w : Word) (same : Bool) : Option Nat := faultIf (t.shadowOn && !wMV w && !same) 0x0A

/-- A shadow result: the actual one if the may-vary bit is set (R83). -/
def shadowOf {α : Type} (w : Word) (v sh : α) : α := if wMV w then v else sh

/-- A bank is in use by the other unit (R68). -/
def bankBusy (l : List (Nat × Nat)) (b now : Nat) : Bool := l.any fun x => x.1 = b && now < x.2

/-! ## Hazards of a word (R53, R62) -/

/-- Registers, descriptors, predicates and banks a word reads, the device ranges with the cycle that reads them, and the
ranges it writes with the cycle from which they are visible. -/
structure Reads where
  sr : List Nat
  dr : List Nat
  pr : List Nat
  br : List Nat
  ranges : List (Nat × Nat × Nat)
  writes : List (Nat × Nat × Nat) := []
deriving DecidableEq, Repr

/-- Elements of block `b` in a stream of `n`. -/
def blockLen (n b : Nat) : Nat := min 16384 (n - 16384 * b)

/-- One past the largest column and the largest row of a stream of `n` elements in a geometry of `cols` block columns
(R113). -/
def extent (n cols : Nat) : Nat × Nat :=
  (List.range ((n + 16383) / 16384)).foldl (fun m b =>
    let k := blockLen n b
    (max m.1 (128 * (b % cols) + min 128 k), max m.2 (128 * (b / cols) + (k + 127) / 128))) (0, 0)

/-- One past the largest position a broadcast mode reads (R114). -/
def readEnd (mode n cols : Nat) : Nat :=
  match mode with
  | 0 => n
  | 1 => (extent n cols).1
  | 2 => (extent n cols).2
  | _ => 1

/-- A stage of the entry is one of these (type, operations). -/
def holdsOp (e : List Byte) (typ : Nat) (ops : List Nat) : Bool := (eAll e).any fun s => s.typ = typ && ops.contains s.op

/-- Flag bytes a run writes (R136). -/
def flagCount (e : List Byte) (n cols : Nat) : Nat :=
  if eFlag e = 0 then 0
  else if eReduces e then reduceCount (eLast e).axis n cols
  else if holdsOp e 6 [1, 2, 4, 5] then (extent n cols).2
  else 0

/-- What a multiply issued in cycle `t0` reads, with the cycles of R484: lines or skewed columns of the elements, and the
trailer or scale bytes of each block with its first position. -/
def mulRanges (g t0 : Nat) (m : MulMode) (da db : Desc) : List (Nat × Nat × Nat) :=
  let rng (d : Desc) (cols : Bool) : List (Nat × Nat × Nat) :=
    let f := dFmt d
    let lineB := if f = 5 then 64 else 128 * elemBytes f
    ((List.range (128 * stripLen d)).map fun k =>
      let a := devAddr g (dBase d) + blockOff d (k / 128)
      let cyc := t0 + k * rate2 f / 2
      (if k % 128 ≠ 0 then [] else if dBS d then [(a + 16384, 64, cyc)] else if f = 5 then [(a + 8192, 512, cyc)] else []) ++
      if cols then (List.range 128).map fun i =>
        (if f = 5 then a + storePos i (k % 128) / 2 else a + elemBytes f * storePos i (k % 128), max 1 (elemBytes f), cyc)
      else [(a + k % 128 * lineB, lineB, cyc)]).flatten
  let ax := mulAxes m
  rng da ax.1 ++ rng db ax.2

/-- What a chain run issued in cycle `t0` reads, line by line, the metadata of each block with its first line (R116). -/
def runRanges (g t0 : Nat) (e : List Byte) (dd da db dm : Desc) (mk : Bool) : List (Nat × Nat × Nat) :=
  let n := dLen dd
  let size (d : Desc) : Nat := if dFmt d = 5 then 64 else 128 * elemBytes (dFmt d)
  let lineOf (d : Desc) (k : Nat) : Nat × Nat × Nat :=
    (devAddr g (dBase d) + blockOff d (k / 128) + k % 128 * size d, size d, t0 + k)
  let view (d : Desc) (mode : Nat) : List (Nat × Nat × Nat) :=
    if mode = 0 then (List.range ((n + 127) / 128)).map (lineOf d)
    else (List.range ((readEnd mode n (dCols da) + 127) / 128)).map fun k => let (a, z, _) := lineOf d k; (a, z, t0)
  let md (d : Desc) : List (Nat × Nat × Nat) := (List.range ((n + 16383) / 16384)).filterMap fun b =>
    let a := devAddr g (dBase d) + blockOff d b
    if dBS d then some (a + 16384, 64, t0 + 128 * b)
    else if dFmt d = 5 then some (a + 8192, 512, t0 + 128 * b) else none
  view da 0 ++ md da ++ (if usesB e then view db (eBmode e) ++ md db else []) ++ (if mk then view dm (eMmode e) else [])

/-- Ranges a chain run writes: the lines of its destination, the trailers' `AMAX` and `SATCOUNT`, and its flag bytes. -/
def runWrites (g vis : Nat) (e : List Byte) (dd da : Desc) : List (Nat × Nat × Nat) :=
  let n := if eReduces e then reduceCount (eLast e).axis (dLen dd) (dCols da) else dLen dd
  let k := flagCount e (dLen dd) (dCols da)
  ((List.range ((n + 16383) / 16384)).map fun b =>
    let a := devAddr g (dBase dd) + blockOff dd b
    if dFmt dd = 5 then [(a, 8704, vis)]
    else (a, elemBytes (dFmt dd) * blockLen n b, vis) :: if dBS dd then [(a + 16388, 8, vis)] else []).flatten ++
  if k = 0 then [] else [(devAddr g (eFlag e), k, vis)]

/-- Ranges that a result in flight writes. -/
def effWrites (g : Nat) (x : Pend) : List (Nat × Nat × Nat) :=
  match x.eff with
  | .mem a bs => [(a, bs.length, x.vis)]
  | .chain e dd da _ _ _ _ => runWrites g x.vis e dd da
  | _ => []

/-- Ranges that a result in flight still reads. -/
def effReads (g : Nat) (x : Pend) : List (Nat × Nat × Nat) :=
  match x.eff with
  | .mult m _ da db _ => mulRanges g x.issue m da db
  | .chain e dd da db dm msk _ => runRanges g x.issue e dd da db dm msk
  | _ => []

/-- Two ranges share a byte. -/
def overlap (a n b m : Nat) : Bool := a < b + m && b < a + n

/-- Something read is the target of a result of an earlier bundle that is not visible when it is read. -/
def pendingTo (g : Nat) (t : Tile) (r : Reads) (now : Nat) : Bool :=
  t.pend.any fun x => now < x.vis && x.seq < t.bundleSeq && match x.eff with
    | .sreg k .. => r.sr.contains k
    | .dreg k .. => r.dr.contains k
    | .preg k _ => r.pr.contains k
    | .bank b _ => r.br.contains b
    | .mult _ b .. => r.br.contains b
    | _ => (effWrites g x).any fun v => r.ranges.any fun q => overlap v.1 v.2.1 q.1 q.2.1 && q.2.2 < x.vis

/-- Something written is read by a multiply or a run in flight after the word issues and before its write is visible
(R484). -/
def readBefore (g : Nat) (t : Tile) (r : Reads) (now : Nat) : Bool :=
  r.writes ≠ [] && t.pend.any fun x => (effReads g x).any fun q =>
    now < q.2.2 && r.writes.any fun v => overlap v.1 v.2.1 q.1 q.2.1 && q.2.2 < v.2.2

/-- Something read was written by variable-latency work whose token the tile has not waited for. -/
def unwaitedRead (t : Tile) (r : Reads) : Bool :=
  t.unwaited.any fun u => r.ranges.any fun q => overlap u.1 u.2.1 q.1 q.2.1

/-- The word is a hazard of the checker's first or second kind (R53, R62, R484). -/
def isHazard (s : State) (g : Nat) (w : Word) (r : Reads) : Bool :=
  let t := s.tile g
  s.checkerOn (s.tilePart g) &&
    (pendingTo g t { r with sr := r.sr.filter (· ≠ 0), pr := wGP w :: r.pr } s.now || readBefore g t r s.now ||
      unwaitedRead t r)

/-- With `CHK_FAULT` a hazard is a plan fault: the first one stops the attempt. -/
def hazardFault (s : State) (g : Nat) (w : Word) (r : Reads) : Option Nat :=
  faultIf (s.isHazard g w r && (s.part (s.tilePart g)).chkFault) 0x0B

/-- Without it a hazard is counted and the plan runs on. -/
def noteHazard (s : State) (g : Nat) (w : Word) (r : Reads) : State :=
  if s.isHazard g w r then s.owe g .hazard else s

/-- The tile has waited for a counter: what that work wrote may be read (R53). -/
def waited (s : State) (g tk : Nat) : State :=
  s.modTile g fun t => { t with unwaited := t.unwaited.filter fun u => u.2.2 ≠ tk }

end State
end Sys2Proof.Machine
end

