-- ==== Sys2Proof/Machine/Stash.lean ====
section
/-! DEFINITION. The weight stash (R102 to R105, R303): which version of a layer's weights a micro-batch reads, the
dependences the Planner adds for it, and which versions are in being. Which layer a tile task reads or writes no field of
an image says (assumption 15). -/

namespace Sys2Proof.Machine
namespace Plan

/-- Layer and role of a task. -/
def role (pl : Plan) (t : Nat) : Option (Nat × Nat) := Config.taskRole pl.meas t

/-- Tile tasks of a layer in a role: 0 forward, 1 backward, 2 update. -/
def inRole (pl : Plan) (layer k : Nat) : List Task := pl.tasks.filter fun t => pl.role t.id = some (layer, k)

/-- Layers that stand in some role, each once. -/
def stashed (pl : Plan) : List Nat := ((pl.tasks.filterMap fun t => pl.role t.id).map (·.1)).eraseDups

/-- Tasks that precede those of a list in the graph, found in `n` sweeps over the dependences. -/
def preceding (pl : Plan) : Nat → List Nat → List Nat
  | 0, ts => ts
  | n + 1, ts =>
    let more := ((pl.deps.filter fun d => ts.contains d.succ && !ts.contains d.pred).map (·.pred)).eraseDups
    if more = [] then ts else preceding pl n (ts ++ more)

/-- Task `a` precedes task `b` in the graph. -/
def before (pl : Plan) (a b : Nat) : Bool := a ≠ b && (pl.preceding pl.tasks.length [b]).contains a

/-- Updates of a layer that precede a task. -/
def updatesBefore (pl : Plan) (layer t : Nat) : Nat := ((pl.inRole layer 2).filter fun u => pl.before u.id t).length

/-- The version a micro-batch is bound to: that of the last update before its forward task (R102). -/
def boundVersion (pl : Plan) (layer mb : Nat) : Nat :=
  match (pl.inRole layer 0).find? (·.mb = mb) with
  | some f => pl.updatesBefore layer f.id
  | none => 0

/-- Kernels that read a version: every forward and backward task of the micro-batches bound to it. -/
def readersOf (pl : Plan) (layer v : Nat) : List Task :=
  (pl.inRole layer 0 ++ pl.inRole layer 1).filter fun t => pl.boundVersion layer t.mb = v

/-- The last backward tasks bound to a version: those no other of them follows. -/
def lastBackward (pl : Plan) (layer v : Nat) : List Task :=
  let bs := (pl.inRole layer 1).filter fun t => pl.boundVersion layer t.mb = v
  bs.filter fun t => bs.all fun o => !pl.before t.id o.id

/-- Dependences the Planner adds for a layer: a forward task goes before an update that is unordered with it (R102), and the
update that writes version v + 1 waits for the last backward task bound to version v − 1 (R103). -/
def orderOf (pl : Plan) (layer : Nat) : List Dep :=
  let us := pl.inRole layer 2
  let free := us.flatMap fun u => ((pl.inRole layer 0).filter fun f => !pl.before u.id f.id && !pl.before f.id u.id).map fun f =>
    ({ pred := f.id, succ := u.id, lag := 0 } : Dep)
  let reuse := us.flatMap fun u =>
    let v := pl.updatesBefore layer u.id
    if v = 0 then [] else ((pl.lastBackward layer (v - 1)).filter fun b => !pl.before u.id b.id).map fun b =>
      ({ pred := b.id, succ := u.id, lag := 0 } : Dep)
  free ++ reuse

/-- The plan with the Planner's own dependences. -/
def ordered (pl : Plan) : Plan := { pl with deps := pl.deps ++ pl.stashed.flatMap pl.orderOf }

end Plan

/-- Physical region of a version of step `n` (R303). -/
def versionRegion (n v : Nat) : Nat := (n + v) % 2

/-- Physical regions the update that writes version `v` of step `n` writes its working copy into; `last` is the layer's number
of updates in the step. The last goes to the region of the next step's version 0, and to both if that number is even
(R303). -/
def copyRegions (n v last : Nat) : List Nat :=
  if v = last ∧ last % 2 = 0 then [(n + 1) % 2, n % 2] else [versionRegion n v]

/-- The plan's own graph of `n` tasks, without the copies of a hosted schedule (R283). -/
def Plan.base (pl : Plan) (n : Nat) : Plan :=
  { pl with tasks := pl.tasks.take n, deps := pl.deps.filter fun d => d.pred < n && d.succ < n }

namespace State

/-- Id of a GRAPH task for a rank hosted here: the second rank's copies follow the graph (R283). -/
def rankTask (s : State) (p r t : Nat) : Nat := if r = s.homeRank p then t else t + (s.part p).graph

def modStash (s : State) (p layer r : Nat) (f : Stash → Stash) : State :=
  s.modPart p fun x => { x with stash := mput Stash.reset x.stash (rankKey layer r) (f (mget Stash.reset x.stash (rankKey layer r))) }

/-- A micro-batch's first forward kernel of a stashed layer binds it to its version (R102). -/
def bindStash (s : State) (p task : Nat) : State :=
  match (s.part p).plan with
  | none => s
  | some full =>
    let pl := full.base (s.part p).graph
    match pl.role (s.baseTask p task), s.taskOf p task with
    | some (layer, 0), some k => s.modStash p layer (s.rankOfTask p task) fun x =>
        if x.binds.any (·.1 = k.mb) then x
        else
          let v := pl.boundVersion layer k.mb
          { x with
            binds := x.binds ++ [(k.mb, v)]
            held := if v = 0 then x.held.filter (·.2 ≠ 0) ++ [(versionRegion (s.getF F.PLN_STEP_STEP p) 0, 0)] else x.held }
    | _, _ => s

/-- A finished task of a stashed layer (R103, R104, R303): an update's version is in being in its regions; with the last kernel
that reads a version, the micro-batches bound to it release it and its region is free. -/
def stashDone (s : State) (p task : Nat) : State :=
  match (s.part p).plan with
  | none => s
  | some full =>
    let pl := full.base (s.part p).graph
    let t := s.baseTask p task
    let r := s.rankOfTask p task
    let done (k : Task) : Bool := k.id = t || (s.part p).done.contains (s.rankTask p r k.id)
    match pl.role t, s.taskOf p task with
    | some (layer, 2), _ =>
      let v := pl.updatesBefore layer t + 1
      let rs := copyRegions (s.getF F.PLN_STEP_STEP p) v (pl.inRole layer 2).length
      s.modStash p layer r fun x => { x with
        held := x.held.filter (fun h => !rs.contains h.1) ++ rs.map fun q => (q, v) }
    | some (layer, _), some k =>
      let v := pl.boundVersion layer k.mb
      if (pl.readersOf layer v).all done then
        s.modStash p layer r fun x => { binds := x.binds.filter (·.2 ≠ v), held := x.held.filter (·.2 ≠ v) }
      else s
    | _, _ => s

end State
end Sys2Proof.Machine
end

