-- ==== Sys2Proof/Machine/Kernel.lean ====
section
/-! DEFINITION. Starting a tile kernel (R60, R83, R102) and the ramp limiter (R428, R430). -/

namespace Sys2Proof.Machine
namespace State

/-- The plan's `j`-th cluster, of the partition's clusters ascending (R51). -/
def planCluster (s : State) (p j : Nat) : Nat :=
  match (s.part p).plan with
  | some pl => (s.clusters p).getD (j % max 1 pl.clusters) 0
  | none => 0

/-- Dynamic balancing is on for the step (R51, R52), which it is not while the module hosts two ranks (R450). -/
def balancing (s : State) (p : Nat) : Bool :=
  match (s.part p).plan with
  | some pl => natBits pl.options 0 0 = 1 && (s.part p).balEn && !(s.part p).forceBalOff && (s.ranksHere p).length < 2
  | none => false

/-- The cluster a share of a task runs on: where balancing moved it, if the task is rebalanceable, else the static
assignment (R32, R51). -/
def shareCluster (s : State) (p : Nat) (t : Task) (j : Nat) : Nat :=
  match (s.part p).moves.find? (·.1 = j) with
  | some (_, c) => if natBits t.flags 0 0 = 1 then c else s.planCluster p j
  | none => s.planCluster p j

/-- The sequencer starts at the kernel's first word with the registers of R60, and with shadow copies while balancing
is on (R83). -/
def startKernel (s : State) (p task g share base : Nat) : State :=
  match (s.part p).plan, s.taskOf p task with
  | some pl, some k =>
    let pc := match pl.kernels[k.kernel]? with
      | some q => q.pc
      | none => 0
    let home := s.planCluster p share
    let regs (c b : Nat) : List (Nat × Word) :=
      [(1, BitVec.ofNat 64 (s.getF F.PLN_STEP_STEP p)), (2, BitVec.ofNat 64 k.mb), (3, BitVec.ofNat 64 share),
       (4, BitVec.ofNat 64 b), (5, BitVec.ofNat 64 c), (6, BitVec.ofNat 64 (g % 8)), (7, BitVec.ofNat 64 task)].filter
        fun x => x.2 ≠ 0
    let shBase := if home = g / 8 then base else Config.shareBase pl.meas (s.baseTask p task) share home
    let s := (s.putF F.TIL_STATUS_STATE g 1).putF F.TIL_STATUS_TASK g task
    let s := s.modTile g fun t => { t with
      sregs := regs (g / 8) base, dregs := [], preds := [], pc := pc, lastSlot := none, fault := none, jump := none,
      loops := [], wait := none, nextIssue := s.now, shadowOn := s.balancing p, shadowS := regs home shBase, shadowD := [],
      share := share, staticCluster := home, part := p, lastBusy := some s.bn }
    s.bindStash p task
  | _, _ => s

/-- The tile was idle throughout the previous beat (R428). -/
def wasIdle (s : State) (g : Nat) : Bool :=
  match (s.tile g).lastBusy with
  | some b => b + 1 < s.bn
  | none => true

/-- Activations granted so far in the current beat. -/
def grantsUsed (s : State) (p : Nat) : Nat := let x := (s.part p).grants; if x.1 = s.bn then x.2 else 0

/-- Share of partition `p` in the ramp limiter. -/
def rampShare (s : State) (p : Nat) : Nat := natBits (s.getF F.PWR_RAMP_SHARE 0) (5 * p + 4) (5 * p)

/-- Grants waiting activations, oldest first, up to the partition's share (R428); at most `n`. -/
def grantActs (s : State) (p : Nat) : Nat → State
  | 0 => s
  | n + 1 =>
    match (s.part p).acts with
    | a :: rest =>
      if s.grantsUsed p < s.rampShare p then
        let u := s.grantsUsed p + 1
        let s := s.modPart p fun x => { x with acts := rest, grants := (s.bn, u) }
        grantActs (s.startKernel p a.task a.tile a.share a.base) p n
      else s
    | [] => s

/-- At the end of a beat: activations still ungranted raise one Ramp request, and those of this beat count as delayed
(R430). -/
def rampDelays (s : State) (p : Nat) : State :=
  match (s.part p).acts with
  | [] => s
  | a :: rest =>
    let n := ((a :: rest).filter fun x => x.beat = s.bn).length
    (s.bumpBy F.PWR_STAT_RAMP_DELAYS 0 n).raiseHold p 4 a.task 0 true

/-- The order of waiting activations (R428). -/
def actBefore (a b : Act) : Bool :=
  a.beat < b.beat || (a.beat = b.beat && (a.task < b.task || (a.task = b.task && a.tile < b.tile)))

def insertAct (a : Act) : List Act → List Act
  | [] => [a]
  | b :: bs => if actBefore a b then a :: b :: bs else b :: insertAct a bs

end State
end Sys2Proof.Machine
end

