-- ==== Sys2Proof/Machine/Beat.lean ====
section
/-! DEFINITION. Beats (R20 to R28, R44 to R46, R239, R255, R276, R314, R321): the beat itself, its sources, the master
and the beat tree. -/

namespace Sys2Proof.Machine
namespace State

/-! ## The beat edge -/

/-- Length of the beat that ends, in ACLK cycles, as the slewing of its edge makes it (R21). -/
def beatLength (s : State) : Nat := if 0 < s.slew then 1025 else if s.slew < 0 then 1023 else 1024

/-- What is left to slew after one beat. -/
def slewLeft (d : Int) : Int := if 0 < d then d - 1 else if d < 0 then d + 1 else 0

/-- Time comes to the next beat edge. -/
def toEdge (s : State) : State :=
  let e := s.beatStart + s.beatLength
  let s := s.advance e
  { s with beatStart := e, slew := slewLeft s.slew }

/-- The BN of the new beat: a step due is taken in place of the count and logged (R21); a plan running when it is due makes
the module report itself failed first. -/
def nextBn (s : State) : State :=
  match s.bnStep with
  | some b =>
    let s := if s.anyRun then s.failModule 6 0 else s
    { (s.putF F.PLN_BN_BN 0 b) with bnStep := none, bnSteps := s.bnSteps ++ [(s.bn, b)] }
  | none => s.putF F.PLN_BN_BN 0 (s.bn + 1)

/-! ## Holding and advancing (R44, R256, R483) -/

/-- Adds the entries of one partition that land up to BN `n` and have not landed to its pending hold beats. -/
def landUpTo (s : State) (p n : Nat) : State :=
  s.modPart p fun x =>
    let due := (x.merged.filter fun e => x.landedBn < e.land && e.land ≤ n).mergeSort fun a b => a.land ≤ b.land
    { x with
      charges := x.charges ++ (due.filter fun e => 0 < entryLen e).map fun e =>
        { beats := entryLen e, cause := e.cause, task := e.task, origin := e.origin },
      merged := x.merged.filter fun e => n < e.land + 64 ∨ n < e.land,
      landedBn := n }

/-- One held beat: charged to the earliest landing, logged and counted (R44, R483). -/
def holdBeat (s : State) (p : Nat) (c : Charge) (rest : List Charge) : State :=
  let s := s.logHold p c
  let s := s.bump F.PLN_SPOS_HOLD_TOTAL p
  s.modPart p fun x => { x with
    charges := if 1 < c.beats then { c with beats := c.beats - 1 } :: rest else rest, heldNow := true }

/-- A partition whose plan runs advances its schedule position by one or holds it (R44). Between a rollback and the
re-run origin the position stands; pending holds still count down (R48). -/
def advancePart (s : State) (p : Nat) : State :=
  let x := s.part p
  if !x.active then s
  else match x.charges with
    | c :: rest => s.holdBeat p c rest
    | [] =>
      let s := s.modPart p fun x => { x with heldNow := false, committed := false }
      if x.rerunBn.isSome ∨ x.waiting then s
      else
        let n := s.getF F.PLN_SPOS_POS p + 1
        if x.stepLen ≤ n then (s.putF F.PLN_SPOS_POS p 0).modPart p fun x => { x with fresh := true }
        else s.putF F.PLN_SPOS_POS p n

/-! ## Overrun requests (R15, R46, R276, R314, R321) -/

/-- Micro-batches a plan has, and whether it takes samples. -/
def mbCount (s : State) (p : Nat) : Nat × Bool :=
  match (s.part p).plan with
  | some pl => match pl.classes with
    | some c => (c.mbCount, true)
    | none => (1, false)
  | none => (1, false)

/-- A sample of the next step is missing: some micro-batch of a rank hosted here is not yet admitted or refused. -/
def samplesMissing (s : State) (p : Nat) : Bool :=
  let (m, takes) := s.mbCount p
  takes && (s.ranksHere p).any fun r => (List.range m).any fun mb =>
    !(s.part p).ends.any fun e => e.rank = r && e.mb = mb && e.step = s.getF F.PLN_STEP_STEP p + 1 && e.status.isSome

/-- The index-sort window of the next step that opened first, if one has. -/
def sortOpen (s : State) (p pos : Nat) : Option Nat :=
  match (s.part p).plan with
  | some pl => ((s.part p).sched.find? fun q => q.start ≤ pos && pl.tasks.any fun t => t.id = q.task && t.kind = 4).map
      (·.task)
  | none => none

/-- A task that runs outside its window while no hold covers it is a hazard, once a beat; the lines written start anew
(R53). -/
def beatHazards (s : State) (p : Nat) : State :=
  let s := s.modPart p fun x => { x with lineWrites := [] }
  let x := s.part p
  if !x.active ∨ x.heldNow ∨ x.committed ∨ x.rerunBn.isSome ∨ x.waiting ∨ ¬ s.checkerOn p then s
  else (x.windows.filter fun w => w.last < s.getF F.PLN_SPOS_POS p).foldl (fun s w => s.unitHazard p w.task) s

/-- Raises one overrun-type request of a cause while a condition holds. -/
def overrunIf (s : State) (b : Bool) (p cause task : Nat) : State := if b then s.raiseHold p cause task 0 true else s

/-- The overrun-type requests of one partition in the current beat. -/
def overruns (s : State) (p : Nat) : State :=
  let x := s.part p
  if !x.active ∨ x.committed then s
  else
    let pos := s.getF F.PLN_SPOS_POS p
    let run := !(x.rerunBn.isSome || x.waiting)
    let late := x.sched.filter fun q => q.start + q.dur ≤ pos && !x.done.contains q.task &&
      (s.taskOf p q.task).any (·.kind ≠ 0x0A)
    let s := late.foldl (fun s q => s.overrunIf run p 1 q.task) s
    let s := match s.sortOpen p pos with
      | some t => s.overrunIf (run && s.samplesMissing p) p 2 t
      | none => s
    let resilient : Bool := match x.plan with
      | some pl => natBits pl.options 1 1 = 1
      | none => false
    let s := s.overrunIf (run && resilient && x.stepLen ≤ pos + 64 && !x.mirrorAcked && s.getF F.FAB_HSTAT_MIRROR 0 ≠ 3)
      p 5 noTask
    let dstate := s.getF F.PLN_COMMIT_STATUS_DSTATE p
    let s := s.overrunIf (run && x.stepLen ≤ pos + 1 + s.holdLead && dstate = 0) p 6 noTask
    let due : Bool := match x.rerunBn with
      | some o => o ≤ s.bn + s.holdLead
      | none => !x.waiting
    -- a domain wake of an Idle exit is incomplete when the first dispatch is due (R430)
    let first : Bool := match x.plan with
      | some pl => x.started = [] && x.sched.any fun q => q.start ≤ pos && pl.tasks.any fun t => t.id = q.task && t.kind = 1
      | none => false
    let s := s.overrunIf (run && first && s.getF F.PWR_STAT_STATE 0 = 1) p 4 noTask
    s.overrunIf (due && (x.restoring || (x.rollbacks ≠ 0 && x.rederive ≠ []))) p 7 noTask

/-! ## Ports at the edge -/

/-- Counts the beats with and without a good marker, and closes the open group, or an empty one where flits were freed
and no SEAL was sent in the beat (R24, R26, R237, R239). -/
def portEdge (s : State) (k : Nat) : State :=
  if !s.portUp k then s
  else
    let x := s.port k
    let due : Bool := x.group ≠ [] || (x.owedSeal && !x.sealed)
    let s := if !due then s
      else if x.retry.length < 3072 then s.sealGroup k
      else s.modPort k fun x => { x with sealDue := true }
    s.modPort k fun x => { x with
      missed := if x.goodMarker then 0 else x.missed + 1, good := if x.goodMarker then x.good + 1 else 0,
      goodMarker := false, sealed := false }

/-- Merged entries whose landing BN has not yet passed, nearest first, at most 14 (R256). -/
def openEntries (s : State) : List HoldEntry :=
  ((((List.range 8).map fun p => (s.part p).merged).flatten.filter fun e => s.bn ≤ e.land).mergeSort
    fun a b => a.land ≤ b.land).take 14

/-- Sends a BEAT flit on every trained port (R23, R255). -/
def sendMarkers (s : State) : State :=
  let up := s.getF F.PLN_BEAT_STATUS_UPSTREAM 0
  let hold := s.flag F.PLN_BEAT_STATUS_HOLDOVER 0
  let es := s.openEntries.map fun e => { e with land := e.land % 2 ^ 32 }
  let b : BeatBody := { bn := s.bn, master := s.getF F.PLN_BEAT_STATUS_CUR_MASTER 0, holdover := hold,
                        edgeOfs := 2 * (s.now - s.beatStart), dir := 0, holds := es }
  (List.range 6).foldl (fun s k =>
    if s.portUp k then
      s.emitFlit k (plainFlit 6 (beatBytes { b with dir := if k = up ∧ ¬ s.flag F.PLN_BEAT_STATUS_IS_MASTER 0 then 1 else 0 }))
    else s) s

/-- Beats of a holdover: election beats are those in which no trained port delivered a good marker (R26). -/
def countHoldover (s : State) : State :=
  if !s.flag F.PLN_BEAT_STATUS_HOLDOVER 0 then s
  else
    let heard := (List.range 6).any fun k => s.portUp k && (s.port k).goodMarker
    { s with holdoverBeats := s.holdoverBeats + 1, electionBeats := if heard then s.electionBeats else s.electionBeats + 1 }

/-- Tiles not idle in the beat that ends (R428). -/
def markBusy (s : State) : State :=
  (s.tiles.map (·.1)).foldl (fun s g =>
    if s.getF F.TIL_STATUS_STATE g = 0 then s else s.modTile g fun t => { t with lastBusy := some s.bn }) s

/-- Quiet beats of the module in Run, for the idle timer (R418). -/
def countIdle (s : State) : State :=
  let quiet : Bool := s.getF F.PWR_STAT_STATE 0 = 0 && !s.anyRun && !s.anyWork
  { s with power := { s.power with idleBeats := if quiet then s.power.idleBeats + 1 else 0 } }

/-- One beat: the end of the old one, the edge and its BN, the seals and BEAT flits, then every partition's landings, its
advance or hold, its grants, its overrun requests and its hazards (R252). -/
def beat (s : State) : State :=
  let s := (List.range 8).foldl (fun s p => if (s.part p).active then s.rampDelays p else s) s.markBusy
  let s := s.countHoldover.toEdge
  let s := s.countIdle.nextBn
  let s := ((List.range 6).foldl portEdge s).sendMarkers
  let s := (List.range 8).foldl (fun s p => (s.landUpTo p s.bn).advancePart p) s
  let s := (List.range 8).foldl (fun s p => if (s.part p).active then s.grantActs p 16 else s) s
  let s := (List.range 8).foldl overruns s
  (List.range 8).foldl beatHazards s

/-! ## Sources -/

/-- Leaves holdover. -/
def leaveHoldover (s : State) : State :=
  { (s.putF F.PLN_BEAT_STATUS_HOLDOVER 0 0) with holdoverBeats := 0, electionBeats := 0 }

def srcCode : BeatSrc → Nat
  | .fabric => 1
  | .beatRef => 2
  | .crystal => 3

/-- The module is its own beat source: crystal or reference, or master (R22). -/
def ownSource (s : State) : Bool :=
  2 ≤ s.getF F.PLN_BEAT_STATUS_SRC_ACTIVE 0 || s.flag F.PLN_BEAT_STATUS_IS_MASTER 0

/-- `LOSS_DETECT`, 0 treated as 1 (R27). -/
def lossDetect (s : State) : Nat := max 1 (s.getF F.PLN_BEAT_CFG_LOSS_DETECT 0)

/-- Whether a source is the one to take: the one selected, or with `SRC` automatic the first of R20 that is there (R20,
R21). A fabric source has been there for 64 beats on some port. -/
def mayTake (s : State) (src : BeatSrc) : Bool :=
  let sel := s.getF F.PLN_BEAT_CFG_SRC 0
  let heard : Bool := (List.range 6).any fun k => s.portUp k && 64 ≤ (s.port k).good
  (sel = 0 || sel = srcCode src) && match src with
    | .fabric => heard
    | .beatRef => sel = 2 || !heard
    | .crystal => sel = 3 || (!heard && !s.refPresent)

/-- A fabric source is taken after Sleep, Deep Sleep or a holdover: where its BN is not the module's own, the module takes
it at the next beat edge (R21). `d` is how far it is ahead. -/
def takeBn (s : State) (d : Int) : State :=
  { s with retake := false, bnStep := if d = 0 then s.bnStep else some (s.bn + 1 + d).toNat }

/-- Places after position `m` in ascending position rank, wrapping (R26). -/
def placesAfter (s : State) (m q : Nat) : Nat := (q + s.torus - m % s.torus) % s.torus

/-- Sends the failure notice in force again when the master followed changes (R279). -/
def renotice (s : State) (old : Nat) : State :=
  let m := s.getF F.PLN_BEAT_STATUS_CUR_MASTER 0
  match s.notice with
  | some (qs, b) => if m = old then s else s.emit (.notice m qs b)
  | none => s

/-- The master whose places the order of R26 counts from: the lost one, else the one followed. -/
def orderFrom (s : State) : Nat := s.lostMaster.getD (s.getF F.PLN_BEAT_STATUS_CUR_MASTER 0)

/-- A marker's master is to be followed: in a holdover with no new master yet, any but the lost one; after that, one that
comes earlier after the lost one (R26). -/
def earlier (s : State) (m : Nat) : Bool :=
  let cur := s.getF F.PLN_BEAT_STATUS_CUR_MASTER 0
  let lost := s.orderFrom
  m ≠ cur && m ≠ lost &&
    if cur = lost then s.flag F.PLN_BEAT_STATUS_HOLDOVER 0 else s.placesAfter lost m < s.placesAfter lost cur

/-- Follows master `m`, the beat tree built anew around it: no longer master itself if it was (R24, R26). -/
def follow (s : State) (m : Nat) : State :=
  let old := s.getF F.PLN_BEAT_STATUS_CUR_MASTER 0
  let s := s.putF F.PLN_BEAT_STATUS_CUR_MASTER 0 m
  let s := if m = s.pos then s else (s.putF F.PLN_BEAT_STATUS_IS_MASTER 0 0).upstreamOf m
  s.renotice old

end State

/-- A beat begins (R44). -/
def execBeat (s : State) : Res := .next s.beat

/-- The selected source is lost: holdover; with `SRC` automatic the search goes to the next source of R20 (R21). -/
def execBeatSourceLost (s : State) : Res :=
  let s := s.enterHoldover
  let s := if s.getF F.PLN_BEAT_STATUS_SRC_ACTIVE 0 = 2 then { s with refPresent := false } else s
  .next (if s.getF F.PLN_BEAT_CFG_SRC 0 = 0 then s.putF F.PLN_BEAT_STATUS_SRC_ACTIVE 0 s.pickSource else s)

/-- No port delivers a marker of the master with its holdover flag clear for `LOSS_DETECT` beats: holdover, shown in
the markers sent (R26). -/
def execMasterMarkerLoss (s : State) : Res :=
  .next (if s.getF F.PLN_BEAT_STATUS_SRC_ACTIVE 0 = 1 ∧ ¬ s.flag F.PLN_BEAT_STATUS_IS_MASTER 0 ∧
      (List.range 6).all (fun k => !s.portUp k || s.lossDetect ≤ (s.port k).missed) then
      { s.enterHoldover with lostMaster := some (s.getF F.PLN_BEAT_STATUS_CUR_MASTER 0) }
    else s)

/-- A source present and locked for 64 beats ends holdover; the edge slews by `edge` cycles, and a fabric source whose
markers carry another BN makes the module take theirs at the next edge (R21). -/
def execHoldoverExit (src : BeatSrc) (markerBn : Option Nat) (edge : Int) (s : State) : Res :=
  .next (if !s.flag F.PLN_BEAT_STATUS_HOLDOVER 0 ∨ ¬ s.mayTake src then s
    else
      let s := (s.leaveHoldover.putF F.PLN_BEAT_STATUS_SRC_ACTIVE 0 (State.srcCode src)).slewTo edge
      let s := match src with
        | .beatRef => { s with refPresent := true }
        | _ => s
      match src, markerBn with
      | .fabric, some b => s.takeBn (b - s.bn)
      | _, _ => s)

/-- The upstream port has delivered no marker for `LOSS_DETECT` beats while `port`, the lowest-numbered of those that do,
delivered them: it becomes the alternate upstream, any holdover ends, and the edge slews to the port's (R21, R24). -/
def execAlternateUpstream (port : Nat) (s : State) : Res :=
  let up := s.getF F.PLN_BEAT_STATUS_UPSTREAM 0
  let delivers (k : Nat) : Bool := k ≠ up && s.portUp k && s.lossDetect ≤ (s.port k).good
  .next (if (List.range 6).find? delivers = some port ∧ ¬ s.flag F.PLN_BEAT_STATUS_IS_MASTER 0 ∧
        (up = 7 ∨ s.lossDetect ≤ (s.port up).missed ∨ ¬ s.portUp up) then
      let held := s.flag F.PLN_BEAT_STATUS_HOLDOVER 0
      let s := { (s.leaveHoldover.putF F.PLN_BEAT_STATUS_UPSTREAM 0 port) with altUpstream := some port }
      match (s.port port).mark with
      | some (d, e) => if held then (s.slewTo e).takeBn d else s.slewTo e
      | none => s
    else s)

/-- The route's upstream port has delivered markers again for 64 beats: the module returns to it (R24). -/
def execUpstreamReturn (s : State) : Res :=
  let k := s.routeIn (s.getF F.PLN_BEAT_STATUS_CUR_MASTER 0)
  .next (if s.altUpstream.isSome ∧ k < 6 ∧ 64 ≤ (s.port k).good then
      { (s.putF F.PLN_BEAT_STATUS_UPSTREAM 0 k) with altUpstream := none }
    else s)

/-- After 16·k election beats the live module k places after the lost master declares itself master, for k from 1 to
255 (R26). It continues the BN it has counted, on its own source. -/
def execMasterDeclare (s : State) : Res :=
  let old := s.getF F.PLN_BEAT_STATUS_CUR_MASTER 0
  let k := s.placesAfter s.orderFrom s.pos
  .next (if s.flag F.PLN_BEAT_STATUS_HOLDOVER 0 ∧ 1 ≤ k ∧ k ≤ 255 ∧ 16 * k ≤ s.electionBeats ∧
      ¬ s.flag F.GEN_STATUS_FAILED 0 then
      let s := s.leaveHoldover
      let s := ((s.putF F.PLN_BEAT_STATUS_IS_MASTER 0 1).putF F.PLN_BEAT_STATUS_CUR_MASTER 0 s.pos).putF
        F.PLN_BEAT_STATUS_UPSTREAM 0 7
      let s := s.putF F.PLN_BEAT_STATUS_SRC_ACTIVE 0 (if s.refPresent then 2 else 3)
      (s.renotice old).sendMarkers
    else s)

/-- Holdover for 4,096 beats with no master heard: a module fault of cause beat lost, and every plan stops (R26). -/
def execBeatLost (s : State) : Res :=
  .next (if s.flag F.PLN_BEAT_STATUS_HOLDOVER 0 ∧ 4096 ≤ s.holdoverBeats then
      let s := s.faultAll 0x0E
      (List.range 8).foldl (fun s p => if s.running p then s.stopRolled p 0x0E else s) s
    else s)

/-- A write of `PLN_BN_LOAD` is kept for the next beat edge if the module is its own beat source and no plan runs;
any other is ignored and logged (R22). -/
def execPlnBnLoad (f : Func) (v : Word) (s : State) : Res :=
  .next (s.gated f F.PLN_BN_LOAD_BN.base fun s =>
    if s.ownSource && !s.anyRun then { (s.setWord F.PLN_BN_LOAD_BN.base v) with bnLoad := some v }
    else s.genErr f 1 F.PLN_BN_LOAD_BN.base)

/-- At the beat edge the module takes the BN loaded (R22). -/
def execBnLoadApply (s : State) : Res :=
  .next (match s.bnLoad with
    | some v => { (s.putF F.PLN_BN_BN 0 v.toNat) with bnLoad := none }
    | none => s)

/-- Where a BEAT flit that arrived `arrive` hub cycles after the module's own beat edge places the edge, in ACLK cycles from
it: less the port's one-way delay, less `EDGE_OFS` (R25, R255). -/
def State.edgeOf (s : State) (port : Nat) (b : BeatBody) (arrive : Int) : Int :=
  (arrive - (s.port port).delay - b.edgeOfs) / 2

/-- A BEAT flit (R23, R24, R26, R255, R256), with the symbol corrections that came with it: every one
delivers its hold entries; one with `DIR` 0 is a marker. On the upstream port it sets the beat edge; with `SRC` automatic or fabric the first of
them makes the fabric the source, and the module takes its BN (R20, R21). A marker of a master that comes earlier after
the lost one makes the module follow it, and step down if it was master. -/
def execBeatFlit (port : Nat) (b : BeatBody) (came : FlitArrival) (s : State) : Res :=
  let edge := s.edgeOf port b came.arrive
  .next (if !s.portUp port then s
    else
      let s := s.bumpBy F.FAB_PFEC_FEC port came.fec
      let s := b.holds.foldl (fun s e => if e.part < 8 then s.takeHold { e with land := s.fullBn e.land } else s) s
      if b.dir ≠ 0 then s
      else
        let s := if !b.holdover ∧ s.earlier b.master then s.follow b.master else s
        let good : Bool := !b.holdover && b.master = s.getF F.PLN_BEAT_STATUS_CUR_MASTER 0
        if !good then s
        else
          let d : Int := b.bn - s.bn
          let s := s.modPort port fun x => { x with goodMarker := true, mark := some (d, edge) }
          if port ≠ s.getF F.PLN_BEAT_STATUS_UPSTREAM 0 then s
          else if s.getF F.PLN_BEAT_STATUS_SRC_ACTIVE 0 = 1 then
            let s := (s.slewTo edge).putF F.PLN_BEAT_STATUS_OFFSET 0 ((edge % 256).toNat)
            if s.retake ∧ ¬ s.flag F.PLN_BEAT_STATUS_HOLDOVER 0 then s.takeBn d else s
          else if s.getF F.PLN_BEAT_CFG_SRC 0 ≤ 1 ∧ ¬ s.flag F.PLN_BEAT_STATUS_HOLDOVER 0 then
            ((s.putF F.PLN_BEAT_STATUS_SRC_ACTIVE 0 1).slewTo edge).takeBn d
          else s)

end Sys2Proof.Machine
end

