-- ==== Sys2Proof/Machine/Identity.lean ====
section
/-! DEFINITION. Keys, certificates and firmware images (R389 to R395): seeds derived from the device secret, the bytes of a
certificate and of the chain, and what a header and a measurement say. -/

namespace Sys2Proof.Machine

/-- Bytes of a 512-bit digest or key, lowest first. -/
def bytes512 (d : BitVec 512) : List Byte := leBytes 64 d.toNat

/-! ## Firmware images (R394, R395) -/

/-- The security version in an image's header. -/
def imgSvn (b : List Byte) : Nat := le b 0x0C 4

/-- The firmware measurement: from byte 0 up to the signature block (R395). -/
def imgMeas (b : List Byte) : BitVec 512 := shake512 (b.take (b.length - 1284))

/-- `MAGIC`, `FORMAT`, `GENERATION` and `LENGTH` are as R394 has them, with room for its parts and a version within its
range (assumption 101). -/
def imgHeaderOk (b : List Byte) : Bool :=
  b.take 8 = [0x57, 0x4E, 0x58, 0x46, 0x57, 0x49, 0x4D, 0x47] && le b 8 2 = 1 && le b 0x0A 2 = 0x480 &&
  le b 0x10 8 = b.length && 0x1000 + 1284 ≤ b.length && b.length ≤ 2 ^ 24 && 1 ≤ imgSvn b && imgSvn b ≤ 64

/-! ## Keys and certificates (R389 to R391, R393) -/

/-- A device secret as the bytes that its derivations take in. -/
def secretBytes (x : BitVec 256) : List Byte := leBytes 32 x.toNat

/-- The seed of the DIK (R390). -/
def dikSeedOf (x : BitVec 256) : BitVec 512 := shake512 (secretBytes x ++ [0x01])

/-- The alias root (R389). -/
def aliasRootOf (x : BitVec 256) : BitVec 512 := shake512 (secretBytes x ++ [0x02])

/-- The seed of the alias key (R390): root, life-cycle code, measurement. -/
def aliasSeedOf (root : BitVec 512) (lc : Nat) (meas : BitVec 512) : BitVec 512 :=
  shake512 (bytes512 root ++ leBytes 1 lc ++ bytes512 meas)

/-- Bytes 0x000 to 0x7E1 of a certificate (R391). -/
def certBody (type lc svn : Nat) (serial : List Byte) (issuer meas owner : BitVec 512) (pub : List Byte) : List Byte :=
  [0x4D, 0x41, 0x45, 0x4C, 0x43, 0x45, 0x52, 0x54] ++ leBytes 2 1 ++ leBytes 1 type ++ leBytes 1 lc ++ leBytes 4 svn ++
  serial ++ bytes512 issuer ++ bytes512 meas ++ bytes512 owner ++ (pub ++ List.replicate 1793 0).take 1793 ++ [0]

/-- A certificate signed by the key of a seed: 3,300 bytes (R391). -/
def signCert (seed : BitVec 512) (body : List Byte) : List Byte :=
  let sig := (Config.falconSign seed (shake256 body)).take 1280
  body ++ leBytes 2 sig.length ++ sig ++ List.replicate (1280 - sig.length) 0

namespace State

/-- The device serial of certificates and reports (R391). -/
def serialBytes (s : State) : List Byte := leBytes 8 (s.getF F.GEN_SERIAL_SERIAL 0) ++ leBytes 8 Config.serialHigh

/-- The active owner key: the lowest slot not revoked (R400). -/
def activeOwner (s : State) : Option (BitVec 512) := (s.ident.slots.find? fun o => !o.revoked).map (·.key)

/-- The security version and the measurement of the running firmware, 0 before any runs. -/
def runSvn (s : State) : Nat := (s.ident.running.map imgSvn).getD 0
def runMeas (s : State) : BitVec 512 := (s.ident.running.map imgMeas).getD 0

/-- The DIK's certificate: the factory's, or in MANUFACTURE one that the DIK signs itself (R393). -/
def dikCertBytes (s : State) : List Byte := match s.ident.lc, s.ident.dikCert with
  | 0, _ | _, none =>
    let pub := Config.falconPublic s.ident.dikSeed
    signCert s.ident.dikSeed (certBody 3 0 0 s.serialBytes (shake512 pub) 0 0 pub)
  | _, some c => c

/-- The chain: root, manufacturing CA, DIK and alias (R391). -/
def chain (s : State) : List Byte := Config.rootCert ++ Config.caCert ++ s.dikCertBytes ++ s.ident.aliasCert

/-- A signature by the alias key (R390). -/
def aliasSign (s : State) (m : List Byte) : List Byte := Config.falconSign s.ident.aliasSeed m

/-- The alias certificate is issued anew, signed by the DIK (R391). -/
def issueAlias (s : State) : State :=
  let i := s.ident
  let body := certBody 4 i.lc s.runSvn s.serialBytes (shake512 (Config.falconPublic i.dikSeed)) s.runMeas
    (s.activeOwner.getD 0) (Config.falconPublic i.aliasSeed)
  { s with ident := { i with aliasCert := signCert i.dikSeed body } }

/-- The alias key is derived anew and certified (R390, R391). -/
def deriveAlias (s : State) : State :=
  ({ s with ident := { s.ident with aliasSeed := aliasSeedOf s.ident.aliasRoot s.ident.lc s.runMeas } }).issueAlias

/-- The DIK seed and the alias root of a secret, handed to the security unit (R389). -/
def deriveRoots (s : State) (x : BitVec 256) : State :=
  { s with ident := { s.ident with dikSeed := dikSeedOf x, aliasRoot := aliasRootOf x } }

/-- A 256-bit draw of the random source (R388). -/
def drawSecret (s : State) : BitVec 256 × State :=
  ((Config.random s.ident.drbg).setWidth 256, { s with ident := { s.ident with drbg := s.ident.drbg + 1 } })

/-- What the boot ROM derives at a cold boot: from the device secret, or before the fuses are programmed from a fresh draw
(R389, R393). -/
def bootKeys (s : State) : State :=
  let (x, s) := if s.ident.secret = 0 then s.drawSecret else (s.ident.secret, s)
  s.deriveRoots x

end State
end Sys2Proof.Machine
end

