-- ==== Sys2Proof/Machine/Reset.lean ====
section
/-! DEFINITION. Wipes and resets (R13, R351, R404, R410, R411, R416): what each clears and what it keeps. -/

namespace Sys2Proof.Machine
namespace State

/-- Registers with offsets in [a, b) at their reset values. -/
def clearRegs (s : State) (a b : Nat) : State := { s with regs := s.regs.filter fun c => c.1 < a || b ≤ c.1 }

/-- The registers of a tile as after reset, but for `TIL_FAULT`, which is kept until cold boot (R89). -/
def clearTileRegs (s : State) (g : Nat) : State :=
  let a := 0x100_0000 + g * 0x8000
  (s.clearRegs a (a + 0x10)).clearRegs (a + 0x18) (a + 0x8000)

/-- Device address of granule `i` (R404). -/
def granAddr (i : Nat) : Nat := if i < 576 then i * 2 ^ 30 else umberBase + (i - 576) * 2 ^ 30

def wipeGran (s : State) (i : Nat) : State := s.wipe (granAddr i) (2 ^ 30)

/-- A cluster's stores read 0, and its tiles and mover channels are as after reset (R410). -/
def wipeCluster (s : State) (c : Nat) : State :=
  let s := ((s.wipe (clusterAddr c) 0x200_0000).wipe (tileAddr (8 * c)) (8 * 0x10_0000)).wipe (istoreAddr (8 * c)) (8 * 0x2_0000)
  let s := (List.range 8).foldl (fun s i => s.clearTileRegs (8 * c + i)) s
  { s with tiles := s.tiles.filter fun t => t.1 / 8 ≠ c, cmovers := s.cmovers.filter fun m => m.1 / 8 ≠ c,
           history := [] }

/-! ## Umber encryption (R223, R224)

`mem` holds an Umber byte as its partition's key decrypts it. What the package stores is the encryption of the sector
under that key, so an error in the stored bytes and a change of the key are what show it. -/

/-- Partition whose Umber quota, or HBM, an address belongs to; 15 for none (R404). -/
def ownerAt (s : State) (a : Nat) : Nat := match whereIs a with
  | .gran i => s.granOwner i
  | _ => 15

/-- A draw of 512 bits as two keys of 32 bytes, the data key first. -/
def keyPair (k : BitVec 512) : List Byte × List Byte := (lowFirst 32 k.toNat, lowFirst 32 (k.toNat / 2 ^ 256))

/-- The key pair of a partition. -/
def umberKey (s : State) (p : Nat) : List Byte × List Byte := keyPair (mget 0 s.ident.umberKeys p)

/-- Data unit number of an Umber address: its sector (R223). -/
def dataUnit (a : Nat) : Nat := (a - umberBase) / 32

/-- The sectors of the partition's Umber quota in which some byte is listed, ascending. -/
def umberSectors (s : State) (p : Nat) : List Nat :=
  (s.mem.foldr (fun c l =>
    let a := c.1 / 32 * 32
    if umberBase ≤ a ∧ l.head? ≠ some a ∧ s.ownerAt a = p then a :: l else l) [])

/-- New Umber keys of a partition, drawn from the random source: what was written under the old ones reads as the new
ones decrypt it (R224). A sector with nothing listed reads 0 as before, until the wipe that follows every change of keys
(assumption 97). -/
def rekey (s : State) (p : Nat) : State :=
  let old := s.umberKey p
  let k := Config.random s.ident.drbg
  let s := { s with ident := { s.ident with umberKeys := mput 0 s.ident.umberKeys p k, drbg := s.ident.drbg + 1 } }
  (s.umberSectors p).foldl (fun s a =>
    s.wr a (xtsDec (keyPair k) (dataUnit a) (xtsEnc old (dataUnit a) (s.rd a 32)))) s

/-! ## Identity in the registers (R397, R400, R412, R413) -/

/-- Debug access is open in MANUFACTURE and RETURNED (R412). -/
def debugOpen (lc : Nat) : Bool := lc = 0 || lc = 3

/-- `SEC_STATE` as fuses and the running image have it. -/
def showIdent (s : State) : State :=
  let i := s.ident
  let s := (s.putF F.SEC_STATE_LC 0 i.lc).putF F.SEC_STATE_DEBUG 0 (if debugOpen i.lc then 1 else 0)
  let s := (s.putF F.SEC_STATE_COUNTER 0 i.counter).putF F.SEC_STATE_SLOTS 0 i.slots.length
  let s := s.putF F.SEC_STATE_OWNER 0 (if s.activeOwner.isSome then 1 else 0)
  s.putF F.SEC_STATE_SVN 0 s.runSvn

/-! ## Resets -/

/-- Chains a partition's masters run are dropped and its frozen masters released (R410). -/
def releaseMasters (s : State) (p : Nat) : State :=
  let s := (s.tilesOf p).foldl (fun s g => s.setTile g Tile.reset) s
  let s := (s.clusters p).foldl (fun s c => (List.range 8).foldl (fun s ch => s.setCmover (8 * c + ch) CMover.reset) s) s
  let s := (List.range 32).foldl (fun s h =>
    if s.getF F.DMA_MCFG_OWNER h = p then
      (s.setMover h { s.mover h with chain := none, frozen := false }).putF F.DMA_MSTAT_STATE h 0
    else s) s
  let s := (List.range 9).foldl (fun s e => s.setOch e p OchreQ.reset) s
  [2 * p, 2 * p + 1].foldl (fun s w => s.putF F.DMA_WIN_FROZEN w 0) s

/-- A partition reset begins (R351, R410, R411): its contexts, queues and tiles are as after reset, its masters are
released and issue nothing, its keys are replaced, and its wipe is under way. The freeze log, the allocation and the
register copies of other blocks are kept. -/
def resetPartition (s : State) (p : Nat) : State :=
  let s := s.setRun p false
  let s := s.releaseMasters p
  let s := s.clearRegs (0x31_0000 + p * 0x1_0000) (0x31_0000 + (p + 1) * 0x1_0000)
  let s := s.clearRegs (0x91_0000 + p * 0x1000) (0x91_0000 + (p + 1) * 0x1000)
  let s := s.clearRegs (0xB1_0000 + p * 0x1000) (0xB1_0000 + (p + 1) * 0x1000)
  let s := s.clearRegs (0x51_0000 + p * 0x1000) (0x51_0000 + (p + 1) * 0x1000)
  let s := s.clearRegs (0x40_2000 + p * 0x100) (0x40_2000 + (p + 1) * 0x100)
  let s := s.clearRegs (0x400_0000 + p * 0x2_0000) (0x400_0000 + (p + 1) * 0x2_0000)
  let s := (s.tilesOf p).foldl clearTileRegs s
  let s := (List.range 32).foldl (fun s i => s.setQueue (32 * p + i) Queue.reset) s
  let x := s.part p
  let s := s.setPart p { Part.reset with frzLog := x.frzLog, wipeGrans := x.wipeGrans, wipeAll := true }
  let s := ((s.putF F.PRT_STATE_FROZEN p 0).putF F.PRT_STATE_READY p 0).putF F.PRT_STATE_WIPING p 1
  (s.rekey p).arriveWork

/-- The wipes of a partition end (R411): granules set free, and after a reset all its memory, read 0. -/
def endWipe (s : State) (p : Nat) : State :=
  let x := s.part p
  let s := x.wipeGrans.foldl wipeGran s
  let s := s.modPart p fun x => { x with wipeGrans := [] }
  if !x.wipeAll then s
  else
    let s := (s.clusters p).foldl wipeCluster s
    let s := ((List.range 2112).filter fun i => s.granOwner i = p).foldl wipeGran s
    let s := (List.range 32).foldl (fun s i => s.wipe (resultAddr (32 * p + i)) 3840) s
    let s := s.modPart p fun x => { x with wipeAll := false }
    let s := (s.putF F.PRT_STATE_WIPING p 0).putF F.PRT_STATE_READY p 1
    s.signalQ (32 * p + s.getF F.DMA_PEVT_VEC p)

/-- Every memory inside the lid reads 0, every engine, queue and plan is as after reset and every key is replaced, as
at a life-cycle change (R410, R412). -/
def wipeLid (s : State) : State :=
  let s := (List.range 8).foldl (fun s p =>
    let s := (s.resetPartition p).endWipe p
    s) s
  { s with mem := [], sram := [], history := [], tiles := [], cmovers := [], ochre := [], queues := [] }

/-- Fields kept across every reset but the loss of auxiliary power (R413, R433). -/
def retained : List Fld :=
  [F.PWR_CTRL_AUTO_ON, F.PWR_WAKE_TIME, F.PWR_WAKE_FROM, F.PWR_WAKE_SOURCE, F.PWR_WAKE_TIMER_EN, F.PWR_WAKE_TIMER_MS,
   F.SEC_REC_CTRL_REQ]

/-- A module reset: every register but the retained ones at its reset value, what
`SEC_STATE` shows of the fuses with them (R413), every memory empty, every unit as after
reset (R13, R410, R416). What lies outside the module, the fuses, the flash and the supplies keep their state. -/
def resetModule (s : State) : State :=
  let kept := retained.map fun f => (f, s.getF f 0)
  let s := { s with
    regs := [], mem := [], sram := [], history := [], tiles := [], parts := [], ochre := [], units := [], ports := [],
    movers := [], cmovers := [], queues := [], peers := [], frameSeq := [], ide := [], bnLoad := none, bnStep := none, slew := 0,
    holdoverBeats := 0, electionBeats := 0, altUpstream := none, notice := none, beatStart := s.now,
    ident := { s.ident with running := none, nonce := none, fwBusy := false, fwImage := [] },
    power := { s.power with target := none, wake := none, idleBeats := 0, awake := 0, l1 := false, dsCycles := 0,
                            wakeDriven := false, booting := false, boot := ([], none, []) },
    test := { ashRun := [], ashLeft := [], ashFailed := [], saved := [], elog := [], pins := s.test.pins, ftgSent := 0, bist := 0 } }
  let s := kept.foldl (fun s x => s.putF x.1 0 x.2) s
  ((List.range 8).foldl rekey s).showIdent

/-- The module is in Off (R416, R424): only what is retained against the loss of the main supply is left. -/
def enterOff (s : State) : State :=
  let from_ := s.getF F.PWR_STAT_STATE 0
  let s := s.resetModule
  let s := { s with power := { s.power with from_ := 4, temps := [] } }
  ((s.putF F.PWR_STAT_STATE 0 4).putF F.PWR_STAT_PREV 0 from_).putF F.PWR_DOM_ON 0 0x800000

/-! ## Life cycle (R391, R412) -/

/-- A life-cycle change (R412): the fuse, the wipe, and the new alias key and certificate. -/
def setLifeCycle (s : State) (lc : Nat) : State :=
  ({ s with ident := { s.ident with lc := lc } }).wipeLid.deriveAlias.showIdent

end State
end Sys2Proof.Machine
end

