-- ==== Sys2Proof/Machine/Boot.lean ====
section
/-! DEFINITION. Cold boot, firmware and life cycle (R388 to R400, R412, R437, R474, R487). -/

namespace Sys2Proof.Machine
namespace State

/-! ## Memory units (R203, R227) -/

/-- Number of a memory unit: stacks 0 to 7, controllers 8 to 19. -/
def unitNo : MemUnit → Nat
  | .stack k => k % 8
  | .umber c => 8 + c % 12

/-- Field of a unit's register block: of stack `u`, or of controller `u` − 8. -/
def getU (s : State) (m u : Fld) (i : Nat) : Nat := if i < 8 then s.getF m i else s.getF u (i - 8)
def putU (s : State) (m u : Fld) (i v : Nat) : State := if i < 8 then s.putF m i v else s.putF u (i - 8) v
def bumpU (s : State) (m u : Fld) (i : Nat) : State := if i < 8 then s.bump m i else s.bump u (i - 8)

def unitState (s : State) (i : Nat) : Nat := s.getU F.MEM_STAT_STATE F.UMB_STAT_STATE i
def setUnitState (s : State) (i v : Nat) : State := s.putU F.MEM_STAT_STATE F.UMB_STAT_STATE i v

/-- A stack or controller fails (R203, R362, R442). -/
def unitFails (s : State) (i : Nat) : State := (((s.setUnitState i 5).elog 3 i 0 0).mevt 2).failModule 1 2

/-- Banks that refresh visits: of a pseudo-channel of a stack, or of a sub-channel of an Umber package (R202, R205). -/
def bankCount (i : Nat) : Nat := if i < 8 then 48 else 16

/-- ACLK cycles between two per-bank refreshes of a unit: every bank once in 32 ms, or in 16 ms at 85 °C and above
(R20, R208). -/
def refreshSpacing (s : State) (i : Nat) : Nat :=
  22_400_000 / (bankCount i * if s.getU F.MEM_STAT_REFX2 F.UMB_STAT_REFX2 i = 1 then 2 else 1)

/-- A unit comes into service: its refresh begins. -/
def unitReady (s : State) (i : Nat) : State :=
  (s.setUnitState i 2).modUnit i fun x => { x with refreshAt := s.now + s.refreshSpacing i }

/-- PHY training of a unit (R203). With a stack's, the controller reads the base die's vendor identity and sets the
extension enable (R213). -/
def trainUnit (s : State) (i : Nat) (ok : Bool) : State :=
  if !ok then s.unitFails i
  else (s.unitReady i).modUnit i fun x => if i < 8 then { x with vendor := some Config.dieVendor, ext := true } else x

/-! ## The boot sequence (R394 to R399, R437, R474, R487) -/

/-- The three moments of R474 are past, and a trip has cooled down (R478). -/
def bootReady (s : State) : Bool :=
  let w := s.power
  !w.perst && w.auxQualified && w.main48 && (!w.tripped || w.cool)

/-- A cold boot begins if a source waits for it and R474 allows it: every field takes its reset value. -/
def tryBoot (s : State) : State :=
  match s.power.wake with
  | some src =>
    if s.bootReady then
      let old := s.power.from_
      let s := s.resetModule
      let s := { s with power := { s.power with booting := true, tripped := false, cool := true, temps := [] } }
      s.recordWake src old
    else s
  | none => s

/-- A source asks for a cold boot; an earlier one that waits is kept. -/
def wantBoot (s : State) (src : Nat) : State :=
  ({ s with power := { s.power with wake := some (s.power.wake.getD src) } }).tryBoot

/-- The code with which a checked image ends, none if it passes (R395, R398). -/
def imageCode (s : State) (img : List Byte) (c : SigCheck) : Option Nat :=
  if !imgHeaderOk img then some 0x10
  else if !(c.certOk && c.sigOk) then some 0x11
  else if imgSvn img < s.ident.counter then some 0x12
  else none

/-- A programmed or failed flash (R398): one that fails holds no valid image. -/
def program (s : State) (img : List Byte) (ok : Bool) : State :=
  { s with ident := { s.ident with flash := some (if ok then img else []) } }

/-- The measurement in `SEC_MEAS0` to `SEC_MEAS7`. -/
def showMeas (s : State) (m : BitVec 512) : State :=
  (List.range 8).foldl (fun s i => s.putF F.SEC_MEAS_MEAS i (m.toNat / 2 ^ (64 * i) % 2 ^ 64)) s

/-- A memory BIST failure (R437, R442, R444). -/
def bistFails (s : State) (mem inst : Nat) : State :=
  (((((s.putF F.TST_MBIST_FAIL 0 1).putF F.TST_MBIST_MEM 0 mem).putF F.TST_MBIST_INST 0 inst).elog 5 inst mem 0).failModule 2 0)

/-- The boot from step 3 of R396 to the ready state: measurement and keys, memory BIST, training, the wipe, the stream
links and what R487 lists. -/
def finishBoot (s : State) (img : List Byte) : State :=
  let (trained, bist, links) := s.power.boot
  let s := { s with ident := { s.ident with running := some img, flash := some img } }
  let s := (s.bootKeys.deriveAlias.showMeas (imgMeas img)).showIdent
  let s := match bist with
    | some (mem, inst) => s.bistFails mem inst
    | none => s
  let s := (List.range 20).foldl (fun s i => s.trainUnit i (trained.getD i false)) s
  let s := { s with mem := [], sram := [] }
  let s := (List.range 2).foldl (fun s k =>
    let phy := links.getD k 0 % 4
    if phy = 1 ∨ phy = 2 then (s.putF F.STM_PSTAT_UP k 1).putF F.STM_PSTAT_PHY k phy else s) s
  let s := (List.range 8).foldl (fun s p => (s.putF F.PRT_STATE_READY p 1).refreshUsed p) s
  let s := (s.putF F.GEN_STATUS_RECOVERY 0 0).putF F.GEN_STATUS_READY 0 1
  ({ s with power := { s.power with booting := false } }).masterByCfg

/-- A cold boot (R396): SCRAPPED stops it; a request or an image that is not valid leads to recovery. -/
def coldBoot (s : State) (flash : BootFlash) (boot : List Bool × Option (Nat × Nat) × List Nat) : State :=
  if !s.power.booting || s.flag F.GEN_STATUS_RECOVERY 0 then s
  else
    let img := s.ident.flash.getD flash.image
    let s := { s with ident := { s.ident with flash := some img, flashOwner := if flash.ownerLost then none else s.ident.flashOwner }, power := { s.power with boot := boot } }
    let s := s.showIdent
    if s.ident.lc = 4 then { s with power := { s.power with booting := false } }
    else if s.flag F.SEC_REC_CTRL_REQ 0 || (s.imageCode img flash.check).isSome then
      (s.putF F.SEC_REC_CTRL_REQ 0 0).putF F.GEN_STATUS_RECOVERY 0 1
    else s.finishBoot img

end State

/-- A cold boot runs the boot ROM, measures and starts firmware, trains and wipes memories and sets ready (R396). -/
def execColdBoot (flash : BootFlash) (trained : List Bool) (bistFail : Option (Nat × Nat))
    (links : List Nat) (s : State) : Res :=
  .next (s.coldBoot flash (trained, bistFail, links))

/-- A write of `SEC_FW_CTRL.GO` copies the image into the security unit and starts its check; one in progress ignores it. An
image longer than 16 MiB is not copied and fails the check by its length (R394, R398). -/
def execFwUpdateGo (f : Func) (v : Word) (s : State) : Res :=
  .next (s.gated f F.SEC_FW_CTRL_GO.base fun s =>
    if getBits v 0 0 = 0 ∨ s.flag F.GEN_STATUS_RECOVERY 0 ∨ ¬ s.flag F.GEN_STATUS_READY 0 ∨ s.ident.fwBusy then s
    else
      let n := s.getF F.SEC_FW_LEN_LEN 0
      let img := if n ≤ 2 ^ 24 then s.rd (s.getF F.SEC_FW_ADDR_ADDR 0) n else []
      let s := { s with ident := { s.ident with fwBusy := true, fwImage := img } }
      (s.putF F.SEC_FW_CTRL_GO 0 1).putF F.SEC_FW_STATUS_CODE 0 1)

/-- The check and programming end with a code; a flash that fails holds no valid image (R398). -/
def execFwUpdateDone (check : SigCheck) (flashOk : Bool) (s : State) : Res :=
  .next (if !s.ident.fwBusy then s
    else
      let img := s.ident.fwImage
      let s := { s with ident := { s.ident with fwBusy := false, fwImage := [] } }.putF F.SEC_FW_CTRL_GO 0 0
      match s.imageCode img check with
      | some c => s.putF F.SEC_FW_STATUS_CODE 0 c
      | none => (s.program img flashOk).putF F.SEC_FW_STATUS_CODE 0 (if flashOk then 3 else 0x13))

/-- In recovery, GO checks the image pushed into the boot SRAM, programs it and boots it (R399). -/
def execRecoveryGo (f : Func) (v : Word) (check : SigCheck) (flashOk : Bool) (s : State) : Res :=
  .next (s.gated f F.SEC_FW_CTRL_GO.base fun s =>
    if getBits v 0 0 = 0 ∨ ¬ s.flag F.GEN_STATUS_RECOVERY 0 then s
    else
      let n := s.getF F.SEC_FW_LEN_LEN 0
      let img := if n ≤ 2 ^ 24 then (List.range n).map (mget 0 s.sram) else []
      match s.imageCode img check with
      | some c => s.putF F.SEC_FW_STATUS_CODE 0 c
      | none =>
        let s := s.program img flashOk
        if flashOk then (s.putF F.SEC_STATE_RECOVERED 0 1).finishBoot img
        else s.putF F.SEC_FW_STATUS_CODE 0 0x13)

/-- A write of `SVN_COMMIT` raises the anti-rollback counter to the running image's version, never lowering it (R397). -/
def execSvnCommit (f : Func) (v : Word) (s : State) : Res :=
  .next (s.gated f F.SEC_FW_CTRL_SVN_COMMIT.base fun s =>
    if getBits v 1 1 = 0 then s
    else match s.ident.running with
      | some r => { s with ident := { s.ident with counter := max s.ident.counter (imgSvn r) } }.showIdent
      | none => s)

/-- The entropy source fails its health tests (R388, R442). -/
def execEntropyFailure (s : State) : Res := .next ((s.putF F.SEC_STATE_RNGFAIL 0 1).elog 6 0 0 0)

/-- An entropy fault that persists for 1 s: the module reports itself failed (R388). -/
def execEntropyFailureTimeout (s : State) : Res := .next (if s.flag F.SEC_STATE_RNGFAIL 0 then s.failModule 4 0 else s)

/-- The factory leaves MANUFACTURE: the device secret is drawn and fused and the DIK seed and alias root derived from it;
with a DIK certificate that verifies against the root the state is PROVISIONED (R389, R391, R412). -/
def execProvision (dik : DikCert) (s : State) : Res :=
  .next (if s.ident.lc ≠ 0 ∨ s.anyRun ∨ s.flag F.SEC_STATE_RNGFAIL 0 then s
    else
      let s :=
        if s.ident.secret ≠ 0 then s
        else
          let (x, s) := s.drawSecret
          { s with ident := { s.ident with secret := x } }.deriveRoots x
      if dik.ok then { s with ident := { s.ident with dikCert := some dik.cert } }.setLifeCycle 1 else s)

end Sys2Proof.Machine
end

