-- ==== Sys2Proof/Machine/Image.lean ====
section
/-! DEFINITION. Reading a plan image (R29 to R37, R170 to R178, R262 to R267, R290 to R294, R481): every section, and
every reason to refuse it with its code and detail. The checks run in one fixed order and the first that fails gives
the code (assumption 10). -/

namespace Sys2Proof.Machine

/-- The code and detail of a refusal, or what was read. -/
abbrev Read (α : Type) := Except (Nat × Nat) α

/-- Refuses with a code and detail unless a condition holds. -/
def need (ok : Bool) (code detail : Nat) : Read Unit := if ok then .ok () else .error (code, detail % 2 ^ 24)

/-- Refuses with a code where a list of faults has a first one. -/
def needNone (code : Nat) : Option Nat → Read Unit
  | none => .ok ()
  | some d => .error (code, d % 2 ^ 24)

def le32 (b : List Byte) (o : Nat) : W32 := BitVec.ofNat 32 (le b o 4)

/-- Bytes [o, o + n) are 0. -/
def zeroAt (b : List Byte) (o n : Nat) : Bool := ((b.drop o).take n).all (· = 0)

/-- First number below `n` of which a test holds. -/
def firstOf (n : Nat) (f : Nat → Bool) : Option Nat := (List.range n).find? f

/-- A section as the section table places it. -/
structure Sec where
  type : Nat
  idx  : Nat
  off  : Nat
  len  : Nat
deriving DecidableEq, Repr

/-- What a plan image is read against: the partition's clusters, quotas in bytes, owned plan-mode movers, watch
list entries, and the ring sizes. -/
structure Site where
  clusters : Nat
  hbm : Nat
  umb : Nat
  movers : Nat
  watches : Nat
  rings : Nat × Nat × Nat
  /-- The active owner key, if any, is at hand in the flash (R400). -/
  ownerKept : Bool
deriving DecidableEq, Repr

def Site.ring (e : Site) (d : Nat) : Nat := match d with
  | 0 => e.rings.1
  | 1 => e.rings.2.1
  | _ => e.rings.2.2

/-- Logical ranks of the configured fabric (R263). -/
def Site.ranks (e : Site) : Nat := e.ring 0 * e.ring 1 * e.ring 2

/-! ## Header and section table (R29, R30) -/

def sectionTypes : List Nat := [1, 2, 3, 4, 5, 6, 7, 0xFF]

/-- Entry `i` of the section table. -/
def secAt (b : List Byte) (i : Nat) : Sec :=
  let e := le b 0x20 8 + 32 * i
  { type := le b e 4, idx := i, off := le b (e + 8) 8, len := le b (e + 16) 8 }

def sections (b : List Byte) : List Sec := (List.range (le b 0x18 4)).map (secAt b)

def findSec (ss : List Sec) (t : Nat) : Option Sec := ss.find? (·.type = t)

/-- The bytes of a section; none where it is absent. -/
def secBytes (b : List Byte) (ss : List Sec) (t : Nat) : List Byte :=
  match findSec ss t with
  | some x => (b.drop x.off).take x.len
  | none => []

def secIdx (ss : List Sec) (t : Nat) : Nat := ((findSec ss t).map (·.idx)).getD 0

/-- Two ranges share a byte. -/
def overlap (a n c m : Nat) : Bool := decide (0 < n) && decide (0 < m) && decide (a < c + m) && decide (c < a + n)

/-- Entry `x` of a section table is at fault (R30). -/
def secBad (b : List Byte) (ss : List Sec) (x : Sec) : Bool :=
  let tab := le b 0x20 8
  let cnt := le b 0x18 4
  let e := tab + 32 * x.idx
  !sectionTypes.contains x.type || !zeroAt b (e + 4) 4 || !zeroAt b (e + 24) 8 || x.off % 64 ≠ 0 ||
  decide (x.off < 256) || decide (b.length < x.off + x.len) || overlap x.off x.len tab (32 * cnt) ||
  ss.any fun y => decide (y.idx < x.idx) &&
    (decide (y.idx + 1 = x.idx ∧ x.type ≤ y.type) || decide (y.type = x.type) || overlap x.off x.len y.off y.len)

/-- R29, R30 and R37: codes 0x01 to 0x04. -/
def checkHeader (b : List Byte) (len : Nat) : Read Unit := do
  let magic : List Byte := [0x41, 0x51, 0x47, 0x41, 0x4E, 0x50, 0x4C, 0x4E]
  need (256 ≤ b.length && b.take 8 = magic && le b 0x0C 4 = 256 && le b 0x10 8 = len && le b 0x2C 2 ≠ 0) 0x01 0
  need (le b 0x0A 2 = 0x0480) 0x02 0
  need (le b 0x08 2 = 1) 0x03 0
  let tab := le b 0x20 8
  let cnt := le b 0x18 4
  need (1 ≤ cnt && cnt ≤ 64 && 256 ≤ tab && tab % 8 = 0 && tab + 32 * cnt ≤ b.length) 0x04 0
  let ss := sections b
  needNone 0x04 ((ss.find? (secBad b ss)).map (·.idx))
  need ([1, 2, 7].all fun t => (findSec ss t).isSome) 0x04 0
  need (decide (natBits (le b 0x1C 4) 0 0 = 1) = (findSec ss 0xFF).isSome) 0x04 (secIdx ss 0xFF)

/-! ## GRAPH (R32, R481) -/

def readTask (g : List Byte) (i : Nat) : Task :=
  let e := 16 + 64 * i
  { id := le g e 4, kind := le g (e + 4) 1, flags := le g (e + 5) 1, mb := le g (e + 6) 2, resources := le g (e + 8) 8,
    cycles := le g (e + 0x10) 8, table := le g (e + 0x18) 4, kernel := le g (e + 0x1C) 4, bytes := le g (e + 0x20) 8,
    depFirst := le g (e + 0x28) 8, depCount := le g (e + 0x30) 4 }

def readDep (g : List Byte) (n j : Nat) : Dep :=
  let e := 16 + 64 * n + 16 * j
  { pred := le g e 4, succ := le g (e + 4) 4, lag := le g (e + 8) 4 }

/-- The section's length and task count are those of R481. -/
def graphShape (g : List Byte) : Bool :=
  16 ≤ g.length && le g 0 8 ≤ 16777214 && g.length = 16 + 64 * le g 0 8 + 16 * le g 8 8

def readTasks (g : List Byte) : List Task := if graphShape g then (List.range (le g 0 8)).map (readTask g) else []

def readDeps (g : List Byte) : List Dep :=
  if graphShape g then (List.range (le g 8 8)).map (readDep g (le g 0 8)) else []

/-- Code 0x0B: a reserved bit of the header, the options, a task entry or a dependence entry (R29, R31, R32, R37,
R266); for a bit of `options` the spec gives no detail, and it is 0 (assumption 103). -/
def checkReserved (b g : List Byte) : Read Unit := do
  let hdr := [0x1C, 0x1D, 0x1E, 0x1F, 0x2E, 0x2F] ++ (List.range 0x7C).map (0x84 + ·)
  needNone 0x0B (hdr.find? fun o => le b o 1 &&& (if o = 0x1C then 0xFE else 0xFF) ≠ 0)
  need (le b 0x30 8 < 32) 0x0B 0
  let ts := readTasks g
  needNone 0x0B (firstOf ts.length fun i =>
    let t := ts.getD i (readTask g i)
    8 ≤ t.flags || !zeroAt g (16 + 64 * i + 0x34) 12 || (t.kind = 9 && 65536 ≤ t.resources))
  let n := ts.length
  let ds := readDeps g
  needNone 0x0B ((firstOf ds.length fun j => !zeroAt g (16 + 64 * n + 16 * j + 12) 4).map fun j => (readDep g n j).succ)

/-- A task kind whose `table` names a table (R481). -/
def namesTable (k : Nat) : Bool := [4, 5, 6, 7, 0x0C].contains k

/-- Task `i` breaks R481. A task of a kind that no rule gives a next-step form may carry that flag (assumption 104). -/
def taskBad (ts : List Task) (ds : List Dep) (nk nt i : Nat) : Bool :=
  match ts[i]? with
  | none => true
  | some t =>
    let mine := (List.range ds.length).filter fun j => (ds[j]?).any (·.succ = i)
    t.id ≠ i || t.kind = 0 || 0x0D ≤ t.kind ||
    (if t.kind = 1 then nk ≤ t.kernel else t.kernel ≠ 0xFFFFFFFF) ||
    (namesTable t.kind && nt ≤ t.table) ||
    (t.kind = 2 && t.resources % 2 ^ 32 = 0) ||
    mine ≠ (List.range t.depCount).map (t.depFirst + ·) ||
    (t.kind = 0x0A && ((ts.take i).any (·.kind = 0x0A) || ds.any (·.pred = i)))

/-- R481 and the digest of R29: code 0x12. -/
def checkGraph (b : List Byte) (ss : List Sec) : Read Unit := do
  let g := secBytes b ss 1
  need (graphShape g) 0x12 (secIdx ss 1)
  let ts := readTasks g
  let ds := readDeps g
  let nk := le (secBytes b ss 2) 0 8
  let nt := (secBytes b ss 3).length / 64
  needNone 0x12 (firstOf ts.length (taskBad ts ds nk nt))
  need ((b.drop 0x40).take 64 = shake256 g) 0x12 (secIdx ss 1)

/-! ## KERNELS, BUDGETS, CLASSES (R33 to R35) -/

def readKernel (k : List Byte) (i : Nat) : Kernel :=
  let e := 16 + 32 * i
  let n := le k (e + 8) 2
  let o := le k e 8
  { offset := o, words := n, pc := le k (e + 0x0A) 2, cycles := le k (e + 0x10) 8,
    image := (List.range n).map fun j => BitVec.ofNat 64 (le k (o + 8 * j) 8) }

def readKernels (k : List Byte) : List Kernel := (List.range (le k 0 8)).map (readKernel k)

def kernelBad (k : List Byte) (i : Nat) : Bool :=
  let e := 16 + 32 * i
  let q := readKernel k i
  !zeroAt k (e + 0x0C) 4 || !zeroAt k (e + 0x18) 8 || q.offset % 8 ≠ 0 || q.words = 0 || 16384 < q.words ||
  16384 < q.pc + q.words || k.length < q.offset + 8 * q.words

/-- Kernels that tile tasks place on a cluster, ascending. -/
def kernelsOn (ts : List Task) (nk c : Nat) : List Nat :=
  (List.range nk).filter fun k => ts.any fun t => t.kind = 1 && t.kernel = k && natBits t.resources c c = 1

/-- Kernel `k` overlaps an earlier kernel on a tile. -/
def kernelOverlaps (ts : List Task) (ks : List Kernel) (k : Nat) : Bool :=
  (List.range 32).any fun c =>
    let on := kernelsOn ts ks.length c
    on.contains k && on.any fun j => j < k && match ks[j]?, ks[k]? with
      | some a, some d => overlap a.pc a.words d.pc d.words
      | _, _ => false

def checkKernels (k : List Byte) (idx : Nat) (ts : List Task) : Read Unit := do
  let nk := le k 0 8
  need (16 ≤ k.length && zeroAt k 8 8 && 1 ≤ nk && nk ≤ 65535 && 16 + 32 * nk ≤ k.length) 0x12 idx
  needNone 0x12 (firstOf nk (kernelBad k))
  let ks := readKernels k
  needNone 0x12 ((ts.find? fun t => t.kind = 1 && (ks[t.kernel]?).any (·.cycles ≠ t.cycles)).map (·.kernel))
  needNone 0x12 (firstOf nk (kernelOverlaps ts ks))

def readBudget (d : List Byte) (i : Nat) : Budget :=
  let e := 8 + 16 * i
  { table := le d e 4, unique := le d (e + 4) 4, slow := le d (e + 8) 2 }

/-- An absent section has no entries. -/
def readBudgets (d : List Byte) : List Budget := (List.range (le d 0 4)).map (readBudget d)

def checkBudgets (d : List Byte) (here : Bool) (nt : Nat) : Read Unit := do
  let n := le d 0 4
  need (!here || (8 ≤ d.length && zeroAt d 4 4)) 0x12 0
  need (!here || d.length = 8 + 16 * n) 0x12 n
  needNone 0x12 (firstOf n fun i => nt ≤ (readBudget d i).table ||
    (0 < i && (readBudget d i).table ≤ (readBudget d (i - 1)).table))

def readClasses (d : List Byte) : Classes :=
  { mbSize := le d 0 4, mbCount := le d 4 2, nclass := le d 6 1, maxlen := (List.range 4).map fun k => le d (8 + 4 * k) 4 }

def classesOk (d : List Byte) : Bool :=
  let c := readClasses d
  d.length = 48 && 1 ≤ c.mbSize && c.mbSize ≤ 65536 && 1 ≤ c.mbCount && 1 ≤ c.nclass && c.nclass ≤ 4 && zeroAt d 7 1 &&
  zeroAt d 0x18 24 && (List.range 4).all fun k =>
    if c.nclass ≤ k then c.maxlen.getD k 0 = 0 else k = 0 || c.maxlen.getD (k - 1) 0 < c.maxlen.getD k 0

/-! ## TABLES and the footprint (R170 to R178) -/

def readTable (d : List Byte) (i : Nat) : TableDesc :=
  let e := 64 * i
  { rows := le d e 8, elems := le d (e + 8) 2, fmt := le d (e + 0x0A) 1, pool := le d (e + 0x0B) 1,
    rule := le d (e + 0x0C) 1, shb := le d (e + 0x0D) 1, flags := le d (e + 0x0E) 2, budget := le d (e + 0x10) 4,
    epoch := le d (e + 0x14) 4, hyp := le d (e + 0x18) 4, hbmPages := le d (e + 0x20) 8 }

def readTables (d : List Byte) : List TableDesc := (List.range (d.length / 64)).map (readTable d)

def tableBad (d : List Byte) (nhyp i : Nat) : Bool :=
  let t := readTable d i
  let e := 64 * i
  t.rows = 0 || 2 ^ 40 < t.rows || t.elems < 4 || 1024 < t.elems || !([0, 1, 2, 8, 9].contains t.fmt) || 4 < t.pool ||
  0x0A < t.rule || 16 < t.shb || 16 ≤ t.flags || t.budget = 0 || 67108864 < t.budget || nhyp ≤ t.hyp ||
  !zeroAt d (e + 0x1C) 4 || !zeroAt d (e + 0x28) 24 || (t.fmt = 8 && natBits t.flags 2 2 = 1)

/-- Slot size *W* in sectors (R174). -/
def slotSectors (fmt e : Nat) : Nat := match fmt with
  | 0 => ceilDiv (4 * e) 32
  | 8 => ceilDiv (2 * e) 32 + ceilDiv e 32
  | 9 => ceilDiv (e + 1) 32
  | _ => ceilDiv (2 * e) 32

/-- Bytes *L*g a gather reads (R174). -/
def gatherBytes (fmt e : Nat) : Nat := match fmt with
  | 0 => 4 * e
  | 9 => e + 1
  | _ => 2 * e

/-- State bytes *A* of a row (R172). -/
def stateBytes (rule e : Nat) : Nat := match rule with
  | 0 => 0
  | 1 => 0
  | 2 => 0
  | 6 => 4
  | 8 => 8 * e
  | 9 => 8 * e
  | 0xA => 8 * e
  | _ => 4 * e

/-- State sectors of one row's record; one packed sector for row-wise Adagrad (R175). -/
def stateSectors (rule e : Nat) : Nat := ceilDiv (stateBytes rule e) 32

/-- State sectors of a page of 256 rows (R176). -/
def pageStateSectors (rule e : Nat) : Nat := if rule = 6 then 32 else 256 * stateSectors rule e

namespace TableDesc

def slotBytes (t : TableDesc) : Nat := 32 * slotSectors t.fmt t.elems

/-- Bytes of a page (R176). -/
def pageBytes (t : TableDesc) : Nat := 256 * t.slotBytes + 32 * pageStateSectors t.rule t.elems

/-- Bytes of the default row with its state record (R177). -/
def defaultBytes (t : TableDesc) : Nat := t.slotBytes + 32 * stateSectors t.rule t.elems

/-- Pages of each shard, those of rows beyond `ROWS` included (R177). -/
def shardPages (t : TableDesc) : Nat := ceilDiv (ceilDiv t.rows (2 ^ t.shb)) 256

/-- Initial owner of a shard (R178). -/
def firstOwner (t : TableDesc) (ranks s : Nat) : Nat := if ranks ≤ 2 ^ t.shb then s * ranks / 2 ^ t.shb else s

/-- Shards a rank owns at load. -/
def shardsOf (t : TableDesc) (ranks r : Nat) : List Nat := (List.range (2 ^ t.shb)).filter fun s => t.firstOwner ranks s = r

/-- HBM and Umber bytes of the table on rank `r` (R177, R191): its pages, and the default row on the owner of shard 0. -/
def footprint (t : TableDesc) (ranks r : Nat) : Nat × Nat :=
  let pages := (t.shardsOf ranks r).length * t.shardPages
  let h := if t.hbmPages = 2 ^ 64 - 1 then pages else min pages t.hbmPages
  (h * t.pageBytes + (if t.firstOwner ranks 0 = r then t.defaultBytes else 0), (pages - h) * t.pageBytes)

end TableDesc

/-- Footprint of the tables on a rank. -/
def footprint (tbs : List TableDesc) (ranks r : Nat) : Nat × Nat :=
  tbs.foldl (fun a t => let f := t.footprint ranks r; (a.1 + f.1, a.2 + f.2)) (0, 0)

/-- The first table with which the footprint on rank `r` no longer fits (R173). -/
def footprintBad (tbs : List TableDesc) (ranks hbm umb r : Nat) : Option Nat :=
  firstOf tbs.length fun i => let f := footprint (tbs.take (i + 1)) ranks r; hbm < f.1 || umb < f.2

def checkTables (d : List Byte) (bs : List Budget) (bd : List Byte) (nhyp ranks : Nat) (e : Site) : Read Unit := do
  need (d.length % 64 = 0 && d.length ≤ 64 * 4096) 0x0D (min (d.length / 64) 4096)
  needNone 0x0D (firstOf (d.length / 64) (tableBad d nhyp))
  needNone 0x0D ((firstOf bs.length fun i =>
    67108864 < (readBudget bd i).unique || 256 < (readBudget bd i).slow || !zeroAt bd (8 + 16 * i + 10) 6).map
      fun i => (readBudget bd i).table)
  needNone 0x0D (((List.range ranks).map (footprintBad (readTables d) ranks e.hbm e.umb)).foldl (fun a x =>
    match a, x with
    | some u, some v => some (min u v)
    | none, x => x
    | a, none => a) none)

/-! ## PARAMS (R290 to R294) -/

/-- A finite number that is not negative; −0 passes. -/
def finNonneg (w : W32) : Bool := match f32v w with
  | .fin neg m _ => !neg || m = 0
  | _ => false

/-- A number in [0, 1). -/
def unitBelow (w : W32) : Bool := finNonneg w && (w &&& 0x7FFFFFFF).toNat < 0x3F800000

def readLayer (d : List Byte) (i : Nat) : LayerEnt := { flags := le d (64 + 8 * i) 1, uint := le d (64 + 8 * i + 2) 2 }

/-- Counts of a PARAMS section: layers, tensors, clip groups, hyperparameter entries. -/
def paramCounts (d : List Byte) : Nat × Nat × Nat × Nat := (le d 0 4, le d 4 4, le d 0x0C 2, le d 8 4)

def tensorOff (d : List Byte) (i : Nat) : Nat := 64 + 8 * le d 0 4 + 64 * i
def clipOff (d : List Byte) (i : Nat) : Nat := 64 + 8 * le d 0 4 + 64 * le d 4 4 + 16 * i
def hypOff (d : List Byte) (i : Nat) : Nat := 64 + 8 * le d 0 4 + 64 * le d 4 4 + 16 * le d 0x0C 2 + 64 * i

def readTensor (d : List Byte) (i : Nat) : TensorEnt :=
  let e := tensorOff d i
  { kind := le d e 1, smode := le d (e + 1) 1, hlen := le d (e + 2) 1, head := le d (e + 3) 1, layer := le d (e + 4) 4,
    elems := le d (e + 8) 8, hyp := le d (e + 0x10) 4, clip := le d (e + 0x14) 2, rule := le d (e + 0x16) 1,
    sfmt := le d (e + 0x17) 1, srbase := le d (e + 0x18) 4 }

def readClip (d : List Byte) (i : Nat) : ClipEnt :=
  { maxnorm := le32 d (clipOff d i), flags := le d (clipOff d i + 4) 1 }

def readHyp (d : List Byte) (i : Nat) : HypEnt :=
  let e := hypOff d i
  { lr := le32 d e, gscale := le32 d (e + 4), decay := le32 d (e + 8), b1 := le32 d (e + 0x0C), b2 := le32 d (e + 0x10),
    eps := le32 d (e + 0x14), l1 := le32 d (e + 0x18), beta := le32 d (e + 0x1C), init := le32 d (e + 0x20),
    warm := le d (e + 0x24) 4 }

/-- An absent section declares nothing and a compare period of 256 (R290). -/
def readParams (d : List Byte) (here : Bool) : Params :=
  if !here then { cmpPeriod := 256, jnlSectors := 0, layers := [], tensors := [], clips := [], hyps := [] }
  else { cmpPeriod := le d 0x0E 2, jnlSectors := le d 0x10 8, layers := (List.range (le d 0 4)).map (readLayer d),
         tensors := (List.range (le d 4 4)).map (readTensor d), clips := (List.range (le d 0x0C 2)).map (readClip d),
         hyps := (List.range (le d 8 4)).map (readHyp d) }

/-- Range of tensor identities of a tensor whose state is stored rounded (R294, R301). -/
def srEnd (t : TensorEnt) : Nat := t.srbase + 2 * ceilDiv t.elems 65536

def tensorBad (p : Params) (d : List Byte) (i : Nat) : Bool :=
  match p.tensors[i]? with
  | none => true
  | some t =>
    !(1 ≤ t.kind && t.kind ≤ 3) || 2 < t.smode || 16 < t.hlen || !(t.head ≤ 7 || t.head = 0xFF) ||
    p.layers.length ≤ t.layer || 1 < t.sfmt || !zeroAt d (tensorOff d i + 0x1C) 36 ||
    (t.kind ≠ 1 && (t.hyp ≠ 0 || t.clip ≠ 0 || t.rule ≠ 0 || t.sfmt ≠ 0 || t.srbase ≠ 0)) ||
    (t.kind = 1 && (p.hyps.length ≤ t.hyp || !(t.clip < p.clips.length || t.clip = 0xFFFF) || t.rule = 0 || 0x0B < t.rule ||
      (t.rule = 0x0A && (p.hyps[t.hyp]?).any fun h => h.lr &&& 0x7FFFFFFF = 0) ||
      (t.clip ≠ 0xFFFF && (p.layers[t.layer]?).any (·.uint ≠ 0)))) ||
    (t.sfmt = 1 && (0x80000000 < srEnd t ||
      (p.tensors.take i).any fun u => u.sfmt = 1 && overlap t.srbase (srEnd t - t.srbase) u.srbase (srEnd u - u.srbase))) ||
    16384 < ((p.tensors.take (i + 1)).filter (·.smode ≠ 0)).length

def checkParams (d : List Byte) : Read Unit := do
  let (nl, nt, nc, nh) := paramCounts d
  need (64 ≤ d.length && nl ≤ 65536 && nt ≤ 65536 && nh ≤ 65536 && nc ≤ 256 && zeroAt d 0x18 40 &&
    d.length = 64 + 8 * nl + 64 * nt + 16 * nc + 64 * nh) 0x0F 0
  needNone 0x0F (firstOf nl fun i =>
    4 ≤ (readLayer d i).flags || !zeroAt d (64 + 8 * i + 1) 1 || !zeroAt d (64 + 8 * i + 4) 4)
  needNone 0x0F (firstOf nt (tensorBad (readParams d true) d))
  needNone 0x0F (firstOf nc fun i =>
    !finNonneg (readClip d i).maxnorm || 2 ≤ (readClip d i).flags || !zeroAt d (clipOff d i + 5) 11)
  needNone 0x0F (firstOf nh fun i =>
    let h := readHyp d i
    !unitBelow h.b1 || !unitBelow h.b2 || !finNonneg h.lr || !finNonneg h.eps || !finNonneg h.gscale ||
    !finNonneg h.init || 16777216 < h.warm || !zeroAt d (hypOff d i + 0x28) 24)

/-! ## RANKS (R262 to R267, R274) -/

def readColl (d : List Byte) (i : Nat) : CollDesc :=
  let e := 64 + 32 * i
  { op := le d e 1, fmt := le d (e + 1) 1, dims := le d (e + 2) 1, root := le d (e + 4) 4, src := le d (e + 8) 8,
    dst := le d (e + 0x10) 8, len := le d (e + 0x18) 8 }

def readRanks (d : List Byte) : Ranks :=
  { ofsX := le d 2 1, ofsY := le d 3 1, ofsZ := le d 4 1, pdim := le d 5 1, pdir := le d 6 1, hostBytes := le d 8 8,
    deltaBytes := le d 0x10 8, colls := (List.range (le d 0 2)).map (readColl d) }

/-- Product of the ring sizes a descriptor spans (R266). -/
def groupSize (c : CollDesc) (e : Site) : Nat :=
  (List.range 3).foldl (fun q k => if natBits c.dims k k = 1 then q * e.ring k else q) 1

/-- Bits of an element format (R67). -/
def fmtBits (f : Nat) : Nat := match f with
  | 0 => 32
  | 1 => 16
  | 2 => 16
  | 3 => 8
  | 4 => 8
  | 5 => 4
  | 6 => 8
  | _ => 32

def collBad (c : CollDesc) (e : Site) (ranks : Nat) : Bool :=
  let ok : Bool := match c.op with
    | 1 => c.fmt = 0 && c.len % (8 * groupSize c e) = 0
    | 2 => c.fmt ≤ 7 && c.len % max 1 (fmtBits c.fmt / 8) = 0
    | 3 => c.fmt ≤ 7 && c.root < ranks
    | 4 => c.fmt = 0 && c.len % 4 = 0 && c.len ≤ 1024
    | _ => false
  !ok || c.dims = 0 || 7 < c.dims || (c.op ≠ 3 && c.root ≠ 0) || c.len = 0

/-- A tensor's layer is frozen (R291). -/
def Params.frozen (p : Params) (e : TensorEnt) : Bool := (p.layers[e.layer]?).any fun l => natBits l.flags 0 0 = 1

/-- A tensor's layer is frozen in pass-through mode: no gradient product and no optimizer state (R106). -/
def Params.passes (p : Params) (options : Nat) (e : TensorEnt) : Bool := p.frozen e && natBits options 2 2 = 0

/-- Bytes a rank's shard of the dense masters and optimizer states takes. -/
def denseBytes (p : Params) (options ranks : Nat) : Nat :=
  (p.tensors.filter (·.kind = 1)).foldl (fun a t =>
    let state := if p.passes options t then 0 else stateBytes (if t.rule = 0x0B then 8 else t.rule) 1
    a + ceilDiv t.elems (max 1 ranks) * (4 + if t.sfmt = 1 then state / 2 else state)) 0

/-- Bytes of the carried lookups of a rank (R453): one pooled vector, and for max pooling a winner vector, per sample of
a step for each staleness-1 table, or one row per budgeted index without pooling. -/
def carriedBytes (tbs : List TableDesc) (c : Option Classes) : Nat :=
  (tbs.filter fun t => natBits t.flags 1 1 = 1).foldl (fun a t =>
    let vec := t.elems * (if natBits t.flags 3 3 = 1 then 2 else 4)
    let bags := match c with
      | some k => k.mbSize * k.mbCount
      | none => 0
    a + (if t.pool = 0 then t.budget * vec else bags * (vec + if t.pool = 3 then 2 * t.elems else 0))) 0

/-- Bytes of the mirror of rank `q` (R265, R274): its pages and their page maps, its dense shard, its scale and watch
states, its carried lookups and two delta logs. -/
def mirrorBytes (tbs : List TableDesc) (p : Params) (options : Nat) (c : Option Classes) (watches ranks delta q : Nat) : Nat :=
  let f := footprint tbs ranks q
  let maps := tbs.foldl (fun a t => a + 16 * (t.shardsOf ranks q).length * t.shardPages) 0
  f.1 + f.2 + maps + denseBytes p options ranks + 80 * (p.tensors.filter (·.smode = 1)).length + 64 * watches +
    carriedBytes tbs c + 2 * delta

/-- Partner rank of `q` (R263). -/
def partnerIn (e : Site) (r : Ranks) (q : Nat) : Nat :=
  let at_ (d : Nat) : Nat :=
    let n := max 1 (e.ring d)
    let a := match d with
      | 0 => q % n
      | 1 => q / e.ring 0 % n
      | _ => q / e.ring 0 / e.ring 1
    if r.pdim = d then (if r.pdir = 1 then (a + 1) % n else (a + n - 1) % n) else a
  at_ 0 + e.ring 0 * (at_ 1 + e.ring 1 * at_ 2)

def checkRanks (d : List Byte) (idx options : Nat) (e : Site) (ranks : Nat) (ts : List Task) (tbs : List TableDesc)
    (p : Params) (c : Option Classes) : Read Unit := do
  let r := readRanks d
  need (64 ≤ d.length && zeroAt d 7 1 && zeroAt d 0x18 40 && r.ofsX < e.ring 0 && r.ofsY < e.ring 1 && r.ofsZ < e.ring 2 &&
    r.pdim ≤ 2 && r.pdir ≤ 1 && d.length = 64 + 32 * r.colls.length) 0x0E idx
  let resilient : Bool := natBits options 1 1 = 1
  let fits (q : Nat) : Bool :=
    mirrorBytes tbs p options c e.watches ranks r.deltaBytes q + (footprint tbs ranks (partnerIn e r q)).2 ≤ e.umb
  need (!resilient || (e.ring r.pdim ≠ 1 && ts.length ≤ 8388607 && (List.range ranks).all fun q =>
    fits q && r.hostBytes + (footprint tbs ranks q).1 ≤ e.hbm)) 0x0E idx
  needNone 0x0E (firstOf r.colls.length fun i => !zeroAt d (64 + 32 * i + 3) 1 || collBad (readColl d i) e ranks)
  needNone 0x0E ((ts.find? fun t => t.kind = 9 && r.colls.length ≤ t.resources % 65536).map (·.id))

/-! ## Dependences (R37) -/

/-- Tasks left when every task all of whose predecessors are gone is taken away, `n` times over. -/
def peel (ds : List Dep) : Nat → List Nat → List Nat
  | 0, l => l
  | n + 1, l =>
    let l' := l.filter fun i => ds.any fun d => d.succ = i && l.contains d.pred
    if l'.length = l.length then l else peel ds n l'

/-- Code 0x09: a dependence on an unknown task, or a cycle. -/
def checkDeps (ts : List Task) (ds : List Dep) : Read Unit := do
  let n := ts.length
  needNone 0x09 ((ds.find? fun d => n ≤ d.pred ∨ n ≤ d.succ).map fun d => if d.succ < n then d.succ else d.pred)
  needNone 0x09 (peel ds n (List.range n)).head?

/-! ## The whole image -/

/-- The measurement (R36): up to the SIGNATURE section, or the whole image. -/
def measure (b : List Byte) (ss : List Sec) : BitVec 512 :=
  shake512 (match findSec ss 0xFF with
    | some x => b.take x.off
    | none => b)

/-- R36: a SIGNATURE section holds a length, a signature of at most 1,280 bytes and zeros, and the signature verifies
under the owner key; without an owner key only its form is checked (assumption 11). -/
def checkSignature (b : List Byte) (ss : List Sec) (owner : Option (BitVec 512)) : Read Unit := do
  match findSec ss 0xFF, owner with
  | none, some _ => need false 0x06 0
  | none, none => pure ()
  | some x, o =>
    let s := secBytes b ss 0xFF
    let n := le s 0 2
    let form := 2 ≤ s.length && n ≤ 1280 && 2 + n ≤ s.length && zeroAt s (2 + n) (s.length - (2 + n))
    let good : Bool := match o with
      | some k => Config.falconOk k (measure b ss) ((s.drop 2).take n)
      | none => true
    need (form && good) 0x05 x.idx

/-- A plan image read whole, with the first refusal that applies. A task's clusters are held against the header's `clusters`
(assumption 103). -/
def readPlan (b : List Byte) (len : Nat) (e : Site) (owner : Option (BitVec 512)) : Read Plan := do
  checkHeader b len
  let ss := sections b
  let g := secBytes b ss 1
  let kd := secBytes b ss 2
  let td := secBytes b ss 3
  let bd := secBytes b ss 4
  let cd := secBytes b ss 5
  let pd := secBytes b ss 6
  let rd := secBytes b ss 7
  let ranks := le b 0x28 4
  let options := le b 0x30 8
  checkReserved b g
  need e.ownerKept 0x06 0
  checkSignature b ss owner
  checkGraph b ss
  let ts := readTasks g
  let ds := readDeps g
  checkKernels kd (secIdx ss 2) ts
  checkBudgets bd (findSec ss 4).isSome (td.length / 64)
  need ((findSec ss 5).isNone || classesOk cd) 0x12 (secIdx ss 5)
  let nhyp := if (findSec ss 6).isSome then le pd 8 4 else 0
  checkTables td (readBudgets bd) bd nhyp ranks e
  if (findSec ss 6).isSome then checkParams pd
  let params := readParams pd (findSec ss 6).isSome
  let classes := if (findSec ss 5).isSome then some (readClasses cd) else none
  checkRanks rd (secIdx ss 7) options e ranks ts (readTables td) params classes
  checkDeps ts ds
  need (ranks = e.ranks) 0x07 0
  let clusters := le b 0x2C 2
  need (clusters ≤ 32 && clusters ≤ e.clusters) 0x08 0
  needNone 0x08 ((ts.find? fun t => ([1, 2, 0x0B].contains t.kind && 2 ^ clusters ≤ t.resources % 2 ^ 32) ||
    (t.kind = 3 && e.movers = 0)).map (·.id))
  pure { rankCount := ranks, clusters := clusters, options := options, seed := BitVec.ofNat 64 (le b 0x38 8),
         meas := measure b ss, tasks := ts, deps := ds, kernels := readKernels kd, tables := readTables td,
         budgets := readBudgets bd, classes := classes,
         params := params, ranks := readRanks rd }

end Sys2Proof.Machine
end

