-- ==== Sys2Proof/Machine/Planner.lean ====
section
/-! DEFINITION. The Planner (R39 to R42, R272, R482): Index Unit assignment, the duration of every task, the units it
takes, and the placement of tasks in beats. -/

namespace Sys2Proof.Machine

/-! ## Rates and windows (R42, R45) -/

/-- Beats that `d` units of demand take at the rates of R42. -/
def ixBeats (d : Nat) : Nat := ceilDiv (7 * d) 40960
def ochBeats (d : Nat) : Nat := ceilDiv (7 * d) 327680
def ochuBeats (d : Nat) : Nat := ceilDiv (7 * d) 163840
def ingestBeats (d : Nat) : Nat := ceilDiv d 292571

/-- Bytes per beat of a port at 16 and at 8 lanes. -/
def portRate (w8 : Bool) : Nat := if w8 then 294912 else 589824

/-- Beats over `h` hops (R40). -/
def lagBeats (h : Nat) : Nat := ceilDiv (280 * h + 420) 1024

/-- Sectors of a gathered and of an updated row (R42, R174, R175). -/
def gatherSectors (t : TableDesc) : Nat := ceilDiv (gatherBytes t.fmt t.elems) 32
def updateSectors (t : TableDesc) : Nat := slotSectors t.fmt t.elems + stateSectors t.rule t.elems

/-- Beats of a sparse update from its HBM sectors on the busiest stack and its Umber sectors. -/
def updateBeats (hbm umb : Nat) : Nat := max (ochBeats hbm) (ochuBeats umb)

namespace Plan

/-- Unique-row budget *U* and slow-tier share *Q* of a table (R34). -/
def budgetOf (pl : Plan) (i : Nat) : Nat × Nat :=
  let whole := ((pl.tables[i]?).map (·.budget)).getD 0
  match pl.budgets.find? (·.table = i) with
  | some b => (if b.unique = 0 then whole else b.unique, b.slow)
  | none => (whole, 256)

/-- Rows of the Umber share of a table's budget, rounded up as R42 does for Prefetch (assumption 104). -/
def slowRows (pl : Plan) (i : Nat) : Nat := let (u, q) := pl.budgetOf i; ceilDiv (q * u) 256

/-- The unit with the smallest sum so far, the lowest on a tie (R39). -/
def leastUnit (l : List Nat) : Nat :=
  (List.range 4).foldl (fun k j => if l.getD j 0 < l.getD k 0 then j else k) 0

/-- Tables in descending order of index budget, ties by ascending index. -/
def byBudget (pl : Plan) : List Nat :=
  (List.range pl.tables.length).mergeSort fun a b =>
    let x := ((pl.tables[a]?).map (·.budget)).getD 0
    let y := ((pl.tables[b]?).map (·.budget)).getD 0
    y < x || (x = y && a ≤ b)

/-- The Index Unit of every table, as (table, unit) pairs (R39). -/
def ixUnits (pl : Plan) : List (Nat × Nat) :=
  (pl.byBudget.foldl (fun (a : List (Nat × Nat) × List Nat) i =>
    let u := leastUnit a.2
    (a.1 ++ [(i, u)], a.2.set u (a.2.getD u 0 + ((pl.tables[i]?).map (·.budget)).getD 0))) ([], [0, 0, 0, 0])).1

def ixUnit (pl : Plan) (table : Nat) : Nat := ((pl.ixUnits.find? (·.1 = table)).map (·.2)).getD 0

/-- Tables of an Index Unit. -/
def unitTables (pl : Plan) (u : Nat) : List Nat := (pl.ixUnits.filter (·.2 = u)).map (·.1)

/-- Window of a data-dependent task from its budgets, before the floor (R42). -/
def window (pl : Plan) (t : Task) : Nat :=
  if t.kind = 0x0B then
    ingestBeats (if t.bytes ≠ 0 then t.bytes else match pl.classes with
      | some c => Config.sampleBytes (c.maxlen.getD (c.nclass - 1) 0) * c.mbSize
      | none => 0)
  else match pl.tables[t.table]? with
  | none => ceilDiv t.bytes (portRate false)
  | some tb =>
    let (u, _) := pl.budgetOf t.table
    let slow := pl.slowRows t.table
    match t.kind with
    | 4 => ixBeats (((pl.unitTables (pl.ixUnit t.table)).map fun i => ((pl.tables[i]?).map (·.budget)).getD 0).foldl (· + ·) 0)
    | 5 => ixBeats (((pl.unitTables (pl.ixUnit t.table)).map fun i => ((pl.tables[i]?).map (·.budget)).getD 0).foldl (· + ·) 0)
    | 6 => ochBeats (ceilDiv (u * gatherSectors tb) 8)
    | 7 => updateBeats (ceilDiv (3 * updateSectors tb * (u - slow)) 8) (3 * updateSectors tb * slow)
    | 0x0C => ochuBeats (slow * gatherSectors tb)
    | _ => ceilDiv t.bytes (portRate false)

/-- A task whose duration is a window of R42: row work, ingest, and a transfer without fixed bytes. -/
def windowed (t : Task) : Bool :=
  [4, 5, 6, 7, 0x0B, 0x0C].contains t.kind || (t.kind = 8 && (t.bytes = 0 || natBits t.flags 2 2 = 1))

/-- Beats of a collective on unhosted rings (R272). -/
def collBeats (ring : Nat → Nat) (c : CollDesc) : Nat :=
  ((List.range 3).foldl (fun (a : Nat × Nat) d =>
    if natBits c.dims d d = 0 then a
    else
      let n := ring d
      let m := if c.op = 1 then a.2 / n else a.2
      let bytes := if c.op = 3 then ceilDiv c.len 2 else ceilDiv ((n - 1) * m) 2
      let t := if 2 ≤ n then a.1 + ceilDiv bytes (portRate false) + lagBeats 1 else a.1
      (t, if c.op = 2 ∨ c.op = 4 then m * n else m)) (0, c.len)).1

/-- Duration of a task in beats (R40, R42, R272); `lead` is `HOLD_LEAD`, `coll` gives a collective's. -/
def duration (pl : Plan) (lead : Nat) (coll : CollDesc → Nat) (t : Task) : Nat :=
  let d :=
    if t.kind = 0x0A then 64
    else if t.kind = 9 then ((pl.ranks.colls[t.resources % 65536]?).map coll).getD 0
    else if windowed t then max (pl.window t) (lead + 1)
    else if t.kind ≠ 8 ∧ t.cycles ≠ 0 then ceilDiv t.cycles 1024
    else ceilDiv t.bytes (portRate false)
  max 1 d

end Plan

/-! ## Resources (R32, R482) -/

/-- A resource of the placement. Each unit is one of its own. -/
inductive Rsc where
  | cluster (c : Nat) | channel (c ch : Nat) | mover (i : Nat) | ix (u : Nat) | och (k : Nat) | port (k : Nat)
  | collective | ingest
deriving DecidableEq, Repr

/-- Clusters a selector names, plan-relative. -/
def selected (r : Nat) : List Nat := (List.range 32).filter fun c => natBits r c c = 1

/-- What a task takes: one unit out of each list, the first free one (R32, R482). -/
def Plan.takes (pl : Plan) (ring : Nat → Nat) (movers : Nat) (t : Task) : List (List Rsc) :=
  let chans (c : Nat) : List Rsc := (List.range 8).map (Rsc.channel c)
  match t.kind with
  | 1 => (selected t.resources).map fun c => [.cluster c]
  | 2 => ((selected t.resources).take 1).map chans
  | 3 => [(List.range movers).map .mover]
  | 4 => [[.ix (pl.ixUnit t.table)]]
  | 5 => [[.ix (pl.ixUnit t.table)]]
  | 6 => (List.range 8).map fun k => [.och k]
  | 7 => (List.range 9).map fun k => [.och k]
  | 8 => ((List.range 6).filter fun k => natBits t.resources k k = 1).map fun k => [.port k]
  | 9 =>
    let dims := ((pl.ranks.colls[t.resources % 65536]?).map (·.dims)).getD 0
    [.collective] :: ((List.range 6).filter fun k => natBits dims (k / 2) (k / 2) = 1 && 2 ≤ ring (k / 2)).map fun k => [.port k]
  | 0x0B => [.ingest] :: (selected t.resources).map chans
  | 0x0C => [[.och 8]]
  | _ => []

/-- A resource is busy in beats [from, to). -/
structure Busy where
  rsc  : Rsc
  from_ : Nat
  to_   : Nat
deriving DecidableEq, Repr

def isFree (bs : List Busy) (r : Rsc) (b e : Nat) : Bool := bs.all fun x => x.rsc ≠ r || e ≤ x.from_ || x.to_ ≤ b

/-- The first free unit of each list in beats [b, e), no unit twice. -/
def pickUnits (bs : List Busy) (b e : Nat) : List (List Rsc) → List Rsc → Option (List Rsc)
  | [], got => some got
  | g :: gs, got =>
    match g.find? fun r => isFree bs r b e && !got.contains r with
    | some r => pickUnits bs b e gs (got ++ [r])
    | none => none

/-- Tiles of the clusters in `rs` that are idle in beat b − 1 (R40); before the step's first beat all are (assumption 104). -/
def newlyWoken (bs : List Busy) (rs : List Rsc) (b : Nat) : Nat :=
  8 * (rs.filter fun r => match r with
    | .cluster _ => b = 0 || isFree bs r (b - 1) b
    | _ => false).length

/-- The first beat from `b` on in which a task of `d` beats fits, its units and the tiles it wakes (R40, R482): those may
bring a beat's wakes to `lim` at most. `n` beats are tried. -/
def fit (bs : List Busy) (wake : List (Nat × Nat)) (takes : List (List Rsc)) (d lim : Nat) :
    Nat → Nat → Option (Nat × List Rsc × Nat)
  | 0, _ => none
  | n + 1, b =>
    match pickUnits bs b (b + d) takes [] with
    | some rs =>
      let w := newlyWoken bs rs b
      if w = 0 ∨ mget 0 wake b + w ≤ lim then some (b, rs, w) else fit bs wake takes d lim n (b + 1)
    | none => fit bs wake takes d lim n (b + 1)

/-- Where the search of R40 ends. Past the last busy beat nothing changes any more; a task that wakes more than 16 tiles in
every beat would be searched for without end, and is placed in the first beat in which no other tile wakes
(assumption 12). -/
def place (bs : List Busy) (wake : List (Nat × Nat)) (takes : List (List Rsc)) (d b : Nat) : Nat × List Rsc × Nat :=
  let last := max (bs.foldl (fun m x => max m x.to_) 0) (wake.foldl (fun m x => max m (x.1 + 1)) 0)
  let n := max 1 (last + 2 - b)
  match fit bs wake takes d 16 n b with
  | some r => r
  | none => (fit bs (wake.map fun x => (x.1, 257)) takes d 256 n b).getD (max b (last + 1), [], 0)

/-! ## Placement (R40) -/

/-- A dependence with the fabric lag of R40. -/
def Plan.lagOf (pl : Plan) (fabric : Nat) (d : Dep) : Nat :=
  d.lag + if 1 < pl.rankCount ∧ (pl.tasks[d.pred]?).any (fun t => t.kind = 8 || t.kind = 9 || t.kind = 0x0A) then fabric
    else 0

/-- One sweep of the tails (R40). -/
def Plan.sweep (pl : Plan) (fabric : Nat) (dur : List Nat) (tails : List Nat) : List Nat :=
  (List.range pl.tasks.length).map fun i =>
    dur.getD i 1 + ((pl.deps.filter (·.pred = i)).map fun d => pl.lagOf fabric d + tails.getD d.succ 0).foldl max 0

def Plan.tails (pl : Plan) (fabric : Nat) (dur : List Nat) : List Nat :=
  (List.range pl.tasks.length).foldl (fun t _ => pl.sweep fabric dur t) dur

/-- Where the search of R40 stands. -/
structure Placing where
  placed : List Placed
  busy   : List Busy
  wake   : List (Nat × Nat)
deriving DecidableEq, Repr

def placedAt (ps : List Placed) (i : Nat) : Option Placed := ps.find? (·.task = i)

/-- No prefetch or lookup of the next step goes earlier than beat `HOLD_LEAD` (R199). -/
def Plan.floor (pl : Plan) (fabric i : Nat) : Nat :=
  if (pl.tasks[i]?).any (fun t => natBits t.flags 1 1 = 1 && (t.kind = 6 || t.kind = 0x0C)) then fabric + 2 else 0

/-- The earliest beat of a task whose predecessors are placed. -/
def Plan.earliest (pl : Plan) (fabric : Nat) (ps : List Placed) (i : Nat) : Nat :=
  max (pl.floor fabric i) <| ((pl.deps.filter (·.succ = i)).map fun d => match placedAt ps d.pred with
    | some q => q.start + q.dur + pl.lagOf fabric d
    | none => 0).foldl max 0

/-- Tasks that may be placed next; the commit exchange is not placed here (R482). -/
def Plan.ready (pl : Plan) (ps : List Placed) : List Nat :=
  (List.range pl.tasks.length).filter fun i =>
    (placedAt ps i).isNone && (pl.tasks[i]?).any (·.kind ≠ 0x0A) &&
    pl.deps.all fun d => d.succ ≠ i || (placedAt ps d.pred).isSome

/-- Number of a placed unit: its mover channel or mover, where R482 chose one. -/
def rscUnit : Rsc → Option Nat
  | .channel c ch => some (8 * c + ch)
  | .mover i => some i
  | _ => none

/-- Places one task after another, `n` times at most. -/
def Plan.placeAll (pl : Plan) (ring : Nat → Nat) (movers fabric : Nat) (dur tails : List Nat) : Nat → Placing → Placing
  | 0, a => a
  | n + 1, a =>
    let best := (pl.ready a.placed).foldl (fun (o : Option Nat) i => match o with
      | none => some i
      | some k =>
        let ti := tails.getD i 0
        let tk := tails.getD k 0
        let ei := pl.earliest fabric a.placed i
        let ek := pl.earliest fabric a.placed k
        if tk < ti ∨ (ti = tk ∧ (ei < ek ∨ (ei = ek ∧ i < k))) then some i else some k) none
    match best with
    | none => a
    | some i =>
      match pl.tasks[i]? with
      | none => a
      | some t =>
        let d := dur.getD i 1
        let e := pl.earliest fabric a.placed i
        let (b, rs, w) := place a.busy a.wake (pl.takes ring movers t) d e
        pl.placeAll ring movers fabric dur tails n
          { placed := a.placed ++ [{ task := i, start := b, dur := d, units := rs.filterMap rscUnit }],
            busy := a.busy ++ rs.map fun r => { rsc := r, from_ := b, to_ := b + d },
            wake := if w = 0 then a.wake else mput 0 a.wake b (mget 0 a.wake b + w) }

/-- The schedule, by task id, and its step length (R40, R482). -/
def Plan.schedule (pl : Plan) (ring : Nat → Nat) (movers : Nat) (coll : CollDesc → Nat) : List Placed × Nat :=
  let diam := ring 0 / 2 + ring 1 / 2 + ring 2 / 2
  let fabric := lagBeats diam
  let dur := pl.tasks.map (pl.duration (fabric + 2) coll)
  let tails := pl.tails fabric dur
  let ps := (pl.placeAll ring movers fabric dur tails pl.tasks.length { placed := [], busy := [], wake := [] }).placed
  let len := (ps.map fun q => q.start + q.dur).foldl max 0 + 64
  let all := (List.range pl.tasks.length).filterMap fun i => match placedAt ps i with
    | some q => some q
    | none => if (pl.tasks[i]?).any (·.kind = 0x0A) then some { task := i, start := len - 64, dur := 64, units := [] } else none
  (all, len)

/-- The schedule digest (R41). -/
def scheduleDigest (ps : List Placed) (len movers : Nat) : BitVec 512 :=
  shake512 (Config.scheduleBytes (ps.map fun q => (q.task, q.start, q.dur, q.units)) len movers)

end Sys2Proof.Machine
end

