-- ==== Sys2Proof/Machine/Layout.lean ====
section
/-! DEFINITION. Where what a plan load allocates lies (assumption 3) and how rows are found (R174 to R178, R190,
R191). -/

namespace Sys2Proof.Machine

/-- A region that a plan load places and no field of an image names. -/
inductive Region where
  | watchRecs | calRecs | tdesc | defCounts | mailbox
  | digests (rank parity : Nat)
  | manifest (rank : Nat)
  | staging (stack : Nat) | journal (e : Nat) | spill (e : Nat)
  | page (table shard pg : Nat) | newPage (table shard pg step : Nat)
  /-- A page of a table's replacement (R199). -/
  | replPage (table shard pg epoch : Nat)
  | defaultRow (table : Nat)
  | deltaLog (rank : Nat)
  | master (rank tensor parity : Nat) | dstate (rank tensor parity : Nat)
  | scales (rank : Nat)
  /-- Output of a table's work: 0 unique list, 1 segment map, 2 pooled vectors with their winners, 4 row gradients, 6 lists
  of an Ochre command; `mb` is the micro-batch plus 65,536 in an odd step. -/
  | work (kind table mb rank : Nat)
  | ingest (mb : Nat)
  | collBuf (coll rank : Nat)
  | counts (rank : Nat) | epochs (rank : Nat) | watchComp (rank : Nat) | pageMap (table rank : Nat)
  /-- A cluster's scale table (R154), within the Cluster Store. -/
  | scaleTable (cluster tensor : Nat)
  /-- The mirror of a rank in the Umber tier of its partner rank's host, by 256-byte block of what it mirrors (R274). -/
  | mirror (rank block : Nat)
  /-- A working copy of a tensor in a physical region 0 or 1 (R303), and under 2 the rank's own shard as re-derived. -/
  | copy (tensor q : Nat)
  /-- The discard buffer of a gradient of a frozen layer (R107). -/
  | discard (tensor : Nat)
  /-- Step-scoped data of a rank hosted away from its home (R262 `HOST_BYTES`). -/
  | hosted (rank : Nat)
deriving DecidableEq, Repr

/-- Number of a region: its kind and its index. -/
def Region.code : Region → Nat
  | .watchRecs => 0
  | .calRecs => 1
  | .tdesc => 2
  | .defCounts => 3
  | .mailbox => 4
  | .digests r q => 5 + 64 * (2 * r + q)
  | .manifest r => 6 + 64 * r
  | .staging k => 7 + 64 * k
  | .journal e => 8 + 64 * e
  | .spill e => 9 + 64 * e
  | .page t s g => 10 + 64 * (t + 4096 * (s + 65536 * g))
  | .newPage t s g n => 11 + 64 * (t + 4096 * (s + 65536 * (g + 2 ^ 32 * n)))
  | .defaultRow t => 12 + 64 * t
  | .deltaLog r => 13 + 64 * r
  | .master r t q => 14 + 64 * (q + 2 * (t + 65536 * r))
  | .dstate r t q => 15 + 64 * (q + 2 * (t + 65536 * r))
  | .scales r => 16 + 64 * r
  | .work k t mb r => 17 + 64 * (k + 8 * (t + 4096 * (mb + 131072 * r)))
  | .ingest mb => 18 + 64 * mb
  | .collBuf c r => 19 + 64 * (c + 65536 * r)
  | .counts r => 20 + 64 * r
  | .epochs r => 21 + 64 * r
  | .watchComp r => 22 + 64 * r
  | .pageMap t r => 23 + 64 * (t + 4096 * r)
  | .scaleTable c t => 24 + 64 * (c + 32 * t)
  | .mirror r b => 25 + 64 * (r + 2 ^ 20 * b)
  | .hosted r => 26 + 64 * r
  | .copy t q => 28 + 64 * (q + 3 * t)
  | .discard t => 29 + 64 * t
  | .replPage t s g n => 27 + 64 * (t + 4096 * (s + 65536 * (g + 2 ^ 32 * n)))

/-- Device address of a region of partition `p`. -/
def region (p : Nat) (r : Region) : Nat := Config.planAddr p r.code

/-- An address within a home: stack 0 to 7, or 8 for the Umber tier (R191), on a 256-byte block. -/
def inHome (home raw : Nat) : Nat :=
  if home < 8 then home * 0x12_0000_0000 + raw % 0x12_0000_0000 / 256 * 256
  else umberBase + raw % (umberEnd - umberBase) / 256 * 256

/-- Where the mirror of a rank holds the byte that its home holds at an address (R274). -/
def mirrorAddr (p r a : Nat) : Nat := inHome 8 (region p (.mirror r (a / 256))) + a % 256

/-- The key of a table's state on a rank. -/
def tableKey (t r : Nat) : Nat := t + 4096 * r

/-- Row key of the default row (R179). -/
def defaultKey : Nat := 2 ^ 40

/-- A row as its home finds it: home, slot address, state address (R174, R175, R190, R191). -/
structure RowAt where
  home  : Nat
  slot  : Nat
  state : Nat
deriving DecidableEq, Repr

namespace TableDesc

/-- Shard of a row key (R176, R179). -/
def shardOf (t : TableDesc) (key : Nat) : Nat := if key = defaultKey then 0 else key % 2 ^ t.shb

/-- Place of a row key within its shard. -/
def localOf (t : TableDesc) (key : Nat) : Nat := key / 2 ^ t.shb

def flag (t : TableDesc) (b : Nat) : Bool := natBits t.flags b b = 1

/-- `DEF_TRAIN`, `STALE`, `SR` and `OUT_BF16` (R171). -/
def defTrain (t : TableDesc) : Bool := t.flag 0
def stale (t : TableDesc) : Bool := t.flag 1
def sr (t : TableDesc) : Bool := t.flag 2
def outBf16 (t : TableDesc) : Bool := t.flag 3

end TableDesc

namespace State

/-! ## Tables -/

def tableDesc (s : State) (p t : Nat) : Option TableDesc :=
  match (s.part p).plan with
  | some pl => pl.tables[t]?
  | none => none

def tableSt (s : State) (p t r : Nat) : TableSt := mget TableSt.reset (s.part p).tables (tableKey t r)

def setTableSt (s : State) (p t r : Nat) (x : TableSt) : State :=
  s.modPart p fun q => { q with tables := mput TableSt.reset q.tables (tableKey t r) x }

def modTableSt (s : State) (p t r : Nat) (f : TableSt → TableSt) : State := s.setTableSt p t r (f (s.tableSt p t r))

/-- Ranks of the loaded plan. -/
def planRanks (s : State) (p : Nat) : Nat := ((s.part p).plan.map (·.rankCount)).getD 1

/-- Owner of a shard (R178), as moves have left it (R194); the shard map is kept with the module's own rank. -/
def shardOwner (s : State) (p t : Nat) (d : TableDesc) (sh : Nat) : Nat :=
  match (s.tableSt p t (s.homeRank p)).owners.find? (·.1 = sh) with
  | some (_, r) => r
  | none => d.firstOwner (s.planRanks p) sh

/-- Shards a rank owns, ascending. -/
def ownedShards (s : State) (p t : Nat) (d : TableDesc) (r : Nat) : List Nat :=
  (List.range (2 ^ d.shb)).filter fun sh => s.shardOwner p t d sh = r

/-- The page record a plan load makes (R191). -/
def firstPage (s : State) (p t : Nat) (d : TableDesc) (r sh pg : Nat) : PageRec :=
  let j := (d.shardsOf (s.planRanks p) r).idxOf sh
  let home := if j * d.shardPages + pg < d.hbmPages then (sh + pg) % 8 else 8
  { shard := sh, page := pg, home := home, count := 0, base := inHome home (region p (.page t sh pg)) }

def pageRec (s : State) (p t : Nat) (d : TableDesc) (r sh pg : Nat) : PageRec :=
  ((s.tableSt p t r).pages.find? fun x => x.shard = sh && x.page = pg).getD (s.firstPage p t d r sh pg)

def setPage (s : State) (p t r : Nat) (x : PageRec) : State :=
  s.modTableSt p t r fun q => { q with
    pages := (q.pages.filter fun y => !(y.shard = x.shard && y.page = x.page)) ++ [x] }

/-- Every page a rank owns of a table, ascending (shard, page). -/
def allPages (s : State) (p t : Nat) (d : TableDesc) (r : Nat) : List PageRec :=
  ((s.ownedShards p t d r).map fun sh => (List.range d.shardPages).map fun pg => s.pageRec p t d r sh pg).flatten

/-- Where a row key of a table lies on its owner. -/
def rowAt (s : State) (p t : Nat) (d : TableDesc) (r key : Nat) : RowAt :=
  if key = defaultKey then
    let a := inHome 0 (region p (.defaultRow t))
    { home := 0, slot := a, state := a + d.slotBytes }
  else
    let l := d.localOf key
    let x := s.pageRec p t d r (d.shardOf key) (l / 256)
    let i := l % 256
    let st := x.base + 256 * d.slotBytes
    { home := x.home, slot := x.base + i * d.slotBytes,
      state := if d.rule = 6 then st + 4 * i else st + i * (32 * stateSectors d.rule d.elems) }

/-- Adds sectors to the load counter of a row's page, saturating (R191). -/
def countLoad (s : State) (p t : Nat) (d : TableDesc) (r key n : Nat) : State :=
  if key = defaultKey then s
  else
    let x := s.pageRec p t d r (d.shardOf key) (d.localOf key / 256)
    s.setPage p t r { x with count := min (x.count + n) 0xFFFFFFFF }

/-- A plan is resilient (R274). -/
def resilient (s : State) (p : Nat) : Bool :=
  match (s.part p).plan with
  | some pl => natBits pl.options 1 1 = 1
  | none => false

end State
end Sys2Proof.Machine
end

