-- ==== Sys2Proof/Machine/Coord.lean ====
section
/-! DEFINITION. The coordinator (R264, R279 to R281, R286, R318, R322): what the module shown in `CUR_MASTER` decides
when modules fail and ports go down. -/

namespace Sys2Proof.Machine
namespace State

/-- This module is the coordinator (R279). -/
def isCoord (s : State) : Bool := s.getF F.PLN_BEAT_STATUS_CUR_MASTER 0 = s.pos

def modCoord (s : State) (p : Nat) (f : Coord → Coord) : State := s.modPart p fun x => { x with coord := f x.coord }

/-- Positions of the job's live modules, ascending (R312). -/
def livePositions (s : State) (p : Nat) : List Nat := (List.range s.torus).filter fun q => s.live p q

/-- Ranks a position hosts. -/
def hostedAt (s : State) (p q : Nat) : List Nat := (List.range (s.planRanks p)).filter fun r => s.hostOf p r = q

/-- A rank hosted by a failed module is covered: its partner rank's host lives and hosts only that partner rank, and both
ranks are at home (R280). -/
def covered (s : State) (p r : Nat) : Bool :=
  let v := s.partnerOf p r
  let h := s.hostOf p v
  !(s.part p).coord.failed.contains h && s.hostedAt p h = [v] && s.hostOf p r = s.homePos p r && h = s.homePos p v

/-- Ranks whose host has failed. -/
def orphans (s : State) (p : Nat) : List Nat :=
  (List.range (s.planRanks p)).filter fun r => (s.part p).coord.failed.contains (s.hostOf p r)

/-- `STEP` of a RESUME, RESTART or STOP (R322): the step after the one in doubt if some module committed it. -/
def resolvedStep (s : State) (p : Nat) : Nat :=
  let n := s.getF F.PLN_STEP_STEP p
  let d := s.getF F.PLN_COMMIT_STATUS_DSTATE p
  if d = 1 ∨ (d = 3 ∧ (s.part p).coord.doubts.any fun x => x.2 = .committed) then n + 1 else n

/-- Failed modules of a plain job, or one of no covered rank, end it. -/
def sendStop (s : State) (p : Nat) : State :=
  (s.emit (.stopMsg p (s.resolvedStep p))).modCoord p fun c => { c with firstAt := none, resumeBn := none }

/-- Sends a RESUME with a hosting epoch above the last sent; every rank of a failed module goes to its partner rank's
host, and the ranks hosted away already stay (R280, R281). -/
def sendResume (s : State) (p : Nat) (entries : List HostEntry) : State :=
  let c := (s.part p).coord
  let ep := max c.hepoch (s.getF F.FAB_HSTAT_HEPOCH 0) + 1
  let b := s.bn + max 0x100 (s.getF F.FAB_HCTRL_RESUME_LEAD 0)
  (s.emit (.resumeMsg p { hepoch := ep, resumeBn := b, step := s.resolvedStep p, entries := entries, digestsAgree := true })).modCoord p
    fun c => { c with firstAt := none, hepoch := ep, resumeBn := some b }

/-- The decision: RESUME if every rank of every failed module is covered, in resilient mode, else STOP. -/
def decideHosting (s : State) (p : Nat) : State :=
  let rs := s.orphans p
  if s.resilient p && rs.all (fun r => s.covered p r) then
    s.sendResume p ((rs.map fun r => { rank := r, host := s.hostOf p (s.partnerOf p r) }) ++
      ((s.part p).hosts.filter fun x => !rs.contains x.1).map fun x => { rank := x.1, host := x.2 })
  else s.sendStop p

/-- A RESUME has been sent whose `RESUME_BN` has not passed. -/
def resumePending (s : State) (p : Nat) : Bool :=
  match (s.part p).coord.resumeBn with
  | some b => s.bn ≤ b
  | none => false

/-- The coordinator takes a failure notice (R280, R281). -/
def takeNotice (s : State) (p : Nat) (qs : List Nat) : State :=
  let s := s.modCoord p fun c => { c with failed := c.failed ++ qs.filter fun q => !c.failed.contains q }
  if s.resumePending p then s.decideHosting p
  else s.modCoord p fun c => { c with firstAt := some (c.firstAt.getD s.bn) }

/-- The coordinator takes the report of a port that went down or came back (R318): with every reported port Up again and
no failure notice pending it sends RESTART. -/
def takePortReport (s : State) (p q k : Nat) (up : Bool) : State :=
  let c := (s.part p).coord
  let rest := c.downPorts.filter (· ≠ (q, k))
  if !up then s.modCoord p fun c => { c with downPorts := rest ++ [(q, k)] }
  else
    let s := s.modCoord p fun c => { c with downPorts := rest }
    if rest = [] ∧ c.downPorts ≠ [] ∧ c.firstAt.isNone ∧ ¬ s.resumePending p then
      s.emit (.restartMsg p (s.resolvedStep p) (s.bn + max 64 (s.getF F.PLN_COMMIT_CFG_ROLL_LEAD p)))
    else s

/-- Partitions whose plan runs. -/
def runningParts (s : State) : List Nat := (List.range 8).filter fun p => (s.part p).active

/-- Reports a port to the coordinator, which may be this module (R318). -/
def reportPort (s : State) (k : Nat) (up : Bool) : State :=
  let s := s.modPort k fun x => { x with reported := !up }
  if s.isCoord then s.runningParts.foldl (fun s p => s.takePortReport p s.pos k up) s
  else s.emit (.portReport (s.getF F.PLN_BEAT_STATUS_CUR_MASTER 0) k up)

/-- `FAB_HLOG` (R288). -/
def hlog (s : State) (qs : List Nat) (b : Nat) : State :=
  (s.putF F.FAB_HLOG_BN 0 b).putF F.FAB_HLOG_POS 0 (qs.headD 0)

/-- Newly absent positions: a failure notice to the coordinator, which may be this module (R279). -/
def sendNotice (s : State) (qs : List Nat) : State :=
  let s := { s.hlog qs s.bn with notice := some (qs, s.bn) }
  if s.isCoord then s.runningParts.foldl (fun s p => s.takeNotice p qs) s
  else s.emit (.notice (s.getF F.PLN_BEAT_STATUS_CUR_MASTER 0) qs s.bn)

/-- The commit-exchange window: the last 64 positions of a step (R311). -/
def inCommitWindow (s : State) (p : Nat) : Bool :=
  let x := s.part p
  x.active && x.stepLen ≤ s.getF F.PLN_SPOS_POS p + 64

/-- A module tells its coordinator of a step in doubt (R322). -/
def reportDoubt (s : State) (p : Nat) (r : DoubtReport) : State :=
  if s.isCoord then s.modCoord p fun c => { c with doubts := c.doubts ++ [(s.pos, r)] }
  else s.emit (.doubt (s.getF F.PLN_BEAT_STATUS_CUR_MASTER 0) r)

/-- A port went down, or a failure notice came: in the commit-exchange window a module with no decision is in doubt, one
with a decision reports it (R322). -/
def learnFailure (s : State) (p : Nat) : State :=
  if !s.inCommitWindow p then s
  else match s.getF F.PLN_COMMIT_STATUS_DSTATE p with
    | 0 => if (s.part p).okSent then
        ((s.putF F.PLN_COMMIT_STATUS_DSTATE p 3).modPart p fun x => { x with waiting := true }).reportDoubt p .inDoubt
      else s
    | 1 => s.reportDoubt p .committed
    | 3 => s
    | _ => s.reportDoubt p .rolledBack

end State

/-- A failure notice arrives: the coordinator starts or extends its gather period (R280), and a module without a decision
in its commit window is in doubt (R322). -/
def execFailureNotice (p : Nat) (positions : List Nat) (bn : Nat) (s : State) : Res :=
  let s := (s.hlog positions bn).learnFailure p
  .next (if s.isCoord then s.takeNotice p positions else s)

/-- `GATHER` beats after the first notice the coordinator decides (R280). -/
def execHostingDecision (p : Nat) (s : State) : Res :=
  .next (match (s.part p).coord.firstAt with
    | some b => if s.isCoord ∧ b + s.getF F.FAB_HCTRL_GATHER 0 ≤ s.bn then s.decideHosting p else s
    | none => s)

/-- A report of a RESUME that came after its `RESUME_BN`: the coordinator sends a new one (R281). -/
def execLateResumeReport (p hepoch : Nat) (s : State) : Res :=
  .next (if s.isCoord ∧ hepoch = (s.part p).coord.hepoch then s.decideHosting p else s)

/-- The coordinator receives reports of ports (R318). -/
def execPortStatusReport (p pos port : Nat) (up : Bool) (s : State) : Res :=
  .next (if s.isCoord then s.takePortReport p pos port up else s)

/-- The coordinator receives a report of a step in doubt, which fixes `STEP` of what it sends next (R322). -/
def execCommitStateReport (p pos : Nat) (r : DoubtReport) (s : State) : Res :=
  .next (if s.isCoord then s.modCoord p fun c => { c with doubts := c.doubts ++ [(pos, r)] } else s)

end Sys2Proof.Machine
end

