-- ==== Sys2Proof/Machine/Fabric.lean ====
section
/-! DEFINITION. The fabric (R231 to R261): messages sent, the training of ports, retry, what seals and credits that come do,
and the bypass switches. -/

namespace Sys2Proof.Machine

namespace State

/-- A message leaves by a port (R245, R250). One that must leave its ring at an absent position is discarded and counted,
which is a module fault (R251). -/
def sendMsg (s : State) (c : TClass) (h : MsgHdr) (o : Out) : State :=
  match s.nextHop h.src h.dest with
  | none => s
  | some v =>
    if s.unreachable v then (s.bump F.FAB_STAT_UNREACH 0).moduleFault (h.part % 8) 6 h.task false
    else s.queueMsg c h v o

/-- Messages of a transfer task that no port still holds (R248). -/
def allSent (s : State) (p task : Nat) : Bool :=
  (List.range 6).all fun k => (s.port k).txq.all fun m => m.part ≠ p || m.task ≠ task || 2 ≤ m.vc

/-- A transfer task whose last message has gone out delivers its arrival token (R248, assumption 99). -/
def settleSent (s : State) : State :=
  (List.range 8).foldl (fun s p => (s.part p).sent.foldl (fun s t =>
    if s.allSent p t then (s.modPart p fun x => { x with sent := x.sent.filter (· ≠ t) }).taskDone p t else s) s) s

/-- `TST_FTG.GO` reads 0 once every TEST message has left the module: no port holds a message of no task outside Carmine
(R444). -/
def settleFtg (s : State) : State :=
  if s.flag F.TST_FTG_GO 0 && (List.range 6).all fun k => (s.port k).txq.all fun m => m.vc < 2 || m.task ≠ noTask then
    s.putF F.TST_FTG_GO 0 0
  else s

/-- What waits at a port goes out as far as it may. -/
def drain (s : State) (k : Nat) : State := (s.pumpUp k).settleSent.settleFtg

/-! ## Ports (R240 to R244, R258) -/

/-- A dimension's bypass is open. -/
def bypassIsOpen (s : State) (d : Nat) : Bool := natBits (s.getF F.FAB_BYP_CLOSED 0) d d = 0

/-- A port may train: it is enabled and its dimension's bypass is open (R240). -/
def mayTrain (s : State) (k : Nat) : Bool := s.flag F.FAB_PCTRL_EN k && s.bypassIsOpen (k / 2)

/-- A port starts to train from Optical, or is Down. -/
def toOptical (s : State) (k : Nat) : State :=
  (s.putF F.FAB_PCTRL_RETRAIN k 0).putF F.FAB_PSTAT_STATE k (if s.mayTrain k then 1 else 0)

/-- A port enters Failed. The end with the higher position rank of a link to an adjacent place reports its module failed
(R278). -/
def failPort (s : State) (k cause : Nat) : State :=
  let s := ((s.putF F.FAB_PSTAT_STATE k 7).putF F.FAB_PSTAT_CAUSE k cause).elog 2 k cause 0
  let d := k / 2
  let n := s.ringSize d
  let c := s.coord d
  let t := if k % 2 = 1 then (c + 1) % n else (c + n - 1) % n
  let at_ (e : Nat) : Nat := if e = d then t else s.coord e
  if 2 ≤ n ∧ s.posOf (at_ 0) (at_ 1) (at_ 2) < s.pos then s.failModule 5 5 else s

/-- A port goes down (R244): it loses its retry buffer, credits and keys and trains from Optical, and messages that have not
begun wait; the module event is raised (R362), a running plan faults, the coordinator is told, and a module with no decision in its commit window is in doubt
(R318, R322). -/
def portDown (s : State) (k cause : Nat) : State :=
  let old := s.port k
  let s := s.setPort k { Port.reset with
    absent := old.absent, active := old.active, delay := old.delay, txq := old.txq.filter (!·.started) }
  let s := if cause = 0 then s else s.putF F.FAB_PSTAT_CAUSE k cause
  let s := ((s.toOptical k).elog 2 k (s.getF F.FAB_PSTAT_CAUSE k) 0).mevt 0
  if s.runningParts = [] then s
  else
    let s := s.runningParts.foldl learnFailure s
    (s.faultAll 5).reportPort k false

/-- A training state's limit passed, or its lanes do not suffice: again from Optical, or Failed after three attempts
(R240). -/
def trainAgain (s : State) (k : Nat) : State :=
  let n := (s.port k).attempts + 1
  let s := s.modPort k fun x => { x with attempts := n }
  if 3 ≤ n then s.failPort k 1 else s.toOptical k

/-- Lane groups whose lanes are all in a mask, lowest first (R243). -/
def goodGroups (lanes : Nat) : List Nat := (List.range 4).filter fun g => natBits lanes (4 * g + 3) (4 * g) = 15

/-- Lanes of a list of groups. -/
def groupLanes (gs : List Nat) : Nat := (gs.map fun g => 15 * 16 ^ g).foldl (· + ·) 0

/-- Lanes a port runs on. -/
def setLanes (s : State) (k lanes : Nat) (w8 : Bool) : State :=
  (s.putF F.FAB_PSTAT_LANES k lanes).putF F.FAB_PSTAT_W8 k (if w8 then 1 else 0)

/-- A port enters Align and sends this module's position rank and ring sizes (R242). -/
def startAlign (s : State) (k : Nat) : State :=
  (s.putF F.FAB_PSTAT_STATE k 3).emit (.align k s.pos (s.ringSize 0, s.ringSize 1, s.ringSize 2))

/-- Ring positions strictly between this module and the far end in the port's direction (R242). -/
def between (s : State) (k far : Nat) : List Nat :=
  let d := k / 2
  let n := s.ringSize d
  let t := s.placeOf far d
  let dist := if k % 2 = 1 then (t + n - s.coord d) % n else (s.coord d + n - t) % n
  (List.range (dist - 1)).map fun i =>
    let c := if k % 2 = 1 then (s.coord d + i + 1) % n else (s.coord d + n - (i + 1)) % n
    let at_ (e : Nat) : Nat := if e = d then c else s.coord e
    s.posOf (at_ 0) (at_ 1) (at_ 2)

/-- A position of the port's ring other than this module's. -/
def inRing (s : State) (k far : Nat) : Bool :=
  far < s.torus && far ≠ s.pos && [0, 1, 2].all fun e => e = k / 2 || s.placeOf far e = s.coord e

/-- The chain of a peer is accepted: outside MANUFACTURE by every test of R392, in MANUFACTURE by R393; and the signature
over the exchange verifies (R241). -/
def chainOk (s : State) (c : PeerChain) : Bool :=
  c.exchOk &&
  if s.ident.lc = 0 then c.lc = 0 && c.selfOk
  else c.sigsOk && c.rootOk && c.lc = s.ident.lc && c.owner = s.activeOwner.getD 0 && s.ident.counter ≤ c.svn

/-! ## Bypass switches (R258) -/

/-- A dimension's switch opens while `OPEN` is 1 and both ports are enabled, unless the module has failed or the torus does
not use the dimension (R259); a port whose path opens trains, one whose path closes goes down. -/
def settleBypass (s : State) (d : Nat) : State :=
  let open_ : Bool := 2 ≤ s.ringSize d && natBits (s.getF F.FAB_BYP_OPEN 0) d d = 1 && s.flag F.FAB_PCTRL_EN (2 * d) &&
    s.flag F.FAB_PCTRL_EN (2 * d + 1) && !s.flag F.GEN_STATUS_FAILED 0
  let c := s.getF F.FAB_BYP_CLOSED 0
  s.putF F.FAB_BYP_CLOSED 0 (if open_ then c &&& (7 - 2 ^ d) else c ||| 2 ^ d)

/-- After a change of `EN` or of a switch a port that may train and is Down starts, and one that may not goes down. -/
def settlePort (s : State) (k : Nat) : State :=
  let st := s.getF F.FAB_PSTAT_STATE k
  if s.mayTrain k then (if st = 0 then (s.modPort k fun x => { x with attempts := 0 }).toOptical k else s)
  else if st = 5 ∨ st = 6 then s.portDown k 7
  else if st = 7 then s
  else s.putF F.FAB_PSTAT_STATE k 0

def settleDim (s : State) (d : Nat) : State := ((s.settleBypass d).settlePort (2 * d)).settlePort (2 * d + 1)

/-! ## Retry, seals and credits (R234 to R239) -/

/-- `RETRY_LIMIT`, 0 treated as 1. -/
def retryLimit (s : State) (k : Nat) : Nat := max 1 (s.getF F.FAB_PCTRL_RETRY_LIMIT k)

/-- Flits sent after the numbered one count from it. -/
def seqFrom (a b : Nat) : Nat := (b + 4096 - a % 4096) % 4096

/-- Resends every buffered flit from a number on (R235); one that reaches `RETRY_LIMIT` takes the port down (R236), as
does a number the buffer cannot supply. -/
def resendFrom (s : State) (k n : Nat) : State :=
  let x := s.port k
  match x.retry.findIdx? (·.flit.seq = n) with
  | none => if n = x.txNext then s else s.portDown k 4
  | some i =>
    let again := (x.retry.drop i).map fun f => { f with resent := f.resent + 1 }
    let s := (s.setPort k { x with retry := x.retry.take i ++ again }).bump F.FAB_PERR_RETX k
    let s := again.foldl (fun s f => s.emitFlit k f.flit) s
    if again.any fun f => s.retryLimit k ≤ f.resent then s.portDown k 4 else s

/-- An acknowledgement: every flit up to the number leaves the buffer, and what waits may be sent (R235). -/
def ackTo (s : State) (k n : Nat) : State :=
  let x := s.port k
  match x.retry.findIdx? (·.flit.seq = n) with
  | none => s
  | some i => (s.setPort k { x with retry := (x.retry.drop (i + 1)).map fun f => { f with resent := 0 } }).drain k

/-- Credits from the freed counts of a SEAL (R237, R239). -/
def takeCredits (s : State) (k : Nat) (credit : List Nat) : State :=
  (s.modPort k fun x => { x with
    credits := (List.range 6).map fun v =>
      min (startCredits.getD v 0) (x.credits.getD v 0 + (credit.getD v 0 + 2 ^ 32 - x.freedSeen.getD v 0) % 2 ^ 32),
    freedSeen := (List.range 6).map fun v => credit.getD v 0 % 2 ^ 32 }).drain k

/-- A NAK goes out with the next flit, an IDLE one, once until the expected flit arrives (R234). -/
def sendNak (s : State) (k : Nat) : State :=
  let x := s.port k
  if x.nakSent then s
  else (s.modPort k fun x => { x with nakSent := true }).emit (.flit k { plainFlit 0 (fillBody []) with ack := x.rxNext, ak := 2 })

/-- `n` sequenced flits came in order on a port; the flits it sends acknowledge them, the next of which is IDLE (R234). -/
def received (s : State) (k n : Nat) : State :=
  (s.modPort k fun x => { x with rxNext := (x.rxNext + n) % 4096, nakSent := false, heard := true }).emitFlit k
    (plainFlit 0 (fillBody []))

/-- The flits of a delivered message were received on a port and freed (R237, R239). -/
def freeFlits (s : State) (k vc n : Nat) : State :=
  (s.modPort k fun x => { x with
    owedSeal := true, freed := x.freed.set vc ((x.freed.getD vc 0 + n) % 2 ^ 32) }).received k n

/-! ## Keying (R241) -/

/-- This module is the end of the lower position rank, which makes the key pair. -/
def lowerEnd (s : State) (k : Nat) : Bool := s.pos < s.getF F.FAB_PSTAT_FAR_POS k

/-- A port enters Keying: the lower end sends an encapsulation key drawn for it. -/
def startKeying (s : State) (k : Nat) : State :=
  let s := s.putF F.FAB_PSTAT_STATE k 4
  if s.lowerEnd k then
    let n := s.ident.drbg
    ({ s with ident := { s.ident with drbg := n + 1 } }.modPort k fun x => { x with kexDraw := some n }).emit
      (.linkKem k (Config.kemPublic n))
  else s

/-- What one end makes of the other's part of the exchange: the encapsulation key, the ciphertext and the shared secret. -/
def exchange (s : State) (k : Nat) (kem : List Byte) : List Byte × List Byte × List Byte :=
  if s.lowerEnd k then
    let n := (s.port k).kexDraw.getD 0
    (Config.kemPublic n, kem, Config.kemDecaps n kem)
  else
    let (ct, ss) := Config.kemEncaps kem s.ident.drbg
    (kem, ct, ss)

end State

/-- A write of `FAB_CFG` takes effect while every port is Down or Failed, else it is discarded and logged (R261). -/
def execFabCfgWrite (f : Func) (v : Word) (s : State) : Res :=
  .next (s.gated f F.FAB_CFG_X.base fun s =>
    if (List.range 6).all fun k => let st := s.getF F.FAB_PSTAT_STATE k; st = 0 || st = 7 then
      [0, 1, 2].foldl State.settleDim (s.setWord F.FAB_CFG_X.base (v &&& fieldMask 33 0)).masterByCfg
    else s.genErr f 1 F.FAB_CFG_X.base)

/-- A write of `FAB_PCTRL`: `EN` enables a port, moves the switch of its dimension and starts training; it also leaves
Failed (R240, R258). -/
def execPortEnable (port : Nat) (v : Word) (s : State) : Res :=
  .next (if 6 ≤ port then s
    else s.gated .pf (F.FAB_PCTRL_EN.off port) fun s =>
      let s := (s.writeOthers (F.FAB_PCTRL_EN.off port) v).putF F.FAB_PCTRL_EN port (getBits v 0 0)
      let s := if s.getF F.FAB_PSTAT_STATE port = 7 then s.putF F.FAB_PSTAT_STATE port 0 else s
      s.settleDim (port / 2))

/-- Signal on all 16 lanes: Optical ends (R240). -/
def execOpticalSignalDetect (port : Nat) (s : State) : Res :=
  .next (if s.getF F.FAB_PSTAT_STATE port = 1 then s.putF F.FAB_PSTAT_STATE port 2 else s)

/-- The equalisers of the lanes in the mask have converged: with all 16 the port runs at 16, else at 8 on the two lowest
groups that did; with fewer it trains again (R240, R243). In Align the port sends its position and ring sizes (R242). -/
def execEqualiseDone (port lanes : Nat) (s : State) : Res :=
  .next (if s.getF F.FAB_PSTAT_STATE port ≠ 2 then s
    else match State.goodGroups lanes with
      | [0, 1, 2, 3] => (s.setLanes port 0xFFFF false).startAlign port
      | a :: b :: _ => (s.setLanes port (State.groupLanes [a, b]) true).startAlign port
      | _ => (s.putF F.FAB_PSTAT_CAUSE port 6).trainAgain port)

/-- Lock, deskew and the exchange of positions end Align (R242): another torus or a position outside the ring is
miswired; positions passed by are absent, and newly absent ones set off a failure notice (R279). -/
def execAlignDone (port farPos : Nat) (rings : Nat × Nat × Nat) (rtt : Nat) (s : State) : Res :=
  .next (if s.getF F.FAB_PSTAT_STATE port ≠ 3 then s
    else if rings ≠ (s.ringSize 0, s.ringSize 1, s.ringSize 2) ∨ ¬ s.inRing port farPos then s.failPort port 2
    else
      let gone := s.between port farPos
      let fresh := gone.filter fun q => !(s.port port).absent.contains q
      let s := (s.putF F.FAB_PSTAT_FAR_POS port farPos).putF F.FAB_PSTAT_RTT port (min rtt 65535)
      let s := s.modPort port fun x => { x with absent := gone, delay := rtt / 2 }
      let s := s.startKeying port
      if fresh = [] then s
      else (s.modPort port fun x => { x with reported := false }).sendNotice fresh)

/-- The key exchange ends (R239, R241, R392, R393): the module sends its part of it, its chain and its signature over the
digest of the exchange; keys of both directions, counters from 0 and full credits, or Failed with cause authentication. -/
def execKeyingDone (port : Nat) (peer : PeerChain) (s : State) : Res :=
  .next (if s.getF F.FAB_PSTAT_STATE port ≠ 4 then s
    else
      let (ek, ct, ss) := s.exchange port peer.kem
      let t := shake256 (ek ++ ct)
      let s := if s.lowerEnd port then s
        else { s with ident := { s.ident with drbg := s.ident.drbg + 1 } }.emit (.linkKem port ct)
      let s := s.emit (.linkChain port (s.chain) (s.aliasSign t))
      if !s.chainOk peer then s.failPort port 3
      else
        let s := s.modPort port fun x => { Port.reset with
          keys := some (shakeBytes 64 (ss ++ t)), credits := startCredits, absent := x.absent, delay := x.delay, active := x.active,
          txq := x.txq, reported := x.reported }
        let s := s.putF F.FAB_PSTAT_STATE port 5
        (if (s.port port).reported then s.reportPort port true else s).drain port)

/-- The limit of a training state passes; that of Remap takes the port down, to train from Optical (R240). -/
def execTrainingLimitExpiry (port : Nat) (s : State) : Res :=
  let st := s.getF F.FAB_PSTAT_STATE port
  .next (if 1 ≤ st ∧ st ≤ 4 then s.trainAgain port
    else if st = 6 then (s.portDown port 1).modPort port fun x => { x with attempts := 1 }
    else s)

/-- A write of 1 to `RETRAIN`: the port goes down and trains fully; one that is Failed starts again (R240, R244). -/
def execPortRetrain (port : Nat) (s : State) : Res :=
  .next (if 6 ≤ port then s
    else s.gated .pf (F.FAB_PCTRL_RETRAIN.off port) fun s =>
      let st := s.getF F.FAB_PSTAT_STATE port
      if st = 0 then s.putF F.FAB_PCTRL_RETRAIN port 1
      else if st = 5 ∨ st = 6 then s.portDown port 0
      else (s.modPort port fun x => { x with attempts := 0 }).toOptical port)

/-- Lanes of an Up port lost lock or are too bad: Remap onto the two lowest groups that are wholly good, keeping what the
link holds, or down with cause lanes (R243). -/
def execLaneLoss (port lanes : Nat) (s : State) : Res :=
  .next (if s.getF F.FAB_PSTAT_STATE port ≠ 5 then s
    else match State.goodGroups (s.getF F.FAB_PSTAT_LANES port &&& (0xFFFF - lanes % 0x10000)) with
      | a :: b :: _ => (s.setLanes port (State.groupLanes [a, b]) true).putF F.FAB_PSTAT_STATE port 6
      | _ => s.portDown port 6)

/-- Remap ends: Up at 8 lanes (R243). -/
def execRemapDone (port : Nat) (s : State) : Res :=
  .next (if s.getF F.FAB_PSTAT_STATE port = 6 then (s.putF F.FAB_PSTAT_STATE port 5).drain port else s)

/-- The signal of an Up or Remap port is lost: it goes down (R244). -/
def execPortSignalLost (port : Nat) (s : State) : Res :=
  let st := s.getF F.FAB_PSTAT_STATE port
  .next (if st = 5 ∨ st = 6 then s.portDown port 7 else s)

/-- A NAK: every buffered flit from the number on is sent again (R235). -/
def execNakReceive (port seq : Nat) (s : State) : Res :=
  .next (if s.portUp port then s.resendFrom port (seq % 4096) else s)

/-- 4 µs without progress while flits are unacknowledged (R235). -/
def execRetryTimeout (port : Nat) (s : State) : Res :=
  .next (match (s.port port).retry with
    | f :: _ => if s.portUp port then s.resendFrom port f.flit.seq else s
    | [] => s)

/-- `AK` 01b: every sequenced flit up to the number is acknowledged (R232, R235). -/
def execAckReceive (port seq : Nat) (s : State) : Res :=
  .next (if s.portUp port then s.ackTo port (seq % 4096) else s)

/-- A flit that fails its CRC, lies in an uncorrectable codeword or is out of sequence is discarded, and NAKed once (R231,
R234). `symErrs` are the symbol errors of the codewords that hold its bytes: a codeword of up to 15 is corrected, one of
more is uncorrectable; both are counted (R260). -/
def execFlitDiscard (port : Nat) (crcBad : Bool) (symErrs : List Nat) (s : State) : Res :=
  .next (if !s.portUp port then s
    else
      let s := if crcBad then s.bump F.FAB_PERR_CRC port else s
      let s := s.bumpBy F.FAB_PERR_FECU port (symErrs.filter (15 < ·)).length
      let s := s.bumpBy F.FAB_PFEC_FEC port ((symErrs.filter (· ≤ 15)).foldl (· + ·) 0)
      s.sendNak port)

/-- A SEAL: out of sequence it is discarded and NAKed; a tag that fails is counted and takes the port down; else the group
is verified and its credits are taken (R234, R237 to R239). -/
def execSealFlit (port : Nat) (seq group count : Nat) (tagOk : Bool) (credit : List Nat) (s : State) : Res :=
  .next (if !s.portUp port then s
    else if seq % 4096 ≠ (s.port port).rxNext then s.sendNak port
    else if !tagOk ∨ group ≠ (s.port port).groupRx ∨ 256 < count then (s.bump F.FAB_PERR_SEALF port).portDown port 5
    else
      ((s.modPort port fun x => { x with groupRx := x.groupRx + 1 }).received port 1).takeCredits port credit)

/-- A write of `FAB_BYP.OPEN` permits or forbids each switch to open (R258). -/
def execBypassOpen (f : Func) (v : Word) (s : State) : Res :=
  .next (s.gated f F.FAB_BYP_OPEN.base fun s =>
    let s := s.putF F.FAB_BYP_OPEN 0 (getBits v 2 0)
    [0, 1, 2].foldl State.settleDim s)

end Sys2Proof.Machine
end

