-- ==== Sys2Proof/Machine/Manifest.lean ====
section
/-! DEFINITION. The records a module keeps in device memory of its committed state (R153, R191, R293, R295, R331, R342,
R343, R345): scale states, counts, epochs, page maps, watch records, manifests, and the initial values. -/

namespace Sys2Proof.Machine

/-- Tag of a micro-batch of a step. -/
def mbTag (step mb : Nat) : Nat := step * 65536 + mb % 65536

/-- The 80 bytes of a scale state (R153). -/
def scaleBytes (x : ScaleSt) : List Byte :=
  ((List.range 16).map fun i => leBytes 4 (x.hist.getD i 0).toNat).flatten ++ leBytes 1 x.len ++ leBytes 1 x.fill ++
  leBytes 1 x.head ++ leBytes 1 (x.exp % 256).toNat ++ leBytes 1 x.fmt ++ leBytes 1 (if x.cold then 1 else 0) ++ leBytes 10 0

/-- The 64 bytes of a watch state record (R331). -/
def watchBytes (w : WatchRec) : List Byte :=
  leBytes 8 w.elems ++ leBytes 8 w.zero ++ leBytes 8 w.quiet ++ leBytes 8 w.nonfin ++ leBytes 8 w.sat ++ leBytes 4 w.run ++
  leBytes 4 ((if w.alarm then 1 else 0) + (if w.noneCounted then 2 else 0)) ++ leBytes 8 w.alarmStep ++ leBytes 8 0

/-- A watch state record for a list entry, all zeros. -/
def WatchRec.zero_ (entry : Word) : WatchRec :=
  { entry := entry, elems := 0, zero := 0, quiet := 0, nonfin := 0, sat := 0, run := 0, alarm := false,
    noneCounted := false, alarmStep := 0 }

/-- The 16 bytes of a page-map record (R191). -/
def pageBytesOf (x : PageRec) : List Byte := leBytes 1 x.home ++ leBytes 3 0 ++ leBytes 4 x.count ++ leBytes 8 x.base

/-- The region of a tensor's masters and state that is committed before step `n` (R302): a frozen layer's never changes, and
nothing writes its other region (R108). -/
def regionIn (pl : Plan) (e : TensorEnt) (n : Nat) : Nat := if pl.params.frozen e then 0 else n % 2

/-- Elements of a rank's shard of a dense tensor (R299). -/
def shardElems (t : TensorEnt) (ranks : Nat) : Nat := ceilDiv t.elems (max 1 ranks)

/-- FP32 state values a rule keeps per element, or per row for row-wise Adagrad (R172, R297). -/
def stateVals (rule : Nat) : Nat := stateBytes (if rule = 0x0B then 8 else rule) 1 / 4

/-- Bytes of a rank's optimizer-state shard of a dense tensor: none of a layer frozen in pass-through mode (R106). -/
def dstateBytes (pl : Plan) (e : TensorEnt) : Nat :=
  if pl.params.passes pl.options e then 0
  else shardElems e pl.rankCount * stateVals e.rule * (if e.sfmt = 1 then 2 else 4)

/-- A rule starts its accumulator at `INIT` (R293). -/
def initsAcc (rule : Nat) : Bool := rule = 5 || rule = 6 || rule = 7

/-- Bytes of one output element of a table. -/
def outBytes (d : TableDesc) : Nat := if d.outBf16 then 2 else 4

namespace State

def curStep (s : State) (p : Nat) : Nat := s.getF F.PLN_STEP_STEP p

/-- A table's list of a micro-batch. -/
def listOf (s : State) (p t r tag : Nat) : List ListEntry := mget [] (s.tableSt p t r).lists tag

/-- Device address of a pooled vector, its winner vector following it (R343, R453). -/
def pooledAt (s : State) (p t : Nat) (d : TableDesc) (r tag bag : Nat) : Nat :=
  let vec := d.elems * outBytes d
  let b := region p (.work 2 t (65536 * (tag / 65536 % 2)) r)
  if d.pool = 0 then
    b + vec * (bag + ((List.range (tag % 65536)).map fun m => (s.listOf p t r (mbTag (tag / 65536) m)).length).foldl (· + ·) 0)
  else
    let size := match (s.part p).plan with
      | some pl => (pl.classes.map (·.mbSize)).getD 0
      | none => 0
    b + (vec + if d.pool = 3 then 2 * d.elems else 0) * (tag % 65536 * size + bag)


/-! ## Writing the records -/

def plan (s : State) (p : Nat) : Option Plan := (s.part p).plan

/-- `n` FP32 words of one value from an address up. -/
def fill32 (s : State) (a n : Nat) (w : W32) : State := s.wr a (List.replicate n (leBytes 4 w.toNat)).flatten

/-- Indices of the history-mode tensors, ascending. -/
def historyTensors (pl : Plan) : List Nat :=
  (List.range pl.params.tensors.length).filter fun i => (pl.params.tensors[i]?).any fun t => t.smode = 1

/-- Indices of the parameter tensors, ascending. -/
def paramTensors (pl : Plan) : List Nat :=
  (List.range pl.params.tensors.length).filter fun i => (pl.params.tensors[i]?).any fun t => t.kind = 1

/-- Writes a rank's scale states to their records. -/
def writeScales (s : State) (p r : Nat) : State :=
  match s.plan p with
  | none => s
  | some pl =>
    let b := region p (.scales r)
    ((historyTensors pl).zipIdx).foldl (fun s x =>
      match (s.part p).scales.find? (·.1 = rankKey x.1 r) with
      | some (_, st) => s.wr (b + 80 * x.2) (scaleBytes st)
      | none => s) s

/-- A count with its bias powers as a record of 16 bytes (R343). -/
def countBytes (c : Nat) (p1 p2 : W32) : List Byte := leBytes 8 c ++ leBytes 4 p1.toNat ++ leBytes 4 p2.toNat

/-- Count and bias powers of a parameter tensor of a rank. -/
def tensorCountOf (s : State) (p t r : Nat) : Nat × W32 × W32 := mget (0, one32, one32) (s.part p).tensorCount (rankKey t r)

def writeCounts (s : State) (p r : Nat) : State :=
  match s.plan p with
  | none => s
  | some pl =>
    s.wr (region p (.counts r))
      (((paramTensors pl).map fun t => let (c, a, b) := s.tensorCountOf p t r; countBytes c a b).flatten ++
        ((List.range pl.tables.length).map fun t => let x := s.tableSt p t r; countBytes x.count x.p1 x.p2).flatten)

def writeEpochs (s : State) (p r : Nat) : State :=
  match s.plan p with
  | none => s
  | some pl =>
    let es := (List.range pl.tables.length).map fun t => (s.tableSt p t r).epoch
    let s := s.wr (region p (.epochs r)) (es.map (leBytes 4)).flatten
    -- the live descriptor array shows the current epochs (R200)
    es.zipIdx.foldl (fun s e => s.wr (region p .tdesc + 64 * e.2 + 0x14) (leBytes 4 e.1)) s

/-- The watch list entries in use (R349). -/
def watchCount (s : State) (p : Nat) : Nat := min (s.getF F.WCH_CTRL_NWATCH p) 4096

/-- Watch state records of a rank hosted here. -/
def watchesOf (s : State) (p r : Nat) : List WatchRec := if r = s.homeRank p then (s.part p).watches else (s.part p).hwatches

def setWatches (s : State) (p r : Nat) (ws : List WatchRec) : State :=
  if r = s.homeRank p then s.modPart p fun x => { x with watches := ws } else s.modPart p fun x => { x with hwatches := ws }

/-- The records of the rank at home lie at `WCH_STATE_BASE` (R331). -/
def writeWatches (s : State) (p r : Nat) : State :=
  let ws := s.watchesOf p r
  let recs := (ws.map watchBytes).flatten
  let s := if r = s.homeRank p then s.wr (region p .watchRecs) recs else s
  s.wr (region p (.watchComp r))
    (leBytes 4 ws.length ++ leBytes 4 0 ++ (ws.map fun w => leBytes 8 w.entry.toNat).flatten ++ recs)

def writePages (s : State) (p r : Nat) : State :=
  match s.plan p with
  | none => s
  | some pl => (List.range pl.tables.length).foldl (fun s t => match pl.tables[t]? with
    | some d => s.wr (region p (.pageMap t r)) ((s.allPages p t d r).map pageBytesOf).flatten
    | none => s) s

/-- One manifest entry (R342). -/
def manEntry (comp id addr len : Nat) : List Byte :=
  leBytes 1 comp ++ leBytes 3 0 ++ leBytes 4 id ++ leBytes 8 addr ++ leBytes 8 len ++ leBytes 8 0

/-- The entries of a rank's manifest before step `n` (R343): the committed regions are those of `n` mod 2 (R302). -/
def manEntries (s : State) (p r n : Nat) (pl : Plan) : List (List Byte) :=
  let ten (t : Nat) : TensorEnt := (pl.params.tensors[t]?).getD (readTensor [] 0)
  let size (t : Nat) : Nat := shardElems (ten t) pl.rankCount
  let all := 0xFFFFFFFF
  (paramTensors pl).map (fun t => manEntry 0x10 t (region p (.master r t (regionIn pl (ten t) n))) (4 * size t)) ++
  (List.range pl.tables.length).map (fun t => match pl.tables[t]? with
    | some d => manEntry 0x11 t (region p (.pageMap t r)) (16 * (s.allPages p t d r).length)
    | none => []) ++
  ((paramTensors pl).filter fun t => !pl.params.passes pl.options (ten t)).map (fun t =>
    manEntry 0x12 t (region p (.dstate r t (regionIn pl (ten t) n))) (dstateBytes pl (ten t))) ++
  [manEntry 0x13 all (region p (.counts r)) (16 * ((paramTensors pl).length + pl.tables.length)),
   manEntry 0x14 all (region p (.scales r)) (80 * (historyTensors pl).length),
   manEntry 0x15 all (region p (.watchComp r)) (8 + 72 * (s.watchesOf p r).length),
   manEntry 0x16 all (region p (.epochs r)) (4 * pl.tables.length)] ++
  ((List.range pl.tables.length).filter fun t => (pl.tables[t]?).any (·.stale)).map (fun t =>
    manEntry 0x17 t (region p (.work 2 t (65536 * (n % 2)) r)) (match pl.tables[t]? with
      | some d => carriedBytes [d] pl.classes
      | none => 0))

/-- Rewrites the manifest of a rank with everything it names that is a record of the module's own (R342). `n` is the
number of the next step and `root` the digest root before it. -/
def writeManifest (s : State) (p r n : Nat) (root : Word) : State :=
  match s.plan p with
  | none => s
  | some pl =>
    let s := ((((s.writeScales p r).writeCounts p r).writeEpochs p r).writeWatches p r).writePages p r
    let es := s.manEntries p r n pl
    s.wr (region p (.manifest r))
      (leBytes 8 n ++ leBytes 4 r ++ leBytes 4 pl.rankCount ++ leBytes 4 es.length ++ leBytes 4 0 ++ leBytes 8 root.toNat ++
        leBytes 32 0 ++ leBytes 64 pl.meas.toNat ++ es.flatten)

/-! ## Initial values (R190, R293, R295) -/

/-- Rows of a shard (R176). -/
def shardRows (d : TableDesc) (sh : Nat) : Nat := ceilDiv (d.rows - sh) (2 ^ d.shb)

/-- Rows of a page that the table has; those beyond `ROWS` stay zero (R177). -/
def rowsOn (d : TableDesc) (x : PageRec) : Nat := min 256 (shardRows d x.shard - 256 * x.page)

/-- Row state of one page at its initial values, the page's first slot being at its `BASE` (R175, R177, R293). -/
def initPage (s : State) (d : TableDesc) (h : HypEnt) (x : PageRec) : State :=
  let per := stateSectors d.rule d.elems
  let st := x.base + 256 * d.slotBytes
  let n := rowsOn d x
  let s := s.wipe st (32 * pageStateSectors d.rule d.elems)
  if !initsAcc d.rule then s
  else if d.rule = 6 then s.fill32 st n h.init
  else (List.range n).foldl (fun s i => s.fill32 (st + i * 32 * per) d.elems h.init) s

/-- State of a table's default row at its initial values, on the owner of shard 0. -/
def initDefault (s : State) (p t r : Nat) (d : TableDesc) (h : HypEnt) : State :=
  if s.shardOwner p t d 0 ≠ r then s
  else
    let x := s.rowAt p t d r defaultKey
    let s := s.wipe x.state (32 * stateSectors d.rule d.elems)
    if initsAcc d.rule then s.fill32 x.state (if d.rule = 6 then 1 else d.elems) h.init else s

/-- A table's row state of a rank at its initial values. -/
def initRowState (s : State) (p t r : Nat) (d : TableDesc) (h : HypEnt) : State :=
  (s.allPages p t d r).foldl (fun s x => s.initPage d h x) (s.initDefault p t r d h)

/-- A dense tensor's state of a rank at its initial values, in region `q`. -/
def initDense (s : State) (p t r q : Nat) (pl : Plan) : State :=
  match pl.params.tensors[t]? with
  | none => s
  | some e =>
    let n := shardElems e pl.rankCount
    let a := region p (.dstate r t q)
    let init := ((pl.params.hyps[e.hyp]?).map (·.init)).getD 0
    let w := if e.sfmt = 1 then 2 else 4
    let s := s.wipe a (dstateBytes pl e)
    if !initsAcc e.rule ∨ pl.params.passes pl.options e then s
    else if e.sfmt = 1 then s.wr a (List.replicate n (leBytes 2 (bf16.convert .sat (f32v init)).1)).flatten
    else s.fill32 a n init

/-- Every optimizer state of a rank at its initial values, counts 0 and bias powers 1.0 (R293, R345). -/
def initState (s : State) (p r : Nat) : State :=
  match s.plan p with
  | none => s
  | some pl =>
    let s := (List.range pl.tables.length).foldl (fun s t => match pl.tables[t]? with
      | some d => (s.initRowState p t r d ((pl.params.hyps[d.hyp]?).getD (readHyp [] 0))).modTableSt p t r fun x =>
          { x with count := 0, p1 := one32, p2 := one32 }
      | none => s) s
    let s := s.modPart p fun x => { x with tensorCount := x.tensorCount.filter fun c => c.1 / 65536 ≠ r }
    (paramTensors pl).foldl (fun s t => (s.initDense p t r 0 pl).initDense p t r 1 pl) s

/-- A history-mode tensor's scale state before its first step (R153, R156). -/
def freshScale (pl : Plan) (t : Nat) : ScaleSt :=
  let e := (pl.params.tensors[t]?).getD (readTensor [] 0)
  { hist := List.replicate 16 0, len := if e.hlen = 0 then 16 else e.hlen, fill := 0,
    head := if e.head = 0xFF then 1 else e.head, exp := 0, fmt := if Config.scaleE5 pl.meas t then 4 else 3,
    cold := false, amax := 0, coldStep := false }

/-- A rank's scale states as before a first step. -/
def freshScales (s : State) (p r : Nat) : State :=
  match s.plan p with
  | none => s
  | some pl => s.modPart p fun x => { x with
      scales := (x.scales.filter fun q => q.1 / 65536 ≠ r) ++ (historyTensors pl).map fun t => (rankKey t r, freshScale pl t) }

/-! ## Reading them back (R344, R345) -/

/-- A scale state from its record. -/
def readScale (s : State) (a : Nat) : ScaleSt :=
  { hist := (List.range 16).map fun i => BitVec.ofNat 32 (s.rdN (a + 4 * i) 4), len := s.rdN (a + 0x40) 1,
    fill := s.rdN (a + 0x41) 1, head := s.rdN (a + 0x42) 1, exp := signed 8 (s.rdN (a + 0x43) 1), fmt := s.rdN (a + 0x44) 1,
    cold := natBits (s.rdN (a + 0x45) 1) 0 0 = 1, amax := 0, coldStep := false }

def loadScales (s : State) (p r : Nat) : State :=
  match s.plan p with
  | none => s
  | some pl => s.modPart p fun x => { x with
      scales := (x.scales.filter fun q => q.1 / 65536 ≠ r) ++ (historyTensors pl).zipIdx.map fun t =>
        (rankKey t.1 r, s.readScale (region p (.scales r) + 80 * t.2)) }

def readCount (s : State) (a : Nat) : Nat × W32 × W32 :=
  (s.rdN a 8, BitVec.ofNat 32 (s.rdN (a + 8) 4), BitVec.ofNat 32 (s.rdN (a + 12) 4))

def loadCounts (s : State) (p r : Nat) : State :=
  match s.plan p with
  | none => s
  | some pl =>
    let b := region p (.counts r)
    let np := (paramTensors pl).length
    let s := (paramTensors pl).zipIdx.foldl (fun s t =>
      let v := s.readCount (b + 16 * t.2)
      s.modPart p fun x => { x with tensorCount := mput (0, one32, one32) x.tensorCount (rankKey t.1 r) v }) s
    (List.range pl.tables.length).foldl (fun s t =>
      let (c, a1, a2) := s.readCount (b + 16 * (np + t))
      s.modTableSt p t r fun x => { x with count := c, p1 := a1, p2 := a2 }) s

def loadEpochs (s : State) (p r : Nat) : State :=
  match s.plan p with
  | none => s
  | some pl =>
    let s := (List.range pl.tables.length).foldl (fun s t =>
      s.modTableSt p t r fun x => { x with epoch := s.rdN (region p (.epochs r) + 4 * t) 4 }) s
    s.writeEpochs p r

/-- A watch state record from memory. -/
def readWatch (s : State) (entry : Word) (a : Nat) : WatchRec :=
  let f := s.rdN (a + 0x2C) 4
  { WatchRec.zero_ entry with
    elems := s.rdN a 8, zero := s.rdN (a + 8) 8, quiet := s.rdN (a + 0x10) 8, nonfin := s.rdN (a + 0x18) 8,
    sat := s.rdN (a + 0x20) 8, run := s.rdN (a + 0x28) 4, alarm := natBits f 0 0 = 1, noneCounted := natBits f 1 1 = 1,
    alarmStep := s.rdN (a + 0x30) 8 }

def loadWatches (s : State) (p r : Nat) : State :=
  let b := region p (.watchComp r)
  let n := min (s.rdN b 4) 4096
  let ws := (List.range n).map fun i =>
    s.readWatch (BitVec.ofNat 64 (s.rdN (b + 8 + 8 * i) 8)) (b + 8 + 8 * n + 64 * i)
  s.setWatches p r ws

/-- Pooled vectors of a staleness-1 table for a step, read back from where they lie. -/
def readCarried (s : State) (p r t n : Nat) (d : TableDesc) (c : Classes) : List Pooled :=
  ((List.range c.mbCount).map fun mb => (List.range c.mbSize).map fun bag =>
    let tag := mbTag n mb
    let a := s.pooledAt p t d r tag bag
    { mb := tag, bag := bag,
      vals := (List.range d.elems).map fun i => BitVec.ofNat 32 (s.rdN (a + outBytes d * i) (outBytes d)), flag := 0,
      winner := if d.pool = 3 then (List.range d.elems).map fun i => s.rdN (a + outBytes d * d.elems + 2 * i) 2 else [], got := n - 1 }).flatten

end State
end Sys2Proof.Machine
end

