-- ==== Sys2Proof/Machine/Collective.lean ====
section
/-! DEFINITION. The Collective Engine (R266 to R271): reduce-scatter, all-gather, broadcast and norm over the rings of a
group, message by message. A message names the receiving rank in `ADDR`, its engine context. -/

namespace Sys2Proof.Machine

/-- A message of the engine on its way to a rank. -/
structure CollMsg where
  to_  : Nat
  hdr  : CollHdr
  data : List Byte
deriving DecidableEq, Repr

/-- Most data bytes a COLLECTIVE message carries beside its sub-header, a multiple of 4. -/
def collPiece : Nat := 65520

/-- FP32 words of a byte string. -/
def words32 (b : List Byte) : List W32 := (List.range (b.length / 4)).map fun i => BitVec.ofNat 32 (leNat ((b.drop (4 * i)).take 4))

def bytes32 (ws : List W32) : List Byte := (ws.map fun w => leBytes 4 w.toNat).flatten

namespace State

/-- Device address of step-scoped data of a rank: in place for the rank at home, in the hosted area for another (R262,
R282). -/
def dataAt (s : State) (p r a : Nat) : Nat := if r = s.homeRank p then a else region p (.hosted r) + a

/-! ## Groups (R266) -/

/-- Dimensions a descriptor spans, ascending. -/
def collDims (c : CollDesc) : List Nat := [0, 1, 2].filter fun d => natBits c.dims d d = 1

/-- Dimensions with a stage of its own: rings of two or more. -/
def collStages (s : State) (c : CollDesc) : List Nat := (collDims c).filter fun d => 2 ≤ s.ringSize d

/-- Participants of a group. -/
def collSize (s : State) (c : CollDesc) : Nat := ((collDims c).map s.ringSize).foldl (· * ·) 1

/-- Shard index of a rank within its group. -/
def shardIdx (s : State) (c : CollDesc) (r : Nat) : Nat :=
  ((collDims c).foldl (fun (a : Nat × Nat) d => (a.1 + a.2 * s.placeOf r d, a.2 * s.ringSize d)) (0, 1)).1

/-- Coordinate in dimension `d` of a shard index. -/
def shardCoord (s : State) (c : CollDesc) (sh d : Nat) : Nat :=
  sh / (((collDims c).takeWhile (· ≠ d)).map s.ringSize).foldl (· * ·) 1 % s.ringSize d

/-- The rank at ring index `i` of rank `r`'s ring in dimension `d`. -/
def ringRank (s : State) (r d i : Nat) : Nat :=
  let at_ (e : Nat) : Nat := if e = d then i % s.ringSize d else s.placeOf r e
  s.posOf (at_ 0) (at_ 1) (at_ 2)

/-- The ring index after `i` in a direction: lower halves go +, upper halves −. -/
def ringNext (s : State) (d i dirn : Nat) : Nat :=
  let n := s.ringSize d
  if dirn = 0 then (i + 1) % n else (i + n - 1) % n

/-! ## Pieces -/

/-- Bytes of one contribution or shard: the elements of its lower half, then the rest. -/
def halfBytes (c : CollDesc) (len dirn : Nat) : Nat :=
  let unit := max 1 (fmtBits c.fmt / 8)
  let lower := ceilDiv (len / unit) 2 * unit
  if dirn = 0 then lower else len - lower

/-- Bytes of a shard of a reduce-scatter, of a contribution of the other operations. -/
def partLen (s : State) (c : CollDesc) : Nat := if c.op = 1 then c.len / s.collSize c else c.len

/-- Byte offset of a piece within its shard or contribution. -/
def pieceAt (s : State) (c : CollDesc) (dirn offset : Nat) : Nat :=
  (if dirn = 0 then 0 else halfBytes c (s.partLen c) 0) + offset * fmtBits c.fmt / 8

/-- The pieces of one half: element offset and bytes. -/
def pieces (s : State) (c : CollDesc) (dirn : Nat) : List (Nat × Nat) :=
  let n := halfBytes c (s.partLen c) dirn
  (List.range (ceilDiv n collPiece)).map fun i => (i * collPiece * 8 / fmtBits c.fmt, min collPiece (n - i * collPiece))

/-! ## Runs -/

/-- What the all-gathers that the Planner adds are numbered from, past every task id. -/
def ownGather : Nat := 2 ^ 24

/-- Bytes of a rank's shard of a working copy, in whole blocks (R67, R160). -/
def copyLen (pl : Plan) (t : Nat) : Nat :=
  match pl.params.tensors[t]? with
  | some e => ceilDiv (shardElems e pl.rankCount) 16384 * blockPitch (Config.copyFmt pl.meas t)
  | none => 0

/-- The all-gather of a tensor's re-derived shards into its version 0 (R303, R319). -/
def ownDesc (s : State) (p : Nat) (pl : Plan) (t : Nat) : Option CollDesc :=
  (pl.params.tensors[t]?).map fun e =>
    { op := 2, dims := 7, fmt := 6, root := 0, src := region p (.copy t 2),
      dst := region p (.copy t (regionIn pl e (s.getF F.PLN_STEP_STEP p))), len := copyLen pl t }

def collDesc (s : State) (p task : Nat) : Option CollDesc :=
  match (s.part p).plan with
  | some pl => if ownGather ≤ task then s.ownDesc p pl (task - ownGather) else match pl.tasks[task]? with
    | some t => pl.ranks.colls[t.resources % 65536]?
    | none => none
  | none => none

def collRun (s : State) (p task r : Nat) : CollRun :=
  ((s.part p).colls.find? fun x => x.task = task && x.rank = r).getD
    { task := task, rank := r, started := false, inbox := [], held := [], fin := false }

def setCollRun (s : State) (p : Nat) (x : CollRun) : State :=
  s.modPart p fun q => { q with colls := (q.colls.filter fun y => !(y.task = x.task && y.rank = x.rank)) ++ [x] }

def holdChunk (s : State) (p task r : Nat) (k : Chunk) : State :=
  let x := s.collRun p task r
  s.setCollRun p { x with held := x.held ++ [k] }

/-- The engine writes for a task; the checker sees it (R53). -/
def collWr (s : State) (p task a : Nat) (b : List Byte) : State :=
  s.wrBy p (if ownGather ≤ task then plannerTask else task) collectiveMaster a b

/-- Where stage number `i` of a reduce-scatter finds a rank's own value of a piece: the source buffer, then the results
of the stage before. -/
def reduceAt (s : State) (p r : Nat) (c : CollDesc) (i sh dirn offset : Nat) : Nat :=
  let o := sh * s.partLen c + s.pieceAt c dirn offset
  if i = 0 then s.dataAt p r c.src + o else region p (.collBuf 0 r) + o

/-- Where a rank keeps a contribution of the other operations. -/
def gatherAt (s : State) (p r : Nat) (c : CollDesc) (t dirn offset : Nat) : Nat :=
  let o := s.pieceAt c dirn offset
  if c.op = 4 then region p (.collBuf 1 r) + t * c.len + o
  else if c.op = 3 then s.dataAt p r c.dst + o
  else s.dataAt p r c.dst + t * c.len + o

/-- A rank's own value of stage number `i` is there. -/
def ownReady (s : State) (p task r : Nat) (c : CollDesc) (i sh dirn offset : Nat) : Bool :=
  let x := s.collRun p task r
  x.started && (i = 0 || match (s.collStages c)[i - 1]? with
    | some d => x.held.any fun k => k.dim = d && k.shard = sh && k.dirn = dirn && k.offset = offset
    | none => false)

/-- The message a rank starts stage number `i` of a piece with, if it is the first of its ring to send it (R268,
R271). -/
def startPiece (s : State) (p r : Nat) (c : CollDesc) (coll i sh dirn offset n : Nat) : List CollMsg :=
  match (s.collStages c)[i]? with
  | none => []
  | some d =>
    let me := s.placeOf r d
    if me = s.ringNext d (s.shardCoord c sh d) dirn then
      [{ to_ := s.ringRank r d (s.ringNext d me dirn),
         hdr := { coll := coll, dim := d, dirn := dirn, pass := 1, shard := sh, offset := offset },
         data := s.rd (s.reduceAt p r c i sh dirn offset) n }]
    else []

/-- A stage of a piece of a reduce-scatter ends at its owner: the result is kept for the next stage, or written to
`DST`. -/
def endPiece (s : State) (p task r : Nat) (c : CollDesc) (coll i sh dirn offset : Nat) (v : List Byte) :
    State × List CollMsg :=
  let st := s.collStages c
  let d := st.getD i 7
  let k : Chunk := { dim := d, shard := sh, dirn := dirn, offset := offset, len := v.length }
  if st.length ≤ i + 1 then
    ((s.collWr p task (s.dataAt p r c.dst + s.pieceAt c dirn offset) v).holdChunk p task r k, [])
  else
    let s := (s.collWr p task (s.reduceAt p r c (i + 1) sh dirn offset) v).holdChunk p task r k
    (s, s.startPiece p r c coll (i + 1) sh dirn offset v.length)

/-- A message of a reduce-scatter whose own value is there: the sum goes on, or the stage ends here. -/
def addPiece (s : State) (p task r : Nat) (c : CollDesc) (i : Nat) (h : CollHdr) (data : List Byte) : State × List CollMsg :=
  let own := words32 (s.rd (s.reduceAt p r c i h.shard h.dirn h.offset) data.length)
  let v := bytes32 (((words32 data).zip own).map fun x => fadd x.1 x.2)
  let me := s.placeOf r h.dim
  if me = s.shardCoord c h.shard h.dim then s.endPiece p task r c h.coll i h.shard h.dirn h.offset v
  else (s, [{ to_ := s.ringRank r h.dim (s.ringNext h.dim me h.dirn), hdr := { h with pass := h.pass + 1 }, data := v }])

/-- The messages that carry a contribution into the stages after number `i`. -/
def spread (s : State) (r : Nat) (c : CollDesc) (coll i t dirn offset : Nat) (data : List Byte) : List CollMsg :=
  ((s.collStages c).drop i).map fun d =>
    { to_ := s.ringRank r d (s.ringNext d (s.placeOf r d) dirn),
      hdr := { coll := coll, dim := d, dirn := dirn, pass := 1, shard := t, offset := offset }, data := data }

/-- A message of the other operations: kept, and forwarded until every member of the ring has it. -/
def keepPiece (s : State) (p task r : Nat) (c : CollDesc) (i : Nat) (h : CollHdr) (data : List Byte) : State × List CollMsg :=
  let s := (s.collWr p task (s.gatherAt p r c h.shard h.dirn h.offset) data).holdChunk p task r
    { dim := h.dim, shard := h.shard, dirn := h.dirn, offset := h.offset, len := data.length }
  let on : List CollMsg := if h.pass + 1 < s.ringSize h.dim then
      [{ to_ := s.ringRank r h.dim (s.ringNext h.dim (s.placeOf r h.dim) h.dirn), hdr := { h with pass := h.pass + 1 }, data := data }]
    else []
  (s, on ++ s.spread r c h.coll (i + 1) h.shard h.dirn h.offset data)

/-! ## Completion -/

/-- A rank holds its result: every element of its own shard, or every contribution. -/
def collWhole (s : State) (p task r : Nat) (c : CollDesc) : Bool :=
  let x := s.collRun p task r
  let st := s.collStages c
  let got := if c.op = 1 then x.held.filter fun k => k.dim = st.getLastD 7 && k.shard = s.shardIdx c r else x.held
  let need := if c.op = 1 ∨ c.op = 3 then s.partLen c else s.collSize c * c.len
  x.started && !x.fin && need ≤ (got.map (·.len)).foldl (· + ·) 0

/-- The sums of a norm, in ascending shard index from +0 (R269). -/
def normSums (s : State) (p r : Nat) (c : CollDesc) : List W32 :=
  (List.range (c.len / 4)).map fun k =>
    (List.range (s.collSize c)).foldl (fun acc t =>
      fadd acc (BitVec.ofNat 32 (s.rdN (region p (.collBuf 1 r) + t * c.len + 4 * k) 4))) 0

/-- A rank's part of an all-gather the Planner added is over; with the last the restore is complete (R319, R321). -/
def gathered (s : State) (p t r : Nat) : State :=
  let s := s.modPart p fun x => { x with rederive := x.rederive.filter (· ≠ (t, r)) }
  let x := s.part p
  if x.rederive = [] ∧ ¬ x.restoring ∧ s.getF F.PLN_COMMIT_STATUS_DSTATE p = 4 then s.putF F.PLN_COMMIT_STATUS_DSTATE p 0 else s

/-- A rank whose result is whole has finished its task. -/
def collFinish (s : State) (p task r : Nat) (c : CollDesc) : State :=
  if !s.collWhole p task r c || s.rolling p then s
  else
    let s := if c.op = 4 then s.collWr p task (s.dataAt p r c.dst) (bytes32 (s.normSums p r c)) else s
    let s := s.setCollRun p { s.collRun p task r with fin := true }
    if ownGather ≤ task then s.gathered p (task - ownGather) r
    else s.taskDone p (if r = s.homeRank p then task else task + (s.part p).graph)

/-- A rank takes one message, or keeps it until its own value is there (R271). -/
def collTake (s : State) (p task r : Nat) (h : CollHdr) (data : List Byte) : State × List CollMsg :=
  match s.collDesc p task with
  | none => (s, [])
  | some c =>
    let i := (s.collStages c).idxOf h.dim
    if c.op = 1 ∧ ¬ s.ownReady p task r c i h.shard h.dirn h.offset then
      let x := s.collRun p task r
      (s.setCollRun p { x with inbox := x.inbox ++ [(h, data)] }, [])
    else
      let (s, ms) := if c.op = 1 then s.addPiece p task r c i h data else s.keepPiece p task r c i h data
      (s.collFinish p task r c, ms)

/-- Messages kept whose own value has come. -/
def collDue (s : State) (p task r : Nat) (c : CollDesc) : List (CollHdr × List Byte) :=
  (s.collRun p task r).inbox.filter fun m =>
    s.ownReady p task r c ((s.collStages c).idxOf m.1.dim) m.1.shard m.1.dirn m.1.offset

/-- Takes the messages kept that are due now. -/
def collDrainOnce (s : State) (p task r : Nat) (c : CollDesc) : State × List CollMsg :=
  let due := s.collDue p task r c
  let x := s.collRun p task r
  let s := s.setCollRun p { x with inbox := x.inbox.filter fun m => !due.contains m }
  due.foldl (fun (a : State × List CollMsg) m =>
    let (s, ms) := a.1.collTake p task r m.1 m.2
    (s, a.2 ++ ms)) (s, [])

/-- Takes the messages kept that are due, and those of later stages that become due by them. -/
def collDrain (s : State) (p task r : Nat) (c : CollDesc) : State × List CollMsg :=
  (List.range 3).foldl (fun (a : State × List CollMsg) _ =>
    let (s, ms) := a.1.collDrainOnce p task r c
    (s, a.2 ++ ms)) (s, [])

/-- What a rank holds of its own at the start: the first passes of every piece, or its contribution (R271). -/
def collBegin (s : State) (p task r : Nat) (c : CollDesc) (coll : Nat) : State × List CollMsg :=
  let s := s.setCollRun p { s.collRun p task r with started := true }
  let halves : List Nat := [0, 1]
  let me := s.shardIdx c r
  let ofHalf (f : Nat → Nat → Nat → List CollMsg) : List CollMsg :=
    (halves.map fun dirn => ((s.pieces c dirn).map fun k => f dirn k.1 k.2).flatten).flatten
  if c.op = 1 then
    if s.collStages c = [] then
      halves.foldl (fun (a : State × List CollMsg) dirn => (s.pieces c dirn).foldl (fun a k =>
        let (t, ms) := a.1.endPiece p task r c coll 0 0 dirn k.1 (s.rd (s.reduceAt p r c 0 0 dirn k.1) k.2)
        (t, a.2 ++ ms)) a) (s, [])
    else (s, ((List.range (s.collSize c)).map fun sh => ofHalf fun dirn o n => s.startPiece p r c coll 0 sh dirn o n).flatten)
  else if c.op = 3 ∧ me ≠ s.shardIdx c c.root then (s, [])
  else
    let own (dirn o n : Nat) : List Byte := s.rd (s.dataAt p r c.src + s.pieceAt c dirn o) n
    let t := halves.foldl (fun t dirn => (s.pieces c dirn).foldl (fun t k =>
      (t.collWr p task (s.gatherAt p r c me dirn k.1) (own dirn k.1 k.2)).holdChunk p task r
        { dim := 7, shard := me, dirn := dirn, offset := k.1, len := k.2 }) t) s
    (t, ofHalf fun dirn o n => s.spread r c coll 0 me dirn o (own dirn o n))

/-! ## Messages -/

/-- Header of a message the engine sends. -/
def collHead (s : State) (p task from_ : Nat) (m : CollMsg) : MsgHdr :=
  { dest := s.hostOf p m.to_, src := s.pos, kind := 2, part := p, attempt := (s.part p).rollbacks % 256, next := false,
    step := s.getF F.PLN_STEP_STEP p, addr := m.to_, token := 0,
    task := if ownGather ≤ task then plannerTask else if from_ = s.homeRank p then task else task + (s.part p).graph }

/-- Sends what a rank has to send: out by the fabric, or to another rank hosted here, which then sends in turn; at most
`n` deliveries inside the module (R270, R273). Nothing goes once the attempt is rolled back (R317). -/
def collSend (s : State) (p task : Nat) : Nat → Nat → List CollMsg → State
  | 0, _, _ => s
  | _, _, [] => s
  | n + 1, r, m :: ms =>
    let h := s.collHead p task r m
    if s.rolling p then s
    else if h.dest = s.pos then
      match s.collDesc p task with
      | none => s
      | some c =>
        let (s, a) := s.collTake p task m.to_ m.hdr m.data
        let (s, b) := s.collDrain p task m.to_ c
        let s := collSend s p task n m.to_ (a ++ b)
        collSend s p task n r ms
    else collSend (s.sendMsg .carmine h (.coll h m.hdr m.data)) p task n r ms

/-- A rank's share of a collective, after something came to it. -/
def collGo (s : State) (p task r : Nat) (ms : List CollMsg) : State :=
  match s.collDesc p task with
  | none => s
  | some c =>
    let (s, more) := s.collDrain p task r c
    (s.collFinish p task r c).collSend p task (2 * (s.torus + 2) * (s.collSize c + 2) * 8) r (ms ++ more)

/-- A collective task starts for a rank hosted here. -/
def startColl (s : State) (p task r : Nat) : State :=
  let t := task % max 1 (s.part p).graph
  match s.collDesc p t with
  | none => s
  | some c =>
    let coll := match (s.part p).plan with
      | some pl => ((pl.tasks[t]?).map (·.resources % 65536)).getD 0
      | none => 0
    let (s, ms) := s.collBegin p t r c coll
    s.collGo p t r ms

/-- Descriptor number of an all-gather the Planner added: after the plan's own. -/
def copyColl (s : State) (p t : Nat) : Nat := ((s.part p).plan.map fun pl => pl.ranks.colls.length).getD 0 + t

/-- A rank's re-derived shard goes out to every rank's copy (R319). -/
def startGather (s : State) (p t r : Nat) : State :=
  match s.collDesc p (ownGather + t) with
  | none => s
  | some c =>
    let (s, ms) := s.collBegin p (ownGather + t) r c (s.copyColl p t)
    s.collGo p (ownGather + t) r ms

/-- A COLLECTIVE message is delivered to the rank its engine context names. -/
def collDeliver (s : State) (p : Nat) (h : MsgHdr) (k : CollHdr) (data : List Byte) : State :=
  let t := if h.task = plannerTask then ownGather + (k.coll - s.copyColl p 0) else h.task % max 1 (s.part p).graph
  let (s, ms) := s.collTake p t h.addr k data
  s.collGo p t h.addr ms

end State

/-- The Collective Engine starts the collective of a task for a rank hosted here (R266 to R271). -/
def execCollective (p task rank : Nat) (s : State) : Res :=
  .next (if (s.part p).active ∧ ¬ s.rolling p ∧ (s.ranksHere p).contains rank then s.startColl p task rank else s)

end Sys2Proof.Machine
end

