-- ==== Sys2Proof/Machine/Frames.lean ====
section
/-! DEFINITION. The stream ports' frames as bytes (R372 to R376): the stream header, MACsec, what a received frame is, and
frames sent. -/

namespace Sys2Proof.Machine

/-! ## Bytes (R373, R375) -/

/-- A byte into the reflected CRC-32 register: eight shifts. -/
def fcsBits : Nat → W32 → W32
  | 0, c => c
  | n + 1, c => fcsBits n (if c.getLsbD 0 then (c >>> 1) ^^^ 0xEDB88320 else c >>> 1)

/-- A frame with its FCS: CRC-32 reflected, from all ones, complemented, low byte first. -/
def fcs (b : List Byte) : List Byte :=
  leBytes 4 (~~~ (b.foldl (fun c x => fcsBits 8 (c ^^^ x.setWidth 32)) (0xFFFFFFFF : W32))).toNat

/-- EtherTypes of the stream protocol, of MACsec and of an 802.1Q tag, as they lie in a frame. -/
def streamType : List Byte := [0x88, 0xB5]
def secType : List Byte := [0x88, 0xE5]
def tagType : List Byte := [0x81, 0x00]

/-- Octets of a MAC address, the first octet first (R8, R378). -/
def macBytes (m : Nat) : List Byte := leBytes 6 m

/-- The protected part of a frame: EtherType, stream header and payload (R375). -/
def streamBytes (h : StreamHdr) (payload : List Byte) : List Byte :=
  streamType ++ [1] ++ leBytes 1 h.type ++ leBytes 1 h.part ++ leBytes 1 (if h.last then 1 else 0) ++ leBytes 4 h.rank ++
  leBytes 8 h.step ++ leBytes 4 h.seq ++ leBytes 2 payload.length ++ leBytes 10 0 ++ payload

/-- The same part as it is read; none if it is no stream frame of version 1 or shorter than its `LEN` says. -/
def readStream (port mac : Nat) (b : List Byte) : Option (StreamHdr × List Byte) :=
  let n := le b 22 2
  if b.take 2 ≠ streamType ∨ b.length < 34 + n ∨ le b 2 1 ≠ 1 then none
  else some ({ port := port, mac := mac, type := le b 3 1, part := le b 4 1, last := le b 5 1 % 2 = 1, rank := le b 6 4 % 2 ^ 17,
               step := le b 10 8, seq := le b 18 4 }, (b.drop 34).take n)

/-! ## MACsec (R373, R374) -/

/-- `SL` of a SecTAG: the length of secure data shorter than 48 bytes, else 0. -/
def shortLen (n : Nat) : Nat := if n < 48 then n else 0

/-- The SecTAG of an association: its number, the low half of the packet number, and the sender's SCI. -/
def secTag (an pn n : Nat) (src : List Byte) : List Byte :=
  secType ++ leBytes 1 (0x2C + an) ++ leBytes 1 (shortLen n) ++ highFirst 4 (pn % 2 ^ 32) ++ src ++ [0, 1]

/-- The initialization vector of GCM-AES-XPN: salt, exclusive-or SSCI and packet number. -/
def xpnIv (salt : List Byte) (ssci pn : Nat) : List Byte := addKey salt (highFirst 4 ssci ++ highFirst 8 pn)

/-- A key and a salt of one direction, with its SSCI. -/
structure SecKey where
  key : List Byte
  salt : List Byte
  ssci : Nat
deriving DecidableEq, Repr

/-- The two directions of the 88 bytes of a key exchange (R374). -/
def fromPeer (k : List Byte) : SecKey := { key := k.take 32, salt := (k.drop 32).take 12, ssci := 1 }
def toPeer (k : List Byte) : SecKey := { key := (k.drop 44).take 32, salt := (k.drop 76).take 12, ssci := 2 }

/-- Text and ciphertext under a packet number: each the other with the key stream. -/
def SecKey.cipher (k : SecKey) (pn : Nat) (b : List Byte) : List Byte :=
  addKey b (gcmStream k.key (xpnIv k.salt k.ssci pn) 0 b.length)

/-- The ICV over the addresses, the SecTAG and the ciphertext. -/
def SecKey.icv (k : SecKey) (pn : Nat) (aad ct : List Byte) : List Byte := gcmTag k.key (xpnIv k.salt k.ssci pn) aad ct

/-- A protected frame without its FCS. -/
def protect (k : SecKey) (an pn : Nat) (dst src text : List Byte) : List Byte :=
  let aad := dst ++ src ++ secTag an pn text.length src
  let ct := k.cipher pn text
  aad ++ ct ++ k.icv pn aad ct

/-- A frame with its FCS. -/
def withFcs (b : List Byte) : List Byte := b ++ fcs b

/-- The packet number whose low half a SecTAG carries, the next one due being `due`: its high half, or one more where the low
half has passed round (as IEEE 802.1AE gives it for XPN). -/
def fullPn (due low : Nat) : Nat :=
  let hi := due / 2 ^ 32
  let hi := if 2 ^ 31 ≤ due % 2 ^ 32 ∧ low < 2 ^ 31 then hi + 1 else hi
  hi * 2 ^ 32 + low

namespace State

/-! ## Receipt (R372 to R376) -/

/-- The link of a stream port is up. -/
def linkUp (s : State) (k : Nat) : Bool := k < 2 && s.flag F.STM_PSTAT_UP k

/-- The stream port by which the module sends: the first whose link is up. -/
def sendPort (s : State) : Option Nat := (List.range 2).find? s.linkUp

/-- A peer has a secure association. -/
def hasSa (s : State) (mac : Nat) : Bool := s.peers.any fun x => x.mac = mac && x.live

def peerOf (s : State) (mac : Nat) : Peer :=
  (s.peers.find? (·.mac = mac)).getD
    { mac := mac, live := false, an := 0, old := none, stage := 0, stream := 0, next := 0, buf := [], keys := [], oldKeys := [],
      rxPn := 0, oldPn := 0, txPn := 0 }

def setPeer (s : State) (x : Peer) : State := { s with peers := (s.peers.filter (·.mac ≠ x.mac)) ++ [x] }

/-- A frame counted in `OTHER`. -/
def otherIn (s : State) (k : Nat) : State := s.bump F.STM_PCNT_OTHER k

/-- The keys of a peer's association number, and the packet number accepted last under it; none where it has no such
association. -/
def assoc (s : State) (mac an : Nat) : Option (SecKey × Nat) :=
  let x := s.peerOf mac
  if !x.live then none
  else if an = x.an then some (fromPeer x.keys, x.rxPn)
  else if x.old = some an then some (fromPeer x.oldKeys, x.oldPn)
  else none

/-- A packet is accepted under an association; the first under the new one ends the old (R374). -/
def acceptPn (s : State) (mac an pn : Nat) : State :=
  let x := s.peerOf mac
  s.setPeer (if an = x.an then { x with rxPn := pn, old := none } else { x with oldPn := pn })

/-- A MACsec frame from its SecTAG on: counted in the discard counter that applies, or accepted and its protected part read.
The ICV is checked before the packet number (assumption 102). -/
def readSealed (s : State) (k : Nat) (addrs rest : List Byte) : State × Option (StreamHdr × List Byte) :=
  let mac := leNat (addrs.drop 6)
  let tag := rest.take 16
  let n := rest.length - 32
  let ct := (rest.drop 16).take n
  let an := le tag 2 1 % 4
  if rest.length < 32 ∨ le tag 2 1 / 4 ≠ 0x0B ∨ le tag 3 1 ≠ shortLen n then (s.otherIn k, none)
  else if tag.drop 8 ≠ addrs.drop 6 ++ [0, 1] then (s.bump F.STM_PCNT_NOSA k, none)
  else match s.assoc mac an with
    | none => (s.bump F.STM_PCNT_NOSA k, none)
    | some (key, last) =>
      let pn := fullPn (last + 1) (ofHighFirst ((tag.drop 4).take 4))
      if key.icv pn (addrs ++ tag) ct ≠ rest.drop (16 + n) then (s.bump F.STM_PCNT_ICV k, none)
      else if pn ≤ last then (s.bump F.STM_PCNT_REPLAY k, none)
      else
        let s := s.acceptPn mac an pn
        match readStream k mac (key.cipher pn ct) with
        | some (h, d) => if h.type = 7 then (s.otherIn k, none) else (s, some (h, d))
        | none => (s.otherIn k, none)

/-- A frame as it comes in by a port: what is counted and taken note of, and the stream frame it holds, if any. A KEX frame is
the one that is not protected (R373). A frame of a wrong size or FCS is counted as no frame of the protocol, one to another
address is none of the module's (assumption 102). -/
def hear (s : State) (k : Nat) (b : List Byte) : State × Option (StreamHdr × List Byte) :=
  let n := b.length - 4
  let f := b.take n
  let addrs := f.take 12
  let rest := if (f.drop 12).take 2 = tagType then f.drop 16 else f.drop 12
  if b.length < 64 ∨ 9216 < b.length ∨ fcs f ≠ b.drop n then (s.otherIn k, none)
  else if addrs.take 6 ≠ macBytes (s.getF F.STM_PMAC_MAC k) then (s, none)
  else if rest.take 2 = secType then s.readSealed k addrs rest
  else match readStream k (leNat (addrs.drop 6)) rest with
    | some (h, d) => if h.type = 7 then (s, some (h, d)) else (s.otherIn k, none)
    | none => (s.otherIn k, none)

/-- A row's frame comes in: one that is of another row's type is not this command. -/
def frameIn (s : State) (k : Nat) (b : List Byte) (type : Nat) (act : State → StreamHdr → List Byte → State) : State :=
  if !s.linkUp k then s
  else match s.hear k b with
    | (t, some (h, d)) => if h.type ≠ type then s else if 7 < h.part ∧ type ≠ 7 then t.otherIn k else act t h d
    | (t, none) => t

/-! ## Frames sent -/

/-- `SEQ` of the next frame of a stream that the module sends, numbered by rank, step and type (R375). -/
def streamNo (type rank step : Nat) : Nat := (step * 2 ^ 17 + rank % 2 ^ 17) * 256 + type
def nextSeq (s : State) (type rank step : Nat) : Nat := mget 0 s.frameSeq (streamNo type rank step)

/-- One frame of such a stream has been sent. -/
def countSeq (s : State) (type rank step : Nat) : State :=
  { s with frameSeq := mput 0 s.frameSeq (streamNo type rank step) (s.nextSeq type rank step + 1) }

/-- The frame that a port would send to a peer under its association. -/
def frameFor (s : State) (k : Nat) (x : Peer) (h : StreamHdr) (payload : List Byte) : List Byte :=
  withFcs (protect (toPeer x.keys) x.an (x.txPn + 1) (macBytes x.mac) (macBytes (s.getF F.STM_PMAC_MAC k)) (streamBytes h payload))

/-- Sends a protected frame by a port whose link is up to a peer with an association. -/
def frameTo (s : State) (k mac type part rank step : Nat) (last : Bool) (payload : List Byte) : State :=
  let x := s.peerOf mac
  if !s.linkUp k ∨ !x.live then s
  else
    let h : StreamHdr := { port := k, mac := mac, type := type, part := part, last := last, rank := rank, step := step,
                           seq := s.nextSeq type rank step }
    ((s.countSeq type rank step).setPeer { x with txPn := x.txPn + 1 }).emit (.frame k (s.frameFor k x h payload))

/-- Most payload bytes of a KEX frame (R372, R373). -/
def kexRoom : Nat := 9216 - (12 + 2 + 32 + 4)

/-- A clear frame to an address, filled to the least size (R372). -/
def clearFrame (dst src body : List Byte) : List Byte :=
  let b := dst ++ src ++ body
  withFcs (b ++ List.replicate (60 - b.length) 0)

/-- Sends an object in KEX frames, `n` at most (R374). -/
def kexFrames (k mac : Nat) : Nat → List Byte → State → State
  | 0, _, s => s
  | n + 1, b, s =>
    let h : StreamHdr := { port := k, mac := mac, type := 7, part := 0, last := b.length ≤ kexRoom, rank := 0, step := 0,
                           seq := s.nextSeq 7 0 0 }
    let s := (s.countSeq 7 0 0).emit
      (.frame k (clearFrame (macBytes mac) (macBytes (s.getF F.STM_PMAC_MAC k)) (streamBytes h (b.take kexRoom))))
    if b.length ≤ kexRoom then s else kexFrames k mac n (b.drop kexRoom) s

/-- Sends a key-exchange object (R352, R374). -/
def kexTo (s : State) (k mac msg stream : Nat) (body : List Byte) : State :=
  kexFrames k mac (body.length + 1) ([BitVec.ofNat 8 msg, BitVec.ofNat 8 stream, 0, 0] ++ body) s

end State
end Sys2Proof.Machine
end

