-- ==== Sys2Proof/Machine/RowVals.lean ====
section
/-! DEFINITION. Row values (R146, R162 to R166, R172, R174, R293 to R298): reading and storing a row, and the update
rules. -/

namespace Sys2Proof.Machine

/-- A list cut into pieces of `n` bytes, `k` of them, as little-endian numbers. -/
def cut (b : List Byte) (n k : Nat) : List Nat := (List.range k).map fun i => leNat ((b.drop (n * i)).take n)

/-- A BF16 or FP16 code as an FP32 word. -/
def wide (f : Fmt) (c : Nat) : W32 := rne32 (f.decode c)

/-- An E4M3 code under a row scale byte, of which 0xFF stands for NaN (R143, R166). -/
def fp8Row (v c : Nat) : W32 := if v = 0xFF then qnan else rne32 ((e4m3.decode c).scale (v - 127))

/-- Row values as a lookup reads them (R174). -/
def lookupVals (fmt e : Nat) (slot : List Byte) : List W32 := match fmt with
  | 0 => (cut slot 4 e).map (BitVec.ofNat 32)
  | 2 => (cut slot 2 e).map (wide fp16)
  | 9 => (cut (slot.drop 1) 1 e).map (fp8Row ((slot.headD 0).toNat))
  | _ => (cut slot 2 e).map (wide bf16)

/-- Row values as an update reads them: a compensated element with its remainder (R164, R298). -/
def updateVals (fmt e : Nat) (slot : List Byte) : List W32 :=
  if fmt = 8 then
    let r := slot.drop (32 * ceilDiv (2 * e) 32)
    ((cut slot 2 e).zip (r.take e)).map fun x => compValue x.1 x.2
  else lookupVals fmt e slot

/-- Rounding mode of element `k` of a row: mode 00b, or the table's stochastic rounding (R162, R163). -/
def rowMode (sr : Bool) (seed step t row e k : Nat) : RMode :=
  if sr then .stoch (philox seed step (row * e + k) (0x80000000 + t)) else .sat

/-- A slot of `n` bytes: its content, then zeros (R174). -/
def padTo (n : Nat) (b : List Byte) : List Byte := b.take n ++ List.replicate (n - b.length) 0

/-- Largest magnitude among the finite values of a row. -/
def rowAmax (ws : List W32) : W32 := (ws.filter isFin).foldl (fun m w => let a := fabs w; if m.toNat < a.toNat then a else m) 0

/-- The slot an updated row is stored in, and how many elements saturated (R165, R166, R298). -/
def storeRow (d : TableDesc) (mode : Nat → RMode) (ws : List W32) : List Byte × Nat :=
  let n := d.slotBytes
  let ixs := List.range ws.length
  let el (k : Nat) : W32 := ws.getD k 0
  match d.fmt with
  | 0 => (padTo n (ws.map fun w => leBytes 4 w.toNat).flatten, 0)
  | 8 =>
    let cs := ws.map compStore
    (padTo n (padTo (32 * ceilDiv (2 * d.elems) 32) (cs.map fun c => leBytes 2 c.1).flatten ++ cs.map (·.2.1)),
      (cs.filter (·.2.2)).length)
  | 9 =>
    let a := rowAmax ws
    let s : Int := if isZero a then 0 else min (max (scaleExp (f32v a).dy (fp8Max 3)) (-127)) 127
    let cs := ixs.map fun k => e4m3.convert (mode k) ((f32v (el k)).scale (- s))
    (padTo n (BitVec.ofNat 8 (s + 127).toNat :: cs.map fun c => BitVec.ofNat 8 c.1), (cs.filter (·.2)).length)
  | f =>
    let cs := ixs.map fun k => (if f = 2 then fp16 else bf16).convert (mode k) (f32v (el k))
    (padTo n (cs.map fun c => leBytes 2 c.1).flatten, (cs.filter (·.2)).length)

/-! ## The update rules (R295 to R297) -/

/-- What an update takes once for all its elements (R295). -/
structure UpdCtx where
  hyp : HypEnt
  lr  : W32
  k1  : W32
  k2  : W32
  c1  : W32
  c2  : W32
deriving DecidableEq, Repr

/-- The Adam family keeps bias powers. -/
def usesPowers (rule : Nat) : Bool := rule = 8 || rule = 9 || rule = 0x0B

/-- Bias powers after an update. -/
def nextPowers (rule : Nat) (h : HypEnt) (p : W32 × W32) : W32 × W32 :=
  if usesPowers rule then (fmul p.1 h.b1, fmul p.2 h.b2) else p

/-- The context of an update from the update count and the bias powers before it. -/
def updCtx (rule : Nat) (h : HypEnt) (c : Nat) (p : W32 × W32) : UpdCtx :=
  let q := nextPowers rule h p
  { hyp := h,
    lr := if h.warm = 0 then h.lr else fmul h.lr (fdiv (intToF32 (min (c + 1) h.warm)) (intToF32 h.warm)),
    k1 := fsub one32 q.1, k2 := fsub one32 q.2, c1 := fsub one32 h.b1, c2 := fsub one32 h.b2 }

/-- The rules that couple weight decay into the gradient (R296). -/
def couples (rule : Nat) : Bool := 1 ≤ rule && rule ≤ 8

/-- A prepared gradient (R296); a table belongs to no clip group. -/
def prepare (rule : Nat) (x : UpdCtx) (g w : W32) : W32 :=
  let g := fmul g x.hyp.gscale
  if couples rule && !isZero x.hyp.decay then ffma x.hyp.decay w g else g

/-- The sign of one word on the magnitude of another. -/
def copySign (m s : W32) : W32 := (m &&& 0x7FFFFFFF) ||| (s &&& 0x80000000)

/-- One element by its rule: new weight, first and second state (R297). The row-wise rule takes its denominator from the
whole row. -/
def elemRule (rule : Nat) (x : UpdCtx) (g w s0 s1 : W32) : W32 × W32 × W32 :=
  let h := x.hyp
  let nlr := fneg x.lr
  match rule with
  | 1 => (ffma nlr g w, s0, s1)
  | 2 => (if isNan g then qnan else if isZero g then w else if isNeg g then fadd w x.lr else fsub w x.lr, s0, s1)
  | 3 => let m := ffma h.b1 s0 g; (ffma nlr m w, m, s1)
  | 4 => let m := ffma h.b1 s0 g; (ffma nlr (ffma h.b1 m g) w, m, s1)
  | 5 => let v := ffma g g s0; (ffma nlr (fdiv g (fadd (fsqrt v) h.eps)) w, v, s1)
  | 7 => let v := ffma h.b1 s0 (fmul x.c1 (fmul g g)); (ffma nlr (fdiv g (fadd (fsqrt v) h.eps)) w, v, s1)
  | 8 =>
    let m := ffma h.b1 s0 (fmul x.c1 g)
    let v := ffma h.b2 s1 (fmul x.c2 (fmul g g))
    let q := fdiv (fdiv m x.k1) (fadd (fsqrt (fdiv v x.k2)) h.eps)
    (ffma nlr q w, m, v)
  | 9 =>
    let m := ffma h.b1 s0 (fmul x.c1 g)
    let v := ffma h.b2 s1 (fmul x.c2 (fmul g g))
    let q := ffma h.decay w (fdiv (fdiv m x.k1) (fadd (fsqrt (fdiv v x.k2)) h.eps))
    (ffma nlr q w, m, v)
  | 10 =>
    let n1 := ffma g g s1
    let s := fdiv (fsub (fsqrt n1) (fsqrt s1)) x.lr
    let z := fadd s0 (fsub g (fmul s w))
    let w' := if !isNan z && !flt h.l1 (fabs z) then 0
      else fdiv (fsub (copySign h.l1 z) z) (fadd (fdiv (fadd h.beta (fsqrt n1)) x.lr) h.decay)
    (w', z, n1)
  | _ => (w, s0, s1)

/-- A row by its rule: new weights and new state values, in the order of R175. -/
def rowRule (rule : Nat) (x : UpdCtx) (gs ws st : List W32) : List W32 × List W32 :=
  let e := ws.length
  let g (k : Nat) : W32 := prepare rule x (gs.getD k 0) (ws.getD k 0)
  let ixs := List.range e
  if rule = 6 then
    let a := fdiv (rne32 (groupSum (ixs.map fun k => (f32v (g k)).mul (f32v (g k))))) (intToF32 e)
    let v := fadd (st.getD 0 0) a
    let den := fadd (fsqrt v) x.hyp.eps
    (ixs.map fun k => ffma (fneg x.lr) (fdiv (g k) den) (ws.getD k 0), [v])
  else
    let rs := ixs.map fun k => elemRule rule x (g k) (ws.getD k 0) (st.getD k 0) (st.getD (e + k) 0)
    (rs.map (·.1), ((rs.map (·.2.1)) ++ (rs.map (·.2.2))).take (stateVals rule * e))

/-! ## Pooling (R183 to R186) -/

/-- Elementwise sum of two vectors (R184, R188). -/
def addVec (a b : List W32) : List W32 := (a.zip b).map fun x => fadd x.1 x.2

/-- The entries in groups of 32, their terms summed exactly and rounded once, added in order to a sum from +0 (R92, R93,
R183). -/
def groupedSum (terms : List Fv) : W32 :=
  (List.range (ceilDiv terms.length 32)).foldl (fun acc i => fadd acc (rne32 (groupSum ((terms.drop (32 * i)).take 32)))) 0

/-- The larger value with the position it came from, the lower on a tie; any NaN gives the canonical NaN and the lowest
position that holds one (R183, R186). -/
def maxTag (a b : W32 × Nat) : W32 × Nat :=
  if isNan a.1 || isNan b.1 then
    (qnan, if isNan a.1 && isNan b.1 then min a.2 b.2 else if isNan a.1 then a.2 else b.2)
  else if ordKey a.1 = ordKey b.1 then (a.1, min a.2 b.2) else if ordKey a.1 < ordKey b.1 then b else a

/-- A shard partial over entries of position, weight and row values, ascending: values and, for max, tags. -/
def shardPartial (pool e : Nat) (rows : List (Nat × W32 × List W32)) : List W32 × List Nat :=
  let ixs := List.range e
  if pool = 3 then
    let r := ixs.map fun k => match rows with
      | [] => ((0 : W32), 0)
      | (p, _, vs) :: rest => rest.foldl (fun (m : W32 × Nat) (x : Nat × W32 × List W32) => maxTag m (x.2.2.getD k 0, x.1)) (let v := vs.getD k 0; (if isNan v then qnan else v, p))
    (r.map (·.1), r.map (·.2))
  else
    (ixs.map fun k => groupedSum (rows.map fun (x : Nat × W32 × List W32) =>
      if pool = 4 then (f32v x.2.1).mul (f32v (x.2.2.getD k 0)) else f32v (x.2.2.getD k 0)), [])

/-- Two nodes of a combination tree combined, the lower first (R184). -/
def joinNodes (pool : Nat) (a b : List W32 × List Nat) : List W32 × List Nat :=
  if pool = 3 then
    let r := ((a.1.zip a.2).zip (b.1.zip b.2)).map fun x => maxTag x.1 x.2
    (r.map (·.1), r.map (·.2))
  else (addVec a.1 b.1, [])

/-- The node of the aligned block of 2^`j` shards from shard `first`, from the nodes there are (R184). -/
def treeNode (pool : Nat) (have_ : Nat → Nat → Option (List W32 × List Nat)) : Nat → Nat → Option (List W32 × List Nat)
  | 0, first => have_ first 0
  | j + 1, first => match have_ first (j + 1) with
    | some v => some v
    | none => match treeNode pool have_ j first, treeNode pool have_ j (first + 2 ^ j) with
      | none, b => b
      | a, none => a
      | some a, some b => some (joinNodes pool a b)

/-- The sum of a segment by the pairwise tree of R188: one level. -/
def pairLevel : List (List W32) → List (List W32)
  | a :: b :: rest => addVec a b :: pairLevel rest
  | l => l

/-- The row gradient of a segment; `n` levels reduce any segment of up to 2^`n` entries. -/
def segmentSum : Nat → List (List W32) → List W32
  | 0, l => l.headD []
  | n + 1, l => if l.length ≤ 1 then l.headD [] else segmentSum n (pairLevel l)

end Sys2Proof.Machine
end

