-- ==== Sys2Proof/Machine/Sectors.lean ====
section
/-! DEFINITION. Cells and sectors of the memory tiers (R202 to R207, R213, R218, R223): which cell an address is, when a
master's access is let in, and what a sector in error sets off. -/

namespace Sys2Proof.Machine

/-! ## Cells (R204, R205, R213) -/

/-- Memory unit of an HBM or Umber address: stacks 0 to 7, controllers 8 to 19. -/
def unitAt (a : Nat) : Nat := if a < hbmEnd then stackOf a else 8 + umberOf a

/-- A byte of a stack, as the channel interface addresses it (R204). -/
structure HbmCell where
  stack   : Nat
  channel : Nat
  pseudo  : Nat
  row     : Nat
  sid     : Nat
  bank    : Nat
  group   : Nat
  column  : Nat
  byte    : Nat
deriving DecidableEq, Repr

/-- The cell of an HBM address (R204). -/
def hbmCell (a : Nat) : HbmCell :=
  let k := a / 0x12_0000_0000
  let o := a - k * 0x12_0000_0000
  let g := o / 256
  let p := (g ^^^ (g / 64)) % 64
  let b := g / 64
  { stack := k, channel := p / 2, pseudo := p % 2, row := b / 192, sid := b / 64 % 3, bank := b / 16 % 4,
    group := b / 4 % 4, column := b % 4, byte := o % 256 }

/-- A byte of an Umber package (R205); the row number includes the die. -/
structure UmberCell where
  ctrl    : Nat
  channel : Nat
  sub     : Nat
  row     : Nat
  column  : Nat
  bank    : Nat
  byte    : Nat
deriving DecidableEq, Repr

/-- The cell of an Umber address (R205). -/
def umberCell (a : Nat) : UmberCell :=
  let o := a - umberBase
  let g := o / 256
  let h := g / 12
  let c := h % 8
  let x := h / 8
  { ctrl := g % 12, channel := c / 2, sub := c % 2, row := x / 64, column := x / 16 % 4, bank := x % 16, byte := o % 256 }

/-- Channel of an address within its unit. -/
def channelOf (a : Nat) : Nat := if a < hbmEnd then (hbmCell a).channel else (umberCell a).channel

/-- The engine queue that a cell of a stack reaches while the extension enable is set: rows 0x7F00 to 0x7FFF of bank 0,
bank group 0, SID 0 on pseudo-channel 0 of channel `q` are the aperture of queue `q`, and not DRAM (R213). -/
def aperture (c : HbmCell) : Option Nat :=
  if 0x7F00 ≤ c.row ∧ c.row ≤ 0x7FFF ∧ c.bank = 0 ∧ c.group = 0 ∧ c.sid = 0 ∧ c.pseudo = 0 ∧ c.channel < 8 then some c.channel
  else none

end Sys2Proof.Machine

/-! ## The verdict on a sector (R206) -/

namespace Sys2Proof.SectorErr

/-- What each of the 36 stored bytes is off by. -/
def word (e : SectorErr) : List Byte :=
  (List.range 36).map fun i => (e.flips.filter fun f => f.1 = i).foldl (fun b f => b ^^^ f.2) 0

/-- What the decoder makes of it. -/
def verdict (e : SectorErr) : Machine.Decoded := Machine.decode e.word

/-- More bytes are off than the code can set right. -/
def lost (e : SectorErr) : Bool := e.verdict = .uncorrectable

/-- What is off after the correction, which is written back: nothing if one byte was off (R206). -/
def left (e : SectorErr) : List Byte := match e.verdict with
  | .corrected i v => e.word.zipIdx.map fun b => if b.2 = i then b.1 ^^^ v else b.1
  | _ => e.word

end Sys2Proof.SectorErr

namespace Sys2Proof.Machine
namespace State

/-! ## Slots (R218)

When in a beat a slot comes is timing; that an access waits for a slot of its owner decides whether it is made at all. -/

/-- Slot `m` of a wheel in force belongs to this owner; 0x8 to 0xE are as 0xF. -/
def slotOwner (active : List (Nat × Word)) (m : Nat) : Nat :=
  let v := getBits (mget 0 active (m / 16)) (4 * (m % 16) + 3) (4 * (m % 16))
  if 8 ≤ v then 15 else v

/-- Slots of 256 an owner holds. -/
def slotsOf (active : List (Nat × Word)) (o : Nat) : Nat := ((List.range 256).filter fun m => slotOwner active m = o).length

/-- A unit starts accesses for the masters of a partition: some slot of its wheel is theirs. -/
def hasSlot (s : State) (u p : Nat) : Bool := (List.range 256).any fun m => slotOwner (s.unit u).active m = p

/-- Units that the bytes from an address on lie in, by 256-byte block; a run of twelve blocks of the Umber tier meets
every controller. -/
def unitsOf (a n : Nat) : List Nat :=
  if n = 0 then []
  else if a < hbmEnd then (List.range 8).filter fun k => stackOf a ≤ k ∧ k ≤ stackOf (a + n - 1)
  else if umberBase ≤ a ∧ a < umberEnd then (List.range (min 12 (ceilDiv (a % 256 + n) 256))).map fun i => unitAt (a + 256 * i)
  else []

/-- An access of a partition's master is let in by every unit it meets. -/
def slotted (s : State) (p a n : Nat) : Bool := (unitsOf a n).all fun u => s.hasSlot u p

/-! ## Committed state (R207, R343) -/

/-- First address and bytes of everything a rank's committed state before step `n` holds beside its pages, as its mirror has
it: dense regions, records and carried lookups (R274, R302, R343). -/
def recordRanges (s : State) (p r n : Nat) (pl : Plan) : List (Nat × Nat) :=
  let q := n % 2
  ((paramTensors pl).map fun t => match pl.params.tensors[t]? with
    | some e =>
      [(region p (.master r t (regionIn pl e n)), 4 * shardElems e pl.rankCount),
       (region p (.dstate r t (regionIn pl e n)), dstateBytes pl e)]
    | none => []).flatten ++
  ((List.range pl.tables.length).map fun t => match pl.tables[t]? with
    | some d =>
      (region p (.pageMap t r), 16 * (s.allPages p t d r).length) ::
        (if d.stale then [(region p (.work 2 t (65536 * q) r), carriedBytes [d] pl.classes)] else [])
    | none => []).flatten ++
  [(region p (.scales r), 80 * (historyTensors pl).length), (region p (.counts r), 16 * ((paramTensors pl).length + pl.tables.length)),
   (region p (.epochs r), 4 * pl.tables.length), (region p (.watchComp r), 8 + 72 * (s.watchesOf p r).length),
   (region p (.manifest r), 128)]

/-- Pages and default rows of a rank. -/
def rowRanges (s : State) (p r : Nat) (pl : Plan) : List (Nat × Nat) :=
  ((List.range pl.tables.length).map fun t => match pl.tables[t]? with
    | some d =>
      (s.allPages p t d r).map (fun x => (x.base, d.pageBytes)) ++
        (if s.shardOwner p t d 0 = r then [((s.rowAt p t d r defaultKey).slot, d.defaultBytes)] else [])
    | none => []).flatten

/-- An address holds committed state of the step in flight, on a rank hosted here. -/
def committedAt (s : State) (p a : Nat) : Bool :=
  match s.plan p with
  | none => false
  | some pl => (s.ranksHere p).any fun r =>
      (s.recordRanges p r (s.curStep p) pl ++ s.rowRanges p r pl).any fun x => x.1 ≤ a && a < x.1 + x.2

/-- The rank hosted here whose committed state holds an address. -/
def rankHolding (s : State) (p a : Nat) (pl : Plan) : Nat :=
  ((s.ranksHere p).find? fun r =>
    (s.recordRanges p r (s.curStep p) pl ++ s.rowRanges p r pl).any fun x => x.1 ≤ a && a < x.1 + x.2).getD (s.homeRank p)

/-! ## Sectors in error (R202, R206, R207) -/

/-- The stored bytes of the sector at `a` become off by `err`: in the HBM range so do its data; in the Umber range what the
key makes of the stored bytes is read. -/
def spoil (s : State) (a : Nat) (err : List Byte) : State :=
  let b := a / 32 * 32
  let d := s.rd b 32
  if err.all (· = 0) then s
  else if a < umberBase then s.wr b (List.zipWith (· ^^^ ·) d err)
  else
    let k := s.umberKey (s.ownerAt a)
    s.wr b (xtsDec k (dataUnit b) (List.zipWith (· ^^^ ·) (xtsEnc k (dataUnit b) d) err))

/-- A second uncorrectable sector in a 256-byte block within 1,024 steps. -/
def metBefore (s : State) (a step : Nat) : Bool :=
  (s.unit (unitAt a)).poisoned.any fun x => x.addr / 256 = a / 256 && step < x.step + 1024

/-- A sector is marked poisoned: it has been found uncorrectable and neither rewritten nor written back since. -/
def isPoisoned (s : State) (a : Nat) : Bool :=
  (s.unit (unitAt a)).poisoned.any fun x => x.addr = a / 32 * 32 && !x.mended && s.rd x.addr 32 = x.bad

/-- One sector in error: an error of one byte is corrected and counted; more are uncorrectable, logged, and the sector is
poisoned. On-die corrections are counted. An error that the code cannot see stays. -/
def sectorError (s : State) (p : Nat) (e : SectorErr) : State :=
  let u := unitAt e.addr
  if whereIs e.addr = .none then s
  else
    let s := (List.range e.onDie).foldl (fun s _ => s.bumpU F.MEM_ECC_ODE F.UMB_ECC_ODE u) s
    match e.verdict with
    | .clean => s.spoil e.addr e.left
    | .corrected _ _ => (s.bumpU F.MEM_ECC_CE F.UMB_ECC_CE u).spoil e.addr e.left
    | .uncorrectable =>
      let s := s.bumpU F.MEM_ECC_UE F.UMB_ECC_UE u
      let s := if s.getU F.MEM_ECC_ADDR_VALID F.UMB_ECC_ADDR_VALID u = 1 then s
        else (s.putU F.MEM_ECC_ADDR_VALID F.UMB_ECC_ADDR_VALID u 1).putU F.MEM_ECC_ADDR_ADDR F.UMB_ECC_ADDR_ADDR u e.addr
      let b := e.addr / 32 * 32
      let t := s.spoil e.addr e.left
      t.modUnit u fun x => { x with poisoned := x.poisoned ++
        [{ addr := b, part := p, step := s.curStep p, held := s.rd b 32, bad := t.rd b 32, mended := false }] }

/-- What an uncorrectable sector of committed state means: in resilient mode it will be read from the mirror, in plain mode
it is lost. -/
def losesState (s : State) (p : Nat) (e : SectorErr) : Bool := e.lost && s.committedAt p e.addr && !s.resilient p

/-- Sectors a read of partition `p` met in error. With `fault`, an uncorrectable one is a module fault of cause
memory-uncorrectable; committed state of a plain job is then lost, and the plan stops. -/
def sectorErrors (s : State) (p task : Nat) (fault : Bool) (es : List SectorErr) : State :=
  es.foldl (fun s e =>
    let again := e.lost && s.metBefore e.addr (s.curStep p)
    let lost := s.losesState p e
    let s := s.sectorError p e
    let s := if !fault || !e.lost then s
      else
        let s := if lost then s.putU F.MEM_STAT_LOST F.UMB_STAT_LOST (unitAt e.addr) 1 else s
        s.moduleFault p 2 task lost
    if again then s.unitFails (unitAt e.addr) else s) s

/-- Some sector of a list is uncorrectable. -/
def anyUncorrectable (es : List SectorErr) : Bool := es.any (·.lost)

/-- A poisoned sector that still reads as the error left it is written back from the mirror of its rank, whose committed
value it is (assumption 98): the read goes to the host of the rank's partner. -/
def mendSector (s : State) (p : Nat) (pl : Plan) (x : Poison) : State :=
  let r := s.rankHolding p x.addr pl
  let s := s.emit (.mirrorRead (s.hostOf p (s.partnerOf p r)) p r x.addr)
  let s := if s.rd x.addr 32 = x.bad then s.wr x.addr x.held else s
  s.modUnit (unitAt x.addr) fun u => { u with poisoned := u.poisoned.map fun y =>
    if y = x then { y with mended := true } else y }

/-- Before a re-run in resilient mode, committed sectors found uncorrectable are repaired; regions that the step rebuilds
are left to the re-run (R207). -/
def mendSectors (s : State) (p : Nat) : State :=
  match s.plan p with
  | none => s
  | some pl =>
    if !s.resilient p then s
    else ((List.range 20).flatMap fun u => (s.unit u).poisoned).foldl (fun s x =>
      if x.part = p ∧ ¬ x.mended ∧ s.committedAt p x.addr then s.mendSector p pl x else s) s

end State
end Sys2Proof.Machine
end

