-- ==== Sys2Proof/Machine/Rows.lean ====
section
/-! DEFINITION. Embedding lookups and gradients (R179 to R190, R195 to R197, R306, R310): the Index Units, gathering and
pooling, the combination tree, entry gradients and segment sums, prefetch, and the start of the sparse update. -/

namespace Sys2Proof.Machine

/-- Row key of an index (R179). -/
def keyOf (d : TableDesc) (v : Nat) : Nat := if v < d.rows then v else defaultKey

/-- Sorted keys, each once (R180). -/
def uniqKeys (ks : List Nat) : List Nat :=
  (ks.mergeSort (· ≤ ·)).foldr (fun k l => if l.head? = some k then l else k :: l) []

/-- Entry gradients in the order of R188: row key, requester, micro-batch, list position. -/
def gradBefore (a b : EntryGrad) : Bool :=
  a.key < b.key || (a.key = b.key && (a.rank < b.rank || (a.rank = b.rank &&
    (a.mb < b.mb || (a.mb = b.mb && a.pos ≤ b.pos)))))

namespace State

/-! ## Tasks of the plan -/

/-- A task of the schedule runs here: a GRAPH task, or the copy for a second rank this module hosts (R283). -/
def taskHere (s : State) (p t : Nat) : Bool := t < (s.part p).graph || 2 ≤ (s.ranksHere p).length

/-- Ids of the tasks that run here and meet a test. -/
def tasksWhere (s : State) (p : Nat) (f : Task → Bool) : List Nat :=
  match (s.part p).plan with
  | some pl => (pl.tasks.filter fun t => f t && s.taskHere p t.id).map (·.id)
  | none => []

/-- Marks tasks started. -/
def markStarted (s : State) (p : Nat) (ts : List Nat) : State :=
  s.modPart p fun x => { x with started := x.started ++ ts.filter fun t => !x.started.contains t }

/-! ## The Index Unit (R180, R181) -/

def sortOf (s : State) (p t r tag : Nat) : Option SortOut := (s.tableSt p t r).sorted.find? (·.mb = tag)

/-- The step whose list of a micro-batch is sorted next: the step in flight if its list is there and not sorted, else the
next step. -/
def sortStep (s : State) (p t r mb : Nat) : Nat :=
  let n := s.curStep p
  if ((s.tableSt p t r).lists.map (·.1)).contains (mbTag n mb) ∧ (s.sortOf p t r (mbTag n mb)).isNone then n else n + 1

/-- Region code of a micro-batch's outputs, by step parity. -/
def mbSlot (tag : Nat) : Nat := tag % 131072

/-- Sorts and deduplicates one list. -/
def sortList (s : State) (p t r mb : Nat) : State :=
  match s.tableDesc p t with
  | none => s
  | some d =>
    let tag := mbTag (s.sortStep p t r mb) mb
    let ks := (s.listOf p t r tag).map fun e => keyOf d e.index
    let u := uniqKeys ks
    let o : SortOut := { mb := tag, uniq := u, segmap := ks.map fun k => u.idxOf k, defs := (ks.filter (· = defaultKey)).length }
    let s := s.modTableSt p t r fun x => { x with sorted := (x.sorted.filter (·.mb ≠ tag)) ++ [o] }
    let s := s.wr (region p (.work 0 t (mbSlot tag) r)) (u.map (leBytes 8)).flatten
    s.wr (region p (.work 1 t (mbSlot tag) r)) (o.segmap.map (leBytes 4)).flatten

/-! ## Replacement pages (R198, R199) -/

/-- Pages of a rank's replacement of a table, by the rule of a plan load. -/
def replPages (s : State) (p : Nat) (v : Repl) (d : TableDesc) (r : Nat) : List PageRec :=
  let own := s.ownedShards p v.table d r
  (own.zipIdx.map fun sh => (List.range d.shardPages).map fun pg =>
    let home := if sh.2 * d.shardPages + pg < d.hbmPages then (sh.1 + pg) % 8 else 8
    ({ shard := sh.1, page := pg, home := home, count := 0, base := inHome home (region p (.replPage v.table sh.1 pg v.epoch)) } : PageRec)).flatten

/-- The replacement whose epoch a lookup or prefetch of step `n` uses while the step before still runs (R198). -/
def replFor (s : State) (p t n : Nat) : Option Repl :=
  if s.curStep p < n then (s.part p).repls.find? fun v => v.table = t && v.due && v.step = n else none

/-- Where a row of step `n` lies: in the replacement's pages where its epoch is that of the step. -/
def rowFor (s : State) (p t : Nat) (d : TableDesc) (r key n : Nat) : RowAt :=
  match s.replFor p t n with
  | none => s.rowAt p t d r key
  | some v =>
    match (s.replPages p v d r).find? fun x => x.shard = d.shardOf key && x.page = d.localOf key / 256 with
    | some x =>
      if key = defaultKey then s.rowAt p t d r key
      else { home := x.home, slot := x.base + d.localOf key % 256 * d.slotBytes, state := x.base + 256 * d.slotBytes }
    | none => s.rowAt p t d r key

/-! ## Fetching rows (R182, R195, R197, R310) -/

/-- Saved slot bytes of a row that the step in flight has already updated. -/
def journaled (s : State) (p home slot step : Nat) : Option (List Byte) :=
  ((s.och (min home 8) p).journal.find? fun j => j.slot = slot && j.step = step % 2 ^ 32).map (·.slotBytes)

/-- Slot bytes of a row as it was committed before the step in flight: its home's, or those its journal saved (R16, R197). -/
def committedSlot (s : State) (p t : Nat) (d : TableDesc) (r key n : Nat) : List Byte :=
  let x := s.rowFor p t d r key n
  match if s.curStep p < n then s.journaled p x.home x.slot (s.curStep p) else none with
  | some b => b
  | none => s.rd x.slot d.slotBytes

/-- Slot bytes of a row as a lookup of step `n` reads it: a staged copy, or the home row; a lookup of the next step reads a
journaled row's saved slot. -/
def fetchRow (s : State) (p t : Nat) (d : TableDesc) (r key n : Nat) : List Byte :=
  if key = defaultKey ∧ ¬ d.defTrain then List.replicate d.slotBytes 0
  else match (s.tableSt p t r).staged.find? (·.1 = key) with
    | some (_, a) => s.rd a d.slotBytes
    | none => s.committedSlot p t d r key n

/-! ## Owner: gather and pool (R182, R183) -/

def fromRank (s : State) (p t r rank tag : Nat) : FromRank :=
  ((s.tableSt p t r).recv.find? fun x => x.rank = rank && x.mb = tag).getD
    { rank := rank, mb := tag, keys := [], entries := [], grads := [], winners := [], gathered := false }

def setFromRank (s : State) (p t r : Nat) (x : FromRank) : State :=
  s.modTableSt p t r fun q => { q with recv := (q.recv.filter fun y => !(y.rank = x.rank && y.mb = x.mb)) ++ [x] }

/-- Entries of a bag by shard, ascending position: row key and entry. -/
def bagEntries (x : FromRank) (bag : Nat) : List (Nat × BagEntry) :=
  ((x.entries.filter (·.bag = bag)).mergeSort fun a b => a.pos ≤ b.pos).map fun e => (x.keys.getD e.seg defaultKey, e)

/-- The largest aligned blocks among a rank's shards (R178, R183): first shard and exponent. -/
def ownBlocks (d : TableDesc) (own : List Nat) : List (Nat × Nat) :=
  let whole (first j : Nat) : Bool := (List.range (2 ^ j)).all fun i => own.contains (first + i)
  let blocks := ((List.range (d.shb + 1)).map fun j => ((List.range (2 ^ (d.shb - j))).map fun c => (c * 2 ^ j, j))).flatten
  (blocks.filter fun b => whole b.1 b.2 &&
    (b.2 = d.shb || !whole (b.1 / 2 ^ (b.2 + 1) * 2 ^ (b.2 + 1)) (b.2 + 1))).mergeSort fun a b => a.1 ≤ b.1

/-- The nodes an owner returns for one bag. -/
def bagNodes (s : State) (p t : Nat) (d : TableDesc) (r tag : Nat) (x : FromRank) (bag : Nat) : List TreeNode :=
  let own := s.ownedShards p t d r
  let es := bagEntries x bag
  let val (k : Nat) : List W32 := lookupVals d.fmt d.elems (s.fetchRow p t d r k (tag / 65536))
  let leaf (sh : Nat) : Option (List W32 × List Nat) :=
    match es.filter fun e => d.shardOf e.1 = sh with
    | [] => none
    | l => if d.pool = 0 then some (val (l.headD (defaultKey, ⟨0, 0, 0, 0⟩)).1, [])
      else some (shardPartial d.pool d.elems (l.map fun e => (e.2.pos, e.2.weight, val e.1)))
  (ownBlocks d own).filterMap fun b =>
    (treeNode d.pool (fun f j => if j = 0 then leaf f else none) b.2 b.1).map fun v =>
      { mb := tag, bag := bag, first := b.1, j := b.2, vals := v.1, tags := v.2 }

/-- The owner's work for one requester and micro-batch: every unique row it owns is fetched once, and the nodes of every
bag are formed. -/
def ownerGather (s : State) (p t r rank mb : Nat) : State :=
  match s.tableDesc p t with
  | none => s
  | some d =>
    let n := s.curStep p
    let next := mbTag (n + 1) mb
    let tag := if d.stale && (s.tableSt p t r).recv.any (fun x => x.rank = rank && x.mb = next) then next else mbTag n mb
    let x := s.fromRank p t r rank tag
    let own := s.ownedShards p t d r
    let ks := x.keys.filter fun k => own.contains (d.shardOf k)
    -- a lookup that reads a row waits for its re-stage (R16)
    if ks.any (fun k => (s.tableSt p t r).restaging.contains k) then s else
    let ns := ((uniqKeys (x.entries.map (·.bag))).map fun b => s.bagNodes p t d r tag x b).flatten
    let s := if (s.replFor p t (tag / 65536)).isSome then s
      else ks.foldl (fun s k => s.countLoad p t d r k (gatherSectors d)) s
    let s := s.setFromRank p t r { x with gathered := true }
    s.modTableSt p t r fun q => { q with
      made := (q.made.filter fun m => !(m.1 = rank && m.2.mb = tag)) ++ ns.map fun v => (rank, v) }

/-! ## Requester: the combination tree (R184 to R186) -/

/-- Bags of a micro-batch: its samples, or its list positions in a table without pooling. -/
def bagCount (s : State) (p t : Nat) (d : TableDesc) (r tag : Nat) : Nat :=
  if d.pool = 0 then (s.listOf p t r tag).length
  else match (s.part p).ends.find? fun e => e.rank = r && mbTag e.step e.mb = tag with
    | some e => if e.status = some 0 then e.nsample else 0
    | none => match (s.part p).plan with
      | some pl => match pl.classes with
        | some c => c.mbSize
        | none => ((s.listOf p t r tag).map fun e => e.bag + 1).foldl max 0
      | none => 0

/-- Entries of a requester's bag: bag-relative position, row key and weight. -/
def ownBag (s : State) (p t : Nat) (d : TableDesc) (r tag bag : Nat) : List (Nat × Nat × W32) :=
  if d.pool = 0 then (((s.listOf p t r tag)[bag]?).map fun e => (0, keyOf d e.index, e.weight)).toList
  else (((s.listOf p t r tag).filter (·.bag = bag)).zipIdx).map fun e => (e.2, keyOf d e.1.index, e.1.weight)

/-- The pooled vector of a bag from its root (R185, R186): values as stored, saturations, flag byte and winners. -/
def pooledOf (d : TableDesc) (tag bag count n : Nat) (root : Option (List W32 × List Nat)) : Pooled × Nat :=
  let (vs, ws) := match root with
    | some v => v
    | none => (List.replicate d.elems 0, List.replicate d.elems 0xFFFF)
  let vs := if d.pool = 2 ∧ root.isSome then vs.map fun v => fdiv v (intToF32 count) else vs
  let cs := vs.map fun v => bf16.convert .sat (f32v v)
  ({ mb := tag, bag := bag, vals := if d.outBf16 then cs.map fun c => BitVec.ofNat 32 c.1 else vs,
     flag := if count = 0 then 1 else 0, winner := if d.pool = 3 then ws else [], got := n },
   if d.outBf16 then (cs.filter (·.2)).length else 0)

/-- Every bag of a micro-batch whose tree is whole becomes a pooled vector. -/
def completeBags (s : State) (p t r tag : Nat) : State :=
  match s.tableDesc p t with
  | none => s
  | some d => (List.range (s.bagCount p t d r tag)).foldl (fun s b =>
      let x := s.tableSt p t r
      let es := s.ownBag p t d r tag b
      let ns := x.nodes.filter fun v => v.mb = tag && v.bag = b
      let whole : Bool := es.all fun e => ns.any fun v => v.first ≤ d.shardOf e.2.1 && d.shardOf e.2.1 < v.first + 2 ^ v.j
      if !whole || x.pooled.any (fun v => v.mb = tag && v.bag = b) then s
      else
        let root := treeNode d.pool (fun f j => (ns.find? fun v => v.first = f && v.j = j).map fun v => (v.vals, v.tags)) d.shb 0
        let (v, sat) := pooledOf d tag b es.length (s.curStep p) root
        let s := s.modTableSt p t r fun q => { q with
          pooled := q.pooled ++ [v], nodes := q.nodes.filter fun m => !(m.mb = tag && m.bag = b) }
        let s := s.modPart p fun q => { q with poolSats := addCount q.poolSats (tableKey t r) sat }
        s.wr (s.pooledAt p t d r tag b)
          ((v.vals.map fun w => leBytes (outBytes d) w.toNat).flatten ++ (v.winner.map (leBytes 2)).flatten)) s

/-- A micro-batch whose every bag of a table is empty gets no partial: its vectors are there with its lookups (R185). -/
def emptyBags (s : State) (p t r mb : Nat) : State :=
  let n := s.curStep p
  let tags := if (s.tableDesc p t).any (·.stale) then [mbTag (n + 1) mb, mbTag n mb] else [mbTag n mb]
  match tags.find? fun g => (s.sortOf p t r g).isSome && s.listOf p t r g = [] with
  | some g => s.completeBags p t r g
  | none => s

/-! ## Owner: entry gradients (R187) -/

/-- The gradient an entry of a bag takes. -/
def entryGrad (d : TableDesc) (e : BagEntry) (g : List W32) (win : List Nat) : List W32 := match d.pool with
  | 2 => g.map fun v => fdiv v (intToF32 e.weight.toNat)
  | 3 => g.zipIdx.map fun v => if win.getD v.2 0xFFFF = e.pos then v.1 else 0
  | 4 => g.map fun v => fmul e.weight v
  | _ => g

/-- The entry gradients of one requester's micro-batch, from what has come of it. -/
def formEntries (s : State) (p t r rank tag : Nat) : State :=
  match s.tableDesc p t with
  | none => s
  | some d =>
    let x := s.fromRank p t r rank tag
    let own := s.ownedShards p t d r
    let es := x.entries.filterMap fun e =>
      let key := x.keys.getD e.seg defaultKey
      let win := (x.winners.find? (·.bag = e.bag)).map (·.pos)
      match x.grads.find? (·.bag = e.bag) with
      | none => none
      | some g =>
        if !own.contains (d.shardOf key) ∨ (key = defaultKey ∧ ¬ d.defTrain) ∨ (d.pool = 3 ∧ win.isNone) then none
        else some { key := key, rank := rank, mb := tag, pos := e.bag * 65536 + e.pos, vals := entryGrad d e g.vals (win.getD []) }
    s.modTableSt p t r fun q => { q with reduced := false, entries := (q.entries.filter fun y => !(y.rank = rank && y.mb = tag)) ++ es }

/-! ## What a ROW message brings (R247) -/

def takeKeys (s : State) (p t r rank tag : Nat) (ks : List Nat) : State :=
  let x := s.fromRank p t r rank tag
  s.setFromRank p t r { x with keys := x.keys ++ ks }

def takeEntries (s : State) (p t r rank tag : Nat) (es : List BagEntry) : State :=
  let x := s.fromRank p t r rank tag
  s.setFromRank p t r { x with entries := x.entries ++ es }

def takePartials (s : State) (p t r tag : Nat) (rs : List PartialRec) : State :=
  (s.modTableSt p t r fun q => { q with
    nodes := q.nodes ++ rs.map fun v => { mb := tag, bag := v.bag, first := v.first, j := v.j, vals := v.vals, tags := v.tags } }).completeBags
      p t r tag

def takeGrads (s : State) (p t r rank tag : Nat) (gs : List GradRec) : State :=
  let x := s.fromRank p t r rank tag
  (s.setFromRank p t r { x with grads := x.grads ++ gs }).formEntries p t r rank tag

def takeWinners (s : State) (p t r rank tag : Nat) (ws : List WinRec) : State :=
  let x := s.fromRank p t r rank tag
  (s.setFromRank p t r { x with winners := x.winners ++ ws }).formEntries p t r rank tag

/-! ## Segment reduction (R188, R189) -/

/-- The segments of a rank's entry gradients of the step, ascending by row key. -/
def segments (s : State) (p t r : Nat) : List (Nat × List (List W32)) :=
  let es := ((s.tableSt p t r).entries.filter fun e => e.mb / 65536 = s.curStep p).mergeSort gradBefore
  (uniqKeys (es.map (·.key))).map fun k => (k, (es.filter (·.key = k)).map (·.vals))

/-- The longer of two segments, on a tie the lower (table, row key). -/
def hotter (a : Option (Nat × Nat × Nat)) (b : Nat × Nat × Nat) : Option (Nat × Nat × Nat) := match a with
  | none => some b
  | some c => if c.1 < b.1 ∨ (c.1 = b.1 ∧ (b.2.1 < c.2.1 ∨ (b.2.1 = c.2.1 ∧ b.2.2 < c.2.2))) then some b else some c

/-- Sums the segments of a table on one rank and counts the hot ones. -/
def reduceTable (s : State) (p t r : Nat) : State :=
  let gs := s.segments p t r
  let th := 2 ^ s.getF F.ROW_HOT_ROW_THRESH_LOG2 p
  let s := s.modTableSt p t r fun q => { q with reduced := true, rowGrads := gs.map fun g => (g.1, segmentSum 40 g.2) }
  s.modPart p fun x => { x with
    hotAbove := x.hotAbove + (gs.filter fun g => th ≤ g.2.length).length,
    hotBest := gs.foldl (fun b g => hotter b (g.2.length, t, g.1)) x.hotBest }

/-! ## Prefetch (R195) -/

/-- Rows of a table a stack's staging area holds. -/
def stageRows (pl : Plan) (t : Nat) : Nat := let (u, q) := pl.budgetOf t; ceilDiv (ceilDiv (q * u) 256) 8

/-- Device address of a table's first staging slot on a stack. -/
def stageBase (p : Nat) (pl : Plan) (t k : Nat) : Nat :=
  inHome k (region p (.staging k)) + ((List.range t).map fun i => match pl.tables[i]? with
    | some d => stageRows pl i * d.slotBytes
    | none => 0).foldl (· + ·) 0

/-- The Umber rows of an owner's union for the next step, ascending (shard, row). -/
def stageKeys (s : State) (p t : Nat) (d : TableDesc) (r : Nat) : List Nat :=
  let n := s.curStep p + 1
  let ks := uniqKeys (((s.tableSt p t r).recv.filter fun x => x.mb / 65536 = n).map (·.keys)).flatten
  let own := s.ownedShards p t d r
  (ks.filter fun k => k ≠ defaultKey && own.contains (d.shardOf k) && (s.rowFor p t d r k n).home = 8).mergeSort
    fun a b => d.shardOf a < d.shardOf b || (d.shardOf a = d.shardOf b && a ≤ b)

/-- Copies the Umber rows of an owner's union into staging, until each area is full. -/
def stageTable (s : State) (p t r : Nat) : State :=
  match (s.part p).plan, s.tableDesc p t with
  | some pl, some d =>
    let place := (s.stageKeys p t d r).foldl (fun (a : List (Nat × Nat) × List Nat) k =>
      let st := (d.shardOf k + d.localOf k / 256) % 8
      let i := a.2.getD st 0
      if i < stageRows pl t then (a.1 ++ [(k, stageBase p pl t st + i * d.slotBytes)], a.2.set st (i + 1)) else a)
      ([], List.replicate 8 0)
    let s := place.1.foldl (fun s x => s.wr x.2 (s.committedSlot p t d r x.1 (s.curStep p + 1))) s
    s.modTableSt p t r fun q => { q with staged := place.1 }
  | _, _ => s

/-! ## Sparse update (R306) -/

/-- A queue takes a frame: none when full, and none when frozen, which is a module fault (R213, R488). -/
def sendFrame (s : State) (e : Nat) (f : Frame) : State :=
  let o := s.och e f.part
  if o.frozen then s.moduleFault f.part 9 (f.tag % 2 ^ 24) false
  else if 256 ≤ o.frames.length then s
  else s.setOch e f.part { o with frames := o.frames ++ [f] }

/-- Staged copies of rows that the step updated are staged anew from the committed values after its commit beat: `COPY`
commands of OCH-U, under the Planner's own task (R16, R32). A replacement's rows were not updated (R199). -/
def restage (s : State) (p t r : Nat) : State :=
  match s.tableDesc p t with
  | none => s
  | some d =>
    if (s.replFor p t (s.curStep p + 1)).isSome then s
    else
      let hit := (s.tableSt p t r).staged.filter fun x => (s.tableSt p t r).rowGrads.any (·.1 = x.1)
      let s := hit.foldl (fun s x => s.sendFrame 8
        { opc := 5, part := p, table := t, tag := plannerTask, opa := (s.rowAt p t d r x.1).slot, opb := x.2,
          count := d.slotBytes / 32, token := 2 ^ 63 + plannerTask, step := s.curStep p, rsvdZero := true }) s
      s.modTableSt p t r fun q => { q with restaging := hit.map (·.1) }

/-- Every gradient of the step has come to an owner for the entries it was sent, and is summed (R18). -/
def gradsWhole (s : State) (p t : Nat) (d : TableDesc) (r : Nat) : Bool :=
  let q := s.tableSt p t r
  let own := s.ownedShards p t d r
  let here (x : FromRank) (e : BagEntry) : Bool :=
    let k := x.keys.getD e.seg defaultKey
    own.contains (d.shardOf k) && (k ≠ defaultKey || d.defTrain)
  (q.reduced || q.entries.all fun e => e.mb / 65536 ≠ s.curStep p) &&
  (q.recv.filter (·.mb / 65536 = s.curStep p)).all fun x => (x.entries.filter (here x)).all fun e =>
    x.grads.any (·.bag = e.bag) && (d.pool ≠ 3 || x.winners.any (·.bag = e.bag))

/-- The UPDATE command for the rows of one table homed on one engine, with its list and gradients in memory. -/
def issueUpdate (s : State) (p t : Nat) (d : TableDesc) (r task e : Nat) : State :=
  let rows := ((s.tableSt p t r).rowGrads.map fun g => (s.rowAt p t d r g.1, g.2)).filter fun x => min x.1.home 8 = e
  if rows = [] then s
  else
    let a := region p (.work 6 t e r)
    let b := region p (.work 4 t e r)
    let s := s.wr a (rows.map fun x => leBytes 6 x.1.slot ++ leBytes 2 0 ++ leBytes 6 x.1.state ++ leBytes 2 0).flatten
    let s := s.wr b (rows.map fun x => (x.2.map fun w => leBytes 4 w.toNat).flatten).flatten
    s.sendFrame e { opc := 4, part := p, table := t, tag := task, opa := a, opb := b, count := rows.length,
                    token := 2 ^ 63 + task, step := s.curStep p, rsvdZero := true }

/-- A sparse-update task of one table: UPDATE commands to the engines of its rows, once every gradient is there and summed
(R18); with nothing to update it is done. -/
def updateTable (s : State) (p t task : Nat) : State :=
  match s.tableDesc p t with
  | none => s
  | some d =>
    let r := s.rankOfTask p task
    if d.rule = 0 then s.taskDone p task
    else if !s.gradsWhole p t d r then s
    else
      let s := s.markStarted p [task]
      if (s.tableSt p t r).rowGrads = [] then s.taskDone p task
      else (List.range 9).foldl (fun s e => s.issueUpdate p t d r task e) s

end State

/-- An Index Unit sorts and deduplicates a table's list of a micro-batch for every rank hosted here (R180). -/
def execIndexSort (p table mb : Nat) (s : State) : Res :=
  let ts := s.tasksWhere p fun t => t.kind = 4 && t.table = table && (t.mb = mb || t.mb = 0xFFFF)
  .next (((s.ranksHere p).foldl (fun s r => s.sortList p table r mb) s).markStarted p ts)

/-- The owner's Index Unit sums the segments of a table's entry gradients (R188). -/
def execSegmentReduction (p table : Nat) (s : State) : Res :=
  let ts := s.tasksWhere p fun t => t.kind = 5 && t.table = table
  .next (((s.ranksHere p).foldl (fun s r => s.reduceTable p table r) s).markStarted p ts)

/-- An Index Unit finishes the oldest work it has begun, which produces its arrival token. -/
def execIndexUnitComplete (p unit : Nat) (s : State) : Res :=
  .next (match (s.part p).plan with
    | none => s
    | some pl =>
      let x := s.part p
      match x.started.find? fun t => !x.done.contains t && pl.tasks.any fun k =>
          k.id = t && (k.kind = 4 || k.kind = 5) && pl.ixUnit k.table = unit with
      | some t => s.taskDone p t
      | none => s)

/-- The owner's engines fetch each unique row of one requester's micro-batch once and form the nodes of every bag (R182,
R183); the task is done when every requester's is. An uncorrectable sector is treated by R207. -/
def execGatherAndPool (p table mb rank : Nat) (errs : List SectorErr) (s : State) : Res :=
  let ts := s.tasksWhere p fun t => t.kind = 6 && t.table = table && (t.mb = mb || t.mb = 0xFFFF)
  .next (if !(s.part p).active then s
    else
      let s := (s.ranksHere p).foldl (fun s r => (s.ownerGather p table r rank mb).emptyBags p table r mb) s
      let s := s.markStarted p ts
      let left : Bool := (s.ranksHere p).any fun r => (s.tableSt p table r).recv.any fun x =>
        x.mb % 65536 = mb && !x.gathered && (x.mb / 65536 = s.curStep p || (s.tableDesc p table).any (·.stale))
      let s := if left then s else ts.foldl (fun s t => s.taskDone p t) s
      s.sectorErrors p (ts.headD State.noTask) true errs)

/-- OCH-U copies the Umber rows of the next step into staging (R195). -/
def execPrefetch (p table : Nat) (s : State) : Res :=
  let ts := s.tasksWhere p fun t => t.kind = 0x0C && t.table = table
  .next (ts.foldl (fun s t => s.taskDone p t) ((s.ranksHere p).foldl (fun s r => s.stageTable p table r) s))

/-- Each owner issues the UPDATE commands of a table to the engines that home its touched rows (R306). -/
def execSparseUpdate (p table : Nat) (s : State) : Res :=
  let ts := s.tasksWhere p fun t => t.kind = 7 && t.table = table
  .next (if (s.part p).active then ts.foldl (fun s t => s.updateTable p table t) s else s)

end Sys2Proof.Machine
end

