-- ==== Sys2Proof/Machine/Messages.lean ====
section
/-! DEFINITION. Messages (R245 to R251): what a module does with a message that comes to it whole and verified. -/

namespace Sys2Proof.Machine

/-- Payload bytes of a ROW message: its sub-header and its records, each of a multiple of 8 bytes (R247). -/
def rowLen (n rec : Nat) : Nat := 16 + n * ((rec + 7) / 8 * 8)

/-- The sub-header of a ROW message (R247). -/
def rowHead (r : RowHdr) (sub n : Nat) : List Byte :=
  leBytes 2 r.table ++ leBytes 2 r.mb ++ leBytes 1 sub ++ leBytes 3 0 ++ leBytes 4 n ++ leBytes 4 r.rank

/-- A record padded to a multiple of 8 bytes (R247). -/
def padRec (b : List Byte) : List Byte := b ++ List.replicate ((8 - b.length % 8) % 8) 0

def keyBytes (k : Nat) : List Byte := leBytes 8 k

def entryBytes (e : BagEntry) : List Byte :=
  leBytes 4 e.bag ++ leBytes 2 e.pos ++ leBytes 2 0 ++ leBytes 4 e.seg ++ leBytes 4 e.weight.toNat

def partialBytes (v : PartialRec) : List Byte :=
  padRec (leBytes 4 v.bag ++ leBytes 2 v.first ++ leBytes 1 v.j ++ leBytes 1 0 ++ bytes32 v.vals ++ (v.tags.map (leBytes 2)).flatten)

def gradBytes (g : GradRec) : List Byte := padRec (leBytes 4 g.bag ++ leBytes 4 0 ++ bytes32 g.vals)

def winBytes (w : WinRec) : List Byte := padRec (leBytes 4 w.bag ++ leBytes 4 0 ++ (w.pos.map (leBytes 2)).flatten)

/-- Payload of a ROW message. -/
def rowBytes (r : RowHdr) (sub : Nat) (recs : List (List Byte)) : List Byte := rowHead r sub recs.length ++ recs.flatten

/-- Payload of TEST message `i` (chapter 16): its index, then PRBS31 data seeded with it. -/
def testPayload (i : Nat) : List Byte := leBytes 8 i ++ (List.range 65528).map fun k => Config.prbs i k

namespace State

/-! ## Arrival (R246, R249, R250) -/

/-- The classes a kind may travel in (R246). -/
def kindOk (c : TClass) (kind : Nat) : Bool := match kind, c with
  | 1, .carmine => true
  | 1, .slate => true
  | 2, .carmine => true
  | 3, .carmine => true
  | 3, .slate => true
  | 4, .pewter => true
  | 5, .slate => true
  | 5, .pewter => true
  | _, _ => false

/-- A message of an attempt or step that is not the partition's; with `NEXT` the step alone is compared, with the one in
flight and the one after it (R249). -/
def staleMsg (s : State) (c : TClass) (h : MsgHdr) : Bool :=
  let n := s.getF F.PLN_STEP_STEP h.part
  c = .carmine && (if h.next then h.step ≠ n && h.step ≠ n + 1
    else h.step ≠ n || h.attempt ≠ (s.part h.part).rollbacks % 256)

/-- The channel a message from `src` arrives on: its class, with the dateline crossed in the dimension it came along or
not (R250). -/
def vcIn (s : State) (c : TClass) (src k : Nat) : Nat :=
  let d := k / 2
  let crossed : Bool := if k % 2 = 0 then s.coord d < s.placeOf src d else s.placeOf src d < s.coord d
  classVc c + (if crossed then 1 else 0)

/-- The flits of a message have been received and freed on the port its route enters by. -/
def arrived (s : State) (c : TClass) (src len : Nat) : State :=
  let k := s.routeIn src
  if k < 6 then s.freeFlits k (s.vcIn c src k) (flitsOf len) else s

/-- The port a message comes by carries flits; one from the module itself needs none. -/
def canArrive (s : State) (h : MsgHdr) : Bool := let k := s.routeIn h.src; 6 ≤ k || s.portUp k

/-- A message of `len` payload bytes comes: one for another position goes on toward it, one of a wrong kind is refused, a
stale one dropped, any other handled (R246, R249, R250). -/
def receive (s : State) (c : TClass) (h : MsgHdr) (kind : Nat) (o : Out) (len : Nat) (act : State → State) : State :=
  if !s.canArrive h then s
  else
    let s := s.arrived c h.src len
    if h.dest ≠ s.pos then s.sendMsg c h o
    else if h.kind ≠ kind ∨ ¬ kindOk c h.kind ∨ 8 ≤ h.part ∨ 65536 < len then s.bump F.FAB_STAT_REFUSED 0
    else if kind ≤ 3 && s.staleMsg c h then s.bump F.FAB_STAT_STALE 0
    else act s

/-! ## Delivery -/

/-- A delta record: the address it changes on its rank's home, and the sector (R275). -/
def deltaRecs (b : List Byte) : List (Nat × List Byte) :=
  (List.range (b.length / 40)).map fun i => let x := b.drop (40 * i); (leNat (x.take 8), (x.drop 8).take 32)

/-- Ranks whose mirror this module holds: those whose partner rank it hosts. -/
def mirroredHere (s : State) (p : Nat) : List Nat :=
  (List.range (s.planRanks p)).filter fun r => (s.ranksHere p).contains (s.partnerOf p r)

/-- Two delta logs of a rank, used alternately (R277). -/
def logBase (s : State) (p r n : Nat) : Nat :=
  region p (.deltaLog r) + (n % 2) * ((s.plan p).map (·.ranks.deltaBytes)).getD 0

/-- The rank in whose delta log of a step an address lies. -/
def logOf (s : State) (p n a : Nat) : Option Nat :=
  (s.mirroredHere p).find? fun r =>
    let b := s.logBase p r n
    b ≤ a && a < b + ((s.plan p).map (·.ranks.deltaBytes)).getD 0

/-- The log of a rank for a step. -/
def logAt (s : State) (p r n : Nat) : DeltaLog :=
  ((s.part p).logs.find? fun l => l.rank = r && l.step = n).getD
    { rank := r, step := n, bytes := 0, written := [], ended := none, committed := false, applied := false }

def setLog (s : State) (p : Nat) (l : DeltaLog) : State :=
  s.modPart p fun x => { x with logs := (x.logs.filter fun y => !(y.rank = l.rank && y.step = l.step)) ++ [l] }

/-- Log *n* − 2 of a rank stands unapplied: the acknowledgement of *n* is withheld (R277). -/
def logHeld (s : State) (p r n : Nat) : Bool := (s.part p).logs.any fun l => l.rank = r && l.step + 2 = n && !l.applied

/-- Acknowledges a step's delta once its end has come, every byte is written, and the log before it in the same place is
applied (R275, R277). -/
def ackDelta (s : State) (p r n : Nat) : State :=
  let l := s.logAt p r n
  if l.ended = some l.bytes ∧ ¬ s.logHeld p r n then s.emit (.deltaAck p r n) else s

/-- A Slate write into a delta log is part of its step's delta. -/
def takeDelta (s : State) (c : TClass) (h : MsgHdr) (payload : List Byte) : State :=
  if c ≠ .slate ∨ ¬ s.resilient h.part then s
  else match s.logOf h.part h.step h.addr with
    | none => s
    | some r =>
      let l := s.logAt h.part r h.step
      (s.setLog h.part { l with bytes := l.bytes + payload.length, written := l.written ++ deltaRecs payload }).ackDelta h.part r h.step

/-- Bytes a token will announce to a tile, until the tile waits for it (R53, R248). -/
def announce (s : State) (h : MsgHdr) (n : Nat) : State :=
  match tokenOf h.token with
  | some (g, k) =>
    if h.token = 0 ∨ n = 0 ∨ ¬ s.checkerOn h.part then s
    else s.modTile g fun t => { t with unwaited := t.unwaited ++ [(h.addr, n, k)] }
  | none => s

/-- A WRITE: the payload, then the token; outside the allocation it is refused, which is a module fault (R248). -/
def writeDelivered (s : State) (c : TClass) (h : MsgHdr) (payload : List Byte) : State :=
  if !s.ownsRange h.part h.addr payload.length true then (s.bump F.FAB_STAT_REFUSED 0).moduleFault h.part 8 h.task false
  else
    let s := (s.wrDev h.task h.addr payload).noteLines h.part h.task fabricMaster h.addr payload.length
    ((s.takeDelta c h payload).announce h payload.length).deliver h.part h.token

/-! ## A rank's own delta (R275, R453) -/

/-- Records of 40 bytes. -/
def deltaBytes (l : List (Nat × List Byte)) : List Byte := (l.map fun x => leBytes 8 x.1 ++ x.2).flatten

/-- Header of a delta message to the host of a rank's partner. -/
def deltaHead (s : State) (p r a : Nat) : MsgHdr :=
  { dest := s.hostOf p (s.partnerOf p r), src := s.pos, kind := 1, part := p, attempt := (s.part p).rollbacks % 256,
    next := false, step := s.curStep p, addr := a, token := 0, task := plannerTask }

/-- Records join a rank's delta of the step: Slate writes of at most 1,638, each after the last. -/
def sendRecords (s : State) (p r : Nat) (l : List (Nat × List Byte)) : State :=
  (List.range (ceilDiv l.length 1638)).foldl (fun s i =>
    let b := deltaBytes ((l.drop (1638 * i)).take 1638)
    let h := s.deltaHead p r (s.logBase p r (s.curStep p) + (s.part p).deltaSent)
    let s := s.modPart p fun x => { x with deltaSent := x.deltaSent + b.length }
    if h.dest = s.pos then s.writeDelivered .slate h b else s.sendMsg .slate h (.message .slate h b)) s

/-- The carried lookups of a micro-batch are there: a vector of every bag. -/
def carriedThere (s : State) (p t r tag : Nat) (d : TableDesc) : Bool :=
  (s.sortOf p t r tag).isSome &&
    (List.range (s.bagCount p t d r tag)).all fun b => (s.tableSt p t r).pooled.any fun v => v.mb = tag && v.bag = b

/-- Sends the carried lookups of each micro-batch of the next step that is complete, ahead of the rest of the delta
(R453). -/
def sendCarried (s : State) (p : Nat) : State :=
  let m := s.getF F.FAB_HSTAT_MIRROR 0
  let r := s.homeRank p
  match (s.part p).plan with
  | none => s
  | some pl =>
    if !s.resilient p || !(s.ranksHere p).contains r || (m ≠ 1 && m ≠ 2) then s
    else
      let n := s.curStep p + 1
      let all := (List.range pl.tables.length).flatMap fun t => (List.range ((pl.classes.map (·.mbCount)).getD 1)).map fun mb => (t, mb)
      all.foldl (fun s k => match pl.tables[k.1]? with
        | some d =>
          let tag := mbTag n k.2
          if !d.stale || (s.part p).carried.contains k || !s.carriedThere p k.1 r tag d then s
          else
            let a := s.pooledAt p k.1 d r tag 0
            let e := s.pooledAt p k.1 d r tag (s.bagCount p k.1 d r tag)
            let l := (List.range (ceilDiv (a % 32 + (e - a)) 32)).map fun i =>
              let q := a / 32 * 32 + 32 * i
              (q, s.rd q 32)
            (s.modPart p fun x => { x with carried := x.carried ++ [k] }).sendRecords p r l
        | none => s) s

/-- The owner rank a ROW message to an owner names: in `ADDR`, else the rank at home. -/
def ownerOf (s : State) (h : MsgHdr) : Nat := if (s.ranksHere h.part).contains h.addr then h.addr else s.homeRank h.part

/-- A ROW message of a table the plan has is handled, then its token delivered; any other is refused. -/
def rowDelivered (s : State) (h : MsgHdr) (r : RowHdr) (act : State → State) : State :=
  if (s.tableDesc h.part r.table).isNone then s.bump F.FAB_STAT_REFUSED 0 else (act s).deliver h.part h.token

/-- The checker regenerates a TEST message and counts it (chapter 16). -/
def testCheck (s : State) (payload : List Byte) : State :=
  if payload = testPayload (leNat (payload.take 8)) then s.bump F.TST_FCHK_GOOD 0 else s.bump F.TST_FCHK_BAD 0

end State

/-- A WRITE message (R248). -/
def execWriteMessage (c : TClass) (h : MsgHdr) (payload : List Byte) (s : State) : Res :=
  .next (s.receive c h 1 (.message c h payload) payload.length fun s => s.writeDelivered c h payload)

/-- A COLLECTIVE message goes to the Collective Engine (R271). -/
def execCollectiveMessage (c : TClass) (h : MsgHdr) (k : CollHdr) (data : List Byte) (s : State) : Res :=
  .next (s.receive c h 2 (.coll h k data) (16 + data.length) fun s => (s.collDeliver h.part h k data).deliver h.part h.token)

/-- Unique row keys for the owner (R181, R247). -/
def execRowUniqueKeys (c : TClass) (h : MsgHdr) (r : RowHdr) (keys : List Nat) (s : State) : Res :=
  .next (s.receive c h 3 (.message c h (rowBytes r 1 (keys.map keyBytes))) (rowLen keys.length 8) fun s =>
    s.rowDelivered h r fun s => s.takeKeys h.part r.table (s.ownerOf h) r.rank (mbTag h.step r.mb) keys)

/-- Bag entries for the owner (R247). -/
def execRowBagEntries (c : TClass) (h : MsgHdr) (r : RowHdr) (entries : List BagEntry) (s : State) : Res :=
  .next (s.receive c h 3 (.message c h (rowBytes r 2 (entries.map entryBytes))) (rowLen entries.length 16) fun s =>
    s.rowDelivered h r fun s => s.takeEntries h.part r.table (s.ownerOf h) r.rank (mbTag h.step r.mb) entries)

/-- Partials and block nodes for the requester, whose OCH-U combines them (R183, R184, R247). -/
def execRowShardPartials (c : TClass) (h : MsgHdr) (r : RowHdr) (recs : List PartialRec) (s : State) : Res :=
  .next (s.receive c h 3 (.message c h (rowBytes r 3 (recs.map partialBytes))) (16 + ((recs.map partialBytes).map List.length).foldl (· + ·) 0)
    fun s => (s.rowDelivered h r fun s => s.takePartials h.part r.table r.rank (mbTag h.step r.mb) recs).sendCarried h.part)

/-- Bag gradients for the owner, who forms the entry gradients (R187, R247). -/
def execRowGradients (c : TClass) (h : MsgHdr) (r : RowHdr) (recs : List GradRec) (s : State) : Res :=
  .next (s.receive c h 3 (.message c h (rowBytes r 4 (recs.map gradBytes))) (16 + ((recs.map gradBytes).map List.length).foldl (· + ·) 0)
    fun s => s.rowDelivered h r fun s => s.takeGrads h.part r.table (s.ownerOf h) r.rank (mbTag h.step r.mb) recs)

/-- Winner vectors for the owner (R186, R247). -/
def execRowWinnerVectors (c : TClass) (h : MsgHdr) (r : RowHdr) (recs : List WinRec) (s : State) : Res :=
  .next (s.receive c h 3 (.message c h (rowBytes r 5 (recs.map winBytes))) (16 + ((recs.map winBytes).map List.length).foldl (· + ·) 0)
    fun s => s.rowDelivered h r fun s => s.takeWinners h.part r.table (s.ownerOf h) r.rank (mbTag h.step r.mb) recs)

/-- A TEST message is regenerated and counted (R246). -/
def execTestMessage (c : TClass) (h : MsgHdr) (payload : List Byte) (s : State) : Res :=
  .next (s.receive c h 5 (.message c h payload) payload.length fun s => s.testCheck payload)

end Sys2Proof.Machine
end

