-- ==== Sys2Proof/Machine/Copies.lean ====
section
/-! DEFINITION. Working copies (R160, R161, R303, R319, R344): a block re-derived from its master, the compare, and the
re-derivation of every shard with its all-gather. -/

namespace Sys2Proof.Machine
namespace State

/-- The working copy of a block re-derived from its master: element codes, and the exponent of an FP8 block (R160). -/
def deriveCopy (fmt : Nat) (w : List W32) : List Nat × Int :=
  if isFp8 fmt then
    let a := amax w
    let e : Int := if isZero a then 0 else min (max (scaleExp (f32v a).dy (fp8Max fmt)) (-112)) 112
    (w.map fun v => ((fmtOf fmt).convert .sat ((f32v v).scale (-e))).1, e)
  else (w.map fun v => ((fmtOf fmt).convert .sat (f32v v)).1, 0)

/-- The bytes of a re-derived block: its elements, and for FP8 the trailer of an exact-mode block, `OUTCOME`, `SEXP` and
`FBADDR` 0 (R157, R160). -/
def copyBlock (fmt : Nat) (w : List W32) : List Byte :=
  let (cs, e) := deriveCopy fmt w
  (cs.map (leBytes (elemBytes fmt))).flatten ++
    if isFp8 fmt then leBytes 1 (e % 256).toNat ++ leBytes 63 0 else []

/-- A working copy in a Cluster Store equals the re-derived block, bit for bit: elements, exponent, `OUTCOME` and `FBADDR`. -/
def copyEqual (s : State) (master copy fmt : Nat) : Bool :=
  let (cs, e) := deriveCopy fmt (words32 (s.rd master 65536))
  let w := elemBytes fmt
  s.rd copy (16384 * w) = (cs.map (leBytes w)).flatten &&
  (!isFp8 fmt ||
    (bexp (s.rd8 (copy + 16384)) = e && s.rd8 (copy + 16384 + 1) = 0 && s.rdN (copy + 16384 + 12) 4 = 0))

/-- A rank's shard of a tensor's working copy re-derived from its committed master, block after block. -/
def deriveShard (s : State) (p t r : Nat) : State :=
  match s.plan p with
  | none => s
  | some pl => match pl.params.tensors[t]? with
    | none => s
    | some e =>
      let n := shardElems e pl.rankCount
      let f := Config.copyFmt pl.meas t
      let m := region p (.master r t (regionIn pl e (s.curStep p)))
      (List.range (ceilDiv n 16384)).foldl (fun s b =>
        let w := words32 (s.rd (m + 65536 * b) (4 * min 16384 (n - 16384 * b)))
        s.wr (s.dataAt p r (region p (.copy t 2)) + blockPitch f * b)
          (copyBlock f (w ++ List.replicate (16384 - w.length) 0))) s

/-- Re-derives and all-gathers every working copy that is owed, at the start of a step's schedule (R319, R344). -/
def deriveOwed (s : State) (p : Nat) : State :=
  (s.part p).rederive.foldl (fun s k => (s.deriveShard p k.1 k.2).startGather p k.1 k.2) s

/-- Every working copy of the ranks hosted here is owed (R344). -/
def oweCopies (s : State) (p : Nat) : State :=
  match s.plan p with
  | none => s
  | some pl => s.modPart p fun x => { x with
      rederive := (paramTensors pl).flatMap fun t => (s.ranksHere p).map fun r => (t, r) }

end State
end Sys2Proof.Machine
end

