-- ==== Sys2Proof/Machine/PlanCmds.lean ====
section
/-! DEFINITION. Plans (R36 to R41, R54, R61, R154, R325, R328, R344 to R346, R406, R411, R412, R429, R446, R488):
loading, starting, resuming and stopping one, and the origin of a step. -/

namespace Sys2Proof.Machine
namespace State

/-! ## Loading -/

/-- Plan-mode host movers a partition owns, ascending (R482). -/
def planMovers (s : State) (p : Nat) : List Nat :=
  (List.range 32).filter fun h => s.flag F.DMA_MCFG_EN h && s.flag F.DMA_MCFG_MODE h && s.getF F.DMA_MCFG_OWNER h = p

/-- The active owner key, if any, is the one in the flash's owner area (R400). -/
def ownerKeyKept (s : State) : Bool := s.activeOwner.isNone || s.ident.flashOwner.map shake512 = s.activeOwner

/-- What an image is read against. -/
def planSite (s : State) (p : Nat) : Site :=
  { clusters := (s.clusters p).length, hbm := s.getF F.PRT_QUOTA_HBM_Q p * 2 ^ 30, umb := s.getF F.PRT_QUOTA_UMB_Q p * 2 ^ 30,
    movers := (s.planMovers p).length, watches := s.watchCount p, rings := (s.ringSize 0, s.ringSize 1, s.ringSize 2),
    ownerKept := s.ownerKeyKept }

/-- A load ends with a code and a detail (R37). -/
def loadEnds (s : State) (p code detail : Nat) : State :=
  let s := ((s.putF F.PLN_LOAD_STATUS_CODE p code).putF F.PLN_LOAD_STATUS_DETAIL p detail).putF F.PLN_LOAD_STATUS_BUSY p 0
  s.modPart p fun x => { x with loading := none }

/-- The image at `PLN_IMG_BASE`, if it lies in the partition's HBM. -/
def imageBytes (s : State) (p : Nat) : Option (List Byte) :=
  let a := s.getF F.PLN_IMG_BASE_BASE p
  let n := s.getF F.PLN_IMG_LEN_LEN p
  if a < hbmEnd ∧ a + n ≤ hbmEnd ∧ s.ownsRange p a n false then some (s.rd a n) else none

/-- The plan at `PLN_IMG_BASE` with its schedule, or the code of its refusal: 0x08 for an image that does not lie in the
partition's HBM (assumption 103). -/
def checkImage (s : State) (p : Nat) : Read (Plan × List Placed) :=
  if s.flag F.PRT_STATE_WIPING p then .error (0x11, 0)
  else match s.imageBytes p with
    | none => .error (0x08, 0)
    | some b => do
      let e := s.planSite p
      let image ← readPlan b (s.getF F.PLN_IMG_LEN_LEN p) e s.activeOwner
      let pl := image.ordered
      need (!(s.ident.lc = 3 && 1 < pl.rankCount)) 0x07 0
      need (!s.flag F.PRT_STATE_OVER_QUOTA p && 0 < s.rampShare p) 0x08 0
      pure (pl, (pl.schedule e.ring e.movers (Plan.collBeats e.ring)).1)

/-- Step length of a schedule (R40). -/
def lengthOf (pl : Plan) (sched : List Placed) : Nat :=
  ((sched.filter fun q => !(pl.tasks[q.task]?).any (·.kind = 0x0A)).map fun q => q.start + q.dur).foldl max 0 + 64

/-- A digest in `PLN_DIGEST0` to `PLN_DIGEST7`, its first 8 bytes in the first (R41). -/
def showDigest (s : State) (p : Nat) (d : BitVec 512) : State :=
  (List.range 8).foldl (fun s i => s.setWord (0x31_0040 + 0x1_0000 * p + 8 * i) (BitVec.ofNat 64 (d.toNat / 2 ^ (64 * i)))) s

def shownDigest (s : State) (p : Nat) : BitVec 512 :=
  BitVec.ofNat 512 (leNat (((List.range 8).map fun i => leBytes 8 (s.word (0x31_0040 + 0x1_0000 * p + 8 * i)).toNat).flatten))

/-- Checks and places the image, and exchanges the digest of its schedule (R36 to R41). -/
def beginLoad (s : State) (p : Nat) : State :=
  match s.checkImage p with
  | .error (c, d) => s.loadEnds p c d
  | .ok (pl, sched) =>
    let d := scheduleDigest sched (lengthOf pl sched) (s.planMovers p).length
    let s := (s.putF F.PLN_LOAD_STATUS_BUSY p 1).showDigest p d
    let s := s.modPart p fun x => { x with loading := some (pl, sched) }
    if pl.rankCount = 1 then s else s.emit (.digest p d)

/-- A kernel's words in the instruction stores of every tile of every cluster a task using it names (R33). -/
def placeKernel (s : State) (p : Nat) (pl : Plan) (k : Nat) : State :=
  match pl.kernels[k]? with
  | none => s
  | some q =>
    let cs := (List.range pl.clusters).filter fun c => pl.tasks.any fun t =>
      t.kind = 1 && t.kernel = k && natBits t.resources c c = 1
    let bytes := (q.image.map fun w => leBytes 8 w.toNat).flatten
    cs.foldl (fun s c => (List.range 8).foldl (fun s i =>
      s.wr (istoreAddr (8 * s.planCluster p c + i) + 8 * q.pc) bytes) s) s

/-- Registers that a plan load returns to their reset values (R167, R200, R289, R325, R326, R348). -/
def loadResets (s : State) (p : Nat) : State :=
  let c := 0x31_0000 + 0x1_0000 * p
  let row := 0x91_0000 + 0x1000 * p
  let wch := 0xB1_0000 + 0x1000 * p
  let total := s.getF F.ROW_DEF_TOTAL_TOTAL p
  let s := s.resetRegs [c + 0x30, c + 0x38, c + 0xA8, c + 0xB8, c + 0xC0, c + 0xC8, c + 0xD0, 0x60_0108, 0x60_0110, 0x60_0118]
  let s := (s.clearRegs row (row + 0x1000)).putF F.ROW_DEF_TOTAL_TOTAL p total
  s.clearRegs (wch + 0x10) (wch + 0x1000)

/-- Addresses the load publishes. -/
def loadBases (s : State) (p : Nat) : State :=
  let s := (s.putF F.ROW_TDESC_BASE_BASE p (region p .tdesc)).putF F.ROW_DEFCNT_BASE_BASE p (region p .defCounts)
  let s := (s.putF F.WCH_STATE_BASE_ADDR p (region p .watchRecs)).putF F.WCH_CAL_BASE_ADDR p (region p .calRecs)
  let s := s.putF F.WCH_CKPT_BASE_ADDR p (region p (.manifest (s.homeRank p)))
  let s := s.putF F.PLN_COMMIT_MBOX_ADDR p (region p .mailbox)
  let s := (s.putF F.FAB_RANK_HOME 0 (s.homeRank p)).putF F.FAB_RANK_PVALID 0 1
  s.putF F.FAB_HSTAT_MIRROR 0 (if s.resilient p then 1 else 0)

/-- A table descriptor as the live array holds it (R171, R200). -/
def tdescBytes (d : TableDesc) : List Byte :=
  leBytes 8 d.rows ++ leBytes 2 d.elems ++ leBytes 1 d.fmt ++ leBytes 1 d.pool ++ leBytes 1 d.rule ++ leBytes 1 d.shb ++
  leBytes 2 d.flags ++ leBytes 4 d.budget ++ leBytes 4 d.epoch ++ leBytes 4 d.hyp ++ leBytes 4 0 ++ leBytes 8 d.hbmPages ++
  leBytes 24 0

/-- The slot templates of a plan: one for each ordered pair of classes (R50). -/
def slotTemplates (pl : Plan) : List (Nat × Nat) :=
  let n := (pl.classes.map (·.nclass)).getD 0
  (List.range n).flatMap fun a => (List.range n).map fun b => (a, b)

/-- A plan becomes the partition's (R36, R117, R178, R191, R264, R293, R348, R439). -/
def install (s : State) (p : Nat) (pl : Plan) (sched : List Placed) : State :=
  let movers := (s.planMovers p).length
  let x := s.part p
  let s := s.setPart p { Part.reset with
    frzLog := x.frzLog, wipeGrans := x.wipeGrans, wipeAll := x.wipeAll, holdLog := x.holdLog, feeders := x.feeders,
    templates := slotTemplates pl, plan := some pl, sched := sched, graph := pl.tasks.length, stepLen := lengthOf pl sched, movers := movers, ashCluster := (s.clusters p).head? }
  let s := (List.range 9).foldl (fun s e => s.modOch e p fun o => { o with ctx := [], journal := [] }) s
  let s := (s.loadResets p).loadBases p
  let s := (s.tilesOf p).foldl (fun s g => s.modTile g fun t => { t with chains := [], chains0 := [] }) s
  let s := (List.range pl.kernels.length).foldl (fun s k => s.placeKernel p pl k) s
  let s := { s with test := { s.test with ashLeft := s.test.ashLeft.filter fun v => !(s.clusters p).contains v.1 } }
  let r := s.homeRank p
  let s := s.wr (region p .tdesc) (pl.tables.map tdescBytes).flatten
  let s := s.wipe (region p .defCounts) (4096 * 8)
  let s := (List.range pl.tables.length).foldl (fun s t => match pl.tables[t]? with
    | some d =>
      let s := s.modTableSt p t r fun y => { y with epoch := d.epoch }
      let s := if s.shardOwner p t d 0 = r then s.wipe (s.rowAt p t d r defaultKey).slot d.slotBytes else s
      (s.allPages p t d r).foldl (fun s g => s.wipe g.base d.pageBytes) s
    | none => s) s
  let s := (s.freshScales p r).initState p r
  s.writeManifest p r 0 0

/-- The digest exchange ends: any digest that differs refuses the plan (R41). -/
def endLoad (s : State) (p : Nat) (digests : List (BitVec 512)) : State :=
  match (s.part p).loading with
  | none => s
  | some (pl, sched) =>
    if digests.any (· ≠ scheduleDigest sched (lengthOf pl sched) (s.planMovers p).length) then s.loadEnds p 0x0A 0
    else (s.install p pl sched).loadEnds p 0 0

/-! ## Starting -/

/-- A master of the partition is frozen: a tile, a cluster-mover channel, a plan-mode host mover or an Ochre queue
(R488). -/
def anyFrozen (s : State) (p : Nat) : Bool :=
  (s.tilesOf p).any (fun g => (s.tile g).frozen) ||
  (s.clusters p).any (fun c => (List.range 8).any fun ch => (s.cmover (8 * c + ch)).frozen) ||
  (s.planMovers p).any (fun h => (s.mover h).frozen) || (List.range 9).any (fun e => (s.och e p).frozen)

/-- `RUN` stays 0 with a load code (R38, R344, R488). -/
def refuseRun (s : State) (p code : Nat) : State := s.putF F.PLN_LOAD_STATUS_CODE p code

/-- Takes the checkpoint whose parts `HAVE` names (R344 to R346). -/
def takeResume (s : State) (p : Nat) : State :=
  match s.plan p with
  | none => s
  | some pl =>
    let r := s.homeRank p
    let a := s.getF F.WCH_CKPT_BASE_ADDR p
    let have_ := s.getF F.WCH_RESUME_CTRL_HAVE p
    let has (b : Nat) : Bool := natBits have_ b b = 1
    let s := s.putF F.PLN_STEP_STEP p (s.rdN a 8)
    let s := if has 1 then s.loadCounts p r else s.initState p r
    let s := if has 2 then s.loadScales p r
      else if historyTensors pl = [] then s else (s.freshScales p r).putF F.PLN_SCALE_STATUS_WARMUP p 1
    let s := if has 3 then
        (s.loadWatches p r).putF F.WCH_ROOT_ROOT p (s.rdN (a + 0x18) 8)
      else (s.modPart p fun x => { x with watches := [] }).putF F.WCH_STATUS_ROOTRST p 1
    let s := if has 4 then s.loadEpochs p r else s
    let stale := pl.tables.any (·.stale)
    let bits : Bool := has 0 && has 1 && has 2 && has 4 && (!stale || has 5) &&
      leNat (s.rd (a + 0x40) 64) = pl.meas.toNat
    let s := s.putF F.PLN_SCALE_STATUS_NOBITS p (if bits then 0 else 1)
    -- the carried lookups stand in for the first step's staleness-1 lookups
    let s := if has 5 then (List.range pl.tables.length).foldl (fun s t => match pl.tables[t]?, pl.classes with
        | some d, some c =>
          if d.stale && d.pool ≠ 0 then
            let vs := s.readCarried p r t (s.curStep p) d c
            s.modTableSt p t r fun q => { q with pooled := vs }
          else s
        | _, _ => s) s else s
    (s.oweCopies p).putF F.WCH_RESUME_CTRL_ARM p 0

/-- `RUN` becomes 1, if nothing stands against it. A module that has reported itself failed takes part in no plan; the spec
names no code for that (R203, R278, assumption 96). -/
def tryRun (s : State) (p : Nat) : State :=
  match s.plan p with
  | none => s
  | some pl =>
    if s.running p then s
    else if s.flag F.GEN_STATUS_FAILED 0 then s
    else if s.anyFrozen p then s.refuseRun p 0x13
    else if s.getF F.PLN_START_BN_BN p < s.bn then s.refuseRun p 0x0C
    else if s.flag F.WCH_RESUME_CTRL_ARM p then
      let a := s.getF F.WCH_CKPT_BASE_ADDR p
      if s.rdN (a + 8) 4 ≠ s.homeRank p ∨ s.rdN (a + 0x0C) 4 ≠ pl.rankCount then s.refuseRun p 0x10
      else (((s.takeResume p).setRun p true).modPart p fun x => { x with armed := true }).arriveWork
    else ((s.setRun p true).modPart p fun x => { x with armed := true }).arriveWork

/-- The step begins at the beat of its origin: position 0 of a running plan. -/
def begin (s : State) (p : Nat) : State :=
  (s.putF F.PLN_SPOS_POS p 0).modPart p fun x => { x with
    active := true, fresh := true, armed := false, okSent := false, reports := [], sentStage := 0, k0 := none, rerunBn := none,
    waiting := false, restoring := false, rollbacks := 0 }

/-! ## The origin of a step -/

/-- The exponent a scale state takes for a step (R154). -/
def pickExp (x : ScaleSt) : Int :=
  if x.fill = 0 then 0
  else
    let a := (x.hist.take x.fill).foldl (fun m w => if m.toNat < w.toNat then w else m) 0
    if isZero a then 0
    else
      let g : Int := if x.cold then 4 else x.head
      -- A × 2^(g − E) ≤ F
      let e := g + scaleExp (f32v a).dy (fp8Max x.fmt)
      min (max e (-100)) 100

/-- Selects every history-mode exponent, writes it to the scale states and each cluster's scale table, and shows whether
the step is cold (R154, R156). -/
def selectScales (s : State) (p : Nat) : State :=
  let s := s.modPart p fun x => { x with
    scales := x.scales.map fun q => (q.1, { q.2 with exp := pickExp q.2, coldStep := q.2.fill = 0, amax := 0 }) }
  let s := s.putF F.PLN_SCALE_STATUS_COLD p (if (s.part p).scales.any (·.2.coldStep) then 1 else 0)
  let s := (s.ranksHere p).foldl (fun s r => s.writeScales p r) s
  (s.part p).scales.foldl (fun s q =>
    (s.clusters p).foldl (fun s c =>
      -- each rank hosted here has a table of its own (R159)
      let t := q.1 % 65536 + if q.1 / 65536 = s.homeRank p then 0 else 65536
      s.wr (clusterAddr c + region p (.scaleTable c t) % 0x200_0000 / 8 * 8) (leBytes 8 (q.2.exp % 2 ^ 64).toNat)) s) s

/-- Reads the watch list; a changed entry's record returns to zeros (R328, R331). -/
def readWatchList (s : State) (p : Nat) : State :=
  let b := s.getF F.WCH_LIST_BASE_ADDR p
  let es := (List.range (s.watchCount p)).map fun i => BitVec.ofNat 64 (s.rdN (b + 8 * i) 8)
  (s.ranksHere p).foldl (fun s r =>
    let old := s.watchesOf p r
    let ws := es.zipIdx.map fun e => match old[e.2]? with
      | some w => if w.entry = e.1 then w else WatchRec.zero_ e.1
      | none => WatchRec.zero_ e.1
    (s.setWatches p r ws).writeWatches p r) s

/-- A reduce-scatter's buffer of a rank set to +0. -/
def clearBuffer (s : State) (p r : Nat) (c : CollDesc) : State :=
  let a := s.dataAt p r c.src
  if r = s.homeRank p ∧ ¬ s.ownsRange p a c.len true then s else s.wipe a c.len

/-- The reduction buffers of every rank hosted here, the sources of the plan's reduce-scatters, and the discard buffers of
frozen layers start at +0 (R101, R107). -/
def clearBuffers (s : State) (p : Nat) : State :=
  match s.plan p with
  | none => s
  | some pl =>
    let discards := if natBits pl.options 2 2 = 0 then []
      else (List.range pl.params.tensors.length).filter fun t => (pl.params.tensors[t]?).any fun e => e.kind = 3 && pl.params.frozen e
    (s.ranksHere p).foldl (fun s r =>
      let s := (pl.ranks.colls.filter (·.op = 1)).foldl (fun s c => s.clearBuffer p r c) s
      discards.foldl (fun s t =>
        s.wipe (s.dataAt p r (region p (.discard t))) (4 * ((pl.params.tensors[t]?).map (·.elems)).getD 0)) s) s

/-- A tile at the first beat of a step: token counters 0, banks +0, row carry as at the start; its chain table is what a
rollback returns to (R61, R117, R139). -/
def tileOrigin (s : State) (g : Nat) : State :=
  s.modTile g fun t => { t with
    toks := [], banks := [], carry := [], chains0 := t.chains, heldToks := [], retryCost := 0, extra := 0 }

/-! ## Ash windows (R439) -/

/-- The sixteen segments of a cluster's test. -/
def ashAll : List Nat := List.range 16

/-- Segments of a cluster's test that are pending. -/
def ashPending (s : State) (c : Nat) : List Nat := mget ashAll s.test.ashLeft c

def setAsh (s : State) (c : Nat) (l : List Nat) : State :=
  { s with test := { s.test with ashLeft := mput ashAll s.test.ashLeft c l } }

/-- The segments in turn, each at the first position from `pos` on from which its tiles stay idle for 16 beats of a step of
`len`; `busy` are the stretches in which they are not. -/
def ashPlace (len : Nat) (busy : List (Nat × Nat)) : Nat → List Nat → List (Nat × Nat)
  | _, [] => []
  | pos, g :: gs =>
    let idle (b : Nat) : Bool := pos ≤ b && b + 16 ≤ len && busy.all fun x => x.2 ≤ b || b + 16 ≤ x.1
    match ((pos :: busy.map (·.2)).filter idle).min? with
    | some b => (b, g) :: ashPlace len busy (b + 16) gs
    | none => []

/-- Stretches of the schedule in which a cluster's tiles run tasks. -/
def tileStretches (s : State) (p : Nat) (pl : Plan) (c : Nat) : List (Nat × Nat) :=
  (s.part p).sched.filterMap fun q => match pl.tasks.find? (·.id = q.task) with
    | some t => if t.kind = 1 ∧ (selected t.resources).any (fun j => s.planCluster p j = c) then some (q.start, q.start + q.dur) else none
    | none => none

/-- The Planner places the Ash windows of the step: those of the current cluster, while `EN` is 1. -/
def placeAsh (s : State) (p : Nat) : State :=
  let wins := match (s.part p).plan, (s.part p).ashCluster with
    | some pl, some c =>
      if s.flag F.TST_ASH_CTRL_EN 0 then ashPlace (s.part p).stepLen (s.tileStretches p pl c) 0 (s.ashPending c) else []
    | _, _ => []
  s.modPart p fun x => { x with ashWins := wins }

/-- The first beat of a step, or of its re-run. -/
def originOf (s : State) (p : Nat) : State :=
  let s := (s.tilesOf p).foldl tileOrigin s
  let first : Bool := (s.part p).rollbacks = 0
  let s := if first then s.modPart p fun x => { x with
      balEn := s.flag F.PLN_CTRL_BAL_EN p, balThresh := s.getF F.PLN_CTRL_BAL_THRESH p, chkEn := s.flag F.PLN_CTRL_CHK_EN p,
      chkFault := s.flag F.PLN_CTRL_CHK_FAULT p } else s
  let s := s.modPart p fun x => { x with fresh := false, moves := [], stash := [], cleared := [], colls := [], mirrorAcked := false, deltaSent := 0, carried := [] }
  let s := s.putF F.PLN_SPOS_HOLD_TOTAL p 0
  let s := ((s.clearBuffers p).selectScales p).placeAsh p
  let s := if first then s.readWatchList p else s
  -- a replacement's state goes to every module at the origin of the step before it (R199)
  let step := s.getF F.PLN_STEP_STEP p
  (s.part p).repls.foldl (fun s v =>
    if first && v.step = step + 1 then s.emit (.replState p v.table (s.getF F.ROW_REPL_STATUS_STATE p)) else s) (s.deriveOwed p)

end State

/-- A write of `PLN_LOAD.GO` starts the check and the placing of an image (R36, R37). One written while a load or the
plan runs, and in SCRAPPED, does nothing. -/
def execPlanLoadGo (f : Func) (p : Nat) (s : State) : Res :=
  .next (s.gated f (F.PLN_LOAD_GO.off p) fun s =>
    if 8 ≤ p ∨ s.flag F.PLN_LOAD_STATUS_BUSY p ∨ s.running p ∨ s.ident.lc = 4 then s else s.arriveWork.beginLoad p)

/-- The load ends with the digests of the job's modules (R41). -/
def execPlanLoadDone (p : Nat) (digests : List (BitVec 512)) (s : State) : Res :=
  .next (if s.flag F.PLN_LOAD_STATUS_BUSY p then s.endLoad p digests else s)

/-- A write of `PLN_CTRL` with `RUN` 1: the other fields are written, and the plan is armed from `PLN_START_BN` (R38, R54). -/
def execRunSet (f : Func) (p : Nat) (v : Word) (s : State) : Res :=
  .next (s.gated f (F.PLN_CTRL_RUN.off p) fun s =>
    let s := s.writeOthers (F.PLN_CTRL_RUN.off p) v
    if getBits v 0 0 = 1 then s.tryRun p else s)

/-- A write of `PLN_CTRL` with `RUN` 0 stops the plan after the next commit beat; one not yet started stops at once
(R54). -/
def execRunClear (f : Func) (p : Nat) (v : Word) (s : State) : Res :=
  .next (s.gated f (F.PLN_CTRL_RUN.off p) fun s =>
    let s := s.writeOthers (F.PLN_CTRL_RUN.off p) v
    if getBits v 0 0 = 1 ∨ ¬ s.running p then s
    else if (s.part p).active then s.modPart p fun x => { x with stopAfter := true }
    else (s.setRun p false).modPart p fun x => { x with armed := false })

/-- At the beat `PLN_START_BN` the armed plan's first step begins (R36, R38). -/
def execPlanStart (p : Nat) (s : State) : Res :=
  .next (if (s.part p).armed ∧ s.running p ∧ s.bn = s.getF F.PLN_START_BN_BN p then s.begin p else s)

/-- The first beat of a step (R61, R154, R328). -/
def execStepOrigin (p : Nat) (s : State) : Res :=
  .next (if (s.part p).active ∧ (s.part p).fresh ∧ ¬ s.rolling p then s.originOf p else s)

end Sys2Proof.Machine
end

