-- ==== Sys2Proof/Machine/HostDma.lean ====
section
/-! DEFINITION. Queues, movers and windows (R355 to R371, R383, R485, R488): submission and abort, the checks of a
descriptor, its bytes and its write-back. The bytes of a descriptor appear at its completion. -/

namespace Sys2Proof.Machine

/-! ## Descriptors (R363 to R366) -/

/-- A mover address names host memory. -/
def isHost (a : Word) : Bool := getBits a 63 63 = 1

/-- Its byte number within its space. -/
def spaceAddr (a : Word) : Nat := getBits a 62 0

/-- A descriptor from its 64 bytes (R364). -/
def readMDesc (b : List Byte) : MDesc :=
  { src := BitVec.ofNat 64 (le b 0 8), dst := BitVec.ofNat 64 (le b 8 8), sstride := BitVec.ofNat 64 (le b 0x10 8),
    dstride := BitVec.ofNat 64 (le b 0x18 8), slen := le b 0x20 4, scount := le b 0x24 4, dlen := le b 0x28 4,
    dcount := le b 0x2C 4, next := BitVec.ofNat 64 (le b 0x30 8), ctrl := le b 0x38 2,
    rsvd := le b 0x38 2 < 4 }

/-- Bytes of the stream (R365). -/
def MDesc.total (d : MDesc) : Nat := d.slen * d.scount

/-- Start of line `i`: exact, from line 0 and the stride (R366). -/
def lineAt (a stride : Word) (i : Nat) : Int := (spaceAddr a : Int) + stride.toInt * i

/-- The smallest range of bytes that holds every line. -/
def lineSpan (a stride : Word) (len count : Nat) : Int × Int :=
  let b := if count ≤ 1 then lineAt a 0 0 else lineAt a stride (count - 1)
  (min (lineAt a 0 0) b, max (lineAt a 0 0) b + len)

def MDesc.srcSpan (d : MDesc) : Int × Int := lineSpan d.src d.sstride d.slen d.scount
def MDesc.dstSpan (d : MDesc) : Int × Int := lineSpan d.dst d.dstride d.dlen d.dcount

/-- A mover address with its range obeys R363; a cluster mover reaches only device addresses. -/
def addrOk (cluster : Bool) (a : Word) (lo hi : Int) : Bool :=
  if isHost a then !cluster && decide (0 ≤ lo) && decide (hi ≤ 2 ^ 63)
  else getBits a 62 48 = 0 && decide (0 ≤ lo) && decide (hi ≤ 2 ^ 48)

/-- Status 0x03: the format (R366). -/
def MDesc.formBad (d : MDesc) : Bool :=
  d.slen * d.scount ≠ d.dlen * d.dcount || 2 ^ 40 ≤ d.total || d.slen = 0 || d.scount = 0 || d.dlen = 0 || d.dcount = 0 ||
  !d.rsvd || getBits d.next 5 0 ≠ 0

/-- Status 0x09: the address space. -/
def MDesc.spaceBad (cluster : Bool) (d : MDesc) : Bool :=
  !(addrOk cluster d.src d.srcSpan.1 d.srcSpan.2 && addrOk cluster d.dst d.dstSpan.1 d.dstSpan.2 &&
    (d.next = 0 || addrOk cluster d.next (spaceAddr d.next) (spaceAddr d.next + 64)))

/-- Status 0x04: source and destination ranges of one space overlap. -/
def MDesc.overlaps (d : MDesc) : Bool :=
  isHost d.src = isHost d.dst && decide (d.srcSpan.1 < d.dstSpan.2) && decide (d.dstSpan.1 < d.srcSpan.2)

/-- The lines of one side: start and length. -/
def linesOf (a stride : Word) (len count : Nat) : List (Nat × Nat) :=
  (List.range count).map fun i => ((if count ≤ 1 then lineAt a 0 0 else lineAt a stride i).toNat, len)

/-- Where a descriptor came from: a host queue's chain, or a plan's. -/
def Chain.fromHost (k : Chain) : Bool := k.queue.isSome

namespace State

/-! ## Checks -/

/-- The first access of a descriptor outside the allocation of a partition (status 0x05): write, address. -/
def descOutside (s : State) (p : Nat) (d : MDesc) : Option (Bool × Nat) :=
  let side (a stride : Word) (len count : Nat) (write : Bool) : Option (Bool × Nat) :=
    if isHost a then none
    else (linesOf a stride len count).findSome? fun l => (s.firstBad p write (l.2 / 256 + 2) l.1 l.2).map fun b => (write, b)
  match side d.src d.sstride d.slen d.scount false with
  | some x => some x
  | none => side d.dst d.dstride d.dlen d.dcount true

/-- Status of the first check a descriptor fails, with the access refused; none if it passes (R366, R369). -/
def descStatus (s : State) (cluster : Bool) (p : Nat) (d : MDesc) : Option (Nat × Option (Bool × Nat)) :=
  if d.formBad then some (3, none)
  else if d.spaceBad cluster then some (9, none)
  else if d.overlaps then some (4, none)
  else (s.descOutside p d).map fun x => (5, some x)

/-- Every line of a descriptor is let in by the units it meets (R218). -/
def descSlotted (s : State) (p : Nat) (d : MDesc) : Bool :=
  (isHost d.src || (linesOf d.src d.sstride d.slen d.scount).all fun l => s.slotted p l.1 l.2) &&
  (isHost d.dst || (linesOf d.dst d.dstride d.dlen d.dcount).all fun l => s.slotted p l.1 l.2)

/-- The 64 bytes at a mover address. -/
def descBytes (s : State) (a : Word) : List Byte := if isHost a then s.hrd (spaceAddr a) 64 else s.rd (spaceAddr a) 64

/-! ## Bytes (R365) -/

/-- The stream of a descriptor. -/
def streamOf (s : State) (d : MDesc) : List Byte :=
  ((linesOf d.src d.sstride d.slen d.scount).map fun l => if isHost d.src then s.hrd l.1 l.2 else s.rd l.1 l.2).flatten

/-- Writes the first `n` bytes of the stream into the destination lines, in ascending order, as a master of a partition. -/
def moveBytes (s : State) (p master : Nat) (d : MDesc) (task n : Nat) : State :=
  let b := (s.streamOf d).take n
  ((linesOf d.dst d.dstride d.dlen d.dcount).zipIdx).foldl (fun s l =>
    let x := (b.drop (d.dlen * l.2)).take l.1.2
    if isHost d.dst then s.hwr l.1.1 x else (s.wrDev task l.1.1 x).noteLines p task master l.1.1 x.length) s

/-! ## Host movers (R358, R367 to R371) -/

/-- `DMA_QSTATUS` of a queue. -/
def putLast (s : State) (q st : Nat) : State := s.putF F.DMA_QSTATUS_LAST q st
def chainsLess (s : State) (q n : Nat) : State := s.putF F.DMA_QSTATUS_PENDING q (s.getF F.DMA_QSTATUS_PENDING q - n)

/-- A descriptor of a partition's host chain may be written back where it lies. -/
def descReach (s : State) (p : Nat) (a : Word) (write : Bool) : Bool :=
  if isHost a then decide (spaceAddr a + 64 ≤ 2 ^ 63) else getBits a 62 48 = 0 && s.ownsRange p (spaceAddr a) 64 write

/-- Writes `STATUS` and `RESIDUE` into a descriptor of a host chain (R364, R369). -/
def writeBack (s : State) (p : Nat) (a : Word) (st residue : Nat) : State :=
  if !s.descReach p a true then s
  else
    let b := leBytes 1 st ++ leBytes 5 residue
    if isHost a then s.hwr (spaceAddr a + 0x3A) b else s.wr (spaceAddr a + 0x3A) b

/-- The mover has no chain any more. -/
def moverIdle (s : State) (h : Nat) : State :=
  (s.modMover h fun m => { m with chain := none }).putF F.DMA_MSTAT_STATE h (if (s.mover h).frozen then 2 else 0)

/-- A chain ends at a descriptor with a status other than DONE: its write-back and vector for a host chain, the module
fault of R370 for a plan's. A refused access freezes the mover; a plan stops then at the rollback (R369, R408, R488). -/
def chainStops (s : State) (h : Nat) (k : Chain) (st residue : Nat) (bad : Option (Bool × Nat)) : State :=
  let s := match bad with
    | some (w, a) => (s.modMover h fun m => { m with frozen := true }).freezeLog k.part 3 h w a
    | none => s
  let s := s.moverIdle h
  match k.queue with
  | some q => ((((s.writeBack k.part k.addr st residue).putLast q st).chainsLess q 1).signalQ q)
  | none => s.moduleFault k.part (if st = 5 then 8 else 0x0C) k.task (st = 5)

/-- A host mover that may run chains of a queue: enabled, in host mode, owned by the queue's partition (R358). -/
def moverFor (s : State) (h q : Nat) : Bool :=
  s.flag F.DMA_MCFG_EN h && !s.flag F.DMA_MCFG_MODE h && s.getF F.DMA_MCFG_OWNER h = q / 32

/-- The next queue a mover serves: round robin after the last one (R358). -/
def nextQueue (s : State) (h : Nat) : Option Nat :=
  let from_ := match (s.mover h).lastQ with
    | some q => q + 1
    | none => 0
  ((List.range 256).map fun i => (from_ + i) % 256).find? fun q =>
    s.getF F.DMA_QCFG_MOVER q = h && s.moverFor h q && (s.queue q).chains ≠ []

/-- The host mover reads and checks its next descriptor; a descriptor the mover may not read stops the chain. -/
def hostDescStart (s : State) (h : Nat) : State :=
  match (s.mover h).chain with
  | none => s
  | some k =>
    if k.desc.isSome ∨ k.abort ∨ (s.mover h).frozen then s
    else if !(addrOk false k.addr (spaceAddr k.addr) (spaceAddr k.addr + 64)) then s.chainStops h k 9 0 none
    else if getBits k.addr 5 0 ≠ 0 then s.chainStops h k 3 0 none
    else if !s.descReach k.part k.addr false then s.chainStops h k 5 0 (some (false, spaceAddr k.addr))
    else
      let d := readMDesc (s.descBytes k.addr)
      match s.descStatus false k.part d with
      | some (st, bad) => s.chainStops h k st d.total bad
      | none => (s.modMover h fun m => { m with chain := some { k with desc := some d, written := 0 } }).putF F.DMA_MSTAT_DONE h 0

/-- The host mover's descriptor completes, its accesses let in; the chain goes on at `NEXT` or ends. -/
def hostDescDone (s : State) (h : Nat) : State :=
  match (s.mover h).chain with
  | none => s
  | some k =>
    match k.desc, k.abort with
    | some d, false =>
      if !s.descSlotted k.part d then s
      else
      let s := (s.moveBytes k.part (512 + h) d k.task d.total).putF F.DMA_MSTAT_DONE h d.total
      let s := match k.queue with
        | some q =>
          let s := (s.writeBack k.part k.addr 1 0).putLast q 1
          if natBits d.ctrl 0 0 = 1 then s.signalQ q else s
        | none => s
      if d.next ≠ 0 then s.modMover h fun m => { m with chain := some { k with addr := d.next, desc := none, written := d.total } }
      else
        let s := s.moverIdle h
        match k.queue with
        | some q => s.chainsLess q 1
        | none => s.taskDone k.part k.task
    | _, _ => s

/-- The running descriptor stops after a number of bytes the spec leaves to timing (assumption 2). -/
def stopPart (s : State) (h : Nat) (k : Chain) (st : Nat) : State :=
  match k.desc with
  | none => s.chainStops h k (if st = 2 then 8 else st) 0 none
  | some d =>
    let (v, s) := s.fresh
    let n := v % (d.total + 1)
    let s := (s.moveBytes k.part (512 + h) d k.task n).putF F.DMA_MSTAT_DONE h n
    s.chainStops h k st (d.total - n) none

/-! ## Cluster-mover channels (R73, R370, R485) -/

/-- The channel loses the chain at its head. -/
def dropChain (s : State) (c : Nat) : State := s.modCmover c fun m => { m with chains := m.chains.drop 1 }

/-- A refused access freezes a channel, and the tile that submitted the chain takes the plan fault `PARTITION`. For the first
descriptor of a chain the faulting bundle is the one that would issue 16 cycles after the `xm.dma` (R85); for a later one it
is the tile's next. A tile without a kernel faults without a bundle (R485, assumption 28). A task's chain raises the fault
without a tile. -/
def channelFrozen (s : State) (c : Nat) (k : CChain) (write : Bool) (addr : Nat) : State :=
  let s := (s.modCmover c fun m => { m with frozen := true }).freezeLog k.part 2 c write addr
  match k.tile with
  | none => s.moduleFault k.part 1 k.task true
  | some g => match k.since with
    | some t => if s.now < t + 16 then s.modTile g fun x => { x with partAt := some (t + 16, c % 8) } else s.partitionFault g (c % 8)
    | none => s.partitionFault g (c % 8)

/-- The bytes a descriptor's lines will hold belong to the submitting tile's token (R53, R80). -/
def noteUnwaited (s : State) (k : CChain) (d : MDesc) : State :=
  match k.tile with
  | none => s
  | some g =>
    if !s.checkerOn k.part then s
    else s.modTile g fun t => { t with unwaited := t.unwaited ++
      ((List.range d.dcount).map fun i => (spaceAddr (d.dst + BitVec.ofNat 64 i * d.dstride), d.dlen, k.token)) }

/-- A channel reads and checks the next descriptor of its first chain. -/
def channelStart (s : State) (c : Nat) : State :=
  match (s.cmover c).chains with
  | [] => s
  | k :: rest =>
    if k.addr = 0 ∨ k.desc.isSome ∨ (s.cmover c).frozen then s
    else
      let d := readMDesc (s.rd k.addr 64)
      match (if s.ownsRange k.part k.addr 64 false then s.descStatus true k.part d else some (5, some (false, k.addr))) with
      | none => (s.setCmover c { s.cmover c with chains := { k with desc := some d, since := none } :: rest }).noteUnwaited k d
      | some (_, some (w, a)) => (s.dropChain c).channelFrozen c k w a
      | some (_, none) => (s.dropChain c).moduleFault k.part 0x0C k.task false

/-- A channel's descriptor completes, its accesses let in; with `NEXT` 0 the chain waits for its arrival (R80). -/
def channelDone (s : State) (c : Nat) : State :=
  match (s.cmover c).chains with
  | [] => s
  | k :: rest => match k.desc with
    | none => s
    | some d =>
      if !s.descSlotted k.part d then s
      else
      let s := s.moveBytes k.part (256 + c) d k.task d.total
      s.setCmover c { s.cmover c with chains := { k with addr := spaceAddr d.next, desc := none } :: rest }

/-! ## Windows (R355, R356) -/

/-- BAR2 window and byte within it that an offset of a function reaches. -/
def barWindow (f : Func) (off : Nat) : Option (Nat × Nat) :=
  let w := off / 2 ^ 32
  match f.base with
  | .vf k => if w < 2 then some (2 * (k - 1) + w, off % 2 ^ 32) else none
  | .jtag => none
  | _ => if w < 16 then some (w, off % 2 ^ 32) else none

/-- What an access that is not carried out answers: a read returns all ones. -/
def barOnes (s : State) (off : Nat) (wr : Option (List Byte)) (len : Nat) : State := match wr with
  | some _ => s
  | none => s.emit (.winData off (List.replicate len 0xFF))

/-- An access of `n` bytes at device address `a` through window `w`. -/
def barAccess (s : State) (w off a : Nat) (wr : Option (List Byte)) (n : Nat) : State :=
  match s.firstBad (w / 2) wr.isSome (n / 256 + 2) a n with
  | some b => ((s.putF F.DMA_WIN_FROZEN w 1).freezeLog (w / 2) 5 w wr.isSome b).barOnes off wr n
  | none =>
    let s := match whereIs a with
      | .cluster .. => s.arriveWork
      | _ => s
    match wr with
    | some b => s.wrDev noTask a b
    | none => s.emit (.winData off (s.rd a n))

/-- The boot SRAM at an offset of the PF's BAR2 in recovery, and all ones beyond it (R399). -/
def bootWindow (s : State) (f : Func) (off n : Nat) (wr : Option (List Byte)) : State :=
  if f.base ≠ .pf ∨ 2 ^ 24 < off + n then s.barOnes off wr n
  else match wr with
    | some b => { s with sram := b.zipIdx.foldl (fun m x => mput 0 m (off + x.2) x.1) s.sram }
    | none => s.emit (.winData off ((List.range n).map fun i => mget 0 s.sram (off + i)))

/-! ## Mover configuration (R383) -/

/-- A loaded plan assigns logical host movers: it has a host-move task. -/
def assignsMovers (s : State) (p : Nat) : Bool := (s.plan p).any fun pl => pl.tasks.any (·.kind = 3)

/-- A write of `DMA_MCFG` may take effect. -/
def mcfgOk (s t : State) (h : Nat) : Bool :=
  (s.mover h).chain.isNone && s.getF F.DMA_MSTAT_STATE h = 0 && !s.running (s.getF F.DMA_MCFG_OWNER h) &&
  !s.running (t.getF F.DMA_MCFG_OWNER h) &&
  (List.range 8).all fun p => !s.assignsMovers p || s.planMovers p = t.planMovers p

end State

/-- A host access through a BAR2 window reaches device memory; a disabled or frozen window, one past 2^48 and one of a
partition that is wiped answers all ones, and an access outside the partition freezes the window (R355, R356, R411, R488). In
recovery the PF reaches the boot SRAM (R399). A TLP that is not accepted has no answer (R353). -/
def execBar2WindowAccess (f : Func) (off : Nat) (wr : Option (List Byte)) (len : Nat) (s : State) : Res :=
  let n := match wr with
    | some b => b.length
    | none => len
  let (s, taken) := s.tlpIn f
  .next (if !taken then s
    else if s.flag F.GEN_STATUS_RECOVERY 0 ∧ s.getF F.PWR_STAT_STATE 0 ≠ 4 ∧ ¬ s.power.perst then s.bootWindow f off n wr
    else match State.barWindow f off with
      | none => s.barOnes off wr n
      | some (w, o) =>
        let a := s.getF F.DMA_WIN_BASE w * 2 ^ 16 + o
        if !s.blockOpen 0x40_0000 ∨ ¬ s.flag F.DMA_WIN_EN w ∨ s.flag F.DMA_WIN_FROZEN w ∨ 2 ^ 48 < a + n ∨
          s.flag F.PRT_STATE_WIPING (w / 2) then s.barOnes off wr n
        else s.barAccess w off a wr n)

/-- A write of `DMA_QRING` submits a chain: refused without an enabled queue and a mover that may run it, or with that
mover frozen; discarded with 64 chains pending (R358, R488). -/
def execDmaQring (f : Func) (q : Nat) (v : Word) (s : State) : Res :=
  .next (s.gated f (0x400_0000 + 0x1000 * q) fun s =>
    let h := s.getF F.DMA_QCFG_MOVER q
    if !s.flag F.DMA_QCFG_EN q ∨ ¬ s.moverFor h q ∨ (s.mover h).frozen then s.putF F.DMA_QSTATUS_REFUSED q 1
    else if 64 ≤ s.getF F.DMA_QSTATUS_PENDING q then s.putF F.DMA_QSTATUS_OVF q 1
    else
      let s := s.modQueue q fun x => { x with chains := x.chains ++ [v] }
      (s.putF F.DMA_QSTATUS_PENDING q (s.getF F.DMA_QSTATUS_PENDING q + 1)).arriveWork)

/-- A write of `DMA_QARM`: from IDLE, READY or FAILED the window becomes PENDING for the step; while PENDING only the step
changes (R360). -/
def execDmaQarm (f : Func) (q : Nat) (v : Word) (s : State) : Res :=
  .next (s.gated f (0x400_0008 + 0x1000 * q) fun s => s.modQueue q fun x =>
    if x.wState = 1 then { x with wStep := v.toNat }
    else { x with wStep := v.toNat, wState := 1, wLen := 0, wDigest := 0 })

/-- A write of `DMA_QABORT`: the running chain is aborted, and the first descriptor of each pending chain takes status
0x08; the vector is signalled once (R371). -/
def execDmaQabort (f : Func) (q : Nat) (s : State) : Res :=
  .next (s.gated f (0x400_0010 + 0x1000 * q) fun s =>
    let run : Option Nat := (List.range 32).find? fun h => ((s.mover h).chain.any fun k => k.queue = some q)
    let pend := (s.queue q).chains
    let s := pend.foldl (fun s a => if s.descReach (q / 32) a true then
        (if isHost a then s.hwr (spaceAddr a + 0x3A) [8] else s.wr (spaceAddr a + 0x3A) [8]) else s) s
    let s := (s.modQueue q fun x => { x with chains := [] }).chainsLess q pend.length
    match run with
    | some h => s.modMover h fun m => { m with chain := m.chain.map fun k => { k with abort := true } }
    | none => if pend = [] then s else s.signalQ q)

/-- An aborted descriptor has written the bytes it held and stops (R371). -/
def execAbortComplete (h : Nat) (s : State) : Res :=
  .next (match (s.mover h).chain with
    | some k => if k.abort then s.stopPart h k 2 else s
    | none => s)

/-- An idle host mover takes the next chain of its queues, but not while its partition is wiped (R358, R411). -/
def execMoverChainStart (h : Nat) (s : State) : Res :=
  .next (if 32 ≤ h ∨ (s.mover h).chain.isSome ∨ (s.mover h).frozen ∨ s.flag F.PRT_STATE_WIPING (s.getF F.DMA_MCFG_OWNER h) then s
    else match s.nextQueue h with
      | none => s
      | some q => match (s.queue q).chains with
        | [] => s
        | a :: rest =>
          let k : Chain := { queue := some q, part := q / 32, task := State.noTask, addr := a, desc := none, written := 0, abort := false }
          ((s.modQueue q fun x => { x with chains := rest }).modMover h fun m => { m with lastQ := some q, chain := some k }).putF
            F.DMA_MSTAT_STATE h 1)

/-- A mover checks a descriptor before it moves a byte: host movers 0 to 31, then the cluster-mover channels (R366). -/
def execDescriptorStart (h : Nat) (s : State) : Res := .next (if h < 32 then s.hostDescStart h else s.channelStart (h - 32))

/-- A descriptor completes: its bytes are in place, and a host chain's is written back DONE (R365, R367, R369). -/
def execDescriptorComplete (h : Nat) (s : State) : Res := .next (if h < 32 then s.hostDescDone h else s.channelDone (h - 32))

/-- A PCI Express completion error or timeout stops the descriptor with status 0x06 (R369). -/
def execHostCompletionError (h : Nat) (s : State) : Res :=
  .next (match (s.mover h).chain with
    | some k =>
      let host : Bool := match k.desc with
        | some d => isHost d.src || isHost d.dst
        | none => isHost k.addr
      if host && !(s.mover h).frozen then s.stopPart h k 6 else s
    | none => s)

/-- A write of `DMA_MCFG` takes effect with the mover idle, no owner's plan running and no loaded plan's movers changed;
else it is discarded and logged (R383). -/
def execDmaMcfgWrite (f : Func) (h : Nat) (v : Word) (s : State) : Res :=
  let o := F.DMA_MCFG_EN.off h
  .next (s.gated f o fun s =>
    let t := s.setWord o (v &&& (fieldMask 11 8 ||| fieldMask 0 0))
    if s.mcfgOk t h then t else s.genErr f 1 o)

end Sys2Proof.Machine
end

