-- ==== Sys2Proof/Machine/Holds.lean ====
section
/-! DEFINITION. Commands of elastic holds and of balancing (R43 to R48, R51, R55, R254 to R257, R483). -/

namespace Sys2Proof.Machine
namespace State

/-- A step of the partition's plan is under way and its position moves. -/
def stepMoves (s : State) (p : Nat) : Bool :=
  let x := s.part p
  x.active && x.rerunBn.isNone && !x.waiting

def placedTask (s : State) (p task : Nat) : Option Placed := (s.part p).sched.find? (·.task = task)

/-- Opens a task's window and marks it started. -/
def openTask (s : State) (p task : Nat) : State :=
  let x := s.part p
  if x.done.contains task then s
  else
    let s := s.markStarted p [task]
    match s.placedTask p task with
    | some q =>
      if x.windows.any (·.task = task) then s
      else s.modPart p fun x => { x with windows := x.windows ++ [{ task := task, last := q.start + q.dur - 1 }] }
    | none => s

/-! ## Need (R42, R43, R254) -/

/-- The largest of a list. -/
def largest (l : List Nat) : Nat := l.foldl max 0

/-- List positions that one rank has of a table in a step. -/
def indicesOf (s : State) (p t r n : Nat) : Nat :=
  (((s.tableSt p t r).lists.filter fun l => l.1 / 65536 = n).map fun l => l.2.length).foldl (· + ·) 0

/-- Step a task belongs to (R32). -/
def stepOfTask (s : State) (p : Nat) (t : Task) : Nat := s.curStep p + natBits t.flags 1 1

/-- Sectors by stack: the sum of the amounts of each HBM stack, and of the Umber tier at place 8. -/
def byHome (l : List (Nat × Nat)) : List Nat :=
  (List.range 9).map fun k => ((l.filter fun x => min x.1 8 = k).map (·.2)).foldl (· + ·) 0

/-- The stack whose demand a gather of a row of step `n` adds to, and its sectors: its staged copy's stack, its page's home, or
for an unstaged Umber row its staging stack, twice (R195). -/
def readHome (s : State) (p t : Nat) (d : TableDesc) (r key n : Nat) : Nat × Nat :=
  match (s.tableSt p t r).staged.find? (·.1 = key) with
  | some (_, a) => (stackOf a, gatherSectors d)
  | none =>
    let h := (s.rowFor p t d r key n).home
    if h < 8 then (h, gatherSectors d) else ((d.shardOf key + d.localOf key / 256) % 8, 2 * gatherSectors d)

/-- Some rank of the partition's job is hosted away from its home. -/
def anyAway (s : State) (p : Nat) : Bool := (s.part p).hosts.any fun x => x.2 ≠ s.homePos p x.1

/-- Steps of the shorter way round a ring of `n` from coordinate `a` to `b`: coordinate left and direction, 1 for −. -/
def ringSteps (n a b : Nat) : List (Nat × Nat) :=
  let fwd := (b + n - a % n) % n
  if fwd ≤ n - fwd then (List.range fwd).map fun i => ((a + i) % n, 0)
  else (List.range (n - fwd)).map fun i => ((a + n - i) % n, 1)

/-- Directed links of the route from one position to another (R250): position left, dimension and direction. -/
def routeLinks (s : State) (a b : Nat) : List (Nat × Nat × Nat) :=
  ([0, 1, 2].map fun d =>
    (ringSteps (s.ringSize d) (s.placeOf a d) (s.placeOf b d)).map fun v =>
      let at_ (e : Nat) : Nat := if e < d then s.placeOf b e else if e = d then v.1 else s.placeOf a e
      (s.posOf (at_ 0) (at_ 1) (at_ 2), d, v.2)).flatten

/-- Routes between the hosts of consecutive ring indices in a dimension, both ways. -/
def stageRoutes (s : State) (p d : Nat) : List (List (Nat × Nat × Nat)) :=
  ((List.range (s.planRanks p)).map fun r =>
    let q := s.ringRank r d (s.placeOf r d + 1)
    [s.routeLinks (s.hostOf p r) (s.hostOf p q), s.routeLinks (s.hostOf p q) (s.hostOf p r)]).flatten

/-- Routes that cross the busiest directed link. -/
def busiest (rs : List (List (Nat × Nat × Nat))) : Nat :=
  let all := rs.flatten
  (all.map fun l => (all.filter (· = l)).length).foldl max 0

/-- Beats a collective needs on this module's links at the ports' current widths: in each stage the largest of what its two
outgoing ports need. Under a hosting map a link carries the routes that cross it (R254, R272). -/
def collNeed (s : State) (p : Nat) (c : CollDesc) : Nat :=
  let away := s.anyAway p
  ((List.range 3).foldl (fun (a : Nat × Nat) d =>
    if natBits c.dims d d = 0 then a
    else
      let n := s.ringSize d
      let m := if c.op = 1 then a.2 / n else a.2
      let bytes := if c.op = 3 then ceilDiv c.len 2 else ceilDiv ((n - 1) * m) 2
      let rs := if away then s.stageRoutes p d else []
      let on (k : Nat) : Nat := if away then (rs.flatten.filter (· = (s.pos, d, 1 - k))).length else 1
      let need (k : Nat) : Nat := ceilDiv (bytes * on k) (portRate (s.flag F.FAB_PSTAT_W8 (2 * d + k)))
      let h := if away then largest (rs.map List.length) else 1
      (if 2 ≤ n then a.1 + max (need 0) (need 1) + lagBeats h else a.1, if c.op = 2 ∨ c.op = 4 then m * n else m))
    (0, c.len)).1

/-- Need in beats of a data-dependent task, from this module's actual counts; `bytes` are those of a transfer on each outgoing
link, by port, or of an ingest delivery. -/
def needOf (s : State) (p : Nat) (pl : Plan) (t : Task) (bytes : List Nat) : Nat :=
  let r := s.rankOfTask p t.id
  let n := s.stepOfTask p t
  match t.kind with
  | 4 => ixBeats (((pl.unitTables (pl.ixUnit t.table)).map fun i => s.indicesOf p i r n).foldl (· + ·) 0)
  | 5 => ixBeats (((pl.unitTables (pl.ixUnit t.table)).map fun i =>
      ((s.tableSt p i r).entries.filter fun e => e.mb / 65536 = n).length).foldl (· + ·) 0)
  | 8 => largest (((List.range 6).filter fun k => natBits t.resources k k = 1).map fun k => ceilDiv (bytes.getD k 0) (portRate (s.flag F.FAB_PSTAT_W8 k)))
  | 9 => ((pl.ranks.colls[t.resources % 65536]?).map (s.collNeed p)).getD 0
  | 0x0B => ingestBeats (bytes.headD 0)
  | _ => match s.tableDesc p t.table with
    | none => 0
    | some d =>
      let own := s.ownedShards p t.table d r
      match t.kind with
      | 6 =>
        let ks := ((((s.tableSt p t.table r).recv.filter fun x => x.mb / 65536 = n && (t.mb = 0xFFFF || x.mb % 65536 = t.mb)).map
          fun x => x.keys.filter fun k => own.contains (d.shardOf k))).flatten
        ochBeats (largest ((byHome (ks.map fun k => s.readHome p t.table d r k n)).take 8))
      | 7 =>
        let l := byHome ((s.tableSt p t.table r).rowGrads.map fun g => ((s.rowAt p t.table d r g.1).home, 3 * updateSectors d))
        updateBeats (largest (l.take 8)) (l.getD 8 0)
      | 0x0C => ochuBeats ((s.stageKeys p t.table d r).length * gatherSectors d)
      | _ => 0

/-! ## Balancing (R51) -/

/-- Sum of a cluster's finishing positions over the last 8 slots. -/
def finishSum (x : Part) (j : Nat) : Nat := (x.slotFinish.map fun l => l.getD j 0).foldl (· + ·) 0

/-- The first cluster of a list that a test prefers to every earlier one. -/
def bestBy (better : Nat → Nat → Bool) : List Nat → Option Nat
  | [] => none
  | c :: cs => some (cs.foldl (fun a b => if better b a then b else a) c)

/-- One share of the rebalanceable tasks goes from the latest cluster to the earliest one, where the plan has such tasks. -/
def balance (s : State) (p : Nat) (pl : Plan) (finish : List Nat) : State :=
  let s := s.modPart p fun x => { x with slotFinish := (x.slotFinish ++ [finish]).drop (x.slotFinish.length + 1 - 8), moves := [] }
  let x := s.part p
  let js := List.range pl.clusters
  let n := max 1 x.slotFinish.length
  match bestBy (fun b a => finishSum x a < finishSum x b) js, bestBy (fun b a => finishSum x b < finishSum x a) js with
  | some late, some early =>
    if n * x.balThresh ≤ finishSum x late - finishSum x early ∧ late ≠ early ∧ pl.tasks.any (fun t => natBits t.flags 0 0 = 1) then
      match (List.range 32).find? fun j => j % max 1 pl.clusters = late with
      | some j => s.modPart p fun x => { x with moves := [(j, s.planCluster p early)] }
      | none => s
    else s
  | _, _ => s

end State

/-- The opening beat of a data-dependent window: a need above the window's beats raises a demand hold (R43). -/
def execWindowOpen (p task : Nat) (bytes : List Nat) (s : State) : Res :=
  .next (match s.plan p, s.taskOf p task, s.placedTask p task with
    | some pl, some t, some q =>
      if !s.stepMoves p ∨ s.getF F.PLN_SPOS_POS p < q.start ∨ (s.part p).windows.any (·.task = task) ∨ (s.part p).done.contains task then s
      else
        let n := s.needOf p pl t bytes
        let s := s.openTask p task
        if q.dur < n then s.raiseHold p 0 task (n - q.dur) false else s
    | _, _, _ => s)

/-- A HOLD flit: out of sequence it is discarded and NAKed; else each entry is merged, and a change floods on (R234, R256,
R257). -/
def execHoldFlit (port : Nat) (x : HoldFlit) (s : State) : Res :=
  .next (if !s.portUp port then s
    else if x.seq % 4096 ≠ (s.port port).rxNext then s.sendNak port
    else (x.entries.take 15).foldl (fun s e => if e.part < 8 then s.takeHold { e with land := s.fullBn e.land } else s)
      (s.received port 1))

/-- A merged entry lands: its length joins the pending hold beats, in the beat of the landing BN (R46, R256). -/
def execHoldLanding (p land : Nat) (s : State) : Res :=
  .next (if (s.part p).landedBn < land ∧ land ≤ s.bn + 1 then s.landUpTo p land else s)

/-- Held beats of the step reach `HOLD_LIMIT`, 0 being 65,535: a module fault (R47). -/
def execHoldLimitReached (p : Nat) (s : State) : Res :=
  let lim := s.getF F.PLN_CTRL_HOLD_LIMIT p
  .next (if s.stepMoves p ∧ (if lim = 0 then 65535 else lim) ≤ s.getF F.PLN_SPOS_HOLD_TOTAL p then
      s.moduleFault p 3 State.noTask false
    else s)

/-- A 1 written to `PLN_HOLD_POP` removes the oldest hold-log entry (R55). -/
def execPlnHoldPop (f : Func) (p : Nat) (v : Word) (s : State) : Res :=
  .next (s.gated f (F.PLN_HOLD_POP_POP.off p) fun s =>
    if getBits v 0 0 = 1 then s.modPart p fun x => { x with holdLog := x.holdLog.drop 1 } else s)

/-- A slot boundary: the clusters' finishing positions, by plan-relative cluster, join the last 8 slots' (R51). -/
def execBalanceDecision (p : Nat) (finish : List Nat) (s : State) : Res :=
  .next (match s.plan p with
    | some pl => if s.stepMoves p ∧ s.balancing p then s.balance p pl finish else s
    | none => s)

end Sys2Proof.Machine
end

