-- ==== Sys2Proof/Machine/Tasks.lean ====
section
/-! DEFINITION. Tasks that no other unit starts (R32, R42, R60, R161, R245, R273, R334, R428, R482): dispatches, moves,
transfers, ingest delivery, and the tasks the Planner adds. -/

namespace Sys2Proof.Machine
namespace State

/-! ## Dispatch (R60, R428) -/

/-- The share's static cluster is one the task names, and the tile lies in the cluster the share runs on (R32, R51). -/
def runsThere (s : State) (p : Nat) (t : Task) (g share : Nat) : Bool :=
  match (s.part p).plan with
  | none => false
  | some pl =>
    let c := share % max 1 pl.clusters
    share < 32 && natBits t.resources c c = 1 && g / 8 = s.shareCluster p t share

/-- A share's kernel of a task may be dispatched to a tile: the tile is of the cluster the share runs on, idle, not frozen and
in no Ash segment (R51, R488). A next-step tile task runs in the step it is placed in (assumption 104). -/
def canDispatch (s : State) (p task g share : Nat) : Bool :=
  s.stepMoves p && (s.taskOf p task).any (fun t => t.kind = 1 && s.runsThere p t g share) && s.taskHere p task &&
  !(s.part p).done.contains task && s.hasCluster p (g / 8) && s.getF F.TIL_STATUS_STATE g = 0 && !(s.tile g).frozen &&
  !(s.test.saved.map (·.1)).contains g && !((s.part p).acts.map (·.tile)).contains g

/-- Kernels a tile task runs: 8 on each cluster it names. -/
def kernelsOf (t : Task) : Nat := 8 * (selected t.resources).length

/-- The reduce-scatters of the graph with their descriptors. -/
def scatters (pl : Plan) : List (Nat × CollDesc) :=
  pl.tasks.filterMap fun t => if t.kind = 9 then ((pl.ranks.colls[t.resources % 65536]?).filter (·.op = 1)).map fun c => (t.id, c) else none

/-- The buffer of an update interval starts at +0 (R305): a reduction buffer that a later reduce-scatter reads again is set to
+0 before the first kernel that follows the one just done. -/
def clearInterval (s : State) (p task : Nat) : State :=
  match (s.part p).plan with
  | none => s
  | some full =>
    let pl := full.base (s.part p).graph
    let r := s.rankOfTask p task
    let done (x : Nat) : Bool := (s.part p).done.contains (s.rankTask p r x)
    let xs := scatters pl
    let due := xs.filter fun x => done x.1 && !(s.part p).cleared.contains (s.rankTask p r x.1) &&
      xs.any (fun y => y.1 ≠ x.1 && !done y.1 && y.2.src = x.2.src) && pl.before x.1 (s.baseTask p task)
    due.foldl (fun s x => (s.clearBuffer p r x.2).modPart p fun q => { q with cleared := q.cleared ++ [s.rankTask p r x.1] }) s

/-- Dispatches one kernel; an activation waits for its grant. -/
def dispatch (s : State) (p task g share base : Nat) : State :=
  let s := (s.clearInterval p task).openTask p task
  let s := s.modPart p fun x => if x.tileLeft.any (·.1 = task) then x
    else { x with tileLeft := mput 0 x.tileLeft task (((s.taskOf p task).map kernelsOf).getD 0) }
  if s.wasIdle g then
    (s.modPart p fun x => { x with acts := insertAct { beat := s.bn, task := task, tile := g, share := share, base := base } x.acts }).grantActs p 16
  else s.startKernel p task g share base

/-! ## Transfers (R245, R273) -/

/-- Header of a message of a transfer task to a rank. -/
def taskHead (s : State) (p : Nat) (t : Task) (kind to_ addr token : Nat) : MsgHdr :=
  let next : Bool := natBits t.flags 1 1 = 1
  { dest := s.hostOf p to_, src := s.pos, kind := kind, part := p, attempt := (s.part p).rollbacks % 256, next := next,
    step := s.stepOfTask p t, addr := addr, token := token, task := t.id }

/-- Sends a message of a task, or delivers it inside the module (R273). -/
def sendOrTake (s : State) (h : MsgHdr) (o : Out) (take : State → State) : State :=
  if h.dest = s.pos then take s else s.sendMsg .carmine h o

/-- A destination's bytes in messages of 65,536 bytes and at most one shorter remainder: offset and bytes. -/
def messageCuts (n : Nat) : List (Nat × Nat) :=
  (List.range (ceilDiv n 65536)).map fun i => (65536 * i, min 65536 (n - 65536 * i))

/-- WRITE messages of a plain transfer to one rank; its token goes with the last. -/
def sendBytes (s : State) (p : Nat) (t : Task) (to_ src dst n token : Nat) : State :=
  (messageCuts n).foldl (fun s c =>
    let h := s.taskHead p t 1 to_ (dst + c.1) (if n ≤ c.1 + c.2 then token else 0)
    let b := s.rd (src + c.1) c.2
    s.sendOrTake h (.message .carmine h b) fun s => s.writeDelivered .carmine h b) s

/-- Records of a ROW transfer in pieces that fit a message; a transfer of none is one message without records, which its
arrival token follows (assumption 38). -/
def rowCuts {α : Type} (size : Nat) (l : List α) : List (List α) :=
  let k := max 1 ((65536 - 16) / max 1 size)
  if l.isEmpty then [[]] else (List.range (ceilDiv l.length k)).map fun i => (l.drop (k * i)).take k

/-- ROW messages of one kind to a rank. -/
def sendRows {α : Type} (s : State) (p : Nat) (t : Task) (to_ requester tag sub token size : Nat) (enc : α → List Byte) (l : List α)
    (take : State → List α → State) : State :=
  let cuts := rowCuts size l
  cuts.zipIdx.foldl (fun s c =>
    let h := s.taskHead p t 3 to_ to_ (if c.2 + 1 = cuts.length then token else 0)
    let r : RowHdr := { table := t.table, mb := tag % 65536, rank := requester }
    let b := rowBytes r sub (c.1.map enc)
    s.sendOrTake h (.message .carmine h b) fun s => s.rowDelivered h r fun s => take s c.1) s

/-- Bag entries a requester has for an owner, with segment indices into the keys sent to it (R181, R247). An entry of a
mean table carries its bag's count as its weight, by which the owner divides (R187). -/
def entriesFor (s : State) (p t : Nat) (d : TableDesc) (r tag : Nat) (ks : List Nat) : List BagEntry :=
  ((List.range (s.bagCount p t d r tag)).map fun b =>
    let es := s.ownBag p t d r tag b
    (es.filter fun e => ks.contains e.2.1).map fun e =>
      { bag := b, pos := e.1, seg := ks.idxOf e.2.1,
        weight := if d.pool = 2 then BitVec.ofNat 32 es.length else e.2.2 }).flatten

/-- The index exchange with one owner: its unique keys, then its bag entries. -/
def sendIndices (s : State) (p : Nat) (t : Task) (d : TableDesc) (r tag to_ token : Nat) : State :=
  let own := s.ownedShards p t.table d to_
  let ks := ((s.sortOf p t.table r tag).map (·.uniq)).getD [] |>.filter fun k => own.contains (d.shardOf k)
  let es := s.entriesFor p t.table d r tag ks
  let s := s.sendRows p t to_ r tag 1 (if es = [] then token else 0) 8 keyBytes ks fun s l => s.takeKeys p t.table to_ r tag l
  s.sendRows p t to_ r tag 2 token 16 entryBytes es fun s l => s.takeEntries p t.table to_ r tag l

/-- The pooled return to one requester: the nodes formed for it. -/
def sendNodes (s : State) (p : Nat) (t : Task) (d : TableDesc) (r tag to_ token : Nat) : State :=
  let ns := ((s.tableSt p t.table r).made.filter fun m => m.1 = to_ && m.2.mb = tag).map fun m =>
    ({ bag := m.2.bag, first := m.2.first, j := m.2.j, vals := m.2.vals, tags := m.2.tags } : PartialRec)
  s.sendRows p t to_ to_ tag 3 token (8 + 6 * d.elems + 8) partialBytes ns fun s l => s.takePartials p t.table to_ tag l

/-- The gradients for one owner, of every bag it was sent entries of, from `src` on, one FP32 vector a bag; winner vectors
of a max table with them (R186, R187). -/
def sendGrads (s : State) (p : Nat) (t : Task) (d : TableDesc) (r tag to_ src token : Nat) : State :=
  if d.rule = 0 then s
  else
    let own := s.ownedShards p t.table d to_
    let bags := (List.range (s.bagCount p t.table d r tag)).filter fun b =>
      (s.ownBag p t.table d r tag b).any fun e => own.contains (d.shardOf e.2.1)
    let gs := bags.map fun b => ({ bag := b, vals := words32 (s.rd (src + 4 * d.elems * b) (4 * d.elems)) } : GradRec)
    let ws := if d.pool = 3 then bags.map fun b =>
        ({ bag := b, pos := (((s.tableSt p t.table r).pooled.find? fun v => v.mb = tag && v.bag = b).map (·.winner)).getD [] } : WinRec)
      else []
    let s := s.sendRows p t to_ r tag 4 (if ws = [] then token else 0) (8 + 4 * d.elems + 8) gradBytes gs fun s l =>
      s.takeGrads p t.table to_ r tag l
    s.sendRows p t to_ r tag 5 token (8 + 2 * d.elems + 8) winBytes ws fun s l => s.takeWinners p t.table to_ r tag l

/-- One destination of a transfer task. -/
def transferTo (s : State) (p : Nat) (pl : Plan) (t : Task) (to_ i bytes src dst token : Nat) : State :=
  let r := s.rankOfTask p t.id
  let tag := mbTag (s.stepOfTask p t) t.mb
  match s.tableDesc p t.table, Config.rowTransfer pl.meas (s.baseTask p t.id) with
  | some d, some 1 => s.sendIndices p t d r tag to_ token
  | some d, some 3 => s.sendNodes p t d r tag to_ token
  | some d, some 4 => s.sendGrads p t d r tag to_ src token
  | _, _ => s.sendBytes p t to_ (s.dataAt p r (src + i * bytes)) dst bytes token

/-! ## Ingest delivery (R32, R42, R377) -/

/-- The share a sample belongs to: 32 shares of equal sample count (R51). -/
def shareOf (pl : Plan) (sample : Nat) : Nat := sample * 32 / max 1 ((pl.classes.map (·.mbSize)).getD 1)

/-- Delivers one micro-batch of a rank: dense features to each share's cluster in ascending sample, bags to the tables'
lists. One refused at admission delivers nothing (R49). -/
def deliverMb (s : State) (p : Nat) (pl : Plan) (t : Task) (r n mb : Nat) : State :=
  let x := s.part p
  let ok : Bool := x.ends.any fun e => e.rank = r && e.step = n && e.mb = mb && e.status = some 0
  let all := (x.samples.filter fun v => ok && v.rank = r && v.step = n && v.mb = mb).mergeSort fun a b => a.sample ≤ b.sample
  let s := (List.range 32).foldl (fun s j =>
    let c := s.planCluster p j
    let b := ((all.filter fun v => shareOf pl v.sample = j).map (·.dense)).flatten
    if b = [] then s
    else s.wrBy p t.id ingestMaster (clusterAddr c + Config.shareBase pl.meas (s.baseTask p t.id) j c % 0x200_0000) b) s
  (List.range pl.tables.length).foldl (fun s tb =>
    let es := (all.map fun v => mget [] v.bags tb).flatten
    s.modTableSt p tb r fun q => { q with lists := mput [] q.lists (mbTag n mb) es }) s

/-! ## Tasks the Planner adds -/

/-- `SUMSQ` of a run (R133). -/
def sumSq (l : List W32) : W32 :=
  ((List.range (ceilDiv l.length 128)).map fun i => (l.drop (128 * i)).take 128).foldl
    (fun a g => fadd a (rne32 (groupSum (g.map fun w => (f32v w).mul (f32v w))))) 0

/-- The sum of the squares of a shard by runs of 65,536 elements (R300). -/
def shardSq (l : List W32) (acc : W32) : W32 :=
  ((List.range (ceilDiv l.length 65536)).map fun i => (l.drop (65536 * i)).take 65536).foldl (fun a g => fadd a (sumSq g)) acc

/-- Parameter tensors of a layer, ascending. -/
def layerTensors (pl : Plan) (layer : Nat) : List Nat :=
  (List.range pl.params.tensors.length).filter fun i => (pl.params.tensors[i]?).any fun e => e.kind = 1 && e.layer = layer

/-- A rank's partials of a layer: sum of the squares of the update and of the master (R334). -/
def calPartials (s : State) (p r : Nat) (pl : Plan) (layer : Nat) : W32 × W32 :=
  let q := s.curStep p % 2
  (layerTensors pl layer).foldl (fun a i => match pl.params.tensors[i]? with
    | none => a
    | some e =>
      let n := shardElems e pl.rankCount
      let old := words32 (s.rd (region p (.master r i q)) (4 * n))
      let new := words32 (s.rd (region p (.master r i (1 - q))) (4 * n))
      (shardSq ((new.zip old).map fun v => fsub v.1 v.2) a.1, shardSq old a.2)) (0, 0)

end State

/-- The Planner dispatches a tile kernel (R60); a tile idle in the beat before waits for the ramp limiter's grant (R428). -/
def execTileDispatch (p task g share base : Nat) (s : State) : Res :=
  .next (if s.canDispatch p task g share then s.dispatch p task g share base else s)

/-- A cluster-move task submits its chain to the channel R482 gave it; a frozen channel moves nothing, which is a module
fault (R488). -/
def execClusterMove (p task chain : Nat) (s : State) : Res :=
  .next (match s.placedTask p task with
    | some q =>
      let u := q.units.headD 0
      let c := 8 * s.planCluster p (u / 8) + u % 8
      if !s.stepMoves p ∨ ¬ (s.taskOf p task).any (·.kind = 2) ∨ (s.part p).started.contains task then s
      else
        let s := s.openTask p task
        if (s.cmover c).frozen then s.moduleFault p 0x0C task false
        else s.modCmover c fun m => { m with
          chains := m.chains ++ [{ tile := none, token := 0, part := p, task := task, addr := chain, desc := none, since := none }] }
    | none => s)

/-- A host-move task starts its chain on the mover that stands for its logical one (R482). -/
def execHostMove (p task chain : Nat) (s : State) : Res :=
  .next (match s.placedTask p task with
    | some q =>
      match (s.planMovers p)[q.units.headD 0]? with
      | some h =>
        if !s.stepMoves p ∨ ¬ (s.taskOf p task).any (·.kind = 3) ∨ (s.part p).started.contains task ∨ (s.mover h).chain.isSome then s
        else
          let s := s.openTask p task
          if (s.mover h).frozen then s.moduleFault p 0x0C task false
          else
            let k : Chain :=
              { queue := none, part := p, task := task, addr := BitVec.ofNat 64 chain, desc := none, written := 0, abort := false }
            (s.modMover h fun m => { m with chain := some k }).putF F.DMA_MSTAT_STATE h 1
      | none => s
    | none => s)

/-- A Carmine transfer task sends its messages to every destination (R245, R273). Destination number `i` takes `bytes`
bytes from the `i`-th such piece at `src`; its arrival token follows its last message. The task is done once they have gone
out (R248, assumption 99). -/
def execCarmineTransfer (p task : Nat) (dests : List HostEntry) (bytes src dst token : Nat) (s : State) : Res :=
  .next (match s.plan p, s.taskOf p task with
    | some pl, some t =>
      if !s.stepMoves p ∨ t.kind ≠ 8 ∨ (s.part p).done.contains task ∨ (s.part p).sent.contains task then s
      else
        let s := s.openTask p task
        let s := s.modPart p fun x => { x with sent := x.sent ++ [task] }
        (dests.zipIdx.foldl (fun s d => s.transferTo p pl t d.1.rank d.2 bytes src dst token) s).settleSent.sendCarried p
    | _, _ => s)

/-- An ingest delivery task delivers a micro-batch of its rank (R42, R377). -/
def execIngestDelivery (p task mb : Nat) (s : State) : Res :=
  .next (match s.plan p, s.taskOf p task with
    | some pl, some t =>
      if !s.stepMoves p ∨ t.kind ≠ 0x0B ∨ (s.part p).done.contains task then s
      else
        let s := s.openTask p task
        (s.deliverMb p pl t (s.rankOfTask p task) (s.stepOfTask p t) mb).taskDone p task
    | _, _ => s)

/-- The compare of R161: a block of the compare period's turn that differs from its re-derivation is a module fault. -/
def execWorkingCopyCompare (p tensor block master copy fmt : Nat) (s : State) : Res :=
  .next (match s.plan p with
    | some pl =>
      let k := pl.params.cmpPeriod
      if !s.stepMoves p ∨ k = 0 ∨ block % k ≠ s.curStep p % k ∨ ¬ (pl.params.tensors[tensor]?).any (·.kind = 1) ∨
          s.copyEqual master copy fmt then s
      else s.moduleFaultAt p 4 State.plannerTask false (tensor + 65536 * block)
    | none => s)

/-- Calibration of a layer: the norms of its update and of its masters, from every rank's partials in ascending rank; those
of ranks hosted here are formed from their masters (R334). -/
def execCalibrationTask (p layer : Nat) (u w : List W32) (s : State) : Res :=
  .next (match s.plan p with
    | some pl =>
      if !s.stepMoves p ∨ natBits pl.options 3 3 = 0 ∨ State.layerTensors pl layer = [] ∨
          ¬ (pl.params.layers[layer]?).any (fun l => natBits l.flags 0 0 = 0) then s
      else
        let here := s.ranksHere p
        let parts := (List.range pl.rankCount).map fun r =>
          if here.contains r then s.calPartials p r pl layer else (u.getD r 0, w.getD r 0)
        let un := fsqrt (parts.foldl (fun a v => fadd a v.1) 0)
        let wn := fsqrt (parts.foldl (fun a v => fadd a v.2) 0)
        s.modPart p fun x => { x with calAttempt := (x.calAttempt.filter (·.1 ≠ layer)) ++ [(layer, (un, wn, fdiv un wn))] }
    | none => s)

end Sys2Proof.Machine
end

