-- ==== Sys2Proof/Machine/Placement.lean ====
section
/-! DEFINITION. Placement of pages and shards, and replacement of a table (R191 to R194, R198, R199, R201). -/

namespace Sys2Proof.Machine

/-- Order of pages: ascending (shard, page). -/
def pageBefore (a b : PageRec) : Bool := a.shard < b.shard || (a.shard = b.shard && a.page ≤ b.page)

/-- Pages by descending, and by ascending, load; ties ascending (shard, page). -/
def hotFirst (l : List PageRec) : List PageRec := l.mergeSort fun a b => b.count < a.count || (a.count = b.count && pageBefore a b)
def coldFirst (l : List PageRec) : List PageRec := l.mergeSort fun a b => a.count < b.count || (a.count = b.count && pageBefore a b)

def pageKey (x : PageRec) : Nat × Nat := (x.shard, x.page)

/-- Swaps between the tiers: hot Umber pages with cold HBM pages, while the hot page's load is above twice the other's
(R192). -/
def tierSwaps (pages : List PageRec) : List (PageRec × PageRec) :=
  ((hotFirst (pages.filter (·.home = 8))).zip (coldFirst (pages.filter (·.home < 8)))).takeWhile fun x =>
    2 * x.2.count < x.1.count

/-- Pages with a queued swap's homes exchanged. -/
def swapHomes (pages : List PageRec) (x y : PageRec) : List PageRec := pages.map fun z =>
  if pageKey z = pageKey x then { z with home := y.home } else if pageKey z = pageKey y then { z with home := x.home } else z

/-- Load of a stack. -/
def stackLoad (pages : List PageRec) (k : Nat) : Nat := ((pages.filter (·.home = k)).map (·.count)).foldl (· + ·) 0

/-- The stack first preferred by a test over the loads; ties to the lower number. -/
def stackBest (pages : List PageRec) (better : Nat → Nat → Bool) : Nat :=
  (List.range 8).foldl (fun a k => if better (stackLoad pages k) (stackLoad pages a) then k else a) 0

/-- Swaps between stacks, at most `n` (R192); `used` are the pages of queued swaps. -/
def stackSwaps (margin : Nat) : Nat → List PageRec → List (Nat × Nat) → List (PageRec × PageRec)
  | 0, _, _ => []
  | n + 1, pages, used =>
    let hi := stackBest pages fun a b => b < a
    let lo := stackBest pages fun a b => a < b
    let gap := stackLoad pages hi - stackLoad pages lo
    let total := ((List.range 8).map (stackLoad pages)).foldl (· + ·) 0
    if 8 * 256 * gap ≤ margin * total then []
    else
      let free := pages.filter fun x => !used.contains (pageKey x)
      match (hotFirst (free.filter fun x => x.home = hi && x.count ≤ gap / 2)).head?, (coldFirst (free.filter (·.home = lo))).head? with
      | some x, some y =>
        if x.count ≤ y.count then []
        else (x, y) :: stackSwaps margin n (swapHomes pages x y) (pageKey x :: pageKey y :: used)
      | _, _ => []

namespace State

/-! ## The swap queue (R192, R193) -/

def showSwaps (s : State) (p : Nat) : State := s.putF F.ROW_PLACE_STATUS_QUEUED p (s.part p).swaps.length

/-- The swaps a rank queues for a table; the counters return to 0. -/
def placeTable (s : State) (p t r : Nat) (d : TableDesc) : State :=
  let old := ((s.part p).swaps.filter fun w => w.table = t && w.rank = r)
  let used := (old.map fun w => [w.a, w.b]).flatten
  let all := s.allPages p t d r
  let free := all.filter fun x => !used.contains (pageKey x)
  let tier := if s.flag F.ROW_PLACE_CFG_TIER_EN p then tierSwaps free else []
  -- queued swaps count as applied
  let shown := old.foldl (fun l w => match l.find? (fun x => pageKey x = w.a), l.find? (fun x => pageKey x = w.b) with
    | some x, some y => swapHomes l x y
    | _, _ => l) all
  let after := tier.foldl (fun l x => swapHomes l x.1 x.2) shown
  let taken := used ++ (tier.map fun x => [pageKey x.1, pageKey x.2]).flatten
  let stack := if s.flag F.ROW_PLACE_CFG_STACK_EN p then stackSwaps (s.getF F.ROW_PLACE_CFG_BAL_MARGIN p) all.length after taken else []
  let n := s.curStep p
  let s := s.modPart p fun x => { x with swaps := x.swaps ++ (tier ++ stack).map fun v =>
    { rank := r, table := t, a := pageKey v.1, b := pageKey v.2, since := n, done := 0, now := 0 } }
  (s.allPages p t d r).foldl (fun s x => if x.count = 0 then s else s.setPage p t r { x with count := 0 }) s

/-- Load sums of a rank's shards of a table (R194). -/
def shardLoads (s : State) (p t r : Nat) (d : TableDesc) : List ShardLoad :=
  (s.ownedShards p t d r).map fun sh =>
    let n := (((s.allPages p t d r).filter (·.shard = sh)).map (·.count)).foldl (· + ·) 0
    { rank := r, shard := sh, load := n }

/-- The end of a placement period (R192, R194). -/
def placePeriod (s : State) (p : Nat) : State :=
  let nt := ((s.plan p).map (·.tables.length)).getD 0
  -- R192 does not act on the pages of a rank hosted away from its home (R286)
  let s := ((s.ranksHere p).filter fun r => s.hostOf p r = s.homePos p r).foldl (fun s r => (List.range nt).foldl (fun s t => match s.tableDesc p t with
    | some d =>
      let s := if s.flag F.ROW_PLACE_CFG_SHARD_EN p then s.emit (.loads p t (s.shardLoads p t r d)) else s
      s.placeTable p t r d
    | none => s) s) s
  s.showSwaps p

/-- Where a page of a swap goes in its new home. -/
def newBase (p t home sh pg since : Nat) : Nat := inHome home (region p (.newPage t sh pg (since + 1)))

/-- Copies a page, slots and state, to an address. -/
def copyPage (s : State) (d : TableDesc) (from_ to_ : Nat) : State := s.wr to_ (s.rd from_ d.pageBytes)

/-- One page copy of a swap. The copy that completes it brings the other up to date as well. -/
def swapCopy (s : State) (p : Nat) (w : Swap) : State :=
  match s.tableDesc p w.table with
  | none => s
  | some d =>
    let x := s.pageRec p w.table d w.rank w.a.1 w.a.2
    let y := s.pageRec p w.table d w.rank w.b.1 w.b.2
    let s := s.copyPage d x.base (newBase p w.table y.home x.shard x.page w.since)
    if w.done = 0 then s else s.copyPage d y.base (newBase p w.table x.home y.shard y.page w.since)

/-- Carries out the queue in order, `n` copies at most. -/
def runCopies (s : State) (p : Nat) : Nat → State
  | 0 => s
  | n + 1 =>
    if s.getF F.ROW_PLACE_CFG_MIG_PAGES p ≤ (s.part p).copies then s
    else match (s.part p).swaps.find? (·.done < 2) with
      | none => s
      | some w =>
        let s := s.swapCopy p w
        let s := s.modPart p fun x =>
          let ws := x.swaps.map fun v => if v = w then { v with done := v.done + 1, now := v.now + 1 } else v
          { x with copies := x.copies + 1, swaps := ws }
        runCopies s p n

/-- A step's copies may run: its sparse updates are complete and its commit-exchange window has not begun. -/
def copiesMayRun (s : State) (p : Nat) : Bool :=
  s.stepMoves p && s.getF F.PLN_SPOS_POS p + 64 < (s.part p).stepLen &&
  (s.tasksWhere p fun t => t.kind = 7).all fun t => (s.part p).done.contains t

/-- The pages of a complete swap switch at the commit beat; staged copies of their rows are dropped. -/
def switchSwap (s : State) (p : Nat) (w : Swap) : State :=
  match s.tableDesc p w.table with
  | none => s
  | some d =>
    let x := s.pageRec p w.table d w.rank w.a.1 w.a.2
    let y := s.pageRec p w.table d w.rank w.b.1 w.b.2
    let s := s.setPage p w.table w.rank { x with home := y.home, base := newBase p w.table y.home x.shard x.page w.since }
    let s := s.setPage p w.table w.rank { y with home := x.home, base := newBase p w.table x.home y.shard y.page w.since }
    let s := s.modTableSt p w.table w.rank fun q => { q with
      staged := q.staged.filter fun v => !([w.a, w.b].contains (d.shardOf v.1, d.localOf v.1 / 256)) }
    s.bumpBy F.ROW_PLACE_STATUS_MOVED p 2

def switchSwaps (s : State) (p : Nat) : State :=
  let s := ((s.part p).swaps.filter (·.done = 2)).foldl (fun s w => s.switchSwap p w) s
  (s.modPart p fun x => { x with copies := 0, swaps := (x.swaps.filter (·.done ≠ 2)).map fun w => { w with now := 0 } }).showSwaps p

/-! ## Shard moves (R194) -/

/-- Page records of a shard on its new owner, placed by the initial rule after the HBM pages it has. -/
def movedPages (s : State) (p t : Nat) (d : TableDesc) (lo sh : Nat) : List PageRec :=
  let have_ := ((s.allPages p t d lo).filter (·.home < 8)).length
  (List.range d.shardPages).map fun pg =>
    let home := if have_ + pg < d.hbmPages then (sh + pg) % 8 else 8
    { shard := sh, page := pg, home := home, count := 0, base := newBase p t home sh pg (s.curStep p) }

/-- Sends a page to an address of another rank's host over the Slate class, or copies it there (R194). -/
def sendPage (s : State) (p r : Nat) (b : List Byte) (a : Nat) : State :=
  (messageCuts b.length).foldl (fun s c =>
    let h : MsgHdr := { dest := s.hostOf p r, src := s.pos, kind := 1, part := p, attempt := (s.part p).rollbacks % 256, next := false,
                        step := s.curStep p, addr := a + c.1, token := 0, task := plannerTask }
    let x := (b.drop c.1).take c.2
    if h.dest = s.pos then s.writeDelivered .slate h x else s.sendMsg .slate h (.message .slate h x)) s

/-- Sends pages of a moving shard that meet a test, from its owner, with the default row of shard 0. -/
def sendShard (s : State) (p t : Nat) (d : TableDesc) (m : ShardMove) (want : Nat → Bool) : State :=
  if !(s.ranksHere p).contains m.src_ then s
  else
    let to_ := (s.tableSt p t (s.homeRank p)).moving
    let s := to_.foldl (fun s x =>
      if want x.page then s.sendPage p m.dst_ (s.rd (s.pageRec p t d m.src_ m.shard x.page).base d.pageBytes) x.base else s) s
    if m.shard = 0 then let a := (s.rowAt p t d m.src_ defaultKey).slot; s.sendPage p m.dst_ (s.rd a d.defaultBytes) a else s

/-- The rank of a list of loads that a test prefers; ties to the lower rank. -/
def rankBest (loads : List ShardLoad) (ranks : Nat) (better : Nat → Nat → Bool) : Nat :=
  let sum (r : Nat) : Nat := ((loads.filter (·.rank = r)).map (·.load)).foldl (· + ·) 0
  (List.range ranks).foldl (fun a r => if better (sum r) (sum a) then r else a) 0

/-- The decision every rank takes from the same sums. -/
def decideMove (s : State) (p t : Nat) (d : TableDesc) (loads : List ShardLoad) : State :=
  let ranks := s.planRanks p
  let sum (r : Nat) : Nat := ((loads.filter (·.rank = r)).map (·.load)).foldl (· + ·) 0
  let hi := rankBest loads ranks fun a b => b < a
  let lo := rankBest loads ranks fun a b => a < b
  let gap := sum hi - sum lo
  let total := (loads.map (·.load)).foldl (· + ·) 0
  if ranks * 256 * gap ≤ s.getF F.ROW_PLACE_CFG_SHARD_MARGIN p * total then s
  else
    let cs := (loads.filter fun x => x.rank = hi && 2 * x.load ≤ gap).mergeSort fun a b =>
      b.load < a.load || (a.load = b.load && a.shard ≤ b.shard)
    match cs.head? with
    | none => s
    | some c =>
      let m : ShardMove := { shard := c.shard, src_ := hi, dst_ := lo, ready := false }
      let ps := s.movedPages p t d lo c.shard
      let s := s.modTableSt p t (s.homeRank p) fun q => { q with move := some m, moving := ps }
      s.sendShard p t d m fun _ => true

/-- The pages of a moving shard that the step updated are sent again (R194). -/
def resendShards (s : State) (p : Nat) : State :=
  let h := s.homeRank p
  (List.range (((s.plan p).map (·.tables.length)).getD 0)).foldl (fun s t => match s.tableDesc p t, (s.tableSt p t h).move with
    | some d, some m =>
      -- on the new owner's side nothing is sent; its delta carries the pages to its mirror (R194, R275)
      let hit := ((s.tableSt p t m.src_).rowGrads.filter fun g => g.1 ≠ defaultKey && d.shardOf g.1 = m.shard).map fun g => d.localOf g.1 / 256
      let s := s.sendShard p t d m fun pg => hit.contains pg
      let sent : Bool := (List.range 6).all fun k => (s.port k).txq.all fun v => v.vc / 2 ≠ 1
      s.modTableSt p t h fun q => { q with move := some { m with ready := sent } }
    | _, _ => s) s

/-- A move that is ready takes effect at the commit beat: the new owner has the shard's pages, the old one frees them. -/
def switchMoves (s : State) (p : Nat) : State :=
  let h := s.homeRank p
  (List.range (((s.plan p).map (·.tables.length)).getD 0)).foldl (fun s t => match (s.tableSt p t h).move with
    | some m =>
      if !m.ready then s
      else
        let ps := (s.tableSt p t h).moving
        let s := s.modTableSt p t m.src_ fun q =>
          let ps := q.pages.filter fun x => x.shard ≠ m.shard
          { q with pages := ps, staged := [] }
        let s := s.modTableSt p t m.dst_ fun q => { q with pages := (q.pages.filter fun x => x.shard ≠ m.shard) ++ ps }
        let s := s.modPart p fun x => { x with swaps := x.swaps.filter fun w => !(w.table = t && (w.a.1 = m.shard || w.b.1 = m.shard)) }
        s.modTableSt p t h fun q => { q with
          owners := (q.owners.filter (·.1 ≠ m.shard)) ++ [(m.shard, m.dst_)], move := none, moving := [] }
    | none => s) s

/-! ## Replacement (R198, R199) -/

/-- Bytes of pages in HBM and in the Umber tier. -/
def pagesBytes (d : TableDesc) (ps : List PageRec) : Nat × Nat :=
  let n := (ps.filter (·.home < 8)).length
  (n * d.pageBytes, (ps.length - n) * d.pageBytes)

/-- HBM and Umber bytes that tables, the shards moving to the rank and the replacements of a list take on a rank (R177, R194,
R199). -/
def tableBytes (s : State) (p r : Nat) (pl : Plan) (vs : List Repl) : Nat × Nat :=
  let add (a b : Nat × Nat) : Nat × Nat := (a.1 + b.1, a.2 + b.2)
  let held := pl.tables.zipIdx.foldl (fun a x =>
    let m := s.tableSt p x.2 (s.homeRank p)
    let coming := if m.move.any (·.dst_ = r) then m.moving else []
    let dflt := if s.shardOwner p x.2 x.1 0 = r then x.1.defaultBytes else 0
    add a (add (pagesBytes x.1 (s.allPages p x.2 x.1 r ++ coming)) (dflt, 0))) (0, 0)
  vs.foldl (fun a v => match pl.tables[v.table]? with
    | some d => add a (pagesBytes d (s.replPages p v d r))
    | none => a) held

/-- The second set of pages of a replacement fits the quota on every rank hosted here, beside those of the replacements that are
pending. -/
def replFits (s : State) (p : Nat) (pl : Plan) (v : Repl) : Bool :=
  let site := s.planSite p
  (s.ranksHere p).all fun r =>
    let b := s.tableBytes p r pl ((s.part p).repls ++ [v])
    b.1 ≤ site.hbm && b.2 ≤ site.umb

/-- Copies the image into the new pages: rows of the owned shards in ascending shard and local index, row state at its
initial values. -/
def loadRepl (s : State) (p : Nat) (v : Repl) (d : TableDesc) : State :=
  let h := ((s.plan p).bind fun pl => pl.params.hyps[d.hyp]?).getD (readHyp [] 0)
  let pages := ((s.ranksHere p).map fun r => s.replPages p v d r).flatten.mergeSort pageBefore
  (pages.foldl (fun (a : State × Nat) x =>
    let n := rowsOn d x
    let t := a.1.wipe x.base d.pageBytes
    let t := (t.wr x.base (t.rd a.2 (n * d.slotBytes))).initPage d h x
    (t, a.2 + n * d.slotBytes)) (s, v.addr)).1

/-- The new epoch becomes current (R198, R199). -/
def switchRepl (s : State) (p : Nat) (v : Repl) : State :=
  match s.tableDesc p v.table with
  | none => s
  | some d =>
    let h := ((s.plan p).bind fun pl => pl.params.hyps[d.hyp]?).getD (readHyp [] 0)
    let s := (s.ranksHere p).foldl (fun s r =>
      let ps := s.replPages p v d r
      let s := s.modTableSt p v.table r fun q => { q with epoch := v.epoch, pages := ps, count := 0, p1 := one32, p2 := one32 }
      s.initDefault p v.table r d h) s
    let s := s.wrN (region p .tdesc + 64 * v.table + 0x14) 4 v.epoch
    (s.modPart p fun x => { x with repls := x.repls.filter (· ≠ v), swaps := x.swaps.filter (·.table ≠ v.table) }).putF F.ROW_REPL_STATUS_STATE p 3

/-- Replacements due at the commit of step `n` (R199). -/
def switchRepls (s : State) (p n : Nat) : State :=
  ((s.part p).repls.filter fun v => v.due && v.step = n + 1).foldl (fun s v => s.switchRepl p v) s

/-- The outcome of a write of `GO`: a state, with the replacement if it starts (R199). -/
def startRepl (s : State) (p : Nat) : State :=
  let t := s.getF F.ROW_REPL_CTRL_TABLE p
  let e := s.getF F.ROW_REPL_CTRL_EPOCH p
  let n := s.getF F.ROW_REPL_STEP_STEP p
  let put (k : Nat) : State := s.putF F.ROW_REPL_STATUS_STATE p k
  let v : Repl := { table := t, epoch := e, step := n, addr := s.getF F.ROW_REPL_ADDR_ADDR p, loaded := false, due := false }
  match s.plan p, s.tableDesc p t with
  | some pl, some _ =>
    if e ≤ (s.tableSt p t (s.homeRank p)).epoch ∨ n ≤ s.curStep p + (if (s.part p).active then 1 else 0) ∨
        (s.part p).repls.any (·.table = t) then put 0x12
    else if !s.replFits p pl v then put 0x10
    else (put 1).modPart p fun x => { x with repls := x.repls ++ [v] }
  | _, _ => put 0x12

end State

/-- The commit beat of the last step of a placement period: every rank queues its swaps and resets its counters (R192). -/
def execPlacementPeriod (p : Nat) (s : State) : Res :=
  let x := s.part p
  let n := s.curStep p
  .next (if x.active ∧ x.committed ∧ n ≠ 0 ∧
      n % max 1 (s.getF F.ROW_PLACE_CFG_PERIOD p) = 0 then s.placePeriod p
    else s)

/-- After the step's sparse update: page copies of the swap queue, and the re-sends of moving shards (R193, R194). -/
def execPageCopy (p : Nat) (s : State) : Res :=
  .next (if s.copiesMayRun p then (s.runCopies p (2 * (s.part p).swaps.length)).resendShards p else s)

/-- Every rank's sums of a table have come: the same decision on every rank (R194). -/
def execShardMoveDecision (p table : Nat) (loads : List ShardLoad) (s : State) : Res :=
  .next (match s.tableDesc p table with
    | some d =>
      -- no move starts while a rank is hosted away from its home (R286)
      if s.flag F.ROW_PLACE_CFG_SHARD_EN p ∧ (s.part p).active ∧ (s.part p).hosts.all (fun x => x.2 = s.homePos p x.1) ∧ (s.tableSt p table (s.homeRank p)).move.isNone then
        s.decideMove p table d loads
      else s
    | none => s)

/-- A write of `ROW_REPL_CTRL`; with `GO` a replacement starts or is refused (R199). -/
def execRowReplGo (f : Func) (p : Nat) (v : Word) (s : State) : Res :=
  .next (s.gated f (F.ROW_REPL_CTRL_GO.off p) fun s =>
    let s := s.writeOthers (F.ROW_REPL_CTRL_GO.off p) v
    if getBits v 63 63 = 1 then s.startRepl p else s)

/-- The copy of the replacement begun first is complete (R199). -/
def execReplacementCopyDone (p : Nat) (s : State) : Res :=
  .next (match (s.part p).repls.find? (fun v => !v.loaded) with
    | some v => match s.tableDesc p v.table with
      | some d =>
        ((s.loadRepl p v d).modPart p fun x => { x with repls := x.repls.map fun w => if w = v then { w with loaded := true } else w }).putF
          F.ROW_REPL_STATUS_STATE p 2
      | none => s
    | none => s)

/-- At the origin of step *S* − 1 the modules' states come together: with every one loaded the epoch change is scheduled,
else the new pages are freed (R199). -/
def execReplacementStateExchange (p : Nat) (states : List Nat) (s : State) : Res :=
  .next (match (s.part p).repls.find? fun v => v.step = s.curStep p + 1 && !v.due with
    | some v =>
      if !(s.part p).active then s
      else if v.loaded && states.all (· = 2) then s.modPart p fun x => { x with repls := x.repls.map fun w => if w = v then { w with due := true } else w }
      else (s.modPart p fun x => { x with repls := x.repls.filter (· ≠ v) }).putF F.ROW_REPL_STATUS_STATE p 0x11
    | none => s)

end Sys2Proof.Machine
end

