-- ==== Sys2Proof/Machine/HostMap.lean ====
section
/-! DEFINITION. The hosting map in force (R264, R272, R274, R282 to R287): the hosted schedule, a rank installed from its
mirror, and what a module shows of the ranks it hosts. -/

namespace Sys2Proof.Machine
namespace State

/-! ## The hosted schedule (R272, R283) -/

/-- Beats of a collective under the hosting map (R272). -/
def hostedBeats (s : State) (p : Nat) (c : CollDesc) : Nat :=
  ((List.range 3).foldl (fun (a : Nat × Nat) d =>
    if natBits c.dims d d = 0 then a
    else
      let n := s.ringSize d
      let m := if c.op = 1 then a.2 / n else a.2
      let bytes := if c.op = 3 then ceilDiv c.len 2 else ceilDiv ((n - 1) * m) 2
      let rs := s.stageRoutes p d
      let t := if 2 ≤ n then
          a.1 + ceilDiv (bytes * busiest rs) (portRate false) + lagBeats ((rs.map List.length).foldl max 0)
        else a.1
      (t, if c.op = 2 ∨ c.op = 4 then m * n else m)) (0, c.len)).1

/-- The graph with a copy of every task for the hosted ranks, and with `lead`, for a resume step, the lead-in tasks of the
ranks newly hosted: they come before every lookup and before every other task of the step's copies. -/
def hostedPlan (pl : Plan) (n : Nat) (lead : Bool) : Plan :=
  let b := pl.base n
  let copies := b.tasks.map fun t => { t with id := t.id + n }
  let ids := if lead then leadIns b n else []
  let extra := ids.zipIdx.filterMap fun x => (b.tasks[x.1]?).map fun t =>
    { t with id := 2 * n + x.2, flags := t.flags - 2 }
  let among := b.deps.filterMap fun d =>
    if ids.contains d.pred && ids.contains d.succ then some { d with pred := 2 * n + ids.idxOf d.pred, succ := 2 * n + ids.idxOf d.succ }
    else none
  let later := (b.tasks ++ copies).filter fun t => natBits t.flags 1 1 = 0 && (t.kind = 6 || n ≤ t.id) && t.kind ≠ 0x0A
  let first := (extra.map fun x => later.map fun t => ({ pred := x.id, succ := t.id, lag := 0 } : Dep)).flatten
  { b with tasks := b.tasks ++ copies ++ extra,
           deps := b.deps ++ (b.deps.map fun d => { d with pred := d.pred + n, succ := d.succ + n }) ++ among ++ first }

/-- Places the schedule of the hosting map in force; `lead` for a resume step. -/
def reschedule (s : State) (p : Nat) (lead : Bool) : State :=
  let x := s.part p
  match x.plan with
  | none => s
  | some pl =>
    let e := s.planSite p
    let away := s.anyAway p
    let q := if away then hostedPlan pl x.graph lead else pl.base x.graph
    let (sched, len) := q.schedule e.ring x.movers (if away then s.hostedBeats p else Plan.collBeats e.ring)
    let s := s.modPart p fun x => { x with plan := some q, sched := sched, stepLen := len, resumeStep := lead && away }
    s.showDigest p (scheduleDigest sched len (s.part p).movers)

/-! ## A rank from its mirror (R274, R282, R453) -/

/-- Bytes that a rank's mirror holds of its home's addresses from `a` up. -/
def fromMirror (s : State) (p r a n : Nat) : List Byte := (List.range n).map fun i => s.rd8 (mirrorAddr p r (a + i))

/-- Bytes written into a rank's mirror at its home's addresses. -/
def toMirror (s : State) (p r a : Nat) (b : List Byte) : State :=
  b.zipIdx.foldl (fun s x => s.wr8 (mirrorAddr p r (a + x.2)) x.1) s

/-- Applies a log to a rank's mirror in ascending address order. -/
def applyLog (s : State) (p : Nat) (l : DeltaLog) : State :=
  (l.written.mergeSort fun a b => a.1 ≤ b.1).foldl (fun s x => s.toMirror p l.rank x.1 x.2) s

/-- A rank's committed logs that are not applied yet are applied to its mirror, oldest first: the committed mirror (R277). -/
def applyLogs (s : State) (p r : Nat) : State :=
  let ls := ((s.part p).logs.filter fun l => l.rank = r && l.committed && !l.applied).mergeSort fun a b => a.step ≤ b.step
  (ls.foldl (fun s l => s.applyLog p l) s).modPart p fun x => { x with
    logs := x.logs.filter fun l => !(l.rank = r && l.committed && !l.applied) }

/-- Takes a region of a rank from its mirror. -/
def takeRegion (s : State) (p r a n : Nat) : State := s.wr a (s.fromMirror p r a n)

/-- Where a page of a rank hosted away from its home lies: in the host's Umber tier (R286). -/
def hostedBase (p t sh pg : Nat) : Nat := inHome 8 (region p (.page t sh pg))

/-- Pages of a table from a rank's mirror, by the page map it holds. -/
def takePages (s : State) (p r t : Nat) (d : TableDesc) : State :=
  let own := s.ownedShards p t d r
  let keys := (own.map fun sh => (List.range d.shardPages).map fun pg => (sh, pg)).flatten
  let s := keys.zipIdx.foldl (fun s k =>
    let m := region p (.pageMap t r) + 16 * k.2
    let base := leNat (s.fromMirror p r (m + 8) 8)
    let x : PageRec := { shard := k.1.1, page := k.1.2, home := 8, count := leNat (s.fromMirror p r (m + 4) 4),
                         base := hostedBase p t k.1.1 k.1.2 }
    (s.wr x.base (s.fromMirror p r base d.pageBytes)).setPage p t r x) s
  if own.contains 0 then s.takeRegion p r (s.rowAt p t d r defaultKey).slot d.defaultBytes else s

/-- Carried lookups of step `n` of a rank, from its mirror. -/
def takeCarried (s : State) (p r n : Nat) (pl : Plan) : State :=
  (List.range pl.tables.length).foldl (fun s t => match pl.tables[t]? with
    | some d =>
      if !d.stale then s
      else
        let s := s.takeRegion p r (region p (.work 2 t (65536 * (n % 2)) r)) (carriedBytes [d] pl.classes)
        match pl.classes with
        | some c => if d.pool = 0 then s else
            let vs := s.readCarried p r t n d c
            s.modTableSt p t r fun q => { q with pooled := vs }
        | none => s
    | none => s) s

/-- Dense masters and state of a rank for step `n`, and the records of its committed state. -/
def takeDense (s : State) (p r n : Nat) (pl : Plan) : State :=
  let s := (paramTensors pl).foldl (fun s t => match pl.params.tensors[t]? with
    | some e =>
      let k := shardElems e pl.rankCount
      let s := s.takeRegion p r (region p (.master r t (regionIn pl e n))) (4 * k)
      s.takeRegion p r (region p (.dstate r t (regionIn pl e n))) (dstateBytes pl e)
    | none => s) s
  let s := s.takeRegion p r (region p (.scales r)) (80 * (historyTensors pl).length)
  let s := s.takeRegion p r (region p (.counts r)) (16 * ((paramTensors pl).length + pl.tables.length))
  let s := s.takeRegion p r (region p (.epochs r)) (4 * pl.tables.length)
  let s := s.takeRegion p r (region p (.watchComp r)) (8 + 72 * min 4096 (leNat (s.fromMirror p r (region p (.watchComp r)) 4)))
  s.takeRegion p r (region p (.manifest r)) 128

/-- The module's own records of a rank, from memory. -/
def readRank (s : State) (p r : Nat) : State := (((s.loadScales p r).loadCounts p r).loadEpochs p r).loadWatches p r

/-- What the module keeps of a rank beside memory is dropped. -/
def dropRank (s : State) (p r : Nat) : State :=
  let s := s.modPart p fun x => { x with
    tables := x.tables.filter fun q => q.1 / 4096 ≠ r, scales := x.scales.filter fun q => q.1 / 65536 ≠ r,
    tensorCount := x.tensorCount.filter fun q => q.1 / 65536 ≠ r, hwatches := [],
    samples := x.samples.filter (·.rank ≠ r), ends := x.ends.filter (·.rank ≠ r), slots := x.slots.filter (·.1 ≠ r),
    streams := x.streams.filter (·.rank ≠ r), freed := x.freed.filter (·.1 ≠ r) }
  (s.putF F.WCH_HROOT_ROOT p 0).putF F.WCH_CKPT_HBASE_ADDR p 0

/-- A new host installs a rank for step `n` from its committed mirror (R282). -/
def installRank (s : State) (p r n : Nat) : State :=
  match s.plan p with
  | none => s
  | some pl =>
    let s := (s.applyLogs p r).dropRank p r
    let s := (List.range pl.tables.length).foldl (fun s t => match pl.tables[t]? with
      | some d => s.takePages p r t d
      | none => s) s
    let s := ((s.takeDense p r n pl).readRank p r).takeCarried p r n pl
    let s := s.putF F.WCH_HROOT_ROOT p (s.rdN (region p (.manifest r) + 0x18) 8)
    s.putF F.WCH_CKPT_HBASE_ADDR p (region p (.manifest r))

/-- A hosted rank's committed state for step `n`: each stretch's address at its home, its address here and its bytes. A page
lies at home where the rule of a plan load places it, dense shards and records at their own addresses. -/
def homePlaces (s : State) (p r n : Nat) (pl : Plan) : List (Nat × Nat × Nat) :=
  let at_ (a k : Nat) : Nat × Nat × Nat := (a, a, k)
  ((List.range pl.tables.length).flatMap fun t => match pl.tables[t]? with
    | some d => (s.allPages p t d r).map fun x => ((s.firstPage p t d r x.shard x.page).base, x.base, d.pageBytes)
    | none => []) ++
  ((paramTensors pl).flatMap fun t => match pl.params.tensors[t]? with
    | some e => [at_ (region p (.master r t (regionIn pl e n))) (4 * shardElems e pl.rankCount),
                 at_ (region p (.dstate r t (regionIn pl e n))) (dstateBytes pl e)]
    | none => []) ++
  [at_ (region p (.scales r)) (80 * (historyTensors pl).length),
   at_ (region p (.counts r)) (16 * ((paramTensors pl).length + pl.tables.length)),
   at_ (region p (.epochs r)) (4 * pl.tables.length), at_ (region p (.watchComp r)) (8 + 72 * (s.watchesOf p r).length),
   at_ (region p (.manifest r)) 128]

/-- The host's copy of a rank that returns to its home becomes the rank's mirror base (R287). -/
def copyToMirror (s : State) (p r n : Nat) (pl : Plan) : State :=
  (s.homePlaces p r n pl).foldl (fun s v => s.toMirror p r v.1 (s.rd v.2.1 v.2.2)) s

/-! ## The map (R281, R284, R287, R289) -/

/-- Shows the ranks hosted here, the epoch, the outcome and the mirror of the module's own rank. -/
def showHosting (s : State) (p hepoch mirror : Nat) : State :=
  let h := s.homeRank p
  let here := s.ranksHere p
  let s := (s.putF F.FAB_RANK_HOME 0 h).putF F.FAB_RANK_PVALID 0 (if here.contains h then 1 else 0)
  let s := match here.find? (· ≠ h) with
    | some r => (s.putF F.FAB_RANK_HVALID 0 1).putF F.FAB_RANK_HOSTED 0 r
    | none => (s.putF F.FAB_RANK_HVALID 0 0).putF F.FAB_RANK_HOSTED 0 0
  let s := (s.putF F.FAB_HSTAT_HEPOCH 0 hepoch).putF F.FAB_HSTAT_OUTCOME 0 (if s.anyAway p then 1 else 0)
  s.putF F.FAB_HSTAT_MIRROR 0 mirror

/-- The mirror of the module's own rank after a change of the map: none with its partner rank's home gone, building where
that home has returned, current for a rank that has itself returned (R286, R287). -/
def mirrorAfter (s : State) (p : Nat) (was : List Nat) (before : Nat) : Nat :=
  let h := s.homeRank p
  let v := s.partnerOf p h
  if !s.resilient p then 0
  else if !(s.ranksHere p).contains h ∨ s.hostOf p v ≠ s.homePos p v then 3
  else if !was.contains h then 2
  else if before = 3 then 1 else before

/-- Re-route messages for a newly hosted rank, from both stream ports to every feeder registered for it (R284). -/
def reroutes (s : State) (p r step hepoch : Nat) : State :=
  ((s.part p).feeders.filter (·.rank = r)).foldl (fun s f =>
    (List.range 2).foldl (fun s k => s.frameTo k f.mac 3 p r step false
      (leBytes 4 r ++ leBytes 4 s.pos ++ leBytes 8 step ++ leBytes 4 hepoch ++
        macBytes (s.getF F.STM_PMAC_MAC 0) ++ macBytes (s.getF F.STM_PMAC_MAC 1))) s) s

/-- The entries of a RESUME come into force for step `n`: ranks newly hosted here are installed, ranks that return leave
their copy as their mirror's base, and the schedule of the new map is placed. -/
def applyMap (s : State) (p : Nat) (m : ResumeMsg) (n : Nat) (lead : Bool) : State :=
  let was := s.ranksHere p
  let h := s.homeRank p
  let before := s.getF F.FAB_HSTAT_MIRROR 0
  let s := s.modPart p fun x => { x with
    hosts := (m.entries.filter fun e => e.host ≠ s.homePos p e.rank).map fun e => (e.rank, e.host) }
  let here := s.ranksHere p
  let fresh := here.filter fun r => !was.contains r
  let gone := was.filter fun r => !here.contains r
  let s := gone.foldl (fun s r => match s.plan p with
    | some pl => if s.hostOf p r = s.homePos p r then (s.copyToMirror p r n pl).dropRank p r else s.dropRank p r
    | none => s) s
  let s := fresh.foldl (fun s r =>
    if r = h then s.readRank p r
    else (s.installRank p r n).reroutes p r n m.hepoch) s
  let s := if here.contains h then s.putF F.FAB_HCTRL_CLAIM 0 0 else s
  (s.showHosting p m.hepoch (s.mirrorAfter p was before)).reschedule p lead

end State
end Sys2Proof.Machine
end

