-- ==== Sys2Proof/Machine/Ochre.lean ====
section
/-! DEFINITION. The Ochre engines and OCH-U (R213 to R217, R307 to R310): command frames, the undo journal, completion
records. A command that starts has its whole effect; its record and token come at its completion. -/

namespace Sys2Proof.Machine
namespace State

/-! ## Frames (R214) -/

/-- The 64 bytes of a frame. -/
def frameBytes (f : Frame) : List Byte :=
  leBytes 1 f.opc ++ leBytes 1 f.part ++ leBytes 2 f.table ++ leBytes 4 f.tag ++ leBytes 8 f.opa ++ leBytes 8 f.opb ++
  leBytes 4 f.count ++ leBytes 4 0 ++ leBytes 8 f.token ++ leBytes 8 f.step ++ leBytes 16 0

/-- The frame of 64 bytes; the upper bits of an operand address beside its [47:0] are reserved (R214). -/
def readFrame (b : List Byte) : Frame :=
  { opc := le b 0 1, part := le b 1 1, table := le b 2 2, tag := le b 4 4, opa := le b 8 6, opb := le b 0x10 6,
    count := le b 0x18 4, token := le b 0x20 8, step := le b 0x28 8,
    rsvdZero := le b 0xE 2 = 0 && le b 0x16 2 = 0 && le b 0x1C 4 = 0 && le b 0x30 16 = 0 }

/-- An engine's commands for a partition may start: every unit its accesses go to has a slot of the partition. OCH-U reaches
all controllers, an engine its own stack (R211, R212, R218). -/
def ochSlots (s : State) (e p : Nat) : Bool :=
  if e < 8 then s.hasSlot e p else (List.range 12).all fun c => s.hasSlot (8 + c) p

/-- The controller issues extension traffic to a stack's engine only with the extension enable set; OCH-U needs none
(R213). -/
def ochOn (s : State) (e : Nat) : Bool := 8 ≤ e || (s.unit e).ext

/-! ## Starting and ending a command (R214, R216) -/

/-- A command has started: it will complete with a status and so many entries or sectors done; a refused, frozen or
discarded command gives no token. -/
def ochStart (s : State) (e : Nat) (f : Frame) (status done : Nat) : State :=
  let r : Run := { tag := f.tag, token := if status = 0 ∨ status = 3 then f.token else 0, status := status, done := done,
                   fence := f.opc = 8 }
  s.modOch e f.part fun o => { o with started := o.started ++ [r] }

/-- A reserved opcode or field (R216). -/
def ochRefuse (s : State) (e : Nat) (f : Frame) : State := (s.ochStart e f 1 0).moduleFault f.part 9 (f.tag % 2 ^ 24) false

/-- An access outside the partition's allocation freezes the queue; a running plan stops at the rollback that follows
(R216, R408, R409, R488). -/
def ochFreeze (s : State) (e : Nat) (f : Frame) (write : Bool) (addr done : Nat) : State :=
  let s := (s.ochStart e f 2 done).modOch e f.part fun o => { o with frozen := true }
  let s := s.freezeLog f.part 4 e write addr
  if (s.part f.part).active then s.modPart f.part fun x => { x with stopAtRollback := true } else s

/-- A queue takes a frame: the oldest waiting one starts, a new one starts in an empty queue and waits in any other while
there is room. A frame for a frozen queue is not sent, which is a module fault (R213, R216, R488). With no slot of the
partition nothing starts (R218). -/
def ochFrame (s : State) (e : Nat) (f : Frame) (opc : Nat) (act : State → State) : State :=
  let o := s.och e f.part
  let go (s : State) : State := if f.opc ≠ opc ∨ ¬ f.rsvdZero then s.ochRefuse e f else act s
  if 8 ≤ f.part ∨ ¬ s.ochOn e then s
  else if o.frozen then s.moduleFault f.part 9 (f.tag % 2 ^ 24) false
  else match o.frames with
    | [] => if s.ochSlots e f.part then go s else s.setOch e f.part { o with frames := [f] }
    | g :: rest =>
      if g = f then (if s.ochSlots e f.part then go (s.setOch e f.part { o with frames := rest }) else s)
      else if 256 ≤ o.frames.length then s
      else s.setOch e f.part { o with frames := o.frames ++ [f] }

/-- What a command has done so far: entries or sectors, and the access it was stopped at (write, address). -/
structure Progress where
  st   : State
  done : Nat
  stop : Option (Bool × Nat)

/-- One more entry, unless an earlier one was stopped: the accesses it makes are checked first (R408). -/
def stepEntry (p : Nat) (g : Progress) (accs : List (Nat × Nat × Bool)) (act : State → State) : Progress :=
  match g.stop with
  | some _ => g
  | none =>
    match accs.findSome? fun a => (g.st.firstBad p a.2.2 (a.2.1 / 256 + 2) a.1 a.2.1).map fun b => (a.2.2, b) with
    | some b => { g with stop := some b }
    | none => { g with st := act g.st, done := g.done + 1 }

/-- A command that has done its entries: frozen, met an uncorrectable sector, or complete. -/
def ochEnd (g : Progress) (e : Nat) (f : Frame) (errs : List SectorErr) : State :=
  match g.stop with
  | some (w, a) => (g.st.ochFreeze e f w a g.done).sectorErrors f.part (f.tag % 2 ^ 24) true errs
  | none =>
    (g.st.ochStart e f (if anyUncorrectable errs then 3 else 0) g.done).sectorErrors f.part (f.tag % 2 ^ 24) true errs

/-! ## Contexts (R215) -/

/-- Descriptor and hyperparameters of a table: what `CFG` loaded, else the loaded plan's. -/
def ochCtx (s : State) (e p t : Nat) : Option (TableDesc × HypEnt) :=
  match (s.och e p).ctx.find? (·.1 = t) with
  | some x => some x.2
  | none => match s.plan p with
    | some pl => match pl.tables[t]? with
      | some d => (pl.params.hyps[d.hyp]?).map fun h => (d, h)
      | none => none
    | none => none

/-- The tables of a partition are those of its plan. -/
def tableKnown (s : State) (p t : Nat) : Bool := ((s.plan p).any fun pl => decide (t < pl.tables.length))

/-- An entry of a GATHER, POOL or UPDATE list: row slot address. -/
def entSlot (s : State) (f : Frame) (i : Nat) : Nat := s.rdN (f.opa + 16 * i) 6

/-! ## Lookups (R183, R215, R310) -/

/-- Slot bytes a gather of a step reads: a row the step before has journaled gives its saved slot (R310). -/
def ochSlot (s : State) (e : Nat) (f : Frame) (slot n : Nat) : List Byte :=
  match (s.och e f.part).journal.find? fun j => j.slot = slot && (j.step + 1) % 2 ^ 32 = f.step % 2 ^ 32 with
  | some j => j.slotBytes.take n
  | none => s.rd slot n

/-- `GATHER`: each row's gather sectors, read and written whole (R211, R215). -/
def ochGather (s : State) (e : Nat) (f : Frame) (d : TableDesc) : Progress :=
  let n := 32 * gatherSectors d
  (List.range f.count).foldl (fun (g : Progress) i =>
    let slot := g.st.entSlot f i
    let out := f.opb + 32 * gatherSectors d * i
    stepEntry f.part g [(f.opa + 16 * i, 16, false), (slot, n, false), (out, n, true)] fun s =>
      s.wr out (s.ochSlot e f slot n)) { st := s, done := 0, stop := none }

/-- A POOL command between two entries: the open bag's rows (position, weight, values) and the bags written. -/
structure Pooling where
  g    : Progress
  rows : List (Nat × W32 × List W32)
  bags : Nat

def ochPool (s : State) (e : Nat) (f : Frame) (d : TableDesc) : Progress :=
  let n := gatherBytes d.fmt d.elems
  let vec := d.elems * (if d.pool = 3 then 6 else 4)
  let r := (List.range f.count).foldl (fun (q : Pooling) i =>
    let a := f.opa + 16 * i
    let slot := q.g.st.entSlot f i
    let tag := q.g.st.rdN (a + 12) 4
    let last : Bool := 2 ^ 31 ≤ tag || i + 1 = f.count
    let out := f.opb + vec * q.bags
    let rows := q.rows ++ [(tag % 2 ^ 16, BitVec.ofNat 32 (q.g.st.rdN (a + 8) 4),
      lookupVals d.fmt d.elems (q.g.st.ochSlot e f slot n))]
    let g := stepEntry f.part q.g ([(a, 16, false), (slot, n, false)] ++ if last then [(out, vec, true)] else []) fun s =>
      if last then
        let (vs, ts) := shardPartial d.pool d.elems rows
        s.wr out ((vs.map fun w => leBytes 4 w.toNat).flatten ++ (ts.map (leBytes 2)).flatten)
      else s
    if last then { g := g, rows := [], bags := q.bags + 1 } else { g := g, rows := rows, bags := q.bags })
    { g := { st := s, done := 0, stop := none }, rows := [], bags := 0 }
  r.g

/-! ## Updates and the undo journal (R295 to R298, R306 to R309) -/

/-- The rank and row key of a row slot, by the page that holds it. -/
def rowOfSlot (s : State) (p t : Nat) (d : TableDesc) (slot : Nat) : Option (Nat × Nat) :=
  (s.ranksHere p).findSome? fun r =>
    if s.shardOwner p t d 0 = r ∧ (s.rowAt p t d r defaultKey).slot = slot then some (r, defaultKey)
    else ((s.allPages p t d r).find? fun x => x.base ≤ slot && slot < x.base + 256 * d.slotBytes).map fun x =>
      (r, (256 * x.page + (slot - x.base) / d.slotBytes) * 2 ^ d.shb + x.shard)

/-- Sectors of a record: its header, the slot and the state (R307). -/
def jnlSectorsOf (d : TableDesc) : Nat := 1 + slotSectors d.fmt d.elems + stateSectors d.rule d.elems

/-- Sectors used of a journal's main region, or of its spill region. -/
def jnlUsed (s : State) (e p : Nat) (spilled : Bool) : Nat :=
  (((s.och e p).journal.filter fun j => j.spilled = spilled).map fun j =>
    1 + (j.slotBytes.length + j.stateBytes.length) / 32).foldl (· + ·) 0

/-- Where a record of `n` sectors goes: main region, spill region (true), or nowhere (R309). OCH-U has only the spill
region, and a journal that has begun to spill goes on there. -/
def jnlPlace (s : State) (e p n : Nat) : Option Bool :=
  let cap := ((s.plan p).map (·.params.jnlSectors)).getD 0
  if e < 8 ∧ s.jnlUsed e p true = 0 ∧ s.jnlUsed e p false + n ≤ cap then some false
  else if s.jnlUsed e p true + n ≤ 4 * cap then some true else none

/-- The 32-byte header sector of a record (R307). -/
def jnlHeader (j : JnlRec) : List Byte :=
  leBytes 8 j.slot ++ leBytes 8 j.state ++ leBytes 2 j.table ++ leBytes 2 (j.slotBytes.length / 32) ++
  leBytes 2 (j.stateBytes.length / 32) ++ leBytes 2 (if j.dflt then 1 else 0) ++ leBytes 4 j.step ++ leBytes 4 j.seq

/-- Saved state sectors: those of the row, or the packed sector of row-wise Adagrad. -/
def stateAt (d : TableDesc) (a : Nat) : Nat × Nat := if d.rule = 6 then (a / 32 * 32, 32) else (a, 32 * stateSectors d.rule d.elems)

/-- Appends the record of a row before it is written. -/
def jnlAppend (s : State) (e : Nat) (f : Frame) (d : TableDesc) (slot state : Nat) (dflt spilled : Bool) : State :=
  let (sa, sn) := stateAt d state
  let o := s.och e f.part
  let j : JnlRec :=
    { slot := slot, slotBytes := s.rd slot d.slotBytes, state := sa, stateBytes := s.rd sa sn, table := f.table, dflt := dflt,
      step := f.step % 2 ^ 32, seq := (o.journal.filter fun j => j.step = f.step % 2 ^ 32).length, spilled := spilled }
  let base := region f.part (if spilled then .spill e else .journal e) + 32 * s.jnlUsed e f.part spilled
  let s := s.wr base (jnlHeader j ++ j.slotBytes ++ j.stateBytes)
  s.setOch e f.part { o with journal := o.journal ++ [j] }

/-- FP32 state values of a row. -/
def rowState (s : State) (d : TableDesc) (state : Nat) : List W32 :=
  let n := if d.rule = 6 then 1 else stateVals d.rule * d.elems
  (List.range n).map fun i => BitVec.ofNat 32 (s.rdN (state + 4 * i) 4)

/-- One row takes its update: values by the table's rule, stored in its format; saturations are charged to the table and
the accesses to its page (R191, R297, R298, R330). `row` is its number, `r` its owner. -/
def updateRow (s : State) (f : Frame) (d : TableDesc) (x : UpdCtx) (i slot state r row : Nat) : State :=
  let seed := ((s.plan f.part).map (·.seed.toNat)).getD 0
  let gs := (List.range d.elems).map fun k => BitVec.ofNat 32 (s.rdN (f.opb + 4 * d.elems * i + 4 * k) 4)
  let ws := updateVals d.fmt d.elems (s.rd slot d.slotBytes)
  let (ws, st) := rowRule d.rule x gs ws (s.rowState d state)
  let (bytes, sat) := storeRow d (rowMode d.sr seed f.step f.table row d.elems) ws
  let s := (s.wr slot bytes).wr state (st.map fun w => leBytes 4 w.toNat).flatten
  let s := s.modPart f.part fun q => { q with rowSats := addCount q.rowSats (tableKey f.table r) sat }
  s.countLoad f.part f.table d r row (3 * updateSectors d)

/-- One entry of an UPDATE: the record, then the row. Records that find no room stop the plan (R309); the default row is
updated only if it trains (R190). -/
def updateEntry (s : State) (e : Nat) (f : Frame) (d : TableDesc) (h : HypEnt) (i slot state : Nat) : State :=
  let (r, row, s) := match s.rowOfSlot f.part f.table d slot with
    | some (r, k) => (r, k, s)
    | none => let (v, s) := s.fresh; (s.homeRank f.part, v, s)
  let t := s.tableSt f.part f.table r
  if row = defaultKey ∧ ¬ d.defTrain then s
  else match s.jnlPlace e f.part (jnlSectorsOf d) with
    | none => s
    | some spilled =>
      (s.jnlAppend e f d slot state (row = defaultKey) spilled).updateRow f d (updCtx d.rule h t.count (t.p1, t.p2)) i slot state r row

/-- An UPDATE over its entries, until one finds no room in the journal. -/
def ochUpdate (s : State) (e : Nat) (f : Frame) (d : TableDesc) (h : HypEnt) : Progress × Bool :=
  (List.range f.count).foldl (fun (a : Progress × Bool) i =>
    let s := a.1.st
    let slot := s.entSlot f i
    let state := s.rdN (f.opa + 16 * i + 8) 6
    let (sa, sn) := stateAt d state
    let accs := [(f.opa + 16 * i, 16, false), (f.opb + 4 * d.elems * i, 4 * d.elems, false), (slot, d.slotBytes, true), (sa, sn, true)]
    if a.2 then a
    else if a.1.stop.isNone ∧ (s.jnlPlace e f.part (jnlSectorsOf d)).isNone then (a.1, true)
    else (stepEntry f.part a.1 accs fun s => s.updateEntry e f d h i slot state, false))
    ({ st := s, done := 0, stop := none }, false)

/-- Writes back the saved sectors of the records of a step, the last first, and empties the journal of them (R308). -/
def restoreJournal (s : State) (e : Nat) (f : Frame) : State × Nat :=
  let o := s.och e f.part
  let mine := o.journal.filter fun j => j.step = f.step % 2 ^ 32
  let s := mine.reverse.foldl (fun s j => (s.wr j.slot j.slotBytes).wr j.state j.stateBytes) s
  (s.modOch e f.part fun o => { o with journal := o.journal.filter fun j => j.step ≠ f.step % 2 ^ 32 }, mine.length)

/-- Records of a step are discarded. -/
def releaseJournal (s : State) (e : Nat) (f : Frame) : State × Nat :=
  let n := ((s.och e f.part).journal.filter fun j => j.step = f.step % 2 ^ 32).length
  (s.modOch e f.part fun o => { o with journal := o.journal.filter fun j => j.step ≠ f.step % 2 ^ 32 }, n)

/-! ## Completion (R216, R321) -/

/-- A restore that leaves nothing of the partition in any engine is complete. -/
def settleRestore (s : State) (p : Nat) : State :=
  if !(s.part p).restoring || s.restoreBusy p then s
  else (s.modPart p fun x => { x with restoring := false }).putF F.PLN_COMMIT_STATUS_DSTATE p
    (if (s.part p).waiting then 5 else if (s.part p).rerunBn.isSome then 2 else if (s.part p).rederive ≠ [] then 4 else 0)

/-- Another command of the partition still owes the same Planner token: a task of several commands is done with the
last of them. -/
def tokenOwed (s : State) (q token : Nat) : Bool :=
  2 ^ 63 ≤ token && (List.range 9).any fun e =>
    let o := s.och e q
    o.frames.any (·.token = token) || o.started.any (·.token = token)

/-- The re-stages have come once OCH-U holds none of the partition's copies for the Planner (R16). -/
def settleStage (s : State) (p : Nat) : State :=
  let o := s.och 8 p
  if o.frames.any (fun f => f.opc = 5 && f.tag = plannerTask) || o.started.any (fun r => r.tag = plannerTask && !r.fence) then s
  else s.modPart p fun x => { x with tables := x.tables.map fun q => (q.1, { q.2 with restaging := [] }) }

/-- Takes a started command's record and token. -/
def ochComplete (s : State) (e q : Nat) (r : Run) : State :=
  let s := s.modOch e q fun o => { o with started := o.started.erase r, records := o.records ++ [(r.tag, r.status, r.done)] }
  ((if s.tokenOwed q r.token then s else s.deliver q r.token).settleRestore q).settleStage q

/-- The 16 bytes of a completion record. -/
def recordBytes (r : Nat × Nat × Nat) : List Byte :=
  leBytes 4 r.1 ++ leBytes 1 r.2.1 ++ leBytes 3 0 ++ leBytes 4 r.2.2 ++ leBytes 4 0

end State

/-- `CFG`: the context of a table from the descriptor at `OPA` and the hyperparameter entry after it (R215). -/
def execCfg (e : Nat) (f : Frame) (s : State) : Res :=
  .next (s.ochFrame e f 1 fun s =>
    if !s.tableKnown f.part f.table then s.ochFreeze e f false f.opa 0
    else match s.firstBad f.part false 3 f.opa 128 with
      | some a => s.ochFreeze e f false a 0
      | none =>
        let d := readTable (s.rd f.opa 64) 0
        let h := readHyp (List.replicate 64 0 ++ s.rd (f.opa + 64) 64) 0
        (s.modOch e f.part fun o => { o with ctx := (o.ctx.filter (·.1 ≠ f.table)) ++ [(f.table, (d, h))] }).ochStart e f 0 f.count)

/-- `GATHER`: each row's bytes in list order (R215, R310). -/
def execGather (e : Nat) (f : Frame) (errs : List SectorErr) (s : State) : Res :=
  .next (s.ochFrame e f 2 fun s => match s.ochCtx e f.part f.table with
    | some (d, _) => State.ochEnd (s.ochGather e f d) e f errs
    | none => s.ochFreeze e f false f.opa 0)

/-- `POOL`: one vector per bag, after it for max pooling its position tags (R183, R215). -/
def execPool (e : Nat) (f : Frame) (errs : List SectorErr) (s : State) : Res :=
  .next (s.ochFrame e f 3 fun s => match s.ochCtx e f.part f.table with
    | some (d, _) => State.ochEnd (s.ochPool e f d) e f errs
    | none => s.ochFreeze e f false f.opa 0)

/-- `UPDATE`: the table's rule on each listed row, journaled first (R215, R307, R309). A command that finds both regions
full ends there with a module fault, and the plan stops; the spec gives its record no status (assumption 2). -/
def execUpdate (e : Nat) (f : Frame) (errs : List SectorErr) (s : State) : Res :=
  .next (s.ochFrame e f 4 fun s => match s.ochCtx e f.part f.table with
    | some (d, h) =>
      let (g, full) := s.ochUpdate e f d h
      if full then
        let (v, s) := g.st.fresh
        let s := s.ochStart e { f with token := 0 } (v % 256) g.done
        (s.sectorErrors f.part (f.tag % 2 ^ 24) true errs).moduleFault f.part 0x0A (f.tag % 2 ^ 24) true
      else State.ochEnd g e f errs
    | none => s.ochFreeze e f true f.opa 0)

/-- `COPY`: sectors in ascending order (R215). -/
def execCopy (e : Nat) (f : Frame) (errs : List SectorErr) (s : State) : Res :=
  .next (s.ochFrame e f 5 fun s =>
    let g := (List.range f.count).foldl (fun (g : State.Progress) i =>
      State.stepEntry f.part g [(f.opa + 32 * i, 32, false), (f.opb + 32 * i, 32, true)] fun s =>
        s.wr (f.opb + 32 * i) (s.rd (f.opa + 32 * i) 32)) { st := s, done := 0, stop := none }
    State.ochEnd g e f errs)

/-- `RESTORE`: the undo journal of the step, newest record first (R215, R308). -/
def execRestore (e : Nat) (f : Frame) (s : State) : Res :=
  .next (s.ochFrame e f 6 fun s => let (s, n) := s.restoreJournal e f; s.ochStart e f 0 n)

/-- `RELEASE`: the undo journal of the step is discarded (R215). -/
def execRelease (e : Nat) (f : Frame) (s : State) : Res :=
  .next (s.ochFrame e f 7 fun s => let (s, n) := s.releaseJournal e f; s.ochStart e f 0 n)

/-- `FENCE`: complete once every earlier command of the queue is (R215). -/
def execFence (e : Nat) (f : Frame) (s : State) : Res := .next (s.ochFrame e f 8 fun s => s.ochStart e f 0 0)

/-- A started command completes: its record, then its token. A `FENCE` waits for those before it (R216). -/
def execOchreCommandComplete (e q tag : Nat) (s : State) : Res :=
  .next (match (s.och e q).started.find? (·.tag = tag) with
    | some r => if r.fence ∧ (s.och e q).started.head? ≠ some r then s else s.ochComplete e q r
    | none => s)

/-- A read of the engine aperture: the oldest unread completion record, or 16 bytes of 0xFF (R213). -/
def execCompletionRecordRead (e q : Nat) (s : State) : Res :=
  .next (match (s.och e q).records with
    | r :: rest => (s.modOch e q fun o => { o with records := rest }).emit (.record e q (State.recordBytes r))
    | [] => s.emit (.record e q (List.replicate 16 0xFF)))

end Sys2Proof.Machine
end

