-- ==== Sys2Proof/Machine/Commit.lean ====
section
/-! DEFINITION. Commit (R155, R189, R190, R295, R311 to R324, R328 to R339, R342, R361): the commit exchange, the origin of
a re-run, and what a commit beat makes final. -/

namespace Sys2Proof.Machine

/-- The fault of the smaller (`FAULT_BN`, `ORIGIN`). -/
def earlierFault (a b : CommitReport) : Bool := a.faultBn < b.faultBn || (a.faultBn = b.faultBn && a.origin ≤ b.origin)

/-- Two reports combined (R312). -/
def combineTwo (a b : CommitReport) : CommitReport :=
  let f := if a.status = 0 then b else if b.status = 0 ∨ earlierFault a b then a else b
  { a with count := a.count + b.count, status := max a.status b.status, faultBn := f.faultBn, origin := f.origin,
           cause := f.cause, task := f.task }

/-- Reports combined. -/
def combine (own : CommitReport) (rs : List CommitReport) : CommitReport := rs.foldl combineTwo own

/-- The same fault, whichever stage or member it came by. -/
def sameFault (a b : CommitReport) : Bool :=
  a.status ≠ 0 && b.status ≠ 0 && a.step = b.step && a.faultBn = b.faultBn && a.origin = b.origin && a.cause = b.cause

namespace State

/-! ## The exchange (R311 to R314) -/

/-- Every task of the step that runs here has delivered its token; the exchange itself has none. -/
def stepDone (s : State) (p : Nat) : Bool :=
  (s.tasksWhere p fun t => natBits t.flags 1 1 = 0 && t.kind ≠ 0x0A).all fun t => (s.part p).done.contains t

/-- A module may send its OK report (R276, R312). -/
def mayReport (s : State) (p : Nat) : Bool :=
  let x := s.part p
  s.inCommitWindow p && s.stepMoves p && !x.committed && !x.okSent && !x.restoring && x.rederive = [] &&
  s.getF F.PLN_COMMIT_STATUS_DSTATE p = 0 && s.stepDone p &&
  (!s.resilient p || s.getF F.FAB_HSTAT_MIRROR 0 = 3 || x.mirrorAcked)

/-- Sends a report of this module's own in its stage and keeps it. -/
def ownReport (s : State) (p : Nat) (r : CommitReport) : State :=
  (s.sendReport p r).modPart p fun x => { x with
    okSent := true, sentStage := r.stage, reports := x.reports ++ [{ r with member := s.coord r.stage }] }

/-- The reports of a stage from the other live members, once all have come. -/
def stageReports (s : State) (p d : Nat) : Option (List CommitReport) :=
  (s.ringPeers p d).mapM fun q =>
    (s.part p).reports.find? fun r => r.stage = d && r.member = s.placeOf q d && !r.next && r.status = 0

/-- Goes on through the stages that are complete, `n` at most; after stage Z, with every live module covered, the step is
decided to commit. -/
def advanceStage (s : State) (p : Nat) : Nat → State
  | 0 => s
  | n + 1 =>
    let x := s.part p
    let d := x.sentStage
    match x.reports.find? (fun r => r.stage = d && r.member = s.coord d && !r.next && r.status = 0), s.stageReports p d with
    | some own, some rs =>
      let c := combine own rs
      if d < 2 then advanceStage (s.ownReport p { c with stage := d + 1 }) p n
      else if c.status = 0 ∧ c.count = s.liveCount p ∧ s.getF F.PLN_COMMIT_STATUS_DSTATE p = 0 then
        s.putF F.PLN_COMMIT_STATUS_DSTATE p 1
      else s
    | _, _ => s

/-- Forwards a fault report in the stage it came in and in every later stage (R313). -/
def forwardFault (s : State) (p : Nat) (r : CommitReport) : State :=
  ((List.range 3).filter (r.stage ≤ ·)).foldl (fun s d => s.sendReport p { r with stage := d }) s

/-- A fault report of the next step waits for the commit of this one (R316). -/
def noteNext (s : State) (p : Nat) (r : CommitReport) : State :=
  s.modPart p fun x => { x with
    reports := x.reports ++ [r],
    nextFault := match x.nextFault with
      | some f => if earlierFault f r then some f else some r
      | none => some r }

/-- A report for this step and attempt. A fault report decides rollback; one already held adds nothing. -/
def takeReport (s : State) (p : Nat) (r : CommitReport) : State :=
  if (s.part p).reports.any fun v => sameFault v r || (v.status = 0 && r.status = 0 && v.stage = r.stage && v.member = r.member) then s
  else if r.status ≠ 0 then
    if s.getF F.PLN_COMMIT_STATUS_DSTATE p = 1 then s else (s.forwardFault p r).rollback p r
  else
    let s := s.modPart p fun x => { x with reports := x.reports ++ [r] }
    if (s.part p).okSent then s.advanceStage p 4 else s

/-- A fault report of an attempt whose re-run has begun: one with a smaller `FAULT_BN` than that rollback's is a late fault
(R317); any other is stale (R249). -/
def lateReport (s : State) (p : Nat) (r : CommitReport) : State :=
  if r.status ≠ 0 ∧ r.faultBn < s.getF F.PLN_ROLL_BN_BN p then s.moduleFault p 0x0B State.noTask false
  else s.bump F.FAB_STAT_STALE 0

/-- A verified commit report arrives: it lands in the mailbox, and is taken by its step and attempt (R249, R311, R316). -/
def receiveReport (s : State) (p : Nat) (r : CommitReport) : State :=
  let n := s.curStep p
  let old : Bool := (if r.next then 0 else r.attempt) ≠ s.attemptNow p % 256
  if (!r.next && r.step ≠ n) ∨ (r.next && r.step ≠ n && r.step ≠ n + 1) then s.bump F.FAB_STAT_STALE 0
  else
    let s := s.wr (s.mailboxAt p r) (State.reportBytes r)
    if r.step = n + 1 then
      if r.status = 0 ∨ (s.part p).reports.any (sameFault r) then s else (s.forwardFault p r).noteNext p r
    else if old then s.lateReport p r
    else s.takeReport p r

/-- The report under which a module in doubt rolls the step back (R322). -/
def originReport (s : State) (p : Nat) : CommitReport :=
  { step := s.curStep p, attempt := s.attemptNow p % 256, status := 2, cause := 5, stage := 0, count := 0, faultBn := s.bn,
    origin := s.pos, task := State.noTask, next := false, member := s.coord 0 }

/-! ## The re-run (R317, R319) -/

/-- The re-run of the step in flight begins. -/
def beginRerun (s : State) (p : Nat) : State :=
  let s := s.putF F.PLN_SPOS_POS p 0
  let s := s.putF F.PLN_COMMIT_STATUS_DSTATE p (if (s.part p).restoring ∨ (s.part p).rederive ≠ [] then 4 else 0)
  let s := s.modPart p fun x => { x with
    rerunBn := none, k0 := none, okSent := false, sentStage := 0, reports := [], committed := false }
  (((s.tilesOf p).foldl restoreTile s).mendSectors p).originOf p

/-! ## What commits: counts and scales (R155, R295, R300) -/

/-- Norm of a clip group and whether its tensors are skipped and its factor is below 1.0 (R300). -/
def clipOf (s : State) (pl : Plan) (k : Nat) : Option (W32 × Bool × Bool) :=
  match pl.params.clips[k]?, Config.clipSum pl.meas k with
  | some c, some (i, e) => (pl.ranks.colls[i]?).map fun v =>
      let n := fsqrt (BitVec.ofNat 32 (s.rdN (v.dst + 4 * e) 4))
      let skip : Bool := !isFin n && natBits c.flags 0 0 = 1
      let small : Bool := !skip && !isNan n && ((!isFin n) || (flt 0 c.maxnorm && flt c.maxnorm n))
      (n, skip, small)
  | _, _ => none

/-- A parameter tensor takes no update in the step: its layer is frozen, or its clip group is skipped. -/
def notUpdated (s : State) (pl : Plan) (e : TensorEnt) : Bool :=
  pl.params.frozen e ||
  (e.clip ≠ 0xFFFF && (s.clipOf pl e.clip).any (·.2.1))

/-- Bias powers after a number of updates. -/
def powersAfter (rule : Nat) (h : HypEnt) : Nat → W32 × W32 → W32 × W32
  | 0, q => q
  | n + 1, q => powersAfter rule h n (nextPowers rule h q)

/-- Update counts and bias powers of a rank advance. -/
def advanceCounts (s : State) (p r : Nat) (pl : Plan) : State :=
  let s := (paramTensors pl).foldl (fun s t => match pl.params.tensors[t]? with
    | some e =>
      if s.notUpdated pl e then s
      else
        let u := updatesOf pl e.layer
        let (c, q) := s.tensorCountOf p t r
        let q := powersAfter e.rule ((pl.params.hyps[e.hyp]?).getD (readHyp [] 0)) u q
        s.modPart p fun x => { x with tensorCount := mput (0, one32, one32) x.tensorCount (rankKey t r) (c + u, q) }
    | none => s) s
  (List.range pl.tables.length).foldl (fun s t => match pl.tables[t]? with
    | some d =>
      if d.rule = 0 then s
      else s.modTableSt p t r fun q =>
        let v := nextPowers d.rule ((pl.params.hyps[d.hyp]?).getD (readHyp [] 0)) (q.p1, q.p2)
        { q with count := q.count + 1, p1 := v.1, p2 := v.2 }
    | none => s) s

/-- Scale states take the step (R155). -/
def takeScale (x : ScaleSt) : ScaleSt :=
  { x with hist := (x.amax :: x.hist).take 16, fill := min (x.fill + 1) x.len, cold := x.coldStep, amax := 0 }

def advanceScales (s : State) (p : Nat) : State :=
  let s := s.modPart p fun x => { x with scales := x.scales.map fun q => (q.1, takeScale q.2) }
  if (s.part p).scales.all fun q => q.2.fill = q.2.len then s.putF F.PLN_SCALE_STATUS_WARMUP p 0 else s

/-- Clip groups of the committed step are counted (R300, R326). -/
def commitClips (s : State) (p : Nat) (pl : Plan) : State :=
  (List.range pl.params.clips.length).foldl (fun s k => match s.clipOf pl k with
    | none => s
    | some (n, skip, small) =>
      let s := if k = 0 then s.putF F.PLN_CLIP_STATUS_NORM0 p n.toNat else s
      let s := if skip then s.bump F.PLN_CLIP_STATUS_SKIPPED p else s
      if small then s.bump F.PLN_CLIP_STATUS_CLIPPED p else s) s

/-! ## Rows (R189, R190, R309) -/

/-- Default mappings of a rank's table in a step. -/
def defsOf (s : State) (p t r n : Nat) : Nat :=
  (((s.tableSt p t r).sorted.filter fun o => o.mb / 65536 = n).map (·.defs)).foldl (· + ·) 0

/-- Default counts, the hot-row record and the journals' sizes. -/
def commitRows (s : State) (p n : Nat) (pl : Plan) : State :=
  let s := (s.ranksHere p).foldl (fun s r => (List.range pl.tables.length).foldl (fun s t =>
    let k := s.defsOf p t r n
    let a := region p .defCounts + 8 * t
    if k = 0 then s
    else (s.wrN a 8 (min (s.rdN a 8 + k) (2 ^ 64 - 1))).bumpBy F.ROW_DEF_TOTAL_TOTAL p k) s) s
  let x := s.part p
  let s := s.bumpBy F.ROW_HOT_COUNT_ABOVE p x.hotAbove
  let (len, t, k) := x.hotBest.getD (0, 0, 0)
  let s := ((s.putF F.ROW_HOT_COUNT_LONGEST p (min len (2 ^ 32 - 1))).putF F.ROW_HOT_ROW_TABLE p t).putF F.ROW_HOT_ROW_ROW p k
  let used (e : Nat) : Nat := s.jnlUsed e p false + s.jnlUsed e p true
  let s := s.putF F.ROW_JNL_STATUS_HIGH p (((List.range 9).map used).foldl max 0)
  if (List.range 9).any fun e => (s.och e p).journal.any (·.spilled) then s.bump F.ROW_JNL_STATUS_SPILLS p else s

/-- Each engine with a journal issues `RELEASE` for the step (R315). -/
def releaseAll (s : State) (p n : Nat) : State :=
  (List.range 9).foldl (fun s e =>
    if (s.och e p).journal = [] then s
    else s.modOch e p fun o => { o with frames := o.frames ++
      [{ opc := 7, part := p, table := 0xFFFF, tag := plannerTask, opa := 0, opb := 0, count := 0, token := 2 ^ 63 + plannerTask,
         step := n, rsvdZero := true }] }) s

/-! ## Digests (R337 to R339) -/

/-- A micro-batch of a rank was refused at admission. -/
def mbRefused (s : State) (p r n mb : Nat) : Bool :=
  (s.part p).ends.any fun e => e.rank = r && e.step = n && e.mb = mb && e.status.any (· ≠ 0)

/-- Blocks in digest order: ascending share, then address. -/
def inOrder (bs : List BlockRec) : List BlockRec :=
  bs.mergeSort fun a b => a.share < b.share || (a.share = b.share && a.addr ≤ b.addr)

/-- The last write of each address of a list in the order of writing. -/
def lastWrites (bs : List BlockRec) : List BlockRec :=
  bs.foldr (fun b l => if l.any (·.addr = b.addr) then l else b :: l) []

/-- Final blocks of a gradient tensor in update interval `i`. -/
def intervalBlocks (s : State) (p r t u i : Nat) : List BlockRec :=
  lastWrites ((s.part p).blocks.filter fun b => b.tensor = t && b.rank = r && (u = 0 || b.mb / u = i))

/-- Digest-table entries of one tensor of a rank. -/
def tensorDigests (s : State) (p r n : Nat) (pl : Plan) (t : Nat) (e : TensorEnt) : List Word :=
  let crcOf (bs : List BlockRec) : Word := crc64 ((inOrder bs).map (·.bytes)).flatten
  match e.kind with
  | 2 => (List.range (s.mbCount p).1).map fun mb =>
      if s.mbRefused p r n mb then 0
      else crcOf ((s.part p).blocks.filter fun b => b.tensor = t && b.rank = r && b.mb = mb)
  | 3 =>
    let u := ((pl.params.layers[e.layer]?).map (·.uint)).getD 0
    (List.range (updatesOf pl e.layer)).map fun i =>
      if pl.params.passes pl.options e then 0 else crcOf (s.intervalBlocks p r t u i)
  | _ => [crc64 (s.rd (region p (.master r t (regionIn pl e (n + 1)))) (4 * shardElems e pl.rankCount))]

/-- A rank writes its digest table and forms its root. -/
def commitDigests (s : State) (p r n : Nat) (pl : Plan) : State :=
  let tb := (((List.range pl.params.tensors.length).map fun t => match pl.params.tensors[t]? with
    | some e => (s.tensorDigests p r n pl t e).map fun w => leBytes 8 w.toNat
    | none => []).flatten).flatten
  let a := region p (.digests r (n % 2))
  let s := s.wr a tb
  let home : Bool := r = s.homeRank p
  let root := if home then F.WCH_ROOT_ROOT else F.WCH_HROOT_ROOT
  let s := s.putF root p (crc64 (leBytes 8 (s.getF root p) ++ tb)).toNat
  if home then s.putF F.WCH_DIG_BASE_ADDR p a else s

/-- Root of a rank hosted here. -/
def rootOf (s : State) (p r : Nat) : Word :=
  BitVec.ofNat 64 (s.getF (if r = s.homeRank p then F.WCH_ROOT_ROOT else F.WCH_HROOT_ROOT) p)

/-! ## Watches (R328 to R333) -/

end State

/-- The five counts of R330: elements, zeros, quiet ones, non-finite ones, saturations. -/
structure Counts where
  elems : Nat
  zero : Nat
  quiet : Nat
  nonfin : Nat
  sat : Nat
deriving DecidableEq, Repr

/-- Counts of codes of one format. -/
def countCodes (f : Nat) (cs : List Nat) (sat : Nat) : Counts :=
  let k := cs.map (State.codeClass f)
  { elems := k.length, zero := (k.filter (·.1)).length, quiet := (k.filter (·.2.1)).length, nonfin := (k.filter (·.2.2)).length,
    sat := sat }

/-- Counts of blocks. -/
def countBlocks (bs : List BlockRec) (sat : Nat) : Counts :=
  let sum (f : BlockRec → Nat) : Nat := (bs.map f).foldl (· + ·) 0
  { elems := sum (·.elems), zero := sum (·.zero), quiet := sum (·.quiet), nonfin := sum (·.nonfin), sat := sat }

namespace State

/-- Counts of a PARAMS tensor of a rank. -/
def tensorCounts (s : State) (p r n : Nat) (pl : Plan) (t : Nat) (e : TensorEnt) : Counts :=
  let sat := mget 0 (s.part p).sats (rankKey t r)
  match e.kind with
  | 2 => countBlocks ((s.part p).blocks.filter fun b => b.tensor = t && b.rank = r && !s.mbRefused p r n b.mb) sat
  | 3 =>
    let u := ((pl.params.layers[e.layer]?).map (·.uint)).getD 0
    countBlocks ((List.range (updatesOf pl e.layer)).map fun i => s.intervalBlocks p r t u i).flatten sat
  | _ => countCodes 0 ((words32 (s.rd (region p (.master r t (regionIn pl e (n + 1)))) (4 * shardElems e pl.rankCount))).map (·.toNat)) sat

/-- Counts of a list entry's target, none for an entry that is ignored. -/
def targetCounts (s : State) (p r n : Nat) (pl : Plan) (entry : Word) : Option Counts :=
  let i := getBits entry 15 0
  match getBits entry 19 16 with
  | 1 => (pl.params.tensors[i]?).map fun e => s.tensorCounts p r n pl i e
  | 2 => (pl.tables[i]?).map fun d =>
      countCodes (if d.outBf16 then 1 else 0)
        ((((s.tableSt p i r).pooled.filter fun v => v.got = n && !s.mbRefused p r (v.mb / 65536) (v.mb % 65536)).map fun v =>
          v.vals.map (·.toNat)).flatten)
        (mget 0 (s.part p).poolSats (tableKey i r))
  | 3 => (pl.tables[i]?).map fun _ =>
      countCodes 0 (((s.tableSt p i r).rowGrads.map fun g => g.2.map (·.toNat)).flatten) (mget 0 (s.part p).rowSats (tableKey i r))
  | _ => none

/-- A state record after a committed step, and whether its Pale watch alarms (R331, R333). -/
def nextWatch (s : State) (p n : Nat) (w : WatchRec) (c : Option Counts) : WatchRec × Bool :=
  match c with
  | none => (WatchRec.zero_ w.entry, false)
  | some c =>
    let silent : Bool := 0 < c.elems && c.quiet = c.elems
    let w := { w with elems := c.elems, zero := c.zero, quiet := c.quiet, nonfin := c.nonfin, sat := c.sat,
                      noneCounted := c.elems = 0 }
    let w := if silent then { w with run := min (w.run + 1) (2 ^ 32 - 1) }
      else if c.elems = 0 then w else { w with run := 0, alarm := false }
    let len := let v := getBits w.entry 63 32; if v = 0 then max 1 (s.getF F.WCH_CTRL_PALE_DEF p) else v
    if silent && getBits w.entry 20 20 = 1 && w.run = len && !w.alarm then
      ({ w with alarm := true, alarmStep := n }, true)
    else (w, false)

/-- The watch records of a rank take the step; the indices of the entries that alarm come with them. -/
def commitWatches (s : State) (p r n : Nat) (pl : Plan) : State × List Nat × Bool :=
  let rs := (s.watchesOf p r).map fun w => s.nextWatch p n w (s.targetCounts p r n pl w.entry)
  (s.setWatches p r (rs.map (·.1)), (rs.zipIdx.filter (·.1.2)).map (·.2), rs.any fun v => 0 < v.1.nonfin)

/-- Every rank's watches, then the counters and the interrupt (R332, R333). -/
def allWatches (s : State) (p n : Nat) (pl : Plan) : State :=
  let (s, pale, nf) := (s.ranksHere p).foldl (fun (a : State × List Nat × Bool) r =>
    let (t, l, b) := a.1.commitWatches p r n pl
    (t, a.2.1 ++ l, a.2.2 || b)) (s, [], false)
  let s := if nf then s.bump F.WCH_STATUS_NONFIN p else s
  match pale with
  | [] => s
  | i :: l =>
    ((s.bumpBy F.WCH_STATUS_PALE p (l.length + 1)).putF F.WCH_STATUS_FIRST p (l.foldl min i)).pevt p 0

/-- Calibration records (R335). -/
def commitCal (s : State) (p : Nat) (pl : Plan) : State :=
  if natBits pl.options 3 3 = 0 then s
  else (List.range pl.params.layers.length).foldl (fun s l =>
    let a := region p .calRecs + 16 * l
    match (s.part p).calAttempt.find? (·.1 = l) with
    | some (_, u, w, q) => s.wr a (leBytes 4 u.toNat ++ leBytes 4 w.toNat ++ leBytes 4 q.toNat ++ leBytes 4 1)
    | none => s.wr a (leBytes 16 0)) s

/-! ## Result windows (R361) -/

/-- The window of a queue whose shadow was written in step `n`. -/
def commitWindow (s : State) (q n : Nat) : State :=
  let w := s.queue q
  if w.shadow = [] then s
  else
    let clear (v : Queue) : Queue := { v with shadow := [], shadowTask := 0 }
    if w.wState = 1 ∧ w.wStep ≤ n then
      let len := (w.shadow.map fun b => b.1 + 1).foldl max 0
      let bytes := (List.range len).map fun i => mget 0 w.shadow i
      (s.setQueue q (clear { w with payload := w.shadow.filter fun b => b.2 ≠ 0, wLen := len, wStep := n, wTask := w.shadowTask,
                                    wDigest := crc64 bytes, wState := 2 })).signalQ q
    else if w.wState = 2 then s.setQueue q (clear { w with missed := min (w.missed + 1) 65535 })
    else s.setQueue q (clear w)

/-! ## The commit beat (R315) -/

/-- What is kept of a table for later steps: nothing of a step up to `n`. -/
def afterStep (n : Nat) (q : TableSt) : TableSt :=
  let later (tag : Nat) : Bool := n < tag / 65536
  { q with lists := q.lists.filter fun l => later l.1, sorted := q.sorted.filter fun v => later v.mb,
           recv := q.recv.filter fun v => later v.mb, entries := q.entries.filter fun v => later v.mb, rowGrads := [], reduced := false,
           nodes := q.nodes.filter fun v => later v.mb, made := q.made.filter fun v => later v.2.mb,
           pooled := q.pooled.filter fun v => later v.mb }

/-- Stream bytes of a rank received for steps up to `n`. -/
def bytesUpTo (x : Part) (r n : Nat) : Nat :=
  ((x.streams.filter fun v => v.rank = r && v.step ≤ n).map fun v => (v.frames.map fun f => f.2.length).foldl (· + ·) 0).foldl
    (· + ·) 0

/-- Samples and streams of a committed step are freed (R379). -/
def freeIngest (s : State) (p n : Nat) : State :=
  s.modPart p fun x => { x with
    freed := ((x.streams.map (·.rank)).eraseDups).foldl (fun f r => mput 0 f r (mget 0 f r + bytesUpTo x r n)) x.freed,
    streams := x.streams.filter fun v => n < v.step, samples := x.samples.filter fun v => n < v.step,
    ends := x.ends.filter fun v => n < v.step, slots := x.slots.filter fun v => n < v.2.1 }

/-- Delta logs of step `n` become committed, and the module's own mirror current (R277, R289). -/
def commitDeltas (s : State) (p n : Nat) : State :=
  let s := if s.resilient p ∧ s.getF F.FAB_HSTAT_MIRROR 0 = 1 ∧ (s.part p).mirrorAcked then s.putF F.FAB_HSTAT_MIRROR 0 2 else s
  s.modPart p fun x => { x with logs := x.logs.map fun l => if l.step = n then { l with committed := true } else l }

/-- What the step's work held is empty, and the next step's number stands. -/
def nextStep (s : State) (p n : Nat) : State :=
  let s := s.freeIngest p n
  let s := s.modPart p fun x => { x with
    committed := true, done := [], started := [], sent := [], windows := [], okSent := false, sentStage := 0, reports := [], k0 := none,
    rollbacks := 0, tileFaults := [], prevFaults := [], blocks := [], sats := [], rowSats := [], poolSats := [],
    calAttempt := [], hotBest := none, hotAbove := 0, mirrorAcked := false, deltaSent := 0, carried := [], forceBalOff := false, tileLeft := [], acts := [],
    tables := x.tables.map fun q => (q.1, afterStep n q.2),
    coord := { x.coord with doubts := [] } }
  let s := (s.putF F.PLN_COMMIT_STATUS_ATTEMPT p 0).putF F.PLN_COMMIT_STATUS_DSTATE p 0
  s.putF F.PLN_STEP_STEP p (n + 1)

/-- Step `n` commits: every final change in one beat. -/
def commit (s : State) (p : Nat) : State :=
  match s.plan p with
  | none => s
  | some pl =>
    let n := s.curStep p
    let here := s.ranksHere p
    let nt := List.range pl.tables.length
    let s := s.commitClips p pl
    let s := here.foldl (fun s r => s.commitDigests p r n pl) s
    let s := (s.allWatches p n pl).commitCal p pl
    let s := s.commitRows p n pl
    let s := here.foldl (fun s r => s.advanceCounts p r pl) s
    let s := s.advanceScales p
    let s := s.releaseAll p n
    let s := here.foldl (fun s r => nt.foldl (fun s t => s.restage p t r) s) s
    let s := (((s.switchSwaps p).switchMoves p).switchRepls p n).showSwaps p
    let s := here.foldl (fun s r => s.writeManifest p r (n + 1) (s.rootOf p r)) s
    let s := (List.range 32).foldl (fun s i => s.commitWindow (32 * p + i) n) s
    let s := (s.commitDeltas p n).nextStep p n
    let s := if (s.part p).resumeStep then s.reschedule p false else s
    let s := match (s.part p).pendResume with
      | some m => (s.modPart p fun x => { x with pendResume := none }).applyMap p m (n + 1) false
      | none => s
    let fault := (s.part p).nextFault
    let s := s.modPart p fun x => { x with nextFault := none }
    if (s.part p).stopAfter then s.planStop p 0
    else match fault with
      | some r => s.rollback p r
      | none => s

end State

/-- At position *w*, or once every task is done and the mirror acknowledged, the OK report goes out in stage X (R312). -/
def execCommitReportSend (p : Nat) (s : State) : Res :=
  .next (if s.mayReport p then
      (s.ownReport p { step := s.curStep p, attempt := s.attemptNow p % 256, status := 0, cause := 0, stage := 0, count := 1,
                       faultBn := 0, origin := 0, task := State.noTask, next := false, member := s.coord 0 }).advanceStage p 4
    else s)

/-- A commit report arrives, verified (R238, R312, R313, R316, R317). -/
def execCommitReportReceive (p : Nat) (r : CommitReport) (s : State) : Res :=
  let at_ (d : Nat) : Nat := if d = r.stage then r.member else s.coord d
  let from_ := s.posOf (at_ 0) (at_ 1) (at_ 2)
  let k := s.routeIn from_
  .next (if (s.part p).active ∧ r.stage < 3 ∧ r.member < s.ringSize r.stage ∧ r.member ≠ s.coord r.stage ∧ (6 ≤ k ∨ s.portUp k) then
      (s.arrived .carmine from_ 64).receiveReport p r
    else s)

/-- The BN of the re-run origin comes: position 0 of the re-run (R317, R321). -/
def execRerunOrigin (p : Nat) (s : State) : Res :=
  .next (match (s.part p).rerunBn with
    | some o => if (s.part p).active ∧ ¬ (s.part p).waiting ∧ o ≤ s.bn then s.beginRerun p else s
    | none => s)

/-- The commit beat of a step decided to commit: its last position (R315). -/
def execCommitBeat (p : Nat) (s : State) : Res :=
  let x := s.part p
  .next (if x.active ∧ ¬ x.committed ∧ s.getF F.PLN_COMMIT_STATUS_DSTATE p = 1 ∧
      s.getF F.PLN_SPOS_POS p + 1 = x.stepLen then s.commit p
    else s)

end Sys2Proof.Machine
end

