-- ==== Sys2Proof/Machine/Matrix.lean ====
section
/-! DEFINITION. The M slot: the three multiplies and the accumulator port (R68 to R70, R91 to R96, R151, R158). -/

namespace Sys2Proof.Machine
namespace State

/-- Type a bank has once every instruction issued earlier is done (R70, R484). -/
def bankType (t : Tile) (b : Nat) : Option BankTy :=
  t.pend.foldl (fun ty x => match x.eff with
    | .bank k v => if k = b then v.ty else ty
    | .mult _ k da _ z => if k = b ∧ (z ∨ ty.isNone) then some (if dFmt da = 6 then .int32 else .fp32) else ty
    | _ => ty) (t.bank b).ty

/-- The formats of two operands may meet (R70). -/
def pairOk (fa fb : Nat) : Bool :=
  (isFp8 fa && isFp8 fb) || (fa = fb && (fa = 5 || fa = 6 || fa = 1 || fa = 2))

/-- The operand shapes of a multiply (R69): one block row or one block column each. -/
def shapeOk (m : MulMode) (da db : Desc) : Bool :=
  match m with
  | .mul => dRows da = 1 && dCols db = 1 && dCols da = dRows db
  | .multA => dCols da = 1 && dCols db = 1 && dRows da = dRows db
  | .multB => dRows da = 1 && dRows db = 1 && dCols da = dCols db

/-- An operand of a multiply lies in the Tile Store. -/
def regionIn (d : Desc) : Bool := inTile (dBase d) (regionBytes d)

/-- An integer descriptor of the M slot carries a scale (R70). -/
def intScaled (d : Desc) : Bool := (dFmt d = 6 || dFmt d = 7) && dSexp d ≠ 0

/-- Occupancy of a multiply: 128·k·r (R76). -/
def mulCycles (da : Desc) : Nat := 128 * stripLen da * rate2 (dFmt da) / 2

/-- `DESC` of a multiply (R67, R70). -/
def mulDesc (t : Tile) (w : Word) (m : MulMode) : Bool :=
  let da := t.d (mDA w)
  let db := t.d (mDB w)
  let ty := if dFmt da = 6 then BankTy.int32 else .fp32
  descBad da || descBad db || !pairOk (dFmt da) (dFmt db) || !shapeOk m da db || !regionIn da || !regionIn db ||
  intScaled da || intScaled db || (!mZ w && match bankType t (mAcc w) with
    | some k => k ≠ ty
    | none => false)

/-- What a multiply reads. -/
def mulReads (g now : Nat) (t : Tile) (w : Word) (m : MulMode) : Reads :=
  { sr := [], dr := [mDA w, mDB w], pr := [], br := [], ranges := mulRanges g now m (t.d (mDA w)) (t.d (mDB w)) }

/-- Same addresses in the static plan (R83). -/
def sameBase (t : Tile) (r : Nat) : Bool := dBase (t.d r) = dBase (t.dh r)

/-- A multiply word. -/
def mulWord (s : State) (g : Nat) (w : Word) (m : MulMode) (op : Nat) : State :=
  s.issueWord g w (wSlot w = 0 && wOp w = op && !mRsv w)
    (fun s =>
      let t := s.tile g
      lowest (faultIf (mulDesc t w m) 5) (lowest (faultIf (s.now < t.units.mulFree) 8)
        (lowest (faultIf (bankBusy t.units.portBanks (mAcc w) s.now) 9)
          (lowest (mayVary t w (sameBase t (mDA w) && sameBase t (mDB w)))
            (if mulDesc t w m then none else s.hazardFault g w (mulReads g s.now t w m))))))
    (fun s =>
      let t := s.tile g
      let s := s.noteHazard g w (mulReads g s.now t w m)
      let occ := mulCycles (t.d (mDA w))
      let s := s.inFlight g (occ + 24) (.mult m (mAcc w) (t.d (mDA w)) (t.d (mDB w)) (mZ w))
      s.modTile g fun t => { t with units := { t.units with
        mulFree := s.now + occ, mulBanks := (t.units.mulBanks.filter fun x => s.now < x.2) ++ [(mAcc w, s.now + occ + 24)] } })

/-- One block, FP32 or INT32 for a load. -/
def oneBlock (d : Desc) : Bool := dRows d = 1 && dCols d = 1

/-- A bank may be stored to a format (R70). -/
def storeOk (ty : Option BankTy) (f : Nat) : Bool :=
  match ty with
  | some .int32 => f = 6 || f = 7
  | _ => f ≤ 4

/-- Trailer of a block at a device address, as it stands now (R151). -/
def trailerAt (s : State) (a : Nat) : List Byte := s.rd (a + 16384) 64

/-- `DESC` of `mx.ld`. -/
def ldDesc (t : Tile) (w : Word) : Bool :=
  let d := t.d (mDA w)
  descBad d || !oneBlock d || (dFmt d ≠ 0 && dFmt d ≠ 7) || intScaled d

/-- `DESC` of `mx.st` and `mx.stq`. -/
def stDesc (t : Tile) (w : Word) : Bool :=
  let d := t.d (mDA w)
  descBad d || !oneBlock d || intScaled d || !storeOk (bankType t (mAcc w)) (dFmt d)

/-- Faults of the accumulator port beyond `DESC` (R65, R68). -/
def portFaults (s : State) (g : Nat) (w : Word) : Option Nat :=
  let t := s.tile g
  let d := t.d (mDA w)
  lowest (faultIf (!inLocal (dBase d) (regionBytes d)) 6)
    (lowest (faultIf (s.now < t.units.portFree) 8)
      (lowest (faultIf (bankBusy t.units.mulBanks (mAcc w) s.now) 9) (mayVary t w (sameBase t (mDA w)))))

/-- Marks the accumulator port and its bank busy. -/
def usePort (s : State) (g : Nat) (w : Word) (occ lat : Nat) : State :=
  s.modTile g fun t => { t with units := { t.units with
    portFree := s.now + occ, portBanks := (t.units.portBanks.filter fun x => s.now < x.2) ++ [(mAcc w, s.now + lat)] } }

/-- What a store reads and writes. -/
def storeReads (s : State) (g : Nat) (w : Word) : Reads :=
  let d := (s.tile g).d (mDA w)
  { sr := [], dr := [mDA w], pr := [], br := [mAcc w], ranges := [],
    writes := if dBS d then [(devAddr g (dBase d), 16384, s.now + 72), (devAddr g (dBase d) + 16388, 8, s.now + 72)]
      else [(devAddr g (dBase d), 16384 * elemBytes (dFmt d), s.now + 72)] }

/-- The store of `mx.st` and `mx.stq`: the bytes in flight with what they count, and the conversion or fallback image
they may be (R94, R156 to R158). -/
def storeAct (s : State) (g : Nat) (w : Word) (q : Bool) : State :=
  let t := s.tile g
  let d := t.d (mDA w)
  let a := devAddr g (dBase d)
  let s := s.noteHazard g w (s.storeReads g w)
  let tr := if dBS d then s.trailerAt a else []
  let (ws, sat) := storeBank g d (t.bank (mAcc w)) tr
  let s := ws.foldl (fun s x => s.inFlight g 72 (.mem x.1 x.2)) s
  let s := if q then s.inFlight g 72 (.preg (mPO w) (0 < sat)) else s
  let bytes := (ws.map (·.2)).headD []
  let am := if dBS d then some (amax ((List.range 16384).map fun i => mget 0 (t.bank (mAcc w)).cells i)) else none
  let s := s.inFlight g 72 (.block a (dFmt d) sat (if dBS d then bytes ++ tr.take 2 else bytes) am)
  let s := s.owe g (.bankSat (mAcc w) a)
  let s := if dBS d then s.owe g (.conv a (dFmt d) 80 tr) else s.owe g (.image a (dFmt d) 80)
  s.usePort g w 64 72

/-- A store word. -/
def storeWord (s : State) (g : Nat) (w : Word) (op : Nat) (q : Bool) : State :=
  s.issueWord g w (wSlot w = 0 && wOp w = op && !mRsv w)
    (fun s => lowest (faultIf (stDesc (s.tile g) w) 5) (lowest (s.portFaults g w)
      (s.hazardFault g w (s.storeReads g w))))
    (fun s => s.storeAct g w q)

/-- Reads of `mx.ld`. -/
def ldReads (s : State) (g : Nat) (w : Word) : Reads :=
  { sr := [], dr := [mDA w], pr := [], br := [], ranges := [(devAddr g (dBase ((s.tile g).d (mDA w))), 65536, s.now)] }

end State

/-- `mx.mul`: acc += A·B (R69, R91). -/
def execMxMul (g : Nat) (w : Word) (s : State) : Res := .next (s.mulWord g w .mul 1)

/-- `mx.mult.a`: acc += Aᵀ·B (R69, R91). -/
def execMxMultA (g : Nat) (w : Word) (s : State) : Res := .next (s.mulWord g w .multA 2)

/-- `mx.mult.b`: acc += A·Bᵀ (R69, R91). -/
def execMxMultB (g : Nat) (w : Word) (s : State) : Res := .next (s.mulWord g w .multB 3)

/-- `mx.ld`: the bank takes block `DA`, read at issue (R69, assumption 7). -/
def execMxLd (g : Nat) (w : Word) (s : State) : Res :=
  .next (s.issueWord g w (wSlot w = 0 && wOp w = 4 && !mRsv w)
    (fun s => State.lowest (State.faultIf (State.ldDesc (s.tile g) w) 5) (State.lowest (s.portFaults g w) (s.hazardFault g w (s.ldReads g w))))
    (fun s =>
      let s := s.noteHazard g w (s.ldReads g w)
      (s.inFlight g 72 (.bank (mAcc w) (loadBank s.rd8 g ((s.tile g).d (mDA w))))).usePort g w 64 72))

/-- `mx.st`: block `DA` takes the bank, to nearest even and saturating (R69, R146). -/
def execMxSt (g : Nat) (w : Word) (s : State) : Res := .next (s.storeWord g w 5 false)

/-- `mx.stq`: as `mx.st`, and predicate `PO` tells whether an element saturated (R69). -/
def execMxStq (g : Nat) (w : Word) (s : State) : Res := .next (s.storeWord g w 6 true)

/-- `mx.zero`: the bank becomes +0 of no type (R69, R70). -/
def execMxZero (g : Nat) (w : Word) (s : State) : Res :=
  .next (s.issueWord g w (wSlot w = 0 && wOp w = 7 && !mRsv w)
    (fun s => State.lowest (State.faultIf (s.now < (s.tile g).units.portFree) 8)
      (State.faultIf (State.bankBusy (s.tile g).units.mulBanks (mAcc w) s.now) 9))
    (fun s => (s.inFlight g 2 (.bank (mAcc w) Bank.zero)).usePort g w 1 2))

end Sys2Proof.Machine
end

