-- ==== Sys2Proof/Machine/Vector.lean ====
section
/-! DEFINITION. The V slot: `vc.run` and `vc.cfg` (R71, R112 to R121, R136, R151, R152). -/

namespace Sys2Proof.Machine
namespace State

/-- A descriptor of the vector view that breaks R67 or R71. -/
def viewBad (d : Desc) : Bool := descBad d || lenBad d || !regionIn d

/-- The operation of the last stage is `COUNT`, and is `ARGMAX` or `ARGMIN`. -/
def lastIs (e : List Byte) (ops : List Nat) : Bool := eReduces e && ops.contains (eLast e).op

/-- `DESC` of a `vc.run` (R67, R70, R71, R112, R114, R117, R121, R129, R132). -/
def runDesc (t : Tile) (w : Word) : Bool :=
  let e := mget [] t.chains (vChain w)
  let dd := t.d (vDD w)
  let da := t.d (vDA w)
  let db := t.d (vDB w)
  let dm := t.d (vDM w)
  let n := dLen dd
  e.isEmpty || viewBad dd || viewBad da || (usesB e && viewBad db) || (vMK w && viewBad dm) || dLen da < n ||
  (usesB e && dLen db < readEnd (eBmode e) n (dCols da)) ||
  (vMK w && (dFmt dm ≠ 6 || dLen dm < readEnd (eMmode e) n (dCols da))) ||
  ((holdsOp e 6 [1, 2] || holdsOp e 3 [8, 9]) && dCols da ≠ 1) ||
  (holdsOp e 6 [3, 4, 5] && dRows da ≠ 1) ||
  (dFmt dd = 7 && !lastIs e [6, 7, 8]) || (lastIs e [7, 8] && dFmt dd ≠ 7) || dFmt dd = 6 ||
  (dFmt dd = 7 && dSexp dd ≠ 0) || (dFmt dd = 5 && n % 16384 ≠ 0) ||
  (eReduces e && (eLast e).axis ≠ 0 && n % (16384 * dCols da) ≠ 0)

/-- A fallback image that a source block in fallback form names lies outside the Tile Store, as the trailers stand at
issue (R152). -/
def imageBad (s : State) (g : Nat) (d : Desc) (upto : Nat) : Bool :=
  dBS d && (List.range ((upto + 16383) / 16384)).any fun b =>
    let a := devAddr g (dBase d) + blockOff d b
    0x80 ≤ (s.rd8 (a + 16385)).toNat && !inTile (s.rdN (a + 16396) 4) 32768

/-- `ADDR` of a `vc.run`. -/
def runAddr (s : State) (g : Nat) (w : Word) : Bool :=
  let t := s.tile g
  let e := mget [] t.chains (vChain w)
  let da := t.d (vDA w)
  let n := dLen (t.d (vDD w))
  let k := flagCount e n (dCols da)
  (k ≠ 0 && !inTile (eFlag e) k) || s.imageBad g da n ||
  (usesB e && s.imageBad g (t.d (vDB w)) (readEnd (eBmode e) n (dCols da)))

/-- Latency of a `vc.run` (R76). -/
def runLatency (e : List Byte) (n : Nat) : Nat :=
  (n + 127) / 128 + 4 * eStages e + 10 + (if eReduces e then 12 else 0)

/-- What a `vc.run` reads and writes. -/
def runReads (g now : Nat) (t : Tile) (w : Word) : Reads :=
  let e := mget [] t.chains (vChain w)
  { sr := [], dr := [vDD w, vDA w] ++ (if usesB e then [vDB w] else []) ++ (if vMK w then [vDM w] else []),
    pr := [], br := [],
    ranges := runRanges g now e (t.d (vDD w)) (t.d (vDA w)) (t.d (vDB w)) (t.d (vDM w)) (vMK w),
    writes := runWrites g (now + runLatency e (dLen (t.d (vDD w)))) e (t.d (vDD w)) (t.d (vDA w)) }

/-- Faults of `vc.run`. -/
def runFaults (s : State) (g : Nat) (w : Word) : Option Nat :=
  let t := s.tile g
  let e := mget [] t.chains (vChain w)
  if runDesc t w then some 5
  else lowest (faultIf (s.runAddr g w) 6) (lowest (faultIf (s.now < t.units.vcFree) 8)
    (lowest (mayVary t w (sameBase t (vDD w) && sameBase t (vDA w) && (!usesB e || sameBase t (vDB w)) &&
      (!vMK w || sameBase t (vDM w)))) (s.hazardFault g w (runReads g s.now t w))))

/-- Effect of `vc.run`: the run in flight, the chain busy, and the conversions or fallback images its blocks may be
(R156 to R158). -/
def runAct (s : State) (g : Nat) (w : Word) : State :=
  let t := s.tile g
  let e := mget [] t.chains (vChain w)
  let dd := t.d (vDD w)
  let n := dLen dd
  let s := s.noteHazard g w (runReads g s.now t w)
  let lat := runLatency e n
  let trs := if dBS dd then (List.range ((n + 16383) / 16384)).map fun b =>
      (b, s.trailerAt (devAddr g (dBase dd) + blockOff dd b)) else []
  let s := s.inFlight g lat (.chain e dd (t.d (vDA w)) (t.d (vDB w)) (t.d (vDM w)) (vMK w) trs)
  let s := s.modTile g fun t => { t with units := { t.units with vcFree := s.now + (n + 127) / 128 } }
  (List.range ((n + 16383) / 16384)).foldl (fun s b =>
    let a := devAddr g (dBase dd) + blockOff dd b
    match trs.find? (·.1 = b) with
    | some x => s.owe g (.conv a (dFmt dd) (lat + 8) x.2)
    | none => s.owe g (.image a (dFmt dd) (lat + 8))) s

/-- Faults of `vc.cfg`: the entry is read and checked at issue (R117). -/
def cfgFaults (s : State) (g : Nat) (w : Word) : Option Nat :=
  let t := s.tile g
  let d := t.d (vDA w)
  lowest (faultIf (descBad d || !inTile (dBase d) 256 || entryBad (s.rd (devAddr g (dBase d)) 256)) 5)
    (lowest (faultIf (s.now < t.units.vcFree) 8) (lowest (mayVary t w (sameBase t (vDA w)))
      (s.hazardFault g w { sr := [], dr := [vDA w], pr := [], br := [], ranges := [(devAddr g (dBase d), 256, s.now)] })))

/-- Effect of `vc.cfg`. -/
def cfgAct (s : State) (g : Nat) (w : Word) : State :=
  let d := (s.tile g).d (vDA w)
  let a := devAddr g (dBase d)
  let s := s.noteHazard g w { sr := [], dr := [vDA w], pr := [], br := [], ranges := [(a, 256, s.now)] }
  let s := s.inFlight g 8 (.cfg (vChain w) (s.rd a 256))
  s.modTile g fun t => { t with units := { t.units with vcFree := s.now + 8 } }

end State

/-- `vc.run`: chain `CHAIN` over the vector views of `DA` and `DB` into `DD` (R71, R112). -/
def execVcRun (g : Nat) (w : Word) (s : State) : Res :=
  .next (s.issueWord g w (wSlot w = 1 && wOp w = 1 && !vRsv w) (fun s => s.runFaults g w) (fun s => s.runAct g w))

/-- `vc.cfg`: loads a chain table entry (R71, R117). -/
def execVcCfg (g : Nat) (w : Word) (s : State) : Res :=
  .next (s.issueWord g w (wSlot w = 1 && wOp w = 2 && !vRsv w) (fun s => s.cfgFaults g w) (fun s => s.cfgAct g w))

end Sys2Proof.Machine
end

