-- ==== Sys2Proof/Machine/Scalar.lean ====
section
/-! DEFINITION. Scalar arithmetic, compares and predicate operations, in the X or the C slot alike (R72, R76). -/

namespace Sys2Proof.Machine
namespace State

/-- A scalar word stands in the X or the C slot. -/
def scalarSlot (w : Word) : Bool := wSlot w = 2 || wSlot w = 3

/-- The registers scalar arithmetic reads. -/
def scalarReads (w : Word) : Reads :=
  { sr := if sI w then [sSA w] else [sSA w, sSB w], dr := [], pr := [], br := [], ranges := [] }

/-- The predicates a predicate operation reads, whatever `I` (R72). -/
def predReads (w : Word) : Reads := { sr := [], dr := [], pr := [sSA w, sSB w], br := [], ranges := [] }

/-- sD ← f(sA, b), visible `lat` cycles later (R72, R76). -/
def arithWord (s : State) (g : Nat) (w : Word) (op lat : Nat) (f : Word → Word → Word) : State :=
  s.issueWord g w (scalarSlot w && wOp w = op) (fun s => s.hazardFault g w (scalarReads w))
    (fun s =>
      let t := s.tile g
      let v := f (t.s (sSA w)) (t.opB w)
      (s.noteHazard g w (scalarReads w)).inFlight g lat (.sreg (sSD w) v (shadowOf w v (f (t.sh (sSA w)) (t.opBsh w)))))

/-- pD ← f(sA, b); bits [47:46] are reserved (R72). -/
def cmpWord (s : State) (g : Nat) (w : Word) (op : Nat) (f : Word → Word → Bool) : State :=
  s.issueWord g w (scalarSlot w && wOp w = op && getBits w 47 46 = 0) (fun s => s.hazardFault g w (scalarReads w))
    (fun s =>
      let t := s.tile g
      (s.noteHazard g w (scalarReads w)).inFlight g 1 (.preg (sPD w) (f (t.s (sSA w)) (t.opB w))))

/-- pD ← f(pA, pB); bits [47:46], [42:41] and [37:36] are reserved (R72). -/
def predWord (s : State) (g : Nat) (w : Word) (op : Nat) (f : Bool → Bool → Bool) : State :=
  s.issueWord g w
    (scalarSlot w && wOp w = op && getBits w 47 46 = 0 && getBits w 42 41 = 0 && getBits w 37 36 = 0)
    (fun s => s.hazardFault g w (predReads w))
    (fun s =>
      let t := s.tile g
      (s.noteHazard g w (predReads w)).inFlight g 1 (.preg (sPD w) (f (t.p (sSA w)) (t.p (sSB w)))))

end State

/-- `add`: sD ← sA + b. -/
def execAdd (g : Nat) (w : Word) (s : State) : Res := .next (s.arithWord g w 1 1 fun a b => a + b)

/-- `sub`: sD ← sA - b. -/
def execSub (g : Nat) (w : Word) (s : State) : Res := .next (s.arithWord g w 2 1 fun a b => a - b)

/-- `mul`: sD ← low 64 bits of sA × b. -/
def execMul (g : Nat) (w : Word) (s : State) : Res := .next (s.arithWord g w 3 3 fun a b => a * b)

/-- `and`: sD ← sA and b. -/
def execAnd (g : Nat) (w : Word) (s : State) : Res := .next (s.arithWord g w 4 1 fun a b => a &&& b)

/-- `or`: sD ← sA or b. -/
def execOr (g : Nat) (w : Word) (s : State) : Res := .next (s.arithWord g w 5 1 fun a b => a ||| b)

/-- `xor`: sD ← sA xor b. -/
def execXor (g : Nat) (w : Word) (s : State) : Res := .next (s.arithWord g w 6 1 fun a b => a ^^^ b)

/-- `shl`: sD ← sA shifted left by the low 6 bits of b. -/
def execShl (g : Nat) (w : Word) (s : State) : Res := .next (s.arithWord g w 7 1 fun a b => a <<< (b.toNat % 64))

/-- `shr`: sD ← sA shifted right, logical. -/
def execShr (g : Nat) (w : Word) (s : State) : Res := .next (s.arithWord g w 8 1 fun a b => a >>> (b.toNat % 64))

/-- `sra`: sD ← sA shifted right, arithmetic. -/
def execSra (g : Nat) (w : Word) (s : State) : Res := .next (s.arithWord g w 9 1 fun a b => a.sshiftRight (b.toNat % 64))

/-- `min`: sD ← signed minimum. -/
def execMin (g : Nat) (w : Word) (s : State) : Res := .next (s.arithWord g w 10 1 fun a b => if a.slt b then a else b)

/-- `max`: sD ← signed maximum. -/
def execMax (g : Nat) (w : Word) (s : State) : Res := .next (s.arithWord g w 11 1 fun a b => if a.slt b then b else a)

/-- `cmp.eq`: pD ← sA = b. -/
def execCmpEq (g : Nat) (w : Word) (s : State) : Res := .next (s.cmpWord g w 12 cmpEqF)

/-- `cmp.ne`: pD ← sA ≠ b. -/
def execCmpNe (g : Nat) (w : Word) (s : State) : Res := .next (s.cmpWord g w 13 cmpNeF)

/-- `cmp.lt`: pD ← sA < b, signed. -/
def execCmpLt (g : Nat) (w : Word) (s : State) : Res := .next (s.cmpWord g w 14 cmpLtF)

/-- `cmp.ltu`: pD ← sA < b, unsigned. -/
def execCmpLtu (g : Nat) (w : Word) (s : State) : Res := .next (s.cmpWord g w 15 cmpLtuF)

/-- `pand`: pD ← pA and pB. -/
def execPand (g : Nat) (w : Word) (s : State) : Res := .next (s.predWord g w 16 fun x y => x && y)

/-- `por`: pD ← pA or pB. -/
def execPor (g : Nat) (w : Word) (s : State) : Res := .next (s.predWord g w 17 fun x y => x || y)

/-- `pxor`: pD ← pA xor pB. -/
def execPxor (g : Nat) (w : Word) (s : State) : Res := .next (s.predWord g w 18 fun x y => x != y)

end Sys2Proof.Machine
end

