-- ==== Sys2Proof/Machine/MemMove.lean ====
section
/-! DEFINITION. The X slot's memory and move words (R65, R73, R76, R80, R83). -/

namespace Sys2Proof.Machine
namespace State

/-- Extra cycles of a Cluster Store access (R76). -/
def storeLat (a lat : Nat) : Nat := if a < 0x10_0000 then lat else lat + 20

/-- Same effective address in the static plan (R83). -/
def sameEa (t : Tile) (w : Word) : Bool := t.ea w = t.eaSh w

/-- Registers and bytes a load of `n` bytes reads. -/
def loadReads (g now n : Nat) (t : Tile) (w : Word) : Reads :=
  { sr := [xSA w], dr := [], pr := [], br := [], ranges := [(devAddr g (t.ea w), n, now)] }

/-- What `xs.st` reads and writes. -/
def stReads (g now : Nat) (t : Tile) (w : Word) : Reads :=
  { sr := [xSA w, xSD w], dr := [], pr := [], br := [], ranges := [],
    writes := [(devAddr g (t.ea w), 8, now + storeLat (t.ea w) 4)] }

/-- What `xd.st` reads and writes. -/
def dstReads (g now : Nat) (t : Tile) (w : Word) : Reads :=
  { sr := [xSA w], dr := [xDD w], pr := [], br := [], ranges := [],
    writes := [(devAddr g (t.ea w), 16, now + storeLat (t.ea w) 5)] }

/-- A memory word of `n` bytes at the effective address: `ADDR` outside the windows or misaligned (R65). -/
def memWord (s : State) (g : Nat) (w : Word) (op n : Nat) (rs : Tile → Nat → Reads) (act : State → State) : State :=
  s.issueWord g w (wSlot w = 2 && wOp w = op)
    (fun s =>
      let t := s.tile g
      lowest (faultIf (!inLocal (t.ea w) n || t.ea w % n ≠ 0) 6)
        (lowest (mayVary t w (sameEa t w)) (s.hazardFault g w (rs t s.now))))
    (fun s => act (s.noteHazard g w (rs (s.tile g) s.now)))

/-- `DESC` of `xm.copy`: formats and block counts must match, and so the bytes of a block. -/
def copyDesc (a b : Desc) : Bool :=
  descBad a || descBad b || dFmt a ≠ dFmt b || dCols a ≠ dCols b || dRows a ≠ dRows b || pitch a ≠ pitch b

/-- Bytes `xm.copy` moves. -/
def copyBytes (d : Desc) : Nat := dRows d * dCols d * pitch d

/-- What `xm.copy` reads and writes. -/
def copyReads (g now : Nat) (t : Tile) (w : Word) : Reads :=
  let d := t.d (xDS w)
  let o := t.d (xDD w)
  { sr := [], dr := [xDD w, xDS w], pr := [], br := [],
    ranges := (List.range (dRows d)).map fun r => (devAddr g (dBase d + 64 * r * dStride d), dCols d * pitch d, now),
    writes := (List.range (dRows d)).map fun r =>
      (devAddr g (dBase o + 64 * r * dStride o), dCols d * pitch d, now + (copyBytes d + 255) / 256 + 20) }

/-- Effect of `xm.copy`: every block row of `DS` as read at issue (assumption 7), in flight to `DD`. -/
def copyAct (s : State) (g : Nat) (w : Word) : State :=
  let t := s.tile g
  let dd := t.d (xDD w)
  let ds := t.d (xDS w)
  let s := s.noteHazard g w (copyReads g s.now t w)
  let occ := (copyBytes ds + 255) / 256
  let s := (List.range (dRows ds)).foldl (fun s r =>
    s.inFlight g (occ + 20) (.mem (devAddr g (dBase dd + 64 * r * dStride dd))
      (s.rd (devAddr g (dBase ds + 64 * r * dStride ds)) (dCols ds * pitch ds)))) s
  s.modTile g fun t => { t with units := { t.units with copyFree := s.now + occ } }

end State

/-- `xs.ld`: sD ← 8 bytes at the effective address. -/
def execXsLd (g : Nat) (w : Word) (s : State) : Res :=
  .next (s.memWord g w 0x20 8 (fun t now => State.loadReads g now 8 t w) fun s =>
    let a := (s.tile g).ea w
    let v := BitVec.ofNat 64 (s.rdN (devAddr g a) 8)
    s.inFlight g (State.storeLat a 4) (.sreg (xSD w) v v))

/-- `xs.st`: 8 bytes at the effective address ← sD. -/
def execXsSt (g : Nat) (w : Word) (s : State) : Res :=
  .next (s.memWord g w 0x21 8 (fun t now => State.stReads g now t w) fun s =>
    let t := s.tile g
    s.inFlight g (State.storeLat (t.ea w) 4) (.mem (devAddr g (t.ea w)) (leBytes 8 (t.s (xSD w)).toNat)))

/-- `xd.set`: dD ← {s(`SD`), sA}. -/
def execXdSet (g : Nat) (w : Word) (s : State) : Res :=
  let rs : State.Reads := { sr := [xSA w, xSD w], dr := [], pr := [], br := [], ranges := [] }
  .next (s.issueWord g w (wSlot w = 2 && wOp w = 0x22) (fun s => s.hazardFault g w rs) fun s =>
    let t := s.tile g
    let v : Desc := t.s (xSD w) ++ t.s (xSA w)
    (s.noteHazard g w rs).inFlight g 2 (.dreg (xDD w) v (State.shadowOf w v (t.sh (xSD w) ++ t.sh (xSA w)))))

/-- `xd.ld`: dD ← 16 bytes at the effective address. -/
def execXdLd (g : Nat) (w : Word) (s : State) : Res :=
  .next (s.memWord g w 0x23 16 (fun t now => State.loadReads g now 16 t w) fun s =>
    let a := (s.tile g).ea w
    let v : Desc := BitVec.ofNat 128 (s.rdN (devAddr g a) 16)
    s.inFlight g (State.storeLat a 5) (.dreg (xDD w) v v))

/-- `xd.st`: 16 bytes at the effective address ← dD. -/
def execXdSt (g : Nat) (w : Word) (s : State) : Res :=
  .next (s.memWord g w 0x24 16 (fun t now => State.dstReads g now t w) fun s =>
    let t := s.tile g
    s.inFlight g (State.storeLat (t.ea w) 5) (.mem (devAddr g (t.ea w)) (leBytes 16 (t.d (xDD w)).toNat)))

/-- `xm.copy`: region `DD` ← region `DS`. -/
def execXmCopy (g : Nat) (w : Word) (s : State) : Res :=
  .next (s.issueWord g w (wSlot w = 2 && wOp w = 0x25)
    (fun s =>
      let t := s.tile g
      let dd := t.d (xDD w)
      let ds := t.d (xDS w)
      if State.copyDesc dd ds then some 5
      else State.lowest (State.faultIf (!inLocal (dBase dd) (regionBytes dd) || !inLocal (dBase ds) (regionBytes ds)) 6)
        (State.lowest (State.faultIf (s.now < t.units.copyFree) 8)
          (State.lowest (State.mayVary t w (State.sameBase t (xDD w) && State.sameBase t (xDS w)))
            (s.hazardFault g w (State.copyReads g s.now t w)))))
    (fun s => s.copyAct g w))

/-- `xm.dma`: submits the descriptor at the effective address, in the Tile Store, to channel `CH` with token `TK`; the
descriptor is a multiple of 64 bytes (R364). -/
def execXmDma (g : Nat) (w : Word) (s : State) : Res :=
  let rs : State.Reads := { sr := [xSA w], dr := [], pr := [], br := [], ranges := [] }
  .next (s.issueWord g w (wSlot w = 2 && wOp w = 0x26)
    (fun s =>
      let t := s.tile g
      State.lowest (State.faultIf (!inTile (t.ea w) 64 || t.ea w % 64 ≠ 0) 6)
        (State.lowest (State.mayVary t w (State.sameEa t w)) (s.hazardFault g w rs)))
    (fun s =>
      let t := s.tile g
      (s.noteHazard g w rs).inFlight g 1
        (.dma (xCH w) (xTK w) (devAddr g (t.ea w)) t.pc (s.getF F.TIL_STATUS_TASK g))))

end Sys2Proof.Machine
end

