-- ==== Sys2Proof/Machine/Control.lean ====
section
/-! DEFINITION. The C slot's control words: branches, loops, waits, arrivals and the end of a kernel (R74 to R79,
R82), and the release of weight versions (R104). -/

namespace Sys2Proof.Machine
namespace State

/-- What a control word reads: sA unless `IMM` takes its place. -/
def ctlReads (r : Option Nat) : Reads := { sr := r.toList, dr := [], pr := [], br := [], ranges := [] }

/-- A control word. A word without `E` is followed by a word of the same bundle, which breaks the slot order (R56), so
that only the last word of a bundle has its effect. -/
def ctlWord (s : State) (g : Nat) (w : Word) (op : Nat) (ok : Bool) (r : Option Nat) (dyn : State → Option Nat)
    (act : State → State) : State :=
  s.issueWord g w (wSlot w = 3 && wOp w = op && ok) (fun s => lowest (dyn s) (s.hazardFault g w (ctlReads r)))
    (fun s =>
      let s := s.noteHazard g w (ctlReads r)
      if wE w then act s else s)

/-- Word index a branch from a word goes to. -/
def branchTarget (pc : Nat) (w : Word) : Int := pc + signed 32 (cImm w)

/-- An issue time for the next bundle. -/
def nextAt (s : State) (g c : Nat) : State := s.modTile g fun t => { t with nextIssue := c }

/-- The sequencer waits (R77, R78, R88). -/
def startWait (s : State) (g : Nat) (x : Wait) : State :=
  (s.putF F.TIL_STATUS_STATE g 2).modTile g fun t => { t with wait := some x }

/-- The sequencer issues again from cycle `c`. -/
def endWait (s : State) (g c : Nat) : State :=
  (s.putF F.TIL_STATUS_STATE g 1).modTile g fun t => { t with wait := none, nextIssue := c }

/-- The position a beat wait waits for: sA + `IMM`, or `IMM` (R74). -/
def waitTarget (t : Tile) (w : Word) : Nat :=
  if cI w then cImm w else (t.s (cSA w) + BitVec.ofNat 64 (cImm w)).toNat

/-- A beat wait (R77). -/
def beatWait (s : State) (g target : Nat) : State :=
  let p := s.tilePart g
  let pos := s.getF F.PLN_SPOS_POS p
  if pos < target then s.startWait g (.beat target s.bn)
  else if pos = target ∧ ¬ (s.part p).heldNow ∧ s.now < s.beatStart + 2 then s.nextAt g (s.beatStart + 2)
  else (s.bump F.TIL_STATUS_LATE_WAITS g).nextAt g (s.now + 1)

/-- The token address in a word's sA is none of this partition (R75). -/
def tokenBad (s : State) (g a : Nat) : Bool :=
  match tokenOf a with
  | some (h, _) => !s.hasCluster (s.tilePart g) (h / 8)
  | none => true

/-- The cycle in which every write issued so far is visible (R79). -/
def allVisible (s : State) (g : Nat) : Nat :=
  (s.tile g).pend.foldl (fun m x => max m x.vis) (s.now + 1)

/-- Arms the increment of a token (R79). -/
def arm (s : State) (g token : Nat) : State :=
  let c := s.allVisible g
  s.modTile g fun t => { t with arrives := t.arrives ++ [{ at_ := c, token := token }] }

/-- The kernel ends: the tile is idle, and the task is complete with its last tile (R82). -/
def haltTile (s : State) (g : Nat) : State :=
  let p := s.tilePart g
  let task := s.getF F.TIL_STATUS_TASK g
  let s := (s.putF F.TIL_STATUS_STATE g 0).modTile g fun t => { t with lastBusy := some s.bn, loops := [], shadowOn := false }
  let left := mget 0 (s.part p).tileLeft task
  if left = 0 then s
  else
    let s := s.modPart p fun x => { x with tileLeft := mput 0 x.tileLeft task (left - 1) }
    if left = 1 then (s.stashDone p task).taskDone p task else s

end State

/-- `cs.br`: continues at PC + `IMM`; the next bundle issues 3 cycles later. -/
def execCsBr (g : Nat) (w : Word) (s : State) : Res :=
  .next (s.ctlWord g w 0x20 true none
    (fun s =>
      let j := State.branchTarget (s.tile g).pc w
      State.faultIf (j < 0 || 16383 < j) 3)
    (fun s => (s.modTile g fun t => { t with jump := some (State.branchTarget t.pc w).toNat }).nextAt g (s.now + 3)))

/-- Count of `cs.loop`. -/
def loopCount (t : Tile) (w : Word) : Nat := if cI w then cImm w % 2 ^ 16 else (t.s (cSA w)).toNat % 2 ^ 32

/-- `cs.loop`: repeats the body, from the next bundle through the one that holds the end word, `COUNT` times; a count
of 0 goes to the bundle after the body, 3 cycles later. An end offset of 0 lies before the body: `ISTORE`
(assumption 8). -/
def execCsLoop (g : Nat) (w : Word) (s : State) : Res :=
  .next (s.ctlWord g w 0x21 true (if cI w then none else some (cSA w))
    (fun s =>
      let t := s.tile g
      let off := cImm w / 2 ^ 16
      State.lowest (State.faultIf (off = 0 || 16383 < t.pc + off) 3)
        (State.faultIf (loopCount t w ≠ 0 && 4 ≤ t.loops.length) 4))
    (fun s =>
      let t := s.tile g
      let stop := t.pc + cImm w / 2 ^ 16
      if loopCount t w = 0 then
        (s.modTile g fun t => { t with jump := some (s.bundleEnd g 16384 stop) }).nextAt g (s.now + 3)
      else s.modTile g fun t => { t with loops := { start := t.pc + 1, stop := stop, left := loopCount t w } :: t.loops }))

/-- `cs.wait.beat`: waits for the schedule position (R77). -/
def execCsWaitBeat (g : Nat) (w : Word) (s : State) : Res :=
  .next (s.ctlWord g w 0x22 true (if cI w then none else some (cSA w)) (fun _ => none)
    (fun s => s.beatWait g (State.waitTarget (s.tile g) w)))

/-- `cs.wait.tok`: waits for a token counter (R78). In a reassigned share the source differs from the static plan's
(R83). -/
def execCsWaitTok (g : Nat) (w : Word) (s : State) : Res :=
  .next (s.ctlWord g w 0x23 true none
    (fun s => State.mayVary (s.tile g) w (g / 8 = (s.tile g).staticCluster))
    (fun s =>
      if tokReached ((s.tile g).tok (cTK w)) (cImm w) then (s.waited g (cTK w)).nextAt g (s.now + 1)
      else s.startWait g (.tok (cTK w) (cImm w % 2 ^ 16) s.bn)))

/-- `cs.wait.cyc`: the next bundle issues `IMM` cycles after this one, 1 to 1,048,576. -/
def execCsWaitCyc (g : Nat) (w : Word) (s : State) : Res :=
  .next (s.ctlWord g w 0x24 (1 ≤ cImm w && cImm w ≤ 1048576) none (fun _ => none)
    (fun s => (s.modTile g fun t => { t with wait := some (.cyc (s.now + cImm w)) }).nextAt g (s.now + cImm w)))

/-- `cs.arrive`: arms the increment of the token in sA (R79). -/
def execCsArrive (g : Nat) (w : Word) (s : State) : Res :=
  .next (s.ctlWord g w 0x25 true (some (cSA w))
    (fun s =>
      let t := s.tile g
      State.lowest (State.faultIf (s.tokenBad g (t.s (cSA w)).toNat) 6)
        (State.mayVary t w (t.s (cSA w) = t.sh (cSA w))))
    (fun s => s.arm g ((s.tile g).s (cSA w)).toNat))

/-- `cs.halt`: ends the kernel and increments the token in sA unless `I` is 1, as `cs.arrive` does (R82). -/
def execCsHalt (g : Nat) (w : Word) (s : State) : Res :=
  .next (s.ctlWord g w 0x26 true (if cI w then none else some (cSA w))
    (fun s =>
      let t := s.tile g
      if cI w then none
      else State.lowest (State.faultIf (s.tokenBad g (t.s (cSA w)).toNat) 6)
        (State.mayVary t w (t.s (cSA w) = t.sh (cSA w))))
    (fun s => (if cI w then s else s.arm g ((s.tile g).s (cSA w)).toNat).haltTile g))

end Sys2Proof.Machine
end

