-- ==== Sys2Proof/Machine/Doe.lean ====
section
/-! DEFINITION. The DOE mailbox (R352, R353, R391, R400 to R403, R419): IDE keys, attestation, owner and life-cycle
commands. -/

namespace Sys2Proof.Machine
namespace State

/-- The mailbox answers from step 4 of the boot on, and not in Deep Sleep or Off (R396, R419). -/
def doeOpen (s : State) : Bool :=
  s.flag F.GEN_STATUS_READY 0 && s.getF F.PWR_STAT_STATE 0 < 3 && !s.power.perst

/-- A DOE request that is answered only while the mailbox is. -/
def doe (s : State) (act : State → State) : State := if s.doeOpen then act s else s

/-- An error answer (R353, R401). -/
def doeErr (s : State) (stream code : Nat) : State := s.emit (.doe 0xFF stream [BitVec.ofNat 8 code])

/-- Header bytes of an object (R352). -/
def doeHead (msg stream : Nat) : List Byte := [BitVec.ofNat 8 msg, BitVec.ofNat 8 stream, 0, 0]

/-- The digest *T* over an exchange through its ciphertext (R352), with the stream numbers that its two requests name. -/
def transcript (s : State) (first stream : Nat) (ekey : List Byte) (nonce : BitVec 256) (ct : List Byte) : List Byte :=
  shake256 (doeHead 1 first ++ doeHead 0x81 first ++ s.chain ++ doeHead 2 stream ++ ekey ++
    leBytes 32 nonce.toNat ++ doeHead 0x82 stream ++ ct)

/-! ## Owner commands (R400, R401) -/

/-- The active slot revoked. -/
def revokeActive (s : State) : State :=
  let rec go : List OwnerSlot → List OwnerSlot
    | [] => []
    | o :: os => if o.revoked then o :: go os else { o with revoked := true } :: os
  { s with ident := { s.ident with slots := go s.ident.slots } }

/-- An OWNER_CMD: what it needs, then its effect with success answered; the nonce is consumed by every one (R401). -/
def ownerCmd (s : State) (c : OwnerCmd) (lc : Nat) (needSig needIdle : Bool) (full : State → Bool) (act : State → State) :
    State :=
  s.doe fun s =>
    let fresh := s.ident.nonce = some c.nonce
    let s := { s with ident := { s.ident with nonce := none } }
    if s.ident.lc ≠ lc then s.doeErr 0 6
    else if !fresh || (needSig && !c.sigOk) then s.doeErr 0 5
    else if needIdle && s.anyRun then s.doeErr 0 8
    else if full s then s.doeErr 0 7
    else (act s).emit (.doe 0x87 0 [0])

/-- A partition record of a report (R402). -/
def reportPart (s : State) (p : Nat) : List Byte :=
  let x := s.part p
  let (h, u) := s.countUsed p
  let meas : List Byte := match x.plan with
    | some pl => bytes512 pl.meas
    | none => leBytes 64 0
  let st := (if x.plan.isSome then 1 else 0) + (if s.running p then 2 else 0) + 4 * s.getF F.PRT_STATE_OVER_QUOTA p
  meas ++ leBytes 1 st ++ leBytes 1 (min 255 (s.getF F.PRT_STATE_FROZEN p)) ++ leBytes 2 0 ++
    leBytes 8 (s.getF F.PLN_STEP_STEP p) ++ leBytes 4 (s.getF F.PRT_CLUSTERS_MASK p) ++ leBytes 2 h ++ leBytes 2 u ++
    leBytes 12 0

/-- Bytes 0x000 to 0x3FF of a report (R402). -/
def reportBody (s : State) (nonce : BitVec 512) : List Byte :=
  let magic : List Byte := [0x57, 0x4E, 0x58, 0x41, 0x54, 0x54, 0x53, 0x54]
  let flags := s.getF F.DMA_HCFG_IDE_REQ 0 + 2 * s.getF F.SEC_STATE_DEBUG 0 + 4 * s.getF F.SEC_STATE_RECOVERED 0
  magic ++ leBytes 2 1 ++ leBytes 1 s.ident.lc ++ leBytes 1 0xA1 ++ leBytes 4 s.runSvn ++
    s.serialBytes ++ bytes512 nonce ++ bytes512 s.runMeas ++
    bytes512 (s.activeOwner.getD 0) ++ leBytes 4 s.ident.counter ++ leBytes 4 s.pos ++ leBytes 8 s.bn ++ leBytes 8 flags ++
    leBytes 8 0 ++ ((List.range 8).map s.reportPart).flatten

/-- The whole report, signed by the alias key (R402). -/
def report (s : State) (nonce : BitVec 512) : List Byte :=
  let body := s.reportBody nonce
  let sig := (s.aliasSign (shake256 body)).take 1280
  body ++ leBytes 2 sig.length ++ leBytes 2 0 ++ sig ++ List.replicate (1280 - sig.length) 0

end State

/-- GET_CHAIN returns the chain and begins an exchange (R352). -/
def execGetChain (stream : Nat) (s : State) : Res :=
  .next (s.doe fun s =>
    if !Config.ideHeld stream then s.doeErr stream 2
    else (s.setIde { s.ideStream stream with stage := 1 }).emit (.doe 0x81 stream (s.chain)))

/-- KEM_KEY returns a ciphertext and a signature over the transcript, and both sides have the 192 key bytes (R352). It
waits while the random source has failed (R388). -/
def execKemKey (stream : Nat) (ekey : List Byte) (nonce : BitVec 256) (s : State) : Res :=
  .next (s.doe fun s =>
    let x := s.ideStream stream
    if !Config.ideHeld stream then s.doeErr stream 2
    else if x.stage ≠ 1 then (s.setIde { x with stage := 0 }).doeErr stream 1
    else if ekey.length ≠ 1568 then (s.setIde { x with stage := 0 }).doeErr stream 3
    else if s.flag F.SEC_STATE_RNGFAIL 0 then s
    else
      let (ct, ss) := Config.kemEncaps ekey s.ident.drbg
      let t := s.transcript stream stream ekey nonce ct
      let sig := s.aliasSign t
      let s := { s with ident := { s.ident with drbg := s.ident.drbg + 1 } }
      let s := s.setIde { x with stage := 2, pendingKeys := BitVec.ofNat 1536 (leNat (shakeBytes 192 (ss ++ t))) }
      s.emit (.doe 0x82 stream (ct ++ leBytes 2 sig.length ++ sig)))

/-- KEY_GO installs key set `k` and transmission goes to it (R353). -/
def execKeyGo (stream k : Nat) (s : State) : Res :=
  .next (s.doe fun s =>
    let x := s.ideStream stream
    if !Config.ideHeld stream then s.doeErr stream 2
    else if x.stage ≠ 2 then (s.setIde { x with stage := 0 }).doeErr stream 1
    else if 1 < k then (s.setIde { x with stage := 0 }).doeErr stream 3
    else
      let sets := (x.sets.filter (·.1 ≠ k)) ++ [(k, x.pendingKeys)]
      (s.setIde { x with sets := sets, tx := some k, stage := 0, pendingKeys := 0 }).emit (.doe 0x83 stream []))

/-- STOP turns a stream off (R352). -/
def execIdeStop (stream : Nat) (s : State) : Res :=
  .next (s.doe fun s =>
    if !Config.ideHeld stream then s.doeErr stream 2
    else ({ s with ide := s.ide.filter (·.id ≠ stream) }).emit (.doe 0x84 stream []))

/-- GET_REPORT returns a report formed in one hub cycle (R403). -/
def execGetReport (nonce : BitVec 512) (s : State) : Res := .next (s.doe fun s => s.emit (.doe 0x85 0 (s.report nonce)))

/-- GET_NONCE returns a fresh nonce, replacing any earlier one (R401). -/
def execGetNonce (s : State) : Res :=
  .next (s.doe fun s =>
    if s.flag F.SEC_STATE_RNGFAIL 0 then s
    else
      let n := (Config.random s.ident.drbg).setWidth 256
      let s := { s with ident := { s.ident with nonce := some n, drbg := s.ident.drbg + 1 } }
      s.emit (.doe 0x86 0 (leBytes 32 n.toNat)))

/-- SET_OWNER: the active slot is revoked and the next free one programmed; the key of the active slot again only
restores the flash's copy (R400, R401). -/
def execSetOwner (c : OwnerCmd) (s : State) : Res :=
  let again := s.activeOwner = some (shake512 c.key)
  let put (s : State) : State := { s with ident := { s.ident with flashOwner := some c.key } }
  .next (s.ownerCmd c 2 (s.activeOwner.isSome && !again) false (fun s => !again && 4 ≤ s.ident.slots.length) fun s =>
    if again then put s
    else
      let s := s.revokeActive
      let s := { s with ident := { s.ident with slots := s.ident.slots ++ [{ key := shake512 c.key, revoked := false }] } }
      (put s).issueAlias.showIdent)

/-- RELEASE_OWNER revokes the active slot (R401). -/
def execReleaseOwner (c : OwnerCmd) (s : State) : Res :=
  .next (s.ownerCmd { c with sigOk := c.sigOk && s.activeOwner.isSome } 2 true false (fun _ => false) fun s =>
    s.revokeActive.issueAlias.showIdent)

/-- DEPLOY: PROVISIONED to DEPLOYED (R401, R412). -/
def execDeploy (c : OwnerCmd) (s : State) : Res :=
  .next (s.ownerCmd c 1 false true (fun _ => false) fun s => s.setLifeCycle 2)

/-- RETURN: the active slot revoked, DEPLOYED to RETURNED (R401, R412). -/
def execReturnLc (c : OwnerCmd) (s : State) : Res :=
  .next (s.ownerCmd c 2 s.activeOwner.isSome true (fun _ => false) fun s => s.revokeActive.setLifeCycle 3)

/-- SCRAP: RETURNED to SCRAPPED, and every device-secret fuse blown (R401, R412). -/
def execScrap (c : OwnerCmd) (s : State) : Res :=
  .next (s.ownerCmd c 3 false true (fun _ => false) fun s =>
    ({ s with ident := { s.ident with secret := BitVec.allOnes 256 } }).setLifeCycle 4)

end Sys2Proof.Machine
end

