-- ==== Sys2Proof/Machine/Hosting.lean ====
section
/-! DEFINITION. Mirrors and hosting (R274 to R288, R318, R322): delta logs, RESUME, RESTART, STOP and the claim of a rank. -/

namespace Sys2Proof.Machine
namespace State

/-! ## Deltas (R275, R453) -/

/-- Sectors that ranges touch, ascending. -/
def sectorsOf (rs : List (Nat × Nat)) : List Nat :=
  (rs.map fun x => (List.range (ceilDiv (x.1 % 32 + x.2) 32)).map fun i => x.1 / 32 * 32 + 32 * i).flatten

/-- The delta of a rank for the step in flight: the sectors named, those of its records that the commit beat changes, and
while the base is being built everything. Each record is the sector as the commit beat leaves it. -/
def deltaOf (s : State) (p r : Nat) (pl : Plan) (sectors : List Nat) : List (Nat × List Byte) :=
  let n := s.curStep p
  let after := s.commit p
  let recs := sectorsOf (s.recordRanges p r (n + 1) pl)
  let all : Bool := s.getF F.FAB_HSTAT_MIRROR 0 = 1
  -- a shard on its way to this rank goes to its mirror too (R194)
  let moving := (List.range pl.tables.length).flatMap fun t =>
    let q := s.tableSt p t (s.homeRank p)
    if q.move.any (·.dst_ = r) then sectorsOf (q.moving.map fun x => (x.base, ((pl.tables[t]?).map (·.pageBytes)).getD 0)) else []
  let changed := moving ++ if all then recs ++ sectorsOf (after.rowRanges p r pl) else recs.filter fun a => s.rd a 32 ≠ after.rd a 32
  (uniqKeys (sectors.map (· / 32 * 32) ++ changed)).map fun a => (a, after.rd a 32)

/-- The delta end comes to the partner's host (R275). -/
def endDelta (s : State) (p r n bytes : Nat) : State :=
  (s.setLog p { s.logAt p r n with ended := some bytes }).ackDelta p r n

/-- Sends a rank's delta, then the delta end with the bytes of all of it. -/
def sendDelta (s : State) (p r : Nat) (l : List (Nat × List Byte)) : State :=
  let n := s.curStep p
  let s := s.sendRecords p r l
  let k := (s.part p).deltaSent
  if s.hostOf p (s.partnerOf p r) = s.pos then s.endDelta p r n k else s.emit (.deltaEnd p r n k)

/-- A sector of a rank hosted here, as the commit beat leaves it, goes to the rank's home, at its place there (R287). -/
def sendHome (s : State) (p r : Nat) (pl : Plan) (sectors : List Nat) : State :=
  let after := s.commit p
  let places := after.homePlaces p r (s.curStep p + 1) pl
  (sectors.map (· / 32 * 32)).foldl (fun s a => match places.find? fun v => v.2.1 ≤ a && a < v.2.1 + v.2.2 with
    | some v =>
      let b := after.rd a 32
      let h := { s.deltaHead p r (v.1 + (a - v.2.1)) with dest := s.homePos p r }
      s.sendMsg .slate h (.message .slate h b)
    | none => s) s

/-! ## Obeying (R282, R285, R318, R322) -/

/-- A module in doubt commits its step if the coordinator names the next one, else rolls it back; then, whatever the module
did, the step named stands rolled back and waits for its origin. -/
def resolve (s : State) (p step : Nat) : State :=
  let d := s.getF F.PLN_COMMIT_STATUS_DSTATE p
  let s := if (d = 3 ∨ d = 1) ∧ step = s.curStep p + 1 then s.commit p else s
  if s.rolling p then s else s.rollback p (s.originReport p)

/-- The re-run starts at a BN the coordinator names. -/
def setOrigin (s : State) (p b : Nat) : State :=
  (s.modPart p fun x => { x with rerunBn := some b, waiting := false }).putF F.PLN_COMMIT_STATUS_DSTATE p
    (if (s.part p).restoring then 4 else 2)

/-- What owners received of index exchanges from ranks hosted anew, for this step and the next, is discarded (R283). -/
def dropExchanges (s : State) (p : Nat) (rs : List Nat) : State :=
  let n := s.curStep p
  s.modPart p fun x => { x with tables := x.tables.map fun q => (q.1, { q.2 with
    recv := q.2.recv.filter fun v => !(rs.contains v.rank && (v.mb / 65536 = n || v.mb / 65536 = n + 1)) }) }

/-- The plan ends after its rollback, with the outcome shown (R285). -/
def endJob (s : State) (p outcome : Nat) : State :=
  let s := s.stopRolled p (s.getF F.PLN_ROLL_INFO_CAUSE p)
  { (s.putF F.FAB_HSTAT_OUTCOME 0 outcome) with notice := none }

/-- Obeys a RESUME. -/
def obeyResume (s : State) (p : Nat) (r : ResumeMsg) : State :=
  let s := s.resolve p r.step
  if !(s.part p).active then s
  else if !r.digestsAgree then s.endJob p 3
  else
    let moved := (r.entries.filter fun e => e.host ≠ s.hostOf p e.rank).map (·.rank)
    let s := (s.dropExchanges p moved).applyMap p r (s.curStep p) true
    { (s.setOrigin p r.resumeBn) with notice := none }

/-- A RESUME that returns a rank to its home (R287). -/
def returnsRank (s : State) (p : Nat) (r : ResumeMsg) : Bool := r.entries.any fun e => e.host = s.homePos p e.rank

/-- The highest hosting epoch obeyed or held. -/
def epochHeld (s : State) (p : Nat) : Nat :=
  max (s.getF F.FAB_HSTAT_HEPOCH 0) (((s.part p).pendResume.map (·.hepoch)).getD 0)

end State

/-- After the step's updates and page copies a rank sends its delta to its partner's host (R275). For a rank hosted away from
its home, whose home claims it, the sectors named go to its home instead (R287, assumption 100). -/
def execDeltaSend (p rank : Nat) (sectors : List Nat) (s : State) : Res :=
  let x := s.part p
  let m := s.getF F.FAB_HSTAT_MIRROR 0
  .next (match s.plan p with
    | some pl =>
      if s.resilient p ∧ s.stepMoves p ∧ ¬ x.committed ∧ rank = s.homeRank p ∧ (s.ranksHere p).contains rank ∧ (m = 1 ∨ m = 2) ∧
          ¬ x.mirrorAcked then
        s.sendDelta p rank (s.deltaOf p rank pl sectors)
      else if s.resilient p ∧ s.stepMoves p ∧ ¬ x.committed ∧ rank ≠ s.homeRank p ∧ (s.ranksHere p).contains rank then
        s.sendHome p rank pl sectors
      else s
    | none => s)

/-- A delta end comes: the step is acknowledged once every byte is written (R275). -/
def execDeltaEnd (p rank step bytes : Nat) (s : State) : Res :=
  .next (if s.resilient p ∧ (s.mirroredHere p).contains rank then s.endDelta p rank step bytes else s)

/-- A delta acknowledgement comes: the rank may report ready to commit (R276). -/
def execDeltaAck (p rank step : Nat) (s : State) : Res :=
  .next (if (s.part p).active ∧ rank = s.homeRank p ∧ step = s.curStep p ∧ ¬ s.rolling p then
      s.modPart p fun x => { x with mirrorAcked := true }
    else s)

/-- OCH-U applies the oldest committed log of a rank to its mirror's base; the acknowledgement that waited for it goes
out (R277). -/
def execDeltaLogApply (p rank : Nat) (s : State) : Res :=
  let ls := ((s.part p).logs.filter fun l => l.rank = rank && l.committed && !l.applied).mergeSort fun a b => a.step ≤ b.step
  .next (match ls with
    | l :: _ =>
      let s := s.applyLog p l
      let s := s.modPart p fun x => { x with logs := x.logs.filter fun v => !(v.rank = rank && v.step = l.step) }
      s.ackDelta p rank (l.step + 2)
    | [] => s)

/-- A RESUME comes (R281, R282, R287): one of a lower or the same epoch is ignored, one that comes late is reported. One that
returns a rank takes effect at a commit beat. -/
def execResume (p : Nat) (r : ResumeMsg) (s : State) : Res :=
  .next (if !(s.part p).active ∨ r.hepoch ≤ s.epochHeld p then s
    else if r.resumeBn < s.bn then
      if s.isCoord then s.decideHosting p else s.emit (.lateResume p r.hepoch)
    else if s.returnsRank p r then s.modPart p fun x => { x with pendResume := some r }
    else s.obeyResume p r)

/-- A STOP comes (R285). -/
def execHostingStop (p step : Nat) (digestsDiffer : Bool) (s : State) : Res :=
  .next (if (s.part p).active then (s.resolve p step).endJob p (if digestsDiffer then 3 else 2) else s)

/-- A RESTART comes to a module that waits for one, or is in doubt (R318, R322). -/
def execRestart (p step originBn : Nat) (s : State) : Res :=
  .next (if (s.part p).active ∧ (s.part p).waiting then (s.resolve p step).setOrigin p originBn else s)

/-- A write of `FAB_HCTRL`; `CLAIM` claims the rank whose home is this module, while another module hosts it (R287). -/
def execHostClaim (f : Func) (p : Nat) (v : Word) (s : State) : Res :=
  .next (s.gated f F.FAB_HCTRL_CLAIM.base fun s =>
    let s := s.writeOthers F.FAB_HCTRL_CLAIM.base v
    if getBits v 0 0 = 1 ∧ ¬ (s.ranksHere p).contains (s.homeRank p) then
      (s.putF F.FAB_HCTRL_CLAIM 0 1).modPart p fun x => { x with claim := true }
    else s)

end Sys2Proof.Machine
end

