-- ==== Sys2Proof/Machine/Power.lean ====
section
/-! DEFINITION. Power states, wakes, supplies and pins (R415 to R429, R470 to R478). -/

namespace Sys2Proof.Machine
namespace State

/-! ## Requests (R417) -/

/-- A target that can be requested in a state. -/
def reachable (st t : Nat) : Bool := match st with
  | 0 => t ≤ 4
  | 1 => t ≤ 4
  | 2 => t = 0 || t = 3 || t = 4
  | 3 => t = 0 || t = 4
  | _ => false

/-- The code a request is refused with, the lowest that applies. -/
def refusal (s : State) (t : Nat) : Option Nat :=
  if !reachable (s.getF F.PWR_STAT_STATE 0) t then some 1
  else if s.flag F.PWR_STAT_BUSY 0 then some 2
  else if t ≠ 0 ∧ s.anyRun then some 3
  else if t ≠ 0 ∧ s.anyWork then some 4
  else none

/-- The entry to Sleep or Deep Sleep: bypasses close and ports go down, the stream ports go down, L1 is requested
(R419). -/
def sleepEntry (s : State) : State :=
  let s := (List.range 6).foldl (fun s k => (s.settlePort k).putF F.FAB_PSTAT_STATE k 0) s.closeBypass
  let s := (List.range 2).foldl (fun s k => (s.putF F.STM_PSTAT_UP k 0).putF F.STM_PSTAT_PHY k 0) s
  { s with power := { s.power with l1 := true } }

/-- An entry to state `t` begins. -/
def beginEntry (s : State) (t : Nat) : State :=
  let s := { s.putF F.PWR_STAT_BUSY 0 1 with power := { s.power with target := some t, idleBeats := 0 } }
  if t = 2 ∨ t = 3 then s.sleepEntry else s

/-- A write of `PWR_CTRL` with `GO` that requests `t`, or the reserved state the write names (R417). -/
def powerRequest (s : State) (f : Func) (v : Word) (t : Nat) : State :=
  s.gated f F.PWR_CTRL_GO.base fun s =>
    let t := if 5 ≤ getBits v 2 0 then getBits v 2 0 else t
    let s := (s.writeOthers F.PWR_CTRL_GO.base v).putF F.PWR_CTRL_TARGET 0 t
    if getBits v 3 3 = 0 ∨ t = s.getF F.PWR_STAT_STATE 0 then s
    else match s.refusal t with
      | some c => s.putF F.PWR_STAT_REFUSE 0 c
      | none => if t = 0 then s.wakeFrom 1 else s.beginEntry t

/-! ## Domains and assists (R415, R425, R427) -/

/-- Domains running, and domains at retention or in self-refresh, in a state. -/
def domains (st : Nat) : Nat × Nat := match st with
  | 0 => (0xFFFFFF, 0)
  | 1 => (0xFFF000, 0)
  | 2 => (0x800000, 0x2FF000)
  | 3 => (0x800000, 0x3FFFF0)
  | _ => (0x800000, 0)

/-- Voltages (10 mV) and assist levels WA, RA of compute-die, base-die and hub SRAM in a state (R425). -/
def assists (st : Nat) : List (Fld × Nat) := match st with
  | 2 => [(F.PWR_ASSIST_CD_V, 70), (F.PWR_ASSIST_CD_WA, 0), (F.PWR_ASSIST_CD_RA, 0), (F.PWR_ASSIST_BASE_V, 75),
          (F.PWR_ASSIST_BASE_WA, 0), (F.PWR_ASSIST_BASE_RA, 0), (F.PWR_ASSIST_HUB_V, 80), (F.PWR_ASSIST_HUB_WA, 1),
          (F.PWR_ASSIST_HUB_RA, 1)]
  | 3 => [(F.PWR_ASSIST_CD_V, 50), (F.PWR_ASSIST_CD_WA, 0), (F.PWR_ASSIST_CD_RA, 0), (F.PWR_ASSIST_BASE_V, 55),
          (F.PWR_ASSIST_BASE_WA, 0), (F.PWR_ASSIST_BASE_RA, 0), (F.PWR_ASSIST_HUB_V, 55), (F.PWR_ASSIST_HUB_WA, 0),
          (F.PWR_ASSIST_HUB_RA, 0)]
  | _ => [(F.PWR_ASSIST_CD_V, 75), (F.PWR_ASSIST_CD_WA, 2), (F.PWR_ASSIST_CD_RA, 2), (F.PWR_ASSIST_BASE_V, 80),
          (F.PWR_ASSIST_BASE_WA, 1), (F.PWR_ASSIST_BASE_RA, 1), (F.PWR_ASSIST_HUB_V, 80), (F.PWR_ASSIST_HUB_WA, 1),
          (F.PWR_ASSIST_HUB_RA, 1)]

/-- `PWR_DOM` and `PWR_ASSIST` of a state. -/
def showDomains (s : State) (st : Nat) : State :=
  let s := (s.putF F.PWR_DOM_ON 0 (domains st).1).putF F.PWR_DOM_RET 0 (domains st).2
  (assists st).foldl (fun s x => s.putF x.1 0 x.2) s

/-- The order of wakes from Sleep and Deep Sleep (R427). -/
def wakeOrder : List Nat := [20, 8, 12, 13, 9, 14, 15, 10, 16, 17, 11, 18, 19, 21, 4, 5, 6, 7, 0, 1, 2, 3, 22]

/-- Domains that the `n`-th wake of an exit starts: a die's three in Idle, else one. -/
def wakeStep (st n : Nat) : List Nat :=
  if st = 1 then (if n < 4 then [8 + n, 4 + n, n] else []) else (wakeOrder[n]?).toList

/-- Wakes an exit has. -/
def wakeCount (st : Nat) : Nat := if st = 1 then 4 else 23

/-- The next domain is woken (R427). -/
def wakeDomain (s : State) : State :=
  let st := s.getF F.PWR_STAT_STATE 0
  if s.power.target ≠ some 0 ∨ wakeCount st ≤ s.power.awake then s
  else
    let s := (wakeStep st s.power.awake).foldl (fun s d =>
      (s.putF F.PWR_DOM_ON 0 (s.getF F.PWR_DOM_ON 0 ||| 2 ^ d)).putF F.PWR_DOM_RET 0
        (s.getF F.PWR_DOM_RET 0 &&& (0xFFFFFF - 2 ^ d))) s
    let n := s.power.awake + 1
    let s := { s with power := { s.power with awake := n } }
    -- out of Deep Sleep the memories train once every domain runs (R203)
    if st = 3 ∧ n = wakeCount st then
      (List.range 20).foldl (fun s i => if s.unitState i = 3 then s.setUnitState i 1 else s) s
    else s

/-! ## Transitions (R416, R419 to R423) -/

/-- The unit of a number. -/
def unitOf (i : Nat) : MemUnit := if i < 8 then .stack i else .umber (i - 8)

/-- A unit enters self-refresh, each of its devices after an all-bank refresh (R202, R222). -/
def selfRefresh (s : State) (i : Nat) : State := (s.emit (.refreshAll (unitOf i))).setUnitState i 3

/-- What an entry to Sleep or Deep Sleep loses and does to the memories (R416, R419). -/
def asleep (s : State) : State :=
  let s := (s.tiles.map (·.1)).foldl (fun s g => s.modTile g fun t => { t with banks := [] }) s
  let s := (s.ports.map (·.1)).foldl (fun s k => s.modPort k fun x => { x with keys := none }) s
  (List.range 20).foldl (fun s i => if s.unitState i = 2 then s.selfRefresh i else s) s

/-- The module shows a new state (R416). -/
def showState (s : State) (t : Nat) : State :=
  let old := s.getF F.PWR_STAT_STATE 0
  (((s.putF F.PWR_STAT_PREV 0 old).putF F.PWR_STAT_STATE 0 t).putF F.PWR_STAT_BUSY 0 0).showDomains t

/-- An entry is complete; a wake sensed meanwhile begins the exit at once (R423). -/
def entryDone (s : State) (t : Nat) : State :=
  if t = 4 then s.enterOff
  else
    let s := s.showState t
    let s := { s with power := { s.power with target := none, awake := 0, dsCycles := 0 } }
    let s := if t = 2 ∨ t = 3 then s.asleep else s
    if s.power.wake.isSome then { s.putF F.PWR_STAT_BUSY 0 1 with power := { s.power with target := some 0 } } else s

/-- An exit is complete: memories leave self-refresh, from Deep Sleep after training, bypass switches and ports follow `OPEN`
and `EN` again, and the module relocks from holdover (R420, R421). -/
def exitDone (s : State) (trained : List Bool) : State :=
  let st := s.getF F.PWR_STAT_STATE 0
  let s := s.showState 0
  let s := { s with power := { s.power with target := none, wake := none, awake := 0, l1 := false, wakeDriven := false } }
  let s := if st = 2 ∨ st = 3 then { s with retake := true } else s
  let s := if st = 2 ∨ st = 3 then (List.range 3).foldl settleDim s else s
  if st = 2 then (List.range 20).foldl (fun s i => if s.unitState i = 3 then s.unitReady i else s) s
  else if st = 3 then
    ((List.range 20).foldl (fun s i => if s.unitState i = 3 ∨ s.unitState i = 1 then s.trainUnit i (trained.getD i false) else s) s).enterHoldover
  else s

/-- The flash after a loss of power: one caught between its erasing and its re-reading holds no valid image; whether an update
in progress is there already the state does not know (R398, assumption 101). -/
def flashCut (s : State) : State :=
  if s.ident.fwBusy then
    let (v, s) := s.fresh
    if v % 2 = 1 then s.program [] false else s
  else s

/-- Off without a sequence (R424): the 48 V input is lost. -/
def lossOfInput (s : State) : State :=
  let s := s.flashCut.enterOff
  { s with power := { s.power with main48 := false } }

end State

/-- A request for Run wakes the module, with source host command (R417, R422). -/
def execPwrTargetRun (f : Func) (v : Word) (s : State) : Res := .next (s.powerRequest f v 0)

/-- A request for Idle (R416, R417). -/
def execPwrTargetIdle (f : Func) (v : Word) (s : State) : Res := .next (s.powerRequest f v 1)

/-- A request for Sleep (R417, R419). -/
def execPwrTargetSleep (f : Func) (v : Word) (s : State) : Res := .next (s.powerRequest f v 2)

/-- A request for Deep Sleep (R417, R419). -/
def execPwrTargetDeepSleep (f : Func) (v : Word) (s : State) : Res := .next (s.powerRequest f v 3)

/-- A request for Off (R417). -/
def execPwrTargetOff (f : Func) (v : Word) (s : State) : Res := .next (s.powerRequest f v 4)

/-- `TIMER` quiet beats in Run put the module in Idle (R418). -/
def execIdleTimerExpiry (s : State) : Res :=
  let t := s.getF F.PWR_IDLE_TIMER 0
  .next (if t ≠ 0 ∧ t ≤ s.power.idleBeats ∧ s.getF F.PWR_STAT_STATE 0 = 0 ∧ ¬ s.flag F.PWR_STAT_BUSY 0 ∧ ¬ s.anyRun ∧
      ¬ s.anyWork then s.beginEntry 1 else s)

/-- The next domain in the fixed order is woken (R427). -/
def execDomainWake (s : State) : Res := .next s.wakeDomain

/-- A transition completes, an exit once every domain is awake (R416, R421). -/
def execTransitionComplete (trained : List Bool) (s : State) : Res :=
  .next (match s.power.target with
    | none => s
    | some t =>
      if t ≠ 0 then s.entryDone t
      else if s.power.awake < State.wakeCount (s.getF F.PWR_STAT_STATE 0) then s else s.exitDone trained)

/-- In Deep Sleep the always-on counter advances the BN by 7 every 512 crystal cycles (R420). -/
def execDeepSleepBnAdvance (s : State) : Res :=
  .next (if s.getF F.PWR_STAT_STATE 0 = 3 then
      { s.putF F.PLN_BN_BN 0 (s.bn + 7) with power := { s.power with dsCycles := s.power.dsCycles + 512 } }
    else s)

/-- `WAKE_N` held low by the system (R422, R472). -/
def execWakeNAssert (s : State) : Res :=
  let st := s.getF F.PWR_STAT_STATE 0
  .next (if s.power.perst ∨ s.power.wakeDriven then s
    else if st = 4 then s.wantBoot 2 else if st = 2 ∨ st = 3 ∨ s.power.target.any (fun t => t = 2 || t = 3) then s.wakeFrom 2
    else s)

/-- The wake timer expires: a wake, with `WAKE_N` driven low if the link is in L1 (R422). -/
def execWakeTimerExpiry (s : State) : Res :=
  let st := s.getF F.PWR_STAT_STATE 0
  .next (if ¬ s.flag F.PWR_WAKE_TIMER_EN 0 then s
    else if st = 4 then s.wantBoot 4
    else if st = 2 ∨ st = 3 then
      let s := s.wakeFrom 4
      if s.power.l1 then { s.emit .wakeN with power := { s.power with wakeDriven := true } } else s
    else s)

/-- `PERST_N` ends any transition and resets the module, closing the bypasses (R423, R478). -/
def execPerstNAssert (s : State) : Res :=
  let st := s.getF F.PWR_STAT_STATE 0
  .next (if st = 4 then { s with power := { s.power with perst := true, thermtrip := false } }
    else
      let s := s.resetModule
      { s with power := { s.power with perst := true, thermtrip := false, from_ := st } })

/-- Deassertion of `PERST_N`: a wake from every state, by a cold boot (R422, R474). -/
def execPerstNDeassert (s : State) : Res :=
  .next (if s.power.perst then
      ({ s with power := { s.power with perst := false }, test := { s.test with pins := none } }).wantBoot 3
    else s)

/-- The 48 V input below 38 V: Off without a sequence (R424). -/
def execInputPowerLoss (s : State) : Res := .next s.lossOfInput

/-- The 48 V input stable: the moment of R474, and a cold boot if `AUTO_ON` is 1, except after a trip (R424, R478). -/
def execInputPowerRestored (s : State) : Res :=
  let s := { s with power := { s.power with main48 := true } }
  .next (if s.getF F.PWR_STAT_STATE 0 ≠ 4 then s
    else if s.power.wake.isSome then s.tryBoot
    else if s.flag F.PWR_CTRL_AUTO_ON 0 ∧ ¬ s.power.tripped then s.wantBoot 6 else s)

/-- The auxiliary rail enters range; with no earlier record, a cold boot of source 0 waits (R422, R473). -/
def execAuxPowerApplied (s : State) : Res :=
  .next (if s.power.aux then s
    else { s with power := { s.power with aux := true, auxQualified := false, wake := some 0, from_ := 4 } })

/-- 10 ms after the auxiliary rail entered range (R473, R474). -/
def execInputStageOn (s : State) : Res :=
  .next (if s.power.aux then ({ s with power := { s.power with auxQualified := true } }).tryBoot else s)

/-- The auxiliary rail below 3.0 V: Off, and the retained fields lost (R431, R475). -/
def execAuxPowerLoss (s : State) : Res :=
  let s := s.enterOff
  let s := State.retained.foldl (fun s f => s.putF f 0 f.rst) s
  .next { s with power := { s.power with aux := false, auxQualified := false, wake := none } }

/-- A die at 115 °C: `THERMTRIP_N` low and Off (R478). -/
def execThermalTrip (s : State) : Res :=
  let s := (s.emit .thermtripN).enterOff
  .next { s with power := { s.power with thermtrip := true, tripped := true, cool := false } }

/-- After a trip, once every die reads below 95 °C, the cold boot of R474 may start (R478). -/
def execTripCooldown (temps : List Nat) (s : State) : Res :=
  .next (if s.power.tripped then
      ({ s with power := { s.power with temps := temps, cool := temps.all (· < 95) } }).tryBoot
    else s)

/-- A write of `PWR_RAMP`: discarded and logged if the shares exceed 16 in sum or stop a running partition (R429). -/
def execPwrRampWrite (f : Func) (v : Word) (s : State) : Res :=
  .next (s.gated f F.PWR_RAMP_SHARE.base fun s =>
    let share (p : Nat) : Nat := getBits v (5 * p + 4) (5 * p)
    if 16 < ((List.range 8).map share).foldl (· + ·) 0 ∨ (List.range 8).any (fun p => share p = 0 && s.running p) then
      s.genErr f 1 F.PWR_RAMP_SHARE.base
    else s.putF F.PWR_RAMP_SHARE 0 (getBits v 39 0))

end Sys2Proof.Machine
end

