-- ==== Sys2Proof/Machine/MemUnits.lean ====
section
/-! DEFINITION. The memory units beside their cells (R202, R203, R206 to R208, R218 to R220, R225 to R228, R407, R477):
refresh, scrub, temperature, wheels, margining and the traffic generators. -/

namespace Sys2Proof.Machine
namespace State

/-- Sectors that no step read: an uncorrectable one rolls nothing back. In resilient mode committed state is read from its
mirror and written back at once; in plain mode it is lost and the plan stops (R207, R208). -/
def scrubErrors (s : State) (es : List SectorErr) : State :=
  es.foldl (fun s e =>
    let p := s.ownerAt e.addr
    let lost := s.losesState p e
    let s := s.sectorErrors p noTask false [e]
    if lost then
      let s := s.putU F.MEM_STAT_LOST F.UMB_STAT_LOST (unitAt e.addr) 1
      if s.running p then s.stopRolled p 2 else s
    else if e.lost then s.mendSectors p else s) s

/-! ## Wheels (R218, R220, R228, R407) -/

/-- Word `i` of a memory unit's wheel, in the registers and as it is in force. -/
def shadowWord (s : State) (u i : Nat) : Word :=
  if u < 8 then s.word (F.MEM_WHEEL_OWNERS.off (16 * u + i)) else s.word (F.UMB_WHEEL_OWNERS.off (16 * (u - 8) + i))

def setShadow (s : State) (u i : Nat) (w : Word) : State :=
  if u < 8 then s.setWord (F.MEM_WHEEL_OWNERS.off (16 * u + i)) w else s.setWord (F.UMB_WHEEL_OWNERS.off (16 * (u - 8) + i)) w

/-- Applies a unit's shadow wheel. -/
def applyWheel (s : State) (u : Nat) : State :=
  let s := s.modUnit u fun x => { x with
    active := (List.range 16).foldl (fun m i => mput 0 m i (s.shadowWord u i)) x.active }
  s.putU F.MEM_REG_CTRL_PENDING F.UMB_REG_CTRL_PENDING u 0

/-- Applies a port's shadow flit wheel. -/
def applyFlitWheel (s : State) (k : Nat) : State :=
  let s := s.modPort k fun x => { x with
    active := (List.range 16).foldl (fun m i => mput 0 m i (s.word (F.PRT_FWHEEL_OWNERS.off (16 * k + i)))) x.active }
  s.putF F.PRT_FREG_CTRL_PENDING k 0

/-! ## Generators (R225) -/

/-- An address lies in a unit. -/
def onUnit (u a : Nat) : Bool :=
  if u < 8 then a < hbmEnd && stackOf a = u else umberBase ≤ a && a < umberEnd && umberOf a = u - 8

/-- Generators a unit has. -/
def genCount (u : Nat) : Nat := if u < 8 then 32 else 4

/-- Instance of a generator register. -/
def genNo (u n : Nat) : Nat := if u < 8 then 32 * u + n else 4 * (u - 8) + n

def getG (s : State) (m u : Fld) (x n : Nat) : Nat := if x < 8 then s.getF m (genNo x n) else s.getF u (genNo x n)
def putG (s : State) (m u : Fld) (x n v : Nat) : State := if x < 8 then s.putF m (genNo x n) v else s.putF u (genNo x n) v

/-- Offset of a generator's control register. -/
def genCtl (u n : Nat) : Nat := if u < 8 then F.MEM_TG_CTRL_GO.off (genNo u n) else F.UMB_TG_CTRL_GO.off (genNo u n)

/-- A run that ends without having run. -/
def genRefused (s : State) (u n : Nat) : State :=
  let s := (s.putG F.MEM_TG_STAT_FAIL F.UMB_TG_STAT_FAIL u n 1).putG F.MEM_TG_STAT_ERRS F.UMB_TG_STAT_ERRS u n 0
  s.putG F.MEM_TG_CTRL_GO F.UMB_TG_CTRL_GO u n 0

/-- The bytes of a channel after a pattern run, which overwrites all of it; a listed cell of the channel takes its
pattern byte (R225). -/
def patternChannel (s : State) (u n pat seed : Nat) : State :=
  let hit (a : Nat) : Bool := onUnit u a && channelOf a = n
  { s with mem := s.mem.foldl (fun m c => if hit c.1 then mput 0 m c.1 (Config.tgByte pat seed c.1) else m) s.mem }

/-- A unit's registers for which `u` names the block. -/
def unitBase (u : Nat) : Nat := if u < 8 then 0x70_0000 + 0x1000 * u else 0x80_0000 + 0x1000 * (u - 8)

/-- A plan that runs owns memory on a unit: some granule of its partition lies there; the Umber tier is interleaved over
all controllers. -/
def unitInUse (s : State) (u : Nat) : Bool :=
  (List.range 8).any fun p => s.running p &&
    if u < 8 then (List.range 72).any (fun i => s.granOwner (72 * u + i) = p)
    else (List.range 1536).any (fun i => s.granOwner (576 + i) = p)

/-- The whole range of a unit reads 0 (R226, R410). -/
def wipeUnit (s : State) (u : Nat) : State := { s with mem := s.mem.filter fun c => !onUnit u c.1 }

/-- A write of `MARGIN`: every field is written, and with `APPLY` 1 the steps written are in force (R228). `OFFLINE` 0 at a
unit that is offline begins its training (R226). -/
def marginWrite (s : State) (i : Nat) (v : Word) : State :=
  let s := if s.unitState i = 4 ∧ getBits v 1 1 = 0 then s.setUnitState i 1 else s
  let s := (s.writeOthers (unitBase i + 0x28) v).putU F.MEM_MARGIN_OFFLINE F.UMB_MARGIN_OFFLINE i (getBits v 1 1)
  if getBits v 0 0 = 0 then s
  else
    let m := (s.getU F.MEM_MARGIN_VREF F.UMB_MARGIN_VREF i, s.getU F.MEM_MARGIN_PHASE F.UMB_MARGIN_PHASE i)
    (s.modUnit i fun x => { x with margin := m }).putU F.MEM_MARGIN_APPLY F.UMB_MARGIN_APPLY i 0

end State

/-- Per-bank refresh of the next bank on every channel of a unit in service, the next being due so much later that every
bank comes once in the interval (R208). -/
def execRefresh (u : MemUnit) (s : State) : Res :=
  let i := State.unitNo u
  .next (if s.unitState i = 2 then
      (s.modUnit i fun x => { x with
        refreshes := x.refreshes + 1, bank := (x.bank + 1) % State.bankCount i,
        refreshAt := s.now + s.refreshSpacing i }).emit (.refreshCmd u (s.unit i).bank) else s)

/-- Patrol scrub reads sectors: corrections are counted, and an uncorrectable one is logged and repaired with no rollback
(R206 to R208). A period of 0 turns it off. -/
def execPatrolScrub (u : MemUnit) (errs : List SectorErr) (s : State) : Res :=
  let i := State.unitNo u
  .next (if s.unitState i = 2 ∧ s.getU F.MEM_SCRUB_PERIOD F.UMB_SCRUB_PERIOD i ≠ 0 then
      s.scrubErrors (errs.filter fun e => State.onUnit i e.addr) else s)

/-- Refresh management, when a device requests it (R202, R208). -/
def execRefreshManagement (u : MemUnit) (s : State) : Res :=
  .next (if s.unitState (State.unitNo u) = 2 then s.emit (.rfmCmd u) else s)

/-- The temperature of a unit's devices: at 85 °C or above refresh doubles (R208, R228). -/
def execTemperatureReadout (u : MemUnit) (temp : Nat) (s : State) : Res :=
  let i := State.unitNo u
  .next (if s.unitState i = 0 then s
    else
      let s := s.putU F.MEM_STAT_TEMP F.UMB_STAT_TEMP i (min temp 255)
      s.putU F.MEM_STAT_REFX2 F.UMB_STAT_REFX2 i (if 85 ≤ temp then 1 else 0))

/-- At the edge of a beat whose BN is a multiple of 64, every shadow wheel written takes effect (R220, R407). -/
def execWheelApply (s : State) : Res :=
  .next (if s.bn % 64 ≠ 0 then s
    else
      let s := (List.range 20).foldl (fun s u =>
        if s.getU F.MEM_REG_CTRL_PENDING F.UMB_REG_CTRL_PENDING u = 1 then s.applyWheel u else s) s
      (List.range 6).foldl (fun s k => if s.flag F.PRT_FREG_CTRL_PENDING k then s.applyFlitWheel k else s) s)

/-- A 1 written to `DISCARD` copies the active wheel into the shadow (R228, R414). -/
def execRegCtrlDiscard (u : WheelUnit) (s : State) : Res :=
  .next (match u with
    | .mem x =>
      let i := State.unitNo x
      s.gated .pf (State.unitBase i + 0x20) fun s =>
        let s := (List.range 16).foldl (fun s k => s.setShadow i k (mget 0 (s.unit i).active k)) s
        s.putU F.MEM_REG_CTRL_PENDING F.UMB_REG_CTRL_PENDING i 0
    | .flit k => if 6 ≤ k then s
      else s.gated .pf (F.PRT_FREG_CTRL_DISCARD.off k) fun s =>
        let s := (List.range 16).foldl (fun s i => s.setWord (F.PRT_FWHEEL_OWNERS.off (16 * k + i)) (mget 0 (s.port k).active i)) s
        s.putF F.PRT_FREG_CTRL_PENDING k 0)

/-- A write of `MARGIN`: its fields are written, `OFFLINE` 1 asking for the unit to go offline, 0 for its return
(R225, R228). -/
def execMarginOffline (u : MemUnit) (v : Word) (s : State) : Res :=
  let i := State.unitNo u
  .next (s.gated .pf (State.unitBase i + 0x28) fun s => s.marginWrite i v)

/-- With no plan using it, a unit that is ready and asked to is offline (R225). -/
def execOfflineEnter (u : MemUnit) (s : State) : Res :=
  let i := State.unitNo u
  .next (if s.getU F.MEM_MARGIN_OFFLINE F.UMB_MARGIN_OFFLINE i = 1 ∧ s.unitState i = 2 ∧ ¬ s.unitInUse i then
      s.setUnitState i 4 else s)

/-- Leaving offline retrains the unit and wipes its range (R226). -/
def execOfflineLeave (u : MemUnit) (trained : Bool) (s : State) : Res :=
  let i := State.unitNo u
  .next (if s.getU F.MEM_MARGIN_OFFLINE F.UMB_MARGIN_OFFLINE i = 0 ∧ (s.unitState i = 4 ∨ s.unitState i = 1) then
      (s.wipeUnit i).trainUnit i trained else s)

/-- A write of `MARGIN` with `APPLY`: the steps are in force, and `APPLY` reads 0 again (R225, R228). -/
def execMarginApply (u : MemUnit) (v : Word) (s : State) : Res :=
  let i := State.unitNo u
  .next (s.gated .pf (State.unitBase i + 0x28) fun s => s.marginWrite i v)

/-- A write of `TG_CTRL.GO` starts a generator. Mode 00b runs only offline, and a reserved mode or pattern does not run;
one that is `BUSY` goes on (R225, R228). -/
def execTgGo (u : MemUnit) (n : Nat) (v : Word) (s : State) : Res :=
  let i := State.unitNo u
  .next (if State.genCount i ≤ n then s
    else s.gated .pf (State.genCtl i n) fun s =>
      let s := s.writeOthers (State.genCtl i n) v
      if getBits v 0 0 = 0 ∨ s.getG F.MEM_TG_STAT_BUSY F.UMB_TG_STAT_BUSY i n = 1 then s
      else
        let mode := getBits v 5 4
        let s := s.putG F.MEM_TG_STAT_FAIL F.UMB_TG_STAT_FAIL i n 0
        if 2 ≤ mode ∨ 4 ≤ getBits v 10 8 ∨ (mode = 0 ∧ s.unitState i ≠ 4) then s.genRefused i n
        else
          let s := (s.putG F.MEM_TG_CTRL_GO F.UMB_TG_CTRL_GO i n 1).putG F.MEM_TG_STAT_BUSY F.UMB_TG_STAT_BUSY i n 1
          (s.modUnit i fun x => { x with runs := x.runs ++ [n] }).arriveWork)

/-- A generator's run ends: `ERRS` counts the sectors that failed, `ADDR` is the first of them; uncorrectable sectors are
logged and raise no module fault (R207, R225). Mode 01b ends only with slots owned by 0xF. -/
def execTgDone (u : MemUnit) (n : Nat) (errs : List SectorErr) (s : State) : Res :=
  let i := State.unitNo u
  let mode := s.getG F.MEM_TG_CTRL_MODE F.UMB_TG_CTRL_MODE i n
  .next (if s.getG F.MEM_TG_STAT_BUSY F.UMB_TG_STAT_BUSY i n = 0 ∨
      (mode = 1 ∧ State.slotsOf (s.unit i).active 15 = 0) then s
    else
      -- mode 00b compares what the decoder delivers, mode 01b checks the code alone
      let bad := errs.filter fun e => e.lost || (mode = 0 && (e.left.take 32).any (· ≠ 0))
      let s := if mode = 0 then s.patternChannel i n (s.getG F.MEM_TG_CTRL_PATTERN F.UMB_TG_CTRL_PATTERN i n)
          (s.getG F.MEM_TG_CTRL_SEED F.UMB_TG_CTRL_SEED i n) else s
      let s := s.scrubErrors errs
      let s := (s.putG F.MEM_TG_STAT_BUSY F.UMB_TG_STAT_BUSY i n 0).putG F.MEM_TG_CTRL_GO F.UMB_TG_CTRL_GO i n 0
      let s := s.putG F.MEM_TG_STAT_ERRS F.UMB_TG_STAT_ERRS i n (min bad.length 0x3FFF)
      let s := s.putG F.MEM_TG_STAT_FAIL F.UMB_TG_STAT_FAIL i n (if bad = [] then 0 else 1)
      let s := match bad with
        | e :: _ => s.putG F.MEM_TG_STAT_ADDR F.UMB_TG_STAT_ADDR i n e.addr
        | [] => s
      s.modUnit i fun x => { x with runs := x.runs.filter (· ≠ n) })

end Sys2Proof.Machine
end

