-- ==== Sys2Proof/Machine/Partition.lean ====
section
/-! DEFINITION. Partitions and their allocation (R351, R404 to R411): granules, clusters, quotas, resets, wipes and the
freeze log. -/

namespace Sys2Proof.Machine
namespace State

/-! ## Granules (R405) -/

/-- Granule `i` is still being wiped. -/
def granWiping (s : State) (i : Nat) : Bool := (List.range 8).any fun p => (s.part p).wipeGrans.contains i

/-- One granule's owner changes from `a` to `b`; none where a check of R405 fails. -/
def granStep (s : State) (i a b : Nat) : Option State :=
  if a = b then some s
  else
    let set (s : State) : State :=
      let w := s.getF F.PRT_GRAN_OWNERS (i / 16)
      let k := 4 * (i % 16)
      s.putF F.PRT_GRAN_OWNERS (i / 16) (w - natBits w (k + 3) k * 2 ^ k + b * 2 ^ k)
    if b < 8 then
      if a ≠ 15 || s.granWiping i then none
      else
        let s := set s
        let (h, u) := s.countUsed b
        if s.getF F.PRT_QUOTA_HBM_Q b < h || s.getF F.PRT_QUOTA_UMB_Q b < u then none else some (s.refreshUsed b)
    else if b = 15 ∧ a < 8 then
      if s.running a then none
      else
        let s := (set s).refreshUsed a
        some ((s.modPart a fun x => { x with wipeGrans := x.wipeGrans ++ [i] }).arriveWork)
    else none

/-- Granules that the wipes of a partition reach: those set free, and after a reset every one it owns. -/
def wipedGrans (s : State) (p : Nat) : List Nat :=
  let x := s.part p
  x.wipeGrans ++ if x.wipeAll then (List.range 2112).filter fun i => s.granOwner i = p else []

/-- Granule `i` has bytes on a memory unit: 72 granules make a stack, and every controller holds some of each Umber one. -/
def granOn (u i : Nat) : Bool := if u < 8 then i / 72 = u else 576 ≤ i

/-- The wipes of a partition come to their end: each unit with bytes to wipe has a slot of the partition, or one of no
partition (R411). -/
def wipeMoves (s : State) (p : Nat) : Bool :=
  (List.range 20).all fun u => s.hasSlot u p || s.hasSlot u 15 || !(s.wipedGrans p).any (granOn u)

/-- The 16 granules of one table word, in order; every one must pass. -/
def granWord (s : State) (i : Nat) (v : Word) : Option State :=
  (List.range 16).foldl (fun (o : Option State) m => o.bind fun s =>
    s.granStep (16 * i + m) (s.granOwner (16 * i + m)) (getBits v (4 * m + 3) (4 * m))) (some s)

end State

/-- A write of `PRT_GRAN` gives granules or sets them free, all checks passing, else is discarded and logged (R405). -/
def execPrtGranWrite (f : Func) (i : Nat) (v : Word) (s : State) : Res :=
  let o := F.PRT_GRAN_OWNERS.off i
  .next (s.gated f o fun s => if 132 ≤ i then s else (s.granWord i v).getD (s.genErr f 1 o))

/-- A write of `PRT_CLUSTERS`: refused where a cluster would lie in two partitions or the partition runs; every cluster
that changes partition is wiped (R405). -/
def execPrtClustersWrite (f : Func) (p : Nat) (v : Word) (s : State) : Res :=
  let o := F.PRT_CLUSTERS_MASK.off p
  .next (s.gated f o fun s =>
    let new := getBits v 31 0
    let old := s.getF F.PRT_CLUSTERS_MASK p
    let taken := (List.range 8).any fun q => q ≠ p && s.getF F.PRT_CLUSTERS_MASK q &&& new ≠ 0
    if taken || (new ≠ old && s.running p) then s.genErr f 1 o
    else
      ((List.range 32).filter fun c => natBits (new ^^^ old) c c = 1).foldl State.wipeCluster (s.putF F.PRT_CLUSTERS_MASK p new))

/-- A write of `PRT_QUOTA`: below the owned count it is a ceiling, and nothing is evicted (R406). -/
def execPrtQuotaWrite (f : Func) (p : Nat) (v : Word) (s : State) : Res :=
  .next (s.gated f (F.PRT_QUOTA_HBM_Q.off p) fun s =>
    ((s.putF F.PRT_QUOTA_HBM_Q p (getBits v 9 0)).putF F.PRT_QUOTA_UMB_Q p (getBits v 42 32)).refreshUsed p)

/-- A 1 written to `PRT_RESET` resets and wipes the partition (R410). -/
def execPrtReset (f : Func) (p : Nat) (v : Word) (s : State) : Res :=
  .next (s.gated f (F.PRT_RESET_RESET.off p) fun s => if getBits v 0 0 = 1 then s.resetPartition p else s)

/-- A 1 written to `PRT_FRZ_POP` removes the oldest freeze-log entry (R409). -/
def execPrtFrzPop (f : Func) (p : Nat) (v : Word) (s : State) : Res :=
  .next (s.gated f (F.PRT_FRZ_POP_POP.off p) fun s =>
    if getBits v 0 0 = 1 then s.modPart p fun x => { x with frzLog := x.frzLog.drop 1 } else s)

/-- A partition's wipe ends; one without slots on a unit makes no progress there (R411). -/
def execWipeComplete (p : Nat) (s : State) : Res :=
  .next (if ((s.part p).wipeAll ∨ (s.part p).wipeGrans ≠ []) ∧ s.wipeMoves p then s.endWipe p else s)

/-- A Function Level Reset of VF `k` resets partition k − 1 (R351). -/
def execVfFlr (k : Nat) (s : State) : Res := .next (if 1 ≤ k ∧ k ≤ 8 then s.resetPartition (k - 1) else s)

/-- A Function Level Reset of the PF resets every partition and every register of the DMA and STM blocks; the link states
of the stream ports stand, since no port retrains (R351). -/
def execPfFlr (s : State) : Res :=
  let s := (List.range 8).foldl State.resetPartition s
  let links := (List.range 2).map fun k => (s.word (F.STM_PSTAT_UP.off k), s.word (F.STM_PMAC_MAC.off k))
  let s := ((s.clearRegs 0x40_0000 0x60_0000).clearRegs 0x400_0000 0x410_0000)
  let s := (List.range 2).foldl (fun s k =>
    (s.setWord (F.STM_PSTAT_UP.off k) (links.getD k (0, 0)).1).setWord (F.STM_PMAC_MAC.off k) (links.getD k (0, 0)).2) s
  .next { s with movers := [], queues := [] }

end Sys2Proof.Machine
end

