-- ==== Sys2Proof/Machine/Stream.lean ====
section
/-! DEFINITION. The stream port (R49, R372 to R386, R486): frames, sample records, admission, credits, key exchange and
checkpoint streams. -/

namespace Sys2Proof.Machine

/-! ## Sample records (R377) -/

/-- Bytes padded to a multiple of 8. -/
def pad8 (n : Nat) : Nat := (n + 7) / 8 * 8

/-- One bag from its bytes: table, entries, whether a reserved flag is set, and its length; none if it is not whole. -/
def readBag (b : List Byte) (sample : Nat) : Option (Nat × List ListEntry × Bool × Nat) :=
  if b.length < 8 then none
  else
    let k := le b 2 2
    let fl := le b 4 4
    let w : Bool := natBits fl 0 0 = 1
    let n := 8 + 8 * k + if w then pad8 (4 * k) else 0
    if b.length < n then none
    else some (le b 0 2,
      (List.range k).map fun i =>
        { bag := sample, index := le b (8 + 8 * i) 8, weight := if w then le32 b (8 + 8 * k + 4 * i) else one32 },
      1 < fl, n)

/-- `n` bags in a row: the bags, whether a reserved flag is set, and their length. -/
def readBags (sample : Nat) : Nat → List Byte → Option (List (Nat × List ListEntry) × Bool × Nat)
  | 0, _ => some ([], false, 0)
  | n + 1, b => match readBag b sample with
    | none => none
    | some (t, es, bad, k) => match readBags sample n (b.drop k) with
      | none => none
      | some (l, bad', k') => some ((t, es) :: l, bad || bad', k + k')

/-- A record from the front of a stream's bytes and its length; none while it is not whole. -/
def readRecord (b : List Byte) (rank step : Nat) : Option (Sample × Nat) :=
  if b.length < 16 then none
  else
    let sm := le b 2 2
    let n := 16 + pad8 (le b 8 4)
    if b.length < n then none
    else match readBags sm (le b 0xC 2) (b.drop n) with
      | none => none
      | some (bags, bad, k) =>
        some ({ rank := rank, step := step, mb := le b 0 2, sample := sm, length := le b 4 4, dense := (b.drop 16).take (le b 8 4),
                bags := bags, bad := bad || le b 0xE 2 ≠ 0 }, n + k)

/-- A record is malformed under a plan (R378). -/
def sampleBad (pl : Plan) (v : Sample) : Bool :=
  v.bad || ((pl.classes.map (·.mbSize)).getD 0) ≤ v.sample || (v.bags.map (·.1)).eraseDups.length ≠ v.bags.length ||
  v.bags.any fun x => pl.tables.length ≤ x.1

/-- The frames of a stream that stand in order from the first, as bytes and as their number. -/
def inOrderFrames (fs : List (Nat × List Byte)) : Nat → Nat → List Byte × Nat
  | 0, k => ([], k)
  | n + 1, k => match fs.find? (·.1 = k) with
    | some f => let r := inOrderFrames fs n (k + 1); (f.2 ++ r.1, r.2)
    | none => ([], k)

namespace State

/-- A SAMPLE or END frame is discarded by R380, or by R35 under a plan that takes no samples. -/
def misrouted (s : State) (h : StreamHdr) : Bool :=
  (s.plan h.part).isNone || !(s.mbCount h.part).2 || !(s.ranksHere h.part).contains h.rank || h.step < s.curStep h.part || s.curStep h.part + 2 < h.step

def misroute (s : State) (p : Nat) : State := s.bump F.STM_ICNT_MISROUTE p

/-! ## Admission (R49, R378, R486) -/

def endOf (s : State) (p r n mb : Nat) : Option MbEnd := (s.part p).ends.find? fun e => e.rank = r && e.step = n && e.mb = mb

def setEnd (s : State) (p : Nat) (e : MbEnd) : State :=
  s.modPart p fun x => { x with
    ends := (x.ends.filter fun v => !(v.rank = e.rank && v.step = e.step && v.mb = e.mb)) ++ [e] }

/-- Samples of a micro-batch that have come. -/
def samplesOf (s : State) (p r n mb : Nat) : List Sample :=
  (s.part p).samples.filter fun v => v.rank = r && v.step = n && v.mb = mb

/-- Where a refusal record goes: its mover address, or none if it is dropped. -/
def refusalAt (s : State) (p : Nat) : Option Word :=
  let n := s.getF F.STM_REF_CTRL_ENTRIES p
  let prod := s.getF F.STM_REF_CTRL_PROD p
  if n = 0 ∨ n ≤ (prod + 65536 - s.getF F.STM_REF_CTRL_CONS p) % 65536 then none
  else
    let a := s.word (F.STM_REF_BASE_BASE.off p)
    let o := spaceAddr a + 64 * (prod % n)
    if isHost a then if o + 64 ≤ 2 ^ 63 then some (BitVec.ofNat 64 (2 ^ 63 + o)) else none
    else if o + 64 ≤ 2 ^ 48 ∧ s.ownsRange p o 64 true then some (BitVec.ofNat 64 o) else none

/-- A micro-batch is refused: its record and the partition event, or one more lost. -/
def refuse (s : State) (p status len : Nat) (e : MbEnd) : State :=
  let b := leBytes 8 e.step ++ leBytes 4 e.rank ++ leBytes 2 e.mb ++ leBytes 1 status ++ leBytes 1 0 ++ leBytes 4 len ++
    macBytes e.mac ++ leBytes 38 0
  match s.refusalAt p with
  | none => s.bump F.STM_REF_CTRL_LOST p
  | some a =>
    let s := if isHost a then s.hwr (spaceAddr a) b else s.wr (spaceAddr a) b
    (s.putF F.STM_REF_CTRL_PROD p ((s.getF F.STM_REF_CTRL_PROD p + 1) % 65536)).pevt p 3

/-- The smallest class that holds a length. -/
def classFor (c : Classes) (len : Nat) : Option Nat := (List.range c.nclass).find? fun i => len ≤ c.maxlen.getD i 0

/-- The micro-batches of a rank's step are all admitted or refused: the template of each slot is selected, by the classes of
the micro-batch whose forward pass it runs and of the one before, whose backward pass it runs (R50). -/
def selectSlots (s : State) (p r n : Nat) : State :=
  let m := (s.mbCount p).1
  let cls (k : Nat) : Option Nat := match s.endOf p r n k with
    | some e => if e.status = some 0 then some e.cls else none
    | none => none
  if (List.range m).all fun k => (s.endOf p r n k).any (·.status.isSome) then
    s.modPart p fun x => { x with slots := (x.slots.filter fun v => ¬ (v.1 = r ∧ v.2.1 = n)) ++
      ((List.range (m + 1)).map fun k => (r, n, k, cls k, if k = 0 then none else cls (k - 1))) }
  else s

/-- Admits or refuses a micro-batch once it is complete. -/
def admitMb (s : State) (p r n mb : Nat) : State :=
  match s.plan p, s.endOf p r n mb with
  | some pl, some e =>
    let vs := s.samplesOf p r n mb
    if e.status.isSome ∨ ¬ (List.range e.nsample).all (fun i => vs.any (·.sample = i)) then s
    else
      let c := pl.classes.getD { mbSize := 0, mbCount := 1, nclass := 0, maxlen := [] }
      let len := (vs.map (·.length)).foldl max 0
      let s := if e.nsample ≠ c.mbSize ∨ e.bad ∨ vs.any (sampleBad pl) then
          (s.setEnd p { e with status := some 2 }).refuse p 2 len e
        else match classFor c len with
          | some k => s.setEnd p { e with status := some 0, cls := k }
          | none => (s.setEnd p { e with status := some 1 }).refuse p 1 len e
      s.selectSlots p r n
  | _, _ => s

/-! ## Samples (R377, R379) -/

/-- One record is taken. -/
def takeSample (s : State) (p : Nat) (v : Sample) : State :=
  if (s.mbCount p).1 ≤ v.mb then s.misroute p
  else if (s.endOf p v.rank v.step v.mb).any (·.status.isSome) ∨
      (s.samplesOf p v.rank v.step v.mb).any (·.sample = v.sample) then s.bump F.STM_ICNT_DUP p
  else (s.modPart p fun x => { x with samples := x.samples ++ [v] }).admitMb p v.rank v.step v.mb

/-- Takes the records that stand whole in a stream's bytes, `n` at most; answers the bytes taken. -/
def takeRecords (p rank step : Nat) : Nat → State → List Byte → State × Nat
  | 0, s, _ => (s, 0)
  | n + 1, s, b => match readRecord b rank step with
    | none => (s, 0)
    | some (v, k) => let r := takeRecords p rank step n (s.takeSample p v) (b.drop k); (r.1, k + r.2)

/-- Bytes of a rank's streams held for steps not yet committed. -/
def heldBytes (s : State) (p r : Nat) : Nat := bytesUpTo (s.part p) r (2 ^ 64)

def streamOfFeeder (s : State) (p mac r n : Nat) : Stream :=
  ((s.part p).streams.find? fun v => v.mac = mac && v.rank = r && v.step = n).getD
    { mac := mac, rank := r, step := n, frames := [], taken := 0 }

def setStream (s : State) (p : Nat) (v : Stream) : State :=
  s.modPart p fun x => { x with
    streams := (x.streams.filter fun w => !(w.mac = v.mac && w.rank = v.rank && w.step = v.step)) ++ [v] }

/-- A piece of a sample stream joins it, and every record now whole is taken. -/
def takeFrame (s : State) (h : StreamHdr) (payload : List Byte) : State :=
  let p := h.part
  let v := s.streamOfFeeder p h.mac h.rank h.step
  if v.frames.any (·.1 = h.seq) then s
  else if s.getF F.STM_IBUF_SIZE p < s.heldBytes p h.rank + payload.length then s.bump F.STM_ICNT_CREDIT p
  else
    let fs := v.frames ++ [(h.seq, payload)]
    let b := (inOrderFrames fs fs.length 0).1
    let s := s.setStream p { v with frames := fs }
    let (s, k) := takeRecords p h.rank h.step b.length s (b.drop v.taken)
    s.setStream p { v with frames := fs, taken := v.taken + k }

/-- The gap check an END starts for its sender's stream (R378). -/
def gapCheck (s : State) (h : StreamHdr) (total : Nat) : State :=
  let fs := (s.streamOfFeeder h.part h.mac h.rank h.step).frames
  let (b, k) := inOrderFrames fs fs.length 0
  if b.length < total then
    (match s.sendPort with
      | some port => s.frameTo port h.mac 8 h.part h.rank h.step false (leBytes 4 k ++ leBytes 4 0)
      | none => s).bump F.STM_ICNT_RESEND h.part
  else s

/-- A micro-batch end (R378, R486). -/
def takeEnd (s : State) (h : StreamHdr) (mb nsample total : Nat) : State :=
  let p := h.part
  match s.endOf p h.rank h.step mb with
  | some e =>
    if e.status.isSome then s.bump F.STM_ICNT_DUP p
    else ((s.setEnd p { e with bad := e.bad || nsample ≠ e.nsample }).gapCheck h total).admitMb p h.rank h.step mb
  | none =>
    let e : MbEnd := { rank := h.rank, step := h.step, mb := mb, nsample := nsample, mac := h.mac, bad := false, status := none, cls := 0 }
    ((s.setEnd p e).gapCheck h total).admitMb p h.rank h.step mb

/-- A feeder registers for a rank: at most 8, the oldest giving way (R380). -/
def register (s : State) (p rank mac : Nat) : State :=
  s.modPart p fun x =>
    let mine := x.feeders.filter (·.rank = rank)
    if mine.any (·.mac = mac) then x
    else
      let others := x.feeders.filter (·.rank ≠ rank)
      { x with feeders := others ++ (if 8 ≤ mine.length then mine.drop 1 else mine) ++ [{ rank := rank, mac := mac }] }

/-- `GRANT` of a rank (R379). -/
def grantOf (s : State) (p r : Nat) : Nat := (s.getF F.STM_IBUF_SIZE p + mget 0 (s.part p).freed r) % 2 ^ 64

/-- CREDIT frames to every feeder of every rank hosted here. -/
def sendCredits (s : State) (p : Nat) : State :=
  match s.sendPort with
  | none => s
  | some k => (s.part p).feeders.foldl (fun s f =>
      if (s.ranksHere p).contains f.rank then s.frameTo k f.mac 2 p f.rank (s.curStep p) false
          (leBytes 4 f.rank ++ leBytes 4 0 ++ leBytes 8 (s.grantOf p f.rank))
      else s) s

/-! ## Key exchange (R374) -/

/-- A key-exchange error ends the exchange. -/
def kexErr (s : State) (k : Nat) (x : Peer) (code : Nat) : State :=
  (s.setPeer { x with stage := 0, buf := [] }).kexTo k x.mac 0xFF x.stream [BitVec.ofNat 8 code]

/-- The whole second request: the association is installed under the next number, the one before it stays accepted. -/
def kexFinish (s : State) (k : Nat) (x : Peer) (stream : Nat) (obj : List Byte) : State :=
  let ekey := obj.take 1568
  let nonce : BitVec 256 := BitVec.ofNat 256 (leNat (obj.drop 1568))
  let (ct, ss) := Config.kemEncaps ekey s.ident.drbg
  let t := s.transcript x.stream stream ekey nonce ct
  let sig := s.aliasSign t
  let s := { s with ident := { s.ident with drbg := s.ident.drbg + 1 } }
  let s := s.setPeer { x with
    live := true, an := if x.live then (x.an + 1) % 4 else 0, old := if x.live then some x.an else none, stage := 0, buf := [],
    oldKeys := x.keys, oldPn := x.rxPn, keys := shakeBytes 88 (ss ++ t), rxPn := 0, txPn := 0 }
  s.kexTo k x.mac 0x82 stream (ct ++ leBytes 2 sig.length ++ sig)

/-- A whole object of a peer: `MSG`, the stream number, two zeros, and what follows. -/
def kexObject (s : State) (k : Nat) (x : Peer) (obj : List Byte) : State :=
  let msg := le obj 0 1
  let stream := le obj 1 1
  let y := { x with stream := stream, buf := [] }
  if obj.length < 4 ∨ le obj 2 2 ≠ 0 ∨ (msg ≠ 1 ∧ msg ≠ 2) then s.kexErr k y 3
  else if msg = 1 then
    if obj.length ≠ 4 then s.kexErr k y 3 else (s.setPeer { y with stage := 1 }).kexTo k x.mac 0x81 stream s.chain
  else if x.stage ≠ 1 then s.kexErr k y 1
  else if obj.length ≠ 1604 then s.kexErr k y 3
  else if s.flag F.SEC_STATE_RNGFAIL 0 then s
  else s.kexFinish k { x with buf := [] } stream (obj.drop 4)

/-- A KEX frame: its payload joins the object that is arriving, in `SEQ` order, and `LAST` ends it (R374, R375). -/
def kexIn (s : State) (k : Nat) (h : StreamHdr) (payload : List Byte) : State :=
  let x := s.peerOf h.mac
  let obj := x.buf ++ payload
  if !x.live && 256 ≤ (s.peers.filter (·.live)).length then s.kexTo k h.mac 0xFF (le payload 1 1) [4]
  else if x.buf ≠ [] ∧ h.seq ≠ x.next then s.kexErr k x 1
  else if 1604 < obj.length then s.kexErr k x 3
  else if h.last then s.kexObject k x obj
  else s.setPeer { x with buf := obj, next := h.seq + 1 }

/-! ## Checkpoint streams (R381) -/

/-- Bytes of a checkpoint's entry: the manifest for 0xFFFFFFFF, a table page by page, any other region as it lies; none past
the last entry. -/
def ckptBytes (s : State) (p r k : Nat) : Option (List Byte) :=
  let m := region p (.manifest r)
  let n := s.rdN (m + 0x10) 4
  if k = 0xFFFFFFFF then some (s.rd m (128 + 32 * n))
  else if n ≤ k then none
  else
    let e := m + 128 + 32 * k
    if s.rdN e 1 = 0x11 then
      (s.tableDesc p (s.rdN (e + 4) 4)).map fun d =>
        ((s.allPages p (s.rdN (e + 4) 4) d r).map fun x => s.rd x.base d.pageBytes).flatten
    else some (s.rd (s.rdN (e + 8) 6) (s.rdN (e + 0x10) 8))

/-- The entry after one: the first after the manifest is 0. -/
def ckptNext (k : Nat) : Nat := if k = 0xFFFFFFFF then 0 else k + 1

/-- The first entry from `k` on that has bytes left, `n` entries at most. -/
def ckptFrom (s : State) (p r : Nat) : Nat → Nat → Nat → Option (Nat × Nat × List Byte)
  | 0, _, _ => none
  | n + 1, k, o => match s.ckptBytes p r k with
    | none => none
    | some b => if o < b.length then some (k, o, b) else ckptFrom s p r n (ckptNext k) 0

/-- Most data bytes of a CKPT frame (R372, R373, R381). -/
def ckptRoom : Nat := 9216 - (12 + 16 + 2 + 32 + 16 + 16 + 4)

/-- A stream ends, with or without error. -/
def ckptEnd (s : State) (p err : Nat) : State :=
  ((s.putF F.STM_CKPT_CTRL_GO p 0).putF F.STM_CKPT_CTRL_ERR p err).modPart p fun x => { x with ckpt := none }

/-- Sends the next CKPT frame with at most `bytes` data bytes, if the receiver's credit allows it. -/
def ckptSend (s : State) (p bytes : Nat) (c : Ckpt) : State :=
  let entries := s.rdN (region p (.manifest c.rank) + 0x10) 4
  match s.ckptFrom p c.rank (entries + 2) c.entry c.offset with
  | none => s.ckptEnd p 0
  | some (k, o, b) =>
    let d := (b.drop o).take (min bytes ckptRoom)
    if d = [] ∨ c.grant < c.sent + 16 + d.length ∨ s.sendPort.isNone then s
    else
      let o' := o + d.length
      let last : Bool := (s.ckptFrom p c.rank (entries + 2) k o').isNone
      let s := s.frameTo (s.sendPort.getD 0) (s.getF F.STM_CKPT_DST_MAC p) 6 p c.rank (s.curStep p) last
        (leBytes 4 k ++ leBytes 4 0 ++ leBytes 8 o ++ d)
      if last then s.ckptEnd p 0
      else s.modPart p fun x => { x with
        ckpt := some { c with entry := k, offset := o', sent := c.sent + 16 + d.length } }

end State

/-- A SAMPLE frame (R377, R379, R380). -/
def execSampleFrame (port : Nat) (b : List Byte) (s : State) : Res :=
  .next (s.frameIn port b 1 fun s h d => if s.misrouted h then s.misroute h.part else s.takeFrame h d)

/-- An END frame (R378, R380, R486); one shorter than its fields is malformed, and counted as no frame of the protocol. -/
def execEndFrame (port : Nat) (head body check : List Byte) (s : State) : Res :=
  .next (s.frameIn port (head ++ body ++ check) 5 fun s h d =>
    if d.length < 16 then s.otherIn port
    else if s.misrouted h ∨ (s.mbCount h.part).1 ≤ le d 0 2 then s.misroute h.part
    else s.takeEnd h (le d 0 2) (le d 4 4) (le d 8 8))

/-- A REGISTER frame (R380). -/
def execRegisterFrame (x : RxFrame) (s : State) : Res :=
  .next (s.frameIn x.port x.b 4 fun s h _ => s.register h.part h.rank h.mac)

/-- The grant that a CREDIT payload's entries give a rank, the last of them; none where no entry names it (R379). -/
def grantIn (d : List Byte) (rank : Nat) : Option Nat :=
  ((List.range (d.length / 16)).reverse.find? fun i => le d (16 * i) 4 % 2 ^ 17 = rank).map fun i => le d (16 * i + 8) 8

/-- A CREDIT frame: from the receiver of a running checkpoint stream it paces it, from any other it is discarded (R376,
R381). -/
def execCreditFrame (port : Nat) (head body : List Byte) (s : State) : Res :=
  .next (s.frameIn port (head ++ body) 2 fun s h d => match (s.part h.part).ckpt with
    | some c =>
      if h.mac ≠ s.getF F.STM_CKPT_DST_MAC h.part then s.otherIn port
      else match grantIn d c.rank with
        | some g => s.modPart h.part fun x => { x with ckpt := some { c with grant := g } }
        | none => s
    | none => s.otherIn port)

/-- A KEX frame (R374). -/
def execKexFrame (port : Nat) (head body check : List Byte) (s : State) : Res :=
  .next (s.frameIn port (head ++ body ++ check) 7 fun s h d => s.kexIn port h d)

/-- CREDIT frames go out (R379). -/
def execCreditSend (p : Nat) (s : State) : Res := .next (s.sendCredits p)

/-- A stream port's link changes (R385). -/
def execStreamLinkChange (port : Nat) (up : Bool) (phy : Nat) (s : State) : Res :=
  .next (if 2 ≤ port then s
    else (s.putF F.STM_PSTAT_UP port (if up then 1 else 0)).putF F.STM_PSTAT_PHY port (if up then phy else 0))

/-- A write of `STM_CKPT_CTRL`; `GO` starts a stream unless the plan runs or the receiver is not ready (R381). -/
def execStmCkptGo (f : Func) (p : Nat) (v : Word) (s : State) : Res :=
  .next (s.gated f (F.STM_CKPT_CTRL_GO.off p) fun s =>
    let busy := s.flag F.STM_CKPT_CTRL_GO p
    let s := s.writeOthers (F.STM_CKPT_CTRL_GO.off p) v
    if getBits v 63 63 = 0 ∨ busy then s
    else
      let r := s.getF F.STM_CKPT_CTRL_RANK p
      let mac := s.getF F.STM_CKPT_DST_MAC p
      let ready : Bool := s.hasSa mac && ((s.part p).feeders.any fun x => x.rank = r && x.mac = mac) &&
        (s.plan p).isSome && (s.ranksHere p).contains r
      if s.running p ∨ ¬ ready then s.putF F.STM_CKPT_CTRL_ERR p 1
      else
        let s := { s with frameSeq := mput 0 s.frameSeq (State.streamNo 6 r (s.curStep p)) 0 }
        let c : Ckpt := { rank := r, entry := 0xFFFFFFFF, offset := 0, grant := 0, sent := 0 }
        ((s.putF F.STM_CKPT_CTRL_GO p 1).putF F.STM_CKPT_CTRL_ERR p 0).modPart p fun x => { x with ckpt := some c })

/-- The next frame of a checkpoint stream; a plan that runs stops it with `ERR` (R381). -/
def execCkptFrameSend (p bytes : Nat) (s : State) : Res :=
  .next (match (s.part p).ckpt with
    | none => s
    | some c => if s.running p then s.ckptEnd p 1 else s.ckptSend p bytes c)

/-- A frame of no use to the module (R372, R376): a reserved type, or one that only the module sends, is counted beside what
receipt itself counts; a frame of another row's type is not this command. -/
def execOtherFrame (x : RxFrame) (s : State) : Res :=
  .next (if !s.linkUp x.port then s
    else match s.hear x.port x.b with
      | (t, some (h, _)) => if [1, 2, 4, 5, 7].contains h.type then s else t.otherIn x.port
      | (t, none) => t)

end Sys2Proof.Machine
end

