-- ==== Sys2Proof/Machine/TestCmds.lean ====
section
/-! DEFINITION. Test and service (R434 to R442, R444): memory BIST on demand, Ash segments, the fabric traffic generator,
the error log's pop, and JTAG. -/

namespace Sys2Proof.Machine
namespace State

/-- Clusters of a mask. -/
def maskClusters (m : Nat) : List Nat := (List.range 32).filter fun c => natBits m c c = 1

/-- A BIST request is refused (R438). -/
def mbistRefused (s : State) : Bool :=
  s.getF F.PWR_STAT_STATE 0 ≠ 0 || s.flag F.TST_MBIST_GO 0 ||
  (maskClusters (s.getF F.TST_MBIST_CLUSTERS 0)).any fun c => (s.clusterPart c).any s.running

/-! ## Ash (R439 to R441) -/

/-- The eight tiles of a cluster. -/
def tilesIn (c : Nat) : List Nat := (List.range 8).map fun i => 8 * c + i

/-- The segment is the next one due: of the current cluster of a partition whose plan runs, in the first beat of the window
the Planner placed it in; or in an idle partition, while `IDLE_EN` is 1, the next of a cluster's test. -/
def ashDue (s : State) (p c seg : Nat) : Bool :=
  let x := s.part p
  if s.running p then x.ashCluster = some c && x.ashWins.contains (s.getF F.PLN_SPOS_POS p, seg) && !x.heldNow
  else s.flag F.TST_ASH_CTRL_IDLE_EN 0 && (s.ashPending c).head? = some seg

/-- A segment starts if it is due, its tiles are idle, and its eight activations fit beside the plan's own of the beat
(R428, R440). -/
def ashStarts (s : State) (p c seg : Nat) : Bool :=
  seg < 16 && s.ashDue p c seg && !s.test.ashRun.any (·.1 = c) &&
  (tilesIn c).all (fun g => s.getF F.TIL_STATUS_STATE g = 0) && (s.part p).acts = [] && s.grantsUsed p + 8 ≤ s.rampShare p

/-- What a segment saves and restores of a tile; increments held meanwhile are applied (R440). -/
def ashRestore (s : State) (g : Nat) : State :=
  match s.test.saved.find? (·.1 = g) with
  | none => s
  | some (_, t) =>
    let held := (s.tile g).heldToks
    let s := { s with test := { s.test with saved := s.test.saved.filter (·.1 ≠ g) } }
    let s := s.modTile g fun u => { u with
      sregs := t.sregs, dregs := t.dregs, preds := t.preds, banks := t.banks, toks := t.toks, chains := t.chains,
      carry := t.carry, heldToks := [], lastBusy := some s.bn }
    held.foldl (fun s k => s.incToken g k) s

/-- A segment passed: with none pending the cluster's test is complete and the next cluster's begins (R439). -/
def ashPassed (s : State) (p c seg : Nat) : State :=
  let left := (s.ashPending c).filter (· ≠ seg)
  let s := { s with test := { s.test with ashFailed := s.test.ashFailed.filter (·.1 ≠ c) } }
  if left ≠ [] then s.setAsh c left
  else
    let s := ((s.setAsh c ashAll).bump F.TST_ASH_STAT_PASSES 0).putF F.TST_ASH_STAT_LAST 0 c
    let next := ((s.clusters p).find? (c < ·)).or (s.clusters p).head?
    s.modPart p fun x => if x.ashCluster = some c then { x with ashCluster := next } else x

/-- A segment failed at a tile: recorded, logged, a module fault; the same segment failing again before any of its
cluster passes fails the module, and it comes first in the cluster's next window (R441). -/
def ashFails (s : State) (p c seg g : Nat) : State :=
  let again : Bool := s.test.ashFailed.contains (c, seg)
  let s := s.setAsh c (seg :: (s.ashPending c).filter (· ≠ seg))
  let s := (s.bump F.TST_ASH_STAT_FAILS 0).elog 4 g seg 0
  let s := if s.flag F.TST_ASH_FAIL_VALID 0 then s
    else (((s.putF F.TST_ASH_FAIL_VALID 0 1).putF F.TST_ASH_FAIL_SEG 0 seg).putF F.TST_ASH_FAIL_TILE 0 g).putF
      F.TST_ASH_FAIL_BN 0 s.bn
  let s := s.moduleFault p 0x0D noTask false
  if again then (s.putF F.TST_ASH_FAIL_FAILED 0 1).failModule 3 0
  else { s with test := { s.test with ashFailed := s.test.ashFailed ++ [(c, seg)] } }

/-! ## Traffic generator -/

/-- Sends the TEST messages; to itself the module delivers them inside. -/
def sendTests (s : State) (c : TClass) (dest : Nat) : Nat → Nat → State
  | 0, _ => s
  | n + 1, i =>
    let h : MsgHdr := { dest := dest, src := s.pos, kind := 5, part := 0, attempt := 0, next := false, step := 0, addr := 0,
                        token := 0, task := noTask }
    let s := if dest = s.pos then s.testCheck (testPayload i)
      else s.sendMsg c h (.message c h (testPayload i))
    sendTests { s with test := { s.test with ftgSent := s.test.ftgSent + 1 } } c dest n (i + 1)

/-- A JTAG pin instruction acts only while `PERST_N` is asserted (R434). -/
def pinsTo (s : State) (v : Nat) : State := if s.power.perst then { s with test := { s.test with pins := some v } } else s

end State

/-- A write of `TST_MBIST`: `GO` starts a run over the clusters named, or is refused (R438). -/
def execTstMbistGo (f : Func) (v : Word) (s : State) : Res :=
  .next (s.gated f F.TST_MBIST_GO.base fun s =>
    let s := s.writeOthers F.TST_MBIST_GO.base v
    if getBits v 63 63 = 0 then s
    else if s.mbistRefused then (s.putF F.TST_MBIST_FAIL 0 1).putF F.TST_MBIST_MEM 0 0
    else
      let s := { s with test := { s.test with bist := s.getF F.TST_MBIST_CLUSTERS 0 } }
      (s.putF F.TST_MBIST_FAIL 0 0).putF F.TST_MBIST_GO 0 1)

/-- A run ends: the clusters it tested are wiped, and a failure is recorded and fails the module (R438). -/
def execMbistDone (fail : Option (Nat × Nat)) (s : State) : Res :=
  .next (if !s.flag F.TST_MBIST_GO 0 then s
    else
      let s := (State.maskClusters s.test.bist).foldl State.wipeCluster (s.putF F.TST_MBIST_GO 0 0)
      let s := { s with test := { s.test with bist := 0 } }
      match fail with
      | some (mem, inst) => s.bistFails mem inst
      | none => s)

/-- An Ash segment starts on all 8 tiles of a cluster, whose state it saves; one not due or not granted is skipped
(R439, R440). -/
def execAshSegmentStart (c seg : Nat) (s : State) : Res :=
  .next (match s.clusterPart c with
    | none => s
    | some p =>
      if !s.ashStarts p c seg then s
      else
        let u := s.grantsUsed p + 8
        let s := s.modPart p fun x => { x with grants := (s.bn, u) }
        { s with test := { s.test with
            ashRun := s.test.ashRun ++ [(c, seg)], saved := s.test.saved ++ (State.tilesIn c).map fun g => (g, s.tile g) } })

/-- An Ash segment ends: tiles are restored, and each tile's signature is compared with the golden one (R440, R441). -/
def execAshSegmentEnd (c : Nat) (signatures : List Word) (s : State) : Res :=
  .next (match s.test.ashRun.find? (·.1 = c) with
    | none => s
    | some (_, seg) =>
      let p := (s.clusterPart c).getD 0
      let s := { s with test := { s.test with ashRun := s.test.ashRun.filter (·.1 ≠ c) } }
      let s := (State.tilesIn c).foldl State.ashRestore s
      match (List.range 8).find? fun i => signatures[i]? ≠ some (Config.ashGolden seg 1) with
      | some i => s.ashFails p c seg (8 * c + i)
      | none => s.ashPassed p c seg)

/-- A write of `TST_FTG`: `GO` sends `COUNT` TEST messages; a second one before they are sent is ignored (R246). -/
def execTstFtgGo (f : Func) (v : Word) (s : State) : Res :=
  .next (s.gated f F.TST_FTG_GO.base fun s =>
    let s := s.settleFtg
    let busy := s.flag F.TST_FTG_GO 0
    let s := s.writeOthers F.TST_FTG_GO.base v
    if getBits v 63 63 = 0 ∨ busy then s
    else
      let c : TClass := if s.flag F.TST_FTG_CLASS 0 then .slate else .pewter
      let s := { (s.putF F.TST_FTG_GO 0 1) with test := { s.test with ftgSent := 0 } }
      (s.sendTests c (s.getF F.TST_FTG_DEST 0) (s.getF F.TST_FTG_COUNT 0) 0).settleFtg)

/-- A 1 written to `TST_ELOG_POP` removes the oldest entry (R442). -/
def execTstElogPop (f : Func) (v : Word) (s : State) : Res :=
  .next (s.gated f F.TST_ELOG_POP_POP.base fun s =>
    if getBits v 0 0 = 1 then { s with test := { s.test with elog := s.test.elog.drop 1 } } else s)

/-- EXTEST drives pins while `PERST_N` is asserted (R434). -/
def execExtest (s : State) : Res := .next (s.pinsTo 1)

/-- CLAMP holds pins while `PERST_N` is asserted (R434). -/
def execClamp (s : State) : Res := .next (s.pinsTo 2)

/-- HIGHZ releases pins while `PERST_N` is asserted (R434). -/
def execHighz (s : State) : Res := .next (s.pinsTo 3)

/-- IDCODE: stepping A1, part 0x0480, Maellon's code, and a 1 (R434). -/
def execIdcode (s : State) : Res :=
  .next (s.emit (.tdo (0x1 * 2 ^ 28 + 0x0480 * 2 ^ 12 + Config.jep106 % 2 ^ 11 * 2 + 1) 32))

end Sys2Proof.Machine
end

