-- ==== Sys2Proof/Machine/RegWrite.lean ====
section
/-! DEFINITION. Register writes (R9, R10): one that reaches a field with a command of its own is that command, whether it
comes whole or as a half of the register; any other sets, clears or ignores its fields by their access types. -/

namespace Sys2Proof.Machine
namespace State

/-- One meaning after another. -/
def andThen (r : Res) (f : State → Res) : Res := match r with
  | .next s => f s
  | e => e

/-- The whole register that a write of bits [hi:lo] stands for: outside them the RW fields as they are and 0 elsewhere, so
that nothing there acts (R9). -/
def wholeWrite (s : State) (r : RegRow) (o hi lo : Nat) (w : Word) : Word :=
  r.fields.foldl (fun v f =>
    if inBits f hi lo then v
    else
      let m := fieldMask f.hi f.lo
      let old := if f.acc = .rw then s.word o else 0
      let got := fieldMask hi lo
      (v &&& ~~~ m) ||| (w &&& m &&& got) ||| (old &&& m &&& ~~~ got)) w

/-- The memory unit with a register block at an offset. -/
def blockUnit (o : Nat) : MemUnit := if o < 0x80_0000 then .stack ((o - 0x70_0000) / 0x1000) else .umber ((o - 0x80_0000) / 0x1000)

/-- Partitions whose plan runs and whose home rank is hosted elsewhere, for a claim (R287). -/
def claimParts (s : State) : List Nat := (List.range 8).filter fun p => s.running p && !(s.ranksHere p).contains (s.homeRank p)

/-- The command that a write of `v` to a register with fields of their own commands is. `i` is the register's instance.
In recovery `SEC_FW_CTRL.GO` goes with the image pushed, which the command `RECOVERY_GO` carries (assumption 29). -/
def commandAt (s : State) (f : Func) (r : RegRow) (o i : Nat) (v : Word) : Option Res :=
  let has (x : Fld) : Bool := r.fields.contains x
  if has F.PWR_CTRL_GO then some (.next (s.powerRequest f v (getBits v 2 0)))
  else if has F.PWR_RAMP_SHARE then some (execPwrRampWrite f v s)
  else if has F.SEC_FW_CTRL_GO then some (andThen (execSvnCommit f v s) (execFwUpdateGo f v))
  else if has F.PLN_BN_LOAD_BN then some (execPlnBnLoad f v s)
  else if has F.PLN_CTRL_RUN then some (if getBits v 0 0 = 1 then execRunSet f i v s else execRunClear f i v s)
  else if has F.PLN_LOAD_GO then (if getBits v 0 0 = 1 then some (execPlanLoadGo f i s) else none)
  else if has F.PLN_HOLD_POP_POP then some (execPlnHoldPop f i v s)
  else if has F.DMA_MCFG_EN then some (execDmaMcfgWrite f i v s)
  else if has F.STM_CKPT_CTRL_GO then some (execStmCkptGo f i v s)
  else if has F.FAB_CFG_X then some (execFabCfgWrite f v s)
  else if has F.FAB_BYP_OPEN then some (execBypassOpen f v s)
  else if has F.FAB_HCTRL_CLAIM then
    some ((if s.claimParts = [] then [0] else s.claimParts).foldl (fun q p => andThen q (execHostClaim f p v)) (.next s))
  else if has F.FAB_PCTRL_EN then
    some (.next (s.gated f o fun s =>
      match andThen (execPortEnable i v s) fun s => if getBits v 1 1 = 1 then execPortRetrain i s else .next s with
      | .next t => t
      | _ => s))
  else if has F.MEM_REG_CTRL_DISCARD ∨ has F.UMB_REG_CTRL_DISCARD then
    (if getBits v 1 1 = 1 then some (execRegCtrlDiscard (.mem (blockUnit o)) s) else none)
  else if has F.PRT_FREG_CTRL_DISCARD then (if getBits v 1 1 = 1 then some (execRegCtrlDiscard (.flit i) s) else none)
  else if has F.MEM_MARGIN_APPLY ∨ has F.UMB_MARGIN_APPLY then some (.next (s.gated f o fun s => s.marginWrite (unitNo (blockUnit o)) v))
  else if has F.MEM_TG_CTRL_GO then some (execTgGo (blockUnit o) (i % 32) v s)
  else if has F.UMB_TG_CTRL_GO then some (execTgGo (blockUnit o) (i % 4) v s)
  else if has F.ROW_REPL_CTRL_GO then some (execRowReplGo f i v s)
  else if has F.TST_MBIST_GO then some (execTstMbistGo f v s)
  else if has F.TST_ELOG_POP_POP then some (execTstElogPop f v s)
  else if has F.TST_FTG_GO then some (execTstFtgGo f v s)
  else if has F.PRT_CLUSTERS_MASK then some (execPrtClustersWrite f i v s)
  else if has F.PRT_QUOTA_HBM_Q then some (execPrtQuotaWrite f i v s)
  else if has F.PRT_RESET_RESET then some (execPrtReset f i v s)
  else if has F.PRT_FRZ_POP_POP then some (execPrtFrzPop f i v s)
  else if has F.PRT_GRAN_OWNERS then some (execPrtGranWrite f i v s)
  else none

/-- Some field with a command of its own lies at least in part in the bits written. -/
def reachesOwn (r : RegRow) (hi lo : Nat) : Bool := r.fields.any fun f => f.own && lo ≤ f.hi && f.lo ≤ hi

/-- The queue page's command registers take any write: `QRING`, `QARM`, `QABORT` (R357). -/
def queueWrite (s : State) (f : Func) (o : Nat) (v : Word) : Option Res :=
  if 0x400_0000 ≤ o ∧ o < 0x410_0000 then
    let q := (o - 0x400_0000) / 0x1000
    match o % 0x1000 with
    | 0 => some (execDmaQring f q v s)
    | 8 => some (execDmaQarm f q v s)
    | 0x10 => some (execDmaQabort f q s)
    | _ => none
  else none

/-- A write of a size at an offset of a function. -/
def regStore (s : State) (f : Func) (off size : Nat) (v : Word) : Res :=
  let (s, taken) := s.tlpIn f
  if !taken then .next s
  else if !sizeOk off size then .next (s.genErr f 0 (s.errOff f off))
  else match s.mapOff f (off - off % 8) with
    | none => .next s
    | some o =>
      let (hi, lo) := accessBits off size
      let w := if lo = 32 then v <<< 32 else if hi = 31 then v &&& fieldMask 31 0 else v
      let plain : Res := .next (s.gated f o fun s => s.afterWrite (s.writeFields o hi lo w) o)
      match regAt o with
      | some (r, i) =>
        if reachesOwn r hi lo then (s.commandAt f r o i (s.wholeWrite r o hi lo w)).getD plain else plain
      | none => (s.queueWrite f o w).getD plain

end State

/-- A write to a register sets, clears or ignores each field by its access type, and where it reaches a field with a command of
its own it is that command (R9, R10). -/
def execRegisterWrite (f : Func) (off size : Nat) (v : Word) (s : State) : Res := s.regStore f off size v

/-- A BAR0 access through JTAG obeys the PF's rules; with debug locked it reads 0 and its writes are ignored
(R435, R436). -/
def execJtagBar0Access (off size : Nat) (wr : Option Word) (s : State) : Res :=
  match s.flag F.SEC_STATE_DEBUG 0, wr with
  | false, none => .next (s.emit (.readData .jtag off 0))
  | false, some _ => .next s
  | true, none => .next (s.regRead .jtag off size)
  | true, some v => s.regStore .jtag off size v

end Sys2Proof.Machine
end

