-- ==== Sys2Proof/Machine/TileEvents.lean ====
section
/-! DEFINITION. The events of a tile: results becoming visible, waits ending, arrivals (R62, R77 to R81). -/

namespace Sys2Proof.Machine

/-- The next result in flight of tile `g` becomes visible: time comes to its cycle, `L` cycles after issue (R62). -/
def execInstructionResultVisible (g : Nat) (s : State) : Res :=
  .next (match State.firstPend (s.tile g).pend with
    | some x => s.advance x.vis
    | none => s)

/-- A beat wait ends in the first beat at or past its target; the next bundle issues in cycle 2 of the beat (R77). -/
def execWaitBeatSatisfied (g : Nat) (s : State) : Res :=
  .next (match (s.tile g).wait with
    | some (.beat target _) =>
      if s.getF F.TIL_STATUS_STATE g = 2 ∧ target ≤ s.getF F.PLN_SPOS_POS (s.tilePart g) then
        s.endWait g (max (s.beatStart + 2) s.now)
      else s
    | _ => s)

/-- A token wait ends; the next bundle issues 2 cycles later (R78). -/
def execWaitTokSatisfied (g : Nat) (s : State) : Res :=
  .next (match (s.tile g).wait with
    | some (.tok tk imm _) =>
      if s.getF F.TIL_STATUS_STATE g = 2 ∧ tokReached ((s.tile g).tok tk) imm then (s.waited g tk).endWait g (s.now + 2) else s
    | _ => s)

/-- The cycle count of `cs.wait.cyc` expires (R74). -/
def execWaitCycExpiry (g : Nat) (s : State) : Res :=
  .next (match (s.tile g).wait with
    | some (.cyc c) => (s.advance c).modTile g fun t => { t with wait := none }
    | _ => s)

/-- The beat in which a token or beat wait began (R81). -/
def waitSince : Option Wait → Option Nat
  | some (.beat _ b) => some b
  | some (.tok _ _ b) => some b
  | _ => none

/-- A wait has lasted `WAIT_LIMIT` × 256 beats: the plan fault `WAIT_TIMEOUT` at the waiting word (R81). -/
def execWaitTimeout (g : Nat) (s : State) : Res :=
  let lim := s.getF F.TIL_CTRL_WAIT_LIMIT g
  .next (match waitSince (s.tile g).wait with
    | some b =>
      if s.getF F.TIL_STATUS_STATE g = 2 ∧ lim ≠ 0 ∧ b + 256 * lim ≤ s.bn then
        s.planFault g 0x0C 3 (s.bundleEnd g 4 (s.tile g).bundlePc - 1)
      else s
    | none => s)

/-- The oldest armed arrival of tile `g`: once its writes are visible the target token is incremented once (R79). -/
def execArriveIncrement (g : Nat) (s : State) : Res :=
  .next (match (s.tile g).arrives with
    | a :: rest =>
      let s := s.advance a.at_
      let s := s.modTile g fun t => { t with arrives := rest }
      (match State.tokenOf a.token with
        | some (h, k) => s.incToken h k
        | none => s)
    | [] => s)

/-- Channel `ch` of cluster `c` has moved its first chain whole (its next descriptor is 0): the chain leaves the
channel and its token is incremented (R80). -/
def execDmaArrival (c ch : Nat) (s : State) : Res :=
  .next (match (s.cmover (8 * c + ch)).chains with
    | k :: rest =>
      if k.addr ≠ 0 then s
      else
        let s := s.modCmover (8 * c + ch) fun m => { m with chains := rest }
        (match k.tile with
          | some g => s.incToken g k.token
          | none => s.taskDone k.part k.task)
    | [] => s)

end Sys2Proof.Machine
end

