-- ==== Sys2Proof/Machine/Dispatch.lean ====
section
/-! DEFINITION. The effect of every command on everything but the queue: one arm per row of the table. -/

namespace Sys2Proof.Machine

def exec (i : Instr) (s : State) : Host.Outcome State Fault Refusal :=
  match i with
  | .registerWrite f off size v => Sys2Proof.Machine.execRegisterWrite f off size v s
  | .rcFieldRead f off size => Sys2Proof.Machine.execRcFieldRead f off size s
  | .beat => Sys2Proof.Machine.execBeat s
  | .beatSourceLost => Sys2Proof.Machine.execBeatSourceLost s
  | .masterMarkerLoss => Sys2Proof.Machine.execMasterMarkerLoss s
  | .holdoverExit src markerBn edge => Sys2Proof.Machine.execHoldoverExit src markerBn edge s
  | .alternateUpstream port => Sys2Proof.Machine.execAlternateUpstream port s
  | .upstreamReturn => Sys2Proof.Machine.execUpstreamReturn s
  | .masterDeclare => Sys2Proof.Machine.execMasterDeclare s
  | .beatLost => Sys2Proof.Machine.execBeatLost s
  | .plnBnLoad f v => Sys2Proof.Machine.execPlnBnLoad f v s
  | .bnLoadApply => Sys2Proof.Machine.execBnLoadApply s
  | .beatFlit port b came => Sys2Proof.Machine.execBeatFlit port b came s
  | .planLoadGo f p => Sys2Proof.Machine.execPlanLoadGo f p s
  | .planLoadDone p digests => Sys2Proof.Machine.execPlanLoadDone p digests s
  | .runSet f p v => Sys2Proof.Machine.execRunSet f p v s
  | .runClear f p v => Sys2Proof.Machine.execRunClear f p v s
  | .planStart p => Sys2Proof.Machine.execPlanStart p s
  | .stepOrigin p => Sys2Proof.Machine.execStepOrigin p s
  | .tileDispatch p task g share base => Sys2Proof.Machine.execTileDispatch p task g share base s
  | .clusterMove p task chain => Sys2Proof.Machine.execClusterMove p task chain s
  | .hostMove p task chain => Sys2Proof.Machine.execHostMove p task chain s
  | .indexSort p table mb => Sys2Proof.Machine.execIndexSort p table mb s
  | .segmentReduction p table => Sys2Proof.Machine.execSegmentReduction p table s
  | .gatherAndPool p table mb rank errs => Sys2Proof.Machine.execGatherAndPool p table mb rank errs s
  | .sparseUpdate p table => Sys2Proof.Machine.execSparseUpdate p table s
  | .carmineTransfer p task dests bytes src dst token => Sys2Proof.Machine.execCarmineTransfer p task dests bytes src dst token s
  | .collective p task rank => Sys2Proof.Machine.execCollective p task rank s
  | .ingestDelivery p task mb => Sys2Proof.Machine.execIngestDelivery p task mb s
  | .prefetch p table => Sys2Proof.Machine.execPrefetch p table s
  | .workingCopyCompare p tensor block master copy fmt => Sys2Proof.Machine.execWorkingCopyCompare p tensor block master copy fmt s
  | .calibrationTask p layer u w => Sys2Proof.Machine.execCalibrationTask p layer u w s
  | .windowOpen p task bytes => Sys2Proof.Machine.execWindowOpen p task bytes s
  | .holdFlit port x => Sys2Proof.Machine.execHoldFlit port x s
  | .holdLanding p land => Sys2Proof.Machine.execHoldLanding p land s
  | .holdLimitReached p => Sys2Proof.Machine.execHoldLimitReached p s
  | .plnHoldPop f p v => Sys2Proof.Machine.execPlnHoldPop f p v s
  | .balanceDecision p finish => Sys2Proof.Machine.execBalanceDecision p finish s
  | .mxMul g w => Sys2Proof.Machine.execMxMul g w s
  | .mxMultA g w => Sys2Proof.Machine.execMxMultA g w s
  | .mxMultB g w => Sys2Proof.Machine.execMxMultB g w s
  | .mxLd g w => Sys2Proof.Machine.execMxLd g w s
  | .mxSt g w => Sys2Proof.Machine.execMxSt g w s
  | .mxStq g w => Sys2Proof.Machine.execMxStq g w s
  | .mxZero g w => Sys2Proof.Machine.execMxZero g w s
  | .vcRun g w => Sys2Proof.Machine.execVcRun g w s
  | .vcCfg g w => Sys2Proof.Machine.execVcCfg g w s
  | .add g w => Sys2Proof.Machine.execAdd g w s
  | .sub g w => Sys2Proof.Machine.execSub g w s
  | .mul g w => Sys2Proof.Machine.execMul g w s
  | .and g w => Sys2Proof.Machine.execAnd g w s
  | .or g w => Sys2Proof.Machine.execOr g w s
  | .xor g w => Sys2Proof.Machine.execXor g w s
  | .shl g w => Sys2Proof.Machine.execShl g w s
  | .shr g w => Sys2Proof.Machine.execShr g w s
  | .sra g w => Sys2Proof.Machine.execSra g w s
  | .min g w => Sys2Proof.Machine.execMin g w s
  | .max g w => Sys2Proof.Machine.execMax g w s
  | .cmpEq g w => Sys2Proof.Machine.execCmpEq g w s
  | .cmpNe g w => Sys2Proof.Machine.execCmpNe g w s
  | .cmpLt g w => Sys2Proof.Machine.execCmpLt g w s
  | .cmpLtu g w => Sys2Proof.Machine.execCmpLtu g w s
  | .pand g w => Sys2Proof.Machine.execPand g w s
  | .por g w => Sys2Proof.Machine.execPor g w s
  | .pxor g w => Sys2Proof.Machine.execPxor g w s
  | .xsLd g w => Sys2Proof.Machine.execXsLd g w s
  | .xsSt g w => Sys2Proof.Machine.execXsSt g w s
  | .xdSet g w => Sys2Proof.Machine.execXdSet g w s
  | .xdLd g w => Sys2Proof.Machine.execXdLd g w s
  | .xdSt g w => Sys2Proof.Machine.execXdSt g w s
  | .xmCopy g w => Sys2Proof.Machine.execXmCopy g w s
  | .xmDma g w => Sys2Proof.Machine.execXmDma g w s
  | .csBr g w => Sys2Proof.Machine.execCsBr g w s
  | .csLoop g w => Sys2Proof.Machine.execCsLoop g w s
  | .csWaitBeat g w => Sys2Proof.Machine.execCsWaitBeat g w s
  | .csWaitTok g w => Sys2Proof.Machine.execCsWaitTok g w s
  | .csWaitCyc g w => Sys2Proof.Machine.execCsWaitCyc g w s
  | .csArrive g w => Sys2Proof.Machine.execCsArrive g w s
  | .csHalt g w => Sys2Proof.Machine.execCsHalt g w s
  | .instructionResultVisible g => Sys2Proof.Machine.execInstructionResultVisible g s
  | .waitBeatSatisfied g => Sys2Proof.Machine.execWaitBeatSatisfied g s
  | .waitTokSatisfied g => Sys2Proof.Machine.execWaitTokSatisfied g s
  | .waitCycExpiry g => Sys2Proof.Machine.execWaitCycExpiry g s
  | .waitTimeout g => Sys2Proof.Machine.execWaitTimeout g s
  | .arriveIncrement g => Sys2Proof.Machine.execArriveIncrement g s
  | .dmaArrival c ch => Sys2Proof.Machine.execDmaArrival c ch s
  | .cfg e f => Sys2Proof.Machine.execCfg e f s
  | .gather e f errs => Sys2Proof.Machine.execGather e f errs s
  | .pool e f errs => Sys2Proof.Machine.execPool e f errs s
  | .update e f errs => Sys2Proof.Machine.execUpdate e f errs s
  | .copy e f errs => Sys2Proof.Machine.execCopy e f errs s
  | .restore e f => Sys2Proof.Machine.execRestore e f s
  | .release e f => Sys2Proof.Machine.execRelease e f s
  | .fence e f => Sys2Proof.Machine.execFence e f s
  | .ochreCommandComplete e q tag => Sys2Proof.Machine.execOchreCommandComplete e q tag s
  | .completionRecordRead e q => Sys2Proof.Machine.execCompletionRecordRead e q s
  | .placementPeriod p => Sys2Proof.Machine.execPlacementPeriod p s
  | .pageCopy p => Sys2Proof.Machine.execPageCopy p s
  | .shardMoveDecision p table loads => Sys2Proof.Machine.execShardMoveDecision p table loads s
  | .rowReplGo f p v => Sys2Proof.Machine.execRowReplGo f p v s
  | .replacementCopyDone p => Sys2Proof.Machine.execReplacementCopyDone p s
  | .replacementStateExchange p states => Sys2Proof.Machine.execReplacementStateExchange p states s
  | .refresh u => Sys2Proof.Machine.execRefresh u s
  | .patrolScrub u errs => Sys2Proof.Machine.execPatrolScrub u errs s
  | .refreshManagement u => Sys2Proof.Machine.execRefreshManagement u s
  | .temperatureReadout u temp => Sys2Proof.Machine.execTemperatureReadout u temp s
  | .wheelApply => Sys2Proof.Machine.execWheelApply s
  | .regCtrlDiscard u => Sys2Proof.Machine.execRegCtrlDiscard u s
  | .marginOffline u v => Sys2Proof.Machine.execMarginOffline u v s
  | .offlineEnter u => Sys2Proof.Machine.execOfflineEnter u s
  | .offlineLeave u trained => Sys2Proof.Machine.execOfflineLeave u trained s
  | .marginApply u v => Sys2Proof.Machine.execMarginApply u v s
  | .tgGo u n v => Sys2Proof.Machine.execTgGo u n v s
  | .tgDone u n errs => Sys2Proof.Machine.execTgDone u n errs s
  | .fabCfgWrite f v => Sys2Proof.Machine.execFabCfgWrite f v s
  | .portEnable port v => Sys2Proof.Machine.execPortEnable port v s
  | .opticalSignalDetect port => Sys2Proof.Machine.execOpticalSignalDetect port s
  | .equaliseDone port lanes => Sys2Proof.Machine.execEqualiseDone port lanes s
  | .alignDone port farPos rings rtt => Sys2Proof.Machine.execAlignDone port farPos rings rtt s
  | .keyingDone port peer => Sys2Proof.Machine.execKeyingDone port peer s
  | .trainingLimitExpiry port => Sys2Proof.Machine.execTrainingLimitExpiry port s
  | .portRetrain port => Sys2Proof.Machine.execPortRetrain port s
  | .laneLoss port lanes => Sys2Proof.Machine.execLaneLoss port lanes s
  | .remapDone port => Sys2Proof.Machine.execRemapDone port s
  | .portSignalLost port => Sys2Proof.Machine.execPortSignalLost port s
  | .nakReceive port seq => Sys2Proof.Machine.execNakReceive port seq s
  | .retryTimeout port => Sys2Proof.Machine.execRetryTimeout port s
  | .sealFlit port seq group count tagOk credit => Sys2Proof.Machine.execSealFlit port seq group count tagOk credit s
  | .writeMessage c h payload => Sys2Proof.Machine.execWriteMessage c h payload s
  | .collectiveMessage c h k data => Sys2Proof.Machine.execCollectiveMessage c h k data s
  | .rowUniqueKeys c h r keys => Sys2Proof.Machine.execRowUniqueKeys c h r keys s
  | .rowBagEntries c h r entries => Sys2Proof.Machine.execRowBagEntries c h r entries s
  | .rowShardPartials c h r recs => Sys2Proof.Machine.execRowShardPartials c h r recs s
  | .rowGradients c h r recs => Sys2Proof.Machine.execRowGradients c h r recs s
  | .rowWinnerVectors c h r recs => Sys2Proof.Machine.execRowWinnerVectors c h r recs s
  | .testMessage c h payload => Sys2Proof.Machine.execTestMessage c h payload s
  | .bypassOpen f v => Sys2Proof.Machine.execBypassOpen f v s
  | .deltaSend p rank sectors => Sys2Proof.Machine.execDeltaSend p rank sectors s
  | .deltaEnd p rank step bytes => Sys2Proof.Machine.execDeltaEnd p rank step bytes s
  | .deltaAck p rank step => Sys2Proof.Machine.execDeltaAck p rank step s
  | .deltaLogApply p rank => Sys2Proof.Machine.execDeltaLogApply p rank s
  | .failureNotice p positions bn => Sys2Proof.Machine.execFailureNotice p positions bn s
  | .hostingDecision p => Sys2Proof.Machine.execHostingDecision p s
  | .resume p r => Sys2Proof.Machine.execResume p r s
  | .lateResumeReport p hepoch => Sys2Proof.Machine.execLateResumeReport p hepoch s
  | .hostingStop p step digestsDiffer => Sys2Proof.Machine.execHostingStop p step digestsDiffer s
  | .portStatusReport p pos port up => Sys2Proof.Machine.execPortStatusReport p pos port up s
  | .restart p step originBn => Sys2Proof.Machine.execRestart p step originBn s
  | .commitStateReport p pos r => Sys2Proof.Machine.execCommitStateReport p pos r s
  | .hostClaim f p v => Sys2Proof.Machine.execHostClaim f p v s
  | .commitReportSend p => Sys2Proof.Machine.execCommitReportSend p s
  | .commitReportReceive p r => Sys2Proof.Machine.execCommitReportReceive p r s
  | .rerunOrigin p => Sys2Proof.Machine.execRerunOrigin p s
  | .commitBeat p => Sys2Proof.Machine.execCommitBeat p s
  | .vfFlr k => Sys2Proof.Machine.execVfFlr k s
  | .pfFlr => Sys2Proof.Machine.execPfFlr s
  | .getChain stream => Sys2Proof.Machine.execGetChain stream s
  | .kemKey stream ekey nonce => Sys2Proof.Machine.execKemKey stream ekey nonce s
  | .keyGo stream k => Sys2Proof.Machine.execKeyGo stream k s
  | .ideStop stream => Sys2Proof.Machine.execIdeStop stream s
  | .getReport nonce => Sys2Proof.Machine.execGetReport nonce s
  | .getNonce => Sys2Proof.Machine.execGetNonce s
  | .setOwner c => Sys2Proof.Machine.execSetOwner c s
  | .releaseOwner c => Sys2Proof.Machine.execReleaseOwner c s
  | .deploy c => Sys2Proof.Machine.execDeploy c s
  | .returnLc c => Sys2Proof.Machine.execReturnLc c s
  | .scrap c => Sys2Proof.Machine.execScrap c s
  | .bar2WindowAccess f off wr len => Sys2Proof.Machine.execBar2WindowAccess f off wr len s
  | .dmaQring f q v => Sys2Proof.Machine.execDmaQring f q v s
  | .dmaQarm f q v => Sys2Proof.Machine.execDmaQarm f q v s
  | .dmaQabort f q => Sys2Proof.Machine.execDmaQabort f q s
  | .abortComplete h => Sys2Proof.Machine.execAbortComplete h s
  | .moverChainStart h => Sys2Proof.Machine.execMoverChainStart h s
  | .descriptorStart h => Sys2Proof.Machine.execDescriptorStart h s
  | .descriptorComplete h => Sys2Proof.Machine.execDescriptorComplete h s
  | .hostCompletionError h => Sys2Proof.Machine.execHostCompletionError h s
  | .dmaMcfgWrite f h v => Sys2Proof.Machine.execDmaMcfgWrite f h v s
  | .sampleFrame port b => Sys2Proof.Machine.execSampleFrame port b s
  | .endFrame port head body check => Sys2Proof.Machine.execEndFrame port head body check s
  | .registerFrame x => Sys2Proof.Machine.execRegisterFrame x s
  | .creditFrame port head body => Sys2Proof.Machine.execCreditFrame port head body s
  | .kexFrame port head body check => Sys2Proof.Machine.execKexFrame port head body check s
  | .creditSend p => Sys2Proof.Machine.execCreditSend p s
  | .streamLinkChange port up phy => Sys2Proof.Machine.execStreamLinkChange port up phy s
  | .stmCkptGo f p v => Sys2Proof.Machine.execStmCkptGo f p v s
  | .ckptFrameSend p bytes => Sys2Proof.Machine.execCkptFrameSend p bytes s
  | .coldBoot flash trained bistFail links => Sys2Proof.Machine.execColdBoot flash trained bistFail links s
  | .fwUpdateGo f v => Sys2Proof.Machine.execFwUpdateGo f v s
  | .fwUpdateDone check flashOk => Sys2Proof.Machine.execFwUpdateDone check flashOk s
  | .recoveryGo f v check flashOk => Sys2Proof.Machine.execRecoveryGo f v check flashOk s
  | .svnCommit f v => Sys2Proof.Machine.execSvnCommit f v s
  | .entropyFailure => Sys2Proof.Machine.execEntropyFailure s
  | .entropyFailureTimeout => Sys2Proof.Machine.execEntropyFailureTimeout s
  | .prtGranWrite f k v => Sys2Proof.Machine.execPrtGranWrite f k v s
  | .prtClustersWrite f p v => Sys2Proof.Machine.execPrtClustersWrite f p v s
  | .prtQuotaWrite f p v => Sys2Proof.Machine.execPrtQuotaWrite f p v s
  | .prtReset f p v => Sys2Proof.Machine.execPrtReset f p v s
  | .prtFrzPop f p v => Sys2Proof.Machine.execPrtFrzPop f p v s
  | .wipeComplete p => Sys2Proof.Machine.execWipeComplete p s
  | .pwrTargetRun f v => Sys2Proof.Machine.execPwrTargetRun f v s
  | .pwrTargetIdle f v => Sys2Proof.Machine.execPwrTargetIdle f v s
  | .pwrTargetSleep f v => Sys2Proof.Machine.execPwrTargetSleep f v s
  | .pwrTargetDeepSleep f v => Sys2Proof.Machine.execPwrTargetDeepSleep f v s
  | .pwrTargetOff f v => Sys2Proof.Machine.execPwrTargetOff f v s
  | .idleTimerExpiry => Sys2Proof.Machine.execIdleTimerExpiry s
  | .domainWake => Sys2Proof.Machine.execDomainWake s
  | .transitionComplete trained => Sys2Proof.Machine.execTransitionComplete trained s
  | .deepSleepBnAdvance => Sys2Proof.Machine.execDeepSleepBnAdvance s
  | .wakeNAssert => Sys2Proof.Machine.execWakeNAssert s
  | .wakeTimerExpiry => Sys2Proof.Machine.execWakeTimerExpiry s
  | .perstNAssert => Sys2Proof.Machine.execPerstNAssert s
  | .perstNDeassert => Sys2Proof.Machine.execPerstNDeassert s
  | .inputPowerLoss => Sys2Proof.Machine.execInputPowerLoss s
  | .inputPowerRestored => Sys2Proof.Machine.execInputPowerRestored s
  | .auxPowerApplied => Sys2Proof.Machine.execAuxPowerApplied s
  | .inputStageOn => Sys2Proof.Machine.execInputStageOn s
  | .auxPowerLoss => Sys2Proof.Machine.execAuxPowerLoss s
  | .thermalTrip => Sys2Proof.Machine.execThermalTrip s
  | .pwrRampWrite f v => Sys2Proof.Machine.execPwrRampWrite f v s
  | .tstMbistGo f v => Sys2Proof.Machine.execTstMbistGo f v s
  | .mbistDone fail => Sys2Proof.Machine.execMbistDone fail s
  | .ashSegmentStart c seg => Sys2Proof.Machine.execAshSegmentStart c seg s
  | .ashSegmentEnd c signatures => Sys2Proof.Machine.execAshSegmentEnd c signatures s
  | .tstFtgGo f v => Sys2Proof.Machine.execTstFtgGo f v s
  | .tstElogPop f v => Sys2Proof.Machine.execTstElogPop f v s
  | .extest => Sys2Proof.Machine.execExtest s
  | .clamp => Sys2Proof.Machine.execClamp s
  | .highz => Sys2Proof.Machine.execHighz s
  | .idcode => Sys2Proof.Machine.execIdcode s
  | .jtagBar0Access off size wr => Sys2Proof.Machine.execJtagBar0Access off size wr s
  | .flitDiscard port crcBad symErrs => Sys2Proof.Machine.execFlitDiscard port crcBad symErrs s
  | .ackReceive port seq => Sys2Proof.Machine.execAckReceive port seq s
  | .otherFrame x => Sys2Proof.Machine.execOtherFrame x s
  | .indexUnitComplete p unit => Sys2Proof.Machine.execIndexUnitComplete p unit s
  | .provision dik => Sys2Proof.Machine.execProvision dik s
  | .tripCooldown temps => Sys2Proof.Machine.execTripCooldown temps s

end Sys2Proof.Machine
end

