-- ==== Sys2Proof/Machine/Tick.lean ====
section
/-! DEFINITION. What comes about when no command waits: the events that the state itself makes due are put in the
queue, so that the next steps carry them out, and with none due one ACLK cycle passes (assumption 9). Each is a row of the command
table, whose own meaning checks its condition. -/

namespace Sys2Proof.Machine

/-- The command of an instruction word of tile `g` (R69, R71 to R74); a reserved opcode is given to some command of its
slot, whose meaning raises `ILLEGAL` (R84). -/
def wordInstr (g : Nat) (w : Word) : Instr :=
  let op := wOp w
  if wSlot w = 0 then
    match op with
    | 1 => .mxMul g w | 2 => .mxMultA g w | 3 => .mxMultB g w | 4 => .mxLd g w | 5 => .mxSt g w | 6 => .mxStq g w
    | _ => .mxZero g w
  else if wSlot w = 1 then
    match op with
    | 1 => .vcRun g w
    | _ => .vcCfg g w
  else
    match op with
    | 0x01 => .add g w | 0x02 => .sub g w | 0x03 => .mul g w | 0x04 => .and g w | 0x05 => .or g w | 0x06 => .xor g w
    | 0x07 => .shl g w | 0x08 => .shr g w | 0x09 => .sra g w | 0x0A => .min g w | 0x0B => .max g w
    | 0x0C => .cmpEq g w | 0x0D => .cmpNe g w | 0x0E => .cmpLt g w | 0x0F => .cmpLtu g w | 0x10 => .pand g w
    | 0x11 => .por g w | 0x12 => .pxor g w
    | _ =>
      if wSlot w = 2 then
        match op with
        | 0x20 => .xsLd g w | 0x21 => .xsSt g w | 0x22 => .xdSet g w | 0x23 => .xdLd g w | 0x24 => .xdSt g w
        | 0x25 => .xmCopy g w
        | _ => .xmDma g w
      else
        match op with
        | 0x20 => .csBr g w | 0x21 => .csLoop g w | 0x22 => .csWaitBeat g w | 0x23 => .csWaitTok g w
        | 0x24 => .csWaitCyc g w | 0x25 => .csArrive g w
        | _ => .csHalt g w

namespace State

/-- The words of a bundle from word `i`, at most `n`. -/
def bundleWords (s : State) (g : Nat) : Nat → Nat → List Instr
  | 0, _ => []
  | n + 1, i =>
    let w := s.istoreWord g i
    wordInstr g w :: if wE w then [] else s.bundleWords g n (i + 1)

/-- An arrival of tile `g` that is due by now (R79, R80). This command and those below take effect, so that time goes on. -/
def tileArrives (s : State) (g : Nat) : List Instr := match (s.tile g).arrives with
  | a :: _ => if a.at_ ≤ s.now then [.arriveIncrement g] else []
  | [] => []

/-- What the sequencer of tile `g` does by now: the end of a wait, a bundle (R56, R74, R77, R78). -/
def tileRuns (s : State) (g : Nat) : List Instr :=
  let t := s.tile g
  let state := s.getF F.TIL_STATUS_STATE g
  if t.frozen then []
  else match t.wait with
    | some (.beat target _) =>
      if state = 2 ∧ target ≤ s.getF F.PLN_SPOS_POS (s.tilePart g) then [Instr.waitBeatSatisfied g] else []
    | some (.tok tk imm _) => if state = 2 ∧ tokReached (t.tok tk) imm then [.waitTokSatisfied g] else []
    | some (.cyc c) => if c ≤ s.now then [.waitCycExpiry g] else []
    | none => if state = 1 ∧ (t.lastSlot.isSome ∨ t.nextIssue ≤ s.now) then s.bundleWords g 8 t.pc else []

/-- Chains of a cluster mover that have moved whole (R80). -/
def moverDue (c : Nat) (m : CMover) : List Instr :=
  match m.chains with
  | k :: _ => if k.addr = 0 then [.dmaArrival (c / 8) (c % 8)] else []
  | [] => []

/-- What is due in the current cycle. What arrives comes before what a tile issues, so that a wait that issues in the cycle of the
increment it waits for finds it (assumption 105). -/
def dueNow (s : State) : List Instr :=
  s.tiles.flatMap (fun t => s.tileArrives t.1) ++ s.cmovers.flatMap (fun c => moverDue c.1 c.2) ++
    s.tiles.flatMap fun t => s.tileRuns t.1

/-- What a partition may have due at a beat edge, after the beat itself. -/
def partDue (s : State) (p : Nat) : List Instr :=
  let last := (s.part p).active ∧ (s.part p).stepLen ≤ s.getF F.PLN_SPOS_POS p + 2
  let stream : List Instr := if (s.bn + 1) % 64 = 0 ∨ last then [.creditSend p] else []
  [.planStart p, .rerunOrigin p, .stepOrigin p, .holdLimitReached p, .hostingDecision p, .commitReportSend p,
   .commitBeat p, .placementPeriod p] ++ stream

/-- What is due at the coming beat edge: the beat, a load of the BN, then the partitions in use, the limits of waits
(R81), the beat tree, and the refreshes that are due (R208). -/
def edgeDue (s : State) : List Instr :=
  let load : List Instr := if s.bnLoad.isSome then [.bnLoadApply] else []
  let parts := (s.parts.map (·.1)).flatMap s.partDue
  let refresh := ((List.range 20).filter fun i => s.unitState i = 2 && (s.unit i).refreshAt ≤ s.now).map fun i =>
    Instr.refresh (if i < 8 then .stack i else .umber (i - 8))
  let wheel : List Instr := if (s.bn + 1) % 64 = 0 then [.wheelApply] else []
  let waits := (s.tiles.filter fun t => t.2.wait.isSome).map fun t => Instr.waitTimeout t.1
  Instr.beat :: load ++ parts ++ waits ++ [.masterMarkerLoss, .masterDeclare, .beatLost] ++ wheel ++ refresh

/-- A tile whose refused chain is due and that has no bundle to issue, since it waits or has ended its kernel, takes the
plan fault now (R85, R485). -/
def partitionDue (s : State) : State :=
  (s.tiles.map (·.1)).foldl (fun s g =>
    match (s.tile g).partAt with
    | some (c, ch) => if c ≤ s.now ∧ s.getF F.TIL_STATUS_STATE g ≠ 1 then s.partitionFault g ch else s
    | none => s) s

/-- ACLK runs: not in Deep Sleep or Off, and not before the boot has its sources (R21, R420). -/
def clocked (s : State) : Bool := s.getF F.PWR_STAT_STATE 0 < 3 && !s.power.booting

/-- What is due in the current cycle is queued; with nothing due the next cycle comes, in which what is in flight and
falls due becomes visible (R62). In place of the cycle that would end the beat comes the edge, whose `BEAT` moves time
there. -/
def tick (s : State) : State :=
  if !s.clocked then s
  else
  let s := s.partitionDue
  match s.dueNow with
    | [] =>
      if s.beatStart + s.beatLength ≤ s.now + 1 then { s with pending := s.edgeDue } else s.advance (s.now + 1)
    | due => { s with pending := due }

end State
end Sys2Proof.Machine
end

