-- ==== Sys2Proof/Machine/Canon.lean ====
section
/-! DEFINITION. What every step keeps: the canonical form of every sparse map of the state, and the fuses of the
module, which are written once (R389, R397, R400, R412). -/

namespace Sys2Proof.Machine

/-- The canonical form of a memory: addresses rising, no byte listed that an unlisted address reads as. -/
def Memory.wf (m : List Host.Cell) : Bool := mwf 0 m

/-- The canonical form of the registers: offsets rising, no register listed at its reset value. -/
def regsWf : List (Nat × Word) → Bool
  | [] => true
  | (a, v) :: m => decide (v ≠ regReset a) && mabove a m && regsWf m

/-- Every sparse map of the state is in canonical form, so that equal contents are equal data. -/
def State.canonical (s : State) : Bool :=
  Memory.wf s.mem && Memory.wf s.host && Memory.wf s.sram && regsWf s.regs && mwf Tile.reset s.tiles &&
  mwf Part.reset s.parts && mwf OchreQ.reset s.ochre && mwf Unit_.reset s.units && mwf Port.reset s.ports &&
  mwf Mover.reset s.movers && mwf CMover.reset s.cmovers && mwf Queue.reset s.queues

/-- Owner slots `b` follow from `a` by programming free slots and revoking programmed ones. -/
def slotsFrom : List OwnerSlot → List OwnerSlot → Bool
  | [], _ => true
  | _ :: _, [] => false
  | x :: xs, y :: ys => decide (x.key = y.key) && (!x.revoked || y.revoked) && slotsFrom xs ys

/-- Fuses of `b` follow from those of `a`: the life cycle goes forward only, the anti-rollback counter never falls, no
owner slot is freed, changed or made good again, and fuses of the device secret blow only, in MANUFACTURE or by SCRAP where
none is blown. -/
def Ident.fusesFrom (a b : Ident) : Bool :=
  decide (a.lc ≤ b.lc) && decide (a.counter ≤ b.counter) && slotsFrom a.slots b.slots &&
  decide (b.secret &&& a.secret = a.secret) &&
  (decide (a.secret ≠ 0) || decide (b.secret = 0) || decide (a.lc = 0) || decide (4 ≤ b.lc))

end Sys2Proof.Machine
end

