-- ==== Sys2Proof/Certificates/Slice0/Obligations.lean ====
section
/-! DEFINITION. The statements for the provers: what the commands of the block do, by the rules of the spec. -/

namespace Sys2Proof

open Machine

/-! ## Words the statements are written in -/

/-- The link accepts a request of function `f`, and its keys stay as they are (R353). -/
abbrev Taken (s : State) (f : Func) : Prop := (s.tlpIn f).2 = true ∧ (s.tlpIn f).1.ide = s.ide

/-- A write of function `f` to register `o` is accepted by the link, the block of the register answers and the function may
write there: nothing turns the write away. -/
abbrev Open (s : State) (f : Func) (o : Nat) : Prop := Taken s f ∧ s.blockOpen o = true ∧ s.right f o = .full

/-- From `s` to `t` only registers differ, and of these only those whose offsets `P` admits. -/
def RegsOnly (P : Nat → Prop) (s t : State) : Prop :=
  t = { s with regs := t.regs } ∧ ∀ o, ¬ P o → t.word o = s.word o

/-- Every byte of device memory reads as before. -/
def MemSame (s t : State) : Prop := ∀ a, t.rd8 a = s.rd8 a

/-- Word `w` of tile `g` issues in cycle `n`: the tile runs, and the word either opens a bundle before whose issue cycle no
result is due and which no refused chain stops (R85), or follows a word of a lower slot in a bundle without a fault; a last
word of a bundle whose earlier words owe no count (R94, R158). The plan checker is off (R53). -/
abbrev Issues (s : State) (g : Nat) (w : Word) (n : Nat) : Prop :=
  s.getF F.TIL_STATUS_STATE g = 1 ∧ (s.tile g).frozen = false ∧ (s.tile g).pc ≤ 16383 ∧
  s.checkerOn (s.tilePart g) = false ∧
  (((s.tile g).lastSlot = none ∧ s.nextDue (s.tile g).nextIssue = none ∧ n = max s.now (s.tile g).nextIssue ∧
      (s.tile g).partAt.any (·.1 ≤ n) = false) ∨
    ((s.tile g).lastSlot.any (· < wSlot w) = true ∧ (s.tile g).fault = none ∧ (s.tile g).jump = none ∧ n = s.now ∧
      (wE w = true → (s.tile g).owed = [])))

/-- Nothing of the word's addresses may differ from the static plan, or it is marked so (R83). -/
abbrev Planned (s : State) (g : Nat) (w : Word) : Prop := (s.tile g).shadowOn = false ∨ wMV w = true

/-- Flits that have left by port `k`. -/
def flitsOut (s : State) (k : Nat) : List Flit := s.out.filterMap fun o => match o with
  | .flit j f => if j = k then some f else none
  | _ => none

/-- `PWR_STAT` shows Run and no entry to Idle is in progress (what work that arrives then does is R418). -/
abbrev InRun (s : State) : Prop := s.getF F.PWR_STAT_STATE 0 = 0 ∧ s.power.target ≠ some 1

end Sys2Proof

open Sys2Proof Sys2Proof.Machine

/-! ## The block as a whole -/

/-- A step takes the command at the front of the queue and answers its effect on the state without it. -/
def Obligations.StepRunsFrontCommand : Prop :=
  ∀ (s : State) (c : Instr) (rest : List Instr), s.pending = c :: rest → step s = exec c { s with pending := rest }

/-- With no command waiting (the model's choice, assumption 9): what is due in the current cycle is queued; else one ACLK
cycle passes, or what is due at the beat edge is queued, the beat first. A module without its clock stands. Stated where no
tile holds a refused chain, whose fault at its cycle `PlanFaultsStopTheTile` states. -/
def Obligations.IdleStepPassesOneCycle : Prop :=
  ∀ s : State, s.pending = [] → (∀ t ∈ s.tiles, t.2.partAt = none) →
    (s.clocked = false → step s = .next s) ∧
    (s.clocked = true → s.dueNow ≠ [] → step s = .next { s with pending := s.dueNow }) ∧
    (s.clocked = true → s.dueNow = [] → s.now + 1 < s.beatStart + s.beatLength →
      ∃ t, step s = .next t ∧ s.now + 1 ≤ t.now ∧ (s.pendCount = 0 → t = { s with now := s.now + 1 })) ∧
    (s.clocked = true → s.dueNow = [] → s.beatStart + s.beatLength ≤ s.now + 1 →
      step s = .next { s with pending := s.edgeDue } ∧ s.edgeDue.head? = some .beat)

/-- Every command answers a next state and leaves the queue to the step. -/
def Obligations.EveryCommandAnswersAndKeepsQueue : Prop :=
  ∀ (c : Instr) (s : State), ∃ t, exec c s = .next t ∧ t.pending = s.pending

/-- Registers right after reset, at the values the spec gives: `GEN_ID`, `PRT_CLUSTERS` and `PRT_QUOTA` of partition 0,
partition 0 the owner of every granule,
`PLN_CTRL` without `RUN` and with `BAL_THRESH` 8 (R13, R414).
Registers whose reset value the spec does not give are not named (assumption 4). -/
def Sys2Proof.Claims.ResetRegisters : Prop :=
  State.reset.getF F.GEN_ID_MAPVER 0 = 1 ∧ State.reset.getF F.GEN_ID_DEVICE 0 = 0x480 ∧
  State.reset.getF F.GEN_ID_STEPPING 0 = 0xA1 ∧ State.reset.getF F.PRT_CLUSTERS_MASK 0 = 0xFFFFFFFF ∧
  (∀ p, 1 ≤ p → p < 8 → State.reset.getF F.PRT_CLUSTERS_MASK p = 0) ∧
  State.reset.getF F.PRT_QUOTA_HBM_Q 0 = 576 ∧ State.reset.getF F.PRT_QUOTA_UMB_Q 0 = 1536 ∧
  (∀ p, 1 ≤ p → p < 8 → State.reset.getF F.PRT_QUOTA_HBM_Q p = 0) ∧
  (∀ i, i < 132 → State.reset.word (F.PRT_GRAN_OWNERS.off i) = 0) ∧
  (∀ p, p < 8 → State.reset.running p = false ∧ State.reset.getF F.PLN_CTRL_BAL_THRESH p = 8) ∧
  State.reset.pending = []

/-- After reset every sparse map is in canonical form. -/
def Sys2Proof.Claims.ResetIsCanonical : Prop := State.reset.canonical = true

/-- Every step keeps the canonical form of the memories, the registers and the other sparse maps. -/
def Obligations.StepKeepsCanonical : Prop :=
  ∀ s t : State, s.canonical = true → step s = .next t → t.canonical = true

/-- Fuses are written once: from every state, no step moves the life cycle back, lowers the anti-rollback counter,
frees, changes or makes good an owner slot, or fuses a device secret outside MANUFACTURE (R389, R397, R400, R412). -/
def Obligations.StepKeepsFuses : Prop :=
  ∀ s t : State, step s = .next t → s.ident.fusesFrom t.ident = true

/-- What reset leaves: the registers whose values the spec gives, and canonical maps: `Claims.ResetRegisters`;
`Claims.ResetIsCanonical`. -/
def Obligations.ResetState : Prop :=
  Claims.ResetRegisters ∧ Claims.ResetIsCanonical

/-! ## Register access (R9, R10, R480) -/

/-- R9, R10: a write, of the whole register or of one half of it, that reaches no field with a command of its own sets the RW bits
it covers, clears the W1C bits and sets the W1S bits written 1, and leaves every other bit. Only that register changes, but for
`PLN_BEAT_CFG` (where another `MASTER_POS` names another master and another `SRC` selects another source), a wheel word (which
`PENDING` shows) and `TIL_FAULT` (whose marks go with `VALID`). -/
def Sys2Proof.Claims.RegisterWritePlain : Prop :=
  ∀ (s : State) (f : Func) (off size o hi lo : Nat) (v : Word) (r : RegRow) (i : Nat),
    State.sizeOk off size = true → s.mapOff f (off - off % 8) = some o → Open s f o → regAt o = some (r, i) →
    State.accessBits off size = (hi, lo) → State.reachesOwn r hi lo = false →
    ∃ u, exec (.registerWrite f off size v) s = .next u ∧
      (o ≠ F.PLN_BEAT_CFG_SRC.base → u = { s with regs := u.regs }) ∧
      u = { s with regs := u.regs, lostMaster := u.lostMaster, altUpstream := u.altUpstream, slew := u.slew, free := u.free,
                   holdoverBeats := u.holdoverBeats, electionBeats := u.electionBeats, retake := u.retake } ∧
      (∀ fld ∈ r.fields, ∀ b, fld.lo ≤ b → b ≤ fld.hi →
        let w : Word := if lo = 32 then v <<< 32 else v
        let old := (s.word o).getLsbD b
        let new := (u.word o).getLsbD b
        if lo ≤ b ∧ b ≤ hi then
          match fld.acc with
          | .rw => new = w.getLsbD b
          | .w1c => new = (old && !w.getLsbD b)
          | .w1s => new = (old || w.getLsbD b)
          | _ => new = old ∨ (0x100_0000 ≤ o ∧ o < 0x180_0000 ∧ o % 0x8000 = 0x10)
        else new = old ∨ (0x100_0000 ≤ o ∧ o < 0x180_0000 ∧ o % 0x8000 = 0x10)) ∧
      (o ≠ F.PLN_BEAT_CFG_SRC.base → ¬ (0x70_0000 ≤ o ∧ o < 0x70_8000) → ¬ (0x80_0000 ≤ o ∧ o < 0x80_C000) →
        ¬ (0xD2_0000 ≤ o ∧ o < 0xD2_0300) → ∀ o', o' ≠ o → u.word o' = s.word o') ∧
      (o = F.PLN_BEAT_CFG_SRC.base →
        ∀ o', o' ≠ o → o' ≠ F.PLN_BEAT_STATUS_SRC_ACTIVE.base → u.word o' = s.word o')

/-- R9, R10: a write that reaches a field with a command of its own is that command, with the whole register as it then stands;
here the PF's 64-bit writes of these registers, and a 32-bit write that sets or clears `PLN_CTRL.RUN`.
That a register write and the command of the field it reaches act alike is the model's choice (assumption 29). -/
def Sys2Proof.Claims.RegisterWriteCommands : Prop :=
  ∀ (s : State) (v : Word) (p : Nat), Taken s .pf → p < 8 →
    (exec (.registerWrite .pf F.PLN_BN_LOAD_BN.base 8 v) s = exec (.plnBnLoad .pf v) s) ∧
    (exec (.registerWrite .pf (F.PLN_CTRL_RUN.off p) 8 v) s =
      if getBits v 0 0 = 1 then exec (.runSet .pf p v) s else exec (.runClear .pf p v) s) ∧
    (exec (.registerWrite .pf (F.PLN_CTRL_RUN.off p) 4 v) s =
      let w := (s.word (F.PLN_CTRL_RUN.off p) &&& fieldMask 63 40) ||| (v &&& fieldMask 31 0)
      if getBits v 0 0 = 1 then exec (.runSet .pf p w) s else exec (.runClear .pf p w) s) ∧
    (getBits v 0 0 = 1 → exec (.registerWrite .pf (F.PLN_LOAD_GO.off p) 8 v) s = exec (.planLoadGo .pf p) s) ∧
    (exec (.registerWrite .pf (F.PLN_HOLD_POP_POP.off p) 8 v) s = exec (.plnHoldPop .pf p v) s) ∧
    (∀ h, h < 32 → exec (.registerWrite .pf (F.DMA_MCFG_EN.off h) 8 v) s = exec (.dmaMcfgWrite .pf h v) s) ∧
    (exec (.registerWrite .pf (F.STM_CKPT_CTRL_GO.off p) 8 v) s = exec (.stmCkptGo .pf p v) s) ∧
    (exec (.registerWrite .pf F.FAB_CFG_X.base 8 v) s = exec (.fabCfgWrite .pf v) s) ∧
    (exec (.registerWrite .pf F.FAB_BYP_OPEN.base 8 v) s = exec (.bypassOpen .pf v) s) ∧
    (exec (.registerWrite .pf F.PWR_RAMP_SHARE.base 8 v) s = exec (.pwrRampWrite .pf v) s) ∧
    (exec (.registerWrite .pf (F.PRT_CLUSTERS_MASK.off p) 8 v) s = exec (.prtClustersWrite .pf p v) s) ∧
    (exec (.registerWrite .pf (F.PRT_QUOTA_HBM_Q.off p) 8 v) s = exec (.prtQuotaWrite .pf p v) s) ∧
    (exec (.registerWrite .pf (F.PRT_RESET_RESET.off p) 8 v) s = exec (.prtReset .pf p v) s) ∧
    (∀ i, i < 132 → exec (.registerWrite .pf (F.PRT_GRAN_OWNERS.off i) 8 v) s = exec (.prtGranWrite .pf i v) s) ∧
    (exec (.registerWrite .pf (F.ROW_REPL_CTRL_GO.off p) 8 v) s = exec (.rowReplGo .pf p v) s) ∧
    (exec (.registerWrite .pf F.TST_MBIST_GO.base 8 v) s = exec (.tstMbistGo .pf v) s) ∧
    (exec (.registerWrite .pf F.TST_ELOG_POP_POP.base 8 v) s = exec (.tstElogPop .pf v) s) ∧
    (exec (.registerWrite .pf F.TST_FTG_GO.base 8 v) s = exec (.tstFtgGo .pf v) s)

/-- R353: with `IDE_REQ` 1 a request that no active stream protects, or one under a key set that is not installed, is discarded
and counted in `UNPROT`; a request under an installed set is taken, and the first under the set that KEY_GO installed last discards
the other set. -/
def Sys2Proof.Claims.LinkTakesRequests : Prop :=
  ∀ (s : State) (off size : Nat) (v : Word),
    (∀ f : Func, f.base = f → f ≠ .jtag → s.flag F.DMA_HCFG_IDE_REQ 0 = true →
      ∃ u, exec (.registerWrite f off size v) s = .next u ∧
        u.getF F.DMA_HCFG_UNPROT 0 = min (s.getF F.DMA_HCFG_UNPROT 0 + 1) (2 ^ 32 - 1) ∧
        (∀ o, o ≠ F.DMA_HCFG_UNPROT.base → u.word o = s.word o) ∧ u = { s with regs := u.regs } ∧
        exec (.rcFieldRead f off size) s = .next u) ∧
    (∀ i k, (s.ideStream i).sets.any (·.1 = k) = false →
      ∃ u, exec (.registerWrite (.pfIde i k) off size v) s = .next u ∧
        u.getF F.DMA_HCFG_UNPROT 0 = (if s.flag F.DMA_HCFG_IDE_REQ 0 then min (s.getF F.DMA_HCFG_UNPROT 0 + 1) (2 ^ 32 - 1)
          else s.getF F.DMA_HCFG_UNPROT 0) ∧
        (∀ o, o ≠ F.DMA_HCFG_UNPROT.base → u.word o = s.word o) ∧ u = { s with regs := u.regs }) ∧
    (∀ i k, (s.ideStream i).sets.any (·.1 = k) = true → s.mapOff .pf (off - off % 8) = none → State.sizeOk off size = true →
      ∃ u, exec (.registerWrite (.pfIde i k) off size v) s = .next u ∧
        (u.ideStream i).sets = (if (s.ideStream i).tx = some k then (s.ideStream i).sets.filter (·.1 = k)
          else (s.ideStream i).sets) ∧ u = { s with ide := u.ide })

/-- R10, R480: a read that a function may make hands the register's bits of the access to the outside, and clears every RC
field that lies wholly within them and nothing else. -/
def Obligations.ReadClearsWholeRcFields : Prop :=
  ∀ (s : State) (f : Func) (off size o hi lo : Nat) (r : RegRow) (i : Nat),
    State.sizeOk off size = true → Taken s f → s.mapOff f (off - off % 8) = some o → s.blockOpen o = true →
    s.right f o ≠ .hidden → s.right f o ≠ .shut → regAt o = some (r, i) → State.accessBits off size = (hi, lo) →
    ∃ u, exec (.rcFieldRead f off size) s = .next u ∧ u = { s with regs := u.regs, out := u.out } ∧
      u.out = .readData f off (BitVec.ofNat 64 (getBits (s.readWord o) hi lo)) :: s.out ∧
      (∀ fld ∈ r.fields, ∀ b, fld.lo ≤ b → b ≤ fld.hi →
        (u.word o).getLsbD b = if fld.acc = .rc ∧ lo ≤ fld.lo ∧ fld.hi ≤ hi then false else (s.word o).getLsbD b) ∧
      ∀ o', o' ≠ o → u.word o' = s.word o'

/-- A register write acts on each field by its access type, or is the command of the field it reaches:
`Claims.RegisterWritePlain`; `Claims.RegisterWriteCommands`; `Claims.LinkTakesRequests`. -/
def Obligations.RegisterWriteByAccessType : Prop :=
  Claims.RegisterWritePlain ∧ Claims.RegisterWriteCommands ∧ Claims.LinkTakesRequests

/-! ## Beats (R20 to R28, R44) -/

/-- R21: a beat moves time to its edge and takes the step due, or counts one. Stated where no result is in flight, no
activation waits in the ramp limiter, the checker is off and a step due finds no plan running; what these do at an edge other
statements say. -/
def Sys2Proof.Claims.BeatCountsOne : Prop :=
  ∀ s : State, s.pendCount = 0 → (∀ p, p < 8 → (s.part p).acts = [] ∧ s.checkerOn p = false) →
    (s.bnStep = none ∨ s.anyRun = false) →
    ∃ u, exec .beat s = .next u ∧ u.beatStart = s.beatStart + s.beatLength ∧
      u.now = max s.now (s.beatStart + s.beatLength) ∧ u.slew = State.slewLeft s.slew ∧
      u.bn = (match s.bnStep with
        | some b => b % 2 ^ 64
        | none => (s.bn + 1) % 2 ^ 64) ∧
      u.bnSteps = (match s.bnStep with
        | some b => s.bnSteps ++ [(s.bn, b)]
        | none => s.bnSteps) ∧
      u.bnStep = none ∧ MemSame s u ∧ u.host = s.host

/-- R44, R483: at a beat in which nothing lands, a partition whose plan runs and which has no hold beat pending advances
its schedule position by one, to 0 after the last; with a pending hold beat the position stands, the beat is charged to the
earliest landing and `HOLD_TOTAL` counts it; a partition whose plan does not run keeps its position. -/
def Sys2Proof.Claims.PositionAdvancesOrHolds : Prop :=
  ∀ (s : State) (p : Nat), p < 8 → s.pendCount = 0 → (∀ q, q < 8 → (s.part q).acts = [] ∧ s.checkerOn q = false) → s.bnStep = none →
    s.bn + 1 < 2 ^ 64 →
    (∀ e ∈ (s.part p).merged, ¬ ((s.part p).landedBn < e.land ∧ e.land ≤ s.bn + 1)) →
    ∃ u, exec .beat s = .next u ∧
      ((s.part p).active = false → u.getF F.PLN_SPOS_POS p = s.getF F.PLN_SPOS_POS p ∧
        u.getF F.PLN_SPOS_HOLD_TOTAL p = s.getF F.PLN_SPOS_HOLD_TOTAL p) ∧
      ((s.part p).active = true → (s.part p).charges = [] → (s.part p).rerunBn = none → (s.part p).waiting = false →
        u.getF F.PLN_SPOS_POS p = (if (s.part p).stepLen ≤ s.getF F.PLN_SPOS_POS p + 1 then 0
          else (s.getF F.PLN_SPOS_POS p + 1) % 2 ^ F.PLN_SPOS_POS.width) ∧
        (u.part p).heldNow = false ∧ u.getF F.PLN_SPOS_HOLD_TOTAL p = s.getF F.PLN_SPOS_HOLD_TOTAL p) ∧
      (∀ c rest, (s.part p).active = true → (s.part p).charges = c :: rest →
        u.getF F.PLN_SPOS_POS p = s.getF F.PLN_SPOS_POS p ∧ (u.part p).heldNow = true ∧
        u.getF F.PLN_SPOS_HOLD_TOTAL p = min (s.getF F.PLN_SPOS_HOLD_TOTAL p + 1) (2 ^ F.PLN_SPOS_HOLD_TOTAL.width - 1) ∧
        (u.part p).charges = (if 1 < c.beats then { c with beats := c.beats - 1 } :: rest else rest))

/-- R21, R26: losing the source is holdover (and with `SRC` automatic the search goes on); so is hearing no marker of the
master on any trained port for `LOSS_DETECT` beats; a source to be taken (the one selected, or with `SRC` automatic the first of
R20 that is there), back for 64 beats, ends holdover and becomes the active one, its edge slewed to, a fabric source of another BN giving the BN of the beat after its marker at the next edge. -/
def Sys2Proof.Claims.HoldoverBeginsAndEnds : Prop :=
  (∀ s : State, ∃ u, exec .beatSourceLost s = .next u ∧ u.flag F.PLN_BEAT_STATUS_HOLDOVER 0 = true ∧
    (s.getF F.PLN_BEAT_CFG_SRC 0 ≠ 0 →
      u.getF F.PLN_BEAT_STATUS_SRC_ACTIVE 0 = s.getF F.PLN_BEAT_STATUS_SRC_ACTIVE 0) ∧
    (s.getF F.PLN_BEAT_CFG_SRC 0 = 0 → s.getF F.PLN_BEAT_STATUS_SRC_ACTIVE 0 = 1 →
      (∀ k, k < 6 → s.portUp k = true → (s.port k).good = 0) →
      u.getF F.PLN_BEAT_STATUS_SRC_ACTIVE 0 = (if s.refPresent then 2 else 3)) ∧
    (s.getF F.PLN_BEAT_CFG_SRC 0 = 0 → s.getF F.PLN_BEAT_STATUS_SRC_ACTIVE 0 = 2 →
      (∀ k, k < 6 → s.portUp k = true → (s.port k).good = 0) → u.getF F.PLN_BEAT_STATUS_SRC_ACTIVE 0 = 3) ∧
    u.bn = s.bn ∧ (∀ o, o ≠ F.PLN_BEAT_STATUS_HOLDOVER.base → u.word o = s.word o) ∧
    u = { s with regs := u.regs, refPresent := u.refPresent, holdoverBeats := u.holdoverBeats,
                 electionBeats := u.electionBeats, retake := u.retake }) ∧
  (∀ s : State, s.getF F.PLN_BEAT_STATUS_SRC_ACTIVE 0 = 1 → s.flag F.PLN_BEAT_STATUS_IS_MASTER 0 = false →
    (∀ k, k < 6 → s.portUp k = true → s.lossDetect ≤ (s.port k).missed) →
    ∃ u, exec .masterMarkerLoss s = .next u ∧ u.flag F.PLN_BEAT_STATUS_HOLDOVER 0 = true ∧
      (∀ o, o ≠ F.PLN_BEAT_STATUS_HOLDOVER.base → u.word o = s.word o) ∧
      u = { s with regs := u.regs, holdoverBeats := u.holdoverBeats, electionBeats := u.electionBeats, retake := u.retake,
                   lostMaster := some (s.getF F.PLN_BEAT_STATUS_CUR_MASTER 0) }) ∧
  (∀ (s : State) (src : BeatSrc) (m : Option Nat) (edge : Int), s.flag F.PLN_BEAT_STATUS_HOLDOVER 0 = true → s.mayTake src = true →
    ∃ u, exec (.holdoverExit src m edge) s = .next u ∧ u.flag F.PLN_BEAT_STATUS_HOLDOVER 0 = false ∧
      u.getF F.PLN_BEAT_STATUS_SRC_ACTIVE 0 = State.srcCode src ∧ u.slew = edge ∧ u.bn = s.bn ∧
      u.refPresent = (s.refPresent || src = .beatRef) ∧
      u.bnStep = (match src, m with
        | .fabric, some b => if b = s.bn then s.bnStep else some (b + 1)
        | _, _ => s.bnStep) ∧
      (∀ o, o ≠ F.PLN_BEAT_STATUS_HOLDOVER.base → u.word o = s.word o) ∧
      u = { s with regs := u.regs, refPresent := u.refPresent, holdoverBeats := u.holdoverBeats,
                   electionBeats := u.electionBeats, slew := u.slew, bnStep := u.bnStep, retake := u.retake })

/-- R24: the lowest-numbered trained port that delivers markers when the upstream port has not for `LOSS_DETECT` beats becomes
the alternate upstream and ends holdover, its edge slewed to and, after a holdover, its BN taken at the next edge (R21); the
route's port, good again for 64 beats, is returned to. R26: after 16·k election beats the
module k places after the lost master, not itself failed, declares itself master, its own source active; 4,096 beats of
holdover are a module fault `0x0E`, and every plan stops. -/
def Sys2Proof.Claims.BeatTree : Prop :=
  (∀ (s : State) (k : Nat), s.flag F.PLN_BEAT_STATUS_IS_MASTER 0 = false → k < 6 → s.portUp k = true →
    s.lossDetect ≤ (s.port k).good → s.getF F.PLN_BEAT_STATUS_UPSTREAM 0 ≠ k →
    (∀ j, j < k → s.getF F.PLN_BEAT_STATUS_UPSTREAM 0 = j ∨ s.portUp j = false ∨ (s.port j).good < s.lossDetect) →
    (s.getF F.PLN_BEAT_STATUS_UPSTREAM 0 = 7 ∨ s.portUp (s.getF F.PLN_BEAT_STATUS_UPSTREAM 0) = false ∨
      s.lossDetect ≤ (s.port (s.getF F.PLN_BEAT_STATUS_UPSTREAM 0)).missed) →
    ∃ u, exec (.alternateUpstream k) s = .next u ∧ u.getF F.PLN_BEAT_STATUS_UPSTREAM 0 = k ∧ u.altUpstream = some k ∧
      u.flag F.PLN_BEAT_STATUS_HOLDOVER 0 = false ∧
      u.slew = (match (s.port k).mark with
        | some (_, e) => e
        | none => s.slew) ∧
      u.bnStep = (match (s.port k).mark with
        | some (d, _) => if s.flag F.PLN_BEAT_STATUS_HOLDOVER 0 = true ∧ d ≠ 0 then some (s.bn + 1 + d).toNat else s.bnStep
        | none => s.bnStep) ∧
      (∀ o, o ≠ F.PLN_BEAT_STATUS_HOLDOVER.base → u.word o = s.word o) ∧
      u = { s with regs := u.regs, altUpstream := u.altUpstream, holdoverBeats := 0, electionBeats := 0, slew := u.slew,
                   bnStep := u.bnStep, retake := u.retake }) ∧
  (∀ (s : State) (k : Nat), s.routeIn (s.getF F.PLN_BEAT_STATUS_CUR_MASTER 0) = k → k < 6 → s.altUpstream ≠ none →
    64 ≤ (s.port k).good →
    ∃ u, exec .upstreamReturn s = .next u ∧ u.getF F.PLN_BEAT_STATUS_UPSTREAM 0 = k ∧ u.altUpstream = none ∧
      (∀ o, o ≠ F.PLN_BEAT_STATUS_UPSTREAM.base → u.word o = s.word o) ∧
      u = { s with regs := u.regs, altUpstream := none }) ∧
  (∀ (s : State) (k : Nat), s.placesAfter s.orderFrom s.pos = k →
    s.flag F.PLN_BEAT_STATUS_HOLDOVER 0 = true → 1 ≤ k → k ≤ 255 → 16 * k ≤ s.electionBeats →
    s.flag F.GEN_STATUS_FAILED 0 = false →
    ∃ u, exec .masterDeclare s = .next u ∧ u.flag F.PLN_BEAT_STATUS_IS_MASTER 0 = true ∧
      u.getF F.PLN_BEAT_STATUS_CUR_MASTER 0 = s.pos % 2 ^ F.PLN_BEAT_STATUS_CUR_MASTER.width ∧
      u.getF F.PLN_BEAT_STATUS_UPSTREAM 0 = 7 ∧ u.flag F.PLN_BEAT_STATUS_HOLDOVER 0 = false ∧
      u.getF F.PLN_BEAT_STATUS_SRC_ACTIVE 0 = (if s.refPresent then 2 else 3) ∧ u.bn = s.bn ∧
      (∀ o, o ≠ F.PLN_BEAT_STATUS_HOLDOVER.base → u.word o = s.word o) ∧
      u = { s with regs := u.regs, ports := u.ports, out := u.out, holdoverBeats := 0, electionBeats := 0 }) ∧
  (∀ s : State, s.flag F.PLN_BEAT_STATUS_HOLDOVER 0 = true → 4096 ≤ s.holdoverBeats →
    (∀ p, p < 8 → (s.part p).active = false) →
    ∃ u, exec .beatLost s = .next u ∧ (∀ p, p < 8 → u.running p = false) ∧ u.bn = s.bn ∧ MemSame s u ∧
      u.host = s.host ∧ ∀ p, p < 8 → s.running p = true → u.getF F.PLN_SPOS_POS p = 0 ∧
        natBits (u.getF F.DMA_PEVT_CAUSE p) 1 1 = 1)

/-- R22: a `PLN_BN_LOAD` written while the module is its own beat source and no plan runs waits for the next beat edge,
which takes it; any other is discarded and logged. R420: in Deep Sleep BN goes on by 7 for each 512 always-on cycles. -/
def Obligations.BnLoads : Prop :=
  (∀ (s : State) (f : Func) (v : Word), Open s f F.PLN_BN_LOAD_BN.base → s.ownSource = true → s.anyRun = false →
    ∃ u, exec (.plnBnLoad f v) s = .next u ∧ u.bnLoad = some v ∧ u.word F.PLN_BN_LOAD_BN.base = v ∧ u.bn = s.bn ∧
      (∀ o, o ≠ F.PLN_BN_LOAD_BN.base → u.word o = s.word o) ∧ u = { s with regs := u.regs, bnLoad := some v }) ∧
  (∀ (s : State) (f : Func) (v : Word), Open s f F.PLN_BN_LOAD_BN.base →
    (s.ownSource = false ∨ s.anyRun = true) →
    ∃ u, exec (.plnBnLoad f v) s = .next u ∧ u.bnLoad = s.bnLoad ∧ u.bn = s.bn ∧ u.flag F.GEN_ERR_VALID 0 = true) ∧
  (∀ (s : State) (v : Word), s.bnLoad = some v →
    ∃ u, exec .bnLoadApply s = .next u ∧ u.bn = v.toNat ∧ u.bnLoad = none ∧
      (∀ o, o ≠ F.PLN_BN_BN.base → u.word o = s.word o) ∧ u = { s with regs := u.regs, bnLoad := none }) ∧
  (∀ s : State, s.getF F.PWR_STAT_STATE 0 = 3 →
    ∃ u, exec .deepSleepBnAdvance s = .next u ∧ u.bn = (s.bn + 7) % 2 ^ 64 ∧
      u.power = { s.power with dsCycles := s.power.dsCycles + 512 } ∧
      (∀ o, o ≠ F.PLN_BN_BN.base → u.word o = s.word o) ∧ u = { s with regs := u.regs, power := u.power })

/-- R20, R21, R23, R255: a marker of the master followed, its holdover flag clear, on the upstream port places the beat edge
(its arrival less the port's delay less `EDGE_OFS`) and `OFFSET` of a module on the fabric source, after a holdover its BN too;
with another source active and `SRC` automatic or fabric it makes the fabric the source, and the module takes its BN at the next
edge. An acknowledgement (`DIR` 1) changes neither. `FAB_PFEC` counts the symbols corrected on the way (R231).
That the first good marker makes the fabric the source at once is the model's choice (assumption 32). -/
def Obligations.BeatMarkers : Prop :=
  (∀ (s : State) (k : Nat) (b : BeatBody) (x : FlitArrival), k < 6 → s.portUp k = true → b.holds = [] → b.dir = 0 →
    b.holdover = false → b.master = s.getF F.PLN_BEAT_STATUS_CUR_MASTER 0 → s.getF F.PLN_BEAT_STATUS_UPSTREAM 0 = k →
    s.getF F.PLN_BEAT_STATUS_SRC_ACTIVE 0 = 1 →
    ∃ u, exec (.beatFlit k b x) s = .next u ∧ u.slew = s.edgeOf k b x.arrive ∧
      u.getF F.PLN_BEAT_STATUS_OFFSET 0 = (s.edgeOf k b x.arrive % 256).toNat ∧ (u.port k).goodMarker = true ∧
      u.bnStep = (if s.retake = true ∧ s.flag F.PLN_BEAT_STATUS_HOLDOVER 0 = false ∧ b.bn ≠ s.bn then some (b.bn + 1)
        else s.bnStep) ∧
      u.getF F.FAB_PFEC_FEC k = min (s.getF F.FAB_PFEC_FEC k + x.fec) (2 ^ F.FAB_PFEC_FEC.width - 1) ∧
      (∀ o, o ≠ F.PLN_BEAT_STATUS_OFFSET.base → o ≠ F.FAB_PFEC_FEC.off k → u.word o = s.word o) ∧
      (∀ j, j ≠ k → u.port j = s.port j) ∧
      u = { s with regs := u.regs, ports := u.ports, slew := u.slew, bnStep := u.bnStep, retake := u.retake }) ∧
  (∀ (s : State) (k : Nat) (b : BeatBody) (x : FlitArrival), k < 6 → s.portUp k = true → b.holds = [] → b.dir = 0 →
    b.holdover = false → b.master = s.getF F.PLN_BEAT_STATUS_CUR_MASTER 0 → s.getF F.PLN_BEAT_STATUS_UPSTREAM 0 = k →
    s.getF F.PLN_BEAT_STATUS_SRC_ACTIVE 0 ≠ 1 → s.getF F.PLN_BEAT_CFG_SRC 0 ≤ 1 →
    s.flag F.PLN_BEAT_STATUS_HOLDOVER 0 = false →
    ∃ u, exec (.beatFlit k b x) s = .next u ∧ u.slew = s.edgeOf k b x.arrive ∧
      u.getF F.PLN_BEAT_STATUS_SRC_ACTIVE 0 = 1 ∧
      u.bnStep = (if b.bn = s.bn then s.bnStep else some (b.bn + 1)) ∧ (u.port k).goodMarker = true ∧
      (∀ o, o ≠ F.PLN_BEAT_STATUS_SRC_ACTIVE.base → o ≠ F.FAB_PFEC_FEC.off k → u.word o = s.word o) ∧
      (∀ j, j ≠ k → u.port j = s.port j) ∧
      u = { s with regs := u.regs, ports := u.ports, slew := u.slew, bnStep := u.bnStep, retake := false }) ∧
  (∀ (s : State) (k : Nat) (b : BeatBody) (x : FlitArrival), k < 6 → s.portUp k = true → b.holds = [] → b.dir ≠ 0 →
    ∃ u, exec (.beatFlit k b x) s = .next u ∧
      u.getF F.FAB_PFEC_FEC k = min (s.getF F.FAB_PFEC_FEC k + x.fec) (2 ^ F.FAB_PFEC_FEC.width - 1) ∧
      (∀ o, o ≠ F.FAB_PFEC_FEC.off k → u.word o = s.word o) ∧ u = { s with regs := u.regs })

/-- A beat counts one and advances or holds each schedule position: `Claims.BeatCountsOne`;
`Claims.PositionAdvancesOrHolds`. -/
def Obligations.BeatAndPosition : Prop :=
  Claims.BeatCountsOne ∧ Claims.PositionAdvancesOrHolds

/-- Holdover, the alternate upstream and the election of a master: `Claims.HoldoverBeginsAndEnds`; `Claims.BeatTree`. -/
def Obligations.HoldoverAndBeatTree : Prop :=
  Claims.HoldoverBeginsAndEnds ∧ Claims.BeatTree

/-! ## Loading, starting and stopping a plan (R36 to R41, R54, R61) -/

/-- R36, R37, R41: `GO` checks and places the image. One that is good leaves `BUSY` 1 and its schedule's digest in
`PLN_DIGEST0` to `PLN_DIGEST7`, and a job of several modules exchanges it; one that is not ends the load with the code and
the detail of the check that failed, and leaves the plan as it was: 0x11 while the partition wipes, 0x08 for an image that
does not lie in HBM.
Which of several failing checks gives the code, and the codes of two corners, are the model's choice (assumptions 10,
103). -/
def Sys2Proof.Claims.PlanLoadBegins : Prop :=
  ∀ (s : State) (f : Func) (p : Nat), p < 8 → Open s f (F.PLN_LOAD_GO.off p) → s.flag F.PLN_LOAD_STATUS_BUSY p = false →
    s.running p = false → s.ident.lc ≠ 4 → InRun s →
    ∃ u, exec (.planLoadGo f p) s = .next u ∧ (u.part p).plan = (s.part p).plan ∧ MemSame s u ∧ u.tiles = s.tiles ∧
      (∀ pl sched, s.checkImage p = .ok (pl, sched) →
        u.flag F.PLN_LOAD_STATUS_BUSY p = true ∧ (u.part p).loading = some (pl, sched) ∧
        (∀ i, i < 8 → (u.word (0x31_0040 + 0x1_0000 * p + 8 * i)).toNat =
          (scheduleDigest sched (State.lengthOf pl sched) (s.planMovers p).length).toNat / 2 ^ (64 * i) % 2 ^ 64) ∧
        u.out = (if pl.rankCount = 1 then s.out
          else .digest p (scheduleDigest sched (State.lengthOf pl sched) (s.planMovers p).length) :: s.out)) ∧
      (∀ c d, s.checkImage p = .error (c, d) →
        u.flag F.PLN_LOAD_STATUS_BUSY p = false ∧ u.getF F.PLN_LOAD_STATUS_CODE p = c % 2 ^ 8 ∧
        u.getF F.PLN_LOAD_STATUS_DETAIL p = d % 2 ^ 24 ∧ (u.part p).loading = none ∧ u.out = s.out) ∧
      (s.flag F.PRT_STATE_WIPING p = true → u.getF F.PLN_LOAD_STATUS_CODE p = 0x11) ∧
      (s.flag F.PRT_STATE_WIPING p = false → hbmEnd ≤ s.getF F.PLN_IMG_BASE_BASE p →
        u.getF F.PLN_LOAD_STATUS_CODE p = 8) ∧
      u = { s with regs := u.regs, parts := u.parts, out := u.out } ∧
      ∀ o, o ≠ F.PLN_LOAD_STATUS_CODE.off p → ¬ (0x31_0040 + 0x1_0000 * p ≤ o ∧ o < 0x31_0080 + 0x1_0000 * p) →
        u.word o = s.word o

/-- R41: the load ends with the digests of the job's modules: one that differs is code 0x0A and leaves the plan as it was;
with none, code 0 and the plan is the partition's, its schedule, length and step 0 in force.
Three corners of the Planner are the model's choice (assumptions 12, 104). -/
def Sys2Proof.Claims.PlanLoadEnds : Prop :=
  ∀ (s : State) (p : Nat) (ds : List (BitVec 512)) (pl : Plan) (sched : List Placed), p < 8 →
    s.flag F.PLN_LOAD_STATUS_BUSY p = true → (s.part p).loading = some (pl, sched) →
    ∃ u, exec (.planLoadDone p ds) s = .next u ∧ u.flag F.PLN_LOAD_STATUS_BUSY p = false ∧ (u.part p).loading = none ∧
      ((∃ d ∈ ds, d ≠ scheduleDigest sched (State.lengthOf pl sched) (s.planMovers p).length) →
        u.getF F.PLN_LOAD_STATUS_CODE p = 0x0A ∧ (u.part p).plan = (s.part p).plan ∧ MemSame s u ∧
        (∀ o, o ≠ F.PLN_LOAD_STATUS_CODE.off p → u.word o = s.word o)) ∧
      ((∀ d ∈ ds, d = scheduleDigest sched (State.lengthOf pl sched) (s.planMovers p).length) →
        u.getF F.PLN_LOAD_STATUS_CODE p = 0 ∧ (u.part p).plan = some pl ∧ (u.part p).sched = sched ∧
        (u.part p).stepLen = State.lengthOf pl sched ∧ (u.part p).active = false ∧ u.getF F.PLN_STEP_STEP p = 0 ∧
        u.getF F.FAB_HSTAT_MIRROR 0 = (if u.resilient p then 1 else 0) ∧ u.running p = s.running p) ∧
      u.host = s.host ∧ u.ident = s.ident ∧ u.power = s.power

/-- R38, R54, R488: `RUN` 1 arms a loaded plan, unless a master of the partition is frozen (0x13), `PLN_START_BN` has
passed (0x0C) or the checkpoint to resume is another job's (0x10); either way the other fields of `PLN_CTRL` are written.
The armed plan's first step begins at `PLN_START_BN`, at position 0. Stated of a module that has not reported itself failed.
With several grounds to refuse, which code shows is the model's choice (assumption 10); that `START_BN` equal to BN
has not passed is read from R38 (assumption 47). -/
def Sys2Proof.Claims.RunStarts : Prop :=
  (∀ (s : State) (f : Func) (p : Nat) (v : Word) (pl : Plan), p < 8 → Open s f (F.PLN_CTRL_RUN.off p) →
    getBits v 0 0 = 1 → s.plan p = some pl → s.running p = false → s.flag F.GEN_STATUS_FAILED 0 = false → InRun s →
    ∃ u, exec (.runSet f p v) s = .next u ∧
      (∀ fld ∈ [F.PLN_CTRL_HOLD_LIMIT, F.PLN_CTRL_BAL_THRESH, F.PLN_CTRL_BAL_EN, F.PLN_CTRL_CHK_FAULT, F.PLN_CTRL_CHK_EN],
        u.getF fld p = getBits v fld.hi fld.lo) ∧
      (s.anyFrozen p = false → s.bn ≤ s.getF F.PLN_START_BN_BN p → s.flag F.WCH_RESUME_CTRL_ARM p = false →
        u.running p = true ∧ (u.part p).armed = true ∧
        u.getF F.GEN_STATUS_RUNNING 0 = s.getF F.GEN_STATUS_RUNNING 0 ||| 2 ^ p ∧
        u = { s with regs := u.regs, parts := u.parts } ∧
        (∀ o, o ≠ F.PLN_CTRL_RUN.off p → o ≠ F.GEN_STATUS_RUNNING.base → u.word o = s.word o) ∧
        (∀ q, q ≠ p → u.part q = s.part q)) ∧
      (∀ code, (code = 0x13 ∧ s.anyFrozen p = true) ∨
          (s.anyFrozen p = false ∧ ((code = 0x0C ∧ s.getF F.PLN_START_BN_BN p < s.bn) ∨
            (s.bn ≤ s.getF F.PLN_START_BN_BN p ∧ code = 0x10 ∧ s.flag F.WCH_RESUME_CTRL_ARM p = true ∧
              (s.rdN (s.getF F.WCH_CKPT_BASE_ADDR p + 8) 4 ≠ s.homeRank p ∨
                s.rdN (s.getF F.WCH_CKPT_BASE_ADDR p + 0x0C) 4 ≠ pl.rankCount)))) →
        u.running p = false ∧ u.getF F.PLN_LOAD_STATUS_CODE p = code ∧
        RegsOnly (fun o => o = F.PLN_CTRL_RUN.off p ∨ o = F.PLN_LOAD_STATUS_CODE.off p) s u)) ∧
  (∀ (s : State) (p : Nat), p < 8 → (s.part p).armed = true → s.running p = true → s.bn = s.getF F.PLN_START_BN_BN p →
    ∃ u, exec (.planStart p) s = .next u ∧ (u.part p).active = true ∧ (u.part p).fresh = true ∧
      (u.part p).armed = false ∧ (u.part p).rollbacks = 0 ∧ u.getF F.PLN_SPOS_POS p = 0 ∧ u.running p = true ∧
      u = { s with regs := u.regs, parts := u.parts } ∧ (∀ o, o ≠ F.PLN_SPOS_POS.off p → u.word o = s.word o) ∧
      ∀ q, q ≠ p → u.part q = s.part q)

/-- R54: `RUN` 0 lets the step in progress run to its commit beat; a plan not yet started is no longer set to run. -/
def Sys2Proof.Claims.RunClears : Prop :=
  ∀ (s : State) (f : Func) (p : Nat) (v : Word), p < 8 → Open s f (F.PLN_CTRL_RUN.off p) → getBits v 0 0 = 0 →
    s.running p = true →
    ∃ u, exec (.runClear f p v) s = .next u ∧
      ((s.part p).active = true → u.running p = true ∧ (u.part p).stopAfter = true ∧ (u.part p).active = true) ∧
      ((s.part p).active = false → u.running p = false ∧ (u.part p).armed = false) ∧
      (∀ fld ∈ [F.PLN_CTRL_HOLD_LIMIT, F.PLN_CTRL_BAL_THRESH, F.PLN_CTRL_BAL_EN, F.PLN_CTRL_CHK_FAULT, F.PLN_CTRL_CHK_EN],
        u.getF fld p = getBits v fld.hi fld.lo) ∧
      u = { s with regs := u.regs, parts := u.parts } ∧ (∀ q, q ≠ p → u.part q = s.part q) ∧
      ∀ o, o ≠ F.PLN_CTRL_RUN.off p → o ≠ F.GEN_STATUS_RUNNING.base → u.word o = s.word o

/-- R61, R117, R139: at the first beat of a step every token counter of the partition's tiles is 0, every bank +0, the row
carry at its start and the chain table kept for a rollback; R446: the first attempt takes the values of `PLN_CTRL` in force
for the step. Position and step stand; the registers and descriptors of the tiles are left.
What a re-run takes of `PLN_CTRL` is read from R446 (assumption 49). -/
def Obligations.StepOrigin : Prop :=
  ∀ (s : State) (p : Nat), p < 8 → (s.part p).active = true → (s.part p).fresh = true → s.rolling p = false →
    ∃ u, exec (.stepOrigin p) s = .next u ∧ (u.part p).fresh = false ∧ (u.part p).active = true ∧
      u.getF F.PLN_SPOS_HOLD_TOTAL p = 0 ∧ u.getF F.PLN_SPOS_POS p = s.getF F.PLN_SPOS_POS p ∧
      u.getF F.PLN_STEP_STEP p = s.getF F.PLN_STEP_STEP p ∧ u.bn = s.bn ∧
      (∀ g, g ∈ s.tilesOf p → u.tile g = { s.tile g with
        toks := [], banks := [], carry := [], chains0 := (s.tile g).chains, heldToks := [], retryCost := 0, extra := 0 }) ∧
      (∀ g, g ∉ s.tilesOf p → u.tile g = s.tile g) ∧
      ((s.part p).rollbacks = 0 → (u.part p).chkEn = s.flag F.PLN_CTRL_CHK_EN p ∧
        (u.part p).chkFault = s.flag F.PLN_CTRL_CHK_FAULT p ∧ (u.part p).balEn = s.flag F.PLN_CTRL_BAL_EN p ∧
        (u.part p).balThresh = s.getF F.PLN_CTRL_BAL_THRESH p) ∧
      ((s.part p).rollbacks ≠ 0 → (u.part p).chkEn = (s.part p).chkEn ∧ (u.part p).balEn = (s.part p).balEn ∧
        (u.part p).balThresh = (s.part p).balThresh) ∧
      u.host = s.host ∧ u.ident = s.ident ∧ u.power = s.power ∧ u.cmovers = s.cmovers ∧ u.movers = s.movers

/-- A plan load checks, places and installs an image, or refuses it: `Claims.PlanLoadBegins`; `Claims.PlanLoadEnds`. -/
def Obligations.PlanLoad : Prop :=
  Claims.PlanLoadBegins ∧ Claims.PlanLoadEnds

/-- RUN 1 arms a plan or is refused, RUN 0 stops it after its commit beat: `Claims.RunStarts`; `Claims.RunClears`. -/
def Obligations.RunStartsAndClears : Prop :=
  Claims.RunStarts ∧ Claims.RunClears

/-! ## Tasks that the Planner starts (R32, R43, R60, R161, R245, R334, R428, R482) -/

/-- R60: a kernel starts with the step, micro-batch, share, share base, cluster, tile and task in s1 to s7, every other
scalar register and descriptor 0, every predicate false and the PC at its first word. A tile idle throughout the previous
beat waits for a grant of the ramp limiter first (R428); with the share of the beat used up it stays as it is. Stated where no
buffer of an update interval starts at +0 with the kernel (R305).
Where a share's data lie is an operand (assumption 3). -/
def Obligations.DispatchStartsKernel : Prop :=
  ∀ (s : State) (p task g share base : Nat) (pl : Plan) (k : Task), p < 8 → g < 256 → task < 2 ^ 24 →
    s.canDispatch p task g share = true → s.plan p = some pl → s.taskOf p task = some k →
    (s.wasIdle g = true → (s.part p).acts = []) → (s.clearInterval p task).mem = s.mem →
    ∃ u, exec (.tileDispatch p task g share base) s = .next u ∧ u.mem = s.mem ∧ u.host = s.host ∧
      (∀ h, h ≠ g → u.tile h = s.tile h) ∧
      (s.wasIdle g = false ∨ s.grantsUsed p < s.rampShare p →
        u.getF F.TIL_STATUS_STATE g = 1 ∧ u.getF F.TIL_STATUS_TASK g = task ∧
        (u.tile g).s 1 = BitVec.ofNat 64 (s.getF F.PLN_STEP_STEP p) ∧ (u.tile g).s 2 = BitVec.ofNat 64 k.mb ∧
        (u.tile g).s 3 = BitVec.ofNat 64 share ∧ (u.tile g).s 4 = BitVec.ofNat 64 base ∧
        (u.tile g).s 5 = BitVec.ofNat 64 (g / 8) ∧ (u.tile g).s 6 = BitVec.ofNat 64 (g % 8) ∧
        (u.tile g).s 7 = BitVec.ofNat 64 task ∧ (∀ r, r = 0 ∨ 7 < r → (u.tile g).s r = 0) ∧
        (∀ r, mget 0 (u.tile g).dregs r = 0) ∧ (∀ r, 1 ≤ r → (u.tile g).p r = false) ∧
        (u.tile g).pc = ((pl.kernels[k.kernel]?).map (·.pc)).getD 0 ∧ (u.tile g).lastBusy = some s.bn ∧
        (u.tile g).toks = (s.tile g).toks ∧ (u.tile g).banks = (s.tile g).banks ∧ (u.tile g).chains = (s.tile g).chains ∧
        (u.tile g).carry = (s.tile g).carry ∧ (u.tile g).pend = (s.tile g).pend ∧
        u.grantsUsed p = s.grantsUsed p + (if s.wasIdle g then 1 else 0)) ∧
      (s.wasIdle g = true → s.rampShare p ≤ s.grantsUsed p →
        u.tile g = s.tile g ∧ u.getF F.TIL_STATUS_STATE g = 0 ∧
        (u.part p).acts = [{ beat := s.bn, task := task, tile := g, share := share, base := base }]) ∧
      ∀ o, o ≠ F.TIL_STATUS_STATE.off g → u.word o = s.word o

/-- R482: a cluster-move task submits its chain to the channel it was given, a host-move task starts its chain on the mover
that stands for its logical one; both are then started. -/
def Obligations.MoveTasksStart : Prop :=
  (∀ (s : State) (p task chain c : Nat) (q : Placed), s.placedTask p task = some q →
    c = 8 * s.planCluster p (q.units.headD 0 / 8) + q.units.headD 0 % 8 → s.stepMoves p = true →
    (s.taskOf p task).any (·.kind = 2) = true → (s.part p).started.contains task = false →
    (s.part p).done.contains task = false → (s.cmover c).frozen = false →
    ∃ u, exec (.clusterMove p task chain) s = .next u ∧
      u.cmover c = { s.cmover c with chains := (s.cmover c).chains ++
        [{ tile := none, token := 0, part := p, task := task, addr := chain, desc := none, since := none }] } ∧
      (∀ d, d ≠ c → u.cmover d = s.cmover d) ∧ (u.part p).started.contains task = true ∧
      u = { s with parts := u.parts, cmovers := u.cmovers } ∧ ∀ r, r ≠ p → u.part r = s.part r) ∧
  (∀ (s : State) (p task chain h : Nat) (q : Placed), s.placedTask p task = some q →
    (s.planMovers p)[q.units.headD 0]? = some h → s.stepMoves p = true → (s.taskOf p task).any (·.kind = 3) = true →
    (s.part p).started.contains task = false → (s.part p).done.contains task = false → (s.mover h).frozen = false →
    (s.mover h).chain = none →
    ∃ u, exec (.hostMove p task chain) s = .next u ∧ u.getF F.DMA_MSTAT_STATE h = 1 ∧
      (u.mover h).chain = some
        { queue := none, part := p, task := task, addr := BitVec.ofNat 64 chain, desc := none, written := 0, abort := false } ∧
      (∀ i, i ≠ h → u.mover i = s.mover i) ∧ (u.part p).started.contains task = true ∧
      u = { s with regs := u.regs, parts := u.parts, movers := u.movers } ∧
      ∀ o, o ≠ F.DMA_MSTAT_STATE.off h → u.word o = s.word o)

/-! ## Instruction words of a tile (R56 to R83) -/

/-- The word has issued in cycle `n` and put the effects `es` in flight, each with its latency, its task and its share: results
of the program order of R62 that nothing has changed yet; the PC goes on, unless the bundle ends at a loop's end. Of the
banks nothing is said. -/
def Sys2Proof.IssuedPort (s u : State) (g : Nat) (w : Word) (n : Nat) (es : List (Nat × Eff)) : Prop :=
  (u.tile g).pend = (s.tile g).pend ++
    es.map (fun e => ({ vis := n + e.1, issue := n, seq := (s.tile g).seq, eff := e.2,
                        task := s.getF F.TIL_STATUS_TASK g, share := (s.tile g).share } : Pend)) ∧
  (u.tile g).seq = (s.tile g).seq + 1 ∧ u.now = n ∧
  (wE w = false → (u.tile g).pc = (s.tile g).pc + 1 ∧ (u.tile g).lastSlot = some (wSlot w)) ∧
  (wE w = true → (u.tile g).lastSlot = none ∧ ((s.tile g).loops = [] → (u.tile g).pc = (s.tile g).pc + 1)) ∧
  (u.tile g).sregs = (s.tile g).sregs ∧ (u.tile g).dregs = (s.tile g).dregs ∧ (u.tile g).preds = (s.tile g).preds ∧
  (u.tile g).toks = (s.tile g).toks ∧ (u.tile g).chains = (s.tile g).chains ∧
  (u.tile g).carry = (s.tile g).carry ∧ u.mem = s.mem ∧ u.host = s.host ∧ ∀ h, h ≠ g → u.tile h = s.tile h

/-- The word has issued as `IssuedPort` says and no bank has changed. -/
def Sys2Proof.Issued (s u : State) (g : Nat) (w : Word) (n : Nat) (es : List (Nat × Eff)) : Prop :=
  IssuedPort s u g w n es ∧ (u.tile g).banks = (s.tile g).banks

/-- R72, R76: scalar arithmetic puts f(sA, b) in flight to sD, `b` being sB or the sign-extended `IMM`: `mul` for 3 cycles,
the others for 1. A word whose guard is false has no effect (R58). Registers, memory and other tiles are as before. -/
def Sys2Proof.Claims.ScalarArithmetic : Prop :=
  ∀ (s : State) (g : Nat) (w : Word) (n : Nat) (c : Instr) (op lat : Nat) (f : Word → Word → Word),
    (c = .add g w ∧ op = 1 ∧ lat = 1 ∧ f = fun (a b : Word) => a + b) ∨ (c = .sub g w ∧ op = 2 ∧ lat = 1 ∧ f = fun (a b : Word) => a - b) ∨
      (c = .mul g w ∧ op = 3 ∧ lat = 3 ∧ f = fun (a b : Word) => a * b) ∨ (c = .and g w ∧ op = 4 ∧ lat = 1 ∧ f = fun (a b : Word) => a &&& b) ∨
      (c = .or g w ∧ op = 5 ∧ lat = 1 ∧ f = fun (a b : Word) => a ||| b) ∨ (c = .xor g w ∧ op = 6 ∧ lat = 1 ∧ f = fun (a b : Word) => a ^^^ b) ∨
      (c = .shl g w ∧ op = 7 ∧ lat = 1 ∧ f = fun (a b : Word) => a <<< (b.toNat % 64)) ∨
      (c = .shr g w ∧ op = 8 ∧ lat = 1 ∧ f = fun (a b : Word) => a >>> (b.toNat % 64)) ∨
      (c = .sra g w ∧ op = 9 ∧ lat = 1 ∧ f = fun (a b : Word) => a.sshiftRight (b.toNat % 64)) ∨
      (c = .min g w ∧ op = 10 ∧ lat = 1 ∧ f = fun (a b : Word) => if a.toInt < b.toInt then a else b) ∨
      (c = .max g w ∧ op = 11 ∧ lat = 1 ∧ f = fun (a b : Word) => if a.toInt < b.toInt then b else a) →
    (wSlot w = 2 ∨ wSlot w = 3) → wOp w = op → Issues s g w n →
    ∃ u, exec c s = .next u ∧ u = { s with tiles := u.tiles, now := n } ∧
      Issued s u g w n (if guardOk (s.tile g) w then
        [(lat, .sreg (sSD w) (f ((s.tile g).s (sSA w)) ((s.tile g).opB w))
          (State.shadowOf w (f ((s.tile g).s (sSA w)) ((s.tile g).opB w))
            (f ((s.tile g).sh (sSA w)) ((s.tile g).opBsh w))))] else [])

/-- R72: compares and predicate operations put their truth value in flight to pD, 1 cycle. -/
def Sys2Proof.Claims.ComparesAndPredicates : Prop :=
  (∀ (s : State) (g : Nat) (w : Word) (n : Nat) (c : Instr) (op : Nat) (f : Word → Word → Bool),
    (c = .cmpEq g w ∧ op = 12 ∧ f = fun (a b : Word) => decide (a = b)) ∨ (c = .cmpNe g w ∧ op = 13 ∧ f = fun (a b : Word) => decide (a ≠ b)) ∨
      (c = .cmpLt g w ∧ op = 14 ∧ f = fun (a b : Word) => decide (a.toInt < b.toInt)) ∨
      (c = .cmpLtu g w ∧ op = 15 ∧ f = fun (a b : Word) => decide (a.toNat < b.toNat)) →
    (wSlot w = 2 ∨ wSlot w = 3) → wOp w = op → getBits w 47 46 = 0 → Issues s g w n →
    ∃ u, exec c s = .next u ∧ u = { s with tiles := u.tiles, now := n } ∧
      Issued s u g w n (if guardOk (s.tile g) w then
        [(1, .preg (sPD w) (f ((s.tile g).s (sSA w)) ((s.tile g).opB w)))] else [])) ∧
  (∀ (s : State) (g : Nat) (w : Word) (n : Nat) (c : Instr) (op : Nat) (f : Bool → Bool → Bool),
    (c = .pand g w ∧ op = 16 ∧ f = fun a b => a && b) ∨ (c = .por g w ∧ op = 17 ∧ f = fun a b => a || b) ∨
      (c = .pxor g w ∧ op = 18 ∧ f = fun a b => a != b) →
    (wSlot w = 2 ∨ wSlot w = 3) → wOp w = op → getBits w 47 46 = 0 → getBits w 42 41 = 0 → getBits w 37 36 = 0 →
    Issues s g w n →
    ∃ u, exec c s = .next u ∧ u = { s with tiles := u.tiles, now := n } ∧
      Issued s u g w n (if guardOk (s.tile g) w then
        [(1, .preg (sPD w) (f ((s.tile g).p (sSA w)) ((s.tile g).p (sSB w))))] else []))

/-- R69, R76, R484: a multiply of two operands that meet in format and shape is in flight for its occupancy and 24 cycles
more; the multiply pipeline accepts again after the occupancy. R68: it needs the pipeline, and its bank free of the
port. -/
def Sys2Proof.Claims.MultiplyWords : Prop :=
  ∀ (s : State) (g : Nat) (w : Word) (n : Nat) (c : Instr) (op : Nat) (m : MulMode),
    (c = .mxMul g w ∧ op = 1 ∧ m = .mul) ∨ (c = .mxMultA g w ∧ op = 2 ∧ m = .multA) ∨
      (c = .mxMultB g w ∧ op = 3 ∧ m = .multB) →
    wSlot w = 0 → wOp w = op → mRsv w = false → Issues s g w n → Planned s g w → guardOk (s.tile g) w = true →
    State.mulDesc (s.tile g) w m = false → (s.tile g).units.mulFree ≤ n →
    State.bankBusy (s.tile g).units.portBanks (mAcc w) n = false →
    let occ := State.mulCycles ((s.tile g).d (mDA w))
    ∃ u, exec c s = .next u ∧ u = { s with tiles := u.tiles, now := n } ∧ (u.tile g).units.mulFree = n + occ ∧
      State.bankBusy (u.tile g).units.mulBanks (mAcc w) (n + occ + 23) = true ∧
      Issued s u g w n [(occ + 24, .mult m (mAcc w) ((s.tile g).d (mDA w)) ((s.tile g).d (mDB w)) (mZ w))]

/-- R69, R70, R76: `mx.ld` takes a block into the bank, `mx.zero` makes it +0 of no type, `mx.st` and `mx.stq` put the bank
into a block by the store's rounding, `mx.stq` with the predicate of saturation; 72 cycles but for `mx.zero`'s 2, the port
taken for 64 and 1. With its bundle a store hands the bank's saturations to the tensor of its block (R94).
That a block is read as it stands at issue is read from R62 (assumption 7). -/
def Sys2Proof.Claims.PortWords : Prop :=
  ∀ (s : State) (g : Nat) (w : Word) (n : Nat), wSlot w = 0 → mRsv w = false → Issues s g w n → Planned s g w →
    guardOk (s.tile g) w = true → (s.tile g).units.portFree ≤ n →
    State.bankBusy (s.tile g).units.mulBanks (mAcc w) n = false →
    let d := (s.tile g).d (mDA w)
    (wOp w = 4 → State.ldDesc (s.tile g) w = false → inLocal (dBase d) (regionBytes d) = true →
      ∃ u, exec (.mxLd g w) s = .next u ∧ u = { s with tiles := u.tiles, now := n } ∧
        (u.tile g).units.portFree = n + 64 ∧ Issued s u g w n [(72, .bank (mAcc w) (loadBank s.rd8 g d))]) ∧
    (∀ (c : Instr) (q : Bool), (c = .mxSt g w ∧ wOp w = 5 ∧ q = false) ∨ (c = .mxStq g w ∧ wOp w = 6 ∧ q = true) →
      State.stDesc (s.tile g) w = false → inLocal (dBase d) (regionBytes d) = true →
      (s.part (s.tilePart g)).landedBn ≤ s.bn →
      let a := devAddr g (dBase d)
      let b := (s.tile g).bank (mAcc w)
      let tr := if dBS d then s.trailerAt a else []
      let o := storeBank g d b tr
      let bytes : List Byte := (o.1.map (·.2)).headD [] ++ if dBS d then tr.take 2 else []
      let am : Option W32 := if dBS d then some (amax ((List.range 16384).map fun i => mget 0 b.cells i)) else none
      ∃ u, exec c s = .next u ∧ (u.tile g).units.portFree = n + 64 ∧
        IssuedPort s u g w n (o.1.map (fun x => (72, Eff.mem x.1 x.2)) ++ (if q then [(72, Eff.preg (mPO w) (0 < o.2))] else []) ++
          [(72, Eff.block a (dFmt d) o.2 bytes am)]) ∧
        (wE w = true → (u.tile g).bank (mAcc w) = { b with sat := 0 }) ∧ (wE w = false → (u.tile g).bank (mAcc w) = b) ∧
        ∀ k, k ≠ mAcc w → (u.tile g).bank k = (s.tile g).bank k) ∧
    (wOp w = 7 →
      ∃ u, exec (.mxZero g w) s = .next u ∧ u = { s with tiles := u.tiles, now := n } ∧
        (u.tile g).units.portFree = n + 1 ∧ Issued s u g w n [(2, .bank (mAcc w) Bank.zero)])

/-- R71, R76, R116, R117: a `vc.run` whose views suit its chain is in flight for the beats of its lines, its stages and
its pipeline; the chain is taken for one cycle a line. `vc.cfg` takes 256 bytes into the chain table after 8 cycles.
What an output conversion that does not saturate counts is the model's choice (assumption 106). -/
def Sys2Proof.Claims.ChainWords : Prop :=
  ∀ (s : State) (g : Nat) (w : Word) (n : Nat), wSlot w = 1 → vRsv w = false → Issues s g w n → Planned s g w →
    guardOk (s.tile g) w = true → (s.tile g).units.vcFree ≤ n →
    (wOp w = 1 → State.runDesc (s.tile g) w = false → s.runAddr g w = false →
      (s.part (s.tilePart g)).landedBn ≤ s.bn →
      let e := mget [] (s.tile g).chains (vChain w)
      let dd := (s.tile g).d (vDD w)
      ∃ u tr, exec (.vcRun g w) s = .next u ∧ (u.tile g).units.vcFree = n + (dLen dd + 127) / 128 ∧
        (dBS dd = false → tr = []) ∧
        Issued s u g w n [(State.runLatency e (dLen dd),
          .chain e dd ((s.tile g).d (vDA w)) ((s.tile g).d (vDB w)) ((s.tile g).d (vDM w)) (vMK w) tr)]) ∧
    (wOp w = 2 → descBad ((s.tile g).d (vDA w)) = false → inTile (dBase ((s.tile g).d (vDA w))) 256 = true →
      entryBad (s.rd (devAddr g (dBase ((s.tile g).d (vDA w)))) 256) = false →
      ∃ u, exec (.vcCfg g w) s = .next u ∧ u = { s with tiles := u.tiles, now := n } ∧ (u.tile g).units.vcFree = n + 8 ∧
        Issued s u g w n [(8, .cfg (vChain w) (s.rd (devAddr g (dBase ((s.tile g).d (vDA w)))) 256))])

/-- R65, R73, R76: the X slot's memory words at an aligned effective address sA + `OFF` in the Tile or Cluster Store: 8
bytes to or from sD in 4 cycles, 16 to or from dD in 5, 20 more in the Cluster Store; `xd.set` in 2, `xm.copy` block rows
as read at issue, `xm.dma` a descriptor to its channel in 1.
That `xm.copy` reads its source at issue is read from R62 (assumption 7). -/
def Sys2Proof.Claims.MemoryWords : Prop :=
  ∀ (s : State) (g : Nat) (w : Word) (n : Nat), wSlot w = 2 → Issues s g w n → Planned s g w →
    guardOk (s.tile g) w = true →
    let t := s.tile g
    let a := t.ea w
    let far := if a < 0x10_0000 then 0 else 20
    (∀ (c : Instr) (es : List (Nat × Eff)), inLocal a 8 = true → a % 8 = 0 →
      (c = .xsLd g w ∧ wOp w = 0x20 ∧ es = [(4 + far, Eff.sreg (xSD w) (BitVec.ofNat 64 (s.rdN (devAddr g a) 8))
          (BitVec.ofNat 64 (s.rdN (devAddr g a) 8)))]) ∨
        (c = .xsSt g w ∧ wOp w = 0x21 ∧ es = [(4 + far, Eff.mem (devAddr g a) (leBytes 8 (t.s (xSD w)).toNat))]) →
      ∃ u, exec c s = .next u ∧ u = { s with tiles := u.tiles, now := n } ∧ Issued s u g w n es) ∧
    (∀ (c : Instr) (es : List (Nat × Eff)), inLocal a 16 = true → a % 16 = 0 →
      (c = .xdLd g w ∧ wOp w = 0x23 ∧ es = [(5 + far, Eff.dreg (xDD w) (BitVec.ofNat 128 (s.rdN (devAddr g a) 16))
          (BitVec.ofNat 128 (s.rdN (devAddr g a) 16)))]) ∨
        (c = .xdSt g w ∧ wOp w = 0x24 ∧ es = [(5 + far, Eff.mem (devAddr g a) (leBytes 16 (t.d (xDD w)).toNat))]) →
      ∃ u, exec c s = .next u ∧ u = { s with tiles := u.tiles, now := n } ∧ Issued s u g w n es) ∧
    (wOp w = 0x22 →
      ∃ u, exec (.xdSet g w) s = .next u ∧ u = { s with tiles := u.tiles, now := n } ∧
        Issued s u g w n [(2, .dreg (xDD w) (t.s (xSD w) ++ t.s (xSA w))
          (State.shadowOf w (t.s (xSD w) ++ t.s (xSA w)) (t.sh (xSD w) ++ t.sh (xSA w))))]) ∧
    (wOp w = 0x25 → State.copyDesc (t.d (xDD w)) (t.d (xDS w)) = false →
      inLocal (dBase (t.d (xDD w))) (regionBytes (t.d (xDD w))) = true →
      inLocal (dBase (t.d (xDS w))) (regionBytes (t.d (xDS w))) = true → t.units.copyFree ≤ n →
      let ds := t.d (xDS w)
      let dd := t.d (xDD w)
      let occ := (State.copyBytes ds + 255) / 256
      ∃ u, exec (.xmCopy g w) s = .next u ∧ u = { s with tiles := u.tiles, now := n } ∧
        (u.tile g).units.copyFree = n + occ ∧
        Issued s u g w n ((List.range (dRows ds)).map fun r =>
          (occ + 20, Eff.mem (devAddr g (dBase dd + 64 * r * dStride dd))
            (s.rd (devAddr g (dBase ds + 64 * r * dStride ds)) (dCols ds * pitch ds))))) ∧
    (wOp w = 0x26 → inTile a 64 = true → a % 64 = 0 →
      ∃ u, exec (.xmDma g w) s = .next u ∧ u = { s with tiles := u.tiles, now := n } ∧
        Issued s u g w n [(1, .dma (xCH w) (xTK w) (devAddr g a) t.pc (s.getF F.TIL_STATUS_TASK g))])

/-- Scalar arithmetic, compares and predicate operations: `Claims.ScalarArithmetic`; `Claims.ComparesAndPredicates`. -/
def Obligations.ScalarWords : Prop :=
  Claims.ScalarArithmetic ∧ Claims.ComparesAndPredicates

/-- Multiplies and the moves of a bank: `Claims.MultiplyWords`; `Claims.PortWords`. -/
def Obligations.ArrayWords : Prop :=
  Claims.MultiplyWords ∧ Claims.PortWords

/-- Vector chain words and memory words: `Claims.ChainWords`; `Claims.MemoryWords`. -/
def Obligations.ChainAndMemoryWords : Prop :=
  Claims.ChainWords ∧ Claims.MemoryWords

/-- A control word of tile `g` in cycle `n` leaves all but the tile's program counter, loops and issue. -/
def Sys2Proof.CtlFrame (s u : State) (g n : Nat) : Prop :=
  (u.tile g).sregs = (s.tile g).sregs ∧ (u.tile g).dregs = (s.tile g).dregs ∧ (u.tile g).preds = (s.tile g).preds ∧
    (u.tile g).toks = (s.tile g).toks ∧ (u.tile g).banks = (s.tile g).banks ∧ (u.tile g).pend = (s.tile g).pend ∧
    u = { s with tiles := u.tiles, now := n } ∧ ∀ h, h ≠ g → u.tile h = s.tile h

/-- R74, R76: a branch goes to PC + `IMM`, its next bundle 3 cycles on; a loop of a count above 0 repeats its body, one of
count 0 goes on behind it; a cycle wait holds the next bundle for `IMM` cycles.
That a body offset of 0 is `ISTORE` is read from R74 (assumption 8); that a branch taken in a loop's last bundle
leaves the loop's count is the model's choice (assumption 105). -/
def Sys2Proof.Claims.BranchesAndLoops : Prop :=
  ∀ (s : State) (g : Nat) (w : Word) (n : Nat), wSlot w = 3 → wE w = true → Issues s g w n →
    guardOk (s.tile g) w = true →
    let t := s.tile g
    let stop := t.pc + cImm w / 2 ^ 16
    (wOp w = 0x20 → 0 ≤ State.branchTarget t.pc w → State.branchTarget t.pc w ≤ 16383 →
      ∃ u, exec (.csBr g w) s = .next u ∧ ((u.tile g).pc : Int) = t.pc + signed 32 (cImm w) ∧
        (u.tile g).nextIssue = n + 3 ∧ (u.tile g).loops = t.loops ∧ CtlFrame s u g n) ∧
    (wOp w = 0x21 → 0 < cImm w / 2 ^ 16 → stop ≤ 16383 → loopCount t w ≠ 0 → t.loops.length < 4 →
      ∃ u, exec (.csLoop g w) s = .next u ∧ (u.tile g).pc = t.pc + 1 ∧
        (u.tile g).loops = { start := t.pc + 1, stop := stop, left := loopCount t w } :: t.loops ∧ CtlFrame s u g n) ∧
    (wOp w = 0x21 → 0 < cImm w / 2 ^ 16 → stop ≤ 16383 → loopCount t w = 0 →
      ∃ u, exec (.csLoop g w) s = .next u ∧ (u.tile g).pc = s.bundleEnd g 16384 stop ∧
        (u.tile g).nextIssue = n + 3 ∧ (u.tile g).loops = t.loops ∧ CtlFrame s u g n) ∧
    (wOp w = 0x24 → 1 ≤ cImm w → cImm w ≤ 1048576 →
      ∃ u, exec (.csWaitCyc g w) s = .next u ∧ (u.tile g).nextIssue = n + cImm w ∧
        (u.tile g).wait = some (.cyc (n + cImm w)) ∧ CtlFrame s u g n)

/-- R77, R78: a beat wait for a position ahead waits; one for the position that stands goes on in cycle 2 of the beat;
one for a position passed goes on at once and is counted late. A token wait waits until its counter has reached `IMM`.
What a wait for the position that stands does is read from R77 (assumption 20). -/
def Sys2Proof.Claims.WaitWords : Prop :=
  ∀ (s : State) (g : Nat) (w : Word) (n : Nat), g < 256 → wSlot w = 3 → wE w = true → Issues s g w n →
    guardOk (s.tile g) w = true →
    let t := s.tile g
    let pos := s.getF F.PLN_SPOS_POS (s.tilePart g)
    let x := State.waitTarget t w
    (wOp w = 0x22 →
      ∃ u, exec (.csWaitBeat g w) s = .next u ∧
        (pos < x → u.getF F.TIL_STATUS_STATE g = 2 ∧ (u.tile g).wait = some (.beat x s.bn)) ∧
        (pos = x → (s.part (s.tilePart g)).heldNow = false → n < s.beatStart + 2 →
          u.getF F.TIL_STATUS_STATE g = 1 ∧ (u.tile g).nextIssue = s.beatStart + 2 ∧ u.regs = s.regs) ∧
        (x < pos → u.getF F.TIL_STATUS_STATE g = 1 ∧ (u.tile g).nextIssue = n + 1 ∧
          u.getF F.TIL_STATUS_LATE_WAITS g =
            min (s.getF F.TIL_STATUS_LATE_WAITS g + 1) (2 ^ F.TIL_STATUS_LATE_WAITS.width - 1)) ∧
        u = { s with regs := u.regs, tiles := u.tiles, now := n } ∧
        (∀ o, o ≠ F.TIL_STATUS_STATE.off g → u.word o = s.word o) ∧ ∀ h, h ≠ g → u.tile h = s.tile h) ∧
    (wOp w = 0x23 → (t.shadowOn = false ∨ wMV w = true) →
      ∃ u, exec (.csWaitTok g w) s = .next u ∧
        (tokReached (t.tok (cTK w)) (cImm w) = true →
          u.getF F.TIL_STATUS_STATE g = 1 ∧ (u.tile g).nextIssue = n + 1 ∧ u.regs = s.regs) ∧
        (tokReached (t.tok (cTK w)) (cImm w) = false → u.getF F.TIL_STATUS_STATE g = 2 ∧
          (u.tile g).wait = some (.tok (cTK w) (cImm w % 2 ^ 16) s.bn)) ∧
        (u.tile g).toks = t.toks ∧ u = { s with regs := u.regs, tiles := u.tiles, now := n } ∧
        (∀ o, o ≠ F.TIL_STATUS_STATE.off g → u.word o = s.word o) ∧ ∀ h, h ≠ g → u.tile h = s.tile h)

/-- R79, R82: `cs.arrive` arms the increment of the token in sA for the cycle in which every write issued before it is
visible; `cs.halt` does so unless `I` is 1, and makes the tile idle: with the last tile of its task the task is done. -/
def Sys2Proof.Claims.ArriveAndHalt : Prop :=
  ∀ (s : State) (g : Nat) (w : Word) (n : Nat), g < 256 → wSlot w = 3 → wE w = true → Issues s g w n → Planned s g w →
    guardOk (s.tile g) w = true →
    let t := s.tile g
    let a := (t.s (cSA w)).toNat
    let c := t.pend.foldl (fun m x => max m x.vis) (n + 1)
    let task := s.getF F.TIL_STATUS_TASK g
    let left := mget 0 (s.part (s.tilePart g)).tileLeft task
    (wOp w = 0x25 → s.tokenBad g a = false →
      ∃ u, exec (.csArrive g w) s = .next u ∧ (u.tile g).arrives = t.arrives ++ [{ at_ := c, token := a }] ∧
        (u.tile g).pend = t.pend ∧ (u.tile g).toks = t.toks ∧ u = { s with tiles := u.tiles, now := n } ∧
        ∀ h, h ≠ g → u.tile h = s.tile h) ∧
    (wOp w = 0x26 → (cI w = true ∨ s.tokenBad g a = false) →
      ∃ u, exec (.csHalt g w) s = .next u ∧ u.getF F.TIL_STATUS_STATE g = 0 ∧
        (u.tile g).arrives = (if cI w then t.arrives else t.arrives ++ [{ at_ := c, token := a }]) ∧
        (u.tile g).loops = [] ∧ (u.tile g).lastBusy = some s.bn ∧ (u.tile g).pend = t.pend ∧
        (left = 0 → u.parts = s.parts) ∧
        (left = 1 → (u.part (s.tilePart g)).done.contains task = true ∧
          mget 0 (u.part (s.tilePart g)).tileLeft task = 0) ∧
        (2 ≤ left → (u.part (s.tilePart g)).done = (s.part (s.tilePart g)).done ∧
          mget 0 (u.part (s.tilePart g)).tileLeft task = left - 1) ∧
        u = { s with regs := u.regs, tiles := u.tiles, parts := u.parts, now := n } ∧
        (∀ o, o ≠ F.TIL_STATUS_STATE.off g → u.word o = s.word o) ∧ ∀ h, h ≠ g → u.tile h = s.tile h)

/-- R62: the result of an instruction becomes visible in its cycle: in the register it names, in memory, in a bank by the
multiply of R91 over the operands as its cycles found them, in the chain table, or by the run of a chain, whose row
carry a rollback since its issue keeps out (R139); a stored block is counted, and a submitted descriptor is then in its
channel. The plan checker is off (R53). -/
def Sys2Proof.Claims.ResultsBecomeVisible : Prop :=
  ∀ (s : State) (g : Nat) (x : Pend), (s.tile g).pend = [x] → (∀ y ∈ s.tiles, y.1 ≠ g → y.2.pend = []) → g < 256 →
    s.tiles.Pairwise (fun a b => a.1 < b.1) → s.checkerOn (s.tilePart g) = false →
    let t := s.tile g
    ∃ u, exec (.instructionResultVisible g) s = .next u ∧ (u.tile g).pend = [] ∧ u.now = max s.now x.vis ∧
      (∀ r v sh, x.eff = .sreg r v sh → r ≠ 0 → (u.tile g).s r = v ∧ u.mem = s.mem ∧ u.regs = s.regs ∧
        ∀ q, q ≠ r → (u.tile g).s q = t.s q) ∧
      (∀ v sh, x.eff = .sreg 0 v sh → ∀ q, (u.tile g).s q = t.s q) ∧
      (∀ r v sh, x.eff = .dreg r v sh → (u.tile g).d r = v ∧ u.mem = s.mem ∧ u.regs = s.regs ∧
        ∀ q, q ≠ r → (u.tile g).d q = t.d q) ∧
      (∀ r b, x.eff = .preg r b → r ≠ 0 → (u.tile g).p r = b ∧ ∀ q, q ≠ r → (u.tile g).p q = t.p q) ∧
      (∀ a bs, x.eff = .mem a bs → u.rd a bs.length = bs ∧ u.regs = s.regs ∧
        ∀ b, ¬ (a ≤ b ∧ b < a + bs.length) → u.rd8 b = s.rd8 b) ∧
      (∀ b v, x.eff = .bank b v → (u.tile g).bank b = v ∧ ∀ q, q ≠ b → (u.tile g).bank q = t.bank q) ∧
      (∀ m b da db z, x.eff = .mult m b da db z →
        (u.tile g).bank b = multiply s.memAt x.issue g m z da db (t.bank b) ∧ u.mem = s.mem ∧
        ∀ q, q ≠ b → (u.tile g).bank q = t.bank q) ∧
      (∀ a f n bs am, x.eff = .block a f n bs am → u.mem = s.mem ∧ (u.tile g).banks = t.banks ∧ (u.tile g).sregs = t.sregs) ∧
      (∀ k e, x.eff = .cfg k e → mget [] (u.tile g).chains k = e) ∧
      (∀ e dd da db dm mk tr, x.eff = .chain e dd da db dm mk tr →
        let args : RunArgs :=
          { g := g, t0 := x.issue, e := e, dd := dd, da := da, db := db, dm := dm, msk := mk,
            key := s.srKey (s.tilePart g) (eTensor e), trailers := tr }
        let o := chainRun args s.memAt s.rd8 t.carry
        u.mem = (s.wrAll o.writes).mem ∧ (u.tile g).carry = (if x.issue < t.restored then t.carry else o.carry)) ∧
      (∀ ch tk a pc task, x.eff = .dma ch tk a pc task → (s.cmover (8 * (g / 8) + ch)).frozen = false →
        (u.cmover (8 * (g / 8) + ch)).chains = (s.cmover (8 * (g / 8) + ch)).chains ++
          [{ tile := some g, token := tk, part := s.tilePart g, task := task, addr := a, desc := none, since := some x.issue }])

/-- R77, R78, R74, R79, R80: waits end when what they wait for is there, the next bundle in cycle 2 of the beat, 2 cycles on
or in the cycle counted to; an armed arrival and a channel whose chain has moved whole increment their token by one. -/
def Sys2Proof.Claims.WaitsAndArrivalsEnd : Prop :=
  (∀ (s : State) (g x b : Nat), g < 256 → (s.tile g).wait = some (.beat x b) → s.getF F.TIL_STATUS_STATE g = 2 →
    x ≤ s.getF F.PLN_SPOS_POS (s.tilePart g) →
    ∃ u, exec (.waitBeatSatisfied g) s = .next u ∧ u.getF F.TIL_STATUS_STATE g = 1 ∧ (u.tile g).wait = none ∧
      (u.tile g).nextIssue = max (s.beatStart + 2) s.now ∧ u = { s with regs := u.regs, tiles := u.tiles } ∧
      (∀ o, o ≠ F.TIL_STATUS_STATE.off g → u.word o = s.word o) ∧ ∀ h, h ≠ g → u.tile h = s.tile h) ∧
  (∀ (s : State) (g k i b : Nat), g < 256 → (s.tile g).wait = some (.tok k i b) → s.getF F.TIL_STATUS_STATE g = 2 →
    tokReached ((s.tile g).tok k) i = true →
    ∃ u, exec (.waitTokSatisfied g) s = .next u ∧ u.getF F.TIL_STATUS_STATE g = 1 ∧ (u.tile g).wait = none ∧
      (u.tile g).nextIssue = s.now + 2 ∧ (u.tile g).toks = (s.tile g).toks ∧
      u = { s with regs := u.regs, tiles := u.tiles } ∧ ∀ h, h ≠ g → u.tile h = s.tile h) ∧
  (∀ (s : State) (g c : Nat), (s.tile g).wait = some (.cyc c) → s.nextDue c = none →
    ∃ u, exec (.waitCycExpiry g) s = .next u ∧ u.now = max s.now c ∧ (u.tile g).wait = none ∧
      u = { s with tiles := u.tiles, now := max s.now c } ∧ ∀ h, h ≠ g → u.tile h = s.tile h) ∧
  (∀ (s : State) (g h k : Nat) (a : Arrive) (rest : List Arrive), (s.tile g).arrives = a :: rest →
    s.nextDue a.at_ = none → State.tokenOf a.token = some (h, k) → (s.test.saved.map (·.1)).contains h = false →
    ∃ u, exec (.arriveIncrement g) s = .next u ∧ (u.tile g).arrives = rest ∧ u.now = max s.now a.at_ ∧
      mget 0 (u.tile h).toks k = mget 0 (s.tile h).toks k + 1 ∧
      (∀ j, j ≠ k → mget 0 (u.tile h).toks j = mget 0 (s.tile h).toks j) ∧
      u = { s with tiles := u.tiles, now := u.now } ∧ ∀ f, f ≠ g → f ≠ h → u.tile f = s.tile f) ∧
  (∀ (s : State) (c ch : Nat) (k : CChain) (rest : List CChain), (s.cmover (8 * c + ch)).chains = k :: rest → k.addr = 0 →
    ∃ u, exec (.dmaArrival c ch) s = .next u ∧ (u.cmover (8 * c + ch)).chains = rest ∧
      (∀ g, k.tile = some g → (s.test.saved.map (·.1)).contains g = false →
        mget 0 (u.tile g).toks k.token = mget 0 (s.tile g).toks k.token + 1 ∧ u.parts = s.parts) ∧
      (k.tile = none → k.task < 2 ^ 24 → (u.part k.part).done.contains k.task = true ∧ u.tiles = s.tiles) ∧
      u = { s with tiles := u.tiles, parts := u.parts, cmovers := u.cmovers })

/-- R84, R85, R89: a word that is none of its opcode (`ILLEGAL`), a bad descriptor (`DESC`) and a misaligned address
(`ADDR`) stop the tile at the end of the bundle with code, slot and PC recorded, nothing of the bundle left in flight; a
wait of `WAIT_LIMIT` × 256 beats is `WAIT_TIMEOUT` (R81).
That of several faults of a bundle the lowest code is recorded, and the PC and slot of two corners, are the model's
choice (assumptions 19, 28, 92). -/
def Sys2Proof.Claims.PlanFaultsStopTheTile : Prop :=
  (∀ (s : State) (g : Nat) (w : Word) (n code : Nat) (c : Instr), g < 256 → Issues s g w n → (s.tile g).lastSlot = none →
    wE w = true → Planned s g w → guardOk (s.tile g) w = true → s.flag F.TIL_FAULT_VALID g = false →
    (s.part (s.tilePart g)).active = false → (∀ y ∈ (s.tile g).pend, y.seq < (s.tile g).seq) →
    (c = .mxZero g w ∧ wSlot w = 0 ∧ wOp w = 7 ∧ mRsv w = true ∧ code = 1) ∨
      (c = .mxMul g w ∧ wSlot w = 0 ∧ wOp w = 1 ∧ mRsv w = false ∧ State.mulDesc (s.tile g) w .mul = true ∧ code = 5) ∨
      (c = .xsLd g w ∧ wSlot w = 2 ∧ wOp w = 0x20 ∧ (s.tile g).ea w % 8 ≠ 0 ∧ code = 6) →
    ∃ u, exec c s = .next u ∧ u.getF F.TIL_STATUS_STATE g = 3 ∧ u.flag F.TIL_FAULT_VALID g = true ∧
      u.getF F.TIL_FAULT_CODE g = code ∧ u.getF F.TIL_FAULT_SLOT g = wSlot w ∧
      u.getF F.TIL_FAULT_PC g = (s.tile g).pc ∧ u.getF F.TIL_FAULT_BN_BN g = s.bn ∧
      u.getF F.TIL_FAULT_TASK g = s.getF F.TIL_STATUS_TASK g ∧ (u.tile g).pend = (s.tile g).pend ∧
      (u.tile g).sregs = (s.tile g).sregs ∧ (u.tile g).banks = (s.tile g).banks ∧ (u.tile g).units = (s.tile g).units ∧
      u.mem = s.mem ∧ ∀ h, h ≠ g → u.tile h = s.tile h) ∧
  (∀ (s : State) (g b : Nat), g < 256 → waitSince (s.tile g).wait = some b → s.getF F.TIL_STATUS_STATE g = 2 →
    s.getF F.TIL_CTRL_WAIT_LIMIT g ≠ 0 → b + 256 * s.getF F.TIL_CTRL_WAIT_LIMIT g ≤ s.bn →
    s.flag F.TIL_FAULT_VALID g = false → (s.part (s.tilePart g)).active = false →
    ∃ u, exec (.waitTimeout g) s = .next u ∧ u.getF F.TIL_STATUS_STATE g = 3 ∧ u.flag F.TIL_FAULT_VALID g = true ∧
      u.getF F.TIL_FAULT_CODE g = 0x0C ∧ u.getF F.TIL_FAULT_SLOT g = 3 ∧ u.getF F.TIL_FAULT_BN_BN g = s.bn ∧
      (u.tile g).wait = none ∧ u.mem = s.mem ∧ ∀ h, h ≠ g → u.tile h = s.tile h)

/-- Branches, loops and waits issue, arrivals and halts: `Claims.BranchesAndLoops`; `Claims.WaitWords`;
`Claims.ArriveAndHalt`. -/
def Obligations.ControlWords : Prop :=
  Claims.BranchesAndLoops ∧ Claims.WaitWords ∧ Claims.ArriveAndHalt

/-- Results become visible, waits and arrivals end, plan faults stop the tile: `Claims.ResultsBecomeVisible`;
`Claims.WaitsAndArrivalsEnd`; `Claims.PlanFaultsStopTheTile`. -/
def Obligations.TileEvents : Prop :=
  Claims.ResultsBecomeVisible ∧ Claims.WaitsAndArrivalsEnd ∧ Claims.PlanFaultsStopTheTile

/-! ## Embedding rows (R179 to R190, R195, R306) -/

/-- R180: an Index Unit sorts a table's list of a micro-batch: its unique row keys, rising; for each list position the index
of its key among them; and the positions that take the default row. -/
def Sys2Proof.Claims.IndexSortIsUniqueAndRising : Prop :=
  ∀ (s : State) (p table mb r : Nat) (d : TableDesc), s.ranksHere p = [r] → s.tableDesc p table = some d →
    let tag := mbTag (s.sortStep p table r mb) mb
    let ks := (s.listOf p table r tag).map fun e => keyOf d e.index
    ∃ u o, exec (.indexSort p table mb) s = .next u ∧ u.sortOf p table r tag = some o ∧
      o.uniq.Pairwise (· < ·) ∧ (∀ k, k ∈ o.uniq ↔ k ∈ ks) ∧ o.segmap.length = ks.length ∧
      (∀ i j k : Nat, o.segmap[i]? = some j → ks[i]? = some k → o.uniq[j]? = some k) ∧
      o.defs = (ks.filter (· = defaultKey)).length ∧
      u = { s with parts := u.parts, mem := u.mem, history := u.history } ∧ (∀ q, q ≠ p → u.part q = s.part q) ∧
      ∀ a, ¬ (region p (.work 0 table (State.mbSlot tag) r) ≤ a ∧
          a < region p (.work 0 table (State.mbSlot tag) r) + 8 * o.uniq.length) →
        ¬ (region p (.work 1 table (State.mbSlot tag) r) ≤ a ∧
          a < region p (.work 1 table (State.mbSlot tag) r) + 4 * ks.length) → u.rd8 a = s.rd8 a

/-- R188, R189: segment reduction gives one gradient for each row key that has entry gradients of the step, rising, each the
compensated sum of its entries in the order of requester, micro-batch and position; no memory and no register changes. -/
def Sys2Proof.Claims.SegmentsSumByKey : Prop :=
  ∀ (s : State) (p table r : Nat), s.ranksHere p = [r] →
    let es := ((s.tableSt p table r).entries.filter fun e => e.mb / 65536 = s.curStep p).mergeSort gradBefore
    ∃ u, exec (.segmentReduction p table) s = .next u ∧
      ((u.tableSt p table r).rowGrads.map (·.1)).Pairwise (· < ·) ∧
      (∀ k, k ∈ (u.tableSt p table r).rowGrads.map (·.1) ↔
        ∃ e ∈ (s.tableSt p table r).entries, e.key = k ∧ e.mb / 65536 = s.curStep p) ∧
      (∀ g ∈ (u.tableSt p table r).rowGrads, g.2 = segmentSum 40 ((es.filter (·.key = g.1)).map (·.vals))) ∧
      (u.tableSt p table r).entries = (s.tableSt p table r).entries ∧ (u.tableSt p table r).reduced = true ∧
      u = { s with parts := u.parts } ∧
      ∀ q, q ≠ p → u.part q = s.part q

/-- R182, R183: the owner gathers what one requester asks of a micro-batch: the nodes of every bag, over the largest blocks
of its shards, are kept for the requester, and with no requester left the task is done; while a row it reads is being
staged anew (R16) it waits. The table has no sorted micro-batch all of whose bags are empty. -/
def Sys2Proof.Claims.GatherFormsNodes : Prop :=
  ∀ (s : State) (p table mb rank r : Nat) (d : TableDesc), s.ranksHere p = [r] → s.tableDesc p table = some d →
    (s.part p).active = true → d.stale = false →
    (∀ o ∈ (s.tableSt p table r).sorted, s.listOf p table r o.mb ≠ []) →
    let tag := mbTag (s.curStep p) mb
    let x := s.fromRank p table r rank tag
    let waits := ∃ k ∈ x.keys, (s.ownedShards p table d r).contains (d.shardOf k) = true ∧
      (s.tableSt p table r).restaging.contains k = true
    ∃ u, exec (.gatherAndPool p table mb rank []) s = .next u ∧
      (waits → (u.fromRank p table r rank tag).gathered = x.gathered) ∧
      (¬ waits → (u.fromRank p table r rank tag).gathered = true) ∧
      (u.fromRank p table r rank tag).keys = x.keys ∧ (u.fromRank p table r rank tag).entries = x.entries ∧
      (¬ waits → ∀ b ∈ x.entries.map (·.bag), ∀ v ∈ s.bagNodes p table d r tag x b, (rank, v) ∈ (u.tableSt p table r).made) ∧
      (¬ waits → (∀ y ∈ (s.tableSt p table r).recv, y.mb = tag → y.rank = rank ∨ y.gathered = true) →
        ∀ t ∈ s.tasksWhere p (fun t => t.kind = 6 && t.table = table && (t.mb = mb || t.mb = 0xFFFF)), t < 2 ^ 24 →
          (u.part p).done.contains t = true) ∧
      MemSame s u ∧ u.host = s.host ∧ u.tiles = s.tiles ∧ u.ident = s.ident

/-- R195: prefetch stages Umber rows of the step to come, in ascending order and no row twice, and is then done; a single
row's committed slot (R16) is copied to the first slot of its stack's staging area.
Where the staging area lies is the model's choice (assumption 3). -/
def Sys2Proof.Claims.PrefetchStages : Prop :=
  ∀ (s : State) (p table r : Nat) (d : TableDesc) (pl : Plan), s.ranksHere p = [r] → s.plan p = some pl →
    s.tableDesc p table = some d →
    ∃ u, exec (.prefetch p table) s = .next u ∧
      ((u.tableSt p table r).staged.map (·.1)).Sublist (s.stageKeys p table d r) ∧
      (∀ t ∈ s.tasksWhere p (fun t => t.kind = 0x0C && t.table = table), t < 2 ^ 24 → (u.part p).done.contains t = true) ∧
      (∀ k, s.stageKeys p table d r = [k] → 0 < State.stageRows pl table →
        let a := State.stageBase p pl table ((d.shardOf k + d.localOf k / 256) % 8)
        (u.tableSt p table r).staged = [(k, a)] ∧ u.rd a d.slotBytes = s.committedSlot p table d r k (s.curStep p + 1) ∧
        ∀ b, ¬ (a ≤ b ∧ b < a + d.slotBytes) → u.rd8 b = s.rd8 b) ∧
      u = { s with parts := u.parts, mem := u.mem, history := u.history } ∧ ∀ q, q ≠ p → u.part q = s.part q

/-- R18, R306: once every gradient of the step has come and is summed, a sparse update gives every engine that homes touched
rows one `UPDATE` of the step with as many rows as it homes, and the others none; with nothing to update the task is done
at once. Before that it waits. -/
def Sys2Proof.Claims.SparseUpdateIssues : Prop :=
  ∀ (s : State) (p table t r : Nat) (d : TableDesc), p < 8 →
    s.tasksWhere p (fun k => k.kind = 7 && k.table = table) = [t] → t < 2 ^ 24 → s.rankOfTask p t = r →
    s.tableDesc p table = some d → (s.part p).active = true →
    (∀ e, e < 9 → (s.och e p).frozen = false ∧ (s.och e p).frames.length < 256) →
    let whole := s.gradsWhole p table d r = true
    ∃ u, exec (.sparseUpdate p table) s = .next u ∧ (d.rule ≠ 0 → whole → (u.part p).started.contains t = true) ∧
      (d.rule ≠ 0 → ¬ whole → u = s) ∧
      (d.rule = 0 ∨ (whole ∧ (s.tableSt p table r).rowGrads = []) →
        (u.part p).done.contains t = true ∧ u = { s with parts := u.parts }) ∧
      (d.rule ≠ 0 → whole → (s.tableSt p table r).rowGrads ≠ [] → ∀ e, e < 9 →
        let rows := (s.tableSt p table r).rowGrads.filter fun g => min (s.rowAt p table d r g.1).home 8 = e
        (rows = [] → u.och e p = s.och e p) ∧
        (rows ≠ [] → ∃ f, (u.och e p).frames = (s.och e p).frames ++ [f] ∧ f.opc = 4 ∧ f.part = p ∧ f.table = table ∧
          f.tag = t ∧ f.count = rows.length ∧ f.token = 2 ^ 63 + t ∧ f.step = s.curStep p ∧ f.rsvdZero = true)) ∧
      u = { s with parts := u.parts, ochre := u.ochre, mem := u.mem, history := u.history } ∧
      ∀ q, q ≠ p → u.part q = s.part q

/-- R180, R188: an Index Unit finishes the oldest of the sorts and reductions it has begun, whose task is then done. -/
def Sys2Proof.Claims.IndexUnitFinishesOldest : Prop :=
  ∀ (s : State) (p unit t : Nat) (pl : Plan), s.plan p = some pl → t < 2 ^ 24 →
    (s.part p).started.find? (fun t => !(s.part p).done.contains t && pl.tasks.any fun k =>
      k.id = t && (k.kind = 4 || k.kind = 5) && pl.ixUnit k.table = unit) = some t →
    ∃ u, exec (.indexUnitComplete p unit) s = .next u ∧ (u.part p).done = (s.part p).done ++ [t] ∧
      (u.part p).windows = (s.part p).windows.filter (fun w => w.task ≠ t) ∧ u = { s with parts := u.parts } ∧
      ∀ q, q ≠ p → u.part q = s.part q

/-- An Index Unit sorts, deduplicates and finishes in order: `Claims.IndexSortIsUniqueAndRising`;
`Claims.IndexUnitFinishesOldest`. -/
def Obligations.IndexUnits : Prop :=
  Claims.IndexSortIsUniqueAndRising ∧ Claims.IndexUnitFinishesOldest

/-- Segment reduction sums gradients by key; a sparse update goes to the home engines: `Claims.SegmentsSumByKey`;
`Claims.SparseUpdateIssues`. -/
def Obligations.SegmentsAndUpdates : Prop :=
  Claims.SegmentsSumByKey ∧ Claims.SparseUpdateIssues

/-- A gather forms its nodes; prefetch stages the next step's rows: `Claims.GatherFormsNodes`; `Claims.PrefetchStages`. -/
def Obligations.GatherAndPrefetch : Prop :=
  Claims.GatherFormsNodes ∧ Claims.PrefetchStages

/-! ## Ochre engines (R213 to R217, R307 to R310) -/

/-- The engine takes frames, the units it reaches have slots of the frame's partition (R218), the queue of the partition is not
frozen and has no frame waiting, and the frame is well formed for its opcode: the command starts at once (R213, R216). -/
abbrev Sys2Proof.Starts (s : State) (e : Nat) (f : Frame) (opc : Nat) : Prop :=
  f.part < 8 ∧ s.ochOn e = true ∧ s.ochSlots e f.part = true ∧ (s.och e f.part).frozen = false ∧ (s.och e f.part).frames = [] ∧ f.opc = opc ∧ f.rsvdZero = true

/-- `n` bytes from `x` lie outside the `z` bytes from `a`. -/
abbrev Sys2Proof.Apart (a z x n : Nat) : Prop := x + n ≤ a ∨ a + z ≤ x

/-- What the queue then owes: a completion record with this status and count, and the token of a command that is done or
met an error. Other queues are as before. -/
def Sys2Proof.Owes (s u : State) (e : Nat) (f : Frame) (status done : Nat) : Prop :=
  (u.och e f.part).started = (s.och e f.part).started ++
    [{ tag := f.tag, token := if status = 0 ∨ status = 3 then f.token else 0, status := status, done := done,
       fence := f.opc = 8 }] ∧
  ∀ e' q, e' * 8 + q ≠ e * 8 + f.part → u.och e' q = s.och e' q

/-- R215: `CFG` takes a table's context from the descriptor at `OPA` and the entry after it; `FENCE` only owes its record;
`RELEASE` discards the records of the step from the undo journal. None writes memory.
The layout of the operand of `CFG` is read from R214 (assumption 43). -/
def Sys2Proof.Claims.OchreCfgFenceRelease : Prop :=
  ∀ (s : State) (e : Nat) (f : Frame),
    (Starts s e f 1 → s.tableKnown f.part f.table = true → s.firstBad f.part false 3 f.opa 128 = none →
      ∃ u, exec (.cfg e f) s = .next u ∧ Owes s u e f 0 f.count ∧
        (u.och e f.part).ctx.find? (·.1 = f.table) = some (f.table, readTable (s.rd f.opa 64) 0,
          readHyp (List.replicate 64 0 ++ s.rd (f.opa + 64) 64) 0) ∧
        (u.och e f.part).journal = (s.och e f.part).journal ∧ u = { s with ochre := u.ochre }) ∧
    (Starts s e f 8 → ∃ u, exec (.fence e f) s = .next u ∧ Owes s u e f 0 0 ∧
      (u.och e f.part).journal = (s.och e f.part).journal ∧ u = { s with ochre := u.ochre }) ∧
    (Starts s e f 7 → ∃ u, exec (.release e f) s = .next u ∧
      (u.och e f.part).journal = (s.och e f.part).journal.filter (fun j => j.step ≠ f.step % 2 ^ 32) ∧
      Owes s u e f 0 ((s.och e f.part).journal.filter fun j => j.step = f.step % 2 ^ 32).length ∧
      u = { s with ochre := u.ochre })

/-- R215: `COPY` moves `COUNT` sectors in ascending order, `GATHER` one row's sectors after another from the listed slots, a
row that the step before has journaled from its saved slot (R310), and `POOL` a bag's rows into one vector of the table's
pooling, for max pooling with its position tags behind it. Nothing else of memory changes. -/
def Sys2Proof.Claims.OchreMovesRows : Prop :=
  ∀ (s : State) (e : Nat) (f : Frame),
    (Starts s e f 5 → (f.opa + 32 * f.count ≤ f.opb ∨ f.opb + 32 * f.count ≤ f.opa) →
      (∀ i, i < f.count → s.ownsRange f.part (f.opa + 32 * i) 32 false = true ∧
        s.ownsRange f.part (f.opb + 32 * i) 32 true = true) →
      ∃ u, exec (.copy e f []) s = .next u ∧ Owes s u e f 0 f.count ∧
        u.rd f.opb (32 * f.count) = s.rd f.opa (32 * f.count) ∧
        (∀ a, ¬ (f.opb ≤ a ∧ a < f.opb + 32 * f.count) → u.rd8 a = s.rd8 a) ∧
        u = { s with ochre := u.ochre, mem := u.mem, history := u.history }) ∧
    (∀ (d : TableDesc) (h : HypEnt), Starts s e f 2 → s.ochCtx e f.part f.table = some (d, h) →
      let k := 32 * gatherSectors d
      (f.opa + 16 * f.count ≤ f.opb ∨ f.opb + k * f.count ≤ f.opa) →
      (∀ i, i < f.count → (s.entSlot f i + k ≤ f.opb ∨ f.opb + k * f.count ≤ s.entSlot f i) ∧
        s.ownsRange f.part (f.opa + 16 * i) 16 false = true ∧ s.ownsRange f.part (s.entSlot f i) k false = true ∧
        s.ownsRange f.part (f.opb + k * i) k true = true) →
      (∀ j ∈ (s.och e f.part).journal, k ≤ j.slotBytes.length) →
      ∃ u, exec (.gather e f []) s = .next u ∧ Owes s u e f 0 f.count ∧
        (∀ i, i < f.count → u.rd (f.opb + k * i) k = s.ochSlot e f (s.entSlot f i) k) ∧
        (∀ a, ¬ (f.opb ≤ a ∧ a < f.opb + k * f.count) → u.rd8 a = s.rd8 a) ∧
        u = { s with ochre := u.ochre, mem := u.mem, history := u.history }) ∧
    (∀ (d : TableDesc) (h : HypEnt), Starts s e f 3 → s.ochCtx e f.part f.table = some (d, h) → 0 < f.count →
      let n := gatherBytes d.fmt d.elems
      let tag (i : Nat) : Nat := s.rdN (f.opa + 16 * i + 12) 4
      let rows := (List.range f.count).map fun i => (tag i % 2 ^ 16, BitVec.ofNat 32 (s.rdN (f.opa + 16 * i + 8) 4),
        lookupVals d.fmt d.elems (s.ochSlot e f (s.entSlot f i) n))
      let v := shardPartial d.pool d.elems rows
      let bytes := (v.1.map fun w => leBytes 4 w.toNat).flatten ++ (v.2.map (leBytes 2)).flatten
      (∀ i, i < f.count - 1 → tag i < 2 ^ 31) →
      (∀ i, i < f.count → s.ownsRange f.part (f.opa + 16 * i) 16 false = true ∧
        s.ownsRange f.part (s.entSlot f i) n false = true) →
      s.ownsRange f.part f.opb (d.elems * (if d.pool = 3 then 6 else 4)) true = true →
      ∃ u, exec (.pool e f []) s = .next u ∧ Owes s u e f 0 f.count ∧ u.rd f.opb bytes.length = bytes ∧
        (∀ a, ¬ (f.opb ≤ a ∧ a < f.opb + bytes.length) → u.rd8 a = s.rd8 a) ∧
        u = { s with ochre := u.ochre, mem := u.mem, history := u.history })

/-- R307, R297: an `UPDATE` of a row first appends its undo record, with the slot and the state as they were, and then
stores the row by the table's rule. R308: `RESTORE` writes the records of the step back, the newest first, so that the
oldest stands, and removes them.
What a full journal does is read from R307 (assumption 42). -/
def Sys2Proof.Claims.OchreUpdatesAndRestores : Prop :=
  (∀ (s : State) (e : Nat) (f : Frame) (d : TableDesc) (h : HypEnt) (r k : Nat) (sp : Bool), Starts s e f 4 → f.count = 1 →
    s.ochCtx e f.part f.table = some (d, h) → s.rowOfSlot f.part f.table d (s.entSlot f 0) = some (r, k) →
    (k ≠ defaultKey ∨ d.defTrain = true) → s.jnlPlace e f.part (State.jnlSectorsOf d) = some sp →
    let slot := s.entSlot f 0
    let state := s.rdN (f.opa + 8) 6
    let (sa, sn) := State.stateAt d state
    let a := region f.part (if sp then .spill e else .journal e) + 32 * s.jnlUsed e f.part sp
    let z := 32 * (2 + slotSectors d.fmt d.elems + sn / 32)
    s.ownsRange f.part f.opa 16 false = true → s.ownsRange f.part f.opb (4 * d.elems) false = true →
    s.ownsRange f.part slot d.slotBytes true = true → s.ownsRange f.part sa sn true = true →
    Apart a z slot d.slotBytes → Apart a z sa sn → Apart a z f.opb (4 * d.elems) → sa ≤ state →
    state + 4 * (s.rowState d state).length ≤ sa + sn → (sa + sn ≤ slot ∨ slot + d.slotBytes ≤ sa) →
    let t := s.tableSt f.part f.table r
    let gs := (List.range d.elems).map fun i => BitVec.ofNat 32 (s.rdN (f.opb + 4 * i) 4)
    let v := rowRule d.rule (updCtx d.rule h t.count (t.p1, t.p2)) gs (updateVals d.fmt d.elems (s.rd slot d.slotBytes))
      (s.rowState d state)
    let o := storeRow d (rowMode d.sr (((s.plan f.part).map fun (pl : Plan) => pl.seed.toNat).getD 0) f.step f.table k d.elems) v.1
    v.2.length = (s.rowState d state).length →
    ∃ u j, exec (.update e f []) s = .next u ∧ Owes s u e f 0 1 ∧ (u.och e f.part).journal = (s.och e f.part).journal ++ [j] ∧
      j.slot = slot ∧ j.slotBytes = s.rd slot d.slotBytes ∧ j.state = sa ∧ j.stateBytes = s.rd sa sn ∧
      j.table = f.table ∧ j.step = f.step % 2 ^ 32 ∧ j.spilled = sp ∧ u.rd slot o.1.length = o.1 ∧
      u.host = s.host ∧ u.regs = s.regs ∧ u.tiles = s.tiles) ∧
  (∀ (s : State) (e : Nat) (f : Frame), Starts s e f 6 →
    let mine := (s.och e f.part).journal.filter fun j => j.step = f.step % 2 ^ 32
    ∃ u, exec (.restore e f) s = .next u ∧ Owes s u e f 0 mine.length ∧
      (u.och e f.part).journal = (s.och e f.part).journal.filter (fun j => j.step ≠ f.step % 2 ^ 32) ∧
      (∀ j rest, mine = j :: rest → u.rd j.state j.stateBytes.length = j.stateBytes ∧
        ((j.slot + j.slotBytes.length ≤ j.state ∨ j.state + j.stateBytes.length ≤ j.slot) →
          u.rd j.slot j.slotBytes.length = j.slotBytes)) ∧
      (∀ a, (∀ j ∈ mine, ¬ (j.slot ≤ a ∧ a < j.slot + j.slotBytes.length) ∧
        ¬ (j.state ≤ a ∧ a < j.state + j.stateBytes.length)) → u.rd8 a = s.rd8 a) ∧
      u = { s with ochre := u.ochre, mem := u.mem, history := u.history })

/-- R213, R216: a started command completes with its record and its token, a `FENCE` once it is the oldest; a read of the
engine aperture takes the oldest record, or 16 bytes of 0xFF. With the last `COPY` of OCH-U the rows staged anew are there
(R16). A frame for a queue with others waiting joins them, and one without
slots of its partition waits; an engine whose extension is off takes none; one of a
wrong opcode or with a reserved byte owes status 1; a `COPY` outside the allocation owes status 2 and freezes the queue.
The statuses of refused commands are read from R213 to R217 (assumption 42). -/
def Sys2Proof.Claims.OchreQueues : Prop :=
  (∀ (s : State) (e q tag : Nat) (r : Run), (s.och e q).started.find? (·.tag = tag) = some r →
    (r.fence = false ∨ (s.och e q).started.head? = some r) → (s.part q).restoring = false →
    ∃ u, exec (.ochreCommandComplete e q tag) s = .next u ∧ (u.och e q).started = (s.och e q).started.erase r ∧
      (u.och e q).records = (s.och e q).records ++ [(r.tag, r.status, r.done)] ∧
      (r.token = 0 → (∀ x ∈ (s.part q).tables, x.2.restaging = []) →
        u = { s with ochre := u.ochre, parts := u.parts } ∧ ∀ q', u.part q' = s.part q') ∧
      (e = 8 → (s.och 8 q).started = [r] → (s.och 8 q).frames = [] → r.token = 2 ^ 63 + State.plannerTask →
        ∀ x ∈ (u.part q).tables, x.2.restaging = []) ∧
      (∀ t, r.token = 2 ^ 63 + t → t < 2 ^ 24 → q < 8 →
        (∀ e', e' < 9 → e' ≠ e → (s.och e' q).frames = [] ∧ (s.och e' q).started = []) → (s.och e q).frames = [] →
        (s.och e q).started = [r] → (u.part q).done.contains t = true) ∧
      MemSame s u ∧ u.regs = s.regs) ∧
  (∀ (s : State) (e q : Nat),
    ((s.och e q).records = [] →
      exec (.completionRecordRead e q) s = .next (s.emit (.record e q (List.replicate 16 0xFF)))) ∧
    (∀ (r : Nat × Nat × Nat) (rest : List (Nat × Nat × Nat)), (s.och e q).records = r :: rest →
      ∃ u, exec (.completionRecordRead e q) s = .next u ∧ (u.och e q).records = rest ∧
        u.out = .record e q (State.recordBytes r) :: s.out ∧ (u.och e q).started = (s.och e q).started ∧
        u = { s with ochre := u.ochre, out := u.out })) ∧
  (∀ (s : State) (e : Nat) (f g : Frame) (rest : List Frame) (c : Instr), c ∈ [.cfg e f, .gather e f [], .pool e f [],
      .update e f [], .copy e f [], .restore e f, .release e f, .fence e f] → f.part < 8 →
    s.ochOn e = true → (s.och e f.part).frozen = false → (s.och e f.part).frames = g :: rest → (g :: rest).contains f = false →
    (g :: rest).length < 256 →
    ∃ u, exec c s = .next u ∧ u.och e f.part = { s.och e f.part with frames := g :: rest ++ [f] } ∧
      u = { s with ochre := u.ochre }) ∧
  (∀ (s : State) (e : Nat) (f : Frame) (c : Instr) (opc : Nat), (c, opc) ∈ [(Instr.cfg e f, 1), (.gather e f [], 2),
      (.pool e f [], 3), (.update e f [], 4), (.copy e f [], 5), (.restore e f, 6), (.release e f, 7), (.fence e f, 8)] →
    f.part < 8 → s.ochOn e = true → (s.och e f.part).frozen = false → (s.och e f.part).frames = [] →
    (f.opc ≠ opc ∨ f.rsvdZero = false) → s.ochSlots e f.part = true →
    (s.part f.part).active = false →
    ∃ u, exec c s = .next u ∧ Owes s u e f 1 0 ∧ MemSame s u ∧ (u.och e f.part).frozen = false) ∧
  (∀ (s : State) (e : Nat) (f : Frame) (c : Instr), c ∈ [.cfg e f, .gather e f [], .pool e f [], .update e f [],
      .copy e f [], .restore e f, .release e f, .fence e f] → f.part < 8 →
    (s.ochOn e = false → exec c s = .next s) ∧
    (s.ochOn e = true → (s.och e f.part).frozen = false → (s.och e f.part).frames = [] → s.ochSlots e f.part = false →
      exec c s = .next (s.setOch e f.part { s.och e f.part with frames := [f] }))) ∧
  (∀ (s : State) (e : Nat) (f : Frame), Starts s e f 5 → 0 < f.count → s.ownsRange f.part f.opa 32 false = false →
    ∃ u, exec (.copy e f []) s = .next u ∧ Owes s u e f 2 0 ∧ (u.och e f.part).frozen = true ∧ MemSame s u ∧
      ((s.part f.part).frzLog.length < 64 → ∃ z, (u.part f.part).frzLog = (s.part f.part).frzLog ++ [z] ∧ z.type = 4 ∧
        z.index = e ∧ z.write = false ∧ z.bn = s.bn))

/-- R214: the 64 bytes of a frame are read back as the frame, every field at every value of its width. -/
def Sys2Proof.Claims.OchreFramesReadBack : Prop :=
  ∀ f : Frame, f.opc < 2 ^ 8 → f.part < 2 ^ 8 → f.table < 2 ^ 16 → f.tag < 2 ^ 32 → f.opa < 2 ^ 48 → f.opb < 2 ^ 48 →
    f.count < 2 ^ 32 → f.token < 2 ^ 64 → f.step < 2 ^ 64 → f.rsvdZero = true →
    (State.frameBytes f).length = 64 ∧ State.readFrame (State.frameBytes f) = f

/-- CFG, FENCE, RELEASE, COPY, GATHER and POOL: `Claims.OchreCfgFenceRelease`; `Claims.OchreMovesRows`. -/
def Obligations.OchreCommands : Prop :=
  Claims.OchreCfgFenceRelease ∧ Claims.OchreMovesRows

/-- UPDATE and RESTORE with the undo journal; queues, completions and refusals: `Claims.OchreUpdatesAndRestores`;
`Claims.OchreQueues`. -/
def Obligations.OchreUpdatesAndQueues : Prop :=
  Claims.OchreUpdatesAndRestores ∧ Claims.OchreQueues

/-! ## Messages (R245 to R251) and collectives (R266 to R271) -/

/-- A message of one of a kind's classes comes by a port that carries flits, whole, to this module, for a partition and
not stale: it is handled (R246, R249). -/
abbrev Sys2Proof.Arrives (s : State) (c : TClass) (h : MsgHdr) (kind len : Nat) : Prop :=
  s.canArrive h = true ∧ h.dest = s.pos ∧ h.kind = kind ∧ State.kindOk c kind = true ∧ h.part < 8 ∧ len ≤ 65536 ∧
  (kind ≤ 3 → s.staleMsg c h = false)

/-- R248: a WRITE stores its payload at its address and then delivers its token: a task token ends the task, a tile token
counts one more. The plan checker is off (R53). Outside the partition's allocation nothing is stored and `REFUSED` counts it.
What a message must be to count as arrived is read from R246 and R249 (assumption 56). -/
def Sys2Proof.Claims.WriteMessageStores : Prop :=
  ∀ (s : State) (c : TClass) (h : MsgHdr) (b : List Byte), Arrives s c h 1 b.length →
    h.addr + b.length ≤ resultBase → (c = .carmine ∨ s.resilient h.part = false) →
    s.checkerOn h.part = false →
    ∃ u, exec (.writeMessage c h b) s = .next u ∧ u.host = s.host ∧ u.ident = s.ident ∧
      (s.ownsRange h.part h.addr b.length true = true →
        u.rd h.addr b.length = b ∧ (∀ a, ¬ (h.addr ≤ a ∧ a < h.addr + b.length) → u.rd8 a = s.rd8 a) ∧
        (∀ t, h.token = 2 ^ 63 + t → t < 2 ^ 24 → (u.part h.part).done.contains t = true ∧ u.tiles = s.tiles) ∧
        (∀ g k, h.token ≠ 0 → h.token < 2 ^ 63 → State.tokenOf h.token = some (g, k) →
          (s.test.saved.map (·.1)).contains g = false →
          mget 0 (u.tile g).toks k = mget 0 (s.tile g).toks k + 1 ∧
          (∀ j, j ≠ k → mget 0 (u.tile g).toks j = mget 0 (s.tile g).toks j) ∧ ∀ f, f ≠ g → u.tile f = s.tile f) ∧
        (h.token = 0 → u.tiles = s.tiles ∧ u.parts = s.parts) ∧ u.regs = s.regs) ∧
      (s.ownsRange h.part h.addr b.length true = false → (s.part h.part).active = false →
        MemSame s u ∧ u.tiles = s.tiles ∧
        u.getF F.FAB_STAT_REFUSED 0 = min (s.getF F.FAB_STAT_REFUSED 0 + 1) (2 ^ F.FAB_STAT_REFUSED.width - 1))

/-- R247: a ROW message adds its records to what the table's owner has of the requester, or the requester of its owners.
Gradients and winner vectors give the entry gradients of R187: none for an index of the default row unless it trains.
Partials are said for a plan that carries no lookup in a delta (R453).
Where gradients and winner vectors stand is read from R187 and R247 (assumption 39). -/
def Obligations.RowMessagesAdd : Prop :=
  ∀ (s : State) (c : TClass) (h : MsgHdr) (r : RowHdr) (d : TableDesc), s.tableDesc h.part r.table = some d → h.token = 0 →
    let o := s.ownerOf h
    let tag := mbTag h.step r.mb
    let x := s.fromRank h.part r.table o r.rank tag
    (∀ (ks : List Nat), Arrives s c h 3 (rowLen ks.length 8) → ∃ u, exec (.rowUniqueKeys c h r ks) s = .next u ∧
      u.fromRank h.part r.table o r.rank tag = { x with keys := x.keys ++ ks } ∧
      u = { s with parts := u.parts, ports := u.ports, out := u.out } ∧ ∀ q, q ≠ h.part → u.part q = s.part q) ∧
    (∀ (es : List BagEntry), Arrives s c h 3 (rowLen es.length 16) → ∃ u, exec (.rowBagEntries c h r es) s = .next u ∧
      u.fromRank h.part r.table o r.rank tag = { x with entries := x.entries ++ es } ∧
      u = { s with parts := u.parts, ports := u.ports, out := u.out } ∧ ∀ q, q ≠ h.part → u.part q = s.part q) ∧
    (∀ (gs : List GradRec), Arrives s c h 3 (16 + ((gs.map gradBytes).map List.length).foldl (· + ·) 0) →
      ∃ u, exec (.rowGradients c h r gs) s = .next u ∧
        u.fromRank h.part r.table o r.rank tag = { x with grads := x.grads ++ gs } ∧
        (∀ e ∈ x.entries, ∀ g, (x.grads ++ gs).find? (·.bag = e.bag) = some g → d.pool ≠ 3 →
          let key := x.keys.getD e.seg defaultKey
          (s.ownedShards h.part r.table d o).contains (d.shardOf key) = true → (key ≠ defaultKey ∨ d.defTrain = true) →
          ∃ y ∈ (u.tableSt h.part r.table o).entries, y.key = key ∧ y.rank = r.rank ∧ y.mb = tag ∧
            y.pos = e.bag * 65536 + e.pos ∧ y.vals = State.entryGrad d e g.vals []) ∧
        (d.defTrain = false → ∀ y ∈ (u.tableSt h.part r.table o).entries, y.rank = r.rank → y.mb = tag →
          y.key ≠ defaultKey) ∧
        u = { s with parts := u.parts, ports := u.ports, out := u.out } ∧ ∀ q, q ≠ h.part → u.part q = s.part q) ∧
    (∀ (ws : List WinRec), Arrives s c h 3 (16 + ((ws.map winBytes).map List.length).foldl (· + ·) 0) →
      ∃ u, exec (.rowWinnerVectors c h r ws) s = .next u ∧
        u.fromRank h.part r.table o r.rank tag = { x with winners := x.winners ++ ws } ∧
        (∀ e ∈ x.entries, ∀ g w, x.grads.find? (·.bag = e.bag) = some g →
          (x.winners ++ ws).find? (·.bag = e.bag) = some w → d.pool = 3 →
          let key := x.keys.getD e.seg defaultKey
          (s.ownedShards h.part r.table d o).contains (d.shardOf key) = true → (key ≠ defaultKey ∨ d.defTrain = true) →
          ∃ y ∈ (u.tableSt h.part r.table o).entries, y.key = key ∧ y.rank = r.rank ∧ y.mb = tag ∧
            y.pos = e.bag * 65536 + e.pos ∧
            y.vals = g.vals.zipIdx.map fun v => if w.pos.getD v.2 0xFFFF = e.pos then v.1 else 0) ∧
        u = { s with parts := u.parts, ports := u.ports, out := u.out } ∧ ∀ q, q ≠ h.part → u.part q = s.part q) ∧
    ((s.resilient h.part = false ∨ ((s.plan h.part).elim true fun pl => pl.tables.all (!·.stale)) = true) →
      ∀ (vs : List PartialRec), Arrives s c h 3 (16 + ((vs.map partialBytes).map List.length).foldl (· + ·) 0) →
      ∃ u, exec (.rowShardPartials c h r vs) s = .next u ∧
        (∀ v ∈ vs, (∃ n ∈ (u.tableSt h.part r.table r.rank).nodes, n.mb = tag ∧ n.bag = v.bag ∧ n.first = v.first ∧
            n.j = v.j ∧ n.vals = v.vals ∧ n.tags = v.tags) ∨
          ∃ y ∈ (u.tableSt h.part r.table r.rank).pooled, y.mb = tag ∧ y.bag = v.bag) ∧
        u.regs = s.regs ∧ u.tiles = s.tiles ∧ u.host = s.host ∧ ∀ q, q ≠ h.part → u.part q = s.part q)

/-- R246: the checker regenerates a TEST message: one that is the generator's counts as good, any other as bad. -/
def Sys2Proof.Claims.TestMessagesAreCounted : Prop :=
  ∀ (s : State) (c : TClass) (h : MsgHdr) (b : List Byte), Arrives s c h 5 b.length →
    ∃ u, exec (.testMessage c h b) s = .next u ∧
      (b = testPayload (leNat (b.take 8)) →
        u.getF F.TST_FCHK_GOOD 0 = min (s.getF F.TST_FCHK_GOOD 0 + 1) (2 ^ F.TST_FCHK_GOOD.width - 1) ∧
        u.getF F.TST_FCHK_BAD 0 = s.getF F.TST_FCHK_BAD 0) ∧
      (b ≠ testPayload (leNat (b.take 8)) →
        u.getF F.TST_FCHK_BAD 0 = min (s.getF F.TST_FCHK_BAD 0 + 1) (2 ^ F.TST_FCHK_BAD.width - 1) ∧
        u.getF F.TST_FCHK_GOOD 0 = s.getF F.TST_FCHK_GOOD 0) ∧
      u = { s with regs := u.regs, ports := u.ports, out := u.out } ∧
      ∀ o, o ≠ F.TST_FCHK_GOOD.base → u.word o = s.word o

/-- R268, R271: a reduce-scatter message for a rank whose own value is not there is kept; one that ends the only stage at
the owner of its shard leaves in `DST` the FP32 sum of what came, in that order, and the rank's own value. R267: a last
all-gather message is stored where its contribution belongs.
How a message names the rank it is for is read from R268 (assumption 57). -/
def Sys2Proof.Claims.CollectiveMessages : Prop :=
  ∀ (s : State) (c : TClass) (h : MsgHdr) (k : CollHdr) (data : List Byte) (cd : CollDesc),
    Arrives s c h 2 (16 + data.length) → h.token = 0 →
    let t := h.task % max 1 (s.part h.part).graph
    let x := s.collRun h.part t h.addr
    let i := (s.collStages cd).idxOf k.dim
    s.collDesc h.part t = some cd →
    (cd.op = 1 → x.started = false →
      ∃ u, exec (.collectiveMessage c h k data) s = .next u ∧
        u.collRun h.part t h.addr = { x with inbox := x.inbox ++ [(k, data)] } ∧
        u = { s with parts := u.parts, ports := u.ports, out := u.out }) ∧
    (cd.op = 1 → x.started = true → x.inbox = [] → s.collStages cd = [k.dim] → 4 ∣ data.length →
      s.placeOf h.addr k.dim = s.shardCoord cd k.shard k.dim →
      let own := s.rd (s.reduceAt h.part h.addr cd 0 k.shard k.dirn k.offset) data.length
      let to_ := s.dataAt h.part h.addr cd.dst + s.pieceAt cd k.dirn k.offset
      ∃ u, exec (.collectiveMessage c h k data) s = .next u ∧
        u.rd to_ data.length = bytes32 (((words32 data).zip (words32 own)).map fun v => fadd v.1 v.2) ∧
        (∀ a, ¬ (to_ ≤ a ∧ a < to_ + data.length) → u.rd8 a = s.rd8 a) ∧
        (u.collRun h.part t h.addr).held = x.held ++
          [{ dim := k.dim, shard := k.shard, dirn := k.dirn, offset := k.offset, len := data.length }] ∧
        u = { s with parts := u.parts, ports := u.ports, out := u.out, mem := u.mem, history := u.history }) ∧
    (cd.op = 2 → x.inbox = [] → s.ringSize k.dim ≤ k.pass + 1 → (s.collStages cd).drop (i + 1) = [] →
      let to_ := s.gatherAt h.part h.addr cd k.shard k.dirn k.offset
      ∃ u, exec (.collectiveMessage c h k data) s = .next u ∧ u.rd to_ data.length = data ∧
        (∀ a, ¬ (to_ ≤ a ∧ a < to_ + data.length) → u.rd8 a = s.rd8 a) ∧
        (u.collRun h.part t h.addr).held = x.held ++
          [{ dim := k.dim, shard := k.shard, dirn := k.dirn, offset := k.offset, len := data.length }] ∧
        u = { s with parts := u.parts, ports := u.ports, out := u.out, mem := u.mem, history := u.history })

/-- R266, R267: an all-gather over rings of one place leaves the contribution of the rank, read from `SRC`, in `DST`, and
its task is done. -/
def Sys2Proof.Claims.CollectiveOfOne : Prop :=
  ∀ (s : State) (p task r : Nat) (c : CollDesc), (s.part p).active = true → s.ranksHere p = [r] → r = s.homeRank p →
    task < (s.part p).graph → task < 2 ^ 24 → s.collDesc p task = some c → c.op = 2 → c.fmt = 0 → 4 ∣ c.len → 0 < c.len →
    s.collStages c = [] → s.collSize c = 1 → (s.collRun p task r).inbox = [] → (s.collRun p task r).fin = false →
    ∃ u, exec (.collective p task r) s = .next u ∧ u.rd c.dst c.len = s.rd c.src c.len ∧
      (∀ a, ¬ (c.dst ≤ a ∧ a < c.dst + c.len) → u.rd8 a = s.rd8 a) ∧ (u.collRun p task r).started = true ∧
      (u.part p).done.contains task = true ∧ u = { s with parts := u.parts, mem := u.mem, history := u.history } ∧
      ∀ q, q ≠ p → u.part q = s.part q

/-- WRITE messages store and deliver their token; TEST messages are counted: `Claims.WriteMessageStores`;
`Claims.TestMessagesAreCounted`. -/
def Obligations.WriteAndTestMessages : Prop :=
  Claims.WriteMessageStores ∧ Claims.TestMessagesAreCounted

/-- Collective messages reduce and gather by shard and ring: `Claims.CollectiveMessages`; `Claims.CollectiveOfOne`. -/
def Obligations.Collectives : Prop :=
  Claims.CollectiveMessages ∧ Claims.CollectiveOfOne

/-! ## Other tasks and windows of a step (R32, R43 to R51, R161, R245, R334, R377) -/

/-- R245, R273: a transfer of bytes to a rank hosted here stores them at their destination; one to another module leaves in
a WRITE message for it. Either is done once its last message has gone out. The plan checker is off (R53), the plan carries
no lookup in a delta (R453), and no other transfer waits for its messages.
That the i-th destination takes the i-th piece of the source, and that a message has arrived when it has gone out, are
the model's choice (assumptions 38, 99). -/
def Sys2Proof.Claims.TransferTaskSends : Prop :=
  ∀ (s : State) (p task n src dst : Nat) (pl : Plan) (t : Task) (d : HostEntry), s.plan p = some pl →
    s.taskOf p task = some t → task < 2 ^ 24 → s.stepMoves p = true → t.kind = 8 → (s.part p).done.contains task = false →
    s.tableDesc p t.table = none → 0 < n → n ≤ 65536 → s.checkerOn p = false → pl.tables.all (!·.stale) = true →
    (∀ q, q < 8 → (s.part q).sent = []) → s.allSent p task = true →
    let a := s.dataAt p (s.rankOfTask p t.id) src
    (s.hostOf p d.rank = s.pos → s.ownsRange p dst n true = true → dst + n ≤ resultBase →
      ∃ u, exec (.carmineTransfer p task [d] n src dst 0) s = .next u ∧ u.rd dst n = s.rd a n ∧
        (∀ b, ¬ (dst ≤ b ∧ b < dst + n) → u.rd8 b = s.rd8 b) ∧ (u.part p).done.contains task = true ∧
        u = { s with parts := u.parts, mem := u.mem, history := u.history }) ∧
    (∀ (v : Hop), s.hostOf p d.rank ≠ s.pos → s.nextHop s.pos (s.hostOf p d.rank) = some v →
      (s.port v.port).absent.contains v.leave = false →
      ∃ u h, exec (.carmineTransfer p task [d] n src dst 0) s = .next u ∧ Out.message .carmine h (s.rd a n) ∈ u.out ∧
        h.dest = s.hostOf p d.rank ∧ h.src = s.pos ∧ h.kind = 1 ∧ h.part = p ∧ h.addr = dst ∧ h.task = t.id ∧
        ((u.part p).done.contains task = true ∨ ((u.part p).sent.contains task = true ∧ u.allSent p task = false)) ∧
        MemSame s u ∧ u.regs = s.regs ∧ u.tiles = s.tiles)

/-- R377, R49: an ingest delivery gives each table's list of the micro-batch the bags of its admitted samples in ascending
sample; one that was not admitted gives empty lists and stores nothing. Then the task is done.
That the buffer is kept as samples is the model's choice (assumption 40). -/
def Sys2Proof.Claims.IngestDeliveryFillsLists : Prop :=
  ∀ (s : State) (p task mb : Nat) (pl : Plan) (t : Task), s.plan p = some pl → s.taskOf p task = some t → task < 2 ^ 24 →
    s.stepMoves p = true → t.kind = 0x0B → (s.part p).done.contains task = false →
    let r := s.rankOfTask p task
    let n := s.stepOfTask p t
    let ok := (s.part p).ends.any fun e => e.rank = r && e.step = n && e.mb = mb && e.status = some 0
    let all := ((s.part p).samples.filter fun v => ok && v.rank = r && v.step = n && v.mb = mb).mergeSort
      fun a b => a.sample ≤ b.sample
    ∃ u, exec (.ingestDelivery p task mb) s = .next u ∧ (u.part p).done.contains task = true ∧
      (∀ tb, tb < pl.tables.length → tb < 4096 →
        mget [] (u.tableSt p tb r).lists (mbTag n mb) = (all.map fun v => mget [] v.bags tb).flatten) ∧
      (ok = false → MemSame s u) ∧ u.regs = s.regs ∧ u.tiles = s.tiles ∧ u.host = s.host

/-- R161: the compare of a working copy changes nothing where the copy is the re-derived block; one that differs in a block
of the period's turn is a module fault of cause 4, which rolls the step back.
The cause is read from R161 and R323 (assumption 46). -/
def Sys2Proof.Claims.WorkingCopyCompare : Prop :=
  (∀ (s : State) (p i b m c f : Nat), s.copyEqual m c f = true →
    exec (.workingCopyCompare p i b m c f) s = .next s) ∧
  (∀ (s : State) (p i b m c f : Nat) (pl : Plan), p < 8 → s.plan p = some pl → s.stepMoves p = true →
    pl.params.cmpPeriod ≠ 0 → b % pl.params.cmpPeriod = s.curStep p % pl.params.cmpPeriod →
    (pl.params.tensors[i]?).any (·.kind = 1) = true → s.copyEqual m c f = false → (s.part p).okSent = false →
    ∃ u, exec (.workingCopyCompare p i b m c f) s = .next u ∧ (u.part p).rollbacks = (s.part p).rollbacks + 1 ∧
      u.getF F.PLN_ROLL_INFO_CAUSE p = 4 ∧ u.getF F.PLN_ROLL_BN_BN p = s.bn ∧ MemSame s u ∧ u.host = s.host)

/-- R334: calibration of a layer keeps the norms of its update and of its masters, from every rank's partial sums of squares
in ascending rank, and their quotient.
Where the partials of other ranks come from is the model's choice (assumption 64). -/
def Sys2Proof.Claims.CalibrationNorms : Prop :=
  ∀ (s : State) (p layer : Nat) (us ws : List W32) (pl : Plan), s.plan p = some pl → s.stepMoves p = true →
    natBits pl.options 3 3 = 1 → State.layerTensors pl layer ≠ [] →
    (pl.params.layers[layer]?).any (fun l => natBits l.flags 0 0 = 0) = true →
    let parts := (List.range pl.rankCount).map fun r =>
      if (s.ranksHere p).contains r then s.calPartials p r pl layer else (us.getD r 0, ws.getD r 0)
    let un := fsqrt (parts.foldl (fun a v => fadd a v.1) 0)
    let wn := fsqrt (parts.foldl (fun a v => fadd a v.2) 0)
    ∃ u, exec (.calibrationTask p layer us ws) s = .next u ∧
      (u.part p).calAttempt.filter (·.1 = layer) = [(layer, (un, wn, fdiv un wn))] ∧
      (u.part p).calAttempt.filter (·.1 ≠ layer) = (s.part p).calAttempt.filter (·.1 ≠ layer) ∧
      u = { s with parts := u.parts } ∧ ∀ q, q ≠ p → u.part q = s.part q

/-- R43: the opening of a data-dependent window keeps its last position and starts its task; a need above the window's beats
raises a demand of the excess, which lands `HOLD_LEAD` beats on (R45). R46: an entry that lands adds its length to the
pending hold beats, charged to its cause. R47: `HOLD_TOTAL` at the limit, 0 meaning 65,535, is a module fault of cause 3. -/
def Sys2Proof.Claims.WindowsAndHolds : Prop :=
  (∀ (s : State) (p task : Nat) (need : List Nat) (pl : Plan) (t : Task) (q : Placed), p < 8 → s.plan p = some pl →
    s.taskOf p task = some t → s.placedTask p task = some q → s.stepMoves p = true → q.start ≤ s.getF F.PLN_SPOS_POS p →
    (s.part p).windows.any (·.task = task) = false → (s.part p).done.contains task = false →
    ∃ u, exec (.windowOpen p task need) s = .next u ∧ (u.part p).started.contains task = true ∧
      (u.part p).windows = (s.part p).windows ++ [{ task := task, last := q.start + q.dur - 1 }] ∧
      (s.needOf p pl t need ≤ q.dur → u = { s with parts := u.parts }) ∧
      (q.dur < s.needOf p pl t need → (s.part p).landedBn ≤ s.bn → s.entryAt p (s.bn + s.holdLead) = none →
        u.entryAt p (s.bn + s.holdLead) = some
          { land := s.bn + s.holdLead, demand := min (s.needOf p pl t need - q.dur) 65535, overrun := false, cause := 0,
            part := p, origin := s.pos, task := task })) ∧
  (∀ (s : State) (p land : Nat) (e : HoldEntry), (s.part p).merged = [e] → e.land = land → (s.part p).landedBn < land →
    land ≤ s.bn + 1 → 0 < State.entryLen e →
    ∃ u, exec (.holdLanding p land) s = .next u ∧ (u.part p).landedBn = land ∧
      (u.part p).charges = (s.part p).charges ++
        [{ beats := e.demand + (if e.overrun then 1 else 0), cause := e.cause, task := e.task, origin := e.origin }] ∧
      u = { s with parts := u.parts } ∧ ∀ q, q ≠ p → u.part q = s.part q) ∧
  (∀ (s : State) (p : Nat), p < 8 → s.stepMoves p = true → (s.part p).okSent = false →
    (if s.getF F.PLN_CTRL_HOLD_LIMIT p = 0 then 65535 else s.getF F.PLN_CTRL_HOLD_LIMIT p) ≤
      s.getF F.PLN_SPOS_HOLD_TOTAL p →
    ∃ u, exec (.holdLimitReached p) s = .next u ∧ (u.part p).rollbacks = (s.part p).rollbacks + 1 ∧
      u.getF F.PLN_ROLL_INFO_CAUSE p = 3 ∧ u.getF F.PLN_ROLL_BN_BN p = s.bn ∧ MemSame s u ∧ u.host = s.host)

/-- R233, R234, R255, R256: a HOLD flit out of sequence is discarded and answered with a NAK. In sequence, an entry of a
landing not yet known is kept and passed on, in a HOLD flit of every port that is Up and may send one; one that says no more
than what is known changes nothing but the port's count; one of an earlier landing than the coming beat's is too late:
`LATEHOLD` counts it (R257). R55: a 1 written to `PLN_HOLD_POP` removes the oldest entry of the hold log. -/
def Sys2Proof.Claims.HoldFlitsMerge : Prop :=
  (∀ (s : State) (k seq : Nat) (e : HoldEntry), k < 6 → s.portUp k = true → e.part < 8 → seq % 4096 = (s.port k).rxNext →
    let e' := { e with land := s.fullBn e.land }
    max s.bn (s.part e.part).landedBn < e'.land →
    (s.entryAt e.part e'.land = none →
      ∃ u, exec (.holdFlit k ⟨seq, [e]⟩) s = .next u ∧ u.entryAt e.part e'.land = some e' ∧
        (∀ l, l ≠ e'.land → u.entryAt e.part l = s.entryAt e.part l) ∧ (∀ q, q ≠ e.part → u.part q = s.part q) ∧
        (u.port k).rxNext = (seq + 1) % 4096 ∧
        (∀ j, j < 6 → s.portUp j = true → (s.port j).sealDue = false → (s.port j).holdq = [] →
          (s.port j).retry.length < 3072 →
          let b := holdBody [{ e' with land := e'.land % 2 ^ 32 }]
          ∃ f ∈ flitsOut u j, f.type = 7 ∧ f.seq = (s.port j).txNext ∧
            f.body = ((s.txKey j).elim (fillBody b) fun key => sealBody key (s.port j).groupTx (s.port j).group.length b)) ∧
        u = { s with parts := u.parts, ports := u.ports, out := u.out }) ∧
    (∀ o, s.entryAt e.part e'.land = some o → State.mergeEntry o e' = o →
      exec (.holdFlit k ⟨seq, [e]⟩) s = .next (s.received k 1))) ∧
  (∀ (s : State) (k seq : Nat) (es : List HoldEntry), k < 6 → s.portUp k = true → seq % 4096 ≠ (s.port k).rxNext →
    ∃ u, exec (.holdFlit k ⟨seq, es⟩) s = .next u ∧ (u.port k).rxNext = (s.port k).rxNext ∧ (u.port k).nakSent = true ∧
      ((s.port k).nakSent = false → ∃ f ∈ flitsOut u k, f.ack = (s.port k).rxNext ∧ f.ak = 2) ∧
      u = { s with ports := u.ports, out := u.out }) ∧
  (∀ (s : State) (k seq : Nat) (e : HoldEntry), s.portUp k = true → e.part < 8 → (s.part e.part).active = false →
    seq % 4096 = (s.port k).rxNext → s.fullBn e.land ≤ s.bn → s.entryAt e.part (s.fullBn e.land) = none →
    ∃ u, exec (.holdFlit k ⟨seq, [e]⟩) s = .next u ∧ u.parts = s.parts ∧
      u.getF F.FAB_STAT_LATEHOLD 0 = min (s.getF F.FAB_STAT_LATEHOLD 0 + 1) (2 ^ F.FAB_STAT_LATEHOLD.width - 1)) ∧
  (∀ (s : State) (f : Func) (p : Nat) (v : Word), p < 8 → Open s f (F.PLN_HOLD_POP_POP.off p) → getBits v 0 0 = 1 →
    ∃ u, exec (.plnHoldPop f p v) s = .next u ∧ (u.part p).holdLog = (s.part p).holdLog.drop 1 ∧
      u = { s with parts := u.parts } ∧ ∀ q, q ≠ p → u.part q = s.part q)

/-- R51: at a slot boundary the finishing positions join the last eight slots'; while the latest cluster is behind the
earliest by at least the threshold on average, one of its shares of the rebalanceable tasks moves there, and otherwise none is moved. -/
def Sys2Proof.Claims.BalanceMovesOneShare : Prop :=
  ∀ (s : State) (p : Nat) (fin : List Nat) (pl : Plan), s.plan p = some pl → s.stepMoves p = true →
    s.balancing p = true → 0 < pl.clusters → pl.clusters ≤ 32 →
    ∃ u, exec (.balanceDecision p fin) s = .next u ∧ (u.part p).slotFinish.length ≤ 8 ∧
      (u.part p).slotFinish.getLast? = some fin ∧ (u.part p).moves.length ≤ 1 ∧
      u = { s with parts := u.parts } ∧ (∀ q, q ≠ p → u.part q = s.part q) ∧
      (∀ late early, late < pl.clusters → early < pl.clusters → late ≠ early →
        (∀ j, j < pl.clusters → j ≠ late → State.finishSum (u.part p) j < State.finishSum (u.part p) late) →
        (∀ j, j < pl.clusters → j ≠ early → State.finishSum (u.part p) early < State.finishSum (u.part p) j) →
        (pl.tasks.any (fun t => natBits t.flags 0 0 = 1) = true → (u.part p).slotFinish.length * (s.part p).balThresh ≤
            State.finishSum (u.part p) late - State.finishSum (u.part p) early →
          (u.part p).moves = [(late, s.planCluster p early)]) ∧
        (pl.tasks.any (fun t => natBits t.flags 0 0 = 1) = false ∨ State.finishSum (u.part p) late -
            State.finishSum (u.part p) early < (u.part p).slotFinish.length * (s.part p).balThresh →
          (u.part p).moves = []))

/-- Transfers reach their destinations; ingest delivery fills the lists: `Claims.TransferTaskSends`;
`Claims.IngestDeliveryFillsLists`. -/
def Obligations.TransfersAndIngest : Prop :=
  Claims.TransferTaskSends ∧ Claims.IngestDeliveryFillsLists

/-- The compare of working copies and the calibration record: `Claims.WorkingCopyCompare`; `Claims.CalibrationNorms`. -/
def Obligations.CompareAndCalibrate : Prop :=
  Claims.WorkingCopyCompare ∧ Claims.CalibrationNorms

/-- Windows, hold requests and landings; balancing moves one share: `Claims.WindowsAndHolds`; `Claims.HoldFlitsMerge`;
`Claims.BalanceMovesOneShare`. -/
def Obligations.HoldsAndBalance : Prop :=
  Claims.WindowsAndHolds ∧ Claims.HoldFlitsMerge ∧ Claims.BalanceMovesOneShare

/-! ## Placement and replacement (R191 to R194, R198, R199) -/

/-- R192: at the commit beat that ends a placement period the rank at home queues its swaps and every load counter of its
pages returns to 0; with only the tier rule enabled each new swap exchanges an Umber page with an HBM page of less than
half its load; with neither rule none is queued. -/
def Sys2Proof.Claims.PlacementPeriod : Prop :=
  ∀ (s : State) (p r : Nat) (pl : Plan), p < 8 → s.plan p = some pl → (s.part p).active = true →
    (s.part p).committed = true → s.curStep p ≠ 0 → s.curStep p % max 1 (s.getF F.ROW_PLACE_CFG_PERIOD p) = 0 →
    s.ranksHere p = [r] → s.hostOf p r = s.homePos p r → pl.tables.length ≤ 4096 →
    ∃ u, exec (.placementPeriod p) s = .next u ∧
      (∀ t d, t < pl.tables.length → s.tableDesc p t = some d → ∀ x ∈ u.allPages p t d r, x.count = 0) ∧
      (s.part p).swaps <+: (u.part p).swaps ∧
      u.getF F.ROW_PLACE_STATUS_QUEUED p = (u.part p).swaps.length % 2 ^ 32 ∧
      (s.flag F.ROW_PLACE_CFG_TIER_EN p = false → s.flag F.ROW_PLACE_CFG_STACK_EN p = false →
        (u.part p).swaps = (s.part p).swaps) ∧
      (s.flag F.ROW_PLACE_CFG_STACK_EN p = false → ∀ w ∈ (u.part p).swaps.drop (s.part p).swaps.length,
        w.done = 0 ∧ w.rank = r ∧ w.since = s.curStep p ∧ ∃ d x y, s.tableDesc p w.table = some d ∧
          x ∈ s.allPages p w.table d r ∧ y ∈ s.allPages p w.table d r ∧ w.a = (x.shard, x.page) ∧
          w.b = (y.shard, y.page) ∧ x.home = 8 ∧ y.home < 8 ∧ 2 * y.count < x.count) ∧
      u = { s with regs := u.regs, parts := u.parts, out := u.out } ∧ (∀ q, q ≠ p → u.part q = s.part q) ∧
      ∀ o, o ≠ F.ROW_PLACE_STATUS_QUEUED.off p → u.word o = s.word o

/-- R193: after the step's sparse updates a page copy of the oldest incomplete swap moves the first page whole to its new
place, as many copies a step as `MIG_PAGES` allows; at that limit none is made. -/
def Sys2Proof.Claims.PageCopies : Prop :=
  ∀ (s : State) (p : Nat), s.copiesMayRun p = true → (∀ x ∈ (s.part p).tables, x.2.move = none) →
    (s.getF F.ROW_PLACE_CFG_MIG_PAGES p ≤ (s.part p).copies → exec (.pageCopy p) s = .next s) ∧
    (∀ (w : Swap) (d : TableDesc), (s.part p).copies + 1 = s.getF F.ROW_PLACE_CFG_MIG_PAGES p →
      (s.part p).swaps.find? (·.done < 2) = some w → w.done = 0 → s.tableDesc p w.table = some d →
      let x := s.pageRec p w.table d w.rank w.a.1 w.a.2
      let y := s.pageRec p w.table d w.rank w.b.1 w.b.2
      let a := State.newBase p w.table y.home x.shard x.page w.since
      ∃ u, exec (.pageCopy p) s = .next u ∧ u.rd a d.pageBytes = s.rd x.base d.pageBytes ∧
        (∀ b, ¬ (a ≤ b ∧ b < a + d.pageBytes) → u.rd8 b = s.rd8 b) ∧ (u.part p).copies = (s.part p).copies + 1 ∧
        (u.part p).swaps = (s.part p).swaps.map (fun v => if v = w then { v with done := 1, now := v.now + 1 } else v) ∧
        u = { s with parts := u.parts, mem := u.mem, history := u.history } ∧ ∀ q, q ≠ p → u.part q = s.part q)

/-- Sum of a rank's shard loads. -/
def Sys2Proof.loadSum (loads : List ShardLoad) (r : Nat) : Nat := ((loads.filter (·.rank = r)).map (·.load)).foldl (· + ·) 0

/-- R194: with the ranks' load sums known, a gap between the highest and the lowest rank above the margin moves the most
loaded shard whose move does not turn the gap round, to the lowest rank; else none moves. -/
def Sys2Proof.Claims.ShardMoves : Prop :=
  ∀ (s : State) (p t : Nat) (d : TableDesc) (loads : List ShardLoad) (hi lo : Nat), s.tableDesc p t = some d →
    s.flag F.ROW_PLACE_CFG_SHARD_EN p = true → (s.part p).active = true →
    (s.part p).hosts.all (fun x => x.2 = s.homePos p x.1) = true → (s.tableSt p t (s.homeRank p)).move = none →
    let total := (loads.map (·.load)).foldl (· + ·) 0
    let gap := loadSum loads hi - loadSum loads lo
    let fit := loads.filter fun c => c.rank = hi && 2 * c.load ≤ gap
    hi < s.planRanks p → lo < s.planRanks p → (∀ r, r < s.planRanks p → loadSum loads r ≤ loadSum loads hi ∧ loadSum loads lo ≤ loadSum loads r) →
    (∀ r, r < hi → loadSum loads r < loadSum loads hi) → (∀ r, r < lo → loadSum loads lo < loadSum loads r) →
    ((s.planRanks p * 256 * gap ≤ s.getF F.ROW_PLACE_CFG_SHARD_MARGIN p * total ∨ fit = []) →
      exec (.shardMoveDecision p t loads) s = .next s) ∧
    (s.getF F.ROW_PLACE_CFG_SHARD_MARGIN p * total < s.planRanks p * 256 * gap → fit ≠ [] →
      ∃ u c, exec (.shardMoveDecision p t loads) s = .next u ∧ c ∈ fit ∧ (∀ x ∈ fit, x.load ≤ c.load) ∧
        (u.tableSt p t (s.homeRank p)).move = some { shard := c.shard, src_ := hi, dst_ := lo, ready := false })

/-- R199: `GO` starts the replacement of a table in state 1 unless the epoch does not rise, the step is not to come, one of
the table is under way or there is no such table (0x12), or the pages do not fit (0x10); its copy complete, the state is 2;
at the origin before the step it is scheduled if every module has it, and else dropped with state 0x11. -/
def Sys2Proof.Claims.TableReplacement : Prop :=
  (∀ (s : State) (f : Func) (p : Nat) (v : Word) (pl : Plan) (d : TableDesc), p < 8 →
    Open s f (F.ROW_REPL_CTRL_GO.off p) → getBits v 63 63 = 1 → s.plan p = some pl →
    let t := getBits v 43 32
    let e := getBits v 31 0
    let n := s.getF F.ROW_REPL_STEP_STEP p
    let w : Repl := { table := t, epoch := e, step := n, addr := s.getF F.ROW_REPL_ADDR_ADDR p, loaded := false, due := false }
    let no : Bool := e ≤ (s.tableSt p t (s.homeRank p)).epoch || n ≤ s.curStep p + (if (s.part p).active then 1 else 0) ||
      (s.part p).repls.any (·.table = t)
    s.tableDesc p t = some d →
    ∃ u, exec (.rowReplGo f p v) s = .next u ∧
      (no = true → u.getF F.ROW_REPL_STATUS_STATE p = 0x12 ∧ u.parts = s.parts) ∧
      (no = false → s.replFits p pl w = false → u.getF F.ROW_REPL_STATUS_STATE p = 0x10 ∧ u.parts = s.parts) ∧
      (no = false → s.replFits p pl w = true → u.getF F.ROW_REPL_STATUS_STATE p = 1 ∧
        (u.part p).repls = (s.part p).repls ++ [w]) ∧
      u = { s with regs := u.regs, parts := u.parts } ∧
      ∀ o, o ≠ F.ROW_REPL_CTRL_GO.off p → o ≠ F.ROW_REPL_STATUS_STATE.off p → u.word o = s.word o) ∧
  (∀ (s : State) (p : Nat) (v : Repl) (d : TableDesc), p < 8 → (s.part p).repls = [v] → v.loaded = false →
    s.tableDesc p v.table = some d →
    ∃ u, exec (.replacementCopyDone p) s = .next u ∧ (u.part p).repls = [{ v with loaded := true }] ∧
      u.getF F.ROW_REPL_STATUS_STATE p = 2 ∧ (u.part p).tables = (s.part p).tables ∧ u.host = s.host ∧
      ∀ o, o ≠ F.ROW_REPL_STATUS_STATE.off p → u.word o = s.word o) ∧
  (∀ (s : State) (p : Nat) (v : Repl) (l : List Nat), p < 8 → (s.part p).repls = [v] → v.due = false →
    v.step = s.curStep p + 1 → (s.part p).active = true →
    ∃ u, exec (.replacementStateExchange p l) s = .next u ∧
      (v.loaded = true → (∀ x ∈ l, x = 2) → (u.part p).repls = [{ v with due := true }] ∧ u.regs = s.regs) ∧
      ((v.loaded = false ∨ ∃ x ∈ l, x ≠ 2) → (u.part p).repls = [] ∧ u.getF F.ROW_REPL_STATUS_STATE p = 0x11) ∧
      MemSame s u ∧ u = { s with regs := u.regs, parts := u.parts })

/-- Placement periods and page copies: `Claims.PlacementPeriod`; `Claims.PageCopies`. -/
def Obligations.PagesMove : Prop :=
  Claims.PlacementPeriod ∧ Claims.PageCopies

/-- Shard moves and table replacement: `Claims.ShardMoves`; `Claims.TableReplacement`. -/
def Obligations.ShardsAndTablesChange : Prop :=
  Claims.ShardMoves ∧ Claims.TableReplacement

/-! ## Memory units (R206 to R208, R218 to R220, R225 to R228) -/

/-- R208: a unit in service is refreshed, and by refresh management too; a readout shows the temperature and from 85 °C on
doubles the rate; patrol scrub that finds nothing in error changes nothing. -/
def Sys2Proof.Claims.RefreshScrubTemperature : Prop :=
  ∀ (s : State) (u : MemUnit),
    let i := State.unitNo u
    (s.unitState i = 2 → ∃ t, exec (.refresh u) s = .next t ∧
      t.unit i = { s.unit i with
        refreshes := (s.unit i).refreshes + 1, bank := ((s.unit i).bank + 1) % State.bankCount i,
        refreshAt := s.now + s.refreshSpacing i } ∧ t.out = .refreshCmd u (s.unit i).bank :: s.out ∧
      t = { s with units := t.units, out := t.out } ∧ ∀ j, j ≠ i → t.unit j = s.unit j) ∧
    (s.unitState i = 2 → exec (.refreshManagement u) s = .next (s.emit (.rfmCmd u))) ∧
    (∀ (temp : Nat), s.unitState i ≠ 0 → ∃ t, exec (.temperatureReadout u temp) s = .next t ∧
      t.getU F.MEM_STAT_TEMP F.UMB_STAT_TEMP i = min temp 255 ∧
      t.getU F.MEM_STAT_REFX2 F.UMB_STAT_REFX2 i = (if 85 ≤ temp then 1 else 0) ∧ t.unitState i = s.unitState i ∧
      RegsOnly (fun o => o = State.unitBase i) s t) ∧
    (s.unitState i = 2 → s.getU F.MEM_SCRUB_PERIOD F.UMB_SCRUB_PERIOD i ≠ 0 →
      exec (.patrolScrub u []) s = .next s)

/-- R206, R207: the decoder corrects an error of one byte of the 36. A sector that patrol scrub finds so is counted in `CE` and
reads as before; one that it finds uncorrectable is counted in `UE`, its address kept in `ECC_ADDR` if that is free, and no
step rolls back. Nothing else of the memory changes. (The sector is not of committed state, nor is its unit's block known to
be bad.)
The order of a sector's bytes in the code is presumed (assumption 95). -/
def Sys2Proof.Claims.SectorErrors : Prop :=
  (∀ (i : Nat) (v : Byte), i < 36 → v ≠ 0 →
    decode ((List.range 36).map fun j => if j = i then v else 0) = .corrected i v) ∧
  ∀ (s : State) (u : MemUnit) (e : SectorErr),
    let i := State.unitNo u
    s.unitState i = 2 → s.getU F.MEM_SCRUB_PERIOD F.UMB_SCRUB_PERIOD i ≠ 0 → State.onUnit i e.addr = true → e.onDie = 0 →
    (∀ k v, e.flips = [(k, v)] → k < 36 → v ≠ 0 →
      ∃ t, exec (.patrolScrub u [e]) s = .next t ∧ MemSame s t ∧
        t.getU F.MEM_ECC_CE F.UMB_ECC_CE i = min (s.getU F.MEM_ECC_CE F.UMB_ECC_CE i + 1) (2 ^ 32 - 1) ∧
        RegsOnly (fun o => o = State.unitBase i + 8) s t) ∧
    (e.verdict = .uncorrectable → s.committedAt (s.ownerAt e.addr) e.addr = false → s.resilient (s.ownerAt e.addr) = false →
      s.metBefore e.addr (s.curStep (s.ownerAt e.addr)) = false →
      ∃ t, exec (.patrolScrub u [e]) s = .next t ∧
        t.getU F.MEM_ECC_UE F.UMB_ECC_UE i = min (s.getU F.MEM_ECC_UE F.UMB_ECC_UE i + 1) (2 ^ 32 - 1) ∧
        t.getU F.MEM_ECC_ADDR_VALID F.UMB_ECC_ADDR_VALID i = 1 ∧
        (s.getU F.MEM_ECC_ADDR_VALID F.UMB_ECC_ADDR_VALID i = 0 → t.getU F.MEM_ECC_ADDR_ADDR F.UMB_ECC_ADDR_ADDR i = e.addr % 2 ^ 48) ∧
        (∀ a, a / 32 ≠ e.addr / 32 → t.rd8 a = s.rd8 a) ∧
        t = { s with regs := t.regs, units := t.units, mem := t.mem, history := t.history })

/-- R220, R407: at the edge of a beat whose BN is a multiple of 64 every pending wheel takes effect, and no other; R228: a
1 written to `DISCARD` makes the registers show the wheel in force again. -/
def Sys2Proof.Claims.WheelsTakeEffect : Prop :=
  (∀ s : State, s.bn % 64 = 0 →
    ∃ t, exec .wheelApply s = .next t ∧
      (∀ u, u < 20 → t.getU F.MEM_REG_CTRL_PENDING F.UMB_REG_CTRL_PENDING u = 0 ∧
        (s.getU F.MEM_REG_CTRL_PENDING F.UMB_REG_CTRL_PENDING u = 1 →
          ∀ k, k < 16 → mget 0 (t.unit u).active k = s.shadowWord u k) ∧
        (s.getU F.MEM_REG_CTRL_PENDING F.UMB_REG_CTRL_PENDING u = 0 → t.unit u = s.unit u)) ∧
      (∀ k, k < 6 → t.flag F.PRT_FREG_CTRL_PENDING k = false ∧
        (s.flag F.PRT_FREG_CTRL_PENDING k = true →
          ∀ i, i < 16 → mget 0 (t.port k).active i = s.word (F.PRT_FWHEEL_OWNERS.off (16 * k + i))) ∧
        (s.flag F.PRT_FREG_CTRL_PENDING k = false → t.port k = s.port k)) ∧
      t = { s with regs := t.regs, units := t.units, ports := t.ports }) ∧
  (∀ (s : State) (x : MemUnit), Open s .pf (State.unitBase (State.unitNo x) + 0x20) →
    let u := State.unitNo x
    ∃ t, exec (.regCtrlDiscard (.mem x)) s = .next t ∧
      (∀ k, k < 16 → t.shadowWord u k = mget 0 (s.unit u).active k) ∧
      t.getU F.MEM_REG_CTRL_PENDING F.UMB_REG_CTRL_PENDING u = 0 ∧ t = { s with regs := t.regs }) ∧
  (∀ (s : State) (k : Nat), k < 6 → Open s .pf (F.PRT_FREG_CTRL_DISCARD.off k) →
    ∃ t, exec (.regCtrlDiscard (.flit k)) s = .next t ∧
      (∀ i, i < 16 → t.word (F.PRT_FWHEEL_OWNERS.off (16 * k + i)) = mget 0 (s.port k).active i) ∧
      t.flag F.PRT_FREG_CTRL_PENDING k = false ∧ t = { s with regs := t.regs })

/-- R225, R226, R228: a write of `MARGIN` writes its fields, whichever of them is meant. `OFFLINE` asks for a unit to go offline, which it does when ready and no running plan owns memory on
it; on the way back it is trained and its range reads 0; if the training fails, so does the module, and no
plan runs on (R203). `APPLY` puts the steps in force and reads 0 again. -/
def Sys2Proof.Claims.MarginAndOffline : Prop :=
  ∀ (s : State) (x : MemUnit),
    let u := State.unitNo x
    (∀ (v : Word) (c : Instr), c = .marginOffline x v ∨ c = .marginApply x v → Open s .pf (State.unitBase u + 0x28) →
      ∃ t, exec c s = .next t ∧ t.getU F.MEM_MARGIN_OFFLINE F.UMB_MARGIN_OFFLINE u = getBits v 1 1 ∧
        t.getU F.MEM_MARGIN_VREF F.UMB_MARGIN_VREF u = getBits v 23 16 ∧
        t.getU F.MEM_MARGIN_PHASE F.UMB_MARGIN_PHASE u = getBits v 15 8 ∧
        (getBits v 0 0 = 1 → (t.unit u).margin = (getBits v 23 16, getBits v 15 8) ∧
          t.getU F.MEM_MARGIN_APPLY F.UMB_MARGIN_APPLY u = 0) ∧
        (getBits v 0 0 = 0 → t.unit u = s.unit u) ∧
        t.unitState u = (if s.unitState u = 4 ∧ getBits v 1 1 = 0 then 1 else s.unitState u) ∧
        t = { s with regs := t.regs, units := t.units } ∧ (∀ j, j ≠ u → t.unit j = s.unit j) ∧
        ∀ o, o ≠ State.unitBase u → o ≠ State.unitBase u + 0x28 → t.word o = s.word o) ∧
    (s.getU F.MEM_MARGIN_OFFLINE F.UMB_MARGIN_OFFLINE u = 1 → s.unitState u = 2 → s.unitInUse u = false →
      ∃ t, exec (.offlineEnter x) s = .next t ∧ t.unitState u = 4 ∧
        RegsOnly (fun o => o = State.unitBase u) s t) ∧
    (s.getU F.MEM_MARGIN_OFFLINE F.UMB_MARGIN_OFFLINE u = 0 → (s.unitState u = 4 ∨ s.unitState u = 1) →
      ∃ t, exec (.offlineLeave x true) s = .next t ∧ t.unitState u = 2 ∧
        (∀ a, State.onUnit u a = true → t.rd8 a = 0) ∧ (∀ a, State.onUnit u a = false → t.rd8 a = s.rd8 a) ∧
        t.host = s.host ∧ t.parts = s.parts ∧ t.tiles = s.tiles) ∧
    (s.getU F.MEM_MARGIN_OFFLINE F.UMB_MARGIN_OFFLINE u = 0 → (s.unitState u = 4 ∨ s.unitState u = 1) →
      s.flag F.GEN_STATUS_FAILED 0 = false →
      ∃ t, exec (.offlineLeave x false) s = .next t ∧ t.unitState u = 5 ∧ t.flag F.GEN_STATUS_FAILED 0 = true ∧
        t.getF F.GEN_STATUS_FCAUSE 0 = 1 ∧ ∀ p, p < 8 → t.running p = false)

/-- R225: `GO` starts a generator that is not `BUSY`; a reserved mode or pattern, and mode 00b with the unit not offline,
end at once with `FAIL`. A run's end leaves `ERRS`, the first failing address and `FAIL`. -/
def Obligations.TrafficGenerators : Prop :=
  ∀ (s : State) (x : MemUnit) (n : Nat),
    let u := State.unitNo x
    n < State.genCount u →
    (∀ (v : Word), Open s .pf (State.genCtl u n) → getBits v 0 0 = 1 →
      s.getG F.MEM_TG_STAT_BUSY F.UMB_TG_STAT_BUSY u n = 0 →
      let bad : Bool := 2 ≤ getBits v 5 4 || 4 ≤ getBits v 10 8 || (getBits v 5 4 = 0 && s.unitState u ≠ 4)
      ∃ t, exec (.tgGo x n v) s = .next t ∧
        (bad = false → InRun s → t.getG F.MEM_TG_STAT_BUSY F.UMB_TG_STAT_BUSY u n = 1 ∧
          t.getG F.MEM_TG_STAT_FAIL F.UMB_TG_STAT_FAIL u n = 0 ∧ (t.unit u).runs = (s.unit u).runs ++ [n] ∧
          t.getG F.MEM_TG_CTRL_SEED F.UMB_TG_CTRL_SEED u n = getBits v 63 32 ∧
          t = { s with regs := t.regs, units := t.units }) ∧
        (bad = true → t.getG F.MEM_TG_STAT_FAIL F.UMB_TG_STAT_FAIL u n = 1 ∧
          t.getG F.MEM_TG_STAT_BUSY F.UMB_TG_STAT_BUSY u n = 0 ∧ t.getG F.MEM_TG_CTRL_GO F.UMB_TG_CTRL_GO u n = 0 ∧
          t = { s with regs := t.regs }) ∧ MemSame s t) ∧
    (s.getG F.MEM_TG_STAT_BUSY F.UMB_TG_STAT_BUSY u n = 1 → s.getG F.MEM_TG_CTRL_MODE F.UMB_TG_CTRL_MODE u n = 1 →
      0 < State.slotsOf (s.unit u).active 15 →
      ∃ t, exec (.tgDone x n []) s = .next t ∧ t.getG F.MEM_TG_STAT_BUSY F.UMB_TG_STAT_BUSY u n = 0 ∧
        t.getG F.MEM_TG_CTRL_GO F.UMB_TG_CTRL_GO u n = 0 ∧ t.getG F.MEM_TG_STAT_ERRS F.UMB_TG_STAT_ERRS u n = 0 ∧
        t.getG F.MEM_TG_STAT_FAIL F.UMB_TG_STAT_FAIL u n = 0 ∧ (t.unit u).runs = (s.unit u).runs.filter (· ≠ n) ∧
        t = { s with regs := t.regs, units := t.units } ∧ MemSame s t)

/-- A cell that a stack has (R204). -/
def Sys2Proof.hbmCellFits (c : HbmCell) : Prop :=
  c.stack < 8 ∧ c.channel < 32 ∧ c.pseudo < 2 ∧ c.row < 24576 ∧ c.sid < 3 ∧ c.bank < 4 ∧ c.group < 4 ∧ c.column < 4 ∧ c.byte < 256

/-- A cell that an Umber package has (R205). -/
def Sys2Proof.umberCellFits (c : UmberCell) : Prop :=
  c.ctrl < 12 ∧ c.channel < 4 ∧ c.sub < 2 ∧ c.row < 2 ^ 20 ∧ c.column < 4 ∧ c.bank < 16 ∧ c.byte < 256

/-- R204, R205, R213: every address of a tier has a cell of its own, within its device, and the range of the HBM tier meets
no engine's aperture. -/
def Sys2Proof.Claims.AddressesHaveCells : Prop :=
  (∀ a : Nat, a < hbmEnd → hbmCellFits (hbmCell a)) ∧ (∀ a : Nat, a < hbmEnd → aperture (hbmCell a) = none) ∧
  (∀ a b : Nat, a < hbmEnd → b < hbmEnd → hbmCell a = hbmCell b → a = b) ∧
  (∀ a : Nat, umberBase ≤ a → a < umberEnd → umberCellFits (umberCell a)) ∧
  (∀ a b : Nat, umberBase ≤ a → a < umberEnd → umberBase ≤ b → b < umberEnd → umberCell a = umberCell b → a = b)

/-- Cells, sector errors, refresh, scrub, temperature, wheels, margins and going offline:
`Claims.RefreshScrubTemperature`; `Claims.SectorErrors`; `Claims.WheelsTakeEffect`; `Claims.MarginAndOffline`;
`Claims.AddressesHaveCells`. -/
def Obligations.MemoryUnits : Prop :=
  Claims.RefreshScrubTemperature ∧ Claims.SectorErrors ∧ Claims.WheelsTakeEffect ∧ Claims.MarginAndOffline ∧ Claims.AddressesHaveCells

/-! ## The fabric (R231 to R244, R258, R261) -/

/-- R261: `FAB_CFG` written while every port is Down or Failed takes the torus and the module's place, and the master by
configuration follows; written at any other time it is discarded and logged. R258, R259: a bypass opens exactly while its
`OPEN` bit is 1, both ports of the dimension are enabled, the torus uses the dimension and the module has not failed; a port
it lets train starts, one it bars is Down. -/
def Sys2Proof.Claims.FabricConfiguration : Prop :=
  (∀ (s : State) (f : Func) (v : Word), Open s f F.FAB_CFG_X.base →
    ((∀ k, k < 6 → s.getF F.FAB_PSTAT_STATE k = 0 ∨ s.getF F.FAB_PSTAT_STATE k = 7) →
      ∃ u, exec (.fabCfgWrite f v) s = .next u ∧
        (∀ fld ∈ [F.FAB_CFG_X, F.FAB_CFG_Y, F.FAB_CFG_Z, F.FAB_CFG_X_M1, F.FAB_CFG_Y_M1, F.FAB_CFG_Z_M1],
          u.getF fld 0 = getBits v fld.hi fld.lo) ∧
        u.getF F.PLN_BEAT_STATUS_CUR_MASTER 0 = s.getF F.PLN_BEAT_CFG_MASTER_POS 0 ∧
        (u.flag F.PLN_BEAT_STATUS_IS_MASTER 0 = true ↔ s.getF F.PLN_BEAT_CFG_MASTER_POS 0 = u.pos) ∧
        (∀ d, d < 3 →
          let may : Bool := 2 ≤ u.ringSize d && natBits (s.getF F.FAB_BYP_OPEN 0) d d = 1 && s.flag F.FAB_PCTRL_EN (2 * d) &&
            s.flag F.FAB_PCTRL_EN (2 * d + 1) && !s.flag F.GEN_STATUS_FAILED 0
          natBits (u.getF F.FAB_BYP_CLOSED 0) d d = (if may then 0 else 1) ∧
          ∀ k, k / 2 = d → u.getF F.FAB_PSTAT_STATE k =
            (if s.getF F.FAB_PSTAT_STATE k = 7 then 7 else if may then 1 else 0)) ∧
        u = { s with regs := u.regs, ports := u.ports, lostMaster := none, altUpstream := none }) ∧
    ((∃ k, k < 6 ∧ s.getF F.FAB_PSTAT_STATE k ≠ 0 ∧ s.getF F.FAB_PSTAT_STATE k ≠ 7) →
      ∃ u, exec (.fabCfgWrite f v) s = .next u ∧ u.word F.FAB_CFG_X.base = s.word F.FAB_CFG_X.base ∧
        u.flag F.GEN_ERR_VALID 0 = true)) ∧
  (∀ (s : State) (f : Func) (v : Word), Open s f F.FAB_BYP_OPEN.base → s.runningParts = [] →
    let may (d : Nat) : Bool := 2 ≤ s.ringSize d && getBits v d d = 1 && s.flag F.FAB_PCTRL_EN (2 * d) && s.flag F.FAB_PCTRL_EN (2 * d + 1) &&
      !s.flag F.GEN_STATUS_FAILED 0
    ∃ u, exec (.bypassOpen f v) s = .next u ∧ u.getF F.FAB_BYP_OPEN 0 = getBits v 2 0 ∧
      (∀ d, d < 3 → natBits (u.getF F.FAB_BYP_CLOSED 0) d d = (if may d then 0 else 1)) ∧
      (∀ k, k < 6 → may (k / 2) = true →
        u.getF F.FAB_PSTAT_STATE k = (if s.getF F.FAB_PSTAT_STATE k = 0 then 1 else s.getF F.FAB_PSTAT_STATE k)) ∧
      (∀ k, k < 6 → may (k / 2) = false →
        u.getF F.FAB_PSTAT_STATE k = (if s.getF F.FAB_PSTAT_STATE k = 7 then 7 else 0)) ∧
      MemSame s u ∧ u.parts = s.parts ∧ u.tiles = s.tiles) ∧
  (∀ (s : State) (k : Nat) (v : Word), k < 6 → Open s .pf (F.FAB_PCTRL_EN.off k) → s.runningParts = [] →
    let other := if k % 2 = 0 then k + 1 else k - 1
    let may : Bool := 2 ≤ s.ringSize (k / 2) && getBits v 0 0 = 1 && natBits (s.getF F.FAB_BYP_OPEN 0) (k / 2) (k / 2) = 1 &&
      s.flag F.FAB_PCTRL_EN other && !s.flag F.GEN_STATUS_FAILED 0
    let st := s.getF F.FAB_PSTAT_STATE k
    ∃ u, exec (.portEnable k v) s = .next u ∧ u.getF F.FAB_PCTRL_EN k = getBits v 0 0 ∧
      u.getF F.FAB_PCTRL_RETRY_LIMIT k = getBits v 15 8 ∧
      natBits (u.getF F.FAB_BYP_CLOSED 0) (k / 2) (k / 2) = (if may then 0 else 1) ∧
      u.getF F.FAB_PSTAT_STATE k = (if may then (if st = 0 ∨ st = 7 then 1 else st) else 0) ∧
      MemSame s u ∧ u.parts = s.parts ∧ u.tiles = s.tiles)

/-- Nothing waits at port `k`: no message, HOLD or SEAL is due, and no transfer or generator waits for the ports. -/
abbrev Sys2Proof.Quiet (s : State) (k : Nat) : Prop :=
  (s.port k).txq = [] ∧ (s.port k).holdq = [] ∧ (s.port k).sealDue = false ∧ (∀ q, q < 8 → (s.part q).sent = []) ∧
    s.flag F.TST_FTG_GO 0 = false

/-- R240 to R243: a port trains through Optical, Equalise, Align and Keying to Up; it runs at 16 lanes, or at 8 on the two
lowest groups that equalised, and in Align sends its position and ring sizes. The end of the lower position rank sends the
key of the exchange. A miswired port and one that does not authenticate are Failed with their causes; a state whose limit
passes starts again, and after three attempts the port is Failed; that of Remap takes the port down. -/
def Sys2Proof.Claims.PortsTrain : Prop :=
  ∀ (s : State) (k : Nat), k < 6 →
    let st := s.getF F.FAB_PSTAT_STATE k
    let rings0 := (s.ringSize 0, s.ringSize 1, s.ringSize 2)
    (st = 1 → ∃ u, exec (.opticalSignalDetect k) s = .next u ∧ u.getF F.FAB_PSTAT_STATE k = 2 ∧
      RegsOnly (fun o => o = F.FAB_PSTAT_STATE.off k) s u) ∧
    (∀ (lanes : Nat), st = 2 →
      (State.goodGroups lanes = [0, 1, 2, 3] → ∃ u, exec (.equaliseDone k lanes) s = .next u ∧
        u.getF F.FAB_PSTAT_STATE k = 3 ∧ u.getF F.FAB_PSTAT_LANES k = 0xFFFF ∧ u.flag F.FAB_PSTAT_W8 k = false ∧
        u.out = .align k s.pos rings0 :: s.out ∧ u = { s with regs := u.regs, out := u.out } ∧
        ∀ o, o ≠ F.FAB_PSTAT_STATE.off k → u.word o = s.word o) ∧
      (∀ (a b : Nat) (rest : List Nat), State.goodGroups lanes = a :: b :: rest → rest.length ≤ 1 →
        ∃ u, exec (.equaliseDone k lanes) s = .next u ∧ u.getF F.FAB_PSTAT_STATE k = 3 ∧
          u.getF F.FAB_PSTAT_LANES k = 15 * 16 ^ a + 15 * 16 ^ b ∧ u.flag F.FAB_PSTAT_W8 k = true ∧
          u.out = .align k s.pos rings0 :: s.out ∧ u = { s with regs := u.regs, out := u.out } ∧
          ∀ o, o ≠ F.FAB_PSTAT_STATE.off k → u.word o = s.word o)) ∧
    (∀ (far : Nat) (rings : Nat × Nat × Nat) (rtt : Nat), st = 3 →
      (rings = rings0 → s.inRing k far = true →
        (∀ q ∈ s.between k far, (s.port k).absent.contains q = true) →
        ∃ u, exec (.alignDone k far rings rtt) s = .next u ∧ u.getF F.FAB_PSTAT_STATE k = 4 ∧
          u.getF F.FAB_PSTAT_FAR_POS k = far % 2 ^ 17 ∧ u.getF F.FAB_PSTAT_RTT k = min rtt 65535 ∧
          (u.port k).absent = s.between k far ∧
          (s.pos < far % 2 ^ 17 → (u.port k).kexDraw = some s.ident.drbg ∧ u.ident = { s.ident with drbg := s.ident.drbg + 1 } ∧
            u.out = .linkKem k (Config.kemPublic s.ident.drbg) :: s.out) ∧
          (far % 2 ^ 17 ≤ s.pos → u.ident = s.ident ∧ u.out = s.out) ∧
          u = { s with regs := u.regs, ports := u.ports, ident := u.ident, out := u.out }) ∧
      ((rings ≠ rings0 ∨ s.inRing k far = false) →
        ∃ u, exec (.alignDone k far rings rtt) s = .next u ∧ u.getF F.FAB_PSTAT_STATE k = 7 ∧
          u.getF F.FAB_PSTAT_CAUSE k = 2)) ∧
    (∀ (peer : PeerChain), st = 4 →
      (s.chainOk peer = true → (s.port k).reported = false → Quiet s k →
        let x := s.exchange k peer.kem
        let t := shake256 (x.1 ++ x.2.1)
        ∃ u, exec (.keyingDone k peer) s = .next u ∧
          u.getF F.FAB_PSTAT_STATE k = 5 ∧ (u.port k).keys = some (shakeBytes 64 (x.2.2 ++ t)) ∧
          (u.port k).credits = [4096, 4096, 512, 512, 64, 64] ∧ (u.port k).groupTx = 0 ∧ (u.port k).groupRx = 0 ∧
          (u.port k).retry = [] ∧
          u.out = .linkChain k s.chain (s.aliasSign t) :: (if s.lowerEnd k then s.out else .linkKem k x.2.1 :: s.out) ∧
          u.ident = (if s.lowerEnd k then s.ident else { s.ident with drbg := s.ident.drbg + 1 }) ∧
          u = { s with regs := u.regs, ports := u.ports, ident := u.ident, out := u.out }) ∧
      (s.chainOk peer = false → ∃ u, exec (.keyingDone k peer) s = .next u ∧ u.getF F.FAB_PSTAT_STATE k = 7 ∧
        u.getF F.FAB_PSTAT_CAUSE k = 3)) ∧
    (1 ≤ st → st ≤ 4 → ∃ u, exec (.trainingLimitExpiry k) s = .next u ∧
      (u.port k).attempts = (s.port k).attempts + 1 ∧
      ((s.port k).attempts < 2 → u.getF F.FAB_PSTAT_STATE k = (if s.mayTrain k then 1 else 0)) ∧
      (2 ≤ (s.port k).attempts → u.getF F.FAB_PSTAT_STATE k = 7 ∧ u.getF F.FAB_PSTAT_CAUSE k = 1)) ∧
    (st = 6 → s.runningParts = [] → ∃ u, exec (.trainingLimitExpiry k) s = .next u ∧ (u.port k).attempts = 1 ∧
      u.getF F.FAB_PSTAT_STATE k = (if s.mayTrain k then 1 else 0) ∧ u.getF F.FAB_PSTAT_CAUSE k = 1 ∧
      (u.port k).keys = none)

/-- The port has gone down: it trains again if it may, its retry buffer and keys are lost, and nothing else has changed. -/
def Sys2Proof.PortDown (s u : State) (k : Nat) : Prop :=
  u.getF F.FAB_PSTAT_STATE k = (if s.mayTrain k then 1 else 0) ∧ (u.port k).retry = [] ∧ (u.port k).keys = none ∧
    (u.port k).absent = (s.port k).absent ∧ (∀ j, j ≠ k → u.port j = s.port j) ∧ MemSame s u ∧ u.parts = s.parts ∧
    u.tiles = s.tiles

/-- R240, R243, R244: `RETRAIN` takes an Up port down, starts a Failed one again and waits on one that is Down; lost lanes
remap an Up port to 8 of those that are good, and with too few, as with a lost signal, it goes down and trains again, its
retry buffer and keys lost. -/
def Sys2Proof.Claims.PortsGoDown : Prop :=
  ∀ (s : State) (k : Nat), k < 6 → s.runningParts = [] →
    let st := s.getF F.FAB_PSTAT_STATE k
    (Open s .pf (F.FAB_PCTRL_RETRAIN.off k) → ∃ u, exec (.portRetrain k) s = .next u ∧
      (st = 0 → u.flag F.FAB_PCTRL_RETRAIN k = true ∧ u.getF F.FAB_PSTAT_STATE k = 0) ∧
      (st = 5 ∨ st = 6 → PortDown s u k) ∧
      (1 ≤ st → st ≤ 4 ∨ st = 7 → u.getF F.FAB_PSTAT_STATE k = (if s.mayTrain k then 1 else 0) ∧
        u.flag F.FAB_PCTRL_RETRAIN k = false ∧ (u.port k).attempts = 0)) ∧
    (∀ (lanes : Nat), st = 5 → ∃ u, exec (.laneLoss k lanes) s = .next u ∧
      (∀ a b rest, State.goodGroups (s.getF F.FAB_PSTAT_LANES k &&& (0xFFFF - lanes % 0x10000)) = a :: b :: rest →
        u.getF F.FAB_PSTAT_STATE k = 6 ∧ u.getF F.FAB_PSTAT_LANES k = 15 * 16 ^ a + 15 * 16 ^ b ∧
        u.flag F.FAB_PSTAT_W8 k = true ∧ u.ports = s.ports) ∧
      ((State.goodGroups (s.getF F.FAB_PSTAT_LANES k &&& (0xFFFF - lanes % 0x10000))).length < 2 →
        PortDown s u k ∧ u.getF F.FAB_PSTAT_CAUSE k = 6)) ∧
    (st = 6 → Quiet s k → ∃ u, exec (.remapDone k) s = .next u ∧ u.getF F.FAB_PSTAT_STATE k = 5 ∧
      RegsOnly (fun o => o = F.FAB_PSTAT_STATE.off k) s u) ∧
    (st = 5 ∨ st = 6 → ∃ u, exec (.portSignalLost k) s = .next u ∧ PortDown s u k ∧ u.getF F.FAB_PSTAT_CAUSE k = 7)

/-- What is buffered from place `i` on is resent in order, each flit counting the repetition and carrying the number received
last. -/
def Sys2Proof.Resent (s u : State) (k i : Nat) : Prop :=
  let x := s.port k
  let again := x.retry.drop i
  (u.port k).retry = x.retry.take i ++ again.map (fun f => { f with resent := f.resent + 1 }) ∧
    flitsOut u k = (again.map fun f => { f.flit with
      ack := if x.heard then (x.rxNext + 4095) % 4096 else 0, ak := if x.heard then 1 else 0 }).reverse ++ flitsOut s k ∧
    u.getF F.FAB_PERR_RETX k = min (s.getF F.FAB_PERR_RETX k + 1) 65535 ∧
    u = { s with regs := u.regs, ports := u.ports, out := u.out } ∧ ∀ j, j ≠ k → u.port j = s.port j

/-- R231, R234 to R239: a NAK, and a timeout from the oldest flit on, resend what is buffered from a number on, each flit
counting the repetition; an acknowledgement frees what it covers; a bad flit is counted, with every codeword of more than 15
symbol errors and every symbol corrected, and NAKed once until the one expected comes; a SEAL in sequence whose tag is good
verifies its group, is acknowledged and gives its credits, one out of sequence is NAKed, and one that fails takes the port
down. -/
def Obligations.RetryAndSeals : Prop :=
  ∀ (s : State) (k : Nat), k < 6 → s.portUp k = true → Quiet s k →
    let x := s.port k
    (∀ (seq i : Nat), x.retry.findIdx? (·.flit.seq = seq % 4096) = some i →
      (∀ f ∈ x.retry.drop i, f.resent + 1 < s.retryLimit k) →
      ∃ u, exec (.nakReceive k seq) s = .next u ∧ Resent s u k i) ∧
    (∀ (f : TxFlit) (rest : List TxFlit), x.retry = f :: rest → (∀ f ∈ x.retry, f.resent + 1 < s.retryLimit k) →
      ∃ u, exec (.retryTimeout k) s = .next u ∧ Resent s u k 0) ∧
    (∀ (seq i : Nat), x.retry.findIdx? (·.flit.seq = seq % 4096) = some i →
      ∃ u, exec (.ackReceive k seq) s = .next u ∧
        (u.port k).retry = (x.retry.drop (i + 1)).map (fun f => { f with resent := 0 }) ∧
        u = { s with ports := u.ports } ∧ ∀ j, j ≠ k → u.port j = s.port j) ∧
    (∀ (crc : Bool) (errs : List Nat), ∃ u, exec (.flitDiscard k crc errs) s = .next u ∧
      u.getF F.FAB_PERR_CRC k = (if crc then min (s.getF F.FAB_PERR_CRC k + 1) 65535 else s.getF F.FAB_PERR_CRC k) ∧
      u.getF F.FAB_PERR_FECU k = min (s.getF F.FAB_PERR_FECU k + (errs.filter (15 < ·)).length) 65535 ∧
      u.getF F.FAB_PFEC_FEC k = min (s.getF F.FAB_PFEC_FEC k + (errs.filter (· ≤ 15)).foldl (· + ·) 0) (2 ^ F.FAB_PFEC_FEC.width - 1) ∧
      (u.port k).nakSent = true ∧ (u.port k).rxNext = x.rxNext ∧
      u.out = (if x.nakSent then s.out else .flit k { plainFlit 0 (fillBody []) with ack := x.rxNext, ak := 2 } :: s.out) ∧
      u = { s with regs := u.regs, ports := u.ports, out := u.out }) ∧
    (∀ (seq count : Nat) (credit : List Nat), seq % 4096 = x.rxNext → count ≤ 256 →
      ∃ u, exec (.sealFlit k seq x.groupRx count true credit) s = .next u ∧ (u.port k).rxNext = (x.rxNext + 1) % 4096 ∧
        (u.port k).groupRx = x.groupRx + 1 ∧ (u.port k).nakSent = false ∧
        u.out = .flit k { plainFlit 0 (fillBody []) with ack := seq % 4096, ak := 1 } :: s.out ∧
        (∀ v, v < 6 → (u.port k).credits[v]? = some (min (startCredits.getD v 0)
          (x.credits.getD v 0 + (credit.getD v 0 + 2 ^ 32 - x.freedSeen.getD v 0) % 2 ^ 32))) ∧
        u = { s with ports := u.ports, out := u.out } ∧ ∀ j, j ≠ k → u.port j = s.port j) ∧
    (∀ (seq g count : Nat) (tag : Bool) (credit : List Nat), seq % 4096 ≠ x.rxNext →
      ∃ u, exec (.sealFlit k seq g count tag credit) s = .next u ∧ u.port k = { x with nakSent := true } ∧
        u = { s with ports := u.ports, out := u.out }) ∧
    (∀ (seq g count : Nat) (tag : Bool) (credit : List Nat), seq % 4096 = x.rxNext → s.runningParts = [] →
      (tag = false ∨ g ≠ x.groupRx ∨ 256 < count) →
      ∃ u, exec (.sealFlit k seq g count tag credit) s = .next u ∧
        u.getF F.FAB_PERR_SEALF k = min (s.getF F.FAB_PERR_SEALF k + 1) 65535 ∧ u.getF F.FAB_PSTAT_CAUSE k = 5 ∧
        (u.port k).keys = none ∧ u.getF F.FAB_PSTAT_STATE k = (if s.mayTrain k then 1 else 0))

/-- R232, R234, R245: the bytes of a flit are read back as the flit, and those of a message header as the header and its
`LENGTH`, with every field at every value of its width. -/
def Sys2Proof.Claims.FlitsReadBack : Prop :=
  (∀ f : Flit, f.type < 8 → f.vc < 8 → f.seq < 4096 → f.ack < 4096 → f.ak < 4 → f.body.length = 248 →
    (flitBytes f).length = 256 ∧ readFlit (flitBytes f) = some f) ∧
  ∀ (h : MsgHdr) (n : Nat), h.dest < 2 ^ 17 → h.src < 2 ^ 17 → h.kind < 256 → h.part < 256 → h.attempt < 256 →
    h.step < 2 ^ 64 → h.addr < 2 ^ 48 → h.token < 2 ^ 64 → h.task < 2 ^ 24 → n < 2 ^ 32 →
    (hdrBytes h n).length = 48 ∧ readHdr (hdrBytes h n) = (h, n)

/-- Configuration and bypass; ports train and go down: `Claims.FabricConfiguration`; `Claims.PortsTrain`;
`Claims.PortsGoDown`. -/
def Obligations.FabricPorts : Prop :=
  Claims.FabricConfiguration ∧ Claims.PortsTrain ∧ Claims.PortsGoDown

/-! ## Mirrors and hosting (R274 to R288, R318, R322) -/

/-- R275, R277: a rank's delta for the step holds every sector named as the commit beat leaves it, and ends with the bytes
sent; its end is noted, and acknowledged once every byte is written and the log two steps before it is applied; the
acknowledgement lets the rank report; the oldest committed log is applied to the rank's mirror and gives its place free. -/
def Obligations.DeltasReachTheMirror : Prop :=
  (∀ (s : State) (p : Nat) (sectors : List Nat) (pl : Plan), p < 8 → s.plan p = some pl → s.resilient p = true →
    s.stepMoves p = true → (s.part p).committed = false → (s.ranksHere p).contains (s.homeRank p) = true →
    s.getF F.FAB_HSTAT_MIRROR 0 = 2 → (s.part p).mirrorAcked = false →
    s.hostOf p (s.partnerOf p (s.homeRank p)) ≠ s.pos → (∀ k, k < 6 → (s.port k).absent = []) →
    ∃ u l, exec (.deltaSend p (s.homeRank p) sectors) s = .next u ∧
      u.out.head? = some (.deltaEnd p (s.homeRank p) (s.curStep p) ((s.part p).deltaSent + 40 * l)) ∧
      l = (s.deltaOf p (s.homeRank p) pl sectors).length ∧
      (∀ a ∈ sectors, (a / 32 * 32, (s.commit p).rd (a / 32 * 32) 32) ∈ s.deltaOf p (s.homeRank p) pl sectors) ∧
      u.part p = { s.part p with deltaSent := (s.part p).deltaSent + 40 * l } ∧
      u = { s with ports := u.ports, parts := u.parts, out := u.out } ∧ ∀ q, q ≠ p → u.part q = s.part q) ∧
  (∀ (s : State) (p rank n bytes : Nat), p < 8 → s.resilient p = true → (s.mirroredHere p).contains rank = true →
    ∃ u, exec (.deltaEnd p rank n bytes) s = .next u ∧ u.logAt p rank n = { s.logAt p rank n with ended := some bytes } ∧
      u.out = (if (s.logAt p rank n).bytes = bytes ∧ s.logHeld p rank n = false then .deltaAck p rank n :: s.out else s.out) ∧
      u = { s with parts := u.parts, out := u.out } ∧ ∀ q, q ≠ p → u.part q = s.part q) ∧
  (∀ (s : State) (p rank n : Nat), p < 8 → (s.part p).active = true → s.rolling p = false →
    ∃ u, exec (.deltaAck p rank n) s = .next u ∧
      (rank = s.homeRank p ∧ n = s.curStep p → u.part p = { s.part p with mirrorAcked := true }) ∧
      (¬ (rank = s.homeRank p ∧ n = s.curStep p) → u = s) ∧
      u = { s with parts := u.parts } ∧ ∀ q, q ≠ p → u.part q = s.part q) ∧
  (∀ (s : State) (p a : Nat) (b : List Byte) (l : DeltaLog) (ls : List DeltaLog), p < 8 → (s.part p).logs = l :: ls →
    l.committed = true → l.applied = false → (∀ v ∈ ls, v.rank = l.rank → v.committed = false ∧ v.step ≠ l.step) →
    l.written = [(a, b)] → a % 256 + b.length ≤ 256 →
    let v := s.logAt p l.rank (l.step + 2)
    ∃ u, exec (.deltaLogApply p l.rank) s = .next u ∧ (u.part p).logs = ls ∧ u.rd (mirrorAddr p l.rank a) b.length = b ∧
      (∀ x, ¬ (mirrorAddr p l.rank a ≤ x ∧ x < mirrorAddr p l.rank a + b.length) → u.rd8 x = s.rd8 x) ∧
      u.out = (if v.ended = some v.bytes then .deltaAck p l.rank (l.step + 2) :: s.out else s.out) ∧
      u = { s with parts := u.parts, mem := u.mem, history := u.history, out := u.out } ∧
      ∀ q, q ≠ p → u.part q = s.part q)

/-- What the coordinator's decision is (R280, R281): with every rank of every failed module covered, in resilient mode, a
RESUME with a hosting epoch above the last, `RESUME_LEAD` beats or 0x100 ahead, which gives each such rank to its partner
rank's host; else a STOP. -/
def Sys2Proof.Decides (s u : State) (p : Nat) : Prop :=
  let c := (s.part p).coord
  let covered : Bool := s.resilient p && (s.orphans p).all (s.covered p)
  u = { s with parts := u.parts, out := u.out } ∧ (∀ q, q ≠ p → u.part q = s.part q) ∧
  (covered = true → ∃ m : ResumeMsg, u.out = .resumeMsg p m :: s.out ∧
    m.hepoch = max c.hepoch (s.getF F.FAB_HSTAT_HEPOCH 0) + 1 ∧
    m.resumeBn = s.bn + max 0x100 (s.getF F.FAB_HCTRL_RESUME_LEAD 0) ∧ m.step = s.resolvedStep p ∧ m.digestsAgree = true ∧
    (∀ r ∈ s.orphans p, ⟨r, s.hostOf p (s.partnerOf p r)⟩ ∈ m.entries) ∧
    (u.part p).coord = { c with firstAt := none, hepoch := m.hepoch, resumeBn := some m.resumeBn }) ∧
  (covered = false → u.out = .stopMsg p (s.resolvedStep p) :: s.out ∧
    (u.part p).coord = { c with firstAt := none, resumeBn := none })

/-- R280, R288, R318, R322: a failure notice is logged, begins the coordinator's gather period, and puts a module that has
sent its OK report and has no decision in doubt; `GATHER` beats later, or at a report of a late RESUME, the coordinator
decides; with every port that went down Up again it sends RESTART; reports of steps in doubt are kept.
Which decision a coordinator takes of a step in doubt is read from R322 (assumption 63). -/
def Sys2Proof.Claims.CoordinatorDecides : Prop :=
  (∀ (s : State) (p : Nat) (qs : List Nat) (b : Nat), p < 8 →
    ∃ u, exec (.failureNotice p qs b) s = .next u ∧ u.getF F.FAB_HLOG_BN 0 = b % 2 ^ 32 ∧
      u.getF F.FAB_HLOG_POS 0 = qs.headD 0 % 2 ^ 17 ∧ MemSame s u ∧
      (s.inCommitWindow p = false → s.isCoord = false → u.parts = s.parts ∧ u.out = s.out) ∧
      (s.isCoord = true → s.resumePending p = false →
        (∀ q, q ∈ (u.part p).coord.failed ↔ q ∈ (s.part p).coord.failed ∨ q ∈ qs) ∧
        (u.part p).coord.firstAt = some ((s.part p).coord.firstAt.getD s.bn)) ∧
      (s.inCommitWindow p = true → s.getF F.PLN_COMMIT_STATUS_DSTATE p = 0 → (s.part p).okSent = true →
        u.getF F.PLN_COMMIT_STATUS_DSTATE p = 3 ∧ (u.part p).waiting = true ∧
        (s.isCoord = false → u.out = .doubt (s.getF F.PLN_BEAT_STATUS_CUR_MASTER 0) .inDoubt :: s.out))) ∧
  (∀ (s : State) (p b : Nat), p < 8 → s.isCoord = true → (s.part p).coord.firstAt = some b →
    (s.bn < b + s.getF F.FAB_HCTRL_GATHER 0 → exec (.hostingDecision p) s = .next s) ∧
    (b + s.getF F.FAB_HCTRL_GATHER 0 ≤ s.bn → ∃ u, exec (.hostingDecision p) s = .next u ∧ Decides s u p)) ∧
  (∀ (s : State) (p e : Nat), p < 8 → s.isCoord = true → e = (s.part p).coord.hepoch →
    ∃ u, exec (.lateResumeReport p e) s = .next u ∧ Decides s u p) ∧
  (∀ (s : State) (p q k : Nat), p < 8 → s.isCoord = true →
    (∃ u, exec (.portStatusReport p q k false) s = .next u ∧ (q, k) ∈ (u.part p).coord.downPorts ∧ u.out = s.out ∧
      u = { s with parts := u.parts }) ∧
    ((s.part p).coord.downPorts = [(q, k)] → (s.part p).coord.firstAt = none → s.resumePending p = false →
      ∃ u, exec (.portStatusReport p q k true) s = .next u ∧ (u.part p).coord.downPorts = [] ∧
        u.out = .restartMsg p (s.resolvedStep p) (s.bn + max 64 (s.getF F.PLN_COMMIT_CFG_ROLL_LEAD p)) :: s.out ∧
        u = { s with parts := u.parts, out := u.out })) ∧
  (∀ (s : State) (p q : Nat) (r : DoubtReport), p < 8 → s.isCoord = true →
    ∃ u, exec (.commitStateReport p q r) s = .next u ∧ u = { s with parts := u.parts } ∧
      (u.part p).coord = { (s.part p).coord with doubts := (s.part p).coord.doubts ++ [(q, r)] })

/-- R281, R282, R285, R287, R318, R322: a RESUME of an epoch not above those obeyed or held is ignored, one that comes late is
reported, one that returns a rank home is kept for a commit beat, any other is obeyed: its map is in force and the step's
re-run starts at `RESUME_BN`, or, with schedules that differ, the plan stops. A STOP stops the plan with its outcome; a
RESTART gives a module that waits its origin; `CLAIM` claims a rank that is hosted elsewhere. -/
def Sys2Proof.Claims.HostingMessages : Prop :=
  (∀ (s : State) (p : Nat) (r : ResumeMsg), p < 8 →
    ((s.part p).active = false ∨ r.hepoch ≤ s.epochHeld p → exec (.resume p r) s = .next s) ∧
    ((s.part p).active = true → s.epochHeld p < r.hepoch → r.resumeBn < s.bn → s.isCoord = false →
      exec (.resume p r) s = .next { s with out := .lateResume p r.hepoch :: s.out }) ∧
    ((s.part p).active = true → s.epochHeld p < r.hepoch → s.bn ≤ r.resumeBn →
      (∃ e ∈ r.entries, e.host = s.homePos p e.rank) →
      ∃ u, exec (.resume p r) s = .next u ∧ u.part p = { s.part p with pendResume := some r } ∧
        u = { s with parts := u.parts } ∧ ∀ q, q ≠ p → u.part q = s.part q) ∧
    ((s.part p).active = true → s.epochHeld p < r.hepoch → s.bn ≤ r.resumeBn →
      (∀ e ∈ r.entries, e.host ≠ s.homePos p e.rank) → s.rolling p = true →
      (s.getF F.PLN_COMMIT_STATUS_DSTATE p ≠ 1 ∧ s.getF F.PLN_COMMIT_STATUS_DSTATE p ≠ 3) →
      ∃ u, exec (.resume p r) s = .next u ∧ u.notice = none ∧
        (r.digestsAgree = true → (u.part p).rerunBn = some r.resumeBn ∧ (u.part p).waiting = false ∧
          (u.part p).hosts = r.entries.map (fun e => (e.rank, e.host)) ∧
          u.getF F.FAB_HSTAT_HEPOCH 0 = r.hepoch % 2 ^ 32 ∧ u.curStep p = s.curStep p ∧
          u.getF F.PLN_COMMIT_STATUS_DSTATE p = (if (s.part p).restoring = true then 4 else 2)) ∧
        (r.digestsAgree = false → u.running p = false ∧ (u.part p).active = false ∧
          u.getF F.FAB_HSTAT_OUTCOME 0 = 3 ∧ MemSame s u))) ∧
  (∀ (s : State) (p n : Nat) (b : Bool), p < 8 →
    ((s.part p).active = false → exec (.hostingStop p n b) s = .next s) ∧
    ((s.part p).active = true → ∃ u, exec (.hostingStop p n b) s = .next u ∧ u.running p = false ∧
      (u.part p).active = false ∧ u.notice = none ∧ u.getF F.FAB_HSTAT_OUTCOME 0 = if b = true then 3 else 2)) ∧
  (∀ (s : State) (p n b : Nat), p < 8 →
    ((s.part p).active = false ∨ (s.part p).waiting = false → exec (.restart p n b) s = .next s) ∧
    ((s.part p).active = true → (s.part p).waiting = true → s.rolling p = true →
      (s.getF F.PLN_COMMIT_STATUS_DSTATE p ≠ 1 ∧ s.getF F.PLN_COMMIT_STATUS_DSTATE p ≠ 3) →
      ∃ u, exec (.restart p n b) s = .next u ∧ u.part p = { s.part p with rerunBn := some b, waiting := false } ∧
        u.getF F.PLN_COMMIT_STATUS_DSTATE p = (if (s.part p).restoring = true then 4 else 2) ∧
        u = { s with parts := u.parts, regs := u.regs } ∧ (∀ q, q ≠ p → u.part q = s.part q) ∧
        ∀ o, o ≠ F.PLN_COMMIT_STATUS_DSTATE.off p → u.word o = s.word o) ∧
    ((s.part p).active = true → (s.part p).waiting = true → s.getF F.PLN_COMMIT_STATUS_DSTATE p = 3 → n = s.curStep p →
      (s.part p).rerunBn = none → (s.part p).stopAtRollback = false →
      ∃ u, exec (.restart p n b) s = .next u ∧ (u.part p).rerunBn = some b ∧ (u.part p).waiting = false ∧
        (u.part p).rollbacks = (s.part p).rollbacks + 1 ∧ u.curStep p = n ∧ MemSame s u)) ∧
  (∀ (s : State) (f : Func) (p : Nat) (v : Word), p < 8 → Open s f 0x600100 →
    ∃ u, exec (.hostClaim f p v) s = .next u ∧ u.getF F.FAB_HCTRL_GATHER 0 = getBits v 15 8 ∧
      u.getF F.FAB_HCTRL_RESUME_LEAD 0 = getBits v 31 16 ∧
      (getBits v 0 0 = 1 ∧ (s.ranksHere p).contains (s.homeRank p) = false →
        u.part p = { s.part p with claim := true } ∧ u.getF F.FAB_HCTRL_CLAIM 0 = 1) ∧
      (¬ (getBits v 0 0 = 1 ∧ (s.ranksHere p).contains (s.homeRank p) = false) → u.parts = s.parts) ∧
      u = { s with regs := u.regs, parts := u.parts } ∧ ∀ o, o ≠ 0x600100 → u.word o = s.word o)

/-- What a coordinator decides, and what its messages do: `Claims.CoordinatorDecides`; `Claims.HostingMessages`. -/
def Obligations.CoordinatorAndHosting : Prop :=
  Claims.CoordinatorDecides ∧ Claims.HostingMessages

/-! ## Commit and rollback (R311 to R322) -/

/-- The fabric takes a message to position `q`: where it must leave its ring is not absent (R251). -/
abbrev Sys2Proof.Reaches (s : State) (q : Nat) : Prop := (s.nextHop s.pos q).any (fun v => !s.unreachable v) = true

/-- R312, R276: once its work of the step is done, or in resilient mode mirrored too, a module sends its OK report to every
other live member of its X ring and keeps it; a module alone in its job decides to commit at once. -/
def Sys2Proof.Claims.CommitReportsGoOut : Prop :=
  ∀ (s : State) (p : Nat), p < 8 →
    (s.mayReport p = false → exec (.commitReportSend p) s = .next s) ∧
    (s.mayReport p = true → (s.part p).reports = [] →
      (∀ d, d < 3 → ∀ q ∈ s.ringPeers p d, Reaches s q) →
      let own : CommitReport :=
        { step := s.curStep p, attempt := s.attemptNow p % 256, status := 0, cause := 0, stage := 0, count := 1, faultBn := 0,
          origin := 0, task := State.noTask, next := false, member := s.coord 0 }
      ∃ u, exec (.commitReportSend p) s = .next u ∧ (u.part p).okSent = true ∧ own ∈ (u.part p).reports ∧
        (∀ q ∈ s.ringPeers p 0, .report own q ∈ u.out ∧
          .message .carmine (s.reportMsg p own q) (State.reportBytes own) ∈ u.out) ∧
        ((∀ d, d < 3 → s.ringPeers p d = []) → s.liveCount p = 1 → u.getF F.PLN_COMMIT_STATUS_DSTATE p = 1) ∧
        (s.ringPeers p 0 ≠ [] → u.getF F.PLN_COMMIT_STATUS_DSTATE p = 0) ∧
        u = { s with parts := u.parts, out := u.out, regs := u.regs, ports := u.ports } ∧ (∀ q, q ≠ p → u.part q = s.part q) ∧
        ∀ o, o ≠ F.PLN_COMMIT_STATUS_DSTATE.off p → u.word o = s.word o)

/-- Position rank of the member a report is from. -/
def Sys2Proof.reportFrom (s : State) (r : CommitReport) : Nat :=
  let at_ (d : Nat) : Nat := if d = r.stage then r.member else s.coord d
  s.posOf (at_ 0) (at_ 1) (at_ 2)

/-- The member a report is from is reached over a port that carries flits. -/
abbrev Sys2Proof.ReportWay (s : State) (r : CommitReport) : Prop :=
  6 ≤ s.routeIn (reportFrom s r) ∨ s.portUp (s.routeIn (reportFrom s r)) = true

/-- R249, R311 to R313, R316, R317: a report that comes lands in the mailbox slot of its stage and member. An OK report of
this step and attempt is kept, and the last one of stage Z with every live module counted decides to commit; a fault
report before the decision is forwarded in its stage and every later one and rolls the step back, its re-run
`ROLL_LEAD` beats (64 at least) after `FAULT_BN`; after the decision nothing is rolled back; a fault of the next step waits;
a report of another step is stale.
Where the mailbox lies is the model's choice (assumptions 3, 54). -/
def Sys2Proof.Claims.CommitReportsComeIn : Prop :=
  ∀ (s : State) (p : Nat) (r : CommitReport), p < 8 → (s.part p).active = true → r.stage < 3 →
    r.member < s.ringSize r.stage → r.member ≠ s.coord r.stage →
    ReportWay s r →
    let a := s.getF F.PLN_COMMIT_MBOX_ADDR p + 64 * (64 * r.stage + r.member)
    let here := s.arrived .carmine (reportFrom s r) 64
    let now : Bool := r.step = s.curStep p && !r.next && r.attempt = s.attemptNow p % 256
    ((r.next = false ∧ r.step ≠ s.curStep p) →
      ∃ u, exec (.commitReportReceive p r) s = .next u ∧ u = { here with regs := u.regs } ∧
        u.getF F.FAB_STAT_STALE 0 = min (s.getF F.FAB_STAT_STALE 0 + 1) (2 ^ F.FAB_STAT_STALE.width - 1)) ∧
    (now = true ∨ (r.next = true ∧ r.step = s.curStep p + 1) → ∃ u, exec (.commitReportReceive p r) s = .next u ∧
      u.rd a 64 = State.reportBytes r ∧ (∀ b, ¬ (a ≤ b ∧ b < a + 64) → u.rd8 b = s.rd8 b) ∧ u.host = s.host ∧
      (now = true → r.status = 0 → (s.part p).okSent = false → (s.part p).reports = [] →
        u.part p = { s.part p with reports := [r] } ∧ u.regs = s.regs ∧ u.out = here.out) ∧
      (∀ (own : CommitReport) (q : Nat), now = true → r.status = 0 → (s.part p).okSent = true → (s.part p).sentStage = 2 → (s.part p).reports = [own] →
        own.stage = 2 → own.member = s.coord 2 → own.next = false → own.status = 0 → r.stage = 2 → s.ringPeers p 2 = [q] →
        r.member = s.placeOf q 2 → own.count + r.count = s.liveCount p → s.getF F.PLN_COMMIT_STATUS_DSTATE p = 0 →
        u.getF F.PLN_COMMIT_STATUS_DSTATE p = 1) ∧
      (now = true → r.status ≠ 0 → s.getF F.PLN_COMMIT_STATUS_DSTATE p = 1 → (s.part p).reports = [] →
        u.parts = s.parts ∧ u.regs = s.regs ∧ u.out = here.out) ∧
      (now = true → r.status = 1 → s.getF F.PLN_COMMIT_STATUS_DSTATE p ≠ 1 → (s.part p).reports = [] → s.rolling p = false →
        (s.part p).stopAtRollback = false →
        (u.part p).rollbacks = (s.part p).rollbacks + 1 ∧ (u.part p).okSent = false ∧ (u.part p).waiting = false ∧
        (u.part p).rerunBn = some (r.faultBn + max 64 (s.getF F.PLN_COMMIT_CFG_ROLL_LEAD p)) ∧
        u.curStep p = s.curStep p ∧ u.getF F.PLN_ROLL_BN_BN p = r.faultBn % 2 ^ 64 ∧
        u.getF F.PLN_ROLL_INFO_CAUSE p = r.cause % 2 ^ 8 ∧ u.getF F.PLN_ROLL_INFO_TASK p = r.task % 2 ^ 24 ∧
        u.getF F.PLN_ROLL_INFO_ORIGIN p = r.origin % 2 ^ 17 ∧
        u.getF F.PLN_COMMIT_STATUS_ATTEMPT p = ((s.part p).rollbacks + 1) % 2 ^ 8 ∧
        (u.getF F.PLN_COMMIT_STATUS_DSTATE p = 2 ∨ u.getF F.PLN_COMMIT_STATUS_DSTATE p = 4) ∧
        (∀ t ∈ (u.part p).done, t ∈ (s.part p).done ∧ ∃ pl, s.plan p = some pl ∧ State.isNextStep pl t = true) ∧
        (∀ d, d < 3 → r.stage ≤ d → ∀ q ∈ s.ringPeers p d, Reaches s q → .report { r with stage := d, member := s.coord d } q ∈ u.out)) ∧
      (r.next = true → r.step = s.curStep p + 1 → r.status ≠ 0 → (s.part p).reports = [] → (s.part p).nextFault = none →
        u.part p = { s.part p with reports := [r], nextFault := some r } ∧ u.regs = s.regs))

/-- R317, R319: the re-run begins at its origin, at position 0 and with a new attempt's token counters at 0; before that BN,
or while the module waits for a RESUME or a RESTART, it does not.
When owed working copies are re-derived is the model's choice (assumption 46). -/
def Sys2Proof.Claims.RerunBegins : Prop :=
  ∀ (s : State) (p : Nat), p < 8 →
    ((s.part p).active = false ∨ (s.part p).waiting = true ∨ (s.part p).rerunBn = none ∨
      (s.part p).rerunBn.any (s.bn < ·) = true → exec (.rerunOrigin p) s = .next s) ∧
    (∀ (o : Nat), (s.part p).active = true → (s.part p).waiting = false → (s.part p).rerunBn = some o → o ≤ s.bn →
      ∃ u, exec (.rerunOrigin p) s = .next u ∧ u.getF F.PLN_SPOS_POS p = 0 ∧ u.getF F.PLN_SPOS_HOLD_TOTAL p = 0 ∧
        u.getF F.PLN_COMMIT_STATUS_DSTATE p = (if (s.part p).restoring = true ∨ (s.part p).rederive ≠ [] then 4 else 0) ∧ u.curStep p = s.curStep p ∧
        (u.part p).rerunBn = none ∧ (u.part p).reports = [] ∧ (u.part p).okSent = false ∧ (u.part p).committed = false ∧
        (u.part p).rollbacks = (s.part p).rollbacks ∧
        (∀ g ∈ s.tilesOf p, (u.tile g).toks = [] ∧ (u.tile g).banks = [] ∧ (u.tile g).carry = []) ∧
        u.host = s.host ∧ ∀ q, q ≠ p → u.part q = s.part q)

/-- R315, R338, R361: at the last position of a step decided to commit, everything of the step becomes final in one beat: the
step's number goes up, the rollbacks, reports and work of the step are empty, each rank's root takes in its digest table,
every engine with a journal is given its RELEASE, delta logs of the step are committed, and a PENDING result window of a
queue the step wrote becomes READY; a plan told to stop has stopped. -/
def Sys2Proof.Claims.CommitMakesFinal : Prop :=
  ∀ (s : State) (p : Nat) (pl : Plan), p < 8 →
    (s.getF F.PLN_COMMIT_STATUS_DSTATE p ≠ 1 ∨ s.getF F.PLN_SPOS_POS p + 1 ≠ (s.part p).stepLen ∨
      (s.part p).active = false ∨ (s.part p).committed = true → exec (.commitBeat p) s = .next s) ∧
    (s.plan p = some pl → (s.part p).active = true → (s.part p).committed = false →
      s.getF F.PLN_COMMIT_STATUS_DSTATE p = 1 → s.getF F.PLN_SPOS_POS p + 1 = (s.part p).stepLen →
      (s.part p).nextFault = none → (s.part p).pendResume = none → (s.part p).resumeStep = false →
      s.curStep p + 1 < 2 ^ 64 →
      ∃ u, exec (.commitBeat p) s = .next u ∧ u.curStep p = s.curStep p + 1 ∧
        u.getF F.PLN_COMMIT_STATUS_DSTATE p = 0 ∧ u.getF F.PLN_COMMIT_STATUS_ATTEMPT p = 0 ∧ (u.part p).rollbacks = 0 ∧
        (u.part p).done = [] ∧ (u.part p).started = [] ∧ (u.part p).windows = [] ∧ (u.part p).reports = [] ∧
        (u.part p).okSent = false ∧ u.tiles = s.tiles ∧ u.host = s.host ∧ (∀ q, q ≠ p → u.part q = s.part q) ∧
        (∀ e, e < 9 → (s.och e p).journal ≠ [] → ∃ fr l, (u.och e p).frames = (s.och e p).frames ++ fr :: l ∧ fr.opc = 7 ∧
          fr.step = s.curStep p) ∧
        (∀ l ∈ (u.part p).logs, l.step = s.curStep p → l.committed = true) ∧
        (pl.params.clips = [] → s.ranksHere p = [s.homeRank p] →
          u.getF F.WCH_ROOT_ROOT p = (crc64 (leBytes 8 (s.getF F.WCH_ROOT_ROOT p) ++
            (((List.range pl.params.tensors.length).map fun t => match pl.params.tensors[t]? with
              | some e => (s.tensorDigests p (s.homeRank p) (s.curStep p) pl t e).map fun w => leBytes 8 w.toNat
              | none => []).flatten).flatten)).toNat) ∧
        ((s.part p).stopAfter = false → (u.part p).active = true ∧ (u.part p).committed = true ∧
          u.running p = s.running p ∧
          ∀ i, i < 32 → (s.queue (32 * p + i)).shadow ≠ [] →
            ((s.queue (32 * p + i)).wState = 1 ∧ (s.queue (32 * p + i)).wStep ≤ s.curStep p →
              (u.queue (32 * p + i)).wState = 2 ∧ (u.queue (32 * p + i)).wStep = s.curStep p) ∧
            ((s.queue (32 * p + i)).wState = 2 → (u.queue (32 * p + i)).wState = 2 ∧
              (u.queue (32 * p + i)).missed = min ((s.queue (32 * p + i)).missed + 1) 65535)) ∧
        ((s.part p).stopAfter = true → (u.part p).active = false ∧ u.running p = false ∧ u.getF F.PLN_SPOS_POS p = 0))

/-- Commit reports go out, come in and decide a step: `Claims.CommitReportsGoOut`; `Claims.CommitReportsComeIn`. -/
def Obligations.CommitReports : Prop :=
  Claims.CommitReportsGoOut ∧ Claims.CommitReportsComeIn

/-- A re-run begins at its origin; a commit makes a step final in one beat: `Claims.RerunBegins`;
`Claims.CommitMakesFinal`. -/
def Obligations.RerunsAndCommits : Prop :=
  Claims.RerunBegins ∧ Claims.CommitMakesFinal

/-! ## Partitions (R351, R404 to R411) -/

/-- What a reset of partition `p` leaves (R89, R224, R410, R411): its plan, queues, tiles and engines as after reset, its
masters released and idle, its keys replaced, so that what was written to its Umber quota reads as the new ones decrypt it,
its wipe under way; its allocation, its freeze log, the fault records of its tiles and all other memory stand. -/
def Sys2Proof.PartitionReset (s u : State) (p : Nat) : Prop :=
  u.running p = false ∧
  u.part p = { Part.reset with frzLog := (s.part p).frzLog, wipeGrans := (s.part p).wipeGrans, wipeAll := true } ∧
  u.getF F.PRT_STATE_FROZEN p = 0 ∧ u.getF F.PRT_STATE_READY p = 0 ∧ u.getF F.PRT_STATE_WIPING p = 1 ∧
  (∀ g ∈ s.tilesOf p, u.tile g = Tile.reset) ∧ (∀ e, e < 9 → u.och e p = OchreQ.reset) ∧
  (∀ i, i < 32 → u.queue (32 * p + i) = Queue.reset) ∧
  (∀ h, h < 32 → s.getF F.DMA_MCFG_OWNER h = p → (u.mover h).chain = none ∧ (u.mover h).frozen = false) ∧
  mget 0 u.ident.umberKeys p = Config.random s.ident.drbg ∧ u.ident.drbg = s.ident.drbg + 1 ∧
  (∀ a, a < umberBase ∨ s.ownerAt a ≠ p → u.rd8 a = s.rd8 a) ∧
  (mwf 0 s.mem = true → ∀ a ∈ s.umberSectors p, u.rd a 32 =
    xtsDec (State.keyPair (Config.random s.ident.drbg)) (State.dataUnit a) (xtsEnc (s.umberKey p) (State.dataUnit a) (s.rd a 32))) ∧
  (∀ g ∈ s.tilesOf p, g < 256 → u.word (F.TIL_FAULT_VALID.off g) = s.word (F.TIL_FAULT_VALID.off g)) ∧
  (∀ q, q < 8 → u.word (F.PRT_CLUSTERS_MASK.off q) = s.word (F.PRT_CLUSTERS_MASK.off q) ∧
    u.word (F.PRT_QUOTA_HBM_Q.off q) = s.word (F.PRT_QUOTA_HBM_Q.off q)) ∧
  (∀ i, i < 132 → u.word (F.PRT_GRAN_OWNERS.off i) = s.word (F.PRT_GRAN_OWNERS.off i))

/-- R351, R409 to R411: `PRT_RESET`, a reset of a VF or of the PF resets the partition or all of them, the PF's also the DMA
and STM blocks but for the stream links; the wipe that follows sets the partition's memory to 0 and makes it ready;
`PRT_FRZ_POP` removes the oldest freeze-log entry.
Which registers lie in the scope of a partition reset is read from R410 (assumption 68); what a sector that was never
written reads as between new keys and wipe is the model's choice (assumption 97). -/
def Obligations.PartitionResets : Prop :=
  (∀ (s : State) (f : Func) (p : Nat) (v : Word), p < 8 → Open s f (F.PRT_RESET_RESET.off p) →
    (getBits v 0 0 = 0 → exec (.prtReset f p v) s = .next s) ∧
    (getBits v 0 0 = 1 → ∃ u, exec (.prtReset f p v) s = .next u ∧ PartitionReset s u p ∧
      u.host = s.host ∧ ∀ q, q ≠ p → u.part q = s.part q)) ∧
  (∀ (s : State) (p : Nat), p < 8 →
    ∃ u, exec (.vfFlr (p + 1)) s = .next u ∧ PartitionReset s u p ∧ u.host = s.host ∧
      ∀ q, q ≠ p → u.part q = s.part q) ∧
  (∀ s : State, ∃ u, exec .pfFlr s = .next u ∧ (∀ p, p < 8 → u.running p = false ∧ (u.part p).plan = none ∧
      (u.part p).wipeAll = true ∧ u.getF F.PRT_STATE_WIPING p = 1) ∧ u.movers = [] ∧ u.queues = [] ∧ (∀ a, a < umberBase → u.rd8 a = s.rd8 a) ∧
    (∀ p, p < 8 → mget 0 u.ident.umberKeys p = Config.random (s.ident.drbg + p)) ∧
    (∀ h, h < 32 → u.getF F.DMA_MCFG_OWNER h = State.reset.getF F.DMA_MCFG_OWNER h) ∧
    ∀ k, k < 2 → u.word (F.STM_PSTAT_UP.off k) = s.word (F.STM_PSTAT_UP.off k)) ∧
  (∀ (s : State) (p : Nat), p < 8 → (s.part p).wipeAll = true → s.wipeMoves p = true →
    ∃ u, exec (.wipeComplete p) s = .next u ∧ (u.part p).wipeAll = false ∧ (u.part p).wipeGrans = [] ∧
      u.getF F.PRT_STATE_WIPING p = 0 ∧ u.getF F.PRT_STATE_READY p = 1 ∧ (∃ fn e, u.out = .msix fn e :: s.out) ∧
      (∀ i, i < 2112 → s.granOwner i = p → ∀ x, x < 2 ^ 30 → u.rd8 (State.granAddr i + x) = 0) ∧
      (∀ c ∈ s.clusters p, ∀ x, x < 8 * 0x10_0000 → u.rd8 (tileAddr (8 * c) + x) = 0) ∧
      (∀ a, u.rd8 a = s.rd8 a ∨ u.rd8 a = 0) ∧ u.host = s.host ∧ ∀ q, q ≠ p → u.part q = s.part q) ∧
  (∀ (s : State) (p i : Nat), p < 8 → (s.part p).wipeAll = false → (s.part p).wipeGrans = [i] →
    s.wipeMoves p = true →
    ∃ u, exec (.wipeComplete p) s = .next u ∧ u.part p = { s.part p with wipeGrans := [] } ∧
      (∀ x, x < 2 ^ 30 → u.rd8 (State.granAddr i + x) = 0) ∧
      (∀ a, ¬ (State.granAddr i ≤ a ∧ a < State.granAddr i + 2 ^ 30) → u.rd8 a = s.rd8 a) ∧
      u = { s with parts := u.parts, mem := u.mem } ∧ ∀ q, q ≠ p → u.part q = s.part q) ∧
  (∀ (s : State) (p : Nat), s.wipeMoves p = false → exec (.wipeComplete p) s = .next s) ∧
  (∀ (s : State) (f : Func) (p : Nat) (v : Word), p < 8 → Open s f (F.PRT_FRZ_POP_POP.off p) → getBits v 0 0 = 1 →
    ∃ u, exec (.prtFrzPop f p v) s = .next u ∧ u.part p = { s.part p with frzLog := (s.part p).frzLog.drop 1 } ∧
      u = { s with parts := u.parts } ∧ ∀ q, q ≠ p → u.part q = s.part q)

/-- R405, R406: a write of `PRT_GRAN` gives a free granule to a partition within its quota and frees one of a partition that
does not run, which is then wiped; a granule of a running partition, or one that goes from partition to partition, has
the whole write discarded and logged. `PRT_CLUSTERS` takes a mask that no other partition shares while the partition
does not run, and wipes each cluster that changes; `PRT_QUOTA` takes its value, and `OVER_QUOTA` shows an excess.
That owner values 8 to 14 are discarded is read from R405 (assumption 70). -/
def Obligations.PartitionAllocation : Prop :=
  (∀ (s : State) (f : Func) (i m a b : Nat) (v : Word), i < 132 → m < 16 → Open s f (F.PRT_GRAN_OWNERS.off i) →
    (∀ k, k < 16 → k ≠ m → getBits v (4 * k + 3) (4 * k) = s.granOwner (16 * i + k)) →
    s.granOwner (16 * i + m) = a → getBits v (4 * m + 3) (4 * m) = b →
    let h := (s.countUsed b).1
    let w := (s.countUsed b).2
    (a = 15 → b < 8 → s.granWiping (16 * i + m) = false →
      (if 16 * i + m < 576 then h + 1 ≤ s.getF F.PRT_QUOTA_HBM_Q b ∧ w ≤ s.getF F.PRT_QUOTA_UMB_Q b
       else h ≤ s.getF F.PRT_QUOTA_HBM_Q b ∧ w + 1 ≤ s.getF F.PRT_QUOTA_UMB_Q b) →
      ∃ u, exec (.prtGranWrite f i v) s = .next u ∧ u.granOwner (16 * i + m) = b ∧
        (∀ j, j < 2112 → j ≠ 16 * i + m → u.granOwner j = s.granOwner j) ∧ u = { s with regs := u.regs }) ∧
    (a < 8 → b = 15 → s.running a = false →
      ∃ u, exec (.prtGranWrite f i v) s = .next u ∧ u.granOwner (16 * i + m) = 15 ∧
        (∀ j, j < 2112 → j ≠ 16 * i + m → u.granOwner j = s.granOwner j) ∧
        u.part a = { s.part a with wipeGrans := (s.part a).wipeGrans ++ [16 * i + m] } ∧ MemSame s u ∧
        ∀ q, q ≠ a → u.part q = s.part q) ∧
    (a < 8 → b ≠ a → (b ≠ 15 ∨ s.running a = true) →
      ∃ u, exec (.prtGranWrite f i v) s = .next u ∧ u = s.genErr f 1 (F.PRT_GRAN_OWNERS.off i) ∧
        (∀ j, j < 2112 → u.granOwner j = s.granOwner j) ∧ u.parts = s.parts ∧
        u.getF F.GEN_ERR_DISCARD 0 = min (s.getF F.GEN_ERR_DISCARD 0 + 1) (2 ^ F.GEN_ERR_DISCARD.width - 1))) ∧
  (∀ (s : State) (f : Func) (p : Nat) (v : Word), p < 8 → Open s f (F.PRT_CLUSTERS_MASK.off p) →
    let new := getBits v 31 0
    let old := s.getF F.PRT_CLUSTERS_MASK p
    let ok : Bool := (List.range 8).all (fun q => q = p || s.getF F.PRT_CLUSTERS_MASK q &&& new = 0) && (new = old || !s.running p)
    (ok = true → ∃ u, exec (.prtClustersWrite f p v) s = .next u ∧ u.getF F.PRT_CLUSTERS_MASK p = new ∧
      (∀ q, q < 8 → q ≠ p → u.getF F.PRT_CLUSTERS_MASK q = s.getF F.PRT_CLUSTERS_MASK q) ∧
      (∀ c, c < 32 → new.testBit c ≠ old.testBit c → (∀ x, x < 8 * 0x10_0000 → u.rd8 (tileAddr (8 * c) + x) = 0) ∧
        ∀ k, k < 8 → u.tile (8 * c + k) = Tile.reset) ∧
      (∀ c, c < 32 → new.testBit c = old.testBit c → ∀ k, k < 8 → u.tile (8 * c + k) = s.tile (8 * c + k)) ∧
      u = { s with regs := u.regs, mem := u.mem, tiles := u.tiles, cmovers := u.cmovers, history := u.history }) ∧
    (ok = false → exec (.prtClustersWrite f p v) s = .next (s.genErr f 1 (F.PRT_CLUSTERS_MASK.off p)))) ∧
  (∀ (s : State) (f : Func) (p : Nat) (v : Word), p < 8 → Open s f (F.PRT_QUOTA_HBM_Q.off p) →
    ∃ u, exec (.prtQuotaWrite f p v) s = .next u ∧ u.getF F.PRT_QUOTA_HBM_Q p = getBits v 9 0 ∧
      u.getF F.PRT_QUOTA_UMB_Q p = getBits v 42 32 ∧ u.getF F.PRT_STATE_HBM_USED p = (s.countUsed p).1 ∧
      u.getF F.PRT_STATE_OVER_QUOTA p =
        (if getBits v 9 0 < (s.countUsed p).1 ∨ getBits v 42 32 < (s.countUsed p).2 then 1 else 0) ∧
      RegsOnly (fun o => o = F.PRT_QUOTA_HBM_Q.off p ∨ o = F.PRT_STATE_READY.off p) s u)

/-! ## The DOE mailbox (R352, R353, R391, R400 to R403, R412) -/

/-- R352, R353, R402, R403: of a stream the module holds, GET_CHAIN gives the chain and begins an exchange, KEM_KEY gives the
ciphertext and the signature over the exchange and has the new keys ready, KEY_GO installs them as a key set and transmits with
it, and STOP turns the stream off; out of order they are answered with error 1, of a stream not held with error 2.
GET_REPORT and GET_NONCE answer in one step.
Which streams the host has configured, and every signature and key, is opaque (assumptions 13, 16). -/
def Obligations.MailboxAnswers : Prop :=
  ∀ (s : State) (i : Nat), s.doeOpen = true →
    let x := s.ideStream i
    let held : Bool := Config.ideHeld i
    (∃ u, exec (.getChain i) s = .next u ∧
      (held = true → u.out = .doe 0x81 i s.chain :: s.out ∧ u.ideStream i = { x with stage := 1 }) ∧
      (held = false → u.out = .doe 0xFF i [2] :: s.out ∧ u.ide = s.ide) ∧ u = { s with ide := u.ide, out := u.out } ∧
      ∀ j, j ≠ i → u.ideStream j = s.ideStream j) ∧
    (∀ (ek : List Byte) (n : BitVec 256), s.flag F.SEC_STATE_RNGFAIL 0 = false → ek.length = 1568 →
      let ct := (Config.kemEncaps ek s.ident.drbg).1
      let t := s.transcript i i ek n ct
      let sig := s.aliasSign t
      ∃ u, exec (.kemKey i ek n) s = .next u ∧
        (held = true → x.stage = 1 → u.out = .doe 0x82 i (ct ++ leBytes 2 sig.length ++ sig) :: s.out ∧
          (u.ideStream i).stage = 2 ∧ (u.ideStream i).pendingKeys =
            BitVec.ofNat 1536 (leNat (shakeBytes 192 ((Config.kemEncaps ek s.ident.drbg).2 ++ t))) ∧ (u.ideStream i).sets = x.sets ∧ u.ident = { s.ident with drbg := s.ident.drbg + 1 }) ∧
        (held = true → x.stage ≠ 1 → u.out = .doe 0xFF i [1] :: s.out ∧ u.ideStream i = { x with stage := 0 } ∧ u.ident = s.ident) ∧
        u = { s with ide := u.ide, ident := u.ident, out := u.out } ∧ ∀ j, j ≠ i → u.ideStream j = s.ideStream j) ∧
    (∀ (k : Nat), k ≤ 1 → ∃ u, exec (.keyGo i k) s = .next u ∧
      (held = true → x.stage = 2 → u.out = .doe 0x83 i [] :: s.out ∧ (u.ideStream i).tx = some k ∧
        (k, x.pendingKeys) ∈ (u.ideStream i).sets ∧ (∀ y ∈ x.sets, y.1 ≠ k → y ∈ (u.ideStream i).sets)) ∧
      (held = true → x.stage ≠ 2 → u.out = .doe 0xFF i [1] :: s.out ∧ u.ideStream i = { x with stage := 0 }) ∧
      u = { s with ide := u.ide, out := u.out } ∧ ∀ j, j ≠ i → u.ideStream j = s.ideStream j) ∧
    (∃ u, exec (.ideStop i) s = .next u ∧
      (held = true → u.out = .doe 0x84 i [] :: s.out ∧ (u.ideStream i).sets = [] ∧ (u.ideStream i).tx = none) ∧
      u = { s with ide := u.ide, out := u.out } ∧ ∀ j, j ≠ i → u.ideStream j = s.ideStream j) ∧
    (∀ (n : BitVec 512), exec (.getReport n) s = .next { s with out := .doe 0x85 0 (s.report n) :: s.out }) ∧
    (s.flag F.SEC_STATE_RNGFAIL 0 = false → ∃ u n, exec .getNonce s = .next u ∧
      u.out = .doe 0x86 0 (leBytes 32 n.toNat) :: s.out ∧
      u.ident = { s.ident with nonce := some n, drbg := s.ident.drbg + 1 } ∧ u = { s with ident := u.ident, out := u.out })

/-- The alias certificate that a module in a state has issued (R391): of its life cycle, firmware, owner and alias key, signed
by the DIK. -/
def Sys2Proof.aliasCertOf (u : State) : List Byte :=
  signCert u.ident.dikSeed (certBody 4 u.ident.lc u.runSvn u.serialBytes (shake512 (Config.falconPublic u.ident.dikSeed))
    u.runMeas (u.activeOwner.getD 0) (Config.falconPublic u.ident.aliasSeed))

/-- What a change to life-cycle state `lc` leaves (R390, R391, R412): the state, a new alias key and certificate, and every
memory inside the lid empty. -/
def Sys2Proof.LifeCycle (s u : State) (lc : Nat) : Prop :=
  u.ident.lc = lc ∧ u.getF F.SEC_STATE_LC 0 = lc ∧ u.ident.aliasSeed = aliasSeedOf u.ident.aliasRoot lc u.runMeas ∧
  u.ident.aliasCert = aliasCertOf u ∧ u.ident.running = s.ident.running ∧ ∀ a, u.rd8 a = 0

/-- R389, R400, R401, R412: an owner command with the nonce last given, the state it is for and the signature it needs does
what it says and is answered with success: SET_OWNER revokes the active slot and fills the next, RELEASE_OWNER revokes it,
DEPLOY, RETURN and SCRAP go to the next life-cycle state, which empties every memory inside the lid. It is refused with 6 in
another state, 5 for the nonce or the signature, 8 while a plan runs, 7 with the four slots used; the nonce serves once.
Provisioning leaves MANUFACTURE.
The order of the refusals is the model's choice (assumption 71). -/
def Obligations.OwnerAndLifeCycle : Prop :=
  (∀ (s : State) (c : OwnerCmd) (pre : List OwnerSlot) (k : BitVec 512), s.doeOpen = true →
    s.ident.nonce = some c.nonce → c.sigOk = true → s.ident.lc = 2 → (∀ o ∈ pre, o.revoked = true) →
    s.ident.slots = pre ++ [⟨k, false⟩] →
    (pre.length < 3 → shake512 c.key ≠ k → ∃ u, exec (.setOwner c) s = .next u ∧
      u.ident.slots = pre ++ [⟨k, true⟩, ⟨shake512 c.key, false⟩] ∧ u.ident.flashOwner = some c.key ∧
      u.ident.aliasCert = aliasCertOf u ∧ u.ident.nonce = none ∧ u.getF F.SEC_STATE_OWNER 0 = 1 ∧
      u.getF F.SEC_STATE_SLOTS 0 = pre.length + 2 ∧ u.out = .doe 0x87 0 [0] :: s.out ∧
      u = { s with ident := u.ident, regs := u.regs, out := u.out }) ∧
    (shake512 c.key = k → exec (.setOwner c) s =
      .next { s with ident := { s.ident with nonce := none, flashOwner := some c.key }, out := .doe 0x87 0 [0] :: s.out }) ∧
    (pre.length = 3 → shake512 c.key ≠ k → exec (.setOwner c) s =
      .next { s with ident := { s.ident with nonce := none }, out := .doe 0xFF 0 [7] :: s.out }) ∧
    (∃ u, exec (.releaseOwner c) s = .next u ∧ u.ident.slots = pre ++ [⟨k, true⟩] ∧ u.ident.aliasCert = aliasCertOf u ∧
      u.ident.nonce = none ∧ u.getF F.SEC_STATE_OWNER 0 = 0 ∧ u.out = .doe 0x87 0 [0] :: s.out ∧
      u = { s with ident := u.ident, regs := u.regs, out := u.out }) ∧
    (s.anyRun = false → ∃ u, exec (.returnLc c) s = .next u ∧ u.ident.slots = pre ++ [⟨k, true⟩] ∧
      LifeCycle s u 3 ∧ u.out.head? = some (.doe 0x87 0 [0]))) ∧
  (∀ (s : State) (c : OwnerCmd), s.doeOpen = true → s.ident.nonce = some c.nonce → s.anyRun = false →
    (s.ident.lc = 1 → ∃ u, exec (.deploy c) s = .next u ∧ LifeCycle s u 2 ∧ u.ident.slots = s.ident.slots ∧
      u.ident.secret = s.ident.secret ∧ u.out.head? = some (.doe 0x87 0 [0]) ∧ u.ident.nonce = none) ∧
    (c.sigOk = true → s.ident.lc = 3 → ∃ u, exec (.scrap c) s = .next u ∧ LifeCycle s u 4 ∧
      u.ident.secret = BitVec.allOnes 256 ∧ u.out.head? = some (.doe 0x87 0 [0]))) ∧
  (∀ (s : State) (c : OwnerCmd) (lc : Nat) (i : Instr), s.doeOpen = true →
    (i = .setOwner c ∧ lc = 2) ∨ (i = .releaseOwner c ∧ lc = 2) ∨ (i = .returnLc c ∧ lc = 2) ∨ (i = .deploy c ∧ lc = 1) ∨
      (i = .scrap c ∧ lc = 3) →
    let answer (code : Byte) : State :=
      { s with ident := { s.ident with nonce := none }, out := .doe 0xFF 0 [code] :: s.out }
    (s.ident.lc ≠ lc → exec i s = .next (answer 6)) ∧
    (s.ident.lc = lc → s.ident.nonce ≠ some c.nonce → exec i s = .next (answer 5)) ∧
    (s.ident.lc = lc → s.ident.nonce = some c.nonce → c.sigOk = true → s.anyRun = true →
      i ≠ .setOwner c → i ≠ .releaseOwner c → exec i s = .next (answer 8))) ∧
  (∀ (s : State) (dik : DikCert), s.ident.lc = 0 → s.anyRun = false → s.flag F.SEC_STATE_RNGFAIL 0 = false →
    ∃ u, exec (.provision dik) s = .next u ∧
      u.ident.secret = (if s.ident.secret = 0 then (Config.random s.ident.drbg).setWidth 256 else s.ident.secret) ∧
      (s.ident.secret = 0 → u.ident.dikSeed = dikSeedOf u.ident.secret ∧ u.ident.aliasRoot = aliasRootOf u.ident.secret) ∧
      u.ident.dikCert = (if dik.ok = true then some dik.cert else s.ident.dikCert) ∧ (dik.ok = true → LifeCycle s u 1) ∧
      (dik.ok = false → u.ident.lc = 0 ∧ u = { s with ident := u.ident }))

/-! ## Boot and firmware (R388, R394 to R399, R437) -/

/-- R390, R391, R395, R396: with a valid image in the flash and no request for recovery a cold boot measures it, derives the
keys, runs it, trains the memory, sets every memory to 0 and is ready; an image that is not valid, or a request, leads to
recovery; a scrapped module stops. In recovery a valid pushed image is programmed and boots (R399).
What the flash holds at first is the model's choice (assumption 73). -/
def Sys2Proof.Claims.ColdBootRuns : Prop :=
  (∀ (s : State) (fl : BootFlash) (img : List Byte) (tr : List Bool) (ls : List Nat), s.power.booting = true →
    s.flag F.GEN_STATUS_RECOVERY 0 = false → (s.ident.flash = some img ∨ (s.ident.flash = none ∧ fl.image = img)) →
    (s.ident.lc = 4 → ∃ u, exec (.coldBoot fl tr none ls) s = .next u ∧ u.power.booting = false ∧
      u.getF F.GEN_STATUS_READY 0 = s.getF F.GEN_STATUS_READY 0 ∧ u.ident.running = s.ident.running ∧ MemSame s u) ∧
    (s.ident.lc ≠ 4 → (s.flag F.SEC_REC_CTRL_REQ 0 = true ∨ (s.imageCode img fl.check).isSome = true) →
      ∃ u, exec (.coldBoot fl tr none ls) s = .next u ∧ u.flag F.GEN_STATUS_RECOVERY 0 = true ∧
        u.flag F.SEC_REC_CTRL_REQ 0 = false ∧ u.getF F.GEN_STATUS_READY 0 = s.getF F.GEN_STATUS_READY 0 ∧
        u.ident.running = s.ident.running ∧ MemSame s u) ∧
    (s.ident.lc ≠ 4 → s.flag F.SEC_REC_CTRL_REQ 0 = false → s.imageCode img fl.check = none →
      ∃ u, exec (.coldBoot fl tr none ls) s = .next u ∧ u.flag F.GEN_STATUS_READY 0 = true ∧
        u.power.booting = false ∧ u.ident.running = some img ∧ u.getF F.SEC_STATE_SVN 0 = imgSvn img ∧ (∀ a, u.rd8 a = 0) ∧
        (∀ i, i < 8 → u.getF F.SEC_MEAS_MEAS i = (imgMeas img).toNat / 2 ^ (64 * i) % 2 ^ 64) ∧
        (s.ident.secret ≠ 0 → u.ident.dikSeed = dikSeedOf s.ident.secret ∧
          u.ident.aliasSeed = aliasSeedOf (aliasRootOf s.ident.secret) s.ident.lc (imgMeas img) ∧
          u.ident.aliasCert = aliasCertOf u) ∧
        (fl.ownerLost = true → u.ident.flashOwner = none) ∧ (∀ p, p < 8 → u.getF F.PRT_STATE_READY p = 1) ∧
        (∀ i, i < 20 → u.unitState i = if tr.getD i false = true then 2 else 5))) ∧
  (∀ (s : State) (f : Func) (v : Word) (c : SigCheck), Open s f F.SEC_FW_CTRL_GO.base → getBits v 0 0 = 1 →
    s.flag F.GEN_STATUS_RECOVERY 0 = true → s.getF F.SEC_FW_LEN_LEN 0 ≤ 2 ^ 24 →
    let img := (List.range (s.getF F.SEC_FW_LEN_LEN 0)).map (mget 0 s.sram)
    (∀ code, s.imageCode img c = some code → exec (.recoveryGo f v c true) s =
      .next (s.putF F.SEC_FW_STATUS_CODE 0 code)) ∧
    (s.imageCode img c = none →
      (∃ u, exec (.recoveryGo f v c true) s = .next u ∧ u.flag F.GEN_STATUS_READY 0 = true ∧
        u.flag F.GEN_STATUS_RECOVERY 0 = false ∧ u.flag F.SEC_STATE_RECOVERED 0 = true ∧ u.ident.running = some img ∧
        u.ident.flash = some img ∧ ∀ a, u.rd8 a = 0) ∧
      ∃ u, exec (.recoveryGo f v c false) s = .next u ∧ u.getF F.SEC_FW_STATUS_CODE 0 = 0x13 ∧
        u.flag F.GEN_STATUS_RECOVERY 0 = true ∧ u.ident.running = s.ident.running))

/-- R388, R395, R397, R398: `GO` copies the image and starts a check; it ends with 0x10 for the header, 0x11 for the certificate
or the signature, 0x12 for an old version, 0x13 for the flash, which then holds no valid image, else 3 with the image
programmed. `SVN_COMMIT` raises the counter to the running image's version. The entropy source's failure is shown and
logged, and after 1 s fails the module, whose plans end.
The code of a version or length out of range is the model's choice (assumption 101). -/
def Sys2Proof.Claims.FirmwareAndEntropy : Prop :=
  (∀ (s : State) (f : Func) (v : Word), Open s f F.SEC_FW_CTRL_GO.base →
    let n := s.getF F.SEC_FW_LEN_LEN 0
    (getBits v 0 0 = 1 → s.flag F.GEN_STATUS_RECOVERY 0 = false → s.flag F.GEN_STATUS_READY 0 = true →
      s.ident.fwBusy = false → n ≤ 2 ^ 24 →
      ∃ u, exec (.fwUpdateGo f v) s = .next u ∧
        u.ident = { s.ident with fwBusy := true, fwImage := s.rd (s.getF F.SEC_FW_ADDR_ADDR 0) n } ∧
        u.flag F.SEC_FW_CTRL_GO 0 = true ∧ u.getF F.SEC_FW_STATUS_CODE 0 = 1 ∧
        u = { s with ident := u.ident, regs := u.regs }) ∧
    (s.ident.fwBusy = true → exec (.fwUpdateGo f v) s = .next s)) ∧
  (∀ (s : State) (c : SigCheck) (ok : Bool), s.ident.fwBusy = true →
    let img := s.ident.fwImage
    let code : Nat := if imgHeaderOk img = false then 0x10 else if c.certOk = false ∨ c.sigOk = false then 0x11
      else if imgSvn img < s.ident.counter then 0x12 else if ok = false then 0x13 else 3
    ∃ u, exec (.fwUpdateDone c ok) s = .next u ∧ u.getF F.SEC_FW_STATUS_CODE 0 = code ∧ u.ident.fwBusy = false ∧
      u.flag F.SEC_FW_CTRL_GO 0 = false ∧ (code = 3 → u.ident.flash = some img) ∧
      (code = 0x10 ∨ code = 0x11 ∨ code = 0x12 → u.ident.flash = s.ident.flash) ∧
      (code = 0x13 → ∃ x, u.ident.flash = some x ∧ imgHeaderOk x = false) ∧ u.ident.running = s.ident.running ∧
      u = { s with ident := u.ident, regs := u.regs }) ∧
  (∀ (s : State) (f : Func) (v : Word) (r : List Byte), Open s f F.SEC_FW_CTRL_SVN_COMMIT.base → getBits v 1 1 = 1 →
    s.ident.running = some r →
    ∃ u, exec (.svnCommit f v) s = .next u ∧ u.ident = { s.ident with counter := max s.ident.counter (imgSvn r) } ∧
      u.getF F.SEC_STATE_COUNTER 0 = max s.ident.counter (imgSvn r) % 2 ^ F.SEC_STATE_COUNTER.width ∧
      u = { s with ident := u.ident, regs := u.regs }) ∧
  (∀ s : State, (∃ u, exec .entropyFailure s = .next u ∧ u.flag F.SEC_STATE_RNGFAIL 0 = true ∧
      (∃ d b, (6, 0, 0, d, b) ∈ u.test.elog) ∧ u = { s with regs := u.regs, test := u.test }) ∧
    (s.flag F.SEC_STATE_RNGFAIL 0 = true → s.flag F.GEN_STATUS_FAILED 0 = false →
      ∃ u, exec .entropyFailureTimeout s = .next u ∧ u.flag F.GEN_STATUS_FAILED 0 = true ∧
        u.getF F.GEN_STATUS_FCAUSE 0 = 4 ∧ u.getF F.FAB_BYP_CLOSED 0 = 7 ∧
        (∀ k, k < 6 → s.getF F.FAB_PSTAT_STATE k ≠ 7 → u.getF F.FAB_PSTAT_STATE k = 0) ∧
        (∀ p, p < 8 → u.running p = false) ∧ u.host = s.host ∧ u.ident = s.ident ∧ MemSame s u))

/-- Cold boot, recovery, firmware update and the entropy source: `Claims.ColdBootRuns`; `Claims.FirmwareAndEntropy`. -/
def Obligations.BootAndFirmware : Prop :=
  Claims.ColdBootRuns ∧ Claims.FirmwareAndEntropy

/-! ## Host queues, movers and windows (R355 to R371, R383, R485, R488) -/

/-- R358, R360, R371: `DMA_QRING` takes a chain into an enabled queue whose mover may run it, refuses it without one and drops
it with 64 pending; an idle mover takes the first chain of its next queue, unless its partition is being wiped (R411); `DMA_QARM` arms the result window for a step;
`DMA_QABORT` gives every pending chain's first descriptor status 8 and aborts the chain that runs. -/
def Obligations.QueuesTakeChains : Prop :=
  (∀ (s : State) (f : Func) (q : Nat) (v : Word), q < 256 → Open s f (0x400_0000 + 0x1000 * q) →
    let h := s.getF F.DMA_QCFG_MOVER q
    let runs : Bool := s.flag F.DMA_QCFG_EN q && s.moverFor h q && !(s.mover h).frozen
    ∃ u, exec (.dmaQring f q v) s = .next u ∧
      (runs = true → s.getF F.DMA_QSTATUS_PENDING q < 64 →
        u.queue q = { s.queue q with chains := (s.queue q).chains ++ [v] } ∧
        u.getF F.DMA_QSTATUS_PENDING q = s.getF F.DMA_QSTATUS_PENDING q + 1) ∧
      (runs = true → 64 ≤ s.getF F.DMA_QSTATUS_PENDING q → u.flag F.DMA_QSTATUS_OVF q = true ∧ u.queues = s.queues) ∧
      (runs = false → u.flag F.DMA_QSTATUS_REFUSED q = true ∧ u.queues = s.queues) ∧ u.mem = s.mem ∧ u.host = s.host ∧
      u.movers = s.movers ∧ u.parts = s.parts ∧ ∀ j, j ≠ q → u.queue j = s.queue j) ∧
  (∀ (s : State) (h q : Nat) (a : Word) (rest : List Word), h < 32 → (s.mover h).chain = none → (s.mover h).frozen = false →
    s.nextQueue h = some q → (s.queue q).chains = a :: rest →
    (s.flag F.PRT_STATE_WIPING (s.getF F.DMA_MCFG_OWNER h) = true → exec (.moverChainStart h) s = .next s) ∧
    (s.flag F.PRT_STATE_WIPING (s.getF F.DMA_MCFG_OWNER h) = false → ∃ u, exec (.moverChainStart h) s = .next u ∧ u.queue q = { s.queue q with chains := rest } ∧
      (u.mover h).lastQ = some q ∧ (u.mover h).chain = some { queue := some q, part := q / 32, task := State.noTask, addr := a,
                                                               desc := none, written := 0, abort := false } ∧
      u.getF F.DMA_MSTAT_STATE h = 1 ∧ u = { s with queues := u.queues, movers := u.movers, regs := u.regs } ∧
      (∀ j, j ≠ q → u.queue j = s.queue j) ∧ (∀ j, j ≠ h → u.mover j = s.mover j) ∧
      ∀ o, o ≠ F.DMA_MSTAT_STATE.off h → u.word o = s.word o)) ∧
  (∀ (s : State) (f : Func) (q : Nat) (v : Word), q < 256 → Open s f (0x400_0008 + 0x1000 * q) →
    ∃ u, exec (.dmaQarm f q v) s = .next u ∧ (u.queue q).wState = 1 ∧ (u.queue q).wStep = v.toNat ∧
      (u.queue q).chains = (s.queue q).chains ∧
      ((s.queue q).wState ≠ 1 → (u.queue q).wLen = 0 ∧ (u.queue q).wDigest = 0) ∧
      u = { s with queues := u.queues } ∧ ∀ j, j ≠ q → u.queue j = s.queue j) ∧
  (∀ (s : State) (f : Func) (q : Nat) (a : Word), q < 256 → Open s f (0x400_0010 + 0x1000 * q) → (s.queue q).chains = [a] →
    isHost a = true → spaceAddr a + 64 ≤ 2 ^ 63 → 1 ≤ s.getF F.DMA_QSTATUS_PENDING q →
    ∃ u, exec (.dmaQabort f q) s = .next u ∧ u.queue q = { s.queue q with chains := [] } ∧
      u.hrd (spaceAddr a + 0x3A) 1 = [8] ∧ (∀ b, b ≠ spaceAddr a + 0x3A → u.hrd8 b = s.hrd8 b) ∧
      u.getF F.DMA_QSTATUS_PENDING q = s.getF F.DMA_QSTATUS_PENDING q - 1 ∧ u.mem = s.mem ∧
      (∀ (h : Nat) (k : Chain), h < 32 → (s.mover h).chain = some k → k.queue = some q →
        (∀ j, j < 32 → j ≠ h → (s.mover j).chain.bind (·.queue) ≠ some q) →
        (u.mover h).chain = some { k with abort := true } ∧ u.out = s.out) ∧
      ((∀ h, h < 32 → (s.mover h).chain.bind (·.queue) ≠ some q) →
        (∃ fn e, u.out = .msix fn e :: s.out) ∧ u.movers = s.movers) ∧
      ∀ j, j ≠ q → u.queue j = s.queue j)

/-- Mover `h`'s chain of queue `q` has stopped with status `st` in its descriptor at host address `a`, one interrupt told. -/
def Sys2Proof.ChainStopped (s u : State) (h q a st : Nat) : Prop :=
  (u.mover h).chain = none ∧ u.getF F.DMA_QSTATUS_LAST q = st ∧ u.hrd (a + 0x3A) 1 = [BitVec.ofNat 8 st] ∧
    u.getF F.DMA_QSTATUS_PENDING q = s.getF F.DMA_QSTATUS_PENDING q - 1 ∧ (∃ fn e, u.out = .msix fn e :: s.out)

/-- R363 to R369, R371: a host mover checks a descriptor before it moves a byte, and one that fails its form, space or overlap
checks stops the chain with the first one's status; one that passes moves its bytes whole, is written back DONE, and the chain goes on at `NEXT` or ends; an aborted one
stops with status 2, one that meets a completion error with 6. A refused access freezes the mover too; accesses to a memory
unit without a slot of the partition wait (R218). The plan checker is off (R53).
That a descriptor's bytes move whole at its end is the model's choice (assumption 25), and so are the bytes an abort
has moved (assumption 2). -/
def Sys2Proof.Claims.HostMoversRunDescriptors : Prop :=
  ∀ (s : State) (h q : Nat) (k : Chain), h < 32 → (s.mover h).chain = some k → k.queue = some q → (s.mover h).frozen = false →
    q < 256 → isHost k.addr = true → spaceAddr k.addr + 64 ≤ 2 ^ 63 → getBits k.addr 5 0 = 0 →
    1 ≤ s.getF F.DMA_QSTATUS_PENDING q → s.checkerOn k.part = false →
    let a := spaceAddr k.addr
    let d := readMDesc (s.descBytes k.addr)
    (k.desc = none → k.abort = false →
      ∃ u, exec (.descriptorStart h) s = .next u ∧ MemSame s u ∧
        (s.descStatus false k.part d = none → (u.mover h).chain = some { k with desc := some d, written := 0 } ∧
          u.host = s.host ∧ u.queues = s.queues) ∧
        (∀ st, s.descStatus false k.part d = some (st, none) → ChainStopped s u h q a st) ∧
        (∀ x, s.descStatus false k.part d = some (5, some x) → (u.mover h).frozen = true ∧ (u.mover h).chain = none ∧
          u.getF F.DMA_QSTATUS_LAST q = 5 ∧ u.hrd (a + 0x3A) 1 = [5] ∧
          u.getF F.DMA_QSTATUS_PENDING q = s.getF F.DMA_QSTATUS_PENDING q - 1)) ∧
    (∀ (e : MDesc), k.desc = some e → s.descSlotted k.part e = false → exec (.descriptorComplete h) s = .next s) ∧
    (∀ (e : MDesc), k.desc = some e → k.abort = false → e.scount = 1 → e.dcount = 1 → e.slen = e.dlen →
      isHost e.src = true → isHost e.dst = false → spaceAddr e.dst + e.dlen ≤ resultBase →
      s.descSlotted k.part e = true →
      ∃ u, exec (.descriptorComplete h) s = .next u ∧
        u.rd (spaceAddr e.dst) e.dlen = s.hrd (spaceAddr e.src) e.slen ∧
        (∀ b, ¬ (spaceAddr e.dst ≤ b ∧ b < spaceAddr e.dst + e.dlen) → u.rd8 b = s.rd8 b) ∧
        u.hrd (a + 0x3A) 6 = [1, 0, 0, 0, 0, 0] ∧ (∀ b, ¬ (a + 0x3A ≤ b ∧ b < a + 0x40) → u.hrd8 b = s.hrd8 b) ∧
        u.getF F.DMA_QSTATUS_LAST q = 1 ∧
        (e.next ≠ 0 → (u.mover h).chain = some { k with addr := e.next, desc := none, written := e.total } ∧
          u.getF F.DMA_QSTATUS_PENDING q = s.getF F.DMA_QSTATUS_PENDING q) ∧
        (e.next = 0 → (u.mover h).chain = none ∧
          u.getF F.DMA_QSTATUS_PENDING q = s.getF F.DMA_QSTATUS_PENDING q - 1) ∧
        ((∃ fn e', u.out = .msix fn e' :: s.out) ↔ natBits e.ctrl 0 0 = 1)) ∧
    (∀ (e : MDesc), k.desc = some e → isHost e.dst = false →
      (k.abort = true → ∃ u, exec (.abortComplete h) s = .next u ∧ ChainStopped s u h q a 2) ∧
      (k.abort = false → isHost e.src = true → ∃ u, exec (.hostCompletionError h) s = .next u ∧ ChainStopped s u h q a 6))

/-- R73, R366, R485: a cluster-mover channel checks the descriptor of its first chain, freezes on an access refused, and moves
the bytes of one that passes, once the memory units let it in (R218). The plan checker is off (R53).
That a descriptor's bytes move whole at its end is the model's choice (assumption 25). -/
def Sys2Proof.Claims.ChannelsRunDescriptors : Prop :=
  ∀ (s : State) (c : Nat) (k : CChain) (rest : List CChain), c < 256 → (s.cmover c).chains = k :: rest → s.checkerOn k.part = false →
    (k.addr ≠ 0 → k.desc = none → (s.cmover c).frozen = false → s.ownsRange k.part k.addr 64 false = true →
      s.descStatus true k.part (readMDesc (s.rd k.addr 64)) = none →
      ∃ u, exec (.descriptorStart (32 + c)) s = .next u ∧
        u.cmover c = { s.cmover c with chains := { k with desc := some (readMDesc (s.rd k.addr 64)), since := none } :: rest } ∧
        u = { s with cmovers := u.cmovers } ∧ ∀ j, j ≠ c → u.cmover j = s.cmover j) ∧
    (k.addr ≠ 0 → k.desc = none → (s.cmover c).frozen = false → s.ownsRange k.part k.addr 64 false = false →
      ∃ u, exec (.descriptorStart (32 + c)) s = .next u ∧ (u.cmover c).frozen = true ∧ MemSame s u ∧ u.host = s.host) ∧
    (∀ (d : MDesc), k.desc = some d → d.scount = 1 → d.dcount = 1 → d.slen = d.dlen → isHost d.src = false →
      isHost d.dst = false → spaceAddr d.dst + d.dlen ≤ resultBase → s.descSlotted k.part d = true →
      ∃ u, exec (.descriptorComplete (32 + c)) s = .next u ∧
        u.rd (spaceAddr d.dst) d.dlen = s.rd (spaceAddr d.src) d.slen ∧
        (∀ b, ¬ (spaceAddr d.dst ≤ b ∧ b < spaceAddr d.dst + d.dlen) → u.rd8 b = s.rd8 b) ∧
        u.cmover c = { s.cmover c with chains := { k with addr := spaceAddr d.next, desc := none } :: rest } ∧
        u = { s with cmovers := u.cmovers, mem := u.mem, history := u.history } ∧ ∀ j, j ≠ c → u.cmover j = s.cmover j)

/-- R355, R356, R383, R488: an access through an enabled window reads or writes device memory at the window's base; one
outside the partition freezes the window, and a window that is frozen or disabled, or of a partition that is being wiped,
answers all ones. In recovery the PF reads and writes the boot SRAM there (R399). `DMA_MCFG` takes its
value while the mover is idle and no owner's plan runs, and else is discarded and logged.
The number of a freeze-log type is read from R408 (assumption 23). -/
def Obligations.WindowsAndMoverSetUp : Prop :=
  (∀ (s : State) (f : Func) (off w o n : Nat) (b : List Byte), Taken s f → State.barWindow f off = some (w, o) →
    s.flag F.GEN_STATUS_RECOVERY 0 = false → s.flag F.PRT_STATE_WIPING (w / 2) = false → s.blockOpen 0x40_0000 = true → s.flag F.DMA_WIN_EN w = true → s.flag F.DMA_WIN_FROZEN w = false →
    let a := s.getF F.DMA_WIN_BASE w * 2 ^ 16 + o
    (a + b.length ≤ resultBase → s.ownsRange (w / 2) a b.length true = true →
      ∃ u, exec (.bar2WindowAccess f off (some b) n) s = .next u ∧ u.rd a b.length = b ∧
        (∀ x, ¬ (a ≤ x ∧ x < a + b.length) → u.rd8 x = s.rd8 x) ∧ u.out = s.out ∧ u.host = s.host ∧
        u.parts = s.parts ∧ u.queues = s.queues) ∧
    (a + n ≤ 2 ^ 48 → s.ownsRange (w / 2) a n false = true →
      ∃ u, exec (.bar2WindowAccess f off none n) s = .next u ∧ u.out = .winData off (s.rd a n) :: s.out ∧
        u.mem = s.mem ∧ u.host = s.host ∧ u.parts = s.parts) ∧
    (a + n ≤ 2 ^ 48 → s.ownsRange (w / 2) a n false = false →
      ∃ u, exec (.bar2WindowAccess f off none n) s = .next u ∧ u.flag F.DMA_WIN_FROZEN w = true ∧
        u.out.head? = some (.winData off (List.replicate n 0xFF)) ∧ MemSame s u ∧
        ((s.part (w / 2)).frzLog.length < 64 → ∃ x, (u.part (w / 2)).frzLog = (s.part (w / 2)).frzLog ++ [x] ∧
          x.type = 5 ∧ x.index = w ∧ x.write = false))) ∧
  (∀ (s : State) (f : Func) (off w o n : Nat), Taken s f → State.barWindow f off = some (w, o) →
    s.flag F.GEN_STATUS_RECOVERY 0 = false →
    s.flag F.DMA_WIN_EN w = false ∨ s.flag F.DMA_WIN_FROZEN w = true ∨ s.flag F.PRT_STATE_WIPING (w / 2) = true →
    exec (.bar2WindowAccess f off none n) s = .next { s with out := .winData off (List.replicate n 0xFF) :: s.out } ∧
    ∀ (b : List Byte), exec (.bar2WindowAccess f off (some b) n) s = .next s) ∧
  (∀ (s : State) (off n : Nat) (b : List Byte), Taken s .pf → s.flag F.GEN_STATUS_RECOVERY 0 = true →
    s.getF F.PWR_STAT_STATE 0 ≠ 4 → s.power.perst = false →
    (off + b.length ≤ 2 ^ 24 → ∃ u, exec (.bar2WindowAccess .pf off (some b) n) s = .next u ∧
      (∀ i, i < b.length → mget 0 u.sram (off + i) = b.getD i 0) ∧
      (∀ x, ¬ (off ≤ x ∧ x < off + b.length) → mget 0 u.sram x = mget 0 s.sram x) ∧ u = { s with sram := u.sram }) ∧
    (off + n ≤ 2 ^ 24 → exec (.bar2WindowAccess .pf off none n) s =
      .next { s with out := .winData off ((List.range n).map fun i => mget 0 s.sram (off + i)) :: s.out })) ∧
  (∀ (s : State) (f : Func) (h : Nat) (v : Word), h < 32 → Open s f (F.DMA_MCFG_EN.off h) →
    ((s.mover h).chain = none → s.getF F.DMA_MSTAT_STATE h = 0 → (∀ p, p < 8 → s.running p = false ∧ s.plan p = none) →
      ∃ u, exec (.dmaMcfgWrite f h v) s = .next u ∧ u.getF F.DMA_MCFG_EN h = getBits v 0 0 ∧
        u.getF F.DMA_MCFG_OWNER h = getBits v 10 8 ∧ u.getF F.DMA_MCFG_MODE h = getBits v 11 11 ∧
        RegsOnly (fun o => o = F.DMA_MCFG_EN.off h) s u) ∧
    ((s.mover h).chain.isSome = true ∨ s.running (s.getF F.DMA_MCFG_OWNER h) = true →
      exec (.dmaMcfgWrite f h v) s = .next (s.genErr f 1 (F.DMA_MCFG_EN.off h))))

/-- Host movers and cluster-mover channels check and move descriptors: `Claims.HostMoversRunDescriptors`;
`Claims.ChannelsRunDescriptors`. -/
def Obligations.MoversRunDescriptors : Prop :=
  Claims.HostMoversRunDescriptors ∧ Claims.ChannelsRunDescriptors

/-! ## The stream port (R49, R50, R372 to R386, R486) -/

/-- A frame's bytes are heard by a port whose link is up as a stream frame of a type, with header `h` and payload `d`. -/
abbrev Sys2Proof.Heard (s : State) (k : Nat) (b : List Byte) (h : StreamHdr) (d : List Byte) (type : Nat) : Prop :=
  s.linkUp k = true ∧ (s.hear k b).2 = some (h, d) ∧ h.type = type ∧ (h.part ≤ 7 ∨ type = 7)

/-- A saturating counter field one higher. -/
def Sys2Proof.CountsOne (s u : State) (f : Fld) (i : Nat) : Prop :=
  u.getF f i = min (s.getF f i + 1) (2 ^ f.width - 1) ∧ u = { s with regs := u.regs } ∧ ∀ o, o ≠ f.off i → u.word o = s.word o

/-- Port and octets of a command by which a frame comes in. -/
def Sys2Proof.frameOf : Instr → Option (Nat × List Byte)
  | .sampleFrame k b => some (k, b)
  | .creditFrame k x y => some (k, x ++ y)
  | .registerFrame x => some (x.port, x.b)
  | .endFrame k x y z => some (k, x ++ y ++ z)
  | .kexFrame k x y z => some (k, x ++ y ++ z)
  | .otherFrame x => some (x.port, x.b)
  | _ => none

/-- A frame without its check sequence. -/
def Sys2Proof.frameBody (b : List Byte) : List Byte := b.take (b.length - 4)

/-- A frame's size and check sequence stand. -/
def Sys2Proof.formed (b : List Byte) : Bool :=
  64 ≤ b.length && b.length ≤ 9216 && fcs (frameBody b) = b.drop (b.length - 4)

/-- What follows a frame's addresses, an 802.1Q tag passed over. -/
def Sys2Proof.frameRest (b : List Byte) : List Byte :=
  let f := frameBody b
  if (f.drop 12).take 2 = tagType then f.drop 16 else f.drop 12

/-- R372 to R376: on a link that is down nothing comes, and a frame to another address is none of the module's. A frame of a
wrong size or check sequence, one in clear that is no KEX frame of version 1, and one with a malformed SecTAG are counted in
`OTHER`; one of a sender without the association in `NOSA`, one whose integrity value does not stand in `ICV`, a replayed
one in `REPLAY`. Any other is accepted: its packet number is the last accepted, and what it protects is heard, unless
that is no stream frame.
The order of the checks, and the counters of frames that no rule places, are the model's choice (assumption 102). -/
def Sys2Proof.Claims.FramesAreChecked : Prop :=
  ∀ (s : State) (k : Nat) (b : List Byte) (c : Instr), frameOf c = some (k, b) →
    let addrs := (frameBody b).take 12
    let rest := frameRest b
    let tag := rest.take 16
    let n := rest.length - 32
    let ct := (rest.drop 16).take n
    let mac := leNat (addrs.drop 6)
    let an := le tag 2 1 % 4
    let mine : Bool := addrs.take 6 = macBytes (s.getF F.STM_PMAC_MAC k)
    let inSa : Bool := rest.take 2 = secType
    let whole : Bool := 32 ≤ rest.length && le tag 2 1 / 4 = 0x0B && le tag 3 1 = shortLen n
    (s.linkUp k = false → exec c s = .next s) ∧
    (s.linkUp k = true → formed b = false → ∃ u, exec c s = .next u ∧ CountsOne s u F.STM_PCNT_OTHER k) ∧
    (s.linkUp k = true → formed b = true → mine = false → exec c s = .next s) ∧
    (s.linkUp k = true → formed b = true → mine = true → inSa = false → (readStream k mac rest).all (·.1.type ≠ 7) = true →
      ∃ u, exec c s = .next u ∧ CountsOne s u F.STM_PCNT_OTHER k) ∧
    (s.linkUp k = true → formed b = true → mine = true → inSa = true → whole = false →
      ∃ u, exec c s = .next u ∧ CountsOne s u F.STM_PCNT_OTHER k) ∧
    (s.linkUp k = true → formed b = true → mine = true → inSa = true → whole = true →
      (tag.drop 8 ≠ addrs.drop 6 ++ [0, 1] ∨ s.assoc mac an = none) →
      ∃ u, exec c s = .next u ∧ CountsOne s u F.STM_PCNT_NOSA k) ∧
    (∀ (key : SecKey) (last : Nat), s.linkUp k = true → formed b = true → mine = true → inSa = true → whole = true →
      tag.drop 8 = addrs.drop 6 ++ [0, 1] → s.assoc mac an = some (key, last) →
      let pn := fullPn (last + 1) (ofHighFirst ((tag.drop 4).take 4))
      let good : Bool := key.icv pn (addrs ++ tag) ct = rest.drop (16 + n)
      (good = false → ∃ u, exec c s = .next u ∧ CountsOne s u F.STM_PCNT_ICV k) ∧
      (good = true → pn ≤ last → ∃ u, exec c s = .next u ∧ CountsOne s u F.STM_PCNT_REPLAY k) ∧
      (good = true → last < pn → (readStream k mac (key.cipher pn ct)).all (·.1.type = 7) = true →
        ∃ u, exec c s = .next u ∧ CountsOne (s.acceptPn mac an pn) u F.STM_PCNT_OTHER k) ∧
      (∀ (h : StreamHdr) (d : List Byte), good = true → last < pn → readStream k mac (key.cipher pn ct) = some (h, d) → h.type ≠ 7 →
        s.hear k b = (s.acceptPn mac an pn, some (h, d)) ∧
        (h.type ∉ [1, 2, 4, 5] → ∃ u, exec (.otherFrame ⟨k, b⟩) s = .next u ∧ CountsOne (s.acceptPn mac an pn) u F.STM_PCNT_OTHER k) ∧
        (7 < h.part → h.type = 4 →
          ∃ u, exec (.registerFrame ⟨k, b⟩) s = .next u ∧ CountsOne (s.acceptPn mac an pn) u F.STM_PCNT_OTHER k)))

/-- R373 to R375: a frame that a peer protects under an association of its own, with a packet number above the last, is heard
as it was built, whatever its header and its payload of 9,134 bytes at most; so is a KEX frame in clear.
How packet numbers are read is presumed from the standard (assumption 102). -/
def Sys2Proof.Claims.StreamFramesReadBack : Prop :=
  ∀ (s : State) (h : StreamHdr) (d : List Byte), s.linkUp h.port = true → h.mac < 2 ^ 48 → h.type < 256 → h.part < 8 →
    h.rank < 2 ^ 17 → h.step < 2 ^ 64 → h.seq < 2 ^ 32 →
    let own := macBytes (s.getF F.STM_PMAC_MAC h.port)
    (∀ (key : SecKey) (an last pn : Nat), s.assoc h.mac an = some (key, last) → key.key.length = 32 → an < 4 → last < pn →
      fullPn (last + 1) (pn % 2 ^ 32) = pn → h.type ≠ 7 → d.length ≤ 9134 →
      let b := withFcs (protect key an pn own (macBytes h.mac) (streamBytes h d))
      Heard s h.port b h d h.type ∧ (s.hear h.port b).1 = s.acceptPn h.mac an pn ∧
      (h.type = 4 → ∃ u, exec (.registerFrame ⟨h.port, b⟩) s = .next u ∧ ⟨h.rank, h.mac⟩ ∈ (u.part h.part).feeders)) ∧
    (h.type = 7 → d.length ≤ State.kexRoom →
      let b := State.clearFrame own (macBytes h.mac) (streamBytes h d)
      Heard s h.port b h d 7 ∧ (s.hear h.port b).1 = s)

/-- R35, R377, R379, R380: an accepted SAMPLE frame of a rank not hosted here, of a step not at hand, or under a plan without
classes, is misrouted; a frame that has come before adds nothing; one over the buffer is counted and dropped; any other joins
its stream, and a record it makes whole is taken. -/
def Sys2Proof.Claims.SamplesAreTaken : Prop :=
  ∀ (s : State) (k : Nat) (b : List Byte) (h : StreamHdr) (d : List Byte), Heard s k b h d 1 →
    let t := (s.hear k b).1
    let p := h.part
    let v := s.streamOfFeeder p h.mac h.rank h.step
    let room : Bool := s.heldBytes p h.rank + d.length ≤ s.getF F.STM_IBUF_SIZE p
    (((s.plan p).bind (·.classes) = none ∨ (s.ranksHere p).contains h.rank = false ∨ h.step < s.curStep p ∨
      s.curStep p + 2 < h.step) → ∃ u, exec (.sampleFrame k b) s = .next u ∧ CountsOne t u F.STM_ICNT_MISROUTE p) ∧
    (s.misrouted h = false → v.frames.any (·.1 = h.seq) = true → exec (.sampleFrame k b) s = .next t) ∧
    (s.misrouted h = false → v.frames.any (·.1 = h.seq) = false → room = false →
      ∃ u, exec (.sampleFrame k b) s = .next u ∧ CountsOne t u F.STM_ICNT_CREDIT p) ∧
    (s.misrouted h = false → v.frames.any (·.1 = h.seq) = false → room = true → d.length < 16 → v.frames = [] → v.taken = 0 →
      ∃ u, exec (.sampleFrame k b) s = .next u ∧
        u.streamOfFeeder p h.mac h.rank h.step = { v with frames := [(h.seq, d)] } ∧
        (u.part p).samples = (s.part p).samples ∧ u = { t with parts := u.parts } ∧ ∀ q, q ≠ p → u.part q = s.part q) ∧
    (∀ (x : Sample), s.misrouted h = false → v.frames = [] → v.taken = 0 → h.seq = 0 → room = true →
      readRecord d h.rank h.step = some (x, d.length) → x.mb < (s.mbCount p).1 → s.endOf p h.rank h.step x.mb = none →
      (s.samplesOf p h.rank h.step x.mb).any (·.sample = x.sample) = false →
      ∃ u, exec (.sampleFrame k b) s = .next u ∧ (u.part p).samples = (s.part p).samples ++ [x] ∧
        u.streamOfFeeder p h.mac h.rank h.step = { v with frames := [(0, d)], taken := d.length } ∧
        u = { t with parts := u.parts } ∧ ∀ q, q ≠ p → u.part q = s.part q)

/-- R49, R50, R378, R486: an accepted END ends its micro-batch: bytes missing of its sender's stream ask for them again by a
RESEND frame; with every sample there and in form it is admitted under the smallest class that holds its longest, with one
too long or not in form it is refused, and the refusal is recorded in its ring or counted lost. Once every micro-batch of
the step is admitted or refused, the template of each slot is selected by the classes of the two that run in it. -/
def Sys2Proof.Claims.MicroBatchesAreAdmitted : Prop :=
  ∀ (s : State) (k : Nat) (x y z b : List Byte) (h : StreamHdr) (d : List Byte) (pl : Plan) (c : Classes), x ++ y ++ z = b →
    Heard s k b h d 5 →
    16 ≤ d.length → s.misrouted h = false → le d 0 2 < (s.mbCount h.part).1 →
    s.endOf h.part h.rank h.step (le d 0 2) = none → s.plan h.part = some pl → pl.classes = some c → le d 4 4 = c.mbSize →
    let t := (s.hear k b).1
    let mb := le d 0 2
    let total := le d 8 8
    let p := h.part
    let fs := (s.streamOfFeeder p h.mac h.rank h.step).frames
    let got := inOrderFrames fs fs.length 0
    let vs := s.samplesOf p h.rank h.step mb
    let whole : Bool := (List.range c.mbSize).all fun i => vs.any (·.sample = i)
    let len := (vs.map (·.length)).foldl max 0
    let e : MbEnd := { rank := h.rank, step := h.step, mb := mb, nsample := c.mbSize, mac := h.mac, bad := false, status := none,
                       cls := 0 }
    (∀ j, got.1.length < total → whole = false → s.sendPort = some j →
      let ask : StreamHdr := { port := j, mac := h.mac, type := 8, part := p, last := false, rank := h.rank, step := h.step,
                               seq := s.nextSeq 8 h.rank h.step }
      ∃ u, exec (.endFrame k x y z) s = .next u ∧ u.endOf p h.rank h.step mb = some e ∧
        u.out = .frame j (t.frameFor j (t.peerOf h.mac) ask (leBytes 4 got.2 ++ leBytes 4 0)) :: s.out ∧
        u.getF F.STM_ICNT_RESEND p = min (s.getF F.STM_ICNT_RESEND p + 1) (2 ^ F.STM_ICNT_RESEND.width - 1)) ∧
    (total ≤ got.1.length → whole = true → vs.any (sampleBad pl) = false →
      (∀ (n : Nat), State.classFor c len = some n → ∃ u, exec (.endFrame k x y z) s = .next u ∧
        u.endOf p h.rank h.step mb = some { e with status := some 0, cls := n } ∧ u = { t with parts := u.parts } ∧
        (u.part p).samples = (s.part p).samples ∧ (∀ q, q ≠ p → u.part q = s.part q) ∧
        (c.mbCount = 1 → (h.rank, h.step, 0, some n, none) ∈ (u.part p).slots ∧
          (h.rank, h.step, 1, none, some n) ∈ (u.part p).slots)) ∧
      (State.classFor c len = none → ∃ u, exec (.endFrame k x y z) s = .next u ∧
        u.endOf p h.rank h.step mb = some { e with status := some 1 } ∧
        (s.refusalAt p = none → u.out = s.out ∧ u.host = s.host ∧
          u.getF F.STM_REF_CTRL_LOST p = min (s.getF F.STM_REF_CTRL_LOST p + 1) (2 ^ F.STM_REF_CTRL_LOST.width - 1)) ∧
        (∀ (a : Word), s.refusalAt p = some a → isHost a = true →
          u.hrd (spaceAddr a) 26 = leBytes 8 h.step ++ leBytes 4 h.rank ++ leBytes 2 mb ++ [1, 0] ++ leBytes 4 len ++
            macBytes h.mac ∧
          u.getF F.STM_REF_CTRL_PROD p = (s.getF F.STM_REF_CTRL_PROD p + 1) % 65536))) ∧
    (total ≤ got.1.length → whole = true → vs.any (sampleBad pl) = true →
      ∃ u, exec (.endFrame k x y z) s = .next u ∧
        u.endOf p h.rank h.step mb = some { e with status := some 2 } ∧ (u.part p).samples = (s.part p).samples)

/-- R374, R379 to R381, R385: a REGISTER frame adds a feeder of a rank, the oldest of 8 giving way; a CREDIT frame goes out to
every feeder of the ranks hosted here that has an association; a CREDIT frame of a checkpoint's receiver paces it and any
other is of no use; the link's state is shown.
By which port credits leave is the model's choice (assumption 33). -/
def Sys2Proof.Claims.FeedersAndCredits : Prop :=
  (∀ (s : State) (k : Nat) (b : List Byte) (h : StreamHdr) (d : List Byte), Heard s k b h d 4 →
    ∃ u, exec (.registerFrame ⟨k, b⟩) s = .next u ∧
    ⟨h.rank, h.mac⟩ ∈ (u.part h.part).feeders ∧
    (((s.part h.part).feeders.filter (·.rank = h.rank)).length ≤ 8 →
      ((u.part h.part).feeders.filter (·.rank = h.rank)).length ≤ 8) ∧
    (∀ f ∈ (s.part h.part).feeders, f.rank ≠ h.rank → f ∈ (u.part h.part).feeders) ∧
    u = { s with parts := u.parts, peers := u.peers } ∧ ∀ q, q ≠ h.part → u.part q = s.part q) ∧
  (∀ (s : State) (p k : Nat), p < 8 → s.sendPort = some k → ∃ u, exec (.creditSend p) s = .next u ∧
    (∀ f ∈ (s.part p).feeders, (s.ranksHere p).contains f.rank = true →
      let x := s.peerOf f.mac
      let n := (s.part p).feeders.length
      x.live = true → ∃ i, i < n ∧ ∃ j, j < n ∧
        let h : StreamHdr := { port := k, mac := f.mac, type := 2, part := p, last := false, rank := f.rank, step := s.curStep p,
                               seq := s.nextSeq 2 f.rank (s.curStep p) + j }
        .frame k (withFcs (protect (toPeer x.keys) x.an (x.txPn + 1 + i) (macBytes f.mac) (macBytes (s.getF F.STM_PMAC_MAC k))
          (streamBytes h (leBytes 4 f.rank ++ leBytes 4 0 ++
            leBytes 8 ((s.getF F.STM_IBUF_SIZE p + mget 0 (s.part p).freed f.rank) % 2 ^ 64))))) ∈ u.out) ∧
    u = { s with out := u.out, peers := u.peers, frameSeq := u.frameSeq }) ∧
  (∀ (s : State) (k : Nat) (x y b : List Byte) (h : StreamHdr) (d : List Byte), x ++ y = b → Heard s k b h d 2 →
    let t := (s.hear k b).1
    (∀ (c : Ckpt) (g : Nat), (s.part h.part).ckpt = some c → h.mac = s.getF F.STM_CKPT_DST_MAC h.part →
      grantIn d c.rank = some g →
      ∃ u, exec (.creditFrame k x y) s = .next u ∧ u.part h.part = { s.part h.part with ckpt := some { c with grant := g } } ∧
        u = { t with parts := u.parts } ∧ ∀ q, q ≠ h.part → u.part q = s.part q) ∧
    (∀ (c : Ckpt), (s.part h.part).ckpt = some c → h.mac ≠ s.getF F.STM_CKPT_DST_MAC h.part →
      ∃ u, exec (.creditFrame k x y) s = .next u ∧ CountsOne t u F.STM_PCNT_OTHER k) ∧
    ((s.part h.part).ckpt = none → ∃ u, exec (.creditFrame k x y) s = .next u ∧ CountsOne t u F.STM_PCNT_OTHER k)) ∧
  (∀ (s : State) (k phy : Nat) (up : Bool), k < 2 → phy < 4 → ∃ u, exec (.streamLinkChange k up phy) s = .next u ∧
    u.flag F.STM_PSTAT_UP k = up ∧ u.getF F.STM_PSTAT_PHY k = (if up = true then phy else 0) ∧
    RegsOnly (fun o => o = F.STM_PSTAT_UP.off k) s u)

/-- A key-exchange object goes out by a port in KEX frames in clear, in order, the last marked (R374, R375). -/
def Sys2Proof.KexSent (s u : State) (k mac : Nat) (obj : List Byte) : Prop :=
  let n := (obj.length + State.kexRoom - 1) / State.kexRoom
  let frame (i : Nat) : Out := .frame k (State.clearFrame (macBytes mac) (macBytes (s.getF F.STM_PMAC_MAC k)) (streamBytes
    { port := k, mac := mac, type := 7, part := 0, last := i + 1 = n, rank := 0, step := 0, seq := s.nextSeq 7 0 0 + i }
    ((obj.drop (State.kexRoom * i)).take State.kexRoom)))
  u.out = ((List.range n).map frame).reverse ++ s.out ∧ u.nextSeq 7 0 0 = s.nextSeq 7 0 0 + n ∧ u.host = s.host ∧ u.mem = s.mem ∧
  u.regs = s.regs ∧ u.parts = s.parts ∧ ∀ m, m ≠ mac → u.peerOf m = s.peerOf m

/-- A key exchange of a peer ends with an error answered (R353, R374). -/
def Sys2Proof.KexError (s u : State) (k mac stream : Nat) (code : Byte) : Prop :=
  KexSent s u k mac [0xFF, BitVec.ofNat 8 stream, 0, 0, code] ∧ (u.peerOf mac).stage = 0 ∧ (u.peerOf mac).buf = [] ∧
  (u.peerOf mac).live = (s.peerOf mac).live ∧ u.ident = s.ident

/-- R374, R375: KEX frames join into an object, in the order of `SEQ`, up to the one marked last. Message 1 begins an exchange and
is answered with the chain; message 2, with the key and the nonce, installs the association under the next number and
is answered with the ciphertext and the signature over the exchange; out of order it is answered with error 1, malformed or
unknown with 3, and a peer beyond the 256th with 4.
The error codes are read from R352 (assumption 34). -/
def Sys2Proof.Claims.KeyExchanges : Prop :=
  ∀ (s : State) (k : Nat) (b1 b2 b3 b : List Byte) (h : StreamHdr) (d : List Byte), b1 ++ b2 ++ b3 = b → Heard s k b h d 7 →
    let x := s.peerOf h.mac
    let obj := x.buf ++ d
    let room : Bool := x.live || decide ((s.peers.filter (·.live)).length < 256)
    let next : Bool := x.buf = [] || h.seq = x.next
    let msg := le obj 0 1
    let stream := le obj 1 1
    (room = true → next = true → h.last = false → obj.length ≤ 1604 → ∃ u, exec (.kexFrame k b1 b2 b3) s = .next u ∧
      u.peerOf h.mac = { x with buf := obj, next := h.seq + 1 } ∧ u = { s with peers := u.peers } ∧
      ∀ m, m ≠ h.mac → u.peerOf m = s.peerOf m) ∧
    (room = true → next = true → h.last = true → obj.length = 4 → msg = 1 → le obj 2 2 = 0 →
      ∃ u, exec (.kexFrame k b1 b2 b3) s = .next u ∧ u.peerOf h.mac = { x with stage := 1, stream := stream, buf := [] } ∧
        KexSent s u k h.mac ([0x81, BitVec.ofNat 8 stream, 0, 0] ++ s.chain) ∧ u.ident = s.ident) ∧
    (room = true → next = true → h.last = true → obj.length = 1604 → msg = 2 → le obj 2 2 = 0 → x.stage = 1 →
      s.flag F.SEC_STATE_RNGFAIL 0 = false →
      let ek := (obj.drop 4).take 1568
      let ct := (Config.kemEncaps ek s.ident.drbg).1
      let t := s.transcript x.stream stream ek (BitVec.ofNat 256 (leNat (obj.drop 1572))) ct
      let sig := s.aliasSign t
      ∃ u, exec (.kexFrame k b1 b2 b3) s = .next u ∧ u.hasSa h.mac = true ∧
        (u.peerOf h.mac).an = (if x.live = true then (x.an + 1) % 4 else 0) ∧
        (u.peerOf h.mac).old = (if x.live = true then some x.an else none) ∧ (u.peerOf h.mac).stage = 0 ∧
        (u.peerOf h.mac).keys = shakeBytes 88 ((Config.kemEncaps ek s.ident.drbg).2 ++ t) ∧
        (u.peerOf h.mac).oldKeys = x.keys ∧ (u.peerOf h.mac).rxPn = 0 ∧ (u.peerOf h.mac).txPn = 0 ∧
        KexSent s u k h.mac ([0x82, BitVec.ofNat 8 stream, 0, 0] ++ (ct ++ leBytes 2 sig.length ++ sig)) ∧
        u.ident = { s.ident with drbg := s.ident.drbg + 1 }) ∧
    (room = true → next = true → h.last = true → obj.length = 1604 → msg = 2 → le obj 2 2 = 0 → x.stage ≠ 1 →
      ∃ u, exec (.kexFrame k b1 b2 b3) s = .next u ∧ KexError s u k h.mac stream 1) ∧
    (room = true → next = false → ∃ u, exec (.kexFrame k b1 b2 b3) s = .next u ∧ KexError s u k h.mac x.stream 1) ∧
    (room = true → next = true → h.last = true → obj.length ≤ 1604 → (msg ≠ 1 ∧ msg ≠ 2 ∨ obj.length < 4) → ∃ u, exec (.kexFrame k b1 b2 b3) s = .next u ∧ KexError s u k h.mac stream 3) ∧
    (room = true → next = true → 1604 < obj.length → ∃ u, exec (.kexFrame k b1 b2 b3) s = .next u ∧ KexError s u k h.mac x.stream 3) ∧
    (room = false → ∃ u, exec (.kexFrame k b1 b2 b3) s = .next u ∧ KexSent s u k h.mac [0xFF, BitVec.ofNat 8 (le d 1 1), 0, 0, 4] ∧
      u.peers = s.peers ∧ u.ident = s.ident)

/-- R375, R381: `GO` starts a checkpoint stream to a registered receiver with an association while the plan does not run, else
shows `ERR`; its frames carry the entries in order as the receiver's credit allows, and a plan set to run ends it with
`ERR`.
What credit counts is read from R379 (assumption 37). -/
def Sys2Proof.Claims.CheckpointStreams : Prop :=
  (∀ (s : State) (f : Func) (p : Nat) (v : Word), p < 8 → Open s f (F.STM_CKPT_CTRL_GO.off p) → getBits v 63 63 = 1 →
    s.flag F.STM_CKPT_CTRL_GO p = false →
    let r := getBits v 16 0
    let mac := s.getF F.STM_CKPT_DST_MAC p
    let ready : Bool := s.hasSa mac && ((s.part p).feeders.any fun x => x.rank = r && x.mac = mac) && (s.plan p).isSome &&
      (s.ranksHere p).contains r && !s.running p
    ∃ u, exec (.stmCkptGo f p v) s = .next u ∧ u.getF F.STM_CKPT_CTRL_RANK p = r ∧
      (ready = true → u.flag F.STM_CKPT_CTRL_GO p = true ∧ u.flag F.STM_CKPT_CTRL_ERR p = false ∧
        (u.part p).ckpt = some { rank := r, entry := 0xFFFFFFFF, offset := 0, grant := 0, sent := 0 } ∧
        u.nextSeq 6 r (s.curStep p) = 0) ∧
      (ready = false → u.flag F.STM_CKPT_CTRL_ERR p = true ∧ u.flag F.STM_CKPT_CTRL_GO p = false ∧ u.parts = s.parts ∧
        u.frameSeq = s.frameSeq) ∧
      u = { s with regs := u.regs, parts := u.parts, frameSeq := u.frameSeq } ∧
      ∀ o, o ≠ F.STM_CKPT_CTRL_GO.off p → u.word o = s.word o) ∧
  (∀ (s : State) (p n : Nat) (c : Ckpt), p < 8 → (s.part p).ckpt = some c →
    (s.running p = true → ∃ u, exec (.ckptFrameSend p n) s = .next u ∧ (u.part p).ckpt = none ∧
      u.flag F.STM_CKPT_CTRL_GO p = false ∧ u.flag F.STM_CKPT_CTRL_ERR p = true ∧ u.out = s.out) ∧
    (∀ (k j : Nat) (b : List Byte), s.running p = false → c.entry = k → s.ckptBytes p c.rank k = some b → c.offset < b.length →
      0 < n → s.sendPort = some j →
      let d := (b.drop c.offset).take (min n State.ckptRoom)
      let dst := s.getF F.STM_CKPT_DST_MAC p
      (s.peerOf dst).live = true → c.sent + 16 + d.length ≤ c.grant →
      ∃ u, exec (.ckptFrameSend p n) s = .next u ∧ ∃ l : Bool,
        u.out = .frame j (s.frameFor j (s.peerOf dst)
          { port := j, mac := dst, type := 6, part := p, last := l, rank := c.rank, step := s.curStep p,
            seq := s.nextSeq 6 c.rank (s.curStep p) }
          (leBytes 4 k ++ leBytes 4 0 ++ leBytes 8 c.offset ++ d)) :: s.out ∧
        (l = false → (u.part p).ckpt = some { c with offset := c.offset + d.length, sent := c.sent + 16 + d.length } ∧
          u.regs = s.regs) ∧
        (l = true → (u.part p).ckpt = none ∧ u.flag F.STM_CKPT_CTRL_GO p = false ∧ u.flag F.STM_CKPT_CTRL_ERR p = false) ∧
        (c.offset + d.length < b.length → l = false) ∧ MemSame s u))

/-- Frames are checked and counted; feeders register and get credit; links change: `Claims.FramesAreChecked`;
`Claims.FeedersAndCredits`. -/
def Obligations.FramesAndFeeders : Prop :=
  Claims.FramesAreChecked ∧ Claims.FeedersAndCredits

/-- Samples join their streams; micro-batches are admitted or refused: `Claims.SamplesAreTaken`;
`Claims.MicroBatchesAreAdmitted`. -/
def Obligations.IngestAdmits : Prop :=
  Claims.SamplesAreTaken ∧ Claims.MicroBatchesAreAdmitted

/-- Key exchange with a feeder; a checkpoint is streamed as its receiver's credit allows: `Claims.KeyExchanges`;
`Claims.CheckpointStreams`. -/
def Obligations.FeederKeysAndCheckpoints : Prop :=
  Claims.KeyExchanges ∧ Claims.CheckpointStreams

/-- Ochre frames, flits, message headers and stream frames are read back as they were built: `Claims.OchreFramesReadBack`;
`Claims.FlitsReadBack`; `Claims.StreamFramesReadBack`. -/
def Obligations.BytesReadBack : Prop :=
  Claims.OchreFramesReadBack ∧ Claims.FlitsReadBack ∧ Claims.StreamFramesReadBack

/-! ## Power states, wakes and supplies (R415 to R429, R470 to R478) -/

/-- R417: a request for Idle, Sleep, Deep Sleep or Off that no code refuses begins the entry: `BUSY` is 1 and the target
is taken; the entry to Sleep and Deep Sleep closes the bypasses, takes the ports down and requests L1 (R419). The state
shown does not change yet. -/
def Sys2Proof.Claims.PowerEntryBegins : Prop :=
  ∀ (s : State) (f : Func) (v : Word) (t : Nat) (c : Instr),
    (t = 1 ∧ c = .pwrTargetIdle f v) ∨ (t = 2 ∧ c = .pwrTargetSleep f v) ∨ (t = 3 ∧ c = .pwrTargetDeepSleep f v) ∨
      (t = 4 ∧ c = .pwrTargetOff f v) →
    Open s f 0x100000 → getBits v 3 3 = 1 → getBits v 2 0 = t → t ≠ s.getF F.PWR_STAT_STATE 0 →
    State.reachable (s.getF F.PWR_STAT_STATE 0) t = true → s.flag F.PWR_STAT_BUSY 0 = false → s.anyRun = false →
    s.anyWork = false →
    ∃ u, exec c s = .next u ∧ u.power = { s.power with target := some t, idleBeats := 0, l1 := u.power.l1 } ∧
      u.flag F.PWR_STAT_BUSY 0 = true ∧ u.getF F.PWR_CTRL_TARGET 0 = t ∧
      u.getF F.PWR_STAT_STATE 0 = s.getF F.PWR_STAT_STATE 0 ∧
      u.getF F.PWR_STAT_REFUSE 0 = s.getF F.PWR_STAT_REFUSE 0 ∧
      (t = 2 ∨ t = 3 → u.power.l1 = true ∧ u.getF F.FAB_BYP_CLOSED 0 = 7 ∧
        (∀ k, k < 6 → u.getF F.FAB_PSTAT_STATE k = 0) ∧ (∀ k, k < 2 → u.getF F.STM_PSTAT_UP k = 0)) ∧
      (t = 1 ∨ t = 4 → u.power.l1 = s.power.l1 ∧ ∀ o, o ≠ 0x100000 → o ≠ 0x100008 → u.word o = s.word o) ∧
      u = { s with regs := u.regs, power := u.power }

/-- R417: what a request is refused with: 0x01 for a state that cannot be reached, 0x02 for one while a transition is in
progress, 0x03 with a plan running, 0x04 with work in progress; the lowest applies, and nothing else happens beyond the
write of the fields beside `GO`. -/
def Sys2Proof.Claims.PowerRequestRefused : Prop :=
  ∀ (s : State) (f : Func) (v : Word) (t : Nat) (c : Instr),
    (t = 0 ∧ c = .pwrTargetRun f v) ∨ (t = 1 ∧ c = .pwrTargetIdle f v) ∨ (t = 2 ∧ c = .pwrTargetSleep f v) ∨
      (t = 3 ∧ c = .pwrTargetDeepSleep f v) ∨ (t = 4 ∧ c = .pwrTargetOff f v) →
    Open s f 0x100000 → getBits v 3 3 = 1 → getBits v 2 0 = t → t ≠ s.getF F.PWR_STAT_STATE 0 →
    ∀ code, (code = 1 ∧ State.reachable (s.getF F.PWR_STAT_STATE 0) t = false) ∨
      (State.reachable (s.getF F.PWR_STAT_STATE 0) t = true ∧
        ((code = 2 ∧ s.flag F.PWR_STAT_BUSY 0 = true) ∨
         (s.flag F.PWR_STAT_BUSY 0 = false ∧ t ≠ 0 ∧
           ((code = 3 ∧ s.anyRun = true) ∨ (code = 4 ∧ s.anyRun = false ∧ s.anyWork = true))))) →
    ∃ u, exec c s = .next u ∧ u.getF F.PWR_STAT_REFUSE 0 = code ∧ u.getF F.PWR_CTRL_TARGET 0 = t ∧
      u.getF F.PWR_STAT_STATE 0 = s.getF F.PWR_STAT_STATE 0 ∧ u.flag F.PWR_STAT_BUSY 0 = s.flag F.PWR_STAT_BUSY 0 ∧
      RegsOnly (fun o => o = 0x100000 ∨ o = 0x100008) s u

/-- R417, R422: a request for Run in Idle, Sleep or Deep Sleep begins the exit and is the wake record's source 1; R418:
the idle timer's expiry in Run begins the entry to Idle. -/
def Sys2Proof.Claims.PowerRunAndIdle : Prop :=
  (∀ (s : State) (f : Func) (v : Word), Open s f 0x100000 → getBits v 3 3 = 1 → getBits v 2 0 = 0 →
    (1 ≤ s.getF F.PWR_STAT_STATE 0 ∧ s.getF F.PWR_STAT_STATE 0 ≤ 3) → s.flag F.PWR_STAT_BUSY 0 = false →
    s.power.target = none → s.power.wake = none →
    ∃ u, exec (.pwrTargetRun f v) s = .next u ∧
      u.power = { s.power with target := some 0, wake := some 1, awake := 0 } ∧ u.flag F.PWR_STAT_BUSY 0 = true ∧
      u.getF F.PWR_WAKE_SOURCE 0 = 1 ∧ u.getF F.PWR_WAKE_FROM 0 = s.getF F.PWR_STAT_STATE 0 ∧
      u.getF F.PWR_STAT_STATE 0 = s.getF F.PWR_STAT_STATE 0 ∧
      u = { s with regs := u.regs, power := u.power, free := s.free + 1 } ∧
      ∀ o, o ≠ 0x100000 → o ≠ 0x100008 → o ≠ 0x100018 → u.word o = s.word o) ∧
  (∀ s : State, s.getF F.PWR_IDLE_TIMER 0 ≠ 0 → s.getF F.PWR_IDLE_TIMER 0 ≤ s.power.idleBeats →
    s.getF F.PWR_STAT_STATE 0 = 0 → s.flag F.PWR_STAT_BUSY 0 = false → s.anyRun = false → s.anyWork = false →
    ∃ u, exec .idleTimerExpiry s = .next u ∧ u.power = { s.power with target := some 1, idleBeats := 0 } ∧
      u.flag F.PWR_STAT_BUSY 0 = true ∧ u.getF F.PWR_STAT_STATE 0 = 0 ∧
      u = { s with regs := u.regs, power := u.power } ∧ ∀ o, o ≠ 0x100008 → u.word o = s.word o)

/-- R416, R419, R421, R427: an exit wakes its domains in the fixed order, from Idle the three of a die at a time; an entry
to Idle, Sleep or Deep Sleep that completes shows the new state, its predecessor and its domains, and ends `BUSY`; an exit
from Idle completes once every domain is awake. -/
def Sys2Proof.Claims.PowerTransitions : Prop :=
  (∀ s : State, s.getF F.PWR_STAT_STATE 0 = 1 → s.power.target = some 0 → s.power.awake < 4 →
    ∃ u, exec .domainWake s = .next u ∧ u.power = { s.power with awake := s.power.awake + 1 } ∧
      u.getF F.PWR_DOM_ON 0 = s.getF F.PWR_DOM_ON 0 ||| 2 ^ (8 + s.power.awake) ||| 2 ^ (4 + s.power.awake) |||
        2 ^ s.power.awake ∧
      u = { s with regs := u.regs, power := u.power } ∧ ∀ o, o ≠ 0x100030 → u.word o = s.word o) ∧
  (∀ (s : State) (d : Nat), (s.getF F.PWR_STAT_STATE 0 = 2 ∨ s.getF F.PWR_STAT_STATE 0 = 3) → s.power.target = some 0 →
    State.wakeOrder[s.power.awake]? = some d →
    ∃ u, exec .domainWake s = .next u ∧ u.power = { s.power with awake := s.power.awake + 1 } ∧
      u.getF F.PWR_DOM_ON 0 = s.getF F.PWR_DOM_ON 0 ||| 2 ^ d ∧
      u = { s with regs := u.regs, power := u.power } ∧ ∀ o, o ≠ 0x100030 → u.word o = s.word o) ∧
  (∀ (s : State) (l : List Bool), s.power.target = some 1 → s.power.wake = none →
    ∃ u, exec (.transitionComplete l) s = .next u ∧ u.getF F.PWR_STAT_STATE 0 = 1 ∧
      u.getF F.PWR_STAT_PREV 0 = s.getF F.PWR_STAT_STATE 0 ∧ u.flag F.PWR_STAT_BUSY 0 = false ∧
      u.getF F.PWR_DOM_ON 0 = 0xFFF000 ∧ u.power = { s.power with target := none, awake := 0, dsCycles := 0 } ∧
      u = { s with regs := u.regs, power := u.power }) ∧
  (∀ (s : State) (l : List Bool), s.power.target = some 0 → s.getF F.PWR_STAT_STATE 0 = 1 → s.power.awake = 4 →
    ∃ u, exec (.transitionComplete l) s = .next u ∧ u.getF F.PWR_STAT_STATE 0 = 0 ∧ u.getF F.PWR_STAT_PREV 0 = 1 ∧
      u.flag F.PWR_STAT_BUSY 0 = false ∧ u.getF F.PWR_DOM_ON 0 = 0xFFFFFF ∧
      u.power = { s.power with target := none, wake := none, awake := 0, l1 := false, wakeDriven := false } ∧
      u = { s with regs := u.regs, power := u.power })

/-- Power requests begin a transition or are refused with the lowest code: `Claims.PowerEntryBegins`;
`Claims.PowerRequestRefused`; `Claims.PowerRunAndIdle`. -/
def Obligations.PowerRequests : Prop :=
  Claims.PowerEntryBegins ∧ Claims.PowerRequestRefused ∧ Claims.PowerRunAndIdle

/-- R422: in Sleep or Deep Sleep `WAKE_N` held low (source 2) and, with `EN` 1, the wake timer (source 4) begin the exit;
the record takes the source and the state woken from, and the timer drives `WAKE_N` low where the link is in L1. -/
def Sys2Proof.Claims.WakesFromSleep : Prop :=
  ∀ (s : State) (c : Instr) (src : Nat),
    (c = .wakeNAssert ∧ src = 2 ∧ s.power.perst = false ∧ s.power.wakeDriven = false) ∨
      (c = .wakeTimerExpiry ∧ src = 4 ∧ s.flag F.PWR_WAKE_TIMER_EN 0 = true) →
    (s.getF F.PWR_STAT_STATE 0 = 2 ∨ s.getF F.PWR_STAT_STATE 0 = 3) → s.power.target = none → s.power.wake = none →
    ∃ u, exec c s = .next u ∧ u.power.target = some 0 ∧ u.power.wake = some src ∧ u.power.awake = 0 ∧
      u.flag F.PWR_STAT_BUSY 0 = true ∧ u.getF F.PWR_WAKE_SOURCE 0 = src ∧
      u.getF F.PWR_WAKE_FROM 0 = s.getF F.PWR_STAT_STATE 0 ∧ u.getF F.PWR_STAT_STATE 0 = s.getF F.PWR_STAT_STATE 0 ∧
      u.power.wakeDriven = (s.power.wakeDriven || (src = 4 && s.power.l1)) ∧
      u.out = (if src = 4 ∧ s.power.l1 = true then .wakeN :: s.out else s.out) ∧
      u = { s with regs := u.regs, power := u.power, free := s.free + 1, out := u.out } ∧
      ∀ o, o ≠ 0x100008 → o ≠ 0x100018 → u.word o = s.word o

/-- Where a cold boot begins (R477): the wake cause recorded, volatile state empty, the fuses and the flash kept. -/
def Sys2Proof.BootBegun (s u : State) (src : Nat) : Prop :=
  u.power.booting = true ∧ u.power.tripped = false ∧ u.getF F.PWR_WAKE_SOURCE 0 = src ∧
  u.getF F.PWR_WAKE_FROM 0 = s.power.from_ % 8 ∧ u.mem = [] ∧ u.sram = [] ∧ u.tiles = [] ∧ u.parts = [] ∧
  u.host = s.host ∧ u.ident.lc = s.ident.lc ∧ u.ident.counter = s.ident.counter ∧ u.ident.slots = s.ident.slots ∧
  u.ident.secret = s.ident.secret ∧ u.ident.flash = s.ident.flash

/-- R422, R474: with the supplies in range, `PERST_N` high and no trip left to cool, a source of a cold boot in Off (or the
deassertion of `PERST_N`) begins it: the record names source and state, every memory is empty, and only what lies outside
the module, the fuses and the flash are as before. -/
def Sys2Proof.Claims.ColdBootBegins : Prop :=
  (∀ (s : State) (c : Instr) (src : Nat), s.power.auxQualified = true →
    (c = .wakeNAssert ∧ src = 2 ∧ s.power.perst = false ∧ s.power.wakeDriven = false ∧ s.power.main48 = true ∧
        s.power.tripped = false ∧ s.power.wake = none ∧ s.getF F.PWR_STAT_STATE 0 = 4) ∨
      (c = .wakeTimerExpiry ∧ src = 4 ∧ s.flag F.PWR_WAKE_TIMER_EN 0 = true ∧ s.power.perst = false ∧
        s.power.main48 = true ∧ s.power.tripped = false ∧ s.power.wake = none ∧ s.getF F.PWR_STAT_STATE 0 = 4) ∨
      (c = .perstNDeassert ∧ src = 3 ∧ s.power.perst = true ∧ s.power.main48 = true ∧ s.power.tripped = false ∧
        s.power.wake = none) ∨
      (c = .inputPowerRestored ∧ src = 6 ∧ s.power.perst = false ∧ s.power.tripped = false ∧ s.power.wake = none ∧
        s.flag F.PWR_CTRL_AUTO_ON 0 = true ∧ s.getF F.PWR_STAT_STATE 0 = 4) ∨
      (c = .inputStageOn ∧ s.power.wake = some src ∧ src ≤ 6 ∧ s.power.aux = true ∧ s.power.perst = false ∧
        s.power.main48 = true ∧ s.power.tripped = false) →
    ∃ u, exec c s = .next u ∧ BootBegun s u src) ∧
  (∀ (s : State) (l : List Nat) (src : Nat), s.power.auxQualified = true → (∀ x ∈ l, x < 95) → s.power.wake = some src →
    src ≤ 6 → s.power.perst = false → s.power.main48 = true → s.power.tripped = true →
    ∃ u, exec (.tripCooldown l) s = .next u ∧ BootBegun s u src)

/-- R424, R475, R478: loss of the 48 V input, loss of the auxiliary rail and a thermal trip put the module in Off, with the
state before in `PREV`; loss of the auxiliary rail alone clears the wake record; a trip drives `THERMTRIP_N`. -/
def Sys2Proof.Claims.SupplyLossIsOff : Prop :=
  ∀ (s : State) (c : Instr), c = .inputPowerLoss ∨ c = .auxPowerLoss ∨ c = .thermalTrip →
    ∃ u, exec c s = .next u ∧ u.getF F.PWR_STAT_STATE 0 = 4 ∧
      u.getF F.PWR_STAT_PREV 0 = s.getF F.PWR_STAT_STATE 0 ∧
      u.mem = [] ∧ u.sram = [] ∧ u.host = s.host ∧ u.tiles = [] ∧ u.ident.lc = s.ident.lc ∧ u.ident.slots = s.ident.slots ∧
      u.ident.counter = s.ident.counter ∧ u.ident.secret = s.ident.secret ∧
      u.power.main48 = (if c = .inputPowerLoss then false else s.power.main48) ∧
      u.power.aux = (if c = .auxPowerLoss then false else s.power.aux) ∧
      u.power.tripped = (if c = .thermalTrip then true else s.power.tripped) ∧
      u.power.thermtrip = (if c = .thermalTrip then true else s.power.thermtrip) ∧
      u.getF F.PWR_WAKE_SOURCE 0 = (if c = .auxPowerLoss then 0 else s.getF F.PWR_WAKE_SOURCE 0) ∧
      u.flag F.PWR_CTRL_AUTO_ON 0 = (if c = .auxPowerLoss then false else s.flag F.PWR_CTRL_AUTO_ON 0) ∧
      u.out = (if c = .thermalTrip then .thermtripN :: s.out else s.out)

/-- R423, R478: `PERST_N` resets the module but for the retained fields, and releases `THERMTRIP_N`; R473: the auxiliary
rail's coming into range is source 0 of a cold boot that waits. -/
def Sys2Proof.Claims.ResetPinAndAux : Prop :=
  (∀ s : State, s.getF F.PWR_STAT_STATE 0 ≠ 4 →
    ∃ u, exec .perstNAssert s = .next u ∧ u.power.perst = true ∧ u.power.thermtrip = false ∧ u.mem = [] ∧ u.tiles = [] ∧
      u.parts = [] ∧ u.host = s.host ∧ u.ident.lc = s.ident.lc ∧ u.ident.slots = s.ident.slots ∧
      u.getF F.PWR_WAKE_SOURCE 0 = s.getF F.PWR_WAKE_SOURCE 0 ∧ u.getF F.PWR_CTRL_AUTO_ON 0 = s.getF F.PWR_CTRL_AUTO_ON 0 ∧
      u.getF F.SEC_REC_CTRL_REQ 0 = s.getF F.SEC_REC_CTRL_REQ 0 ∧ u.bn = 0 ∧
      (∀ p, p < 8 → u.running p = false ∧ u.getF F.PLN_STEP_STEP p = 0)) ∧
  (∀ s : State, s.power.aux = false →
    exec .auxPowerApplied s = .next { s with power :=
      { s.power with aux := true, auxQualified := false, wake := some 0, from_ := 4 } })

/-- R429: a write of `PWR_RAMP` that keeps the sum of the shares at 16 at most and the share of no running partition at 0
sets them; any other is discarded and logged. A plan load in a partition whose share is 0 is refused, with code 0x08 where
no other check of the image fails. -/
def Obligations.RampSharesAreKept : Prop :=
  (∀ (s : State) (f : Func) (v : Word), Open s f 0x100028 →
    ((List.range 8).map fun p => getBits v (5 * p + 4) (5 * p)).sum ≤ 16 →
    (∀ p, p < 8 → s.running p = true → getBits v (5 * p + 4) (5 * p) ≠ 0) →
    ∃ u, exec (.pwrRampWrite f v) s = .next u ∧
      (∀ p, p < 8 → getBits (u.word 0x100028) (5 * p + 4) (5 * p) = getBits v (5 * p + 4) (5 * p)) ∧
      RegsOnly (fun o => o = 0x100028) s u) ∧
  (∀ (s : State) (f : Func) (v : Word), Open s f 0x100028 →
    (16 < ((List.range 8).map fun p => getBits v (5 * p + 4) (5 * p)).sum ∨
      ∃ p, p < 8 ∧ s.running p = true ∧ getBits v (5 * p + 4) (5 * p) = 0) →
    ∃ u, exec (.pwrRampWrite f v) s = .next u ∧ u.word 0x100028 = s.word 0x100028 ∧ u.flag F.GEN_ERR_VALID 0 = true) ∧
  (∀ (s : State) (f : Func) (p : Nat), p < 8 → Open s f (F.PLN_LOAD_GO.off p) → s.flag F.PLN_LOAD_STATUS_BUSY p = false →
    s.running p = false → s.ident.lc ≠ 4 → InRun s → s.rampShare p = 0 →
    ∃ u, exec (.planLoadGo f p) s = .next u ∧ u.flag F.PLN_LOAD_STATUS_BUSY p = false ∧
      (u.part p).plan = (s.part p).plan ∧ (u.part p).loading = none ∧
      (∀ b pl, s.flag F.PRT_STATE_WIPING p = false → s.imageBytes p = some b →
        readPlan b (s.getF F.PLN_IMG_LEN_LEN p) (s.planSite p) s.activeOwner = .ok pl → (s.ident.lc = 3 → pl.rankCount ≤ 1) →
        u.getF F.PLN_LOAD_STATUS_CODE p = 8))

/-- Domains wake in order and transitions complete; wakes from sleep: `Claims.PowerTransitions`; `Claims.WakesFromSleep`. -/
def Obligations.PowerTransitions : Prop :=
  Claims.PowerTransitions ∧ Claims.WakesFromSleep

/-- Cold boots begin, supplies are lost and the reset pin acts: `Claims.ColdBootBegins`; `Claims.SupplyLossIsOff`;
`Claims.ResetPinAndAux`. -/
def Obligations.SuppliesAndBoot : Prop :=
  Claims.ColdBootBegins ∧ Claims.SupplyLossIsOff ∧ Claims.ResetPinAndAux

/-! ## Test and service (R434 to R442) -/

/-- R434, R435: `IDCODE` shifts out stepping A1, part 0x0480, the maker's code and a 1; with `PERST_N` asserted EXTEST, CLAMP
and HIGHZ take the pins. R436: with debug open a BAR0 access through JTAG is an access of its own function by the PF's
rules; with debug locked it reads 0 and writes nothing.
The maker's code is opaque (assumption 14). -/
def Sys2Proof.Claims.JtagCommands : Prop :=
  (∀ s : State, exec .idcode s = .next (s.emit (.tdo (0x1048_0000 + Config.jep106 % 2 ^ 11 * 2 + 1) 32))) ∧
  (∀ (s : State) (c : Instr) (n : Nat), (c = .extest ∧ n = 1) ∨ (c = .clamp ∧ n = 2) ∨ (c = .highz ∧ n = 3) →
    s.power.perst = true → exec c s = .next { s with test := { s.test with pins := some n } }) ∧
  (∀ (s : State) (off size : Nat) (v : Word), s.flag F.SEC_STATE_DEBUG 0 = true →
    exec (.jtagBar0Access off size none) s = exec (.rcFieldRead .jtag off size) s ∧
    exec (.jtagBar0Access off size (some v)) s = exec (.registerWrite .jtag off size v) s) ∧
  (∀ (s : State) (off size : Nat) (v : Word), s.flag F.SEC_STATE_DEBUG 0 = false →
    exec (.jtagBar0Access off size none) s = .next (s.emit (.readData .jtag off 0)) ∧
    exec (.jtagBar0Access off size (some v)) s = .next s)

/-- R442: `TST_ELOG_POP` removes the oldest entry of the error log. R438: `GO` of `TST_MBIST` starts a run over the clusters
named unless it is refused with `FAIL`; the end of a run wipes those clusters. -/
def Sys2Proof.Claims.ElogPopAndMbist : Prop :=
  (∀ (s : State) (f : Func) (v : Word), Open s f 0xC0_0030 → getBits v 0 0 = 1 →
    exec (.tstElogPop f v) s = .next { s with test := { s.test with elog := s.test.elog.drop 1 } }) ∧
  (∀ (s : State) (f : Func) (v : Word), Open s f 0xC0_0018 → getBits v 63 63 = 1 →
    s.getF F.PWR_STAT_STATE 0 = 0 → s.flag F.TST_MBIST_GO 0 = false →
    (∀ c, c < 32 → natBits (getBits v 31 0) c c = 1 → ∀ p, p < 8 → s.clusterPart c = some p → s.running p = false) →
    ∃ u, exec (.tstMbistGo f v) s = .next u ∧ u.flag F.TST_MBIST_GO 0 = true ∧ u.flag F.TST_MBIST_FAIL 0 = false ∧
      u.test.bist = u.getF F.TST_MBIST_CLUSTERS 0 ∧ u.getF F.TST_MBIST_CLUSTERS 0 = getBits v 31 0 ∧
      u = { s with regs := u.regs, test := u.test } ∧ ∀ o, o ≠ 0xC0_0018 → u.word o = s.word o) ∧
  (∀ s : State, s.flag F.TST_MBIST_GO 0 = true →
    ∃ u, exec (.mbistDone none) s = .next u ∧ u.test.bist = 0 ∧ u.host = s.host ∧ u.parts = s.parts ∧
      (∀ c a, c < 32 → natBits s.test.bist c c = 1 → clusterAddr c ≤ a → a < clusterAddr c + 0x200_0000 → u.rd8 a = 0) ∧
      (∀ a, a < umberEnd → u.rd8 a = s.rd8 a))

/-- R439, R440: a segment that is due saves the state of the eight tiles of its cluster and takes eight activations of the
beat; one whose eight signatures are the golden ones ends with the tiles restored, and the sixteenth completes the
cluster's test. R246: the traffic generator sends `COUNT` TEST messages; those to itself the checker counts as good.
The golden signatures are opaque (assumption 14); when a segment is due is read from R439 and R440 (assumption 108). -/
def Sys2Proof.Claims.AshSegmentsAndTraffic : Prop :=
  (∀ (s : State) (c seg p : Nat), s.clusterPart c = some p → s.ashStarts p c seg = true →
    ∃ u, exec (.ashSegmentStart c seg) s = .next u ∧ u.test.ashRun = s.test.ashRun ++ [(c, seg)] ∧
      (∀ i, i < 8 → (8 * c + i, s.tile (8 * c + i)) ∈ u.test.saved) ∧ (u.part p).grants = (s.bn, s.grantsUsed p + 8) ∧
      u = { s with parts := u.parts, test := u.test } ∧ ∀ q, q ≠ p → u.part q = s.part q) ∧
  (∀ (s : State) (c seg : Nat), s.test.ashRun.find? (·.1 = c) = some (c, seg) → seg < 16 →
    ∃ u, exec (.ashSegmentEnd c (List.replicate 8 (Config.ashGolden seg 1))) s = .next u ∧
      u.test.ashRun = s.test.ashRun.filter (·.1 ≠ c) ∧ (∀ i, i < 8 → ¬ u.test.saved.any (·.1 = 8 * c + i)) ∧
      u.getF F.TST_ASH_STAT_PASSES 0 = (if seg = 15 then min (s.getF F.TST_ASH_STAT_PASSES 0 + 1) (2 ^ 32 - 1)
        else s.getF F.TST_ASH_STAT_PASSES 0) ∧
      u = { s with regs := u.regs, tiles := u.tiles, parts := u.parts, test := u.test }) ∧
  (∀ (s : State) (f : Func) (v : Word), Open s f 0xC0_0038 → getBits v 63 63 = 1 → s.flag F.TST_FTG_GO 0 = false →
    getBits v 48 32 = s.pos →
    ∃ u, exec (.tstFtgGo f v) s = .next u ∧ u.test.ftgSent = getBits v 31 0 ∧
      u.getF F.TST_FCHK_GOOD 0 = min (s.getF F.TST_FCHK_GOOD 0 + getBits v 31 0) (2 ^ 32 - 1) ∧
      u.getF F.TST_FCHK_BAD 0 = s.getF F.TST_FCHK_BAD 0 ∧ u = { s with regs := u.regs, test := u.test } ∧
      ∀ o, o ≠ 0xC0_0038 → o ≠ 0xC0_0040 → u.word o = s.word o)

/-- JTAG, error log, memory BIST, Ash segments and test traffic: `Claims.JtagCommands`; `Claims.ElogPopAndMbist`;
`Claims.AshSegmentsAndTraffic`. -/
def Obligations.TestAndDebug : Prop :=
  Claims.JtagCommands ∧ Claims.ElogPopAndMbist ∧ Claims.AshSegmentsAndTraffic
end

