-- ==== Sys2Proof/Laws/Sparse.lean ====
section
/-! SUPPORT. Laws of sparse maps and of bit fields: read after write, and that every operation keeps the canonical
form. -/

namespace Sys2Proof.Machine

variable {α : Type}

theorem mget_mdel (d : α) (m : List (Nat × α)) (k j : Nat) :
    mget d (mdel m k) j = if j = k then d else mget d m j := by
  induction m with
  | nil => simp [mdel, mget]
  | cons c m ih =>
    obtain ⟨a, v⟩ := c
    by_cases h : a = k
    · subst h
      simp only [mdel, if_pos, ih, mget]
      by_cases hj : j = a
      · simp [hj]
      · simp [hj, Ne.symm hj]
    · simp only [mdel, if_neg h, mget, ih]
      by_cases hj : j = k
      · subst hj
        simp [h]
      · simp [hj]

theorem mget_mins (d : α) (m : List (Nat × α)) (k j : Nat) (v : α) :
    mget d (mins m k v) j = if j = k then v else mget d m j := by
  induction m with
  | nil => simp [mins, mget, eq_comm]
  | cons c m ih =>
    obtain ⟨a, w⟩ := c
    unfold mins
    split
    · simp [mget, eq_comm]
    · split
      · rename_i h
        subst h
        by_cases hj : j = a
        · simp [mget, hj]
        · simp [mget, hj, Ne.symm hj]
      · rename_i h
        by_cases hj : j = k
        · subst hj
          simp [mget, h, ih]
        · simp [mget, ih, hj]

/-- A read after a write: the value written at its key, every other key as before. -/
theorem mget_mput [DecidableEq α] (d : α) (m : List (Nat × α)) (k j : Nat) (v : α) :
    mget d (mput d m k v) j = if j = k then v else mget d m j := by
  unfold mput
  split
  · rename_i h
    rw [mget_mdel, h]
  · exact mget_mins d m k j v

@[simp] theorem mget_mput_self [DecidableEq α] (d : α) (m : List (Nat × α)) (k : Nat) (v : α) :
    mget d (mput d m k v) k = v := by simp [mget_mput]

theorem mget_mput_ne [DecidableEq α] (d : α) (m : List (Nat × α)) {k j : Nat} (v : α) (h : j ≠ k) :
    mget d (mput d m k v) j = mget d m j := by simp [mget_mput, h]

@[simp] theorem mget_mins_self (d : α) (m : List (Nat × α)) (k : Nat) (v : α) :
    mget d (mins m k v) k = v := by simp [mget_mins]

/-! ## The canonical form -/

theorem mabove_mono {m : List (Nat × α)} {a b : Nat} (h : a ≤ b) (hm : mabove b m = true) : mabove a m = true := by
  induction m with
  | nil => rfl
  | cons c m ih =>
    simp only [mabove, Bool.and_eq_true, decide_eq_true_eq] at hm ⊢
    exact ⟨Nat.lt_of_le_of_lt h hm.1, ih hm.2⟩

theorem mabove_mdel {m : List (Nat × α)} {a : Nat} (k : Nat) (h : mabove a m = true) : mabove a (mdel m k) = true := by
  induction m with
  | nil => rfl
  | cons c m ih =>
    simp only [mabove, Bool.and_eq_true, decide_eq_true_eq] at h
    unfold mdel
    split
    · exact ih h.2
    · simp [mabove, h.1, ih h.2]

theorem mabove_mins {m : List (Nat × α)} {a k : Nat} (v : α) (h : mabove a m = true) (hk : a < k) :
    mabove a (mins m k v) = true := by
  induction m with
  | nil => simp [mins, mabove, hk]
  | cons c m ih =>
    simp only [mabove, Bool.and_eq_true, decide_eq_true_eq] at h
    unfold mins
    split
    · simp [mabove, hk, h.1, h.2]
    · split
      · simp [mabove, hk, h.2]
      · simp [mabove, h.1, ih h.2]

theorem mabove_filter {m : List (Nat × α)} {a : Nat} (q : Nat × α → Bool) (h : mabove a m = true) :
    mabove a (m.filter q) = true := by
  induction m with
  | nil => rfl
  | cons c m ih =>
    simp only [mabove, Bool.and_eq_true, decide_eq_true_eq] at h
    rw [List.filter_cons]
    split
    · simp [mabove, h.1, ih h.2]
    · exact ih h.2

theorem mwf_mdel [DecidableEq α] {d : α} {m : List (Nat × α)} (k : Nat) (h : mwf d m = true) :
    mwf d (mdel m k) = true := by
  induction m with
  | nil => rfl
  | cons c m ih =>
    simp only [mwf, Bool.and_eq_true, decide_eq_true_eq] at h
    unfold mdel
    split
    · exact ih h.2
    · simp [mwf, h.1.1, mabove_mdel k h.1.2, ih h.2]

theorem mwf_mins [DecidableEq α] {d : α} {m : List (Nat × α)} (k : Nat) {v : α} (hv : v ≠ d) (h : mwf d m = true) :
    mwf d (mins m k v) = true := by
  induction m with
  | nil => simp [mins, mwf, mabove, hv]
  | cons c m ih =>
    have h' := h
    simp only [mwf, Bool.and_eq_true, decide_eq_true_eq] at h
    unfold mins
    split
    · rename_i hk
      simp [mwf, hv, mabove, hk, h.1.1, h.1.2, h.2, mabove_mono (Nat.le_of_lt hk) h.1.2]
    · split
      · rename_i ha
        subst ha
        simp [mwf, hv, h.1.2, h.2]
      · rename_i h1 h2
        simp [mwf, h.1.1, ih h.2, mabove_mins v h.1.2 (by omega : c.1 < k)]

/-- Every write keeps the canonical form. -/
theorem mwf_mput [DecidableEq α] {d : α} {m : List (Nat × α)} (k : Nat) (v : α) (h : mwf d m = true) :
    mwf d (mput d m k v) = true := by
  unfold mput
  split
  · exact mwf_mdel k h
  · exact mwf_mins k ‹_› h

/-- Leaving entries out keeps the canonical form. -/
theorem mwf_filter [DecidableEq α] {d : α} {m : List (Nat × α)} (q : Nat × α → Bool) (h : mwf d m = true) :
    mwf d (m.filter q) = true := by
  induction m with
  | nil => rfl
  | cons c m ih =>
    simp only [mwf, Bool.and_eq_true, decide_eq_true_eq] at h
    rw [List.filter_cons]
    split
    · simp [mwf, h.1.1, mabove_filter q h.1.2, ih h.2]
    · exact ih h.2

/-! ## Bit fields -/

theorem getBits_eq (w : Word) (hi lo : Nat) : getBits w hi lo = (w.extractLsb' lo (hi + 1 - lo)).toNat := by
  simp [getBits, BitVec.extractLsb'_toNat]

theorem fieldMask_getLsbD (hi lo i : Nat) : (fieldMask hi lo).getLsbD i = (decide (i < 64) && decide (lo ≤ i) && decide (i ≤ hi)) := by
  unfold fieldMask
  rw [BitVec.getLsbD_shiftLeft, BitVec.getLsbD_ofNat, Nat.testBit_two_pow_sub_one]
  by_cases h1 : i < 64
  · by_cases h2 : lo ≤ i
    · simp only [h1, h2, decide_true, Bool.true_and, Nat.not_lt.mpr h2, decide_false, Bool.not_false]
      by_cases h3 : i ≤ hi
      · simp [h3, show i - lo < hi + 1 - lo by omega, show i - lo < 64 by omega]
      · simp [h3, show ¬ i - lo < hi + 1 - lo by omega]
    · simp [h2, Nat.lt_of_not_le h2]
  · simp [h1]

theorem putBits_getLsbD (w : Word) (hi lo v i : Nat) :
    (putBits w hi lo v).getLsbD i =
      if lo ≤ i ∧ i ≤ hi ∧ i < 64 then v.testBit (i - lo) else w.getLsbD i := by
  unfold putBits
  rw [BitVec.getLsbD_or, BitVec.getLsbD_and, BitVec.getLsbD_and, BitVec.getLsbD_not, fieldMask_getLsbD,
    BitVec.getLsbD_shiftLeft, BitVec.getLsbD_ofNat]
  by_cases h1 : i < 64
  · by_cases h2 : lo ≤ i <;> by_cases h3 : i ≤ hi <;>
      simp [h1, h2, h3, show i - lo < 64 by omega]
  · simp [h1, BitVec.getLsbD_of_ge w i (by omega)]

/-- A field reads what was last put into it, cut to its width. -/
theorem getBits_putBits (w : Word) {hi lo : Nat} (v : Nat) (h : lo ≤ hi) (h64 : hi < 64) :
    getBits (putBits w hi lo v) hi lo = v % 2 ^ (hi + 1 - lo) := by
  rw [getBits_eq]
  apply Nat.eq_of_testBit_eq
  intro i
  rw [BitVec.testBit_toNat, BitVec.getLsbD_extractLsb', putBits_getLsbD, Nat.testBit_mod_two_pow]
  by_cases hi' : i < hi + 1 - lo
  · simp [hi', show lo ≤ lo + i by omega, show lo + i ≤ hi by omega, show lo + i < 64 by omega]
  · simp [hi']

/-- A field keeps its value when another field of the word is written. -/
theorem getBits_putBits_ne (w : Word) {hi lo hi' lo' : Nat} (v : Nat) (h : hi < lo' ∨ hi' < lo) :
    getBits (putBits w hi' lo' v) hi lo = getBits w hi lo := by
  rw [getBits_eq, getBits_eq]
  congr 1
  apply BitVec.eq_of_getLsbD_eq
  intro i hi2
  rw [BitVec.getLsbD_extractLsb', BitVec.getLsbD_extractLsb', putBits_getLsbD]
  have : ¬ (lo' ≤ lo + i ∧ lo + i ≤ hi' ∧ lo + i < 64) := by omega
  simp [this]

theorem getBits_lt (w : Word) (hi lo : Nat) : getBits w hi lo < 2 ^ (hi + 1 - lo) :=
  Nat.mod_lt _ (Nat.two_pow_pos _)

/-! ## Little-endian numbers -/

@[simp] theorem leBytes_length (n v : Nat) : (leBytes n v).length = n := by
  induction n generalizing v with
  | zero => rfl
  | succ n ih => simp [leBytes, ih]

theorem leNat_leBytes (n v : Nat) : leNat (leBytes n v) = v % 256 ^ n := by
  induction n generalizing v with
  | zero => simp [leBytes, leNat, Nat.mod_one]
  | succ n ih =>
    rw [leBytes, leNat, ih, BitVec.toNat_ofNat, Nat.pow_succ 256, Nat.mul_comm (256 ^ n) 256, Nat.mod_mul]

end Sys2Proof.Machine
end

