-- ==== Sys2Proof/Laws/Frames.lean ====
section
/-! SUPPORT. Lengths of what the ciphers give, and what a stream port makes of the frames that a peer builds: a protected
frame is read back as it was built. -/

namespace Sys2Proof.Machine

/-! ## Lengths -/

theorem addKey_length (k b : List Byte) : (addKey k b).length = min k.length b.length := List.length_zipWith

theorem nextKeyWord_length {ws : List (List Byte)} (i : Nat) (h8 : 8 ≤ ws.length) (h : ∀ w ∈ ws, w.length = 4) :
    (nextKeyWord ws i).length = 4 := by
  match ws, h8 with
  | a :: b :: c :: d :: e :: f :: g :: x :: l, _ =>
    have ha : a.length = 4 := h a (by simp)
    have hx : x.length = 4 := h x (by simp)
    obtain ⟨a0, a1, a2, a3, rfl⟩ : ∃ p q r t, a = [p, q, r, t] := by
      match a, ha with
      | [p, q, r, t], _ => exact ⟨p, q, r, t, rfl⟩
    unfold nextKeyWord
    simp only [List.headD_cons, List.length_zipWith, List.getD_cons_succ, List.getD_cons_zero, hx]
    split
    · simp
    · split <;> simp

theorem keyWords {n : Nat} {ws : List (List Byte)} (h8 : 8 ≤ ws.length) (h : ∀ w ∈ ws, w.length = 4) :
    let l := (List.range n).foldl (fun ws i => nextKeyWord ws (8 + i) :: ws) ws
    l.length = ws.length + n ∧ ∀ w ∈ l, w.length = 4 := by
  induction n with
  | zero => exact ⟨rfl, h⟩
  | succ n ih =>
    rw [List.range_succ, List.foldl_append]
    obtain ⟨h1, h2⟩ := ih
    refine ⟨by simp only [List.foldl_cons, List.foldl_nil, List.length_cons, h1]; omega, ?_⟩
    intro w hw
    simp only [List.foldl_cons, List.foldl_nil, List.mem_cons] at hw
    rcases hw with rfl | hw
    · exact nextKeyWord_length _ (by omega) h2
    · exact h2 w hw

theorem groupsOf_length (n k : Nat) (l : List Byte) : (groupsOf n k l).length = k := by
  induction k generalizing l with
  | zero => rfl
  | succ k ih => simp [groupsOf, ih]

theorem groupsOf_all {n k : Nat} {l : List Byte} (h : n * k ≤ l.length) : ∀ x ∈ groupsOf n k l, x.length = n := by
  induction k generalizing l with
  | zero => simp [groupsOf]
  | succ k ih =>
    intro x hx
    simp only [groupsOf, List.mem_cons] at hx
    have : n * (k + 1) = n * k + n := rfl
    rcases hx with rfl | hx
    · simp; omega
    · exact ih (by simp; omega) x hx

theorem flatten_length_of {n : Nat} {l : List (List Byte)} (h : ∀ w ∈ l, w.length = n) : l.flatten.length = l.length * n := by
  induction l with
  | nil => simp
  | cons a l ih =>
    simp only [List.flatten_cons, List.length_append, List.length_cons, h a (by simp), ih fun w hw => h w (by simp [hw])]
    rw [Nat.add_mul]
    omega

/-- A 32-byte key gives fifteen round keys of 16 bytes. -/
theorem roundKeys_last {key : List Byte} (h : key.length = 32) : ((roundKeys key).getD 14 []).length = 16 := by
  have h0 : ∀ w ∈ (groupsOf 4 8 key).reverse, w.length = 4 := fun w hw =>
    groupsOf_all (n := 4) (k := 8) (by omega) w (List.mem_reverse.1 hw)
  obtain ⟨h1, h2⟩ := keyWords (n := 52) (by simp [groupsOf_length]) h0
  have h3 := flatten_length_of (n := 4) (l := ((List.range 52).foldl (fun ws i => nextKeyWord ws (8 + i) :: ws)
    (groupsOf 4 8 key).reverse).reverse) fun w hw => h2 w (List.mem_reverse.1 hw)
  rw [List.length_reverse, h1, List.length_reverse, groupsOf_length] at h3
  have h4 : (roundKeys key).length = 15 := groupsOf_length _ _ _
  rw [List.getD_eq_getElem _ _ (by omega)]
  exact groupsOf_all (n := 16) (k := 15) (by simp only [h3]; decide) _ (List.getElem_mem _)

theorem aesEnc_length {key : List Byte} (b : List Byte) (h : key.length = 32) : (aesEnc (roundKeys key) b).length = 16 := by
  unfold aesEnc
  rw [addKey_length, roundKeys_last h]
  simp [shiftRows]

@[simp] theorem highFirst_length (n v : Nat) : (highFirst n v).length = n := by simp [highFirst, lowFirst]

theorem gcmStream_length {key iv : List Byte} (n : Nat) (h : key.length = 32) : (gcmStream key iv 0 n).length = n := by
  unfold gcmStream
  have : ∀ m, ((List.range m).flatMap fun i => aesEnc (roundKeys key) (iv ++ highFirst 4 (2 + 0 / 16 + i))).length = 16 * m := by
    intro m
    induction m with
    | zero => rfl
    | succ m ih =>
      rw [List.range_succ, List.flatMap_append, List.length_append, ih]
      simp [aesEnc_length _ h]
      omega
  simp only [List.length_take, List.length_drop, this]
  omega

theorem gcmTag_length {key : List Byte} (iv aad ct : List Byte) (h : key.length = 32) : (gcmTag key iv aad ct).length = 16 := by
  unfold gcmTag
  rw [addKey_length, aesEnc_length _ h]
  simp

theorem addKey_addKey {k b : List Byte} (h : k.length = b.length) : addKey (addKey b k) k = b := by
  induction b generalizing k with
  | nil => simp [addKey]
  | cons x b ih =>
    match k, h with
    | y :: k, h =>
      have := ih (k := k) (by simpa using h)
      simp only [addKey, List.zipWith_cons_cons, List.cons.injEq] at this ⊢
      exact ⟨by rw [BitVec.xor_assoc]; simp, this⟩

theorem SecKey.cipher_length {k : SecKey} (pn : Nat) (b : List Byte) (h : k.key.length = 32) :
    (k.cipher pn b).length = b.length := by
  simp [SecKey.cipher, addKey_length, gcmStream_length _ h]

/-- Deciphering gives the text back. -/
theorem SecKey.cipher_cipher {k : SecKey} (pn : Nat) (b : List Byte) (h : k.key.length = 32) :
    k.cipher pn (k.cipher pn b) = b := by
  have hl := SecKey.cipher_length (k := k) pn b h
  unfold SecKey.cipher at hl ⊢
  rw [hl]
  exact addKey_addKey (gcmStream_length _ h)

theorem SecKey.icv_length {k : SecKey} (pn : Nat) (aad ct : List Byte) (h : k.key.length = 32) :
    (k.icv pn aad ct).length = 16 := gcmTag_length _ _ _ h

/-! ## The protected part (R375) -/

theorem le_append {a b : List Byte} {o n : Nat} (h : a.length = o) : le (a ++ b) o n = leNat (b.take n) := by
  subst h
  simp [le]

theorem leNat_take_leBytes (n v : Nat) (b : List Byte) : leNat ((leBytes n v ++ b).take n) = v % 256 ^ n := by
  rw [List.take_left' (by simp)]
  exact leNat_leBytes n v

/-- A stream frame's bytes are read back as they were built. -/
theorem readStream_streamBytes (h : StreamHdr) (d : List Byte) (ht : h.type < 256) (hp : h.part < 256) (hr : h.rank < 2 ^ 17)
    (hs : h.step < 2 ^ 64) (hq : h.seq < 2 ^ 32) (hd : d.length < 65536) :
    readStream h.port h.mac (streamBytes h d) = some (h, d) := by
  have e : ∀ (o n v : Nat) (a b : List Byte), a.length = o → v < 256 ^ n → le (a ++ (leBytes n v ++ b)) o n = v := by
    intro o n v a b ha hv
    rw [le_append ha, leNat_take_leBytes, Nat.mod_eq_of_lt hv]
  have hb : streamBytes h d = streamType ++ ([1] ++ (leBytes 1 h.type ++ (leBytes 1 h.part ++ (leBytes 1 (if h.last then 1 else 0) ++
      (leBytes 4 h.rank ++ (leBytes 8 h.step ++ (leBytes 4 h.seq ++ (leBytes 2 d.length ++ (leBytes 10 0 ++ d))))))))) := by
    simp [streamBytes]
  have l1 : le (streamBytes h d) 2 1 = 1 := by
    rw [hb]
    rfl
  have l2 : le (streamBytes h d) 3 1 = h.type := by
    rw [hb, ← List.append_assoc]
    exact e _ _ _ _ _ rfl (by simpa using ht)
  have l3 : le (streamBytes h d) 4 1 = h.part := by
    rw [hb, ← List.append_assoc, ← List.append_assoc]
    exact e _ _ _ _ _ (by simp [streamType]) (by simpa using hp)
  have l4 : le (streamBytes h d) 5 1 = if h.last then 1 else 0 := by
    rw [hb, ← List.append_assoc, ← List.append_assoc, ← List.append_assoc]
    exact e _ _ _ _ _ (by simp [streamType]) (by split <;> decide)
  have l5 : le (streamBytes h d) 6 4 = h.rank := by
    rw [hb, ← List.append_assoc, ← List.append_assoc, ← List.append_assoc, ← List.append_assoc]
    exact e _ _ _ _ _ (by simp [streamType]) (by omega)
  have l6 : le (streamBytes h d) 10 8 = h.step := by
    rw [hb, ← List.append_assoc, ← List.append_assoc, ← List.append_assoc, ← List.append_assoc, ← List.append_assoc]
    exact e _ _ _ _ _ (by simp [streamType]) (by omega)
  have l7 : le (streamBytes h d) 18 4 = h.seq := by
    rw [hb, ← List.append_assoc, ← List.append_assoc, ← List.append_assoc, ← List.append_assoc, ← List.append_assoc,
      ← List.append_assoc]
    exact e _ _ _ _ _ (by simp [streamType]) (by omega)
  have l8 : le (streamBytes h d) 22 2 = d.length := by
    rw [hb, ← List.append_assoc, ← List.append_assoc, ← List.append_assoc, ← List.append_assoc, ← List.append_assoc,
      ← List.append_assoc, ← List.append_assoc]
    exact e _ _ _ _ _ (by simp [streamType]) (by omega)
  have l9 : (streamBytes h d).drop 34 = d := by
    unfold streamBytes
    rw [List.drop_left' (by simp [streamType])]
  have l10 : (streamBytes h d).length = 34 + d.length := by simp [streamBytes, streamType]; omega
  have l11 : (streamBytes h d).take 2 = streamType := by
    rw [hb, List.take_left' (by simp [streamType])]
  unfold readStream
  simp only [l1, l2, l3, l4, l5, l6, l7, l8, l9, l10, l11]
  have hl : (decide ((if h.last then 1 else 0) % 2 = 1)) = h.last := by cases h.last <;> decide
  have hr' : h.rank % 131072 = h.rank := Nat.mod_eq_of_lt hr
  simp [hl, hr']

/-! ## A frame as it comes in (R373) -/

theorem ofHighFirst_append (a : List Byte) (x : Byte) : ofHighFirst (a ++ [x]) = 256 * ofHighFirst a + x.toNat := by
  simp [ofHighFirst]

theorem ofHighFirst_highFirst (n v : Nat) : ofHighFirst (highFirst n v) = v % 256 ^ n := by
  induction n generalizing v with
  | zero => simp [highFirst, lowFirst, ofHighFirst, Nat.mod_one]
  | succ n ih =>
    have : highFirst (n + 1) v = highFirst n (v / 256) ++ [BitVec.ofNat 8 v] := by
      simp only [highFirst, lowFirst, List.range_succ_eq_map, List.map_cons, List.reverse_cons, List.map_map, pow_zero, Nat.div_one]
      congr 3
      funext i
      simp only [Function.comp_apply, Nat.succ_eq_add_one, pow_succ']
      rw [Nat.div_div_eq_div_mul]
    have e : v % (256 * 256 ^ n) = v % 256 + 256 * (v / 256 % 256 ^ n) := Nat.mod_mul
    rw [this, ofHighFirst_append, ih, BitVec.toNat_ofNat, show (256 : Nat) ^ (n + 1) = 256 * 256 ^ n from Nat.pow_succ', e]
    omega

@[simp] theorem fcs_length (b : List Byte) : (fcs b).length = 4 := by simp [fcs]

/-- A frame with its FCS taken apart. -/
theorem withFcs_parts (f : List Byte) :
    (withFcs f).length = f.length + 4 ∧ (withFcs f).length - 4 = f.length ∧ (withFcs f).take f.length = f ∧
    (withFcs f).drop f.length = fcs f := by
  simp [withFcs]

@[simp] theorem macBytes_length (m : Nat) : (macBytes m).length = 6 := by simp [macBytes]

theorem leNat_macBytes {m : Nat} (h : m < 2 ^ 48) : leNat (macBytes m) = m := by
  rw [macBytes, leNat_leBytes, Nat.mod_eq_of_lt (by omega)]

theorem secTag_length {an pn n : Nat} {src : List Byte} (h : src.length = 6) : (secTag an pn n src).length = 16 := by
  simp [secTag, secType, h]

/-- What a SecTAG says. -/
theorem secTag_parts {an pn n : Nat} {src : List Byte} (han : an < 4) :
    let tag := secTag an pn n src
    tag.take 2 = secType ∧ le tag 2 1 = 0x2C + an ∧ le tag 3 1 = shortLen n ∧ tag.drop 8 = src ++ [0, 1] ∧
    ofHighFirst ((tag.drop 4).take 4) = pn % 2 ^ 32 := by
  intro tag
  have e : tag = secType ++ (leBytes 1 (0x2C + an) ++ (leBytes 1 (shortLen n) ++ (highFirst 4 (pn % 2 ^ 32) ++ (src ++ [0, 1])))) := by
    simp [tag, secTag]
  have a3 : tag = (secType ++ leBytes 1 (0x2C + an)) ++ (leBytes 1 (shortLen n) ++ (highFirst 4 (pn % 2 ^ 32) ++ (src ++ [0, 1]))) := by
    simp [e]
  have a4 : tag = (secType ++ leBytes 1 (0x2C + an) ++ leBytes 1 (shortLen n)) ++ (highFirst 4 (pn % 2 ^ 32) ++ (src ++ [0, 1])) := by
    simp [e]
  have a8 : tag = (secType ++ leBytes 1 (0x2C + an) ++ leBytes 1 (shortLen n) ++ highFirst 4 (pn % 2 ^ 32)) ++ (src ++ [0, 1]) := by
    simp [e]
  refine ⟨?_, ?_, ?_, ?_, ?_⟩
  · rw [e, List.take_left' (by simp [secType])]
  · rw [e, le_append (by simp [secType]), leNat_take_leBytes]; omega
  · rw [a3, le_append (by simp [secType]), leNat_take_leBytes]; unfold shortLen; split <;> omega
  · rw [a8, List.drop_left' (by simp [secType])]
  · rw [a4, List.drop_left' (by simp [secType]), List.take_left' (by simp), ofHighFirst_highFirst]; omega

/-- A protected frame taken apart: its addresses, and after them the SecTAG, the ciphertext and the ICV. -/
theorem protect_parts {key : SecKey} (an pn : Nat) {own src : List Byte} (text : List Byte) (hk : key.key.length = 32)
    (lo : own.length = 6) (ls : src.length = 6) :
    let f := protect key an pn own src text
    let tag := secTag an pn text.length src
    let ct := key.cipher pn text
    let icv := key.icv pn (own ++ src ++ tag) ct
    let rest := tag ++ (ct ++ icv)
    f.length = 44 + text.length ∧ f.take 12 = own ++ src ∧ f.drop 12 = rest ∧ rest.length = 32 + text.length ∧
    rest.take 2 = tag.take 2 ∧ rest.take 16 = tag ∧ (rest.drop 16).take text.length = ct ∧
    rest.drop (16 + text.length) = icv := by
  intro f tag ct icv rest
  have lt : tag.length = 16 := secTag_length ls
  have lc : ct.length = text.length := SecKey.cipher_length _ _ hk
  have li : icv.length = 16 := SecKey.icv_length _ _ _ hk
  have e : f = (own ++ src) ++ rest := by simp [f, protect, rest, tag, ct, icv]
  have lr : rest.length = 32 + text.length := by simp [rest, lt, lc, li]; omega
  refine ⟨?_, ?_, ?_, lr, ?_, List.take_left' lt, ?_, ?_⟩
  · rw [e, List.length_append, List.length_append, lo, ls, lr]; omega
  · rw [e, List.take_left' (by simp [lo, ls])]
  · rw [e, List.drop_left' (by simp [lo, ls])]
  · rw [List.take_append_of_le_length (by omega)]
  · rw [List.drop_left' lt, List.take_left' lc]
  · show (tag ++ (ct ++ icv)).drop (16 + text.length) = icv
    rw [← List.append_assoc, List.drop_left' (by simp [lt, lc])]

/-- A protected frame that a peer sends to a port's address is accepted and read as it was built, if its packet number is the
one that its low half stands for and is above the last. -/
theorem State.hear_protect (s : State) (k an pn last : Nat) (key : SecKey) (h : StreamHdr) (d : List Byte)
    (ha : s.assoc h.mac an = some (key, last)) (hk : key.key.length = 32) (hpn : last < pn)
    (hfull : fullPn (last + 1) (pn % 2 ^ 32) = pn) (han : an < 4) (hm : h.mac < 2 ^ 48) (hport : h.port = k) (ht : h.type < 256)
    (h7 : h.type ≠ 7) (hp : h.part < 256) (hr : h.rank < 2 ^ 17) (hs : h.step < 2 ^ 64) (hq : h.seq < 2 ^ 32)
    (hd : d.length ≤ 9134) :
    s.hear k (withFcs (protect key an pn (macBytes (s.getF F.STM_PMAC_MAC k)) (macBytes h.mac) (streamBytes h d))) =
      (s.acceptPn h.mac an pn, some (h, d)) := by
  have lx : (streamBytes h d).length = 34 + d.length := by simp [streamBytes, streamType]; omega
  obtain ⟨c0, c1, c2, c3⟩ := withFcs_parts (protect key an pn (macBytes (s.getF F.STM_PMAC_MAC k)) (macBytes h.mac) (streamBytes h d))
  obtain ⟨p1, p2, p3, p4, p5, p6, p7, p8⟩ := protect_parts an pn (streamBytes h d) hk (macBytes_length (s.getF F.STM_PMAC_MAC k)) (macBytes_length h.mac)
  obtain ⟨g0, g2, g3, g8, g4⟩ := secTag_parts (pn := pn) (n := (streamBytes h d).length) (src := macBytes h.mac) han
  have lr : 32 + (streamBytes h d).length - 32 = (streamBytes h d).length := by omega
  unfold hear
  simp only [c1, c2, c3, p2, p3, p5, g0]
  rw [if_neg (show secType ≠ tagType by decide)]
  rw [if_neg (by rw [c0, p1, lx]; simp only [ne_eq, not_true_eq_false, or_false]; omega)]
  rw [if_neg (by rw [List.take_left' (macBytes_length _)]; simp)]
  simp only [p5, g0, if_true]
  unfold readSealed
  have d6 : (macBytes (s.getF F.STM_PMAC_MAC k) ++ macBytes h.mac).drop 6 = macBytes h.mac := List.drop_left' (macBytes_length _)
  simp only [d6, p6, p4, lr, p7, p8, g2, g3, g8, g4, leNat_macBytes hm]
  rw [if_neg (by simp; omega), if_neg (by simp)]
  have ham : (0x2C + an) % 4 = an := by omega
  simp only [ham, ha, hfull]
  rw [if_neg (by simp), if_neg (by omega), SecKey.cipher_cipher _ _ hk]
  subst hport
  rw [readStream_streamBytes h d ht hp hr hs hq (by omega)]
  simp [h7]

/-- What a frame in clear is made of. -/
theorem State.clearFrame_parts {dst src body : List Byte} (hd : dst.length = 6) (hs : src.length = 6) :
    ∃ pad : List Byte, State.clearFrame dst src body = withFcs ((dst ++ src) ++ (body ++ pad)) ∧
      12 + body.length + pad.length = max 60 (12 + body.length) := by
  refine ⟨List.replicate (60 - (dst ++ src ++ body).length) 0, by simp [State.clearFrame], ?_⟩
  simp [hd, hs]; omega

/-- A stream frame's bytes are read back with filling after them. -/
theorem readStream_pad (h : StreamHdr) (d pad : List Byte) (ht : h.type < 256) (hp : h.part < 256) (hr : h.rank < 2 ^ 17)
    (hs : h.step < 2 ^ 64) (hq : h.seq < 2 ^ 32) (hd : d.length < 65536) :
    readStream h.port h.mac (streamBytes h d ++ pad) = some (h, d) := by
  have lx : (streamBytes h d).length = 34 + d.length := by simp [streamBytes, streamType]; omega
  have e : ∀ o n, o + n ≤ 34 → le (streamBytes h d ++ pad) o n = le (streamBytes h d) o n := by
    intro o n hon
    unfold le
    rw [List.drop_append_of_le_length (by omega), List.take_append_of_le_length (by simp; omega)]
  have l8 : le (streamBytes h d) 22 2 = d.length := by
    have hb : streamBytes h d = (streamType ++ [1] ++ leBytes 1 h.type ++ leBytes 1 h.part ++ leBytes 1 (if h.last then 1 else 0) ++
        leBytes 4 h.rank ++ leBytes 8 h.step ++ leBytes 4 h.seq) ++ (leBytes 2 d.length ++ (leBytes 10 0 ++ d)) := by
      simp [streamBytes]
    rw [hb, le_append (by simp [streamType]), leNat_take_leBytes]; omega
  have r := readStream_streamBytes h d ht hp hr hs hq hd
  unfold readStream at r ⊢
  simp only [l8] at r
  simp only [e 22 2 (by omega), e 2 1 (by omega), e 3 1 (by omega), e 4 1 (by omega), e 5 1 (by omega), e 6 4 (by omega), e 10 8 (by omega), e 18 4 (by omega), l8]
  rw [List.take_append_of_le_length (by omega), List.drop_append_of_le_length (by omega),
    List.take_append_of_le_length (by simp; omega)]
  split at r
  · simp at r
  · rename_i hn
    rw [not_or, not_or] at hn
    rw [if_neg (by rw [not_or, not_or, List.length_append]; exact ⟨hn.1, by omega, hn.2.2⟩)]
    exact r

/-- A KEX frame in clear to a port's address is read as it was built. -/
theorem State.hear_clear (s : State) (h : StreamHdr) (d : List Byte) (hm : h.mac < 2 ^ 48) (h7 : h.type = 7)
    (hp : h.part < 256) (hr : h.rank < 2 ^ 17) (hs : h.step < 2 ^ 64) (hq : h.seq < 2 ^ 32) (hd : d.length ≤ State.kexRoom) :
    s.hear h.port (State.clearFrame (macBytes (s.getF F.STM_PMAC_MAC h.port)) (macBytes h.mac) (streamBytes h d)) = (s, some (h, d)) := by
  have lx : (streamBytes h d).length = 34 + d.length := by simp [streamBytes, streamType]; omega
  obtain ⟨pad, e, lp⟩ := State.clearFrame_parts (body := streamBytes h d) (macBytes_length (s.getF F.STM_PMAC_MAC h.port)) (macBytes_length h.mac)
  have hd' : d.length ≤ 9166 := hd
  rw [e]
  obtain ⟨c0, c1, c2, c3⟩ := withFcs_parts ((macBytes (s.getF F.STM_PMAC_MAC h.port) ++ macBytes h.mac) ++ (streamBytes h d ++ pad))
  have t12 : ((macBytes (s.getF F.STM_PMAC_MAC h.port) ++ macBytes h.mac) ++ (streamBytes h d ++ pad)).take 12 = macBytes (s.getF F.STM_PMAC_MAC h.port) ++ macBytes h.mac := List.take_left' (by simp)
  have d12 : ((macBytes (s.getF F.STM_PMAC_MAC h.port) ++ macBytes h.mac) ++ (streamBytes h d ++ pad)).drop 12 = streamBytes h d ++ pad := List.drop_left' (by simp)
  have t2 : (streamBytes h d ++ pad).take 2 = streamType := by
    rw [List.take_append_of_le_length (by omega)]
    simp [streamBytes, streamType]
  unfold hear
  simp only [c1, c2, c3, t12, d12, t2]
  rw [if_neg (show streamType ≠ tagType by decide)]
  rw [if_neg (by rw [c0]; simp only [List.length_append, macBytes_length, lx, ne_eq, not_true_eq_false, or_false]; omega)]
  rw [if_neg (by rw [List.take_left' (macBytes_length _)]; simp)]
  simp only [t2]
  rw [if_neg (show streamType ≠ secType by decide), List.drop_left' (macBytes_length _), leNat_macBytes hm,
    readStream_pad h d pad (by omega) hp hr hs hq (by omega)]
  simp [h7]

end Sys2Proof.Machine
end

