-- ==== Sys2Proof/Laws/Keeps.lean ====
section
/-! SUPPORT. The relation every meaning keeps between the state before and after it: the queue is the same, a canonical
state stays canonical and the fuses only go forward. Here the relation, its rules for the shapes definitions are built
of, and the law of each basic operation; the files `Keeps…` beside it hold one law per function. -/

namespace Sys2Proof.Machine

/-- What every meaning keeps from state `a` to state `s`. -/
structure Keeps (a s : State) : Prop where
  queue : s.pending = a.pending
  canon : a.canonical = true → s.canonical = true
  fuses : a.ident.fusesFrom s.ident = true

theorem slotsFrom_refl (l : List OwnerSlot) : slotsFrom l l = true := by
  induction l with
  | nil => rfl
  | cons x l ih => simp [slotsFrom, ih]

theorem slotsFrom_trans {x y z : List OwnerSlot} (h1 : slotsFrom x y = true) (h2 : slotsFrom y z = true) :
    slotsFrom x z = true := by
  induction x generalizing y z with
  | nil => rfl
  | cons c x ih =>
    cases y with
    | nil => simp [slotsFrom] at h1
    | cons d y => cases z with
      | nil => simp [slotsFrom] at h2
      | cons e z =>
        simp only [slotsFrom, Bool.and_eq_true, decide_eq_true_eq, Bool.or_eq_true, Bool.not_eq_true'] at h1 h2 ⊢
        exact ⟨⟨h1.1.1.trans h2.1.1, by rcases h1.1.2 with h | h <;> rcases h2.1.2 with k | k <;> simp_all⟩, ih h1.2 h2.2⟩

theorem slotsFrom_append (l k : List OwnerSlot) : slotsFrom l (l ++ k) = true := by
  induction l with
  | nil => rfl
  | cons x l ih => simp [slotsFrom, ih]

theorem fusesFrom_refl (i : Ident) : i.fusesFrom i = true := by
  simp [Ident.fusesFrom, slotsFrom_refl]

theorem fusesFrom_trans {i j k : Ident} (h1 : i.fusesFrom j = true) (h2 : j.fusesFrom k = true) :
    i.fusesFrom k = true := by
  simp only [Ident.fusesFrom, Bool.and_eq_true, decide_eq_true_eq, Bool.or_eq_true] at h1 h2 ⊢
  obtain ⟨⟨⟨⟨a1, a2⟩, a3⟩, a4⟩, a5⟩ := h1
  obtain ⟨⟨⟨⟨b1, b2⟩, b3⟩, b4⟩, b5⟩ := h2
  refine ⟨⟨⟨⟨a1.trans b1, a2.trans b2⟩, slotsFrom_trans a3 b3⟩, ?_⟩, ?_⟩
  · rw [← a4, ← BitVec.and_assoc, b4]
  · rcases a5 with ((a5 | a5) | a5) | a5
    · exact Or.inl (Or.inl (Or.inl a5))
    · rcases b5 with ((b5 | b5) | b5) | b5
      · exact absurd a5 b5
      · exact Or.inl (Or.inl (Or.inr b5))
      · exact Or.inl (Or.inr (by omega))
      · exact Or.inr b5
    · exact Or.inl (Or.inr a5)
    · exact Or.inr (by omega)

theorem Keeps.refl (s : State) : Keeps s s := ⟨rfl, id, fusesFrom_refl _⟩

theorem Keeps.trans {a b c : State} (h : Keeps a b) (k : Keeps b c) : Keeps a c :=
  ⟨k.queue.trans h.queue, fun x => k.canon (h.canon x), fusesFrom_trans h.fuses k.fuses⟩

variable {a s : State}

/-! ## Shapes -/

theorem keeps_ite {c : Prop} [Decidable c] {x y : State} (hy : Keeps a y) (hx : Keeps a y → Keeps a x) :
    Keeps a (if c then x else y) := by
  split
  · exact hx hy
  · exact hy

theorem keeps_foldl {α : Type} {f : State → α → State} {l : List α} (hs : Keeps a s)
    (hf : ∀ s x, Keeps a s → Keeps a (f s x)) : Keeps a (l.foldl f s) := by
  induction l generalizing s with
  | nil => exact hs
  | cons x l ih => exact ih (hf _ x hs)

theorem keeps_foldl_fst {α β : Type} {f : State × β → α → State × β} {l : List α} {x : State × β} (hs : Keeps a x.1)
    (hf : ∀ x y, Keeps a x.1 → Keeps a (f x y).1) : Keeps a (l.foldl f x).1 := by
  induction l generalizing x with
  | nil => exact hs
  | cons y l ih => exact ih (hf _ y hs)

/-- An update of the identity that leaves the fuses alone. -/
theorem fusesFrom_of_same {i j : Ident} (h1 : j.lc = i.lc) (h2 : j.secret = i.secret) (h3 : j.counter = i.counter)
    (h4 : j.slots = i.slots) : i.fusesFrom j = true := by
  simp [Ident.fusesFrom, h1, h2, h3, h4, slotsFrom_refl]

/-! ## Parts of the state that carry no canonical form -/

theorem keeps_plain (h : Keeps a s)
    (now : Nat) (beatStart : Nat) (bnLoad : Option Word) (bnStep : Option Nat) (slew : Int) (bnSteps : List
    (Nat × Nat)) (retake : Bool) (holdoverBeats : Nat) (electionBeats : Nat) (lostMaster : Option Nat)
    (altUpstream : Option Nat) (refPresent : Bool) (notice : Option (List Nat × Nat)) (history : List (Nat ×
    Nat × Byte)) (peers : List Peer) (frameSeq : List (Nat × Nat)) (ide : List IdeStream) (pci : Pci) (power :
    Power) (test : Test) (out : List Out) (free : Nat) :
    Keeps a { s with
      now := now, beatStart := beatStart, bnLoad := bnLoad, bnStep := bnStep, slew := slew, bnSteps :=
      bnSteps, retake := retake, holdoverBeats := holdoverBeats, electionBeats := electionBeats, lostMaster
      := lostMaster, altUpstream := altUpstream, refPresent := refPresent, notice := notice, history :=
      history, peers := peers, frameSeq := frameSeq, ide := ide, pci := pci, power := power, test := test,
      out := out, free := free } :=
  ⟨h.queue, h.canon, h.fuses⟩

/-- As `keeps_plain`, with an update of the identity whose fuses follow. -/
theorem keeps_plainIdent (h : Keeps a s) (i : Ident) (power : Power) (hi : s.ident.fusesFrom i = true) :
    Keeps a { s with ident := i, power := power } := ⟨h.queue, h.canon, fusesFrom_trans h.fuses hi⟩

theorem keeps_ident (h : Keeps a s) (i : Ident) (hi : s.ident.fusesFrom i = true) :
    Keeps a { s with ident := i } := ⟨h.queue, h.canon, fusesFrom_trans h.fuses hi⟩

theorem regsWf_mdel {m : List (Nat × Word)} (k : Nat) (h : regsWf m = true) : regsWf (mdel m k) = true := by
  induction m with
  | nil => rfl
  | cons c m ih =>
    simp only [regsWf, Bool.and_eq_true, decide_eq_true_eq] at h
    unfold mdel
    split
    · exact ih h.2
    · simp [regsWf, h.1.1, mabove_mdel k h.1.2, ih h.2]

theorem regsWf_mins {m : List (Nat × Word)} (k : Nat) {v : Word} (hv : v ≠ regReset k) (h : regsWf m = true) :
    regsWf (mins m k v) = true := by
  induction m with
  | nil => simp [mins, regsWf, mabove, hv]
  | cons c m ih =>
    simp only [regsWf, Bool.and_eq_true, decide_eq_true_eq] at h
    unfold mins
    split
    · rename_i hk
      simp [regsWf, hv, mabove, hk, h.1.1, h.1.2, h.2, mabove_mono (Nat.le_of_lt hk) h.1.2]
    · split
      · rename_i ha
        subst ha
        simp [regsWf, hv, h.1.2, h.2]
      · rename_i h1 h2
        simp [regsWf, h.1.1, ih h.2, mabove_mins v h.1.2 (by omega : c.1 < k)]

theorem regsWf_mput {m : List (Nat × Word)} (k : Nat) (v : Word) (h : regsWf m = true) :
    regsWf (mput (regReset k) m k v) = true := by
  unfold mput
  split
  · exact regsWf_mdel k h
  · exact regsWf_mins k ‹_› h

theorem regsWf_filter {m : List (Nat × Word)} (q : Nat × Word → Bool) (h : regsWf m = true) :
    regsWf (m.filter q) = true := by
  induction m with
  | nil => rfl
  | cons c m ih =>
    simp only [regsWf, Bool.and_eq_true, decide_eq_true_eq] at h
    rw [List.filter_cons]
    split
    · simp [regsWf, h.1.1, mabove_filter q h.1.2, ih h.2]
    · exact ih h.2

/-- A change of the sparse maps that keeps each one's form. -/
theorem keeps_maps (h : Keeps a s) (regs : List (Nat × Word)) (mem host sram : List Host.Cell) (tiles : List (Nat × Tile))
    (parts : List (Nat × Part)) (ochre : List (Nat × OchreQ)) (units : List (Nat × Unit_)) (ports : List (Nat × Port))
    (movers : List (Nat × Mover)) (cmovers : List (Nat × CMover)) (queues : List (Nat × Queue))
    (history : List (Nat × Nat × Byte))
    (hm : Memory.wf s.mem = true → Memory.wf mem = true) (hh : Memory.wf s.host = true → Memory.wf host = true)
    (hs : Memory.wf s.sram = true → Memory.wf sram = true) (hr : regsWf s.regs = true → regsWf regs = true)
    (ht : mwf Tile.reset s.tiles = true → mwf Tile.reset tiles = true)
    (hp : mwf Part.reset s.parts = true → mwf Part.reset parts = true)
    (ho : mwf OchreQ.reset s.ochre = true → mwf OchreQ.reset ochre = true)
    (hu : mwf Unit_.reset s.units = true → mwf Unit_.reset units = true)
    (hk : mwf Port.reset s.ports = true → mwf Port.reset ports = true)
    (hv : mwf Mover.reset s.movers = true → mwf Mover.reset movers = true)
    (hc : mwf CMover.reset s.cmovers = true → mwf CMover.reset cmovers = true)
    (hq : mwf Queue.reset s.queues = true → mwf Queue.reset queues = true) :
    Keeps a { s with regs := regs, mem := mem, host := host, sram := sram, tiles := tiles, parts := parts, ochre := ochre,
                     units := units, ports := ports, movers := movers, cmovers := cmovers, queues := queues,
                     history := history } := by
  refine ⟨h.queue, fun hw => ?_, h.fuses⟩
  have hw := h.canon hw
  simp only [State.canonical, Bool.and_eq_true] at hw ⊢
  obtain ⟨⟨⟨⟨⟨⟨⟨⟨⟨⟨⟨w1, w2⟩, w3⟩, w4⟩, w5⟩, w6⟩, w7⟩, w8⟩, w9⟩, w10⟩, w11⟩, w12⟩ := hw
  exact ⟨⟨⟨⟨⟨⟨⟨⟨⟨⟨⟨hm w1, hh w2⟩, hs w3⟩, hr w4⟩, ht w5⟩, hp w6⟩, ho w7⟩, hu w8⟩, hk w9⟩, hv w10⟩, hc w11⟩, hq w12⟩

/-! ## The basic operations -/

namespace State

theorem setWord_keeps (h : Keeps a s) (off : Nat) (w : Word) : Keeps a (s.setWord off w) :=
  keeps_maps h _ _ _ _ _ _ _ _ _ _ _ _ _ id id id (regsWf_mput off w) id id id id id id id id

theorem setTile_keeps (h : Keeps a s) (g : Nat) (t : Tile) : Keeps a (s.setTile g t) :=
  keeps_maps h _ _ _ _ _ _ _ _ _ _ _ _ _ id id id id (mwf_mput g t) id id id id id id id

theorem setPart_keeps (h : Keeps a s) (p : Nat) (x : Part) : Keeps a (s.setPart p x) :=
  keeps_maps h _ _ _ _ _ _ _ _ _ _ _ _ _ id id id id id (mwf_mput p x) id id id id id id

theorem setOch_keeps (h : Keeps a s) (e q : Nat) (x : OchreQ) : Keeps a (s.setOch e q x) :=
  keeps_maps h _ _ _ _ _ _ _ _ _ _ _ _ _ id id id id id id (mwf_mput _ x) id id id id id

theorem setUnit_keeps (h : Keeps a s) (u : Nat) (x : Unit_) : Keeps a (s.setUnit u x) :=
  keeps_maps h _ _ _ _ _ _ _ _ _ _ _ _ _ id id id id id id id (mwf_mput u x) id id id id

theorem setPort_keeps (h : Keeps a s) (k : Nat) (x : Port) : Keeps a (s.setPort k x) :=
  keeps_maps h _ _ _ _ _ _ _ _ _ _ _ _ _ id id id id id id id id (mwf_mput k x) id id id

theorem setMover_keeps (h : Keeps a s) (k : Nat) (x : Mover) : Keeps a (s.setMover k x) :=
  keeps_maps h _ _ _ _ _ _ _ _ _ _ _ _ _ id id id id id id id id id (mwf_mput k x) id id

theorem setCmover_keeps (h : Keeps a s) (c : Nat) (x : CMover) : Keeps a (s.setCmover c x) :=
  keeps_maps h _ _ _ _ _ _ _ _ _ _ _ _ _ id id id id id id id id id id (mwf_mput c x) id

theorem setQueue_keeps (h : Keeps a s) (q : Nat) (x : Queue) : Keeps a (s.setQueue q x) :=
  keeps_maps h _ _ _ _ _ _ _ _ _ _ _ _ _ id id id id id id id id id id id (mwf_mput q x)

theorem wr8_keeps (h : Keeps a s) (b : Nat) (v : Byte) : Keeps a (s.wr8 b v) :=
  keeps_maps h _ _ _ _ _ _ _ _ _ _ _ _ _ (mwf_mput b v) id id id id id id id id id id id

theorem hwr8_keeps (h : Keeps a s) (b : Nat) (v : Byte) : Keeps a (s.hwr8 b v) :=
  keeps_maps h _ _ _ _ _ _ _ _ _ _ _ _ _ id (mwf_mput b v) id id id id id id id id id id

theorem wipe_keeps (h : Keeps a s) (b n : Nat) : Keeps a (s.wipe b n) :=
  keeps_maps h _ _ _ _ _ _ _ _ _ _ _ _ _ (mwf_filter _) id id id id id id id id id id id

end State
end Sys2Proof.Machine
end

