-- ==== Sys2Proof/Laws/KeepsHub.lean ====
section
/-! SUPPORT. What the functions and meanings of
the registers, the beat, faults, boot and resets keep:
for each, the law that `Keeps` holds of the state it makes if it holds of the state it is given. -/

set_option linter.unusedTactic false
set_option linter.unreachableTactic false
set_option linter.unusedVariables false

namespace Sys2Proof.Machine

variable {a s : State}

theorem State.fresh_keeps (h : Keeps a s) :
    Keeps a (State.fresh s).2 := by
  unfold State.fresh
  try dsimp only
  repeat' first
    | with_reducible first | assumption
    | (fail_if_no_progress (with_reducible apply keeps_plain))

theorem State.putF_keeps (f : Fld) (i v : Nat) (h : Keeps a s) :
    Keeps a (State.putF s f i v) := by
  unfold State.putF
  try dsimp only
  repeat' first
    | with_reducible first | assumption | apply State.setWord_keeps
    | intro _

theorem State.recordWake_keeps (source from_ : Nat) (h : Keeps a s) :
    Keeps a (State.recordWake s source from_) := by
  unfold State.recordWake
  try dsimp only
  repeat' first
    | with_reducible first | assumption | apply State.fresh_keeps | apply State.putF_keeps
    | intro _ | split

theorem State.wakeFrom_keeps (source : Nat) (h : Keeps a s) :
    Keeps a (State.wakeFrom s source) := by
  unfold State.wakeFrom
  try dsimp only
  repeat' first
    | with_reducible first | assumption | apply keeps_ite | apply State.recordWake_keeps | apply State.putF_keeps
    | intro _ | split | (fail_if_no_progress (with_reducible apply keeps_plain))

theorem State.arriveWork_keeps (h : Keeps a s) :
    Keeps a (State.arriveWork s) := by
  unfold State.arriveWork
  try dsimp only
  repeat' first
    | with_reducible first | assumption | apply keeps_ite | apply State.wakeFrom_keeps
    | intro _ | split

theorem State.bumpBy_keeps (f : Fld) (i n : Nat) (h : Keeps a s) :
    Keeps a (State.bumpBy s f i n) := by
  unfold State.bumpBy
  try dsimp only
  repeat' first
    | with_reducible first | assumption | apply State.putF_keeps
    | intro _

theorem State.bump_keeps (f : Fld) (i : Nat) (h : Keeps a s) :
    Keeps a (State.bump s f i) := by
  unfold State.bump
  try dsimp only
  repeat' first
    | with_reducible first | assumption | apply State.bumpBy_keeps
    | intro _

theorem State.closeBypass_keeps (h : Keeps a s) :
    Keeps a (State.closeBypass s) := by
  unfold State.closeBypass
  try dsimp only
  repeat' first
    | with_reducible first | assumption | apply State.putF_keeps
    | intro _

theorem State.modPart_keeps (p : Nat) (f : Part → Part) (h : Keeps a s) :
    Keeps a (State.modPart s p f) := by
  unfold State.modPart
  try dsimp only
  repeat' first
    | with_reducible first | assumption | apply State.setPart_keeps
    | intro _

theorem State.modTile_keeps (g : Nat) (f : Tile → Tile) (h : Keeps a s) :
    Keeps a (State.modTile s g f) := by
  unfold State.modTile
  try dsimp only
  repeat' first
    | with_reducible first | assumption | apply State.setTile_keeps
    | intro _

theorem State.incToken_keeps (g k : Nat) (h : Keeps a s) :
    Keeps a (State.incToken s g k) := by
  unfold State.incToken
  try dsimp only
  repeat' first
    | with_reducible first | assumption | apply keeps_ite | apply State.modTile_keeps
    | intro _ | split

theorem State.deliver_keeps (p token : Nat) (h : Keeps a s) :
    Keeps a (State.deliver s p token) := by
  unfold State.deliver
  try dsimp only
  repeat' first
    | with_reducible first | assumption | apply keeps_ite | apply State.modPart_keeps | apply State.incToken_keeps
    | intro _ | split

theorem State.elog_keeps (src idx cause detail : Nat) (h : Keeps a s) :
    Keeps a (State.elog s src idx cause detail) := by
  unfold State.elog
  try dsimp only
  repeat' first
    | with_reducible first | assumption | apply keeps_ite | apply State.bump_keeps
    | intro _ | split | (fail_if_no_progress (with_reducible apply keeps_plain))

theorem State.emit_keeps (o : Out) (h : Keeps a s) :
    Keeps a (State.emit s o) := by
  unfold State.emit
  try dsimp only
  repeat' first
    | with_reducible first | assumption
    | (fail_if_no_progress (with_reducible apply keeps_plain))

theorem State.fail_keeps (cause : Nat) (h : Keeps a s) :
    Keeps a (State.fail s cause) := by
  unfold State.fail
  try dsimp only
  repeat' first
    | with_reducible first | assumption | apply keeps_ite | apply State.putF_keeps | apply State.closeBypass_keeps
    | intro _ | split

theorem State.signalQ_keeps (q : Nat) (h : Keeps a s) :
    Keeps a (State.signalQ s q) := by
  unfold State.signalQ
  try dsimp only
  repeat' first
    | with_reducible first | assumption | apply keeps_ite | apply State.emit_keeps
    | intro _ | split

theorem State.pevt_keeps (p bit : Nat) (h : Keeps a s) :
    Keeps a (State.pevt s p bit) := by
  unfold State.pevt
  try dsimp only
  repeat' first
    | with_reducible first | assumption | apply State.putF_keeps | apply State.signalQ_keeps
    | intro _

theorem State.freezeLog_keeps (p type idx : Nat) (write : Bool) (addr : Nat) (h : Keeps a s) :
    Keeps a (State.freezeLog s p type idx write addr) := by
  unfold State.freezeLog
  try dsimp only
  repeat' first
    | with_reducible first | assumption | apply keeps_ite | apply State.modPart_keeps | apply State.bump_keeps
                            | apply State.pevt_keeps | apply State.putF_keeps
    | intro _ | split

theorem State.genErrIn_keeps (cnt valid fn kd ofs : Fld) (i : Nat) (f : Func) (kind off : Nat) (h : Keeps a s) :
    Keeps a (State.genErrIn s cnt valid fn kd ofs i f kind off) := by
  unfold State.genErrIn
  try dsimp only
  repeat' first
    | with_reducible first | assumption | apply keeps_ite | apply State.bump_keeps | apply State.putF_keeps
    | intro _ | split

theorem State.mevt_keeps (bit : Nat) (h : Keeps a s) :
    Keeps a (State.mevt s bit) := by
  unfold State.mevt
  try dsimp only
  repeat' first
    | with_reducible first | assumption | apply State.putF_keeps | apply State.emit_keeps
    | intro _

theorem State.genErr_keeps (f : Func) (kind off : Nat) (h : Keeps a s) :
    Keeps a (State.genErr s f kind off) := by
  unfold State.genErr
  try dsimp only
  repeat' first
    | with_reducible first | assumption | apply keeps_ite | apply State.genErrIn_keeps | apply State.mevt_keeps
                            | apply State.elog_keeps
    | intro _ | split

theorem State.hwr_keeps (x1 : Nat) (x2 : List Byte) (h : Keeps a s) :
    Keeps a (State.hwr s x1 x2) := by
  induction x2 generalizing s x1 with
  | nil => exact h
  | cons b bs ih => exact ih _ (State.hwr8_keeps h _ _)

theorem State.modCmover_keeps (c : Nat) (f : CMover → CMover) (h : Keeps a s) :
    Keeps a (State.modCmover s c f) := by
  unfold State.modCmover
  try dsimp only
  repeat' first
    | with_reducible first | assumption | apply State.setCmover_keeps
    | intro _

theorem State.modMover_keeps (x1 : Nat) (f : Mover → Mover) (h : Keeps a s) :
    Keeps a (State.modMover s x1 f) := by
  unfold State.modMover
  try dsimp only
  repeat' first
    | with_reducible first | assumption | apply State.setMover_keeps
    | intro _

theorem State.modOch_keeps (e q : Nat) (f : OchreQ → OchreQ) (h : Keeps a s) :
    Keeps a (State.modOch s e q f) := by
  unfold State.modOch
  try dsimp only
  repeat' first
    | with_reducible first | assumption | apply State.setOch_keeps
    | intro _

theorem State.modPort_keeps (k : Nat) (f : Port → Port) (h : Keeps a s) :
    Keeps a (State.modPort s k f) := by
  unfold State.modPort
  try dsimp only
  repeat' first
    | with_reducible first | assumption | apply State.setPort_keeps
    | intro _

theorem State.modQueue_keeps (q : Nat) (f : Queue → Queue) (h : Keeps a s) :
    Keeps a (State.modQueue s q f) := by
  unfold State.modQueue
  try dsimp only
  repeat' first
    | with_reducible first | assumption | apply State.setQueue_keeps
    | intro _

theorem State.modUnit_keeps (u : Nat) (f : Unit_ → Unit_) (h : Keeps a s) :
    Keeps a (State.modUnit s u f) := by
  unfold State.modUnit
  try dsimp only
  repeat' first
    | with_reducible first | assumption | apply State.setUnit_keeps
    | intro _

theorem State.refreshUsed_keeps (p : Nat) (h : Keeps a s) :
    Keeps a (State.refreshUsed s p) := by
  unfold State.refreshUsed
  try dsimp only
  repeat' first
    | with_reducible first | assumption | apply keeps_ite | apply State.putF_keeps
    | intro _ | split

theorem State.resetFs_keeps (fs : List (Fld × Nat)) (h : Keeps a s) :
    Keeps a (State.resetFs s fs) := by
  unfold State.resetFs
  try dsimp only
  repeat' first
    | with_reducible first | assumption | apply State.putF_keeps | apply keeps_foldl | apply keeps_foldl_fst
    | intro _

theorem State.resetRegs_keeps (offs : List Nat) (h : Keeps a s) :
    Keeps a (State.resetRegs s offs) := by
  unfold State.resetRegs
  try dsimp only
  repeat' first
    | with_reducible first | assumption | apply State.setWord_keeps | apply keeps_foldl | apply keeps_foldl_fst
    | intro _

theorem State.setRun_keeps (p : Nat) (b : Bool) (h : Keeps a s) :
    Keeps a (State.setRun s p b) := by
  unfold State.setRun
  try dsimp only
  repeat' first
    | with_reducible first | assumption | apply keeps_ite | apply State.putF_keeps
    | intro _ | split

theorem State.taskDone_keeps (p task : Nat) (h : Keeps a s) :
    Keeps a (State.taskDone s p task) := by
  unfold State.taskDone
  try dsimp only
  repeat' first
    | with_reducible first | assumption | apply State.deliver_keeps
    | intro _

theorem State.wr_keeps (x1 : Nat) (x2 : List Byte) (h : Keeps a s) :
    Keeps a (State.wr s x1 x2) := by
  induction x2 generalizing s x1 with
  | nil => exact h
  | cons b bs ih => exact ih _ (State.wr8_keeps h _ _)

theorem State.wrDev8_keeps (task x2 : Nat) (b : Byte) (h : Keeps a s) :
    Keeps a (State.wrDev8 s task x2 b) := by
  unfold State.wrDev8
  try dsimp only
  repeat' first
    | with_reducible first | assumption | apply State.modQueue_keeps | apply State.wr8_keeps
    | intro _ | split

theorem State.wrDev_keeps (task x2 : Nat) (x3 : List Byte) (h : Keeps a s) :
    Keeps a (State.wrDev s task x2 x3) := by
  induction x3 generalizing s x2 with
  | nil => exact h
  | cons b bs ih => exact ih _ (State.wrDev8_keeps _ _ _ h)

theorem State.wrFrom_keeps (from_ x2 : Nat) (b : Byte) (h : Keeps a s) :
    Keeps a (State.wrFrom s from_ x2 b) := by
  exact keeps_maps h _ _ _ _ _ _ _ _ _ _ _ _ _ (mwf_mput x2 b) id id id id id id id id id id id

theorem State.wrN_keeps (x1 n v : Nat) (h : Keeps a s) :
    Keeps a (State.wrN s x1 n v) := by
  unfold State.wrN
  try dsimp only
  repeat' first
    | with_reducible first | assumption | apply State.wr_keeps
    | intro _

theorem State.wrOwn8_keeps (x1 : Nat) (b : Byte) (h : Keeps a s) :
    Keeps a (State.wrOwn8 s x1 b) := by
  unfold State.wrOwn8
  try dsimp only
  repeat' first
    | with_reducible first | assumption | apply State.wrFrom_keeps
    | intro _

theorem State.wrOwn_keeps (x1 : Nat) (x2 : List Byte) (h : Keeps a s) :
    Keeps a (State.wrOwn s x1 x2) := by
  induction x2 generalizing s x1 with
  | nil => exact h
  | cons b bs ih => exact ih _ (State.wrOwn8_keeps _ _ h)

theorem State.upstreamOf_keeps (m : Nat) (h : Keeps a s) :
    Keeps a (State.upstreamOf s m) := by
  unfold State.upstreamOf
  try dsimp only
  repeat' first
    | with_reducible first | assumption | apply State.putF_keeps
    | intro _ | (fail_if_no_progress (with_reducible apply keeps_plain))

theorem State.masterByCfg_keeps (h : Keeps a s) :
    Keeps a (State.masterByCfg s) := by
  unfold State.masterByCfg
  try dsimp only
  repeat' first
    | with_reducible first | assumption | apply keeps_ite | apply State.putF_keeps | apply State.upstreamOf_keeps
    | intro _ | split | (fail_if_no_progress (with_reducible apply keeps_plain))

theorem State.enterHoldover_keeps (h : Keeps a s) :
    Keeps a (State.enterHoldover s) := by
  unfold State.enterHoldover
  try dsimp only
  repeat' first
    | with_reducible first | assumption | apply keeps_ite | apply State.putF_keeps
    | intro _ | split | (fail_if_no_progress (with_reducible apply keeps_plain))

theorem State.slewTo_keeps (d : Int) (h : Keeps a s) :
    Keeps a (State.slewTo s d) := by
  unfold State.slewTo
  try dsimp only
  repeat' first
    | with_reducible first | assumption
    | (fail_if_no_progress (with_reducible apply keeps_plain))

theorem State.selectSource_keeps (h : Keeps a s) :
    Keeps a (State.selectSource s) := by
  unfold State.selectSource
  try dsimp only
  repeat' first
    | with_reducible first | assumption | apply keeps_ite | apply State.putF_keeps | apply State.enterHoldover_keeps
                            | apply State.fresh_keeps | apply State.slewTo_keeps
    | intro _ | split

theorem State.afterWrite_keeps {a : State} (old : State) {s : State} (o : Nat) (h : Keeps a s) : Keeps a (State.afterWrite old s o) := by
  unfold State.afterWrite
  try dsimp only
  repeat' first
    | with_reducible first | assumption | apply keeps_ite | apply State.masterByCfg_keeps
                            | apply State.selectSource_keeps | apply State.putF_keeps
    | intro _ | split

theorem State.clearRead_keeps (o hi lo : Nat) (h : Keeps a s) :
    Keeps a (State.clearRead s o hi lo) := by
  unfold State.clearRead
  try dsimp only
  repeat' first
    | with_reducible first | assumption | apply keeps_ite | apply State.setWord_keeps | apply keeps_foldl
                            | apply keeps_foldl_fst
    | intro _ | split

theorem State.setIde_keeps (x : IdeStream) (h : Keeps a s) :
    Keeps a (State.setIde s x) := by
  unfold State.setIde
  try dsimp only
  repeat' first
    | with_reducible first | assumption
    | (fail_if_no_progress (with_reducible apply keeps_plain))

theorem State.settleKeys_keeps (i k : Nat) (h : Keeps a s) :
    Keeps a (State.settleKeys s i k) := by
  unfold State.settleKeys
  try dsimp only
  repeat' first
    | with_reducible first | assumption | apply keeps_ite | apply State.setIde_keeps
    | intro _ | split

theorem State.unprotected_keeps (h : Keeps a s) :
    Keeps a (State.unprotected s) := by
  unfold State.unprotected
  try dsimp only
  repeat' first
    | with_reducible first | assumption | apply keeps_ite | apply State.bump_keeps
    | intro _ | split

theorem State.tlpIn_keeps (f : Func) (h : Keeps a s) :
    Keeps a (State.tlpIn s f).1 := by
  unfold State.tlpIn
  try dsimp only
  repeat' first
    | with_reducible first | assumption | apply keeps_ite | apply State.settleKeys_keeps
                            | apply State.unprotected_keeps
    | intro _ | split

theorem State.gated_keeps (f : Func) (o : Nat) (act : State → State) (h : Keeps a s) (hact : ∀ s, Keeps a s → Keeps a (act s)) :
    Keeps a (State.gated s f o act) := by
  unfold State.gated
  try dsimp only
  repeat' first
    | with_reducible first | assumption | apply hact | apply keeps_ite | apply State.tlpIn_keeps
                            | apply State.genErr_keeps
    | intro _ | split

theorem State.regRead_keeps (f : Func) (off size : Nat) (h : Keeps a s) :
    Keeps a (State.regRead s f off size) := by
  unfold State.regRead
  try dsimp only
  repeat' first
    | with_reducible first | assumption | apply keeps_ite | apply State.tlpIn_keeps | apply State.emit_keeps
                            | apply State.genErr_keeps | apply State.clearRead_keeps
    | intro _ | split

theorem State.writeFields_keeps (o hi lo : Nat) (v : Word) (h : Keeps a s) :
    Keeps a (State.writeFields s o hi lo v) := by
  unfold State.writeFields
  try dsimp only
  repeat' first
    | with_reducible first | assumption | apply keeps_ite | apply State.setWord_keeps | apply keeps_foldl
                            | apply keeps_foldl_fst
    | intro _ | split

theorem State.writeOthers_keeps (o : Nat) (v : Word) (h : Keeps a s) :
    Keeps a (State.writeOthers s o v) := by
  unfold State.writeOthers
  try dsimp only
  repeat' first
    | with_reducible first | assumption | apply State.writeFields_keeps
    | intro _

theorem execRcFieldRead_keeps (f : Func) (off size : Nat) (h : Keeps a s) :
    ∀ t, (execRcFieldRead f off size s) = .next t → Keeps a t := by
  intro t e
  unfold execRcFieldRead at e
  simp only [Host.Outcome.next.injEq] at e
  subst e
  try dsimp only
  repeat' first
    | with_reducible first | assumption | apply State.regRead_keeps
    | intro _

theorem State.drawSecret_keeps (h : Keeps a s) :
    Keeps a (State.drawSecret s).2 := by
  exact keeps_ident h _ (fusesFrom_of_same rfl rfl rfl rfl)

theorem State.deriveRoots_keeps (x : BitVec 256) (h : Keeps a s) :
    Keeps a (State.deriveRoots s x) := by
  exact keeps_ident h _ (fusesFrom_of_same rfl rfl rfl rfl)

theorem State.bootKeys_keeps (h : Keeps a s) :
    Keeps a (State.bootKeys s) := by
  unfold State.bootKeys
  split
  rename_i x t e
  refine State.deriveRoots_keeps _ ?_
  split at e
  · have := State.drawSecret_keeps h
    rw [e] at this
    exact this
  · cases e
    exact h

theorem State.issueAlias_keeps (h : Keeps a s) :
    Keeps a (State.issueAlias s) := by
  exact keeps_ident h _ (fusesFrom_of_same rfl rfl rfl rfl)

theorem State.deriveAlias_keeps (h : Keeps a s) :
    Keeps a (State.deriveAlias s) := by
  exact State.issueAlias_keeps (keeps_ident h _ (fusesFrom_of_same rfl rfl rfl rfl))

theorem State.emitFlit_keeps (k : Nat) (f : Flit) (h : Keeps a s) :
    Keeps a (State.emitFlit s k f) := by
  unfold State.emitFlit
  try dsimp only
  repeat' first
    | with_reducible first | assumption | apply keeps_ite | apply State.modPort_keeps | apply State.emit_keeps
    | intro _ | split

theorem State.sendSequenced_keeps (k type vc : Nat) (body : List Byte) (h : Keeps a s) :
    Keeps a (State.sendSequenced s k type vc body) := by
  unfold State.sendSequenced
  try dsimp only
  repeat' first
    | with_reducible first | assumption | apply State.emitFlit_keeps | apply State.setPort_keeps
    | intro _

theorem State.sealGroup_keeps (k : Nat) (h : Keeps a s) :
    Keeps a (State.sealGroup s k) := by
  unfold State.sealGroup
  try dsimp only
  repeat' first
    | with_reducible first | assumption | apply State.sendSequenced_keeps | apply State.modPort_keeps
    | intro _ | split

theorem State.sendFlit_keeps (k type vc : Nat) (body : List Byte) (h : Keeps a s) :
    Keeps a (State.sendFlit s k type vc body) := by
  unfold State.sendFlit
  try dsimp only
  repeat' first
    | with_reducible first | assumption | apply State.modPort_keeps | apply State.sendSequenced_keeps
    | intro _ | split

theorem State.sendNext_keeps (k vc : Nat) (h : Keeps a s) :
    Keeps a (State.sendNext s k vc) := by
  unfold State.sendNext
  try dsimp only
  repeat' first
    | with_reducible first | assumption | apply keeps_ite | apply State.setPort_keeps | apply State.sendFlit_keeps
    | intro _ | split

theorem State.pump_keeps (k x2 : Nat) (h : Keeps a s) :
    Keeps a (State.pump s k x2) := by
  induction x2 generalizing s with
  | zero => exact h
  | succ n ih =>
    unfold State.pump
    try dsimp only
    repeat' first
      | with_reducible first | apply ih | assumption | apply keeps_ite | apply State.sealGroup_keeps
                              | apply State.sendFlit_keeps | apply State.setPort_keeps | apply State.sendNext_keeps
      | intro _ | split

theorem State.pumpUp_keeps (k : Nat) (h : Keeps a s) :
    Keeps a (State.pumpUp s k) := by
  unfold State.pumpUp
  try dsimp only
  repeat' first
    | with_reducible first | assumption | apply keeps_ite | apply State.pump_keeps
    | intro _ | split

theorem State.queueMsg_keeps (c : TClass) (x2 : MsgHdr) (v : Hop) (o : Out) (h : Keeps a s) :
    Keeps a (State.queueMsg s c x2 v o) := by
  unfold State.queueMsg
  try dsimp only
  repeat' first
    | with_reducible first | assumption | apply keeps_ite | apply State.pumpUp_keeps | apply State.emit_keeps
                            | apply State.modPort_keeps
    | intro _ | split

theorem State.dropUnsent_keeps (p : Nat) (keep : Nat → Bool) (h : Keeps a s) :
    Keeps a (State.dropUnsent s p keep) := by
  unfold State.dropUnsent
  try dsimp only
  repeat' first
    | with_reducible first | assumption | apply State.modPort_keeps | apply keeps_foldl | apply keeps_foldl_fst
    | intro _

theorem State.portDark_keeps (k : Nat) (h : Keeps a s) :
    Keeps a (State.portDark s k) := by
  unfold State.portDark
  try dsimp only
  repeat' first
    | with_reducible first | assumption | apply keeps_ite | apply State.elog_keeps | apply State.putF_keeps
                            | apply State.setPort_keeps
    | intro _ | split

theorem State.planStop_keeps (p cause : Nat) (h : Keeps a s) :
    Keeps a (State.planStop s p cause) := by
  unfold State.planStop
  try dsimp only
  repeat' first
    | with_reducible first | assumption | apply keeps_ite | apply State.setRun_keeps | apply State.modPart_keeps
                            | apply State.putF_keeps | apply State.signalQ_keeps | apply State.setQueue_keeps
                            | apply State.pevt_keeps | apply keeps_foldl | apply keeps_foldl_fst
    | intro _ | split

theorem State.restoreTile_keeps (g : Nat) (h : Keeps a s) :
    Keeps a (State.restoreTile s g) := by
  unfold State.restoreTile
  try dsimp only
  repeat' first
    | with_reducible first | assumption | apply keeps_ite | apply State.putF_keeps | apply State.modTile_keeps
    | intro _ | split

theorem State.stopRolled_keeps (p cause : Nat) (h : Keeps a s) :
    Keeps a (State.stopRolled s p cause) := by
  unfold State.stopRolled
  try dsimp only
  repeat' first
    | with_reducible first | assumption | apply State.planStop_keeps | apply State.restoreTile_keeps
                            | apply keeps_foldl | apply keeps_foldl_fst
    | intro _

theorem State.failModule_keeps (fcause cause : Nat) (h : Keeps a s) :
    Keeps a (State.failModule s fcause cause) := by
  unfold State.failModule
  try dsimp only
  repeat' first
    | with_reducible first | assumption | apply keeps_ite | apply State.portDark_keeps | apply State.fail_keeps
                            | apply State.stopRolled_keeps | apply keeps_foldl | apply keeps_foldl_fst
    | intro _ | split

theorem State.sendReportTo_keeps (p : Nat) (r : CommitReport) (q : Nat) (h : Keeps a s) :
    Keeps a (State.sendReportTo s p r q) := by
  unfold State.sendReportTo
  try dsimp only
  repeat' first
    | with_reducible first | assumption | apply keeps_ite | apply State.bump_keeps | apply State.queueMsg_keeps
                            | apply State.emit_keeps
    | intro _ | split

theorem State.sendReport_keeps (p : Nat) (r : CommitReport) (h : Keeps a s) :
    Keeps a (State.sendReport s p r) := by
  unfold State.sendReport
  try dsimp only
  repeat' first
    | with_reducible first | assumption | apply State.sendReportTo_keeps | apply keeps_foldl | apply keeps_foldl_fst
    | intro _

theorem State.stopTile_keeps (g : Nat) (h : Keeps a s) :
    Keeps a (State.stopTile s g) := by
  unfold State.stopTile
  try dsimp only
  repeat' first
    | with_reducible first | assumption | apply keeps_ite | apply State.modTile_keeps | apply State.putF_keeps
    | intro _ | split

theorem State.stopChannel_keeps (p c : Nat) (h : Keeps a s) :
    Keeps a (State.stopChannel s p c) := by
  unfold State.stopChannel
  try dsimp only
  repeat' first
    | with_reducible first | assumption | apply State.modCmover_keeps
    | intro _

theorem State.ochRollback_keeps (p step e : Nat) (h : Keeps a s) :
    Keeps a (State.ochRollback s p step e) := by
  unfold State.ochRollback
  try dsimp only
  repeat' first
    | with_reducible first | assumption | apply keeps_ite | apply State.setOch_keeps
    | intro _ | split

theorem State.rollback_keeps (p : Nat) (r : CommitReport) (h : Keeps a s) :
    Keeps a (State.rollback s p r) := by
  unfold State.rollback
  try dsimp only
  repeat' first
    | with_reducible first | assumption | apply keeps_ite | apply State.modPart_keeps | apply State.putF_keeps
                            | apply State.stopTile_keeps | apply State.restoreTile_keeps
                            | apply State.stopChannel_keeps | apply State.modMover_keeps
                            | apply State.ochRollback_keeps | apply State.modQueue_keeps
                            | apply State.dropUnsent_keeps | apply State.bump_keeps | apply State.stopRolled_keeps
                            | apply keeps_foldl | apply keeps_foldl_fst
    | intro _ | split

theorem State.moduleFaultAt_keeps (p cause task : Nat) (stop : Bool) (detail : Nat) (h : Keeps a s) :
    Keeps a (State.moduleFaultAt s p cause task stop detail) := by
  unfold State.moduleFaultAt
  try dsimp only
  repeat' first
    | with_reducible first | assumption | apply keeps_ite | apply State.elog_keeps | apply State.modPart_keeps
                            | apply State.sendReport_keeps | apply State.rollback_keeps | apply keeps_foldl
                            | apply keeps_foldl_fst
    | intro _ | split

theorem State.moduleFault_keeps (p cause task : Nat) (stop : Bool) (h : Keeps a s) :
    Keeps a (State.moduleFault s p cause task stop) := by
  unfold State.moduleFault
  try dsimp only
  repeat' first
    | with_reducible first | assumption | apply State.moduleFaultAt_keeps
    | intro _

theorem State.faultAll_keeps (cause : Nat) (h : Keeps a s) :
    Keeps a (State.faultAll s cause) := by
  unfold State.faultAll
  try dsimp only
  repeat' first
    | with_reducible first | assumption | apply keeps_ite | apply State.moduleFault_keeps | apply keeps_foldl
                            | apply keeps_foldl_fst
    | intro _ | split

theorem State.recordFault_keeps (g code slot pc : Nat) (h : Keeps a s) :
    Keeps a (State.recordFault s g code slot pc) := by
  unfold State.recordFault
  try dsimp only
  repeat' first
    | with_reducible first | assumption | apply keeps_ite | apply State.putF_keeps
    | intro _ | split

theorem State.planFault_keeps (g code slot pc : Nat) (h : Keeps a s) :
    Keeps a (State.planFault s g code slot pc) := by
  unfold State.planFault
  try dsimp only
  repeat' first
    | with_reducible first | assumption | apply keeps_ite | apply State.modTile_keeps | apply State.putF_keeps
                            | apply State.recordFault_keeps | apply State.freezeLog_keeps | apply State.modPart_keeps
                            | apply State.moduleFault_keeps
    | intro _ | split

theorem State.partitionFault_keeps (g ch : Nat) (h : Keeps a s) :
    Keeps a (State.partitionFault s g ch) := by
  unfold State.partitionFault
  try dsimp only
  repeat' first
    | with_reducible first | assumption | apply keeps_ite | apply State.planFault_keeps | apply State.modTile_keeps
                            | apply State.recordFault_keeps | apply State.putF_keeps | apply State.freezeLog_keeps
                            | apply State.moduleFault_keeps
    | intro _ | split

theorem State.floodHold_keeps (e : HoldEntry) (h : Keeps a s) :
    Keeps a (State.floodHold s e) := by
  unfold State.floodHold
  try dsimp only
  repeat' first
    | with_reducible first | assumption | apply keeps_ite | apply State.pumpUp_keeps | apply State.modPort_keeps
                            | apply keeps_foldl | apply keeps_foldl_fst
    | intro _ | split

theorem State.logHold_keeps (p : Nat) (c : Charge) (h : Keeps a s) :
    Keeps a (State.logHold s p c) := by
  unfold State.logHold
  try dsimp only
  repeat' first
    | with_reducible first | assumption | apply keeps_ite | apply State.modPart_keeps
    | intro _ | split

theorem State.takeHold_keeps (e : HoldEntry) (h : Keeps a s) :
    Keeps a (State.takeHold s e) := by
  unfold State.takeHold
  try dsimp only
  repeat' first
    | with_reducible first | assumption | apply keeps_ite | apply State.moduleFault_keeps | apply State.bump_keeps
                            | apply State.modPart_keeps | apply State.floodHold_keeps
    | intro _ | split

theorem State.raiseHold_keeps (p cause task len : Nat) (overrun : Bool) (h : Keeps a s) :
    Keeps a (State.raiseHold s p cause task len overrun) := by
  unfold State.raiseHold
  try dsimp only
  repeat' first
    | with_reducible first | assumption | apply keeps_ite | apply State.takeHold_keeps
    | intro _ | split

theorem State.chargeAmax_keeps (p task addr : Nat) (am : W32) (h : Keeps a s) :
    Keeps a (State.chargeAmax s p task addr am) := by
  unfold State.chargeAmax
  try dsimp only
  repeat' first
    | with_reducible first | assumption | apply keeps_ite | apply State.modPart_keeps
    | intro _ | split

theorem State.chargeBlock_keeps (p task share addr f : Nat) (codes : List Nat) (bytes : List Byte) (h : Keeps a s) :
    Keeps a (State.chargeBlock s p task share addr f codes bytes) := by
  unfold State.chargeBlock
  try dsimp only
  repeat' first
    | with_reducible first | assumption | apply State.modPart_keeps
    | intro _ | split

theorem State.chargeSat_keeps (p task addr n : Nat) (h : Keeps a s) :
    Keeps a (State.chargeSat s p task addr n) := by
  unfold State.chargeSat
  try dsimp only
  repeat' first
    | with_reducible first | assumption | apply keeps_ite | apply State.modPart_keeps
    | intro _ | split

theorem State.addEvents_keeps (g : Nat) (e : LaneEv) (h : Keeps a s) :
    Keeps a (State.addEvents s g e) := by
  unfold State.addEvents
  try dsimp only
  repeat' first
    | with_reducible first | assumption | apply State.bumpBy_keeps
    | intro _

theorem State.hazard_keeps (p task : Nat) (h : Keeps a s) :
    Keeps a (State.hazard s p task) := by
  unfold State.hazard
  try dsimp only
  repeat' first
    | with_reducible first | assumption | apply keeps_ite | apply State.putF_keeps | apply State.bump_keeps
    | intro _ | split

theorem State.unitHazard_keeps (p task : Nat) (h : Keeps a s) :
    Keeps a (State.unitHazard s p task) := by
  unfold State.unitHazard
  try dsimp only
  repeat' first
    | with_reducible first | assumption | apply keeps_ite | apply State.hazard_keeps | apply State.planFault_keeps
                            | apply State.moduleFault_keeps
    | intro _ | split

theorem State.noteLines_keeps (p task master x4 n : Nat) (h : Keeps a s) :
    Keeps a (State.noteLines s p task master x4 n) := by
  unfold State.noteLines
  try dsimp only
  repeat' first
    | with_reducible first | assumption | apply keeps_ite | apply State.modPart_keeps | apply State.unitHazard_keeps
                            | apply keeps_foldl | apply keeps_foldl_fst
    | intro _ | split

theorem State.chargeRun_keeps (g : Nat) (x : Pend) (dd : Desc) (o : ChainOut) (h : Keeps a s) :
    Keeps a (State.chargeRun s g x dd o) := by
  unfold State.chargeRun
  try dsimp only
  repeat' first
    | with_reducible first | assumption | apply keeps_ite | apply State.chargeSat_keeps
                            | apply State.chargeBlock_keeps | apply State.chargeAmax_keeps | apply keeps_foldl
                            | apply keeps_foldl_fst
    | intro _ | split

theorem State.wrAll_keeps (ws : List (Nat × List Byte)) (h : Keeps a s) :
    Keeps a (State.wrAll s ws) := by
  unfold State.wrAll
  try dsimp only
  repeat' first
    | with_reducible first | assumption | apply State.wrOwn_keeps | apply keeps_foldl | apply keeps_foldl_fst
    | intro _

theorem State.applyEff_keeps (g : Nat) (x : Pend) (h : Keeps a s) :
    Keeps a (State.applyEff s g x) := by
  unfold State.applyEff
  try dsimp only
  repeat' first
    | with_reducible first | assumption | apply keeps_ite | apply State.setTile_keeps | apply State.noteLines_keeps
                            | apply State.wrOwn_keeps | apply State.chargeBlock_keeps | apply State.chargeSat_keeps
                            | apply State.chargeAmax_keeps | apply State.chargeRun_keeps
                            | apply State.addEvents_keeps | apply State.wrAll_keeps | apply State.moduleFault_keeps
                            | apply State.modCmover_keeps
    | intro _ | split

theorem State.pruneHistory_keeps (h : Keeps a s) :
    Keeps a (State.pruneHistory s) := by
  unfold State.pruneHistory
  try dsimp only
  repeat' first
    | with_reducible first | assumption
    | (fail_if_no_progress (with_reducible apply keeps_plain))

theorem State.land_keeps (g : Nat) (x : Pend) (h : Keeps a s) :
    Keeps a (State.land s g x) := by
  unfold State.land
  try dsimp only
  repeat' first
    | with_reducible first | assumption | apply State.applyEff_keeps | apply State.pruneHistory_keeps
                            | apply State.modTile_keeps
    | intro _ | (fail_if_no_progress (with_reducible apply keeps_plain))

theorem State.settle_keeps (x0 x1 : Nat) {x2 : State} (h : Keeps a x2) :
    Keeps a (State.settle x0 x1 x2) := by
  induction x0 generalizing x2 with
  | zero => exact h
  | succ n ih =>
    unfold State.settle
    repeat' first
      | with_reducible first | apply ih | assumption | apply State.land_keeps
      | intro _ | split

theorem State.advance_keeps (c : Nat) (h : Keeps a s) :
    Keeps a (State.advance s c) := by
  unfold State.advance
  try dsimp only
  repeat' first
    | with_reducible first | assumption | apply State.settle_keeps
    | intro _ | (fail_if_no_progress (with_reducible apply keeps_plain))

theorem State.extraConversion_keeps (g cost : Nat) (h : Keeps a s) :
    Keeps a (State.extraConversion s g cost) := by
  unfold State.extraConversion
  try dsimp only
  repeat' first
    | with_reducible first | assumption | apply keeps_ite | apply State.setTile_keeps | apply State.bump_keeps
                            | apply State.raiseHold_keeps
    | intro _ | split

theorem State.noteConv_keeps (g x2 cost : Nat) (tr : List Byte) (h : Keeps a s) :
    Keeps a (State.noteConv s g x2 cost tr) := by
  unfold State.noteConv
  try dsimp only
  repeat' first
    | with_reducible first | assumption | apply keeps_ite | apply State.setTile_keeps
                            | apply State.extraConversion_keeps | apply State.bump_keeps
    | intro _ | split

theorem State.noteImage_keeps (g x2 f cost : Nat) (h : Keeps a s) :
    Keeps a (State.noteImage s g x2 f cost) := by
  unfold State.noteImage
  try dsimp only
  repeat' first
    | with_reducible first | assumption | apply keeps_ite | apply State.extraConversion_keeps
                            | apply State.setTile_keeps
    | intro _ | split

theorem State.settleOwed_keeps (g : Nat) (o : Owed) (h : Keeps a s) :
    Keeps a (State.settleOwed s g o) := by
  unfold State.settleOwed
  try dsimp only
  repeat' first
    | with_reducible first | assumption | apply State.hazard_keeps | apply State.noteConv_keeps
                            | apply State.noteImage_keeps | apply State.chargeSat_keeps | apply State.modTile_keeps
    | intro _ | split

theorem State.closeBundle_keeps (g : Nat) (h : Keeps a s) :
    Keeps a (State.closeBundle s g) := by
  unfold State.closeBundle
  try dsimp only
  repeat' first
    | with_reducible first | assumption | apply keeps_ite | apply State.planFault_keeps | apply State.hazard_keeps
                            | apply State.settleOwed_keeps | apply State.modTile_keeps | apply keeps_foldl
                            | apply keeps_foldl_fst
    | intro _ | split

theorem State.inFlight_keeps (g lat : Nat) (e : Eff) (h : Keeps a s) :
    Keeps a (State.inFlight s g lat e) := by
  unfold State.inFlight
  try dsimp only
  repeat' first
    | with_reducible first | assumption | apply State.modTile_keeps
    | intro _

theorem State.openBundle_keeps (g : Nat) (h : Keeps a s) :
    Keeps a (State.openBundle s g) := by
  unfold State.openBundle
  try dsimp only
  repeat' first
    | with_reducible first | assumption | apply keeps_ite | apply State.advance_keeps | apply State.planFault_keeps
                            | apply State.modTile_keeps
    | intro _ | split

theorem State.pastStore_keeps (g : Nat) (h : Keeps a s) :
    Keeps a (State.pastStore s g) := by
  unfold State.pastStore
  try dsimp only
  repeat' first
    | with_reducible first | assumption | apply State.closeBundle_keeps | apply State.setTile_keeps
    | intro _

theorem State.issueWord_keeps (g : Nat) (w : Word) (ok : Bool) (dyn : State → Option Nat) (act : State → State) (h : Keeps a s) (hact : ∀ s, Keeps a s → Keeps a (act s)) :
    Keeps a (State.issueWord s g w ok dyn act) := by
  unfold State.issueWord
  try dsimp only
  repeat' first
    | with_reducible first | assumption | apply hact | apply keeps_ite | apply State.openBundle_keeps
                            | apply State.pastStore_keeps | apply State.setTile_keeps | apply State.modTile_keeps
                            | apply State.closeBundle_keeps
    | intro _ | split

theorem State.owe_keeps (g : Nat) (o : Owed) (h : Keeps a s) :
    Keeps a (State.owe s g o) := by
  unfold State.owe
  try dsimp only
  repeat' first
    | with_reducible first | assumption | apply State.modTile_keeps
    | intro _

theorem State.noteHazard_keeps (g : Nat) (w : Word) (r : State.Reads) (h : Keeps a s) :
    Keeps a (State.noteHazard s g w r) := by
  unfold State.noteHazard
  try dsimp only
  repeat' first
    | with_reducible first | assumption | apply keeps_ite | apply State.owe_keeps
    | intro _ | split

theorem State.waited_keeps (g tk : Nat) (h : Keeps a s) :
    Keeps a (State.waited s g tk) := by
  unfold State.waited
  try dsimp only
  repeat' first
    | with_reducible first | assumption | apply State.modTile_keeps
    | intro _

theorem State.wrBy_keeps (p task master x4 : Nat) (b : List Byte) (h : Keeps a s) :
    Keeps a (State.wrBy s p task master x4 b) := by
  unfold State.wrBy
  try dsimp only
  repeat' first
    | with_reducible first | assumption | apply State.noteLines_keeps | apply State.wr_keeps
    | intro _

theorem State.modStash_keeps (p layer r : Nat) (f : Stash → Stash) (h : Keeps a s) :
    Keeps a (State.modStash s p layer r f) := by
  unfold State.modStash
  try dsimp only
  repeat' first
    | with_reducible first | assumption | apply State.modPart_keeps
    | intro _

theorem State.bindStash_keeps (p task : Nat) (h : Keeps a s) :
    Keeps a (State.bindStash s p task) := by
  unfold State.bindStash
  try dsimp only
  repeat' first
    | with_reducible first | assumption | apply keeps_ite | apply State.modStash_keeps
    | intro _ | split

theorem State.stashDone_keeps (p task : Nat) (h : Keeps a s) :
    Keeps a (State.stashDone s p task) := by
  unfold State.stashDone
  try dsimp only
  repeat' first
    | with_reducible first | assumption | apply keeps_ite | apply State.modStash_keeps
    | intro _ | split

theorem State.startKernel_keeps (p task g share base : Nat) (h : Keeps a s) :
    Keeps a (State.startKernel s p task g share base) := by
  unfold State.startKernel
  try dsimp only
  repeat' first
    | with_reducible first | assumption | apply keeps_ite | apply State.putF_keeps | apply State.modTile_keeps
                            | apply State.bindStash_keeps
    | intro _ | split

theorem State.grantActs_keeps (p x2 : Nat) (h : Keeps a s) :
    Keeps a (State.grantActs s p x2) := by
  induction x2 generalizing s with
  | zero => exact h
  | succ n ih =>
    unfold State.grantActs
    try dsimp only
    repeat' first
      | with_reducible first | apply ih | assumption | apply keeps_ite | apply State.modPart_keeps
                              | apply State.startKernel_keeps
      | intro _ | split

theorem State.rampDelays_keeps (p : Nat) (h : Keeps a s) :
    Keeps a (State.rampDelays s p) := by
  unfold State.rampDelays
  try dsimp only
  repeat' first
    | with_reducible first | assumption | apply State.raiseHold_keeps | apply State.bumpBy_keeps
    | intro _ | split

theorem State.holdBeat_keeps (p : Nat) (c : Charge) (rest : List Charge) (h : Keeps a s) :
    Keeps a (State.holdBeat s p c rest) := by
  unfold State.holdBeat
  try dsimp only
  repeat' first
    | with_reducible first | assumption | apply keeps_ite | apply State.logHold_keeps | apply State.bump_keeps
                            | apply State.modPart_keeps
    | intro _ | split

theorem State.advancePart_keeps (p : Nat) (h : Keeps a s) :
    Keeps a (State.advancePart s p) := by
  unfold State.advancePart
  try dsimp only
  repeat' first
    | with_reducible first | assumption | apply keeps_ite | apply State.holdBeat_keeps | apply State.modPart_keeps
                            | apply State.putF_keeps
    | intro _ | split

theorem State.markBusy_keeps (h : Keeps a s) :
    Keeps a (State.markBusy s) := by
  unfold State.markBusy
  try dsimp only
  repeat' first
    | with_reducible first | assumption | apply keeps_ite | apply State.modTile_keeps | apply keeps_foldl
                            | apply keeps_foldl_fst
    | intro _ | split

theorem State.toEdge_keeps (h : Keeps a s) :
    Keeps a (State.toEdge s) := by
  unfold State.toEdge
  try dsimp only
  repeat' first
    | with_reducible first | assumption | apply State.advance_keeps
    | intro _ | (fail_if_no_progress (with_reducible apply keeps_plain))

theorem State.countHoldover_keeps (h : Keeps a s) :
    Keeps a (State.countHoldover s) := by
  unfold State.countHoldover
  try dsimp only
  repeat' first
    | with_reducible first | assumption | apply keeps_ite
    | intro _ | split | (fail_if_no_progress (with_reducible apply keeps_plain))

theorem State.nextBn_keeps (h : Keeps a s) :
    Keeps a (State.nextBn s) := by
  unfold State.nextBn
  try dsimp only
  repeat' first
    | with_reducible first | assumption | apply keeps_ite | apply State.failModule_keeps | apply State.putF_keeps
    | intro _ | split | (fail_if_no_progress (with_reducible apply keeps_plain))

theorem State.countIdle_keeps (h : Keeps a s) :
    Keeps a (State.countIdle s) := by
  unfold State.countIdle
  try dsimp only
  repeat' first
    | with_reducible first | assumption | apply keeps_ite
    | intro _ | split | (fail_if_no_progress (with_reducible apply keeps_plain))

theorem State.sendMarkers_keeps (h : Keeps a s) :
    Keeps a (State.sendMarkers s) := by
  unfold State.sendMarkers
  try dsimp only
  repeat' first
    | with_reducible first | assumption | apply keeps_ite | apply State.emitFlit_keeps | apply keeps_foldl
                            | apply keeps_foldl_fst
    | intro _ | split

theorem State.portEdge_keeps (k : Nat) (h : Keeps a s) :
    Keeps a (State.portEdge s k) := by
  unfold State.portEdge
  try dsimp only
  repeat' first
    | with_reducible first | assumption | apply keeps_ite | apply State.sealGroup_keeps | apply State.modPort_keeps
    | intro _ | split

theorem State.landUpTo_keeps (p n : Nat) (h : Keeps a s) :
    Keeps a (State.landUpTo s p n) := by
  unfold State.landUpTo
  try dsimp only
  repeat' first
    | with_reducible first | assumption | apply State.modPart_keeps
    | intro _

theorem State.overrunIf_keeps (b : Bool) (p cause task : Nat) (h : Keeps a s) :
    Keeps a (State.overrunIf s b p cause task) := by
  unfold State.overrunIf
  try dsimp only
  repeat' first
    | with_reducible first | assumption | apply keeps_ite | apply State.raiseHold_keeps
    | intro _ | split

theorem State.overruns_keeps (p : Nat) (h : Keeps a s) :
    Keeps a (State.overruns s p) := by
  unfold State.overruns
  try dsimp only
  repeat' first
    | with_reducible first | assumption | apply keeps_ite | apply State.overrunIf_keeps | apply keeps_foldl
                            | apply keeps_foldl_fst
    | intro _ | split

theorem State.beatHazards_keeps (p : Nat) (h : Keeps a s) :
    Keeps a (State.beatHazards s p) := by
  unfold State.beatHazards
  try dsimp only
  repeat' first
    | with_reducible first | assumption | apply keeps_ite | apply State.modPart_keeps | apply State.unitHazard_keeps
                            | apply keeps_foldl | apply keeps_foldl_fst
    | intro _ | split

theorem State.beat_keeps (h : Keeps a s) :
    Keeps a (State.beat s) := by
  unfold State.beat
  try dsimp only
  repeat' first
    | with_reducible first | assumption | apply keeps_ite | apply State.rampDelays_keeps | apply State.markBusy_keeps
                            | apply State.toEdge_keeps | apply State.countHoldover_keeps | apply State.nextBn_keeps
                            | apply State.countIdle_keeps | apply State.sendMarkers_keeps
                            | apply State.portEdge_keeps | apply State.advancePart_keeps | apply State.landUpTo_keeps
                            | apply State.grantActs_keeps | apply State.overruns_keeps
                            | apply State.beatHazards_keeps | apply keeps_foldl | apply keeps_foldl_fst
    | intro _ | split

theorem State.renotice_keeps (old : Nat) (h : Keeps a s) :
    Keeps a (State.renotice s old) := by
  unfold State.renotice
  try dsimp only
  repeat' first
    | with_reducible first | assumption | apply keeps_ite | apply State.emit_keeps
    | intro _ | split

theorem State.follow_keeps (m : Nat) (h : Keeps a s) :
    Keeps a (State.follow s m) := by
  unfold State.follow
  try dsimp only
  repeat' first
    | with_reducible first | assumption | apply keeps_ite | apply State.putF_keeps | apply State.upstreamOf_keeps
                            | apply State.renotice_keeps
    | intro _ | split

theorem State.leaveHoldover_keeps (h : Keeps a s) :
    Keeps a (State.leaveHoldover s) := by
  unfold State.leaveHoldover
  try dsimp only
  repeat' first
    | with_reducible first | assumption | apply State.putF_keeps
    | intro _ | (fail_if_no_progress (with_reducible apply keeps_plain))

theorem State.takeBn_keeps (d : Int) (h : Keeps a s) :
    Keeps a (State.takeBn s d) := by
  unfold State.takeBn
  try dsimp only
  repeat' first
    | with_reducible first | assumption | apply keeps_ite
    | intro _ | split | (fail_if_no_progress (with_reducible apply keeps_plain))

theorem execAlternateUpstream_keeps (port : Nat) (h : Keeps a s) :
    ∀ t, (execAlternateUpstream port s) = .next t → Keeps a t := by
  intro t e
  unfold execAlternateUpstream at e
  simp only [Host.Outcome.next.injEq] at e
  subst e
  try dsimp only
  repeat' first
    | with_reducible first | assumption | apply keeps_ite | apply State.putF_keeps | apply State.leaveHoldover_keeps
                            | apply State.takeBn_keeps | apply State.slewTo_keeps
    | intro _ | split | (fail_if_no_progress (with_reducible apply keeps_plain))

theorem execBeat_keeps (h : Keeps a s) :
    ∀ t, (execBeat s) = .next t → Keeps a t := by
  intro t e
  unfold execBeat at e
  simp only [Host.Outcome.next.injEq] at e
  subst e
  try dsimp only
  repeat' first
    | with_reducible first | assumption | apply State.beat_keeps
    | intro _

theorem execBeatFlit_keeps (port : Nat) (b : BeatBody) (came : FlitArrival) (h : Keeps a s) :
    ∀ t, (execBeatFlit port b came s) = .next t → Keeps a t := by
  intro t e
  unfold execBeatFlit at e
  simp only [Host.Outcome.next.injEq] at e
  subst e
  try dsimp only
  repeat' first
    | with_reducible first | assumption | apply keeps_ite | apply State.bumpBy_keeps | apply State.takeHold_keeps
                            | apply State.follow_keeps | apply State.modPort_keeps | apply State.putF_keeps
                            | apply State.slewTo_keeps | apply State.takeBn_keeps | apply keeps_foldl
                            | apply keeps_foldl_fst
    | intro _ | split

theorem execBeatLost_keeps (h : Keeps a s) :
    ∀ t, (execBeatLost s) = .next t → Keeps a t := by
  intro t e
  unfold execBeatLost at e
  simp only [Host.Outcome.next.injEq] at e
  subst e
  try dsimp only
  repeat' first
    | with_reducible first | assumption | apply keeps_ite | apply State.faultAll_keeps | apply State.stopRolled_keeps
                            | apply keeps_foldl | apply keeps_foldl_fst
    | intro _ | split

theorem execBeatSourceLost_keeps (h : Keeps a s) :
    ∀ t, (execBeatSourceLost s) = .next t → Keeps a t := by
  intro t e
  unfold execBeatSourceLost at e
  simp only [Host.Outcome.next.injEq] at e
  subst e
  try dsimp only
  repeat' first
    | with_reducible first | assumption | apply keeps_ite | apply State.enterHoldover_keeps | apply State.putF_keeps
    | intro _ | split | (fail_if_no_progress (with_reducible apply keeps_plain))

theorem execBnLoadApply_keeps (h : Keeps a s) :
    ∀ t, (execBnLoadApply s) = .next t → Keeps a t := by
  intro t e
  unfold execBnLoadApply at e
  simp only [Host.Outcome.next.injEq] at e
  subst e
  try dsimp only
  repeat' first
    | with_reducible first | assumption | apply State.putF_keeps
    | intro _ | split | (fail_if_no_progress (with_reducible apply keeps_plain))

theorem execHoldoverExit_keeps (src : BeatSrc) (markerBn : Option Nat) (edge : Int) (h : Keeps a s) :
    ∀ t, (execHoldoverExit src markerBn edge s) = .next t → Keeps a t := by
  intro t e
  unfold execHoldoverExit at e
  simp only [Host.Outcome.next.injEq] at e
  subst e
  try dsimp only
  repeat' first
    | with_reducible first | assumption | apply keeps_ite | apply State.slewTo_keeps | apply State.putF_keeps
                            | apply State.leaveHoldover_keeps | apply State.takeBn_keeps
    | intro _ | split | (fail_if_no_progress (with_reducible apply keeps_plain))

theorem execMasterDeclare_keeps (h : Keeps a s) :
    ∀ t, (execMasterDeclare s) = .next t → Keeps a t := by
  intro t e
  unfold execMasterDeclare at e
  simp only [Host.Outcome.next.injEq] at e
  subst e
  try dsimp only
  repeat' first
    | with_reducible first | assumption | apply keeps_ite | apply State.leaveHoldover_keeps | apply State.putF_keeps
                            | apply State.sendMarkers_keeps | apply State.renotice_keeps
    | intro _ | split

theorem execMasterMarkerLoss_keeps (h : Keeps a s) :
    ∀ t, (execMasterMarkerLoss s) = .next t → Keeps a t := by
  intro t e
  unfold execMasterMarkerLoss at e
  simp only [Host.Outcome.next.injEq] at e
  subst e
  try dsimp only
  repeat' first
    | with_reducible first | assumption | apply keeps_ite | apply State.enterHoldover_keeps
    | intro _ | split | (fail_if_no_progress (with_reducible apply keeps_plain))

theorem execPlnBnLoad_keeps (f : Func) (v : Word) (h : Keeps a s) :
    ∀ t, (execPlnBnLoad f v s) = .next t → Keeps a t := by
  intro t e
  unfold execPlnBnLoad at e
  simp only [Host.Outcome.next.injEq] at e
  subst e
  try dsimp only
  repeat' first
    | with_reducible first | assumption | apply keeps_ite | apply State.gated_keeps | apply State.setWord_keeps
                            | apply State.genErr_keeps
    | intro _ | split | (fail_if_no_progress (with_reducible apply keeps_plain))

theorem execUpstreamReturn_keeps (h : Keeps a s) :
    ∀ t, (execUpstreamReturn s) = .next t → Keeps a t := by
  intro t e
  unfold execUpstreamReturn at e
  simp only [Host.Outcome.next.injEq] at e
  subst e
  try dsimp only
  repeat' first
    | with_reducible first | assumption | apply keeps_ite | apply State.putF_keeps
    | intro _ | split | (fail_if_no_progress (with_reducible apply keeps_plain))

theorem State.clearRegs_keeps (x1 b : Nat) (h : Keeps a s) :
    Keeps a (State.clearRegs s x1 b) := by
  exact keeps_maps h _ _ _ _ _ _ _ _ _ _ _ _ _ id id id (regsWf_filter _) id id id id id id id id

theorem State.clearTileRegs_keeps (g : Nat) (h : Keeps a s) :
    Keeps a (State.clearTileRegs s g) := by
  unfold State.clearTileRegs
  try dsimp only
  repeat' first
    | with_reducible first | assumption | apply State.clearRegs_keeps
    | intro _

theorem State.wipeGran_keeps (i : Nat) (h : Keeps a s) :
    Keeps a (State.wipeGran s i) := by
  unfold State.wipeGran
  try dsimp only
  repeat' first
    | with_reducible first | assumption | apply State.wipe_keeps
    | intro _

theorem State.wipeCluster_keeps (c : Nat) (h : Keeps a s) :
    Keeps a (State.wipeCluster s c) := by
  unfold State.wipeCluster
  exact keeps_maps (keeps_foldl (State.wipe_keeps (State.wipe_keeps (State.wipe_keeps h _ _) _ _) _ _)
    fun s x h => State.clearTileRegs_keeps _ h)
    _ _ _ _ _ _ _ _ _ _ _ _ _ id id id id (mwf_filter _) id id id id id (mwf_filter _) id

theorem State.endWipe_keeps (p : Nat) (h : Keeps a s) :
    Keeps a (State.endWipe s p) := by
  unfold State.endWipe
  try dsimp only
  repeat' first
    | with_reducible first | assumption | apply keeps_ite | apply State.wipeGran_keeps | apply State.modPart_keeps
                            | apply State.wipeCluster_keeps | apply State.wipe_keeps | apply State.putF_keeps
                            | apply State.signalQ_keeps | apply keeps_foldl | apply keeps_foldl_fst
    | intro _ | split

theorem State.showIdent_keeps (h : Keeps a s) :
    Keeps a (State.showIdent s) := by
  unfold State.showIdent
  try dsimp only
  repeat' first
    | with_reducible first | assumption | apply keeps_ite | apply State.putF_keeps
    | intro _ | split

theorem State.rekey_keeps (p : Nat) (h : Keeps a s) :
    Keeps a (State.rekey s p) := by
  exact keeps_foldl (keeps_ident h _ (fusesFrom_of_same rfl rfl rfl rfl)) fun s x h => State.wr_keeps _ _ h

theorem State.resetModule_keeps (h : Keeps a s) :
    Keeps a (State.resetModule s) := by
  unfold State.resetModule
  dsimp only
  refine State.showIdent_keeps (keeps_foldl (keeps_foldl ?_ fun s x h => putF_keeps _ _ _ h) fun s p h => rekey_keeps _ h)
  have h1 := keeps_maps h [] [] s.host [] [] [] [] [] [] [] [] [] [] (fun _ => rfl) id (fun _ => rfl) (fun _ => rfl) (fun _ => rfl)
    (fun _ => rfl) (fun _ => rfl) (fun _ => rfl) (fun _ => rfl) (fun _ => rfl) (fun _ => rfl) (fun _ => rfl)
  have h2 := keeps_ident h1 { s.ident with running := none, nonce := none, fwBusy := false, fwImage := [] } (fusesFrom_of_same rfl rfl rfl rfl)
  exact ⟨h2.queue, h2.canon, h2.fuses⟩

theorem State.enterOff_keeps (h : Keeps a s) :
    Keeps a (State.enterOff s) := by
  unfold State.enterOff
  try dsimp only
  repeat' first
    | with_reducible first | assumption | apply State.resetModule_keeps | apply State.putF_keeps
    | intro _ | (fail_if_no_progress (with_reducible apply keeps_plain))

theorem State.releaseMasters_keeps (p : Nat) (h : Keeps a s) :
    Keeps a (State.releaseMasters s p) := by
  unfold State.releaseMasters
  try dsimp only
  repeat' first
    | with_reducible first | assumption | apply keeps_ite | apply State.setTile_keeps | apply State.setCmover_keeps
                            | apply State.putF_keeps | apply State.setMover_keeps | apply State.setOch_keeps
                            | apply keeps_foldl | apply keeps_foldl_fst
    | intro _ | split

theorem State.resetPartition_keeps (p : Nat) (h : Keeps a s) :
    Keeps a (State.resetPartition s p) := by
  unfold State.resetPartition
  try dsimp only
  repeat' first
    | with_reducible first | assumption | apply State.setRun_keeps | apply State.releaseMasters_keeps
                            | apply State.clearRegs_keeps | apply State.clearTileRegs_keeps
                            | apply State.setQueue_keeps | apply State.setPart_keeps | apply State.putF_keeps
                            | apply State.arriveWork_keeps | apply State.rekey_keeps | apply keeps_foldl
                            | apply keeps_foldl_fst
    | intro _

theorem State.wipeLid_keeps (h : Keeps a s) :
    Keeps a (State.wipeLid s) := by
  unfold State.wipeLid
  refine keeps_maps (s := List.foldl _ s (List.range 8)) (keeps_foldl h fun s p h => endWipe_keeps _ (resetPartition_keeps _ h))
    _ _ _ _ _ _ _ _ _ _ _ _ _ (fun _ => rfl) id (fun _ => rfl) id (fun _ => rfl) id (fun _ => rfl) id id id (fun _ => rfl) (fun _ => rfl)

theorem State.setLifeCycle_keeps {a : State} {s : State} (lc : Nat) (h : Keeps a s)
    (hlc : s.ident.fusesFrom { s.ident with lc := lc } = true) : Keeps a (s.setLifeCycle lc) := by
  unfold State.setLifeCycle
  exact State.showIdent_keeps (State.deriveAlias_keeps (State.wipeLid_keeps (keeps_ident h _ hlc)))

theorem State.bistFails_keeps (mem inst : Nat) (h : Keeps a s) :
    Keeps a (State.bistFails s mem inst) := by
  unfold State.bistFails
  try dsimp only
  repeat' first
    | with_reducible first | assumption | apply State.failModule_keeps | apply State.elog_keeps
                            | apply State.putF_keeps
    | intro _

theorem State.bumpU_keeps (m u : Fld) (i : Nat) (h : Keeps a s) :
    Keeps a (State.bumpU s m u i) := by
  unfold State.bumpU
  try dsimp only
  repeat' first
    | with_reducible first | assumption | apply keeps_ite | apply State.bump_keeps
    | intro _ | split

theorem State.showMeas_keeps (m : BitVec 512) (h : Keeps a s) :
    Keeps a (State.showMeas s m) := by
  unfold State.showMeas
  try dsimp only
  repeat' first
    | with_reducible first | assumption | apply State.putF_keeps | apply keeps_foldl | apply keeps_foldl_fst
    | intro _

theorem State.putU_keeps (m u : Fld) (i v : Nat) (h : Keeps a s) :
    Keeps a (State.putU s m u i v) := by
  unfold State.putU
  try dsimp only
  repeat' first
    | with_reducible first | assumption | apply keeps_ite | apply State.putF_keeps
    | intro _ | split

theorem State.setUnitState_keeps (i v : Nat) (h : Keeps a s) :
    Keeps a (State.setUnitState s i v) := by
  unfold State.setUnitState
  try dsimp only
  repeat' first
    | with_reducible first | assumption | apply State.putU_keeps
    | intro _

theorem State.unitFails_keeps (i : Nat) (h : Keeps a s) :
    Keeps a (State.unitFails s i) := by
  unfold State.unitFails
  try dsimp only
  repeat' first
    | with_reducible first | assumption | apply State.failModule_keeps | apply State.mevt_keeps
                            | apply State.elog_keeps | apply State.setUnitState_keeps
    | intro _

theorem State.unitReady_keeps (i : Nat) (h : Keeps a s) :
    Keeps a (State.unitReady s i) := by
  unfold State.unitReady
  try dsimp only
  repeat' first
    | with_reducible first | assumption | apply State.modUnit_keeps | apply State.setUnitState_keeps
    | intro _

theorem State.trainUnit_keeps (i : Nat) (ok : Bool) (h : Keeps a s) :
    Keeps a (State.trainUnit s i ok) := by
  unfold State.trainUnit
  try dsimp only
  repeat' first
    | with_reducible first | assumption | apply keeps_ite | apply State.unitFails_keeps | apply State.modUnit_keeps
                            | apply State.unitReady_keeps
    | intro _ | split

theorem State.finishBoot_keeps (img : List Byte) (h : Keeps a s) :
    Keeps a (State.finishBoot s img) := by
  unfold State.finishBoot
  dsimp only
  have hi := State.deriveAlias_keeps (State.bootKeys_keeps (keeps_ident h { s.ident with running := some img, flash := some img }
    (fusesFrom_of_same rfl rfl rfl rfl)))
  have hm : ∀ {u : State}, Keeps a u → Keeps a { u with mem := [], sram := [] } := fun hu =>
    keeps_maps hu _ _ _ _ _ _ _ _ _ _ _ _ _ (fun _ => rfl) id (fun _ => rfl) id id id id id id id id id
  have hp : ∀ {u : State} (w : Power), Keeps a u → Keeps a { u with power := w } := fun _ hu => ⟨hu.queue, hu.canon, hu.fuses⟩
  refine State.masterByCfg_keeps (hp _ ?_)
  refine State.putF_keeps _ _ _ (State.putF_keeps _ _ _ (keeps_foldl (keeps_foldl (hm (keeps_foldl ?_ ?_)) ?_) ?_))
  all_goals
    repeat' first
      | with_reducible first | assumption | apply keeps_ite | apply State.showIdent_keeps
                              | apply State.showMeas_keeps | apply State.deriveAlias_keeps
                              | apply State.bootKeys_keeps | apply State.bistFails_keeps
                              | apply State.trainUnit_keeps | apply State.putF_keeps | apply State.refreshUsed_keeps
                              | apply State.masterByCfg_keeps | apply keeps_foldl | apply keeps_foldl_fst
      | intro _ | split | (fail_if_no_progress (with_reducible apply keeps_plain))

theorem State.coldBoot_keeps (flash : BootFlash) (boot : List Bool × Option (Nat × Nat) × List Nat) (h : Keeps a s) :
    Keeps a (State.coldBoot s flash boot) := by
  unfold State.coldBoot
  dsimp only
  have hi := fun o => State.showIdent_keeps (keeps_plainIdent h { s.ident with flash := some (s.ident.flash.getD flash.image), flashOwner := o }
    { s.power with boot := boot } (fusesFrom_of_same rfl rfl rfl rfl))
  have hp : ∀ {u : State} (w : Power), Keeps a u → Keeps a { u with power := w } := fun _ hu => ⟨hu.queue, hu.canon, hu.fuses⟩
  have hi := hi (if flash.ownerLost then none else s.ident.flashOwner)
  revert hi
  generalize State.showIdent _ = u
  intro hi
  split
  · exact h
  · split
    · exact hp _ hi
    · split
      · exact State.putF_keeps _ _ _ (State.putF_keeps _ _ _ hi)
      · exact State.finishBoot_keeps _ hi

theorem State.program_keeps (img : List Byte) (ok : Bool) (h : Keeps a s) :
    Keeps a (State.program s img ok) := by
  exact keeps_ident h _ (fusesFrom_of_same rfl rfl rfl rfl)

theorem State.tryBoot_keeps (h : Keeps a s) :
    Keeps a (State.tryBoot s) := by
  unfold State.tryBoot
  try dsimp only
  repeat' first
    | with_reducible first | assumption | apply keeps_ite | apply State.resetModule_keeps
                            | apply State.recordWake_keeps
    | intro _ | split | (fail_if_no_progress (with_reducible apply keeps_plain))

theorem State.wantBoot_keeps (src : Nat) (h : Keeps a s) :
    Keeps a (State.wantBoot s src) := by
  unfold State.wantBoot
  try dsimp only
  repeat' first
    | with_reducible first | assumption | apply State.tryBoot_keeps
    | intro _ | (fail_if_no_progress (with_reducible apply keeps_plain))

theorem execColdBoot_keeps (flash : BootFlash) (trained : List Bool) (bistFail : Option (Nat × Nat)) (links : List Nat) (h : Keeps a s) :
    ∀ t, (execColdBoot flash trained bistFail links s) = .next t → Keeps a t := by
  intro t e
  unfold execColdBoot at e
  simp only [Host.Outcome.next.injEq] at e
  subst e
  try dsimp only
  repeat' first
    | with_reducible first | assumption | apply State.coldBoot_keeps
    | intro _

theorem execEntropyFailure_keeps (h : Keeps a s) :
    ∀ t, (execEntropyFailure s) = .next t → Keeps a t := by
  intro t e
  unfold execEntropyFailure at e
  simp only [Host.Outcome.next.injEq] at e
  subst e
  try dsimp only
  repeat' first
    | with_reducible first | assumption | apply State.elog_keeps | apply State.putF_keeps
    | intro _

theorem execEntropyFailureTimeout_keeps (h : Keeps a s) :
    ∀ t, (execEntropyFailureTimeout s) = .next t → Keeps a t := by
  intro t e
  unfold execEntropyFailureTimeout at e
  simp only [Host.Outcome.next.injEq] at e
  subst e
  try dsimp only
  repeat' first
    | with_reducible first | assumption | apply keeps_ite | apply State.failModule_keeps
    | intro _ | split

theorem execFwUpdateDone_keeps (check : SigCheck) (flashOk : Bool) (h : Keeps a s) :
    ∀ t, (execFwUpdateDone check flashOk s) = .next t → Keeps a t := by
  intro t e
  unfold execFwUpdateDone at e
  simp only [Host.Outcome.next.injEq] at e
  subst e
  have hi := State.putF_keeps F.SEC_FW_CTRL_GO 0 0 (keeps_ident h { s.ident with fwBusy := false, fwImage := [] } (fusesFrom_of_same rfl rfl rfl rfl))
  split
  · exact h
  · split
    · exact State.putF_keeps _ _ _ hi
    · exact State.putF_keeps _ _ _ (State.program_keeps _ _ hi)

theorem execFwUpdateGo_keeps (f : Func) (v : Word) (h : Keeps a s) :
    ∀ t, (execFwUpdateGo f v s) = .next t → Keeps a t := by
  intro t e
  unfold execFwUpdateGo at e
  simp only [Host.Outcome.next.injEq] at e
  subst e
  refine State.gated_keeps _ _ _ h fun s h => ?_
  refine keeps_ite (State.putF_keeps _ _ _ (State.putF_keeps _ _ _ ?_)) fun _ => h
  exact keeps_ident h _ (fusesFrom_of_same rfl rfl rfl rfl)

theorem execProvision_keeps (dik : DikCert) (h : Keeps a s) :
    ∀ t, (execProvision dik s) = .next t → Keeps a t := by
  intro t e
  unfold execProvision at e
  simp only [Host.Outcome.next.injEq] at e
  subst e
  split
  · exact h
  · rename_i hc
    have h0 : s.ident.lc = 0 := Decidable.not_not.mp fun h0 => hc (Or.inl h0)
    have h1 : ∀ i : Ident, i.lc = 0 → i.fusesFrom { i with lc := 1 } = true := fun i hi => by
      simp [Ident.fusesFrom, slotsFrom_refl, hi]
    split
    · refine State.setLifeCycle_keeps _ (keeps_ident ?_ _ (fusesFrom_of_same rfl rfl rfl rfl)) (h1 _ ?_)
      · split
        · exact h
        · rename_i hs
          refine State.deriveRoots_keeps _ (keeps_ident (State.drawSecret_keeps h) _ ?_)
          simp [State.drawSecret, Ident.fusesFrom, slotsFrom_refl, Decidable.not_not.mp hs, h0]
      · split
        · exact h0
        · exact h0
    · split
      · exact h
      · rename_i hs
        refine State.deriveRoots_keeps _ (keeps_ident (State.drawSecret_keeps h) _ ?_)
        simp [State.drawSecret, Ident.fusesFrom, slotsFrom_refl, Decidable.not_not.mp hs, h0]

theorem execRecoveryGo_keeps (f : Func) (v : Word) (check : SigCheck) (flashOk : Bool) (h : Keeps a s) :
    ∀ t, (execRecoveryGo f v check flashOk s) = .next t → Keeps a t := by
  intro t e
  unfold execRecoveryGo at e
  simp only [Host.Outcome.next.injEq] at e
  subst e
  refine State.gated_keeps _ _ _ h fun s h => ?_
  refine keeps_ite ?_ fun _ => h
  split
  · exact State.putF_keeps _ _ _ h
  · exact keeps_ite (State.putF_keeps _ _ _ (State.program_keeps _ _ h)) fun _ =>
      State.finishBoot_keeps _ (State.putF_keeps _ _ _ (State.program_keeps _ _ h))

theorem execSvnCommit_keeps (f : Func) (v : Word) (h : Keeps a s) :
    ∀ t, (execSvnCommit f v s) = .next t → Keeps a t := by
  intro t e
  unfold execSvnCommit at e
  simp only [Host.Outcome.next.injEq] at e
  subst e
  refine State.gated_keeps _ _ _ h fun s h => ?_
  refine keeps_ite ?_ fun _ => h
  split
  · refine State.showIdent_keeps (keeps_ident h _ ?_)
    simp [Ident.fusesFrom, slotsFrom_refl]
  · exact h

end Sys2Proof.Machine
end

