-- ==== Sys2Proof/Laws/KeepsRows.lean ====
section
/-! SUPPORT. What the functions and meanings of
the fabric, rows, messages and plans keep:
for each, the law that `Keeps` holds of the state it makes if it holds of the state it is given. -/

set_option linter.unusedTactic false
set_option linter.unreachableTactic false
set_option linter.unusedVariables false

namespace Sys2Proof.Machine

variable {a s : State}

theorem State.setTableSt_keeps (p t r : Nat) (x : TableSt) (h : Keeps a s) :
    Keeps a (State.setTableSt s p t r x) := by
  unfold State.setTableSt
  try dsimp only
  repeat' first
    | with_reducible first | assumption | apply State.modPart_keeps
    | intro _

theorem State.modTableSt_keeps (p t r : Nat) (f : TableSt → TableSt) (h : Keeps a s) :
    Keeps a (State.modTableSt s p t r f) := by
  unfold State.modTableSt
  try dsimp only
  repeat' first
    | with_reducible first | assumption | apply State.setTableSt_keeps
    | intro _

theorem State.setPage_keeps (p t r : Nat) (x : PageRec) (h : Keeps a s) :
    Keeps a (State.setPage s p t r x) := by
  unfold State.setPage
  try dsimp only
  repeat' first
    | with_reducible first | assumption | apply State.modTableSt_keeps
    | intro _

theorem State.countLoad_keeps (p t : Nat) (d : TableDesc) (r key n : Nat) (h : Keeps a s) :
    Keeps a (State.countLoad s p t d r key n) := by
  unfold State.countLoad
  try dsimp only
  repeat' first
    | with_reducible first | assumption | apply keeps_ite | apply State.setPage_keeps
    | intro _ | split

theorem State.modCoord_keeps (p : Nat) (f : Coord → Coord) (h : Keeps a s) :
    Keeps a (State.modCoord s p f) := by
  unfold State.modCoord
  try dsimp only
  repeat' first
    | with_reducible first | assumption | apply State.modPart_keeps
    | intro _

theorem State.sendResume_keeps (p : Nat) (entries : List HostEntry) (h : Keeps a s) :
    Keeps a (State.sendResume s p entries) := by
  unfold State.sendResume
  try dsimp only
  repeat' first
    | with_reducible first | assumption | apply State.modCoord_keeps | apply State.emit_keeps
    | intro _

theorem State.sendStop_keeps (p : Nat) (h : Keeps a s) :
    Keeps a (State.sendStop s p) := by
  unfold State.sendStop
  try dsimp only
  repeat' first
    | with_reducible first | assumption | apply State.modCoord_keeps | apply State.emit_keeps
    | intro _

theorem State.decideHosting_keeps (p : Nat) (h : Keeps a s) :
    Keeps a (State.decideHosting s p) := by
  unfold State.decideHosting
  try dsimp only
  repeat' first
    | with_reducible first | assumption | apply keeps_ite | apply State.sendResume_keeps | apply State.sendStop_keeps
    | intro _ | split

theorem State.hlog_keeps (qs : List Nat) (b : Nat) (h : Keeps a s) :
    Keeps a (State.hlog s qs b) := by
  unfold State.hlog
  try dsimp only
  repeat' first
    | with_reducible first | assumption | apply State.putF_keeps
    | intro _

theorem State.reportDoubt_keeps (p : Nat) (r : DoubtReport) (h : Keeps a s) :
    Keeps a (State.reportDoubt s p r) := by
  unfold State.reportDoubt
  try dsimp only
  repeat' first
    | with_reducible first | assumption | apply keeps_ite | apply State.modCoord_keeps | apply State.emit_keeps
    | intro _ | split

theorem State.learnFailure_keeps (p : Nat) (h : Keeps a s) :
    Keeps a (State.learnFailure s p) := by
  unfold State.learnFailure
  try dsimp only
  repeat' first
    | with_reducible first | assumption | apply keeps_ite | apply State.reportDoubt_keeps | apply State.modPart_keeps
                            | apply State.putF_keeps
    | intro _ | split

theorem State.takePortReport_keeps (p q k : Nat) (up : Bool) (h : Keeps a s) :
    Keeps a (State.takePortReport s p q k up) := by
  unfold State.takePortReport
  try dsimp only
  repeat' first
    | with_reducible first | assumption | apply keeps_ite | apply State.modCoord_keeps | apply State.emit_keeps
    | intro _ | split

theorem State.reportPort_keeps (k : Nat) (up : Bool) (h : Keeps a s) :
    Keeps a (State.reportPort s k up) := by
  unfold State.reportPort
  try dsimp only
  repeat' first
    | with_reducible first | assumption | apply keeps_ite | apply State.modPort_keeps
                            | apply State.takePortReport_keeps | apply State.emit_keeps | apply keeps_foldl
                            | apply keeps_foldl_fst
    | intro _ | split

theorem State.takeNotice_keeps (p : Nat) (qs : List Nat) (h : Keeps a s) :
    Keeps a (State.takeNotice s p qs) := by
  unfold State.takeNotice
  try dsimp only
  repeat' first
    | with_reducible first | assumption | apply keeps_ite | apply State.modCoord_keeps
                            | apply State.decideHosting_keeps
    | intro _ | split

theorem State.sendNotice_keeps (qs : List Nat) (h : Keeps a s) :
    Keeps a (State.sendNotice s qs) := by
  unfold State.sendNotice
  try dsimp only
  repeat' first
    | with_reducible first | assumption | apply keeps_ite | apply State.hlog_keeps | apply State.takeNotice_keeps
                            | apply State.emit_keeps | apply keeps_foldl | apply keeps_foldl_fst
    | intro _ | split | (fail_if_no_progress (with_reducible apply keeps_plain))

theorem execCommitStateReport_keeps (p pos : Nat) (r : DoubtReport) (h : Keeps a s) :
    ∀ t, (execCommitStateReport p pos r s) = .next t → Keeps a t := by
  intro t e
  unfold execCommitStateReport at e
  simp only [Host.Outcome.next.injEq] at e
  subst e
  try dsimp only
  repeat' first
    | with_reducible first | assumption | apply keeps_ite | apply State.modCoord_keeps
    | intro _ | split

theorem execFailureNotice_keeps (p : Nat) (positions : List Nat) (bn : Nat) (h : Keeps a s) :
    ∀ t, (execFailureNotice p positions bn s) = .next t → Keeps a t := by
  intro t e
  unfold execFailureNotice at e
  simp only [Host.Outcome.next.injEq] at e
  subst e
  try dsimp only
  repeat' first
    | with_reducible first | assumption | apply keeps_ite | apply State.learnFailure_keeps | apply State.hlog_keeps
                            | apply State.takeNotice_keeps
    | intro _ | split

theorem execHostingDecision_keeps (p : Nat) (h : Keeps a s) :
    ∀ t, (execHostingDecision p s) = .next t → Keeps a t := by
  intro t e
  unfold execHostingDecision at e
  simp only [Host.Outcome.next.injEq] at e
  subst e
  try dsimp only
  repeat' first
    | with_reducible first | assumption | apply keeps_ite | apply State.decideHosting_keeps
    | intro _ | split

theorem execLateResumeReport_keeps (p hepoch : Nat) (h : Keeps a s) :
    ∀ t, (execLateResumeReport p hepoch s) = .next t → Keeps a t := by
  intro t e
  unfold execLateResumeReport at e
  simp only [Host.Outcome.next.injEq] at e
  subst e
  try dsimp only
  repeat' first
    | with_reducible first | assumption | apply keeps_ite | apply State.decideHosting_keeps
    | intro _ | split

theorem execPortStatusReport_keeps (p pos port : Nat) (up : Bool) (h : Keeps a s) :
    ∀ t, (execPortStatusReport p pos port up s) = .next t → Keeps a t := by
  intro t e
  unfold execPortStatusReport at e
  simp only [Host.Outcome.next.injEq] at e
  subst e
  try dsimp only
  repeat' first
    | with_reducible first | assumption | apply keeps_ite | apply State.takePortReport_keeps
    | intro _ | split

theorem State.settleFtg_keeps (h : Keeps a s) :
    Keeps a (State.settleFtg s) := by
  unfold State.settleFtg
  try dsimp only
  repeat' first
    | with_reducible first | assumption | apply keeps_ite | apply State.putF_keeps
    | intro _ | split

theorem State.settleSent_keeps (h : Keeps a s) :
    Keeps a (State.settleSent s) := by
  unfold State.settleSent
  try dsimp only
  repeat' first
    | with_reducible first | assumption | apply keeps_ite | apply State.taskDone_keeps | apply State.modPart_keeps
                            | apply keeps_foldl | apply keeps_foldl_fst
    | intro _ | split

theorem State.drain_keeps (k : Nat) (h : Keeps a s) :
    Keeps a (State.drain s k) := by
  unfold State.drain
  try dsimp only
  repeat' first
    | with_reducible first | assumption | apply State.settleFtg_keeps | apply State.settleSent_keeps
                            | apply State.pumpUp_keeps
    | intro _

theorem State.ackTo_keeps (k n : Nat) (h : Keeps a s) :
    Keeps a (State.ackTo s k n) := by
  unfold State.ackTo
  try dsimp only
  repeat' first
    | with_reducible first | assumption | apply State.drain_keeps | apply State.setPort_keeps
    | intro _ | split

theorem State.failPort_keeps (k cause : Nat) (h : Keeps a s) :
    Keeps a (State.failPort s k cause) := by
  unfold State.failPort
  try dsimp only
  repeat' first
    | with_reducible first | assumption | apply keeps_ite | apply State.elog_keeps | apply State.putF_keeps
                            | apply State.failModule_keeps
    | intro _ | split

theorem State.received_keeps (k n : Nat) (h : Keeps a s) :
    Keeps a (State.received s k n) := by
  unfold State.received
  try dsimp only
  repeat' first
    | with_reducible first | assumption | apply State.emitFlit_keeps | apply State.modPort_keeps
    | intro _

theorem State.freeFlits_keeps (k vc n : Nat) (h : Keeps a s) :
    Keeps a (State.freeFlits s k vc n) := by
  unfold State.freeFlits
  try dsimp only
  repeat' first
    | with_reducible first | assumption | apply State.received_keeps | apply State.modPort_keeps
    | intro _

theorem State.toOptical_keeps (k : Nat) (h : Keeps a s) :
    Keeps a (State.toOptical s k) := by
  unfold State.toOptical
  try dsimp only
  repeat' first
    | with_reducible first | assumption | apply keeps_ite | apply State.putF_keeps
    | intro _ | split

theorem State.portDown_keeps (k cause : Nat) (h : Keeps a s) :
    Keeps a (State.portDown s k cause) := by
  unfold State.portDown
  try dsimp only
  repeat' first
    | with_reducible first | assumption | apply keeps_ite | apply State.setPort_keeps | apply State.putF_keeps
                            | apply State.mevt_keeps | apply State.elog_keeps | apply State.toOptical_keeps
                            | apply State.learnFailure_keeps | apply State.reportPort_keeps
                            | apply State.faultAll_keeps | apply keeps_foldl | apply keeps_foldl_fst
    | intro _ | split

theorem State.resendFrom_keeps (k n : Nat) (h : Keeps a s) :
    Keeps a (State.resendFrom s k n) := by
  unfold State.resendFrom
  try dsimp only
  repeat' first
    | with_reducible first | assumption | apply keeps_ite | apply State.portDown_keeps | apply State.bump_keeps
                            | apply State.setPort_keeps | apply State.emitFlit_keeps | apply keeps_foldl
                            | apply keeps_foldl_fst
    | intro _ | split

theorem State.sendMsg_keeps (c : TClass) (x2 : MsgHdr) (o : Out) (h : Keeps a s) :
    Keeps a (State.sendMsg s c x2 o) := by
  unfold State.sendMsg
  try dsimp only
  repeat' first
    | with_reducible first | assumption | apply keeps_ite | apply State.moduleFault_keeps | apply State.bump_keeps
                            | apply State.queueMsg_keeps
    | intro _ | split

theorem State.sendNak_keeps (k : Nat) (h : Keeps a s) :
    Keeps a (State.sendNak s k) := by
  unfold State.sendNak
  try dsimp only
  repeat' first
    | with_reducible first | assumption | apply keeps_ite | apply State.emit_keeps | apply State.modPort_keeps
    | intro _ | split

theorem State.setLanes_keeps (k lanes : Nat) (w8 : Bool) (h : Keeps a s) :
    Keeps a (State.setLanes s k lanes w8) := by
  unfold State.setLanes
  try dsimp only
  repeat' first
    | with_reducible first | assumption | apply keeps_ite | apply State.putF_keeps
    | intro _ | split

theorem State.settleBypass_keeps (d : Nat) (h : Keeps a s) :
    Keeps a (State.settleBypass s d) := by
  unfold State.settleBypass
  try dsimp only
  repeat' first
    | with_reducible first | assumption | apply keeps_ite | apply State.putF_keeps
    | intro _ | split

theorem State.settlePort_keeps (k : Nat) (h : Keeps a s) :
    Keeps a (State.settlePort s k) := by
  unfold State.settlePort
  try dsimp only
  repeat' first
    | with_reducible first | assumption | apply keeps_ite | apply State.toOptical_keeps | apply State.modPort_keeps
                            | apply State.portDown_keeps | apply State.putF_keeps
    | intro _ | split

theorem State.settleDim_keeps (d : Nat) (h : Keeps a s) :
    Keeps a (State.settleDim s d) := by
  unfold State.settleDim
  try dsimp only
  repeat' first
    | with_reducible first | assumption | apply State.settlePort_keeps | apply State.settleBypass_keeps
    | intro _

theorem State.startAlign_keeps (k : Nat) (h : Keeps a s) :
    Keeps a (State.startAlign s k) := by
  unfold State.startAlign
  try dsimp only
  repeat' first
    | with_reducible first | assumption | apply State.emit_keeps | apply State.putF_keeps
    | intro _

theorem State.startKeying_keeps (k : Nat) (h : Keeps a s) :
    Keeps a (State.startKeying s k) := by
  unfold State.startKeying
  dsimp only
  have h1 := State.putF_keeps F.FAB_PSTAT_STATE k 4 h
  refine keeps_ite h1 fun _ => State.emit_keeps _ (State.modPort_keeps _ _ (keeps_ident h1 _ (fusesFrom_of_same rfl rfl rfl rfl)))

theorem State.takeCredits_keeps (k : Nat) (credit : List Nat) (h : Keeps a s) :
    Keeps a (State.takeCredits s k credit) := by
  unfold State.takeCredits
  try dsimp only
  repeat' first
    | with_reducible first | assumption | apply State.drain_keeps | apply State.modPort_keeps
    | intro _

theorem State.trainAgain_keeps (k : Nat) (h : Keeps a s) :
    Keeps a (State.trainAgain s k) := by
  unfold State.trainAgain
  try dsimp only
  repeat' first
    | with_reducible first | assumption | apply keeps_ite | apply State.modPort_keeps | apply State.failPort_keeps
                            | apply State.toOptical_keeps
    | intro _ | split

theorem execAckReceive_keeps (port seq : Nat) (h : Keeps a s) :
    ∀ t, (execAckReceive port seq s) = .next t → Keeps a t := by
  intro t e
  unfold execAckReceive at e
  simp only [Host.Outcome.next.injEq] at e
  subst e
  try dsimp only
  repeat' first
    | with_reducible first | assumption | apply keeps_ite | apply State.ackTo_keeps
    | intro _ | split

theorem execAlignDone_keeps (port farPos : Nat) (rings : Nat × Nat × Nat) (rtt : Nat) (h : Keeps a s) :
    ∀ t, (execAlignDone port farPos rings rtt s) = .next t → Keeps a t := by
  intro t e
  unfold execAlignDone at e
  simp only [Host.Outcome.next.injEq] at e
  subst e
  try dsimp only
  repeat' first
    | with_reducible first | assumption | apply keeps_ite | apply State.failPort_keeps | apply State.putF_keeps
                            | apply State.modPort_keeps | apply State.startKeying_keeps
                            | apply State.sendNotice_keeps
    | intro _ | split

theorem execBypassOpen_keeps (f : Func) (v : Word) (h : Keeps a s) :
    ∀ t, (execBypassOpen f v s) = .next t → Keeps a t := by
  intro t e
  unfold execBypassOpen at e
  simp only [Host.Outcome.next.injEq] at e
  subst e
  try dsimp only
  repeat' first
    | with_reducible first | assumption | apply State.gated_keeps | apply State.putF_keeps
                            | apply State.settleDim_keeps | apply keeps_foldl | apply keeps_foldl_fst
    | intro _

theorem execEqualiseDone_keeps (port lanes : Nat) (h : Keeps a s) :
    ∀ t, (execEqualiseDone port lanes s) = .next t → Keeps a t := by
  intro t e
  unfold execEqualiseDone at e
  simp only [Host.Outcome.next.injEq] at e
  subst e
  try dsimp only
  repeat' first
    | with_reducible first | assumption | apply keeps_ite | apply State.startAlign_keeps | apply State.setLanes_keeps
                            | apply State.trainAgain_keeps | apply State.putF_keeps
    | intro _ | split

theorem execFabCfgWrite_keeps (f : Func) (v : Word) (h : Keeps a s) :
    ∀ t, (execFabCfgWrite f v s) = .next t → Keeps a t := by
  intro t e
  unfold execFabCfgWrite at e
  simp only [Host.Outcome.next.injEq] at e
  subst e
  try dsimp only
  repeat' first
    | with_reducible first | assumption | apply keeps_ite | apply State.gated_keeps | apply State.settleDim_keeps
                            | apply State.masterByCfg_keeps | apply State.setWord_keeps | apply State.genErr_keeps
                            | apply keeps_foldl | apply keeps_foldl_fst
    | intro _ | split

theorem execFlitDiscard_keeps (port : Nat) (crcBad : Bool) (symErrs : List Nat) (h : Keeps a s) :
    ∀ t, (execFlitDiscard port crcBad symErrs s) = .next t → Keeps a t := by
  intro t e
  unfold execFlitDiscard at e
  simp only [Host.Outcome.next.injEq] at e
  subst e
  try dsimp only
  repeat' first
    | with_reducible first | assumption | apply keeps_ite | apply State.bump_keeps | apply State.bumpBy_keeps
                            | apply State.sendNak_keeps | apply keeps_foldl | apply keeps_foldl_fst
    | intro _ | split

theorem execKeyingDone_keeps (port : Nat) (peer : PeerChain) (h : Keeps a s) :
    ∀ t, (execKeyingDone port peer s) = .next t → Keeps a t := by
  intro t e
  unfold execKeyingDone at e
  simp only [Host.Outcome.next.injEq] at e
  subst e
  split
  · exact h
  · have hi := State.emit_keeps (.linkKem port (s.exchange port peer.kem).2.1) (keeps_ident h { s.ident with drbg := s.ident.drbg + 1 } (fusesFrom_of_same rfl rfl rfl rfl))
    repeat' first
      | with_reducible first | assumption | apply keeps_ite | apply State.emit_keeps | apply State.failPort_keeps
                              | apply State.modPort_keeps | apply State.putF_keeps | apply State.drain_keeps
                              | apply State.reportPort_keeps
      | intro _ | split | (fail_if_no_progress (with_reducible apply keeps_plain))

theorem execLaneLoss_keeps (port lanes : Nat) (h : Keeps a s) :
    ∀ t, (execLaneLoss port lanes s) = .next t → Keeps a t := by
  intro t e
  unfold execLaneLoss at e
  simp only [Host.Outcome.next.injEq] at e
  subst e
  try dsimp only
  repeat' first
    | with_reducible first | assumption | apply keeps_ite | apply State.putF_keeps | apply State.setLanes_keeps
                            | apply State.portDown_keeps
    | intro _ | split

theorem execNakReceive_keeps (port seq : Nat) (h : Keeps a s) :
    ∀ t, (execNakReceive port seq s) = .next t → Keeps a t := by
  intro t e
  unfold execNakReceive at e
  simp only [Host.Outcome.next.injEq] at e
  subst e
  try dsimp only
  repeat' first
    | with_reducible first | assumption | apply keeps_ite | apply State.resendFrom_keeps
    | intro _ | split

theorem execOpticalSignalDetect_keeps (port : Nat) (h : Keeps a s) :
    ∀ t, (execOpticalSignalDetect port s) = .next t → Keeps a t := by
  intro t e
  unfold execOpticalSignalDetect at e
  simp only [Host.Outcome.next.injEq] at e
  subst e
  try dsimp only
  repeat' first
    | with_reducible first | assumption | apply keeps_ite | apply State.putF_keeps
    | intro _ | split

theorem execPortEnable_keeps (port : Nat) (v : Word) (h : Keeps a s) :
    ∀ t, (execPortEnable port v s) = .next t → Keeps a t := by
  intro t e
  unfold execPortEnable at e
  simp only [Host.Outcome.next.injEq] at e
  subst e
  try dsimp only
  repeat' first
    | with_reducible first | assumption | apply keeps_ite | apply State.gated_keeps | apply State.putF_keeps
                            | apply State.writeOthers_keeps | apply State.settleDim_keeps
    | intro _ | split

theorem execPortRetrain_keeps (port : Nat) (h : Keeps a s) :
    ∀ t, (execPortRetrain port s) = .next t → Keeps a t := by
  intro t e
  unfold execPortRetrain at e
  simp only [Host.Outcome.next.injEq] at e
  subst e
  try dsimp only
  repeat' first
    | with_reducible first | assumption | apply keeps_ite | apply State.gated_keeps | apply State.putF_keeps
                            | apply State.portDown_keeps | apply State.toOptical_keeps | apply State.modPort_keeps
    | intro _ | split

theorem execPortSignalLost_keeps (port : Nat) (h : Keeps a s) :
    ∀ t, (execPortSignalLost port s) = .next t → Keeps a t := by
  intro t e
  unfold execPortSignalLost at e
  simp only [Host.Outcome.next.injEq] at e
  subst e
  try dsimp only
  repeat' first
    | with_reducible first | assumption | apply keeps_ite | apply State.portDown_keeps
    | intro _ | split

theorem execRemapDone_keeps (port : Nat) (h : Keeps a s) :
    ∀ t, (execRemapDone port s) = .next t → Keeps a t := by
  intro t e
  unfold execRemapDone at e
  simp only [Host.Outcome.next.injEq] at e
  subst e
  try dsimp only
  repeat' first
    | with_reducible first | assumption | apply keeps_ite | apply State.drain_keeps | apply State.putF_keeps
    | intro _ | split

theorem execRetryTimeout_keeps (port : Nat) (h : Keeps a s) :
    ∀ t, (execRetryTimeout port s) = .next t → Keeps a t := by
  intro t e
  unfold execRetryTimeout at e
  simp only [Host.Outcome.next.injEq] at e
  subst e
  try dsimp only
  repeat' first
    | with_reducible first | assumption | apply keeps_ite | apply State.resendFrom_keeps
    | intro _ | split

theorem execSealFlit_keeps (port seq group count : Nat) (tagOk : Bool) (credit : List Nat) (h : Keeps a s) :
    ∀ t, (execSealFlit port seq group count tagOk credit s) = .next t → Keeps a t := by
  intro t e
  unfold execSealFlit at e
  simp only [Host.Outcome.next.injEq] at e
  subst e
  try dsimp only
  repeat' first
    | with_reducible first | assumption | apply keeps_ite | apply State.sendNak_keeps | apply State.portDown_keeps
                            | apply State.bump_keeps | apply State.takeCredits_keeps | apply State.received_keeps
                            | apply State.modPort_keeps
    | intro _ | split

theorem execTrainingLimitExpiry_keeps (port : Nat) (h : Keeps a s) :
    ∀ t, (execTrainingLimitExpiry port s) = .next t → Keeps a t := by
  intro t e
  unfold execTrainingLimitExpiry at e
  simp only [Host.Outcome.next.injEq] at e
  subst e
  try dsimp only
  repeat' first
    | with_reducible first | assumption | apply keeps_ite | apply State.trainAgain_keeps | apply State.modPort_keeps
                            | apply State.portDown_keeps
    | intro _ | split

theorem State.setCollRun_keeps (p : Nat) (x : CollRun) (h : Keeps a s) :
    Keeps a (State.setCollRun s p x) := by
  unfold State.setCollRun
  try dsimp only
  repeat' first
    | with_reducible first | assumption | apply State.modPart_keeps
    | intro _

theorem State.holdChunk_keeps (p task r : Nat) (k : Chunk) (h : Keeps a s) :
    Keeps a (State.holdChunk s p task r k) := by
  unfold State.holdChunk
  try dsimp only
  repeat' first
    | with_reducible first | assumption | apply State.setCollRun_keeps
    | intro _

theorem State.collWr_keeps (p task x3 : Nat) (b : List Byte) (h : Keeps a s) :
    Keeps a (State.collWr s p task x3 b) := by
  unfold State.collWr
  try dsimp only
  repeat' first
    | with_reducible first | assumption | apply keeps_ite | apply State.wrBy_keeps
    | intro _ | split

theorem State.endPiece_keeps (p task r : Nat) (c : CollDesc) (coll i sh dirn offset : Nat) (v : List Byte) (h : Keeps a s) :
    Keeps a (State.endPiece s p task r c coll i sh dirn offset v).1 := by
  unfold State.endPiece
  try dsimp only
  repeat' first
    | with_reducible first | assumption | apply keeps_ite | apply State.holdChunk_keeps | apply State.collWr_keeps
    | intro _ | split

theorem State.addPiece_keeps (p task r : Nat) (c : CollDesc) (i : Nat) (x6 : CollHdr) (data : List Byte) (h : Keeps a s) :
    Keeps a (State.addPiece s p task r c i x6 data).1 := by
  unfold State.addPiece
  try dsimp only
  repeat' first
    | with_reducible first | assumption | apply keeps_ite | apply State.endPiece_keeps
    | intro _ | split

theorem State.collBegin_keeps (p task r : Nat) (c : CollDesc) (coll : Nat) (h : Keeps a s) :
    Keeps a (State.collBegin s p task r c coll).1 := by
  unfold State.collBegin
  try dsimp only
  repeat' first
    | with_reducible first | assumption | apply keeps_ite | apply State.setCollRun_keeps | apply State.endPiece_keeps
                            | apply State.holdChunk_keeps | apply State.collWr_keeps | apply keeps_foldl
                            | apply keeps_foldl_fst
    | intro _ | split

theorem State.keepPiece_keeps (p task r : Nat) (c : CollDesc) (i : Nat) (x6 : CollHdr) (data : List Byte) (h : Keeps a s) :
    Keeps a (State.keepPiece s p task r c i x6 data).1 := by
  unfold State.keepPiece
  try dsimp only
  repeat' first
    | with_reducible first | assumption | apply keeps_ite | apply State.holdChunk_keeps | apply State.collWr_keeps
    | intro _ | split

theorem State.gathered_keeps (p t r : Nat) (h : Keeps a s) :
    Keeps a (State.gathered s p t r) := by
  unfold State.gathered
  try dsimp only
  repeat' first
    | with_reducible first | assumption | apply keeps_ite | apply State.modPart_keeps | apply State.putF_keeps
    | intro _ | split

theorem State.collFinish_keeps (p task r : Nat) (c : CollDesc) (h : Keeps a s) :
    Keeps a (State.collFinish s p task r c) := by
  unfold State.collFinish
  try dsimp only
  repeat' first
    | with_reducible first | assumption | apply keeps_ite | apply State.collWr_keeps | apply State.setCollRun_keeps
                            | apply State.gathered_keeps | apply State.taskDone_keeps
    | intro _ | split

theorem State.collTake_keeps (p task r : Nat) (x4 : CollHdr) (data : List Byte) (h : Keeps a s) :
    Keeps a (State.collTake s p task r x4 data).1 := by
  unfold State.collTake
  try dsimp only
  repeat' first
    | with_reducible first | assumption | apply keeps_ite | apply State.setCollRun_keeps | apply State.addPiece_keeps
                            | apply State.keepPiece_keeps | apply State.collFinish_keeps
    | intro _ | split

theorem State.collDrainOnce_keeps (p task r : Nat) (c : CollDesc) (h : Keeps a s) :
    Keeps a (State.collDrainOnce s p task r c).1 := by
  unfold State.collDrainOnce
  try dsimp only
  repeat' first
    | with_reducible first | assumption | apply State.setCollRun_keeps | apply State.collTake_keeps
                            | apply keeps_foldl | apply keeps_foldl_fst
    | intro _ | split

theorem State.collDrain_keeps (p task r : Nat) (c : CollDesc) (h : Keeps a s) :
    Keeps a (State.collDrain s p task r c).1 := by
  unfold State.collDrain
  try dsimp only
  repeat' first
    | with_reducible first | assumption | apply State.collDrainOnce_keeps | apply keeps_foldl | apply keeps_foldl_fst
    | intro _ | split

theorem State.collSend_keeps (p task x3 x4 : Nat) (x5 : List CollMsg) (h : Keeps a s) :
    Keeps a (State.collSend s p task x3 x4 x5) := by
  induction x3 generalizing s x4 x5 with
  | zero => unfold State.collSend; exact h
  | succ n ih =>
    cases x5 with
    | nil => unfold State.collSend; exact h
    | cons m ms =>
      unfold State.collSend
      repeat' first
        | with_reducible first | apply ih | assumption | apply keeps_ite | apply State.collTake_keeps
                                | apply State.collDrain_keeps | apply State.sendMsg_keeps
        | intro _ | split

theorem State.collGo_keeps (p task r : Nat) (ms : List CollMsg) (h : Keeps a s) :
    Keeps a (State.collGo s p task r ms) := by
  unfold State.collGo
  try dsimp only
  repeat' first
    | with_reducible first | assumption | apply State.collDrain_keeps | apply State.collSend_keeps
                            | apply State.collFinish_keeps
    | intro _ | split

theorem State.collDeliver_keeps (p : Nat) (x2 : MsgHdr) (k : CollHdr) (data : List Byte) (h : Keeps a s) :
    Keeps a (State.collDeliver s p x2 k data) := by
  unfold State.collDeliver
  try dsimp only
  repeat' first
    | with_reducible first | assumption | apply keeps_ite | apply State.collTake_keeps | apply State.collGo_keeps
    | intro _ | split

theorem State.startColl_keeps (p task r : Nat) (h : Keeps a s) :
    Keeps a (State.startColl s p task r) := by
  unfold State.startColl
  try dsimp only
  repeat' first
    | with_reducible first | assumption | apply State.collBegin_keeps | apply State.collGo_keeps
    | intro _ | split

theorem State.startGather_keeps (p t r : Nat) (h : Keeps a s) :
    Keeps a (State.startGather s p t r) := by
  unfold State.startGather
  try dsimp only
  repeat' first
    | with_reducible first | assumption | apply State.collBegin_keeps | apply State.collGo_keeps
    | intro _ | split

theorem execCollective_keeps (p task rank : Nat) (h : Keeps a s) :
    ∀ t, (execCollective p task rank s) = .next t → Keeps a t := by
  intro t e
  unfold execCollective at e
  simp only [Host.Outcome.next.injEq] at e
  subst e
  try dsimp only
  repeat' first
    | with_reducible first | assumption | apply keeps_ite | apply State.startColl_keeps
    | intro _ | split

theorem State.fill32_keeps (x1 n : Nat) (w : W32) (h : Keeps a s) :
    Keeps a (State.fill32 s x1 n w) := by
  unfold State.fill32
  try dsimp only
  repeat' first
    | with_reducible first | assumption | apply State.wr_keeps
    | intro _

theorem State.freshScales_keeps (p r : Nat) (h : Keeps a s) :
    Keeps a (State.freshScales s p r) := by
  unfold State.freshScales
  try dsimp only
  repeat' first
    | with_reducible first | assumption | apply State.modPart_keeps
    | intro _ | split

theorem State.initDefault_keeps (p t r : Nat) (d : TableDesc) (x5 : HypEnt) (h : Keeps a s) :
    Keeps a (State.initDefault s p t r d x5) := by
  unfold State.initDefault
  try dsimp only
  repeat' first
    | with_reducible first | assumption | apply keeps_ite | apply State.wipe_keeps | apply State.fill32_keeps
    | intro _ | split

theorem State.initDense_keeps (p t r q : Nat) (pl : Plan) (h : Keeps a s) :
    Keeps a (State.initDense s p t r q pl) := by
  unfold State.initDense
  try dsimp only
  repeat' first
    | with_reducible first | assumption | apply keeps_ite | apply State.wipe_keeps | apply State.wr_keeps
                            | apply State.fill32_keeps
    | intro _ | split

theorem State.initPage_keeps (d : TableDesc) (x2 : HypEnt) (x : PageRec) (h : Keeps a s) :
    Keeps a (State.initPage s d x2 x) := by
  unfold State.initPage
  try dsimp only
  repeat' first
    | with_reducible first | assumption | apply keeps_ite | apply State.wipe_keeps | apply State.fill32_keeps
                            | apply keeps_foldl | apply keeps_foldl_fst
    | intro _ | split

theorem State.initRowState_keeps (p t r : Nat) (d : TableDesc) (x5 : HypEnt) (h : Keeps a s) :
    Keeps a (State.initRowState s p t r d x5) := by
  unfold State.initRowState
  try dsimp only
  repeat' first
    | with_reducible first | assumption | apply State.initPage_keeps | apply State.initDefault_keeps
                            | apply keeps_foldl | apply keeps_foldl_fst
    | intro _

theorem State.initState_keeps (p r : Nat) (h : Keeps a s) :
    Keeps a (State.initState s p r) := by
  unfold State.initState
  try dsimp only
  repeat' first
    | with_reducible first | assumption | apply State.modTableSt_keeps | apply State.initRowState_keeps
                            | apply State.modPart_keeps | apply State.initDense_keeps | apply keeps_foldl
                            | apply keeps_foldl_fst
    | intro _ | split

theorem State.loadCounts_keeps (p r : Nat) (h : Keeps a s) :
    Keeps a (State.loadCounts s p r) := by
  unfold State.loadCounts
  try dsimp only
  repeat' first
    | with_reducible first | assumption | apply State.modPart_keeps | apply State.modTableSt_keeps
                            | apply keeps_foldl | apply keeps_foldl_fst
    | intro _ | split

theorem State.writeEpochs_keeps (p r : Nat) (h : Keeps a s) :
    Keeps a (State.writeEpochs s p r) := by
  unfold State.writeEpochs
  try dsimp only
  repeat' first
    | with_reducible first | assumption | apply State.wr_keeps | apply keeps_foldl | apply keeps_foldl_fst
    | intro _ | split

theorem State.loadEpochs_keeps (p r : Nat) (h : Keeps a s) :
    Keeps a (State.loadEpochs s p r) := by
  unfold State.loadEpochs
  try dsimp only
  repeat' first
    | with_reducible first | assumption | apply State.modTableSt_keeps | apply State.writeEpochs_keeps
                            | apply keeps_foldl | apply keeps_foldl_fst
    | intro _ | split

theorem State.loadScales_keeps (p r : Nat) (h : Keeps a s) :
    Keeps a (State.loadScales s p r) := by
  unfold State.loadScales
  try dsimp only
  repeat' first
    | with_reducible first | assumption | apply State.modPart_keeps
    | intro _ | split

theorem State.setWatches_keeps (p r : Nat) (ws : List WatchRec) (h : Keeps a s) :
    Keeps a (State.setWatches s p r ws) := by
  unfold State.setWatches
  try dsimp only
  repeat' first
    | with_reducible first | assumption | apply keeps_ite | apply State.modPart_keeps
    | intro _ | split

theorem State.loadWatches_keeps (p r : Nat) (h : Keeps a s) :
    Keeps a (State.loadWatches s p r) := by
  unfold State.loadWatches
  try dsimp only
  repeat' first
    | with_reducible first | assumption | apply State.setWatches_keeps
    | intro _

theorem State.writeCounts_keeps (p r : Nat) (h : Keeps a s) :
    Keeps a (State.writeCounts s p r) := by
  unfold State.writeCounts
  try dsimp only
  repeat' first
    | with_reducible first | assumption | apply State.wr_keeps
    | intro _ | split

theorem State.writePages_keeps (p r : Nat) (h : Keeps a s) :
    Keeps a (State.writePages s p r) := by
  unfold State.writePages
  try dsimp only
  repeat' first
    | with_reducible first | assumption | apply State.wr_keeps | apply keeps_foldl | apply keeps_foldl_fst
    | intro _ | split

theorem State.writeWatches_keeps (p r : Nat) (h : Keeps a s) :
    Keeps a (State.writeWatches s p r) := by
  unfold State.writeWatches
  try dsimp only
  repeat' first
    | with_reducible first | assumption | apply keeps_ite | apply State.wr_keeps
    | intro _ | split

theorem State.writeScales_keeps (p r : Nat) (h : Keeps a s) :
    Keeps a (State.writeScales s p r) := by
  unfold State.writeScales
  try dsimp only
  repeat' first
    | with_reducible first | assumption | apply State.wr_keeps | apply keeps_foldl | apply keeps_foldl_fst
    | intro _ | split

theorem State.writeManifest_keeps (p r n : Nat) (root : Word) (h : Keeps a s) :
    Keeps a (State.writeManifest s p r n root) := by
  unfold State.writeManifest
  try dsimp only
  repeat' first
    | with_reducible first | assumption | apply State.writePages_keeps | apply State.writeWatches_keeps
                            | apply State.writeEpochs_keeps | apply State.writeCounts_keeps
                            | apply State.writeScales_keeps | apply State.wr_keeps
    | intro _ | split

theorem State.mendSector_keeps (p : Nat) (pl : Plan) (x : Poison) (h : Keeps a s) :
    Keeps a (State.mendSector s p pl x) := by
  unfold State.mendSector
  try dsimp only
  repeat' first
    | with_reducible first | assumption | apply keeps_ite | apply State.emit_keeps | apply State.wr_keeps
                            | apply State.modUnit_keeps
    | intro _ | split

theorem State.mendSectors_keeps (p : Nat) (h : Keeps a s) :
    Keeps a (State.mendSectors s p) := by
  unfold State.mendSectors
  try dsimp only
  repeat' first
    | with_reducible first | assumption | apply keeps_ite | apply State.mendSector_keeps | apply keeps_foldl
                            | apply keeps_foldl_fst
    | intro _ | split

theorem State.spoil_keeps (x1 : Nat) (err : List Byte) (h : Keeps a s) :
    Keeps a (State.spoil s x1 err) := by
  unfold State.spoil
  try dsimp only
  repeat' first
    | with_reducible first | assumption | apply keeps_ite | apply State.wr_keeps
    | intro _ | split

theorem State.sectorError_keeps (p : Nat) (e : SectorErr) (h : Keeps a s) :
    Keeps a (State.sectorError s p e) := by
  unfold State.sectorError
  try dsimp only
  repeat' first
    | with_reducible first | assumption | apply keeps_ite | apply State.bumpU_keeps | apply State.spoil_keeps
                            | apply State.putU_keeps | apply State.modUnit_keeps | apply keeps_foldl
                            | apply keeps_foldl_fst
    | intro _ | split

theorem State.sectorErrors_keeps (p task : Nat) (fault : Bool) (es : List SectorErr) (h : Keeps a s) :
    Keeps a (State.sectorErrors s p task fault es) := by
  unfold State.sectorErrors
  try dsimp only
  repeat' first
    | with_reducible first | assumption | apply keeps_ite | apply State.sectorError_keeps | apply State.putU_keeps
                            | apply State.moduleFault_keeps | apply State.unitFails_keeps | apply keeps_foldl
                            | apply keeps_foldl_fst
    | intro _ | split

theorem State.completeBags_keeps (p t r tag : Nat) (h : Keeps a s) :
    Keeps a (State.completeBags s p t r tag) := by
  unfold State.completeBags
  try dsimp only
  repeat' first
    | with_reducible first | assumption | apply keeps_ite | apply State.modTableSt_keeps | apply State.modPart_keeps
                            | apply State.wr_keeps | apply keeps_foldl | apply keeps_foldl_fst
    | intro _ | split

theorem State.emptyBags_keeps (p t r mb : Nat) (h : Keeps a s) :
    Keeps a (State.emptyBags s p t r mb) := by
  unfold State.emptyBags
  try dsimp only
  repeat' first
    | with_reducible first | assumption | apply keeps_ite | apply State.completeBags_keeps
    | intro _ | split

theorem State.formEntries_keeps (p t r rank tag : Nat) (h : Keeps a s) :
    Keeps a (State.formEntries s p t r rank tag) := by
  unfold State.formEntries
  try dsimp only
  repeat' first
    | with_reducible first | assumption | apply keeps_ite | apply State.modTableSt_keeps
    | intro _ | split

theorem State.sendFrame_keeps (e : Nat) (f : Frame) (h : Keeps a s) :
    Keeps a (State.sendFrame s e f) := by
  unfold State.sendFrame
  try dsimp only
  repeat' first
    | with_reducible first | assumption | apply keeps_ite | apply State.moduleFault_keeps | apply State.setOch_keeps
    | intro _ | split

theorem State.issueUpdate_keeps (p t : Nat) (d : TableDesc) (r task e : Nat) (h : Keeps a s) :
    Keeps a (State.issueUpdate s p t d r task e) := by
  unfold State.issueUpdate
  try dsimp only
  repeat' first
    | with_reducible first | assumption | apply keeps_ite | apply State.wr_keeps | apply State.sendFrame_keeps
    | intro _ | split

theorem State.markStarted_keeps (p : Nat) (ts : List Nat) (h : Keeps a s) :
    Keeps a (State.markStarted s p ts) := by
  unfold State.markStarted
  try dsimp only
  repeat' first
    | with_reducible first | assumption | apply State.modPart_keeps
    | intro _

theorem State.setFromRank_keeps (p t r : Nat) (x : FromRank) (h : Keeps a s) :
    Keeps a (State.setFromRank s p t r x) := by
  unfold State.setFromRank
  try dsimp only
  repeat' first
    | with_reducible first | assumption | apply State.modTableSt_keeps
    | intro _

theorem State.ownerGather_keeps (p t r rank mb : Nat) (h : Keeps a s) :
    Keeps a (State.ownerGather s p t r rank mb) := by
  unfold State.ownerGather
  try dsimp only
  repeat' first
    | with_reducible first | assumption | apply keeps_ite | apply State.countLoad_keeps
                            | apply State.setFromRank_keeps | apply State.modTableSt_keeps | apply keeps_foldl
                            | apply keeps_foldl_fst
    | intro _ | split

theorem State.reduceTable_keeps (p t r : Nat) (h : Keeps a s) :
    Keeps a (State.reduceTable s p t r) := by
  unfold State.reduceTable
  try dsimp only
  repeat' first
    | with_reducible first | assumption | apply State.modTableSt_keeps | apply State.modPart_keeps
                            | apply keeps_foldl | apply keeps_foldl_fst
    | intro _

theorem State.restage_keeps (p t r : Nat) (h : Keeps a s) :
    Keeps a (State.restage s p t r) := by
  unfold State.restage
  try dsimp only
  repeat' first
    | with_reducible first | assumption | apply keeps_ite | apply State.sendFrame_keeps
                            | apply State.modTableSt_keeps | apply keeps_foldl | apply keeps_foldl_fst
    | intro _ | split

theorem State.sortList_keeps (p t r mb : Nat) (h : Keeps a s) :
    Keeps a (State.sortList s p t r mb) := by
  unfold State.sortList
  try dsimp only
  repeat' first
    | with_reducible first | assumption | apply State.modTableSt_keeps | apply State.wr_keeps
    | intro _ | split

theorem State.stageTable_keeps (p t r : Nat) (h : Keeps a s) :
    Keeps a (State.stageTable s p t r) := by
  unfold State.stageTable
  try dsimp only
  repeat' first
    | with_reducible first | assumption | apply keeps_ite | apply State.wr_keeps | apply State.modTableSt_keeps
                            | apply keeps_foldl | apply keeps_foldl_fst
    | intro _ | split

theorem State.takeEntries_keeps (p t r rank tag : Nat) (es : List BagEntry) (h : Keeps a s) :
    Keeps a (State.takeEntries s p t r rank tag es) := by
  unfold State.takeEntries
  try dsimp only
  repeat' first
    | with_reducible first | assumption | apply State.setFromRank_keeps
    | intro _

theorem State.takeGrads_keeps (p t r rank tag : Nat) (gs : List GradRec) (h : Keeps a s) :
    Keeps a (State.takeGrads s p t r rank tag gs) := by
  unfold State.takeGrads
  try dsimp only
  repeat' first
    | with_reducible first | assumption | apply State.formEntries_keeps | apply State.setFromRank_keeps
    | intro _

theorem State.takeKeys_keeps (p t r rank tag : Nat) (ks : List Nat) (h : Keeps a s) :
    Keeps a (State.takeKeys s p t r rank tag ks) := by
  unfold State.takeKeys
  try dsimp only
  repeat' first
    | with_reducible first | assumption | apply State.setFromRank_keeps
    | intro _

theorem State.takePartials_keeps (p t r tag : Nat) (rs : List PartialRec) (h : Keeps a s) :
    Keeps a (State.takePartials s p t r tag rs) := by
  unfold State.takePartials
  try dsimp only
  repeat' first
    | with_reducible first | assumption | apply State.completeBags_keeps | apply State.modTableSt_keeps
    | intro _

theorem State.takeWinners_keeps (p t r rank tag : Nat) (ws : List WinRec) (h : Keeps a s) :
    Keeps a (State.takeWinners s p t r rank tag ws) := by
  unfold State.takeWinners
  try dsimp only
  repeat' first
    | with_reducible first | assumption | apply State.formEntries_keeps | apply State.setFromRank_keeps
    | intro _

theorem State.updateTable_keeps (p t task : Nat) (h : Keeps a s) :
    Keeps a (State.updateTable s p t task) := by
  unfold State.updateTable
  try dsimp only
  repeat' first
    | with_reducible first | assumption | apply keeps_ite | apply State.taskDone_keeps
                            | apply State.markStarted_keeps | apply State.issueUpdate_keeps | apply keeps_foldl
                            | apply keeps_foldl_fst
    | intro _ | split

theorem execGatherAndPool_keeps (p table mb rank : Nat) (errs : List SectorErr) (h : Keeps a s) :
    ∀ t, (execGatherAndPool p table mb rank errs s) = .next t → Keeps a t := by
  intro t e
  unfold execGatherAndPool at e
  simp only [Host.Outcome.next.injEq] at e
  subst e
  try dsimp only
  repeat' first
    | with_reducible first | assumption | apply keeps_ite | apply State.emptyBags_keeps
                            | apply State.ownerGather_keeps | apply State.markStarted_keeps
                            | apply State.taskDone_keeps | apply State.sectorErrors_keeps | apply keeps_foldl
                            | apply keeps_foldl_fst
    | intro _ | split

theorem execIndexSort_keeps (p table mb : Nat) (h : Keeps a s) :
    ∀ t, (execIndexSort p table mb s) = .next t → Keeps a t := by
  intro t e
  unfold execIndexSort at e
  simp only [Host.Outcome.next.injEq] at e
  subst e
  try dsimp only
  repeat' first
    | with_reducible first | assumption | apply State.markStarted_keeps | apply State.sortList_keeps
                            | apply keeps_foldl | apply keeps_foldl_fst
    | intro _

theorem execIndexUnitComplete_keeps (p unit : Nat) (h : Keeps a s) :
    ∀ t, (execIndexUnitComplete p unit s) = .next t → Keeps a t := by
  intro t e
  unfold execIndexUnitComplete at e
  simp only [Host.Outcome.next.injEq] at e
  subst e
  try dsimp only
  repeat' first
    | with_reducible first | assumption | apply State.taskDone_keeps
    | intro _ | split

theorem execPrefetch_keeps (p table : Nat) (h : Keeps a s) :
    ∀ t, (execPrefetch p table s) = .next t → Keeps a t := by
  intro t e
  unfold execPrefetch at e
  simp only [Host.Outcome.next.injEq] at e
  subst e
  try dsimp only
  repeat' first
    | with_reducible first | assumption | apply State.taskDone_keeps | apply State.stageTable_keeps
                            | apply keeps_foldl | apply keeps_foldl_fst
    | intro _

theorem execSegmentReduction_keeps (p table : Nat) (h : Keeps a s) :
    ∀ t, (execSegmentReduction p table s) = .next t → Keeps a t := by
  intro t e
  unfold execSegmentReduction at e
  simp only [Host.Outcome.next.injEq] at e
  subst e
  try dsimp only
  repeat' first
    | with_reducible first | assumption | apply State.markStarted_keeps | apply State.reduceTable_keeps
                            | apply keeps_foldl | apply keeps_foldl_fst
    | intro _

theorem execSparseUpdate_keeps (p table : Nat) (h : Keeps a s) :
    ∀ t, (execSparseUpdate p table s) = .next t → Keeps a t := by
  intro t e
  unfold execSparseUpdate at e
  simp only [Host.Outcome.next.injEq] at e
  subst e
  try dsimp only
  repeat' first
    | with_reducible first | assumption | apply keeps_ite | apply State.updateTable_keeps | apply keeps_foldl
                            | apply keeps_foldl_fst
    | intro _ | split

theorem State.ackDelta_keeps (p r n : Nat) (h : Keeps a s) :
    Keeps a (State.ackDelta s p r n) := by
  unfold State.ackDelta
  try dsimp only
  repeat' first
    | with_reducible first | assumption | apply keeps_ite | apply State.emit_keeps
    | intro _ | split

theorem State.announce_keeps (x1 : MsgHdr) (n : Nat) (h : Keeps a s) :
    Keeps a (State.announce s x1 n) := by
  unfold State.announce
  try dsimp only
  repeat' first
    | with_reducible first | assumption | apply keeps_ite | apply State.modTile_keeps
    | intro _ | split

theorem State.arrived_keeps (c : TClass) (src len : Nat) (h : Keeps a s) :
    Keeps a (State.arrived s c src len) := by
  unfold State.arrived
  try dsimp only
  repeat' first
    | with_reducible first | assumption | apply keeps_ite | apply State.freeFlits_keeps
    | intro _ | split

theorem State.receive_keeps (c : TClass) (x2 : MsgHdr) (kind : Nat) (o : Out) (len : Nat) (act : State → State) (h : Keeps a s) (hact : ∀ s, Keeps a s → Keeps a (act s)) :
    Keeps a (State.receive s c x2 kind o len act) := by
  unfold State.receive
  try dsimp only
  repeat' first
    | with_reducible first | assumption | apply hact | apply keeps_ite | apply State.arrived_keeps
                            | apply State.sendMsg_keeps | apply State.bump_keeps
    | intro _ | split

theorem State.rowDelivered_keeps (x1 : MsgHdr) (r : RowHdr) (act : State → State) (h : Keeps a s) (hact : ∀ s, Keeps a s → Keeps a (act s)) :
    Keeps a (State.rowDelivered s x1 r act) := by
  unfold State.rowDelivered
  try dsimp only
  repeat' first
    | with_reducible first | assumption | apply hact | apply keeps_ite | apply State.bump_keeps
                            | apply State.deliver_keeps
    | intro _ | split

theorem State.setLog_keeps (p : Nat) (l : DeltaLog) (h : Keeps a s) :
    Keeps a (State.setLog s p l) := by
  unfold State.setLog
  try dsimp only
  repeat' first
    | with_reducible first | assumption | apply State.modPart_keeps
    | intro _

theorem State.takeDelta_keeps (c : TClass) (x2 : MsgHdr) (payload : List Byte) (h : Keeps a s) :
    Keeps a (State.takeDelta s c x2 payload) := by
  unfold State.takeDelta
  try dsimp only
  repeat' first
    | with_reducible first | assumption | apply keeps_ite | apply State.ackDelta_keeps | apply State.setLog_keeps
    | intro _ | split

theorem State.writeDelivered_keeps (c : TClass) (x2 : MsgHdr) (payload : List Byte) (h : Keeps a s) :
    Keeps a (State.writeDelivered s c x2 payload) := by
  unfold State.writeDelivered
  try dsimp only
  repeat' first
    | with_reducible first | assumption | apply keeps_ite | apply State.moduleFault_keeps | apply State.bump_keeps
                            | apply State.noteLines_keeps | apply State.wrDev_keeps | apply State.deliver_keeps
                            | apply State.announce_keeps | apply State.takeDelta_keeps
    | intro _ | split

theorem State.sendRecords_keeps (p r : Nat) (l : List (Nat × List Byte)) (h : Keeps a s) :
    Keeps a (State.sendRecords s p r l) := by
  unfold State.sendRecords
  try dsimp only
  repeat' first
    | with_reducible first | assumption | apply keeps_ite | apply State.modPart_keeps
                            | apply State.writeDelivered_keeps | apply State.sendMsg_keeps | apply keeps_foldl
                            | apply keeps_foldl_fst
    | intro _ | split

theorem State.sendCarried_keeps (p : Nat) (h : Keeps a s) :
    Keeps a (State.sendCarried s p) := by
  unfold State.sendCarried
  try dsimp only
  repeat' first
    | with_reducible first | assumption | apply keeps_ite | apply State.sendRecords_keeps | apply State.modPart_keeps
                            | apply keeps_foldl | apply keeps_foldl_fst
    | intro _ | split

theorem State.testCheck_keeps (payload : List Byte) (h : Keeps a s) :
    Keeps a (State.testCheck s payload) := by
  unfold State.testCheck
  try dsimp only
  repeat' first
    | with_reducible first | assumption | apply keeps_ite | apply State.bump_keeps
    | intro _ | split

theorem execCollectiveMessage_keeps (c : TClass) (x1 : MsgHdr) (k : CollHdr) (data : List Byte) (h : Keeps a s) :
    ∀ t, (execCollectiveMessage c x1 k data s) = .next t → Keeps a t := by
  intro t e
  unfold execCollectiveMessage at e
  simp only [Host.Outcome.next.injEq] at e
  subst e
  try dsimp only
  repeat' first
    | with_reducible first | assumption | apply State.receive_keeps | apply State.deliver_keeps
                            | apply State.collDeliver_keeps
    | intro _

theorem execRowBagEntries_keeps (c : TClass) (x1 : MsgHdr) (r : RowHdr) (entries : List BagEntry) (h : Keeps a s) :
    ∀ t, (execRowBagEntries c x1 r entries s) = .next t → Keeps a t := by
  intro t e
  unfold execRowBagEntries at e
  simp only [Host.Outcome.next.injEq] at e
  subst e
  try dsimp only
  repeat' first
    | with_reducible first | assumption | apply State.receive_keeps | apply State.rowDelivered_keeps
                            | apply State.takeEntries_keeps
    | intro _

theorem execRowGradients_keeps (c : TClass) (x1 : MsgHdr) (r : RowHdr) (recs : List GradRec) (h : Keeps a s) :
    ∀ t, (execRowGradients c x1 r recs s) = .next t → Keeps a t := by
  intro t e
  unfold execRowGradients at e
  simp only [Host.Outcome.next.injEq] at e
  subst e
  try dsimp only
  repeat' first
    | with_reducible first | assumption | apply State.receive_keeps | apply State.rowDelivered_keeps
                            | apply State.takeGrads_keeps | apply keeps_foldl | apply keeps_foldl_fst
    | intro _

theorem execRowShardPartials_keeps (c : TClass) (x1 : MsgHdr) (r : RowHdr) (recs : List PartialRec) (h : Keeps a s) :
    ∀ t, (execRowShardPartials c x1 r recs s) = .next t → Keeps a t := by
  intro t e
  unfold execRowShardPartials at e
  simp only [Host.Outcome.next.injEq] at e
  subst e
  try dsimp only
  repeat' first
    | with_reducible first | assumption | apply State.receive_keeps | apply State.sendCarried_keeps
                            | apply State.rowDelivered_keeps | apply State.takePartials_keeps | apply keeps_foldl
                            | apply keeps_foldl_fst
    | intro _

theorem execRowUniqueKeys_keeps (c : TClass) (x1 : MsgHdr) (r : RowHdr) (keys : List Nat) (h : Keeps a s) :
    ∀ t, (execRowUniqueKeys c x1 r keys s) = .next t → Keeps a t := by
  intro t e
  unfold execRowUniqueKeys at e
  simp only [Host.Outcome.next.injEq] at e
  subst e
  try dsimp only
  repeat' first
    | with_reducible first | assumption | apply State.receive_keeps | apply State.rowDelivered_keeps
                            | apply State.takeKeys_keeps
    | intro _

theorem execRowWinnerVectors_keeps (c : TClass) (x1 : MsgHdr) (r : RowHdr) (recs : List WinRec) (h : Keeps a s) :
    ∀ t, (execRowWinnerVectors c x1 r recs s) = .next t → Keeps a t := by
  intro t e
  unfold execRowWinnerVectors at e
  simp only [Host.Outcome.next.injEq] at e
  subst e
  try dsimp only
  repeat' first
    | with_reducible first | assumption | apply State.receive_keeps | apply State.rowDelivered_keeps
                            | apply State.takeWinners_keeps | apply keeps_foldl | apply keeps_foldl_fst
    | intro _

theorem execTestMessage_keeps (c : TClass) (x1 : MsgHdr) (payload : List Byte) (h : Keeps a s) :
    ∀ t, (execTestMessage c x1 payload s) = .next t → Keeps a t := by
  intro t e
  unfold execTestMessage at e
  simp only [Host.Outcome.next.injEq] at e
  subst e
  try dsimp only
  repeat' first
    | with_reducible first | assumption | apply State.receive_keeps | apply State.testCheck_keeps
    | intro _

theorem execWriteMessage_keeps (c : TClass) (x1 : MsgHdr) (payload : List Byte) (h : Keeps a s) :
    ∀ t, (execWriteMessage c x1 payload s) = .next t → Keeps a t := by
  intro t e
  unfold execWriteMessage at e
  simp only [Host.Outcome.next.injEq] at e
  subst e
  try dsimp only
  repeat' first
    | with_reducible first | assumption | apply State.receive_keeps | apply State.writeDelivered_keeps
    | intro _

theorem State.deriveShard_keeps (p t r : Nat) (h : Keeps a s) :
    Keeps a (State.deriveShard s p t r) := by
  unfold State.deriveShard
  try dsimp only
  repeat' first
    | with_reducible first | assumption | apply State.wr_keeps | apply keeps_foldl | apply keeps_foldl_fst
    | intro _ | split

theorem State.deriveOwed_keeps (p : Nat) (h : Keeps a s) :
    Keeps a (State.deriveOwed s p) := by
  unfold State.deriveOwed
  try dsimp only
  repeat' first
    | with_reducible first | assumption | apply State.startGather_keeps | apply State.deriveShard_keeps
                            | apply keeps_foldl | apply keeps_foldl_fst
    | intro _

theorem State.oweCopies_keeps (p : Nat) (h : Keeps a s) :
    Keeps a (State.oweCopies s p) := by
  unfold State.oweCopies
  try dsimp only
  repeat' first
    | with_reducible first | assumption | apply State.modPart_keeps
    | intro _ | split

theorem State.begin_keeps (p : Nat) (h : Keeps a s) :
    Keeps a (State.begin s p) := by
  unfold State.begin
  try dsimp only
  repeat' first
    | with_reducible first | assumption | apply State.modPart_keeps | apply State.putF_keeps
    | intro _

theorem State.loadEnds_keeps (p code detail : Nat) (h : Keeps a s) :
    Keeps a (State.loadEnds s p code detail) := by
  unfold State.loadEnds
  try dsimp only
  repeat' first
    | with_reducible first | assumption | apply State.putF_keeps | apply State.modPart_keeps
    | intro _

theorem State.showDigest_keeps (p : Nat) (d : BitVec 512) (h : Keeps a s) :
    Keeps a (State.showDigest s p d) := by
  unfold State.showDigest
  try dsimp only
  repeat' first
    | with_reducible first | assumption | apply State.setWord_keeps | apply keeps_foldl | apply keeps_foldl_fst
    | intro _

theorem State.beginLoad_keeps (p : Nat) (h : Keeps a s) :
    Keeps a (State.beginLoad s p) := by
  unfold State.beginLoad
  try dsimp only
  repeat' first
    | with_reducible first | assumption | apply keeps_ite | apply State.loadEnds_keeps | apply State.showDigest_keeps
                            | apply State.putF_keeps | apply State.modPart_keeps | apply State.emit_keeps
    | intro _ | split

theorem State.clearBuffer_keeps (p r : Nat) (c : CollDesc) (h : Keeps a s) :
    Keeps a (State.clearBuffer s p r c) := by
  unfold State.clearBuffer
  try dsimp only
  repeat' first
    | with_reducible first | assumption | apply keeps_ite | apply State.wipe_keeps
    | intro _ | split

theorem State.clearBuffers_keeps (p : Nat) (h : Keeps a s) :
    Keeps a (State.clearBuffers s p) := by
  unfold State.clearBuffers
  try dsimp only
  repeat' first
    | with_reducible first | assumption | apply keeps_ite | apply State.clearBuffer_keeps | apply State.wipe_keeps
                            | apply keeps_foldl | apply keeps_foldl_fst
    | intro _ | split

theorem State.loadBases_keeps (p : Nat) (h : Keeps a s) :
    Keeps a (State.loadBases s p) := by
  unfold State.loadBases
  try dsimp only
  repeat' first
    | with_reducible first | assumption | apply keeps_ite | apply State.putF_keeps
    | intro _ | split

theorem State.loadResets_keeps (p : Nat) (h : Keeps a s) :
    Keeps a (State.loadResets s p) := by
  unfold State.loadResets
  try dsimp only
  repeat' first
    | with_reducible first | assumption | apply State.resetRegs_keeps | apply State.putF_keeps
                            | apply State.clearRegs_keeps
    | intro _

theorem State.placeKernel_keeps (p : Nat) (pl : Plan) (k : Nat) (h : Keeps a s) :
    Keeps a (State.placeKernel s p pl k) := by
  unfold State.placeKernel
  try dsimp only
  repeat' first
    | with_reducible first | assumption | apply State.wr_keeps | apply keeps_foldl | apply keeps_foldl_fst
    | intro _ | split

theorem State.install_keeps (p : Nat) (pl : Plan) (sched : List Placed) (h : Keeps a s) :
    Keeps a (State.install s p pl sched) := by
  unfold State.install
  try dsimp only
  repeat' first
    | with_reducible first | assumption | apply keeps_ite | apply State.setPart_keeps | apply State.modOch_keeps
                            | apply State.loadBases_keeps | apply State.loadResets_keeps | apply State.modTile_keeps
                            | apply State.placeKernel_keeps | apply State.wr_keeps | apply State.wipe_keeps
                            | apply State.modTableSt_keeps | apply State.initState_keeps
                            | apply State.freshScales_keeps | apply State.writeManifest_keeps | apply keeps_foldl
                            | apply keeps_foldl_fst
    | intro _ | split | (fail_if_no_progress (with_reducible apply keeps_plain))

theorem State.endLoad_keeps (p : Nat) (digests : List (BitVec 512)) (h : Keeps a s) :
    Keeps a (State.endLoad s p digests) := by
  unfold State.endLoad
  try dsimp only
  repeat' first
    | with_reducible first | assumption | apply keeps_ite | apply State.loadEnds_keeps | apply State.install_keeps
    | intro _ | split

theorem State.tileOrigin_keeps (g : Nat) (h : Keeps a s) :
    Keeps a (State.tileOrigin s g) := by
  unfold State.tileOrigin
  try dsimp only
  repeat' first
    | with_reducible first | assumption | apply State.modTile_keeps
    | intro _

theorem State.placeAsh_keeps (p : Nat) (h : Keeps a s) :
    Keeps a (State.placeAsh s p) := by
  unfold State.placeAsh
  try dsimp only
  repeat' first
    | with_reducible first | assumption | apply keeps_ite | apply State.modPart_keeps
    | intro _ | split

theorem State.selectScales_keeps (p : Nat) (h : Keeps a s) :
    Keeps a (State.selectScales s p) := by
  unfold State.selectScales
  try dsimp only
  repeat' first
    | with_reducible first | assumption | apply keeps_ite | apply State.modPart_keeps | apply State.putF_keeps
                            | apply State.writeScales_keeps | apply State.wr_keeps | apply keeps_foldl
                            | apply keeps_foldl_fst
    | intro _ | split

theorem State.readWatchList_keeps (p : Nat) (h : Keeps a s) :
    Keeps a (State.readWatchList s p) := by
  unfold State.readWatchList
  try dsimp only
  repeat' first
    | with_reducible first | assumption | apply keeps_ite | apply State.writeWatches_keeps
                            | apply State.setWatches_keeps | apply keeps_foldl | apply keeps_foldl_fst
    | intro _ | split

theorem State.originOf_keeps (p : Nat) (h : Keeps a s) :
    Keeps a (State.originOf s p) := by
  unfold State.originOf
  try dsimp only
  repeat' first
    | with_reducible first | assumption | apply keeps_ite | apply State.tileOrigin_keeps | apply State.modPart_keeps
                            | apply State.putF_keeps | apply State.placeAsh_keeps | apply State.selectScales_keeps
                            | apply State.clearBuffers_keeps | apply State.readWatchList_keeps
                            | apply State.emit_keeps | apply State.deriveOwed_keeps | apply keeps_foldl
                            | apply keeps_foldl_fst
    | intro _ | split

theorem State.refuseRun_keeps (p code : Nat) (h : Keeps a s) :
    Keeps a (State.refuseRun s p code) := by
  unfold State.refuseRun
  try dsimp only
  repeat' first
    | with_reducible first | assumption | apply State.putF_keeps
    | intro _

theorem State.setAsh_keeps (c : Nat) (l : List Nat) (h : Keeps a s) :
    Keeps a (State.setAsh s c l) := by
  unfold State.setAsh
  try dsimp only
  repeat' first
    | with_reducible first | assumption
    | (fail_if_no_progress (with_reducible apply keeps_plain))

theorem State.takeResume_keeps (p : Nat) (h : Keeps a s) :
    Keeps a (State.takeResume s p) := by
  unfold State.takeResume
  try dsimp only
  repeat' first
    | with_reducible first | assumption | apply keeps_ite | apply State.putF_keeps | apply State.loadCounts_keeps
                            | apply State.initState_keeps | apply State.loadScales_keeps
                            | apply State.freshScales_keeps | apply State.loadWatches_keeps
                            | apply State.modPart_keeps | apply State.loadEpochs_keeps | apply State.modTableSt_keeps
                            | apply State.oweCopies_keeps | apply keeps_foldl | apply keeps_foldl_fst
    | intro _ | split

theorem State.tryRun_keeps (p : Nat) (h : Keeps a s) :
    Keeps a (State.tryRun s p) := by
  unfold State.tryRun
  try dsimp only
  repeat' first
    | with_reducible first | assumption | apply keeps_ite | apply State.refuseRun_keeps
                            | apply State.arriveWork_keeps | apply State.modPart_keeps | apply State.setRun_keeps
                            | apply State.takeResume_keeps
    | intro _ | split

theorem execPlanLoadDone_keeps (p : Nat) (digests : List (BitVec 512)) (h : Keeps a s) :
    ∀ t, (execPlanLoadDone p digests s) = .next t → Keeps a t := by
  intro t e
  unfold execPlanLoadDone at e
  simp only [Host.Outcome.next.injEq] at e
  subst e
  try dsimp only
  repeat' first
    | with_reducible first | assumption | apply keeps_ite | apply State.endLoad_keeps
    | intro _ | split

theorem execPlanLoadGo_keeps (f : Func) (p : Nat) (h : Keeps a s) :
    ∀ t, (execPlanLoadGo f p s) = .next t → Keeps a t := by
  intro t e
  unfold execPlanLoadGo at e
  simp only [Host.Outcome.next.injEq] at e
  subst e
  try dsimp only
  repeat' first
    | with_reducible first | assumption | apply keeps_ite | apply State.gated_keeps | apply State.beginLoad_keeps
                            | apply State.arriveWork_keeps
    | intro _ | split

theorem execPlanStart_keeps (p : Nat) (h : Keeps a s) :
    ∀ t, (execPlanStart p s) = .next t → Keeps a t := by
  intro t e
  unfold execPlanStart at e
  simp only [Host.Outcome.next.injEq] at e
  subst e
  try dsimp only
  repeat' first
    | with_reducible first | assumption | apply keeps_ite | apply State.begin_keeps
    | intro _ | split

theorem execRunClear_keeps (f : Func) (p : Nat) (v : Word) (h : Keeps a s) :
    ∀ t, (execRunClear f p v s) = .next t → Keeps a t := by
  intro t e
  unfold execRunClear at e
  simp only [Host.Outcome.next.injEq] at e
  subst e
  try dsimp only
  repeat' first
    | with_reducible first | assumption | apply keeps_ite | apply State.gated_keeps | apply State.writeOthers_keeps
                            | apply State.modPart_keeps | apply State.setRun_keeps
    | intro _ | split

theorem execRunSet_keeps (f : Func) (p : Nat) (v : Word) (h : Keeps a s) :
    ∀ t, (execRunSet f p v s) = .next t → Keeps a t := by
  intro t e
  unfold execRunSet at e
  simp only [Host.Outcome.next.injEq] at e
  subst e
  try dsimp only
  repeat' first
    | with_reducible first | assumption | apply keeps_ite | apply State.gated_keeps | apply State.writeOthers_keeps
                            | apply State.tryRun_keeps
    | intro _ | split

theorem execStepOrigin_keeps (p : Nat) (h : Keeps a s) :
    ∀ t, (execStepOrigin p s) = .next t → Keeps a t := by
  intro t e
  unfold execStepOrigin at e
  simp only [Host.Outcome.next.injEq] at e
  subst e
  try dsimp only
  repeat' first
    | with_reducible first | assumption | apply keeps_ite | apply State.originOf_keeps
    | intro _ | split

end Sys2Proof.Machine
end

