-- ==== Sys2Proof/Laws/KeepsJob.lean ====
section
/-! SUPPORT. What the functions and meanings of
the host port, holds, tasks, placement, hosting, Ochre and commit keep:
for each, the law that `Keeps` holds of the state it makes if it holds of the state it is given. -/

set_option linter.unusedTactic false
set_option linter.unreachableTactic false
set_option linter.unusedVariables false

namespace Sys2Proof.Machine

variable {a s : State}

theorem keeps_foldl_st {α : Type} {f : State.Progress → α → State.Progress} {l : List α} {g : State.Progress}
    (hs : Keeps a g.st) (hf : ∀ g x, Keeps a g.st → Keeps a (f g x).st) : Keeps a (l.foldl f g).st := by
  induction l generalizing g with
  | nil => exact hs
  | cons x l ih => exact ih (hf _ x hs)

theorem State.barOnes_keeps (off : Nat) (wr : Option (List Byte)) (len : Nat) (h : Keeps a s) :
    Keeps a (State.barOnes s off wr len) := by
  unfold State.barOnes
  try dsimp only
  repeat' first
    | with_reducible first | assumption | apply State.emit_keeps
    | intro _ | split

theorem State.barAccess_keeps (w off x3 : Nat) (wr : Option (List Byte)) (n : Nat) (h : Keeps a s) :
    Keeps a (State.barAccess s w off x3 wr n) := by
  unfold State.barAccess
  try dsimp only
  repeat' first
    | with_reducible first | assumption | apply State.barOnes_keeps | apply State.freezeLog_keeps
                            | apply State.putF_keeps | apply State.arriveWork_keeps | apply State.wrDev_keeps
                            | apply State.emit_keeps
    | intro _ | split

theorem State.bootWindow_keeps (f : Func) (off n : Nat) (wr : Option (List Byte)) (h : Keeps a s) :
    Keeps a (State.bootWindow s f off n wr) := by
  unfold State.bootWindow
  split
  · exact State.barOnes_keeps _ _ _ h
  · split
    · refine keeps_maps h _ _ _ _ _ _ _ _ _ _ _ _ _ id id (fun hm => ?_) id id id id id id id id id
      rename_i b
      generalize b.zipIdx = l
      generalize s.sram = m at hm ⊢
      induction l generalizing m with
      | nil => exact hm
      | cons x l ih => exact ih _ (mwf_mput _ _ hm)
    · exact State.emit_keeps _ h

theorem State.moverIdle_keeps (x1 : Nat) (h : Keeps a s) :
    Keeps a (State.moverIdle s x1) := by
  unfold State.moverIdle
  try dsimp only
  repeat' first
    | with_reducible first | assumption | apply keeps_ite | apply State.putF_keeps | apply State.modMover_keeps
    | intro _ | split

theorem State.chainsLess_keeps (q n : Nat) (h : Keeps a s) :
    Keeps a (State.chainsLess s q n) := by
  unfold State.chainsLess
  try dsimp only
  repeat' first
    | with_reducible first | assumption | apply State.putF_keeps
    | intro _

theorem State.putLast_keeps (q st : Nat) (h : Keeps a s) :
    Keeps a (State.putLast s q st) := by
  unfold State.putLast
  try dsimp only
  repeat' first
    | with_reducible first | assumption | apply State.putF_keeps
    | intro _

theorem State.writeBack_keeps (p : Nat) (x2 : Word) (st residue : Nat) (h : Keeps a s) :
    Keeps a (State.writeBack s p x2 st residue) := by
  unfold State.writeBack
  try dsimp only
  repeat' first
    | with_reducible first | assumption | apply keeps_ite | apply State.hwr_keeps | apply State.wr_keeps
    | intro _ | split

theorem State.chainStops_keeps (x1 : Nat) (k : Chain) (st residue : Nat) (bad : Option (Bool × Nat)) (h : Keeps a s) :
    Keeps a (State.chainStops s x1 k st residue bad) := by
  unfold State.chainStops
  try dsimp only
  repeat' first
    | with_reducible first | assumption | apply keeps_ite | apply State.freezeLog_keeps | apply State.modMover_keeps
                            | apply State.moverIdle_keeps | apply State.signalQ_keeps | apply State.chainsLess_keeps
                            | apply State.putLast_keeps | apply State.writeBack_keeps | apply State.moduleFault_keeps
    | intro _ | split

theorem State.moveBytes_keeps (p master : Nat) (d : MDesc) (task n : Nat) (h : Keeps a s) :
    Keeps a (State.moveBytes s p master d task n) := by
  unfold State.moveBytes
  try dsimp only
  repeat' first
    | with_reducible first | assumption | apply keeps_ite | apply State.hwr_keeps | apply State.noteLines_keeps
                            | apply State.wrDev_keeps | apply keeps_foldl | apply keeps_foldl_fst
    | intro _ | split

theorem State.channelDone_keeps (c : Nat) (h : Keeps a s) :
    Keeps a (State.channelDone s c) := by
  unfold State.channelDone
  try dsimp only
  repeat' first
    | with_reducible first | assumption | apply keeps_ite | apply State.moveBytes_keeps | apply State.setCmover_keeps
    | intro _ | split

theorem State.channelFrozen_keeps (c : Nat) (k : CChain) (write : Bool) (addr : Nat) (h : Keeps a s) :
    Keeps a (State.channelFrozen s c k write addr) := by
  unfold State.channelFrozen
  try dsimp only
  repeat' first
    | with_reducible first | assumption | apply keeps_ite | apply State.freezeLog_keeps | apply State.modCmover_keeps
                            | apply State.moduleFault_keeps | apply State.modTile_keeps
                            | apply State.partitionFault_keeps
    | intro _ | split

theorem State.noteUnwaited_keeps (k : CChain) (d : MDesc) (h : Keeps a s) :
    Keeps a (State.noteUnwaited s k d) := by
  unfold State.noteUnwaited
  try dsimp only
  repeat' first
    | with_reducible first | assumption | apply keeps_ite | apply State.modTile_keeps
    | intro _ | split

theorem State.dropChain_keeps (c : Nat) (h : Keeps a s) :
    Keeps a (State.dropChain s c) := by
  unfold State.dropChain
  try dsimp only
  repeat' first
    | with_reducible first | assumption | apply State.modCmover_keeps
    | intro _

theorem State.channelStart_keeps (c : Nat) (h : Keeps a s) :
    Keeps a (State.channelStart s c) := by
  unfold State.channelStart
  try dsimp only
  repeat' first
    | with_reducible first | assumption | apply keeps_ite | apply State.noteUnwaited_keeps
                            | apply State.setCmover_keeps | apply State.channelFrozen_keeps
                            | apply State.dropChain_keeps | apply State.moduleFault_keeps
    | intro _ | split

theorem State.hostDescDone_keeps (x1 : Nat) (h : Keeps a s) :
    Keeps a (State.hostDescDone s x1) := by
  unfold State.hostDescDone
  try dsimp only
  repeat' first
    | with_reducible first | assumption | apply keeps_ite | apply State.putF_keeps | apply State.moveBytes_keeps
                            | apply State.putLast_keeps | apply State.writeBack_keeps | apply State.signalQ_keeps
                            | apply State.modMover_keeps | apply State.moverIdle_keeps | apply State.chainsLess_keeps
                            | apply State.taskDone_keeps
    | intro _ | split

theorem State.hostDescStart_keeps (x1 : Nat) (h : Keeps a s) :
    Keeps a (State.hostDescStart s x1) := by
  unfold State.hostDescStart
  try dsimp only
  repeat' first
    | with_reducible first | assumption | apply keeps_ite | apply State.chainStops_keeps | apply State.putF_keeps
                            | apply State.modMover_keeps
    | intro _ | split

theorem State.stopPart_keeps (x1 : Nat) (k : Chain) (st : Nat) (h : Keeps a s) :
    Keeps a (State.stopPart s x1 k st) := by
  unfold State.stopPart
  try dsimp only
  repeat' first
    | with_reducible first | assumption | apply keeps_ite | apply State.chainStops_keeps | apply State.fresh_keeps
                            | apply State.putF_keeps | apply State.moveBytes_keeps
    | intro _ | split

theorem execAbortComplete_keeps (x0 : Nat) (h : Keeps a s) :
    ∀ t, (execAbortComplete x0 s) = .next t → Keeps a t := by
  intro t e
  unfold execAbortComplete at e
  simp only [Host.Outcome.next.injEq] at e
  subst e
  try dsimp only
  repeat' first
    | with_reducible first | assumption | apply keeps_ite | apply State.stopPart_keeps
    | intro _ | split

theorem execBar2WindowAccess_keeps (f : Func) (off : Nat) (wr : Option (List Byte)) (len : Nat) (h : Keeps a s) :
    ∀ t, (execBar2WindowAccess f off wr len s) = .next t → Keeps a t := by
  intro t e
  unfold execBar2WindowAccess at e
  simp only [Host.Outcome.next.injEq] at e
  subst e
  try dsimp only
  repeat' first
    | with_reducible first | assumption | apply keeps_ite | apply State.tlpIn_keeps | apply State.bootWindow_keeps
                            | apply State.barOnes_keeps | apply State.barAccess_keeps
    | intro _ | split

theorem execDescriptorComplete_keeps (x0 : Nat) (h : Keeps a s) :
    ∀ t, (execDescriptorComplete x0 s) = .next t → Keeps a t := by
  intro t e
  unfold execDescriptorComplete at e
  simp only [Host.Outcome.next.injEq] at e
  subst e
  try dsimp only
  repeat' first
    | with_reducible first | assumption | apply keeps_ite | apply State.hostDescDone_keeps
                            | apply State.channelDone_keeps
    | intro _ | split

theorem execDescriptorStart_keeps (x0 : Nat) (h : Keeps a s) :
    ∀ t, (execDescriptorStart x0 s) = .next t → Keeps a t := by
  intro t e
  unfold execDescriptorStart at e
  simp only [Host.Outcome.next.injEq] at e
  subst e
  try dsimp only
  repeat' first
    | with_reducible first | assumption | apply keeps_ite | apply State.hostDescStart_keeps
                            | apply State.channelStart_keeps
    | intro _ | split

theorem execDmaMcfgWrite_keeps (f : Func) (x1 : Nat) (v : Word) (h : Keeps a s) :
    ∀ t, (execDmaMcfgWrite f x1 v s) = .next t → Keeps a t := by
  intro t e
  unfold execDmaMcfgWrite at e
  simp only [Host.Outcome.next.injEq] at e
  subst e
  try dsimp only
  repeat' first
    | with_reducible first | assumption | apply keeps_ite | apply State.gated_keeps | apply State.setWord_keeps
                            | apply State.genErr_keeps
    | intro _ | split

theorem execDmaQabort_keeps (f : Func) (q : Nat) (h : Keeps a s) :
    ∀ t, (execDmaQabort f q s) = .next t → Keeps a t := by
  intro t e
  unfold execDmaQabort at e
  simp only [Host.Outcome.next.injEq] at e
  subst e
  try dsimp only
  repeat' first
    | with_reducible first | assumption | apply keeps_ite | apply State.gated_keeps | apply State.hwr_keeps
                            | apply State.wr_keeps | apply State.chainsLess_keeps | apply State.modQueue_keeps
                            | apply State.modMover_keeps | apply State.signalQ_keeps | apply keeps_foldl
                            | apply keeps_foldl_fst
    | intro _ | split

theorem execDmaQarm_keeps (f : Func) (q : Nat) (v : Word) (h : Keeps a s) :
    ∀ t, (execDmaQarm f q v s) = .next t → Keeps a t := by
  intro t e
  unfold execDmaQarm at e
  simp only [Host.Outcome.next.injEq] at e
  subst e
  try dsimp only
  repeat' first
    | with_reducible first | assumption | apply keeps_ite | apply State.gated_keeps | apply State.modQueue_keeps
    | intro _ | split

theorem execDmaQring_keeps (f : Func) (q : Nat) (v : Word) (h : Keeps a s) :
    ∀ t, (execDmaQring f q v s) = .next t → Keeps a t := by
  intro t e
  unfold execDmaQring at e
  simp only [Host.Outcome.next.injEq] at e
  subst e
  try dsimp only
  repeat' first
    | with_reducible first | assumption | apply keeps_ite | apply State.gated_keeps | apply State.putF_keeps
                            | apply State.modQueue_keeps | apply State.arriveWork_keeps
    | intro _ | split

theorem execHostCompletionError_keeps (x0 : Nat) (h : Keeps a s) :
    ∀ t, (execHostCompletionError x0 s) = .next t → Keeps a t := by
  intro t e
  unfold execHostCompletionError at e
  simp only [Host.Outcome.next.injEq] at e
  subst e
  try dsimp only
  repeat' first
    | with_reducible first | assumption | apply keeps_ite | apply State.stopPart_keeps
    | intro _ | split

theorem execMoverChainStart_keeps (x0 : Nat) (h : Keeps a s) :
    ∀ t, (execMoverChainStart x0 s) = .next t → Keeps a t := by
  intro t e
  unfold execMoverChainStart at e
  simp only [Host.Outcome.next.injEq] at e
  subst e
  try dsimp only
  repeat' first
    | with_reducible first | assumption | apply keeps_ite | apply State.putF_keeps | apply State.modMover_keeps
                            | apply State.modQueue_keeps
    | intro _ | split

theorem State.balance_keeps (p : Nat) (pl : Plan) (finish : List Nat) (h : Keeps a s) :
    Keeps a (State.balance s p pl finish) := by
  unfold State.balance
  try dsimp only
  repeat' first
    | with_reducible first | assumption | apply keeps_ite | apply State.modPart_keeps
    | intro _ | split

theorem State.openTask_keeps (p task : Nat) (h : Keeps a s) :
    Keeps a (State.openTask s p task) := by
  unfold State.openTask
  try dsimp only
  repeat' first
    | with_reducible first | assumption | apply keeps_ite | apply State.markStarted_keeps | apply State.modPart_keeps
    | intro _ | split

theorem execBalanceDecision_keeps (p : Nat) (finish : List Nat) (h : Keeps a s) :
    ∀ t, (execBalanceDecision p finish s) = .next t → Keeps a t := by
  intro t e
  unfold execBalanceDecision at e
  simp only [Host.Outcome.next.injEq] at e
  subst e
  try dsimp only
  repeat' first
    | with_reducible first | assumption | apply keeps_ite | apply State.balance_keeps
    | intro _ | split

theorem execHoldFlit_keeps (port : Nat) (x : HoldFlit) (h : Keeps a s) :
    ∀ t, (execHoldFlit port x s) = .next t → Keeps a t := by
  intro t e
  unfold execHoldFlit at e
  simp only [Host.Outcome.next.injEq] at e
  subst e
  try dsimp only
  repeat' first
    | with_reducible first | assumption | apply keeps_ite | apply State.sendNak_keeps | apply State.takeHold_keeps
                            | apply State.received_keeps | apply keeps_foldl | apply keeps_foldl_fst
    | intro _ | split

theorem execHoldLanding_keeps (p land : Nat) (h : Keeps a s) :
    ∀ t, (execHoldLanding p land s) = .next t → Keeps a t := by
  intro t e
  unfold execHoldLanding at e
  simp only [Host.Outcome.next.injEq] at e
  subst e
  try dsimp only
  repeat' first
    | with_reducible first | assumption | apply keeps_ite | apply State.landUpTo_keeps
    | intro _ | split

theorem execHoldLimitReached_keeps (p : Nat) (h : Keeps a s) :
    ∀ t, (execHoldLimitReached p s) = .next t → Keeps a t := by
  intro t e
  unfold execHoldLimitReached at e
  simp only [Host.Outcome.next.injEq] at e
  subst e
  try dsimp only
  repeat' first
    | with_reducible first | assumption | apply keeps_ite | apply State.moduleFault_keeps
    | intro _ | split

theorem execPlnHoldPop_keeps (f : Func) (p : Nat) (v : Word) (h : Keeps a s) :
    ∀ t, (execPlnHoldPop f p v s) = .next t → Keeps a t := by
  intro t e
  unfold execPlnHoldPop at e
  simp only [Host.Outcome.next.injEq] at e
  subst e
  try dsimp only
  repeat' first
    | with_reducible first | assumption | apply keeps_ite | apply State.gated_keeps | apply State.modPart_keeps
    | intro _ | split

theorem execWindowOpen_keeps (p task : Nat) (bytes : List Nat) (h : Keeps a s) :
    ∀ t, (execWindowOpen p task bytes s) = .next t → Keeps a t := by
  intro t e
  unfold execWindowOpen at e
  simp only [Host.Outcome.next.injEq] at e
  subst e
  try dsimp only
  repeat' first
    | with_reducible first | assumption | apply keeps_ite | apply State.openTask_keeps | apply State.raiseHold_keeps
    | intro _ | split

theorem State.clearInterval_keeps (p task : Nat) (h : Keeps a s) :
    Keeps a (State.clearInterval s p task) := by
  unfold State.clearInterval
  try dsimp only
  repeat' first
    | with_reducible first | assumption | apply State.modPart_keeps | apply State.clearBuffer_keeps
                            | apply keeps_foldl | apply keeps_foldl_fst
    | intro _ | split

theorem State.deliverMb_keeps (p : Nat) (pl : Plan) (t : Task) (r n mb : Nat) (h : Keeps a s) :
    Keeps a (State.deliverMb s p pl t r n mb) := by
  unfold State.deliverMb
  try dsimp only
  repeat' first
    | with_reducible first | assumption | apply keeps_ite | apply State.wrBy_keeps | apply State.modTableSt_keeps
                            | apply keeps_foldl | apply keeps_foldl_fst
    | intro _ | split

theorem State.dispatch_keeps (p task g share base : Nat) (h : Keeps a s) :
    Keeps a (State.dispatch s p task g share base) := by
  unfold State.dispatch
  try dsimp only
  repeat' first
    | with_reducible first | assumption | apply keeps_ite | apply State.openTask_keeps
                            | apply State.clearInterval_keeps | apply State.modPart_keeps
                            | apply State.grantActs_keeps | apply State.startKernel_keeps
    | intro _ | split

theorem State.sendOrTake_keeps (x1 : MsgHdr) (o : Out) (take : State → State) (h : Keeps a s) (htake : ∀ s, Keeps a s → Keeps a (take s)) :
    Keeps a (State.sendOrTake s x1 o take) := by
  unfold State.sendOrTake
  try dsimp only
  repeat' first
    | with_reducible first | assumption | apply htake | apply keeps_ite | apply State.sendMsg_keeps
    | intro _ | split

theorem State.sendBytes_keeps (p : Nat) (t : Task) (to_ src dst n token : Nat) (h : Keeps a s) :
    Keeps a (State.sendBytes s p t to_ src dst n token) := by
  unfold State.sendBytes
  try dsimp only
  repeat' first
    | with_reducible first | assumption | apply keeps_ite | apply State.sendOrTake_keeps
                            | apply State.writeDelivered_keeps | apply keeps_foldl | apply keeps_foldl_fst
    | intro _ | split

theorem State.sendRows_keeps {α : Type} (p : Nat) (t : Task) (to_ requester tag sub token size : Nat) (enc : α → List Byte) (l : List α) (take : State → List α → State) (h : Keeps a s) (htake : ∀ s x, Keeps a s → Keeps a (take s x)) :
    Keeps a (State.sendRows s p t to_ requester tag sub token size enc l take) := by
  unfold State.sendRows
  try dsimp only
  repeat' first
    | with_reducible first | assumption | apply htake | apply keeps_ite | apply State.sendOrTake_keeps
                            | apply State.rowDelivered_keeps | apply keeps_foldl | apply keeps_foldl_fst
    | intro _ | split

theorem State.sendGrads_keeps (p : Nat) (t : Task) (d : TableDesc) (r tag to_ src token : Nat) (h : Keeps a s) :
    Keeps a (State.sendGrads s p t d r tag to_ src token) := by
  unfold State.sendGrads
  try dsimp only
  repeat' first
    | with_reducible first | assumption | apply keeps_ite | apply State.sendRows_keeps | apply State.takeGrads_keeps
                            | apply State.takeWinners_keeps
    | intro _ | split

theorem State.sendIndices_keeps (p : Nat) (t : Task) (d : TableDesc) (r tag to_ token : Nat) (h : Keeps a s) :
    Keeps a (State.sendIndices s p t d r tag to_ token) := by
  unfold State.sendIndices
  try dsimp only
  repeat' first
    | with_reducible first | assumption | apply keeps_ite | apply State.sendRows_keeps | apply State.takeKeys_keeps
                            | apply State.takeEntries_keeps
    | intro _ | split

theorem State.sendNodes_keeps (p : Nat) (t : Task) (d : TableDesc) (r tag to_ token : Nat) (h : Keeps a s) :
    Keeps a (State.sendNodes s p t d r tag to_ token) := by
  unfold State.sendNodes
  try dsimp only
  repeat' first
    | with_reducible first | assumption | apply State.sendRows_keeps | apply State.takePartials_keeps
    | intro _

theorem State.transferTo_keeps (p : Nat) (pl : Plan) (t : Task) (to_ i bytes src dst token : Nat) (h : Keeps a s) :
    Keeps a (State.transferTo s p pl t to_ i bytes src dst token) := by
  unfold State.transferTo
  try dsimp only
  repeat' first
    | with_reducible first | assumption | apply State.sendIndices_keeps | apply State.sendNodes_keeps
                            | apply State.sendGrads_keeps | apply State.sendBytes_keeps
    | intro _ | split

theorem execCalibrationTask_keeps (p layer : Nat) (u w : List W32) (h : Keeps a s) :
    ∀ t, (execCalibrationTask p layer u w s) = .next t → Keeps a t := by
  intro t e
  unfold execCalibrationTask at e
  simp only [Host.Outcome.next.injEq] at e
  subst e
  try dsimp only
  repeat' first
    | with_reducible first | assumption | apply keeps_ite | apply State.modPart_keeps | apply keeps_foldl
                            | apply keeps_foldl_fst
    | intro _ | split

theorem execCarmineTransfer_keeps (p task : Nat) (dests : List HostEntry) (bytes src dst token : Nat) (h : Keeps a s) :
    ∀ t, (execCarmineTransfer p task dests bytes src dst token s) = .next t → Keeps a t := by
  intro t e
  unfold execCarmineTransfer at e
  simp only [Host.Outcome.next.injEq] at e
  subst e
  try dsimp only
  repeat' first
    | with_reducible first | assumption | apply keeps_ite | apply State.openTask_keeps | apply State.modPart_keeps
                            | apply State.sendCarried_keeps | apply State.settleSent_keeps
                            | apply State.transferTo_keeps | apply keeps_foldl | apply keeps_foldl_fst
    | intro _ | split

theorem execClusterMove_keeps (p task chain : Nat) (h : Keeps a s) :
    ∀ t, (execClusterMove p task chain s) = .next t → Keeps a t := by
  intro t e
  unfold execClusterMove at e
  simp only [Host.Outcome.next.injEq] at e
  subst e
  try dsimp only
  repeat' first
    | with_reducible first | assumption | apply keeps_ite | apply State.openTask_keeps
                            | apply State.moduleFault_keeps | apply State.modCmover_keeps
    | intro _ | split

theorem execHostMove_keeps (p task chain : Nat) (h : Keeps a s) :
    ∀ t, (execHostMove p task chain s) = .next t → Keeps a t := by
  intro t e
  unfold execHostMove at e
  simp only [Host.Outcome.next.injEq] at e
  subst e
  try dsimp only
  repeat' first
    | with_reducible first | assumption | apply keeps_ite | apply State.openTask_keeps
                            | apply State.moduleFault_keeps | apply State.putF_keeps | apply State.modMover_keeps
    | intro _ | split

theorem execIngestDelivery_keeps (p task mb : Nat) (h : Keeps a s) :
    ∀ t, (execIngestDelivery p task mb s) = .next t → Keeps a t := by
  intro t e
  unfold execIngestDelivery at e
  simp only [Host.Outcome.next.injEq] at e
  subst e
  try dsimp only
  repeat' first
    | with_reducible first | assumption | apply keeps_ite | apply State.openTask_keeps | apply State.taskDone_keeps
                            | apply State.deliverMb_keeps
    | intro _ | split

theorem execTileDispatch_keeps (p task g share base : Nat) (h : Keeps a s) :
    ∀ t, (execTileDispatch p task g share base s) = .next t → Keeps a t := by
  intro t e
  unfold execTileDispatch at e
  simp only [Host.Outcome.next.injEq] at e
  subst e
  try dsimp only
  repeat' first
    | with_reducible first | assumption | apply keeps_ite | apply State.dispatch_keeps
    | intro _ | split

theorem execWorkingCopyCompare_keeps (p tensor block master copy fmt : Nat) (h : Keeps a s) :
    ∀ t, (execWorkingCopyCompare p tensor block master copy fmt s) = .next t → Keeps a t := by
  intro t e
  unfold execWorkingCopyCompare at e
  simp only [Host.Outcome.next.injEq] at e
  subst e
  try dsimp only
  repeat' first
    | with_reducible first | assumption | apply keeps_ite | apply State.moduleFaultAt_keeps
    | intro _ | split

theorem State.copyPage_keeps (d : TableDesc) (from_ to_ : Nat) (h : Keeps a s) :
    Keeps a (State.copyPage s d from_ to_) := by
  unfold State.copyPage
  try dsimp only
  repeat' first
    | with_reducible first | assumption | apply State.wr_keeps
    | intro _

theorem State.sendPage_keeps (p r : Nat) (b : List Byte) (x4 : Nat) (h : Keeps a s) :
    Keeps a (State.sendPage s p r b x4) := by
  unfold State.sendPage
  try dsimp only
  repeat' first
    | with_reducible first | assumption | apply keeps_ite | apply State.writeDelivered_keeps
                            | apply State.sendMsg_keeps | apply keeps_foldl | apply keeps_foldl_fst
    | intro _ | split

theorem State.sendShard_keeps (p t : Nat) (d : TableDesc) (m : ShardMove) (want : Nat → Bool) (h : Keeps a s) :
    Keeps a (State.sendShard s p t d m want) := by
  unfold State.sendShard
  try dsimp only
  repeat' first
    | with_reducible first | assumption | apply keeps_ite | apply State.sendPage_keeps | apply keeps_foldl
                            | apply keeps_foldl_fst
    | intro _ | split

theorem State.decideMove_keeps (p t : Nat) (d : TableDesc) (loads : List ShardLoad) (h : Keeps a s) :
    Keeps a (State.decideMove s p t d loads) := by
  unfold State.decideMove
  try dsimp only
  repeat' first
    | with_reducible first | assumption | apply keeps_ite | apply State.modTableSt_keeps
                            | apply State.sendShard_keeps | apply keeps_foldl | apply keeps_foldl_fst
    | intro _ | split

theorem State.loadRepl_keeps (p : Nat) (v : Repl) (d : TableDesc) (h : Keeps a s) :
    Keeps a (State.loadRepl s p v d) := by
  unfold State.loadRepl
  try dsimp only
  repeat' first
    | with_reducible first | assumption | apply State.wipe_keeps | apply State.initPage_keeps | apply State.wr_keeps
                            | apply keeps_foldl | apply keeps_foldl_fst
    | intro _

theorem State.placeTable_keeps (p t r : Nat) (d : TableDesc) (h : Keeps a s) :
    Keeps a (State.placeTable s p t r d) := by
  unfold State.placeTable
  try dsimp only
  repeat' first
    | with_reducible first | assumption | apply keeps_ite | apply State.modPart_keeps | apply State.setPage_keeps
                            | apply keeps_foldl | apply keeps_foldl_fst
    | intro _ | split

theorem State.showSwaps_keeps (p : Nat) (h : Keeps a s) :
    Keeps a (State.showSwaps s p) := by
  unfold State.showSwaps
  try dsimp only
  repeat' first
    | with_reducible first | assumption | apply State.putF_keeps
    | intro _

theorem State.placePeriod_keeps (p : Nat) (h : Keeps a s) :
    Keeps a (State.placePeriod s p) := by
  unfold State.placePeriod
  try dsimp only
  repeat' first
    | with_reducible first | assumption | apply keeps_ite | apply State.emit_keeps | apply State.placeTable_keeps
                            | apply State.showSwaps_keeps | apply keeps_foldl | apply keeps_foldl_fst
    | intro _ | split

theorem State.resendShards_keeps (p : Nat) (h : Keeps a s) :
    Keeps a (State.resendShards s p) := by
  unfold State.resendShards
  try dsimp only
  repeat' first
    | with_reducible first | assumption | apply State.sendShard_keeps | apply State.modTableSt_keeps
                            | apply keeps_foldl | apply keeps_foldl_fst
    | intro _ | split

theorem State.swapCopy_keeps (p : Nat) (w : Swap) (h : Keeps a s) :
    Keeps a (State.swapCopy s p w) := by
  unfold State.swapCopy
  try dsimp only
  repeat' first
    | with_reducible first | assumption | apply keeps_ite | apply State.copyPage_keeps
    | intro _ | split

theorem State.runCopies_keeps (p x2 : Nat) (h : Keeps a s) :
    Keeps a (State.runCopies s p x2) := by
  induction x2 generalizing s with
  | zero => exact h
  | succ n ih =>
    unfold State.runCopies
    try dsimp only
    repeat' first
      | with_reducible first | apply ih | assumption | apply keeps_ite | apply State.swapCopy_keeps
                              | apply State.modPart_keeps
      | intro _ | split

theorem State.startRepl_keeps (p : Nat) (h : Keeps a s) :
    Keeps a (State.startRepl s p) := by
  unfold State.startRepl
  try dsimp only
  repeat' first
    | with_reducible first | assumption | apply keeps_ite | apply State.putF_keeps | apply State.modPart_keeps
    | intro _ | split

theorem State.switchMoves_keeps (p : Nat) (h : Keeps a s) :
    Keeps a (State.switchMoves s p) := by
  unfold State.switchMoves
  try dsimp only
  repeat' first
    | with_reducible first | assumption | apply keeps_ite | apply State.modTableSt_keeps | apply State.modPart_keeps
                            | apply keeps_foldl | apply keeps_foldl_fst
    | intro _ | split

theorem State.switchRepl_keeps (p : Nat) (v : Repl) (h : Keeps a s) :
    Keeps a (State.switchRepl s p v) := by
  unfold State.switchRepl
  try dsimp only
  repeat' first
    | with_reducible first | assumption | apply State.modTableSt_keeps | apply State.initDefault_keeps
                            | apply State.wrN_keeps | apply State.putF_keeps | apply State.modPart_keeps
                            | apply keeps_foldl | apply keeps_foldl_fst
    | intro _ | split

theorem State.switchRepls_keeps (p n : Nat) (h : Keeps a s) :
    Keeps a (State.switchRepls s p n) := by
  unfold State.switchRepls
  try dsimp only
  repeat' first
    | with_reducible first | assumption | apply State.switchRepl_keeps | apply keeps_foldl | apply keeps_foldl_fst
    | intro _

theorem State.switchSwap_keeps (p : Nat) (w : Swap) (h : Keeps a s) :
    Keeps a (State.switchSwap s p w) := by
  unfold State.switchSwap
  try dsimp only
  repeat' first
    | with_reducible first | assumption | apply State.setPage_keeps | apply State.modTableSt_keeps
                            | apply State.bumpBy_keeps
    | intro _ | split

theorem State.switchSwaps_keeps (p : Nat) (h : Keeps a s) :
    Keeps a (State.switchSwaps s p) := by
  unfold State.switchSwaps
  try dsimp only
  repeat' first
    | with_reducible first | assumption | apply State.switchSwap_keeps | apply State.showSwaps_keeps
                            | apply State.modPart_keeps | apply keeps_foldl | apply keeps_foldl_fst
    | intro _

theorem execPageCopy_keeps (p : Nat) (h : Keeps a s) :
    ∀ t, (execPageCopy p s) = .next t → Keeps a t := by
  intro t e
  unfold execPageCopy at e
  simp only [Host.Outcome.next.injEq] at e
  subst e
  try dsimp only
  repeat' first
    | with_reducible first | assumption | apply keeps_ite | apply State.resendShards_keeps
                            | apply State.runCopies_keeps
    | intro _ | split

theorem execPlacementPeriod_keeps (p : Nat) (h : Keeps a s) :
    ∀ t, (execPlacementPeriod p s) = .next t → Keeps a t := by
  intro t e
  unfold execPlacementPeriod at e
  simp only [Host.Outcome.next.injEq] at e
  subst e
  try dsimp only
  repeat' first
    | with_reducible first | assumption | apply keeps_ite | apply State.placePeriod_keeps
    | intro _ | split

theorem execReplacementCopyDone_keeps (p : Nat) (h : Keeps a s) :
    ∀ t, (execReplacementCopyDone p s) = .next t → Keeps a t := by
  intro t e
  unfold execReplacementCopyDone at e
  simp only [Host.Outcome.next.injEq] at e
  subst e
  try dsimp only
  repeat' first
    | with_reducible first | assumption | apply keeps_ite | apply State.putF_keeps | apply State.modPart_keeps
                            | apply State.loadRepl_keeps
    | intro _ | split

theorem execReplacementStateExchange_keeps (p : Nat) (states : List Nat) (h : Keeps a s) :
    ∀ t, (execReplacementStateExchange p states s) = .next t → Keeps a t := by
  intro t e
  unfold execReplacementStateExchange at e
  simp only [Host.Outcome.next.injEq] at e
  subst e
  try dsimp only
  repeat' first
    | with_reducible first | assumption | apply keeps_ite | apply State.modPart_keeps | apply State.putF_keeps
    | intro _ | split

theorem execRowReplGo_keeps (f : Func) (p : Nat) (v : Word) (h : Keeps a s) :
    ∀ t, (execRowReplGo f p v s) = .next t → Keeps a t := by
  intro t e
  unfold execRowReplGo at e
  simp only [Host.Outcome.next.injEq] at e
  subst e
  try dsimp only
  repeat' first
    | with_reducible first | assumption | apply keeps_ite | apply State.gated_keeps | apply State.writeOthers_keeps
                            | apply State.startRepl_keeps
    | intro _ | split

theorem execShardMoveDecision_keeps (p table : Nat) (loads : List ShardLoad) (h : Keeps a s) :
    ∀ t, (execShardMoveDecision p table loads s) = .next t → Keeps a t := by
  intro t e
  unfold execShardMoveDecision at e
  simp only [Host.Outcome.next.injEq] at e
  subst e
  try dsimp only
  repeat' first
    | with_reducible first | assumption | apply keeps_ite | apply State.decideMove_keeps
    | intro _ | split

theorem State.setPeer_keeps (x : Peer) (h : Keeps a s) :
    Keeps a (State.setPeer s x) := by
  unfold State.setPeer
  try dsimp only
  repeat' first
    | with_reducible first | assumption
    | (fail_if_no_progress (with_reducible apply keeps_plain))

theorem State.acceptPn_keeps (mac an pn : Nat) (h : Keeps a s) :
    Keeps a (State.acceptPn s mac an pn) := by
  unfold State.acceptPn
  try dsimp only
  repeat' first
    | with_reducible first | assumption | apply keeps_ite | apply State.setPeer_keeps
    | intro _ | split

theorem State.countSeq_keeps (type rank step : Nat) (h : Keeps a s) :
    Keeps a (State.countSeq s type rank step) := by
  unfold State.countSeq
  try dsimp only
  repeat' first
    | with_reducible first | assumption
    | (fail_if_no_progress (with_reducible apply keeps_plain))

theorem State.otherIn_keeps (k : Nat) (h : Keeps a s) :
    Keeps a (State.otherIn s k) := by
  unfold State.otherIn
  try dsimp only
  repeat' first
    | with_reducible first | assumption | apply State.bump_keeps
    | intro _

theorem State.readSealed_keeps (k : Nat) (addrs rest : List Byte) (h : Keeps a s) :
    Keeps a (State.readSealed s k addrs rest).1 := by
  unfold State.readSealed
  try dsimp only
  repeat' first
    | with_reducible first | assumption | apply keeps_ite | apply State.otherIn_keeps | apply State.bump_keeps
                            | apply State.acceptPn_keeps
    | intro _ | split

theorem State.hear_keeps (k : Nat) (b : List Byte) (h : Keeps a s) :
    Keeps a (State.hear s k b).1 := by
  unfold State.hear
  try dsimp only
  repeat' first
    | with_reducible first | assumption | apply keeps_ite | apply State.otherIn_keeps | apply State.readSealed_keeps
    | intro _ | split

theorem State.frameIn_keeps (k : Nat) (b : List Byte) (type : Nat) (act : State → StreamHdr → List Byte → State) (h : Keeps a s) (hact : ∀ s h d, Keeps a s → Keeps a (act s h d)) :
    Keeps a (State.frameIn s k b type act) := by
  unfold State.frameIn
  split
  · exact h
  · have hh := State.hear_keeps k b h
    split
    · rename_i e
      rw [e] at hh
      repeat' split
      · exact h
      · exact State.otherIn_keeps _ hh
      · exact hact _ _ _ hh
    · rename_i e
      rw [e] at hh
      exact hh

theorem State.frameTo_keeps (k mac type part rank step : Nat) (last : Bool) (payload : List Byte) (h : Keeps a s) :
    Keeps a (State.frameTo s k mac type part rank step last payload) := by
  unfold State.frameTo
  try dsimp only
  repeat' first
    | with_reducible first | assumption | apply keeps_ite | apply State.emit_keeps | apply State.setPeer_keeps
                            | apply State.countSeq_keeps
    | intro _ | split

theorem State.kexFrames_keeps (k mac x2 : Nat) (x3 : List Byte) {x4 : State} (h : Keeps a x4) :
    Keeps a (State.kexFrames k mac x2 x3 x4) := by
  induction x2 generalizing x3 x4 with
  | zero => exact h
  | succ n ih =>
    unfold State.kexFrames
    dsimp only
    repeat' first
      | with_reducible first | apply ih | assumption | apply keeps_ite | apply State.emit_keeps
                              | apply State.countSeq_keeps
      | intro _ | split

theorem State.kexTo_keeps (k mac msg stream : Nat) (body : List Byte) (h : Keeps a s) :
    Keeps a (State.kexTo s k mac msg stream body) := by
  unfold State.kexTo
  try dsimp only
  repeat' first
    | with_reducible first | assumption | apply State.kexFrames_keeps
    | intro _

theorem State.toMirror_keeps (p r x3 : Nat) (b : List Byte) (h : Keeps a s) :
    Keeps a (State.toMirror s p r x3 b) := by
  unfold State.toMirror
  try dsimp only
  repeat' first
    | with_reducible first | assumption | apply State.wr8_keeps | apply keeps_foldl | apply keeps_foldl_fst
    | intro _

theorem State.applyLog_keeps (p : Nat) (l : DeltaLog) (h : Keeps a s) :
    Keeps a (State.applyLog s p l) := by
  unfold State.applyLog
  try dsimp only
  repeat' first
    | with_reducible first | assumption | apply State.toMirror_keeps | apply keeps_foldl | apply keeps_foldl_fst
    | intro _

theorem State.applyLogs_keeps (p r : Nat) (h : Keeps a s) :
    Keeps a (State.applyLogs s p r) := by
  unfold State.applyLogs
  try dsimp only
  repeat' first
    | with_reducible first | assumption | apply State.modPart_keeps | apply State.applyLog_keeps | apply keeps_foldl
                            | apply keeps_foldl_fst
    | intro _

theorem State.dropRank_keeps (p r : Nat) (h : Keeps a s) :
    Keeps a (State.dropRank s p r) := by
  unfold State.dropRank
  try dsimp only
  repeat' first
    | with_reducible first | assumption | apply State.modPart_keeps | apply State.putF_keeps
    | intro _

theorem State.copyToMirror_keeps (p r n : Nat) (pl : Plan) (h : Keeps a s) :
    Keeps a (State.copyToMirror s p r n pl) := by
  unfold State.copyToMirror
  try dsimp only
  repeat' first
    | with_reducible first | assumption | apply State.toMirror_keeps | apply keeps_foldl | apply keeps_foldl_fst
    | intro _

theorem State.readRank_keeps (p r : Nat) (h : Keeps a s) :
    Keeps a (State.readRank s p r) := by
  unfold State.readRank
  try dsimp only
  repeat' first
    | with_reducible first | assumption | apply State.loadWatches_keeps | apply State.loadEpochs_keeps
                            | apply State.loadCounts_keeps | apply State.loadScales_keeps
    | intro _

theorem State.reroutes_keeps (p r step hepoch : Nat) (h : Keeps a s) :
    Keeps a (State.reroutes s p r step hepoch) := by
  unfold State.reroutes
  try dsimp only
  repeat' first
    | with_reducible first | assumption | apply State.frameTo_keeps | apply keeps_foldl | apply keeps_foldl_fst
    | intro _

theorem State.takeRegion_keeps (p r x3 n : Nat) (h : Keeps a s) :
    Keeps a (State.takeRegion s p r x3 n) := by
  unfold State.takeRegion
  try dsimp only
  repeat' first
    | with_reducible first | assumption | apply State.wr_keeps
    | intro _

theorem State.takePages_keeps (p r t : Nat) (d : TableDesc) (h : Keeps a s) :
    Keeps a (State.takePages s p r t d) := by
  unfold State.takePages
  try dsimp only
  repeat' first
    | with_reducible first | assumption | apply keeps_ite | apply State.setPage_keeps | apply State.wr_keeps
                            | apply State.takeRegion_keeps | apply keeps_foldl | apply keeps_foldl_fst
    | intro _ | split

theorem State.takeCarried_keeps (p r n : Nat) (pl : Plan) (h : Keeps a s) :
    Keeps a (State.takeCarried s p r n pl) := by
  unfold State.takeCarried
  try dsimp only
  repeat' first
    | with_reducible first | assumption | apply keeps_ite | apply State.takeRegion_keeps
                            | apply State.modTableSt_keeps | apply keeps_foldl | apply keeps_foldl_fst
    | intro _ | split

theorem State.takeDense_keeps (p r n : Nat) (pl : Plan) (h : Keeps a s) :
    Keeps a (State.takeDense s p r n pl) := by
  unfold State.takeDense
  try dsimp only
  repeat' first
    | with_reducible first | assumption | apply State.takeRegion_keeps | apply keeps_foldl | apply keeps_foldl_fst
    | intro _ | split

theorem State.installRank_keeps (p r n : Nat) (h : Keeps a s) :
    Keeps a (State.installRank s p r n) := by
  unfold State.installRank
  try dsimp only
  repeat' first
    | with_reducible first | assumption | apply State.dropRank_keeps | apply State.applyLogs_keeps
                            | apply State.takePages_keeps | apply State.takeCarried_keeps
                            | apply State.readRank_keeps | apply State.takeDense_keeps | apply State.putF_keeps
                            | apply keeps_foldl | apply keeps_foldl_fst
    | intro _ | split

theorem State.reschedule_keeps (p : Nat) (lead : Bool) (h : Keeps a s) :
    Keeps a (State.reschedule s p lead) := by
  unfold State.reschedule
  try dsimp only
  repeat' first
    | with_reducible first | assumption | apply keeps_ite | apply State.modPart_keeps | apply State.showDigest_keeps
    | intro _ | split

theorem State.showHosting_keeps (p hepoch mirror : Nat) (h : Keeps a s) :
    Keeps a (State.showHosting s p hepoch mirror) := by
  unfold State.showHosting
  try dsimp only
  repeat' first
    | with_reducible first | assumption | apply keeps_ite | apply State.putF_keeps
    | intro _ | split

theorem State.applyMap_keeps (p : Nat) (m : ResumeMsg) (n : Nat) (lead : Bool) (h : Keeps a s) :
    Keeps a (State.applyMap s p m n lead) := by
  unfold State.applyMap
  try dsimp only
  repeat' first
    | with_reducible first | assumption | apply keeps_ite | apply State.modPart_keeps | apply State.dropRank_keeps
                            | apply State.copyToMirror_keeps | apply State.readRank_keeps
                            | apply State.reroutes_keeps | apply State.installRank_keeps | apply State.putF_keeps
                            | apply State.reschedule_keeps | apply State.showHosting_keeps | apply keeps_foldl
                            | apply keeps_foldl_fst
    | intro _ | split

theorem State.jnlAppend_keeps (e : Nat) (f : Frame) (d : TableDesc) (slot state : Nat) (dflt spilled : Bool) (h : Keeps a s) :
    Keeps a (State.jnlAppend s e f d slot state dflt spilled) := by
  unfold State.jnlAppend
  try dsimp only
  repeat' first
    | with_reducible first | assumption | apply keeps_ite | apply State.wr_keeps | apply State.setOch_keeps
    | intro _ | split

theorem State.settleStage_keeps (p : Nat) (h : Keeps a s) :
    Keeps a (State.settleStage s p) := by
  unfold State.settleStage
  try dsimp only
  repeat' first
    | with_reducible first | assumption | apply keeps_ite | apply State.modPart_keeps
    | intro _ | split

theorem State.settleRestore_keeps (p : Nat) (h : Keeps a s) :
    Keeps a (State.settleRestore s p) := by
  unfold State.settleRestore
  try dsimp only
  repeat' first
    | with_reducible first | assumption | apply keeps_ite | apply State.putF_keeps | apply State.modPart_keeps
    | intro _ | split

theorem State.ochComplete_keeps (e q : Nat) (r : Run) (h : Keeps a s) :
    Keeps a (State.ochComplete s e q r) := by
  unfold State.ochComplete
  try dsimp only
  repeat' first
    | with_reducible first | assumption | apply keeps_ite | apply State.modOch_keeps | apply State.settleStage_keeps
                            | apply State.settleRestore_keeps | apply State.deliver_keeps
    | intro _ | split

theorem State.ochStart_keeps (e : Nat) (f : Frame) (status done : Nat) (h : Keeps a s) :
    Keeps a (State.ochStart s e f status done) := by
  unfold State.ochStart
  try dsimp only
  repeat' first
    | with_reducible first | assumption | apply keeps_ite | apply State.modOch_keeps
    | intro _ | split

theorem State.ochFreeze_keeps (e : Nat) (f : Frame) (write : Bool) (addr done : Nat) (h : Keeps a s) :
    Keeps a (State.ochFreeze s e f write addr done) := by
  unfold State.ochFreeze
  try dsimp only
  repeat' first
    | with_reducible first | assumption | apply keeps_ite | apply State.modOch_keeps | apply State.ochStart_keeps
                            | apply State.freezeLog_keeps | apply State.modPart_keeps
    | intro _ | split

theorem State.ochEnd_keeps (g : State.Progress) (e : Nat) (f : Frame) (errs : List SectorErr) (hg : Keeps a g.st) :
    Keeps a (State.ochEnd g e f errs) := by
  unfold State.ochEnd
  try dsimp only
  repeat' first
    | with_reducible first | assumption | apply keeps_ite | apply State.sectorErrors_keeps
                            | apply State.ochFreeze_keeps | apply State.ochStart_keeps
    | intro _ | split

theorem State.ochRefuse_keeps (e : Nat) (f : Frame) (h : Keeps a s) :
    Keeps a (State.ochRefuse s e f) := by
  unfold State.ochRefuse
  try dsimp only
  repeat' first
    | with_reducible first | assumption | apply State.moduleFault_keeps | apply State.ochStart_keeps
    | intro _

theorem State.ochFrame_keeps (e : Nat) (f : Frame) (opc : Nat) (act : State → State) (h : Keeps a s) (hact : ∀ s, Keeps a s → Keeps a (act s)) :
    Keeps a (State.ochFrame s e f opc act) := by
  unfold State.ochFrame
  try dsimp only
  repeat' first
    | with_reducible first | assumption | apply hact | apply keeps_ite | apply State.ochRefuse_keeps
                            | apply State.moduleFault_keeps | apply State.setOch_keeps
    | intro _ | split

theorem State.stepEntry_keeps (p : Nat) (g : State.Progress) (accs : List (Nat × Nat × Bool)) (act : State → State) (hg : Keeps a g.st) (hact : ∀ s, Keeps a s → Keeps a (act s)) :
    Keeps a (State.stepEntry p g accs act).st := by
  unfold State.stepEntry
  try dsimp only
  repeat' first
    | with_reducible first | assumption | apply hact
    | split

theorem State.ochGather_keeps (e : Nat) (f : Frame) (d : TableDesc) (h : Keeps a s) :
    Keeps a (State.ochGather s e f d).st := by
  unfold State.ochGather
  exact keeps_foldl_st h fun g i hg => State.stepEntry_keeps _ _ _ _ hg fun s hs => State.wr_keeps _ _ hs

theorem State.ochPool_keeps (e : Nat) (f : Frame) (d : TableDesc) (h : Keeps a s) :
    Keeps a (State.ochPool s e f d).st := by
  unfold State.ochPool
  dsimp only
  suffices ∀ (l : List Nat) (q : State.Pooling) (f' : State.Pooling → Nat → State.Pooling), Keeps a q.g.st →
      (∀ q i, Keeps a q.g.st → Keeps a (f' q i).g.st) → Keeps a (l.foldl f' q).g.st from this _ _ _ h (by
    intro q i hq
    split
    · refine State.stepEntry_keeps _ _ _ _ hq fun s hs => ?_
      repeat' first | assumption | apply State.wr_keeps | split
    · refine State.stepEntry_keeps _ _ _ _ hq fun s hs => ?_
      repeat' first | assumption | apply State.wr_keeps | split)
  intro l
  induction l with
  | nil => exact fun q f' hq _ => hq
  | cons x l ih => exact fun q f' hq hf => ih _ _ (hf _ _ hq) hf

theorem State.updateRow_keeps (f : Frame) (d : TableDesc) (x : UpdCtx) (i slot state r row : Nat) (h : Keeps a s) :
    Keeps a (State.updateRow s f d x i slot state r row) := by
  unfold State.updateRow
  try dsimp only
  repeat' first
    | with_reducible first | assumption | apply State.wr_keeps | apply State.modPart_keeps
                            | apply State.countLoad_keeps
    | intro _ | split

theorem State.updateEntry_keeps (e : Nat) (f : Frame) (d : TableDesc) (x4 : HypEnt) (i slot state : Nat) (h : Keeps a s) :
    Keeps a (State.updateEntry s e f d x4 i slot state) := by
  unfold State.updateEntry
  try dsimp only
  repeat' first
    | with_reducible first | assumption | apply keeps_ite | apply State.fresh_keeps | apply State.updateRow_keeps
                            | apply State.jnlAppend_keeps
    | intro _ | split

theorem State.ochUpdate_keeps (e : Nat) (f : Frame) (d : TableDesc) (x4 : HypEnt) (h : Keeps a s) :
    Keeps a (State.ochUpdate s e f d x4).1.st := by
  unfold State.ochUpdate
  dsimp only
  suffices ∀ (l : List Nat) (q : State.Progress × Bool) (f' : State.Progress × Bool → Nat → State.Progress × Bool), Keeps a q.1.st →
      (∀ q i, Keeps a q.1.st → Keeps a (f' q i).1.st) → Keeps a (l.foldl f' q).1.st from this _ _ _ h (by
    intro q i hq
    split
    · exact hq
    · split
      · exact hq
      · exact State.stepEntry_keeps _ _ _ _ hq fun s hs => State.updateEntry_keeps _ _ _ _ _ _ _ hs)
  intro l
  induction l with
  | nil => exact fun q f' hq _ => hq
  | cons x l ih => exact fun q f' hq hf => ih _ _ (hf _ _ hq) hf

theorem State.releaseJournal_keeps (e : Nat) (f : Frame) (h : Keeps a s) :
    Keeps a (State.releaseJournal s e f).1 := by
  unfold State.releaseJournal
  try dsimp only
  repeat' first
    | with_reducible first | assumption | apply State.modOch_keeps
    | intro _

theorem State.restoreJournal_keeps (e : Nat) (f : Frame) (h : Keeps a s) :
    Keeps a (State.restoreJournal s e f).1 := by
  unfold State.restoreJournal
  try dsimp only
  repeat' first
    | with_reducible first | assumption | apply State.wr_keeps | apply State.modOch_keeps | apply keeps_foldl
                            | apply keeps_foldl_fst
    | intro _

theorem execCfg_keeps (e : Nat) (f : Frame) (h : Keeps a s) :
    ∀ t, (execCfg e f s) = .next t → Keeps a t := by
  intro t e
  unfold execCfg at e
  simp only [Host.Outcome.next.injEq] at e
  subst e
  try dsimp only
  repeat' first
    | with_reducible first | assumption | apply keeps_ite | apply State.ochFrame_keeps | apply State.ochFreeze_keeps
                            | apply State.ochStart_keeps | apply State.modOch_keeps
    | intro _ | split

theorem execCompletionRecordRead_keeps (e q : Nat) (h : Keeps a s) :
    ∀ t, (execCompletionRecordRead e q s) = .next t → Keeps a t := by
  intro t e
  unfold execCompletionRecordRead at e
  simp only [Host.Outcome.next.injEq] at e
  subst e
  try dsimp only
  repeat' first
    | with_reducible first | assumption | apply State.emit_keeps | apply State.modOch_keeps
    | intro _ | split

theorem execCopy_keeps (e : Nat) (f : Frame) (errs : List SectorErr) (h : Keeps a s) :
    ∀ t, (execCopy e f errs s) = .next t → Keeps a t := by
  intro t e
  unfold execCopy at e
  simp only [Host.Outcome.next.injEq] at e
  subst e
  refine State.ochFrame_keeps _ _ _ _ h fun s h => State.ochEnd_keeps (List.foldl _ _ _) _ _ _ ?_
  exact keeps_foldl_st h fun g i hg => State.stepEntry_keeps _ _ _ _ hg fun s hs => State.wr_keeps _ _ hs

theorem execFence_keeps (e : Nat) (f : Frame) (h : Keeps a s) :
    ∀ t, (execFence e f s) = .next t → Keeps a t := by
  intro t e
  unfold execFence at e
  simp only [Host.Outcome.next.injEq] at e
  subst e
  try dsimp only
  repeat' first
    | with_reducible first | assumption | apply State.ochFrame_keeps | apply State.ochStart_keeps
    | intro _

theorem execGather_keeps (e : Nat) (f : Frame) (errs : List SectorErr) (h : Keeps a s) :
    ∀ t, (execGather e f errs s) = .next t → Keeps a t := by
  intro t e
  unfold execGather at e
  simp only [Host.Outcome.next.injEq] at e
  subst e
  try dsimp only
  repeat' first
    | with_reducible first | assumption | apply State.ochFrame_keeps | apply State.ochEnd_keeps
                            | apply State.ochGather_keeps | apply State.ochFreeze_keeps
    | intro _ | split

theorem execOchreCommandComplete_keeps (e q tag : Nat) (h : Keeps a s) :
    ∀ t, (execOchreCommandComplete e q tag s) = .next t → Keeps a t := by
  intro t e
  unfold execOchreCommandComplete at e
  simp only [Host.Outcome.next.injEq] at e
  subst e
  try dsimp only
  repeat' first
    | with_reducible first | assumption | apply keeps_ite | apply State.ochComplete_keeps
    | intro _ | split

theorem execPool_keeps (e : Nat) (f : Frame) (errs : List SectorErr) (h : Keeps a s) :
    ∀ t, (execPool e f errs s) = .next t → Keeps a t := by
  intro t e
  unfold execPool at e
  simp only [Host.Outcome.next.injEq] at e
  subst e
  try dsimp only
  repeat' first
    | with_reducible first | assumption | apply State.ochFrame_keeps | apply State.ochEnd_keeps
                            | apply State.ochPool_keeps | apply State.ochFreeze_keeps
    | intro _ | split

theorem execRelease_keeps (e : Nat) (f : Frame) (h : Keeps a s) :
    ∀ t, (execRelease e f s) = .next t → Keeps a t := by
  intro t e
  unfold execRelease at e
  simp only [Host.Outcome.next.injEq] at e
  subst e
  try dsimp only
  repeat' first
    | with_reducible first | assumption | apply State.ochFrame_keeps | apply State.releaseJournal_keeps
                            | apply State.ochStart_keeps
    | intro _ | split

theorem execRestore_keeps (e : Nat) (f : Frame) (h : Keeps a s) :
    ∀ t, (execRestore e f s) = .next t → Keeps a t := by
  intro t e
  unfold execRestore at e
  simp only [Host.Outcome.next.injEq] at e
  subst e
  try dsimp only
  repeat' first
    | with_reducible first | assumption | apply State.ochFrame_keeps | apply State.restoreJournal_keeps
                            | apply State.ochStart_keeps
    | intro _ | split

theorem execUpdate_keeps (e : Nat) (f : Frame) (errs : List SectorErr) (h : Keeps a s) :
    ∀ t, (execUpdate e f errs s) = .next t → Keeps a t := by
  intro t e
  unfold execUpdate at e
  simp only [Host.Outcome.next.injEq] at e
  subst e
  try dsimp only
  repeat' first
    | with_reducible first | assumption | apply keeps_ite | apply State.ochFrame_keeps | apply State.ochUpdate_keeps
                            | apply State.fresh_keeps | apply State.ochStart_keeps | apply State.moduleFault_keeps
                            | apply State.sectorErrors_keeps | apply State.ochEnd_keeps | apply State.ochFreeze_keeps
    | intro _ | split

theorem State.advanceCounts_keeps (p r : Nat) (pl : Plan) (h : Keeps a s) :
    Keeps a (State.advanceCounts s p r pl) := by
  unfold State.advanceCounts
  try dsimp only
  repeat' first
    | with_reducible first | assumption | apply keeps_ite | apply State.modPart_keeps | apply State.modTableSt_keeps
                            | apply keeps_foldl | apply keeps_foldl_fst
    | intro _ | split

theorem State.advanceScales_keeps (p : Nat) (h : Keeps a s) :
    Keeps a (State.advanceScales s p) := by
  unfold State.advanceScales
  try dsimp only
  repeat' first
    | with_reducible first | assumption | apply keeps_ite | apply State.modPart_keeps | apply State.putF_keeps
    | intro _ | split

theorem State.ownReport_keeps (p : Nat) (r : CommitReport) (h : Keeps a s) :
    Keeps a (State.ownReport s p r) := by
  unfold State.ownReport
  try dsimp only
  repeat' first
    | with_reducible first | assumption | apply State.modPart_keeps | apply State.sendReport_keeps
    | intro _

theorem State.advanceStage_keeps (p x2 : Nat) (h : Keeps a s) :
    Keeps a (State.advanceStage s p x2) := by
  induction x2 generalizing s with
  | zero => exact h
  | succ n ih =>
    unfold State.advanceStage
    try dsimp only
    repeat' first
      | with_reducible first | apply ih | assumption | apply keeps_ite | apply State.ownReport_keeps
                              | apply State.putF_keeps
      | intro _ | split

theorem State.commitWatches_keeps (p r n : Nat) (pl : Plan) (h : Keeps a s) :
    Keeps a (State.commitWatches s p r n pl).1 := by
  unfold State.commitWatches
  try dsimp only
  repeat' first
    | with_reducible first | assumption | apply State.setWatches_keeps
    | intro _

theorem State.allWatches_keeps (p n : Nat) (pl : Plan) (h : Keeps a s) :
    Keeps a (State.allWatches s p n pl) := by
  unfold State.allWatches
  try dsimp only
  repeat' first
    | with_reducible first | assumption | apply keeps_ite | apply State.commitWatches_keeps | apply State.bump_keeps
                            | apply State.pevt_keeps | apply State.putF_keeps | apply State.bumpBy_keeps
                            | apply keeps_foldl | apply keeps_foldl_fst
    | intro _ | split

theorem State.beginRerun_keeps (p : Nat) (h : Keeps a s) :
    Keeps a (State.beginRerun s p) := by
  unfold State.beginRerun
  try dsimp only
  repeat' first
    | with_reducible first | assumption | apply keeps_ite | apply State.putF_keeps | apply State.modPart_keeps
                            | apply State.originOf_keeps | apply State.mendSectors_keeps
                            | apply State.restoreTile_keeps | apply keeps_foldl | apply keeps_foldl_fst
    | intro _ | split

theorem State.commitClips_keeps (p : Nat) (pl : Plan) (h : Keeps a s) :
    Keeps a (State.commitClips s p pl) := by
  unfold State.commitClips
  try dsimp only
  repeat' first
    | with_reducible first | assumption | apply keeps_ite | apply State.putF_keeps | apply State.bump_keeps
                            | apply keeps_foldl | apply keeps_foldl_fst
    | intro _ | split

theorem State.commitDigests_keeps (p r n : Nat) (pl : Plan) (h : Keeps a s) :
    Keeps a (State.commitDigests s p r n pl) := by
  unfold State.commitDigests
  try dsimp only
  repeat' first
    | with_reducible first | assumption | apply keeps_ite | apply State.wr_keeps | apply State.putF_keeps
    | intro _ | split

theorem State.commitCal_keeps (p : Nat) (pl : Plan) (h : Keeps a s) :
    Keeps a (State.commitCal s p pl) := by
  unfold State.commitCal
  try dsimp only
  repeat' first
    | with_reducible first | assumption | apply keeps_ite | apply State.wr_keeps | apply keeps_foldl
                            | apply keeps_foldl_fst
    | intro _ | split

theorem State.commitRows_keeps (p n : Nat) (pl : Plan) (h : Keeps a s) :
    Keeps a (State.commitRows s p n pl) := by
  unfold State.commitRows
  try dsimp only
  repeat' first
    | with_reducible first | assumption | apply keeps_ite | apply State.bumpBy_keeps | apply State.wrN_keeps
                            | apply State.putF_keeps | apply State.bump_keeps | apply keeps_foldl
                            | apply keeps_foldl_fst
    | intro _ | split

theorem State.releaseAll_keeps (p n : Nat) (h : Keeps a s) :
    Keeps a (State.releaseAll s p n) := by
  unfold State.releaseAll
  try dsimp only
  repeat' first
    | with_reducible first | assumption | apply keeps_ite | apply State.modOch_keeps | apply keeps_foldl
                            | apply keeps_foldl_fst
    | intro _ | split

theorem State.commitWindow_keeps (q n : Nat) (h : Keeps a s) :
    Keeps a (State.commitWindow s q n) := by
  unfold State.commitWindow
  try dsimp only
  repeat' first
    | with_reducible first | assumption | apply keeps_ite | apply State.signalQ_keeps | apply State.setQueue_keeps
                            | apply keeps_foldl | apply keeps_foldl_fst
    | intro _ | split

theorem State.freeIngest_keeps (p n : Nat) (h : Keeps a s) :
    Keeps a (State.freeIngest s p n) := by
  unfold State.freeIngest
  try dsimp only
  repeat' first
    | with_reducible first | assumption | apply State.modPart_keeps | apply keeps_foldl | apply keeps_foldl_fst
    | intro _

theorem State.nextStep_keeps (p n : Nat) (h : Keeps a s) :
    Keeps a (State.nextStep s p n) := by
  unfold State.nextStep
  try dsimp only
  repeat' first
    | with_reducible first | assumption | apply State.freeIngest_keeps | apply State.modPart_keeps
                            | apply State.putF_keeps
    | intro _

theorem State.commitDeltas_keeps (p n : Nat) (h : Keeps a s) :
    Keeps a (State.commitDeltas s p n) := by
  unfold State.commitDeltas
  try dsimp only
  repeat' first
    | with_reducible first | assumption | apply keeps_ite | apply State.putF_keeps | apply State.modPart_keeps
    | intro _ | split

theorem State.commit_keeps (p : Nat) (h : Keeps a s) :
    Keeps a (State.commit s p) := by
  unfold State.commit
  try dsimp only
  repeat' first
    | with_reducible first | assumption | apply keeps_ite | apply State.commitClips_keeps
                            | apply State.commitDigests_keeps | apply State.commitCal_keeps
                            | apply State.allWatches_keeps | apply State.commitRows_keeps
                            | apply State.advanceCounts_keeps | apply State.advanceScales_keeps
                            | apply State.releaseAll_keeps | apply State.restage_keeps | apply State.showSwaps_keeps
                            | apply State.switchRepls_keeps | apply State.switchMoves_keeps
                            | apply State.switchSwaps_keeps | apply State.writeManifest_keeps
                            | apply State.commitWindow_keeps | apply State.nextStep_keeps
                            | apply State.commitDeltas_keeps | apply State.reschedule_keeps
                            | apply State.applyMap_keeps | apply State.modPart_keeps | apply State.planStop_keeps
                            | apply State.rollback_keeps | apply keeps_foldl | apply keeps_foldl_fst
    | intro _ | split

theorem State.forwardFault_keeps (p : Nat) (r : CommitReport) (h : Keeps a s) :
    Keeps a (State.forwardFault s p r) := by
  unfold State.forwardFault
  try dsimp only
  repeat' first
    | with_reducible first | assumption | apply State.sendReport_keeps | apply keeps_foldl | apply keeps_foldl_fst
    | intro _

theorem State.lateReport_keeps (p : Nat) (r : CommitReport) (h : Keeps a s) :
    Keeps a (State.lateReport s p r) := by
  unfold State.lateReport
  try dsimp only
  repeat' first
    | with_reducible first | assumption | apply keeps_ite | apply State.moduleFault_keeps | apply State.bump_keeps
    | intro _ | split

theorem State.noteNext_keeps (p : Nat) (r : CommitReport) (h : Keeps a s) :
    Keeps a (State.noteNext s p r) := by
  unfold State.noteNext
  try dsimp only
  repeat' first
    | with_reducible first | assumption | apply keeps_ite | apply State.modPart_keeps
    | intro _ | split

theorem State.takeReport_keeps (p : Nat) (r : CommitReport) (h : Keeps a s) :
    Keeps a (State.takeReport s p r) := by
  unfold State.takeReport
  try dsimp only
  repeat' first
    | with_reducible first | assumption | apply keeps_ite | apply State.rollback_keeps
                            | apply State.forwardFault_keeps | apply State.modPart_keeps
                            | apply State.advanceStage_keeps
    | intro _ | split

theorem State.receiveReport_keeps (p : Nat) (r : CommitReport) (h : Keeps a s) :
    Keeps a (State.receiveReport s p r) := by
  unfold State.receiveReport
  try dsimp only
  repeat' first
    | with_reducible first | assumption | apply keeps_ite | apply State.bump_keeps | apply State.wr_keeps
                            | apply State.noteNext_keeps | apply State.forwardFault_keeps
                            | apply State.lateReport_keeps | apply State.takeReport_keeps
    | intro _ | split

theorem execCommitBeat_keeps (p : Nat) (h : Keeps a s) :
    ∀ t, (execCommitBeat p s) = .next t → Keeps a t := by
  intro t e
  unfold execCommitBeat at e
  simp only [Host.Outcome.next.injEq] at e
  subst e
  try dsimp only
  repeat' first
    | with_reducible first | assumption | apply keeps_ite | apply State.commit_keeps
    | intro _ | split

theorem execCommitReportReceive_keeps (p : Nat) (r : CommitReport) (h : Keeps a s) :
    ∀ t, (execCommitReportReceive p r s) = .next t → Keeps a t := by
  unfold execCommitReportReceive
  intro t e
  simp only [Host.Outcome.next.injEq] at e
  subst e
  exact keeps_ite h fun _ => State.receiveReport_keeps _ _ (State.arrived_keeps _ _ _ h)

theorem execCommitReportSend_keeps (p : Nat) (h : Keeps a s) :
    ∀ t, (execCommitReportSend p s) = .next t → Keeps a t := by
  intro t e
  unfold execCommitReportSend at e
  simp only [Host.Outcome.next.injEq] at e
  subst e
  try dsimp only
  repeat' first
    | with_reducible first | assumption | apply keeps_ite | apply State.advanceStage_keeps
                            | apply State.ownReport_keeps
    | intro _ | split

theorem execRerunOrigin_keeps (p : Nat) (h : Keeps a s) :
    ∀ t, (execRerunOrigin p s) = .next t → Keeps a t := by
  intro t e
  unfold execRerunOrigin at e
  simp only [Host.Outcome.next.injEq] at e
  subst e
  try dsimp only
  repeat' first
    | with_reducible first | assumption | apply keeps_ite | apply State.beginRerun_keeps
    | intro _ | split

end Sys2Proof.Machine
end

