-- ==== Sys2Proof/Laws/KeepsTile.lean ====
section
/-! SUPPORT. What the functions and meanings of
the tile, security, power, memory units, the stream port and test keep:
for each, the law that `Keeps` holds of the state it makes if it holds of the state it is given. -/

set_option linter.unusedTactic false
set_option linter.unreachableTactic false
set_option linter.unusedVariables false

namespace Sys2Proof.Machine

variable {a s : State}

theorem State.mulWord_keeps (g : Nat) (w : Word) (m : MulMode) (op : Nat) (h : Keeps a s) :
    Keeps a (State.mulWord s g w m op) := by
  unfold State.mulWord
  try dsimp only
  repeat' first
    | with_reducible first | assumption | apply keeps_ite | apply State.issueWord_keeps
                            | apply State.noteHazard_keeps | apply State.inFlight_keeps | apply State.modTile_keeps
    | intro _ | split

theorem State.usePort_keeps (g : Nat) (w : Word) (occ lat : Nat) (h : Keeps a s) :
    Keeps a (State.usePort s g w occ lat) := by
  unfold State.usePort
  try dsimp only
  repeat' first
    | with_reducible first | assumption | apply State.modTile_keeps
    | intro _

theorem State.storeAct_keeps (g : Nat) (w : Word) (q : Bool) (h : Keeps a s) :
    Keeps a (State.storeAct s g w q) := by
  unfold State.storeAct
  try dsimp only
  repeat' first
    | with_reducible first | assumption | apply keeps_ite | apply State.noteHazard_keeps | apply State.inFlight_keeps
                            | apply State.owe_keeps | apply State.usePort_keeps | apply keeps_foldl
                            | apply keeps_foldl_fst
    | intro _ | split

theorem State.storeWord_keeps (g : Nat) (w : Word) (op : Nat) (q : Bool) (h : Keeps a s) :
    Keeps a (State.storeWord s g w op q) := by
  unfold State.storeWord
  try dsimp only
  repeat' first
    | with_reducible first | assumption | apply State.issueWord_keeps | apply State.storeAct_keeps
    | intro _

theorem execMxLd_keeps (g : Nat) (w : Word) (h : Keeps a s) :
    ∀ t, (execMxLd g w s) = .next t → Keeps a t := by
  intro t e
  unfold execMxLd at e
  simp only [Host.Outcome.next.injEq] at e
  subst e
  try dsimp only
  repeat' first
    | with_reducible first | assumption | apply State.issueWord_keeps | apply State.noteHazard_keeps
                            | apply State.usePort_keeps | apply State.inFlight_keeps
    | intro _

theorem execMxMul_keeps (g : Nat) (w : Word) (h : Keeps a s) :
    ∀ t, (execMxMul g w s) = .next t → Keeps a t := by
  intro t e
  unfold execMxMul at e
  simp only [Host.Outcome.next.injEq] at e
  subst e
  try dsimp only
  repeat' first
    | with_reducible first | assumption | apply State.mulWord_keeps
    | intro _

theorem execMxMultA_keeps (g : Nat) (w : Word) (h : Keeps a s) :
    ∀ t, (execMxMultA g w s) = .next t → Keeps a t := by
  intro t e
  unfold execMxMultA at e
  simp only [Host.Outcome.next.injEq] at e
  subst e
  try dsimp only
  repeat' first
    | with_reducible first | assumption | apply State.mulWord_keeps
    | intro _

theorem execMxMultB_keeps (g : Nat) (w : Word) (h : Keeps a s) :
    ∀ t, (execMxMultB g w s) = .next t → Keeps a t := by
  intro t e
  unfold execMxMultB at e
  simp only [Host.Outcome.next.injEq] at e
  subst e
  try dsimp only
  repeat' first
    | with_reducible first | assumption | apply State.mulWord_keeps
    | intro _

theorem execMxSt_keeps (g : Nat) (w : Word) (h : Keeps a s) :
    ∀ t, (execMxSt g w s) = .next t → Keeps a t := by
  intro t e
  unfold execMxSt at e
  simp only [Host.Outcome.next.injEq] at e
  subst e
  try dsimp only
  repeat' first
    | with_reducible first | assumption | apply State.storeWord_keeps
    | intro _

theorem execMxStq_keeps (g : Nat) (w : Word) (h : Keeps a s) :
    ∀ t, (execMxStq g w s) = .next t → Keeps a t := by
  intro t e
  unfold execMxStq at e
  simp only [Host.Outcome.next.injEq] at e
  subst e
  try dsimp only
  repeat' first
    | with_reducible first | assumption | apply State.storeWord_keeps
    | intro _

theorem execMxZero_keeps (g : Nat) (w : Word) (h : Keeps a s) :
    ∀ t, (execMxZero g w s) = .next t → Keeps a t := by
  intro t e
  unfold execMxZero at e
  simp only [Host.Outcome.next.injEq] at e
  subst e
  try dsimp only
  repeat' first
    | with_reducible first | assumption | apply State.issueWord_keeps | apply State.usePort_keeps
                            | apply State.inFlight_keeps
    | intro _

theorem State.cfgAct_keeps (g : Nat) (w : Word) (h : Keeps a s) :
    Keeps a (State.cfgAct s g w) := by
  unfold State.cfgAct
  try dsimp only
  repeat' first
    | with_reducible first | assumption | apply State.noteHazard_keeps | apply State.inFlight_keeps
                            | apply State.modTile_keeps
    | intro _

theorem State.runAct_keeps (g : Nat) (w : Word) (h : Keeps a s) :
    Keeps a (State.runAct s g w) := by
  unfold State.runAct
  try dsimp only
  repeat' first
    | with_reducible first | assumption | apply keeps_ite | apply State.noteHazard_keeps | apply State.inFlight_keeps
                            | apply State.modTile_keeps | apply State.owe_keeps | apply keeps_foldl
                            | apply keeps_foldl_fst
    | intro _ | split

theorem execVcCfg_keeps (g : Nat) (w : Word) (h : Keeps a s) :
    ∀ t, (execVcCfg g w s) = .next t → Keeps a t := by
  intro t e
  unfold execVcCfg at e
  simp only [Host.Outcome.next.injEq] at e
  subst e
  try dsimp only
  repeat' first
    | with_reducible first | assumption | apply State.issueWord_keeps | apply State.cfgAct_keeps
    | intro _

theorem execVcRun_keeps (g : Nat) (w : Word) (h : Keeps a s) :
    ∀ t, (execVcRun g w s) = .next t → Keeps a t := by
  intro t e
  unfold execVcRun at e
  simp only [Host.Outcome.next.injEq] at e
  subst e
  try dsimp only
  repeat' first
    | with_reducible first | assumption | apply State.issueWord_keeps | apply State.runAct_keeps
    | intro _

theorem State.arithWord_keeps (g : Nat) (w : Word) (op lat : Nat) (f : Word → Word → Word) (h : Keeps a s) :
    Keeps a (State.arithWord s g w op lat f) := by
  unfold State.arithWord
  try dsimp only
  repeat' first
    | with_reducible first | assumption | apply State.issueWord_keeps | apply State.inFlight_keeps
                            | apply State.noteHazard_keeps
    | intro _

theorem State.cmpWord_keeps (g : Nat) (w : Word) (op : Nat) (f : Word → Word → Bool) (h : Keeps a s) :
    Keeps a (State.cmpWord s g w op f) := by
  unfold State.cmpWord
  try dsimp only
  repeat' first
    | with_reducible first | assumption | apply State.issueWord_keeps | apply State.inFlight_keeps
                            | apply State.noteHazard_keeps
    | intro _

theorem State.predWord_keeps (g : Nat) (w : Word) (op : Nat) (f : Bool → Bool → Bool) (h : Keeps a s) :
    Keeps a (State.predWord s g w op f) := by
  unfold State.predWord
  try dsimp only
  repeat' first
    | with_reducible first | assumption | apply State.issueWord_keeps | apply State.inFlight_keeps
                            | apply State.noteHazard_keeps
    | intro _

theorem execAdd_keeps (g : Nat) (w : Word) (h : Keeps a s) :
    ∀ t, (execAdd g w s) = .next t → Keeps a t := by
  intro t e
  unfold execAdd at e
  simp only [Host.Outcome.next.injEq] at e
  subst e
  try dsimp only
  repeat' first
    | with_reducible first | assumption | apply State.arithWord_keeps
    | intro _

theorem execAnd_keeps (g : Nat) (w : Word) (h : Keeps a s) :
    ∀ t, (execAnd g w s) = .next t → Keeps a t := by
  intro t e
  unfold execAnd at e
  simp only [Host.Outcome.next.injEq] at e
  subst e
  try dsimp only
  repeat' first
    | with_reducible first | assumption | apply State.arithWord_keeps
    | intro _

theorem execCmpEq_keeps (g : Nat) (w : Word) (h : Keeps a s) :
    ∀ t, (execCmpEq g w s) = .next t → Keeps a t := by
  intro t e
  unfold execCmpEq at e
  simp only [Host.Outcome.next.injEq] at e
  subst e
  try dsimp only
  repeat' first
    | with_reducible first | assumption | apply State.cmpWord_keeps
    | intro _

theorem execCmpLt_keeps (g : Nat) (w : Word) (h : Keeps a s) :
    ∀ t, (execCmpLt g w s) = .next t → Keeps a t := by
  intro t e
  unfold execCmpLt at e
  simp only [Host.Outcome.next.injEq] at e
  subst e
  try dsimp only
  repeat' first
    | with_reducible first | assumption | apply State.cmpWord_keeps
    | intro _

theorem execCmpLtu_keeps (g : Nat) (w : Word) (h : Keeps a s) :
    ∀ t, (execCmpLtu g w s) = .next t → Keeps a t := by
  intro t e
  unfold execCmpLtu at e
  simp only [Host.Outcome.next.injEq] at e
  subst e
  try dsimp only
  repeat' first
    | with_reducible first | assumption | apply State.cmpWord_keeps
    | intro _

theorem execCmpNe_keeps (g : Nat) (w : Word) (h : Keeps a s) :
    ∀ t, (execCmpNe g w s) = .next t → Keeps a t := by
  intro t e
  unfold execCmpNe at e
  simp only [Host.Outcome.next.injEq] at e
  subst e
  try dsimp only
  repeat' first
    | with_reducible first | assumption | apply State.cmpWord_keeps
    | intro _

theorem execMax_keeps (g : Nat) (w : Word) (h : Keeps a s) :
    ∀ t, (execMax g w s) = .next t → Keeps a t := by
  intro t e
  unfold execMax at e
  simp only [Host.Outcome.next.injEq] at e
  subst e
  try dsimp only
  repeat' first
    | with_reducible first | assumption | apply keeps_ite | apply State.arithWord_keeps
    | intro _ | split

theorem execMin_keeps (g : Nat) (w : Word) (h : Keeps a s) :
    ∀ t, (execMin g w s) = .next t → Keeps a t := by
  intro t e
  unfold execMin at e
  simp only [Host.Outcome.next.injEq] at e
  subst e
  try dsimp only
  repeat' first
    | with_reducible first | assumption | apply keeps_ite | apply State.arithWord_keeps
    | intro _ | split

theorem execMul_keeps (g : Nat) (w : Word) (h : Keeps a s) :
    ∀ t, (execMul g w s) = .next t → Keeps a t := by
  intro t e
  unfold execMul at e
  simp only [Host.Outcome.next.injEq] at e
  subst e
  try dsimp only
  repeat' first
    | with_reducible first | assumption | apply State.arithWord_keeps
    | intro _

theorem execOr_keeps (g : Nat) (w : Word) (h : Keeps a s) :
    ∀ t, (execOr g w s) = .next t → Keeps a t := by
  intro t e
  unfold execOr at e
  simp only [Host.Outcome.next.injEq] at e
  subst e
  try dsimp only
  repeat' first
    | with_reducible first | assumption | apply State.arithWord_keeps
    | intro _

theorem execPand_keeps (g : Nat) (w : Word) (h : Keeps a s) :
    ∀ t, (execPand g w s) = .next t → Keeps a t := by
  intro t e
  unfold execPand at e
  simp only [Host.Outcome.next.injEq] at e
  subst e
  try dsimp only
  repeat' first
    | with_reducible first | assumption | apply State.predWord_keeps
    | intro _

theorem execPor_keeps (g : Nat) (w : Word) (h : Keeps a s) :
    ∀ t, (execPor g w s) = .next t → Keeps a t := by
  intro t e
  unfold execPor at e
  simp only [Host.Outcome.next.injEq] at e
  subst e
  try dsimp only
  repeat' first
    | with_reducible first | assumption | apply State.predWord_keeps
    | intro _

theorem execPxor_keeps (g : Nat) (w : Word) (h : Keeps a s) :
    ∀ t, (execPxor g w s) = .next t → Keeps a t := by
  intro t e
  unfold execPxor at e
  simp only [Host.Outcome.next.injEq] at e
  subst e
  try dsimp only
  repeat' first
    | with_reducible first | assumption | apply State.predWord_keeps
    | intro _

theorem execShl_keeps (g : Nat) (w : Word) (h : Keeps a s) :
    ∀ t, (execShl g w s) = .next t → Keeps a t := by
  intro t e
  unfold execShl at e
  simp only [Host.Outcome.next.injEq] at e
  subst e
  try dsimp only
  repeat' first
    | with_reducible first | assumption | apply State.arithWord_keeps
    | intro _

theorem execShr_keeps (g : Nat) (w : Word) (h : Keeps a s) :
    ∀ t, (execShr g w s) = .next t → Keeps a t := by
  intro t e
  unfold execShr at e
  simp only [Host.Outcome.next.injEq] at e
  subst e
  try dsimp only
  repeat' first
    | with_reducible first | assumption | apply State.arithWord_keeps
    | intro _

theorem execSra_keeps (g : Nat) (w : Word) (h : Keeps a s) :
    ∀ t, (execSra g w s) = .next t → Keeps a t := by
  intro t e
  unfold execSra at e
  simp only [Host.Outcome.next.injEq] at e
  subst e
  try dsimp only
  repeat' first
    | with_reducible first | assumption | apply State.arithWord_keeps
    | intro _

theorem execSub_keeps (g : Nat) (w : Word) (h : Keeps a s) :
    ∀ t, (execSub g w s) = .next t → Keeps a t := by
  intro t e
  unfold execSub at e
  simp only [Host.Outcome.next.injEq] at e
  subst e
  try dsimp only
  repeat' first
    | with_reducible first | assumption | apply State.arithWord_keeps
    | intro _

theorem execXor_keeps (g : Nat) (w : Word) (h : Keeps a s) :
    ∀ t, (execXor g w s) = .next t → Keeps a t := by
  intro t e
  unfold execXor at e
  simp only [Host.Outcome.next.injEq] at e
  subst e
  try dsimp only
  repeat' first
    | with_reducible first | assumption | apply State.arithWord_keeps
    | intro _

theorem State.copyAct_keeps (g : Nat) (w : Word) (h : Keeps a s) :
    Keeps a (State.copyAct s g w) := by
  unfold State.copyAct
  try dsimp only
  repeat' first
    | with_reducible first | assumption | apply State.noteHazard_keeps | apply State.inFlight_keeps
                            | apply State.modTile_keeps | apply keeps_foldl | apply keeps_foldl_fst
    | intro _

theorem State.memWord_keeps (g : Nat) (w : Word) (op n : Nat) (rs : Tile → Nat → State.Reads) (act : State → State) (h : Keeps a s) (hact : ∀ s, Keeps a s → Keeps a (act s)) :
    Keeps a (State.memWord s g w op n rs act) := by
  unfold State.memWord
  try dsimp only
  repeat' first
    | with_reducible first | assumption | apply hact | apply State.issueWord_keeps | apply State.noteHazard_keeps
    | intro _

theorem execXdLd_keeps (g : Nat) (w : Word) (h : Keeps a s) :
    ∀ t, (execXdLd g w s) = .next t → Keeps a t := by
  intro t e
  unfold execXdLd at e
  simp only [Host.Outcome.next.injEq] at e
  subst e
  try dsimp only
  repeat' first
    | with_reducible first | assumption | apply State.memWord_keeps | apply State.inFlight_keeps
    | intro _

theorem execXdSet_keeps (g : Nat) (w : Word) (h : Keeps a s) :
    ∀ t, (execXdSet g w s) = .next t → Keeps a t := by
  intro t e
  unfold execXdSet at e
  simp only [Host.Outcome.next.injEq] at e
  subst e
  try dsimp only
  repeat' first
    | with_reducible first | assumption | apply State.issueWord_keeps | apply State.inFlight_keeps
                            | apply State.noteHazard_keeps
    | intro _

theorem execXdSt_keeps (g : Nat) (w : Word) (h : Keeps a s) :
    ∀ t, (execXdSt g w s) = .next t → Keeps a t := by
  intro t e
  unfold execXdSt at e
  simp only [Host.Outcome.next.injEq] at e
  subst e
  try dsimp only
  repeat' first
    | with_reducible first | assumption | apply State.memWord_keeps | apply State.inFlight_keeps
    | intro _

theorem execXmCopy_keeps (g : Nat) (w : Word) (h : Keeps a s) :
    ∀ t, (execXmCopy g w s) = .next t → Keeps a t := by
  intro t e
  unfold execXmCopy at e
  simp only [Host.Outcome.next.injEq] at e
  subst e
  try dsimp only
  repeat' first
    | with_reducible first | assumption | apply keeps_ite | apply State.issueWord_keeps | apply State.copyAct_keeps
    | intro _ | split

theorem execXmDma_keeps (g : Nat) (w : Word) (h : Keeps a s) :
    ∀ t, (execXmDma g w s) = .next t → Keeps a t := by
  intro t e
  unfold execXmDma at e
  simp only [Host.Outcome.next.injEq] at e
  subst e
  try dsimp only
  repeat' first
    | with_reducible first | assumption | apply State.issueWord_keeps | apply State.inFlight_keeps
                            | apply State.noteHazard_keeps
    | intro _

theorem execXsLd_keeps (g : Nat) (w : Word) (h : Keeps a s) :
    ∀ t, (execXsLd g w s) = .next t → Keeps a t := by
  intro t e
  unfold execXsLd at e
  simp only [Host.Outcome.next.injEq] at e
  subst e
  try dsimp only
  repeat' first
    | with_reducible first | assumption | apply State.memWord_keeps | apply State.inFlight_keeps
    | intro _

theorem execXsSt_keeps (g : Nat) (w : Word) (h : Keeps a s) :
    ∀ t, (execXsSt g w s) = .next t → Keeps a t := by
  intro t e
  unfold execXsSt at e
  simp only [Host.Outcome.next.injEq] at e
  subst e
  try dsimp only
  repeat' first
    | with_reducible first | assumption | apply State.memWord_keeps | apply State.inFlight_keeps
    | intro _

theorem State.arm_keeps (g token : Nat) (h : Keeps a s) :
    Keeps a (State.arm s g token) := by
  unfold State.arm
  try dsimp only
  repeat' first
    | with_reducible first | assumption | apply State.modTile_keeps
    | intro _

theorem State.startWait_keeps (g : Nat) (x : Wait) (h : Keeps a s) :
    Keeps a (State.startWait s g x) := by
  unfold State.startWait
  try dsimp only
  repeat' first
    | with_reducible first | assumption | apply State.modTile_keeps | apply State.putF_keeps
    | intro _

theorem State.nextAt_keeps (g c : Nat) (h : Keeps a s) :
    Keeps a (State.nextAt s g c) := by
  unfold State.nextAt
  try dsimp only
  repeat' first
    | with_reducible first | assumption | apply State.modTile_keeps
    | intro _

theorem State.beatWait_keeps (g target : Nat) (h : Keeps a s) :
    Keeps a (State.beatWait s g target) := by
  unfold State.beatWait
  try dsimp only
  repeat' first
    | with_reducible first | assumption | apply keeps_ite | apply State.startWait_keeps | apply State.nextAt_keeps
                            | apply State.bump_keeps
    | intro _ | split

theorem State.ctlWord_keeps (g : Nat) (w : Word) (op : Nat) (ok : Bool) (r : Option Nat) (dyn : State → Option Nat) (act : State → State) (h : Keeps a s) (hact : ∀ s, Keeps a s → Keeps a (act s)) :
    Keeps a (State.ctlWord s g w op ok r dyn act) := by
  unfold State.ctlWord
  try dsimp only
  repeat' first
    | with_reducible first | assumption | apply hact | apply keeps_ite | apply State.issueWord_keeps
                            | apply State.noteHazard_keeps
    | intro _ | split

theorem State.endWait_keeps (g c : Nat) (h : Keeps a s) :
    Keeps a (State.endWait s g c) := by
  unfold State.endWait
  try dsimp only
  repeat' first
    | with_reducible first | assumption | apply State.modTile_keeps | apply State.putF_keeps
    | intro _

theorem State.haltTile_keeps (g : Nat) (h : Keeps a s) :
    Keeps a (State.haltTile s g) := by
  unfold State.haltTile
  try dsimp only
  repeat' first
    | with_reducible first | assumption | apply keeps_ite | apply State.modTile_keeps | apply State.putF_keeps
                            | apply State.modPart_keeps | apply State.taskDone_keeps | apply State.stashDone_keeps
    | intro _ | split

theorem execCsArrive_keeps (g : Nat) (w : Word) (h : Keeps a s) :
    ∀ t, (execCsArrive g w s) = .next t → Keeps a t := by
  intro t e
  unfold execCsArrive at e
  simp only [Host.Outcome.next.injEq] at e
  subst e
  try dsimp only
  repeat' first
    | with_reducible first | assumption | apply State.ctlWord_keeps | apply State.arm_keeps
    | intro _

theorem execCsBr_keeps (g : Nat) (w : Word) (h : Keeps a s) :
    ∀ t, (execCsBr g w s) = .next t → Keeps a t := by
  intro t e
  unfold execCsBr at e
  simp only [Host.Outcome.next.injEq] at e
  subst e
  try dsimp only
  repeat' first
    | with_reducible first | assumption | apply State.ctlWord_keeps | apply State.nextAt_keeps
                            | apply State.modTile_keeps
    | intro _

theorem execCsHalt_keeps (g : Nat) (w : Word) (h : Keeps a s) :
    ∀ t, (execCsHalt g w s) = .next t → Keeps a t := by
  intro t e
  unfold execCsHalt at e
  simp only [Host.Outcome.next.injEq] at e
  subst e
  try dsimp only
  repeat' first
    | with_reducible first | assumption | apply keeps_ite | apply State.ctlWord_keeps | apply State.haltTile_keeps
                            | apply State.arm_keeps
    | intro _ | split

theorem execCsLoop_keeps (g : Nat) (w : Word) (h : Keeps a s) :
    ∀ t, (execCsLoop g w s) = .next t → Keeps a t := by
  intro t e
  unfold execCsLoop at e
  simp only [Host.Outcome.next.injEq] at e
  subst e
  try dsimp only
  repeat' first
    | with_reducible first | assumption | apply keeps_ite | apply State.ctlWord_keeps | apply State.nextAt_keeps
                            | apply State.modTile_keeps
    | intro _ | split

theorem execCsWaitBeat_keeps (g : Nat) (w : Word) (h : Keeps a s) :
    ∀ t, (execCsWaitBeat g w s) = .next t → Keeps a t := by
  intro t e
  unfold execCsWaitBeat at e
  simp only [Host.Outcome.next.injEq] at e
  subst e
  try dsimp only
  repeat' first
    | with_reducible first | assumption | apply keeps_ite | apply State.ctlWord_keeps | apply State.beatWait_keeps
    | intro _ | split

theorem execCsWaitCyc_keeps (g : Nat) (w : Word) (h : Keeps a s) :
    ∀ t, (execCsWaitCyc g w s) = .next t → Keeps a t := by
  intro t e
  unfold execCsWaitCyc at e
  simp only [Host.Outcome.next.injEq] at e
  subst e
  try dsimp only
  repeat' first
    | with_reducible first | assumption | apply State.ctlWord_keeps | apply State.nextAt_keeps
                            | apply State.modTile_keeps
    | intro _

theorem execCsWaitTok_keeps (g : Nat) (w : Word) (h : Keeps a s) :
    ∀ t, (execCsWaitTok g w s) = .next t → Keeps a t := by
  intro t e
  unfold execCsWaitTok at e
  simp only [Host.Outcome.next.injEq] at e
  subst e
  try dsimp only
  repeat' first
    | with_reducible first | assumption | apply keeps_ite | apply State.ctlWord_keeps | apply State.nextAt_keeps
                            | apply State.waited_keeps | apply State.startWait_keeps
    | intro _ | split

theorem State.doe_keeps (act : State → State) (h : Keeps a s) (hact : ∀ s, Keeps a s → Keeps a (act s)) :
    Keeps a (State.doe s act) := by
  unfold State.doe
  try dsimp only
  repeat' first
    | with_reducible first | assumption | apply hact | apply keeps_ite
    | intro _ | split

theorem State.doeErr_keeps (stream code : Nat) (h : Keeps a s) :
    Keeps a (State.doeErr s stream code) := by
  unfold State.doeErr
  try dsimp only
  repeat' first
    | with_reducible first | assumption | apply State.emit_keeps
    | intro _

theorem State.ownerCmd_keeps {a : State} {s : State} (c : OwnerCmd) (lc : Nat) (needSig needIdle : Bool) (full : State → Bool)
    (act : State → State) (h : Keeps a s) (hact : ∀ s, Keeps a s → s.ident.lc = lc → Keeps a (act s)) :
    Keeps a (s.ownerCmd c lc needSig needIdle full act) := by
  unfold State.ownerCmd
  refine State.doe_keeps _ h fun s h => ?_
  dsimp only
  have hn := keeps_ident h { s.ident with nonce := none } (fusesFrom_of_same rfl rfl rfl rfl)
  split
  · exact State.doeErr_keeps _ _ hn
  · rename_i hlc
    split
    · exact State.doeErr_keeps _ _ hn
    · split
      · exact State.doeErr_keeps _ _ hn
      · split
        · exact State.doeErr_keeps _ _ hn
        · exact State.emit_keeps _ (hact _ hn (Decidable.not_not.mp hlc))

theorem State.revokeActive_keeps (h : Keeps a s) :
    Keeps a (State.revokeActive s) := by
  unfold State.revokeActive
  refine keeps_ident h _ ?_
  have : ∀ l, slotsFrom l (State.revokeActive.go l) = true := by
    intro l
    induction l with
    | nil => rfl
    | cons o l ih =>
      unfold State.revokeActive.go
      split
      · simp [slotsFrom, ih]
      · simp [slotsFrom, slotsFrom_refl]
  simp [Ident.fusesFrom, this]

theorem execDeploy_keeps (c : OwnerCmd) (h : Keeps a s) :
    ∀ t, (execDeploy c s) = .next t → Keeps a t := by
  intro t e
  unfold execDeploy at e
  simp only [Host.Outcome.next.injEq] at e
  subst e
  refine State.ownerCmd_keeps _ _ _ _ _ _ h fun s h hl => State.setLifeCycle_keeps _ h ?_
  simp [Ident.fusesFrom, slotsFrom_refl, hl]

theorem execGetChain_keeps (stream : Nat) (h : Keeps a s) :
    ∀ t, (execGetChain stream s) = .next t → Keeps a t := by
  intro t e
  unfold execGetChain at e
  simp only [Host.Outcome.next.injEq] at e
  subst e
  try dsimp only
  repeat' first
    | with_reducible first | assumption | apply keeps_ite | apply State.doe_keeps | apply State.doeErr_keeps
                            | apply State.emit_keeps | apply State.setIde_keeps
    | intro _ | split

theorem execGetNonce_keeps (h : Keeps a s) :
    ∀ t, (execGetNonce s) = .next t → Keeps a t := by
  intro t e
  unfold execGetNonce at e
  simp only [Host.Outcome.next.injEq] at e
  subst e
  refine State.doe_keeps _ h fun s h => ?_
  refine keeps_ite (State.emit_keeps _ ?_) fun _ => h
  exact keeps_ident h _ (fusesFrom_of_same rfl rfl rfl rfl)

theorem execGetReport_keeps (nonce : BitVec 512) (h : Keeps a s) :
    ∀ t, (execGetReport nonce s) = .next t → Keeps a t := by
  intro t e
  unfold execGetReport at e
  simp only [Host.Outcome.next.injEq] at e
  subst e
  try dsimp only
  repeat' first
    | with_reducible first | assumption | apply State.doe_keeps | apply State.emit_keeps
    | intro _

theorem execIdeStop_keeps (stream : Nat) (h : Keeps a s) :
    ∀ t, (execIdeStop stream s) = .next t → Keeps a t := by
  intro t e
  unfold execIdeStop at e
  simp only [Host.Outcome.next.injEq] at e
  subst e
  try dsimp only
  repeat' first
    | with_reducible first | assumption | apply keeps_ite | apply State.doe_keeps | apply State.doeErr_keeps
                            | apply State.emit_keeps
    | intro _ | split | (fail_if_no_progress (with_reducible apply keeps_plain))

theorem execKemKey_keeps (stream : Nat) (ekey : List Byte) (nonce : BitVec 256) (h : Keeps a s) :
    ∀ t, (execKemKey stream ekey nonce s) = .next t → Keeps a t := by
  intro t e
  unfold execKemKey at e
  simp only [Host.Outcome.next.injEq] at e
  subst e
  refine State.doe_keeps _ h fun s h => ?_
  have hi := keeps_ident h { s.ident with drbg := s.ident.drbg + 1 } (fusesFrom_of_same rfl rfl rfl rfl)
  repeat' first
    | with_reducible first | assumption | apply keeps_ite | apply State.doe_keeps | apply State.doeErr_keeps
                            | apply State.setIde_keeps | apply State.emit_keeps
    | intro _ | split | (fail_if_no_progress (with_reducible apply keeps_plain))

theorem execKeyGo_keeps (stream k : Nat) (h : Keeps a s) :
    ∀ t, (execKeyGo stream k s) = .next t → Keeps a t := by
  intro t e
  unfold execKeyGo at e
  simp only [Host.Outcome.next.injEq] at e
  subst e
  try dsimp only
  repeat' first
    | with_reducible first | assumption | apply keeps_ite | apply State.doe_keeps | apply State.doeErr_keeps
                            | apply State.setIde_keeps | apply State.emit_keeps
    | intro _ | split

theorem execReleaseOwner_keeps (c : OwnerCmd) (h : Keeps a s) :
    ∀ t, (execReleaseOwner c s) = .next t → Keeps a t := by
  intro t e
  unfold execReleaseOwner at e
  simp only [Host.Outcome.next.injEq] at e
  subst e
  exact State.ownerCmd_keeps _ _ _ _ _ _ h fun s h _ =>
    State.showIdent_keeps (State.issueAlias_keeps (State.revokeActive_keeps h))

theorem execReturnLc_keeps (c : OwnerCmd) (h : Keeps a s) :
    ∀ t, (execReturnLc c s) = .next t → Keeps a t := by
  intro t e
  unfold execReturnLc at e
  simp only [Host.Outcome.next.injEq] at e
  subst e
  refine State.ownerCmd_keeps _ _ _ _ _ _ h fun s h hl => State.setLifeCycle_keeps _ (State.revokeActive_keeps h) ?_
  have : s.revokeActive.ident.lc = 2 := hl
  simp [Ident.fusesFrom, slotsFrom_refl, this]

theorem execScrap_keeps (c : OwnerCmd) (h : Keeps a s) :
    ∀ t, (execScrap c s) = .next t → Keeps a t := by
  intro t e
  unfold execScrap at e
  simp only [Host.Outcome.next.injEq] at e
  subst e
  refine State.ownerCmd_keeps _ _ _ _ _ _ h fun s h hl => ?_
  unfold State.setLifeCycle
  refine State.showIdent_keeps (State.deriveAlias_keeps (State.wipeLid_keeps (keeps_ident h { s.ident with secret := BitVec.allOnes 256, lc := 4 } ?_)))
  simp only [Ident.fusesFrom, slotsFrom_refl, hl, BitVec.allOnes_and, Bool.and_eq_true, Bool.or_eq_true, decide_eq_true_eq]
  exact ⟨⟨⟨⟨by decide, Nat.le_refl _⟩, trivial⟩, trivial⟩, Or.inr (by decide)⟩

theorem execSetOwner_keeps (c : OwnerCmd) (h : Keeps a s) :
    ∀ t, (execSetOwner c s) = .next t → Keeps a t := by
  intro t e
  unfold execSetOwner at e
  simp only [Host.Outcome.next.injEq] at e
  subst e
  refine State.ownerCmd_keeps _ _ _ _ _ _ h fun s h _ => ?_
  split
  · exact keeps_ident h _ (fusesFrom_of_same rfl rfl rfl rfl)
  · refine State.showIdent_keeps (State.issueAlias_keeps (keeps_ident (keeps_ident (State.revokeActive_keeps h) { s.revokeActive.ident with slots := s.revokeActive.ident.slots ++ [{ key := shake512 c.key, revoked := false }] } ?_) _ (fusesFrom_of_same rfl rfl rfl rfl)))
    simp [Ident.fusesFrom, slotsFrom_append]

theorem State.dropExchanges_keeps (p : Nat) (rs : List Nat) (h : Keeps a s) :
    Keeps a (State.dropExchanges s p rs) := by
  unfold State.dropExchanges
  try dsimp only
  repeat' first
    | with_reducible first | assumption | apply State.modPart_keeps
    | intro _

theorem State.endDelta_keeps (p r n bytes : Nat) (h : Keeps a s) :
    Keeps a (State.endDelta s p r n bytes) := by
  unfold State.endDelta
  try dsimp only
  repeat' first
    | with_reducible first | assumption | apply State.ackDelta_keeps | apply State.setLog_keeps
    | intro _

theorem State.endJob_keeps (p outcome : Nat) (h : Keeps a s) :
    Keeps a (State.endJob s p outcome) := by
  unfold State.endJob
  try dsimp only
  repeat' first
    | with_reducible first | assumption | apply State.stopRolled_keeps | apply State.putF_keeps
    | intro _ | (fail_if_no_progress (with_reducible apply keeps_plain))

theorem State.resolve_keeps (p step : Nat) (h : Keeps a s) :
    Keeps a (State.resolve s p step) := by
  unfold State.resolve
  try dsimp only
  repeat' first
    | with_reducible first | assumption | apply keeps_ite | apply State.commit_keeps | apply State.rollback_keeps
    | intro _ | split

theorem State.setOrigin_keeps (p b : Nat) (h : Keeps a s) :
    Keeps a (State.setOrigin s p b) := by
  unfold State.setOrigin
  try dsimp only
  repeat' first
    | with_reducible first | assumption | apply keeps_ite | apply State.putF_keeps | apply State.modPart_keeps
    | intro _ | split

theorem State.obeyResume_keeps (p : Nat) (r : ResumeMsg) (h : Keeps a s) :
    Keeps a (State.obeyResume s p r) := by
  unfold State.obeyResume
  try dsimp only
  repeat' first
    | with_reducible first | assumption | apply keeps_ite | apply State.resolve_keeps | apply State.endJob_keeps
                            | apply State.applyMap_keeps | apply State.dropExchanges_keeps
                            | apply State.setOrigin_keeps
    | intro _ | split | (fail_if_no_progress (with_reducible apply keeps_plain))

theorem State.sendDelta_keeps (p r : Nat) (l : List (Nat × List Byte)) (h : Keeps a s) :
    Keeps a (State.sendDelta s p r l) := by
  unfold State.sendDelta
  try dsimp only
  repeat' first
    | with_reducible first | assumption | apply keeps_ite | apply State.sendRecords_keeps
                            | apply State.endDelta_keeps | apply State.emit_keeps
    | intro _ | split

theorem State.sendHome_keeps (p r : Nat) (pl : Plan) (sectors : List Nat) (h : Keeps a s) :
    Keeps a (State.sendHome s p r pl sectors) := by
  unfold State.sendHome
  try dsimp only
  repeat' first
    | with_reducible first | assumption | apply State.commit_keeps | apply State.sendMsg_keeps | apply keeps_foldl
                            | apply keeps_foldl_fst
    | intro _ | split

theorem execDeltaAck_keeps (p rank step : Nat) (h : Keeps a s) :
    ∀ t, (execDeltaAck p rank step s) = .next t → Keeps a t := by
  intro t e
  unfold execDeltaAck at e
  simp only [Host.Outcome.next.injEq] at e
  subst e
  try dsimp only
  repeat' first
    | with_reducible first | assumption | apply keeps_ite | apply State.modPart_keeps
    | intro _ | split

theorem execDeltaEnd_keeps (p rank step bytes : Nat) (h : Keeps a s) :
    ∀ t, (execDeltaEnd p rank step bytes s) = .next t → Keeps a t := by
  intro t e
  unfold execDeltaEnd at e
  simp only [Host.Outcome.next.injEq] at e
  subst e
  try dsimp only
  repeat' first
    | with_reducible first | assumption | apply keeps_ite | apply State.endDelta_keeps
    | intro _ | split

theorem execDeltaLogApply_keeps (p rank : Nat) (h : Keeps a s) :
    ∀ t, (execDeltaLogApply p rank s) = .next t → Keeps a t := by
  intro t e
  unfold execDeltaLogApply at e
  simp only [Host.Outcome.next.injEq] at e
  subst e
  try dsimp only
  repeat' first
    | with_reducible first | assumption | apply State.applyLog_keeps | apply State.modPart_keeps
                            | apply State.ackDelta_keeps
    | intro _ | split

theorem execDeltaSend_keeps (p rank : Nat) (sectors : List Nat) (h : Keeps a s) :
    ∀ t, (execDeltaSend p rank sectors s) = .next t → Keeps a t := by
  intro t e
  unfold execDeltaSend at e
  simp only [Host.Outcome.next.injEq] at e
  subst e
  try dsimp only
  repeat' first
    | with_reducible first | assumption | apply keeps_ite | apply State.sendDelta_keeps | apply State.sendHome_keeps
    | intro _ | split

theorem execHostClaim_keeps (f : Func) (p : Nat) (v : Word) (h : Keeps a s) :
    ∀ t, (execHostClaim f p v s) = .next t → Keeps a t := by
  intro t e
  unfold execHostClaim at e
  simp only [Host.Outcome.next.injEq] at e
  subst e
  try dsimp only
  repeat' first
    | with_reducible first | assumption | apply keeps_ite | apply State.gated_keeps | apply State.writeOthers_keeps
                            | apply State.modPart_keeps | apply State.putF_keeps
    | intro _ | split

theorem execHostingStop_keeps (p step : Nat) (digestsDiffer : Bool) (h : Keeps a s) :
    ∀ t, (execHostingStop p step digestsDiffer s) = .next t → Keeps a t := by
  intro t e
  unfold execHostingStop at e
  simp only [Host.Outcome.next.injEq] at e
  subst e
  try dsimp only
  repeat' first
    | with_reducible first | assumption | apply keeps_ite | apply State.endJob_keeps | apply State.resolve_keeps
    | intro _ | split

theorem execRestart_keeps (p step originBn : Nat) (h : Keeps a s) :
    ∀ t, (execRestart p step originBn s) = .next t → Keeps a t := by
  intro t e
  unfold execRestart at e
  simp only [Host.Outcome.next.injEq] at e
  subst e
  try dsimp only
  repeat' first
    | with_reducible first | assumption | apply keeps_ite | apply State.setOrigin_keeps | apply State.resolve_keeps
    | intro _ | split

theorem execResume_keeps (p : Nat) (r : ResumeMsg) (h : Keeps a s) :
    ∀ t, (execResume p r s) = .next t → Keeps a t := by
  intro t e
  unfold execResume at e
  simp only [Host.Outcome.next.injEq] at e
  subst e
  try dsimp only
  repeat' first
    | with_reducible first | assumption | apply keeps_ite | apply State.decideHosting_keeps | apply State.emit_keeps
                            | apply State.modPart_keeps | apply State.obeyResume_keeps
    | intro _ | split

theorem State.applyFlitWheel_keeps (k : Nat) (h : Keeps a s) :
    Keeps a (State.applyFlitWheel s k) := by
  unfold State.applyFlitWheel
  try dsimp only
  repeat' first
    | with_reducible first | assumption | apply State.modPort_keeps | apply State.putF_keeps | apply keeps_foldl
                            | apply keeps_foldl_fst
    | intro _

theorem State.applyWheel_keeps (u : Nat) (h : Keeps a s) :
    Keeps a (State.applyWheel s u) := by
  unfold State.applyWheel
  try dsimp only
  repeat' first
    | with_reducible first | assumption | apply State.modUnit_keeps | apply State.putU_keeps | apply keeps_foldl
                            | apply keeps_foldl_fst
    | intro _

theorem State.putG_keeps (m u : Fld) (x n v : Nat) (h : Keeps a s) :
    Keeps a (State.putG s m u x n v) := by
  unfold State.putG
  try dsimp only
  repeat' first
    | with_reducible first | assumption | apply keeps_ite | apply State.putF_keeps
    | intro _ | split

theorem State.genRefused_keeps (u n : Nat) (h : Keeps a s) :
    Keeps a (State.genRefused s u n) := by
  unfold State.genRefused
  try dsimp only
  repeat' first
    | with_reducible first | assumption | apply State.putG_keeps
    | intro _

theorem State.marginWrite_keeps (i : Nat) (v : Word) (h : Keeps a s) :
    Keeps a (State.marginWrite s i v) := by
  unfold State.marginWrite
  try dsimp only
  repeat' first
    | with_reducible first | assumption | apply keeps_ite | apply State.setUnitState_keeps | apply State.putU_keeps
                            | apply State.writeOthers_keeps | apply State.modUnit_keeps
    | intro _ | split

theorem State.patternChannel_keeps (u n pat seed : Nat) (h : Keeps a s) :
    Keeps a (State.patternChannel s u n pat seed) := by
  unfold State.patternChannel
  refine keeps_maps h _ _ _ _ _ _ _ _ _ _ _ _ _ (fun hm => ?_) id id id id id id id id id id id
  suffices ∀ (l m : List Host.Cell) (f : List Host.Cell → Host.Cell → List Host.Cell), (∀ m c, Memory.wf m = true → Memory.wf (f m c) = true) →
      Memory.wf m = true → Memory.wf (l.foldl f m) = true from this _ _ _ (fun m c hm => by
        split
        · exact mwf_mput _ _ hm
        · exact hm) hm
  intro l
  induction l with
  | nil => exact fun _ _ _ h => h
  | cons c l ih => exact fun m f hf hm => ih _ f hf (hf _ _ hm)

theorem State.scrubErrors_keeps (es : List SectorErr) (h : Keeps a s) :
    Keeps a (State.scrubErrors s es) := by
  unfold State.scrubErrors
  try dsimp only
  repeat' first
    | with_reducible first | assumption | apply keeps_ite | apply State.sectorErrors_keeps | apply State.putU_keeps
                            | apply State.stopRolled_keeps | apply State.mendSectors_keeps | apply keeps_foldl
                            | apply keeps_foldl_fst
    | intro _ | split

theorem State.setShadow_keeps (u i : Nat) (w : Word) (h : Keeps a s) :
    Keeps a (State.setShadow s u i w) := by
  unfold State.setShadow
  try dsimp only
  repeat' first
    | with_reducible first | assumption | apply keeps_ite | apply State.setWord_keeps
    | intro _ | split

theorem State.wipeUnit_keeps (u : Nat) (h : Keeps a s) :
    Keeps a (State.wipeUnit s u) := by
  exact keeps_maps h _ _ _ _ _ _ _ _ _ _ _ _ _ (mwf_filter _) id id id id id id id id id id id

theorem execMarginApply_keeps (u : MemUnit) (v : Word) (h : Keeps a s) :
    ∀ t, (execMarginApply u v s) = .next t → Keeps a t := by
  intro t e
  unfold execMarginApply at e
  simp only [Host.Outcome.next.injEq] at e
  subst e
  try dsimp only
  repeat' first
    | with_reducible first | assumption | apply State.gated_keeps | apply State.marginWrite_keeps
    | intro _

theorem execMarginOffline_keeps (u : MemUnit) (v : Word) (h : Keeps a s) :
    ∀ t, (execMarginOffline u v s) = .next t → Keeps a t := by
  intro t e
  unfold execMarginOffline at e
  simp only [Host.Outcome.next.injEq] at e
  subst e
  try dsimp only
  repeat' first
    | with_reducible first | assumption | apply State.gated_keeps | apply State.marginWrite_keeps
    | intro _

theorem execOfflineEnter_keeps (u : MemUnit) (h : Keeps a s) :
    ∀ t, (execOfflineEnter u s) = .next t → Keeps a t := by
  intro t e
  unfold execOfflineEnter at e
  simp only [Host.Outcome.next.injEq] at e
  subst e
  try dsimp only
  repeat' first
    | with_reducible first | assumption | apply keeps_ite | apply State.setUnitState_keeps
    | intro _ | split

theorem execOfflineLeave_keeps (u : MemUnit) (trained : Bool) (h : Keeps a s) :
    ∀ t, (execOfflineLeave u trained s) = .next t → Keeps a t := by
  intro t e
  unfold execOfflineLeave at e
  simp only [Host.Outcome.next.injEq] at e
  subst e
  try dsimp only
  repeat' first
    | with_reducible first | assumption | apply keeps_ite | apply State.trainUnit_keeps | apply State.wipeUnit_keeps
    | intro _ | split

theorem execPatrolScrub_keeps (u : MemUnit) (errs : List SectorErr) (h : Keeps a s) :
    ∀ t, (execPatrolScrub u errs s) = .next t → Keeps a t := by
  intro t e
  unfold execPatrolScrub at e
  simp only [Host.Outcome.next.injEq] at e
  subst e
  try dsimp only
  repeat' first
    | with_reducible first | assumption | apply keeps_ite | apply State.scrubErrors_keeps
    | intro _ | split

theorem execRefresh_keeps (u : MemUnit) (h : Keeps a s) :
    ∀ t, (execRefresh u s) = .next t → Keeps a t := by
  intro t e
  unfold execRefresh at e
  simp only [Host.Outcome.next.injEq] at e
  subst e
  try dsimp only
  repeat' first
    | with_reducible first | assumption | apply keeps_ite | apply State.emit_keeps | apply State.modUnit_keeps
    | intro _ | split

theorem execRefreshManagement_keeps (u : MemUnit) (h : Keeps a s) :
    ∀ t, (execRefreshManagement u s) = .next t → Keeps a t := by
  intro t e
  unfold execRefreshManagement at e
  simp only [Host.Outcome.next.injEq] at e
  subst e
  try dsimp only
  repeat' first
    | with_reducible first | assumption | apply keeps_ite | apply State.emit_keeps
    | intro _ | split

theorem execRegCtrlDiscard_keeps (u : WheelUnit) (h : Keeps a s) :
    ∀ t, (execRegCtrlDiscard u s) = .next t → Keeps a t := by
  intro t e
  unfold execRegCtrlDiscard at e
  simp only [Host.Outcome.next.injEq] at e
  subst e
  try dsimp only
  repeat' first
    | with_reducible first | assumption | apply keeps_ite | apply State.gated_keeps | apply State.setShadow_keeps
                            | apply State.putU_keeps | apply State.setWord_keeps | apply State.putF_keeps
                            | apply keeps_foldl | apply keeps_foldl_fst
    | intro _ | split

theorem execTemperatureReadout_keeps (u : MemUnit) (temp : Nat) (h : Keeps a s) :
    ∀ t, (execTemperatureReadout u temp s) = .next t → Keeps a t := by
  intro t e
  unfold execTemperatureReadout at e
  simp only [Host.Outcome.next.injEq] at e
  subst e
  try dsimp only
  repeat' first
    | with_reducible first | assumption | apply keeps_ite | apply State.putU_keeps
    | intro _ | split

theorem execTgDone_keeps (u : MemUnit) (n : Nat) (errs : List SectorErr) (h : Keeps a s) :
    ∀ t, (execTgDone u n errs s) = .next t → Keeps a t := by
  intro t e
  unfold execTgDone at e
  simp only [Host.Outcome.next.injEq] at e
  subst e
  try dsimp only
  repeat' first
    | with_reducible first | assumption | apply keeps_ite | apply State.patternChannel_keeps
                            | apply State.scrubErrors_keeps | apply State.putG_keeps | apply State.modUnit_keeps
    | intro _ | split

theorem execTgGo_keeps (u : MemUnit) (n : Nat) (v : Word) (h : Keeps a s) :
    ∀ t, (execTgGo u n v s) = .next t → Keeps a t := by
  intro t e
  unfold execTgGo at e
  simp only [Host.Outcome.next.injEq] at e
  subst e
  try dsimp only
  repeat' first
    | with_reducible first | assumption | apply keeps_ite | apply State.gated_keeps | apply State.writeOthers_keeps
                            | apply State.putG_keeps | apply State.genRefused_keeps | apply State.arriveWork_keeps
                            | apply State.modUnit_keeps
    | intro _ | split

theorem execWheelApply_keeps (h : Keeps a s) :
    ∀ t, (execWheelApply s) = .next t → Keeps a t := by
  intro t e
  unfold execWheelApply at e
  simp only [Host.Outcome.next.injEq] at e
  subst e
  try dsimp only
  repeat' first
    | with_reducible first | assumption | apply keeps_ite | apply State.applyWheel_keeps
                            | apply State.applyFlitWheel_keeps | apply keeps_foldl | apply keeps_foldl_fst
    | intro _ | split

theorem State.selfRefresh_keeps (i : Nat) (h : Keeps a s) :
    Keeps a (State.selfRefresh s i) := by
  unfold State.selfRefresh
  try dsimp only
  repeat' first
    | with_reducible first | assumption | apply State.setUnitState_keeps | apply State.emit_keeps
    | intro _

theorem State.asleep_keeps (h : Keeps a s) :
    Keeps a (State.asleep s) := by
  unfold State.asleep
  try dsimp only
  repeat' first
    | with_reducible first | assumption | apply keeps_ite | apply State.modTile_keeps | apply State.modPort_keeps
                            | apply State.selfRefresh_keeps | apply keeps_foldl | apply keeps_foldl_fst
    | intro _ | split

theorem State.sleepEntry_keeps (h : Keeps a s) :
    Keeps a (State.sleepEntry s) := by
  unfold State.sleepEntry
  try dsimp only
  repeat' first
    | with_reducible first | assumption | apply State.putF_keeps | apply State.settlePort_keeps
                            | apply State.closeBypass_keeps | apply keeps_foldl | apply keeps_foldl_fst
    | intro _ | (fail_if_no_progress (with_reducible apply keeps_plain))

theorem State.beginEntry_keeps (t : Nat) (h : Keeps a s) :
    Keeps a (State.beginEntry s t) := by
  unfold State.beginEntry
  try dsimp only
  repeat' first
    | with_reducible first | assumption | apply keeps_ite | apply State.putF_keeps | apply State.sleepEntry_keeps
    | intro _ | split | (fail_if_no_progress (with_reducible apply keeps_plain))

theorem State.showDomains_keeps (st : Nat) (h : Keeps a s) :
    Keeps a (State.showDomains s st) := by
  unfold State.showDomains
  try dsimp only
  repeat' first
    | with_reducible first | assumption | apply State.putF_keeps | apply keeps_foldl | apply keeps_foldl_fst
    | intro _

theorem State.showState_keeps (t : Nat) (h : Keeps a s) :
    Keeps a (State.showState s t) := by
  unfold State.showState
  try dsimp only
  repeat' first
    | with_reducible first | assumption | apply State.showDomains_keeps | apply State.putF_keeps
    | intro _

theorem State.entryDone_keeps (t : Nat) (h : Keeps a s) :
    Keeps a (State.entryDone s t) := by
  unfold State.entryDone
  try dsimp only
  repeat' first
    | with_reducible first | assumption | apply keeps_ite | apply State.enterOff_keeps | apply State.showState_keeps
                            | apply State.asleep_keeps | apply State.putF_keeps
    | intro _ | split | (fail_if_no_progress (with_reducible apply keeps_plain))

theorem State.exitDone_keeps (trained : List Bool) (h : Keeps a s) :
    Keeps a (State.exitDone s trained) := by
  unfold State.exitDone
  try dsimp only
  repeat' first
    | with_reducible first | assumption | apply keeps_ite | apply State.showState_keeps | apply State.settleDim_keeps
                            | apply State.unitReady_keeps | apply State.enterHoldover_keeps
                            | apply State.trainUnit_keeps | apply keeps_foldl | apply keeps_foldl_fst
    | intro _ | split | (fail_if_no_progress (with_reducible apply keeps_plain))

theorem State.flashCut_keeps (h : Keeps a s) :
    Keeps a (State.flashCut s) := by
  unfold State.flashCut
  try dsimp only
  repeat' first
    | with_reducible first | assumption | apply keeps_ite | apply State.fresh_keeps | apply State.program_keeps
    | intro _ | split

theorem State.lossOfInput_keeps (h : Keeps a s) :
    Keeps a (State.lossOfInput s) := by
  unfold State.lossOfInput
  try dsimp only
  repeat' first
    | with_reducible first | assumption | apply State.enterOff_keeps | apply State.flashCut_keeps
    | intro _ | (fail_if_no_progress (with_reducible apply keeps_plain))

theorem State.powerRequest_keeps (f : Func) (v : Word) (t : Nat) (h : Keeps a s) :
    Keeps a (State.powerRequest s f v t) := by
  unfold State.powerRequest
  try dsimp only
  repeat' first
    | with_reducible first | assumption | apply keeps_ite | apply State.gated_keeps | apply State.putF_keeps
                            | apply State.writeOthers_keeps | apply State.wakeFrom_keeps
                            | apply State.beginEntry_keeps
    | intro _ | split

theorem State.wakeDomain_keeps (h : Keeps a s) :
    Keeps a (State.wakeDomain s) := by
  unfold State.wakeDomain
  try dsimp only
  repeat' first
    | with_reducible first | assumption | apply keeps_ite | apply State.putF_keeps | apply State.setUnitState_keeps
                            | apply keeps_foldl | apply keeps_foldl_fst
    | intro _ | split | (fail_if_no_progress (with_reducible apply keeps_plain))

theorem execAuxPowerApplied_keeps (h : Keeps a s) :
    ∀ t, (execAuxPowerApplied s) = .next t → Keeps a t := by
  intro t e
  unfold execAuxPowerApplied at e
  simp only [Host.Outcome.next.injEq] at e
  subst e
  try dsimp only
  repeat' first
    | with_reducible first | assumption | apply keeps_ite
    | intro _ | split | (fail_if_no_progress (with_reducible apply keeps_plain))

theorem execAuxPowerLoss_keeps (h : Keeps a s) :
    ∀ t, (execAuxPowerLoss s) = .next t → Keeps a t := by
  intro t e
  unfold execAuxPowerLoss at e
  simp only [Host.Outcome.next.injEq] at e
  subst e
  try dsimp only
  repeat' first
    | with_reducible first | assumption | apply State.enterOff_keeps | apply State.putF_keeps | apply keeps_foldl
                            | apply keeps_foldl_fst
    | intro _ | (fail_if_no_progress (with_reducible apply keeps_plain))

theorem execDeepSleepBnAdvance_keeps (h : Keeps a s) :
    ∀ t, (execDeepSleepBnAdvance s) = .next t → Keeps a t := by
  intro t e
  unfold execDeepSleepBnAdvance at e
  simp only [Host.Outcome.next.injEq] at e
  subst e
  try dsimp only
  repeat' first
    | with_reducible first | assumption | apply keeps_ite | apply State.putF_keeps
    | intro _ | split | (fail_if_no_progress (with_reducible apply keeps_plain))

theorem execDomainWake_keeps (h : Keeps a s) :
    ∀ t, (execDomainWake s) = .next t → Keeps a t := by
  intro t e
  unfold execDomainWake at e
  simp only [Host.Outcome.next.injEq] at e
  subst e
  try dsimp only
  repeat' first
    | with_reducible first | assumption | apply State.wakeDomain_keeps
    | intro _

theorem execIdleTimerExpiry_keeps (h : Keeps a s) :
    ∀ t, (execIdleTimerExpiry s) = .next t → Keeps a t := by
  intro t e
  unfold execIdleTimerExpiry at e
  simp only [Host.Outcome.next.injEq] at e
  subst e
  try dsimp only
  repeat' first
    | with_reducible first | assumption | apply keeps_ite | apply State.beginEntry_keeps
    | intro _ | split

theorem execInputPowerLoss_keeps (h : Keeps a s) :
    ∀ t, (execInputPowerLoss s) = .next t → Keeps a t := by
  intro t e
  unfold execInputPowerLoss at e
  simp only [Host.Outcome.next.injEq] at e
  subst e
  try dsimp only
  repeat' first
    | with_reducible first | assumption | apply State.lossOfInput_keeps
    | intro _

theorem execInputPowerRestored_keeps (h : Keeps a s) :
    ∀ t, (execInputPowerRestored s) = .next t → Keeps a t := by
  intro t e
  unfold execInputPowerRestored at e
  simp only [Host.Outcome.next.injEq] at e
  subst e
  try dsimp only
  repeat' first
    | with_reducible first | assumption | apply keeps_ite | apply State.tryBoot_keeps | apply State.wantBoot_keeps
    | intro _ | split | (fail_if_no_progress (with_reducible apply keeps_plain))

theorem execInputStageOn_keeps (h : Keeps a s) :
    ∀ t, (execInputStageOn s) = .next t → Keeps a t := by
  intro t e
  unfold execInputStageOn at e
  simp only [Host.Outcome.next.injEq] at e
  subst e
  try dsimp only
  repeat' first
    | with_reducible first | assumption | apply keeps_ite | apply State.tryBoot_keeps
    | intro _ | split | (fail_if_no_progress (with_reducible apply keeps_plain))

theorem execPerstNAssert_keeps (h : Keeps a s) :
    ∀ t, (execPerstNAssert s) = .next t → Keeps a t := by
  intro t e
  unfold execPerstNAssert at e
  simp only [Host.Outcome.next.injEq] at e
  subst e
  try dsimp only
  repeat' first
    | with_reducible first | assumption | apply keeps_ite | apply State.resetModule_keeps
    | intro _ | split | (fail_if_no_progress (with_reducible apply keeps_plain))

theorem execPerstNDeassert_keeps (h : Keeps a s) :
    ∀ t, (execPerstNDeassert s) = .next t → Keeps a t := by
  intro t e
  unfold execPerstNDeassert at e
  simp only [Host.Outcome.next.injEq] at e
  subst e
  try dsimp only
  repeat' first
    | with_reducible first | assumption | apply keeps_ite | apply State.wantBoot_keeps
    | intro _ | split | (fail_if_no_progress (with_reducible apply keeps_plain))

theorem execPwrRampWrite_keeps (f : Func) (v : Word) (h : Keeps a s) :
    ∀ t, (execPwrRampWrite f v s) = .next t → Keeps a t := by
  intro t e
  unfold execPwrRampWrite at e
  simp only [Host.Outcome.next.injEq] at e
  subst e
  try dsimp only
  repeat' first
    | with_reducible first | assumption | apply keeps_ite | apply State.gated_keeps | apply State.genErr_keeps
                            | apply State.putF_keeps | apply keeps_foldl | apply keeps_foldl_fst
    | intro _ | split

theorem execPwrTargetDeepSleep_keeps (f : Func) (v : Word) (h : Keeps a s) :
    ∀ t, (execPwrTargetDeepSleep f v s) = .next t → Keeps a t := by
  intro t e
  unfold execPwrTargetDeepSleep at e
  simp only [Host.Outcome.next.injEq] at e
  subst e
  try dsimp only
  repeat' first
    | with_reducible first | assumption | apply State.powerRequest_keeps
    | intro _

theorem execPwrTargetIdle_keeps (f : Func) (v : Word) (h : Keeps a s) :
    ∀ t, (execPwrTargetIdle f v s) = .next t → Keeps a t := by
  intro t e
  unfold execPwrTargetIdle at e
  simp only [Host.Outcome.next.injEq] at e
  subst e
  try dsimp only
  repeat' first
    | with_reducible first | assumption | apply State.powerRequest_keeps
    | intro _

theorem execPwrTargetOff_keeps (f : Func) (v : Word) (h : Keeps a s) :
    ∀ t, (execPwrTargetOff f v s) = .next t → Keeps a t := by
  intro t e
  unfold execPwrTargetOff at e
  simp only [Host.Outcome.next.injEq] at e
  subst e
  try dsimp only
  repeat' first
    | with_reducible first | assumption | apply State.powerRequest_keeps
    | intro _

theorem execPwrTargetRun_keeps (f : Func) (v : Word) (h : Keeps a s) :
    ∀ t, (execPwrTargetRun f v s) = .next t → Keeps a t := by
  intro t e
  unfold execPwrTargetRun at e
  simp only [Host.Outcome.next.injEq] at e
  subst e
  try dsimp only
  repeat' first
    | with_reducible first | assumption | apply State.powerRequest_keeps
    | intro _

theorem execPwrTargetSleep_keeps (f : Func) (v : Word) (h : Keeps a s) :
    ∀ t, (execPwrTargetSleep f v s) = .next t → Keeps a t := by
  intro t e
  unfold execPwrTargetSleep at e
  simp only [Host.Outcome.next.injEq] at e
  subst e
  try dsimp only
  repeat' first
    | with_reducible first | assumption | apply State.powerRequest_keeps
    | intro _

theorem execThermalTrip_keeps (h : Keeps a s) :
    ∀ t, (execThermalTrip s) = .next t → Keeps a t := by
  intro t e
  unfold execThermalTrip at e
  simp only [Host.Outcome.next.injEq] at e
  subst e
  try dsimp only
  repeat' first
    | with_reducible first | assumption | apply State.enterOff_keeps | apply State.emit_keeps
    | intro _ | (fail_if_no_progress (with_reducible apply keeps_plain))

theorem execTransitionComplete_keeps (trained : List Bool) (h : Keeps a s) :
    ∀ t, (execTransitionComplete trained s) = .next t → Keeps a t := by
  intro t e
  unfold execTransitionComplete at e
  simp only [Host.Outcome.next.injEq] at e
  subst e
  try dsimp only
  repeat' first
    | with_reducible first | assumption | apply keeps_ite | apply State.entryDone_keeps | apply State.exitDone_keeps
    | intro _ | split

theorem execTripCooldown_keeps (temps : List Nat) (h : Keeps a s) :
    ∀ t, (execTripCooldown temps s) = .next t → Keeps a t := by
  intro t e
  unfold execTripCooldown at e
  simp only [Host.Outcome.next.injEq] at e
  subst e
  try dsimp only
  repeat' first
    | with_reducible first | assumption | apply keeps_ite | apply State.tryBoot_keeps
    | intro _ | split | (fail_if_no_progress (with_reducible apply keeps_plain))

theorem execWakeNAssert_keeps (h : Keeps a s) :
    ∀ t, (execWakeNAssert s) = .next t → Keeps a t := by
  intro t e
  unfold execWakeNAssert at e
  simp only [Host.Outcome.next.injEq] at e
  subst e
  try dsimp only
  repeat' first
    | with_reducible first | assumption | apply keeps_ite | apply State.wantBoot_keeps | apply State.wakeFrom_keeps
    | intro _ | split

theorem execWakeTimerExpiry_keeps (h : Keeps a s) :
    ∀ t, (execWakeTimerExpiry s) = .next t → Keeps a t := by
  intro t e
  unfold execWakeTimerExpiry at e
  simp only [Host.Outcome.next.injEq] at e
  subst e
  try dsimp only
  repeat' first
    | with_reducible first | assumption | apply keeps_ite | apply State.wantBoot_keeps | apply State.wakeFrom_keeps
                            | apply State.emit_keeps
    | intro _ | split | (fail_if_no_progress (with_reducible apply keeps_plain))

theorem State.granStep_keeps (i x2 b : Nat) (h : Keeps a s) :
    ∀ t, (State.granStep s i x2 b) = some t → Keeps a t := by
  have none_ : ∀ t, (none : Option State) = some t → Keeps a t := fun _ e => by cases e
  have some_ : ∀ {u : State}, Keeps a u → ∀ t, some u = some t → Keeps a t := fun hu t e => by cases e; exact hu
  have ite_ : ∀ {c : Prop} [Decidable c] {x y : Option State}, (∀ t, x = some t → Keeps a t) → (∀ t, y = some t → Keeps a t) →
      ∀ t, (if c then x else y) = some t → Keeps a t := by
    intro c _ x y hx hy
    split
    · exact hx
    · exact hy
  unfold State.granStep
  exact ite_ (some_ h) (ite_ (ite_ none_ (ite_ none_ (some_ (State.refreshUsed_keeps _ (State.putF_keeps _ _ _ h)))))
    (ite_ (ite_ none_ (some_ (State.arriveWork_keeps (State.modPart_keeps _ _ (State.refreshUsed_keeps _ (State.putF_keeps _ _ _ h)))))) none_))

theorem State.granWord_keeps (i : Nat) (v : Word) (h : Keeps a s) :
    ∀ t, (State.granWord s i v) = some t → Keeps a t := by
  intro t
  unfold State.granWord
  suffices ∀ (l : List Nat) (o : Option State), (∀ s, o = some s → Keeps a s) → ∀ t, l.foldl (fun (o : Option State) m => o.bind fun s =>
    s.granStep (16 * i + m) (s.granOwner (16 * i + m)) (getBits v (4 * m + 3) (4 * m))) o = some t → Keeps a t from
    this _ _ (by simp only [Option.some.injEq]; rintro _ rfl; exact h) t
  intro l
  induction l with
  | nil => exact fun o ho t e => ho t e
  | cons m l ih =>
    intro o ho t e
    refine ih _ ?_ t e
    intro s es
    rw [Option.bind_eq_some_iff] at es
    obtain ⟨u, eu, es⟩ := es
    exact State.granStep_keeps _ _ _ (ho u eu) s es

theorem execPfFlr_keeps (h : Keeps a s) :
    ∀ t, (execPfFlr s) = .next t → Keeps a t := by
  intro t e
  unfold execPfFlr at e
  simp only [Host.Outcome.next.injEq] at e
  subst e
  refine keeps_maps (s := List.foldl _ (State.clearRegs _ _ _) [0, 1]) ?_ _ _ _ _ _ _ _ _ _ _ (queues := []) (movers := []) _ id id id id id id id id id (fun _ => rfl) id (fun _ => rfl)
  repeat' first
    | with_reducible assumption
    | with_reducible apply keeps_foldl
    | with_reducible apply State.setWord_keeps
    | with_reducible apply State.clearRegs_keeps
    | with_reducible apply State.resetPartition_keeps
    | intro _

theorem execPrtClustersWrite_keeps (f : Func) (p : Nat) (v : Word) (h : Keeps a s) :
    ∀ t, (execPrtClustersWrite f p v s) = .next t → Keeps a t := by
  intro t e
  unfold execPrtClustersWrite at e
  simp only [Host.Outcome.next.injEq] at e
  subst e
  try dsimp only
  repeat' first
    | with_reducible first | assumption | apply keeps_ite | apply State.gated_keeps | apply State.genErr_keeps
                            | apply State.wipeCluster_keeps | apply State.putF_keeps | apply keeps_foldl
                            | apply keeps_foldl_fst
    | intro _ | split

theorem execPrtFrzPop_keeps (f : Func) (p : Nat) (v : Word) (h : Keeps a s) :
    ∀ t, (execPrtFrzPop f p v s) = .next t → Keeps a t := by
  intro t e
  unfold execPrtFrzPop at e
  simp only [Host.Outcome.next.injEq] at e
  subst e
  try dsimp only
  repeat' first
    | with_reducible first | assumption | apply keeps_ite | apply State.gated_keeps | apply State.modPart_keeps
    | intro _ | split

theorem execPrtGranWrite_keeps (f : Func) (i : Nat) (v : Word) (h : Keeps a s) :
    ∀ t, (execPrtGranWrite f i v s) = .next t → Keeps a t := by
  intro t e
  unfold execPrtGranWrite at e
  simp only [Host.Outcome.next.injEq] at e
  subst e
  refine State.gated_keeps _ _ _ h fun s h => ?_
  refine keeps_ite ?_ fun _ => h
  cases hg : s.granWord i v with
  | none => exact State.genErr_keeps _ _ _ h
  | some u => exact State.granWord_keeps _ _ h u hg

theorem execPrtQuotaWrite_keeps (f : Func) (p : Nat) (v : Word) (h : Keeps a s) :
    ∀ t, (execPrtQuotaWrite f p v s) = .next t → Keeps a t := by
  intro t e
  unfold execPrtQuotaWrite at e
  simp only [Host.Outcome.next.injEq] at e
  subst e
  try dsimp only
  repeat' first
    | with_reducible first | assumption | apply State.gated_keeps | apply State.refreshUsed_keeps
                            | apply State.putF_keeps
    | intro _

theorem execPrtReset_keeps (f : Func) (p : Nat) (v : Word) (h : Keeps a s) :
    ∀ t, (execPrtReset f p v s) = .next t → Keeps a t := by
  intro t e
  unfold execPrtReset at e
  simp only [Host.Outcome.next.injEq] at e
  subst e
  try dsimp only
  repeat' first
    | with_reducible first | assumption | apply keeps_ite | apply State.gated_keeps
                            | apply State.resetPartition_keeps
    | intro _ | split

theorem execVfFlr_keeps (k : Nat) (h : Keeps a s) :
    ∀ t, (execVfFlr k s) = .next t → Keeps a t := by
  intro t e
  unfold execVfFlr at e
  simp only [Host.Outcome.next.injEq] at e
  subst e
  try dsimp only
  repeat' first
    | with_reducible first | assumption | apply keeps_ite | apply State.resetPartition_keeps
    | intro _ | split

theorem execWipeComplete_keeps (p : Nat) (h : Keeps a s) :
    ∀ t, (execWipeComplete p s) = .next t → Keeps a t := by
  intro t e
  unfold execWipeComplete at e
  simp only [Host.Outcome.next.injEq] at e
  subst e
  try dsimp only
  repeat' first
    | with_reducible first | assumption | apply keeps_ite | apply State.endWipe_keeps
    | intro _ | split

theorem State.refuse_keeps (p status len : Nat) (e : MbEnd) (h : Keeps a s) :
    Keeps a (State.refuse s p status len e) := by
  unfold State.refuse
  try dsimp only
  repeat' first
    | with_reducible first | assumption | apply keeps_ite | apply State.bump_keeps | apply State.hwr_keeps
                            | apply State.wr_keeps | apply State.pevt_keeps | apply State.putF_keeps
    | intro _ | split

theorem State.setEnd_keeps (p : Nat) (e : MbEnd) (h : Keeps a s) :
    Keeps a (State.setEnd s p e) := by
  unfold State.setEnd
  try dsimp only
  repeat' first
    | with_reducible first | assumption | apply State.modPart_keeps
    | intro _

theorem State.selectSlots_keeps (p r n : Nat) (h : Keeps a s) :
    Keeps a (State.selectSlots s p r n) := by
  unfold State.selectSlots
  try dsimp only
  repeat' first
    | with_reducible first | assumption | apply keeps_ite | apply State.modPart_keeps
    | intro _ | split

theorem State.admitMb_keeps (p r n mb : Nat) (h : Keeps a s) :
    Keeps a (State.admitMb s p r n mb) := by
  unfold State.admitMb
  try dsimp only
  repeat' first
    | with_reducible first | assumption | apply keeps_ite | apply State.refuse_keeps | apply State.setEnd_keeps
                            | apply State.selectSlots_keeps | apply keeps_foldl | apply keeps_foldl_fst
    | intro _ | split

theorem State.ckptEnd_keeps (p err : Nat) (h : Keeps a s) :
    Keeps a (State.ckptEnd s p err) := by
  unfold State.ckptEnd
  try dsimp only
  repeat' first
    | with_reducible first | assumption | apply State.modPart_keeps | apply State.putF_keeps
    | intro _

theorem State.ckptSend_keeps (p bytes : Nat) (c : Ckpt) (h : Keeps a s) :
    Keeps a (State.ckptSend s p bytes c) := by
  unfold State.ckptSend
  try dsimp only
  repeat' first
    | with_reducible first | assumption | apply keeps_ite | apply State.ckptEnd_keeps | apply State.frameTo_keeps
                            | apply State.modPart_keeps
    | intro _ | split

theorem State.gapCheck_keeps (x1 : StreamHdr) (total : Nat) (h : Keeps a s) :
    Keeps a (State.gapCheck s x1 total) := by
  unfold State.gapCheck
  try dsimp only
  repeat' first
    | with_reducible first | assumption | apply keeps_ite | apply State.bump_keeps | apply State.frameTo_keeps
    | intro _ | split

theorem State.kexErr_keeps (k : Nat) (x : Peer) (code : Nat) (h : Keeps a s) :
    Keeps a (State.kexErr s k x code) := by
  unfold State.kexErr
  try dsimp only
  repeat' first
    | with_reducible first | assumption | apply State.kexTo_keeps | apply State.setPeer_keeps
    | intro _

theorem State.kexFinish_keeps (k : Nat) (x : Peer) (stream : Nat) (obj : List Byte) (h : Keeps a s) :
    Keeps a (State.kexFinish s k x stream obj) := by
  unfold State.kexFinish
  dsimp only
  have hi := keeps_ident h { s.ident with drbg := s.ident.drbg + 1 } (fusesFrom_of_same rfl rfl rfl rfl)
  repeat' first
    | with_reducible first | assumption | apply keeps_ite | apply State.setPeer_keeps | apply State.kexTo_keeps
    | intro _ | split | (fail_if_no_progress (with_reducible apply keeps_plain))

theorem State.kexObject_keeps (k : Nat) (x : Peer) (obj : List Byte) (h : Keeps a s) :
    Keeps a (State.kexObject s k x obj) := by
  unfold State.kexObject
  try dsimp only
  repeat' first
    | with_reducible first | assumption | apply keeps_ite | apply State.kexErr_keeps | apply State.kexTo_keeps
                            | apply State.setPeer_keeps | apply State.kexFinish_keeps
    | intro _ | split

theorem State.kexIn_keeps (k : Nat) (x2 : StreamHdr) (payload : List Byte) (h : Keeps a s) :
    Keeps a (State.kexIn s k x2 payload) := by
  unfold State.kexIn
  try dsimp only
  repeat' first
    | with_reducible first | assumption | apply keeps_ite | apply State.kexTo_keeps | apply State.kexErr_keeps
                            | apply State.kexObject_keeps | apply State.setPeer_keeps
    | intro _ | split

theorem State.misroute_keeps (p : Nat) (h : Keeps a s) :
    Keeps a (State.misroute s p) := by
  unfold State.misroute
  try dsimp only
  repeat' first
    | with_reducible first | assumption | apply State.bump_keeps
    | intro _

theorem State.register_keeps (p rank mac : Nat) (h : Keeps a s) :
    Keeps a (State.register s p rank mac) := by
  unfold State.register
  try dsimp only
  repeat' first
    | with_reducible first | assumption | apply keeps_ite | apply State.modPart_keeps
    | intro _ | split

theorem State.sendCredits_keeps (p : Nat) (h : Keeps a s) :
    Keeps a (State.sendCredits s p) := by
  unfold State.sendCredits
  try dsimp only
  repeat' first
    | with_reducible first | assumption | apply keeps_ite | apply State.frameTo_keeps | apply keeps_foldl
                            | apply keeps_foldl_fst
    | intro _ | split

theorem State.setStream_keeps (p : Nat) (v : Stream) (h : Keeps a s) :
    Keeps a (State.setStream s p v) := by
  unfold State.setStream
  try dsimp only
  repeat' first
    | with_reducible first | assumption | apply State.modPart_keeps
    | intro _

theorem State.takeEnd_keeps (x1 : StreamHdr) (mb nsample total : Nat) (h : Keeps a s) :
    Keeps a (State.takeEnd s x1 mb nsample total) := by
  unfold State.takeEnd
  try dsimp only
  repeat' first
    | with_reducible first | assumption | apply keeps_ite | apply State.bump_keeps | apply State.admitMb_keeps
                            | apply State.gapCheck_keeps | apply State.setEnd_keeps
    | intro _ | split

theorem State.takeSample_keeps (p : Nat) (v : Sample) (h : Keeps a s) :
    Keeps a (State.takeSample s p v) := by
  unfold State.takeSample
  try dsimp only
  repeat' first
    | with_reducible first | assumption | apply keeps_ite | apply State.misroute_keeps | apply State.bump_keeps
                            | apply State.admitMb_keeps | apply State.modPart_keeps
    | intro _ | split

theorem State.takeRecords_keeps (p rank step x3 : Nat) {x4 : State} (x5 : List Byte) (h : Keeps a x4) :
    Keeps a (State.takeRecords p rank step x3 x4 x5).1 := by
  induction x3 generalizing x4 x5 with
  | zero => exact h
  | succ n ih =>
    unfold State.takeRecords
    try dsimp only
    repeat' first
      | with_reducible first | apply ih | assumption | apply State.takeSample_keeps
      | intro _ | split

theorem State.takeFrame_keeps (x1 : StreamHdr) (payload : List Byte) (h : Keeps a s) :
    Keeps a (State.takeFrame s x1 payload) := by
  unfold State.takeFrame
  try dsimp only
  repeat' first
    | with_reducible first | assumption | apply keeps_ite | apply State.bump_keeps | apply State.setStream_keeps
                            | apply State.takeRecords_keeps
    | intro _ | split

theorem execCkptFrameSend_keeps (p bytes : Nat) (h : Keeps a s) :
    ∀ t, (execCkptFrameSend p bytes s) = .next t → Keeps a t := by
  intro t e
  unfold execCkptFrameSend at e
  simp only [Host.Outcome.next.injEq] at e
  subst e
  try dsimp only
  repeat' first
    | with_reducible first | assumption | apply keeps_ite | apply State.ckptEnd_keeps | apply State.ckptSend_keeps
    | intro _ | split

theorem execCreditFrame_keeps (port : Nat) (head body : List Byte) (h : Keeps a s) :
    ∀ t, (execCreditFrame port head body s) = .next t → Keeps a t := by
  intro t e
  unfold execCreditFrame at e
  simp only [Host.Outcome.next.injEq] at e
  subst e
  try dsimp only
  repeat' first
    | with_reducible first | assumption | apply keeps_ite | apply State.frameIn_keeps | apply State.otherIn_keeps
                            | apply State.modPart_keeps
    | intro _ | split

theorem execCreditSend_keeps (p : Nat) (h : Keeps a s) :
    ∀ t, (execCreditSend p s) = .next t → Keeps a t := by
  intro t e
  unfold execCreditSend at e
  simp only [Host.Outcome.next.injEq] at e
  subst e
  try dsimp only
  repeat' first
    | with_reducible first | assumption | apply State.sendCredits_keeps
    | intro _

theorem execEndFrame_keeps (port : Nat) (head body check : List Byte) (h : Keeps a s) :
    ∀ t, (execEndFrame port head body check s) = .next t → Keeps a t := by
  intro t e
  unfold execEndFrame at e
  simp only [Host.Outcome.next.injEq] at e
  subst e
  try dsimp only
  repeat' first
    | with_reducible first | assumption | apply keeps_ite | apply State.frameIn_keeps | apply State.otherIn_keeps
                            | apply State.misroute_keeps | apply State.takeEnd_keeps
    | intro _ | split

theorem execKexFrame_keeps (port : Nat) (head body check : List Byte) (h : Keeps a s) :
    ∀ t, (execKexFrame port head body check s) = .next t → Keeps a t := by
  intro t e
  unfold execKexFrame at e
  simp only [Host.Outcome.next.injEq] at e
  subst e
  try dsimp only
  repeat' first
    | with_reducible first | assumption | apply State.frameIn_keeps | apply State.kexIn_keeps
    | intro _

theorem execOtherFrame_keeps (x : RxFrame) (h : Keeps a s) :
    ∀ t, (execOtherFrame x s) = .next t → Keeps a t := by
  intro t e
  unfold execOtherFrame at e
  simp only [Host.Outcome.next.injEq] at e
  subst e
  split
  · exact h
  · have hh := State.hear_keeps x.port x.b h
    split
    · rename_i e
      rw [e] at hh
      exact keeps_ite (State.otherIn_keeps _ hh) fun _ => h
    · rename_i e
      rw [e] at hh
      exact hh

theorem execRegisterFrame_keeps (x : RxFrame) (h : Keeps a s) :
    ∀ t, (execRegisterFrame x s) = .next t → Keeps a t := by
  intro t e
  unfold execRegisterFrame at e
  simp only [Host.Outcome.next.injEq] at e
  subst e
  try dsimp only
  repeat' first
    | with_reducible first | assumption | apply State.frameIn_keeps | apply State.register_keeps
    | intro _

theorem execSampleFrame_keeps (port : Nat) (b : List Byte) (h : Keeps a s) :
    ∀ t, (execSampleFrame port b s) = .next t → Keeps a t := by
  intro t e
  unfold execSampleFrame at e
  simp only [Host.Outcome.next.injEq] at e
  subst e
  try dsimp only
  repeat' first
    | with_reducible first | assumption | apply keeps_ite | apply State.frameIn_keeps | apply State.misroute_keeps
                            | apply State.takeFrame_keeps
    | intro _ | split

theorem execStmCkptGo_keeps (f : Func) (p : Nat) (v : Word) (h : Keeps a s) :
    ∀ t, (execStmCkptGo f p v s) = .next t → Keeps a t := by
  intro t e
  unfold execStmCkptGo at e
  simp only [Host.Outcome.next.injEq] at e
  subst e
  try dsimp only
  repeat' first
    | with_reducible first | assumption | apply keeps_ite | apply State.gated_keeps | apply State.writeOthers_keeps
                            | apply State.putF_keeps | apply State.modPart_keeps
    | intro _ | split | (fail_if_no_progress (with_reducible apply keeps_plain))

theorem execStreamLinkChange_keeps (port : Nat) (up : Bool) (phy : Nat) (h : Keeps a s) :
    ∀ t, (execStreamLinkChange port up phy s) = .next t → Keeps a t := by
  intro t e
  unfold execStreamLinkChange at e
  simp only [Host.Outcome.next.injEq] at e
  subst e
  try dsimp only
  repeat' first
    | with_reducible first | assumption | apply keeps_ite | apply State.putF_keeps
    | intro _ | split

theorem State.ashFails_keeps (p c seg g : Nat) (h : Keeps a s) :
    Keeps a (State.ashFails s p c seg g) := by
  unfold State.ashFails
  try dsimp only
  repeat' first
    | with_reducible first | assumption | apply keeps_ite | apply State.setAsh_keeps | apply State.elog_keeps
                            | apply State.bump_keeps | apply State.putF_keeps | apply State.moduleFault_keeps
                            | apply State.failModule_keeps
    | intro _ | split | (fail_if_no_progress (with_reducible apply keeps_plain))

theorem State.ashPassed_keeps (p c seg : Nat) (h : Keeps a s) :
    Keeps a (State.ashPassed s p c seg) := by
  unfold State.ashPassed
  try dsimp only
  repeat' first
    | with_reducible first | assumption | apply keeps_ite | apply State.setAsh_keeps | apply State.putF_keeps
                            | apply State.bump_keeps | apply State.modPart_keeps
    | intro _ | split | (fail_if_no_progress (with_reducible apply keeps_plain))

theorem State.ashRestore_keeps (g : Nat) (h : Keeps a s) :
    Keeps a (State.ashRestore s g) := by
  unfold State.ashRestore
  try dsimp only
  repeat' first
    | with_reducible first | assumption | apply State.modTile_keeps | apply State.incToken_keeps | apply keeps_foldl
                            | apply keeps_foldl_fst
    | intro _ | split | (fail_if_no_progress (with_reducible apply keeps_plain))

theorem State.pinsTo_keeps (v : Nat) (h : Keeps a s) :
    Keeps a (State.pinsTo s v) := by
  unfold State.pinsTo
  try dsimp only
  repeat' first
    | with_reducible first | assumption | apply keeps_ite
    | intro _ | split | (fail_if_no_progress (with_reducible apply keeps_plain))

theorem State.sendTests_keeps (c : TClass) (dest x3 x4 : Nat) (h : Keeps a s) :
    Keeps a (State.sendTests s c dest x3 x4) := by
  induction x3 generalizing s x4 with
  | zero => exact h
  | succ n ih =>
    unfold State.sendTests
    try dsimp only
    repeat' first
      | with_reducible first | apply ih | assumption | apply keeps_ite | apply State.testCheck_keeps
                              | apply State.sendMsg_keeps
      | intro _ | split | (fail_if_no_progress (with_reducible apply keeps_plain))

theorem execAshSegmentEnd_keeps (c : Nat) (signatures : List Word) (h : Keeps a s) :
    ∀ t, (execAshSegmentEnd c signatures s) = .next t → Keeps a t := by
  intro t e
  unfold execAshSegmentEnd at e
  simp only [Host.Outcome.next.injEq] at e
  subst e
  try dsimp only
  repeat' first
    | with_reducible first | assumption | apply State.ashRestore_keeps | apply State.ashFails_keeps
                            | apply State.ashPassed_keeps | apply keeps_foldl | apply keeps_foldl_fst
    | intro _ | split | (fail_if_no_progress (with_reducible apply keeps_plain))

theorem execAshSegmentStart_keeps (c seg : Nat) (h : Keeps a s) :
    ∀ t, (execAshSegmentStart c seg s) = .next t → Keeps a t := by
  intro t e
  unfold execAshSegmentStart at e
  simp only [Host.Outcome.next.injEq] at e
  subst e
  try dsimp only
  repeat' first
    | with_reducible first | assumption | apply keeps_ite | apply State.modPart_keeps
    | intro _ | split | (fail_if_no_progress (with_reducible apply keeps_plain))

theorem execClamp_keeps (h : Keeps a s) :
    ∀ t, (execClamp s) = .next t → Keeps a t := by
  intro t e
  unfold execClamp at e
  simp only [Host.Outcome.next.injEq] at e
  subst e
  try dsimp only
  repeat' first
    | with_reducible first | assumption | apply State.pinsTo_keeps
    | intro _

theorem execExtest_keeps (h : Keeps a s) :
    ∀ t, (execExtest s) = .next t → Keeps a t := by
  intro t e
  unfold execExtest at e
  simp only [Host.Outcome.next.injEq] at e
  subst e
  try dsimp only
  repeat' first
    | with_reducible first | assumption | apply State.pinsTo_keeps
    | intro _

theorem execHighz_keeps (h : Keeps a s) :
    ∀ t, (execHighz s) = .next t → Keeps a t := by
  intro t e
  unfold execHighz at e
  simp only [Host.Outcome.next.injEq] at e
  subst e
  try dsimp only
  repeat' first
    | with_reducible first | assumption | apply State.pinsTo_keeps
    | intro _

theorem execIdcode_keeps (h : Keeps a s) :
    ∀ t, (execIdcode s) = .next t → Keeps a t := by
  intro t e
  unfold execIdcode at e
  simp only [Host.Outcome.next.injEq] at e
  subst e
  try dsimp only
  repeat' first
    | with_reducible first | assumption | apply State.emit_keeps
    | intro _

theorem execMbistDone_keeps (fail : Option (Nat × Nat)) (h : Keeps a s) :
    ∀ t, (execMbistDone fail s) = .next t → Keeps a t := by
  intro t e
  unfold execMbistDone at e
  simp only [Host.Outcome.next.injEq] at e
  subst e
  try dsimp only
  repeat' first
    | with_reducible first | assumption | apply keeps_ite | apply State.wipeCluster_keeps | apply State.putF_keeps
                            | apply State.bistFails_keeps | apply keeps_foldl | apply keeps_foldl_fst
    | intro _ | split | (fail_if_no_progress (with_reducible apply keeps_plain))

theorem execTstElogPop_keeps (f : Func) (v : Word) (h : Keeps a s) :
    ∀ t, (execTstElogPop f v s) = .next t → Keeps a t := by
  intro t e
  unfold execTstElogPop at e
  simp only [Host.Outcome.next.injEq] at e
  subst e
  try dsimp only
  repeat' first
    | with_reducible first | assumption | apply keeps_ite | apply State.gated_keeps
    | intro _ | split | (fail_if_no_progress (with_reducible apply keeps_plain))

theorem execTstFtgGo_keeps (f : Func) (v : Word) (h : Keeps a s) :
    ∀ t, (execTstFtgGo f v s) = .next t → Keeps a t := by
  intro t e
  unfold execTstFtgGo at e
  simp only [Host.Outcome.next.injEq] at e
  subst e
  try dsimp only
  repeat' first
    | with_reducible first | assumption | apply keeps_ite | apply State.gated_keeps | apply State.settleFtg_keeps
                            | apply State.writeOthers_keeps | apply State.putF_keeps | apply State.sendTests_keeps
    | intro _ | split | (fail_if_no_progress (with_reducible apply keeps_plain))

theorem execTstMbistGo_keeps (f : Func) (v : Word) (h : Keeps a s) :
    ∀ t, (execTstMbistGo f v s) = .next t → Keeps a t := by
  intro t e
  unfold execTstMbistGo at e
  simp only [Host.Outcome.next.injEq] at e
  subst e
  try dsimp only
  repeat' first
    | with_reducible first | assumption | apply keeps_ite | apply State.gated_keeps | apply State.writeOthers_keeps
                            | apply State.putF_keeps
    | intro _ | split | (fail_if_no_progress (with_reducible apply keeps_plain))

theorem State.andThen_keeps {r : Res} {f : State → Res} (hr : ∀ t, r = .next t → Keeps a t)
    (hf : ∀ s, Keeps a s → ∀ t, f s = .next t → Keeps a t) : ∀ t, State.andThen r f = .next t → Keeps a t := by
  intro t e
  cases r with
  | next u => exact hf u (hr u rfl) t e
  | fault _ => cases e
  | refused _ => cases e

theorem State.commandAt_keeps (f : Func) (r : RegRow) (o i : Nat) (v : Word) (h : Keeps a s) :
    ∀ x, s.commandAt f r o i v = some x → ∀ t, x = .next t → Keeps a t := by
  have next_ : ∀ {u : State}, Keeps a u → ∀ t, Host.Outcome.next u = (.next t : Res) → Keeps a t := fun hu t e => by
    cases e; exact hu
  have claims : ∀ (l : List Nat) (q : Res), (∀ t, q = .next t → Keeps a t) →
      ∀ t, l.foldl (fun q p => State.andThen q (execHostClaim f p v)) q = .next t → Keeps a t := by
    intro l
    induction l with
    | nil => exact fun q hq => hq
    | cons p l ih => exact fun q hq => ih _ (State.andThen_keeps hq fun s h => execHostClaim_keeps _ _ _ h)
  have none_ : ∀ x, (none : Option Res) = some x → ∀ t, x = .next t → Keeps a t := fun _ e => by cases e
  have some_ : ∀ {r : Res}, (∀ t, r = .next t → Keeps a t) → ∀ x, some r = some x → ∀ t, x = .next t → Keeps a t :=
    fun hr x e => by cases e; exact hr
  have ite_ : ∀ {c : Prop} [Decidable c] {x y : Option Res}, (∀ r, x = some r → ∀ t, r = .next t → Keeps a t) →
      (∀ r, y = some r → ∀ t, r = .next t → Keeps a t) → ∀ r, (if c then x else y) = some r → ∀ t, r = .next t → Keeps a t := by
    intro c _ x y hx hy
    split
    · exact hx
    · exact hy
  have iteR_ : ∀ {c : Prop} [Decidable c] {x y : Res}, (∀ t, x = .next t → Keeps a t) →
      (∀ t, y = .next t → Keeps a t) → ∀ t, (if c then x else y) = .next t → Keeps a t := by
    intro c _ x y hx hy
    split
    · exact hx
    · exact hy
  unfold State.commandAt
  dsimp only
  refine ite_ (some_ (next_ (State.powerRequest_keeps _ _ _ h))) ?_
  refine ite_ (some_ (execPwrRampWrite_keeps _ _ h)) ?_
  refine ite_ (some_ (State.andThen_keeps (execSvnCommit_keeps _ _ h) fun s h => execFwUpdateGo_keeps _ _ h)) ?_
  refine ite_ (some_ (execPlnBnLoad_keeps _ _ h)) ?_
  refine ite_ (some_ (iteR_ (execRunSet_keeps _ _ _ h) (execRunClear_keeps _ _ _ h))) ?_
  refine ite_ (ite_ (some_ (execPlanLoadGo_keeps _ _ h)) none_) ?_
  refine ite_ (some_ (execPlnHoldPop_keeps _ _ _ h)) ?_
  refine ite_ (some_ (execDmaMcfgWrite_keeps _ _ _ h)) ?_
  refine ite_ (some_ (execStmCkptGo_keeps _ _ _ h)) ?_
  refine ite_ (some_ (execFabCfgWrite_keeps _ _ h)) ?_
  refine ite_ (some_ (execBypassOpen_keeps _ _ h)) ?_
  refine ite_ (some_ (claims _ _ (next_ h))) ?_
  refine ite_ (some_ (next_ (State.gated_keeps _ _ _ h fun s h => ?_))) ?_
  · split
    · rename_i e
      refine State.andThen_keeps (execPortEnable_keeps _ _ h) (fun s h => ?_) _ e
      exact iteR_ (execPortRetrain_keeps _ h) (next_ h)
    · exact h
  refine ite_ (ite_ (some_ (execRegCtrlDiscard_keeps _ h)) none_) ?_
  refine ite_ (ite_ (some_ (execRegCtrlDiscard_keeps _ h)) none_) ?_
  refine ite_ (some_ (next_ (State.gated_keeps _ _ _ h fun s h => State.marginWrite_keeps _ _ h))) ?_
  refine ite_ (some_ (execTgGo_keeps _ _ _ h)) ?_
  refine ite_ (some_ (execTgGo_keeps _ _ _ h)) ?_
  refine ite_ (some_ (execRowReplGo_keeps _ _ _ h)) ?_
  refine ite_ (some_ (execTstMbistGo_keeps _ _ h)) ?_
  refine ite_ (some_ (execTstElogPop_keeps _ _ h)) ?_
  refine ite_ (some_ (execTstFtgGo_keeps _ _ h)) ?_
  refine ite_ (some_ (execPrtClustersWrite_keeps _ _ _ h)) ?_
  refine ite_ (some_ (execPrtQuotaWrite_keeps _ _ _ h)) ?_
  refine ite_ (some_ (execPrtReset_keeps _ _ _ h)) ?_
  refine ite_ (some_ (execPrtFrzPop_keeps _ _ _ h)) ?_
  refine ite_ (some_ (execPrtGranWrite_keeps _ _ _ h)) ?_
  exact none_

theorem State.queueWrite_keeps (f : Func) (o : Nat) (v : Word) (h : Keeps a s) :
    ∀ x, s.queueWrite f o v = some x → ∀ t, x = .next t → Keeps a t := by
  unfold State.queueWrite
  dsimp only
  split
  · split
    · intro x e
      obtain rfl := Option.some.inj e
      exact execDmaQring_keeps _ _ _ h
    · intro x e
      obtain rfl := Option.some.inj e
      exact execDmaQarm_keeps _ _ _ h
    · intro x e
      obtain rfl := Option.some.inj e
      exact execDmaQabort_keeps _ _ h
    · intro x e
      cases e
  · intro x e
    cases e

theorem State.regStore_keeps (f : Func) (off size : Nat) (v : Word) (h : Keeps a s) :
    ∀ t, (State.regStore s f off size v) = .next t → Keeps a t := by
  have next_ : ∀ {u : State}, Keeps a u → ∀ t, Host.Outcome.next u = (.next t : Res) → Keeps a t := fun hu t e => by
    cases e; exact hu
  have getD_ : ∀ {x : Option Res} {y : Res}, (∀ r, x = some r → ∀ t, r = .next t → Keeps a t) →
      (∀ t, y = .next t → Keeps a t) → ∀ t, x.getD y = .next t → Keeps a t := by
    intro x y hx hy
    cases x with
    | none => exact hy
    | some r => exact hx r rfl
  unfold State.regStore
  have ht := State.tlpIn_keeps f h
  generalize State.tlpIn s f = q at ht
  obtain ⟨s, taken⟩ := q
  dsimp only at ht ⊢
  have hp : ∀ (o hi lo : Nat) (w : Word), ∀ t, (.next (s.gated f o fun s => s.afterWrite (s.writeFields o hi lo w) o) : Res) = .next t → Keeps a t :=
    fun o hi lo w => next_ (State.gated_keeps _ _ _ ht fun s h => State.afterWrite_keeps _ _ (State.writeFields_keeps _ _ _ _ h))
  split
  · exact next_ ht
  · split
    · exact next_ (State.genErr_keeps _ _ _ ht)
    · split
      · exact next_ ht
      · split
        · split
          · exact getD_ (State.commandAt_keeps _ _ _ _ _ ht) (hp _ _ _ _)
          · exact hp _ _ _ _
        · exact getD_ (State.queueWrite_keeps _ _ _ ht) (hp _ _ _ _)

theorem execJtagBar0Access_keeps (off size : Nat) (wr : Option Word) (h : Keeps a s) :
    ∀ t, (execJtagBar0Access off size wr s) = .next t → Keeps a t := by
  unfold execJtagBar0Access
  split
  · intro t e
    cases e
    exact State.emit_keeps _ h
  · intro t e
    cases e
    exact h
  · intro t e
    cases e
    exact State.regRead_keeps _ _ _ h
  · exact State.regStore_keeps _ _ _ _ h

theorem execRegisterWrite_keeps (f : Func) (off size : Nat) (v : Word) (h : Keeps a s) :
    ∀ t, (execRegisterWrite f off size v s) = .next t → Keeps a t := by
  exact State.regStore_keeps _ _ _ _ h

theorem execArriveIncrement_keeps (g : Nat) (h : Keeps a s) :
    ∀ t, (execArriveIncrement g s) = .next t → Keeps a t := by
  intro t e
  unfold execArriveIncrement at e
  simp only [Host.Outcome.next.injEq] at e
  subst e
  try dsimp only
  repeat' first
    | with_reducible first | assumption | apply State.advance_keeps | apply State.modTile_keeps
                            | apply State.incToken_keeps
    | intro _ | split

theorem execDmaArrival_keeps (c ch : Nat) (h : Keeps a s) :
    ∀ t, (execDmaArrival c ch s) = .next t → Keeps a t := by
  intro t e
  unfold execDmaArrival at e
  simp only [Host.Outcome.next.injEq] at e
  subst e
  try dsimp only
  repeat' first
    | with_reducible first | assumption | apply keeps_ite | apply State.modCmover_keeps | apply State.incToken_keeps
                            | apply State.taskDone_keeps
    | intro _ | split

theorem execInstructionResultVisible_keeps (g : Nat) (h : Keeps a s) :
    ∀ t, (execInstructionResultVisible g s) = .next t → Keeps a t := by
  intro t e
  unfold execInstructionResultVisible at e
  simp only [Host.Outcome.next.injEq] at e
  subst e
  try dsimp only
  repeat' first
    | with_reducible first | assumption | apply State.advance_keeps
    | intro _ | split

theorem execWaitBeatSatisfied_keeps (g : Nat) (h : Keeps a s) :
    ∀ t, (execWaitBeatSatisfied g s) = .next t → Keeps a t := by
  intro t e
  unfold execWaitBeatSatisfied at e
  simp only [Host.Outcome.next.injEq] at e
  subst e
  try dsimp only
  repeat' first
    | with_reducible first | assumption | apply keeps_ite | apply State.endWait_keeps
    | intro _ | split

theorem execWaitCycExpiry_keeps (g : Nat) (h : Keeps a s) :
    ∀ t, (execWaitCycExpiry g s) = .next t → Keeps a t := by
  intro t e
  unfold execWaitCycExpiry at e
  simp only [Host.Outcome.next.injEq] at e
  subst e
  try dsimp only
  repeat' first
    | with_reducible first | assumption | apply State.modTile_keeps | apply State.advance_keeps
    | intro _ | split

theorem execWaitTimeout_keeps (g : Nat) (h : Keeps a s) :
    ∀ t, (execWaitTimeout g s) = .next t → Keeps a t := by
  intro t e
  unfold execWaitTimeout at e
  simp only [Host.Outcome.next.injEq] at e
  subst e
  try dsimp only
  repeat' first
    | with_reducible first | assumption | apply keeps_ite | apply State.planFault_keeps
    | intro _ | split

theorem execWaitTokSatisfied_keeps (g : Nat) (h : Keeps a s) :
    ∀ t, (execWaitTokSatisfied g s) = .next t → Keeps a t := by
  intro t e
  unfold execWaitTokSatisfied at e
  simp only [Host.Outcome.next.injEq] at e
  subst e
  try dsimp only
  repeat' first
    | with_reducible first | assumption | apply keeps_ite | apply State.endWait_keeps | apply State.waited_keeps
    | intro _ | split

end Sys2Proof.Machine
end

