-- ==== Sys2Proof/Laws/Regs.lean ====
section
/-! SUPPORT. Registers and their fields: a field reads what was last put into it, and every other field as before. -/

namespace Sys2Proof.Machine

/-- As `mget_mput_ne`, with two defaults: registers reset to different values. -/
theorem mget_mput_ne_default {α : Type} [DecidableEq α] (d e : α) (m : List (Nat × α)) {k j : Nat} (v : α) (h : j ≠ k) :
    mget d (mput e m k v) j = mget d m j := by
  unfold mput
  split
  · rw [mget_mdel, if_neg h]
  · rw [mget_mins, if_neg h]

namespace State

variable (s : State)

theorem word_setWord (o o' : Nat) (w : Word) : (s.setWord o w).word o' = if o' = o then w else s.word o' := by
  by_cases h : o' = o
  · subst h
    simp [word, setWord]
  · rw [if_neg h]
    exact mget_mput_ne_default _ _ _ _ h

@[simp] theorem word_setWord_self (o : Nat) (w : Word) : (s.setWord o w).word o = w := by simp [word_setWord]

theorem word_setWord_ne {o o' : Nat} (w : Word) (h : o' ≠ o) : (s.setWord o w).word o' = s.word o' := by
  simp [word_setWord, h]

theorem getF_setWord_ne (f : Fld) (i : Nat) {o : Nat} (w : Word) (h : f.off i ≠ o) :
    (s.setWord o w).getF f i = s.getF f i := by simp [getF, word_setWord_ne _ _ h]

theorem word_putF_ne (f : Fld) (i v : Nat) {o : Nat} (h : o ≠ f.off i) : (s.putF f i v).word o = s.word o :=
  word_setWord_ne _ _ h

theorem word_putF_self (f : Fld) (i v : Nat) :
    (s.putF f i v).word (f.off i) = putBits (s.word (f.off i)) f.hi f.lo v := word_setWord_self _ _ _

/-- A field reads what was put into it, cut to its width. -/
theorem getF_putF (f : Fld) (i v : Nat) (h : f.lo ≤ f.hi) (h64 : f.hi < 64) :
    (s.putF f i v).getF f i = v % 2 ^ (f.hi + 1 - f.lo) := by
  rw [getF, word_putF_self, getBits_putBits _ _ h h64]

/-- A field of another register reads as before. -/
theorem getF_putF_off (f g : Fld) (i j v : Nat) (h : g.off j ≠ f.off i) : (s.putF f i v).getF g j = s.getF g j := by
  rw [getF, word_putF_ne _ _ _ _ h, getF]

/-- Another field of the register reads as before. -/
theorem getF_putF_bits (f g : Fld) (i j v : Nat) (h : g.hi < f.lo ∨ f.hi < g.lo) :
    (s.putF f i v).getF g j = s.getF g j := by
  by_cases ho : g.off j = f.off i
  · rw [getF, getF, ho, word_putF_self, getBits_putBits_ne _ _ h]
  · exact getF_putF_off s f g i j v ho

theorem getF_lt (f : Fld) (i : Nat) : s.getF f i < 2 ^ (f.hi + 1 - f.lo) := getBits_lt _ _ _

/-- Two puts of one field: the last stands. -/
theorem flag_putF_one (f : Fld) (i : Nat) (h : f.lo ≤ f.hi) (h64 : f.hi < 64) : (s.putF f i 1).flag f i = true := by
  have : 1 % 2 ^ (f.hi + 1 - f.lo) = 1 := Nat.mod_eq_of_lt (Nat.one_lt_two_pow (by omega))
  simp [flag, getF_putF s f i 1 h h64, this]

end State
end Sys2Proof.Machine
end

