-- ==== Sys2Proof/Laws/State.lean ====
section
/-! SUPPORT. One lemma per field and update of the state: what an update leaves, by `rfl`, so that no proof unfolds one;
and what each part reads after its update. -/

namespace Sys2Proof.Machine
namespace State

variable (s : State)

/-! ## `setWord` -/

@[simp] theorem setWord_pending (off : Nat) (w : Word) : (s.setWord off w).pending = s.pending := rfl
@[simp] theorem setWord_now (off : Nat) (w : Word) : (s.setWord off w).now = s.now := rfl
@[simp] theorem setWord_beatStart (off : Nat) (w : Word) : (s.setWord off w).beatStart = s.beatStart := rfl
@[simp] theorem setWord_bnLoad (off : Nat) (w : Word) : (s.setWord off w).bnLoad = s.bnLoad := rfl
@[simp] theorem setWord_bnStep (off : Nat) (w : Word) : (s.setWord off w).bnStep = s.bnStep := rfl
@[simp] theorem setWord_slew (off : Nat) (w : Word) : (s.setWord off w).slew = s.slew := rfl
@[simp] theorem setWord_bnSteps (off : Nat) (w : Word) : (s.setWord off w).bnSteps = s.bnSteps := rfl
@[simp] theorem setWord_retake (off : Nat) (w : Word) : (s.setWord off w).retake = s.retake := rfl
@[simp] theorem setWord_holdoverBeats (off : Nat) (w : Word) : (s.setWord off w).holdoverBeats = s.holdoverBeats := rfl
@[simp] theorem setWord_electionBeats (off : Nat) (w : Word) : (s.setWord off w).electionBeats = s.electionBeats := rfl
@[simp] theorem setWord_lostMaster (off : Nat) (w : Word) : (s.setWord off w).lostMaster = s.lostMaster := rfl
@[simp] theorem setWord_altUpstream (off : Nat) (w : Word) : (s.setWord off w).altUpstream = s.altUpstream := rfl
@[simp] theorem setWord_refPresent (off : Nat) (w : Word) : (s.setWord off w).refPresent = s.refPresent := rfl
@[simp] theorem setWord_notice (off : Nat) (w : Word) : (s.setWord off w).notice = s.notice := rfl
@[simp] theorem setWord_mem (off : Nat) (w : Word) : (s.setWord off w).mem = s.mem := rfl
@[simp] theorem setWord_host (off : Nat) (w : Word) : (s.setWord off w).host = s.host := rfl
@[simp] theorem setWord_sram (off : Nat) (w : Word) : (s.setWord off w).sram = s.sram := rfl
@[simp] theorem setWord_history (off : Nat) (w : Word) : (s.setWord off w).history = s.history := rfl
@[simp] theorem setWord_tiles (off : Nat) (w : Word) : (s.setWord off w).tiles = s.tiles := rfl
@[simp] theorem setWord_parts (off : Nat) (w : Word) : (s.setWord off w).parts = s.parts := rfl
@[simp] theorem setWord_ochre (off : Nat) (w : Word) : (s.setWord off w).ochre = s.ochre := rfl
@[simp] theorem setWord_units (off : Nat) (w : Word) : (s.setWord off w).units = s.units := rfl
@[simp] theorem setWord_ports (off : Nat) (w : Word) : (s.setWord off w).ports = s.ports := rfl
@[simp] theorem setWord_movers (off : Nat) (w : Word) : (s.setWord off w).movers = s.movers := rfl
@[simp] theorem setWord_cmovers (off : Nat) (w : Word) : (s.setWord off w).cmovers = s.cmovers := rfl
@[simp] theorem setWord_queues (off : Nat) (w : Word) : (s.setWord off w).queues = s.queues := rfl
@[simp] theorem setWord_peers (off : Nat) (w : Word) : (s.setWord off w).peers = s.peers := rfl
@[simp] theorem setWord_frameSeq (off : Nat) (w : Word) : (s.setWord off w).frameSeq = s.frameSeq := rfl
@[simp] theorem setWord_ide (off : Nat) (w : Word) : (s.setWord off w).ide = s.ide := rfl
@[simp] theorem setWord_pci (off : Nat) (w : Word) : (s.setWord off w).pci = s.pci := rfl
@[simp] theorem setWord_ident (off : Nat) (w : Word) : (s.setWord off w).ident = s.ident := rfl
@[simp] theorem setWord_power (off : Nat) (w : Word) : (s.setWord off w).power = s.power := rfl
@[simp] theorem setWord_test (off : Nat) (w : Word) : (s.setWord off w).test = s.test := rfl
@[simp] theorem setWord_out (off : Nat) (w : Word) : (s.setWord off w).out = s.out := rfl
@[simp] theorem setWord_free (off : Nat) (w : Word) : (s.setWord off w).free = s.free := rfl

/-! ## `putF` -/

@[simp] theorem putF_pending (f : Fld) (i v : Nat) : (s.putF f i v).pending = s.pending := rfl
@[simp] theorem putF_now (f : Fld) (i v : Nat) : (s.putF f i v).now = s.now := rfl
@[simp] theorem putF_beatStart (f : Fld) (i v : Nat) : (s.putF f i v).beatStart = s.beatStart := rfl
@[simp] theorem putF_bnLoad (f : Fld) (i v : Nat) : (s.putF f i v).bnLoad = s.bnLoad := rfl
@[simp] theorem putF_bnStep (f : Fld) (i v : Nat) : (s.putF f i v).bnStep = s.bnStep := rfl
@[simp] theorem putF_slew (f : Fld) (i v : Nat) : (s.putF f i v).slew = s.slew := rfl
@[simp] theorem putF_bnSteps (f : Fld) (i v : Nat) : (s.putF f i v).bnSteps = s.bnSteps := rfl
@[simp] theorem putF_retake (f : Fld) (i v : Nat) : (s.putF f i v).retake = s.retake := rfl
@[simp] theorem putF_holdoverBeats (f : Fld) (i v : Nat) : (s.putF f i v).holdoverBeats = s.holdoverBeats := rfl
@[simp] theorem putF_electionBeats (f : Fld) (i v : Nat) : (s.putF f i v).electionBeats = s.electionBeats := rfl
@[simp] theorem putF_lostMaster (f : Fld) (i v : Nat) : (s.putF f i v).lostMaster = s.lostMaster := rfl
@[simp] theorem putF_altUpstream (f : Fld) (i v : Nat) : (s.putF f i v).altUpstream = s.altUpstream := rfl
@[simp] theorem putF_refPresent (f : Fld) (i v : Nat) : (s.putF f i v).refPresent = s.refPresent := rfl
@[simp] theorem putF_notice (f : Fld) (i v : Nat) : (s.putF f i v).notice = s.notice := rfl
@[simp] theorem putF_mem (f : Fld) (i v : Nat) : (s.putF f i v).mem = s.mem := rfl
@[simp] theorem putF_host (f : Fld) (i v : Nat) : (s.putF f i v).host = s.host := rfl
@[simp] theorem putF_sram (f : Fld) (i v : Nat) : (s.putF f i v).sram = s.sram := rfl
@[simp] theorem putF_history (f : Fld) (i v : Nat) : (s.putF f i v).history = s.history := rfl
@[simp] theorem putF_tiles (f : Fld) (i v : Nat) : (s.putF f i v).tiles = s.tiles := rfl
@[simp] theorem putF_parts (f : Fld) (i v : Nat) : (s.putF f i v).parts = s.parts := rfl
@[simp] theorem putF_ochre (f : Fld) (i v : Nat) : (s.putF f i v).ochre = s.ochre := rfl
@[simp] theorem putF_units (f : Fld) (i v : Nat) : (s.putF f i v).units = s.units := rfl
@[simp] theorem putF_ports (f : Fld) (i v : Nat) : (s.putF f i v).ports = s.ports := rfl
@[simp] theorem putF_movers (f : Fld) (i v : Nat) : (s.putF f i v).movers = s.movers := rfl
@[simp] theorem putF_cmovers (f : Fld) (i v : Nat) : (s.putF f i v).cmovers = s.cmovers := rfl
@[simp] theorem putF_queues (f : Fld) (i v : Nat) : (s.putF f i v).queues = s.queues := rfl
@[simp] theorem putF_peers (f : Fld) (i v : Nat) : (s.putF f i v).peers = s.peers := rfl
@[simp] theorem putF_frameSeq (f : Fld) (i v : Nat) : (s.putF f i v).frameSeq = s.frameSeq := rfl
@[simp] theorem putF_ide (f : Fld) (i v : Nat) : (s.putF f i v).ide = s.ide := rfl
@[simp] theorem putF_pci (f : Fld) (i v : Nat) : (s.putF f i v).pci = s.pci := rfl
@[simp] theorem putF_ident (f : Fld) (i v : Nat) : (s.putF f i v).ident = s.ident := rfl
@[simp] theorem putF_power (f : Fld) (i v : Nat) : (s.putF f i v).power = s.power := rfl
@[simp] theorem putF_test (f : Fld) (i v : Nat) : (s.putF f i v).test = s.test := rfl
@[simp] theorem putF_out (f : Fld) (i v : Nat) : (s.putF f i v).out = s.out := rfl
@[simp] theorem putF_free (f : Fld) (i v : Nat) : (s.putF f i v).free = s.free := rfl

/-! ## `setTile` -/

@[simp] theorem setTile_pending (g : Nat) (t : Tile) : (s.setTile g t).pending = s.pending := rfl
@[simp] theorem setTile_now (g : Nat) (t : Tile) : (s.setTile g t).now = s.now := rfl
@[simp] theorem setTile_beatStart (g : Nat) (t : Tile) : (s.setTile g t).beatStart = s.beatStart := rfl
@[simp] theorem setTile_bnLoad (g : Nat) (t : Tile) : (s.setTile g t).bnLoad = s.bnLoad := rfl
@[simp] theorem setTile_bnStep (g : Nat) (t : Tile) : (s.setTile g t).bnStep = s.bnStep := rfl
@[simp] theorem setTile_slew (g : Nat) (t : Tile) : (s.setTile g t).slew = s.slew := rfl
@[simp] theorem setTile_bnSteps (g : Nat) (t : Tile) : (s.setTile g t).bnSteps = s.bnSteps := rfl
@[simp] theorem setTile_retake (g : Nat) (t : Tile) : (s.setTile g t).retake = s.retake := rfl
@[simp] theorem setTile_holdoverBeats (g : Nat) (t : Tile) : (s.setTile g t).holdoverBeats = s.holdoverBeats := rfl
@[simp] theorem setTile_electionBeats (g : Nat) (t : Tile) : (s.setTile g t).electionBeats = s.electionBeats := rfl
@[simp] theorem setTile_lostMaster (g : Nat) (t : Tile) : (s.setTile g t).lostMaster = s.lostMaster := rfl
@[simp] theorem setTile_altUpstream (g : Nat) (t : Tile) : (s.setTile g t).altUpstream = s.altUpstream := rfl
@[simp] theorem setTile_refPresent (g : Nat) (t : Tile) : (s.setTile g t).refPresent = s.refPresent := rfl
@[simp] theorem setTile_notice (g : Nat) (t : Tile) : (s.setTile g t).notice = s.notice := rfl
@[simp] theorem setTile_regs (g : Nat) (t : Tile) : (s.setTile g t).regs = s.regs := rfl
@[simp] theorem setTile_mem (g : Nat) (t : Tile) : (s.setTile g t).mem = s.mem := rfl
@[simp] theorem setTile_host (g : Nat) (t : Tile) : (s.setTile g t).host = s.host := rfl
@[simp] theorem setTile_sram (g : Nat) (t : Tile) : (s.setTile g t).sram = s.sram := rfl
@[simp] theorem setTile_history (g : Nat) (t : Tile) : (s.setTile g t).history = s.history := rfl
@[simp] theorem setTile_parts (g : Nat) (t : Tile) : (s.setTile g t).parts = s.parts := rfl
@[simp] theorem setTile_ochre (g : Nat) (t : Tile) : (s.setTile g t).ochre = s.ochre := rfl
@[simp] theorem setTile_units (g : Nat) (t : Tile) : (s.setTile g t).units = s.units := rfl
@[simp] theorem setTile_ports (g : Nat) (t : Tile) : (s.setTile g t).ports = s.ports := rfl
@[simp] theorem setTile_movers (g : Nat) (t : Tile) : (s.setTile g t).movers = s.movers := rfl
@[simp] theorem setTile_cmovers (g : Nat) (t : Tile) : (s.setTile g t).cmovers = s.cmovers := rfl
@[simp] theorem setTile_queues (g : Nat) (t : Tile) : (s.setTile g t).queues = s.queues := rfl
@[simp] theorem setTile_peers (g : Nat) (t : Tile) : (s.setTile g t).peers = s.peers := rfl
@[simp] theorem setTile_frameSeq (g : Nat) (t : Tile) : (s.setTile g t).frameSeq = s.frameSeq := rfl
@[simp] theorem setTile_ide (g : Nat) (t : Tile) : (s.setTile g t).ide = s.ide := rfl
@[simp] theorem setTile_pci (g : Nat) (t : Tile) : (s.setTile g t).pci = s.pci := rfl
@[simp] theorem setTile_ident (g : Nat) (t : Tile) : (s.setTile g t).ident = s.ident := rfl
@[simp] theorem setTile_power (g : Nat) (t : Tile) : (s.setTile g t).power = s.power := rfl
@[simp] theorem setTile_test (g : Nat) (t : Tile) : (s.setTile g t).test = s.test := rfl
@[simp] theorem setTile_out (g : Nat) (t : Tile) : (s.setTile g t).out = s.out := rfl
@[simp] theorem setTile_free (g : Nat) (t : Tile) : (s.setTile g t).free = s.free := rfl

/-! ## `setPart` -/

@[simp] theorem setPart_pending (p : Nat) (x : Part) : (s.setPart p x).pending = s.pending := rfl
@[simp] theorem setPart_now (p : Nat) (x : Part) : (s.setPart p x).now = s.now := rfl
@[simp] theorem setPart_beatStart (p : Nat) (x : Part) : (s.setPart p x).beatStart = s.beatStart := rfl
@[simp] theorem setPart_bnLoad (p : Nat) (x : Part) : (s.setPart p x).bnLoad = s.bnLoad := rfl
@[simp] theorem setPart_bnStep (p : Nat) (x : Part) : (s.setPart p x).bnStep = s.bnStep := rfl
@[simp] theorem setPart_slew (p : Nat) (x : Part) : (s.setPart p x).slew = s.slew := rfl
@[simp] theorem setPart_bnSteps (p : Nat) (x : Part) : (s.setPart p x).bnSteps = s.bnSteps := rfl
@[simp] theorem setPart_retake (p : Nat) (x : Part) : (s.setPart p x).retake = s.retake := rfl
@[simp] theorem setPart_holdoverBeats (p : Nat) (x : Part) : (s.setPart p x).holdoverBeats = s.holdoverBeats := rfl
@[simp] theorem setPart_electionBeats (p : Nat) (x : Part) : (s.setPart p x).electionBeats = s.electionBeats := rfl
@[simp] theorem setPart_lostMaster (p : Nat) (x : Part) : (s.setPart p x).lostMaster = s.lostMaster := rfl
@[simp] theorem setPart_altUpstream (p : Nat) (x : Part) : (s.setPart p x).altUpstream = s.altUpstream := rfl
@[simp] theorem setPart_refPresent (p : Nat) (x : Part) : (s.setPart p x).refPresent = s.refPresent := rfl
@[simp] theorem setPart_notice (p : Nat) (x : Part) : (s.setPart p x).notice = s.notice := rfl
@[simp] theorem setPart_regs (p : Nat) (x : Part) : (s.setPart p x).regs = s.regs := rfl
@[simp] theorem setPart_mem (p : Nat) (x : Part) : (s.setPart p x).mem = s.mem := rfl
@[simp] theorem setPart_host (p : Nat) (x : Part) : (s.setPart p x).host = s.host := rfl
@[simp] theorem setPart_sram (p : Nat) (x : Part) : (s.setPart p x).sram = s.sram := rfl
@[simp] theorem setPart_history (p : Nat) (x : Part) : (s.setPart p x).history = s.history := rfl
@[simp] theorem setPart_tiles (p : Nat) (x : Part) : (s.setPart p x).tiles = s.tiles := rfl
@[simp] theorem setPart_ochre (p : Nat) (x : Part) : (s.setPart p x).ochre = s.ochre := rfl
@[simp] theorem setPart_units (p : Nat) (x : Part) : (s.setPart p x).units = s.units := rfl
@[simp] theorem setPart_ports (p : Nat) (x : Part) : (s.setPart p x).ports = s.ports := rfl
@[simp] theorem setPart_movers (p : Nat) (x : Part) : (s.setPart p x).movers = s.movers := rfl
@[simp] theorem setPart_cmovers (p : Nat) (x : Part) : (s.setPart p x).cmovers = s.cmovers := rfl
@[simp] theorem setPart_queues (p : Nat) (x : Part) : (s.setPart p x).queues = s.queues := rfl
@[simp] theorem setPart_peers (p : Nat) (x : Part) : (s.setPart p x).peers = s.peers := rfl
@[simp] theorem setPart_frameSeq (p : Nat) (x : Part) : (s.setPart p x).frameSeq = s.frameSeq := rfl
@[simp] theorem setPart_ide (p : Nat) (x : Part) : (s.setPart p x).ide = s.ide := rfl
@[simp] theorem setPart_pci (p : Nat) (x : Part) : (s.setPart p x).pci = s.pci := rfl
@[simp] theorem setPart_ident (p : Nat) (x : Part) : (s.setPart p x).ident = s.ident := rfl
@[simp] theorem setPart_power (p : Nat) (x : Part) : (s.setPart p x).power = s.power := rfl
@[simp] theorem setPart_test (p : Nat) (x : Part) : (s.setPart p x).test = s.test := rfl
@[simp] theorem setPart_out (p : Nat) (x : Part) : (s.setPart p x).out = s.out := rfl
@[simp] theorem setPart_free (p : Nat) (x : Part) : (s.setPart p x).free = s.free := rfl

/-! ## `setOch` -/

@[simp] theorem setOch_pending (e q : Nat) (x : OchreQ) : (s.setOch e q x).pending = s.pending := rfl
@[simp] theorem setOch_now (e q : Nat) (x : OchreQ) : (s.setOch e q x).now = s.now := rfl
@[simp] theorem setOch_beatStart (e q : Nat) (x : OchreQ) : (s.setOch e q x).beatStart = s.beatStart := rfl
@[simp] theorem setOch_bnLoad (e q : Nat) (x : OchreQ) : (s.setOch e q x).bnLoad = s.bnLoad := rfl
@[simp] theorem setOch_bnStep (e q : Nat) (x : OchreQ) : (s.setOch e q x).bnStep = s.bnStep := rfl
@[simp] theorem setOch_slew (e q : Nat) (x : OchreQ) : (s.setOch e q x).slew = s.slew := rfl
@[simp] theorem setOch_bnSteps (e q : Nat) (x : OchreQ) : (s.setOch e q x).bnSteps = s.bnSteps := rfl
@[simp] theorem setOch_retake (e q : Nat) (x : OchreQ) : (s.setOch e q x).retake = s.retake := rfl
@[simp] theorem setOch_holdoverBeats (e q : Nat) (x : OchreQ) : (s.setOch e q x).holdoverBeats = s.holdoverBeats := rfl
@[simp] theorem setOch_electionBeats (e q : Nat) (x : OchreQ) : (s.setOch e q x).electionBeats = s.electionBeats := rfl
@[simp] theorem setOch_lostMaster (e q : Nat) (x : OchreQ) : (s.setOch e q x).lostMaster = s.lostMaster := rfl
@[simp] theorem setOch_altUpstream (e q : Nat) (x : OchreQ) : (s.setOch e q x).altUpstream = s.altUpstream := rfl
@[simp] theorem setOch_refPresent (e q : Nat) (x : OchreQ) : (s.setOch e q x).refPresent = s.refPresent := rfl
@[simp] theorem setOch_notice (e q : Nat) (x : OchreQ) : (s.setOch e q x).notice = s.notice := rfl
@[simp] theorem setOch_regs (e q : Nat) (x : OchreQ) : (s.setOch e q x).regs = s.regs := rfl
@[simp] theorem setOch_mem (e q : Nat) (x : OchreQ) : (s.setOch e q x).mem = s.mem := rfl
@[simp] theorem setOch_host (e q : Nat) (x : OchreQ) : (s.setOch e q x).host = s.host := rfl
@[simp] theorem setOch_sram (e q : Nat) (x : OchreQ) : (s.setOch e q x).sram = s.sram := rfl
@[simp] theorem setOch_history (e q : Nat) (x : OchreQ) : (s.setOch e q x).history = s.history := rfl
@[simp] theorem setOch_tiles (e q : Nat) (x : OchreQ) : (s.setOch e q x).tiles = s.tiles := rfl
@[simp] theorem setOch_parts (e q : Nat) (x : OchreQ) : (s.setOch e q x).parts = s.parts := rfl
@[simp] theorem setOch_units (e q : Nat) (x : OchreQ) : (s.setOch e q x).units = s.units := rfl
@[simp] theorem setOch_ports (e q : Nat) (x : OchreQ) : (s.setOch e q x).ports = s.ports := rfl
@[simp] theorem setOch_movers (e q : Nat) (x : OchreQ) : (s.setOch e q x).movers = s.movers := rfl
@[simp] theorem setOch_cmovers (e q : Nat) (x : OchreQ) : (s.setOch e q x).cmovers = s.cmovers := rfl
@[simp] theorem setOch_queues (e q : Nat) (x : OchreQ) : (s.setOch e q x).queues = s.queues := rfl
@[simp] theorem setOch_peers (e q : Nat) (x : OchreQ) : (s.setOch e q x).peers = s.peers := rfl
@[simp] theorem setOch_frameSeq (e q : Nat) (x : OchreQ) : (s.setOch e q x).frameSeq = s.frameSeq := rfl
@[simp] theorem setOch_ide (e q : Nat) (x : OchreQ) : (s.setOch e q x).ide = s.ide := rfl
@[simp] theorem setOch_pci (e q : Nat) (x : OchreQ) : (s.setOch e q x).pci = s.pci := rfl
@[simp] theorem setOch_ident (e q : Nat) (x : OchreQ) : (s.setOch e q x).ident = s.ident := rfl
@[simp] theorem setOch_power (e q : Nat) (x : OchreQ) : (s.setOch e q x).power = s.power := rfl
@[simp] theorem setOch_test (e q : Nat) (x : OchreQ) : (s.setOch e q x).test = s.test := rfl
@[simp] theorem setOch_out (e q : Nat) (x : OchreQ) : (s.setOch e q x).out = s.out := rfl
@[simp] theorem setOch_free (e q : Nat) (x : OchreQ) : (s.setOch e q x).free = s.free := rfl

/-! ## `setUnit` -/

@[simp] theorem setUnit_pending (u : Nat) (x : Unit_) : (s.setUnit u x).pending = s.pending := rfl
@[simp] theorem setUnit_now (u : Nat) (x : Unit_) : (s.setUnit u x).now = s.now := rfl
@[simp] theorem setUnit_beatStart (u : Nat) (x : Unit_) : (s.setUnit u x).beatStart = s.beatStart := rfl
@[simp] theorem setUnit_bnLoad (u : Nat) (x : Unit_) : (s.setUnit u x).bnLoad = s.bnLoad := rfl
@[simp] theorem setUnit_bnStep (u : Nat) (x : Unit_) : (s.setUnit u x).bnStep = s.bnStep := rfl
@[simp] theorem setUnit_slew (u : Nat) (x : Unit_) : (s.setUnit u x).slew = s.slew := rfl
@[simp] theorem setUnit_bnSteps (u : Nat) (x : Unit_) : (s.setUnit u x).bnSteps = s.bnSteps := rfl
@[simp] theorem setUnit_retake (u : Nat) (x : Unit_) : (s.setUnit u x).retake = s.retake := rfl
@[simp] theorem setUnit_holdoverBeats (u : Nat) (x : Unit_) : (s.setUnit u x).holdoverBeats = s.holdoverBeats := rfl
@[simp] theorem setUnit_electionBeats (u : Nat) (x : Unit_) : (s.setUnit u x).electionBeats = s.electionBeats := rfl
@[simp] theorem setUnit_lostMaster (u : Nat) (x : Unit_) : (s.setUnit u x).lostMaster = s.lostMaster := rfl
@[simp] theorem setUnit_altUpstream (u : Nat) (x : Unit_) : (s.setUnit u x).altUpstream = s.altUpstream := rfl
@[simp] theorem setUnit_refPresent (u : Nat) (x : Unit_) : (s.setUnit u x).refPresent = s.refPresent := rfl
@[simp] theorem setUnit_notice (u : Nat) (x : Unit_) : (s.setUnit u x).notice = s.notice := rfl
@[simp] theorem setUnit_regs (u : Nat) (x : Unit_) : (s.setUnit u x).regs = s.regs := rfl
@[simp] theorem setUnit_mem (u : Nat) (x : Unit_) : (s.setUnit u x).mem = s.mem := rfl
@[simp] theorem setUnit_host (u : Nat) (x : Unit_) : (s.setUnit u x).host = s.host := rfl
@[simp] theorem setUnit_sram (u : Nat) (x : Unit_) : (s.setUnit u x).sram = s.sram := rfl
@[simp] theorem setUnit_history (u : Nat) (x : Unit_) : (s.setUnit u x).history = s.history := rfl
@[simp] theorem setUnit_tiles (u : Nat) (x : Unit_) : (s.setUnit u x).tiles = s.tiles := rfl
@[simp] theorem setUnit_parts (u : Nat) (x : Unit_) : (s.setUnit u x).parts = s.parts := rfl
@[simp] theorem setUnit_ochre (u : Nat) (x : Unit_) : (s.setUnit u x).ochre = s.ochre := rfl
@[simp] theorem setUnit_ports (u : Nat) (x : Unit_) : (s.setUnit u x).ports = s.ports := rfl
@[simp] theorem setUnit_movers (u : Nat) (x : Unit_) : (s.setUnit u x).movers = s.movers := rfl
@[simp] theorem setUnit_cmovers (u : Nat) (x : Unit_) : (s.setUnit u x).cmovers = s.cmovers := rfl
@[simp] theorem setUnit_queues (u : Nat) (x : Unit_) : (s.setUnit u x).queues = s.queues := rfl
@[simp] theorem setUnit_peers (u : Nat) (x : Unit_) : (s.setUnit u x).peers = s.peers := rfl
@[simp] theorem setUnit_frameSeq (u : Nat) (x : Unit_) : (s.setUnit u x).frameSeq = s.frameSeq := rfl
@[simp] theorem setUnit_ide (u : Nat) (x : Unit_) : (s.setUnit u x).ide = s.ide := rfl
@[simp] theorem setUnit_pci (u : Nat) (x : Unit_) : (s.setUnit u x).pci = s.pci := rfl
@[simp] theorem setUnit_ident (u : Nat) (x : Unit_) : (s.setUnit u x).ident = s.ident := rfl
@[simp] theorem setUnit_power (u : Nat) (x : Unit_) : (s.setUnit u x).power = s.power := rfl
@[simp] theorem setUnit_test (u : Nat) (x : Unit_) : (s.setUnit u x).test = s.test := rfl
@[simp] theorem setUnit_out (u : Nat) (x : Unit_) : (s.setUnit u x).out = s.out := rfl
@[simp] theorem setUnit_free (u : Nat) (x : Unit_) : (s.setUnit u x).free = s.free := rfl

/-! ## `setPort` -/

@[simp] theorem setPort_pending (k : Nat) (x : Port) : (s.setPort k x).pending = s.pending := rfl
@[simp] theorem setPort_now (k : Nat) (x : Port) : (s.setPort k x).now = s.now := rfl
@[simp] theorem setPort_beatStart (k : Nat) (x : Port) : (s.setPort k x).beatStart = s.beatStart := rfl
@[simp] theorem setPort_bnLoad (k : Nat) (x : Port) : (s.setPort k x).bnLoad = s.bnLoad := rfl
@[simp] theorem setPort_bnStep (k : Nat) (x : Port) : (s.setPort k x).bnStep = s.bnStep := rfl
@[simp] theorem setPort_slew (k : Nat) (x : Port) : (s.setPort k x).slew = s.slew := rfl
@[simp] theorem setPort_bnSteps (k : Nat) (x : Port) : (s.setPort k x).bnSteps = s.bnSteps := rfl
@[simp] theorem setPort_retake (k : Nat) (x : Port) : (s.setPort k x).retake = s.retake := rfl
@[simp] theorem setPort_holdoverBeats (k : Nat) (x : Port) : (s.setPort k x).holdoverBeats = s.holdoverBeats := rfl
@[simp] theorem setPort_electionBeats (k : Nat) (x : Port) : (s.setPort k x).electionBeats = s.electionBeats := rfl
@[simp] theorem setPort_lostMaster (k : Nat) (x : Port) : (s.setPort k x).lostMaster = s.lostMaster := rfl
@[simp] theorem setPort_altUpstream (k : Nat) (x : Port) : (s.setPort k x).altUpstream = s.altUpstream := rfl
@[simp] theorem setPort_refPresent (k : Nat) (x : Port) : (s.setPort k x).refPresent = s.refPresent := rfl
@[simp] theorem setPort_notice (k : Nat) (x : Port) : (s.setPort k x).notice = s.notice := rfl
@[simp] theorem setPort_regs (k : Nat) (x : Port) : (s.setPort k x).regs = s.regs := rfl
@[simp] theorem setPort_mem (k : Nat) (x : Port) : (s.setPort k x).mem = s.mem := rfl
@[simp] theorem setPort_host (k : Nat) (x : Port) : (s.setPort k x).host = s.host := rfl
@[simp] theorem setPort_sram (k : Nat) (x : Port) : (s.setPort k x).sram = s.sram := rfl
@[simp] theorem setPort_history (k : Nat) (x : Port) : (s.setPort k x).history = s.history := rfl
@[simp] theorem setPort_tiles (k : Nat) (x : Port) : (s.setPort k x).tiles = s.tiles := rfl
@[simp] theorem setPort_parts (k : Nat) (x : Port) : (s.setPort k x).parts = s.parts := rfl
@[simp] theorem setPort_ochre (k : Nat) (x : Port) : (s.setPort k x).ochre = s.ochre := rfl
@[simp] theorem setPort_units (k : Nat) (x : Port) : (s.setPort k x).units = s.units := rfl
@[simp] theorem setPort_movers (k : Nat) (x : Port) : (s.setPort k x).movers = s.movers := rfl
@[simp] theorem setPort_cmovers (k : Nat) (x : Port) : (s.setPort k x).cmovers = s.cmovers := rfl
@[simp] theorem setPort_queues (k : Nat) (x : Port) : (s.setPort k x).queues = s.queues := rfl
@[simp] theorem setPort_peers (k : Nat) (x : Port) : (s.setPort k x).peers = s.peers := rfl
@[simp] theorem setPort_frameSeq (k : Nat) (x : Port) : (s.setPort k x).frameSeq = s.frameSeq := rfl
@[simp] theorem setPort_ide (k : Nat) (x : Port) : (s.setPort k x).ide = s.ide := rfl
@[simp] theorem setPort_pci (k : Nat) (x : Port) : (s.setPort k x).pci = s.pci := rfl
@[simp] theorem setPort_ident (k : Nat) (x : Port) : (s.setPort k x).ident = s.ident := rfl
@[simp] theorem setPort_power (k : Nat) (x : Port) : (s.setPort k x).power = s.power := rfl
@[simp] theorem setPort_test (k : Nat) (x : Port) : (s.setPort k x).test = s.test := rfl
@[simp] theorem setPort_out (k : Nat) (x : Port) : (s.setPort k x).out = s.out := rfl
@[simp] theorem setPort_free (k : Nat) (x : Port) : (s.setPort k x).free = s.free := rfl

/-! ## `setMover` -/

@[simp] theorem setMover_pending (h : Nat) (x : Mover) : (s.setMover h x).pending = s.pending := rfl
@[simp] theorem setMover_now (h : Nat) (x : Mover) : (s.setMover h x).now = s.now := rfl
@[simp] theorem setMover_beatStart (h : Nat) (x : Mover) : (s.setMover h x).beatStart = s.beatStart := rfl
@[simp] theorem setMover_bnLoad (h : Nat) (x : Mover) : (s.setMover h x).bnLoad = s.bnLoad := rfl
@[simp] theorem setMover_bnStep (h : Nat) (x : Mover) : (s.setMover h x).bnStep = s.bnStep := rfl
@[simp] theorem setMover_slew (h : Nat) (x : Mover) : (s.setMover h x).slew = s.slew := rfl
@[simp] theorem setMover_bnSteps (h : Nat) (x : Mover) : (s.setMover h x).bnSteps = s.bnSteps := rfl
@[simp] theorem setMover_retake (h : Nat) (x : Mover) : (s.setMover h x).retake = s.retake := rfl
@[simp] theorem setMover_holdoverBeats (h : Nat) (x : Mover) : (s.setMover h x).holdoverBeats = s.holdoverBeats := rfl
@[simp] theorem setMover_electionBeats (h : Nat) (x : Mover) : (s.setMover h x).electionBeats = s.electionBeats := rfl
@[simp] theorem setMover_lostMaster (h : Nat) (x : Mover) : (s.setMover h x).lostMaster = s.lostMaster := rfl
@[simp] theorem setMover_altUpstream (h : Nat) (x : Mover) : (s.setMover h x).altUpstream = s.altUpstream := rfl
@[simp] theorem setMover_refPresent (h : Nat) (x : Mover) : (s.setMover h x).refPresent = s.refPresent := rfl
@[simp] theorem setMover_notice (h : Nat) (x : Mover) : (s.setMover h x).notice = s.notice := rfl
@[simp] theorem setMover_regs (h : Nat) (x : Mover) : (s.setMover h x).regs = s.regs := rfl
@[simp] theorem setMover_mem (h : Nat) (x : Mover) : (s.setMover h x).mem = s.mem := rfl
@[simp] theorem setMover_host (h : Nat) (x : Mover) : (s.setMover h x).host = s.host := rfl
@[simp] theorem setMover_sram (h : Nat) (x : Mover) : (s.setMover h x).sram = s.sram := rfl
@[simp] theorem setMover_history (h : Nat) (x : Mover) : (s.setMover h x).history = s.history := rfl
@[simp] theorem setMover_tiles (h : Nat) (x : Mover) : (s.setMover h x).tiles = s.tiles := rfl
@[simp] theorem setMover_parts (h : Nat) (x : Mover) : (s.setMover h x).parts = s.parts := rfl
@[simp] theorem setMover_ochre (h : Nat) (x : Mover) : (s.setMover h x).ochre = s.ochre := rfl
@[simp] theorem setMover_units (h : Nat) (x : Mover) : (s.setMover h x).units = s.units := rfl
@[simp] theorem setMover_ports (h : Nat) (x : Mover) : (s.setMover h x).ports = s.ports := rfl
@[simp] theorem setMover_cmovers (h : Nat) (x : Mover) : (s.setMover h x).cmovers = s.cmovers := rfl
@[simp] theorem setMover_queues (h : Nat) (x : Mover) : (s.setMover h x).queues = s.queues := rfl
@[simp] theorem setMover_peers (h : Nat) (x : Mover) : (s.setMover h x).peers = s.peers := rfl
@[simp] theorem setMover_frameSeq (h : Nat) (x : Mover) : (s.setMover h x).frameSeq = s.frameSeq := rfl
@[simp] theorem setMover_ide (h : Nat) (x : Mover) : (s.setMover h x).ide = s.ide := rfl
@[simp] theorem setMover_pci (h : Nat) (x : Mover) : (s.setMover h x).pci = s.pci := rfl
@[simp] theorem setMover_ident (h : Nat) (x : Mover) : (s.setMover h x).ident = s.ident := rfl
@[simp] theorem setMover_power (h : Nat) (x : Mover) : (s.setMover h x).power = s.power := rfl
@[simp] theorem setMover_test (h : Nat) (x : Mover) : (s.setMover h x).test = s.test := rfl
@[simp] theorem setMover_out (h : Nat) (x : Mover) : (s.setMover h x).out = s.out := rfl
@[simp] theorem setMover_free (h : Nat) (x : Mover) : (s.setMover h x).free = s.free := rfl

/-! ## `setCmover` -/

@[simp] theorem setCmover_pending (c : Nat) (x : CMover) : (s.setCmover c x).pending = s.pending := rfl
@[simp] theorem setCmover_now (c : Nat) (x : CMover) : (s.setCmover c x).now = s.now := rfl
@[simp] theorem setCmover_beatStart (c : Nat) (x : CMover) : (s.setCmover c x).beatStart = s.beatStart := rfl
@[simp] theorem setCmover_bnLoad (c : Nat) (x : CMover) : (s.setCmover c x).bnLoad = s.bnLoad := rfl
@[simp] theorem setCmover_bnStep (c : Nat) (x : CMover) : (s.setCmover c x).bnStep = s.bnStep := rfl
@[simp] theorem setCmover_slew (c : Nat) (x : CMover) : (s.setCmover c x).slew = s.slew := rfl
@[simp] theorem setCmover_bnSteps (c : Nat) (x : CMover) : (s.setCmover c x).bnSteps = s.bnSteps := rfl
@[simp] theorem setCmover_retake (c : Nat) (x : CMover) : (s.setCmover c x).retake = s.retake := rfl
@[simp] theorem setCmover_holdoverBeats (c : Nat) (x : CMover) : (s.setCmover c x).holdoverBeats = s.holdoverBeats := rfl
@[simp] theorem setCmover_electionBeats (c : Nat) (x : CMover) : (s.setCmover c x).electionBeats = s.electionBeats := rfl
@[simp] theorem setCmover_lostMaster (c : Nat) (x : CMover) : (s.setCmover c x).lostMaster = s.lostMaster := rfl
@[simp] theorem setCmover_altUpstream (c : Nat) (x : CMover) : (s.setCmover c x).altUpstream = s.altUpstream := rfl
@[simp] theorem setCmover_refPresent (c : Nat) (x : CMover) : (s.setCmover c x).refPresent = s.refPresent := rfl
@[simp] theorem setCmover_notice (c : Nat) (x : CMover) : (s.setCmover c x).notice = s.notice := rfl
@[simp] theorem setCmover_regs (c : Nat) (x : CMover) : (s.setCmover c x).regs = s.regs := rfl
@[simp] theorem setCmover_mem (c : Nat) (x : CMover) : (s.setCmover c x).mem = s.mem := rfl
@[simp] theorem setCmover_host (c : Nat) (x : CMover) : (s.setCmover c x).host = s.host := rfl
@[simp] theorem setCmover_sram (c : Nat) (x : CMover) : (s.setCmover c x).sram = s.sram := rfl
@[simp] theorem setCmover_history (c : Nat) (x : CMover) : (s.setCmover c x).history = s.history := rfl
@[simp] theorem setCmover_tiles (c : Nat) (x : CMover) : (s.setCmover c x).tiles = s.tiles := rfl
@[simp] theorem setCmover_parts (c : Nat) (x : CMover) : (s.setCmover c x).parts = s.parts := rfl
@[simp] theorem setCmover_ochre (c : Nat) (x : CMover) : (s.setCmover c x).ochre = s.ochre := rfl
@[simp] theorem setCmover_units (c : Nat) (x : CMover) : (s.setCmover c x).units = s.units := rfl
@[simp] theorem setCmover_ports (c : Nat) (x : CMover) : (s.setCmover c x).ports = s.ports := rfl
@[simp] theorem setCmover_movers (c : Nat) (x : CMover) : (s.setCmover c x).movers = s.movers := rfl
@[simp] theorem setCmover_queues (c : Nat) (x : CMover) : (s.setCmover c x).queues = s.queues := rfl
@[simp] theorem setCmover_peers (c : Nat) (x : CMover) : (s.setCmover c x).peers = s.peers := rfl
@[simp] theorem setCmover_frameSeq (c : Nat) (x : CMover) : (s.setCmover c x).frameSeq = s.frameSeq := rfl
@[simp] theorem setCmover_ide (c : Nat) (x : CMover) : (s.setCmover c x).ide = s.ide := rfl
@[simp] theorem setCmover_pci (c : Nat) (x : CMover) : (s.setCmover c x).pci = s.pci := rfl
@[simp] theorem setCmover_ident (c : Nat) (x : CMover) : (s.setCmover c x).ident = s.ident := rfl
@[simp] theorem setCmover_power (c : Nat) (x : CMover) : (s.setCmover c x).power = s.power := rfl
@[simp] theorem setCmover_test (c : Nat) (x : CMover) : (s.setCmover c x).test = s.test := rfl
@[simp] theorem setCmover_out (c : Nat) (x : CMover) : (s.setCmover c x).out = s.out := rfl
@[simp] theorem setCmover_free (c : Nat) (x : CMover) : (s.setCmover c x).free = s.free := rfl

/-! ## `setQueue` -/

@[simp] theorem setQueue_pending (q : Nat) (x : Queue) : (s.setQueue q x).pending = s.pending := rfl
@[simp] theorem setQueue_now (q : Nat) (x : Queue) : (s.setQueue q x).now = s.now := rfl
@[simp] theorem setQueue_beatStart (q : Nat) (x : Queue) : (s.setQueue q x).beatStart = s.beatStart := rfl
@[simp] theorem setQueue_bnLoad (q : Nat) (x : Queue) : (s.setQueue q x).bnLoad = s.bnLoad := rfl
@[simp] theorem setQueue_bnStep (q : Nat) (x : Queue) : (s.setQueue q x).bnStep = s.bnStep := rfl
@[simp] theorem setQueue_slew (q : Nat) (x : Queue) : (s.setQueue q x).slew = s.slew := rfl
@[simp] theorem setQueue_bnSteps (q : Nat) (x : Queue) : (s.setQueue q x).bnSteps = s.bnSteps := rfl
@[simp] theorem setQueue_retake (q : Nat) (x : Queue) : (s.setQueue q x).retake = s.retake := rfl
@[simp] theorem setQueue_holdoverBeats (q : Nat) (x : Queue) : (s.setQueue q x).holdoverBeats = s.holdoverBeats := rfl
@[simp] theorem setQueue_electionBeats (q : Nat) (x : Queue) : (s.setQueue q x).electionBeats = s.electionBeats := rfl
@[simp] theorem setQueue_lostMaster (q : Nat) (x : Queue) : (s.setQueue q x).lostMaster = s.lostMaster := rfl
@[simp] theorem setQueue_altUpstream (q : Nat) (x : Queue) : (s.setQueue q x).altUpstream = s.altUpstream := rfl
@[simp] theorem setQueue_refPresent (q : Nat) (x : Queue) : (s.setQueue q x).refPresent = s.refPresent := rfl
@[simp] theorem setQueue_notice (q : Nat) (x : Queue) : (s.setQueue q x).notice = s.notice := rfl
@[simp] theorem setQueue_regs (q : Nat) (x : Queue) : (s.setQueue q x).regs = s.regs := rfl
@[simp] theorem setQueue_mem (q : Nat) (x : Queue) : (s.setQueue q x).mem = s.mem := rfl
@[simp] theorem setQueue_host (q : Nat) (x : Queue) : (s.setQueue q x).host = s.host := rfl
@[simp] theorem setQueue_sram (q : Nat) (x : Queue) : (s.setQueue q x).sram = s.sram := rfl
@[simp] theorem setQueue_history (q : Nat) (x : Queue) : (s.setQueue q x).history = s.history := rfl
@[simp] theorem setQueue_tiles (q : Nat) (x : Queue) : (s.setQueue q x).tiles = s.tiles := rfl
@[simp] theorem setQueue_parts (q : Nat) (x : Queue) : (s.setQueue q x).parts = s.parts := rfl
@[simp] theorem setQueue_ochre (q : Nat) (x : Queue) : (s.setQueue q x).ochre = s.ochre := rfl
@[simp] theorem setQueue_units (q : Nat) (x : Queue) : (s.setQueue q x).units = s.units := rfl
@[simp] theorem setQueue_ports (q : Nat) (x : Queue) : (s.setQueue q x).ports = s.ports := rfl
@[simp] theorem setQueue_movers (q : Nat) (x : Queue) : (s.setQueue q x).movers = s.movers := rfl
@[simp] theorem setQueue_cmovers (q : Nat) (x : Queue) : (s.setQueue q x).cmovers = s.cmovers := rfl
@[simp] theorem setQueue_peers (q : Nat) (x : Queue) : (s.setQueue q x).peers = s.peers := rfl
@[simp] theorem setQueue_frameSeq (q : Nat) (x : Queue) : (s.setQueue q x).frameSeq = s.frameSeq := rfl
@[simp] theorem setQueue_ide (q : Nat) (x : Queue) : (s.setQueue q x).ide = s.ide := rfl
@[simp] theorem setQueue_pci (q : Nat) (x : Queue) : (s.setQueue q x).pci = s.pci := rfl
@[simp] theorem setQueue_ident (q : Nat) (x : Queue) : (s.setQueue q x).ident = s.ident := rfl
@[simp] theorem setQueue_power (q : Nat) (x : Queue) : (s.setQueue q x).power = s.power := rfl
@[simp] theorem setQueue_test (q : Nat) (x : Queue) : (s.setQueue q x).test = s.test := rfl
@[simp] theorem setQueue_out (q : Nat) (x : Queue) : (s.setQueue q x).out = s.out := rfl
@[simp] theorem setQueue_free (q : Nat) (x : Queue) : (s.setQueue q x).free = s.free := rfl

/-! ## `emit` -/

@[simp] theorem emit_pending (o : Out) : (s.emit o).pending = s.pending := rfl
@[simp] theorem emit_now (o : Out) : (s.emit o).now = s.now := rfl
@[simp] theorem emit_beatStart (o : Out) : (s.emit o).beatStart = s.beatStart := rfl
@[simp] theorem emit_bnLoad (o : Out) : (s.emit o).bnLoad = s.bnLoad := rfl
@[simp] theorem emit_bnStep (o : Out) : (s.emit o).bnStep = s.bnStep := rfl
@[simp] theorem emit_slew (o : Out) : (s.emit o).slew = s.slew := rfl
@[simp] theorem emit_bnSteps (o : Out) : (s.emit o).bnSteps = s.bnSteps := rfl
@[simp] theorem emit_retake (o : Out) : (s.emit o).retake = s.retake := rfl
@[simp] theorem emit_holdoverBeats (o : Out) : (s.emit o).holdoverBeats = s.holdoverBeats := rfl
@[simp] theorem emit_electionBeats (o : Out) : (s.emit o).electionBeats = s.electionBeats := rfl
@[simp] theorem emit_lostMaster (o : Out) : (s.emit o).lostMaster = s.lostMaster := rfl
@[simp] theorem emit_altUpstream (o : Out) : (s.emit o).altUpstream = s.altUpstream := rfl
@[simp] theorem emit_refPresent (o : Out) : (s.emit o).refPresent = s.refPresent := rfl
@[simp] theorem emit_notice (o : Out) : (s.emit o).notice = s.notice := rfl
@[simp] theorem emit_regs (o : Out) : (s.emit o).regs = s.regs := rfl
@[simp] theorem emit_mem (o : Out) : (s.emit o).mem = s.mem := rfl
@[simp] theorem emit_host (o : Out) : (s.emit o).host = s.host := rfl
@[simp] theorem emit_sram (o : Out) : (s.emit o).sram = s.sram := rfl
@[simp] theorem emit_history (o : Out) : (s.emit o).history = s.history := rfl
@[simp] theorem emit_tiles (o : Out) : (s.emit o).tiles = s.tiles := rfl
@[simp] theorem emit_parts (o : Out) : (s.emit o).parts = s.parts := rfl
@[simp] theorem emit_ochre (o : Out) : (s.emit o).ochre = s.ochre := rfl
@[simp] theorem emit_units (o : Out) : (s.emit o).units = s.units := rfl
@[simp] theorem emit_ports (o : Out) : (s.emit o).ports = s.ports := rfl
@[simp] theorem emit_movers (o : Out) : (s.emit o).movers = s.movers := rfl
@[simp] theorem emit_cmovers (o : Out) : (s.emit o).cmovers = s.cmovers := rfl
@[simp] theorem emit_queues (o : Out) : (s.emit o).queues = s.queues := rfl
@[simp] theorem emit_peers (o : Out) : (s.emit o).peers = s.peers := rfl
@[simp] theorem emit_frameSeq (o : Out) : (s.emit o).frameSeq = s.frameSeq := rfl
@[simp] theorem emit_ide (o : Out) : (s.emit o).ide = s.ide := rfl
@[simp] theorem emit_pci (o : Out) : (s.emit o).pci = s.pci := rfl
@[simp] theorem emit_ident (o : Out) : (s.emit o).ident = s.ident := rfl
@[simp] theorem emit_power (o : Out) : (s.emit o).power = s.power := rfl
@[simp] theorem emit_test (o : Out) : (s.emit o).test = s.test := rfl
@[simp] theorem emit_free (o : Out) : (s.emit o).free = s.free := rfl

/-! ## `wr8` -/

@[simp] theorem wr8_pending (a : Nat) (b : Byte) : (s.wr8 a b).pending = s.pending := rfl
@[simp] theorem wr8_now (a : Nat) (b : Byte) : (s.wr8 a b).now = s.now := rfl
@[simp] theorem wr8_beatStart (a : Nat) (b : Byte) : (s.wr8 a b).beatStart = s.beatStart := rfl
@[simp] theorem wr8_bnLoad (a : Nat) (b : Byte) : (s.wr8 a b).bnLoad = s.bnLoad := rfl
@[simp] theorem wr8_bnStep (a : Nat) (b : Byte) : (s.wr8 a b).bnStep = s.bnStep := rfl
@[simp] theorem wr8_slew (a : Nat) (b : Byte) : (s.wr8 a b).slew = s.slew := rfl
@[simp] theorem wr8_bnSteps (a : Nat) (b : Byte) : (s.wr8 a b).bnSteps = s.bnSteps := rfl
@[simp] theorem wr8_retake (a : Nat) (b : Byte) : (s.wr8 a b).retake = s.retake := rfl
@[simp] theorem wr8_holdoverBeats (a : Nat) (b : Byte) : (s.wr8 a b).holdoverBeats = s.holdoverBeats := rfl
@[simp] theorem wr8_electionBeats (a : Nat) (b : Byte) : (s.wr8 a b).electionBeats = s.electionBeats := rfl
@[simp] theorem wr8_lostMaster (a : Nat) (b : Byte) : (s.wr8 a b).lostMaster = s.lostMaster := rfl
@[simp] theorem wr8_altUpstream (a : Nat) (b : Byte) : (s.wr8 a b).altUpstream = s.altUpstream := rfl
@[simp] theorem wr8_refPresent (a : Nat) (b : Byte) : (s.wr8 a b).refPresent = s.refPresent := rfl
@[simp] theorem wr8_notice (a : Nat) (b : Byte) : (s.wr8 a b).notice = s.notice := rfl
@[simp] theorem wr8_regs (a : Nat) (b : Byte) : (s.wr8 a b).regs = s.regs := rfl
@[simp] theorem wr8_host (a : Nat) (b : Byte) : (s.wr8 a b).host = s.host := rfl
@[simp] theorem wr8_sram (a : Nat) (b : Byte) : (s.wr8 a b).sram = s.sram := rfl
@[simp] theorem wr8_tiles (a : Nat) (b : Byte) : (s.wr8 a b).tiles = s.tiles := rfl
@[simp] theorem wr8_parts (a : Nat) (b : Byte) : (s.wr8 a b).parts = s.parts := rfl
@[simp] theorem wr8_ochre (a : Nat) (b : Byte) : (s.wr8 a b).ochre = s.ochre := rfl
@[simp] theorem wr8_units (a : Nat) (b : Byte) : (s.wr8 a b).units = s.units := rfl
@[simp] theorem wr8_ports (a : Nat) (b : Byte) : (s.wr8 a b).ports = s.ports := rfl
@[simp] theorem wr8_movers (a : Nat) (b : Byte) : (s.wr8 a b).movers = s.movers := rfl
@[simp] theorem wr8_cmovers (a : Nat) (b : Byte) : (s.wr8 a b).cmovers = s.cmovers := rfl
@[simp] theorem wr8_queues (a : Nat) (b : Byte) : (s.wr8 a b).queues = s.queues := rfl
@[simp] theorem wr8_peers (a : Nat) (b : Byte) : (s.wr8 a b).peers = s.peers := rfl
@[simp] theorem wr8_frameSeq (a : Nat) (b : Byte) : (s.wr8 a b).frameSeq = s.frameSeq := rfl
@[simp] theorem wr8_ide (a : Nat) (b : Byte) : (s.wr8 a b).ide = s.ide := rfl
@[simp] theorem wr8_pci (a : Nat) (b : Byte) : (s.wr8 a b).pci = s.pci := rfl
@[simp] theorem wr8_ident (a : Nat) (b : Byte) : (s.wr8 a b).ident = s.ident := rfl
@[simp] theorem wr8_power (a : Nat) (b : Byte) : (s.wr8 a b).power = s.power := rfl
@[simp] theorem wr8_test (a : Nat) (b : Byte) : (s.wr8 a b).test = s.test := rfl
@[simp] theorem wr8_out (a : Nat) (b : Byte) : (s.wr8 a b).out = s.out := rfl
@[simp] theorem wr8_free (a : Nat) (b : Byte) : (s.wr8 a b).free = s.free := rfl

/-! ## `hwr8` -/

@[simp] theorem hwr8_pending (a : Nat) (b : Byte) : (s.hwr8 a b).pending = s.pending := rfl
@[simp] theorem hwr8_now (a : Nat) (b : Byte) : (s.hwr8 a b).now = s.now := rfl
@[simp] theorem hwr8_beatStart (a : Nat) (b : Byte) : (s.hwr8 a b).beatStart = s.beatStart := rfl
@[simp] theorem hwr8_bnLoad (a : Nat) (b : Byte) : (s.hwr8 a b).bnLoad = s.bnLoad := rfl
@[simp] theorem hwr8_bnStep (a : Nat) (b : Byte) : (s.hwr8 a b).bnStep = s.bnStep := rfl
@[simp] theorem hwr8_slew (a : Nat) (b : Byte) : (s.hwr8 a b).slew = s.slew := rfl
@[simp] theorem hwr8_bnSteps (a : Nat) (b : Byte) : (s.hwr8 a b).bnSteps = s.bnSteps := rfl
@[simp] theorem hwr8_retake (a : Nat) (b : Byte) : (s.hwr8 a b).retake = s.retake := rfl
@[simp] theorem hwr8_holdoverBeats (a : Nat) (b : Byte) : (s.hwr8 a b).holdoverBeats = s.holdoverBeats := rfl
@[simp] theorem hwr8_electionBeats (a : Nat) (b : Byte) : (s.hwr8 a b).electionBeats = s.electionBeats := rfl
@[simp] theorem hwr8_lostMaster (a : Nat) (b : Byte) : (s.hwr8 a b).lostMaster = s.lostMaster := rfl
@[simp] theorem hwr8_altUpstream (a : Nat) (b : Byte) : (s.hwr8 a b).altUpstream = s.altUpstream := rfl
@[simp] theorem hwr8_refPresent (a : Nat) (b : Byte) : (s.hwr8 a b).refPresent = s.refPresent := rfl
@[simp] theorem hwr8_notice (a : Nat) (b : Byte) : (s.hwr8 a b).notice = s.notice := rfl
@[simp] theorem hwr8_regs (a : Nat) (b : Byte) : (s.hwr8 a b).regs = s.regs := rfl
@[simp] theorem hwr8_mem (a : Nat) (b : Byte) : (s.hwr8 a b).mem = s.mem := rfl
@[simp] theorem hwr8_sram (a : Nat) (b : Byte) : (s.hwr8 a b).sram = s.sram := rfl
@[simp] theorem hwr8_history (a : Nat) (b : Byte) : (s.hwr8 a b).history = s.history := rfl
@[simp] theorem hwr8_tiles (a : Nat) (b : Byte) : (s.hwr8 a b).tiles = s.tiles := rfl
@[simp] theorem hwr8_parts (a : Nat) (b : Byte) : (s.hwr8 a b).parts = s.parts := rfl
@[simp] theorem hwr8_ochre (a : Nat) (b : Byte) : (s.hwr8 a b).ochre = s.ochre := rfl
@[simp] theorem hwr8_units (a : Nat) (b : Byte) : (s.hwr8 a b).units = s.units := rfl
@[simp] theorem hwr8_ports (a : Nat) (b : Byte) : (s.hwr8 a b).ports = s.ports := rfl
@[simp] theorem hwr8_movers (a : Nat) (b : Byte) : (s.hwr8 a b).movers = s.movers := rfl
@[simp] theorem hwr8_cmovers (a : Nat) (b : Byte) : (s.hwr8 a b).cmovers = s.cmovers := rfl
@[simp] theorem hwr8_queues (a : Nat) (b : Byte) : (s.hwr8 a b).queues = s.queues := rfl
@[simp] theorem hwr8_peers (a : Nat) (b : Byte) : (s.hwr8 a b).peers = s.peers := rfl
@[simp] theorem hwr8_frameSeq (a : Nat) (b : Byte) : (s.hwr8 a b).frameSeq = s.frameSeq := rfl
@[simp] theorem hwr8_ide (a : Nat) (b : Byte) : (s.hwr8 a b).ide = s.ide := rfl
@[simp] theorem hwr8_pci (a : Nat) (b : Byte) : (s.hwr8 a b).pci = s.pci := rfl
@[simp] theorem hwr8_ident (a : Nat) (b : Byte) : (s.hwr8 a b).ident = s.ident := rfl
@[simp] theorem hwr8_power (a : Nat) (b : Byte) : (s.hwr8 a b).power = s.power := rfl
@[simp] theorem hwr8_test (a : Nat) (b : Byte) : (s.hwr8 a b).test = s.test := rfl
@[simp] theorem hwr8_out (a : Nat) (b : Byte) : (s.hwr8 a b).out = s.out := rfl
@[simp] theorem hwr8_free (a : Nat) (b : Byte) : (s.hwr8 a b).free = s.free := rfl

/-! ## Parts by number -/

theorem modTile_eq (g : Nat) (f : Tile → Tile) : s.modTile g f = s.setTile g (f (s.tile g)) := rfl

@[simp] theorem tile_setTile (g : Nat) (x : Tile) : (s.setTile g x).tile g = x := by
  simp [tile, setTile]

theorem tile_setTile_ne {g j : Nat} (x : Tile) (h : j ≠ g) : (s.setTile g x).tile j = s.tile j := by
  simp [tile, setTile, mget_mput_ne _ _ _ h]

@[simp] theorem tile_setPart (p j : Nat) (x : Part) : (s.setPart p x).tile j = s.tile j := rfl
@[simp] theorem tile_setUnit (u j : Nat) (x : Unit_) : (s.setUnit u x).tile j = s.tile j := rfl
@[simp] theorem tile_setPort (k j : Nat) (x : Port) : (s.setPort k x).tile j = s.tile j := rfl
@[simp] theorem tile_setMover (k j : Nat) (x : Mover) : (s.setMover k x).tile j = s.tile j := rfl
@[simp] theorem tile_setCmover (c j : Nat) (x : CMover) : (s.setCmover c x).tile j = s.tile j := rfl
@[simp] theorem tile_setQueue (q j : Nat) (x : Queue) : (s.setQueue q x).tile j = s.tile j := rfl
@[simp] theorem tile_putF (f : Fld) (i v : Nat) (j : Nat) : (s.putF f i v).tile j = s.tile j := rfl
@[simp] theorem tile_setWord (off : Nat) (w : Word) (j : Nat) : (s.setWord off w).tile j = s.tile j := rfl
@[simp] theorem tile_emit (o : Out) (j : Nat) : (s.emit o).tile j = s.tile j := rfl
@[simp] theorem tile_wr8 (a : Nat) (b : Byte) (j : Nat) : (s.wr8 a b).tile j = s.tile j := rfl

theorem modPart_eq (p : Nat) (f : Part → Part) : s.modPart p f = s.setPart p (f (s.part p)) := rfl

@[simp] theorem part_setPart (p : Nat) (x : Part) : (s.setPart p x).part p = x := by
  simp [part, setPart]

theorem part_setPart_ne {p j : Nat} (x : Part) (h : j ≠ p) : (s.setPart p x).part j = s.part j := by
  simp [part, setPart, mget_mput_ne _ _ _ h]

@[simp] theorem part_setTile (g j : Nat) (x : Tile) : (s.setTile g x).part j = s.part j := rfl
@[simp] theorem part_setUnit (u j : Nat) (x : Unit_) : (s.setUnit u x).part j = s.part j := rfl
@[simp] theorem part_setPort (k j : Nat) (x : Port) : (s.setPort k x).part j = s.part j := rfl
@[simp] theorem part_setMover (k j : Nat) (x : Mover) : (s.setMover k x).part j = s.part j := rfl
@[simp] theorem part_setCmover (c j : Nat) (x : CMover) : (s.setCmover c x).part j = s.part j := rfl
@[simp] theorem part_setQueue (q j : Nat) (x : Queue) : (s.setQueue q x).part j = s.part j := rfl
@[simp] theorem part_putF (f : Fld) (i v : Nat) (j : Nat) : (s.putF f i v).part j = s.part j := rfl
@[simp] theorem part_setWord (off : Nat) (w : Word) (j : Nat) : (s.setWord off w).part j = s.part j := rfl
@[simp] theorem part_emit (o : Out) (j : Nat) : (s.emit o).part j = s.part j := rfl
@[simp] theorem part_wr8 (a : Nat) (b : Byte) (j : Nat) : (s.wr8 a b).part j = s.part j := rfl

theorem modUnit_eq (u : Nat) (f : Unit_ → Unit_) : s.modUnit u f = s.setUnit u (f (s.unit u)) := rfl

@[simp] theorem unit_setUnit (u : Nat) (x : Unit_) : (s.setUnit u x).unit u = x := by
  simp [unit, setUnit]

theorem unit_setUnit_ne {u j : Nat} (x : Unit_) (h : j ≠ u) : (s.setUnit u x).unit j = s.unit j := by
  simp [unit, setUnit, mget_mput_ne _ _ _ h]

@[simp] theorem unit_setTile (g j : Nat) (x : Tile) : (s.setTile g x).unit j = s.unit j := rfl
@[simp] theorem unit_setPart (p j : Nat) (x : Part) : (s.setPart p x).unit j = s.unit j := rfl
@[simp] theorem unit_setPort (k j : Nat) (x : Port) : (s.setPort k x).unit j = s.unit j := rfl
@[simp] theorem unit_setMover (k j : Nat) (x : Mover) : (s.setMover k x).unit j = s.unit j := rfl
@[simp] theorem unit_setCmover (c j : Nat) (x : CMover) : (s.setCmover c x).unit j = s.unit j := rfl
@[simp] theorem unit_setQueue (q j : Nat) (x : Queue) : (s.setQueue q x).unit j = s.unit j := rfl
@[simp] theorem unit_putF (f : Fld) (i v : Nat) (j : Nat) : (s.putF f i v).unit j = s.unit j := rfl
@[simp] theorem unit_setWord (off : Nat) (w : Word) (j : Nat) : (s.setWord off w).unit j = s.unit j := rfl
@[simp] theorem unit_emit (o : Out) (j : Nat) : (s.emit o).unit j = s.unit j := rfl
@[simp] theorem unit_wr8 (a : Nat) (b : Byte) (j : Nat) : (s.wr8 a b).unit j = s.unit j := rfl

theorem modPort_eq (k : Nat) (f : Port → Port) : s.modPort k f = s.setPort k (f (s.port k)) := rfl

@[simp] theorem port_setPort (k : Nat) (x : Port) : (s.setPort k x).port k = x := by
  simp [port, setPort]

theorem port_setPort_ne {k j : Nat} (x : Port) (h : j ≠ k) : (s.setPort k x).port j = s.port j := by
  simp [port, setPort, mget_mput_ne _ _ _ h]

@[simp] theorem port_setTile (g j : Nat) (x : Tile) : (s.setTile g x).port j = s.port j := rfl
@[simp] theorem port_setPart (p j : Nat) (x : Part) : (s.setPart p x).port j = s.port j := rfl
@[simp] theorem port_setUnit (u j : Nat) (x : Unit_) : (s.setUnit u x).port j = s.port j := rfl
@[simp] theorem port_setMover (k j : Nat) (x : Mover) : (s.setMover k x).port j = s.port j := rfl
@[simp] theorem port_setCmover (c j : Nat) (x : CMover) : (s.setCmover c x).port j = s.port j := rfl
@[simp] theorem port_setQueue (q j : Nat) (x : Queue) : (s.setQueue q x).port j = s.port j := rfl
@[simp] theorem port_putF (f : Fld) (i v : Nat) (j : Nat) : (s.putF f i v).port j = s.port j := rfl
@[simp] theorem port_setWord (off : Nat) (w : Word) (j : Nat) : (s.setWord off w).port j = s.port j := rfl
@[simp] theorem port_emit (o : Out) (j : Nat) : (s.emit o).port j = s.port j := rfl
@[simp] theorem port_wr8 (a : Nat) (b : Byte) (j : Nat) : (s.wr8 a b).port j = s.port j := rfl

theorem modMover_eq (k : Nat) (f : Mover → Mover) : s.modMover k f = s.setMover k (f (s.mover k)) := rfl

@[simp] theorem mover_setMover (k : Nat) (x : Mover) : (s.setMover k x).mover k = x := by
  simp [mover, setMover]

theorem mover_setMover_ne {k j : Nat} (x : Mover) (h : j ≠ k) : (s.setMover k x).mover j = s.mover j := by
  simp [mover, setMover, mget_mput_ne _ _ _ h]

@[simp] theorem mover_setTile (g j : Nat) (x : Tile) : (s.setTile g x).mover j = s.mover j := rfl
@[simp] theorem mover_setPart (p j : Nat) (x : Part) : (s.setPart p x).mover j = s.mover j := rfl
@[simp] theorem mover_setUnit (u j : Nat) (x : Unit_) : (s.setUnit u x).mover j = s.mover j := rfl
@[simp] theorem mover_setPort (k j : Nat) (x : Port) : (s.setPort k x).mover j = s.mover j := rfl
@[simp] theorem mover_setCmover (c j : Nat) (x : CMover) : (s.setCmover c x).mover j = s.mover j := rfl
@[simp] theorem mover_setQueue (q j : Nat) (x : Queue) : (s.setQueue q x).mover j = s.mover j := rfl
@[simp] theorem mover_putF (f : Fld) (i v : Nat) (j : Nat) : (s.putF f i v).mover j = s.mover j := rfl
@[simp] theorem mover_setWord (off : Nat) (w : Word) (j : Nat) : (s.setWord off w).mover j = s.mover j := rfl
@[simp] theorem mover_emit (o : Out) (j : Nat) : (s.emit o).mover j = s.mover j := rfl
@[simp] theorem mover_wr8 (a : Nat) (b : Byte) (j : Nat) : (s.wr8 a b).mover j = s.mover j := rfl

theorem modCmover_eq (c : Nat) (f : CMover → CMover) : s.modCmover c f = s.setCmover c (f (s.cmover c)) := rfl

@[simp] theorem cmover_setCmover (c : Nat) (x : CMover) : (s.setCmover c x).cmover c = x := by
  simp [cmover, setCmover]

theorem cmover_setCmover_ne {c j : Nat} (x : CMover) (h : j ≠ c) : (s.setCmover c x).cmover j = s.cmover j := by
  simp [cmover, setCmover, mget_mput_ne _ _ _ h]

@[simp] theorem cmover_setTile (g j : Nat) (x : Tile) : (s.setTile g x).cmover j = s.cmover j := rfl
@[simp] theorem cmover_setPart (p j : Nat) (x : Part) : (s.setPart p x).cmover j = s.cmover j := rfl
@[simp] theorem cmover_setUnit (u j : Nat) (x : Unit_) : (s.setUnit u x).cmover j = s.cmover j := rfl
@[simp] theorem cmover_setPort (k j : Nat) (x : Port) : (s.setPort k x).cmover j = s.cmover j := rfl
@[simp] theorem cmover_setMover (k j : Nat) (x : Mover) : (s.setMover k x).cmover j = s.cmover j := rfl
@[simp] theorem cmover_setQueue (q j : Nat) (x : Queue) : (s.setQueue q x).cmover j = s.cmover j := rfl
@[simp] theorem cmover_putF (f : Fld) (i v : Nat) (j : Nat) : (s.putF f i v).cmover j = s.cmover j := rfl
@[simp] theorem cmover_setWord (off : Nat) (w : Word) (j : Nat) : (s.setWord off w).cmover j = s.cmover j := rfl
@[simp] theorem cmover_emit (o : Out) (j : Nat) : (s.emit o).cmover j = s.cmover j := rfl
@[simp] theorem cmover_wr8 (a : Nat) (b : Byte) (j : Nat) : (s.wr8 a b).cmover j = s.cmover j := rfl

theorem modQueue_eq (q : Nat) (f : Queue → Queue) : s.modQueue q f = s.setQueue q (f (s.queue q)) := rfl

@[simp] theorem queue_setQueue (q : Nat) (x : Queue) : (s.setQueue q x).queue q = x := by
  simp [queue, setQueue]

theorem queue_setQueue_ne {q j : Nat} (x : Queue) (h : j ≠ q) : (s.setQueue q x).queue j = s.queue j := by
  simp [queue, setQueue, mget_mput_ne _ _ _ h]

@[simp] theorem queue_setTile (g j : Nat) (x : Tile) : (s.setTile g x).queue j = s.queue j := rfl
@[simp] theorem queue_setPart (p j : Nat) (x : Part) : (s.setPart p x).queue j = s.queue j := rfl
@[simp] theorem queue_setUnit (u j : Nat) (x : Unit_) : (s.setUnit u x).queue j = s.queue j := rfl
@[simp] theorem queue_setPort (k j : Nat) (x : Port) : (s.setPort k x).queue j = s.queue j := rfl
@[simp] theorem queue_setMover (k j : Nat) (x : Mover) : (s.setMover k x).queue j = s.queue j := rfl
@[simp] theorem queue_setCmover (c j : Nat) (x : CMover) : (s.setCmover c x).queue j = s.queue j := rfl
@[simp] theorem queue_putF (f : Fld) (i v : Nat) (j : Nat) : (s.putF f i v).queue j = s.queue j := rfl
@[simp] theorem queue_setWord (off : Nat) (w : Word) (j : Nat) : (s.setWord off w).queue j = s.queue j := rfl
@[simp] theorem queue_emit (o : Out) (j : Nat) : (s.emit o).queue j = s.queue j := rfl
@[simp] theorem queue_wr8 (a : Nat) (b : Byte) (j : Nat) : (s.wr8 a b).queue j = s.queue j := rfl

@[simp] theorem och_setOch (e q : Nat) (x : OchreQ) : (s.setOch e q x).och e q = x := by
  simp [och, setOch]

@[simp] theorem word_setTile (g : Nat) (x : Tile) (o' : Nat) : (s.setTile g x).word o' = s.word o' := rfl
@[simp] theorem getF_setTile (g : Nat) (x : Tile) (f' : Fld) (i' : Nat) : (s.setTile g x).getF f' i' = s.getF f' i' := rfl
@[simp] theorem word_setPart (p : Nat) (x : Part) (o' : Nat) : (s.setPart p x).word o' = s.word o' := rfl
@[simp] theorem getF_setPart (p : Nat) (x : Part) (f' : Fld) (i' : Nat) : (s.setPart p x).getF f' i' = s.getF f' i' := rfl
@[simp] theorem word_setUnit (u : Nat) (x : Unit_) (o' : Nat) : (s.setUnit u x).word o' = s.word o' := rfl
@[simp] theorem getF_setUnit (u : Nat) (x : Unit_) (f' : Fld) (i' : Nat) : (s.setUnit u x).getF f' i' = s.getF f' i' := rfl
@[simp] theorem word_setPort (k : Nat) (x : Port) (o' : Nat) : (s.setPort k x).word o' = s.word o' := rfl
@[simp] theorem getF_setPort (k : Nat) (x : Port) (f' : Fld) (i' : Nat) : (s.setPort k x).getF f' i' = s.getF f' i' := rfl
@[simp] theorem word_setMover (k : Nat) (x : Mover) (o' : Nat) : (s.setMover k x).word o' = s.word o' := rfl
@[simp] theorem getF_setMover (k : Nat) (x : Mover) (f' : Fld) (i' : Nat) : (s.setMover k x).getF f' i' = s.getF f' i' := rfl
@[simp] theorem word_setCmover (c : Nat) (x : CMover) (o' : Nat) : (s.setCmover c x).word o' = s.word o' := rfl
@[simp] theorem getF_setCmover (c : Nat) (x : CMover) (f' : Fld) (i' : Nat) : (s.setCmover c x).getF f' i' = s.getF f' i' := rfl
@[simp] theorem word_setQueue (q : Nat) (x : Queue) (o' : Nat) : (s.setQueue q x).word o' = s.word o' := rfl
@[simp] theorem getF_setQueue (q : Nat) (x : Queue) (f' : Fld) (i' : Nat) : (s.setQueue q x).getF f' i' = s.getF f' i' := rfl
@[simp] theorem word_emit (o : Out) (o' : Nat) : (s.emit o).word o' = s.word o' := rfl
@[simp] theorem getF_emit (o : Out) (f' : Fld) (i' : Nat) : (s.emit o).getF f' i' = s.getF f' i' := rfl
@[simp] theorem word_wr8 (a : Nat) (b : Byte) (o' : Nat) : (s.wr8 a b).word o' = s.word o' := rfl
@[simp] theorem getF_wr8 (a : Nat) (b : Byte) (f' : Fld) (i' : Nat) : (s.wr8 a b).getF f' i' = s.getF f' i' := rfl
@[simp] theorem word_hwr8 (a : Nat) (b : Byte) (o' : Nat) : (s.hwr8 a b).word o' = s.word o' := rfl
@[simp] theorem getF_hwr8 (a : Nat) (b : Byte) (f' : Fld) (i' : Nat) : (s.hwr8 a b).getF f' i' = s.getF f' i' := rfl

@[simp] theorem word_setOch (e q : Nat) (x : OchreQ) (o : Nat) : (s.setOch e q x).word o = s.word o := rfl
@[simp] theorem getF_setOch (e q : Nat) (x : OchreQ) (f : Fld) (i : Nat) : (s.setOch e q x).getF f i = s.getF f i := rfl

/-! ## Memory -/

theorem rd8_wr8 (a b : Nat) (v : Byte) : (s.wr8 a v).rd8 b = if b = a then v else s.rd8 b := mget_mput 0 s.mem a b v

@[simp] theorem rd8_putF (f : Fld) (i v a : Nat) : (s.putF f i v).rd8 a = s.rd8 a := rfl
@[simp] theorem rd8_setWord (o : Nat) (w : Word) (a : Nat) : (s.setWord o w).rd8 a = s.rd8 a := rfl
@[simp] theorem rd8_setTile (g : Nat) (t : Tile) (a : Nat) : (s.setTile g t).rd8 a = s.rd8 a := rfl
@[simp] theorem rd8_emit (o : Out) (a : Nat) : (s.emit o).rd8 a = s.rd8 a := rfl

/-- A byte outside the bytes written reads as before. -/
theorem rd8_wr_ne (a b : Nat) (l : List Byte) (h : b < a ∨ a + l.length ≤ b) : (s.wr a l).rd8 b = s.rd8 b := by
  induction l generalizing s a with
  | nil => rfl
  | cons v l ih =>
    simp only [List.length_cons] at h
    rw [wr, ih _ _ (by omega), rd8_wr8, if_neg (by omega)]

/-- A byte written reads as written. -/
theorem rd8_wr (a i : Nat) (l : List Byte) (h : i < l.length) : (s.wr a l).rd8 (a + i) = l[i] := by
  induction l generalizing s a i with
  | nil => simp at h
  | cons v l ih =>
    cases i with
    | zero =>
      rw [wr, rd8_wr_ne _ _ _ _ (by omega), Nat.add_zero, rd8_wr8, if_pos rfl]
      rfl
    | succ i =>
      have h' : i < l.length := by simpa using h
      have := ih (s.wr8 a v) (a + 1) i h'
      rw [wr, show a + (i + 1) = a + 1 + i by omega, this]
      rfl

/-- Bytes read where they were written. -/
theorem rd_wr (a : Nat) (l : List Byte) : (s.wr a l).rd a l.length = l := by
  suffices h : ∀ (t : State) (m : List Byte) (a : Nat), (∀ i (h : i < m.length), t.rd8 (a + i) = m[i]) → t.rd a m.length = m from
    h _ _ _ fun i hi => rd8_wr s a i l hi
  intro t m
  induction m with
  | nil => exact fun _ _ => rfl
  | cons v m ih =>
    intro a h
    have h0 := h 0 (by simp)
    rw [Nat.add_zero] at h0
    rw [List.length_cons, rd, h0]
    refine congrArg₂ _ rfl (ih (a + 1) fun i hi => ?_)
    have := h (i + 1) (by simpa using hi)
    rw [show a + 1 + i = a + (i + 1) by omega, this]
    rfl

end State
end Sys2Proof.Machine
end

