-- ==== Sys2Proof/Safety.lean ====
section
/-! DEFINITION. What counts as a safe run: every step answers a next state. -/

namespace Sys2Proof

/-- `n` steps from a state end in no fault and no refusal. -/
def safeFor : Nat → Machine.State → Bool
  | 0, _ => true
  | n + 1, s => match Machine.step s with
    | .next t => safeFor n t
    | _ => false

end Sys2Proof
end

