-- ==== Sys2Proof/WellFormed.lean ====
section
/-! DEFINITION. Well-formed commands: every operand that numbers something names one of the parts the module has. -/

namespace Sys2Proof

/-- Virtual functions are numbered 1 to 8 (R351). -/
def Func.wf : Func → Bool
  | .vf k => 1 ≤ k && k ≤ 8
  | .pfIde i set => i < 256 && set < 2
  | .vfIde k i set => 1 ≤ k && k ≤ 8 && i < 256 && set < 2
  | _ => true

/-- Partitions 0 to 7, tiles 0 to 255, clusters 0 to 31, fabric ports 0 to 5, engines 0 to 8, queues 0 to 255, mover
channels (host movers 0 to 31, then the 256 cluster-mover channels), task ids of 24 bits. -/
def partOk (p : Nat) : Bool := p < 8
def tileOk (g : Nat) : Bool := g < 256
def clusterOk (c : Nat) : Bool := c < 32
def portOk (k : Nat) : Bool := k < 6
def engineOk (e : Nat) : Bool := e < 9
def queueOk (q : Nat) : Bool := q < 256
def moverOk (h : Nat) : Bool := h < 288
def taskOk (t : Nat) : Bool := t < 2 ^ 24

/-- Stacks ST0 to ST7 and controllers UC0 to UC11 (R202). -/
def MemUnit.wf : MemUnit → Bool
  | .stack k => k < 8
  | .umber c => c < 12

/-- Traffic generators: one for each channel of a stack, or of an Umber package (R225). -/
def MemUnit.genOk : MemUnit → Nat → Bool
  | .stack _, n => n < 32
  | .umber _, n => n < 4

/-- A sector has 36 stored bytes, each off once (R206). -/
def SectorErr.wf (e : SectorErr) : Bool :=
  e.flips.all (fun f => f.1 < 36 && f.2 ≠ 0) && (e.flips.map (·.1)).eraseDups.length = e.flips.length

/-- The fields of a frame fit their bytes, the operand addresses 48 bits (R214). -/
def Frame.wf (f : Frame) : Bool :=
  f.opc < 2 ^ 8 && f.part < 2 ^ 8 && f.table < 2 ^ 16 && f.tag < 2 ^ 32 && f.opa < 2 ^ 48 && f.opb < 2 ^ 48 &&
  f.count < 2 ^ 32 && f.token < 2 ^ 64 && f.step < 2 ^ 64

def WheelUnit.wf : WheelUnit → Bool
  | .mem u => u.wf
  | .flit k => portOk k

/-- A well-formed command. -/
def Instr.wf : Instr → Bool
  | .registerWrite f _ _ _ => f.wf
  | .rcFieldRead f _ _ => f.wf
  | .alternateUpstream port => portOk port
  | .plnBnLoad f _ => f.wf
  | .beatFlit port _ _ => portOk port
  | .planLoadGo f p => f.wf && partOk p
  | .planLoadDone p _ => partOk p
  | .runSet f p _ => f.wf && partOk p
  | .runClear f p _ => f.wf && partOk p
  | .planStart p => partOk p
  | .stepOrigin p => partOk p
  | .tileDispatch p task g share _ => partOk p && taskOk task && tileOk g && clusterOk share
  | .clusterMove p task _ => partOk p && taskOk task
  | .hostMove p task _ => partOk p && taskOk task
  | .indexSort p _ _ => partOk p
  | .segmentReduction p _ => partOk p
  | .gatherAndPool p _ _ _ es => partOk p && es.all SectorErr.wf
  | .sparseUpdate p _ => partOk p
  | .carmineTransfer p task _ _ _ _ _ => partOk p && taskOk task
  | .collective p task _ => partOk p && taskOk task
  | .ingestDelivery p task _ => partOk p && taskOk task
  | .prefetch p _ => partOk p
  | .workingCopyCompare p _ _ _ _ _ => partOk p
  | .calibrationTask p _ _ _ => partOk p
  | .windowOpen p task _ => partOk p && taskOk task
  | .holdFlit port _ => portOk port
  | .holdLanding p _ => partOk p
  | .holdLimitReached p => partOk p
  | .plnHoldPop f p _ => f.wf && partOk p
  | .balanceDecision p finish => partOk p && finish.length ≤ 32
  | .mxMul g _ => tileOk g
  | .mxMultA g _ => tileOk g
  | .mxMultB g _ => tileOk g
  | .mxLd g _ => tileOk g
  | .mxSt g _ => tileOk g
  | .mxStq g _ => tileOk g
  | .mxZero g _ => tileOk g
  | .vcRun g _ => tileOk g
  | .vcCfg g _ => tileOk g
  | .add g _ => tileOk g
  | .sub g _ => tileOk g
  | .mul g _ => tileOk g
  | .and g _ => tileOk g
  | .or g _ => tileOk g
  | .xor g _ => tileOk g
  | .shl g _ => tileOk g
  | .shr g _ => tileOk g
  | .sra g _ => tileOk g
  | .min g _ => tileOk g
  | .max g _ => tileOk g
  | .cmpEq g _ => tileOk g
  | .cmpNe g _ => tileOk g
  | .cmpLt g _ => tileOk g
  | .cmpLtu g _ => tileOk g
  | .pand g _ => tileOk g
  | .por g _ => tileOk g
  | .pxor g _ => tileOk g
  | .xsLd g _ => tileOk g
  | .xsSt g _ => tileOk g
  | .xdSet g _ => tileOk g
  | .xdLd g _ => tileOk g
  | .xdSt g _ => tileOk g
  | .xmCopy g _ => tileOk g
  | .xmDma g _ => tileOk g
  | .csBr g _ => tileOk g
  | .csLoop g _ => tileOk g
  | .csWaitBeat g _ => tileOk g
  | .csWaitTok g _ => tileOk g
  | .csWaitCyc g _ => tileOk g
  | .csArrive g _ => tileOk g
  | .csHalt g _ => tileOk g
  | .instructionResultVisible g => tileOk g
  | .waitBeatSatisfied g => tileOk g
  | .waitTokSatisfied g => tileOk g
  | .waitCycExpiry g => tileOk g
  | .waitTimeout g => tileOk g
  | .arriveIncrement g => tileOk g
  | .dmaArrival c ch => clusterOk c && partOk ch
  | .cfg e f => engineOk e && f.wf
  | .gather e f es => engineOk e && f.wf && es.all SectorErr.wf
  | .pool e f es => engineOk e && f.wf && es.all SectorErr.wf
  | .update e f es => engineOk e && f.wf && es.all SectorErr.wf
  | .copy e f es => engineOk e && f.wf && es.all SectorErr.wf
  | .restore e f => engineOk e && f.wf
  | .release e f => engineOk e && f.wf
  | .fence e f => engineOk e && f.wf
  | .ochreCommandComplete e q _ => engineOk e && partOk q
  | .completionRecordRead e q => engineOk e && partOk q
  | .placementPeriod p => partOk p
  | .pageCopy p => partOk p
  | .shardMoveDecision p _ _ => partOk p
  | .rowReplGo f p _ => f.wf && partOk p
  | .replacementCopyDone p => partOk p
  | .replacementStateExchange p _ => partOk p
  | .refresh u => u.wf
  | .patrolScrub u es => u.wf && es.all SectorErr.wf
  | .refreshManagement u => u.wf
  | .temperatureReadout u _ => u.wf
  | .regCtrlDiscard u => u.wf
  | .marginOffline u _ => u.wf
  | .offlineEnter u => u.wf
  | .offlineLeave u _ => u.wf
  | .marginApply u _ => u.wf
  | .tgGo u n _ => u.wf && u.genOk n
  | .tgDone u n es => u.wf && u.genOk n && es.all SectorErr.wf
  | .fabCfgWrite f _ => f.wf
  | .portEnable port _ => portOk port
  | .opticalSignalDetect port => portOk port
  | .equaliseDone port _ => portOk port
  | .alignDone port _ _ _ => portOk port
  | .keyingDone port _ => portOk port
  | .trainingLimitExpiry port => portOk port
  | .portRetrain port => portOk port
  | .laneLoss port _ => portOk port
  | .remapDone port => portOk port
  | .portSignalLost port => portOk port
  | .nakReceive port _ => portOk port
  | .retryTimeout port => portOk port
  | .sealFlit port _ _ _ _ _ => portOk port
  | .bypassOpen f _ => f.wf
  | .deltaSend p _ _ => partOk p
  | .deltaEnd p _ _ _ => partOk p
  | .deltaAck p _ _ => partOk p
  | .deltaLogApply p _ => partOk p
  | .failureNotice p _ _ => partOk p
  | .hostingDecision p => partOk p
  | .resume p _ => partOk p
  | .lateResumeReport p _ => partOk p
  | .hostingStop p _ _ => partOk p
  | .portStatusReport p _ _ _ => partOk p
  | .restart p _ _ => partOk p
  | .commitStateReport p _ _ => partOk p
  | .hostClaim f p _ => f.wf && partOk p
  | .commitReportSend p => partOk p
  | .commitReportReceive p _ => partOk p
  | .rerunOrigin p => partOk p
  | .commitBeat p => partOk p
  | .vfFlr k => 1 ≤ k && k ≤ 8
  | .bar2WindowAccess f _ _ _ => f.wf
  | .dmaQring f q _ => f.wf && queueOk q
  | .dmaQarm f q _ => f.wf && queueOk q
  | .dmaQabort f q => f.wf && queueOk q
  | .abortComplete h => clusterOk h
  | .moverChainStart h => moverOk h
  | .descriptorStart h => moverOk h
  | .descriptorComplete h => moverOk h
  | .hostCompletionError h => clusterOk h
  | .dmaMcfgWrite f h _ => f.wf && clusterOk h
  | .creditSend p => partOk p
  | .stmCkptGo f p _ => f.wf && partOk p
  | .ckptFrameSend p _ => partOk p
  | .fwUpdateGo f _ => f.wf
  | .recoveryGo f _ _ _ => f.wf
  | .svnCommit f _ => f.wf
  | .prtGranWrite f _ _ => f.wf
  | .prtClustersWrite f p _ => f.wf && partOk p
  | .prtQuotaWrite f p _ => f.wf && partOk p
  | .prtReset f p _ => f.wf && partOk p
  | .prtFrzPop f p _ => f.wf && partOk p
  | .wipeComplete p => partOk p
  | .pwrTargetRun f _ => f.wf
  | .pwrTargetIdle f _ => f.wf
  | .pwrTargetSleep f _ => f.wf
  | .pwrTargetDeepSleep f _ => f.wf
  | .pwrTargetOff f _ => f.wf
  | .pwrRampWrite f _ => f.wf
  | .tstMbistGo f _ => f.wf
  | .ashSegmentStart c _ => clusterOk c
  | .ashSegmentEnd c _ => clusterOk c
  | .tstFtgGo f _ => f.wf
  | .tstElogPop f _ => f.wf
  | .flitDiscard port _ _ => portOk port
  | .ackReceive port _ => portOk port
  | .indexUnitComplete p _ => partOk p
  | .beat | .beatSourceLost | .masterMarkerLoss | .holdoverExit .. | .upstreamReturn | .masterDeclare | .beatLost
  | .bnLoadApply | .wheelApply | .writeMessage .. | .collectiveMessage .. | .rowUniqueKeys .. | .rowBagEntries ..
  | .rowShardPartials .. | .rowGradients .. | .rowWinnerVectors .. | .testMessage .. | .pfFlr | .getChain _
  | .kemKey .. | .keyGo .. | .ideStop _ | .getReport _ | .getNonce | .setOwner _ | .releaseOwner _ | .deploy _
  | .returnLc _ | .scrap _ | .sampleFrame .. | .endFrame .. | .registerFrame .. | .creditFrame .. | .kexFrame ..
  | .streamLinkChange .. | .coldBoot .. | .fwUpdateDone .. | .entropyFailure | .entropyFailureTimeout
  | .idleTimerExpiry | .domainWake | .transitionComplete _ | .deepSleepBnAdvance | .wakeNAssert | .wakeTimerExpiry
  | .perstNAssert | .perstNDeassert | .inputPowerLoss | .inputPowerRestored | .auxPowerApplied | .inputStageOn
  | .auxPowerLoss | .thermalTrip | .mbistDone _ | .extest | .clamp | .highz | .idcode | .jtagBar0Access ..
  | .otherFrame .. | .provision .. | .tripCooldown _ => true

end Sys2Proof
end

