-- ==== Sys2Proof/Tests/Slice0.lean ====
section
/-! SUPPORT. Tests: an ill-formed command for each check of `Instr.wf`, values from the worked examples of the spec, and
for every statement a state and operands that meet its hypotheses, one for each clause that has some. -/

/- Theorem by theorem: with the stack each thread gets, many at a time meet the memory limit. -/
set_option Elab.async false

namespace Sys2Proof.Tests

open Sys2Proof Sys2Proof.Machine

/-! ## Ill-formed commands -/

theorem test_wf_refuses_function : Instr.wf (.plnBnLoad (.vf 9) 0) = false := by decide
theorem test_wf_refuses_function_zero : Instr.wf (.vfFlr 0) = false := by decide
theorem test_wf_refuses_partition : Instr.wf (.planStart 8) = false := by decide
theorem test_wf_refuses_tile : Instr.wf (.mxMul 256 0) = false := by decide
theorem test_wf_refuses_cluster : Instr.wf (.ashSegmentStart 32 0) = false := by decide
theorem test_wf_refuses_port : Instr.wf (.retryTimeout 6) = false := by decide
theorem test_wf_refuses_engine : Instr.wf (.completionRecordRead 9 0) = false := by decide
theorem test_wf_refuses_queue : Instr.wf (.dmaQabort .pf 256) = false := by decide
theorem test_wf_refuses_mover : Instr.wf (.descriptorStart 288) = false := by decide
theorem test_wf_refuses_task : Instr.wf (.hostMove 0 (2 ^ 24) 0) = false := by decide
theorem test_wf_refuses_stack : Instr.wf (.refresh (.stack 8)) = false := by decide
theorem test_wf_refuses_controller : Instr.wf (.refresh (.umber 12)) = false := by decide
theorem test_wf_refuses_generator : Instr.wf (.tgGo (.stack 0) 32 0) = false := by decide
theorem test_wf_refuses_shares : Instr.wf (.balanceDecision 0 (List.replicate 33 0)) = false := by decide
theorem test_wf_flit_wheel_port : WheelUnit.wf (.flit 6) = false := by decide
theorem test_no_word_is_a_command : decodeTableWord 64 0 = none := rfl

/-! ## States the tests are made on -/

/-- After reset. -/
def w0 : State := State.reset
/-- Ready: booted, in Run. -/
def w1 : State := { w0.putF F.GEN_STATUS_READY 0 1 with power := { w0.power with booting := false } }
/-- `w1` in a torus of 4 × 2 × 1, at position 0, with every port Up. -/
def w2 : State :=
  (List.range 6).foldl (fun s k => s.putF F.FAB_PSTAT_STATE k 5) ((w1.putF F.FAB_CFG_X_M1 0 3).putF F.FAB_CFG_Y_M1 0 1)
/-- A plan of one rank with no task. -/
def wPlan : Plan :=
  { rankCount := 1, clusters := 2, options := 0, seed := 0, meas := 7, tasks := [], deps := [], kernels := [], tables := [],
    budgets := [], classes := none,
    params := { cmpPeriod := 0, jnlSectors := 0, layers := [], tensors := [], clips := [], hyps := [] },
    ranks := { ofsX := 0, ofsY := 0, ofsZ := 0, pdim := 0, pdir := 0, hostBytes := 0, deltaBytes := 0, colls := [] } }
/-- A task of a kind. -/
def wTask (id kind : Nat) : Task :=
  { id := id, kind := kind, flags := 0, mb := 1, resources := 0, cycles := 0, table := 0, kernel := 0, bytes := 64,
    depFirst := 0, depCount := 0 }
/-- A state with a plan in progress in partition 0. -/
def wRun (pl : Plan) (s : State) : State :=
  (s.setRun 0 true).modPart 0 fun x => { x with
    plan := some pl, active := true, stepLen := 200, graph := pl.tasks.length,
    sched := pl.tasks.map fun t => { task := t.id, start := 0, dur := 10, units := [0] } }
/-- A table of 100 rows of 16 FP32 elements. -/
def wTable : TableDesc :=
  { rows := 100, elems := 16, fmt := 0, pool := 0, rule := 1, shb := 0, flags := 0, budget := 0, epoch := 0, hyp := 0, hbmPages := 1 }
/-- What a table holds in the middle of a step. -/
def wSt : TableSt :=
  { TableSt.reset with
    lists := [(5, [{ bag := 0, index := 7, weight := 0x3F800000 }, { bag := 0, index := 3, weight := 0x3F800000 }, { bag := 1, index := 7, weight := 0x3F800000 }, { bag := 2, index := 2 ^ 40 - 1, weight := 0x3F800000 }])],
    recv := [{ rank := 0, mb := 5, keys := [3, 7], entries := [{ bag := 1, seg := 1, pos := 0, weight := 0x3F800000 }, { bag := 2, seg := 0, pos := 1, weight := 0x3F800000 }], grads := [], winners := [], gathered := false },
      { rank := 0, mb := 65541, keys := [9], entries := [], grads := [], winners := [], gathered := false }],
    entries := [{ key := 7, rank := 0, mb := 5, pos := 1, vals := List.replicate 16 0x40000000 }, { key := 3, rank := 0, mb := 5, pos := 0, vals := List.replicate 16 0x3F800000 }, { key := 7, rank := 0, mb := 4, pos := 0, vals := List.replicate 16 0x3F800000 }, { key := 1, rank := 0, mb := 65540, pos := 0, vals := List.replicate 16 0x3F800000 }],
    rowGrads := [(3, List.replicate 16 0x3F800000), (7, List.replicate 16 0x40000000)] }
/-- A plan with `wTable` and one task of each row kind. -/
def wTabPlan : Plan :=
  { wPlan with tables := [wTable], tasks := [wTask 0 4, { wTask 1 6 with mb := 5 }, wTask 2 7, wTask 3 0x0C] }
/-- `wTabPlan` in progress. -/
def wTab : State := (wRun wTabPlan w1).modPart 0 fun x => { x with tables := [(tableKey 0 0, wSt)] }
/-- `wTabPlan` in progress in the torus of `w2`. -/
def wTab2 : State := (wRun wTabPlan w2).modPart 0 fun x => { x with tables := [(tableKey 0 0, wSt)] }
/-- The header of a message from module 1 to this one. -/
def wHdr (kind p addr token : Nat) : MsgHdr :=
  { dest := 0, src := 1, kind := kind, part := p, attempt := 0, next := false, step := 0, addr := addr, token := token, task := 0 }
/-- A plan of eight ranks with one collective task. -/
def wCollPlan (c : CollDesc) : Plan :=
  { wPlan with rankCount := 8, tasks := [wTask 0 9], ranks := { wPlan.ranks with colls := [c] } }
/-- A tile word: `E`, slot, opcode and the bits below. -/
def wWord (e slot op rest : Nat) : Word := BitVec.ofNat 64 (2 ^ 62 * e + 2 ^ 60 * slot + 2 ^ 48 * op + rest)
/-- A descriptor of one block. -/
def wDesc (fmt len base : Nat) : Desc := BitVec.ofNat 128 (2 ^ 124 * fmt + 2 ^ 80 + 2 ^ 64 + 2 ^ 47 * len + base)
/-- A chain of one stage. -/
def wEntry : List Byte := [1] ++ List.replicate 31 0 ++ [2, 1] ++ List.replicate 222 0
/-- A state whose tile 9 runs at word 3. -/
def wTile : State :=
  (w1.putF F.TIL_STATUS_STATE 9 1).modTile 9 fun t => { t with
    sregs := [(1, 0xFFFFFFFFFFFFFFFD), (2, 7), (3, 0x4000), (4, 0x10000040), (5, 0x82)], preds := [(1, true)],
    dregs := [(1, wDesc 0 128 0x10000), (2, wDesc 1 128 0x20000), (3, wDesc 1 128 0x30000), (4, wDesc 0 128 0x40000)],
    chains := [(6, wEntry)], pc := 3, nextIssue := 4, seq := 2 }

/-! ## Values of the worked examples -/

/-- Locating an element: (300, 1,000) of a BF16 weight (chapter 4). -/
theorem test_element_address :
    let d := BitVec.ofNat 128 (2 ^ 124 + 2 ^ 96 * 4096 + 2 ^ 80 * 8 + 2 ^ 64 * 4 + 0x1040_0000)
    dBase d + blockOff d (2 * dCols d + 7) + 2 * storePos 44 104 = 0x104B_AC28 := by decide +kernel
/-- One tile and its Cluster Store seen three ways (chapter 18). -/
theorem test_three_ways : F.TIL_FAULT_PC.off 137 = 0x144_8010 ∧ clusterAddr 17 + 0x1234 = 0x0F00_2200_1234 ∧
    tileAddr 137 = 0x0F10_0890_0000 ∧ State.barWindow (.vf 3) 0x1234 = some (4, 0x1234) := by decide +kernel
/-- Row keys of rank 1's micro-batch of table 12: two entries take the default row (chapter 7). -/
theorem test_row_keys :
    [17, 6, 17, 9, 2 ^ 41, 6, 1000003, 12].map (keyOf { wTable with rows := 1000000, shb := 2 }) =
      [17, 6, 17, 9, 2 ^ 40, 6, 2 ^ 40, 12] := by decide +kernel
/-- Row 6's segment: 0.125, 0.5 and 1.0 give 1.625 (chapter 7). -/
theorem test_segment_sum : segmentSum 2 [[0x3E000000], [0x3F000000], [0x3F800000]] = [0x3FD00000] := by decide +kernel
/-- Bag 2's pooled value: 0.75 + 3.0 = 3.75 (chapter 7). -/
theorem test_pooled_value : joinNodes 0 ([0x3F400000], []) ([0x40400000], []) = ([0x40700000], []) := by decide +kernel
/-- A surge in one layer: 3.7 stores with exponent −5 and 1,000 with 3, both doubled (chapter 6). -/
theorem test_scale_exponents :
    scaleExp ((f32v 0x40ECCCCD).dy) ⟨448, 0⟩ = -5 ∧ scaleExp ⟨2000, 0⟩ ⟨448, 0⟩ = 3 := by decide +kernel
/-- A masked attention block: 1/3 is 0x3EAAAAAB and 0x3EAB in BF16 (chapter 5). -/
theorem test_third : fdiv 0x3F800000 0x40400000 = 0x3EAAAAAB := by decide +kernel
/-- Requests that land together: demands of 4 and 2 and an overrun add 5 beats (chapter 2). -/
theorem test_hold_landing :
    State.entryLen (State.mergeEntry { land := 612, demand := 4, overrun := false, cause := 1, part := 0, origin := 5, task := 1 }
      (State.mergeEntry { land := 612, demand := 2, overrun := false, cause := 1, part := 0, origin := 42, task := 1 }
        { land := 612, demand := 0, overrun := true, cause := 3, part := 0, origin := 22, task := 2 })) = 5 := by decide +kernel
/-- An aborted reshape: 128,000 bytes fill lines 0 to 63, and 172,000 are left (chapter 13). -/
theorem test_aborted_reshape :
    MDesc.total { src := 0, dst := 0, sstride := 4096, dstride := 2048, slen := 3000, scount := 100, dlen := 2000, dcount := 150,
                  next := 0, ctrl := 0, rsvd := true } - 128000 = 172000 ∧
      (linesOf 0 2048 2000 150)[64]? = some (64 * 2048, 2000) := by decide +kernel

/-! ## Witnesses -/

/-! ### group 01 -/

theorem witness_StepRunsFrontCommand :
    (∃ (s : State), ∃ (c : Instr), ∃ (rest : List Instr), s.pending = c :: rest) :=
  ⟨{ w1 with pending := [.beat, .beatLost] }, .beat, [.beatLost], by decide +kernel⟩
theorem witness_IdleStepPassesOneCycle :
    (∃ (s : State), s.pending = [] ∧ (∀ t ∈ s.tiles, t.2.partAt = none) ∧ s.clocked = false) ∧
    (∃ (s : State), s.pending = [] ∧ (∀ t ∈ s.tiles, t.2.partAt = none) ∧ s.clocked = true ∧ s.dueNow ≠ []) ∧
    (∃ (s : State), s.pending = [] ∧ (∀ t ∈ s.tiles, t.2.partAt = none) ∧ s.clocked = true ∧ s.dueNow = [] ∧ s.now + 1 < s.beatStart + s.beatLength) ∧
    (∃ (s : State), s.pending = [] ∧ (∀ t ∈ s.tiles, t.2.partAt = none) ∧ s.clocked = true ∧ s.dueNow = [] ∧ s.beatStart + s.beatLength ≤ s.now + 1) ∧
    (∃ (s : State), s.pending = [] ∧ (∀ t ∈ s.tiles, t.2.partAt = none) ∧ s.clocked = true ∧ s.dueNow = [] ∧ s.beatStart + s.beatLength ≤ s.now + 1) :=
  ⟨⟨w0, by decide +kernel⟩,
   ⟨(w1.putF F.TIL_STATUS_STATE 9 2).modTile 9 fun t => { t with wait := some (.cyc 0) }, by decide +kernel⟩,
   ⟨w1, by decide +kernel⟩,
   ⟨{ w1 with now := 1023 }, by decide +kernel⟩,
   ⟨{ w1 with now := 1023 }, by decide +kernel⟩⟩
theorem witness_ResetRegisters :
    (∃ p, 1 ≤ p ∧ p < 8) ∧
    (∃ p, 1 ≤ p ∧ p < 8) ∧
    (∃ i, i < 132) ∧
    (∃ p, p < 8) ∧
    (∃ p, p < 8) :=
  ⟨⟨7, by decide +kernel⟩,
   ⟨1, by decide +kernel⟩,
   ⟨131, by decide +kernel⟩,
   ⟨7, by decide +kernel⟩,
   ⟨0, by decide +kernel⟩⟩
theorem witness_StepKeepsCanonical :
    (∃ (s : State), ∃ (t : State), s.canonical = true ∧ step s = .next t) :=
  ⟨w1, w1.tick, by decide +kernel, rfl⟩
theorem witness_StepKeepsFuses :
    (∃ (s : State), ∃ (t : State), step s = .next t) :=
  ⟨w1, w1.tick, rfl⟩
/-! ### group 08 -/
def wErrRow : RegRow := ⟨0x18, 1, 0x0, 1, 0x0, [F.GEN_ERR_ACCESS, F.GEN_ERR_DISCARD, F.GEN_ERR_VALID, F.GEN_ERR_FUNC, F.GEN_ERR_KIND, F.GEN_ERR_OFFSET]⟩
def wCfgRow : RegRow := ((regAt 0x300000).getD (⟨0, 0, 0, 0, 0, []⟩, 0)).1
def wErr : State := { w1 with regs := [(0x18, 0x0003000480000123)] }

theorem witness_RegisterWritePlain :
    (∃ (s : State), ∃ (f : Func), ∃ (off : Nat), ∃ (size : Nat), ∃ (o : Nat), ∃ (hi : Nat), ∃ (lo : Nat), ∃ (r : RegRow), ∃ (i : Nat), State.sizeOk off size = true ∧ s.mapOff f (off - off % 8) = some o ∧ Open s f o ∧ regAt o = some (r, i) ∧ State.accessBits off size = (hi, lo) ∧ State.reachesOwn r hi lo = false) ∧
    (∃ (s : State), ∃ (f : Func), ∃ (off : Nat), ∃ (size : Nat), ∃ (o : Nat), ∃ (hi : Nat), ∃ (lo : Nat), ∃ (r : RegRow), ∃ (i : Nat), State.sizeOk off size = true ∧ s.mapOff f (off - off % 8) = some o ∧ Open s f o ∧ regAt o = some (r, i) ∧ State.accessBits off size = (hi, lo) ∧ State.reachesOwn r hi lo = false) ∧
    (∃ (s : State), ∃ (f : Func), ∃ (off : Nat), ∃ (size : Nat), ∃ (o : Nat), ∃ (hi : Nat), ∃ (lo : Nat), ∃ (r : RegRow), ∃ (i : Nat), State.sizeOk off size = true ∧ s.mapOff f (off - off % 8) = some o ∧ Open s f o ∧ regAt o = some (r, i) ∧ State.accessBits off size = (hi, lo) ∧ State.reachesOwn r hi lo = false) ∧
    (∃ (s : State), ∃ (f : Func), ∃ (off : Nat), ∃ (size : Nat), ∃ (o : Nat), ∃ (hi : Nat), ∃ (lo : Nat), ∃ (r : RegRow), ∃ (i : Nat), State.sizeOk off size = true ∧ s.mapOff f (off - off % 8) = some o ∧ Open s f o ∧ regAt o = some (r, i) ∧ State.accessBits off size = (hi, lo) ∧ State.reachesOwn r hi lo = false ∧ o ≠ F.PLN_BEAT_CFG_SRC.base) ∧
    (∃ (s : State), ∃ (f : Func), ∃ (off : Nat), ∃ (size : Nat), ∃ (o : Nat), ∃ (hi : Nat), ∃ (lo : Nat), ∃ (r : RegRow), ∃ (i : Nat), State.sizeOk off size = true ∧ s.mapOff f (off - off % 8) = some o ∧ Open s f o ∧ regAt o = some (r, i) ∧ State.accessBits off size = (hi, lo) ∧ State.reachesOwn r hi lo = false ∧ o ≠ F.PLN_BEAT_CFG_SRC.base ∧ ¬ (0x70_0000 ≤ o ∧ o < 0x70_8000) ∧ ¬ (0x80_0000 ≤ o ∧ o < 0x80_C000) ∧ ¬ (0xD2_0000 ≤ o ∧ o < 0xD2_0300)) ∧
    (∃ (s : State), ∃ (f : Func), ∃ (off : Nat), ∃ (size : Nat), ∃ (o : Nat), ∃ (hi : Nat), ∃ (lo : Nat), ∃ (r : RegRow), ∃ (i : Nat), State.sizeOk off size = true ∧ s.mapOff f (off - off % 8) = some o ∧ Open s f o ∧ regAt o = some (r, i) ∧ State.accessBits off size = (hi, lo) ∧ State.reachesOwn r hi lo = false ∧ o = F.PLN_BEAT_CFG_SRC.base) :=
  ⟨⟨wErr, .pf, 0x18, 8, 0x18, 63, 0, wErrRow, 0, by decide +kernel⟩,
   ⟨wErr, .pf, 0x1C, 4, 0x18, 63, 32, wErrRow, 0, by decide +kernel⟩,
   ⟨w1, .jtag, 0x300000, 8, 0x300000, 63, 0, wCfgRow, 0, by decide +kernel⟩,
   ⟨wErr, .pf, 0x18, 4, 0x18, 31, 0, wErrRow, 0, by decide +kernel⟩,
   ⟨wErr, .pf, 0x18, 4, 0x18, 31, 0, wErrRow, 0, by decide +kernel⟩,
   ⟨w1, .pf, 0x300000, 8, 0x300000, 63, 0, wCfgRow, 0, by decide +kernel⟩⟩
theorem witness_RegisterWriteCommands :
    (∃ (s : State), ∃ (p : Nat), Taken s .pf ∧ p < 8) ∧
    (∃ (s : State), ∃ (p : Nat), Taken s .pf ∧ p < 8) ∧
    (∃ (s : State), ∃ (p : Nat), Taken s .pf ∧ p < 8) ∧
    (∃ (s : State), ∃ (v : Word), ∃ (p : Nat), Taken s .pf ∧ p < 8 ∧ getBits v 0 0 = 1) ∧
    (∃ (s : State), ∃ (p : Nat), Taken s .pf ∧ p < 8) ∧
    (∃ (s : State), ∃ (p : Nat), ∃ h, Taken s .pf ∧ p < 8 ∧ h < 32) ∧
    (∃ (s : State), ∃ (p : Nat), Taken s .pf ∧ p < 8) ∧
    (∃ (s : State), ∃ (p : Nat), Taken s .pf ∧ p < 8) ∧
    (∃ (s : State), ∃ (p : Nat), Taken s .pf ∧ p < 8) ∧
    (∃ (s : State), ∃ (p : Nat), Taken s .pf ∧ p < 8) ∧
    (∃ (s : State), ∃ (p : Nat), Taken s .pf ∧ p < 8) ∧
    (∃ (s : State), ∃ (p : Nat), Taken s .pf ∧ p < 8) ∧
    (∃ (s : State), ∃ (p : Nat), Taken s .pf ∧ p < 8) ∧
    (∃ (s : State), ∃ (p : Nat), ∃ i, Taken s .pf ∧ p < 8 ∧ i < 132) ∧
    (∃ (s : State), ∃ (p : Nat), Taken s .pf ∧ p < 8) ∧
    (∃ (s : State), ∃ (p : Nat), Taken s .pf ∧ p < 8) ∧
    (∃ (s : State), ∃ (p : Nat), Taken s .pf ∧ p < 8) ∧
    (∃ (s : State), ∃ (p : Nat), Taken s .pf ∧ p < 8) :=
  ⟨⟨w1, 7, by decide +kernel⟩,
   ⟨w1, 7, by decide +kernel⟩,
   ⟨w1, 7, by decide +kernel⟩,
   ⟨w1, 0x8000000000000001, 7, by decide +kernel⟩,
   ⟨w1, 7, by decide +kernel⟩,
   ⟨w1, 7, 31, by decide +kernel⟩,
   ⟨w1, 7, by decide +kernel⟩,
   ⟨w1, 7, by decide +kernel⟩,
   ⟨w1, 7, by decide +kernel⟩,
   ⟨w1, 7, by decide +kernel⟩,
   ⟨w1, 7, by decide +kernel⟩,
   ⟨w1, 7, by decide +kernel⟩,
   ⟨w1, 7, by decide +kernel⟩,
   ⟨w1, 7, 131, by decide +kernel⟩,
   ⟨w1, 7, by decide +kernel⟩,
   ⟨w1, 7, by decide +kernel⟩,
   ⟨w1, 7, by decide +kernel⟩,
   ⟨w1, 7, by decide +kernel⟩⟩
theorem witness_LinkTakesRequests :
    (∃ (s : State), ∃ (f : Func), f.base = f ∧ f ≠ .jtag ∧ s.flag F.DMA_HCFG_IDE_REQ 0 = true) ∧
    (∃ (s : State), ∃ i, ∃ k, (s.ideStream i).sets.any (·.1 = k) = false) ∧
    (∃ (s : State), ∃ (off : Nat), ∃ (size : Nat), ∃ i, ∃ k, (s.ideStream i).sets.any (·.1 = k) = true ∧ s.mapOff .pf (off - off % 8) = none ∧ State.sizeOk off size = true) :=
  ⟨⟨w1.putF F.DMA_HCFG_IDE_REQ 0 1, .pf, by decide +kernel⟩,
   ⟨w1.putF F.DMA_HCFG_IDE_REQ 0 1, 3, 1, by decide +kernel⟩,
   ⟨{ w1 with ide := [{ id := 3, sets := [(0, 5), (1, 6)], tx := some 1, stage := 0, pendingKeys := 0 }] }, 0x2000000, 8, 3, 1, by decide +kernel⟩⟩
theorem witness_ReadClearsWholeRcFields :
    (∃ (s : State), ∃ (f : Func), ∃ (off : Nat), ∃ (size : Nat), ∃ (o : Nat), ∃ (hi : Nat), ∃ (lo : Nat), ∃ (r : RegRow), ∃ (i : Nat), State.sizeOk off size = true ∧ Taken s f ∧ s.mapOff f (off - off % 8) = some o ∧ s.blockOpen o = true ∧ s.right f o ≠ .hidden ∧ s.right f o ≠ .shut ∧ regAt o = some (r, i) ∧ State.accessBits off size = (hi, lo)) ∧
    (∃ (s : State), ∃ (f : Func), ∃ (off : Nat), ∃ (size : Nat), ∃ (o : Nat), ∃ (hi : Nat), ∃ (lo : Nat), ∃ (r : RegRow), ∃ (i : Nat), State.sizeOk off size = true ∧ Taken s f ∧ s.mapOff f (off - off % 8) = some o ∧ s.blockOpen o = true ∧ s.right f o ≠ .hidden ∧ s.right f o ≠ .shut ∧ regAt o = some (r, i) ∧ State.accessBits off size = (hi, lo)) ∧
    (∃ (s : State), ∃ (f : Func), ∃ (off : Nat), ∃ (size : Nat), ∃ (o : Nat), ∃ (hi : Nat), ∃ (lo : Nat), ∃ (r : RegRow), ∃ (i : Nat), State.sizeOk off size = true ∧ Taken s f ∧ s.mapOff f (off - off % 8) = some o ∧ s.blockOpen o = true ∧ s.right f o ≠ .hidden ∧ s.right f o ≠ .shut ∧ regAt o = some (r, i) ∧ State.accessBits off size = (hi, lo)) :=
  ⟨⟨wErr, .pf, 0x18, 8, 0x18, 63, 0, wErrRow, 0, by decide +kernel⟩,
   ⟨wErr, .pf, 0x1C, 4, 0x18, 63, 32, wErrRow, 0, by decide +kernel⟩,
   ⟨wErr, .pf, 0x18, 4, 0x18, 31, 0, wErrRow, 0, by decide +kernel⟩⟩
/-! ### group 02 -/
def wBeat : State := (w1.putF F.PLN_BN_BN 0 (2 ^ 64 - 1)).modPart 1 fun x => { x with active := true, stepLen := 100 }
def wPos : State := ((w1.putF F.PLN_BN_BN 0 41).putF F.PLN_SPOS_POS 1 99).modPart 1 fun x => { x with active := true, stepLen := 100 }
def wMark : BeatBody := { bn := 77, master := 3, holdover := false, edgeOfs := 5, dir := 0, holds := [] }
def wUp : State := ((w2.putF F.PLN_BEAT_STATUS_CUR_MASTER 0 3).putF F.PLN_BEAT_STATUS_UPSTREAM 0 1)

theorem witness_BeatCountsOne :
    (∃ (s : State), s.pendCount = 0 ∧ (∀ p, p < 8 → (s.part p).acts = [] ∧ s.checkerOn p = false) ∧ (s.bnStep = none ∨ s.anyRun = false)) :=
  ⟨wBeat, by decide +kernel⟩
theorem witness_PositionAdvancesOrHolds :
    (∃ (s : State), ∃ (p : Nat), p < 8 ∧ s.pendCount = 0 ∧ (∀ q, q < 8 → (s.part q).acts = [] ∧ s.checkerOn q = false) ∧ s.bnStep = none ∧ s.bn + 1 < 2 ^ 64 ∧ (∀ e ∈ (s.part p).merged, ¬ ((s.part p).landedBn < e.land ∧ e.land ≤ s.bn + 1))) ∧
    (∃ (s : State), ∃ (p : Nat), p < 8 ∧ s.pendCount = 0 ∧ (∀ q, q < 8 → (s.part q).acts = [] ∧ s.checkerOn q = false) ∧ s.bnStep = none ∧ s.bn + 1 < 2 ^ 64 ∧ (∀ e ∈ (s.part p).merged, ¬ ((s.part p).landedBn < e.land ∧ e.land ≤ s.bn + 1)) ∧ (s.part p).active = false) ∧
    (∃ (s : State), ∃ (p : Nat), p < 8 ∧ s.pendCount = 0 ∧ (∀ q, q < 8 → (s.part q).acts = [] ∧ s.checkerOn q = false) ∧ s.bnStep = none ∧ s.bn + 1 < 2 ^ 64 ∧ (∀ e ∈ (s.part p).merged, ¬ ((s.part p).landedBn < e.land ∧ e.land ≤ s.bn + 1)) ∧ (s.part p).active = true ∧ (s.part p).charges = [] ∧ (s.part p).rerunBn = none ∧ (s.part p).waiting = false) :=
  ⟨⟨wPos.modPart 1 fun x => { x with charges := [{ beats := 2, cause := 1, task := 5, origin := 2 }] }, 1, by decide +kernel⟩,
   ⟨wPos, 2, by decide +kernel⟩,
   ⟨wPos, 1, by decide +kernel⟩⟩
theorem witness_HoldoverBeginsAndEnds :
    (∃ (s : State), s.getF F.PLN_BEAT_CFG_SRC 0 ≠ 0) ∧
    (∃ (s : State), s.getF F.PLN_BEAT_CFG_SRC 0 = 0 ∧ s.getF F.PLN_BEAT_STATUS_SRC_ACTIVE 0 = 1 ∧ (∀ k, k < 6 → s.portUp k = true → (s.port k).good = 0)) ∧
    (∃ (s : State), s.getF F.PLN_BEAT_CFG_SRC 0 = 0 ∧ s.getF F.PLN_BEAT_STATUS_SRC_ACTIVE 0 = 2 ∧ (∀ k, k < 6 → s.portUp k = true → (s.port k).good = 0)) ∧
    (∃ (s : State), s.getF F.PLN_BEAT_STATUS_SRC_ACTIVE 0 = 1 ∧ s.flag F.PLN_BEAT_STATUS_IS_MASTER 0 = false ∧ (∀ k, k < 6 → s.portUp k = true → s.lossDetect ≤ (s.port k).missed)) ∧
    (∃ (s : State), ∃ (src : BeatSrc), s.flag F.PLN_BEAT_STATUS_HOLDOVER 0 = true ∧ s.mayTake src = true) :=
  ⟨⟨w2.putF F.PLN_BEAT_CFG_SRC 0 2, by decide +kernel⟩,
   ⟨{ w2.putF F.PLN_BEAT_STATUS_SRC_ACTIVE 0 1 with refPresent := true }, by decide +kernel⟩,
   ⟨{ w2.putF F.PLN_BEAT_STATUS_SRC_ACTIVE 0 2 with refPresent := true }, by decide +kernel⟩,
   ⟨(w2.putF F.PLN_BEAT_STATUS_SRC_ACTIVE 0 1).putF F.PLN_BEAT_CFG_LOSS_DETECT 0 0 |> fun s => (List.range 6).foldl (fun s k => s.modPort k fun x => { x with missed := 1 }) s, by decide +kernel⟩,
   ⟨(w2.putF F.PLN_BEAT_STATUS_HOLDOVER 0 1).modPort 1 fun x => { x with good := 64 }, .fabric, by decide +kernel⟩⟩
theorem witness_BeatTree :
    (∃ (s : State), ∃ (k : Nat), s.flag F.PLN_BEAT_STATUS_IS_MASTER 0 = false ∧ k < 6 ∧ s.portUp k = true ∧ s.lossDetect ≤ (s.port k).good ∧ s.getF F.PLN_BEAT_STATUS_UPSTREAM 0 ≠ k ∧ (∀ j, j < k → s.getF F.PLN_BEAT_STATUS_UPSTREAM 0 = j ∨ s.portUp j = false ∨ (s.port j).good < s.lossDetect) ∧ (s.getF F.PLN_BEAT_STATUS_UPSTREAM 0 = 7 ∨ s.portUp (s.getF F.PLN_BEAT_STATUS_UPSTREAM 0) = false ∨ s.lossDetect ≤ (s.port (s.getF F.PLN_BEAT_STATUS_UPSTREAM 0)).missed)) ∧
    (∃ (s : State), ∃ (k : Nat), s.routeIn (s.getF F.PLN_BEAT_STATUS_CUR_MASTER 0) = k ∧ k < 6 ∧ s.altUpstream ≠ none ∧ 64 ≤ (s.port k).good) ∧
    (∃ (s : State), ∃ (k : Nat), s.placesAfter s.orderFrom s.pos = k ∧ s.flag F.PLN_BEAT_STATUS_HOLDOVER 0 = true ∧ 1 ≤ k ∧ k ≤ 255 ∧ 16 * k ≤ s.electionBeats ∧ s.flag F.GEN_STATUS_FAILED 0 = false) ∧
    (∃ (s : State), s.flag F.PLN_BEAT_STATUS_HOLDOVER 0 = true ∧ 4096 ≤ s.holdoverBeats ∧ (∀ p, p < 8 → (s.part p).active = false)) :=
  ⟨⟨(w2.putF F.PLN_BEAT_STATUS_UPSTREAM 0 7).modPort 2 fun x => { x with good := 30, mark := some (4, 9) }, 2, by decide +kernel⟩,
   ⟨{ (wUp.modPort 0 fun x => { x with good := 64 }) with altUpstream := some 3 }, 0, by decide +kernel⟩,
   ⟨{ (w2.putF F.PLN_BEAT_STATUS_CUR_MASTER 0 3).putF F.PLN_BEAT_STATUS_HOLDOVER 0 1 with electionBeats := 80 }, 5, by decide +kernel⟩,
   ⟨{ (w1.putF F.PLN_BEAT_STATUS_HOLDOVER 0 1).setRun 3 true with holdoverBeats := 4096 }, by decide +kernel⟩⟩
theorem witness_BnLoads :
    (∃ (s : State), ∃ (f : Func), Open s f F.PLN_BN_LOAD_BN.base ∧ s.ownSource = true ∧ s.anyRun = false) ∧
    (∃ (s : State), ∃ (f : Func), Open s f F.PLN_BN_LOAD_BN.base ∧ (s.ownSource = false ∨ s.anyRun = true)) ∧
    (∃ (s : State), ∃ (v : Word), s.bnLoad = some v) ∧
    (∃ (s : State), s.getF F.PWR_STAT_STATE 0 = 3) :=
  ⟨⟨w1.putF F.PLN_BEAT_STATUS_SRC_ACTIVE 0 3, .pf, by decide +kernel⟩,
   ⟨w1.putF F.PLN_BEAT_STATUS_SRC_ACTIVE 0 1, .pf, by decide +kernel⟩,
   ⟨{ w1 with bnLoad := some 12 }, 12, by decide +kernel⟩,
   ⟨w1.putF F.PWR_STAT_STATE 0 3, by decide +kernel⟩⟩
theorem witness_BeatMarkers :
    (∃ (s : State), ∃ (k : Nat), ∃ (b : BeatBody), k < 6 ∧ s.portUp k = true ∧ b.holds = [] ∧ b.dir = 0 ∧ b.holdover = false ∧ b.master = s.getF F.PLN_BEAT_STATUS_CUR_MASTER 0 ∧ s.getF F.PLN_BEAT_STATUS_UPSTREAM 0 = k ∧ s.getF F.PLN_BEAT_STATUS_SRC_ACTIVE 0 = 1) ∧
    (∃ (s : State), ∃ (k : Nat), ∃ (b : BeatBody), k < 6 ∧ s.portUp k = true ∧ b.holds = [] ∧ b.dir = 0 ∧ b.holdover = false ∧ b.master = s.getF F.PLN_BEAT_STATUS_CUR_MASTER 0 ∧ s.getF F.PLN_BEAT_STATUS_UPSTREAM 0 = k ∧ s.getF F.PLN_BEAT_STATUS_SRC_ACTIVE 0 ≠ 1 ∧ s.getF F.PLN_BEAT_CFG_SRC 0 ≤ 1 ∧ s.flag F.PLN_BEAT_STATUS_HOLDOVER 0 = false) ∧
    (∃ (s : State), ∃ (k : Nat), ∃ (b : BeatBody), k < 6 ∧ s.portUp k = true ∧ b.holds = [] ∧ b.dir ≠ 0) :=
  ⟨⟨wUp.putF F.PLN_BEAT_STATUS_SRC_ACTIVE 0 1, 1, wMark, by decide +kernel⟩,
   ⟨wUp.putF F.PLN_BEAT_STATUS_SRC_ACTIVE 0 3, 1, wMark, by decide +kernel⟩,
   ⟨wUp, 1, { wMark with dir := 1 }, by decide +kernel⟩⟩
/-! ### group 03 -/
def wLoad : State := (w1.putF F.PLN_LOAD_STATUS_BUSY 0 1).modPart 0 fun x => { x with loading := some (wPlan, [{ task := 0, start := 0, dur := 3, units := [] }]) }
def wArmed : State := ((wRun wPlan w1).modPart 0 fun x => { x with active := false, armed := true }).putF F.PLN_START_BN_BN 0 40 |>.putF F.PLN_BN_BN 0 40
def wOrigin (n : Nat) : State := ((wRun wPlan w1).modPart 0 fun x => { x with fresh := true, rollbacks := n }).modTile 5 fun t => { t with toks := [(3, 9)], sregs := [(2, 8)] }

theorem witness_PlanLoadBegins :
    (∃ (s : State), ∃ (f : Func), ∃ (p : Nat), p < 8 ∧ Open s f (F.PLN_LOAD_GO.off p) ∧ s.flag F.PLN_LOAD_STATUS_BUSY p = false ∧ s.running p = false ∧ s.ident.lc ≠ 4 ∧ InRun s) ∧
    (∃ (s : State), ∃ (f : Func), ∃ (p : Nat), p < 8 ∧ Open s f (F.PLN_LOAD_GO.off p) ∧ s.flag F.PLN_LOAD_STATUS_BUSY p = false ∧ s.running p = false ∧ s.ident.lc ≠ 4 ∧ InRun s ∧ s.flag F.PRT_STATE_WIPING p = true) ∧
    (∃ (s : State), ∃ (f : Func), ∃ (p : Nat), p < 8 ∧ Open s f (F.PLN_LOAD_GO.off p) ∧ s.flag F.PLN_LOAD_STATUS_BUSY p = false ∧ s.running p = false ∧ s.ident.lc ≠ 4 ∧ InRun s ∧ s.flag F.PRT_STATE_WIPING p = false ∧ hbmEnd ≤ s.getF F.PLN_IMG_BASE_BASE p) :=
  ⟨⟨w1, .pf, 0, by decide +kernel⟩,
   ⟨w1.putF F.PRT_STATE_WIPING 3 1, .pf, 3, by decide +kernel⟩,
   ⟨w1.putF F.PLN_IMG_BASE_BASE 0 (2 ^ 47), .pf, 0, by decide +kernel⟩⟩
theorem witness_PlanLoadEnds :
    (∃ (s : State), ∃ (p : Nat), ∃ (pl : Plan), ∃ (sched : List Placed), p < 8 ∧ s.flag F.PLN_LOAD_STATUS_BUSY p = true ∧ (s.part p).loading = some (pl, sched)) ∧
    (∃ (s : State), ∃ (p : Nat), ∃ (pl : Plan), ∃ (sched : List Placed), p < 8 ∧ s.flag F.PLN_LOAD_STATUS_BUSY p = true ∧ (s.part p).loading = some (pl, sched)) ∧
    (∃ (s : State), ∃ (p : Nat), ∃ (ds : List (BitVec 512)), ∃ (pl : Plan), ∃ (sched : List Placed), p < 8 ∧ s.flag F.PLN_LOAD_STATUS_BUSY p = true ∧ (s.part p).loading = some (pl, sched) ∧ (∃ d ∈ ds, d ≠ scheduleDigest sched (State.lengthOf pl sched) (s.planMovers p).length)) ∧
    (∃ (s : State), ∃ (p : Nat), ∃ (ds : List (BitVec 512)), ∃ (pl : Plan), ∃ (sched : List Placed), p < 8 ∧ s.flag F.PLN_LOAD_STATUS_BUSY p = true ∧ (s.part p).loading = some (pl, sched) ∧ (∀ d ∈ ds, d = scheduleDigest sched (State.lengthOf pl sched) (s.planMovers p).length)) :=
  ⟨⟨wLoad, 0, wPlan, [{ task := 0, start := 0, dur := 3, units := [] }], by decide +kernel⟩,
   ⟨wLoad, 0, wPlan, [{ task := 0, start := 0, dur := 3, units := [] }], by decide +kernel⟩,
   ⟨wLoad, 0, [0, 1], wPlan, [{ task := 0, start := 0, dur := 3, units := [] }], ⟨by decide +kernel, by decide +kernel, by decide +kernel, by by_cases h : (0 : BitVec 512) = scheduleDigest [{ task := 0, start := 0, dur := 3, units := [] }] (State.lengthOf wPlan [{ task := 0, start := 0, dur := 3, units := [] }]) (wLoad.planMovers 0).length; exact ⟨1, List.mem_cons_of_mem _ (List.mem_cons_self), fun e => absurd (e.trans h.symm) (by decide +kernel)⟩; exact ⟨0, List.mem_cons_self, h⟩⟩⟩,
   ⟨wLoad, 0, [], wPlan, [{ task := 0, start := 0, dur := 3, units := [] }], ⟨by decide +kernel, by decide +kernel, by decide +kernel, fun d h => absurd h List.not_mem_nil⟩⟩⟩
theorem witness_RunStarts :
    (∃ (s : State), ∃ (f : Func), ∃ (p : Nat), ∃ (v : Word), ∃ (pl : Plan), p < 8 ∧ Open s f (F.PLN_CTRL_RUN.off p) ∧ getBits v 0 0 = 1 ∧ s.plan p = some pl ∧ s.running p = false ∧ s.flag F.GEN_STATUS_FAILED 0 = false ∧ InRun s) ∧
    (∃ (s : State), ∃ (f : Func), ∃ (p : Nat), ∃ (v : Word), ∃ (pl : Plan), p < 8 ∧ Open s f (F.PLN_CTRL_RUN.off p) ∧ getBits v 0 0 = 1 ∧ s.plan p = some pl ∧ s.running p = false ∧ s.flag F.GEN_STATUS_FAILED 0 = false ∧ InRun s) ∧
    (∃ (s : State), ∃ (f : Func), ∃ (p : Nat), ∃ (v : Word), ∃ (pl : Plan), p < 8 ∧ Open s f (F.PLN_CTRL_RUN.off p) ∧ getBits v 0 0 = 1 ∧ s.plan p = some pl ∧ s.running p = false ∧ s.flag F.GEN_STATUS_FAILED 0 = false ∧ InRun s) ∧
    (∃ (s : State), ∃ (f : Func), ∃ (p : Nat), ∃ (v : Word), ∃ (pl : Plan), p < 8 ∧ Open s f (F.PLN_CTRL_RUN.off p) ∧ getBits v 0 0 = 1 ∧ s.plan p = some pl ∧ s.running p = false ∧ s.flag F.GEN_STATUS_FAILED 0 = false ∧ InRun s ∧ s.anyFrozen p = false ∧ s.bn ≤ s.getF F.PLN_START_BN_BN p ∧ s.flag F.WCH_RESUME_CTRL_ARM p = false) ∧
    (∃ (s : State), ∃ (p : Nat), p < 8 ∧ (s.part p).armed = true ∧ s.running p = true ∧ s.bn = s.getF F.PLN_START_BN_BN p) :=
  ⟨⟨(w1.modPart 2 fun x => { x with plan := some wPlan }).putF F.DMA_WIN_FROZEN 4 1, .pf, 2, 0x3FF01, wPlan, by decide +kernel⟩,
   ⟨(w1.modPart 2 fun x => { x with plan := some wPlan }).putF F.PLN_BN_BN 0 1, .pf, 2, 1, wPlan, by decide +kernel⟩,
   ⟨(w1.modPart 2 fun x => { x with plan := some { wPlan with rankCount := 2 } }).putF F.WCH_RESUME_CTRL_ARM 2 1, .pf, 2, 1, { wPlan with rankCount := 2 }, by decide +kernel⟩,
   ⟨w1.modPart 2 fun x => { x with plan := some wPlan }, .pf, 2, BitVec.ofNat 64 (2 ^ 63 + 0xFF01), wPlan, by decide +kernel⟩,
   ⟨wArmed, 0, by decide +kernel⟩⟩
theorem witness_RunClears :
    (∃ (s : State), ∃ (f : Func), ∃ (p : Nat), ∃ (v : Word), p < 8 ∧ Open s f (F.PLN_CTRL_RUN.off p) ∧ getBits v 0 0 = 0 ∧ s.running p = true) ∧
    (∃ (s : State), ∃ (f : Func), ∃ (p : Nat), ∃ (v : Word), p < 8 ∧ Open s f (F.PLN_CTRL_RUN.off p) ∧ getBits v 0 0 = 0 ∧ s.running p = true ∧ (s.part p).active = true) ∧
    (∃ (s : State), ∃ (f : Func), ∃ (p : Nat), ∃ (v : Word), p < 8 ∧ Open s f (F.PLN_CTRL_RUN.off p) ∧ getBits v 0 0 = 0 ∧ s.running p = true ∧ (s.part p).active = false) :=
  ⟨⟨wRun wPlan w1, .pf, 0, 0, by decide +kernel⟩,
   ⟨wRun wPlan w1, .pf, 0, 0x100, by decide +kernel⟩,
   ⟨wArmed, .pf, 0, 0x100, by decide +kernel⟩⟩
theorem witness_StepOrigin :
    (∃ (s : State), ∃ (p : Nat), p < 8 ∧ (s.part p).active = true ∧ (s.part p).fresh = true ∧ s.rolling p = false) ∧
    (∃ (s : State), ∃ (p : Nat), p < 8 ∧ (s.part p).active = true ∧ (s.part p).fresh = true ∧ s.rolling p = false ∧ (s.part p).rollbacks = 0) ∧
    (∃ (s : State), ∃ (p : Nat), p < 8 ∧ (s.part p).active = true ∧ (s.part p).fresh = true ∧ s.rolling p = false ∧ (s.part p).rollbacks ≠ 0) :=
  ⟨⟨wOrigin 0, 0, by decide +kernel⟩,
   ⟨wOrigin 0, 0, by decide +kernel⟩,
   ⟨wOrigin 2, 0, by decide +kernel⟩⟩
/-! ### group 04 -/
def wDisp : State := wRun { wPlan with tasks := [{ wTask 0 1 with resources := 1 }] } ((w1.putF F.PLN_BN_BN 0 40).putF F.PWR_RAMP_SHARE 0 2)
def wMove (k : Nat) : State := wRun { wPlan with tasks := [wTask 0 k] } (w1.putF F.DMA_MCFG_EN 7 1 |>.putF F.DMA_MCFG_MODE 7 1)

theorem witness_DispatchStartsKernel :
    (∃ (s : State), ∃ (p : Nat), ∃ (task : Nat), ∃ (g : Nat), ∃ (share : Nat), ∃ (pl : Plan), ∃ (k : Task), p < 8 ∧ g < 256 ∧ task < 2 ^ 24 ∧ s.canDispatch p task g share = true ∧ s.plan p = some pl ∧ s.taskOf p task = some k ∧ (s.wasIdle g = true → (s.part p).acts = []) ∧ (s.clearInterval p task).mem = s.mem) ∧
    (∃ (s : State), ∃ (p : Nat), ∃ (task : Nat), ∃ (g : Nat), ∃ (share : Nat), ∃ (pl : Plan), ∃ (k : Task), p < 8 ∧ g < 256 ∧ task < 2 ^ 24 ∧ s.canDispatch p task g share = true ∧ s.plan p = some pl ∧ s.taskOf p task = some k ∧ (s.wasIdle g = true → (s.part p).acts = []) ∧ (s.clearInterval p task).mem = s.mem ∧ (s.wasIdle g = false ∨ s.grantsUsed p < s.rampShare p)) ∧
    (∃ (s : State), ∃ (p : Nat), ∃ (task : Nat), ∃ (g : Nat), ∃ (share : Nat), ∃ (pl : Plan), ∃ (k : Task), p < 8 ∧ g < 256 ∧ task < 2 ^ 24 ∧ s.canDispatch p task g share = true ∧ s.plan p = some pl ∧ s.taskOf p task = some k ∧ (s.wasIdle g = true → (s.part p).acts = []) ∧ (s.clearInterval p task).mem = s.mem ∧ s.wasIdle g = true ∧ s.rampShare p ≤ s.grantsUsed p) :=
  ⟨⟨wDisp, 0, 0, 5, 2, { wPlan with tasks := [{ wTask 0 1 with resources := 1 }] }, { wTask 0 1 with resources := 1 }, by decide +kernel⟩,
   ⟨wDisp, 0, 0, 5, 2, { wPlan with tasks := [{ wTask 0 1 with resources := 1 }] }, { wTask 0 1 with resources := 1 }, by decide +kernel⟩,
   ⟨wDisp.modPart 0 fun x => { x with grants := (40, 2) }, 0, 0, 5, 2, { wPlan with tasks := [{ wTask 0 1 with resources := 1 }] }, { wTask 0 1 with resources := 1 }, by decide +kernel⟩⟩
theorem witness_MoveTasksStart :
    (∃ (s : State), ∃ (p : Nat), ∃ (task : Nat), ∃ (c : Nat), ∃ (q : Placed), s.placedTask p task = some q ∧ c = 8 * s.planCluster p (q.units.headD 0 / 8) + q.units.headD 0 % 8 ∧ s.stepMoves p = true ∧ (s.taskOf p task).any (·.kind = 2) = true ∧ (s.part p).started.contains task = false ∧ (s.part p).done.contains task = false ∧ (s.cmover c).frozen = false) ∧
    (∃ (s : State), ∃ (p : Nat), ∃ (task : Nat), ∃ (h : Nat), ∃ (q : Placed), s.placedTask p task = some q ∧ (s.planMovers p)[q.units.headD 0]? = some h ∧ s.stepMoves p = true ∧ (s.taskOf p task).any (·.kind = 3) = true ∧ (s.part p).started.contains task = false ∧ (s.part p).done.contains task = false ∧ (s.mover h).frozen = false ∧ (s.mover h).chain = none) :=
  ⟨⟨wMove 2, 0, 0, 0, { task := 0, start := 0, dur := 10, units := [0] }, by decide +kernel⟩,
   ⟨wMove 3, 0, 0, 7, { task := 0, start := 0, dur := 10, units := [0] }, by decide +kernel⟩⟩
/-! ### group 10 -/
def wEntryMem : State := wTile.wr (devAddr 9 0x10000) wEntry
def wOpen : State := wTile.modTile 9 fun t => { t with lastSlot := some 2, bundlePc := 2 }

theorem witness_ScalarArithmetic :
    (∃ (s : State), ∃ (g : Nat), ∃ (w : Word), ∃ (n : Nat), ∃ (c : Instr), ∃ (op : Nat), ∃ (lat : Nat), ∃ (f : Word → Word → Word), ((c = .add g w ∧ op = 1 ∧ lat = 1 ∧ f = fun (a b : Word) => a + b) ∨ (c = .sub g w ∧ op = 2 ∧ lat = 1 ∧ f = fun (a b : Word) => a - b) ∨ (c = .mul g w ∧ op = 3 ∧ lat = 3 ∧ f = fun (a b : Word) => a * b) ∨ (c = .and g w ∧ op = 4 ∧ lat = 1 ∧ f = fun (a b : Word) => a &&& b) ∨ (c = .or g w ∧ op = 5 ∧ lat = 1 ∧ f = fun (a b : Word) => a ||| b) ∨ (c = .xor g w ∧ op = 6 ∧ lat = 1 ∧ f = fun (a b : Word) => a ^^^ b) ∨ (c = .shl g w ∧ op = 7 ∧ lat = 1 ∧ f = fun (a b : Word) => a <<< (b.toNat % 64)) ∨ (c = .shr g w ∧ op = 8 ∧ lat = 1 ∧ f = fun (a b : Word) => a >>> (b.toNat % 64)) ∨ (c = .sra g w ∧ op = 9 ∧ lat = 1 ∧ f = fun (a b : Word) => a.sshiftRight (b.toNat % 64)) ∨ (c = .min g w ∧ op = 10 ∧ lat = 1 ∧ f = fun (a b : Word) => if a.toInt < b.toInt then a else b) ∨ (c = .max g w ∧ op = 11 ∧ lat = 1 ∧ f = fun (a b : Word) => if a.toInt < b.toInt then b else a)) ∧ (wSlot w = 2 ∨ wSlot w = 3) ∧ wOp w = op ∧ Issues s g w n) ∧
    (∃ (s : State), ∃ (g : Nat), ∃ (w : Word), ∃ (n : Nat), ∃ (c : Instr), ∃ (op : Nat), ∃ (lat : Nat), ∃ (f : Word → Word → Word), ((c = .add g w ∧ op = 1 ∧ lat = 1 ∧ f = fun (a b : Word) => a + b) ∨ (c = .sub g w ∧ op = 2 ∧ lat = 1 ∧ f = fun (a b : Word) => a - b) ∨ (c = .mul g w ∧ op = 3 ∧ lat = 3 ∧ f = fun (a b : Word) => a * b) ∨ (c = .and g w ∧ op = 4 ∧ lat = 1 ∧ f = fun (a b : Word) => a &&& b) ∨ (c = .or g w ∧ op = 5 ∧ lat = 1 ∧ f = fun (a b : Word) => a ||| b) ∨ (c = .xor g w ∧ op = 6 ∧ lat = 1 ∧ f = fun (a b : Word) => a ^^^ b) ∨ (c = .shl g w ∧ op = 7 ∧ lat = 1 ∧ f = fun (a b : Word) => a <<< (b.toNat % 64)) ∨ (c = .shr g w ∧ op = 8 ∧ lat = 1 ∧ f = fun (a b : Word) => a >>> (b.toNat % 64)) ∨ (c = .sra g w ∧ op = 9 ∧ lat = 1 ∧ f = fun (a b : Word) => a.sshiftRight (b.toNat % 64)) ∨ (c = .min g w ∧ op = 10 ∧ lat = 1 ∧ f = fun (a b : Word) => if a.toInt < b.toInt then a else b) ∨ (c = .max g w ∧ op = 11 ∧ lat = 1 ∧ f = fun (a b : Word) => if a.toInt < b.toInt then b else a)) ∧ (wSlot w = 2 ∨ wSlot w = 3) ∧ wOp w = op ∧ Issues s g w n) ∧
    (∃ (s : State), ∃ (g : Nat), ∃ (w : Word), ∃ (n : Nat), ∃ (c : Instr), ∃ (op : Nat), ∃ (lat : Nat), ∃ (f : Word → Word → Word), ((c = .add g w ∧ op = 1 ∧ lat = 1 ∧ f = fun (a b : Word) => a + b) ∨ (c = .sub g w ∧ op = 2 ∧ lat = 1 ∧ f = fun (a b : Word) => a - b) ∨ (c = .mul g w ∧ op = 3 ∧ lat = 3 ∧ f = fun (a b : Word) => a * b) ∨ (c = .and g w ∧ op = 4 ∧ lat = 1 ∧ f = fun (a b : Word) => a &&& b) ∨ (c = .or g w ∧ op = 5 ∧ lat = 1 ∧ f = fun (a b : Word) => a ||| b) ∨ (c = .xor g w ∧ op = 6 ∧ lat = 1 ∧ f = fun (a b : Word) => a ^^^ b) ∨ (c = .shl g w ∧ op = 7 ∧ lat = 1 ∧ f = fun (a b : Word) => a <<< (b.toNat % 64)) ∨ (c = .shr g w ∧ op = 8 ∧ lat = 1 ∧ f = fun (a b : Word) => a >>> (b.toNat % 64)) ∨ (c = .sra g w ∧ op = 9 ∧ lat = 1 ∧ f = fun (a b : Word) => a.sshiftRight (b.toNat % 64)) ∨ (c = .min g w ∧ op = 10 ∧ lat = 1 ∧ f = fun (a b : Word) => if a.toInt < b.toInt then a else b) ∨ (c = .max g w ∧ op = 11 ∧ lat = 1 ∧ f = fun (a b : Word) => if a.toInt < b.toInt then b else a)) ∧ (wSlot w = 2 ∨ wSlot w = 3) ∧ wOp w = op ∧ Issues s g w n) ∧
    (∃ (s : State), ∃ (g : Nat), ∃ (w : Word), ∃ (n : Nat), ∃ (c : Instr), ∃ (op : Nat), ∃ (lat : Nat), ∃ (f : Word → Word → Word), ((c = .add g w ∧ op = 1 ∧ lat = 1 ∧ f = fun (a b : Word) => a + b) ∨ (c = .sub g w ∧ op = 2 ∧ lat = 1 ∧ f = fun (a b : Word) => a - b) ∨ (c = .mul g w ∧ op = 3 ∧ lat = 3 ∧ f = fun (a b : Word) => a * b) ∨ (c = .and g w ∧ op = 4 ∧ lat = 1 ∧ f = fun (a b : Word) => a &&& b) ∨ (c = .or g w ∧ op = 5 ∧ lat = 1 ∧ f = fun (a b : Word) => a ||| b) ∨ (c = .xor g w ∧ op = 6 ∧ lat = 1 ∧ f = fun (a b : Word) => a ^^^ b) ∨ (c = .shl g w ∧ op = 7 ∧ lat = 1 ∧ f = fun (a b : Word) => a <<< (b.toNat % 64)) ∨ (c = .shr g w ∧ op = 8 ∧ lat = 1 ∧ f = fun (a b : Word) => a >>> (b.toNat % 64)) ∨ (c = .sra g w ∧ op = 9 ∧ lat = 1 ∧ f = fun (a b : Word) => a.sshiftRight (b.toNat % 64)) ∨ (c = .min g w ∧ op = 10 ∧ lat = 1 ∧ f = fun (a b : Word) => if a.toInt < b.toInt then a else b) ∨ (c = .max g w ∧ op = 11 ∧ lat = 1 ∧ f = fun (a b : Word) => if a.toInt < b.toInt then b else a)) ∧ (wSlot w = 2 ∨ wSlot w = 3) ∧ wOp w = op ∧ Issues s g w n) ∧
    (∃ (s : State), ∃ (g : Nat), ∃ (w : Word), ∃ (n : Nat), ∃ (c : Instr), ∃ (op : Nat), ∃ (lat : Nat), ∃ (f : Word → Word → Word), ((c = .add g w ∧ op = 1 ∧ lat = 1 ∧ f = fun (a b : Word) => a + b) ∨ (c = .sub g w ∧ op = 2 ∧ lat = 1 ∧ f = fun (a b : Word) => a - b) ∨ (c = .mul g w ∧ op = 3 ∧ lat = 3 ∧ f = fun (a b : Word) => a * b) ∨ (c = .and g w ∧ op = 4 ∧ lat = 1 ∧ f = fun (a b : Word) => a &&& b) ∨ (c = .or g w ∧ op = 5 ∧ lat = 1 ∧ f = fun (a b : Word) => a ||| b) ∨ (c = .xor g w ∧ op = 6 ∧ lat = 1 ∧ f = fun (a b : Word) => a ^^^ b) ∨ (c = .shl g w ∧ op = 7 ∧ lat = 1 ∧ f = fun (a b : Word) => a <<< (b.toNat % 64)) ∨ (c = .shr g w ∧ op = 8 ∧ lat = 1 ∧ f = fun (a b : Word) => a >>> (b.toNat % 64)) ∨ (c = .sra g w ∧ op = 9 ∧ lat = 1 ∧ f = fun (a b : Word) => a.sshiftRight (b.toNat % 64)) ∨ (c = .min g w ∧ op = 10 ∧ lat = 1 ∧ f = fun (a b : Word) => if a.toInt < b.toInt then a else b) ∨ (c = .max g w ∧ op = 11 ∧ lat = 1 ∧ f = fun (a b : Word) => if a.toInt < b.toInt then b else a)) ∧ (wSlot w = 2 ∨ wSlot w = 3) ∧ wOp w = op ∧ Issues s g w n) ∧
    (∃ (s : State), ∃ (g : Nat), ∃ (w : Word), ∃ (n : Nat), ∃ (c : Instr), ∃ (op : Nat), ∃ (lat : Nat), ∃ (f : Word → Word → Word), ((c = .add g w ∧ op = 1 ∧ lat = 1 ∧ f = fun (a b : Word) => a + b) ∨ (c = .sub g w ∧ op = 2 ∧ lat = 1 ∧ f = fun (a b : Word) => a - b) ∨ (c = .mul g w ∧ op = 3 ∧ lat = 3 ∧ f = fun (a b : Word) => a * b) ∨ (c = .and g w ∧ op = 4 ∧ lat = 1 ∧ f = fun (a b : Word) => a &&& b) ∨ (c = .or g w ∧ op = 5 ∧ lat = 1 ∧ f = fun (a b : Word) => a ||| b) ∨ (c = .xor g w ∧ op = 6 ∧ lat = 1 ∧ f = fun (a b : Word) => a ^^^ b) ∨ (c = .shl g w ∧ op = 7 ∧ lat = 1 ∧ f = fun (a b : Word) => a <<< (b.toNat % 64)) ∨ (c = .shr g w ∧ op = 8 ∧ lat = 1 ∧ f = fun (a b : Word) => a >>> (b.toNat % 64)) ∨ (c = .sra g w ∧ op = 9 ∧ lat = 1 ∧ f = fun (a b : Word) => a.sshiftRight (b.toNat % 64)) ∨ (c = .min g w ∧ op = 10 ∧ lat = 1 ∧ f = fun (a b : Word) => if a.toInt < b.toInt then a else b) ∨ (c = .max g w ∧ op = 11 ∧ lat = 1 ∧ f = fun (a b : Word) => if a.toInt < b.toInt then b else a)) ∧ (wSlot w = 2 ∨ wSlot w = 3) ∧ wOp w = op ∧ Issues s g w n) ∧
    (∃ (s : State), ∃ (g : Nat), ∃ (w : Word), ∃ (n : Nat), ∃ (c : Instr), ∃ (op : Nat), ∃ (lat : Nat), ∃ (f : Word → Word → Word), ((c = .add g w ∧ op = 1 ∧ lat = 1 ∧ f = fun (a b : Word) => a + b) ∨ (c = .sub g w ∧ op = 2 ∧ lat = 1 ∧ f = fun (a b : Word) => a - b) ∨ (c = .mul g w ∧ op = 3 ∧ lat = 3 ∧ f = fun (a b : Word) => a * b) ∨ (c = .and g w ∧ op = 4 ∧ lat = 1 ∧ f = fun (a b : Word) => a &&& b) ∨ (c = .or g w ∧ op = 5 ∧ lat = 1 ∧ f = fun (a b : Word) => a ||| b) ∨ (c = .xor g w ∧ op = 6 ∧ lat = 1 ∧ f = fun (a b : Word) => a ^^^ b) ∨ (c = .shl g w ∧ op = 7 ∧ lat = 1 ∧ f = fun (a b : Word) => a <<< (b.toNat % 64)) ∨ (c = .shr g w ∧ op = 8 ∧ lat = 1 ∧ f = fun (a b : Word) => a >>> (b.toNat % 64)) ∨ (c = .sra g w ∧ op = 9 ∧ lat = 1 ∧ f = fun (a b : Word) => a.sshiftRight (b.toNat % 64)) ∨ (c = .min g w ∧ op = 10 ∧ lat = 1 ∧ f = fun (a b : Word) => if a.toInt < b.toInt then a else b) ∨ (c = .max g w ∧ op = 11 ∧ lat = 1 ∧ f = fun (a b : Word) => if a.toInt < b.toInt then b else a)) ∧ (wSlot w = 2 ∨ wSlot w = 3) ∧ wOp w = op ∧ Issues s g w n) ∧
    (∃ (s : State), ∃ (g : Nat), ∃ (w : Word), ∃ (n : Nat), ∃ (c : Instr), ∃ (op : Nat), ∃ (lat : Nat), ∃ (f : Word → Word → Word), ((c = .add g w ∧ op = 1 ∧ lat = 1 ∧ f = fun (a b : Word) => a + b) ∨ (c = .sub g w ∧ op = 2 ∧ lat = 1 ∧ f = fun (a b : Word) => a - b) ∨ (c = .mul g w ∧ op = 3 ∧ lat = 3 ∧ f = fun (a b : Word) => a * b) ∨ (c = .and g w ∧ op = 4 ∧ lat = 1 ∧ f = fun (a b : Word) => a &&& b) ∨ (c = .or g w ∧ op = 5 ∧ lat = 1 ∧ f = fun (a b : Word) => a ||| b) ∨ (c = .xor g w ∧ op = 6 ∧ lat = 1 ∧ f = fun (a b : Word) => a ^^^ b) ∨ (c = .shl g w ∧ op = 7 ∧ lat = 1 ∧ f = fun (a b : Word) => a <<< (b.toNat % 64)) ∨ (c = .shr g w ∧ op = 8 ∧ lat = 1 ∧ f = fun (a b : Word) => a >>> (b.toNat % 64)) ∨ (c = .sra g w ∧ op = 9 ∧ lat = 1 ∧ f = fun (a b : Word) => a.sshiftRight (b.toNat % 64)) ∨ (c = .min g w ∧ op = 10 ∧ lat = 1 ∧ f = fun (a b : Word) => if a.toInt < b.toInt then a else b) ∨ (c = .max g w ∧ op = 11 ∧ lat = 1 ∧ f = fun (a b : Word) => if a.toInt < b.toInt then b else a)) ∧ (wSlot w = 2 ∨ wSlot w = 3) ∧ wOp w = op ∧ Issues s g w n) ∧
    (∃ (s : State), ∃ (g : Nat), ∃ (w : Word), ∃ (n : Nat), ∃ (c : Instr), ∃ (op : Nat), ∃ (lat : Nat), ∃ (f : Word → Word → Word), ((c = .add g w ∧ op = 1 ∧ lat = 1 ∧ f = fun (a b : Word) => a + b) ∨ (c = .sub g w ∧ op = 2 ∧ lat = 1 ∧ f = fun (a b : Word) => a - b) ∨ (c = .mul g w ∧ op = 3 ∧ lat = 3 ∧ f = fun (a b : Word) => a * b) ∨ (c = .and g w ∧ op = 4 ∧ lat = 1 ∧ f = fun (a b : Word) => a &&& b) ∨ (c = .or g w ∧ op = 5 ∧ lat = 1 ∧ f = fun (a b : Word) => a ||| b) ∨ (c = .xor g w ∧ op = 6 ∧ lat = 1 ∧ f = fun (a b : Word) => a ^^^ b) ∨ (c = .shl g w ∧ op = 7 ∧ lat = 1 ∧ f = fun (a b : Word) => a <<< (b.toNat % 64)) ∨ (c = .shr g w ∧ op = 8 ∧ lat = 1 ∧ f = fun (a b : Word) => a >>> (b.toNat % 64)) ∨ (c = .sra g w ∧ op = 9 ∧ lat = 1 ∧ f = fun (a b : Word) => a.sshiftRight (b.toNat % 64)) ∨ (c = .min g w ∧ op = 10 ∧ lat = 1 ∧ f = fun (a b : Word) => if a.toInt < b.toInt then a else b) ∨ (c = .max g w ∧ op = 11 ∧ lat = 1 ∧ f = fun (a b : Word) => if a.toInt < b.toInt then b else a)) ∧ (wSlot w = 2 ∨ wSlot w = 3) ∧ wOp w = op ∧ Issues s g w n) ∧
    (∃ (s : State), ∃ (g : Nat), ∃ (w : Word), ∃ (n : Nat), ∃ (c : Instr), ∃ (op : Nat), ∃ (lat : Nat), ∃ (f : Word → Word → Word), ((c = .add g w ∧ op = 1 ∧ lat = 1 ∧ f = fun (a b : Word) => a + b) ∨ (c = .sub g w ∧ op = 2 ∧ lat = 1 ∧ f = fun (a b : Word) => a - b) ∨ (c = .mul g w ∧ op = 3 ∧ lat = 3 ∧ f = fun (a b : Word) => a * b) ∨ (c = .and g w ∧ op = 4 ∧ lat = 1 ∧ f = fun (a b : Word) => a &&& b) ∨ (c = .or g w ∧ op = 5 ∧ lat = 1 ∧ f = fun (a b : Word) => a ||| b) ∨ (c = .xor g w ∧ op = 6 ∧ lat = 1 ∧ f = fun (a b : Word) => a ^^^ b) ∨ (c = .shl g w ∧ op = 7 ∧ lat = 1 ∧ f = fun (a b : Word) => a <<< (b.toNat % 64)) ∨ (c = .shr g w ∧ op = 8 ∧ lat = 1 ∧ f = fun (a b : Word) => a >>> (b.toNat % 64)) ∨ (c = .sra g w ∧ op = 9 ∧ lat = 1 ∧ f = fun (a b : Word) => a.sshiftRight (b.toNat % 64)) ∨ (c = .min g w ∧ op = 10 ∧ lat = 1 ∧ f = fun (a b : Word) => if a.toInt < b.toInt then a else b) ∨ (c = .max g w ∧ op = 11 ∧ lat = 1 ∧ f = fun (a b : Word) => if a.toInt < b.toInt then b else a)) ∧ (wSlot w = 2 ∨ wSlot w = 3) ∧ wOp w = op ∧ Issues s g w n) ∧
    (∃ (s : State), ∃ (g : Nat), ∃ (w : Word), ∃ (n : Nat), ∃ (c : Instr), ∃ (op : Nat), ∃ (lat : Nat), ∃ (f : Word → Word → Word), ((c = .add g w ∧ op = 1 ∧ lat = 1 ∧ f = fun (a b : Word) => a + b) ∨ (c = .sub g w ∧ op = 2 ∧ lat = 1 ∧ f = fun (a b : Word) => a - b) ∨ (c = .mul g w ∧ op = 3 ∧ lat = 3 ∧ f = fun (a b : Word) => a * b) ∨ (c = .and g w ∧ op = 4 ∧ lat = 1 ∧ f = fun (a b : Word) => a &&& b) ∨ (c = .or g w ∧ op = 5 ∧ lat = 1 ∧ f = fun (a b : Word) => a ||| b) ∨ (c = .xor g w ∧ op = 6 ∧ lat = 1 ∧ f = fun (a b : Word) => a ^^^ b) ∨ (c = .shl g w ∧ op = 7 ∧ lat = 1 ∧ f = fun (a b : Word) => a <<< (b.toNat % 64)) ∨ (c = .shr g w ∧ op = 8 ∧ lat = 1 ∧ f = fun (a b : Word) => a >>> (b.toNat % 64)) ∨ (c = .sra g w ∧ op = 9 ∧ lat = 1 ∧ f = fun (a b : Word) => a.sshiftRight (b.toNat % 64)) ∨ (c = .min g w ∧ op = 10 ∧ lat = 1 ∧ f = fun (a b : Word) => if a.toInt < b.toInt then a else b) ∨ (c = .max g w ∧ op = 11 ∧ lat = 1 ∧ f = fun (a b : Word) => if a.toInt < b.toInt then b else a)) ∧ (wSlot w = 2 ∨ wSlot w = 3) ∧ wOp w = op ∧ Issues s g w n) ∧
    (∃ (s : State), ∃ (g : Nat), ∃ (w : Word), ∃ (n : Nat), ∃ (c : Instr), ∃ (op : Nat), ∃ (lat : Nat), ∃ (f : Word → Word → Word), ((c = .add g w ∧ op = 1 ∧ lat = 1 ∧ f = fun (a b : Word) => a + b) ∨ (c = .sub g w ∧ op = 2 ∧ lat = 1 ∧ f = fun (a b : Word) => a - b) ∨ (c = .mul g w ∧ op = 3 ∧ lat = 3 ∧ f = fun (a b : Word) => a * b) ∨ (c = .and g w ∧ op = 4 ∧ lat = 1 ∧ f = fun (a b : Word) => a &&& b) ∨ (c = .or g w ∧ op = 5 ∧ lat = 1 ∧ f = fun (a b : Word) => a ||| b) ∨ (c = .xor g w ∧ op = 6 ∧ lat = 1 ∧ f = fun (a b : Word) => a ^^^ b) ∨ (c = .shl g w ∧ op = 7 ∧ lat = 1 ∧ f = fun (a b : Word) => a <<< (b.toNat % 64)) ∨ (c = .shr g w ∧ op = 8 ∧ lat = 1 ∧ f = fun (a b : Word) => a >>> (b.toNat % 64)) ∨ (c = .sra g w ∧ op = 9 ∧ lat = 1 ∧ f = fun (a b : Word) => a.sshiftRight (b.toNat % 64)) ∨ (c = .min g w ∧ op = 10 ∧ lat = 1 ∧ f = fun (a b : Word) => if a.toInt < b.toInt then a else b) ∨ (c = .max g w ∧ op = 11 ∧ lat = 1 ∧ f = fun (a b : Word) => if a.toInt < b.toInt then b else a)) ∧ (wSlot w = 2 ∨ wSlot w = 3) ∧ wOp w = op ∧ Issues s g w n) :=
  ⟨⟨wTile, 9, wWord 1 2 1 (2 ^ 43 * 6 + 2 ^ 38 + 2 ^ 33 * 2), 4, .add 9 (wWord 1 2 1 (2 ^ 43 * 6 + 2 ^ 38 + 2 ^ 33 * 2)), 1, 1, fun a b => a + b, ⟨.inl ⟨rfl, rfl, rfl, rfl⟩, by decide +kernel⟩⟩,
   ⟨wTile, 9, wWord 1 3 2 (2 ^ 43 * 6 + 2 ^ 38 + 2 ^ 32 + 4294967295), 4, .sub 9 (wWord 1 3 2 (2 ^ 43 * 6 + 2 ^ 38 + 2 ^ 32 + 4294967295)), 2, 1, fun a b => a - b, ⟨.inr (.inl ⟨rfl, rfl, rfl, rfl⟩), by decide +kernel⟩⟩,
   ⟨wTile, 9, wWord 1 2 3 (2 ^ 43 * 6 + 2 ^ 38 + 2 ^ 33 * 2), 4, .mul 9 (wWord 1 2 3 (2 ^ 43 * 6 + 2 ^ 38 + 2 ^ 33 * 2)), 3, 3, fun a b => a * b, ⟨.inr (.inr (.inl ⟨rfl, rfl, rfl, rfl⟩)), by decide +kernel⟩⟩,
   ⟨wTile, 9, wWord 1 3 4 (2 ^ 43 * 6 + 2 ^ 38 + 2 ^ 32 + 4294967295), 4, .and 9 (wWord 1 3 4 (2 ^ 43 * 6 + 2 ^ 38 + 2 ^ 32 + 4294967295)), 4, 1, fun a b => a &&& b, ⟨.inr (.inr (.inr (.inl ⟨rfl, rfl, rfl, rfl⟩))), by decide +kernel⟩⟩,
   ⟨wTile, 9, wWord 1 2 5 (2 ^ 43 * 6 + 2 ^ 38 + 2 ^ 33 * 2), 4, .or 9 (wWord 1 2 5 (2 ^ 43 * 6 + 2 ^ 38 + 2 ^ 33 * 2)), 5, 1, fun a b => a ||| b, ⟨.inr (.inr (.inr (.inr (.inl ⟨rfl, rfl, rfl, rfl⟩)))), by decide +kernel⟩⟩,
   ⟨wTile, 9, wWord 1 3 6 (2 ^ 43 * 6 + 2 ^ 38 + 2 ^ 32 + 4294967295), 4, .xor 9 (wWord 1 3 6 (2 ^ 43 * 6 + 2 ^ 38 + 2 ^ 32 + 4294967295)), 6, 1, fun a b => a ^^^ b, ⟨.inr (.inr (.inr (.inr (.inr (.inl ⟨rfl, rfl, rfl, rfl⟩))))), by decide +kernel⟩⟩,
   ⟨wTile, 9, wWord 1 2 7 (2 ^ 43 * 6 + 2 ^ 38 + 2 ^ 33 * 2), 4, .shl 9 (wWord 1 2 7 (2 ^ 43 * 6 + 2 ^ 38 + 2 ^ 33 * 2)), 7, 1, fun a b => a <<< (b.toNat % 64), ⟨.inr (.inr (.inr (.inr (.inr (.inr (.inl ⟨rfl, rfl, rfl, rfl⟩)))))), by decide +kernel⟩⟩,
   ⟨wTile, 9, wWord 1 3 8 (2 ^ 43 * 6 + 2 ^ 38 + 2 ^ 32 + 4294967295), 4, .shr 9 (wWord 1 3 8 (2 ^ 43 * 6 + 2 ^ 38 + 2 ^ 32 + 4294967295)), 8, 1, fun a b => a >>> (b.toNat % 64), ⟨.inr (.inr (.inr (.inr (.inr (.inr (.inr (.inl ⟨rfl, rfl, rfl, rfl⟩))))))), by decide +kernel⟩⟩,
   ⟨wTile, 9, wWord 1 2 9 (2 ^ 43 * 6 + 2 ^ 38 + 2 ^ 33 * 2), 4, .sra 9 (wWord 1 2 9 (2 ^ 43 * 6 + 2 ^ 38 + 2 ^ 33 * 2)), 9, 1, fun a b => a.sshiftRight (b.toNat % 64), ⟨.inr (.inr (.inr (.inr (.inr (.inr (.inr (.inr (.inl ⟨rfl, rfl, rfl, rfl⟩)))))))), by decide +kernel⟩⟩,
   ⟨wTile, 9, wWord 1 3 10 (2 ^ 43 * 6 + 2 ^ 38 + 2 ^ 32 + 4294967295), 4, .min 9 (wWord 1 3 10 (2 ^ 43 * 6 + 2 ^ 38 + 2 ^ 32 + 4294967295)), 10, 1, fun a b => if a.toInt < b.toInt then a else b, ⟨.inr (.inr (.inr (.inr (.inr (.inr (.inr (.inr (.inr (.inl ⟨rfl, rfl, rfl, rfl⟩))))))))), by decide +kernel⟩⟩,
   ⟨wTile, 9, wWord 1 2 11 (2 ^ 43 * 6 + 2 ^ 38 + 2 ^ 33 * 2), 4, .max 9 (wWord 1 2 11 (2 ^ 43 * 6 + 2 ^ 38 + 2 ^ 33 * 2)), 11, 1, fun a b => if a.toInt < b.toInt then b else a, ⟨.inr (.inr (.inr (.inr (.inr (.inr (.inr (.inr (.inr (.inr (⟨rfl, rfl, rfl, rfl⟩)))))))))), by decide +kernel⟩⟩,
   ⟨wOpen, 9, wWord 1 3 1 (2 ^ 43 * 6 + 2 ^ 38 + 2 ^ 32), 0, .add 9 (wWord 1 3 1 (2 ^ 43 * 6 + 2 ^ 38 + 2 ^ 32)), 1, 1, fun a b => a + b, ⟨.inl ⟨rfl, rfl, rfl, rfl⟩, by decide +kernel⟩⟩⟩
theorem witness_ComparesAndPredicates :
    (∃ (s : State), ∃ (g : Nat), ∃ (w : Word), ∃ (n : Nat), ∃ (c : Instr), ∃ (op : Nat), ∃ (f : Word → Word → Bool), ((c = .cmpEq g w ∧ op = 12 ∧ f = fun (a b : Word) => decide (a = b)) ∨ (c = .cmpNe g w ∧ op = 13 ∧ f = fun (a b : Word) => decide (a ≠ b)) ∨ (c = .cmpLt g w ∧ op = 14 ∧ f = fun (a b : Word) => decide (a.toInt < b.toInt)) ∨ (c = .cmpLtu g w ∧ op = 15 ∧ f = fun (a b : Word) => decide (a.toNat < b.toNat))) ∧ (wSlot w = 2 ∨ wSlot w = 3) ∧ wOp w = op ∧ getBits w 47 46 = 0 ∧ Issues s g w n) ∧
    (∃ (s : State), ∃ (g : Nat), ∃ (w : Word), ∃ (n : Nat), ∃ (c : Instr), ∃ (op : Nat), ∃ (f : Word → Word → Bool), ((c = .cmpEq g w ∧ op = 12 ∧ f = fun (a b : Word) => decide (a = b)) ∨ (c = .cmpNe g w ∧ op = 13 ∧ f = fun (a b : Word) => decide (a ≠ b)) ∨ (c = .cmpLt g w ∧ op = 14 ∧ f = fun (a b : Word) => decide (a.toInt < b.toInt)) ∨ (c = .cmpLtu g w ∧ op = 15 ∧ f = fun (a b : Word) => decide (a.toNat < b.toNat))) ∧ (wSlot w = 2 ∨ wSlot w = 3) ∧ wOp w = op ∧ getBits w 47 46 = 0 ∧ Issues s g w n) ∧
    (∃ (s : State), ∃ (g : Nat), ∃ (w : Word), ∃ (n : Nat), ∃ (c : Instr), ∃ (op : Nat), ∃ (f : Word → Word → Bool), ((c = .cmpEq g w ∧ op = 12 ∧ f = fun (a b : Word) => decide (a = b)) ∨ (c = .cmpNe g w ∧ op = 13 ∧ f = fun (a b : Word) => decide (a ≠ b)) ∨ (c = .cmpLt g w ∧ op = 14 ∧ f = fun (a b : Word) => decide (a.toInt < b.toInt)) ∨ (c = .cmpLtu g w ∧ op = 15 ∧ f = fun (a b : Word) => decide (a.toNat < b.toNat))) ∧ (wSlot w = 2 ∨ wSlot w = 3) ∧ wOp w = op ∧ getBits w 47 46 = 0 ∧ Issues s g w n) ∧
    (∃ (s : State), ∃ (g : Nat), ∃ (w : Word), ∃ (n : Nat), ∃ (c : Instr), ∃ (op : Nat), ∃ (f : Word → Word → Bool), ((c = .cmpEq g w ∧ op = 12 ∧ f = fun (a b : Word) => decide (a = b)) ∨ (c = .cmpNe g w ∧ op = 13 ∧ f = fun (a b : Word) => decide (a ≠ b)) ∨ (c = .cmpLt g w ∧ op = 14 ∧ f = fun (a b : Word) => decide (a.toInt < b.toInt)) ∨ (c = .cmpLtu g w ∧ op = 15 ∧ f = fun (a b : Word) => decide (a.toNat < b.toNat))) ∧ (wSlot w = 2 ∨ wSlot w = 3) ∧ wOp w = op ∧ getBits w 47 46 = 0 ∧ Issues s g w n) ∧
    (∃ (s : State), ∃ (g : Nat), ∃ (w : Word), ∃ (n : Nat), ∃ (c : Instr), ∃ (op : Nat), ∃ (f : Bool → Bool → Bool), ((c = .pand g w ∧ op = 16 ∧ f = fun a b => a && b) ∨ (c = .por g w ∧ op = 17 ∧ f = fun a b => a || b) ∨ (c = .pxor g w ∧ op = 18 ∧ f = fun a b => a != b)) ∧ (wSlot w = 2 ∨ wSlot w = 3) ∧ wOp w = op ∧ getBits w 47 46 = 0 ∧ getBits w 42 41 = 0 ∧ getBits w 37 36 = 0 ∧ Issues s g w n) ∧
    (∃ (s : State), ∃ (g : Nat), ∃ (w : Word), ∃ (n : Nat), ∃ (c : Instr), ∃ (op : Nat), ∃ (f : Bool → Bool → Bool), ((c = .pand g w ∧ op = 16 ∧ f = fun a b => a && b) ∨ (c = .por g w ∧ op = 17 ∧ f = fun a b => a || b) ∨ (c = .pxor g w ∧ op = 18 ∧ f = fun a b => a != b)) ∧ (wSlot w = 2 ∨ wSlot w = 3) ∧ wOp w = op ∧ getBits w 47 46 = 0 ∧ getBits w 42 41 = 0 ∧ getBits w 37 36 = 0 ∧ Issues s g w n) ∧
    (∃ (s : State), ∃ (g : Nat), ∃ (w : Word), ∃ (n : Nat), ∃ (c : Instr), ∃ (op : Nat), ∃ (f : Bool → Bool → Bool), ((c = .pand g w ∧ op = 16 ∧ f = fun a b => a && b) ∨ (c = .por g w ∧ op = 17 ∧ f = fun a b => a || b) ∨ (c = .pxor g w ∧ op = 18 ∧ f = fun a b => a != b)) ∧ (wSlot w = 2 ∨ wSlot w = 3) ∧ wOp w = op ∧ getBits w 47 46 = 0 ∧ getBits w 42 41 = 0 ∧ getBits w 37 36 = 0 ∧ Issues s g w n) :=
  ⟨⟨wTile, 9, wWord 1 2 12 (2 ^ 43 * 6 + 2 ^ 38 + 2 ^ 33 * 2), 4, .cmpEq 9 (wWord 1 2 12 (2 ^ 43 * 6 + 2 ^ 38 + 2 ^ 33 * 2)), 12, fun a b => decide (a = b), ⟨.inl ⟨rfl, rfl, rfl⟩, by decide +kernel⟩⟩,
   ⟨wTile, 9, wWord 1 2 13 (2 ^ 43 * 6 + 2 ^ 38 + 2 ^ 33 * 2), 4, .cmpNe 9 (wWord 1 2 13 (2 ^ 43 * 6 + 2 ^ 38 + 2 ^ 33 * 2)), 13, fun a b => decide (a ≠ b), ⟨.inr (.inl ⟨rfl, rfl, rfl⟩), by decide +kernel⟩⟩,
   ⟨wTile, 9, wWord 1 2 14 (2 ^ 43 * 6 + 2 ^ 38 + 2 ^ 33 * 2), 4, .cmpLt 9 (wWord 1 2 14 (2 ^ 43 * 6 + 2 ^ 38 + 2 ^ 33 * 2)), 14, fun a b => decide (a.toInt < b.toInt), ⟨.inr (.inr (.inl ⟨rfl, rfl, rfl⟩)), by decide +kernel⟩⟩,
   ⟨wTile, 9, wWord 1 2 15 (2 ^ 43 * 6 + 2 ^ 38 + 2 ^ 33 * 2), 4, .cmpLtu 9 (wWord 1 2 15 (2 ^ 43 * 6 + 2 ^ 38 + 2 ^ 33 * 2)), 15, fun a b => decide (a.toNat < b.toNat), ⟨.inr (.inr (.inr (⟨rfl, rfl, rfl⟩))), by decide +kernel⟩⟩,
   ⟨wTile, 9, wWord 1 3 16 (2 ^ 43 * 6 + 2 ^ 38 + 2 ^ 33 * 2), 4, .pand 9 (wWord 1 3 16 (2 ^ 43 * 6 + 2 ^ 38 + 2 ^ 33 * 2)), 16, fun a b => a && b, ⟨.inl ⟨rfl, rfl, rfl⟩, by decide +kernel⟩⟩,
   ⟨wTile, 9, wWord 1 3 17 (2 ^ 43 * 6 + 2 ^ 38 + 2 ^ 33 * 2), 4, .por 9 (wWord 1 3 17 (2 ^ 43 * 6 + 2 ^ 38 + 2 ^ 33 * 2)), 17, fun a b => a || b, ⟨.inr (.inl ⟨rfl, rfl, rfl⟩), by decide +kernel⟩⟩,
   ⟨wTile, 9, wWord 1 3 18 (2 ^ 43 * 6 + 2 ^ 38 + 2 ^ 33 * 2), 4, .pxor 9 (wWord 1 3 18 (2 ^ 43 * 6 + 2 ^ 38 + 2 ^ 33 * 2)), 18, fun a b => a != b, ⟨.inr (.inr (⟨rfl, rfl, rfl⟩)), by decide +kernel⟩⟩⟩
theorem witness_MultiplyWords :
    (∃ (s : State), ∃ (g : Nat), ∃ (w : Word), ∃ (n : Nat), ∃ (c : Instr), ∃ (op : Nat), ∃ (m : MulMode), ((c = .mxMul g w ∧ op = 1 ∧ m = .mul) ∨ (c = .mxMultA g w ∧ op = 2 ∧ m = .multA) ∨ (c = .mxMultB g w ∧ op = 3 ∧ m = .multB)) ∧ wSlot w = 0 ∧ wOp w = op ∧ mRsv w = false ∧ Issues s g w n ∧ Planned s g w ∧ guardOk (s.tile g) w = true ∧ State.mulDesc (s.tile g) w m = false ∧ (s.tile g).units.mulFree ≤ n ∧ State.bankBusy (s.tile g).units.portBanks (mAcc w) n = false) ∧
    (∃ (s : State), ∃ (g : Nat), ∃ (w : Word), ∃ (n : Nat), ∃ (c : Instr), ∃ (op : Nat), ∃ (m : MulMode), ((c = .mxMul g w ∧ op = 1 ∧ m = .mul) ∨ (c = .mxMultA g w ∧ op = 2 ∧ m = .multA) ∨ (c = .mxMultB g w ∧ op = 3 ∧ m = .multB)) ∧ wSlot w = 0 ∧ wOp w = op ∧ mRsv w = false ∧ Issues s g w n ∧ Planned s g w ∧ guardOk (s.tile g) w = true ∧ State.mulDesc (s.tile g) w m = false ∧ (s.tile g).units.mulFree ≤ n ∧ State.bankBusy (s.tile g).units.portBanks (mAcc w) n = false) ∧
    (∃ (s : State), ∃ (g : Nat), ∃ (w : Word), ∃ (n : Nat), ∃ (c : Instr), ∃ (op : Nat), ∃ (m : MulMode), ((c = .mxMul g w ∧ op = 1 ∧ m = .mul) ∨ (c = .mxMultA g w ∧ op = 2 ∧ m = .multA) ∨ (c = .mxMultB g w ∧ op = 3 ∧ m = .multB)) ∧ wSlot w = 0 ∧ wOp w = op ∧ mRsv w = false ∧ Issues s g w n ∧ Planned s g w ∧ guardOk (s.tile g) w = true ∧ State.mulDesc (s.tile g) w m = false ∧ (s.tile g).units.mulFree ≤ n ∧ State.bankBusy (s.tile g).units.portBanks (mAcc w) n = false) :=
  ⟨⟨wTile, 9, wWord 1 0 1 (2 ^ 46 * 2 + 2 ^ 42 * 2 + 2 ^ 38 * 3), 4, .mxMul 9 (wWord 1 0 1 (2 ^ 46 * 2 + 2 ^ 42 * 2 + 2 ^ 38 * 3)), 1, .mul, by decide +kernel⟩,
   ⟨wTile, 9, wWord 1 0 2 (2 ^ 46 * 2 + 2 ^ 42 * 2 + 2 ^ 38 * 3), 4, .mxMultA 9 (wWord 1 0 2 (2 ^ 46 * 2 + 2 ^ 42 * 2 + 2 ^ 38 * 3)), 2, .multA, by decide +kernel⟩,
   ⟨wTile, 9, wWord 1 0 3 (2 ^ 46 * 2 + 2 ^ 42 * 2 + 2 ^ 38 * 3), 4, .mxMultB 9 (wWord 1 0 3 (2 ^ 46 * 2 + 2 ^ 42 * 2 + 2 ^ 38 * 3)), 3, .multB, by decide +kernel⟩⟩
theorem witness_PortWords :
    (∃ (s : State), ∃ (g : Nat), ∃ (w : Word), ∃ (n : Nat), wSlot w = 0 ∧ mRsv w = false ∧ Issues s g w n ∧ Planned s g w ∧ guardOk (s.tile g) w = true ∧ (s.tile g).units.portFree ≤ n ∧ State.bankBusy (s.tile g).units.mulBanks (mAcc w) n = false ∧ let d := (s.tile g).d (mDA w); wOp w = 4 ∧ State.ldDesc (s.tile g) w = false ∧ inLocal (dBase d) (regionBytes d) = true) ∧
    (∃ (s : State), ∃ (g : Nat), ∃ (w : Word), ∃ (n : Nat), ∃ (c : Instr), ∃ (q : Bool), wSlot w = 0 ∧ mRsv w = false ∧ Issues s g w n ∧ Planned s g w ∧ guardOk (s.tile g) w = true ∧ (s.tile g).units.portFree ≤ n ∧ State.bankBusy (s.tile g).units.mulBanks (mAcc w) n = false ∧ let d := (s.tile g).d (mDA w); ((c = .mxSt g w ∧ wOp w = 5 ∧ q = false) ∨ (c = .mxStq g w ∧ wOp w = 6 ∧ q = true)) ∧ State.stDesc (s.tile g) w = false ∧ inLocal (dBase d) (regionBytes d) = true ∧ (s.part (s.tilePart g)).landedBn ≤ s.bn) ∧
    (∃ (s : State), ∃ (g : Nat), ∃ (w : Word), ∃ (n : Nat), ∃ (c : Instr), ∃ (q : Bool), wSlot w = 0 ∧ mRsv w = false ∧ Issues s g w n ∧ Planned s g w ∧ guardOk (s.tile g) w = true ∧ (s.tile g).units.portFree ≤ n ∧ State.bankBusy (s.tile g).units.mulBanks (mAcc w) n = false ∧ let d := (s.tile g).d (mDA w); ((c = .mxSt g w ∧ wOp w = 5 ∧ q = false) ∨ (c = .mxStq g w ∧ wOp w = 6 ∧ q = true)) ∧ State.stDesc (s.tile g) w = false ∧ inLocal (dBase d) (regionBytes d) = true ∧ (s.part (s.tilePart g)).landedBn ≤ s.bn) ∧
    (∃ (s : State), ∃ (g : Nat), ∃ (w : Word), ∃ (n : Nat), ∃ (c : Instr), ∃ (q : Bool), wSlot w = 0 ∧ mRsv w = false ∧ Issues s g w n ∧ Planned s g w ∧ guardOk (s.tile g) w = true ∧ (s.tile g).units.portFree ≤ n ∧ State.bankBusy (s.tile g).units.mulBanks (mAcc w) n = false ∧ let d := (s.tile g).d (mDA w); ((c = .mxSt g w ∧ wOp w = 5 ∧ q = false) ∨ (c = .mxStq g w ∧ wOp w = 6 ∧ q = true)) ∧ State.stDesc (s.tile g) w = false ∧ inLocal (dBase d) (regionBytes d) = true ∧ (s.part (s.tilePart g)).landedBn ≤ s.bn ∧ wE w = true) ∧
    (∃ (s : State), ∃ (g : Nat), ∃ (w : Word), ∃ (n : Nat), ∃ (c : Instr), ∃ (q : Bool), wSlot w = 0 ∧ mRsv w = false ∧ Issues s g w n ∧ Planned s g w ∧ guardOk (s.tile g) w = true ∧ (s.tile g).units.portFree ≤ n ∧ State.bankBusy (s.tile g).units.mulBanks (mAcc w) n = false ∧ let d := (s.tile g).d (mDA w); ((c = .mxSt g w ∧ wOp w = 5 ∧ q = false) ∨ (c = .mxStq g w ∧ wOp w = 6 ∧ q = true)) ∧ State.stDesc (s.tile g) w = false ∧ inLocal (dBase d) (regionBytes d) = true ∧ (s.part (s.tilePart g)).landedBn ≤ s.bn ∧ wE w = false) ∧
    (∃ (s : State), ∃ (g : Nat), ∃ (w : Word), ∃ (n : Nat), wSlot w = 0 ∧ mRsv w = false ∧ Issues s g w n ∧ Planned s g w ∧ guardOk (s.tile g) w = true ∧ (s.tile g).units.portFree ≤ n ∧ State.bankBusy (s.tile g).units.mulBanks (mAcc w) n = false ∧ wOp w = 7) :=
  ⟨⟨wTile, 9, wWord 1 0 4 (2 ^ 46 + 2 ^ 42), 4, by decide +kernel⟩,
   ⟨wTile, 9, wWord 1 0 5 (2 ^ 46 + 2 ^ 42 + 2 ^ 34 * 2), 4, .mxSt 9 (wWord 1 0 5 (2 ^ 46 + 2 ^ 42 + 2 ^ 34 * 2)), false, by decide +kernel⟩,
   ⟨wTile, 9, wWord 1 0 6 (2 ^ 46 + 2 ^ 42 + 2 ^ 34 * 2), 4, .mxStq 9 (wWord 1 0 6 (2 ^ 46 + 2 ^ 42 + 2 ^ 34 * 2)), true, by decide +kernel⟩,
   ⟨wTile, 9, wWord 1 0 5 (2 ^ 46 + 2 ^ 42 + 2 ^ 34 * 2), 4, .mxSt 9 (wWord 1 0 5 (2 ^ 46 + 2 ^ 42 + 2 ^ 34 * 2)), false, by decide +kernel⟩,
   ⟨wTile, 9, wWord 0 0 5 (2 ^ 46 + 2 ^ 42 + 2 ^ 34 * 2), 4, .mxSt 9 (wWord 0 0 5 (2 ^ 46 + 2 ^ 42 + 2 ^ 34 * 2)), false, by decide +kernel⟩,
   ⟨wTile, 9, wWord 1 0 7 (2 ^ 46), 4, by decide +kernel⟩⟩
theorem witness_ChainWords :
    (∃ (s : State), ∃ (g : Nat), ∃ (w : Word), ∃ (n : Nat), wSlot w = 1 ∧ vRsv w = false ∧ Issues s g w n ∧ Planned s g w ∧ guardOk (s.tile g) w = true ∧ (s.tile g).units.vcFree ≤ n ∧ wOp w = 1 ∧ State.runDesc (s.tile g) w = false ∧ s.runAddr g w = false ∧ (s.part (s.tilePart g)).landedBn ≤ s.bn) ∧
    (∃ (s : State), ∃ (g : Nat), ∃ (w : Word), ∃ (n : Nat), wSlot w = 1 ∧ vRsv w = false ∧ Issues s g w n ∧ Planned s g w ∧ guardOk (s.tile g) w = true ∧ (s.tile g).units.vcFree ≤ n ∧ wOp w = 1 ∧ State.runDesc (s.tile g) w = false ∧ s.runAddr g w = false ∧ (s.part (s.tilePart g)).landedBn ≤ s.bn ∧ let dd := (s.tile g).d (vDD w); dBS dd = false) ∧
    (∃ (s : State), ∃ (g : Nat), ∃ (w : Word), ∃ (n : Nat), wSlot w = 1 ∧ vRsv w = false ∧ Issues s g w n ∧ Planned s g w ∧ guardOk (s.tile g) w = true ∧ (s.tile g).units.vcFree ≤ n ∧ wOp w = 2 ∧ descBad ((s.tile g).d (vDA w)) = false ∧ inTile (dBase ((s.tile g).d (vDA w))) 256 = true ∧ entryBad (s.rd (devAddr g (dBase ((s.tile g).d (vDA w)))) 256) = false) :=
  ⟨⟨wTile, 9, wWord 1 1 1 (2 ^ 42 * 6 + 2 ^ 38 * 4 + 2 ^ 34), 4, by decide +kernel⟩,
   ⟨wTile, 9, wWord 1 1 1 (2 ^ 42 * 6 + 2 ^ 38 * 4 + 2 ^ 34), 4, by decide +kernel⟩,
   ⟨wEntryMem, 9, wWord 1 1 2 (2 ^ 42 * 7 + 2 ^ 34), 4, by decide +kernel⟩⟩
theorem witness_MemoryWords :
    (∃ (s : State), ∃ (g : Nat), ∃ (w : Word), ∃ (n : Nat), ∃ (c : Instr), ∃ (es : List (Nat × Eff)), wSlot w = 2 ∧ Issues s g w n ∧ Planned s g w ∧ guardOk (s.tile g) w = true ∧ let t := s.tile g; let a := t.ea w; let far := if a < 0x10_0000 then 0 else 20; inLocal a 8 = true ∧ a % 8 = 0 ∧ ((c = .xsLd g w ∧ wOp w = 0x20 ∧ es = [(4 + far, Eff.sreg (xSD w) (BitVec.ofNat 64 (s.rdN (devAddr g a) 8)) (BitVec.ofNat 64 (s.rdN (devAddr g a) 8)))]) ∨ (c = .xsSt g w ∧ wOp w = 0x21 ∧ es = [(4 + far, Eff.mem (devAddr g a) (leBytes 8 (t.s (xSD w)).toNat))]))) ∧
    (∃ (s : State), ∃ (g : Nat), ∃ (w : Word), ∃ (n : Nat), ∃ (c : Instr), ∃ (es : List (Nat × Eff)), wSlot w = 2 ∧ Issues s g w n ∧ Planned s g w ∧ guardOk (s.tile g) w = true ∧ let t := s.tile g; let a := t.ea w; let far := if a < 0x10_0000 then 0 else 20; inLocal a 8 = true ∧ a % 8 = 0 ∧ ((c = .xsLd g w ∧ wOp w = 0x20 ∧ es = [(4 + far, Eff.sreg (xSD w) (BitVec.ofNat 64 (s.rdN (devAddr g a) 8)) (BitVec.ofNat 64 (s.rdN (devAddr g a) 8)))]) ∨ (c = .xsSt g w ∧ wOp w = 0x21 ∧ es = [(4 + far, Eff.mem (devAddr g a) (leBytes 8 (t.s (xSD w)).toNat))]))) ∧
    (∃ (s : State), ∃ (g : Nat), ∃ (w : Word), ∃ (n : Nat), ∃ (c : Instr), ∃ (es : List (Nat × Eff)), wSlot w = 2 ∧ Issues s g w n ∧ Planned s g w ∧ guardOk (s.tile g) w = true ∧ let t := s.tile g; let a := t.ea w; let far := if a < 0x10_0000 then 0 else 20; inLocal a 16 = true ∧ a % 16 = 0 ∧ ((c = .xdLd g w ∧ wOp w = 0x23 ∧ es = [(5 + far, Eff.dreg (xDD w) (BitVec.ofNat 128 (s.rdN (devAddr g a) 16)) (BitVec.ofNat 128 (s.rdN (devAddr g a) 16)))]) ∨ (c = .xdSt g w ∧ wOp w = 0x24 ∧ es = [(5 + far, Eff.mem (devAddr g a) (leBytes 16 (t.d (xDD w)).toNat))]))) ∧
    (∃ (s : State), ∃ (g : Nat), ∃ (w : Word), ∃ (n : Nat), ∃ (c : Instr), ∃ (es : List (Nat × Eff)), wSlot w = 2 ∧ Issues s g w n ∧ Planned s g w ∧ guardOk (s.tile g) w = true ∧ let t := s.tile g; let a := t.ea w; let far := if a < 0x10_0000 then 0 else 20; inLocal a 16 = true ∧ a % 16 = 0 ∧ ((c = .xdLd g w ∧ wOp w = 0x23 ∧ es = [(5 + far, Eff.dreg (xDD w) (BitVec.ofNat 128 (s.rdN (devAddr g a) 16)) (BitVec.ofNat 128 (s.rdN (devAddr g a) 16)))]) ∨ (c = .xdSt g w ∧ wOp w = 0x24 ∧ es = [(5 + far, Eff.mem (devAddr g a) (leBytes 16 (t.d (xDD w)).toNat))]))) ∧
    (∃ (s : State), ∃ (g : Nat), ∃ (w : Word), ∃ (n : Nat), wSlot w = 2 ∧ Issues s g w n ∧ Planned s g w ∧ guardOk (s.tile g) w = true ∧ wOp w = 0x22) ∧
    (∃ (s : State), ∃ (g : Nat), ∃ (w : Word), ∃ (n : Nat), wSlot w = 2 ∧ Issues s g w n ∧ Planned s g w ∧ guardOk (s.tile g) w = true ∧ let t := s.tile g; wOp w = 0x25 ∧ State.copyDesc (t.d (xDD w)) (t.d (xDS w)) = false ∧ inLocal (dBase (t.d (xDD w))) (regionBytes (t.d (xDD w))) = true ∧ inLocal (dBase (t.d (xDS w))) (regionBytes (t.d (xDS w))) = true ∧ t.units.copyFree ≤ n) ∧
    (∃ (s : State), ∃ (g : Nat), ∃ (w : Word), ∃ (n : Nat), wSlot w = 2 ∧ Issues s g w n ∧ Planned s g w ∧ guardOk (s.tile g) w = true ∧ let t := s.tile g; let a := t.ea w; wOp w = 0x26 ∧ inTile a 64 = true ∧ a % 64 = 0) :=
  ⟨⟨wEntryMem, 9, wWord 1 2 32 (2 ^ 43 * 6 + 2 ^ 38 * 3 + 8), 4, .xsLd 9 (wWord 1 2 32 (2 ^ 43 * 6 + 2 ^ 38 * 3 + 8)), [(4, .sreg 6 0 0)], by decide +kernel⟩,
   ⟨wTile, 9, wWord 1 2 33 (2 ^ 43 * 2 + 2 ^ 38 * 4 + 8), 4, .xsSt 9 (wWord 1 2 33 (2 ^ 43 * 2 + 2 ^ 38 * 4 + 8)), [(24, .mem (clusterAddr 1 + 0x48) (leBytes 8 7))], by decide +kernel⟩,
   ⟨wTile, 9, wWord 1 2 35 (2 ^ 38 * 3 + 2 ^ 34 * 7 + 16), 4, .xdLd 9 (wWord 1 2 35 (2 ^ 38 * 3 + 2 ^ 34 * 7 + 16)), [(5, .dreg 7 0 0)], by decide +kernel⟩,
   ⟨wTile, 9, wWord 1 2 36 (2 ^ 38 * 4 + 2 ^ 34 * 7 + 16), 4, .xdSt 9 (wWord 1 2 36 (2 ^ 38 * 4 + 2 ^ 34 * 7 + 16)), [(25, .mem (clusterAddr 1 + 0x50) (leBytes 16 0))], by decide +kernel⟩,
   ⟨wTile, 9, wWord 1 2 34 (2 ^ 43 + 2 ^ 38 * 2 + 2 ^ 34 * 7), 4, by decide +kernel⟩,
   ⟨wTile, 9, wWord 1 2 37 (2 ^ 34 * 2 + 2 ^ 30 * 3), 4, by decide +kernel⟩,
   ⟨wTile, 9, wWord 1 2 38 (2 ^ 38 * 3 + 2 ^ 25 * 3 + 2 ^ 22 * 2 + 64), 4, by decide +kernel⟩⟩
/-! ### group 11 -/
def wLoops : State := wTile.modTile 9 fun t => { t with loops := [{ start := 1, stop := 9, left := 3 }] }
def wPos9 (pos held : Nat) : State := ((wTile.putF F.PLN_SPOS_POS 0 pos).modPart 0 fun x => { x with heldNow := held = 1 }).modTile 9 fun t => { t with nextIssue := 0 }
def wHalt (left : Nat) : State := (wTile.putF F.TIL_STATUS_TASK 9 77).modPart 0 fun x => { x with tileLeft := if left = 0 then [] else [(77, left)] }
def wPend (e : Eff) : State := { w1 with now := 30 }.modTile 9 fun t => { t with pend := [{ vis := 40, issue := 20, seq := 1, eff := e, task := 0, share := 0 }] }
def wWait (x : Wait) (st : Nat) : State := (w1.putF F.TIL_STATUS_STATE 9 st).modTile 9 fun t => { t with wait := some x, toks := [(3, 5)] }
def wArr : State := w1.modTile 9 fun t => { t with arrives := [{ at_ := 50, token := 0x82 }, { at_ := 60, token := 0x83 }] }
def wChan (t : Option Nat) : State := w1.modCmover 9 fun m => { m with chains := [{ tile := t, token := 4, part := 0, task := 77, addr := 0, desc := none, since := none }] }

theorem witness_BranchesAndLoops :
    (∃ (s : State), ∃ (g : Nat), ∃ (w : Word), ∃ (n : Nat), wSlot w = 3 ∧ wE w = true ∧ Issues s g w n ∧ guardOk (s.tile g) w = true ∧ let t := s.tile g; wOp w = 0x20 ∧ 0 ≤ State.branchTarget t.pc w ∧ State.branchTarget t.pc w ≤ 16383) ∧
    (∃ (s : State), ∃ (g : Nat), ∃ (w : Word), ∃ (n : Nat), wSlot w = 3 ∧ wE w = true ∧ Issues s g w n ∧ guardOk (s.tile g) w = true ∧ let t := s.tile g; wOp w = 0x20 ∧ 0 ≤ State.branchTarget t.pc w ∧ State.branchTarget t.pc w ≤ 16383) ∧
    (∃ (s : State), ∃ (g : Nat), ∃ (w : Word), ∃ (n : Nat), wSlot w = 3 ∧ wE w = true ∧ Issues s g w n ∧ guardOk (s.tile g) w = true ∧ let t := s.tile g; let stop := t.pc + cImm w / 2 ^ 16; wOp w = 0x21 ∧ 0 < cImm w / 2 ^ 16 ∧ stop ≤ 16383 ∧ loopCount t w ≠ 0 ∧ t.loops.length < 4) ∧
    (∃ (s : State), ∃ (g : Nat), ∃ (w : Word), ∃ (n : Nat), wSlot w = 3 ∧ wE w = true ∧ Issues s g w n ∧ guardOk (s.tile g) w = true ∧ let t := s.tile g; let stop := t.pc + cImm w / 2 ^ 16; wOp w = 0x21 ∧ 0 < cImm w / 2 ^ 16 ∧ stop ≤ 16383 ∧ loopCount t w = 0) ∧
    (∃ (s : State), ∃ (g : Nat), ∃ (w : Word), ∃ (n : Nat), wSlot w = 3 ∧ wE w = true ∧ Issues s g w n ∧ guardOk (s.tile g) w = true ∧ wOp w = 0x24 ∧ 1 ≤ cImm w ∧ cImm w ≤ 1048576) :=
  ⟨⟨wLoops, 9, wWord 1 3 0x20 4294967293, 4, by decide +kernel⟩,
   ⟨wTile, 9, wWord 1 3 0x20 16380, 4, by decide +kernel⟩,
   ⟨wLoops, 9, wWord 1 3 0x21 (2 ^ 32 + 16380 * 2 ^ 16 + 5), 4, by decide +kernel⟩,
   ⟨wLoops, 9, wWord 1 3 0x21 (2 ^ 16 * 4), 4, by decide +kernel⟩,
   ⟨wTile, 9, wWord 1 3 0x24 1048576, 4, by decide +kernel⟩⟩
theorem witness_WaitWords :
    (∃ (s : State), ∃ (g : Nat), ∃ (w : Word), ∃ (n : Nat), g < 256 ∧ wSlot w = 3 ∧ wE w = true ∧ Issues s g w n ∧ guardOk (s.tile g) w = true ∧ wOp w = 0x22) ∧
    (∃ (s : State), ∃ (g : Nat), ∃ (w : Word), ∃ (n : Nat), g < 256 ∧ wSlot w = 3 ∧ wE w = true ∧ Issues s g w n ∧ guardOk (s.tile g) w = true ∧ let t := s.tile g; let pos := s.getF F.PLN_SPOS_POS (s.tilePart g); let x := State.waitTarget t w; wOp w = 0x22 ∧ pos < x) ∧
    (∃ (s : State), ∃ (g : Nat), ∃ (w : Word), ∃ (n : Nat), g < 256 ∧ wSlot w = 3 ∧ wE w = true ∧ Issues s g w n ∧ guardOk (s.tile g) w = true ∧ let t := s.tile g; let pos := s.getF F.PLN_SPOS_POS (s.tilePart g); let x := State.waitTarget t w; wOp w = 0x22 ∧ pos = x ∧ (s.part (s.tilePart g)).heldNow = false ∧ n < s.beatStart + 2) ∧
    (∃ (s : State), ∃ (g : Nat), ∃ (w : Word), ∃ (n : Nat), g < 256 ∧ wSlot w = 3 ∧ wE w = true ∧ Issues s g w n ∧ guardOk (s.tile g) w = true ∧ let t := s.tile g; let pos := s.getF F.PLN_SPOS_POS (s.tilePart g); let x := State.waitTarget t w; wOp w = 0x22 ∧ x < pos) ∧
    (∃ (s : State), ∃ (g : Nat), ∃ (w : Word), ∃ (n : Nat), g < 256 ∧ wSlot w = 3 ∧ wE w = true ∧ Issues s g w n ∧ guardOk (s.tile g) w = true ∧ let t := s.tile g; wOp w = 0x23 ∧ (t.shadowOn = false ∨ wMV w = true)) ∧
    (∃ (s : State), ∃ (g : Nat), ∃ (w : Word), ∃ (n : Nat), g < 256 ∧ wSlot w = 3 ∧ wE w = true ∧ Issues s g w n ∧ guardOk (s.tile g) w = true ∧ let t := s.tile g; wOp w = 0x23 ∧ (t.shadowOn = false ∨ wMV w = true) ∧ tokReached (t.tok (cTK w)) (cImm w) = true) ∧
    (∃ (s : State), ∃ (g : Nat), ∃ (w : Word), ∃ (n : Nat), g < 256 ∧ wSlot w = 3 ∧ wE w = true ∧ Issues s g w n ∧ guardOk (s.tile g) w = true ∧ let t := s.tile g; wOp w = 0x23 ∧ (t.shadowOn = false ∨ wMV w = true) ∧ tokReached (t.tok (cTK w)) (cImm w) = false) :=
  ⟨⟨wPos9 8 0, 9, wWord 1 3 0x22 (2 ^ 32 + 9), 0, by decide +kernel⟩,
   ⟨wPos9 8 0, 9, wWord 1 3 0x22 (2 ^ 32 + 9), 0, by decide +kernel⟩,
   ⟨wPos9 8 0, 9, wWord 1 3 0x22 (2 ^ 43 * 2 + 1), 0, by decide +kernel⟩,
   ⟨wPos9 8 0, 9, wWord 1 3 0x22 (2 ^ 43 * 2), 0, by decide +kernel⟩,
   ⟨wTile, 9, wWord 1 3 0x23 (2 ^ 38 * 3), 4, by decide +kernel⟩,
   ⟨wTile, 9, wWord 1 3 0x23 (2 ^ 38 * 3 + 32769), 4, by decide +kernel⟩,
   ⟨wTile, 9, wWord 1 3 0x23 (2 ^ 38 * 3 + 32768), 4, by decide +kernel⟩⟩
theorem witness_ArriveAndHalt :
    (∃ (s : State), ∃ (g : Nat), ∃ (w : Word), ∃ (n : Nat), g < 256 ∧ wSlot w = 3 ∧ wE w = true ∧ Issues s g w n ∧ Planned s g w ∧ guardOk (s.tile g) w = true ∧ let t := s.tile g; let a := (t.s (cSA w)).toNat; wOp w = 0x25 ∧ s.tokenBad g a = false) ∧
    (∃ (s : State), ∃ (g : Nat), ∃ (w : Word), ∃ (n : Nat), g < 256 ∧ wSlot w = 3 ∧ wE w = true ∧ Issues s g w n ∧ Planned s g w ∧ guardOk (s.tile g) w = true ∧ let t := s.tile g; let a := (t.s (cSA w)).toNat; wOp w = 0x26 ∧ (cI w = true ∨ s.tokenBad g a = false)) ∧
    (∃ (s : State), ∃ (g : Nat), ∃ (w : Word), ∃ (n : Nat), g < 256 ∧ wSlot w = 3 ∧ wE w = true ∧ Issues s g w n ∧ Planned s g w ∧ guardOk (s.tile g) w = true ∧ let t := s.tile g; let a := (t.s (cSA w)).toNat; wOp w = 0x26 ∧ (cI w = true ∨ s.tokenBad g a = false)) ∧
    (∃ (s : State), ∃ (g : Nat), ∃ (w : Word), ∃ (n : Nat), g < 256 ∧ wSlot w = 3 ∧ wE w = true ∧ Issues s g w n ∧ Planned s g w ∧ guardOk (s.tile g) w = true ∧ let t := s.tile g; let a := (t.s (cSA w)).toNat; let task := s.getF F.TIL_STATUS_TASK g; let left := mget 0 (s.part (s.tilePart g)).tileLeft task; wOp w = 0x26 ∧ (cI w = true ∨ s.tokenBad g a = false) ∧ left = 0) ∧
    (∃ (s : State), ∃ (g : Nat), ∃ (w : Word), ∃ (n : Nat), g < 256 ∧ wSlot w = 3 ∧ wE w = true ∧ Issues s g w n ∧ Planned s g w ∧ guardOk (s.tile g) w = true ∧ let t := s.tile g; let a := (t.s (cSA w)).toNat; let task := s.getF F.TIL_STATUS_TASK g; let left := mget 0 (s.part (s.tilePart g)).tileLeft task; wOp w = 0x26 ∧ (cI w = true ∨ s.tokenBad g a = false) ∧ left = 1) ∧
    (∃ (s : State), ∃ (g : Nat), ∃ (w : Word), ∃ (n : Nat), g < 256 ∧ wSlot w = 3 ∧ wE w = true ∧ Issues s g w n ∧ Planned s g w ∧ guardOk (s.tile g) w = true ∧ let t := s.tile g; let a := (t.s (cSA w)).toNat; let task := s.getF F.TIL_STATUS_TASK g; let left := mget 0 (s.part (s.tilePart g)).tileLeft task; wOp w = 0x26 ∧ (cI w = true ∨ s.tokenBad g a = false) ∧ 2 ≤ left) :=
  ⟨⟨wTile, 9, wWord 1 3 0x25 (2 ^ 43 * 5), 4, by decide +kernel⟩,
   ⟨wHalt 0, 9, wWord 1 3 0x26 (2 ^ 32), 4, by decide +kernel⟩,
   ⟨wHalt 0, 9, wWord 1 3 0x26 (2 ^ 43 * 5), 4, by decide +kernel⟩,
   ⟨wHalt 0, 9, wWord 1 3 0x26 (2 ^ 43 * 5), 4, by decide +kernel⟩,
   ⟨wHalt 1, 9, wWord 1 3 0x26 (2 ^ 43 * 5), 4, by decide +kernel⟩,
   ⟨wHalt 2, 9, wWord 1 3 0x26 (2 ^ 32), 4, by decide +kernel⟩⟩
theorem witness_ResultsBecomeVisible :
    (∃ (s : State), ∃ (g : Nat), ∃ (x : Pend), (s.tile g).pend = [x] ∧ (∀ y ∈ s.tiles, y.1 ≠ g → y.2.pend = []) ∧ g < 256 ∧ s.tiles.Pairwise (fun a b => a.1 < b.1) ∧ s.checkerOn (s.tilePart g) = false) ∧
    (∃ (s : State), ∃ (g : Nat), ∃ (x : Pend), (s.tile g).pend = [x] ∧ (∀ y ∈ s.tiles, y.1 ≠ g → y.2.pend = []) ∧ g < 256 ∧ s.tiles.Pairwise (fun a b => a.1 < b.1) ∧ s.checkerOn (s.tilePart g) = false) ∧
    (∃ (s : State), ∃ (g : Nat), ∃ (x : Pend), (s.tile g).pend = [x] ∧ (∀ y ∈ s.tiles, y.1 ≠ g → y.2.pend = []) ∧ g < 256 ∧ s.tiles.Pairwise (fun a b => a.1 < b.1) ∧ s.checkerOn (s.tilePart g) = false) ∧
    (∃ (s : State), ∃ (g : Nat), ∃ (x : Pend), (s.tile g).pend = [x] ∧ (∀ y ∈ s.tiles, y.1 ≠ g → y.2.pend = []) ∧ g < 256 ∧ s.tiles.Pairwise (fun a b => a.1 < b.1) ∧ s.checkerOn (s.tilePart g) = false) ∧
    (∃ (s : State), ∃ (g : Nat), ∃ (x : Pend), (s.tile g).pend = [x] ∧ (∀ y ∈ s.tiles, y.1 ≠ g → y.2.pend = []) ∧ g < 256 ∧ s.tiles.Pairwise (fun a b => a.1 < b.1) ∧ s.checkerOn (s.tilePart g) = false) ∧
    (∃ (s : State), ∃ (g : Nat), ∃ (x : Pend), (s.tile g).pend = [x] ∧ (∀ y ∈ s.tiles, y.1 ≠ g → y.2.pend = []) ∧ g < 256 ∧ s.tiles.Pairwise (fun a b => a.1 < b.1) ∧ s.checkerOn (s.tilePart g) = false) ∧
    (∃ (s : State), ∃ (g : Nat), ∃ (x : Pend), (s.tile g).pend = [x] ∧ (∀ y ∈ s.tiles, y.1 ≠ g → y.2.pend = []) ∧ g < 256 ∧ s.tiles.Pairwise (fun a b => a.1 < b.1) ∧ s.checkerOn (s.tilePart g) = false) ∧
    (∃ (s : State), ∃ (g : Nat), ∃ (x : Pend), (s.tile g).pend = [x] ∧ (∀ y ∈ s.tiles, y.1 ≠ g → y.2.pend = []) ∧ g < 256 ∧ s.tiles.Pairwise (fun a b => a.1 < b.1) ∧ s.checkerOn (s.tilePart g) = false) ∧
    (∃ (s : State), ∃ (g : Nat), ∃ (x : Pend), (s.tile g).pend = [x] ∧ (∀ y ∈ s.tiles, y.1 ≠ g → y.2.pend = []) ∧ g < 256 ∧ s.tiles.Pairwise (fun a b => a.1 < b.1) ∧ s.checkerOn (s.tilePart g) = false) ∧
    (∃ (s : State), ∃ (g : Nat), ∃ (x : Pend), (s.tile g).pend = [x] ∧ (∀ y ∈ s.tiles, y.1 ≠ g → y.2.pend = []) ∧ g < 256 ∧ s.tiles.Pairwise (fun a b => a.1 < b.1) ∧ s.checkerOn (s.tilePart g) = false) ∧
    (∃ (s : State), ∃ (g : Nat), ∃ (x : Pend), (s.tile g).pend = [x] ∧ (∀ y ∈ s.tiles, y.1 ≠ g → y.2.pend = []) ∧ g < 256 ∧ s.tiles.Pairwise (fun a b => a.1 < b.1) ∧ s.checkerOn (s.tilePart g) = false) :=
  ⟨⟨wPend (.sreg 6 5 5), 9, { vis := 40, issue := 20, seq := 1, eff := .sreg 6 5 5, task := 0, share := 0 }, by decide +kernel⟩,
   ⟨wPend (.mem 0x1000 [1, 2]), 9, { vis := 40, issue := 20, seq := 1, eff := .mem 0x1000 [1, 2], task := 0, share := 0 }, by decide +kernel⟩,
   ⟨wPend (.dreg 4 5 5), 9, { vis := 40, issue := 20, seq := 1, eff := .dreg 4 5 5, task := 0, share := 0 }, by decide +kernel⟩,
   ⟨wPend (.preg 4 true), 9, { vis := 40, issue := 20, seq := 1, eff := .preg 4 true, task := 0, share := 0 }, by decide +kernel⟩,
   ⟨wPend (.dma 2 3 0x1000 4 5), 9, { vis := 40, issue := 20, seq := 1, eff := .dma 2 3 0x1000 4 5, task := 0, share := 0 }, by decide +kernel⟩,
   ⟨wPend (.cfg 2 wEntry), 9, { vis := 40, issue := 20, seq := 1, eff := .cfg 2 wEntry, task := 0, share := 0 }, by decide +kernel⟩,
   ⟨wPend (.sreg 0 5 5), 9, { vis := 40, issue := 20, seq := 1, eff := .sreg 0 5 5, task := 0, share := 0 }, by decide +kernel⟩,
   ⟨wPend (.bank 1 { ty := some .fp32, sat := 0, cells := [] }), 9, { vis := 40, issue := 20, seq := 1, eff := .bank 1 { ty := some .fp32, sat := 0, cells := [] }, task := 0, share := 0 }, by decide +kernel⟩,
   ⟨wPend (.mult .mul 1 (wDesc 1 128 0x20000) (wDesc 1 128 0x30000) true), 9, { vis := 40, issue := 20, seq := 1, eff := .mult .mul 1 (wDesc 1 128 0x20000) (wDesc 1 128 0x30000) true, task := 0, share := 0 }, by decide +kernel⟩,
   ⟨wPend (.chain wEntry (wDesc 0 128 0x40000) (wDesc 0 128 0x10000) 0 0 false []), 9, { vis := 40, issue := 20, seq := 1, eff := .chain wEntry (wDesc 0 128 0x40000) (wDesc 0 128 0x10000) 0 0 false [], task := 0, share := 0 }, by decide +kernel⟩,
   ⟨wPend (.block 0x1000 1 2 [] none), 9, { vis := 40, issue := 20, seq := 1, eff := .block 0x1000 1 2 [] none, task := 0, share := 0 }, by decide +kernel⟩⟩
theorem witness_WaitsAndArrivalsEnd :
    (∃ (s : State), ∃ (g : Nat), ∃ (x : Nat), ∃ (b : Nat), g < 256 ∧ (s.tile g).wait = some (.beat x b) ∧ s.getF F.TIL_STATUS_STATE g = 2 ∧ x ≤ s.getF F.PLN_SPOS_POS (s.tilePart g)) ∧
    (∃ (s : State), ∃ (g : Nat), ∃ (k : Nat), ∃ (i : Nat), ∃ (b : Nat), g < 256 ∧ (s.tile g).wait = some (.tok k i b) ∧ s.getF F.TIL_STATUS_STATE g = 2 ∧ tokReached ((s.tile g).tok k) i = true) ∧
    (∃ (s : State), ∃ (g : Nat), ∃ (c : Nat), (s.tile g).wait = some (.cyc c) ∧ s.nextDue c = none) ∧
    (∃ (s : State), ∃ (g : Nat), ∃ (h : Nat), ∃ (k : Nat), ∃ (a : Arrive), ∃ (rest : List Arrive), (s.tile g).arrives = a :: rest ∧ s.nextDue a.at_ = none ∧ State.tokenOf a.token = some (h, k) ∧ (s.test.saved.map (·.1)).contains h = false) ∧
    (∃ (s : State), ∃ (c : Nat), ∃ (ch : Nat), ∃ (k : CChain), ∃ (rest : List CChain), (s.cmover (8 * c + ch)).chains = k :: rest ∧ k.addr = 0) ∧
    (∃ (s : State), ∃ (c : Nat), ∃ (ch : Nat), ∃ (k : CChain), ∃ (rest : List CChain), (s.cmover (8 * c + ch)).chains = k :: rest ∧ k.addr = 0 ∧ k.tile = none ∧ k.task < 2 ^ 24) :=
  ⟨⟨wWait (.beat 0 0) 2, 9, 0, 0, by decide +kernel⟩,
   ⟨wWait (.tok 3 5 0) 2, 9, 3, 5, 0, by decide +kernel⟩,
   ⟨wWait (.cyc 70) 1, 9, 70, by decide +kernel⟩,
   ⟨wArr, 9, 1, 2, { at_ := 50, token := 0x82 }, [{ at_ := 60, token := 0x83 }], by decide +kernel⟩,
   ⟨wChan (some 9), 1, 1, { tile := some 9, token := 4, part := 0, task := 77, addr := 0, desc := none, since := none }, [], by decide +kernel⟩,
   ⟨wChan none, 1, 1, { tile := none, token := 4, part := 0, task := 77, addr := 0, desc := none, since := none }, [], by decide +kernel⟩⟩
theorem witness_PlanFaultsStopTheTile :
    (∃ (s : State), ∃ (g : Nat), ∃ (w : Word), ∃ (n : Nat), ∃ (code : Nat), ∃ (c : Instr), g < 256 ∧ Issues s g w n ∧ (s.tile g).lastSlot = none ∧ wE w = true ∧ Planned s g w ∧ guardOk (s.tile g) w = true ∧ s.flag F.TIL_FAULT_VALID g = false ∧ (s.part (s.tilePart g)).active = false ∧ (∀ y ∈ (s.tile g).pend, y.seq < (s.tile g).seq) ∧ ((c = .mxZero g w ∧ wSlot w = 0 ∧ wOp w = 7 ∧ mRsv w = true ∧ code = 1) ∨ (c = .mxMul g w ∧ wSlot w = 0 ∧ wOp w = 1 ∧ mRsv w = false ∧ State.mulDesc (s.tile g) w .mul = true ∧ code = 5) ∨ (c = .xsLd g w ∧ wSlot w = 2 ∧ wOp w = 0x20 ∧ (s.tile g).ea w % 8 ≠ 0 ∧ code = 6))) ∧
    (∃ (s : State), ∃ (g : Nat), ∃ (w : Word), ∃ (n : Nat), ∃ (code : Nat), ∃ (c : Instr), g < 256 ∧ Issues s g w n ∧ (s.tile g).lastSlot = none ∧ wE w = true ∧ Planned s g w ∧ guardOk (s.tile g) w = true ∧ s.flag F.TIL_FAULT_VALID g = false ∧ (s.part (s.tilePart g)).active = false ∧ (∀ y ∈ (s.tile g).pend, y.seq < (s.tile g).seq) ∧ ((c = .mxZero g w ∧ wSlot w = 0 ∧ wOp w = 7 ∧ mRsv w = true ∧ code = 1) ∨ (c = .mxMul g w ∧ wSlot w = 0 ∧ wOp w = 1 ∧ mRsv w = false ∧ State.mulDesc (s.tile g) w .mul = true ∧ code = 5) ∨ (c = .xsLd g w ∧ wSlot w = 2 ∧ wOp w = 0x20 ∧ (s.tile g).ea w % 8 ≠ 0 ∧ code = 6))) ∧
    (∃ (s : State), ∃ (g : Nat), ∃ (w : Word), ∃ (n : Nat), ∃ (code : Nat), ∃ (c : Instr), g < 256 ∧ Issues s g w n ∧ (s.tile g).lastSlot = none ∧ wE w = true ∧ Planned s g w ∧ guardOk (s.tile g) w = true ∧ s.flag F.TIL_FAULT_VALID g = false ∧ (s.part (s.tilePart g)).active = false ∧ (∀ y ∈ (s.tile g).pend, y.seq < (s.tile g).seq) ∧ ((c = .mxZero g w ∧ wSlot w = 0 ∧ wOp w = 7 ∧ mRsv w = true ∧ code = 1) ∨ (c = .mxMul g w ∧ wSlot w = 0 ∧ wOp w = 1 ∧ mRsv w = false ∧ State.mulDesc (s.tile g) w .mul = true ∧ code = 5) ∨ (c = .xsLd g w ∧ wSlot w = 2 ∧ wOp w = 0x20 ∧ (s.tile g).ea w % 8 ≠ 0 ∧ code = 6))) ∧
    (∃ (s : State), ∃ (g : Nat), ∃ (b : Nat), g < 256 ∧ waitSince (s.tile g).wait = some b ∧ s.getF F.TIL_STATUS_STATE g = 2 ∧ s.getF F.TIL_CTRL_WAIT_LIMIT g ≠ 0 ∧ b + 256 * s.getF F.TIL_CTRL_WAIT_LIMIT g ≤ s.bn ∧ s.flag F.TIL_FAULT_VALID g = false ∧ (s.part (s.tilePart g)).active = false) :=
  ⟨⟨wTile, 9, wWord 1 0 7 1, 4, 1, .mxZero 9 (wWord 1 0 7 1), by decide +kernel⟩,
   ⟨wTile, 9, wWord 1 0 1 (2 ^ 42 * 2), 4, 5, .mxMul 9 (wWord 1 0 1 (2 ^ 42 * 2)), by decide +kernel⟩,
   ⟨wTile, 9, wWord 1 2 0x20 (2 ^ 38 * 3 + 4), 4, 6, .xsLd 9 (wWord 1 2 0x20 (2 ^ 38 * 3 + 4)), by decide +kernel⟩,
   ⟨(wWait (.tok 3 9 0) 2).putF F.TIL_CTRL_WAIT_LIMIT 9 1 |>.putF F.PLN_BN_BN 0 256, 9, 0, by decide +kernel⟩⟩
/-! ### group 05 -/
def wTabR : State := wTab.modPart 0 fun x => { x with tables := [(tableKey 0 0, { wSt with reduced := true, recv := [{ rank := 0, mb := 5, keys := [3, 7], entries := [{ bag := 1, seg := 1, pos := 0, weight := 0x3F800000 }], grads := [{ bag := 1, vals := [] }], winners := [], gathered := true }] })] }
def wTabW : State := wTab.modPart 0 fun x => { x with tables := [(tableKey 0 0, { wSt with restaging := [7] })] }
def wNoGrads : State := (wRun wTabPlan w1).modPart 0 fun x => { x with tables := [(tableKey 0 0, { wSt with rowGrads := [], recv := [], reduced := true })] }
def wSorting : State := wTab.modPart 0 fun x => { x with started := [0] }

theorem witness_IndexSortIsUniqueAndRising :
    (∃ (s : State), ∃ (p : Nat), ∃ (table : Nat), ∃ (r : Nat), ∃ (d : TableDesc), s.ranksHere p = [r] ∧ s.tableDesc p table = some d) :=
  ⟨wTab, 0, 0, 0, wTable, by decide +kernel⟩
theorem witness_SegmentsSumByKey :
    (∃ (s : State), ∃ (p : Nat), ∃ (r : Nat), s.ranksHere p = [r]) :=
  ⟨wTab, 0, 0, by decide +kernel⟩
theorem witness_GatherFormsNodes :
    (∃ (s : State), ∃ (p : Nat), ∃ (table : Nat), ∃ (r : Nat), ∃ (d : TableDesc), s.ranksHere p = [r] ∧ s.tableDesc p table = some d ∧ (s.part p).active = true ∧ d.stale = false ∧ (∀ o ∈ (s.tableSt p table r).sorted, s.listOf p table r o.mb ≠ [])) ∧
    (∃ (s : State), ∃ (p : Nat), ∃ (table : Nat), ∃ (mb : Nat), ∃ (rank : Nat), ∃ (r : Nat), ∃ (d : TableDesc), s.ranksHere p = [r] ∧ s.tableDesc p table = some d ∧ (s.part p).active = true ∧ d.stale = false ∧ (∀ o ∈ (s.tableSt p table r).sorted, s.listOf p table r o.mb ≠ []) ∧ let tag := mbTag (s.curStep p) mb; let x := s.fromRank p table r rank tag; let waits := ∃ k ∈ x.keys, (s.ownedShards p table d r).contains (d.shardOf k) = true ∧ (s.tableSt p table r).restaging.contains k = true; waits) ∧
    (∃ (s : State), ∃ (p : Nat), ∃ (table : Nat), ∃ (mb : Nat), ∃ (rank : Nat), ∃ (r : Nat), ∃ (d : TableDesc), s.ranksHere p = [r] ∧ s.tableDesc p table = some d ∧ (s.part p).active = true ∧ d.stale = false ∧ (∀ o ∈ (s.tableSt p table r).sorted, s.listOf p table r o.mb ≠ []) ∧ let tag := mbTag (s.curStep p) mb; let x := s.fromRank p table r rank tag; let waits := ∃ k ∈ x.keys, (s.ownedShards p table d r).contains (d.shardOf k) = true ∧ (s.tableSt p table r).restaging.contains k = true; ¬ waits) ∧
    (∃ (s : State), ∃ (p : Nat), ∃ (table : Nat), ∃ (mb : Nat), ∃ (rank : Nat), ∃ (r : Nat), ∃ (d : TableDesc), s.ranksHere p = [r] ∧ s.tableDesc p table = some d ∧ (s.part p).active = true ∧ d.stale = false ∧ (∀ o ∈ (s.tableSt p table r).sorted, s.listOf p table r o.mb ≠ []) ∧ let tag := mbTag (s.curStep p) mb; let x := s.fromRank p table r rank tag; let waits := ∃ k ∈ x.keys, (s.ownedShards p table d r).contains (d.shardOf k) = true ∧ (s.tableSt p table r).restaging.contains k = true; ¬ waits) ∧
    (∃ (s : State), ∃ (p : Nat), ∃ (table : Nat), ∃ (mb : Nat), ∃ (rank : Nat), ∃ (r : Nat), ∃ (d : TableDesc), s.ranksHere p = [r] ∧ s.tableDesc p table = some d ∧ (s.part p).active = true ∧ d.stale = false ∧ (∀ o ∈ (s.tableSt p table r).sorted, s.listOf p table r o.mb ≠ []) ∧ let tag := mbTag (s.curStep p) mb; let x := s.fromRank p table r rank tag; let waits := ∃ k ∈ x.keys, (s.ownedShards p table d r).contains (d.shardOf k) = true ∧ (s.tableSt p table r).restaging.contains k = true; ¬ waits ∧ (∀ y ∈ (s.tableSt p table r).recv, y.mb = tag → y.rank = rank ∨ y.gathered = true)) :=
  ⟨⟨wTab, 0, 0, 0, wTable, by decide +kernel⟩,
   ⟨wTabW, 0, 0, 5, 0, 0, wTable, by decide +kernel⟩,
   ⟨wTab, 0, 0, 5, 0, 0, wTable, by decide +kernel⟩,
   ⟨wTab, 0, 0, 5, 0, 0, wTable, by decide +kernel⟩,
   ⟨wTab, 0, 0, 5, 0, 0, wTable, by decide +kernel⟩⟩
theorem witness_PrefetchStages :
    (∃ (s : State), ∃ (p : Nat), ∃ (table : Nat), ∃ (r : Nat), ∃ (d : TableDesc), ∃ (pl : Plan), s.ranksHere p = [r] ∧ s.plan p = some pl ∧ s.tableDesc p table = some d) :=
  ⟨wTab, 0, 0, 0, wTable, wTabPlan, by decide +kernel⟩
theorem witness_SparseUpdateIssues :
    (∃ (s : State), ∃ (p : Nat), ∃ (table : Nat), ∃ (t : Nat), ∃ (r : Nat), ∃ (d : TableDesc), p < 8 ∧ s.tasksWhere p (fun k => k.kind = 7 && k.table = table) = [t] ∧ t < 2 ^ 24 ∧ s.rankOfTask p t = r ∧ s.tableDesc p table = some d ∧ (s.part p).active = true ∧ (∀ e, e < 9 → (s.och e p).frozen = false ∧ (s.och e p).frames.length < 256)) ∧
    (∃ (s : State), ∃ (p : Nat), ∃ (table : Nat), ∃ (t : Nat), ∃ (r : Nat), ∃ (d : TableDesc), p < 8 ∧ s.tasksWhere p (fun k => k.kind = 7 && k.table = table) = [t] ∧ t < 2 ^ 24 ∧ s.rankOfTask p t = r ∧ s.tableDesc p table = some d ∧ (s.part p).active = true ∧ (∀ e, e < 9 → (s.och e p).frozen = false ∧ (s.och e p).frames.length < 256) ∧ let whole := s.gradsWhole p table d r = true; d.rule ≠ 0 ∧ whole) ∧
    (∃ (s : State), ∃ (p : Nat), ∃ (table : Nat), ∃ (t : Nat), ∃ (r : Nat), ∃ (d : TableDesc), p < 8 ∧ s.tasksWhere p (fun k => k.kind = 7 && k.table = table) = [t] ∧ t < 2 ^ 24 ∧ s.rankOfTask p t = r ∧ s.tableDesc p table = some d ∧ (s.part p).active = true ∧ (∀ e, e < 9 → (s.och e p).frozen = false ∧ (s.och e p).frames.length < 256) ∧ let whole := s.gradsWhole p table d r = true; d.rule ≠ 0 ∧ ¬ whole) ∧
    (∃ (s : State), ∃ (p : Nat), ∃ (table : Nat), ∃ (t : Nat), ∃ (r : Nat), ∃ (d : TableDesc), p < 8 ∧ s.tasksWhere p (fun k => k.kind = 7 && k.table = table) = [t] ∧ t < 2 ^ 24 ∧ s.rankOfTask p t = r ∧ s.tableDesc p table = some d ∧ (s.part p).active = true ∧ (∀ e, e < 9 → (s.och e p).frozen = false ∧ (s.och e p).frames.length < 256) ∧ let whole := s.gradsWhole p table d r = true; (d.rule = 0 ∨ (whole ∧ (s.tableSt p table r).rowGrads = []))) ∧
    (∃ (s : State), ∃ (p : Nat), ∃ (table : Nat), ∃ (t : Nat), ∃ (r : Nat), ∃ (d : TableDesc), p < 8 ∧ s.tasksWhere p (fun k => k.kind = 7 && k.table = table) = [t] ∧ t < 2 ^ 24 ∧ s.rankOfTask p t = r ∧ s.tableDesc p table = some d ∧ (s.part p).active = true ∧ (∀ e, e < 9 → (s.och e p).frozen = false ∧ (s.och e p).frames.length < 256) ∧ let whole := s.gradsWhole p table d r = true; d.rule ≠ 0 ∧ whole ∧ (s.tableSt p table r).rowGrads ≠ []) :=
  ⟨⟨wTabR, 0, 0, 2, 0, wTable, by decide +kernel⟩,
   ⟨wTabR, 0, 0, 2, 0, wTable, by decide +kernel⟩,
   ⟨wTab, 0, 0, 2, 0, wTable, by decide +kernel⟩,
   ⟨wNoGrads, 0, 0, 2, 0, wTable, by decide +kernel⟩,
   ⟨wTabR, 0, 0, 2, 0, wTable, by decide +kernel⟩⟩
theorem witness_IndexUnitFinishesOldest :
    (∃ (s : State), ∃ (p : Nat), ∃ (unit : Nat), ∃ (t : Nat), ∃ (pl : Plan), s.plan p = some pl ∧ t < 2 ^ 24 ∧ (s.part p).started.find? (fun t => !(s.part p).done.contains t && pl.tasks.any fun k => k.id = t && (k.kind = 4 || k.kind = 5) && pl.ixUnit k.table = unit) = some t) :=
  ⟨wSorting, 0, 0, 0, wTabPlan, by decide +kernel⟩
/-! ### group 12 -/
def wExt (s : State) : State := (List.range 8).foldl (fun s k => s.modUnit k fun x => { x with ext := true }) s
def wCopyRun : Run := { tag := State.plannerTask, token := 2 ^ 63 + State.plannerTask, status := 0, done := 4, fence := false }
def wHyp : HypEnt := { lr := 0x3F000000, gscale := 0x3F800000, decay := 0, b1 := 0, b2 := 0, eps := 0, l1 := 0, beta := 0, init := 0, warm := 0 }
def wFrame (opc count opa opb : Nat) : Frame := { opc := opc, part := 0, table := 0, tag := 9, opa := opa, opb := opb, count := count, token := 2 ^ 63 + 3, step := 5, rsvdZero := true }
def wJnl (n : Nat) : JnlRec := { slot := 0x2000, slotBytes := List.replicate 64 1, state := 0x3000, stateBytes := List.replicate 64 2, table := 0, dflt := false, step := n, seq := 1, spilled := false }
def wOch : State := ((wExt wTab).modOch 1 0 fun q => { q with ctx := [(0, (wTable, wHyp))] }).wr 0x1000 (leBytes 6 0x8000 ++ [0, 0, 0, 0, 0x80, 0x3F, 1, 0, 0, 0])
def wOchMax : State := ((wExt wTab).modOch 1 0 fun q => { q with ctx := [(0, ({ wTable with pool := 3 }, wHyp))] }).wr 0x1000 (leBytes 6 0x8000 ++ [0, 0, 0, 0, 0x80, 0x3F, 1, 0, 0, 0])
def wJnls : State := (wExt wTab).modOch 1 0 fun q => { q with journal := [wJnl 5, wJnl 6] }
def wDone : Run := { tag := 9, token := 2 ^ 63 + 3, status := 0, done := 4, fence := false }
def wStarted (r : Run) : State := wTab.modOch 1 0 fun q => { q with started := [r] }
def wRecords : State := wTab.modOch 1 0 fun q => { q with records := [(9, 0, 4), (8, 1, 0)] }
def wQueue : State := (wExt wTab).modOch 1 0 fun q => { q with frames := [wFrame 8 0 0 0] }
def wUpdTable : TableDesc := { wTable with flags := 1 }
def wUpd (b : Nat) : State :=
  ((wRun { wTabPlan with tables := [wUpdTable], params := { wTabPlan.params with jnlSectors := 100, hyps := [wHyp] } } (wExt w1)).modPart 0 fun x => { x with
    tables := [(tableKey 0 0, { wSt with pages := [{ shard := 0, page := 0, home := 0, count := 0, base := b + 0x8000 }] })] }).wr (b + 0x1000)
    (leBytes 6 (b + 0x80C0) ++ [0, 0] ++ leBytes 6 (b + 0x9000) ++ [0, 0])
theorem upd_row (b : Nat) (h1 : (wUpd b).ranksHere 0 = [0]) (x : PageRec)
    (h2 : (((wUpd b).allPages 0 0 wUpdTable 0).find? fun y => y.base ≤ (wUpd b).entSlot (wFrame 4 1 (b + 0x1000) (b + 0x4000)) 0 &&
      (wUpd b).entSlot (wFrame 4 1 (b + 0x1000) (b + 0x4000)) 0 < y.base + 256 * wUpdTable.slotBytes) = some x) :
    ∃ k, (wUpd b).rowOfSlot 0 0 wUpdTable ((wUpd b).entSlot (wFrame 4 1 (b + 0x1000) (b + 0x4000)) 0) = some (0, k) := by
  unfold State.rowOfSlot
  rw [h1, List.findSome?_cons, h2]
  by_cases h : (wUpd b).shardOwner 0 0 wUpdTable 0 = 0 ∧
      ((wUpd b).rowAt 0 0 wUpdTable 0 defaultKey).slot = (wUpd b).entSlot (wFrame 4 1 (b + 0x1000) (b + 0x4000)) 0
  · rw [if_pos h]; exact ⟨_, rfl⟩
  · rw [if_neg h]; exact ⟨_, rfl⟩

theorem witness_OchreCfgFenceRelease :
    (∃ (s : State), ∃ (e : Nat), ∃ (f : Frame), Starts s e f 1 ∧ s.tableKnown f.part f.table = true ∧ s.firstBad f.part false 3 f.opa 128 = none) ∧
    (∃ (s : State), ∃ (e : Nat), ∃ (f : Frame), Starts s e f 8) ∧
    (∃ (s : State), ∃ (e : Nat), ∃ (f : Frame), Starts s e f 7) :=
  ⟨⟨wExt wTab, 1, wFrame 1 1 0x1000 0, by decide +kernel⟩,
   ⟨wTab, 8, wFrame 8 0 0 0, by decide +kernel⟩,
   ⟨wJnls, 1, wFrame 7 0 0 0, by decide +kernel⟩⟩
theorem witness_OchreMovesRows :
    (∃ (s : State), ∃ (e : Nat), ∃ (f : Frame), Starts s e f 5 ∧ (f.opa + 32 * f.count ≤ f.opb ∨ f.opb + 32 * f.count ≤ f.opa) ∧ (∀ i, i < f.count → s.ownsRange f.part (f.opa + 32 * i) 32 false = true ∧ s.ownsRange f.part (f.opb + 32 * i) 32 true = true)) ∧
    (∃ (s : State), ∃ (e : Nat), ∃ (f : Frame), ∃ (d : TableDesc), ∃ (h : HypEnt), Starts s e f 2 ∧ s.ochCtx e f.part f.table = some (d, h) ∧ let k := 32 * gatherSectors d; (f.opa + 16 * f.count ≤ f.opb ∨ f.opb + k * f.count ≤ f.opa) ∧ (∀ i, i < f.count → (s.entSlot f i + k ≤ f.opb ∨ f.opb + k * f.count ≤ s.entSlot f i) ∧ s.ownsRange f.part (f.opa + 16 * i) 16 false = true ∧ s.ownsRange f.part (s.entSlot f i) k false = true ∧ s.ownsRange f.part (f.opb + k * i) k true = true) ∧ (∀ j ∈ (s.och e f.part).journal, k ≤ j.slotBytes.length)) ∧
    (∃ (s : State), ∃ (e : Nat), ∃ (f : Frame), ∃ (d : TableDesc), ∃ (h : HypEnt), Starts s e f 3 ∧ s.ochCtx e f.part f.table = some (d, h) ∧ 0 < f.count ∧ let n := gatherBytes d.fmt d.elems; let tag (i : Nat) : Nat := s.rdN (f.opa + 16 * i + 12) 4; (∀ i, i < f.count - 1 → tag i < 2 ^ 31) ∧ (∀ i, i < f.count → s.ownsRange f.part (f.opa + 16 * i) 16 false = true ∧ s.ownsRange f.part (s.entSlot f i) n false = true) ∧ s.ownsRange f.part f.opb (d.elems * (if d.pool = 3 then 6 else 4)) true = true) ∧
    (∃ (s : State), ∃ (e : Nat), ∃ (f : Frame), ∃ (d : TableDesc), ∃ (h : HypEnt), Starts s e f 3 ∧ s.ochCtx e f.part f.table = some (d, h) ∧ 0 < f.count ∧ let n := gatherBytes d.fmt d.elems; let tag (i : Nat) : Nat := s.rdN (f.opa + 16 * i + 12) 4; (∀ i, i < f.count - 1 → tag i < 2 ^ 31) ∧ (∀ i, i < f.count → s.ownsRange f.part (f.opa + 16 * i) 16 false = true ∧ s.ownsRange f.part (s.entSlot f i) n false = true) ∧ s.ownsRange f.part f.opb (d.elems * (if d.pool = 3 then 6 else 4)) true = true) :=
  ⟨⟨wOch, 1, wFrame 5 2 0x1000 0x1040, by decide +kernel⟩,
   ⟨wOch, 1, wFrame 2 1 0x1000 0x2000, wTable, wHyp, by decide +kernel⟩,
   ⟨wOch, 1, wFrame 3 1 0x1000 0x2000, wTable, wHyp, by decide +kernel⟩,
   ⟨wOchMax, 1, wFrame 3 1 0x1000 0x2000, { wTable with pool := 3 }, wHyp, by decide +kernel⟩⟩
theorem witness_OchreUpdatesAndRestores :
    (∃ (s : State), ∃ (e : Nat), ∃ (f : Frame), ∃ (d : TableDesc), ∃ (h : HypEnt), ∃ (r : Nat), ∃ (k : Nat), ∃ (sp : Bool), Starts s e f 4 ∧ f.count = 1 ∧ s.ochCtx e f.part f.table = some (d, h) ∧ s.rowOfSlot f.part f.table d (s.entSlot f 0) = some (r, k) ∧ (k ≠ defaultKey ∨ d.defTrain = true) ∧ s.jnlPlace e f.part (State.jnlSectorsOf d) = some sp ∧ let slot := s.entSlot f 0; let state := s.rdN (f.opa + 8) 6; let (sa, sn) := State.stateAt d state; let a := region f.part (if sp then .spill e else .journal e) + 32 * s.jnlUsed e f.part sp; let z := 32 * (2 + slotSectors d.fmt d.elems + sn / 32); s.ownsRange f.part f.opa 16 false = true ∧ s.ownsRange f.part f.opb (4 * d.elems) false = true ∧ s.ownsRange f.part slot d.slotBytes true = true ∧ s.ownsRange f.part sa sn true = true ∧ Apart a z slot d.slotBytes ∧ Apart a z sa sn ∧ Apart a z f.opb (4 * d.elems) ∧ sa ≤ state ∧ state + 4 * (s.rowState d state).length ≤ sa + sn ∧ (sa + sn ≤ slot ∨ slot + d.slotBytes ≤ sa) ∧ let t := s.tableSt f.part f.table r; let gs := (List.range d.elems).map fun i => BitVec.ofNat 32 (s.rdN (f.opb + 4 * i) 4); let v := rowRule d.rule (updCtx d.rule h t.count (t.p1, t.p2)) gs (updateVals d.fmt d.elems (s.rd slot d.slotBytes)) (s.rowState d state); v.2.length = (s.rowState d state).length) ∧
    (∃ (s : State), ∃ (e : Nat), ∃ (f : Frame), Starts s e f 6) :=
  ⟨(by by_cases h : 0xA000 ≤ region 0 (.journal 1); (obtain ⟨k, hk⟩ := upd_row 0x0 (by decide +kernel) { shard := 0, page := 0, home := 0, count := 0, base := 0x8000 } (by decide +kernel); exact ⟨wUpd 0x0, 1, wFrame 4 1 0x1000 0x4000, wUpdTable, wHyp, 0, k, false, by decide +kernel, rfl, by decide +kernel, hk, .inr rfl, by decide +kernel, by decide +kernel, by decide +kernel, by decide +kernel, by decide +kernel, .inl (Nat.le_trans (m := 0xA000) (by decide +kernel) (Nat.le_trans h (Nat.le_add_right _ _))), .inl (Nat.le_trans (m := 0xA000) (by decide +kernel) (Nat.le_trans h (Nat.le_add_right _ _))), .inl (Nat.le_trans (m := 0xA000) (by decide +kernel) (Nat.le_trans h (Nat.le_add_right _ _))), by decide +kernel, by decide +kernel, by decide +kernel, by decide +kernel⟩); (obtain ⟨k, hk⟩ := upd_row 0x40000000 (by decide +kernel) { shard := 0, page := 0, home := 0, count := 0, base := 0x40008000 } (by decide +kernel); exact ⟨wUpd 0x40000000, 1, wFrame 4 1 0x40001000 0x40004000, wUpdTable, wHyp, 0, k, false, by decide +kernel, rfl, by decide +kernel, hk, .inr rfl, by decide +kernel, by decide +kernel, by decide +kernel, by decide +kernel, by decide +kernel, .inr (Nat.le_trans (Nat.add_le_add (Nat.add_le_add (Nat.le_of_lt (Nat.lt_of_not_le h)) (by decide +kernel : _ ≤ 0)) (by decide +kernel : _ ≤ 1024)) (by decide +kernel)), .inr (Nat.le_trans (Nat.add_le_add (Nat.add_le_add (Nat.le_of_lt (Nat.lt_of_not_le h)) (by decide +kernel : _ ≤ 0)) (by decide +kernel : _ ≤ 1024)) (by decide +kernel)), .inr (Nat.le_trans (Nat.add_le_add (Nat.add_le_add (Nat.le_of_lt (Nat.lt_of_not_le h)) (by decide +kernel : _ ≤ 0)) (by decide +kernel : _ ≤ 1024)) (by decide +kernel)), by decide +kernel, by decide +kernel, by decide +kernel, by decide +kernel⟩)),
   ⟨wJnls, 1, wFrame 6 0 0 0, by decide +kernel⟩⟩
theorem witness_OchreQueues :
    (∃ (s : State), ∃ (e : Nat), ∃ (q : Nat), ∃ (tag : Nat), ∃ (r : Run), (s.och e q).started.find? (·.tag = tag) = some r ∧ (r.fence = false ∨ (s.och e q).started.head? = some r) ∧ (s.part q).restoring = false) ∧
    (∃ (s : State), ∃ (e : Nat), ∃ (q : Nat), ∃ (tag : Nat), ∃ (r : Run), (s.och e q).started.find? (·.tag = tag) = some r ∧ (r.fence = false ∨ (s.och e q).started.head? = some r) ∧ (s.part q).restoring = false ∧ r.token = 0 ∧ (∀ x ∈ (s.part q).tables, x.2.restaging = [])) ∧
    (∃ (s : State), ∃ (e : Nat), ∃ (q : Nat), ∃ (tag : Nat), ∃ (r : Run), (s.och e q).started.find? (·.tag = tag) = some r ∧ (r.fence = false ∨ (s.och e q).started.head? = some r) ∧ (s.part q).restoring = false ∧ e = 8 ∧ (s.och 8 q).started = [r] ∧ (s.och 8 q).frames = [] ∧ r.token = 2 ^ 63 + State.plannerTask) ∧
    (∃ (s : State), ∃ (e : Nat), ∃ (q : Nat), (s.och e q).records = []) ∧
    (∃ (s : State), ∃ (e : Nat), ∃ (q : Nat), ∃ (r : Nat × Nat × Nat), ∃ (rest : List (Nat × Nat × Nat)), (s.och e q).records = r :: rest) ∧
    (∃ (s : State), ∃ (e : Nat), ∃ (f : Frame), ∃ (g : Frame), ∃ (rest : List Frame), ∃ (c : Instr), c ∈ [.cfg e f, .gather e f [], .pool e f [], .update e f [], .copy e f [], .restore e f, .release e f, .fence e f] ∧ f.part < 8 ∧ s.ochOn e = true ∧ (s.och e f.part).frozen = false ∧ (s.och e f.part).frames = g :: rest ∧ (g :: rest).contains f = false ∧ (g :: rest).length < 256) ∧
    (∃ (s : State), ∃ (e : Nat), ∃ (f : Frame), ∃ (c : Instr), ∃ (opc : Nat), (c, opc) ∈ [(Instr.cfg e f, 1), (.gather e f [], 2), (.pool e f [], 3), (.update e f [], 4), (.copy e f [], 5), (.restore e f, 6), (.release e f, 7), (.fence e f, 8)] ∧ f.part < 8 ∧ s.ochOn e = true ∧ (s.och e f.part).frozen = false ∧ (s.och e f.part).frames = [] ∧ (f.opc ≠ opc ∨ f.rsvdZero = false) ∧ s.ochSlots e f.part = true ∧ (s.part f.part).active = false) ∧
    (∃ (s : State), ∃ (e : Nat), ∃ (f : Frame), ∃ (c : Instr), c ∈ [.cfg e f, .gather e f [], .pool e f [], .update e f [], .copy e f [], .restore e f, .release e f, .fence e f] ∧ f.part < 8 ∧ s.ochOn e = false) ∧
    (∃ (s : State), ∃ (e : Nat), ∃ (f : Frame), ∃ (c : Instr), c ∈ [.cfg e f, .gather e f [], .pool e f [], .update e f [], .copy e f [], .restore e f, .release e f, .fence e f] ∧ f.part < 8 ∧ s.ochOn e = true ∧ (s.och e f.part).frozen = false ∧ (s.och e f.part).frames = [] ∧ s.ochSlots e f.part = false) ∧
    (∃ (s : State), ∃ (e : Nat), ∃ (f : Frame), Starts s e f 5 ∧ 0 < f.count ∧ s.ownsRange f.part f.opa 32 false = false) ∧
    (∃ (s : State), ∃ (e : Nat), ∃ (f : Frame), Starts s e f 5 ∧ 0 < f.count ∧ s.ownsRange f.part f.opa 32 false = false ∧ (s.part f.part).frzLog.length < 64) :=
  ⟨⟨wStarted wDone, 1, 0, 9, wDone, by decide +kernel⟩,
   ⟨wStarted { wDone with token := 0, fence := true }, 1, 0, 9, { wDone with token := 0, fence := true }, by decide +kernel⟩,
   ⟨(wExt wTab).modOch 8 0 fun q => { q with started := [wCopyRun] }, 8, 0, State.plannerTask, wCopyRun, by decide +kernel⟩,
   ⟨wTab, 1, 0, by decide +kernel⟩,
   ⟨wRecords, 1, 0, (9, 0, 4), [(8, 1, 0)], by decide +kernel⟩,
   ⟨wQueue, 1, wFrame 4 1 0 0, wFrame 8 0 0 0, [], .update 1 (wFrame 4 1 0 0) [], by decide +kernel⟩,
   ⟨wExt w1, 1, wFrame 3 1 0 0, .gather 1 (wFrame 3 1 0 0) [], 2, by decide +kernel⟩,
   ⟨w1, 1, wFrame 3 1 0 0, .gather 1 (wFrame 3 1 0 0) [], by decide +kernel⟩,
   ⟨wExt w1, 1, { wFrame 3 1 0 0 with part := 1 }, .gather 1 { wFrame 3 1 0 0 with part := 1 } [], by decide +kernel⟩,
   ⟨(wExt wTab).modUnit 1 fun x => { x with active := [(0, 1)] }, 1, { wFrame 5 1 0x1000 0x2000 with part := 1 }, by decide +kernel⟩,
   ⟨(wExt wTab).modUnit 1 fun x => { x with active := [(0, 1)] }, 1, { wFrame 5 1 0x1000 0x2000 with part := 1 }, by decide +kernel⟩⟩
theorem witness_OchreFramesReadBack :
    (∃ (f : Frame), f.opc < 2 ^ 8 ∧ f.part < 2 ^ 8 ∧ f.table < 2 ^ 16 ∧ f.tag < 2 ^ 32 ∧ f.opa < 2 ^ 48 ∧ f.opb < 2 ^ 48 ∧ f.count < 2 ^ 32 ∧ f.token < 2 ^ 64 ∧ f.step < 2 ^ 64 ∧ f.rsvdZero = true) ∧
    (∃ (f : Frame), f.opc < 2 ^ 8 ∧ f.part < 2 ^ 8 ∧ f.table < 2 ^ 16 ∧ f.tag < 2 ^ 32 ∧ f.opa < 2 ^ 48 ∧ f.opb < 2 ^ 48 ∧ f.count < 2 ^ 32 ∧ f.token < 2 ^ 64 ∧ f.step < 2 ^ 64 ∧ f.rsvdZero = true) :=
  ⟨⟨{ wFrame 0xFF (2 ^ 32 - 1) (2 ^ 48 - 1) (2 ^ 48 - 2) with part := 7, table := 0xFFFE, tag := 2 ^ 32 - 1, token := 2 ^ 64 - 2, step := 2 ^ 64 - 1 }, by decide +kernel⟩,
   ⟨{ wFrame 0xFF (2 ^ 32 - 1) (2 ^ 48 - 1) (2 ^ 48 - 2) with part := 7, table := 0xFFFE, tag := 2 ^ 32 - 1, token := 2 ^ 64 - 2, step := 2 ^ 64 - 1 }, by decide +kernel⟩⟩
/-! ### group 06 -/
def wColl (op len : Nat) : CollDesc := { op := op, fmt := 0, dims := 1, root := 0, src := 0x1000, dst := 0x2000, len := len }
def wCollRun (op : Nat) (st : Bool) : State :=
  (wRun (wCollPlan (wColl op 32)) w2).modPart 0 fun x => { x with colls := [{ task := 0, rank := 0, started := st, inbox := [], held := [], fin := false }] }
def wCollHdr (pass shard : Nat) : CollHdr := { coll := 0, dim := 0, dirn := 0, pass := pass, shard := shard, offset := 0 }
def wRowHdr : RowHdr := { table := 0, mb := 5, rank := 0 }
def wMax : State := (wRun { wTabPlan with tables := [{ wTable with pool := 3 }] } w2).modPart 0 fun x => { x with tables := [(tableKey 0 0, { wSt with recv := wSt.recv.map fun y => { y with grads := [{ bag := 1, vals := List.replicate 16 0x40000000 }] } })] }
def wPartial : PartialRec := { bag := 1, first := 0, j := 0, vals := List.replicate 16 0x3F800000, tags := [] }
theorem payload_length : (testPayload 0).length = 65536 := by
  rw [testPayload, List.length_append, List.length_map, List.length_range]; rfl
theorem payload_counter : leNat ((testPayload 0).take 8) = 0 := by
  have h : ∀ l : List Byte, (leBytes 8 0 ++ l).take 8 = leBytes 8 0 := fun l => by simp [leBytes]
  rw [testPayload, h]; rfl

theorem witness_WriteMessageStores :
    (∃ (s : State), ∃ (c : TClass), ∃ (h : MsgHdr), ∃ (b : List Byte), Arrives s c h 1 b.length ∧ h.addr + b.length ≤ resultBase ∧ (c = .carmine ∨ s.resilient h.part = false) ∧ s.checkerOn h.part = false) ∧
    (∃ (s : State), ∃ (c : TClass), ∃ (h : MsgHdr), ∃ (b : List Byte), Arrives s c h 1 b.length ∧ h.addr + b.length ≤ resultBase ∧ (c = .carmine ∨ s.resilient h.part = false) ∧ s.checkerOn h.part = false ∧ s.ownsRange h.part h.addr b.length true = true) ∧
    (∃ (s : State), ∃ (c : TClass), ∃ (h : MsgHdr), ∃ (b : List Byte), Arrives s c h 1 b.length ∧ h.addr + b.length ≤ resultBase ∧ (c = .carmine ∨ s.resilient h.part = false) ∧ s.checkerOn h.part = false ∧ s.ownsRange h.part h.addr b.length true = true) ∧
    (∃ (s : State), ∃ (c : TClass), ∃ (h : MsgHdr), ∃ (b : List Byte), Arrives s c h 1 b.length ∧ h.addr + b.length ≤ resultBase ∧ (c = .carmine ∨ s.resilient h.part = false) ∧ s.checkerOn h.part = false ∧ s.ownsRange h.part h.addr b.length true = false ∧ (s.part h.part).active = false) :=
  ⟨⟨wTab2, .carmine, wHdr 1 0 0x1000 0, [1, 2, 3], by decide +kernel⟩,
   ⟨wTab2, .carmine, wHdr 1 0 0x1000 (2 ^ 63 + 3), [1, 2, 3], by decide +kernel⟩,
   ⟨w2, .slate, wHdr 1 0 0x1000 0x0102, [1, 2, 3], by decide +kernel⟩,
   ⟨w2, .slate, wHdr 1 1 0x1000 0, [1, 2, 3], by decide +kernel⟩⟩
theorem witness_RowMessagesAdd :
    (∃ (s : State), ∃ (c : TClass), ∃ (h : MsgHdr), ∃ (r : RowHdr), ∃ (d : TableDesc), ∃ (ks : List Nat), s.tableDesc h.part r.table = some d ∧ h.token = 0 ∧ Arrives s c h 3 (rowLen ks.length 8)) ∧
    (∃ (s : State), ∃ (c : TClass), ∃ (h : MsgHdr), ∃ (r : RowHdr), ∃ (d : TableDesc), ∃ (es : List BagEntry), s.tableDesc h.part r.table = some d ∧ h.token = 0 ∧ Arrives s c h 3 (rowLen es.length 16)) ∧
    (∃ (s : State), ∃ (c : TClass), ∃ (h : MsgHdr), ∃ (r : RowHdr), ∃ (d : TableDesc), ∃ (gs : List GradRec), s.tableDesc h.part r.table = some d ∧ h.token = 0 ∧ Arrives s c h 3 (16 + ((gs.map gradBytes).map List.length).foldl (· + ·) 0)) ∧
    (∃ (s : State), ∃ (c : TClass), ∃ (h : MsgHdr), ∃ (r : RowHdr), ∃ (d : TableDesc), ∃ (gs : List GradRec), s.tableDesc h.part r.table = some d ∧ h.token = 0 ∧ Arrives s c h 3 (16 + ((gs.map gradBytes).map List.length).foldl (· + ·) 0) ∧ d.defTrain = false) ∧
    (∃ (s : State), ∃ (c : TClass), ∃ (h : MsgHdr), ∃ (r : RowHdr), ∃ (d : TableDesc), ∃ (ws : List WinRec), s.tableDesc h.part r.table = some d ∧ h.token = 0 ∧ Arrives s c h 3 (16 + ((ws.map winBytes).map List.length).foldl (· + ·) 0)) ∧
    (∃ (s : State), ∃ (c : TClass), ∃ (h : MsgHdr), ∃ (r : RowHdr), ∃ (d : TableDesc), ∃ (vs : List PartialRec), s.tableDesc h.part r.table = some d ∧ h.token = 0 ∧ (s.resilient h.part = false ∨ ((s.plan h.part).elim true fun pl => pl.tables.all (!·.stale)) = true) ∧ Arrives s c h 3 (16 + ((vs.map partialBytes).map List.length).foldl (· + ·) 0)) :=
  ⟨⟨wTab2, .carmine, wHdr 3 0 0 0, wRowHdr, wTable, [11, 12], by decide +kernel⟩,
   ⟨wTab2, .carmine, wHdr 3 0 0 0, wRowHdr, wTable, [{ bag := 4, pos := 0, seg := 0, weight := 0 }], by decide +kernel⟩,
   ⟨wTab2, .carmine, wHdr 3 0 0 0, wRowHdr, wTable, [{ bag := 1, vals := List.replicate 16 0x40000000 }], by decide +kernel⟩,
   ⟨wTab2, .carmine, wHdr 3 0 0 0, wRowHdr, wTable, [{ bag := 1, vals := List.replicate 16 0x40000000 }], by decide +kernel⟩,
   ⟨wMax, .carmine, wHdr 3 0 0 0, wRowHdr, { wTable with pool := 3 }, [{ bag := 1, pos := List.replicate 16 0 }], by decide +kernel⟩,
   ⟨wTab2, .carmine, wHdr 3 0 0 0, wRowHdr, wTable, [wPartial], by decide +kernel⟩⟩
theorem witness_TestMessagesAreCounted :
    (∃ (s : State), ∃ (c : TClass), ∃ (h : MsgHdr), ∃ (b : List Byte), Arrives s c h 5 b.length) ∧
    (∃ (s : State), ∃ (c : TClass), ∃ (h : MsgHdr), ∃ (b : List Byte), Arrives s c h 5 b.length ∧ b = testPayload (leNat (b.take 8))) ∧
    (∃ (s : State), ∃ (c : TClass), ∃ (h : MsgHdr), ∃ (b : List Byte), Arrives s c h 5 b.length ∧ b ≠ testPayload (leNat (b.take 8))) :=
  ⟨⟨w2, .slate, wHdr 5 0 0 0, [], by decide +kernel⟩,
   ⟨w2, .slate, wHdr 5 0 0 0, testPayload 0, ⟨by rw [payload_length]; decide +kernel, by rw [payload_counter]⟩⟩,
   ⟨w2, .slate, wHdr 5 0 0 0, [1, 2], by decide +kernel⟩⟩
theorem witness_CollectiveMessages :
    (∃ (s : State), ∃ (c : TClass), ∃ (h : MsgHdr), ∃ (data : List Byte), ∃ (cd : CollDesc), Arrives s c h 2 (16 + data.length) ∧ h.token = 0 ∧ let t := h.task % max 1 (s.part h.part).graph; let x := s.collRun h.part t h.addr; s.collDesc h.part t = some cd ∧ cd.op = 1 ∧ x.started = false) ∧
    (∃ (s : State), ∃ (c : TClass), ∃ (h : MsgHdr), ∃ (k : CollHdr), ∃ (data : List Byte), ∃ (cd : CollDesc), Arrives s c h 2 (16 + data.length) ∧ h.token = 0 ∧ let t := h.task % max 1 (s.part h.part).graph; let x := s.collRun h.part t h.addr; s.collDesc h.part t = some cd ∧ cd.op = 1 ∧ x.started = true ∧ x.inbox = [] ∧ s.collStages cd = [k.dim] ∧ 4 ∣ data.length ∧ s.placeOf h.addr k.dim = s.shardCoord cd k.shard k.dim) ∧
    (∃ (s : State), ∃ (c : TClass), ∃ (h : MsgHdr), ∃ (k : CollHdr), ∃ (data : List Byte), ∃ (cd : CollDesc), Arrives s c h 2 (16 + data.length) ∧ h.token = 0 ∧ let t := h.task % max 1 (s.part h.part).graph; let x := s.collRun h.part t h.addr; let i := (s.collStages cd).idxOf k.dim; s.collDesc h.part t = some cd ∧ cd.op = 2 ∧ x.inbox = [] ∧ s.ringSize k.dim ≤ k.pass + 1 ∧ (s.collStages cd).drop (i + 1) = []) :=
  ⟨⟨wCollRun 1 false, .carmine, wHdr 2 0 0 0, List.replicate 8 1, wColl 1 32, by decide +kernel⟩,
   ⟨wCollRun 1 true, .carmine, wHdr 2 0 0 0, wCollHdr 3 0, List.replicate 8 1, wColl 1 32, by decide +kernel⟩,
   ⟨wCollRun 2 true, .carmine, wHdr 2 0 0 0, wCollHdr 3 1, List.replicate 8 1, wColl 2 32, by decide +kernel⟩⟩
theorem witness_CollectiveOfOne :
    (∃ (s : State), ∃ (p : Nat), ∃ (task : Nat), ∃ (r : Nat), ∃ (c : CollDesc), (s.part p).active = true ∧ s.ranksHere p = [r] ∧ r = s.homeRank p ∧ task < (s.part p).graph ∧ task < 2 ^ 24 ∧ s.collDesc p task = some c ∧ c.op = 2 ∧ c.fmt = 0 ∧ 4 ∣ c.len ∧ 0 < c.len ∧ s.collStages c = [] ∧ s.collSize c = 1 ∧ (s.collRun p task r).inbox = [] ∧ (s.collRun p task r).fin = false) :=
  ⟨wRun { wCollPlan (wColl 2 8) with rankCount := 1 } w1, 0, 0, 0, wColl 2 8, by decide +kernel⟩
/-! ### group 07 -/
def wOne (k : Nat) : State := wRun { wPlan with tasks := [{ wTask 0 k with resources := 1, table := 1 }], tables := [wTable] } w2
def wIngest (st : Option Nat) : State := (wOne 0x0B).modPart 0 fun x => { x with
  samples := [{ rank := 0, step := 0, mb := 4, sample := 1, length := 8, dense := [], bags := [(0, [{ bag := 1, index := 9, weight := 0 }])], bad := false },
    { rank := 0, step := 0, mb := 4, sample := 0, length := 8, dense := [], bags := [(0, [{ bag := 0, index := 8, weight := 0 }])], bad := false }],
  ends := [{ rank := 0, step := 0, mb := 4, nsample := 2, mac := 5, bad := false, status := st, cls := 0 }] }
def wWeights : Plan := { wPlan with options := 8, params := { wPlan.params with cmpPeriod := 4, layers := [{ flags := 0, uint := 0 }], tensors := [{ kind := 1, smode := 0, hlen := 0, head := 0, layer := 0, elems := 16384, hyp := 0, clip := 0, rule := 1, sfmt := 0, srbase := 0 }] } }
def wWrong : State := { wRun wWeights w1 with mem := [(0x100000 + 16385, 1)] }
def wQ : Placed := { task := 0, start := 0, dur := 10, units := [0] }
def wHold (land : Nat) : HoldEntry := { land := land, demand := 7, overrun := true, cause := 2, part := 0, origin := 3, task := 5 }
def wHeld : State := (wOne 8).modPart 0 fun x => { x with merged := [wHold 1] }
def wMerged : State := w2.modPart 0 fun x => { x with merged := [wHold 5] }
def wBalPlan : Plan := { wPlan with options := 1, tasks := [{ wTask 0 1 with flags := 1 }] }
def wBal (a b : Nat) : State := (wRun wBalPlan w1).modPart 0 fun x => { x with balEn := true, slotFinish := List.replicate 8 [a, b] }
theorem wrong_copy : wWrong.copyEqual 0 0x100000 3 = false := by
  have h : wWrong.rd8 (0x100000 + 16384 + 1) = 1 := by decide +kernel
  unfold State.copyEqual
  simp only [h]
  simp [isFp8]
theorem rd_zero (s : State) (h : s.mem = []) (n a : Nat) : s.rd a n = List.replicate n 0 := by
  induction n generalizing a with
  | zero => rfl
  | succ n ih => simp only [State.rd, List.replicate_succ, ih, State.rd8, h]; rfl
theorem words_zero (n : Nat) : words32 (List.replicate (4 * n) 0) = List.replicate n 0 := by
  apply List.ext_getElem
  · simp [words32]
  · intro i h1 h2
    simp only [List.length_replicate] at h2
    simp only [words32, List.getElem_map, List.getElem_range, List.drop_replicate, List.take_replicate, List.getElem_replicate]
    rw [Nat.min_eq_left (by omega)]; rfl
theorem zero_codes (n : Nat) :
    (((List.replicate n (0 : W32)).map fun v => ((fmtOf 1).convert .sat (f32v v)).1).map (leBytes 2)).flatten = List.replicate (n * 2) 0 := by
  have h : leBytes 2 ((fmtOf 1).convert .sat (f32v 0)).1 = List.replicate 2 0 := by decide +kernel
  rw [List.map_replicate, List.map_replicate, h, List.flatten_replicate_replicate]
theorem equal_bf16 (s : State) (m c n : Nat) (h : s.mem = []) :
    (s.rd c (n * 2) = (((words32 (s.rd m (4 * n))).map fun v => ((fmtOf 1).convert .sat (f32v v)).1).map (leBytes 2)).flatten) := by
  rw [rd_zero s h, rd_zero s h, words_zero, zero_codes]
theorem equal_copy : w1.copyEqual 0 0x100000 1 = true := by
  have h := equal_bf16 w1 0 0x100000 16384 rfl
  rw [show (4 * 16384 : Nat) = 65536 from rfl] at h
  unfold State.copyEqual State.deriveCopy
  rw [if_neg (by decide), show elemBytes 1 = 2 from rfl]
  simp only [h]
  rw [Bool.and_eq_true]
  exact ⟨decide_eq_true trivial, rfl⟩

theorem witness_TransferTaskSends :
    (∃ (s : State), ∃ (p : Nat), ∃ (task : Nat), ∃ (n : Nat), ∃ (dst : Nat), ∃ (pl : Plan), ∃ (t : Task), ∃ (d : HostEntry), s.plan p = some pl ∧ s.taskOf p task = some t ∧ task < 2 ^ 24 ∧ s.stepMoves p = true ∧ t.kind = 8 ∧ (s.part p).done.contains task = false ∧ s.tableDesc p t.table = none ∧ 0 < n ∧ n ≤ 65536 ∧ s.checkerOn p = false ∧ pl.tables.all (!·.stale) = true ∧ (∀ q, q < 8 → (s.part q).sent = []) ∧ s.allSent p task = true ∧ s.hostOf p d.rank = s.pos ∧ s.ownsRange p dst n true = true ∧ dst + n ≤ resultBase) ∧
    (∃ (s : State), ∃ (p : Nat), ∃ (task : Nat), ∃ (n : Nat), ∃ (pl : Plan), ∃ (t : Task), ∃ (d : HostEntry), ∃ (v : Hop), s.plan p = some pl ∧ s.taskOf p task = some t ∧ task < 2 ^ 24 ∧ s.stepMoves p = true ∧ t.kind = 8 ∧ (s.part p).done.contains task = false ∧ s.tableDesc p t.table = none ∧ 0 < n ∧ n ≤ 65536 ∧ s.checkerOn p = false ∧ pl.tables.all (!·.stale) = true ∧ (∀ q, q < 8 → (s.part q).sent = []) ∧ s.allSent p task = true ∧ s.hostOf p d.rank ≠ s.pos ∧ s.nextHop s.pos (s.hostOf p d.rank) = some v ∧ (s.port v.port).absent.contains v.leave = false) :=
  ⟨⟨wOne 8, 0, 0, 300, 0x20000, { wPlan with tasks := [{ wTask 0 8 with resources := 1, table := 1 }], tables := [wTable] }, { wTask 0 8 with resources := 1, table := 1 }, { rank := 0, host := 0 }, by decide +kernel⟩,
   ⟨wOne 8, 0, 0, 1, { wPlan with tasks := [{ wTask 0 8 with resources := 1, table := 1 }], tables := [wTable] }, { wTask 0 8 with resources := 1, table := 1 }, { rank := 1, host := 1 }, { port := 1, leave := 1, set_ := false }, by decide +kernel⟩⟩
theorem witness_IngestDeliveryFillsLists :
    (∃ (s : State), ∃ (p : Nat), ∃ (task : Nat), ∃ (pl : Plan), ∃ (t : Task), s.plan p = some pl ∧ s.taskOf p task = some t ∧ task < 2 ^ 24 ∧ s.stepMoves p = true ∧ t.kind = 0x0B ∧ (s.part p).done.contains task = false) ∧
    (∃ (s : State), ∃ (p : Nat), ∃ (task : Nat), ∃ (mb : Nat), ∃ (pl : Plan), ∃ (t : Task), s.plan p = some pl ∧ s.taskOf p task = some t ∧ task < 2 ^ 24 ∧ s.stepMoves p = true ∧ t.kind = 0x0B ∧ (s.part p).done.contains task = false ∧ let r := s.rankOfTask p task; let n := s.stepOfTask p t; let ok := (s.part p).ends.any fun e => e.rank = r && e.step = n && e.mb = mb && e.status = some 0; ok = false) :=
  ⟨⟨wIngest (some 0), 0, 0, { wPlan with tasks := [{ wTask 0 0x0B with resources := 1, table := 1 }], tables := [wTable] }, { wTask 0 0x0B with resources := 1, table := 1 }, by decide +kernel⟩,
   ⟨wIngest (some 1), 0, 0, 4, { wPlan with tasks := [{ wTask 0 0x0B with resources := 1, table := 1 }], tables := [wTable] }, { wTask 0 0x0B with resources := 1, table := 1 }, by decide +kernel⟩⟩
theorem witness_WorkingCopyCompare :
    (∃ (s : State), ∃ (m : Nat), ∃ (c : Nat), ∃ (f : Nat), s.copyEqual m c f = true) ∧
    (∃ (s : State), ∃ (p : Nat), ∃ (i : Nat), ∃ (b : Nat), ∃ (m : Nat), ∃ (c : Nat), ∃ (f : Nat), ∃ (pl : Plan), p < 8 ∧ s.plan p = some pl ∧ s.stepMoves p = true ∧ pl.params.cmpPeriod ≠ 0 ∧ b % pl.params.cmpPeriod = s.curStep p % pl.params.cmpPeriod ∧ (pl.params.tensors[i]?).any (·.kind = 1) = true ∧ s.copyEqual m c f = false ∧ (s.part p).okSent = false) :=
  ⟨⟨w1, 0, 0x100000, 1, equal_copy⟩,
   ⟨wWrong, 0, 0, 4, 0, 0x100000, 3, wWeights, ⟨by decide +kernel, rfl, by decide +kernel, by decide +kernel, by decide +kernel, by decide +kernel, wrong_copy, by decide +kernel⟩⟩⟩
theorem witness_CalibrationNorms :
    (∃ (s : State), ∃ (p : Nat), ∃ (layer : Nat), ∃ (pl : Plan), s.plan p = some pl ∧ s.stepMoves p = true ∧ natBits pl.options 3 3 = 1 ∧ State.layerTensors pl layer ≠ [] ∧ (pl.params.layers[layer]?).any (fun l => natBits l.flags 0 0 = 0) = true) :=
  ⟨wRun wWeights w1, 0, 0, wWeights, by decide +kernel⟩
theorem witness_WindowsAndHolds :
    (∃ (s : State), ∃ (p : Nat), ∃ (task : Nat), ∃ (pl : Plan), ∃ (t : Task), ∃ (q : Placed), p < 8 ∧ s.plan p = some pl ∧ s.taskOf p task = some t ∧ s.placedTask p task = some q ∧ s.stepMoves p = true ∧ q.start ≤ s.getF F.PLN_SPOS_POS p ∧ (s.part p).windows.any (·.task = task) = false ∧ (s.part p).done.contains task = false) ∧
    (∃ (s : State), ∃ (p : Nat), ∃ (task : Nat), ∃ (need : List Nat), ∃ (pl : Plan), ∃ (t : Task), ∃ (q : Placed), p < 8 ∧ s.plan p = some pl ∧ s.taskOf p task = some t ∧ s.placedTask p task = some q ∧ s.stepMoves p = true ∧ q.start ≤ s.getF F.PLN_SPOS_POS p ∧ (s.part p).windows.any (·.task = task) = false ∧ (s.part p).done.contains task = false ∧ s.needOf p pl t need ≤ q.dur) ∧
    (∃ (s : State), ∃ (p : Nat), ∃ (task : Nat), ∃ (need : List Nat), ∃ (pl : Plan), ∃ (t : Task), ∃ (q : Placed), p < 8 ∧ s.plan p = some pl ∧ s.taskOf p task = some t ∧ s.placedTask p task = some q ∧ s.stepMoves p = true ∧ q.start ≤ s.getF F.PLN_SPOS_POS p ∧ (s.part p).windows.any (·.task = task) = false ∧ (s.part p).done.contains task = false ∧ q.dur < s.needOf p pl t need ∧ (s.part p).landedBn ≤ s.bn ∧ s.entryAt p (s.bn + s.holdLead) = none) ∧
    (∃ (s : State), ∃ (p : Nat), ∃ (land : Nat), ∃ (e : HoldEntry), (s.part p).merged = [e] ∧ e.land = land ∧ (s.part p).landedBn < land ∧ land ≤ s.bn + 1 ∧ 0 < State.entryLen e) ∧
    (∃ (s : State), ∃ (p : Nat), p < 8 ∧ s.stepMoves p = true ∧ (s.part p).okSent = false ∧ (if s.getF F.PLN_CTRL_HOLD_LIMIT p = 0 then 65535 else s.getF F.PLN_CTRL_HOLD_LIMIT p) ≤ s.getF F.PLN_SPOS_HOLD_TOTAL p) :=
  ⟨⟨wOne 4, 0, 0, { wPlan with tasks := [{ wTask 0 4 with resources := 1, table := 1 }], tables := [wTable] }, { wTask 0 4 with resources := 1, table := 1 }, wQ, by decide +kernel⟩,
   ⟨wOne 4, 0, 0, [], { wPlan with tasks := [{ wTask 0 4 with resources := 1, table := 1 }], tables := [wTable] }, { wTask 0 4 with resources := 1, table := 1 }, wQ, by decide +kernel⟩,
   ⟨wOne 8, 0, 0, [100000000], { wPlan with tasks := [{ wTask 0 8 with resources := 1, table := 1 }], tables := [wTable] }, { wTask 0 8 with resources := 1, table := 1 }, wQ, by decide +kernel⟩,
   ⟨wHeld, 0, 1, wHold 1, by decide +kernel⟩,
   ⟨(wOne 8).putF F.PLN_SPOS_HOLD_TOTAL 0 65535, 0, by decide +kernel⟩⟩
theorem witness_HoldFlitsMerge :
    (∃ (s : State), ∃ (k : Nat), ∃ (seq : Nat), ∃ (e : HoldEntry), k < 6 ∧ s.portUp k = true ∧ e.part < 8 ∧ seq % 4096 = (s.port k).rxNext ∧ let e' := { e with land := s.fullBn e.land }; max s.bn (s.part e.part).landedBn < e'.land ∧ s.entryAt e.part e'.land = none) ∧
    (∃ (s : State), ∃ (k : Nat), ∃ (seq : Nat), ∃ (e : HoldEntry), ∃ o, k < 6 ∧ s.portUp k = true ∧ e.part < 8 ∧ seq % 4096 = (s.port k).rxNext ∧ let e' := { e with land := s.fullBn e.land }; max s.bn (s.part e.part).landedBn < e'.land ∧ s.entryAt e.part e'.land = some o ∧ State.mergeEntry o e' = o) ∧
    (∃ (s : State), ∃ (k : Nat), ∃ (seq : Nat), k < 6 ∧ s.portUp k = true ∧ seq % 4096 ≠ (s.port k).rxNext) ∧
    (∃ (s : State), ∃ (k : Nat), ∃ (seq : Nat), k < 6 ∧ s.portUp k = true ∧ seq % 4096 ≠ (s.port k).rxNext ∧ (s.port k).nakSent = false) ∧
    (∃ (s : State), ∃ (k : Nat), ∃ (seq : Nat), ∃ (e : HoldEntry), s.portUp k = true ∧ e.part < 8 ∧ (s.part e.part).active = false ∧ seq % 4096 = (s.port k).rxNext ∧ s.fullBn e.land ≤ s.bn ∧ s.entryAt e.part (s.fullBn e.land) = none) ∧
    (∃ (s : State), ∃ (f : Func), ∃ (p : Nat), ∃ (v : Word), p < 8 ∧ Open s f (F.PLN_HOLD_POP_POP.off p) ∧ getBits v 0 0 = 1) :=
  ⟨⟨w2, 1, 0, wHold 5, by decide +kernel⟩,
   ⟨wMerged, 1, 0, { wHold 5 with origin := 4 }, wHold 5, by decide +kernel⟩,
   ⟨w2, 1, 5, by decide +kernel⟩,
   ⟨w2, 1, 5, by decide +kernel⟩,
   ⟨w2, 1, 0, wHold 0, by decide +kernel⟩,
   ⟨w1.modPart 2 fun x => { x with holdLog := [{ bn := 1, len := 2, cause := 3, task := 4, origin := 5 }] }, .pf, 2, 1, by decide +kernel⟩⟩
theorem witness_BalanceMovesOneShare :
    (∃ (s : State), ∃ (p : Nat), ∃ (pl : Plan), s.plan p = some pl ∧ s.stepMoves p = true ∧ s.balancing p = true ∧ 0 < pl.clusters ∧ pl.clusters ≤ 32) ∧
    (∃ (s : State), ∃ (p : Nat), ∃ (pl : Plan), s.plan p = some pl ∧ s.stepMoves p = true ∧ s.balancing p = true ∧ 0 < pl.clusters ∧ pl.clusters ≤ 32) :=
  ⟨⟨wBal 20 3, 0, wBalPlan, by decide +kernel⟩,
   ⟨wBal 11 3, 0, wBalPlan, by decide +kernel⟩⟩
/-! ### group 13 -/
def wBig : TableDesc := { wTable with rows := 600 }
def wBigPlan : Plan := { wTabPlan with tables := [wBig], rankCount := 8 }
def wPages : List PageRec :=
  [{ shard := 0, page := 0, home := 0, count := 1, base := 0x100000 }, { shard := 0, page := 1, home := 8, count := 9, base := 0x4000000000 },
   { shard := 0, page := 2, home := 8, count := 1, base := 0x4000100000 }]
def wSwap : Swap := { rank := 0, table := 0, a := (0, 0), b := (0, 1), since := 0, done := 0, now := 0 }
def wPlace (tier stack : Nat) : State :=
  (((wRun { wBigPlan with rankCount := 1 } w1).modPart 0 fun x => { x with committed := true, tables := [(tableKey 0 0, { TableSt.reset with pages := wPages })] }).putF F.PLN_STEP_STEP 0 6
    |>.putF F.ROW_PLACE_CFG_TIER_EN 0 tier).putF F.ROW_PLACE_CFG_STACK_EN 0 stack |>.putF F.ROW_PLACE_CFG_PERIOD 0 3
def wCopies (n : Nat) : State := ((wPlace 1 0).modPart 0 fun x => { x with done := [2], swaps := [wSwap], copies := n, committed := false }).putF F.ROW_PLACE_CFG_MIG_PAGES 0 1
def wLoads (m : Nat) : State := (wRun wBigPlan w2).putF F.ROW_PLACE_CFG_SHARD_EN 0 1 |>.putF F.ROW_PLACE_CFG_SHARD_MARGIN 0 m
def wRepl (l : Bool) : Repl := { table := 0, epoch := 4, step := 9, addr := 0x1000, loaded := l, due := false }
def wReplS (l : Bool) : State := ((wRun wTabPlan w1).modPart 0 fun x => { x with repls := [wRepl l] }).putF F.PLN_STEP_STEP 0 8
def wReplGo (n : Nat) : State := (wRun { wTabPlan with budgets := [{ table := 0, unique := 1, slow := 0 }] } w1).putF F.ROW_REPL_STEP_STEP 0 n
def wReplBig : State := ((wRun wTabPlan w1).putF F.PRT_QUOTA_HBM_Q 0 0 |>.putF F.PRT_QUOTA_UMB_Q 0 0).putF F.ROW_REPL_STEP_STEP 0 5

theorem witness_PlacementPeriod :
    (∃ (s : State), ∃ (p : Nat), ∃ (r : Nat), ∃ (pl : Plan), p < 8 ∧ s.plan p = some pl ∧ (s.part p).active = true ∧ (s.part p).committed = true ∧ s.curStep p ≠ 0 ∧ s.curStep p % max 1 (s.getF F.ROW_PLACE_CFG_PERIOD p) = 0 ∧ s.ranksHere p = [r] ∧ s.hostOf p r = s.homePos p r ∧ pl.tables.length ≤ 4096) ∧
    (∃ (s : State), ∃ (p : Nat), ∃ (r : Nat), ∃ (pl : Plan), p < 8 ∧ s.plan p = some pl ∧ (s.part p).active = true ∧ (s.part p).committed = true ∧ s.curStep p ≠ 0 ∧ s.curStep p % max 1 (s.getF F.ROW_PLACE_CFG_PERIOD p) = 0 ∧ s.ranksHere p = [r] ∧ s.hostOf p r = s.homePos p r ∧ pl.tables.length ≤ 4096 ∧ s.flag F.ROW_PLACE_CFG_TIER_EN p = false ∧ s.flag F.ROW_PLACE_CFG_STACK_EN p = false) ∧
    (∃ (s : State), ∃ (p : Nat), ∃ (r : Nat), ∃ (pl : Plan), p < 8 ∧ s.plan p = some pl ∧ (s.part p).active = true ∧ (s.part p).committed = true ∧ s.curStep p ≠ 0 ∧ s.curStep p % max 1 (s.getF F.ROW_PLACE_CFG_PERIOD p) = 0 ∧ s.ranksHere p = [r] ∧ s.hostOf p r = s.homePos p r ∧ pl.tables.length ≤ 4096 ∧ s.flag F.ROW_PLACE_CFG_STACK_EN p = false) :=
  ⟨⟨wPlace 1 0, 0, 0, { wBigPlan with rankCount := 1 }, by decide +kernel⟩,
   ⟨wPlace 0 0, 0, 0, { wBigPlan with rankCount := 1 }, by decide +kernel⟩,
   ⟨wPlace 1 0, 0, 0, { wBigPlan with rankCount := 1 }, by decide +kernel⟩⟩
theorem witness_PageCopies :
    (∃ (s : State), ∃ (p : Nat), s.copiesMayRun p = true ∧ (∀ x ∈ (s.part p).tables, x.2.move = none) ∧ s.getF F.ROW_PLACE_CFG_MIG_PAGES p ≤ (s.part p).copies) ∧
    (∃ (s : State), ∃ (p : Nat), ∃ (w : Swap), ∃ (d : TableDesc), s.copiesMayRun p = true ∧ (∀ x ∈ (s.part p).tables, x.2.move = none) ∧ (s.part p).copies + 1 = s.getF F.ROW_PLACE_CFG_MIG_PAGES p ∧ (s.part p).swaps.find? (·.done < 2) = some w ∧ w.done = 0 ∧ s.tableDesc p w.table = some d) :=
  ⟨⟨wCopies 1, 0, by decide +kernel⟩,
   ⟨wCopies 0, 0, wSwap, wBig, by decide +kernel⟩⟩
theorem witness_ShardMoves :
    (∃ (s : State), ∃ (p : Nat), ∃ (t : Nat), ∃ (d : TableDesc), ∃ (loads : List ShardLoad), ∃ (hi : Nat), ∃ (lo : Nat), s.tableDesc p t = some d ∧ s.flag F.ROW_PLACE_CFG_SHARD_EN p = true ∧ (s.part p).active = true ∧ (s.part p).hosts.all (fun x => x.2 = s.homePos p x.1) = true ∧ (s.tableSt p t (s.homeRank p)).move = none ∧ let total := (loads.map (·.load)).foldl (· + ·) 0; let gap := loadSum loads hi - loadSum loads lo; let fit := loads.filter fun c => c.rank = hi && 2 * c.load ≤ gap; hi < s.planRanks p ∧ lo < s.planRanks p ∧ (∀ r, r < s.planRanks p → loadSum loads r ≤ loadSum loads hi ∧ loadSum loads lo ≤ loadSum loads r) ∧ (∀ r, r < hi → loadSum loads r < loadSum loads hi) ∧ (∀ r, r < lo → loadSum loads lo < loadSum loads r) ∧ (s.planRanks p * 256 * gap ≤ s.getF F.ROW_PLACE_CFG_SHARD_MARGIN p * total ∨ fit = [])) ∧
    (∃ (s : State), ∃ (p : Nat), ∃ (t : Nat), ∃ (d : TableDesc), ∃ (loads : List ShardLoad), ∃ (hi : Nat), ∃ (lo : Nat), s.tableDesc p t = some d ∧ s.flag F.ROW_PLACE_CFG_SHARD_EN p = true ∧ (s.part p).active = true ∧ (s.part p).hosts.all (fun x => x.2 = s.homePos p x.1) = true ∧ (s.tableSt p t (s.homeRank p)).move = none ∧ let total := (loads.map (·.load)).foldl (· + ·) 0; let gap := loadSum loads hi - loadSum loads lo; let fit := loads.filter fun c => c.rank = hi && 2 * c.load ≤ gap; hi < s.planRanks p ∧ lo < s.planRanks p ∧ (∀ r, r < s.planRanks p → loadSum loads r ≤ loadSum loads hi ∧ loadSum loads lo ≤ loadSum loads r) ∧ (∀ r, r < hi → loadSum loads r < loadSum loads hi) ∧ (∀ r, r < lo → loadSum loads lo < loadSum loads r) ∧ s.getF F.ROW_PLACE_CFG_SHARD_MARGIN p * total < s.planRanks p * 256 * gap ∧ fit ≠ []) :=
  ⟨⟨wLoads 0, 0, 0, wBig, [{ rank := 0, shard := 0, load := 5 }, { rank := 1, shard := 1, load := 5 }], 0, 2, by decide +kernel⟩,
   ⟨wLoads 1, 0, 0, wBig, [{ rank := 0, shard := 0, load := 5 }, { rank := 0, shard := 8, load := 2 }, { rank := 1, shard := 1, load := 5 }], 0, 2, by decide +kernel⟩⟩
theorem witness_TableReplacement :
    (∃ (s : State), ∃ (f : Func), ∃ (p : Nat), ∃ (v : Word), ∃ (pl : Plan), ∃ (d : TableDesc), p < 8 ∧ Open s f (F.ROW_REPL_CTRL_GO.off p) ∧ getBits v 63 63 = 1 ∧ s.plan p = some pl ∧ let t := getBits v 43 32; s.tableDesc p t = some d) ∧
    (∃ (s : State), ∃ (f : Func), ∃ (p : Nat), ∃ (v : Word), ∃ (pl : Plan), ∃ (d : TableDesc), p < 8 ∧ Open s f (F.ROW_REPL_CTRL_GO.off p) ∧ getBits v 63 63 = 1 ∧ s.plan p = some pl ∧ let t := getBits v 43 32; let e := getBits v 31 0; let n := s.getF F.ROW_REPL_STEP_STEP p; let no : Bool := e ≤ (s.tableSt p t (s.homeRank p)).epoch || n ≤ s.curStep p + (if (s.part p).active then 1 else 0) || (s.part p).repls.any (·.table = t); s.tableDesc p t = some d ∧ no = true) ∧
    (∃ (s : State), ∃ (f : Func), ∃ (p : Nat), ∃ (v : Word), ∃ (pl : Plan), ∃ (d : TableDesc), p < 8 ∧ Open s f (F.ROW_REPL_CTRL_GO.off p) ∧ getBits v 63 63 = 1 ∧ s.plan p = some pl ∧ let t := getBits v 43 32; let e := getBits v 31 0; let n := s.getF F.ROW_REPL_STEP_STEP p; let no : Bool := e ≤ (s.tableSt p t (s.homeRank p)).epoch || n ≤ s.curStep p + (if (s.part p).active then 1 else 0) || (s.part p).repls.any (·.table = t); s.tableDesc p t = some d ∧ no = true) ∧
    (∃ (s : State), ∃ (f : Func), ∃ (p : Nat), ∃ (v : Word), ∃ (pl : Plan), ∃ (d : TableDesc), p < 8 ∧ Open s f (F.ROW_REPL_CTRL_GO.off p) ∧ getBits v 63 63 = 1 ∧ s.plan p = some pl ∧ let t := getBits v 43 32; let e := getBits v 31 0; let n := s.getF F.ROW_REPL_STEP_STEP p; let w : Repl := { table := t, epoch := e, step := n, addr := s.getF F.ROW_REPL_ADDR_ADDR p, loaded := false, due := false }; let no : Bool := e ≤ (s.tableSt p t (s.homeRank p)).epoch || n ≤ s.curStep p + (if (s.part p).active then 1 else 0) || (s.part p).repls.any (·.table = t); s.tableDesc p t = some d ∧ no = false ∧ s.replFits p pl w = false) ∧
    (∃ (s : State), ∃ (f : Func), ∃ (p : Nat), ∃ (v : Word), ∃ (pl : Plan), ∃ (d : TableDesc), p < 8 ∧ Open s f (F.ROW_REPL_CTRL_GO.off p) ∧ getBits v 63 63 = 1 ∧ s.plan p = some pl ∧ let t := getBits v 43 32; let e := getBits v 31 0; let n := s.getF F.ROW_REPL_STEP_STEP p; let w : Repl := { table := t, epoch := e, step := n, addr := s.getF F.ROW_REPL_ADDR_ADDR p, loaded := false, due := false }; let no : Bool := e ≤ (s.tableSt p t (s.homeRank p)).epoch || n ≤ s.curStep p + (if (s.part p).active then 1 else 0) || (s.part p).repls.any (·.table = t); s.tableDesc p t = some d ∧ no = false ∧ s.replFits p pl w = true) ∧
    (∃ (s : State), ∃ (p : Nat), ∃ (v : Repl), ∃ (d : TableDesc), p < 8 ∧ (s.part p).repls = [v] ∧ v.loaded = false ∧ s.tableDesc p v.table = some d) ∧
    (∃ (s : State), ∃ (p : Nat), ∃ (v : Repl), p < 8 ∧ (s.part p).repls = [v] ∧ v.due = false ∧ v.step = s.curStep p + 1 ∧ (s.part p).active = true) ∧
    (∃ (s : State), ∃ (p : Nat), ∃ (v : Repl), ∃ (l : List Nat), p < 8 ∧ (s.part p).repls = [v] ∧ v.due = false ∧ v.step = s.curStep p + 1 ∧ (s.part p).active = true ∧ v.loaded = true ∧ (∀ x ∈ l, x = 2)) ∧
    (∃ (s : State), ∃ (p : Nat), ∃ (v : Repl), ∃ (l : List Nat), p < 8 ∧ (s.part p).repls = [v] ∧ v.due = false ∧ v.step = s.curStep p + 1 ∧ (s.part p).active = true ∧ (v.loaded = false ∨ ∃ x ∈ l, x ≠ 2)) ∧
    (∃ (s : State), ∃ (p : Nat), ∃ (v : Repl), ∃ (l : List Nat), p < 8 ∧ (s.part p).repls = [v] ∧ v.due = false ∧ v.step = s.curStep p + 1 ∧ (s.part p).active = true ∧ (v.loaded = false ∨ ∃ x ∈ l, x ≠ 2)) :=
  ⟨⟨wReplGo 5, .pf, 0, BitVec.ofNat 64 (2 ^ 63 + 4), { wTabPlan with budgets := [{ table := 0, unique := 1, slow := 0 }] }, wTable, by decide +kernel⟩,
   ⟨wReplGo 1, .pf, 0, BitVec.ofNat 64 (2 ^ 63 + 4), { wTabPlan with budgets := [{ table := 0, unique := 1, slow := 0 }] }, wTable, by decide +kernel⟩,
   ⟨wReplGo 5, .pf, 0, BitVec.ofNat 64 (2 ^ 63), { wTabPlan with budgets := [{ table := 0, unique := 1, slow := 0 }] }, wTable, by decide +kernel⟩,
   ⟨wReplBig, .pf, 0, BitVec.ofNat 64 (2 ^ 63 + 4), wTabPlan, wTable, by decide +kernel⟩,
   ⟨wReplGo 2, .pf, 0, BitVec.ofNat 64 (2 ^ 63 + 1), { wTabPlan with budgets := [{ table := 0, unique := 1, slow := 0 }] }, wTable, by decide +kernel⟩,
   ⟨wReplS false, 0, wRepl false, wTable, by decide +kernel⟩,
   ⟨wReplS true, 0, wRepl true, by decide +kernel⟩,
   ⟨wReplS true, 0, wRepl true, [2, 2], by decide +kernel⟩,
   ⟨wReplS true, 0, wRepl true, [2, 1], by decide +kernel⟩,
   ⟨wReplS false, 0, wRepl false, [], by decide +kernel⟩⟩
/-! ### group 14 -/
def wUnit (u st : Nat) : State := (w1.setUnitState u st).putU F.MEM_SCRUB_PERIOD F.UMB_SCRUB_PERIOD u 5
def wWheel : State := ((w1.putU F.MEM_REG_CTRL_PENDING F.UMB_REG_CTRL_PENDING 3 1).putF F.PRT_FREG_CTRL_PENDING 2 1).putF F.PLN_BN_BN 0 64
def wGen (u busy mode : Nat) : State := ((wUnit u 2).putG F.MEM_TG_STAT_BUSY F.UMB_TG_STAT_BUSY u 1 busy).putG F.MEM_TG_CTRL_MODE F.UMB_TG_CTRL_MODE u 1 mode |>.modUnit u fun x => { x with active := [(0, 0xF)], runs := [1] }

theorem witness_RefreshScrubTemperature :
    (∃ (s : State), ∃ (u : MemUnit), let i := State.unitNo u; s.unitState i = 2) ∧
    (∃ (s : State), ∃ (u : MemUnit), let i := State.unitNo u; s.unitState i = 2) ∧
    (∃ (s : State), ∃ (u : MemUnit), let i := State.unitNo u; s.unitState i ≠ 0) ∧
    (∃ (s : State), ∃ (u : MemUnit), let i := State.unitNo u; s.unitState i ≠ 0) ∧
    (∃ (s : State), ∃ (u : MemUnit), let i := State.unitNo u; s.unitState i = 2 ∧ s.getU F.MEM_SCRUB_PERIOD F.UMB_SCRUB_PERIOD i ≠ 0) :=
  ⟨⟨wUnit 3 2, .stack 3, by decide +kernel⟩,
   ⟨wUnit 19 2, .umber 11, by decide +kernel⟩,
   ⟨wUnit 3 2, .stack 3, by decide +kernel⟩,
   ⟨wUnit 3 2, .stack 3, by decide +kernel⟩,
   ⟨wUnit 19 2, .umber 11, by decide +kernel⟩⟩
theorem witness_SectorErrors :
    (∃ (i : Nat), ∃ (v : Byte), i < 36 ∧ v ≠ 0) ∧
    (∃ (s : State), ∃ (u : MemUnit), ∃ (e : SectorErr), ∃ k, ∃ v, let i := State.unitNo u; s.unitState i = 2 ∧ s.getU F.MEM_SCRUB_PERIOD F.UMB_SCRUB_PERIOD i ≠ 0 ∧ State.onUnit i e.addr = true ∧ e.onDie = 0 ∧ e.flips = [(k, v)] ∧ k < 36 ∧ v ≠ 0) ∧
    (∃ (s : State), ∃ (u : MemUnit), ∃ (e : SectorErr), let i := State.unitNo u; s.unitState i = 2 ∧ s.getU F.MEM_SCRUB_PERIOD F.UMB_SCRUB_PERIOD i ≠ 0 ∧ State.onUnit i e.addr = true ∧ e.onDie = 0 ∧ e.verdict = .uncorrectable ∧ s.committedAt (s.ownerAt e.addr) e.addr = false ∧ s.resilient (s.ownerAt e.addr) = false ∧ s.metBefore e.addr (s.curStep (s.ownerAt e.addr)) = false) :=
  ⟨⟨35, 0xFF, by decide +kernel⟩,
   ⟨wUnit 0 2, .stack 0, { addr := 0, flips := [(3, 5)], onDie := 0 }, 3, 5, by decide +kernel⟩,
   ⟨wUnit 8 2, .umber 0, { addr := umberBase, flips := [(3, 5), (35, 7)], onDie := 0 }, by decide +kernel⟩⟩
theorem witness_WheelsTakeEffect :
    (∃ (s : State), s.bn % 64 = 0) ∧
    (∃ (s : State), ∃ (x : MemUnit), Open s .pf (State.unitBase (State.unitNo x) + 0x20)) ∧
    (∃ (s : State), ∃ (k : Nat), k < 6 ∧ Open s .pf (F.PRT_FREG_CTRL_DISCARD.off k)) :=
  ⟨⟨wWheel, by decide +kernel⟩,
   ⟨wWheel, .stack 3, by decide +kernel⟩,
   ⟨wWheel, 2, by decide +kernel⟩⟩
theorem witness_MarginAndOffline :
    (∃ (s : State), ∃ (x : MemUnit), ∃ (v : Word), ∃ (c : Instr), let u := State.unitNo x; (c = .marginOffline x v ∨ c = .marginApply x v) ∧ Open s .pf (State.unitBase u + 0x28)) ∧
    (∃ (s : State), ∃ (x : MemUnit), ∃ (v : Word), ∃ (c : Instr), let u := State.unitNo x; (c = .marginOffline x v ∨ c = .marginApply x v) ∧ Open s .pf (State.unitBase u + 0x28)) ∧
    (∃ (s : State), ∃ (x : MemUnit), ∃ (v : Word), ∃ (c : Instr), let u := State.unitNo x; (c = .marginOffline x v ∨ c = .marginApply x v) ∧ Open s .pf (State.unitBase u + 0x28)) ∧
    (∃ (s : State), ∃ (x : MemUnit), ∃ (v : Word), ∃ (c : Instr), let u := State.unitNo x; (c = .marginOffline x v ∨ c = .marginApply x v) ∧ Open s .pf (State.unitBase u + 0x28)) ∧
    (∃ (s : State), ∃ (x : MemUnit), let u := State.unitNo x; s.getU F.MEM_MARGIN_OFFLINE F.UMB_MARGIN_OFFLINE u = 1 ∧ s.unitState u = 2 ∧ s.unitInUse u = false) ∧
    (∃ (s : State), ∃ (x : MemUnit), let u := State.unitNo x; s.getU F.MEM_MARGIN_OFFLINE F.UMB_MARGIN_OFFLINE u = 0 ∧ (s.unitState u = 4 ∨ s.unitState u = 1)) ∧
    (∃ (s : State), ∃ (x : MemUnit), let u := State.unitNo x; s.getU F.MEM_MARGIN_OFFLINE F.UMB_MARGIN_OFFLINE u = 0 ∧ (s.unitState u = 4 ∨ s.unitState u = 1) ∧ s.flag F.GEN_STATUS_FAILED 0 = false) :=
  ⟨⟨wUnit 8 2, .umber 0, 0xFFFFFE, .marginOffline (.umber 0) 0xFFFFFE, by decide +kernel⟩,
   ⟨wUnit 7 4, .stack 7, 0xAB3401, .marginApply (.stack 7) 0xAB3401, by decide +kernel⟩,
   ⟨wUnit 7 2, .stack 7, 0xAB3401, .marginApply (.stack 7) 0xAB3401, by decide +kernel⟩,
   ⟨wUnit 7 2, .stack 7, 0xAB3400, .marginApply (.stack 7) 0xAB3400, by decide +kernel⟩,
   ⟨(wUnit 7 2).putU F.MEM_MARGIN_OFFLINE F.UMB_MARGIN_OFFLINE 7 1, .stack 7, by decide +kernel⟩,
   ⟨wUnit 7 4, .stack 7, by decide +kernel⟩,
   ⟨wUnit 7 4, .stack 7, by decide +kernel⟩⟩
theorem witness_TrafficGenerators :
    (∃ (s : State), ∃ (x : MemUnit), ∃ (n : Nat), ∃ (v : Word), let u := State.unitNo x; n < State.genCount u ∧ Open s .pf (State.genCtl u n) ∧ getBits v 0 0 = 1 ∧ s.getG F.MEM_TG_STAT_BUSY F.UMB_TG_STAT_BUSY u n = 0) ∧
    (∃ (s : State), ∃ (x : MemUnit), ∃ (n : Nat), ∃ (v : Word), let u := State.unitNo x; n < State.genCount u ∧ Open s .pf (State.genCtl u n) ∧ getBits v 0 0 = 1 ∧ s.getG F.MEM_TG_STAT_BUSY F.UMB_TG_STAT_BUSY u n = 0) ∧
    (∃ (s : State), ∃ (x : MemUnit), ∃ (n : Nat), ∃ (v : Word), let u := State.unitNo x; n < State.genCount u ∧ Open s .pf (State.genCtl u n) ∧ getBits v 0 0 = 1 ∧ s.getG F.MEM_TG_STAT_BUSY F.UMB_TG_STAT_BUSY u n = 0) ∧
    (∃ (s : State), ∃ (x : MemUnit), ∃ (n : Nat), let u := State.unitNo x; n < State.genCount u ∧ s.getG F.MEM_TG_STAT_BUSY F.UMB_TG_STAT_BUSY u n = 1 ∧ s.getG F.MEM_TG_CTRL_MODE F.UMB_TG_CTRL_MODE u n = 1 ∧ 0 < State.slotsOf (s.unit u).active 15) :=
  ⟨⟨wGen 3 0 0, .stack 3, 1, BitVec.ofNat 64 (2 ^ 32 * 7 + 0x11), by decide +kernel⟩,
   ⟨wGen 3 0 0, .stack 3, 1, 0x21, by decide +kernel⟩,
   ⟨wGen 3 0 0, .stack 3, 1, 0x01, by decide +kernel⟩,
   ⟨wGen 19 1 1, .umber 11, 1, by decide +kernel⟩⟩
theorem witness_AddressesHaveCells :
    (∃ (a : Nat), a < hbmEnd) ∧
    (∃ (a : Nat), a < hbmEnd) ∧
    (∃ (a : Nat), ∃ (b : Nat), a < hbmEnd ∧ b < hbmEnd ∧ hbmCell a = hbmCell b) ∧
    (∃ (a : Nat), umberBase ≤ a ∧ a < umberEnd) ∧
    (∃ (a : Nat), ∃ (b : Nat), umberBase ≤ a ∧ a < umberEnd ∧ umberBase ≤ b ∧ b < umberEnd ∧ umberCell a = umberCell b) :=
  ⟨⟨hbmEnd - 1, by decide +kernel⟩,
   ⟨hbmEnd - 1, by decide +kernel⟩,
   ⟨hbmEnd - 1, hbmEnd - 1, by decide +kernel⟩,
   ⟨umberEnd - 1, by decide +kernel⟩,
   ⟨umberBase, umberBase, by decide +kernel⟩⟩
/-! ### group 15 -/
def wFlit (n : Nat) : Flit := { type := 4, vc := 1, seq := n, ack := 0, ak := 0, body := fillBody [7, 8] }
def wPort (k st : Nat) : State := (((w2.putF F.FAB_PSTAT_STATE k st).putF F.FAB_PCTRL_EN k 1).putF F.FAB_PSTAT_LANES k 0xFFFF).putF F.FAB_PCTRL_RETRY_LIMIT k 4
def wDown : State := (List.range 6).foldl (fun s k => s.putF F.FAB_PSTAT_STATE k (if k = 3 then 7 else 0)) w2
def wTried (st n : Nat) : State := (wPort 2 st).modPort 2 fun x => { x with attempts := n }
def wRetry : State := (wPort 1 5).modPort 1 fun x => { x with retry := [{ flit := wFlit 4095, resent := 0 }, { flit := wFlit 0, resent := 1 }], heard := true, rxNext := 7, groupRx := 3, nakSent := true }
def wPeer : PeerChain := { exchOk := true, selfOk := true, sigsOk := true, rootOk := true, lc := 0, owner := 0, svn := 64, kem := [1, 2] }

theorem witness_FabricConfiguration :
    (∃ (s : State), ∃ (f : Func), Open s f F.FAB_CFG_X.base ∧ (∀ k, k < 6 → s.getF F.FAB_PSTAT_STATE k = 0 ∨ s.getF F.FAB_PSTAT_STATE k = 7)) ∧
    (∃ (s : State), ∃ (f : Func), Open s f F.FAB_CFG_X.base ∧ (∃ k, k < 6 ∧ s.getF F.FAB_PSTAT_STATE k ≠ 0 ∧ s.getF F.FAB_PSTAT_STATE k ≠ 7)) ∧
    (∃ (s : State), ∃ (f : Func), Open s f F.FAB_BYP_OPEN.base ∧ s.runningParts = []) ∧
    (∃ (s : State), ∃ (k : Nat), k < 6 ∧ Open s .pf (F.FAB_PCTRL_EN.off k) ∧ s.runningParts = []) :=
  ⟨⟨wDown, .pf, by decide +kernel⟩,
   ⟨w2, .pf, by decide +kernel⟩,
   ⟨(wPort 2 0).putF F.FAB_PCTRL_EN 3 1, .pf, by decide +kernel⟩,
   ⟨(wPort 2 0).putF F.FAB_BYP_OPEN 0 2, 3, by decide +kernel⟩⟩
theorem witness_PortsTrain :
    (∃ (s : State), ∃ (k : Nat), k < 6 ∧ let st := s.getF F.FAB_PSTAT_STATE k; st = 1) ∧
    (∃ (s : State), ∃ (k : Nat), ∃ (lanes : Nat), k < 6 ∧ let st := s.getF F.FAB_PSTAT_STATE k; st = 2 ∧ State.goodGroups lanes = [0, 1, 2, 3]) ∧
    (∃ (s : State), ∃ (k : Nat), ∃ (lanes : Nat), ∃ (a : Nat), ∃ (b : Nat), ∃ (rest : List Nat), k < 6 ∧ let st := s.getF F.FAB_PSTAT_STATE k; st = 2 ∧ State.goodGroups lanes = a :: b :: rest ∧ rest.length ≤ 1) ∧
    (∃ (s : State), ∃ (k : Nat), ∃ (lanes : Nat), ∃ (a : Nat), ∃ (b : Nat), ∃ (rest : List Nat), k < 6 ∧ let st := s.getF F.FAB_PSTAT_STATE k; st = 2 ∧ State.goodGroups lanes = a :: b :: rest ∧ rest.length ≤ 1) ∧
    (∃ (s : State), ∃ (k : Nat), ∃ (far : Nat), ∃ (rings : Nat × Nat × Nat), k < 6 ∧ let st := s.getF F.FAB_PSTAT_STATE k; let rings0 := (s.ringSize 0, s.ringSize 1, s.ringSize 2); st = 3 ∧ rings = rings0 ∧ s.inRing k far = true ∧ (∀ q ∈ s.between k far, (s.port k).absent.contains q = true)) ∧
    (∃ (s : State), ∃ (k : Nat), ∃ (far : Nat), ∃ (rings : Nat × Nat × Nat), k < 6 ∧ let st := s.getF F.FAB_PSTAT_STATE k; let rings0 := (s.ringSize 0, s.ringSize 1, s.ringSize 2); st = 3 ∧ rings = rings0 ∧ s.inRing k far = true ∧ (∀ q ∈ s.between k far, (s.port k).absent.contains q = true) ∧ s.pos < far % 2 ^ 17) ∧
    (∃ (s : State), ∃ (k : Nat), ∃ (far : Nat), ∃ (rings : Nat × Nat × Nat), k < 6 ∧ let st := s.getF F.FAB_PSTAT_STATE k; let rings0 := (s.ringSize 0, s.ringSize 1, s.ringSize 2); st = 3 ∧ rings = rings0 ∧ s.inRing k far = true ∧ (∀ q ∈ s.between k far, (s.port k).absent.contains q = true) ∧ far % 2 ^ 17 ≤ s.pos) ∧
    (∃ (s : State), ∃ (k : Nat), ∃ (far : Nat), ∃ (rings : Nat × Nat × Nat), k < 6 ∧ let st := s.getF F.FAB_PSTAT_STATE k; let rings0 := (s.ringSize 0, s.ringSize 1, s.ringSize 2); st = 3 ∧ (rings ≠ rings0 ∨ s.inRing k far = false)) ∧
    (∃ (s : State), ∃ (k : Nat), ∃ (far : Nat), ∃ (rings : Nat × Nat × Nat), k < 6 ∧ let st := s.getF F.FAB_PSTAT_STATE k; let rings0 := (s.ringSize 0, s.ringSize 1, s.ringSize 2); st = 3 ∧ (rings ≠ rings0 ∨ s.inRing k far = false)) ∧
    (∃ (s : State), ∃ (k : Nat), ∃ (peer : PeerChain), k < 6 ∧ let st := s.getF F.FAB_PSTAT_STATE k; st = 4 ∧ s.chainOk peer = true ∧ (s.port k).reported = false ∧ Quiet s k) ∧
    (∃ (s : State), ∃ (k : Nat), ∃ (peer : PeerChain), k < 6 ∧ let st := s.getF F.FAB_PSTAT_STATE k; st = 4 ∧ s.chainOk peer = true ∧ (s.port k).reported = false ∧ Quiet s k) ∧
    (∃ (s : State), ∃ (k : Nat), ∃ (peer : PeerChain), k < 6 ∧ let st := s.getF F.FAB_PSTAT_STATE k; st = 4 ∧ s.chainOk peer = false) ∧
    (∃ (s : State), ∃ (k : Nat), k < 6 ∧ let st := s.getF F.FAB_PSTAT_STATE k; 1 ≤ st ∧ st ≤ 4) ∧
    (∃ (s : State), ∃ (k : Nat), k < 6 ∧ let st := s.getF F.FAB_PSTAT_STATE k; 1 ≤ st ∧ st ≤ 4 ∧ (s.port k).attempts < 2) ∧
    (∃ (s : State), ∃ (k : Nat), k < 6 ∧ let st := s.getF F.FAB_PSTAT_STATE k; 1 ≤ st ∧ st ≤ 4 ∧ 2 ≤ (s.port k).attempts) ∧
    (∃ (s : State), ∃ (k : Nat), k < 6 ∧ let st := s.getF F.FAB_PSTAT_STATE k; st = 6 ∧ s.runningParts = []) :=
  ⟨⟨wPort 2 1, 2, by decide +kernel⟩,
   ⟨wPort 2 2, 2, 0xFFFF, by decide +kernel⟩,
   ⟨wPort 2 2, 2, 0xF0F7, 1, 3, [], by decide +kernel⟩,
   ⟨wPort 2 2, 2, 0x7FFF, 0, 1, [2], by decide +kernel⟩,
   ⟨wPort 1 3, 1, 1, (4, 2, 1), by decide +kernel⟩,
   ⟨wPort 1 3, 1, 1, (4, 2, 1), by decide +kernel⟩,
   ⟨(wPort 0 3).putF F.FAB_CFG_X 0 2, 0, 1, (4, 2, 1), by decide +kernel⟩,
   ⟨wPort 0 3, 0, 1, (4, 2, 2), by decide +kernel⟩,
   ⟨wPort 0 3, 0, 4, (4, 2, 1), by decide +kernel⟩,
   ⟨wPort 0 4, 0, wPeer, by decide +kernel⟩,
   ⟨((wPort 0 4).putF F.FAB_CFG_X 0 1).putF F.FAB_PSTAT_FAR_POS 0 0, 0, wPeer, by decide +kernel⟩,
   ⟨wPort 0 4, 0, { wPeer with exchOk := false }, by decide +kernel⟩,
   ⟨wTried 1 0, 2, by decide +kernel⟩,
   ⟨wTried 4 1, 2, by decide +kernel⟩,
   ⟨wTried 4 2, 2, by decide +kernel⟩,
   ⟨wPort 2 6, 2, by decide +kernel⟩⟩
theorem witness_PortsGoDown :
    (∃ (s : State), ∃ (k : Nat), k < 6 ∧ s.runningParts = [] ∧ Open s .pf (F.FAB_PCTRL_RETRAIN.off k)) ∧
    (∃ (s : State), ∃ (k : Nat), k < 6 ∧ s.runningParts = [] ∧ let st := s.getF F.FAB_PSTAT_STATE k; Open s .pf (F.FAB_PCTRL_RETRAIN.off k) ∧ st = 0) ∧
    (∃ (s : State), ∃ (k : Nat), k < 6 ∧ s.runningParts = [] ∧ let st := s.getF F.FAB_PSTAT_STATE k; Open s .pf (F.FAB_PCTRL_RETRAIN.off k) ∧ (st = 5 ∨ st = 6)) ∧
    (∃ (s : State), ∃ (k : Nat), k < 6 ∧ s.runningParts = [] ∧ let st := s.getF F.FAB_PSTAT_STATE k; Open s .pf (F.FAB_PCTRL_RETRAIN.off k) ∧ 1 ≤ st ∧ (st ≤ 4 ∨ st = 7)) ∧
    (∃ (s : State), ∃ (k : Nat), k < 6 ∧ s.runningParts = [] ∧ let st := s.getF F.FAB_PSTAT_STATE k; st = 5) ∧
    (∃ (s : State), ∃ (k : Nat), ∃ (lanes : Nat), k < 6 ∧ s.runningParts = [] ∧ let st := s.getF F.FAB_PSTAT_STATE k; st = 5 ∧ (State.goodGroups (s.getF F.FAB_PSTAT_LANES k &&& (0xFFFF - lanes % 0x10000))).length < 2) ∧
    (∃ (s : State), ∃ (k : Nat), k < 6 ∧ s.runningParts = [] ∧ let st := s.getF F.FAB_PSTAT_STATE k; st = 6 ∧ Quiet s k) ∧
    (∃ (s : State), ∃ (k : Nat), k < 6 ∧ s.runningParts = [] ∧ let st := s.getF F.FAB_PSTAT_STATE k; (st = 5 ∨ st = 6)) :=
  ⟨⟨wPort 2 0, 2, by decide +kernel⟩,
   ⟨wPort 2 0, 2, by decide +kernel⟩,
   ⟨wPort 2 5, 2, by decide +kernel⟩,
   ⟨wPort 2 7, 2, by decide +kernel⟩,
   ⟨wPort 2 5, 2, by decide +kernel⟩,
   ⟨wPort 2 5, 2, 0x1110, by decide +kernel⟩,
   ⟨wPort 2 6, 2, by decide +kernel⟩,
   ⟨wPort 2 6, 2, by decide +kernel⟩⟩
theorem witness_RetryAndSeals :
    (∃ (s : State), ∃ (k : Nat), ∃ (seq : Nat), ∃ (i : Nat), k < 6 ∧ s.portUp k = true ∧ Quiet s k ∧ let x := s.port k; x.retry.findIdx? (·.flit.seq = seq % 4096) = some i ∧ (∀ f ∈ x.retry.drop i, f.resent + 1 < s.retryLimit k)) ∧
    (∃ (s : State), ∃ (k : Nat), ∃ (f : TxFlit), ∃ (rest : List TxFlit), k < 6 ∧ s.portUp k = true ∧ Quiet s k ∧ let x := s.port k; x.retry = f :: rest ∧ (∀ f ∈ x.retry, f.resent + 1 < s.retryLimit k)) ∧
    (∃ (s : State), ∃ (k : Nat), ∃ (seq : Nat), ∃ (i : Nat), k < 6 ∧ s.portUp k = true ∧ Quiet s k ∧ let x := s.port k; x.retry.findIdx? (·.flit.seq = seq % 4096) = some i) ∧
    (∃ (s : State), ∃ (k : Nat), k < 6 ∧ s.portUp k = true ∧ Quiet s k) ∧
    (∃ (s : State), ∃ (k : Nat), ∃ (seq : Nat), ∃ (count : Nat), k < 6 ∧ s.portUp k = true ∧ Quiet s k ∧ let x := s.port k; seq % 4096 = x.rxNext ∧ count ≤ 256) ∧
    (∃ (s : State), ∃ (k : Nat), ∃ (seq : Nat), k < 6 ∧ s.portUp k = true ∧ Quiet s k ∧ let x := s.port k; seq % 4096 ≠ x.rxNext) ∧
    (∃ (s : State), ∃ (k : Nat), ∃ (seq : Nat), ∃ (g : Nat), ∃ (count : Nat), ∃ (tag : Bool), k < 6 ∧ s.portUp k = true ∧ Quiet s k ∧ let x := s.port k; seq % 4096 = x.rxNext ∧ s.runningParts = [] ∧ (tag = false ∨ g ≠ x.groupRx ∨ 256 < count)) ∧
    (∃ (s : State), ∃ (k : Nat), ∃ (seq : Nat), ∃ (g : Nat), ∃ (count : Nat), ∃ (tag : Bool), k < 6 ∧ s.portUp k = true ∧ Quiet s k ∧ let x := s.port k; seq % 4096 = x.rxNext ∧ s.runningParts = [] ∧ (tag = false ∨ g ≠ x.groupRx ∨ 256 < count)) :=
  ⟨⟨wRetry, 1, 4096, 1, by decide +kernel⟩,
   ⟨wRetry, 1, { flit := wFlit 4095, resent := 0 }, [{ flit := wFlit 0, resent := 1 }], by decide +kernel⟩,
   ⟨wRetry, 1, 4095, 0, by decide +kernel⟩,
   ⟨wRetry, 1, by decide +kernel⟩,
   ⟨wRetry, 1, 7, 256, by decide +kernel⟩,
   ⟨wRetry, 1, 8, by decide +kernel⟩,
   ⟨wRetry, 1, 7, 3, 5, false, by decide +kernel⟩,
   ⟨wRetry, 1, 7, 4, 5, true, by decide +kernel⟩⟩
theorem witness_FlitsReadBack :
    (∃ (f : Flit), f.type < 8 ∧ f.vc < 8 ∧ f.seq < 4096 ∧ f.ack < 4096 ∧ f.ak < 4 ∧ f.body.length = 248) ∧
    (∃ (f : Flit), f.type < 8 ∧ f.vc < 8 ∧ f.seq < 4096 ∧ f.ack < 4096 ∧ f.ak < 4 ∧ f.body.length = 248) ∧
    (∃ (h : MsgHdr), ∃ (n : Nat), h.dest < 2 ^ 17 ∧ h.src < 2 ^ 17 ∧ h.kind < 256 ∧ h.part < 256 ∧ h.attempt < 256 ∧ h.step < 2 ^ 64 ∧ h.addr < 2 ^ 48 ∧ h.token < 2 ^ 64 ∧ h.task < 2 ^ 24 ∧ n < 2 ^ 32) ∧
    (∃ (h : MsgHdr), ∃ (n : Nat), h.dest < 2 ^ 17 ∧ h.src < 2 ^ 17 ∧ h.kind < 256 ∧ h.part < 256 ∧ h.attempt < 256 ∧ h.step < 2 ^ 64 ∧ h.addr < 2 ^ 48 ∧ h.token < 2 ^ 64 ∧ h.task < 2 ^ 24 ∧ n < 2 ^ 32) :=
  ⟨⟨{ wFlit 4095 with ack := 4095, ak := 3, vc := 7, type := 7 }, by decide +kernel⟩,
   ⟨{ wFlit 4095 with ack := 4095, ak := 3, vc := 7, type := 7 }, by decide +kernel⟩,
   ⟨{ dest := 0x1FFFF, src := 3, kind := 255, part := 7, attempt := 9, next := true, step := 5, addr := 2 ^ 48 - 1, token := 2 ^ 63, task := 9 }, 65536, by decide +kernel⟩,
   ⟨{ dest := 0x1FFFF, src := 3, kind := 255, part := 7, attempt := 9, next := true, step := 5, addr := 2 ^ 48 - 1, token := 2 ^ 63, task := 9 }, 65536, by decide +kernel⟩⟩
/-! ### group 16 -/
def wHostPlan : Plan := { wPlan with rankCount := 8, options := 2 }
def wHost (f : Part → Part) : State := ((wRun wHostPlan w2).putF F.FAB_HSTAT_MIRROR 0 2).modPart 0 f
def wFar (f : Part → Part) : State := (wHost f).putF F.PLN_BEAT_STATUS_CUR_MASTER 0 3 |>.putF F.PLN_BN_BN 0 100
def wLog : DeltaLog := { rank := 1, step := 4, bytes := 80, written := [(0x1010, [1, 2, 3])], ended := some 80, committed := true, applied := false }
def wLog6 : DeltaLog := { rank := 1, step := 6, bytes := 40, written := [], ended := some 40, committed := false, applied := false }
def wCoord (x : Part) (qs : List Nat) (d : List (Nat × Nat)) (b : Option Nat) : Part := { x with coord := { failed := qs, firstAt := b, hepoch := 3, resumeBn := none, downPorts := d, doubts := [] } }
def wRes (h b : Nat) (ok : Bool) : ResumeMsg := { hepoch := h, resumeBn := b, step := 0, entries := [{ rank := 5, host := 4 }], digestsAgree := ok }
def wDoubt : State := (wFar fun x => { x with okSent := true, waiting := true }).putF F.PLN_COMMIT_STATUS_DSTATE 0 3

theorem witness_DeltasReachTheMirror :
    (∃ (s : State), ∃ (p : Nat), ∃ (pl : Plan), p < 8 ∧ s.plan p = some pl ∧ s.resilient p = true ∧ s.stepMoves p = true ∧ (s.part p).committed = false ∧ (s.ranksHere p).contains (s.homeRank p) = true ∧ s.getF F.FAB_HSTAT_MIRROR 0 = 2 ∧ (s.part p).mirrorAcked = false ∧ s.hostOf p (s.partnerOf p (s.homeRank p)) ≠ s.pos ∧ (∀ k, k < 6 → (s.port k).absent = [])) ∧
    (∃ (s : State), ∃ (p : Nat), ∃ (rank : Nat), p < 8 ∧ s.resilient p = true ∧ (s.mirroredHere p).contains rank = true) ∧
    (∃ (s : State), ∃ (p : Nat), ∃ (rank : Nat), p < 8 ∧ s.resilient p = true ∧ (s.mirroredHere p).contains rank = true) ∧
    (∃ (s : State), ∃ (p : Nat), p < 8 ∧ (s.part p).active = true ∧ s.rolling p = false) ∧
    (∃ (s : State), ∃ (p : Nat), ∃ (rank : Nat), ∃ (n : Nat), p < 8 ∧ (s.part p).active = true ∧ s.rolling p = false ∧ rank = s.homeRank p ∧ n = s.curStep p) ∧
    (∃ (s : State), ∃ (p : Nat), ∃ (rank : Nat), ∃ (n : Nat), p < 8 ∧ (s.part p).active = true ∧ s.rolling p = false ∧ ¬ (rank = s.homeRank p ∧ n = s.curStep p)) ∧
    (∃ (s : State), ∃ (p : Nat), ∃ (a : Nat), ∃ (b : List Byte), ∃ (l : DeltaLog), ∃ (ls : List DeltaLog), p < 8 ∧ (s.part p).logs = l :: ls ∧ l.committed = true ∧ l.applied = false ∧ (∀ v ∈ ls, v.rank = l.rank → v.committed = false ∧ v.step ≠ l.step) ∧ l.written = [(a, b)] ∧ a % 256 + b.length ≤ 256) :=
  ⟨⟨wHost id, 0, wHostPlan, by decide +kernel⟩,
   ⟨wHost fun x => { x with logs := [wLog] }, 0, 1, by decide +kernel⟩,
   ⟨wHost fun x => { x with logs := [wLog, wLog6] }, 0, 1, by decide +kernel⟩,
   ⟨wHost id, 0, by decide +kernel⟩,
   ⟨wHost id, 0, 0, 0, by decide +kernel⟩,
   ⟨wHost id, 0, 0, 1, by decide +kernel⟩,
   ⟨wHost fun x => { x with logs := [wLog, wLog6] }, 0, 0x1010, [1, 2, 3], wLog, [wLog6], by decide +kernel⟩⟩
theorem witness_CoordinatorDecides :
    (∃ (p : Nat), p < 8) ∧
    (∃ (s : State), ∃ (p : Nat), p < 8 ∧ s.inCommitWindow p = false ∧ s.isCoord = false) ∧
    (∃ (s : State), ∃ (p : Nat), p < 8 ∧ s.isCoord = true ∧ s.resumePending p = false) ∧
    (∃ (s : State), ∃ (p : Nat), p < 8 ∧ s.inCommitWindow p = true ∧ s.getF F.PLN_COMMIT_STATUS_DSTATE p = 0 ∧ (s.part p).okSent = true) ∧
    (∃ (s : State), ∃ (p : Nat), ∃ (b : Nat), p < 8 ∧ s.isCoord = true ∧ (s.part p).coord.firstAt = some b ∧ s.bn < b + s.getF F.FAB_HCTRL_GATHER 0) ∧
    (∃ (s : State), ∃ (p : Nat), ∃ (b : Nat), p < 8 ∧ s.isCoord = true ∧ (s.part p).coord.firstAt = some b ∧ b + s.getF F.FAB_HCTRL_GATHER 0 ≤ s.bn) ∧
    (∃ (s : State), ∃ (p : Nat), ∃ (b : Nat), p < 8 ∧ s.isCoord = true ∧ (s.part p).coord.firstAt = some b ∧ b + s.getF F.FAB_HCTRL_GATHER 0 ≤ s.bn) ∧
    (∃ (s : State), ∃ (p : Nat), ∃ (e : Nat), p < 8 ∧ s.isCoord = true ∧ e = (s.part p).coord.hepoch) ∧
    (∃ (s : State), ∃ (p : Nat), p < 8 ∧ s.isCoord = true) ∧
    (∃ (s : State), ∃ (p : Nat), ∃ (q : Nat), ∃ (k : Nat), p < 8 ∧ s.isCoord = true ∧ (s.part p).coord.downPorts = [(q, k)] ∧ (s.part p).coord.firstAt = none ∧ s.resumePending p = false) ∧
    (∃ (s : State), ∃ (p : Nat), p < 8 ∧ s.isCoord = true) :=
  ⟨⟨0, by decide +kernel⟩,
   ⟨wFar id, 0, by decide +kernel⟩,
   ⟨wHost fun x => wCoord x [2] [] (some 0), 0, by decide +kernel⟩,
   ⟨(wHost fun x => { x with okSent := true }).putF F.PLN_SPOS_POS 0 136, 0, by decide +kernel⟩,
   ⟨(wHost fun x => wCoord x [5] [] (some 0)).putF F.FAB_HCTRL_GATHER 0 8, 0, 0, by decide +kernel⟩,
   ⟨(wHost fun x => wCoord x [5] [] (some 0)).putF F.FAB_HCTRL_GATHER 0 8 |>.putF F.PLN_BN_BN 0 8, 0, 0, by decide +kernel⟩,
   ⟨(wHost fun x => wCoord x [5, 4] [] (some 0)).putF F.FAB_HCTRL_GATHER 0 8 |>.putF F.PLN_BN_BN 0 8, 0, 0, by decide +kernel⟩,
   ⟨wHost fun x => wCoord x [5] [] none, 0, 3, by decide +kernel⟩,
   ⟨wHost id, 0, by decide +kernel⟩,
   ⟨wHost fun x => wCoord x [] [(5, 2)] none, 0, 5, 2, by decide +kernel⟩,
   ⟨wHost id, 0, by decide +kernel⟩⟩
theorem witness_HostingMessages :
    (∃ (s : State), ∃ (p : Nat), ∃ (r : ResumeMsg), p < 8 ∧ ((s.part p).active = false ∨ r.hepoch ≤ s.epochHeld p)) ∧
    (∃ (s : State), ∃ (p : Nat), ∃ (r : ResumeMsg), p < 8 ∧ ((s.part p).active = false ∨ r.hepoch ≤ s.epochHeld p)) ∧
    (∃ (s : State), ∃ (p : Nat), ∃ (r : ResumeMsg), p < 8 ∧ (s.part p).active = true ∧ s.epochHeld p < r.hepoch ∧ r.resumeBn < s.bn ∧ s.isCoord = false) ∧
    (∃ (s : State), ∃ (p : Nat), ∃ (r : ResumeMsg), p < 8 ∧ (s.part p).active = true ∧ s.epochHeld p < r.hepoch ∧ s.bn ≤ r.resumeBn ∧ (∃ e ∈ r.entries, e.host = s.homePos p e.rank)) ∧
    (∃ (s : State), ∃ (p : Nat), ∃ (r : ResumeMsg), p < 8 ∧ (s.part p).active = true ∧ s.epochHeld p < r.hepoch ∧ s.bn ≤ r.resumeBn ∧ (∀ e ∈ r.entries, e.host ≠ s.homePos p e.rank) ∧ s.rolling p = true ∧ (s.getF F.PLN_COMMIT_STATUS_DSTATE p ≠ 1 ∧ s.getF F.PLN_COMMIT_STATUS_DSTATE p ≠ 3)) ∧
    (∃ (s : State), ∃ (p : Nat), ∃ (r : ResumeMsg), p < 8 ∧ (s.part p).active = true ∧ s.epochHeld p < r.hepoch ∧ s.bn ≤ r.resumeBn ∧ (∀ e ∈ r.entries, e.host ≠ s.homePos p e.rank) ∧ s.rolling p = true ∧ (s.getF F.PLN_COMMIT_STATUS_DSTATE p ≠ 1 ∧ s.getF F.PLN_COMMIT_STATUS_DSTATE p ≠ 3) ∧ r.digestsAgree = true) ∧
    (∃ (s : State), ∃ (p : Nat), ∃ (r : ResumeMsg), p < 8 ∧ (s.part p).active = true ∧ s.epochHeld p < r.hepoch ∧ s.bn ≤ r.resumeBn ∧ (∀ e ∈ r.entries, e.host ≠ s.homePos p e.rank) ∧ s.rolling p = true ∧ (s.getF F.PLN_COMMIT_STATUS_DSTATE p ≠ 1 ∧ s.getF F.PLN_COMMIT_STATUS_DSTATE p ≠ 3) ∧ r.digestsAgree = false) ∧
    (∃ (s : State), ∃ (p : Nat), p < 8 ∧ (s.part p).active = false) ∧
    (∃ (s : State), ∃ (p : Nat), p < 8 ∧ (s.part p).active = true) ∧
    (∃ (s : State), ∃ (p : Nat), p < 8 ∧ (s.part p).active = true) ∧
    (∃ (s : State), ∃ (p : Nat), p < 8 ∧ ((s.part p).active = false ∨ (s.part p).waiting = false)) ∧
    (∃ (s : State), ∃ (p : Nat), p < 8 ∧ ((s.part p).active = false ∨ (s.part p).waiting = false)) ∧
    (∃ (s : State), ∃ (p : Nat), p < 8 ∧ (s.part p).active = true ∧ (s.part p).waiting = true ∧ s.rolling p = true ∧ (s.getF F.PLN_COMMIT_STATUS_DSTATE p ≠ 1 ∧ s.getF F.PLN_COMMIT_STATUS_DSTATE p ≠ 3)) ∧
    (∃ (s : State), ∃ (p : Nat), ∃ (n : Nat), p < 8 ∧ (s.part p).active = true ∧ (s.part p).waiting = true ∧ s.getF F.PLN_COMMIT_STATUS_DSTATE p = 3 ∧ n = s.curStep p ∧ (s.part p).rerunBn = none ∧ (s.part p).stopAtRollback = false) ∧
    (∃ (s : State), ∃ (f : Func), ∃ (p : Nat), p < 8 ∧ Open s f 0x600100) ∧
    (∃ (s : State), ∃ (f : Func), ∃ (p : Nat), ∃ (v : Word), p < 8 ∧ Open s f 0x600100 ∧ getBits v 0 0 = 1 ∧ (s.ranksHere p).contains (s.homeRank p) = false) ∧
    (∃ (s : State), ∃ (f : Func), ∃ (p : Nat), ∃ (v : Word), p < 8 ∧ Open s f 0x600100 ∧ ¬ (getBits v 0 0 = 1 ∧ (s.ranksHere p).contains (s.homeRank p) = false)) :=
  ⟨⟨w2, 0, wRes 1 100 true, by decide +kernel⟩,
   ⟨wFar id, 0, wRes 0 100 true, by decide +kernel⟩,
   ⟨wFar id, 0, wRes 1 99 true, by decide +kernel⟩,
   ⟨wFar id, 0, { wRes 1 100 true with entries := [{ rank := 5, host := 4 }, { rank := 2, host := 2 }] }, by decide +kernel⟩,
   ⟨wFar fun x => { x with rollbacks := 1, rerunBn := some 90 }, 0, wRes 1 100 true, by decide +kernel⟩,
   ⟨wFar fun x => { x with rollbacks := 1, rerunBn := some 90, restoring := true }, 0, wRes 1 100 true, by decide +kernel⟩,
   ⟨wFar fun x => { x with rollbacks := 1, rerunBn := some 90 }, 0, wRes 1 100 false, by decide +kernel⟩,
   ⟨w2, 0, by decide +kernel⟩,
   ⟨wFar id, 0, by decide +kernel⟩,
   ⟨wFar id, 0, by decide +kernel⟩,
   ⟨w2, 0, by decide +kernel⟩,
   ⟨wFar id, 0, by decide +kernel⟩,
   ⟨wFar fun x => { x with rollbacks := 1, waiting := true, restoring := true }, 0, by decide +kernel⟩,
   ⟨wDoubt, 0, 0, by decide +kernel⟩,
   ⟨wFar id, .pf, 0, by decide +kernel⟩,
   ⟨wFar fun x => { x with hosts := [(0, 3)] }, .pf, 0, 0x20301, by decide +kernel⟩,
   ⟨wFar id, .pf, 0, 0x20301, by decide +kernel⟩⟩
/-! ### group 17 -/
def wJob (st pos : Nat) (f : Part → Part) : State :=
  (((wRun { wPlan with rankCount := 8 } w2).putF F.PLN_COMMIT_STATUS_DSTATE 0 st).putF F.PLN_SPOS_POS 0 pos |>.putF F.PLN_STEP_STEP 0 4 |>.putF F.PLN_BN_BN 0 1000).modPart 0 f
def wAlone (st pos : Nat) (f : Part → Part) : State :=
  ((wRun wPlan w1).putF F.PLN_COMMIT_STATUS_DSTATE 0 st |>.putF F.PLN_SPOS_POS 0 pos |>.putF F.PLN_STEP_STEP 0 4 |>.putF F.PLN_BN_BN 0 1000).modPart 0 f
def wRep (step status : Nat) (next : Bool) : CommitReport := { step := step, attempt := 0, status := status, cause := 2, stage := 0, count := 1, faultBn := 990, origin := 3, task := 7, next := next, member := 1 }
def wOwn : CommitReport := { step := 4, attempt := 0, status := 0, cause := 0, stage := 2, count := 2, faultBn := 0, origin := 0, task := 0, next := false, member := 0 }
def wCommit (stop : Bool) : State :=
  ((wAlone 1 199 fun x => { x with stopAfter := stop, done := [0], logs := [{ rank := 1, step := 4, bytes := 0, written := [], ended := some 0, committed := false, applied := false }] }).modOch 2 0 fun q => { q with journal := [{ slot := 0x2000, slotBytes := List.replicate 64 1, state := 0x3000, stateBytes := List.replicate 64 2, table := 0, dflt := false, step := 4, seq := 1, spilled := false }] }).modQueue 1 fun q => { q with shadow := [(0, 5)], wState := 1, wStep := 4 }
def wLast : State :=
  (((wRun { wPlan with rankCount := 2 } ((w1.putF F.FAB_CFG_Z_M1 0 1).putF F.FAB_PSTAT_STATE 4 5 |>.putF F.FAB_PSTAT_STATE 5 5)).putF F.PLN_SPOS_POS 0 150).putF F.PLN_STEP_STEP 0 4).modPart 0 fun x => { x with okSent := true, sentStage := 2, reports := [{ wOwn with count := 1 }] }

theorem witness_CommitReportsGoOut :
    (∃ (s : State), ∃ (p : Nat), p < 8 ∧ s.mayReport p = false) ∧
    (∃ (s : State), ∃ (p : Nat), p < 8 ∧ s.mayReport p = true ∧ (s.part p).reports = [] ∧ (∀ d, d < 3 → ∀ q ∈ s.ringPeers p d, Reaches s q)) ∧
    (∃ (s : State), ∃ (p : Nat), p < 8 ∧ s.mayReport p = true ∧ (s.part p).reports = [] ∧ (∀ d, d < 3 → ∀ q ∈ s.ringPeers p d, Reaches s q) ∧ (∀ d, d < 3 → s.ringPeers p d = []) ∧ s.liveCount p = 1) ∧
    (∃ (s : State), ∃ (p : Nat), p < 8 ∧ s.mayReport p = true ∧ (s.part p).reports = [] ∧ (∀ d, d < 3 → ∀ q ∈ s.ringPeers p d, Reaches s q) ∧ s.ringPeers p 0 ≠ []) :=
  ⟨⟨wJob 0 135 id, 0, by decide +kernel⟩,
   ⟨wJob 0 136 id, 0, by decide +kernel⟩,
   ⟨wAlone 0 136 id, 0, by decide +kernel⟩,
   ⟨wJob 0 199 id, 0, by decide +kernel⟩⟩
theorem witness_CommitReportsComeIn :
    (∃ (s : State), ∃ (p : Nat), ∃ (r : CommitReport), p < 8 ∧ (s.part p).active = true ∧ r.stage < 3 ∧ r.member < s.ringSize r.stage ∧ r.member ≠ s.coord r.stage ∧ ReportWay s r ∧ (r.next = false ∧ r.step ≠ s.curStep p)) ∧
    (∃ (s : State), ∃ (p : Nat), ∃ (r : CommitReport), p < 8 ∧ (s.part p).active = true ∧ r.stage < 3 ∧ r.member < s.ringSize r.stage ∧ r.member ≠ s.coord r.stage ∧ ReportWay s r ∧ let now : Bool := r.step = s.curStep p && !r.next && r.attempt = s.attemptNow p % 256; (now = true ∨ (r.next = true ∧ r.step = s.curStep p + 1))) ∧
    (∃ (s : State), ∃ (p : Nat), ∃ (r : CommitReport), p < 8 ∧ (s.part p).active = true ∧ r.stage < 3 ∧ r.member < s.ringSize r.stage ∧ r.member ≠ s.coord r.stage ∧ ReportWay s r ∧ let now : Bool := r.step = s.curStep p && !r.next && r.attempt = s.attemptNow p % 256; (now = true ∨ (r.next = true ∧ r.step = s.curStep p + 1))) ∧
    (∃ (s : State), ∃ (p : Nat), ∃ (r : CommitReport), p < 8 ∧ (s.part p).active = true ∧ r.stage < 3 ∧ r.member < s.ringSize r.stage ∧ r.member ≠ s.coord r.stage ∧ ReportWay s r ∧ let now : Bool := r.step = s.curStep p && !r.next && r.attempt = s.attemptNow p % 256; (now = true ∨ (r.next = true ∧ r.step = s.curStep p + 1))) ∧
    (∃ (s : State), ∃ (p : Nat), ∃ (r : CommitReport), p < 8 ∧ (s.part p).active = true ∧ r.stage < 3 ∧ r.member < s.ringSize r.stage ∧ r.member ≠ s.coord r.stage ∧ ReportWay s r ∧ let now : Bool := r.step = s.curStep p && !r.next && r.attempt = s.attemptNow p % 256; (now = true ∨ (r.next = true ∧ r.step = s.curStep p + 1)) ∧ now = true ∧ r.status = 0 ∧ (s.part p).okSent = false ∧ (s.part p).reports = []) ∧
    (∃ (s : State), ∃ (p : Nat), ∃ (r : CommitReport), p < 8 ∧ (s.part p).active = true ∧ r.stage < 3 ∧ r.member < s.ringSize r.stage ∧ r.member ≠ s.coord r.stage ∧ ReportWay s r ∧ let now : Bool := r.step = s.curStep p && !r.next && r.attempt = s.attemptNow p % 256; (now = true ∨ (r.next = true ∧ r.step = s.curStep p + 1)) ∧ now = true ∧ r.status ≠ 0 ∧ s.getF F.PLN_COMMIT_STATUS_DSTATE p = 1 ∧ (s.part p).reports = []) ∧
    (∃ (s : State), ∃ (p : Nat), ∃ (r : CommitReport), p < 8 ∧ (s.part p).active = true ∧ r.stage < 3 ∧ r.member < s.ringSize r.stage ∧ r.member ≠ s.coord r.stage ∧ ReportWay s r ∧ let now : Bool := r.step = s.curStep p && !r.next && r.attempt = s.attemptNow p % 256; (now = true ∨ (r.next = true ∧ r.step = s.curStep p + 1)) ∧ now = true ∧ r.status = 1 ∧ s.getF F.PLN_COMMIT_STATUS_DSTATE p ≠ 1 ∧ (s.part p).reports = [] ∧ s.rolling p = false ∧ (s.part p).stopAtRollback = false) ∧
    (∃ (s : State), ∃ (p : Nat), ∃ (r : CommitReport), p < 8 ∧ (s.part p).active = true ∧ r.stage < 3 ∧ r.member < s.ringSize r.stage ∧ r.member ≠ s.coord r.stage ∧ ReportWay s r ∧ let now : Bool := r.step = s.curStep p && !r.next && r.attempt = s.attemptNow p % 256; (now = true ∨ (r.next = true ∧ r.step = s.curStep p + 1)) ∧ r.next = true ∧ r.step = s.curStep p + 1 ∧ r.status ≠ 0 ∧ (s.part p).reports = [] ∧ (s.part p).nextFault = none) :=
  ⟨⟨wJob 0 150 id, 0, wRep 3 0 false, by decide +kernel⟩,
   ⟨wJob 0 150 id, 0, wRep 4 0 false, by decide +kernel⟩,
   ⟨wJob 0 150 id, 0, wRep 5 1 true, by decide +kernel⟩,
   ⟨wLast, 0, { wRep 4 0 false with stage := 2, cause := 0 }, by decide +kernel⟩,
   ⟨wJob 0 150 id, 0, wRep 4 0 false, by decide +kernel⟩,
   ⟨wJob 1 150 id, 0, wRep 4 1 false, by decide +kernel⟩,
   ⟨wJob 0 150 fun x => { x with done := [0], okSent := true }, 0, wRep 4 1 false, by decide +kernel⟩,
   ⟨wJob 0 150 id, 0, wRep 5 1 true, by decide +kernel⟩⟩
theorem witness_RerunBegins :
    (∃ (s : State), ∃ (p : Nat), p < 8 ∧ ((s.part p).active = false ∨ (s.part p).waiting = true ∨ (s.part p).rerunBn = none ∨ (s.part p).rerunBn.any (s.bn < ·) = true)) ∧
    (∃ (s : State), ∃ (p : Nat), p < 8 ∧ ((s.part p).active = false ∨ (s.part p).waiting = true ∨ (s.part p).rerunBn = none ∨ (s.part p).rerunBn.any (s.bn < ·) = true)) ∧
    (∃ (s : State), ∃ (p : Nat), ∃ (o : Nat), p < 8 ∧ (s.part p).active = true ∧ (s.part p).waiting = false ∧ (s.part p).rerunBn = some o ∧ o ≤ s.bn) :=
  ⟨⟨wJob 0 0 id, 0, by decide +kernel⟩,
   ⟨wJob 0 50 fun x => { x with rerunBn := some 1001 }, 0, by decide +kernel⟩,
   ⟨wJob 0 50 fun x => { x with rerunBn := some 1000, rollbacks := 1 }, 0, 1000, by decide +kernel⟩⟩
theorem witness_CommitMakesFinal :
    (∃ (s : State), ∃ (p : Nat), p < 8 ∧ (s.getF F.PLN_COMMIT_STATUS_DSTATE p ≠ 1 ∨ s.getF F.PLN_SPOS_POS p + 1 ≠ (s.part p).stepLen ∨ (s.part p).active = false ∨ (s.part p).committed = true)) ∧
    (∃ (s : State), ∃ (p : Nat), ∃ (pl : Plan), p < 8 ∧ s.plan p = some pl ∧ (s.part p).active = true ∧ (s.part p).committed = false ∧ s.getF F.PLN_COMMIT_STATUS_DSTATE p = 1 ∧ s.getF F.PLN_SPOS_POS p + 1 = (s.part p).stepLen ∧ (s.part p).nextFault = none ∧ (s.part p).pendResume = none ∧ (s.part p).resumeStep = false ∧ s.curStep p + 1 < 2 ^ 64) ∧
    (∃ (s : State), ∃ (p : Nat), ∃ (pl : Plan), p < 8 ∧ s.plan p = some pl ∧ (s.part p).active = true ∧ (s.part p).committed = false ∧ s.getF F.PLN_COMMIT_STATUS_DSTATE p = 1 ∧ s.getF F.PLN_SPOS_POS p + 1 = (s.part p).stepLen ∧ (s.part p).nextFault = none ∧ (s.part p).pendResume = none ∧ (s.part p).resumeStep = false ∧ s.curStep p + 1 < 2 ^ 64 ∧ pl.params.clips = [] ∧ s.ranksHere p = [s.homeRank p]) ∧
    (∃ (s : State), ∃ (p : Nat), ∃ (pl : Plan), p < 8 ∧ s.plan p = some pl ∧ (s.part p).active = true ∧ (s.part p).committed = false ∧ s.getF F.PLN_COMMIT_STATUS_DSTATE p = 1 ∧ s.getF F.PLN_SPOS_POS p + 1 = (s.part p).stepLen ∧ (s.part p).nextFault = none ∧ (s.part p).pendResume = none ∧ (s.part p).resumeStep = false ∧ s.curStep p + 1 < 2 ^ 64 ∧ (s.part p).stopAfter = false) ∧
    (∃ (s : State), ∃ (p : Nat), ∃ (pl : Plan), p < 8 ∧ s.plan p = some pl ∧ (s.part p).active = true ∧ (s.part p).committed = false ∧ s.getF F.PLN_COMMIT_STATUS_DSTATE p = 1 ∧ s.getF F.PLN_SPOS_POS p + 1 = (s.part p).stepLen ∧ (s.part p).nextFault = none ∧ (s.part p).pendResume = none ∧ (s.part p).resumeStep = false ∧ s.curStep p + 1 < 2 ^ 64 ∧ (s.part p).stopAfter = true) :=
  ⟨⟨wAlone 0 199 id, 0, by decide +kernel⟩,
   ⟨wCommit false, 0, wPlan, by decide +kernel⟩,
   ⟨wCommit false, 0, wPlan, by decide +kernel⟩,
   ⟨wCommit false, 0, wPlan, by decide +kernel⟩,
   ⟨wCommit true, 0, wPlan, by decide +kernel⟩⟩
/-! ### group 18 -/
def wOwned : State := ((w1.putF F.PRT_GRAN_OWNERS 0 0xFFFFFFFFFFFFF1FF).putF F.PRT_QUOTA_HBM_Q 2 0x3FF).putF F.PRT_QUOTA_UMB_Q 2 0x7FF |>.putF F.PRT_GRAN_OWNERS 36 0x222FFFFFFFFFFFFF
def wWipes (all : Bool) (gs : List Nat) : State := { ((List.range 20).foldl (fun s u => s.modUnit u fun x => { x with active := [(0, 2)] }) w1).modPart 2 fun x => { x with wipeAll := all, wipeGrans := gs } with mem := [(0x4000_0010, 7)] }
def wDoe (st : Nat) : State := { w1 with ide := [{ id := 3, sets := [(0, 5)], tx := none, stage := st, pendingKeys := 9 }] }
def wOwner (lc n : Nat) : State := { w1 with ident := { w1.ident with lc := lc, nonce := some 77, slots := List.replicate n ⟨5, true⟩ ++ [⟨6, false⟩] } }
def wCmd : OwnerCmd := { nonce := 77, key := [8], sigOk := true }
def wHead (svn n : Nat) : List Byte := [0x57, 0x4E, 0x58, 0x46, 0x57, 0x49, 0x4D, 0x47] ++ leBytes 2 1 ++ leBytes 2 0x480 ++ leBytes 4 svn ++ leBytes 8 n
def wImgB (svn n : Nat) : List Byte := wHead svn n ++ List.replicate 5356 0
def wImg : List Byte := wImgB 64 5380
def wCold (lc req : Nat) (img : List Byte) : State := { w0.putF F.SEC_REC_CTRL_REQ 0 req with ident := { w0.ident with lc := lc, flash := some img } }
def wRecov (hd : List Byte) : State := { (w1.putF F.GEN_STATUS_READY 0 0).putF F.GEN_STATUS_RECOVERY 0 1 |>.putF F.SEC_FW_LEN_LEN 0 5380 with sram := (hd.zipIdx.filter (·.1 ≠ 0)).map fun c => (c.2, c.1) }
def wBusyFw (img : List Byte) : State := { w1 with ident := { w1.ident with fwBusy := true, counter := 5, fwImage := img } }
def wUmb : State := { ((wRun wPlan w1).putF F.PRT_GRAN_OWNERS 36 0xFFFFFFFFFFFFFFF0) with mem := [(umberBase + 5, 7), (umberBase + 64, 9), (umberBase + 2 ^ 30, 3)] }
def wOwnK : State := { w1 with ident := { w1.ident with lc := 2, nonce := some 77, slots := [⟨shake512 [8], false⟩] } }
def wSecret : State := { wCold 2 0 wImg with ident := { (wCold 2 0 wImg).ident with secret := 5, flashOwner := some [1] } }
theorem filter_range_le (n : Nat) (f : Nat → Bool) : ((List.range n).filter f).length ≤ n :=
  Nat.le_trans (List.length_filter_le _ _) (Nat.le_of_eq List.length_range)
theorem room_hbm (s : State) (p a b : Nat) (h : 576 + 1 ≤ a) (k : 1536 ≤ b) : (s.countUsed p).1 + 1 ≤ a ∧ (s.countUsed p).2 ≤ b := by
  have x := filter_range_le 576 (fun i => decide (s.granOwner i = p))
  have y := filter_range_le 1536 (fun i => decide (s.granOwner (576 + i) = p))
  simp only [State.countUsed]; omega
theorem room_umb (s : State) (p a b : Nat) (h : 576 ≤ a) (k : 1536 + 1 ≤ b) : (s.countUsed p).1 ≤ a ∧ (s.countUsed p).2 + 1 ≤ b := by
  have x := filter_range_le 576 (fun i => decide (s.granOwner i = p))
  have y := filter_range_le 1536 (fun i => decide (s.granOwner (576 + i) = p))
  simp only [State.countUsed]; omega
theorem if_of_lt {n k : Nat} {a b : Prop} (h : n < k) (x : a) : (if n < k then a else b) := by
  rw [if_pos h]; exact x
theorem if_of_ge {n k : Nat} {a b : Prop} (h : ¬ n < k) (x : b) : (if n < k then a else b) := by
  rw [if_neg h]; exact x
theorem le_front {a t : List Byte} {o n : Nat} (h : o + n ≤ a.length) : le (a ++ t) o n = le a o n := by
  unfold le; rw [List.drop_append_of_le_length (by omega), List.take_append_of_le_length (by simp; omega)]
theorem le_map {g : Nat → Byte} {m o n : Nat} (h : o + n ≤ m) : le ((List.range m).map g) o n = leNat ((List.range' o n).map g) := by
  unfold le
  rw [← List.map_drop, ← List.map_take, List.range_eq_range', List.drop_range', List.take_range'_of_length_ge (by omega)]; simp
theorem wHead_len (v n : Nat) : (wHead v n).length = 24 := by simp [wHead]
theorem wImgB_len (v n : Nat) : (wImgB v n).length = 5380 := by rw [wImgB, List.length_append, List.length_replicate, wHead_len]
theorem wImgB_svn (v n : Nat) : imgSvn (wImgB v n) = le (wHead v n) 12 4 := by
  unfold imgSvn wImgB; rw [le_front (by simp [wHead_len])]
theorem wImgB_ok (v n : Nat) (h : ((wHead v n).take 8 = [0x57, 0x4E, 0x58, 0x46, 0x57, 0x49, 0x4D, 0x47] && le (wHead v n) 8 2 = 1 && le (wHead v n) 10 2 = 0x480 && le (wHead v n) 16 8 = 5380 && 1 ≤ le (wHead v n) 12 4 && le (wHead v n) 12 4 ≤ 64) = true) : imgHeaderOk (wImgB v n) = true := by
  unfold imgHeaderOk
  rw [wImgB_len, wImgB_svn]
  unfold wImgB
  rw [List.take_append_of_le_length (by simp [wHead_len]), le_front (by simp [wHead_len]), le_front (by simp [wHead_len]), le_front (by simp [wHead_len])]
  simp only [Bool.and_eq_true, decide_eq_true_eq] at h
  obtain ⟨⟨⟨⟨⟨a, b⟩, c⟩, d⟩, e⟩, f⟩ := h
  simp [a, b, c, d, e, f]
theorem wImg_ok : imgHeaderOk wImg = true := wImgB_ok 64 5380 (by decide +kernel)
theorem wImg4_ok : imgHeaderOk (wImgB 4 5380) = true := wImgB_ok 4 5380 (by decide +kernel)
theorem wImg65_bad : imgHeaderOk (wImgB 65 5380) = false := by
  unfold imgHeaderOk; rw [wImgB_svn, show decide (le (wHead 65 5380) 12 4 ≤ 64) = false by decide +kernel]; simp
theorem wImg_svn : imgSvn wImg = 64 := by unfold wImg; rw [wImgB_svn]; decide +kernel
theorem wImg4_svn : imgSvn (wImgB 4 5380) = 4 := by rw [wImgB_svn]; decide +kernel
theorem wImg_code (s : State) (h : s.ident.counter ≤ 64) : s.imageCode wImg ⟨true, true⟩ = none := by
  unfold State.imageCode
  simp [wImg_ok, wImg_svn, h]
theorem wSram_header (s : State) (hn : s.getF F.SEC_FW_LEN_LEN 0 = 5380) : imgHeaderOk ((List.range (s.getF F.SEC_FW_LEN_LEN 0)).map (mget 0 s.sram)) = (((List.range 8).map (mget 0 s.sram) = [0x57, 0x4E, 0x58, 0x46, 0x57, 0x49, 0x4D, 0x47]) && leNat ((List.range' 8 2).map (mget 0 s.sram)) = 1 && leNat ((List.range' 10 2).map (mget 0 s.sram)) = 0x480 && leNat ((List.range' 16 8).map (mget 0 s.sram)) = 5380 && (1 ≤ leNat ((List.range' 12 4).map (mget 0 s.sram)) && leNat ((List.range' 12 4).map (mget 0 s.sram)) ≤ 64)) := by
  unfold imgHeaderOk imgSvn
  rw [hn, ← List.map_take, List.take_range, le_map (by omega), le_map (by omega), le_map (by omega), le_map (by omega)]
  simp [Bool.and_assoc]
theorem wSram_svn (s : State) (hn : s.getF F.SEC_FW_LEN_LEN 0 = 5380) : imgSvn ((List.range (s.getF F.SEC_FW_LEN_LEN 0)).map (mget 0 s.sram)) = leNat ((List.range' 12 4).map (mget 0 s.sram)) := by
  unfold imgSvn; rw [hn, le_map (by omega)]

theorem witness_PartitionResets :
    (∃ (s : State), ∃ (f : Func), ∃ (p : Nat), ∃ (v : Word), p < 8 ∧ Open s f (F.PRT_RESET_RESET.off p) ∧ getBits v 0 0 = 0) ∧
    (∃ (s : State), ∃ (f : Func), ∃ (p : Nat), ∃ (v : Word), p < 8 ∧ Open s f (F.PRT_RESET_RESET.off p) ∧ getBits v 0 0 = 1) ∧
    (∃ (s : State), ∃ (f : Func), ∃ (p : Nat), ∃ (v : Word), p < 8 ∧ Open s f (F.PRT_RESET_RESET.off p) ∧ getBits v 0 0 = 1) ∧
    (∃ (p : Nat), p < 8) ∧
    (∃ (s : State), ∃ (p : Nat), p < 8 ∧ (s.part p).wipeAll = true ∧ s.wipeMoves p = true) ∧
    (∃ (s : State), ∃ (p : Nat), ∃ (i : Nat), p < 8 ∧ (s.part p).wipeAll = false ∧ (s.part p).wipeGrans = [i] ∧ s.wipeMoves p = true) ∧
    (∃ (s : State), ∃ (p : Nat), s.wipeMoves p = false) ∧
    (∃ (s : State), ∃ (f : Func), ∃ (p : Nat), ∃ (v : Word), p < 8 ∧ Open s f (F.PRT_FRZ_POP_POP.off p) ∧ getBits v 0 0 = 1) :=
  ⟨⟨w1, .pf, 2, 0, by decide +kernel⟩,
   ⟨(wRun wPlan w1), .pf, 0, 1, by decide +kernel⟩,
   ⟨wUmb, .pf, 0, 1, by decide +kernel⟩,
   ⟨0, by decide +kernel⟩,
   ⟨wWipes true [3], 2, by decide +kernel⟩,
   ⟨wWipes false [1], 2, 1, by decide +kernel⟩,
   ⟨(wWipes true [3]).modUnit 0 fun x => { x with active := [] }, 2, by decide +kernel⟩,
   ⟨w1.modPart 2 fun x => { x with frzLog := [{ type := 1, index := 2, write := true, addr := 3, bn := 4 }] }, .pf, 2, 1, by decide +kernel⟩⟩
theorem witness_PartitionAllocation :
    (∃ (s : State), ∃ (f : Func), ∃ (i : Nat), ∃ (m : Nat), ∃ (a : Nat), ∃ (b : Nat), ∃ (v : Word), i < 132 ∧ m < 16 ∧ Open s f (F.PRT_GRAN_OWNERS.off i) ∧ (∀ k, k < 16 → k ≠ m → getBits v (4 * k + 3) (4 * k) = s.granOwner (16 * i + k)) ∧ s.granOwner (16 * i + m) = a ∧ getBits v (4 * m + 3) (4 * m) = b ∧ let h := (s.countUsed b).1; let w := (s.countUsed b).2; a = 15 ∧ b < 8 ∧ s.granWiping (16 * i + m) = false ∧ (if 16 * i + m < 576 then h + 1 ≤ s.getF F.PRT_QUOTA_HBM_Q b ∧ w ≤ s.getF F.PRT_QUOTA_UMB_Q b else h ≤ s.getF F.PRT_QUOTA_HBM_Q b ∧ w + 1 ≤ s.getF F.PRT_QUOTA_UMB_Q b)) ∧
    (∃ (s : State), ∃ (f : Func), ∃ (i : Nat), ∃ (m : Nat), ∃ (a : Nat), ∃ (b : Nat), ∃ (v : Word), i < 132 ∧ m < 16 ∧ Open s f (F.PRT_GRAN_OWNERS.off i) ∧ (∀ k, k < 16 → k ≠ m → getBits v (4 * k + 3) (4 * k) = s.granOwner (16 * i + k)) ∧ s.granOwner (16 * i + m) = a ∧ getBits v (4 * m + 3) (4 * m) = b ∧ let h := (s.countUsed b).1; let w := (s.countUsed b).2; a = 15 ∧ b < 8 ∧ s.granWiping (16 * i + m) = false ∧ (if 16 * i + m < 576 then h + 1 ≤ s.getF F.PRT_QUOTA_HBM_Q b ∧ w ≤ s.getF F.PRT_QUOTA_UMB_Q b else h ≤ s.getF F.PRT_QUOTA_HBM_Q b ∧ w + 1 ≤ s.getF F.PRT_QUOTA_UMB_Q b)) ∧
    (∃ (s : State), ∃ (f : Func), ∃ (i : Nat), ∃ (m : Nat), ∃ (a : Nat), ∃ (b : Nat), ∃ (v : Word), i < 132 ∧ m < 16 ∧ Open s f (F.PRT_GRAN_OWNERS.off i) ∧ (∀ k, k < 16 → k ≠ m → getBits v (4 * k + 3) (4 * k) = s.granOwner (16 * i + k)) ∧ s.granOwner (16 * i + m) = a ∧ getBits v (4 * m + 3) (4 * m) = b ∧ a < 8 ∧ b = 15 ∧ s.running a = false) ∧
    (∃ (s : State), ∃ (f : Func), ∃ (i : Nat), ∃ (m : Nat), ∃ (a : Nat), ∃ (b : Nat), ∃ (v : Word), i < 132 ∧ m < 16 ∧ Open s f (F.PRT_GRAN_OWNERS.off i) ∧ (∀ k, k < 16 → k ≠ m → getBits v (4 * k + 3) (4 * k) = s.granOwner (16 * i + k)) ∧ s.granOwner (16 * i + m) = a ∧ getBits v (4 * m + 3) (4 * m) = b ∧ a < 8 ∧ b ≠ a ∧ (b ≠ 15 ∨ s.running a = true)) ∧
    (∃ (s : State), ∃ (f : Func), ∃ (i : Nat), ∃ (m : Nat), ∃ (a : Nat), ∃ (b : Nat), ∃ (v : Word), i < 132 ∧ m < 16 ∧ Open s f (F.PRT_GRAN_OWNERS.off i) ∧ (∀ k, k < 16 → k ≠ m → getBits v (4 * k + 3) (4 * k) = s.granOwner (16 * i + k)) ∧ s.granOwner (16 * i + m) = a ∧ getBits v (4 * m + 3) (4 * m) = b ∧ a < 8 ∧ b ≠ a ∧ (b ≠ 15 ∨ s.running a = true)) ∧
    (∃ (s : State), ∃ (f : Func), ∃ (p : Nat), ∃ (v : Word), p < 8 ∧ Open s f (F.PRT_CLUSTERS_MASK.off p) ∧ let new := getBits v 31 0; let old := s.getF F.PRT_CLUSTERS_MASK p; let ok : Bool := (List.range 8).all (fun q => q = p || s.getF F.PRT_CLUSTERS_MASK q &&& new = 0) && (new = old || !s.running p); ok = true) ∧
    (∃ (s : State), ∃ (f : Func), ∃ (p : Nat), ∃ (v : Word), p < 8 ∧ Open s f (F.PRT_CLUSTERS_MASK.off p) ∧ let new := getBits v 31 0; let old := s.getF F.PRT_CLUSTERS_MASK p; let ok : Bool := (List.range 8).all (fun q => q = p || s.getF F.PRT_CLUSTERS_MASK q &&& new = 0) && (new = old || !s.running p); ok = false) ∧
    (∃ (s : State), ∃ (f : Func), ∃ (p : Nat), p < 8 ∧ Open s f (F.PRT_QUOTA_HBM_Q.off p)) :=
  ⟨⟨wOwned, .pf, 0, 3, 15, 2, BitVec.ofNat 64 0xFFFFFFFFFFFF21FF, ⟨by decide +kernel, by decide +kernel, by decide +kernel, by decide +kernel, by decide +kernel, by decide +kernel, by decide +kernel, by decide +kernel, by decide +kernel, if_of_lt (by decide +kernel) (room_hbm _ _ _ _ (by decide +kernel) (by decide +kernel))⟩⟩,
   ⟨wOwned, .pf, 36, 12, 15, 2, BitVec.ofNat 64 0x2222FFFFFFFFFFFF, ⟨by decide +kernel, by decide +kernel, by decide +kernel, by decide +kernel, by decide +kernel, by decide +kernel, by decide +kernel, by decide +kernel, by decide +kernel, if_of_ge (by decide +kernel) (room_umb _ _ _ _ (by decide +kernel) (by decide +kernel))⟩⟩,
   ⟨wOwned, .pf, 0, 2, 1, 15, BitVec.ofNat 64 0xFFFFFFFFFFFFFFFF, by decide +kernel⟩,
   ⟨wOwned, .pf, 0, 2, 1, 2, BitVec.ofNat 64 0xFFFFFFFFFFFFF2FF, by decide +kernel⟩,
   ⟨wOwned.setRun 1 true, .pf, 0, 2, 1, 15, BitVec.ofNat 64 0xFFFFFFFFFFFFFFFF, by decide +kernel⟩,
   ⟨w1.putF F.PRT_CLUSTERS_MASK 1 0xF, .pf, 0, 0x30, by decide +kernel⟩,
   ⟨w1.putF F.PRT_CLUSTERS_MASK 1 0xF, .pf, 0, 0x38, by decide +kernel⟩,
   ⟨w1, .pf, 0, by decide +kernel⟩⟩
theorem witness_MailboxAnswers :
    (∃ (s : State), s.doeOpen = true) ∧
    (∃ (s : State), ∃ (ek : List Byte), s.doeOpen = true ∧ s.flag F.SEC_STATE_RNGFAIL 0 = false ∧ ek.length = 1568) ∧
    (∃ (s : State), ∃ (ek : List Byte), s.doeOpen = true ∧ s.flag F.SEC_STATE_RNGFAIL 0 = false ∧ ek.length = 1568) ∧
    (∃ (s : State), ∃ (k : Nat), s.doeOpen = true ∧ k ≤ 1) ∧
    (∃ (s : State), ∃ (k : Nat), s.doeOpen = true ∧ k ≤ 1) ∧
    (∃ (s : State), s.doeOpen = true) ∧
    (∃ (s : State), s.doeOpen = true) ∧
    (∃ (s : State), s.doeOpen = true ∧ s.flag F.SEC_STATE_RNGFAIL 0 = false) :=
  ⟨⟨wDoe 0, by decide +kernel⟩,
   ⟨wDoe 1, List.replicate 1568 1, by decide +kernel⟩,
   ⟨wDoe 0, List.replicate 1568 1, by decide +kernel⟩,
   ⟨wDoe 2, 1, by decide +kernel⟩,
   ⟨wDoe 1, 0, by decide +kernel⟩,
   ⟨wDoe 2, by decide +kernel⟩,
   ⟨w1, by decide +kernel⟩,
   ⟨w1, by decide +kernel⟩⟩
theorem witness_OwnerAndLifeCycle :
    (∃ (s : State), ∃ (c : OwnerCmd), ∃ (pre : List OwnerSlot), ∃ (k : BitVec 512), s.doeOpen = true ∧ s.ident.nonce = some c.nonce ∧ c.sigOk = true ∧ s.ident.lc = 2 ∧ (∀ o ∈ pre, o.revoked = true) ∧ s.ident.slots = pre ++ [⟨k, false⟩] ∧ pre.length < 3 ∧ shake512 c.key ≠ k) ∧
    (∃ (s : State), ∃ (c : OwnerCmd), ∃ (pre : List OwnerSlot), ∃ (k : BitVec 512), s.doeOpen = true ∧ s.ident.nonce = some c.nonce ∧ c.sigOk = true ∧ s.ident.lc = 2 ∧ (∀ o ∈ pre, o.revoked = true) ∧ s.ident.slots = pre ++ [⟨k, false⟩] ∧ shake512 c.key = k) ∧
    (∃ (s : State), ∃ (c : OwnerCmd), ∃ (pre : List OwnerSlot), ∃ (k : BitVec 512), s.doeOpen = true ∧ s.ident.nonce = some c.nonce ∧ c.sigOk = true ∧ s.ident.lc = 2 ∧ (∀ o ∈ pre, o.revoked = true) ∧ s.ident.slots = pre ++ [⟨k, false⟩] ∧ pre.length = 3 ∧ shake512 c.key ≠ k) ∧
    (∃ (s : State), ∃ (c : OwnerCmd), ∃ (pre : List OwnerSlot), ∃ (k : BitVec 512), s.doeOpen = true ∧ s.ident.nonce = some c.nonce ∧ c.sigOk = true ∧ s.ident.lc = 2 ∧ (∀ o ∈ pre, o.revoked = true) ∧ s.ident.slots = pre ++ [⟨k, false⟩]) ∧
    (∃ (s : State), ∃ (c : OwnerCmd), ∃ (pre : List OwnerSlot), ∃ (k : BitVec 512), s.doeOpen = true ∧ s.ident.nonce = some c.nonce ∧ c.sigOk = true ∧ s.ident.lc = 2 ∧ (∀ o ∈ pre, o.revoked = true) ∧ s.ident.slots = pre ++ [⟨k, false⟩] ∧ s.anyRun = false) ∧
    (∃ (s : State), ∃ (c : OwnerCmd), s.doeOpen = true ∧ s.ident.nonce = some c.nonce ∧ s.anyRun = false ∧ s.ident.lc = 1) ∧
    (∃ (s : State), ∃ (c : OwnerCmd), s.doeOpen = true ∧ s.ident.nonce = some c.nonce ∧ s.anyRun = false ∧ c.sigOk = true ∧ s.ident.lc = 3) ∧
    (∃ (s : State), ∃ (c : OwnerCmd), ∃ (lc : Nat), ∃ (i : Instr), s.doeOpen = true ∧ ((i = .setOwner c ∧ lc = 2) ∨ (i = .releaseOwner c ∧ lc = 2) ∨ (i = .returnLc c ∧ lc = 2) ∨ (i = .deploy c ∧ lc = 1) ∨ (i = .scrap c ∧ lc = 3)) ∧ s.ident.lc ≠ lc) ∧
    (∃ (s : State), ∃ (c : OwnerCmd), ∃ (lc : Nat), ∃ (i : Instr), s.doeOpen = true ∧ ((i = .setOwner c ∧ lc = 2) ∨ (i = .releaseOwner c ∧ lc = 2) ∨ (i = .returnLc c ∧ lc = 2) ∨ (i = .deploy c ∧ lc = 1) ∨ (i = .scrap c ∧ lc = 3)) ∧ s.ident.lc = lc ∧ s.ident.nonce ≠ some c.nonce) ∧
    (∃ (s : State), ∃ (c : OwnerCmd), ∃ (lc : Nat), ∃ (i : Instr), s.doeOpen = true ∧ ((i = .setOwner c ∧ lc = 2) ∨ (i = .releaseOwner c ∧ lc = 2) ∨ (i = .returnLc c ∧ lc = 2) ∨ (i = .deploy c ∧ lc = 1) ∨ (i = .scrap c ∧ lc = 3)) ∧ s.ident.lc = lc ∧ s.ident.nonce = some c.nonce ∧ c.sigOk = true ∧ s.anyRun = true ∧ i ≠ .setOwner c ∧ i ≠ .releaseOwner c) ∧
    (∃ (s : State), s.ident.lc = 0 ∧ s.anyRun = false ∧ s.flag F.SEC_STATE_RNGFAIL 0 = false) ∧
    (∃ (s : State), s.ident.lc = 0 ∧ s.anyRun = false ∧ s.flag F.SEC_STATE_RNGFAIL 0 = false ∧ s.ident.secret = 0) ∧
    (∃ (s : State), ∃ (dik : DikCert), s.ident.lc = 0 ∧ s.anyRun = false ∧ s.flag F.SEC_STATE_RNGFAIL 0 = false ∧ dik.ok = true) ∧
    (∃ (s : State), ∃ (dik : DikCert), s.ident.lc = 0 ∧ s.anyRun = false ∧ s.flag F.SEC_STATE_RNGFAIL 0 = false ∧ dik.ok = false) :=
  ⟨⟨wOwner 2 2, wCmd, List.replicate 2 ⟨5, true⟩, 6, by decide +kernel⟩,
   ⟨wOwnK, wCmd, [], shake512 [8], by decide +kernel⟩,
   ⟨wOwner 2 3, wCmd, List.replicate 3 ⟨5, true⟩, 6, by decide +kernel⟩,
   ⟨wOwner 2 3, wCmd, List.replicate 3 ⟨5, true⟩, 6, by decide +kernel⟩,
   ⟨wOwner 2 0, wCmd, [], 6, by decide +kernel⟩,
   ⟨wOwner 1 0, wCmd, by decide +kernel⟩,
   ⟨wOwner 3 0, wCmd, by decide +kernel⟩,
   ⟨wOwner 3 0, wCmd, 2, .setOwner wCmd, by decide +kernel⟩,
   ⟨wOwner 2 0, { wCmd with nonce := 78 }, 2, .releaseOwner { wCmd with nonce := 78 }, by decide +kernel⟩,
   ⟨(wOwner 1 0).setRun 7 true, wCmd, 1, .deploy wCmd, by decide +kernel⟩,
   ⟨wOwner 0 0, by decide +kernel⟩,
   ⟨wOwner 0 0, by decide +kernel⟩,
   ⟨wOwner 0 0, ⟨[1], true⟩, by decide +kernel⟩,
   ⟨wOwner 0 0, ⟨[1], false⟩, by decide +kernel⟩⟩
theorem witness_ColdBootRuns :
    (∃ (s : State), ∃ (fl : BootFlash), ∃ (img : List Byte), s.power.booting = true ∧ s.flag F.GEN_STATUS_RECOVERY 0 = false ∧ (s.ident.flash = some img ∨ (s.ident.flash = none ∧ fl.image = img)) ∧ s.ident.lc = 4) ∧
    (∃ (s : State), ∃ (fl : BootFlash), ∃ (img : List Byte), s.power.booting = true ∧ s.flag F.GEN_STATUS_RECOVERY 0 = false ∧ (s.ident.flash = some img ∨ (s.ident.flash = none ∧ fl.image = img)) ∧ s.ident.lc ≠ 4 ∧ (s.flag F.SEC_REC_CTRL_REQ 0 = true ∨ (s.imageCode img fl.check).isSome = true)) ∧
    (∃ (s : State), ∃ (fl : BootFlash), ∃ (img : List Byte), s.power.booting = true ∧ s.flag F.GEN_STATUS_RECOVERY 0 = false ∧ (s.ident.flash = some img ∨ (s.ident.flash = none ∧ fl.image = img)) ∧ s.ident.lc ≠ 4 ∧ (s.flag F.SEC_REC_CTRL_REQ 0 = true ∨ (s.imageCode img fl.check).isSome = true)) ∧
    (∃ (s : State), ∃ (fl : BootFlash), ∃ (img : List Byte), s.power.booting = true ∧ s.flag F.GEN_STATUS_RECOVERY 0 = false ∧ (s.ident.flash = some img ∨ (s.ident.flash = none ∧ fl.image = img)) ∧ s.ident.lc ≠ 4 ∧ s.flag F.SEC_REC_CTRL_REQ 0 = false ∧ s.imageCode img fl.check = none) ∧
    (∃ (s : State), ∃ (fl : BootFlash), ∃ (img : List Byte), s.power.booting = true ∧ s.flag F.GEN_STATUS_RECOVERY 0 = false ∧ (s.ident.flash = some img ∨ (s.ident.flash = none ∧ fl.image = img)) ∧ s.ident.lc ≠ 4 ∧ s.flag F.SEC_REC_CTRL_REQ 0 = false ∧ s.imageCode img fl.check = none ∧ s.ident.secret ≠ 0) ∧
    (∃ (s : State), ∃ (fl : BootFlash), ∃ (img : List Byte), s.power.booting = true ∧ s.flag F.GEN_STATUS_RECOVERY 0 = false ∧ (s.ident.flash = some img ∨ (s.ident.flash = none ∧ fl.image = img)) ∧ s.ident.lc ≠ 4 ∧ s.flag F.SEC_REC_CTRL_REQ 0 = false ∧ s.imageCode img fl.check = none ∧ fl.ownerLost = true) ∧
    (∃ (s : State), ∃ (f : Func), ∃ (v : Word), ∃ (c : SigCheck), ∃ code, Open s f F.SEC_FW_CTRL_GO.base ∧ getBits v 0 0 = 1 ∧ s.flag F.GEN_STATUS_RECOVERY 0 = true ∧ s.getF F.SEC_FW_LEN_LEN 0 ≤ 2 ^ 24 ∧ let img := (List.range (s.getF F.SEC_FW_LEN_LEN 0)).map (mget 0 s.sram); s.imageCode img c = some code) ∧
    (∃ (s : State), ∃ (f : Func), ∃ (v : Word), ∃ (c : SigCheck), ∃ code, Open s f F.SEC_FW_CTRL_GO.base ∧ getBits v 0 0 = 1 ∧ s.flag F.GEN_STATUS_RECOVERY 0 = true ∧ s.getF F.SEC_FW_LEN_LEN 0 ≤ 2 ^ 24 ∧ let img := (List.range (s.getF F.SEC_FW_LEN_LEN 0)).map (mget 0 s.sram); s.imageCode img c = some code) ∧
    (∃ (s : State), ∃ (f : Func), ∃ (v : Word), ∃ (c : SigCheck), Open s f F.SEC_FW_CTRL_GO.base ∧ getBits v 0 0 = 1 ∧ s.flag F.GEN_STATUS_RECOVERY 0 = true ∧ s.getF F.SEC_FW_LEN_LEN 0 ≤ 2 ^ 24 ∧ let img := (List.range (s.getF F.SEC_FW_LEN_LEN 0)).map (mget 0 s.sram); s.imageCode img c = none) ∧
    (∃ (s : State), ∃ (f : Func), ∃ (v : Word), ∃ (c : SigCheck), Open s f F.SEC_FW_CTRL_GO.base ∧ getBits v 0 0 = 1 ∧ s.flag F.GEN_STATUS_RECOVERY 0 = true ∧ s.getF F.SEC_FW_LEN_LEN 0 ≤ 2 ^ 24 ∧ let img := (List.range (s.getF F.SEC_FW_LEN_LEN 0)).map (mget 0 s.sram); s.imageCode img c = none) :=
  ⟨⟨wCold 4 0 wImg, ⟨[], ⟨true, true⟩, false⟩, wImg, ⟨by decide +kernel, by decide +kernel, .inl rfl, by decide +kernel⟩⟩,
   ⟨wCold 2 1 wImg, ⟨[], ⟨true, true⟩, false⟩, wImg, ⟨by decide +kernel, by decide +kernel, .inl rfl, by decide +kernel, .inl (by decide +kernel)⟩⟩,
   ⟨wCold 2 0 [], ⟨[], ⟨true, true⟩, false⟩, [], by decide +kernel⟩,
   ⟨wCold 2 0 wImg, ⟨[], ⟨true, true⟩, false⟩, wImg, ⟨by decide +kernel, by decide +kernel, .inl rfl, by decide +kernel, by decide +kernel, wImg_code _ (by decide +kernel)⟩⟩,
   ⟨wSecret, ⟨[], ⟨true, true⟩, true⟩, wImg, ⟨by decide +kernel, by decide +kernel, .inl rfl, by decide +kernel, by decide +kernel, wImg_code _ (by decide +kernel), by decide +kernel⟩⟩,
   ⟨wSecret, ⟨[], ⟨true, true⟩, true⟩, wImg, ⟨by decide +kernel, by decide +kernel, .inl rfl, by decide +kernel, by decide +kernel, wImg_code _ (by decide +kernel), rfl⟩⟩,
   ⟨wRecov (wHead 64 5379), .pf, 1, ⟨true, true⟩, 0x10, ⟨by decide +kernel, by decide +kernel, by decide +kernel, by decide +kernel, by intro img; unfold State.imageCode; simp only [img]; rw [wSram_header _ (by decide +kernel)]; decide +kernel⟩⟩,
   ⟨wRecov (wHead 64 5380), .pf, 1, ⟨true, false⟩, 0x11, ⟨by decide +kernel, by decide +kernel, by decide +kernel, by decide +kernel, by intro img; unfold State.imageCode; simp only [img]; rw [wSram_header _ (by decide +kernel)]; decide +kernel⟩⟩,
   ⟨wRecov (wHead 64 5380), .pf, 1, ⟨true, true⟩, ⟨by decide +kernel, by decide +kernel, by decide +kernel, by decide +kernel, by intro img; unfold State.imageCode; simp only [img]; rw [wSram_header _ (by decide +kernel), wSram_svn _ (by decide +kernel)]; decide +kernel⟩⟩,
   ⟨wRecov (wHead 64 5380), .pf, 1, ⟨true, true⟩, ⟨by decide +kernel, by decide +kernel, by decide +kernel, by decide +kernel, by intro img; unfold State.imageCode; simp only [img]; rw [wSram_header _ (by decide +kernel), wSram_svn _ (by decide +kernel)]; decide +kernel⟩⟩⟩
theorem witness_FirmwareAndEntropy :
    (∃ (s : State), ∃ (f : Func), ∃ (v : Word), Open s f F.SEC_FW_CTRL_GO.base ∧ let n := s.getF F.SEC_FW_LEN_LEN 0; getBits v 0 0 = 1 ∧ s.flag F.GEN_STATUS_RECOVERY 0 = false ∧ s.flag F.GEN_STATUS_READY 0 = true ∧ s.ident.fwBusy = false ∧ n ≤ 2 ^ 24) ∧
    (∃ (s : State), ∃ (f : Func), Open s f F.SEC_FW_CTRL_GO.base ∧ s.ident.fwBusy = true) ∧
    (∃ (s : State), s.ident.fwBusy = true) ∧
    (∃ (s : State), ∃ (c : SigCheck), ∃ (ok : Bool), s.ident.fwBusy = true ∧ let img := s.ident.fwImage; let code : Nat := if imgHeaderOk img = false then 0x10 else if c.certOk = false ∨ c.sigOk = false then 0x11 else if imgSvn img < s.ident.counter then 0x12 else if ok = false then 0x13 else 3; code = 3) ∧
    (∃ (s : State), ∃ (c : SigCheck), ∃ (ok : Bool), s.ident.fwBusy = true ∧ let img := s.ident.fwImage; let code : Nat := if imgHeaderOk img = false then 0x10 else if c.certOk = false ∨ c.sigOk = false then 0x11 else if imgSvn img < s.ident.counter then 0x12 else if ok = false then 0x13 else 3; (code = 0x10 ∨ code = 0x11 ∨ code = 0x12)) ∧
    (∃ (s : State), ∃ (c : SigCheck), ∃ (ok : Bool), s.ident.fwBusy = true ∧ let img := s.ident.fwImage; let code : Nat := if imgHeaderOk img = false then 0x10 else if c.certOk = false ∨ c.sigOk = false then 0x11 else if imgSvn img < s.ident.counter then 0x12 else if ok = false then 0x13 else 3; (code = 0x10 ∨ code = 0x11 ∨ code = 0x12)) ∧
    (∃ (s : State), ∃ (c : SigCheck), ∃ (ok : Bool), s.ident.fwBusy = true ∧ let img := s.ident.fwImage; let code : Nat := if imgHeaderOk img = false then 0x10 else if c.certOk = false ∨ c.sigOk = false then 0x11 else if imgSvn img < s.ident.counter then 0x12 else if ok = false then 0x13 else 3; (code = 0x10 ∨ code = 0x11 ∨ code = 0x12)) ∧
    (∃ (s : State), ∃ (c : SigCheck), ∃ (ok : Bool), s.ident.fwBusy = true ∧ let img := s.ident.fwImage; let code : Nat := if imgHeaderOk img = false then 0x10 else if c.certOk = false ∨ c.sigOk = false then 0x11 else if imgSvn img < s.ident.counter then 0x12 else if ok = false then 0x13 else 3; code = 0x13) ∧
    (∃ (s : State), ∃ (f : Func), ∃ (v : Word), ∃ (r : List Byte), Open s f F.SEC_FW_CTRL_SVN_COMMIT.base ∧ getBits v 1 1 = 1 ∧ s.ident.running = some r) ∧
    (∃ (s : State), s.flag F.SEC_STATE_RNGFAIL 0 = true ∧ s.flag F.GEN_STATUS_FAILED 0 = false) :=
  ⟨⟨{ w1.putF F.SEC_FW_LEN_LEN 0 16 with mem := [(3, 5)] }, .pf, 1, by decide +kernel⟩,
   ⟨wBusyFw wImg, .pf, by decide +kernel⟩,
   ⟨wBusyFw [1], by decide +kernel⟩,
   ⟨wBusyFw wImg, ⟨true, true⟩, true, ⟨rfl, by simp [wBusyFw, wImg_ok, wImg_svn]⟩⟩,
   ⟨wBusyFw (wImgB 65 5380), ⟨true, true⟩, true, ⟨rfl, by simp [wBusyFw, wImg65_bad]⟩⟩,
   ⟨wBusyFw wImg, ⟨true, false⟩, true, ⟨rfl, by simp [wBusyFw, wImg_ok]⟩⟩,
   ⟨wBusyFw (wImgB 4 5380), ⟨true, true⟩, true, ⟨rfl, by simp [wBusyFw, wImg4_ok, wImg4_svn]⟩⟩,
   ⟨wBusyFw wImg, ⟨true, true⟩, false, ⟨rfl, by simp [wBusyFw, wImg_ok, wImg_svn]⟩⟩,
   ⟨{ w1 with ident := { w1.ident with running := some (wHead 7 24) } }, .pf, 2, wHead 7 24, by decide +kernel⟩,
   ⟨((wRun wPlan w2).putF F.SEC_STATE_RNGFAIL 0 1), by decide +kernel⟩⟩
/-! ### group 19 -/
def wHostQ : State := ((w1.putF F.DMA_QCFG_EN 1 1).putF F.DMA_QCFG_MOVER 1 0).putF F.DMA_MCFG_EN 0 1
def wHostPend (n : Nat) : State := (wHostQ.putF F.DMA_QSTATUS_PENDING 1 n).modQueue 1 fun q => { q with chains := [BitVec.ofNat 64 (2 ^ 63 + 0x1000)] }
def wMd (next : Nat) : MDesc := { src := BitVec.ofNat 64 (2 ^ 63 + 0x2000), dst := 0x40000000, sstride := 0, dstride := 0, slen := 16, scount := 1, dlen := 16, dcount := 1, next := BitVec.ofNat 64 next, ctrl := 1, rsvd := true }
def wMdBytes (src dst len : Nat) : List Byte := leBytes 8 src ++ leBytes 8 dst ++ leBytes 16 0 ++ leBytes 4 len ++ leBytes 4 1 ++ leBytes 4 16 ++ leBytes 4 1 ++ leBytes 8 0 ++ [1]
def wHk (d : Option MDesc) (ab : Bool) : Chain := { queue := some 1, part := 0, task := State.noTask, addr := BitVec.ofNat 64 (2 ^ 63 + 0x1000), desc := d, written := 0, abort := ab }
def wHm (len : Nat) (d : Option MDesc) (ab : Bool) : State := ((((wHostPend 2).hwr 0x1000 (wMdBytes (2 ^ 63 + 0x2000) 0x40000000 len)).hwr 0x2000 (List.replicate 16 5)).modMover 0 fun m => { m with chain := some (wHk d ab) }).modQueue 1 fun q => { q with chains := [] }
def wCk (a : Nat) (d : Option MDesc) : CChain := { tile := some 8, token := 3, part := 0, task := 0, addr := a, desc := d, since := none }
def wCdesc : MDesc := { wMd 0 with src := 0x40001000 }
def wCm (a : Nat) (d : Option MDesc) : State := (w1.wr 0x40000100 (wMdBytes 0x40001000 0x40000000 16)).setCmover 5 { w1.cmover 5 with chains := [wCk a d, wCk 0 none] }
def wWin (en : Nat) : State := (w1.putF F.DMA_WIN_EN 1 en).putF F.DMA_WIN_BASE 1 0x4000

theorem witness_QueuesTakeChains :
    (∃ (s : State), ∃ (f : Func), ∃ (q : Nat), q < 256 ∧ Open s f (0x400_0000 + 0x1000 * q)) ∧
    (∃ (s : State), ∃ (f : Func), ∃ (q : Nat), q < 256 ∧ Open s f (0x400_0000 + 0x1000 * q) ∧ let h := s.getF F.DMA_QCFG_MOVER q; let runs : Bool := s.flag F.DMA_QCFG_EN q && s.moverFor h q && !(s.mover h).frozen; runs = true ∧ s.getF F.DMA_QSTATUS_PENDING q < 64) ∧
    (∃ (s : State), ∃ (f : Func), ∃ (q : Nat), q < 256 ∧ Open s f (0x400_0000 + 0x1000 * q) ∧ let h := s.getF F.DMA_QCFG_MOVER q; let runs : Bool := s.flag F.DMA_QCFG_EN q && s.moverFor h q && !(s.mover h).frozen; runs = true ∧ 64 ≤ s.getF F.DMA_QSTATUS_PENDING q) ∧
    (∃ (s : State), ∃ (f : Func), ∃ (q : Nat), q < 256 ∧ Open s f (0x400_0000 + 0x1000 * q) ∧ let h := s.getF F.DMA_QCFG_MOVER q; let runs : Bool := s.flag F.DMA_QCFG_EN q && s.moverFor h q && !(s.mover h).frozen; runs = false) ∧
    (∃ (s : State), ∃ (h : Nat), ∃ (q : Nat), ∃ (a : Word), ∃ (rest : List Word), h < 32 ∧ (s.mover h).chain = none ∧ (s.mover h).frozen = false ∧ s.nextQueue h = some q ∧ (s.queue q).chains = a :: rest ∧ s.flag F.PRT_STATE_WIPING (s.getF F.DMA_MCFG_OWNER h) = true) ∧
    (∃ (s : State), ∃ (h : Nat), ∃ (q : Nat), ∃ (a : Word), ∃ (rest : List Word), h < 32 ∧ (s.mover h).chain = none ∧ (s.mover h).frozen = false ∧ s.nextQueue h = some q ∧ (s.queue q).chains = a :: rest ∧ s.flag F.PRT_STATE_WIPING (s.getF F.DMA_MCFG_OWNER h) = false) ∧
    (∃ (s : State), ∃ (f : Func), ∃ (q : Nat), q < 256 ∧ Open s f (0x400_0008 + 0x1000 * q)) ∧
    (∃ (s : State), ∃ (f : Func), ∃ (q : Nat), q < 256 ∧ Open s f (0x400_0008 + 0x1000 * q) ∧ (s.queue q).wState ≠ 1) ∧
    (∃ (s : State), ∃ (f : Func), ∃ (q : Nat), ∃ (a : Word), q < 256 ∧ Open s f (0x400_0010 + 0x1000 * q) ∧ (s.queue q).chains = [a] ∧ isHost a = true ∧ spaceAddr a + 64 ≤ 2 ^ 63 ∧ 1 ≤ s.getF F.DMA_QSTATUS_PENDING q) ∧
    (∃ (s : State), ∃ (f : Func), ∃ (q : Nat), ∃ (a : Word), q < 256 ∧ Open s f (0x400_0010 + 0x1000 * q) ∧ (s.queue q).chains = [a] ∧ isHost a = true ∧ spaceAddr a + 64 ≤ 2 ^ 63 ∧ 1 ≤ s.getF F.DMA_QSTATUS_PENDING q ∧ (∀ h, h < 32 → (s.mover h).chain.bind (·.queue) ≠ some q)) :=
  ⟨⟨wHostQ, .pf, 1, by decide +kernel⟩,
   ⟨wHostPend 63, .pf, 1, by decide +kernel⟩,
   ⟨wHostPend 64, .pf, 1, by decide +kernel⟩,
   ⟨w1, .pf, 1, by decide +kernel⟩,
   ⟨(wHostPend 1).putF F.PRT_STATE_WIPING 0 1, 0, 1, BitVec.ofNat 64 (2 ^ 63 + 0x1000), [], by decide +kernel⟩,
   ⟨wHostPend 1, 0, 1, BitVec.ofNat 64 (2 ^ 63 + 0x1000), [], by decide +kernel⟩,
   ⟨wHostQ, .pf, 255, by decide +kernel⟩,
   ⟨wHostQ, .pf, 1, by decide +kernel⟩,
   ⟨(wHostPend 2).modMover 0 fun m => { m with chain := some (wHk none false) }, .pf, 1, BitVec.ofNat 64 (2 ^ 63 + 0x1000), by decide +kernel⟩,
   ⟨wHostPend 1, .pf, 1, BitVec.ofNat 64 (2 ^ 63 + 0x1000), by decide +kernel⟩⟩
theorem witness_HostMoversRunDescriptors :
    (∃ (s : State), ∃ (h : Nat), ∃ (q : Nat), ∃ (k : Chain), h < 32 ∧ (s.mover h).chain = some k ∧ k.queue = some q ∧ (s.mover h).frozen = false ∧ q < 256 ∧ isHost k.addr = true ∧ spaceAddr k.addr + 64 ≤ 2 ^ 63 ∧ getBits k.addr 5 0 = 0 ∧ 1 ≤ s.getF F.DMA_QSTATUS_PENDING q ∧ s.checkerOn k.part = false ∧ k.desc = none ∧ k.abort = false) ∧
    (∃ (s : State), ∃ (h : Nat), ∃ (q : Nat), ∃ (k : Chain), h < 32 ∧ (s.mover h).chain = some k ∧ k.queue = some q ∧ (s.mover h).frozen = false ∧ q < 256 ∧ isHost k.addr = true ∧ spaceAddr k.addr + 64 ≤ 2 ^ 63 ∧ getBits k.addr 5 0 = 0 ∧ 1 ≤ s.getF F.DMA_QSTATUS_PENDING q ∧ s.checkerOn k.part = false ∧ k.desc = none ∧ k.abort = false) ∧
    (∃ (s : State), ∃ (h : Nat), ∃ (q : Nat), ∃ (k : Chain), h < 32 ∧ (s.mover h).chain = some k ∧ k.queue = some q ∧ (s.mover h).frozen = false ∧ q < 256 ∧ isHost k.addr = true ∧ spaceAddr k.addr + 64 ≤ 2 ^ 63 ∧ getBits k.addr 5 0 = 0 ∧ 1 ≤ s.getF F.DMA_QSTATUS_PENDING q ∧ s.checkerOn k.part = false ∧ let d := readMDesc (s.descBytes k.addr); k.desc = none ∧ k.abort = false ∧ s.descStatus false k.part d = none) ∧
    (∃ (s : State), ∃ (h : Nat), ∃ (q : Nat), ∃ (k : Chain), ∃ (e : MDesc), h < 32 ∧ (s.mover h).chain = some k ∧ k.queue = some q ∧ (s.mover h).frozen = false ∧ q < 256 ∧ isHost k.addr = true ∧ spaceAddr k.addr + 64 ≤ 2 ^ 63 ∧ getBits k.addr 5 0 = 0 ∧ 1 ≤ s.getF F.DMA_QSTATUS_PENDING q ∧ s.checkerOn k.part = false ∧ k.desc = some e ∧ s.descSlotted k.part e = false) ∧
    (∃ (s : State), ∃ (h : Nat), ∃ (q : Nat), ∃ (k : Chain), ∃ (e : MDesc), h < 32 ∧ (s.mover h).chain = some k ∧ k.queue = some q ∧ (s.mover h).frozen = false ∧ q < 256 ∧ isHost k.addr = true ∧ spaceAddr k.addr + 64 ≤ 2 ^ 63 ∧ getBits k.addr 5 0 = 0 ∧ 1 ≤ s.getF F.DMA_QSTATUS_PENDING q ∧ s.checkerOn k.part = false ∧ k.desc = some e ∧ k.abort = false ∧ e.scount = 1 ∧ e.dcount = 1 ∧ e.slen = e.dlen ∧ isHost e.src = true ∧ isHost e.dst = false ∧ spaceAddr e.dst + e.dlen ≤ resultBase ∧ s.descSlotted k.part e = true) ∧
    (∃ (s : State), ∃ (h : Nat), ∃ (q : Nat), ∃ (k : Chain), ∃ (e : MDesc), h < 32 ∧ (s.mover h).chain = some k ∧ k.queue = some q ∧ (s.mover h).frozen = false ∧ q < 256 ∧ isHost k.addr = true ∧ spaceAddr k.addr + 64 ≤ 2 ^ 63 ∧ getBits k.addr 5 0 = 0 ∧ 1 ≤ s.getF F.DMA_QSTATUS_PENDING q ∧ s.checkerOn k.part = false ∧ k.desc = some e ∧ k.abort = false ∧ e.scount = 1 ∧ e.dcount = 1 ∧ e.slen = e.dlen ∧ isHost e.src = true ∧ isHost e.dst = false ∧ spaceAddr e.dst + e.dlen ≤ resultBase ∧ s.descSlotted k.part e = true ∧ e.next ≠ 0) ∧
    (∃ (s : State), ∃ (h : Nat), ∃ (q : Nat), ∃ (k : Chain), ∃ (e : MDesc), h < 32 ∧ (s.mover h).chain = some k ∧ k.queue = some q ∧ (s.mover h).frozen = false ∧ q < 256 ∧ isHost k.addr = true ∧ spaceAddr k.addr + 64 ≤ 2 ^ 63 ∧ getBits k.addr 5 0 = 0 ∧ 1 ≤ s.getF F.DMA_QSTATUS_PENDING q ∧ s.checkerOn k.part = false ∧ k.desc = some e ∧ k.abort = false ∧ e.scount = 1 ∧ e.dcount = 1 ∧ e.slen = e.dlen ∧ isHost e.src = true ∧ isHost e.dst = false ∧ spaceAddr e.dst + e.dlen ≤ resultBase ∧ s.descSlotted k.part e = true ∧ e.next = 0) ∧
    (∃ (s : State), ∃ (h : Nat), ∃ (q : Nat), ∃ (k : Chain), ∃ (e : MDesc), h < 32 ∧ (s.mover h).chain = some k ∧ k.queue = some q ∧ (s.mover h).frozen = false ∧ q < 256 ∧ isHost k.addr = true ∧ spaceAddr k.addr + 64 ≤ 2 ^ 63 ∧ getBits k.addr 5 0 = 0 ∧ 1 ≤ s.getF F.DMA_QSTATUS_PENDING q ∧ s.checkerOn k.part = false ∧ k.desc = some e ∧ isHost e.dst = false ∧ k.abort = true) ∧
    (∃ (s : State), ∃ (h : Nat), ∃ (q : Nat), ∃ (k : Chain), ∃ (e : MDesc), h < 32 ∧ (s.mover h).chain = some k ∧ k.queue = some q ∧ (s.mover h).frozen = false ∧ q < 256 ∧ isHost k.addr = true ∧ spaceAddr k.addr + 64 ≤ 2 ^ 63 ∧ getBits k.addr 5 0 = 0 ∧ 1 ≤ s.getF F.DMA_QSTATUS_PENDING q ∧ s.checkerOn k.part = false ∧ k.desc = some e ∧ isHost e.dst = false ∧ k.abort = false ∧ isHost e.src = true) :=
  ⟨⟨wHm 15 none false, 0, 1, wHk none false, by decide +kernel⟩,
   ⟨(wHm 16 none false).putF F.PRT_GRAN_OWNERS 0 0xFFFFFFFFFFFFFFFF, 0, 1, wHk none false, by decide +kernel⟩,
   ⟨wHm 16 none false, 0, 1, wHk none false, by decide +kernel⟩,
   ⟨(wHm 16 (some (wMd 0)) false).modUnit 0 (fun x => { x with active := (List.range 16).map fun i => (i, 0x4444444444444444) }), 0, 1, wHk (some (wMd 0)) false, wMd 0, by decide +kernel⟩,
   ⟨wHm 16 (some (wMd 0)) false, 0, 1, wHk (some (wMd 0)) false, wMd 0, by decide +kernel⟩,
   ⟨wHm 16 (some (wMd 64)) false, 0, 1, wHk (some (wMd 64)) false, wMd 64, by decide +kernel⟩,
   ⟨wHm 16 (some (wMd 0)) false, 0, 1, wHk (some (wMd 0)) false, wMd 0, by decide +kernel⟩,
   ⟨wHm 16 (some (wMd 0)) true, 0, 1, wHk (some (wMd 0)) true, wMd 0, by decide +kernel⟩,
   ⟨wHm 16 (some (wMd 0)) false, 0, 1, wHk (some (wMd 0)) false, wMd 0, by decide +kernel⟩⟩
theorem witness_ChannelsRunDescriptors :
    (∃ (s : State), ∃ (c : Nat), ∃ (k : CChain), ∃ (rest : List CChain), c < 256 ∧ (s.cmover c).chains = k :: rest ∧ s.checkerOn k.part = false ∧ k.addr ≠ 0 ∧ k.desc = none ∧ (s.cmover c).frozen = false ∧ s.ownsRange k.part k.addr 64 false = true ∧ s.descStatus true k.part (readMDesc (s.rd k.addr 64)) = none) ∧
    (∃ (s : State), ∃ (c : Nat), ∃ (k : CChain), ∃ (rest : List CChain), c < 256 ∧ (s.cmover c).chains = k :: rest ∧ s.checkerOn k.part = false ∧ k.addr ≠ 0 ∧ k.desc = none ∧ (s.cmover c).frozen = false ∧ s.ownsRange k.part k.addr 64 false = false) ∧
    (∃ (s : State), ∃ (c : Nat), ∃ (k : CChain), ∃ (rest : List CChain), ∃ (d : MDesc), c < 256 ∧ (s.cmover c).chains = k :: rest ∧ s.checkerOn k.part = false ∧ k.desc = some d ∧ d.scount = 1 ∧ d.dcount = 1 ∧ d.slen = d.dlen ∧ isHost d.src = false ∧ isHost d.dst = false ∧ spaceAddr d.dst + d.dlen ≤ resultBase ∧ s.descSlotted k.part d = true) :=
  ⟨⟨wCm 0x40000100 none, 5, wCk 0x40000100 none, [wCk 0 none], by decide +kernel⟩,
   ⟨(wCm 0x40000100 none).putF F.PRT_GRAN_OWNERS 0 0xFFFFFFFFFFFFFFFF, 5, wCk 0x40000100 none, [wCk 0 none], by decide +kernel⟩,
   ⟨wCm 0x40000100 (some wCdesc), 5, wCk 0x40000100 (some wCdesc), [wCk 0 none], wCdesc, by decide +kernel⟩⟩
theorem witness_WindowsAndMoverSetUp :
    (∃ (s : State), ∃ (f : Func), ∃ (off : Nat), ∃ (w : Nat), ∃ (o : Nat), ∃ (b : List Byte), Taken s f ∧ State.barWindow f off = some (w, o) ∧ s.flag F.GEN_STATUS_RECOVERY 0 = false ∧ s.flag F.PRT_STATE_WIPING (w / 2) = false ∧ s.blockOpen 0x40_0000 = true ∧ s.flag F.DMA_WIN_EN w = true ∧ s.flag F.DMA_WIN_FROZEN w = false ∧ let a := s.getF F.DMA_WIN_BASE w * 2 ^ 16 + o; a + b.length ≤ resultBase ∧ s.ownsRange (w / 2) a b.length true = true) ∧
    (∃ (s : State), ∃ (f : Func), ∃ (off : Nat), ∃ (w : Nat), ∃ (o : Nat), ∃ (n : Nat), Taken s f ∧ State.barWindow f off = some (w, o) ∧ s.flag F.GEN_STATUS_RECOVERY 0 = false ∧ s.flag F.PRT_STATE_WIPING (w / 2) = false ∧ s.blockOpen 0x40_0000 = true ∧ s.flag F.DMA_WIN_EN w = true ∧ s.flag F.DMA_WIN_FROZEN w = false ∧ let a := s.getF F.DMA_WIN_BASE w * 2 ^ 16 + o; a + n ≤ 2 ^ 48 ∧ s.ownsRange (w / 2) a n false = true) ∧
    (∃ (s : State), ∃ (f : Func), ∃ (off : Nat), ∃ (w : Nat), ∃ (o : Nat), ∃ (n : Nat), Taken s f ∧ State.barWindow f off = some (w, o) ∧ s.flag F.GEN_STATUS_RECOVERY 0 = false ∧ s.flag F.PRT_STATE_WIPING (w / 2) = false ∧ s.blockOpen 0x40_0000 = true ∧ s.flag F.DMA_WIN_EN w = true ∧ s.flag F.DMA_WIN_FROZEN w = false ∧ let a := s.getF F.DMA_WIN_BASE w * 2 ^ 16 + o; a + n ≤ 2 ^ 48 ∧ s.ownsRange (w / 2) a n false = false) ∧
    (∃ (s : State), ∃ (f : Func), ∃ (off : Nat), ∃ (w : Nat), ∃ (o : Nat), ∃ (n : Nat), Taken s f ∧ State.barWindow f off = some (w, o) ∧ s.flag F.GEN_STATUS_RECOVERY 0 = false ∧ s.flag F.PRT_STATE_WIPING (w / 2) = false ∧ s.blockOpen 0x40_0000 = true ∧ s.flag F.DMA_WIN_EN w = true ∧ s.flag F.DMA_WIN_FROZEN w = false ∧ let a := s.getF F.DMA_WIN_BASE w * 2 ^ 16 + o; a + n ≤ 2 ^ 48 ∧ s.ownsRange (w / 2) a n false = false ∧ (s.part (w / 2)).frzLog.length < 64) ∧
    (∃ (s : State), ∃ (f : Func), ∃ (off : Nat), ∃ (w : Nat), ∃ (o : Nat), Taken s f ∧ State.barWindow f off = some (w, o) ∧ s.flag F.GEN_STATUS_RECOVERY 0 = false ∧ (s.flag F.DMA_WIN_EN w = false ∨ s.flag F.DMA_WIN_FROZEN w = true ∨ s.flag F.PRT_STATE_WIPING (w / 2) = true)) ∧
    (∃ (s : State), ∃ (f : Func), ∃ (off : Nat), ∃ (w : Nat), ∃ (o : Nat), Taken s f ∧ State.barWindow f off = some (w, o) ∧ s.flag F.GEN_STATUS_RECOVERY 0 = false ∧ (s.flag F.DMA_WIN_EN w = false ∨ s.flag F.DMA_WIN_FROZEN w = true ∨ s.flag F.PRT_STATE_WIPING (w / 2) = true)) ∧
    (∃ (s : State), ∃ (f : Func), ∃ (off : Nat), ∃ (w : Nat), ∃ (o : Nat), Taken s f ∧ State.barWindow f off = some (w, o) ∧ s.flag F.GEN_STATUS_RECOVERY 0 = false ∧ (s.flag F.DMA_WIN_EN w = false ∨ s.flag F.DMA_WIN_FROZEN w = true ∨ s.flag F.PRT_STATE_WIPING (w / 2) = true)) ∧
    (∃ (s : State), ∃ (off : Nat), ∃ (b : List Byte), Taken s .pf ∧ s.flag F.GEN_STATUS_RECOVERY 0 = true ∧ s.getF F.PWR_STAT_STATE 0 ≠ 4 ∧ s.power.perst = false ∧ off + b.length ≤ 2 ^ 24) ∧
    (∃ (s : State), ∃ (off : Nat), ∃ (n : Nat), Taken s .pf ∧ s.flag F.GEN_STATUS_RECOVERY 0 = true ∧ s.getF F.PWR_STAT_STATE 0 ≠ 4 ∧ s.power.perst = false ∧ off + n ≤ 2 ^ 24) ∧
    (∃ (s : State), ∃ (f : Func), ∃ (h : Nat), h < 32 ∧ Open s f (F.DMA_MCFG_EN.off h) ∧ (s.mover h).chain = none ∧ s.getF F.DMA_MSTAT_STATE h = 0 ∧ (∀ p, p < 8 → s.running p = false ∧ s.plan p = none)) ∧
    (∃ (s : State), ∃ (f : Func), ∃ (h : Nat), h < 32 ∧ Open s f (F.DMA_MCFG_EN.off h) ∧ ((s.mover h).chain.isSome = true ∨ s.running (s.getF F.DMA_MCFG_OWNER h) = true)) :=
  ⟨⟨wWin 1, .pf, 2 ^ 32 + 16, 1, 16, [1, 2], by decide +kernel⟩,
   ⟨wWin 1, .vf 1, 2 ^ 32 + 16, 1, 16, 4, by decide +kernel⟩,
   ⟨(wWin 1).putF F.PRT_GRAN_OWNERS 0 0xFFFFFFFFFFFFFFFF, .pf, 2 ^ 32 + 16, 1, 16, 4, by decide +kernel⟩,
   ⟨(wWin 1).putF F.PRT_GRAN_OWNERS 0 0xFFFFFFFFFFFFFFFF, .pf, 2 ^ 32 + 16, 1, 16, 4, by decide +kernel⟩,
   ⟨wWin 0, .pf, 2 ^ 32 + 16, 1, 16, by decide +kernel⟩,
   ⟨(wWin 1).putF F.DMA_WIN_FROZEN 1 1, .pf, 2 ^ 32 + 16, 1, 16, by decide +kernel⟩,
   ⟨wWin 0, .pf, 2 ^ 32 + 16, 1, 16, by decide +kernel⟩,
   ⟨w1.putF F.GEN_STATUS_RECOVERY 0 1, 0x1000, [1, 2, 0], by decide +kernel⟩,
   ⟨{ w1.putF F.GEN_STATUS_RECOVERY 0 1 with sram := [(0x1001, 7)] }, 0x1000, 3, by decide +kernel⟩,
   ⟨w1, .pf, 31, by decide +kernel⟩,
   ⟨(wHm 16 none false), .pf, 0, by decide +kernel⟩⟩
/-! ### group 20 -/
def wClasses : Classes := { mbSize := 2, mbCount := 2, nclass := 2, maxlen := [4, 10] }
def wStmPlan : Plan := { wPlan with classes := some wClasses, tables := [wTable] }
def wLink : State := (w1.putF F.STM_PSTAT_UP 0 1).putF F.STM_PSTAT_UP 1 1 |>.putF F.STM_IBUF_SIZE 0 0x10000
def wKey : List Byte := List.range 88 |>.map fun i => BitVec.ofNat 8 (3 * i + 1)
def wStmPeer : Peer := { mac := 0xA1, live := true, an := 3, old := none, stage := 0, stream := 0, next := 0, buf := [], keys := wKey, oldKeys := [], rxPn := 4, oldPn := 0, txPn := 9 }
def wSa : State := { wLink with peers := [wStmPeer] }
def wStm : State := ({ wRun wStmPlan wLink with peers := [wStmPeer] })
def wSh (type : Nat) : StreamHdr := { port := 0, mac := 0xA1, type := type, part := 0, last := false, rank := 0, step := 1, seq := 0 }
def wSealed (pn : Nat) (text : List Byte) : List Byte := protect (fromPeer wKey) 3 pn (macBytes 0) (macBytes 0xA1) text
def wFr (h : StreamHdr) (d : List Byte) : List Byte := withFcs (wSealed 5 (streamBytes h d))
def wClear (h : StreamHdr) (d : List Byte) : List Byte := State.clearFrame (macBytes 0) (macBytes 0xA1) (streamBytes h d)
def wKex (last : Bool) (seq : Nat) : StreamHdr := { wSh 7 with last := last, seq := seq, step := 0 }
def wRecord : List Byte := leBytes 2 0 ++ leBytes 2 1 ++ leBytes 4 7 ++ leBytes 4 8 ++ leBytes 4 1 ++ leBytes 8 77 ++ leBytes 2 0 ++ leBytes 2 1 ++ leBytes 4 0 ++ leBytes 8 42
def wSamp (i len : Nat) (bad : Bool) : Sample := { rank := 0, step := 1, mb := 0, sample := i, length := len, dense := [], bags := [], bad := bad }
def wSamps (l0 l1 : Nat) (bad : Bool) : State := wStm.modPart 0 fun x => { x with samples := [wSamp 0 l0 false, wSamp 1 l1 bad] }
def wClass1 : Classes := { wClasses with mbCount := 1 }
def wPlan1 : Plan := { wStmPlan with classes := some wClass1 }
def wOneMb : State := (wSamps 3 5 false).modPart 0 fun x => { x with plan := some wPlan1 }
def wTaken (fs : List (Nat × List Byte)) : State := wStm.modPart 0 fun x => { x with streams := [{ mac := 0xA1, rank := 0, step := 1, frames := fs, taken := 0 }] }
def wRef : State := (wSamps 5 11 false).putF F.STM_REF_CTRL_ENTRIES 0 4 |>.putF F.STM_REF_CTRL_PROD 0 2 |>.putF F.STM_REF_BASE_BASE 0 (2 ^ 63 + 0x1000)
def wCkpt : Ckpt := { rank := 0, entry := 0xFFFFFFFF, offset := 0, grant := 4096, sent := 0 }
def wCkRun (c : Ckpt) (run : Bool) : State := ((wStm.setRun 0 run).putF F.STM_CKPT_DST_MAC 0 0xA1).modPart 0 fun x => { x with ckpt := some c, feeders := [⟨0, 0xA1⟩] }
def wStage (k : Nat) (b : List Byte) : State := { wSa with peers := [{ wStmPeer with stage := k, buf := b, next := 5 }] }
def wEnd (total : Nat) : List Byte := leBytes 2 0 ++ leBytes 2 0 ++ leBytes 4 2 ++ leBytes 8 total
def wMsg2 : List Byte := [2, 7, 0, 0] ++ List.replicate 1600 3
theorem formed_withFcs (f : List Byte) (h : 60 ≤ f.length) (h' : f.length ≤ 9212) : formed (withFcs f) = true := by
  obtain ⟨a, b, c, d⟩ := withFcs_parts f
  unfold formed frameBody
  rw [b, c, d, a]
  simp; omega
theorem body_withFcs (f : List Byte) : frameBody (withFcs f) = f := by
  obtain ⟨_, b, c, _⟩ := withFcs_parts f
  unfold frameBody
  rw [b, c]
theorem rest_withFcs (f : List Byte) (h : (f.drop 12).take 2 ≠ tagType) : frameRest (withFcs f) = f.drop 12 := by
  unfold frameRest
  rw [body_withFcs, if_neg h]
theorem wSealed_parts (t : List Byte) (h : 16 ≤ t.length) (h' : t.length ≤ 9168) : let b := withFcs (wSealed 5 t); let tag := secTag 3 5 t.length (macBytes 0xA1); let ct := (fromPeer wKey).cipher 5 t; formed b = true ∧ (frameBody b).take 12 = macBytes 0 ++ macBytes 0xA1 ∧ (frameRest b).take 2 = secType ∧ decide (32 ≤ (frameRest b).length) = true ∧ (frameRest b).length - 32 = t.length ∧ (frameRest b).take 16 = tag ∧ ((frameRest b).drop 16).take t.length = ct ∧ (frameRest b).drop (16 + t.length) = (fromPeer wKey).icv 5 (macBytes 0 ++ macBytes 0xA1 ++ tag) ct ∧ le tag 2 1 = 47 ∧ le tag 3 1 = shortLen t.length ∧ tag.drop 8 = macBytes 0xA1 ++ [0, 1] ∧ ofHighFirst ((tag.drop 4).take 4) = 5 ∧ (macBytes 0 ++ macBytes 0xA1).take 6 = macBytes 0 ∧ (macBytes 0 ++ macBytes 0xA1).drop 6 = macBytes 0xA1 ∧ leNat (macBytes 0xA1) = 0xA1 := by
  intro b tag ct
  obtain ⟨p1, p2, p3, p4, p5, p6, p7, p8⟩ := protect_parts (key := fromPeer wKey) 3 5 (own := macBytes 0) (src := macBytes 0xA1) t (by decide +kernel) (macBytes_length _) (macBytes_length _)
  obtain ⟨g0, g2, g3, g8, g4⟩ := secTag_parts (an := 3) (pn := 5) (n := t.length) (src := macBytes 0xA1) (by omega)
  have hr : frameRest b = secTag 3 5 t.length (macBytes 0xA1) ++ (ct ++ (fromPeer wKey).icv 5 (macBytes 0 ++ macBytes 0xA1 ++ tag) ct) := by
    rw [show frameRest b = (wSealed 5 t).drop 12 from rest_withFcs _ (by unfold wSealed; rw [p3, p5, g0]; decide)]
    exact p3
  rw [hr]
  refine ⟨formed_withFcs _ ?_ ?_, ?_, p5.trans g0, ?_, ?_, p6, p7, p8, g2, g3, g8, g4, by decide +kernel, by decide +kernel, by decide +kernel⟩
  · unfold wSealed; rw [p1]; omega
  · unfold wSealed; rw [p1]; omega
  · rw [show frameBody b = wSealed 5 t from body_withFcs _]; exact p2
  · exact decide_eq_true (by rw [p4]; omega)
  · rw [p4]; omega
theorem wText (t : List Byte) : (fromPeer wKey).cipher 5 ((fromPeer wKey).cipher 5 t) = t := SecKey.cipher_cipher _ _ (by decide +kernel)
theorem wRead (h : StreamHdr) (d : List Byte) (k : (h.port = 0 && h.mac = 0xA1 && h.type < 256 && h.part < 256 && h.rank < 2 ^ 17 && h.step < 2 ^ 64 && h.seq < 2 ^ 32 && d.length < 65536) = true) : readStream 0 0xA1 (streamBytes h d) = some (h, d) := by
  simp only [Bool.and_eq_true, decide_eq_true_eq] at k
  obtain ⟨⟨⟨⟨⟨⟨⟨k1, k2⟩, k3⟩, k4⟩, k5⟩, k6⟩, k7⟩, k8⟩ := k
  have := readStream_streamBytes h d k3 k4 k5 k6 k7 k8
  rwa [k1, k2] at this
theorem wHeard {s : State} {h : StreamHdr} {d : List Byte} {type : Nat} (k : (s.linkUp 0 && s.getF F.STM_PMAC_MAC 0 = 0 && s.assoc 0xA1 3 = some (fromPeer wKey, 4) && h.port = 0 && h.mac = 0xA1 && h.type = type && h.type ≠ 7 && h.type < 256 && h.part < 8 && h.rank < 2 ^ 17 && h.step < 2 ^ 64 && h.seq < 2 ^ 32 && d.length ≤ 9134) = true) : Heard s 0 (wFr h d) h d type := by
  simp only [Bool.and_eq_true, decide_eq_true_eq] at k
  obtain ⟨⟨⟨⟨⟨⟨⟨⟨⟨⟨⟨⟨k1, k2⟩, k3⟩, k4⟩, k5⟩, k6⟩, k7⟩, k8⟩, k9⟩, k10⟩, k11⟩, k12⟩, k13⟩ := k
  have e := State.hear_protect s 0 3 5 4 (fromPeer wKey) h d (by rw [k5]; exact k3) (by decide +kernel) (by omega) (by decide) (by omega) (by omega) k4 k8 k7 (by omega) k10 k11 k12 k13
  rw [k2, k5] at e
  exact ⟨k1, by unfold wFr wSealed; rw [e], k6, .inl (by omega)⟩
theorem wHeardClear {s : State} {h : StreamHdr} {d : List Byte} {k : Nat} (c : (s.linkUp k && s.getF F.STM_PMAC_MAC k = 0 && h.port = k && h.mac = 0xA1 && h.type = 7 && h.part < 8 && h.rank < 2 ^ 17 && h.step < 2 ^ 64 && h.seq < 2 ^ 32 && d.length ≤ State.kexRoom) = true) : Heard s k (wClear h d) h d 7 := by
  simp only [Bool.and_eq_true, decide_eq_true_eq] at c
  obtain ⟨⟨⟨⟨⟨⟨⟨⟨⟨k1, k2⟩, k3⟩, k4⟩, k5⟩, k6⟩, k7⟩, k8⟩, k9⟩, k10⟩ := c
  have e := State.hear_clear s h d (by omega) k5 (by omega) k7 k8 k9 k10
  rw [k3, k2, k4] at e
  exact ⟨k1, by unfold wClear; rw [e], k5, .inl (by omega)⟩
def wT (a : Byte) : List Byte := macBytes 0 ++ macBytes 0xA1 ++ secTag 3 5 36 (macBytes 0xA1) ++ List.replicate 36 1 ++ List.replicate 16 a
theorem wBad (a : Byte) (z : (fromPeer wKey).icv 5 (macBytes 0 ++ macBytes 0xA1 ++ secTag 3 5 36 (macBytes 0xA1)) (List.replicate 36 1) ≠ List.replicate 16 a) (c : (formed (withFcs (wT a)) && ((wT a).drop 12).take 2 = secType && 32 ≤ ((wT a).drop 12).length && (wT a).take 12 = macBytes 0 ++ macBytes 0xA1 && ((wT a).drop 12).take 16 = secTag 3 5 36 (macBytes 0xA1) && ((wT a).drop 12).length - 32 = 36 && (((wT a).drop 12).drop 16).take 36 = List.replicate 36 1 && ((wT a).drop 12).drop (16 + 36) = List.replicate 16 a) = true) : let b := withFcs (wT a); let addrs := (frameBody b).take 12; let rest := frameRest b; let tag := rest.take 16; let n := rest.length - 32; let ct := (rest.drop 16).take n; let pn := fullPn (4 + 1) (ofHighFirst ((tag.drop 4).take 4)); formed b = true ∧ addrs = macBytes 0 ++ macBytes 0xA1 ∧ rest.take 2 = secType ∧ decide (32 ≤ rest.length) = true ∧ tag = secTag 3 5 36 (macBytes 0xA1) ∧ n = 36 ∧ decide ((fromPeer wKey).icv pn (addrs ++ tag) ct = rest.drop (16 + n)) = false := by
  simp only [Bool.and_eq_true, decide_eq_true_eq] at c
  obtain ⟨⟨⟨⟨⟨⟨⟨c1, c2⟩, c3⟩, c4⟩, c5⟩, c6⟩, c7⟩, c8⟩ := c
  intro b addrs rest tag n ct pn
  have hr : rest = (wT a).drop 12 := rest_withFcs _ (by rw [c2]; decide)
  have ha : addrs = macBytes 0 ++ macBytes 0xA1 := by rw [← c4]; exact congrArg (List.take 12) (body_withFcs _)
  have ht : tag = secTag 3 5 36 (macBytes 0xA1) := by rw [← c5, ← hr]
  have hn : n = 36 := by rw [← c6, ← hr]
  have hc : ct = List.replicate 36 1 := by rw [← c7, ← hr, ← hn]
  have hp : pn = 5 := by show fullPn (4 + 1) (ofHighFirst ((tag.drop 4).take 4)) = 5; rw [ht]; decide +kernel
  refine ⟨c1, ha, by rw [hr]; exact c2, decide_eq_true (by rw [hr]; exact c3), ht, hn, ?_⟩
  rw [hp, ha, ht, hc, hn, hr, c8]
  exact decide_eq_false z
theorem wRegister (k : Nat) (b : List Byte) : frameOf (.registerFrame ⟨k, b⟩) = some (k, b) := rfl
theorem wOther (k : Nat) (b : List Byte) : frameOf (.otherFrame ⟨k, b⟩) = some (k, b) := rfl
theorem wSample (k : Nat) (b : List Byte) : frameOf (.sampleFrame k b) = some (k, b) := rfl
theorem wThree (b : List Byte) : [] ++ [] ++ b = b := rfl
theorem wTwo (b : List Byte) : [] ++ b = b := rfl
theorem wCredit (k : Nat) (b : List Byte) : frameOf (.creditFrame k [] b) = some (k, b) := rfl

theorem witness_FramesAreChecked :
    (∃ (s : State), ∃ (k : Nat), ∃ (b : List Byte), ∃ (c : Instr), frameOf c = some (k, b) ∧ s.linkUp k = false) ∧
    (∃ (s : State), ∃ (k : Nat), ∃ (b : List Byte), ∃ (c : Instr), frameOf c = some (k, b) ∧ s.linkUp k = true ∧ formed b = false) ∧
    (∃ (s : State), ∃ (k : Nat), ∃ (b : List Byte), ∃ (c : Instr), frameOf c = some (k, b) ∧ let addrs := (frameBody b).take 12; let mine : Bool := addrs.take 6 = macBytes (s.getF F.STM_PMAC_MAC k); s.linkUp k = true ∧ formed b = true ∧ mine = false) ∧
    (∃ (s : State), ∃ (k : Nat), ∃ (b : List Byte), ∃ (c : Instr), frameOf c = some (k, b) ∧ let addrs := (frameBody b).take 12; let rest := frameRest b; let mac := leNat (addrs.drop 6); let mine : Bool := addrs.take 6 = macBytes (s.getF F.STM_PMAC_MAC k); let inSa : Bool := rest.take 2 = secType; s.linkUp k = true ∧ formed b = true ∧ mine = true ∧ inSa = false ∧ (readStream k mac rest).all (·.1.type ≠ 7) = true) ∧
    (∃ (s : State), ∃ (k : Nat), ∃ (b : List Byte), ∃ (c : Instr), frameOf c = some (k, b) ∧ let addrs := (frameBody b).take 12; let rest := frameRest b; let tag := rest.take 16; let n := rest.length - 32; let mine : Bool := addrs.take 6 = macBytes (s.getF F.STM_PMAC_MAC k); let inSa : Bool := rest.take 2 = secType; let whole : Bool := 32 ≤ rest.length && le tag 2 1 / 4 = 0x0B && le tag 3 1 = shortLen n; s.linkUp k = true ∧ formed b = true ∧ mine = true ∧ inSa = true ∧ whole = false) ∧
    (∃ (s : State), ∃ (k : Nat), ∃ (b : List Byte), ∃ (c : Instr), frameOf c = some (k, b) ∧ let addrs := (frameBody b).take 12; let rest := frameRest b; let tag := rest.take 16; let n := rest.length - 32; let mac := leNat (addrs.drop 6); let an := le tag 2 1 % 4; let mine : Bool := addrs.take 6 = macBytes (s.getF F.STM_PMAC_MAC k); let inSa : Bool := rest.take 2 = secType; let whole : Bool := 32 ≤ rest.length && le tag 2 1 / 4 = 0x0B && le tag 3 1 = shortLen n; s.linkUp k = true ∧ formed b = true ∧ mine = true ∧ inSa = true ∧ whole = true ∧ (tag.drop 8 ≠ addrs.drop 6 ++ [0, 1] ∨ s.assoc mac an = none)) ∧
    (∃ (s : State), ∃ (k : Nat), ∃ (b : List Byte), ∃ (c : Instr), frameOf c = some (k, b) ∧ let addrs := (frameBody b).take 12; let rest := frameRest b; let tag := rest.take 16; let n := rest.length - 32; let mac := leNat (addrs.drop 6); let an := le tag 2 1 % 4; let mine : Bool := addrs.take 6 = macBytes (s.getF F.STM_PMAC_MAC k); let inSa : Bool := rest.take 2 = secType; let whole : Bool := 32 ≤ rest.length && le tag 2 1 / 4 = 0x0B && le tag 3 1 = shortLen n; s.linkUp k = true ∧ formed b = true ∧ mine = true ∧ inSa = true ∧ whole = true ∧ (tag.drop 8 ≠ addrs.drop 6 ++ [0, 1] ∨ s.assoc mac an = none)) ∧
    (∃ (s : State), ∃ (k : Nat), ∃ (b : List Byte), ∃ (c : Instr), ∃ (key : SecKey), ∃ (last : Nat), frameOf c = some (k, b) ∧ let addrs := (frameBody b).take 12; let rest := frameRest b; let tag := rest.take 16; let n := rest.length - 32; let ct := (rest.drop 16).take n; let mac := leNat (addrs.drop 6); let an := le tag 2 1 % 4; let mine : Bool := addrs.take 6 = macBytes (s.getF F.STM_PMAC_MAC k); let inSa : Bool := rest.take 2 = secType; let whole : Bool := 32 ≤ rest.length && le tag 2 1 / 4 = 0x0B && le tag 3 1 = shortLen n; s.linkUp k = true ∧ formed b = true ∧ mine = true ∧ inSa = true ∧ whole = true ∧ tag.drop 8 = addrs.drop 6 ++ [0, 1] ∧ s.assoc mac an = some (key, last) ∧ let pn := fullPn (last + 1) (ofHighFirst ((tag.drop 4).take 4)); let good : Bool := key.icv pn (addrs ++ tag) ct = rest.drop (16 + n); good = false) ∧
    (∃ (s : State), ∃ (k : Nat), ∃ (b : List Byte), ∃ (c : Instr), ∃ (key : SecKey), ∃ (last : Nat), frameOf c = some (k, b) ∧ let addrs := (frameBody b).take 12; let rest := frameRest b; let tag := rest.take 16; let n := rest.length - 32; let ct := (rest.drop 16).take n; let mac := leNat (addrs.drop 6); let an := le tag 2 1 % 4; let mine : Bool := addrs.take 6 = macBytes (s.getF F.STM_PMAC_MAC k); let inSa : Bool := rest.take 2 = secType; let whole : Bool := 32 ≤ rest.length && le tag 2 1 / 4 = 0x0B && le tag 3 1 = shortLen n; s.linkUp k = true ∧ formed b = true ∧ mine = true ∧ inSa = true ∧ whole = true ∧ tag.drop 8 = addrs.drop 6 ++ [0, 1] ∧ s.assoc mac an = some (key, last) ∧ let pn := fullPn (last + 1) (ofHighFirst ((tag.drop 4).take 4)); let good : Bool := key.icv pn (addrs ++ tag) ct = rest.drop (16 + n); good = true ∧ pn ≤ last) ∧
    (∃ (s : State), ∃ (k : Nat), ∃ (b : List Byte), ∃ (c : Instr), ∃ (key : SecKey), ∃ (last : Nat), frameOf c = some (k, b) ∧ let addrs := (frameBody b).take 12; let rest := frameRest b; let tag := rest.take 16; let n := rest.length - 32; let ct := (rest.drop 16).take n; let mac := leNat (addrs.drop 6); let an := le tag 2 1 % 4; let mine : Bool := addrs.take 6 = macBytes (s.getF F.STM_PMAC_MAC k); let inSa : Bool := rest.take 2 = secType; let whole : Bool := 32 ≤ rest.length && le tag 2 1 / 4 = 0x0B && le tag 3 1 = shortLen n; s.linkUp k = true ∧ formed b = true ∧ mine = true ∧ inSa = true ∧ whole = true ∧ tag.drop 8 = addrs.drop 6 ++ [0, 1] ∧ s.assoc mac an = some (key, last) ∧ let pn := fullPn (last + 1) (ofHighFirst ((tag.drop 4).take 4)); let good : Bool := key.icv pn (addrs ++ tag) ct = rest.drop (16 + n); good = true ∧ last < pn ∧ (readStream k mac (key.cipher pn ct)).all (·.1.type = 7) = true) ∧
    (∃ (s : State), ∃ (k : Nat), ∃ (b : List Byte), ∃ (c : Instr), ∃ (key : SecKey), ∃ (last : Nat), ∃ (h : StreamHdr), ∃ (d : List Byte), frameOf c = some (k, b) ∧ let addrs := (frameBody b).take 12; let rest := frameRest b; let tag := rest.take 16; let n := rest.length - 32; let ct := (rest.drop 16).take n; let mac := leNat (addrs.drop 6); let an := le tag 2 1 % 4; let mine : Bool := addrs.take 6 = macBytes (s.getF F.STM_PMAC_MAC k); let inSa : Bool := rest.take 2 = secType; let whole : Bool := 32 ≤ rest.length && le tag 2 1 / 4 = 0x0B && le tag 3 1 = shortLen n; s.linkUp k = true ∧ formed b = true ∧ mine = true ∧ inSa = true ∧ whole = true ∧ tag.drop 8 = addrs.drop 6 ++ [0, 1] ∧ s.assoc mac an = some (key, last) ∧ let pn := fullPn (last + 1) (ofHighFirst ((tag.drop 4).take 4)); let good : Bool := key.icv pn (addrs ++ tag) ct = rest.drop (16 + n); good = true ∧ last < pn ∧ readStream k mac (key.cipher pn ct) = some (h, d) ∧ h.type ≠ 7) ∧
    (∃ (s : State), ∃ (k : Nat), ∃ (b : List Byte), ∃ (c : Instr), ∃ (key : SecKey), ∃ (last : Nat), ∃ (h : StreamHdr), ∃ (d : List Byte), frameOf c = some (k, b) ∧ let addrs := (frameBody b).take 12; let rest := frameRest b; let tag := rest.take 16; let n := rest.length - 32; let ct := (rest.drop 16).take n; let mac := leNat (addrs.drop 6); let an := le tag 2 1 % 4; let mine : Bool := addrs.take 6 = macBytes (s.getF F.STM_PMAC_MAC k); let inSa : Bool := rest.take 2 = secType; let whole : Bool := 32 ≤ rest.length && le tag 2 1 / 4 = 0x0B && le tag 3 1 = shortLen n; s.linkUp k = true ∧ formed b = true ∧ mine = true ∧ inSa = true ∧ whole = true ∧ tag.drop 8 = addrs.drop 6 ++ [0, 1] ∧ s.assoc mac an = some (key, last) ∧ let pn := fullPn (last + 1) (ofHighFirst ((tag.drop 4).take 4)); let good : Bool := key.icv pn (addrs ++ tag) ct = rest.drop (16 + n); good = true ∧ last < pn ∧ readStream k mac (key.cipher pn ct) = some (h, d) ∧ h.type ≠ 7 ∧ h.type ∉ [1, 2, 4, 5]) ∧
    (∃ (s : State), ∃ (k : Nat), ∃ (b : List Byte), ∃ (c : Instr), ∃ (key : SecKey), ∃ (last : Nat), ∃ (h : StreamHdr), ∃ (d : List Byte), frameOf c = some (k, b) ∧ let addrs := (frameBody b).take 12; let rest := frameRest b; let tag := rest.take 16; let n := rest.length - 32; let ct := (rest.drop 16).take n; let mac := leNat (addrs.drop 6); let an := le tag 2 1 % 4; let mine : Bool := addrs.take 6 = macBytes (s.getF F.STM_PMAC_MAC k); let inSa : Bool := rest.take 2 = secType; let whole : Bool := 32 ≤ rest.length && le tag 2 1 / 4 = 0x0B && le tag 3 1 = shortLen n; s.linkUp k = true ∧ formed b = true ∧ mine = true ∧ inSa = true ∧ whole = true ∧ tag.drop 8 = addrs.drop 6 ++ [0, 1] ∧ s.assoc mac an = some (key, last) ∧ let pn := fullPn (last + 1) (ofHighFirst ((tag.drop 4).take 4)); let good : Bool := key.icv pn (addrs ++ tag) ct = rest.drop (16 + n); good = true ∧ last < pn ∧ readStream k mac (key.cipher pn ct) = some (h, d) ∧ h.type ≠ 7 ∧ 7 < h.part ∧ h.type = 4) :=
  ⟨⟨w1, 0, [1, 2, 3], .sampleFrame 0 [1, 2, 3], by decide +kernel⟩,
   ⟨wSa, 0, [1, 2, 3], .endFrame 0 [] [] [1, 2, 3], by decide +kernel⟩,
   ⟨wSa.putF F.STM_PMAC_MAC 0 5, 0, wFr (wSh 1) [1, 2], .sampleFrame 0 (wFr (wSh 1) [1, 2]), by obtain ⟨a1, a2, a3, a4, a5, a6, a7, a8, a9, a10, a11, a12, a13, a14, a15⟩ := wSealed_parts (streamBytes (wSh 1) [1, 2]) (by decide +kernel) (by decide +kernel); refine ⟨wSample _ _, ?_⟩; simp only [wFr, a1, a2, a3, a4, a5, a6, a7, a8, a9, a10, a11, a12, a13, a14, a15]; decide +kernel⟩,
   ⟨wSa, 0, wClear (wSh 4) [], .registerFrame ⟨0, (wClear (wSh 4) [])⟩, by refine ⟨wRegister _ _, ?_⟩; have f : formed (wClear (wSh 4) []) = true := formed_withFcs _ (by decide +kernel) (by decide +kernel); have e : frameBody (wClear (wSh 4) []) = macBytes 0 ++ macBytes 0xA1 ++ streamBytes (wSh 4) [] ++ List.replicate 14 0 := body_withFcs _; have r : frameRest (wClear (wSh 4) []) = (macBytes 0 ++ macBytes 0xA1 ++ streamBytes (wSh 4) [] ++ List.replicate 14 0).drop 12 := rest_withFcs _ (by decide +kernel); simp only [f, e, r]; decide +kernel⟩,
   ⟨wSa, 0, withFcs (macBytes 0 ++ macBytes 0xA1 ++ secType ++ List.replicate 60 0), .creditFrame 0 [] (withFcs (macBytes 0 ++ macBytes 0xA1 ++ secType ++ List.replicate 60 0)), by refine ⟨wCredit _ _, ?_⟩; simp only [body_withFcs, formed_withFcs (macBytes 0 ++ macBytes 0xA1 ++ secType ++ List.replicate 60 0) (by decide +kernel) (by decide +kernel), rest_withFcs (macBytes 0 ++ macBytes 0xA1 ++ secType ++ List.replicate 60 0) (by decide +kernel)]; decide +kernel⟩,
   ⟨wLink, 0, wFr (wSh 1) [1, 2], .sampleFrame 0 (wFr (wSh 1) [1, 2]), by obtain ⟨a1, a2, a3, a4, a5, a6, a7, a8, a9, a10, a11, a12, a13, a14, a15⟩ := wSealed_parts (streamBytes (wSh 1) [1, 2]) (by decide +kernel) (by decide +kernel); refine ⟨wSample _ _, ?_⟩; simp only [wFr, a1, a2, a3, a4, a5, a6, a7, a8, a9, a10, a11, a12, a13, a14, a15]; decide +kernel⟩,
   ⟨{ wSa with peers := [{ wStmPeer with an := 2 }] }, 0, wFr (wSh 4) [], .otherFrame ⟨0, (wFr (wSh 4) [])⟩, by obtain ⟨a1, a2, a3, a4, a5, a6, a7, a8, a9, a10, a11, a12, a13, a14, a15⟩ := wSealed_parts (streamBytes (wSh 4) []) (by decide +kernel) (by decide +kernel); refine ⟨wOther _ _, ?_⟩; simp only [wFr, a1, a2, a3, a4, a5, a6, a7, a8, a9, a10, a11, a12, a13, a14, a15]; decide +kernel⟩,
   if z : (fromPeer wKey).icv 5 (macBytes 0 ++ macBytes 0xA1 ++ secTag 3 5 36 (macBytes 0xA1)) (List.replicate 36 1) = List.replicate 16 0 then by obtain ⟨b1, b2, b3, b4, b5, b6, b7⟩ := wBad 1 (by rw [z]; decide) (by rw [Bool.and_eq_true, Bool.and_eq_true, Bool.and_eq_true, Bool.and_eq_true, Bool.and_eq_true, Bool.and_eq_true, Bool.and_eq_true]; exact ⟨⟨⟨⟨⟨⟨⟨formed_withFcs _ (by decide +kernel) (by decide +kernel), by decide +kernel⟩, by decide +kernel⟩, by decide +kernel⟩, by decide +kernel⟩, by decide +kernel⟩, by decide +kernel⟩, by decide +kernel⟩); refine ⟨wSa, 0, withFcs (wT 1), .sampleFrame 0 (withFcs (wT 1)), fromPeer wKey, 4, wSample _ _, by decide +kernel, b1, ?_, ?_, ?_, ?_, ?_, b7⟩ <;> simp only [b2, b3, b4, b5, b6] <;> decide +kernel else by obtain ⟨b1, b2, b3, b4, b5, b6, b7⟩ := wBad 0 z (by rw [Bool.and_eq_true, Bool.and_eq_true, Bool.and_eq_true, Bool.and_eq_true, Bool.and_eq_true, Bool.and_eq_true, Bool.and_eq_true]; exact ⟨⟨⟨⟨⟨⟨⟨formed_withFcs _ (by decide +kernel) (by decide +kernel), by decide +kernel⟩, by decide +kernel⟩, by decide +kernel⟩, by decide +kernel⟩, by decide +kernel⟩, by decide +kernel⟩, by decide +kernel⟩); refine ⟨wSa, 0, withFcs (wT 0), .sampleFrame 0 (withFcs (wT 0)), fromPeer wKey, 4, wSample _ _, by decide +kernel, b1, ?_, ?_, ?_, ?_, ?_, b7⟩ <;> simp only [b2, b3, b4, b5, b6] <;> decide +kernel,
   ⟨{ wSa with peers := [{ wStmPeer with rxPn := 5 }] }, 0, wFr (wSh 1) [1, 2], .sampleFrame 0 (wFr (wSh 1) [1, 2]), fromPeer wKey, 5, by obtain ⟨a1, a2, a3, a4, a5, a6, a7, a8, a9, a10, a11, a12, a13, a14, a15⟩ := wSealed_parts (streamBytes (wSh 1) [1, 2]) (by decide +kernel) (by decide +kernel); refine ⟨wSample _ _, ?_⟩; simp only [wFr, a1, a2, a3, a4, a5, a6, a7, a8, a9, a10, a11, a12, a13, a14, a15, show fullPn (4 + 1) 5 = 5 by decide, show fullPn (5 + 1) 5 = 5 by decide, decide_true, wText]; decide +kernel⟩,
   ⟨wSa, 0, withFcs (wSealed 5 (List.replicate 40 1)), .creditFrame 0 [] (withFcs (wSealed 5 (List.replicate 40 1))), fromPeer wKey, 4, by obtain ⟨a1, a2, a3, a4, a5, a6, a7, a8, a9, a10, a11, a12, a13, a14, a15⟩ := wSealed_parts (List.replicate 40 1) (by decide +kernel) (by decide +kernel); refine ⟨wCredit _ _, ?_⟩; simp only [wFr, a1, a2, a3, a4, a5, a6, a7, a8, a9, a10, a11, a12, a13, a14, a15, show fullPn (4 + 1) 5 = 5 by decide, show fullPn (5 + 1) 5 = 5 by decide, decide_true, wText]; decide +kernel⟩,
   ⟨wSa, 0, wFr (wSh 1) [1, 2], .sampleFrame 0 (wFr (wSh 1) [1, 2]), fromPeer wKey, 4, wSh 1, [1, 2], by obtain ⟨a1, a2, a3, a4, a5, a6, a7, a8, a9, a10, a11, a12, a13, a14, a15⟩ := wSealed_parts (streamBytes (wSh 1) [1, 2]) (by decide +kernel) (by decide +kernel); refine ⟨wSample _ _, ?_⟩; simp only [wFr, a1, a2, a3, a4, a5, a6, a7, a8, a9, a10, a11, a12, a13, a14, a15, show fullPn (4 + 1) 5 = 5 by decide, show fullPn (5 + 1) 5 = 5 by decide, decide_true, wText, wRead (wSh 1) [1, 2] (by decide +kernel)]; decide +kernel⟩,
   ⟨wSa, 0, wFr (wSh 9) [1, 2], .sampleFrame 0 (wFr (wSh 9) [1, 2]), fromPeer wKey, 4, wSh 9, [1, 2], by obtain ⟨a1, a2, a3, a4, a5, a6, a7, a8, a9, a10, a11, a12, a13, a14, a15⟩ := wSealed_parts (streamBytes (wSh 9) [1, 2]) (by decide +kernel) (by decide +kernel); refine ⟨wSample _ _, ?_⟩; simp only [wFr, a1, a2, a3, a4, a5, a6, a7, a8, a9, a10, a11, a12, a13, a14, a15, show fullPn (4 + 1) 5 = 5 by decide, show fullPn (5 + 1) 5 = 5 by decide, decide_true, wText, wRead (wSh 9) [1, 2] (by decide +kernel)]; decide +kernel⟩,
   ⟨wSa, 0, wFr { wSh 4 with part := 8 } [], .registerFrame ⟨0, (wFr { wSh 4 with part := 8 } [])⟩, fromPeer wKey, 4, { wSh 4 with part := 8 }, [], by obtain ⟨a1, a2, a3, a4, a5, a6, a7, a8, a9, a10, a11, a12, a13, a14, a15⟩ := wSealed_parts (streamBytes { wSh 4 with part := 8 } []) (by decide +kernel) (by decide +kernel); refine ⟨wRegister _ _, ?_⟩; simp only [wFr, a1, a2, a3, a4, a5, a6, a7, a8, a9, a10, a11, a12, a13, a14, a15, show fullPn (4 + 1) 5 = 5 by decide, show fullPn (5 + 1) 5 = 5 by decide, decide_true, wText, wRead { wSh 4 with part := 8 } [] (by decide +kernel)]; decide +kernel⟩⟩
theorem witness_StreamFramesReadBack :
    (∃ (s : State), ∃ (h : StreamHdr), ∃ (d : List Byte), ∃ (key : SecKey), ∃ (an : Nat), ∃ (last : Nat), ∃ (pn : Nat), s.linkUp h.port = true ∧ h.mac < 2 ^ 48 ∧ h.type < 256 ∧ h.part < 8 ∧ h.rank < 2 ^ 17 ∧ h.step < 2 ^ 64 ∧ h.seq < 2 ^ 32 ∧ s.assoc h.mac an = some (key, last) ∧ key.key.length = 32 ∧ an < 4 ∧ last < pn ∧ fullPn (last + 1) (pn % 2 ^ 32) = pn ∧ h.type ≠ 7 ∧ d.length ≤ 9134) ∧
    (∃ (s : State), ∃ (h : StreamHdr), ∃ (d : List Byte), ∃ (key : SecKey), ∃ (an : Nat), ∃ (last : Nat), ∃ (pn : Nat), s.linkUp h.port = true ∧ h.mac < 2 ^ 48 ∧ h.type < 256 ∧ h.part < 8 ∧ h.rank < 2 ^ 17 ∧ h.step < 2 ^ 64 ∧ h.seq < 2 ^ 32 ∧ s.assoc h.mac an = some (key, last) ∧ key.key.length = 32 ∧ an < 4 ∧ last < pn ∧ fullPn (last + 1) (pn % 2 ^ 32) = pn ∧ h.type ≠ 7 ∧ d.length ≤ 9134) ∧
    (∃ (s : State), ∃ (h : StreamHdr), ∃ (d : List Byte), ∃ (key : SecKey), ∃ (an : Nat), ∃ (last : Nat), ∃ (pn : Nat), s.linkUp h.port = true ∧ h.mac < 2 ^ 48 ∧ h.type < 256 ∧ h.part < 8 ∧ h.rank < 2 ^ 17 ∧ h.step < 2 ^ 64 ∧ h.seq < 2 ^ 32 ∧ s.assoc h.mac an = some (key, last) ∧ key.key.length = 32 ∧ an < 4 ∧ last < pn ∧ fullPn (last + 1) (pn % 2 ^ 32) = pn ∧ h.type ≠ 7 ∧ d.length ≤ 9134 ∧ h.type = 4) ∧
    (∃ (s : State), ∃ (h : StreamHdr), ∃ (d : List Byte), s.linkUp h.port = true ∧ h.mac < 2 ^ 48 ∧ h.type < 256 ∧ h.part < 8 ∧ h.rank < 2 ^ 17 ∧ h.step < 2 ^ 64 ∧ h.seq < 2 ^ 32 ∧ h.type = 7 ∧ d.length ≤ State.kexRoom) ∧
    (∃ (s : State), ∃ (h : StreamHdr), ∃ (d : List Byte), s.linkUp h.port = true ∧ h.mac < 2 ^ 48 ∧ h.type < 256 ∧ h.part < 8 ∧ h.rank < 2 ^ 17 ∧ h.step < 2 ^ 64 ∧ h.seq < 2 ^ 32 ∧ h.type = 7 ∧ d.length ≤ State.kexRoom) :=
  ⟨⟨wSa, { wSh 1 with rank := 5, step := 9, seq := 3, part := 2, last := true }, [4, 5, 6], fromPeer wKey, 3, 4, 7, by decide +kernel⟩,
   ⟨wSa, { wSh 1 with rank := 5, step := 9, seq := 3, part := 2, last := true }, [4, 5, 6], fromPeer wKey, 3, 4, 7, by decide +kernel⟩,
   ⟨wSa, { wSh 4 with rank := 5 }, [], fromPeer wKey, 3, 4, 2 ^ 31, by decide +kernel⟩,
   ⟨wSa, wKex true 3, [1, 0, 0, 0], by decide +kernel⟩,
   ⟨wSa, wKex true 3, [1, 0, 0, 0], by decide +kernel⟩⟩
theorem witness_SamplesAreTaken :
    (∃ (s : State), ∃ (k : Nat), ∃ (b : List Byte), ∃ (h : StreamHdr), ∃ (d : List Byte), Heard s k b h d 1 ∧ let p := h.part; ((s.plan p).bind (·.classes) = none ∨ (s.ranksHere p).contains h.rank = false ∨ h.step < s.curStep p ∨ s.curStep p + 2 < h.step)) ∧
    (∃ (s : State), ∃ (k : Nat), ∃ (b : List Byte), ∃ (h : StreamHdr), ∃ (d : List Byte), Heard s k b h d 1 ∧ let p := h.part; ((s.plan p).bind (·.classes) = none ∨ (s.ranksHere p).contains h.rank = false ∨ h.step < s.curStep p ∨ s.curStep p + 2 < h.step)) ∧
    (∃ (s : State), ∃ (k : Nat), ∃ (b : List Byte), ∃ (h : StreamHdr), ∃ (d : List Byte), Heard s k b h d 1 ∧ let p := h.part; ((s.plan p).bind (·.classes) = none ∨ (s.ranksHere p).contains h.rank = false ∨ h.step < s.curStep p ∨ s.curStep p + 2 < h.step)) ∧
    (∃ (s : State), ∃ (k : Nat), ∃ (b : List Byte), ∃ (h : StreamHdr), ∃ (d : List Byte), Heard s k b h d 1 ∧ let p := h.part; let v := s.streamOfFeeder p h.mac h.rank h.step; s.misrouted h = false ∧ v.frames.any (·.1 = h.seq) = true) ∧
    (∃ (s : State), ∃ (k : Nat), ∃ (b : List Byte), ∃ (h : StreamHdr), ∃ (d : List Byte), Heard s k b h d 1 ∧ let p := h.part; let v := s.streamOfFeeder p h.mac h.rank h.step; let room : Bool := s.heldBytes p h.rank + d.length ≤ s.getF F.STM_IBUF_SIZE p; s.misrouted h = false ∧ v.frames.any (·.1 = h.seq) = false ∧ room = false) ∧
    (∃ (s : State), ∃ (k : Nat), ∃ (b : List Byte), ∃ (h : StreamHdr), ∃ (d : List Byte), Heard s k b h d 1 ∧ let p := h.part; let v := s.streamOfFeeder p h.mac h.rank h.step; let room : Bool := s.heldBytes p h.rank + d.length ≤ s.getF F.STM_IBUF_SIZE p; s.misrouted h = false ∧ v.frames.any (·.1 = h.seq) = false ∧ room = true ∧ d.length < 16 ∧ v.frames = [] ∧ v.taken = 0) ∧
    (∃ (s : State), ∃ (k : Nat), ∃ (b : List Byte), ∃ (h : StreamHdr), ∃ (d : List Byte), Heard s k b h d 1 ∧ let p := h.part; let v := s.streamOfFeeder p h.mac h.rank h.step; let room : Bool := s.heldBytes p h.rank + d.length ≤ s.getF F.STM_IBUF_SIZE p; s.misrouted h = false ∧ v.frames.any (·.1 = h.seq) = false ∧ room = true ∧ d.length < 16 ∧ v.frames = [] ∧ v.taken = 0) ∧
    (∃ (s : State), ∃ (k : Nat), ∃ (b : List Byte), ∃ (h : StreamHdr), ∃ (d : List Byte), ∃ (x : Sample), Heard s k b h d 1 ∧ let p := h.part; let v := s.streamOfFeeder p h.mac h.rank h.step; let room : Bool := s.heldBytes p h.rank + d.length ≤ s.getF F.STM_IBUF_SIZE p; s.misrouted h = false ∧ v.frames = [] ∧ v.taken = 0 ∧ h.seq = 0 ∧ room = true ∧ readRecord d h.rank h.step = some (x, d.length) ∧ x.mb < (s.mbCount p).1 ∧ s.endOf p h.rank h.step x.mb = none ∧ (s.samplesOf p h.rank h.step x.mb).any (·.sample = x.sample) = false) :=
  ⟨⟨wSa, 0, wFr (wSh 1) [1, 2], wSh 1, [1, 2], ⟨wHeard (by decide +kernel), by decide +kernel⟩⟩,
   ⟨wStm, 0, wFr { wSh 1 with step := 3 } [1, 2], { wSh 1 with step := 3 }, [1, 2], ⟨wHeard (by decide +kernel), by decide +kernel⟩⟩,
   ⟨wStm.modPart 0 fun x => { x with plan := some wPlan }, 0, wFr (wSh 1) [1, 2], wSh 1, [1, 2], ⟨wHeard (by decide +kernel), by decide +kernel⟩⟩,
   ⟨wTaken [(0, [1])], 0, wFr (wSh 1) [1, 2], wSh 1, [1, 2], ⟨wHeard (by decide +kernel), by decide +kernel⟩⟩,
   ⟨wStm.putF F.STM_IBUF_SIZE 0 1, 0, wFr (wSh 1) [1, 2], wSh 1, [1, 2], ⟨wHeard (by decide +kernel), by decide +kernel⟩⟩,
   ⟨wStm, 0, wFr (wSh 1) (List.replicate 15 1), wSh 1, List.replicate 15 1, ⟨wHeard (by decide +kernel), by decide +kernel⟩⟩,
   ⟨wStm.putF F.STM_IBUF_SIZE 0 2, 0, wFr { wSh 1 with seq := 4 } [1, 2], { wSh 1 with seq := 4 }, [1, 2], ⟨wHeard (by decide +kernel), by decide +kernel⟩⟩,
   ⟨wStm, 0, wFr (wSh 1) wRecord, wSh 1, wRecord, { wSamp 1 7 false with dense := leBytes 8 77, bags := [(0, [⟨1, 42, one32⟩])] }, ⟨wHeard (by decide +kernel), by decide +kernel⟩⟩⟩
theorem witness_MicroBatchesAreAdmitted :
    (∃ (s : State), ∃ (k : Nat), ∃ (x : List Byte), ∃ (y : List Byte), ∃ (z : List Byte), ∃ (b : List Byte), ∃ (h : StreamHdr), ∃ (d : List Byte), ∃ (pl : Plan), ∃ (c : Classes), ∃ j, x ++ y ++ z = b ∧ Heard s k b h d 5 ∧ 16 ≤ d.length ∧ s.misrouted h = false ∧ le d 0 2 < (s.mbCount h.part).1 ∧ s.endOf h.part h.rank h.step (le d 0 2) = none ∧ s.plan h.part = some pl ∧ pl.classes = some c ∧ le d 4 4 = c.mbSize ∧ let mb := le d 0 2; let total := le d 8 8; let p := h.part; let fs := (s.streamOfFeeder p h.mac h.rank h.step).frames; let got := inOrderFrames fs fs.length 0; let vs := s.samplesOf p h.rank h.step mb; let whole : Bool := (List.range c.mbSize).all fun i => vs.any (·.sample = i); got.1.length < total ∧ whole = false ∧ s.sendPort = some j) ∧
    (∃ (s : State), ∃ (k : Nat), ∃ (x : List Byte), ∃ (y : List Byte), ∃ (z : List Byte), ∃ (b : List Byte), ∃ (h : StreamHdr), ∃ (d : List Byte), ∃ (pl : Plan), ∃ (c : Classes), ∃ (n : Nat), x ++ y ++ z = b ∧ Heard s k b h d 5 ∧ 16 ≤ d.length ∧ s.misrouted h = false ∧ le d 0 2 < (s.mbCount h.part).1 ∧ s.endOf h.part h.rank h.step (le d 0 2) = none ∧ s.plan h.part = some pl ∧ pl.classes = some c ∧ le d 4 4 = c.mbSize ∧ let mb := le d 0 2; let total := le d 8 8; let p := h.part; let fs := (s.streamOfFeeder p h.mac h.rank h.step).frames; let got := inOrderFrames fs fs.length 0; let vs := s.samplesOf p h.rank h.step mb; let whole : Bool := (List.range c.mbSize).all fun i => vs.any (·.sample = i); let len := (vs.map (·.length)).foldl max 0; total ≤ got.1.length ∧ whole = true ∧ vs.any (sampleBad pl) = false ∧ State.classFor c len = some n) ∧
    (∃ (s : State), ∃ (k : Nat), ∃ (x : List Byte), ∃ (y : List Byte), ∃ (z : List Byte), ∃ (b : List Byte), ∃ (h : StreamHdr), ∃ (d : List Byte), ∃ (pl : Plan), ∃ (c : Classes), ∃ (n : Nat), x ++ y ++ z = b ∧ Heard s k b h d 5 ∧ 16 ≤ d.length ∧ s.misrouted h = false ∧ le d 0 2 < (s.mbCount h.part).1 ∧ s.endOf h.part h.rank h.step (le d 0 2) = none ∧ s.plan h.part = some pl ∧ pl.classes = some c ∧ le d 4 4 = c.mbSize ∧ let mb := le d 0 2; let total := le d 8 8; let p := h.part; let fs := (s.streamOfFeeder p h.mac h.rank h.step).frames; let got := inOrderFrames fs fs.length 0; let vs := s.samplesOf p h.rank h.step mb; let whole : Bool := (List.range c.mbSize).all fun i => vs.any (·.sample = i); let len := (vs.map (·.length)).foldl max 0; total ≤ got.1.length ∧ whole = true ∧ vs.any (sampleBad pl) = false ∧ State.classFor c len = some n) ∧
    (∃ (s : State), ∃ (k : Nat), ∃ (x : List Byte), ∃ (y : List Byte), ∃ (z : List Byte), ∃ (b : List Byte), ∃ (h : StreamHdr), ∃ (d : List Byte), ∃ (pl : Plan), ∃ (c : Classes), ∃ (n : Nat), x ++ y ++ z = b ∧ Heard s k b h d 5 ∧ 16 ≤ d.length ∧ s.misrouted h = false ∧ le d 0 2 < (s.mbCount h.part).1 ∧ s.endOf h.part h.rank h.step (le d 0 2) = none ∧ s.plan h.part = some pl ∧ pl.classes = some c ∧ le d 4 4 = c.mbSize ∧ let mb := le d 0 2; let total := le d 8 8; let p := h.part; let fs := (s.streamOfFeeder p h.mac h.rank h.step).frames; let got := inOrderFrames fs fs.length 0; let vs := s.samplesOf p h.rank h.step mb; let whole : Bool := (List.range c.mbSize).all fun i => vs.any (·.sample = i); let len := (vs.map (·.length)).foldl max 0; total ≤ got.1.length ∧ whole = true ∧ vs.any (sampleBad pl) = false ∧ State.classFor c len = some n ∧ c.mbCount = 1) ∧
    (∃ (s : State), ∃ (k : Nat), ∃ (x : List Byte), ∃ (y : List Byte), ∃ (z : List Byte), ∃ (b : List Byte), ∃ (h : StreamHdr), ∃ (d : List Byte), ∃ (pl : Plan), ∃ (c : Classes), x ++ y ++ z = b ∧ Heard s k b h d 5 ∧ 16 ≤ d.length ∧ s.misrouted h = false ∧ le d 0 2 < (s.mbCount h.part).1 ∧ s.endOf h.part h.rank h.step (le d 0 2) = none ∧ s.plan h.part = some pl ∧ pl.classes = some c ∧ le d 4 4 = c.mbSize ∧ let mb := le d 0 2; let total := le d 8 8; let p := h.part; let fs := (s.streamOfFeeder p h.mac h.rank h.step).frames; let got := inOrderFrames fs fs.length 0; let vs := s.samplesOf p h.rank h.step mb; let whole : Bool := (List.range c.mbSize).all fun i => vs.any (·.sample = i); let len := (vs.map (·.length)).foldl max 0; total ≤ got.1.length ∧ whole = true ∧ vs.any (sampleBad pl) = false ∧ State.classFor c len = none) ∧
    (∃ (s : State), ∃ (k : Nat), ∃ (x : List Byte), ∃ (y : List Byte), ∃ (z : List Byte), ∃ (b : List Byte), ∃ (h : StreamHdr), ∃ (d : List Byte), ∃ (pl : Plan), ∃ (c : Classes), x ++ y ++ z = b ∧ Heard s k b h d 5 ∧ 16 ≤ d.length ∧ s.misrouted h = false ∧ le d 0 2 < (s.mbCount h.part).1 ∧ s.endOf h.part h.rank h.step (le d 0 2) = none ∧ s.plan h.part = some pl ∧ pl.classes = some c ∧ le d 4 4 = c.mbSize ∧ let mb := le d 0 2; let total := le d 8 8; let p := h.part; let fs := (s.streamOfFeeder p h.mac h.rank h.step).frames; let got := inOrderFrames fs fs.length 0; let vs := s.samplesOf p h.rank h.step mb; let whole : Bool := (List.range c.mbSize).all fun i => vs.any (·.sample = i); let len := (vs.map (·.length)).foldl max 0; total ≤ got.1.length ∧ whole = true ∧ vs.any (sampleBad pl) = false ∧ State.classFor c len = none) ∧
    (∃ (s : State), ∃ (k : Nat), ∃ (x : List Byte), ∃ (y : List Byte), ∃ (z : List Byte), ∃ (b : List Byte), ∃ (h : StreamHdr), ∃ (d : List Byte), ∃ (pl : Plan), ∃ (c : Classes), x ++ y ++ z = b ∧ Heard s k b h d 5 ∧ 16 ≤ d.length ∧ s.misrouted h = false ∧ le d 0 2 < (s.mbCount h.part).1 ∧ s.endOf h.part h.rank h.step (le d 0 2) = none ∧ s.plan h.part = some pl ∧ pl.classes = some c ∧ le d 4 4 = c.mbSize ∧ let mb := le d 0 2; let total := le d 8 8; let p := h.part; let fs := (s.streamOfFeeder p h.mac h.rank h.step).frames; let got := inOrderFrames fs fs.length 0; let vs := s.samplesOf p h.rank h.step mb; let whole : Bool := (List.range c.mbSize).all fun i => vs.any (·.sample = i); let len := (vs.map (·.length)).foldl max 0; total ≤ got.1.length ∧ whole = true ∧ vs.any (sampleBad pl) = false ∧ State.classFor c len = none ∧ s.refusalAt p = none) ∧
    (∃ (s : State), ∃ (k : Nat), ∃ (x : List Byte), ∃ (y : List Byte), ∃ (z : List Byte), ∃ (b : List Byte), ∃ (h : StreamHdr), ∃ (d : List Byte), ∃ (pl : Plan), ∃ (c : Classes), x ++ y ++ z = b ∧ Heard s k b h d 5 ∧ 16 ≤ d.length ∧ s.misrouted h = false ∧ le d 0 2 < (s.mbCount h.part).1 ∧ s.endOf h.part h.rank h.step (le d 0 2) = none ∧ s.plan h.part = some pl ∧ pl.classes = some c ∧ le d 4 4 = c.mbSize ∧ let mb := le d 0 2; let total := le d 8 8; let p := h.part; let fs := (s.streamOfFeeder p h.mac h.rank h.step).frames; let got := inOrderFrames fs fs.length 0; let vs := s.samplesOf p h.rank h.step mb; let whole : Bool := (List.range c.mbSize).all fun i => vs.any (·.sample = i); total ≤ got.1.length ∧ whole = true ∧ vs.any (sampleBad pl) = true) :=
  ⟨⟨wTaken [(0, [1]), (2, [5])], 0, [], [], wFr (wSh 5) (wEnd 3), wFr (wSh 5) (wEnd 3), wSh 5, wEnd 3, wStmPlan, wClasses, 0, ⟨wThree _, wHeard (by decide +kernel), by decide +kernel⟩⟩,
   ⟨wSamps 3 5 false, 0, [], [], wFr (wSh 5) (wEnd 0), wFr (wSh 5) (wEnd 0), wSh 5, wEnd 0, wStmPlan, wClasses, 1, ⟨wThree _, wHeard (by decide +kernel), by decide +kernel⟩⟩,
   ⟨wSamps 4 3 false, 0, [], [], wFr (wSh 5) (wEnd 0), wFr (wSh 5) (wEnd 0), wSh 5, wEnd 0, wStmPlan, wClasses, 0, ⟨wThree _, wHeard (by decide +kernel), by decide +kernel⟩⟩,
   ⟨wOneMb, 0, [], [], wFr (wSh 5) (wEnd 0), wFr (wSh 5) (wEnd 0), wSh 5, wEnd 0, wPlan1, wClass1, 1, ⟨wThree _, wHeard (by decide +kernel), by decide +kernel⟩⟩,
   ⟨wSamps 11 5 false, 0, [], [], wFr (wSh 5) (wEnd 0), wFr (wSh 5) (wEnd 0), wSh 5, wEnd 0, wStmPlan, wClasses, ⟨wThree _, wHeard (by decide +kernel), by decide +kernel⟩⟩,
   ⟨wRef, 0, [], [], wFr (wSh 5) (wEnd 0), wFr (wSh 5) (wEnd 0), wSh 5, wEnd 0, wStmPlan, wClasses, ⟨wThree _, wHeard (by decide +kernel), by decide +kernel⟩⟩,
   ⟨wSamps 11 5 false, 0, [], [], wFr (wSh 5) (wEnd 0), wFr (wSh 5) (wEnd 0), wSh 5, wEnd 0, wStmPlan, wClasses, ⟨wThree _, wHeard (by decide +kernel), by decide +kernel⟩⟩,
   ⟨wSamps 3 5 true, 0, [], [], wFr (wSh 5) (wEnd 0), wFr (wSh 5) (wEnd 0), wSh 5, wEnd 0, wStmPlan, wClasses, ⟨wThree _, wHeard (by decide +kernel), by decide +kernel⟩⟩⟩
theorem witness_FeedersAndCredits :
    (∃ (s : State), ∃ (k : Nat), ∃ (b : List Byte), ∃ (h : StreamHdr), ∃ (d : List Byte), Heard s k b h d 4) ∧
    (∃ (s : State), ∃ (k : Nat), ∃ (b : List Byte), ∃ (h : StreamHdr), ∃ (d : List Byte), Heard s k b h d 4 ∧ ((s.part h.part).feeders.filter (·.rank = h.rank)).length ≤ 8) ∧
    (∃ (s : State), ∃ (p : Nat), ∃ (k : Nat), p < 8 ∧ s.sendPort = some k) ∧
    (∃ (s : State), ∃ (k : Nat), ∃ (x : List Byte), ∃ (y : List Byte), ∃ (b : List Byte), ∃ (h : StreamHdr), ∃ (d : List Byte), ∃ (c : Ckpt), ∃ (g : Nat), x ++ y = b ∧ Heard s k b h d 2 ∧ (s.part h.part).ckpt = some c ∧ h.mac = s.getF F.STM_CKPT_DST_MAC h.part ∧ grantIn d c.rank = some g) ∧
    (∃ (s : State), ∃ (k : Nat), ∃ (x : List Byte), ∃ (y : List Byte), ∃ (b : List Byte), ∃ (h : StreamHdr), ∃ (d : List Byte), ∃ (c : Ckpt), x ++ y = b ∧ Heard s k b h d 2 ∧ (s.part h.part).ckpt = some c ∧ h.mac ≠ s.getF F.STM_CKPT_DST_MAC h.part) ∧
    (∃ (s : State), ∃ (k : Nat), ∃ (x : List Byte), ∃ (y : List Byte), ∃ (b : List Byte), ∃ (h : StreamHdr), ∃ (d : List Byte), x ++ y = b ∧ Heard s k b h d 2 ∧ (s.part h.part).ckpt = none) ∧
    (∃ (k : Nat), ∃ (phy : Nat), k < 2 ∧ phy < 4) ∧
    (∃ (k : Nat), ∃ (phy : Nat), k < 2 ∧ phy < 4) :=
  ⟨⟨wStm.modPart 0 fun x => { x with feeders := (List.range 8).map fun i => ⟨0, i⟩ }, 0, wFr (wSh 4) [], wSh 4, [], wHeard (by decide +kernel)⟩,
   ⟨wStm.modPart 0 fun x => { x with feeders := [⟨0, 0xA1⟩, ⟨1, 4⟩] }, 0, wFr (wSh 4) [], wSh 4, [], ⟨wHeard (by decide +kernel), by decide +kernel⟩⟩,
   ⟨wCkRun wCkpt true, 0, 0, by decide +kernel⟩,
   ⟨wCkRun wCkpt false, 0, [], wFr (wSh 2) (leBytes 8 0 ++ leBytes 8 9), wFr (wSh 2) (leBytes 8 0 ++ leBytes 8 9), wSh 2, leBytes 8 0 ++ leBytes 8 9, wCkpt, 9, ⟨wTwo _, wHeard (by decide +kernel), by decide +kernel⟩⟩,
   ⟨(wCkRun wCkpt false).putF F.STM_CKPT_DST_MAC 0 0xA2, 0, [], wFr (wSh 2) [1], wFr (wSh 2) [1], wSh 2, [1], wCkpt, ⟨wTwo _, wHeard (by decide +kernel), by decide +kernel⟩⟩,
   ⟨wStm, 0, [], wFr (wSh 2) [1], wFr (wSh 2) [1], wSh 2, [1], ⟨wTwo _, wHeard (by decide +kernel), by decide +kernel⟩⟩,
   ⟨1, 3, by decide +kernel⟩,
   ⟨0, 2, by decide +kernel⟩⟩
theorem witness_KeyExchanges :
    (∃ (s : State), ∃ (k : Nat), ∃ (b1 : List Byte), ∃ (b2 : List Byte), ∃ (b3 : List Byte), ∃ (b : List Byte), ∃ (h : StreamHdr), ∃ (d : List Byte), b1 ++ b2 ++ b3 = b ∧ Heard s k b h d 7 ∧ let x := s.peerOf h.mac; let obj := x.buf ++ d; let room : Bool := x.live || decide ((s.peers.filter (·.live)).length < 256); let next : Bool := x.buf = [] || h.seq = x.next; room = true ∧ next = true ∧ h.last = false ∧ obj.length ≤ 1604) ∧
    (∃ (s : State), ∃ (k : Nat), ∃ (b1 : List Byte), ∃ (b2 : List Byte), ∃ (b3 : List Byte), ∃ (b : List Byte), ∃ (h : StreamHdr), ∃ (d : List Byte), b1 ++ b2 ++ b3 = b ∧ Heard s k b h d 7 ∧ let x := s.peerOf h.mac; let obj := x.buf ++ d; let room : Bool := x.live || decide ((s.peers.filter (·.live)).length < 256); let next : Bool := x.buf = [] || h.seq = x.next; let msg := le obj 0 1; room = true ∧ next = true ∧ h.last = true ∧ obj.length = 4 ∧ msg = 1 ∧ le obj 2 2 = 0) ∧
    (∃ (s : State), ∃ (k : Nat), ∃ (b1 : List Byte), ∃ (b2 : List Byte), ∃ (b3 : List Byte), ∃ (b : List Byte), ∃ (h : StreamHdr), ∃ (d : List Byte), b1 ++ b2 ++ b3 = b ∧ Heard s k b h d 7 ∧ let x := s.peerOf h.mac; let obj := x.buf ++ d; let room : Bool := x.live || decide ((s.peers.filter (·.live)).length < 256); let next : Bool := x.buf = [] || h.seq = x.next; let msg := le obj 0 1; room = true ∧ next = true ∧ h.last = true ∧ obj.length = 1604 ∧ msg = 2 ∧ le obj 2 2 = 0 ∧ x.stage = 1 ∧ s.flag F.SEC_STATE_RNGFAIL 0 = false) ∧
    (∃ (s : State), ∃ (k : Nat), ∃ (b1 : List Byte), ∃ (b2 : List Byte), ∃ (b3 : List Byte), ∃ (b : List Byte), ∃ (h : StreamHdr), ∃ (d : List Byte), b1 ++ b2 ++ b3 = b ∧ Heard s k b h d 7 ∧ let x := s.peerOf h.mac; let obj := x.buf ++ d; let room : Bool := x.live || decide ((s.peers.filter (·.live)).length < 256); let next : Bool := x.buf = [] || h.seq = x.next; let msg := le obj 0 1; room = true ∧ next = true ∧ h.last = true ∧ obj.length = 1604 ∧ msg = 2 ∧ le obj 2 2 = 0 ∧ x.stage ≠ 1) ∧
    (∃ (s : State), ∃ (k : Nat), ∃ (b1 : List Byte), ∃ (b2 : List Byte), ∃ (b3 : List Byte), ∃ (b : List Byte), ∃ (h : StreamHdr), ∃ (d : List Byte), b1 ++ b2 ++ b3 = b ∧ Heard s k b h d 7 ∧ let x := s.peerOf h.mac; let room : Bool := x.live || decide ((s.peers.filter (·.live)).length < 256); let next : Bool := x.buf = [] || h.seq = x.next; room = true ∧ next = false) ∧
    (∃ (s : State), ∃ (k : Nat), ∃ (b1 : List Byte), ∃ (b2 : List Byte), ∃ (b3 : List Byte), ∃ (b : List Byte), ∃ (h : StreamHdr), ∃ (d : List Byte), b1 ++ b2 ++ b3 = b ∧ Heard s k b h d 7 ∧ let x := s.peerOf h.mac; let obj := x.buf ++ d; let room : Bool := x.live || decide ((s.peers.filter (·.live)).length < 256); let next : Bool := x.buf = [] || h.seq = x.next; let msg := le obj 0 1; room = true ∧ next = true ∧ h.last = true ∧ obj.length ≤ 1604 ∧ (msg ≠ 1 ∧ msg ≠ 2 ∨ obj.length < 4)) ∧
    (∃ (s : State), ∃ (k : Nat), ∃ (b1 : List Byte), ∃ (b2 : List Byte), ∃ (b3 : List Byte), ∃ (b : List Byte), ∃ (h : StreamHdr), ∃ (d : List Byte), b1 ++ b2 ++ b3 = b ∧ Heard s k b h d 7 ∧ let x := s.peerOf h.mac; let obj := x.buf ++ d; let room : Bool := x.live || decide ((s.peers.filter (·.live)).length < 256); let next : Bool := x.buf = [] || h.seq = x.next; room = true ∧ next = true ∧ 1604 < obj.length) ∧
    (∃ (s : State), ∃ (k : Nat), ∃ (b1 : List Byte), ∃ (b2 : List Byte), ∃ (b3 : List Byte), ∃ (b : List Byte), ∃ (h : StreamHdr), ∃ (d : List Byte), b1 ++ b2 ++ b3 = b ∧ Heard s k b h d 7 ∧ let x := s.peerOf h.mac; let room : Bool := x.live || decide ((s.peers.filter (·.live)).length < 256); room = false) :=
  ⟨⟨wStage 1 [2, 7], 0, [], [], wClear (wKex false 5) [0, 0], wClear (wKex false 5) [0, 0], wKex false 5, [0, 0], ⟨wThree _, wHeardClear (by decide +kernel), by decide +kernel⟩⟩,
   ⟨wStage 0 [], 1, [], [], wClear { wKex true 0 with port := 1 } [1, 7, 0, 0], wClear { wKex true 0 with port := 1 } [1, 7, 0, 0], { wKex true 0 with port := 1 }, [1, 7, 0, 0], ⟨wThree _, wHeardClear (by decide +kernel), by decide +kernel⟩⟩,
   ⟨wStage 1 [], 0, [], [], wClear (wKex true 0) wMsg2, wClear (wKex true 0) wMsg2, wKex true 0, wMsg2, ⟨wThree _, wHeardClear (by decide +kernel), by decide +kernel⟩⟩,
   ⟨wStage 0 [], 0, [], [], wClear (wKex true 0) wMsg2, wClear (wKex true 0) wMsg2, wKex true 0, wMsg2, ⟨wThree _, wHeardClear (by decide +kernel), by decide +kernel⟩⟩,
   ⟨wStage 1 [2, 7], 0, [], [], wClear (wKex false 6) [0, 0], wClear (wKex false 6) [0, 0], wKex false 6, [0, 0], ⟨wThree _, wHeardClear (by decide +kernel), by decide +kernel⟩⟩,
   ⟨wStage 1 [], 0, [], [], wClear (wKex true 0) [3, 7, 0, 0], wClear (wKex true 0) [3, 7, 0, 0], wKex true 0, [3, 7, 0, 0], ⟨wThree _, wHeardClear (by decide +kernel), by decide +kernel⟩⟩,
   ⟨wStage 1 [], 0, [], [], wClear (wKex false 0) (wMsg2 ++ [1]), wClear (wKex false 0) (wMsg2 ++ [1]), wKex false 0, wMsg2 ++ [1], ⟨wThree _, wHeardClear (by decide +kernel), by decide +kernel⟩⟩,
   ⟨{ wLink with peers := (List.range 256).map fun i => { wStmPeer with mac := 0x1000 + i } }, 0, [], [], wClear (wKex true 0) [1, 7, 0, 0], wClear (wKex true 0) [1, 7, 0, 0], wKex true 0, [1, 7, 0, 0], ⟨wThree _, wHeardClear (by decide +kernel), by decide +kernel⟩⟩⟩
theorem witness_CheckpointStreams :
    (∃ (s : State), ∃ (f : Func), ∃ (p : Nat), ∃ (v : Word), p < 8 ∧ Open s f (F.STM_CKPT_CTRL_GO.off p) ∧ getBits v 63 63 = 1 ∧ s.flag F.STM_CKPT_CTRL_GO p = false) ∧
    (∃ (s : State), ∃ (f : Func), ∃ (p : Nat), ∃ (v : Word), p < 8 ∧ Open s f (F.STM_CKPT_CTRL_GO.off p) ∧ getBits v 63 63 = 1 ∧ s.flag F.STM_CKPT_CTRL_GO p = false ∧ let r := getBits v 16 0; let mac := s.getF F.STM_CKPT_DST_MAC p; let ready : Bool := s.hasSa mac && ((s.part p).feeders.any fun x => x.rank = r && x.mac = mac) && (s.plan p).isSome && (s.ranksHere p).contains r && !s.running p; ready = true) ∧
    (∃ (s : State), ∃ (f : Func), ∃ (p : Nat), ∃ (v : Word), p < 8 ∧ Open s f (F.STM_CKPT_CTRL_GO.off p) ∧ getBits v 63 63 = 1 ∧ s.flag F.STM_CKPT_CTRL_GO p = false ∧ let r := getBits v 16 0; let mac := s.getF F.STM_CKPT_DST_MAC p; let ready : Bool := s.hasSa mac && ((s.part p).feeders.any fun x => x.rank = r && x.mac = mac) && (s.plan p).isSome && (s.ranksHere p).contains r && !s.running p; ready = false) ∧
    (∃ (s : State), ∃ (f : Func), ∃ (p : Nat), ∃ (v : Word), p < 8 ∧ Open s f (F.STM_CKPT_CTRL_GO.off p) ∧ getBits v 63 63 = 1 ∧ s.flag F.STM_CKPT_CTRL_GO p = false ∧ let r := getBits v 16 0; let mac := s.getF F.STM_CKPT_DST_MAC p; let ready : Bool := s.hasSa mac && ((s.part p).feeders.any fun x => x.rank = r && x.mac = mac) && (s.plan p).isSome && (s.ranksHere p).contains r && !s.running p; ready = false) ∧
    (∃ (s : State), ∃ (p : Nat), ∃ (c : Ckpt), p < 8 ∧ (s.part p).ckpt = some c ∧ s.running p = true) ∧
    (∃ (s : State), ∃ (p : Nat), ∃ (n : Nat), ∃ (c : Ckpt), ∃ (k : Nat), ∃ (j : Nat), ∃ (b : List Byte), p < 8 ∧ (s.part p).ckpt = some c ∧ s.running p = false ∧ c.entry = k ∧ s.ckptBytes p c.rank k = some b ∧ c.offset < b.length ∧ 0 < n ∧ s.sendPort = some j ∧ let d := (b.drop c.offset).take (min n State.ckptRoom); let dst := s.getF F.STM_CKPT_DST_MAC p; (s.peerOf dst).live = true ∧ c.sent + 16 + d.length ≤ c.grant) :=
  ⟨⟨wCkRun wCkpt false, .pf, 0, BitVec.ofNat 64 (2 ^ 63), by decide +kernel⟩,
   ⟨wCkRun wCkpt false, .pf, 0, BitVec.ofNat 64 (2 ^ 63), by decide +kernel⟩,
   ⟨wCkRun wCkpt false, .pf, 0, BitVec.ofNat 64 (2 ^ 63 + 1), by decide +kernel⟩,
   ⟨wCkRun wCkpt true, .pf, 0, BitVec.ofNat 64 (2 ^ 63), by decide +kernel⟩,
   ⟨wCkRun wCkpt true, 0, wCkpt, by decide +kernel⟩,
   ⟨wCkRun wCkpt false, 0, 64, wCkpt, 0xFFFFFFFF, 0, List.replicate 128 0, by decide +kernel⟩⟩
/-! ### group 58 -/
theorem w1_noWork : w1.anyWork = false := by decide +kernel
def wWork : State := w1.setMover 3 { Mover.reset with chain := some { queue := none, part := 0, task := 5, addr := 0, desc := none, written := 0, abort := false } }

theorem witness_PowerEntryBegins :
    (∃ (s : State), ∃ (f : Func), ∃ (v : Word), ∃ (t : Nat), ∃ (c : Instr), ((t = 1 ∧ c = .pwrTargetIdle f v) ∨ (t = 2 ∧ c = .pwrTargetSleep f v) ∨ (t = 3 ∧ c = .pwrTargetDeepSleep f v) ∨ (t = 4 ∧ c = .pwrTargetOff f v)) ∧ Open s f 0x100000 ∧ getBits v 3 3 = 1 ∧ getBits v 2 0 = t ∧ t ≠ s.getF F.PWR_STAT_STATE 0 ∧ State.reachable (s.getF F.PWR_STAT_STATE 0) t = true ∧ s.flag F.PWR_STAT_BUSY 0 = false ∧ s.anyRun = false ∧ s.anyWork = false) ∧
    (∃ (s : State), ∃ (f : Func), ∃ (v : Word), ∃ (t : Nat), ∃ (c : Instr), ((t = 1 ∧ c = .pwrTargetIdle f v) ∨ (t = 2 ∧ c = .pwrTargetSleep f v) ∨ (t = 3 ∧ c = .pwrTargetDeepSleep f v) ∨ (t = 4 ∧ c = .pwrTargetOff f v)) ∧ Open s f 0x100000 ∧ getBits v 3 3 = 1 ∧ getBits v 2 0 = t ∧ t ≠ s.getF F.PWR_STAT_STATE 0 ∧ State.reachable (s.getF F.PWR_STAT_STATE 0) t = true ∧ s.flag F.PWR_STAT_BUSY 0 = false ∧ s.anyRun = false ∧ s.anyWork = false ∧ (t = 2 ∨ t = 3)) ∧
    (∃ (s : State), ∃ (f : Func), ∃ (v : Word), ∃ (t : Nat), ∃ (c : Instr), ((t = 1 ∧ c = .pwrTargetIdle f v) ∨ (t = 2 ∧ c = .pwrTargetSleep f v) ∨ (t = 3 ∧ c = .pwrTargetDeepSleep f v) ∨ (t = 4 ∧ c = .pwrTargetOff f v)) ∧ Open s f 0x100000 ∧ getBits v 3 3 = 1 ∧ getBits v 2 0 = t ∧ t ≠ s.getF F.PWR_STAT_STATE 0 ∧ State.reachable (s.getF F.PWR_STAT_STATE 0) t = true ∧ s.flag F.PWR_STAT_BUSY 0 = false ∧ s.anyRun = false ∧ s.anyWork = false ∧ (t = 1 ∨ t = 4)) :=
  ⟨⟨w1, .pf, 9, 1, .pwrTargetIdle .pf 9, by refine ⟨?_, ?_, ?_, ?_, ?_, ?_, ?_, ?_, w1_noWork⟩ <;> decide +kernel⟩,
   ⟨w1, .pf, 11, 3, .pwrTargetDeepSleep .pf 11, by refine ⟨?_, ?_, ?_, ?_, ?_, ?_, ?_, ?_, w1_noWork, ?_⟩ <;> decide +kernel⟩,
   ⟨w1, .pf, 12, 4, .pwrTargetOff .pf 12, by refine ⟨?_, ?_, ?_, ?_, ?_, ?_, ?_, ?_, w1_noWork, ?_⟩ <;> decide +kernel⟩⟩
theorem witness_PowerRequestRefused :
    (∃ (s : State), ∃ (f : Func), ∃ (v : Word), ∃ (t : Nat), ∃ (c : Instr), ∃ code, ((t = 0 ∧ c = .pwrTargetRun f v) ∨ (t = 1 ∧ c = .pwrTargetIdle f v) ∨ (t = 2 ∧ c = .pwrTargetSleep f v) ∨ (t = 3 ∧ c = .pwrTargetDeepSleep f v) ∨ (t = 4 ∧ c = .pwrTargetOff f v)) ∧ Open s f 0x100000 ∧ getBits v 3 3 = 1 ∧ getBits v 2 0 = t ∧ t ≠ s.getF F.PWR_STAT_STATE 0 ∧ ((code = 1 ∧ State.reachable (s.getF F.PWR_STAT_STATE 0) t = false) ∨ (State.reachable (s.getF F.PWR_STAT_STATE 0) t = true ∧ ((code = 2 ∧ s.flag F.PWR_STAT_BUSY 0 = true) ∨ (s.flag F.PWR_STAT_BUSY 0 = false ∧ t ≠ 0 ∧ ((code = 3 ∧ s.anyRun = true) ∨ (code = 4 ∧ s.anyRun = false ∧ s.anyWork = true))))))) ∧
    (∃ (s : State), ∃ (f : Func), ∃ (v : Word), ∃ (t : Nat), ∃ (c : Instr), ∃ code, ((t = 0 ∧ c = .pwrTargetRun f v) ∨ (t = 1 ∧ c = .pwrTargetIdle f v) ∨ (t = 2 ∧ c = .pwrTargetSleep f v) ∨ (t = 3 ∧ c = .pwrTargetDeepSleep f v) ∨ (t = 4 ∧ c = .pwrTargetOff f v)) ∧ Open s f 0x100000 ∧ getBits v 3 3 = 1 ∧ getBits v 2 0 = t ∧ t ≠ s.getF F.PWR_STAT_STATE 0 ∧ ((code = 1 ∧ State.reachable (s.getF F.PWR_STAT_STATE 0) t = false) ∨ (State.reachable (s.getF F.PWR_STAT_STATE 0) t = true ∧ ((code = 2 ∧ s.flag F.PWR_STAT_BUSY 0 = true) ∨ (s.flag F.PWR_STAT_BUSY 0 = false ∧ t ≠ 0 ∧ ((code = 3 ∧ s.anyRun = true) ∨ (code = 4 ∧ s.anyRun = false ∧ s.anyWork = true))))))) ∧
    (∃ (s : State), ∃ (f : Func), ∃ (v : Word), ∃ (t : Nat), ∃ (c : Instr), ∃ code, ((t = 0 ∧ c = .pwrTargetRun f v) ∨ (t = 1 ∧ c = .pwrTargetIdle f v) ∨ (t = 2 ∧ c = .pwrTargetSleep f v) ∨ (t = 3 ∧ c = .pwrTargetDeepSleep f v) ∨ (t = 4 ∧ c = .pwrTargetOff f v)) ∧ Open s f 0x100000 ∧ getBits v 3 3 = 1 ∧ getBits v 2 0 = t ∧ t ≠ s.getF F.PWR_STAT_STATE 0 ∧ ((code = 1 ∧ State.reachable (s.getF F.PWR_STAT_STATE 0) t = false) ∨ (State.reachable (s.getF F.PWR_STAT_STATE 0) t = true ∧ ((code = 2 ∧ s.flag F.PWR_STAT_BUSY 0 = true) ∨ (s.flag F.PWR_STAT_BUSY 0 = false ∧ t ≠ 0 ∧ ((code = 3 ∧ s.anyRun = true) ∨ (code = 4 ∧ s.anyRun = false ∧ s.anyWork = true))))))) ∧
    (∃ (s : State), ∃ (f : Func), ∃ (v : Word), ∃ (t : Nat), ∃ (c : Instr), ∃ code, ((t = 0 ∧ c = .pwrTargetRun f v) ∨ (t = 1 ∧ c = .pwrTargetIdle f v) ∨ (t = 2 ∧ c = .pwrTargetSleep f v) ∨ (t = 3 ∧ c = .pwrTargetDeepSleep f v) ∨ (t = 4 ∧ c = .pwrTargetOff f v)) ∧ Open s f 0x100000 ∧ getBits v 3 3 = 1 ∧ getBits v 2 0 = t ∧ t ≠ s.getF F.PWR_STAT_STATE 0 ∧ ((code = 1 ∧ State.reachable (s.getF F.PWR_STAT_STATE 0) t = false) ∨ (State.reachable (s.getF F.PWR_STAT_STATE 0) t = true ∧ ((code = 2 ∧ s.flag F.PWR_STAT_BUSY 0 = true) ∨ (s.flag F.PWR_STAT_BUSY 0 = false ∧ t ≠ 0 ∧ ((code = 3 ∧ s.anyRun = true) ∨ (code = 4 ∧ s.anyRun = false ∧ s.anyWork = true))))))) ∧
    (∃ (s : State), ∃ (f : Func), ∃ (v : Word), ∃ (t : Nat), ∃ (c : Instr), ∃ code, ((t = 0 ∧ c = .pwrTargetRun f v) ∨ (t = 1 ∧ c = .pwrTargetIdle f v) ∨ (t = 2 ∧ c = .pwrTargetSleep f v) ∨ (t = 3 ∧ c = .pwrTargetDeepSleep f v) ∨ (t = 4 ∧ c = .pwrTargetOff f v)) ∧ Open s f 0x100000 ∧ getBits v 3 3 = 1 ∧ getBits v 2 0 = t ∧ t ≠ s.getF F.PWR_STAT_STATE 0 ∧ ((code = 1 ∧ State.reachable (s.getF F.PWR_STAT_STATE 0) t = false) ∨ (State.reachable (s.getF F.PWR_STAT_STATE 0) t = true ∧ ((code = 2 ∧ s.flag F.PWR_STAT_BUSY 0 = true) ∨ (s.flag F.PWR_STAT_BUSY 0 = false ∧ t ≠ 0 ∧ ((code = 3 ∧ s.anyRun = true) ∨ (code = 4 ∧ s.anyRun = false ∧ s.anyWork = true))))))) :=
  ⟨⟨w1.putF F.PWR_STAT_STATE 0 3, .pf, 9, 1, .pwrTargetIdle .pf 9, 1, by decide +kernel⟩,
   ⟨w1.putF F.PWR_STAT_BUSY 0 1, .pf, 10, 2, .pwrTargetSleep .pf 10, 2, by decide +kernel⟩,
   ⟨w1.setRun 7 true, .pf, 11, 3, .pwrTargetDeepSleep .pf 11, 3, by decide +kernel⟩,
   ⟨wWork, .pf, 12, 4, .pwrTargetOff .pf 12, 4, by decide +kernel⟩,
   ⟨(w1.putF F.PWR_STAT_STATE 0 2).putF F.PWR_STAT_BUSY 0 1, .pf, 8, 0, .pwrTargetRun .pf 8, 2, by decide +kernel⟩⟩
theorem witness_PowerRunAndIdle :
    (∃ (s : State), ∃ (f : Func), ∃ (v : Word), Open s f 0x100000 ∧ getBits v 3 3 = 1 ∧ getBits v 2 0 = 0 ∧ (1 ≤ s.getF F.PWR_STAT_STATE 0 ∧ s.getF F.PWR_STAT_STATE 0 ≤ 3) ∧ s.flag F.PWR_STAT_BUSY 0 = false ∧ s.power.target = none ∧ s.power.wake = none) ∧
    (∃ (s : State), s.getF F.PWR_IDLE_TIMER 0 ≠ 0 ∧ s.getF F.PWR_IDLE_TIMER 0 ≤ s.power.idleBeats ∧ s.getF F.PWR_STAT_STATE 0 = 0 ∧ s.flag F.PWR_STAT_BUSY 0 = false ∧ s.anyRun = false ∧ s.anyWork = false) :=
  ⟨⟨w1.putF F.PWR_STAT_STATE 0 3, .pf, 8, by decide +kernel⟩,
   ⟨{ w1.putF F.PWR_IDLE_TIMER 0 7 with power := { w1.power with idleBeats := 7 } }, by decide +kernel⟩⟩
theorem witness_PowerTransitions :
    (∃ (s : State), s.getF F.PWR_STAT_STATE 0 = 1 ∧ s.power.target = some 0 ∧ s.power.awake < 4) ∧
    (∃ (s : State), ∃ (d : Nat), (s.getF F.PWR_STAT_STATE 0 = 2 ∨ s.getF F.PWR_STAT_STATE 0 = 3) ∧ s.power.target = some 0 ∧ State.wakeOrder[s.power.awake]? = some d) ∧
    (∃ (s : State), s.power.target = some 1 ∧ s.power.wake = none) ∧
    (∃ (s : State), s.power.target = some 0 ∧ s.getF F.PWR_STAT_STATE 0 = 1 ∧ s.power.awake = 4) :=
  ⟨⟨{ w1.putF F.PWR_STAT_STATE 0 1 with power := { w1.power with target := some 0, awake := 3 } }, by decide +kernel⟩,
   ⟨{ w1.putF F.PWR_STAT_STATE 0 3 with power := { w1.power with target := some 0, awake := 22 } }, 22, by decide +kernel⟩,
   ⟨{ w1 with power := { w1.power with target := some 1 } }, by decide +kernel⟩,
   ⟨{ w1.putF F.PWR_STAT_STATE 0 1 with power := { w1.power with target := some 0, wake := some 1, awake := 4 } }, by decide +kernel⟩⟩
/-! ### group 59 -/

theorem witness_WakesFromSleep :
    (∃ (s : State), ∃ (c : Instr), ∃ (src : Nat), ((c = .wakeNAssert ∧ src = 2 ∧ s.power.perst = false ∧ s.power.wakeDriven = false) ∨ (c = .wakeTimerExpiry ∧ src = 4 ∧ s.flag F.PWR_WAKE_TIMER_EN 0 = true)) ∧ (s.getF F.PWR_STAT_STATE 0 = 2 ∨ s.getF F.PWR_STAT_STATE 0 = 3) ∧ s.power.target = none ∧ s.power.wake = none) ∧
    (∃ (s : State), ∃ (c : Instr), ∃ (src : Nat), ((c = .wakeNAssert ∧ src = 2 ∧ s.power.perst = false ∧ s.power.wakeDriven = false) ∨ (c = .wakeTimerExpiry ∧ src = 4 ∧ s.flag F.PWR_WAKE_TIMER_EN 0 = true)) ∧ (s.getF F.PWR_STAT_STATE 0 = 2 ∨ s.getF F.PWR_STAT_STATE 0 = 3) ∧ s.power.target = none ∧ s.power.wake = none) :=
  ⟨⟨w1.putF F.PWR_STAT_STATE 0 2, .wakeNAssert, 2, by decide +kernel⟩,
   ⟨{ (w1.putF F.PWR_STAT_STATE 0 3).putF F.PWR_WAKE_TIMER_EN 0 1 with power := { w1.power with l1 := true } }, .wakeTimerExpiry, 4, by decide +kernel⟩⟩
theorem witness_ColdBootBegins :
    (∃ (s : State), ∃ (c : Instr), ∃ (src : Nat), s.power.auxQualified = true ∧ ((c = .wakeNAssert ∧ src = 2 ∧ s.power.perst = false ∧ s.power.wakeDriven = false ∧ s.power.main48 = true ∧ s.power.tripped = false ∧ s.power.wake = none ∧ s.getF F.PWR_STAT_STATE 0 = 4) ∨ (c = .wakeTimerExpiry ∧ src = 4 ∧ s.flag F.PWR_WAKE_TIMER_EN 0 = true ∧ s.power.perst = false ∧ s.power.main48 = true ∧ s.power.tripped = false ∧ s.power.wake = none ∧ s.getF F.PWR_STAT_STATE 0 = 4) ∨ (c = .perstNDeassert ∧ src = 3 ∧ s.power.perst = true ∧ s.power.main48 = true ∧ s.power.tripped = false ∧ s.power.wake = none) ∨ (c = .inputPowerRestored ∧ src = 6 ∧ s.power.perst = false ∧ s.power.tripped = false ∧ s.power.wake = none ∧ s.flag F.PWR_CTRL_AUTO_ON 0 = true ∧ s.getF F.PWR_STAT_STATE 0 = 4) ∨ (c = .inputStageOn ∧ s.power.wake = some src ∧ src ≤ 6 ∧ s.power.aux = true ∧ s.power.perst = false ∧ s.power.main48 = true ∧ s.power.tripped = false))) ∧
    (∃ (s : State), ∃ (c : Instr), ∃ (src : Nat), s.power.auxQualified = true ∧ ((c = .wakeNAssert ∧ src = 2 ∧ s.power.perst = false ∧ s.power.wakeDriven = false ∧ s.power.main48 = true ∧ s.power.tripped = false ∧ s.power.wake = none ∧ s.getF F.PWR_STAT_STATE 0 = 4) ∨ (c = .wakeTimerExpiry ∧ src = 4 ∧ s.flag F.PWR_WAKE_TIMER_EN 0 = true ∧ s.power.perst = false ∧ s.power.main48 = true ∧ s.power.tripped = false ∧ s.power.wake = none ∧ s.getF F.PWR_STAT_STATE 0 = 4) ∨ (c = .perstNDeassert ∧ src = 3 ∧ s.power.perst = true ∧ s.power.main48 = true ∧ s.power.tripped = false ∧ s.power.wake = none) ∨ (c = .inputPowerRestored ∧ src = 6 ∧ s.power.perst = false ∧ s.power.tripped = false ∧ s.power.wake = none ∧ s.flag F.PWR_CTRL_AUTO_ON 0 = true ∧ s.getF F.PWR_STAT_STATE 0 = 4) ∨ (c = .inputStageOn ∧ s.power.wake = some src ∧ src ≤ 6 ∧ s.power.aux = true ∧ s.power.perst = false ∧ s.power.main48 = true ∧ s.power.tripped = false))) ∧
    (∃ (s : State), ∃ (c : Instr), ∃ (src : Nat), s.power.auxQualified = true ∧ ((c = .wakeNAssert ∧ src = 2 ∧ s.power.perst = false ∧ s.power.wakeDriven = false ∧ s.power.main48 = true ∧ s.power.tripped = false ∧ s.power.wake = none ∧ s.getF F.PWR_STAT_STATE 0 = 4) ∨ (c = .wakeTimerExpiry ∧ src = 4 ∧ s.flag F.PWR_WAKE_TIMER_EN 0 = true ∧ s.power.perst = false ∧ s.power.main48 = true ∧ s.power.tripped = false ∧ s.power.wake = none ∧ s.getF F.PWR_STAT_STATE 0 = 4) ∨ (c = .perstNDeassert ∧ src = 3 ∧ s.power.perst = true ∧ s.power.main48 = true ∧ s.power.tripped = false ∧ s.power.wake = none) ∨ (c = .inputPowerRestored ∧ src = 6 ∧ s.power.perst = false ∧ s.power.tripped = false ∧ s.power.wake = none ∧ s.flag F.PWR_CTRL_AUTO_ON 0 = true ∧ s.getF F.PWR_STAT_STATE 0 = 4) ∨ (c = .inputStageOn ∧ s.power.wake = some src ∧ src ≤ 6 ∧ s.power.aux = true ∧ s.power.perst = false ∧ s.power.main48 = true ∧ s.power.tripped = false))) ∧
    (∃ (s : State), ∃ (c : Instr), ∃ (src : Nat), s.power.auxQualified = true ∧ ((c = .wakeNAssert ∧ src = 2 ∧ s.power.perst = false ∧ s.power.wakeDriven = false ∧ s.power.main48 = true ∧ s.power.tripped = false ∧ s.power.wake = none ∧ s.getF F.PWR_STAT_STATE 0 = 4) ∨ (c = .wakeTimerExpiry ∧ src = 4 ∧ s.flag F.PWR_WAKE_TIMER_EN 0 = true ∧ s.power.perst = false ∧ s.power.main48 = true ∧ s.power.tripped = false ∧ s.power.wake = none ∧ s.getF F.PWR_STAT_STATE 0 = 4) ∨ (c = .perstNDeassert ∧ src = 3 ∧ s.power.perst = true ∧ s.power.main48 = true ∧ s.power.tripped = false ∧ s.power.wake = none) ∨ (c = .inputPowerRestored ∧ src = 6 ∧ s.power.perst = false ∧ s.power.tripped = false ∧ s.power.wake = none ∧ s.flag F.PWR_CTRL_AUTO_ON 0 = true ∧ s.getF F.PWR_STAT_STATE 0 = 4) ∨ (c = .inputStageOn ∧ s.power.wake = some src ∧ src ≤ 6 ∧ s.power.aux = true ∧ s.power.perst = false ∧ s.power.main48 = true ∧ s.power.tripped = false))) ∧
    (∃ (s : State), ∃ (c : Instr), ∃ (src : Nat), s.power.auxQualified = true ∧ ((c = .wakeNAssert ∧ src = 2 ∧ s.power.perst = false ∧ s.power.wakeDriven = false ∧ s.power.main48 = true ∧ s.power.tripped = false ∧ s.power.wake = none ∧ s.getF F.PWR_STAT_STATE 0 = 4) ∨ (c = .wakeTimerExpiry ∧ src = 4 ∧ s.flag F.PWR_WAKE_TIMER_EN 0 = true ∧ s.power.perst = false ∧ s.power.main48 = true ∧ s.power.tripped = false ∧ s.power.wake = none ∧ s.getF F.PWR_STAT_STATE 0 = 4) ∨ (c = .perstNDeassert ∧ src = 3 ∧ s.power.perst = true ∧ s.power.main48 = true ∧ s.power.tripped = false ∧ s.power.wake = none) ∨ (c = .inputPowerRestored ∧ src = 6 ∧ s.power.perst = false ∧ s.power.tripped = false ∧ s.power.wake = none ∧ s.flag F.PWR_CTRL_AUTO_ON 0 = true ∧ s.getF F.PWR_STAT_STATE 0 = 4) ∨ (c = .inputStageOn ∧ s.power.wake = some src ∧ src ≤ 6 ∧ s.power.aux = true ∧ s.power.perst = false ∧ s.power.main48 = true ∧ s.power.tripped = false))) ∧
    (∃ (s : State), ∃ (l : List Nat), ∃ (src : Nat), s.power.auxQualified = true ∧ (∀ x ∈ l, x < 95) ∧ s.power.wake = some src ∧ src ≤ 6 ∧ s.power.perst = false ∧ s.power.main48 = true ∧ s.power.tripped = true) :=
  ⟨⟨w1.putF F.PWR_STAT_STATE 0 4, .wakeNAssert, 2, by decide +kernel⟩,
   ⟨(w1.putF F.PWR_STAT_STATE 0 4).putF F.PWR_WAKE_TIMER_EN 0 1, .wakeTimerExpiry, 4, by decide +kernel⟩,
   ⟨{ w1 with power := { w1.power with perst := true } }, .perstNDeassert, 3, by decide +kernel⟩,
   ⟨{ (w1.putF F.PWR_STAT_STATE 0 4).putF F.PWR_CTRL_AUTO_ON 0 1 with power := { w1.power with main48 := false } }, .inputPowerRestored, 6, by decide +kernel⟩,
   ⟨{ w1.putF F.PWR_STAT_STATE 0 4 with power := { w1.power with wake := some 6 } }, .inputStageOn, 6, by decide +kernel⟩,
   ⟨{ w1.putF F.PWR_STAT_STATE 0 4 with power := { w1.power with wake := some 2, tripped := true, cool := false } }, [94], 2, by decide +kernel⟩⟩
theorem witness_SupplyLossIsOff :
    (∃ (c : Instr), (c = .inputPowerLoss ∨ c = .auxPowerLoss ∨ c = .thermalTrip)) ∧
    (∃ (c : Instr), (c = .inputPowerLoss ∨ c = .auxPowerLoss ∨ c = .thermalTrip)) ∧
    (∃ (c : Instr), (c = .inputPowerLoss ∨ c = .auxPowerLoss ∨ c = .thermalTrip)) :=
  ⟨⟨.inputPowerLoss, by decide +kernel⟩,
   ⟨.auxPowerLoss, by decide +kernel⟩,
   ⟨.thermalTrip, by decide +kernel⟩⟩
theorem witness_ResetPinAndAux :
    (∃ (s : State), s.getF F.PWR_STAT_STATE 0 ≠ 4) ∧
    (∃ (s : State), s.power.aux = false) :=
  ⟨⟨w1, by decide +kernel⟩,
   ⟨{ w1 with power := { w1.power with aux := false } }, by decide +kernel⟩⟩
theorem witness_RampSharesAreKept :
    (∃ (s : State), ∃ (f : Func), ∃ (v : Word), Open s f 0x100028 ∧ ((List.range 8).map fun p => getBits v (5 * p + 4) (5 * p)).sum ≤ 16 ∧ (∀ p, p < 8 → s.running p = true → getBits v (5 * p + 4) (5 * p) ≠ 0)) ∧
    (∃ (s : State), ∃ (f : Func), ∃ (v : Word), Open s f 0x100028 ∧ (16 < ((List.range 8).map fun p => getBits v (5 * p + 4) (5 * p)).sum ∨ ∃ p, p < 8 ∧ s.running p = true ∧ getBits v (5 * p + 4) (5 * p) = 0)) ∧
    (∃ (s : State), ∃ (f : Func), ∃ (p : Nat), p < 8 ∧ Open s f (F.PLN_LOAD_GO.off p) ∧ s.flag F.PLN_LOAD_STATUS_BUSY p = false ∧ s.running p = false ∧ s.ident.lc ≠ 4 ∧ InRun s ∧ s.rampShare p = 0) :=
  ⟨⟨w1.setRun 1 true, .pf, 0x45, by decide +kernel⟩,
   ⟨w1, .pf, 0x231, by decide +kernel, Or.inl (by decide +kernel)⟩,
   ⟨w1.putF F.PWR_RAMP_SHARE 0 0x200, .pf, 0, by decide +kernel⟩⟩
/-! ### group 60 -/
def wBar : State := w1.putF F.SEC_STATE_DEBUG 0 1
def wAsh : State := (w1.putF F.TST_ASH_CTRL_IDLE_EN 0 1).putF F.PWR_RAMP_SHARE 0 8

theorem witness_JtagCommands :
    (∃ (s : State), ∃ (c : Instr), ∃ (n : Nat), ((c = .extest ∧ n = 1) ∨ (c = .clamp ∧ n = 2) ∨ (c = .highz ∧ n = 3)) ∧ s.power.perst = true) ∧
    (∃ (s : State), s.flag F.SEC_STATE_DEBUG 0 = true) ∧
    (∃ (s : State), s.flag F.SEC_STATE_DEBUG 0 = true) ∧
    (∃ (s : State), s.flag F.SEC_STATE_DEBUG 0 = false) ∧
    (∃ (s : State), s.flag F.SEC_STATE_DEBUG 0 = false) :=
  ⟨⟨{ w1 with power := { w1.power with perst := true } }, .highz, 3, by decide +kernel⟩,
   ⟨wBar, by decide +kernel⟩,
   ⟨wBar, by decide +kernel⟩,
   ⟨w1.putF F.SEC_STATE_DEBUG 0 0, by decide +kernel⟩,
   ⟨w1.putF F.SEC_STATE_DEBUG 0 0, by decide +kernel⟩⟩
theorem witness_ElogPopAndMbist :
    (∃ (s : State), ∃ (f : Func), ∃ (v : Word), Open s f 0xC0_0030 ∧ getBits v 0 0 = 1) ∧
    (∃ (s : State), ∃ (f : Func), ∃ (v : Word), Open s f 0xC0_0018 ∧ getBits v 63 63 = 1 ∧ s.getF F.PWR_STAT_STATE 0 = 0 ∧ s.flag F.TST_MBIST_GO 0 = false ∧ (∀ c, c < 32 → natBits (getBits v 31 0) c c = 1 → ∀ p, p < 8 → s.clusterPart c = some p → s.running p = false)) ∧
    (∃ (s : State), s.flag F.TST_MBIST_GO 0 = true) :=
  ⟨⟨{ w1 with test := { w1.test with elog := [(1, 2, 3, 4, 5)] } }, .pf, 1, by decide +kernel⟩,
   ⟨w1, .pf, BitVec.ofNat 64 (2 ^ 63 + 3), by decide +kernel⟩,
   ⟨w1.putF F.TST_MBIST_GO 0 1, by decide +kernel⟩⟩
theorem witness_AshSegmentsAndTraffic :
    (∃ (s : State), ∃ (c : Nat), ∃ (seg : Nat), ∃ (p : Nat), s.clusterPart c = some p ∧ s.ashStarts p c seg = true) ∧
    (∃ (s : State), ∃ (c : Nat), ∃ (seg : Nat), s.test.ashRun.find? (·.1 = c) = some (c, seg) ∧ seg < 16) ∧
    (∃ (s : State), ∃ (f : Func), ∃ (v : Word), Open s f 0xC0_0038 ∧ getBits v 63 63 = 1 ∧ s.flag F.TST_FTG_GO 0 = false ∧ getBits v 48 32 = s.pos) :=
  ⟨⟨wAsh, 2, 0, 0, by decide +kernel⟩,
   ⟨{ w1 with test := { w1.test with ashRun := [(2, 3)] } }, 2, 3, by decide +kernel⟩,
   ⟨w1, .pf, BitVec.ofNat 64 (2 ^ 63 + 9), by decide +kernel⟩⟩

/-- Which IDE streams the host has configured is opaque (assumption 16): of a stream that is held, and of one that is not,
the state meets what `Claims.MailboxAnswers` asks of each of its clauses. -/
theorem witness_MailboxAnswers_held (h : Config.ideHeld 3 = true) :
    (wDoe 1).doeOpen = true ∧ Config.ideHeld 3 = true ∧ ((wDoe 1).ideStream 3).stage = 1 ∧
      ((wDoe 2).ideStream 3).stage = 2 := ⟨by decide +kernel, h, by decide +kernel, by decide +kernel⟩
theorem witness_MailboxAnswers_not_held (h : Config.ideHeld 3 = false) :
    (wDoe 0).doeOpen = true ∧ Config.ideHeld 3 = false := ⟨by decide +kernel, h⟩

end Sys2Proof.Tests
end

section
/-! SUPPORT. Which fields share a bit of a register, what an accepted request leaves of the state, and what a read clears. -/

namespace Sys2Proof.Machine

/-! ## The fields of a register -/

/-- Bit `b` of a register belongs to the field. -/
def Fld.has (f : Fld) (b : Nat) : Bool := f.lo ≤ b && b ≤ f.hi

/-- The fields of a row lie side by side: none shares a bit with a later one. -/
def RegRow.disjoint (r : RegRow) : Prop := r.fields.Pairwise fun f g => f.hi < g.lo ∨ g.hi < f.lo

/-- A register found at an offset is of a row of the list. -/
theorem mem_of_regFind {off : Nat} {rows : List RegRow} {r : RegRow} {i : Nat} (h : regFind off rows = some (r, i)) :
    r ∈ rows := by
  induction rows with
  | nil => simp [regFind] at h
  | cons r' rows ih =>
    cases hr : r'.inst off with
    | some j =>
      simp only [regFind, hr, Option.some.injEq, Prod.mk.injEq] at h
      simp [h.1]
    | none =>
      simp only [regFind, hr] at h
      exact List.mem_cons_of_mem _ (ih h)

/-- A finite fact about the register index, read off its rows. -/
theorem disjoint_of_mem_regRows : ∀ r ∈ regRows, r.disjoint := by
  unfold RegRow.disjoint
  decide +kernel

theorem disjoint_of_regAt {o : Nat} {r : RegRow} {i : Nat} (h : regAt o = some (r, i)) : r.disjoint :=
  disjoint_of_mem_regRows r (mem_of_regFind h)

/-- A bit belongs to at most one field of a row. -/
theorem RegRow.disjoint.eq_of_has {r : RegRow} (h : r.disjoint) {f g : Fld} (hf : f ∈ r.fields) (hg : g ∈ r.fields) {b : Nat}
    (hfb : f.has b = true) (hgb : g.has b = true) : f = g := by
  simp only [Fld.has, Bool.and_eq_true, decide_eq_true_eq] at hfb hgb
  by_contra hne
  have symm : Std.Symm fun f g : Fld => f.hi < g.lo ∨ g.hi < f.lo := ⟨fun _ _ => Or.symm⟩
  have apart : f.hi < g.lo ∨ g.hi < f.lo := List.Pairwise.forall h hf hg hne
  omega

/-! ## RC fields of a read -/

/-- A read of the bits [hi:lo] clears the field: it is RC and lies wholly within them (R480). -/
def Fld.clearedBy (f : Fld) (hi lo : Nat) : Bool := f.acc = .rc && State.inBits f hi lo

theorem Fld.clearedBy_iff (f : Fld) (hi lo : Nat) : f.clearedBy hi lo = true ↔ f.acc = .rc ∧ lo ≤ f.lo ∧ f.hi ≤ hi := by
  simp [clearedBy, State.inBits]

/-- A word after a read of its bits [hi:lo], for the fields `fs` of its register. -/
def clearedWord (fs : List Fld) (hi lo : Nat) (w : Word) : Word :=
  fs.foldl (fun w f => if f.clearedBy hi lo then putBits w f.hi f.lo 0 else w) w

theorem putBits_zero_getLsbD (w : Word) (f : Fld) (b : Nat) :
    (putBits w f.hi f.lo 0).getLsbD b = (w.getLsbD b && !f.has b) := by
  rw [putBits_getLsbD]
  by_cases h64 : b < 64
  · by_cases hb : f.lo ≤ b ∧ b ≤ f.hi
    · simp [Fld.has, hb, h64]
    · simp only [show ¬ (f.lo ≤ b ∧ b ≤ f.hi ∧ b < 64) by omega, if_false]
      simp [show f.has b = false by simpa [Fld.has] using hb]
  · simp [h64, BitVec.getLsbD_of_ge w b (by omega)]

/-- A bit is lost if it belongs to some cleared field, and no other is. -/
theorem clearedWord_getLsbD (fs : List Fld) (hi lo : Nat) (w : Word) (b : Nat) :
    (clearedWord fs hi lo w).getLsbD b = (w.getLsbD b && !fs.any fun f => f.clearedBy hi lo && f.has b) := by
  induction fs generalizing w with
  | nil => simp [clearedWord]
  | cons f fs ih =>
    rw [clearedWord, List.foldl_cons, ← clearedWord, ih, List.any_cons]
    split
    · next hc => simp [putBits_zero_getLsbD, hc, Bool.and_assoc]
    · next hc => simp [hc]

/-- A bit of a field is lost if that field is cleared: no other field of the register reaches it. -/
theorem clearedWord_getLsbD_field {r : RegRow} (hr : r.disjoint) (hi lo : Nat) (w : Word) {f : Fld} (hf : f ∈ r.fields) {b : Nat}
    (hb : f.has b = true) :
    (clearedWord r.fields hi lo w).getLsbD b = if f.clearedBy hi lo then false else w.getLsbD b := by
  have only : (r.fields.any fun g => g.clearedBy hi lo && g.has b) = f.clearedBy hi lo := by
    rw [Bool.eq_iff_iff, List.any_eq_true]
    constructor
    · rintro ⟨g, hg, hgb⟩
      obtain ⟨hgc, hgb⟩ := Bool.and_eq_true_iff.mp hgb
      rwa [hr.eq_of_has hf hg hb hgb]
    · intro hc
      exact ⟨f, hf, by rw [hc, hb]; rfl⟩
  rw [clearedWord_getLsbD, only]
  cases f.clearedBy hi lo <;> simp

namespace State

variable (s : State)

theorem clearRead_of_regAt {o : Nat} {r : RegRow} {i : Nat} (h : regAt o = some (r, i)) (hi lo : Nat) :
    s.clearRead o hi lo = s.setWord o (clearedWord r.fields hi lo (s.word o)) := by
  simp [clearRead, h, clearedWord, Fld.clearedBy]

/-! ## Requests -/

/-- Keys that a request leaves as they are leave the whole state as it is. -/
theorem settleKeys_eq_self {i k : Nat} (h : (s.settleKeys i k).ide = s.ide) : s.settleKeys i k = s := by
  unfold settleKeys at h ⊢
  dsimp only at h ⊢
  split
  · next hk =>
    rw [if_pos hk] at h
    calc s.setIde _ = { s with ide := (s.setIde _).ide } := rfl
      _ = s := by rw [h]
  · rfl

theorem unprotected_eq_self (h : s.flag F.DMA_HCFG_IDE_REQ 0 = false) : s.unprotected = s := by
  simp [unprotected, h]

/-- What an accepted request leaves: the state as it is, or with its keys settled (R353). -/
theorem tlpIn_accepted {f : Func} (h : (s.tlpIn f).2 = true) :
    s.tlpIn f = (s, true) ∨ ∃ i k, s.tlpIn f = (s.settleKeys i k, true) := by
  cases f with
  | jtag => exact .inl rfl
  | pf | vf =>
    have hreq : s.flag F.DMA_HCFG_IDE_REQ 0 = false := by simpa [tlpIn] using h
    left
    simp [tlpIn, hreq, s.unprotected_eq_self hreq]
  | pfIde i k | vfIde _ i k =>
    have hset : (s.ideStream i).sets.any (·.1 = k) = true := by
      by_contra hno
      simp [tlpIn, hno] at h
    right
    exact ⟨i, k, if_pos hset⟩

/-- A request that the link accepts without a change of its keys leaves the state as it is. -/
theorem tlpIn_of_taken {f : Func} (h : Taken s f) : s.tlpIn f = (s, true) := by
  obtain ⟨haccepted, hkeys⟩ := h
  obtain heq | ⟨i, k, heq⟩ := s.tlpIn_accepted haccepted
  · exact heq
  · rw [heq] at hkeys ⊢
    rw [s.settleKeys_eq_self hkeys]

/-- A read that the link accepts, of a size R9 admits, of a register whose block answers and which the function may read: of
the rights, `hidden` and `shut` excepted, each reads alike. -/
theorem regRead_of_readable {f : Func} {off size o hi lo : Nat} (ht : Taken s f) (hs : sizeOk off size = true)
    (hm : s.mapOff f (off - off % 8) = some o) (hb : s.blockOpen o = true) (hh : s.right f o ≠ .hidden)
    (hsh : s.right f o ≠ .shut) (ha : accessBits off size = (hi, lo)) :
    s.regRead f off size =
      (s.clearRead o hi lo).emit (.readData f off (BitVec.ofNat 64 (getBits (s.readWord o) hi lo))) := by
  simp only [regRead, s.tlpIn_of_taken ht, hs, hm, hb, ha, Bool.not_true, Bool.false_eq_true, if_false]

end State
end Sys2Proof.Machine
end

section
/-! A read clears the RC fields that lie wholly within it, and nothing else (R10, R480). -/

namespace Sys2Proof

open Machine

/-- Settles O7: an accepted read sets one word and emits what it read, and as the fields of a row share no bit, a bit of a
field is lost only with that field. -/
theorem readClearsWholeRcFields : Obligations.ReadClearsWholeRcFields := by
  unfold Obligations.ReadClearsWholeRcFields
  intro s f off size o hi lo r i hs ht hm hb hh hsh hr ha
  refine ⟨_, congrArg Host.Outcome.next (s.regRead_of_readable ht hs hm hb hh hsh ha), ?_⟩
  rw [s.clearRead_of_regAt hr]
  refine ⟨rfl, rfl, ?fields, ?others⟩
  case fields =>
    intro fld hfld b hlo hhi
    have hbit : fld.has b = true := by simp [Fld.has, hlo, hhi]
    rw [State.word_emit, State.word_setWord_self,
      clearedWord_getLsbD_field (disjoint_of_regAt hr) hi lo _ hfld hbit]
    simp only [Fld.clearedBy_iff]
  case others =>
    intro o' ho
    rw [State.word_emit, State.word_setWord_ne _ _ ho]

end Sys2Proof
end

section
/-! SUPPORT. A register command that nothing turns away, and what the logs of events and errors leave of the state. -/

namespace Sys2Proof.Machine.State

variable (s : State)

/-! ## Register commands -/

/-- A register command that nothing turns away acts. -/
theorem gated_of_open {f : Func} {o : Nat} (h : Open s f o) (act : State → State) : s.gated f o act = act s := by
  obtain ⟨htaken, hblock, hright⟩ := h
  simp only [gated, s.tlpIn_of_taken htaken, hblock, hright, Bool.not_true, Bool.or_false, Bool.false_eq_true, if_false]

/-! ## Fields read as numbers and as flags -/

theorem flag_congr {s t : State} {f : Fld} {i : Nat} (h : t.word (f.off i) = s.word (f.off i)) : t.flag f i = s.flag f i := by
  rw [flag, flag, getF, getF, h]

/-- Another field of the register shows its flag as before. -/
theorem flag_putF_bits (f g : Fld) (i j v : Nat) (h : g.hi < f.lo ∨ f.hi < g.lo) :
    (s.putF f i v).flag g j = s.flag g j := by
  rw [flag, getF_putF_bits _ _ _ _ _ _ h, flag]

/-! ## What logging leaves -/

/-- From `s` to `t` only registers, the messages sent and the error log differ, and of the registers only those whose
offsets `P` admits. -/
structure LogsOnly (P : Nat → Prop) (s t : State) : Prop where
  frame : t = { s with regs := t.regs, out := t.out, test := { s.test with elog := t.test.elog } }
  word : ∀ o, ¬ P o → t.word o = s.word o

namespace LogsOnly

variable {P : Nat → Prop} {s t u : State}

theorem refl (P : Nat → Prop) (s : State) : LogsOnly P s s := ⟨rfl, fun _ _ => rfl⟩

theorem trans (hst : LogsOnly P s t) (htu : LogsOnly P t u) : LogsOnly P s u where
  frame := calc
    u = { t with regs := u.regs, out := u.out, test := { t.test with elog := u.test.elog } } := htu.frame
    _ = { s with regs := u.regs, out := u.out, test := { s.test with elog := u.test.elog } } := by rw [hst.frame]
  word := fun o ho => (htu.word o ho).trans (hst.word o ho)

theorem mono {Q : Nat → Prop} (h : LogsOnly P s t) (hPQ : ∀ o, P o → Q o) : LogsOnly Q s t :=
  ⟨h.frame, fun o ho => h.word o (mt (hPQ o) ho)⟩

theorem putF (h : LogsOnly P s t) {f : Fld} {i : Nat} (hf : P (f.off i)) (v : Nat) : LogsOnly P s (t.putF f i v) :=
  h.trans ⟨rfl, fun _ ho => t.word_putF_ne f i v fun heq => ho (heq ▸ hf)⟩

theorem bump (h : LogsOnly P s t) {f : Fld} {i : Nat} (hf : P (f.off i)) : LogsOnly P s (t.bump f i) := h.putF hf _

/-- An event logged in a copy of `GEN_ERR`. -/
theorem genErrIn (h : LogsOnly P s t) {cnt valid fn kd ofs : Fld} {i : Nat} (hcnt : P (cnt.off i)) (hvalid : P (valid.off i))
    (hfn : P (fn.off i)) (hkd : P (kd.off i)) (hofs : P (ofs.off i)) (f : Func) (kind off : Nat) :
    LogsOnly P s (t.genErrIn cnt valid fn kd ofs i f kind off) := by
  unfold State.genErrIn
  dsimp only
  split
  · exact h.bump hcnt
  · exact ((((h.bump hcnt).putF hvalid _).putF hfn _).putF hkd _).putF hofs _

theorem mevt (h : LogsOnly P s t) (hP : P F.DMA_MEVT_CAUSE.base) (bit : Nat) : LogsOnly P s (t.mevt bit) :=
  (h.putF (f := F.DMA_MEVT_CAUSE) (i := 0) hP _).trans ⟨rfl, fun _ _ => rfl⟩

theorem elog (h : LogsOnly P s t) (hP : P F.TST_ELOG_INFO_LOST.base) (src idx cause detail : Nat) :
    LogsOnly P s (t.elog src idx cause detail) := by
  have entry (l : List (Nat × Nat × Nat × Nat × Nat)) : LogsOnly P s { t with test := { t.test with elog := l } } :=
    h.trans ⟨rfl, fun _ _ => rfl⟩
  unfold State.elog
  dsimp only
  split
  · exact entry _
  · exact (entry _).bump (f := F.TST_ELOG_INFO_LOST) (i := 0) hP

end LogsOnly

/-- After an event the copy holds an entry: an older one, or that of the event (R465). -/
theorem flag_genErrIn_valid {cnt valid fn kd ofs : Fld} (hvalid : valid.lo ≤ valid.hi) (h64 : valid.hi < 64)
    (hfn : fn.hi < valid.lo) (hkd : kd.hi < valid.lo) (hofs : ofs.hi < valid.lo) (i : Nat) (f : Func) (kind off : Nat) :
    (s.genErrIn cnt valid fn kd ofs i f kind off).flag valid i = true := by
  unfold genErrIn
  dsimp only
  split
  · assumption
  · rw [flag_putF_bits _ _ _ _ _ _ (.inr hofs), flag_putF_bits _ _ _ _ _ _ (.inr hkd), flag_putF_bits _ _ _ _ _ _ (.inr hfn),
      flag_putF_one _ _ _ hvalid h64]

/-! ## Access errors and discarded writes (R465) -/

/-- The registers in which errors are logged beside `GEN_ERR`: its copies for the VFs, `DMA_MEVT` and `TST_ELOG_INFO`. -/
def SideLogOffset (o : Nat) : Prop :=
  (∃ k, o = F.GEN_VERR_VALID.off k) ∨ o = F.DMA_MEVT_CAUSE.base ∨ o = F.TST_ELOG_INFO_LOST.base

/-- The lowest of these is `DMA_MEVT`. -/
theorem not_sideLogOffset_of_lt {o : Nat} (h : o < F.DMA_MEVT_CAUSE.base) : ¬ SideLogOffset o := by
  rintro (⟨k, rfl⟩ | rfl | rfl)
  · simp only [Fld.off, F.GEN_VERR_VALID, F.DMA_MEVT_CAUSE] at h
    omega
  · exact absurd h (by decide)
  · exact absurd h (by decide)

/-- The registers in which errors are logged. -/
def LogOffset (o : Nat) : Prop := o = F.GEN_ERR_VALID.base ∨ SideLogOffset o

/-- The part of `genErr` that fills the function's own copy of `GEN_ERR`, which only a VF has. -/
def genErrCopy (s : State) (f : Func) (kind off : Nat) : State :=
  match f.base with
  | .vf k => s.genErrIn (if kind = 0 then F.GEN_VERR_ACCESS else F.GEN_VERR_DISCARD) F.GEN_VERR_VALID F.GEN_VERR_FUNC
      F.GEN_VERR_KIND F.GEN_VERR_OFFSET (k - 1) f kind off
  | _ => s

/-- An error is logged in `GEN_ERR`, in the function's copy, as a module event and in the error log, in this order. -/
theorem genErr_eq (f : Func) (kind off : Nat) :
    s.genErr f kind off =
      ((((s.genErrIn (if kind = 0 then F.GEN_ERR_ACCESS else F.GEN_ERR_DISCARD) F.GEN_ERR_VALID F.GEN_ERR_FUNC
        F.GEN_ERR_KIND F.GEN_ERR_OFFSET 0 f kind off).genErrCopy f kind off).mevt 1).elog 7 (natBits off 24 13) 0
        (off + 2 ^ 25 * funcCode f)) := rfl

theorem LogsOnly.genErrCopy {P : Nat → Prop} {s t : State} (h : LogsOnly P s t) (hP : ∀ k, P (F.GEN_VERR_VALID.off k))
    (f : Func) (kind off : Nat) : LogsOnly P s (t.genErrCopy f kind off) := by
  unfold State.genErrCopy
  split
  · next k _ =>
    have hcopy : P (F.GEN_VERR_VALID.off (k - 1)) := hP _
    have hcnt : P ((if kind = 0 then F.GEN_VERR_ACCESS else F.GEN_VERR_DISCARD).off (k - 1)) := by
      split <;> exact hcopy
    apply h.genErrIn hcnt <;> exact hcopy
  · exact h

/-- What `genErr` does after its event in `GEN_ERR` writes the other logs alone. -/
theorem genErr_after_genErrIn (f : Func) (kind off : Nat) :
    LogsOnly SideLogOffset (s.genErrIn (if kind = 0 then F.GEN_ERR_ACCESS else F.GEN_ERR_DISCARD) F.GEN_ERR_VALID
      F.GEN_ERR_FUNC F.GEN_ERR_KIND F.GEN_ERR_OFFSET 0 f kind off) (s.genErr f kind off) := by
  rw [genErr_eq]
  exact (((LogsOnly.refl _ _).genErrCopy (fun k => .inl ⟨k, rfl⟩) f kind off).mevt (.inr (.inl rfl)) 1).elog
    (.inr (.inr rfl)) 7 _ 0 _

/-- Logging an error writes the logs alone. -/
theorem genErr_logsOnly (f : Func) (kind off : Nat) : LogsOnly LogOffset s (s.genErr f kind off) := by
  have herr : LogOffset F.GEN_ERR_VALID.base := .inl rfl
  have hcnt : LogOffset ((if kind = 0 then F.GEN_ERR_ACCESS else F.GEN_ERR_DISCARD).off 0) := by
    split <;> exact herr
  refine LogsOnly.trans ?_ ((s.genErr_after_genErrIn f kind off).mono fun _ => .inr)
  apply (LogsOnly.refl _ s).genErrIn hcnt <;> exact herr

/-- An error logged leaves an entry in `GEN_ERR`. -/
theorem flag_genErr_valid (f : Func) (kind off : Nat) : (s.genErr f kind off).flag F.GEN_ERR_VALID 0 = true := by
  rw [flag_congr ((s.genErr_after_genErrIn f kind off).word (F.GEN_ERR_VALID.off 0) (not_sideLogOffset_of_lt (by decide)))]
  exact s.flag_genErrIn_valid (by decide) (by decide) (by decide) (by decide) (by decide) 0 f kind off

/-! ## The beat number -/

theorem bn_congr {s t : State} (h : t.word F.PLN_BN_BN.base = s.word F.PLN_BN_BN.base) : t.bn = s.bn :=
  congrArg (getBits · F.PLN_BN_BN.hi F.PLN_BN_BN.lo) h

/-- `PLN_BN` takes a number cut to its 64 bits. -/
theorem bn_putF_PLN_BN (v : Nat) : (s.putF F.PLN_BN_BN 0 v).bn = v % 2 ^ 64 :=
  s.getF_putF F.PLN_BN_BN 0 v (by decide) (by decide)

/-- `PLN_BN` is none of the logs. -/
theorem bn_genErr (f : Func) (kind off : Nat) : (s.genErr f kind off).bn = s.bn := by
  have hnot : ¬ LogOffset F.PLN_BN_BN.base := by
    rintro (h | h)
    · exact absurd h (by decide)
    · exact not_sideLogOffset_of_lt (by decide) h
  exact bn_congr ((s.genErr_logsOnly f kind off).word _ hnot)

end Sys2Proof.Machine.State
end

section
/-! Loads of the BN and its count in Deep Sleep (R22, R420). -/

namespace Sys2Proof

open Machine

/-- A load that R22 admits is kept for the next beat edge. -/
theorem exec_plnBnLoad_of_admitted {s : State} {f : Func} (v : Word) (hopen : Open s f F.PLN_BN_LOAD_BN.base)
    (hsource : s.ownSource = true) (hrun : s.anyRun = false) :
    exec (.plnBnLoad f v) s = .next { (s.setWord F.PLN_BN_LOAD_BN.base v) with bnLoad := some v } := by
  change execPlnBnLoad f v s = _
  simp only [execPlnBnLoad, s.gated_of_open hopen, hsource, hrun, Bool.not_false, Bool.and_self, if_true]

/-- Any other load is logged as a discarded write. -/
theorem exec_plnBnLoad_of_refused {s : State} {f : Func} (v : Word) (hopen : Open s f F.PLN_BN_LOAD_BN.base)
    (hrefused : s.ownSource = false ∨ s.anyRun = true) :
    exec (.plnBnLoad f v) s = .next (s.genErr f 1 F.PLN_BN_LOAD_BN.base) := by
  have hguard : (s.ownSource && !s.anyRun) = false := by
    obtain h | h := hrefused <;> simp [h]
  change execPlnBnLoad f v s = _
  simp only [execPlnBnLoad, s.gated_of_open hopen, hguard, Bool.false_eq_true, if_false]

theorem exec_bnLoadApply_of_load {s : State} {v : Word} (hload : s.bnLoad = some v) :
    exec .bnLoadApply s = .next { (s.putF F.PLN_BN_BN 0 v.toNat) with bnLoad := none } := by
  change execBnLoadApply s = _
  rw [execBnLoadApply, hload]

theorem exec_deepSleepBnAdvance_of_asleep {s : State} (hasleep : s.getF F.PWR_STAT_STATE 0 = 3) :
    exec .deepSleepBnAdvance s = .next { s.putF F.PLN_BN_BN 0 (s.bn + 7) with
      power := { s.power with dsCycles := s.power.dsCycles + 512 } } := by
  change execDeepSleepBnAdvance s = _
  rw [execDeepSleepBnAdvance, if_pos hasleep]

/-- Settles O9: a load that R22 admits writes `PLN_BN_LOAD` alone and any other only the logs, none of which is `PLN_BN`;
the beat edge and the Deep Sleep count write `PLN_BN` alone. -/
theorem bnLoads : Obligations.BnLoads := by
  unfold Obligations.BnLoads
  refine ⟨?admitted, ?refused, ?edge, ?asleep⟩
  case admitted =>
    intro s f v hopen hsource hrun
    have other : ∀ o, o ≠ F.PLN_BN_LOAD_BN.base → (s.setWord F.PLN_BN_LOAD_BN.base v).word o = s.word o :=
      fun o ho => s.word_setWord_ne v ho
    exact ⟨_, exec_plnBnLoad_of_admitted v hopen hsource hrun, rfl, s.word_setWord_self _ v,
      State.bn_congr (other _ (by decide)), other, rfl⟩
  case refused =>
    intro s f v hopen hrefused
    exact ⟨_, exec_plnBnLoad_of_refused v hopen hrefused, by rw [(s.genErr_logsOnly f 1 _).frame], s.bn_genErr f 1 _,
      s.flag_genErr_valid f 1 _⟩
  case edge =>
    intro s v hload
    have hbn : (s.putF F.PLN_BN_BN 0 v.toNat).bn = v.toNat := by
      rw [s.bn_putF_PLN_BN, Nat.mod_eq_of_lt v.isLt]
    exact ⟨_, exec_bnLoadApply_of_load hload, hbn, rfl, fun o ho => s.word_putF_ne _ _ _ ho, rfl⟩
  case asleep =>
    intro s hasleep
    exact ⟨_, exec_deepSleepBnAdvance_of_asleep hasleep, s.bn_putF_PLN_BN _, rfl,
      fun o ho => s.word_putF_ne _ _ _ ho, rfl⟩

end Sys2Proof
end

section
/-! SUPPORT. What a dispatch does before its kernel starts, and the tile, the registers and the partition of a kernel that
starts (R60, R428). -/

namespace Sys2Proof.Machine

/-! ## Maps without their unlisted values -/

/-- A key that no entry has reads the unlisted value. -/
theorem mget_of_forall_ne {α : Type} (d : α) {m : List (Nat × α)} {k : Nat} (h : ∀ x ∈ m, x.1 ≠ k) : mget d m k = d := by
  induction m with
  | nil => rfl
  | cons c m ih =>
    obtain ⟨hc, hm⟩ := List.forall_mem_cons.mp h
    rw [mget, if_neg hc, ih hm]

/-- Entries that equal the unlisted value may be left out of a map of distinct keys. -/
theorem mget_filter_ne {α : Type} [DecidableEq α] (d : α) {m : List (Nat × α)} (h : m.Pairwise fun x y => x.1 ≠ y.1) (k : Nat) :
    mget d (m.filter fun x => x.2 ≠ d) k = mget d m k := by
  induction m with
  | nil => rfl
  | cons c m ih =>
    obtain ⟨a, v⟩ := c
    obtain ⟨hc, hm⟩ := List.pairwise_cons.mp h
    by_cases hv : v = d
    · rw [List.filter_cons_of_neg (by simp [hv]), ih hm, mget]
      split
      · next hk => rw [hv, mget_of_forall_ne d fun x hx => hk ▸ (hc x hx).symm]
      · rfl
    · rw [List.filter_cons_of_pos (by simp [hv]), mget, mget, ih hm]

namespace State

/-! ## Changes to the partitions alone -/

/-- From `s` to `t` only the partitions differ, and partition `p` keeps its plan. -/
structure KeepsPlan (p : Nat) (s t : State) : Prop where
  frame : t = { s with parts := t.parts }
  plan : (t.part p).plan = (s.part p).plan

/-- Besides, partition `p` keeps its waiting activations and its grants. -/
structure KeepsRamp (p : Nat) (s t : State) : Prop extends KeepsPlan p s t where
  acts : (t.part p).acts = (s.part p).acts
  grants : (t.part p).grants = (s.part p).grants

variable {p : Nat} {s t u : State}

namespace KeepsPlan

theorem trans (hst : KeepsPlan p s t) (htu : KeepsPlan p t u) : KeepsPlan p s u where
  frame := calc
    u = { t with parts := u.parts } := htu.frame
    _ = { s with parts := u.parts } := by rw [hst.frame]
  plan := htu.plan.trans hst.plan

theorem setPart (s : State) {x : Part} (hx : x.plan = (s.part p).plan) : KeepsPlan p s (s.setPart p x) :=
  ⟨rfl, by rw [part_setPart, hx]⟩

theorem mem (h : KeepsPlan p s t) : t.mem = s.mem := by rw [h.frame]

theorem host (h : KeepsPlan p s t) : t.host = s.host := by rw [h.frame]

theorem word (h : KeepsPlan p s t) (o : Nat) : t.word o = s.word o := by rw [h.frame]; rfl

theorem getF (h : KeepsPlan p s t) (f : Fld) (i : Nat) : t.getF f i = s.getF f i := by rw [State.getF, h.word, State.getF]

theorem bn (h : KeepsPlan p s t) : t.bn = s.bn := h.getF F.PLN_BN_BN 0

theorem tile (h : KeepsPlan p s t) (g : Nat) : t.tile g = s.tile g := by rw [h.frame]; rfl

theorem taskOf (h : KeepsPlan p s t) (task : Nat) : t.taskOf p task = s.taskOf p task := by
  rw [State.taskOf, h.plan, State.taskOf]

theorem rampShare (h : KeepsPlan p s t) : t.rampShare p = s.rampShare p := by rw [State.rampShare, h.getF, State.rampShare]

theorem wasIdle (h : KeepsPlan p s t) (g : Nat) : t.wasIdle g = s.wasIdle g := by
  rw [State.wasIdle, h.tile, h.bn, State.wasIdle]

end KeepsPlan

theorem grantsUsed_congr (hgrants : (t.part p).grants = (s.part p).grants) (hbn : t.bn = s.bn) :
    t.grantsUsed p = s.grantsUsed p := by
  rw [grantsUsed, hgrants, hbn, grantsUsed]

namespace KeepsRamp

theorem refl (p : Nat) (s : State) : KeepsRamp p s s := ⟨⟨rfl, rfl⟩, rfl, rfl⟩

theorem trans (hst : KeepsRamp p s t) (htu : KeepsRamp p t u) : KeepsRamp p s u :=
  ⟨hst.toKeepsPlan.trans htu.toKeepsPlan, htu.acts.trans hst.acts, htu.grants.trans hst.grants⟩

theorem setPart (s : State) {x : Part} (hplan : x.plan = (s.part p).plan) (hacts : x.acts = (s.part p).acts)
    (hgrants : x.grants = (s.part p).grants) : KeepsRamp p s (s.setPart p x) :=
  ⟨.setPart s hplan, by rw [part_setPart, hacts], by rw [part_setPart, hgrants]⟩

/-- The same change over another memory. -/
theorem withMem (h : KeepsRamp p s t) (m : List Host.Cell) : KeepsRamp p { s with mem := m } { t with mem := m } where
  frame := congrArg (fun x : State => { x with mem := m }) h.frame
  plan := h.plan
  acts := h.acts
  grants := h.grants

theorem grantsUsed (h : KeepsRamp p s t) : t.grantsUsed p = s.grantsUsed p := grantsUsed_congr h.grants h.bn

end KeepsRamp

/-! ## Before the kernel -/

theorem openTask_keepsRamp (s : State) (p task : Nat) : KeepsRamp p s (s.openTask p task) := by
  have started : KeepsRamp p s (s.markStarted p [task]) := .setPart s rfl rfl rfl
  unfold openTask
  dsimp only
  split
  · exact .refl p s
  · split
    · split
      · exact started
      · exact started.trans (.setPart _ rfl rfl rfl)
    · exact started

/-- A buffer set to +0 is a change of the memory alone. -/
theorem clearBuffer_eq (s : State) (p r : Nat) (c : CollDesc) : ∃ m, s.clearBuffer p r c = { s with mem := m } := by
  unfold clearBuffer
  dsimp only
  split
  · exact ⟨s.mem, rfl⟩
  · exact ⟨_, rfl⟩

/-- Changes of the memory and of the partitions, one after another. -/
theorem foldl_keepsRamp {β : Type} {f : State → β → State} (hf : ∀ s x, ∃ m, KeepsRamp p { s with mem := m } (f s x))
    (l : List β) (s : State) : ∃ m, KeepsRamp p { s with mem := m } (l.foldl f s) := by
  induction l generalizing s with
  | nil => exact ⟨s.mem, .refl p s⟩
  | cons x l ih =>
    obtain ⟨m, hx⟩ := hf s x
    obtain ⟨m', hl⟩ := ih (f s x)
    exact ⟨m', (hx.withMem m').trans hl⟩

/-- The buffers of an update interval that start at +0 are a change of the memory, noted in the partition. -/
theorem clearInterval_keepsRamp (s : State) (p task : Nat) : ∃ m, KeepsRamp p { s with mem := m } (s.clearInterval p task) := by
  unfold clearInterval
  split
  · exact ⟨s.mem, .refl p s⟩
  · refine foldl_keepsRamp (fun s x => ?_) _ s
    obtain ⟨m, hm⟩ := s.clearBuffer_eq p _ x.2
    exact ⟨m, by rw [hm]; exact .setPart _ rfl rfl rfl⟩

/-- Counts the kernels of a task, once. -/
def countKernels (s : State) (p task : Nat) : State :=
  s.modPart p fun x => if x.tileLeft.any (·.1 = task) then x
    else { x with tileLeft := mput 0 x.tileLeft task (((s.taskOf p task).map kernelsOf).getD 0) }

/-- What a dispatch does before its kernel starts or waits: the buffers of an update interval start at +0, the task's window
opens, and its kernels are counted. -/
def opened (s : State) (p task : Nat) : State := ((s.clearInterval p task).openTask p task).countKernels p task

/-- `opened` is the first part of a dispatch. -/
theorem dispatch_eq (s : State) (p task g share base : Nat) :
    s.dispatch p task g share base =
      if (s.opened p task).wasIdle g then
        ((s.opened p task).modPart p fun x => { x with
          acts := insertAct { beat := (s.opened p task).bn, task := task, tile := g, share := share, base := base }
            x.acts }).grantActs p 16
      else (s.opened p task).startKernel p task g share base := rfl

theorem countKernels_keepsRamp (s : State) (p task : Nat) : KeepsRamp p s (s.countKernels p task) := by
  rw [countKernels, modPart_eq]
  split
  · exact .setPart s rfl rfl rfl
  · exact .setPart s rfl rfl rfl

/-- With no buffer of an update interval to clear, the partitions alone change. -/
theorem opened_keepsRamp {s : State} {p task : Nat} (hmem : (s.clearInterval p task).mem = s.mem) :
    KeepsRamp p s (s.opened p task) := by
  obtain ⟨m, hclear⟩ := s.clearInterval_keepsRamp p task
  obtain rfl : m = s.mem := (congrArg mem hclear.frame).symm.trans hmem
  exact (hclear.trans (openTask_keepsRamp _ p task)).trans (countKernels_keepsRamp _ p task)

/-! ## The kernel (R60) -/

theorem bindStash_keepsRamp (s : State) (p task : Nat) : KeepsRamp p s (s.bindStash p task) := by
  unfold bindStash
  split
  · exact .refl p s
  · dsimp only
    split
    · exact .setPart s rfl rfl rfl
    · exact .refl p s

/-- The scalar registers at dispatch by R60's table, and those that read 0 left out. -/
def dispatchRegs (step mb share base cluster tile task : Nat) : List (Nat × Word) :=
  [(1, BitVec.ofNat 64 step), (2, BitVec.ofNat 64 mb), (3, BitVec.ofNat 64 share), (4, BitVec.ofNat 64 base),
   (5, BitVec.ofNat 64 cluster), (6, BitVec.ofNat 64 tile), (7, BitVec.ofNat 64 task)].filter fun x => x.2 ≠ 0

theorem mget_dispatchRegs (step mb share base cluster tile task r : Nat) :
    mget 0 (dispatchRegs step mb share base cluster tile task) r =
      mget 0 [(1, BitVec.ofNat 64 step), (2, BitVec.ofNat 64 mb), (3, BitVec.ofNat 64 share), (4, BitVec.ofNat 64 base),
        (5, BitVec.ofNat 64 cluster), (6, BitVec.ofNat 64 tile), (7, BitVec.ofNat 64 task)] r :=
  mget_filter_ne 0 (by simp) r

/-- `u` is the tile `t` with its sequencer at the word `pc` of a kernel dispatched in beat `bn`: the scalar registers
`regs`, every other register and predicate cleared, and what a dispatch does not change as in `t`. -/
structure AtDispatch (t u : Tile) (regs : List (Nat × Word)) (pc bn : Nat) : Prop where
  sregs : u.sregs = regs
  dregs : u.dregs = []
  preds : u.preds = []
  pc : u.pc = pc
  lastBusy : u.lastBusy = some bn
  toks : u.toks = t.toks
  banks : u.banks = t.banks
  chains : u.chains = t.chains
  carry : u.carry = t.carry
  pend : u.pend = t.pend

namespace AtDispatch

variable {t u : Tile} {step mb share base cluster tile task pc bn : Nat}

section
variable (h : AtDispatch t u (dispatchRegs step mb share base cluster tile task) pc bn)
include h

theorem s_one_to_seven :
    u.s 1 = BitVec.ofNat 64 step ∧ u.s 2 = BitVec.ofNat 64 mb ∧ u.s 3 = BitVec.ofNat 64 share ∧
      u.s 4 = BitVec.ofNat 64 base ∧ u.s 5 = BitVec.ofNat 64 cluster ∧ u.s 6 = BitVec.ofNat 64 tile ∧
      u.s 7 = BitVec.ofNat 64 task := by
  simp only [Tile.s, h.sregs, mget_dispatchRegs]
  exact ⟨rfl, rfl, rfl, rfl, rfl, rfl, rfl⟩

theorem s_eq_zero {r : Nat} (hr : r = 0 ∨ 7 < r) : u.s r = 0 := by
  obtain rfl | hr := hr
  · rfl
  · have habsent : mget 0 u.sregs r = 0 := by
      rw [h.sregs, mget_dispatchRegs]
      apply mget_of_forall_ne
      simp only [List.forall_mem_cons, List.not_mem_nil, false_imp_iff, implies_true, and_true]
      omega
    rw [Tile.s, habsent, ite_self]

theorem d_eq_zero (r : Nat) : mget 0 u.dregs r = 0 := by
  rw [h.dregs]
  rfl

theorem p_eq_false {r : Nat} (hr : 1 ≤ r) : u.p r = false := by
  rw [Tile.p, h.preds, if_neg (by omega)]
  rfl

end

end AtDispatch

theorem off_TIL_STATUS_TASK (g : Nat) : F.TIL_STATUS_TASK.off g = F.TIL_STATUS_STATE.off g := by
  simp only [Fld.off, F.TIL_STATUS_TASK, F.TIL_STATUS_STATE]

/-- `PLN_BN` is not the status of a tile. -/
theorem base_PLN_BN_ne_off_TIL_STATUS (g : Nat) : F.PLN_BN_BN.base ≠ F.TIL_STATUS_STATE.off g := by
  simp only [Fld.off, F.PLN_BN_BN, F.TIL_STATUS_STATE]
  omega

/-- The status of a tile that runs a task. -/
def putRunning (s : State) (g task : Nat) : State := (s.putF F.TIL_STATUS_STATE g 1).putF F.TIL_STATUS_TASK g task

@[simp] theorem putRunning_mem (s : State) (g task : Nat) : (s.putRunning g task).mem = s.mem := by
  rw [putRunning, putF_mem, putF_mem]

@[simp] theorem putRunning_host (s : State) (g task : Nat) : (s.putRunning g task).host = s.host := by
  rw [putRunning, putF_host, putF_host]

@[simp] theorem tile_putRunning (s : State) (g task h : Nat) : (s.putRunning g task).tile h = s.tile h := by
  rw [putRunning, tile_putF, tile_putF]

@[simp] theorem part_putRunning (s : State) (g task p : Nat) : (s.putRunning g task).part p = s.part p := by
  rw [putRunning, part_putF, part_putF]

theorem word_putRunning_ne (s : State) (g task : Nat) {o : Nat} (h : o ≠ F.TIL_STATUS_STATE.off g) :
    (s.putRunning g task).word o = s.word o := by
  have htask : o ≠ F.TIL_STATUS_TASK.off g := off_TIL_STATUS_TASK g ▸ h
  rw [putRunning, word_putF_ne _ _ _ _ htask, word_putF_ne _ _ _ _ h]

theorem bn_putRunning (s : State) (g task : Nat) : (s.putRunning g task).bn = s.bn :=
  bn_congr (s.word_putRunning_ne g task (base_PLN_BN_ne_off_TIL_STATUS g))

theorem getF_putRunning_STATE (s : State) (g task : Nat) : (s.putRunning g task).getF F.TIL_STATUS_STATE g = 1 := by
  rw [putRunning, getF_putF_bits _ _ _ _ _ _ (.inr (by decide)), getF_putF _ _ _ _ (by decide) (by decide)]
  rfl

theorem getF_putRunning_TASK (s : State) (g task : Nat) :
    (s.putRunning g task).getF F.TIL_STATUS_TASK g = task % 2 ^ 24 :=
  getF_putF _ F.TIL_STATUS_TASK g task (by decide) (by decide)

/-- A kernel that starts changes its tile, the tile's status and, for a stashed layer, the partition. -/
theorem startKernel_eq {s : State} {p task : Nat} {pl : Plan} {k : Task} (hplan : s.plan p = some pl)
    (htask : s.taskOf p task = some k) (g share base : Nat) :
    ∃ t, AtDispatch (s.tile g) t (dispatchRegs (s.getF F.PLN_STEP_STEP p) k.mb share base (g / 8) (g % 8) task)
        (((pl.kernels[k.kernel]?).map (·.pc)).getD 0) s.bn ∧
      s.startKernel p task g share base = ((s.putRunning g task).setTile g t).bindStash p task := by
  have hpart : (s.part p).plan = some pl := hplan
  unfold startKernel
  rw [hpart, htask]
  dsimp only
  rw [modTile_eq, ← putRunning]
  refine ⟨_, ?_, rfl⟩
  simp only [tile_putRunning, bn_putRunning]
  refine ⟨rfl, rfl, rfl, ?pc, rfl, rfl, rfl, rfl, rfl, rfl⟩
  case pc => cases pl.kernels[k.kernel]? <;> rfl

/-- A kernel of R60 started on tile `g`: from `s` to `u` of the tiles and the registers only that tile and its status
differ. -/
structure KernelStarted (s u : State) (p task g share base : Nat) (pl : Plan) (k : Task) : Prop where
  mem : u.mem = s.mem
  host : u.host = s.host
  tile : AtDispatch (s.tile g) (u.tile g) (dispatchRegs (s.getF F.PLN_STEP_STEP p) k.mb share base (g / 8) (g % 8) task)
    (((pl.kernels[k.kernel]?).map (·.pc)).getD 0) s.bn
  otherTile : ∀ h, h ≠ g → u.tile h = s.tile h
  state : u.getF F.TIL_STATUS_STATE g = 1
  task : u.getF F.TIL_STATUS_TASK g = task % 2 ^ 24
  word : ∀ o, o ≠ F.TIL_STATUS_STATE.off g → u.word o = s.word o

theorem startKernel_started {p task : Nat} {pl : Plan} {k : Task} (hplan : s.plan p = some pl)
    (htask : s.taskOf p task = some k) (g share base : Nat) :
    KernelStarted s (s.startKernel p task g share base) p task g share base pl k := by
  obtain ⟨t, ht, heq⟩ := startKernel_eq hplan htask g share base
  have hbind := bindStash_keepsRamp ((s.putRunning g task).setTile g t) p task
  rw [← heq] at hbind
  constructor
  case mem => rw [hbind.mem, setTile_mem, putRunning_mem]
  case host => rw [hbind.host, setTile_host, putRunning_host]
  case tile => rwa [hbind.tile, tile_setTile]
  case otherTile =>
    intro h hh
    rw [hbind.tile, tile_setTile_ne _ _ hh, tile_putRunning]
  case state => rw [hbind.getF, getF_setTile, getF_putRunning_STATE]
  case task => rw [hbind.getF, getF_setTile, getF_putRunning_TASK]
  case word =>
    intro o ho
    rw [hbind.word, word_setTile, word_putRunning_ne _ _ _ ho]

/-- A kernel that starts waits for nothing and uses no grant of its own. -/
theorem ramp_startKernel {p task : Nat} {pl : Plan} {k : Task} (hplan : s.plan p = some pl)
    (htask : s.taskOf p task = some k) (g share base : Nat) :
    ((s.startKernel p task g share base).part p).acts = (s.part p).acts ∧
      (s.startKernel p task g share base).grantsUsed p = s.grantsUsed p := by
  obtain ⟨t, -, heq⟩ := startKernel_eq hplan htask g share base
  have hbind := bindStash_keepsRamp ((s.putRunning g task).setTile g t) p task
  rw [heq]
  constructor
  · rw [hbind.acts, part_setTile, part_putRunning]
  · rw [hbind.grantsUsed]
    exact grantsUsed_congr (by rw [part_setTile, part_putRunning]) (s.bn_putRunning g task)

/-- The partition's record does not matter to what a start does to the tiles and registers. -/
theorem KernelStarted.of_keepsPlan {task g share base : Nat} {pl : Plan} {k : Task} (hst : KeepsPlan p s t)
    (h : KernelStarted t u p task g share base pl k) : KernelStarted s u p task g share base pl k where
  mem := h.mem.trans hst.mem
  host := h.host.trans hst.host
  tile := by
    have htile := h.tile
    rwa [hst.tile, hst.getF, hst.bn] at htile
  otherTile := fun j hj => (h.otherTile j hj).trans (hst.tile j)
  state := h.state
  task := h.task
  word := fun o ho => (h.word o ho).trans (hst.word o)

/-- A kernel that starts after a change of its partition that keeps the plan. -/
theorem startKernel_started_of_keepsPlan {p task : Nat} {pl : Plan} {k : Task} (hplan : s.plan p = some pl)
    (htask : s.taskOf p task = some k) (h : KeepsPlan p s t) (g share base : Nat) :
    KernelStarted s (t.startKernel p task g share base) p task g share base pl k ∧
      ((t.startKernel p task g share base).part p).acts = (t.part p).acts ∧
      (t.startKernel p task g share base).grantsUsed p = t.grantsUsed p := by
  have hplan' : t.plan p = some pl := h.plan.trans hplan
  have htask' : t.taskOf p task = some k := (h.taskOf task).trans htask
  exact ⟨(startKernel_started hplan' htask' g share base).of_keepsPlan h, ramp_startKernel hplan' htask' g share base⟩

/-! ## The ramp limiter (R428) -/

theorem grantActs_of_nil (s : State) {p : Nat} (h : (s.part p).acts = []) (n : Nat) : s.grantActs p n = s := by
  cases n with
  | zero => rfl
  | succ n => rw [grantActs, h]

/-- With the share of the beat used up, nothing is granted. -/
theorem grantActs_of_spent (s : State) {p : Nat} (h : s.rampShare p ≤ s.grantsUsed p) (n : Nat) : s.grantActs p n = s := by
  cases n with
  | zero => rfl
  | succ n =>
    unfold grantActs
    split
    · rw [if_neg h.not_gt]
    · rfl

/-- One more grant of the beat is used, and the activations `rest` wait. -/
def useGrant (s : State) (p : Nat) (rest : List Act) : State :=
  s.modPart p fun x => { x with acts := rest, grants := (s.bn, s.grantsUsed p + 1) }

theorem useGrant_keepsPlan (s : State) (p : Nat) (rest : List Act) : KeepsPlan p s (s.useGrant p rest) := .setPart s rfl

theorem acts_useGrant (s : State) (p : Nat) (rest : List Act) : ((s.useGrant p rest).part p).acts = rest := by
  rw [useGrant, modPart_eq, part_setPart]

theorem grantsUsed_useGrant (s : State) (p : Nat) (rest : List Act) :
    (s.useGrant p rest).grantsUsed p = s.grantsUsed p + 1 := by
  have hgrants : ((s.useGrant p rest).part p).grants = (s.bn, s.grantsUsed p + 1) := by
    rw [useGrant, modPart_eq, part_setPart]
  rw [grantsUsed, hgrants, (s.useGrant_keepsPlan p rest).bn]
  exact if_pos rfl

/-- The oldest activation is granted and starts its kernel, and the next are looked at. -/
theorem grantActs_of_cons (s : State) {p : Nat} {a : Act} {rest : List Act} (hacts : (s.part p).acts = a :: rest)
    (h : s.grantsUsed p < s.rampShare p) (n : Nat) :
    s.grantActs p (n + 1) = ((s.useGrant p rest).startKernel p a.task a.tile a.share a.base).grantActs p n := by
  rw [grantActs, hacts]
  exact if_pos h

/-! ## The dispatch of a kernel -/

/-- An idle tile's dispatch up to the grant: with no older activation its own is the only one that waits. -/
def awaitingGrant (s : State) (p task g share base : Nat) : State :=
  (s.opened p task).modPart p fun x =>
    { x with acts := [{ beat := s.bn, task := task, tile := g, share := share, base := base }] }

theorem acts_awaitingGrant (s : State) (p task g share base : Nat) :
    ((s.awaitingGrant p task g share base).part p).acts =
      [{ beat := s.bn, task := task, tile := g, share := share, base := base }] := by
  rw [awaitingGrant, modPart_eq, part_setPart]

theorem state_of_canDispatch {s : State} {p task g share : Nat} (h : s.canDispatch p task g share = true) :
    s.getF F.TIL_STATUS_STATE g = 0 := by
  simp only [canDispatch, Bool.and_eq_true, decide_eq_true_eq] at h
  tauto

section
variable {s : State} {p task g share base : Nat} (hmem : (s.clearInterval p task).mem = s.mem)
include hmem

theorem dispatch_of_busy (hbusy : s.wasIdle g = false) :
    s.dispatch p task g share base = (s.opened p task).startKernel p task g share base := by
  rw [dispatch_eq, (opened_keepsRamp hmem).wasIdle, hbusy]
  rfl

theorem dispatch_of_idle (hidle : s.wasIdle g = true) (hacts : (s.part p).acts = []) :
    s.dispatch p task g share base = (s.awaitingGrant p task g share base).grantActs p 16 := by
  have hopened := opened_keepsRamp hmem
  rw [dispatch_eq, hopened.wasIdle, if_pos hidle, hopened.bn, awaitingGrant, modPart_eq, modPart_eq, hopened.acts, hacts]
  rfl

theorem awaitingGrant_keepsPlan : KeepsPlan p s (s.awaitingGrant p task g share base) :=
  (opened_keepsRamp hmem).toKeepsPlan.trans (.setPart _ rfl)

theorem grantsUsed_awaitingGrant : (s.awaitingGrant p task g share base).grantsUsed p = s.grantsUsed p := by
  refine grantsUsed_congr ?_ (awaitingGrant_keepsPlan hmem).bn
  rw [awaitingGrant, modPart_eq, part_setPart]
  exact (opened_keepsRamp hmem).grants

/-- With the share of the beat used up the activation waits. -/
theorem dispatch_waits (hidle : s.wasIdle g = true) (hacts : (s.part p).acts = []) (hspent : s.rampShare p ≤ s.grantsUsed p) :
    s.dispatch p task g share base = s.awaitingGrant p task g share base := by
  rw [dispatch_of_idle hmem hidle hacts]
  apply grantActs_of_spent
  rwa [(awaitingGrant_keepsPlan hmem).rampShare, grantsUsed_awaitingGrant hmem]

variable {pl : Plan} {k : Task} (hplan : s.plan p = some pl) (htask : s.taskOf p task = some k)
include hplan htask

/-- A tile that was busy, and one that was idle with its grant, starts the kernel; the idle one uses a grant. -/
theorem dispatch_starts (hacts : s.wasIdle g = true → (s.part p).acts = [])
    (hstart : s.wasIdle g = false ∨ s.grantsUsed p < s.rampShare p) :
    KernelStarted s (s.dispatch p task g share base) p task g share base pl k ∧
      (s.dispatch p task g share base).grantsUsed p = s.grantsUsed p + if s.wasIdle g then 1 else 0 := by
  have hopened := opened_keepsRamp hmem
  cases hidle : s.wasIdle g with
  | false =>
    obtain ⟨hstarted, -, hused⟩ := startKernel_started_of_keepsPlan hplan htask hopened.toKeepsPlan g share base
    rw [dispatch_of_busy hmem hidle]
    exact ⟨hstarted, hused.trans hopened.grantsUsed⟩
  | true =>
    have hgrant : s.grantsUsed p < s.rampShare p := by simpa [hidle] using hstart
    have hwait := awaitingGrant_keepsPlan (g := g) (share := share) (base := base) hmem
    have hwaitused := grantsUsed_awaitingGrant (g := g) (share := share) (base := base) hmem
    obtain ⟨hstarted, hnone, hused⟩ :=
      startKernel_started_of_keepsPlan hplan htask (hwait.trans (useGrant_keepsPlan _ p [])) g share base
    rw [acts_useGrant] at hnone
    rw [grantsUsed_useGrant, hwaitused] at hused
    rw [dispatch_of_idle hmem hidle (hacts hidle),
      grantActs_of_cons _ (acts_awaitingGrant s p task g share base) (by rwa [hwaitused, hwait.rampShare]),
      grantActs_of_nil _ hnone]
    exact ⟨hstarted, hused⟩

end

end State
end Sys2Proof.Machine
end

section
/-! A dispatch starts a kernel with the registers of R60, or waits for a grant of the ramp limiter (R428). -/

namespace Sys2Proof

open Machine

theorem exec_tileDispatch_of_canDispatch {s : State} {p task g share : Nat} (h : s.canDispatch p task g share = true)
    (base : Nat) : exec (.tileDispatch p task g share base) s = .next (s.dispatch p task g share base) := by
  change execTileDispatch p task g share base s = _
  rw [execTileDispatch, if_pos h]

/-- Settles O16: with a grant, or on a tile that was busy, the kernel starts and what it reads is R60's table; with the
share of the beat used up the partition alone changes. -/
theorem dispatchStartsKernel : Obligations.DispatchStartsKernel := by
  unfold Obligations.DispatchStartsKernel
  intro s p task g share base pl k _ _ htask24 hcan hplan htask hacts hmem
  refine ⟨_, exec_tileDispatch_of_canDispatch hcan base, ?_⟩
  by_cases hstart : s.wasIdle g = false ∨ s.grantsUsed p < s.rampShare p
  · obtain ⟨hstarted, hused⟩ := State.dispatch_starts (share := share) (base := base) hmem hplan htask hacts hstart
    have hspent : s.wasIdle g = true → s.rampShare p ≤ s.grantsUsed p → False := by
      intro hidle hle
      obtain hbusy | hlt := hstart
      · exact Bool.false_ne_true (hbusy.symm.trans hidle)
      · exact hlt.not_ge hle
    have ht := hstarted.tile
    refine ⟨hstarted.mem, hstarted.host, hstarted.otherTile, fun _ => ?_, fun hidle hle => (hspent hidle hle).elim,
      hstarted.word⟩
    obtain ⟨h1, h2, h3, h4, h5, h6, h7⟩ := ht.s_one_to_seven
    exact ⟨hstarted.state, hstarted.task.trans (Nat.mod_eq_of_lt htask24), h1, h2, h3, h4, h5, h6, h7, fun _ => ht.s_eq_zero,
      ht.d_eq_zero, fun _ => ht.p_eq_false, ht.pc, ht.lastBusy, ht.toks, ht.banks, ht.chains, ht.carry, ht.pend, hused⟩
  · obtain ⟨hidle, hspent⟩ := not_or.mp hstart
    replace hidle : s.wasIdle g = true := by simpa using hidle
    have hwait := State.awaitingGrant_keepsPlan (g := g) (share := share) (base := base) hmem
    rw [State.dispatch_waits hmem hidle (hacts hidle) (not_lt.mp hspent)]
    exact ⟨hwait.mem, hwait.host, fun j _ => hwait.tile j, fun hgo => (hstart hgo).elim,
      fun _ _ => ⟨hwait.tile g, (hwait.getF _ g).trans (State.state_of_canDispatch hcan),
        State.acts_awaitingGrant s p task g share base⟩,
      fun o _ => hwait.word o⟩

end Sys2Proof
end

section
/-! SUPPORT. The shares that a write of `PWR_RAMP` names, and the loads that a partition without a share is refused (R37, R429). -/

namespace Sys2Proof.Machine

/-! ## Fields within fields -/

theorem getBits_testBit (w : Word) (hi lo i : Nat) :
    (getBits w hi lo).testBit i = (decide (i < hi + 1 - lo) && w.getLsbD (lo + i)) := by
  rw [getBits_eq, BitVec.testBit_toNat, BitVec.getLsbD_extractLsb']

/-- Bits within a field that takes the same bits of `v` read as those of `v`. -/
theorem getBits_putBits_getBits (w v : Word) {hi lo hi' lo' : Nat} (h64 : hi < 64) (hlo : lo ≤ lo') (hhi : hi' ≤ hi) :
    getBits (putBits w hi lo (getBits v hi lo)) hi' lo' = getBits v hi' lo' := by
  apply Nat.eq_of_testBit_eq
  intro i
  rw [getBits_testBit, getBits_testBit]
  by_cases hwidth : i < hi' + 1 - lo'
  · have hin : lo ≤ lo' + i ∧ lo' + i ≤ hi ∧ lo' + i < 64 := by omega
    rw [putBits_getLsbD, if_pos hin, getBits_testBit, show lo + (lo' + i - lo) = lo' + i by omega]
    simp [show lo' + i - lo < hi + 1 - lo by omega]
  · simp [hwidth]

/-! ## The checks of an image -/

/-- A check of an image ends it or lets the next begin. -/
theorem need_bind {α : Type} (ok : Bool) (code detail : Nat) (next : Unit → Read α) :
    (need ok code detail >>= next) = if ok then next () else .error (code, detail % 2 ^ 24) := by
  cases ok <;> rfl

namespace State

variable (s : State) (p : Nat)

/-- The checks of an image that lies in the partition's HBM: those of its bytes, then of the mode, then of the partition. -/
theorem checkImage_of_imageBytes {b : List Byte} (hwiping : s.flag F.PRT_STATE_WIPING p = false)
    (hbytes : s.imageBytes p = some b) :
    s.checkImage p = (do
      let pl ← readPlan b (s.getF F.PLN_IMG_LEN_LEN p) (s.planSite p) s.activeOwner
      need (!(s.ident.lc = 3 && 1 < pl.rankCount)) 0x07 0
      need (!s.flag F.PRT_STATE_OVER_QUOTA p && 0 < s.rampShare p) 0x08 0
      pure (pl.ordered, (pl.ordered.schedule (s.planSite p).ring (s.planSite p).movers
        (Plan.collBeats (s.planSite p).ring)).1)) := by
  rw [checkImage, hwiping, hbytes]
  rfl

/-- Of a plan that reads well the mode is checked (0x07), then the quota and the share of the partition (0x08). -/
theorem checkImage_of_readPlan {b : List Byte} {pl : Plan} (hwiping : s.flag F.PRT_STATE_WIPING p = false)
    (hbytes : s.imageBytes p = some b)
    (hread : readPlan b (s.getF F.PLN_IMG_LEN_LEN p) (s.planSite p) s.activeOwner = .ok pl) :
    s.checkImage p =
      if s.ident.lc = 3 ∧ 1 < pl.rankCount then .error (0x07, 0)
      else if s.flag F.PRT_STATE_OVER_QUOTA p = true ∨ s.rampShare p = 0 then .error (0x08, 0)
      else .ok (pl.ordered, (pl.ordered.schedule (s.planSite p).ring (s.planSite p).movers
        (Plan.collBeats (s.planSite p).ring)).1) := by
  have hmode : (!(s.ident.lc = 3 && 1 < pl.rankCount)) = true ↔ ¬ (s.ident.lc = 3 ∧ 1 < pl.rankCount) := by
    simp [imp_iff_not_or]
  have hpart : (!s.flag F.PRT_STATE_OVER_QUOTA p && 0 < s.rampShare p) = true ↔
      ¬ (s.flag F.PRT_STATE_OVER_QUOTA p = true ∨ s.rampShare p = 0) := by
    simp [Nat.pos_iff_ne_zero]
  rw [s.checkImage_of_imageBytes p hwiping hbytes, hread]
  change (need _ _ _ >>= fun _ => need _ _ _ >>= _) = _
  simp only [need_bind, hmode, hpart, ite_not, Nat.zero_mod]
  rfl

variable {s p}

/-- An image that no other check refuses is refused for the share, with code 0x08. -/
theorem checkImage_of_onlyShare (hshare : s.rampShare p = 0) {b : List Byte} {pl : Plan}
    (hwiping : s.flag F.PRT_STATE_WIPING p = false) (hbytes : s.imageBytes p = some b)
    (hread : readPlan b (s.getF F.PLN_IMG_LEN_LEN p) (s.planSite p) s.activeOwner = .ok pl)
    (hranks : s.ident.lc = 3 → pl.rankCount ≤ 1) : s.checkImage p = .error (0x08, 0) := by
  have hmode : ¬ (s.ident.lc = 3 ∧ 1 < pl.rankCount) := fun ⟨hlc, hmore⟩ => (hranks hlc).not_gt hmore
  rw [s.checkImage_of_readPlan p hwiping hbytes hread, if_neg hmode, if_pos (.inr hshare)]

/-- Every image is refused, by the check of the share or by one before it. -/
theorem checkImage_of_noShare (hshare : s.rampShare p = 0) : ∃ code detail, s.checkImage p = .error (code, detail) := by
  cases hwiping : s.flag F.PRT_STATE_WIPING p with
  | true => exact ⟨0x11, 0, by rw [checkImage, hwiping]; rfl⟩
  | false =>
    cases hbytes : s.imageBytes p with
    | none => exact ⟨0x08, 0, by rw [checkImage, hwiping, hbytes]; rfl⟩
    | some b =>
      cases hread : readPlan b (s.getF F.PLN_IMG_LEN_LEN p) (s.planSite p) s.activeOwner with
      | error e => exact ⟨e.1, e.2, by rw [s.checkImage_of_imageBytes p hwiping hbytes, hread]; rfl⟩
      | ok pl =>
        rw [s.checkImage_of_readPlan p hwiping hbytes hread]
        simp only [hshare, or_true, if_true]
        split
        · exact ⟨0x07, 0, rfl⟩
        · exact ⟨0x08, 0, rfl⟩

variable (s p)

/-! ## The end of a load (R37) -/

theorem beginLoad_of_error {code detail : Nat} (h : s.checkImage p = .error (code, detail)) :
    s.beginLoad p = s.loadEnds p code detail := by
  rw [beginLoad, h]

theorem flag_loadEnds_BUSY (code detail : Nat) : (s.loadEnds p code detail).flag F.PLN_LOAD_STATUS_BUSY p = false := by
  have hbusy : (s.loadEnds p code detail).getF F.PLN_LOAD_STATUS_BUSY p = 0 :=
    getF_putF _ F.PLN_LOAD_STATUS_BUSY p 0 (by decide) (by decide)
  rw [flag, hbusy]
  rfl

theorem getF_loadEnds_CODE (code detail : Nat) :
    (s.loadEnds p code detail).getF F.PLN_LOAD_STATUS_CODE p = code % 2 ^ 8 := by
  have hlast : (s.loadEnds p code detail).getF F.PLN_LOAD_STATUS_CODE p =
      (((s.putF F.PLN_LOAD_STATUS_CODE p code).putF F.PLN_LOAD_STATUS_DETAIL p detail).putF F.PLN_LOAD_STATUS_BUSY p
        0).getF F.PLN_LOAD_STATUS_CODE p := rfl
  rw [hlast, getF_putF_bits _ _ _ _ _ _ (.inl (by decide)), getF_putF_bits _ _ _ _ _ _ (.inl (by decide)),
    getF_putF _ _ _ _ (by decide) (by decide)]
  rfl

theorem part_loadEnds (code detail : Nat) :
    (s.loadEnds p code detail).part p = { s.part p with loading := none } := by
  rw [loadEnds, modPart_eq, part_setPart, part_putF, part_putF, part_putF]

/-- In Run, with no entry to Idle in progress, work that arrives finds the module awake. -/
theorem arriveWork_of_inRun (h : InRun s) : s.arriveWork = s := by
  obtain ⟨hrun, htarget⟩ := h
  rw [arriveWork, if_neg (by simp [hrun, htarget])]

/-- The load of an image that its checks refuse ends at once. -/
theorem exec_planLoadGo_of_error {f : Func} {code detail : Nat} (hp : p < 8) (hopen : Open s f (F.PLN_LOAD_GO.off p))
    (hbusy : s.flag F.PLN_LOAD_STATUS_BUSY p = false) (hstopped : s.running p = false) (hlc : s.ident.lc ≠ 4)
    (hrun : InRun s) (h : s.checkImage p = .error (code, detail)) :
    exec (.planLoadGo f p) s = .next (s.loadEnds p code detail) := by
  have hgo : ¬ (8 ≤ p ∨ s.flag F.PLN_LOAD_STATUS_BUSY p ∨ s.running p ∨ s.ident.lc = 4) := by
    simp [hbusy, hstopped, hlc, hp]
  change execPlanLoadGo f p s = _
  rw [execPlanLoadGo, s.gated_of_open hopen, if_neg hgo, s.arriveWork_of_inRun hrun, s.beginLoad_of_error p h]

/-! ## A write of `PWR_RAMP` (R429) -/

/-- The shares that a write of `PWR_RAMP` names break the sum, or leave a running partition none. -/
def BadShares (v : Word) : Prop :=
  16 < ((List.range 8).map fun p => getBits v (5 * p + 4) (5 * p)).sum ∨
    ∃ p, p < 8 ∧ s.running p = true ∧ getBits v (5 * p + 4) (5 * p) = 0

/-- `BadShares` is the condition of the command. -/
theorem badShares_iff (v : Word) :
    s.BadShares v ↔
      16 < ((List.range 8).map fun p => getBits v (5 * p + 4) (5 * p)).foldl (· + ·) 0 ∨
        (List.range 8).any (fun p => getBits v (5 * p + 4) (5 * p) = 0 && s.running p) = true := by
  rw [BadShares, List.sum_eq_foldl]
  simp [and_comm]

end State

theorem exec_pwrRampWrite_of_badShares {s : State} {f : Func} {v : Word} (hopen : Open s f F.PWR_RAMP_SHARE.base)
    (h : s.BadShares v) : exec (.pwrRampWrite f v) s = .next (s.genErr f 1 F.PWR_RAMP_SHARE.base) := by
  change execPwrRampWrite f v s = _
  rw [execPwrRampWrite, s.gated_of_open hopen]
  exact congrArg _ (if_pos ((s.badShares_iff v).mp h))

theorem exec_pwrRampWrite_of_goodShares {s : State} {f : Func} {v : Word} (hopen : Open s f F.PWR_RAMP_SHARE.base)
    (h : ¬ s.BadShares v) : exec (.pwrRampWrite f v) s = .next (s.putF F.PWR_RAMP_SHARE 0 (getBits v 39 0)) := by
  change execPwrRampWrite f v s = _
  rw [execPwrRampWrite, s.gated_of_open hopen]
  exact congrArg _ (if_neg (mt (s.badShares_iff v).mpr h))

/-- `PWR_RAMP` is none of the logs. -/
theorem State.word_genErr_PWR_RAMP (s : State) (f : Func) (kind off : Nat) :
    (s.genErr f kind off).word F.PWR_RAMP_SHARE.base = s.word F.PWR_RAMP_SHARE.base := by
  apply (s.genErr_logsOnly f kind off).word
  rintro (h | h)
  · exact absurd h (by decide)
  · exact State.not_sideLogOffset_of_lt (by decide) h

/-- After a write of bits [39:0] of `PWR_RAMP` every share is the one written. -/
theorem State.share_putF_PWR_RAMP (s : State) (v : Word) {p : Nat} (hp : p < 8) :
    getBits ((s.putF F.PWR_RAMP_SHARE 0 (getBits v 39 0)).word F.PWR_RAMP_SHARE.base) (5 * p + 4) (5 * p) =
      getBits v (5 * p + 4) (5 * p) := by
  change getBits ((s.putF F.PWR_RAMP_SHARE 0 (getBits v 39 0)).word (F.PWR_RAMP_SHARE.off 0)) _ _ = _
  rw [s.word_putF_self]
  exact getBits_putBits_getBits _ v (by decide) (Nat.zero_le _) (by change 5 * p + 4 ≤ 39; omega)

end Sys2Proof.Machine
end

section
/-! Ramp shares are set only as R429 admits, and a partition without one loads no plan. -/

namespace Sys2Proof

open Machine

/-- Settles O57: shares that R429 admits are put into `PWR_RAMP` alone and any others logged alone; without a share the
check of an image ends in an error, at the latest that of the share. -/
theorem rampSharesAreKept : Obligations.RampSharesAreKept := by
  unfold Obligations.RampSharesAreKept
  refine ⟨?admitted, ?refused, ?load⟩
  case admitted =>
    intro s f v hopen hsum hkept
    have hgood : ¬ s.BadShares v := by
      rintro (hover | ⟨p, hp, hrunning, hzero⟩)
      · exact hsum.not_gt hover
      · exact hkept p hp hrunning hzero
    exact ⟨_, exec_pwrRampWrite_of_goodShares hopen hgood, fun p hp => s.share_putF_PWR_RAMP v hp, rfl,
      fun o ho => s.word_putF_ne _ _ _ ho⟩
  case refused =>
    intro s f v hopen hbad
    exact ⟨_, exec_pwrRampWrite_of_badShares hopen hbad, s.word_genErr_PWR_RAMP f 1 _, s.flag_genErr_valid f 1 _⟩
  case load =>
    intro s f p hp hopen hbusy hstopped hlc hrun hshare
    obtain ⟨code, detail, herror⟩ := State.checkImage_of_noShare hshare
    refine ⟨_, s.exec_planLoadGo_of_error p hp hopen hbusy hstopped hlc hrun herror, s.flag_loadEnds_BUSY p code detail,
      by rw [s.part_loadEnds], by rw [s.part_loadEnds], ?_⟩
    intro b pl hwiping hbytes hread hranks
    have honly := State.checkImage_of_onlyShare hshare hwiping hbytes hread hranks
    obtain rfl : code = 0x08 := congrArg Prod.fst (Except.error.inj (herror.symm.trans honly))
    exact s.getF_loadEnds_CODE p 0x08 detail

end Sys2Proof
end

section
/-! SUPPORT. Every command answers a next state, and the laws of the meanings put together over the commands. -/

namespace Sys2Proof.Machine

/-! ## Every command answers a next state -/

/-- The outcome is a next state: neither a fault nor a refusal. -/
def IsNext (r : Res) : Prop := ∃ t, r = .next t

/-- Every outcome there is, is a next state. -/
def AllNext (o : Option Res) : Prop := ∀ r ∈ o, IsNext r

theorem isNext_next (t : State) : IsNext (.next t) := ⟨t, rfl⟩

theorem IsNext.ite {c : Prop} [Decidable c] {x y : Res} (hx : IsNext x) (hy : IsNext y) : IsNext (if c then x else y) := by
  split
  · exact hx
  · exact hy

theorem IsNext.andThen {r : Res} {f : State → Res} (hr : IsNext r) (hf : ∀ s, IsNext (f s)) : IsNext (State.andThen r f) := by
  obtain ⟨t, rfl⟩ := hr
  exact hf t

/-- Meanings that answer next states do so one after another. -/
theorem IsNext.foldl_andThen {β : Type} {f : β → State → Res} (hf : ∀ x s, IsNext (f x s)) (l : List β) {r : Res}
    (hr : IsNext r) : IsNext (l.foldl (fun q x => State.andThen q (f x)) r) := by
  induction l generalizing r with
  | nil => exact hr
  | cons x l ih => exact ih (hr.andThen (hf x))

theorem allNext_none : AllNext none := fun _ h => nomatch h

theorem allNext_some {r : Res} (h : IsNext r) : AllNext (some r) := by
  rintro _ ⟨⟩
  exact h

theorem AllNext.ite {c : Prop} [Decidable c] {x y : Option Res} (hx : AllNext x) (hy : AllNext y) :
    AllNext (if c then x else y) := by
  split
  · exact hx
  · exact hy

theorem AllNext.getD {o : Option Res} {r : Res} (ho : AllNext o) (hr : IsNext r) : IsNext (o.getD r) := by
  cases o with
  | none => exact hr
  | some q => exact ho q rfl

namespace State

variable (s : State)

/-- The command of a field is a next state, whichever it is: of the arms only that of `RUN` chooses between two meanings,
and only those of `SEC_FW_CTRL` and of `CLAIM` run one after another. -/
theorem commandAt_allNext (f : Func) (r : RegRow) (o i : Nat) (v : Word) : AllNext (s.commandAt f r o i v) := by
  have claims (l : List Nat) : IsNext (l.foldl (fun q p => andThen q (execHostClaim f p v)) (.next s)) :=
    IsNext.foldl_andThen (f := fun p => execHostClaim f p v) (fun _ _ => isNext_next _) l (isNext_next s)
  have run : IsNext (if getBits v 0 0 = 1 then execRunSet f i v s else execRunClear f i v s) :=
    .ite (isNext_next _) (isNext_next _)
  unfold commandAt
  repeat' apply AllNext.ite
  all_goals
    first
    | exact allNext_none
    | apply allNext_some
  all_goals
    first
    | exact isNext_next _
    | exact claims _
    | exact run

theorem queueWrite_allNext (f : Func) (o : Nat) (v : Word) : AllNext (s.queueWrite f o v) := by
  unfold queueWrite
  refine .ite ?_ allNext_none
  dsimp only
  split
  case h_4 => exact allNext_none
  all_goals exact allNext_some (isNext_next _)

theorem regStore_isNext (f : Func) (off size : Nat) (v : Word) : IsNext (s.regStore f off size v) := by
  unfold regStore
  dsimp only
  refine .ite (isNext_next _) (.ite (isNext_next _) ?_)
  split
  · exact isNext_next _
  · split
    · exact .ite ((commandAt_allNext _ f _ _ _ _).getD (isNext_next _)) (isNext_next _)
    · exact (queueWrite_allNext _ f _ _).getD (isNext_next _)

end State

theorem execJtagBar0Access_isNext (off size : Nat) (wr : Option Word) (s : State) :
    IsNext (execJtagBar0Access off size wr s) := by
  unfold execJtagBar0Access
  split
  · exact isNext_next _
  · exact isNext_next _
  · exact isNext_next _
  · exact s.regStore_isNext .jtag off size _

/-- Of the commands only the register write, by a TLP or through JTAG, chooses among outcomes; any other is a next state as
it stands. -/
theorem exec_isNext (c : Instr) (s : State) : IsNext (exec c s) := by
  cases c
  case registerWrite f off size v => exact s.regStore_isNext f off size v
  case jtagBar0Access off size wr => exact execJtagBar0Access_isNext off size wr s
  all_goals exact isNext_next _

/-! ## What every command keeps -/

/-- Each command keeps what its meaning keeps. -/
theorem exec_keeps {c : Instr} {s t : State} (hexec : exec c s = .next t) : Keeps s t := by
  have s_keeps := Keeps.refl s
  cases c with
  | registerWrite f off size v => exact execRegisterWrite_keeps f off size v s_keeps t hexec
  | rcFieldRead f off size => exact execRcFieldRead_keeps f off size s_keeps t hexec
  | beat => exact execBeat_keeps s_keeps t hexec
  | beatSourceLost => exact execBeatSourceLost_keeps s_keeps t hexec
  | masterMarkerLoss => exact execMasterMarkerLoss_keeps s_keeps t hexec
  | holdoverExit src markerBn edge => exact execHoldoverExit_keeps src markerBn edge s_keeps t hexec
  | alternateUpstream port => exact execAlternateUpstream_keeps port s_keeps t hexec
  | upstreamReturn => exact execUpstreamReturn_keeps s_keeps t hexec
  | masterDeclare => exact execMasterDeclare_keeps s_keeps t hexec
  | beatLost => exact execBeatLost_keeps s_keeps t hexec
  | plnBnLoad f v => exact execPlnBnLoad_keeps f v s_keeps t hexec
  | bnLoadApply => exact execBnLoadApply_keeps s_keeps t hexec
  | beatFlit port b came => exact execBeatFlit_keeps port b came s_keeps t hexec
  | planLoadGo f p => exact execPlanLoadGo_keeps f p s_keeps t hexec
  | planLoadDone p digests => exact execPlanLoadDone_keeps p digests s_keeps t hexec
  | runSet f p v => exact execRunSet_keeps f p v s_keeps t hexec
  | runClear f p v => exact execRunClear_keeps f p v s_keeps t hexec
  | planStart p => exact execPlanStart_keeps p s_keeps t hexec
  | stepOrigin p => exact execStepOrigin_keeps p s_keeps t hexec
  | tileDispatch p task g share base => exact execTileDispatch_keeps p task g share base s_keeps t hexec
  | clusterMove p task chain => exact execClusterMove_keeps p task chain s_keeps t hexec
  | hostMove p task chain => exact execHostMove_keeps p task chain s_keeps t hexec
  | indexSort p table mb => exact execIndexSort_keeps p table mb s_keeps t hexec
  | segmentReduction p table => exact execSegmentReduction_keeps p table s_keeps t hexec
  | gatherAndPool p table mb rank errs => exact execGatherAndPool_keeps p table mb rank errs s_keeps t hexec
  | sparseUpdate p table => exact execSparseUpdate_keeps p table s_keeps t hexec
  | carmineTransfer p task dests bytes src dst token => exact execCarmineTransfer_keeps p task dests bytes src dst token s_keeps t hexec
  | collective p task rank => exact execCollective_keeps p task rank s_keeps t hexec
  | ingestDelivery p task mb => exact execIngestDelivery_keeps p task mb s_keeps t hexec
  | prefetch p table => exact execPrefetch_keeps p table s_keeps t hexec
  | workingCopyCompare p tensor block master copy fmt => exact execWorkingCopyCompare_keeps p tensor block master copy fmt s_keeps t hexec
  | calibrationTask p layer u w => exact execCalibrationTask_keeps p layer u w s_keeps t hexec
  | windowOpen p task bytes => exact execWindowOpen_keeps p task bytes s_keeps t hexec
  | holdFlit port x => exact execHoldFlit_keeps port x s_keeps t hexec
  | holdLanding p land => exact execHoldLanding_keeps p land s_keeps t hexec
  | holdLimitReached p => exact execHoldLimitReached_keeps p s_keeps t hexec
  | plnHoldPop f p v => exact execPlnHoldPop_keeps f p v s_keeps t hexec
  | balanceDecision p finish => exact execBalanceDecision_keeps p finish s_keeps t hexec
  | mxMul g w => exact execMxMul_keeps g w s_keeps t hexec
  | mxMultA g w => exact execMxMultA_keeps g w s_keeps t hexec
  | mxMultB g w => exact execMxMultB_keeps g w s_keeps t hexec
  | mxLd g w => exact execMxLd_keeps g w s_keeps t hexec
  | mxSt g w => exact execMxSt_keeps g w s_keeps t hexec
  | mxStq g w => exact execMxStq_keeps g w s_keeps t hexec
  | mxZero g w => exact execMxZero_keeps g w s_keeps t hexec
  | vcRun g w => exact execVcRun_keeps g w s_keeps t hexec
  | vcCfg g w => exact execVcCfg_keeps g w s_keeps t hexec
  | add g w => exact execAdd_keeps g w s_keeps t hexec
  | sub g w => exact execSub_keeps g w s_keeps t hexec
  | mul g w => exact execMul_keeps g w s_keeps t hexec
  | and g w => exact execAnd_keeps g w s_keeps t hexec
  | or g w => exact execOr_keeps g w s_keeps t hexec
  | xor g w => exact execXor_keeps g w s_keeps t hexec
  | shl g w => exact execShl_keeps g w s_keeps t hexec
  | shr g w => exact execShr_keeps g w s_keeps t hexec
  | sra g w => exact execSra_keeps g w s_keeps t hexec
  | min g w => exact execMin_keeps g w s_keeps t hexec
  | max g w => exact execMax_keeps g w s_keeps t hexec
  | cmpEq g w => exact execCmpEq_keeps g w s_keeps t hexec
  | cmpNe g w => exact execCmpNe_keeps g w s_keeps t hexec
  | cmpLt g w => exact execCmpLt_keeps g w s_keeps t hexec
  | cmpLtu g w => exact execCmpLtu_keeps g w s_keeps t hexec
  | pand g w => exact execPand_keeps g w s_keeps t hexec
  | por g w => exact execPor_keeps g w s_keeps t hexec
  | pxor g w => exact execPxor_keeps g w s_keeps t hexec
  | xsLd g w => exact execXsLd_keeps g w s_keeps t hexec
  | xsSt g w => exact execXsSt_keeps g w s_keeps t hexec
  | xdSet g w => exact execXdSet_keeps g w s_keeps t hexec
  | xdLd g w => exact execXdLd_keeps g w s_keeps t hexec
  | xdSt g w => exact execXdSt_keeps g w s_keeps t hexec
  | xmCopy g w => exact execXmCopy_keeps g w s_keeps t hexec
  | xmDma g w => exact execXmDma_keeps g w s_keeps t hexec
  | csBr g w => exact execCsBr_keeps g w s_keeps t hexec
  | csLoop g w => exact execCsLoop_keeps g w s_keeps t hexec
  | csWaitBeat g w => exact execCsWaitBeat_keeps g w s_keeps t hexec
  | csWaitTok g w => exact execCsWaitTok_keeps g w s_keeps t hexec
  | csWaitCyc g w => exact execCsWaitCyc_keeps g w s_keeps t hexec
  | csArrive g w => exact execCsArrive_keeps g w s_keeps t hexec
  | csHalt g w => exact execCsHalt_keeps g w s_keeps t hexec
  | instructionResultVisible g => exact execInstructionResultVisible_keeps g s_keeps t hexec
  | waitBeatSatisfied g => exact execWaitBeatSatisfied_keeps g s_keeps t hexec
  | waitTokSatisfied g => exact execWaitTokSatisfied_keeps g s_keeps t hexec
  | waitCycExpiry g => exact execWaitCycExpiry_keeps g s_keeps t hexec
  | waitTimeout g => exact execWaitTimeout_keeps g s_keeps t hexec
  | arriveIncrement g => exact execArriveIncrement_keeps g s_keeps t hexec
  | dmaArrival c ch => exact execDmaArrival_keeps c ch s_keeps t hexec
  | cfg e f => exact execCfg_keeps e f s_keeps t hexec
  | gather e f errs => exact execGather_keeps e f errs s_keeps t hexec
  | pool e f errs => exact execPool_keeps e f errs s_keeps t hexec
  | update e f errs => exact execUpdate_keeps e f errs s_keeps t hexec
  | copy e f errs => exact execCopy_keeps e f errs s_keeps t hexec
  | restore e f => exact execRestore_keeps e f s_keeps t hexec
  | release e f => exact execRelease_keeps e f s_keeps t hexec
  | fence e f => exact execFence_keeps e f s_keeps t hexec
  | ochreCommandComplete e q tag => exact execOchreCommandComplete_keeps e q tag s_keeps t hexec
  | completionRecordRead e q => exact execCompletionRecordRead_keeps e q s_keeps t hexec
  | placementPeriod p => exact execPlacementPeriod_keeps p s_keeps t hexec
  | pageCopy p => exact execPageCopy_keeps p s_keeps t hexec
  | shardMoveDecision p table loads => exact execShardMoveDecision_keeps p table loads s_keeps t hexec
  | rowReplGo f p v => exact execRowReplGo_keeps f p v s_keeps t hexec
  | replacementCopyDone p => exact execReplacementCopyDone_keeps p s_keeps t hexec
  | replacementStateExchange p states => exact execReplacementStateExchange_keeps p states s_keeps t hexec
  | refresh u => exact execRefresh_keeps u s_keeps t hexec
  | patrolScrub u errs => exact execPatrolScrub_keeps u errs s_keeps t hexec
  | refreshManagement u => exact execRefreshManagement_keeps u s_keeps t hexec
  | temperatureReadout u temp => exact execTemperatureReadout_keeps u temp s_keeps t hexec
  | wheelApply => exact execWheelApply_keeps s_keeps t hexec
  | regCtrlDiscard u => exact execRegCtrlDiscard_keeps u s_keeps t hexec
  | marginOffline u v => exact execMarginOffline_keeps u v s_keeps t hexec
  | offlineEnter u => exact execOfflineEnter_keeps u s_keeps t hexec
  | offlineLeave u trained => exact execOfflineLeave_keeps u trained s_keeps t hexec
  | marginApply u v => exact execMarginApply_keeps u v s_keeps t hexec
  | tgGo u n v => exact execTgGo_keeps u n v s_keeps t hexec
  | tgDone u n errs => exact execTgDone_keeps u n errs s_keeps t hexec
  | fabCfgWrite f v => exact execFabCfgWrite_keeps f v s_keeps t hexec
  | portEnable port v => exact execPortEnable_keeps port v s_keeps t hexec
  | opticalSignalDetect port => exact execOpticalSignalDetect_keeps port s_keeps t hexec
  | equaliseDone port lanes => exact execEqualiseDone_keeps port lanes s_keeps t hexec
  | alignDone port farPos rings rtt => exact execAlignDone_keeps port farPos rings rtt s_keeps t hexec
  | keyingDone port peer => exact execKeyingDone_keeps port peer s_keeps t hexec
  | trainingLimitExpiry port => exact execTrainingLimitExpiry_keeps port s_keeps t hexec
  | portRetrain port => exact execPortRetrain_keeps port s_keeps t hexec
  | laneLoss port lanes => exact execLaneLoss_keeps port lanes s_keeps t hexec
  | remapDone port => exact execRemapDone_keeps port s_keeps t hexec
  | portSignalLost port => exact execPortSignalLost_keeps port s_keeps t hexec
  | nakReceive port seq => exact execNakReceive_keeps port seq s_keeps t hexec
  | retryTimeout port => exact execRetryTimeout_keeps port s_keeps t hexec
  | sealFlit port seq group count tagOk credit => exact execSealFlit_keeps port seq group count tagOk credit s_keeps t hexec
  | writeMessage c h payload => exact execWriteMessage_keeps c h payload s_keeps t hexec
  | collectiveMessage c h k data => exact execCollectiveMessage_keeps c h k data s_keeps t hexec
  | rowUniqueKeys c h r keys => exact execRowUniqueKeys_keeps c h r keys s_keeps t hexec
  | rowBagEntries c h r entries => exact execRowBagEntries_keeps c h r entries s_keeps t hexec
  | rowShardPartials c h r recs => exact execRowShardPartials_keeps c h r recs s_keeps t hexec
  | rowGradients c h r recs => exact execRowGradients_keeps c h r recs s_keeps t hexec
  | rowWinnerVectors c h r recs => exact execRowWinnerVectors_keeps c h r recs s_keeps t hexec
  | testMessage c h payload => exact execTestMessage_keeps c h payload s_keeps t hexec
  | bypassOpen f v => exact execBypassOpen_keeps f v s_keeps t hexec
  | deltaSend p rank sectors => exact execDeltaSend_keeps p rank sectors s_keeps t hexec
  | deltaEnd p rank step bytes => exact execDeltaEnd_keeps p rank step bytes s_keeps t hexec
  | deltaAck p rank step => exact execDeltaAck_keeps p rank step s_keeps t hexec
  | deltaLogApply p rank => exact execDeltaLogApply_keeps p rank s_keeps t hexec
  | failureNotice p positions bn => exact execFailureNotice_keeps p positions bn s_keeps t hexec
  | hostingDecision p => exact execHostingDecision_keeps p s_keeps t hexec
  | resume p r => exact execResume_keeps p r s_keeps t hexec
  | lateResumeReport p hepoch => exact execLateResumeReport_keeps p hepoch s_keeps t hexec
  | hostingStop p step digestsDiffer => exact execHostingStop_keeps p step digestsDiffer s_keeps t hexec
  | portStatusReport p pos port up => exact execPortStatusReport_keeps p pos port up s_keeps t hexec
  | restart p step originBn => exact execRestart_keeps p step originBn s_keeps t hexec
  | commitStateReport p pos r => exact execCommitStateReport_keeps p pos r s_keeps t hexec
  | hostClaim f p v => exact execHostClaim_keeps f p v s_keeps t hexec
  | commitReportSend p => exact execCommitReportSend_keeps p s_keeps t hexec
  | commitReportReceive p r => exact execCommitReportReceive_keeps p r s_keeps t hexec
  | rerunOrigin p => exact execRerunOrigin_keeps p s_keeps t hexec
  | commitBeat p => exact execCommitBeat_keeps p s_keeps t hexec
  | vfFlr k => exact execVfFlr_keeps k s_keeps t hexec
  | pfFlr => exact execPfFlr_keeps s_keeps t hexec
  | getChain stream => exact execGetChain_keeps stream s_keeps t hexec
  | kemKey stream ekey nonce => exact execKemKey_keeps stream ekey nonce s_keeps t hexec
  | keyGo stream k => exact execKeyGo_keeps stream k s_keeps t hexec
  | ideStop stream => exact execIdeStop_keeps stream s_keeps t hexec
  | getReport nonce => exact execGetReport_keeps nonce s_keeps t hexec
  | getNonce => exact execGetNonce_keeps s_keeps t hexec
  | setOwner c => exact execSetOwner_keeps c s_keeps t hexec
  | releaseOwner c => exact execReleaseOwner_keeps c s_keeps t hexec
  | deploy c => exact execDeploy_keeps c s_keeps t hexec
  | returnLc c => exact execReturnLc_keeps c s_keeps t hexec
  | scrap c => exact execScrap_keeps c s_keeps t hexec
  | bar2WindowAccess f off wr len => exact execBar2WindowAccess_keeps f off wr len s_keeps t hexec
  | dmaQring f q v => exact execDmaQring_keeps f q v s_keeps t hexec
  | dmaQarm f q v => exact execDmaQarm_keeps f q v s_keeps t hexec
  | dmaQabort f q => exact execDmaQabort_keeps f q s_keeps t hexec
  | abortComplete h => exact execAbortComplete_keeps h s_keeps t hexec
  | moverChainStart h => exact execMoverChainStart_keeps h s_keeps t hexec
  | descriptorStart h => exact execDescriptorStart_keeps h s_keeps t hexec
  | descriptorComplete h => exact execDescriptorComplete_keeps h s_keeps t hexec
  | hostCompletionError h => exact execHostCompletionError_keeps h s_keeps t hexec
  | dmaMcfgWrite f h v => exact execDmaMcfgWrite_keeps f h v s_keeps t hexec
  | sampleFrame port b => exact execSampleFrame_keeps port b s_keeps t hexec
  | endFrame port head body check => exact execEndFrame_keeps port head body check s_keeps t hexec
  | registerFrame x => exact execRegisterFrame_keeps x s_keeps t hexec
  | creditFrame port head body => exact execCreditFrame_keeps port head body s_keeps t hexec
  | kexFrame port head body check => exact execKexFrame_keeps port head body check s_keeps t hexec
  | creditSend p => exact execCreditSend_keeps p s_keeps t hexec
  | streamLinkChange port up phy => exact execStreamLinkChange_keeps port up phy s_keeps t hexec
  | stmCkptGo f p v => exact execStmCkptGo_keeps f p v s_keeps t hexec
  | ckptFrameSend p bytes => exact execCkptFrameSend_keeps p bytes s_keeps t hexec
  | coldBoot flash trained bistFail links => exact execColdBoot_keeps flash trained bistFail links s_keeps t hexec
  | fwUpdateGo f v => exact execFwUpdateGo_keeps f v s_keeps t hexec
  | fwUpdateDone check flashOk => exact execFwUpdateDone_keeps check flashOk s_keeps t hexec
  | recoveryGo f v check flashOk => exact execRecoveryGo_keeps f v check flashOk s_keeps t hexec
  | svnCommit f v => exact execSvnCommit_keeps f v s_keeps t hexec
  | entropyFailure => exact execEntropyFailure_keeps s_keeps t hexec
  | entropyFailureTimeout => exact execEntropyFailureTimeout_keeps s_keeps t hexec
  | prtGranWrite f k v => exact execPrtGranWrite_keeps f k v s_keeps t hexec
  | prtClustersWrite f p v => exact execPrtClustersWrite_keeps f p v s_keeps t hexec
  | prtQuotaWrite f p v => exact execPrtQuotaWrite_keeps f p v s_keeps t hexec
  | prtReset f p v => exact execPrtReset_keeps f p v s_keeps t hexec
  | prtFrzPop f p v => exact execPrtFrzPop_keeps f p v s_keeps t hexec
  | wipeComplete p => exact execWipeComplete_keeps p s_keeps t hexec
  | pwrTargetRun f v => exact execPwrTargetRun_keeps f v s_keeps t hexec
  | pwrTargetIdle f v => exact execPwrTargetIdle_keeps f v s_keeps t hexec
  | pwrTargetSleep f v => exact execPwrTargetSleep_keeps f v s_keeps t hexec
  | pwrTargetDeepSleep f v => exact execPwrTargetDeepSleep_keeps f v s_keeps t hexec
  | pwrTargetOff f v => exact execPwrTargetOff_keeps f v s_keeps t hexec
  | idleTimerExpiry => exact execIdleTimerExpiry_keeps s_keeps t hexec
  | domainWake => exact execDomainWake_keeps s_keeps t hexec
  | transitionComplete trained => exact execTransitionComplete_keeps trained s_keeps t hexec
  | deepSleepBnAdvance => exact execDeepSleepBnAdvance_keeps s_keeps t hexec
  | wakeNAssert => exact execWakeNAssert_keeps s_keeps t hexec
  | wakeTimerExpiry => exact execWakeTimerExpiry_keeps s_keeps t hexec
  | perstNAssert => exact execPerstNAssert_keeps s_keeps t hexec
  | perstNDeassert => exact execPerstNDeassert_keeps s_keeps t hexec
  | inputPowerLoss => exact execInputPowerLoss_keeps s_keeps t hexec
  | inputPowerRestored => exact execInputPowerRestored_keeps s_keeps t hexec
  | auxPowerApplied => exact execAuxPowerApplied_keeps s_keeps t hexec
  | inputStageOn => exact execInputStageOn_keeps s_keeps t hexec
  | auxPowerLoss => exact execAuxPowerLoss_keeps s_keeps t hexec
  | thermalTrip => exact execThermalTrip_keeps s_keeps t hexec
  | pwrRampWrite f v => exact execPwrRampWrite_keeps f v s_keeps t hexec
  | tstMbistGo f v => exact execTstMbistGo_keeps f v s_keeps t hexec
  | mbistDone fail => exact execMbistDone_keeps fail s_keeps t hexec
  | ashSegmentStart c seg => exact execAshSegmentStart_keeps c seg s_keeps t hexec
  | ashSegmentEnd c signatures => exact execAshSegmentEnd_keeps c signatures s_keeps t hexec
  | tstFtgGo f v => exact execTstFtgGo_keeps f v s_keeps t hexec
  | tstElogPop f v => exact execTstElogPop_keeps f v s_keeps t hexec
  | extest => exact execExtest_keeps s_keeps t hexec
  | clamp => exact execClamp_keeps s_keeps t hexec
  | highz => exact execHighz_keeps s_keeps t hexec
  | idcode => exact execIdcode_keeps s_keeps t hexec
  | jtagBar0Access off size wr => exact execJtagBar0Access_keeps off size wr s_keeps t hexec
  | flitDiscard port crcBad symErrs => exact execFlitDiscard_keeps port crcBad symErrs s_keeps t hexec
  | ackReceive port seq => exact execAckReceive_keeps port seq s_keeps t hexec
  | otherFrame x => exact execOtherFrame_keeps x s_keeps t hexec
  | indexUnitComplete p unit => exact execIndexUnitComplete_keeps p unit s_keeps t hexec
  | provision dik => exact execProvision_keeps dik s_keeps t hexec
  | tripCooldown temps => exact execTripCooldown_keeps temps s_keeps t hexec

/-! ## Steps -/

theorem step_of_pending {s : State} {c : Instr} {rest : List Instr} (h : s.pending = c :: rest) :
    step s = exec c { s with pending := rest } := by
  rw [step, h]

theorem step_of_idle {s : State} (h : s.pending = []) : step s = .next s.tick := by
  rw [step, h]

namespace State

theorem partitionDue_keeps {a s : State} (h : Keeps a s) : Keeps a s.partitionDue := by
  refine keeps_foldl h fun t g ht => ?_
  split
  · exact keeps_ite ht fun ht => partitionFault_keeps _ _ ht
  · exact ht

/-- But for its queue, what passes with no command waiting keeps what commands keep. -/
theorem tick_keeps (s : State) : ∃ u, Keeps s u ∧ ∃ q, s.tick = { u with pending := q } := by
  have due := partitionDue_keeps (Keeps.refl s)
  unfold tick
  split
  · exact ⟨s, Keeps.refl s, s.pending, rfl⟩
  · dsimp only
    split
    · split
      · exact ⟨_, due, _, rfl⟩
      · exact ⟨_, advance_keeps _ due, _, rfl⟩
    · exact ⟨_, due, _, rfl⟩

end State

/-- But for their queues, the states before and after a step are as a command's. -/
theorem step_keeps {s t : State} (h : step s = .next t) :
    ∃ q u q', Keeps { s with pending := q } u ∧ t = { u with pending := q' } := by
  cases hq : s.pending with
  | nil =>
    rw [step_of_idle hq, Host.Outcome.next.injEq] at h
    obtain ⟨u, hu, q', hq'⟩ := s.tick_keeps
    exact ⟨s.pending, u, q', hu, h.symm.trans hq'⟩
  | cons c rest =>
    rw [step_of_pending hq] at h
    exact ⟨rest, t, t.pending, exec_keeps h, rfl⟩

end Sys2Proof.Machine
end

section
/-! The block as a whole: every command answers and leaves the queue alone, and every step keeps the canonical form and the
fuses. -/

namespace Sys2Proof

open Machine

/-- Settles O3: no meaning is a fault or a refusal, and the law of each says that it leaves the queue. -/
theorem everyCommandAnswersAndKeepsQueue : Obligations.EveryCommandAnswersAndKeepsQueue := by
  unfold Obligations.EveryCommandAnswersAndKeepsQueue
  intro c s
  obtain ⟨t, ht⟩ := exec_isNext c s
  exact ⟨t, ht, (exec_keeps ht).queue⟩

/-- Settles O4: the queue, in which a step alone differs from a command, has no canonical form. -/
theorem stepKeepsCanonical : Obligations.StepKeepsCanonical := by
  unfold Obligations.StepKeepsCanonical
  intro s t hs hstep
  obtain ⟨q, u, q', hu, rfl⟩ := step_keeps hstep
  exact hu.canon hs

/-- Settles O5: the queue, in which a step alone differs from a command, holds no fuse. -/
theorem stepKeepsFuses : Obligations.StepKeepsFuses := by
  unfold Obligations.StepKeepsFuses
  intro s t hstep
  obtain ⟨q, u, q', hu, rfl⟩ := step_keeps hstep
  exact hu.fuses

end Sys2Proof
end

section
/-! What one step does: the front command, or with none waiting the passing of a cycle (assumption 9). -/

namespace Sys2Proof.Machine

/-- What holds of the unlisted value and of every entry holds of what a map gives. -/
theorem mget_induction {α : Type} {P : α → Prop} {d : α} {m : List (Nat × α)} (hd : P d) (hm : ∀ x ∈ m, P x.2) (k : Nat) :
    P (mget d m k) := by
  induction m with
  | nil => exact hd
  | cons c m ih =>
    obtain ⟨hc, hm⟩ := List.forall_mem_cons.mp hm
    rw [mget]
    split
    · exact hc
    · exact ih hm

namespace State

variable {s : State}

/-- Without a refused chain no tile takes a plan fault. -/
theorem partitionDue_eq_self (h : ∀ t ∈ s.tiles, t.2.partAt = none) : s.partitionDue = s := by
  have none_at (g : Nat) : (s.tile g).partAt = none := mget_induction (P := fun t : Tile => t.partAt = none) rfl h g
  unfold partitionDue
  induction s.tiles.map (·.1) with
  | nil => rfl
  | cons g l ih => rwa [List.foldl_cons, none_at g]

variable (h : ∀ t ∈ s.tiles, t.2.partAt = none)
include h

theorem tick_of_due (hclock : s.clocked = true) (hdue : s.dueNow ≠ []) : s.tick = { s with pending := s.dueNow } := by
  rw [tick, partitionDue_eq_self h, hclock]
  simp only [Bool.not_true, Bool.false_eq_true, if_false]

/-- With nothing due a cycle passes, or the beat edge comes. -/
theorem tick_of_not_due (hclock : s.clocked = true) (hdue : s.dueNow = []) :
    s.tick = if s.beatStart + s.beatLength ≤ s.now + 1 then { s with pending := s.edgeDue } else s.advance (s.now + 1) := by
  rw [tick, partitionDue_eq_self h, hclock]
  simp only [Bool.not_true, Bool.false_eq_true, if_false, hdue]

omit h

theorem tick_of_not_clocked (hclock : s.clocked = false) : s.tick = s := by
  rw [tick, hclock]
  rfl

theorem le_now_advance (s : State) (c : Nat) : c ≤ (s.advance c).now := Nat.le_max_right _ _

/-- With nothing in flight time alone advances. -/
theorem advance_of_pendCount_zero (hnone : s.pendCount = 0) (c : Nat) : s.advance c = { s with now := max s.now c } := by
  rw [advance, hnone]
  rfl

theorem head_edgeDue (s : State) : s.edgeDue.head? = some .beat := by
  simp [edgeDue]

end State
end Sys2Proof.Machine

namespace Sys2Proof

open Machine

/-- Settles O1. -/
theorem stepRunsFrontCommand : Obligations.StepRunsFrontCommand := by
  unfold Obligations.StepRunsFrontCommand
  intro s c rest h
  exact step_of_pending h

/-- Settles O2: with no refused chain to fault, an idle step is one of the four arms of `tick`. -/
theorem idleStepPassesOneCycle : Obligations.IdleStepPassesOneCycle := by
  unfold Obligations.IdleStepPassesOneCycle
  intro s hidle hparts
  rw [step_of_idle hidle]
  refine ⟨?stands, ?due, ?cycle, ?edge⟩
  case stands =>
    intro hclock
    rw [State.tick_of_not_clocked hclock]
  case due =>
    intro hclock hdue
    rw [State.tick_of_due hparts hclock hdue]
  case cycle =>
    intro hclock hdue hbefore
    rw [State.tick_of_not_due hparts hclock hdue, if_neg hbefore.not_ge]
    refine ⟨_, rfl, s.le_now_advance _, fun hnone => ?_⟩
    rw [State.advance_of_pendCount_zero hnone, Nat.max_eq_right (Nat.le_succ _)]
  case edge =>
    intro hclock hdue hedge
    rw [State.tick_of_not_due hparts hclock hdue, if_pos hedge]
    exact ⟨rfl, s.head_edgeDue⟩

end Sys2Proof
end

section
/-! What reset leaves: register values that follow from the reset values of the fields, and canonical maps (R13, R414). -/

namespace Sys2Proof

open Machine

/-- After reset only `SEC_STATE`, whose counter starts at one, differs from the reset values of its fields. -/
theorem Machine.State.word_reset {o : Nat} (h : o ≠ 0x20_0000) : State.reset.word o = regReset o := by
  rw [State.word, State.reset, mget, if_neg h.symm, mget]

/-- The owners of the granules start at 0: partition 0 (R414). -/
theorem regReset_PRT_GRAN : ∀ i, i < 132 → regReset (F.PRT_GRAN_OWNERS.off i) = 0 := by
  decide +kernel

theorem off_PRT_GRAN_ne_SEC_STATE (i : Nat) : F.PRT_GRAN_OWNERS.off i ≠ 0x20_0000 := by
  simp only [Fld.off, F.PRT_GRAN_OWNERS]
  omega

theorem reset_PRT_CLUSTERS : ∀ p, 1 ≤ p → p < 8 → State.reset.getF F.PRT_CLUSTERS_MASK p = 0 := by
  intro p h1 h8
  interval_cases p <;> decide +kernel

theorem reset_PRT_QUOTA : ∀ p, 1 ≤ p → p < 8 → State.reset.getF F.PRT_QUOTA_HBM_Q p = 0 := by
  intro p h1 h8
  interval_cases p <;> decide +kernel

theorem reset_PLN_CTRL : ∀ p, p < 8 → State.reset.running p = false ∧ State.reset.getF F.PLN_CTRL_BAL_THRESH p = 8 := by
  intro p h8
  interval_cases p <;> decide +kernel

theorem resetRegisters : Claims.ResetRegisters := by
  unfold Claims.ResetRegisters
  have grans : ∀ i, i < 132 → State.reset.word (F.PRT_GRAN_OWNERS.off i) = 0 := fun i h => by
    rw [State.word_reset (off_PRT_GRAN_ne_SEC_STATE i), regReset_PRT_GRAN i h]
  refine ⟨?_, ?_, ?_, ?_, reset_PRT_CLUSTERS, ?_, ?_, reset_PRT_QUOTA, grans, reset_PLN_CTRL, rfl⟩
  all_goals decide +kernel

/-- Every map but that of the registers is empty, and the one register listed is not at its reset value. -/
theorem resetIsCanonical : Claims.ResetIsCanonical := by
  unfold Claims.ResetIsCanonical
  have listed : (0x100 : Word) ≠ regReset 0x20_0000 := by decide +kernel
  have regs : regsWf State.reset.regs = true := by
    rw [State.reset, regsWf, decide_eq_true listed]
    rfl
  rw [State.canonical, regs]
  rfl

/-- Settles O6: reset's registers and its maps. -/
theorem resetState : Obligations.ResetState := ⟨resetRegisters, resetIsCanonical⟩

end Sys2Proof
end

section
/-! SUPPORT. Numbers read from little-endian bytes, and what an accepted stream frame's command does. -/

namespace Sys2Proof.Machine

/-! ## Numbers read from bytes (R8) -/

theorem drop_leBytes (o n v : Nat) : (leBytes (o + n) v).drop o = leBytes n (v / 256 ^ o) := by
  induction o generalizing v with
  | zero => simp
  | succ o ih => rw [Nat.add_right_comm, leBytes, List.drop_succ_cons, ih, Nat.div_div_eq_div_mul, Nat.pow_succ']

theorem take_leBytes (k n v : Nat) : (leBytes (k + n) v).take k = leBytes k v := by
  induction k generalizing v with
  | zero => simp [leBytes]
  | succ k ih => rw [Nat.add_right_comm, leBytes, List.take_succ_cons, ih, leBytes]

/-- Bytes of a number read the digits they are. -/
theorem le_leBytes {o k n : Nat} (v : Nat) (b : List Byte) (h : o + k ≤ n) :
    le (leBytes n v ++ b) o k = v / 256 ^ o % 256 ^ k := by
  obtain ⟨m, rfl⟩ := Nat.exists_eq_add_of_le h
  rw [le, List.drop_append_of_le_length (by simp; omega), Nat.add_assoc, drop_leBytes,
    List.take_append_of_le_length (by simp), take_leBytes, leNat_leBytes]

/-- A whole number reads as it was, cut to its bytes. -/
theorem le_leBytes_self (n v : Nat) (b : List Byte) : le (leBytes n v ++ b) 0 n = v % 256 ^ n := by
  rw [le_leBytes v b (by omega), Nat.pow_zero, Nat.div_one]

/-- What lies behind a number does not depend on it. -/
theorem le_leBytes_append {n o : Nat} (k v : Nat) (b : List Byte) (h : n ≤ o) : le (leBytes n v ++ b) o k = le b (o - n) k := by
  rw [le, le, List.drop_append, List.drop_eq_nil_of_le (by simpa using h), leBytes_length, List.nil_append]

/-- The last number of a string. -/
theorem le_leBytes_last {o k n : Nat} (v : Nat) (h : o + k ≤ n) : le (leBytes n v) o k = v / 256 ^ o % 256 ^ k := by
  rw [← List.append_nil (leBytes n v), le_leBytes v [] h]

/-! ## Frames of the stream port (R372 to R376) -/

namespace State

/-- The command of a frame that is heard acts on its header and payload. -/
theorem frameIn_of_heard {s : State} {k type : Nat} {b : List Byte} {h : StreamHdr} {d : List Byte} (heard : Heard s k b h d type)
    (act : State → StreamHdr → List Byte → State) : s.frameIn k b type act = act (s.hear k b).1 h d := by
  obtain ⟨hup, hheard, htype, hpart⟩ := heard
  have hhear : s.hear k b = ((s.hear k b).1, some (h, d)) := Prod.ext rfl hheard
  rw [frameIn, hup, hhear]
  simp only [Bool.not_true, Bool.false_eq_true, if_false, htype, ne_eq, not_true_eq_false]
  rw [if_neg (by omega)]

/-- A feeder that registers for a rank is one of its feeders. -/
theorem mem_feeders_register (s : State) (p rank mac : Nat) : ⟨rank, mac⟩ ∈ ((s.register p rank mac).part p).feeders := by
  rw [register, modPart_eq, part_setPart]
  dsimp only
  split
  · next hany =>
    obtain ⟨f, hf, hmac⟩ := List.any_eq_true.mp hany
    obtain ⟨hmem, hrank⟩ := List.mem_filter.mp hf
    obtain ⟨r, m⟩ := f
    simp only [decide_eq_true_eq] at hrank hmac
    rwa [hrank, hmac] at hmem
  · simp

end State
end Sys2Proof.Machine
end

section
/-! What is built as bytes is read back (R214, R232 to R234, R245, R373 to R375). -/

namespace Sys2Proof

open Machine

/-- The reserved bytes of a frame are built as 0, and an operand address of 48 bits leaves its upper two bytes 0. -/
theorem ochreFramesReadBack : Claims.OchreFramesReadBack := by
  unfold Claims.OchreFramesReadBack
  intro f hopc hpart htable htag hopa hopb hcount htoken hstep hrsvd
  refine ⟨by simp [State.frameBytes], ?_⟩
  obtain ⟨opc, part, table, tag, opa, opb, count, token, step, rsvd⟩ := f
  dsimp only at *
  subst hrsvd
  simp only [State.readFrame, State.frameBytes, List.append_assoc, le_leBytes_append, le_leBytes_last, le_leBytes,
    Nat.reduceLeDiff, Nat.reduceSub, Nat.reduceAdd, Nat.reducePow, Nat.zero_div, Nat.zero_mod]
  simp only [Frame.mk.injEq, decide_true, Bool.and_eq_true, decide_eq_true_eq, Bool.and_true]
  omega

/-- The five fields of a flit's head lie side by side in 32 bits. -/
theorem flitHead_fields {f : Flit} (htype : f.type < 8) (hvc : f.vc < 8) (hseq : f.seq < 4096) (hack : f.ack < 4096)
    (hak : f.ak < 4) :
    flitHead f < 2 ^ 32 ∧ natBits (flitHead f) 31 29 = f.type ∧ natBits (flitHead f) 28 26 = f.vc ∧
      natBits (flitHead f) 25 14 = f.seq ∧ natBits (flitHead f) 13 2 = f.ack ∧ natBits (flitHead f) 1 0 = f.ak := by
  simp only [flitHead, natBits, Nat.shiftRight_eq_div_pow]
  omega

theorem fillBody_of_full {b : List Byte} (h : b.length = 248) : fillBody b = b := by
  simp [fillBody, h, List.take_of_length_le (Nat.le_of_eq h)]

/-- A flit's bytes are its head, its body and the CRC of both. -/
theorem readFlit_flitBytes {f : Flit} (htype : f.type < 8) (hvc : f.vc < 8) (hseq : f.seq < 4096) (hack : f.ack < 4096)
    (hak : f.ak < 4) (hbody : f.body.length = 248) : (flitBytes f).length = 256 ∧ readFlit (flitBytes f) = some f := by
  have hlen : (flitBytes f).length = 256 := by simp [flitBytes, fillBody_of_full hbody, hbody]
  obtain ⟨hhead, hfields⟩ := flitHead_fields htype hvc hseq hack hak
  have hw : leNat ((flitBytes f).take 4) = flitHead f := by
    change le (flitBytes f) 0 4 = _
    rw [flitBytes, List.append_assoc, le_leBytes_self]
    exact Nat.mod_eq_of_lt hhead
  have hcovered : (leBytes 4 (flitHead f) ++ f.body).length = 252 := by simp [hbody]
  have htake : (flitBytes f).take 252 = leBytes 4 (flitHead f) ++ f.body := by
    rw [flitBytes, fillBody_of_full hbody]
    exact List.take_left' hcovered
  have hdrop : (flitBytes f).drop 252 = leBytes 4 (crc32c (leBytes 4 (flitHead f) ++ f.body)).toNat := by
    rw [flitBytes, fillBody_of_full hbody]
    exact List.drop_left' hcovered
  have hbytes : ((flitBytes f).drop 4).take 248 = f.body := by
    rw [flitBytes, fillBody_of_full hbody, List.append_assoc, List.drop_left' (leBytes_length 4 _), List.take_left' hbody]
  refine ⟨hlen, ?_⟩
  unfold readFlit
  dsimp only
  rw [if_neg (by rw [hlen, htake, hdrop]; simp), hw, hbytes]
  obtain ⟨h1, h2, h3, h4, h5⟩ := hfields
  rw [h1, h2, h3, h4, h5]

theorem readHdr_hdrBytes {h : MsgHdr} {n : Nat} (hdest : h.dest < 2 ^ 17) (hsrc : h.src < 2 ^ 17) (hkind : h.kind < 256)
    (hpart : h.part < 256) (hattempt : h.attempt < 256) (hstep : h.step < 2 ^ 64) (haddr : h.addr < 2 ^ 48)
    (htoken : h.token < 2 ^ 64) (htask : h.task < 2 ^ 24) (hn : n < 2 ^ 32) : readHdr (hdrBytes h n) = (h, n) := by
  have reads : ∀ o k, leNat (((hdrBytes h n).drop o).take k) = le (hdrBytes h n) o k := fun _ _ => rfl
  obtain ⟨dest, src, kind, part, attempt, next, step, addr, token, task⟩ := h
  unfold readHdr
  simp only [reads]
  dsimp only at *
  simp only [hdrBytes, List.append_assoc, le_leBytes_append, le_leBytes, Nat.reduceLeDiff, Nat.reduceSub, Nat.reduceAdd,
    Nat.reducePow, Prod.mk.injEq, MsgHdr.mk.injEq]
  cases next <;> simp <;> omega

theorem flitsReadBack : Claims.FlitsReadBack := by
  unfold Claims.FlitsReadBack
  constructor
  · intro f htype hvc hseq hack hak hbody
    exact readFlit_flitBytes htype hvc hseq hack hak hbody
  · intro h n hdest hsrc hkind hpart hattempt hstep haddr htoken htask hn
    exact ⟨by simp [hdrBytes], readHdr_hdrBytes hdest hsrc hkind hpart hattempt hstep haddr htoken htask hn⟩

/-- The laws of `hear` say what a port makes of a protected frame and of one in clear. -/
theorem streamFramesReadBack : Claims.StreamFramesReadBack := by
  unfold Claims.StreamFramesReadBack
  intro s h d hup hmac htype hpart hrank hstep hseq
  constructor
  · intro key an last pn hassoc hkey han hpn hfull h7 hd b
    have hhear := s.hear_protect h.port an pn last key h d hassoc hkey hpn hfull han hmac rfl htype h7 (by omega) hrank hstep
      hseq hd
    have heard : Heard s h.port b h d h.type := ⟨hup, by rw [hhear], rfl, .inl (by omega)⟩
    refine ⟨heard, by rw [hhear], fun h4 => ⟨_, rfl, ?_⟩⟩
    rw [h4] at heard
    rw [State.frameIn_of_heard heard]
    exact State.mem_feeders_register _ _ _ _
  · intro h7 hd b
    have hhear := s.hear_clear h d hmac h7 (by omega) hrank hstep hseq hd
    exact ⟨⟨hup, by rw [hhear], h7, .inr rfl⟩, by rw [hhear]⟩

/-- Settles O55. -/
theorem bytesReadBack : Obligations.BytesReadBack := ⟨ochreFramesReadBack, flitsReadBack, streamFramesReadBack⟩

end Sys2Proof
end

section
/-! SUPPORT. Changes of one partition's record alone, and what opening a task leaves. -/

namespace Sys2Proof.Machine

/-- From `s` to `t` only the record of partition `p` differs. -/
structure PartOnly (p : Nat) (s t : State) : Prop where
  frame : t = { s with parts := t.parts }
  other : ∀ q, q ≠ p → t.part q = s.part q

namespace PartOnly

variable {p : Nat} {s t u : State}

theorem refl (p : Nat) (s : State) : PartOnly p s s := ⟨rfl, fun _ _ => rfl⟩

theorem trans (hst : PartOnly p s t) (htu : PartOnly p t u) : PartOnly p s u where
  frame := calc
    u = { t with parts := u.parts } := htu.frame
    _ = { s with parts := u.parts } := by rw [hst.frame]
  other := fun q hq => (htu.other q hq).trans (hst.other q hq)

theorem setPart (s : State) (p : Nat) (x : Part) : PartOnly p s (s.setPart p x) :=
  ⟨rfl, fun _ hq => s.part_setPart_ne x hq⟩

theorem modPart (s : State) (p : Nat) (f : Part → Part) : PartOnly p s (s.modPart p f) := .setPart s p _

theorem word (h : PartOnly p s t) (o : Nat) : t.word o = s.word o := by rw [h.frame]; rfl

theorem getF (h : PartOnly p s t) (f : Fld) (i : Nat) : t.getF f i = s.getF f i := by rw [State.getF, h.word, State.getF]

theorem flag (h : PartOnly p s t) (f : Fld) (i : Nat) : t.flag f i = s.flag f i := by rw [State.flag, h.getF, State.flag]

theorem tile (h : PartOnly p s t) (g : Nat) : t.tile g = s.tile g := by rw [h.frame]; rfl

theorem mover (h : PartOnly p s t) (g : Nat) : t.mover g = s.mover g := by rw [h.frame]; rfl

theorem cmover (h : PartOnly p s t) (g : Nat) : t.cmover g = s.cmover g := by rw [h.frame]; rfl

end PartOnly

namespace State

variable (s : State) (p task : Nat)

@[simp] theorem part_modPart (f : Part → Part) : (s.modPart p f).part p = f (s.part p) := s.part_setPart p _

theorem openTask_partOnly : PartOnly p s (s.openTask p task) := by
  have started : PartOnly p s (s.markStarted p [task]) := .modPart s p _
  unfold openTask
  dsimp only
  split
  · exact .refl p s
  · split
    · split
      · exact started
      · exact started.trans (.modPart _ p _)
    · exact started

theorem started_markStarted : ((s.markStarted p [task]).part p).started.contains task = true := by
  rw [markStarted, part_modPart]
  by_cases h : task ∈ (s.part p).started
  · simp [h]
  · simp [h]

/-- A task that is not done is started once its window opens. -/
theorem started_openTask (h : (s.part p).done.contains task = false) :
    ((s.openTask p task).part p).started.contains task = true := by
  unfold openTask
  simp only [h, Bool.false_eq_true, if_false]
  split
  · split
    · exact s.started_markStarted p task
    · rw [part_modPart]
      exact s.started_markStarted p task
  · exact s.started_markStarted p task

end State

/-- The chain of a host-move task. -/
def hostMoveChain (p task chain : Nat) : Chain :=
  { queue := none, part := p, task := task, addr := BitVec.ofNat 64 chain, desc := none, written := 0, abort := false }

/-- The chain of a cluster-move task. -/
def clusterMoveChain (p task chain : Nat) : CChain :=
  { tile := none, token := 0, part := p, task := task, addr := chain, desc := none, since := none }

end Sys2Proof.Machine
end

section
/-! Cluster-move and host-move tasks submit their chains (R482). -/

namespace Sys2Proof

open Machine

/-- Settles O17: the task's window opens, which changes its partition alone, and its chain is put on the channel or the
mover. -/
theorem moveTasksStart : Obligations.MoveTasksStart := by
  unfold Obligations.MoveTasksStart
  constructor
  · intro s p task chain c q hq hc hmoves hkind hstarted hdone hfrozen
    have hopen := s.openTask_partOnly p task
    refine ⟨(s.openTask p task).modCmover c fun m => { m with chains := m.chains ++ [clusterMoveChain p task chain] },
      ?_, ?_, ?_, s.started_openTask p task hdone, ?_, fun r hr => hopen.other r hr⟩
    · change execClusterMove p task chain s = _
      simp only [execClusterMove, hq, ← hc, hmoves, hkind, hstarted, hopen.cmover, hfrozen, Bool.not_true, not_true_eq_false,
        Bool.false_eq_true, or_self, if_false]
      rfl
    · rw [State.modCmover, State.cmover_setCmover, hopen.cmover]
      rfl
    · intro d hd
      rw [State.modCmover, State.cmover_setCmover_ne _ _ hd, hopen.cmover]
    · rw [hopen.frame]
      rfl
  · intro s p task chain h q hq hh hmoves hkind hstarted hdone hfrozen hchain
    have hopen := s.openTask_partOnly p task
    refine ⟨((s.openTask p task).modMover h fun m => { m with chain := some (hostMoveChain p task chain) }).putF
      F.DMA_MSTAT_STATE h 1, ?_, ?_, ?_, ?_, s.started_openTask p task hdone, ?_, ?_⟩
    · change execHostMove p task chain s = _
      simp only [execHostMove, hq, hh, hmoves, hkind, hstarted, hopen.mover, hfrozen, hchain, Bool.not_true,
        not_true_eq_false, Option.isSome_none, Bool.false_eq_true, or_self, if_false]
      rfl
    · rw [State.getF_putF _ _ _ _ (by decide) (by decide)]
      rfl
    · rw [State.mover_putF, State.modMover, State.mover_setMover]
      rfl
    · intro i hi
      rw [State.mover_putF, State.modMover, State.mover_setMover_ne _ _ hi, hopen.mover]
    · rw [hopen.frame]
      rfl
    · intro o ho
      rw [State.word_putF_ne _ _ _ _ ho, State.modMover, State.word_setMover, hopen.word]

end Sys2Proof
end

section
/-! SUPPORT. The issue of a word that meets no fault: what it leaves of the state, and of its tile (R56 to R64). -/

namespace Sys2Proof.Machine

/-! ## Changes of one tile and of the time -/

/-- From `s` to `t` only tile `g` and the time differ, which is `n`. -/
structure TileStep (s : State) (g n : Nat) (t : State) : Prop where
  frame : t = { s with tiles := t.tiles, now := n }
  other : ∀ h, h ≠ g → t.tile h = s.tile h

namespace TileStep

variable {s t : State} {g n : Nat}

theorem refl (s : State) (g : Nat) : TileStep s g s.now s := ⟨rfl, fun _ _ => rfl⟩

theorem modTile (h : TileStep s g n t) (f : Tile → Tile) : TileStep s g n (t.modTile g f) where
  frame := by
    rw [State.modTile, State.setTile]
    exact congrArg (fun x : State => { x with tiles := mput Tile.reset t.tiles g (f (t.tile g)) }) h.frame
  other := fun k hk => (t.tile_setTile_ne _ hk).trans (h.other k hk)

theorem setTile (h : TileStep s g n t) (x : Tile) : TileStep s g n (t.setTile g x) := h.modTile fun _ => x

variable (h : TileStep s g n t)
include h

theorem now : t.now = n := by rw [h.frame]

theorem regs : t.regs = s.regs := by rw [h.frame]

theorem parts : t.parts = s.parts := by rw [h.frame]

theorem mem : t.mem = s.mem := by rw [h.frame]

theorem host : t.host = s.host := by rw [h.frame]

theorem test : t.test = s.test := by rw [h.frame]

theorem beatStart : t.beatStart = s.beatStart := by rw [h.frame]

theorem word (o : Nat) : t.word o = s.word o := by rw [State.word, h.regs, State.word]

theorem getF (f : Fld) (i : Nat) : t.getF f i = s.getF f i := by rw [State.getF, h.word, State.getF]

theorem bn : t.bn = s.bn := h.getF _ _

theorem part (p : Nat) : t.part p = s.part p := by rw [State.part, h.parts, State.part]

theorem rd8 : t.rd8 = s.rd8 := by
  funext a
  rw [State.rd8, h.mem, State.rd8]

theorem rd (a n : Nat) : t.rd a n = s.rd a n := by
  induction n generalizing a with
  | zero => rfl
  | succ n ih => rw [State.rd, State.rd, ih, h.rd8]

theorem rdN (a n : Nat) : t.rdN a n = s.rdN a n := by rw [State.rdN, h.rd, State.rdN]

theorem hasCluster (p c : Nat) : t.hasCluster p c = s.hasCluster p c := by rw [State.hasCluster, h.getF, State.hasCluster]

theorem tilePart (k : Nat) : t.tilePart k = s.tilePart k := by
  simp only [State.tilePart, State.clusterPart, h.hasCluster]

theorem checkerOn (p : Nat) : t.checkerOn p = s.checkerOn p := by rw [State.checkerOn, h.part, State.checkerOn]

/-- With the checker off no word is a hazard. -/
theorem isHazard (hoff : s.checkerOn (s.tilePart g) = false) (w : Word) (r : State.Reads) : t.isHazard g w r = false := by
  rw [State.isHazard, h.tilePart, h.checkerOn, hoff, Bool.false_and]

theorem noteHazard (hoff : s.checkerOn (s.tilePart g) = false) (w : Word) (r : State.Reads) : t.noteHazard g w r = t := by
  rw [State.noteHazard, h.isHazard hoff]
  rfl

theorem hazardFault (hoff : s.checkerOn (s.tilePart g) = false) (w : Word) (r : State.Reads) : t.hazardFault g w r = none := by
  rw [State.hazardFault, h.isHazard hoff]
  rfl

theorem istoreWord (k i : Nat) : t.istoreWord k i = s.istoreWord k i := by rw [State.istoreWord, h.rdN, State.istoreWord]

theorem bundleEnd (k m i : Nat) : t.bundleEnd k m i = s.bundleEnd k m i := by
  induction m generalizing i with
  | zero => rfl
  | succ m ih => rw [State.bundleEnd, State.bundleEnd, h.istoreWord, ih]

end TileStep

/-! ## The open bundle -/

/-- A tile with a bundle open from cycle `n`: as it stands if one is open. -/
def openTile (t : Tile) (n : Nat) : Tile :=
  if t.lastSlot.isSome then t
  else { t with
    bundlePc := t.pc, bundleAt := n, bundleSeq := t.seq, units0 := t.units, fault := none, owed := [], jump := none,
    wait := none, nextIssue := n + 1 }

section
variable (t : Tile) (n : Nat)

@[simp] theorem openTile_sregs : (openTile t n).sregs = t.sregs := by unfold openTile; split <;> rfl
@[simp] theorem openTile_dregs : (openTile t n).dregs = t.dregs := by unfold openTile; split <;> rfl
@[simp] theorem openTile_preds : (openTile t n).preds = t.preds := by unfold openTile; split <;> rfl
@[simp] theorem openTile_toks : (openTile t n).toks = t.toks := by unfold openTile; split <;> rfl
@[simp] theorem openTile_banks : (openTile t n).banks = t.banks := by unfold openTile; split <;> rfl
@[simp] theorem openTile_pc : (openTile t n).pc = t.pc := by unfold openTile; split <;> rfl
@[simp] theorem openTile_lastSlot : (openTile t n).lastSlot = t.lastSlot := by unfold openTile; split <;> rfl
@[simp] theorem openTile_loops : (openTile t n).loops = t.loops := by unfold openTile; split <;> rfl
@[simp] theorem openTile_seq : (openTile t n).seq = t.seq := by unfold openTile; split <;> rfl
@[simp] theorem openTile_pend : (openTile t n).pend = t.pend := by unfold openTile; split <;> rfl
@[simp] theorem openTile_arrives : (openTile t n).arrives = t.arrives := by unfold openTile; split <;> rfl
@[simp] theorem openTile_units : (openTile t n).units = t.units := by unfold openTile; split <;> rfl
@[simp] theorem openTile_chains : (openTile t n).chains = t.chains := by unfold openTile; split <;> rfl
@[simp] theorem openTile_carry : (openTile t n).carry = t.carry := by unfold openTile; split <;> rfl
@[simp] theorem openTile_shadowOn : (openTile t n).shadowOn = t.shadowOn := by unfold openTile; split <;> rfl
@[simp] theorem openTile_shadowS : (openTile t n).shadowS = t.shadowS := by unfold openTile; split <;> rfl
@[simp] theorem openTile_shadowD : (openTile t n).shadowD = t.shadowD := by unfold openTile; split <;> rfl
@[simp] theorem openTile_share : (openTile t n).share = t.share := by unfold openTile; split <;> rfl

@[simp] theorem openTile_s (r : Nat) : (openTile t n).s r = t.s r := by simp [Tile.s]
@[simp] theorem openTile_d (r : Nat) : (openTile t n).d r = t.d r := by simp [Tile.d]
@[simp] theorem openTile_p (r : Nat) : (openTile t n).p r = t.p r := by simp [Tile.p]
@[simp] theorem openTile_sh (r : Nat) : (openTile t n).sh r = t.sh r := by simp [Tile.sh]
@[simp] theorem openTile_dh (r : Nat) : (openTile t n).dh r = t.dh r := by simp [Tile.dh]
@[simp] theorem openTile_tok (k : Nat) : (openTile t n).tok k = t.tok k := by simp [Tile.tok]
@[simp] theorem openTile_bank (b : Nat) : (openTile t n).bank b = t.bank b := by simp [Tile.bank]
@[simp] theorem openTile_opB (w : Word) : (openTile t n).opB w = t.opB w := by simp [Tile.opB]
@[simp] theorem openTile_opBsh (w : Word) : (openTile t n).opBsh w = t.opBsh w := by simp [Tile.opBsh]
@[simp] theorem openTile_ea (w : Word) : (openTile t n).ea w = t.ea w := by simp [Tile.ea]
@[simp] theorem openTile_eaSh (w : Word) : (openTile t n).eaSh w = t.eaSh w := by simp [Tile.eaSh]
@[simp] theorem guardOk_openTile (w : Word) : guardOk (openTile t n) w = guardOk t w := by simp [guardOk]

end

/-! ## The word after its effect -/

/-- The tile past a word of the bundle. -/
def bumpTile (w : Word) (t : Tile) : Tile := { t with pc := t.pc + 1, lastSlot := some (wSlot w), seq := t.seq + 1 }

/-- Where the flow goes after the bundle: its branch, or on by the loops that end here (R74). -/
def flowAfter (t : Tile) : Nat × List Loop :=
  match t.jump with
  | some j => (j, t.loops)
  | none => State.backEdge t.bundlePc t.pc t.loops

/-- The tile after its bundle, the counts of which are settled. -/
def closeTile (t : Tile) : Tile :=
  { t with pc := (flowAfter t).1, loops := (flowAfter t).2, lastSlot := none, jump := none, owed := [] }

/-- The tile after a word. -/
def wordTile (w : Word) (t : Tile) : Tile := if wE w then closeTile (bumpTile w t) else bumpTile w t

theorem closeTile_pc_of_no_loops {t : Tile} (hjump : t.jump = none) (hloops : t.loops = []) : (closeTile t).pc = t.pc := by
  simp only [closeTile, flowAfter, hjump, hloops, State.backEdge]

namespace State

variable {s : State} {g n : Nat} {w : Word}

/-- With nothing due by a cycle time alone advances to it. -/
theorem advance_of_not_due {c : Nat} (h : s.nextDue c = none) : s.advance c = { s with now := max s.now c } := by
  have none_settles : ∀ k, settle k c s = s := by
    intro k
    cases k with
    | zero => rfl
    | succ k => rw [settle, h]
  rw [advance, none_settles]

/-- A word that issues in cycle `n` finds its bundle open in that cycle. -/
theorem openBundle_of_issues (h : Issues s g w n) :
    TileStep s g n (s.openBundle g) ∧ (s.openBundle g).tile g = openTile (s.tile g) n := by
  obtain ⟨-, -, -, -, hopen | hlater⟩ := h
  · obtain ⟨hlast, hdue, rfl, hpart⟩ := hopen
    unfold openBundle
    rw [hlast, advance_of_not_due hdue]
    have htile : ({ s with now := max s.now (s.tile g).nextIssue } : State).tile g = s.tile g := rfl
    simp only [htile, hpart, Option.isSome_none, Bool.false_eq_true, if_false]
    have moved : TileStep s g (max s.now (s.tile g).nextIssue) { s with now := max s.now (s.tile g).nextIssue } :=
      ⟨rfl, fun _ _ => rfl⟩
    refine ⟨moved.modTile _, ?_⟩
    rw [modTile_eq, tile_setTile, htile, openTile, hlast]
    rfl
  · obtain ⟨hlast, -, -, rfl, -⟩ := hlater
    obtain ⟨l, hl⟩ : ∃ l, (s.tile g).lastSlot = some l := by
      cases hs : (s.tile g).lastSlot with
      | none => rw [hs] at hlast; cases hlast
      | some l => exact ⟨l, rfl⟩
    have hsome : (s.tile g).lastSlot.isSome = true := by rw [hl]; rfl
    rw [openBundle, if_pos hsome, openTile, if_pos hsome]
    exact ⟨TileStep.refl s g, rfl⟩

/-- In the open bundle of a word that issues there is no fault, no branch, and before the last word nothing owed. -/
theorem openTile_of_issues (h : Issues s g w n) :
    (openTile (s.tile g) n).fault = none ∧ (openTile (s.tile g) n).jump = none ∧
      (wE w = true → (openTile (s.tile g) n).owed = []) := by
  obtain ⟨-, -, -, -, hopen | hlater⟩ := h
  · obtain ⟨hlast, -, -, -⟩ := hopen
    rw [openTile, hlast]
    exact ⟨rfl, rfl, fun _ => rfl⟩
  · obtain ⟨hlast, hfault, hjump, -, howed⟩ := hlater
    have hsome : (s.tile g).lastSlot.isSome = true := by
      cases hs : (s.tile g).lastSlot with
      | none => rw [hs] at hlast; cases hlast
      | some l => rfl
    rw [openTile, if_pos hsome]
    exact ⟨hfault, hjump, howed⟩

/-- A word that issues follows the slot order. -/
theorem slot_lt_of_issues (h : Issues s g w n) {l : Nat} (hl : (s.tile g).lastSlot = some l) : ¬ wSlot w ≤ l := by
  obtain ⟨-, -, -, -, hopen | hlater⟩ := h
  · rw [hopen.1] at hl
    cases hl
  · have hlt : l < wSlot w := by simpa [hl] using hlater.1
    exact hlt.not_ge

/-- The effect of a word: nothing where its guard is false (R58). -/
def effectOf (s : State) (g : Nat) (w : Word) (act : State → State) : State :=
  if guardOk (s.tile g) w then act (s.openBundle g) else s.openBundle g

/-- A legal word that issues without a fault has its effect in the open bundle, which its `E` bit closes. -/
theorem issueWord_of_issues (h : Issues s g w n) {dyn : State → Option Nat} {act : State → State}
    (hdyn : guardOk (s.tile g) w = true → dyn (s.openBundle g) = none) :
    s.issueWord g w true dyn act =
      if wE w then ((s.effectOf g w act).modTile g (bumpTile w)).closeBundle g
      else (s.effectOf g w act).modTile g (bumpTile w) := by
  obtain ⟨hstep, htile⟩ := openBundle_of_issues h
  obtain ⟨hfault, -, -⟩ := openTile_of_issues h
  have horder {l : Nat} (hl : (s.tile g).lastSlot = some l) := slot_lt_of_issues h hl
  obtain ⟨hstate, hfrozen, hpc, -, -⟩ := h
  have hopen : (s.openBundle g).getF F.TIL_STATUS_STATE g = 1 := by rw [hstep.getF, hstate]
  unfold issueWord
  rw [if_neg (by simp [hstate, hfrozen])]
  simp only [hopen, htile, openTile_pc, openTile_lastSlot, guardOk_openTile, hfault]
  rw [if_neg (by simp), if_neg (by omega), effectOf]
  cases hl : (s.tile g).lastSlot with
  | none =>
    by_cases hguard : guardOk (s.tile g) w = true
    · simp only [hguard, hdyn hguard, Bool.and_self, if_true, Bool.false_eq_true, if_false, Bool.or_false, Option.isNone_none]
      rfl
    · simp only [hguard, Bool.and_false, Bool.false_eq_true, if_false, Bool.or_false, if_true]
      rfl
  | some l =>
    by_cases hguard : guardOk (s.tile g) w = true
    · simp only [hguard, hdyn hguard, horder hl, decide_false, Bool.and_self, if_true, Bool.false_eq_true, if_false,
        Bool.or_false, Option.isNone_none]
      rfl
    · simp only [hguard, horder hl, decide_false, Bool.and_false, Bool.false_eq_true, if_false, Bool.or_false, if_true]
      rfl

/-- A bundle that owes nothing and has not faulted closes. -/
theorem closeBundle_of_nothing_owed (hfault : (s.tile g).fault = none) (howed : (s.tile g).owed = []) :
    s.closeBundle g = s.modTile g closeTile := by
  unfold closeBundle
  rw [hfault]
  dsimp only
  rw [howed, List.foldl_nil, modTile_eq, modTile_eq]
  cases hjump : (s.tile g).jump with
  | none => simp only [closeTile, flowAfter, hjump]
  | some j => simp only [closeTile, flowAfter, hjump]

/-- A word whose effect changes its tile alone changes its tile alone. -/
theorem issueWord_tile (h : Issues s g w n) {dyn : State → Option Nat} {act : State → State}
    (hdyn : guardOk (s.tile g) w = true → dyn (s.openBundle g) = none) {t : Tile} (hact : TileStep s g n (s.effectOf g w act))
    (ht : (s.effectOf g w act).tile g = t) (hfault : t.fault = none) (howed : wE w = true → t.owed = []) :
    TileStep s g n (s.issueWord g w true dyn act) ∧ (s.issueWord g w true dyn act).tile g = wordTile w t := by
  rw [issueWord_of_issues h hdyn, wordTile]
  have bumped : ((s.effectOf g w act).modTile g (bumpTile w)).tile g = bumpTile w t := by
    rw [modTile_eq, tile_setTile, ht]
  by_cases hE : wE w = true
  · simp only [hE, if_true]
    rw [closeBundle_of_nothing_owed (by rw [bumped]; exact hfault) (by rw [bumped]; exact howed hE)]
    exact ⟨(hact.modTile _).modTile _, by rw [modTile_eq, tile_setTile, bumped]⟩
  · simp only [hE, Bool.false_eq_true, if_false]
    exact ⟨hact.modTile _, bumped⟩

end State

/-! ## Effects in flight -/

/-- The results that a word of tile `t` puts in flight in cycle `n`. -/
def flying (task n : Nat) (t : Tile) (es : List (Nat × Eff)) : List Pend :=
  es.map fun e => { vis := n + e.1, issue := n, seq := t.seq, eff := e.2, task := task, share := t.share }

/-- From `s` to `u` a word of tile `g` has put `es` in flight in cycle `n` and left its units as `us`; of the tile nothing
else differs from the open bundle. -/
structure Flies (s : State) (g n : Nat) (es : List (Nat × Eff)) (us : Units) (u : State) : Prop where
  step : TileStep s g n u
  tile : u.tile g = { openTile (s.tile g) n with
    pend := (s.tile g).pend ++ flying (s.getF F.TIL_STATUS_TASK g) n (s.tile g) es, units := us }

namespace Flies

variable {s u : State} {g n : Nat} {w : Word} {es : List (Nat × Eff)} {us : Units}

/-- The open bundle, before the word's effect. -/
theorem openBundle (h : Issues s g w n) : Flies s g n [] (s.tile g).units (s.openBundle g) := by
  obtain ⟨hstep, htile⟩ := State.openBundle_of_issues h
  refine ⟨hstep, ?_⟩
  rw [htile, flying, List.map_nil, List.append_nil]
  conv_rhs => rw [← openTile_pend (s.tile g) n, ← openTile_units (s.tile g) n]

theorem inFlight (h : Flies s g n es us u) (lat : Nat) (e : Eff) : Flies s g n (es ++ [(lat, e)]) us (u.inFlight g lat e) := by
  refine ⟨h.step.modTile _, ?_⟩
  rw [State.inFlight, State.modTile_eq, State.tile_setTile, h.tile, h.step.now, h.step.getF, flying, flying, List.map_append,
    ← List.append_assoc]
  simp

/-- Several effects one after another. -/
theorem foldl_inFlight {α : Type} (f : α → Nat × Eff) {act : State → α → State}
    (hact : ∀ v x, TileStep s g n v → act v x = v.inFlight g (f x).1 (f x).2) (l : List α) (h : Flies s g n es us u) :
    Flies s g n (es ++ l.map f) us (l.foldl act u) := by
  induction l generalizing es u with
  | nil => simpa using h
  | cons x l ih =>
    rw [List.foldl_cons, hact u x h.step, List.map_cons, List.append_cons]
    exact ih (h.inFlight _ _)

theorem setUnits (h : Flies s g n es us u) (f : Nat → Units → Units) :
    Flies s g n es (f n us) (u.modTile g fun t => { t with units := f u.now t.units }) := by
  refine ⟨h.step.modTile _, ?_⟩
  rw [State.modTile_eq, State.tile_setTile, h.tile, h.step.now]

end Flies

namespace State

variable {s : State} {g n : Nat} {w : Word}

/-- A legal word that puts results in flight issues as R62 says, and with a false guard puts none. -/
theorem issueWord_flies (h : Issues s g w n) {dyn : State → Option Nat} {act : State → State}
    (hdyn : guardOk (s.tile g) w = true → dyn (s.openBundle g) = none) {es : List (Nat × Eff)} {us : Units}
    (hact : guardOk (s.tile g) w = true → Flies s g n es us (act (s.openBundle g))) :
    TileStep s g n (s.issueWord g w true dyn act) ∧
      (guardOk (s.tile g) w = true → ((s.issueWord g w true dyn act).tile g).units = us) ∧
      Issued s (s.issueWord g w true dyn act) g w n (if guardOk (s.tile g) w then es else []) := by
  have heffect : Flies s g n (if guardOk (s.tile g) w then es else []) (if guardOk (s.tile g) w then us else (s.tile g).units)
      (s.effectOf g w act) := by
    unfold effectOf
    split
    · next hguard => exact hact hguard
    · exact .openBundle h
  obtain ⟨hfault, hjump, howed⟩ := openTile_of_issues h
  obtain ⟨hstep, htile⟩ := issueWord_tile h hdyn heffect.step heffect.tile hfault howed
  refine ⟨hstep, fun hguard => ?_, ?_⟩
  · rw [htile, wordTile, if_pos hguard]
    split <;> rfl
  · unfold Issued IssuedPort
    rw [htile, wordTile]
    by_cases hE : wE w = true
    · simp only [hE, if_true]
      refine ⟨⟨rfl, ?_, hstep.now, by simp, ?_, ?_, ?_, ?_, ?_, ?_, ?_, hstep.mem, hstep.host, hstep.other⟩, ?_⟩
      case refine_2 =>
        refine fun _ => ⟨rfl, fun hloops => ?_⟩
        rw [closeTile_pc_of_no_loops]
        · exact congrArg (· + 1) (openTile_pc _ _)
        · exact hjump
        · exact (openTile_loops _ _).trans hloops
      all_goals simp [closeTile, bumpTile]
    · simp only [hE, Bool.false_eq_true, if_false]
      refine ⟨⟨rfl, ?_, hstep.now, ?_, by simp, ?_, ?_, ?_, ?_, ?_, ?_, hstep.mem, hstep.host, hstep.other⟩, ?_⟩
      all_goals simp [bumpTile]

end State
end Sys2Proof.Machine
end

section
/-! SUPPORT. Scalar words issue and put their result in flight (R72, R76): the proof of `ScalarWords`. -/

namespace Sys2Proof.Machine.State

variable {s : State} {g n : Nat} {w : Word}

/-- A word whose effect is one result in flight, which no fault stops. -/
theorem issueWord_inFlight (h : Issues s g w n) {dyn : State → Option Nat} {act : State → State}
    (hdyn : ∀ u, TileStep s g n u → dyn u = none) {lat : Nat} {e : Eff}
    (hact : ∀ u, TileStep s g n u → u.tile g = openTile (s.tile g) n → act u = u.inFlight g lat e) :
    TileStep s g n (s.issueWord g w true dyn act) ∧
      Issued s (s.issueWord g w true dyn act) g w n (if guardOk (s.tile g) w then [(lat, e)] else []) := by
  obtain ⟨hopen, htile⟩ := openBundle_of_issues h
  obtain ⟨hstep, -, hissued⟩ := issueWord_flies (es := [(lat, e)]) (us := (s.tile g).units) (act := act) h
    (fun _ => hdyn _ hopen) (fun _ => by rw [hact _ hopen htile]; exact (Flies.openBundle h).inFlight lat e)
  exact ⟨hstep, hissued⟩

theorem checkerOff_of_issues (h : Issues s g w n) : s.checkerOn (s.tilePart g) = false := h.2.2.2.1

theorem scalarSlot_of_slot (hslot : wSlot w = 2 ∨ wSlot w = 3) : scalarSlot w = true := by
  rcases hslot with h | h <;> simp [scalarSlot, h]

/-- Scalar arithmetic (R72, R76). -/
theorem arithWord_issued (h : Issues s g w n) (hslot : wSlot w = 2 ∨ wSlot w = 3) {op : Nat} (hop : wOp w = op) (lat : Nat)
    (f : Word → Word → Word) :
    TileStep s g n (s.arithWord g w op lat f) ∧ Issued s (s.arithWord g w op lat f) g w n (if guardOk (s.tile g) w then
      [(lat, .sreg (sSD w) (f ((s.tile g).s (sSA w)) ((s.tile g).opB w))
        (shadowOf w (f ((s.tile g).s (sSA w)) ((s.tile g).opB w)) (f ((s.tile g).sh (sSA w)) ((s.tile g).opBsh w))))] else []) := by
  have hoff := checkerOff_of_issues h
  have legal : (scalarSlot w && wOp w = op) = true := by simp [scalarSlot_of_slot hslot, hop]
  rw [arithWord, legal]
  refine issueWord_inFlight h (fun u hu => hu.hazardFault hoff _ _) fun u hu ht => ?_
  simp only [hu.noteHazard hoff, ht, openTile_s, openTile_sh, openTile_opB, openTile_opBsh]

/-- A compare (R72). -/
theorem cmpWord_issued (h : Issues s g w n) (hslot : wSlot w = 2 ∨ wSlot w = 3) {op : Nat} (hop : wOp w = op)
    (hrsv : getBits w 47 46 = 0) (f : Word → Word → Bool) :
    TileStep s g n (s.cmpWord g w op f) ∧ Issued s (s.cmpWord g w op f) g w n (if guardOk (s.tile g) w then
      [(1, .preg (sPD w) (f ((s.tile g).s (sSA w)) ((s.tile g).opB w)))] else []) := by
  have hoff := checkerOff_of_issues h
  have legal : (scalarSlot w && wOp w = op && getBits w 47 46 = 0) = true := by
    simp [scalarSlot_of_slot hslot, hop, hrsv]
  rw [cmpWord, legal]
  refine issueWord_inFlight h (fun u hu => hu.hazardFault hoff _ _) fun u hu ht => ?_
  simp only [hu.noteHazard hoff, ht, openTile_s, openTile_opB]

/-- A predicate operation (R72). -/
theorem predWord_issued (h : Issues s g w n) (hslot : wSlot w = 2 ∨ wSlot w = 3) {op : Nat} (hop : wOp w = op)
    (hrsv : getBits w 47 46 = 0) (hrsvA : getBits w 42 41 = 0) (hrsvB : getBits w 37 36 = 0) (f : Bool → Bool → Bool) :
    TileStep s g n (s.predWord g w op f) ∧ Issued s (s.predWord g w op f) g w n (if guardOk (s.tile g) w then
      [(1, .preg (sPD w) (f ((s.tile g).p (sSA w)) ((s.tile g).p (sSB w))))] else []) := by
  have hoff := checkerOff_of_issues h
  have legal : (scalarSlot w && wOp w = op && getBits w 47 46 = 0 && getBits w 42 41 = 0 && getBits w 37 36 = 0) = true := by
    simp [scalarSlot_of_slot hslot, hop, hrsv, hrsvA, hrsvB]
  rw [predWord, legal]
  refine issueWord_inFlight h (fun u hu => hu.hazardFault hoff _ _) fun u hu ht => ?_
  simp only [hu.noteHazard hoff, ht, openTile_p]

theorem min_slt : (fun a b : Word => if a.slt b then a else b) = fun a b => if a.toInt < b.toInt then a else b := by
  funext a b
  simp [BitVec.slt]

theorem max_slt : (fun a b : Word => if a.slt b then b else a) = fun a b => if a.toInt < b.toInt then b else a := by
  funext a b
  simp [BitVec.slt]

end Sys2Proof.Machine.State

namespace Sys2Proof
open Machine

theorem scalarArithmetic : Claims.ScalarArithmetic := by
  intro s g w n c op lat f hc hslot hop h
  suffices hexec : exec c s = .next (s.arithWord g w op lat f) by
    obtain ⟨hstep, hissued⟩ := State.arithWord_issued h hslot hop lat f
    exact ⟨_, hexec, hstep.frame, hissued⟩
  rcases hc with ⟨rfl, rfl, rfl, rfl⟩ | ⟨rfl, rfl, rfl, rfl⟩ | ⟨rfl, rfl, rfl, rfl⟩ | ⟨rfl, rfl, rfl, rfl⟩ |
    ⟨rfl, rfl, rfl, rfl⟩ | ⟨rfl, rfl, rfl, rfl⟩ | ⟨rfl, rfl, rfl, rfl⟩ | ⟨rfl, rfl, rfl, rfl⟩ | ⟨rfl, rfl, rfl, rfl⟩ |
    ⟨rfl, rfl, rfl, rfl⟩ | ⟨rfl, rfl, rfl, rfl⟩
  case inr.inr.inr.inr.inr.inr.inr.inr.inr.inl => rw [← State.min_slt]; rfl
  case inr.inr.inr.inr.inr.inr.inr.inr.inr.inr => rw [← State.max_slt]; rfl
  all_goals rfl

theorem comparesAndPredicates : Claims.ComparesAndPredicates := by
  constructor
  · intro s g w n c op f hc hslot hop hrsv h
    suffices hexec : exec c s = .next (s.cmpWord g w op f) by
      obtain ⟨hstep, hissued⟩ := State.cmpWord_issued h hslot hop hrsv f
      exact ⟨_, hexec, hstep.frame, hissued⟩
    rcases hc with ⟨rfl, rfl, rfl⟩ | ⟨rfl, rfl, rfl⟩ | ⟨rfl, rfl, rfl⟩ | ⟨rfl, rfl, rfl⟩ <;> rfl
  · intro s g w n c op f hc hslot hop hrsv hrsvA hrsvB h
    suffices hexec : exec c s = .next (s.predWord g w op f) by
      obtain ⟨hstep, hissued⟩ := State.predWord_issued h hslot hop hrsv hrsvA hrsvB f
      exact ⟨_, hexec, hstep.frame, hissued⟩
    rcases hc with ⟨rfl, rfl, rfl⟩ | ⟨rfl, rfl, rfl⟩ | ⟨rfl, rfl, rfl⟩ <;> rfl

/-- Settles O18: a legal scalar word issues with one result in flight, whichever word of its slot's opcodes it is. -/
theorem scalarWords : Obligations.ScalarWords := by
  unfold Obligations.ScalarWords
  exact ⟨scalarArithmetic, comparesAndPredicates⟩

end Sys2Proof
end

section
/-! SUPPORT. What leaves by the ports changes the ports and the output alone; what a word owes, once it is counted, changes
the tile's retry counts, its partition and what leaves by the ports (R156 to R160, R235, R256). -/

namespace Sys2Proof.Machine

/-! ## Ports and output -/

/-- From `s` to `t` only ports and output differ. -/
structure PortsOut (s t : State) : Prop where
  frame : t = { s with ports := t.ports, out := t.out }

namespace PortsOut

variable {s t u : State} {k : Nat}

theorem refl (s : State) : PortsOut s s := ⟨rfl⟩

theorem trans (hst : PortsOut s t) (htu : PortsOut t u) : PortsOut s u where
  frame := calc
    u = { t with ports := u.ports, out := u.out } := htu.frame
    _ = { s with ports := u.ports, out := u.out } := by rw [hst.frame]

theorem setPort (h : PortsOut s t) (x : Port) : PortsOut s (t.setPort k x) := h.trans ⟨rfl⟩

theorem modPort (h : PortsOut s t) (f : Port → Port) : PortsOut s (t.modPort k f) := h.trans ⟨rfl⟩

theorem emit (h : PortsOut s t) (o : Out) : PortsOut s (t.emit o) := h.trans ⟨rfl⟩

theorem ite {c : Prop} [Decidable c] (ht : PortsOut s t) (hu : PortsOut s u) : PortsOut s (if c then t else u) := by
  split
  · exact ht
  · exact hu

theorem foldl {α : Type} {act : State → α → State} (hact : ∀ v x, PortsOut v (act v x)) (l : List α) (h : PortsOut s t) :
    PortsOut s (l.foldl act t) := by
  induction l generalizing t with
  | nil => exact h
  | cons x l ih => exact ih (h.trans (hact t x))

theorem emitFlit (h : PortsOut s t) (f : Flit) : PortsOut s (t.emitFlit k f) := (h.modPort _).emit _

theorem sendSequenced (h : PortsOut s t) (type vc : Nat) (body : List Byte) : PortsOut s (t.sendSequenced k type vc body) :=
  (h.setPort _).emitFlit _

theorem sealGroup (h : PortsOut s t) : PortsOut s (t.sealGroup k) := by
  unfold State.sealGroup
  exact (h.sendSequenced _ _ _).modPort _

theorem sendFlit (h : PortsOut s t) (type vc : Nat) (body : List Byte) : PortsOut s (t.sendFlit k type vc body) := by
  unfold State.sendFlit
  exact (h.sendSequenced _ _ _).modPort _

theorem sendNext (h : PortsOut s t) (vc : Nat) : PortsOut s (t.sendNext k vc) := by
  unfold State.sendNext
  dsimp only
  split
  · exact h
  · exact (h.setPort _).sendFlit _ _ _

theorem pump (n : Nat) (h : PortsOut s t) : PortsOut s (t.pump k n) := by
  induction n generalizing t with
  | zero => exact h
  | succ n ih =>
    unfold State.pump
    dsimp only
    split
    · exact h
    · split
      · exact ih h.sealGroup
      · split
        · exact ih ((h.setPort _).sendFlit _ _ _)
        · split
          · exact ih (h.sendNext _)
          · exact h

theorem pumpUp (h : PortsOut s t) : PortsOut s (t.pumpUp k) := (h.pump _).ite h

theorem queueMsg (h : PortsOut s t) (c : TClass) (x : MsgHdr) (v : Hop) (o : Out) : PortsOut s (t.queueMsg c x v o) :=
  ((h.modPort _).emit _).pumpUp

theorem floodHold (h : PortsOut s t) (e : HoldEntry) : PortsOut s (t.floodHold e) :=
  h.foldl (fun v k => ((refl v).modPort (k := k) _).pumpUp.ite (refl v)) _

theorem tile (h : PortsOut s t) (g : Nat) : t.tile g = s.tile g := by rw [h.frame]; rfl

theorem part (h : PortsOut s t) (p : Nat) : t.part p = s.part p := by rw [h.frame]; rfl

theorem word (h : PortsOut s t) (o : Nat) : t.word o = s.word o := by rw [h.frame]; rfl

end PortsOut

/-! ## Counts that a word owes -/

/-- From `s` to `t` a bundle of tile `g` has settled counts: of the tile only the retry counts differ, of the registers only
`PLN_SCALE_STATUS`. -/
structure Settles (s : State) (g : Nat) (t : State) : Prop where
  frame : t = { s with regs := t.regs, tiles := t.tiles, parts := t.parts, ports := t.ports, out := t.out }
  tile : t.tile g = { s.tile g with
    retryFor := (t.tile g).retryFor, retryCost := (t.tile g).retryCost, extra := (t.tile g).extra, convs := (t.tile g).convs }
  other : ∀ h, h ≠ g → t.tile h = s.tile h
  word : ∀ o, (∀ p, o ≠ F.PLN_SCALE_STATUS_EXTRA.off p) → t.word o = s.word o
  landed : ∀ p, (t.part p).landedBn = (s.part p).landedBn

namespace Settles

variable {s t u : State} {g : Nat}

theorem refl (s : State) : Settles s g s := ⟨rfl, rfl, fun _ _ => rfl, fun _ _ => rfl, fun _ => rfl⟩

theorem trans (hst : Settles s g t) (htu : Settles t g u) : Settles s g u where
  frame := calc
    u = { t with regs := u.regs, tiles := u.tiles, parts := u.parts, ports := u.ports, out := u.out } := htu.frame
    _ = { s with regs := u.regs, tiles := u.tiles, parts := u.parts, ports := u.ports, out := u.out } := by rw [hst.frame]
  tile := by rw [htu.tile, hst.tile]
  other := fun h hh => (htu.other h hh).trans (hst.other h hh)
  word := fun o ho => (htu.word o ho).trans (hst.word o ho)
  landed := fun p => (htu.landed p).trans (hst.landed p)

/-- A change of the tile's retry counts. -/
theorem setTile (s : State) {x : Tile} (hx : x = { s.tile g with
      retryFor := x.retryFor, retryCost := x.retryCost, extra := x.extra, convs := x.convs }) : Settles s g (s.setTile g x) where
  frame := rfl
  tile := by rw [State.tile_setTile]; exact hx
  other := fun _ hh => s.tile_setTile_ne x hh
  word := fun _ _ => rfl
  landed := fun _ => rfl

/-- A change of a partition that leaves its last landing. -/
theorem modPart (s : State) (p : Nat) {f : Part → Part} (hf : (f (s.part p)).landedBn = (s.part p).landedBn) :
    Settles s g (s.modPart p f) where
  frame := rfl
  tile := rfl
  other := fun _ _ => rfl
  word := fun _ _ => rfl
  landed := fun q => by
    by_cases hq : q = p
    · rw [hq, State.part_modPart, hf]
    · rw [State.modPart, State.part_setPart_ne _ _ hq]

theorem bump (s : State) (p : Nat) {f : Fld} (hf : f.off p = F.PLN_SCALE_STATUS_EXTRA.off p) : Settles s g (s.bump f p) where
  frame := rfl
  tile := rfl
  other := fun _ _ => rfl
  word := fun _ ho => s.word_putF_ne _ _ _ (hf ▸ ho p)
  landed := fun _ => rfl

theorem portsOut (h : PortsOut s t) : Settles s g t where
  frame := by rw [h.frame]
  tile := by rw [h.tile]
  other := fun k _ => h.tile k
  word := fun o _ => h.word o
  landed := fun p => by rw [h.part]

section
variable (h : Settles s g t)
include h

theorem getF {f : Fld} {i : Nat} (hf : ∀ p, f.off i ≠ F.PLN_SCALE_STATUS_EXTRA.off p) : t.getF f i = s.getF f i := by
  rw [State.getF, h.word _ hf, State.getF]

theorem bn : t.bn = s.bn := h.getF fun p => by simp only [Fld.off, F.PLN_BN_BN, F.PLN_SCALE_STATUS_EXTRA]; omega

theorem tilePart (k : Nat) : t.tilePart k = s.tilePart k := by
  have clusters (q c : Nat) : t.hasCluster q c = s.hasCluster q c := by
    rw [State.hasCluster, h.getF fun p => by simp only [Fld.off, F.PRT_CLUSTERS_MASK, F.PLN_SCALE_STATUS_EXTRA]; omega,
      State.hasCluster]
  simp only [State.tilePart, State.clusterPart, clusters]

theorem landed_le (hl : (s.part (s.tilePart g)).landedBn ≤ s.bn) : (t.part (t.tilePart g)).landedBn ≤ t.bn := by
  rw [h.tilePart, h.landed, h.bn]
  exact hl

end

theorem chargeSat (s : State) (p task a n : Nat) : Settles s g (s.chargeSat p task a n) := by
  unfold State.chargeSat
  split
  · exact refl s
  · split
    · exact refl s
    · exact modPart s p rfl

theorem ite {c : Prop} [Decidable c] (ht : c → Settles s g t) (hu : ¬ c → Settles s g u) : Settles s g (if c then t else u) := by
  split
  · next h => exact ht h
  · next h => exact hu h

/-- An entry that lands after the last landing is not late (R257). -/
theorem takeHold (s : State) (e : HoldEntry) (he : ¬ e.land ≤ max s.bn (s.part e.part).landedBn) :
    Settles s g (s.takeHold e) := by
  unfold State.takeHold
  dsimp only
  rw [if_neg he]
  exact ite (fun _ => refl s) fun _ => (modPart s e.part rfl).trans (.portsOut ((PortsOut.refl _).floodHold _))

theorem raiseHold (s : State) (p cause task len : Nat) (overrun : Bool) (hl : (s.part p).landedBn ≤ s.bn) :
    Settles s g (s.raiseHold p cause task len overrun) :=
  takeHold s _ (by simp only [max_eq_left hl, State.holdLead]; omega)

theorem extraConversion (s : State) (cost : Nat) (hl : (s.part (s.tilePart g)).landedBn ≤ s.bn) :
    Settles s g (s.extraConversion g cost) := by
  unfold State.extraConversion
  dsimp only
  split
  · exact setTile s rfl
  · have counted : Settles s g ((s.setTile g { s.tile g with
        extra := (s.tile g).extra + 1, retryCost := (s.tile g).retryCost + cost }).bump F.PLN_SCALE_STATUS_EXTRA (s.tilePart g)) :=
      (setTile s rfl).trans (bump _ _ rfl)
    split
    · exact counted.trans (raiseHold _ _ _ _ _ _ (by rw [counted.landed, counted.bn]; exact hl))
    · exact counted

theorem retryTile_eq (s : State) (g layer : Nat) : s.retryTile g layer = { s.tile g with
    retryFor := (s.retryTile g layer).retryFor, retryCost := (s.retryTile g layer).retryCost,
    extra := (s.retryTile g layer).extra, convs := (s.retryTile g layer).convs } := by
  unfold State.retryTile
  dsimp only
  split <;> rfl

theorem noteConv (s : State) (a cost : Nat) (tr : List Byte) (hl : (s.part (s.tilePart g)).landedBn ≤ s.bn) :
    Settles s g (s.noteConv g a cost tr) := by
  unfold State.noteConv
  split
  · exact refl s
  · next k e _ =>
    dsimp only
    have noted (l : List Conv) : Settles s g (s.setTile g { s.retryTile g e.layer with convs := l }) :=
      setTile s (by rw [retryTile_eq])
    have extra (l : List Conv) (b : Prop) [Decidable b] : Settles s g (if b then
        (s.setTile g { s.retryTile g e.layer with convs := l }).extraConversion g cost
        else s.setTile g { s.retryTile g e.layer with convs := l }) :=
      ite (fun _ => (noted l).trans (extraConversion _ cost ((noted l).landed_le hl))) fun _ => noted l
    exact ite (fun _ => (extra _ _).trans (bump _ _ rfl)) fun _ => extra _ _

theorem noteImage (s : State) (a f cost : Nat) (hl : (s.part (s.tilePart g)).landedBn ≤ s.bn) :
    Settles s g (s.noteImage g a f cost) := by
  unfold State.noteImage
  dsimp only
  refine ite (fun _ => ?_) fun _ => refl s
  have noted : Settles s g (s.setTile g { s.tile g with
      convs := (s.tile g).convs.map fun v => if v.image = a then { v with times := 0 } else v }) := setTile s rfl
  exact noted.trans (extraConversion _ cost (noted.landed_le hl))

end Settles
end Sys2Proof.Machine
end

section
/-! SUPPORT. The issue of a word that owes counts at the close of its bundle (R85, R94, R158). -/

namespace Sys2Proof.Machine

/-- From `s` to `t` a bundle of tile `g` has settled counts: of time and memory nothing differs, of the tiles only banks and retry
counts of `g`. -/
structure Counted (s : State) (g : Nat) (t : State) : Prop where
  now : t.now = s.now
  mem : t.mem = s.mem
  host : t.host = s.host
  other : ∀ h, h ≠ g → t.tile h = s.tile h
  tile : t.tile g = { s.tile g with
    banks := (t.tile g).banks, retryFor := (t.tile g).retryFor, retryCost := (t.tile g).retryCost,
    extra := (t.tile g).extra, convs := (t.tile g).convs }

theorem Settles.counted {s t : State} {g : Nat} (h : Settles s g t) : Counted s g t where
  now := by rw [h.frame]
  mem := by rw [h.frame]
  host := by rw [h.frame]
  other := h.other
  tile := by rw [h.tile]

theorem Settles.banks {s t : State} {g : Nat} (h : Settles s g t) : (t.tile g).banks = (s.tile g).banks := by rw [h.tile]

theorem Counted.trans {s t u : State} {g : Nat} (hst : Counted s g t) (htu : Counted t g u) : Counted s g u where
  now := htu.now.trans hst.now
  mem := htu.mem.trans hst.mem
  host := htu.host.trans hst.host
  other := fun h hh => (htu.other h hh).trans (hst.other h hh)
  tile := by rw [htu.tile, hst.tile]

/-- The word owes a count of a conversion or of a fallback image, not of a bank. -/
def Owed.ofBlock : Owed → Bool
  | .conv .. => true
  | .image .. => true
  | _ => false

/-- The counts of conversions and images. -/
theorem Settles.foldl_settleOwed {s : State} {g : Nat} (ows : List Owed) (hows : ∀ o ∈ ows, o.ofBlock = true)
    (hl : (s.part (s.tilePart g)).landedBn ≤ s.bn) : Settles s g (ows.foldl (fun s o => s.settleOwed g o) s) := by
  induction ows generalizing s with
  | nil => exact refl s
  | cons o ows ih =>
    have first : Settles s g (s.settleOwed g o) := by
      cases o with
      | conv a f cost tr => exact noteConv s a cost tr hl
      | image a f cost => exact noteImage s a f cost hl
      | hazard => exact absurd (hows _ (.head _)) Bool.false_ne_true
      | bankSat b a => exact absurd (hows _ (.head _)) Bool.false_ne_true
    exact first.trans (ih (fun o ho => hows o (.tail _ ho)) (first.landed_le hl))

/-- The count of a bank takes its saturations. -/
theorem counted_bankSat (s : State) (g b a : Nat) : Counted s g (s.settleOwed g (.bankSat b a)) ∧
    ((s.settleOwed g (.bankSat b a)).tile g).banks = mput Bank.zero (s.tile g).banks b { (s.tile g).bank b with sat := 0 } ∧
    ((s.part (s.tilePart g)).landedBn ≤ s.bn →
      ((s.settleOwed g (.bankSat b a)).part ((s.settleOwed g (.bankSat b a)).tilePart g)).landedBn ≤
        (s.settleOwed g (.bankSat b a)).bn) := by
  have cleared : TileStep s g s.now (s.modTile g fun t =>
      { t with banks := mput Bank.zero t.banks b { (s.tile g).bank b with sat := 0 } }) := (TileStep.refl s g).modTile _
  have charged := Settles.chargeSat (g := g) (s.modTile g fun t =>
      { t with banks := mput Bank.zero t.banks b { (s.tile g).bank b with sat := 0 } }) (s.tilePart g)
      (s.getF F.TIL_STATUS_TASK g) a ((s.tile g).bank b).sat
  have emptied : Counted s g (s.modTile g fun t =>
      { t with banks := mput Bank.zero t.banks b { (s.tile g).bank b with sat := 0 } }) :=
    ⟨rfl, rfl, rfl, cleared.other, by rw [State.modTile_eq, State.tile_setTile]⟩
  refine ⟨emptied.trans charged.counted, ?_, fun hl => charged.landed_le hl⟩
  refine charged.banks.trans ?_
  rw [State.modTile_eq, State.tile_setTile]

/-! ## Effects in flight with counts owed -/

/-- From `s` to `u` a word of tile `g` has put `es` in flight, left its units as `us` and owes `ows`; of the tile nothing else
differs from the open bundle. -/
structure Owes (s : State) (g n : Nat) (es : List (Nat × Eff)) (us : Units) (ows : List Owed) (u : State) : Prop where
  step : TileStep s g n u
  tile : u.tile g = { openTile (s.tile g) n with
    pend := (s.tile g).pend ++ flying (s.getF F.TIL_STATUS_TASK g) n (s.tile g) es, units := us,
    owed := (openTile (s.tile g) n).owed ++ ows }

namespace Owes

variable {s u : State} {g n : Nat} {es : List (Nat × Eff)} {us : Units} {ows : List Owed}

theorem owe_flies (h : Flies s g n es us u) (o : Owed) : Owes s g n es us [o] (u.owe g o) := by
  refine ⟨h.step.modTile _, ?_⟩
  rw [State.owe, State.modTile_eq, State.tile_setTile, h.tile]

theorem of_flies (h : Flies s g n es us u) : Owes s g n es us [] u := by
  refine ⟨h.step, ?_⟩
  rw [h.tile, List.append_nil]

theorem owe (h : Owes s g n es us ows u) (o : Owed) : Owes s g n es us (ows ++ [o]) (u.owe g o) := by
  refine ⟨h.step.modTile _, ?_⟩
  rw [State.owe, State.modTile_eq, State.tile_setTile, h.tile]
  simp

theorem setUnits (h : Owes s g n es us ows u) (f : Nat → Units → Units) :
    Owes s g n es (f n us) ows (u.modTile g fun t => { t with units := f u.now t.units }) := by
  refine ⟨h.step.modTile _, ?_⟩
  rw [State.modTile_eq, State.tile_setTile, h.tile, h.step.now]

/-- Several counts one after another. -/
theorem foldl_owe {α : Type} (f : α → Owed) {act : State → α → State} (hact : ∀ v x, act v x = v.owe g (f x)) (l : List α)
    (h : Owes s g n es us ows u) : Owes s g n es us (ows ++ l.map f) (l.foldl act u) := by
  induction l generalizing ows u with
  | nil => simpa using h
  | cons x l ih =>
    rw [List.foldl_cons, hact, List.map_cons, List.append_cons]
    exact ih (h.owe _)

end Owes

namespace State

variable {s : State} {g n : Nat} {w : Word}

/-- A bundle that has not faulted counts what it owes and closes. -/
theorem closeBundle_of_no_fault (hfault : (s.tile g).fault = none) :
    s.closeBundle g = ((s.tile g).owed.foldl (fun s o => s.settleOwed g o) s).modTile g closeTile := by
  unfold closeBundle
  rw [hfault]
  dsimp only
  generalize (s.tile g).owed.foldl (fun s o => s.settleOwed g o) s = v
  rw [modTile_eq, modTile_eq]
  cases hjump : (v.tile g).jump with
  | none => simp only [closeTile, flowAfter, hjump]
  | some j => simp only [closeTile, flowAfter, hjump]

/-- A legal word that puts results in flight and owes counts issues as R62 says; its last word settles the counts. -/
theorem issueWord_owes (h : Issues s g w n) (hguard : guardOk (s.tile g) w = true) {dyn : State → Option Nat}
    {act : State → State} (hdyn : dyn (s.openBundle g) = none) {es : List (Nat × Eff)} {us : Units} {ows : List Owed}
    (hact : Owes s g n es us ows (act (s.openBundle g))) {v : State}
    (hv : wE w = true → ows.foldl (fun s o => s.settleOwed g o) ((act (s.openBundle g)).modTile g (bumpTile w)) = v)
    (hcounted : wE w = true → Counted ((act (s.openBundle g)).modTile g (bumpTile w)) g v) :
    IssuedPort s (s.issueWord g w true dyn act) g w n es ∧ ((s.issueWord g w true dyn act).tile g).units = us ∧
      ((s.issueWord g w true dyn act).tile g).banks = if wE w then (v.tile g).banks else (s.tile g).banks := by
  obtain ⟨hfault, hjump, howed⟩ := openTile_of_issues h
  have hstep := hact.step.modTile (bumpTile w)
  have htile : ((act (s.openBundle g)).modTile g (bumpTile w)).tile g = bumpTile w { openTile (s.tile g) n with
      pend := (s.tile g).pend ++ flying (s.getF F.TIL_STATUS_TASK g) n (s.tile g) es, units := us,
      owed := (openTile (s.tile g) n).owed ++ ows } := by
    rw [modTile_eq, tile_setTile, hact.tile]
  rw [issueWord_of_issues h (fun _ => hdyn), effectOf, if_pos hguard]
  unfold IssuedPort
  by_cases hE : wE w = true
  · have hv := hv hE
    have hcounted := hcounted hE
    simp only [hE, if_true]
    rw [closeBundle_of_no_fault (by rw [htile]; exact hfault), htile]
    simp only [bumpTile, howed hE, List.nil_append, hv]
    have closed : (v.modTile g closeTile).tile g = closeTile (v.tile g) := by rw [modTile_eq, tile_setTile]
    rw [closed, hcounted.tile, htile]
    have onward : (s.tile g).loops = [] → (closeTile (v.tile g)).pc = (s.tile g).pc + 1 := by
      intro hloops
      rw [closeTile_pc_of_no_loops]
      all_goals rw [hcounted.tile, htile]
      · exact congrArg (· + 1) (openTile_pc _ _)
      · exact hjump
      · exact (openTile_loops _ _).trans hloops
    rw [hcounted.tile, htile] at onward
    have memory : (v.modTile g closeTile).mem = s.mem := hcounted.mem.trans hstep.mem
    refine ⟨⟨rfl, ?_, hcounted.now.trans hstep.now, by simp, fun _ => ⟨rfl, onward⟩, ?_, ?_, ?_, ?_, ?_, ?_, memory,
      hcounted.host.trans hstep.host, fun k hk => ?_⟩, rfl, rfl⟩
    case refine_8 => exact (v.tile_setTile_ne _ hk).trans ((hcounted.other k hk).trans (hstep.other k hk))
    all_goals simp [closeTile, bumpTile]
  · simp only [hE, Bool.false_eq_true, if_false]
    rw [htile]
    refine ⟨⟨rfl, ?_, hstep.now, ?_, by simp, ?_, ?_, ?_, ?_, ?_, ?_, hstep.mem, hstep.host, hstep.other⟩, rfl, ?_⟩
    all_goals simp [bumpTile]

end State
end Sys2Proof.Machine
end

section
/-! SUPPORT. Vector chain words and memory words (R65, R71, R73, R76): the proof of `ChainAndMemoryWords`. -/

namespace Sys2Proof.Machine

section
variable (t : Tile) (n : Nat) (w : Word)

@[simp] theorem sameBase_openTile (r : Nat) : State.sameBase (openTile t n) r = State.sameBase t r := by simp [State.sameBase]
@[simp] theorem sameEa_openTile : State.sameEa (openTile t n) w = State.sameEa t w := by simp [State.sameEa]
@[simp] theorem runDesc_openTile : State.runDesc (openTile t n) w = State.runDesc t w := by simp [State.runDesc]
@[simp] theorem bankType_openTile (b : Nat) : State.bankType (openTile t n) b = State.bankType t b := by simp [State.bankType]
@[simp] theorem mulDesc_openTile (m : MulMode) : State.mulDesc (openTile t n) w m = State.mulDesc t w m := by
  simp [State.mulDesc]
@[simp] theorem ldDesc_openTile : State.ldDesc (openTile t n) w = State.ldDesc t w := by simp [State.ldDesc]
@[simp] theorem stDesc_openTile : State.stDesc (openTile t n) w = State.stDesc t w := by simp [State.stDesc]
@[simp] theorem mayVary_openTile (b : Bool) : State.mayVary (openTile t n) w b = State.mayVary t w b := by
  simp [State.mayVary]

end

namespace TileStep

variable {s t : State} {g n : Nat} (h : TileStep s g n t)
include h

theorem imageBad (k : Nat) (d : Desc) (upto : Nat) : t.imageBad k d upto = s.imageBad k d upto := by
  simp only [State.imageBad, h.rd8, h.rdN]

end TileStep

namespace State

variable {s : State} {g n : Nat} {w : Word}

/-- A word that follows the static plan, or may vary, is no `MAYVARY_MISSING` (R83). -/
theorem mayVary_of_planned {t : Tile} (h : t.shadowOn = false ∨ wMV w = true) (same : Bool) : mayVary t w same = none := by
  rcases h with h | h <;> simp [mayVary, h, faultIf]

@[simp] theorem faultIf_false (c : Nat) : faultIf false c = none := rfl

@[simp] theorem lowest_none_left (a : Option Nat) : lowest none a = a := rfl

theorem not_lt_free {a b : Nat} (h : a ≤ b) : decide (b < a) = false := decide_eq_false h.not_gt

/-- A legal word with a true guard that puts results in flight. -/
theorem issueWord_executes (h : Issues s g w n) (hguard : guardOk (s.tile g) w = true) {ok : Bool} (hok : ok = true)
    {dyn : State → Option Nat} (hdyn : dyn (s.openBundle g) = none) {act : State → State} {es : List (Nat × Eff)} {us : Units}
    (hact : Flies s g n es us (act (s.openBundle g))) :
    TileStep s g n (s.issueWord g w ok dyn act) ∧ ((s.issueWord g w ok dyn act).tile g).units = us ∧
      Issued s (s.issueWord g w ok dyn act) g w n es := by
  obtain ⟨hstep, hunits, hissued⟩ := issueWord_flies (act := act) h (fun _ => hdyn) (fun _ => hact)
  rw [if_pos hguard] at hissued
  rw [hok]
  exact ⟨hstep, hunits hguard, hissued⟩

/-! ## Memory words -/

theorem storeLat_eq (a lat : Nat) : storeLat a lat = lat + if a < 0x10_0000 then 0 else 20 := by
  unfold storeLat
  split <;> rfl

/-- An aligned memory word of the plan whose effect is one result in flight. -/
theorem memWord_issued (h : Issues s g w n) (hslot : wSlot w = 2) {op : Nat} (hop : wOp w = op) (hplan : Planned s g w)
    (hguard : guardOk (s.tile g) w = true) {bytes : Nat} (hlocal : inLocal ((s.tile g).ea w) bytes = true)
    (haligned : (s.tile g).ea w % bytes = 0) (rs : Tile → Nat → Reads) {act : State → State} {lat : Nat} {e : Eff}
    (hact : ∀ u, TileStep s g n u → u.tile g = openTile (s.tile g) n → act u = u.inFlight g lat e) :
    TileStep s g n (s.memWord g w op bytes rs act) ∧ ((s.memWord g w op bytes rs act).tile g).units = (s.tile g).units ∧
      Issued s (s.memWord g w op bytes rs act) g w n [(lat, e)] := by
  have hoff := checkerOff_of_issues h
  obtain ⟨hopen, htile⟩ := openBundle_of_issues h
  refine issueWord_executes h hguard (by simp [hslot, hop]) ?_ ?_
  · simp [htile, hlocal, haligned, mayVary_of_planned hplan, hopen.hazardFault hoff]
  · rw [hopen.noteHazard hoff, hact _ hopen htile]
    exact (Flies.openBundle h).inFlight lat e

/-- `xd.set` (R73, R76). -/
theorem xdSet_issued (h : Issues s g w n) (hslot : wSlot w = 2) (hop : wOp w = 0x22) (hguard : guardOk (s.tile g) w = true) :
    ∃ u, exec (.xdSet g w) s = .next u ∧ TileStep s g n u ∧ (u.tile g).units = (s.tile g).units ∧ Issued s u g w n
      [(2, .dreg (xDD w) ((s.tile g).s (xSD w) ++ (s.tile g).s (xSA w))
        (shadowOf w ((s.tile g).s (xSD w) ++ (s.tile g).s (xSA w)) ((s.tile g).sh (xSD w) ++ (s.tile g).sh (xSA w))))] := by
  have hoff := checkerOff_of_issues h
  obtain ⟨hopen, htile⟩ := openBundle_of_issues h
  refine ⟨_, rfl, issueWord_executes h hguard (by simp [hslot, hop]) (hopen.hazardFault hoff _ _) ?_⟩
  simp only [hopen.noteHazard hoff, htile, openTile_s, openTile_sh]
  exact (Flies.openBundle h).inFlight _ _

/-- `xm.copy` puts every block row in flight, as its source stands at issue (R73, R76). -/
theorem xmCopy_issued (h : Issues s g w n) (hslot : wSlot w = 2) (hop : wOp w = 0x25) (hplan : Planned s g w)
    (hguard : guardOk (s.tile g) w = true) (hdesc : copyDesc ((s.tile g).d (xDD w)) ((s.tile g).d (xDS w)) = false)
    (hdst : inLocal (dBase ((s.tile g).d (xDD w))) (regionBytes ((s.tile g).d (xDD w))) = true)
    (hsrc : inLocal (dBase ((s.tile g).d (xDS w))) (regionBytes ((s.tile g).d (xDS w))) = true)
    (hfree : (s.tile g).units.copyFree ≤ n) :
    let ds := (s.tile g).d (xDS w)
    let dd := (s.tile g).d (xDD w)
    let occ := (copyBytes ds + 255) / 256
    ∃ u, exec (.xmCopy g w) s = .next u ∧ TileStep s g n u ∧ (u.tile g).units = { (s.tile g).units with copyFree := n + occ } ∧
      Issued s u g w n ((List.range (dRows ds)).map fun r =>
        (occ + 20, Eff.mem (devAddr g (dBase dd + 64 * r * dStride dd))
          (s.rd (devAddr g (dBase ds + 64 * r * dStride ds)) (dCols ds * pitch ds)))) := by
  intro ds dd occ
  have hoff := checkerOff_of_issues h
  obtain ⟨hopen, htile⟩ := openBundle_of_issues h
  refine ⟨_, rfl, issueWord_executes h hguard (by simp [hslot, hop]) ?_ ?_⟩
  · simp [htile, hdesc, hdst, hsrc, hopen.now, not_lt_free hfree, mayVary_of_planned hplan, hopen.hazardFault hoff]
  · have moved := (Flies.openBundle h).foldl_inFlight
      (fun r => (occ + 20, Eff.mem (devAddr g (dBase dd + 64 * r * dStride dd))
        (s.rd (devAddr g (dBase ds + 64 * r * dStride ds)) (dCols ds * pitch ds))))
      (act := fun s r => s.inFlight g (occ + 20) (.mem (devAddr g (dBase dd + 64 * r * dStride dd))
        (s.rd (devAddr g (dBase ds + 64 * r * dStride ds)) (dCols ds * pitch ds))))
      (fun v r hv => by rw [hv.rd]) (List.range (dRows ds))
    simp only [copyAct, hopen.noteHazard hoff, htile, openTile_d]
    exact moved.setUnits fun now us => { us with copyFree := now + occ }

/-- `xm.dma` (R73, R76). -/
theorem xmDma_issued (h : Issues s g w n) (hslot : wSlot w = 2) (hop : wOp w = 0x26) (hplan : Planned s g w)
    (hguard : guardOk (s.tile g) w = true) (hin : inTile ((s.tile g).ea w) 64 = true) (haligned : (s.tile g).ea w % 64 = 0) :
    ∃ u, exec (.xmDma g w) s = .next u ∧ TileStep s g n u ∧ (u.tile g).units = (s.tile g).units ∧ Issued s u g w n
      [(1, .dma (xCH w) (xTK w) (devAddr g ((s.tile g).ea w)) (s.tile g).pc (s.getF F.TIL_STATUS_TASK g))] := by
  have hoff := checkerOff_of_issues h
  obtain ⟨hopen, htile⟩ := openBundle_of_issues h
  refine ⟨_, rfl, issueWord_executes h hguard (by simp [hslot, hop]) ?_ ?_⟩
  · simp [htile, hin, haligned, mayVary_of_planned hplan, hopen.hazardFault hoff]
  · simp only [hopen.noteHazard hoff, htile, openTile_ea, openTile_pc, hopen.getF]
    exact (Flies.openBundle h).inFlight _ _

/-! ## Vector chain words -/

/-- `vc.cfg` (R71, R76, R117). -/
theorem vcCfg_issued (h : Issues s g w n) (hslot : wSlot w = 1) (hrsv : vRsv w = false) (hop : wOp w = 2)
    (hplan : Planned s g w) (hguard : guardOk (s.tile g) w = true) (hfree : (s.tile g).units.vcFree ≤ n)
    (hdesc : descBad ((s.tile g).d (vDA w)) = false) (hin : inTile (dBase ((s.tile g).d (vDA w))) 256 = true)
    (hentry : entryBad (s.rd (devAddr g (dBase ((s.tile g).d (vDA w)))) 256) = false) :
    ∃ u, exec (.vcCfg g w) s = .next u ∧ TileStep s g n u ∧ (u.tile g).units = { (s.tile g).units with vcFree := n + 8 } ∧
      Issued s u g w n [(8, .cfg (vChain w) (s.rd (devAddr g (dBase ((s.tile g).d (vDA w)))) 256))] := by
  have hoff := checkerOff_of_issues h
  obtain ⟨hopen, htile⟩ := openBundle_of_issues h
  refine ⟨_, rfl, issueWord_executes h hguard (by simp [hslot, hop, hrsv]) ?_ ?_⟩
  · simp [cfgFaults, htile, hdesc, hin, hopen.rd, hentry, hopen.now, not_lt_free hfree, mayVary_of_planned hplan,
      hopen.hazardFault hoff]
  · simp only [cfgAct, hopen.noteHazard hoff, htile, openTile_d, hopen.rd]
    have moved := (Flies.openBundle h).inFlight 8 (.cfg (vChain w) (s.rd (devAddr g (dBase ((s.tile g).d (vDA w)))) 256))
    exact moved.setUnits fun now us => { us with vcFree := now + 8 }

/-- A word that owes only counts of blocks: the bank of its tile stands. -/
theorem issueWord_owes_blocks (h : Issues s g w n) (hguard : guardOk (s.tile g) w = true) {ok : Bool} (hok : ok = true)
    {dyn : State → Option Nat} (hdyn : dyn (s.openBundle g) = none) {act : State → State} {es : List (Nat × Eff)} {us : Units}
    {ows : List Owed} (hows : ∀ o ∈ ows, o.ofBlock = true) (hl : (s.part (s.tilePart g)).landedBn ≤ s.bn)
    (hact : Owes s g n es us ows (act (s.openBundle g))) :
    ((s.issueWord g w ok dyn act).tile g).units = us ∧ Issued s (s.issueWord g w ok dyn act) g w n es := by
  have bumped := hact.step.modTile (bumpTile w)
  have settled := Settles.foldl_settleOwed (g := g) ows hows (s := (act (s.openBundle g)).modTile g (bumpTile w))
    (by rw [bumped.tilePart, bumped.part, bumped.bn]; exact hl)
  obtain ⟨hport, hunits, hbanks⟩ := issueWord_owes h hguard hdyn hact (fun _ => rfl) fun _ => settled.counted
  rw [hok]
  refine ⟨hunits, hport, hbanks.trans ?_⟩
  split
  · rw [settled.banks, modTile_eq, tile_setTile, hact.tile]
    exact openTile_banks _ _
  · rfl

end State

/-- Block `b` of a run's destination, and its trailer as it stood at issue. -/
def runTrailers (s : State) (g : Nat) (dd : Desc) : List (Nat × List Byte) :=
  if dBS dd then (List.range ((dLen dd + 16383) / 16384)).map fun b => (b, s.trailerAt (devAddr g (dBase dd) + blockOff dd b))
  else []

/-- What a run owes for block `b` of its destination (R156 to R158). -/
def runOwed (g : Nat) (dd : Desc) (lat : Nat) (trs : List (Nat × List Byte)) (b : Nat) : Owed :=
  match trs.find? (·.1 = b) with
  | some x => .conv (devAddr g (dBase dd) + blockOff dd b) (dFmt dd) (lat + 8) x.2
  | none => .image (devAddr g (dBase dd) + blockOff dd b) (dFmt dd) (lat + 8)

theorem owe_runOwed (v : State) (g : Nat) (dd : Desc) (lat : Nat) (trs : List (Nat × List Byte)) (b : Nat) :
    (match trs.find? (·.1 = b) with
      | some x => v.owe g (.conv (devAddr g (dBase dd) + blockOff dd b) (dFmt dd) (lat + 8) x.2)
      | none => v.owe g (.image (devAddr g (dBase dd) + blockOff dd b) (dFmt dd) (lat + 8))) =
      v.owe g (runOwed g dd lat trs b) := by
  unfold runOwed
  split <;> rfl

theorem ofBlock_runOwed (g : Nat) (dd : Desc) (lat : Nat) (trs : List (Nat × List Byte)) (b : Nat) :
    (runOwed g dd lat trs b).ofBlock = true := by
  unfold runOwed
  split <;> rfl

namespace State

variable {s : State} {g n : Nat} {w : Word}

/-- `vc.run` (R71, R76, R116). -/
theorem vcRun_issued (h : Issues s g w n) (hslot : wSlot w = 1) (hrsv : vRsv w = false) (hop : wOp w = 1)
    (hplan : Planned s g w) (hguard : guardOk (s.tile g) w = true) (hfree : (s.tile g).units.vcFree ≤ n)
    (hdesc : runDesc (s.tile g) w = false) (haddr : s.runAddr g w = false) (hl : (s.part (s.tilePart g)).landedBn ≤ s.bn) :
    let e := mget [] (s.tile g).chains (vChain w)
    let dd := (s.tile g).d (vDD w)
    ∃ u, exec (.vcRun g w) s = .next u ∧ (u.tile g).units = { (s.tile g).units with vcFree := n + (dLen dd + 127) / 128 } ∧
      Issued s u g w n [(runLatency e (dLen dd), .chain e dd ((s.tile g).d (vDA w)) ((s.tile g).d (vDB w))
        ((s.tile g).d (vDM w)) (vMK w) (runTrailers (s.openBundle g) g dd))] := by
  intro e dd
  have hoff := checkerOff_of_issues h
  obtain ⟨hopen, htile⟩ := openBundle_of_issues h
  refine ⟨_, rfl, issueWord_owes_blocks h hguard (by simp [hslot, hop, hrsv]) ?_
    (ows := (List.range ((dLen dd + 16383) / 16384)).map
      (runOwed g dd (runLatency e (dLen dd)) (runTrailers (s.openBundle g) g dd))) ?_ hl ?_⟩
  · have haddr : (s.openBundle g).runAddr g w = false := by
      rw [← haddr]
      simp only [runAddr, htile, openTile_chains, openTile_d, hopen.imageBad]
    simp [runFaults, htile, hdesc, haddr, hopen.now, not_lt_free hfree, mayVary_of_planned hplan, hopen.hazardFault hoff]
  · intro o ho
    obtain ⟨b, -, rfl⟩ := List.mem_map.mp ho
    exact ofBlock_runOwed ..
  · simp only [runAct, hopen.noteHazard hoff, htile, openTile_d, openTile_chains]
    have moved := (Flies.openBundle h).inFlight (runLatency e (dLen dd)) (.chain e dd ((s.tile g).d (vDA w))
      ((s.tile g).d (vDB w)) ((s.tile g).d (vDM w)) (vMK w) (runTrailers (s.openBundle g) g dd))
    exact (Owes.of_flies (moved.setUnits fun now us => { us with vcFree := now + (dLen dd + 127) / 128 })).foldl_owe _
      (fun v b => owe_runOwed v g dd (runLatency e (dLen dd)) (runTrailers (s.openBundle g) g dd) b) _

end State
end Sys2Proof.Machine

namespace Sys2Proof
open Machine

theorem memoryWords : Claims.MemoryWords := by
  intro s g w n hslot h hplan hguard t a far
  refine ⟨?_, ?_, ?_, ?_, ?_⟩
  · rintro c es hlocal haligned (⟨rfl, hop, rfl⟩ | ⟨rfl, hop, rfl⟩)
    · obtain ⟨hstep, -, hissued⟩ := State.memWord_issued h hslot hop hplan hguard hlocal haligned
        (fun t now => State.loadReads g now 8 t w) (lat := 4 + far)
        (e := Eff.sreg (xSD w) (BitVec.ofNat 64 (s.rdN (devAddr g a) 8)) (BitVec.ofNat 64 (s.rdN (devAddr g a) 8)))
        (act := fun s => s.inFlight g (State.storeLat ((s.tile g).ea w) 4) (.sreg (xSD w)
          (BitVec.ofNat 64 (s.rdN (devAddr g ((s.tile g).ea w)) 8)) (BitVec.ofNat 64 (s.rdN (devAddr g ((s.tile g).ea w)) 8))))
        (fun u hu ht => by simp only [ht, openTile_ea, hu.rdN, State.storeLat_eq]; rfl)
      exact ⟨_, rfl, hstep.frame, hissued⟩
    · obtain ⟨hstep, -, hissued⟩ := State.memWord_issued h hslot hop hplan hguard hlocal haligned
        (fun t now => State.stReads g now t w) (lat := 4 + far)
        (e := Eff.mem (devAddr g a) (leBytes 8 (t.s (xSD w)).toNat))
        (act := fun s => s.inFlight g (State.storeLat ((s.tile g).ea w) 4)
          (.mem (devAddr g ((s.tile g).ea w)) (leBytes 8 ((s.tile g).s (xSD w)).toNat)))
        (fun u hu ht => by simp only [ht, openTile_ea, openTile_s, State.storeLat_eq]; rfl)
      exact ⟨_, rfl, hstep.frame, hissued⟩
  · rintro c es hlocal haligned (⟨rfl, hop, rfl⟩ | ⟨rfl, hop, rfl⟩)
    · obtain ⟨hstep, -, hissued⟩ := State.memWord_issued h hslot hop hplan hguard hlocal haligned
        (fun t now => State.loadReads g now 16 t w) (lat := 5 + far)
        (e := Eff.dreg (xDD w) (BitVec.ofNat 128 (s.rdN (devAddr g a) 16)) (BitVec.ofNat 128 (s.rdN (devAddr g a) 16)))
        (act := fun s => s.inFlight g (State.storeLat ((s.tile g).ea w) 5) (.dreg (xDD w)
          (BitVec.ofNat 128 (s.rdN (devAddr g ((s.tile g).ea w)) 16))
          (BitVec.ofNat 128 (s.rdN (devAddr g ((s.tile g).ea w)) 16))))
        (fun u hu ht => by simp only [ht, openTile_ea, hu.rdN, State.storeLat_eq]; rfl)
      exact ⟨_, rfl, hstep.frame, hissued⟩
    · obtain ⟨hstep, -, hissued⟩ := State.memWord_issued h hslot hop hplan hguard hlocal haligned
        (fun t now => State.dstReads g now t w) (lat := 5 + far)
        (e := Eff.mem (devAddr g a) (leBytes 16 (t.d (xDD w)).toNat))
        (act := fun s => s.inFlight g (State.storeLat ((s.tile g).ea w) 5)
          (.mem (devAddr g ((s.tile g).ea w)) (leBytes 16 ((s.tile g).d (xDD w)).toNat)))
        (fun u hu ht => by simp only [ht, openTile_ea, openTile_d, State.storeLat_eq]; rfl)
      exact ⟨_, rfl, hstep.frame, hissued⟩
  · intro hop
    obtain ⟨u, hexec, hstep, -, hissued⟩ := State.xdSet_issued h hslot hop hguard
    exact ⟨u, hexec, hstep.frame, hissued⟩
  · intro hop hdesc hdst hsrc hfree
    obtain ⟨u, hexec, hstep, hunits, hissued⟩ := State.xmCopy_issued h hslot hop hplan hguard hdesc hdst hsrc hfree
    exact ⟨u, hexec, hstep.frame, congrArg Units.copyFree hunits, hissued⟩
  · intro hop hin haligned
    obtain ⟨u, hexec, hstep, -, hissued⟩ := State.xmDma_issued h hslot hop hplan hguard hin haligned
    exact ⟨u, hexec, hstep.frame, hissued⟩

theorem chainWords : Claims.ChainWords := by
  intro s g w n hslot hrsv h hplan hguard hfree
  constructor
  · intro hop hdesc haddr hl e dd
    obtain ⟨u, hexec, hunits, hissued⟩ := State.vcRun_issued h hslot hrsv hop hplan hguard hfree hdesc haddr hl
    exact ⟨u, _, hexec, congrArg Units.vcFree hunits, fun hBS => if_neg (by rw [hBS]; decide), hissued⟩
  · intro hop hdesc hin hentry
    obtain ⟨u, hexec, hstep, hunits, hissued⟩ := State.vcCfg_issued h hslot hrsv hop hplan hguard hfree hdesc hin hentry
    exact ⟨u, hexec, hstep.frame, congrArg Units.vcFree hunits, hissued⟩

/-- Settles O20: each word issues with its results in flight; what a run owes is settled with its bundle and leaves
registers, banks and memory of the tile. -/
theorem chainAndMemoryWords : Obligations.ChainAndMemoryWords := by
  unfold Obligations.ChainAndMemoryWords
  exact ⟨chainWords, memoryWords⟩

end Sys2Proof
end

section
/-! SUPPORT. Multiplies and the accumulator port (R68 to R70, R76, R94): the proof of `ArrayWords`. -/

namespace Sys2Proof.Machine

/-- What `mx.st` and `mx.stq` put in flight, by what the store of the bank gives. -/
def storeFlights (w : Word) (q : Bool) (a f : Nat) (o : List (Nat × List Byte) × Nat) (bytes : List Byte) (am : Option W32) :
    List (Nat × Eff) :=
  o.1.map (fun x => (72, Eff.mem x.1 x.2)) ++ (if q then [(72, Eff.preg (mPO w) (0 < o.2))] else []) ++
    [(72, Eff.block a f o.2 bytes am)]

/-- The accumulator port taken in cycle `now`. -/
def portUnits (b occ lat now : Nat) (us : Units) : Units :=
  { us with portFree := now + occ, portBanks := (us.portBanks.filter fun x => now < x.2) ++ [(b, now + lat)] }

/-- The multiply pipeline taken in cycle `now`. -/
def mulUnits (b occ now : Nat) (us : Units) : Units :=
  { us with mulFree := now + occ, mulBanks := (us.mulBanks.filter fun x => now < x.2) ++ [(b, now + occ + 24)] }

/-- The conversion or fallback image that a store of the bank may be (R156 to R158). -/
def storeOwed (d : Desc) (a : Nat) (tr : List Byte) : Owed :=
  if dBS d then .conv a (dFmt d) 80 tr else .image a (dFmt d) 80

theorem ofBlock_storeOwed (d : Desc) (a : Nat) (tr : List Byte) : (storeOwed d a tr).ofBlock = true := by
  unfold storeOwed
  split <;> rfl

namespace Flies

variable {s u : State} {g n : Nat} {es : List (Nat × Eff)} {us : Units}

theorem usePort (h : Flies s g n es us u) (w : Word) (occ lat : Nat) :
    Flies s g n es (portUnits (mAcc w) occ lat n us) (u.usePort g w occ lat) := h.setUnits (portUnits (mAcc w) occ lat)

theorem ite_inFlight (h : Flies s g n es us u) (q : Bool) (lat : Nat) (e : Eff) :
    Flies s g n (es ++ if q then [(lat, e)] else []) us (if q then u.inFlight g lat e else u) := by
  cases q with
  | false => simpa using h
  | true => exact h.inFlight lat e

end Flies

theorem Owes.usePort {s u : State} {g n : Nat} {es : List (Nat × Eff)} {us : Units} {ows : List Owed}
    (h : Owes s g n es us ows u) (w : Word) (occ lat : Nat) :
    Owes s g n es (portUnits (mAcc w) occ lat n us) ows (u.usePort g w occ lat) := h.setUnits (portUnits (mAcc w) occ lat)

namespace State

variable {s : State} {g n : Nat} {w : Word}

theorem ite_append_left {α : Type} {c : Prop} [Decidable c] (l r : List α) :
    (if c then l ++ r else l) = l ++ if c then r else [] := by
  split
  · rfl
  · rw [List.append_nil]

theorem owe_storeOwed (v : State) (g : Nat) (d : Desc) (a : Nat) (tr : List Byte) :
    (if dBS d then v.owe g (.conv a (dFmt d) 80 tr) else v.owe g (.image a (dFmt d) 80)) = v.owe g (storeOwed d a tr) := by
  unfold storeOwed
  split <;> rfl

/-- A multiply (R69, R76). -/
theorem mulWord_issued (h : Issues s g w n) (hslot : wSlot w = 0) {op : Nat} (hop : wOp w = op) (hrsv : mRsv w = false)
    (hplan : Planned s g w) (hguard : guardOk (s.tile g) w = true) {m : MulMode} (hdesc : mulDesc (s.tile g) w m = false)
    (hfree : (s.tile g).units.mulFree ≤ n) (hbank : bankBusy (s.tile g).units.portBanks (mAcc w) n = false) :
    let occ := mulCycles ((s.tile g).d (mDA w))
    TileStep s g n (s.mulWord g w m op) ∧ ((s.mulWord g w m op).tile g).units = mulUnits (mAcc w) occ n (s.tile g).units ∧
      Issued s (s.mulWord g w m op) g w n
        [(occ + 24, .mult m (mAcc w) ((s.tile g).d (mDA w)) ((s.tile g).d (mDB w)) (mZ w))] := by
  intro occ
  have hoff := checkerOff_of_issues h
  obtain ⟨hopen, htile⟩ := openBundle_of_issues h
  refine issueWord_executes h hguard (by simp [hslot, hop, hrsv]) ?_ ?_
  · simp [htile, hdesc, hopen.now, not_lt_free hfree, hbank, mayVary_of_planned hplan, hopen.hazardFault hoff]
  · simp only [hopen.noteHazard hoff, htile, openTile_d]
    exact ((Flies.openBundle h).inFlight (occ + 24) _).setUnits (mulUnits (mAcc w) occ)

/-- `mx.ld` (R69, R76). -/
theorem mxLd_issued (h : Issues s g w n) (hslot : wSlot w = 0) (hop : wOp w = 4) (hrsv : mRsv w = false)
    (hplan : Planned s g w) (hguard : guardOk (s.tile g) w = true) (hfree : (s.tile g).units.portFree ≤ n)
    (hbank : bankBusy (s.tile g).units.mulBanks (mAcc w) n = false) (hdesc : ldDesc (s.tile g) w = false)
    (hlocal : inLocal (dBase ((s.tile g).d (mDA w))) (regionBytes ((s.tile g).d (mDA w))) = true) :
    ∃ u, exec (.mxLd g w) s = .next u ∧ TileStep s g n u ∧
      (u.tile g).units = portUnits (mAcc w) 64 72 n (s.tile g).units ∧
      Issued s u g w n [(72, .bank (mAcc w) (loadBank s.rd8 g ((s.tile g).d (mDA w))))] := by
  have hoff := checkerOff_of_issues h
  obtain ⟨hopen, htile⟩ := openBundle_of_issues h
  refine ⟨_, rfl, issueWord_executes h hguard (by simp [hslot, hop, hrsv]) ?_ ?_⟩
  · simp [portFaults, htile, hdesc, hlocal, hopen.now, not_lt_free hfree, hbank, mayVary_of_planned hplan,
      hopen.hazardFault hoff]
  · simp only [hopen.noteHazard hoff, htile, openTile_d, hopen.rd8]
    exact ((Flies.openBundle h).inFlight 72 _).usePort w 64 72

/-- `mx.zero` (R69, R76). -/
theorem mxZero_issued (h : Issues s g w n) (hslot : wSlot w = 0) (hop : wOp w = 7) (hrsv : mRsv w = false)
    (hguard : guardOk (s.tile g) w = true) (hfree : (s.tile g).units.portFree ≤ n)
    (hbank : bankBusy (s.tile g).units.mulBanks (mAcc w) n = false) :
    ∃ u, exec (.mxZero g w) s = .next u ∧ TileStep s g n u ∧
      (u.tile g).units = portUnits (mAcc w) 1 2 n (s.tile g).units ∧ Issued s u g w n [(2, .bank (mAcc w) Bank.zero)] := by
  obtain ⟨hopen, htile⟩ := openBundle_of_issues h
  refine ⟨_, rfl, issueWord_executes h hguard (by simp [hslot, hop, hrsv]) ?_ ?_⟩
  · simp [htile, hopen.now, not_lt_free hfree, hbank]
  · exact ((Flies.openBundle h).inFlight 2 _).usePort w 1 2

/-- A store in the open bundle: its bytes, predicate and counts in flight, the bank's saturations owed. -/
theorem storeAct_owes (h : Issues s g w n) (q : Bool) :
    let d := (s.tile g).d (mDA w)
    let a := devAddr g (dBase d)
    let b := (s.tile g).bank (mAcc w)
    let tr := if dBS d then s.trailerAt a else []
    let o := storeBank g d b tr
    Owes s g n
      (storeFlights w q a (dFmt d) o ((o.1.map (·.2)).headD [] ++ if dBS d then tr.take 2 else [])
        (if dBS d then some (amax ((List.range 16384).map fun i => mget 0 b.cells i)) else none))
      (portUnits (mAcc w) 64 72 n (s.tile g).units) [.bankSat (mAcc w) a, storeOwed d a tr]
      ((s.openBundle g).storeAct g w q) := by
  intro d a b tr o
  have hoff := checkerOff_of_issues h
  obtain ⟨hopen, htile⟩ := openBundle_of_issues h
  have stored := (((Flies.openBundle h).foldl_inFlight (fun x => (72, Eff.mem x.1 x.2))
    (act := fun s x => s.inFlight g 72 (.mem x.1 x.2)) (fun _ _ _ => rfl) o.1).ite_inFlight q 72
      (.preg (mPO w) (0 < o.2))).inFlight 72 (.block a (dFmt d) o.2 ((o.1.map (·.2)).headD [] ++ if dBS d then tr.take 2 else [])
        (if dBS d then some (amax ((List.range 16384).map fun i => mget 0 b.cells i)) else none))
  have owed := ((Owes.owe_flies stored (.bankSat (mAcc w) a)).owe (storeOwed d a tr)).usePort w 64 72
  simp only [storeAct, hopen.noteHazard hoff, htile, openTile_d, openTile_bank, trailerAt, hopen.rd, owe_storeOwed,
    ite_append_left]
  exact owed

/-- A bundle's last word that owes a bank's saturations and a block settles both: the bank has lost its saturations. -/
theorem settle_store (v : State) (g b a : Nat) (o : Owed) (ho : o.ofBlock = true)
    (hl : (v.part (v.tilePart g)).landedBn ≤ v.bn) :
    Counted v g ([.bankSat b a, o].foldl (fun s o => s.settleOwed g o) v) ∧
      (([.bankSat b a, o].foldl (fun s o => s.settleOwed g o) v).tile g).banks =
        mput Bank.zero (v.tile g).banks b { (v.tile g).bank b with sat := 0 } := by
  obtain ⟨hcounted, hbanks, hlanded⟩ := counted_bankSat v g b a
  have block := Settles.foldl_settleOwed (g := g) [o] (by simpa using ho) (hlanded hl)
  exact ⟨hcounted.trans block.counted, block.banks.trans hbanks⟩

/-- `mx.st` and `mx.stq` (R69, R76, R94). -/
theorem storeWord_issued (h : Issues s g w n) (hslot : wSlot w = 0) {op : Nat} (hop : wOp w = op) (hrsv : mRsv w = false)
    (hplan : Planned s g w) (hguard : guardOk (s.tile g) w = true) (hfree : (s.tile g).units.portFree ≤ n)
    (hbank : bankBusy (s.tile g).units.mulBanks (mAcc w) n = false) (hdesc : stDesc (s.tile g) w = false)
    (hlocal : inLocal (dBase ((s.tile g).d (mDA w))) (regionBytes ((s.tile g).d (mDA w))) = true)
    (hl : (s.part (s.tilePart g)).landedBn ≤ s.bn) (q : Bool) :
    let d := (s.tile g).d (mDA w)
    let a := devAddr g (dBase d)
    let b := (s.tile g).bank (mAcc w)
    let tr := if dBS d then s.trailerAt a else []
    let o := storeBank g d b tr
    IssuedPort s (s.storeWord g w op q) g w n
        (storeFlights w q a (dFmt d) o ((o.1.map (·.2)).headD [] ++ if dBS d then tr.take 2 else [])
          (if dBS d then some (amax ((List.range 16384).map fun i => mget 0 b.cells i)) else none)) ∧
      ((s.storeWord g w op q).tile g).units = portUnits (mAcc w) 64 72 n (s.tile g).units ∧
      ((s.storeWord g w op q).tile g).banks =
        if wE w then mput Bank.zero (s.tile g).banks (mAcc w) { b with sat := 0 } else (s.tile g).banks := by
  intro d a b tr o
  have hoff := checkerOff_of_issues h
  obtain ⟨hopen, htile⟩ := openBundle_of_issues h
  have owes := storeAct_owes h q
  have bumped := owes.step.modTile (bumpTile w)
  obtain ⟨counted, banks⟩ := settle_store (((s.openBundle g).storeAct g w q).modTile g (bumpTile w)) g (mAcc w) a
    (storeOwed d a tr) (ofBlock_storeOwed ..) (by rw [bumped.tilePart, bumped.part, bumped.bn]; exact hl)
  have legal : (wSlot w = 0 && wOp w = op && !mRsv w) = true := by simp [hslot, hop, hrsv]
  obtain ⟨hport, hunits, hbanks⟩ := issueWord_owes h hguard
    (dyn := fun s => lowest (faultIf (stDesc (s.tile g) w) 5) (lowest (s.portFaults g w)
      (s.hazardFault g w (s.storeReads g w)))) (act := fun s => s.storeAct g w q)
    (by simp [portFaults, htile, hdesc, hlocal, hopen.now, not_lt_free hfree, hbank, mayVary_of_planned hplan,
      hopen.hazardFault hoff]) owes (fun _ => rfl) fun _ => counted
  rw [storeWord, legal]
  refine ⟨hport, hunits, hbanks.trans ?_⟩
  rw [banks, modTile_eq, tile_setTile, owes.tile]
  have bankRead : (bumpTile w { openTile (s.tile g) n with
      pend := (s.tile g).pend ++ flying (s.getF F.TIL_STATUS_TASK g) n (s.tile g) (storeFlights w q a (dFmt d) o
        ((o.1.map (·.2)).headD [] ++ if dBS d then tr.take 2 else [])
        (if dBS d then some (amax ((List.range 16384).map fun i => mget 0 b.cells i)) else none)),
      units := portUnits (mAcc w) 64 72 n (s.tile g).units,
      owed := (openTile (s.tile g) n).owed ++ [.bankSat (mAcc w) a, storeOwed d a tr] }).bank (mAcc w) = b := openTile_bank _ _ _
  rw [bankRead]
  simp [bumpTile]

end State
end Sys2Proof.Machine

namespace Sys2Proof
open Machine

theorem multiplyWords : Claims.MultiplyWords := by
  intro s g w n c op m hc hslot hop hrsv h hplan hguard hdesc hfree hbank occ
  suffices hexec : exec c s = .next (s.mulWord g w m op) by
    obtain ⟨hstep, hunits, hissued⟩ := State.mulWord_issued h hslot hop hrsv hplan hguard hdesc hfree hbank
    refine ⟨_, hexec, hstep.frame, congrArg Units.mulFree hunits, ?_, hissued⟩
    rw [hunits]
    simp [mulUnits, State.bankBusy, occ]
  rcases hc with ⟨rfl, rfl, rfl⟩ | ⟨rfl, rfl, rfl⟩ | ⟨rfl, rfl, rfl⟩ <;> rfl

theorem portWords : Claims.PortWords := by
  intro s g w n hslot hrsv h hplan hguard hfree hbank d
  refine ⟨?_, ?_, ?_⟩
  · intro hop hdesc hlocal
    obtain ⟨u, hexec, hstep, hunits, hissued⟩ :=
      State.mxLd_issued h hslot hop hrsv hplan hguard hfree hbank hdesc hlocal
    exact ⟨u, hexec, hstep.frame, congrArg Units.portFree hunits, hissued⟩
  · intro c q hc hdesc hlocal hl a b tr o bytes am
    have stored {op : Nat} (hop : wOp w = op) (hexec : exec c s = .next (s.storeWord g w op q)) :
        ∃ u, exec c s = .next u ∧ (u.tile g).units.portFree = n + 64 ∧
          IssuedPort s u g w n (storeFlights w q a (dFmt d) o bytes am) ∧
          (wE w = true → (u.tile g).bank (mAcc w) = { b with sat := 0 }) ∧ (wE w = false → (u.tile g).bank (mAcc w) = b) ∧
          ∀ k, k ≠ mAcc w → (u.tile g).bank k = (s.tile g).bank k := by
      obtain ⟨hport, hunits, hbanks⟩ :=
        State.storeWord_issued h hslot hop hrsv hplan hguard hfree hbank hdesc hlocal hl q
      refine ⟨_, hexec, congrArg Units.portFree hunits, hport, fun hE => ?_, fun hE => ?_, fun k hk => ?_⟩
      · rw [Tile.bank, hbanks, if_pos hE, mget_mput_self]
      · rw [Tile.bank, hbanks, if_neg (by simp [hE])]
        rfl
      · rw [Tile.bank, hbanks]
        split
        · rw [mget_mput_ne Bank.zero _ _ hk, Tile.bank]
        · rfl
    rcases hc with ⟨rfl, hop, rfl⟩ | ⟨rfl, hop, rfl⟩
    · exact stored hop rfl
    · exact stored hop rfl
  · intro hop
    obtain ⟨u, hexec, hstep, hunits, hissued⟩ := State.mxZero_issued h hslot hop hrsv hguard hfree hbank
    exact ⟨u, hexec, hstep.frame, congrArg Units.portFree hunits, hissued⟩

/-- Settles O19: each word issues with its results in flight and its unit taken; a store's saturations leave the bank with
the bundle. -/
theorem arrayWords : Obligations.ArrayWords := by
  unfold Obligations.ArrayWords
  exact ⟨multiplyWords, portWords⟩

end Sys2Proof
end

section
/-! SUPPORT. Control words of a tile (R74 to R79, R82): the proof of `ControlWords`. -/

namespace Sys2Proof.Machine

/-- From `s` to `t` only tile `g`, its `TIL_STATUS`, partitions and the time differ, which is `n`. -/
structure RunStep (s : State) (g n : Nat) (t : State) : Prop where
  frame : t = { s with regs := t.regs, tiles := t.tiles, parts := t.parts, now := n }
  word : ∀ o, o ≠ F.TIL_STATUS_STATE.off g → t.word o = s.word o
  other : ∀ h, h ≠ g → t.tile h = s.tile h

theorem TileStep.runStep {s t : State} {g n : Nat} (h : TileStep s g n t) : RunStep s g n t where
  frame := by rw [h.frame]
  word := fun o _ => h.word o
  other := h.other

namespace RunStep

variable {s t : State} {g n : Nat}

theorem modTile (h : RunStep s g n t) (f : Tile → Tile) : RunStep s g n (t.modTile g f) where
  frame := by
    rw [State.modTile, State.setTile]
    exact congrArg (fun x : State => { x with tiles := mput Tile.reset t.tiles g (f (t.tile g)) }) h.frame
  word := h.word
  other := fun k hk => (t.tile_setTile_ne _ hk).trans (h.other k hk)

theorem putF (h : RunStep s g n t) {f : Fld} (hf : f.off g = F.TIL_STATUS_STATE.off g) (v : Nat) :
    RunStep s g n (t.putF f g v) where
  frame := congrArg (fun x : State => { x with regs := (t.putF f g v).regs }) h.frame
  word := fun o ho => (t.word_putF_ne f g v (hf ▸ ho)).trans (h.word o ho)
  other := h.other

theorem partOnly (h : RunStep s g n t) {p : Nat} {u : State} (hu : PartOnly p t u) : RunStep s g n u where
  frame := by
    rw [hu.frame]
    exact congrArg (fun x : State => { x with parts := u.parts }) h.frame
  word := fun o ho => (hu.word o).trans (h.word o ho)
  other := fun k hk => (hu.tile k).trans (h.other k hk)

variable (h : RunStep s g n t)
include h

theorem frame_of_parts (hp : t.parts = s.parts) : t = { s with regs := t.regs, tiles := t.tiles, now := n } := by
  have := h.frame
  rwa [hp] at this

end RunStep

/-- A task number is 24 bits of its token. -/
theorem taskOfToken {task : Nat} (h : task < 2 ^ 24) : (2 ^ 63 + task % 2 ^ 24) % 2 ^ 24 = task := by omega

namespace State

variable {s : State} {g n : Nat} {w : Word}

theorem word_modTile (s : State) (g : Nat) (f : Tile → Tile) (o : Nat) : (s.modTile g f).word o = s.word o := rfl

theorem getF_modTile (s : State) (g : Nat) (f : Tile → Tile) (x : Fld) (i : Nat) : (s.modTile g f).getF x i = s.getF x i := rfl

theorem regs_modTile (s : State) (g : Nat) (f : Tile → Tile) : (s.modTile g f).regs = s.regs := rfl

theorem parts_modTile (s : State) (g : Nat) (f : Tile → Tile) : (s.modTile g f).parts = s.parts := rfl

theorem tile_modTile (s : State) (g : Nat) (f : Tile → Tile) : (s.modTile g f).tile g = f (s.tile g) := by
  rw [modTile_eq, tile_setTile]

/-- The task of the part is done with the last of its tiles, and its stash has changed at most. -/
theorem stashDone_partOnly (s : State) (p task : Nat) : PartOnly p s (s.stashDone p task) ∧
    ((s.stashDone p task).part p).done = (s.part p).done ∧ ((s.stashDone p task).part p).tileLeft = (s.part p).tileLeft := by
  have stash (layer r : Nat) (f : Stash → Stash) : PartOnly p s (s.modStash p layer r f) ∧
      ((s.modStash p layer r f).part p).done = (s.part p).done ∧
      ((s.modStash p layer r f).part p).tileLeft = (s.part p).tileLeft := by
    refine ⟨.modPart s p _, ?_, ?_⟩ <;> rw [modStash, part_modPart]
  unfold stashDone
  split
  · exact ⟨.refl p s, rfl, rfl⟩
  · dsimp only
    split
    · exact stash _ _ _
    · split
      · exact stash _ _ _
      · exact ⟨.refl p s, rfl, rfl⟩
    · exact ⟨.refl p s, rfl, rfl⟩

theorem taskDone_eq (s : State) (p task : Nat) : s.taskDone p task = s.modPart p fun x =>
    { x with done := if x.done.contains ((2 ^ 63 + task % 2 ^ 24) % 2 ^ 24) then x.done
               else x.done ++ [(2 ^ 63 + task % 2 ^ 24) % 2 ^ 24],
             windows := x.windows.filter fun w => w.task ≠ (2 ^ 63 + task % 2 ^ 24) % 2 ^ 24 } := by
  rw [taskDone, deliver, if_neg (by omega), if_pos (by omega)]

theorem taskDone_partOnly (s : State) (p task : Nat) : PartOnly p s (s.taskDone p task) := by
  rw [taskDone_eq]
  exact .modPart s p _

/-- A task that has produced its token is done. -/
theorem done_taskDone (s : State) (p : Nat) {task : Nat} (h : task < 2 ^ 24) :
    ((s.taskDone p task).part p).done.contains task = true := by
  rw [taskDone_eq, part_modPart, taskOfToken h]
  by_cases hmem : task ∈ (s.part p).done <;> simp [hmem]

theorem tileLeft_taskDone (s : State) (p task : Nat) : ((s.taskDone p task).part p).tileLeft = (s.part p).tileLeft := by
  rw [taskDone_eq, part_modPart]

/-! ## A control word that ends its bundle -/

/-- A state after the last word of a bundle that owes nothing. -/
def wordEnd (u : State) (g : Nat) (w : Word) : State := (u.modTile g (bumpTile w)).modTile g closeTile

theorem tile_wordEnd (u : State) (g : Nat) (w : Word) : (u.wordEnd g w).tile g = closeTile (bumpTile w (u.tile g)) := by
  rw [wordEnd, tile_modTile, tile_modTile]

theorem getF_wordEnd (u : State) (g : Nat) (w : Word) (f : Fld) (i : Nat) : (u.wordEnd g w).getF f i = u.getF f i := rfl

theorem regs_wordEnd (u : State) (g : Nat) (w : Word) : (u.wordEnd g w).regs = u.regs := rfl

theorem parts_wordEnd (u : State) (g : Nat) (w : Word) : (u.wordEnd g w).parts = u.parts := rfl

theorem part_wordEnd (u : State) (g : Nat) (w : Word) (p : Nat) : (u.wordEnd g w).part p = u.part p := rfl

/-- The effect of a control word that ends its bundle, which owes nothing: the tile goes on behind it. -/
theorem ctlWord_executes (h : Issues s g w n) (hslot : wSlot w = 3) (hE : wE w = true) {op : Nat} (hop : wOp w = op)
    (hguard : guardOk (s.tile g) w = true) {ok : Bool} (hok : ok = true) (r : Option Nat) {dyn : State → Option Nat}
    (hdyn : dyn (s.openBundle g) = none) {act : State → State} {u : State} (hu : act (s.openBundle g) = u)
    (hfault : (u.tile g).fault = none) (howed : (u.tile g).owed = []) :
    s.ctlWord g w op ok r dyn act = u.wordEnd g w := by
  have hoff := checkerOff_of_issues h
  obtain ⟨hopen, htile⟩ := openBundle_of_issues h
  have legal : (wSlot w = 3 && wOp w = op && ok) = true := by simp [hslot, hop, hok]
  have bumped := tile_modTile u g (bumpTile w)
  rw [ctlWord, legal, issueWord_of_issues h (fun _ => by simp only [hdyn, hopen.hazardFault hoff]; rfl), if_pos hE, effectOf,
    if_pos hguard, hopen.noteHazard hoff, if_pos hE, hu]
  exact closeBundle_of_nothing_owed (by rw [bumped]; exact hfault) (by rw [bumped]; exact howed)

/-- A control word whose effect is on its tile alone. -/
theorem ctlWord_tile (h : Issues s g w n) (hslot : wSlot w = 3) (hE : wE w = true) {op : Nat} (hop : wOp w = op)
    (hguard : guardOk (s.tile g) w = true) {ok : Bool} (hok : ok = true) (r : Option Nat) {dyn : State → Option Nat}
    (hdyn : dyn (s.openBundle g) = none) {act : State → State} {t : Tile}
    (hact : TileStep s g n (act (s.openBundle g))) (ht : (act (s.openBundle g)).tile g = t)
    (hfault : t.fault = none) (howed : t.owed = []) :
    TileStep s g n (s.ctlWord g w op ok r dyn act) ∧ (s.ctlWord g w op ok r dyn act).tile g = closeTile (bumpTile w t) := by
  rw [ctlWord_executes h hslot hE hop hguard hok r hdyn rfl (by rw [ht]; exact hfault) (by rw [ht]; exact howed)]
  exact ⟨(hact.modTile _).modTile _, by rw [tile_wordEnd, ht]⟩

/-- A tile that has gone on behind a control word leaves all but its program counter, loops and issue. -/
theorem ctlFrame_of_tile {u : State} (hstep : TileStep s g n u) {t : Tile} (ht : u.tile g = closeTile (bumpTile w t))
    (hsregs : t.sregs = (s.tile g).sregs) (hdregs : t.dregs = (s.tile g).dregs) (hpreds : t.preds = (s.tile g).preds)
    (htoks : t.toks = (s.tile g).toks) (hbanks : t.banks = (s.tile g).banks) (hpend : t.pend = (s.tile g).pend) :
    CtlFrame s u g n := by
  unfold CtlFrame
  rw [ht]
  exact ⟨hsregs, hdregs, hpreds, htoks, hbanks, hpend, hstep.frame, hstep.other⟩

end State

theorem RunStep.wordEnd {s u : State} {g n : Nat} (h : RunStep s g n u) (w : Word) : RunStep s g n (u.wordEnd g w) :=
  (h.modTile _).modTile _

end Sys2Proof.Machine
end

section
/-! Branches, loops, waits, arrivals and halts (R74 to R79, R82). -/

namespace Sys2Proof.Machine
namespace State

variable {s : State} {g n : Nat} {w : Word}

/-- A word that issues and ends its bundle finds no fault in it, no branch and nothing owed. -/
theorem openTile_ends (h : Issues s g w n) (hE : wE w = true) :
    (openTile (s.tile g) n).fault = none ∧ (openTile (s.tile g) n).jump = none ∧ (openTile (s.tile g) n).owed = [] := by
  obtain ⟨hfault, hjump, howed⟩ := openTile_of_issues h
  exact ⟨hfault, hjump, howed hE⟩

theorem csLoop_dyn (h : Issues s g w n) {count : Nat} (hcount : loopCount (s.tile g) w = count) (hoff : 0 < cImm w / 2 ^ 16)
    (hstop : (s.tile g).pc + cImm w / 2 ^ 16 ≤ 16383) (hloops : count ≠ 0 → (s.tile g).loops.length < 4) :
    lowest (faultIf (cImm w / 2 ^ 16 = 0 || 16383 < ((s.openBundle g).tile g).pc + cImm w / 2 ^ 16) 3)
      (faultIf (loopCount ((s.openBundle g).tile g) w ≠ 0 && 4 ≤ ((s.openBundle g).tile g).loops.length) 4) = none := by
  obtain ⟨-, htile⟩ := openBundle_of_issues h
  have count_eq : loopCount (openTile (s.tile g) n) w = count := by simpa [loopCount] using hcount
  rw [htile, count_eq, openTile_pc, openTile_loops, decide_eq_false hoff.ne', decide_eq_false hstop.not_gt]
  by_cases hzero : count = 0
  · simp [hzero]
  · simp [(hloops hzero).not_ge]

section
variable (h : Issues s g w n) (hslot : wSlot w = 3) (hE : wE w = true) (hguard : guardOk (s.tile g) w = true)
include h hslot hE hguard

/-- `cs.br` (R74, R76). -/
theorem csBr_tile (hop : wOp w = 0x20) (hlow : 0 ≤ branchTarget (s.tile g).pc w) (hhigh : branchTarget (s.tile g).pc w ≤ 16383) :
    ∃ u, exec (.csBr g w) s = .next u ∧ TileStep s g n u ∧ u.tile g = closeTile (bumpTile w { openTile (s.tile g) n with
      jump := some (branchTarget (openTile (s.tile g) n).pc w).toNat, nextIssue := n + 3 }) := by
  obtain ⟨hopen, htile⟩ := openBundle_of_issues h
  obtain ⟨hfault, -, howed⟩ := openTile_ends h hE
  refine ⟨_, rfl, ctlWord_tile h hslot hE hop hguard rfl none ?_ ((hopen.modTile _).modTile _) ?_ hfault howed⟩
  · simp [htile, hlow.not_gt, hhigh.not_gt, faultIf]
  · rw [nextAt, tile_modTile, tile_modTile, htile, hopen.now]

/-- `cs.loop` of a count above 0 (R74). -/
theorem csLoop_tile (hop : wOp w = 0x21) (hoff : 0 < cImm w / 2 ^ 16) (hstop : (s.tile g).pc + cImm w / 2 ^ 16 ≤ 16383)
    (hcount : loopCount (s.tile g) w ≠ 0) (hloops : (s.tile g).loops.length < 4) :
    ∃ u, exec (.csLoop g w) s = .next u ∧ TileStep s g n u ∧ u.tile g = closeTile (bumpTile w { openTile (s.tile g) n with
      loops := { start := (openTile (s.tile g) n).pc + 1, stop := (openTile (s.tile g) n).pc + cImm w / 2 ^ 16,
                 left := loopCount (openTile (s.tile g) n) w } :: (openTile (s.tile g) n).loops }) := by
  obtain ⟨hopen, htile⟩ := openBundle_of_issues h
  obtain ⟨hfault, -, howed⟩ := openTile_ends h hE
  have count_ne : loopCount (openTile (s.tile g) n) w ≠ 0 := by simpa [loopCount] using hcount
  refine ⟨_, rfl, ctlWord_tile h hslot hE hop hguard rfl _ (csLoop_dyn h rfl hoff hstop fun _ => hloops)
    ?_ ?_ hfault howed⟩
  · simp only [htile, count_ne, if_false]
    exact hopen.modTile _
  · simp only [htile, count_ne, if_false]
    rw [tile_modTile, htile]

/-- `cs.loop` of count 0 (R74). -/
theorem csLoop_zero_tile (hop : wOp w = 0x21) (hoff : 0 < cImm w / 2 ^ 16) (hstop : (s.tile g).pc + cImm w / 2 ^ 16 ≤ 16383)
    (hcount : loopCount (s.tile g) w = 0) :
    ∃ u, exec (.csLoop g w) s = .next u ∧ TileStep s g n u ∧ u.tile g = closeTile (bumpTile w { openTile (s.tile g) n with
      jump := some (s.bundleEnd g 16384 ((openTile (s.tile g) n).pc + cImm w / 2 ^ 16)), nextIssue := n + 3 }) := by
  obtain ⟨hopen, htile⟩ := openBundle_of_issues h
  obtain ⟨hfault, -, howed⟩ := openTile_ends h hE
  have count_eq : loopCount (openTile (s.tile g) n) w = 0 := by simpa [loopCount] using hcount
  refine ⟨_, rfl, ctlWord_tile h hslot hE hop hguard rfl _ (csLoop_dyn h hcount hoff hstop (absurd rfl ·))
    ?_ ?_ hfault howed⟩
  · simp only [htile, count_eq, if_true]
    exact (hopen.modTile _).modTile _
  · simp only [htile, count_eq, if_true]
    rw [nextAt, tile_modTile, tile_modTile, htile, hopen.now, hopen.bundleEnd]

/-- `cs.wait.cyc` (R74, R76). -/
theorem csWaitCyc_tile (hop : wOp w = 0x24) (hlow : 1 ≤ cImm w) (hhigh : cImm w ≤ 1048576) :
    ∃ u, exec (.csWaitCyc g w) s = .next u ∧ TileStep s g n u ∧ u.tile g = closeTile (bumpTile w { openTile (s.tile g) n with
      wait := some (.cyc (n + cImm w)), nextIssue := n + cImm w }) := by
  obtain ⟨hopen, htile⟩ := openBundle_of_issues h
  obtain ⟨hfault, -, howed⟩ := openTile_ends h hE
  refine ⟨_, rfl, ctlWord_tile h hslot hE hop hguard (by simp [hlow, hhigh]) none rfl ((hopen.modTile _).modTile _) ?_
    hfault howed⟩
  rw [nextAt, tile_modTile, tile_modTile, htile, hopen.now]

end

end State
end Sys2Proof.Machine

namespace Sys2Proof
open Machine

theorem branchesAndLoops : Claims.BranchesAndLoops := by
  intro s g w n hslot hE h hguard t stop
  obtain ⟨-, hjump, -⟩ := State.openTile_ends h hE
  have frame {u : State} (hstep : TileStep s g n u) {x : Tile} (hx : u.tile g = closeTile (bumpTile w x))
      (hsame : x.sregs = t.sregs ∧ x.dregs = t.dregs ∧ x.preds = t.preds ∧ x.toks = t.toks ∧ x.banks = t.banks ∧
        x.pend = t.pend) : CtlFrame s u g n :=
    let ⟨hsregs, hdregs, hpreds, htoks, hbanks, hpend⟩ := hsame
    State.ctlFrame_of_tile hstep hx hsregs hdregs hpreds htoks hbanks hpend
  refine ⟨?_, ?_, ?_, ?_⟩
  · intro hop hlow hhigh
    obtain ⟨u, hexec, hstep, hu⟩ := State.csBr_tile h hslot hE hguard hop hlow hhigh
    refine ⟨u, hexec, ?_, congrArg Tile.nextIssue hu, (congrArg Tile.loops hu).trans (openTile_loops _ _),
      frame hstep hu (by simp [t])⟩
    rw [congrArg Tile.pc hu]
    exact (Int.toNat_of_nonneg (by rwa [openTile_pc])).trans (by rw [openTile_pc]; rfl)
  · intro hop hoff hstop hcount hloops
    obtain ⟨u, hexec, hstep, hu⟩ := State.csLoop_tile h hslot hE hguard hop hoff hstop hcount hloops
    have head (x : Tile) (hx : x.jump = none) {l : Loop} {ls : List Loop} (hl : x.loops = l :: ls) (hlater : x.pc ≤ l.stop) :
        flowAfter x = (x.pc, l :: ls) := by
      simp only [flowAfter, hx, hl, State.backEdge]
      rw [if_neg (by omega)]
    have flow := head (bumpTile w { openTile t n with
      loops := { start := (openTile t n).pc + 1, stop := (openTile t n).pc + cImm w / 2 ^ 16,
                 left := loopCount (openTile t n) w } :: (openTile t n).loops }) hjump rfl (by simp only [bumpTile]; omega)
    have count_eq : loopCount (openTile t n) w = loopCount t w := by simp [loopCount]
    refine ⟨u, hexec, ?_, ?_, frame hstep hu (by simp [t])⟩
    · rw [congrArg Tile.pc hu, closeTile, flow]
      exact congrArg (· + 1) (openTile_pc _ _)
    · rw [congrArg Tile.loops hu, closeTile, flow, count_eq, openTile_pc, openTile_loops]
  · intro hop hoff hstop hcount
    obtain ⟨u, hexec, hstep, hu⟩ := State.csLoop_zero_tile h hslot hE hguard hop hoff hstop hcount
    refine ⟨u, hexec, ?_, congrArg Tile.nextIssue hu, (congrArg Tile.loops hu).trans (openTile_loops _ _),
      frame hstep hu (by simp [t])⟩
    refine (congrArg Tile.pc hu).trans ?_
    exact congrArg (s.bundleEnd g 16384) (congrArg (· + cImm w / 2 ^ 16) (openTile_pc _ _))
  · intro hop hlow hhigh
    obtain ⟨u, hexec, hstep, hu⟩ := State.csWaitCyc_tile h hslot hE hguard hop hlow hhigh
    exact ⟨u, hexec, congrArg Tile.nextIssue hu, congrArg Tile.wait hu, frame hstep hu (by simp [t])⟩

end Sys2Proof
end

section
/-! Waits, arrivals and halts (R77 to R79, R82): the proof of `ControlWords`. -/

namespace Sys2Proof.Machine
namespace State

variable {s : State} {g n : Nat} {w : Word}

theorem offset_lateWaits (g : Nat) : F.TIL_STATUS_LATE_WAITS.off g = F.TIL_STATUS_STATE.off g := rfl

/-- A sequencer that waits. -/
theorem startWait_runs {u : State} (h : RunStep s g n u) (x : Wait) :
    RunStep s g n (u.startWait g x) ∧ (u.startWait g x).getF F.TIL_STATUS_STATE g = 2 ∧
      (u.startWait g x).tile g = { u.tile g with wait := some x } ∧ (u.startWait g x).parts = u.parts := by
  refine ⟨(h.putF rfl 2).modTile _, ?_, ?_, rfl⟩
  · rw [startWait, getF_modTile, getF_putF _ _ _ _ (by decide) (by decide)]
    rfl
  · rw [startWait, tile_modTile, tile_putF]

/-- A beat wait that is late (R77). -/
theorem lateWait_runs {u : State} (h : RunStep s g n u) (c : Nat) :
    let v := (u.bump F.TIL_STATUS_LATE_WAITS g).nextAt g c
    RunStep s g n v ∧ v.getF F.TIL_STATUS_STATE g = u.getF F.TIL_STATUS_STATE g ∧
      v.getF F.TIL_STATUS_LATE_WAITS g =
        min (u.getF F.TIL_STATUS_LATE_WAITS g + 1) (2 ^ F.TIL_STATUS_LATE_WAITS.width - 1) ∧
      v.tile g = { u.tile g with nextIssue := c } ∧ v.parts = u.parts := by
  simp only [nextAt, bump, bumpBy, getF_modTile, tile_modTile, tile_putF]
  refine ⟨(h.putF (offset_lateWaits g) _).modTile _, getF_putF_bits _ _ _ _ _ _ (by decide), ?_, trivial, rfl⟩
  rw [getF_putF _ _ _ _ (by decide) (by decide)]
  exact Nat.mod_eq_of_lt (lt_of_le_of_lt (min_le_right _ _) (by decide))

section
variable (h : Issues s g w n) (hslot : wSlot w = 3) (hE : wE w = true) (hguard : guardOk (s.tile g) w = true)
include h hslot hE hguard

/-- `cs.wait.beat` (R77). -/
theorem csWaitBeat_runs (hop : wOp w = 0x22) :
    let pos := s.getF F.PLN_SPOS_POS (s.tilePart g)
    let x := waitTarget (s.tile g) w
    ∃ u, exec (.csWaitBeat g w) s = .next u ∧
      (pos < x → u.getF F.TIL_STATUS_STATE g = 2 ∧ (u.tile g).wait = some (.beat x s.bn)) ∧
      (pos = x → (s.part (s.tilePart g)).heldNow = false → n < s.beatStart + 2 →
        u.getF F.TIL_STATUS_STATE g = 1 ∧ (u.tile g).nextIssue = s.beatStart + 2 ∧ u.regs = s.regs) ∧
      (x < pos → u.getF F.TIL_STATUS_STATE g = 1 ∧ (u.tile g).nextIssue = n + 1 ∧ u.getF F.TIL_STATUS_LATE_WAITS g =
        min (s.getF F.TIL_STATUS_LATE_WAITS g + 1) (2 ^ F.TIL_STATUS_LATE_WAITS.width - 1)) ∧
      RunStep s g n u ∧ u.parts = s.parts := by
  intro pos x
  obtain ⟨hopen, htile⟩ := openBundle_of_issues h
  obtain ⟨hfault, -, howed⟩ := openTile_ends h hE
  have running : (s.openBundle g).getF F.TIL_STATUS_STATE g = 1 := (hopen.getF _ _).trans h.1
  have target_eq : waitTarget (openTile (s.tile g) n) w = x := by simp [waitTarget, x]
  have executes {u : State} (hu : (s.openBundle g).beatWait g x = u) (hf : (u.tile g).fault = none)
      (ho : (u.tile g).owed = []) : exec (.csWaitBeat g w) s = .next (u.wordEnd g w) :=
    congrArg Host.Outcome.next (ctlWord_executes h hslot hE hop hguard rfl _ rfl (by rw [htile, target_eq]; exact hu) hf ho)
  have beat : (s.openBundle g).beatWait g x =
      if pos < x then (s.openBundle g).startWait g (.beat x s.bn)
      else if pos = x ∧ ¬ (s.part (s.tilePart g)).heldNow ∧ n < s.beatStart + 2 then
        (s.openBundle g).nextAt g (s.beatStart + 2)
      else ((s.openBundle g).bump F.TIL_STATUS_LATE_WAITS g).nextAt g (n + 1) := by
    simp only [beatWait, hopen.tilePart, hopen.getF, hopen.part, hopen.now, hopen.beatStart, hopen.bn]
    rfl
  by_cases hahead : pos < x
  · obtain ⟨hrun, hstate, hwait, hparts⟩ := startWait_runs hopen.runStep (.beat x s.bn)
    rw [if_pos hahead] at beat
    refine ⟨_, executes beat (by rw [hwait, htile]; exact hfault) (by rw [hwait, htile]; exact howed), fun _ => ⟨(getF_wordEnd ..).trans hstate, ?_⟩,
      by omega, by omega, hrun.wordEnd w, (parts_wordEnd ..).trans (hparts.trans hopen.parts)⟩
    rw [tile_wordEnd, hwait]
    rfl
  · rw [if_neg hahead] at beat
    by_cases hnow : pos = x ∧ ¬ (s.part (s.tilePart g)).heldNow ∧ n < s.beatStart + 2
    · rw [if_pos hnow] at beat
      refine ⟨_, executes beat ?_ ?_, by omega, fun _ _ _ => ⟨?_, ?_, ?_⟩, by omega,
        (hopen.runStep.modTile _).wordEnd w, ?_⟩
      all_goals rw [nextAt]
      · rw [tile_modTile, htile]
        exact hfault
      · rw [tile_modTile, htile]
        exact howed
      · rw [getF_wordEnd, getF_modTile, running]
      · rw [tile_wordEnd, tile_modTile]
        rfl
      · rw [regs_wordEnd, regs_modTile, hopen.regs]
      · rw [parts_wordEnd, parts_modTile, hopen.parts]
    · rw [if_neg hnow] at beat
      obtain ⟨hrun, hstate, hlate, hnext, hparts⟩ := lateWait_runs hopen.runStep (n + 1)
      refine ⟨_, executes beat (by rw [hnext, htile]; exact hfault) (by rw [hnext, htile]; exact howed), by omega,
        fun hpos hheld hbefore => absurd ⟨hpos, by simp [hheld], hbefore⟩ hnow, fun _ => ⟨(getF_wordEnd ..).trans (hstate.trans running), ?_, ?_⟩,
        hrun.wordEnd w, (parts_wordEnd ..).trans (hparts.trans hopen.parts)⟩
      · rw [tile_wordEnd, hnext]
        rfl
      · rw [getF_wordEnd, hlate, hopen.getF]

/-- `cs.wait.tok` (R78). -/
theorem csWaitTok_runs (hop : wOp w = 0x23) (hplan : Planned s g w) :
    ∃ u, exec (.csWaitTok g w) s = .next u ∧
      (tokReached ((s.tile g).tok (cTK w)) (cImm w) = true →
        u.getF F.TIL_STATUS_STATE g = 1 ∧ (u.tile g).nextIssue = n + 1 ∧ u.regs = s.regs) ∧
      (tokReached ((s.tile g).tok (cTK w)) (cImm w) = false → u.getF F.TIL_STATUS_STATE g = 2 ∧
        (u.tile g).wait = some (.tok (cTK w) (cImm w % 2 ^ 16) s.bn)) ∧
      (u.tile g).toks = (s.tile g).toks ∧ RunStep s g n u ∧ u.parts = s.parts := by
  obtain ⟨hopen, htile⟩ := openBundle_of_issues h
  obtain ⟨hfault, -, howed⟩ := openTile_ends h hE
  have running : (s.openBundle g).getF F.TIL_STATUS_STATE g = 1 := (hopen.getF _ _).trans h.1
  have planned : mayVary ((s.openBundle g).tile g) w (decide (g / 8 = ((s.openBundle g).tile g).staticCluster)) = none := by
    rw [htile, mayVary_openTile, mayVary_of_planned hplan]
  by_cases hreached : tokReached ((s.tile g).tok (cTK w)) (cImm w) = true
  · have acts : (if tokReached (((s.openBundle g).tile g).tok (cTK w)) (cImm w) then
        ((s.openBundle g).waited g (cTK w)).nextAt g ((s.openBundle g).now + 1)
        else (s.openBundle g).startWait g (.tok (cTK w) (cImm w % 2 ^ 16) (s.openBundle g).bn)) =
        ((s.openBundle g).waited g (cTK w)).nextAt g (n + 1) := by
      rw [htile, openTile_tok, if_pos hreached, hopen.now]
    have waited : (((s.openBundle g).waited g (cTK w)).nextAt g (n + 1)).tile g = { openTile (s.tile g) n with
        unwaited := (openTile (s.tile g) n).unwaited.filter fun u => u.2.2 ≠ cTK w, nextIssue := n + 1 } := by
      rw [nextAt, tile_modTile, State.waited, tile_modTile, htile]
    refine ⟨_, congrArg Host.Outcome.next (ctlWord_executes h hslot hE hop hguard rfl none planned acts
      (by rw [waited]; exact hfault) (by rw [waited]; exact howed)), fun _ => ⟨?_, ?_, ?_⟩, by simp [hreached], ?_,
      ((hopen.runStep.modTile _).modTile _).wordEnd w, ?_⟩
    · rw [getF_wordEnd, nextAt, getF_modTile, State.waited, getF_modTile, running]
    · exact congrArg Tile.nextIssue ((tile_wordEnd _ _ _).trans (congrArg (closeTile ∘ bumpTile w) waited))
    · rw [regs_wordEnd, nextAt, regs_modTile, State.waited, regs_modTile, hopen.regs]
    · exact (congrArg Tile.toks ((tile_wordEnd _ _ _).trans (congrArg (closeTile ∘ bumpTile w) waited))).trans
        (openTile_toks _ _)
    · rw [parts_wordEnd, nextAt, parts_modTile, State.waited, parts_modTile, hopen.parts]
  · have acts : (if tokReached (((s.openBundle g).tile g).tok (cTK w)) (cImm w) then
        ((s.openBundle g).waited g (cTK w)).nextAt g ((s.openBundle g).now + 1)
        else (s.openBundle g).startWait g (.tok (cTK w) (cImm w % 2 ^ 16) (s.openBundle g).bn)) =
        (s.openBundle g).startWait g (.tok (cTK w) (cImm w % 2 ^ 16) s.bn) := by
      rw [htile, openTile_tok, if_neg hreached, hopen.bn]
    obtain ⟨hrun, hstate, hwait, hparts⟩ := startWait_runs hopen.runStep (.tok (cTK w) (cImm w % 2 ^ 16) s.bn)
    rw [htile] at hwait
    refine ⟨_, congrArg Host.Outcome.next (ctlWord_executes h hslot hE hop hguard rfl none planned acts
      (by rw [hwait]; exact hfault) (by rw [hwait]; exact howed)), (absurd · hreached), fun _ => ⟨(getF_wordEnd ..).trans hstate, ?_⟩, ?_,
      hrun.wordEnd w, (parts_wordEnd ..).trans (hparts.trans hopen.parts)⟩
    · exact congrArg Tile.wait ((tile_wordEnd _ _ _).trans (congrArg (closeTile ∘ bumpTile w) hwait))
    · exact (congrArg Tile.toks ((tile_wordEnd _ _ _).trans (congrArg (closeTile ∘ bumpTile w) hwait))).trans
        (openTile_toks _ _)

end
end State
end Sys2Proof.Machine

namespace Sys2Proof
open Machine

theorem waitWords : Claims.WaitWords := by
  intro s g w n _ hslot hE h hguard t pos x
  constructor
  · intro hop
    obtain ⟨u, hexec, hahead, hnow, hlate, hrun, hparts⟩ := State.csWaitBeat_runs h hslot hE hguard hop
    exact ⟨u, hexec, hahead, hnow, hlate, hrun.frame_of_parts hparts, hrun.word, hrun.other⟩
  · intro hop hplan
    obtain ⟨u, hexec, hreached, hwaits, htoks, hrun, hparts⟩ := State.csWaitTok_runs h hslot hE hguard hop hplan
    exact ⟨u, hexec, hreached, hwaits, htoks, hrun.frame_of_parts hparts, hrun.word, hrun.other⟩

end Sys2Proof
end

section
/-! Arrivals and halts (R79, R82): the proof of `ControlWords`. -/

namespace Sys2Proof.Machine

theorem PartOnly.ite {p : Nat} {s t u : State} {c : Prop} [Decidable c] (ht : PartOnly p s t) (hu : PartOnly p s u) :
    PartOnly p s (if c then t else u) := by
  split
  · exact ht
  · exact hu

namespace State

variable {s : State} {g n : Nat} {w : Word}

/-- The tile of a kernel that has ended, in beat `bn`. -/
def idleTile (t : Tile) (bn : Nat) : Tile := { t with lastBusy := some bn, loops := [], shadowOn := false }

/-- What the end of a tile's kernel leaves of its partition: one tile less of the task, which is done with the last (R82). -/
def leaveTask (u : State) (p task : Nat) : State :=
  if mget 0 (u.part p).tileLeft task = 0 then u
  else if mget 0 (u.part p).tileLeft task = 1 then
    ((u.modPart p fun x => { x with tileLeft := mput 0 x.tileLeft task (mget 0 (u.part p).tileLeft task - 1) }).stashDone p
      task).taskDone p task
  else u.modPart p fun x => { x with tileLeft := mput 0 x.tileLeft task (mget 0 (u.part p).tileLeft task - 1) }

theorem leaveTask_partOnly (u : State) (p task : Nat) : PartOnly p u (u.leaveTask p task) := by
  have counted := PartOnly.modPart u p fun x =>
    { x with tileLeft := mput 0 x.tileLeft task (mget 0 (u.part p).tileLeft task - 1) }
  unfold leaveTask
  exact .ite (.refl p u) (.ite ((counted.trans (stashDone_partOnly _ p task).1).trans (taskDone_partOnly _ p task)) counted)

theorem leaveTask_of_last {u : State} {p task : Nat} (htask : task < 2 ^ 24) (hleft : mget 0 (u.part p).tileLeft task = 1) :
    ((u.leaveTask p task).part p).done.contains task = true ∧ mget 0 ((u.leaveTask p task).part p).tileLeft task = 0 := by
  rw [leaveTask, if_neg (by omega), if_pos hleft]
  refine ⟨done_taskDone _ p htask, ?_⟩
  rw [tileLeft_taskDone, (stashDone_partOnly _ p task).2.2, part_modPart, mget_mput_self, hleft]

theorem leaveTask_of_others {u : State} {p task : Nat} (hleft : 2 ≤ mget 0 (u.part p).tileLeft task) :
    ((u.leaveTask p task).part p).done = (u.part p).done ∧
      mget 0 ((u.leaveTask p task).part p).tileLeft task = mget 0 (u.part p).tileLeft task - 1 := by
  rw [leaveTask, if_neg (by omega), if_neg (by omega), part_modPart]
  exact ⟨rfl, mget_mput_self ..⟩

theorem haltTile_eq (u : State) (g : Nat) : u.haltTile g =
    ((u.putF F.TIL_STATUS_STATE g 0).modTile g fun t => idleTile t u.bn).leaveTask (u.tilePart g)
      (u.getF F.TIL_STATUS_TASK g) := rfl

theorem haltTile_runs {u : State} (h : RunStep s g n u) : RunStep s g n (u.haltTile g) ∧
    (u.haltTile g).getF F.TIL_STATUS_STATE g = 0 ∧ (u.haltTile g).tile g = idleTile (u.tile g) u.bn := by
  have idle : RunStep s g n ((u.putF F.TIL_STATUS_STATE g 0).modTile g fun t => idleTile t u.bn) := (h.putF rfl 0).modTile _
  have left := leaveTask_partOnly ((u.putF F.TIL_STATUS_STATE g 0).modTile g fun t => idleTile t u.bn) (u.tilePart g)
    (u.getF F.TIL_STATUS_TASK g)
  rw [haltTile_eq]
  refine ⟨idle.partOnly left, ?_, ?_⟩
  · rw [left.getF, getF_modTile, getF_putF _ _ _ _ (by decide) (by decide)]
    rfl
  · rw [left.tile, tile_modTile, tile_putF]

theorem tokenBad_openBundle (h : TileStep s g n (s.openBundle g)) (a : Nat) : (s.openBundle g).tokenBad g a = s.tokenBad g a := by
  simp only [tokenBad, h.tilePart, h.hasCluster]

/-- An armed arrival (R79). -/
def armTile (t : Tile) (c a : Nat) : Tile := { t with arrives := t.arrives ++ [{ at_ := c, token := a }] }

theorem arm_openBundle (h : Issues s g w n) (a : Nat) : (s.openBundle g).arm g a =
    (s.openBundle g).modTile g fun t => armTile t ((s.tile g).pend.foldl (fun m x => max m x.vis) (n + 1)) a := by
  obtain ⟨hopen, htile⟩ := openBundle_of_issues h
  have visible : (s.openBundle g).allVisible g = (s.tile g).pend.foldl (fun m x => max m x.vis) (n + 1) := by
    rw [allVisible, htile, openTile_pend, hopen.now]
  rw [arm, visible]
  rfl

section
variable (h : Issues s g w n) (hslot : wSlot w = 3) (hE : wE w = true) (hguard : guardOk (s.tile g) w = true)
include h hslot hE hguard

/-- `cs.arrive` (R79). -/
theorem csArrive_tile (hop : wOp w = 0x25) (hplan : Planned s g w) (htok : s.tokenBad g ((s.tile g).s (cSA w)).toNat = false) :
    ∃ u, exec (.csArrive g w) s = .next u ∧ TileStep s g n u ∧ u.tile g = closeTile (bumpTile w (armTile
      (openTile (s.tile g) n) ((s.tile g).pend.foldl (fun m x => max m x.vis) (n + 1)) ((s.tile g).s (cSA w)).toNat)) := by
  obtain ⟨hopen, htile⟩ := openBundle_of_issues h
  obtain ⟨hfault, -, howed⟩ := openTile_ends h hE
  refine ⟨_, rfl, ctlWord_tile h hslot hE hop hguard rfl _ ?_ ?_ ?_ hfault howed⟩
  · simp only [htile, openTile_s, tokenBad_openBundle hopen, htok, mayVary_openTile, mayVary_of_planned hplan]
    rfl
  · rw [arm_openBundle h]
    exact hopen.modTile _
  · rw [arm_openBundle h, tile_modTile, htile, openTile_s]

/-- `cs.halt` (R82): `v` is the state before the tile is idle. -/
theorem csHalt_runs (hop : wOp w = 0x26) (hplan : Planned s g w)
    (htok : cI w = true ∨ s.tokenBad g ((s.tile g).s (cSA w)).toNat = false) :
    ∃ v, exec (.csHalt g w) s = .next ((v.haltTile g).wordEnd g w) ∧ TileStep s g n v ∧
      v.tile g = if cI w then openTile (s.tile g) n else armTile (openTile (s.tile g) n)
        ((s.tile g).pend.foldl (fun m x => max m x.vis) (n + 1)) ((s.tile g).s (cSA w)).toNat := by
  obtain ⟨hopen, htile⟩ := openBundle_of_issues h
  obtain ⟨hfault, -, howed⟩ := openTile_ends h hE
  have executes {v : State} (hv : (if cI w then s.openBundle g
        else (s.openBundle g).arm g (((s.openBundle g).tile g).s (cSA w)).toNat) = v)
      (hstep : TileStep s g n v) (hf : (v.tile g).fault = none) (ho : (v.tile g).owed = []) :
      exec (.csHalt g w) s = .next ((v.haltTile g).wordEnd g w) := by
    obtain ⟨-, -, hidle⟩ := haltTile_runs hstep.runStep
    refine congrArg Host.Outcome.next (ctlWord_executes h hslot hE hop hguard rfl _ ?_ (congrArg (haltTile · g) hv)
      (by rw [hidle]; exact hf) (by rw [hidle]; exact ho))
    simp only [htile, openTile_s, tokenBad_openBundle hopen, mayVary_openTile, mayVary_of_planned hplan]
    rcases htok with hI | htok
    · rw [if_pos hI]
    · simp [htok]
  by_cases hI : cI w = true
  · exact ⟨s.openBundle g, executes (if_pos hI) hopen (by rw [htile]; exact hfault) (by rw [htile]; exact howed), hopen,
      by rw [if_pos hI, htile]⟩
  · have armed := arm_openBundle h ((s.tile g).s (cSA w)).toNat
    have tile_eq := tile_modTile (s.openBundle g) g fun t =>
      armTile t ((s.tile g).pend.foldl (fun m x => max m x.vis) (n + 1)) ((s.tile g).s (cSA w)).toNat
    rw [htile] at tile_eq
    refine ⟨_, executes ?_ (hopen.modTile fun t =>
      armTile t ((s.tile g).pend.foldl (fun m x => max m x.vis) (n + 1)) ((s.tile g).s (cSA w)).toNat)
      (by rw [tile_eq]; exact hfault) (by rw [tile_eq]; exact howed), hopen.modTile _, by rw [if_neg hI, tile_eq]⟩
    rw [if_neg hI, htile, openTile_s, armed]

end
end State
end Sys2Proof.Machine

namespace Sys2Proof
open Machine

theorem arriveAndHalt : Claims.ArriveAndHalt := by
  intro s g w n _ hslot hE h hplan hguard t a c task left
  constructor
  · intro hop htok
    obtain ⟨u, hexec, hstep, hu⟩ := State.csArrive_tile h hslot hE hguard hop hplan htok
    refine ⟨u, hexec, (congrArg Tile.arrives hu).trans ?_, (congrArg Tile.pend hu).trans (openTile_pend _ _),
      (congrArg Tile.toks hu).trans (openTile_toks _ _), hstep.frame, hstep.other⟩
    exact congrArg (· ++ [{ at_ := c, token := a }]) (openTile_arrives t n)
  · intro hop htok
    obtain ⟨v, hexec, hstep, hv⟩ := State.csHalt_runs h hslot hE hguard hop hplan htok
    obtain ⟨hrun, hstate, hidle⟩ := State.haltTile_runs hstep.runStep
    obtain ⟨-, hjump, -⟩ := State.openTile_ends h hE
    have tile_eq : ((v.haltTile g).wordEnd g w).tile g = closeTile (bumpTile w (State.idleTile (v.tile g) s.bn)) := by
      rw [State.tile_wordEnd, hidle, hstep.bn]
    have jump_eq : (v.tile g).jump = none := by
      rw [hv]
      split <;> exact hjump
    have arrives_eq : (v.tile g).arrives = if cI w then t.arrives else t.arrives ++ [{ at_ := c, token := a }] := by
      rw [hv]
      split
      · exact openTile_arrives _ _
      · exact congrArg (· ++ [{ at_ := c, token := a }]) (openTile_arrives t n)
    have pend_eq : (v.tile g).pend = t.pend := by
      rw [hv]
      split <;> exact openTile_pend _ _
    have task_lt : task < 2 ^ 24 := s.getF_lt _ _
    -- the partition's count of the task's tiles, as the halt finds it
    have halted : v.haltTile g = ((v.putF F.TIL_STATUS_STATE g 0).modTile g fun t => State.idleTile t v.bn).leaveTask
        (s.tilePart g) task := by rw [State.haltTile_eq, hstep.tilePart, hstep.getF]
    have part_eq : ((v.putF F.TIL_STATUS_STATE g 0).modTile g fun t => State.idleTile t v.bn).part (s.tilePart g) =
        s.part (s.tilePart g) := hstep.part _
    refine ⟨_, hexec, ?_, (congrArg Tile.arrives tile_eq).trans arrives_eq, ?_, congrArg Tile.lastBusy tile_eq,
      (congrArg Tile.pend tile_eq).trans pend_eq, fun hleft => ?_, fun hleft => ?_, fun hleft => ?_, (hrun.wordEnd w).frame,
      (hrun.wordEnd w).word, (hrun.wordEnd w).other⟩
    · rw [State.getF_wordEnd, hstate]
    · rw [congrArg Tile.loops tile_eq]
      simp only [closeTile, flowAfter, bumpTile, State.idleTile, jump_eq, State.backEdge]
    · rw [State.parts_wordEnd, halted, State.leaveTask, if_pos (by rw [part_eq]; exact hleft)]
      exact hstep.parts
    · rw [State.part_wordEnd, halted]
      exact State.leaveTask_of_last task_lt (by rw [part_eq]; exact hleft)
    · rw [State.part_wordEnd, halted]
      have others := State.leaveTask_of_others (p := s.tilePart g) (task := task)
        (u := (v.putF F.TIL_STATUS_STATE g 0).modTile g fun t => State.idleTile t v.bn) (by rw [part_eq]; exact hleft)
      rwa [part_eq] at others

/-- Settles O21: a control word that ends its bundle has its effect, and the tile goes on behind it, at its branch or at its
loop. -/
theorem controlWords : Obligations.ControlWords := by
  unfold Obligations.ControlWords
  exact ⟨branchesAndLoops, waitWords, arriveAndHalt⟩

end Sys2Proof
end

section
/-! SUPPORT. What a module fault and the stop of a plan can change (R85, R311 to R321, R361): neither memory nor time, and no result
comes into flight. -/

namespace Sys2Proof.Machine

/-- From `s` to `t` the effects of a module fault: memory, time and link keys stand, no result is in flight that was not,
and no frozen channel runs again. -/
structure FaultStep (s t : State) : Prop where
  frame : t = { s with
    regs := t.regs, tiles := t.tiles, parts := t.parts, ochre := t.ochre, ports := t.ports, movers := t.movers,
    cmovers := t.cmovers, queues := t.queues, test := t.test, out := t.out }
  pend : ∀ g, ∀ x ∈ (t.tile g).pend, x ∈ (s.tile g).pend
  frozen : ∀ c, (s.cmover c).frozen = true → (t.cmover c).frozen = true

namespace FaultStep

variable {s t u : State}

theorem refl (s : State) : FaultStep s s := ⟨rfl, fun _ _ hx => hx, fun _ hc => hc⟩

theorem trans (hst : FaultStep s t) (htu : FaultStep t u) : FaultStep s u where
  frame := calc
    u = { t with regs := u.regs, tiles := u.tiles, parts := u.parts, ochre := u.ochre, ports := u.ports, movers := u.movers,
                 cmovers := u.cmovers, queues := u.queues, test := u.test, out := u.out } := htu.frame
    _ = { s with regs := u.regs, tiles := u.tiles, parts := u.parts, ochre := u.ochre, ports := u.ports, movers := u.movers,
                 cmovers := u.cmovers, queues := u.queues, test := u.test, out := u.out } := by rw [hst.frame]
  pend := fun g x hx => hst.pend g x (htu.pend g x hx)
  frozen := fun c hc => htu.frozen c (hst.frozen c hc)

theorem now (h : FaultStep s t) : t.now = s.now := by rw [h.frame]

theorem mem (h : FaultStep s t) : t.mem = s.mem := by rw [h.frame]

variable (h : FaultStep s t)
include h

theorem ite {c : Prop} [Decidable c] (hu : FaultStep s u) : FaultStep s (if c then u else t) := by
  split
  · exact hu
  · exact h

theorem foldl {α : Type} {act : State → α → State} (hact : ∀ v x, FaultStep v (act v x)) (l : List α) :
    FaultStep s (l.foldl act t) := by
  induction l generalizing t with
  | nil => exact h
  | cons x l ih => exact ih (h.trans (hact t x))

theorem putF (f : Fld) (i v : Nat) : FaultStep s (t.putF f i v) := h.trans ⟨rfl, fun _ _ hx => hx, fun _ hc => hc⟩

theorem bump (f : Fld) (i : Nat) : FaultStep s (t.bump f i) := h.putF f i _

theorem modPart (p : Nat) (f : Part → Part) : FaultStep s (t.modPart p f) := h.trans ⟨rfl, fun _ _ hx => hx, fun _ hc => hc⟩

theorem setPort (k : Nat) (x : Port) : FaultStep s (t.setPort k x) := h.trans ⟨rfl, fun _ _ hx => hx, fun _ hc => hc⟩

theorem setOch (e q : Nat) (x : OchreQ) : FaultStep s (t.setOch e q x) := h.trans ⟨rfl, fun _ _ hx => hx, fun _ hc => hc⟩

theorem modMover (i : Nat) (f : Mover → Mover) : FaultStep s (t.modMover i f) := h.trans ⟨rfl, fun _ _ hx => hx, fun _ hc => hc⟩

theorem modCmover (c : Nat) {f : CMover → CMover} (hf : (f (t.cmover c)).frozen = (t.cmover c).frozen) :
    FaultStep s (t.modCmover c f) := h.trans ⟨rfl, fun _ _ hx => hx, fun k hk => by
  by_cases hkc : k = c
  · rw [hkc] at hk ⊢
    rw [State.modCmover_eq, State.cmover_setCmover, hf]
    exact hk
  · rw [State.modCmover_eq, State.cmover_setCmover_ne _ _ hkc]
    exact hk⟩

theorem setQueue (q : Nat) (x : Queue) : FaultStep s (t.setQueue q x) := h.trans ⟨rfl, fun _ _ hx => hx, fun _ hc => hc⟩

theorem emit (o : Out) : FaultStep s (t.emit o) := h.trans ⟨rfl, fun _ _ hx => hx, fun _ hc => hc⟩

theorem portsOut (hu : PortsOut t u) : FaultStep s u := h.trans ⟨by rw [hu.frame], fun g x hx => by rwa [hu.tile] at hx,
  fun c hc => by rw [hu.frame]; exact hc⟩

theorem modTile (g : Nat) {f : Tile → Tile} (hf : ∀ x ∈ (f (t.tile g)).pend, x ∈ (t.tile g).pend) :
    FaultStep s (t.modTile g f) := h.trans ⟨rfl, fun k x hx => by
  by_cases hk : k = g
  · subst hk
    rw [State.tile_modTile] at hx
    exact hf x hx
  · rwa [State.modTile, State.tile_setTile_ne _ _ hk] at hx,
  fun _ hc => hc⟩

theorem elog (src idx cause detail : Nat) : FaultStep s (t.elog src idx cause detail) := by
  have logged (l : List (Nat × Nat × Nat × Nat × Nat)) : FaultStep s { t with test := { t.test with elog := l } } :=
    h.trans ⟨rfl, fun _ _ hx => hx, fun _ hc => hc⟩
  unfold State.elog
  dsimp only
  split
  · exact logged _
  · exact (logged _).bump _ _

theorem signalQ (q : Nat) : FaultStep s (t.signalQ q) := (h.emit _).ite (h.emit _)

theorem pevt (p bit : Nat) : FaultStep s (t.pevt p bit) := (h.putF _ _ _).signalQ _

theorem setRun (p : Nat) (b : Bool) : FaultStep s (t.setRun p b) := (h.putF _ _ _).putF _ _ _

theorem planStop (p cause : Nat) : FaultStep s (t.planStop p cause) := by
  unfold State.planStop
  refine pevt (foldl ((((h.setRun p false).modPart p _).putF _ _ _).putF _ _ _) (fun v i => ?_) _) _ _
  exact (refl v).ite (((refl v).setQueue _ _).signalQ _)

theorem sendReportTo (p : Nat) (r : CommitReport) (q : Nat) : FaultStep s (t.sendReportTo p r q) := by
  unfold State.sendReportTo
  split
  · exact h
  · split
    · exact h.bump _ _
    · exact (h.emit _).portsOut ((PortsOut.refl _).queueMsg ..)

theorem sendReport (p : Nat) (r : CommitReport) : FaultStep s (t.sendReport p r) :=
  h.foldl (fun v _ => (refl v).sendReportTo p _ _) _

theorem stopTile (g : Nat) : FaultStep s (t.stopTile g) := by
  unfold State.stopTile
  refine h.ite ((h.putF _ _ _).modTile g fun x hx => ?_)
  exact (List.mem_filter.mp hx).1

theorem restoreTile (g : Nat) : FaultStep s (t.restoreTile g) := by
  unfold State.restoreTile
  exact (h.ite (h.putF _ _ _)).modTile g fun x hx => (List.mem_filter.mp hx).1

theorem stopRolled (p cause : Nat) : FaultStep s (t.stopRolled p cause) :=
  (h.foldl (fun v g => (refl v).restoreTile g) _).planStop p cause

theorem ochRollback (p step e : Nat) : FaultStep s (t.ochRollback p step e) := by
  unfold State.ochRollback
  exact (h.setOch _ _ _).ite h

theorem dropUnsent (p : Nat) (keep : Nat → Bool) : FaultStep s (t.dropUnsent p keep) :=
  h.foldl (fun v _ => (refl v).setPort _ _) _

/-- A rollback of the step drops results in flight at most. -/
theorem rollback (p : Nat) (r : CommitReport) : FaultStep s (t.rollback p r) := by
  unfold State.rollback
  extract_lets x k wait joined told step stopped restored channels movers engines queues waits keep stale unsent cleared counted
    attempt shown noted open_
  refine FaultStep.ite ?_ ?_
  · have hstopped : FaultStep s stopped := h.foldl (fun v g => (refl v).stopTile g) _
    have hrestored : FaultStep s restored := hstopped.foldl (fun v g => ((refl v).restoreTile g).ite (refl v)) _
    have hchannels : FaultStep s channels := hrestored.foldl (fun v c => (refl v).foldl (fun v ch => (refl v).modCmover _ rfl) _) _
    have hmovers : FaultStep s movers := hchannels.foldl (fun v i => by
      split
      · exact (refl v).ite ((refl v).modMover _ _)
      · exact refl v) _
    have hengines : FaultStep s engines := hmovers.foldl (fun v e => (refl v).ochRollback p step e) _
    have hqueues : FaultStep s queues := hengines.foldl (fun v i => (refl v).setQueue _ _) _
    have hcleared : FaultStep s cleared := (hqueues.dropUnsent p keep).modPart p _
    have hshown : FaultStep s shown := ((hcleared.bump _ _).putF _ _ _).putF _ _ _
    have hnoted : FaultStep s noted := (((hshown.putF _ _ _).putF _ _ _).putF _ _ _).putF _ _ _
    have hopen : FaultStep s open_ := ((hnoted.modPart p _).putF _ _ _).ite hnoted
    exact hopen.ite (hopen.stopRolled p r.cause)
  · have hjoined : FaultStep s joined := h.modPart p _
    have htold : FaultStep s told := hjoined.ite ((((hjoined.putF _ _ _).putF _ _ _).putF _ _ _).putF _ _ _)
    exact htold.putF _ _ _

theorem moduleFaultAt (p cause task : Nat) (stop : Bool) (detail : Nat) :
    FaultStep s (t.moduleFaultAt p cause task stop detail) := by
  unfold State.moduleFaultAt
  extract_lets logged x stopping r sent
  have hlogged : FaultStep s logged := h.elog _ _ _ _
  have hstopping : FaultStep s stopping := hlogged.ite (hlogged.modPart p _)
  have hsent : FaultStep s sent := hstopping.foldl (fun v d => (refl v).sendReport p _) _
  exact ((hsent.rollback p r).ite (hsent.modPart p _)).ite hlogged

theorem moduleFault (p cause task : Nat) (stop : Bool) : FaultStep s (t.moduleFault p cause task stop) :=
  h.moduleFaultAt p cause task stop 0

end FaultStep
end Sys2Proof.Machine
end

section
/-! SUPPORT. A result in flight that becomes visible (R62 to R64). -/

namespace Sys2Proof.Machine

/-! ## Memory written -/

/-- From `s` to `t` only memory and the bytes kept of it differ. -/
structure MemOnly (s t : State) : Prop where
  frame : t = { s with mem := t.mem, history := t.history }

namespace MemOnly

variable {s t u : State}

theorem refl (s : State) : MemOnly s s := ⟨rfl⟩

theorem trans (hst : MemOnly s t) (htu : MemOnly t u) : MemOnly s u where
  frame := calc
    u = { t with mem := u.mem, history := u.history } := htu.frame
    _ = { s with mem := u.mem, history := u.history } := by rw [hst.frame]

theorem wrOwn (h : MemOnly s t) (a : Nat) (l : List Byte) : MemOnly s (t.wrOwn a l) := by
  induction l generalizing t a with
  | nil => exact h
  | cons b l ih => exact ih (h.trans ⟨rfl⟩) (a + 1)

theorem wr (h : MemOnly s t) (a : Nat) (l : List Byte) : MemOnly s (t.wr a l) := by
  induction l generalizing t a with
  | nil => exact h
  | cons b l ih => exact ih (h.trans ⟨rfl⟩) (a + 1)

theorem wrAll (h : MemOnly s t) (ws : List (Nat × List Byte)) : MemOnly s (t.wrAll ws) := by
  induction ws generalizing t with
  | nil => exact h
  | cons w ws ih => exact ih (h.wrOwn w.1 w.2)

theorem now (h : MemOnly s t) : t.now = s.now := by rw [h.frame]

theorem regs (h : MemOnly s t) : t.regs = s.regs := by rw [h.frame]

theorem tile (h : MemOnly s t) (g : Nat) : t.tile g = s.tile g := by rw [h.frame]; rfl

end MemOnly

namespace State

theorem rd8_congr {s t : State} (h : t.mem = s.mem) (a : Nat) : t.rd8 a = s.rd8 a := by rw [rd8, h, rd8]

theorem rd_congr {s t : State} (h : t.mem = s.mem) (a n : Nat) : t.rd a n = s.rd a n := by
  induction n generalizing a with
  | zero => rfl
  | succ n ih => rw [rd, rd, ih, rd8_congr h]

/-- A tile's own bytes are those of any write. -/
theorem mem_wrOwn {s t : State} (h : t.mem = s.mem) (a : Nat) (l : List Byte) : (t.wrOwn a l).mem = (s.wr a l).mem := by
  induction l generalizing s t a with
  | nil => exact h
  | cons b l ih => exact ih (congrArg (fun m => mput 0 m a b) h) (a + 1)

theorem mem_wrOwn_congr {s t : State} (h : t.mem = s.mem) (a : Nat) (l : List Byte) : (t.wrOwn a l).mem = (s.wrOwn a l).mem :=
  (mem_wrOwn h a l).trans (mem_wrOwn rfl a l).symm

theorem mem_wrAll_congr {s t : State} (h : t.mem = s.mem) (ws : List (Nat × List Byte)) :
    (t.wrAll ws).mem = (s.wrAll ws).mem := by
  induction ws generalizing s t with
  | nil => exact h
  | cons w ws ih => exact ih (mem_wrOwn_congr h w.1 w.2)

end State

/-! ## Counts of what has been stored -/

/-- From `s` to `t` only registers and partitions differ. -/
structure RegsPartsOnly (s t : State) : Prop where
  frame : t = { s with regs := t.regs, parts := t.parts }

namespace RegsPartsOnly

variable {s t u : State}

theorem refl (s : State) : RegsPartsOnly s s := ⟨rfl⟩

theorem trans (hst : RegsPartsOnly s t) (htu : RegsPartsOnly t u) : RegsPartsOnly s u where
  frame := calc
    u = { t with regs := u.regs, parts := u.parts } := htu.frame
    _ = { s with regs := u.regs, parts := u.parts } := by rw [hst.frame]

theorem mem (h : RegsPartsOnly s t) : t.mem = s.mem := by rw [h.frame]

theorem tiles (h : RegsPartsOnly s t) : t.tiles = s.tiles := by rw [h.frame]

theorem tile (h : RegsPartsOnly s t) (g : Nat) : t.tile g = s.tile g := by rw [State.tile, h.tiles, State.tile]

theorem now (h : RegsPartsOnly s t) : t.now = s.now := by rw [h.frame]

variable (h : RegsPartsOnly s t)
include h

theorem ite {c : Prop} [Decidable c] (hu : RegsPartsOnly s u) : RegsPartsOnly s (if c then u else t) := by
  split
  · exact hu
  · exact h

theorem foldl {α : Type} {act : State → α → State} (hact : ∀ v x, RegsPartsOnly v (act v x)) (l : List α) :
    RegsPartsOnly s (l.foldl act t) := by
  induction l generalizing t with
  | nil => exact h
  | cons x l ih => exact ih (h.trans (hact t x))

theorem putF (f : Fld) (i v : Nat) : RegsPartsOnly s (t.putF f i v) := h.trans ⟨rfl⟩

theorem modPart (p : Nat) (f : Part → Part) : RegsPartsOnly s (t.modPart p f) := h.trans ⟨rfl⟩

theorem addEvents (g : Nat) (e : LaneEv) : RegsPartsOnly s (t.addEvents g e) :=
  (((h.putF _ _ _).putF _ _ _).putF _ _ _).putF _ _ _

theorem chargeSat (p task a n : Nat) : RegsPartsOnly s (t.chargeSat p task a n) := by
  unfold State.chargeSat
  split
  · exact h
  · split
    · exact h
    · exact h.modPart p _

theorem chargeBlock (p task share a f : Nat) (codes : List Nat) (bytes : List Byte) :
    RegsPartsOnly s (t.chargeBlock p task share a f codes bytes) := by
  unfold State.chargeBlock
  split
  · exact h
  · exact h.modPart p _

theorem chargeAmax (p task a : Nat) (am : W32) : RegsPartsOnly s (t.chargeAmax p task a am) := by
  unfold State.chargeAmax
  split
  · exact h
  · exact h.modPart p _

theorem chargeRun (g : Nat) (x : Pend) (dd : Desc) (o : ChainOut) : RegsPartsOnly s (t.chargeRun g x dd o) := by
  unfold State.chargeRun
  extract_lets p f charged
  have hcharged : RegsPartsOnly s charged := h.chargeSat _ _ _ _
  refine hcharged.foldl (fun v b => ?_) _
  extract_lets a codes bytes counted
  have hcounted : RegsPartsOnly v counted := ((refl v).chargeSat _ _ _ _).chargeBlock _ _ _ _ _ _ _
  exact hcounted.ite (hcounted.chargeAmax _ _ _ _)

end RegsPartsOnly

namespace State

variable {s : State} {g : Nat} {x : Pend}

/-- With the checker off no line of the Cluster Store is noted (R53). -/
theorem noteLines_of_off {p : Nat} (hoff : s.checkerOn p = false) (task master a n : Nat) :
    s.noteLines p task master a n = s := by
  rw [noteLines, if_pos (by simp [hoff])]

/-! ## What a result does -/

theorem applyEff_sreg {r : Nat} {v sh : Word} (h : x.eff = .sreg r v sh) :
    s.applyEff g x = s.setTile g ((s.tile g).setS r v sh) := by rw [applyEff, h]

theorem applyEff_dreg {r : Nat} {v sh : Desc} (h : x.eff = .dreg r v sh) :
    s.applyEff g x = s.setTile g ((s.tile g).setD r v sh) := by rw [applyEff, h]

theorem applyEff_preg {r : Nat} {b : Bool} (h : x.eff = .preg r b) :
    s.applyEff g x = s.setTile g ((s.tile g).setP r b) := by rw [applyEff, h]

theorem applyEff_mem {a : Nat} {l : List Byte} (h : x.eff = .mem a l) (hoff : s.checkerOn (s.tilePart g) = false) :
    s.applyEff g x = s.wrOwn a l := by
  have written := (MemOnly.refl s).wrOwn a l
  have off : (s.wrOwn a l).checkerOn (s.tilePart g) = false := by
    rw [written.frame]
    exact hoff
  rw [applyEff, h]
  exact noteLines_of_off off _ _ _ _

theorem applyEff_bank {b : Nat} {v : Bank} (h : x.eff = .bank b v) :
    s.applyEff g x = s.setTile g { s.tile g with banks := mput Bank.zero (s.tile g).banks b v } := by rw [applyEff, h]

theorem applyEff_mult {m : MulMode} {b : Nat} {da db : Desc} {z : Bool} (h : x.eff = .mult m b da db z) :
    s.applyEff g x = s.setTile g { s.tile g with
      banks := mput Bank.zero (s.tile g).banks b (multiply s.memAt x.issue g m z da db ((s.tile g).bank b)) } := by
  rw [applyEff, h]

theorem applyEff_cfg {c : Nat} {e : List Byte} (h : x.eff = .cfg c e) :
    s.applyEff g x = s.setTile g { s.tile g with chains := mput [] (s.tile g).chains c e } := by rw [applyEff, h]

theorem applyEff_block {a f sat : Nat} {bytes : List Byte} {am : Option W32} (h : x.eff = .block a f sat bytes am) :
    RegsPartsOnly s (s.applyEff g x) := by
  rw [applyEff, h]
  have counted := ((RegsPartsOnly.refl s).chargeSat (s.tilePart g) x.task a sat).chargeBlock (s.tilePart g) x.task x.share a f
    (if f = 5 then [] else (List.range 16384).map fun i => leNat ((bytes.drop (elemBytes f * i)).take (elemBytes f))) bytes
  dsimp only
  cases am with
  | none => exact counted
  | some v => exact counted.chargeAmax _ _ _ _

/-- What the run of a chain gives. -/
def runOf (s : State) (g : Nat) (x : Pend) (e : List Byte) (dd da db dm : Desc) (msk : Bool) (tr : List (Nat × List Byte)) :
    ChainOut :=
  chainRun { g := g, t0 := x.issue, e := e, dd := dd, da := da, db := db, dm := dm, msk := msk,
             key := s.srKey (s.tilePart g) (eTensor e), trailers := tr } s.memAt s.rd8 (s.tile g).carry

theorem applyEff_chain {e : List Byte} {dd da db dm : Desc} {msk : Bool} {tr : List (Nat × List Byte)}
    (h : x.eff = .chain e dd da db dm msk tr) :
    RegsPartsOnly ((if x.issue < (s.tile g).restored then s
        else s.setTile g { s.tile g with carry := (s.runOf g x e dd da db dm msk tr).carry }).wrAll
          (s.runOf g x e dd da db dm msk tr).writes) (s.applyEff g x) := by
  rw [applyEff, h]
  exact ((RegsPartsOnly.refl _).addEvents _ _).chargeRun _ _ _ _

/-- The channel of a submitted descriptor, which is not frozen, has its chain behind the others. -/
theorem applyEff_dma {ch tk a pc task : Nat} (h : x.eff = .dma ch tk a pc task)
    (hfrozen : (s.cmover (8 * (g / 8) + ch)).frozen = false) :
    s.applyEff g x = (s.setTile g { s.tile g with dmaPc := mput (0, 0) (s.tile g).dmaPc ch (pc, task) }).modCmover
      (8 * (g / 8) + ch) fun m => { m with chains := m.chains ++
        [{ tile := some g, token := tk, part := s.tilePart g, task := task, addr := a, desc := none, since := some x.issue }] } := by
  rw [applyEff, h]
  simp only [cmover_setTile, hfrozen, Bool.false_eq_true, if_false]

theorem applyEff_dma_frozen {ch tk a pc task : Nat} (h : x.eff = .dma ch tk a pc task)
    (hfrozen : (s.cmover (8 * (g / 8) + ch)).frozen = true) :
    s.applyEff g x = (s.setTile g { s.tile g with dmaPc := mput (0, 0) (s.tile g).dmaPc ch (pc, task) }).moduleFault
      (s.tilePart g) 0x0C task false := by
  rw [applyEff, h]
  simp only [cmover_setTile, hfrozen, if_true]

/-- A result that becomes visible leaves time, and brings no other into flight. -/
theorem applyEff_lands (hoff : s.checkerOn (s.tilePart g) = false) :
    (s.applyEff g x).now = s.now ∧ ∀ y ∈ ((s.applyEff g x).tile g).pend, y ∈ (s.tile g).pend := by
  have tile_only {t : Tile} (ht : t.pend = (s.tile g).pend) :
      (s.setTile g t).now = s.now ∧ ∀ y ∈ ((s.setTile g t).tile g).pend, y ∈ (s.tile g).pend := by
    refine ⟨rfl, fun y hy => ?_⟩
    rwa [tile_setTile, ht] at hy
  have same {t : State} (hnow : t.now = s.now) (ht : (t.tile g).pend = (s.tile g).pend) :
      t.now = s.now ∧ ∀ y ∈ (t.tile g).pend, y ∈ (s.tile g).pend := ⟨hnow, fun y hy => by rwa [ht] at hy⟩
  cases h : x.eff with
  | sreg r v sh =>
    rw [applyEff_sreg h]
    exact tile_only (by unfold Tile.setS; split <;> rfl)
  | dreg r v sh =>
    rw [applyEff_dreg h]
    exact tile_only rfl
  | preg r b =>
    rw [applyEff_preg h]
    exact tile_only (by unfold Tile.setP; split <;> rfl)
  | mem a l =>
    rw [applyEff_mem h hoff]
    have written := (MemOnly.refl s).wrOwn a l
    exact same (by rw [written.frame]) (by rw [written.frame]; rfl)
  | bank b v =>
    rw [applyEff_bank h]
    exact tile_only rfl
  | mult m b da db z =>
    rw [applyEff_mult h]
    exact tile_only rfl
  | cfg c e =>
    rw [applyEff_cfg h]
    exact tile_only rfl
  | block a f sat bytes am =>
    have counted := applyEff_block (s := s) (g := g) h
    exact same counted.now (by rw [counted.tile])
  | chain e dd da db dm msk tr =>
    have counted := applyEff_chain (s := s) (g := g) h
    have written (t : State) := (MemOnly.refl t).wrAll (s.runOf g x e dd da db dm msk tr).writes
    refine same (counted.now.trans ?_) (congrArg Tile.pend (counted.tile g) |>.trans ?_)
    · rw [(written _).now]
      split <;> rfl
    · rw [(written _).tile]
      split
      · rfl
      · rw [tile_setTile]
  | dma ch tk a pc task =>
    have noted := tile_only (t := { s.tile g with dmaPc := mput (0, 0) (s.tile g).dmaPc ch (pc, task) }) rfl
    cases hfrozen : (s.cmover (8 * (g / 8) + ch)).frozen with
    | false =>
      rw [applyEff_dma h hfrozen]
      exact noted
    | true =>
      rw [applyEff_dma_frozen h hfrozen]
      have fault := (FaultStep.refl (s.setTile g { s.tile g with dmaPc := mput (0, 0) (s.tile g).dmaPc ch (pc, task) })).moduleFault
        (s.tilePart g) 0x0C task false
      exact ⟨fault.now.trans noted.1, fun y hy => noted.2 y (fault.pend g y hy)⟩

end State
end Sys2Proof.Machine
end

section
/-! The one result in flight becomes visible in its cycle (R62): the proof of `ResultsBecomeVisible`. -/

namespace Sys2Proof.Machine

/-- In a map with rising keys an entry stands alone with its key. -/
theorem split_of_mget {α : Type} {d : α} {m : List (Nat × α)} (hm : m.Pairwise fun a b => a.1 < b.1) {k : Nat}
    (hk : mget d m k ≠ d) : ∃ l₁ l₂, m = l₁ ++ (k, mget d m k) :: l₂ ∧ ∀ y ∈ l₁ ++ l₂, y.1 ≠ k := by
  induction m with
  | nil => exact absurd rfl hk
  | cons c m ih =>
    obtain ⟨hc, hm⟩ := List.pairwise_cons.mp hm
    by_cases h : c.1 = k
    · refine ⟨[], m, ?_, fun y hy => (h ▸ hc y hy).ne'⟩
      rw [mget, if_pos h, ← h]
      rfl
    · rw [mget, if_neg h] at hk ⊢
      obtain ⟨l₁, l₂, heq, hne⟩ := ih hm hk
      refine ⟨c :: l₁, l₂, congrArg (c :: ·) heq, fun y hy => ?_⟩
      rcases List.mem_cons.mp hy with rfl | hy
      · exact h
      · exact hne y hy

/-- A fold whose every step leaves the start gives the start. -/
theorem foldl_of_fixed {α β : Type} {f : β → α → β} {m : β} {l : List α} (h : ∀ y ∈ l, f m y = m) : l.foldl f m = m := by
  induction l with
  | nil => rfl
  | cons y l ih =>
    obtain ⟨hy, hl⟩ := List.forall_mem_cons.mp h
    rw [List.foldl_cons, hy, ih hl]

namespace State

variable {s : State} {g : Nat} {x : Pend}

/-- The tile without a result that has become visible. -/
def dropLanded (x : Pend) (t : Tile) : Tile := { t with pend := t.pend.filter fun y => y.seq ≠ x.seq ∨ y.eff ≠ x.eff }

/-- Result `x` of tile `g` takes effect, time having come to its cycle. -/
def landing (s : State) (g : Nat) (x : Pend) : State := ({ s with now := max s.now x.vis } : State).applyEff g x

theorem with_now_self {t : State} {n : Nat} (h : t.now = n) : { t with now := n } = t := by
  subst h
  rfl

section
variable (hpend : (s.tile g).pend = [x]) (hothers : ∀ y ∈ s.tiles, y.1 ≠ g → y.2.pend = [])
  (hsorted : s.tiles.Pairwise fun a b => a.1 < b.1)
include hpend hothers hsorted

theorem tiles_of_one_result : ∃ l₁ l₂, s.tiles = l₁ ++ (g, s.tile g) :: l₂ ∧
    (∀ y ∈ l₁, y.2.pend = []) ∧ ∀ y ∈ l₂, y.2.pend = [] := by
  have hne : mget Tile.reset s.tiles g ≠ Tile.reset := fun h => by
    rw [tile, h] at hpend
    cases hpend
  obtain ⟨l₁, l₂, heq, hkeys⟩ := split_of_mget hsorted hne
  have mem_tiles {y : Nat × Tile} (hy : y ∈ l₁ ∨ y ∈ l₂) : y ∈ s.tiles := by
    rw [heq]
    rcases hy with hy | hy <;> simp [hy]
  exact ⟨l₁, l₂, heq, fun y hy => hothers y (mem_tiles (.inl hy)) (hkeys y (List.mem_append_left _ hy)),
    fun y hy => hothers y (mem_tiles (.inr hy)) (hkeys y (List.mem_append_right _ hy))⟩

theorem nextDue_of_one_result : s.nextDue x.vis = some (g, x) := by
  obtain ⟨l₁, l₂, heq, hbefore, hbehind⟩ := tiles_of_one_result hpend hothers hsorted
  rw [nextDue, heq, List.foldl_append, foldl_of_fixed (l := l₁) (fun y hy => by rw [hbefore y hy]; rfl), List.foldl_cons, hpend]
  simp only [firstPend, List.foldl_cons, List.foldl_nil, lt_irrefl, if_false]
  exact foldl_of_fixed fun y hy => by rw [hbehind y hy]; rfl

theorem pendCount_of_one_result : s.pendCount = 1 := by
  obtain ⟨l₁, l₂, heq, hbefore, hbehind⟩ := tiles_of_one_result hpend hothers hsorted
  have zeros {l : List (Nat × Tile)} (h : ∀ y ∈ l, y.2.pend = []) (m : Nat) :
      (l.map fun t => t.2.pend.length).foldl (· + ·) m = m := by
    rw [List.foldl_map]
    exact foldl_of_fixed fun y hy => by rw [h y hy, List.length_nil, Nat.add_zero]
  rw [pendCount, heq, List.map_append, List.foldl_append, zeros hbefore, List.map_cons, List.foldl_cons, hpend, zeros hbehind]
  rfl

/-- The result becomes visible, and time has come to its cycle. -/
theorem advance_of_one_result (hoff : s.checkerOn (s.tilePart g) = false) :
    s.advance x.vis = ((s.landing g x).modTile g (dropLanded x)).pruneHistory := by
  have lands := (applyEff_lands (s := { s with now := max s.now x.vis }) (g := g) (x := x) hoff).1
  have now_eq : (s.land g x).now = max s.now x.vis := lands
  rw [advance, pendCount_of_one_result hpend hothers hsorted, settle, nextDue_of_one_result hpend hothers hsorted]
  dsimp only
  rw [settle, now_eq, max_eq_left (le_max_right _ _), with_now_self now_eq]
  rfl

end

/-- Of a result that has become visible nothing is in flight. -/
theorem pend_dropLanded {t : Tile} (h : ∀ y ∈ t.pend, y = x) : (dropLanded x t).pend = [] := by
  refine List.filter_eq_nil_iff.mpr fun y hy => ?_
  simp [h y hy]

theorem tile_pruneHistory (t : State) (g : Nat) : t.pruneHistory.tile g = t.tile g := rfl

/-- The tile after its one result: as the effect has left it, but for what is in flight. -/
theorem tile_landed (u : State) (g : Nat) (x : Pend) :
    ((u.modTile g (dropLanded x)).pruneHistory).tile g = dropLanded x (u.tile g) := by
  rw [tile_pruneHistory, tile_modTile]

end State

theorem Tile.s_setS {t : Tile} {r : Nat} {v sh : Word} (hr : r ≠ 0) : (t.setS r v sh).s r = v ∧
    ∀ q, q ≠ r → (t.setS r v sh).s q = t.s q := by
  rw [Tile.setS, if_neg hr]
  refine ⟨by simp [Tile.s, hr], fun q hq => ?_⟩
  unfold Tile.s
  rw [mget_mput_ne 0 t.sregs v hq]

theorem Tile.setS_zero (t : Tile) (v sh : Word) : t.setS 0 v sh = t := if_pos rfl

theorem Tile.d_setD (t : Tile) (r : Nat) (v sh : Desc) : (t.setD r v sh).d r = v ∧
    ∀ q, q ≠ r → (t.setD r v sh).d q = t.d q :=
  ⟨mget_mput_self .., fun _ hq => mget_mput_ne (0 : Desc) _ _ hq⟩

theorem Tile.p_setP {t : Tile} {r : Nat} {b : Bool} (hr : r ≠ 0) : (t.setP r b).p r = b ∧
    ∀ q, q ≠ r → (t.setP r b).p q = t.p q := by
  rw [Tile.setP, if_neg hr]
  refine ⟨by simp [Tile.p, hr], fun q hq => ?_⟩
  unfold Tile.p
  rw [mget_mput_ne false t.preds b hq]

/-- A bank that takes a value, the others as they were. -/
theorem Tile.bank_mput (t : Tile) (b : Nat) (v : Bank) : ({ t with banks := mput Bank.zero t.banks b v } : Tile).bank b = v ∧
    ∀ q, q ≠ b → ({ t with banks := mput Bank.zero t.banks b v } : Tile).bank q = t.bank q :=
  ⟨mget_mput_self .., fun _ hq => mget_mput_ne Bank.zero _ _ hq⟩

end Sys2Proof.Machine

namespace Sys2Proof
open Machine

theorem resultsBecomeVisible : Claims.ResultsBecomeVisible := by
  intro s g x hpend hothers _ hsorted hoff t
  have lands := State.applyEff_lands (s := { s with now := max s.now x.vis }) (g := g) (x := x) hoff
  have advanced := State.advance_of_one_result hpend hothers hsorted hoff
  have executes : exec (.instructionResultVisible g) s = .next (((s.landing g x).modTile g (State.dropLanded x)).pruneHistory) := by
    change execInstructionResultVisible g s = _
    rw [execInstructionResultVisible, hpend, ← advanced]
    rfl
  have tile_eq := State.tile_landed (s.landing g x) g x
  -- where the effect is on the tile alone, memory and registers stand
  have tile_only {v : Tile} (hv : s.landing g x = ({ s with now := max s.now x.vis } : State).setTile g v) :
      (((s.landing g x).modTile g (State.dropLanded x)).pruneHistory).tile g = State.dropLanded x v ∧
        (((s.landing g x).modTile g (State.dropLanded x)).pruneHistory).mem = s.mem ∧
        (((s.landing g x).modTile g (State.dropLanded x)).pruneHistory).regs = s.regs := by
    rw [tile_eq, hv, State.tile_setTile]
    exact ⟨rfl, rfl, rfl⟩
  refine ⟨_, executes, ?_, lands.1, ?_, ?_, ?_, ?_, ?_, ?_, ?_, ?_, ?_, ?_, ?_⟩
  · rw [tile_eq]
    exact State.pend_dropLanded fun y hy => List.mem_singleton.mp (hpend ▸ lands.2 y hy)
  · intro r v sh h hr
    obtain ⟨htile, hmem, hregs⟩ := tile_only (State.applyEff_sreg h)
    obtain ⟨hself, hne⟩ := Tile.s_setS (t := t) (v := v) (sh := sh) hr
    rw [htile]
    exact ⟨hself, hmem, hregs, hne⟩
  · intro v sh h q
    obtain ⟨htile, -, -⟩ := tile_only ((State.applyEff_sreg h).trans (by rw [Tile.setS_zero]))
    rw [htile]
    rfl
  · intro r v sh h
    obtain ⟨htile, hmem, hregs⟩ := tile_only (State.applyEff_dreg h)
    obtain ⟨hself, hne⟩ := Tile.d_setD t r v sh
    rw [htile]
    exact ⟨hself, hmem, hregs, hne⟩
  · intro r b h hr
    obtain ⟨htile, -, -⟩ := tile_only (State.applyEff_preg h)
    rw [htile]
    exact Tile.p_setP hr
  · intro a bs h
    have hw : s.landing g x = _ := State.applyEff_mem h hoff
    have mem_eq : (((s.landing g x).modTile g (State.dropLanded x)).pruneHistory).mem = (s.wr a bs).mem := by
      rw [hw]
      exact State.mem_wrOwn (s := s) (t := { s with now := max s.now x.vis }) rfl a bs
    refine ⟨(State.rd_congr mem_eq _ _).trans (s.rd_wr a bs), ?_, fun b hb => ?_⟩
    · rw [hw]
      exact ((MemOnly.refl _).wrOwn a bs).regs
    · rw [State.rd8_congr mem_eq, s.rd8_wr_ne a b bs (by omega)]
  · intro b v h
    obtain ⟨htile, -, -⟩ := tile_only (State.applyEff_bank h)
    rw [htile]
    exact t.bank_mput b v
  · intro m b da db z h
    obtain ⟨htile, hmem, -⟩ := tile_only (State.applyEff_mult h)
    obtain ⟨hself, hne⟩ := t.bank_mput b (multiply s.memAt x.issue g m z da db (t.bank b))
    rw [htile]
    exact ⟨hself, hmem, hne⟩
  · intro a f n bs am h
    have counted : RegsPartsOnly _ (s.landing g x) := State.applyEff_block h
    rw [tile_eq, counted.tile]
    exact ⟨counted.mem, rfl, rfl⟩
  · intro k e h
    obtain ⟨htile, -, -⟩ := tile_only (State.applyEff_cfg h)
    rw [htile]
    exact mget_mput_self ..
  · intro e dd da db dm mk tr h args o
    have counted : RegsPartsOnly _ (s.landing g x) := State.applyEff_chain h
    have written (t : State) := (MemOnly.refl t).wrAll o.writes
    constructor
    · refine (counted.mem).trans (State.mem_wrAll_congr ?_ _)
      split <;> rfl
    · rw [tile_eq, counted.tile]
      refine (congrArg Tile.carry ((written _).tile g)).trans ?_
      split
      · next hlate => exact (if_pos hlate).symm
      · next hlate =>
        rw [State.tile_setTile]
        exact (if_neg hlate).symm
  · intro ch tk a pc task h hfrozen
    have hw : s.landing g x = _ := State.applyEff_dma h hfrozen
    rw [hw]
    exact congrArg CMover.chains (State.cmover_setCmover ..)

end Sys2Proof
end

section
/-! SUPPORT. A plan fault of a tile whose partition's plan is not active (R84, R85, R89). -/

namespace Sys2Proof.Machine
namespace State

/-! ## Fields of one tile -/

/-- A field of another register of the same array reads as before. -/
theorem getF_putF_base (s : State) (f g : Fld) (i v : Nat)
    (h : g.n2 = f.n2 ∧ g.s1 = f.s1 ∧ g.s2 = f.s2 ∧ g.base ≠ f.base) : (s.putF f i v).getF g i = s.getF g i := by
  obtain ⟨hn2, hs1, hs2, hbase⟩ := h
  refine getF_putF_off s f g i i v fun heq => hbase ?_
  simp only [Fld.off, hn2, hs1, hs2] at heq
  omega

/-- BN is no register of a tile. -/
theorem bn_putF_tile (s : State) (f : Fld) (i v : Nat) (h : 0x1000000 ≤ f.base) : (s.putF f i v).bn = s.bn := by
  refine getF_putF_off s f F.PLN_BN_BN i 0 v ?_
  simp only [Fld.off, F.PLN_BN_BN]
  omega

theorem getF_modPart (s : State) (p : Nat) (f : Part → Part) (x : Fld) (i : Nat) : (s.modPart p f).getF x i = s.getF x i := rfl

theorem elog_logsOnly (s : State) (src idx cause detail : Nat) :
    LogsOnly (· = F.TST_ELOG_INFO_LOST.base) s (s.elog src idx cause detail) := LogsOnly.elog (P := (· = F.TST_ELOG_INFO_LOST.base)) (.refl _ s) rfl _ _ _ _

/-- A register of a tile does not log. -/
theorem getF_elog_tile (s : State) (src idx cause detail : Nat) {f : Fld} (i : Nat) (h : 0x1000000 ≤ f.base) :
    (s.elog src idx cause detail).getF f i = s.getF f i := by
  rw [getF, (elog_logsOnly s src idx cause detail).word _ ?_, getF]
  simp only [Fld.off, F.TST_ELOG_INFO_LOST]
  omega

theorem tile_elog (s : State) (src idx cause detail : Nat) (g : Nat) : (s.elog src idx cause detail).tile g = s.tile g := by
  rw [(elog_logsOnly s src idx cause detail).frame]
  rfl

theorem mem_elog (s : State) (src idx cause detail : Nat) : (s.elog src idx cause detail).mem = s.mem := by
  rw [(elog_logsOnly s src idx cause detail).frame]

theorem part_elog (s : State) (src idx cause detail : Nat) (p : Nat) : (s.elog src idx cause detail).part p = s.part p := by
  rw [(elog_logsOnly s src idx cause detail).frame]
  rfl

/-- With no active plan a module fault is logged only. -/
theorem moduleFault_of_inactive {s : State} {p : Nat} (h : (s.part p).active = false) (cause task : Nat) (stop : Bool) :
    s.moduleFault p cause task stop = s.elog 1 p cause 0 := by
  unfold moduleFault moduleFaultAt
  simp only [part_elog, h, Bool.not_false, if_true]

/-! ## The record of a plan fault -/

/-- The registers of the first fault of a tile, which is stopped (R85, R89). -/
def recorded (s : State) (g code slot pc : Nat) : State :=
  ((((((((s.putF F.TIL_STATUS_STATE g 3).putF F.TIL_FAULT_VALID g 1).putF F.TIL_FAULT_MORE g 0).putF F.TIL_FAULT_REPEAT g 0).putF
    F.TIL_FAULT_SLOT g slot).putF F.TIL_FAULT_CODE g code).putF F.TIL_FAULT_PC g pc).putF F.TIL_FAULT_TASK g
      (s.getF F.TIL_STATUS_TASK g)).putF F.TIL_FAULT_BN_BN g s.bn

theorem recordFault_eq {s : State} {g : Nat} (hvalid : s.flag F.TIL_FAULT_VALID g = false) (code slot pc : Nat) :
    (s.putF F.TIL_STATUS_STATE g 3).recordFault g code slot pc = s.recorded g code slot (min pc 16383) := by
  have valid : (s.putF F.TIL_STATUS_STATE g 3).flag F.TIL_FAULT_VALID g = false := by
    rw [flag, getF_putF_base _ _ _ _ _ (by decide)]
    exact hvalid
  unfold recordFault
  simp only [valid, Bool.false_eq_true, if_false]
  simp (disch := decide) only [getF_putF_bits, getF_putF_base, bn_putF_tile]
  rfl

/-- Whatever a register write after it repeats, the record reads as recorded. -/
theorem getF_recorded (s : State) (g : Nat) {code slot pc : Nat} (hcode : code < 256) (hslot : slot < 4) (hpc : pc ≤ 16383) :
    let u := s.recorded g code slot pc
    u.getF F.TIL_STATUS_STATE g = 3 ∧ u.getF F.TIL_FAULT_VALID g = 1 ∧ u.getF F.TIL_FAULT_CODE g = code ∧
      u.getF F.TIL_FAULT_SLOT g = slot ∧ u.getF F.TIL_FAULT_PC g = pc ∧ u.getF F.TIL_FAULT_BN_BN g = s.bn ∧
      u.getF F.TIL_FAULT_TASK g = s.getF F.TIL_STATUS_TASK g := by
  have task_lt : s.getF F.TIL_STATUS_TASK g < 2 ^ 24 := s.getF_lt _ _
  have bn_lt : s.bn < 2 ^ 64 := s.getF_lt _ _
  unfold recorded
  simp (disch := decide) only [getF_putF_bits, getF_putF_base, getF_putF]
  refine ⟨rfl, rfl, Nat.mod_eq_of_lt hcode, Nat.mod_eq_of_lt hslot, Nat.mod_eq_of_lt ?_, Nat.mod_eq_of_lt bn_lt,
    Nat.mod_eq_of_lt task_lt⟩
  exact Nat.lt_succ_of_le hpc

/-- The tile that a plan fault of code `code` stops: nothing of the open bundle is in flight. -/
def stoppedTile (t : Tile) (code : Nat) : Tile :=
  { t with
    pend := t.pend.filter fun x => t.lastSlot.isNone ∨ x.seq < t.bundleSeq,
    units := if t.lastSlot.isNone then t.units else t.units0,
    lastSlot := none, fault := none, owed := [], partAt := none, jump := none, wait := none, frozen := t.frozen || code = 7 }

/-- The fault kept of a partition's attempt (R86). -/
def keepFault (code task pc : Nat) (x : Part) : Part :=
  { x with tileFaults := x.tileFaults ++ [(code, task, pc)], forceBalOff := x.forceBalOff || code = 0x0A }

theorem tile_recorded (s : State) (g code slot pc k : Nat) : (s.recorded g code slot pc).tile k = s.tile k := by
  simp only [recorded, tile_putF]

theorem part_recorded (s : State) (g code slot pc p : Nat) : (s.recorded g code slot pc).part p = s.part p := by
  simp only [recorded, part_putF]

theorem mem_recorded (s : State) (g code slot pc : Nat) : (s.recorded g code slot pc).mem = s.mem := by
  simp only [recorded, putF_mem]

variable {s : State} {g code slot pc : Nat}

/-- A plan fault other than `PARTITION` of a tile whose partition's plan is not active is recorded and logged. -/
theorem planFault_of_inactive (hvalid : s.flag F.TIL_FAULT_VALID g = false) (hcode : code ≠ 7)
    (hactive : (s.part (s.tilePart g)).active = false) :
    ∃ (b : Bool) (f : Part → Part), s.planFault g code slot pc =
      ((if b then ((s.modTile g fun t => stoppedTile t code).recorded g code slot (min pc 16383)).putF F.TIL_FAULT_REPEAT g 1
        else (s.modTile g fun t => stoppedTile t code).recorded g code slot (min pc 16383)).modPart (s.tilePart g) f).elog 1
          (s.tilePart g) 1 0 := by
  have valid : (s.modTile g fun t => stoppedTile t code).flag F.TIL_FAULT_VALID g = false := hvalid
  have rec_eq := recordFault_eq valid code slot pc
  unfold planFault
  extract_lets p task stopped state3 noted rep marked frozen listed
  have hnoted : noted = (s.modTile g fun t => stoppedTile t code).recorded g code slot (min pc 16383) := rec_eq
  have hfrozen : frozen = marked := if_neg hcode
  refine ⟨decide rep, keepFault code task pc, ?_⟩
  have hmarked : marked = if decide rep = true then
      ((s.modTile g fun t => stoppedTile t code).recorded g code slot (min pc 16383)).putF F.TIL_FAULT_REPEAT g 1
      else (s.modTile g fun t => stoppedTile t code).recorded g code slot (min pc 16383) := by
    simp only [marked, hnoted, decide_eq_true_eq]
  have hlisted : listed = marked.modPart p (keepFault code task pc) := by
    simp only [listed, hfrozen]
    rfl
  have part_eq : marked.part p = s.part p := by
    rw [hmarked]
    split
    · rw [part_putF, part_recorded]
      rfl
    · rw [part_recorded]
      rfl
  rw [moduleFault_of_inactive (by rw [hlisted, part_modPart, part_eq]; exact hactive), hlisted, hmarked]

/-- What such a plan fault leaves (R85, R89). -/
theorem planFault_records (hvalid : s.flag F.TIL_FAULT_VALID g = false) (hcode : code ≠ 7) (hcode8 : code < 256) (hslot : slot < 4)
    (hactive : (s.part (s.tilePart g)).active = false) :
    let u := s.planFault g code slot pc
    u.getF F.TIL_STATUS_STATE g = 3 ∧ u.flag F.TIL_FAULT_VALID g = true ∧ u.getF F.TIL_FAULT_CODE g = code ∧
      u.getF F.TIL_FAULT_SLOT g = slot ∧ u.getF F.TIL_FAULT_PC g = min pc 16383 ∧ u.getF F.TIL_FAULT_BN_BN g = s.bn ∧
      u.getF F.TIL_FAULT_TASK g = s.getF F.TIL_STATUS_TASK g ∧ u.tile g = stoppedTile (s.tile g) code ∧ u.mem = s.mem ∧
      ∀ h, h ≠ g → u.tile h = s.tile h := by
  intro u
  obtain ⟨b, f, hu⟩ := planFault_of_inactive (slot := slot) (pc := pc) hvalid hcode hactive
  have reads (x : Fld) (hx : 0x1000000 ≤ x.base) (hbits : x.hi < F.TIL_FAULT_REPEAT.lo ∨ F.TIL_FAULT_REPEAT.hi < x.lo ∨
      (x.n2 = F.TIL_FAULT_REPEAT.n2 ∧ x.s1 = F.TIL_FAULT_REPEAT.s1 ∧ x.s2 = F.TIL_FAULT_REPEAT.s2 ∧
        x.base ≠ F.TIL_FAULT_REPEAT.base)) :
      u.getF x g = ((s.modTile g fun t => stoppedTile t code).recorded g code slot (min pc 16383)).getF x g := by
    simp only [u, hu, getF_elog_tile _ _ _ _ _ g hx, getF_modPart]
    split
    case isFalse => rfl
    case isTrue =>
      rcases hbits with hbits | hbits | hbits
      · exact getF_putF_bits _ _ _ _ _ _ (.inl hbits)
      · exact getF_putF_bits _ _ _ _ _ _ (.inr hbits)
      · exact getF_putF_base _ _ _ _ _ hbits
  have tiles (k : Nat) : u.tile k = (s.modTile g fun t => stoppedTile t code).tile k := by
    simp only [u, hu, tile_elog, modPart, tile_setPart]
    split
    · rw [tile_putF, tile_recorded]
    · rw [tile_recorded]
  obtain ⟨hstate, hflag, hc, hsl, hp, hbn, htask⟩ :=
    getF_recorded (s.modTile g fun t => stoppedTile t code) g hcode8 hslot (min_le_right pc 16383)
  refine ⟨(reads _ (by decide) (by decide)).trans hstate, ?_, (reads _ (by decide) (by decide)).trans hc,
    (reads _ (by decide) (by decide)).trans hsl, (reads _ (by decide) (by decide)).trans hp,
    (reads _ (by decide) (by decide)).trans hbn, (reads _ (by decide) (by decide)).trans htask, (tiles g).trans (tile_modTile ..),
    ?_, fun h hh => (tiles h).trans (s.tile_setTile_ne _ hh)⟩
  · rw [flag, (reads _ (by decide) (by decide)).trans hflag]
    rfl
  · simp only [u, hu, mem_elog, modPart, setPart_mem]
    split
    · rw [putF_mem, mem_recorded]
      rfl
    · rw [mem_recorded]
      rfl

end State
end Sys2Proof.Machine
end

section
/-! Plan faults of a tile (R81, R84, R85, R89): the proof of `PlanFaultsStopTheTile`. -/

namespace Sys2Proof.Machine
namespace State

variable {s : State} {g n : Nat} {w : Word}

theorem noteFault_of_none {t : Tile} (h : t.fault = none) (code slot pc : Nat) :
    noteFault t code slot pc = { t with fault := some (code, slot, pc) } := by
  simp only [noteFault, h]

/-- A word of a fault, the only one of its bundle, is a plan fault at its end (R84, R85). -/
theorem issueWord_faults (h : Issues s g w n) (hlast : (s.tile g).lastSlot = none) (hE : wE w = true)
    (hguard : guardOk (s.tile g) w = true) {ok : Bool} {dyn : State → Option Nat} {act : State → State} {code : Nat}
    (hcode : (ok = false ∧ code = 1) ∨ (ok = true ∧ dyn (s.openBundle g) = some code)) (hhazard : code ≠ 0x0B) :
    ∃ v, TileStep s g n v ∧
      v.tile g = bumpTile w { openTile (s.tile g) n with fault := some (code, wSlot w, (s.tile g).pc) } ∧
      s.issueWord g w ok dyn act = v.planFault g code (wSlot w) (s.tile g).pc := by
  obtain ⟨hstep, htile⟩ := openBundle_of_issues h
  obtain ⟨hfault, -, -⟩ := openTile_of_issues h
  obtain ⟨hstate, hfrozen, hpc, -, -⟩ := h
  have hopen : (s.openBundle g).getF F.TIL_STATUS_STATE g = 1 := by rw [hstep.getF, hstate]
  have found : lowest (if ok then none else some 1) (lowest none (if ok && true then dyn (s.openBundle g) else none)) =
      some code := by
    rcases hcode with ⟨rfl, rfl⟩ | ⟨rfl, hdyn⟩
    · rfl
    · simp only [Bool.and_self, if_true, hdyn]
      rfl
  refine ⟨((s.openBundle g).setTile g (noteFault (openTile (s.tile g) n) code (wSlot w) (s.tile g).pc)).modTile g (bumpTile w),
    (hstep.setTile _).modTile _, by rw [tile_modTile, tile_setTile, noteFault_of_none hfault], ?_⟩
  unfold issueWord
  rw [if_neg (by simp [hstate, hfrozen])]
  simp only [hopen, htile, openTile_pc, openTile_lastSlot, guardOk_openTile, hlast, hguard, Bool.false_eq_true, if_false, hE,
    Bool.true_or, if_true]
  rw [if_neg (by simp), if_neg (by omega), found]
  have faulted : ((((s.openBundle g).setTile g (noteFault (openTile (s.tile g) n) code (wSlot w) (s.tile g).pc)).modTile g
      (bumpTile w)).tile g).fault = some (code, wSlot w, (s.tile g).pc) := by
    rw [tile_modTile, tile_setTile, noteFault_of_none hfault]
    rfl
  unfold bumpTile at faulted
  unfold closeBundle
  rw [faulted]
  dsimp only
  rw [if_neg hhazard]
  rfl

/-- The faults of a bad descriptor of a multiply come before those of its units. -/
theorem lowest_desc (a b : Bool) : lowest (faultIf true 5) (lowest (faultIf a 8) (lowest (faultIf b 9) none)) = some 5 := by
  cases a <;> cases b <;> rfl

/-- The tile of a fault in its first word, stopped: as before, but for what the sequencer keeps. -/
theorem stopped_first_word (hlast : (s.tile g).lastSlot = none) (hpend : ∀ y ∈ (s.tile g).pend, y.seq < (s.tile g).seq)
    (w : Word) (code slot pc : Nat) :
    let t := stoppedTile (bumpTile w { openTile (s.tile g) n with fault := some (code, slot, pc) }) code
    t.pend = (s.tile g).pend ∧ t.sregs = (s.tile g).sregs ∧ t.banks = (s.tile g).banks ∧ t.units = (s.tile g).units := by
  have opened : openTile (s.tile g) n = { s.tile g with
      bundlePc := (s.tile g).pc, bundleAt := n, bundleSeq := (s.tile g).seq, units0 := (s.tile g).units, fault := none, owed := [],
      jump := none, wait := none, nextIssue := n + 1 } := by
    rw [openTile, if_neg (by rw [hlast]; decide)]
  rw [opened]
  refine ⟨List.filter_eq_self.mpr fun y hy => ?_, rfl, rfl, rfl⟩
  simpa [bumpTile] using hpend y hy

end State
end Sys2Proof.Machine

namespace Sys2Proof
open Machine

theorem planFaultsStopTheTile : Claims.PlanFaultsStopTheTile := by
  constructor
  · intro s g w n code c _ h hlast hE hplan hguard hvalid hactive hpend hc
    obtain ⟨hopen, htile⟩ := State.openBundle_of_issues h
    have hslot : wSlot w < 4 := getBits_lt w 61 60
    -- the word issues, and its fault stops the tile
    have stops (hcode : code ≠ 7 ∧ code < 256) {v : State} (hstep : TileStep s g n v)
        (hv : v.tile g = bumpTile w { openTile (s.tile g) n with fault := some (code, wSlot w, (s.tile g).pc) })
        (hexec : exec c s = .next (v.planFault g code (wSlot w) (s.tile g).pc)) :
        ∃ u, exec c s = .next u ∧ u.getF F.TIL_STATUS_STATE g = 3 ∧ u.flag F.TIL_FAULT_VALID g = true ∧
          u.getF F.TIL_FAULT_CODE g = code ∧ u.getF F.TIL_FAULT_SLOT g = wSlot w ∧
          u.getF F.TIL_FAULT_PC g = (s.tile g).pc ∧ u.getF F.TIL_FAULT_BN_BN g = s.bn ∧
          u.getF F.TIL_FAULT_TASK g = s.getF F.TIL_STATUS_TASK g ∧ (u.tile g).pend = (s.tile g).pend ∧
          (u.tile g).sregs = (s.tile g).sregs ∧ (u.tile g).banks = (s.tile g).banks ∧ (u.tile g).units = (s.tile g).units ∧
          u.mem = s.mem ∧ ∀ h, h ≠ g → u.tile h = s.tile h := by
      obtain ⟨hne, hlt⟩ := hcode
      have hvalid : v.flag F.TIL_FAULT_VALID g = false := by rw [State.flag, hstep.getF]; exact hvalid
      have hactive : (v.part (v.tilePart g)).active = false := by rw [hstep.tilePart, hstep.part]; exact hactive
      obtain ⟨hstate, hflag, hcode, hslot, hpc, hbn, htask, htile, hmem, hother⟩ :=
        State.planFault_records (slot := wSlot w) hvalid hne hlt hslot hactive
      obtain ⟨pend_eq, sregs_eq, banks_eq, units_eq⟩ :=
        State.stopped_first_word (n := n) hlast hpend w code (wSlot w) (s.tile g).pc
      rw [hv] at htile
      exact ⟨_, hexec, hstate, hflag, hcode, hslot, hpc.trans (min_eq_left h.2.2.1), hbn.trans hstep.bn, htask.trans (hstep.getF _ _),
        (congrArg Tile.pend htile).trans pend_eq, (congrArg Tile.sregs htile).trans sregs_eq,
        (congrArg Tile.banks htile).trans banks_eq, (congrArg Tile.units htile).trans units_eq, hmem.trans hstep.mem,
        fun k hk => (hother k hk).trans (hstep.other k hk)⟩
    rcases hc with ⟨rfl, hs0, hop, hrsv, rfl⟩ | ⟨rfl, hs0, hop, hrsv, hdesc, rfl⟩ | ⟨rfl, hs2, hop, haddr, rfl⟩
    · obtain ⟨v, hstep, hv, hissue⟩ := State.issueWord_faults (ok := wSlot w = 0 && wOp w = 7 && !mRsv w) (code := 1)
        h hlast hE hguard (.inl ⟨by simp [hs0, hop, hrsv], rfl⟩) (by decide)
      exact stops (by decide) hstep hv (congrArg Host.Outcome.next hissue)
    · obtain ⟨v, hstep, hv, hissue⟩ := State.issueWord_faults (ok := wSlot w = 0 && wOp w = 1 && !mRsv w) (code := 5)
        (dyn := fun s =>
          let t := s.tile g
          State.lowest (State.faultIf (State.mulDesc t w .mul) 5) (State.lowest (State.faultIf (s.now < t.units.mulFree) 8)
            (State.lowest (State.faultIf (State.bankBusy t.units.portBanks (mAcc w) s.now) 9)
              (State.lowest (State.mayVary t w (State.sameBase t (mDA w) && State.sameBase t (mDB w)))
                (if State.mulDesc t w .mul then none else s.hazardFault g w (State.mulReads g s.now t w .mul))))))
        h hlast hE hguard (.inr ⟨by simp [hs0, hop, hrsv], by
          simp only [htile, mulDesc_openTile, hdesc, mayVary_openTile, State.mayVary_of_planned hplan, if_true]
          exact State.lowest_desc _ _⟩) (by decide)
      exact stops (by decide) hstep hv (congrArg Host.Outcome.next hissue)
    · obtain ⟨v, hstep, hv, hissue⟩ := State.issueWord_faults (ok := wSlot w = 2 && wOp w = 0x20) (code := 6)
        (dyn := fun s =>
          let t := s.tile g
          State.lowest (State.faultIf (!inLocal (t.ea w) 8 || t.ea w % 8 ≠ 0) 6)
            (State.lowest (State.mayVary t w (State.sameEa t w)) (s.hazardFault g w (State.loadReads g s.now 8 t w))))
        h hlast hE hguard (.inr ⟨by simp [hs2, hop], by
          simp only [htile, openTile_ea, mayVary_openTile, State.mayVary_of_planned hplan,
            hopen.hazardFault (State.checkerOff_of_issues h)]
          simp [haddr, State.faultIf, State.lowest]⟩) (by decide)
      exact stops (by decide) hstep hv (congrArg Host.Outcome.next hissue)
  · intro s g b _ hsince hstate hlim hlate hvalid hactive
    obtain ⟨hst, hflag, hcode, hslot, -, hbn, -, htile, hmem, hother⟩ :=
      State.planFault_records (code := 0x0C) (slot := 3) hvalid (by decide) (by decide) (by decide) hactive
    refine ⟨_, ?_, hst, hflag, hcode, hslot, hbn, congrArg Tile.wait htile, hmem, hother⟩
    change execWaitTimeout g s = _
    rw [execWaitTimeout, hsince]
    exact congrArg Host.Outcome.next (if_pos ⟨hstate, hlim, hlate⟩)

end Sys2Proof
end

section
/-! Waits and arrivals of a tile end (R74, R77 to R80): the proof of `TileEvents`. -/

namespace Sys2Proof.Machine
namespace State

variable {s : State} {g : Nat}

/-- A sequencer that issues again (R77, R78). -/
theorem endWait_runs {u : State} {n : Nat} (h : RunStep s g n u) (c : Nat) :
    RunStep s g n (u.endWait g c) ∧ (u.endWait g c).getF F.TIL_STATUS_STATE g = 1 ∧
      (u.endWait g c).tile g = { u.tile g with wait := none, nextIssue := c } ∧ (u.endWait g c).parts = u.parts := by
  refine ⟨(h.putF rfl 1).modTile _, ?_, ?_, rfl⟩
  · rw [endWait, getF_modTile, getF_putF _ _ _ _ (by decide) (by decide)]
    rfl
  · rw [endWait, tile_modTile, tile_putF]

/-- A token of a tile that no Ash segment holds goes up by one (R75, R440). -/
theorem incToken_eq {h : Nat} (hfree : (s.test.saved.map (·.1)).contains h = false) (k : Nat) :
    s.incToken h k = s.modTile h fun t => { t with toks := mput 0 t.toks k (mget 0 t.toks k + 1) } := by
  rw [incToken]
  simp only [hfree, Bool.false_eq_true, if_false]

end State

/-- From `s` to `t` only tiles differ. -/
theorem RunStep.frame_of_now {s t : State} {g : Nat} (h : RunStep s g s.now t) (hp : t.parts = s.parts) :
    t = { s with regs := t.regs, tiles := t.tiles } := h.frame_of_parts hp

end Sys2Proof.Machine

namespace Sys2Proof
open Machine

theorem beatWaitEnds (s : State) (g x b : Nat) (hwait : (s.tile g).wait = some (.beat x b))
    (hstate : s.getF F.TIL_STATUS_STATE g = 2) (hpos : x ≤ s.getF F.PLN_SPOS_POS (s.tilePart g)) :
    ∃ u, exec (.waitBeatSatisfied g) s = .next u ∧ u.getF F.TIL_STATUS_STATE g = 1 ∧ (u.tile g).wait = none ∧
      (u.tile g).nextIssue = max (s.beatStart + 2) s.now ∧ u = { s with regs := u.regs, tiles := u.tiles } ∧
      (∀ o, o ≠ F.TIL_STATUS_STATE.off g → u.word o = s.word o) ∧ ∀ h, h ≠ g → u.tile h = s.tile h := by
  obtain ⟨hrun, hissues, htile, hparts⟩ := State.endWait_runs (TileStep.refl s g).runStep (max (s.beatStart + 2) s.now)
  refine ⟨_, ?_, hissues, congrArg Tile.wait htile, congrArg Tile.nextIssue htile, hrun.frame_of_parts hparts, hrun.word, hrun.other⟩
  change execWaitBeatSatisfied g s = _
  rw [execWaitBeatSatisfied, hwait]
  exact congrArg Host.Outcome.next (if_pos ⟨hstate, hpos⟩)

theorem tokenWaitEnds (s : State) (g k i b : Nat) (hwait : (s.tile g).wait = some (.tok k i b))
    (hstate : s.getF F.TIL_STATUS_STATE g = 2) (hreached : tokReached ((s.tile g).tok k) i = true) :
    ∃ u, exec (.waitTokSatisfied g) s = .next u ∧ u.getF F.TIL_STATUS_STATE g = 1 ∧ (u.tile g).wait = none ∧
      (u.tile g).nextIssue = s.now + 2 ∧ (u.tile g).toks = (s.tile g).toks ∧
      u = { s with regs := u.regs, tiles := u.tiles } ∧ ∀ h, h ≠ g → u.tile h = s.tile h := by
  have waited : RunStep s g s.now (s.waited g k) := (TileStep.refl s g).runStep.modTile _
  have tile_eq : (s.waited g k).tile g = { s.tile g with unwaited := (s.tile g).unwaited.filter fun u => u.2.2 ≠ k } :=
    State.tile_modTile ..
  obtain ⟨hrun, hissues, htile, hparts⟩ := State.endWait_runs waited (s.now + 2)
  rw [tile_eq] at htile
  refine ⟨_, ?_, hissues, congrArg Tile.wait htile, congrArg Tile.nextIssue htile, by rw [htile],
    hrun.frame_of_parts hparts, hrun.other⟩
  change execWaitTokSatisfied g s = _
  rw [execWaitTokSatisfied, hwait]
  exact congrArg Host.Outcome.next (if_pos ⟨hstate, hreached⟩)

theorem cycleWaitEnds (s : State) (g c : Nat) (hwait : (s.tile g).wait = some (.cyc c)) (hdue : s.nextDue c = none) :
    ∃ u, exec (.waitCycExpiry g) s = .next u ∧ u.now = max s.now c ∧ (u.tile g).wait = none ∧
      u = { s with tiles := u.tiles, now := max s.now c } ∧ ∀ h, h ≠ g → u.tile h = s.tile h := by
  have hadvance : TileStep s g (max s.now c) (s.advance c) := by
    rw [State.advance_of_not_due hdue]
    exact ⟨rfl, fun _ _ => rfl⟩
  have hstep := hadvance.modTile fun t => { t with wait := none }
  refine ⟨_, ?_, hstep.now, ?_, hstep.frame, hstep.other⟩
  · change execWaitCycExpiry g s = _
    rw [execWaitCycExpiry, hwait]
  · rw [State.tile_modTile]

/-- An armed arrival is due: its token goes up by one. -/
theorem arrivalEnds (s : State) (g h k : Nat) (a : Arrive) (rest : List Arrive) (harrives : (s.tile g).arrives = a :: rest)
    (hdue : s.nextDue a.at_ = none) (htok : State.tokenOf a.token = some (h, k))
    (hfree : (s.test.saved.map (·.1)).contains h = false) :
    ∃ u, exec (.arriveIncrement g) s = .next u ∧ (u.tile g).arrives = rest ∧ u.now = max s.now a.at_ ∧
      mget 0 (u.tile h).toks k = mget 0 (s.tile h).toks k + 1 ∧
      (∀ j, j ≠ k → mget 0 (u.tile h).toks j = mget 0 (s.tile h).toks j) ∧
      u = { s with tiles := u.tiles, now := u.now } ∧ ∀ f, f ≠ g → f ≠ h → u.tile f = s.tile f := by
  have hadvance : TileStep s g (max s.now a.at_) (s.advance a.at_) := by
    rw [State.advance_of_not_due hdue]
    exact ⟨rfl, fun _ _ => rfl⟩
  have hadvanced : (s.advance a.at_).tile g = s.tile g := by
    rw [State.advance_of_not_due hdue]
    rfl
  have hstep := hadvance.modTile fun t => { t with arrives := rest }
  have hfree' : (((s.advance a.at_).modTile g fun t => { t with arrives := rest }).test.saved.map (·.1)).contains h = false := by
    rw [hstep.test]
    exact hfree
  -- tile `g` without its first arrival, every other tile as before
  have taken (f : Nat) : (((s.advance a.at_).modTile g fun t => { t with arrives := rest }).tile f).toks = (s.tile f).toks := by
    by_cases hf : f = g
    · rw [hf, State.tile_modTile, hadvanced]
    · rw [hstep.other f hf]
  have counted := State.tile_modTile ((s.advance a.at_).modTile g fun t => { t with arrives := rest }) h
    fun t => { t with toks := mput 0 t.toks k (mget 0 t.toks k + 1) }
  refine ⟨((s.advance a.at_).modTile g fun t => { t with arrives := rest }).modTile h fun t =>
    { t with toks := mput 0 t.toks k (mget 0 t.toks k + 1) }, ?_, ?_, hstep.now, ?_, ?_, ?_, ?_⟩
  · change execArriveIncrement g s = _
    rw [execArriveIncrement, harrives]
    dsimp only
    rw [htok, ← State.incToken_eq hfree']
  · by_cases hg : h = g
    · subst hg
      rw [counted, State.tile_modTile]
    · rw [State.modTile, State.tile_setTile_ne _ _ (Ne.symm hg), State.tile_modTile]
  · rw [counted, taken, mget_mput_self]
  · intro j hj
    rw [counted, taken, mget_mput_ne 0 _ _ hj]
  · have htiles := congrArg (fun x : State => { x with tiles :=
      (((s.advance a.at_).modTile g fun t => { t with arrives := rest }).modTile h fun t =>
        { t with toks := mput 0 t.toks k (mget 0 t.toks k + 1) }).tiles }) hstep.frame
    exact htiles.trans (by rw [← hstep.now]; rfl)
  · intro f hg hh
    rw [State.modTile, State.tile_setTile_ne _ _ hh, hstep.other f hg]

/-- A channel has moved its first chain whole: the chain's token goes up by one, or its task is done. -/
theorem channelArrives (s : State) (c ch : Nat) (k : CChain) (rest : List CChain)
    (hchains : (s.cmover (8 * c + ch)).chains = k :: rest) (haddr : k.addr = 0) :
    ∃ u, exec (.dmaArrival c ch) s = .next u ∧ (u.cmover (8 * c + ch)).chains = rest ∧
      (∀ g, k.tile = some g → (s.test.saved.map (·.1)).contains g = false →
        mget 0 (u.tile g).toks k.token = mget 0 (s.tile g).toks k.token + 1 ∧ u.parts = s.parts) ∧
      (k.tile = none → k.task < 2 ^ 24 → (u.part k.part).done.contains k.task = true ∧ u.tiles = s.tiles) ∧
      u = { s with tiles := u.tiles, parts := u.parts, cmovers := u.cmovers } := by
  have executes {u : State} (hu : (match k.tile with
      | some g => (s.modCmover (8 * c + ch) fun m => { m with chains := rest }).incToken g k.token
      | none => (s.modCmover (8 * c + ch) fun m => { m with chains := rest }).taskDone k.part k.task) = u) :
      exec (.dmaArrival c ch) s = .next u := by
    change execDmaArrival c ch s = _
    rw [execDmaArrival, hchains, ← hu]
    exact congrArg Host.Outcome.next (if_neg (not_not_intro haddr))
  have left : ((s.modCmover (8 * c + ch) fun m => { m with chains := rest }).cmover (8 * c + ch)).chains = rest := by
    rw [State.modCmover, State.cmover_setCmover]
  cases htile : k.tile with
  | none =>
    rw [htile] at executes
    have done := State.taskDone_partOnly (s.modCmover (8 * c + ch) fun m => { m with chains := rest }) k.part k.task
    refine ⟨(s.modCmover (8 * c + ch) fun m => { m with chains := rest }).taskDone k.part k.task, executes rfl, by rw [done.cmover]; exact left, fun _ hg => absurd hg (by simp), fun _ htask =>
      ⟨State.done_taskDone _ k.part htask, by rw [done.frame]; rfl⟩, ?_⟩
    rw [done.frame]
    rfl
  | some g =>
    rw [htile] at executes
    refine ⟨(s.modCmover (8 * c + ch) fun m => { m with chains := rest }).incToken g k.token, executes rfl, left,
      fun h hh hfree => ?_, fun hnone => absurd hnone (by simp), rfl⟩
    obtain rfl := Option.some.inj hh
    rw [State.incToken_eq (s := s.modCmover (8 * c + ch) fun m => { m with chains := rest }) hfree, State.tile_modTile,
      mget_mput_self]
    exact ⟨rfl, rfl⟩

theorem waitsAndArrivalsEnd : Claims.WaitsAndArrivalsEnd :=
  ⟨fun s g x b _ => beatWaitEnds s g x b, fun s g k i b _ => tokenWaitEnds s g k i b, cycleWaitEnds, arrivalEnds, channelArrives⟩

/-- Settles O22: a result's effect is on what it names, a wait's end on its tile and a fault's on the tile it stops. -/
theorem tileEvents : Obligations.TileEvents := by
  unfold Obligations.TileEvents
  exact ⟨resultsBecomeVisible, waitsAndArrivalsEnd, planFaultsStopTheTile⟩

end Sys2Proof
end

section
/-! Power requests (O56) and transitions (O58) do not hold as stated: what an entry to Sleep does to a port that is Up,
and the training of the memories at the last wake out of Deep Sleep, lie outside the frames they state. -/

namespace Sys2Proof.Machine
open State

/-- The state command `c` answers in `s`, the reset state where it is refused. -/
def stateAfter (c : Instr) (s : State) : State :=
  match exec c s with
  | .next u => u
  | _ => State.reset

theorem stateAfter_eq {c : Instr} {s u : State} (h : exec c s = .next u) : stateAfter c s = u := by
  rw [stateAfter, h]

/-- Ready and in Run. -/
def readyState : State := State.reset.putF F.GEN_STATUS_READY 0 1

/-- Ready and in Run, with port 0 Up. -/
def portUpState : State := readyState.putF F.FAB_PSTAT_STATE 0 5

/-- On the last wake of an exit from Deep Sleep, with stack 0 in self-refresh. -/
def lastWakeState : State :=
  let s := (readyState.putF F.PWR_STAT_STATE 0 3).putF F.MEM_STAT_STATE 0 3
  { s with power := { s.power with target := some 0, awake := 22 } }

theorem anyWork_portUpState : portUpState.anyWork = false := by decide +kernel

end Sys2Proof.Machine

namespace Sys2Proof
open Machine

/-- Refutes O56: from Run with a port Up, a request for Sleep takes the port down, which the error log records; the
stated frame lets only registers and the power state change. -/
theorem not_powerRequests : ¬ Obligations.PowerRequests := by
  unfold Obligations.PowerRequests
  rintro ⟨hentry, -, -⟩
  obtain ⟨u, hu, -, -, -, -, -, -, -, hframe⟩ := hentry portUpState .pf 10 2 (.pwrTargetSleep .pf 10)
    (.inr (.inl ⟨rfl, rfl⟩)) (by decide +kernel) (by decide) (by decide) (by decide +kernel) (by decide +kernel)
    (by decide +kernel) (by decide +kernel) anyWork_portUpState
  have hlog : u.test.elog = [] := by rw [hframe]; rfl
  have hlogged : (stateAfter (.pwrTargetSleep .pf 10) portUpState).test.elog ≠ [] := by decide +kernel
  rw [stateAfter_eq hu] at hlogged
  exact hlogged hlog

/-- Refutes O58: the last wake of an exit from Deep Sleep begins the training of a stack in self-refresh, which its state
register shows; the stated frame lets only `PWR_DOM` change. -/
theorem not_powerTransitions : ¬ Obligations.PowerTransitions := by
  unfold Obligations.PowerTransitions
  rintro ⟨⟨-, hwake, -, -⟩, -⟩
  obtain ⟨u, hu, -, -, -, hword⟩ := hwake lastWakeState 22 (.inr (by decide +kernel)) rfl rfl
  have hsame : u.word F.MEM_STAT_STATE.base = lastWakeState.word F.MEM_STAT_STATE.base := hword _ (by decide)
  have hchanged : (stateAfter .domainWake lastWakeState).word F.MEM_STAT_STATE.base ≠
      lastWakeState.word F.MEM_STAT_STATE.base := by decide +kernel
  rw [stateAfter_eq hu] at hchanged
  exact hchanged hsame

end Sys2Proof
end

section
/-! Three claims about the work of a step that do not hold as stated: prefetch (O25) where a journal's saved slot is not
of the table's length, a collective message of the Planner's own task (O30), a transfer in a partition beyond the eight
(O31). -/

namespace Sys2Proof.Machine
open State

/-- Puts a plan in progress in a partition. -/
def inProgress (p : Nat) (pl : Plan) (s : State) : State :=
  s.modPart p fun x => { x with plan := some pl, active := true, stepLen := 200, graph := pl.tasks.length }

/-- A plan of one rank with tasks, tables and collectives. -/
def planOf (tasks : List Task) (tables : List TableDesc) (colls : List CollDesc) : Plan :=
  { rankCount := 1, clusters := 2, options := 0, seed := 0, meas := 7, tasks := tasks, deps := [], kernels := [],
    tables := tables, budgets := [], classes := none,
    params := { cmpPeriod := 0, jnlSectors := 0, layers := [], tensors := [], clips := [], hyps := [] },
    ranks := { ofsX := 0, ofsY := 0, ofsZ := 0, pdim := 0, pdir := 0, hostBytes := 0, deltaBytes := 0, colls := colls } }

/-- Task 0 of a kind, which names table 1 and, in its resources, collective 0. -/
def taskOfKind (kind : Nat) : Task :=
  { id := 0, kind := kind, flags := 0, mb := 1, resources := 0, cycles := 0, table := 1, kernel := 0, bytes := 64,
    depFirst := 0, depCount := 0 }

/-! ## Prefetch of a journaled row (R195, R310) -/

/-- A table of 100 rows of 16 FP32 elements, of which prefetch stages 8 rows to a stack. -/
def tableToStage : TableDesc :=
  { rows := 100, elems := 16, fmt := 0, pool := 0, rule := 1, shb := 0, flags := 0, budget := 64, epoch := 0, hyp := 0,
    hbmPages := 1 }

/-- Row 9 of the step to come lies at Umber, on a page at 0x40000. -/
def rowToStage : TableSt :=
  { TableSt.reset with
    recv := [{ rank := 0, mb := 65541, keys := [9], entries := [], grads := [], winners := [], gathered := false }],
    pages := [{ shard := 0, page := 0, home := 8, count := 0, base := 0x40000 }] }

/-- The step has journaled row 9 with an empty saved slot. -/
def shortJournal : JnlRec :=
  { slot := 0x40240, slotBytes := [], state := 0, stateBytes := [], table := 0, dflt := false, step := 0, seq := 1,
    spilled := false }

def stagingState : State :=
  ((inProgress 0 (planOf [] [tableToStage] []) readyState).modPart 0 fun x => { x with
    tables := [(tableKey 0 0, rowToStage)] }).modOch 8 0 fun q => { q with journal := [shortJournal] }

theorem rd_length (s : State) (n a : Nat) : (s.rd a n).length = n := by
  induction n generalizing a with
  | zero => rfl
  | succ n ih => simp only [State.rd, List.length_cons, ih]

theorem uniqKeys_singleton (k : Nat) : uniqKeys [k] = [k] := by
  rw [uniqKeys, List.mergeSort_singleton]; rfl

theorem stageKeys_stagingState : stagingState.stageKeys 0 0 tableToStage 0 = [9] := by
  have hkeys : (((stagingState.tableSt 0 0 0).recv.filter fun x => x.mb / 65536 = stagingState.curStep 0 + 1).map
      (·.keys)).flatten = [9] := by decide +kernel
  have hhome : ([9].filter fun k => k ≠ defaultKey && (stagingState.ownedShards 0 0 tableToStage 0).contains
      (tableToStage.shardOf k) && (stagingState.rowFor 0 0 tableToStage 0 k (stagingState.curStep 0 + 1)).home = 8) = [9] := by
    decide +kernel
  unfold State.stageKeys
  dsimp only
  rw [hkeys, uniqKeys_singleton]
  exact (congrArg (List.mergeSort · _) hhome).trans (List.mergeSort_singleton _)

/-! ## A collective message of the Planner's own task (R319) -/

/-- A reduce-scatter over one ring. -/
def ringSum : CollDesc := { op := 1, fmt := 0, dims := 1, root := 0, src := 0x1000, dst := 0x2000, len := 32 }

def collectiveState : State := inProgress 0 (planOf [taskOfKind 9] [] [ringSum]) readyState

def plannersMessage : MsgHdr :=
  { dest := 0, src := 0, kind := 2, part := 0, attempt := 0, next := false, step := 0, addr := 0, token := 0,
    task := plannerTask }

def firstPass : CollHdr := { coll := 1, dim := 0, dirn := 0, pass := 0, shard := 0, offset := 0 }

/-! ## A transfer beyond partition 7 -/

def transferState : State :=
  inProgress 8 (planOf [taskOfKind 8] [] []) (readyState.putF F.PRT_GRAN_OWNERS 0 8)

end Sys2Proof.Machine

namespace Sys2Proof
open Machine

/-- Refutes O25: a row whose record in the undo journal holds an empty saved slot is staged from that slot, so what is
staged is not of the table's length. -/
theorem not_gatherAndPrefetch : ¬ Obligations.GatherAndPrefetch := by
  unfold Obligations.GatherAndPrefetch
  rintro ⟨-, hstages⟩
  obtain ⟨u, -, -, -, hone, -⟩ := hstages stagingState 0 0 0 tableToStage (planOf [] [tableToStage] [])
    (by decide +kernel) (by decide +kernel) (by decide +kernel)
  obtain ⟨-, hcopied, -⟩ := hone 9 stageKeys_stagingState (by decide +kernel)
  have hempty : (stagingState.committedSlot 0 0 tableToStage 0 9 (stagingState.curStep 0 + 1)).length = 0 := by
    decide +kernel
  rw [← hcopied, rd_length] at hempty
  exact absurd hempty (by decide)

/-- Refutes O30: a reduce-scatter message with the Planner's own task number is for the gather of a re-derived copy, so it
is not kept for the plan's collective that its number would name. -/
theorem not_collectives : ¬ Obligations.Collectives := by
  unfold Obligations.Collectives
  rintro ⟨hmessages, -⟩
  obtain ⟨hkept, -, -⟩ := hmessages collectiveState .carmine plannersMessage firstPass [] ringSum
    (by decide +kernel) rfl (by decide +kernel)
  obtain ⟨u, hu, hinbox, -⟩ := hkept rfl (by decide +kernel)
  have hlost : ((stateAfter (.collectiveMessage .carmine plannersMessage firstPass []) collectiveState).collRun 0 0 0).inbox = [] := by
    decide +kernel
  have hin : ((u.collRun 0 0 0).inbox) ≠ [] := by
    rw [show u.collRun 0 0 0 = _ from hinbox]; exact List.append_ne_nil_of_right_ne_nil _ (List.cons_ne_nil _ _)
  rw [stateAfter_eq hu] at hlost
  exact hin hlost

/-- Refutes O31: in a partition beyond the eight, whose transfers no settling visits, the task of a transfer that went to a
rank hosted here is not done. -/
theorem not_transfersAndIngest : ¬ Obligations.TransfersAndIngest := by
  unfold Obligations.TransfersAndIngest
  rintro ⟨hsends, -⟩
  obtain ⟨hhere, -⟩ := hsends transferState 8 0 300 0 0x20000 (planOf [taskOfKind 8] [] []) (taskOfKind 8)
    { rank := 0, host := 0 } (by decide +kernel) (by decide +kernel) (by decide) (by decide +kernel) rfl (by decide +kernel)
    (by decide +kernel) (by decide) (by decide) (by decide +kernel) rfl (by decide +kernel) (by decide +kernel)
  obtain ⟨u, hu, -, -, hdone, -⟩ := hhere (by decide +kernel) (by decide +kernel) (by decide)
  have hwaits : ((stateAfter (.carmineTransfer 8 0 [{ rank := 0, host := 0 }] 300 0 0x20000 0) transferState).part 8).done.contains 0 = false := by
    decide +kernel
  rw [stateAfter_eq hu, hdone] at hwaits
  exact absurd hwaits (by decide)

end Sys2Proof
end

section
/-! Three claims of commit and ingest that do not hold as stated: a fault report of the next step that cannot be forwarded
(O42), a commit that meets a frozen engine (O43), an END beside a stale admission record (O53). -/

namespace Sys2Proof.Machine
open State

/-! ## A fault report forwarded into a ring that an absent position cuts (R251, R316) -/

/-- On a ring of four modules with every port Up, the position before this one is absent. -/
def cutRing : State :=
  ((List.range 6).foldl (fun s k => s.putF F.FAB_PSTAT_STATE k 5)
    ((inProgress 0 (planOf [] [] []) readyState).putF F.FAB_CFG_X_M1 0 3)).modPort 0 fun x => { x with absent := [3] }

/-- A fault of the next step, from the module after this one. -/
def nextFaultReport : CommitReport :=
  { step := 1, attempt := 0, status := 1, cause := 1, stage := 0, count := 0, faultBn := 0, origin := 1, task := 0, next := true,
    member := 1 }

/-! ## A commit with a frozen queue at OCH-U (R16, R213) -/

/-- A staged row that the step has updated. -/
def rowToRestage : TableSt := { TableSt.reset with staged := [(9, 0x40000)], rowGrads := [(9, [])] }

/-- Partition 1, with cluster 0, at the last position of a step decided to commit, on the host of rank 1, with a row to stage anew and OCH-U's queue
frozen. -/
def frozenCommit : State :=
  ((((inProgress 1 (planOf [] [tableToStage] []) readyState).putF F.PRT_CLUSTERS_MASK 1 1).putF F.PLN_COMMIT_STATUS_DSTATE 1 1).modPart 1
    fun x => { x with stepLen := 1, hosts := [(0, 1), (1, 0)], tables := [(tableKey 0 1, rowToRestage)] }).modOch 8 1 fun q => { q with frozen := true }

/-! ## An END beside a record of a micro-batch the plan does not have (R50) -/

/-- One micro-batch without samples, of a class of length 10. -/
def oneMicroBatch : Classes := { mbSize := 0, mbCount := 1, nclass := 1, maxlen := [10] }

def ingestPlan : Plan := { planOf [] [] [] with classes := some oneMicroBatch }

/-- A feeder with an association, and the record of an admitted micro-batch 1. -/
def staleAdmission : State :=
  ((inProgress 0 ingestPlan (readyState.putF F.STM_PSTAT_UP 0 1)).modPart 0 fun x => { x with
    ends := [{ rank := 0, step := 0, mb := 1, nsample := 0, mac := 2, bad := false, status := some 0, cls := 0 }] }).setPeer
    { mac := 2, live := true, an := 0, old := none, stage := 0, stream := 0, next := 0, buf := [], keys := List.replicate 88 0,
      oldKeys := [], rxPn := 0, oldPn := 0, txPn := 0 }

def endHdr : StreamHdr := { port := 0, mac := 2, type := 5, part := 0, last := false, rank := 0, step := 0, seq := 0 }

/-- `MB` 0 of no sample and no byte. -/
def endPayload : List Byte := List.replicate 16 0

def endFrame : List Byte :=
  withFcs (protect (fromPeer (List.replicate 88 0)) 0 1 (macBytes (staleAdmission.getF F.STM_PMAC_MAC 0)) (macBytes 2)
    (streamBytes endHdr endPayload))

theorem heard_endFrame : Heard staleAdmission 0 endFrame endHdr endPayload 5 ∧
    (staleAdmission.hear 0 endFrame).1 = staleAdmission.acceptPn 2 0 1 := by
  obtain ⟨hprotected, -⟩ := streamFramesReadBack staleAdmission endHdr endPayload (by decide +kernel) (by decide) (by decide)
    (by decide) (by decide) (by decide) (by decide)
  obtain ⟨heard, haccepts, -⟩ := hprotected (fromPeer (List.replicate 88 0)) 0 0 1 (by decide +kernel) (by decide)
    (by decide) (by decide) (by decide) (by decide) (by decide)
  exact ⟨heard, haccepts⟩

theorem exec_endFrame : exec (.endFrame 0 endFrame [] []) staleAdmission =
    .next ((staleAdmission.acceptPn 2 0 1).takeEnd endHdr 0 0 0) := by
  obtain ⟨heard, haccepts⟩ := heard_endFrame
  have hbytes : endFrame ++ [] ++ [] = endFrame := by rw [List.append_nil, List.append_nil]
  rw [← hbytes] at heard haccepts
  refine congrArg Host.Outcome.next ((frameIn_of_heard heard _).trans ?_)
  rw [haccepts, if_neg (by decide), if_neg (by decide +kernel)]
  rfl

end Sys2Proof.Machine

namespace Sys2Proof
open Machine

/-- Refutes O42: a fault report of the next step is forwarded in its ring, where a member behind an absent position is not
reached and `FAB_STAT.UNREACH` counts it, though the registers are said to stand. -/
theorem not_commitReports : ¬ Obligations.CommitReports := by
  unfold Obligations.CommitReports
  rintro ⟨-, hcomeIn⟩
  obtain ⟨-, htaken⟩ := hcomeIn cutRing 0 nextFaultReport (by decide) (by decide +kernel) (by decide) (by decide +kernel)
    (by decide +kernel) (by decide +kernel)
  obtain ⟨u, hu, -, -, -, -, -, -, -, hnext⟩ := htaken (.inr (by decide +kernel))
  obtain ⟨-, hregs⟩ := hnext rfl (by decide +kernel) (by decide) (by decide +kernel) (by decide +kernel)
  have hsame : u.getF F.FAB_STAT_UNREACH 0 = cutRing.getF F.FAB_STAT_UNREACH 0 := by
    rw [State.getF, State.getF, State.word, State.word, hregs]
  have hcounted : (stateAfter (.commitReportReceive 0 nextFaultReport) cutRing).getF F.FAB_STAT_UNREACH 0 ≠
      cutRing.getF F.FAB_STAT_UNREACH 0 := by decide +kernel
  rw [stateAfter_eq hu] at hcounted
  exact hcounted hsame

/-- Refutes O43: a row staged anew at the commit beat sends a frame to a frozen queue of OCH-U, which is a module fault and
restores the partition's tiles, though the tiles are said to stand. -/
theorem not_rerunsAndCommits : ¬ Obligations.RerunsAndCommits := by
  unfold Obligations.RerunsAndCommits
  rintro ⟨-, hcommits⟩
  obtain ⟨-, hbeat⟩ := hcommits frozenCommit 1 (planOf [] [tableToStage] []) (by decide)
  obtain ⟨u, hu, -, -, -, -, -, -, -, -, -, htiles, -⟩ := hbeat (by decide +kernel) (by decide +kernel) (by decide +kernel)
    (by decide +kernel) (by decide +kernel) (by decide +kernel) (by decide +kernel) (by decide +kernel) (by decide +kernel)
  have hrestored : ((stateAfter (.commitBeat 1) frozenCommit).tile 0).restored ≠ (frozenCommit.tile 0).restored := by
    decide +kernel
  rw [stateAfter_eq hu, State.tile, htiles] at hrestored
  exact hrestored rfl

/-- Refutes O53: with a record that micro-batch 1 was admitted, which the plan does not have, the template of slot 1 is
selected for it, though the slot is said to have none. -/
theorem not_ingestAdmits : ¬ Obligations.IngestAdmits := by
  unfold Obligations.IngestAdmits
  rintro ⟨-, hadmits⟩
  obtain ⟨-, hwhole, -⟩ := hadmits staleAdmission 0 endFrame [] [] _ endHdr endPayload ingestPlan oneMicroBatch rfl
    (by simpa using heard_endFrame.1) (by decide) (by decide +kernel) (by decide +kernel) (by decide +kernel) (by decide +kernel)
    rfl (by decide)
  obtain ⟨hclass, -⟩ := hwhole (by decide +kernel) (by decide) (by decide +kernel)
  obtain ⟨u, hu, -, -, -, -, hslots⟩ := hclass 0 (by decide +kernel)
  obtain ⟨-, hslot⟩ := hslots rfl
  have hother : (((staleAdmission.acceptPn 2 0 1).takeEnd endHdr 0 0 0).part 0).slots.contains
      (0, 0, 1, none, some 0) = false := by decide +kernel
  rw [Host.Outcome.next.inj (exec_endFrame.symm.trans hu)] at hother
  rw [show (u.part 0).slots.contains (0, 0, 1, none, some 0) = true from List.contains_iff_mem.mpr hslot] at hother
  exact absurd hother (by decide)

end Sys2Proof
end

section
/-! The DOE mailbox (O46): what an IDE stream reads as after it is set, and each request's answer. -/

namespace Sys2Proof.Machine

/-- The entry put last under a key is the one found under it. -/
theorem find?_replaced {α : Type} (key : α → Nat) (l : List α) (x : α) :
    ((l.filter fun y => key y ≠ key x) ++ [x]).find? (fun y => key y = key x) = some x := by
  rw [List.find?_append, List.find?_eq_none.mpr (by simp), List.find?_singleton]
  simp

/-- An entry under another key is found as before. -/
theorem find?_replaced_ne {α : Type} (key : α → Nat) (l : List α) (x : α) {k : Nat} (hk : k ≠ key x) :
    ((l.filter fun y => key y ≠ key x) ++ [x]).find? (fun y => key y = k) = l.find? fun y => key y = k := by
  have hx : ¬ key x = k := fun h => hk h.symm
  rw [List.find?_append, List.find?_filter, List.find?_singleton, if_neg (by simpa using hx), Option.or_none]
  congr 1
  funext y
  rw [Bool.eq_iff_iff]
  simp only [decide_eq_true_eq, ne_eq, decide_not, Bool.not_eq_true', decide_eq_false_iff_not]
  exact ⟨fun h => h.2, fun h => ⟨fun hyx => hk (h ▸ hyx), h⟩⟩

namespace State

theorem ideStream_id (s : State) (i : Nat) : (s.ideStream i).id = i := by
  unfold ideStream
  cases h : s.ide.find? (·.id = i) with
  | none => rfl
  | some x => exact by simpa using List.find?_some h

theorem ideStream_setIde (s : State) {x : IdeStream} {i : Nat} (h : x.id = i) : (s.setIde x).ideStream i = x := by
  subst h
  exact congrArg (Option.getD · _) (find?_replaced IdeStream.id s.ide x)

theorem ideStream_setIde_ne (s : State) {x : IdeStream} {i j : Nat} (h : x.id = i) (hj : j ≠ i) :
    (s.setIde x).ideStream j = s.ideStream j := by
  subst h
  exact congrArg (Option.getD · _) (find?_replaced_ne IdeStream.id s.ide x hj)

theorem ideStream_congr {s t : State} (h : t.ide = s.ide) (i : Nat) : t.ideStream i = s.ideStream i := by
  rw [ideStream, h, ideStream]

/-- A stream turned off reads as one that was never set up. -/
theorem ideStream_of_dropped (s : State) (i : Nat) :
    { s with ide := s.ide.filter (·.id ≠ i) }.ideStream i = { id := i, sets := [], tx := none, stage := 0, pendingKeys := 0 } := by
  have hnone : (s.ide.filter (·.id ≠ i)).find? (·.id = i) = none := List.find?_eq_none.mpr (by simp)
  exact congrArg (Option.getD · _) hnone

theorem ideStream_of_dropped_ne (s : State) {i j : Nat} (hj : j ≠ i) :
    { s with ide := s.ide.filter (·.id ≠ i) }.ideStream j = s.ideStream j := by
  have hsame : (s.ide.filter (·.id ≠ i)).find? (·.id = j) = s.ide.find? (·.id = j) := by
    rw [List.find?_filter]
    congr 1
    funext y
    rw [Bool.eq_iff_iff]
    simp only [decide_eq_true_eq, ne_eq, decide_not, Bool.not_eq_true', decide_eq_false_iff_not]
    exact ⟨fun h => h.2, fun h => ⟨fun hyi => hj (h ▸ hyi), h⟩⟩
  exact congrArg (Option.getD · _) hsame

/-- While the mailbox answers, a request acts. -/
theorem doe_of_open {s : State} (hopen : s.doeOpen = true) (act : State → State) : s.doe act = act s := by
  rw [doe, if_pos hopen]

end State

variable {s : State} (hopen : s.doeOpen = true) (i : Nat)
include hopen

theorem exec_getChain : exec (.getChain i) s = .next (if Config.ideHeld i = true
    then (s.setIde { s.ideStream i with stage := 1 }).emit (.doe 0x81 i s.chain) else s.doeErr i 2) := by
  refine congrArg Host.Outcome.next ((State.doe_of_open hopen _).trans ?_)
  cases Config.ideHeld i <;> rfl

theorem exec_kemKey_of_held (ek : List Byte) (n : BitVec 256) (hrng : s.flag F.SEC_STATE_RNGFAIL 0 = false)
    (hlen : ek.length = 1568) (hheld : Config.ideHeld i = true) : exec (.kemKey i ek n) s = .next
      (if (s.ideStream i).stage ≠ 1 then (s.setIde { s.ideStream i with stage := 0 }).doeErr i 1
      else
        let (ct, ss) := Config.kemEncaps ek s.ident.drbg
        let t := s.transcript i i ek n ct
        (({ s with ident := { s.ident with drbg := s.ident.drbg + 1 } }).setIde { s.ideStream i with
            stage := 2, pendingKeys := BitVec.ofNat 1536 (leNat (shakeBytes 192 (ss ++ t))) }).emit
          (.doe 0x82 i (ct ++ leBytes 2 (s.aliasSign t).length ++ s.aliasSign t))) := by
  refine congrArg Host.Outcome.next ((State.doe_of_open hopen _).trans ?_)
  dsimp only
  have hasked : ¬ (!true) = true := Bool.false_ne_true
  rw [hheld, hrng, hlen, if_neg hasked]
  by_cases hstage : (s.ideStream i).stage ≠ 1
  · exact (if_pos hstage).trans (if_pos hstage).symm
  · refine (if_neg hstage).trans (Eq.trans ?_ (if_neg hstage).symm)
    rw [if_neg (not_not_intro rfl), if_neg Bool.false_ne_true]

theorem exec_kemKey_of_notHeld (ek : List Byte) (n : BitVec 256) (hheld : Config.ideHeld i = false) :
    exec (.kemKey i ek n) s = .next (s.doeErr i 2) := by
  refine congrArg Host.Outcome.next ((State.doe_of_open hopen _).trans ?_)
  exact if_pos (by rw [hheld]; rfl)

theorem exec_keyGo {k : Nat} (hk : k ≤ 1) : exec (.keyGo i k) s = .next (if Config.ideHeld i = true then
      if (s.ideStream i).stage ≠ 2 then (s.setIde { s.ideStream i with stage := 0 }).doeErr i 1
      else (s.setIde { s.ideStream i with
        sets := ((s.ideStream i).sets.filter (·.1 ≠ k)) ++ [(k, (s.ideStream i).pendingKeys)], tx := some k, stage := 0,
        pendingKeys := 0 }).emit (.doe 0x83 i [])
    else s.doeErr i 2) := by
  refine congrArg Host.Outcome.next ((State.doe_of_open hopen _).trans ?_)
  have hset : ¬ 1 < k := by omega
  cases Config.ideHeld i
  · rfl
  · dsimp only
    rw [if_neg hset]
    rfl

theorem exec_ideStop : exec (.ideStop i) s = .next (if Config.ideHeld i = true
    then ({ s with ide := s.ide.filter (·.id ≠ i) }).emit (.doe 0x84 i []) else s.doeErr i 2) := by
  refine congrArg Host.Outcome.next ((State.doe_of_open hopen _).trans ?_)
  cases Config.ideHeld i <;> rfl

end Sys2Proof.Machine

namespace Sys2Proof
open Machine State

/-- Settles O46: each request's answer by whether the stream is held and how far its exchange is. -/
theorem mailboxAnswers : Obligations.MailboxAnswers := by
  unfold Obligations.MailboxAnswers
  intro s i hopen x held
  have hid : x.id = i := s.ideStream_id i
  refine ⟨?_, ?_, ?_, ?_, fun n => congrArg Host.Outcome.next (doe_of_open hopen _), ?_⟩
  · refine ⟨_, exec_getChain hopen i, fun h => ?_, fun h => ?_, ?_, fun j hj => ?_⟩
    · rw [if_pos h]; exact ⟨rfl, ideStream_setIde s (x := { x with stage := 1 }) hid⟩
    · rw [if_neg (by rw [show Config.ideHeld i = false from h]; decide)]; exact ⟨rfl, rfl⟩
    · split <;> rfl
    · split
      · exact ideStream_setIde_ne s (x := { x with stage := 1 }) hid hj
      · rfl
  · intro ek n hrng hlen ct t sig
    cases hheld : held with
    | false => exact ⟨_, exec_kemKey_of_notHeld hopen i ek n hheld, nofun, nofun, rfl, fun j _ => rfl⟩
    | true =>
      refine ⟨_, exec_kemKey_of_held hopen i ek n hrng hlen hheld, fun _ h1 => ?_, fun _ h1 => ?_, ?_, fun j hj => ?_⟩
      · rw [if_neg (not_not_intro h1)]
        let s' := { s with ident := { s.ident with drbg := s.ident.drbg + 1 } }
        let y := { x with
          stage := 2, pendingKeys := BitVec.ofNat 1536 (leNat (shakeBytes 192 ((Config.kemEncaps ek s.ident.drbg).2 ++ t))) }
        have hy : (s'.setIde y).ideStream i = y := ideStream_setIde s' hid
        refine ⟨rfl, (congrArg IdeStream.stage hy).trans rfl, (congrArg IdeStream.pendingKeys hy).trans rfl,
          (congrArg IdeStream.sets hy).trans rfl, rfl⟩
      · rw [if_pos h1]; exact ⟨rfl, ideStream_setIde s (x := { x with stage := 0 }) hid, rfl⟩
      · split <;> rfl
      · split
        · exact ideStream_setIde_ne s (x := { x with stage := 0 }) hid hj
        · exact ideStream_setIde_ne { s with ident := { s.ident with drbg := s.ident.drbg + 1 } } (x := { x with
            stage := 2, pendingKeys := BitVec.ofNat 1536 (leNat (shakeBytes 192 ((Config.kemEncaps ek s.ident.drbg).2 ++ t))) })
            hid hj
  · intro k hk
    let y : IdeStream :=
      { x with sets := (x.sets.filter fun z => z.1 ≠ k) ++ [(k, x.pendingKeys)], tx := some k, stage := 0, pendingKeys := 0 }
    refine ⟨_, exec_keyGo hopen i hk, fun h h2 => ?_, fun h h2 => ?_, ?_, fun j hj => ?_⟩
    · rw [if_pos h, if_neg (not_not_intro h2)]
      have hy : (s.setIde y).ideStream i = y := ideStream_setIde s hid
      have hsets : ((s.setIde y).ideStream i).sets = (x.sets.filter fun z => z.1 ≠ k) ++ [(k, x.pendingKeys)] :=
        congrArg IdeStream.sets hy
      refine ⟨rfl, (congrArg IdeStream.tx hy).trans rfl, ?_, fun z hz hzk => ?_⟩
      · change _ ∈ ((s.setIde y).ideStream i).sets
        rw [hsets]
        exact List.mem_append_right _ (List.mem_singleton_self _)
      · change _ ∈ ((s.setIde y).ideStream i).sets
        rw [hsets]
        exact List.mem_append_left _ (List.mem_filter.mpr ⟨hz, by simpa using hzk⟩)
    · rw [if_pos h, if_pos h2]; exact ⟨rfl, ideStream_setIde s (x := { x with stage := 0 }) hid⟩
    · split
      · split <;> rfl
      · rfl
    · split
      · split
        · exact ideStream_setIde_ne s (x := { x with stage := 0 }) hid hj
        · exact ideStream_setIde_ne s (x := y) hid hj
      · rfl
  · refine ⟨_, exec_ideStop hopen i, fun h => ?_, ?_, fun j hj => ?_⟩
    · rw [if_pos h]
      have hoff := ideStream_of_dropped s i
      exact ⟨rfl, (congrArg IdeStream.sets hoff).trans rfl, (congrArg IdeStream.tx hoff).trans rfl⟩
    · split <;> rfl
    · split
      · exact ideStream_of_dropped_ne s hj
      · rfl
  · intro hrng
    refine ⟨_, _, congrArg Host.Outcome.next ((doe_of_open hopen _).trans (if_neg (by rw [hrng]; decide))), rfl, rfl, rfl⟩

end Sys2Proof
end

section
/-! Beat markers (O10): what a BEAT flit without hold entries does. -/

namespace Sys2Proof.Machine
namespace State

variable (s : State)

/-- A counter that saturates. -/
theorem getF_bumpBy (f : Fld) (i n : Nat) (h : f.lo ≤ f.hi) (h64 : f.hi < 64) :
    (s.bumpBy f i n).getF f i = min (s.getF f i + n) (2 ^ f.width - 1) := by
  have hwidth : f.width = f.hi + 1 - f.lo := rfl
  have hpos : 0 < 2 ^ f.width := Nat.two_pow_pos _
  rw [bumpBy, getF_putF _ _ _ _ h h64, ← hwidth, Nat.mod_eq_of_lt (by omega)]

theorem word_bumpBy_ne (f : Fld) (i n : Nat) {o : Nat} (h : o ≠ f.off i) : (s.bumpBy f i n).word o = s.word o :=
  word_putF_ne _ _ _ _ h

theorem getF_bumpBy_off (f g : Fld) (i j n : Nat) (h : g.off j ≠ f.off i) : (s.bumpBy f i n).getF g j = s.getF g j :=
  getF_putF_off _ _ _ _ _ _ h

theorem flag_bumpBy_off (f g : Fld) (i j n : Nat) (h : g.off j ≠ f.off i) : (s.bumpBy f i n).flag g j = s.flag g j := by
  rw [flag, getF_bumpBy_off _ _ _ _ _ _ h, flag]

/-- The BN that a marker's distance gives is the one after the marker's own. -/
theorem takeBn_sub (b : Nat) : s.takeBn (b - s.bn) =
    { s with retake := false, bnStep := if b = s.bn then s.bnStep else some (b + 1) } := by
  have hzero : ((b : Int) - s.bn = 0) = (b = s.bn) := by rw [eq_iff_iff]; omega
  have hnext : ((s.bn : Int) + 1 + (b - s.bn)).toNat = b + 1 := by omega
  rw [takeBn, hnext]
  simp only [hzero]

@[simp] theorem word_slewTo (d : Int) (o : Nat) : (s.slewTo d).word o = s.word o := rfl
@[simp] theorem getF_slewTo (d : Int) (f : Fld) (i : Nat) : (s.slewTo d).getF f i = s.getF f i := rfl
@[simp] theorem port_slewTo (d : Int) (k : Nat) : (s.slewTo d).port k = s.port k := rfl

end State

/-- No register of the beat's block is one of `FAB_PFEC`. -/
theorem pfec_off_ne {k o : Nat} (h : o < 0x600000) : o ≠ F.FAB_PFEC_FEC.off k := by
  simp only [Fld.off, F.FAB_PFEC_FEC]; omega

/-- An edge's place within 256 cycles fits `OFFSET`. -/
theorem edge_mod_lt (e : Int) : (e % 256).toNat < 256 := by omega

/-- A good marker has come by port `k`: its corrections are counted and the port keeps that it came. -/
structure MarkerCame (s : State) (k : Nat) (x : FlitArrival) (t : State) : Prop where
  frame : t = { s with regs := t.regs, ports := t.ports }
  word : ∀ o, o ≠ F.FAB_PFEC_FEC.off k → t.word o = s.word o
  count : t.getF F.FAB_PFEC_FEC k = min (s.getF F.FAB_PFEC_FEC k + x.fec) (2 ^ F.FAB_PFEC_FEC.width - 1)
  good : (t.port k).goodMarker = true
  other : ∀ j, j ≠ k → t.port j = s.port j

namespace MarkerCame
open State

variable {s t : State} {k : Nat} {x : FlitArrival}

theorem intro (s : State) (k : Nat) (x : FlitArrival) (mark : Option (Int × Int)) :
    MarkerCame s k x ((s.bumpBy F.FAB_PFEC_FEC k x.fec).modPort k fun y => { y with goodMarker := true, mark := mark }) where
  frame := rfl
  word := fun o ho => by rw [modPort_eq, word_setPort, word_bumpBy_ne _ _ _ _ ho]
  count := by rw [modPort_eq, getF_setPort, getF_bumpBy _ _ _ _ (by decide) (by decide)]
  good := by rw [modPort_eq, port_setPort]
  other := fun j hj => by rw [modPort_eq, port_setPort_ne _ _ hj]; rfl

theorem getF (h : MarkerCame s k x t) (f : Fld) (hf : f.off 0 < 0x600000) : t.getF f 0 = s.getF f 0 := by
  rw [State.getF, h.word _ (pfec_off_ne hf), State.getF]

theorem flag (h : MarkerCame s k x t) (f : Fld) (hf : f.off 0 < 0x600000) : t.flag f 0 = s.flag f 0 := by
  rw [State.flag, h.getF f hf, State.flag]

theorem bn (h : MarkerCame s k x t) : t.bn = s.bn := h.getF F.PLN_BN_BN (by decide)

end MarkerCame

section
open State

variable {s : State} {k : Nat} {b : BeatBody} {x : FlitArrival} (hup : s.portUp k = true) (hholds : b.holds = [])
include hup hholds

theorem exec_beatFlit_answer (hdir : b.dir ≠ 0) : exec (.beatFlit k b x) s = .next (s.bumpBy F.FAB_PFEC_FEC k x.fec) := by
  refine congrArg Host.Outcome.next ((if_neg (by rw [hup]; decide)).trans ?_)
  rw [hholds]
  exact if_pos hdir

/-- A marker of the master followed, on the upstream port. -/
theorem exec_beatFlit_marker (hdir : b.dir = 0) (hheld : b.holdover = false)
    (hmaster : b.master = s.getF F.PLN_BEAT_STATUS_CUR_MASTER 0) (hport : s.getF F.PLN_BEAT_STATUS_UPSTREAM 0 = k) :
    ∃ t, MarkerCame s k x t ∧ exec (.beatFlit k b x) s = .next (if s.getF F.PLN_BEAT_STATUS_SRC_ACTIVE 0 = 1 then
        let u := (t.slewTo (s.edgeOf k b x.arrive)).putF F.PLN_BEAT_STATUS_OFFSET 0 (s.edgeOf k b x.arrive % 256).toNat
        if u.retake = true ∧ ¬ u.flag F.PLN_BEAT_STATUS_HOLDOVER 0 = true then u.takeBn (b.bn - s.bn) else u
      else if s.getF F.PLN_BEAT_CFG_SRC 0 ≤ 1 ∧ ¬ s.flag F.PLN_BEAT_STATUS_HOLDOVER 0 = true then
        ((t.putF F.PLN_BEAT_STATUS_SRC_ACTIVE 0 1).slewTo (s.edgeOf k b x.arrive)).takeBn (b.bn - s.bn)
      else t) := by
  have came := MarkerCame.intro s k x (some ((b.bn : Int) - s.bn, s.edgeOf k b x.arrive))
  refine ⟨_, came, congrArg Host.Outcome.next ((if_neg (by rw [hup]; decide)).trans ?_)⟩
  rw [hholds]
  have same : ∀ f : Fld, f.off 0 < 0x600000 →
      (s.bumpBy F.FAB_PFEC_FEC k x.fec).getF f 0 = s.getF f 0 := fun f h => getF_bumpBy_off _ _ _ _ _ _ (pfec_off_ne h)
  have hcur := same F.PLN_BEAT_STATUS_CUR_MASTER (by decide)
  have hfollowed : ¬ (!b.holdover ∧ (s.bumpBy F.FAB_PFEC_FEC k x.fec).earlier b.master = true) := by
    rintro ⟨-, hearlier⟩
    simp only [State.earlier, hcur, hmaster, ne_eq, not_true_eq_false, decide_false, Bool.false_and] at hearlier
    exact Bool.false_ne_true hearlier
  have hbn : (s.bumpBy F.FAB_PFEC_FEC k x.fec).bn = s.bn := same F.PLN_BN_BN (by decide)
  have hgood : ¬ (!(!b.holdover && b.master = (s.bumpBy F.FAB_PFEC_FEC k x.fec).getF F.PLN_BEAT_STATUS_CUR_MASTER 0)) = true := by
    rw [hheld, hcur, hmaster]; simp
  dsimp only [List.foldl_nil]
  rw [if_neg (not_not_intro hdir), if_neg hfollowed, if_neg hgood]
  simp only [hbn]
  rw [← came.getF F.PLN_BEAT_STATUS_SRC_ACTIVE (by decide), ← came.getF F.PLN_BEAT_CFG_SRC (by decide),
    ← came.flag F.PLN_BEAT_STATUS_HOLDOVER (by decide)]
  exact if_neg (not_not_intro (hport.symm.trans (came.getF F.PLN_BEAT_STATUS_UPSTREAM (by decide)).symm))

end
end Sys2Proof.Machine

namespace Sys2Proof
open Machine State

/-- Settles O10: the three outcomes of a marker on the upstream port, and an acknowledgement. -/
theorem beatMarkers : Obligations.BeatMarkers := by
  unfold Obligations.BeatMarkers
  refine ⟨?_, ?_, ?_⟩
  · intro s k b x hk hup hholds hdir hheld hmaster hport hsrc
    obtain ⟨t, came, hexec⟩ := exec_beatFlit_marker hup hholds (x := x) hdir hheld hmaster hport
    generalize s.edgeOf k b x.arrive = edge at hexec ⊢
    rw [if_pos hsrc] at hexec
    generalize hu : (t.slewTo edge).putF F.PLN_BEAT_STATUS_OFFSET 0 (edge % 256).toNat = u at hexec
    have hflag : u.flag F.PLN_BEAT_STATUS_HOLDOVER 0 = s.flag F.PLN_BEAT_STATUS_HOLDOVER 0 := by
      rw [← hu, flag, getF_putF_bits _ _ _ _ _ _ (by decide), getF_slewTo, came.getF _ (by decide), flag]
    have hbn : u.bn = s.bn := by
      rw [← hu, bn, getF_putF_off _ _ _ _ _ _ (by decide), getF_slewTo, came.getF _ (by decide), bn]
    have hoffset : u.getF F.PLN_BEAT_STATUS_OFFSET 0 = (edge % 256).toNat := by
      rw [← hu, getF_putF _ _ _ _ (by decide) (by decide)]; exact Nat.mod_eq_of_lt (edge_mod_lt _)
    have hcount : u.getF F.FAB_PFEC_FEC k = min (s.getF F.FAB_PFEC_FEC k + x.fec) (2 ^ F.FAB_PFEC_FEC.width - 1) := by
      rw [← hu, getF_putF_off _ _ _ _ _ _ (pfec_off_ne (by decide)).symm, getF_slewTo, came.count]
    have hwords : ∀ o, o ≠ F.PLN_BEAT_STATUS_OFFSET.base → o ≠ F.FAB_PFEC_FEC.off k → u.word o = s.word o := fun o ho hp => by
      rw [← hu, word_putF_ne _ _ _ _ ho, word_slewTo, came.word _ hp]
    have hself : (u.port k).goodMarker = true := by rw [← hu, port_putF, port_slewTo, came.good]
    have hother : ∀ j, j ≠ k → u.port j = s.port j := fun j hj => by rw [← hu, port_putF, port_slewTo, came.other _ hj]
    have hframe : u = { s with regs := u.regs, ports := u.ports, slew := edge } := by
      rw [← hu, came.frame]; rfl
    have hslew : u.slew = edge := by rw [hframe]
    have hstep : u.bnStep = s.bnStep := by rw [hframe]
    have hretakes : u.retake = s.retake := by rw [hframe]
    dsimp only at hexec
    rw [hflag, hretakes] at hexec
    by_cases hretake : s.retake = true ∧ ¬ s.flag F.PLN_BEAT_STATUS_HOLDOVER 0 = true
    · rw [if_pos hretake, ← hbn, takeBn_sub, hbn] at hexec
      obtain ⟨hre, hnot⟩ := hretake
      refine ⟨_, hexec, hslew, hoffset, hself, ?_, hcount, hwords, hother, ?_⟩
      · by_cases hb : b.bn = s.bn <;> simp [hb, hre, hnot, hstep]
      · rw [hframe]
    · rw [if_neg hretake] at hexec
      refine ⟨_, hexec, hslew, hoffset, hself, ?_, hcount, hwords, hother, ?_⟩
      · rw [if_neg (fun h => hretake ⟨h.1, by rw [h.2.1]; decide⟩), hstep]
      · rw [hframe]
  · intro s k b x hk hup hholds hdir hheld hmaster hport hsrc hcfg hhold
    obtain ⟨t, came, hexec⟩ := exec_beatFlit_marker hup hholds (x := x) hdir hheld hmaster hport
    generalize s.edgeOf k b x.arrive = edge at hexec ⊢
    rw [if_neg hsrc, if_pos ⟨hcfg, by rw [hhold]; decide⟩] at hexec
    generalize hu : (t.putF F.PLN_BEAT_STATUS_SRC_ACTIVE 0 1).slewTo edge = u at hexec
    have hbn : u.bn = s.bn := by
      rw [← hu, bn, getF_slewTo, getF_putF_off _ _ _ _ _ _ (by decide), came.getF _ (by decide), bn]
    have hactive : u.getF F.PLN_BEAT_STATUS_SRC_ACTIVE 0 = 1 := by
      rw [← hu, getF_slewTo, getF_putF _ _ _ _ (by decide) (by decide)]; rfl
    have hself : (u.port k).goodMarker = true := by rw [← hu, port_slewTo, port_putF, came.good]
    have hwords : ∀ o, o ≠ F.PLN_BEAT_STATUS_SRC_ACTIVE.base → o ≠ F.FAB_PFEC_FEC.off k → u.word o = s.word o :=
      fun o ho hp => by rw [← hu, word_slewTo, word_putF_ne _ _ _ _ ho, came.word _ hp]
    have hother : ∀ j, j ≠ k → u.port j = s.port j := fun j hj => by rw [← hu, port_slewTo, port_putF, came.other _ hj]
    have hframe : u = { s with regs := u.regs, ports := u.ports, slew := edge } := by
      rw [← hu, came.frame]; rfl
    have hslew : u.slew = edge := by rw [hframe]
    have hstep : u.bnStep = s.bnStep := by rw [hframe]
    rw [← hbn, takeBn_sub, hbn] at hexec
    refine ⟨_, hexec, hslew, hactive, ?_, hself, hwords, hother, ?_⟩
    · rw [hstep]
    · rw [hframe]
  · intro s k b x hk hup hholds hdir
    exact ⟨_, exec_beatFlit_answer hup hholds hdir, getF_bumpBy _ _ _ _ (by decide) (by decide),
      fun o ho => word_bumpBy_ne _ _ _ _ ho, rfl⟩

end Sys2Proof
end

section
/-! SUPPORT. A write to a register, field by field: what it makes of each field, and which words it leaves. -/

namespace Sys2Proof.Machine

/-! ## One field -/

/-- A bit after a write of `v` that covers it, by the access type of its field (R10). -/
def Access.written (a : Access) (old v : Bool) : Bool := match a with
  | .rw => v
  | .w1c => old && !v
  | .w1s => old || v
  | _ => old

/-- A bit of a field after a write of the bits [hi:lo], by the field's access type (R10). -/
theorem State.fieldWrite_getLsbD_has (f : Fld) (hi lo : Nat) (v w : Word) {b : Nat} (h64 : b < 64) (hb : f.has b = true) :
    (State.fieldWrite f hi lo v w).getLsbD b =
      if lo ≤ b ∧ b ≤ hi then f.acc.written (w.getLsbD b) (v.getLsbD b)
      else w.getLsbD b := by
  simp only [Fld.has, Bool.and_eq_true, decide_eq_true_eq] at hb
  have hmask : (fieldMask (min f.hi hi) (max f.lo lo)).getLsbD b = decide (lo ≤ b ∧ b ≤ hi) := by
    rw [fieldMask_getLsbD, Bool.eq_iff_iff]; simp only [Bool.and_eq_true, decide_eq_true_eq]; omega
  unfold State.fieldWrite
  split
  · next hout => rw [if_neg (by omega)]
  · by_cases hin : lo ≤ b ∧ b ≤ hi <;> cases f.acc <;>
      simp only [Access.written, BitVec.getLsbD_or, BitVec.getLsbD_and, BitVec.getLsbD_not, hmask, hin, h64, and_self, decide_true, decide_false,
        if_true, if_false, Bool.not_true, Bool.not_false, Bool.and_true, Bool.and_false, Bool.or_false, Bool.false_or, Bool.true_and]

/-- A write of one field leaves the bits of the others. -/
theorem State.fieldWrite_getLsbD_not (f : Fld) (hi lo : Nat) (v w : Word) {b : Nat} (hb : f.has b = false) :
    (State.fieldWrite f hi lo v w).getLsbD b = w.getLsbD b := by
  by_cases h64 : b < 64
  · have hmask : (fieldMask (min f.hi hi) (max f.lo lo)).getLsbD b = false := by
      rw [Bool.eq_false_iff] at hb ⊢
      rw [fieldMask_getLsbD]
      simp only [Fld.has, ne_eq, Bool.and_eq_true, decide_eq_true_eq] at hb ⊢
      omega
    unfold State.fieldWrite
    split
    · rfl
    · cases f.acc <;>
        simp only [BitVec.getLsbD_or, BitVec.getLsbD_and, BitVec.getLsbD_not, hmask, h64, decide_true, Bool.not_false,
          Bool.and_true, Bool.and_false, Bool.or_false]
  · rw [BitVec.getLsbD_of_ge _ _ (by omega), BitVec.getLsbD_of_ge _ _ (by omega)]

/-! ## The fields of a register -/

/-- A word after a write of its bits [hi:lo], for the fields `fs` of its register; fields with a command of their own keep
their value. -/
def writtenWord (fs : List Fld) (hi lo : Nat) (v w : Word) : Word :=
  fs.foldl (fun w f => if f.own then w else State.fieldWrite f hi lo v w) w

/-- Bits that belong to none of the fields stand. -/
theorem writtenWord_getLsbD_none (fs : List Fld) (hi lo : Nat) (v w : Word) {b : Nat} (h : ∀ f ∈ fs, f.has b = false) :
    (writtenWord fs hi lo v w).getLsbD b = w.getLsbD b := by
  induction fs generalizing w with
  | nil => rfl
  | cons f fs ih =>
    rw [writtenWord, List.foldl_cons, ← writtenWord, ih _ fun g hg => h g (List.mem_cons_of_mem _ hg)]
    split
    · rfl
    · exact State.fieldWrite_getLsbD_not _ _ _ _ _ (h f List.mem_cons_self)

/-- A bit of a field is what the field's own write makes of it. -/
theorem writtenWord_getLsbD {r : RegRow} (hr : r.disjoint) (hi lo : Nat) (v w : Word) {f : Fld} (hf : f ∈ r.fields) {b : Nat}
    (hb : f.has b = true) :
    (writtenWord r.fields hi lo v w).getLsbD b = if f.own then w.getLsbD b else (State.fieldWrite f hi lo v w).getLsbD b := by
  obtain ⟨pre, post, hsplit⟩ := List.append_of_mem hf
  have apart : ∀ g : Fld, f.hi < g.lo ∨ g.hi < f.lo → g.has b = false := by
    intro g hg
    rw [Bool.eq_false_iff]
    simp only [Fld.has, ne_eq, Bool.and_eq_true, decide_eq_true_eq] at hb ⊢
    omega
  unfold RegRow.disjoint at hr
  rw [hsplit, List.pairwise_append, List.pairwise_cons] at hr
  obtain ⟨-, ⟨hpost, -⟩, hpre⟩ := hr
  have hbefore : (writtenWord pre hi lo v w).getLsbD b = w.getLsbD b :=
    writtenWord_getLsbD_none _ _ _ _ _ fun g hg => apart g (hpre g hg f List.mem_cons_self).symm
  rw [hsplit, writtenWord, List.foldl_append, List.foldl_cons, ← writtenWord, ← writtenWord,
    writtenWord_getLsbD_none _ _ _ _ _ fun g hg => apart g (hpost g hg)]
  split
  · exact hbefore
  · by_cases h64 : b < 64
    · rw [State.fieldWrite_getLsbD_has _ _ _ _ _ h64 hb, State.fieldWrite_getLsbD_has _ _ _ _ _ h64 hb, hbefore]
    · rw [BitVec.getLsbD_of_ge _ _ (by omega), BitVec.getLsbD_of_ge _ _ (by omega)]

/-- Equal bits of a field are an equal field. -/
theorem getBits_ext {v w : Word} {hi lo : Nat} (h : ∀ b, lo ≤ b → b ≤ hi → v.getLsbD b = w.getLsbD b) :
    getBits v hi lo = getBits w hi lo := by
  rw [getBits_eq, getBits_eq]
  congr 1
  apply BitVec.eq_of_getLsbD_eq
  intro i hi'
  rw [BitVec.getLsbD_extractLsb', BitVec.getLsbD_extractLsb', h (lo + i) (by omega) (by omega)]

namespace State

variable (s : State)

theorem writeFields_of_regAt {o : Nat} {r : RegRow} {i : Nat} (h : regAt o = some (r, i)) (hi lo : Nat) (v : Word) :
    s.writeFields o hi lo v = s.setWord o (writtenWord r.fields hi lo v (s.word o)) := by
  simp [writeFields, h, writtenWord]

theorem writeFields_eq (o hi lo : Nat) (v : Word) :
    s.writeFields o hi lo v = { s with regs := (s.writeFields o hi lo v).regs } := by
  unfold writeFields
  split <;> rfl

theorem word_writeFields_ne (o hi lo : Nat) (v : Word) {o' : Nat} (h : o' ≠ o) :
    (s.writeFields o hi lo v).word o' = s.word o' := by
  unfold writeFields
  split
  · rfl
  · exact word_setWord_ne _ _ h

theorem getF_writeFields_off (o hi lo : Nat) (v : Word) (g : Fld) (j : Nat) (h : g.off j ≠ o) :
    (s.writeFields o hi lo v).getF g j = s.getF g j := by
  rw [getF, word_writeFields_ne _ _ _ _ _ h, getF]

/-! ## Writes of a whole register -/

theorem writeOthers_eq (o : Nat) (v : Word) : s.writeOthers o v = { s with regs := (s.writeOthers o v).regs } :=
  s.writeFields_eq _ _ _ _

theorem word_writeOthers_ne (o : Nat) (v : Word) {o' : Nat} (h : o' ≠ o) : (s.writeOthers o v).word o' = s.word o' :=
  s.word_writeFields_ne _ _ _ _ h

theorem getF_writeOthers_off (o : Nat) (v : Word) (g : Fld) (j : Nat) (h : g.off j ≠ o) :
    (s.writeOthers o v).getF g j = s.getF g j := s.getF_writeFields_off _ _ _ _ _ _ h

/-- A bit of a field after a write of the whole register. -/
theorem word_writeOthers_getLsbD {o : Nat} {r : RegRow} {i : Nat} (h : regAt o = some (r, i)) (v : Word) {f : Fld}
    (hf : f ∈ r.fields) (h64 : f.hi < 64) {b : Nat} (hlo : f.lo ≤ b) (hhi : b ≤ f.hi) :
    ((s.writeOthers o v).word o).getLsbD b =
      if f.own then (s.word o).getLsbD b else f.acc.written ((s.word o).getLsbD b) (v.getLsbD b) := by
  have hb : f.has b = true := by simp [Fld.has, hlo, hhi]
  rw [writeOthers, s.writeFields_of_regAt h, word_setWord_self, writtenWord_getLsbD (disjoint_of_regAt h) _ _ _ _ hf hb,
    fieldWrite_getLsbD_has _ _ _ _ _ (by omega) hb, if_pos (show 0 ≤ b ∧ b ≤ 63 by omega)]

/-- An RW field takes what is written. -/
theorem getF_writeOthers_rw {o : Nat} {r : RegRow} {i : Nat} (h : regAt o = some (r, i)) (v : Word) {f : Fld}
    (hf : f ∈ r.fields) (h64 : f.hi < 64) {j : Nat} (ho : f.off j = o) (hacc : f.acc = .rw) (hown : f.own = false) :
    (s.writeOthers o v).getF f j = getBits v f.hi f.lo := by
  rw [getF, ho]
  refine getBits_ext fun b hlo hhi => ?_
  rw [s.word_writeOthers_getLsbD h v hf h64 hlo hhi, hacc, hown]
  rfl

/-- A field with a command of its own, or read-only, stands. -/
theorem getF_writeOthers_kept {o : Nat} {r : RegRow} {i : Nat} (h : regAt o = some (r, i)) (v : Word) {f : Fld}
    (hf : f ∈ r.fields) (h64 : f.hi < 64) {j : Nat} (ho : f.off j = o) (hkept : f.own = true ∨ f.acc = .ro) :
    (s.writeOthers o v).getF f j = s.getF f j := by
  rw [getF, getF, ho]
  refine getBits_ext fun b hlo hhi => ?_
  rw [s.word_writeOthers_getLsbD h v hf h64 hlo hhi]
  obtain hown | hacc := hkept
  · rw [if_pos hown]
  · rw [hacc]; exact ite_self _

end State
end Sys2Proof.Machine
end

section
/-! What a register write does (O8): by the access types of the fields, or as the command of the field it reaches. -/

namespace Sys2Proof.Machine
namespace State

/-! ## What follows from a write of `PLN_BEAT_CFG` -/

/-- Between `s` and `t` only `PLN_BEAT_STATUS` and the state of the beat source differ. -/
structure BeatOnly (s t : State) : Prop where
  frame : t = { s with regs := t.regs, lostMaster := t.lostMaster, altUpstream := t.altUpstream, slew := t.slew, free := t.free,
                       holdoverBeats := t.holdoverBeats, electionBeats := t.electionBeats, retake := t.retake }
  word : ∀ o, o ≠ F.PLN_BEAT_STATUS_SRC_ACTIVE.base → t.word o = s.word o

namespace BeatOnly

theorem refl (s : State) : BeatOnly s s := ⟨rfl, fun _ _ => rfl⟩

theorem trans {s t u : State} (h : BeatOnly s t) (h' : BeatOnly t u) : BeatOnly s u where
  frame := by rw [h'.frame, h.frame]
  word := fun o ho => (h'.word o ho).trans (h.word o ho)

theorem ite {s t u : State} (c : Prop) [Decidable c] (h : BeatOnly s t) (h' : BeatOnly s u) :
    BeatOnly s (if c then t else u) := by split <;> assumption

theorem putF (s : State) (f : Fld) (v : Nat) (h : f.off 0 = F.PLN_BEAT_STATUS_SRC_ACTIVE.base) : BeatOnly s (s.putF f 0 v) :=
  ⟨rfl, fun _ ho => word_putF_ne _ _ _ _ (h ▸ ho)⟩

theorem enterHoldover (s : State) : BeatOnly s s.enterHoldover := by
  unfold State.enterHoldover
  exact .ite _ (refl _) ((putF s F.PLN_BEAT_STATUS_HOLDOVER 1 rfl).trans ⟨rfl, fun _ _ => rfl⟩)

theorem selectSource (s : State) : BeatOnly s s.selectSource := by
  unfold State.selectSource
  refine .ite _ (refl _) ((putF s F.PLN_BEAT_STATUS_SRC_ACTIVE _ rfl).trans (.ite _ (enterHoldover _) (.ite _ ?_ (refl _))))
  exact ⟨rfl, fun _ _ => rfl⟩

theorem masterByCfg (s : State) : BeatOnly s s.masterByCfg := by
  unfold State.masterByCfg upstreamOf
  extract_lets m s1
  have h1 : BeatOnly s s1 := (putF s F.PLN_BEAT_STATUS_CUR_MASTER m rfl).trans ⟨rfl, fun _ _ => rfl⟩
  have h2 := h1.trans (putF s1 F.PLN_BEAT_STATUS_IS_MASTER (if m = s1.pos then 1 else 0) rfl)
  exact (h2.trans (putF _ F.PLN_BEAT_STATUS_UPSTREAM _ rfl)).trans ⟨rfl, fun _ _ => rfl⟩

end BeatOnly

/-! ## What follows from a write of any register -/

variable (old s : State)

theorem afterWrite_beatCfg {o : Nat} (h : o = 0x300000) : BeatOnly s (afterWrite old s o) := by
  unfold afterWrite
  rw [if_pos h]
  dsimp only
  have named : BeatOnly s (if s.getF F.PLN_BEAT_CFG_MASTER_POS 0 = old.getF F.PLN_BEAT_CFG_MASTER_POS 0 then s else s.masterByCfg) :=
    .ite _ (.refl _) (.masterByCfg _)
  exact .ite _ named (named.trans (.selectSource _))

/-- A register of a tile's fault. -/
abbrev FaultReg (o : Nat) : Prop := 0x100_0000 ≤ o ∧ o < 0x180_0000 ∧ o % 0x8000 = 0x10

/-- Only registers differ. -/
def RegsMay (s t : State) : Prop := t = { s with regs := t.regs }

theorem RegsMay.ite {s t u : State} (c : Prop) [Decidable c] (h : RegsMay s t) (h' : RegsMay s u) :
    RegsMay s (if c then t else u) := by split <;> assumption

theorem RegsMay.trans {s t u : State} (h : RegsMay s t) (h' : RegsMay t u) : RegsMay s u := by
  unfold RegsMay at *
  rw [h', h]

theorem RegsMay.putF (s : State) (f : Fld) (i v : Nat) : RegsMay s (s.putF f i v) := rfl

theorem afterWrite_frame {o : Nat} (h : o ≠ 0x300000) : RegsMay s (afterWrite old s o) := by
  unfold afterWrite
  rw [if_neg h]
  exact .ite _ (.ite _ rfl (.trans (.putF _ _ _ _) (.putF _ _ _ _))) (.ite _ (.putF _ _ _ _) (.ite _ (.putF _ _ _ _) (.ite _ (.putF _ _ _ _) rfl)))

/-- The word written stands, but for the marks beside `VALID`. -/
theorem word_afterWrite_self {o : Nat} (h : ¬ FaultReg o) : (afterWrite old s o).word o = s.word o := by
  by_cases hcfg : o = 0x300000
  · exact (afterWrite_beatCfg old s hcfg).word _ (by rw [hcfg]; decide)
  · unfold afterWrite
    rw [if_neg hcfg, if_neg h]
    dsimp only
    split_ifs
    · exact word_putF_ne _ _ _ _ (by simp only [Fld.off, F.MEM_REG_CTRL_PENDING]; omega)
    · exact word_putF_ne _ _ _ _ (by simp only [Fld.off, F.UMB_REG_CTRL_PENDING]; omega)
    · exact word_putF_ne _ _ _ _ (by simp only [Fld.off, F.PRT_FREG_CTRL_PENDING]; omega)
    · rfl

theorem faultReg_off {o : Nat} (h : FaultReg o) : F.TIL_FAULT_VALID.off ((o - 0x100_0000) / 0x8000) = o := by
  obtain ⟨hlo, hhi, hmod⟩ := h
  simp only [Fld.off, F.TIL_FAULT_VALID]; omega

/-- What a write of a tile's fault register entails touches two bits of that register. -/
theorem word_afterWrite_fault {o : Nat} (h : FaultReg o) {b : Nat} (hb : b ≠ 62 ∧ b ≠ 61) :
    ((afterWrite old s o).word o).getLsbD b = (s.word o).getLsbD b := by
  have hcfg : o ≠ 0x300000 := by have := h.1; omega
  unfold afterWrite
  rw [if_neg hcfg, if_pos h]
  dsimp only
  split
  · rfl
  · generalize hg : (o - 0x100_0000) / 0x8000 = g
    have hoff : F.TIL_FAULT_VALID.off g = o := hg ▸ faultReg_off h
    have hmore : o = F.TIL_FAULT_MORE.off g := hoff.symm
    have hrepeat : o = F.TIL_FAULT_REPEAT.off g := hoff.symm
    conv_lhs => rw [hrepeat]
    rw [word_putF_self, putBits_getLsbD, if_neg (by simp only [F.TIL_FAULT_REPEAT]; omega), ← hrepeat]
    conv_lhs => rw [hmore]
    rw [word_putF_self, putBits_getLsbD, if_neg (by simp only [F.TIL_FAULT_MORE]; omega), ← hmore]

/-- A register without consequences in others. -/
theorem word_afterWrite_ne {o : Nat} (hcfg : o ≠ 0x300000) (hmem : ¬ (0x70_0000 ≤ o ∧ o < 0x70_8000))
    (humb : ¬ (0x80_0000 ≤ o ∧ o < 0x80_C000)) (hflit : ¬ (0xD2_0000 ≤ o ∧ o < 0xD2_0300)) {o' : Nat} (ho : o' ≠ o) :
    (afterWrite old s o).word o' = s.word o' := by
  unfold afterWrite
  rw [if_neg hcfg]
  dsimp only
  split
  · next hfault =>
    split
    · rfl
    · rw [word_putF_ne _ _ _ _ (by rw [show F.TIL_FAULT_REPEAT.off _ = o from faultReg_off hfault]; exact ho),
        word_putF_ne _ _ _ _ (by rw [show F.TIL_FAULT_MORE.off _ = o from faultReg_off hfault]; exact ho)]
  · split_ifs with h1 h2
    · exact absurd ⟨h1.1, h1.2.1⟩ hmem
    · exact absurd ⟨h2.1, h2.2.1⟩ humb
    · rfl

/-- A finite fact about the register index: the fields of a tile's fault register. -/
theorem regAt_fault : ∀ g, g < 256 → (regAt (F.TIL_FAULT_VALID.off g)).map (·.1.fields) =
    some [F.TIL_FAULT_VALID, F.TIL_FAULT_MORE, F.TIL_FAULT_REPEAT, F.TIL_FAULT_SLOT, F.TIL_FAULT_TASK, F.TIL_FAULT_CODE,
      F.TIL_FAULT_PC] := by
  decide +kernel

/-- Only read-only fields of a tile's fault register hold the bits that go with `VALID`. -/
theorem acc_of_fault {o : Nat} (h : FaultReg o) {r : RegRow} {i : Nat} (hr : regAt o = some (r, i)) {f : Fld} (hf : f ∈ r.fields)
    (hacc : f.acc ≠ .ro) {b : Nat} (hlo : f.lo ≤ b) : b ≠ 62 ∧ b ≠ 61 := by
  have hrow := regAt_fault ((o - 0x100_0000) / 0x8000) (by obtain ⟨-, hhi, -⟩ := h; omega)
  rw [faultReg_off h, hr] at hrow
  have hfields : r.fields = _ := Option.some.inj hrow
  have hvalid : f = F.TIL_FAULT_VALID := by
    rw [hfields] at hf
    simp only [List.mem_cons, List.not_mem_nil, or_false] at hf
    obtain rfl | rfl | rfl | rfl | rfl | rfl | rfl := hf
    · rfl
    all_goals exact absurd rfl hacc
  rw [hvalid] at hlo
  simp only [F.TIL_FAULT_VALID] at hlo
  omega

/-! ## Register writes by access type -/

/-- The register word that a write of `v` to the bits [hi:lo] carries. -/
def laneWord (hi lo : Nat) (v : Word) : Word := if lo = 32 then v <<< 32 else if hi = 31 then v &&& fieldMask 31 0 else v

theorem laneWord_getLsbD {hi lo : Nat} (v : Word) {b : Nat} (hb : b ≤ hi) :
    (laneWord hi lo v).getLsbD b = (if lo = 32 then v <<< 32 else v).getLsbD b := by
  unfold laneWord
  by_cases hlo : lo = 32
  · rw [if_pos hlo, if_pos hlo]
  · rw [if_neg hlo, if_neg hlo]
    split
    · next hhi =>
      rw [BitVec.getLsbD_and, fieldMask_getLsbD]
      simp [show b < 64 by omega, show b ≤ 31 by omega]
    · rfl

/-- A write that reaches no field with a command of its own. -/
theorem exec_registerWrite_plain {f : Func} {off size o hi lo : Nat} {r : RegRow} {i : Nat} (v : Word)
    (hs : sizeOk off size = true) (hm : s.mapOff f (off - off % 8) = some o) (hopen : Open s f o)
    (hr : regAt o = some (r, i)) (ha : accessBits off size = (hi, lo)) (hown : reachesOwn r hi lo = false) :
    exec (.registerWrite f off size v) s = .next (afterWrite s (s.writeFields o hi lo (laneWord hi lo v)) o) := by
  change s.regStore f off size v = _
  unfold regStore
  rw [s.tlpIn_of_taken hopen.1]
  simp only [hs, hm, ha, hr, s.gated_of_open hopen, Bool.not_true, Bool.false_eq_true, if_false, hown]
  rfl

theorem accessBits_lt {off size hi lo : Nat} (ha : accessBits off size = (hi, lo)) : hi < 64 := by
  unfold accessBits at ha
  split at ha
  · have := congrArg Prod.fst ha; dsimp only at this; omega
  · split at ha <;> (have := congrArg Prod.fst ha; dsimp only at this; omega)

/-- A bit of a field after a plain write, before what follows from it. -/
theorem word_writeFields_getLsbD {o : Nat} {r : RegRow} {i : Nat} (hr : regAt o = some (r, i)) {hi lo : Nat} (h64 : hi < 64)
    (hown : reachesOwn r hi lo = false) (v : Word) {f : Fld} (hf : f ∈ r.fields) {b : Nat} (hlo : f.lo ≤ b) (hhi : b ≤ f.hi) :
    ((s.writeFields o hi lo v).word o).getLsbD b =
      if lo ≤ b ∧ b ≤ hi then f.acc.written ((s.word o).getLsbD b) (v.getLsbD b) else (s.word o).getLsbD b := by
  have hb : f.has b = true := by simp [Fld.has, hlo, hhi]
  rw [s.writeFields_of_regAt hr, word_setWord_self, writtenWord_getLsbD (disjoint_of_regAt hr) _ _ _ _ hf hb]
  by_cases hin : lo ≤ b ∧ b ≤ hi
  · have hnot : f.own = false := by
      by_contra h
      have : reachesOwn r hi lo = true := List.any_eq_true.mpr ⟨f, hf, by
        simp only [Bool.and_eq_true, decide_eq_true_eq]
        exact ⟨⟨by simpa using h, by omega⟩, by omega⟩⟩
      rw [this] at hown
      exact Bool.noConfusion hown
    rw [hnot, if_neg Bool.false_ne_true, fieldWrite_getLsbD_has _ _ _ _ _ (by omega) hb]
  · rw [if_neg hin]
    split
    · rfl
    · by_cases hb64 : b < 64
      · rw [fieldWrite_getLsbD_has _ _ _ _ _ hb64 hb, if_neg hin]
      · rw [BitVec.getLsbD_of_ge _ _ (by omega), BitVec.getLsbD_of_ge _ _ (by omega)]

end State
end Sys2Proof.Machine

namespace Sys2Proof

open Machine

theorem registerWritePlain : Claims.RegisterWritePlain := by
  unfold Claims.RegisterWritePlain
  intro s f off size o hi lo v r i hs hm hopen hr ha hown
  refine ⟨_, s.exec_registerWrite_plain v hs hm hopen hr ha hown, ?_⟩
  have h64 := State.accessBits_lt ha
  generalize hw : State.laneWord hi lo v = w
  have hframe := s.writeFields_eq o hi lo w
  have hother : ∀ o', o' ≠ o → (s.writeFields o hi lo w).word o' = s.word o' := fun o' ho => s.word_writeFields_ne _ _ _ _ ho
  have hwritten := fun {fld : Fld} (hfld : fld ∈ r.fields) {b : Nat} =>
    s.word_writeFields_getLsbD hr h64 hown w hfld (b := b)
  generalize s.writeFields o hi lo w = t at *
  refine ⟨?regs, ?frame, ?fields, ?others, ?beat⟩
  case regs =>
    intro ho
    rw [State.afterWrite_frame s t ho, hframe]
  case frame =>
    by_cases ho : o = 0x300000
    · rw [(State.afterWrite_beatCfg s t ho).frame, hframe]
    · rw [State.afterWrite_frame s t ho, hframe]
  case fields =>
    intro fld hfld b hlo hhi
    have hkept : ¬ State.FaultReg o ∨ fld.acc ≠ .ro →
        ((State.afterWrite s t o).word o).getLsbD b = (t.word o).getLsbD b := by
      intro h
      by_cases hfault : State.FaultReg o
      · exact State.word_afterWrite_fault s t hfault (State.acc_of_fault hfault hr hfld (h.resolve_left (not_not_intro hfault)) hlo)
      · rw [State.word_afterWrite_self s t hfault]
    have hbit := hwritten hfld hlo hhi
    by_cases hin : lo ≤ b ∧ b ≤ hi
    · rw [if_pos hin, ← hw, State.laneWord_getLsbD v hin.2] at hbit
      dsimp only
      rw [if_pos hin]
      cases hacc : fld.acc with
      | rw | w1c | w1s =>
        rw [hacc] at hbit
        exact (hkept (.inr (by rw [hacc]; decide))).trans hbit
      | ro | wo | rc =>
        rw [hacc] at hbit
        by_cases hfault : State.FaultReg o
        · exact .inr hfault
        · exact .inl ((hkept (.inl hfault)).trans hbit)
    · rw [if_neg hin] at hbit
      dsimp only
      rw [if_neg hin]
      by_cases hfault : State.FaultReg o
      · exact .inr hfault
      · exact .inl ((hkept (.inl hfault)).trans hbit)
  case others =>
    intro ho hmem humb hflit o' hne
    rw [State.word_afterWrite_ne s t ho hmem humb hflit hne, hother o' hne]
  case beat =>
    intro ho o' hne hstatus
    rw [(State.afterWrite_beatCfg s t ho).word o' hstatus, hother o' hne]

end Sys2Proof
end

section
/-! Register writes that are commands, and requests that the link turns away (O8). -/

namespace Sys2Proof.Machine
namespace State

variable (s : State)

/-! ## Registers with a command of their own -/

/-- The row of the register index that has a register at `o`. -/
def ownRow (o : Nat) : RegRow := ((regAt o).map Prod.fst).getD ⟨0, 0, 0, 0, 0, []⟩

/-- Register `o` of the PF's BAR0 is instance `i` of a row that has a field with a command of its own. -/
abbrev IsOwn (o : Nat) (r : RegRow) (i : Nat) : Prop :=
  regAt o = some (r, i) ∧ o < 0x200_0000 ∧ o % 8 = 0 ∧ reachesOwn r 63 0 = true ∧ r.fields.all (inBits · 63 0) = true

/-- A write of a whole register stands for itself. -/
theorem wholeWrite_of_all {r : RegRow} {hi lo : Nat} (h : r.fields.all (inBits · hi lo) = true) (o : Nat) (w : Word) :
    s.wholeWrite r o hi lo w = w := by
  unfold wholeWrite
  rw [List.all_eq_true] at h
  generalize r.fields = fs at h
  induction fs with
  | nil => rfl
  | cons f fs ih =>
    rw [List.foldl_cons, if_pos (h f List.mem_cons_self)]
    exact ih fun g hg => h g (List.mem_cons_of_mem _ hg)

variable {s} {o i : Nat} {r : RegRow} {v : Word} {x : Res}

/-- A write that reaches a field with a command of its own is that command. -/
theorem exec_registerWrite_own {hi lo size : Nat} (ht : Taken s .pf) (hr : regAt o = some (r, i)) (ho : o < 0x200_0000)
    (hal : o % 8 = 0) (hs : sizeOk o size = true) (ha : accessBits o size = (hi, lo)) (hown : reachesOwn r hi lo = true)
    (hx : s.commandAt .pf r o i (s.wholeWrite r o hi lo (laneWord hi lo v)) = some x) :
    exec (.registerWrite .pf o size v) s = x := by
  change s.regStore .pf o size v = _
  have hm : s.mapOff .pf (o - o % 8) = some o := by rw [hal]; exact if_pos (.inl ho)
  have hx' : s.commandAt .pf r o i (s.wholeWrite r o hi lo (if lo = 32 then v <<< 32 else if hi = 31 then v &&& fieldMask 31 0
      else v)) = some x := hx
  unfold regStore
  rw [s.tlpIn_of_taken ht]
  simp only [hs, hm, ha, hr, hown, hx', Bool.not_true, Bool.false_eq_true, if_false, if_true, Option.getD_some]

/-- A 64-bit write of the PF. -/
theorem exec_registerWrite_own_whole (ht : Taken s .pf) (h : IsOwn o r i) (hx : s.commandAt .pf r o i v = some x) :
    exec (.registerWrite .pf o 8 v) s = x := by
  obtain ⟨hr, ho, hal, hown, hall⟩ := h
  have hs : sizeOk o 8 = true := by unfold sizeOk; rw [hal]; rfl
  refine exec_registerWrite_own ht hr ho hal hs (if_pos rfl) hown ?_
  rw [s.wholeWrite_of_all hall, show laneWord 63 0 v = v from rfl, hx]

/-- The low half of `PLN_CTRL` written: the fields above stand. -/
theorem wholeWrite_plnCtrl (o : Nat) (v : Word) : s.wholeWrite (ownRow F.PLN_CTRL_RUN.base) o 31 0 (laneWord 31 0 v) =
    (s.word o &&& fieldMask 63 40) ||| (v &&& fieldMask 31 0) := by
  have hlane : laneWord 31 0 v = v &&& fieldMask 31 0 := rfl
  change ((laneWord 31 0 v &&& ~~~ fieldMask 63 48) ||| (laneWord 31 0 v &&& fieldMask 63 48 &&& fieldMask 31 0) |||
      (s.word o &&& fieldMask 63 48 &&& ~~~ fieldMask 31 0)) &&& ~~~ fieldMask 47 40 |||
    (laneWord 31 0 v &&& fieldMask 47 40 &&& fieldMask 31 0) ||| (s.word o &&& fieldMask 47 40 &&& ~~~ fieldMask 31 0) = _
  rw [hlane]
  apply BitVec.eq_of_getLsbD_eq
  intro b hb
  simp only [BitVec.getLsbD_or, BitVec.getLsbD_and, BitVec.getLsbD_not, fieldMask_getLsbD, hb, decide_true, Bool.true_and]
  by_cases h31 : b ≤ 31
  · simp [h31, show ¬ 40 ≤ b by omega, show ¬ 48 ≤ b by omega]
  · by_cases h40 : 40 ≤ b <;> by_cases h48 : 48 ≤ b
    · simp [h31, h40, h48, show b ≤ 63 by omega, show ¬ b ≤ 47 by omega]
    · simp [h31, h40, h48, show b ≤ 63 by omega, show b ≤ 47 by omega]
    · omega
    · simp [h31, h40, h48]

/-! ## Requests that the link turns away (R353) -/

/-- `UNPROT` counts a request that no active stream protects. -/
theorem unprotected_counts (hreq : s.flag F.DMA_HCFG_IDE_REQ 0 = true) :
    s.unprotected.getF F.DMA_HCFG_UNPROT 0 = min (s.getF F.DMA_HCFG_UNPROT 0 + 1) (2 ^ 32 - 1) := by
  rw [unprotected, if_pos hreq]
  exact getF_bumpBy _ _ _ _ (by decide) (by decide)

theorem word_unprotected_ne (s : State) {o : Nat} (h : o ≠ F.DMA_HCFG_UNPROT.base) : s.unprotected.word o = s.word o := by
  unfold unprotected
  split
  · exact word_bumpBy_ne _ _ _ _ h
  · rfl

theorem unprotected_regs (s : State) : RegsMay s s.unprotected := by
  unfold unprotected
  exact .ite _ (.putF _ _ _ _) rfl

variable {f : Func} {off size : Nat}

theorem exec_registerWrite_not_taken {t : State} (h : s.tlpIn f = (t, false)) : exec (.registerWrite f off size v) s = .next t := by
  change s.regStore f off size v = _
  unfold regStore
  rw [h]
  rfl

theorem exec_rcFieldRead_not_taken {t : State} (h : s.tlpIn f = (t, false)) : exec (.rcFieldRead f off size) s = .next t := by
  change Host.Outcome.next (s.regRead f off size) = _
  unfold regRead
  rw [h]
  rfl

/-- A request that nothing protects, where protection is asked for. -/
theorem tlpIn_unprotected (hbase : f.base = f) (hjtag : f ≠ .jtag) (hreq : s.flag F.DMA_HCFG_IDE_REQ 0 = true) :
    s.tlpIn f = (s.unprotected, false) := by
  cases f with
  | jtag => exact absurd rfl hjtag
  | pfIde | vfIde => exact Func.noConfusion hbase
  | pf | vf => exact congrArg (Prod.mk s.unprotected) (by rw [hreq]; rfl)

/-- The first request under the set that KEY_GO installed last discards the other set. -/
theorem settleKeys_sets (s : State) (i k : Nat) : ((s.settleKeys i k).ideStream i).sets =
    if (s.ideStream i).tx = some k then (s.ideStream i).sets.filter (·.1 = k) else (s.ideStream i).sets := by
  unfold settleKeys
  dsimp only
  by_cases htx : (s.ideStream i).tx = some k
  · rw [if_pos htx]
    split
    · exact congrArg IdeStream.sets (ideStream_setIde s (x := { s.ideStream i with sets := (s.ideStream i).sets.filter (·.1 = k) }) (ideStream_id s i))
    · next hno =>
      refine (List.filter_eq_self.mpr fun y hy => ?_).symm
      by_contra hne
      refine hno (Bool.and_eq_true_iff.mpr ⟨decide_eq_true htx, List.any_eq_true.mpr ⟨y, hy, by simpa using hne⟩⟩)
  · rw [if_neg htx, if_neg (fun h => htx (of_decide_eq_true (Bool.and_eq_true_iff.mp h).1))]

theorem settleKeys_frame (s : State) (i k : Nat) : s.settleKeys i k = { s with ide := (s.settleKeys i k).ide } := by
  unfold settleKeys
  dsimp only
  split <;> rfl

/-- A request to an offset without a register changes nothing but the keys. -/
theorem exec_registerWrite_nowhere {t : State} (h : s.tlpIn f = (t, true)) (hs : sizeOk off size = true)
    (hm : t.mapOff f (off - off % 8) = none) : exec (.registerWrite f off size v) s = .next t := by
  change s.regStore f off size v = _
  unfold regStore
  rw [h]
  simp only [hs, hm, Bool.not_true, Bool.false_eq_true, if_false]

end State
end Sys2Proof.Machine

namespace Sys2Proof

open Machine
open Machine (State)

theorem registerWriteCommands : Claims.RegisterWriteCommands := by
  unfold Claims.RegisterWriteCommands
  intro s v p ht hp
  have cmd := fun {o : Nat} {r : RegRow} {i : Nat} {v : Word} {x : Res} => State.exec_registerWrite_own_whole (o := o) (r := r)
    (i := i) (v := v) (x := x) ht
  have ctrl : ∀ p < 8, State.IsOwn (F.PLN_CTRL_RUN.off p) (State.ownRow F.PLN_CTRL_RUN.base) p := by decide +kernel
  have load : ∀ p < 8, State.IsOwn (F.PLN_LOAD_GO.off p) (State.ownRow F.PLN_LOAD_GO.base) p := by decide +kernel
  have holdPop : ∀ p < 8, State.IsOwn (F.PLN_HOLD_POP_POP.off p) (State.ownRow F.PLN_HOLD_POP_POP.base) p := by decide +kernel
  have mcfg : ∀ h < 32, State.IsOwn (F.DMA_MCFG_EN.off h) (State.ownRow F.DMA_MCFG_EN.base) h := by decide +kernel
  have ckpt : ∀ p < 8, State.IsOwn (F.STM_CKPT_CTRL_GO.off p) (State.ownRow F.STM_CKPT_CTRL_GO.base) p := by decide +kernel
  have clusters : ∀ p < 8, State.IsOwn (F.PRT_CLUSTERS_MASK.off p) (State.ownRow F.PRT_CLUSTERS_MASK.base) p := by decide +kernel
  have quota : ∀ p < 8, State.IsOwn (F.PRT_QUOTA_HBM_Q.off p) (State.ownRow F.PRT_QUOTA_HBM_Q.base) p := by decide +kernel
  have reset : ∀ p < 8, State.IsOwn (F.PRT_RESET_RESET.off p) (State.ownRow F.PRT_RESET_RESET.base) p := by decide +kernel
  have gran : ∀ i < 132, State.IsOwn (F.PRT_GRAN_OWNERS.off i) (State.ownRow F.PRT_GRAN_OWNERS.base) i := by decide +kernel
  have repl : ∀ p < 8, State.IsOwn (F.ROW_REPL_CTRL_GO.off p) (State.ownRow F.ROW_REPL_CTRL_GO.base) p := by decide +kernel
  refine ⟨?bnLoad, ?ctrl, ?half, ?load, ?holdPop, ?mcfg, ?ckpt, ?fabCfg, ?bypass, ?ramp, ?clusters, ?quota, ?reset, ?gran,
    ?repl, ?mbist, ?elog, ?ftg⟩
  case bnLoad => exact cmd (r := State.ownRow F.PLN_BN_LOAD_BN.base) (i := 0) (by decide +kernel) rfl
  case ctrl => exact cmd (ctrl p hp) rfl
  case half =>
    obtain ⟨hr, ho, hal, -, -⟩ := ctrl p hp
    have hs : State.sizeOk (F.PLN_CTRL_RUN.off p) 4 = true := by
      have : F.PLN_CTRL_RUN.off p % 4 = 0 := by omega
      unfold State.sizeOk; rw [this]; rfl
    have ha : State.accessBits (F.PLN_CTRL_RUN.off p) 4 = (31, 0) := by
      unfold State.accessBits; rw [hal]; rfl
    have hbit : getBits ((s.word (F.PLN_CTRL_RUN.off p) &&& fieldMask 63 40) ||| (v &&& fieldMask 31 0)) 0 0 = getBits v 0 0 := by
      refine getBits_ext fun b _ hb => ?_
      obtain rfl : b = 0 := by omega
      simp only [BitVec.getLsbD_or, BitVec.getLsbD_and, fieldMask_getLsbD]
      simp
    refine State.exec_registerWrite_own ht hr ho hal hs ha (by decide +kernel) ?_
    rw [State.wholeWrite_plnCtrl]
    refine Eq.trans (b := some (if getBits (s.word (F.PLN_CTRL_RUN.off p) &&& fieldMask 63 40 ||| v &&& fieldMask 31 0) 0 0 = 1 then
      execRunSet .pf p _ s else execRunClear .pf p _ s)) rfl ?_
    rw [hbit]
    rfl
  case load =>
    intro hgo
    refine cmd (load p hp) ?_
    refine Eq.trans (b := if getBits v 0 0 = 1 then some (execPlanLoadGo .pf p s) else none) rfl ?_
    exact if_pos hgo
  case holdPop => exact cmd (holdPop p hp) rfl
  case mcfg => exact fun h hh => cmd (mcfg h hh) rfl
  case ckpt => exact cmd (ckpt p hp) rfl
  case fabCfg => exact cmd (r := State.ownRow F.FAB_CFG_X.base) (i := 0) (by decide +kernel) rfl
  case bypass => exact cmd (r := State.ownRow F.FAB_BYP_OPEN.base) (i := 0) (by decide +kernel) rfl
  case ramp => exact cmd (r := State.ownRow F.PWR_RAMP_SHARE.base) (i := 0) (by decide +kernel) rfl
  case clusters => exact cmd (clusters p hp) rfl
  case quota => exact cmd (quota p hp) rfl
  case reset => exact cmd (reset p hp) rfl
  case gran => exact fun i hi => cmd (gran i hi) rfl
  case repl => exact cmd (repl p hp) rfl
  case mbist => exact cmd (r := State.ownRow F.TST_MBIST_GO.base) (i := 0) (by decide +kernel) rfl
  case elog => exact cmd (r := State.ownRow F.TST_ELOG_POP_POP.base) (i := 0) (by decide +kernel) rfl
  case ftg => exact cmd (r := State.ownRow F.TST_FTG_GO.base) (i := 0) (by decide +kernel) rfl

theorem linkTakesRequests : Claims.LinkTakesRequests := by
  unfold Claims.LinkTakesRequests
  intro s off size v
  refine ⟨?_, ?_, ?_⟩
  · intro f hbase hjtag hreq
    have hlink := State.tlpIn_unprotected hbase hjtag hreq
    exact ⟨_, State.exec_registerWrite_not_taken hlink, State.unprotected_counts hreq, fun o ho => State.word_unprotected_ne s ho,
      s.unprotected_regs, State.exec_rcFieldRead_not_taken hlink⟩
  · intro i k hset
    have hlink : s.tlpIn (.pfIde i k) = (s.unprotected, false) := if_neg (by rw [hset]; decide)
    refine ⟨_, State.exec_registerWrite_not_taken hlink, ?_, fun o ho => State.word_unprotected_ne s ho, s.unprotected_regs⟩
    split
    · next hreq => exact State.unprotected_counts hreq
    · next hreq => rw [s.unprotected_eq_self (by simpa using hreq)]
  · intro i k hset hm hs
    have hlink : s.tlpIn (.pfIde i k) = (s.settleKeys i k, true) := if_pos hset
    exact ⟨_, State.exec_registerWrite_nowhere hlink hs hm, s.settleKeys_sets i k, s.settleKeys_frame i k⟩

/-- Settles O8: a plain write acts on each field by its access type and `afterWrite` adds what follows from the register; one
that reaches a field with a command of its own is that command; and the link first sees what protects the request. -/
theorem registerWriteByAccessType : Obligations.RegisterWriteByAccessType := by
  unfold Obligations.RegisterWriteByAccessType
  exact ⟨registerWritePlain, registerWriteCommands, linkTakesRequests⟩

end Sys2Proof
end

section
/-! Memory traffic generators (O36), and what the arrival of work leaves of the state. -/

namespace Sys2Proof.Machine
namespace State

/-! ## Work that arrives -/

/-- Between `s` and `t` only registers of the PWR block and the state of a power transition differ. -/
structure PowerOnly (s t : State) : Prop where
  frame : t = { s with regs := t.regs, power := t.power, free := t.free }
  word : ∀ o, o / 0x10_0000 ≠ 1 → t.word o = s.word o

namespace PowerOnly

theorem refl (s : State) : PowerOnly s s := ⟨rfl, fun _ _ => rfl⟩

theorem trans {s t u : State} (h : PowerOnly s t) (h' : PowerOnly t u) : PowerOnly s u where
  frame := by rw [h'.frame, h.frame]
  word := fun o ho => (h'.word o ho).trans (h.word o ho)

theorem ite {s t u : State} (c : Prop) [Decidable c] (h : PowerOnly s t) (h' : PowerOnly s u) :
    PowerOnly s (if c then t else u) := by split <;> assumption

theorem putF (s : State) (f : Fld) (v : Nat) (h : f.off 0 / 0x10_0000 = 1) : PowerOnly s (s.putF f 0 v) :=
  ⟨rfl, fun _ ho => word_putF_ne _ _ _ _ fun heq => ho (heq ▸ h)⟩

theorem recordWake (s : State) (source from_ : Nat) : PowerOnly s (s.recordWake source from_) := by
  have hfresh : PowerOnly s s.fresh.2 := ⟨rfl, fun _ _ => rfl⟩
  have hsource := hfresh.trans (putF _ F.PWR_WAKE_SOURCE source (by decide))
  have hfrom := hsource.trans (putF _ F.PWR_WAKE_FROM from_ (by decide))
  exact hfrom.trans (putF _ F.PWR_WAKE_TIME _ (by decide))

theorem wakeFrom (s : State) (source : Nat) : PowerOnly s (s.wakeFrom source) := by
  unfold State.wakeFrom
  extract_lets st entering
  refine .ite _ (refl s) ((recordWake s source _).trans (.ite _ ⟨rfl, fun _ _ => rfl⟩ ?_))
  exact (putF _ F.PWR_STAT_BUSY 1 (by decide)).trans ⟨rfl, fun _ _ => rfl⟩

/-- Work that arrives changes at most the state of the power transition (R418, R423). -/
theorem arriveWork (s : State) : PowerOnly s s.arriveWork := by
  unfold State.arriveWork
  exact .ite _ (wakeFrom s 5) (refl s)

end PowerOnly

/-! ## Fields of a generator -/

variable (s : State) (m u m' u' : Fld) (x n v : Nat)

/-- The two fields of a generator register, of a stack's block and of a controller's, lie alike. -/
abbrev Alike (m u : Fld) : Prop := m.lo = u.lo ∧ m.hi = u.hi ∧ m.lo ≤ m.hi ∧ m.hi < 64

theorem getG_putG (h : Alike m u) (hv : v < 2 ^ (m.hi + 1 - m.lo)) : (s.putG m u x n v).getG m u x n = v := by
  obtain ⟨hlo, hhi, hle, h64⟩ := h
  unfold getG putG
  split
  · rw [getF_putF _ _ _ _ hle h64, Nat.mod_eq_of_lt hv]
  · rw [getF_putF _ _ _ _ (by omega) (by omega), ← hlo, ← hhi, Nat.mod_eq_of_lt hv]

/-- Another field reads as before: it lies in other bits, or in another register. -/
theorem getG_putG_ne (hm : m'.hi < m.lo ∨ m.hi < m'.lo ∨ ∀ j, m'.off j ≠ m.off j)
    (hu : u'.hi < u.lo ∨ u.hi < u'.lo ∨ ∀ j, u'.off j ≠ u.off j) : (s.putG m u x n v).getG m' u' x n = s.getG m' u' x n := by
  have one : ∀ (f g : Fld) (j : Nat), (g.hi < f.lo ∨ f.hi < g.lo ∨ ∀ j, g.off j ≠ f.off j) → (s.putF f j v).getF g j = s.getF g j := by
    rintro f g j (h | h | h)
    · exact getF_putF_bits _ _ _ _ _ _ (.inl h)
    · exact getF_putF_bits _ _ _ _ _ _ (.inr h)
    · exact getF_putF_off _ _ _ _ _ _ (h j)
  unfold getG putG
  split
  · exact one _ _ _ hm
  · exact one _ _ _ hu

theorem putG_regs : RegsMay s (s.putG m u x n v) := by
  unfold putG
  exact .ite _ (.putF _ _ _ _) (.putF _ _ _ _)

/-- A register outside the blocks of the memory units reads as before. -/
theorem getF_putG_low (f : Fld) (i : Nat) (hf : f.off i < 0x70_0000) (hm : 0x70_0000 ≤ m.base) (hu : 0x70_0000 ≤ u.base) :
    (s.putG m u x n v).getF f i = s.getF f i := by
  unfold putG
  split
  · exact getF_putF_off _ _ _ _ _ _ (by simp only [Fld.off] at *; omega)
  · exact getF_putF_off _ _ _ _ _ _ (by simp only [Fld.off] at *; omega)

/-- `TG_CTRL` and `TG_STAT` are different registers. -/
theorem memGen_ne (j : Nat) : F.MEM_TG_STAT_BUSY.off j ≠ F.MEM_TG_CTRL_GO.off j := by
  simp only [Fld.off, F.MEM_TG_STAT_BUSY, F.MEM_TG_CTRL_GO]; omega

theorem umbGen_ne (j : Nat) : F.UMB_TG_STAT_BUSY.off j ≠ F.UMB_TG_CTRL_GO.off j := by
  simp only [Fld.off, F.UMB_TG_STAT_BUSY, F.UMB_TG_CTRL_GO]; omega

/-- A finite fact about the register index: the control registers of the generators. -/
theorem regAt_genCtl {x n : Nat} (hx : x < 20) (hn : n < genCount x) :
    (regAt (genCtl x n)).isSome ∧ ∀ r i, regAt (genCtl x n) = some (r, i) →
      (if x < 8 then F.MEM_TG_CTRL_SEED else F.UMB_TG_CTRL_SEED) ∈ r.fields := by
  have finite : ∀ x < 20, ∀ n < genCount x, ((regAt (genCtl x n)).any fun r =>
      r.1.fields.contains (if x < 8 then F.MEM_TG_CTRL_SEED else F.UMB_TG_CTRL_SEED)) = true := by decide +kernel
  obtain ⟨⟨r, i⟩, hr, hfld⟩ := (Option.any_eq_true _ _).mp (finite x hx n hn)
  refine ⟨by rw [hr]; rfl, fun r' i' hr' => ?_⟩
  rw [hr'] at hr
  cases hr
  simpa using hfld

theorem unitNo_lt (x : MemUnit) : unitNo x < 20 := by
  cases x <;> simp only [unitNo] <;> omega

/-- A write of `TG_CTRL` sets the seed. -/
theorem seed_writeOthers {x n : Nat} (hx : x < 20) (hn : n < genCount x) (w : Word) :
    (s.writeOthers (genCtl x n) w).getG F.MEM_TG_CTRL_SEED F.UMB_TG_CTRL_SEED x n = getBits w 63 32 := by
  obtain ⟨hsome, hfld⟩ := regAt_genCtl hx hn
  obtain ⟨⟨r, i⟩, hr⟩ := Option.isSome_iff_exists.mp hsome
  have hmem := hfld r i hr
  unfold getG
  unfold genCtl at hr ⊢
  split
  · next h =>
    rw [if_pos h] at hr hmem
    exact s.getF_writeOthers_rw hr w hmem (by decide) rfl rfl rfl
  · next h =>
    rw [if_neg h] at hr hmem
    exact s.getF_writeOthers_rw hr w hmem (by decide) rfl rfl rfl

/-- A write of `TG_CTRL` leaves `TG_STAT`. -/
theorem getG_stat_writeOthers (w : Word) (hm : m.off = F.MEM_TG_STAT_BUSY.off) (hu : u.off = F.UMB_TG_STAT_BUSY.off) :
    (s.writeOthers (genCtl x n) w).getG m u x n = s.getG m u x n := by
  unfold getG genCtl
  split
  · exact s.getF_writeOthers_off _ _ _ _ (by rw [hm]; exact memGen_ne _)
  · exact s.getF_writeOthers_off _ _ _ _ (by rw [hu]; exact umbGen_ne _)

/-- The registers of generators lie behind the unit's own. -/
abbrev InGenBlock (f : Fld) : Prop := ∀ j, 0x200 ≤ f.off j % 0x1000

theorem inGenBlock_memStat : InGenBlock F.MEM_TG_STAT_BUSY := by
  intro j; simp only [Fld.off, F.MEM_TG_STAT_BUSY]; omega

theorem inGenBlock_umbStat : InGenBlock F.UMB_TG_STAT_BUSY := by
  intro j; simp only [Fld.off, F.UMB_TG_STAT_BUSY]; omega

theorem inGenBlock_memCtl : InGenBlock F.MEM_TG_CTRL_GO := by
  intro j; simp only [Fld.off, F.MEM_TG_CTRL_GO]; omega

theorem inGenBlock_umbCtl : InGenBlock F.UMB_TG_CTRL_GO := by
  intro j; simp only [Fld.off, F.UMB_TG_CTRL_GO]; omega

/-- The state of a unit is in no generator's register. -/
theorem unitState_congr {s t : State} (h : ∀ o, o % 0x1000 < 0x200 → t.word o = s.word o) (y : Nat) :
    t.unitState y = s.unitState y := by
  unfold unitState getU getF
  rw [h _ (by simp only [Fld.off, F.MEM_STAT_STATE]; omega), h _ (by simp only [Fld.off, F.UMB_STAT_STATE]; omega)]

/-- A put of a field of `TG_STAT` leaves the unit's own registers. -/
theorem word_putG_stat (hm : m.off = F.MEM_TG_STAT_BUSY.off) (hu : u.off = F.UMB_TG_STAT_BUSY.off) {o : Nat}
    (ho : o % 0x1000 < 0x200) : (s.putG m u x n v).word o = s.word o := by
  have hmem := inGenBlock_memStat (genNo x n)
  have humb := inGenBlock_umbStat (genNo x n)
  unfold putG
  split
  · refine word_putF_ne _ _ _ _ fun h => ?_
    rw [h, hm] at ho; omega
  · refine word_putF_ne _ _ _ _ fun h => ?_
    rw [h, hu] at ho; omega

theorem getF_writeGenCtl (w : Word) (f : Fld) (i : Nat) (h : f.off i < 0x70_0000) :
    (s.writeOthers (genCtl x n) w).getF f i = s.getF f i := by
  refine s.getF_writeOthers_off _ _ _ _ ?_
  unfold genCtl
  split <;> simp only [Fld.off, F.MEM_TG_CTRL_GO, F.UMB_TG_CTRL_GO] at * <;> omega

theorem word_writeGenCtl (w : Word) {o : Nat} (ho : o % 0x1000 < 0x200) : (s.writeOthers (genCtl x n) w).word o = s.word o := by
  refine s.word_writeOthers_ne _ _ ?_
  unfold genCtl
  split
  · have := inGenBlock_memCtl (genNo x n); intro h; rw [h] at ho; omega
  · have := inGenBlock_umbCtl (genNo x n); intro h; rw [h] at ho; omega

end State
end Sys2Proof.Machine
end

section
/-! A generator starts, is refused, and ends (O36). -/

namespace Sys2Proof.Machine
namespace State

theorem unit_of_regsMay {s t : State} (h : RegsMay s t) (x : Nat) : t.unit x = s.unit x := by
  rw [unit, h, unit]

theorem getG_modUnit (s : State) (y : Nat) (f : Unit_ → Unit_) (m u : Fld) (x n : Nat) :
    (s.modUnit y f).getG m u x n = s.getG m u x n := rfl

theorem modUnit_frame {s t : State} (h : RegsMay s t) (x : Nat) (f : Unit_ → Unit_) :
    t.modUnit x f = { s with regs := (t.modUnit x f).regs, units := (t.modUnit x f).units } := by
  rw [modUnit_eq]
  generalize f (t.unit x) = y
  rw [h]
  rfl

variable (s : State) (x n : Nat)

/-! ## A run begun -/

/-- `FAIL` cleared, and a run begun: `GO` and `BUSY` set. -/
def genBegun : State :=
  ((s.putG F.MEM_TG_STAT_FAIL F.UMB_TG_STAT_FAIL x n 0).putG F.MEM_TG_CTRL_GO F.UMB_TG_CTRL_GO x n 1).putG
    F.MEM_TG_STAT_BUSY F.UMB_TG_STAT_BUSY x n 1

theorem genBegun_regs : RegsMay s (s.genBegun x n) :=
  .trans (.trans (s.putG_regs _ _ _ _ _) (putG_regs _ _ _ _ _ _)) (putG_regs _ _ _ _ _ _)

theorem genBegun_busy : (s.genBegun x n).getG F.MEM_TG_STAT_BUSY F.UMB_TG_STAT_BUSY x n = 1 :=
  getG_putG _ _ _ _ _ _ (by decide) (by decide)

theorem genBegun_fail : (s.genBegun x n).getG F.MEM_TG_STAT_FAIL F.UMB_TG_STAT_FAIL x n = 0 := by
  rw [genBegun, getG_putG_ne _ _ _ _ _ _ _ _ (.inl (by decide)) (.inl (by decide)),
    getG_putG_ne _ _ _ _ _ _ _ _ (.inr (.inl (by decide))) (.inr (.inl (by decide))), getG_putG _ _ _ _ _ _ (by decide) (by decide)]

theorem genBegun_seed : (s.genBegun x n).getG F.MEM_TG_CTRL_SEED F.UMB_TG_CTRL_SEED x n =
    s.getG F.MEM_TG_CTRL_SEED F.UMB_TG_CTRL_SEED x n := by
  have stat : ∀ j, F.MEM_TG_CTRL_SEED.off j ≠ F.MEM_TG_STAT_BUSY.off j := fun j => (memGen_ne j).symm
  have stat' : ∀ j, F.UMB_TG_CTRL_SEED.off j ≠ F.UMB_TG_STAT_BUSY.off j := fun j => (umbGen_ne j).symm
  rw [genBegun, getG_putG_ne _ _ _ _ _ _ _ _ (.inr (.inr stat)) (.inr (.inr stat')),
    getG_putG_ne _ _ _ _ _ _ _ _ (.inr (.inl (by decide))) (.inr (.inl (by decide))),
    getG_putG_ne _ F.MEM_TG_STAT_FAIL F.UMB_TG_STAT_FAIL _ _ _ _ _ (.inr (.inr stat)) (.inr (.inr stat'))]

theorem genBegun_getF (f : Fld) (i : Nat) (h : f.off i < 0x70_0000) : (s.genBegun x n).getF f i = s.getF f i := by
  rw [genBegun, getF_putG_low _ _ _ _ _ _ _ _ h (by decide) (by decide), getF_putG_low _ _ _ _ _ _ _ _ h (by decide) (by decide),
    getF_putG_low _ _ _ _ _ _ _ _ h (by decide) (by decide)]

/-! ## A run refused -/

theorem genRefused_regs : RegsMay s (s.genRefused x n) :=
  .trans (.trans (s.putG_regs _ _ _ _ _) (putG_regs _ _ _ _ _ _)) (putG_regs _ _ _ _ _ _)

theorem genRefused_fail : (s.genRefused x n).getG F.MEM_TG_STAT_FAIL F.UMB_TG_STAT_FAIL x n = 1 := by
  unfold genRefused
  dsimp only
  rw [getG_putG_ne _ _ _ _ _ _ _ _ (.inr (.inl (by decide))) (.inr (.inl (by decide))),
    getG_putG_ne _ _ _ _ _ _ _ _ (.inr (.inl (by decide))) (.inr (.inl (by decide))), getG_putG _ _ _ _ _ _ (by decide) (by decide)]

theorem genRefused_go : (s.genRefused x n).getG F.MEM_TG_CTRL_GO F.UMB_TG_CTRL_GO x n = 0 :=
  getG_putG _ _ _ _ _ _ (by decide) (by decide)

theorem genRefused_busy : (s.genRefused x n).getG F.MEM_TG_STAT_BUSY F.UMB_TG_STAT_BUSY x n =
    s.getG F.MEM_TG_STAT_BUSY F.UMB_TG_STAT_BUSY x n := by
  unfold genRefused
  dsimp only
  rw [getG_putG_ne _ _ _ _ _ _ _ _ (.inr (.inl (by decide))) (.inr (.inl (by decide))),
    getG_putG_ne _ _ _ _ _ _ _ _ (.inr (.inl (by decide))) (.inr (.inl (by decide))),
    getG_putG_ne _ _ _ _ _ _ _ _ (.inr (.inl (by decide))) (.inr (.inl (by decide)))]

/-! ## A run that ends without an error -/

/-- What the registers show at the end of a run that found nothing in error. -/
def genClean : State :=
  (((s.putG F.MEM_TG_STAT_BUSY F.UMB_TG_STAT_BUSY x n 0).putG F.MEM_TG_CTRL_GO F.UMB_TG_CTRL_GO x n 0).putG
    F.MEM_TG_STAT_ERRS F.UMB_TG_STAT_ERRS x n 0).putG F.MEM_TG_STAT_FAIL F.UMB_TG_STAT_FAIL x n 0

theorem genClean_regs : RegsMay s (s.genClean x n) :=
  .trans (.trans (.trans (s.putG_regs _ _ _ _ _) (putG_regs _ _ _ _ _ _)) (putG_regs _ _ _ _ _ _)) (putG_regs _ _ _ _ _ _)

theorem genClean_busy : (s.genClean x n).getG F.MEM_TG_STAT_BUSY F.UMB_TG_STAT_BUSY x n = 0 := by
  rw [genClean, getG_putG_ne _ _ _ _ _ _ _ _ (.inr (.inl (by decide))) (.inr (.inl (by decide))),
    getG_putG_ne _ _ _ _ _ _ _ _ (.inr (.inl (by decide))) (.inr (.inl (by decide))),
    getG_putG_ne _ _ _ _ _ _ _ _ (.inr (.inl (by decide))) (.inr (.inl (by decide))), getG_putG _ _ _ _ _ _ (by decide) (by decide)]

theorem genClean_go : (s.genClean x n).getG F.MEM_TG_CTRL_GO F.UMB_TG_CTRL_GO x n = 0 := by
  rw [genClean, getG_putG_ne _ _ _ _ _ _ _ _ (.inl (by decide)) (.inl (by decide)),
    getG_putG_ne _ _ _ _ _ _ _ _ (.inl (by decide)) (.inl (by decide)), getG_putG _ _ _ _ _ _ (by decide) (by decide)]

theorem genClean_errs : (s.genClean x n).getG F.MEM_TG_STAT_ERRS F.UMB_TG_STAT_ERRS x n = 0 := by
  rw [genClean, getG_putG_ne _ _ _ _ _ _ _ _ (.inl (by decide)) (.inl (by decide)), getG_putG _ _ _ _ _ _ (by decide) (by decide)]

theorem genClean_fail : (s.genClean x n).getG F.MEM_TG_STAT_FAIL F.UMB_TG_STAT_FAIL x n = 0 :=
  getG_putG _ _ _ _ _ _ (by decide) (by decide)

/-! ## The commands -/

variable {s n} {y : MemUnit} {v : Word}

/-- A write of `GO` to a generator that is not busy. -/
theorem exec_tgGo (hn : n < genCount (unitNo y)) (hopen : Open s .pf (genCtl (unitNo y) n)) (hgo : getBits v 0 0 = 1)
    (hidle : (s.writeOthers (genCtl (unitNo y) n) v).getG F.MEM_TG_STAT_BUSY F.UMB_TG_STAT_BUSY (unitNo y) n = 0) :
    exec (.tgGo y n v) s = .next (
      let w := s.writeOthers (genCtl (unitNo y) n) v
      if 2 ≤ getBits v 5 4 ∨ 4 ≤ getBits v 10 8 ∨ (getBits v 5 4 = 0 ∧
          (w.putG F.MEM_TG_STAT_FAIL F.UMB_TG_STAT_FAIL (unitNo y) n 0).unitState (unitNo y) ≠ 4) then
        (w.putG F.MEM_TG_STAT_FAIL F.UMB_TG_STAT_FAIL (unitNo y) n 0).genRefused (unitNo y) n
      else ((w.genBegun (unitNo y) n).modUnit (unitNo y) fun z => { z with runs := z.runs ++ [n] }).arriveWork) := by
  refine congrArg Host.Outcome.next ((if_neg (by omega)).trans ((s.gated_of_open hopen _).trans ?_))
  exact if_neg (by rw [hgo, hidle]; decide)

/-- The end of a run of mode 01b that found nothing in error. -/
theorem exec_tgDone (hbusy : s.getG F.MEM_TG_STAT_BUSY F.UMB_TG_STAT_BUSY (unitNo y) n = 1)
    (hmode : s.getG F.MEM_TG_CTRL_MODE F.UMB_TG_CTRL_MODE (unitNo y) n = 1) (hslots : 0 < slotsOf (s.unit (unitNo y)).active 15) :
    exec (.tgDone y n []) s =
      .next ((s.genClean (unitNo y) n).modUnit (unitNo y) fun z => { z with runs := z.runs.filter (· ≠ n) }) := by
  have hgoes : ¬ (s.getG F.MEM_TG_STAT_BUSY F.UMB_TG_STAT_BUSY (unitNo y) n = 0 ∨
      (s.getG F.MEM_TG_CTRL_MODE F.UMB_TG_CTRL_MODE (unitNo y) n = 1 ∧ slotsOf (s.unit (unitNo y)).active 15 = 0)) := by
    rw [hbusy]; omega
  refine congrArg Host.Outcome.next ((if_neg hgoes).trans ?_)
  rw [hmode]
  rfl

end State
end Sys2Proof.Machine

namespace Sys2Proof

open Machine
open Machine (State)

/-- Settles O36: a generator's registers are put one by one, so each field reads what was last put into it; work that arrives
in Run changes nothing. -/
theorem trafficGenerators : Obligations.TrafficGenerators := by
  unfold Obligations.TrafficGenerators
  intro s y n
  dsimp only
  intro hn
  refine ⟨?go, ?done⟩
  case go =>
    intro v hopen hgo hbusy
    have hstat : (s.writeOthers (State.genCtl (State.unitNo y) n) v).getG F.MEM_TG_STAT_BUSY F.UMB_TG_STAT_BUSY (State.unitNo y) n = 0 :=
      (s.getG_stat_writeOthers _ _ _ _ v rfl rfl).trans hbusy
    have hexec := State.exec_tgGo hn hopen hgo hstat
    have hregs : State.RegsMay s (s.writeOthers (State.genCtl (State.unitNo y) n) v) := s.writeOthers_eq _ _
    have hseed := s.seed_writeOthers (State.unitNo_lt y) hn v
    have hlow := fun (f : Fld) (i : Nat) (h : f.off i < 0x70_0000) => s.getF_writeGenCtl (State.unitNo y) n v f i h
    have hstate : ∀ o, o % 0x1000 < 0x200 →
        (s.writeOthers (State.genCtl (State.unitNo y) n) v).word o = s.word o := fun o ho => s.word_writeGenCtl _ _ _ ho
    generalize State.unitNo y = u at *
    generalize s.writeOthers (State.genCtl u n) v = w at *
    have hunit : (w.putG F.MEM_TG_STAT_FAIL F.UMB_TG_STAT_FAIL u n 0).unitState u = s.unitState u :=
      State.unitState_congr (fun o ho => (w.word_putG_stat F.MEM_TG_STAT_FAIL F.UMB_TG_STAT_FAIL _ _ _ rfl rfl ho).trans (hstate o ho)) u
    dsimp only at hexec
    rw [hunit] at hexec
    rw [hexec]
    by_cases hcond : 2 ≤ getBits v 5 4 ∨ 4 ≤ getBits v 10 8 ∨ (getBits v 5 4 = 0 ∧ s.unitState u ≠ 4)
    · rw [if_pos hcond]
      have hall := hregs.trans (.trans (w.putG_regs F.MEM_TG_STAT_FAIL F.UMB_TG_STAT_FAIL u n 0) (State.genRefused_regs _ u n))
      have hidle := (State.genRefused_busy (w.putG F.MEM_TG_STAT_FAIL F.UMB_TG_STAT_FAIL u n 0) u n).trans
        ((State.getG_putG_ne _ _ _ _ _ _ _ _ (.inr (.inl (by decide))) (.inr (.inl (by decide)))).trans hstat)
      refine ⟨_, rfl, fun hno => ?_, fun _ => ⟨State.genRefused_fail _ u n, hidle, State.genRefused_go _ u n, hall⟩,
        State.rd8_congr (by rw [hall])⟩
      simp only [Bool.or_eq_false_iff, Bool.and_eq_false_iff, decide_eq_false_iff_not] at hno
      omega
    · rw [if_neg hcond]
      have hframe := State.modUnit_frame (hregs.trans (w.genBegun_regs u n)) u fun z => { z with runs := z.runs ++ [n] }
      have hpower := State.PowerOnly.arriveWork ((w.genBegun u n).modUnit u fun z => { z with runs := z.runs ++ [n] })
      refine ⟨_, rfl, fun _ hrun => ?_, fun hyes => ?_, State.rd8_congr (by rw [hpower.frame, hframe])⟩
      · have hrun' : InRun ((w.genBegun u n).modUnit u fun z => { z with runs := z.runs ++ [n] }) := by
          refine ⟨?_, by rw [hframe]; exact hrun.2⟩
          rw [State.modUnit_eq, State.getF_setUnit, State.genBegun_getF _ _ _ _ _ (by decide), hlow _ _ (by decide)]
          exact hrun.1
        rw [State.arriveWork_of_inRun _ hrun']
        refine ⟨w.genBegun_busy u n, w.genBegun_fail u n, ?_, (w.genBegun_seed u n).trans hseed, hframe⟩
        rw [State.modUnit_eq, State.unit_setUnit, State.unit_of_regsMay (hregs.trans (w.genBegun_regs u n))]
      · simp only [Bool.or_eq_true, Bool.and_eq_true, decide_eq_true_eq, or_assoc] at hyes
        exact absurd hyes hcond
  case done =>
    intro hbusy hmode hslots
    have hregs := s.genClean_regs (State.unitNo y) n
    have hframe := State.modUnit_frame hregs (State.unitNo y) fun z => { z with runs := z.runs.filter (· ≠ n) }
    refine ⟨_, State.exec_tgDone hbusy hmode hslots, s.genClean_busy _ n, s.genClean_go _ n, s.genClean_errs _ n,
      s.genClean_fail _ n, ?_, hframe, State.rd8_congr (by rw [hframe])⟩
    rw [State.modUnit, State.unit_setUnit, State.unit_of_regsMay hregs]

end Sys2Proof
end

section
/-! SUPPORT. A port of the fabric that goes down while no plan runs (R244), and what is quiet at a port (R235, R239). -/

namespace Sys2Proof.Machine
namespace State

theorem RegsMay.ports {s t : State} (h : RegsMay s t) : t.ports = s.ports := by rw [h]

/-! ## Logs of an event -/

/-- The registers that a logged module event reaches. -/
def EventOffset (o : Nat) : Prop := o = F.DMA_MEVT_CAUSE.base ∨ o = F.TST_ELOG_INFO_LOST.base

theorem elog_mevt_logsOnly (s : State) (src idx cause detail bit : Nat) :
    LogsOnly EventOffset s ((s.elog src idx cause detail).mevt bit) :=
  (LogsOnly.elog (.refl EventOffset s) (.inr rfl) src idx cause detail).mevt (.inl rfl) bit

theorem LogsOnly.getF {P : Nat → Prop} {s t : State} (h : LogsOnly P s t) (f : Fld) (i : Nat) (hf : ¬ P (f.off i)) :
    t.getF f i = s.getF f i := by
  rw [State.getF, h.word _ hf, State.getF]

theorem LogsOnly.port {P : Nat → Prop} {s t : State} (h : LogsOnly P s t) (k : Nat) : t.port k = s.port k := by
  rw [State.port, h.frame, State.port]

/-- No register of a port logs an event. -/
theorem not_eventOffset {o : Nat} (hlo : 0x600000 ≤ o) (hhi : o < 0xC00000) : ¬ EventOffset o := by
  rintro (h | h) <;> simp only [F.DMA_MEVT_CAUSE, F.TST_ELOG_INFO_LOST] at h <;> omega

/-! ## Where the registers of a port lie -/

variable (k : Nat)

theorem fabPort_off (k : Nat) : F.FAB_PCTRL_EN.off k = 0x601000 + 0x100 * k ∧ F.FAB_PSTAT_STATE.off k = 0x601008 + 0x100 * k ∧
    F.FAB_PERR_CRC.off k = 0x601010 + 0x100 * k ∧ F.FAB_PFEC_FEC.off k = 0x601018 + 0x100 * k := by
  simp only [Fld.off, F.FAB_PCTRL_EN, F.FAB_PSTAT_STATE, F.FAB_PERR_CRC, F.FAB_PFEC_FEC]
  omega

theorem fabCtl_off (j : Nat) : F.FAB_PCTRL_EN.off j = 0x601000 + 0x100 * j := (fabPort_off j).1
theorem fabStat_off (j : Nat) : F.FAB_PSTAT_STATE.off j = 0x601008 + 0x100 * j := (fabPort_off j).2.1

/-- A port of another number, or another register of a port. -/
theorem fabCtl_ne_stat (j : Nat) : F.FAB_PCTRL_EN.off j ≠ F.FAB_PSTAT_STATE.off k := by rw [fabCtl_off, fabStat_off]; omega

/-! ## A port starts to train, or is Down -/

variable (s : State)

theorem mayTrain_congr {s t : State} (hctl : t.word (F.FAB_PCTRL_EN.off k) = s.word (F.FAB_PCTRL_EN.off k))
    (hbyp : t.word F.FAB_BYP_CLOSED.base = s.word F.FAB_BYP_CLOSED.base) : t.mayTrain k = s.mayTrain k := by
  have hclosed : t.getF F.FAB_BYP_CLOSED 0 = s.getF F.FAB_BYP_CLOSED 0 :=
    congrArg (getBits · F.FAB_BYP_CLOSED.hi F.FAB_BYP_CLOSED.lo) hbyp
  rw [mayTrain, bypassIsOpen, hclosed, flag_congr hctl, mayTrain, bypassIsOpen]

theorem getF_toOptical_state : (s.toOptical k).getF F.FAB_PSTAT_STATE k = if s.mayTrain k then 1 else 0 := by
  rw [toOptical, getF_putF _ _ _ _ (by decide) (by decide)]
  split <;> rfl

/-- Of the port's state only `STATE` changes. -/
theorem getF_toOptical_bits (f : Fld) (h : 2 < f.lo) (hf : f.off k = F.FAB_PSTAT_STATE.off k) :
    (s.toOptical k).getF f k = s.getF f k := by
  rw [toOptical, getF_putF_bits _ _ _ _ _ _ (.inr h), getF_putF_off]
  rw [hf]; exact (fabCtl_ne_stat k k).symm

theorem flag_toOptical_retrain : (s.toOptical k).flag F.FAB_PCTRL_RETRAIN k = false := by
  have hzero : (s.putF F.FAB_PCTRL_RETRAIN k 0).getF F.FAB_PCTRL_RETRAIN k = 0 := getF_putF _ _ _ _ (by decide) (by decide)
  have hne : F.FAB_PCTRL_RETRAIN.off k ≠ F.FAB_PSTAT_STATE.off k := fabCtl_ne_stat k k
  rw [flag, toOptical, getF_putF_off _ _ _ _ _ _ hne, hzero]
  rfl

theorem toOptical_regs : RegsMay s (s.toOptical k) := .trans (.putF _ _ _ _) (.putF _ _ _ _)

theorem word_toOptical_ne {o : Nat} (hctl : o ≠ F.FAB_PCTRL_EN.off k) (hstat : o ≠ F.FAB_PSTAT_STATE.off k) :
    (s.toOptical k).word o = s.word o := by
  rw [toOptical, word_putF_ne _ _ _ _ hstat, word_putF_ne _ F.FAB_PCTRL_RETRAIN _ _ hctl]

/-! ## A port goes down while no plan runs -/

/-- What a port keeps when it goes down. -/
def fallen (x : Port) : Port :=
  { Port.reset with absent := x.absent, active := x.active, delay := x.delay, txq := x.txq.filter (!·.started) }

/-- Port `k` has gone down with a cause, and no plan ran. -/
structure WentDown (s : State) (k cause : Nat) (t : State) : Prop where
  frame : t = { s with regs := t.regs, ports := t.ports, test := t.test, out := t.out }
  port : t.port k = fallen (s.port k)
  other : ∀ j, j ≠ k → t.port j = s.port j
  state : t.getF F.FAB_PSTAT_STATE k = if s.mayTrain k then 1 else 0
  cause : cause ≠ 0 → t.getF F.FAB_PSTAT_CAUSE k = cause % 8
  word : ∀ o, o ≠ F.FAB_PCTRL_EN.off k → o ≠ F.FAB_PSTAT_STATE.off k → ¬ EventOffset o → t.word o = s.word o
  bits : ∀ f : Fld, 2 < f.lo → (f.hi < 12 ∨ 14 < f.lo) → f.off k = F.FAB_PSTAT_STATE.off k → t.getF f k = s.getF f k

/-- The cause of a port's fall is shown, unless it is none. -/
def showCause (s : State) (k cause : Nat) : State := if cause = 0 then s else s.putF F.FAB_PSTAT_CAUSE k cause

theorem showCause_regs (cause : Nat) : RegsMay s (s.showCause k cause) := .ite _ rfl (.putF _ _ _ _)

theorem word_showCause_ne (cause : Nat) {o : Nat} (ho : o ≠ F.FAB_PSTAT_STATE.off k) : (s.showCause k cause).word o = s.word o := by
  unfold showCause
  split
  · rfl
  · exact word_putF_ne _ _ _ _ ho

theorem getF_showCause_bits (cause : Nat) (f : Fld) (h : f.hi < 12 ∨ 14 < f.lo) : (s.showCause k cause).getF f k = s.getF f k := by
  unfold showCause
  split
  · rfl
  · exact getF_putF_bits _ _ _ _ _ _ h

theorem getF_showCause {cause : Nat} (h : cause ≠ 0) : (s.showCause k cause).getF F.FAB_PSTAT_CAUSE k = cause % 8 := by
  rw [showCause, if_neg h]
  exact getF_putF _ _ _ _ (by decide) (by decide)

theorem runningParts_congr {s t : State} (h : t.parts = s.parts) : t.runningParts = s.runningParts := by
  simp only [runningParts, part, h]

/-- With no plan running only the port, its registers and the logs change. -/
theorem portDown_of_idle (cause : Nat) (h : s.runningParts = []) : ∃ t, s.portDown k cause = t ∧
    LogsOnly EventOffset (((s.setPort k (fallen (s.port k))).showCause k cause).toOptical k) t := by
  have hlogs := elog_mevt_logsOnly (((s.setPort k (fallen (s.port k))).showCause k cause).toOptical k) 2 k
    (((s.setPort k (fallen (s.port k))).showCause k cause).getF F.FAB_PSTAT_CAUSE k) 0 0
  refine ⟨_, if_pos ?_, hlogs⟩
  refine (runningParts_congr ?_).trans h
  have hparts := congrArg State.parts hlogs.frame
  have hregs : (((s.setPort k (fallen (s.port k))).showCause k cause).toOptical k).parts = s.parts := by
    rw [toOptical_regs k, showCause_regs k]; rfl
  exact hparts.trans hregs

theorem portDown_wentDown (cause : Nat) (hk : k < 6) (h : s.runningParts = []) : WentDown s k cause (s.portDown k cause) := by
  obtain ⟨t, heq, hlogs⟩ := s.portDown_of_idle k cause h
  rw [heq]
  clear heq
  have hregs := (showCause_regs k (s.setPort k (fallen (s.port k))) cause).trans (toOptical_regs k _)
  have hstat : F.FAB_PSTAT_STATE.off k = 0x601008 + 0x100 * k := fabStat_off k
  have hctl : F.FAB_PCTRL_EN.off k = 0x601000 + 0x100 * k := fabCtl_off k
  have hquiet : ¬ EventOffset (F.FAB_PSTAT_STATE.off k) := not_eventOffset (by omega) (by omega)
  have hfield : ∀ f : Fld, f.off k = F.FAB_PSTAT_STATE.off k → t.getF f k =
      (((s.setPort k (fallen (s.port k))).showCause k cause).toOptical k).getF f k :=
    fun f hf => hlogs.getF f k (hf ▸ hquiet)
  have hports : ∀ j, t.port j = (s.setPort k (fallen (s.port k))).port j := by
    intro j
    exact (hlogs.port j).trans (congrArg (mget Port.reset · j) hregs.ports)
  refine ⟨?frame, (hports k).trans (port_setPort _ _ _), fun j hj => (hports j).trans (port_setPort_ne _ _ hj), ?state, ?cause,
    ?word, ?bits⟩
  case frame => rw [hlogs.frame, hregs]; rfl
  case state =>
    rw [hfield _ rfl, getF_toOptical_state]
    have hmay : ((s.setPort k (fallen (s.port k))).showCause k cause).mayTrain k = s.mayTrain k :=
      mayTrain_congr k (word_showCause_ne k _ cause (fabCtl_ne_stat k k))
        (word_showCause_ne k _ cause (by rw [hstat]; simp only [F.FAB_BYP_CLOSED]; omega))
    rw [hmay]
  case cause =>
    intro hc
    rw [hfield F.FAB_PSTAT_CAUSE rfl, getF_toOptical_bits k _ F.FAB_PSTAT_CAUSE (by decide) rfl,
      getF_showCause k _ hc]
  case word =>
    intro o hctl' hstat' hlog
    rw [hlogs.word o hlog, word_toOptical_ne k _ hctl' hstat', word_showCause_ne k _ cause hstat', word_setPort]
  case bits =>
    intro f hlo hhi hf
    rw [hfield f hf, getF_toOptical_bits k _ f hlo hf, getF_showCause_bits k _ cause f hhi, getF_setPort]

/-! ## A quiet port -/

/-- A port at which nothing waits sends nothing. -/
theorem pump_of_quiet (htx : (s.port k).txq = []) (hhold : (s.port k).holdq = []) (hseal : (s.port k).sealDue = false) (n : Nat) :
    s.pump k n = s := by
  cases n with
  | zero => rfl
  | succ n =>
    have hnone : (s.port k).nextVc = none := by
      have hclass : ∀ c, (s.port k).nextOf c = none := by
        intro c
        rw [Port.nextOf, htx]
        exact List.find?_eq_none.mpr (by simp)
      simp [Port.nextVc, hclass]
    unfold pump
    dsimp only
    rw [hseal, hhold, hnone, if_neg Bool.false_ne_true]
    exact ite_self _

theorem settleSent_of_none (h : ∀ q, q < 8 → (s.part q).sent = []) : s.settleSent = s := by
  unfold settleSent
  refine foldl_of_fixed fun q hq => ?_
  rw [h q (List.mem_range.mp hq)]
  rfl

theorem settleFtg_of_off (h : s.flag F.TST_FTG_GO 0 = false) : s.settleFtg = s :=
  if_neg (by rw [h]; simp)

/-- Nothing goes out by a quiet port. -/
theorem drain_of_quiet (htx : (s.port k).txq = []) (hhold : (s.port k).holdq = []) (hseal : (s.port k).sealDue = false)
    (hsent : ∀ q, q < 8 → (s.part q).sent = []) (hftg : s.flag F.TST_FTG_GO 0 = false) : s.drain k = s := by
  have hpump : s.pumpUp k = s := by rw [pumpUp, s.pump_of_quiet k htx hhold hseal, ite_self]
  rw [drain, hpump, s.settleSent_of_none hsent, s.settleFtg_of_off hftg]

end State
end Sys2Proof.Machine
end

section
/-! Retry and seals of a port (O38). -/

namespace Sys2Proof.Machine
namespace State

/-! ## Flits sent again -/

/-- A flit as it leaves by a port: with the highest number the port has received in order. -/
def stamped (x : Port) (f : Flit) : Flit :=
  { f with ack := if x.heard then (x.rxNext + 4095) % 4096 else 0, ak := if x.heard then 1 else 0 }

/-- From `s` to `t` the flits `fs` have left by port `k`, in order. -/
structure Sent (s : State) (k : Nat) (fs : List Flit) (t : State) : Prop where
  only : PortsOut s t
  port : t.port k = { s.port k with pewIdle := (t.port k).pewIdle }
  other : ∀ j, j ≠ k → t.port j = s.port j
  flits : flitsOut t k = (fs.map (stamped (s.port k))).reverse ++ flitsOut s k

theorem sent_emitFlit (s : State) (k : Nat) (f : Flit) : Sent s k [f] (s.emitFlit k f) where
  only := (PortsOut.refl s).emitFlit f
  port := by
    rw [emitFlit, port_emit, modPort_eq, port_setPort]
  other := fun j hj => by rw [emitFlit, port_emit, modPort_eq, port_setPort_ne _ _ hj]
  flits := by
    have hcons : ∀ (u : State) (g : Flit), flitsOut (u.emit (.flit k g)) k = g :: flitsOut u k := by
      intro u g
      exact List.filterMap_cons_some (if_pos rfl)
    exact hcons _ _

theorem sent_foldl (s : State) (k : Nat) (fs : List TxFlit) :
    Sent s k (fs.map (·.flit)) (fs.foldl (fun s f => s.emitFlit k f.flit) s) := by
  induction fs generalizing s with
  | nil => exact ⟨.refl s, rfl, fun _ _ => rfl, rfl⟩
  | cons f fs ih =>
    have h := sent_emitFlit s k f.flit
    have h' := ih (s.emitFlit k f.flit)
    have hstamp : stamped ((s.emitFlit k f.flit).port k) = stamped (s.port k) := by rw [h.port]; rfl
    refine ⟨h.only.trans h'.only, ?_, fun j hj => (h'.other j hj).trans (h.other j hj), ?_⟩
    · exact h'.port.trans (by rw [h.port]; rfl)
    · refine h'.flits.trans ?_
      rw [h.flits, hstamp]
      simp

/-- What is buffered from place `i` on, each flit counting one repetition more. -/
def again (x : Port) (i : Nat) : List TxFlit := (x.retry.drop i).map fun f => { f with resent := f.resent + 1 }

/-- The repetition counted, before the flits leave. -/
def repetition (s : State) (k i : Nat) : State :=
  (s.setPort k { s.port k with retry := (s.port k).retry.take i ++ again (s.port k) i }).bump F.FAB_PERR_RETX k

/-- Flits that are none of them at the limit are resent. -/
theorem resendFrom_found {s : State} {k n i : Nat} (hfound : (s.port k).retry.findIdx? (·.flit.seq = n) = some i)
    (hlimit : ∀ f ∈ (s.port k).retry.drop i, f.resent + 1 < s.retryLimit k) :
    s.resendFrom k n = (again (s.port k) i).foldl (fun s f => s.emitFlit k f.flit) (s.repetition k i) := by
  have hsent := sent_foldl (s.repetition k i) k (again (s.port k) i)
  have hctl : F.FAB_PCTRL_RETRY_LIMIT.off k ≠ F.FAB_PERR_RETX.off k := by
    simp only [Fld.off, F.FAB_PCTRL_RETRY_LIMIT, F.FAB_PERR_RETX]; omega
  have hsame : ((again (s.port k) i).foldl (fun s f => s.emitFlit k f.flit) (s.repetition k i)).retryLimit k = s.retryLimit k := by
    rw [retryLimit, State.getF, hsent.only.word, ← State.getF, repetition, bump, getF_bumpBy_off _ _ _ _ _ _ hctl, getF_setPort,
      retryLimit]
  have hnone : ¬ ((again (s.port k) i).any fun f =>
      ((again (s.port k) i).foldl (fun s f => s.emitFlit k f.flit) (s.repetition k i)).retryLimit k ≤ f.resent) = true := by
    rw [hsame, List.any_eq_true]
    rintro ⟨f, hf, hle⟩
    obtain ⟨g, hg, rfl⟩ := List.mem_map.mp hf
    have hlt := hlimit g hg
    have hle := of_decide_eq_true hle
    dsimp only at hle
    omega
  unfold resendFrom
  dsimp only
  rw [hfound]
  exact if_neg hnone

theorem resent_of_found {s : State} {k n i : Nat} (hfound : (s.port k).retry.findIdx? (·.flit.seq = n) = some i)
    (hlimit : ∀ f ∈ (s.port k).retry.drop i, f.resent + 1 < s.retryLimit k) : Resent s (s.resendFrom k n) k i := by
  rw [resendFrom_found hfound hlimit]
  have hsent := sent_foldl (s.repetition k i) k (again (s.port k) i)
  have hport : (s.repetition k i).port k = { s.port k with retry := (s.port k).retry.take i ++ again (s.port k) i } :=
    port_setPort _ _ _
  have hstamp : stamped ((s.repetition k i).port k) = stamped (s.port k) := by rw [hport]; rfl
  refine ⟨?_, ?_, ?_, ?_, fun j hj => (hsent.other j hj).trans (port_setPort_ne _ _ hj)⟩
  · rw [hsent.port, hport]; rfl
  · rw [hsent.flits, hstamp, again, List.map_map, List.map_map]; rfl
  · rw [State.getF, hsent.only.word, ← State.getF]
    exact getF_bumpBy _ _ _ _ (by decide) (by decide)
  · rw [hsent.only.frame]; rfl

/-! ## Acknowledgements and bad flits -/

/-- An acknowledgement frees what it covers; nothing waits that could go out then. -/
theorem ackTo_of_quiet {s : State} {k n i : Nat} (hquiet : Quiet s k)
    (hfound : (s.port k).retry.findIdx? (·.flit.seq = n) = some i) :
    s.ackTo k n = s.setPort k { s.port k with retry := ((s.port k).retry.drop (i + 1)).map fun f => { f with resent := 0 } } := by
  obtain ⟨htx, hhold, hseal, hsent, hftg⟩ := hquiet
  unfold ackTo
  dsimp only
  rw [hfound]
  exact drain_of_quiet _ _ (by rw [port_setPort]; exact htx) (by rw [port_setPort]; exact hhold) (by rw [port_setPort]; exact hseal)
    hsent hftg

theorem getF_bumpBy_bits (s : State) (f g : Fld) (i n : Nat) (h : g.hi < f.lo ∨ f.hi < g.lo) :
    (s.bumpBy f i n).getF g i = s.getF g i := getF_putF_bits _ _ _ _ _ _ h

theorem RegsMay.refl (s : State) : RegsMay s s := rfl

theorem bumpBy_regs (s : State) (f : Fld) (i n : Nat) : RegsMay s (s.bumpBy f i n) := rfl

theorem port_bumpBy (s : State) (f : Fld) (i n k : Nat) : (s.bumpBy f i n).port k = s.port k := rfl

/-- A NAK sent, unless one is out. -/
theorem sendNak_effect (s : State) (k : Nat) : PortsOut s (s.sendNak k) ∧ (s.sendNak k).port k = { s.port k with nakSent := true } ∧
    (s.sendNak k).out = if (s.port k).nakSent then s.out
      else .flit k { plainFlit 0 (fillBody []) with ack := (s.port k).rxNext, ak := 2 } :: s.out := by
  unfold sendNak
  dsimp only
  split
  · next h => exact ⟨.refl s, by conv_lhs => rw [show s.port k = { s.port k with nakSent := (s.port k).nakSent } from rfl, h], rfl⟩
  · exact ⟨((PortsOut.refl s).modPort _).emit _, port_setPort _ _ _, rfl⟩

/-- A bad flit counted. -/
def counted (s : State) (k : Nat) (crc : Bool) (errs : List Nat) : State :=
  ((if crc then s.bump F.FAB_PERR_CRC k else s).bumpBy F.FAB_PERR_FECU k (errs.filter (15 < ·)).length).bumpBy F.FAB_PFEC_FEC k
    ((errs.filter (· ≤ 15)).foldl (· + ·) 0)

theorem counted_regs (s : State) (k : Nat) (crc : Bool) (errs : List Nat) : RegsMay s (s.counted k crc errs) :=
  .trans (.trans (.ite _ (bumpBy_regs _ _ _ _) (.refl s)) (bumpBy_regs _ _ _ _)) (bumpBy_regs _ _ _ _)

theorem perr_ne_pfec (k : Nat) : F.FAB_PERR_CRC.off k ≠ F.FAB_PFEC_FEC.off k := by
  simp only [Fld.off, F.FAB_PERR_CRC, F.FAB_PFEC_FEC]; omega

theorem counted_crc (s : State) (k : Nat) (crc : Bool) (errs : List Nat) : (s.counted k crc errs).getF F.FAB_PERR_CRC k =
    if crc then min (s.getF F.FAB_PERR_CRC k + 1) 65535 else s.getF F.FAB_PERR_CRC k := by
  rw [counted, getF_bumpBy_off _ _ _ _ _ _ (perr_ne_pfec k), getF_bumpBy_bits _ _ _ _ _ (.inr (by decide))]
  split
  · exact getF_bumpBy _ _ _ _ (by decide) (by decide)
  · rfl

theorem counted_fecu (s : State) (k : Nat) (crc : Bool) (errs : List Nat) : (s.counted k crc errs).getF F.FAB_PERR_FECU k =
    min (s.getF F.FAB_PERR_FECU k + (errs.filter (15 < ·)).length) 65535 := by
  have hne : F.FAB_PERR_FECU.off k ≠ F.FAB_PFEC_FEC.off k := perr_ne_pfec k
  have hbase : (if crc = true then s.bump F.FAB_PERR_CRC k else s).getF F.FAB_PERR_FECU k = s.getF F.FAB_PERR_FECU k := by
    split
    · exact getF_bumpBy_bits _ _ _ _ _ (.inl (by decide))
    · rfl
  rw [counted, getF_bumpBy_off _ _ _ _ _ _ hne, getF_bumpBy _ _ _ _ (by decide) (by decide), hbase]
  rfl

theorem counted_fec (s : State) (k : Nat) (crc : Bool) (errs : List Nat) : (s.counted k crc errs).getF F.FAB_PFEC_FEC k =
    min (s.getF F.FAB_PFEC_FEC k + (errs.filter (· ≤ 15)).foldl (· + ·) 0) (2 ^ F.FAB_PFEC_FEC.width - 1) := by
  have hbase : (if crc = true then s.bump F.FAB_PERR_CRC k else s).getF F.FAB_PFEC_FEC k = s.getF F.FAB_PFEC_FEC k := by
    split
    · exact getF_bumpBy_off _ _ _ _ _ _ (perr_ne_pfec k).symm
    · rfl
  have hne : F.FAB_PFEC_FEC.off k ≠ F.FAB_PERR_FECU.off k := (perr_ne_pfec k).symm
  rw [counted, getF_bumpBy _ _ _ _ (by decide) (by decide), getF_bumpBy_off _ _ _ _ _ _ hne, hbase]

/-! ## A SEAL in sequence -/

/-- What a port is after a SEAL in sequence whose tag is good, but for the credits. -/
def sealedPort (x : Port) : Port :=
  { x with groupRx := x.groupRx + 1, rxNext := (x.rxNext + 1) % 4096, nakSent := false, heard := true }

/-- Credits that the freed counts of a SEAL give. -/
def creditedPort (x : Port) (credit : List Nat) : Port :=
  { x with
    credits := (List.range 6).map fun v =>
      min (startCredits.getD v 0) (x.credits.getD v 0 + (credit.getD v 0 + 2 ^ 32 - x.freedSeen.getD v 0) % 2 ^ 32),
    freedSeen := (List.range 6).map fun v => credit.getD v 0 % 2 ^ 32 }

/-- A SEAL in sequence taken and acknowledged. -/
def sealTaken (s : State) (k : Nat) : State := (s.modPort k fun x => { x with groupRx := x.groupRx + 1 }).received k 1

/-- The acknowledgement that leaves. -/
def sealAck (s : State) (k : Nat) : Flit := { plainFlit 0 (fillBody []) with ack := (s.port k).rxNext, ak := 1 }

theorem sealTaken_effect (s : State) (k : Nat) (hrx : (s.port k).rxNext < 4096) : PortsOut s (s.sealTaken k) ∧
    (s.sealTaken k).port k = { sealedPort (s.port k) with pewIdle := ((s.sealTaken k).port k).pewIdle } ∧
    (∀ j, j ≠ k → (s.sealTaken k).port j = s.port j) ∧ (s.sealTaken k).out = .flit k (s.sealAck k) :: s.out := by
  have hsent := sent_emitFlit ((s.modPort k fun x => { x with groupRx := x.groupRx + 1 }).modPort k fun x =>
    { x with rxNext := (x.rxNext + 1) % 4096, nakSent := false, heard := true }) k (plainFlit 0 (fillBody []))
  have hport : ((s.modPort k fun x => { x with groupRx := x.groupRx + 1 }).modPort k fun x =>
      { x with rxNext := (x.rxNext + 1) % 4096, nakSent := false, heard := true }).port k = sealedPort (s.port k) := by
    rw [modPort_eq, port_setPort, modPort_eq, port_setPort]
    rfl
  have hack : stamped (sealedPort (s.port k)) (plainFlit 0 (fillBody [])) = s.sealAck k := by
    have : ((s.port k).rxNext + 1) % 4096 + 4095 = (s.port k).rxNext + 4096 ∨
        ((s.port k).rxNext + 1) % 4096 + 4095 = (s.port k).rxNext := by omega
    have hmod : (((s.port k).rxNext + 1) % 4096 + 4095) % 4096 = (s.port k).rxNext := by omega
    simp only [stamped, sealedPort, if_true, hmod]
    rfl
  refine ⟨(((PortsOut.refl s).modPort _).modPort _).trans hsent.only, ?_, fun j hj => (hsent.other j hj).trans ?_, ?_⟩
  · exact hsent.port.trans (by rw [hport]; rfl)
  · rw [modPort_eq, port_setPort_ne _ _ hj, modPort_eq, port_setPort_ne _ _ hj]
  · refine Eq.trans (b := .flit k (stamped (((s.modPort k fun x => { x with groupRx := x.groupRx + 1 }).modPort k fun x =>
      { x with rxNext := (x.rxNext + 1) % 4096, nakSent := false, heard := true }).port k) (plainFlit 0 (fillBody []))) :: s.out) rfl ?_
    rw [hport, hack]

/-- What waits at a port stands when a SEAL comes. -/
theorem waiting_creditedPort (x : Port) (n : Nat) (credit : List Nat) :
    (creditedPort { sealedPort x with pewIdle := n } credit).txq = x.txq ∧
    (creditedPort { sealedPort x with pewIdle := n } credit).holdq = x.holdq ∧
    (creditedPort { sealedPort x with pewIdle := n } credit).sealDue = x.sealDue := ⟨rfl, rfl, rfl⟩

theorem takeCredits_eq (s : State) (k : Nat) (credit : List Nat) :
    s.takeCredits k credit = (s.modPort k fun x => creditedPort x credit).drain k := rfl

/-- A good SEAL is acknowledged, and its credits are taken. -/
theorem exec_sealFlit_good {s : State} {k seq count : Nat} {credit : List Nat} (hup : s.portUp k = true) (hquiet : Quiet s k)
    (hseq : seq % 4096 = (s.port k).rxNext) (hcount : count ≤ 256) :
    exec (.sealFlit k seq (s.port k).groupRx count true credit) s =
      .next ((s.sealTaken k).modPort k fun x => creditedPort x credit) := by
  obtain ⟨htx, hhold, hseal, hsent, hftg⟩ := hquiet
  have hgood : ¬ ((!true) = true ∨ (s.port k).groupRx ≠ (s.port k).groupRx ∨ 256 < count) := by simp [hcount]
  obtain ⟨honly, hport, -, -⟩ := s.sealTaken_effect k (by omega)
  have hcredited : ((s.sealTaken k).modPort k fun x => creditedPort x credit).port k =
      creditedPort { sealedPort (s.port k) with pewIdle := ((s.sealTaken k).port k).pewIdle } credit := by
    rw [modPort_eq, port_setPort, ← hport]
  have htaken : execSealFlit k seq (s.port k).groupRx count true credit s = .next ((s.sealTaken k).takeCredits k credit) := by
    unfold execSealFlit
    rw [if_neg (by rw [hup]; decide), if_neg (not_not_intro hseq), if_neg hgood]
    rfl
  refine htaken.trans (congrArg Host.Outcome.next ?_)
  obtain ⟨htx', hhold', hseal'⟩ := waiting_creditedPort (s.port k) ((s.sealTaken k).port k).pewIdle credit
  rw [takeCredits_eq]
  refine drain_of_quiet k _ ?_ ?_ ?_ ?_ ?_
  · rw [hcredited, htx', htx]
  · rw [hcredited, hhold', hhold]
  · rw [hcredited, hseal', hseal]
  · intro q hq
    rw [modPort_eq, part_setPort, honly.part, hsent q hq]
  · rw [← hftg]
    refine flag_congr ?_
    rw [modPort_eq, word_setPort, honly.word]

end State
end Sys2Proof.Machine

namespace Sys2Proof

open Machine
open Machine (State)

/-- Settles O38: a quiet port sends nothing of itself, so what goes out is what is resent, the NAK or the acknowledgement. -/
theorem retryAndSeals : Obligations.RetryAndSeals := by
  unfold Obligations.RetryAndSeals
  intro s k hk hup hquiet
  dsimp only
  refine ⟨?nak, ?timeout, ?ack, ?discard, ?good, ?late, ?fails⟩
  case nak =>
    intro seq i hfound hlimit
    exact ⟨_, congrArg Host.Outcome.next (if_pos hup), State.resent_of_found hfound hlimit⟩
  case timeout =>
    intro f rest hretry hlimit
    have hfound : (s.port k).retry.findIdx? (·.flit.seq = f.flit.seq) = some 0 := by rw [hretry, List.findIdx?_cons]; simp
    refine ⟨s.resendFrom k f.flit.seq, ?_, State.resent_of_found hfound hlimit⟩
    change execRetryTimeout k s = _
    unfold execRetryTimeout
    rw [hretry]
    exact congrArg Host.Outcome.next (if_pos hup)
  case ack =>
    intro seq i hfound
    refine ⟨_, congrArg Host.Outcome.next ((if_pos hup).trans (State.ackTo_of_quiet hquiet hfound)), ?_, rfl,
      fun j hj => State.port_setPort_ne _ _ hj⟩
    rw [State.port_setPort]
  case discard =>
    intro crc errs
    have hexec : exec (.flitDiscard k crc errs) s = .next ((s.counted k crc errs).sendNak k) :=
      congrArg Host.Outcome.next (if_neg (by rw [hup]; decide))
    obtain ⟨honly, hport, hout⟩ := State.sendNak_effect (s.counted k crc errs) k
    have hregs := s.counted_regs k crc errs
    have hsame : (s.counted k crc errs).port k = s.port k := congrArg (mget Port.reset · k) hregs.ports
    rw [hsame] at hport hout
    refine ⟨_, hexec, ?_, ?_, ?_, by rw [hport], by rw [hport], ?_, by rw [honly.frame, hregs]⟩
    · rw [State.getF, honly.word, ← State.getF, State.counted_crc]
    · rw [State.getF, honly.word, ← State.getF, State.counted_fecu]
    · rw [State.getF, honly.word, ← State.getF, State.counted_fec]
    · rw [hout, hregs]
  case good =>
    intro seq count credit hseq hcount
    obtain ⟨honly, hport, hother, hout⟩ := s.sealTaken_effect k (by omega)
    refine ⟨_, State.exec_sealFlit_good hup hquiet hseq hcount, ?_⟩
    rw [State.modPort_eq, State.port_setPort, hport, hseq]
    refine ⟨rfl, rfl, rfl, hout, fun v hv => ?_, ?_, fun j hj => (State.port_setPort_ne _ _ hj).trans (hother j hj)⟩
    · simp [State.creditedPort, State.sealedPort, hv]
    · rw [honly.frame]; rfl
  case late =>
    intro seq g count tag credit hseq
    have hexec : exec (.sealFlit k seq g count tag credit) s = .next (s.sendNak k) :=
      congrArg Host.Outcome.next ((if_neg (by rw [hup]; decide)).trans (if_pos hseq))
    obtain ⟨honly, hport, -⟩ := s.sendNak_effect k
    exact ⟨_, hexec, hport, honly.frame⟩
  case fails =>
    intro seq g count tag credit hseq hidle hbad
    have hidle' : (s.bump F.FAB_PERR_SEALF k).runningParts = [] := hidle
    have hfell := State.portDown_wentDown k (s.bump F.FAB_PERR_SEALF k) 5 hk hidle'
    refine ⟨_, congrArg Host.Outcome.next ((if_neg (by rw [hup]; decide)).trans ((if_neg (not_not_intro hseq)).trans
      (if_pos ?_))), ?_, hfell.cause (by decide), ?_, ?_⟩
    · obtain h | h | h := hbad
      · exact .inl (by rw [h]; rfl)
      · exact .inr (.inl h)
      · exact .inr (.inr h)
    · have hperr : F.FAB_PERR_SEALF.off k = 0x601010 + 0x100 * k := (State.fabPort_off k).2.2.1
      have hcount := s.getF_bumpBy F.FAB_PERR_SEALF k 1 (by decide) (by decide)
      rw [State.getF, hfell.word _ (by rw [hperr, State.fabCtl_off]; omega) (by rw [hperr, State.fabStat_off]; omega)
        (State.not_eventOffset (by omega) (by omega)), ← State.getF]
      exact hcount
    · rw [hfell.port]; rfl
    · rw [hfell.state, State.mayTrain_congr (s := s) (t := s.bump F.FAB_PERR_SEALF k) k (s.word_bumpBy_ne _ _ _ ?_)
        (s.word_bumpBy_ne _ _ _ ?_)]
      · simp only [Fld.off, F.FAB_PCTRL_EN, F.FAB_PERR_SEALF]; omega
      · simp only [Fld.off, F.FAB_BYP_CLOSED, F.FAB_PERR_SEALF]; omega

end Sys2Proof
end

section
/-! SUPPORT. What a plan's stop and the module's failure leave of the registers (R203, R258, R278, R361). -/

namespace Sys2Proof.Machine
namespace State

/-- Two fields share no bit. -/
def Apart (f : Fld) (i : Nat) (g : Fld) (j : Nat) : Prop := f.off i ≠ g.off j ∨ f.hi < g.lo ∨ g.hi < f.lo

theorem getF_putF_apart (s : State) {f g : Fld} {i j : Nat} (v : Nat) (h : Apart f i g j) : (s.putF g j v).getF f i = s.getF f i := by
  obtain h | h := h
  · exact getF_putF_off _ _ _ _ _ _ h
  · exact getF_putF_bits _ _ _ _ _ _ h

theorem getF_foldl {α : Type} {f : Fld} {i : Nat} {act : State → α → State} (hact : ∀ v x, (act v x).getF f i = v.getF f i)
    (l : List α) (s : State) : (l.foldl act s).getF f i = s.getF f i := by
  induction l generalizing s with
  | nil => rfl
  | cons x l ih => exact (ih _).trans (hact s x)

/-- Field `f` is none that the stop of the plan of partition `p` writes. -/
structure StopApart (f : Fld) (i p : Nat) : Prop where
  run : Apart f i F.PLN_CTRL_RUN p
  running : Apart f i F.GEN_STATUS_RUNNING 0
  dstate : Apart f i F.PLN_COMMIT_STATUS_DSTATE p
  pos : Apart f i F.PLN_SPOS_POS p
  event : Apart f i F.DMA_PEVT_CAUSE p
  tile : ∀ g, Apart f i F.TIL_STATUS_STATE g

theorem getF_signalQ (s : State) (q : Nat) (f : Fld) (i : Nat) : (s.signalQ q).getF f i = s.getF f i := by
  unfold signalQ
  split <;> rfl

theorem getF_setRun {f : Fld} {i p : Nat} (s : State) (b : Bool) (hrun : Apart f i F.PLN_CTRL_RUN p)
    (hrunning : Apart f i F.GEN_STATUS_RUNNING 0) : (s.setRun p b).getF f i = s.getF f i :=
  (getF_putF_apart _ _ hrunning).trans (getF_putF_apart _ _ hrun)

/-- Of the registers, what follows in a plan's stop after `RUN` clears touches three. -/
theorem getF_planStop_setRun {f : Fld} {i p : Nat} (hdstate : Apart f i F.PLN_COMMIT_STATUS_DSTATE p)
    (hpos : Apart f i F.PLN_SPOS_POS p) (hevent : Apart f i F.DMA_PEVT_CAUSE p) (s : State) (cause : Nat) :
    (s.planStop p cause).getF f i = (s.setRun p false).getF f i := by
  unfold planStop pevt
  extract_lets s1 s2 s3 s4 s5 s6
  have h3 : s3.getF f i = s1.getF f i := getF_putF_apart s2 0 hdstate
  have h4 : s4.getF f i = s3.getF f i := getF_putF_apart s3 0 hpos
  have h5 : s5.getF f i = s4.getF f i := by
    refine getF_foldl (fun v x => ?_) _ _
    dsimp only
    split
    · exact getF_signalQ _ _ _ _
    · rfl
  have h6 : s6.getF f i = s5.getF f i := getF_putF_apart s5 _ hevent
  rw [getF_signalQ, h6, h5, h4, h3]

theorem getF_planStop {f : Fld} {i p : Nat} (h : StopApart f i p) (s : State) (cause : Nat) :
    (s.planStop p cause).getF f i = s.getF f i :=
  (getF_planStop_setRun h.dstate h.pos h.event s cause).trans (getF_setRun s false h.run h.running)

theorem getF_restoreTile {f : Fld} {i p : Nat} (h : StopApart f i p) (s : State) (g : Nat) :
    (s.restoreTile g).getF f i = s.getF f i := by
  unfold restoreTile
  extract_lets s1
  have h1 : s1.getF f i = s.getF f i := by
    simp only [s1]
    split
    · exact getF_putF_apart _ _ (h.tile g)
    · rfl
  exact h1

theorem getF_stopRolled {f : Fld} {i p : Nat} (h : StopApart f i p) (s : State) (cause : Nat) :
    (s.stopRolled p cause).getF f i = s.getF f i :=
  (getF_planStop h _ cause).trans (getF_foldl (getF_restoreTile h) _ _)

/-- The plans that run are stopped. -/
def stopPlans (s : State) (cause : Nat) : State :=
  (List.range 8).foldl (fun s p => if s.running p then s.stopRolled p cause else s) s

theorem getF_stopPlans {f : Fld} {i : Nat} (h : ∀ p, p < 8 → StopApart f i p) (s : State) (cause : Nat) :
    (s.stopPlans cause).getF f i = s.getF f i := by
  unfold stopPlans
  have hall : ∀ p ∈ List.range 8, StopApart f i p := fun p hp => h p (List.mem_range.mp hp)
  generalize List.range 8 = l at hall
  induction l generalizing s with
  | nil => rfl
  | cons p l ih =>
    rw [List.foldl_cons, ih _ fun q hq => hall q (List.mem_cons_of_mem _ hq)]
    split
    · exact getF_stopRolled (hall p List.mem_cons_self) s cause
    · rfl

theorem apart_of_off {f g : Fld} {i j : Nat} (h : f.off i ≠ g.off j) : Apart f i g j := .inl h

theorem running_planStop (s : State) (p cause : Nat) : (s.planStop p cause).running p = false := by
  have hrun : (s.setRun p false).getF F.PLN_CTRL_RUN p = 0 := by
    refine (getF_putF_apart _ _ (apart_of_off ?_)).trans (getF_putF _ _ _ _ (by decide) (by decide))
    simp only [Fld.off, F.PLN_CTRL_RUN, F.GEN_STATUS_RUNNING]; omega
  have hsame : (s.planStop p cause).getF F.PLN_CTRL_RUN p = (s.setRun p false).getF F.PLN_CTRL_RUN p := by
    refine getF_planStop_setRun (apart_of_off ?_) (apart_of_off ?_) (apart_of_off ?_) s cause <;>
      simp only [Fld.off, F.PLN_CTRL_RUN, F.PLN_COMMIT_STATUS_DSTATE, F.PLN_SPOS_POS, F.DMA_PEVT_CAUSE] <;> omega
  rw [running, flag, hsame, hrun]
  rfl

/-- Another plan's `RUN` is none that a stop writes. -/
theorem stopApart_run {p q : Nat} (hp : p < 8) (h : q ≠ p) : StopApart F.PLN_CTRL_RUN q p := by
  refine ⟨.inl ?_, .inl ?_, .inl ?_, .inl ?_, .inl ?_, fun g => .inl ?_⟩ <;>
    simp only [Fld.off, F.PLN_CTRL_RUN, F.GEN_STATUS_RUNNING, F.PLN_COMMIT_STATUS_DSTATE, F.PLN_SPOS_POS, F.DMA_PEVT_CAUSE,
      F.TIL_STATUS_STATE] <;> omega

theorem running_stopRolled_ne (s : State) {p q : Nat} (cause : Nat) (hp : p < 8) (h : q ≠ p) :
    (s.stopRolled p cause).running q = s.running q := by
  rw [running, flag, getF_stopRolled (stopApart_run hp h), running, flag]

/-- After the plans that run are stopped none is set to run. -/
theorem running_stopPlans (s : State) (cause : Nat) {q : Nat} (hq : q < 8) : (s.stopPlans cause).running q = false := by
  have stopped : ∀ (l : List Nat), (∀ p ∈ l, p < 8) → ∀ s : State, (q ∈ l ∨ s.running q = false) →
      (l.foldl (fun s p => if s.running p then s.stopRolled p cause else s) s).running q = false := by
    intro l
    induction l with
    | nil =>
      intro _ s h
      exact h.resolve_left List.not_mem_nil
    | cons p l ih =>
      intro hl s h
      have hp : p < 8 := hl p List.mem_cons_self
      refine ih (fun r hr => hl r (List.mem_cons_of_mem _ hr)) _ ?_
      by_cases hqp : q = p
      · right
        subst hqp
        dsimp only
        split
        · exact running_planStop _ _ _
        · next hoff => simpa using hoff
      · refine (h.imp (fun hmem => (List.mem_cons.mp hmem).resolve_left hqp) fun hoff => ?_)
        dsimp only
        split
        · rw [running_stopRolled_ne s cause hp hqp, hoff]
        · exact hoff
  exact stopped _ (fun p hp => List.mem_range.mp hp) s (.inl (List.mem_range.mpr hq))

/-! ## The module fails -/

/-- A module that has not failed before: its switches close, its ports go dark and its plans stop. -/
theorem failModule_eq {s : State} (h : s.flag F.GEN_STATUS_FAILED 0 = false) (fcause cause : Nat) :
    s.failModule fcause cause = ((List.range 6).foldl portDark (s.fail fcause)).stopPlans cause :=
  if_neg (by rw [h]; decide)

theorem failModule_of_failed {s : State} (h : s.flag F.GEN_STATUS_FAILED 0 = true) (fcause cause : Nat) :
    s.failModule fcause cause = s := if_pos h

/-- Field `f` is of no register that a port's fall reaches. -/
def DarkApart (f : Fld) (i k : Nat) : Prop :=
  f.off i ≠ F.FAB_PSTAT_STATE.off k ∧ f.off i ≠ F.TST_ELOG_INFO_LOST.base

theorem getF_portDark {f : Fld} {i k : Nat} (h : DarkApart f i k) (s : State) : (s.portDark k).getF f i = s.getF f i := by
  obtain ⟨hstat, hlog⟩ := h
  have hcause : f.off i ≠ F.FAB_PSTAT_CAUSE.off k := hstat
  unfold portDark
  dsimp only
  split
  · rw [(elog_logsOnly _ _ _ _ _).getF f i hlog, getF_putF_off _ _ _ _ _ _ hstat, getF_putF_off _ _ _ _ _ _ hcause,
      getF_setPort]
  · split
    · rfl
    · exact getF_putF_off _ _ _ _ _ _ hstat

theorem portDark_of_failed {s : State} {k : Nat} (h : s.getF F.FAB_PSTAT_STATE k = 7) : s.portDark k = s := by
  unfold portDark
  dsimp only
  rw [if_neg (by omega), if_pos h]

/-- A port that is Failed stays so while others go dark. -/
theorem failed_portDark {s : State} {k : Nat} (j : Nat) (h : s.getF F.FAB_PSTAT_STATE k = 7) :
    (s.portDark j).getF F.FAB_PSTAT_STATE k = 7 := by
  by_cases hj : k = j
  · rw [← hj, portDark_of_failed h, h]
  · rw [getF_portDark ⟨?_, ?_⟩, h]
    · rw [fabStat_off, fabStat_off]; omega
    · rw [fabStat_off]; simp only [F.TST_ELOG_INFO_LOST]; omega

/-- What the ports that go dark leave: another register, and the state of a port that is Failed. -/
theorem getF_portsDark {f : Fld} {i : Nat} (s : State) (h : ∀ k, k < 6 → DarkApart f i k ∨ s.getF F.FAB_PSTAT_STATE k = 7) :
    ((List.range 6).foldl portDark s).getF f i = s.getF f i := by
  have hall : ∀ k ∈ List.range 6, DarkApart f i k ∨ s.getF F.FAB_PSTAT_STATE k = 7 := fun k hk => h k (List.mem_range.mp hk)
  clear h
  generalize List.range 6 = l at hall
  induction l generalizing s with
  | nil => rfl
  | cons k l ih =>
    have hk := hall k List.mem_cons_self
    have hl : ∀ j ∈ l, DarkApart f i j ∨ (s.portDark k).getF F.FAB_PSTAT_STATE j = 7 := fun j hj =>
      (hall j (List.mem_cons_of_mem _ hj)).imp id (failed_portDark k)
    have hrest := ih (s.portDark k) hl
    refine hrest.trans ?_
    obtain hk | hk := hk
    · exact getF_portDark hk s
    · rw [portDark_of_failed hk]

/-- The registers that a failed module shows it in. -/
structure FailApart (f : Fld) (i : Nat) : Prop where
  closed : Apart f i F.FAB_BYP_CLOSED 0
  failed : Apart f i F.GEN_STATUS_FAILED 0
  fcause : Apart f i F.GEN_STATUS_FCAUSE 0

theorem getF_fail {f : Fld} {i : Nat} (h : FailApart f i) (s : State) (cause : Nat) : (s.fail cause).getF f i = s.getF f i := by
  unfold fail closeBypass
  split
  · rfl
  · rw [getF_putF_apart _ _ h.fcause, getF_putF_apart _ _ h.failed, getF_putF_apart _ _ h.closed]

/-- A field that neither the failure nor the falling ports nor the stopping plans write; a Failed port does not fall. -/
theorem getF_failModule {f : Fld} {i : Nat} {s : State} (hfail : FailApart f i)
    (hdark : ∀ k, k < 6 → DarkApart f i k ∨ s.getF F.FAB_PSTAT_STATE k = 7) (hstop : ∀ p, p < 8 → StopApart f i p)
    (fcause cause : Nat) : (s.failModule fcause cause).getF f i = s.getF f i := by
  by_cases h : s.flag F.GEN_STATUS_FAILED 0 = true
  · rw [failModule_of_failed h]
  · have hstate : ∀ k, (s.fail fcause).getF F.FAB_PSTAT_STATE k = s.getF F.FAB_PSTAT_STATE k := fun k =>
      getF_fail ⟨.inl (by rw [fabStat_off]; simp only [Fld.off, F.FAB_BYP_CLOSED]; omega),
        .inl (by rw [fabStat_off]; simp only [Fld.off, F.GEN_STATUS_FAILED]; omega),
        .inl (by rw [fabStat_off]; simp only [Fld.off, F.GEN_STATUS_FCAUSE]; omega)⟩ s fcause
    rw [failModule_eq (by simpa using h), getF_stopPlans hstop,
      getF_portsDark _ fun k hk => (hdark k hk).imp id fun hf => (hstate k).trans hf, getF_fail hfail]

/-- No field of `GEN_STATUS` lies where ports fall or, but for `RUNNING`, where plans stop. -/
theorem getF_failModule_status {f : Fld} (hoff : f.off 0 = 0x10) (hhi : f.hi < 16) {s : State}
    (h : s.flag F.GEN_STATUS_FAILED 0 = false) (fcause cause : Nat) :
    (s.failModule fcause cause).getF f 0 = (s.fail fcause).getF f 0 := by
  rw [failModule_eq h, getF_stopPlans, getF_portsDark]
  · intro k _
    refine .inl ⟨?_, ?_⟩
    · rw [hoff, fabStat_off]; omega
    · rw [hoff]; decide
  · intro p _
    refine ⟨.inl ?_, .inr (.inl hhi), .inl ?_, .inl ?_, .inl ?_, fun g => .inl ?_⟩ <;> rw [hoff] <;>
      simp only [Fld.off, F.PLN_CTRL_RUN, F.PLN_COMMIT_STATUS_DSTATE, F.PLN_SPOS_POS, F.DMA_PEVT_CAUSE, F.TIL_STATUS_STATE] <;> omega

theorem failed_failModule (s : State) (fcause cause : Nat) : (s.failModule fcause cause).flag F.GEN_STATUS_FAILED 0 = true := by
  by_cases h : s.flag F.GEN_STATUS_FAILED 0 = true
  · rw [failModule_of_failed h, h]
  · have hone : (s.fail fcause).flag F.GEN_STATUS_FAILED 0 = true := by
      rw [fail, if_neg h, flag_putF_bits _ _ _ _ _ _ (.inl (by decide)), flag_putF_one _ _ _ (by decide) (by decide)]
    rw [← hone, flag, flag, getF_failModule_status (by decide) (by decide) (by simpa using h)]

theorem fcause_failModule {s : State} (h : s.flag F.GEN_STATUS_FAILED 0 = false) {fcause : Nat} (hf : fcause < 16) (cause : Nat) :
    (s.failModule fcause cause).getF F.GEN_STATUS_FCAUSE 0 = fcause := by
  have hput : (s.fail fcause).getF F.GEN_STATUS_FCAUSE 0 = fcause % 16 := by
    rw [fail, if_neg (by rw [h]; decide)]
    exact getF_putF _ _ _ _ (by decide) (by decide)
  rw [getF_failModule_status (by decide) (by decide) h, hput, Nat.mod_eq_of_lt hf]

theorem running_failModule {s : State} (h : s.flag F.GEN_STATUS_FAILED 0 = false) (fcause cause : Nat) {p : Nat} (hp : p < 8) :
    (s.failModule fcause cause).running p = false := by
  rw [failModule_eq h, running_stopPlans _ _ hp]

/-- The failure of the module is a fault: memory and time stand. -/
theorem faultStep_failModule (s : State) (fcause cause : Nat) : FaultStep s (s.failModule fcause cause) := by
  have hfail : FaultStep s (s.fail fcause) := by
    unfold fail closeBypass
    split
    · exact .refl s
    · exact (((FaultStep.refl s).putF _ _ _).putF _ _ _).putF _ _ _
  have hdark : ∀ (v : State) (k : Nat), FaultStep v (v.portDark k) := by
    intro v k
    unfold portDark
    dsimp only
    split
    · exact ((((FaultStep.refl v).setPort _ _).putF _ _ _).putF _ _ _).elog _ _ _ _
    · split
      · exact .refl v
      · exact (FaultStep.refl v).putF _ _ _
  have hstop : ∀ (v : State) (p : Nat), FaultStep v (if v.running p then v.stopRolled p cause else v) := fun v p =>
    (FaultStep.refl v).ite ((FaultStep.refl v).stopRolled p cause)
  unfold failModule
  split
  · exact .refl s
  · exact (hfail.foldl hdark _).foldl hstop _

end State
end Sys2Proof.Machine
end

section
/-! The training of ports (O39): what each event of a port does to it. -/

namespace Sys2Proof.Machine
namespace State

/-! ## Ports through a failure of the module -/

theorem ports_foldl {α : Type} {act : State → α → State} (hact : ∀ v x, (act v x).ports = v.ports) (l : List α) (s : State) :
    (l.foldl act s).ports = s.ports := by
  induction l generalizing s with
  | nil => rfl
  | cons x l ih => exact (ih _).trans (hact s x)

theorem ports_signalQ (s : State) (q : Nat) : (s.signalQ q).ports = s.ports := by
  unfold signalQ
  split <;> rfl

theorem ports_stopRolled (s : State) (p cause : Nat) : (s.stopRolled p cause).ports = s.ports := by
  have hrestore : ∀ (v : State) (g : Nat), (v.restoreTile g).ports = v.ports := by
    intro v g
    unfold restoreTile
    dsimp only
    split <;> rfl
  have htiles := ports_foldl hrestore (s.tilesOf p) s
  rw [stopRolled]
  generalize (s.tilesOf p).foldl restoreTile s = v at htiles
  unfold planStop pevt
  extract_lets s1 s2 s3 s4 s5 s6
  have h1 : s1.ports = v.ports := (putF_ports _ _ _ _).trans (putF_ports _ _ _ _)
  have h2 : s2.ports = s1.ports := setPart_ports _ _ _
  have h3 : s3.ports = s2.ports := putF_ports _ _ _ _
  have h4 : s4.ports = s3.ports := putF_ports _ _ _ _
  have h5 : s5.ports = s4.ports := by
    refine ports_foldl (fun v i => ?_) _ _
    dsimp only
    split
    · exact ports_signalQ _ _
    · rfl
  have h6 : s6.ports = s5.ports := putF_ports _ _ _ _
  rw [ports_signalQ, h6, h5, h4, h3, h2, h1, htiles]

/-- A Failed port is as before once the module has failed. -/
theorem port_failModule {s : State} {k : Nat} (h : s.getF F.FAB_PSTAT_STATE k = 7) (fcause cause : Nat) :
    (s.failModule fcause cause).port k = s.port k := by
  by_cases hf : s.flag F.GEN_STATUS_FAILED 0 = true
  · rw [failModule_of_failed hf]
  · have hstops : ∀ v : State, (v.stopPlans cause).ports = v.ports := by
      refine fun v => ports_foldl (fun v p => ?_) _ _
      split
      · exact ports_stopRolled _ _ _
      · rfl
    have hdark : ∀ (l : List Nat) (v : State), v.getF F.FAB_PSTAT_STATE k = 7 → (l.foldl portDark v).port k = v.port k := by
      intro l
      induction l with
      | nil => exact fun _ _ => rfl
      | cons j l ih =>
        intro v hv
        refine (ih _ (failed_portDark j hv)).trans ?_
        by_cases hj : k = j
        · rw [← hj, portDark_of_failed hv]
        · unfold portDark
          dsimp only
          split
          · rw [(elog_logsOnly _ _ _ _ _).port, port_putF, port_putF, port_setPort_ne _ _ hj]
          · split <;> rfl
    have hfail : (s.fail fcause).ports = s.ports := by
      unfold fail closeBypass
      split <;> rfl
    have hstate : (s.fail fcause).getF F.FAB_PSTAT_STATE k = 7 := by
      rw [getF_fail, h]
      refine ⟨.inl ?_, .inl ?_, .inl ?_⟩ <;> rw [fabStat_off] <;>
        simp only [Fld.off, F.FAB_BYP_CLOSED, F.GEN_STATUS_FAILED, F.GEN_STATUS_FCAUSE] <;> omega
    rw [failModule_eq (by simpa using hf), port, hstops, ← port, hdark _ _ hstate, port, hfail, port]

/-- A field of `FAB_PSTAT` is none that a failing module writes, if the port is Failed. -/
theorem getF_failModule_port {f : Fld} {s : State} {k : Nat} (hk : k < 6) (hoff : f.off k = F.FAB_PSTAT_STATE.off k)
    (h : s.getF F.FAB_PSTAT_STATE k = 7) (fcause cause : Nat) : (s.failModule fcause cause).getF f k = s.getF f k := by
  have hat : f.off k = 0x601008 + 0x100 * k := hoff.trans (fabStat_off k)
  refine getF_failModule ⟨.inl ?_, .inl ?_, .inl ?_⟩ (fun j _ => ?_) (fun p hp => ⟨.inl ?_, .inl ?_, .inl ?_, .inl ?_, .inl ?_,
    fun g => .inl ?_⟩) fcause cause
  case refine_4 =>
    by_cases hj : j = k
    · exact .inr (hj ▸ h)
    · refine .inl ⟨?_, ?_⟩
      · rw [hat, fabStat_off]; omega
      · rw [hat]; simp only [F.TST_ELOG_INFO_LOST]; omega
  all_goals
    rw [hat]
    simp only [Fld.off, F.FAB_BYP_CLOSED, F.GEN_STATUS_FAILED, F.GEN_STATUS_FCAUSE, F.PLN_CTRL_RUN, F.GEN_STATUS_RUNNING,
      F.PLN_COMMIT_STATUS_DSTATE, F.PLN_SPOS_POS, F.DMA_PEVT_CAUSE, F.TIL_STATUS_STATE]
    omega

end State
end Sys2Proof.Machine
end

section
/-! Ports train and go down (O39). -/

namespace Sys2Proof.Machine
namespace State

variable (s : State) (k : Nat)

/-- A field of `FAB_PSTAT` other than those put. -/
theorem word_setLanes_ne (lanes : Nat) (w8 : Bool) {o : Nat} (ho : o ≠ F.FAB_PSTAT_STATE.off k) :
    (s.setLanes k lanes w8).word o = s.word o := by
  rw [setLanes, word_putF_ne _ F.FAB_PSTAT_W8 _ _ ho, word_putF_ne _ F.FAB_PSTAT_LANES _ _ ho]

/-! ## Failed -/

/-- A port that fails shows its state and its cause. -/
structure PortFailed (s : State) (k cause : Nat) (t : State) : Prop where
  state : t.getF F.FAB_PSTAT_STATE k = 7
  cause : t.getF F.FAB_PSTAT_CAUSE k = cause
  port : t.port k = s.port k

theorem failPort_failed {k : Nat} (hk : k < 6) (cause : Nat) (hc : cause < 8) : PortFailed s k cause (s.failPort k cause) := by
  unfold failPort
  extract_lets s1 d n c t at_
  have hlogs : LogsOnly (· = F.TST_ELOG_INFO_LOST.base) ((s.putF F.FAB_PSTAT_STATE k 7).putF F.FAB_PSTAT_CAUSE k cause) s1 :=
    elog_logsOnly _ _ _ _ _
  have hquiet : F.FAB_PSTAT_STATE.off k ≠ F.TST_ELOG_INFO_LOST.base := by
    rw [fabStat_off]; simp only [F.TST_ELOG_INFO_LOST]; omega
  have hstate : s1.getF F.FAB_PSTAT_STATE k = 7 := by
    rw [hlogs.getF _ _ hquiet, getF_putF_bits _ _ _ _ _ _ (.inl (by decide)), getF_putF _ _ _ _ (by decide) (by decide)]
    rfl
  have hcause : s1.getF F.FAB_PSTAT_CAUSE k = cause := by
    rw [hlogs.getF F.FAB_PSTAT_CAUSE _ hquiet, getF_putF _ _ _ _ (by decide) (by decide)]
    exact Nat.mod_eq_of_lt hc
  have hport : s1.port k = s.port k := (hlogs.port k).trans rfl
  clear_value s1
  split
  · exact ⟨(getF_failModule_port hk rfl hstate 5 5).trans hstate, (getF_failModule_port (f := F.FAB_PSTAT_CAUSE) hk rfl hstate 5 5).trans hcause,
      (port_failModule hstate 5 5).trans hport⟩
  · exact ⟨hstate, hcause, hport⟩

/-! ## Equalise -/

/-- The lanes of two groups. -/
theorem groupLanes_pair (a b : Nat) : groupLanes [a, b] = 15 * 16 ^ a + 15 * 16 ^ b := by
  simp [groupLanes]

/-- Of the good groups the first two are different groups of the four, so that their lanes fit the field. -/
theorem goodGroups_lanes_lt {lanes a b : Nat} {rest : List Nat} (h : goodGroups lanes = a :: b :: rest) :
    15 * 16 ^ a + 15 * 16 ^ b < 2 ^ 16 := by
  have hsub : (a :: b :: rest).Sublist [0, 1, 2, 3] := by
    rw [← h]; exact List.filter_sublist
  have hsorted : (a :: b :: rest).Pairwise (· < ·) := (by decide : [0, 1, 2, 3].Pairwise (· < ·)).sublist hsub
  have hab : a < b := (List.pairwise_cons.mp hsorted).1 b List.mem_cons_self
  have hb : b ∈ [0, 1, 2, 3] := hsub.subset (by simp)
  have hb4 : b < 4 := by fin_cases hb <;> decide
  interval_cases b <;> interval_cases a <;> decide

/-- The place in the torus stands while `FAB_CFG` does. -/
theorem place_congr {s t : State} (h : t.word F.FAB_CFG_X.base = s.word F.FAB_CFG_X.base) :
    t.pos = s.pos ∧ (∀ d, t.ringSize d = s.ringSize d) ∧ ∀ d, t.coord d = s.coord d := by
  have hfield : ∀ f : Fld, f.off 0 = F.FAB_CFG_X.base → t.getF f 0 = s.getF f 0 := by
    intro f hf
    rw [State.getF, hf, h, State.getF, hf]
  have hring : ∀ d, t.ringSize d = s.ringSize d := by
    intro d
    unfold ringSize
    split <;> rw [hfield _ rfl]
  have hcoord : ∀ d, t.coord d = s.coord d := by
    intro d
    unfold coord
    split <;> exact hfield _ rfl
  exact ⟨by simp only [pos, posOf, hring, hcoord], hring, hcoord⟩

theorem cfg_ne_stat : F.FAB_CFG_X.base ≠ F.FAB_PSTAT_STATE.off k := by
  rw [fabStat_off]; simp only [F.FAB_CFG_X]; omega

/-- A port in Align on some lanes has sent the module's position and ring sizes. -/
structure Aligning (s : State) (k lanes : Nat) (w8 : Bool) (t : State) : Prop where
  frame : t = { s with regs := t.regs, out := t.out }
  state : t.getF F.FAB_PSTAT_STATE k = 3
  lanes : t.getF F.FAB_PSTAT_LANES k = lanes
  w8 : t.flag F.FAB_PSTAT_W8 k = w8
  out : t.out = .align k s.pos (s.ringSize 0, s.ringSize 1, s.ringSize 2) :: s.out
  word : ∀ o, o ≠ F.FAB_PSTAT_STATE.off k → t.word o = s.word o

theorem emit_frame {s t : State} (h : RegsMay s t) (o : Out) : t.emit o = { s with regs := (t.emit o).regs, out := (t.emit o).out } := by
  rw [h]
  rfl

theorem startAlign_aligning (lanes : Nat) (w8 : Bool) (hl : lanes < 2 ^ 16) :
    Aligning s k lanes w8 ((s.setLanes k lanes w8).startAlign k) where
  frame := by
    have hregs : RegsMay s ((s.setLanes k lanes w8).putF F.FAB_PSTAT_STATE k 3) :=
      .trans (.trans (.putF _ _ _ _) (.putF _ _ _ _)) (.putF _ _ _ _)
    rw [startAlign]
    exact emit_frame hregs _
  state := by rw [startAlign, getF_emit, getF_putF _ _ _ _ (by decide) (by decide)]; rfl
  lanes := by
    rw [startAlign, getF_emit, getF_putF_bits _ _ _ _ _ _ (.inr (by decide)), setLanes, getF_putF_bits _ _ _ _ _ _ (.inr (by decide)),
      getF_putF _ _ _ _ (by decide) (by decide)]
    exact Nat.mod_eq_of_lt hl
  w8 := by
    rw [flag, startAlign, getF_emit, getF_putF_bits _ _ _ _ _ _ (.inr (by decide)), setLanes,
      getF_putF _ _ _ _ (by decide) (by decide)]
    cases w8 <;> rfl
  out := by
    obtain ⟨hpos, hring, -⟩ := place_congr (s.word_setLanes_ne k lanes w8 (cfg_ne_stat k))
    rw [startAlign, hpos, hring, hring, hring]
    rfl
  word := fun o ho => by rw [startAlign, word_emit, word_putF_ne _ _ _ _ ho, s.word_setLanes_ne k lanes w8 ho]

variable {s k}

theorem exec_equaliseDone_all {lanes : Nat} (hst : s.getF F.FAB_PSTAT_STATE k = 2) (h : goodGroups lanes = [0, 1, 2, 3]) :
    exec (.equaliseDone k lanes) s = .next ((s.setLanes k 0xFFFF false).startAlign k) := by
  change execEqualiseDone k lanes s = _
  unfold execEqualiseDone
  rw [if_neg (not_not_intro hst), h]
  rfl

theorem exec_equaliseDone_half {lanes a b : Nat} {rest : List Nat} (hst : s.getF F.FAB_PSTAT_STATE k = 2)
    (h : goodGroups lanes = a :: b :: rest) (hrest : rest.length ≤ 1) :
    exec (.equaliseDone k lanes) s = .next ((s.setLanes k (15 * 16 ^ a + 15 * 16 ^ b) true).startAlign k) := by
  change execEqualiseDone k lanes s = _
  unfold execEqualiseDone
  rw [if_neg (not_not_intro hst), h]
  split
  · next hall => cases hall; exact absurd hrest (by decide)
  · next hpair =>
    cases hpair
    rw [groupLanes_pair]
  · next hno => exact absurd rfl (hno a b rest)

/-! ## Align -/

/-- A port in Keying: the lower end has drawn a key and sent it. -/
theorem exec_alignDone_good {far rtt : Nat} (hst : s.getF F.FAB_PSTAT_STATE k = 3) (hring : s.inRing k far = true)
    (habsent : ∀ q ∈ s.between k far, (s.port k).absent.contains q = true) :
    exec (.alignDone k far (s.ringSize 0, s.ringSize 1, s.ringSize 2) rtt) s = .next
      ((((s.putF F.FAB_PSTAT_FAR_POS k far).putF F.FAB_PSTAT_RTT k (min rtt 65535)).modPort k fun x =>
        { x with absent := s.between k far, delay := rtt / 2 }).startKeying k) := by
  have hfresh : (s.between k far).filter (fun q => !(s.port k).absent.contains q) = [] :=
    List.filter_eq_nil_iff.mpr fun q hq => by rw [habsent q hq]; decide
  refine congrArg Host.Outcome.next ((if_neg (not_not_intro hst)).trans ((if_neg ?_).trans (if_pos hfresh)))
  rw [hring]
  simp

end State
end Sys2Proof.Machine
end

section
/-! Ports align, exchange keys and train again (O39). -/

namespace Sys2Proof.Machine
namespace State

/-! ## Align ends -/

/-- A port whose alignment has been noted: the far end's place, the round trip and the positions passed by. -/
def aligned (s : State) (k far rtt : Nat) : State :=
  (((s.putF F.FAB_PSTAT_FAR_POS k far).putF F.FAB_PSTAT_RTT k (min rtt 65535)).modPort k fun x =>
    { x with absent := s.between k far, delay := rtt / 2 }).putF F.FAB_PSTAT_STATE k 4

theorem modPort_frame {s t : State} (h : RegsMay s t) (k : Nat) (f : Port → Port) :
    t.modPort k f = { s with regs := (t.modPort k f).regs, ports := (t.modPort k f).ports } := by
  rw [modPort_eq]
  generalize f (t.port k) = x
  rw [h]
  rfl

/-- From `s` to `t` only registers and ports differ. -/
def RegsPorts (s t : State) : Prop := t = { s with regs := t.regs, ports := t.ports }

theorem RegsPorts.refl (s : State) : RegsPorts s s := rfl

theorem RegsPorts.putF {s t : State} (h : RegsPorts s t) (f : Fld) (i v : Nat) : RegsPorts s (t.putF f i v) := by
  have hput : RegsMay t (t.putF f i v) := .putF _ _ _ _
  unfold RegsPorts RegsMay at *
  rw [hput, h]

theorem RegsPorts.modPort {s t : State} (h : RegsPorts s t) (k : Nat) (f : Port → Port) : RegsPorts s (t.modPort k f) := by
  have hmod := modPort_frame (.refl t) k f
  unfold RegsPorts at *
  rw [hmod, h]

theorem aligned_frame (s : State) (k far rtt : Nat) : RegsPorts s (s.aligned k far rtt) :=
  RegsPorts.putF (RegsPorts.modPort (RegsPorts.putF (RegsPorts.putF (.refl s) _ _ _) _ _ _) _ _) _ _ _

variable (s : State) (k far rtt : Nat)

theorem aligned_state : (s.aligned k far rtt).getF F.FAB_PSTAT_STATE k = 4 := by
  rw [aligned, getF_putF _ _ _ _ (by decide) (by decide)]; rfl

theorem aligned_far : (s.aligned k far rtt).getF F.FAB_PSTAT_FAR_POS k = far % 2 ^ 17 := by
  rw [aligned, getF_putF_bits _ _ _ _ _ _ (.inr (by decide)), modPort_eq, getF_setPort, getF_putF_bits _ _ _ _ _ _ (.inl (by decide)),
    getF_putF _ _ _ _ (by decide) (by decide)]
  rfl

theorem aligned_rtt : (s.aligned k far rtt).getF F.FAB_PSTAT_RTT k = min rtt 65535 := by
  rw [aligned, getF_putF_bits _ _ _ _ _ _ (.inr (by decide)), modPort_eq, getF_setPort, getF_putF _ _ _ _ (by decide) (by decide)]
  exact Nat.mod_eq_of_lt (by simp only [F.FAB_PSTAT_RTT]; omega)

theorem aligned_absent : ((s.aligned k far rtt).port k).absent = s.between k far := by
  rw [aligned, port_putF, modPort_eq, port_setPort]

theorem word_aligned_ne {o : Nat} (ho : o ≠ F.FAB_PSTAT_STATE.off k) : (s.aligned k far rtt).word o = s.word o := by
  rw [aligned, word_putF_ne _ _ _ _ ho, modPort_eq, word_setPort, word_putF_ne _ F.FAB_PSTAT_RTT _ _ ho,
    word_putF_ne _ F.FAB_PSTAT_FAR_POS _ _ ho]

theorem lowerEnd_aligned : (s.aligned k far rtt).lowerEnd k = decide (s.pos < far % 2 ^ 17) := by
  rw [lowerEnd, (place_congr (s.word_aligned_ne k far rtt (cfg_ne_stat k))).1, aligned_far]

/-- The key pair drawn and its public key sent. -/
def keySent (t : State) (k : Nat) : State :=
  ({ t with ident := { t.ident with drbg := t.ident.drbg + 1 } }.modPort k fun x => { x with kexDraw := some t.ident.drbg }).emit
    (.linkKem k (Config.kemPublic t.ident.drbg))

variable {s k far rtt}

theorem exec_alignDone_keying (hst : s.getF F.FAB_PSTAT_STATE k = 3) (hring : s.inRing k far = true)
    (habsent : ∀ q ∈ s.between k far, (s.port k).absent.contains q = true) :
    exec (.alignDone k far (s.ringSize 0, s.ringSize 1, s.ringSize 2) rtt) s =
      .next (if s.pos < far % 2 ^ 17 then (s.aligned k far rtt).keySent k else s.aligned k far rtt) := by
  have hlower := s.lowerEnd_aligned k far rtt
  refine (exec_alignDone_good hst hring habsent).trans (congrArg Host.Outcome.next ?_)
  have hstart : ((((s.putF F.FAB_PSTAT_FAR_POS k far).putF F.FAB_PSTAT_RTT k (min rtt 65535)).modPort k fun x =>
      { x with absent := s.between k far, delay := rtt / 2 }).startKeying k) =
      if (s.aligned k far rtt).lowerEnd k then (s.aligned k far rtt).keySent k else s.aligned k far rtt := rfl
  rw [hstart, hlower]
  simp only [decide_eq_true_eq]

theorem exec_alignDone_bad {rings : Nat × Nat × Nat} (hst : s.getF F.FAB_PSTAT_STATE k = 3)
    (h : rings ≠ (s.ringSize 0, s.ringSize 1, s.ringSize 2) ∨ s.inRing k far = false) :
    exec (.alignDone k far rings rtt) s = .next (s.failPort k 2) :=
  congrArg Host.Outcome.next ((if_neg (not_not_intro hst)).trans (if_pos (h.imp id fun h => by rw [h]; decide)))

/-! ## Keying ends -/

/-- What the module sends of its part of the exchange. -/
def kexSent (s : State) (k : Nat) (peer : PeerChain) : State :=
  (if s.lowerEnd k then s
    else { s with ident := { s.ident with drbg := s.ident.drbg + 1 } }.emit (.linkKem k (s.exchange k peer.kem).2.1)).emit
      (.linkChain k s.chain (s.aliasSign (shake256 ((s.exchange k peer.kem).1 ++ (s.exchange k peer.kem).2.1))))

/-- What a port is once it has its keys. -/
def keyedPort (x : Port) (keys : List Byte) : Port :=
  { Port.reset with keys := some keys, credits := startCredits, absent := x.absent, delay := x.delay, active := x.active,
                    txq := x.txq, reported := x.reported }

theorem kexSent_chainOk (s : State) (k : Nat) (peer : PeerChain) (c : PeerChain) : (s.kexSent k peer).chainOk c = s.chainOk c := by
  unfold kexSent
  split <;> rfl

theorem kexSent_frame (s : State) (k : Nat) (peer : PeerChain) : s.kexSent k peer =
    { s with ident := (s.kexSent k peer).ident, out := (s.kexSent k peer).out } := by
  unfold kexSent
  split <;> rfl

theorem kexSent_ident (s : State) (k : Nat) (peer : PeerChain) : (s.kexSent k peer).ident =
    if s.lowerEnd k then s.ident else { s.ident with drbg := s.ident.drbg + 1 } := by
  unfold kexSent
  split <;> rfl

theorem kexSent_out (s : State) (k : Nat) (peer : PeerChain) : (s.kexSent k peer).out =
    .linkChain k s.chain (s.aliasSign (shake256 ((s.exchange k peer.kem).1 ++ (s.exchange k peer.kem).2.1))) ::
      (if s.lowerEnd k then s.out else .linkKem k (s.exchange k peer.kem).2.1 :: s.out) := by
  unfold kexSent
  split <;> rfl

variable {peer : PeerChain}

/-- The chain and the signature are those of the state before: a draw changes neither. -/
theorem exec_keyingDone_eq (hst : s.getF F.FAB_PSTAT_STATE k = 4) : exec (.keyingDone k peer) s = .next (
    if !s.chainOk peer then (s.kexSent k peer).failPort k 3
    else
      let t := ((s.kexSent k peer).modPort k fun x => keyedPort x (shakeBytes 64 ((s.exchange k peer.kem).2.2 ++
        shake256 ((s.exchange k peer.kem).1 ++ (s.exchange k peer.kem).2.1)))).putF F.FAB_PSTAT_STATE k 5
      (if (t.port k).reported then t.reportPort k true else t).drain k) := by
  have hsent : (if s.lowerEnd k then s
      else { s with ident := { s.ident with drbg := s.ident.drbg + 1 } }.emit (.linkKem k (s.exchange k peer.kem).2.1)).emit
        (.linkChain k (if s.lowerEnd k then s
      else { s with ident := { s.ident with drbg := s.ident.drbg + 1 } }.emit (.linkKem k (s.exchange k peer.kem).2.1)).chain
          ((if s.lowerEnd k then s
      else { s with ident := { s.ident with drbg := s.ident.drbg + 1 } }.emit (.linkKem k (s.exchange k peer.kem).2.1)).aliasSign
        (shake256 ((s.exchange k peer.kem).1 ++ (s.exchange k peer.kem).2.1)))) = s.kexSent k peer := by
    unfold kexSent
    split <;> rfl
  refine congrArg Host.Outcome.next ((if_neg (not_not_intro hst)).trans ?_)
  dsimp only
  rw [hsent, kexSent_chainOk]
  rfl

/-- The port is Up once the peer's chain is good. -/
theorem exec_keyingDone_good (hst : s.getF F.FAB_PSTAT_STATE k = 4) (hok : s.chainOk peer = true)
    (hreported : (s.port k).reported = false) (hquiet : Quiet s k) : exec (.keyingDone k peer) s = .next (
      ((s.kexSent k peer).modPort k fun x => keyedPort x (shakeBytes 64 ((s.exchange k peer.kem).2.2 ++
        shake256 ((s.exchange k peer.kem).1 ++ (s.exchange k peer.kem).2.1)))).putF F.FAB_PSTAT_STATE k 5) := by
  rw [exec_keyingDone_eq hst, hok]
  refine congrArg Host.Outcome.next ((if_neg (by decide)).trans ?_)
  generalize shakeBytes 64 ((s.exchange k peer.kem).2.2 ++ shake256 ((s.exchange k peer.kem).1 ++ (s.exchange k peer.kem).2.1)) = keys
  have hframe := s.kexSent_frame k peer
  generalize s.kexSent k peer = t at hframe
  obtain ⟨htx, -, -, hsent, hftg⟩ := hquiet
  have hsame : t.port k = s.port k := by rw [hframe]; rfl
  have hport : ((t.modPort k fun x => keyedPort x keys).putF F.FAB_PSTAT_STATE k 5).port k = keyedPort (s.port k) keys := by
    rw [port_putF, modPort_eq, port_setPort, hsame]
  have hrep : (keyedPort (s.port k) keys).reported = false := hreported
  dsimp only
  rw [hport, hrep, if_neg Bool.false_ne_true]
  refine drain_of_quiet k _ ?_ ?_ ?_ ?_ ?_
  · rw [hport]; exact htx
  · rw [hport]; rfl
  · rw [hport]; rfl
  · intro q hq
    rw [part_putF, modPort_eq, part_setPort, hframe]
    exact hsent q hq
  · rw [← hftg]
    refine flag_congr ?_
    rw [word_putF_ne _ _ _ _ (by rw [fabStat_off]; simp only [Fld.off, F.TST_FTG_GO]; omega), modPort_eq, word_setPort, hframe]
    rfl

/-! ## Training limits -/

theorem exec_trainingLimitExpiry_training (h1 : 1 ≤ s.getF F.FAB_PSTAT_STATE k) (h4 : s.getF F.FAB_PSTAT_STATE k ≤ 4) :
    exec (.trainingLimitExpiry k) s = .next (s.trainAgain k) := congrArg Host.Outcome.next (if_pos ⟨h1, h4⟩)

theorem trainAgain_eq (s : State) (k : Nat) : s.trainAgain k =
    if 2 ≤ (s.port k).attempts then (s.modPort k fun x => { x with attempts := (s.port k).attempts + 1 }).failPort k 1
    else (s.modPort k fun x => { x with attempts := (s.port k).attempts + 1 }).toOptical k := by
  unfold trainAgain
  dsimp only
  by_cases h : 2 ≤ (s.port k).attempts
  · rw [if_pos (by omega), if_pos h]
  · rw [if_neg (by omega), if_neg h]

end State
end Sys2Proof.Machine
end

section
/-! A port's training and its fall, as O39 states them. -/

namespace Sys2Proof.Machine
namespace State

variable {s : State} {k cause : Nat}

/-- A port that went down while no plan ran. -/
theorem WentDown.portDown (hk : k < 6) (hidle : s.runningParts = []) (cause : Nat) : PortDown s (s.portDown k cause) k := by
  have h := portDown_wentDown k s cause hk hidle
  refine ⟨h.state, ?_, ?_, ?_, h.other, rd8_congr (by rw [h.frame]), by rw [h.frame], by rw [h.frame]⟩
  · rw [h.port]; rfl
  · rw [h.port]; rfl
  · rw [h.port]; rfl

theorem regsOnly_state (s : State) (k v : Nat) :
    RegsOnly (fun o => o = F.FAB_PSTAT_STATE.off k) s (s.putF F.FAB_PSTAT_STATE k v) :=
  ⟨rfl, fun _ ho => word_putF_ne _ _ _ _ ho⟩

theorem exec_laneLoss_remap {lanes a b : Nat} {rest : List Nat} (hst : s.getF F.FAB_PSTAT_STATE k = 5)
    (h : goodGroups (s.getF F.FAB_PSTAT_LANES k &&& (0xFFFF - lanes % 0x10000)) = a :: b :: rest) :
    exec (.laneLoss k lanes) s = .next ((s.setLanes k (groupLanes [a, b]) true).putF F.FAB_PSTAT_STATE k 6) := by
  change execLaneLoss k lanes s = _
  unfold execLaneLoss
  rw [if_neg (not_not_intro hst), h]

theorem exec_laneLoss_down {lanes : Nat} (hst : s.getF F.FAB_PSTAT_STATE k = 5)
    (h : (goodGroups (s.getF F.FAB_PSTAT_LANES k &&& (0xFFFF - lanes % 0x10000))).length < 2) :
    exec (.laneLoss k lanes) s = .next (s.portDown k 6) := by
  change execLaneLoss k lanes s = _
  unfold execLaneLoss
  rw [if_neg (not_not_intro hst)]
  split
  · next heq => rw [heq, List.length_cons, List.length_cons] at h; omega
  · rfl

end State
end Sys2Proof.Machine

namespace Sys2Proof

open Machine
open Machine (State)

theorem portsTrain : Claims.PortsTrain := by
  unfold Claims.PortsTrain
  intro s k hk
  dsimp only
  refine ⟨?optical, ?equalise, ?align, ?keying, ?limit, ?remap⟩
  case optical =>
    intro hst
    refine ⟨_, congrArg Host.Outcome.next (if_pos hst), ?_, s.regsOnly_state k 2⟩
    rw [State.getF_putF _ _ _ _ (by decide) (by decide)]; rfl
  case equalise =>
    intro lanes hst
    constructor
    · intro hall
      have h := s.startAlign_aligning k 0xFFFF false (by decide)
      exact ⟨_, State.exec_equaliseDone_all hst hall, h.state, h.lanes, h.w8, h.out, h.frame, h.word⟩
    · intro a b rest hgroups hrest
      have h := s.startAlign_aligning k _ true (State.goodGroups_lanes_lt hgroups)
      exact ⟨_, State.exec_equaliseDone_half hst hgroups hrest, h.state, h.lanes, h.w8, h.out, h.frame, h.word⟩
  case align =>
    intro far rings rtt hst
    constructor
    · rintro rfl hring habsent
      have hstate := s.aligned_state k far rtt
      have hfar := s.aligned_far k far rtt
      have hrtt := s.aligned_rtt k far rtt
      have habs := s.aligned_absent k far rtt
      have hframe := s.aligned_frame k far rtt
      have hident : (s.aligned k far rtt).ident = s.ident := by rw [hframe]
      have hout : (s.aligned k far rtt).out = s.out := by rw [hframe]
      have hexec := State.exec_alignDone_keying (rtt := rtt) hst hring habsent
      generalize s.aligned k far rtt = t at *
      by_cases hlow : s.pos < far % 2 ^ 17
      · rw [if_pos hlow] at hexec
        refine ⟨_, hexec, hstate, hfar, hrtt, ?_, fun _ => ⟨?_, ?_, ?_⟩, fun h => absurd hlow (by omega), ?_⟩
        · rw [State.keySent, State.port_emit, State.modPort_eq, State.port_setPort]; exact habs
        · rw [State.keySent, State.port_emit, State.modPort_eq, State.port_setPort, hident]
        · rw [← hident]; rfl
        · rw [← hout, ← hident]; rfl
        · rw [State.keySent, hframe]; rfl
      · rw [if_neg hlow] at hexec
        exact ⟨_, hexec, hstate, hfar, hrtt, habs, fun h => absurd h hlow, fun _ => ⟨hident, hout⟩, by rw [hframe]⟩
    · intro hbad
      have h := s.failPort_failed hk 2 (by decide)
      exact ⟨_, State.exec_alignDone_bad hst hbad, h.state, h.cause⟩
  case keying =>
    intro peer hst
    constructor
    · intro hok hreported hquiet
      refine ⟨_, State.exec_keyingDone_good hst hok hreported hquiet, ?_⟩
      have hframe := s.kexSent_frame k peer
      have hident := s.kexSent_ident k peer
      have hout := s.kexSent_out k peer
      generalize s.kexSent k peer = t at *
      rw [State.port_putF, State.modPort_eq, State.port_setPort]
      refine ⟨?_, rfl, rfl, rfl, rfl, rfl, hout, hident, ?_⟩
      · rw [State.getF_putF _ _ _ _ (by decide) (by decide)]; rfl
      · rw [hframe]; rfl
    · intro hbad
      have h := (s.kexSent k peer).failPort_failed hk 3 (by decide)
      exact ⟨_, (State.exec_keyingDone_eq hst).trans (congrArg Host.Outcome.next (if_pos (by rw [hbad]; rfl))), h.state, h.cause⟩
  case limit =>
    intro h1 h4
    refine ⟨_, State.exec_trainingLimitExpiry_training h1 h4, ?_⟩
    rw [State.trainAgain_eq]
    split
    · next hthird =>
      have h := (s.modPort k fun x => { x with attempts := (s.port k).attempts + 1 }).failPort_failed hk 1 (by decide)
      refine ⟨?_, fun hlt => absurd hthird (by omega), fun _ => ⟨h.state, h.cause⟩⟩
      rw [h.port, State.modPort_eq, State.port_setPort]
    · next hagain =>
      refine ⟨?_, fun _ => ?_, fun h => absurd h hagain⟩
      · rw [State.toOptical, State.port_putF, State.port_putF, State.modPort_eq, State.port_setPort]
      · exact State.getF_toOptical_state k _
  case remap =>
    intro hst hidle
    have h := State.portDown_wentDown k s 1 hk hidle
    refine ⟨(s.portDown k 1).modPort k fun x => { x with attempts := 1 }, congrArg Host.Outcome.next ((if_neg (by omega)).trans (if_pos hst)), ?_, h.state, h.cause (by decide), ?_⟩
    · rw [State.modPort_eq, State.port_setPort]
    · rw [State.modPort_eq, State.port_setPort, h.port]; rfl

theorem portsGoDown : Claims.PortsGoDown := by
  unfold Claims.PortsGoDown
  intro s k hk hidle
  dsimp only
  refine ⟨?retrain, ?lanes, ?remapped, ?lost⟩
  case retrain =>
    intro hopen
    by_cases h0 : s.getF F.FAB_PSTAT_STATE k = 0
    · have hexec : exec (.portRetrain k) s = .next (s.putF F.FAB_PCTRL_RETRAIN k 1) :=
        congrArg Host.Outcome.next ((if_neg (by omega)).trans ((s.gated_of_open hopen _).trans (if_pos h0)))
      have hne : F.FAB_PSTAT_STATE.off k ≠ F.FAB_PCTRL_RETRAIN.off k := (State.fabCtl_ne_stat k k).symm
      refine ⟨_, hexec, fun _ => ⟨State.flag_putF_one _ _ _ (by decide) (by decide), ?_⟩, fun h => by omega, fun h => by omega⟩
      rw [State.getF_putF_off _ _ _ _ _ _ hne, h0]
    · by_cases hup : s.getF F.FAB_PSTAT_STATE k = 5 ∨ s.getF F.FAB_PSTAT_STATE k = 6
      · have hexec : exec (.portRetrain k) s = .next (s.portDown k 0) :=
          congrArg Host.Outcome.next ((if_neg (by omega)).trans ((s.gated_of_open hopen _).trans ((if_neg h0).trans (if_pos hup))))
        exact ⟨_, hexec, fun h => absurd h h0, fun _ => State.WentDown.portDown hk hidle 0, fun _ h => by omega⟩
      · have hexec : exec (.portRetrain k) s = .next ((s.modPort k fun x => { x with attempts := 0 }).toOptical k) :=
          congrArg Host.Outcome.next ((if_neg (by omega)).trans ((s.gated_of_open hopen _).trans ((if_neg h0).trans (if_neg hup))))
        refine ⟨_, hexec, fun h => absurd h h0, fun h => absurd h hup, fun _ _ => ⟨State.getF_toOptical_state k _,
          State.flag_toOptical_retrain k _, ?_⟩⟩
        rw [State.toOptical, State.port_putF, State.port_putF, State.modPort_eq, State.port_setPort]
  case lanes =>
    intro lanes hst
    match hgood : State.goodGroups (s.getF F.FAB_PSTAT_LANES k &&& (0xFFFF - lanes % 0x10000)) with
    | a :: b :: rest =>
      refine ⟨_, State.exec_laneLoss_remap hst hgood, ?_, fun h => by simp only [List.length_cons] at h; omega⟩
      intro a' b' rest' heq
      cases heq
      refine ⟨?_, ?_, ?_, rfl⟩
      · rw [State.getF_putF _ _ _ _ (by decide) (by decide)]; rfl
      · rw [State.getF_putF_bits _ _ _ _ _ _ (.inr (by decide)), State.setLanes, State.getF_putF_bits _ _ _ _ _ _ (.inr (by decide)),
          State.getF_putF _ _ _ _ (by decide) (by decide), State.groupLanes_pair]
        exact Nat.mod_eq_of_lt (State.goodGroups_lanes_lt hgood)
      · rw [State.flag_putF_bits _ _ _ _ _ _ (.inr (by decide)), State.setLanes]
        exact State.flag_putF_one _ _ _ (by decide) (by decide)
    | [] | [_] =>
      have h := State.portDown_wentDown k s 6 hk hidle
      exact ⟨_, State.exec_laneLoss_down hst (by rw [hgood]; simp), fun _ _ _ heq => by simp at heq,
        fun _ => ⟨State.WentDown.portDown hk hidle 6, h.cause (by decide)⟩⟩
  case remapped =>
    intro hst hquiet
    obtain ⟨htx, hhold, hseal, hsent, hftg⟩ := hquiet
    have hflag : (s.putF F.FAB_PSTAT_STATE k 5).flag F.TST_FTG_GO 0 = false := by
      rw [← hftg]
      exact State.flag_congr (State.word_putF_ne _ _ _ _ (by rw [State.fabStat_off]; simp only [Fld.off, F.TST_FTG_GO]; omega))
    have hdrain : (s.putF F.FAB_PSTAT_STATE k 5).drain k = s.putF F.FAB_PSTAT_STATE k 5 :=
      State.drain_of_quiet k _ htx hhold hseal hsent hflag
    refine ⟨_, congrArg Host.Outcome.next ((if_pos hst).trans hdrain), ?_, s.regsOnly_state k 5⟩
    rw [State.getF_putF _ _ _ _ (by decide) (by decide)]; rfl
  case lost =>
    intro hst
    have h := State.portDown_wentDown k s 7 hk hidle
    exact ⟨_, congrArg Host.Outcome.next (if_pos hst), State.WentDown.portDown hk hidle 7, h.cause (by decide)⟩

end Sys2Proof
end

section
/-! Configuration of the fabric and its bypass switches (O39). -/

namespace Sys2Proof.Machine
namespace State

/-! ## A port settles after a change of its switch -/

/-- From `s` to `t` port `k` has settled: of its control register `RETRAIN` may differ, and its state shows what its switch and
its enable let it do. -/
structure SettledPort (s : State) (k : Nat) (t : State) : Prop where
  frame : t = { s with regs := t.regs, ports := t.ports, test := t.test, out := t.out }
  calm : s.getF F.FAB_PSTAT_STATE k ≠ 5 → s.getF F.FAB_PSTAT_STATE k ≠ 6 → t = { s with regs := t.regs, ports := t.ports }
  state : t.getF F.FAB_PSTAT_STATE k = if s.mayTrain k then (if s.getF F.FAB_PSTAT_STATE k = 0 then 1 else s.getF F.FAB_PSTAT_STATE k)
    else if s.getF F.FAB_PSTAT_STATE k = 7 then 7 else 0
  word : ∀ o, o ≠ F.FAB_PCTRL_EN.off k → o ≠ F.FAB_PSTAT_STATE.off k → ¬ EventOffset o → t.word o = s.word o
  ctl : ∀ f : Fld, f.off k = F.FAB_PCTRL_EN.off k → (f.hi < 1 ∨ 1 < f.lo) → t.getF f k = s.getF f k

variable {s : State} {k : Nat}

theorem getF_toOptical_ctl (s : State) {f : Fld} (hf : f.off k = F.FAB_PCTRL_EN.off k) (hbits : f.hi < 1 ∨ 1 < f.lo) :
    (s.toOptical k).getF f k = s.getF f k := by
  rw [toOptical, getF_putF_off _ _ _ _ _ _ (by rw [hf]; exact fabCtl_ne_stat k k), getF_putF_bits _ _ _ _ _ _ hbits]

theorem getF_portDown_ctl (hk : k < 6) (hidle : s.runningParts = []) (cause : Nat) {f : Fld} (hf : f.off k = F.FAB_PCTRL_EN.off k)
    (hbits : f.hi < 1 ∨ 1 < f.lo) : (s.portDown k cause).getF f k = s.getF f k := by
  obtain ⟨t, heq, hlogs⟩ := portDown_of_idle k s cause hidle
  have hat : f.off k = 0x601000 + 0x100 * k := hf.trans (fabCtl_off k)
  rw [heq, hlogs.getF f k (by rw [hat]; exact not_eventOffset (by omega) (by omega)), getF_toOptical_ctl _ hf hbits, State.getF,
    word_showCause_ne k _ cause (by rw [hf]; exact fabCtl_ne_stat k k), word_setPort, State.getF]

/-- No plan runs, or no port has a link to lose. -/
def Calm (s : State) : Prop := s.runningParts = [] ∨ ∀ k, k < 6 → s.getF F.FAB_PSTAT_STATE k ≠ 5 ∧ s.getF F.FAB_PSTAT_STATE k ≠ 6

theorem settlePort_settled (hk : k < 6) (hcalm : Calm s) : SettledPort s k (s.settlePort k) := by
  unfold settlePort
  dsimp only
  by_cases hmay : s.mayTrain k = true
  · rw [if_pos hmay]
    by_cases h0 : s.getF F.FAB_PSTAT_STATE k = 0
    · rw [if_pos h0]
      have hframe : RegsPorts s ((s.modPort k fun x => { x with attempts := 0 }).toOptical k) :=
        .putF (.putF (.modPort (.refl s) _ _) _ _ _) _ _ _
      have hmay' : (s.modPort k fun x => { x with attempts := 0 }).mayTrain k = true := hmay
      refine ⟨by rw [hframe], fun _ _ => hframe, ?_, fun o hctl hstat _ => word_toOptical_ne k _ hctl hstat,
        fun f hf hbits => getF_toOptical_ctl _ hf hbits⟩
      rw [getF_toOptical_state, hmay', if_pos hmay, if_pos h0]
      rfl
    · rw [if_neg h0]
      refine ⟨rfl, fun _ _ => rfl, ?_, fun _ _ _ _ => rfl, fun _ _ _ => rfl⟩
      rw [if_pos hmay, if_neg h0]
  · rw [if_neg hmay]
    by_cases hup : s.getF F.FAB_PSTAT_STATE k = 5 ∨ s.getF F.FAB_PSTAT_STATE k = 6
    · have hidle : s.runningParts = [] := hcalm.resolve_right fun h => absurd hup (not_or.mpr (h k hk))
      rw [if_pos hup]
      have h := portDown_wentDown k s 7 hk hidle
      refine ⟨h.frame, fun h5 h6 => absurd hup (by omega), ?_, h.word, fun f hf hbits => getF_portDown_ctl hk hidle 7 hf hbits⟩
      rw [h.state, if_neg hmay, if_neg hmay, if_neg (by omega)]
    · rw [if_neg hup]
      by_cases h7 : s.getF F.FAB_PSTAT_STATE k = 7
      · rw [if_pos h7]
        refine ⟨rfl, fun _ _ => rfl, ?_, fun _ _ _ _ => rfl, fun _ _ _ => rfl⟩
        rw [if_neg hmay, if_pos h7, h7]
      · rw [if_neg h7]
        refine ⟨rfl, fun _ _ => rfl, ?_, fun o _ hstat _ => word_putF_ne _ _ _ _ hstat, fun f hf _ => ?_⟩
        · rw [if_neg hmay, if_neg h7, getF_putF _ _ _ _ (by decide) (by decide)]; rfl
        · exact getF_putF_off _ _ _ _ _ _ (by rw [hf]; exact fabCtl_ne_stat k k)

/-! ## A dimension's switch -/

/-- A dimension's switch may open. -/
def mayOpen (s : State) (d : Nat) : Bool :=
  2 ≤ s.ringSize d && natBits (s.getF F.FAB_BYP_OPEN 0) d d = 1 && s.flag F.FAB_PCTRL_EN (2 * d) &&
    s.flag F.FAB_PCTRL_EN (2 * d + 1) && !s.flag F.GEN_STATUS_FAILED 0

/-- A finite fact: one bit of three set or cleared, the others as before. -/
theorem closed_bits : ∀ c < 8, ∀ d < 3, ∀ e < 3,
    natBits ((c &&& (7 - 2 ^ d)) % 8) e e = (if e = d then 0 else natBits c e e) ∧
    natBits ((c ||| 2 ^ d) % 8) e e = (if e = d then 1 else natBits c e e) := by decide

/-- A dimension has settled: its switch is open exactly if it may be, and its two ports show it. -/
structure SettledDim (s : State) (d : Nat) (t : State) : Prop where
  frame : t = { s with regs := t.regs, ports := t.ports, test := t.test, out := t.out }
  calm : (∀ k, k / 2 = d → s.getF F.FAB_PSTAT_STATE k ≠ 5 ∧ s.getF F.FAB_PSTAT_STATE k ≠ 6) →
    t = { s with regs := t.regs, ports := t.ports }
  closed : ∀ e, e < 3 → natBits (t.getF F.FAB_BYP_CLOSED 0) e e =
    if e = d then (if s.mayOpen d then 0 else 1) else natBits (s.getF F.FAB_BYP_CLOSED 0) e e
  open_ : t.getF F.FAB_BYP_OPEN 0 = s.getF F.FAB_BYP_OPEN 0
  state : ∀ k, k / 2 = d → t.getF F.FAB_PSTAT_STATE k =
    if s.mayOpen d then (if s.getF F.FAB_PSTAT_STATE k = 0 then 1 else s.getF F.FAB_PSTAT_STATE k)
    else if s.getF F.FAB_PSTAT_STATE k = 7 then 7 else 0
  other : ∀ k, k / 2 ≠ d → t.getF F.FAB_PSTAT_STATE k = s.getF F.FAB_PSTAT_STATE k
  ctl : ∀ (f : Fld) (k : Nat), f.off k = F.FAB_PCTRL_EN.off k → (f.hi < 1 ∨ 1 < f.lo) → t.getF f k = s.getF f k
  word : ∀ o, o < 0x601000 → o ≠ F.FAB_BYP_CLOSED.base → ¬ EventOffset o → t.word o = s.word o

theorem settleBypass_regs (s : State) (d : Nat) : RegsMay s (s.settleBypass d) := .putF _ _ _ _

theorem word_settleBypass_ne (s : State) (d : Nat) {o : Nat} (ho : o ≠ F.FAB_BYP_CLOSED.base) :
    (s.settleBypass d).word o = s.word o := word_putF_ne _ _ _ _ ho

theorem fabCtl_ne_byp (k : Nat) : F.FAB_PCTRL_EN.off k ≠ F.FAB_BYP_CLOSED.base := by
  rw [fabCtl_off]; simp only [F.FAB_BYP_CLOSED]; omega

theorem fabStat_ne_byp (k : Nat) : F.FAB_PSTAT_STATE.off k ≠ F.FAB_BYP_CLOSED.base := by
  rw [fabStat_off]; simp only [F.FAB_BYP_CLOSED]; omega

theorem fabCtl_not_event (k : Nat) : ¬ EventOffset (F.FAB_PCTRL_EN.off k) := by
  rw [fabCtl_off]; rintro (h | h) <;> simp only [F.DMA_MEVT_CAUSE, F.TST_ELOG_INFO_LOST] at h <;> omega

theorem fabStat_not_event (k : Nat) : ¬ EventOffset (F.FAB_PSTAT_STATE.off k) := by
  rw [fabStat_off]; rintro (h | h) <;> simp only [F.DMA_MEVT_CAUSE, F.TST_ELOG_INFO_LOST] at h <;> omega

/-- The switch after it has settled. -/
theorem closed_settleBypass (s : State) {d : Nat} (hd : d < 3) {e : Nat} (he : e < 3) :
    natBits ((s.settleBypass d).getF F.FAB_BYP_CLOSED 0) e e =
      if e = d then (if s.mayOpen d then 0 else 1) else natBits (s.getF F.FAB_BYP_CLOSED 0) e e := by
  have hlt : s.getF F.FAB_BYP_CLOSED 0 < 8 := s.getF_lt _ _
  have hput : (s.settleBypass d).getF F.FAB_BYP_CLOSED 0 = (if s.mayOpen d then s.getF F.FAB_BYP_CLOSED 0 &&& (7 - 2 ^ d)
      else s.getF F.FAB_BYP_CLOSED 0 ||| 2 ^ d) % 8 := getF_putF _ _ _ _ (by decide) (by decide)
  obtain ⟨hclear, hset⟩ := closed_bits _ hlt d hd e he
  rw [hput]
  split
  · exact hclear
  · exact hset

/-- Behind a settled switch a port may train exactly if the switch may open. -/
theorem mayTrain_settleBypass (s : State) {k : Nat} (hk : k < 6) : (s.settleBypass (k / 2)).mayTrain k = s.mayOpen (k / 2) := by
  have hclosed := s.closed_settleBypass (d := k / 2) (by omega) (e := k / 2) (by omega)
  have hen : (s.settleBypass (k / 2)).flag F.FAB_PCTRL_EN k = s.flag F.FAB_PCTRL_EN k :=
    flag_congr (word_settleBypass_ne s _ (fabCtl_ne_byp k))
  rw [if_pos rfl] at hclosed
  rw [mayTrain, bypassIsOpen, hen, hclosed]
  by_cases hmay : s.mayOpen (k / 2) = true
  · have hboth := hmay
    simp only [mayOpen, Bool.and_eq_true] at hboth
    obtain ⟨⟨⟨-, hlow⟩, hhigh⟩, -⟩ := hboth
    have hthis : s.flag F.FAB_PCTRL_EN k = true := by
      obtain h | h : k = 2 * (k / 2) ∨ k = 2 * (k / 2) + 1 := by omega
      · rw [h]; exact hlow
      · rw [h]; exact hhigh
    rw [hmay, hthis]
    rfl
  · simp [hmay]

theorem SettledPort.word_ctl_ne {t : State} (h : SettledPort s k t) {j : Nat} (hj : j ≠ k) :
    t.word (F.FAB_PCTRL_EN.off j) = s.word (F.FAB_PCTRL_EN.off j) :=
  h.word _ (by rw [fabCtl_off, fabCtl_off]; omega) (fabCtl_ne_stat k j) (fabCtl_not_event j)

theorem SettledPort.state_ne {t : State} (h : SettledPort s k t) {j : Nat} (hj : j ≠ k) :
    t.getF F.FAB_PSTAT_STATE j = s.getF F.FAB_PSTAT_STATE j := by
  rw [State.getF, h.word _ (fabCtl_ne_stat j k).symm (by rw [fabStat_off, fabStat_off]; omega) (fabStat_not_event j), State.getF]

theorem SettledPort.word_byp {t : State} (h : SettledPort s k t) {o : Nat} (ho : o < 0x601000) (hlog : ¬ EventOffset o) :
    t.word o = s.word o := h.word _ (by rw [fabCtl_off]; omega) (by rw [fabStat_off]; omega) hlog

theorem byp_not_event : ¬ EventOffset F.FAB_BYP_CLOSED.base := not_eventOffset (by decide) (by decide)

/-- A port that has settled takes up no link. -/
theorem SettledPort.calmAfter {t : State} (h : SettledPort s k t) (hcalm : Calm s) : Calm t := by
  refine hcalm.imp (fun hidle => (runningParts_congr (by rw [h.frame])).trans hidle) fun hst j hj => ?_
  have hj' := hst j hj
  by_cases hjk : j = k
  · subst hjk
    rw [h.state]
    split_ifs <;> omega
  · rw [h.state_ne hjk]
    exact hj'

theorem settleDim_settled {d : Nat} (hd : d < 3) (hcalm : Calm s) : SettledDim s d (s.settleDim d) := by
  have hregs := s.settleBypass_regs d
  have hword := fun {o : Nat} (ho : o ≠ F.FAB_BYP_CLOSED.base) => s.word_settleBypass_ne d ho
  have hstat : ∀ k, (s.settleBypass d).getF F.FAB_PSTAT_STATE k = s.getF F.FAB_PSTAT_STATE k := fun k => by
    rw [State.getF, hword (fabStat_ne_byp k), State.getF]
  have hopen : (s.settleBypass d).getF F.FAB_BYP_OPEN 0 = s.getF F.FAB_BYP_OPEN 0 := getF_putF_bits _ _ _ _ _ _ (.inl (by decide))
  have hclosed := fun {e : Nat} (he : e < 3) => s.closed_settleBypass hd he
  have hmay : ∀ k, k / 2 = d → (s.settleBypass d).mayTrain k = s.mayOpen d := fun k hk => by
    rw [← hk]; exact s.mayTrain_settleBypass (by omega)
  have hrun : Calm (s.settleBypass d) := hcalm.imp (fun hidle => (runningParts_congr (by rw [hregs])).trans hidle)
    fun hst k hk => by rw [hstat]; exact hst k hk
  unfold settleDim
  generalize s.settleBypass d = b at *
  have h1 := settlePort_settled (s := b) (k := 2 * d) (by omega) hrun
  generalize b.settlePort (2 * d) = t at *
  have hrun' : Calm t := h1.calmAfter hrun
  have h2 := settlePort_settled (s := t) (k := 2 * d + 1) (by omega) hrun'
  generalize t.settlePort (2 * d + 1) = u at *
  have hbyp : u.word F.FAB_BYP_CLOSED.base = b.word F.FAB_BYP_CLOSED.base :=
    (h2.word_byp (by decide) byp_not_event).trans (h1.word_byp (by decide) byp_not_event)
  have hfield : ∀ f : Fld, f.off 0 = F.FAB_BYP_CLOSED.base → u.getF f 0 = b.getF f 0 := fun f hf => by
    rw [State.getF, hf, hbyp, State.getF, hf]
  have hmay' : t.mayTrain (2 * d + 1) = s.mayOpen d := by
    rw [mayTrain_congr (2 * d + 1) (h1.word_ctl_ne (by omega)) (h1.word_byp (by decide) byp_not_event), hmay _ (by omega)]
  refine ⟨?frame, ?calm, ?closed, ?open_, ?state, ?other, ?ctl, ?word⟩
  case frame => rw [h2.frame, h1.frame, hregs]
  case calm =>
    intro hst
    have hlow := hst (2 * d) (by omega)
    have hhigh := hst (2 * d + 1) (by omega)
    rw [← hstat] at hlow hhigh
    rw [← h1.state_ne (by omega)] at hhigh
    rw [h2.calm hhigh.1 hhigh.2, h1.calm hlow.1 hlow.2, hregs]
  case closed => exact fun e he => by rw [hfield _ rfl, hclosed he]
  case open_ => rw [hfield F.FAB_BYP_OPEN rfl, hopen]
  case state =>
    intro k hk
    obtain rfl | rfl : k = 2 * d ∨ k = 2 * d + 1 := by omega
    · rw [h2.state_ne (by omega), h1.state, hmay _ hk, hstat]
    · rw [h2.state, hmay', h1.state_ne (by omega), hstat]
  case other => exact fun k hk => by rw [h2.state_ne (by omega), h1.state_ne (by omega), hstat]
  case ctl =>
    intro f k hf hbits
    have hstep : ∀ {v w : State} {j : Nat}, SettledPort v j w → w.getF f k = v.getF f k := by
      intro v w j h
      by_cases hj : k = j
      · subst hj; exact h.ctl f hf hbits
      · rw [State.getF, hf, h.word_ctl_ne hj, State.getF, hf]
    rw [hstep h2, hstep h1, State.getF, hf, hword (fabCtl_ne_byp k), State.getF, hf]
  case word => exact fun o ho hne hlog => by rw [h2.word_byp ho hlog, h1.word_byp ho hlog, hword hne]

end State
end Sys2Proof.Machine
end

section
/-! The fabric configured (O39). -/

namespace Sys2Proof.Machine
namespace State

variable {s : State}

theorem SettledDim.mayOpen {d : Nat} {t : State} (h : SettledDim s d t) (e : Nat) : t.mayOpen e = s.mayOpen e := by
  have hcfg : t.word F.FAB_CFG_X.base = s.word F.FAB_CFG_X.base :=
    h.word _ (by decide) (by decide) (not_eventOffset (by decide) (by decide))
  have hen : ∀ k, t.flag F.FAB_PCTRL_EN k = s.flag F.FAB_PCTRL_EN k := fun k => by
    rw [flag, h.ctl F.FAB_PCTRL_EN k rfl (.inl (by decide)), flag]
  have hfailed : t.flag F.GEN_STATUS_FAILED 0 = s.flag F.GEN_STATUS_FAILED 0 :=
    flag_congr (h.word _ (by decide) (by decide) (by rintro (h | h) <;> exact absurd h (by decide)))
  rw [State.mayOpen, (place_congr hcfg).2.1, h.open_, hen, hen, hfailed, State.mayOpen]

theorem SettledDim.calmAfter {d : Nat} {t : State} (h : SettledDim s d t) (hcalm : Calm s) : Calm t := by
  refine hcalm.imp (fun hidle => (runningParts_congr (by rw [h.frame])).trans hidle) fun hst k hk => ?_
  have hk' := hst k hk
  by_cases hkd : k / 2 = d
  · rw [h.state k hkd]
    split_ifs <;> omega
  · rw [h.other k hkd]
    exact hk'

/-- Every dimension has settled. -/
structure SettledAll (s t : State) : Prop where
  frame : t = { s with regs := t.regs, ports := t.ports, test := t.test, out := t.out }
  calm : (∀ k, k < 6 → s.getF F.FAB_PSTAT_STATE k ≠ 5 ∧ s.getF F.FAB_PSTAT_STATE k ≠ 6) →
    t = { s with regs := t.regs, ports := t.ports }
  closed : ∀ d, d < 3 → natBits (t.getF F.FAB_BYP_CLOSED 0) d d = if s.mayOpen d then 0 else 1
  open_ : t.getF F.FAB_BYP_OPEN 0 = s.getF F.FAB_BYP_OPEN 0
  state : ∀ k, k < 6 → t.getF F.FAB_PSTAT_STATE k =
    if s.mayOpen (k / 2) then (if s.getF F.FAB_PSTAT_STATE k = 0 then 1 else s.getF F.FAB_PSTAT_STATE k)
    else if s.getF F.FAB_PSTAT_STATE k = 7 then 7 else 0
  word : ∀ o, o < 0x601000 → o ≠ F.FAB_BYP_CLOSED.base → ¬ EventOffset o → t.word o = s.word o

theorem settleDims_settled (hcalm : Calm s) : SettledAll s ([0, 1, 2].foldl settleDim s) := by
  have h0 := settleDim_settled (s := s) (d := 0) (by decide) hcalm
  change SettledAll s (((s.settleDim 0).settleDim 1).settleDim 2)
  generalize s.settleDim 0 = t at *
  have hrun := h0.calmAfter hcalm
  have h1 := settleDim_settled (s := t) (d := 1) (by decide) hrun
  generalize t.settleDim 1 = u at *
  have hrun' := h1.calmAfter hrun
  have h2 := settleDim_settled (s := u) (d := 2) (by decide) hrun'
  generalize u.settleDim 2 = w at *
  have hmay1 := h0.mayOpen 1
  have hmay2 := (h1.mayOpen 2).trans (h0.mayOpen 2)
  refine ⟨?frame, ?calm, ?closed, ?open_, ?state, ?word⟩
  case frame => rw [h2.frame, h1.frame, h0.frame]
  case calm =>
    intro hst
    have hc0 := h0.calm fun k hk => hst k (by omega)
    have hc1 := h1.calm fun k hk => by rw [h0.other k (by omega)]; exact hst k (by omega)
    have hc2 := h2.calm fun k hk => by rw [h1.other k (by omega), h0.other k (by omega)]; exact hst k (by omega)
    rw [hc2, hc1, hc0]
  case closed =>
    intro d hd
    rw [h2.closed d hd, h1.closed d hd, h0.closed d hd, hmay2, hmay1]
    obtain rfl | rfl | rfl : d = 0 ∨ d = 1 ∨ d = 2 := by omega
    · rfl
    · rfl
    · rfl
  case open_ => rw [h2.open_, h1.open_, h0.open_]
  case state =>
    intro k hk
    obtain h | h | h : k / 2 = 0 ∨ k / 2 = 1 ∨ k / 2 = 2 := by omega
    · rw [h2.other k (by omega), h1.other k (by omega), h0.state k h, h]
    · rw [h2.other k (by omega), h1.state k h, h0.other k (by omega), hmay1, h]
    · rw [h2.state k h, h1.other k (by omega), h0.other k (by omega), hmay2, h]
  case word => exact fun o ho hne hlog => by rw [h2.word o ho hne hlog, h1.word o ho hne hlog, h0.word o ho hne hlog]

/-! ## `FAB_CFG` -/

/-- `FAB_CFG` is written, and the master by configuration follows. -/
structure Configured (s : State) (v : Word) (t : State) : Prop where
  frame : t = { s with regs := t.regs, lostMaster := none, altUpstream := none }
  cfg : t.word F.FAB_CFG_X.base = v &&& fieldMask 33 0
  word : ∀ o, o ≠ F.FAB_CFG_X.base → o ≠ F.PLN_BEAT_STATUS_SRC_ACTIVE.base → t.word o = s.word o
  master : t.getF F.PLN_BEAT_STATUS_CUR_MASTER 0 = s.getF F.PLN_BEAT_CFG_MASTER_POS 0
  isMaster : t.flag F.PLN_BEAT_STATUS_IS_MASTER 0 = decide (s.getF F.PLN_BEAT_CFG_MASTER_POS 0 = t.pos)

theorem getF_congr_regs {s t : State} (h : t.regs = s.regs) {f : Fld} {i : Nat} : t.getF f i = s.getF f i := by
  rw [getF, word, h, getF, word]

/-- What the master by configuration puts into `PLN_BEAT_STATUS`. -/
theorem masterByCfg_regs (b c : State) (hc : c = { b.putF F.PLN_BEAT_STATUS_CUR_MASTER 0 (b.getF F.PLN_BEAT_CFG_MASTER_POS 0) with
      lostMaster := none }) : b.masterByCfg.regs =
    (((b.putF F.PLN_BEAT_STATUS_CUR_MASTER 0 (b.getF F.PLN_BEAT_CFG_MASTER_POS 0)).putF F.PLN_BEAT_STATUS_IS_MASTER 0
      (if b.getF F.PLN_BEAT_CFG_MASTER_POS 0 = c.pos then 1 else 0)).putF F.PLN_BEAT_STATUS_UPSTREAM 0
        ((c.putF F.PLN_BEAT_STATUS_IS_MASTER 0 (if b.getF F.PLN_BEAT_CFG_MASTER_POS 0 = c.pos then 1 else 0)).routeIn
          (b.getF F.PLN_BEAT_CFG_MASTER_POS 0))).regs := by
  subst hc
  rfl

theorem configured (s : State) (v : Word) : Configured s v (s.setWord F.FAB_CFG_X.base (v &&& fieldMask 33 0)).masterByCfg := by
  have hset : ∀ o, o ≠ F.FAB_CFG_X.base → (s.setWord F.FAB_CFG_X.base (v &&& fieldMask 33 0)).word o = s.word o :=
    fun o ho => s.word_setWord_ne _ ho
  have hcfg : (s.setWord F.FAB_CFG_X.base (v &&& fieldMask 33 0)).word F.FAB_CFG_X.base = v &&& fieldMask 33 0 :=
    s.word_setWord_self _ _
  have hregs : RegsMay s (s.setWord F.FAB_CFG_X.base (v &&& fieldMask 33 0)) := rfl
  generalize s.setWord F.FAB_CFG_X.base (v &&& fieldMask 33 0) = b at *
  have hpos : b.getF F.PLN_BEAT_CFG_MASTER_POS 0 = s.getF F.PLN_BEAT_CFG_MASTER_POS 0 := by
    rw [State.getF, hset _ (by decide), State.getF]
  have hlt : s.getF F.PLN_BEAT_CFG_MASTER_POS 0 < 2 ^ 17 := s.getF_lt _ _
  have hbeat : ∀ o, o ≠ F.PLN_BEAT_STATUS_SRC_ACTIVE.base → b.masterByCfg.word o = b.word o := (BeatOnly.masterByCfg b).word
  have hplace := (place_congr (hbeat F.FAB_CFG_X.base (by decide))).1
  have hplace1 : ∀ m, ({ b.putF F.PLN_BEAT_STATUS_CUR_MASTER 0 m with lostMaster := none } : State).pos = b.pos := fun m =>
    (place_congr (s := b) (word_putF_ne _ F.PLN_BEAT_STATUS_CUR_MASTER 0 m (by decide))).1
  refine ⟨?frame, (hbeat _ (by decide)).trans hcfg, fun o hne hstat => (hbeat o hstat).trans (hset o hne), ?master, ?isMaster⟩
  case frame =>
    have hmaster : b.masterByCfg = { b with regs := b.masterByCfg.regs, lostMaster := none, altUpstream := none } := rfl
    rw [hmaster, hregs]
  case master =>
    rw [getF_congr_regs (b.masterByCfg_regs _ rfl), getF_putF_bits _ _ _ _ _ _ (.inr (by decide)),
      getF_putF_bits _ _ _ _ _ _ (.inr (by decide)), getF_putF _ _ _ _ (by decide) (by decide), hpos]
    exact Nat.mod_eq_of_lt hlt
  case isMaster =>
    rw [hplace, ← hpos, flag, getF_congr_regs (b.masterByCfg_regs _ rfl), getF_putF_bits _ _ _ _ _ _ (.inl (by decide)),
      getF_putF _ _ _ _ (by decide) (by decide), hplace1]
    by_cases h : b.getF F.PLN_BEAT_CFG_MASTER_POS 0 = b.pos
    · rw [if_pos h, decide_eq_true h]; rfl
    · rw [if_neg h, decide_eq_false h]; rfl

/-- A field of `FAB_CFG` takes its bits of the write. -/
theorem Configured.field {v : Word} {t : State} (h : Configured s v t) (f : Fld) (hoff : f.off 0 = F.FAB_CFG_X.base) (hhi : f.hi ≤ 33) :
    t.getF f 0 = getBits v f.hi f.lo := by
  rw [State.getF, hoff, h.cfg]
  refine getBits_ext fun b _ hb => ?_
  rw [BitVec.getLsbD_and, fieldMask_getLsbD]
  simp [show b < 64 by omega, show b ≤ 33 by omega]

/-- The fabric's other registers stand. -/
theorem Configured.fabric {v : Word} {t : State} (h : Configured s v t) (o : Nat) (ho : 0x600000 < o) : t.word o = s.word o :=
  h.word o (by simp only [F.FAB_CFG_X]; omega) (by simp only [F.PLN_BEAT_STATUS_SRC_ACTIVE]; omega)

theorem Configured.stateOf {v : Word} {t : State} (h : Configured s v t) (k : Nat) :
    t.getF F.FAB_PSTAT_STATE k = s.getF F.FAB_PSTAT_STATE k := by
  rw [State.getF, h.fabric _ (by rw [fabStat_off]; omega), State.getF]

theorem Configured.enabled {v : Word} {t : State} (h : Configured s v t) (k : Nat) :
    t.flag F.FAB_PCTRL_EN k = s.flag F.FAB_PCTRL_EN k :=
  flag_congr (h.fabric _ (by rw [fabCtl_off]; omega))

/-- A field put from the bits of a write holds them. -/
theorem getF_putF_getBits (s : State) (f : Fld) (i : Nat) (v : Word) (h : f.lo ≤ f.hi) (h64 : f.hi < 64) :
    (s.putF f i (getBits v f.hi f.lo)).getF f i = getBits v f.hi f.lo := by
  rw [getF_putF _ _ _ _ h h64, Nat.mod_eq_of_lt (getBits_lt v f.hi f.lo)]

/-- A field is read from its register's word. -/
theorem getF_congr_word {s t : State} {f : Fld} {i : Nat} (h : t.word (f.off i) = s.word (f.off i)) : t.getF f i = s.getF f i := by
  rw [getF, h, getF]

end State
end Sys2Proof.Machine

namespace Sys2Proof

open Machine
open Machine (State)

/-- Bits of a number below its width are the word's. -/
theorem natBits_getBits (v : Word) {hi d : Nat} (hd : d ≤ hi) : natBits (getBits v hi 0) d d = getBits v d d := by
  apply Nat.eq_of_testBit_eq
  intro i
  rw [natBits, getBits_testBit, Nat.testBit_mod_two_pow, Nat.testBit_shiftRight, getBits_testBit]
  by_cases hz : i = 0
  · simp [hz, hd]
  · simp [hz]

/-! ## The claim -/

/-- R261, R258: with every port Down or Failed `FAB_CFG` is taken and the switches settle. -/
theorem fabCfg_taken {s : State} {f : Func} {v : Word} (hopen : Open s f F.FAB_CFG_X.base)
    (hst : ∀ k, k < 6 → s.getF F.FAB_PSTAT_STATE k = 0 ∨ s.getF F.FAB_PSTAT_STATE k = 7) :
    ∃ c u, exec (.fabCfgWrite f v) s = .next u ∧ State.Configured s v c ∧ State.SettledAll c u ∧
      u = { c with regs := u.regs, ports := u.ports } := by
  have hconf := s.configured v
  have hexec : exec (.fabCfgWrite f v) s =
      .next ([0, 1, 2].foldl State.settleDim (s.setWord F.FAB_CFG_X.base (v &&& fieldMask 33 0)).masterByCfg) := by
    refine congrArg Host.Outcome.next ((s.gated_of_open hopen _).trans (if_pos ?_))
    rw [List.all_eq_true]
    intro k hk
    obtain h | h := hst k (List.mem_range.mp hk) <;> simp [h]
  generalize (s.setWord F.FAB_CFG_X.base (v &&& fieldMask 33 0)).masterByCfg = c at *
  have hcalm : ∀ k, k < 6 → c.getF F.FAB_PSTAT_STATE k ≠ 5 ∧ c.getF F.FAB_PSTAT_STATE k ≠ 6 := fun k hk => by
    rw [hconf.stateOf]; have := hst k hk; omega
  have hset := State.settleDims_settled (.inr hcalm)
  exact ⟨c, _, hexec, hconf, hset, hset.calm hcalm⟩

/-- R261: with another port in use a write of `FAB_CFG` is discarded and logged. -/
theorem fabCfg_discarded {s : State} {f : Func} {v : Word} (hopen : Open s f F.FAB_CFG_X.base)
    (hst : ∃ k, k < 6 ∧ s.getF F.FAB_PSTAT_STATE k ≠ 0 ∧ s.getF F.FAB_PSTAT_STATE k ≠ 7) :
    exec (.fabCfgWrite f v) s = .next (s.genErr f 1 F.FAB_CFG_X.base) := by
  obtain ⟨k, hk, hne0, hne7⟩ := hst
  refine congrArg Host.Outcome.next ((s.gated_of_open hopen _).trans (if_neg ?_))
  rw [List.all_eq_true]
  intro h
  have := h k (List.mem_range.mpr hk)
  simp [hne0, hne7] at this

/-- `FAB_CFG` holds no log. -/
theorem fabCfg_not_log : ¬ State.LogOffset F.FAB_CFG_X.base := by
  rintro (h | ⟨k, h⟩ | h | h)
  · exact absurd h (by decide)
  · simp only [Fld.off, F.GEN_VERR_VALID, F.FAB_CFG_X] at h
    omega
  · exact absurd h (by decide)
  · exact absurd h (by decide)

/-- The registers after a write of a port's control register, before its switch settles. -/
def enabling (s : State) (k : Nat) (v : Word) : State :=
  let t := (s.writeOthers (F.FAB_PCTRL_EN.off k) v).putF F.FAB_PCTRL_EN k (getBits v 0 0)
  if t.getF F.FAB_PSTAT_STATE k = 7 then t.putF F.FAB_PSTAT_STATE k 0 else t

/-- A port's control register is written (R240, R258): `EN` and `RETRY_LIMIT` are taken, and the port leaves Failed. -/
structure Enabled (s : State) (k : Nat) (v : Word) (t : State) : Prop where
  regs : State.RegsMay s t
  en : t.getF F.FAB_PCTRL_EN k = getBits v 0 0
  limit : t.getF F.FAB_PCTRL_RETRY_LIMIT k = getBits v 15 8
  state : t.getF F.FAB_PSTAT_STATE k = if s.getF F.FAB_PSTAT_STATE k = 7 then 0 else s.getF F.FAB_PSTAT_STATE k
  word : ∀ o, o ≠ F.FAB_PCTRL_EN.off k → o ≠ F.FAB_PSTAT_STATE.off k → t.word o = s.word o

/-- A finite fact: `RETRY_LIMIT` stands in the register of each port. -/
theorem regAt_retryLimit : ∀ k < 6, ∃ r i, regAt (F.FAB_PCTRL_EN.off k) = some (r, i) ∧ F.FAB_PCTRL_RETRY_LIMIT ∈ r.fields := by
  have hrow : ∀ k < 6, ((regAt (F.FAB_PCTRL_EN.off k)).any fun x => x.1.fields.contains F.FAB_PCTRL_RETRY_LIMIT) = true := by
    decide +kernel
  intro k hk
  have hk' := hrow k hk
  cases hat : regAt (F.FAB_PCTRL_EN.off k) with
  | none => rw [hat] at hk'; exact absurd hk' (by decide)
  | some x =>
    rw [hat] at hk'
    exact ⟨x.1, x.2, rfl, List.contains_iff_mem.mp hk'⟩

theorem enabled {s : State} {k : Nat} (hk : k < 6) (v : Word) :
    Enabled s k v (enabling s k v) := by
  obtain ⟨r, i, hrow, hlimit⟩ := regAt_retryLimit k hk
  have hregs : State.RegsMay s (s.writeOthers (F.FAB_PCTRL_EN.off k) v) := s.writeOthers_eq _ _
  have hword := fun {o : Nat} (ho : o ≠ F.FAB_PCTRL_EN.off k) => s.word_writeOthers_ne (F.FAB_PCTRL_EN.off k) v ho
  have hlim : (s.writeOthers (F.FAB_PCTRL_EN.off k) v).getF F.FAB_PCTRL_RETRY_LIMIT k = getBits v 15 8 :=
    s.getF_writeOthers_rw hrow v hlimit (by decide) rfl rfl rfl
  unfold enabling
  dsimp only
  generalize s.writeOthers (F.FAB_PCTRL_EN.off k) v = b at *
  have hregs' : State.RegsMay s (b.putF F.FAB_PCTRL_EN k (getBits v 0 0)) := hregs.trans (.putF _ _ _ _)
  have hen : (b.putF F.FAB_PCTRL_EN k (getBits v 0 0)).getF F.FAB_PCTRL_EN k = getBits v 0 0 :=
    b.getF_putF_getBits F.FAB_PCTRL_EN k v (by decide) (by decide)
  have hlim' : (b.putF F.FAB_PCTRL_EN k (getBits v 0 0)).getF F.FAB_PCTRL_RETRY_LIMIT k = getBits v 15 8 :=
    (State.getF_putF_bits _ _ _ _ _ _ (.inr (by decide))).trans hlim
  have hword' := fun (o : Nat) (ho : o ≠ F.FAB_PCTRL_EN.off k) =>
    (State.word_putF_ne b F.FAB_PCTRL_EN k (getBits v 0 0) ho).trans (hword ho)
  generalize b.putF F.FAB_PCTRL_EN k (getBits v 0 0) = c at *
  have hstat : c.getF F.FAB_PSTAT_STATE k = s.getF F.FAB_PSTAT_STATE k :=
    State.getF_congr_word (hword' _ (State.fabCtl_ne_stat k k).symm)
  rw [hstat]
  by_cases h7 : s.getF F.FAB_PSTAT_STATE k = 7
  · rw [if_pos h7]
    refine ⟨hregs'.trans (.putF _ _ _ _), ?_, ?_, ?_, fun o hctl hst => (State.word_putF_ne _ _ _ _ hst).trans (hword' o hctl)⟩
    · rw [State.getF_congr_word (f := F.FAB_PCTRL_EN) (State.word_putF_ne _ _ _ _ (State.fabCtl_ne_stat k k)), hen]
    · rw [State.getF_congr_word (f := F.FAB_PCTRL_RETRY_LIMIT) (State.word_putF_ne _ _ _ _ (State.fabCtl_ne_stat k k)), hlim']
    · rw [State.getF_putF _ _ _ _ (by decide) (by decide), if_pos h7]; rfl
  · rw [if_neg h7]
    exact ⟨hregs', hen, hlim', hstat.trans (if_neg h7).symm, fun o hctl _ => hword' o hctl⟩

theorem fabricConfiguration : Claims.FabricConfiguration := by
  unfold Claims.FabricConfiguration
  refine ⟨fun s f v hopen => ⟨?taken, ?discarded⟩, ?bypass, ?enable⟩
  case taken =>
    intro hst
    obtain ⟨c, u, hexec, hconf, hset, hframe⟩ := fabCfg_taken (v := v) hopen hst
    have hcfg := hset.word F.FAB_CFG_X.base (by decide) (by decide) (State.not_eventOffset (by decide) (by decide))
    have hbeat := hset.word F.PLN_BEAT_STATUS_CUR_MASTER.base (by decide) (by decide) (by rintro (h | h) <;> exact absurd h (by decide))
    obtain ⟨hpos, hring, -⟩ := State.place_congr hcfg
    have hmay : ∀ d, c.mayOpen d = (2 ≤ u.ringSize d && natBits (s.getF F.FAB_BYP_OPEN 0) d d = 1 &&
        s.flag F.FAB_PCTRL_EN (2 * d) && s.flag F.FAB_PCTRL_EN (2 * d + 1) && !s.flag F.GEN_STATUS_FAILED 0 : Bool) := fun d => by
      have hopenBits : c.getF F.FAB_BYP_OPEN 0 = s.getF F.FAB_BYP_OPEN 0 := State.getF_congr_word (hconf.fabric _ (by decide))
      have hfailed : c.flag F.GEN_STATUS_FAILED 0 = s.flag F.GEN_STATUS_FAILED 0 :=
        State.flag_congr (hconf.word F.GEN_STATUS_FAILED.base (by decide) (by decide))
      rw [State.mayOpen, hring, hopenBits, hconf.enabled, hconf.enabled, hfailed]
    refine ⟨u, hexec, ?fields, ?master, ?isMaster, ?dims, ?frame⟩
    case fields =>
      intro fld hfld
      have hat : fld.off 0 = F.FAB_CFG_X.base ∧ fld.hi ≤ 33 := by
        revert fld; decide
      rw [State.getF, hat.1, hcfg, ← hat.1, ← State.getF, hconf.field fld hat.1 hat.2]
    case master => exact (State.getF_congr_word (f := F.PLN_BEAT_STATUS_CUR_MASTER) (i := 0) hbeat).trans hconf.master
    case isMaster =>
      rw [State.flag_congr (f := F.PLN_BEAT_STATUS_IS_MASTER) (i := 0) hbeat, hconf.isMaster, hpos, decide_eq_true_iff]
    case dims =>
      intro d hd
      dsimp only
      rw [← hmay]
      refine ⟨hset.closed d hd, fun k hk => ?_⟩
      subst hk
      rw [hset.state k (by omega), hconf.stateOf]
      obtain h | h := hst k (by omega) <;> simp [h]
    case frame => rw [hframe, hconf.frame]
  case discarded =>
    intro hst
    exact ⟨_, fabCfg_discarded hopen hst, (s.genErr_logsOnly f 1 F.FAB_CFG_X.base).word _ fabCfg_not_log, s.flag_genErr_valid f 1 _⟩
  case bypass =>
    intro s f v hopen hidle
    dsimp only
    have hexec : exec (.bypassOpen f v) s = .next ([0, 1, 2].foldl State.settleDim (s.putF F.FAB_BYP_OPEN 0 (getBits v 2 0))) :=
      congrArg Host.Outcome.next (s.gated_of_open hopen _)
    have hput : (s.putF F.FAB_BYP_OPEN 0 (getBits v 2 0)).getF F.FAB_BYP_OPEN 0 = getBits v 2 0 :=
      s.getF_putF_getBits F.FAB_BYP_OPEN 0 v (by decide) (by decide)
    have hword := fun {o : Nat} (ho : o ≠ F.FAB_BYP_OPEN.base) => State.word_putF_ne s F.FAB_BYP_OPEN 0 (getBits v 2 0) ho
    have hregs : State.RegsMay s (s.putF F.FAB_BYP_OPEN 0 (getBits v 2 0)) := .putF _ _ _ _
    generalize s.putF F.FAB_BYP_OPEN 0 (getBits v 2 0) = c at *
    have hset := State.settleDims_settled (s := c) (.inl ((State.runningParts_congr (by rw [hregs])).trans hidle))
    generalize [0, 1, 2].foldl State.settleDim c = u at *
    have hen : ∀ k, c.flag F.FAB_PCTRL_EN k = s.flag F.FAB_PCTRL_EN k := fun k => State.flag_congr (hword (State.fabCtl_ne_byp k))
    have hfailed : c.flag F.GEN_STATUS_FAILED 0 = s.flag F.GEN_STATUS_FAILED 0 :=
      State.flag_congr (hword (o := F.GEN_STATUS_FAILED.base) (by decide))
    have hmay : ∀ d, d < 3 → c.mayOpen d = (2 ≤ s.ringSize d && getBits v d d = 1 && s.flag F.FAB_PCTRL_EN (2 * d) &&
        s.flag F.FAB_PCTRL_EN (2 * d + 1) && !s.flag F.GEN_STATUS_FAILED 0 : Bool) := fun d hd => by
      rw [State.mayOpen, (State.place_congr (hword (by decide))).2.1, hput, natBits_getBits v (by omega),
        hen, hen, hfailed]
    have hstat : ∀ k, c.getF F.FAB_PSTAT_STATE k = s.getF F.FAB_PSTAT_STATE k := fun k =>
      State.getF_congr_word (hword (State.fabStat_ne_byp k))
    refine ⟨u, hexec, hset.open_.trans hput, fun d hd => by rw [hset.closed d hd, hmay d hd], ?may, ?mayNot, ?mem, ?parts, ?tiles⟩
    case may =>
      intro k hk h
      rw [hset.state k hk, hmay _ (by omega), if_pos h, hstat]
    case mayNot =>
      intro k hk h
      rw [hset.state k hk, hmay _ (by omega), h, hstat]
      rfl
    case mem => rw [hset.frame, hregs]; exact fun _ => rfl
    case parts => rw [hset.frame, hregs]
    case tiles => rw [hset.frame, hregs]
  case enable =>
    intro s k v hk hopen hidle
    dsimp only
    have hen := enabled (s := s) hk v
    have hexec : exec (.portEnable k v) s = .next ((enabling s k v).settleDim (k / 2)) :=
      congrArg Host.Outcome.next ((if_neg (by omega)).trans (s.gated_of_open hopen _))
    generalize enabling s k v = c at *
    have hset := State.settleDim_settled (s := c) (d := k / 2) (by omega)
      (.inl ((State.runningParts_congr (by rw [hen.regs])).trans hidle))
    generalize c.settleDim (k / 2) = u at *
    have hlow := fun (o : Nat) (ho : o < 0x601000) =>
      hen.word o (by rw [State.fabCtl_off]; omega) (by rw [State.fabStat_off]; omega)
    have hopenBits : c.getF F.FAB_BYP_OPEN 0 = s.getF F.FAB_BYP_OPEN 0 := State.getF_congr_word (hlow _ (by decide))
    have hfailed : c.flag F.GEN_STATUS_FAILED 0 = s.flag F.GEN_STATUS_FAILED 0 :=
      State.flag_congr (hlow F.GEN_STATUS_FAILED.base (by decide))
    have hring := (State.place_congr (hlow F.FAB_CFG_X.base (by decide))).2.1 (k / 2)
    have hother : ∀ j, j ≠ k → c.flag F.FAB_PCTRL_EN j = s.flag F.FAB_PCTRL_EN j := fun j hj =>
      State.flag_congr (hen.word _ (by rw [State.fabCtl_off, State.fabCtl_off]; omega) (State.fabCtl_ne_stat k j))
    have hthis : c.flag F.FAB_PCTRL_EN k = decide (getBits v 0 0 = 1) := by rw [State.flag, hen.en]
    have hmay : c.mayOpen (k / 2) = (2 ≤ s.ringSize (k / 2) && getBits v 0 0 = 1 &&
        natBits (s.getF F.FAB_BYP_OPEN 0) (k / 2) (k / 2) = 1 &&
        s.flag F.FAB_PCTRL_EN (if k % 2 = 0 then k + 1 else k - 1) && !s.flag F.GEN_STATUS_FAILED 0 : Bool) := by
      rw [State.mayOpen, hring, hopenBits, hfailed]
      rcases Nat.mod_two_eq_zero_or_one k with h | h
      · rw [if_pos h, show 2 * (k / 2) = k by omega, hthis, hother (k + 1) (by omega)]
        ac_rfl
      · rw [if_neg (by omega), show 2 * (k / 2) + 1 = k by omega, show 2 * (k / 2) = k - 1 by omega, hthis, hother (k - 1) (by omega)]
        ac_rfl
    rw [← hmay]
    refine ⟨u, hexec, (hset.ctl F.FAB_PCTRL_EN k rfl (.inl (by decide))).trans hen.en, (hset.ctl F.FAB_PCTRL_RETRY_LIMIT k rfl (.inr (by decide))).trans hen.limit,
      (hset.closed _ (by omega)).trans (if_pos rfl), ?state, ?mem, ?parts, ?tiles⟩
    case state =>
      rw [hset.state k rfl, hen.state]
      by_cases h7 : s.getF F.FAB_PSTAT_STATE k = 7 <;> simp [h7]
    case mem => rw [hset.frame, hen.regs]; exact fun _ => rfl
    case parts => rw [hset.frame, hen.regs]
    case tiles => rw [hset.frame, hen.regs]

/-- Settles O39: a port's events are followed through the registers and the port; a switch that settles shows what its dimension
lets it do, and its ports follow. -/
theorem fabricPorts : Obligations.FabricPorts := by
  unfold Obligations.FabricPorts
  exact ⟨fabricConfiguration, portsTrain, portsGoDown⟩

end Sys2Proof
end

section
/-! Resets, the loss of supplies and the beginning of a cold boot (O59). -/

namespace Sys2Proof.Machine
namespace State

/-! ## New keys of an empty memory -/

/-- From `s` to `t` registers and, of the identity, the Umber keys may differ. -/
def KeysMay (s t : State) : Prop :=
  t = { s with regs := t.regs, ident := { s.ident with umberKeys := t.ident.umberKeys, drbg := t.ident.drbg } }

theorem KeysMay.of_regsMay {s t : State} (h : RegsMay s t) : KeysMay s t := by
  unfold KeysMay; rw [h]

theorem KeysMay.trans {s t u : State} (h : KeysMay s t) (h' : KeysMay t u) : KeysMay s u := by
  unfold KeysMay at *
  rw [h', h]

theorem KeysMay.foldl {α : Type} {act : State → α → State} (hact : ∀ v x, v.mem = [] → KeysMay v (act v x)) (l : List α) {s : State}
    (hmem : s.mem = []) : KeysMay s (l.foldl act s) := by
  induction l generalizing s with
  | nil => exact .of_regsMay (.refl s)
  | cons x l ih =>
    have h := hact s x hmem
    exact h.trans (ih (by rw [h]; exact hmem))

/-- No sector of an empty memory is stored under the old keys. -/
theorem rekey_of_empty {s : State} (hmem : s.mem = []) (p : Nat) :
    let k := Config.random s.ident.drbg
    s.rekey p = { s with ident := { s.ident with umberKeys := mput 0 s.ident.umberKeys p k, drbg := s.ident.drbg + 1 } } := by
  unfold rekey umberSectors
  dsimp only
  rw [hmem]
  rfl

theorem rekeys_keysMay {s : State} (hmem : s.mem = []) (l : List Nat) : KeysMay s (l.foldl rekey s) :=
  .foldl (fun v p hv => by rw [rekey_of_empty hv]; rfl) l hmem

theorem rekeys_regs {s : State} (hmem : s.mem = []) (l : List Nat) : (l.foldl rekey s).regs = s.regs := by
  induction l generalizing s with
  | nil => rfl
  | cons p l ih =>
    have h : (s.rekey p).mem = [] ∧ (s.rekey p).regs = s.regs := by rw [rekey_of_empty hmem]; exact ⟨hmem, rfl⟩
    exact (ih h.1).trans h.2

/-! ## `SEC_STATE` -/

theorem showIdent_regsMay (s : State) : RegsMay s s.showIdent := by
  unfold showIdent
  extract_lets i s1 s2 s3
  exact ((((((RegsMay.putF s _ _ _).trans (.putF _ _ _ _)).trans (.putF _ _ _ _)).trans (.putF _ _ _ _)).trans
    (.putF _ _ _ _)).trans (.putF _ _ _ _))

theorem word_showIdent_ne (s : State) {o : Nat} (h : o ≠ F.SEC_STATE_LC.base) : s.showIdent.word o = s.word o := by
  unfold showIdent
  extract_lets i s1 s2 s3
  rw [word_putF_ne _ F.SEC_STATE_SVN _ _ h, word_putF_ne _ F.SEC_STATE_OWNER _ _ h, word_putF_ne _ F.SEC_STATE_SLOTS _ _ h,
    word_putF_ne _ F.SEC_STATE_COUNTER _ _ h, word_putF_ne _ F.SEC_STATE_DEBUG _ _ h, word_putF_ne _ F.SEC_STATE_LC _ _ h]

/-! ## The retained fields -/

/-- Puts fields back at values read before. -/
def putBack (s : State) (kept : List (Fld × Nat)) : State := kept.foldl (fun s x => s.putF x.1 0 x.2) s

theorem putBack_regsMay (kept : List (Fld × Nat)) (s : State) : RegsMay s (s.putBack kept) := by
  induction kept generalizing s with
  | nil => exact .refl s
  | cons x kept ih => exact (RegsMay.putF s _ _ _).trans (ih _)

theorem word_putBack_ne {kept : List (Fld × Nat)} {o : Nat} (h : ∀ x ∈ kept, o ≠ x.1.off 0) (s : State) :
    (s.putBack kept).word o = s.word o := by
  induction kept generalizing s with
  | nil => rfl
  | cons x kept ih =>
    exact (ih (fun y hy => h y (List.mem_cons_of_mem _ hy)) _).trans (word_putF_ne _ _ _ _ (h x List.mem_cons_self))

theorem getF_putBack_apart {kept : List (Fld × Nat)} {f : Fld} (h : ∀ x ∈ kept, Apart f 0 x.1 0) (s : State) :
    (s.putBack kept).getF f 0 = s.getF f 0 := by
  induction kept generalizing s with
  | nil => rfl
  | cons x kept ih =>
    exact (ih (fun y hy => h y (List.mem_cons_of_mem _ hy)) _).trans (getF_putF_apart _ _ (h x List.mem_cons_self))

/-- Of fields apart from one another each holds the value put back. -/
theorem getF_putBack {kept : List (Fld × Nat)} (hapart : kept.Pairwise fun x y => Apart x.1 0 y.1 0)
    (hwf : ∀ x ∈ kept, x.1.lo ≤ x.1.hi ∧ x.1.hi < 64) {x : Fld × Nat} (hx : x ∈ kept) (s : State) :
    (s.putBack kept).getF x.1 0 = x.2 % 2 ^ (x.1.hi + 1 - x.1.lo) := by
  induction kept generalizing s with
  | nil => exact absurd hx List.not_mem_nil
  | cons y kept ih =>
    obtain ⟨hy, htail⟩ := List.pairwise_cons.mp hapart
    rcases List.mem_cons.mp hx with rfl | hx
    · obtain ⟨hle, h64⟩ := hwf x List.mem_cons_self
      exact (getF_putBack_apart hy _).trans (getF_putF _ _ _ _ hle h64)
    · exact ih htail (fun z hz => hwf z (List.mem_cons_of_mem _ hz)) hx _

/-- A finite fact: the retained fields are apart. -/
theorem retained_apart : retained.Pairwise fun f g => Apart f 0 g 0 := by
  unfold Apart
  decide

/-- What is kept over a reset. -/
def kept (s : State) : List (Fld × Nat) := retained.map fun f => (f, s.getF f 0)

theorem kept_apart (s : State) : s.kept.Pairwise fun x y => Apart x.1 0 y.1 0 :=
  List.pairwise_map.mpr retained_apart

theorem kept_wf (s : State) : ∀ x ∈ s.kept, x.1.lo ≤ x.1.hi ∧ x.1.hi < 64 := by
  intro x hx
  obtain ⟨f, hf, rfl⟩ := List.mem_map.mp hx
  have hwf : ∀ f ∈ retained, f.lo ≤ f.hi ∧ f.hi < 64 := by decide
  exact hwf f hf

/-! ## A module reset -/

/-- What a module reset leaves. -/
structure ResetDone (s t : State) : Prop where
  mem : t.mem = []
  sram : t.sram = []
  tiles : t.tiles = []
  parts : t.parts = []
  host : t.host = s.host
  out : t.out = s.out
  ident : ∃ keys draws, t.ident = { s.ident with running := none, nonce := none, fwBusy := false, fwImage := [], umberKeys := keys, drbg := draws }
  power : t.power = { s.power with target := none, wake := none, idleBeats := 0, awake := 0, l1 := false, dsCycles := 0, wakeDriven := false, booting := false, boot := ([], none, []) }
  retained : ∀ f ∈ retained, t.getF f 0 = s.getF f 0
  word : ∀ o, o ≠ F.SEC_STATE_LC.base → (∀ f ∈ State.retained, o ≠ f.off 0) → t.word o = regReset o

theorem resetModule_done (s : State) : ResetDone s s.resetModule := by
  have hkept := s.kept_apart
  have hwf := s.kept_wf
  have hall : ∀ f ∈ State.retained, (f, s.getF f 0) ∈ s.kept := fun f hf => List.mem_map_of_mem hf
  have hnot : ∀ o, (∀ f ∈ State.retained, o ≠ f.off 0) → ∀ x ∈ s.kept, o ≠ x.1.off 0 := by
    intro o h x hx
    obtain ⟨f, hf, rfl⟩ := List.mem_map.mp hx
    exact h f hf
  unfold resetModule
  extract_lets kept r tm b c
  have hc : c = b.putBack s.kept := rfl
  have hbregs : b.regs = [] := rfl
  have hback := b.putBack_regsMay s.kept
  have hcmem : c.mem = [] := by rw [hc, hback]
  have hkeys := rekeys_keysMay hcmem (List.range 8)
  have hkregs := rekeys_regs hcmem (List.range 8)
  generalize hd : (List.range 8).foldl rekey c = d at *
  have hshow := d.showIdent_regsMay
  have hword : ∀ o, o ≠ F.SEC_STATE_LC.base → d.showIdent.word o = (b.putBack s.kept).word o := fun o ho => by
    rw [word_showIdent_ne _ ho, State.word, hkregs, hc, State.word]
  have hframe : KeysMay b d.showIdent := ((KeysMay.of_regsMay hback).trans (hc ▸ hkeys)).trans (.of_regsMay hshow)
  refine ⟨?_, ?_, ?_, ?_, ?_, ?_, ⟨d.showIdent.ident.umberKeys, d.showIdent.ident.drbg, ?_⟩, ?_, ?_, ?_⟩
  iterate 6 rw [hframe]
  · exact congrArg State.ident hframe
  · rw [hframe]
  · intro f hf
    have hne : f.off 0 ≠ F.SEC_STATE_LC.base := by
      clear hall hnot
      revert f; decide
    have hget := getF_putBack hkept hwf (hall f hf) b
    rw [State.getF, hword _ hne, ← State.getF, hget]
    exact Nat.mod_eq_of_lt (s.getF_lt f 0)
  · intro o ho hret
    rw [hword o ho, word_putBack_ne (hnot o hret), State.word, hbregs]
    rfl

/-! ## Off -/

/-- The supplies are no register. -/
theorem getF_withPower (s : State) (w : Power) (f : Fld) (i : Nat) : ({ s with power := w } : State).getF f i = s.getF f i := rfl

/-- What the entry into Off leaves. -/
structure InOff (s t : State) : Prop where
  mem : t.mem = []
  sram : t.sram = []
  tiles : t.tiles = []
  host : t.host = s.host
  out : t.out = s.out
  ident : t.ident.lc = s.ident.lc ∧ t.ident.slots = s.ident.slots ∧ t.ident.counter = s.ident.counter ∧ t.ident.secret = s.ident.secret
  supplies : t.power.main48 = s.power.main48 ∧ t.power.aux = s.power.aux ∧ t.power.tripped = s.power.tripped ∧
    t.power.thermtrip = s.power.thermtrip
  state : t.getF F.PWR_STAT_STATE 0 = 4
  prev : t.getF F.PWR_STAT_PREV 0 = s.getF F.PWR_STAT_STATE 0
  retained : ∀ f ∈ State.retained, t.getF f 0 = s.getF f 0

theorem enterOff_inOff (s : State) : InOff s s.enterOff := by
  unfold enterOff
  extract_lets from_ r w c
  have hreset : ResetDone s r := s.resetModule_done
  clear_value r
  have hc : ∀ f i, c.getF f i = r.getF f i := getF_withPower r _
  have hregs : RegsMay c (((c.putF F.PWR_STAT_STATE 0 4).putF F.PWR_STAT_PREV 0 from_).putF F.PWR_DOM_ON 0 0x800000) :=
    ((RegsMay.putF c _ _ _).trans (.putF _ _ _ _)).trans (.putF _ _ _ _)
  have hcomponents : c.mem = r.mem ∧ c.sram = r.sram ∧ c.tiles = r.tiles ∧ c.host = r.host ∧ c.out = r.out ∧ c.ident = r.ident ∧
      c.power = { r.power with from_ := 4, temps := [] } := ⟨rfl, rfl, rfl, rfl, rfl, rfl, rfl⟩
  obtain ⟨hmem, hsram, htiles, hhost, hout, hident, hpower⟩ := hcomponents
  obtain ⟨keys, draws, hkept⟩ := hreset.ident
  refine ⟨?_, ?_, ?_, ?_, ?_, ?_, ?_, ?state, ?prev, ?retained⟩
  case state =>
    rw [getF_putF_off _ F.PWR_DOM_ON F.PWR_STAT_STATE _ _ _ (by decide), getF_putF_bits _ F.PWR_STAT_PREV _ _ _ _ (.inl (by decide)),
      getF_putF _ _ _ _ (by decide) (by decide)]
    rfl
  case prev =>
    rw [getF_putF_off _ F.PWR_DOM_ON F.PWR_STAT_PREV _ _ _ (by decide), getF_putF _ _ _ _ (by decide) (by decide)]
    have hlt : s.getF F.PWR_STAT_STATE 0 < 2 ^ 3 := s.getF_lt F.PWR_STAT_STATE 0
    rw [show F.PWR_STAT_PREV.hi + 1 - F.PWR_STAT_PREV.lo = 3 from rfl]
    exact Nat.mod_eq_of_lt hlt
  case retained =>
    intro f hf
    have hne : f.off 0 ≠ F.PWR_STAT_STATE.base ∧ f.off 0 ≠ F.PWR_DOM_ON.base := by
      revert f; decide
    rw [getF_putF_off _ F.PWR_DOM_ON f _ _ _ hne.2, getF_putF_off _ F.PWR_STAT_PREV f _ _ _ hne.1,
      getF_putF_off _ F.PWR_STAT_STATE f _ _ _ hne.1, hc]
    exact hreset.retained f hf
  · rw [hregs]; exact hmem.trans hreset.mem
  · rw [hregs]; exact hsram.trans hreset.sram
  · rw [hregs]; exact htiles.trans hreset.tiles
  · rw [hregs]; exact hhost.trans hreset.host
  · rw [hregs]; exact hout.trans hreset.out
  · rw [hregs, hident, hkept]; exact ⟨rfl, rfl, rfl, rfl⟩
  · rw [hregs, hpower, hreset.power]; exact ⟨rfl, rfl, rfl, rfl⟩

/-! ## A cold boot begins -/

theorem recordWake_fields (s : State) (src old : Nat) :
    (s.recordWake src old).getF F.PWR_WAKE_SOURCE 0 = src % 16 ∧ (s.recordWake src old).getF F.PWR_WAKE_FROM 0 = old % 8 := by
  unfold recordWake fresh
  dsimp only
  constructor
  · rw [getF_putF_bits _ F.PWR_WAKE_TIME _ _ _ _ (.inl (by decide)), getF_putF_bits _ F.PWR_WAKE_FROM _ _ _ _ (.inl (by decide)),
      getF_putF _ _ _ _ (by decide) (by decide)]
    rfl
  · rw [getF_putF_bits _ F.PWR_WAKE_TIME _ _ _ _ (.inl (by decide)), getF_putF _ _ _ _ (by decide) (by decide)]
    rfl

theorem recordWake_frame (s : State) (src old : Nat) :
    s.recordWake src old = { s with regs := (s.recordWake src old).regs, free := s.free + 1 } := rfl

/-- R474: with a source waiting and the moments past, the boot begins. -/
theorem tryBoot_begun {s : State} {src : Nat} (hwake : s.power.wake = some src) (hready : s.bootReady = true) (hsrc : src ≤ 6) :
    BootBegun s s.tryBoot src := by
  have hreset := s.resetModule_done
  unfold tryBoot
  rw [hwake]
  dsimp only
  rw [if_pos hready]
  obtain ⟨hsource, hfrom⟩ := recordWake_fields { s.resetModule with power := { s.resetModule.power with booting := true, tripped := false, cool := true, temps := [] } } src s.power.from_
  obtain ⟨keys, draws, hkept⟩ := hreset.ident
  refine ⟨?_, ?_, hsource.trans (Nat.mod_eq_of_lt (by omega)), hfrom, ?_⟩
  · rw [recordWake_frame]
  · rw [recordWake_frame]
  · rw [recordWake_frame]
    dsimp only
    rw [hkept]
    exact ⟨hreset.mem, hreset.sram, hreset.tiles, hreset.parts, hreset.host, rfl, rfl, rfl, rfl, rfl⟩

/-- A source that asks while none waits is the one recorded. -/
theorem wantBoot_begun {s : State} {src : Nat} (hwake : s.power.wake = none) (hready : s.bootReady = true) (hsrc : src ≤ 6) :
    BootBegun s (s.wantBoot src) src := by
  have h := tryBoot_begun (s := { s with power := { s.power with wake := some src } }) rfl hready hsrc
  unfold wantBoot
  rw [hwake]
  exact h

end State
end Sys2Proof.Machine

namespace Sys2Proof

open Machine
open Machine (State)

theorem coldBootBegins : Claims.ColdBootBegins := by
  unfold Claims.ColdBootBegins
  constructor
  · intro s c src hqual hc
    rcases hc with ⟨rfl, rfl, hperst, hdriven, hmain, htrip, hwake, hst⟩ | ⟨rfl, rfl, hen, hperst, hmain, htrip, hwake, hst⟩ |
      ⟨rfl, rfl, hperst, hmain, htrip, hwake⟩ | ⟨rfl, rfl, hperst, htrip, hwake, hauto, hst⟩ |
      ⟨rfl, hwake, hsrc, haux, hperst, hmain, htrip⟩
    · have hexec : exec .wakeNAssert s = .next (s.wantBoot 2) :=
        congrArg Host.Outcome.next ((if_neg (by simp [hperst, hdriven])).trans (if_pos hst))
      exact ⟨_, hexec, State.wantBoot_begun hwake (by simp [State.bootReady, hperst, hqual, hmain, htrip]) (by decide)⟩
    · have hexec : exec .wakeTimerExpiry s = .next (s.wantBoot 4) :=
        congrArg Host.Outcome.next ((if_neg (by simp [hen])).trans (if_pos hst))
      exact ⟨_, hexec, State.wantBoot_begun hwake (by simp [State.bootReady, hperst, hqual, hmain, htrip]) (by decide)⟩
    · have hexec : exec .perstNDeassert s = .next (State.wantBoot { s with power := { s.power with perst := false }, test := { s.test with pins := none } } 3) :=
        congrArg Host.Outcome.next (if_pos hperst)
      exact ⟨_, hexec, State.wantBoot_begun (s := { s with power := { s.power with perst := false }, test := { s.test with pins := none } })
        hwake (by simp [State.bootReady, hqual, hmain, htrip]) (by decide)⟩
    · have hexec : exec .inputPowerRestored s = .next (State.wantBoot { s with power := { s.power with main48 := true } } 6) := by
        refine congrArg Host.Outcome.next ((if_neg (not_not.mpr hst)).trans ((if_neg ?_).trans (if_pos ⟨hauto, ?_⟩)))
        · simp [hwake]
        · simp [htrip]
      exact ⟨_, hexec, State.wantBoot_begun (s := { s with power := { s.power with main48 := true } }) hwake
        (by simp [State.bootReady, hqual, hperst, htrip]) (by decide)⟩
    · have hexec : exec .inputStageOn s = .next (State.tryBoot { s with power := { s.power with auxQualified := true } }) :=
        congrArg Host.Outcome.next (if_pos haux)
      exact ⟨_, hexec, State.tryBoot_begun (s := { s with power := { s.power with auxQualified := true } }) hwake
        (by simp [State.bootReady, hperst, hmain, htrip]) hsrc⟩
  · intro s l src hqual hcool hwake hsrc hperst hmain htrip
    have hexec : exec (.tripCooldown l) s = .next (State.tryBoot { s with power := { s.power with temps := l, cool := l.all (· < 95) } }) :=
      congrArg Host.Outcome.next (if_pos htrip)
    exact ⟨_, hexec, State.tryBoot_begun (s := { s with power := { s.power with temps := l, cool := l.all (· < 95) } }) hwake
      (by simpa [State.bootReady, hperst, hmain, hqual, htrip] using hcool) hsrc⟩

/-! ## Loss of a supply, and the reset pin -/

/-- A loss of power costs at most the image in the flash. -/
theorem flashCut_frame (s : State) : ∃ flash free, s.flashCut = { s with ident := { s.ident with flash := flash }, free := free } := by
  unfold State.flashCut
  by_cases hbusy : s.ident.fwBusy = true
  · rw [if_pos hbusy]
    unfold State.fresh
    dsimp only
    split
    · exact ⟨_, _, rfl⟩
    · exact ⟨s.ident.flash, _, rfl⟩
  · rw [if_neg hbusy]
    exact ⟨s.ident.flash, s.free, rfl⟩

/-- The auxiliary rail gone, no retained field holds more than its reset value (R475). -/
def auxLost (s : State) : State := State.retained.foldl (fun s f => s.putF f 0 f.rst) s

theorem auxLost_eq (s : State) : auxLost s = s.putBack (State.retained.map fun f => (f, f.rst)) := by
  rw [auxLost, State.putBack, List.foldl_map]

theorem getF_auxLost_retained (s : State) {f : Fld} (hf : f ∈ State.retained) : (auxLost s).getF f 0 = f.rst % 2 ^ (f.hi + 1 - f.lo) := by
  have hwf : ∀ x ∈ State.retained.map fun f => (f, f.rst), x.1.lo ≤ x.1.hi ∧ x.1.hi < 64 := by decide
  rw [auxLost_eq]
  exact State.getF_putBack (List.pairwise_map.mpr State.retained_apart) hwf (List.mem_map_of_mem hf) s

theorem getF_auxLost_stat (s : State) {f : Fld} (hf : f.off 0 = F.PWR_STAT_STATE.base) : (auxLost s).getF f 0 = s.getF f 0 := by
  have hne : ∀ x ∈ State.retained.map fun f => (f, f.rst), F.PWR_STAT_STATE.base ≠ x.1.off 0 := by decide
  rw [auxLost_eq]
  exact State.getF_congr_word (State.word_putBack_ne (by rw [hf]; exact hne) s)

theorem auxLost_regsMay (s : State) : State.RegsMay s (auxLost s) := by
  rw [auxLost_eq]
  exact State.putBack_regsMay _ s

theorem supplyLossIsOff : Claims.SupplyLossIsOff := by
  unfold Claims.SupplyLossIsOff
  rintro s c (rfl | rfl | rfl)
  case inl =>
    obtain ⟨flash, free, hcut⟩ := flashCut_frame s
    have hoff := s.flashCut.enterOff_inOff
    have hexec : exec .inputPowerLoss s = .next { s.flashCut.enterOff with power := { s.flashCut.enterOff.power with main48 := false } } := rfl
    generalize s.flashCut.enterOff = t at *
    rw [hcut] at hoff
    obtain ⟨hmain, haux, htripped, htherm⟩ := hoff.supplies
    obtain ⟨hlc, hslots, hcounter, hsecret⟩ := hoff.ident
    refine ⟨_, hexec, (State.getF_withPower _ _ _ _).trans hoff.state, (State.getF_withPower _ _ _ _).trans hoff.prev, hoff.mem, hoff.sram, hoff.host, hoff.tiles, hlc, hslots, hcounter, hsecret, rfl, haux,
      htripped, htherm, (State.getF_withPower _ _ _ _).trans (hoff.retained F.PWR_WAKE_SOURCE (by decide)), ?_, hoff.out⟩
    exact congrArg (fun x => decide (x = 1)) ((State.getF_withPower _ _ _ _).trans (hoff.retained F.PWR_CTRL_AUTO_ON (by decide)))
  case inr.inl =>
    have hoff := s.enterOff_inOff
    have hexec : exec .auxPowerLoss s = .next { auxLost s.enterOff with power := { (auxLost s.enterOff).power with aux := false, auxQualified := false, wake := none } } := rfl
    generalize s.enterOff = t at *
    have hregs := auxLost_regsMay t
    have hstate : (auxLost t).getF F.PWR_STAT_STATE 0 = t.getF F.PWR_STAT_STATE 0 := getF_auxLost_stat t rfl
    have hprev : (auxLost t).getF F.PWR_STAT_PREV 0 = t.getF F.PWR_STAT_PREV 0 := getF_auxLost_stat t rfl
    have hsource : (auxLost t).getF F.PWR_WAKE_SOURCE 0 = 0 := getF_auxLost_retained t (by decide)
    have hauto : (auxLost t).getF F.PWR_CTRL_AUTO_ON 0 = 0 := getF_auxLost_retained t (by decide)
    generalize auxLost t = u at *
    obtain ⟨hmain, haux, htripped, htherm⟩ := hoff.supplies
    obtain ⟨hlc, hslots, hcounter, hsecret⟩ := hoff.ident
    have hrest : u.mem = t.mem ∧ u.sram = t.sram ∧ u.host = t.host ∧ u.tiles = t.tiles ∧ u.ident = t.ident ∧ u.power = t.power ∧
        u.out = t.out := by
      rw [hregs]; exact ⟨rfl, rfl, rfl, rfl, rfl, rfl, rfl⟩
    obtain ⟨hmem, hsram, hhost, htiles, hident, hpower, hout⟩ := hrest
    refine ⟨_, hexec, ((State.getF_withPower _ _ _ _).trans hstate).trans hoff.state,
      ((State.getF_withPower _ _ _ _).trans hprev).trans hoff.prev, hmem.trans hoff.mem, hsram.trans hoff.sram, hhost.trans hoff.host,
      htiles.trans hoff.tiles, (congrArg Ident.lc hident).trans hlc, (congrArg Ident.slots hident).trans hslots,
      (congrArg Ident.counter hident).trans hcounter, (congrArg Ident.secret hident).trans hsecret,
      (congrArg Power.main48 hpower).trans hmain, rfl, (congrArg Power.tripped hpower).trans htripped,
      (congrArg Power.thermtrip hpower).trans htherm, (State.getF_withPower _ _ _ _).trans hsource, ?_, hout.trans hoff.out⟩
    exact congrArg (fun x => decide (x = 1)) ((State.getF_withPower _ _ _ _).trans hauto)
  case inr.inr =>
    have hoff := (s.emit .thermtripN).enterOff_inOff
    have hexec : exec .thermalTrip s = .next { (s.emit .thermtripN).enterOff with power := { (s.emit .thermtripN).enterOff.power with thermtrip := true, tripped := true, cool := false } } := rfl
    generalize (s.emit .thermtripN).enterOff = t at *
    obtain ⟨hmain, haux, htripped, htherm⟩ := hoff.supplies
    obtain ⟨hlc, hslots, hcounter, hsecret⟩ := hoff.ident
    refine ⟨_, hexec, (State.getF_withPower _ _ _ _).trans hoff.state, (State.getF_withPower _ _ _ _).trans hoff.prev, hoff.mem, hoff.sram, hoff.host, hoff.tiles, hlc, hslots, hcounter, hsecret, hmain, haux,
      rfl, rfl, (State.getF_withPower _ _ _ _).trans (hoff.retained F.PWR_WAKE_SOURCE (by decide)), ?_, hoff.out⟩
    exact congrArg (fun x => decide (x = 1)) ((State.getF_withPower _ _ _ _).trans (hoff.retained F.PWR_CTRL_AUTO_ON (by decide)))

theorem resetPinAndAux : Claims.ResetPinAndAux := by
  unfold Claims.ResetPinAndAux
  constructor
  · intro s hst
    have hreset := s.resetModule_done
    have hexec : exec .perstNAssert s = .next { s.resetModule with power := { s.resetModule.power with perst := true, thermtrip := false, from_ := s.getF F.PWR_STAT_STATE 0 } } :=
      congrArg Host.Outcome.next (if_neg hst)
    generalize s.resetModule = t at *
    obtain ⟨keys, draws, hident⟩ := hreset.ident
    have hwith := t.getF_withPower { t.power with perst := true, thermtrip := false, from_ := s.getF F.PWR_STAT_STATE 0 }
    have hword : ∀ (f : Fld) (i : Nat), 0x300000 ≤ f.off i → State.getF _ f i = getBits (regReset (f.off i)) f.hi f.lo := fun f i h => by
      have hlow : ∀ g ∈ State.retained, g.off 0 < 0x300000 := by decide
      rw [hwith f i, State.getF, hreset.word _ (by simp only [F.SEC_STATE_LC]; omega) fun g hg => by have := hlow g hg; omega]
    have hkept := fun (f : Fld) (hf : f ∈ State.retained) => (hwith f 0).trans (hreset.retained f hf)
    refine ⟨_, hexec, rfl, rfl, hreset.mem, hreset.tiles, hreset.parts, hreset.host, (congrArg Ident.lc hident :), (congrArg Ident.slots hident :),
      hkept F.PWR_WAKE_SOURCE (by decide), hkept F.PWR_CTRL_AUTO_ON (by decide), hkept F.SEC_REC_CTRL_REQ (by decide), ?bn, fun p hp => ⟨?running, ?step⟩⟩
    case bn => exact (hword F.PLN_BN_BN 0 (by decide)).trans (by decide +kernel)
    case running =>
      have hrst : ∀ p < 8, getBits (regReset (F.PLN_CTRL_RUN.off p)) F.PLN_CTRL_RUN.hi F.PLN_CTRL_RUN.lo = 0 := by decide +kernel
      exact congrArg (fun x => decide (x = 1)) ((hword F.PLN_CTRL_RUN p (by simp only [Fld.off, F.PLN_CTRL_RUN]; omega)).trans (hrst p hp))
    case step =>
      have hrst : ∀ p < 8, getBits (regReset (F.PLN_STEP_STEP.off p)) F.PLN_STEP_STEP.hi F.PLN_STEP_STEP.lo = 0 := by decide +kernel
      exact (hword F.PLN_STEP_STEP p (by simp only [Fld.off, F.PLN_STEP_STEP]; omega)).trans (hrst p hp)
  · intro s haux
    exact congrArg Host.Outcome.next (if_neg (by simp [haux]))

/-- Settles O59: a reset empties the module and puts the retained fields back, and Off and a cold boot are what is put on top. -/
theorem suppliesAndBoot : Obligations.SuppliesAndBoot := by
  unfold Obligations.SuppliesAndBoot
  exact ⟨coldBootBegins, supplyLossIsOff, resetPinAndAux⟩

end Sys2Proof
end

section
/-! Host queues (O49): host memory, and what a doorbell, an idle mover, an arming and an abort do. -/

namespace Sys2Proof.Machine
namespace State

variable (s : State)

/-! ## Host memory -/

theorem hrd8_hwr8_self (a : Nat) (b : Byte) : (s.hwr8 a b).hrd8 a = b := mget_mput_self _ _ _ _

theorem hrd8_hwr8_ne {a x : Nat} (b : Byte) (h : x ≠ a) : (s.hwr8 a b).hrd8 x = s.hrd8 x := mget_mput_ne _ _ _ h

/-- A byte of host memory after a write of several. -/
theorem hrd8_hwr (a : Nat) (bs : List Byte) (x : Nat) :
    (s.hwr a bs).hrd8 x = if a ≤ x ∧ x < a + bs.length then bs.getD (x - a) 0 else s.hrd8 x := by
  induction bs generalizing s a with
  | nil => rw [if_neg (by simp)]; rfl
  | cons b bs ih =>
    rw [hwr, ih, List.length_cons]
    by_cases hx : x = a
    · subst hx
      rw [if_neg (by omega), hrd8_hwr8_self, if_pos (by omega), Nat.sub_self]
      rfl
    · rw [hrd8_hwr8_ne _ _ hx]
      by_cases hin : a + 1 ≤ x ∧ x < a + 1 + bs.length
      · rw [if_pos hin, if_pos (by omega), show x - a = x - (a + 1) + 1 by omega, List.getD_cons_succ]
      · rw [if_neg hin, if_neg (by omega)]

theorem hrd_congr {s t : State} {a n : Nat} (h : ∀ x, a ≤ x → x < a + n → t.hrd8 x = s.hrd8 x) : t.hrd a n = s.hrd a n := by
  induction n generalizing a with
  | zero => rfl
  | succ n ih => rw [hrd, hrd, h a (by omega) (by omega), ih fun x hx hx' => h x (by omega) (by omega)]

theorem hwr_frame (a : Nat) (bs : List Byte) : s.hwr a bs = { s with host := (s.hwr a bs).host } := by
  induction bs generalizing s a with
  | nil => rfl
  | cons b bs ih => rw [hwr, ih]; rfl

/-- What has been written is read back. -/
theorem hrd_hwr (a : Nat) (bs : List Byte) : (s.hwr a bs).hrd a bs.length = bs := by
  induction bs generalizing s a with
  | nil => rfl
  | cons b bs ih =>
    rw [hwr, List.length_cons, hrd, hrd8_hwr, if_neg (by omega), hrd8_hwr8_self, ih]

/-! ## Messages of a queue -/

theorem signalQ_out (q : Nat) : ∃ fn e, s.signalQ q = { s with out := .msix fn e :: s.out } := by
  unfold signalQ emit
  split
  · exact ⟨_, _, rfl⟩
  · exact ⟨_, _, rfl⟩

/-! ## Offsets -/

theorem status_off (q : Nat) : F.DMA_QSTATUS_PENDING.off q = 0x400_0018 + 0x1000 * q := by
  simp only [Fld.off, F.DMA_QSTATUS_PENDING]; omega

end State
end Sys2Proof.Machine

namespace Sys2Proof

open Machine
open Machine (State)

/-! ## `DMA_QRING` (R358) -/

/-- What a doorbell does to an open queue register. -/
def rung (s : State) (q : Nat) (v : Word) : State :=
  if !s.flag F.DMA_QCFG_EN q ∨ ¬ s.moverFor (s.getF F.DMA_QCFG_MOVER q) q ∨ (s.mover (s.getF F.DMA_QCFG_MOVER q)).frozen then
    s.putF F.DMA_QSTATUS_REFUSED q 1
  else if 64 ≤ s.getF F.DMA_QSTATUS_PENDING q then s.putF F.DMA_QSTATUS_OVF q 1
  else ((s.modQueue q fun x => { x with chains := x.chains ++ [v] }).putF F.DMA_QSTATUS_PENDING q
    (s.getF F.DMA_QSTATUS_PENDING q + 1)).arriveWork

/-- R358: a chain that is taken is the queue's last, and counted. -/
theorem queueTakesChain (s : State) (f : Func) (q : Nat) (v : Word) (hopen : Open s f (0x400_0000 + 0x1000 * q)) :
    let h := s.getF F.DMA_QCFG_MOVER q
    let runs : Bool := s.flag F.DMA_QCFG_EN q && s.moverFor h q && !(s.mover h).frozen
    ∃ u, exec (.dmaQring f q v) s = .next u ∧
      (runs = true → s.getF F.DMA_QSTATUS_PENDING q < 64 →
        u.queue q = { s.queue q with chains := (s.queue q).chains ++ [v] } ∧
        u.getF F.DMA_QSTATUS_PENDING q = s.getF F.DMA_QSTATUS_PENDING q + 1) ∧
      (runs = true → 64 ≤ s.getF F.DMA_QSTATUS_PENDING q → u.flag F.DMA_QSTATUS_OVF q = true ∧ u.queues = s.queues) ∧
      (runs = false → u.flag F.DMA_QSTATUS_REFUSED q = true ∧ u.queues = s.queues) ∧ u.mem = s.mem ∧ u.host = s.host ∧
      u.movers = s.movers ∧ u.parts = s.parts ∧ ∀ j, j ≠ q → u.queue j = s.queue j := by
  intro h runs
  have hexec : exec (.dmaQring f q v) s = .next (rung s q v) := congrArg Host.Outcome.next (s.gated_of_open hopen _)
  have hcond : (!s.flag F.DMA_QCFG_EN q ∨ ¬ s.moverFor (s.getF F.DMA_QCFG_MOVER q) q ∨ (s.mover (s.getF F.DMA_QCFG_MOVER q)).frozen) ↔
      runs = false := by
    simp only [runs, h]
    grind
  refine ⟨_, hexec, ?_⟩
  rw [rung, ite_congr (propext hcond) (fun _ => rfl) fun _ => rfl]
  cases runs with
  | false =>
    rw [if_pos rfl]
    exact ⟨fun hno => absurd hno (by decide), fun hno => absurd hno (by decide),
      fun _ => ⟨State.flag_putF_one _ _ _ (by decide) (by decide), rfl⟩, rfl, rfl, rfl, rfl, fun _ _ => rfl⟩
  | true =>
    rw [if_neg (by decide)]
    by_cases hfull : 64 ≤ s.getF F.DMA_QSTATUS_PENDING q
    · rw [if_pos hfull]
      exact ⟨fun _ hlt => absurd hfull (by omega), fun _ _ => ⟨State.flag_putF_one _ _ _ (by decide) (by decide), rfl⟩,
        fun hno => absurd hno (by decide), rfl, rfl, rfl, rfl, fun _ _ => rfl⟩
    · rw [if_neg hfull, State.modQueue_eq]
      have hpend : ((s.setQueue q { s.queue q with chains := (s.queue q).chains ++ [v] }).putF F.DMA_QSTATUS_PENDING q
          (s.getF F.DMA_QSTATUS_PENDING q + 1)).getF F.DMA_QSTATUS_PENDING q = s.getF F.DMA_QSTATUS_PENDING q + 1 := by
        rw [State.getF_putF _ _ _ _ (by decide) (by decide)]
        exact Nat.mod_eq_of_lt (show s.getF F.DMA_QSTATUS_PENDING q + 1 < 128 by omega)
      have hrest : ∀ x n, ((s.setQueue q x).putF F.DMA_QSTATUS_PENDING q n).queues = (s.setQueue q x).queues ∧
          ((s.setQueue q x).putF F.DMA_QSTATUS_PENDING q n).mem = s.mem ∧ ((s.setQueue q x).putF F.DMA_QSTATUS_PENDING q n).host = s.host ∧
          ((s.setQueue q x).putF F.DMA_QSTATUS_PENDING q n).movers = s.movers ∧
          ((s.setQueue q x).putF F.DMA_QSTATUS_PENDING q n).parts = s.parts := fun _ _ => ⟨rfl, rfl, rfl, rfl, rfl⟩
      obtain ⟨hqueues, hmem, hhost, hmovers, hparts⟩ := hrest { s.queue q with chains := (s.queue q).chains ++ [v] } (s.getF F.DMA_QSTATUS_PENDING q + 1)
      generalize (s.setQueue q { s.queue q with chains := (s.queue q).chains ++ [v] }).putF F.DMA_QSTATUS_PENDING q
        (s.getF F.DMA_QSTATUS_PENDING q + 1) = t at *
      have hwork := State.PowerOnly.arriveWork t
      have hqueue : ∀ j, t.arriveWork.queue j = (s.setQueue q { s.queue q with chains := (s.queue q).chains ++ [v] }).queue j := fun j => by
        rw [State.queue, hwork.frame, hqueues]; rfl
      refine ⟨fun _ _ => ⟨(hqueue q).trans (State.queue_setQueue s q _), ?_⟩, fun _ hge => absurd hge hfull, fun hno => absurd hno (by decide),
        ?_, ?_, ?_, ?_, fun j hj => (hqueue j).trans (State.queue_setQueue_ne s _ hj)⟩
      · rw [State.getF_congr_word (hwork.word _ (by rw [State.status_off]; omega)), hpend]
      · rw [hwork.frame]; exact hmem
      · rw [hwork.frame]; exact hhost
      · rw [hwork.frame]; exact hmovers
      · rw [hwork.frame]; exact hparts

/-! ## An idle mover (R358, R411) -/

theorem idleMoverTakes {s : State} {h q : Nat} {a : Word} {rest : List Word} (hh : h < 32) (hidle : (s.mover h).chain = none)
    (hfrozen : (s.mover h).frozen = false) (hnext : s.nextQueue h = some q) (hchains : (s.queue q).chains = a :: rest) :
    (s.flag F.PRT_STATE_WIPING (s.getF F.DMA_MCFG_OWNER h) = true → exec (.moverChainStart h) s = .next s) ∧
    (s.flag F.PRT_STATE_WIPING (s.getF F.DMA_MCFG_OWNER h) = false → exec (.moverChainStart h) s =
      .next (((s.setQueue q { s.queue q with chains := rest }).setMover h { s.mover h with lastQ := some q, chain := some { queue := some q, part := q / 32, task := State.noTask, addr := a, desc := none, written := 0, abort := false } }).putF F.DMA_MSTAT_STATE h 1)) := by
  constructor
  · intro hwiping
    exact congrArg Host.Outcome.next (if_pos (by simp [hwiping]))
  · intro hwiping
    refine congrArg Host.Outcome.next ((if_neg (by simp [hwiping, hidle, hfrozen, hh])).trans ?_)
    rw [hnext]
    dsimp only
    rw [hchains]
    rfl

/-! ## `DMA_QABORT` (R371) -/

/-- The mover that runs a chain of the queue. -/
def runningMover (s : State) (q : Nat) : Option Nat := (List.range 32).find? fun h => (s.mover h).chain.any fun k => k.queue = some q

/-- The only pending chain given up: its descriptor takes status 8 and the queue is empty. -/
def givenUp (s : State) (q : Nat) (a : Word) : State :=
  (((s.hwr (spaceAddr a + 0x3A) [8]).setQueue q { s.queue q with chains := [] }).putF F.DMA_QSTATUS_PENDING q
    (s.getF F.DMA_QSTATUS_PENDING q - 1))

theorem exec_abortOne {s : State} {f : Func} {q : Nat} {a : Word} (hopen : Open s f (0x400_0010 + 0x1000 * q))
    (hchains : (s.queue q).chains = [a]) (hhost : isHost a = true) (hrange : spaceAddr a + 64 ≤ 2 ^ 63) :
    exec (.dmaQabort f q) s = .next (match runningMover s q with
      | some h => (givenUp s q a).modMover h fun m => { m with chain := m.chain.map fun k => { k with abort := true } }
      | none => (givenUp s q a).signalQ q) := by
  have hreach : s.descReach (q / 32) a true = true := by
    rw [State.descReach, if_pos hhost]
    exact decide_eq_true hrange
  have hfold : [a].foldl (fun s a => if s.descReach (q / 32) a true then
        (if isHost a then s.hwr (spaceAddr a + 0x3A) [8] else s.wr (spaceAddr a + 0x3A) [8]) else s) s = s.hwr (spaceAddr a + 0x3A) [8] :=
    (if_pos hreach).trans (if_pos hhost)
  refine congrArg Host.Outcome.next ((s.gated_of_open hopen _).trans ?_)
  dsimp only
  rw [hchains, hfold]
  rfl

/-- What giving up the only pending chain leaves. -/
structure GivenUp (s : State) (q : Nat) (a : Word) (t : State) : Prop where
  queue : t.queue q = { s.queue q with chains := [] }
  status : t.hrd (spaceAddr a + 0x3A) 1 = [8]
  host : ∀ b, b ≠ spaceAddr a + 0x3A → t.hrd8 b = s.hrd8 b
  pending : t.getF F.DMA_QSTATUS_PENDING q = s.getF F.DMA_QSTATUS_PENDING q - 1
  mem : t.mem = s.mem
  mover : ∀ h, t.mover h = s.mover h
  movers : t.movers = s.movers
  out : t.out = s.out
  others : ∀ j, j ≠ q → t.queue j = s.queue j

theorem givenUp_facts (s : State) (q : Nat) (a : Word) : GivenUp s q a (givenUp s q a) := by
  have hlt : s.getF F.DMA_QSTATUS_PENDING q < 128 := s.getF_lt _ _
  refine ⟨State.queue_setQueue (s.hwr (spaceAddr a + 0x3A) [8]) q _, s.hrd_hwr (spaceAddr a + 0x3A) [8],
    fun b hb => s.hrd8_hwr8_ne 8 hb, ?_, rfl, fun _ => rfl, rfl, rfl,
    fun j hj => State.queue_setQueue_ne (s.hwr (spaceAddr a + 0x3A) [8]) _ hj⟩
  rw [givenUp, State.getF_putF _ _ _ _ (by decide) (by decide)]
  exact Nat.mod_eq_of_lt (show s.getF F.DMA_QSTATUS_PENDING q - 1 < 128 by omega)

/-- Settles O49: a doorbell, an idle mover, an arming and an abort each change one queue, its status and what runs it. -/
theorem queuesTakeChains : Obligations.QueuesTakeChains := by
  unfold Obligations.QueuesTakeChains
  refine ⟨fun s f q v _ hopen => queueTakesChain s f q v hopen, ?idle, ?arm, ?abort⟩
  case idle =>
    intro s h q a rest hh hidle hfrozen hnext hchains
    obtain ⟨hstands, htakes⟩ := idleMoverTakes hh hidle hfrozen hnext hchains
    refine ⟨hstands, fun hwiping => ⟨_, htakes hwiping, ?_⟩⟩
    have hframe : ∀ (x : Queue) (y : Mover), ((s.setQueue q x).setMover h y).queues = (s.setQueue q x).queues ∧
        ((s.setQueue q x).setMover h y).movers = (s.setMover h y).movers := fun _ _ => ⟨rfl, rfl⟩
    have hput := State.RegsMay.putF
    have hstat : ∀ t : State, (t.putF F.DMA_MSTAT_STATE h 1).getF F.DMA_MSTAT_STATE h = 1 := fun t =>
      State.getF_putF t F.DMA_MSTAT_STATE h 1 (by decide) (by decide)
    refine ⟨State.queue_setQueue s q _, ?_, ?_, hstat _, ?_, fun j hj => State.queue_setQueue_ne s _ hj,
      fun j hj => (State.mover_putF _ _ _ _ _).trans (State.mover_setMover_ne _ _ hj), fun o ho => State.word_putF_ne _ _ _ _ ho⟩
    · rw [State.mover_putF, State.mover_setMover]
    · rw [State.mover_putF, State.mover_setMover]
    · rfl
  case arm =>
    intro s f q v _ hopen
    have hexec : exec (.dmaQarm f q v) s = .next (s.modQueue q fun x => if x.wState = 1 then { x with wStep := v.toNat }
        else { x with wStep := v.toNat, wState := 1, wLen := 0, wDigest := 0 }) := congrArg Host.Outcome.next (s.gated_of_open hopen _)
    rw [State.modQueue_eq] at hexec
    refine ⟨_, hexec, ?_⟩
    rw [State.queue_setQueue]
    by_cases hw : (s.queue q).wState = 1
    · rw [if_pos hw]
      exact ⟨hw, rfl, rfl, fun hne => absurd hw hne, rfl, fun j hj => State.queue_setQueue_ne s _ hj⟩
    · rw [if_neg hw]
      exact ⟨rfl, rfl, rfl, fun _ => ⟨rfl, rfl⟩, rfl, fun j hj => State.queue_setQueue_ne s _ hj⟩
  case abort =>
    intro s f q a _ hopen hchains hhost hrange hpend
    have hexec := exec_abortOne hopen hchains hhost hrange
    have hgiven := givenUp_facts s q a
    generalize givenUp s q a = t at *
    cases hrun : runningMover s q with
    | some h =>
      rw [hrun] at hexec
      dsimp only at hexec
      have hpred := List.find?_some hrun
      have hlt := List.mem_range.mp (List.mem_of_find?_eq_some hrun)
      refine ⟨_, hexec, hgiven.queue, hgiven.status, hgiven.host, hgiven.pending, hgiven.mem, ?single, ?unrun, hgiven.others⟩
      case single =>
        intro h' k hh' hk hkq honly
        have heq : h = h' := by
          by_contra hne
          have hthis := honly h hlt hne
          cases hc : (s.mover h).chain with
          | none => rw [hc] at hpred; exact absurd hpred Bool.false_ne_true
          | some k' =>
            rw [hc] at hpred hthis
            exact hthis (of_decide_eq_true hpred)
        subst heq
        rw [State.modMover_eq, State.mover_setMover, hgiven.mover, hk]
        exact ⟨rfl, hgiven.out⟩
      case unrun =>
        intro hnone
        have hthis := hnone h hlt
        cases hc : (s.mover h).chain with
        | none => rw [hc] at hpred; exact absurd hpred Bool.false_ne_true
        | some k' =>
          rw [hc] at hpred hthis
          exact absurd (of_decide_eq_true hpred) hthis
    | none =>
      rw [hrun] at hexec
      dsimp only at hexec
      obtain ⟨fn, e, hsignal⟩ := t.signalQ_out q
      have hexec' := hexec.trans (congrArg Host.Outcome.next hsignal)
      refine ⟨_, hexec', hgiven.queue, hgiven.status, hgiven.host, hgiven.pending, hgiven.mem, ?single, ?unrun, hgiven.others⟩
      case single =>
        intro h k hh hk hkq _
        have hno := List.find?_eq_none.mp hrun h (List.mem_range.mpr hh)
        rw [hk] at hno
        exact absurd (decide_eq_true hkq) hno
      case unrun => exact fun _ => ⟨⟨fn, e, congrArg (_ :: ·) hgiven.out⟩, hgiven.movers⟩

end Sys2Proof
end

section
/-! BAR2 windows and the set-up of a mover (O50). -/

namespace Sys2Proof.Machine

/-- Below the result buffers no address is one of them. -/
theorem whereIs_of_lt {a : Nat} (h : a < resultBase) (q : Nat) : whereIs a ≠ .result q := by
  unfold whereIs
  split_ifs with h1 h2 h3 h4 h5 h6
  all_goals first | exact fun hno => Where.noConfusion hno | omega

namespace State

theorem wrDev8_of_lt (s : State) {a : Nat} (h : a < resultBase) (task : Nat) (b : Byte) : s.wrDev8 task a b = s.wr8 a b := by
  unfold wrDev8
  split
  case h_1 q hq => exact absurd hq (whereIs_of_lt h q)
  case h_2 => rfl

/-- Below the result buffers a device write is a write of memory. -/
theorem wrDev_of_lt (s : State) {a : Nat} {b : List Byte} (h : a + b.length ≤ resultBase) (task : Nat) :
    s.wrDev task a b = s.wr a b := by
  induction b generalizing s a with
  | nil => rfl
  | cons b bs ih =>
    rw [List.length_cons] at h
    rw [wrDev, wrDev8_of_lt s (by omega), ih _ (by omega), wr]

/-! ## The freeze log (R408) -/

/-- An entry in a partition's freeze log: what it changes beside the count of frozen masters and the event. -/
structure FrzLogged (s : State) (p type idx : Nat) (write : Bool) (addr : Nat) (t : State) : Prop where
  frame : t = { s with regs := t.regs, parts := t.parts, out := t.out }
  out : ∃ fn e, t.out = .msix fn e :: s.out
  log : (s.part p).frzLog.length < 64 →
    (t.part p).frzLog = (s.part p).frzLog ++ [{ type := type, index := idx, write := write, addr := addr, bn := s.bn }]
  field : ∀ (f : Fld) (i : Nat), Apart f i F.PRT_FRZ_INFO_LOST p → Apart f i F.PRT_STATE_FROZEN p → Apart f i F.DMA_PEVT_CAUSE p →
    t.getF f i = s.getF f i
  lowest : ∀ (f : Fld) (i : Nat), f.hi = 0 → f.lo = 0 → Apart f i F.PRT_FRZ_INFO_LOST p → Apart f i F.PRT_STATE_FROZEN p →
    s.getF f i = 1 → t.getF f i = 1

/-- The log itself: an entry is put behind the others, or counted as lost. -/
def frzEntered (s : State) (p type idx : Nat) (write : Bool) (addr : Nat) : State :=
  if (s.part p).frzLog.length < 64 then s.modPart p fun x =>
    { x with frzLog := (s.part p).frzLog ++ [{ type := type, index := idx, write := write, addr := addr, bn := s.bn }] }
  else s.bump F.PRT_FRZ_INFO_LOST p

theorem freezeLog_eq (s : State) (p type idx : Nat) (write : Bool) (addr : Nat) : s.freezeLog p type idx write addr =
    ((s.frzEntered p type idx write addr).putF F.PRT_STATE_FROZEN p
      ((s.frzEntered p type idx write addr).getF F.PRT_STATE_FROZEN p + 1)).pevt p 2 := rfl

theorem pevt_out (s : State) (p bit : Nat) : ∃ fn e, s.pevt p bit =
    { s.putF F.DMA_PEVT_CAUSE p (s.getF F.DMA_PEVT_CAUSE p ||| 2 ^ bit) with out := .msix fn e :: s.out } := by
  unfold pevt
  obtain ⟨fn, e, h⟩ := (s.putF F.DMA_PEVT_CAUSE p (s.getF F.DMA_PEVT_CAUSE p ||| 2 ^ bit)).signalQ_out
    (32 * p + (s.putF F.DMA_PEVT_CAUSE p (s.getF F.DMA_PEVT_CAUSE p ||| 2 ^ bit)).getF F.DMA_PEVT_VEC p)
  exact ⟨fn, e, h⟩

theorem getF_pevt_apart (s : State) {f : Fld} {i p : Nat} (bit : Nat) (h : Apart f i F.DMA_PEVT_CAUSE p) :
    (s.pevt p bit).getF f i = s.getF f i := by
  unfold pevt
  rw [getF_signalQ, getF_putF_apart _ _ h]

/-- Bit 0 of a register is that of its lowest field. -/
theorem getBits_zero_of_low (w : Word) (hi : Nat) : getBits w 0 0 = getBits w hi 0 % 2 := by
  apply Nat.eq_of_testBit_eq
  intro i
  rw [getBits_testBit, show (2 : Nat) = 2 ^ 1 from rfl, Nat.testBit_mod_two_pow, getBits_testBit]
  by_cases hz : i = 0
  · simp [hz]
  · simp [hz]

/-- An event only adds to the causes, so bit 0 of its register stays 1. -/
theorem getF_pevt_lowest (s : State) {f : Fld} {i : Nat} (p : Nat) (hhi : f.hi = 0) (hlo : f.lo = 0) (h : s.getF f i = 1) :
    (s.pevt p 2).getF f i = 1 := by
  by_cases hoff : f.off i = F.DMA_PEVT_CAUSE.off p
  · have hcause : ∀ t : State, t.getF f i = t.getF F.DMA_PEVT_CAUSE p % 2 := fun t => by
      rw [getF, getF, hoff, hhi, hlo]
      exact getBits_zero_of_low _ _
    rw [hcause] at h ⊢
    have hput := s.getF_putF F.DMA_PEVT_CAUSE p (s.getF F.DMA_PEVT_CAUSE p ||| 2 ^ 2) (by decide) (by decide)
    have hadd : ∀ c < 16, c % 2 = 1 → (c ||| 2 ^ 2) % 2 ^ (3 + 1 - 0) % 2 = 1 := by decide
    unfold pevt
    rw [getF_signalQ, hput]
    exact hadd _ (s.getF_lt _ _) h
  · rw [getF_pevt_apart s 2 (.inl hoff), h]

theorem freezeLog_logged (s : State) (p type idx : Nat) (write : Bool) (addr : Nat) :
    FrzLogged s p type idx write addr (s.freezeLog p type idx write addr) := by
  have henter : s.frzEntered p type idx write addr = { s with
      regs := (s.frzEntered p type idx write addr).regs, parts := (s.frzEntered p type idx write addr).parts } := by
    unfold frzEntered; split <;> rfl
  have hlog : (s.part p).frzLog.length < 64 → ((s.frzEntered p type idx write addr).part p).frzLog =
      (s.part p).frzLog ++ [{ type := type, index := idx, write := write, addr := addr, bn := s.bn }] := by
    intro h
    rw [frzEntered, if_pos h, modPart_eq, part_setPart]
  have hfield : ∀ (f : Fld) (i : Nat), Apart f i F.PRT_FRZ_INFO_LOST p → (s.frzEntered p type idx write addr).getF f i = s.getF f i := by
    intro f i h
    unfold frzEntered
    split
    · rfl
    · exact getF_putF_apart _ _ h
  rw [freezeLog_eq]
  generalize s.frzEntered p type idx write addr = b at *
  have hfield' := fun (f : Fld) (i : Nat) (hlost : Apart f i F.PRT_FRZ_INFO_LOST p) (hfrozen : Apart f i F.PRT_STATE_FROZEN p) =>
    (getF_putF_apart b (b.getF F.PRT_STATE_FROZEN p + 1) hfrozen).trans (hfield f i hlost)
  have hregs := RegsMay.putF b F.PRT_STATE_FROZEN p (b.getF F.PRT_STATE_FROZEN p + 1)
  generalize b.putF F.PRT_STATE_FROZEN p (b.getF F.PRT_STATE_FROZEN p + 1) = c at *
  obtain ⟨fn, e, hpevt⟩ := c.pevt_out p 2
  refine ⟨?_, ⟨fn, e, ?_⟩, fun h => ?_, fun f i hlost hfrozen hcause => ?_, fun f i hhi hlo hlost hfrozen hone => ?_⟩
  · rw [hpevt, hregs, henter]; rfl
  · rw [hpevt, hregs, henter]
  · rw [← hlog h, hpevt, hregs]; rfl
  · rw [getF_pevt_apart c 2 hcause, hfield' f i hlost hfrozen]
  · exact getF_pevt_lowest c p hhi hlo ((hfield' f i hlost hfrozen).trans hone)

end State
end Sys2Proof.Machine

namespace Sys2Proof

open Machine
open Machine (State)

/-! ## Windows (R355, R356, R399) -/

section
variable {s : State} {f : Func} {off w o n : Nat}

theorem exec_bar2_write (htaken : Taken s f) (hrec : s.flag F.GEN_STATUS_RECOVERY 0 = false) (hwin : State.barWindow f off = some (w, o))
    (b : List Byte) : exec (.bar2WindowAccess f off (some b) n) s = .next (
      if !s.blockOpen 0x40_0000 ∨ ¬ s.flag F.DMA_WIN_EN w ∨ s.flag F.DMA_WIN_FROZEN w ∨
        2 ^ 48 < s.getF F.DMA_WIN_BASE w * 2 ^ 16 + o + b.length ∨ s.flag F.PRT_STATE_WIPING (w / 2) then s.barOnes off (some b) b.length
      else s.barAccess w off (s.getF F.DMA_WIN_BASE w * 2 ^ 16 + o) (some b) b.length) := by
  change execBar2WindowAccess f off (some b) n s = _
  unfold execBar2WindowAccess
  rw [s.tlpIn_of_taken htaken]
  dsimp only
  rw [if_neg (by decide), if_neg (by simp [hrec]), hwin]

theorem exec_bar2_read (htaken : Taken s f) (hrec : s.flag F.GEN_STATUS_RECOVERY 0 = false) (hwin : State.barWindow f off = some (w, o)) :
    exec (.bar2WindowAccess f off none n) s = .next (
      if !s.blockOpen 0x40_0000 ∨ ¬ s.flag F.DMA_WIN_EN w ∨ s.flag F.DMA_WIN_FROZEN w ∨
        2 ^ 48 < s.getF F.DMA_WIN_BASE w * 2 ^ 16 + o + n ∨ s.flag F.PRT_STATE_WIPING (w / 2) then s.barOnes off none n
      else s.barAccess w off (s.getF F.DMA_WIN_BASE w * 2 ^ 16 + o) none n) := by
  change execBar2WindowAccess f off none n s = _
  unfold execBar2WindowAccess
  rw [s.tlpIn_of_taken htaken]
  dsimp only
  rw [if_neg (by decide), if_neg (by simp [hrec]), hwin]

/-- The state in which an access in bounds is carried out: one to a cluster is work that arrives. -/
def reached (s : State) (a : Nat) : State :=
  match whereIs a with
  | .cluster .. => s.arriveWork
  | _ => s

theorem reached_powerOnly (s : State) (a : Nat) : State.PowerOnly s (reached s a) := by
  unfold reached
  split
  · exact .arriveWork s
  · exact .refl s

theorem barAccess_writes {s : State} {a : Nat} (b : List Byte) (hown : s.ownsRange (w / 2) a n true = true) :
    s.barAccess w off a (some b) n = (reached s a).wrDev State.noTask a b := by
  have hbad : s.firstBad (w / 2) true (n / 256 + 2) a n = none := Option.isNone_iff_eq_none.mp hown
  unfold State.barAccess
  rw [show (some b).isSome = true from rfl, hbad]
  rfl

theorem barAccess_reads {s : State} {a : Nat} (hown : s.ownsRange (w / 2) a n false = true) :
    s.barAccess w off a none n = (reached s a).emit (.winData off ((reached s a).rd a n)) := by
  have hbad : s.firstBad (w / 2) false (n / 256 + 2) a n = none := Option.isNone_iff_eq_none.mp hown
  unfold State.barAccess
  rw [show (none : Option (List Byte)).isSome = false from rfl, hbad]
  rfl

theorem barAccess_outside {s : State} {a : Nat} (hown : s.ownsRange (w / 2) a n false = false) :
    ∃ b, s.barAccess w off a none n =
      ((s.putF F.DMA_WIN_FROZEN w 1).freezeLog (w / 2) 5 w false b).emit (.winData off (List.replicate n 0xFF)) := by
  obtain ⟨b, hbad⟩ := Option.ne_none_iff_exists'.mp (fun h => by
    rw [State.ownsRange, h] at hown; exact absurd hown (by decide) : s.firstBad (w / 2) false (n / 256 + 2) a n ≠ none)
  refine ⟨b, ?_⟩
  unfold State.barAccess
  rw [show (none : Option (List Byte)).isSome = false from rfl, hbad]
  rfl

theorem windowWrites (htaken : Taken s f) (hwin : State.barWindow f off = some (w, o)) (hrec : s.flag F.GEN_STATUS_RECOVERY 0 = false)
    (hwiping : s.flag F.PRT_STATE_WIPING (w / 2) = false) (hblock : s.blockOpen 0x40_0000 = true) (hen : s.flag F.DMA_WIN_EN w = true)
    (hfrozen : s.flag F.DMA_WIN_FROZEN w = false) (b : List Byte) {a : Nat} (ha : a = s.getF F.DMA_WIN_BASE w * 2 ^ 16 + o)
    (hrange : a + b.length ≤ resultBase) (hown : s.ownsRange (w / 2) a b.length true = true) :
    ∃ u, exec (.bar2WindowAccess f off (some b) n) s = .next u ∧ u.rd a b.length = b ∧
      (∀ x, ¬ (a ≤ x ∧ x < a + b.length) → u.rd8 x = s.rd8 x) ∧ u.out = s.out ∧ u.host = s.host ∧
      u.parts = s.parts ∧ u.queues = s.queues := by
  have hfit : ¬ 2 ^ 48 < a + b.length := by simp only [resultBase] at hrange; omega
  have hexec := exec_bar2_write (n := n) htaken hrec hwin b
  rw [← ha, if_neg (by simp [hblock, hen, hfrozen, hwiping]; omega), barAccess_writes b hown] at hexec
  rw [(reached s a).wrDev_of_lt hrange] at hexec
  have hreach := reached_powerOnly s a
  generalize reached s a = t at *
  have hwrite := (MemOnly.refl t).wr a b
  refine ⟨_, hexec, t.rd_wr a b, fun x hx => ?_, ?_, ?_, ?_, ?_⟩
  · exact (t.rd8_wr_ne a x b (by omega)).trans (State.rd8_congr (show t.mem = s.mem by rw [hreach.frame]) x)
  · rw [hwrite.frame, hreach.frame]
  · rw [hwrite.frame, hreach.frame]
  · rw [hwrite.frame, hreach.frame]
  · rw [hwrite.frame, hreach.frame]

theorem windowReads (htaken : Taken s f) (hwin : State.barWindow f off = some (w, o)) (hrec : s.flag F.GEN_STATUS_RECOVERY 0 = false)
    (hwiping : s.flag F.PRT_STATE_WIPING (w / 2) = false) (hblock : s.blockOpen 0x40_0000 = true) (hen : s.flag F.DMA_WIN_EN w = true)
    (hfrozen : s.flag F.DMA_WIN_FROZEN w = false) {a : Nat} (ha : a = s.getF F.DMA_WIN_BASE w * 2 ^ 16 + o) (hrange : a + n ≤ 2 ^ 48) :
    (s.ownsRange (w / 2) a n false = true →
      ∃ u, exec (.bar2WindowAccess f off none n) s = .next u ∧ u.out = .winData off (s.rd a n) :: s.out ∧
        u.mem = s.mem ∧ u.host = s.host ∧ u.parts = s.parts) ∧
    (s.ownsRange (w / 2) a n false = false →
      ∃ u, exec (.bar2WindowAccess f off none n) s = .next u ∧ u.flag F.DMA_WIN_FROZEN w = true ∧
        u.out.head? = some (.winData off (List.replicate n 0xFF)) ∧ MemSame s u ∧
        ((s.part (w / 2)).frzLog.length < 64 → ∃ x, (u.part (w / 2)).frzLog = (s.part (w / 2)).frzLog ++ [x] ∧
          x.type = 5 ∧ x.index = w ∧ x.write = false)) := by
  have hexec := exec_bar2_read (n := n) htaken hrec hwin
  rw [← ha, if_neg (by simp [hblock, hen, hfrozen, hwiping]; omega)] at hexec
  constructor
  · intro hown
    rw [barAccess_reads hown] at hexec
    have hreach := reached_powerOnly s a
    generalize reached s a = t at *
    rw [State.rd_congr (show t.mem = s.mem by rw [hreach.frame])] at hexec
    refine ⟨_, hexec, ?_, ?_, ?_, ?_⟩
    · rw [hreach.frame]; rfl
    · rw [hreach.frame]; rfl
    · rw [hreach.frame]; rfl
    · rw [hreach.frame]; rfl
  · intro hown
    obtain ⟨b, hbar⟩ := barAccess_outside (off := off) hown
    rw [hbar] at hexec
    have hput := s.getF_putF F.DMA_WIN_FROZEN w 1 (by decide) (by decide)
    have hregs := State.RegsMay.putF s F.DMA_WIN_FROZEN w 1
    generalize s.putF F.DMA_WIN_FROZEN w 1 = c at *
    have hlog := c.freezeLog_logged (w / 2) 5 w false b
    generalize c.freezeLog (w / 2) 5 w false b = t at *
    have hone : t.getF F.DMA_WIN_FROZEN w = 1 := by
      refine hlog.lowest F.DMA_WIN_FROZEN w rfl rfl (.inl ?_) (.inl ?_) hput
      · simp only [Fld.off, F.DMA_WIN_FROZEN, F.PRT_FRZ_INFO_LOST]; omega
      · simp only [Fld.off, F.DMA_WIN_FROZEN, F.PRT_STATE_FROZEN]; omega
    refine ⟨_, hexec, ?_, rfl, ?_, fun hlen => ?_⟩
    · exact congrArg (fun x => decide (x = 1)) hone
    · intro x
      exact State.rd8_congr (show t.mem = s.mem by rw [hlog.frame, hregs]) x
    · have hpart : c.part (w / 2) = s.part (w / 2) := by rw [hregs]; rfl
      have hentry := hlog.log (by rw [hpart]; exact hlen)
      rw [hpart] at hentry
      exact ⟨_, hentry, rfl, rfl, rfl⟩

theorem windowClosed (htaken : Taken s f) (hwin : State.barWindow f off = some (w, o)) (hrec : s.flag F.GEN_STATUS_RECOVERY 0 = false)
    (hclosed : s.flag F.DMA_WIN_EN w = false ∨ s.flag F.DMA_WIN_FROZEN w = true ∨ s.flag F.PRT_STATE_WIPING (w / 2) = true) :
    exec (.bar2WindowAccess f off none n) s = .next { s with out := .winData off (List.replicate n 0xFF) :: s.out } ∧
    ∀ (b : List Byte), exec (.bar2WindowAccess f off (some b) n) s = .next s := by
  constructor
  · rw [exec_bar2_read htaken hrec hwin, if_pos]
    · rfl
    · rcases hclosed with h | h | h <;> simp [h]
  · intro b
    rw [exec_bar2_write htaken hrec hwin, if_pos]
    · rfl
    · rcases hclosed with h | h | h <;> simp [h]

end

/-! ## The boot SRAM (R399) -/

/-- Bytes put one after another into a sparse map. -/
theorem mget_putBytes (m : List (Nat × Byte)) (off k : Nat) (b : List Byte) (x : Nat) :
    mget 0 ((b.zipIdx k).foldl (fun m x => mput 0 m (off + x.2) x.1) m) x =
      if off + k ≤ x ∧ x < off + k + b.length then b.getD (x - (off + k)) 0 else mget 0 m x := by
  induction b generalizing m k with
  | nil => rw [if_neg (by simp)]; rfl
  | cons c b ih =>
    rw [List.zipIdx_cons, List.foldl_cons, ih, List.length_cons]
    by_cases hx : x = off + k
    · subst hx
      rw [if_neg (by omega), mget_mput_self, if_pos (by omega), Nat.sub_self]
      rfl
    · rw [mget_mput_ne _ _ _ hx]
      by_cases hin : off + (k + 1) ≤ x ∧ x < off + (k + 1) + b.length
      · rw [if_pos hin, if_pos (by omega), show x - (off + k) = x - (off + (k + 1)) + 1 by omega, List.getD_cons_succ]
      · rw [if_neg hin, if_neg (by omega)]

theorem exec_bar2_recovery {s : State} {off n : Nat} (htaken : Taken s .pf) (hrec : s.flag F.GEN_STATUS_RECOVERY 0 = true)
    (hst : s.getF F.PWR_STAT_STATE 0 ≠ 4) (hperst : s.power.perst = false) :
    (∀ b, exec (.bar2WindowAccess .pf off (some b) n) s = .next (s.bootWindow .pf off b.length (some b))) ∧
    exec (.bar2WindowAccess .pf off none n) s = .next (s.bootWindow .pf off n none) := by
  have hcond : s.flag F.GEN_STATUS_RECOVERY 0 = true ∧ s.getF F.PWR_STAT_STATE 0 ≠ 4 ∧ ¬ s.power.perst = true :=
    ⟨hrec, hst, by simp [hperst]⟩
  constructor
  · intro b
    change execBar2WindowAccess .pf off (some b) n s = _
    unfold execBar2WindowAccess
    rw [s.tlpIn_of_taken htaken]
    dsimp only
    rw [if_neg (by decide), if_pos hcond]
  · change execBar2WindowAccess .pf off none n s = _
    unfold execBar2WindowAccess
    rw [s.tlpIn_of_taken htaken]
    dsimp only
    rw [if_neg (by decide), if_pos hcond]

theorem bootSram {s : State} {off n : Nat} {b : List Byte} (htaken : Taken s .pf) (hrec : s.flag F.GEN_STATUS_RECOVERY 0 = true)
    (hst : s.getF F.PWR_STAT_STATE 0 ≠ 4) (hperst : s.power.perst = false) :
    (off + b.length ≤ 2 ^ 24 → ∃ u, exec (.bar2WindowAccess .pf off (some b) n) s = .next u ∧
      (∀ i, i < b.length → mget 0 u.sram (off + i) = b.getD i 0) ∧
      (∀ x, ¬ (off ≤ x ∧ x < off + b.length) → mget 0 u.sram x = mget 0 s.sram x) ∧ u = { s with sram := u.sram }) ∧
    (off + n ≤ 2 ^ 24 → exec (.bar2WindowAccess .pf off none n) s =
      .next { s with out := .winData off ((List.range n).map fun i => mget 0 s.sram (off + i)) :: s.out }) := by
  obtain ⟨hwrite, hread⟩ := exec_bar2_recovery (n := n) htaken hrec hst hperst (off := off)
  constructor
  · intro hrange
    have hexec : exec (.bar2WindowAccess .pf off (some b) n) s = .next { s with sram := b.zipIdx.foldl (fun m x => mput 0 m (off + x.2) x.1) s.sram } :=
      (hwrite b).trans (congrArg Host.Outcome.next (if_neg (by simp [Func.base]; omega)))
    refine ⟨_, hexec, fun i hi => ?_, fun x hx => ?_, rfl⟩
    · exact (mget_putBytes s.sram off 0 b (off + i)).trans ((if_pos (by omega)).trans (by rw [Nat.add_zero, Nat.add_sub_cancel_left]))
    · exact (mget_putBytes s.sram off 0 b x).trans (if_neg (by omega))
  · intro hrange
    exact hread.trans (congrArg Host.Outcome.next (if_neg (by simp [Func.base]; omega)))

/-! ## `DMA_MCFG` (R383) -/

theorem mcfgTaken {s : State} {f : Func} {h : Nat} {v : Word} (hopen : Open s f (F.DMA_MCFG_EN.off h))
    (hchain : (s.mover h).chain = none) (hidle : s.getF F.DMA_MSTAT_STATE h = 0)
    (hplans : ∀ p, p < 8 → s.running p = false ∧ s.plan p = none) :
    ∃ u, exec (.dmaMcfgWrite f h v) s = .next u ∧ u.getF F.DMA_MCFG_EN h = getBits v 0 0 ∧
      u.getF F.DMA_MCFG_OWNER h = getBits v 10 8 ∧ u.getF F.DMA_MCFG_MODE h = getBits v 11 11 ∧
      RegsOnly (fun o => o = F.DMA_MCFG_EN.off h) s u := by
  have hok : s.mcfgOk (s.setWord (F.DMA_MCFG_EN.off h) (v &&& (fieldMask 11 8 ||| fieldMask 0 0))) h = true := by
    have hall : (List.range 8).all (fun p => !s.assignsMovers p || decide (s.planMovers p =
        (s.setWord (F.DMA_MCFG_EN.off h) (v &&& (fieldMask 11 8 ||| fieldMask 0 0))).planMovers p)) = true := by
      rw [List.all_eq_true]
      intro p hp
      rw [State.assignsMovers, (hplans p (List.mem_range.mp hp)).2]
      rfl
    have howner : ∀ t : State, s.running (t.getF F.DMA_MCFG_OWNER h) = false := fun t =>
      (hplans _ (t.getF_lt F.DMA_MCFG_OWNER h)).1
    rw [State.mcfgOk, hall, howner, howner, hchain, hidle]
    rfl
  have hexec : exec (.dmaMcfgWrite f h v) s = .next (s.setWord (F.DMA_MCFG_EN.off h) (v &&& (fieldMask 11 8 ||| fieldMask 0 0))) :=
    congrArg Host.Outcome.next ((s.gated_of_open hopen _).trans (if_pos hok))
  have hfield : ∀ f : Fld, f.off h = F.DMA_MCFG_EN.off h → f.hi = 0 ∨ 8 ≤ f.lo ∧ f.hi ≤ 11 →
      (s.setWord (F.DMA_MCFG_EN.off h) (v &&& (fieldMask 11 8 ||| fieldMask 0 0))).getF f h = getBits v f.hi f.lo := by
    intro f hf hbits
    rw [State.getF, hf, State.word_setWord_self]
    refine getBits_ext fun b hlo hhi => ?_
    rw [BitVec.getLsbD_and, BitVec.getLsbD_or, fieldMask_getLsbD, fieldMask_getLsbD]
    rcases hbits with h0 | ⟨h8, h11⟩
    · simp [show b = 0 by omega]
    · simp [show b < 64 by omega, show 8 ≤ b by omega, show b ≤ 11 by omega]
  exact ⟨_, hexec, hfield F.DMA_MCFG_EN rfl (.inl rfl), hfield F.DMA_MCFG_OWNER rfl (.inr (by decide)),
    hfield F.DMA_MCFG_MODE rfl (.inr (by decide)), rfl, fun o ho => s.word_setWord_ne _ ho⟩

theorem mcfgDiscarded {s : State} {f : Func} {h : Nat} {v : Word} (hopen : Open s f (F.DMA_MCFG_EN.off h))
    (hbusy : (s.mover h).chain.isSome = true ∨ s.running (s.getF F.DMA_MCFG_OWNER h) = true) :
    exec (.dmaMcfgWrite f h v) s = .next (s.genErr f 1 (F.DMA_MCFG_EN.off h)) := by
  have hok : s.mcfgOk (s.setWord (F.DMA_MCFG_EN.off h) (v &&& (fieldMask 11 8 ||| fieldMask 0 0))) h = false := by
    unfold State.mcfgOk
    rcases hbusy with hchain | hrun
    · obtain ⟨k, hk⟩ := Option.isSome_iff_exists.mp hchain
      simp [hk]
    · simp [hrun]
  exact congrArg Host.Outcome.next ((s.gated_of_open hopen _).trans (if_neg (by rw [hok]; decide)))

/-- Settles O50: an access in bounds reaches memory, one out of bounds freezes its window, and a mover's set-up is a register. -/
theorem windowsAndMoverSetUp : Obligations.WindowsAndMoverSetUp := by
  unfold Obligations.WindowsAndMoverSetUp
  refine ⟨?_, fun s f off w o n htaken hwin hrec => windowClosed htaken hwin hrec,
    fun s off n b htaken hrec hst hperst => bootSram htaken hrec hst hperst,
    fun s f h v _ hopen => ⟨mcfgTaken hopen, mcfgDiscarded hopen⟩⟩
  intro s f off w o n b htaken hwin hrec hwiping hblock hen hfrozen
  dsimp only
  exact ⟨windowWrites htaken hwin hrec hwiping hblock hen hfrozen b rfl,
    fun hrange => (windowReads htaken hwin hrec hwiping hblock hen hfrozen rfl hrange).1,
    fun hrange => (windowReads htaken hwin hrec hwiping hblock hen hfrozen rfl hrange).2⟩

end Sys2Proof
end

section
/-! The owner and the life cycle (O47): what a wipe of the lid leaves of the identity, and the owner's commands. -/

namespace Sys2Proof.Machine
namespace State

/-! ## The identity over a wipe -/

/-- From `s` to `t` the identity is as before, but for the Umber keys. -/
def IdentKeys (s t : State) : Prop := t.ident = { s.ident with umberKeys := t.ident.umberKeys, drbg := t.ident.drbg }

namespace IdentKeys

variable {s t u : State}

theorem same (h : t.ident = s.ident) : IdentKeys s t := by unfold IdentKeys; rw [h]

theorem trans (h : IdentKeys s t) (h' : IdentKeys t u) : IdentKeys s u := by
  unfold IdentKeys at *
  rw [h', h]

theorem ite (c : Prop) [Decidable c] (h : IdentKeys s t) (h' : IdentKeys s u) : IdentKeys s (if c then t else u) := by
  split <;> assumption

theorem foldl {α : Type} {act : State → α → State} (hact : ∀ v x, IdentKeys v (act v x)) (l : List α) (s : State) :
    IdentKeys s (l.foldl act s) := by
  induction l generalizing s with
  | nil => exact same rfl
  | cons x l ih => exact (hact s x).trans (ih _)

end IdentKeys

theorem wr_ident (s : State) (a : Nat) (b : List Byte) : (s.wr a b).ident = s.ident := by
  rw [((MemOnly.refl s).wr a b).frame]

theorem rekey_identKeys (s : State) (p : Nat) : IdentKeys s (s.rekey p) := by
  unfold rekey
  extract_lets old k r t
  have ht : IdentKeys s t := rfl
  clear_value t
  exact ht.trans (.foldl (fun v a => .same (wr_ident v a _)) _ t)

theorem releaseMasters_identKeys (s : State) (p : Nat) : IdentKeys s (s.releaseMasters p) := by
  unfold releaseMasters
  extract_lets t1 t2 t3 t4
  have h1 : IdentKeys s t1 := by
    refine .foldl (fun v x => ?_) _ _
    exact .same rfl
  clear_value t1
  have h2 : IdentKeys t1 t2 := by
    refine .foldl (fun v c => .foldl (fun w x => ?_) _ _) _ _
    exact .same rfl
  clear_value t2
  have h3 : IdentKeys t2 t3 := by
    refine .foldl (fun v h => .ite _ ?_ ?_) _ _
    · exact .same rfl
    · exact .same rfl
  clear_value t3
  have h4 : IdentKeys t3 t4 := by
    refine .foldl (fun v x => ?_) _ _
    exact .same rfl
  clear_value t4
  have h5 : IdentKeys t4 ([2 * p, 2 * p + 1].foldl (fun s w => s.putF F.DMA_WIN_FROZEN w 0) t4) := by
    refine .foldl (fun v x => ?_) _ _
    exact .same rfl
  exact (((h1.trans h2).trans h3).trans h4).trans h5

theorem clearRegs_identKeys (s : State) (a b : Nat) : IdentKeys s (s.clearRegs a b) := rfl

theorem clearTileRegs_identKeys (s : State) (g : Nat) : IdentKeys s (s.clearTileRegs g) := by
  unfold clearTileRegs
  exact (clearRegs_identKeys s _ _).trans (clearRegs_identKeys _ _ _)

theorem putF_identKeys (s : State) (f : Fld) (i v : Nat) : IdentKeys s (s.putF f i v) := rfl

theorem resetPartition_identKeys (s : State) (p : Nat) : IdentKeys s (s.resetPartition p) := by
  unfold resetPartition
  extract_lets t1 t2 t3 t4 t5 t6 t7 t8 t9 t10 x y t11 t12
  have h1 : IdentKeys s t1 := (putF_identKeys s _ _ _).trans (putF_identKeys _ _ _ _)
  clear_value t1
  have h2 : IdentKeys t1 t2 := releaseMasters_identKeys t1 p
  clear_value t2
  have h3 : IdentKeys t2 t3 := clearRegs_identKeys _ _ _
  clear_value t3
  have h4 : IdentKeys t3 t4 := clearRegs_identKeys _ _ _
  clear_value t4
  have h5 : IdentKeys t4 t5 := clearRegs_identKeys _ _ _
  clear_value t5
  have h6 : IdentKeys t5 t6 := clearRegs_identKeys _ _ _
  clear_value t6
  have h7 : IdentKeys t6 t7 := clearRegs_identKeys _ _ _
  clear_value t7
  have h8 : IdentKeys t7 t8 := clearRegs_identKeys _ _ _
  clear_value t8
  have h9 : IdentKeys t8 t9 := .foldl clearTileRegs_identKeys _ t8
  clear_value t9
  have h10 : IdentKeys t9 t10 := by
    refine .foldl (fun v i => ?_) _ _
    exact .same rfl
  clear_value t10
  have h11 : IdentKeys t10 t11 := .same rfl
  clear_value t11
  have h12 : IdentKeys t11 t12 := ((putF_identKeys _ _ _ _).trans (putF_identKeys _ _ _ _)).trans (putF_identKeys _ _ _ _)
  clear_value t12
  have h13 : IdentKeys t12 (t12.rekey p) := rekey_identKeys t12 p
  have h14 : IdentKeys (t12.rekey p) (t12.rekey p).arriveWork := .same (by rw [(PowerOnly.arriveWork _).frame])
  exact h1.trans <| h2.trans <| h3.trans <| h4.trans <| h5.trans <| h6.trans <| h7.trans <| h8.trans <| h9.trans <| h10.trans <|
    h11.trans <| h12.trans <| h13.trans h14

theorem wipe_identKeys (s : State) (a n : Nat) : IdentKeys s (s.wipe a n) := .same rfl

theorem wipeGran_identKeys (s : State) (i : Nat) : IdentKeys s (s.wipeGran i) := wipe_identKeys s _ _

theorem modPart_identKeys (s : State) (p : Nat) (f : Part → Part) : IdentKeys s (s.modPart p f) := .same rfl

theorem wipeCluster_identKeys (s : State) (c : Nat) : IdentKeys s (s.wipeCluster c) := by
  unfold wipeCluster
  extract_lets t1 t2
  have h1 : IdentKeys s t1 := ((wipe_identKeys _ _ _).trans (wipe_identKeys _ _ _)).trans (wipe_identKeys _ _ _)
  clear_value t1
  have h2 : IdentKeys t1 t2 := .foldl (fun v i => clearTileRegs_identKeys v _) _ t1
  clear_value t2
  exact (h1.trans h2).trans (.same rfl)

theorem endWipe_identKeys (s : State) (p : Nat) : IdentKeys s (s.endWipe p) := by
  unfold endWipe
  extract_lets x t1 t2 t3 t4 t5 t6 t7
  have h1 : IdentKeys s t1 := .foldl wipeGran_identKeys _ s
  clear_value t1
  have h2 : IdentKeys t1 t2 := modPart_identKeys _ _ _
  clear_value t2
  have h3 : IdentKeys t2 t3 := .foldl wipeCluster_identKeys _ t2
  clear_value t3
  have h4 : IdentKeys t3 t4 := .foldl wipeGran_identKeys _ t3
  clear_value t4
  have h5 : IdentKeys t4 t5 := .foldl (fun v i => wipe_identKeys v _ _) _ t4
  clear_value t5
  have h6 : IdentKeys t5 t6 := modPart_identKeys _ _ _
  clear_value t6
  have h7 : IdentKeys t6 t7 := (putF_identKeys _ _ _ _).trans (putF_identKeys _ _ _ _)
  clear_value t7
  obtain ⟨fn, e, hsignal⟩ := t7.signalQ_out (32 * p + t7.getF F.DMA_PEVT_VEC p)
  have h8 : IdentKeys t7 (t7.signalQ (32 * p + t7.getF F.DMA_PEVT_VEC p)) := .same (by rw [hsignal])
  exact .ite _ (h1.trans h2) (h1.trans <| h2.trans <| h3.trans <| h4.trans <| h5.trans <| h6.trans <| h7.trans h8)

theorem wipeLid_identKeys (s : State) : IdentKeys s s.wipeLid := by
  unfold wipeLid
  extract_lets t
  have ht : IdentKeys s t := by
    refine .foldl (fun v p => ?_) _ _
    exact (resetPartition_identKeys v p).trans (endWipe_identKeys _ p)
  clear_value t
  exact ht.trans (.same rfl)

theorem wipeLid_mem (s : State) : s.wipeLid.mem = [] := by
  unfold wipeLid
  rfl

/-! ## The alias key and its certificate (R390, R391) -/

theorem showIdent_ident (s : State) : s.showIdent.ident = s.ident := by rw [s.showIdent_regsMay]

theorem showIdent_mem (s : State) : s.showIdent.mem = s.mem := by rw [s.showIdent_regsMay]

/-- A certificate is of the identity and the serial number. -/
theorem aliasCertOf_congr {t u : State} (h : u.ident = { t.ident with aliasCert := u.ident.aliasCert })
    (hserial : u.word F.GEN_SERIAL_SERIAL.base = t.word F.GEN_SERIAL_SERIAL.base) : aliasCertOf u = aliasCertOf t := by
  have hs : u.serialBytes = t.serialBytes := by
    rw [serialBytes, getF_congr_word (f := F.GEN_SERIAL_SERIAL) (i := 0) hserial, serialBytes]
  unfold aliasCertOf runSvn runMeas activeOwner
  rw [h, hs]

/-- An alias certificate issued and shown is that of the state. -/
theorem issued_cert (s : State) : s.issueAlias.showIdent.ident.aliasCert = aliasCertOf s.issueAlias.showIdent := by
  rw [aliasCertOf_congr (t := s) (by rw [showIdent_ident]; rfl) (by rw [word_showIdent_ne _ (by decide)]; rfl), showIdent_ident]
  rfl

theorem activeOwner_putF (s : State) (f : Fld) (i v : Nat) : (s.putF f i v).activeOwner = s.activeOwner := rfl

theorem getF_showIdent (s : State) : s.showIdent.getF F.SEC_STATE_LC 0 = s.ident.lc % 8 ∧
    s.showIdent.getF F.SEC_STATE_SLOTS 0 = s.ident.slots.length % 8 ∧
    s.showIdent.getF F.SEC_STATE_OWNER 0 = if s.activeOwner.isSome then 1 else 0 := by
  unfold showIdent
  extract_lets i t1 t2 t3
  have hactive : t2.activeOwner = s.activeOwner := (activeOwner_putF _ _ _ _).trans <|
    (activeOwner_putF _ _ _ _).trans <| (activeOwner_putF _ _ _ _).trans (activeOwner_putF _ _ _ _)
  refine ⟨?_, ?_, ?_⟩
  · rw [getF_putF_bits _ F.SEC_STATE_SVN _ _ _ _ (.inl (by decide)), getF_putF_bits _ F.SEC_STATE_OWNER _ _ _ _ (.inl (by decide)),
      getF_putF_bits _ F.SEC_STATE_SLOTS _ _ _ _ (.inl (by decide)), getF_putF_bits _ F.SEC_STATE_COUNTER _ _ _ _ (.inl (by decide)),
      getF_putF_bits _ F.SEC_STATE_DEBUG _ _ _ _ (.inl (by decide)), getF_putF _ _ _ _ (by decide) (by decide)]
    rfl
  · rw [getF_putF_bits _ F.SEC_STATE_SVN _ _ _ _ (.inl (by decide)), getF_putF_bits _ F.SEC_STATE_OWNER _ _ _ _ (.inl (by decide)),
      getF_putF _ _ _ _ (by decide) (by decide)]
    rfl
  · rw [getF_putF_bits _ F.SEC_STATE_SVN _ _ _ _ (.inl (by decide)), getF_putF _ _ _ _ (by decide) (by decide), hactive]
    split <;> rfl

/-! ## A change of the life cycle (R412) -/

theorem setLifeCycle_done (s : State) {lc : Nat} (hlc : lc < 8) : LifeCycle s (s.setLifeCycle lc) lc ∧
    (s.setLifeCycle lc).ident.slots = s.ident.slots ∧ (s.setLifeCycle lc).ident.secret = s.ident.secret ∧
    (s.setLifeCycle lc).ident.nonce = s.ident.nonce ∧ (s.setLifeCycle lc).ident.dikCert = s.ident.dikCert ∧
    (s.setLifeCycle lc).ident.dikSeed = s.ident.dikSeed ∧ (s.setLifeCycle lc).ident.aliasRoot = s.ident.aliasRoot := by
  have hwipe := wipeLid_identKeys { s with ident := { s.ident with lc := lc } }
  have hmem : (wipeLid { s with ident := { s.ident with lc := lc } }).mem = [] := wipeLid_mem _
  unfold setLifeCycle
  generalize wipeLid { s with ident := { s.ident with lc := lc } } = t at *
  have hderive : t.deriveAlias = ({ t with ident := { t.ident with aliasSeed := aliasSeedOf t.ident.aliasRoot t.ident.lc t.runMeas } } : State).issueAlias := rfl
  have hident : t.deriveAlias.showIdent.ident = { t.ident with aliasSeed := aliasSeedOf t.ident.aliasRoot t.ident.lc t.runMeas, aliasCert := t.deriveAlias.ident.aliasCert } := by
    rw [showIdent_ident]; rfl
  have hcert := issued_cert { t with ident := { t.ident with aliasSeed := aliasSeedOf t.ident.aliasRoot t.ident.lc t.runMeas } }
  rw [← hderive] at hcert
  have hshow := (t.deriveAlias.getF_showIdent).1
  have hmem' : t.deriveAlias.showIdent.mem = [] := (showIdent_mem _).trans hmem
  have htlc : t.deriveAlias.ident.lc = lc := by
    rw [show t.deriveAlias.ident.lc = t.ident.lc from rfl, hwipe]
  have hmeas : t.deriveAlias.showIdent.runMeas = t.runMeas := by rw [runMeas, hident, runMeas]
  generalize t.deriveAlias.showIdent = u at *
  rw [htlc, Nat.mod_eq_of_lt hlc] at hshow
  refine ⟨⟨?_, hshow, ?_, hcert, ?_, fun a => ?_⟩, ?_, ?_, ?_, ?_, ?_, ?_⟩
  · rw [hident, hwipe]
  · rw [hmeas, hident, hwipe]
  · rw [hident, hwipe]
  · rw [rd8, hmem']; rfl
  all_goals rw [hident, hwipe]

end State
end Sys2Proof.Machine
end

section
/-! The owner's commands (O47). -/

namespace Sys2Proof

open Machine
open Machine (State)

/-! ## The owner slots (R400) -/

/-- The revoked slots stand and the first that is not is revoked. -/
theorem revokeGo_eq {pre : List OwnerSlot} (hpre : ∀ o ∈ pre, o.revoked = true) (k : BitVec 512) :
    State.revokeActive.go (pre ++ [⟨k, false⟩]) = pre ++ [⟨k, true⟩] := by
  induction pre with
  | nil => rfl
  | cons o pre ih =>
    rw [List.cons_append, State.revokeActive.go, if_pos (hpre o List.mem_cons_self), ih fun x hx => hpre x (List.mem_cons_of_mem _ hx)]
    rfl

theorem revokeActive_eq {s : State} {pre : List OwnerSlot} {k : BitVec 512} (hpre : ∀ o ∈ pre, o.revoked = true)
    (hslots : s.ident.slots = pre ++ [⟨k, false⟩]) : s.revokeActive = { s with ident := { s.ident with slots := pre ++ [⟨k, true⟩] } } := by
  rw [← revokeGo_eq hpre, ← hslots]
  rfl

/-- The active owner is the slot behind the revoked ones. -/
theorem activeOwner_of_slots {s : State} {pre : List OwnerSlot} {o : OwnerSlot} (hpre : ∀ o ∈ pre, o.revoked = true)
    (hslots : s.ident.slots = pre ++ [o]) (ho : o.revoked = false) : s.activeOwner = some o.key := by
  have hnone : pre.find? (fun o => !o.revoked) = none := List.find?_eq_none.mpr fun x hx => by simp [hpre x hx]
  rw [State.activeOwner, hslots, List.find?_append, hnone]
  simp [ho]

/-- With every slot revoked none is active. -/
theorem activeOwner_of_revoked {s : State} (h : ∀ o ∈ s.ident.slots, o.revoked = true) : s.activeOwner = none := by
  rw [State.activeOwner, List.find?_eq_none.mpr fun x hx => by simp [h x hx]]
  rfl

/-! ## An owner command (R401) -/

/-- The state in which an owner command acts: the nonce is used up. -/
def spent (s : State) : State := { s with ident := { s.ident with nonce := none } }

section
variable {s : State} {c : OwnerCmd} {lc : Nat} {needSig needIdle : Bool} {full : State → Bool} {act : State → State}

theorem ownerCmd_taken (hopen : s.doeOpen = true) (hnonce : s.ident.nonce = some c.nonce) (hlc : s.ident.lc = lc)
    (hsig : needSig = true → c.sigOk = true) (hidle : needIdle = true → s.anyRun = false) (hfull : full (spent s) = false) :
    s.ownerCmd c lc needSig needIdle full act = (act (spent s)).emit (.doe 0x87 0 [0]) := by
  rw [State.ownerCmd, State.doe_of_open hopen]
  dsimp only
  have hrun : (spent s).anyRun = s.anyRun := rfl
  rw [if_neg (by simpa using hlc), if_neg, if_neg, if_neg]
  · rfl
  · simpa [spent] using hfull
  · simp only [spent] at hrun
    rw [hrun]
    cases needIdle
    · simp
    · simp [hidle rfl]
  · cases needSig
    · simp [hnonce]
    · simp [hnonce, hsig rfl]

theorem ownerCmd_wrongState (hopen : s.doeOpen = true) (hlc : s.ident.lc ≠ lc) :
    s.ownerCmd c lc needSig needIdle full act = (spent s).doeErr 0 6 := by
  rw [State.ownerCmd, State.doe_of_open hopen]
  exact if_pos hlc

theorem ownerCmd_wrongNonce (hopen : s.doeOpen = true) (hlc : s.ident.lc = lc) (hnonce : s.ident.nonce ≠ some c.nonce) :
    s.ownerCmd c lc needSig needIdle full act = (spent s).doeErr 0 5 := by
  rw [State.ownerCmd, State.doe_of_open hopen]
  dsimp only
  rw [if_neg (by simpa using hlc), if_pos (by simp [hnonce])]
  rfl

theorem ownerCmd_planRuns (hopen : s.doeOpen = true) (hlc : s.ident.lc = lc) (hnonce : s.ident.nonce = some c.nonce)
    (hsig : c.sigOk = true) (hidle : needIdle = true) (hany : s.anyRun = true) :
    s.ownerCmd c lc needSig needIdle full act = (spent s).doeErr 0 8 := by
  have hrun : (spent s).anyRun = true := hany
  rw [State.ownerCmd, State.doe_of_open hopen]
  dsimp only
  rw [if_neg (by simpa using hlc), if_neg (by simp [hnonce, hsig])]
  exact if_pos (by rw [hidle]; exact hrun)

theorem ownerCmd_slotsUsed (hopen : s.doeOpen = true) (hlc : s.ident.lc = lc) (hnonce : s.ident.nonce = some c.nonce)
    (hsig : c.sigOk = true) (hidle : needIdle = false) (hfull : full (spent s) = true) :
    s.ownerCmd c lc needSig needIdle full act = (spent s).doeErr 0 7 := by
  rw [State.ownerCmd, State.doe_of_open hopen]
  dsimp only
  rw [if_neg (by simpa using hlc), if_neg (by simp [hnonce, hsig]), if_neg (by simp [hidle])]
  exact if_pos hfull

end

/-! ## SET_OWNER and RELEASE_OWNER -/

/-- A state whose alias certificate is issued anew and shown. -/
structure Certified (s t : State) : Prop where
  frame : t = { s with ident := { s.ident with aliasCert := t.ident.aliasCert }, regs := t.regs }
  cert : t.ident.aliasCert = aliasCertOf t
  slots : t.getF F.SEC_STATE_SLOTS 0 = s.ident.slots.length % 8
  owner : t.getF F.SEC_STATE_OWNER 0 = if s.activeOwner.isSome then 1 else 0

theorem certified (s : State) : Certified s s.issueAlias.showIdent := by
  obtain ⟨-, hslots, howner⟩ := s.issueAlias.getF_showIdent
  refine ⟨?_, s.issued_cert, hslots, howner⟩
  have hshow := s.issueAlias.showIdent_regsMay
  rw [hshow]
  rfl

/-- A certificate is read from the identity, whatever is told. -/
theorem aliasCertOf_emit (s : State) (o : Out) : aliasCertOf (s.emit o) = aliasCertOf s := rfl

/-- What stands once the new certificate is told. -/
structure Told (s : State) (o : Out) (t : State) : Prop where
  ident : t.ident = { s.ident with aliasCert := t.ident.aliasCert }
  cert : t.ident.aliasCert = aliasCertOf t
  slots : t.getF F.SEC_STATE_SLOTS 0 = s.ident.slots.length % 8
  owner : t.getF F.SEC_STATE_OWNER 0 = if s.activeOwner.isSome then 1 else 0
  out : t.out = o :: s.out
  frame : t = { s with ident := t.ident, regs := t.regs, out := t.out }

theorem Certified.told {s t : State} (h : Certified s t) (o : Out) : Told s o (t.emit o) where
  ident := by rw [h.frame]; rfl
  cert := h.cert.trans (aliasCertOf_emit _ _).symm
  slots := (State.getF_emit _ _ _ _).trans h.slots
  owner := (State.getF_emit _ _ _ _).trans h.owner
  out := by rw [h.frame]; rfl
  frame := by rw [h.frame]; rfl

/-- The state in which the owner is released. -/
def released (s : State) (slots : List OwnerSlot) : State := { s with ident := { s.ident with nonce := none, slots := slots } }

theorem revoke_spent {s : State} {pre : List OwnerSlot} {k : BitVec 512} (hpre : ∀ o ∈ pre, o.revoked = true)
    (hslots : s.ident.slots = pre ++ [⟨k, false⟩]) : (spent s).revokeActive = released s (pre ++ [⟨k, true⟩]) :=
  revokeActive_eq (s := spent s) hpre hslots

/-- The state in which every fuse of the device secret is blown. -/
def blown (s : State) : State := { s with ident := { s.ident with nonce := none, secret := BitVec.allOnes 256 } }

section
variable {s : State} {c : OwnerCmd} {pre : List OwnerSlot} {k : BitVec 512}

/-- The state in which another key is the owner's. -/
def owned (s : State) (key : List Byte) (slots : List OwnerSlot) : State :=
  { s with ident := { s.ident with nonce := none, slots := slots, flashOwner := some key } }

theorem setOwner_new (hopen : s.doeOpen = true) (hnonce : s.ident.nonce = some c.nonce) (hsig : c.sigOk = true) (hlc : s.ident.lc = 2)
    (hpre : ∀ o ∈ pre, o.revoked = true) (hslots : s.ident.slots = pre ++ [⟨k, false⟩]) (hroom : pre.length < 3)
    (hnew : shake512 c.key ≠ k) : exec (.setOwner c) s =
      .next ((owned s c.key (pre ++ [⟨k, true⟩, ⟨shake512 c.key, false⟩])).issueAlias.showIdent.emit (.doe 0x87 0 [0])) := by
  have hactive := activeOwner_of_slots hpre hslots rfl
  have hagain : ¬ s.activeOwner = some (shake512 c.key) := by rw [hactive]; exact fun h => hnew (Option.some.inj h).symm
  refine congrArg Host.Outcome.next ((ownerCmd_taken hopen hnonce hlc (fun _ => hsig) (fun h => absurd h (by decide)) ?_).trans ?_)
  · have hlen : (spent s).ident.slots.length = pre.length + 1 := by rw [spent, hslots]; simp
    rw [hlen]
    simp
    omega
  · have hslots' : pre ++ [⟨k, true⟩] ++ [⟨shake512 c.key, false⟩] = pre ++ [⟨k, true⟩, ⟨shake512 c.key, false⟩] := List.append_assoc _ _ _
    rw [if_neg hagain, revoke_spent hpre hslots]
    simp only [released]
    rw [hslots']
    rfl

theorem setOwner_again (hopen : s.doeOpen = true) (hnonce : s.ident.nonce = some c.nonce) (hsig : c.sigOk = true) (hlc : s.ident.lc = 2)
    (hpre : ∀ o ∈ pre, o.revoked = true) (hslots : s.ident.slots = pre ++ [⟨k, false⟩]) (hsame : shake512 c.key = k) :
    exec (.setOwner c) s =
      .next { s with ident := { s.ident with nonce := none, flashOwner := some c.key }, out := .doe 0x87 0 [0] :: s.out } := by
  have hagain : s.activeOwner = some (shake512 c.key) := by rw [activeOwner_of_slots hpre hslots rfl, hsame]
  refine congrArg Host.Outcome.next ((ownerCmd_taken hopen hnonce hlc (fun _ => hsig) (fun h => absurd h (by decide)) ?_).trans ?_)
  · simp [hagain]
  · rw [if_pos hagain]
    rfl

theorem setOwner_full (hopen : s.doeOpen = true) (hnonce : s.ident.nonce = some c.nonce) (hsig : c.sigOk = true) (hlc : s.ident.lc = 2)
    (hpre : ∀ o ∈ pre, o.revoked = true) (hslots : s.ident.slots = pre ++ [⟨k, false⟩]) (hused : pre.length = 3)
    (hnew : shake512 c.key ≠ k) : exec (.setOwner c) s =
      .next { s with ident := { s.ident with nonce := none }, out := .doe 0xFF 0 [7] :: s.out } := by
  have hactive := activeOwner_of_slots hpre hslots rfl
  have hagain : ¬ s.activeOwner = some (shake512 c.key) := by rw [hactive]; exact fun h => hnew (Option.some.inj h).symm
  refine congrArg Host.Outcome.next (ownerCmd_slotsUsed hopen hlc hnonce hsig rfl ?_)
  have hlen : (spent s).ident.slots.length = pre.length + 1 := by rw [spent, hslots]; simp
  rw [hlen, hused, decide_eq_false hagain]
  rfl

theorem releaseOwner_done (hopen : s.doeOpen = true) (hnonce : s.ident.nonce = some c.nonce) (hsig : c.sigOk = true) (hlc : s.ident.lc = 2)
    (hpre : ∀ o ∈ pre, o.revoked = true) (hslots : s.ident.slots = pre ++ [⟨k, false⟩]) : exec (.releaseOwner c) s =
      .next ((released s (pre ++ [⟨k, true⟩])).issueAlias.showIdent.emit (.doe 0x87 0 [0])) := by
  have hactive := activeOwner_of_slots hpre hslots rfl
  refine congrArg Host.Outcome.next ((ownerCmd_taken (c := { c with sigOk := c.sigOk && s.activeOwner.isSome }) hopen hnonce hlc
    (fun _ => by rw [hactive, hsig]; rfl) (fun h => absurd h (by decide)) rfl).trans ?_)
  rw [revoke_spent hpre hslots]

end

/-! ## The life cycle -/

/-- A change of the life cycle, answered. -/
structure Changed (s t : State) (lc : Nat) (u : State) : Prop where
  cycle : LifeCycle s u lc
  slots : u.ident.slots = t.ident.slots
  secret : u.ident.secret = t.ident.secret
  nonce : u.ident.nonce = t.ident.nonce
  answer : u.out.head? = some (.doe 0x87 0 [0])

theorem changed_told {s t u : State} {lc : Nat} (h : LifeCycle t u lc) (hrunning : t.ident.running = s.ident.running)
    (hslots : u.ident.slots = t.ident.slots) (hsecret : u.ident.secret = t.ident.secret) (hnonce : u.ident.nonce = t.ident.nonce) :
    Changed s t lc (u.emit (.doe 0x87 0 [0])) := by
  obtain ⟨hlc, hshow, hseed, hcert, hrun, hmem⟩ := h
  exact ⟨⟨hlc, (State.getF_emit _ _ _ _).trans hshow, hseed, hcert.trans (aliasCertOf_emit _ _).symm, hrun.trans hrunning, hmem⟩,
    hslots, hsecret, hnonce, rfl⟩

theorem changed {s t : State} (hrunning : t.ident.running = s.ident.running) {lc : Nat} (hlc : lc < 8) :
    Changed s t lc ((t.setLifeCycle lc).emit (.doe 0x87 0 [0])) := by
  obtain ⟨h, hslots, hsecret, hnonce, -⟩ := t.setLifeCycle_done hlc
  exact changed_told h hrunning hslots hsecret hnonce

/-- The slot revoked last. -/
theorem revoked_snoc {pre : List OwnerSlot} (hpre : ∀ o ∈ pre, o.revoked = true) (k : BitVec 512) :
    ∀ o ∈ pre ++ [⟨k, true⟩], o.revoked = true := by
  intro o ho
  rcases List.mem_append.mp ho with ho | ho
  · exact hpre o ho
  · rw [List.mem_singleton.mp ho]

/-- The state in which the device secret is fused and its keys derived (R389). -/
def fused (s : State) : State :=
  if s.ident.secret ≠ 0 then s
  else
    let (x, s) := s.drawSecret
    { s with ident := { s.ident with secret := x } }.deriveRoots x

/-- What fusing leaves. -/
structure Fused (s t : State) : Prop where
  frame : t = { s with ident := t.ident }
  secret : t.ident.secret = if s.ident.secret = 0 then (Config.random s.ident.drbg).setWidth 256 else s.ident.secret
  roots : s.ident.secret = 0 → t.ident.dikSeed = dikSeedOf t.ident.secret ∧ t.ident.aliasRoot = aliasRootOf t.ident.secret
  kept : t.ident.lc = s.ident.lc ∧ t.ident.running = s.ident.running ∧ t.ident.dikCert = s.ident.dikCert

theorem fused_facts (s : State) : Fused s (fused s) := by
  unfold fused
  by_cases h : s.ident.secret = 0
  · rw [if_neg (not_not.mpr h)]
    exact ⟨rfl, (if_pos h).symm, fun _ => ⟨rfl, rfl⟩, rfl, rfl, rfl⟩
  · rw [if_pos h]
    exact ⟨rfl, (if_neg h).symm, fun h0 => absurd h0 h, rfl, rfl, rfl⟩

/-- R389, R391, R412: the factory leaves MANUFACTURE once the certificate verifies. -/
theorem provisioned {s : State} (dik : DikCert) (hlc : s.ident.lc = 0) (hidle : s.anyRun = false)
    (hrng : s.flag F.SEC_STATE_RNGFAIL 0 = false) :
    ∃ u, exec (.provision dik) s = .next u ∧
      u.ident.secret = (if s.ident.secret = 0 then (Config.random s.ident.drbg).setWidth 256 else s.ident.secret) ∧
      (s.ident.secret = 0 → u.ident.dikSeed = dikSeedOf u.ident.secret ∧ u.ident.aliasRoot = aliasRootOf u.ident.secret) ∧
      u.ident.dikCert = (if dik.ok = true then some dik.cert else s.ident.dikCert) ∧ (dik.ok = true → LifeCycle s u 1) ∧
      (dik.ok = false → u.ident.lc = 0 ∧ u = { s with ident := u.ident }) := by
  have hexec : exec (.provision dik) s = .next (if dik.ok then
      ({ fused s with ident := { (fused s).ident with dikCert := some dik.cert } } : State).setLifeCycle 1 else fused s) :=
    congrArg Host.Outcome.next (if_neg (by simp [hlc, hidle, hrng]))
  have h := fused_facts s
  generalize fused s = t at *
  obtain ⟨hlc', hrunning, hdik⟩ := h.kept
  cases hok : dik.ok with
  | false =>
    rw [hok] at hexec
    exact ⟨_, hexec, h.secret, h.roots, hdik, fun hno => absurd hno (by decide), fun _ => ⟨hlc'.trans hlc, h.frame⟩⟩
  | true =>
    rw [hok] at hexec
    obtain ⟨hcycle, -, hsecret, -, hcert, hseed, hroot⟩ :=
      State.setLifeCycle_done { t with ident := { t.ident with dikCert := some dik.cert } } (lc := 1) (by decide)
    rw [if_pos rfl] at hexec
    generalize State.setLifeCycle { t with ident := { t.ident with dikCert := some dik.cert } } 1 = u at *
    obtain ⟨hlc1, hshow, halias, hacert, hrun, hmem⟩ := hcycle
    refine ⟨u, hexec, hsecret.trans h.secret, fun h0 => ?_, hcert, fun _ => ⟨hlc1, hshow, halias, hacert, hrun.trans hrunning, hmem⟩,
      fun hno => absurd hno (by decide)⟩
    rw [hseed, hroot, hsecret]
    exact h.roots h0

theorem setOwner_installs {s : State} {c : OwnerCmd} {pre : List OwnerSlot} {k : BitVec 512} (hopen : s.doeOpen = true)
    (hnonce : s.ident.nonce = some c.nonce) (hsig : c.sigOk = true) (hlc : s.ident.lc = 2) (hpre : ∀ o ∈ pre, o.revoked = true)
    (hslots : s.ident.slots = pre ++ [⟨k, false⟩])
    (hroom : pre.length < 3) (hnew : shake512 c.key ≠ k) :
    ∃ u, exec (.setOwner c) s = .next u ∧
      u.ident.slots = pre ++ [⟨k, true⟩, ⟨shake512 c.key, false⟩] ∧ u.ident.flashOwner = some c.key ∧
      u.ident.aliasCert = aliasCertOf u ∧ u.ident.nonce = none ∧ u.getF F.SEC_STATE_OWNER 0 = 1 ∧
      u.getF F.SEC_STATE_SLOTS 0 = pre.length + 2 ∧ u.out = .doe 0x87 0 [0] :: s.out ∧
      u = { s with ident := u.ident, regs := u.regs, out := u.out } := by
  have hexec := setOwner_new hopen hnonce hsig hlc hpre hslots hroom hnew
  have hsnoc : (owned s c.key (pre ++ [⟨k, true⟩, ⟨shake512 c.key, false⟩])).ident.slots = pre ++ [⟨k, true⟩] ++ [⟨shake512 c.key, false⟩] :=
    (List.append_assoc pre [⟨k, true⟩] [⟨shake512 c.key, false⟩]).symm
  have h := (certified (owned s c.key (pre ++ [⟨k, true⟩, ⟨shake512 c.key, false⟩]))).told (.doe 0x87 0 [0])
  have howner := h.owner
  rw [activeOwner_of_slots (revoked_snoc hpre k) hsnoc rfl] at howner
  have hlen : (owned s c.key (pre ++ [⟨k, true⟩, ⟨shake512 c.key, false⟩])).ident.slots.length % 8 = pre.length + 2 := by
    simp only [owned, List.length_append, List.length_cons, List.length_nil]
    omega
  exact ⟨_, hexec, congrArg Ident.slots h.ident, congrArg Ident.flashOwner h.ident, h.cert, congrArg Ident.nonce h.ident, howner,
    h.slots.trans hlen, h.out, h.frame⟩

theorem releaseOwner_revokes {s : State} {c : OwnerCmd} {pre : List OwnerSlot} {k : BitVec 512} (hopen : s.doeOpen = true)
    (hnonce : s.ident.nonce = some c.nonce) (hsig : c.sigOk = true) (hlc : s.ident.lc = 2) (hpre : ∀ o ∈ pre, o.revoked = true)
    (hslots : s.ident.slots = pre ++ [⟨k, false⟩]) :
    ∃ u, exec (.releaseOwner c) s = .next u ∧ u.ident.slots = pre ++ [⟨k, true⟩] ∧ u.ident.aliasCert = aliasCertOf u ∧
      u.ident.nonce = none ∧ u.getF F.SEC_STATE_OWNER 0 = 0 ∧ u.out = .doe 0x87 0 [0] :: s.out ∧
      u = { s with ident := u.ident, regs := u.regs, out := u.out } := by
  have hexec := releaseOwner_done hopen hnonce hsig hlc hpre hslots
  have h := (certified (released s (pre ++ [⟨k, true⟩]))).told (.doe 0x87 0 [0])
  have howner := h.owner
  have hnone : (released s (pre ++ [⟨k, true⟩])).activeOwner = none := activeOwner_of_revoked (revoked_snoc hpre k)
  rw [hnone] at howner
  exact ⟨_, hexec, congrArg Ident.slots h.ident, h.cert, congrArg Ident.nonce h.ident, howner, h.out, h.frame⟩

theorem ownerCommands :
    ∀ (s : State) (c : OwnerCmd) (pre : List OwnerSlot) (k : BitVec 512), s.doeOpen = true →
    s.ident.nonce = some c.nonce → c.sigOk = true → s.ident.lc = 2 → (∀ o ∈ pre, o.revoked = true) →
    s.ident.slots = pre ++ [⟨k, false⟩] →
    (pre.length < 3 → shake512 c.key ≠ k → ∃ u, exec (.setOwner c) s = .next u ∧
      u.ident.slots = pre ++ [⟨k, true⟩, ⟨shake512 c.key, false⟩] ∧ u.ident.flashOwner = some c.key ∧
      u.ident.aliasCert = aliasCertOf u ∧ u.ident.nonce = none ∧ u.getF F.SEC_STATE_OWNER 0 = 1 ∧
      u.getF F.SEC_STATE_SLOTS 0 = pre.length + 2 ∧ u.out = .doe 0x87 0 [0] :: s.out ∧
      u = { s with ident := u.ident, regs := u.regs, out := u.out }) ∧
    (shake512 c.key = k → exec (.setOwner c) s =
      .next { s with ident := { s.ident with nonce := none, flashOwner := some c.key }, out := .doe 0x87 0 [0] :: s.out }) ∧
    (pre.length = 3 → shake512 c.key ≠ k → exec (.setOwner c) s =
      .next { s with ident := { s.ident with nonce := none }, out := .doe 0xFF 0 [7] :: s.out }) ∧
    (∃ u, exec (.releaseOwner c) s = .next u ∧ u.ident.slots = pre ++ [⟨k, true⟩] ∧ u.ident.aliasCert = aliasCertOf u ∧
      u.ident.nonce = none ∧ u.getF F.SEC_STATE_OWNER 0 = 0 ∧ u.out = .doe 0x87 0 [0] :: s.out ∧
      u = { s with ident := u.ident, regs := u.regs, out := u.out }) ∧
    (s.anyRun = false → ∃ u, exec (.returnLc c) s = .next u ∧ u.ident.slots = pre ++ [⟨k, true⟩] ∧
      LifeCycle s u 3 ∧ u.out.head? = some (.doe 0x87 0 [0])) := by
  intro s c pre k hopen hnonce hsig hlc hpre hslots
  refine ⟨fun hroom hnew => ?new, setOwner_again hopen hnonce hsig hlc hpre hslots, setOwner_full hopen hnonce hsig hlc hpre hslots,
    ?release, fun hidle => ?return_⟩
  case new => exact setOwner_installs hopen hnonce hsig hlc hpre hslots hroom hnew
  case release => exact releaseOwner_revokes hopen hnonce hsig hlc hpre hslots
  case return_ =>
    have hactive := activeOwner_of_slots hpre hslots rfl
    have hexec : exec (.returnLc c) s = .next (((spent s).revokeActive.setLifeCycle 3).emit (.doe 0x87 0 [0])) :=
      congrArg Host.Outcome.next (ownerCmd_taken hopen hnonce hlc (fun _ => hsig) (fun _ => hidle) rfl)
    rw [revoke_spent hpre hslots] at hexec
    have h := changed (s := s) (t := released s (pre ++ [⟨k, true⟩])) rfl (lc := 3) (by decide)
    exact ⟨_, hexec, h.slots, h.cycle, h.answer⟩

theorem lifeCycleCommands :
    ∀ (s : State) (c : OwnerCmd), s.doeOpen = true → s.ident.nonce = some c.nonce → s.anyRun = false →
    (s.ident.lc = 1 → ∃ u, exec (.deploy c) s = .next u ∧ LifeCycle s u 2 ∧ u.ident.slots = s.ident.slots ∧
      u.ident.secret = s.ident.secret ∧ u.out.head? = some (.doe 0x87 0 [0]) ∧ u.ident.nonce = none) ∧
    (c.sigOk = true → s.ident.lc = 3 → ∃ u, exec (.scrap c) s = .next u ∧ LifeCycle s u 4 ∧
      u.ident.secret = BitVec.allOnes 256 ∧ u.out.head? = some (.doe 0x87 0 [0])) := by
  intro s c hopen hnonce hidle
  constructor
  · intro hlc
    have hexec : exec (.deploy c) s = .next (((spent s).setLifeCycle 2).emit (.doe 0x87 0 [0])) :=
      congrArg Host.Outcome.next (ownerCmd_taken hopen hnonce hlc (fun h => absurd h (by decide)) (fun _ => hidle) rfl)
    have h := changed (s := s) (t := spent s) rfl (lc := 2) (by decide)
    exact ⟨_, hexec, h.cycle, h.slots, h.secret, h.answer, h.nonce⟩
  · intro hsig hlc
    have hexec : exec (.scrap c) s = .next (((blown s).setLifeCycle 4).emit (.doe 0x87 0 [0])) :=
      congrArg Host.Outcome.next (ownerCmd_taken hopen hnonce hlc (fun h => absurd h (by decide)) (fun _ => hidle) rfl)
    have h := changed (s := s) (t := blown s) rfl (lc := 4) (by decide)
    exact ⟨_, hexec, h.cycle, h.secret, h.answer⟩

theorem ownerCommandsRefused :
    ∀ (s : State) (c : OwnerCmd) (lc : Nat) (i : Instr), s.doeOpen = true →
    (i = .setOwner c ∧ lc = 2) ∨ (i = .releaseOwner c ∧ lc = 2) ∨ (i = .returnLc c ∧ lc = 2) ∨ (i = .deploy c ∧ lc = 1) ∨
      (i = .scrap c ∧ lc = 3) →
    let answer (code : Byte) : State :=
      { s with ident := { s.ident with nonce := none }, out := .doe 0xFF 0 [code] :: s.out }
    (s.ident.lc ≠ lc → exec i s = .next (answer 6)) ∧
    (s.ident.lc = lc → s.ident.nonce ≠ some c.nonce → exec i s = .next (answer 5)) ∧
    (s.ident.lc = lc → s.ident.nonce = some c.nonce → c.sigOk = true → s.anyRun = true →
      i ≠ .setOwner c → i ≠ .releaseOwner c → exec i s = .next (answer 8)) := by
  intro s c lc i hopen hi
  dsimp only
  refine ⟨fun hlc => ?state, fun hlc hnonce => ?nonce, fun hlc hnonce hsig hany hset hrelease => ?busy⟩
  case state =>
    rcases hi with ⟨rfl, rfl⟩ | ⟨rfl, rfl⟩ | ⟨rfl, rfl⟩ | ⟨rfl, rfl⟩ | ⟨rfl, rfl⟩
    all_goals exact congrArg Host.Outcome.next (ownerCmd_wrongState hopen hlc)
  case nonce =>
    rcases hi with ⟨rfl, rfl⟩ | ⟨rfl, rfl⟩ | ⟨rfl, rfl⟩ | ⟨rfl, rfl⟩ | ⟨rfl, rfl⟩
    all_goals exact congrArg Host.Outcome.next (ownerCmd_wrongNonce hopen hlc hnonce)
  case busy =>
    rcases hi with ⟨rfl, rfl⟩ | ⟨rfl, rfl⟩ | ⟨rfl, rfl⟩ | ⟨rfl, rfl⟩ | ⟨rfl, rfl⟩
    · exact absurd rfl hset
    · exact absurd rfl hrelease
    all_goals exact congrArg Host.Outcome.next (ownerCmd_planRuns hopen hlc hnonce hsig rfl hany)
/-- Settles O47: a wipe of the lid leaves the identity but for its Umber keys, and an owner command is its effect between the
checks and the answer. -/
theorem ownerAndLifeCycle : Obligations.OwnerAndLifeCycle := by
  unfold Obligations.OwnerAndLifeCycle
  exact ⟨ownerCommands, lifeCycleCommands, ownerCommandsRefused, fun s dik hlc hidle hrng => provisioned dik hlc hidle hrng⟩

end Sys2Proof
end

section
/-! Index Units (O23): the state of a table, sorted keys, and the sort of a list. -/

namespace Sys2Proof.Machine

/-! ## Sorted keys, each once (R180) -/

/-- The first of each run of equal keys. -/
def dedup (l : List Nat) : List Nat := l.foldr (fun k l => if l.head? = some k then l else k :: l) []

theorem uniqKeys_eq (ks : List Nat) : uniqKeys ks = dedup (ks.mergeSort (· ≤ ·)) := rfl

theorem head_dedup (k : Nat) (l : List Nat) : (dedup (k :: l)).head? = some k := by
  change (if (dedup l).head? = some k then dedup l else k :: dedup l).head? = some k
  by_cases h : (dedup l).head? = some k
  · rw [if_pos h, h]
  · rw [if_neg h]
    rfl

theorem mem_dedup {x : Nat} (l : List Nat) : x ∈ dedup l ↔ x ∈ l := by
  induction l with
  | nil => rfl
  | cons k l ih =>
    change x ∈ (if (dedup l).head? = some k then dedup l else k :: dedup l) ↔ _
    by_cases h : (dedup l).head? = some k
    · rw [if_pos h, ih, List.mem_cons]
      refine ⟨.inr, fun hx => hx.elim (fun heq => ?_) id⟩
      rw [← ih, heq]
      exact List.mem_of_mem_head? h
    · rw [if_neg h, List.mem_cons, List.mem_cons, ih]

theorem dedup_pairwise {l : List Nat} (h : l.Pairwise (· ≤ ·)) : (dedup l).Pairwise (· < ·) := by
  induction l with
  | nil => exact .nil
  | cons k l ih =>
    obtain ⟨hk, hl⟩ := List.pairwise_cons.mp h
    change (if (dedup l).head? = some k then dedup l else k :: dedup l).Pairwise (· < ·)
    by_cases hhead : (dedup l).head? = some k
    · rw [if_pos hhead]
      exact ih hl
    · rw [if_neg hhead]
      refine List.pairwise_cons.mpr ⟨fun x hx => ?_, ih hl⟩
      have hle : k ≤ x := hk x ((mem_dedup l).mp hx)
      refine lt_of_le_of_ne hle fun heq => hhead ?_
      subst heq
      cases hd : dedup l with
      | nil => rw [hd] at hx; exact absurd hx List.not_mem_nil
      | cons y ys =>
        have hpair := ih hl
        rw [hd] at hpair hx
        obtain ⟨hy, -⟩ := List.pairwise_cons.mp hpair
        rcases List.mem_cons.mp hx with rfl | hx
        · rfl
        · have hlt := hy k hx
          have hge : k ≤ y := hk y ((mem_dedup l).mp (hd ▸ List.mem_cons_self))
          omega

theorem mem_uniqKeys {x : Nat} (ks : List Nat) : x ∈ uniqKeys ks ↔ x ∈ ks := by
  rw [uniqKeys_eq, mem_dedup, List.mem_mergeSort]

theorem uniqKeys_pairwise (ks : List Nat) : (uniqKeys ks).Pairwise (· < ·) := by
  rw [uniqKeys_eq]
  refine dedup_pairwise ?_
  have h := List.pairwise_mergeSort (le := fun a b : Nat => decide (a ≤ b)) (fun a b c hab hbc => by simp at *; omega)
    (fun a b => by simp; omega) ks
  exact h.imp fun hab => of_decide_eq_true hab

/-! ## The state of a table -/

namespace State

theorem part_setTableSt (s : State) (p t r : Nat) (x : TableSt) :
    (s.setTableSt p t r x).part p = { s.part p with tables := mput TableSt.reset (s.part p).tables (tableKey t r) x } :=
  s.part_modPart p _

theorem tableSt_setTableSt (s : State) (p t r : Nat) (x : TableSt) : (s.setTableSt p t r x).tableSt p t r = x := by
  rw [tableSt, part_setTableSt, mget_mput_self]

theorem setTableSt_partOnly (s : State) (p t r : Nat) (x : TableSt) : PartOnly p s (s.setTableSt p t r x) := .modPart s p _

theorem modTableSt_eq (s : State) (p t r : Nat) (f : TableSt → TableSt) : s.modTableSt p t r f = s.setTableSt p t r (f (s.tableSt p t r)) := rfl

theorem markStarted_partOnly (s : State) (p : Nat) (ts : List Nat) : PartOnly p s (s.markStarted p ts) := .modPart s p _

theorem tableSt_markStarted (s : State) (p : Nat) (ts : List Nat) (t r : Nat) : (s.markStarted p ts).tableSt p t r = s.tableSt p t r := by
  rw [tableSt, markStarted, part_modPart, tableSt]

end State

/-! ## Frames: a partition and memory -/

/-- From `s` to `t` only partition `p` and memory may differ. -/
structure PartMem (p : Nat) (s t : State) : Prop where
  frame : t = { s with parts := t.parts, mem := t.mem, history := t.history }
  other : ∀ q, q ≠ p → t.part q = s.part q

namespace PartMem

variable {p : Nat} {s t u : State}

theorem refl (p : Nat) (s : State) : PartMem p s s := ⟨rfl, fun _ _ => rfl⟩

theorem trans (h : PartMem p s t) (h' : PartMem p t u) : PartMem p s u :=
  ⟨by rw [h'.frame, h.frame], fun q hq => (h'.other q hq).trans (h.other q hq)⟩

theorem ofPart (h : PartOnly p s t) : PartMem p s t := ⟨by rw [h.frame], h.other⟩

theorem ofMem (h : MemOnly s t) : PartMem p s t := ⟨by rw [h.frame], fun q _ => by rw [h.frame]; rfl⟩

theorem ite (c : Prop) [Decidable c] (h : PartMem p s t) (h' : PartMem p s u) : PartMem p s (if c then t else u) := by
  split <;> assumption

theorem foldl {α : Type} {act : State → α → State} (hact : ∀ v x, PartMem p v (act v x)) (l : List α) (s : State) :
    PartMem p s (l.foldl act s) := by
  induction l generalizing s with
  | nil => exact refl p s
  | cons x l ih => exact (hact s x).trans (ih _)

theorem wr (s : State) (a : Nat) (b : List Byte) : PartMem p s (s.wr a b) := .ofMem ((MemOnly.refl s).wr a b)

end PartMem

theorem part_wr (s : State) (a : Nat) (b : List Byte) (p : Nat) : (s.wr a b).part p = s.part p := by
  rw [((MemOnly.refl s).wr a b).frame]
  rfl

theorem length_flatten_leBytes (n : Nat) (l : List Nat) : (l.map (leBytes n)).flatten.length = n * l.length := by
  induction l with
  | nil => simp
  | cons x l ih => rw [List.map_cons, List.flatten_cons, List.length_append, ih, leBytes_length, List.length_cons, Nat.mul_succ]; omega

/-! ## The sort of a list -/

/-- The output of the sort of a list of row keys. -/
def sortOut (tag : Nat) (ks : List Nat) : SortOut :=
  { mb := tag, uniq := uniqKeys ks, segmap := ks.map fun k => (uniqKeys ks).idxOf k, defs := (ks.filter (· = defaultKey)).length }

/-- Each position names its key's place among the unique ones. -/
theorem sortOut_segmap (tag : Nat) {ks : List Nat} {i j k : Nat} (hj : (sortOut tag ks).segmap[i]? = some j) (hk : ks[i]? = some k) :
    (sortOut tag ks).uniq[j]? = some k := by
  have hmap : (sortOut tag ks).segmap[i]? = some ((uniqKeys ks).idxOf k) := by
    rw [sortOut, List.getElem?_map, hk]
    rfl
  have hidx : j = (uniqKeys ks).idxOf k := Option.some.inj (hj.symm.trans hmap)
  have hmem : k ∈ uniqKeys ks := (mem_uniqKeys ks).mpr (List.mem_of_getElem? hk)
  rw [hidx]
  exact List.getElem?_idxOf hmem

end Sys2Proof.Machine

namespace Sys2Proof

open Machine
open Machine (State)

/-- A sorted list: its output kept with the table, and its unique keys and segment map in memory. -/
def sortedList (s : State) (p table r tag : Nat) (ks : List Nat) : State :=
  ((s.setTableSt p table r { s.tableSt p table r with
    sorted := (s.tableSt p table r).sorted.filter (·.mb ≠ tag) ++ [sortOut tag ks] }).wr
      (region p (.work 0 table (State.mbSlot tag) r)) ((uniqKeys ks).map (leBytes 8)).flatten).wr
      (region p (.work 1 table (State.mbSlot tag) r)) ((sortOut tag ks).segmap.map (leBytes 4)).flatten

theorem sortList_eq {s : State} {p table r : Nat} {d : TableDesc} (hdesc : s.tableDesc p table = some d) (mb : Nat) :
    s.sortList p table r mb = sortedList s p table r (mbTag (s.sortStep p table r mb) mb)
      ((s.listOf p table r (mbTag (s.sortStep p table r mb) mb)).map fun e => keyOf d e.index) := by
  unfold State.sortList
  rw [hdesc]
  rfl

theorem sortedList_partMem (s : State) (p table r tag : Nat) (ks : List Nat) : PartMem p s (sortedList s p table r tag ks) :=
  ((PartMem.ofPart (s.setTableSt_partOnly p table r _)).trans (.wr _ _ _)).trans (.wr _ _ _)

theorem sortOf_sortedList (s : State) (p table r tag : Nat) (ks : List Nat) :
    (sortedList s p table r tag ks).sortOf p table r tag = some (sortOut tag ks) := by
  have hst : (sortedList s p table r tag ks).tableSt p table r = { s.tableSt p table r with
      sorted := (s.tableSt p table r).sorted.filter (·.mb ≠ tag) ++ [sortOut tag ks] } := by
    rw [sortedList, State.tableSt, part_wr, part_wr]
    exact State.tableSt_setTableSt s p table r _
  have hnone : ((s.tableSt p table r).sorted.filter (·.mb ≠ tag)).find? (·.mb = tag) = none :=
    List.find?_eq_none.mpr fun x hx => by simpa using (List.mem_filter.mp hx).2
  rw [State.sortOf, hst]
  dsimp only
  rw [List.find?_append, hnone]
  simp [sortOut]

theorem rd8_sortedList (s : State) (p table r tag : Nat) (ks : List Nat) {a : Nat}
    (huniq : ¬ (region p (.work 0 table (State.mbSlot tag) r) ≤ a ∧
      a < region p (.work 0 table (State.mbSlot tag) r) + 8 * (uniqKeys ks).length))
    (hseg : ¬ (region p (.work 1 table (State.mbSlot tag) r) ≤ a ∧ a < region p (.work 1 table (State.mbSlot tag) r) + 4 * ks.length)) :
    (sortedList s p table r tag ks).rd8 a = s.rd8 a := by
  have hlen0 := length_flatten_leBytes 8 (uniqKeys ks)
  have hlen1 := length_flatten_leBytes 4 (sortOut tag ks).segmap
  have hsegs : (sortOut tag ks).segmap.length = ks.length := List.length_map _
  rw [hsegs] at hlen1
  rw [sortedList, State.rd8_wr_ne _ _ _ _ (by omega), State.rd8_wr_ne _ _ _ _ (by omega)]
  rfl

theorem indexSortIsUniqueAndRising : Claims.IndexSortIsUniqueAndRising := by
  unfold Claims.IndexSortIsUniqueAndRising
  intro s p table mb r d hranks hdesc
  dsimp only
  have hexec : exec (.indexSort p table mb) s = .next ((s.sortList p table r mb).markStarted p
        (s.tasksWhere p fun t => t.kind = 4 && t.table = table && (t.mb = mb || t.mb = 0xFFFF))) := by
    refine congrArg Host.Outcome.next ?_
    rw [hranks]
    rfl
  rw [sortList_eq hdesc] at hexec
  generalize mbTag (s.sortStep p table r mb) mb = tag at *
  generalize ((s.listOf p table r tag).map fun e => keyOf d e.index) = ks at *
  have hframe := (sortedList_partMem s p table r tag ks).trans
    (.ofPart ((sortedList s p table r tag ks).markStarted_partOnly p (s.tasksWhere p fun t => t.kind = 4 && t.table = table && (t.mb = mb || t.mb = 0xFFFF))))
  refine ⟨_, sortOut tag ks, hexec, ?_, uniqKeys_pairwise ks, fun _ => mem_uniqKeys ks, List.length_map _,
    fun _ _ _ => sortOut_segmap tag, rfl, hframe.frame, hframe.other, fun a huniq hseg => ?_⟩
  · rw [State.sortOf, State.tableSt_markStarted]
    exact sortOf_sortedList s p table r tag ks
  · exact (State.rd8_congr rfl a).trans (rd8_sortedList s p table r tag ks huniq hseg)

theorem indexUnitFinishesOldest : Claims.IndexUnitFinishesOldest := by
  unfold Claims.IndexUnitFinishesOldest
  intro s p unit t pl hplan ht hfind
  have hnew : (s.part p).done.contains t = false := by
    have h := List.find?_some hfind
    rw [Bool.and_eq_true, Bool.not_eq_true'] at h
    exact h.1
  have hexec : exec (.indexUnitComplete p unit) s = .next (s.taskDone p t) := by
    refine congrArg Host.Outcome.next ?_
    rw [show (s.part p).plan = some pl from hplan]
    dsimp only
    rw [hfind]
  rw [State.taskDone_eq, taskOfToken ht] at hexec
  refine ⟨_, hexec, ?_, ?_, rfl, fun q hq => (PartOnly.modPart s p _).other q hq⟩
  · rw [State.part_modPart]
    exact if_neg (by rw [hnew]; decide)
  · rw [State.part_modPart]

/-- Settles O23: the unique keys are the sorted list without repetitions, and an Index Unit ends the first task it has begun. -/
theorem indexUnits : Obligations.IndexUnits := by
  unfold Obligations.IndexUnits
  exact ⟨indexSortIsUniqueAndRising, indexUnitFinishesOldest⟩

end Sys2Proof
end

section
/-! Segment reduction and the sparse update (O24). -/

namespace Sys2Proof.Machine
namespace State

theorem tableSt_of_tables {s t : State} {p : Nat} (h : (t.part p).tables = (s.part p).tables) (k r : Nat) :
    t.tableSt p k r = s.tableSt p k r := by rw [tableSt, h, tableSt]

/-! ## Segment reduction (R188, R189) -/

/-- The entry gradients of the step in the order of R188. -/
def stepEntries (s : State) (p t r : Nat) : List EntryGrad :=
  ((s.tableSt p t r).entries.filter fun e => e.mb / 65536 = s.curStep p).mergeSort gradBefore

theorem mem_stepEntries {s : State} {p t r : Nat} {e : EntryGrad} :
    e ∈ s.stepEntries p t r ↔ e ∈ (s.tableSt p t r).entries ∧ e.mb / 65536 = s.curStep p := by
  rw [stepEntries, List.mem_mergeSort, List.mem_filter, decide_eq_true_iff]

/-- The row gradients that the reduction leaves. -/
def reducedGrads (s : State) (p t r : Nat) : List (Nat × List W32) := (s.segments p t r).map fun g => (g.1, segmentSum 40 g.2)

theorem reducedGrads_eq (s : State) (p t r : Nat) : s.reducedGrads p t r =
    (uniqKeys ((s.stepEntries p t r).map (·.key))).map fun k =>
      (k, segmentSum 40 (((s.stepEntries p t r).filter (·.key = k)).map (·.vals))) := by
  rw [reducedGrads, segments, List.map_map]
  rfl

theorem keys_reducedGrads (s : State) (p t r : Nat) :
    (s.reducedGrads p t r).map (·.1) = uniqKeys ((s.stepEntries p t r).map (·.key)) := by
  rw [reducedGrads_eq, List.map_map]
  exact List.map_id _

theorem tableSt_reduceTable (s : State) (p t r : Nat) : (s.reduceTable p t r).tableSt p t r =
    { s.tableSt p t r with reduced := true, rowGrads := s.reducedGrads p t r } := by
  have h : ∀ (v : State) (f : Part → Part), (∀ x, (f x).tables = x.tables) → (v.modPart p f).tableSt p t r = v.tableSt p t r :=
    fun v f hf => tableSt_of_tables (by rw [part_modPart, hf]) t r
  unfold reduceTable
  extract_lets gs th u
  rw [h]
  · exact tableSt_setTableSt s p t r _
  · exact fun _ => rfl

theorem reduceTable_partOnly (s : State) (p t r : Nat) : PartOnly p s (s.reduceTable p t r) := by
  unfold reduceTable
  extract_lets gs th u
  exact (s.setTableSt_partOnly p t r _).trans (.modPart u p _)

end State
end Sys2Proof.Machine

namespace Sys2Proof

open Machine
open Machine (State)

theorem segmentsSumByKey : Claims.SegmentsSumByKey := by
  unfold Claims.SegmentsSumByKey
  intro s p table r hranks
  dsimp only
  have hexec : exec (.segmentReduction p table) s = .next ((s.reduceTable p table r).markStarted p
      (s.tasksWhere p fun t => t.kind = 5 && t.table = table)) := by
    refine congrArg Host.Outcome.next ?_
    rw [hranks]
    rfl
  have hst := (State.tableSt_markStarted (s.reduceTable p table r) p (s.tasksWhere p fun t => t.kind = 5 && t.table = table) table r).trans
    (s.tableSt_reduceTable p table r)
  have hframe := (s.reduceTable_partOnly p table r).trans
    ((s.reduceTable p table r).markStarted_partOnly p (s.tasksWhere p fun t => t.kind = 5 && t.table = table))
  refine ⟨_, hexec, ?_, fun k => ?_, fun g hg => ?_, ?_, ?_, hframe.frame, hframe.other⟩
  · rw [hst, s.keys_reducedGrads]
    exact uniqKeys_pairwise _
  · rw [hst, s.keys_reducedGrads, mem_uniqKeys, List.mem_map]
    exact ⟨fun ⟨e, he, hk⟩ => ⟨e, (State.mem_stepEntries.mp he).1, hk, (State.mem_stepEntries.mp he).2⟩,
      fun ⟨e, he, hk, hstep⟩ => ⟨e, State.mem_stepEntries.mpr ⟨he, hstep⟩, hk⟩⟩
  · rw [hst] at hg
    dsimp only at hg
    rw [s.reducedGrads_eq, List.mem_map] at hg
    obtain ⟨k, -, rfl⟩ := hg
    rfl
  · rw [hst]
  · rw [hst]

/-! ## The sparse update (R18, R306) -/

end Sys2Proof

namespace Sys2Proof.Machine
namespace State

theorem och_setOch_ne (s : State) {e q e' q' : Nat} (x : OchreQ) (h : e' * 8 + q' ≠ e * 8 + q) :
    (s.setOch e q x).och e' q' = s.och e' q' := mget_mput_ne _ _ _ h

/-- Where a row lies is a matter of the table's state and the plan. -/
theorem rowAt_congr {s t : State} {p : Nat} (htables : (t.part p).tables = (s.part p).tables) (hplan : (t.part p).plan = (s.part p).plan)
    (k : Nat) (d : TableDesc) (r key : Nat) : t.rowAt p k d r key = s.rowAt p k d r key := by
  unfold rowAt pageRec firstPage planRanks
  rw [tableSt_of_tables htables, hplan]

/-- The rows of a table's gradients homed on one engine, with their places. -/
def homedRows (s : State) (p t : Nat) (d : TableDesc) (r e : Nat) : List (RowAt × List W32) :=
  ((s.tableSt p t r).rowGrads.map fun g => (s.rowAt p t d r g.1, g.2)).filter fun x => min x.1.home 8 = e

/-- The UPDATE command for them. -/
def updateFrame (s : State) (p t r task e n : Nat) : Frame :=
  { opc := 4, part := p, table := t, tag := task, opa := region p (.work 6 t e r), opb := region p (.work 4 t e r), count := n,
    token := 2 ^ 63 + task, step := s.curStep p, rsvdZero := true }

/-- From `s` to `t` only memory and the engines' queues may differ. -/
def OchMem (s t : State) : Prop := t = { s with ochre := t.ochre, mem := t.mem, history := t.history }

theorem OchMem.trans {s t u : State} (h : OchMem s t) (h' : OchMem t u) : OchMem s u := by
  unfold OchMem at *
  rw [h', h]

theorem OchMem.ofMem {s t : State} (h : MemOnly s t) : OchMem s t := by
  unfold OchMem
  rw [h.frame]

theorem OchMem.part {s t : State} (h : OchMem s t) (p : Nat) : t.part p = s.part p := by rw [h]; rfl

theorem OchMem.curStep {s t : State} (h : OchMem s t) (p : Nat) : t.curStep p = s.curStep p := by rw [h]; rfl

theorem sendFrame_taken {s : State} {e : Nat} {f : Frame} (hfrozen : (s.och e f.part).frozen = false)
    (hroom : (s.och e f.part).frames.length < 256) :
    s.sendFrame e f = s.setOch e f.part { s.och e f.part with frames := (s.och e f.part).frames ++ [f] } := by
  unfold sendFrame
  rw [if_neg (by simp [hfrozen]), if_neg (by omega)]

/-- What one engine is given. -/
structure Issued1 (s : State) (p t : Nat) (d : TableDesc) (r task e : Nat) (u : State) : Prop where
  frame : OchMem s u
  none : s.homedRows p t d r e = [] → u.och e p = s.och e p
  some : s.homedRows p t d r e ≠ [] → (u.och e p).frames = (s.och e p).frames ++ [s.updateFrame p t r task e (s.homedRows p t d r e).length]
  other : ∀ e', e' ≠ e → u.och e' p = s.och e' p

theorem issueUpdate_issued {s : State} {p e : Nat} (t : Nat) (d : TableDesc) (r task : Nat) (hfrozen : (s.och e p).frozen = false)
    (hroom : (s.och e p).frames.length < 256) : Issued1 s p t d r task e (s.issueUpdate p t d r task e) := by
  unfold issueUpdate
  extract_lets rows a b u v
  by_cases hrows : rows = []
  · rw [if_pos hrows]
    exact ⟨rfl, fun _ => rfl, fun hne => absurd hrows hne, fun _ _ => rfl⟩
  · have hu : MemOnly s v := ((MemOnly.refl s).wr a _).wr b _
    have hstep : v.curStep p = s.curStep p := by rw [hu.frame]; rfl
    have hoch : ∀ e', v.och e' p = s.och e' p := fun e' => by rw [hu.frame]; rfl
    have hsend := sendFrame_taken (s := v) (e := e) (f := v.updateFrame p t r task e rows.length) (by rw [← hoch] at hfrozen; exact hfrozen)
      (by rw [← hoch] at hroom; exact hroom)
    have hf : v.updateFrame p t r task e rows.length = s.updateFrame p t r task e rows.length := by
      rw [updateFrame, hstep, updateFrame]
    rw [if_neg hrows]
    change Issued1 s p t d r task e (v.sendFrame e (v.updateFrame p t r task e rows.length))
    rw [hsend, hf]
    refine ⟨(OchMem.ofMem hu).trans rfl, fun h => absurd h hrows, fun _ => ?_, fun e' he => ?_⟩
    · rw [show (s.updateFrame p t r task e rows.length).part = p from rfl, och_setOch, hoch]
      rfl
    · rw [och_setOch_ne v _ (by change e' * 8 + p ≠ e * 8 + p; omega), hoch]

/-- What the engines of a list are given. -/
structure IssuedAll (s : State) (p t : Nat) (d : TableDesc) (r task : Nat) (l : List Nat) (u : State) : Prop where
  frame : OchMem s u
  none : ∀ e ∈ l, s.homedRows p t d r e = [] → u.och e p = s.och e p
  some : ∀ e ∈ l, s.homedRows p t d r e ≠ [] →
    (u.och e p).frames = (s.och e p).frames ++ [s.updateFrame p t r task e (s.homedRows p t d r e).length]
  other : ∀ e, e ∉ l → u.och e p = s.och e p

theorem homedRows_congr {s t : State} {p : Nat} (htables : (t.part p).tables = (s.part p).tables) (hplan : (t.part p).plan = (s.part p).plan)
    (k : Nat) (d : TableDesc) (r e : Nat) : t.homedRows p k d r e = s.homedRows p k d r e := by
  have hrow : ∀ key, t.rowAt p k d r key = s.rowAt p k d r key := rowAt_congr htables hplan k d r
  unfold homedRows
  simp only [hrow]
  rw [show t.tableSt p k r = s.tableSt p k r from tableSt_of_tables htables k r]

theorem issueUpdates_issued {p : Nat} (t : Nat) (d : TableDesc) (r task : Nat) {l : List Nat} (hl : l.Nodup) {s : State}
    (hfree : ∀ e ∈ l, (s.och e p).frozen = false ∧ (s.och e p).frames.length < 256) :
    IssuedAll s p t d r task l (l.foldl (fun s e => s.issueUpdate p t d r task e) s) := by
  induction l generalizing s with
  | nil => exact ⟨rfl, fun _ h => absurd h List.not_mem_nil, fun _ h => absurd h List.not_mem_nil, fun _ _ => rfl⟩
  | cons e l ih =>
    obtain ⟨he, hl⟩ := List.nodup_cons.mp hl
    obtain ⟨hfrozen, hroom⟩ := hfree e List.mem_cons_self
    have h1 := issueUpdate_issued t d r task hfrozen hroom
    rw [List.foldl_cons]
    generalize s.issueUpdate p t d r task e = v at *
    have hpart := h1.frame.part p
    have hrows : ∀ e', v.homedRows p t d r e' = s.homedRows p t d r e' := homedRows_congr (by rw [hpart]) (by rw [hpart]) t d r
    have hframe' : ∀ e' n, v.updateFrame p t r task e' n = s.updateFrame p t r task e' n := fun e' n => by
      rw [updateFrame, h1.frame.curStep, updateFrame]
    have h2 := ih hl (s := v) fun e' he' => by
      have hne : e' ≠ e := fun heq => he (heq ▸ he')
      rw [h1.other e' hne]
      exact hfree e' (List.mem_cons_of_mem _ he')
    generalize l.foldl (fun s e => s.issueUpdate p t d r task e) v = u at *
    refine ⟨h1.frame.trans h2.frame, fun e' he' hnone => ?_, fun e' he' hsome => ?_, fun e' he' => ?_⟩
    · rcases List.mem_cons.mp he' with rfl | he'
      · rw [h2.other e' he, h1.none hnone]
      · have hne : e' ≠ e := fun heq => he (heq ▸ he')
        rw [h2.none e' he' (by rw [hrows]; exact hnone), h1.other e' hne]
    · rcases List.mem_cons.mp he' with rfl | he'
      · rw [h2.other e' he, h1.some hsome]
      · have hne : e' ≠ e := fun heq => he (heq ▸ he')
        rw [h2.some e' he' (by rw [hrows]; exact hsome), h1.other e' hne, hrows, hframe']
    · obtain ⟨hne, hnot⟩ := not_or.mp (mt List.mem_cons.mpr he')
      rw [h2.other e' hnot, h1.other e' hne]

/-- The rows of R306 homed on an engine, by their gradients. -/
theorem homedRows_eq (s : State) (p t : Nat) (d : TableDesc) (r e : Nat) : s.homedRows p t d r e =
    ((s.tableSt p t r).rowGrads.filter fun g => min (s.rowAt p t d r g.1).home 8 = e).map fun g => (s.rowAt p t d r g.1, g.2) := by
  rw [homedRows, List.filter_map]
  rfl

end State
end Sys2Proof.Machine

namespace Sys2Proof

open Machine
open Machine (State)

section
variable {s : State} {p table t : Nat} {d : TableDesc}

theorem updateTable_unruled (hdesc : s.tableDesc p table = some d) (hrule : d.rule = 0) : s.updateTable p table t = s.taskDone p t := by
  unfold State.updateTable
  rw [hdesc]
  exact if_pos hrule

theorem updateTable_waits (hdesc : s.tableDesc p table = some d) (hrule : d.rule ≠ 0)
    (hwhole : ¬ s.gradsWhole p table d (s.rankOfTask p t) = true) : s.updateTable p table t = s := by
  unfold State.updateTable
  rw [hdesc]
  exact (if_neg hrule).trans (if_pos (by simp [hwhole]))

theorem updateTable_whole (hdesc : s.tableDesc p table = some d) (hrule : d.rule ≠ 0)
    (hwhole : s.gradsWhole p table d (s.rankOfTask p t) = true) : s.updateTable p table t =
      if ((s.markStarted p [t]).tableSt p table (s.rankOfTask p t)).rowGrads = [] then (s.markStarted p [t]).taskDone p t
      else (List.range 9).foldl (fun v e => v.issueUpdate p table d (s.rankOfTask p t) t e) (s.markStarted p [t]) := by
  unfold State.updateTable
  rw [hdesc]
  exact (if_neg hrule).trans (if_neg (by simp [hwhole]))

theorem updateTable_empty (hdesc : s.tableDesc p table = some d) (hrule : d.rule ≠ 0)
    (hwhole : s.gradsWhole p table d (s.rankOfTask p t) = true) (hempty : (s.tableSt p table (s.rankOfTask p t)).rowGrads = []) :
    s.updateTable p table t = (s.markStarted p [t]).taskDone p t := by
  rw [updateTable_whole hdesc hrule hwhole, State.tableSt_markStarted, if_pos hempty]

theorem updateTable_issues (hdesc : s.tableDesc p table = some d) (hrule : d.rule ≠ 0)
    (hwhole : s.gradsWhole p table d (s.rankOfTask p t) = true) (hsome : (s.tableSt p table (s.rankOfTask p t)).rowGrads ≠ []) :
    s.updateTable p table t =
      (List.range 9).foldl (fun v e => v.issueUpdate p table d (s.rankOfTask p t) t e) (s.markStarted p [t]) := by
  rw [updateTable_whole hdesc hrule hwhole, State.tableSt_markStarted, if_neg hsome]

end

theorem sparseUpdateIssues : Claims.SparseUpdateIssues := by
  unfold Claims.SparseUpdateIssues
  intro s p table t r d hp htasks ht hrank hdesc hactive hfree
  dsimp only
  have hexec : exec (.sparseUpdate p table) s = .next (s.updateTable p table t) := by
    refine congrArg Host.Outcome.next ((if_pos hactive).trans ?_)
    rw [htasks]
    rfl
  have hdone : ∀ v : State, ((v.taskDone p t).part p).done.contains t = true := fun v => State.done_taskDone v p ht
  by_cases hrule : d.rule = 0
  · rw [updateTable_unruled hdesc hrule] at hexec
    have hframe := s.taskDone_partOnly p t
    refine ⟨_, hexec, fun h => absurd hrule h, fun h => absurd hrule h, fun _ => ⟨hdone s, hframe.frame⟩, fun h => absurd hrule h,
      by rw [hframe.frame], hframe.other⟩
  by_cases hwhole : s.gradsWhole p table d r = true
  case neg =>
    rw [updateTable_waits hdesc hrule (by rw [hrank]; exact hwhole)] at hexec
    exact ⟨s, hexec, fun _ h => absurd h hwhole, fun _ _ => rfl, fun h => absurd h (by simp [hrule, hwhole]), fun _ h => absurd h hwhole,
      rfl, fun _ _ => rfl⟩
  have hmark := s.markStarted_partOnly p [t]
  have hstarted : ((s.markStarted p [t]).part p).started.contains t = true := by
    rw [State.markStarted, State.part_modPart]
    by_cases hmem : t ∈ (s.part p).started <;> simp [hmem]
  by_cases hempty : (s.tableSt p table r).rowGrads = []
  · rw [updateTable_empty hdesc hrule (by rw [hrank]; exact hwhole) (by rw [hrank]; exact hempty)] at hexec
    have hframe := hmark.trans ((s.markStarted p [t]).taskDone_partOnly p t)
    refine ⟨_, hexec, fun _ _ => ?_, fun _ h => absurd hwhole h, fun _ => ⟨hdone _, hframe.frame⟩, fun _ _ h => absurd hempty h,
      by rw [hframe.frame], hframe.other⟩
    rw [State.taskDone_eq, State.part_modPart]
    exact hstarted
  · rw [updateTable_issues hdesc hrule (by rw [hrank]; exact hwhole) (by rw [hrank]; exact hempty), hrank] at hexec
    have hoch : ∀ e, (s.markStarted p [t]).och e p = s.och e p := fun _ => rfl
    have hrows : ∀ e, (s.markStarted p [t]).homedRows p table d r e = s.homedRows p table d r e := fun e =>
      State.homedRows_congr (by rw [State.markStarted, State.part_modPart]) (by rw [State.markStarted, State.part_modPart]) table d r e
    have hframe' : ∀ e n, (s.markStarted p [t]).updateFrame p table r t e n = s.updateFrame p table r t e n := fun _ _ => rfl
    generalize s.markStarted p [t] = v at *
    have hissued := State.issueUpdates_issued (s := v) table d r t List.nodup_range fun e he => by
      rw [hoch]; exact hfree e (List.mem_range.mp he)
    generalize (List.range 9).foldl (fun s e => s.issueUpdate p table d r t e) v = u at *
    refine ⟨u, hexec, fun _ _ => by rw [hissued.frame.part]; exact hstarted, fun _ h => absurd hwhole h,
      fun h => absurd h (by simp [hrule, hempty]), fun _ _ _ e he => ?_, by rw [hissued.frame, hmark.frame],
      fun q hq => (hissued.frame.part q).trans (hmark.other q hq)⟩
    have hmem := List.mem_range.mpr he
    have heq := (hrows e).trans (s.homedRows_eq p table d r e)
    refine ⟨fun hnone => ?_, fun hsome => ?_⟩
    · rw [hissued.none e hmem (by rw [heq, hnone]; rfl), hoch]
    · refine ⟨_, (hissued.some e hmem (by rw [heq]; simpa using hsome)).trans (by rw [hoch, hframe', heq, List.length_map]), ?_⟩
      exact ⟨rfl, rfl, rfl, rfl, rfl, rfl, rfl, rfl⟩

/-- Settles O24: the keys of a reduction are the sorted ones of its entries, and a sparse update is one command an engine. -/
theorem segmentsAndUpdates : Obligations.SegmentsAndUpdates := by
  unfold Obligations.SegmentsAndUpdates
  exact ⟨segmentsSumByKey, sparseUpdateIssues⟩

end Sys2Proof
end

section
/-! Holdover, the beat tree and the election of a master (O12). -/

namespace Sys2Proof.Machine
namespace State

variable {s t : State}

theorem flag_of_getF {f : Fld} {i v : Nat} {b : Bool} (h : s.getF f i = v) (hb : decide (v = 1) = b) : s.flag f i = b := by
  rw [flag, h]
  simpa using hb

/-! ## Into holdover and out of it -/

/-- A module goes into holdover. -/
structure Lost (s t : State) : Prop where
  frame : t = { s with regs := t.regs, holdoverBeats := t.holdoverBeats, electionBeats := t.electionBeats, retake := t.retake }
  held : t.flag F.PLN_BEAT_STATUS_HOLDOVER 0 = true
  field : ∀ f i, Apart f i F.PLN_BEAT_STATUS_HOLDOVER 0 → t.getF f i = s.getF f i
  word : ∀ o, o ≠ F.PLN_BEAT_STATUS_HOLDOVER.base → t.word o = s.word o

theorem enterHoldover_lost (s : State) : Lost s s.enterHoldover := by
  unfold enterHoldover
  split
  · next h => exact ⟨rfl, h, fun _ _ _ => rfl, fun _ _ => rfl⟩
  · exact ⟨rfl, flag_putF_one _ F.PLN_BEAT_STATUS_HOLDOVER _ (by decide) (by decide), fun f i h => getF_putF_apart s 1 h,
      fun o ho => word_putF_ne s F.PLN_BEAT_STATUS_HOLDOVER 0 1 ho⟩

/-- A module leaves holdover. -/
structure Regained (s t : State) : Prop where
  frame : t = { s with regs := t.regs, holdoverBeats := 0, electionBeats := 0 }
  held : t.flag F.PLN_BEAT_STATUS_HOLDOVER 0 = false
  field : ∀ f i, Apart f i F.PLN_BEAT_STATUS_HOLDOVER 0 → t.getF f i = s.getF f i
  word : ∀ o, o ≠ F.PLN_BEAT_STATUS_HOLDOVER.base → t.word o = s.word o

theorem leaveHoldover_regained (s : State) : Regained s s.leaveHoldover where
  frame := rfl
  held := flag_of_getF (getF_putF s F.PLN_BEAT_STATUS_HOLDOVER 0 0 (by decide) (by decide)) rfl
  field := fun f i h => getF_putF_apart s 0 h
  word := fun o ho => word_putF_ne s F.PLN_BEAT_STATUS_HOLDOVER 0 0 ho

/-- With no trained port that delivers markers the search goes past the fabric. -/
theorem pickSource_of_silent (h : ∀ k, k < 6 → s.portUp k = true → (s.port k).good = 0) :
    s.pickSource = if s.refPresent then 2 else 3 := by
  unfold pickSource
  rw [if_neg]
  rw [List.any_eq_true]
  rintro ⟨k, hk, hup⟩
  rw [Bool.and_eq_true] at hup
  obtain ⟨hup, hgood⟩ := hup
  have hz := h k (List.mem_range.mp hk) hup
  have hgood := of_decide_eq_true hgood
  omega

/-- The port states are apart from `PLN_BEAT_STATUS`. -/
theorem fabStat_apart_beat (k : Nat) : Apart F.FAB_PSTAT_STATE k F.PLN_BEAT_STATUS_HOLDOVER 0 := by
  refine .inl ?_
  rw [fabStat_off]
  simp only [Fld.off, F.PLN_BEAT_STATUS_HOLDOVER]
  omega

/-- A lost reference is no longer there. -/
def noRef (t : State) : State := if t.getF F.PLN_BEAT_STATUS_SRC_ACTIVE 0 = 2 then { t with refPresent := false } else t

theorem noRef_frame (t : State) : t.noRef = { t with refPresent := t.noRef.refPresent } := by
  unfold noRef
  split <;> rfl

theorem noRef_ref (t : State) :
    t.noRef.refPresent = if t.getF F.PLN_BEAT_STATUS_SRC_ACTIVE 0 = 2 then false else t.refPresent := by
  unfold noRef
  split <;> rfl

theorem noRef_regs (t : State) : t.noRef.regs = t.regs := by rw [noRef_frame]

theorem exec_sourceLost (s : State) : exec .beatSourceLost s = .next
    (if s.enterHoldover.noRef.getF F.PLN_BEAT_CFG_SRC 0 = 0 then
      s.enterHoldover.noRef.putF F.PLN_BEAT_STATUS_SRC_ACTIVE 0 s.enterHoldover.noRef.pickSource else s.enterHoldover.noRef) := rfl

/-- A loss of the source: holdover, the active source searched anew where `SRC` is automatic. -/
theorem exec_beatSourceLost (s : State) : ∃ u, exec .beatSourceLost s = .next u ∧ u.flag F.PLN_BEAT_STATUS_HOLDOVER 0 = true ∧
    (s.getF F.PLN_BEAT_CFG_SRC 0 ≠ 0 →
      u.getF F.PLN_BEAT_STATUS_SRC_ACTIVE 0 = s.getF F.PLN_BEAT_STATUS_SRC_ACTIVE 0) ∧
    (s.getF F.PLN_BEAT_CFG_SRC 0 = 0 → (∀ k, k < 6 → s.portUp k = true → (s.port k).good = 0) →
      u.getF F.PLN_BEAT_STATUS_SRC_ACTIVE 0 =
        if s.getF F.PLN_BEAT_STATUS_SRC_ACTIVE 0 ≠ 2 ∧ s.refPresent = true then 2 else 3) ∧
    (∀ o, o ≠ F.PLN_BEAT_STATUS_HOLDOVER.base → u.word o = s.word o) ∧
    u = { s with regs := u.regs, refPresent := u.refPresent, holdoverBeats := u.holdoverBeats,
                 electionBeats := u.electionBeats, retake := u.retake } := by
  rw [exec_sourceLost]
  have hlost := s.enterHoldover_lost
  generalize s.enterHoldover = t at hlost ⊢
  have hregs := t.noRef_regs
  have href := t.noRef_ref
  have hframe := t.noRef_frame
  generalize t.noRef = n at hregs href hframe ⊢
  have hfield : ∀ f i, Apart f i F.PLN_BEAT_STATUS_HOLDOVER 0 → n.getF f i = s.getF f i := fun f i h =>
    (getF_congr_regs hregs).trans (hlost.field f i h)
  have hheld : n.flag F.PLN_BEAT_STATUS_HOLDOVER 0 = true :=
    (flag_congr (by rw [State.word, hregs, State.word])).trans hlost.held
  have hword : ∀ o, o ≠ F.PLN_BEAT_STATUS_HOLDOVER.base → n.word o = s.word o := fun o ho =>
    (by rw [State.word, hregs, State.word] : n.word o = t.word o).trans (hlost.word o ho)
  have hcfg : n.getF F.PLN_BEAT_CFG_SRC 0 = s.getF F.PLN_BEAT_CFG_SRC 0 := hfield _ _ (.inl (by decide))
  have hactive : t.getF F.PLN_BEAT_STATUS_SRC_ACTIVE 0 = s.getF F.PLN_BEAT_STATUS_SRC_ACTIVE 0 :=
    hlost.field _ _ (.inr (.inl (by decide)))
  have hports : n.ports = s.ports := by rw [hframe, hlost.frame]
  have hn : n = { s with regs := n.regs, refPresent := n.refPresent, holdoverBeats := n.holdoverBeats,
                         electionBeats := n.electionBeats, retake := n.retake } := by
    rw [hframe, hlost.frame]
  have htref : t.refPresent = s.refPresent := by rw [hlost.frame]
  rw [hcfg]
  by_cases hauto : s.getF F.PLN_BEAT_CFG_SRC 0 = 0
  · rw [if_pos hauto]
    refine ⟨_, rfl, ?_, fun hne => absurd hauto hne, fun _ hsilent => ?_, fun o ho => ?_, ?_⟩
    · rw [flag_putF_bits _ _ _ _ _ _ (.inr (by decide)), hheld]
    · have hsil : ∀ k, k < 6 → n.portUp k = true → (n.port k).good = 0 := by
        intro k hk hup
        rw [portUp, hfield _ _ (fabStat_apart_beat k)] at hup
        rw [port, hports]
        exact hsilent k hk hup
      rw [getF_putF _ _ _ _ (by decide) (by decide), pickSource_of_silent hsil, href, hactive, htref]
      by_cases h2 : s.getF F.PLN_BEAT_STATUS_SRC_ACTIVE 0 = 2
      · rw [if_pos h2, if_neg (by decide), if_neg (fun hand => hand.1 h2)]; rfl
      · rw [if_neg h2]
        by_cases hr : s.refPresent = true
        · rw [if_pos hr, if_pos ⟨h2, hr⟩]; rfl
        · rw [if_neg hr, if_neg (fun hand => hr hand.2)]; rfl
    · rw [word_putF_ne _ _ _ _ ho, hword o ho]
    · rw [hn]; rfl
  · rw [if_neg hauto]
    exact ⟨_, rfl, hheld, fun _ => hfield _ _ (.inr (.inl (by decide))), fun h => absurd h hauto, hword, hn⟩

/-- A reference taken is there. -/
def seen (t : State) (src : BeatSrc) : State :=
  match src with
  | .beatRef => { t with refPresent := true }
  | _ => t

theorem seen_frame (t : State) (src : BeatSrc) : t.seen src = { t with refPresent := t.refPresent || decide (src = .beatRef) } := by
  have hkept : t = { t with refPresent := t.refPresent || false } := by rw [Bool.or_false]
  cases src
  · exact hkept
  · exact congrArg (fun b => { t with refPresent := b }) (Bool.or_true _).symm
  · exact hkept

/-- The source a module takes back, with its edge. -/
def sourceTaken (s : State) (src : BeatSrc) (edge : Int) : State :=
  ((s.leaveHoldover.putF F.PLN_BEAT_STATUS_SRC_ACTIVE 0 (srcCode src)).slewTo edge).seen src

theorem exec_holdoverExit_taken (src : BeatSrc) (m : Option Nat) (edge : Int) (hheld : s.flag F.PLN_BEAT_STATUS_HOLDOVER 0 = true)
    (hmay : s.mayTake src = true) : exec (.holdoverExit src m edge) s = .next (match src, m with
      | .fabric, some b => (s.sourceTaken src edge).takeBn (b - (s.sourceTaken src edge).bn)
      | _, _ => s.sourceTaken src edge) := by
  have hnot : ¬ ((!s.flag F.PLN_BEAT_STATUS_HOLDOVER 0) = true ∨ ¬ s.mayTake src = true) := by
    rw [hheld, hmay]; decide
  refine congrArg Host.Outcome.next ((if_neg hnot).trans ?_)
  cases src <;> cases m <;> rfl

/-- Of the registers, a source taken back shows itself and that holdover is over. -/
structure Retaken (s : State) (src : BeatSrc) (edge : Int) (t : State) : Prop where
  frame : t = { s with regs := t.regs, holdoverBeats := 0, electionBeats := 0, slew := edge,
                       refPresent := s.refPresent || decide (src = .beatRef) }
  held : t.flag F.PLN_BEAT_STATUS_HOLDOVER 0 = false
  active : t.getF F.PLN_BEAT_STATUS_SRC_ACTIVE 0 = srcCode src
  word : ∀ o, o ≠ F.PLN_BEAT_STATUS_HOLDOVER.base → t.word o = s.word o

theorem srcCode_lt (src : BeatSrc) : srcCode src < 4 := by cases src <;> decide

/-- Whether the reference is there is kept beside the registers. -/
theorem seen_retaken {w : State} {src : BeatSrc} {edge : Int}
    (hw : w = { s with regs := w.regs, holdoverBeats := 0, electionBeats := 0, slew := edge })
    (hheld : w.flag F.PLN_BEAT_STATUS_HOLDOVER 0 = false) (hactive : w.getF F.PLN_BEAT_STATUS_SRC_ACTIVE 0 = srcCode src)
    (hword : ∀ o, o ≠ F.PLN_BEAT_STATUS_HOLDOVER.base → w.word o = s.word o) : Retaken s src edge (w.seen src) := by
  have href : w.refPresent = s.refPresent := by rw [hw]
  rw [seen_frame, href]
  exact ⟨by rw [hw], hheld, hactive, hword⟩

theorem sourceTaken_retaken (s : State) (src : BeatSrc) (edge : Int) : Retaken s src edge (s.sourceTaken src edge) := by
  have hleft := s.leaveHoldover_regained
  rw [sourceTaken]
  generalize s.leaveHoldover = l at hleft ⊢
  refine seen_retaken ?_ ?_ ?_ fun o ho => ?_
  · rw [hleft.frame]; rfl
  · rw [flag, getF_slewTo, ← flag, flag_putF_bits _ _ _ _ _ _ (.inr (by decide)), hleft.held]
  · rw [getF_slewTo, getF_putF _ _ _ _ (by decide) (by decide)]
    exact Nat.mod_eq_of_lt (srcCode_lt src)
  · rw [word_slewTo, word_putF_ne _ _ _ _ ho, hleft.word o ho]

theorem Retaken.bn {src : BeatSrc} {edge : Int} (h : Retaken s src edge t) : t.bn = s.bn := bn_congr (h.word _ (by decide))

theorem takeBn_bn (d : Int) : (s.takeBn d).bn = s.bn := rfl

end State

open State

/-- Losing the source, hearing no marker, and a source taken back. -/
theorem holdoverBeginsAndEnds : Claims.HoldoverBeginsAndEnds := by
  unfold Claims.HoldoverBeginsAndEnds
  refine ⟨fun s => ?_, ?_, ?_⟩
  · obtain ⟨u, hexec, hheld, hset, hsearch, hword, hframe⟩ := s.exec_beatSourceLost
    refine ⟨u, hexec, hheld, hset, fun hauto hone hsilent => ?_, fun hauto htwo hsilent => ?_, bn_congr (hword _ (by decide)), hword, hframe⟩
    · rw [hsearch hauto hsilent, hone]
      simp
    · rw [hsearch hauto hsilent, htwo]
      simp
  · intro s hsrc hnot hmiss
    have hall : (List.range 6).all (fun k => !s.portUp k || s.lossDetect ≤ (s.port k).missed) = true := by
      rw [List.all_eq_true]
      intro k hk
      have hk := hmiss k (List.mem_range.mp hk)
      cases hup : s.portUp k
      · rfl
      · simpa using hk hup
    have hlost := s.enterHoldover_lost
    refine ⟨{ s.enterHoldover with lostMaster := some (s.getF F.PLN_BEAT_STATUS_CUR_MASTER 0) },
      congrArg Host.Outcome.next (if_pos ⟨hsrc, by rw [hnot]; decide, hall⟩), hlost.held, hlost.word, ?_⟩
    generalize s.enterHoldover = t at hlost ⊢
    rw [hlost.frame]
  · intro s src m edge hheld hmay
    rw [exec_holdoverExit_taken src m edge hheld hmay]
    have h := s.sourceTaken_retaken src edge
    generalize s.sourceTaken src edge = t at h ⊢
    have hstep : t.bnStep = s.bnStep := by rw [h.frame]
    have hslew : t.slew = edge := by rw [h.frame]
    have href : t.refPresent = (s.refPresent || decide (src = .beatRef)) := by rw [h.frame]
    have plain : t.flag F.PLN_BEAT_STATUS_HOLDOVER 0 = false ∧
        t.getF F.PLN_BEAT_STATUS_SRC_ACTIVE 0 = State.srcCode src ∧ t.slew = edge ∧ t.bn = s.bn ∧
        t.refPresent = (s.refPresent || decide (src = .beatRef)) ∧ t.bnStep = s.bnStep ∧
        (∀ o, o ≠ F.PLN_BEAT_STATUS_HOLDOVER.base → t.word o = s.word o) ∧
        t = { s with regs := t.regs, refPresent := t.refPresent, holdoverBeats := t.holdoverBeats,
                     electionBeats := t.electionBeats, slew := t.slew, bnStep := t.bnStep, retake := t.retake } :=
      ⟨h.held, h.active, hslew, h.bn, href, hstep, h.word, by rw [h.frame]⟩
    cases src with
    | fabric =>
      cases m with
      | none => exact ⟨t, rfl, plain⟩
      | some b =>
        have hexec : t.takeBn (b - t.bn) = { t with retake := false, bnStep := if b = s.bn then s.bnStep else some (b + 1) } := by
          rw [takeBn_sub, h.bn, hstep]
        refine ⟨_, congrArg Host.Outcome.next hexec, ?_⟩
        exact ⟨h.held, h.active, hslew, h.bn, href, rfl, h.word, by rw [h.frame]⟩
    | beatRef => exact ⟨t, rfl, plain⟩
    | crystal => exact ⟨t, rfl, plain⟩

end Sys2Proof.Machine
end

section
/-! The beat tree: alternate upstream, the election of a master, beats lost (O12). -/

namespace Sys2Proof.Machine
namespace State

variable {s t : State}

/-! ## The alternate upstream -/

/-- The module takes a trained port that delivers markers as its upstream. -/
def withAlt (s : State) (k : Nat) : State := { s with altUpstream := some k }

def alternate (s : State) (k : Nat) : State := (s.leaveHoldover.putF F.PLN_BEAT_STATUS_UPSTREAM 0 k).withAlt k

theorem getF_withAlt (s : State) (k : Nat) (f : Fld) (i : Nat) : (s.withAlt k).getF f i = s.getF f i := rfl

theorem word_withAlt (s : State) (k o : Nat) : (s.withAlt k).word o = s.word o := rfl

structure Alternate (s : State) (k : Nat) (t : State) : Prop where
  frame : t = { s with regs := t.regs, holdoverBeats := 0, electionBeats := 0, altUpstream := some k }
  upstream : t.getF F.PLN_BEAT_STATUS_UPSTREAM 0 = k
  held : t.flag F.PLN_BEAT_STATUS_HOLDOVER 0 = false
  word : ∀ o, o ≠ F.PLN_BEAT_STATUS_HOLDOVER.base → t.word o = s.word o

theorem alternate_alternate (s : State) {k : Nat} (hk : k < 6) : Alternate s k (s.alternate k) := by
  have hleft := s.leaveHoldover_regained
  rw [alternate]
  generalize s.leaveHoldover = l at hleft ⊢
  refine ⟨?_, ?_, ?_, fun o ho => ?_⟩
  · rw [hleft.frame]; rfl
  · rw [getF_withAlt, getF_putF _ _ _ _ (by decide) (by decide)]
    exact Nat.mod_eq_of_lt (by simp only [F.PLN_BEAT_STATUS_UPSTREAM]; omega)
  · rw [flag, getF_withAlt, ← flag, flag_putF_bits _ _ _ _ _ _ (.inl (by decide)), hleft.held]
  · rw [word_withAlt, word_putF_ne _ _ _ _ ho, hleft.word o ho]

/-- The edge, and after a holdover the BN, of the marker last seen at a port. -/
def toMark (s : State) (held : Bool) (m : Option (Int × Int)) : State :=
  match m with
  | some (d, e) => if held then (s.slewTo e).takeBn d else s.slewTo e
  | none => s

theorem toMark_eq (s : State) (held : Bool) (m : Option (Int × Int)) : s.toMark held m = { s with
    slew := (match m with
      | some (_, e) => e
      | none => s.slew)
    bnStep := (match m with
      | some (d, _) => if held = true ∧ d ≠ 0 then some (s.bn + 1 + d).toNat else s.bnStep
      | none => s.bnStep)
    retake := (s.toMark held m).retake } := by
  match m, held with
  | none, _ => rfl
  | some (d, e), false => rfl
  | some (d, e), true =>
    by_cases hd : d = 0
    · simp only [toMark, takeBn, ne_eq, hd, not_true_eq_false, and_false, if_false, if_true]; rfl
    · simp only [toMark, takeBn, ne_eq, hd, not_false_eq_true, and_self, if_true]; rfl

/-- Whether a port other than the upstream delivers markers. -/
def delivers (s : State) (k : Nat) : Bool :=
  k ≠ s.getF F.PLN_BEAT_STATUS_UPSTREAM 0 && s.portUp k && s.lossDetect ≤ (s.port k).good

theorem exec_alternateUpstream_eq (s : State) (k : Nat) : exec (.alternateUpstream k) s = .next
    (if (List.range 6).find? s.delivers = some k ∧ ¬ s.flag F.PLN_BEAT_STATUS_IS_MASTER 0 ∧
        (s.getF F.PLN_BEAT_STATUS_UPSTREAM 0 = 7 ∨ s.lossDetect ≤ (s.port (s.getF F.PLN_BEAT_STATUS_UPSTREAM 0)).missed ∨
          ¬ s.portUp (s.getF F.PLN_BEAT_STATUS_UPSTREAM 0)) then
      (s.alternate k).toMark (s.flag F.PLN_BEAT_STATUS_HOLDOVER 0) (s.port k).mark else s) := rfl

/-- The lowest-numbered port that delivers is the one found. -/
theorem find_delivers {k : Nat} (hk : k < 6) (hup : s.portUp k = true) (hgood : s.lossDetect ≤ (s.port k).good)
    (hne : s.getF F.PLN_BEAT_STATUS_UPSTREAM 0 ≠ k)
    (hlow : ∀ j, j < k → s.getF F.PLN_BEAT_STATUS_UPSTREAM 0 = j ∨ s.portUp j = false ∨ (s.port j).good < s.lossDetect) :
    (List.range 6).find? s.delivers = some k := by
  refine List.find?_range_eq_some.mpr ⟨?_, List.mem_range.mpr hk, fun j hj => ?_⟩
  · simp [delivers, hup, hgood, Ne.symm hne]
  · obtain h | h | h := hlow j hj
    · simp [delivers, h]
    · simp [delivers, h]
    · simp [delivers, h]

/-! ## The election -/

theorem sendMarkers_portsOut (s : State) : PortsOut s s.sendMarkers := by
  unfold sendMarkers
  extract_lets up hold es b
  exact .foldl (fun v _ => ((PortsOut.refl v).emitFlit _).ite (.refl v)) _ (.refl s)

theorem renotice_portsOut (s : State) (old : Nat) : PortsOut s (s.renotice old) := by
  unfold renotice
  dsimp only
  split
  · exact (PortsOut.refl s).ite ((PortsOut.refl s).emit _)
  · exact .refl s

/-- A module that has left holdover shows itself as master. -/
def claimed (l : State) : State :=
  let s := ((l.putF F.PLN_BEAT_STATUS_IS_MASTER 0 1).putF F.PLN_BEAT_STATUS_CUR_MASTER 0 l.pos).putF F.PLN_BEAT_STATUS_UPSTREAM 0 7
  s.putF F.PLN_BEAT_STATUS_SRC_ACTIVE 0 (if s.refPresent then 2 else 3)

/-- What a module that declares itself master shows. -/
structure Declared (s t : State) : Prop where
  frame : t = { s with regs := t.regs, ports := t.ports, out := t.out, holdoverBeats := 0, electionBeats := 0 }
  held : t.flag F.PLN_BEAT_STATUS_HOLDOVER 0 = false
  master : t.flag F.PLN_BEAT_STATUS_IS_MASTER 0 = true
  cur : t.getF F.PLN_BEAT_STATUS_CUR_MASTER 0 = s.pos % 2 ^ F.PLN_BEAT_STATUS_CUR_MASTER.width
  upstream : t.getF F.PLN_BEAT_STATUS_UPSTREAM 0 = 7
  active : t.getF F.PLN_BEAT_STATUS_SRC_ACTIVE 0 = if s.refPresent then 2 else 3
  word : ∀ o, o ≠ F.PLN_BEAT_STATUS_HOLDOVER.base → t.word o = s.word o

theorem claimed_declared {l : State} (hleft : Regained s l) : Declared s l.claimed := by
  have href : l.refPresent = s.refPresent := by rw [hleft.frame]
  have hclaim : l.claimed = (((l.putF F.PLN_BEAT_STATUS_IS_MASTER 0 1).putF F.PLN_BEAT_STATUS_CUR_MASTER 0 s.pos).putF
      F.PLN_BEAT_STATUS_UPSTREAM 0 7).putF F.PLN_BEAT_STATUS_SRC_ACTIVE 0 (if s.refPresent then 2 else 3) := by
    rw [← (place_congr (hleft.word F.FAB_CFG_X.base (by decide))).1, ← href]
    rfl
  rw [hclaim]
  refine ⟨?_, ?_, ?_, ?_, ?_, ?_, fun o ho => ?_⟩
  · rw [hleft.frame]; rfl
  · rw [flag_putF_bits _ _ _ _ _ _ (.inr (by decide)), flag_putF_bits _ _ _ _ _ _ (.inl (by decide)),
      flag_putF_bits _ _ _ _ _ _ (.inl (by decide)), flag_putF_bits _ _ _ _ _ _ (.inl (by decide)), hleft.held]
  · rw [flag_putF_bits _ _ _ _ _ _ (.inr (by decide)), flag_putF_bits _ _ _ _ _ _ (.inl (by decide)),
      flag_putF_bits _ _ _ _ _ _ (.inl (by decide)), flag_putF_one _ _ _ (by decide) (by decide)]
  · rw [getF_putF_bits _ _ _ _ _ _ (.inr (by decide)), getF_putF_bits _ _ _ _ _ _ (.inr (by decide)),
      getF_putF _ _ _ _ (by decide) (by decide)]
    rfl
  · rw [getF_putF_bits _ _ _ _ _ _ (.inr (by decide)), getF_putF _ _ _ _ (by decide) (by decide)]
    rfl
  · rw [getF_putF _ _ _ _ (by decide) (by decide)]
    cases s.refPresent <;> rfl
  · rw [word_putF_ne _ _ _ _ ho, word_putF_ne _ _ _ _ ho, word_putF_ne _ _ _ _ ho, word_putF_ne _ _ _ _ ho, hleft.word o ho]

/-- The markers and the notice that follow leave by the ports. -/
theorem Declared.portsOut {u : State} (h : Declared s t) (htu : PortsOut t u) : Declared s u where
  frame := by rw [htu.frame, h.frame]
  held := (flag_congr (htu.word _)).trans h.held
  master := (flag_congr (htu.word _)).trans h.master
  cur := (getF_congr_word (htu.word _)).trans h.cur
  upstream := (getF_congr_word (htu.word _)).trans h.upstream
  active := (getF_congr_word (htu.word _)).trans h.active
  word := fun o ho => (htu.word o).trans (h.word o ho)

theorem exec_masterDeclare_eq (s : State) : exec .masterDeclare s = .next
    (if s.flag F.PLN_BEAT_STATUS_HOLDOVER 0 ∧ 1 ≤ s.placesAfter s.orderFrom s.pos ∧ s.placesAfter s.orderFrom s.pos ≤ 255 ∧
        16 * s.placesAfter s.orderFrom s.pos ≤ s.electionBeats ∧ ¬ s.flag F.GEN_STATUS_FAILED 0 then
      (s.leaveHoldover.claimed.renotice (s.getF F.PLN_BEAT_STATUS_CUR_MASTER 0)).sendMarkers else s) := rfl

/-! ## Beats lost -/

/-- Partition `p`'s plan has stopped: its position is 0 and the partition event says so. -/
def PlanEnded (s : State) (p : Nat) : Prop := s.getF F.PLN_SPOS_POS p = 0 ∧ natBits (s.getF F.DMA_PEVT_CAUSE p) 1 1 = 1

theorem natBits_or_self (n b : Nat) : natBits (n ||| 2 ^ b) b b = 1 := by
  have hbit : (n ||| 2 ^ b).testBit b = true := by rw [Nat.testBit_or, Nat.testBit_two_pow_self, Bool.or_true]
  rw [natBits, Nat.shiftRight_eq_div_pow, show b + 1 - b = 1 by omega, pow_one]
  rw [Nat.testBit_eq_decide_div_mod_eq] at hbit
  exact of_decide_eq_true hbit

theorem planEnded_congr {p : Nat} (hpos : t.getF F.PLN_SPOS_POS p = s.getF F.PLN_SPOS_POS p)
    (hev : t.getF F.DMA_PEVT_CAUSE p = s.getF F.DMA_PEVT_CAUSE p) (h : PlanEnded s p) : PlanEnded t p := by
  unfold PlanEnded
  rw [hpos, hev]
  exact h

theorem planEnded_planStop (s : State) (p cause : Nat) : PlanEnded (s.planStop p cause) p := by
  unfold planStop
  extract_lets s1 s2 s3 s4 s5
  have h4 : s4.getF F.PLN_SPOS_POS p = 0 := getF_putF s3 F.PLN_SPOS_POS p 0 (by decide) (by decide)
  clear_value s4
  have h5 : s5.getF F.PLN_SPOS_POS p = 0 := by
    refine (getF_foldl (fun v x => ?_) _ _).trans h4
    dsimp only
    split
    · exact getF_signalQ _ _ _ _
    · rfl
  clear_value s5
  refine ⟨?_, ?_⟩
  · rw [getF_pevt_apart _ _ (.inl ?_), h5]
    simp only [Fld.off, F.PLN_SPOS_POS, F.DMA_PEVT_CAUSE]; omega
  · have hlt : s5.getF F.DMA_PEVT_CAUSE p < 2 ^ 4 := getF_lt _ F.DMA_PEVT_CAUSE _
    have hor : s5.getF F.DMA_PEVT_CAUSE p ||| 2 ^ 1 < 2 ^ 4 := Nat.or_lt_two_pow hlt (by decide)
    rw [pevt, getF_signalQ, getF_putF _ _ _ _ (by decide) (by decide)]
    exact (congrArg (natBits · 1 1) (Nat.mod_eq_of_lt hor)).trans (natBits_or_self _ 1)

theorem stopApart_pos {p q : Nat} (hq : q < 8) (h : q ≠ p) : StopApart F.PLN_SPOS_POS q p := by
  refine ⟨.inl ?_, .inl ?_, .inl ?_, .inl ?_, .inl ?_, fun g => .inl ?_⟩ <;>
    simp only [Fld.off, F.PLN_CTRL_RUN, F.GEN_STATUS_RUNNING, F.PLN_COMMIT_STATUS_DSTATE, F.PLN_SPOS_POS, F.DMA_PEVT_CAUSE,
      F.TIL_STATUS_STATE] <;> omega

theorem stopApart_event {p q : Nat} (hq : q < 8) (h : q ≠ p) : StopApart F.DMA_PEVT_CAUSE q p := by
  refine ⟨.inl ?_, .inl ?_, .inl ?_, .inl ?_, .inl ?_, fun g => .inl ?_⟩ <;>
    simp only [Fld.off, F.PLN_CTRL_RUN, F.GEN_STATUS_RUNNING, F.PLN_COMMIT_STATUS_DSTATE, F.PLN_SPOS_POS, F.DMA_PEVT_CAUSE,
      F.TIL_STATUS_STATE] <;> omega

/-- Every plan that ran has ended once the plans are stopped. -/
theorem planEnded_stopPlans (s : State) (cause : Nat) {q : Nat} (hq : q < 8) (hrun : s.running q = true) :
    PlanEnded (s.stopPlans cause) q := by
  have ended : ∀ (l : List Nat), (∀ p ∈ l, p < 8) → ∀ s : State, (q ∈ l ∧ s.running q = true) ∨ PlanEnded s q →
      PlanEnded (l.foldl (fun s p => if s.running p then s.stopRolled p cause else s) s) q := by
    intro l
    induction l with
    | nil => exact fun _ s h => h.resolve_left fun hno => List.not_mem_nil hno.1
    | cons p l ih =>
      intro hl s h
      have hp : p < 8 := hl p List.mem_cons_self
      refine ih (fun r hr => hl r (List.mem_cons_of_mem _ hr)) _ ?_
      dsimp only
      by_cases hqp : q = p
      · subst hqp
        split
        · exact .inr (planEnded_planStop _ _ _)
        · next hoff => exact .inr (h.resolve_left fun hon => hoff hon.2)
      · split
        · refine h.imp (fun hon => ⟨(List.mem_cons.mp hon.1).resolve_left hqp, ?_⟩) fun hend => ?_
          · rw [running_stopRolled_ne s cause hp hqp, hon.2]
          · exact planEnded_congr (getF_stopRolled (stopApart_pos hq hqp) s cause)
              (getF_stopRolled (stopApart_event hq hqp) s cause) hend
        · exact h.imp (fun hon => ⟨(List.mem_cons.mp hon.1).resolve_left hqp, hon.2⟩) id
  exact ended _ (fun p hp => List.mem_range.mp hp) s (.inl ⟨List.mem_range.mpr hq, hrun⟩)

/-- The count of beats is none that a plan's stop writes. -/
theorem stopApart_bn {p : Nat} : StopApart F.PLN_BN_BN 0 p := by
  refine ⟨.inl ?_, .inl ?_, .inl ?_, .inl ?_, .inl ?_, fun g => .inl ?_⟩ <;>
    simp only [Fld.off, F.PLN_BN_BN, F.PLN_CTRL_RUN, F.GEN_STATUS_RUNNING, F.PLN_COMMIT_STATUS_DSTATE, F.PLN_SPOS_POS,
      F.DMA_PEVT_CAUSE, F.TIL_STATUS_STATE] <;> omega

theorem faultStep_stopPlans (s : State) (cause : Nat) : FaultStep s (s.stopPlans cause) :=
  .foldl (.refl s) (fun v p => (FaultStep.refl v).ite ((FaultStep.refl v).stopRolled p cause)) _

/-- With no partition active a module fault reaches none. -/
theorem faultAll_of_inactive (h : ∀ p, p < 8 → (s.part p).active = false) (cause : Nat) : s.faultAll cause = s :=
  foldl_of_fixed fun p hp => if_neg (by rw [h p (List.mem_range.mp hp)]; decide)

theorem exec_beatLost_eq (s : State) : exec .beatLost s = .next
    (if s.flag F.PLN_BEAT_STATUS_HOLDOVER 0 ∧ 4096 ≤ s.holdoverBeats then (s.faultAll 0x0E).stopPlans 0x0E else s) := rfl

end State

open State

/-- The alternate upstream, the return, the election, and beats lost. -/
theorem beatTree : Claims.BeatTree := by
  unfold Claims.BeatTree
  refine ⟨?_, ?_, ?_, ?_⟩
  · intro s k hmaster hk hup hgood hne hlow hupstream
    have hcond : s.getF F.PLN_BEAT_STATUS_UPSTREAM 0 = 7 ∨ s.lossDetect ≤ (s.port (s.getF F.PLN_BEAT_STATUS_UPSTREAM 0)).missed ∨
        ¬ s.portUp (s.getF F.PLN_BEAT_STATUS_UPSTREAM 0) := by
      obtain h | h | h := hupstream
      · exact .inl h
      · exact .inr (.inr (by rw [h]; decide))
      · exact .inr (.inl h)
    refine ⟨_, (exec_alternateUpstream_eq s k).trans (congrArg Host.Outcome.next
      ((if_pos ⟨find_delivers hk hup hgood hne hlow, by rw [hmaster]; decide, hcond⟩).trans (toMark_eq _ _ _))), ?_⟩
    obtain ⟨hframe, hself, hheld, hword⟩ := s.alternate_alternate hk
    generalize s.alternate k = t at hself hheld hword hframe ⊢
    have hbn : t.bn = s.bn := bn_congr (hword _ (by decide))
    have hslew : t.slew = s.slew := by rw [hframe]
    have hstep : t.bnStep = s.bnStep := by rw [hframe]
    have halt : t.altUpstream = some k := by rw [hframe]
    rw [hbn, hslew, hstep]
    refine ⟨hself, halt, hheld, rfl, rfl, hword, ?_⟩
    rw [hframe]
  · intro s k hroute hk halt hgood
    have hcond : s.altUpstream.isSome = true ∧ s.routeIn (s.getF F.PLN_BEAT_STATUS_CUR_MASTER 0) < 6 ∧
        64 ≤ (s.port (s.routeIn (s.getF F.PLN_BEAT_STATUS_CUR_MASTER 0))).good := by
      rw [hroute]
      exact ⟨Option.isSome_iff_ne_none.mpr halt, hk, hgood⟩
    refine ⟨_, congrArg Host.Outcome.next (if_pos hcond), ?_, rfl, fun o ho => ?_, rfl⟩
    · rw [hroute]
      exact (getF_putF s F.PLN_BEAT_STATUS_UPSTREAM 0 k (by decide) (by decide)).trans
        (Nat.mod_eq_of_lt (by simp only [F.PLN_BEAT_STATUS_UPSTREAM]; omega))
    · exact word_putF_ne s F.PLN_BEAT_STATUS_UPSTREAM 0 _ ho
  · intro s k hplace hheld h1 h255 hbeats hfailed
    have hcond : s.flag F.PLN_BEAT_STATUS_HOLDOVER 0 = true ∧ 1 ≤ s.placesAfter s.orderFrom s.pos ∧
        s.placesAfter s.orderFrom s.pos ≤ 255 ∧ 16 * s.placesAfter s.orderFrom s.pos ≤ s.electionBeats ∧
        ¬ s.flag F.GEN_STATUS_FAILED 0 = true := by
      rw [hplace]
      exact ⟨hheld, h1, h255, hbeats, by rw [hfailed]; decide⟩
    have h := (claimed_declared s.leaveHoldover_regained).portsOut ((renotice_portsOut s.leaveHoldover.claimed (s.getF F.PLN_BEAT_STATUS_CUR_MASTER 0)).trans
      (sendMarkers_portsOut _))
    exact ⟨_, (exec_masterDeclare_eq s).trans (congrArg Host.Outcome.next (if_pos hcond)), h.master, h.cur, h.upstream, h.held,
      h.active, bn_congr (h.word _ (by decide)), h.word, h.frame⟩
  · intro s hheld hbeats hidle
    refine ⟨s.stopPlans 0x0E, (exec_beatLost_eq s).trans (congrArg Host.Outcome.next ((if_pos ⟨hheld, hbeats⟩).trans
      (by rw [faultAll_of_inactive hidle]))), fun p hp => running_stopPlans s 0x0E hp,
      getF_stopPlans (fun p _ => stopApart_bn) s 0x0E, fun a => ?_, ?_, fun p hp hrun => planEnded_stopPlans s 0x0E hp hrun⟩
    · exact rd8_congr (faultStep_stopPlans s 0x0E).mem a
    · rw [(faultStep_stopPlans s 0x0E).frame]

end Sys2Proof.Machine

namespace Sys2Proof
open Machine

/-- Settles O12: holdover begins and ends as the source is lost and found, a port that delivers markers becomes the alternate
upstream, the election declares a master, and 4,096 beats of holdover end every plan. -/
theorem holdoverAndBeatTree : Obligations.HoldoverAndBeatTree := by
  unfold Obligations.HoldoverAndBeatTree
  exact ⟨holdoverBeginsAndEnds, beatTree⟩

end Sys2Proof
end

section
/-! Frames that come in are checked, and counted where they are not accepted (O52, R372 to R376). -/

namespace Sys2Proof

open Machine
open Machine (State)

theorem countsOne_bump (s : State) (f : Fld) (k : Nat) (h : f.lo ≤ f.hi) (h64 : f.hi < 64) : CountsOne s (s.bump f k) f k :=
  ⟨s.getF_bumpBy f k 1 h h64, rfl, fun _ ho => s.word_bumpBy_ne f k 1 ho⟩

theorem countsOne_otherIn (s : State) (k : Nat) : CountsOne s (s.otherIn k) F.STM_PCNT_OTHER k :=
  countsOne_bump s F.STM_PCNT_OTHER k (by decide) (by decide)

/-! ## Commands of a frame -/

section
variable {s t : State} {k : Nat} {b : List Byte} {c : Instr}

theorem frameIn_of_down (hup : s.linkUp k = false) (type : Nat) (act : State → StreamHdr → List Byte → State) :
    s.frameIn k b type act = s := if_pos (by rw [hup]; rfl)

/-- A frame that holds no stream frame is counted by its receipt alone. -/
theorem frameIn_of_none (hup : s.linkUp k = true) (h : s.hear k b = (t, none)) (type : Nat)
    (act : State → StreamHdr → List Byte → State) : s.frameIn k b type act = t := by
  rw [State.frameIn, hup, h]
  rfl

/-- The commands of frames: each lets its frame come in. -/
theorem exec_frame (hc : frameOf c = some (k, b)) : (∃ type act, exec c s = .next (s.frameIn k b type act)) ∨
    c = .otherFrame ⟨k, b⟩ := by
  unfold frameOf at hc
  split at hc
  case h_7 => exact absurd hc (by simp)
  case h_6 x =>
    obtain ⟨rfl, rfl⟩ := Prod.mk.inj (Option.some.inj hc)
    exact .inr rfl
  all_goals
    obtain ⟨rfl, rfl⟩ := Prod.mk.inj (Option.some.inj hc)
    exact .inl ⟨_, _, rfl⟩

theorem exec_frame_of_down (hc : frameOf c = some (k, b)) (hup : s.linkUp k = false) : exec c s = .next s := by
  obtain ⟨type, act, hexec⟩ | rfl := exec_frame (s := s) hc
  · rw [hexec, frameIn_of_down hup]
  · exact congrArg Host.Outcome.next (if_pos (by rw [hup]; rfl))

theorem exec_frame_of_none (hc : frameOf c = some (k, b)) (hup : s.linkUp k = true) (h : s.hear k b = (t, none)) :
    exec c s = .next t := by
  obtain ⟨type, act, hexec⟩ | rfl := exec_frame (s := s) hc
  · rw [hexec, frameIn_of_none hup h]
  · refine congrArg Host.Outcome.next ((if_neg (by rw [hup]; decide)).trans ?_)
    dsimp only
    rw [h]

/-- A frame of a type that no row takes is counted. -/
theorem exec_otherFrame_of_heard {h : StreamHdr} {d : List Byte} (hup : s.linkUp k = true) (hhear : s.hear k b = (t, some (h, d)))
    (htype : h.type ∉ [1, 2, 4, 5]) (h7 : h.type ≠ 7) : exec (.otherFrame ⟨k, b⟩) s = .next (t.otherIn k) := by
  have hnot : ¬ [1, 2, 4, 5, 7].contains h.type = true := by
    rw [List.contains_iff_mem]
    simp only [List.mem_cons, List.not_mem_nil, or_false] at htype ⊢
    omega
  refine congrArg Host.Outcome.next ((if_neg (by rw [hup]; decide)).trans ?_)
  dsimp only
  rw [hhear]
  exact if_neg hnot

/-- A REGISTER frame of a partition that is none is counted. -/
theorem exec_registerFrame_of_part {h : StreamHdr} {d : List Byte} (hup : s.linkUp k = true)
    (hhear : s.hear k b = (t, some (h, d))) (hpart : 7 < h.part) (htype : h.type = 4) :
    exec (.registerFrame ⟨k, b⟩) s = .next (t.otherIn k) := by
  refine congrArg Host.Outcome.next ?_
  dsimp only
  rw [State.frameIn, hup, hhear]
  simp only [Bool.not_true, Bool.false_eq_true, if_false, htype, ne_eq, not_true_eq_false]
  exact if_pos ⟨hpart, by decide⟩

end

/-! ## What a port makes of a frame -/

section
variable {s : State} {k : Nat} {b : List Byte}

theorem hear_of_unformed (h : formed b = false) : s.hear k b = (s.otherIn k, none) := by
  unfold State.hear
  refine if_pos ?_
  by_contra hno
  rw [not_or, not_or, not_not] at hno
  obtain ⟨h64, h9216, hfcs⟩ := hno
  have hf : formed b = true := by
    simp only [formed, Bool.and_eq_true, decide_eq_true_eq]
    exact ⟨⟨by omega, by omega⟩, hfcs⟩
  rw [h] at hf
  exact Bool.noConfusion hf

/-- A frame of the right size whose check sequence stands. -/
theorem hear_of_formed (h : formed b = true) : s.hear k b =
    if ((frameBody b).take 12).take 6 ≠ macBytes (s.getF F.STM_PMAC_MAC k) then (s, none)
    else if (frameRest b).take 2 = secType then s.readSealed k ((frameBody b).take 12) (frameRest b)
    else match readStream k (leNat (((frameBody b).take 12).drop 6)) (frameRest b) with
      | some (h, d) => if h.type = 7 then (s, some (h, d)) else (s.otherIn k, none)
      | none => (s.otherIn k, none) := by
  simp only [formed, Bool.and_eq_true, decide_eq_true_eq] at h
  obtain ⟨⟨h64, h9216⟩, hfcs⟩ := h
  unfold State.hear
  refine if_neg ?_
  rintro (hlt | hgt | hne)
  · omega
  · omega
  · exact hne hfcs

theorem hear_of_other (h : formed b = true) (hmine : ((frameBody b).take 12).take 6 ≠ macBytes (s.getF F.STM_PMAC_MAC k)) :
    s.hear k b = (s, none) := by
  rw [hear_of_formed h]
  exact if_pos hmine

theorem hear_of_clear (h : formed b = true) (hmine : ((frameBody b).take 12).take 6 = macBytes (s.getF F.STM_PMAC_MAC k))
    (hsa : (frameRest b).take 2 ≠ secType)
    (hkex : (readStream k (leNat (((frameBody b).take 12).drop 6)) (frameRest b)).all (·.1.type ≠ 7) = true) :
    s.hear k b = (s.otherIn k, none) := by
  rw [hear_of_formed h]
  refine (if_neg (not_not.mpr hmine)).trans ((if_neg hsa).trans ?_)
  cases hread : readStream k (leNat (((frameBody b).take 12).drop 6)) (frameRest b) with
  | none => rfl
  | some x =>
    rw [hread] at hkex
    exact if_neg (by simpa using hkex)

theorem hear_of_sealed (h : formed b = true) (hmine : ((frameBody b).take 12).take 6 = macBytes (s.getF F.STM_PMAC_MAC k))
    (hsa : (frameRest b).take 2 = secType) : s.hear k b = s.readSealed k ((frameBody b).take 12) (frameRest b) := by
  rw [hear_of_formed h]
  exact (if_neg (not_not.mpr hmine)).trans (if_pos hsa)

end

/-! ## MACsec -/

section
variable {s : State} {k : Nat} {addrs rest : List Byte}

/-- A SecTAG as a frame of this length has it. -/
def tagWhole (rest : List Byte) : Bool :=
  32 ≤ rest.length && le (rest.take 16) 2 1 / 4 = 0x0B && le (rest.take 16) 3 1 = shortLen (rest.length - 32)

theorem readSealed_of_malformed (h : tagWhole rest = false) : s.readSealed k addrs rest = (s.otherIn k, none) := by
  unfold State.readSealed
  refine if_pos ?_
  by_contra hno
  rw [not_or, not_or, not_not, not_not] at hno
  obtain ⟨hlen, htci, hsl⟩ := hno
  have hw : tagWhole rest = true := by
    simp only [tagWhole, Bool.and_eq_true, decide_eq_true_eq]
    exact ⟨⟨by omega, htci⟩, hsl⟩
  rw [h] at hw
  exact Bool.noConfusion hw

theorem readSealed_cond (h : tagWhole rest = true) :
    ¬ (rest.length < 32 ∨ le (rest.take 16) 2 1 / 4 ≠ 0x0B ∨ le (rest.take 16) 3 1 ≠ shortLen (rest.length - 32)) := by
  simp only [tagWhole, Bool.and_eq_true, decide_eq_true_eq] at h
  obtain ⟨⟨hlen, htci⟩, hsl⟩ := h
  rintro (hlt | hne | hne)
  · omega
  · exact hne htci
  · exact hne hsl

theorem readSealed_of_stranger (h : tagWhole rest = true) (hno : (rest.take 16).drop 8 ≠ addrs.drop 6 ++ [0, 1] ∨
      s.assoc (leNat (addrs.drop 6)) (le (rest.take 16) 2 1 % 4) = none) :
    s.readSealed k addrs rest = (s.bump F.STM_PCNT_NOSA k, none) := by
  unfold State.readSealed
  refine (if_neg (readSealed_cond h)).trans ?_
  by_cases hsci : (rest.take 16).drop 8 = addrs.drop 6 ++ [0, 1]
  · refine (if_neg (not_not.mpr hsci)).trans ?_
    rw [hno.resolve_left (not_not.mpr hsci)]
  · exact if_pos hsci

/-- A frame of an association: the checks of its integrity value and its packet number, and what it protects. -/
theorem readSealed_of_assoc {key : SecKey} {last : Nat} (h : tagWhole rest = true)
    (hsci : (rest.take 16).drop 8 = addrs.drop 6 ++ [0, 1])
    (hassoc : s.assoc (leNat (addrs.drop 6)) (le (rest.take 16) 2 1 % 4) = some (key, last)) :
    let ct := (rest.drop 16).take (rest.length - 32)
    let pn := fullPn (last + 1) (ofHighFirst (((rest.take 16).drop 4).take 4))
    let t := s.acceptPn (leNat (addrs.drop 6)) (le (rest.take 16) 2 1 % 4) pn
    s.readSealed k addrs rest =
      if key.icv pn (addrs ++ rest.take 16) ct ≠ rest.drop (16 + (rest.length - 32)) then (s.bump F.STM_PCNT_ICV k, none)
      else if pn ≤ last then (s.bump F.STM_PCNT_REPLAY k, none)
      else match readStream k (leNat (addrs.drop 6)) (key.cipher pn ct) with
        | some (h, d) => if h.type = 7 then (t.otherIn k, none) else (t, some (h, d))
        | none => (t.otherIn k, none) := by
  intro ct pn t
  unfold State.readSealed
  refine (if_neg (readSealed_cond h)).trans ((if_neg (not_not.mpr hsci)).trans ?_)
  rw [hassoc] <;> rfl

end

/-- R372 to R376: what becomes of a frame, check by check. -/
theorem framesAreChecked : Claims.FramesAreChecked := by
  unfold Claims.FramesAreChecked
  intro s k b c hc addrs rest tag n ct mac an mine inSa whole
  have counted : ∀ {t : State} {f : Fld}, s.linkUp k = true → s.hear k b = (t.bump f k, none) → f.lo ≤ f.hi → f.hi < 64 →
      ∃ u, exec c s = .next u ∧ CountsOne t u f k := fun hup hhear h h64 =>
    ⟨_, exec_frame_of_none hc hup hhear, countsOne_bump _ _ _ h h64⟩
  have isMine : mine = true → ((frameBody b).take 12).take 6 = macBytes (s.getF F.STM_PMAC_MAC k) := fun h => of_decide_eq_true h
  have isSealed : inSa = true → (frameRest b).take 2 = secType := fun h => of_decide_eq_true h
  refine ⟨exec_frame_of_down hc, ?form, ?other, ?clear, ?tag, ?stranger, ?sealed⟩
  case form => exact fun hup hform => counted (f := F.STM_PCNT_OTHER) hup (hear_of_unformed hform) (by decide) (by decide)
  case other =>
    intro hup hform hmine
    exact exec_frame_of_none hc hup (hear_of_other hform (of_decide_eq_false hmine))
  case clear =>
    intro hup hform hmine hsa hkex
    exact counted (f := F.STM_PCNT_OTHER) hup (hear_of_clear hform (isMine hmine) (of_decide_eq_false hsa) hkex) (by decide) (by decide)
  case tag =>
    intro hup hform hmine hsa hwhole
    exact counted (f := F.STM_PCNT_OTHER) hup ((hear_of_sealed hform (isMine hmine) (isSealed hsa)).trans
      (readSealed_of_malformed hwhole)) (by decide) (by decide)
  case stranger =>
    intro hup hform hmine hsa hwhole hno
    exact counted (f := F.STM_PCNT_NOSA) hup ((hear_of_sealed hform (isMine hmine) (isSealed hsa)).trans
      (readSealed_of_stranger hwhole hno)) (by decide) (by decide)
  case sealed =>
    intro key last hup hform hmine hsa hwhole hsci hassoc pn good
    have hhear := (hear_of_sealed (s := s) hform (isMine hmine) (isSealed hsa)).trans (readSealed_of_assoc hwhole hsci hassoc)
    have accepted : good = true → last < pn → s.hear k b = match readStream k mac (key.cipher pn ct) with
        | some (h, d) => if h.type = 7 then ((s.acceptPn mac an pn).otherIn k, none) else (s.acceptPn mac an pn, some (h, d))
        | none => ((s.acceptPn mac an pn).otherIn k, none) := fun hgood hpn =>
      hhear.trans ((if_neg (not_not.mpr (of_decide_eq_true hgood))).trans (if_neg (Nat.not_le.mpr hpn)))
    refine ⟨fun hgood => ?icv, fun hgood hpn => ?replay, fun hgood hpn hkex => ?kex, fun h d hgood hpn hread h7 => ?heard⟩
    case icv => exact counted (f := F.STM_PCNT_ICV) hup (hhear.trans (if_pos (of_decide_eq_false hgood))) (by decide) (by decide)
    case replay =>
      exact counted (f := F.STM_PCNT_REPLAY) hup (hhear.trans ((if_neg (not_not.mpr (of_decide_eq_true hgood))).trans (if_pos hpn)))
        (by decide) (by decide)
    case kex =>
      refine counted (f := F.STM_PCNT_OTHER) hup ((accepted hgood hpn).trans ?_) (by decide) (by decide)
      cases hread : readStream k mac (key.cipher pn ct) with
      | none => rfl
      | some x =>
        rw [hread] at hkex
        exact if_pos (by simpa using hkex)
    case heard =>
      have hh : s.hear k b = (s.acceptPn mac an pn, some (h, d)) := by
        rw [accepted hgood hpn, hread]
        exact if_neg h7
      exact ⟨hh, fun htype => ⟨_, exec_otherFrame_of_heard hup hh htype h7, countsOne_otherIn _ _⟩, fun hpart htype =>
        ⟨_, exec_registerFrame_of_part hup hh hpart htype, countsOne_otherIn _ _⟩⟩

end Sys2Proof
end

section
/-! Feeders register and get credit; a checkpoint's receiver paces it; the link changes (O52, R374, R379 to R381, R385). -/

namespace Sys2Proof.Machine
namespace State

/-! ## Peers -/

theorem peerOf_mac (s : State) (m : Nat) : (s.peerOf m).mac = m := by
  unfold peerOf
  cases hfind : s.peers.find? (·.mac = m) with
  | none => rfl
  | some x => simpa using List.find?_some hfind

theorem peerOf_setPeer_self (s : State) (x : Peer) : (s.setPeer x).peerOf x.mac = x := by
  have hnone : (s.peers.filter (·.mac ≠ x.mac)).find? (·.mac = x.mac) = none :=
    List.find?_eq_none.mpr fun y hy => by simpa using (List.mem_filter.mp hy).2
  unfold peerOf setPeer
  rw [List.find?_append, hnone]
  simp

theorem peerOf_setPeer_ne (s : State) (x : Peer) {m : Nat} (h : m ≠ x.mac) : (s.setPeer x).peerOf m = s.peerOf m := by
  have hsame : (s.peers.filter (·.mac ≠ x.mac)).find? (·.mac = m) = s.peers.find? (·.mac = m) := by
    rw [List.find?_filter]
    congr 1
    funext y
    by_cases hy : y.mac = m
    · simp [hy, h]
    · simp [hy]
  have hlast : [x].find? (·.mac = m) = none := by simp [Ne.symm h]
  unfold peerOf setPeer
  rw [List.find?_append, hsame, hlast, Option.or_none]

theorem peerOf_setPeer (s : State) (x : Peer) (m : Nat) : (s.setPeer x).peerOf m = if m = x.mac then x else s.peerOf m := by
  by_cases h : m = x.mac
  · rw [if_pos h, h, peerOf_setPeer_self]
  · rw [if_neg h, peerOf_setPeer_ne _ _ h]

theorem peerOf_congr {s t : State} (h : t.peers = s.peers) (m : Nat) : t.peerOf m = s.peerOf m := by rw [peerOf, h, peerOf]

/-- Of a frame that is heard, peers alone have been noted. -/
def Noted (s : State) (r : State × Option (StreamHdr × List Byte)) : Prop := r.2 = none ∨ r.1 = { s with peers := r.1.peers }

theorem noted_none (s t : State) : Noted s (t, none) := .inl rfl

theorem Noted.ite {s : State} {r q : State × Option (StreamHdr × List Byte)} {c : Prop} [Decidable c] (hr : Noted s r) (hq : Noted s q) :
    Noted s (if c then r else q) := by
  split
  · exact hr
  · exact hq

theorem readSealed_noted (s : State) (k : Nat) (addrs rest : List Byte) : Noted s (s.readSealed k addrs rest) := by
  unfold readSealed
  refine .ite (noted_none _ _) (.ite (noted_none _ _) ?_)
  split
  · exact noted_none _ _
  · refine .ite (noted_none _ _) (.ite (noted_none _ _) ?_)
    dsimp only
    split
    · exact .ite (noted_none _ _) (.inr rfl)
    · exact noted_none _ _

theorem hear_noted (s : State) (k : Nat) (b : List Byte) : Noted s (s.hear k b) := by
  unfold hear
  refine .ite (noted_none _ _) (.ite (noted_none _ _) (.ite (readSealed_noted _ _ _ _) ?_))
  split
  · exact .ite (.inr rfl) (noted_none _ _)
  · exact noted_none _ _

/-- What a port notes of a frame that it hears is of its peers alone. -/
theorem hear_frame {s : State} {k : Nat} {b : List Byte} {h : StreamHdr} {d : List Byte} (heard : (s.hear k b).2 = some (h, d)) :
    (s.hear k b).1 = { s with peers := (s.hear k b).1.peers } :=
  (s.hear_noted k b).resolve_left (by rw [heard]; exact Option.some_ne_none _)

/-! ## Feeders (R380) -/

/-- The feeders of a partition once one has registered. -/
def registered (fs : List Feeder) (rank mac : Nat) : List Feeder :=
  if (fs.filter (·.rank = rank)).any (·.mac = mac) then fs
  else fs.filter (·.rank ≠ rank) ++ (if 8 ≤ (fs.filter (·.rank = rank)).length then (fs.filter (·.rank = rank)).drop 1
    else fs.filter (·.rank = rank)) ++ [{ rank := rank, mac := mac }]

theorem feeders_register (s : State) (p rank mac : Nat) :
    ((s.register p rank mac).part p).feeders = registered (s.part p).feeders rank mac := by
  rw [register, modPart_eq, part_setPart]
  unfold registered
  dsimp only
  split <;> rfl

theorem filter_registered (fs : List Feeder) (rank mac : Nat) : (registered fs rank mac).filter (·.rank = rank) =
    if (fs.filter (·.rank = rank)).any (·.mac = mac) then fs.filter (·.rank = rank)
    else (if 8 ≤ (fs.filter (·.rank = rank)).length then (fs.filter (·.rank = rank)).drop 1 else fs.filter (·.rank = rank)) ++
      [{ rank := rank, mac := mac }] := by
  have hnone : (fs.filter (·.rank ≠ rank)).filter (·.rank = rank) = [] := by
    rw [List.filter_filter]
    exact List.filter_eq_nil_iff.mpr fun x _ => by simp
  have hself : ∀ l : List Feeder, (∀ x ∈ l, x ∈ fs.filter (·.rank = rank)) → l.filter (·.rank = rank) = l := fun l hl =>
    List.filter_eq_self.mpr fun x hx => (List.mem_filter.mp (hl x hx)).2
  unfold registered
  by_cases hany : (fs.filter (·.rank = rank)).any (·.mac = mac) = true
  · rw [if_pos hany, if_pos hany]
  · rw [if_neg hany, if_neg hany, List.filter_append, List.filter_append, hnone, List.nil_append]
    congr 1
    · by_cases h8 : 8 ≤ (fs.filter (·.rank = rank)).length
      · rw [if_pos h8]
        exact hself _ fun x hx => List.mem_of_mem_drop hx
      · rw [if_neg h8]
        exact hself _ fun x hx => hx
    · simp

/-- No rank has more than 8 feeders. -/
theorem length_registered {fs : List Feeder} {rank : Nat} (mac : Nat) (h : (fs.filter (·.rank = rank)).length ≤ 8) :
    ((registered fs rank mac).filter (·.rank = rank)).length ≤ 8 := by
  rw [filter_registered]
  generalize fs.filter (·.rank = rank) = l at h ⊢
  by_cases hany : l.any (·.mac = mac) = true
  · rw [if_pos hany]; exact h
  · rw [if_neg hany, List.length_append, List.length_singleton]
    by_cases h8 : 8 ≤ l.length
    · rw [if_pos h8, List.length_drop]; omega
    · rw [if_neg h8]; omega

theorem mem_registered_other {fs : List Feeder} {rank : Nat} (mac : Nat) {f : Feeder} (hf : f ∈ fs) (hrank : f.rank ≠ rank) :
    f ∈ registered fs rank mac := by
  unfold registered
  split
  · exact hf
  · rw [List.append_assoc]
    exact List.mem_append_left _ (List.mem_filter.mpr ⟨hf, by simpa using hrank⟩)

/-! ## Credit (R379) -/

/-- A CREDIT frame to a feeder of a rank hosted here. -/
def creditTo (p k : Nat) (s : State) (f : Feeder) : State :=
  if (s.ranksHere p).contains f.rank then s.frameTo k f.mac 2 p f.rank (s.curStep p) false
    (leBytes 4 f.rank ++ leBytes 4 0 ++ leBytes 8 (s.grantOf p f.rank))
  else s

theorem sendCredits_eq {s : State} {k : Nat} (hport : s.sendPort = some k) (p : Nat) :
    s.sendCredits p = (s.part p).feeders.foldl (creditTo p k) s := by
  unfold sendCredits
  rw [hport]
  rfl

/-- The frame that gives feeder `f` its credit, behind `i` frames to it and `j` of its stream. -/
def creditFrame (s : State) (p k : Nat) (f : Feeder) (i j : Nat) : Out :=
  .frame k (withFcs (protect (toPeer (s.peerOf f.mac).keys) (s.peerOf f.mac).an ((s.peerOf f.mac).txPn + 1 + i) (macBytes f.mac)
    (macBytes (s.getF F.STM_PMAC_MAC k)) (streamBytes
      { port := k, mac := f.mac, type := 2, part := p, last := false, rank := f.rank, step := s.curStep p,
        seq := s.nextSeq 2 f.rank (s.curStep p) + j }
      (leBytes 4 f.rank ++ leBytes 4 0 ++ leBytes 8 (s.grantOf p f.rank)))))

/-- Between `s` and `t` at most `n` credit frames have gone out. -/
structure Credited (s : State) (p n : Nat) (t : State) : Prop where
  frame : t = { s with out := t.out, peers := t.peers, frameSeq := t.frameSeq }
  peer : ∀ m, ∃ i, i ≤ n ∧ t.peerOf m = { s.peerOf m with txPn := (s.peerOf m).txPn + i }
  seq : ∀ r, ∃ j, j ≤ n ∧ t.nextSeq 2 r (s.curStep p) = s.nextSeq 2 r (s.curStep p) + j

theorem credited_refl (s : State) (p : Nat) : Credited s p 0 s := ⟨rfl, fun _ => ⟨0, le_rfl, rfl⟩, fun _ => ⟨0, le_rfl, rfl⟩⟩

theorem Credited.weaken {s t : State} {p n : Nat} (h : Credited s p n t) : Credited s p (n + 1) t where
  frame := h.frame
  peer := fun m => by
    obtain ⟨i, hi, hpeer⟩ := h.peer m
    exact ⟨i, by omega, hpeer⟩
  seq := fun r => by
    obtain ⟨j, hj, hseq⟩ := h.seq r
    exact ⟨j, by omega, hseq⟩

/-- What a credit frame reads of the state does not change while they go out. -/
theorem Credited.reads {s t : State} {p n : Nat} (h : Credited s p n t) : t.ranksHere p = s.ranksHere p ∧ t.curStep p = s.curStep p ∧
    (∀ r, t.grantOf p r = s.grantOf p r) ∧ (∀ k, t.linkUp k = s.linkUp k) ∧ ∀ k, t.getF F.STM_PMAC_MAC k = s.getF F.STM_PMAC_MAC k := by
  rw [h.frame]
  exact ⟨rfl, rfl, fun _ => rfl, fun _ => rfl, fun _ => rfl⟩

/-- A protected frame gone out: its stream and its peer's packet number are counted. -/
def framed (s : State) (k type rank step : Nat) (x : Peer) (b : List Byte) : State :=
  ((s.countSeq type rank step).setPeer { x with txPn := x.txPn + 1 }).emit (.frame k b)

theorem framed_frame (s : State) (k type rank step : Nat) (x : Peer) (b : List Byte) : s.framed k type rank step x b =
    { s with out := .frame k b :: s.out, peers := (s.framed k type rank step x b).peers,
             frameSeq := (s.framed k type rank step x b).frameSeq } := rfl

theorem frameTo_framed {s : State} {k mac : Nat} (hup : s.linkUp k = true) (hlive : (s.peerOf mac).live = true)
    (type part rank step : Nat) (last : Bool) (payload : List Byte) : s.frameTo k mac type part rank step last payload =
      s.framed k type rank step (s.peerOf mac) (s.frameFor k (s.peerOf mac)
        { port := k, mac := mac, type := type, part := part, last := last, rank := rank, step := step,
          seq := s.nextSeq type rank step } payload) :=
  if_neg (by rw [hup, hlive]; decide)

theorem frameTo_of_dead {s : State} {k mac : Nat} (hlive : (s.peerOf mac).live = false) (type part rank step : Nat) (last : Bool)
    (payload : List Byte) : s.frameTo k mac type part rank step last payload = s :=
  if_pos (by rw [hlive]; exact .inr rfl)

theorem nextSeq_countSeq (s : State) (type rank r step : Nat) : (s.countSeq type rank step).nextSeq type r step =
    if streamNo type r step = streamNo type rank step then s.nextSeq type r step + 1 else s.nextSeq type r step := by
  unfold countSeq nextSeq
  dsimp only
  rw [mget_mput]
  split
  · next h => rw [h]
  · rfl

theorem nextSeq_framed (s : State) (k type rank r step : Nat) (x : Peer) (b : List Byte) :
    (s.framed k type rank step x b).nextSeq type r step = (s.countSeq type rank step).nextSeq type r step := rfl

theorem peerOf_framed (s : State) (k type rank step m mac : Nat) (b : List Byte) :
    (s.framed k type rank step (s.peerOf mac) b).peerOf m =
    if m = mac then { s.peerOf mac with txPn := (s.peerOf mac).txPn + 1 } else s.peerOf m := by
  have hset : ∀ u : State, (u.emit (.frame k b)).peerOf m = u.peerOf m := fun _ => rfl
  have hcount : (s.countSeq type rank step).peerOf m = s.peerOf m := rfl
  unfold framed
  rw [hset, peerOf_setPeer, hcount]
  dsimp only
  rw [s.peerOf_mac mac]

/-- One more feeder. -/
theorem Credited.next {s t : State} {p n k : Nat} (h : Credited s p n t) (hup : s.linkUp k = true) (f : Feeder) :
    Credited s p (n + 1) (creditTo p k t f) ∧ (∀ o ∈ t.out, o ∈ (creditTo p k t f).out) ∧
    ((s.ranksHere p).contains f.rank = true → (s.peerOf f.mac).live = true →
      ∃ i, i ≤ n ∧ ∃ j, j ≤ n ∧ creditFrame s p k f i j ∈ (creditTo p k t f).out) := by
  obtain ⟨hranks, hstep, hgrant, hlink, hmac⟩ := h.reads
  obtain ⟨i, hi, hpeer⟩ := h.peer f.mac
  obtain ⟨j, hj, hseq⟩ := h.seq f.rank
  have hlive : (t.peerOf f.mac).live = (s.peerOf f.mac).live := by rw [hpeer]
  unfold creditTo
  rw [hranks]
  by_cases hhere : (s.ranksHere p).contains f.rank = true
  · rw [if_pos hhere]
    by_cases hl : (s.peerOf f.mac).live = true
    · rw [frameTo_framed ((hlink k).trans hup) (hlive.trans hl), hstep]
      have hout : (t.framed k 2 f.rank (s.curStep p) (t.peerOf f.mac) (t.frameFor k (t.peerOf f.mac)
          { port := k, mac := f.mac, type := 2, part := p, last := false, rank := f.rank, step := s.curStep p,
            seq := t.nextSeq 2 f.rank (s.curStep p) } (leBytes 4 f.rank ++ leBytes 4 0 ++ leBytes 8 (t.grantOf p f.rank)))).out =
          creditFrame s p k f i j :: t.out := by
        rw [framed_frame]
        dsimp only
        rw [creditFrame, frameFor, hpeer, hseq, hgrant, hmac, Nat.add_right_comm, s.peerOf_mac]
      generalize t.frameFor k (t.peerOf f.mac) _ = b at hout ⊢
      refine ⟨⟨?_, fun m => ?_, fun r => ?_⟩, fun o ho => ?_, fun _ _ => ⟨i, hi, j, hj, ?_⟩⟩
      · rw [framed_frame, h.frame]
      · rw [peerOf_framed]
        by_cases hm : m = f.mac
        · rw [if_pos hm, hpeer, hm]
          exact ⟨i + 1, by omega, rfl⟩
        · rw [if_neg hm]
          obtain ⟨i', hi', hpeer'⟩ := h.peer m
          exact ⟨i', by omega, hpeer'⟩
      · rw [nextSeq_framed, nextSeq_countSeq]
        obtain ⟨j', hj', hseq'⟩ := h.seq r
        rw [hseq']
        split
        · exact ⟨j' + 1, by omega, rfl⟩
        · exact ⟨j', by omega, rfl⟩
      · rw [hout]; exact List.mem_cons_of_mem _ ho
      · rw [hout]; exact List.mem_cons_self
    · rw [frameTo_of_dead (hlive.trans (by simpa using hl))]
      exact ⟨h.weaken, fun o ho => ho, fun _ hno => absurd hno hl⟩
  · rw [if_neg hhere]
    exact ⟨h.weaken, fun o ho => ho, fun hno => absurd hno hhere⟩

/-- Every feeder to be given credit is given it. -/
theorem Credited.all {s : State} {p k : Nat} (hup : s.linkUp k = true) (fs : List Feeder) : ∀ {t : State} {n : Nat}, Credited s p n t →
    Credited s p (n + fs.length) (fs.foldl (creditTo p k) t) ∧ (∀ o ∈ t.out, o ∈ (fs.foldl (creditTo p k) t).out) ∧
    ∀ f ∈ fs, (s.ranksHere p).contains f.rank = true → (s.peerOf f.mac).live = true →
      ∃ i, i < n + fs.length ∧ ∃ j, j < n + fs.length ∧ creditFrame s p k f i j ∈ (fs.foldl (creditTo p k) t).out := by
  induction fs with
  | nil => exact fun h => ⟨h, fun _ ho => ho, fun f hf => absurd hf List.not_mem_nil⟩
  | cons f fs ih =>
    intro t n h
    obtain ⟨hnext, hkept, hframe⟩ := h.next hup f
    obtain ⟨hall, hkept', hframes⟩ := ih hnext
    rw [List.foldl_cons, List.length_cons, Nat.add_comm fs.length, ← Nat.add_assoc]
    refine ⟨hall, fun o ho => hkept' o (hkept o ho), fun g hg hhere hlive => ?_⟩
    obtain rfl | hg := List.mem_cons.mp hg
    · obtain ⟨i, hi, j, hj, hmem⟩ := hframe hhere hlive
      exact ⟨i, by omega, j, by omega, hkept' _ hmem⟩
    · exact hframes g hg hhere hlive

end State
end Sys2Proof.Machine

namespace Sys2Proof

open Machine
open Machine (State)

/-- R374, R379 to R381, R385. -/
theorem feedersAndCredits : Claims.FeedersAndCredits := by
  unfold Claims.FeedersAndCredits
  refine ⟨?_, ?_, ?_, ?_⟩
  · intro s k b h d heard
    have hframe := State.hear_frame heard.2.1
    have hexec : exec (.registerFrame ⟨k, b⟩) s = .next ((s.hear k b).1.register h.part h.rank h.mac) :=
      congrArg Host.Outcome.next (State.frameIn_of_heard heard _)
    generalize (s.hear k b).1 = t at hframe hexec
    have hpart : ∀ q, t.part q = s.part q := fun q => by rw [hframe]; rfl
    have hfeeders := t.feeders_register h.part h.rank h.mac
    rw [hpart] at hfeeders
    refine ⟨_, hexec, State.mem_feeders_register _ _ _ _, fun hfew => ?_, fun f hf hrank => ?_, ?_, fun q hq => ?_⟩
    · rw [hfeeders]; exact State.length_registered h.mac hfew
    · rw [hfeeders]; exact State.mem_registered_other h.mac hf hrank
    · rw [hframe]; rfl
    · rw [State.register, State.modPart_eq, State.part_setPart_ne _ _ hq, hpart]
  · intro s p k hp hport
    have hup : s.linkUp k = true := List.find?_some hport
    have hexec : exec (.creditSend p) s = .next ((s.part p).feeders.foldl (State.creditTo p k) s) :=
      congrArg Host.Outcome.next (State.sendCredits_eq hport p)
    obtain ⟨hall, -, hframes⟩ := State.Credited.all hup (s.part p).feeders (s.credited_refl p)
    rw [Nat.zero_add] at hframes
    exact ⟨_, hexec, hframes, hall.frame⟩
  · intro s k x y b h d hb heard t
    have hframe : t = { s with peers := t.peers } := State.hear_frame heard.2.1
    have hexec : ∀ act, s.frameIn k (x ++ y) 2 act = act t h d := fun act => by
      rw [hb]
      exact State.frameIn_of_heard heard act
    generalize t = v at hframe hexec ⊢
    have hpart : ∀ q, v.part q = s.part q := fun q => by rw [hframe]; rfl
    have hdst : v.getF F.STM_CKPT_DST_MAC h.part = s.getF F.STM_CKPT_DST_MAC h.part := by rw [hframe]; rfl
    refine ⟨fun c g hckpt hmac hgrant => ?_, fun c hckpt hmac => ?_, fun hckpt => ?_⟩
    · refine ⟨v.modPart h.part fun x => { x with ckpt := some { c with grant := g } }, congrArg Host.Outcome.next ((hexec _).trans ?_),
        ?_, rfl, fun q hq => ?_⟩
      · rw [hpart, hckpt]
        dsimp only
        rw [hdst, if_neg (not_not.mpr hmac), hgrant]
      · rw [State.modPart_eq, State.part_setPart, hpart]
      · rw [State.modPart_eq, State.part_setPart_ne _ _ hq, hpart]
    · refine ⟨v.otherIn k, congrArg Host.Outcome.next ((hexec _).trans ?_), countsOne_otherIn v k⟩
      rw [hpart, hckpt]
      dsimp only
      rw [hdst, if_pos hmac]
    · refine ⟨v.otherIn k, congrArg Host.Outcome.next ((hexec _).trans ?_), countsOne_otherIn v k⟩
      rw [hpart, hckpt]
  · intro s k phy up hk hphy
    have hphyv : (if up = true then phy else 0) < 4 := by cases up <;> simp [hphy]
    refine ⟨_, congrArg Host.Outcome.next (if_neg (by omega)), ?_, ?_, rfl, fun o ho => ?_⟩
    · rw [State.flag_putF_bits _ _ _ _ _ _ (.inl (by decide)), State.flag, State.getF_putF _ _ _ _ (by decide) (by decide)]
      cases up <;> rfl
    · rw [State.getF_putF _ _ _ _ (by decide) (by decide)]
      exact Nat.mod_eq_of_lt hphyv
    · exact (State.word_putF_ne _ F.STM_PSTAT_PHY _ _ ho).trans (State.word_putF_ne _ F.STM_PSTAT_UP _ _ ho)

/-- Settles O52: a frame passes or fails each check of its receipt; feeders register and are given credit one by one. -/
theorem framesAndFeeders : Obligations.FramesAndFeeders := by
  unfold Obligations.FramesAndFeeders
  exact ⟨framesAreChecked, feedersAndCredits⟩

end Sys2Proof
end

section
/-! Key exchange with a feeder (O54, R374, R375). -/

namespace Sys2Proof.Machine
namespace State

/-! ## KEX frames heard -/

/-- Of a KEX frame that is heard nothing has been noted. -/
def ClearOnly (s : State) (r : State × Option (StreamHdr × List Byte)) : Prop :=
  ∀ h d, r.2 = some (h, d) → h.type = 7 → r.1 = s

theorem clearOnly_none (s t : State) : ClearOnly s (t, none) := fun _ _ hno => absurd hno (by simp)

theorem ClearOnly.ite {s : State} {r q : State × Option (StreamHdr × List Byte)} {c : Prop} [Decidable c] (hr : ClearOnly s r)
    (hq : ClearOnly s q) : ClearOnly s (if c then r else q) := by
  split
  · exact hr
  · exact hq

theorem readSealed_clearOnly (s : State) (k : Nat) (addrs rest : List Byte) : ClearOnly s (s.readSealed k addrs rest) := by
  unfold readSealed
  refine .ite (clearOnly_none _ _) (.ite (clearOnly_none _ _) ?_)
  split
  · exact clearOnly_none _ _
  · refine .ite (clearOnly_none _ _) (.ite (clearOnly_none _ _) ?_)
    dsimp only
    split
    · next h d _ =>
      by_cases h7 : h.type = 7
      · rw [if_pos h7]; exact clearOnly_none _ _
      · rw [if_neg h7]
        intro h' d' heq htype
        rw [← (Prod.mk.inj (Option.some.inj heq)).1] at htype
        exact absurd htype h7
    · exact clearOnly_none _ _

theorem hear_kex {s : State} {k : Nat} {b : List Byte} {h : StreamHdr} {d : List Byte} (heard : (s.hear k b).2 = some (h, d))
    (htype : h.type = 7) : (s.hear k b).1 = s := by
  have hall : ClearOnly s (s.hear k b) := by
    unfold hear
    refine .ite (clearOnly_none _ _) (.ite (clearOnly_none _ _) (.ite (readSealed_clearOnly _ _ _ _) ?_))
    split
    · exact .ite (fun _ _ _ _ => rfl) (clearOnly_none _ _)
    · exact clearOnly_none _ _
  exact hall h d heard htype

/-! ## Objects sent -/

/-- KEX frames of an object. -/
def kexCount (n : Nat) : Nat := (n + kexRoom - 1) / kexRoom

theorem kexCount_last {n : Nat} (h0 : 0 < n) (h : n ≤ kexRoom) : kexCount n = 1 := by
  simp only [kexCount, kexRoom] at *
  omega

theorem kexCount_more {n : Nat} (h : kexRoom < n) : kexCount n = kexCount (n - kexRoom) + 1 := by
  simp only [kexCount, kexRoom] at *
  omega

/-- The `i`-th frame of an object of `n` frames, the first of them being of number `seq`. -/
def kexFrame (own : List Byte) (k mac seq n : Nat) (obj : List Byte) (i : Nat) : Out :=
  .frame k (clearFrame (macBytes mac) own (streamBytes
    { port := k, mac := mac, type := 7, part := 0, last := i + 1 = n, rank := 0, step := 0, seq := seq + i }
    ((obj.drop (kexRoom * i)).take kexRoom)))

theorem kexFrame_succ (own : List Byte) (k mac seq n : Nat) (obj : List Byte) (i : Nat) :
    kexFrame own k mac seq (n + 1) obj (i + 1) = kexFrame own k mac (seq + 1) n (obj.drop kexRoom) i := by
  have hlast : decide (i + 1 + 1 = n + 1) = decide (i + 1 = n) := by simp
  have hseq : seq + (i + 1) = seq + 1 + i := by omega
  have hdrop : obj.drop (kexRoom * (i + 1)) = (obj.drop kexRoom).drop (kexRoom * i) := by
    rw [List.drop_drop, Nat.mul_succ, Nat.add_comm]
  rw [kexFrame, kexFrame, hlast, hseq, hdrop]

/-- One KEX frame gone out. -/
def kexOne (s : State) (f : Out) : State := (s.countSeq 7 0 0).emit f

theorem kexFrames_succ (k mac n : Nat) (b : List Byte) (s : State) : kexFrames k mac (n + 1) b s =
    if b.length ≤ kexRoom then s.kexOne (.frame k (clearFrame (macBytes mac) (macBytes (s.getF F.STM_PMAC_MAC k)) (streamBytes
      { port := k, mac := mac, type := 7, part := 0, last := b.length ≤ kexRoom, rank := 0, step := 0, seq := s.nextSeq 7 0 0 }
      (b.take kexRoom))))
    else kexFrames k mac n (b.drop kexRoom) (s.kexOne (.frame k (clearFrame (macBytes mac) (macBytes (s.getF F.STM_PMAC_MAC k))
      (streamBytes { port := k, mac := mac, type := 7, part := 0, last := b.length ≤ kexRoom, rank := 0, step := 0, seq := s.nextSeq 7 0 0 }
      (b.take kexRoom))))) := rfl

/-- The frames of an object have gone out. -/
structure ObjectSent (s : State) (k mac : Nat) (obj : List Byte) (t : State) : Prop where
  frame : t = { s with out := t.out, frameSeq := t.frameSeq }
  out : t.out = ((List.range (kexCount obj.length)).map
    (kexFrame (macBytes (s.getF F.STM_PMAC_MAC k)) k mac (s.nextSeq 7 0 0) (kexCount obj.length) obj)).reverse ++ s.out
  seq : t.nextSeq 7 0 0 = s.nextSeq 7 0 0 + kexCount obj.length

theorem nextSeq_kexOne (s : State) (f : Out) : (s.kexOne f).nextSeq 7 0 0 = s.nextSeq 7 0 0 + 1 := by
  have hcount : (s.kexOne f).nextSeq 7 0 0 = (s.countSeq 7 0 0).nextSeq 7 0 0 := rfl
  rw [hcount, nextSeq_countSeq, if_pos rfl]

theorem kexFrames_sent (k mac : Nat) : ∀ (n : Nat) (b : List Byte) (s : State), 0 < b.length → kexCount b.length ≤ n →
    ObjectSent s k mac b (kexFrames k mac n b s) := by
  intro n
  induction n with
  | zero =>
    intro b s h0 hn
    simp only [kexCount, kexRoom] at hn
    omega
  | succ n ih =>
    intro b s h0 hn
    rw [kexFrames_succ]
    by_cases hlast : b.length ≤ kexRoom
    · have hcount := kexCount_last h0 hlast
      rw [if_pos hlast]
      refine ⟨rfl, ?_, ?_⟩
      · rw [hcount]
        simp only [List.range_one, List.map_cons, List.map_nil, List.reverse_singleton, kexFrame, hlast, decide_true, Nat.mul_zero,
          List.drop_zero, Nat.add_zero, Nat.zero_add]
        rfl
      · rw [nextSeq_kexOne, hcount]
    · have hcount := kexCount_more (Nat.lt_of_not_le hlast)
      rw [if_neg hlast]
      have hdrop : (b.drop kexRoom).length = b.length - kexRoom := List.length_drop
      have h := ih (b.drop kexRoom) (s.kexOne (.frame k (clearFrame (macBytes mac) (macBytes (s.getF F.STM_PMAC_MAC k)) (streamBytes
        { port := k, mac := mac, type := 7, part := 0, last := b.length ≤ kexRoom, rank := 0, step := 0, seq := s.nextSeq 7 0 0 }
        (b.take kexRoom))))) (by omega) (by rw [hdrop]; omega)
      have hfirst : Out.frame k (clearFrame (macBytes mac) (macBytes (s.getF F.STM_PMAC_MAC k)) (streamBytes
          { port := k, mac := mac, type := 7, part := 0, last := b.length ≤ kexRoom, rank := 0, step := 0, seq := s.nextSeq 7 0 0 }
          (b.take kexRoom))) =
          kexFrame (macBytes (s.getF F.STM_PMAC_MAC k)) k mac (s.nextSeq 7 0 0) (kexCount (b.length - kexRoom) + 1) b 0 := by
        have hpos : 0 < kexCount (b.length - kexRoom) := by
          simp only [kexCount, kexRoom] at hlast ⊢
          omega
        have hne : decide (0 + 1 = kexCount (b.length - kexRoom) + 1) = false := decide_eq_false (by omega)
        simp only [kexFrame, hne, Nat.mul_zero, List.drop_zero, Nat.add_zero, hlast, decide_false]
      rw [hfirst] at h ⊢
      have hown : (s.kexOne (kexFrame (macBytes (s.getF F.STM_PMAC_MAC k)) k mac (s.nextSeq 7 0 0)
          (kexCount (b.length - kexRoom) + 1) b 0)).getF F.STM_PMAC_MAC k = s.getF F.STM_PMAC_MAC k := rfl
      have hseq := s.nextSeq_kexOne (kexFrame (macBytes (s.getF F.STM_PMAC_MAC k)) k mac (s.nextSeq 7 0 0)
          (kexCount (b.length - kexRoom) + 1) b 0)
      obtain ⟨hframe, hout, hnext⟩ := h
      rw [hown, hseq, hdrop] at hout
      rw [hseq, hdrop] at hnext
      generalize kexFrames k mac n (b.drop kexRoom) _ = t at hframe hout hnext ⊢
      refine ⟨?_, ?_, ?_⟩
      · rw [hframe]; rfl
      · rw [hout, hcount, List.range_succ_eq_map, List.map_cons, List.map_map, List.reverse_cons, List.append_assoc]
        simp only [Function.comp_def, Nat.succ_eq_add_one, kexFrame_succ]
        rfl
      · rw [hnext, hcount]; omega

/-- A key-exchange object goes out, whatever of peers and keys has changed before. -/
theorem kexTo_sent {s v : State} (hv : v = { s with peers := v.peers, ident := v.ident }) {k mac : Nat}
    (hpeers : ∀ m, m ≠ mac → v.peerOf m = s.peerOf m) (msg stream : Nat) (body : List Byte) :
    KexSent s (v.kexTo k mac msg stream body) k mac ([BitVec.ofNat 8 msg, BitVec.ofNat 8 stream, 0, 0] ++ body) ∧
    (v.kexTo k mac msg stream body).peers = v.peers ∧ (v.kexTo k mac msg stream body).ident = v.ident := by
  have hlen : ([BitVec.ofNat 8 msg, BitVec.ofNat 8 stream, 0, 0] ++ body).length = 4 + body.length := by
    simp only [List.length_append, List.length_cons, List.length_nil]
  have hfuel : kexCount (4 + body.length) ≤ body.length + 1 := by
    simp only [kexCount, kexRoom]
    omega
  have h := kexFrames_sent k mac (body.length + 1) ([BitVec.ofNat 8 msg, BitVec.ofNat 8 stream, 0, 0] ++ body) v
    (by rw [hlen]; omega) (by rw [hlen]; exact hfuel)
  rw [kexTo]
  generalize kexFrames k mac (body.length + 1) ([BitVec.ofNat 8 msg, BitVec.ofNat 8 stream, 0, 0] ++ body) v = t at h ⊢
  obtain ⟨hframe, hout, hnext⟩ := h
  have hown : v.getF F.STM_PMAC_MAC k = s.getF F.STM_PMAC_MAC k := by rw [hv]; rfl
  have hseq : v.nextSeq 7 0 0 = s.nextSeq 7 0 0 := by rw [hv]; rfl
  have hvout : v.out = s.out := by rw [hv]
  rw [hown, hseq, hvout] at hout
  rw [hseq] at hnext
  have hkept : t.peers = v.peers := by rw [hframe]
  refine ⟨⟨hout, hnext, ?_, ?_, ?_, ?_, fun m hm => ?_⟩, ?_, ?_⟩
  · rw [hframe, hv]
  · rw [hframe, hv]
  · rw [hframe, hv]
  · rw [hframe, hv]
  · exact (peerOf_congr hkept m).trans (hpeers m hm)
  · exact hkept
  · rw [hframe]

/-- An exchange ends with an error. -/
theorem kexErr_error (s : State) (k : Nat) {x : Peer} {mac : Nat} (hmac : x.mac = mac) (hlive : x.live = (s.peerOf mac).live) {code : Nat}
    {c : Byte} (hcode : BitVec.ofNat 8 code = c) : KexError s (s.kexErr k x code) k mac x.stream c := by
  subst hmac hcode
  have hpeer : ∀ m, (s.setPeer { x with stage := 0, buf := [] }).peerOf m =
      if m = x.mac then { x with stage := 0, buf := [] } else s.peerOf m := fun m => s.peerOf_setPeer _ m
  obtain ⟨hsent, hpeers, hident⟩ := kexTo_sent (s := s) (v := s.setPeer { x with stage := 0, buf := [] }) rfl (k := k) (mac := x.mac)
    (fun m hm => (hpeer m).trans (if_neg hm)) 0xFF x.stream [BitVec.ofNat 8 code]
  have hself : (s.kexErr k x code).peerOf x.mac = { x with stage := 0, buf := [] } :=
    (peerOf_congr hpeers x.mac).trans ((hpeer x.mac).trans (if_pos rfl))
  refine ⟨hsent, ?_, ?_, ?_, hident⟩
  · rw [hself]
  · rw [hself]
  · rw [hself, hlive]

/-! ## What a KEX frame does -/

section
variable {s : State} {k : Nat} {b1 b2 b3 : List Byte} {h : StreamHdr} {d : List Byte}

/-- A peer has, or may have, an association. -/
def kexHasRoom (s : State) (mac : Nat) : Bool := (s.peerOf mac).live || decide ((s.peers.filter (·.live)).length < 256)

/-- A frame is the one that continues the object. -/
def kexContinues (s : State) (h : StreamHdr) : Bool := (s.peerOf h.mac).buf = [] || h.seq = (s.peerOf h.mac).next

theorem exec_kexFrame (heard : Heard s k (b1 ++ b2 ++ b3) h d 7) : exec (.kexFrame k b1 b2 b3) s = .next (s.kexIn k h d) := by
  have hframe := frameIn_of_heard heard fun s h d => s.kexIn k h d
  rw [hear_kex heard.2.1 heard.2.2.1] at hframe
  exact congrArg Host.Outcome.next hframe

theorem kexIn_of_full (hroom : s.kexHasRoom h.mac = false) : s.kexIn k h d = s.kexTo k h.mac 0xFF (le d 1 1) [4] := by
  rw [kexHasRoom, Bool.or_eq_false_iff] at hroom
  obtain ⟨hlive, hcount⟩ := hroom
  exact if_pos (by rw [hlive]; simpa using hcount)

theorem kexIn_room (hroom : s.kexHasRoom h.mac = true) :
    ¬ ((!(s.peerOf h.mac).live && 256 ≤ (s.peers.filter (·.live)).length) = true) := by
  rw [kexHasRoom, Bool.or_eq_true, decide_eq_true_eq] at hroom
  rw [Bool.and_eq_true, decide_eq_true_eq]
  rintro ⟨hno, hfull⟩
  obtain hlive | hfew := hroom
  · rw [hlive] at hno; exact Bool.noConfusion hno
  · omega

theorem kexIn_of_gap (hroom : s.kexHasRoom h.mac = true) (hnext : s.kexContinues h = false) :
    s.kexIn k h d = s.kexErr k (s.peerOf h.mac) 1 := by
  rw [kexContinues, Bool.or_eq_false_iff] at hnext
  obtain ⟨hbuf, hseq⟩ := hnext
  exact (if_neg (kexIn_room hroom)).trans (if_pos ⟨of_decide_eq_false hbuf, of_decide_eq_false hseq⟩)

/-- A frame that continues its object. -/
theorem kexIn_of_next (hroom : s.kexHasRoom h.mac = true) (hnext : s.kexContinues h = true) : s.kexIn k h d =
    if 1604 < ((s.peerOf h.mac).buf ++ d).length then s.kexErr k (s.peerOf h.mac) 3
    else if h.last then s.kexObject k (s.peerOf h.mac) ((s.peerOf h.mac).buf ++ d)
    else s.setPeer { s.peerOf h.mac with buf := (s.peerOf h.mac).buf ++ d, next := h.seq + 1 } := by
  rw [kexContinues, Bool.or_eq_true, decide_eq_true_eq, decide_eq_true_eq] at hnext
  refine (if_neg (kexIn_room hroom)).trans (if_neg ?_)
  rintro ⟨hbuf, hseq⟩
  obtain h | h := hnext
  · exact hbuf h
  · exact hseq h

theorem kexIn_of_last (hroom : s.kexHasRoom h.mac = true) (hnext : s.kexContinues h = true) (hlast : h.last = true)
    (hlen : ((s.peerOf h.mac).buf ++ d).length ≤ 1604) :
    s.kexIn k h d = s.kexObject k (s.peerOf h.mac) ((s.peerOf h.mac).buf ++ d) := by
  rw [kexIn_of_next hroom hnext, if_neg (by omega), if_pos hlast]

end

end State
end Sys2Proof.Machine
end

section
/-! What a key-exchange object does (O54, R374). -/

namespace Sys2Proof.Machine
namespace State

variable {s : State} {k mac : Nat} {x : Peer} {obj : List Byte}

theorem kexObject_unknown (h : (le obj 0 1 ≠ 1 ∧ le obj 0 1 ≠ 2) ∨ obj.length < 4) :
    s.kexObject k x obj = s.kexErr k { x with stream := le obj 1 1, buf := [] } 3 := by
  refine if_pos ?_
  obtain hmsg | hlen := h
  · exact .inr (.inr hmsg)
  · exact .inl hlen

theorem kexObject_first (hmac : x.mac = mac) (hlen : obj.length = 4) (hmsg : le obj 0 1 = 1) (hzero : le obj 2 2 = 0) : s.kexObject k x obj =
    (s.setPeer { x with stream := le obj 1 1, buf := [], stage := 1 }).kexTo k mac 0x81 (le obj 1 1) s.chain := by
  subst hmac
  have hform : ¬ (obj.length < 4 ∨ le obj 2 2 ≠ 0 ∨ (le obj 0 1 ≠ 1 ∧ le obj 0 1 ≠ 2)) := by omega
  exact (if_neg hform).trans ((if_pos hmsg).trans (if_neg (not_not.mpr hlen)))

/-- A second message is none of the first kind. -/
theorem kexObject_second (hlen : obj.length = 1604) (hmsg : le obj 0 1 = 2) (hzero : le obj 2 2 = 0) : s.kexObject k x obj =
    if x.stage ≠ 1 then s.kexErr k { x with stream := le obj 1 1, buf := [] } 1
    else if s.flag F.SEC_STATE_RNGFAIL 0 then s
    else s.kexFinish k { x with buf := [] } (le obj 1 1) (obj.drop 4) := by
  have hform : ¬ (obj.length < 4 ∨ le obj 2 2 ≠ 0 ∨ (le obj 0 1 ≠ 1 ∧ le obj 0 1 ≠ 2)) := by omega
  refine (if_neg hform).trans ((if_neg (by omega)).trans ?_)
  by_cases hstage : x.stage = 1
  · rw [if_neg (not_not.mpr hstage), if_neg (not_not.mpr hstage)]
    exact if_neg (not_not.mpr hlen)
  · rw [if_pos hstage, if_pos hstage]

/-! ## The association -/

/-- The ciphertext of an exchange, its transcript, and the answer. -/
def kexCt (s : State) (obj : List Byte) : List Byte := (Config.kemEncaps ((obj.drop 4).take 1568) s.ident.drbg).1

def kexScript (s : State) (x : Peer) (stream : Nat) (obj : List Byte) : List Byte :=
  s.transcript x.stream stream ((obj.drop 4).take 1568) (BitVec.ofNat 256 (leNat (obj.drop 1572))) (s.kexCt obj)

/-- The association that an exchange installs. -/
def installed (s : State) (x : Peer) (stream : Nat) (obj : List Byte) : Peer :=
  { x with
    live := true, an := if x.live then (x.an + 1) % 4 else 0, old := if x.live then some x.an else none, stage := 0, buf := [],
    oldKeys := x.keys, oldPn := x.rxPn,
    keys := shakeBytes 88 ((Config.kemEncaps ((obj.drop 4).take 1568) s.ident.drbg).2 ++ s.kexScript x stream obj), rxPn := 0, txPn := 0 }

theorem kexFinish_eq (hmac : x.mac = mac) (stream : Nat) : s.kexFinish k { x with buf := [] } stream (obj.drop 4) =
    (({ s with ident := { s.ident with drbg := s.ident.drbg + 1 } } : State).setPeer (s.installed x stream obj)).kexTo k mac 0x82 stream
      (s.kexCt obj ++ leBytes 2 (s.aliasSign (s.kexScript x stream obj)).length ++ s.aliasSign (s.kexScript x stream obj)) := by
  subst hmac
  have hdrop : obj.drop 1572 = (obj.drop 4).drop 1568 := by rw [List.drop_drop]
  rw [installed, kexScript, hdrop]
  rfl

theorem hasSa_setPeer (s : State) {x : Peer} (h : x.live = true) : (s.setPeer x).hasSa x.mac = true := by
  unfold hasSa setPeer
  rw [List.any_append]
  simp [h]

/-- What comes of an exchange that ends with an error. -/
theorem kexIn_error {h : StreamHdr} {d : List Byte} {y : Peer} {code : Nat} (hin : s.kexIn k h d = s.kexErr k y code)
    (hmac : y.mac = h.mac) (hlive : y.live = (s.peerOf h.mac).live) {c : Byte} (hcode : BitVec.ofNat 8 code = c) :
    KexError s (s.kexIn k h d) k h.mac y.stream c := by
  rw [hin]
  exact kexErr_error s k hmac hlive hcode

theorem hasSa_congr {s t : State} (h : t.peers = s.peers) (m : Nat) : t.hasSa m = s.hasSa m := by rw [hasSa, h, hasSa]

end State

open State

/-- R374, R375: KEX frames join into an object, and a whole one is answered. -/
theorem keyExchanges : Claims.KeyExchanges := by
  unfold Claims.KeyExchanges
  intro s k b1 b2 b3 b h d hb heard x obj room next msg stream
  have hexec : exec (.kexFrame k b1 b2 b3) s = .next (s.kexIn k h d) := exec_kexFrame (by rw [hb]; exact heard)
  have hmac : x.mac = h.mac := s.peerOf_mac h.mac
  have hroomEq : room = s.kexHasRoom h.mac := rfl
  have hnextEq : next = s.kexContinues h := rfl
  have hpeerSet : ∀ (v : State) (y : Peer), y.mac = h.mac → ∀ m, m ≠ h.mac → (v.setPeer y).peerOf m = v.peerOf m := fun v y hy m hm =>
    v.peerOf_setPeer_ne y (by rw [hy]; exact hm)
  rw [hexec, hroomEq, hnextEq]
  clear hexec hroomEq hnextEq heard hb
  refine ⟨?more, ?first, ?second, ?early, ?gap, ?unknown, ?long, ?full⟩
  case more =>
    intro hroom hnext hlast hlen
    have hin : s.kexIn k h d = s.setPeer { x with buf := obj, next := h.seq + 1 } := by
      rw [kexIn_of_next hroom hnext, if_neg (Nat.not_lt.mpr hlen), if_neg (by rw [hlast]; decide)]
    refine ⟨_, congrArg Host.Outcome.next hin, ?_, rfl, hpeerSet s _ hmac⟩
    rw [peerOf_setPeer]
    exact if_pos hmac.symm
  case first =>
    intro hroom hnext hlast hlen hmsg hzero
    have hin := (kexIn_of_last (k := k) (d := d) hroom hnext hlast (hlen.le.trans (by decide))).trans
      (kexObject_first (s := s) (k := k) (x := s.peerOf h.mac) hmac hlen hmsg hzero)
    obtain ⟨hsent, hpeers, hident⟩ := kexTo_sent (s := s) (v := s.setPeer { x with stream := stream, buf := [], stage := 1 }) rfl (k := k)
      (hpeerSet s _ hmac) 0x81 stream s.chain
    refine ⟨_, congrArg Host.Outcome.next hin, ?_, hsent, hident⟩
    rw [peerOf_congr hpeers, peerOf_setPeer]
    exact if_pos hmac.symm
  case second =>
    intro hroom hnext hlast hlen hmsg hzero hstage hrng ek ct t sig
    have hin := (kexIn_of_last (k := k) (d := d) hroom hnext hlast hlen.le).trans
      ((kexObject_second (s := s) (k := k) (x := s.peerOf h.mac) hlen hmsg hzero).trans
        ((if_neg (not_not.mpr hstage)).trans ((if_neg (by rw [hrng]; decide)).trans (kexFinish_eq hmac _))))
    have hinst : (s.installed x stream obj).mac = h.mac := hmac
    obtain ⟨hsent, hpeers, hident⟩ := kexTo_sent (s := s)
      (v := ({ s with ident := { s.ident with drbg := s.ident.drbg + 1 } } : State).setPeer (s.installed x stream obj)) rfl (k := k)
      (hpeerSet { s with ident := { s.ident with drbg := s.ident.drbg + 1 } } _ hinst) 0x82 stream
      (s.kexCt obj ++ leBytes 2 (s.aliasSign (s.kexScript x stream obj)).length ++ s.aliasSign (s.kexScript x stream obj))
    have hself := (peerOf_congr hpeers h.mac).trans ((peerOf_setPeer _ _ _).trans (if_pos hinst.symm))
    have hsa := (hasSa_congr hpeers h.mac).trans (hinst ▸ hasSa_setPeer { s with ident := { s.ident with drbg := s.ident.drbg + 1 } } (x := s.installed x stream obj) rfl)
    exact ⟨_, congrArg Host.Outcome.next hin, hsa, congrArg Peer.an hself, congrArg Peer.old hself, congrArg Peer.stage hself,
      congrArg Peer.keys hself, congrArg Peer.oldKeys hself, congrArg Peer.rxPn hself, congrArg Peer.txPn hself, hsent, hident⟩
  case early =>
    intro hroom hnext hlast hlen hmsg hzero hstage
    have hin := (kexIn_of_last (k := k) (d := d) hroom hnext hlast hlen.le).trans
      ((kexObject_second (s := s) (k := k) (x := s.peerOf h.mac) hlen hmsg hzero).trans (if_pos hstage))
    exact ⟨_, rfl, kexIn_error hin hmac rfl rfl⟩
  case gap =>
    intro hroom hnext
    exact ⟨_, rfl, kexIn_error (kexIn_of_gap hroom hnext) hmac rfl rfl⟩
  case unknown =>
    intro hroom hnext hlast hlen hmsg
    have hin := (kexIn_of_last (k := k) (d := d) hroom hnext hlast hlen).trans
      (kexObject_unknown (s := s) (k := k) (x := s.peerOf h.mac) hmsg)
    exact ⟨_, rfl, kexIn_error hin hmac rfl rfl⟩
  case long =>
    intro hroom hnext hlen
    exact ⟨_, rfl, kexIn_error ((kexIn_of_next hroom hnext).trans (if_pos hlen)) hmac rfl rfl⟩
  case full =>
    intro hroom
    obtain ⟨hsent, hpeers, hident⟩ := kexTo_sent (s := s) (v := s) rfl (k := k) (mac := h.mac) (fun _ _ => rfl) 0xFF (le d 1 1) [4]
    exact ⟨_, congrArg Host.Outcome.next (kexIn_of_full hroom), hsent, hpeers, hident⟩

end Sys2Proof.Machine
end

section
/-! A checkpoint streamed as its receiver's credit allows (O54, R375, R381). -/

namespace Sys2Proof.Machine
namespace State

variable {s t : State}

/-! ## Ranks hosted here -/

theorem part_congr (h : t.parts = s.parts) (p : Nat) : t.part p = s.part p := by rw [part, h, part]

/-- Home positions and ranks follow from the plan and the torus. -/
theorem home_congr (hparts : t.parts = s.parts) (hcfg : t.word F.FAB_CFG_X.base = s.word F.FAB_CFG_X.base) (p : Nat) :
    (∀ q, t.rankAt p q = s.rankAt p q) ∧ ∀ r, t.homePos p r = s.homePos p r := by
  obtain ⟨-, hring, -⟩ := place_congr hcfg
  have hplace : ∀ q d, t.placeOf q d = s.placeOf q d := fun q d => by
    unfold placeOf
    simp only [hring]
  have hposOf : ∀ x y z, t.posOf x y z = s.posOf x y z := fun x y z => by
    unfold posOf
    simp only [hring]
  refine ⟨fun q => ?_, fun r => ?_⟩
  · unfold rankAt
    simp only [hposOf, hplace, hring, part_congr hparts]
  · unfold homePos
    simp only [hposOf, hplace, hring, part_congr hparts]

theorem ranksHere_congr (hparts : t.parts = s.parts) (hcfg : t.word F.FAB_CFG_X.base = s.word F.FAB_CFG_X.base) (p : Nat) :
    t.ranksHere p = s.ranksHere p := by
  obtain ⟨hrank, hhome⟩ := home_congr hparts hcfg p
  obtain ⟨hpos, -, -⟩ := place_congr hcfg
  have hhost : ∀ r, t.hostOf p r = s.hostOf p r := fun r => by
    unfold hostOf
    rw [part_congr hparts, hhome]
  unfold ranksHere homeRank
  rw [hpos, hrank, hhost, part_congr hparts]

/-! ## `STM_CKPT_CTRL` (R381) -/

theorem ckptCtrl_off (p : Nat) : F.STM_CKPT_CTRL_GO.off p = 0x510018 + 0x1000 * p := by
  simp only [Fld.off, F.STM_CKPT_CTRL_GO]
  omega

/-- A finite fact about the register index: the fields of `STM_CKPT_CTRL`. -/
theorem regAt_ckptCtrl : ∀ p < 8, ∃ r i, regAt (F.STM_CKPT_CTRL_GO.off p) = some (r, i) ∧ F.STM_CKPT_CTRL_GO ∈ r.fields ∧
    F.STM_CKPT_CTRL_ERR ∈ r.fields ∧ F.STM_CKPT_CTRL_RANK ∈ r.fields := by
  have hrow : ∀ p < 8, ((regAt (F.STM_CKPT_CTRL_GO.off p)).map (·.1.fields)) =
      some [F.STM_CKPT_CTRL_GO, F.STM_CKPT_CTRL_ERR, F.STM_CKPT_CTRL_RANK] := by
    decide +kernel
  intro p hp
  have hp' := hrow p hp
  cases hat : regAt (F.STM_CKPT_CTRL_GO.off p) with
  | none => rw [hat] at hp'; exact absurd hp' (by simp)
  | some x =>
    rw [hat] at hp'
    have hfields : x.1.fields = [F.STM_CKPT_CTRL_GO, F.STM_CKPT_CTRL_ERR, F.STM_CKPT_CTRL_RANK] := Option.some.inj hp'
    refine ⟨x.1, x.2, rfl, ?_⟩
    rw [hfields]
    simp

/-- A receiver is ready: registered, with an association, of a rank hosted here under a plan. -/
def ckptReady (s : State) (p r : Nat) : Bool :=
  s.hasSa (s.getF F.STM_CKPT_DST_MAC p) && ((s.part p).feeders.any fun x => x.rank = r && x.mac = s.getF F.STM_CKPT_DST_MAC p) &&
    (s.plan p).isSome && (s.ranksHere p).contains r

theorem ckptReady_congr (hword : ∀ o, o ≠ F.STM_CKPT_CTRL_GO.off p → t.word o = s.word o) (hregs : t = { s with regs := t.regs }) (r : Nat) :
    t.ckptReady p r = s.ckptReady p r ∧ t.running p = s.running p ∧ t.curStep p = s.curStep p := by
  have hparts : t.parts = s.parts := by rw [hregs]
  have hpeers : t.peers = s.peers := by rw [hregs]
  have hoff := ckptCtrl_off p
  have hdst : t.getF F.STM_CKPT_DST_MAC p = s.getF F.STM_CKPT_DST_MAC p := getF_congr_word (hword _ (by
    rw [hoff]; simp only [Fld.off, F.STM_CKPT_DST_MAC]; omega))
  refine ⟨?_, flag_congr (hword _ ?_), getF_congr_word (hword _ ?_)⟩
  · rw [ckptReady, hasSa_congr hpeers, hdst, part_congr hparts, ranksHere_congr hparts (hword _ ?_), plan, part_congr hparts]
    · rfl
    · rw [hoff]; simp only [F.FAB_CFG_X]; omega
  · rw [hoff]; simp only [Fld.off, F.PLN_CTRL_RUN]; omega
  · rw [hoff]; simp only [Fld.off, F.PLN_STEP_STEP]; omega

/-- A checkpoint stream starts. -/
def ckptStarts (s : State) (p r : Nat) : State :=
  let s := { s with frameSeq := mput 0 s.frameSeq (streamNo 6 r (s.curStep p)) 0 }
  let c : Ckpt := { rank := r, entry := 0xFFFFFFFF, offset := 0, grant := 0, sent := 0 }
  ((s.putF F.STM_CKPT_CTRL_GO p 1).putF F.STM_CKPT_CTRL_ERR p 0).modPart p fun x => { x with ckpt := some c }

theorem exec_ckptGo {f : Func} {p : Nat} {v : Word} (hopen : Open s f (F.STM_CKPT_CTRL_GO.off p)) (hgo : getBits v 63 63 = 1)
    (hidle : s.flag F.STM_CKPT_CTRL_GO p = false) {b : State} (hb : s.writeOthers (F.STM_CKPT_CTRL_GO.off p) v = b) {r : Nat}
    (hr : b.getF F.STM_CKPT_CTRL_RANK p = r) : exec (.stmCkptGo f p v) s = .next
      (if b.running p ∨ ¬ b.ckptReady p r then b.putF F.STM_CKPT_CTRL_ERR p 1 else b.ckptStarts p r) := by
  subst hr
  subst hb
  exact congrArg Host.Outcome.next ((s.gated_of_open hopen _).trans (if_neg (by rw [hgo, hidle]; decide)))

/-- A stream that has started. -/
structure CkptStarted (s : State) (p r : Nat) (t : State) : Prop where
  frame : t = { s with regs := t.regs, parts := t.parts, frameSeq := t.frameSeq }
  rank : t.getF F.STM_CKPT_CTRL_RANK p = s.getF F.STM_CKPT_CTRL_RANK p
  go : t.flag F.STM_CKPT_CTRL_GO p = true
  err : t.flag F.STM_CKPT_CTRL_ERR p = false
  ckpt : (t.part p).ckpt = some { rank := r, entry := 0xFFFFFFFF, offset := 0, grant := 0, sent := 0 }
  seq : t.nextSeq 6 r (s.curStep p) = 0
  word : ∀ o, o ≠ F.STM_CKPT_CTRL_GO.off p → t.word o = s.word o

theorem flag_putF_zero (s : State) (f : Fld) (i : Nat) (h : f.lo ≤ f.hi) (h64 : f.hi < 64) : (s.putF f i 0).flag f i = false :=
  flag_of_getF ((s.getF_putF f i 0 h h64).trans (Nat.zero_mod _)) rfl

theorem ckptStarts_started (s : State) (p r : Nat) : CkptStarted s p r (s.ckptStarts p r) := by
  have hfield : ∀ f i, (s.ckptStarts p r).getF f i = ((s.putF F.STM_CKPT_CTRL_GO p 1).putF F.STM_CKPT_CTRL_ERR p 0).getF f i :=
    fun _ _ => rfl
  have hword : ∀ o, (s.ckptStarts p r).word o = ((s.putF F.STM_CKPT_CTRL_GO p 1).putF F.STM_CKPT_CTRL_ERR p 0).word o := fun _ => rfl
  refine ⟨rfl, ?_, ?_, ?_, ?_, ?_, fun o ho => ?_⟩
  · rw [hfield, getF_putF_bits _ _ _ _ _ _ (.inl (by decide)), getF_putF_bits _ _ _ _ _ _ (.inl (by decide))]
  · rw [flag, hfield, ← flag, flag_putF_bits _ _ _ _ _ _ (.inr (by decide)), flag_putF_one _ _ _ (by decide) (by decide)]
  · rw [flag, hfield, ← flag, flag_putF_zero _ _ _ (by decide) (by decide)]
  · rw [ckptStarts, modPart_eq, part_setPart]
  · exact mget_mput_self 0 s.frameSeq _ 0
  · rw [hword]
    exact (word_putF_ne _ F.STM_CKPT_CTRL_ERR _ _ ho).trans (word_putF_ne _ F.STM_CKPT_CTRL_GO _ _ ho)

/-! ## Frames of a stream -/

/-- A stream that has ended. -/
structure CkptEnded (s : State) (p err : Nat) (t : State) : Prop where
  frame : t = { s with regs := t.regs, parts := t.parts }
  ckpt : (t.part p).ckpt = none
  go : t.flag F.STM_CKPT_CTRL_GO p = false
  err : t.flag F.STM_CKPT_CTRL_ERR p = decide (err % 2 = 1)

theorem ckptEnd_ended (s : State) (p err : Nat) : CkptEnded s p err (s.ckptEnd p err) := by
  have hfield : ∀ f i, (s.ckptEnd p err).getF f i = ((s.putF F.STM_CKPT_CTRL_GO p 0).putF F.STM_CKPT_CTRL_ERR p err).getF f i :=
    fun _ _ => rfl
  refine ⟨rfl, ?_, ?_, ?_⟩
  · rw [ckptEnd, modPart_eq, part_setPart]
  · rw [flag, hfield, ← flag, flag_putF_bits _ _ _ _ _ _ (.inr (by decide)), flag_putF_zero _ _ _ (by decide) (by decide)]
  · rw [flag, hfield, getF_putF _ _ _ _ (by decide) (by decide)]
    rfl

/-- An entry that has bytes left is the one a frame is taken from. -/
theorem ckptFrom_of_left {p r n k o : Nat} {b : List Byte} (hb : s.ckptBytes p r k = some b) (ho : o < b.length) :
    s.ckptFrom p r (n + 1) k o = some (k, o, b) := by
  rw [ckptFrom, hb]
  exact if_pos ho

/-- The frame of a checkpoint, behind it the stream's end or its next place. -/
theorem ckptSend_eq {p n j : Nat} {c : Ckpt} {b : List Byte} (hb : s.ckptBytes p c.rank c.entry = some b) (ho : c.offset < b.length)
    (hn : 0 < n) (hport : s.sendPort = some j)
    (hgrant : c.sent + 16 + ((b.drop c.offset).take (min n ckptRoom)).length ≤ c.grant) :
    ∃ l : Bool, (c.offset + ((b.drop c.offset).take (min n ckptRoom)).length < b.length → l = false) ∧ s.ckptSend p n c =
      if l then (s.frameTo j (s.getF F.STM_CKPT_DST_MAC p) 6 p c.rank (s.curStep p) l
        (leBytes 4 c.entry ++ leBytes 4 0 ++ leBytes 8 c.offset ++ (b.drop c.offset).take (min n ckptRoom))).ckptEnd p 0
      else (s.frameTo j (s.getF F.STM_CKPT_DST_MAC p) 6 p c.rank (s.curStep p) l
        (leBytes 4 c.entry ++ leBytes 4 0 ++ leBytes 8 c.offset ++ (b.drop c.offset).take (min n ckptRoom))).modPart p fun x => { x with
          ckpt := some { c with entry := c.entry, offset := c.offset + ((b.drop c.offset).take (min n ckptRoom)).length,
                                sent := c.sent + 16 + ((b.drop c.offset).take (min n ckptRoom)).length } } := by
  have hfrom : s.ckptFrom p c.rank (s.rdN (region p (.manifest c.rank) + 0x10) 4 + 2) c.entry c.offset =
      some (c.entry, c.offset, b) := ckptFrom_of_left hb ho
  have hne : ¬ (b.drop c.offset).take (min n ckptRoom) = [] := by
    have hroom : 0 < ckptRoom := by decide
    rw [← List.length_eq_zero_iff, List.length_take, List.length_drop]
    omega
  refine ⟨(s.ckptFrom p c.rank (s.rdN (region p (.manifest c.rank) + 0x10) 4 + 2) c.entry
    (c.offset + ((b.drop c.offset).take (min n ckptRoom)).length)).isNone, fun hleft => ?_, ?_⟩
  · rw [ckptFrom_of_left hb hleft]; rfl
  · unfold ckptSend
    dsimp only
    rw [hfrom]
    dsimp only
    rw [if_neg (by rw [hport]; simp only [Option.isNone_some]; rintro (h | h | h); exacts [hne h, by omega, Bool.noConfusion h]), hport]
    rfl

end State

open State

/-- R381: a stream starts where its receiver is ready. -/
theorem checkpointStarts {s : State} {f : Func} {p : Nat} {v : Word} (hp : p < 8) (hopen : Open s f (F.STM_CKPT_CTRL_GO.off p))
    (hgo : getBits v 63 63 = 1) (hidle : s.flag F.STM_CKPT_CTRL_GO p = false) {ready : Bool}
    (hready : ready = (s.ckptReady p (getBits v 16 0) && !s.running p)) :
    ∃ u, exec (.stmCkptGo f p v) s = .next u ∧ u.getF F.STM_CKPT_CTRL_RANK p = getBits v 16 0 ∧
      (ready = true → u.flag F.STM_CKPT_CTRL_GO p = true ∧ u.flag F.STM_CKPT_CTRL_ERR p = false ∧
        (u.part p).ckpt = some { rank := getBits v 16 0, entry := 0xFFFFFFFF, offset := 0, grant := 0, sent := 0 } ∧
        u.nextSeq 6 (getBits v 16 0) (s.curStep p) = 0) ∧
      (ready = false → u.flag F.STM_CKPT_CTRL_ERR p = true ∧ u.flag F.STM_CKPT_CTRL_GO p = false ∧ u.parts = s.parts ∧
        u.frameSeq = s.frameSeq) ∧
      u = { s with regs := u.regs, parts := u.parts, frameSeq := u.frameSeq } ∧
      ∀ o, o ≠ F.STM_CKPT_CTRL_GO.off p → u.word o = s.word o := by
  obtain ⟨row, i, hrow, hgoMem, herrMem, hrankMem⟩ := regAt_ckptCtrl p hp
  have hregs := s.writeOthers_eq (F.STM_CKPT_CTRL_GO.off p) v
  have hword := fun {o : Nat} (ho : o ≠ F.STM_CKPT_CTRL_GO.off p) => s.word_writeOthers_ne (F.STM_CKPT_CTRL_GO.off p) v ho
  have hrank : (s.writeOthers (F.STM_CKPT_CTRL_GO.off p) v).getF F.STM_CKPT_CTRL_RANK p = getBits v 16 0 :=
    s.getF_writeOthers_rw hrow v hrankMem (by decide) rfl rfl rfl
  have hgoKept : (s.writeOthers (F.STM_CKPT_CTRL_GO.off p) v).flag F.STM_CKPT_CTRL_GO p = false := by
    rw [State.flag, s.getF_writeOthers_kept hrow v hgoMem (by decide) rfl (.inl rfl), ← State.flag, hidle]
  have hexec := exec_ckptGo hopen hgo hidle rfl hrank
  generalize s.writeOthers (F.STM_CKPT_CTRL_GO.off p) v = b at hregs hword hrank hgoKept hexec
  obtain ⟨hsame, hrun, hstep⟩ := ckptReady_congr (p := p) (fun o ho => hword ho) hregs (getBits v 16 0)
  rw [hsame, hrun] at hexec
  cases ready with
  | true =>
    obtain ⟨hr, hidle'⟩ := Bool.and_eq_true_iff.mp hready.symm
    have h := b.ckptStarts_started p (getBits v 16 0)
    rw [if_neg (by rw [hr]; simpa using hidle')] at hexec
    refine ⟨_, hexec, h.rank.trans hrank, fun _ => ⟨h.go, h.err, h.ckpt, hstep ▸ h.seq⟩, fun hno => absurd hno (by decide), ?_,
      fun o ho => (h.word o ho).trans (hword ho)⟩
    rw [h.frame, hregs]
  | false =>
    have hnot : s.running p = true ∨ ¬ s.ckptReady p (getBits v 16 0) = true := by
      cases hr : s.running p with
      | true => exact .inl rfl
      | false =>
        rw [hr, Bool.not_false, Bool.and_true] at hready
        exact .inr (by rw [← hready]; decide)
    rw [if_pos hnot] at hexec
    have hparts : b.parts = s.parts := by rw [hregs]
    have hseq : b.frameSeq = s.frameSeq := by rw [hregs]
    refine ⟨_, hexec, ?_, fun hno => absurd hno (by decide), fun _ => ⟨flag_putF_one _ _ _ (by decide) (by decide), ?_, hparts, hseq⟩, ?_,
      fun o ho => (word_putF_ne _ F.STM_CKPT_CTRL_ERR _ _ ho).trans (hword ho)⟩
    · rw [getF_putF_bits _ _ _ _ _ _ (.inl (by decide)), hrank]
    · rw [flag_putF_bits _ _ _ _ _ _ (.inr (by decide)), hgoKept]
    · rw [hregs]; rfl

/-- R375, R381: a checkpoint stream starts, sends its next frame, and ends. -/
theorem checkpointStreams : Claims.CheckpointStreams := by
  unfold Claims.CheckpointStreams
  refine ⟨?_, fun s p n c hp hckpt => ⟨fun hrun => ?_, ?_⟩⟩
  · intro s f p v hp hopen hgo hidle r mac ready
    exact checkpointStarts hp hopen hgo hidle rfl
  · have h := s.ckptEnd_ended p 1
    refine ⟨_, congrArg Host.Outcome.next ?_, h.ckpt, h.go, h.err, ?_⟩
    · rw [hckpt]
      exact if_pos hrun
    · rw [h.frame]
  · intro k j b hidle hk hb hoff hn hport d dst hlive hgrant
    subst hk
    obtain ⟨l, hl, hsend⟩ := ckptSend_eq (p := p) (n := n) (j := j) hb hoff hn hport hgrant
    have hup : s.linkUp j = true := List.find?_some hport
    rw [frameTo_framed hup hlive] at hsend
    have hexec : exec (.ckptFrameSend p n) s = .next (s.ckptSend p n c) := by
      refine congrArg Host.Outcome.next ?_
      rw [hckpt]
      exact if_neg (by rw [hidle]; decide)
    rw [hsend] at hexec
    have hframe := s.framed_frame j 6 c.rank (s.curStep p) (s.peerOf dst) (s.frameFor j (s.peerOf dst)
      { port := j, mac := dst, type := 6, part := p, last := l, rank := c.rank, step := s.curStep p,
        seq := s.nextSeq 6 c.rank (s.curStep p) } (leBytes 4 c.entry ++ leBytes 4 0 ++ leBytes 8 c.offset ++ d))
    generalize s.framed j 6 c.rank (s.curStep p) (s.peerOf dst) _ = t at hexec hframe
    have hmem : t.mem = s.mem := by rw [hframe]
    have hout : t.out = _ := congrArg State.out hframe
    have hregs : t.regs = s.regs := by rw [hframe]
    cases l with
    | true =>
      rw [if_pos rfl] at hexec
      have h := t.ckptEnd_ended p 0
      refine ⟨_, hexec, true, ?_, fun hno => absurd hno (by decide), fun _ => ⟨h.ckpt, h.go, h.err⟩, hl, fun a => rd8_congr ?_ a⟩
      · rw [h.frame]; exact hout
      · rw [h.frame]; exact hmem
    | false =>
      rw [if_neg (by decide)] at hexec
      exact ⟨_, hexec, false, hout, fun _ => ⟨by rw [modPart_eq, part_setPart], hregs⟩, fun hno => absurd hno (by decide), hl,
        fun a => rd8_congr hmem a⟩

end Sys2Proof.Machine

namespace Sys2Proof
open Machine

/-- Settles O54: an object of key exchange is gathered, answered and sent frame by frame; a checkpoint's frames follow its
receiver's credit. -/
theorem feederKeysAndCheckpoints : Obligations.FeederKeysAndCheckpoints := by
  unfold Obligations.FeederKeysAndCheckpoints
  exact ⟨keyExchanges, checkpointStreams⟩

end Sys2Proof
end

section
/-! Host movers (O51): a chain of no partition whose event register is a queue's status register. -/

namespace Sys2Proof.Machine

/-- A descriptor that moves one byte from host memory to device address 0. -/
def outsideDesc : List Byte :=
  leBytes 8 (2 ^ 63 + 0x1000) ++ leBytes 24 0 ++ leBytes 4 1 ++ leBytes 4 1 ++ leBytes 4 1 ++ leBytes 4 1 ++ leBytes 16 0

/-- A chain of queue 0 that names partition 0x77FA03: `DMA_PEVT` of that index lies where `DMA_QSTATUS` of queue 0 does. -/
def strayChain : Chain :=
  { queue := some 0, part := 0x77FA03, task := 0, addr := BitVec.ofNat 64 (2 ^ 63), desc := none, written := 0, abort := false }

/-- Mover 0 runs the chain, its descriptor at host address 0. -/
def strayMover : State :=
  ((State.reset.putF F.DMA_QSTATUS_PENDING 0 1).hwr 0 outsideDesc).modMover 0 fun m => { m with chain := some strayChain }

theorem strayMover_refused :
    strayMover.descStatus false strayChain.part (readMDesc (strayMover.descBytes strayChain.addr)) = some (5, some (true, 0)) := by
  decide +kernel

namespace State

theorem getF_writeBack (s : State) (p : Nat) (a : Word) (st residue : Nat) (f : Fld) (i : Nat) :
    (s.writeBack p a st residue).getF f i = s.getF f i := by
  unfold writeBack
  split
  · rfl
  · dsimp only
    generalize leBytes 1 st ++ leBytes 5 residue = b
    split
    · exact getF_congr_regs (by rw [hwr_frame])
    · exact getF_congr_regs (by rw [((MemOnly.refl s).wr _ _).frame])

/-- A chain that stops leaves one pending chain less than the refused access has left. -/
theorem pending_chainStops {s : State} {h q : Nat} {k : Chain} {t : State} (hq : k.queue = some q) (st residue : Nat) (w : Bool) (a : Nat)
    (ht : ((s.modMover h fun m => { m with frozen := true }).freezeLog k.part 3 h w a).moverIdle h = t) :
    (s.chainStops h k st residue (some (w, a))).getF F.DMA_QSTATUS_PENDING q = (t.getF F.DMA_QSTATUS_PENDING q - 1) % 2 ^ 7 := by
  unfold chainStops
  dsimp only
  rw [ht, hq]
  dsimp only
  rw [getF_signalQ, chainsLess, getF_putF _ _ _ _ (by decide) (by decide), putLast, getF_putF_bits _ _ _ _ _ _ (.inl (by decide)),
    getF_writeBack]
  rfl

end State

open State

/-- Before its message the event has set bit 2 of the register. -/
theorem pending_strayEvent : ((strayMover.modMover 0 fun m => { m with frozen := true }).freezeLog strayChain.part 3 0 true 0).getF
    F.DMA_QSTATUS_PENDING 0 = 5 := by
  rw [freezeLog_eq, pevt, getF_signalQ]
  decide +kernel

/-- The event of the refused access is counted as pending chains. -/
theorem pending_strayMover :
    (stateAfter (.descriptorStart 0) strayMover).getF F.DMA_QSTATUS_PENDING 0 ≠ strayMover.getF F.DMA_QSTATUS_PENDING 0 - 1 := by
  have hstart : stateAfter (.descriptorStart 0) strayMover =
      strayMover.chainStops 0 strayChain 5 1 (some (true, 0)) := by
    refine (stateAfter_eq (u := strayMover.hostDescStart 0) rfl).trans ?_
    have hchain : (strayMover.mover 0).chain = some strayChain := by decide +kernel
    have hmay : ¬ (strayChain.desc.isSome = true ∨ strayChain.abort = true ∨ (strayMover.mover 0).frozen = true) := by decide +kernel
    have hspace : ¬ (!(addrOk false strayChain.addr (spaceAddr strayChain.addr) (spaceAddr strayChain.addr + 64))) = true := by
      decide +kernel
    have halign : ¬ getBits strayChain.addr 5 0 ≠ 0 := by decide +kernel
    have hreach : ¬ (!strayMover.descReach strayChain.part strayChain.addr false) = true := by decide +kernel
    have htotal : (readMDesc (strayMover.descBytes strayChain.addr)).total = 1 := by decide +kernel
    unfold hostDescStart
    rw [hchain]
    dsimp only
    rw [if_neg hmay, if_neg hspace, if_neg halign, if_neg hreach, strayMover_refused]
    dsimp only
    rw [htotal]
  have hidle : ((((strayMover.modMover 0 fun m => { m with frozen := true }).freezeLog strayChain.part 3 0 true 0)).moverIdle 0).getF
      F.DMA_QSTATUS_PENDING 0 = 5 := (getF_putF_off _ F.DMA_MSTAT_STATE _ _ _ _ (by decide)).trans pending_strayEvent
  have hone : strayMover.getF F.DMA_QSTATUS_PENDING 0 = 1 := by decide +kernel
  rw [hstart, pending_chainStops (q := 0) rfl 5 1 true 0 rfl, hidle, hone]
  decide

end Sys2Proof.Machine

namespace Sys2Proof
open Machine

/-- Refutes O51: a chain may name any partition, and the event of a refused access of "partition" 0x77FA03 is written into
`DMA_QSTATUS` of queue 0, whose `PENDING` is said to fall by one. -/
theorem not_moversRunDescriptors : ¬ Obligations.MoversRunDescriptors := by
  unfold Obligations.MoversRunDescriptors
  rintro ⟨hmovers, -⟩
  obtain ⟨hstart, -⟩ := hmovers strayMover 0 0 strayChain (by decide) (by decide +kernel) rfl (by decide +kernel) (by decide)
    (by decide) (by decide) (by decide) (by decide +kernel) (by decide +kernel)
  obtain ⟨u, hu, -, -, -, hrefused⟩ := hstart rfl rfl
  obtain ⟨-, -, -, -, hpending⟩ := hrefused _ strayMover_refused
  rw [← stateAfter_eq hu] at hpending
  exact pending_strayMover hpending

end Sys2Proof
end

section
/-! SUPPORT. The compare of working copies, which rolls a step back, and the calibration record (R161, R317, R323, R334). -/

namespace Sys2Proof.Machine
namespace State

variable {s t : State} {p : Nat}

/-! ## A rollback of the step -/

theorem parts_foldl {α : Type} {act : State → α → State} (hact : ∀ v x, (act v x).parts = v.parts) (l : List α) (s : State) :
    (l.foldl act s).parts = s.parts := by
  induction l generalizing s with
  | nil => rfl
  | cons x l ih => exact (ih _).trans (hact s x)

theorem parts_signalQ (s : State) (q : Nat) : (s.signalQ q).parts = s.parts := by
  obtain ⟨fn, e, h⟩ := s.signalQ_out q
  rw [h]

theorem parts_pevt (s : State) (p bit : Nat) : (s.pevt p bit).parts = s.parts := parts_signalQ _ _

theorem rollbacks_planStop (s : State) (p cause : Nat) : ((s.planStop p cause).part p).rollbacks = (s.part p).rollbacks := by
  unfold planStop
  extract_lets s1 s2 s3 s4 s5
  have h1 : (s1.part p).rollbacks = (s.part p).rollbacks := congrArg Part.rollbacks (part_congr rfl p)
  clear_value s1
  have h2 : (s2.part p).rollbacks = (s1.part p).rollbacks := by simp only [s2, modPart_eq, part_setPart]
  clear_value s2
  have h4 : s4.parts = s2.parts := rfl
  clear_value s4
  have h5 : s5.parts = s4.parts := by
    refine parts_foldl (fun v i => ?_) _ _
    dsimp only
    split
    · exact parts_signalQ _ _
    · rfl
  rw [part_congr ((parts_pevt s5 p 1).trans (h5.trans h4)), h2, h1]

theorem rollbacks_stopRolled (s : State) (p cause : Nat) : ((s.stopRolled p cause).part p).rollbacks = (s.part p).rollbacks := by
  unfold stopRolled
  rw [rollbacks_planStop, part_congr (parts_foldl (fun v g => ?_) _ s)]
  unfold restoreTile
  split <;> rfl

theorem parts_dropUnsent (s : State) (p : Nat) (keep : Nat → Bool) : (s.dropUnsent p keep).parts = s.parts :=
  parts_foldl (act := fun (v : State) i => v.modPort i _) (fun _ _ => rfl) _ _

/-- The plan's stop leaves what the rollback shows. -/
theorem stopApart_rollInfo (p : Nat) : StopApart F.PLN_ROLL_INFO_CAUSE p p := by
  refine ⟨.inl ?_, .inl ?_, .inl ?_, .inl ?_, .inl ?_, fun g => .inl ?_⟩ <;>
    simp only [Fld.off, F.PLN_ROLL_INFO_CAUSE, F.PLN_CTRL_RUN, F.GEN_STATUS_RUNNING, F.PLN_COMMIT_STATUS_DSTATE, F.PLN_SPOS_POS,
      F.DMA_PEVT_CAUSE, F.TIL_STATUS_STATE] <;> omega

theorem stopApart_rollBn (p : Nat) : StopApart F.PLN_ROLL_BN_BN p p := by
  refine ⟨.inl ?_, .inl ?_, .inl ?_, .inl ?_, .inl ?_, fun g => .inl ?_⟩ <;>
    simp only [Fld.off, F.PLN_ROLL_BN_BN, F.PLN_CTRL_RUN, F.GEN_STATUS_RUNNING, F.PLN_COMMIT_STATUS_DSTATE, F.PLN_SPOS_POS,
      F.DMA_PEVT_CAUSE, F.TIL_STATUS_STATE] <;> omega

/-- A rollback of partition `p` has begun: its count, its cause and the beat of the fault (R317, R323). -/
structure RolledBack (s t : State) (p cause bn : Nat) : Prop where
  rollbacks : (t.part p).rollbacks = (s.part p).rollbacks + 1
  cause : t.getF F.PLN_ROLL_INFO_CAUSE p = cause
  bn : t.getF F.PLN_ROLL_BN_BN p = bn

/-- The registers that tell of a rollback's fault. -/
def rollNoted (s : State) (p bn origin task cause : Nat) : State :=
  (((s.putF F.PLN_ROLL_BN_BN p bn).putF F.PLN_ROLL_INFO_ORIGIN p origin).putF F.PLN_ROLL_INFO_TASK p task).putF
    F.PLN_ROLL_INFO_CAUSE p cause

theorem rollNoted_shows {r : CommitReport} (hp : (t.part p).rollbacks = (s.part p).rollbacks + 1) (hc : r.cause < 2 ^ 8)
    (hb : r.faultBn < 2 ^ 64) : RolledBack s (t.rollNoted p r.faultBn r.origin r.task r.cause) p r.cause r.faultBn := by
  refine ⟨?_, ?_, ?_⟩
  · rw [rollNoted, part_putF, part_putF, part_putF, part_putF, hp]
  · rw [rollNoted, getF_putF _ _ _ _ (by decide) (by decide)]
    exact Nat.mod_eq_of_lt hc
  · have hoff : ∀ f ∈ [F.PLN_ROLL_INFO_CAUSE, F.PLN_ROLL_INFO_TASK, F.PLN_ROLL_INFO_ORIGIN], F.PLN_ROLL_BN_BN.off p ≠ f.off p := by
      simp only [List.forall_mem_cons, List.not_mem_nil, false_imp_iff, implies_true, and_true, Fld.off, F.PLN_ROLL_BN_BN,
        F.PLN_ROLL_INFO_CAUSE, F.PLN_ROLL_INFO_TASK, F.PLN_ROLL_INFO_ORIGIN]
      omega
    simp only [List.forall_mem_cons, List.not_mem_nil, false_imp_iff, implies_true, and_true] at hoff
    rw [rollNoted, getF_putF_off _ _ _ _ _ _ hoff.1, getF_putF_off _ _ _ _ _ _ hoff.2.1, getF_putF_off _ _ _ _ _ _ hoff.2.2,
      getF_putF _ _ _ _ (by decide) (by decide)]
    exact Nat.mod_eq_of_lt hb

/-- A restore complete at once opens the re-run. -/
theorem RolledBack.opened {cause bn : Nat} (h : RolledBack s t p cause bn) (v : Nat) :
    RolledBack s ((t.modPart p fun x => { x with restoring := false }).putF F.PLN_COMMIT_STATUS_DSTATE p v) p cause bn := by
  obtain ⟨hrollbacks, hcause, hbn⟩ := h
  refine ⟨?_, (getF_putF_apart _ _ (stopApart_rollInfo p).dstate).trans hcause,
    (getF_putF_apart _ _ (stopApart_rollBn p).dstate).trans hbn⟩
  have hpart : ((t.modPart p fun x => { x with restoring := false }).part p).rollbacks = (t.part p).rollbacks := by
    rw [modPart_eq, part_setPart]
  rw [part_putF, hpart, hrollbacks]

theorem RolledBack.stopRolled {cause bn : Nat} (h : RolledBack s t p cause bn) (why : Nat) :
    RolledBack s (t.stopRolled p why) p cause bn := by
  obtain ⟨hrollbacks, hcause, hbn⟩ := h
  exact ⟨(rollbacks_stopRolled _ _ _).trans hrollbacks, (getF_stopRolled (stopApart_rollInfo p) _ _).trans hcause,
    (getF_stopRolled (stopApart_rollBn p) _ _).trans hbn⟩

/-- With none under way a rollback counts one more and shows the fault of its report. -/
theorem rollback_shows {r : CommitReport} (h : s.rolling p = false) (hc : r.cause < 2 ^ 8) (hb : r.faultBn < 2 ^ 64) :
    RolledBack s (s.rollback p r) p r.cause r.faultBn := by
  unfold rollback
  extract_lets x k wait joined told step stopped restored channels movers engines queues waits keep stale unsent cleared counted
    attempt shown noted opened
  rw [if_neg (by rw [h]; decide)]
  have hunsent : ∃ f : Part → Part, cleared = unsent.modPart p f ∧ ∀ y, (f y).rollbacks = y.rollbacks + 1 := ⟨_, rfl, fun _ => rfl⟩
  have hstopped : stopped.parts = s.parts := by
    refine parts_foldl (fun v g => ?_) _ _
    unfold stopTile
    dsimp only
    split <;> rfl
  clear_value stopped
  have hrestored : restored.parts = stopped.parts := by
    refine parts_foldl (fun v g => ?_) _ _
    split
    · rfl
    · unfold restoreTile
      split <;> rfl
  clear_value restored
  have hchannels : channels.parts = restored.parts := 
    parts_foldl (fun v c => parts_foldl (act := fun (w : State) i => w.stopChannel p (8 * c + i)) (fun _ _ => rfl) _ v) _ _
  clear_value channels
  have hmovers : movers.parts = channels.parts := by
    refine parts_foldl (fun v i => ?_) _ _
    split
    · split <;> rfl
    · rfl
  clear_value movers
  have hengines : engines.parts = movers.parts := by
    refine parts_foldl (fun v e => ?_) _ _
    unfold ochRollback
    dsimp only
    split <;> rfl
  clear_value engines
  have hqueues : queues.parts = engines.parts := 
    parts_foldl (act := fun (w : State) i => w.modQueue (32 * p + i) _) (fun _ _ => rfl) _ _
  have hdrop : unsent.parts = queues.parts := parts_dropUnsent _ _ _
  have hparts : unsent.parts = s.parts :=
    hdrop.trans (hqueues.trans (hengines.trans (hmovers.trans (hchannels.trans (hrestored.trans hstopped)))))
  clear_value queues unsent
  obtain ⟨f, hf, hroll⟩ := hunsent
  have hcleared : (cleared.part p).rollbacks = (s.part p).rollbacks + 1 := by
    rw [hf, modPart_eq, part_setPart, hroll, part_congr hparts]
  clear_value cleared
  have hcounted : (counted.part p).rollbacks = (s.part p).rollbacks + 1 := (congrArg Part.rollbacks (part_putF _ _ _ _ _)).trans hcleared
  clear_value counted
  have hattempt : (attempt.part p).rollbacks = (s.part p).rollbacks + 1 := (congrArg Part.rollbacks (part_putF _ _ _ _ _)).trans hcounted
  clear_value attempt
  have hshown : (shown.part p).rollbacks = (s.part p).rollbacks + 1 := (congrArg Part.rollbacks (part_putF _ _ _ _ _)).trans hattempt
  clear_value shown
  have hnoted : RolledBack s noted p r.cause r.faultBn := rollNoted_shows hshown hc hb
  clear_value noted
  have hopened : RolledBack s opened p r.cause r.faultBn := by
    simp only [opened]
    split
    · exact hnoted
    · exact hnoted.opened _
  clear_value opened
  split
  · exact hopened.stopRolled _
  · exact hopened

/-! ## A module fault in the step in progress -/

theorem parts_sendReport (s : State) (p : Nat) (r : CommitReport) : (s.sendReport p r).parts = s.parts := by
  refine parts_foldl (fun v q => ?_) _ _
  unfold sendReportTo
  split
  · rfl
  · split
    · rfl
    · rw [((PortsOut.refl _).queueMsg _ _ _ _).frame]
      rfl

theorem bn_lt (s : State) : s.bn < 2 ^ 64 := s.getF_lt F.PLN_BN_BN 0

theorem bn_elog (s : State) (src idx cause detail : Nat) : (s.elog src idx cause detail).bn = s.bn :=
  bn_congr ((elog_logsOnly s src idx cause detail).word _ (by decide))

theorem parts_elog (s : State) (src idx cause detail : Nat) : (s.elog src idx cause detail).parts = s.parts := by
  rw [(elog_logsOnly s src idx cause detail).frame]

/-- Before the OK report a module fault rolls the step back (R317). -/
theorem moduleFaultAt_rollsBack (hm : s.stepMoves p = true) (hok : (s.part p).okSent = false) {cause : Nat}
    (hc : cause < 2 ^ 8) (task detail : Nat) : RolledBack s (s.moduleFaultAt p cause task false detail) p cause s.bn := by
  unfold stepMoves at hm
  obtain ⟨⟨hactive, hrerun⟩, hwaiting⟩ := by simpa only [Bool.and_eq_true] using hm
  unfold moduleFaultAt
  extract_lets logged x stopping r sent
  have hbn : logged.bn = s.bn := bn_elog _ _ _ _ _
  have hlogged : logged.parts = s.parts := parts_elog _ _ _ _ _
  clear_value logged
  have hx : x = s.part p := part_congr hlogged p
  clear_value x
  subst hx
  rw [if_neg (by rw [hactive]; decide), if_neg (by rw [hok]; decide)]
  have hsent : sent.parts = s.parts := (parts_foldl (fun v d => parts_sendReport v p _) _ _).trans hlogged
  have hr : r.faultBn = s.bn := hbn
  have hcause : r.cause = cause := rfl
  clear_value sent r
  have hrolling : sent.rolling p = false := by
    unfold rolling
    rw [part_congr hsent]
    simp only [Option.isNone_iff_eq_none.mp hrerun, (Bool.not_eq_true' _).mp hwaiting, Option.isSome_none, Bool.false_and,
      Bool.false_or, Bool.and_false]
  obtain ⟨hrollbacks, hshown, hat⟩ := rollback_shows hrolling (hcause ▸ hc) (hr ▸ s.bn_lt)
  exact ⟨by rw [hrollbacks, part_congr hsent], hshown.trans hcause, hat.trans hr⟩

theorem moduleFaultAt_memSame (s : State) (p cause task : Nat) (stop : Bool) (detail : Nat) :
    MemSame s (s.moduleFaultAt p cause task stop detail) := fun a => by
  rw [((FaultStep.refl s).moduleFaultAt p cause task stop detail).frame]
  rfl

theorem moduleFaultAt_host (s : State) (p cause task : Nat) (stop : Bool) (detail : Nat) :
    (s.moduleFaultAt p cause task stop detail).host = s.host := by
  rw [((FaultStep.refl s).moduleFaultAt p cause task stop detail).frame]

end State

/-! ## The compare and the calibration -/

variable {s : State} {p : Nat} {pl : Plan}

theorem exec_compare_equal {m c f : Nat} (h : s.copyEqual m c f = true) (i b : Nat) :
    exec (.workingCopyCompare p i b m c f) s = .next s := by
  change execWorkingCopyCompare p i b m c f s = _
  unfold execWorkingCopyCompare
  split
  · exact congrArg Host.Outcome.next (if_pos (.inr (.inr (.inr (.inr h)))))
  · rfl

theorem exec_compare_differs {i b m c f : Nat} (hpl : s.plan p = some pl) (hm : s.stepMoves p = true)
    (hk : pl.params.cmpPeriod ≠ 0) (hturn : b % pl.params.cmpPeriod = s.curStep p % pl.params.cmpPeriod)
    (hkind : (pl.params.tensors[i]?).any (·.kind = 1) = true) (hne : s.copyEqual m c f = false) :
    exec (.workingCopyCompare p i b m c f) s = .next (s.moduleFaultAt p 4 State.plannerTask false (i + 65536 * b)) := by
  change execWorkingCopyCompare p i b m c f s = _
  unfold execWorkingCopyCompare
  rw [hpl]
  refine congrArg Host.Outcome.next (if_neg ?_)
  rw [hm, hne]
  simp only [Bool.not_true, hk, hturn, ne_eq, not_true_eq_false, hkind, Bool.false_eq_true, or_self, not_false_eq_true]

end Sys2Proof.Machine

namespace Sys2Proof
open Machine

theorem workingCopyCompare : Claims.WorkingCopyCompare := by
  refine ⟨fun s p i b m c f h => exec_compare_equal h i b, ?_⟩
  intro s p i b m c f pl _ hpl hm hk hturn hkind hne hok
  obtain ⟨hrollbacks, hcause, hbn⟩ := State.moduleFaultAt_rollsBack hm hok (cause := 4) (by decide) State.plannerTask (i + 65536 * b)
  exact ⟨_, exec_compare_differs hpl hm hk hturn hkind hne, hrollbacks, hcause, hbn, State.moduleFaultAt_memSame _ _ _ _ _ _,
    State.moduleFaultAt_host _ _ _ _ _ _⟩

theorem calibrationNorms : Claims.CalibrationNorms := by
  intro s p layer us ws pl hpl hm hopt hts hflag parts un wn
  let noted (x : Part) : Part := { x with calAttempt := x.calAttempt.filter (·.1 ≠ layer) ++ [(layer, (un, wn, fdiv un wn))] }
  refine ⟨s.modPart p noted, ?_, ?_, ?_, rfl, fun q hq => State.part_setPart_ne s _ hq⟩
  · change execCalibrationTask p layer us ws s = _
    unfold execCalibrationTask
    rw [hpl]
    refine congrArg Host.Outcome.next ((if_neg ?_).trans rfl)
    rw [hm, hopt]
    simp only [Bool.not_true, hts, hflag, Bool.false_eq_true, or_self, not_true_eq_false, not_false_eq_true, one_ne_zero]
  · rw [State.modPart_eq, State.part_setPart]
    simp only [noted, List.filter_append, List.filter_filter]
    simp
  · rw [State.modPart_eq, State.part_setPart]
    simp only [noted, List.filter_append, List.filter_filter]
    simp

/-- Settles O32: a copy that differs is a module fault, whose rollback shows cause 4 and the beat; the calibration record of
the layer takes the place of any before it. -/
theorem compareAndCalibrate : Obligations.CompareAndCalibrate := by
  unfold Obligations.CompareAndCalibrate
  exact ⟨workingCopyCompare, calibrationNorms⟩

end Sys2Proof
end

section
/-! ROW messages (O28): the owner's records of a requester, its entry gradients, and the requester's nodes and bags (R187,
R247). -/

namespace Sys2Proof.Machine

variable {s t u : State} {p : Nat}

/-! ## Arrival -/

namespace State

theorem arrived_portsOut (s : State) (c : TClass) (src len : Nat) : PortsOut s (s.arrived c src len) := by
  unfold arrived freeFlits received
  exact (((PortsOut.refl s).modPort _).modPort _ |>.emitFlit _).ite (.refl s)

/-- A message that arrives is handled. -/
theorem receive_of_arrives {c : TClass} {h : MsgHdr} {kind len : Nat} (ha : Arrives s c h kind len) (o : Out) (act : State → State) :
    s.receive c h kind o len act = act (s.arrived c h.src len) := by
  obtain ⟨hcan, hdest, hkind, hok, hpart, hlen, hstale⟩ := ha
  have hv := s.arrived_portsOut c h.src len
  unfold receive
  simp only [hcan, Bool.not_true, Bool.false_eq_true, if_false]
  generalize s.arrived c h.src len = v at hv ⊢
  have hpos : v.pos = s.pos := by rw [hv.frame]; rfl
  have hst : v.staleMsg c h = s.staleMsg c h := by rw [hv.frame]; rfl
  rw [if_neg (by rw [hpos, hdest]; exact fun hne => hne rfl), if_neg (by rw [hkind, hok]; simp; omega), hst, if_neg]
  intro hno
  simp only [Bool.and_eq_true, decide_eq_true_eq] at hno
  rw [hstale hno.1] at hno
  exact Bool.noConfusion hno.2

end State

/-- Ports and output change, and then a partition does. -/
theorem frame_of_portsOut_partOnly (hv : PortsOut s t) (hu : PartOnly p t u) :
    u = { s with parts := u.parts, ports := u.ports, out := u.out } ∧ ∀ q, q ≠ p → u.part q = s.part q :=
  ⟨by rw [hu.frame, hv.frame], fun q hq => (hu.other q hq).trans (hv.part q)⟩

namespace State

/-- A ROW message of a known table without a token is what it does. -/
theorem rowDelivered_of_known {h : MsgHdr} {r : RowHdr} {d : TableDesc} (hd : s.tableDesc h.part r.table = some d) (htok : h.token = 0)
    (act : State → State) : s.rowDelivered h r act = act s := by
  unfold rowDelivered
  rw [hd, htok]
  rfl

/-! ## What an owner has of a requester -/

theorem tableSt_setTableSt_ne {k r k' r' : Nat} (x : TableSt) (h : tableKey k' r' ≠ tableKey k r) :
    (s.setTableSt p k r x).tableSt p k' r' = s.tableSt p k' r' := by
  rw [tableSt, part_setTableSt, mget_mput_ne _ _ _ h, tableSt]

theorem tableSt_congr_key {k r k' r' : Nat} (h : tableKey k' r' = tableKey k r) : s.tableSt p k' r' = s.tableSt p k r := by
  rw [tableSt, h, tableSt]

theorem homeRank_setTableSt (k r : Nat) (x : TableSt) : (s.setTableSt p k r x).homeRank p = s.homeRank p := by
  unfold homeRank rankAt
  rw [part_setTableSt]
  rfl

theorem plan_setTableSt (k r : Nat) (x : TableSt) : (s.setTableSt p k r x).plan p = s.plan p := by
  rw [plan, part_setTableSt, plan]

/-- A table's state that keeps the owners of its shards keeps who owns them. -/
theorem ownedShards_setTableSt {k r : Nat} {x : TableSt} (hx : x.owners = (s.tableSt p k r).owners) (k' : Nat) (d : TableDesc) (o : Nat) :
    (s.setTableSt p k r x).ownedShards p k' d o = s.ownedShards p k' d o := by
  have howners : ∀ h, ((s.setTableSt p k r x).tableSt p k' h).owners = (s.tableSt p k' h).owners := fun h => by
    by_cases hk : tableKey k' h = tableKey k r
    · rw [tableSt_congr_key hk, tableSt_congr_key hk, tableSt_setTableSt, hx]
    · rw [tableSt_setTableSt_ne x hk]
  have hranks : (s.setTableSt p k r x).planRanks p = s.planRanks p := congrArg (fun pl => (pl.map Plan.rankCount).getD 1) (plan_setTableSt k r x)
  unfold ownedShards shardOwner
  rw [homeRank_setTableSt, howners, hranks]

theorem rank_fromRank (s : State) (p t r rank tag : Nat) :
    (s.fromRank p t r rank tag).rank = rank ∧ (s.fromRank p t r rank tag).mb = tag := by
  unfold fromRank
  cases hf : (s.tableSt p t r).recv.find? fun x => x.rank = rank && x.mb = tag with
  | none => exact ⟨rfl, rfl⟩
  | some x =>
    have h := List.find?_some hf
    simp only [Bool.and_eq_true, decide_eq_true_eq] at h
    exact h

theorem fromRank_of_recv {s t : State} {k r : Nat} (h : (t.tableSt p k r).recv = (s.tableSt p k r).recv) (rank tag : Nat) :
    t.fromRank p k r rank tag = s.fromRank p k r rank tag := by rw [fromRank, h, fromRank]

/-- A table's state with a requester's record in it. -/
def withRecv (q : TableSt) (x : FromRank) : TableSt :=
  { q with recv := (q.recv.filter fun y => !(y.rank = x.rank && y.mb = x.mb)) ++ [x] }

theorem setFromRank_eq (s : State) (p t r : Nat) (x : FromRank) :
    s.setFromRank p t r x = s.setTableSt p t r (withRecv (s.tableSt p t r) x) := rfl

theorem owners_withRecv (q : TableSt) (x : FromRank) : (withRecv q x).owners = q.owners := rfl

theorem entries_withRecv (q : TableSt) (x : FromRank) : (withRecv q x).entries = q.entries := rfl

theorem fromRank_setFromRank (s : State) (p t r : Nat) (x : FromRank) :
    (s.setFromRank p t r x).fromRank p t r x.rank x.mb = x := by
  rw [setFromRank_eq, fromRank, tableSt_setTableSt, withRecv]
  have hnone : ((s.tableSt p t r).recv.filter fun y => !(y.rank = x.rank && y.mb = x.mb)).find? (fun y => y.rank = x.rank && y.mb = x.mb) =
      none := by
    rw [List.find?_eq_none]
    intro y hy
    have hne := (List.mem_filter.mp hy).2
    rw [Bool.not_eq_true'] at hne
    rw [hne]
    decide
  rw [List.find?_append, hnone]
  simp

theorem setFromRank_partOnly (s : State) (p t r : Nat) (x : FromRank) : PartOnly p s (s.setFromRank p t r x) :=
  s.setTableSt_partOnly p t r _

/-! ## Entry gradients -/

/-- The entry gradients that what has come of a requester gives an owner of the shards `own`. -/
def formed (d : TableDesc) (own : List Nat) (rank tag : Nat) (x : FromRank) : List EntryGrad :=
  x.entries.filterMap fun e =>
    let key := x.keys.getD e.seg defaultKey
    let win := (x.winners.find? (·.bag = e.bag)).map (·.pos)
    match x.grads.find? (·.bag = e.bag) with
    | none => none
    | some g =>
      if !own.contains (d.shardOf key) ∨ (key = defaultKey ∧ ¬ d.defTrain) ∨ (d.pool = 3 ∧ win.isNone) then none
      else some { key := key, rank := rank, mb := tag, pos := e.bag * 65536 + e.pos, vals := entryGrad d e g.vals (win.getD []) }

theorem mem_formed {d : TableDesc} {own : List Nat} {rank tag : Nat} {x : FromRank} {e : BagEntry} {g : GradRec} {win : Option WinRec}
    (he : e ∈ x.entries) (hg : x.grads.find? (·.bag = e.bag) = some g) (hw : x.winners.find? (·.bag = e.bag) = win)
    (hpool : d.pool = 3 → win.isSome = true) (hown : own.contains (d.shardOf (x.keys.getD e.seg defaultKey)) = true)
    (hkey : x.keys.getD e.seg defaultKey ≠ defaultKey ∨ d.defTrain = true) :
    { key := x.keys.getD e.seg defaultKey, rank := rank, mb := tag, pos := e.bag * 65536 + e.pos,
      vals := entryGrad d e g.vals ((win.map (·.pos)).getD []) } ∈ formed d own rank tag x := by
  refine List.mem_filterMap.mpr ⟨e, he, ?_⟩
  simp only [hg, hw, hown]
  refine if_neg ?_
  rintro (h | ⟨h, hno⟩ | ⟨h, hno⟩)
  · exact Bool.noConfusion h
  · exact hno (hkey.resolve_left (not_not.mpr h))
  · have hsome := hpool h
    cases win with
    | none => exact Bool.noConfusion hsome
    | some w => exact Bool.noConfusion hno

/-- An index of the default row gives none unless the row trains. -/
theorem key_ne_default_of_mem_formed {d : TableDesc} {own : List Nat} {rank tag : Nat} {x : FromRank} {y : EntryGrad}
    (htrain : d.defTrain = false) (h : y ∈ formed d own rank tag x) : y.key ≠ defaultKey := by
  obtain ⟨e, -, hy⟩ := List.mem_filterMap.mp h
  dsimp only at hy
  split at hy
  · exact absurd hy (by simp)
  · split at hy
    · exact absurd hy (by simp)
    · next hno =>
      obtain rfl := Option.some.inj hy
      intro hdef
      exact hno (.inr (.inl ⟨hdef, by rw [htrain]; decide⟩))

theorem formEntries_eq {k : Nat} {d : TableDesc} (hd : s.tableDesc p k = some d) (r rank tag : Nat) :
    s.formEntries p k r rank tag = s.setTableSt p k r { s.tableSt p k r with
      reduced := false
      entries := ((s.tableSt p k r).entries.filter fun y => !(y.rank = rank && y.mb = tag)) ++
        formed d (s.ownedShards p k d r) rank tag (s.fromRank p k r rank tag) } := by
  unfold formEntries
  rw [hd] <;> rfl

theorem tableDesc_setTableSt (k r : Nat) (x : TableSt) (k' : Nat) : (s.setTableSt p k r x).tableDesc p k' = s.tableDesc p k' := by
  unfold tableDesc
  rw [part_setTableSt]

/-- The owner's table with a requester's record in it and its entry gradients formed anew. -/
theorem tableSt_formed {k r rank tag : Nat} {d : TableDesc} (hd : s.tableDesc p k = some d) {x : FromRank} (hrank : x.rank = rank)
    (hmb : x.mb = tag) :
    ((s.setFromRank p k r x).formEntries p k r rank tag).fromRank p k r rank tag = x ∧
    (((s.setFromRank p k r x).formEntries p k r rank tag).tableSt p k r).entries =
      ((s.tableSt p k r).entries.filter fun y => !(y.rank = rank && y.mb = tag)) ++
        formed d (s.ownedShards p k d r) rank tag x := by
  subst hrank hmb
  have hfrom := s.fromRank_setFromRank p k r x
  have hset : (s.setFromRank p k r x).tableDesc p k = some d := by
    rw [setFromRank_eq, tableDesc_setTableSt, hd]
  have hown : (s.setFromRank p k r x).ownedShards p k d r = s.ownedShards p k d r := by
    rw [setFromRank_eq, ownedShards_setTableSt (owners_withRecv _ _)]
  have hentries : ((s.setFromRank p k r x).tableSt p k r).entries = (s.tableSt p k r).entries := by
    rw [setFromRank_eq, tableSt_setTableSt, entries_withRecv]
  rw [formEntries_eq hset, hown, hfrom]
  generalize s.setFromRank p k r x = v at *
  refine ⟨(fromRank_of_recv ?_ _ _).trans hfrom, ?_⟩
  · rw [tableSt_setTableSt]
  · rw [tableSt_setTableSt, hentries]

theorem entryGrad_of_not_max {d : TableDesc} (h : d.pool ≠ 3) (e : BagEntry) (g : List W32) (win : List Nat) :
    entryGrad d e g win = entryGrad d e g [] := by
  unfold entryGrad
  split
  · rfl
  · next h3 => exact absurd h3 h
  · rfl
  · rfl

theorem entryGrad_of_max {d : TableDesc} (h : d.pool = 3) (e : BagEntry) (g : List W32) (win : List Nat) :
    entryGrad d e g win = g.zipIdx.map fun v => if win.getD v.2 0xFFFF = e.pos then v.1 else 0 := by
  simp only [entryGrad, h]

theorem resilient_congr (h : t.plan p = s.plan p) : t.resilient p = s.resilient p := by
  unfold resilient
  rw [show (t.part p).plan = (s.part p).plan from h]

theorem formEntries_partOnly {k : Nat} {d : TableDesc} (hd : s.tableDesc p k = some d) (r rank tag : Nat) :
    PartOnly p s (s.formEntries p k r rank tag) := by
  rw [formEntries_eq hd]
  exact s.setTableSt_partOnly p k r _

theorem tableSt_grads {k : Nat} {d : TableDesc} (hd : s.tableDesc p k = some d) (r rank tag : Nat) (gs : List GradRec) :
    let x := s.fromRank p k r rank tag
    (s.takeGrads p k r rank tag gs).fromRank p k r rank tag = { x with grads := x.grads ++ gs } ∧
    ((s.takeGrads p k r rank tag gs).tableSt p k r).entries =
      ((s.tableSt p k r).entries.filter fun y => !(y.rank = rank && y.mb = tag)) ++
        formed d (s.ownedShards p k d r) rank tag { x with grads := x.grads ++ gs } := by
  obtain ⟨hrank, hmb⟩ := s.rank_fromRank p k r rank tag
  exact tableSt_formed hd hrank hmb

theorem tableSt_winners {k : Nat} {d : TableDesc} (hd : s.tableDesc p k = some d) (r rank tag : Nat) (ws : List WinRec) :
    let x := s.fromRank p k r rank tag
    (s.takeWinners p k r rank tag ws).fromRank p k r rank tag = { x with winners := x.winners ++ ws } ∧
    ((s.takeWinners p k r rank tag ws).tableSt p k r).entries =
      ((s.tableSt p k r).entries.filter fun y => !(y.rank = rank && y.mb = tag)) ++
        formed d (s.ownedShards p k d r) rank tag { x with winners := x.winners ++ ws } := by
  obtain ⟨hrank, hmb⟩ := s.rank_fromRank p k r rank tag
  exact tableSt_formed hd hrank hmb

theorem formedAnew_partOnly {k : Nat} {d : TableDesc} (hd : s.tableDesc p k = some d) (r rank tag : Nat) (x : FromRank) :
    PartOnly p s ((s.setFromRank p k r x).formEntries p k r rank tag) :=
  (s.setFromRank_partOnly p k r x).trans (formEntries_partOnly (by rw [setFromRank_eq, tableDesc_setTableSt, hd]) r rank tag)

theorem takeGrads_partOnly {k : Nat} {d : TableDesc} (hd : s.tableDesc p k = some d) (r rank tag : Nat) (gs : List GradRec) :
    PartOnly p s (s.takeGrads p k r rank tag gs) := formedAnew_partOnly hd r rank tag _

theorem takeWinners_partOnly {k : Nat} {d : TableDesc} (hd : s.tableDesc p k = some d) (r rank tag : Nat) (ws : List WinRec) :
    PartOnly p s (s.takeWinners p k r rank tag ws) := formedAnew_partOnly hd r rank tag _

/-! ## The requester's bags -/

/-- From `s` to `t` nodes of a micro-batch stand or their bags are pooled, of partition `p` and memory alone. -/
structure BagsHeld (p k r tag : Nat) (s t : State) : Prop where
  frame : PartMem p s t
  plan : t.plan p = s.plan p
  node : ∀ n ∈ (s.tableSt p k r).nodes, n.mb = tag →
    n ∈ (t.tableSt p k r).nodes ∨ ∃ y ∈ (t.tableSt p k r).pooled, y.mb = tag ∧ y.bag = n.bag
  pooled : ∀ y ∈ (s.tableSt p k r).pooled, y ∈ (t.tableSt p k r).pooled

namespace BagsHeld

variable {k r tag : Nat}

theorem refl (s : State) : BagsHeld p k r tag s s := ⟨.refl p s, rfl, fun _ hn _ => .inl hn, fun _ hy => hy⟩

theorem trans (h : BagsHeld p k r tag s t) (h' : BagsHeld p k r tag t u) : BagsHeld p k r tag s u where
  frame := h.frame.trans h'.frame
  plan := h'.plan.trans h.plan
  node n hn htag := by
    rcases h.node n hn htag with hmem | ⟨y, hy, hyn⟩
    · exact h'.node n hmem htag
    · exact .inr ⟨y, h'.pooled y hy, hyn⟩
  pooled y hy := h'.pooled y (h.pooled y hy)

theorem foldl {α : Type} {act : State → α → State} (hact : ∀ v x, BagsHeld p k r tag v (act v x)) (l : List α) (s : State) :
    BagsHeld p k r tag s (l.foldl act s) := by
  induction l generalizing s with
  | nil => exact refl s
  | cons x l ih => exact (hact s x).trans (ih _)

end BagsHeld

/-- A bag is pooled: its vector stands for its nodes, and goes to memory. -/
theorem bagsHeld_pool (s : State) (p k r : Nat) {v : Pooled} {tag bag : Nat} (hmb : v.mb = tag) (hbag : v.bag = bag) {f : Part → Part}
    (hf : ∀ x, (f x).tables = x.tables ∧ (f x).plan = x.plan) (a : Nat) (b : List Byte) :
    BagsHeld p k r tag s (((s.modTableSt p k r fun q => { q with
      pooled := q.pooled ++ [v], nodes := q.nodes.filter fun m => !(m.mb = tag && m.bag = bag) }).modPart p f).wr a b) := by
  rw [modTableSt_eq]
  generalize hx : ({ s.tableSt p k r with
    pooled := (s.tableSt p k r).pooled ++ [v]
    nodes := (s.tableSt p k r).nodes.filter fun m => !(m.mb = tag && m.bag = bag) } : TableSt) = x
  have hpart : (((s.setTableSt p k r x).modPart p f).wr a b).part p = f ((s.setTableSt p k r x).part p) := by
    rw [part_wr, part_modPart]
  have htable : (((s.setTableSt p k r x).modPart p f).wr a b).tableSt p k r = x := by
    rw [tableSt_of_tables (s := s.setTableSt p k r x) (by rw [hpart, (hf _).1]), tableSt_setTableSt]
  refine ⟨?_, ?_, fun n hn htag => ?_, fun y hy => ?_⟩
  · exact (PartMem.ofPart ((s.setTableSt_partOnly p k r x).trans (.modPart _ p f))).trans (.wr _ a b)
  · rw [plan, hpart, (hf _).2, part_setTableSt, plan]
  · rw [htable, ← hx]
    by_cases hn' : n.bag = bag
    · exact .inr ⟨v, by simp, hmb, hbag.trans hn'.symm⟩
    · exact .inl (List.mem_filter.mpr ⟨hn, by simp [hn']⟩)
  · rw [htable, ← hx]
    exact List.mem_append_left _ hy

theorem completeBags_held (s : State) (p k r tag : Nat) : BagsHeld p k r tag s (s.completeBags p k r tag) := by
  unfold completeBags
  split
  · exact .refl s
  · next d _ =>
    refine .foldl (fun v b => ?_) _ _
    extract_lets x es ns whole root
    split
    · exact .refl v
    · have hv : (pooledOf d tag b es.length (v.curStep p) root).1.mb = tag ∧ (pooledOf d tag b es.length (v.curStep p) root).1.bag = b :=
        ⟨rfl, rfl⟩
      generalize pooledOf d tag b es.length (v.curStep p) root = q at hv ⊢
      obtain ⟨y, sat⟩ := q
      exact bagsHeld_pool v p k r hv.1 hv.2 (f := fun q => { q with poolSats := addCount q.poolSats (tableKey k r) sat }) (fun _ => ⟨rfl, rfl⟩) _ _

/-- Partials become nodes of the requester, and whole bags are pooled. -/
theorem takePartials_held (s : State) (p k r tag : Nat) (vs : List PartialRec) :
    PartMem p s (s.takePartials p k r tag vs) ∧ (s.takePartials p k r tag vs).plan p = s.plan p ∧
    ∀ v ∈ vs, (∃ n ∈ ((s.takePartials p k r tag vs).tableSt p k r).nodes, n.mb = tag ∧ n.bag = v.bag ∧ n.first = v.first ∧ n.j = v.j ∧
        n.vals = v.vals ∧ n.tags = v.tags) ∨
      ∃ y ∈ ((s.takePartials p k r tag vs).tableSt p k r).pooled, y.mb = tag ∧ y.bag = v.bag := by
  unfold takePartials
  rw [modTableSt_eq]
  generalize hx : ({ s.tableSt p k r with nodes := _ } : TableSt) = x
  obtain ⟨hframe, hplan, hnode, -⟩ := completeBags_held (s.setTableSt p k r x) p k r tag
  refine ⟨(PartMem.ofPart (s.setTableSt_partOnly p k r x)).trans hframe, hplan.trans (plan_setTableSt k r x), fun v hv => ?_⟩
  have hmem : ({ mb := tag, bag := v.bag, first := v.first, j := v.j, vals := v.vals, tags := v.tags } : TreeNode) ∈
      ((s.setTableSt p k r x).tableSt p k r).nodes := by
    rw [tableSt_setTableSt, ← hx]
    exact List.mem_append_right _ (List.mem_map.mpr ⟨v, hv, rfl⟩)
  rcases hnode _ hmem rfl with h | h
  · exact .inl ⟨_, h, rfl, rfl, rfl, rfl, rfl, rfl⟩
  · exact .inr h

/-- A plan that carries no lookup in a delta sends none (R453). -/
theorem sendCarried_of_none (h : s.resilient p = false ∨ ((s.plan p).elim true fun pl => pl.tables.all (!·.stale)) = true) :
    s.sendCarried p = s := by
  unfold sendCarried
  extract_lets m r
  split
  · rfl
  · next pl hpl =>
    rcases h with h | h
    · exact if_pos (by rw [h]; rfl)
    · split
      · rfl
      · rw [plan, hpl] at h
        refine foldl_of_fixed fun k _ => ?_
        split
        · next d hd =>
          have hstale := List.all_eq_true.mp h d (List.mem_of_getElem? hd)
          exact if_pos (by rw [hstale]; rfl)
        · rfl

end State
end Sys2Proof.Machine

namespace Sys2Proof
open Machine

/-- Settles O28: each record joins what the owner has of the requester, or the requester's nodes; gradients and winner vectors
form the entry gradients anew. -/
theorem rowMessagesAdd : Obligations.RowMessagesAdd := by
  unfold Obligations.RowMessagesAdd
  intro s c h r d hd htok o tag x
  have hrank : x.rank = r.rank ∧ x.mb = tag := s.rank_fromRank _ _ _ _ _
  have atArrival : ∀ len, PortsOut s (s.arrived c h.src len) := s.arrived_portsOut c h.src
  have table : ∀ {v}, PortsOut s v → v.tableDesc h.part r.table = some d ∧ v.ownerOf h = o ∧
      v.fromRank h.part r.table o r.rank tag = x ∧ v.ownedShards h.part r.table d o = s.ownedShards h.part r.table d o := fun hv => by
    rw [hv.frame]
    exact ⟨hd, rfl, rfl, rfl⟩
  have framed : ∀ {v u : State}, PortsOut s v → PartOnly h.part v u → _ := fun hv hu => frame_of_portsOut_partOnly hv hu
  refine ⟨fun ks ha => ?keys, fun es ha => ?entries, fun gs ha => ?grads, fun ws ha => ?winners, fun hstale vs ha => ?partials⟩
  case keys =>
    have hv := atArrival (rowLen ks.length 8)
    refine ⟨_, congrArg Host.Outcome.next (State.receive_of_arrives ha _ _), ?_⟩
    generalize s.arrived c h.src (rowLen ks.length 8) = v at hv ⊢
    obtain ⟨hdesc, howner, hfrom, -⟩ := table hv
    rw [State.rowDelivered_of_known hdesc htok, howner, State.takeKeys, hfrom]
    refine ⟨?_, framed hv (v.setFromRank_partOnly _ _ _ _)⟩
    simpa only [hrank] using v.fromRank_setFromRank h.part r.table o { x with keys := x.keys ++ ks }
  case entries =>
    have hv := atArrival (rowLen es.length 16)
    refine ⟨_, congrArg Host.Outcome.next (State.receive_of_arrives ha _ _), ?_⟩
    generalize s.arrived c h.src (rowLen es.length 16) = v at hv ⊢
    obtain ⟨hdesc, howner, hfrom, -⟩ := table hv
    rw [State.rowDelivered_of_known hdesc htok, howner, State.takeEntries, hfrom]
    refine ⟨?_, framed hv (v.setFromRank_partOnly _ _ _ _)⟩
    simpa only [hrank] using v.fromRank_setFromRank h.part r.table o { x with entries := x.entries ++ es }
  case grads =>
    have hv := atArrival (16 + ((gs.map gradBytes).map List.length).foldl (· + ·) 0)
    refine ⟨_, congrArg Host.Outcome.next (State.receive_of_arrives ha _ _), ?_⟩
    generalize s.arrived c h.src _ = v at hv ⊢
    obtain ⟨hdesc, howner, hfrom, hown⟩ := table hv
    rw [State.rowDelivered_of_known hdesc htok, howner]
    obtain ⟨hx, hentries⟩ := v.tableSt_grads hdesc o r.rank tag gs
    rw [hfrom] at hx hentries
    rw [hown] at hentries
    refine ⟨hx, fun e he g hg hpool hshard hkey => ?_, fun htrain y hy hyr hyt => ?_,
      framed hv (v.takeGrads_partOnly hdesc o r.rank tag gs)⟩
    · have hmem := State.mem_formed (x := { x with grads := x.grads ++ gs }) (rank := r.rank) (tag := tag) he hg rfl
        (fun h3 => absurd h3 hpool) hshard hkey
      refine ⟨_, by rw [hentries]; exact List.mem_append_right _ hmem, rfl, rfl, rfl, rfl, ?_⟩
      exact State.entryGrad_of_not_max hpool _ _ _
    · rw [hentries] at hy
      rcases List.mem_append.mp hy with hold | hnew
      · have hne := (List.mem_filter.mp hold).2
        simp [hyr, hyt] at hne
      · exact State.key_ne_default_of_mem_formed htrain hnew
  case winners =>
    have hv := atArrival (16 + ((ws.map winBytes).map List.length).foldl (· + ·) 0)
    refine ⟨_, congrArg Host.Outcome.next (State.receive_of_arrives ha _ _), ?_⟩
    generalize s.arrived c h.src _ = v at hv ⊢
    obtain ⟨hdesc, howner, hfrom, hown⟩ := table hv
    rw [State.rowDelivered_of_known hdesc htok, howner]
    obtain ⟨hx, hentries⟩ := v.tableSt_winners hdesc o r.rank tag ws
    rw [hfrom] at hx hentries
    rw [hown] at hentries
    refine ⟨hx, fun e he g w hg hw hpool hshard hkey => ?_, framed hv (v.takeWinners_partOnly hdesc o r.rank tag ws)⟩
    have hmem := State.mem_formed (x := { x with winners := x.winners ++ ws }) (rank := r.rank) (tag := tag) he hg hw
      (fun _ => rfl) hshard hkey
    refine ⟨_, by rw [hentries]; exact List.mem_append_right _ hmem, rfl, rfl, rfl, rfl, ?_⟩
    exact State.entryGrad_of_max hpool _ _ _
  case partials =>
    have hv := atArrival (16 + ((vs.map partialBytes).map List.length).foldl (· + ·) 0)
    refine ⟨_, congrArg Host.Outcome.next (State.receive_of_arrives ha _ _), ?_⟩
    generalize s.arrived c h.src _ = v at hv ⊢
    obtain ⟨hdesc, -, -, -⟩ := table hv
    rw [State.rowDelivered_of_known hdesc htok]
    obtain ⟨hframe, hplan, hheld⟩ := State.takePartials_held v h.part r.table r.rank tag vs
    have hplan' : (v.takePartials h.part r.table r.rank tag vs).plan h.part = s.plan h.part := hplan.trans (by rw [hv.frame]; rfl)
    have hnone := State.sendCarried_of_none (s := v.takePartials h.part r.table r.rank tag vs) (p := h.part)
      (by rw [State.resilient_congr hplan', hplan']; exact hstale)
    rw [hnone]
    refine ⟨hheld, ?_, ?_, ?_, fun q hq => (hframe.other q hq).trans (hv.part q)⟩ <;> rw [hframe.frame, hv.frame]

end Sys2Proof
end

section
/-! WRITE and TEST messages (O29): a payload and its token, and what the checker counts (R246, R248). -/

namespace Sys2Proof.Machine
namespace State

variable {s t u : State} {p : Nat}

/-! ## The token -/

/-- A token changes a partition's tasks or a tile's counters. -/
theorem deliver_frame (s : State) (p token : Nat) :
    s.deliver p token = { s with parts := (s.deliver p token).parts, tiles := (s.deliver p token).tiles } := by
  unfold deliver
  split
  · rfl
  · split
    · rfl
    · split <;> rfl

theorem deliver_of_task (s : State) (p : Nat) {t : Nat} (ht : t < 2 ^ 24) : s.deliver p (2 ^ 63 + t) = s.taskDone p t := by
  rw [taskDone, Nat.mod_eq_of_lt ht]

theorem deliver_of_tile (s : State) (p : Nat) {token g k : Nat} (h0 : token ≠ 0) (hlt : token < 2 ^ 63) (htok : tokenOf token = some (g, k)) :
    s.deliver p token = s.incToken g k := by
  unfold deliver
  rw [if_neg h0, if_neg (by omega), htok]

/-! ## A WRITE -/

theorem checkerOn_congr (h : t.part p = s.part p) : t.checkerOn p = s.checkerOn p := by
  unfold checkerOn
  rw [h]

theorem firstBad_congr {w : Bool} (h : ∀ a, t.owns p a w = s.owns p a w) (n a len : Nat) :
    t.firstBad p w n a len = s.firstBad p w n a len := by
  induction n generalizing a len with
  | zero => rfl
  | succ n ih => simp only [firstBad, h, ih]

theorem ownsRange_congr {w : Bool} (h : ∀ a, t.owns p a w = s.owns p a w) (a len : Nat) : t.ownsRange p a len w = s.ownsRange p a len w := by
  rw [ownsRange, firstBad_congr h, ownsRange]

theorem announce_of_off {h : MsgHdr} (hoff : s.checkerOn h.part = false) (n : Nat) : s.announce h n = s := by
  unfold announce
  split
  · exact if_pos (.inr (.inr (by rw [hoff]; decide)))
  · rfl

theorem takeDelta_of_none {c : TClass} {h : MsgHdr} (hc : c = .carmine ∨ s.resilient h.part = false) (b : List Byte) :
    s.takeDelta c h b = s := by
  unfold takeDelta
  refine if_pos ?_
  rcases hc with rfl | hc
  · exact .inl (by decide)
  · exact .inr (by rw [hc]; decide)

/-- A WRITE within the allocation stores its payload and then delivers its token. -/
theorem writeDelivered_of_owned {c : TClass} {h : MsgHdr} {b : List Byte} (hown : s.ownsRange h.part h.addr b.length true = true)
    (hlen : h.addr + b.length ≤ resultBase) (hc : c = .carmine ∨ s.resilient h.part = false) (hoff : s.checkerOn h.part = false) :
    s.writeDelivered c h b = (s.wr h.addr b).deliver h.part h.token := by
  have hpart : (s.wr h.addr b).part h.part = s.part h.part := part_wr s h.addr b h.part
  have hoff' : (s.wr h.addr b).checkerOn h.part = false := (checkerOn_congr hpart).trans hoff
  have hres : (s.wr h.addr b).resilient h.part = s.resilient h.part := resilient_congr (congrArg Part.plan hpart)
  unfold writeDelivered
  rw [if_neg (by rw [hown]; decide), wrDev_of_lt s hlen, noteLines_of_off hoff']
  dsimp only
  rw [takeDelta_of_none (by rw [hres]; exact hc), announce_of_off hoff']

/-- Outside it a module without a step in progress counts and logs the refusal. -/
theorem writeDelivered_of_refused {c : TClass} {h : MsgHdr} {b : List Byte} (hown : s.ownsRange h.part h.addr b.length true = false)
    (hidle : (s.part h.part).active = false) :
    s.writeDelivered c h b = (s.bump F.FAB_STAT_REFUSED 0).elog 1 h.part 8 0 := by
  unfold writeDelivered
  rw [if_pos (by rw [hown]; decide), moduleFault_of_inactive (by rw [bump, bumpBy, part_putF, hidle])]

/-- Neither changes host memory or the identity. -/
theorem writeDelivered_outside (s : State) (c : TClass) (h : MsgHdr) (b : List Byte) (hlen : h.addr + b.length ≤ resultBase)
    (hc : c = .carmine ∨ s.resilient h.part = false) (hoff : s.checkerOn h.part = false) :
    (s.writeDelivered c h b).host = s.host ∧ (s.writeDelivered c h b).ident = s.ident := by
  cases hown : s.ownsRange h.part h.addr b.length true with
  | true =>
    rw [writeDelivered_of_owned hown hlen hc hoff, deliver_frame, ((MemOnly.refl s).wr h.addr b).frame]
    exact ⟨rfl, rfl⟩
  | false =>
    unfold writeDelivered
    rw [if_pos (by rw [hown]; decide)]
    rw [(((FaultStep.refl s).bump F.FAB_STAT_REFUSED 0).moduleFault h.part 8 h.task false).frame]
    exact ⟨rfl, rfl⟩

/-- What a payload stored and a token delivered leave. -/
theorem stored (hv : PortsOut s t) (h : MsgHdr) (b : List Byte) :
    ((t.wr h.addr b).deliver h.part h.token).rd h.addr b.length = b ∧
    (∀ a, ¬ (h.addr ≤ a ∧ a < h.addr + b.length) → ((t.wr h.addr b).deliver h.part h.token).rd8 a = s.rd8 a) ∧
    (∀ k, h.token = 2 ^ 63 + k → k < 2 ^ 24 → (((t.wr h.addr b).deliver h.part h.token).part h.part).done.contains k = true ∧
      ((t.wr h.addr b).deliver h.part h.token).tiles = s.tiles) ∧
    (∀ g k, h.token ≠ 0 → h.token < 2 ^ 63 → tokenOf h.token = some (g, k) → (s.test.saved.map (·.1)).contains g = false →
      mget 0 (((t.wr h.addr b).deliver h.part h.token).tile g).toks k = mget 0 (s.tile g).toks k + 1 ∧
      (∀ j, j ≠ k → mget 0 (((t.wr h.addr b).deliver h.part h.token).tile g).toks j = mget 0 (s.tile g).toks j) ∧
      ∀ f, f ≠ g → ((t.wr h.addr b).deliver h.part h.token).tile f = s.tile f) ∧
    (h.token = 0 → ((t.wr h.addr b).deliver h.part h.token).tiles = s.tiles ∧
      ((t.wr h.addr b).deliver h.part h.token).parts = s.parts) ∧
    ((t.wr h.addr b).deliver h.part h.token).regs = s.regs := by
  have hframe := deliver_frame (t.wr h.addr b) h.part h.token
  have hwr := (MemOnly.refl t).wr h.addr b
  have hrd := t.rd_wr h.addr b
  have hout : ∀ a, ¬ (h.addr ≤ a ∧ a < h.addr + b.length) → (t.wr h.addr b).rd8 a = s.rd8 a := fun a ha =>
    (rd8_wr_ne t h.addr a b (by omega)).trans (rd8_congr (by rw [hv.frame]) a)
  have hmem : ((t.wr h.addr b).deliver h.part h.token).mem = (t.wr h.addr b).mem := by rw [hframe]
  have htiles : (t.wr h.addr b).tiles = s.tiles := by rw [hwr.frame, hv.frame]
  have hparts : (t.wr h.addr b).parts = s.parts := by rw [hwr.frame, hv.frame]
  have hregs : (t.wr h.addr b).regs = s.regs := by rw [hwr.frame, hv.frame]
  have htest : (t.wr h.addr b).test = s.test := by rw [hwr.frame, hv.frame]
  generalize t.wr h.addr b = w at *
  have htile : ∀ g, w.tile g = s.tile g := fun g => by rw [tile, htiles, tile]
  refine ⟨(rd_congr hmem _ _).trans hrd, fun a ha => (rd8_congr hmem a).trans (hout a ha), fun k hk hlt => ?_,
    fun g k h0 hlt htok hfree => ?_, fun h0 => ?_, by rw [hframe]; exact hregs⟩
  · rw [hk, deliver_of_task w h.part hlt]
    exact ⟨done_taskDone w h.part hlt, by rw [(w.taskDone_partOnly h.part k).frame]; exact htiles⟩
  · rw [deliver_of_tile w h.part h0 hlt htok, incToken_eq (by rw [htest]; exact hfree), ← htile g]
    refine ⟨?_, fun j hj => ?_, fun f hf => (tile_setTile_ne w _ hf).trans (htile f)⟩
    · rw [modTile_eq, tile_setTile]
      exact mget_mput_self _ _ _ _
    · rw [modTile_eq, tile_setTile]
      exact mget_mput_ne _ _ _ hj
  · rw [h0, deliver, if_pos rfl]
    exact ⟨htiles, hparts⟩

/-! ## A TEST message -/

/-- Of the checker's two counters one counts a message. -/
theorem testCheck_counts (s : State) {f g : Fld} (hf : f = F.TST_FCHK_GOOD ∧ g = F.TST_FCHK_BAD ∨ f = F.TST_FCHK_BAD ∧ g = F.TST_FCHK_GOOD) :
    (s.bump f 0).getF f 0 = min (s.getF f 0 + 1) (2 ^ f.width - 1) ∧ (s.bump f 0).getF g 0 = s.getF g 0 ∧
    s.bump f 0 = { s with regs := (s.bump f 0).regs } ∧ ∀ o, o ≠ F.TST_FCHK_GOOD.base → (s.bump f 0).word o = s.word o := by
  rcases hf with ⟨rfl, rfl⟩ | ⟨rfl, rfl⟩
  · exact ⟨getF_bumpBy s F.TST_FCHK_GOOD 0 1 (by decide) (by decide), getF_bumpBy_bits s _ F.TST_FCHK_BAD 0 1 (.inl (by decide)), rfl,
      fun o ho => word_bumpBy_ne s F.TST_FCHK_GOOD 0 1 ho⟩
  · exact ⟨getF_bumpBy s F.TST_FCHK_BAD 0 1 (by decide) (by decide), getF_bumpBy_bits s _ F.TST_FCHK_GOOD 0 1 (.inr (by decide)), rfl,
      fun o ho => word_bumpBy_ne s F.TST_FCHK_BAD 0 1 ho⟩

end State
end Sys2Proof.Machine

namespace Sys2Proof
open Machine

theorem writeMessageStores : Claims.WriteMessageStores := by
  intro s c h b ha hlen hc hoff
  have hv := s.arrived_portsOut c h.src b.length
  refine ⟨_, congrArg Host.Outcome.next (State.receive_of_arrives ha _ _), ?_⟩
  generalize s.arrived c h.src b.length = v at hv ⊢
  have hown : v.ownsRange h.part h.addr b.length true = s.ownsRange h.part h.addr b.length true :=
    State.ownsRange_congr (fun a => by rw [hv.frame]; rfl) _ _
  have hsame : v.resilient h.part = s.resilient h.part ∧
      v.checkerOn h.part = s.checkerOn h.part ∧ v.host = s.host ∧ v.ident = s.ident ∧ v.mem = s.mem ∧ v.tiles = s.tiles ∧
      v.parts = s.parts := by
    rw [hv.frame]
    exact ⟨rfl, rfl, rfl, rfl, rfl, rfl, rfl⟩
  obtain ⟨hres, hchk, hhost, hident, hmem, htiles, hparts⟩ := hsame
  rw [← hchk] at hoff
  rw [← hres] at hc
  obtain ⟨hu, hi⟩ := State.writeDelivered_outside v c h b hlen hc hoff
  refine ⟨hu.trans hhost, hi.trans hident, fun howned => ?_, fun hrefused hidle => ?_⟩
  · rw [State.writeDelivered_of_owned (hown.trans howned) hlen hc hoff]
    exact State.stored hv h b
  · rw [State.writeDelivered_of_refused (hown.trans hrefused) (by rw [State.part_congr hparts, hidle])]
    have hlogs := (v.bump F.FAB_STAT_REFUSED 0).elog_logsOnly 1 h.part 8 0
    generalize (v.bump F.FAB_STAT_REFUSED 0).elog 1 h.part 8 0 = u at hlogs ⊢
    have hmem' : u.mem = s.mem := by rw [hlogs.frame]; exact hmem
    have hcount : u.getF F.FAB_STAT_REFUSED 0 = (v.bump F.FAB_STAT_REFUSED 0).getF F.FAB_STAT_REFUSED 0 :=
      State.getF_congr_word (hlogs.word _ (by decide))
    refine ⟨fun a => State.rd8_congr hmem' a, by rw [hlogs.frame]; exact htiles, ?_⟩
    rw [hcount, State.bump, State.getF_bumpBy v F.FAB_STAT_REFUSED 0 1 (by decide) (by decide), State.getF_congr_word (hv.word _)]

theorem testMessagesAreCounted : Claims.TestMessagesAreCounted := by
  intro s c h b ha
  have hv := s.arrived_portsOut c h.src b.length
  refine ⟨_, congrArg Host.Outcome.next (State.receive_of_arrives ha _ _), ?_⟩
  generalize s.arrived c h.src b.length = v at hv ⊢
  have hfield : ∀ f, v.getF f 0 = s.getF f 0 := fun f => by rw [hv.frame]; rfl
  by_cases hgood : b = testPayload (leNat (b.take 8))
  · obtain ⟨hcount, hkept, hframe, hword⟩ := v.testCheck_counts (.inl ⟨rfl, rfl⟩)
    rw [State.testCheck, if_pos hgood]
    refine ⟨fun _ => ⟨hcount.trans (by rw [hfield]), hkept.trans (hfield _)⟩, fun hbad => absurd hgood hbad, ?_,
      fun o ho => (hword o ho).trans (hv.word o)⟩
    rw [hframe, hv.frame]
  · obtain ⟨hcount, hkept, hframe, hword⟩ := v.testCheck_counts (.inr ⟨rfl, rfl⟩)
    rw [State.testCheck, if_neg hgood]
    refine ⟨fun hg => absurd hg hgood, fun _ => ⟨hcount.trans (by rw [hfield]), hkept.trans (hfield _)⟩, ?_,
      fun o ho => (hword o ho).trans (hv.word o)⟩
    rw [hframe, hv.frame]

/-- Settles O29: a WRITE within the allocation stores and then delivers its token, one outside is counted; the checker counts a TEST
message by what it regenerates. -/
theorem writeAndTestMessages : Obligations.WriteAndTestMessages := by
  unfold Obligations.WriteAndTestMessages
  exact ⟨writeMessageStores, testMessagesAreCounted⟩

end Sys2Proof
end

section
/-! The beat and the schedule positions (O11): the edge, what every partition does at it, and that nothing after it moves a
position (R21, R44, R483). -/

namespace Sys2Proof.Machine

/-- An entry of a map after a write is one of before, or holds the value written. -/
theorem mem_of_mem_mput {α : Type} [DecidableEq α] {d v : α} {m : List (Nat × α)} {k : Nat} {x : Nat × α} (h : x ∈ mput d m k v) :
    x ∈ m ∨ x.2 = v := by
  have hdel : ∀ m : List (Nat × α), x ∈ mdel m k → x ∈ m := by
    intro m
    induction m with
    | nil => exact id
    | cons y m ih =>
      intro hx
      unfold mdel at hx
      split at hx
      · exact List.mem_cons_of_mem _ (ih hx)
      · rcases List.mem_cons.mp hx with rfl | hx
        · exact List.mem_cons_self
        · exact List.mem_cons_of_mem _ (ih hx)
  have hins : ∀ m : List (Nat × α), x ∈ mins m k v → x ∈ m ∨ x.2 = v := by
    intro m
    induction m with
    | nil => intro hx; exact .inr (by rw [List.mem_singleton.mp hx])
    | cons y m ih =>
      intro hx
      unfold mins at hx
      split at hx
      · rcases List.mem_cons.mp hx with rfl | hx
        · exact .inr rfl
        · exact .inl hx
      · split at hx
        · rcases List.mem_cons.mp hx with rfl | hx
          · exact .inr rfl
          · exact .inl (List.mem_cons_of_mem _ hx)
        · rcases List.mem_cons.mp hx with rfl | hx
          · exact .inl List.mem_cons_self
          · exact (ih hx).imp_left (List.mem_cons_of_mem _)
  unfold mput at h
  split at h
  · exact .inl (hdel m h)
  · exact hins m h

/-- A fold over distinct keys, of which only one touches what a relation keeps: that one's turn stands between. -/
theorem exists_turn {R : State → State → Prop} (refl : ∀ s, R s s) (trans : ∀ {s t u}, R s t → R t u → R s u)
    {act : State → Nat → State} {p : Nat} (hother : ∀ v q, q ≠ p → R v (act v q)) {l : List Nat} (hl : l.Nodup) (hp : p ∈ l) (s : State) :
    ∃ v, R s v ∧ R (act v p) (l.foldl act s) := by
  have hfold : ∀ (l : List Nat) (s : State), p ∉ l → R s (l.foldl act s) := by
    intro l
    induction l with
    | nil => exact fun s _ => refl s
    | cons q l ih =>
      intro s hno
      rw [List.mem_cons, not_or] at hno
      exact trans (hother s q (Ne.symm hno.1)) (ih _ hno.2)
  obtain ⟨a, b, rfl⟩ := List.append_of_mem hp
  have hnot := List.nodup_append.mp hl
  refine ⟨a.foldl act s, hfold a s fun h => hnot.2.2 p h p List.mem_cons_self rfl, ?_⟩
  rw [List.foldl_append, List.foldl_cons]
  exact hfold b _ (List.nodup_cons.mp hnot.2.1).1

namespace State

variable {s t u : State} {p : Nat}

/-! ## Up to the edge -/

/-- No tile has a result in flight. -/
def NoneInFlight (s : State) : Prop := ∀ x ∈ s.tiles, x.2.pend = []

theorem foldl_add_eq_zero {l : List Nat} (n : Nat) : l.foldl (· + ·) n = 0 ↔ n = 0 ∧ ∀ x ∈ l, x = 0 := by
  induction l generalizing n with
  | nil => simp
  | cons a l ih => rw [List.foldl_cons, ih, List.forall_mem_cons, Nat.add_eq_zero_iff, and_assoc]

theorem pendCount_eq_zero : s.pendCount = 0 ↔ s.NoneInFlight := by
  rw [pendCount, foldl_add_eq_zero]
  simp only [true_and, List.forall_mem_map, List.length_eq_zero_iff, NoneInFlight]

theorem NoneInFlight.tile (h : s.NoneInFlight) (g : Nat) : (s.tile g).pend = [] := by
  rw [State.tile]
  exact mget_induction (P := fun t : Tile => t.pend = []) (d := Tile.reset) rfl h g

theorem NoneInFlight.markBusy (h : s.NoneInFlight) : s.markBusy.NoneInFlight := by
  unfold State.markBusy
  generalize s.tiles.map (·.1) = l
  induction l generalizing s with
  | nil => exact h
  | cons g l ih =>
    rw [List.foldl_cons]
    refine ih ?_
    split
    · exact h
    · intro x hx
      rcases mem_of_mem_mput hx with hx | hx
      · exact h x hx
      · rw [hx]
        exact h.tile g

theorem markBusy_frame (s : State) : s.markBusy = { s with tiles := s.markBusy.tiles } := by
  unfold markBusy
  generalize s.tiles.map (·.1) = l
  induction l generalizing s with
  | nil => rfl
  | cons g l ih =>
    rw [List.foldl_cons, ih]
    split <;> rfl

/-- Of the state what the edge itself changes; the registers but for BN, the partitions and memory stand. -/
structure AtEdge (s t : State) : Prop where
  frame : t = { s with
    now := max s.now (s.beatStart + s.beatLength), beatStart := s.beatStart + s.beatLength, slew := slewLeft s.slew,
    holdoverBeats := t.holdoverBeats, electionBeats := t.electionBeats, tiles := t.tiles, power := t.power, regs := t.regs,
    bnStep := none, bnSteps := (match s.bnStep with
      | some b => s.bnSteps ++ [(s.bn, b)]
      | none => s.bnSteps),
    ports := t.ports, out := t.out }
  bn : t.bn = (match s.bnStep with
    | some b => b % 2 ^ 64
    | none => (s.bn + 1) % 2 ^ 64)
  word : ∀ o, o ≠ F.PLN_BN_BN.base → t.word o = s.word o

/-- Tiles marked before the edge do not matter to it. -/
theorem AtEdge.of_tiles (ht : t = { s with tiles := t.tiles }) (h : AtEdge t u) : AtEdge s u := by
  generalize t.tiles = l at ht
  subst ht
  exact ⟨h.frame, h.bn, h.word⟩

/-- The part of a beat that comes before the partitions' turns. -/
def toPartitions (s : State) : State :=
  ((List.range 6).foldl portEdge (s.countHoldover.toEdge).countIdle.nextBn).sendMarkers

/-- Every partition's landings, and its advance or hold. -/
def allAdvance (s : State) : State := (List.range 8).foldl (fun s p => (s.landUpTo p s.bn).advancePart p) s

/-- What follows the advance in a beat. -/
def afterAdvance (s : State) : State :=
  let s := (List.range 8).foldl (fun s p => if (s.part p).active then s.grantActs p 16 else s) s
  (List.range 8).foldl beatHazards ((List.range 8).foldl overruns s)

theorem rampDelays_of_none (h : (s.part p).acts = []) : s.rampDelays p = s := by
  unfold rampDelays
  rw [h]

/-- With no activation waiting a beat is these parts. -/
theorem beat_eq (h : ∀ p, p < 8 → (s.part p).acts = []) : s.beat = s.markBusy.toPartitions.allAdvance.afterAdvance := by
  have hfold : (List.range 8).foldl (fun s p => if (s.part p).active then s.rampDelays p else s) s.markBusy = s.markBusy := by
    refine foldl_of_fixed fun p hp => ?_
    have hacts : (s.markBusy.part p).acts = [] := by
      rw [s.markBusy_frame]
      exact h p (List.mem_range.mp hp)
    rw [rampDelays_of_none hacts, ite_self]
  unfold beat
  rw [hfold]
  rfl

theorem portEdge_portsOut (s : State) (k : Nat) : PortsOut s (s.portEdge k) := by
  unfold portEdge
  extract_lets x due v
  refine (PortsOut.refl s).ite (.modPort ?_ _)
  exact (PortsOut.refl s).ite (.ite (.sealGroup (.refl s)) ((PortsOut.refl s).modPort _))

theorem countHoldover_frame (s : State) : s.countHoldover =
    { s with holdoverBeats := s.countHoldover.holdoverBeats, electionBeats := s.countHoldover.electionBeats } := by
  unfold countHoldover
  split <;> rfl

theorem toEdge_frame (h : s.NoneInFlight) : s.toEdge =
    { s with now := max s.now (s.beatStart + s.beatLength), beatStart := s.beatStart + s.beatLength, slew := slewLeft s.slew } := by
  unfold toEdge
  dsimp only
  rw [advance_of_pendCount_zero (pendCount_eq_zero.mpr h)]

theorem putF_frame_of_bnStep (h : s.bnStep = none) (f : Fld) (i v : Nat) :
    s.putF f i v = { s with regs := (s.putF f i v).regs, bnStep := none } := by
  rw [← h]
  rfl

/-- The new BN, with no plan running where a step is due. -/
theorem nextBn_takes (h : s.bnStep = none ∨ s.anyRun = false) :
    s.nextBn = { s with regs := s.nextBn.regs, bnStep := none, bnSteps := (match s.bnStep with
      | some b => s.bnSteps ++ [(s.bn, b)]
      | none => s.bnSteps) } ∧
    s.nextBn.bn = (match s.bnStep with
      | some b => b % 2 ^ 64
      | none => (s.bn + 1) % 2 ^ 64) ∧
    ∀ o, o ≠ F.PLN_BN_BN.base → s.nextBn.word o = s.word o := by
  unfold nextBn
  cases hstep : s.bnStep with
  | none => exact ⟨putF_frame_of_bnStep hstep _ _ _, getF_putF _ _ _ _ (by decide) (by decide), fun o ho => word_putF_ne _ _ _ _ ho⟩
  | some b =>
    have hrun : s.anyRun = false := h.resolve_left (by rw [hstep]; exact Option.some_ne_none b)
    simp only [hrun, Bool.false_eq_true, if_false]
    exact ⟨rfl, getF_putF s F.PLN_BN_BN 0 b (by decide) (by decide), fun o ho => word_putF_ne s F.PLN_BN_BN 0 b ho⟩

theorem toPartitions_atEdge (hnone : s.NoneInFlight) (hstep : s.bnStep = none ∨ s.anyRun = false) : AtEdge s s.toPartitions := by
  have hheld := s.countHoldover_frame
  have hedge := toEdge_frame (s := s.countHoldover) (by rw [hheld]; exact hnone)
  have hidle : s.countHoldover.toEdge.countIdle = { s.countHoldover.toEdge with power := s.countHoldover.toEdge.countIdle.power } := rfl
  have hports := (PortsOut.foldl (fun v k => v.portEdge_portsOut k) (List.range 6) (.refl (s.countHoldover.toEdge.countIdle.nextBn))).trans
    (sendMarkers_portsOut _)
  have hbegin : s.countHoldover.toEdge.countIdle.bnStep = s.bnStep ∧ s.countHoldover.toEdge.countIdle.bnSteps = s.bnSteps ∧
      s.countHoldover.toEdge.countIdle.regs = s.regs ∧ s.countHoldover.toEdge.countIdle.bn = s.bn ∧
      s.countHoldover.toEdge.countIdle.anyRun = s.anyRun := by
    rw [hidle, hedge, hheld]
    exact ⟨rfl, rfl, rfl, rfl, rfl⟩
  obtain ⟨hst, hsteps, hregs, hbn, hrun⟩ := hbegin
  obtain ⟨hframe, htook, hword⟩ := nextBn_takes (s := s.countHoldover.toEdge.countIdle) (by rw [hst, hrun]; exact hstep)
  rw [hst, hsteps, hbn] at hframe
  rw [hst, hbn] at htook
  unfold toPartitions
  generalize ((List.range 6).foldl portEdge s.countHoldover.toEdge.countIdle.nextBn).sendMarkers = t at hports
  refine ⟨?_, (bn_congr (hports.word _)).trans htook, fun o ho => (hports.word o).trans ((hword o ho).trans (by rw [word, hregs, word]))⟩
  rw [hports.frame, hframe, hidle, hedge, hheld]
  rfl

/-! ## Advancing and holding -/

/-- What a partition's turn at the edge leaves of another, of BN and of its own results. -/
structure Stands (p : Nat) (s t : State) : Prop where
  frame : t = { s with regs := t.regs, parts := t.parts }
  part : t.part p = s.part p
  word : t.word (F.PLN_SPOS_POS.off p) = s.word (F.PLN_SPOS_POS.off p)
  bn : t.bn = s.bn

namespace Stands

theorem refl (s : State) : Stands p s s := ⟨rfl, rfl, rfl, rfl⟩

theorem trans (h : Stands p s t) (h' : Stands p t u) : Stands p s u :=
  ⟨by rw [h'.frame, h.frame], h'.part.trans h.part, h'.word.trans h.word, h'.bn.trans h.bn⟩

theorem modPart (h : Stands p s t) {q : Nat} (hq : q ≠ p) (f : Part → Part) : Stands p s (t.modPart q f) :=
  h.trans ⟨rfl, part_setPart_ne _ _ hq.symm, rfl, rfl⟩

theorem putF (h : Stands p s t) {q : Nat} (hq : q ≠ p) {f : Fld} (hf : f = F.PLN_SPOS_POS ∨ f = F.PLN_SPOS_HOLD_TOTAL) (v : Nat) :
    Stands p s (t.putF f q v) := by
  have hoff : f.off q = F.PLN_SPOS_POS.off q := by rcases hf with rfl | rfl <;> rfl
  refine h.trans ⟨rfl, part_putF _ _ _ _ _, word_putF_ne _ _ _ _ ?_, bn_congr (word_putF_ne _ _ _ _ ?_)⟩ <;>
    rw [hoff] <;> simp only [Fld.off, F.PLN_SPOS_POS, F.PLN_BN_BN] <;> omega

end Stands

theorem holdBeat_stands (h : Stands p s t) {q : Nat} (hq : q ≠ p) (c : Charge) (rest : List Charge) : Stands p s (t.holdBeat q c rest) := by
  unfold holdBeat bump bumpBy logHold
  exact ((h.modPart hq _).putF hq (.inr rfl) _).modPart hq _

theorem turn_stands (s : State) {q : Nat} (hq : q ≠ p) : Stands p s ((s.landUpTo q s.bn).advancePart q) := by
  have hland : Stands p s (s.landUpTo q s.bn) := (Stands.refl s).modPart hq _
  unfold advancePart
  extract_lets x v n
  have hv : Stands p s v := hland.modPart hq _
  split
  · exact hland
  · split
    · exact holdBeat_stands hland hq _ _
    · split
      · exact hv
      · split
        · exact (hv.putF hq (.inl rfl) _).modPart hq _
        · exact hv.putF hq (.inl rfl) _

/-- What a partition's own turn leaves. -/
structure TurnOf (p : Nat) (s t : State) : Prop where
  frame : t = { s with regs := t.regs, parts := t.parts }
  bn : t.bn = s.bn
  acts : (t.part p).acts = (s.part p).acts
  checker : t.checkerOn p = s.checkerOn p
  landed : (t.part p).landedBn = (s.part p).landedBn

namespace TurnOf

theorem refl (s : State) : TurnOf p s s := ⟨rfl, rfl, rfl, rfl, rfl⟩

theorem trans (h : TurnOf p s t) (h' : TurnOf p t u) : TurnOf p s u :=
  ⟨by rw [h'.frame, h.frame], h'.bn.trans h.bn, h'.acts.trans h.acts, h'.checker.trans h.checker, h'.landed.trans h.landed⟩

theorem modPart (h : TurnOf p s t) {f : Part → Part} (hf : ∀ x, (f x).acts = x.acts ∧ (f x).plan = x.plan ∧ (f x).chkEn = x.chkEn ∧
    (f x).landedBn = x.landedBn) : TurnOf p s (t.modPart p f) := by
  have hpart : (t.modPart p f).part p = f (t.part p) := t.part_modPart p f
  obtain ⟨hacts, hplan, hchk, hlanded⟩ := hf (t.part p)
  refine h.trans ⟨rfl, rfl, by rw [hpart, hacts], ?_, by rw [hpart, hlanded]⟩
  unfold checkerOn
  rw [hpart, hplan, hchk]

theorem putF (h : TurnOf p s t) {f : Fld} (hf : f = F.PLN_SPOS_POS ∨ f = F.PLN_SPOS_HOLD_TOTAL) (v : Nat) : TurnOf p s (t.putF f p v) := by
  have hpart : (t.putF f p v).part p = t.part p := part_putF _ _ _ _ _
  refine h.trans ⟨rfl, bn_congr (word_putF_ne _ _ _ _ ?_), by rw [hpart], checkerOn_congr hpart, by rw [hpart]⟩
  rcases hf with rfl | rfl <;> simp only [Fld.off, F.PLN_SPOS_POS, F.PLN_SPOS_HOLD_TOTAL, F.PLN_BN_BN] <;> omega

end TurnOf

theorem logHold_turn (s : State) (p : Nat) (c : Charge) : TurnOf p s (s.logHold p c) := by
  unfold logHold
  extract_lets x log
  exact (TurnOf.refl s).modPart (f := fun x => { x with holdLog := if 256 < log.length then log.drop 1 else log })
    fun _ => ⟨rfl, rfl, rfl, rfl⟩

/-- A held beat: the position stands, the beat is counted and charged. -/
theorem holdBeat_holds (s : State) (p : Nat) (c : Charge) (rest : List Charge) :
    TurnOf p s (s.holdBeat p c rest) ∧ (s.holdBeat p c rest).getF F.PLN_SPOS_POS p = s.getF F.PLN_SPOS_POS p ∧
    ((s.holdBeat p c rest).part p).heldNow = true ∧
    (s.holdBeat p c rest).getF F.PLN_SPOS_HOLD_TOTAL p =
      min (s.getF F.PLN_SPOS_HOLD_TOTAL p + 1) (2 ^ F.PLN_SPOS_HOLD_TOTAL.width - 1) ∧
    ((s.holdBeat p c rest).part p).charges = if 1 < c.beats then { c with beats := c.beats - 1 } :: rest else rest := by
  unfold holdBeat
  extract_lets v w
  have hv : TurnOf p s v := s.logHold_turn p c
  have hvr : ∀ f, v.getF f p = s.getF f p := fun _ => rfl
  clear_value v
  have hw : TurnOf p s w := hv.putF (.inr rfl) _
  have hpos : w.getF F.PLN_SPOS_POS p = v.getF F.PLN_SPOS_POS p := getF_bumpBy_bits v _ _ _ _ (.inl (by decide))
  have hcount : w.getF F.PLN_SPOS_HOLD_TOTAL p = min (v.getF F.PLN_SPOS_HOLD_TOTAL p + 1) (2 ^ F.PLN_SPOS_HOLD_TOTAL.width - 1) :=
    getF_bumpBy v F.PLN_SPOS_HOLD_TOTAL p 1 (by decide) (by decide)
  clear_value w
  refine ⟨hw.modPart fun _ => ⟨rfl, rfl, rfl, rfl⟩, hpos.trans (hvr _), ?_, by rw [getF_modPart, hcount, hvr], ?_⟩ <;>
    rw [part_modPart]

/-- A partition's turn, by what it has pending. -/
theorem advancePart_turn (s : State) (p : Nat) : TurnOf p s (s.advancePart p) := by
  unfold advancePart
  extract_lets x v n
  have hv : TurnOf p s v := (TurnOf.refl s).modPart (f := fun x => { x with heldNow := false, committed := false })
    fun _ => ⟨rfl, rfl, rfl, rfl⟩
  split
  · exact .refl s
  · split
    · exact (s.holdBeat_holds p _ _).1
    · split
      · exact hv
      · split
        · exact (hv.putF (.inl rfl) _).modPart fun _ => ⟨rfl, rfl, rfl, rfl⟩
        · exact hv.putF (.inl rfl) _

theorem advancePart_of_inactive (h : (s.part p).active = false) : s.advancePart p = s := by
  unfold advancePart
  exact if_pos (by rw [h]; rfl)

theorem advancePart_of_charge {c : Charge} {rest : List Charge} (h : (s.part p).active = true) (hc : (s.part p).charges = c :: rest) :
    s.advancePart p = s.holdBeat p c rest := by
  unfold advancePart
  refine (if_neg (by rw [h]; decide)).trans ?_
  rw [hc]

/-- With no hold beat pending the position goes on by one, to 0 after the last. -/
theorem advancePart_advances (h : (s.part p).active = true) (hc : (s.part p).charges = []) (hrerun : (s.part p).rerunBn = none)
    (hwait : (s.part p).waiting = false) :
    (s.advancePart p).getF F.PLN_SPOS_POS p = (if (s.part p).stepLen ≤ s.getF F.PLN_SPOS_POS p + 1 then 0
      else (s.getF F.PLN_SPOS_POS p + 1) % 2 ^ F.PLN_SPOS_POS.width) ∧
    ((s.advancePart p).part p).heldNow = false ∧
    (s.advancePart p).getF F.PLN_SPOS_HOLD_TOTAL p = s.getF F.PLN_SPOS_HOLD_TOTAL p := by
  unfold advancePart
  extract_lets x v n
  have hx : x.charges = [] := hc
  have hheld : (v.part p).heldNow = false := by rw [show v = s.modPart p _ from rfl, part_modPart]
  have hvr : ∀ f, v.getF f p = s.getF f p := fun _ => rfl
  have hn : n = s.getF F.PLN_SPOS_POS p + 1 := rfl
  clear_value v
  rw [if_neg (by rw [h]; decide)]
  split
  · next heq => exact absurd (hx.symm.trans heq) (List.cons_ne_nil _ _).symm
  rw [if_neg (by rw [hrerun, hwait]; decide)]
  split
  · next hlast =>
    rw [if_pos (hn ▸ hlast)]
    refine ⟨?_, ?_, ?_⟩
    · rw [getF_modPart, getF_putF _ _ _ _ (by decide) (by decide)]
      exact Nat.zero_mod _
    · rw [part_modPart, part_putF, hheld]
    · rw [getF_modPart, getF_putF_bits _ _ _ _ _ _ (.inr (by decide)), hvr]
  · next hmore =>
    rw [if_neg (hn ▸ hmore), hn]
    refine ⟨?_, ?_, ?_⟩
    · rw [getF_putF _ _ _ _ (by decide) (by decide)]
      rfl
    · rw [part_putF, hheld]
    · rw [getF_putF_bits _ _ _ _ _ _ (.inr (by decide)), hvr]

/-! ## What follows the advance -/

/-- From `s` to `t` hold requests have gone out and the hazards of a beat start anew; no position moves. -/
structure HoldsOnly (s t : State) : Prop where
  frame : t = { s with parts := t.parts, ports := t.ports, out := t.out }
  part : ∀ q, t.part q = { s.part q with merged := (t.part q).merged, lineWrites := (t.part q).lineWrites }

namespace HoldsOnly

theorem refl (s : State) : HoldsOnly s s := ⟨rfl, fun _ => rfl⟩

theorem trans (h : HoldsOnly s t) (h' : HoldsOnly t u) : HoldsOnly s u :=
  ⟨by rw [h'.frame, h.frame], fun q => by rw [h'.part, h.part]⟩

theorem portsOut (h : HoldsOnly s t) (hp : PortsOut t u) : HoldsOnly s u :=
  h.trans ⟨by rw [hp.frame], fun q => by rw [hp.part]⟩

theorem modPart (h : HoldsOnly s t) (p : Nat) {f : Part → Part}
    (hf : ∀ x, f x = { x with merged := (f x).merged, lineWrites := (f x).lineWrites }) : HoldsOnly s (t.modPart p f) := by
  refine h.trans ⟨rfl, fun q => ?_⟩
  by_cases hq : q = p
  · subst hq
    rw [part_modPart]
    exact hf _
  · rw [show (t.modPart p f).part q = t.part q from part_setPart_ne _ _ hq]

theorem ite {c : Prop} [Decidable c] (ht : HoldsOnly s t) (hu : HoldsOnly s u) : HoldsOnly s (if c then t else u) := by
  split <;> assumption

theorem foldl {α : Type} {act : State → α → State} {l : List α} (hact : ∀ v, ∀ x ∈ l, HoldsOnly s v → HoldsOnly s (act v x))
    (h : HoldsOnly s t) : HoldsOnly s (l.foldl act t) := by
  induction l generalizing t with
  | nil => exact h
  | cons x l ih => exact ih (fun v y hy => hact v y (List.mem_cons_of_mem _ hy)) (hact t x List.mem_cons_self h)

theorem bn (h : HoldsOnly s t) : t.bn = s.bn := by rw [h.frame]; rfl

theorem getF (h : HoldsOnly s t) (f : Fld) (i : Nat) : t.getF f i = s.getF f i := by rw [h.frame]; rfl

theorem checker (h : HoldsOnly s t) (p : Nat) : t.checkerOn p = s.checkerOn p := by
  unfold checkerOn
  rw [h.part]

/-- An entry of a later landing is kept and passed on (R256). -/
theorem takeHold (h : HoldsOnly s t) {e : HoldEntry} (he : ¬ e.land ≤ max t.bn (t.part e.part).landedBn) : HoldsOnly s (t.takeHold e) := by
  unfold State.takeHold
  dsimp only
  rw [if_neg he]
  exact h.ite ((h.modPart e.part fun _ => rfl).portsOut ((PortsOut.refl _).floodHold _))

/-- A request raised after the landings of its beat is not late (R257). -/
theorem raiseHold (h : HoldsOnly s t) {p : Nat} (hl : (s.part p).landedBn ≤ s.bn) (cause task len : Nat) (overrun : Bool) :
    HoldsOnly s (t.raiseHold p cause task len overrun) := by
  have hl' : (t.part p).landedBn ≤ t.bn := by
    rw [h.part, h.bn]
    exact hl
  refine h.takeHold ?_
  simp only [max_eq_left hl', holdLead]
  omega

theorem overrunIf (h : HoldsOnly s t) {p : Nat} (hl : (s.part p).landedBn ≤ s.bn) (b : Bool) (cause task : Nat) :
    HoldsOnly s (t.overrunIf b p cause task) := (h.raiseHold hl cause task 0 true).ite h

theorem overruns (h : HoldsOnly s t) {p : Nat} (hl : (s.part p).landedBn ≤ s.bn) : HoldsOnly s (t.overruns p) := by
  unfold State.overruns
  extract_lets x pos run late v1 v2 resilient v3 dstate v4 due first v5
  refine h.ite ?_
  have h1 : HoldsOnly s v1 := h.foldl fun v q _ hv => hv.overrunIf hl _ _ _
  clear_value v1
  have h2 : HoldsOnly s v2 := by
    simp only [v2]
    split
    · exact h1.overrunIf hl _ _ _
    · exact h1
  clear_value v2
  have h3 : HoldsOnly s v3 := h2.overrunIf hl _ _ _
  clear_value v3
  have h4 : HoldsOnly s v4 := h3.overrunIf hl _ _ _
  clear_value v4
  have h5 : HoldsOnly s v5 := h4.overrunIf hl _ _ _
  clear_value v5
  exact h5.overrunIf hl _ _ _

theorem beatHazards (h : HoldsOnly s t) {p : Nat} (hoff : s.checkerOn p = false) : HoldsOnly s (t.beatHazards p) := by
  have hnew : HoldsOnly s (t.modPart p fun x => { x with lineWrites := [] }) := h.modPart p fun _ => rfl
  unfold State.beatHazards
  refine (if_pos ?_).symm ▸ hnew
  exact .inr (.inr (.inr (.inr (.inr (by rw [hnew.checker, hoff]; decide)))))

end HoldsOnly

theorem grantActs_of_none (h : (s.part p).acts = []) (n : Nat) : s.grantActs p n = s := by
  cases n with
  | zero => rfl
  | succ n =>
    unfold grantActs
    rw [h]

theorem afterAdvance_holdsOnly (h : ∀ p, p < 8 → (s.part p).acts = [] ∧ s.checkerOn p = false ∧ (s.part p).landedBn ≤ s.bn) :
    HoldsOnly s s.afterAdvance := by
  have hgrant : (List.range 8).foldl (fun s p => if (s.part p).active then s.grantActs p 16 else s) s = s :=
    foldl_of_fixed fun p hp => by rw [grantActs_of_none (h p (List.mem_range.mp hp)).1, ite_self]
  unfold afterAdvance
  rw [hgrant]
  exact .foldl (fun v p hp hv => hv.beatHazards (h p (List.mem_range.mp hp)).2.1)
    (.foldl (fun v p hp hv => hv.overruns (h p (List.mem_range.mp hp)).2.2) (.refl s))

/-! ## A partition's turn within the beat -/

/-- The landings of a partition up to a BN leave all but its hold entries. -/
theorem landUpTo_part (s : State) (p n : Nat) :
    (s.landUpTo p n).part p = { s.part p with
      charges := ((s.landUpTo p n).part p).charges, merged := ((s.landUpTo p n).part p).merged, landedBn := n } := by
  unfold landUpTo
  rw [part_modPart]

theorem landUpTo_of_none (h : ∀ e ∈ (s.part p).merged, ¬ ((s.part p).landedBn < e.land ∧ e.land ≤ n)) :
    ((s.landUpTo p n).part p).charges = (s.part p).charges := by
  unfold landUpTo
  rw [part_modPart]
  have hnone : ((s.part p).merged.filter fun e => (s.part p).landedBn < e.land && e.land ≤ n) = [] := by
    rw [List.filter_eq_nil_iff]
    intro e he hno
    simp only [Bool.and_eq_true, decide_eq_true_eq] at hno
    exact h e he hno
  simp only [hnone, List.mergeSort_nil, List.filter_nil, List.map_nil, List.append_nil]

/-- What of a partition's turn every beat shows: its landings and its advance come between turns that leave it. -/
structure Turn (p : Nat) (e v w : State) : Prop where
  before : Stands p e v
  turn : TurnOf p (v.landUpTo p e.bn) ((v.landUpTo p e.bn).advancePart p)
  after : Stands p ((v.landUpTo p e.bn).advancePart p) w

theorem allAdvance_turn (e : State) (hp : p < 8) : ∃ v, Turn p e v e.allAdvance := by
  obtain ⟨v, hbefore, hafter⟩ := exists_turn Stands.refl (fun h h' => h.trans h') (fun v q hq => turn_stands (p := p) v hq)
    List.nodup_range (List.mem_range.mpr hp) e
  rw [hbefore.bn] at hafter
  exact ⟨v, hbefore, advancePart_turn _ p, hafter⟩

theorem Turn.kept {e v w : State} (h : Turn p e v w) :
    (w.part p).acts = (e.part p).acts ∧ w.checkerOn p = e.checkerOn p ∧ (w.part p).landedBn = e.bn ∧ w.bn = e.bn ∧
    w = { e with regs := w.regs, parts := w.parts } := by
  obtain ⟨hbefore, hturn, hafter⟩ := h
  have hland := v.landUpTo_part p e.bn
  have hchk : (v.landUpTo p e.bn).checkerOn p = v.checkerOn p := by
    unfold checkerOn
    rw [hland]
  have hbn : (v.landUpTo p e.bn).bn = v.bn := rfl
  have hframe : v.landUpTo p e.bn = { v with parts := (v.landUpTo p e.bn).parts } := rfl
  refine ⟨?_, ?_, ?_, ?_, ?_⟩
  · rw [hafter.part, hturn.acts, hland, hbefore.part]
  · rw [checkerOn_congr hafter.part, hturn.checker, hchk, checkerOn_congr hbefore.part]
  · rw [hafter.part, hturn.landed, hland]
  · rw [hafter.bn, hturn.bn, hbn, hbefore.bn]
  · rw [hafter.frame, hturn.frame, hframe, hbefore.frame]

theorem allAdvance_frame (e : State) : e.allAdvance = { e with regs := e.allAdvance.regs, parts := e.allAdvance.parts } ∧
    e.allAdvance.bn = e.bn := by
  obtain ⟨v, hv⟩ := e.allAdvance_turn (p := 0) (by decide)
  obtain ⟨-, -, -, hbn, hframe⟩ := hv.kept
  exact ⟨hframe, hbn⟩

/-- A beat: the edge, the partitions' turns, and what follows. -/
theorem beat_parts (hnone : s.pendCount = 0) (hq : ∀ p, p < 8 → (s.part p).acts = [] ∧ s.checkerOn p = false)
    (hstep : s.bnStep = none ∨ s.anyRun = false) :
    ∃ e, AtEdge s e ∧ e.parts = s.parts ∧ HoldsOnly e.allAdvance s.beat := by
  have hbusy := s.markBusy_frame
  have hedge : AtEdge s.markBusy s.markBusy.toPartitions := toPartitions_atEdge (pendCount_eq_zero.mp hnone).markBusy
    (hstep.imp (fun h => by rw [hbusy]; exact h) fun h => by rw [hbusy]; exact h)
  have hs : AtEdge s s.markBusy.toPartitions := hedge.of_tiles hbusy
  have hparts : s.markBusy.toPartitions.parts = s.parts := by rw [hs.frame]
  rw [beat_eq fun p hp => (hq p hp).1]
  generalize s.markBusy.toPartitions = e at hs hparts
  refine ⟨e, hs, hparts, afterAdvance_holdsOnly fun p hp => ?_⟩
  obtain ⟨v, hv⟩ := e.allAdvance_turn hp
  obtain ⟨hacts, hchk, hlanded, hbn, -⟩ := hv.kept
  have hpart : e.part p = s.part p := part_congr hparts p
  rw [hacts, hchk, hlanded, hbn, checkerOn_congr hpart, hpart]
  exact ⟨(hq p hp).1, (hq p hp).2, le_rfl⟩

end State
end Sys2Proof.Machine

namespace Sys2Proof
open Machine

theorem beatCountsOne : Claims.BeatCountsOne := by
  intro s hnone hq hstep
  obtain ⟨e, hedge, -, hafter⟩ := State.beat_parts hnone hq hstep
  obtain ⟨hframe, hbn⟩ := e.allAdvance_frame
  refine ⟨s.beat, rfl, ?_⟩
  generalize s.beat = u at hafter ⊢
  have hu := hafter.frame
  rw [hframe, hedge.frame] at hu
  refine ⟨by rw [hu], by rw [hu], by rw [hu], hafter.bn.trans (hbn.trans hedge.bn), by rw [hu] <;> rfl, by rw [hu],
    fun a => State.rd8_congr (by rw [hu]) a, by rw [hu]⟩

theorem positionAdvancesOrHolds : Claims.PositionAdvancesOrHolds := by
  intro s p hp hnone hq hstep hlt hland
  obtain ⟨e, hedge, hparts, hafter⟩ := State.beat_parts hnone hq (.inl hstep)
  obtain ⟨v, hbefore, hturn, hend⟩ := e.allAdvance_turn hp
  have hpart : v.part p = s.part p := hbefore.part.trans (State.part_congr hparts p)
  have hword : v.word (F.PLN_SPOS_POS.off p) = s.word (F.PLN_SPOS_POS.off p) :=
    hbefore.word.trans (hedge.word _ (by simp only [Fld.off, F.PLN_SPOS_POS, F.PLN_BN_BN]; omega))
  have hbn : e.bn = s.bn + 1 := by
    rw [hedge.bn, hstep]
    exact Nat.mod_eq_of_lt hlt
  have hcharges : ((v.landUpTo p e.bn).part p).charges = (s.part p).charges := by
    rw [State.landUpTo_of_none (by rw [hpart, hbn]; exact hland), hpart]
  have hlanded := v.landUpTo_part p e.bn
  rw [hcharges, hpart] at hlanded
  have hreg : ∀ {f : Fld}, f.off p = F.PLN_SPOS_POS.off p → (v.landUpTo p e.bn).getF f p = s.getF f p := fun {f} hf => by
    rw [State.landUpTo, State.getF_modPart, State.getF, hf, hword, ← hf, State.getF]
  generalize v.landUpTo p e.bn = w at hlanded hcharges hreg hturn hend
  have hpos : ∀ {f : Fld}, f.off p = F.PLN_SPOS_POS.off p → s.beat.getF f p = (w.advancePart p).getF f p := fun {f} hf => by
    rw [hafter.getF, State.getF, hf, hend.word, ← hf, State.getF]
  have hafter' := hafter.part p
  rw [hend.part] at hafter'
  have hheld : (s.beat.part p).heldNow = ((w.advancePart p).part p).heldNow := by rw [hafter']
  have hcharge : (s.beat.part p).charges = ((w.advancePart p).part p).charges := by rw [hafter']
  refine ⟨s.beat, rfl, fun hidle => ?_, fun hact hnil hrerun hwait => ?_, fun c rest hact hcons => ?_⟩
  · rw [hpos rfl, hpos (f := F.PLN_SPOS_HOLD_TOTAL) rfl, State.advancePart_of_inactive (by rw [hlanded, hidle]), hreg rfl,
      hreg (f := F.PLN_SPOS_HOLD_TOTAL) rfl]
    exact ⟨rfl, rfl⟩
  · obtain ⟨hp', hh, ht⟩ := State.advancePart_advances (s := w) (p := p) (by rw [hlanded, hact]) (by rw [hcharges, hnil])
      (by rw [hlanded, hrerun]) (by rw [hlanded, hwait])
    rw [hpos rfl, hpos (f := F.PLN_SPOS_HOLD_TOTAL) rfl, hheld, hp', ht, hh, hreg rfl, hreg (f := F.PLN_SPOS_HOLD_TOTAL) rfl, hlanded]
    exact ⟨rfl, rfl, rfl⟩
  · obtain ⟨-, hp', hh, ht, hc⟩ := w.holdBeat_holds p c rest
    have hturn' := State.advancePart_of_charge (s := w) (p := p) (by rw [hlanded, hact]) (by rw [hcharges, hcons])
    rw [hpos rfl, hpos (f := F.PLN_SPOS_HOLD_TOTAL) rfl, hheld, hcharge, hturn', hp', hh, ht, hc, hreg rfl,
      hreg (f := F.PLN_SPOS_HOLD_TOTAL) rfl]
    exact ⟨rfl, rfl, rfl, rfl⟩

/-- Settles O11: time comes to the edge and BN counts, each partition takes its turn, and what follows moves no position. -/
theorem beatAndPosition : Obligations.BeatAndPosition := by
  unfold Obligations.BeatAndPosition
  exact ⟨beatCountsOne, positionAdvancesOrHolds⟩

end Sys2Proof
end

section
/-! RUN (O15): what the checkpoint taken at a start leaves, the arming and the refusals of a plan, its first step and its stop (R38,
R54, R344, R488). -/

namespace Sys2Proof.Machine
namespace State

variable {s t u : State} {p : Nat}

/-! ## Taking a checkpoint -/

theorem MemOnly.wipe (h : MemOnly s t) (a n : Nat) : MemOnly s (t.wipe a n) := h.trans ⟨rfl⟩

/-- What a checkpoint taken may change: registers but for `PLN_CTRL` and the power state, the partition and memory. -/
structure Taking (p : Nat) (s t : State) : Prop where
  frame : t = { s with regs := t.regs, parts := t.parts, mem := t.mem, history := t.history }
  ctrl : t.word (F.PLN_CTRL_RUN.off p) = s.word (F.PLN_CTRL_RUN.off p)
  power : t.word F.PWR_STAT_STATE.base = s.word F.PWR_STAT_STATE.base

namespace Taking

theorem refl (s : State) : Taking p s s := ⟨rfl, rfl, rfl⟩

theorem trans (h : Taking p s t) (h' : Taking p t u) : Taking p s u :=
  ⟨by rw [h'.frame, h.frame], h'.ctrl.trans h.ctrl, h'.power.trans h.power⟩

theorem mem (h : Taking p s t) (hm : MemOnly t u) : Taking p s u :=
  h.trans ⟨by rw [hm.frame], by rw [hm.frame]; rfl, by rw [hm.frame]; rfl⟩

theorem modPart (h : Taking p s t) (q : Nat) (f : Part → Part) : Taking p s (t.modPart q f) := h.trans ⟨rfl, rfl, rfl⟩

theorem modTableSt (h : Taking p s t) (q k r : Nat) (f : TableSt → TableSt) : Taking p s (t.modTableSt q k r f) := by
  rw [modTableSt_eq, setTableSt]
  exact h.modPart _ _

theorem putF (h : Taking p s t) {f : Fld} {i : Nat} (v : Nat) (hctrl : F.PLN_CTRL_RUN.off p ≠ f.off i)
    (hpower : F.PWR_STAT_STATE.base ≠ f.off i) : Taking p s (t.putF f i v) :=
  h.trans ⟨rfl, word_putF_ne _ _ _ _ hctrl, word_putF_ne _ _ _ _ hpower⟩

theorem ite {c : Prop} [Decidable c] (ht : Taking p s t) (hu : Taking p s u) : Taking p s (if c then t else u) := by
  split <;> assumption

theorem foldl {α : Type} {act : State → α → State} (hact : ∀ v x, Taking p v (act v x)) (l : List α) (h : Taking p s t) :
    Taking p s (l.foldl act t) := by
  induction l generalizing t with
  | nil => exact h
  | cons x l ih => exact ih (h.trans (hact t x))

end Taking

theorem memOnly_foldl {α : Type} {act : State → α → State} (hact : ∀ v x, MemOnly v (act v x)) (l : List α) (h : MemOnly s t) :
    MemOnly s (l.foldl act t) := by
  induction l generalizing t with
  | nil => exact h
  | cons x l ih => exact ih (h.trans (hact t x))

theorem memOnly_ite {c : Prop} [Decidable c] (ht : MemOnly s t) (hu : MemOnly s u) : MemOnly s (if c then t else u) := by
  split <;> assumption

theorem fill32_memOnly (s : State) (a n : Nat) (w : W32) : MemOnly s (s.fill32 a n w) := (MemOnly.refl s).wr _ _

theorem initPage_memOnly (s : State) (d : TableDesc) (h : HypEnt) (x : PageRec) : MemOnly s (s.initPage d h x) := by
  unfold initPage
  extract_lets per st n v
  have hv : MemOnly s v := MemOnly.wipe (.refl s) _ _
  exact memOnly_ite hv (memOnly_ite (hv.trans (fill32_memOnly _ _ _ _)) (memOnly_foldl (fun v i => fill32_memOnly _ _ _ _) _ hv))

theorem initDefault_memOnly (s : State) (p t r : Nat) (d : TableDesc) (h : HypEnt) : MemOnly s (s.initDefault p t r d h) := by
  unfold initDefault
  extract_lets x v
  have hv : MemOnly s v := MemOnly.wipe (.refl s) _ _
  exact memOnly_ite (.refl s) (memOnly_ite (hv.trans (fill32_memOnly _ _ _ _)) hv)

theorem initRowState_memOnly (s : State) (p t r : Nat) (d : TableDesc) (h : HypEnt) : MemOnly s (s.initRowState p t r d h) :=
  memOnly_foldl (fun v x => v.initPage_memOnly d h x) _ (initDefault_memOnly s p t r d h)

theorem initDense_memOnly (s : State) (p t r q : Nat) (pl : Plan) : MemOnly s (s.initDense p t r q pl) := by
  unfold initDense
  split
  · exact .refl s
  · extract_lets n a init w v
    have hv : MemOnly s v := MemOnly.wipe (.refl s) _ _
    exact memOnly_ite hv (memOnly_ite (hv.wr _ _) (hv.trans (fill32_memOnly _ _ _ _)))

theorem initState_taking (s : State) (q r : Nat) : Taking p s (s.initState q r) := by
  unfold initState
  split
  · exact .refl s
  · extract_lets v w
    have hv : Taking p s v := by
      refine .foldl (fun v t => ?_) _ (.refl s)
      split
      · exact ((Taking.refl v).mem (initRowState_memOnly _ _ _ _ _ _)).modTableSt _ _ _ _
      · exact .refl v
    exact (hv.modPart q _).mem (memOnly_foldl (fun v t => (v.initDense_memOnly _ _ _ _ _).trans (initDense_memOnly _ _ _ _ _ _)) _ (.refl w))

theorem freshScales_taking (s : State) (q r : Nat) : Taking p s (s.freshScales q r) := by
  unfold freshScales
  split
  · exact .refl s
  · exact (Taking.refl s).modPart _ _

theorem loadScales_taking (s : State) (q r : Nat) : Taking p s (s.loadScales q r) := by
  unfold loadScales
  split
  · exact .refl s
  · exact (Taking.refl s).modPart _ _

theorem loadCounts_taking (s : State) (q r : Nat) : Taking p s (s.loadCounts q r) := by
  unfold loadCounts
  split
  · exact .refl s
  · extract_lets b np v
    have hv : Taking p s v := by
      refine .foldl (fun v t => ?_) _ (.refl s)
      exact (Taking.refl v).modPart _ _
    refine .foldl (fun v t => ?_) _ hv
    exact (Taking.refl v).modTableSt _ _ _ _

theorem loadWatches_taking (s : State) (q r : Nat) : Taking p s (s.loadWatches q r) := by
  unfold loadWatches setWatches
  exact ((Taking.refl s).modPart _ _).ite ((Taking.refl s).modPart _ _)

theorem loadEpochs_taking (s : State) (q r : Nat) : Taking p s (s.loadEpochs q r) := by
  unfold loadEpochs
  split
  · exact .refl s
  · extract_lets v
    have hv : Taking p s v := by
      refine .foldl (fun v t => ?_) _ (.refl s)
      exact (Taking.refl v).modTableSt _ _ _ _
    refine hv.trans ?_
    unfold writeEpochs
    split
    · exact .refl _
    · refine (Taking.refl _).mem (memOnly_foldl (fun w e => ?_) _ ((MemOnly.refl _).wr _ _))
      exact (MemOnly.refl w).wr _ _

theorem oweCopies_taking (s : State) (q : Nat) : Taking p s (s.oweCopies q) := by
  unfold oweCopies
  split
  · exact .refl s
  · exact (Taking.refl s).modPart _ _

/-- The registers that a checkpoint taken writes are others. -/
theorem resume_off (p : Nat) : ∀ f ∈ [F.PLN_STEP_STEP, F.PLN_SCALE_STATUS_WARMUP, F.WCH_ROOT_ROOT, F.WCH_STATUS_ROOTRST,
    F.PLN_SCALE_STATUS_NOBITS, F.WCH_RESUME_CTRL_ARM], F.PLN_CTRL_RUN.off p ≠ f.off p ∧ F.PWR_STAT_STATE.base ≠ f.off p := by
  simp only [List.forall_mem_cons, List.not_mem_nil, false_imp_iff, implies_true, and_true, Fld.off, F.PLN_STEP_STEP,
    F.PLN_SCALE_STATUS_WARMUP, F.WCH_ROOT_ROOT, F.WCH_STATUS_ROOTRST, F.PLN_SCALE_STATUS_NOBITS, F.WCH_RESUME_CTRL_ARM,
    F.PLN_CTRL_RUN, F.PWR_STAT_STATE]
  omega

theorem takeResume_taking (s : State) (p : Nat) : Taking p s (s.takeResume p) := by
  unfold takeResume
  split
  · exact .refl s
  · extract_lets r a have_ has v1 v2 v3 v4 v5 stale bits v6 v7
    have off := resume_off p
    have h1 : Taking p s v1 := (Taking.refl s).putF _ (off _ (by simp)).1 (off _ (by simp)).2
    clear_value v1
    have h2 : Taking p s v2 := h1.trans (.ite (loadCounts_taking _ _ _) (initState_taking _ _ _))
    clear_value v2
    have h3 : Taking p s v3 := h2.trans (.ite (loadScales_taking _ _ _) (.ite (.refl _)
      ((freshScales_taking _ _ _).putF _ (off _ (by simp)).1 (off _ (by simp)).2)))
    clear_value v3
    have h4 : Taking p s v4 := h3.trans (.ite ((loadWatches_taking _ _ _).putF _ (off _ (by simp)).1 (off _ (by simp)).2)
      (((Taking.refl _).modPart _ _).putF _ (off _ (by simp)).1 (off _ (by simp)).2))
    clear_value v4
    have h5 : Taking p s v5 := h4.trans (.ite (loadEpochs_taking _ _ _) (.refl _))
    clear_value v5
    have h6 : Taking p s v6 := h5.putF _ (off _ (by simp)).1 (off _ (by simp)).2
    clear_value v6
    have h7 : Taking p s v7 := by
      refine h6.trans (.ite (.foldl (fun v t => ?_) _ (.refl _)) (.refl _))
      split
      · exact .ite ((Taking.refl v).modTableSt _ _ _ _) (.refl v)
      · exact .refl v
    exact (h7.trans (oweCopies_taking _ _)).putF _ (off _ (by simp)).1 (off _ (by simp)).2

/-! ## A write of `PLN_CTRL` -/

/-- The fields of `PLN_CTRL` beside `RUN`. -/
def ctrlFields : List Fld := [F.PLN_CTRL_HOLD_LIMIT, F.PLN_CTRL_BAL_THRESH, F.PLN_CTRL_BAL_EN, F.PLN_CTRL_CHK_FAULT, F.PLN_CTRL_CHK_EN]

theorem regAt_ctrl : ∀ p < 8, ∃ r i, regAt (F.PLN_CTRL_RUN.off p) = some (r, i) ∧ F.PLN_CTRL_RUN ∈ r.fields ∧ ∀ f ∈ ctrlFields, f ∈ r.fields := by
  have hrow : ∀ p < 8, ((regAt (F.PLN_CTRL_RUN.off p)).any fun x => F.PLN_CTRL_RUN ∈ x.1.fields ∧ ∀ f ∈ ctrlFields, f ∈ x.1.fields) = true := by
    decide +kernel
  intro p hp
  obtain ⟨⟨r, i⟩, hr, hfields⟩ := (Option.any_eq_true _ _).mp (hrow p hp)
  obtain ⟨hrun, hothers⟩ := of_decide_eq_true hfields
  exact ⟨r, i, hr, hrun, hothers⟩

/-- The other fields of `PLN_CTRL` take what is written, and `RUN` stands. -/
structure CtrlWritten (s t : State) (p : Nat) (v : Word) : Prop where
  frame : t = { s with regs := t.regs }
  word : ∀ o, o ≠ F.PLN_CTRL_RUN.off p → t.word o = s.word o
  run : t.getF F.PLN_CTRL_RUN p = s.getF F.PLN_CTRL_RUN p
  fields : ∀ f ∈ ctrlFields, t.getF f p = getBits v f.hi f.lo

theorem writeOthers_ctrl (s : State) (hp : p < 8) (v : Word) : CtrlWritten s (s.writeOthers (F.PLN_CTRL_RUN.off p) v) p v := by
  obtain ⟨r, i, hr, hrun, hothers⟩ := regAt_ctrl p hp
  have hrw : ∀ f ∈ ctrlFields, f.hi < 64 ∧ f.off p = F.PLN_CTRL_RUN.off p ∧ f.acc = .rw ∧ f.own = false := by
    simp only [ctrlFields, List.forall_mem_cons, List.not_mem_nil, false_imp_iff, implies_true, and_true]
    exact ⟨⟨by decide, rfl, rfl, rfl⟩, ⟨by decide, rfl, rfl, rfl⟩, ⟨by decide, rfl, rfl, rfl⟩, ⟨by decide, rfl, rfl, rfl⟩,
      by decide, rfl, rfl, rfl⟩
  exact ⟨writeOthers_eq _ _ _, fun o ho => word_writeOthers_ne _ _ _ ho, getF_writeOthers_kept _ hr v hrun (by decide) rfl (.inl rfl),
    fun f hf => getF_writeOthers_rw _ hr v (hothers f hf) (hrw f hf).1 (hrw f hf).2.1 (hrw f hf).2.2.1 (hrw f hf).2.2.2⟩

/-- `RUN` set or cleared. -/
structure RunPut (s t : State) (p : Nat) (b : Bool) : Prop where
  frame : t = { s with regs := t.regs }
  word : ∀ o, o ≠ F.PLN_CTRL_RUN.off p → o ≠ F.GEN_STATUS_RUNNING.base → t.word o = s.word o
  run : t.running p = b
  shown : b = true → t.getF F.GEN_STATUS_RUNNING 0 = (s.getF F.GEN_STATUS_RUNNING 0 ||| 2 ^ p) % 2 ^ 8
  fields : ∀ f ∈ ctrlFields, t.getF f p = s.getF f p

theorem setRun_put (s : State) (p : Nat) (b : Bool) : RunPut s (s.setRun p b) p b := by
  have hoff : F.PLN_CTRL_RUN.off p ≠ F.GEN_STATUS_RUNNING.off 0 := by
    simp only [Fld.off, F.PLN_CTRL_RUN, F.GEN_STATUS_RUNNING]; omega
  have hbits : ∀ f ∈ ctrlFields, f.off p = F.PLN_CTRL_RUN.off p ∧ F.PLN_CTRL_RUN.hi < f.lo := by
    simp only [ctrlFields, List.forall_mem_cons, List.not_mem_nil, false_imp_iff, implies_true, and_true]
    exact ⟨⟨rfl, by decide⟩, ⟨rfl, by decide⟩, ⟨rfl, by decide⟩, ⟨rfl, by decide⟩, rfl, by decide⟩
  unfold setRun
  extract_lets v m
  have hrun : v.getF F.PLN_CTRL_RUN p = if b then 1 else 0 := by
    rw [getF_putF _ _ _ _ (by decide) (by decide)]
    cases b <;> rfl
  have hm : m = s.getF F.GEN_STATUS_RUNNING 0 := getF_putF_off _ _ _ _ _ _ hoff.symm
  have hvf : ∀ f ∈ ctrlFields, v.getF f p = s.getF f p := fun f hf => getF_putF_bits _ _ _ _ _ _ (.inr (hbits f hf).2)
  have hword : ∀ o, o ≠ F.PLN_CTRL_RUN.off p → v.word o = s.word o := fun o ho => word_putF_ne _ _ _ _ ho
  have hframe : v = { s with regs := v.regs } := rfl
  clear_value v
  refine ⟨by rw [hframe]; rfl, fun o ho hg => (word_putF_ne _ _ _ _ hg).trans (hword o ho), ?_, fun hb => ?_, fun f hf => ?_⟩
  · rw [running, flag, getF_putF_off _ _ _ _ _ _ hoff, hrun]
    cases b <;> rfl
  · rw [getF_putF _ _ _ _ (by decide) (by decide), hb, if_pos rfl, hm]
    rfl
  · rw [getF_putF_off _ _ _ _ _ _ (by rw [(hbits f hf).1]; exact hoff), hvf f hf]

/-! ## Arming a plan -/

theorem inRun_congr (hpower : t.power = s.power) (hword : t.word F.PWR_STAT_STATE.base = s.word F.PWR_STAT_STATE.base) (h : InRun s) :
    InRun t := by
  obtain ⟨hrun, htarget⟩ := h
  exact ⟨(getF_congr_word (f := F.PWR_STAT_STATE) (i := 0) hword).trans hrun, by rw [hpower]; exact htarget⟩

/-- The plan is armed. -/
def armed (s : State) (p : Nat) : State := (s.setRun p true).modPart p fun x => { x with armed := true }

theorem armed_inRun (s : State) (p : Nat) (h : InRun s) : (s.armed p).arriveWork = s.armed p := by
  refine arriveWork_of_inRun _ (inRun_congr ?_ ?_ h)
  · rfl
  · refine ((s.setRun_put p true).word _ ?_ (by decide))
    simp only [Fld.off, F.PLN_CTRL_RUN, F.PWR_STAT_STATE]
    omega

/-- A plan that starts leaves the other fields of `PLN_CTRL`, whatever comes of it. -/
theorem tryRun_fields {pl : Plan} (hpl : s.plan p = some pl) (hin : InRun s) : ∀ f ∈ ctrlFields, (s.tryRun p).getF f p = s.getF f p := by
  intro f hf
  have hoff : f.off p = F.PLN_CTRL_RUN.off p := by
    revert f
    simp only [ctrlFields, List.forall_mem_cons, List.not_mem_nil, false_imp_iff, implies_true, and_true]
    exact ⟨rfl, rfl, rfl, rfl, rfl⟩
  have hrefused : ∀ code, (s.refuseRun p code).getF f p = s.getF f p := fun code => by
    refine getF_putF_off _ F.PLN_LOAD_STATUS_CODE _ _ _ _ ?_
    rw [hoff]
    simp only [Fld.off, F.PLN_CTRL_RUN, F.PLN_LOAD_STATUS_CODE]; omega
  have harmed : ∀ v : State, (v.armed p).getF f p = v.getF f p := fun v => (v.setRun_put p true).fields f hf
  unfold tryRun
  rw [hpl]
  dsimp only
  split
  · rfl
  · split
    · rfl
    · split
      · exact hrefused _
      · split
        · exact hrefused _
        · split
          · split
            · exact hrefused _
            · have ht := s.takeResume_taking p
              have hpower : (s.takeResume p).power = s.power := by rw [ht.frame]
              have harrived := (s.takeResume p).armed_inRun p (inRun_congr hpower ht.power hin)
              exact (congrArg (getF · f p) harrived).trans ((harmed _).trans (getF_congr_word (by rw [hoff]; exact ht.ctrl)))
          · exact (congrArg (getF · f p) (s.armed_inRun p hin)).trans (harmed s)

/-- With nothing against it the plan is armed. -/
theorem tryRun_of_ready {pl : Plan} (hpl : s.plan p = some pl) (hin : InRun s) (hidle : s.running p = false)
    (hok : s.flag F.GEN_STATUS_FAILED 0 = false) (hfrz : s.anyFrozen p = false) (hbn : s.bn ≤ s.getF F.PLN_START_BN_BN p)
    (harm : s.flag F.WCH_RESUME_CTRL_ARM p = false) : s.tryRun p = s.armed p := by
  unfold tryRun
  rw [hpl]
  dsimp only
  rw [if_neg (by rw [hidle]; decide), if_neg (by rw [hok]; decide), if_neg (by rw [hfrz]; decide), if_neg (by omega),
    if_neg (by rw [harm]; decide)]
  exact s.armed_inRun p hin

/-- The grounds on which `RUN` stays 0, with their codes. -/
def RefusesRun (s : State) (p : Nat) (pl : Plan) (code : Nat) : Prop :=
  (code = 0x13 ∧ s.anyFrozen p = true) ∨
    (s.anyFrozen p = false ∧ ((code = 0x0C ∧ s.getF F.PLN_START_BN_BN p < s.bn) ∨
      (s.bn ≤ s.getF F.PLN_START_BN_BN p ∧ code = 0x10 ∧ s.flag F.WCH_RESUME_CTRL_ARM p = true ∧
        (s.rdN (s.getF F.WCH_CKPT_BASE_ADDR p + 8) 4 ≠ s.homeRank p ∨
          s.rdN (s.getF F.WCH_CKPT_BASE_ADDR p + 0x0C) 4 ≠ pl.rankCount))))

theorem tryRun_of_refused {pl : Plan} (hpl : s.plan p = some pl) (hidle : s.running p = false) (hok : s.flag F.GEN_STATUS_FAILED 0 = false)
    {code : Nat} (h : RefusesRun s p pl code) : s.tryRun p = s.refuseRun p code := by
  unfold tryRun
  rw [hpl]
  dsimp only
  rw [if_neg (by rw [hidle]; decide), if_neg (by rw [hok]; decide)]
  rcases h with ⟨rfl, hfrz⟩ | ⟨hfrz, ⟨rfl, hpast⟩ | ⟨hbn, rfl, harm, hother⟩⟩
  · exact if_pos hfrz
  · rw [if_neg (by rw [hfrz]; decide), if_pos hpast]
  · rw [if_neg (by rw [hfrz]; decide), if_neg (by omega), if_pos harm, if_pos hother]

/-! ## What another register's write leaves -/

theorem anyFrozen_congr (hframe : t = { s with regs := t.regs }) (hmask : ∀ q, t.getF F.PRT_CLUSTERS_MASK q = s.getF F.PRT_CLUSTERS_MASK q)
    (hcfg : ∀ h, t.word (F.DMA_MCFG_EN.off h) = s.word (F.DMA_MCFG_EN.off h)) (p : Nat) : t.anyFrozen p = s.anyFrozen p := by
  have hhas : ∀ c, t.hasCluster p c = s.hasCluster p c := fun c => by rw [hasCluster, hmask, hasCluster]
  have hmov : t.planMovers p = s.planMovers p := by
    have hfld : ∀ {f : Fld} h, f.off h = F.DMA_MCFG_EN.off h → t.getF f h = s.getF f h := fun h hf =>
      getF_congr_word (by rw [hf]; exact hcfg h)
    unfold planMovers flag
    simp only [hfld (f := F.DMA_MCFG_EN) _ rfl, hfld (f := F.DMA_MCFG_MODE) _ rfl, hfld (f := F.DMA_MCFG_OWNER) _ rfl]
  have htile : ∀ g, t.tile g = s.tile g := fun g => by rw [hframe]; rfl
  have hcm : ∀ g, t.cmover g = s.cmover g := fun g => by rw [hframe]; rfl
  have hm : ∀ g, t.mover g = s.mover g := fun g => by rw [hframe]; rfl
  have ho : ∀ e, t.och e p = s.och e p := fun e => by rw [hframe]; rfl
  unfold anyFrozen tilesOf clusters
  simp only [hhas, hmov, htile, hcm, hm, ho]

/-- What the start of a plan is judged by is in other registers than `PLN_CTRL`. -/
theorem CtrlWritten.judged {v : Word} (h : CtrlWritten s t p v) (hp : p < 8) :
    t.plan p = s.plan p ∧ t.running p = s.running p ∧ t.flag F.GEN_STATUS_FAILED 0 = s.flag F.GEN_STATUS_FAILED 0 ∧
    t.anyFrozen p = s.anyFrozen p ∧ t.bn = s.bn ∧ t.getF F.PLN_START_BN_BN p = s.getF F.PLN_START_BN_BN p ∧
    t.flag F.WCH_RESUME_CTRL_ARM p = s.flag F.WCH_RESUME_CTRL_ARM p ∧ (InRun s → InRun t) ∧
    t.getF F.GEN_STATUS_RUNNING 0 = s.getF F.GEN_STATUS_RUNNING 0 ∧ (∀ pl code, RefusesRun t p pl code ↔ RefusesRun s p pl code) := by
  have hoff : ∀ {f : Fld} {i : Nat}, f.off i ≠ F.PLN_CTRL_RUN.off p → t.getF f i = s.getF f i := fun hf => getF_congr_word (h.word _ hf)
  have hother : ∀ f ∈ [F.PLN_START_BN_BN, F.WCH_RESUME_CTRL_ARM, F.WCH_CKPT_BASE_ADDR], f.off p ≠ F.PLN_CTRL_RUN.off p := by
    simp only [List.forall_mem_cons, List.not_mem_nil, false_imp_iff, implies_true, and_true, Fld.off, F.PLN_START_BN_BN,
      F.WCH_RESUME_CTRL_ARM, F.WCH_CKPT_BASE_ADDR, F.PLN_CTRL_RUN]
    omega
  have hone : ∀ f ∈ [F.GEN_STATUS_FAILED, F.GEN_STATUS_RUNNING, F.PLN_BN_BN, F.PWR_STAT_STATE, F.FAB_CFG_X], f.off 0 ≠ F.PLN_CTRL_RUN.off p := by
    simp only [List.forall_mem_cons, List.not_mem_nil, false_imp_iff, implies_true, and_true, Fld.off, F.GEN_STATUS_FAILED,
      F.GEN_STATUS_RUNNING, F.PLN_BN_BN, F.PWR_STAT_STATE, F.FAB_CFG_X, F.PLN_CTRL_RUN]
    omega
  simp only [List.forall_mem_cons, List.not_mem_nil, false_imp_iff, implies_true, and_true] at hother hone
  obtain ⟨hstart, harm, hckpt⟩ := hother
  obtain ⟨hfailed, hrunning, hbn, hpower, hcfg⟩ := hone
  have hparts : t.parts = s.parts := by rw [h.frame]
  have hfrz : t.anyFrozen p = s.anyFrozen p := by
    refine anyFrozen_congr h.frame (fun q => hoff ?_) (fun i => h.word _ ?_) p <;>
      simp only [Fld.off, F.PRT_CLUSTERS_MASK, F.DMA_MCFG_EN, F.PLN_CTRL_RUN] <;> omega
  have hbn' : t.bn = s.bn := hoff hbn
  have harm' : t.flag F.WCH_RESUME_CTRL_ARM p = s.flag F.WCH_RESUME_CTRL_ARM p := by rw [flag, hoff harm, flag]
  have hrank : t.homeRank p = s.homeRank p := by
    have hpos := (place_congr (s := s) (t := t) (h.word _ hcfg)).1
    rw [homeRank, hpos, (home_congr hparts (h.word _ hcfg) p).1, homeRank]
  have hrd : ∀ a n, t.rdN a n = s.rdN a n := fun a n =>
    congrArg leNat (rd_congr (by rw [h.frame]) a n)
  refine ⟨congrArg Part.plan (part_congr hparts p), by rw [running, flag, h.run]; rfl, by rw [flag, hoff hfailed, flag], hfrz, hbn',
    hoff hstart, harm', inRun_congr (by rw [h.frame]) (h.word _ hpower), hoff hrunning, fun pl code => ?_⟩
  unfold RefusesRun
  rw [hfrz, hbn', harm', hrank, hoff hstart, hoff hckpt, hrd, hrd]

end State

/-! ## The commands -/

variable {s : State} {p : Nat}

theorem exec_runSet {f : Func} {v : Word} (hopen : Open s f (F.PLN_CTRL_RUN.off p)) (hv : getBits v 0 0 = 1) :
    exec (.runSet f p v) s = .next ((s.writeOthers (F.PLN_CTRL_RUN.off p) v).tryRun p) :=
  congrArg Host.Outcome.next ((s.gated_of_open hopen _).trans (if_pos hv))

theorem exec_runClear {f : Func} {v : Word} (hopen : Open s f (F.PLN_CTRL_RUN.off p)) (hv : getBits v 0 0 = 0)
    (hrun : (s.writeOthers (F.PLN_CTRL_RUN.off p) v).running p = true) :
    exec (.runClear f p v) s = .next (if ((s.writeOthers (F.PLN_CTRL_RUN.off p) v).part p).active then
        (s.writeOthers (F.PLN_CTRL_RUN.off p) v).modPart p fun x => { x with stopAfter := true }
      else ((s.writeOthers (F.PLN_CTRL_RUN.off p) v).setRun p false).modPart p fun x => { x with armed := false }) := by
  refine congrArg Host.Outcome.next ((s.gated_of_open hopen _).trans (if_neg ?_))
  rw [hv, hrun]
  decide

end Sys2Proof.Machine

namespace Sys2Proof
open Machine

theorem runStarts : Claims.RunStarts := by
  refine ⟨fun s f p v pl hp hopen hv hpl hidle hok hin => ⟨_, exec_runSet hopen hv, ?_⟩, fun s p hp harmed hrun hbn => ?_⟩
  · have hw := s.writeOthers_ctrl hp v
    generalize s.writeOthers (F.PLN_CTRL_RUN.off p) v = w at hw ⊢
    obtain ⟨hplan, hrun, hfailed, hfrz, hbn, hstart, harm, hinrun, hrunning, hrefuses⟩ := hw.judged hp
    refine ⟨fun fld hfld => ?_, fun hnone hle hoff => ?_, fun code hcode => ?_⟩
    · rw [State.tryRun_fields (hplan.trans hpl) (hinrun hin) fld hfld]
      exact hw.fields fld hfld
    · rw [State.tryRun_of_ready (hplan.trans hpl) (hinrun hin) (hrun.trans hidle) (hfailed.trans hok) (hfrz.trans hnone)
        (by rw [hbn, hstart]; exact hle) (harm.trans hoff)]
      obtain ⟨hframe, hword, hset, hshown, -⟩ := w.setRun_put p true
      have hpart : ∀ q, (w.setRun p true).part q = s.part q := fun q => by rw [hframe, hw.frame]; rfl
      refine ⟨hset, ?_, ?_, ?_, fun o ho hg => (hword o ho hg).trans (hw.word o ho), fun q hq => ?_⟩
      · rw [State.armed, State.part_modPart]
      · refine (hshown rfl).trans ?_
        rw [hrunning]
        exact Nat.mod_eq_of_lt (Nat.or_lt_two_pow (s.getF_lt F.GEN_STATUS_RUNNING 0) (Nat.pow_lt_pow_right (by decide) hp))
      · rw [State.armed, State.modPart, State.setPart, hframe, hw.frame]
      · exact (State.part_setPart_ne _ _ hq).trans (hpart q)
    · rw [State.tryRun_of_refused (hplan.trans hpl) (hrun.trans hidle) (hfailed.trans hok) ((hrefuses pl code).mpr hcode)]
      have hlt : code < 2 ^ 8 := by
        rcases hcode with ⟨rfl, -⟩ | ⟨-, ⟨rfl, -⟩ | ⟨-, rfl, -⟩⟩ <;> decide
      have hoff : F.PLN_CTRL_RUN.off p ≠ F.PLN_LOAD_STATUS_CODE.off p := by
        simp only [Fld.off, F.PLN_CTRL_RUN, F.PLN_LOAD_STATUS_CODE]; omega
      refine ⟨?_, ?_, ?_, fun o ho => ?_⟩
      · rw [State.running, State.refuseRun, State.flag, State.getF_putF_off _ _ _ _ _ _ hoff]
        exact hrun.trans hidle
      · rw [State.refuseRun, State.getF_putF _ _ _ _ (by decide) (by decide)]
        exact Nat.mod_eq_of_lt hlt
      · rw [State.refuseRun, State.putF, State.setWord, hw.frame]
      · rw [not_or] at ho
        exact (State.word_putF_ne _ _ _ _ ho.2).trans (hw.word o ho.1)
  · have hexec : exec (.planStart p) s = .next (s.begin p) :=
      congrArg Host.Outcome.next (if_pos ⟨harmed, hrun, hbn⟩)
    have hoff : F.PLN_CTRL_RUN.off p ≠ F.PLN_SPOS_POS.off p := by
      simp only [Fld.off, F.PLN_CTRL_RUN, F.PLN_SPOS_POS]; omega
    have hpos : (s.putF F.PLN_SPOS_POS p 0).getF F.PLN_SPOS_POS p = 0 := State.getF_putF s F.PLN_SPOS_POS p 0 (by decide) (by decide)
    have hword : ∀ o, o ≠ F.PLN_SPOS_POS.off p → (s.putF F.PLN_SPOS_POS p 0).word o = s.word o := fun o ho => State.word_putF_ne _ _ _ _ ho
    have hrunning : (s.putF F.PLN_SPOS_POS p 0).getF F.PLN_CTRL_RUN p = s.getF F.PLN_CTRL_RUN p := State.getF_putF_off _ _ _ _ _ _ hoff
    have hpart : ∀ q, (s.putF F.PLN_SPOS_POS p 0).part q = s.part q := fun q => State.part_putF _ _ _ _ _
    have hframe : s.putF F.PLN_SPOS_POS p 0 = { s with regs := (s.putF F.PLN_SPOS_POS p 0).regs } := rfl
    refine ⟨s.begin p, hexec, ?_⟩
    unfold State.begin
    generalize s.putF F.PLN_SPOS_POS p 0 = w at hpos hword hrunning hpart hframe ⊢
    rw [State.part_modPart]
    refine ⟨rfl, rfl, rfl, rfl, hpos, ?_, ?_, hword, fun q hq => (State.part_setPart_ne _ _ hq).trans (hpart q)⟩
    · rw [State.running, State.flag, State.getF_modPart, hrunning]
      exact hrun
    · rw [State.modPart, State.setPart, hframe]

theorem runClears : Claims.RunClears := by
  intro s f p v hp hopen hv hrun
  have hw := s.writeOthers_ctrl hp v
  obtain ⟨-, hrun', -⟩ := hw.judged hp
  refine ⟨_, exec_runClear hopen hv (hrun'.trans hrun), ?_⟩
  generalize s.writeOthers (F.PLN_CTRL_RUN.off p) v = w at hw hrun' ⊢
  have hpart : w.part p = s.part p := by rw [hw.frame]; rfl
  have hfields : ∀ {u : State}, (∀ fld ∈ State.ctrlFields, u.getF fld p = w.getF fld p) →
      ∀ fld ∈ State.ctrlFields, u.getF fld p = getBits v fld.hi fld.lo := fun h fld hf => (h fld hf).trans (hw.fields fld hf)
  rw [hpart]
  cases hact : (s.part p).active with
  | true =>
    rw [if_pos rfl, State.part_modPart]
    refine ⟨fun _ => ⟨(hrun'.trans hrun : w.running p = true), rfl, by rw [hpart]; exact hact⟩, fun h => Bool.noConfusion h,
      hfields fun _ _ => rfl, ?_, fun q hq => (State.part_setPart_ne _ _ hq).trans (by rw [hw.frame]; rfl), fun o ho _ => hw.word o ho⟩
    rw [State.modPart, State.setPart, hw.frame]
  | false =>
    obtain ⟨hframe, hword, hclear, -, hkept⟩ := w.setRun_put p false
    rw [if_neg Bool.false_ne_true, State.part_modPart]
    refine ⟨fun h => Bool.noConfusion h, fun _ => ⟨hclear, rfl⟩, hfields fun fld hf => hkept fld hf, ?_,
      fun q hq => (State.part_setPart_ne _ _ hq).trans (by rw [hframe, hw.frame]; rfl), fun o ho hg => (hword o ho hg).trans (hw.word o ho)⟩
    rw [State.modPart, State.setPart, hframe, hw.frame]

/-- Settles O15: a write of `RUN` 1 is judged by other registers than the one it writes; the plan is armed, or the code of the refusal
shows. -/
theorem runStartsAndClears : Obligations.RunStartsAndClears := by
  unfold Obligations.RunStartsAndClears
  exact ⟨runStarts, runClears⟩

end Sys2Proof
end

section
/-! Windows and hold requests (O33): a window that opens when landings ahead of the request's are known already. -/

namespace Sys2Proof.Machine

/-- Partition 1, without a cluster, is in a step of a plan of one ingest delivery, placed at position 0 for one beat; landings are known far ahead. -/
def landedAhead : State :=
  (inProgress 1 (planOf [taskOfKind 0x0B] [] []) State.reset).modPart 1 fun x =>
    { x with sched := [{ task := 0, start := 0, dur := 1, units := [] }], landedBn := 2 ^ 40 }

/-- The need of the delivery is above its window: the request comes too late, and the module fault rolls the step back. -/
theorem windows_landedAhead : ((stateAfter (.windowOpen 1 0 [10 ^ 7]) landedAhead).part 1).windows = [] := by
  decide +kernel

end Sys2Proof.Machine

namespace Sys2Proof
open Machine

/-- Refutes O33: a window that opens with a request for a landing already passed rolls the step back, and its window is closed
again. -/
theorem not_holdsAndBalance : ¬ Obligations.HoldsAndBalance := by
  unfold Obligations.HoldsAndBalance
  rintro ⟨⟨hopens, -⟩, -⟩
  obtain ⟨u, hu, -, hwindows, -⟩ := hopens landedAhead 1 0 [10 ^ 7] (planOf [taskOfKind 0x0B] [] []) (taskOfKind 0x0B)
    { task := 0, start := 0, dur := 1, units := [] } (by decide) (by decide +kernel) (by decide +kernel) (by decide +kernel)
    (by decide +kernel) (by decide +kernel) (by decide +kernel) (by decide +kernel)
  rw [← stateAfter_eq hu, windows_landedAhead] at hwindows
  exact List.cons_ne_nil _ _ (List.append_eq_nil_iff.1 hwindows.symm).2

end Sys2Proof
end

section
/-! Allocations of partitions (O45): granules, clusters and quotas. -/

namespace Sys2Proof.Machine

/-! ## A map filtered by its keys -/

theorem mget_filter_key {α : Type} (d : α) (m : List (Nat × α)) (keep : Nat → Bool) (k : Nat) :
    mget d (m.filter fun c => keep c.1) k = if keep k then mget d m k else d := by
  induction m with
  | nil => simp [mget]
  | cons c m ih =>
    obtain ⟨a, v⟩ := c
    by_cases ha : keep a = true
    · rw [List.filter_cons_of_pos (by exact ha)]
      by_cases h : a = k
      · subst h
        simp [mget, ha]
      · simp only [mget, if_neg h, ih]
    · rw [List.filter_cons_of_neg (by exact ha), ih]
      by_cases h : a = k
      · subst h
        simp [ha]
      · simp only [mget, if_neg h]

/-! ## One nibble of a word of sixteen -/

/-- Bits [k+3:k] of `w` become `b`. -/
def setNibble (w k b : Nat) : Nat := w - natBits w (k + 3) k * 2 ^ k + b * 2 ^ k

theorem natBits_nibble (w k : Nat) : natBits w (k + 3) k = w / 2 ^ k % 16 := by
  unfold natBits
  rw [Nat.shiftRight_eq_div_pow, show k + 3 + 1 - k = 4 by omega, show (2 : Nat) ^ 4 = 16 from rfl]

/-- The nibbles above stand over the one that is set, those below it under it. -/
theorem setNibble_eq (w k b : Nat) : setNibble w k b = (16 * (w / 2 ^ k / 16) + b) * 2 ^ k + w % 2 ^ k := by
  have hw := Nat.div_add_mod w (2 ^ k)
  have hn := Nat.div_add_mod (w / 2 ^ k) 16
  have hle : w / 2 ^ k % 16 * 2 ^ k ≤ w := (Nat.mul_le_mul_right _ (Nat.mod_le _ _)).trans (Nat.div_mul_le_self _ _)
  unfold setNibble
  rw [natBits_nibble, Nat.add_mul]
  have hsplit : 2 ^ k * (w / 2 ^ k) = 16 * (w / 2 ^ k / 16) * 2 ^ k + w / 2 ^ k % 16 * 2 ^ k := by
    rw [← Nat.add_mul, hn, Nat.mul_comm]
  omega

theorem setNibble_div {w k b : Nat} : setNibble w k b / 2 ^ k = 16 * (w / 2 ^ k / 16) + b := by
  rw [setNibble_eq, Nat.add_comm, Nat.add_mul_div_right _ _ (Nat.two_pow_pos k), Nat.div_eq_of_lt (Nat.mod_lt _ (Nat.two_pow_pos k)),
    Nat.zero_add]

theorem setNibble_mod (w k b : Nat) : setNibble w k b % 2 ^ k = w % 2 ^ k := by
  rw [setNibble_eq, Nat.add_comm, Nat.add_mul_mod_self_right, Nat.mod_mod]

theorem natBits_setNibble {w b m j : Nat} (hb : b < 16) :
    natBits (setNibble w (4 * m) b) (4 * j + 3) (4 * j) = if j = m then b else natBits w (4 * j + 3) (4 * j) := by
  rw [natBits_nibble, natBits_nibble]
  split
  · next h =>
    rw [h, setNibble_div]
    omega
  · next h =>
    rcases Nat.lt_or_gt_of_ne h with hlt | hgt
    · -- a lower nibble lies in the part that stands
      have low (v : Nat) : v / 2 ^ (4 * j) % 16 = v % 2 ^ (4 * m) / 2 ^ (4 * j) % 16 := by
        have hm : 2 ^ (4 * m) = 2 ^ (4 * j) * (16 * 2 ^ (4 * (m - j - 1))) := by
          rw [show (16 : Nat) = 2 ^ 4 from rfl, ← Nat.pow_add, ← Nat.pow_add]
          congr 1
          omega
        rw [hm, Nat.mod_mul_right_div_self, Nat.mod_mul_right_mod]
      rw [low, setNibble_mod, ← low]
    · -- a higher one in what stands above
      have high (v : Nat) : v / 2 ^ (4 * j) = v / 2 ^ (4 * m) / 16 / 2 ^ (4 * (j - m - 1)) := by
        rw [Nat.div_div_eq_div_mul, Nat.div_div_eq_div_mul, show (16 : Nat) = 2 ^ 4 from rfl, ← Nat.pow_add, ← Nat.pow_add]
        congr 2
        omega
      rw [high, high w, setNibble_div, show (16 * (w / 2 ^ (4 * m) / 16) + b) / 16 = w / 2 ^ (4 * m) / 16 by omega]

theorem setNibble_lt {w b m : Nat} (hw : w < 2 ^ 64) (hb : b < 16) (hm : m < 16) : setNibble w (4 * m) b < 2 ^ 64 := by
  have hpow : 2 ^ 64 = 16 * 2 ^ (60 - 4 * m) * 2 ^ (4 * m) := by
    rw [show (16 : Nat) = 2 ^ 4 from rfl, ← Nat.pow_add, ← Nat.pow_add]
    congr 1
    omega
  have hhigh : w / 2 ^ (4 * m) / 16 < 2 ^ (60 - 4 * m) := by
    rw [Nat.div_lt_iff_lt_mul (by omega), Nat.div_lt_iff_lt_mul (Nat.two_pow_pos _), Nat.mul_comm _ 16, ← hpow]
    exact hw
  rw [hpow, ← Nat.div_lt_iff_lt_mul (Nat.two_pow_pos _), setNibble_div]
  omega

/-! ## Counting what a partition owns -/

/-- Keys below `n` that `f` gives to `b`. -/
def countOf (n b : Nat) (f : Nat → Nat) : Nat := ((List.range n).filter fun i => f i = b).length

theorem countOf_congr {n b : Nat} {f g : Nat → Nat} (h : ∀ i, i < n → g i = f i) : countOf n b g = countOf n b f := by
  unfold countOf
  congr 1
  refine List.filter_congr fun i hi => ?_
  rw [h i (List.mem_range.1 hi)]

theorem countOf_le (n b : Nat) (f : Nat → Nat) : countOf n b f ≤ n :=
  (List.length_filter_le _ _).trans_eq List.length_range

theorem countOf_succ (n b : Nat) (f : Nat → Nat) : countOf (n + 1) b f = countOf n b f + if f n = b then 1 else 0 := by
  unfold countOf
  rw [List.range_succ, List.filter_append, List.length_append]
  congr 1
  by_cases h : f n = b <;> simp [h]

/-- A key given to `b` is one more. -/
theorem countOf_given {n b i : Nat} {f g : Nat → Nat} (hi : i < n) (hf : f i ≠ b) (hg : g i = b)
    (h : ∀ j, j < n → j ≠ i → g j = f j) : countOf n b g = countOf n b f + 1 := by
  induction n with
  | zero => exact absurd hi (Nat.not_lt_zero _)
  | succ n ih =>
    rw [countOf_succ, countOf_succ]
    by_cases hin : i = n
    · subst hin
      rw [if_pos hg, if_neg hf, countOf_congr fun j hj => h j (by omega) (by omega)]
    · rw [ih (by omega) fun j hj => h j (by omega), h n (by omega) (Ne.symm hin)]
      omega

namespace State

variable (s : State)

theorem countUsed_eq (p : Nat) :
    s.countUsed p = (countOf 576 p s.granOwner, countOf 1536 p fun i => s.granOwner (576 + i)) := rfl

/-- An HBM granule, or an Umber granule, that `b` is given is one more of its kind. -/
theorem countUsed_given {t : State} {i b : Nat} (hi : i < 2112) (hs : s.granOwner i ≠ b) (ht : t.granOwner i = b)
    (h : ∀ j, j < 2112 → j ≠ i → t.granOwner j = s.granOwner j) :
    t.countUsed b = if i < 576 then ((s.countUsed b).1 + 1, (s.countUsed b).2) else ((s.countUsed b).1, (s.countUsed b).2 + 1) := by
  rw [countUsed_eq, countUsed_eq]
  split
  · next hlt =>
    have hgiven := countOf_given hlt hs ht fun j hj => h j (by omega)
    have hkept : countOf 1536 b (fun k => t.granOwner (576 + k)) = countOf 1536 b fun k => s.granOwner (576 + k) :=
      countOf_congr fun j hj => h _ (by omega) (by omega)
    rw [hgiven, hkept]
  · next hge =>
    have hsub : 576 + (i - 576) = i := by omega
    have hkept : countOf 576 b t.granOwner = countOf 576 b s.granOwner := countOf_congr fun j hj => h _ (by omega) (by omega)
    have hgiven : countOf 1536 b (fun k => t.granOwner (576 + k)) = countOf 1536 b (fun k => s.granOwner (576 + k)) + 1 :=
      countOf_given (i := i - 576) (by omega) (by rw [hsub]; exact hs) (by rw [hsub]; exact ht)
        fun j hj hne => h _ (by omega) (by omega)
    rw [hkept, hgiven]

/-! ## A granule's owner -/

/-- The table with owner `b` of granule `i`. -/
def granted (i b : Nat) : State :=
  s.putF F.PRT_GRAN_OWNERS (i / 16) (setNibble (s.getF F.PRT_GRAN_OWNERS (i / 16)) (4 * (i % 16)) b)

theorem granOwner_congr {t : State} {j : Nat} (h : t.word (F.PRT_GRAN_OWNERS.off (j / 16)) = s.word (F.PRT_GRAN_OWNERS.off (j / 16))) :
    t.granOwner j = s.granOwner j := by
  unfold granOwner
  rw [getF_congr_word h]

theorem granOwner_granted {i b : Nat} (hb : b < 16) (j : Nat) : (s.granted i b).granOwner j = if j = i then b else s.granOwner j := by
  by_cases hw : j / 16 = i / 16
  · have hv : setNibble (s.getF F.PRT_GRAN_OWNERS (i / 16)) (4 * (i % 16)) b < 2 ^ 64 :=
      setNibble_lt (getF_lt s F.PRT_GRAN_OWNERS _) hb (Nat.mod_lt _ (by decide))
    have hword : (s.granted i b).getF F.PRT_GRAN_OWNERS (j / 16) =
        setNibble (s.getF F.PRT_GRAN_OWNERS (i / 16)) (4 * (i % 16)) b := by
      rw [hw, granted, getF_putF _ _ _ _ (by decide) (by decide)]
      exact Nat.mod_eq_of_lt hv
    have hsame : j % 16 = i % 16 ↔ j = i := by omega
    rw [granOwner, hword, natBits_setNibble hb, ← hw]
    simp only [hsame, granOwner]
  · rw [if_neg fun h => hw (congrArg (· / 16) h)]
    refine granOwner_congr s (word_putF_ne _ _ _ _ ?_)
    simp only [Fld.off, F.PRT_GRAN_OWNERS]
    omega

theorem refreshUsed_eq {p h u : Nat} (hc : s.countUsed p = (h, u)) :
    s.refreshUsed p = ((s.putF F.PRT_STATE_HBM_USED p h).putF F.PRT_STATE_UMB_USED p u).putF F.PRT_STATE_OVER_QUOTA p
      (if ((s.putF F.PRT_STATE_HBM_USED p h).putF F.PRT_STATE_UMB_USED p u).getF F.PRT_QUOTA_HBM_Q p < h ||
        ((s.putF F.PRT_STATE_HBM_USED p h).putF F.PRT_STATE_UMB_USED p u).getF F.PRT_QUOTA_UMB_Q p < u then 1 else 0) := by
  unfold refreshUsed
  rw [hc]

theorem regsOnly_trans {P : Nat → Prop} {t u : State} (h : RegsOnly P s t) (h' : RegsOnly P t u) : RegsOnly P s u := by
  obtain ⟨hst, hs⟩ := h
  obtain ⟨htu, ht⟩ := h'
  exact ⟨by rw [htu, hst], fun o ho => (ht o ho).trans (hs o ho)⟩

theorem putF_regsOnly {P : Nat → Prop} {f : Fld} {i : Nat} (h : P (f.off i)) (v : Nat) : RegsOnly P s (s.putF f i v) :=
  ⟨rfl, fun _ ho => word_putF_ne _ _ _ _ fun heq => ho (heq ▸ h)⟩

theorem putUsed_regsOnly (p h u e : Nat) : RegsOnly (· = F.PRT_STATE_READY.off p) s
    (((s.putF F.PRT_STATE_HBM_USED p h).putF F.PRT_STATE_UMB_USED p u).putF F.PRT_STATE_OVER_QUOTA p e) := by
  have put (v : State) {f : Fld} (hf : f.off p = F.PRT_STATE_READY.off p) (n : Nat) : RegsOnly (· = F.PRT_STATE_READY.off p) v (v.putF f p n) :=
    v.putF_regsOnly (P := (· = F.PRT_STATE_READY.off p)) hf n
  have hhbm := put s (f := F.PRT_STATE_HBM_USED) rfl h
  have humb := put (s.putF F.PRT_STATE_HBM_USED p h) (f := F.PRT_STATE_UMB_USED) rfl u
  exact regsOnly_trans _ (regsOnly_trans _ hhbm humb) (put _ (f := F.PRT_STATE_OVER_QUOTA) rfl e)

/-- The update of what a partition uses changes its `PRT_STATE` alone. -/
theorem refreshUsed_regsOnly (p : Nat) : RegsOnly (· = F.PRT_STATE_READY.off p) s (s.refreshUsed p) := by
  rw [refreshUsed_eq s Prod.mk.eta.symm]
  exact s.putUsed_regsOnly p _ _ _

theorem granOwner_refreshUsed {p j : Nat} (hp : p < 8) : (s.refreshUsed p).granOwner j = s.granOwner j := by
  have hoff : F.PRT_GRAN_OWNERS.off (j / 16) ≠ F.PRT_STATE_READY.off p := by
    simp only [Fld.off, F.PRT_GRAN_OWNERS, F.PRT_STATE_READY]
    omega
  obtain ⟨-, hword⟩ := s.refreshUsed_regsOnly p
  generalize s.refreshUsed p = t at hword ⊢
  exact granOwner_congr s (hword _ hoff)

theorem granStep_same (i a : Nat) : s.granStep i a a = some s := if_pos rfl

theorem granStep_free {i b h u : Nat} (hb : b < 8) (hw : s.granWiping i = false) (hc : (s.granted i b).countUsed b = (h, u)) :
    s.granStep i 15 b =
      if (s.granted i b).getF F.PRT_QUOTA_HBM_Q b < h || (s.granted i b).getF F.PRT_QUOTA_UMB_Q b < u then none
      else some ((s.granted i b).refreshUsed b) := by
  unfold granted setNibble at hc ⊢
  unfold granStep
  rw [if_neg (by omega), if_pos hb, hw]
  refine (if_neg (by decide)).trans ?_
  dsimp only
  rw [hc]

/-- A free granule goes to a partition within its quota. -/
theorem granStep_given {i b : Nat} (hb : b < 8) (hw : s.granWiping i = false)
    (hh : ((s.granted i b).countUsed b).1 ≤ s.getF F.PRT_QUOTA_HBM_Q b) (hu : ((s.granted i b).countUsed b).2 ≤ s.getF F.PRT_QUOTA_UMB_Q b) :
    s.granStep i 15 b = some ((s.granted i b).refreshUsed b) := by
  have hquota (f : Fld) (hf : f.off b ≠ F.PRT_GRAN_OWNERS.off (i / 16)) : (s.granted i b).getF f b = s.getF f b := getF_putF_off _ _ _ _ _ _ hf
  have hapart : F.PRT_QUOTA_HBM_Q.off b ≠ F.PRT_GRAN_OWNERS.off (i / 16) := by
    simp only [Fld.off, F.PRT_GRAN_OWNERS, F.PRT_QUOTA_HBM_Q]
    omega
  rw [granStep_free s hb hw Prod.mk.eta.symm, if_neg]
  rw [hquota F.PRT_QUOTA_HBM_Q hapart, hquota F.PRT_QUOTA_UMB_Q hapart]
  simp only [Bool.or_eq_true, decide_eq_true_eq, not_or, Nat.not_lt]
  exact ⟨hh, hu⟩

/-- The granule is taken from the partition, and is to be wiped. -/
def freed (i a : Nat) : State :=
  ((((s.granted i 15).refreshUsed a).modPart a fun x => { x with wipeGrans := x.wipeGrans ++ [i] }).arriveWork)

theorem refreshUsed_frame (p : Nat) : s.refreshUsed p = { s with regs := (s.refreshUsed p).regs } := by
  obtain ⟨hframe, -⟩ := s.refreshUsed_regsOnly p
  exact hframe

theorem parts_freed (i a : Nat) :
    (s.freed i a).parts = (s.modPart a fun x => { x with wipeGrans := x.wipeGrans ++ [i] }).parts := by
  have hframe := (s.granted i 15).refreshUsed_frame a
  unfold freed
  generalize (s.granted i 15).refreshUsed a = t at hframe ⊢
  have hparts : t.parts = s.parts := by
    rw [hframe]
    rfl
  rw [(PowerOnly.arriveWork _).frame]
  simp only [modPart, setPart, part, hparts]

theorem mem_freed (i a : Nat) : (s.freed i a).mem = s.mem := by
  have hframe := (s.granted i 15).refreshUsed_frame a
  unfold freed
  generalize (s.granted i 15).refreshUsed a = t at hframe ⊢
  rw [(PowerOnly.arriveWork _).frame, hframe]
  rfl

theorem granOwner_modPart (p : Nat) (g : Part → Part) (j : Nat) : (s.modPart p g).granOwner j = s.granOwner j := rfl

theorem granOwner_arriveWork (j : Nat) : s.arriveWork.granOwner j = s.granOwner j := by
  refine granOwner_congr s ((PowerOnly.arriveWork s).word _ ?_)
  simp only [Fld.off, F.PRT_GRAN_OWNERS]
  omega

theorem granOwner_freed (i : Nat) {a : Nat} (j : Nat) (ha : a < 8) :
    (s.freed i a).granOwner j = if j = i then 15 else s.granOwner j := by
  rw [freed, granOwner_arriveWork, granOwner_modPart, granOwner_refreshUsed _ ha, granOwner_granted _ (by decide)]

theorem granStep_freed {i a : Nat} (ha : a < 8) (hr : s.running a = false) : s.granStep i a 15 = some (s.freed i a) := by
  unfold granStep
  rw [if_neg (by omega), if_neg (by decide), if_pos ⟨rfl, ha⟩, hr]
  rfl

/-- A granule of a partition goes to no other, and is not freed while the partition runs. -/
theorem granStep_refused {i a b : Nat} (ha : a < 8) (hne : b ≠ a) (h : b ≠ 15 ∨ s.running a = true) : s.granStep i a b = none := by
  unfold granStep
  rw [if_neg (Ne.symm hne)]
  split
  · refine if_pos ?_
    rw [decide_eq_true (by omega : a ≠ 15)]
    rfl
  · split
    · next h15 => exact if_pos (h.resolve_left (not_not.2 h15.1))
    · rfl

/-! ## A word of the table -/

/-- One granule of a word that is written. -/
def granTurn (i : Nat) (v : Word) (o : Option State) (m : Nat) : Option State :=
  o.bind fun s => s.granStep (16 * i + m) (s.granOwner (16 * i + m)) (getBits v (4 * m + 3) (4 * m))

theorem granWord_eq (i : Nat) (v : Word) : s.granWord i v = (List.range 16).foldl (granTurn i v) (some s) := rfl

theorem granTurn_fixed {i : Nat} {v : Word} {l : List Nat} (h : ∀ m ∈ l, getBits v (4 * m + 3) (4 * m) = s.granOwner (16 * i + m)) :
    l.foldl (granTurn i v) (some s) = some s := by
  induction l with
  | nil => rfl
  | cons m l ih =>
    have hm : granTurn i v (some s) m = some s := by
      rw [granTurn, Option.bind_some, h m List.mem_cons_self, granStep_same]
    rw [List.foldl_cons, hm]
    exact ih fun k hk => h k (List.mem_cons_of_mem _ hk)

theorem granTurn_none (i : Nat) (v : Word) (l : List Nat) : l.foldl (granTurn i v) none = none := by
  induction l with
  | nil => rfl
  | cons m l ih => exact ih

/-- A word that names another owner of one granule only: that one's step decides. -/
theorem granWord_of_one {i m : Nat} {v : Word} (hm : m < 16)
    (h : ∀ k, k < 16 → k ≠ m → getBits v (4 * k + 3) (4 * k) = s.granOwner (16 * i + k))
    {r : Option State} (hr : s.granStep (16 * i + m) (s.granOwner (16 * i + m)) (getBits v (4 * m + 3) (4 * m)) = r)
    (hothers : ∀ u, r = some u → ∀ k, k < 16 → k ≠ m → u.granOwner (16 * i + k) = s.granOwner (16 * i + k)) :
    s.granWord i v = r := by
  have hrange : List.range 16 = List.range m ++ m :: (List.range' (m + 1) (15 - m)) := by
    rw [List.range_eq_range', List.range_eq_range', show (16 : Nat) = m + (1 + (15 - m)) by omega, ← List.range'_append_1,
      ← List.range'_append_1]
    simp [List.range'_one]
  have hbefore : (List.range m).foldl (granTurn i v) (some s) = some s :=
    s.granTurn_fixed fun k hk => h k (by have := List.mem_range.1 hk; omega) (by have := List.mem_range.1 hk; omega)
  have hturn : granTurn i v (some s) m = r := hr
  rw [granWord_eq, hrange, List.foldl_append, hbefore, List.foldl_cons, hturn]
  cases r with
  | none => exact granTurn_none _ _ _
  | some u =>
    refine u.granTurn_fixed fun k hk => ?_
    have hk' := List.mem_range'_1.1 hk
    rw [hothers u rfl k (by omega) (by omega)]
    exact h k (by omega) (by omega)

theorem exec_prtGranWrite {f : Func} {i : Nat} {v : Word} (hi : i < 132) (hopen : Open s f (F.PRT_GRAN_OWNERS.off i)) :
    exec (.prtGranWrite f i v) s = .next ((s.granWord i v).getD (s.genErr f 1 (F.PRT_GRAN_OWNERS.off i))) :=
  congrArg Host.Outcome.next ((s.gated_of_open hopen _).trans (if_neg (by omega)))

/-! ## Clusters -/

/-- A register outside the cleared range. -/
theorem word_clearRegs {a b o : Nat} (h : o < a) : (s.clearRegs a b).word o = s.word o := by
  refine (mget_filter_key _ _ (fun k => decide (k < a) || decide (b ≤ k)) o).trans (if_pos ?_)
  rw [decide_eq_true h, Bool.true_or]

theorem clearTileRegs_regsOnly (g : Nat) : RegsOnly (0x100_0000 ≤ ·) s (s.clearTileRegs g) := by
  refine ⟨rfl, fun o ho => ?_⟩
  unfold clearTileRegs
  rw [word_clearRegs _ (by omega), word_clearRegs _ (by omega)]

theorem regsOnly_foldl {β : Type} {P : Nat → Prop} {act : State → β → State} (h : ∀ v x, RegsOnly P v (act v x)) (l : List β) :
    RegsOnly P s (l.foldl act s) := by
  induction l generalizing s with
  | nil => exact ⟨rfl, fun _ _ => rfl⟩
  | cons x l ih => exact regsOnly_trans s (h s x) (ih _)

theorem rd8_wipe (a n b : Nat) : (s.wipe a n).rd8 b = if b < a ∨ a + n ≤ b then s.rd8 b else 0 := by
  refine (mget_filter_key _ _ (fun k => decide (k < a) || decide (a + n ≤ k)) b).trans ?_
  simp only [Bool.or_eq_true, decide_eq_true_eq]
  rfl

theorem rd8_wipe_or (a n b : Nat) : (s.wipe a n).rd8 b = s.rd8 b ∨ (s.wipe a n).rd8 b = 0 := by
  rw [rd8_wipe]
  split
  · exact .inl rfl
  · exact .inr rfl

/-- The stores of the clusters `l` read 0 and their tiles are as after reset; other tiles stand, and the registers below the
tiles'. -/
structure ClustersWiped (l : List Nat) (s t : State) : Prop where
  frame : t = { s with regs := t.regs, mem := t.mem, tiles := t.tiles, cmovers := t.cmovers, history := t.history }
  word : ∀ o, o < 0x100_0000 → t.word o = s.word o
  zero : ∀ a, s.rd8 a = 0 → t.rd8 a = 0
  stores : ∀ c ∈ l, ∀ x, x < 8 * 0x10_0000 → t.rd8 (tileAddr (8 * c) + x) = 0
  tile : ∀ g, t.tile g = if g / 8 ∈ l then Tile.reset else s.tile g

theorem wipeCluster_wiped (c : Nat) : ClustersWiped [c] s (s.wipeCluster c) := by
  unfold wipeCluster
  extract_lets wiped cleared
  have hmem (a : Nat) : wiped.rd8 a = s.rd8 a ∨ wiped.rd8 a = 0 := by
    rcases rd8_wipe_or ((s.wipe (clusterAddr c) 0x200_0000).wipe (tileAddr (8 * c)) (8 * 0x10_0000)) (istoreAddr (8 * c)) (8 * 0x2_0000) a
      with h | h
    · rcases rd8_wipe_or (s.wipe (clusterAddr c) 0x200_0000) (tileAddr (8 * c)) (8 * 0x10_0000) a with h' | h'
      · exact (rd8_wipe_or s (clusterAddr c) 0x200_0000 a).imp (h.trans h').trans (h.trans h').trans
      · exact .inr (h.trans h')
    · exact .inr h
  have hstores (x : Nat) (hx : x < 8 * 0x10_0000) : wiped.rd8 (tileAddr (8 * c) + x) = 0 := by
    simp only [wiped, rd8_wipe]
    rw [if_neg (c := _ ∨ tileAddr (8 * c) + 8 * 0x10_0000 ≤ _) (by omega)]
    split <;> rfl
  have hwiped : wiped = { s with mem := wiped.mem } := rfl
  have hregs (o : Nat) : wiped.word o = s.word o := rfl
  clear_value wiped
  obtain ⟨hframe, hword⟩ : RegsOnly (0x100_0000 ≤ ·) wiped cleared := wiped.regsOnly_foldl (fun v i => v.clearTileRegs_regsOnly _) _
  have hcleared : cleared.mem = wiped.mem := by rw [hframe]
  clear_value cleared
  refine ⟨by rw [hframe, hwiped], fun o ho => ?_, fun a ha => ?_, fun c' hc' x hx => ?_, fun g => ?_⟩
  · exact (congrArg (fun r => mget (regReset o) r o) (by rfl)).trans ((hword o (Nat.not_le.2 ho)).trans (hregs o))
  · exact (congrArg (mget 0 · a) hcleared).trans ((hmem a).elim (·.trans ha) id)
  · rw [List.mem_singleton.1 hc']
    exact (congrArg (mget 0 · _) hcleared).trans (hstores x hx)
  · refine (mget_filter_key _ _ (fun k => decide (k / 8 ≠ c)) g).trans ?_
    have htiles : cleared.tiles = s.tiles := by rw [hframe, hwiped]
    rw [htiles]
    by_cases hg : g / 8 = c
    · rw [if_neg (by simpa using hg), if_pos (List.mem_singleton.2 hg)]
    · rw [if_pos (by simpa using hg), if_neg (mt List.mem_singleton.1 hg)]
      rfl

theorem wipeClusters_wiped (l : List Nat) : ClustersWiped l s (l.foldl wipeCluster s) := by
  induction l generalizing s with
  | nil => exact ⟨rfl, fun _ _ => rfl, fun _ => id, fun _ hc => absurd hc List.not_mem_nil, fun _ => rfl⟩
  | cons c l ih =>
    have h1 := s.wipeCluster_wiped c
    have h2 := ih (s.wipeCluster c)
    rw [List.foldl_cons]
    generalize s.wipeCluster c = t at h1 h2 ⊢
    generalize l.foldl wipeCluster t = u at h2 ⊢
    refine ⟨by rw [h2.frame, h1.frame], fun o ho => (h2.word o ho).trans (h1.word o ho), fun a ha => h2.zero a (h1.zero a ha),
      fun c' hc' x hx => ?_, fun g => ?_⟩
    · rcases List.mem_cons.1 hc' with rfl | hc'
      · exact h2.zero _ (h1.stores _ (List.mem_singleton.2 rfl) x hx)
      · exact h2.stores c' hc' x hx
    · rw [h2.tile, h1.tile]
      by_cases hl : g / 8 ∈ l
      · rw [if_pos hl, if_pos (List.mem_cons_of_mem _ hl)]
      · rw [if_neg hl]
        simp only [List.mem_cons, hl, or_false, List.not_mem_nil]

/-- Bit `c` of the exclusive or is set where the masks differ. -/
theorem natBits_xor (m n c : Nat) : natBits (m ^^^ n) c c = 1 ↔ m.testBit c ≠ n.testBit c := by
  have hbit : natBits (m ^^^ n) c c = ((m ^^^ n).testBit c).toNat := by
    unfold natBits
    rw [Nat.testBit_eq_decide_div_mod_eq, Nat.shiftRight_eq_div_pow, show c + 1 - c = 1 by omega]
    rcases Nat.mod_two_eq_zero_or_one ((m ^^^ n) / 2 ^ c) with h | h <;> simp [h]
  rw [hbit, Nat.testBit_xor]
  cases m.testBit c <;> cases n.testBit c <;> decide

/-- The clusters that a new mask gives or takes. -/
def changedClusters (new old : Nat) : List Nat := (List.range 32).filter fun c => natBits (new ^^^ old) c c = 1

theorem mem_changedClusters {new old c : Nat} : c ∈ changedClusters new old ↔ c < 32 ∧ new.testBit c ≠ old.testBit c := by
  rw [changedClusters, List.mem_filter, List.mem_range, decide_eq_true_eq, natBits_xor]

theorem exec_prtClustersWrite {f : Func} {p : Nat} {v : Word} (hopen : Open s f (F.PRT_CLUSTERS_MASK.off p)) :
    exec (.prtClustersWrite f p v) s = .next
      (if (List.range 8).any (fun q => q ≠ p && s.getF F.PRT_CLUSTERS_MASK q &&& getBits v 31 0 ≠ 0) ||
          (getBits v 31 0 ≠ s.getF F.PRT_CLUSTERS_MASK p && s.running p) then s.genErr f 1 (F.PRT_CLUSTERS_MASK.off p)
        else (changedClusters (getBits v 31 0) (s.getF F.PRT_CLUSTERS_MASK p)).foldl wipeCluster
          (s.putF F.PRT_CLUSTERS_MASK p (getBits v 31 0))) :=
  congrArg Host.Outcome.next (s.gated_of_open hopen _)

/-- A mask of the register. -/
theorem getF_mask_putF {p q v : Nat} (hv : v < 2 ^ 32) :
    (s.putF F.PRT_CLUSTERS_MASK p v).getF F.PRT_CLUSTERS_MASK q = if q = p then v else s.getF F.PRT_CLUSTERS_MASK q := by
  split
  · next h =>
    rw [h, getF_putF _ _ _ _ (by decide) (by decide)]
    exact Nat.mod_eq_of_lt hv
  · next h =>
    refine getF_putF_off _ _ _ _ _ _ ?_
    simp only [Fld.off, F.PRT_CLUSTERS_MASK]
    omega

/-! ## Quotas -/

theorem countUsed_congr {t : State} (h : ∀ i, t.word (F.PRT_GRAN_OWNERS.off i) = s.word (F.PRT_GRAN_OWNERS.off i)) (p : Nat) :
    t.countUsed p = s.countUsed p := by
  have howner : t.granOwner = s.granOwner := funext fun j => granOwner_congr s (h _)
  rw [countUsed_eq, countUsed_eq, howner]

theorem countUsed_le (p : Nat) : (s.countUsed p).1 ≤ 576 ∧ (s.countUsed p).2 ≤ 1536 := by
  have hbm := countOf_le 576 p s.granOwner
  have humb := countOf_le 1536 p fun i => s.granOwner (576 + i)
  rw [countUsed_eq]
  dsimp only
  exact ⟨hbm, humb⟩

/-- A quota written is compared with what the partition owns. -/
theorem quotaWritten {p h w : Nat} (hp : p < 8) (hh : h < 2 ^ 10) (hw : w < 2 ^ 11) :
    let u := ((s.putF F.PRT_QUOTA_HBM_Q p h).putF F.PRT_QUOTA_UMB_Q p w).refreshUsed p
    u.getF F.PRT_QUOTA_HBM_Q p = h ∧ u.getF F.PRT_QUOTA_UMB_Q p = w ∧ u.getF F.PRT_STATE_HBM_USED p = (s.countUsed p).1 ∧
      u.getF F.PRT_STATE_OVER_QUOTA p = (if h < (s.countUsed p).1 ∨ w < (s.countUsed p).2 then 1 else 0) ∧
      RegsOnly (fun o => o = F.PRT_QUOTA_HBM_Q.off p ∨ o = F.PRT_STATE_READY.off p) s u := by
  intro u
  obtain ⟨hhbm, humb⟩ := s.countUsed_le p
  have hquota (i : Nat) : F.PRT_GRAN_OWNERS.off i ≠ F.PRT_QUOTA_HBM_Q.off p := by
    simp only [Fld.off, F.PRT_GRAN_OWNERS, F.PRT_QUOTA_HBM_Q]
    omega
  have hapart : F.PRT_QUOTA_HBM_Q.off p ≠ F.PRT_STATE_READY.off p := by
    simp only [Fld.off, F.PRT_STATE_READY, F.PRT_QUOTA_HBM_Q]
    omega
  have hputs : RegsOnly (· = F.PRT_QUOTA_HBM_Q.off p) s ((s.putF F.PRT_QUOTA_HBM_Q p h).putF F.PRT_QUOTA_UMB_Q p w) := by
    refine ⟨rfl, fun o ho => ?_⟩
    rw [word_putF_ne _ F.PRT_QUOTA_UMB_Q p w ho, word_putF_ne _ F.PRT_QUOTA_HBM_Q p h ho]
  have hputh : ((s.putF F.PRT_QUOTA_HBM_Q p h).putF F.PRT_QUOTA_UMB_Q p w).getF F.PRT_QUOTA_HBM_Q p = h := by
    rw [getF_putF_bits _ _ _ _ _ _ (.inl (by decide)), getF_putF _ _ _ _ (by decide) (by decide)]
    exact Nat.mod_eq_of_lt hh
  have hputw : ((s.putF F.PRT_QUOTA_HBM_Q p h).putF F.PRT_QUOTA_UMB_Q p w).getF F.PRT_QUOTA_UMB_Q p = w := by
    rw [getF_putF _ _ _ _ (by decide) (by decide)]
    exact Nat.mod_eq_of_lt hw
  obtain ⟨hframe, hword⟩ := hputs
  have hcount := countUsed_congr s (fun i => hword _ (hquota i)) p
  have hused := ((s.putF F.PRT_QUOTA_HBM_Q p h).putF F.PRT_QUOTA_UMB_Q p w).refreshUsed_regsOnly p
  change RegsOnly _ _ u at hused
  have hu : u = ((s.putF F.PRT_QUOTA_HBM_Q p h).putF F.PRT_QUOTA_UMB_Q p w).refreshUsed p := rfl
  clear_value u
  generalize (s.putF F.PRT_QUOTA_HBM_Q p h).putF F.PRT_QUOTA_UMB_Q p w = t at *
  obtain ⟨⟨n, m⟩, hc⟩ : ∃ c, s.countUsed p = c := ⟨_, rfl⟩
  rw [hc] at hcount hhbm humb ⊢
  rw [refreshUsed_eq t hcount] at hu
  obtain ⟨huframe, huword⟩ := hused
  have hcmp (f : Fld) (hf : f.off p = F.PRT_QUOTA_HBM_Q.off p) :
      ((t.putF F.PRT_STATE_HBM_USED p n).putF F.PRT_STATE_UMB_USED p m).getF f p = t.getF f p := by
    rw [getF_putF_off _ _ _ _ _ _ (by rw [hf]; exact hapart), getF_putF_off _ _ _ _ _ _ (by rw [hf]; exact hapart)]
  refine ⟨(getF_congr_word (huword _ hapart)).trans hputh, (getF_congr_word (f := F.PRT_QUOTA_UMB_Q) (huword _ hapart)).trans hputw, ?_, ?_, ?_⟩
  · rw [hu, getF_putF_bits _ _ _ _ _ _ (.inr (by decide)), getF_putF_bits _ _ _ _ _ _ (.inl (by decide)),
      getF_putF _ _ _ _ (by decide) (by decide)]
    exact Nat.mod_eq_of_lt (lt_of_le_of_lt hhbm (by decide))
  · rw [hu, getF_putF _ _ _ _ (by decide) (by decide), hcmp F.PRT_QUOTA_HBM_Q rfl, hcmp F.PRT_QUOTA_UMB_Q rfl, hputh, hputw]
    simp only [Bool.or_eq_true, decide_eq_true_eq]
    split <;> rfl
  · refine ⟨by rw [huframe, hframe], fun o ho => ?_⟩
    rw [huword o fun h => ho (.inr h), hword o fun h => ho (.inl h)]

/-! ## A write that is discarded -/

/-- A discarded write is counted in `GEN_ERR`. -/
theorem discard_genErr (f : Func) (o : Nat) :
    (s.genErr f 1 o).getF F.GEN_ERR_DISCARD 0 = min (s.getF F.GEN_ERR_DISCARD 0 + 1) (2 ^ F.GEN_ERR_DISCARD.width - 1) := by
  have hside := (s.genErr_after_genErrIn f 1 o).word (F.GEN_ERR_DISCARD.off 0) (not_sideLogOffset_of_lt (by decide))
  rw [getF_congr_word hside, if_neg (by decide)]
  unfold genErrIn
  extract_lets counted
  have hcounted : counted.getF F.GEN_ERR_DISCARD 0 = min (s.getF F.GEN_ERR_DISCARD 0 + 1) (2 ^ F.GEN_ERR_DISCARD.width - 1) :=
    getF_bumpBy _ _ _ _ (by decide) (by decide)
  clear_value counted
  split
  · exact hcounted
  · rw [getF_putF_bits _ _ _ _ _ _ (.inr (by decide)), getF_putF_bits _ _ _ _ _ _ (.inr (by decide)),
      getF_putF_bits _ _ _ _ _ _ (.inr (by decide)), getF_putF_bits _ _ _ _ _ _ (.inr (by decide))]
    exact hcounted

theorem granOwner_genErr (f : Func) (o j : Nat) (hj : j < 2112) : (s.genErr f 1 o).granOwner j = s.granOwner j := by
  refine granOwner_congr s ((s.genErr_logsOnly f 1 o).word _ ?_)
  rintro (h | ⟨k, h⟩ | h | h)
  all_goals simp only [Fld.off, F.PRT_GRAN_OWNERS, F.GEN_ERR_VALID, F.GEN_VERR_VALID, F.DMA_MEVT_CAUSE, F.TST_ELOG_INFO_LOST] at h; omega

end State
end Sys2Proof.Machine

namespace Sys2Proof
open Machine State

theorem prtGran_given {s : State} {f : Func} {i m b : Nat} {v : Word} (hi : i < 132) (hm : m < 16)
    (hopen : Open s f (F.PRT_GRAN_OWNERS.off i))
    (hothers : ∀ k, k < 16 → k ≠ m → getBits v (4 * k + 3) (4 * k) = s.granOwner (16 * i + k))
    (ha : s.granOwner (16 * i + m) = 15) (hb : getBits v (4 * m + 3) (4 * m) = b) (hb8 : b < 8) (hw : s.granWiping (16 * i + m) = false)
    (hquota : if 16 * i + m < 576 then (s.countUsed b).1 + 1 ≤ s.getF F.PRT_QUOTA_HBM_Q b ∧ (s.countUsed b).2 ≤ s.getF F.PRT_QUOTA_UMB_Q b
      else (s.countUsed b).1 ≤ s.getF F.PRT_QUOTA_HBM_Q b ∧ (s.countUsed b).2 + 1 ≤ s.getF F.PRT_QUOTA_UMB_Q b) :
    ∃ u, exec (.prtGranWrite f i v) s = .next u ∧ u.granOwner (16 * i + m) = b ∧
      (∀ j, j < 2112 → j ≠ 16 * i + m → u.granOwner j = s.granOwner j) ∧ u = { s with regs := u.regs } := by
  have howner (j : Nat) : ((s.granted (16 * i + m) b).refreshUsed b).granOwner j = if j = 16 * i + m then b else s.granOwner j :=
    (granOwner_refreshUsed _ hb8).trans (s.granOwner_granted (by omega) j)
  have hcount := s.countUsed_given (t := s.granted (16 * i + m) b) (i := 16 * i + m) (b := b) (by omega) (by omega)
    ((s.granOwner_granted (by omega) _).trans (if_pos rfl)) fun j _ hj => (s.granOwner_granted (by omega) _).trans (if_neg hj)
  have hgiven : s.granStep (16 * i + m) (s.granOwner (16 * i + m)) (getBits v (4 * m + 3) (4 * m)) =
      some ((s.granted (16 * i + m) b).refreshUsed b) := by
    rw [ha, hb]
    refine s.granStep_given hb8 hw ?_ ?_
    all_goals
      rw [hcount]
      split at hquota
      · next hlt => simp only [if_pos hlt]; omega
      · next hge => simp only [if_neg hge]; omega
  have hword := s.granWord_of_one hm hothers hgiven fun u hu k _ hk => by
    rw [← Option.some.inj hu, howner, if_neg (by omega)]
  have hframe : (s.granted (16 * i + m) b).refreshUsed b = { s with regs := ((s.granted (16 * i + m) b).refreshUsed b).regs } := 
    (s.granted (16 * i + m) b).refreshUsed_frame b
  refine ⟨(s.granted (16 * i + m) b).refreshUsed b, ?_, (howner _).trans (if_pos rfl), fun j _ hj => (howner j).trans (if_neg hj), hframe⟩
  rw [s.exec_prtGranWrite hi hopen, hword, Option.getD_some]

theorem prtGran_freed {s : State} {f : Func} {i m a : Nat} {v : Word} (hi : i < 132) (hm : m < 16)
    (hopen : Open s f (F.PRT_GRAN_OWNERS.off i))
    (hothers : ∀ k, k < 16 → k ≠ m → getBits v (4 * k + 3) (4 * k) = s.granOwner (16 * i + k))
    (ha : s.granOwner (16 * i + m) = a) (hb : getBits v (4 * m + 3) (4 * m) = 15) (ha8 : a < 8) (hr : s.running a = false) :
    ∃ u, exec (.prtGranWrite f i v) s = .next u ∧ u.granOwner (16 * i + m) = 15 ∧
      (∀ j, j < 2112 → j ≠ 16 * i + m → u.granOwner j = s.granOwner j) ∧
      u.part a = { s.part a with wipeGrans := (s.part a).wipeGrans ++ [16 * i + m] } ∧ MemSame s u ∧
      ∀ q, q ≠ a → u.part q = s.part q := by
  have hparts := s.parts_freed (16 * i + m) a
  have hmem := s.mem_freed (16 * i + m) a
  have howner (j : Nat) := s.granOwner_freed (16 * i + m) j ha8
  have hfreed : s.granStep (16 * i + m) (s.granOwner (16 * i + m)) (getBits v (4 * m + 3) (4 * m)) = some (s.freed (16 * i + m) a) := by
    rw [ha, hb]
    exact s.granStep_freed ha8 hr
  have hword := s.granWord_of_one hm hothers hfreed fun u hu k _ hk => by
    rw [← Option.some.inj hu, howner, if_neg (by omega)]
  refine ⟨s.freed (16 * i + m) a, ?_, (howner _).trans (if_pos rfl), fun j _ hne => (howner j).trans (if_neg hne), ?_,
    fun x => congrArg (mget 0 · x) hmem, fun q hq => ?_⟩
  · rw [s.exec_prtGranWrite hi hopen, hword, Option.getD_some]
  · rw [part_congr hparts, part_modPart]
  · rw [part_congr hparts, modPart, part_setPart_ne _ _ hq]

theorem prtGran_refused {s : State} {f : Func} {i m a b : Nat} {v : Word} (hi : i < 132) (hm : m < 16)
    (hopen : Open s f (F.PRT_GRAN_OWNERS.off i))
    (hothers : ∀ k, k < 16 → k ≠ m → getBits v (4 * k + 3) (4 * k) = s.granOwner (16 * i + k))
    (ha : s.granOwner (16 * i + m) = a) (hb : getBits v (4 * m + 3) (4 * m) = b) (ha8 : a < 8) (hne : b ≠ a)
    (h : b ≠ 15 ∨ s.running a = true) :
    ∃ u, exec (.prtGranWrite f i v) s = .next u ∧ u = s.genErr f 1 (F.PRT_GRAN_OWNERS.off i) ∧
      (∀ j, j < 2112 → u.granOwner j = s.granOwner j) ∧ u.parts = s.parts ∧
      u.getF F.GEN_ERR_DISCARD 0 = min (s.getF F.GEN_ERR_DISCARD 0 + 1) (2 ^ F.GEN_ERR_DISCARD.width - 1) := by
  have hrefused : s.granStep (16 * i + m) (s.granOwner (16 * i + m)) (getBits v (4 * m + 3) (4 * m)) = none := by
    rw [ha, hb]
    exact s.granStep_refused ha8 hne h
  have hword := s.granWord_of_one hm hothers hrefused fun u hu => nomatch hu
  refine ⟨_, ?_, rfl, fun j hj => s.granOwner_genErr f _ j hj, by rw [(s.genErr_logsOnly f 1 _).frame], s.discard_genErr f _⟩
  rw [s.exec_prtGranWrite hi hopen, hword, Option.getD_none]

/-- The masks of other partitions share no cluster with the new one, and the partition does not run or keeps its mask. -/
def maskTaken (s : State) (p new : Nat) : Bool :=
  (List.range 8).all (fun q => q = p || s.getF F.PRT_CLUSTERS_MASK q &&& new = 0) && (new = s.getF F.PRT_CLUSTERS_MASK p || !s.running p)

theorem not_maskTaken (s : State) (p new : Nat) :
    ((List.range 8).any (fun q => q ≠ p && s.getF F.PRT_CLUSTERS_MASK q &&& new ≠ 0) ||
      (new ≠ s.getF F.PRT_CLUSTERS_MASK p && s.running p)) = !maskTaken s p new := by
  unfold maskTaken
  rw [Bool.not_and, List.not_all_eq_any_not]
  congr 1
  · refine congrArg (List.any _) (funext fun q => ?_)
    by_cases hq : q = p <;> simp [hq]
  · by_cases hn : new = s.getF F.PRT_CLUSTERS_MASK p <;> simp [hn]

theorem prtClusters_taken {s : State} {f : Func} {p : Nat} {v : Word} (hp : p < 8) (hopen : Open s f (F.PRT_CLUSTERS_MASK.off p))
    (hok : maskTaken s p (getBits v 31 0) = true) :
    ∃ u, exec (.prtClustersWrite f p v) s = .next u ∧ u.getF F.PRT_CLUSTERS_MASK p = getBits v 31 0 ∧
      (∀ q, q < 8 → q ≠ p → u.getF F.PRT_CLUSTERS_MASK q = s.getF F.PRT_CLUSTERS_MASK q) ∧
      (∀ c, c < 32 → (getBits v 31 0).testBit c ≠ (s.getF F.PRT_CLUSTERS_MASK p).testBit c →
        (∀ x, x < 8 * 0x10_0000 → u.rd8 (tileAddr (8 * c) + x) = 0) ∧ ∀ k, k < 8 → u.tile (8 * c + k) = Tile.reset) ∧
      (∀ c, c < 32 → (getBits v 31 0).testBit c = (s.getF F.PRT_CLUSTERS_MASK p).testBit c →
        ∀ k, k < 8 → u.tile (8 * c + k) = s.tile (8 * c + k)) ∧
      u = { s with regs := u.regs, mem := u.mem, tiles := u.tiles, cmovers := u.cmovers, history := u.history } := by
  have hwiped := (s.putF F.PRT_CLUSTERS_MASK p (getBits v 31 0)).wipeClusters_wiped
    (changedClusters (getBits v 31 0) (s.getF F.PRT_CLUSTERS_MASK p))
  have hmask (q : Nat) (hq : q < 8) := (getF_congr_word (f := F.PRT_CLUSTERS_MASK) (i := q) (hwiped.word _ (by
    simp only [Fld.off, F.PRT_CLUSTERS_MASK]
    omega))).trans (s.getF_mask_putF (p := p) (getBits_lt v 31 0))
  have hdiv (c k : Nat) (hk : k < 8) : (8 * c + k) / 8 = c := by omega
  refine ⟨_, ?_, (hmask p hp).trans (if_pos rfl), fun q hq hne => (hmask q hq).trans (if_neg hne), fun c hc hdiff =>
    ⟨hwiped.stores c (mem_changedClusters.2 ⟨hc, hdiff⟩), fun k hk => ?_⟩, fun c _ hsame k hk => ?_, ?_⟩
  · rw [s.exec_prtClustersWrite hopen, not_maskTaken, hok]
    rfl
  · rw [hwiped.tile, hdiv c k hk, if_pos (mem_changedClusters.2 ⟨hc, hdiff⟩)]
  · rw [hwiped.tile, hdiv c k hk, if_neg fun hmem => (mem_changedClusters.1 hmem).2 hsame]
    rfl
  · rw [hwiped.frame]
    rfl

theorem prtQuota_taken {s : State} {f : Func} {p : Nat} {v : Word} (hp : p < 8) (hopen : Open s f (F.PRT_QUOTA_HBM_Q.off p)) :
    ∃ u, exec (.prtQuotaWrite f p v) s = .next u ∧ u.getF F.PRT_QUOTA_HBM_Q p = getBits v 9 0 ∧
      u.getF F.PRT_QUOTA_UMB_Q p = getBits v 42 32 ∧ u.getF F.PRT_STATE_HBM_USED p = (s.countUsed p).1 ∧
      u.getF F.PRT_STATE_OVER_QUOTA p =
        (if getBits v 9 0 < (s.countUsed p).1 ∨ getBits v 42 32 < (s.countUsed p).2 then 1 else 0) ∧
      RegsOnly (fun o => o = F.PRT_QUOTA_HBM_Q.off p ∨ o = F.PRT_STATE_READY.off p) s u :=
  ⟨_, congrArg Host.Outcome.next (s.gated_of_open hopen _), s.quotaWritten hp (getBits_lt v 9 0) (getBits_lt v 42 32)⟩

/-- Settles O45: one granule's step decides a write of a table word, as the others' owners stand; the clusters that a mask
changes are wiped, and a quota is compared with what is owned. -/
theorem partitionAllocation : Obligations.PartitionAllocation := by
  unfold Obligations.PartitionAllocation
  refine ⟨fun s f i m a b v hi hm hopen hothers ha hb => ⟨fun ha15 hb8 hw hquota => ?_, fun ha8 hb15 hr => ?_, fun ha8 hne h =>
    prtGran_refused hi hm hopen hothers ha hb ha8 hne h⟩, fun s f p v hp hopen => ⟨prtClusters_taken hp hopen, fun hok => ?_⟩,
    fun s f p v hp hopen => prtQuota_taken hp hopen⟩
  · exact prtGran_given hi hm hopen hothers (ha.trans ha15) hb hb8 hw hquota
  · exact prtGran_freed hi hm hopen hothers ha (hb.trans hb15) ha8 hr
  · have hnot : maskTaken s p (getBits v 31 0) = false := hok
    rw [s.exec_prtClustersWrite hopen, not_maskTaken, hnot]
    rfl

end Sys2Proof
end

section
/-! Commands of the Ochre engines that move bytes (O26). -/

namespace Sys2Proof.Machine
namespace State

/-! ## Bytes read one by one -/

theorem rd_eq_map (s : State) (a n : Nat) : s.rd a n = (List.range n).map fun x => s.rd8 (a + x) := by
  induction n generalizing a with
  | zero => rfl
  | succ n ih =>
    rw [rd, ih, List.range_succ_eq_map, List.map_cons, List.map_map, Nat.add_zero]
    refine congrArg _ (List.map_congr_left fun x _ => ?_)
    rw [Function.comp_apply, Nat.add_assoc, Nat.add_comm 1, Nat.succ_eq_add_one]

theorem getElem_rd (s : State) {a n x : Nat} (h : x < (s.rd a n).length) : (s.rd a n)[x] = s.rd8 (a + x) := by
  simp only [rd_eq_map, List.getElem_map, List.getElem_range]

/-- Bytes that read alike one by one read alike together. -/
theorem rd_of_rd8 {s t : State} {a b n : Nat} (h : ∀ x, x < n → t.rd8 (b + x) = s.rd8 (a + x)) : t.rd b n = s.rd a n := by
  rw [rd_eq_map, rd_eq_map]
  exact List.map_congr_left fun x hx => h x (List.mem_range.1 hx)

theorem rd8_of_rd {s t : State} {a b n x : Nat} (h : t.rd b n = s.rd a n) (hx : x < n) : t.rd8 (b + x) = s.rd8 (a + x) := by
  have ht : x < (t.rd b n).length := by rwa [rd_length]
  have hs : x < (s.rd a n).length := by rwa [rd_length]
  rw [← getElem_rd t ht, ← getElem_rd s hs]
  simp only [h]

/-! ## Equal pieces laid one behind another -/

/-- `n` pieces of `k` bytes from `b` on. -/
def laid (b k : Nat) (piece : Nat → List Byte) (s : State) (n : Nat) : State :=
  (List.range n).foldl (fun s i => s.wr (b + k * i) (piece i)) s

variable {b k : Nat} {piece : Nat → List Byte} {s : State}

theorem laid_succ (n : Nat) : laid b k piece s (n + 1) = (laid b k piece s n).wr (b + k * n) (piece n) := by
  rw [laid, List.range_succ, List.foldl_append]
  rfl

theorem laid_memOnly (n : Nat) : MemOnly s (laid b k piece s n) := by
  induction n with
  | zero => exact .refl s
  | succ n ih =>
    rw [laid_succ]
    exact ih.wr _ _

theorem laid_outside (hk : ∀ i, (piece i).length = k) (n : Nat) {a : Nat} (h : a < b ∨ b + k * n ≤ a) :
    (laid b k piece s n).rd8 a = s.rd8 a := by
  induction n with
  | zero => rfl
  | succ n ih =>
    rw [Nat.mul_succ] at h
    rw [laid_succ, rd8_wr_ne _ _ _ _ (by rw [hk]; omega), ih (by omega)]

theorem laid_inside (hk : ∀ i, (piece i).length = k) {n i : Nat} (hi : i < n) :
    (laid b k piece s n).rd (b + k * i) k = piece i := by
  induction n with
  | zero => exact absurd hi (Nat.not_lt_zero i)
  | succ n ih =>
    rw [laid_succ]
    rcases Nat.lt_succ_iff_lt_or_eq.1 hi with hlt | rfl
    · refine (rd_of_rd8 fun x hx => rd8_wr_ne _ _ _ _ (.inl ?_)).trans (ih hlt)
      have hstep : k * (i + 1) ≤ k * n := Nat.mul_le_mul_left k hlt
      rw [Nat.mul_succ] at hstep
      omega
    · have hread := rd_wr (laid b k piece s i) (b + k * i) (piece i)
      rwa [hk] at hread

/-! ## The entries of a command -/

/-- All `n` entries are done, which left `t`. -/
def allDone (t : State) (n : Nat) : Progress := { st := t, done := n, stop := none }

/-- An entry all of whose accesses lie in the allocation is done. -/
theorem stepEntry_of_owned {p : Nat} {g : Progress} {accs : List (Nat × Nat × Bool)} {act : State → State} (hstop : g.stop = none)
    (h : ∀ a ∈ accs, g.st.ownsRange p a.1 a.2.1 a.2.2 = true) :
    stepEntry p g accs act = allDone (act g.st) (g.done + 1) := by
  have hnone : accs.findSome? (fun a => (g.st.firstBad p a.2.2 (a.2.1 / 256 + 2) a.1 a.2.1).map fun b => (a.2.2, b)) = none := by
    rw [List.findSome?_eq_none_iff]
    intro a ha
    rw [Option.map_eq_none_iff]
    exact Option.isNone_iff_eq_none.1 (h a ha)
  unfold stepEntry
  rw [hstop]
  dsimp only
  rw [hnone]
  rfl

/-- What a partition's allocation is does not depend on the bytes. -/
theorem ownsRange_memOnly {t : State} (h : MemOnly s t) (p a n : Nat) (w : Bool) : t.ownsRange p a n w = s.ownsRange p a n w := by
  refine ownsRange_congr (fun x => ?_) a n
  rw [h.frame]
  rfl

/-- A command whose i-th entry lays the i-th piece. -/
theorem entries_laid {p n : Nat} {accs : State → Nat → List (Nat × Nat × Bool)} {act : State → Nat → State → State}
    (hown : ∀ i, i < n → ∀ a ∈ accs (laid b k piece s i) i, s.ownsRange p a.1 a.2.1 a.2.2 = true)
    (hact : ∀ i, i < n → act (laid b k piece s i) i (laid b k piece s i) = (laid b k piece s i).wr (b + k * i) (piece i)) :
    (List.range n).foldl (fun g i => stepEntry p g (accs g.st i) (act g.st i)) (allDone s 0) =
      allDone (laid b k piece s n) n := by
  induction n with
  | zero => rfl
  | succ n ih =>
    have hbefore := ih (fun i hi => hown i (by omega)) fun i hi => hact i (by omega)
    rw [List.range_succ, List.foldl_append, hbefore, List.foldl_cons, List.foldl_nil, laid_succ, ← hact n (by omega)]
    have hlast := hown n (by omega)
    have hmem := laid_memOnly (b := b) (k := k) (piece := piece) (s := s) n
    generalize laid b k piece s n = t at hlast hmem ⊢
    exact stepEntry_of_owned rfl fun a ha => (ownsRange_memOnly hmem _ _ _ _).trans (hlast a ha)

/-! ## The start of a command -/

theorem ochFrame_of_starts {e opc : Nat} {f : Frame} (h : Starts s e f opc) (act : State → State) : s.ochFrame e f opc act = act s := by
  obtain ⟨hp, hon, hslots, hfrozen, hframes, hopc, hz⟩ := h
  unfold ochFrame
  dsimp only
  rw [hon, hfrozen, hframes, hslots, hopc, hz]
  simp [Nat.not_le.2 hp]

/-- What the queue owes once the command has started. -/
theorem ochStart_owes {s t : State} (e : Nat) (f : Frame) (status done : Nat) (hstarted : (t.och e f.part).started = (s.och e f.part).started)
    (hothers : ∀ e' q, e' * 8 + q ≠ e * 8 + f.part → t.och e' q = s.och e' q) : Sys2Proof.Owes s (t.ochStart e f status done) e f status done := by
  refine ⟨?_, fun e' q hne => ?_⟩
  · unfold ochStart modOch
    dsimp only
    rw [och_setOch, hstarted]
  · unfold ochStart modOch
    rw [och_setOch_ne _ _ hne, hothers e' q hne]

theorem ochStart_och (e : Nat) (f : Frame) (status done : Nat) :
    ∃ r, (s.ochStart e f status done).och e f.part = { s.och e f.part with started := (s.och e f.part).started ++ [r] } :=
  ⟨_, och_setOch s e f.part _⟩

theorem ochStart_frame (e : Nat) (f : Frame) (status done : Nat) :
    s.ochStart e f status done = { s with ochre := (s.ochStart e f status done).ochre } := rfl

/-- A command that has moved its bytes whole owes a record of success. -/
theorem ochEnd_done {s t : State} {e n : Nat} {f : Frame} (h : MemOnly s t) :
    Sys2Proof.Owes s (ochEnd (allDone t n) e f []) e f 0 n ∧
      (ochEnd (allDone t n) e f []).mem = t.mem ∧ OchMem s (ochEnd (allDone t n) e f []) := by
  have hend : ochEnd (allDone t n) e f [] = t.ochStart e f 0 n := rfl
  have hoch (e' q : Nat) : t.och e' q = s.och e' q := by
    rw [h.frame]
    rfl
  rw [hend]
  refine ⟨ochStart_owes e f 0 n (by rw [hoch]) fun e' q _ => hoch e' q, rfl, ?_⟩
  exact (OchMem.ofMem h).trans rfl

/-! ## COPY -/

theorem exec_copy {e : Nat} {f : Frame} (h : Starts s e f 5) (happart : f.opa + 32 * f.count ≤ f.opb ∨ f.opb + 32 * f.count ≤ f.opa)
    (hown : ∀ i, i < f.count → s.ownsRange f.part (f.opa + 32 * i) 32 false = true ∧ s.ownsRange f.part (f.opb + 32 * i) 32 true = true) :
    exec (.copy e f []) s = .next (ochEnd (allDone (laid f.opb 32 (fun i => s.rd (f.opa + 32 * i) 32) s f.count) f.count) e f []) := by
  refine congrArg Host.Outcome.next ((ochFrame_of_starts h _).trans (congrArg (ochEnd · e f []) ?_))
  refine entries_laid (accs := fun _ i => [(f.opa + 32 * i, 32, false), (f.opb + 32 * i, 32, true)])
    (act := fun _ i s => s.wr (f.opb + 32 * i) (s.rd (f.opa + 32 * i) 32)) (fun i hi => ?_) fun i hi => ?_
  · simpa only [List.forall_mem_cons, List.not_mem_nil, false_imp_iff, implies_true, and_true] using hown i hi
  · refine congrArg (State.wr _ _) (rd_of_rd8 fun x hx => laid_outside (fun _ => rd_length _ _ _) i ?_)
    omega

theorem copied_rd {a b n : Nat} : (laid b 32 (fun i => s.rd (a + 32 * i) 32) s n).rd b (32 * n) = s.rd a (32 * n) := by
  refine rd_of_rd8 fun x hx => ?_
  have hread := laid_inside (b := b) (k := 32) (piece := fun i => s.rd (a + 32 * i) 32) (s := s) (fun _ => rd_length _ _ _)
    (show x / 32 < n by omega)
  have hbyte := rd8_of_rd (x := x % 32) hread (Nat.mod_lt _ (by decide))
  rwa [Nat.add_assoc, Nat.div_add_mod, Nat.add_assoc, Nat.div_add_mod] at hbyte

/-! ## GATHER -/

theorem length_ochSlot {e : Nat} {f : Frame} {slot n : Nat} (h : ∀ j ∈ (s.och e f.part).journal, n ≤ j.slotBytes.length) :
    (s.ochSlot e f slot n).length = n := by
  unfold ochSlot
  split
  · next j hj => rw [List.length_take, Nat.min_eq_left (h j (List.mem_of_find?_eq_some hj))]
  · exact rd_length _ _ _

theorem ochSlot_congr {t : State} {e slot n : Nat} {f : Frame} (hoch : t.och e f.part = s.och e f.part) (hrd : t.rd slot n = s.rd slot n) :
    t.ochSlot e f slot n = s.ochSlot e f slot n := by
  rw [ochSlot, ochSlot, hoch, hrd]

theorem entSlot_congr {t : State} {f : Frame} {i : Nat} (h : t.rd (f.opa + 16 * i) 16 = s.rd (f.opa + 16 * i) 16) :
    t.entSlot f i = s.entSlot f i :=
  congrArg leNat (rd_of_rd8 fun x hx => rd8_of_rd h (by omega))

/-- The row that an entry of a GATHER takes. -/
def gatherPiece (s : State) (e : Nat) (f : Frame) (k i : Nat) : List Byte := s.ochSlot e f (s.entSlot f i) k

theorem exec_gather {e : Nat} {f : Frame} {d : TableDesc} {h : HypEnt} (hs : Starts s e f 2) (hctx : s.ochCtx e f.part f.table = some (d, h))
    (happart : f.opa + 16 * f.count ≤ f.opb ∨ f.opb + 32 * gatherSectors d * f.count ≤ f.opa)
    (hrows : ∀ i, i < f.count → (s.entSlot f i + 32 * gatherSectors d ≤ f.opb ∨ f.opb + 32 * gatherSectors d * f.count ≤ s.entSlot f i) ∧
      s.ownsRange f.part (f.opa + 16 * i) 16 false = true ∧ s.ownsRange f.part (s.entSlot f i) (32 * gatherSectors d) false = true ∧
      s.ownsRange f.part (f.opb + 32 * gatherSectors d * i) (32 * gatherSectors d) true = true)
    (hjnl : ∀ j ∈ (s.och e f.part).journal, 32 * gatherSectors d ≤ j.slotBytes.length) :
    exec (.gather e f []) s = .next (ochEnd (allDone (laid f.opb (32 * gatherSectors d)
      (gatherPiece s e f (32 * gatherSectors d)) s f.count) f.count) e f []) := by
  refine congrArg Host.Outcome.next ((ochFrame_of_starts hs _).trans ?_)
  rw [hctx]
  refine congrArg (ochEnd · e f []) ?_
  refine entries_laid (accs := fun t i => [(f.opa + 16 * i, 16, false), (t.entSlot f i, 32 * gatherSectors d, false),
    (f.opb + 32 * gatherSectors d * i, 32 * gatherSectors d, true)])
    (act := fun t i s => s.wr (f.opb + 32 * gatherSectors d * i) (s.ochSlot e f (t.entSlot f i) (32 * gatherSectors d)))
    (fun i hi => ?_) fun i hi => ?_
  all_goals
    generalize 32 * gatherSectors d = k at *
    have hlen (i : Nat) : (gatherPiece s e f k i).length = k := length_ochSlot hjnl
    obtain ⟨hslot, hent, hrow, hout⟩ := hrows i hi
    have hle : k * i ≤ k * f.count := Nat.mul_le_mul_left k hi.le
    have hkeeps {a n : Nat} (ha : a + n ≤ f.opb ∨ f.opb + k * f.count ≤ a) :
        (laid f.opb k (gatherPiece s e f k) s i).rd a n = s.rd a n :=
      rd_of_rd8 fun x hx => laid_outside hlen i (by omega)
    have hsame := entSlot_congr (hkeeps (a := f.opa + 16 * i) (n := 16) (by omega))
    rw [hsame]
  · simpa only [List.forall_mem_cons, List.not_mem_nil, false_imp_iff, implies_true, and_true] using ⟨hent, hrow, hout⟩
  · refine congrArg (State.wr _ _) (ochSlot_congr ?_ (hkeeps hslot))
    rw [(laid_memOnly i).frame]
    rfl

/-! ## POOL -/

/-- The row that an entry of a POOL brings: position, weight and values. -/
def poolRow (s : State) (e : Nat) (f : Frame) (d : TableDesc) (i : Nat) : Nat × W32 × List W32 :=
  (s.rdN (f.opa + 16 * i + 12) 4 % 2 ^ 16, BitVec.ofNat 32 (s.rdN (f.opa + 16 * i + 8) 4),
    lookupVals d.fmt d.elems (s.ochSlot e f (s.entSlot f i) (gatherBytes d.fmt d.elems)))

/-- The bytes of a bag's vector, and of its position tags for max pooling. -/
def bagBytes (d : TableDesc) (rows : List (Nat × W32 × List W32)) : List Byte :=
  ((shardPartial d.pool d.elems rows).1.map fun w => leBytes 4 w.toNat).flatten ++ ((shardPartial d.pool d.elems rows).2.map (leBytes 2)).flatten

/-- The bytes a bag's output takes. -/
def bagSize (d : TableDesc) : Nat := d.elems * (if d.pool = 3 then 6 else 4)

/-- One entry of a POOL, that ends its bag or does not. -/
def poolEntry (last : Bool) (e : Nat) (f : Frame) (d : TableDesc) (q : Pooling) (i : Nat) : Pooling :=
  let out := f.opb + bagSize d * q.bags
  let rows := q.rows ++ [q.g.st.poolRow e f d i]
  let g := stepEntry f.part q.g ([(f.opa + 16 * i, 16, false), (q.g.st.entSlot f i, gatherBytes d.fmt d.elems, false)] ++
    if last then [(out, bagSize d, true)] else []) fun s => if last then s.wr out (bagBytes d rows) else s
  if last then { g := g, rows := [], bags := q.bags + 1 } else { g := g, rows := rows, bags := q.bags }

/-- Bit 31 of the tag ends the bag, and so does the end of the list. -/
def endsBag (s : State) (f : Frame) (i : Nat) : Bool := 2 ^ 31 ≤ s.rdN (f.opa + 16 * i + 12) 4 || i + 1 = f.count

/-- One entry of a POOL. -/
def poolTurn (e : Nat) (f : Frame) (d : TableDesc) (q : Pooling) (i : Nat) : Pooling :=
  poolEntry (q.g.st.endsBag f i) e f d q i

theorem ochPool_eq (e : Nat) (f : Frame) (d : TableDesc) :
    s.ochPool e f d = ((List.range f.count).foldl (poolTurn e f d) { g := allDone s 0, rows := [], bags := 0 }).g := rfl

/-- An entry of an open bag. -/
theorem poolTurn_open {e done i : Nat} {f : Frame} {d : TableDesc} {rows : List (Nat × W32 × List W32)} (hi : i + 1 ≠ f.count)
    (htag : s.rdN (f.opa + 16 * i + 12) 4 < 2 ^ 31) (hent : s.ownsRange f.part (f.opa + 16 * i) 16 false = true)
    (hrow : s.ownsRange f.part (s.entSlot f i) (gatherBytes d.fmt d.elems) false = true) :
    poolTurn e f d { g := allDone s done, rows := rows, bags := 0 } i =
      { g := allDone s (done + 1), rows := rows ++ [s.poolRow e f d i], bags := 0 } := by
  have hopen : s.endsBag f i = false := by
    rw [endsBag, decide_eq_false (Nat.not_le.2 htag), decide_eq_false hi]
    rfl
  have hentry := stepEntry_of_owned (p := f.part) (g := allDone s done) (act := fun s => s)
    (accs := [(f.opa + 16 * i, 16, false), (s.entSlot f i, gatherBytes d.fmt d.elems, false)]) rfl (by
      simpa only [List.forall_mem_cons, List.not_mem_nil, false_imp_iff, implies_true, and_true] using ⟨hent, hrow⟩)
  refine (congrArg (poolEntry · e f d { g := allDone s done, rows := rows, bags := 0 } i) hopen).trans ?_
  exact congrArg (Pooling.mk · (rows ++ [s.poolRow e f d i]) 0) hentry

/-- The last entry of the list ends the bag. -/
theorem poolTurn_last {e done i : Nat} {f : Frame} {d : TableDesc} {rows : List (Nat × W32 × List W32)} (hi : i + 1 = f.count)
    (hent : s.ownsRange f.part (f.opa + 16 * i) 16 false = true)
    (hrow : s.ownsRange f.part (s.entSlot f i) (gatherBytes d.fmt d.elems) false = true)
    (hout : s.ownsRange f.part f.opb (bagSize d) true = true) :
    poolTurn e f d { g := allDone s done, rows := rows, bags := 0 } i =
      { g := allDone (s.wr f.opb (bagBytes d (rows ++ [s.poolRow e f d i]))) (done + 1), rows := [], bags := 1 } := by
  have hlast : s.endsBag f i = true := by
    rw [endsBag, decide_eq_true hi, Bool.or_true]
  have hentry := stepEntry_of_owned (p := f.part) (g := allDone s done)
    (act := fun v => v.wr f.opb (bagBytes d (rows ++ [s.poolRow e f d i])))
    (accs := [(f.opa + 16 * i, 16, false), (s.entSlot f i, gatherBytes d.fmt d.elems, false), (f.opb, bagSize d, true)]) rfl (by
      simpa only [List.forall_mem_cons, List.not_mem_nil, false_imp_iff, implies_true, and_true] using ⟨hent, hrow, hout⟩)
  refine (congrArg (poolEntry · e f d { g := allDone s done, rows := rows, bags := 0 } i) hlast).trans ?_
  exact congrArg (Pooling.mk · [] 1) hentry

/-- Before its last entry a bag only grows. -/
theorem poolTurns_open {e n : Nat} {f : Frame} {d : TableDesc} (hn : n < f.count)
    (htags : ∀ i, i < f.count - 1 → s.rdN (f.opa + 16 * i + 12) 4 < 2 ^ 31)
    (hrows : ∀ i, i < f.count → s.ownsRange f.part (f.opa + 16 * i) 16 false = true ∧
      s.ownsRange f.part (s.entSlot f i) (gatherBytes d.fmt d.elems) false = true) :
    (List.range n).foldl (poolTurn e f d) { g := allDone s 0, rows := [], bags := 0 } =
      { g := allDone s n, rows := (List.range n).map (s.poolRow e f d), bags := 0 } := by
  induction n with
  | zero => rfl
  | succ n ih =>
    obtain ⟨hent, hrow⟩ := hrows n (by omega)
    rw [List.range_succ, List.foldl_append, ih (by omega), List.foldl_cons, List.foldl_nil,
      poolTurn_open (by omega) (htags n (by omega)) hent hrow, List.map_append]
    rfl

theorem exec_pool {e : Nat} {f : Frame} {d : TableDesc} {h : HypEnt} (hs : Starts s e f 3) (hctx : s.ochCtx e f.part f.table = some (d, h))
    (hcount : 0 < f.count) (htags : ∀ i, i < f.count - 1 → s.rdN (f.opa + 16 * i + 12) 4 < 2 ^ 31)
    (hrows : ∀ i, i < f.count → s.ownsRange f.part (f.opa + 16 * i) 16 false = true ∧
      s.ownsRange f.part (s.entSlot f i) (gatherBytes d.fmt d.elems) false = true)
    (hout : s.ownsRange f.part f.opb (bagSize d) true = true) :
    exec (.pool e f []) s =
      .next (ochEnd (allDone (s.wr f.opb (bagBytes d ((List.range f.count).map (s.poolRow e f d)))) f.count) e f []) := by
  refine congrArg Host.Outcome.next ((ochFrame_of_starts hs _).trans ?_)
  rw [hctx]
  refine congrArg (ochEnd · e f []) ?_
  obtain ⟨n, hn⟩ : ∃ n, f.count = n + 1 := ⟨f.count - 1, by omega⟩
  obtain ⟨hent, hrow⟩ := hrows n (by omega)
  rw [ochPool_eq, hn, List.range_succ, List.foldl_append, poolTurns_open (by omega) htags hrows, List.foldl_cons, List.foldl_nil,
    poolTurn_last hn.symm hent hrow hout, List.map_append]
  rfl

/-! ## CFG, FENCE and RELEASE -/

/-- A queue whose context of table `t` is `x`. -/
def withCtx (t : Nat) (x : TableDesc × HypEnt) (o : OchreQ) : OchreQ := { o with ctx := (o.ctx.filter (·.1 ≠ t)) ++ [(t, x)] }

theorem find_withCtx (t : Nat) (x : TableDesc × HypEnt) (o : OchreQ) : (withCtx t x o).ctx.find? (·.1 = t) = some (t, x) := by
  unfold withCtx
  rw [List.find?_append, List.find?_eq_none.2 fun y hy => by simpa using (List.mem_filter.1 hy).2]
  simp

/-- The context of the descriptor at `a` and the entry after it. -/
def ctxAt (s : State) (a : Nat) : TableDesc × HypEnt :=
  (readTable (s.rd a 64) 0, readHyp (List.replicate 64 0 ++ s.rd (a + 64) 64) 0)

/-- A queue whose journal holds no record of a step. -/
def withoutStep (n : Nat) (o : OchreQ) : OchreQ := { o with journal := o.journal.filter fun j => j.step ≠ n % 2 ^ 32 }

theorem exec_cfg {e : Nat} {f : Frame} (h : Starts s e f 1) (hknown : s.tableKnown f.part f.table = true)
    (howned : s.firstBad f.part false 3 f.opa 128 = none) :
    exec (.cfg e f) s = .next ((s.modOch e f.part (withCtx f.table (s.ctxAt f.opa))).ochStart e f 0 f.count) := by
  refine congrArg Host.Outcome.next ((ochFrame_of_starts h _).trans ((if_neg ?_).trans ?_))
  · rw [hknown]
    decide
  · rw [howned]
    rfl

theorem exec_fence {e : Nat} {f : Frame} (h : Starts s e f 8) : exec (.fence e f) s = .next (s.ochStart e f 0 0) :=
  congrArg Host.Outcome.next (ochFrame_of_starts h _)

theorem exec_release {e : Nat} {f : Frame} (h : Starts s e f 7) : exec (.release e f) s =
    .next ((s.modOch e f.part (withoutStep f.step)).ochStart e f 0
      ((s.och e f.part).journal.filter fun j => j.step = f.step % 2 ^ 32).length) :=
  congrArg Host.Outcome.next (ochFrame_of_starts h _)

/-- A command that has changed its queue and starts: what is owed is owed beside what was. -/
theorem modOch_ochStart_owes {e : Nat} {f : Frame} {g : OchreQ → OchreQ} (hg : ∀ o, (g o).started = o.started) (status done : Nat) :
    Sys2Proof.Owes s ((s.modOch e f.part g).ochStart e f status done) e f status done := by
  refine ochStart_owes e f status done ?_ fun e' q hne => och_setOch_ne _ _ hne
  unfold modOch
  rw [och_setOch, hg]

theorem modOch_ochStart_frame (e : Nat) (f : Frame) (g : OchreQ → OchreQ) (status done : Nat) :
    (s.modOch e f.part g).ochStart e f status done =
      { s with ochre := ((s.modOch e f.part g).ochStart e f status done).ochre } := rfl

theorem och_modOch_ochStart {e : Nat} {f : Frame} (g : OchreQ → OchreQ) (status done : Nat) :
    ∃ r, ((s.modOch e f.part g).ochStart e f status done).och e f.part =
      { g (s.och e f.part) with started := (g (s.och e f.part)).started ++ [r] } := by
  obtain ⟨r, hr⟩ := ochStart_och (s := s.modOch e f.part g) e f status done
  refine ⟨r, hr.trans ?_⟩
  unfold modOch
  rw [och_setOch]

end State
end Sys2Proof.Machine

namespace Sys2Proof
open Machine State

theorem ochreCfgFenceRelease : Claims.OchreCfgFenceRelease := by
  unfold Claims.OchreCfgFenceRelease
  refine fun s e f => ⟨fun h hknown howned => ?_, fun h => ?_, fun h => ?_⟩
  · obtain ⟨r, hr⟩ := och_modOch_ochStart (s := s) (e := e) (f := f) (withCtx f.table (s.ctxAt f.opa)) 0 f.count
    have howes := modOch_ochStart_owes (s := s) (e := e) (f := f) (g := withCtx f.table (s.ctxAt f.opa)) (fun _ => rfl) 0 f.count
    refine ⟨_, exec_cfg h hknown howned, howes, ?_, ?_, modOch_ochStart_frame _ _ _ _ _⟩
    · rw [hr]
      exact find_withCtx _ _ _
    · rw [hr]
      rfl
  · obtain ⟨r, hr⟩ := ochStart_och (s := s) e f 0 0
    exact ⟨_, exec_fence h, ochStart_owes e f 0 0 rfl fun _ _ _ => rfl, by rw [hr], ochStart_frame _ _ _ _⟩
  · obtain ⟨r, hr⟩ := och_modOch_ochStart (s := s) (e := e) (f := f) (withoutStep f.step) 0
      ((s.och e f.part).journal.filter fun j => j.step = f.step % 2 ^ 32).length
    have howes := modOch_ochStart_owes (s := s) (e := e) (f := f) (g := withoutStep f.step) (fun _ => rfl) 0
      ((s.och e f.part).journal.filter fun j => j.step = f.step % 2 ^ 32).length
    refine ⟨_, exec_release h, ?_, howes, modOch_ochStart_frame _ _ _ _ _⟩
    rw [hr]
    rfl

theorem ochreMovesRows : Claims.OchreMovesRows := by
  unfold Claims.OchreMovesRows
  refine fun s e f => ⟨fun h happart hown => ?_, fun d hyp h hctx => ?_, fun d hyp h hctx hcount => ?_⟩
  · obtain ⟨howes, hmem, hframe⟩ := ochEnd_done (e := e) (n := f.count) (f := f)
      (laid_memOnly (b := f.opb) (k := 32) (piece := fun i => s.rd (f.opa + 32 * i) 32) (s := s) f.count)
    refine ⟨_, exec_copy h happart hown, howes, (rd_congr hmem _ _).trans copied_rd, fun a ha => (rd8_congr hmem a).trans ?_, hframe⟩
    exact laid_outside (fun _ => rd_length _ _ _) _ (by omega)
  · intro k happart hrows hjnl
    have hlen (i : Nat) : (gatherPiece s e f k i).length = k := length_ochSlot hjnl
    obtain ⟨howes, hmem, hframe⟩ := ochEnd_done (e := e) (n := f.count) (f := f)
      (laid_memOnly (b := f.opb) (k := k) (piece := gatherPiece s e f k) (s := s) f.count)
    refine ⟨_, exec_gather h hctx happart hrows hjnl, howes, fun i hi => (rd_congr hmem _ _).trans (laid_inside hlen hi),
      fun a ha => (rd8_congr hmem a).trans (laid_outside hlen _ (by omega)), hframe⟩
  · intro n tag rows v bytes htags hrows hout
    obtain ⟨howes, hmem, hframe⟩ := ochEnd_done (e := e) (n := f.count) (f := f) ((MemOnly.refl s).wr f.opb bytes)
    refine ⟨_, exec_pool h hctx hcount htags hrows hout, howes, (rd_congr hmem _ _).trans (rd_wr _ _ _),
      fun a ha => (rd8_congr hmem a).trans (rd8_wr_ne _ _ _ _ (by omega)), hframe⟩

/-- Settles O26: a command that starts lays its pieces one behind another, which nothing it reads overlaps. -/
theorem ochreCommands : Obligations.OchreCommands := by
  unfold Obligations.OchreCommands
  exact ⟨ochreCfgFenceRelease, ochreMovesRows⟩

end Sys2Proof
end

section
/-! Sectors in error (O37): a count of uncorrectable sectors that is at its end. -/

namespace Sys2Proof.Machine

/-- A sector of stack 0 with two bytes off. -/
def twoBytesOff : SectorErr := { addr := 0, flips := [(0, 1), (1, 1)], onDie := 0 }

/-- Stack 0 is ready, and `MEM_ECC.UE` has counted all that its 16 bits hold. -/
def fullCount : State := (State.reset.putF F.MEM_STAT_STATE 0 2).putF F.MEM_ECC_UE 0 65535

end Sys2Proof.Machine

namespace Sys2Proof
open Machine

/-- Refutes O37: `MEM_ECC.UE` has 16 bits, and the claim has it count to 2^32 − 1. -/
theorem not_memoryUnits : ¬ Obligations.MemoryUnits := by
  unfold Obligations.MemoryUnits
  rintro ⟨-, ⟨-, hscrub⟩, -⟩
  obtain ⟨-, huncorrectable⟩ := hscrub fullCount (.stack 0) twoBytesOff (by decide +kernel) (by decide +kernel) (by decide +kernel) rfl
  obtain ⟨t, -, hcount, -⟩ := huncorrectable (by decide +kernel) (by decide +kernel) (by decide +kernel) (by decide +kernel)
  have hfull : fullCount.getU F.MEM_ECC_UE F.UMB_ECC_UE 0 = 65535 := by decide +kernel
  have hlt : t.getF F.MEM_ECC_UE 0 < 2 ^ 16 := State.getF_lt t F.MEM_ECC_UE 0
  have hover : t.getF F.MEM_ECC_UE 0 = min (fullCount.getU F.MEM_ECC_UE F.UMB_ECC_UE 0 + 1) (2 ^ 32 - 1) := hcount
  rw [hfull] at hover
  omega

end Sys2Proof
end

section
/-! Deltas on their way to the mirror (O40). -/

namespace Sys2Proof.Machine
namespace State

variable {s t : State}

/-! ## What a port knows of absent positions -/

/-- From `s` to `t` what each port knows of absent positions stands. -/
def AbsentSame (s t : State) : Prop := ∀ k, (t.port k).absent = (s.port k).absent

namespace AbsentSame

theorem refl (s : State) : AbsentSame s s := fun _ => rfl

theorem trans {u : State} (h : AbsentSame s t) (h' : AbsentSame t u) : AbsentSame s u := fun k => (h' k).trans (h k)

variable {k : Nat}

theorem setPort (h : AbsentSame s t) {x : Port} (hx : x.absent = (t.port k).absent) : AbsentSame s (t.setPort k x) := by
  refine h.trans fun j => ?_
  by_cases hj : j = k
  · rw [hj, port_setPort, hx]
  · rw [port_setPort_ne _ _ hj]

theorem modPort (h : AbsentSame s t) {f : Port → Port} (hf : ∀ x, (f x).absent = x.absent) : AbsentSame s (t.modPort k f) :=
  h.setPort (hf _)

theorem emit (h : AbsentSame s t) (o : Out) : AbsentSame s (t.emit o) := h

theorem emitFlit (h : AbsentSame s t) (f : Flit) : AbsentSame s (t.emitFlit k f) :=
  (h.modPort (by exact fun _ => rfl)).emit _

theorem sendSequenced (h : AbsentSame s t) (type vc : Nat) (b : List Byte) : AbsentSame s (t.sendSequenced k type vc b) :=
  (h.setPort (by rfl)).emitFlit _

theorem sealGroup (h : AbsentSame s t) : AbsentSame s (t.sealGroup k) := by
  unfold State.sealGroup
  exact (h.sendSequenced _ _ _).modPort (by exact fun _ => rfl)

theorem sendFlit (h : AbsentSame s t) (type vc : Nat) (b : List Byte) : AbsentSame s (t.sendFlit k type vc b) := by
  unfold State.sendFlit
  exact (h.sendSequenced _ _ _).modPort (by exact fun _ => rfl)

theorem sendNext (h : AbsentSame s t) (vc : Nat) : AbsentSame s (t.sendNext k vc) := by
  unfold State.sendNext
  dsimp only
  split
  · exact h
  · exact (h.setPort (by rfl)).sendFlit _ _ _

theorem pump (n : Nat) (h : AbsentSame s t) : AbsentSame s (t.pump k n) := by
  induction n generalizing t with
  | zero => exact h
  | succ n ih =>
    unfold State.pump
    dsimp only
    split
    · exact h
    · split
      · exact ih h.sealGroup
      · split
        · exact ih ((h.setPort (by rfl)).sendFlit _ _ _)
        · split
          · exact ih (h.sendNext _)
          · exact h

theorem pumpUp (h : AbsentSame s t) : AbsentSame s (t.pumpUp k) := by
  unfold State.pumpUp
  split
  · exact h.pump _
  · exact h

theorem queueMsg (h : AbsentSame s t) (c : TClass) (x : MsgHdr) (v : Hop) (o : Out) : AbsentSame s (t.queueMsg c x v o) :=
  ((h.modPort (by exact fun _ => rfl)).emit _).pumpUp

end AbsentSame

/-! ## A message while no position is absent -/

theorem port_hopIn {src dest d : Nat} {v : Hop} (hd : d < 3) (h : s.hopIn src dest d = some v) : v.port < 6 := by
  unfold hopIn at h
  extract_lets n c t fwd plus at_ from_ k pass at h
  split at h
  · exact nomatch h
  · rw [← Option.some.inj h]
    dsimp only [k]
    split <;> omega

theorem port_nextHop {src dest : Nat} {v : Hop} (h : s.nextHop src dest = some v) : v.port < 6 := by
  unfold nextHop at h
  split at h
  · next x hx => exact Option.some.inj h ▸ port_hopIn (by decide) hx
  · split at h
    · next x hx => exact Option.some.inj h ▸ port_hopIn (by decide) hx
    · exact port_hopIn (by decide) h

theorem sendMsg_whole (habsent : ∀ k, k < 6 → (s.port k).absent = []) (c : TClass) (h : MsgHdr) (o : Out) :
    PortsOut s (s.sendMsg c h o) ∧ AbsentSame s (s.sendMsg c h o) := by
  unfold sendMsg
  split
  · exact ⟨.refl s, .refl s⟩
  · next v hv =>
    have hreach : s.unreachable v = false := by rw [unreachable, habsent _ (port_nextHop hv)]; rfl
    rw [hreach]
    exact ⟨(PortsOut.refl s).queueMsg c h v o, (AbsentSame.refl s).queueMsg c h v o⟩

/-! ## Hosts and partners -/

/-- Who hosts a rank, and which rank is its partner, depends on the hosting map, the plan and the module's place. -/
theorem hostOf_of_plan {p : Nat} (hhosts : (t.part p).hosts = (s.part p).hosts) (hplan : (t.part p).plan = (s.part p).plan)
    (hcfg : t.word F.FAB_CFG_X.base = s.word F.FAB_CFG_X.base) :
    (∀ r, t.hostOf p r = s.hostOf p r) ∧ ∀ r, t.partnerOf p r = s.partnerOf p r := by
  obtain ⟨-, hring, -⟩ := place_congr hcfg
  have hplace : ∀ q d, t.placeOf q d = s.placeOf q d := fun q d => by
    unfold placeOf
    simp only [hring]
  have hposOf : ∀ x y z, t.posOf x y z = s.posOf x y z := fun x y z => by rw [posOf, hring, hring, posOf]
  constructor <;> intro r
  · unfold hostOf homePos
    rw [hhosts, hplan]
    simp only [hplace, hposOf, hring]
  · unfold partnerOf
    rw [hplan]
    simp only [hplace, hposOf, hring]

/-! ## Deltas sent -/

theorem length_deltaBytes {l : List (Nat × List Byte)} (h : ∀ x ∈ l, x.2.length = 32) : (deltaBytes l).length = 40 * l.length := by
  induction l with
  | nil => rfl
  | cons x l ih =>
    have hx := h x List.mem_cons_self
    have hl := ih fun y hy => h y (List.mem_cons_of_mem _ hy)
    have hcons : deltaBytes (x :: l) = leBytes 8 x.1 ++ x.2 ++ deltaBytes l := rfl
    rw [hcons, List.length_append, List.length_append, leBytes_length, hx, hl, List.length_cons]
    omega

theorem record_length (p r : Nat) (pl : Plan) (sectors : List Nat) : ∀ x ∈ s.deltaOf p r pl sectors, x.2.length = 32 := by
  intro x hx
  obtain ⟨a, -, rfl⟩ := List.mem_map.1 hx
  exact rd_length _ _ _

/-- `d` bytes of the delta are sent, and ports and what goes out alone have changed beside. -/
structure DeltaSent (s : State) (p d : Nat) (t : State) : Prop where
  frame : t = { s with ports := t.ports, parts := t.parts, out := t.out }
  part : t.part p = { s.part p with deltaSent := d }
  others : ∀ q, q ≠ p → t.part q = s.part q
  absent : AbsentSame s t

namespace DeltaSent

variable {p d : Nat}

theorem word (h : DeltaSent s p d t) (o : Nat) : t.word o = s.word o := by
  rw [h.frame]
  rfl

theorem hosts (h : DeltaSent s p d t) : (∀ r, t.hostOf p r = s.hostOf p r) ∧ ∀ r, t.partnerOf p r = s.partnerOf p r :=
  hostOf_of_plan (by rw [h.part]) (by rw [h.part]) (h.word _)

theorem pos (h : DeltaSent s p d t) : t.pos = s.pos := by
  obtain ⟨hpos, -, -⟩ := place_congr (h.word F.FAB_CFG_X.base)
  exact hpos

/-- One message more. -/
theorem next {e : Nat} (h : DeltaSent s p d t) (habsent : ∀ k, k < 6 → (s.port k).absent = []) (c : TClass) (x : MsgHdr) (o : Out) :
    DeltaSent s p (d + e) ((t.modPart p fun y => { y with deltaSent := y.deltaSent + e }).sendMsg c x o) := by
  have hcounted : DeltaSent s p (d + e) (t.modPart p fun y => { y with deltaSent := y.deltaSent + e }) := by
    refine ⟨?_, ?_, fun q hq => ?_, h.absent⟩
    · rw [modPart, setPart, h.frame]
    · rw [part_modPart, h.part]
    · rw [modPart, part_setPart_ne _ _ hq, h.others q hq]
  generalize t.modPart p (fun y => { y with deltaSent := y.deltaSent + e }) = v at hcounted ⊢
  obtain ⟨hports, hsame⟩ := sendMsg_whole (s := v) (fun k hk => (hcounted.absent k).trans (habsent k hk)) c x o
  generalize v.sendMsg c x o = u at hports hsame ⊢
  refine ⟨?_, ?_, fun q hq => ?_, hcounted.absent.trans hsame⟩
  · rw [hports.frame, hcounted.frame]
  · rw [hports.part, hcounted.part]
  · rw [hports.part, hcounted.others q hq]

end DeltaSent

/-- One Slate write of a rank's delta. -/
def sendChunk (p r : Nat) (l : List (Nat × List Byte)) (s : State) (i : Nat) : State :=
  let b := deltaBytes ((l.drop (1638 * i)).take 1638)
  let h := s.deltaHead p r (s.logBase p r (s.curStep p) + (s.part p).deltaSent)
  let s := s.modPart p fun x => { x with deltaSent := x.deltaSent + b.length }
  if h.dest = s.pos then s.writeDelivered .slate h b else s.sendMsg .slate h (.message .slate h b)

theorem sendRecords_eq (p r : Nat) (l : List (Nat × List Byte)) :
    s.sendRecords p r l = (List.range (ceilDiv l.length 1638)).foldl (sendChunk p r l) s := rfl

theorem sendChunk_sent {p r d i : Nat} {l : List (Nat × List Byte)} (hl : ∀ x ∈ l, x.2.length = 32)
    (hfar : s.hostOf p (s.partnerOf p r) ≠ s.pos) (habsent : ∀ k, k < 6 → (s.port k).absent = []) (h : DeltaSent s p d t) :
    DeltaSent s p (d + 40 * min 1638 (l.length - 1638 * i)) (sendChunk p r l t i) := by
  obtain ⟨hhost, hpartner⟩ := h.hosts
  have hlength : (deltaBytes ((l.drop (1638 * i)).take 1638)).length = 40 * min 1638 (l.length - 1638 * i) := by
    rw [length_deltaBytes fun x hx => hl x (List.mem_of_mem_drop (List.mem_of_mem_take hx)), List.length_take, List.length_drop]
  have hdest : (t.deltaHead p r (t.logBase p r (t.curStep p) + (t.part p).deltaSent)).dest ≠
      (t.modPart p fun x => { x with deltaSent := x.deltaSent + (deltaBytes ((l.drop (1638 * i)).take 1638)).length }).pos := by
    change t.hostOf p (t.partnerOf p r) ≠ t.pos
    rwa [hhost, hpartner, h.pos]
  unfold sendChunk
  dsimp only
  rw [if_neg hdest, ← hlength]
  exact h.next habsent _ _ _

theorem sendRecords_sent {p r : Nat} {l : List (Nat × List Byte)} (hl : ∀ x ∈ l, x.2.length = 32)
    (hfar : s.hostOf p (s.partnerOf p r) ≠ s.pos) (habsent : ∀ k, k < 6 → (s.port k).absent = []) :
    DeltaSent s p ((s.part p).deltaSent + 40 * l.length) (s.sendRecords p r l) := by
  have chunks (n : Nat) : DeltaSent s p ((s.part p).deltaSent + 40 * min (1638 * n) l.length)
      ((List.range n).foldl (sendChunk p r l) s) := by
    induction n with
    | zero => exact ⟨rfl, by simp, fun _ _ => rfl, .refl s⟩
    | succ n ih =>
      have hsent := sendChunk_sent (i := n) hl hfar habsent ih
      rw [List.range_succ, List.foldl_append]
      rwa [show (s.part p).deltaSent + 40 * min (1638 * (n + 1)) l.length =
        (s.part p).deltaSent + 40 * min (1638 * n) l.length + 40 * min 1638 (l.length - 1638 * n) by omega]
  have hall : l.length ≤ 1638 * ceilDiv l.length 1638 := by
    unfold ceilDiv
    omega
  have hsent := chunks (ceilDiv l.length 1638)
  rwa [Nat.min_eq_right hall, ← sendRecords_eq] at hsent

theorem mem_deltaOf {p r a : Nat} {pl : Plan} {sectors : List Nat} (ha : a ∈ sectors) :
    (a / 32 * 32, (s.commit p).rd (a / 32 * 32) 32) ∈ s.deltaOf p r pl sectors := by
  unfold deltaOf
  refine List.mem_map.2 ⟨a / 32 * 32, (mem_uniqKeys _).2 (List.mem_append_left _ (List.mem_map.2 ⟨a, ha, rfl⟩)), rfl⟩

/-! ## Logs -/

/-- A log that is not of this step stands beside one that is set. -/
theorem logAt_setLog {p : Nat} (l : DeltaLog) : (s.setLog p l).logAt p l.rank l.step = l := by
  unfold logAt setLog
  rw [part_modPart]
  dsimp only
  rw [List.find?_append, List.find?_eq_none.2 fun y hy => by simpa [imp_iff_not_or] using (List.mem_filter.1 hy).2]
  simp

theorem logAt_rank (p r n : Nat) : (s.logAt p r n).rank = r ∧ (s.logAt p r n).step = n := by
  unfold logAt
  cases h : (s.part p).logs.find? fun l => l.rank = r && l.step = n with
  | none => exact ⟨rfl, rfl⟩
  | some l => simpa using List.find?_some h

/-- Whether the log two steps before is applied does not change with this step's log. -/
theorem logHeld_setLog {p r n : Nat} {l : DeltaLog} (hl : l.rank = r ∧ l.step = n) : (s.setLog p l).logHeld p r n = s.logHeld p r n := by
  obtain ⟨rfl, rfl⟩ := hl
  unfold logHeld setLog
  rw [part_modPart]
  dsimp only
  rw [List.any_append, List.any_filter]
  have hself : [l].any (fun v => v.rank = l.rank && v.step + 2 = l.step && !v.applied) = false := by simp
  rw [hself, Bool.or_false]
  refine congrArg (List.any _) (funext fun v => ?_)
  by_cases h : v.step = l.step
  · simp [h]
  · simp [h]

theorem part_setLog_ne {p q : Nat} (l : DeltaLog) (h : q ≠ p) : (s.setLog p l).part q = s.part q := part_setPart_ne _ _ h

/-- The acknowledgement goes out once the end has come, every byte is written and the log before it is applied. -/
theorem ackDelta_eq (p r n : Nat) : s.ackDelta p r n = { s with
    out := if (s.logAt p r n).ended = some (s.logAt p r n).bytes ∧ s.logHeld p r n = false then .deltaAck p r n :: s.out else s.out } := by
  unfold ackDelta
  dsimp only
  simp only [Bool.not_eq_true]
  split <;> rfl

theorem endDelta_ends (p r n bytes : Nat) :
    (s.endDelta p r n bytes).logAt p r n = { s.logAt p r n with ended := some bytes } ∧
    (s.endDelta p r n bytes).out =
      (if (s.logAt p r n).bytes = bytes ∧ s.logHeld p r n = false then .deltaAck p r n :: s.out else s.out) ∧
    s.endDelta p r n bytes = { s with parts := (s.endDelta p r n bytes).parts, out := (s.endDelta p r n bytes).out } ∧
    ∀ q, q ≠ p → (s.endDelta p r n bytes).part q = s.part q := by
  obtain ⟨hrank, hstep⟩ := s.logAt_rank p r n
  have hlog : (s.setLog p { s.logAt p r n with ended := some bytes }).logAt p r n = { s.logAt p r n with ended := some bytes } := by
    have hset := s.logAt_setLog (p := p) { s.logAt p r n with ended := some bytes }
    rwa [hrank, hstep] at hset
  have hheld := s.logHeld_setLog (p := p) (l := { s.logAt p r n with ended := some bytes }) ⟨hrank, hstep⟩
  unfold endDelta
  rw [ackDelta_eq, hlog, hheld]
  refine ⟨hlog, ?_, rfl, fun q hq => part_setLog_ne _ hq⟩
  simp only [Option.some.injEq, eq_comm (a := bytes)]
  rfl

/-! ## A log applied to the mirror -/

/-- Within one block of 256 bytes the mirror holds the bytes one behind another. -/
theorem mirrorAddr_add {p r a i : Nat} (h : a % 256 + i < 256) : mirrorAddr p r (a + i) = mirrorAddr p r a + i := by
  unfold mirrorAddr
  rw [show (a + i) / 256 = a / 256 by omega, show (a + i) % 256 = a % 256 + i by omega, Nat.add_assoc]

theorem toMirror_eq {p r a : Nat} {b : List Byte} (h : a % 256 + b.length ≤ 256) : s.toMirror p r a b = s.wr (mirrorAddr p r a) b := by
  have turns (b : List Byte) (k : Nat) (s : State) (hk : a % 256 + k + b.length ≤ 256) :
      (b.zipIdx k).foldl (fun s x => s.wr8 (mirrorAddr p r (a + x.2)) x.1) s = s.wr (mirrorAddr p r a + k) b := by
    induction b generalizing k s with
    | nil => rfl
    | cons v b ih =>
      rw [List.length_cons] at hk
      rw [List.zipIdx_cons, List.foldl_cons, ih (k + 1) _ (by omega), mirrorAddr_add (by omega)]
      rfl
  exact turns b 0 s (by omega)

end State
end Sys2Proof.Machine

namespace Sys2Proof
open Machine State

theorem deltaSend_sent {s : State} {p : Nat} {sectors : List Nat} {pl : Plan} (hplan : s.plan p = some pl) (hres : s.resilient p = true)
    (hmoves : s.stepMoves p = true) (hcom : (s.part p).committed = false) (hhome : (s.ranksHere p).contains (s.homeRank p) = true)
    (hmirror : s.getF F.FAB_HSTAT_MIRROR 0 = 2) (hacked : (s.part p).mirrorAcked = false)
    (hfar : s.hostOf p (s.partnerOf p (s.homeRank p)) ≠ s.pos) (habsent : ∀ k, k < 6 → (s.port k).absent = []) :
    ∃ u l, exec (.deltaSend p (s.homeRank p) sectors) s = .next u ∧
      u.out.head? = some (.deltaEnd p (s.homeRank p) (s.curStep p) ((s.part p).deltaSent + 40 * l)) ∧
      l = (s.deltaOf p (s.homeRank p) pl sectors).length ∧
      (∀ a ∈ sectors, (a / 32 * 32, (s.commit p).rd (a / 32 * 32) 32) ∈ s.deltaOf p (s.homeRank p) pl sectors) ∧
      u.part p = { s.part p with deltaSent := (s.part p).deltaSent + 40 * l } ∧
      u = { s with ports := u.ports, parts := u.parts, out := u.out } ∧ ∀ q, q ≠ p → u.part q = s.part q := by
  have hsent := sendRecords_sent (s := s) (p := p) (r := s.homeRank p) (s.record_length p (s.homeRank p) pl sectors) hfar habsent
  have hexec : exec (.deltaSend p (s.homeRank p) sectors) s = .next (s.sendDelta p (s.homeRank p) (s.deltaOf p (s.homeRank p) pl sectors)) := by
    change execDeltaSend p (s.homeRank p) sectors s = _
    unfold execDeltaSend
    dsimp only
    rw [hplan]
    refine congrArg Host.Outcome.next (if_pos ⟨hres, hmoves, ?_, rfl, hhome, .inr hmirror, ?_⟩)
    · rw [hcom]
      decide
    · rw [hacked]
      decide
  refine ⟨_, _, hexec, ?_, rfl, fun a ha => mem_deltaOf ha, ?_⟩
  all_goals
    unfold sendDelta
    dsimp only
    generalize s.sendRecords p (s.homeRank p) (s.deltaOf p (s.homeRank p) pl sectors) = t at hsent ⊢
    obtain ⟨hhost, hpartner⟩ := hsent.hosts
    rw [if_neg (by rwa [hhost, hpartner, hsent.pos])]
  · rw [hsent.part]
    rfl
  · exact ⟨hsent.part, by rw [State.emit, hsent.frame], hsent.others⟩

theorem deltaLogApply_applied {s : State} {p a : Nat} {b : List Byte} {l : DeltaLog} {ls : List DeltaLog}
    (hlogs : (s.part p).logs = l :: ls) (hcom : l.committed = true) (happlied : l.applied = false)
    (hothers : ∀ v ∈ ls, v.rank = l.rank → v.committed = false ∧ v.step ≠ l.step) (hwritten : l.written = [(a, b)])
    (hblock : a % 256 + b.length ≤ 256) :
    let v := s.logAt p l.rank (l.step + 2)
    ∃ u, exec (.deltaLogApply p l.rank) s = .next u ∧ (u.part p).logs = ls ∧ u.rd (mirrorAddr p l.rank a) b.length = b ∧
      (∀ x, ¬ (mirrorAddr p l.rank a ≤ x ∧ x < mirrorAddr p l.rank a + b.length) → u.rd8 x = s.rd8 x) ∧
      u.out = (if v.ended = some v.bytes then .deltaAck p l.rank (l.step + 2) :: s.out else s.out) ∧
      u = { s with parts := u.parts, mem := u.mem, history := u.history, out := u.out } ∧
      ∀ q, q ≠ p → u.part q = s.part q := by
  intro v
  have hfirst : ((s.part p).logs.filter fun v => v.rank = l.rank && v.committed && !v.applied).mergeSort (fun a b => a.step ≤ b.step) = [l] := by
    have hnone : ls.filter (fun v => v.rank = l.rank && v.committed && !v.applied) = [] := by
      refine List.filter_eq_nil_iff.2 fun v hv h => ?_
      simp only [Bool.and_eq_true, decide_eq_true_eq] at h
      obtain ⟨⟨hrank, hc⟩, -⟩ := h
      rw [(hothers v hv hrank).1] at hc
      exact absurd hc (by decide)
    rw [hlogs, List.filter_cons_of_pos (by simp [hcom, happlied]), hnone, List.mergeSort_singleton]
  have hrest : (s.part p).logs.filter (fun v => !(v.rank = l.rank && v.step = l.step)) = ls := by
    rw [hlogs, List.filter_cons_of_neg (by simp)]
    refine List.filter_eq_self.2 fun v hv => ?_
    by_cases h : v.rank = l.rank
    · simp [h, (hothers v hv h).2]
    · simp [h]
  have hmem : MemOnly s (s.wr (mirrorAddr p l.rank a) b) := (MemOnly.refl s).wr _ _
  have happly : s.applyLog p l = s.wr (mirrorAddr p l.rank a) b := by
    rw [applyLog, hwritten, List.mergeSort_singleton]
    exact toMirror_eq hblock
  have hexec : exec (.deltaLogApply p l.rank) s =
      .next (((s.wr (mirrorAddr p l.rank a) b).modPart p fun x => { x with
        logs := x.logs.filter fun v => !(v.rank = l.rank && v.step = l.step) }).ackDelta p l.rank (l.step + 2)) := by
    change execDeltaLogApply p l.rank s = _
    unfold execDeltaLogApply
    rw [hfirst]
    dsimp only
    rw [happly]
  have hread : (s.wr (mirrorAddr p l.rank a) b).rd (mirrorAddr p l.rank a) b.length = b := rd_wr _ _ _
  have hoff (x : Nat) (hx : ¬ (mirrorAddr p l.rank a ≤ x ∧ x < mirrorAddr p l.rank a + b.length)) :
      (s.wr (mirrorAddr p l.rank a) b).rd8 x = s.rd8 x := rd8_wr_ne _ _ _ _ (by omega)
  generalize s.wr (mirrorAddr p l.rank a) b = w at hexec hmem hread hoff
  have hpart (q : Nat) : w.part q = s.part q := by
    rw [hmem.frame]
    rfl
  have hout : w.out = s.out := by rw [hmem.frame]
  refine ⟨_, hexec, ?_⟩
  rw [ackDelta_eq]
  generalize hu : (w.modPart p fun x => { x with logs := x.logs.filter fun v => !(v.rank = l.rank && v.step = l.step) }) = u
  have hpartu : (u.part p).logs = ls := by
    rw [← hu, part_modPart, hpart]
    exact hrest
  have hlog : u.logAt p l.rank (l.step + 2) = v := by
    change _ = s.logAt p l.rank (l.step + 2)
    rw [logAt, logAt, hpartu, hlogs, List.find?_cons_of_neg (by simp)]
  have hheld : u.logHeld p l.rank (l.step + 2) = false := by
    unfold logHeld
    rw [hpartu, List.any_eq_false]
    intro y hy h
    simp only [Bool.and_eq_true, decide_eq_true_eq] at h
    obtain ⟨⟨hrank, hstep⟩, -⟩ := h
    exact (hothers y hy hrank).2 (by omega)
  have hmemu : u.mem = w.mem := by rw [← hu]; rfl
  have houtu : u.out = s.out := by rw [← hu]; exact hout
  have hframe : u = { s with parts := u.parts, mem := u.mem, history := u.history, out := u.out } := by
    obtain ⟨hw⟩ := hmem
    rw [← hu, modPart, setPart, hw]
  have hothersu (q : Nat) (hq : q ≠ p) : u.part q = s.part q := by
    rw [← hu, modPart, part_setPart_ne _ _ hq, hpart]
  clear_value v
  clear hu
  rw [hlog, hheld, houtu]
  have hsame (o : List Out) : { u with out := o } = { s with parts := u.parts, mem := u.mem, history := u.history, out := o } := by
    rw [hframe]
  simp only [and_true]
  generalize (if v.ended = some v.bytes then Out.deltaAck p l.rank (l.step + 2) :: s.out else s.out) = o
  exact ⟨hpartu, (rd_congr (t := { u with out := o }) hmemu _ _).trans hread,
    fun x hx => (rd8_congr (t := { u with out := o }) hmemu x).trans (hoff x hx), trivial, hsame o, hothersu⟩

/-- Settles O40: a delta's messages change ports alone, its end and the acknowledgement are notes in the logs, and a log that is
applied lays its bytes where the mirror holds the block. -/
theorem deltasReachTheMirror : Obligations.DeltasReachTheMirror := by
  unfold Obligations.DeltasReachTheMirror
  refine ⟨fun s p sectors pl _ hplan hres hmoves hcom hhome hmirror hacked hfar habsent =>
    deltaSend_sent hplan hres hmoves hcom hhome hmirror hacked hfar habsent, fun s p rank n bytes _ hres hhere => ?_,
    fun s p rank n _ hactive hrolling => ?_, fun s p a b l ls _ hlogs hcom happlied hothers hwritten hblock =>
    deltaLogApply_applied hlogs hcom happlied hothers hwritten hblock⟩
  · obtain ⟨hlog, hout, hframe, hother⟩ := s.endDelta_ends p rank n bytes
    exact ⟨_, congrArg Host.Outcome.next (if_pos ⟨hres, hhere⟩), hlog, hout, hframe, hother⟩
  · by_cases h : rank = s.homeRank p ∧ n = s.curStep p
    · refine ⟨s.modPart p fun x => { x with mirrorAcked := true },
        congrArg Host.Outcome.next (if_pos ⟨hactive, h.1, h.2, by rw [hrolling]; decide⟩), fun _ => part_modPart _ _ _,
        fun hn => absurd h hn, rfl, fun q hq => part_setPart_ne _ _ hq⟩
    · exact ⟨s, congrArg Host.Outcome.next (if_neg fun hc => h ⟨hc.2.1, hc.2.2.1⟩), fun hy => absurd hy h, fun _ => rfl, rfl, fun _ _ => rfl⟩

end Sys2Proof
end

section
/-! What a coordinator decides (O41). -/

namespace Sys2Proof.Machine

/-- From `s` to `t` partition `p` and what goes out alone may differ. -/
structure PartOut (p : Nat) (s t : State) : Prop where
  frame : t = { s with parts := t.parts, out := t.out }
  others : ∀ q, q ≠ p → t.part q = s.part q

namespace PartOut

variable {p : Nat} {s t u : State}

theorem refl (s : State) : PartOut p s s := ⟨rfl, fun _ _ => rfl⟩

theorem trans (h : PartOut p s t) (h' : PartOut p t u) : PartOut p s u :=
  ⟨by rw [h'.frame, h.frame], fun q hq => (h'.others q hq).trans (h.others q hq)⟩

theorem modPart (s : State) (f : Part → Part) : PartOut p s (s.modPart p f) := ⟨rfl, fun _ hq => State.part_setPart_ne _ _ hq⟩

theorem emit (s : State) (o : Out) : PartOut p s (s.emit o) := ⟨rfl, fun _ _ => rfl⟩

theorem modCoord (s : State) (f : Coord → Coord) : PartOut p s (s.modCoord p f) := modPart s _

theorem word (h : PartOut p s t) (o : Nat) : t.word o = s.word o := by
  rw [h.frame]
  rfl

theorem mem (h : PartOut p s t) : t.mem = s.mem := by rw [h.frame]

end PartOut

namespace State

variable {s : State} {p : Nat}

theorem coord_modCoord (f : Coord → Coord) : ((s.modCoord p f).part p).coord = f (s.part p).coord :=
  congrArg Part.coord (part_modPart s p _)

theorem waiting_modCoord (s : State) (f : Coord → Coord) : ((s.modCoord p f).part p).waiting = (s.part p).waiting := by
  rw [modCoord, part_modPart]

/-! ## The decision (R280, R281) -/

/-- Every rank of every failed module is covered, in resilient mode. -/
def allCovered (s : State) (p : Nat) : Bool := s.resilient p && (s.orphans p).all (s.covered p)

/-- The RESUME that gives the failed modules' ranks to their partner ranks' hosts. -/
def resumeOf (s : State) (p : Nat) : ResumeMsg :=
  { hepoch := max (s.part p).coord.hepoch (s.getF F.FAB_HSTAT_HEPOCH 0) + 1,
    resumeBn := s.bn + max 0x100 (s.getF F.FAB_HCTRL_RESUME_LEAD 0), step := s.resolvedStep p,
    entries := ((s.orphans p).map fun r => { rank := r, host := s.hostOf p (s.partnerOf p r) }) ++
      ((s.part p).hosts.filter fun x => !(s.orphans p).contains x.1).map fun x => { rank := x.1, host := x.2 },
    digestsAgree := true }

theorem decideHosting_covered (h : s.allCovered p = true) : s.decideHosting p = (s.emit (.resumeMsg p (s.resumeOf p))).modCoord p
    fun c => { c with firstAt := none, hepoch := (s.resumeOf p).hepoch, resumeBn := some (s.resumeOf p).resumeBn } := if_pos h

theorem decideHosting_uncovered (h : s.allCovered p = false) : s.decideHosting p = s.sendStop p :=
  if_neg fun hc => absurd (hc.symm.trans h) (by decide)

theorem decideHosting_partOut (s : State) (p : Nat) : PartOut p s (s.decideHosting p) := by
  cases h : s.allCovered p with
  | true =>
    rw [decideHosting_covered h]
    exact (PartOut.emit s _).trans (.modCoord _ _)
  | false =>
    rw [decideHosting_uncovered h]
    exact (PartOut.emit s _).trans (.modCoord _ _)

theorem decideHosting_decides (s : State) (p : Nat) : Decides s (s.decideHosting p) p := by
  obtain ⟨hframe, hothers⟩ := decideHosting_partOut s p
  refine ⟨hframe, hothers, fun h => ?_, fun h => ?_⟩
  · have hdecide := decideHosting_covered (s := s) (p := p) h
    refine ⟨s.resumeOf p, by rw [hdecide]; rfl, rfl, rfl, rfl, rfl, fun r hr => ?_, by rw [hdecide, coord_modCoord]; rfl⟩
    exact List.mem_append_left _ (List.mem_map.2 ⟨r, hr, rfl⟩)
  · have hdecide := decideHosting_uncovered (s := s) (p := p) h
    exact ⟨by rw [hdecide]; rfl, by rw [hdecide, sendStop, coord_modCoord]; rfl⟩

/-- A decision keeps whether the module waits, and who has failed. -/
theorem decideHosting_waiting (s : State) (p : Nat) : ((s.decideHosting p).part p).waiting = (s.part p).waiting := by
  cases h : s.allCovered p with
  | true =>
    rw [decideHosting_covered h, modCoord, part_modPart]
    rfl
  | false =>
    rw [decideHosting_uncovered h, sendStop, modCoord, part_modPart]
    rfl

/-! ## Notices (R280, R322) -/

theorem takeNotice_partOut (s : State) (p : Nat) (qs : List Nat) : PartOut p s (s.takeNotice p qs) := by
  unfold takeNotice
  extract_lets t
  have ht : PartOut p s t := .modCoord s _
  clear_value t
  split
  · exact ht.trans (decideHosting_partOut t p)
  · exact ht.trans (.modCoord t _)

theorem takeNotice_waiting (s : State) (p : Nat) (qs : List Nat) : ((s.takeNotice p qs).part p).waiting = (s.part p).waiting := by
  unfold takeNotice
  extract_lets t
  have ht : (t.part p).waiting = (s.part p).waiting := waiting_modCoord s _
  clear_value t
  split
  · exact (decideHosting_waiting t p).trans ht
  · exact (waiting_modCoord t _).trans ht

/-- With no RESUME under way a notice names the failed modules, and the first one begins the gather period. -/
theorem takeNotice_gathers {qs : List Nat} (h : s.resumePending p = false) :
    ((s.takeNotice p qs).part p).coord = { (s.part p).coord with
      failed := (s.part p).coord.failed ++ qs.filter fun q => !(s.part p).coord.failed.contains q,
      firstAt := some ((s.part p).coord.firstAt.getD s.bn) } := by
  have hpending : (s.modCoord p fun c => { c with
      failed := c.failed ++ qs.filter fun q => !c.failed.contains q }).resumePending p = false := by
    unfold resumePending at h ⊢
    rw [coord_modCoord]
    exact h
  unfold takeNotice
  dsimp only
  rw [hpending, if_neg (by decide), coord_modCoord, coord_modCoord]
  rfl

/-- What a failure learned of in the commit window does: beside the decision's state, only the partition and what goes out. -/
structure Learned (p : Nat) (s t : State) : Prop where
  frame : t = { s with regs := t.regs, parts := t.parts, out := t.out }
  word : ∀ o, o ≠ F.PLN_COMMIT_STATUS_DSTATE.off p → t.word o = s.word o
  coord : ∃ ds, (t.part p).coord = { (s.part p).coord with doubts := ds }

namespace Learned

variable {t u : State}

theorem refl (s : State) : Learned p s s := ⟨rfl, fun _ _ => rfl, _, rfl⟩

theorem trans (h : Learned p s t) (h' : Learned p t u) : Learned p s u := by
  obtain ⟨ds, hds⟩ := h.coord
  obtain ⟨es, hes⟩ := h'.coord
  exact ⟨by rw [h'.frame, h.frame], fun o ho => (h'.word o ho).trans (h.word o ho), es, by rw [hes, hds]⟩

theorem putDstate (s : State) (v : Nat) : Learned p s (s.putF F.PLN_COMMIT_STATUS_DSTATE p v) :=
  ⟨rfl, fun _ ho => word_putF_ne _ _ _ _ ho, (s.part p).coord.doubts, by rw [part_putF]⟩

theorem modPart (s : State) {f : Part → Part} (hf : ∀ x, (f x).coord = x.coord) : Learned p s (s.modPart p f) :=
  ⟨rfl, fun _ _ => rfl, (s.part p).coord.doubts, by rw [part_modPart, hf]⟩

theorem reportDoubt (s : State) (r : DoubtReport) : Learned p s (s.reportDoubt p r) := by
  unfold State.reportDoubt
  split
  · exact ⟨rfl, fun _ _ => rfl, _, coord_modCoord _⟩
  · exact ⟨rfl, fun _ _ => rfl, _, rfl⟩

end Learned

theorem reportDoubt_tells (s : State) (r : DoubtReport) : PartOut p s (s.reportDoubt p r) ∧
    ((s.reportDoubt p r).part p).waiting = (s.part p).waiting ∧
    (s.isCoord = false → (s.reportDoubt p r).out = .doubt (s.getF F.PLN_BEAT_STATUS_CUR_MASTER 0) r :: s.out) := by
  unfold State.reportDoubt
  split
  · next h => exact ⟨.modCoord s _, waiting_modCoord s _, fun hn => absurd (h.symm.trans hn) (by decide)⟩
  · exact ⟨.emit s _, rfl, fun _ => rfl⟩

/-- The module's step is in doubt: it waits for what the coordinator decides. -/
def inDoubt (s : State) (p : Nat) : State := (s.putF F.PLN_COMMIT_STATUS_DSTATE p 3).modPart p fun x => { x with waiting := true }

theorem inDoubt_learned (s : State) (p : Nat) : Learned p s (s.inDoubt p) :=
  (Learned.putDstate s 3).trans (.modPart _ fun _ => rfl)

theorem learnFailure_learned (s : State) (p : Nat) : Learned p s (s.learnFailure p) := by
  unfold learnFailure
  split
  · exact .refl s
  · split
    · split
      · exact (inDoubt_learned s p).trans (.reportDoubt _ _)
      · exact .refl s
    · exact .reportDoubt _ _
    · exact .refl s
    · exact .reportDoubt _ _

theorem learnFailure_doubts (hw : s.inCommitWindow p = true) (hd : s.getF F.PLN_COMMIT_STATUS_DSTATE p = 0)
    (hok : (s.part p).okSent = true) : s.learnFailure p = (s.inDoubt p).reportDoubt p .inDoubt := by
  unfold learnFailure
  rw [if_neg (by rw [hw]; decide), hd]
  exact if_pos hok

/-! ## The log of failures (R288) -/

theorem hlog_shows (s : State) (qs : List Nat) (b : Nat) :
    RegsOnly (· = F.FAB_HLOG_BN.off 0) s (s.hlog qs b) ∧ (s.hlog qs b).getF F.FAB_HLOG_BN 0 = b % 2 ^ 32 ∧
      (s.hlog qs b).getF F.FAB_HLOG_POS 0 = qs.headD 0 % 2 ^ 17 := by
  refine ⟨⟨rfl, fun o ho => ?_⟩, ?_, ?_⟩
  · rw [hlog, word_putF_ne _ F.FAB_HLOG_POS 0 _ ho, word_putF_ne _ F.FAB_HLOG_BN 0 _ ho]
  · rw [hlog, getF_putF_bits _ _ _ _ _ _ (.inr (by decide)), getF_putF _ _ _ _ (by decide) (by decide)]
    rfl
  · rw [hlog, getF_putF _ _ _ _ (by decide) (by decide)]
    rfl

/-- Who the coordinator is: the master of the beat, as its registers show, and the module's own place. -/
theorem isCoord_congr {t : State} (hmaster : t.word F.PLN_BEAT_STATUS_CUR_MASTER.base = s.word F.PLN_BEAT_STATUS_CUR_MASTER.base)
    (hplace : t.word F.FAB_CFG_X.base = s.word F.FAB_CFG_X.base) : t.isCoord = s.isCoord := by
  obtain ⟨hpos, -, -⟩ := place_congr hplace
  unfold isCoord
  rw [hpos, getF_congr_word (f := F.PLN_BEAT_STATUS_CUR_MASTER) (i := 0) hmaster]

theorem resumePending_congr {t : State} (hbn : t.bn = s.bn) (hcoord : (t.part p).coord.resumeBn = (s.part p).coord.resumeBn) :
    t.resumePending p = s.resumePending p := by
  unfold resumePending
  rw [hcoord, hbn]

end State
end Sys2Proof.Machine

namespace Sys2Proof
open Machine State

/-- A register that the decision's state and the failure log leave. -/
theorem failureNotice_word {s : State} {p : Nat} (qs : List Nat) (b : Nat) {o : Nat} (hlog : o ≠ F.FAB_HLOG_BN.off 0)
    (hd : o ≠ F.PLN_COMMIT_STATUS_DSTATE.off p) : ((s.hlog qs b).learnFailure p).word o = s.word o := by
  obtain ⟨⟨-, hword⟩, -, -⟩ := s.hlog_shows qs b
  exact ((learnFailure_learned _ p).word o hd).trans (hword o hlog)

/-- What the failure log changes is none of what a module in its commit window looks at. -/
theorem hlog_window (s : State) (p : Nat) (qs : List Nat) (b : Nat) (hp : p < 8) :
    (s.hlog qs b).inCommitWindow p = s.inCommitWindow p ∧
      (s.hlog qs b).getF F.PLN_COMMIT_STATUS_DSTATE p = s.getF F.PLN_COMMIT_STATUS_DSTATE p := by
  obtain ⟨⟨-, hword⟩, -, -⟩ := s.hlog_shows qs b
  have hoff (f : Fld) (hf : f.off p < 0x400000) : (s.hlog qs b).getF f p = s.getF f p := by
    refine getF_congr_word (hword _ fun h => ?_)
    rw [h] at hf
    exact absurd hf (by decide)
  have hpos := hoff F.PLN_SPOS_POS (by simp only [Fld.off, F.PLN_SPOS_POS]; omega)
  refine ⟨?_, hoff F.PLN_COMMIT_STATUS_DSTATE (by simp only [Fld.off, F.PLN_COMMIT_STATUS_DSTATE]; omega)⟩
  unfold inCommitWindow
  dsimp only
  rw [hpos]
  rfl

/-- What a notice does before a coordinator takes it: the failure is logged, and learned of. -/
def Machine.State.noticed (s : State) (p : Nat) (qs : List Nat) (b : Nat) : State :=
  (s.hlog qs b).learnFailure p

theorem exec_failureNotice (s : State) (p : Nat) (qs : List Nat) (b : Nat) : exec (.failureNotice p qs b) s =
    .next (if (s.noticed p qs b).isCoord then (s.noticed p qs b).takeNotice p qs else s.noticed p qs b) := rfl

/-- What a notice shows before a coordinator takes it. -/
structure Noticed (p : Nat) (qs : List Nat) (b : Nat) (s t : State) : Prop where
  frame : t = { s with regs := t.regs, parts := t.parts, out := t.out }
  bn : t.getF F.FAB_HLOG_BN 0 = b % 2 ^ 32
  pos : t.getF F.FAB_HLOG_POS 0 = qs.headD 0 % 2 ^ 17
  isCoord : t.isCoord = s.isCoord
  coord : ∃ ds, (t.part p).coord = { (s.part p).coord with doubts := ds }
  now : t.bn = s.bn
  quiet : s.inCommitWindow p = false → t.parts = s.parts ∧ t.out = s.out
  doubt : s.inCommitWindow p = true → s.getF F.PLN_COMMIT_STATUS_DSTATE p = 0 → (s.part p).okSent = true →
    t.getF F.PLN_COMMIT_STATUS_DSTATE p = 3 ∧ (t.part p).waiting = true ∧
      (s.isCoord = false → t.out = .doubt (s.getF F.PLN_BEAT_STATUS_CUR_MASTER 0) .inDoubt :: s.out)

theorem noticed_shows (s : State) (p : Nat) (qs : List Nat) (b : Nat) (hp : p < 8) : Noticed p qs b s (s.noticed p qs b) := by
  have hoff (o : Nat) (ho : o < 0x310000 ∨ 0x400000 ≤ o) : o ≠ F.PLN_COMMIT_STATUS_DSTATE.off p := by
    simp only [Fld.off, F.PLN_COMMIT_STATUS_DSTATE]
    omega
  obtain ⟨⟨hlogframe, hlogword⟩, hlogbn, hlogpos⟩ := s.hlog_shows qs b
  have hlearned := learnFailure_learned (s.hlog qs b) p
  have hmaster := failureNotice_word (s := s) qs b (o := F.PLN_BEAT_STATUS_CUR_MASTER.base) (by decide) (hoff _ (by decide))
  have hplace := failureNotice_word (s := s) qs b (o := F.FAB_CFG_X.base) (by decide) (hoff _ (by decide))
  obtain ⟨hwindow, hdstate⟩ := hlog_window s p qs b hp
  have hparts : (s.hlog qs b).parts = s.parts := by rw [hlogframe]
  have hout : (s.hlog qs b).out = s.out := by rw [hlogframe]
  refine ⟨?_, ?_, ?_, isCoord_congr hmaster hplace, ?_, ?_, fun hw => ?_, fun hw hd hok => ?_⟩
  · rw [State.noticed, hlearned.frame, hlogframe]
  · exact (getF_congr_word (hlearned.word _ (hoff _ (by decide)))).trans hlogbn
  · exact (getF_congr_word (hlearned.word _ (hoff _ (by decide)))).trans hlogpos
  · obtain ⟨ds, hds⟩ := hlearned.coord
    exact ⟨ds, hds.trans (by rw [part_congr hparts])⟩
  · exact bn_congr (failureNotice_word qs b (by decide) (hoff _ (by decide)))
  · have hquiet : s.noticed p qs b = s.hlog qs b := by
      unfold noticed learnFailure
      exact if_pos (by rw [hwindow, hw]; rfl)
    rw [hquiet]
    exact ⟨hparts, hout⟩
  · rw [noticed, learnFailure_doubts (hwindow.trans hw) (hdstate.trans hd) ((congrArg Part.okSent (part_congr hparts p)).trans hok)]
    have hdoubt := (s.hlog qs b).inDoubt_learned p
    have hword (o : Nat) (ho : o < 0x310000 ∨ 0x400000 ≤ o) (hl : o ≠ F.FAB_HLOG_BN.off 0) :
        ((s.hlog qs b).inDoubt p).word o = s.word o := (hdoubt.word _ (hoff o ho)).trans (hlogword _ hl)
    obtain ⟨hkeeps, hwaiting, hsent⟩ := reportDoubt_tells (p := p) ((s.hlog qs b).inDoubt p) .inDoubt
    refine ⟨(getF_congr_word (hkeeps.word _)).trans ?_, hwaiting.trans ?_, fun hc => ?_⟩
    · exact (s.hlog qs b).getF_putF F.PLN_COMMIT_STATUS_DSTATE p 3 (by decide) (by decide)
    · rw [inDoubt, part_modPart]
    · rw [hsent ((isCoord_congr (hword _ (by decide) (by decide)) (hword _ (by decide) (by decide))).trans hc),
        getF_congr_word (f := F.PLN_BEAT_STATUS_CUR_MASTER) (hword F.PLN_BEAT_STATUS_CUR_MASTER.base (by decide) (by decide))]
      exact congrArg _ hout

theorem failureNotice_shows (s : State) (p : Nat) (qs : List Nat) (b : Nat) (hp : p < 8) :
    ∃ u, exec (.failureNotice p qs b) s = .next u ∧ u.getF F.FAB_HLOG_BN 0 = b % 2 ^ 32 ∧
      u.getF F.FAB_HLOG_POS 0 = qs.headD 0 % 2 ^ 17 ∧ MemSame s u ∧
      (s.inCommitWindow p = false → s.isCoord = false → u.parts = s.parts ∧ u.out = s.out) ∧
      (s.isCoord = true → s.resumePending p = false →
        (∀ q, q ∈ (u.part p).coord.failed ↔ q ∈ (s.part p).coord.failed ∨ q ∈ qs) ∧
        (u.part p).coord.firstAt = some ((s.part p).coord.firstAt.getD s.bn)) ∧
      (s.inCommitWindow p = true → s.getF F.PLN_COMMIT_STATUS_DSTATE p = 0 → (s.part p).okSent = true →
        u.getF F.PLN_COMMIT_STATUS_DSTATE p = 3 ∧ (u.part p).waiting = true ∧
        (s.isCoord = false → u.out = .doubt (s.getF F.PLN_BEAT_STATUS_CUR_MASTER 0) .inDoubt :: s.out)) := by
  refine ⟨_, exec_failureNotice s p qs b, ?_⟩
  obtain ⟨hframe, hbn, hpos, hcoord, ⟨ds, hds⟩, hnow, hquiet, hdoubt⟩ := noticed_shows s p qs b hp
  generalize s.noticed p qs b = t at *
  have hmem : t.mem = s.mem := by rw [hframe]
  cases hc : s.isCoord with
  | false =>
    rw [if_neg (by rw [hcoord, hc]; decide)]
    refine ⟨hbn, hpos, fun a => rd8_congr hmem a, fun hw _ => hquiet hw, (fun h => nomatch h), fun hw hd hok => ?_⟩
    obtain ⟨hdstate, hwaiting, hout⟩ := hdoubt hw hd hok
    exact ⟨hdstate, hwaiting, fun _ => hout hc⟩
  | true =>
    rw [if_pos (hcoord.trans hc)]
    have htake := takeNotice_partOut t p qs
    refine ⟨(getF_congr_word (htake.word _)).trans hbn, (getF_congr_word (htake.word _)).trans hpos,
      fun a => rd8_congr (htake.mem.trans hmem) a, (fun _ h => nomatch h), fun _ hpend => ?_, fun hw hd hok => ?_⟩
    · rw [takeNotice_gathers ((resumePending_congr hnow (by rw [hds])).trans hpend), hds, hnow]
      refine ⟨fun q => ?_, rfl⟩
      simp only [List.mem_append, List.mem_filter, Bool.not_eq_true', List.contains_eq_mem, decide_eq_false_iff_not]
      tauto
    · obtain ⟨hdstate, hwaiting, -⟩ := hdoubt hw hd hok
      exact ⟨(getF_congr_word (htake.word _)).trans hdstate, (takeNotice_waiting t p qs).trans hwaiting, fun h => nomatch h⟩

/-! ## What else a coordinator takes -/

theorem hostingDecision_decides (s : State) (p b : Nat) (hc : s.isCoord = true) (hb : (s.part p).coord.firstAt = some b) :
    (s.bn < b + s.getF F.FAB_HCTRL_GATHER 0 → exec (.hostingDecision p) s = .next s) ∧
      (b + s.getF F.FAB_HCTRL_GATHER 0 ≤ s.bn → ∃ u, exec (.hostingDecision p) s = .next u ∧ Decides s u p) := by
  have hexec : exec (.hostingDecision p) s =
      .next (if s.isCoord ∧ b + s.getF F.FAB_HCTRL_GATHER 0 ≤ s.bn then s.decideHosting p else s) := by
    change execHostingDecision p s = _
    unfold execHostingDecision
    rw [hb]
  rw [hexec]
  exact ⟨fun h => congrArg _ (if_neg fun hn => absurd hn.2 (Nat.not_le.2 h)),
    fun h => ⟨_, congrArg _ (if_pos ⟨hc, h⟩), decideHosting_decides s p⟩⟩

/-- A port that went down is one more the coordinator waits for. -/
theorem portDown_noted (s : State) (p q k : Nat) (hc : s.isCoord = true) :
    ∃ u, exec (.portStatusReport p q k false) s = .next u ∧ (q, k) ∈ (u.part p).coord.downPorts ∧ u.out = s.out ∧
      u = { s with parts := u.parts } := by
  refine ⟨_, congrArg Host.Outcome.next (if_pos hc), ?_, rfl, rfl⟩
  change (q, k) ∈ ((s.modCoord p fun c => { c with downPorts := _ }).part p).coord.downPorts
  rw [coord_modCoord]
  exact List.mem_append_right _ (List.mem_singleton.2 rfl)

/-- The last port that is Up again, with no notice pending and no RESUME under way: RESTART goes out. -/
theorem portUp_restarts (s : State) (p q k : Nat) (hc : s.isCoord = true) (hdown : (s.part p).coord.downPorts = [(q, k)])
    (hfirst : (s.part p).coord.firstAt = none) (hpending : s.resumePending p = false) :
    ∃ u, exec (.portStatusReport p q k true) s = .next u ∧ (u.part p).coord.downPorts = [] ∧
      u.out = .restartMsg p (s.resolvedStep p) (s.bn + max 64 (s.getF F.PLN_COMMIT_CFG_ROLL_LEAD p)) :: s.out ∧
      u = { s with parts := u.parts, out := u.out } := by
  have htake : s.takePortReport p q k true = (s.modCoord p fun c => { c with downPorts := [] }).emit
      (.restartMsg p (s.resolvedStep p) (s.bn + max 64 (s.getF F.PLN_COMMIT_CFG_ROLL_LEAD p))) := by
    have hrest : (s.part p).coord.downPorts.filter (· ≠ (q, k)) = [] := by
      rw [hdown]
      simp
    have hpend : (s.modCoord p fun c => { c with downPorts := [] }).resumePending p = false :=
      (resumePending_congr (s := s) (t := s.modCoord p fun c => { c with downPorts := [] }) rfl (by rw [coord_modCoord])).trans hpending
    have hresolved : (s.modCoord p fun c => { c with downPorts := [] }).resolvedStep p = s.resolvedStep p := by
      unfold resolvedStep
      rw [coord_modCoord]
      rfl
    unfold takePortReport
    dsimp only
    have hsome : (s.part p).coord.downPorts ≠ [] := by
      rw [hdown]
      exact List.cons_ne_nil _ _
    rw [hrest, if_neg (by decide), if_pos ⟨rfl, hsome, by rw [hfirst]; rfl, by rw [hpend]; decide⟩, hresolved]
    rfl
  refine ⟨_, congrArg Host.Outcome.next (if_pos hc), ?_⟩
  rw [htake]
  refine ⟨?_, rfl, rfl⟩
  change ((s.modCoord p fun c => { c with downPorts := [] }).part p).coord.downPorts = []
  rw [coord_modCoord]

theorem coordinatorDecides : Claims.CoordinatorDecides := by
  refine ⟨fun s p qs b hp => failureNotice_shows s p qs b hp, fun s p b _ hc hb => hostingDecision_decides s p b hc hb,
    fun s p e _ hc he => ⟨_, congrArg Host.Outcome.next (if_pos ⟨hc, he⟩), decideHosting_decides s p⟩,
    fun s p q k _ hc => ⟨portDown_noted s p q k hc, portUp_restarts s p q k hc⟩,
    fun s p q r _ hc => ⟨_, congrArg Host.Outcome.next (if_pos hc), rfl, coord_modCoord _⟩⟩

end Sys2Proof
end

section
/-! What a coordinator's messages do (O41). -/

namespace Sys2Proof.Machine
namespace State

variable {p : Nat} {s t u : State}

/-! ## A map that comes into force (R281, R282) -/

/-- What a rank's move to another host keeps of partition `p`: the map in force, the step, and whether a restore goes on. -/
structure Rehosted (p : Nat) (s t : State) : Prop where
  hosts : (t.part p).hosts = (s.part p).hosts
  restoring : (t.part p).restoring = (s.part p).restoring
  step : t.word (F.PLN_STEP_STEP.off p) = s.word (F.PLN_STEP_STEP.off p)

namespace Rehosted

theorem refl (s : State) : Rehosted p s s := ⟨rfl, rfl, rfl⟩

theorem trans (h : Rehosted p s t) (h' : Rehosted p t u) : Rehosted p s u :=
  ⟨h'.hosts.trans h.hosts, h'.restoring.trans h.restoring, h'.step.trans h.step⟩

theorem modPart (s : State) {f : Part → Part} (hhosts : ∀ x, (f x).hosts = x.hosts) (hrestoring : ∀ x, (f x).restoring = x.restoring) :
    Rehosted p s (s.modPart p f) :=
  ⟨by rw [part_modPart, hhosts], by rw [part_modPart, hrestoring], rfl⟩

theorem modTableSt (s : State) (t r : Nat) (f : TableSt → TableSt) : Rehosted p s (s.modTableSt p t r f) := by
  rw [modTableSt_eq, setTableSt]
  exact .modPart s (fun _ => rfl) fun _ => rfl

theorem mem (h : MemOnly s t) : Rehosted p s t := by
  rw [h.frame]
  exact ⟨rfl, rfl, rfl⟩

theorem regs (hparts : t.parts = s.parts) (hstep : t.word (F.PLN_STEP_STEP.off p) = s.word (F.PLN_STEP_STEP.off p)) : Rehosted p s t :=
  ⟨by rw [part_congr hparts], by rw [part_congr hparts], hstep⟩

theorem putF (s : State) {f : Fld} {i : Nat} (v : Nat) (h : F.PLN_STEP_STEP.off p ≠ f.off i) : Rehosted p s (s.putF f i v) :=
  .regs rfl (word_putF_ne _ _ _ _ h)

theorem ite {c : Prop} [Decidable c] (ht : Rehosted p s t) (hu : Rehosted p s u) : Rehosted p s (if c then t else u) := by
  split <;> assumption

theorem foldl {α : Type} {act : State → α → State} (hact : ∀ v x, Rehosted p v (act v x)) (l : List α) (s : State) :
    Rehosted p s (l.foldl act s) := by
  induction l generalizing s with
  | nil => exact refl s
  | cons x l ih => exact (hact s x).trans (ih _)

theorem dropRank (s : State) (r : Nat) : Rehosted p s (s.dropRank p r) := by
  unfold State.dropRank
  extract_lets bare
  have hbare : Rehosted p s bare := modPart s (fun _ => rfl) fun _ => rfl
  clear_value bare
  refine (hbare.trans (.putF _ 0 ?_)).trans (.putF _ 0 ?_) <;>
    simp only [Fld.off, F.PLN_STEP_STEP, F.WCH_HROOT_ROOT, F.WCH_CKPT_HBASE_ADDR] <;> omega

theorem loadScales (s : State) (r : Nat) : Rehosted p s (s.loadScales p r) := by
  unfold State.loadScales
  split
  · exact refl s
  · exact .modPart s (fun _ => rfl) fun _ => rfl

theorem loadCounts (s : State) (r : Nat) : Rehosted p s (s.loadCounts p r) := by
  unfold State.loadCounts
  split
  · exact refl s
  · extract_lets a np counted
    have hcounted : Rehosted p s counted := by
      refine foldl (fun v t => ?_) _ s
      exact modPart v (fun _ => rfl) fun _ => rfl
    refine hcounted.trans (foldl (fun v t => ?_) _ _)
    exact modTableSt v _ _ _

theorem loadEpochs (s : State) (r : Nat) : Rehosted p s (s.loadEpochs p r) := by
  unfold State.loadEpochs
  split
  · exact refl s
  · extract_lets loaded
    have hloaded : Rehosted p s loaded := by
      refine foldl (fun v t => ?_) _ s
      exact modTableSt v _ _ _
    refine hloaded.trans ?_
    unfold writeEpochs
    split
    · exact refl _
    · exact .mem (memOnly_foldl (fun w e => (MemOnly.refl w).wr _ _) _ ((MemOnly.refl _).wr _ _))

theorem loadWatches (s : State) (r : Nat) : Rehosted p s (s.loadWatches p r) := by
  unfold State.loadWatches setWatches
  split
  · exact modPart s (fun _ => rfl) fun _ => rfl
  · exact modPart s (fun _ => rfl) fun _ => rfl

theorem readRank (s : State) (r : Nat) : Rehosted p s (s.readRank p r) :=
  (((loadScales s r).trans (loadCounts _ r)).trans (loadEpochs _ r)).trans (loadWatches _ r)

theorem toMirror (s : State) (r a : Nat) (b : List Byte) : Rehosted p s (s.toMirror p r a b) :=
  .mem (memOnly_foldl (fun _ _ => ⟨rfl⟩) _ (MemOnly.refl s))

theorem copyToMirror (s : State) (r n : Nat) (pl : Plan) : Rehosted p s (s.copyToMirror p r n pl) :=
  foldl (fun v _ => toMirror v _ _ _) _ s

theorem applyLogs (s : State) (r : Nat) : Rehosted p s (s.applyLogs p r) := by
  unfold State.applyLogs
  extract_lets logs
  have happlied : Rehosted p s (logs.foldl (fun s l => s.applyLog p l) s) := by
    refine foldl (fun v l => foldl (fun w x => ?_) _ v) _ s
    exact toMirror w _ _ _
  refine happlied.trans ?_
  exact modPart _ (fun _ => rfl) fun _ => rfl

theorem takeRegion (s : State) (r a n : Nat) : Rehosted p s (s.takeRegion p r a n) := .mem ((MemOnly.refl s).wr _ _)

theorem takePages (s : State) (r t : Nat) (d : TableDesc) : Rehosted p s (s.takePages p r t d) := by
  unfold State.takePages
  extract_lets own keys taken
  have htaken : Rehosted p s taken := foldl (fun v k => (mem ((MemOnly.refl v).wr _ _)).trans (.modTableSt _ _ _ _)) _ s
  exact ite (htaken.trans (takeRegion _ _ _ _)) htaken

theorem takeDense (s : State) (r n : Nat) (pl : Plan) : Rehosted p s (s.takeDense p r n pl) := by
  unfold State.takeDense
  extract_lets masters scales counts epochs watches
  have hmasters : Rehosted p s masters := foldl (fun v t => by
    dsimp only
    split
    · exact (takeRegion v _ _ _).trans (takeRegion _ _ _ _)
    · exact refl v) _ s
  exact ((((hmasters.trans (takeRegion _ _ _ _)).trans (takeRegion _ _ _ _)).trans (takeRegion _ _ _ _)).trans
    (takeRegion _ _ _ _)).trans (takeRegion _ _ _ _)

theorem takeCarried (s : State) (r n : Nat) (pl : Plan) : Rehosted p s (s.takeCarried p r n pl) := by
  refine foldl (fun v t => ?_) _ s
  dsimp only
  split
  · refine ite (refl v) ?_
    have hregion := takeRegion (p := p) v
    split
    · exact ite (hregion _ _ _) ((hregion _ _ _).trans (.modTableSt _ _ _ _))
    · exact hregion _ _ _
  · exact refl v

theorem installRank (s : State) (r n : Nat) : Rehosted p s (s.installRank p r n) := by
  unfold State.installRank
  split
  · exact refl s
  · next pl _ =>
    extract_lets bare paged taken shown
    have hbare : Rehosted p s bare := (applyLogs s r).trans (dropRank _ r)
    have hpaged : Rehosted p s paged := hbare.trans (foldl (fun v t => by
      split
      · exact takePages v _ _ _
      · exact refl v) _ _)
    have htaken : Rehosted p s taken := ((hpaged.trans (takeDense _ r n pl)).trans (readRank _ r)).trans (takeCarried _ r n pl)
    clear_value taken
    refine (htaken.trans (.putF _ _ ?_)).trans (.putF _ _ ?_) <;>
      simp only [Fld.off, F.PLN_STEP_STEP, F.WCH_HROOT_ROOT, F.WCH_CKPT_HBASE_ADDR] <;> omega

theorem frameTo (s : State) (k mac type part rank step : Nat) (last : Bool) (b : List Byte) :
    Rehosted p s (s.frameTo k mac type part rank step last b) := by
  unfold State.frameTo
  exact ite (refl s) (.regs rfl rfl)

theorem reroutes (s : State) (r n e : Nat) : Rehosted p s (s.reroutes p r n e) :=
  foldl (fun v _ => foldl (fun w _ => frameTo w _ _ _ _ _ _ _ _) _ v) _ s

end Rehosted

/-! ## What the module shows of the map -/

theorem regsOnly_foldl_mem {β : Type} {P : Nat → Prop} {act : State → β → State} (l : List β)
    (h : ∀ x ∈ l, ∀ v, RegsOnly P v (act v x)) (s : State) : RegsOnly P s (l.foldl act s) := by
  induction l generalizing s with
  | nil => exact ⟨rfl, fun _ _ => rfl⟩
  | cons x l ih => exact regsOnly_trans s (h x List.mem_cons_self s) (ih (fun y hy => h y (List.mem_cons_of_mem x hy)) _)

/-- A digest shown changes its eight registers alone. -/
theorem showDigest_regsOnly (s : State) (p : Nat) (d : BitVec 512) :
    RegsOnly (fun o => 0x31_0040 + 0x1_0000 * p ≤ o ∧ o < 0x31_0080 + 0x1_0000 * p) s (s.showDigest p d) := by
  refine regsOnly_foldl_mem _ (fun i hi v => ⟨rfl, fun o ho => word_setWord_ne _ _ fun h => ho ?_⟩) s
  have hlt := List.mem_range.1 hi
  omega

theorem reschedule_rehosted (hp : p < 8) (s : State) (lead : Bool) : Rehosted p s (s.reschedule p lead) ∧
    (s.reschedule p lead).getF F.FAB_HSTAT_HEPOCH 0 = s.getF F.FAB_HSTAT_HEPOCH 0 := by
  unfold reschedule
  extract_lets x
  split
  · exact ⟨.refl s, rfl⟩
  · next pl _ =>
    extract_lets
    split
    next sched len _ =>
    extract_lets placed
    have hplaced : Rehosted p s placed := .modPart s (fun _ => rfl) fun _ => rfl
    have hshown : placed.getF F.FAB_HSTAT_HEPOCH 0 = s.getF F.FAB_HSTAT_HEPOCH 0 := rfl
    clear_value placed
    generalize scheduleDigest sched len (placed.part p).movers = d
    obtain ⟨hframe, hword⟩ := showDigest_regsOnly placed p d
    refine ⟨hplaced.trans (.regs (by rw [hframe]) (hword _ ?_)), (getF_congr_word (hword _ ?_)).trans hshown⟩
    · simp only [Fld.off, F.PLN_STEP_STEP]
      omega
    · simp only [Fld.off, F.FAB_HSTAT_HEPOCH]
      omega

theorem showHosting_shows (s : State) (hp : p < 8) (e mirror : Nat) :
    Rehosted p s (s.showHosting p e mirror) ∧ (s.showHosting p e mirror).getF F.FAB_HSTAT_HEPOCH 0 = e % 2 ^ 32 := by
  have hstep (f : Fld) (h : f.off 0 < 0x310000 ∨ 0x400000 ≤ f.off 0) : F.PLN_STEP_STEP.off p ≠ f.off 0 := by
    simp only [Fld.off, F.PLN_STEP_STEP] at h ⊢
    omega
  unfold showHosting
  extract_lets h here own shown epoch
  have hown : Rehosted p s own := (Rehosted.putF s _ (hstep _ (by decide))).trans (.putF _ _ (hstep _ (by decide)))
  clear_value own
  have hshown : Rehosted p s shown := by
    simp only [shown]
    split <;> exact (hown.trans (.putF _ _ (hstep _ (by decide)))).trans (.putF _ _ (hstep _ (by decide)))
  clear_value shown
  have hepoch : Rehosted p s epoch ∧ epoch.getF F.FAB_HSTAT_HEPOCH 0 = e % 2 ^ 32 :=
    ⟨(hshown.trans (.putF _ _ (hstep _ (by decide)))).trans (.putF _ _ (hstep _ (by decide))),
      (getF_putF_apart _ _ (.inr (.inr (by decide)))).trans (shown.getF_putF F.FAB_HSTAT_HEPOCH 0 e (by decide) (by decide))⟩
  clear_value epoch
  exact ⟨hepoch.1.trans (.putF _ _ (hstep _ (by decide))), (getF_putF_apart _ _ (.inr (.inr (by decide)))).trans hepoch.2⟩

/-- A RESUME's map in force at partition `p`: the entries that name another host than the home, and the hosting epoch. -/
structure InForce (p : Nat) (m : ResumeMsg) (s t : State) : Prop where
  hosts : (t.part p).hosts = (m.entries.filter fun e => e.host ≠ s.homePos p e.rank).map fun e => (e.rank, e.host)
  restoring : (t.part p).restoring = (s.part p).restoring
  step : t.word (F.PLN_STEP_STEP.off p) = s.word (F.PLN_STEP_STEP.off p)
  epoch : t.getF F.FAB_HSTAT_HEPOCH 0 = m.hepoch % 2 ^ 32

theorem applyMap_inForce (s : State) (hp : p < 8) (m : ResumeMsg) (n : Nat) (lead : Bool) : InForce p m s (s.applyMap p m n lead) := by
  unfold applyMap
  extract_lets was h before mapped here fresh gone left come claimed
  have hhosts : (mapped.part p).hosts = (m.entries.filter fun e => e.host ≠ s.homePos p e.rank).map fun e => (e.rank, e.host) :=
    congrArg Part.hosts (part_modPart s p _)
  have hrestoring : (mapped.part p).restoring = (s.part p).restoring := by
    simp only [mapped]
    rw [part_modPart]
  have hmapped : mapped.word (F.PLN_STEP_STEP.off p) = s.word (F.PLN_STEP_STEP.off p) := rfl
  clear_value mapped
  have hleft : Rehosted p mapped left := .foldl (fun v r => by
    split
    · exact .ite ((Rehosted.copyToMirror v _ _ _).trans (.dropRank _ _)) (.dropRank v _)
    · exact .refl v) _ _
  clear_value left
  have hcome : Rehosted p mapped come := hleft.trans (.foldl (fun v r => 
    .ite (.readRank v _) ((Rehosted.installRank v _ _).trans (.reroutes _ _ _ _))) _ _)
  clear_value come
  have hclaimed : Rehosted p mapped claimed := hcome.trans (.ite (.putF _ _ (by
    simp only [Fld.off, F.PLN_STEP_STEP, F.FAB_HCTRL_CLAIM]
    omega)) (.refl _))
  clear_value claimed
  obtain ⟨hshown, hepoch⟩ := showHosting_shows claimed hp m.hepoch (claimed.mirrorAfter p was before)
  obtain ⟨hplaced, hkept⟩ := reschedule_rehosted hp (claimed.showHosting p m.hepoch (claimed.mirrorAfter p was before)) lead
  obtain ⟨hh, hr, hs⟩ := (hclaimed.trans hshown).trans hplaced
  exact ⟨hh.trans hhosts, hr.trans hrestoring, hs.trans hmapped, hkept.trans hepoch⟩

end State
end Sys2Proof.Machine
end

section
/-! What a coordinator's messages do (O41). -/

namespace Sys2Proof.Machine
namespace State

variable {p : Nat} {s t u : State}

/-! ## Obeying (R282, R285, R318, R322) -/

/-- A step that stands rolled back, and is not to be committed, is resolved already. -/
theorem resolve_rolling (hr : s.rolling p = true)
    (hd : s.getF F.PLN_COMMIT_STATUS_DSTATE p ≠ 1 ∧ s.getF F.PLN_COMMIT_STATUS_DSTATE p ≠ 3) (n : Nat) : s.resolve p n = s := by
  obtain ⟨h1, h3⟩ := hd
  unfold resolve
  dsimp only
  rw [if_neg (c := _ ∧ _) (fun h => h.1.elim h3 h1), if_pos hr]

theorem setOrigin_eq (s : State) (p b : Nat) : s.setOrigin p b = (s.modPart p fun x => { x with rerunBn := some b, waiting := false }).putF
    F.PLN_COMMIT_STATUS_DSTATE p (if (s.part p).restoring = true then 4 else 2) := rfl

theorem setOrigin_part (s : State) (p b : Nat) : (s.setOrigin p b).part p = { s.part p with rerunBn := some b, waiting := false } := by
  rw [setOrigin_eq, part_putF, part_modPart]

theorem setOrigin_dstate (s : State) (p b : Nat) :
    (s.setOrigin p b).getF F.PLN_COMMIT_STATUS_DSTATE p = if (s.part p).restoring = true then 4 else 2 := by
  rw [setOrigin_eq, getF_putF _ _ _ _ (by decide) (by decide)]
  cases (s.part p).restoring <;> rfl

theorem setOrigin_word (s : State) (p b : Nat) {o : Nat} (ho : o ≠ F.PLN_COMMIT_STATUS_DSTATE.off p) :
    (s.setOrigin p b).word o = s.word o := word_putF_ne _ _ _ _ ho

theorem homeRank_congr (hparts : t.parts = s.parts) (hcfg : t.word F.FAB_CFG_X.base = s.word F.FAB_CFG_X.base) :
    t.homeRank p = s.homeRank p := by
  obtain ⟨hrank, -⟩ := home_congr hparts hcfg p
  obtain ⟨hpos, -, -⟩ := place_congr hcfg
  unfold homeRank
  rw [hpos, hrank]

theorem stopApart_step (p : Nat) : StopApart F.PLN_STEP_STEP p p := by
  refine ⟨.inl ?_, .inl ?_, .inl ?_, .inl ?_, .inl ?_, fun g => .inl ?_⟩ <;>
    simp only [Fld.off, F.PLN_STEP_STEP, F.PLN_CTRL_RUN, F.GEN_STATUS_RUNNING, F.PLN_COMMIT_STATUS_DSTATE, F.PLN_SPOS_POS,
      F.DMA_PEVT_CAUSE, F.TIL_STATUS_STATE] <;> omega

theorem curStep_modPart (s : State) (p q : Nat) (f : Part → Part) : (s.modPart q f).curStep p = s.curStep p := rfl

/-- A rollback re-runs the step in progress: its number stands. -/
theorem curStep_rollback (s : State) (p : Nat) (r : CommitReport) (h : s.rolling p = false) : (s.rollback p r).curStep p = s.curStep p := by
  have hput (v : State) (f : Fld) (n : Nat) (hf : f ∈ [F.PLN_COMMIT_STATUS_ROLLBACKS, F.PLN_COMMIT_STATUS_ATTEMPT,
      F.PLN_COMMIT_STATUS_DSTATE, F.PLN_ROLL_BN_BN, F.PLN_ROLL_INFO_ORIGIN, F.PLN_ROLL_INFO_TASK, F.PLN_ROLL_INFO_CAUSE]) :
      (v.putF f p n).curStep p = v.curStep p := by
    refine getF_putF_apart v n (.inl ?_)
    simp only [List.mem_cons, List.not_mem_nil, or_false] at hf
    rcases hf with rfl | rfl | rfl | rfl | rfl | rfl | rfl <;> simp only [Fld.off] <;> simp only [F.PLN_STEP_STEP,
      F.PLN_COMMIT_STATUS_ROLLBACKS, F.PLN_COMMIT_STATUS_ATTEMPT, F.PLN_COMMIT_STATUS_DSTATE, F.PLN_ROLL_BN_BN,
      F.PLN_ROLL_INFO_ORIGIN, F.PLN_ROLL_INFO_TASK, F.PLN_ROLL_INFO_CAUSE] <;> omega
  have hkeeps := stopApart_step p
  unfold rollback
  extract_lets x k wait joined told step stopped restored channels movers engines queues waits keep stale unsent cleared counted
    attempt shown noted opened
  rw [if_neg (by rw [h]; decide)]
  have hstopped : stopped.curStep p = s.curStep p := by
    refine getF_foldl (fun v g => ?_) _ _
    unfold stopTile
    dsimp only
    split
    · exact getF_putF_apart v _ (hkeeps.tile g)
    · rfl
  clear_value stopped
  have hrestored : restored.curStep p = stopped.curStep p := by
    refine getF_foldl (fun v g => ?_) _ _
    split
    · rfl
    · exact getF_restoreTile hkeeps v g
  clear_value restored
  have hchannels : channels.curStep p = restored.curStep p := by
    refine getF_foldl (fun v c => getF_foldl (fun w i => ?_) _ v) _ _
    rfl
  clear_value channels
  have hmovers : movers.curStep p = channels.curStep p := by
    refine getF_foldl (fun v i => ?_) _ _
    split
    · split <;> rfl
    · rfl
  clear_value movers
  have hengines : engines.curStep p = movers.curStep p := by
    refine getF_foldl (fun v e => ?_) _ _
    unfold ochRollback
    dsimp only
    split <;> rfl
  clear_value engines
  have hqueues : queues.curStep p = engines.curStep p := by
    refine getF_foldl (fun v i => ?_) _ _
    rfl
  clear_value queues
  have hunsent : unsent.curStep p = queues.curStep p := by
    refine getF_foldl (fun v i => ?_) _ _
    rfl
  clear_value unsent
  have hcleared : cleared.curStep p = unsent.curStep p := by
    obtain ⟨f, hf⟩ : ∃ f : Part → Part, cleared = unsent.modPart p f := ⟨_, rfl⟩
    rw [hf, curStep_modPart]
  clear_value cleared
  have hcounted : counted.curStep p = cleared.curStep p := hput cleared F.PLN_COMMIT_STATUS_ROLLBACKS _ (by simp)
  clear_value counted
  have hattempt : attempt.curStep p = counted.curStep p := hput counted _ _ (by simp)
  clear_value attempt
  have hshown : shown.curStep p = attempt.curStep p := hput attempt _ _ (by simp)
  clear_value shown
  have hnoted : noted.curStep p = shown.curStep p :=
    (hput _ F.PLN_ROLL_INFO_CAUSE _ (by simp)).trans ((hput _ F.PLN_ROLL_INFO_TASK _ (by simp)).trans
      ((hput _ F.PLN_ROLL_INFO_ORIGIN _ (by simp)).trans (hput shown F.PLN_ROLL_BN_BN _ (by simp))))
  clear_value noted
  have hopened : opened.curStep p = s.curStep p := by
    refine Eq.trans ?_ (hnoted.trans (hshown.trans (hattempt.trans (hcounted.trans (hcleared.trans (hunsent.trans (hqueues.trans
      (hengines.trans (hmovers.trans (hchannels.trans (hrestored.trans hstopped)))))))))))
    simp only [opened]
    split
    · rfl
    · exact (hput _ F.PLN_COMMIT_STATUS_DSTATE _ (by simp)).trans (curStep_modPart noted p p _)
  clear_value opened
  split
  · exact (getF_stopRolled hkeeps opened _).trans hopened
  · exact hopened

/-- A job that ends: the plan has stopped, the outcome shows, and no notice is kept. -/
structure JobEnded (p outcome : Nat) (s t : State) : Prop where
  stopped : t.running p = false
  idle : (t.part p).active = false
  unnoticed : t.notice = none
  shown : t.getF F.FAB_HSTAT_OUTCOME 0 = outcome
  mem : t.mem = s.mem

theorem active_planStop (s : State) (p cause : Nat) : ((s.planStop p cause).part p).active = false := by
  unfold planStop
  extract_lets s1 s2 s3 s4 s5
  have h2 : (s2.part p).active = false := by simp only [s2, modPart_eq, part_setPart]
  clear_value s2
  have h4 : s4.parts = s2.parts := rfl
  clear_value s4
  have h5 : s5.parts = s4.parts := by
    refine parts_foldl (fun v i => ?_) _ _
    dsimp only
    split
    · exact parts_signalQ _ _
    · rfl
  rw [part_congr ((parts_pevt s5 p 1).trans (h5.trans h4)), h2]

theorem endJob_ended (s : State) {outcome : Nat} (ho : outcome < 4) : JobEnded p outcome s (s.endJob p outcome) := by
  have hstop := (FaultStep.refl s).stopRolled p (s.getF F.PLN_ROLL_INFO_CAUSE p)
  have hrun : (s.stopRolled p (s.getF F.PLN_ROLL_INFO_CAUSE p)).running p = false := running_planStop _ p _
  have hidle : ((s.stopRolled p (s.getF F.PLN_ROLL_INFO_CAUSE p)).part p).active = false := active_planStop _ p _
  unfold endJob
  extract_lets t
  change FaultStep s t at hstop
  change t.running p = false at hrun
  change (t.part p).active = false at hidle
  clear_value t
  have hmem : t.mem = s.mem := by rw [hstop.frame]
  refine ⟨?_, ?_, rfl, ?_, ?_⟩
  · refine (flag_congr (word_putF_ne t F.FAB_HSTAT_OUTCOME 0 outcome ?_)).trans hrun
    simp only [Fld.off, F.PLN_CTRL_RUN, F.FAB_HSTAT_OUTCOME]
    omega
  · exact hidle
  · exact (t.getF_putF F.FAB_HSTAT_OUTCOME 0 outcome (by decide) (by decide)).trans (Nat.mod_eq_of_lt ho)
  · exact hmem

/-- The map of a RESUME in force, and the origin it names set. -/
def mapped (s : State) (p : Nat) (r : ResumeMsg) : State :=
  let moved := (r.entries.filter fun e => e.host ≠ s.hostOf p e.rank).map (·.rank)
  ((s.dropExchanges p moved).applyMap p r (s.curStep p) true).setOrigin p r.resumeBn

/-- What a RESUME that is obeyed leaves. -/
structure Obeyed (p : Nat) (r : ResumeMsg) (s t : State) : Prop where
  origin : (t.part p).rerunBn = some r.resumeBn
  goes : (t.part p).waiting = false
  hosts : (t.part p).hosts = r.entries.map fun e => (e.rank, e.host)
  epoch : t.getF F.FAB_HSTAT_HEPOCH 0 = r.hepoch % 2 ^ 32
  step : t.curStep p = s.curStep p
  dstate : t.getF F.PLN_COMMIT_STATUS_DSTATE p = if (s.part p).restoring = true then 4 else 2

theorem mapped_obeyed (s : State) (hp : p < 8) (r : ResumeMsg) (haway : ∀ e ∈ r.entries, e.host ≠ s.homePos p e.rank) :
    Obeyed p r s (s.mapped p r) := by
  unfold mapped
  extract_lets moved
  clear_value moved
  generalize s.curStep p = n
  have hdrop : Rehosted p s (s.dropExchanges p moved) := by
    unfold dropExchanges
    exact .modPart s (fun _ => rfl) fun _ => rfl
  have hhome : (s.dropExchanges p moved).homePos p = s.homePos p := by
    funext k
    have hplan : ((s.dropExchanges p moved).part p).plan = (s.part p).plan := by
      unfold dropExchanges
      dsimp only
      rw [part_modPart]
    unfold homePos
    rw [hplan]
    rfl
  obtain ⟨hhosts, hrestoring, hstep, hepoch⟩ := applyMap_inForce (s.dropExchanges p moved) hp r n true
  rw [hhome, List.filter_eq_self.2 fun e he => decide_eq_true (haway e he)] at hhosts
  replace hrestoring := hrestoring.trans hdrop.restoring
  replace hstep := hstep.trans hdrop.step
  generalize (s.dropExchanges p moved).applyMap p r n true = t at *
  have hpart := setOrigin_part t p r.resumeBn
  refine ⟨by rw [hpart], by rw [hpart], by rw [hpart, hhosts], ?_, getF_congr_word ((setOrigin_word t p _ ?_).trans hstep), ?_⟩
  · refine (getF_congr_word (setOrigin_word t p _ ?_)).trans hepoch
    simp only [Fld.off, F.FAB_HSTAT_HEPOCH, F.PLN_COMMIT_STATUS_DSTATE]
    omega
  · simp only [Fld.off, F.PLN_STEP_STEP, F.PLN_COMMIT_STATUS_DSTATE]
    omega
  · rw [setOrigin_dstate, hrestoring]

end State
end Sys2Proof.Machine

namespace Sys2Proof
open Machine State

/-! ## Messages -/

theorem resume_ignored (s : State) (p : Nat) (r : ResumeMsg) (h : (s.part p).active = false ∨ r.hepoch ≤ s.epochHeld p) :
    exec (.resume p r) s = .next s :=
  congrArg Host.Outcome.next (if_pos (h.imp_left fun h => by rw [h]; rfl))

theorem exec_resume {s : State} {p : Nat} {r : ResumeMsg} (ha : (s.part p).active = true) (he : s.epochHeld p < r.hepoch) :
    exec (.resume p r) s = .next (if r.resumeBn < s.bn then
        if s.isCoord then s.decideHosting p else s.emit (.lateResume p r.hepoch)
      else if s.returnsRank p r then s.modPart p fun x => { x with pendResume := some r }
      else s.obeyResume p r) :=
  congrArg Host.Outcome.next (if_neg fun h => h.elim (fun h => by rw [ha] at h; exact absurd h (by decide)) (Nat.not_le.2 he))

/-- A RESUME of a higher epoch that is in time and returns no rank home is obeyed, in a module whose step stands rolled back. -/
theorem exec_resume_obeyed {s : State} {p : Nat} {r : ResumeMsg} (ha : (s.part p).active = true) (he : s.epochHeld p < r.hepoch)
    (hb : s.bn ≤ r.resumeBn) (haway : ∀ e ∈ r.entries, e.host ≠ s.homePos p e.rank) (hr : s.rolling p = true)
    (hd : s.getF F.PLN_COMMIT_STATUS_DSTATE p ≠ 1 ∧ s.getF F.PLN_COMMIT_STATUS_DSTATE p ≠ 3) :
    exec (.resume p r) s = .next (if !r.digestsAgree then s.endJob p 3 else
      { s.mapped p r with notice := none }) := by
  have hstays : s.returnsRank p r = false := by
    rw [returnsRank, List.any_eq_false]
    intro e h
    rw [decide_eq_true_eq]
    exact haway e h
  rw [exec_resume ha he, if_neg (Nat.not_lt.2 hb), if_neg (by rw [hstays]; decide)]
  refine congrArg Host.Outcome.next ?_
  unfold obeyResume
  rw [resolve_rolling hr hd]
  exact if_neg (by rw [ha]; decide)

theorem resume_taken (s : State) (p : Nat) (r : ResumeMsg) (hp : p < 8) :
    ((s.part p).active = false ∨ r.hepoch ≤ s.epochHeld p → exec (.resume p r) s = .next s) ∧
    ((s.part p).active = true → s.epochHeld p < r.hepoch → r.resumeBn < s.bn → s.isCoord = false →
      exec (.resume p r) s = .next { s with out := .lateResume p r.hepoch :: s.out }) ∧
    ((s.part p).active = true → s.epochHeld p < r.hepoch → s.bn ≤ r.resumeBn →
      (∃ e ∈ r.entries, e.host = s.homePos p e.rank) →
      ∃ u, exec (.resume p r) s = .next u ∧ u.part p = { s.part p with pendResume := some r } ∧
        u = { s with parts := u.parts } ∧ ∀ q, q ≠ p → u.part q = s.part q) ∧
    ((s.part p).active = true → s.epochHeld p < r.hepoch → s.bn ≤ r.resumeBn →
      (∀ e ∈ r.entries, e.host ≠ s.homePos p e.rank) → s.rolling p = true →
      (s.getF F.PLN_COMMIT_STATUS_DSTATE p ≠ 1 ∧ s.getF F.PLN_COMMIT_STATUS_DSTATE p ≠ 3) →
      ∃ u, exec (.resume p r) s = .next u ∧ u.notice = none ∧
        (r.digestsAgree = true → (u.part p).rerunBn = some r.resumeBn ∧ (u.part p).waiting = false ∧
          (u.part p).hosts = r.entries.map (fun e => (e.rank, e.host)) ∧
          u.getF F.FAB_HSTAT_HEPOCH 0 = r.hepoch % 2 ^ 32 ∧ u.curStep p = s.curStep p ∧
          u.getF F.PLN_COMMIT_STATUS_DSTATE p = (if (s.part p).restoring = true then 4 else 2)) ∧
        (r.digestsAgree = false → u.running p = false ∧ (u.part p).active = false ∧
          u.getF F.FAB_HSTAT_OUTCOME 0 = 3 ∧ MemSame s u)) := by
  refine ⟨resume_ignored s p r, fun ha he hb hc => ?_, fun ha he hb hhome => ?_, fun ha he hb haway hr hd => ?_⟩
  · rw [exec_resume ha he, if_pos hb, if_neg (by rw [hc]; decide)]
    rfl
  · have hreturns : s.returnsRank p r = true := by
      obtain ⟨e, hmem, h⟩ := hhome
      exact List.any_eq_true.2 ⟨e, hmem, decide_eq_true h⟩
    rw [exec_resume ha he, if_neg (Nat.not_lt.2 hb), if_pos hreturns]
    exact ⟨_, rfl, part_modPart s p _, rfl, fun q hq => part_setPart_ne _ _ hq⟩
  · rw [exec_resume_obeyed ha he hb haway hr hd]
    cases hdigest : r.digestsAgree with
    | false =>
      rw [if_pos (by decide)]
      obtain ⟨hrun, hidle, hnotice, hout, hmem⟩ := endJob_ended s (p := p) (outcome := 3) (by decide)
      exact ⟨_, rfl, hnotice, (fun h => nomatch h), fun _ => ⟨hrun, hidle, hout, rd8_congr hmem⟩⟩
    | true =>
      rw [if_neg (by decide)]
      obtain ⟨horigin, hwaits, hhosts, hepoch, hstep, hdstate⟩ := mapped_obeyed s hp r haway
      generalize s.mapped p r = u at *
      exact ⟨_, rfl, rfl, fun _ => ⟨horigin, hwaits, hhosts, hepoch, hstep, hdstate⟩, fun h => nomatch h⟩

theorem hostingStop_taken (s : State) (p n : Nat) (b : Bool) :
    ((s.part p).active = false → exec (.hostingStop p n b) s = .next s) ∧
    ((s.part p).active = true → ∃ u, exec (.hostingStop p n b) s = .next u ∧ u.running p = false ∧
      (u.part p).active = false ∧ u.notice = none ∧ u.getF F.FAB_HSTAT_OUTCOME 0 = if b = true then 3 else 2) := by
  refine ⟨fun h => congrArg Host.Outcome.next (if_neg (by rw [h]; decide)), fun h => ⟨_, congrArg Host.Outcome.next (if_pos h), ?_⟩⟩
  obtain ⟨hrun, hidle, hnotice, hout, -⟩ := endJob_ended (s.resolve p n) (p := p) (outcome := if b = true then 3 else 2) (by cases b <;> decide)
  exact ⟨hrun, hidle, hnotice, hout⟩

theorem restart_taken (s : State) (p n b : Nat) :
    ((s.part p).active = false ∨ (s.part p).waiting = false → exec (.restart p n b) s = .next s) ∧
    ((s.part p).active = true → (s.part p).waiting = true → s.rolling p = true →
      (s.getF F.PLN_COMMIT_STATUS_DSTATE p ≠ 1 ∧ s.getF F.PLN_COMMIT_STATUS_DSTATE p ≠ 3) →
      ∃ u, exec (.restart p n b) s = .next u ∧ u.part p = { s.part p with rerunBn := some b, waiting := false } ∧
        u.getF F.PLN_COMMIT_STATUS_DSTATE p = (if (s.part p).restoring = true then 4 else 2) ∧
        u = { s with parts := u.parts, regs := u.regs } ∧ (∀ q, q ≠ p → u.part q = s.part q) ∧
        ∀ o, o ≠ F.PLN_COMMIT_STATUS_DSTATE.off p → u.word o = s.word o) ∧
    ((s.part p).active = true → (s.part p).waiting = true → s.getF F.PLN_COMMIT_STATUS_DSTATE p = 3 → n = s.curStep p →
      (s.part p).rerunBn = none → (s.part p).stopAtRollback = false →
      ∃ u, exec (.restart p n b) s = .next u ∧ (u.part p).rerunBn = some b ∧ (u.part p).waiting = false ∧
        (u.part p).rollbacks = (s.part p).rollbacks + 1 ∧ u.curStep p = n ∧ MemSame s u) := by
  have hexec (ha : (s.part p).active = true) (hw : (s.part p).waiting = true) :
      exec (.restart p n b) s = .next ((s.resolve p n).setOrigin p b) := congrArg Host.Outcome.next (if_pos ⟨ha, hw⟩)
  refine ⟨fun h => congrArg Host.Outcome.next (if_neg fun hn => ?_), fun ha hw hr hd => ?_, fun ha hw hd hn hrerun hstop => ?_⟩
  · obtain ⟨ha, hw⟩ := hn
    rw [ha, hw] at h
    exact absurd h (by decide)
  · rw [hexec ha hw, resolve_rolling hr hd]
    exact ⟨_, rfl, setOrigin_part s p b, setOrigin_dstate s p b, rfl, fun q hq => part_setPart_ne _ _ hq, fun o ho => setOrigin_word s p b ho⟩
  · have hquiet : s.rolling p = false := by
      unfold rolling
      dsimp only
      rw [hrerun, hd, hw]
      cases decide ((s.part p).rollbacks ≠ 0) <;> rfl
    have hresolve : s.resolve p n = s.rollback p (s.originReport p) := by
      unfold resolve
      dsimp only
      rw [if_neg (c := _ ∧ _) (fun h => absurd (h.2.symm.trans hn) (Nat.succ_ne_self _)), hquiet]
      rfl
    have hrolled := rollback_shows hquiet (r := s.originReport p) (show 5 < 2 ^ 8 by decide) s.bn_lt
    have hmem : (s.rollback p (s.originReport p)).mem = s.mem := by rw [((FaultStep.refl s).rollback p (s.originReport p)).frame]
    have hstep := curStep_rollback s p (s.originReport p) hquiet
    rw [hexec ha hw, hresolve]
    generalize s.rollback p (s.originReport p) = t at *
    refine ⟨_, rfl, by rw [setOrigin_part], by rw [setOrigin_part], by rw [setOrigin_part, hrolled.rollbacks], ?_, rd8_congr hmem⟩
    refine ((getF_congr_word (setOrigin_word t p b ?_)).trans hstep).trans hn.symm
    simp only [Fld.off, F.PLN_STEP_STEP, F.PLN_COMMIT_STATUS_DSTATE]
    omega

/-- A finite fact: the fields of `FAB_HCTRL`. -/
theorem regAt_hctrl : ∃ r i, regAt 0x600100 = some (r, i) ∧ F.FAB_HCTRL_GATHER ∈ r.fields ∧ F.FAB_HCTRL_RESUME_LEAD ∈ r.fields := by
  have hrow : ((regAt 0x600100).any fun x => x.1.fields.contains F.FAB_HCTRL_GATHER && x.1.fields.contains F.FAB_HCTRL_RESUME_LEAD) = true := by
    decide +kernel
  cases hat : regAt 0x600100 with
  | none => rw [hat] at hrow; exact absurd hrow (by decide)
  | some x =>
    rw [hat] at hrow
    obtain ⟨hgather, hlead⟩ := Bool.and_eq_true_iff.mp hrow
    exact ⟨x.1, x.2, rfl, List.contains_iff_mem.mp hgather, List.contains_iff_mem.mp hlead⟩

theorem hostClaim_taken (s : State) (f : Func) (p : Nat) (v : Word) (hopen : Open s f 0x600100) :
    ∃ u, exec (.hostClaim f p v) s = .next u ∧ u.getF F.FAB_HCTRL_GATHER 0 = getBits v 15 8 ∧
      u.getF F.FAB_HCTRL_RESUME_LEAD 0 = getBits v 31 16 ∧
      (getBits v 0 0 = 1 ∧ (s.ranksHere p).contains (s.homeRank p) = false →
        u.part p = { s.part p with claim := true } ∧ u.getF F.FAB_HCTRL_CLAIM 0 = 1) ∧
      (¬ (getBits v 0 0 = 1 ∧ (s.ranksHere p).contains (s.homeRank p) = false) → u.parts = s.parts) ∧
      u = { s with regs := u.regs, parts := u.parts } ∧ ∀ o, o ≠ 0x600100 → u.word o = s.word o := by
  obtain ⟨r, i, hrow, hgatherMem, hleadMem⟩ := regAt_hctrl
  have hregs := s.writeOthers_eq 0x600100 v
  have hword := fun {o : Nat} (ho : o ≠ 0x600100) => s.word_writeOthers_ne 0x600100 v ho
  have hgather : (s.writeOthers 0x600100 v).getF F.FAB_HCTRL_GATHER 0 = getBits v 15 8 :=
    s.getF_writeOthers_rw hrow v hgatherMem (by decide) rfl rfl rfl
  have hlead : (s.writeOthers 0x600100 v).getF F.FAB_HCTRL_RESUME_LEAD 0 = getBits v 31 16 :=
    s.getF_writeOthers_rw hrow v hleadMem (by decide) rfl rfl rfl
  have hexec : exec (.hostClaim f p v) s = .next (if getBits v 0 0 = 1 ∧ ¬ ((s.writeOthers 0x600100 v).ranksHere p).contains
      ((s.writeOthers 0x600100 v).homeRank p) then ((s.writeOthers 0x600100 v).putF F.FAB_HCTRL_CLAIM 0 1).modPart p fun x =>
        { x with claim := true } else s.writeOthers 0x600100 v) := congrArg Host.Outcome.next (s.gated_of_open hopen _)
  rw [hexec]
  have hparts : (s.writeOthers 0x600100 v).parts = s.parts := by rw [hregs]
  have hcfg : (s.writeOthers 0x600100 v).word F.FAB_CFG_X.base = s.word F.FAB_CFG_X.base := hword (by decide)
  rw [ranksHere_congr hparts hcfg, homeRank_congr hparts hcfg]
  generalize s.writeOthers 0x600100 v = t at *
  by_cases hclaim : getBits v 0 0 = 1 ∧ (s.ranksHere p).contains (s.homeRank p) = false
  · rw [if_pos (by simpa using hclaim)]
    refine ⟨_, rfl, ?_, ?_, fun _ => ⟨?_, ?_⟩, fun h => absurd hclaim h, ?_, fun o ho => ?_⟩
    · exact (getF_putF_apart t 1 (.inr (.inr (by decide)))).trans hgather
    · exact (getF_putF_apart t 1 (.inr (.inr (by decide)))).trans hlead
    · rw [part_modPart, part_putF, part_congr hparts]
    · exact t.getF_putF F.FAB_HCTRL_CLAIM 0 1 (by decide) (by decide)
    · rw [hregs]
      rfl
    · exact (word_putF_ne t F.FAB_HCTRL_CLAIM 0 1 ho).trans (hword ho)
  · rw [if_neg (by simpa using hclaim)]
    exact ⟨_, rfl, hgather, hlead, fun h => absurd h hclaim, fun _ => hparts, by rw [hregs], fun o ho => hword ho⟩

theorem hostingMessages : Claims.HostingMessages :=
  ⟨fun s p r hp => resume_taken s p r hp, fun s p n b _ => hostingStop_taken s p n b, fun s p n b _ => restart_taken s p n b,
    fun s f p v _ hopen => hostClaim_taken s f p v hopen⟩

/-- Settles O41: a notice, a decision and a report change the coordinator's record alone and send what it decides; a RESUME
that is obeyed installs ranks by steps that keep the map, the step and the restore. -/
theorem coordinatorAndHosting : Obligations.CoordinatorAndHosting := by
  unfold Obligations.CoordinatorAndHosting
  exact ⟨coordinatorDecides, hostingMessages⟩

end Sys2Proof
end

section
/-! Shard moves (O35, R194). -/

namespace Sys2Proof.Machine
namespace State

variable {p k : Nat} {m : ShardMove} {s t : State}

theorem parts_putF (s : State) (f : Fld) (i v : Nat) : (s.putF f i v).parts = s.parts := rfl

theorem parts_recordFault (s : State) (g code slot pc : Nat) : (s.recordFault g code slot pc).parts = s.parts := by
  unfold recordFault
  split
  · exact parts_putF _ _ _ _
  · extract_lets valid named
    have hvalid : valid.parts = s.parts := (parts_putF _ _ _ _).trans ((parts_putF _ _ _ _).trans (parts_putF _ _ _ _))
    clear_value valid
    have hnamed : named.parts = valid.parts := (parts_putF _ _ _ _).trans ((parts_putF _ _ _ _).trans (parts_putF _ _ _ _))
    clear_value named
    exact (parts_putF _ _ _ _).trans ((parts_putF _ _ _ _).trans (hnamed.trans hvalid))

theorem parts_hazard (s : State) (q task : Nat) : (s.hazard q task).parts = s.parts := by
  unfold hazard
  extract_lets first
  have hfirst : first.parts = s.parts := by
    simp only [first]
    split
    · exact (parts_putF _ _ _ _).trans (parts_putF _ _ _ _)
    · rfl
  clear_value first
  exact (parts_putF _ _ _ _).trans hfirst

/-! ## A move that is kept -/

/-- Table state `k` of partition `p` has shard move `m` under way. -/
def HasMove (p k : Nat) (m : ShardMove) (s : State) : Prop := (mget TableSt.reset (s.part p).tables k).move = some m

/-- A move stands in a map whose values are changed but for it. -/
theorem move_map {l : List (Nat × TableSt)} {f : Nat × TableSt → Nat × TableSt} (hkey : ∀ q, (f q).1 = q.1)
    (hf : ∀ q, q.2.move = some m → (f q).2.move = some m) (h : (mget TableSt.reset l k).move = some m) :
    (mget TableSt.reset (l.map f) k).move = some m := by
  induction l with
  | nil => exact h
  | cons q l ih =>
    have hcons (c : Nat × TableSt) (l : List (Nat × TableSt)) :
        mget TableSt.reset (c :: l) k = if c.1 = k then c.2 else mget TableSt.reset l k := rfl
    rw [hcons] at h
    rw [List.map_cons, hcons, hkey]
    split
    · next hk =>
      rw [if_pos hk] at h
      exact hf q h
    · next hk =>
      rw [if_neg hk] at h
      exact ih h

namespace HasMove

theorem parts (h : HasMove p k m s) (ht : t.parts = s.parts) : HasMove p k m t := by
  unfold HasMove
  rw [part_congr ht]
  exact h

theorem modPart (h : HasMove p k m s) (q : Nat) {f : Part → Part} (hf : ∀ x, (f x).tables = x.tables) : HasMove p k m (s.modPart q f) := by
  unfold HasMove
  by_cases hq : p = q
  · subst hq
    rw [part_modPart, hf]
    exact h
  · rw [State.modPart, part_setPart_ne _ _ hq]
    exact h

theorem foldl {α : Type} {act : State → α → State} (hact : ∀ v x, HasMove p k m v → HasMove p k m (act v x)) (l : List α)
    (h : HasMove p k m s) : HasMove p k m (l.foldl act s) := by
  induction l generalizing s with
  | nil => exact h
  | cons x l ih => exact ih (hact s x h)

theorem planStop (h : HasMove p k m s) (q cause : Nat) : HasMove p k m (s.planStop q cause) := by
  unfold State.planStop
  extract_lets s1 s2 s3 s4 s5
  have h2 : HasMove p k m s2 := (h.parts (t := s1) rfl).modPart q fun _ => rfl
  clear_value s2
  have h5 : s5.parts = s4.parts := by
    refine parts_foldl (fun v i => ?_) _ _
    dsimp only
    split
    · exact parts_signalQ _ _
    · rfl
  exact h2.parts ((parts_pevt s5 q 1).trans h5)

theorem stopRolled (h : HasMove p k m s) (q cause : Nat) : HasMove p k m (s.stopRolled q cause) := by
  refine HasMove.planStop (h.parts (parts_foldl (fun v g => ?_) _ s)) q cause
  unfold restoreTile
  split <;> rfl

/-- A rollback takes a move that was to be found ready for not ready, and nothing else of it (R194). -/
theorem rollback (h : HasMove p k m s) (hm : m.ready = false) (q : Nat) (r : CommitReport) : HasMove p k m (s.rollback q r) := by
  unfold State.rollback
  extract_lets x n wait joined told step stopped restored channels movers engines queues waits keep stale unsent cleared counted
    attempt shown noted opened
  split
  · have hjoined : HasMove p k m joined := h.modPart q fun _ => rfl
    clear_value joined
    have htold : told.parts = joined.parts := by
      simp only [told]
      split <;> simp only [parts_putF]
    exact hjoined.parts ((parts_putF _ _ _ _).trans htold)
  have hstopped : stopped.parts = s.parts := by
    refine parts_foldl (fun v g => ?_) _ _
    unfold stopTile
    dsimp only
    split <;> rfl
  clear_value stopped
  have hrestored : restored.parts = stopped.parts := by
    refine parts_foldl (fun v g => ?_) _ _
    split
    · rfl
    · unfold restoreTile
      split <;> rfl
  clear_value restored
  have hchannels : channels.parts = restored.parts :=
    parts_foldl (fun v c => parts_foldl (act := fun (w : State) i => w.stopChannel q (8 * c + i)) (fun _ _ => rfl) _ v) _ _
  clear_value channels
  have hmovers : movers.parts = channels.parts := by
    refine parts_foldl (fun v i => ?_) _ _
    split
    · split <;> rfl
    · rfl
  clear_value movers
  have hengines : engines.parts = movers.parts := by
    refine parts_foldl (fun v e => ?_) _ _
    unfold ochRollback
    dsimp only
    split <;> rfl
  clear_value engines
  have hqueues : queues.parts = engines.parts :=
    parts_foldl (act := fun (w : State) i => w.modQueue (32 * q + i) _) (fun _ _ => rfl) _ _
  have hunsent : unsent.parts = queues.parts := parts_dropUnsent _ _ _
  replace h : HasMove p k m unsent := h.parts
    (hunsent.trans (hqueues.trans (hengines.trans (hmovers.trans (hchannels.trans (hrestored.trans hstopped))))))
  have hcleared : HasMove p k m cleared := by
    obtain ⟨f, g, hf, htables, hkey, hmove⟩ : ∃ (f : Part → Part) (g : Nat × TableSt → Nat × TableSt), cleared = unsent.modPart q f ∧
        (∀ y, (f y).tables = y.tables.map g) ∧ (∀ z, (g z).1 = z.1) ∧
        ∀ z, (g z).2.move = z.2.move.map fun v => { v with ready := false } :=
      ⟨_, _, rfl, fun _ => rfl, fun _ => rfl, fun _ => rfl⟩
    rw [hf]
    by_cases hq : p = q
    · subst hq
      unfold HasMove
      rw [part_modPart, htables]
      refine move_map hkey (fun z hz => ?_) h
      rw [hmove, hz, ← hm]
      rfl
    · unfold HasMove
      rw [State.modPart, part_setPart_ne _ _ hq]
      exact h
  clear_value queues unsent cleared
  have hcounted : counted.parts = cleared.parts := parts_putF _ _ _ _
  clear_value counted
  have hattempt : attempt.parts = counted.parts := parts_putF _ _ _ _
  clear_value attempt
  have hshown : shown.parts = attempt.parts := parts_putF _ _ _ _
  clear_value shown
  have hnoted : noted.parts = shown.parts := 
    (parts_putF _ _ _ _).trans ((parts_putF _ _ _ _).trans ((parts_putF _ _ _ _).trans (parts_putF _ _ _ _)))
  clear_value noted
  replace hnoted := hnoted.trans (hshown.trans (hattempt.trans hcounted))
  have hopened : HasMove p k m opened := by
    simp only [opened]
    split
    · exact hcleared.parts hnoted
    · refine HasMove.parts ?_ (parts_putF _ _ _ _)
      exact (hcleared.parts hnoted).modPart q fun _ => rfl
  clear_value opened
  split
  · exact hopened.stopRolled q _
  · exact hopened

theorem moduleFaultAt (h : HasMove p k m s) (hm : m.ready = false) (q cause task : Nat) (stop : Bool) (detail : Nat) :
    HasMove p k m (s.moduleFaultAt q cause task stop detail) := by
  unfold State.moduleFaultAt
  extract_lets logged x stopping r sent
  have hlogged : HasMove p k m logged := h.parts (parts_elog _ _ _ _ _)
  clear_value logged
  split
  · exact hlogged
  have hstopping : HasMove p k m stopping := by
    simp only [stopping]
    split
    · exact hlogged.modPart q fun _ => rfl
    · exact hlogged
  clear_value stopping
  have hsent : HasMove p k m sent := hstopping.parts (parts_foldl (fun v d => parts_sendReport v q _) _ _)
  clear_value sent
  split
  · exact hsent.modPart q fun _ => rfl
  · exact hsent.rollback hm q r

theorem freezeLog (h : HasMove p k m s) (q type idx : Nat) (write : Bool) (addr : Nat) :
    HasMove p k m (s.freezeLog q type idx write addr) := by
  unfold State.freezeLog
  extract_lets l logged
  have hlogged : HasMove p k m logged := by
    simp only [logged]
    split
    · exact h.modPart q fun _ => rfl
    · exact h.parts rfl
  exact hlogged.parts (parts_pevt _ _ _)

theorem planFault (h : HasMove p k m s) (hm : m.ready = false) (g code slot pc : Nat) : HasMove p k m (s.planFault g code slot pc) := by
  unfold State.planFault
  extract_lets q task held faulted recorded rep repeated frozen marked
  have hrecorded : HasMove p k m recorded := h.parts (parts_recordFault _ _ _ _ _)
  clear_value recorded
  have hrepeated : HasMove p k m repeated := hrecorded.parts (by
    simp only [repeated]
    split <;> rfl)
  clear_value repeated
  have hfrozen : HasMove p k m frozen := by
    simp only [frozen]
    split
    · exact hrepeated.freezeLog _ _ _ _ _
    · exact hrepeated
  clear_value frozen
  have hmarked : HasMove p k m marked := hfrozen.modPart q fun _ => rfl
  exact hmarked.moduleFaultAt hm q 1 task _ 0

theorem unitHazard (h : HasMove p k m s) (hm : m.ready = false) (q task : Nat) : HasMove p k m (s.unitHazard q task) := by
  unfold State.unitHazard
  extract_lets counted
  have hcounted : HasMove p k m counted := h.parts (parts_hazard s q task)
  clear_value counted
  split
  · exact hcounted
  · split
    · exact hcounted.planFault hm _ _ _ _
    · exact hcounted.moduleFaultAt hm _ _ _ _ _

theorem noteLines (h : HasMove p k m s) (hm : m.ready = false) (q task master a n : Nat) : HasMove p k m (s.noteLines q task master a n) := by
  unfold State.noteLines
  split
  · exact h
  · refine foldl (fun v i hv => ?_) _ h
    extract_lets l other noted
    have hnoted : HasMove p k m noted := hv.modPart q fun _ => rfl
    split
    · exact hnoted.unitHazard hm q task
    · exact hnoted

theorem wrDev (h : HasMove p k m s) (task a : Nat) (b : List Byte) : HasMove p k m (s.wrDev task a b) := by
  induction b generalizing s a with
  | nil => exact h
  | cons v b ih =>
    refine ih (h.parts ?_) (a + 1)
    unfold wrDev8
    split <;> rfl

theorem takeDelta (h : HasMove p k m s) (c : TClass) (x : MsgHdr) (b : List Byte) : HasMove p k m (s.takeDelta c x b) := by
  unfold State.takeDelta
  split
  · exact h
  · split
    · exact h
    · extract_lets l
      have hlogged : HasMove p k m (s.setLog x.part { l with bytes := l.bytes + b.length, written := l.written ++ deltaRecs b }) := by
        unfold setLog
        exact h.modPart x.part fun _ => rfl
      refine hlogged.parts ?_
      unfold ackDelta
      dsimp only
      split <;> rfl

theorem writeDelivered (h : HasMove p k m s) (hm : m.ready = false) (c : TClass) {x : MsgHdr} (hx : x.token = 0) (b : List Byte) :
    HasMove p k m (s.writeDelivered c x b) := by
  unfold State.writeDelivered
  split
  · exact (h.parts (parts_putF s _ _ _)).moduleFaultAt hm _ _ _ _ _
  · extract_lets noted
    have hnoted : HasMove p k m noted := (h.wrDev _ _ _).noteLines hm _ _ _ _ _
    clear_value noted
    rw [hx, deliver, if_pos rfl]
    have htaken := hnoted.takeDelta c x b
    generalize noted.takeDelta c x b = taken at htaken ⊢
    refine htaken.parts ?_
    unfold announce
    split
    · split <;> rfl
    · rfl

theorem sendMsg (h : HasMove p k m s) (hm : m.ready = false) (c : TClass) (x : MsgHdr) (o : Out) : HasMove p k m (s.sendMsg c x o) := by
  unfold State.sendMsg
  split
  · exact h
  · split
    · exact (h.parts (parts_putF s _ _ _)).moduleFaultAt hm _ _ _ _ _
    · refine h.parts ?_
      rw [((PortsOut.refl s).queueMsg _ _ _ _).frame]

theorem sendPage (h : HasMove p k m s) (hm : m.ready = false) (q r : Nat) (b : List Byte) (a : Nat) :
    HasMove p k m (s.sendPage q r b a) := by
  refine foldl (fun v c hv => ?_) _ h
  dsimp only
  split
  · exact hv.writeDelivered hm _ rfl _
  · exact hv.sendMsg hm _ _ _

theorem sendShard (h : HasMove p k m s) (hm : m.ready = false) (q t : Nat) (d : TableDesc) (w : ShardMove) (want : Nat → Bool) :
    HasMove p k m (s.sendShard q t d w want) := by
  unfold State.sendShard
  split
  · exact h
  · extract_lets to_ sent a
    have hsent : HasMove p k m sent := foldl (fun v x hv => by
      split
      · exact hv.sendPage hm _ _ _ _
      · exact hv) _ h
    clear_value sent
    split
    · exact hsent.sendPage hm _ _ _ _
    · exact hsent

end HasMove

/-! ## The ranks of highest and of lowest load (R194) -/

/-- The sum that prefers most: the first rank of all that no other is preferred to. -/
theorem rankBest_eq (loads : List ShardLoad) (better : Nat → Nat → Bool) {ranks best : Nat} (hbest : best < ranks)
    (hnone : ∀ r, r < ranks → better (loadSum loads r) (loadSum loads best) = false)
    (hfirst : ∀ r, r < best → better (loadSum loads best) (loadSum loads r) = true) : rankBest loads ranks better = best := by
  have turns (n : Nat) (hn : n ≤ ranks) :
      let a := (List.range n).foldl (fun a r => if better (loadSum loads r) (loadSum loads a) then r else a) 0
      if best < n then a = best else a < best ∨ best = 0 ∧ a = 0 := by
    induction n with
    | zero =>
      rw [if_neg (Nat.not_lt_zero _)]
      change 0 < best ∨ best = 0 ∧ 0 = 0
      omega
    | succ n ih =>
      specialize ih (by omega)
      dsimp only at ih ⊢
      rw [List.range_succ, List.foldl_append, List.foldl_cons, List.foldl_nil]
      generalize (List.range n).foldl (fun a r => if better (loadSum loads r) (loadSum loads a) then r else a) 0 = a at ih ⊢
      by_cases hlt : best < n
      · rw [if_pos hlt] at ih
        rw [if_pos (by omega), ih, if_neg (by rw [hnone n (by omega)]; decide)]
      · rw [if_neg hlt] at ih
        by_cases heq : best = n
        · subst heq
          rw [if_pos (Nat.lt_succ_self _)]
          obtain ha | ⟨hzero, ha⟩ := ih
          · rw [if_pos (hfirst a ha)]
          · rw [ha, hzero, ite_self]
        · rw [if_neg (by omega)]
          split <;> omega
  have hturns := turns ranks le_rfl
  rw [if_pos hbest] at hturns
  exact hturns

end State
end Sys2Proof.Machine

namespace Sys2Proof
open Machine State

/-- The order in which the shards that fit are preferred: the higher load, of equal loads the lower shard. -/
def loadFirst (a b : ShardLoad) : Bool := b.load < a.load || (a.load = b.load && a.shard ≤ b.shard)

/-- The first in order of load is one of them, and none has more. -/
theorem head_loadFirst {l : List ShardLoad} (h : l ≠ []) :
    ∃ c, (l.mergeSort loadFirst).head? = some c ∧ c ∈ l ∧ ∀ x ∈ l, x.load ≤ c.load := by
  have hsorted := List.pairwise_mergeSort (le := loadFirst)
    (fun a b c hab hbc => by
      simp only [loadFirst, Bool.or_eq_true, Bool.and_eq_true, decide_eq_true_eq] at hab hbc ⊢
      omega)
    (fun a b => by
      simp only [loadFirst, Bool.or_eq_true, Bool.and_eq_true, decide_eq_true_eq]
      omega) l
  have hmem (x : ShardLoad) : x ∈ l.mergeSort loadFirst ↔ x ∈ l := List.mem_mergeSort
  generalize l.mergeSort loadFirst = cs at hsorted hmem ⊢
  cases cs with
  | nil =>
    cases l with
    | nil => exact absurd rfl h
    | cons x l => exact nomatch (hmem x).2 List.mem_cons_self
  | cons c cs =>
    refine ⟨c, rfl, (hmem c).1 List.mem_cons_self, fun x hx => ?_⟩
    obtain rfl | hrest := List.mem_cons.1 ((hmem x).2 hx)
    · exact le_rfl
    · have hle := (List.pairwise_cons.1 hsorted).1 x hrest
      simp only [loadFirst, Bool.or_eq_true, Bool.and_eq_true, decide_eq_true_eq] at hle
      omega

/-- The decision, with the ranks of highest and lowest load known. -/
theorem decideMove_eq (s : State) (p t : Nat) (d : TableDesc) (loads : List ShardLoad) {hi lo : Nat}
    (hhi : rankBest loads (s.planRanks p) (fun a b => b < a) = hi) (hlo : rankBest loads (s.planRanks p) (fun a b => a < b) = lo) :
    s.decideMove p t d loads =
      if s.planRanks p * 256 * (loadSum loads hi - loadSum loads lo) ≤
          s.getF F.ROW_PLACE_CFG_SHARD_MARGIN p * (loads.map (·.load)).foldl (· + ·) 0 then s
      else match ((loads.filter fun x => x.rank = hi && 2 * x.load ≤ loadSum loads hi - loadSum loads lo).mergeSort loadFirst).head? with
        | none => s
        | some c =>
          let m : ShardMove := { shard := c.shard, src_ := hi, dst_ := lo, ready := false }
          (s.modTableSt p t (s.homeRank p) fun q => { q with move := some m, moving := s.movedPages p t d lo c.shard }).sendShard p t d m
            fun _ => true := by
  subst hhi hlo
  rfl

theorem shardMoves : Claims.ShardMoves := by
  intro s p t d loads hi lo hd hen hactive hhosts hmove total gap fit hhi hlo hall hfirstHi hfirstLo
  have hbestHi : rankBest loads (s.planRanks p) (fun a b => b < a) = hi :=
    rankBest_eq loads _ hhi (fun r hr => decide_eq_false (by have := (hall r hr).1; omega)) fun r hr => decide_eq_true (hfirstHi r hr)
  have hbestLo : rankBest loads (s.planRanks p) (fun a b => a < b) = lo :=
    rankBest_eq loads _ hlo (fun r hr => decide_eq_false (by have := (hall r hr).2; omega)) fun r hr => decide_eq_true (hfirstLo r hr)
  have hexec : exec (.shardMoveDecision p t loads) s = .next (s.decideMove p t d loads) := by
    change execShardMoveDecision p t loads s = _
    unfold execShardMoveDecision
    rw [hd]
    exact congrArg Host.Outcome.next (if_pos ⟨hen, hactive, hhosts, by rw [hmove]; rfl⟩)
  rw [hexec, decideMove_eq s p t d loads hbestHi hbestLo]
  change (_ → Host.Outcome.next (if s.planRanks p * 256 * gap ≤ s.getF F.ROW_PLACE_CFG_SHARD_MARGIN p * total then s else
      match (fit.mergeSort loadFirst).head? with
      | none => s
      | some c => _) = _) ∧ _
  refine ⟨fun h => ?_, fun hgap hfit => ?_⟩
  · split
    · rfl
    · next hgap =>
      rw [h.resolve_left hgap, List.mergeSort_nil]
      rfl
  · obtain ⟨c, hc, hmem, hmax⟩ := head_loadFirst hfit
    rw [if_neg (Nat.not_le.2 hgap)]
    refine ⟨_, c, rfl, hmem, hmax, ?_⟩
    rw [hc]
    refine HasMove.sendShard (k := tableKey t (s.homeRank p)) ?_ rfl p t d _ _
    have htable := s.tableSt_setTableSt p t (s.homeRank p) { s.tableSt p t (s.homeRank p) with
      move := some { shard := c.shard, src_ := hi, dst_ := lo, ready := false }, moving := s.movedPages p t d lo c.shard }
    exact congrArg TableSt.move htable

end Sys2Proof
end

section
/-! Table replacement (O35, R199). -/

namespace Sys2Proof.Machine
namespace State

variable {p : Nat} {s t : State}

/-! ## What a replacement's pages depend on -/

section
variable (hparts : t.parts = s.parts) (hhome : t.homeRank p = s.homeRank p)
include hparts

theorem tableSt_congr (k r : Nat) : t.tableSt p k r = s.tableSt p k r := tableSt_of_tables (by rw [part_congr hparts]) k r

theorem planRanks_congr : t.planRanks p = s.planRanks p := by
  unfold planRanks
  rw [part_congr hparts]

theorem pageRec_congr (k : Nat) (d : TableDesc) (r sh pg : Nat) : t.pageRec p k d r sh pg = s.pageRec p k d r sh pg := by
  unfold pageRec firstPage
  rw [tableSt_congr hparts, planRanks_congr hparts]

include hhome

theorem shardOwner_congr (k : Nat) (d : TableDesc) (sh : Nat) : t.shardOwner p k d sh = s.shardOwner p k d sh := by
  unfold shardOwner
  rw [hhome, tableSt_congr hparts, planRanks_congr hparts]

theorem ownedShards_congr (k : Nat) (d : TableDesc) (r : Nat) : t.ownedShards p k d r = s.ownedShards p k d r := by
  unfold ownedShards
  simp only [shardOwner_congr hparts hhome]

theorem allPages_congr (k : Nat) (d : TableDesc) (r : Nat) : t.allPages p k d r = s.allPages p k d r := by
  unfold allPages
  simp only [ownedShards_congr hparts hhome, pageRec_congr hparts]

theorem replPages_congr (v : Repl) (d : TableDesc) (r : Nat) : t.replPages p v d r = s.replPages p v d r := by
  unfold replPages
  rw [ownedShards_congr hparts hhome]

theorem tableBytes_congr (r : Nat) (pl : Plan) (vs : List Repl) : t.tableBytes p r pl vs = s.tableBytes p r pl vs := by
  unfold tableBytes
  simp only [hhome, tableSt_congr hparts, shardOwner_congr hparts hhome, allPages_congr hparts hhome, replPages_congr hparts hhome]

end

theorem replFits_congr (hparts : t.parts = s.parts) (hcfg : t.word F.FAB_CFG_X.base = s.word F.FAB_CFG_X.base)
    (hhbm : t.getF F.PRT_QUOTA_HBM_Q p = s.getF F.PRT_QUOTA_HBM_Q p) (humb : t.getF F.PRT_QUOTA_UMB_Q p = s.getF F.PRT_QUOTA_UMB_Q p)
    (pl : Plan) (v : Repl) : t.replFits p pl v = s.replFits p pl v := by
  have hhome : t.homeRank p = s.homeRank p := homeRank_congr hparts hcfg
  unfold replFits planSite
  simp only [ranksHere_congr hparts hcfg, tableBytes_congr hparts hhome, part_congr hparts, hhbm, humb]

/-! ## A replacement that starts -/

/-- The replacement that the registers name. -/
def replOf (s : State) (p : Nat) : Repl :=
  { table := s.getF F.ROW_REPL_CTRL_TABLE p, epoch := s.getF F.ROW_REPL_CTRL_EPOCH p, step := s.getF F.ROW_REPL_STEP_STEP p,
    addr := s.getF F.ROW_REPL_ADDR_ADDR p, loaded := false, due := false }

/-- The replacement that a write of `ROW_REPL_CTRL` names. -/
def replWritten (s : State) (p : Nat) (v : Word) : Repl :=
  { table := getBits v 43 32, epoch := getBits v 31 0, step := s.getF F.ROW_REPL_STEP_STEP p,
    addr := s.getF F.ROW_REPL_ADDR_ADDR p, loaded := false, due := false }

/-- A replacement is refused: its epoch does not rise, its step is not to come, or one of its table is under way. -/
def replBarred (s : State) (p : Nat) (v : Repl) : Bool :=
  v.epoch ≤ (s.tableSt p v.table (s.homeRank p)).epoch || v.step ≤ s.curStep p + (if (s.part p).active then 1 else 0) ||
    (s.part p).repls.any (·.table = v.table)

theorem startRepl_eq {pl : Plan} {d : TableDesc} (hplan : s.plan p = some pl) (hd : s.tableDesc p (s.replOf p).table = some d) :
    s.startRepl p = if s.replBarred p (s.replOf p) then s.putF F.ROW_REPL_STATUS_STATE p 0x12
      else if !s.replFits p pl (s.replOf p) then s.putF F.ROW_REPL_STATUS_STATE p 0x10
      else (s.putF F.ROW_REPL_STATUS_STATE p 1).modPart p fun x => { x with repls := x.repls ++ [s.replOf p] } := by
  unfold startRepl
  dsimp only
  rw [hplan, show s.tableDesc p (s.getF F.ROW_REPL_CTRL_TABLE p) = some d from hd]
  dsimp only
  refine if_congr ?_ rfl rfl
  simp only [replBarred, Bool.or_eq_true, decide_eq_true_eq, or_assoc]
  rfl

/-! ## A copy that is complete -/

theorem loadRepl_memOnly (s : State) (p : Nat) (v : Repl) (d : TableDesc) : MemOnly s (s.loadRepl p v d) := by
  unfold loadRepl
  extract_lets h pages
  generalize v.addr = a
  generalize pages = l
  have turns (l : List PageRec) (w : State × Nat) (hw : MemOnly s w.1) : MemOnly s (l.foldl (fun (a : State × Nat) x =>
      let n := rowsOn d x
      let t := a.1.wipe x.base d.pageBytes
      let t := (t.wr x.base (t.rd a.2 (n * d.slotBytes))).initPage d h x
      (t, a.2 + n * d.slotBytes)) w).1 := by
    induction l generalizing w with
    | nil => exact hw
    | cons x l ih => exact ih _ (((MemOnly.wipe hw _ _).wr _ _).trans (initPage_memOnly _ _ _ _))
  exact turns l (s, a) (.refl s)

end State

/-- A finite fact: the fields of `ROW_REPL_CTRL`. -/
theorem regAt_repl : ∀ p < 8, ∃ r i, regAt (F.ROW_REPL_CTRL_GO.off p) = some (r, i) ∧ F.ROW_REPL_CTRL_TABLE ∈ r.fields ∧
    F.ROW_REPL_CTRL_EPOCH ∈ r.fields := by
  have hrow : ∀ p < 8, ((regAt (F.ROW_REPL_CTRL_GO.off p)).any fun x =>
      x.1.fields.contains F.ROW_REPL_CTRL_TABLE && x.1.fields.contains F.ROW_REPL_CTRL_EPOCH) = true := by decide +kernel
  intro p hp
  have hp' := hrow p hp
  cases hat : regAt (F.ROW_REPL_CTRL_GO.off p) with
  | none => rw [hat] at hp'; exact absurd hp' (by decide)
  | some x =>
    rw [hat] at hp'
    obtain ⟨htable, hepoch⟩ := Bool.and_eq_true_iff.mp hp'
    exact ⟨x.1, x.2, rfl, List.contains_iff_mem.mp htable, List.contains_iff_mem.mp hepoch⟩

end Sys2Proof.Machine

namespace Sys2Proof
open Machine State

/-- What a write of `ROW_REPL_CTRL` with `GO` shows. -/
structure ReplGo (p : Nat) (s : State) (fits : Bool) (w : Repl) (u : State) : Prop where
  barred : s.replBarred p w = true → u.getF F.ROW_REPL_STATUS_STATE p = 0x12 ∧ u.parts = s.parts
  full : s.replBarred p w = false → fits = false → u.getF F.ROW_REPL_STATUS_STATE p = 0x10 ∧ u.parts = s.parts
  starts : s.replBarred p w = false → fits = true →
    u.getF F.ROW_REPL_STATUS_STATE p = 1 ∧ (u.part p).repls = (s.part p).repls ++ [w]
  frame : u = { s with regs := u.regs, parts := u.parts }
  word : ∀ o, o ≠ F.ROW_REPL_STATUS_STATE.off p → u.word o = s.word o

theorem startRepl_shows {s : State} {p : Nat} {pl : Plan} {d : TableDesc} (hplan : s.plan p = some pl)
    (hd : s.tableDesc p (s.replOf p).table = some d) : ReplGo p s (s.replFits p pl (s.replOf p)) (s.replOf p) (s.startRepl p) := by
  have hput (k : Nat) (hk : k < 256) : (s.putF F.ROW_REPL_STATUS_STATE p k).getF F.ROW_REPL_STATUS_STATE p = k :=
    (s.getF_putF F.ROW_REPL_STATUS_STATE p k (by decide) (by decide)).trans (Nat.mod_eq_of_lt hk)
  rw [startRepl_eq hplan hd]
  generalize s.replOf p = w
  generalize s.replFits p pl w = fits
  cases hbar : s.replBarred p w with
  | true =>
    rw [if_pos rfl]
    exact ⟨fun _ => ⟨hput _ (by decide), rfl⟩, (fun h => nomatch h.symm.trans hbar), (fun h => nomatch h.symm.trans hbar), rfl,
      fun o ho => word_putF_ne _ _ _ _ ho⟩
  | false =>
    rw [if_neg (by decide)]
    cases fits with
    | false =>
      rw [if_pos (by decide)]
      exact ⟨(fun h => nomatch h.symm.trans hbar), fun _ _ => ⟨hput _ (by decide), rfl⟩, (fun _ h => nomatch h), rfl,
        fun o ho => word_putF_ne _ _ _ _ ho⟩
    | true =>
      rw [if_neg (by decide)]
      exact ⟨(fun h => nomatch h.symm.trans hbar), (fun _ h => nomatch h), fun _ _ => ⟨hput 1 (by decide), by rw [part_modPart, part_putF]⟩,
        rfl, fun o ho => word_putF_ne s F.ROW_REPL_STATUS_STATE p 1 ho⟩

theorem rowReplGo_shows (s : State) (f : Func) (p : Nat) (v : Word) (pl : Plan) (d : TableDesc) (hp : p < 8)
    (hopen : Open s f (F.ROW_REPL_CTRL_GO.off p)) (hgo : getBits v 63 63 = 1) (hplan : s.plan p = some pl)
    (hd : s.tableDesc p (getBits v 43 32) = some d) :
    ∃ u, exec (.rowReplGo f p v) s = .next u ∧
      let w := s.replWritten p v
      (s.replBarred p w = true → u.getF F.ROW_REPL_STATUS_STATE p = 0x12 ∧ u.parts = s.parts) ∧
      (s.replBarred p w = false → s.replFits p pl w = false → u.getF F.ROW_REPL_STATUS_STATE p = 0x10 ∧ u.parts = s.parts) ∧
      (s.replBarred p w = false → s.replFits p pl w = true → u.getF F.ROW_REPL_STATUS_STATE p = 1 ∧
        (u.part p).repls = (s.part p).repls ++ [w]) ∧
      u = { s with regs := u.regs, parts := u.parts } ∧
      ∀ o, o ≠ F.ROW_REPL_CTRL_GO.off p → o ≠ F.ROW_REPL_STATUS_STATE.off p → u.word o = s.word o := by
  obtain ⟨r, i, hrow, htableMem, hepochMem⟩ := regAt_repl p hp
  have hregs := s.writeOthers_eq (F.ROW_REPL_CTRL_GO.off p) v
  have hword := fun {o : Nat} (ho : o ≠ F.ROW_REPL_CTRL_GO.off p) => s.word_writeOthers_ne (F.ROW_REPL_CTRL_GO.off p) v ho
  have htable : (s.writeOthers (F.ROW_REPL_CTRL_GO.off p) v).getF F.ROW_REPL_CTRL_TABLE p = getBits v 43 32 :=
    s.getF_writeOthers_rw hrow v htableMem (by decide) rfl rfl rfl
  have hepoch : (s.writeOthers (F.ROW_REPL_CTRL_GO.off p) v).getF F.ROW_REPL_CTRL_EPOCH p = getBits v 31 0 :=
    s.getF_writeOthers_rw hrow v hepochMem (by decide) rfl rfl rfl
  have hexec : exec (.rowReplGo f p v) s = .next ((s.writeOthers (F.ROW_REPL_CTRL_GO.off p) v).startRepl p) :=
    congrArg Host.Outcome.next ((s.gated_of_open hopen _).trans (if_pos hgo))
  refine ⟨_, hexec, ?_⟩
  intro w
  have hparts : (s.writeOthers (F.ROW_REPL_CTRL_GO.off p) v).parts = s.parts := by rw [hregs]
  generalize s.writeOthers (F.ROW_REPL_CTRL_GO.off p) v = t at *
  have hoff (g : Fld) (h : g.off p ≠ F.ROW_REPL_CTRL_GO.off p) : t.getF g p = s.getF g p := getF_congr_word (hword h)
  have hw : t.replOf p = w := by
    simp only [w]
    rw [replOf, replWritten, htable, hepoch, hoff F.ROW_REPL_STEP_STEP (by simp only [Fld.off, F.ROW_REPL_STEP_STEP, F.ROW_REPL_CTRL_GO]; omega),
      hoff F.ROW_REPL_ADDR_ADDR (by simp only [Fld.off, F.ROW_REPL_ADDR_ADDR, F.ROW_REPL_CTRL_GO]; omega)]
  have hcfg : t.word F.FAB_CFG_X.base = s.word F.FAB_CFG_X.base :=
    hword (by simp only [Fld.off, F.FAB_CFG_X, F.ROW_REPL_CTRL_GO]; omega)
  have hbarred : t.replBarred p w = s.replBarred p w := by
    unfold replBarred curStep
    rw [tableSt_congr hparts, homeRank_congr hparts hcfg, part_congr hparts,
      hoff F.PLN_STEP_STEP (by simp only [Fld.off, F.PLN_STEP_STEP, F.ROW_REPL_CTRL_GO]; omega)]
  have hfits : t.replFits p pl w = s.replFits p pl w := replFits_congr hparts hcfg
    (hoff _ (by simp only [Fld.off, F.PRT_QUOTA_HBM_Q, F.ROW_REPL_CTRL_GO]; omega))
    (hoff _ (by simp only [Fld.off, F.PRT_QUOTA_UMB_Q, F.ROW_REPL_CTRL_GO]; omega)) pl w
  have hplanT : t.plan p = some pl := by
    unfold State.plan
    rw [part_congr hparts]
    exact hplan
  have hdT : t.tableDesc p (t.replOf p).table = some d := by
    rw [hw]
    unfold tableDesc
    rw [part_congr hparts]
    exact hd
  obtain ⟨hbar, hfull, hstarts, hframe, hkept⟩ := startRepl_shows hplanT hdT
  rw [hw, hbarred] at hbar hfull hstarts
  rw [hfits] at hfull hstarts
  rw [hparts] at hbar hfull
  rw [part_congr hparts] at hstarts
  refine ⟨hbar, hfull, hstarts, ?_, fun o hgo hst => (hkept o hst).trans (hword hgo)⟩
  rw [hframe, hregs]

theorem replacementCopyDone_shows (s : State) (p : Nat) (v : Repl) (d : TableDesc) (hv : (s.part p).repls = [v])
    (hload : v.loaded = false) (hd : s.tableDesc p v.table = some d) :
    ∃ u, exec (.replacementCopyDone p) s = .next u ∧ (u.part p).repls = [{ v with loaded := true }] ∧
      u.getF F.ROW_REPL_STATUS_STATE p = 2 ∧ (u.part p).tables = (s.part p).tables ∧ u.host = s.host ∧
      ∀ o, o ≠ F.ROW_REPL_STATUS_STATE.off p → u.word o = s.word o := by
  have hexec : exec (.replacementCopyDone p) s = .next (((s.loadRepl p v d).modPart p fun x => { x with
      repls := x.repls.map fun w => if w = v then { w with loaded := true } else w }).putF F.ROW_REPL_STATUS_STATE p 2) := by
    change execReplacementCopyDone p s = _
    unfold execReplacementCopyDone
    have hfind : (s.part p).repls.find? (fun v => !v.loaded) = some v := by
      rw [hv, List.find?_cons_of_pos (by rw [hload]; rfl)]
    rw [hfind]
    dsimp only
    rw [hd]
  have hload := loadRepl_memOnly s p v d
  generalize s.loadRepl p v d = t at *
  have hparts : t.parts = s.parts := by rw [hload.frame]
  refine ⟨_, hexec, ?_, getF_putF _ F.ROW_REPL_STATUS_STATE p 2 (by decide) (by decide), ?_, ?_, fun o ho => ?_⟩
  · rw [part_putF, part_modPart, part_congr hparts, hv, List.map_singleton, if_pos rfl]
  · rw [part_putF, part_modPart, part_congr hparts]
  · rw [hload.frame]
    rfl
  · rw [word_putF_ne _ _ _ _ ho, hload.frame]
    rfl

theorem replacementStateExchange_shows (s : State) (p : Nat) (v : Repl) (l : List Nat) (hv : (s.part p).repls = [v])
    (hdue : v.due = false) (hstep : v.step = s.curStep p + 1) (hactive : (s.part p).active = true) :
    ∃ u, exec (.replacementStateExchange p l) s = .next u ∧
      (v.loaded = true → (∀ x ∈ l, x = 2) → (u.part p).repls = [{ v with due := true }] ∧ u.regs = s.regs) ∧
      ((v.loaded = false ∨ ∃ x ∈ l, x ≠ 2) → (u.part p).repls = [] ∧ u.getF F.ROW_REPL_STATUS_STATE p = 0x11) ∧
      MemSame s u ∧ u = { s with regs := u.regs, parts := u.parts } := by
  have hexec : exec (.replacementStateExchange p l) s = .next (if v.loaded && l.all (· = 2) then
      s.modPart p fun x => { x with repls := x.repls.map fun w => if w = v then { w with due := true } else w }
      else (s.modPart p fun x => { x with repls := x.repls.filter (· ≠ v) }).putF F.ROW_REPL_STATUS_STATE p 0x11) := by
    change execReplacementStateExchange p l s = _
    unfold execReplacementStateExchange
    have hfind : (s.part p).repls.find? (fun v => v.step = s.curStep p + 1 && !v.due) = some v := by
      rw [hv, List.find?_cons_of_pos (by simp [hstep, hdue])]
    rw [hfind]
    exact congrArg Host.Outcome.next (if_neg (by rw [hactive]; decide))
  rw [hexec]
  by_cases hall : v.loaded = true ∧ ∀ x ∈ l, x = 2
  · rw [if_pos (by simpa using hall)]
    refine ⟨_, rfl, fun _ _ => ⟨?_, rfl⟩, fun h => ?_, fun _ => rfl, rfl⟩
    · rw [part_modPart, hv, List.map_singleton, if_pos rfl]
    · obtain h | ⟨x, hx, hne⟩ := h
      · exact nomatch h.symm.trans hall.1
      · exact absurd (hall.2 x hx) hne
  · rw [if_neg (by simpa using hall)]
    refine ⟨_, rfl, fun hl hs => absurd ⟨hl, hs⟩ hall, fun _ => ⟨?_, ?_⟩, fun _ => rfl, rfl⟩
    · rw [part_putF, part_modPart, hv]
      simp
    · exact getF_putF _ F.ROW_REPL_STATUS_STATE p 0x11 (by decide) (by decide)

/-- Settles O35: the decision is the same sorting of sums on every rank, and what sends a moving shard's pages keeps the move;
a replacement's states follow the order of its checks. -/
theorem shardsAndTablesChange : Obligations.ShardsAndTablesChange := by
  unfold Obligations.ShardsAndTablesChange
  refine ⟨shardMoves, fun s f p v pl d hp hopen hgo hplan => ?_, fun s p v d _ hv hload hd => replacementCopyDone_shows s p v d hv hload hd,
    fun s p v l _ hv hdue hstep hactive => replacementStateExchange_shows s p v l hv hdue hstep hactive⟩
  intro t e n w no hd
  exact rowReplGo_shows s f p v pl d hp hopen hgo hplan hd

end Sys2Proof
end

section
/-! Page copies and placement periods (O34, R192, R193). -/

namespace Sys2Proof.Machine
namespace State

variable {p : Nat} {s : State}

/-! ## Page copies (R193) -/

/-- With no shard on its way nothing is sent again. -/
theorem resendShards_still (h : ∀ x ∈ (s.part p).tables, x.2.move = none) : s.resendShards p = s := by
  unfold resendShards
  refine foldl_of_fixed fun t _ => ?_
  have hmove : (s.tableSt p t (s.homeRank p)).move = none := mget_induction (P := fun x : TableSt => x.move = none) rfl h _
  dsimp only
  rw [hmove]
  split
  · next hm => exact nomatch hm
  · rfl

theorem runCopies_limited (h : s.getF F.ROW_PLACE_CFG_MIG_PAGES p ≤ (s.part p).copies) (n : Nat) : s.runCopies p n = s := by
  cases n with
  | zero => rfl
  | succ n => exact if_pos h

/-- The first copy of swap `w`. -/
def firstCopy (s : State) (p : Nat) (w : Swap) : State :=
  (s.swapCopy p w).modPart p fun x => { x with
    copies := x.copies + 1, swaps := x.swaps.map fun v => if v = w then { v with done := v.done + 1, now := v.now + 1 } else v }

theorem runCopies_next {w : Swap} (h : (s.part p).copies < s.getF F.ROW_PLACE_CFG_MIG_PAGES p)
    (hw : (s.part p).swaps.find? (·.done < 2) = some w) (n : Nat) : s.runCopies p (n + 1) = (s.firstCopy p w).runCopies p n := by
  refine (if_neg (Nat.not_le.2 h)).trans ?_
  rw [hw]
  rfl

theorem swapCopy_first {w : Swap} {d : TableDesc} (hd : s.tableDesc p w.table = some d) (hw : w.done = 0) :
    s.swapCopy p w = s.copyPage d (s.pageRec p w.table d w.rank w.a.1 w.a.2).base (newBase p w.table
      (s.pageRec p w.table d w.rank w.b.1 w.b.2).home (s.pageRec p w.table d w.rank w.a.1 w.a.2).shard
      (s.pageRec p w.table d w.rank w.a.1 w.a.2).page w.since) := by
  unfold swapCopy
  rw [hd]
  exact if_pos hw

theorem copyPage_memOnly (s : State) (d : TableDesc) (a b : Nat) : MemOnly s (s.copyPage d a b) := (MemOnly.refl s).wr _ _

theorem rd_copyPage (s : State) (d : TableDesc) (a b : Nat) : (s.copyPage d a b).rd b d.pageBytes = s.rd a d.pageBytes := by
  have h := s.rd_wr b (s.rd a d.pageBytes)
  rw [rd_length] at h
  exact h

theorem rd8_copyPage (s : State) (d : TableDesc) (a : Nat) {b x : Nat} (h : ¬ (b ≤ x ∧ x < b + d.pageBytes)) :
    (s.copyPage d a b).rd8 x = s.rd8 x := by
  refine s.rd8_wr_ne b x _ ?_
  rw [rd_length]
  omega

end State
end Sys2Proof.Machine

namespace Sys2Proof
open Machine State

theorem exec_pageCopy {s : State} {p : Nat} (h : s.copiesMayRun p = true) :
    exec (.pageCopy p) s = .next ((s.runCopies p (2 * (s.part p).swaps.length)).resendShards p) := congrArg Host.Outcome.next (if_pos h)

theorem pageCopies : Claims.PageCopies := by
  intro s p hrun hstill
  refine ⟨fun hlimit => ?_, fun w d hlast hfind hw hd => ?_⟩
  · rw [exec_pageCopy hrun, runCopies_limited hlimit, resendShards_still hstill]
  · intro x y a
    have hlen : 2 * (s.part p).swaps.length = 2 * (s.part p).swaps.length - 1 + 1 := by
      have hpos : 0 < (s.part p).swaps.length := List.length_pos_of_mem (List.mem_of_find?_eq_some hfind)
      omega
    have hcopy := swapCopy_first hd hw
    change s.swapCopy p w = s.copyPage d x.base a at hcopy
    have hmem : MemOnly s (s.copyPage d x.base a) := copyPage_memOnly _ _ _ _
    have hrd := s.rd_copyPage d x.base a
    have hrd8 := fun b => s.rd8_copyPage d x.base (b := a) (x := b)
    have hpart : (s.firstCopy p w).part p = { s.part p with
        copies := (s.part p).copies + 1,
        swaps := (s.part p).swaps.map fun v => if v = w then { v with done := v.done + 1, now := v.now + 1 } else v } := by
      rw [firstCopy, part_modPart, hcopy, hmem.frame]
      rfl
    have hstored : (s.firstCopy p w).mem = (s.copyPage d x.base a).mem := by
      rw [firstCopy, hcopy]
      rfl
    have hregs : (s.firstCopy p w).getF F.ROW_PLACE_CFG_MIG_PAGES p = s.getF F.ROW_PLACE_CFG_MIG_PAGES p := by
      rw [firstCopy, hcopy, hmem.frame]
      rfl
    have hrest : (s.firstCopy p w).runCopies p (2 * (s.part p).swaps.length - 1) = s.firstCopy p w :=
      runCopies_limited (by rw [hregs, hpart, ← hlast]) _
    rw [exec_pageCopy hrun, hlen, runCopies_next (by omega) hfind, hrest, resendShards_still (by rw [hpart]; exact hstill)]
    refine ⟨_, rfl, ?_, fun b hb => ?_, by rw [hpart], ?_, ?_, fun q hq => ?_⟩
    · exact (rd_congr hstored a _).trans hrd
    · exact (rd8_congr hstored b).trans (hrd8 b hb)
    · rw [hpart]
      refine List.map_congr_left fun v _ => ?_
      split
      · next hv => rw [hv, hw]
      · rfl
    · rw [firstCopy, hcopy, hmem.frame]
      rfl
    · rw [firstCopy, modPart, part_setPart_ne _ _ hq, hcopy, hmem.frame]
      rfl

end Sys2Proof
end

section
/-! Placement periods (O34, R192). -/

namespace Sys2Proof.Machine

/-! ## Swaps between the tiers -/

/-- A swap of the tier rule: a hot Umber page with an HBM page of less than half its load. -/
theorem mem_tierSwaps {pages : List PageRec} {v : PageRec × PageRec} (h : v ∈ tierSwaps pages) :
    v.1 ∈ pages ∧ v.2 ∈ pages ∧ v.1.home = 8 ∧ v.2.home < 8 ∧ 2 * v.2.count < v.1.count := by
  unfold tierSwaps at h
  have hcount := List.mem_takeWhile_imp h
  obtain ⟨x, y⟩ := v
  obtain ⟨hx, hy⟩ := List.of_mem_zip ((List.takeWhile_prefix _).subset h)
  obtain ⟨hxmem, hxhome⟩ := List.mem_filter.1 (List.mem_mergeSort.1 hx)
  obtain ⟨hymem, hyhome⟩ := List.mem_filter.1 (List.mem_mergeSort.1 hy)
  exact ⟨hxmem, hymem, of_decide_eq_true hxhome, of_decide_eq_true hyhome, of_decide_eq_true hcount⟩

namespace State

variable {p t r : Nat} {d : TableDesc} {s u v : State}

/-! ## Page records -/

theorem pageRec_key (s : State) (p t : Nat) (d : TableDesc) (r sh pg : Nat) :
    (s.pageRec p t d r sh pg).shard = sh ∧ (s.pageRec p t d r sh pg).page = pg := by
  unfold pageRec
  cases h : (s.tableSt p t r).pages.find? fun x => x.shard = sh && x.page = pg with
  | none => exact ⟨rfl, rfl⟩
  | some x =>
    have hx := List.find?_some h
    exact ⟨of_decide_eq_true (Bool.and_eq_true_iff.1 hx).1, of_decide_eq_true (Bool.and_eq_true_iff.1 hx).2⟩

theorem mem_allPages {x : PageRec} : x ∈ s.allPages p t d r ↔
    ∃ sh ∈ s.ownedShards p t d r, ∃ pg < d.shardPages, s.pageRec p t d r sh pg = x := by
  unfold allPages
  simp only [List.mem_flatten, List.mem_map]
  constructor
  · rintro ⟨-, ⟨sh, hsh, rfl⟩, hx⟩
    obtain ⟨pg, hpg, rfl⟩ := List.mem_map.1 hx
    exact ⟨sh, hsh, pg, List.mem_range.1 hpg, rfl⟩
  · rintro ⟨sh, hsh, pg, hpg, rfl⟩
    exact ⟨_, ⟨sh, hsh, rfl⟩, List.mem_map.2 ⟨pg, List.mem_range.2 hpg, rfl⟩⟩

/-- From `s` to `u` the pages of table `t` of rank `r` alone may differ. -/
structure PagesOnly (p t r : Nat) (s u : State) : Prop where
  frame : u = { s with parts := u.parts }
  part : u.part p = { s.part p with tables := (u.part p).tables }
  others : ∀ q, q ≠ p → u.part q = s.part q
  table : u.tableSt p t r = { s.tableSt p t r with pages := (u.tableSt p t r).pages }
  rest : ∀ k r', tableKey k r' ≠ tableKey t r → u.tableSt p k r' = s.tableSt p k r'

namespace PagesOnly

theorem refl (s : State) : PagesOnly p t r s s := ⟨rfl, rfl, fun _ _ => rfl, rfl, fun _ _ _ => rfl⟩

theorem trans (h : PagesOnly p t r s u) (h' : PagesOnly p t r u v) : PagesOnly p t r s v :=
  ⟨by rw [h'.frame, h.frame], by rw [h'.part, h.part], fun q hq => (h'.others q hq).trans (h.others q hq), by rw [h'.table, h.table],
    fun k r' hk => (h'.rest k r' hk).trans (h.rest k r' hk)⟩

theorem setPage (s : State) (x : PageRec) : PagesOnly p t r s (s.setPage p t r x) := by
  unfold State.setPage
  rw [modTableSt_eq]
  refine ⟨rfl, ?_, fun q hq => part_setPart_ne _ _ hq, ?_, fun k r' hk => tableSt_setTableSt_ne _ hk⟩
  · rw [part_setTableSt]
  · rw [tableSt_setTableSt]

theorem owners (h : PagesOnly p t r s u) (k r' : Nat) : (u.tableSt p k r').owners = (s.tableSt p k r').owners := by
  by_cases hk : tableKey k r' = tableKey t r
  · rw [tableSt_congr_key hk, tableSt_congr_key hk, h.table]
  · rw [h.rest k r' hk]

theorem homeRank (h : PagesOnly p t r s u) : u.homeRank p = s.homeRank p := by
  have hplan : (u.part p).plan = (s.part p).plan := by rw [h.part]
  unfold State.homeRank rankAt
  rw [hplan, h.frame]
  rfl

theorem ownedShards (h : PagesOnly p t r s u) (k : Nat) (d : TableDesc) (r' : Nat) : u.ownedShards p k d r' = s.ownedShards p k d r' := by
  unfold State.ownedShards shardOwner planRanks
  rw [h.homeRank, h.owners, h.part]

/-- Of another table, or another rank's part of the table, the page records stand. -/
theorem pageRec (h : PagesOnly p t r s u) {k r' : Nat} (hk : tableKey k r' ≠ tableKey t r) (d : TableDesc) (sh pg : Nat) :
    u.pageRec p k d r' sh pg = s.pageRec p k d r' sh pg := by
  unfold State.pageRec firstPage planRanks
  rw [h.rest k r' hk, h.part]

theorem allPages (h : PagesOnly p t r s u) {k r' : Nat} (hk : tableKey k r' ≠ tableKey t r) (d : TableDesc) :
    u.allPages p k d r' = s.allPages p k d r' := by
  unfold State.allPages
  simp only [h.ownedShards, h.pageRec hk]

end PagesOnly

/-- A page set is the one found under its key; the others are as before. -/
theorem pageRec_setPage (s : State) (p t : Nat) (d : TableDesc) (r : Nat) (x : PageRec) (sh pg : Nat) :
    (s.setPage p t r x).pageRec p t d r sh pg = if sh = x.shard ∧ pg = x.page then x else s.pageRec p t d r sh pg := by
  have hfirst : (s.setPage p t r x).firstPage p t d r sh pg = s.firstPage p t d r sh pg := by
    unfold firstPage planRanks
    rw [(PagesOnly.setPage s x).part]
  have hpages : ((s.setPage p t r x).tableSt p t r).pages =
      ((s.tableSt p t r).pages.filter fun y => !(y.shard = x.shard && y.page = x.page)) ++ [x] := by
    unfold setPage
    rw [modTableSt_eq, tableSt_setTableSt]
  unfold pageRec
  rw [hfirst, hpages, List.find?_append, List.find?_filter]
  by_cases hkey : sh = x.shard ∧ pg = x.page
  · obtain ⟨rfl, rfl⟩ := hkey
    rw [if_pos ⟨rfl, rfl⟩, List.find?_eq_none.2 (fun y _ => by simp; tauto), List.find?_cons_of_pos (by simp)]
    rfl
  · rw [if_neg hkey, List.find?_cons_of_neg (by simp; tauto), List.find?_nil, Option.or_none]
    congr 2
    funext y
    by_cases hy : y.shard = sh ∧ y.page = pg
    · obtain ⟨rfl, rfl⟩ := hy
      simp
      tauto
    · have hno : (decide (y.shard = sh) && decide (y.page = pg)) = false := by simpa using hy
      simp [hno]

/-! ## The counters return to 0 -/

/-- The load counter of a page returns to 0. -/
def resetCount (p t r : Nat) (s : State) (x : PageRec) : State := if x.count = 0 then s else s.setPage p t r { x with count := 0 }

theorem resetCount_pagesOnly (s : State) (x : PageRec) : PagesOnly p t r s (resetCount p t r s x) := by
  unfold resetCount
  split
  · exact .refl s
  · exact .setPage s _

/-- After the counters of some pages are reset, each of them counts 0, and every page counts 0 or stands. -/
theorem resetCounts_zero (d : TableDesc) {l : List PageRec} (hl : ∀ x ∈ l, s.pageRec p t d r x.shard x.page = x)
    (h : ∀ sh pg, (u.pageRec p t d r sh pg).count = 0 ∨ u.pageRec p t d r sh pg = s.pageRec p t d r sh pg) :
    (∀ sh pg, (u.pageRec p t d r sh pg).count = 0 → ((l.foldl (resetCount p t r) u).pageRec p t d r sh pg).count = 0) ∧
      ∀ x ∈ l, ((l.foldl (resetCount p t r) u).pageRec p t d r x.shard x.page).count = 0 := by
  induction l generalizing u with
  | nil => exact ⟨fun _ _ h => h, fun _ hx => nomatch hx⟩
  | cons x l ih =>
    have hset (sh pg : Nat) : (resetCount p t r u x).pageRec p t d r sh pg =
        if x.count ≠ 0 ∧ sh = x.shard ∧ pg = x.page then { x with count := 0 } else u.pageRec p t d r sh pg := by
      unfold resetCount
      by_cases hx : x.count = 0
      · rw [if_pos hx, if_neg (fun h => h.1 hx)]
      · rw [if_neg hx, pageRec_setPage]
        exact if_congr (by simp [hx]) rfl rfl
    have hx : ((resetCount p t r u x).pageRec p t d r x.shard x.page).count = 0 := by
      rw [hset]
      split
      · rfl
      · next hc =>
        have hcount : x.count = 0 := by tauto
        obtain h0 | heq := h x.shard x.page
        · exact h0
        · rw [heq, hl x List.mem_cons_self, hcount]
    have hkeep (sh pg : Nat) (h0 : (u.pageRec p t d r sh pg).count = 0) : ((resetCount p t r u x).pageRec p t d r sh pg).count = 0 := by
      rw [hset]
      split
      · rfl
      · exact h0
    have hnext (sh pg : Nat) : ((resetCount p t r u x).pageRec p t d r sh pg).count = 0 ∨
        (resetCount p t r u x).pageRec p t d r sh pg = s.pageRec p t d r sh pg := by
      obtain h0 | heq := h sh pg
      · exact .inl (hkeep sh pg h0)
      · rw [hset]
        split
        · exact .inl rfl
        · exact .inr heq
    obtain ⟨hstay, hrest⟩ := ih (fun y hy => hl y (List.mem_cons_of_mem x hy)) hnext
    refine ⟨fun sh pg h0 => hstay sh pg (hkeep sh pg h0), fun y hy => ?_⟩
    obtain rfl | hmem := List.mem_cons.1 hy
    · exact hstay _ _ hx
    · exact hrest y hmem

/-- A page in service counts its own record. -/
theorem resetCounts_allPages (s : State) (p t r : Nat) (d : TableDesc) :
    PagesOnly p t r s ((s.allPages p t d r).foldl (resetCount p t r) s) ∧
      ∀ x ∈ ((s.allPages p t d r).foldl (resetCount p t r) s).allPages p t d r, x.count = 0 := by
  have hkeys : ∀ x ∈ s.allPages p t d r, s.pageRec p t d r x.shard x.page = x := by
    intro x hx
    obtain ⟨sh, _, pg, _, rfl⟩ := mem_allPages.1 hx
    obtain ⟨hsh, hpg⟩ := s.pageRec_key p t d r sh pg
    rw [hsh, hpg]
  have hzero := (resetCounts_zero d hkeys (u := s) fun _ _ => .inr rfl).2
  have honly (l : List PageRec) (u : State) (hu : PagesOnly p t r s u) : PagesOnly p t r s (l.foldl (resetCount p t r) u) := by
    induction l generalizing u with
    | nil => exact hu
    | cons x l ih => exact ih _ (hu.trans (resetCount_pagesOnly u x))
  have hpages := honly (s.allPages p t d r) s (.refl s)
  refine ⟨hpages, fun x hx => ?_⟩
  obtain ⟨sh, hsh, pg, hpg, rfl⟩ := mem_allPages.1 hx
  rw [hpages.ownedShards] at hsh
  have h := hzero _ (mem_allPages.2 ⟨sh, hsh, pg, hpg, rfl⟩)
  obtain ⟨hshard, hpage⟩ := s.pageRec_key p t d r sh pg
  rw [hshard, hpage] at h
  exact h

/-! ## A table's swaps (R192) -/

/-- Swap `w` is one that the tier rule queues for a table of rank `r`. -/
def TierSwap (s : State) (p r t : Nat) (w : Swap) : Prop :=
  w.table = t ∧ w.done = 0 ∧ w.rank = r ∧ w.since = s.curStep p ∧ ∃ d x y, s.tableDesc p t = some d ∧ x ∈ s.allPages p t d r ∧
    y ∈ s.allPages p t d r ∧ w.a = (x.shard, x.page) ∧ w.b = (y.shard, y.page) ∧ x.home = 8 ∧ y.home < 8 ∧ 2 * y.count < x.count

/-- Swaps queued leave tables and plan. -/
theorem part_queued (s : State) (p : Nat) (ws : List Swap) :
    (s.modPart p fun x => { x with swaps := x.swaps ++ ws }).part p = { s.part p with swaps := (s.part p).swaps ++ ws } := s.part_modPart p _

theorem tableSt_queued (s : State) (p : Nat) (ws : List Swap) (k r : Nat) :
    (s.modPart p fun x => { x with swaps := x.swaps ++ ws }).tableSt p k r = s.tableSt p k r := tableSt_of_tables (by rw [part_queued]) k r

theorem allPages_queued (s : State) (p r : Nat) (ws : List Swap) (k : Nat) (d : TableDesc) :
    (s.modPart p fun x => { x with swaps := x.swaps ++ ws }).allPages p k d r = s.allPages p k d r := by
  have hhome : (s.modPart p fun x => { x with swaps := x.swaps ++ ws }).homeRank p = s.homeRank p := by
    unfold homeRank rankAt
    rw [part_queued]
    rfl
  unfold allPages ownedShards shardOwner pageRec firstPage planRanks
  simp only [hhome, part_queued, tableSt_queued]

/-- What placing a table does: its swaps are queued, then its counters are reset. -/
theorem placeTable_eq (s : State) (p t r : Nat) {d : TableDesc} (hd : s.tableDesc p t = some d) : ∃ ws : List Swap,
    s.placeTable p t r d = (s.allPages p t d r).foldl (resetCount p t r) (s.modPart p fun x => { x with swaps := x.swaps ++ ws }) ∧
      (s.flag F.ROW_PLACE_CFG_STACK_EN p = false → ∀ w ∈ ws, TierSwap s p r t w) ∧
      (s.flag F.ROW_PLACE_CFG_TIER_EN p = false → s.flag F.ROW_PLACE_CFG_STACK_EN p = false → ws = []) := by
  unfold placeTable
  extract_lets old used all free tier shown after taken stack n queued
  have hqueued : queued.allPages p t d r = s.allPages p t d r := allPages_queued s p r _ t d
  rw [hqueued]
  refine ⟨_, rfl, fun hs w hw => ?_, fun ht hs => ?_⟩
  · have hstack : stack = [] := if_neg (by rw [hs]; decide)
    rw [hstack, List.append_nil] at hw
    obtain ⟨v, hv, rfl⟩ := List.mem_map.1 hw
    have htier : v ∈ tierSwaps free := by
      simp only [tier] at hv
      split at hv
      · exact hv
      · exact nomatch hv
    obtain ⟨hx, hy, hhot, hcold, hload⟩ := mem_tierSwaps htier
    exact ⟨rfl, rfl, rfl, rfl, d, v.1, v.2, hd, (List.mem_filter.1 hx).1, (List.mem_filter.1 hy).1, rfl, rfl, hhot, hcold, hload⟩
  · have hstack : stack = [] := if_neg (by rw [hs]; decide)
    have htier : tier = [] := if_neg (by rw [ht]; decide)
    rw [hstack, htier]
    rfl

/-- The placement of the tables below `n` of rank `r`, from `s`. -/
structure Placing (p r n : Nat) (s u : State) : Prop where
  frame : u = { s with parts := u.parts, out := u.out }
  part : u.part p = { s.part p with tables := (u.part p).tables, swaps := (u.part p).swaps }
  others : ∀ q, q ≠ p → u.part q = s.part q
  owners : ∀ k r', (u.tableSt p k r').owners = (s.tableSt p k r').owners
  later : ∀ k, n ≤ k → u.tableSt p k r = s.tableSt p k r
  zero : ∀ k d, k < n → s.tableDesc p k = some d → ∀ x ∈ u.allPages p k d r, x.count = 0
  queued : ∃ ws, (u.part p).swaps = (s.part p).swaps ++ ws ∧
    (s.flag F.ROW_PLACE_CFG_STACK_EN p = false → ∀ w ∈ ws, ∃ t, TierSwap s p r t w) ∧
    (s.flag F.ROW_PLACE_CFG_TIER_EN p = false → s.flag F.ROW_PLACE_CFG_STACK_EN p = false → ws = [])

namespace Placing

variable {n : Nat}

theorem refl (s : State) : Placing p r 0 s s :=
  ⟨rfl, rfl, fun _ _ => rfl, fun _ _ => rfl, fun _ _ => rfl, fun _ _ hk => absurd hk (Nat.not_lt_zero _), [], (List.append_nil _).symm,
    fun _ _ hw => (nomatch hw), fun _ _ => rfl⟩

theorem tableDesc (h : Placing p r n s u) (k : Nat) : u.tableDesc p k = s.tableDesc p k := by
  unfold State.tableDesc
  rw [h.part]

theorem homeRank (h : Placing p r n s u) : u.homeRank p = s.homeRank p := by
  have hplan : (u.part p).plan = (s.part p).plan := by rw [h.part]
  unfold State.homeRank rankAt
  rw [hplan, h.frame]
  rfl

/-- The pages of a table that is yet to be placed stand. -/
theorem allPages (h : Placing p r n s u) {k : Nat} (hk : n ≤ k) (d : TableDesc) : u.allPages p k d r = s.allPages p k d r := by
  have howned : u.ownedShards p k d r = s.ownedShards p k d r := by
    unfold ownedShards shardOwner planRanks
    rw [h.homeRank, h.owners, h.part]
  have hrec (sh pg : Nat) : u.pageRec p k d r sh pg = s.pageRec p k d r sh pg := by
    unfold pageRec firstPage planRanks
    rw [h.later k hk, h.part]
  unfold State.allPages
  simp only [howned, hrec]

theorem emit (h : Placing p r n s u) (o : Out) : Placing p r n s (u.emit o) :=
  ⟨by rw [h.frame]; rfl, h.part, h.others, h.owners, h.later, h.zero, h.queued⟩

theorem skip (h : Placing p r n s u) (hd : s.tableDesc p n = none) : Placing p r (n + 1) s u :=
  ⟨h.frame, h.part, h.others, h.owners, fun k hk => h.later k (by omega), fun k d hk hkd => by
    obtain rfl | hlt := Nat.eq_or_lt_of_le (Nat.le_of_lt_succ hk)
    · exact nomatch hkd.symm.trans hd
    · exact h.zero k d hlt hkd, h.queued⟩

theorem placeTable (h : Placing p r n s u) {d : TableDesc} (hd : s.tableDesc p n = some d) : Placing p r (n + 1) s (u.placeTable p n r d) := by
  have hdU : u.tableDesc p n = some d := (h.tableDesc n).trans hd
  obtain ⟨ws, heq, htier, hnone⟩ := placeTable_eq u p n r hdU
  have hreset := resetCounts_allPages (u.modPart p fun x => { x with swaps := x.swaps ++ ws }) p n r d
  rw [allPages_queued, ← heq] at hreset
  have hpart := part_queued u p ws
  have htable := tableSt_queued u p ws
  have hall := allPages_queued u p r ws
  have hframe : (u.modPart p fun x => { x with swaps := x.swaps ++ ws }) =
    { u with parts := (u.modPart p fun x => { x with swaps := x.swaps ++ ws }).parts } := rfl
  have hothers : ∀ q, q ≠ p → (u.modPart p fun x => { x with swaps := x.swaps ++ ws }).part q = u.part q :=
    fun q hq => part_setPart_ne _ _ hq
  generalize (u.modPart p fun x => { x with swaps := x.swaps ++ ws }) = v at *
  obtain ⟨hpages, hzero⟩ := hreset
  generalize u.placeTable p n r d = z at *
  have hne {k : Nat} (hk : k ≠ n) : tableKey k r ≠ tableKey n r := by
    unfold tableKey
    omega
  refine ⟨by rw [hpages.frame, hframe, h.frame], by rw [hpages.part, hpart, h.part],
    fun q hq => (hpages.others q hq).trans ((hothers q hq).trans (h.others q hq)),
    fun k r' => (hpages.owners k r').trans (by rw [htable, h.owners]),
    fun k hk => (hpages.rest k r (hne (by omega))).trans ((htable k r).trans (h.later k (by omega))), fun k e hk hke => ?_, ?_⟩
  · by_cases hkn : k = n
    · subst hkn
      obtain rfl : e = d := Option.some.inj (hke.symm.trans hd)
      exact hzero
    · rw [hpages.allPages (hne hkn), hall]
      exact h.zero k e (by omega) hke
  · obtain ⟨old, hold, holdTier, holdNone⟩ := h.queued
    have hflag (f : Fld) : u.flag f p = s.flag f p := by
      rw [h.frame]
      rfl
    refine ⟨old ++ ws, by rw [hpages.part, hpart, hold, List.append_assoc], fun hs w hw => ?_, fun ht hs => ?_⟩
    · obtain hw | hw := List.mem_append.1 hw
      · exact holdTier hs w hw
      · obtain ⟨htab, hdone, hrank, hsince, e, x, y, he, hx, hy, hpair⟩ := htier ((hflag _).trans hs) w hw
        rw [h.allPages le_rfl] at hx hy
        exact ⟨n, htab, hdone, hrank, hsince.trans (by rw [h.frame]; rfl), e, x, y, (h.tableDesc n).symm.trans he, hx, hy, hpair⟩
    · rw [holdNone ht hs, hnone ((hflag _).trans ht) ((hflag _).trans hs)]
      rfl

end Placing

/-- What the end of a period does for a table of rank `r`. -/
def placeRank (p r : Nat) (s : State) (t : Nat) : State :=
  match s.tableDesc p t with
  | some d => (if s.flag F.ROW_PLACE_CFG_SHARD_EN p then s.emit (.loads p t (s.shardLoads p t r d)) else s).placeTable p t r d
  | none => s

theorem placeRanks_placing (s : State) (p r n : Nat) : Placing p r n s ((List.range n).foldl (placeRank p r) s) := by
  induction n with
  | zero => exact .refl s
  | succ n ih =>
    rw [List.range_succ, List.foldl_append, List.foldl_cons, List.foldl_nil]
    generalize (List.range n).foldl (placeRank p r) s = u at ih
    unfold placeRank
    rw [ih.tableDesc]
    cases hd : s.tableDesc p n with
    | none => exact ih.skip hd
    | some d =>
      dsimp only
      split
      · exact (ih.emit _).placeTable hd
      · exact ih.placeTable hd

theorem placePeriod_eq {pl : Plan} (hplan : s.plan p = some pl) (hhere : s.ranksHere p = [r]) (hhome : s.hostOf p r = s.homePos p r) :
    s.placePeriod p = ((List.range pl.tables.length).foldl (placeRank p r) s).showSwaps p := by
  unfold placePeriod
  rw [hhere, hplan, List.filter_cons_of_pos (by rw [hhome]; exact decide_eq_true rfl), List.filter_nil]
  rfl

end State
end Sys2Proof.Machine

namespace Sys2Proof
open Machine State

theorem placementPeriod : Claims.PlacementPeriod := by
  intro s p r pl hp hplan hactive hcommitted hstep hperiod hhere hhome _
  have hexec : exec (.placementPeriod p) s = .next (s.placePeriod p) :=
    congrArg Host.Outcome.next (if_pos ⟨hactive, hcommitted, hstep, hperiod⟩)
  rw [hexec, placePeriod_eq hplan hhere hhome]
  have hplaced := placeRanks_placing s p r pl.tables.length
  generalize (List.range pl.tables.length).foldl (placeRank p r) s = u at hplaced ⊢
  obtain ⟨ws, hws, htier, hnone⟩ := hplaced.queued
  have hdrop : (u.part p).swaps.drop (s.part p).swaps.length = ws := by rw [hws, List.drop_left]
  have hparts : (u.showSwaps p).parts = u.parts := rfl
  have hregs : u.regs = s.regs := by rw [hplaced.frame]
  have hshow : (u.showSwaps p).getF F.ROW_PLACE_STATUS_QUEUED p = (u.part p).swaps.length % 2 ^ 32 :=
    u.getF_putF F.ROW_PLACE_STATUS_QUEUED p _ (by decide) (by decide)
  have hword (o : Nat) (ho : o ≠ F.ROW_PLACE_STATUS_QUEUED.off p) : (u.showSwaps p).word o = u.word o :=
    word_putF_ne u F.ROW_PLACE_STATUS_QUEUED p _ ho
  have hall (t : Nat) (d : TableDesc) : (u.showSwaps p).allPages p t d r = u.allPages p t d r :=
    allPages_congr hparts (homeRank_congr hparts (hword _ (by simp only [Fld.off, F.FAB_CFG_X, F.ROW_PLACE_STATUS_QUEUED]; omega))) t d r
  refine ⟨_, rfl, fun t d ht hd x hx => ?_, ?_, ?_, fun hts hss => ?_, fun hss w hw => ?_, ?_, fun q hq => ?_, fun o ho => ?_⟩
  · rw [hall] at hx
    exact hplaced.zero t d ht hd x hx
  · rw [part_congr hparts, hws]
    exact List.prefix_append _ _
  · rw [hshow, part_congr hparts]
  · rw [part_congr hparts, hws, hnone hts hss, List.append_nil]
  · rw [part_congr hparts, hdrop] at hw
    obtain ⟨t, rfl, hdone, hrank, hsince, hpair⟩ := htier hss w hw
    exact ⟨hdone, hrank, hsince, hpair⟩
  · rw [showSwaps, putF, setWord, hplaced.frame]
  · rw [part_congr hparts]
    exact hplaced.others q hq
  · rw [hword o ho]
    exact congrArg (fun m => mget (regReset o) m o) hregs

/-- Settles O34: table after table a period's end queues swaps and resets the counters of that table's pages alone; a copy is
one store of a page read whole. -/
theorem pagesMove : Obligations.PagesMove := by
  unfold Obligations.PagesMove
  exact ⟨placementPeriod, pageCopies⟩

end Sys2Proof
end
